-- ==== Sys2Proof/Word.lean ====
section
/-! DEFINITION. Words, bytes and the one container of the model. A `Tab α` is a table from numbers to values held as a list of
pairs with strictly rising keys, so that equal tables are equal data. It comes in two uses: a table of what is present
(`find?`, `ins`, `del`), and a table with a default, which lists no entry equal to the default (`get`, `set`). -/

namespace Sys2Proof

/-- A 32-bit register word. -/
abbrev Word := BitVec 32
/-- A 64-bit memory word. -/
abbrev DWord := BitVec 64
/-- One byte. -/
abbrev Byte := BitVec 8

/-- A table from numbers to values: pairs with strictly rising keys. -/
abbrev Tab (α : Type) := List (Nat × α)

namespace Tab
variable {α : Type}

/-- The value listed under a key. -/
def find? : Tab α → Nat → Option α
  | [], _ => none
  | (k', v) :: t, k => if k' = k then some v else find? t k

/-- The value listed under a key, or the default where none is listed. -/
def get (t : Tab α) (d : α) (k : Nat) : α := (find? t k).getD d

/-- List a value under a key, in place of the value listed there. -/
def ins : Tab α → Nat → α → Tab α
  | [], k, v => [(k, v)]
  | (k', v') :: t, k, v =>
    if k < k' then (k, v) :: (k', v') :: t
    else if k = k' then (k, v) :: t
    else (k', v') :: ins t k v

/-- List nothing under a key. -/
def del : Tab α → Nat → Tab α
  | [], _ => []
  | (k', v') :: t, k => if k = k' then del t k else (k', v') :: del t k

/-- Give a key a value in a table whose unlisted keys read as the default `d`. -/
def set [DecidableEq α] (t : Tab α) (d : α) (k : Nat) (v : α) : Tab α :=
  if v = d then del t k else ins t k v

/-- The keys rise strictly. -/
def rising : Tab α → Bool
  | [] => true
  | [_] => true
  | (k, _) :: (k', v') :: t => decide (k < k') && rising ((k', v') :: t)

/-- Apply a function to every listed value. -/
def mapVal (t : Tab α) (f : Nat → α → α) : Tab α := t.map (fun kv => (kv.1, f kv.1 kv.2))

/-- The lowest number below `n` that is not a key. -/
def lowestFree (t : Tab α) (lo n : Nat) : Option Nat :=
  (List.range' lo (n - lo)).find? (fun k => (find? t k).isNone)

end Tab

/-- Bits `lo + wid - 1` down to `lo` of a word, as a number. -/
def bitsOf {w : Nat} (x : BitVec w) (lo wid : Nat) : Nat := (x.toNat >>> lo) % 2 ^ wid

/-- Bit `i` of a word. -/
def bitAt {w : Nat} (x : BitVec w) (i : Nat) : Bool := x.getLsbD i

/-- The word with bits `lo + wid - 1` down to `lo` replaced by `v`. -/
def putBits (x : Word) (lo wid v : Nat) : Word :=
  let m : Nat := (2 ^ wid - 1) <<< lo
  (x &&& ~~~ (BitVec.ofNat 32 m)) ||| BitVec.ofNat 32 ((v % 2 ^ wid) <<< lo)

/-- Bit `i` of a number. -/
def natBit (x i : Nat) : Bool := x.testBit i

/-- The number with bit `i` set or cleared. -/
def natPutBit (x i : Nat) (b : Bool) : Nat :=
  if x.testBit i = b then x else if b then x + 2 ^ i else x - 2 ^ i

/-- A count that stays at its highest value. -/
def satAdd (x d top : Nat) : Nat := min (x + d) top

/-- A two's complement number of `w` bits read as an integer. -/
def toSigned (w x : Nat) : Int := if x % 2 ^ w < 2 ^ (w - 1) then (x % 2 ^ w : Nat) else (x % 2 ^ w : Nat) - (2 ^ w : Nat)

/-- An integer written as a two's complement number of `w` bits. -/
def ofSigned (w : Nat) (x : Int) : Nat := (x % (2 ^ w : Nat)).toNat

/-- A little-endian number from its bytes (R7). -/
def leNat : List Byte → Nat
  | [] => 0
  | b :: r => b.toNat + 256 * leNat r

/-- The `n` little-endian bytes of a number (R7). -/
def leBytes : Nat → Nat → List Byte
  | 0, _ => []
  | n + 1, x => BitVec.ofNat 8 x :: leBytes n (x / 256)

/-- Zero for false and one for true. -/
def b2n (b : Bool) : Nat := if b then 1 else 0

/-- The distance from `a` forward to `b` on a ring of `n`. -/
def ringDist (n a b : Nat) : Nat := (b + n - a % n) % n

end Sys2Proof
end

