-- ==== Sys2Proof/Config.lean ====
section
/-! DEFINITION. What a part fixes: the three variants with their unit counts (Table 0.1), the page classes and ranges of BAR0
(Tables 0.4 and 3.2), the form of a register row, and the values the spec leaves open, as opaque constants (assumption 1). -/

namespace Sys2Proof

/-- The three parts of the family. -/
inductive Variant where
  | el480
  | el320
  | el160
  deriving DecidableEq, Repr

namespace Variant

/-- Pick a value by part, in the order of the manual's columns. -/
def pick (v : Variant) {α : Type} (a b c : α) : α :=
  match v with
  | .el480 => a
  | .el320 => b
  | .el160 => c

/-- Table 0.1, unit counts. -/
def facetExposed (v : Variant) : Nat := v.pick 64 48 32
def facetSpare (v : Variant) : Nat := v.pick 4 4 2
def facetTiles (v : Variant) : Nat := v.facetExposed + v.facetSpare
def lensClusters (v : Variant) : Nat := v.pick 16 8 0
def lensCores (v : Variant) : Nat := 4 * v.lensClusters
def serve (v : Variant) : Bool := v.pick true true false
def loopChannels (v : Variant) : Nat := v.pick 32 32 16
def pwmPairs (v : Variant) : Nat := v.pick 16 16 8
def clnkPorts (v : Variant) : Nat := v.pick 8 6 4
def memcChannels (v : Variant) : Nat := v.pick 2 2 1
def partitions (v : Variant) : Nat := v.pick 16 16 8
def rqtEntries (v : Variant) : Nat := v.pick 1024 1024 0
def pinInputs (v : Variant) : Nat := v.pick 8 8 4
def ainInputs (v : Variant) : Nat := v.pick 32 32 16
/-- Logical mesh rows (Table 6.17). -/
def meshRows (v : Variant) : Nat := v.pick 8 6 4

end Variant

/-- The page classes of Table 3.2. -/
inductive PageClass where
  | chip | ptb | pmu | rst | rtu | tku | loupe | memc | memcal | part | loopg | ch | pwm | trip | clnk | clnkg
  | ft | fmap | solv | serve | lens | rqt | mask | prefixIx | sampler | draft | qeg | qp | mirror
  deriving DecidableEq, Repr

/-- The domain of a page class (Table 3.2). -/
inductive Domain where
  | plan | serve | system
  deriving DecidableEq, Repr

/-- Access codes of register fields (R8, Table 0.7). -/
inductive Access where
  | ro | rw | w1c | w1s | wo | rwl
  deriving DecidableEq, Repr

/-- The place of a field inside its page: the register's offset, the lowest bit and the width. -/
structure Fld where
  off : Nat
  lo : Nat
  wid : Nat
  deriving DecidableEq, Repr

/-- The same field of a register `d` bytes further on. -/
def Fld.sh (f : Fld) (d : Nat) : Fld := { f with off := f.off + d }

/-- One field of a register row: place, access code, and the lowest and highest value a write may give it (R10). -/
structure RegField where
  lo : Nat
  wid : Nat
  acc : Access
  least : Nat
  most : Nat
  deriving DecidableEq, Repr

/-- One register row of a page class: first offset, how many there are, their distance, reset value and fields. -/
structure RegRow where
  off : Nat
  num : Nat
  stride : Nat
  reset : Nat
  fields : List RegField
  deriving DecidableEq, Repr

namespace Config

/-- A value the spec leaves open, by a running number that the state advances (assumption 1). -/
opaque freeNat : Nat → Nat
/-- A single bit the spec leaves open, by running number (assumption 1). -/
opaque freeBit : Nat → Bool
/-- How far the stamp bus lags, by tick, page and code (R44, assumption 1). -/
opaque stampSkew : Nat → Nat → Nat → Nat
/-- What the boundary-scan cells capture from the balls, by running number (R652, assumption 1). -/
opaque scanCells : Nat → BitVec 309
/-- What a flash command that is cut off leaves in its sector, by running number and byte (R660, assumption 1). -/
opaque flashLeft : Nat → Nat → BitVec 8

/-- Lanes of a mesh datum that its sender does not send, by running number and lane (R190, assumption 1). -/
opaque meshLane : Nat → Nat → BitVec 64
/-- What a fetch reads from a poisoned word of the program, by tile and word (R509, assumption 1). -/
opaque poisonWord : Nat → Nat → BitVec 64
/-- The value bits of a container that is poisoned, by the value it would hold otherwise (R176, R178, assumption 93). -/
opaque poisonUnder : BitVec 64 → BitVec 64
/-- The value bit of a predicate lane that is poisoned, by the bit it would hold otherwise (R178, assumption 93). -/
opaque poisonUnderBit : Bool → Bool

/-- Lanes of a command datum of the sequencer, by STOP, KEEP, FALLBACK and lane (R251, assumption 1). -/
opaque solveCommand : Bool → Bool → Bool → Nat → BitVec 64

/-! What a model computes is its image's, in a layout that is Virsum's (R432): the KV bytes of a position, its logits, a summary and the
KV bytes that a summary stands for. The spec fixes what they depend on (R58, R59, R240), and no more (assumption 1). -/

/-- Byte `k` of the KV data of a position, from FLUSH, the image, the KV data of the positions before it and its token. -/
opaque kvByte : Bool → List (BitVec 8) → List (BitVec 8) → Nat → Nat → BitVec 8
/-- The logit of token `t` at a position, as binary32. -/
opaque logit : Bool → List (BitVec 8) → List (BitVec 8) → Nat → Nat → Word
/-- A flush replaced a non-zero value while a position was computed (R230). -/
opaque posFlushed : List (BitVec 8) → List (BitVec 8) → Nat → Bool
/-- Byte `k` of the summary of committed positions (R463), from FLUSH, the image and their KV data; and whether a flush replaced a
non-zero value. -/
opaque summaryByte : Bool → List (BitVec 8) → List (BitVec 8) → Nat → BitVec 8
opaque summaryFlushed : List (BitVec 8) → List (BitVec 8) → Bool
/-- Byte `k` of position `n` of a summary-conditioned prefill (R464), from FLUSH, the image and the summary; and its flush. -/
opaque summaryKv : Bool → List (BitVec 8) → List (BitVec 8) → Nat → Nat → BitVec 8
opaque summaryKvFlushed : List (BitVec 8) → List (BitVec 8) → Bool

end Config

end Sys2Proof
end

