-- ==== Sys2Proof/Syntax.lean ====
section
/-! DEFINITION. The commands of the block: one constructor of `Instr` per row of spec/opcode_table.json, with the data that comes
from outside with it, and the types of that data. -/

namespace Sys2Proof

/-- A datum on its way between islands: its bits, and whether it is poison (R47) or marked lost (R158). -/
structure Datum where
  val : DWord := 0
  poison : Bool := false
  lost : Bool := false
  deriving DecidableEq, Repr

/-- Commands MEMC issues in open time (R24). -/
inductive RefreshOp where
  | refresh | rfm | zq
  deriving DecidableEq, Repr

/-- AER reports (R149). -/
inductive AerKind where
  | poisonedTlp | completionTimeout | uncorrectableInternal
  deriving DecidableEq, Repr

/-- How a ring read ends (R124, R662): the entries it brings, each with whether it holds a poisoned byte, or a failure. -/
inductive RingRead where
  | good (entries : List (BitVec 512 × Bool))
  | unsupported
  | aborted
  | timeout
  deriving DecidableEq, Repr

/-- Where an uncorrectable error is met while an entry is admitted (R662, R145). -/
inductive AdmitUe where
  | none | staging | control
  deriving DecidableEq, Repr

/-- A release of one release register (R48, R665): the register, its phase and position, its safe output where the channel's
fallback policy is SAFE (none: HOLD), the slot whose output it is, and the logical positions its value depends on. -/
structure PlanRelease where
  reg : Nat
  phase : Nat
  pos : Nat
  safe : Option DWord := none
  slot : Option Nat := none
  deps : List Nat := []
  deriving DecidableEq, Repr

/-- One logical position's part of an image (R201): its Trays, its SRAM words that are not 0, the bytes it needs, its start (the Tray and
the tick in the base period, R187), and the release registers its release ports are bound to (R179), with whether every port that its
stores reach is bound. -/
structure PlanTile where
  pos : Nat
  trays : Nat := 1
  words : List (Nat × DWord) := []
  bytes : Nat := 0
  startTray : Nat := 0
  startTick : Nat := 0
  ports : List (Nat × Nat) := []
  portsBound : Bool := true
  deriving DecidableEq, Repr

/-- What the device reads from the body of a solver image, whose layout is Virsum's (R245): its length, the Tray layout major version, and
the part of each logical position (assumption 11). -/
structure SimgBody where
  bytes : Nat := 0
  trayMajor : Nat := 0
  tiles : List PlanTile := []
  deriving DecidableEq, Repr

/-- A plan image as the device reads it from Virsum's layout (R249): what its layout encodes, by name. The spec gives the contents
and the checks, and leaves the byte layout to Virsum (assumption 11). -/
structure PlanImage where
  planId : Nat := 0
  /-- The length and the layout major version match. -/
  formatOk : Bool := true
  period : Nat := 20000
  cycleH : Nat := 1
  mirrorPhase : Nat := 0
  /-- Minimum data rate, as a RATE code (R526). -/
  minRate : Nat := 0
  /-- Reserved windows of each channel: start and length (R25). -/
  calendars : List (List (Nat × Nat)) := []
  releases : List PlanRelease := []
  /-- Input-latch phases with the grain of their islands (R53). -/
  latches : List (Nat × Nat) := []
  /-- The loop schedule: CH_SCHED, CH_NEST, CH_INPUTS and CH_ROUTE of each channel (R283). -/
  loops : List (Word × Word × Word × Word) := []
  /-- The PWM schedule (R318). -/
  pwms : List Word := []
  /-- The slot table of each port (R374). -/
  slotTables : List (List (BitVec 128)) := []
  /-- Slot bindings (Table 8.3). -/
  bindings : List (BitVec 256) := []
  /-- Tray layout major version and the programs (R201). -/
  trayMajor : Nat := 0
  tiles : List PlanTile := []
  /-- Sends to tiles: the sending position where a tile sends, the destination, the receive channel and the tick in the base period
  (Table 11.15). -/
  peerSends : List (Option Nat × Nat × Nat × Nat) := []
  /-- Measurement reports: the slot whose lead tile makes them and the tick in the plan cycle at which they reach the sequencer. -/
  measReports : List (Nat × Nat) := []
  /-- The work map: bit j for base periods at position j (R561); none where it is missing. -/
  workMap : Option Nat := none
  deriving DecidableEq, Repr

/-- What a job's host-memory read brings (R516): its bytes with the offsets of the poisoned ones, or a failure with Unsupported
Request, Completer Abort or a timeout. -/
inductive ReadResult where
  | good (data : List Byte) (poison : List Nat)
  | unsupported
  | aborted
  | timeout
  deriving DecidableEq, Repr

/-- What a channel's sample meets beside its inputs (R313, R309): a UE in its coefficient or state memory, a mismatch of the slice's
self-check, or a UE in the test table entry it reads. -/
inductive LoopFault where
  | none | coef | state | selfCheck | table
  deriving DecidableEq, Repr

/-- A frame as it comes from the limb (R362, R365, R366): its bytes from the header to the CRC, whether a code error lies inside it or no
/T/ or /V/ ends it in time, and whether /V/ ends it. -/
structure RxFrame where
  bytes : List Byte := []
  codeErr : Bool := false
  abandoned : Bool := false
  deriving DecidableEq, Repr

/-- A mailbox frame from the limb (R396): the header fields of Table 11.5 and the payload. -/
structure MbxFrame where
  chan : Nat := 0
  epoch : Nat := 0
  cycle : Nat := 0
  data : List Byte := []
  deriving DecidableEq, Repr

/-- A dot product of a model image: the format codes of its operands (0 E4M3, 1 E5M2, 2 ELX6, 3 INT8, 4 ELB4), and the element offsets of
its ELB4 scale blocks (R224, R225). -/
structure ModelDot where
  a : Nat := 0
  b : Nat := 0
  scaleAt : List Nat := []
  deriving DecidableEq, Repr

/-- What the device reads from a model image in Virsum's layout (R432): the bytes that header and body need, whether every bit that no
chapter defines is 0, and its dot products (assumption 11). -/
structure ModelBody where
  bytes : Nat := 128
  rsvClear : Bool := true
  dots : List ModelDot := []
  deriving DecidableEq, Repr


/-- What a foreign read names (R90): a page, the registers of a queue pair, or its BAR2 region. -/
inductive ForeignRead where
  | page (p : Nat)
  | qpRegs (q : Nat)
  | bar2 (q : Nat)
  deriving DecidableEq, Repr
/-- The commands, one constructor per row of spec/opcode_table.json in the table's order. -/
inductive Instr where
  /-- REGISTER_WRITE (R79). A host BAR0 write to a register with no row of its own takes effect by its access code, or is held for the block's latch phase on Plan pages. -/
  | registerWrite (part page off : Nat) (be : BitVec 4) (data : Word)
  /-- ISLAND_NO_ANSWER (R80). A page's island gives no answer within 1 200 ticks; HIU completes the read with 0 or drops the write, and captures the event. -/
  | islandNoAnswer (part page : Nat) (read : Bool)
  /-- PTB_NOW_READ (R39). A read of PTB_NOW_LO returns PTB[31:0] and captures the high half for the reading partition. -/
  | ptbNowRead (part : Nat)
  /-- PTB_BPN_READ (R93). A read of PTB_BPN_LO returns the low base-period number and captures the high half for the reading partition. -/
  | ptbBpnRead (part : Nat)
  /-- PG_CTRL_ENABLE (R82). A write of PG_CTRL.ENABLE lets the unit take new work, or stops it from taking new work while work in flight completes. -/
  | pgCtrlEnable (part page : Nat) (on : Bool)
  /-- PG_CTRL_QUIESCE (R82). A write of PG_CTRL.QUIESCE holds new work, or releases held work in arrival order. -/
  | pgCtrlQuiesce (part page : Nat) (on : Bool)
  /-- SOFT_RESET (R83). A write of PG_CTRL.SOFT_RESET = 1 starts a soft reset of the page's unit. -/
  | softReset (part page : Nat)
  /-- SOFT_RESET_DONE (R83). A soft reset completes and RESET_BUSY falls. -/
  | softResetDone (page : Nat)
  /-- RESET_TIMEOUT (R84). RESET_BUSY stays 1 for 80 000 ticks; the reset is abandoned and the unit leaves service with FAULT = 1. -/
  | resetTimeout (page : Nat)
  /-- IN_SERVICE_CLEAR (R155). A write of PG_CTRL.IN_SERVICE = 0 takes the unit out of service with the effects of Table 5.7. -/
  | inServiceClear (part page : Nat)
  /-- IN_SERVICE_SET (R155). A write of PG_CTRL.IN_SERVICE = 1 checks the return precondition and starts the unit's self-test. -/
  | inServiceSet (part page : Nat)
  /-- SELF_TEST_DONE (R156). A self-test ends; on a pass the unit is prepared to rejoin at its boundary, and on a fail RETURN_REFUSED is captured. -/
  | selfTestDone (page : Nat) (pass : Bool)
  /-- UNIT_FAILED (R144). A unit detects a fault that stops it and leaves service under Table 5.7. -/
  | unitFailed (page : Nat) (detail : Word)
  /-- PG_IRQ_FORCE (R82). A write to PG_IRQ_FORCE sets the named defined interrupt causes for test. -/
  | pgIrqForce (part page : Nat) (bits : Word)
  /-- PG_ERR_CLR (R85). A write of 1 to PG_ERR_CLR clears PG_ERR0-3 and re-arms the capture. -/
  | pgErrClr (part page : Nat) (data : Word)
  /-- PG_LOCK (R91). A write of 1 to PG_LOCK makes the page's RWL fields read-only. -/
  | pgLock (part page : Nat) (data : Word)
  /-- RST_CHIP (R94). A write of RST_CHIP with the correct KEY by P0 starts a chip reset. -/
  | rstChip (part : Nat) (data : Word)
  /-- RST_PART (R95). A write of RST_PART with the correct KEY by P0 starts a partition reset of the named partition. -/
  | rstPart (part : Nat) (data : Word)
  /-- PERST_ASSERT (R96). PERST# is asserted and causes a chip reset. -/
  | perstAssert
  /-- PERST_DEASSERT (R622). PERST# is deasserted and HIU begins link training. -/
  | perstDeassert
  /-- LINK_TRAINED (R622). The PCIe link finishes training and HIU answers configuration requests, with retry status until HOST_READY. -/
  | linkTrained
  /-- PCIE_HOT_RESET (R96). A PCIe hot reset of the physical function causes a chip reset. -/
  | pcieHotReset
  /-- FLR (R96). A Function Level Reset of a virtual function starts a partition reset of that partition without host-memory writes. -/
  | flr (fn : Nat)
  /-- BME_CHANGE (R146). A change of a function's Bus Master Enable holds or releases the partition's host-memory writes, CQ entries and MSI-X messages in order. -/
  | bmeChange (fn : Nat) (on : Bool)
  /-- BASE_PERIOD_START (R37). The PTB master reaches a base-period start; the base-period number increments and markers go to every Plan island. -/
  | basePeriodStart
  /-- MARKER_ARRIVAL (R41). A base-period marker reaches a Plan island, which sets its aligned copy to the start tick plus 12. -/
  | markerArrival (island delay : Nat)
  /-- MARKER_MISS (R43). No marker arrives within 64 ticks of a base-period start; after a second miss the island goes out of service. -/
  | markerMiss (island : Nat)
  /-- SYNC_PULSE_IN (R64). A pulse arrives on PTB_SYNC_IN; a follower places its epoch on it or checks it against its window. -/
  | syncPulseIn (tick : Nat)
  /-- SYNC_PULSE_MISSING (R64). A follower's pulse window passes with no pulse, and SYNC_LOST is captured. -/
  | syncPulseMissing
  /-- MIRROR_REFRESH (R21). At the plan's mirror phase, the mirror release point rewrites all 16 mirror pages with the base-period number first and last. -/
  | mirrorRefresh
  /-- INPUT_LATCH (R19). At a latch phase a Plan input takes the datum or host write held at its boundary. -/
  | inputLatch (page : Nat)
  /-- CROSSING_ARRIVAL (R46). A scheduled crossing completes and its datum is held in the receiver's landing buffer. -/
  | crossingArrival (page idx : Nat) (data : Datum) (tick : Nat)
  /-- SCHEDULED_CYCLE (R47). A consumer reads its landing buffer at the scheduled cycle. -/
  | scheduledCycle (page idx : Nat) (src : Option Nat)
  /-- DELIVERY_COMPLETE (R49). A delivery completes into a release register's pending stage for its next release. -/
  | deliveryComplete (n tick : Nat)
  /-- CUT_TICK (R50). A release register reaches the cut tick of a release with no delivery, and the fallback policy is applied. -/
  | cutTick (reg tick : Nat)
  /-- RELEASE_TICK (R48). At the release tick a release register copies its pending stage into its output stage. -/
  | releaseTick (reg tick : Nat)
  /-- PLAN_EPOCH (R56). At a plan epoch the device discards old pending stages, applies the new P, H, plan, remaps, calendars and schedules, or ends the plan for a PLAN_STOP. -/
  | planEpoch
  /-- GUARD_START (R23). A reserved window's 48-tick guard begins; no new Serve or System command issues and all banks are precharged. -/
  | guardStart (chan win : Nat)
  /-- WINDOW_END (R22). A reserved window ends, and waiting Serve and System requests issue in open time. -/
  | windowEnd (chan win : Nat)
  /-- REFRESH (R24). MEMC issues due refresh, RFM or ZQ commands in open time. -/
  | refresh (chan : Nat) (op : RefreshOp)
  /-- PLAN_OFF_WINDOW (R32). A Plan request reaches MEMC outside every reserved window and is served in open time ahead of other requests, with a capture. -/
  | planOffWindow (chan : Nat) (addr : Nat)
  /-- PUSH (R101). A 64-byte write to a push slot is held for its SQ index, or dropped. -/
  | push (part qp slot : Nat) (entry : BitVec 512)
  /-- SQ_DOORBELL (R103). A doorbell write sets SQ_DB to a new tail, or is ignored. -/
  | sqDoorbell (part qp : Nat) (be : BitVec 4) (value : Word) (otherBytes : Bool)
  /-- CQ_DOORBELL (R120). A doorbell write moves the CQ head and frees space for held completions. -/
  | cqDoorbell (part qp : Nat) (be : BitVec 4) (value : Word) (otherBytes : Bool)
  /-- RING_READ_COMPLETE (R124). A ring read of submission entries completes, successfully, poisoned or failed. -/
  | ringReadComplete (qp : Nat) (res : RingRead)
  /-- ENTRY_ADMIT (R100). QE admits the next SQ entry of a queue pair from a push or the ring into staging, subject to job-table admissibility. -/
  | entryAdmit (ue : AdmitUe)
  /-- JOB_READY (R113). A job with its LAST entry admitted, checks passed and fence met is handed to its target block. -/
  | jobReady (job : Nat)
  /-- CQ_ENTRY_WRITE (R123). QE writes, or folds, a job's completion once the block is done and earlier jobs have completed and CQ space exists. -/
  | cqEntryWrite (qp : Nat)
  /-- IRQ_TIMER_EXPIRY (R121). QP_IRQ.TIME passes since the first counted signalling entry, and the MSI-X message is sent. -/
  | irqTimerExpiry (qp : Nat)
  /-- ADMIN_QP_ENABLE (R125). A write of QP_CTRL.EN = 1 on an admin queue pair makes it ACTIVE with all indices reset. -/
  | adminQpEnable (part qp : Nat) (data : Word)
  /-- ADMIN_QP_DISABLE (R125). A write of QP_CTRL.EN = 0 on an admin queue pair stops admission and discards held and unadmitted entries. -/
  | adminQpDisable (part qp : Nat) (data : Word)
  /-- NOP (R108). The NOP opcode completes OK with RESULT 0. -/
  | nop (job : Nat)
  /-- QP_CREATE (R127). Creates an ACTIVE queue pair for the submitting partition. -/
  | qpCreate (job : Nat)
  /-- QP_DELETE (R128). Moves a queue pair to DRAINING and stops admission, in DRAIN or ABORT mode. -/
  | qpDelete (job : Nat)
  /-- ABORT (R129). Cancels the oldest unfinished job with the named tag on the target queue pair. -/
  | abort (job : Nat)
  /-- PART_RESET (R140). The admin command resets the named partition. -/
  | partReset (job : Nat)
  /-- PARTITION_RESET_END (R152). A partition reset finishes: the reset-done entry is written and RST_PART_BUSY falls. -/
  | partitionResetEnd (part : Nat)
  /-- PART_RESET_TIMEOUT (R154). A job is still held by a block 1 600 000 ticks after a partition reset began; the block leaves service and the reset completes. -/
  | partResetTimeout (part : Nat)
  /-- PART_SET_SHARE (R143). Sets the Serve share of a partition: KV page quota, RQT quota and weight. -/
  | partSetShare (job : Nat)
  /-- PART_GRANT (R141). Grants a memory region, a mailbox channel or a model slot to a partition. -/
  | partGrant (job : Nat)
  /-- PART_REVOKE (R142). Revokes a resource from a partition after its started jobs end, zeroing memory and ending sessions. -/
  | partRevoke (job : Nat)
  /-- PART_CLR_FOREIGN (R139). A write of 1 to PART_CLR.FOREIGN clears the foreign-access counter. -/
  | partClrForeign (part page : Nat)
  /-- PART_CLR_LOG (R147). A write of 1 to PART_CLR.LOG empties the error log and clears PART_LOG_STAT. -/
  | partClrLog (part page : Nat)
  /-- FACET_TILE_FAIL (R158). A Facet tile carrying a logical position fails while a plan is in force; it is lost and a spare load starts. -/
  | facetTileFail (tile : Nat) (detail : Word)
  /-- SPARE_LOAD_DONE (R159). A spare load completes and the remap epoch is fixed. -/
  | spareLoadDone (tile tick : Nat)
  /-- SPARE_LOAD_FAILED (R160). A spare-loading read returns a UE or the spare fails, and the load restarts on the next spare. -/
  | spareLoadFailed (tile : Nat) (ue : Bool)
  /-- LENS_CORE_FAIL (R163). A Lens core fails during a step; the step writes nothing and is run again on the in-service cores. -/
  | lensCoreFail (page core : Nat)
  /-- SPI_READ (R166). An SPI READ frame returns a LOUPE register in the next response with no side effect. -/
  | spiRead (frame : BitVec 64) (clocks : Nat)
  /-- SPI_STOP (R166). An SPI STOP frame sets the SPI hold and raises a whole-robot safe stop. -/
  | spiStop (frame : BitVec 64) (clocks : Nat)
  /-- SPI_RELEASE (R166). An SPI RELEASE frame withdraws the SPI hold and leaves the stop latched. -/
  | spiRelease (frame : BitVec 64) (clocks : Nat)
  /-- PROGRAM_START (R187). The sequencer starts a tile's program at a Tray index and aligned-copy tick. -/
  | programStart (tile tick : Nat)
  /-- SLOT_NOP (R182). OP = 0x00 in a Tray slot does nothing. -/
  | slotNop (tile k : Nat)
  /-- BR (R188). A guarded branch redirects fetch to TARGET after 5 delay Trays. -/
  | br (tile k : Nat)
  /-- LOOP_SET (R188). Opens a hardware loop repeating a Tray range COUNT times. -/
  | loopSet (tile k : Nat)
  /-- WAIT_BP (R183). Issue stops until the aligned copy reaches PHASE. -/
  | waitBp (tile k : Nat)
  /-- WAIT_BP_RESUME (R183). The aligned copy reaches the awaited phase and issue resumes. -/
  | waitBpResume (tile : Nat)
  /-- HALT (R205). The tile stops issuing and discards fetched Trays. -/
  | halt (tile k : Nat)
  /-- SPEC_BEGIN (R195). Opens a speculation level and copies the live registers into its shadow bank. -/
  | specBegin (tile k : Nat)
  /-- SPEC_COMMIT (R195). Commits speculation level K, or squashes it when its SSB overflowed. -/
  | specCommit (tile k : Nat)
  /-- SPEC_SQUASH (R195). Squashes speculation level K, restores registers and resumes at TARGET. -/
  | specSquash (tile k : Nat)
  /-- CMP_EQ (R183). 64-bit integer equality compare into a predicate. -/
  | cmpEq (tile k : Nat)
  /-- CMP_NE (R183). 64-bit integer inequality compare into a predicate. -/
  | cmpNe (tile k : Nat)
  /-- CMP_LT (R183). Signed less-than compare into a predicate. -/
  | cmpLt (tile k : Nat)
  /-- CMP_LTU (R183). Unsigned less-than compare into a predicate. -/
  | cmpLtu (tile k : Nat)
  /-- CMP_LE (R183). Signed less-or-equal compare into a predicate. -/
  | cmpLe (tile k : Nat)
  /-- FCMP_LT (R219). FX45 less-than compare into a predicate. -/
  | fcmpLt (tile k : Nat)
  /-- FCMP_LE (R219). FX45 less-or-equal compare into a predicate. -/
  | fcmpLe (tile k : Nat)
  /-- FCMP_EQ (R219). FX45 equality compare into a predicate. -/
  | fcmpEq (tile k : Nat)
  /-- PAND (R183). Lane-wise AND of predicate registers. -/
  | pand (tile k : Nat)
  /-- POR (R183). Lane-wise OR of predicate registers. -/
  | por (tile k : Nat)
  /-- PXOR (R183). Lane-wise XOR of predicate registers. -/
  | pxor (tile k : Nat)
  /-- PNOT (R183). Lane-wise NOT of a predicate register. -/
  | pnot (tile k : Nat)
  /-- PSET (R183). Sets a predicate register from an immediate lane mask. -/
  | pset (tile k : Nat)
  /-- ADD (R183). 64-bit wrapping integer addition. -/
  | add (tile k : Nat)
  /-- SUB (R183). 64-bit wrapping integer subtraction. -/
  | sub (tile k : Nat)
  /-- AND (R183). 64-bit bitwise AND. -/
  | and (tile k : Nat)
  /-- OR (R183). 64-bit bitwise OR. -/
  | or (tile k : Nat)
  /-- XOR (R183). 64-bit bitwise XOR. -/
  | xor (tile k : Nat)
  /-- SHL (R183). Shift left by B[5:0]. -/
  | shl (tile k : Nat)
  /-- SHR (R183). Logical shift right by B[5:0]. -/
  | shr (tile k : Nat)
  /-- SAR (R183). Arithmetic shift right by B[5:0]. -/
  | sar (tile k : Nat)
  /-- MUL (R183). Low 64 bits of the signed product. -/
  | mul (tile k : Nat)
  /-- MIN (R183). Signed minimum. -/
  | min (tile k : Nat)
  /-- MAX (R183). Signed maximum. -/
  | max (tile k : Nat)
  /-- MOV (R183). Moves B into D. -/
  | mov (tile k : Nat)
  /-- TICK_RD (R183). Reads the tile's aligned copy into a scalar register. -/
  | tickRd (tile k : Nat)
  /-- FADD (R219). FX45 addition. -/
  | fadd (tile k : Nat)
  /-- FSUB (R219). FX45 subtraction. -/
  | fsub (tile k : Nat)
  /-- FMUL (R219). FX45 multiplication at PASS3. -/
  | fmul (tile k : Nat)
  /-- FCVT_I2F (R219). Converts a signed integer to FX45. -/
  | fcvtI2f (tile k : Nat)
  /-- FCVT_F2I (R219). Converts FX45 to an integer by RNE with saturation. -/
  | fcvtF2i (tile k : Nat)
  /-- LD (R184). Loads 8 or 128 bytes from SRAM, the SSB taken into account. -/
  | ld (tile k : Nat)
  /-- ST (R179). Stores 8 or 128 bytes to SRAM, the SSB or a release port. -/
  | st (tile k : Nat)
  /-- LD_BC (R183). Loads 8 bytes into all 16 lanes of a vector register. -/
  | ldBc (tile k : Nat)
  /-- SEND (R190). Sends a register over Prism to a logical position and receive channel. -/
  | send (tile k : Nat)
  /-- RECV (R191). Takes the datum of a receive channel into a register or predicate. -/
  | recv (tile k : Nat)
  /-- MESH_DATUM_ARRIVE (R191). A datum arrives in a tile's receive channel, replacing any unread datum. -/
  | meshDatumArrive (n tick : Nat)
  /-- MX_ZERO (R183). Clears an accumulator. -/
  | mxZero (tile k : Nat)
  /-- MX_OUTER (R219). Adds the outer product of two half vectors into an accumulator. -/
  | mxOuter (tile k : Nat)
  /-- MX_ROWOUT (R183). Writes an accumulator row into half of a vector register. -/
  | mxRowout (tile k : Nat)
  /-- MX_ROWIN (R183). Writes half of a vector register into an accumulator row. -/
  | mxRowin (tile k : Nat)
  /-- VADD_I (R183). Lane-wise integer addition. -/
  | vaddI (tile k : Nat)
  /-- VSUB_I (R183). Lane-wise integer subtraction. -/
  | vsubI (tile k : Nat)
  /-- VAND (R183). Lane-wise AND. -/
  | vand (tile k : Nat)
  /-- VOR (R183). Lane-wise OR. -/
  | vor (tile k : Nat)
  /-- VXOR (R183). Lane-wise XOR. -/
  | vxor (tile k : Nat)
  /-- VFADD (R219). Lane-wise FX45 addition. -/
  | vfadd (tile k : Nat)
  /-- VFSUB (R219). Lane-wise FX45 subtraction. -/
  | vfsub (tile k : Nat)
  /-- VFMUL (R219). Lane-wise FX45 pass product. -/
  | vfmul (tile k : Nat)
  /-- VFMA (R219). Lane-wise A·B + C with two roundings. -/
  | vfma (tile k : Nat)
  /-- VFNMA (R219). Lane-wise C − A·B with two roundings. -/
  | vfnma (tile k : Nat)
  /-- VFMAX (R219). Lane-wise FX45 maximum. -/
  | vfmax (tile k : Nat)
  /-- VFMIN (R219). Lane-wise FX45 minimum. -/
  | vfmin (tile k : Nat)
  /-- VFABS (R219). Lane-wise FX45 absolute value. -/
  | vfabs (tile k : Nat)
  /-- VRED_ADD (R183). Sums the 16 lanes in the fixed FX45 tree into lane 0. -/
  | vredAdd (tile k : Nat)
  /-- RCP (R219). Correctly rounded reciprocal. -/
  | rcp (tile k : Nat)
  /-- SQRT (R219). Correctly rounded square root. -/
  | sqrt (tile k : Nat)
  /-- RSQRT (R219). Correctly rounded reciprocal square root. -/
  | rsqrt (tile k : Nat)
  /-- DIVSTEP (R219). One Newton step A·(2 − B·A) of a reciprocal estimate. -/
  | divstep (tile k : Nat)
  /-- RESULT_WRITEBACK (R185). An operation's result reaches its register after its latency, or is discarded after a squash. -/
  | resultWriteback (tile : Nat)
  /-- SSB_DRAIN (R197). Committed SSB entries drain to SRAM or start release crossings at 16 words per cycle. -/
  | ssbDrain (tile : Nat)
  /-- FT_DIAG_READ (R210). A read of FT_DIAG_LO reads the SRAM word and captures its high half, unless refused. -/
  | ftDiagRead (part tile : Nat)
  /-- FT_DIAG_WRITE (R210). A write of FT_DIAG_HI writes the diagnostic word to SRAM as one full-word write, unless refused. -/
  | ftDiagWrite (part tile : Nat) (data : Word)
  /-- PLAN_LOAD (R249). Loads and checks a plan image into the Plan region, fixing its plan epoch. -/
  | planLoad (job : Nat) (img : PlanImage)
  /-- PLAN_STOP (R250). Ends the plan in force at the next plan epoch. -/
  | planStop (job : Nat)
  /-- SIMG_LOAD (R248). Loads and checks a solver image into a slot. -/
  | simgLoad (job : Nat) (body : SimgBody)
  /-- SIMG_FREE (R248). Empties a solver slot. -/
  | simgFree (job : Nat)
  /-- SOLV_DELTA (R254). Reads and stages delta pairs for a slot's next solve. -/
  | solvDelta (job : Nat)
  /-- SOLV_GUESS (R257). Reads and stages a cold-start guess for a slot. -/
  | solvGuess (job : Nat)
  /-- SOLV_RUN (R274). Runs an ON_DEMAND slot at its next window and copies its mirror area to host memory. -/
  | solvRun (job : Nat)
  /-- SOLV_READ (R274). Copies a slot's mirror area as last released to host memory. -/
  | solvRead (job : Nat)
  /-- SOLV_FORCE_COLD (R278). A write of 1 to SOLV_CTRL.FORCE_COLD makes the next solve of every bound slot cold. -/
  | solvForceCold (part : Nat) (data : Word)
  /-- DELTA_TICK (R254). At a solve's delta tick the sequencer takes staged delta jobs up to DELTA_MAX and writes them to the tiles. -/
  | deltaTick (slot start : Nat)
  /-- WINDOW_TEST (R271). At S − 28 the sequencer reads the reports and fixes the run-ahead verdict. -/
  | windowTest (slot : Nat)
  /-- VERDICT_SEND (R271). At S − 12 the sequencer sends START or the verdict datum on channel 15 and then the MEAS deltas. -/
  | verdictSend (slot : Nat)
  /-- SOLVE_CHECK (R263). At a scheduled check the test unit tests the report and returns continue, KEEP, STOP or FALLBACK. -/
  | solveCheck (slot : Nat)
  /-- SOLVE_DEADLINE (R269). At the deadline D the sequencer fixes the solve status and writes SOLV_SLOT_STAT. -/
  | solveDeadline (slot : Nat)
  /-- LOOP_SAMPLE_INSTANT (R287). At a channel's sample instant the selected AIN cells start converting and PIN counts are latched. -/
  | loopSampleInstant (chan tick : Nat) (codes : List Nat)
  /-- LOOP_LATCH (R288). At cycle 0 of a sample the channel latches inputs and runs the limiter, the law and the output stage through the route writes of cycle 96. -/
  | loopLatch (chan tick : Nat) (fault : LoopFault)
  /-- PIN_EDGE (R291). A filtered edge on a pulse input line changes its counter by its mode. -/
  | pinEdge (pin : Nat) (edgeA edgeB : Bool)
  /-- LOOP_TEST (R307). Runs a test signal injection and capture on a channel. -/
  | loopTest (job : Nat)
  /-- LOOP_TABLE (R306). Loads Q1.15 entries into the test table. -/
  | loopTable (job : Nat)
  /-- LOOP_READ (R306). Copies capture ring entries to host memory. -/
  | loopRead (job : Nat) (ue : Bool)
  /-- PWM_PERIOD_START (R321). At a pair's period start the compare stage becomes the active compare and a pair leaving its trip state resumes. -/
  | pwmPeriodStart (pair tick : Nat)
  /-- PWM_COMPARE_MATCH (R323). The pair's counter reaches a compare edge and H_ref changes. -/
  | pwmCompareMatch (pair tick : Nat)
  /-- DEAD_TIME_EXPIRY (R324). A dead-time count ends and the pending output turns on if still selected. -/
  | deadTimeExpiry (pair tick : Nat)
  /-- TRIP_INPUT_ACTIVE (R328). A trip input becomes active and starts its filter count. -/
  | tripInputActive (input tick : Nat)
  /-- TRIP_LATCH_SET (R328). A trip input stays active for FILTER + 1 cycles; its latch sets and its pairs go to their trip states. -/
  | tripLatchSet (input tick : Nat)
  /-- TRIP_CLR (R329). A write to TRIP_CLR clears trip latches whose inputs are inactive. -/
  | tripClr (part : Nat) (data : Word) (raw : BitVec 8)
  /-- TRIP_FORCE (R329). A write to TRIP_FORCE sets trip latches for test. -/
  | tripForce (part : Nat) (data : Word)
  /-- LOUPE_POWER_ON_RESET (R332). The Loupe completes its power-on reset and sets the WHOLE latch and every group latch with source POWER_ON. -/
  | loupePowerOnReset
  /-- LOUPE_DEAD (R333). The LOOP island sees no alive toggle for 128 ticks; DEAD holds every pair and HALT starts on every port. -/
  | loupeDead
  /-- LOUPE_ALIVE_RESTORE (R333). The alive line toggles again after a Loupe power-on reset and DEAD falls. -/
  | loupeAliveRestore
  /-- LOUPE_SOURCE_ACTIVE (R334). A Loupe level source is qualified active and raises a stop request. -/
  | loupeSourceActive (src : Nat)
  /-- LOUPE_SOURCE_INACTIVE (R334). A Loupe level source is qualified inactive. -/
  | loupeSourceInactive (src : Nat)
  /-- LOUPE_CLEAR (R342). A LOUPE_CLEAR write with the key clears stop latches, with or without a recovery window, or is refused. -/
  | loupeClear (part : Nat) (data : Word)
  /-- RECOVERY_WINDOW_END (R344). A recovery window ends; the mask is withdrawn and an active source raises a stop at once. -/
  | recoveryWindowEnd
  /-- LOUPE_REQ (R345). A LOUPE_REQ write with the key raises a host stop of the named groups. -/
  | loupeReq (part : Nat) (data : Word)
  /-- LOUPE_CAUSE_CLR (R343). A write to LOUPE_CAUSE_CLR clears LOUPE_CAUSE and LOUPE_FIRST. -/
  | loupeCauseClr (part : Nat) (data : Word)
  /-- LOUPE_WDT_FEED (R341). A write to LOUPE_WDT_FEED advances, completes or breaks a feed sequence. -/
  | loupeWdtFeed (part : Nat) (value : Word) (units : Nat)
  /-- WDT_EXPIRY (R341). The watchdog's TIMEOUT passes without a feed; it enters EXPIRED and raises a stop request. -/
  | wdtExpiry
  /-- WDT_HALF (R341). Half of TIMEOUT passes without a feed and WDT_HALF is set. -/
  | wdtHalf
  /-- PRES_N_LOW (R367). A port's PRES_N goes low and the port enters DETECT. -/
  | presNLow (port : Nat)
  /-- PRES_N_HIGH (R367). A port's PRES_N goes high and T_UNPLUG starts. -/
  | presNHigh (port : Nat)
  /-- T_PLUG_EXPIRY (R367). T_PLUG expires with PRES_N low and the port enters SYNC. -/
  | tPlugExpiry (port : Nat)
  /-- T_UNPLUG_EXPIRY (R367). PRES_N stays high for T_UNPLUG; the port goes DOWN and its epoch ends. -/
  | tUnplugExpiry (port : Nat)
  /-- T_SYNC_EXPIRY (R367). T_SYNC expires without sync and the port enters BACKOFF. -/
  | tSyncExpiry (port : Nat)
  /-- T_ENUM_EXPIRY (R371). T_ENUM expires without an answer; ASSIGN or CONFIRM is resent or the attempt limit ends enumeration. -/
  | tEnumExpiry (port : Nat)
  /-- T_BACKOFF_EXPIRY (R367). T_BACKOFF expires and the port re-enters SYNC. -/
  | tBackoffExpiry (port : Nat)
  /-- RX_SYNC_ACQUIRED (R361). The receiver takes 8 valid idle sets and is in sync; a port in SYNC enters ENUM. -/
  | rxSyncAcquired (port : Nat)
  /-- RX_SYNC_LOST (R361). The receiver loses sync and the port returns to SYNC, ending its epoch. -/
  | rxSyncLost (port : Nat)
  /-- RELINK (R367). A write of 1 to LNK_CTRL.RELINK ends the epoch and restarts enumeration with a new epoch. -/
  | relink (part port : Nat) (data : Word)
  /-- ANNOUNCE (R371). An ANNOUNCE from the limb resends ASSIGN in ENUM or ends the epoch in UP or MBX_ONLY. -/
  | announce (port : Nat)
  /-- CAPS (R373). A CAPS of the epoch makes it current, fills LNK_CAPS and is answered with CONFIRM. -/
  | caps (port epoch : Nat) (record : BitVec 512)
  /-- READY (R373). A READY of the epoch moves the port to UP or MBX_ONLY and checks the slot fit. -/
  | ready (port epoch : Nat)
  /-- TX_SLOT_START (R376). At a TX entry's START the port sends CYC_DOWN from its transmit buffers, or HALT in its place. -/
  | txSlotStart (port entry tick : Nat)
  /-- RX_SLOT_OPEN (R377). At an RX entry's OPEN the port sends SYNC, or HALT in its place. -/
  | rxSlotOpen (port entry tick : Nat)
  /-- CYC_UP (R379). A CYC_UP frame from the limb is checked and kept or discarded for its window. -/
  | cycUp (port epoch echo cycle flags : Nat) (payload : List Byte) (tick : Nat)
  /-- RX_SLOT_CLOSE (R380). At CLOSE the slot engine forms the receive status word and sends the data to the tiles. -/
  | rxSlotClose (port entry tick : Nat)
  /-- HALT_REQUEST (R385). A Loupe HALT request or LOUPE_DEAD reaches a port, which abandons its frame and starts HALT. -/
  | haltRequest (port tick : Nat)
  /-- HALT_WITHDRAW (R386). The Loupe withdraws a port's HALT requests and slot frames resume. -/
  | haltWithdraw (port : Nat)
  /-- MBX_FRAME_SEND (R382). The port starts an ENUM or MBX frame in a gap before the next slot frame. -/
  | mbxFrameSend (port tick : Nat)
  /-- CLNK_ISLAND_RESET (R370). During a chip reset the CLNK island is reset once every port's first HALT frame has ended. -/
  | clnkIslandReset
  /-- CLNK_IDLE_HOLD_END (R370). The 25 600-tick electrical-idle hold after a chip reset ends. -/
  | clnkIdleHoldEnd
  /-- MBX_OPEN_FRAME (R413). An OPEN frame from the limb is answered with ABORT. -/
  | mbxOpenFrame (port : Nat) (frame : MbxFrame)
  /-- OPEN_ACK (R409). An OPEN_ACK from the limb opens or refuses the session. -/
  | openAck (port : Nat) (frame : MbxFrame)
  /-- MBX_DATA (R404). A DATA fragment from the limb is stored, acknowledged and delivered to MBX_RECV jobs, or discarded. -/
  | mbxData (port : Nat) (frame : MbxFrame)
  /-- MBX_ACK (R401). An ACK from the limb acknowledges fragments, updates the window and triggers retransmission of missing fragments. -/
  | mbxAck (port : Nat) (frame : MbxFrame)
  /-- MBX_CLOSE_FRAME (R409). A CLOSE from the limb closes the session and is answered with CLOSE_ACK. -/
  | mbxCloseFrame (port : Nat) (frame : MbxFrame)
  /-- CLOSE_ACK (R409). A CLOSE_ACK from the limb closes a CLOSING session. -/
  | closeAck (port : Nat) (frame : MbxFrame)
  /-- MBX_ABORT_FRAME (R409). An ABORT from the limb ends the session and its jobs with MBX_PEER_ABORT. -/
  | mbxAbortFrame (port : Nat) (frame : MbxFrame)
  /-- BEGIN_R (R422). A BEGIN_R reply sets HELD and starts chunk transfer of a firmware update. -/
  | beginR (port : Nat) (frame : MbxFrame)
  /-- END_R (R421). An END_R reply lets the device send ACTIVATE or fails the update. -/
  | endR (port : Nat) (frame : MbxFrame)
  /-- ACTIVATE_R (R421). An ACTIVATE_R reply starts the wait for the limb to return. -/
  | activateR (port : Nat) (frame : MbxFrame)
  /-- MBX_OPEN (R415). Opens a mailbox session on a channel. -/
  | mbxOpen (job : Nat)
  /-- MBX_SEND (R416). Sends one message in fragments and completes when all are acknowledged. -/
  | mbxSend (job : Nat)
  /-- MBX_RECV (R416). Receives the next message of the session into host memory. -/
  | mbxRecv (job : Nat)
  /-- MBX_CLOSE (R416). Closes the session through DRAINING and CLOSING. -/
  | mbxClose (job : Nat)
  /-- MBX_ABORT (R411). Ends the session with a device abort. -/
  | mbxAbort (job : Nat)
  /-- FW_UPDATE (R421). Verifies a firmware container and transfers it to the limb over an FWUPDATE session. -/
  | fwUpdate (job : Nat)
  /-- RTO_EXPIRY (R403). A fragment's retransmission timer expires; it is retransmitted or the session is aborted. -/
  | rtoExpiry (port mbx seq : Nat)
  /-- ACK_TIMER_EXPIRY (R405). T_ACK expires and the device sends its acknowledgement. -/
  | ackTimerExpiry (port mbx : Nat)
  /-- PROBE_TIMER_EXPIRY (R406). T_PROBE expires with a zero window; a probe is sent or the session is aborted. -/
  | probeTimerExpiry (port mbx : Nat)
  /-- OPEN_TIMER_EXPIRY (R409). T_OPEN expires; OPEN is resent or the session closes with MBX_NO_ANSWER. -/
  | openTimerExpiry (port mbx : Nat)
  /-- CLOSE_TIMER_EXPIRY (R409). T_CLOSE expires; CLOSE is resent or the channel becomes CLOSED. -/
  | closeTimerExpiry (port mbx : Nat)
  /-- LEAK_TIMER_EXPIRY (R412). T_LEAK passes and the violation bucket loses 1. -/
  | leakTimerExpiry (port : Nat)
  /-- MBX_JOB_TIMEOUT (R417). A mailbox job's TIMEOUT passes and the job ends with MBX_TIMEOUT. -/
  | mbxJobTimeout (job : Nat)
  /-- FW_REPLY_TIMEOUT (R421). T_FW_REPLY passes without the awaited reply and the update ends with MBX_TIMEOUT. -/
  | fwReplyTimeout (job : Nat)
  /-- FW_REBOOT_TIMEOUT (R421). T_FW_REBOOT passes without the limb returning and the update ends with FW_NOT_RUNNING. -/
  | fwRebootTimeout (job : Nat)
  /-- MODEL_LOAD (R433). Copies and checks a model image into an EMPTY slot. -/
  | modelLoad (job : Nat) (body : ModelBody)
  /-- MODEL_UNLOAD (R434). Drains or aborts a slot's requests and empties it. -/
  | modelUnload (job : Nat)
  /-- PREFIX_FLUSH (R450). Removes every prefix node of one slot or of every slot. -/
  | prefixFlush (job : Nat)
  /-- REQ_SUBMIT (R440). Checks a generation request and waits for an RQT entry. -/
  | reqSubmit (job : Nat)
  /-- RQT_ALLOCATE (R441). A free RQT entry is allocated to a waiting REQ_SUBMIT, which reads its prompt, looks up prefixes and reserves pages. -/
  | rqtAllocate (rqt : Nat)
  /-- REQ_CANCEL (R459). Sets a cancel pending on the named request. -/
  | reqCancel (job : Nat)
  /-- REQ_PAUSE (R461). Sets a pause pending on the named request. -/
  | reqPause (job : Nat)
  /-- REQ_RESUME (R464). Resumes a PAUSED request from its pause image or summary. -/
  | reqResume (job : Nat)
  /-- REQ_QUERY (R444). Copies an RQT entry to host memory. -/
  | reqQuery (job : Nat)
  /-- STEP_BOUNDARY (R437). A slot's step ends and the boundary actions run in order. -/
  | stepBoundary (mslot : Nat) (heads : List (Nat × Nat))
  /-- IDLE_SLOT_APPLY (R438). For a slot running no step, a waiting cancel, pause, core change or page release is applied as at a boundary. -/
  | idleSlotApply (mslot : Nat) (heads : List (Nat × Nat))
  /-- PAUSE_WRITE_DONE (R461). The pause image is written; the request's pages are released and it becomes PAUSED. -/
  | pauseWriteDone (rqt : Nat)
  /-- RESUME_RESTORE_DONE (R464). A resumed request's pages or summary are restored and it enters PREFILL or DECODE. -/
  | resumeRestoreDone (rqt : Nat)
  /-- PAUSE_TTL_EXPIRY (R462). A KV_TIER pause reaches TTL_END and the entry is released. -/
  | pauseTtlExpiry (rqt : Nat)
  /-- LENS_CORE_LEAVE (R465). A write of 0 to a core bit of LENS_CORE_CTRL makes the core LEAVING. -/
  | lensCoreLeave (part page : Nat) (data : Word)
  /-- LENS_CORE_RETURN (R465). A write of 1 to the bit of an OUT core starts its self-test. -/
  | lensCoreReturn (part page : Nat) (data : Word)
  /-- MASK_LOAD (R480). Copies and checks a mask table. -/
  | maskLoad (job : Nat)
  /-- MASK_FREE (R480). Empties an unreferenced mask table. -/
  | maskFree (job : Nat)
  /-- BUDGET_REFILL (R492). At every 800 000 000-tick multiple each account balance is refilled and WAIT counts are updated. -/
  | budgetRefill
  /-- SMP_FILL (R492). A write to SMP_FILL sets the named accounts' balances to CAP. -/
  | smpFill (part : Nat) (high : Bool) (data : Word)
  /-- MEM_COPY (R529). Copies segments between host and device memory. -/
  | memCopy (job : Nat)
  /-- MEM_FILL (R527). Fills a device range with a pattern. -/
  | memFill (job : Nat)
  /-- MEM_CHECK (R527). Reads a device range, correcting CEs and marking UEs. -/
  | memCheck (job : Nat)
  /-- MEM_INJECT (R527). Alters a stored word to inject a CE, a UE or poison. -/
  | memInject (job : Nat)
  /-- MEMC_INIT (R522). A write of MEMC_INIT.GO trains every built channel. -/
  | memcInit (part : Nat)
  /-- MEMC_INIT_DONE (R522). Training and the zero fill end, and INIT_DONE is set. -/
  | memcInitDone (caps : List (Nat × Nat))
  /-- SCRUB_PASS (R517). An SRAM scrubber reads each word of its region once per pass, correcting and marking. -/
  | scrubPass (region : Nat) (flips : List (Nat × Nat))
  /-- PATROL_READ (R518). The patrol scrubber reads one 128-byte block per INTERVAL of open time. -/
  | patrolRead (memch : Nat) (flips : List (Nat × Nat))
  /-- REPAIR_WRITEBACK (R511). A queued CE write-back is made in open time or by the scrubber port. -/
  | repairWriteback (queue : Nat)
  /-- MEMC_CLR (R520). A write of 1 to MEMC_CLR clears the channel page's counters. -/
  | memcClr (part page : Nat)
  /-- SRAM_CLR_SELECTED (R520). A write of SRAM_CLR bit 0 clears the selected region's counters. -/
  | sramClrSelected (part : Nat)
  /-- SRAM_CLR_ALL (R520). A write of SRAM_CLR bit 1 clears every region's counters. -/
  | sramClrAll (part : Nat)
  /-- RTU_COMMIT (R548). Writes or deletes objects as one all-or-nothing commit after a hold-up check. -/
  | rtuCommit (job : Nat) (codes : List Nat)
  /-- RTU_READ (R551). Copies an object to host memory. -/
  | rtuRead (job : Nat)
  /-- RTU_LIST (R545). Writes the visible index entries to host memory. -/
  | rtuList (job : Nat)
  /-- RTU_FORMAT (R552). Replaces the store with an empty one. -/
  | rtuFormat (job : Nat) (codes : List Nat)
  /-- FLASH_OP_DONE (R538). A flash program or erase reports ready or fails, and the commit, format or erase proceeds. -/
  | flashOpDone (ok : Bool) (flips codes : List Nat)
  /-- HOLDUP_MEASURE (R546). The hold-up ADC measures V and computes E_avail every 1 ms while idle. -/
  | holdupMeasure (codes : List Nat)
  /-- BACKGROUND_ERASE (R542). While idle the RTU erases or blank-checks the next free sector. -/
  | backgroundErase
  /-- RTU_RECOVERY (R553). After an RTU reset the RTU reads SFDP and recovers the current superblock. -/
  | rtuRecovery
  /-- CHOOSER_EVALUATE (R563). The chooser evaluates blocking conditions and the next known event and selects a power state. -/
  | chooserEvaluate (inL1 inD3 : Bool)
  /-- PS_ENTRY_DONE (R565). The entry to PS1, PS2 or PS3 completes and the state is reached. -/
  | psEntryDone
  /-- SCHEDULED_EXIT (R563). At W the PMU begins a scheduled exit before the next known event. -/
  | scheduledExit
  /-- WAKE (R571). A wake source ends an entry or starts an exit from PS2 or PS3. -/
  | wake (sources : BitVec 8)
  /-- PS_EXIT_DONE (R564). An exit completes, every stopped island is clocked, and the chooser evaluates again. -/
  | psExitDone
  /-- PMU_PS4 (R569). A PMU_PS4 write with the key requests PS4 and starts the resume commit, or is refused. -/
  | pmuPs4 (part : Nat) (data : Word) (codes : List Nat)
  /-- PS4_COMMIT_DONE (R570). The resume commit takes effect and PWR_EN falls. -/
  | ps4CommitDone
  /-- PMU_TIMER_FIRE (R572). The PTB reaches an armed PMU timer, which fires and disarms. -/
  | pmuTimerFire (timer : Nat)
  /-- THERMAL_SAMPLE (R573). The PMU samples its temperature sensors every 80 000 ticks. -/
  | thermalSample (t0 t1 t2 t3 : Int)
  /-- SPEED_ADJUST (R573). At each 800 000-tick multiple the Lens SPEED is lowered or raised by the temperature. -/
  | speedAdjust
  /-- TKU_STROBE (R584). At each 1 ms strobe the TKU samples keys, CC lines and the dock and applies their state rules. -/
  | tkuStrobe (keys : BitVec 8) (dock : Bool) (cc0 cc1 cc2 cc3 : Nat)
  /-- TOUCH_SCAN_END (R591). A touch scan ends and channel targets, states, baselines and water state are updated. -/
  | touchScanEnd (raws : List Nat) (tick : Nat)
  /-- TKU_EVT_READ (R601). A read of TKU_EVT_LO returns the oldest event, removing it for P0, and captures its high word. -/
  | tkuEvtRead (part : Nat)
  /-- TKU_FLUSH (R608). A write of TKU_CLR.FLUSH empties the event FIFO. -/
  | tkuFlush (part : Nat)
  /-- TKU_CLR_DROPPED (R600). A write of TKU_CLR bit 1 clears DROPPED. -/
  | tkuClrDropped (part : Nat)
  /-- REACQUIRE (R590). A write of TKU_CLR.REACQUIRE restarts baseline acquisition of every enabled touch channel. -/
  | reacquire (part : Nat)
  /-- PWR_EN_RAISE (R613). The PMU raises PWR_EN after the always-on rails and the Loupe reset. -/
  | pwrEnRaise
  /-- CORE_PG_RISE (R614). CORE_PG rises and the Plan reference starts to lock. -/
  | corePgRise
  /-- PLAN_REF_LOCK (R614). The Plan reference locks and the PTB counts from 0. -/
  | planRefLock
  /-- CORE_PG_FALL (R615). CORE_PG falls; core islands reset and the Loupe raises a CHIP_RESET stop. -/
  | corePgFall
  /-- FILL (R620). The boot zero-fills every SRAM region. -/
  | fill
  /-- DISCOVER (R620). The RTU leaves reset and reads SFDP, and the other islands start. -/
  | discover (sfdp : Option (Nat × Nat))
  /-- IMAGE (R618). Both boot image copies are read and checked and the boot copy is chosen. -/
  | image (readA readB : Bool)
  /-- PRELOAD (R617). The boot copy's preload records are applied as P0 writes. -/
  | preload
  /-- HOST_READY (R622). HIU answers configuration normally and the RTU begins store recovery. -/
  | hostReady
  /-- STORE_DONE (R623). Store recovery ends and the resume object is read at power-on. -/
  | storeDone
  /-- EXTEST (R652). JTAG EXTEST drives boundary-scan outputs. -/
  | extest (cells : BitVec 309)
  /-- IDCODE (R652). JTAG IDCODE selects the identification register. -/
  | idcode
  /-- SAMPLE_PRELOAD (R652). JTAG SAMPLE/PRELOAD samples and preloads boundary-scan cells. -/
  | samplePreload (cells : BitVec 309)
  /-- CLAMP (R652). JTAG CLAMP holds outputs from the boundary register with BYPASS selected. -/
  | clamp
  /-- HIGHZ (R652). JTAG HIGHZ puts outputs in high impedance. -/
  | highz
  /-- BYPASS (R652). JTAG BYPASS selects the one-bit bypass register. -/
  | bypass
  /-- DAP (R654). JTAG DAP selects the 98-bit debug access register. -/
  | dap
  /-- REG_READ (R654). A DAP operation reads a BAR0 register as P0. -/
  | regRead (dapAddr : Nat)
  /-- REG_WRITE (R654). A DAP operation writes a BAR0 register as P0. -/
  | regWrite (dapAddr : Nat) (data : Word)
  /-- FLASH_READ (R654). A DAP operation reads 8 bytes of flash under HOLD_RESET. -/
  | flashRead (dapAddr : Nat)
  /-- FLASH_WRITE (R654). A DAP operation places 8 bytes in the page buffer and programs full pages. -/
  | flashWrite (dapAddr : Nat) (data : BitVec 64)
  /-- FLASH_ERASE (R654). A DAP operation erases a 4 KiB flash sector. -/
  | flashErase (dapAddr : Nat)
  /-- HOLD_RESET (R652). JTAG HOLD_RESET holds boot at RESET with only the RTU running. -/
  | holdReset
  /-- JTAG_CHIP_RESET (R652). JTAG CHIP_RESET starts a chip reset with cause JTAG at Update-IR. -/
  | jtagChipReset
  /-- FUSE_PROG (R655). JTAG FUSE_PROG programs the root hash when it is all zero. -/
  | fuseProg (hash : BitVec 256) (tckOk : Bool) (cut : Option (BitVec 256))
  /-- FUSE_READ (R652). JTAG FUSE_READ reads the 256-bit root hash register. -/
  | fuseRead
  /-- FOREIGN_READ (R90). A read by a partition of a page hidden from it, of queue pair registers it does not own, or of an unowned BAR2 region returns 0 and is counted in the partition's PART_FOREIGN, setting FOREIGN on its PART page. -/
  | foreignRead (part : Nat) (what : ForeignRead)
  /-- RX_FRAME_DISCARDED (R365). A received CriskaLink frame that fails a receive check (code, CRC, length, type or stale epoch), or arrives out of sync or ended by /V/, is discarded and counted. -/
  | rxFrameDiscarded (port : Nat) (frame : RxFrame)
  /-- HOST_READ_COMPLETION (R516). A host-memory read completion for job or image data returns, good, poisoned, with Unsupported Request or Completer Abort, or times out, and the job proceeds, marks poison or ends with POISON or MEM_HOST_ERR. -/
  | hostReadCompletion (job : Nat) (res : ReadResult)
  /-- VIO_SAFE_LOSS (R657). VIO_SAFE leaves its range while VDD_LOUPE stays up; the PWM and Loupe balls become undriven and the board pulls set the PWM pins, with no stop raised. -/
  | vioSafeLoss
  deriving DecidableEq, Repr

end Sys2Proof
end

