-- ==== Sys2Proof/WellFormed.lean ====
section
/-! DEFINITION. Well-formed commands: every number that names a part of the block lies in the range the address map and the unit counts
of the largest part give it (Tables 0.1, 0.4 and 2.1). A well-formed command may still name a unit that a smaller part lacks. -/

namespace Sys2Proof

/-- The operands of a command are in range. -/
def Instr.wf : Instr → Bool
  | .registerWrite part page off _ _ => decide (part < 16) && decide (page < 2064) && decide (off < 4096)
  | .islandNoAnswer part page _ => decide (part < 16) && decide (page < 2064)
  | .ptbNowRead part => decide (part < 16)
  | .ptbBpnRead part => decide (part < 16)
  | .pgCtrlEnable part page _ => decide (part < 16) && decide (page < 2064)
  | .pgCtrlQuiesce part page _ => decide (part < 16) && decide (page < 2064)
  | .softReset part page => decide (part < 16) && decide (page < 2064)
  | .softResetDone page => decide (page < 2064)
  | .resetTimeout page => decide (page < 2064)
  | .inServiceClear part page => decide (part < 16) && decide (page < 2064)
  | .inServiceSet part page => decide (part < 16) && decide (page < 2064)
  | .selfTestDone page _ => decide (page < 2064)
  | .unitFailed page _ => decide (page < 2064)
  | .pgIrqForce part page _ => decide (part < 16) && decide (page < 2064)
  | .pgErrClr part page _ => decide (part < 16) && decide (page < 2064)
  | .pgLock part page _ => decide (part < 16) && decide (page < 2064)
  | .rstChip part _ => decide (part < 16)
  | .rstPart part _ => decide (part < 16)
  | .perstAssert => true
  | .perstDeassert => true
  | .linkTrained => true
  | .pcieHotReset => true
  | .flr fn => decide (fn < 16)
  | .bmeChange fn _ => decide (fn < 16)
  | .basePeriodStart => true
  | .markerArrival island _ => decide (island < 70)
  | .markerMiss island => decide (island < 70)
  | .syncPulseIn _ => true
  | .syncPulseMissing => true
  | .mirrorRefresh => true
  | .inputLatch page => decide (page < 2064)
  | .crossingArrival page _ _ _ => decide (page < 2064)
  | .scheduledCycle page _ _ => decide (page < 2064)
  | .deliveryComplete _ _ => true
  | .cutTick _ _ => true
  | .releaseTick _ _ => true
  | .planEpoch => true
  | .guardStart chan win => decide (chan < 32) && decide (win < 16)
  | .windowEnd chan win => decide (chan < 32) && decide (win < 16)
  | .refresh chan _ => decide (chan < 32)
  | .planOffWindow chan _ => decide (chan < 32)
  | .push part qp slot _ => decide (part < 16) && decide (qp < 2048) && decide (slot < 4)
  | .sqDoorbell part qp _ _ _ => decide (part < 16) && decide (qp < 2048)
  | .cqDoorbell part qp _ _ _ => decide (part < 16) && decide (qp < 2048)
  | .ringReadComplete qp _ => decide (qp < 2048)
  | .entryAdmit _ => true
  | .jobReady job => decide (job < 512)
  | .cqEntryWrite qp => decide (qp < 2048)
  | .irqTimerExpiry qp => decide (qp < 2048)
  | .adminQpEnable part qp _ => decide (part < 16) && decide (qp < 2048)
  | .adminQpDisable part qp _ => decide (part < 16) && decide (qp < 2048)
  | .nop job => decide (job < 512)
  | .qpCreate job => decide (job < 512)
  | .qpDelete job => decide (job < 512)
  | .abort job => decide (job < 512)
  | .partReset job => decide (job < 512)
  | .partitionResetEnd part => decide (part < 16)
  | .partResetTimeout part => decide (part < 16)
  | .partSetShare job => decide (job < 512)
  | .partGrant job => decide (job < 512)
  | .partRevoke job => decide (job < 512)
  | .partClrForeign part page => decide (part < 16) && decide (page < 2064)
  | .partClrLog part page => decide (part < 16) && decide (page < 2064)
  | .facetTileFail tile _ => decide (tile < 68)
  | .spareLoadDone tile _ => decide (tile < 68)
  | .spareLoadFailed tile _ => decide (tile < 68)
  | .lensCoreFail page core => decide (page < 2064) && decide (core < 4)
  | .spiRead _ _ => true
  | .spiStop _ _ => true
  | .spiRelease _ _ => true
  | .programStart tile _ => decide (tile < 68)
  | .slotNop tile k => decide (tile < 68) && decide (k < 16)
  | .br tile k => decide (tile < 68) && decide (k < 16)
  | .loopSet tile k => decide (tile < 68) && decide (k < 16)
  | .waitBp tile k => decide (tile < 68) && decide (k < 16)
  | .waitBpResume tile => decide (tile < 68)
  | .halt tile k => decide (tile < 68) && decide (k < 16)
  | .specBegin tile k => decide (tile < 68) && decide (k < 16)
  | .specCommit tile k => decide (tile < 68) && decide (k < 16)
  | .specSquash tile k => decide (tile < 68) && decide (k < 16)
  | .cmpEq tile k => decide (tile < 68) && decide (k < 16)
  | .cmpNe tile k => decide (tile < 68) && decide (k < 16)
  | .cmpLt tile k => decide (tile < 68) && decide (k < 16)
  | .cmpLtu tile k => decide (tile < 68) && decide (k < 16)
  | .cmpLe tile k => decide (tile < 68) && decide (k < 16)
  | .fcmpLt tile k => decide (tile < 68) && decide (k < 16)
  | .fcmpLe tile k => decide (tile < 68) && decide (k < 16)
  | .fcmpEq tile k => decide (tile < 68) && decide (k < 16)
  | .pand tile k => decide (tile < 68) && decide (k < 16)
  | .por tile k => decide (tile < 68) && decide (k < 16)
  | .pxor tile k => decide (tile < 68) && decide (k < 16)
  | .pnot tile k => decide (tile < 68) && decide (k < 16)
  | .pset tile k => decide (tile < 68) && decide (k < 16)
  | .add tile k => decide (tile < 68) && decide (k < 16)
  | .sub tile k => decide (tile < 68) && decide (k < 16)
  | .and tile k => decide (tile < 68) && decide (k < 16)
  | .or tile k => decide (tile < 68) && decide (k < 16)
  | .xor tile k => decide (tile < 68) && decide (k < 16)
  | .shl tile k => decide (tile < 68) && decide (k < 16)
  | .shr tile k => decide (tile < 68) && decide (k < 16)
  | .sar tile k => decide (tile < 68) && decide (k < 16)
  | .mul tile k => decide (tile < 68) && decide (k < 16)
  | .min tile k => decide (tile < 68) && decide (k < 16)
  | .max tile k => decide (tile < 68) && decide (k < 16)
  | .mov tile k => decide (tile < 68) && decide (k < 16)
  | .tickRd tile k => decide (tile < 68) && decide (k < 16)
  | .fadd tile k => decide (tile < 68) && decide (k < 16)
  | .fsub tile k => decide (tile < 68) && decide (k < 16)
  | .fmul tile k => decide (tile < 68) && decide (k < 16)
  | .fcvtI2f tile k => decide (tile < 68) && decide (k < 16)
  | .fcvtF2i tile k => decide (tile < 68) && decide (k < 16)
  | .ld tile k => decide (tile < 68) && decide (k < 16)
  | .st tile k => decide (tile < 68) && decide (k < 16)
  | .ldBc tile k => decide (tile < 68) && decide (k < 16)
  | .send tile k => decide (tile < 68) && decide (k < 16)
  | .recv tile k => decide (tile < 68) && decide (k < 16)
  | .meshDatumArrive _ _ => true
  | .mxZero tile k => decide (tile < 68) && decide (k < 16)
  | .mxOuter tile k => decide (tile < 68) && decide (k < 16)
  | .mxRowout tile k => decide (tile < 68) && decide (k < 16)
  | .mxRowin tile k => decide (tile < 68) && decide (k < 16)
  | .vaddI tile k => decide (tile < 68) && decide (k < 16)
  | .vsubI tile k => decide (tile < 68) && decide (k < 16)
  | .vand tile k => decide (tile < 68) && decide (k < 16)
  | .vor tile k => decide (tile < 68) && decide (k < 16)
  | .vxor tile k => decide (tile < 68) && decide (k < 16)
  | .vfadd tile k => decide (tile < 68) && decide (k < 16)
  | .vfsub tile k => decide (tile < 68) && decide (k < 16)
  | .vfmul tile k => decide (tile < 68) && decide (k < 16)
  | .vfma tile k => decide (tile < 68) && decide (k < 16)
  | .vfnma tile k => decide (tile < 68) && decide (k < 16)
  | .vfmax tile k => decide (tile < 68) && decide (k < 16)
  | .vfmin tile k => decide (tile < 68) && decide (k < 16)
  | .vfabs tile k => decide (tile < 68) && decide (k < 16)
  | .vredAdd tile k => decide (tile < 68) && decide (k < 16)
  | .rcp tile k => decide (tile < 68) && decide (k < 16)
  | .sqrt tile k => decide (tile < 68) && decide (k < 16)
  | .rsqrt tile k => decide (tile < 68) && decide (k < 16)
  | .divstep tile k => decide (tile < 68) && decide (k < 16)
  | .resultWriteback tile => decide (tile < 68)
  | .ssbDrain tile => decide (tile < 68)
  | .ftDiagRead part tile => decide (part < 16) && decide (tile < 68)
  | .ftDiagWrite part tile _ => decide (part < 16) && decide (tile < 68)
  | .planLoad job _ => decide (job < 512)
  | .planStop job => decide (job < 512)
  | .simgLoad job _ => decide (job < 512)
  | .simgFree job => decide (job < 512)
  | .solvDelta job => decide (job < 512)
  | .solvGuess job => decide (job < 512)
  | .solvRun job => decide (job < 512)
  | .solvRead job => decide (job < 512)
  | .solvForceCold part _ => decide (part < 16)
  | .deltaTick slot _ => decide (slot < 32)
  | .windowTest slot => decide (slot < 32)
  | .verdictSend slot => decide (slot < 32)
  | .solveCheck slot => decide (slot < 32)
  | .solveDeadline slot => decide (slot < 32)
  | .loopSampleInstant chan _ _ => decide (chan < 32)
  | .loopLatch chan _ _ => decide (chan < 32)
  | .pinEdge pin _ _ => decide (pin < 8)
  | .loopTest job => decide (job < 512)
  | .loopTable job => decide (job < 512)
  | .loopRead job _ => decide (job < 512)
  | .pwmPeriodStart pair _ => decide (pair < 16)
  | .pwmCompareMatch pair _ => decide (pair < 16)
  | .deadTimeExpiry pair _ => decide (pair < 16)
  | .tripInputActive input _ => decide (input < 8)
  | .tripLatchSet input _ => decide (input < 8)
  | .tripClr part _ _ => decide (part < 16)
  | .tripForce part _ => decide (part < 16)
  | .loupePowerOnReset => true
  | .loupeDead => true
  | .loupeAliveRestore => true
  | .loupeSourceActive src => decide (src < 32)
  | .loupeSourceInactive src => decide (src < 32)
  | .loupeClear part _ => decide (part < 16)
  | .recoveryWindowEnd => true
  | .loupeReq part _ => decide (part < 16)
  | .loupeCauseClr part _ => decide (part < 16)
  | .loupeWdtFeed part _ _ => decide (part < 16)
  | .wdtExpiry => true
  | .wdtHalf => true
  | .presNLow port => decide (port < 8)
  | .presNHigh port => decide (port < 8)
  | .tPlugExpiry port => decide (port < 8)
  | .tUnplugExpiry port => decide (port < 8)
  | .tSyncExpiry port => decide (port < 8)
  | .tEnumExpiry port => decide (port < 8)
  | .tBackoffExpiry port => decide (port < 8)
  | .rxSyncAcquired port => decide (port < 8)
  | .rxSyncLost port => decide (port < 8)
  | .relink part port _ => decide (part < 16) && decide (port < 8)
  | .announce port => decide (port < 8)
  | .caps port epoch _ => decide (port < 8) && decide (epoch < 65536)
  | .ready port epoch => decide (port < 8) && decide (epoch < 65536)
  | .txSlotStart port entry _ => decide (port < 8) && decide (entry < 16)
  | .rxSlotOpen port entry _ => decide (port < 8) && decide (entry < 16)
  | .cycUp port epoch echo cycle flags _ _ => decide (port < 8) && decide (epoch < 65536) && decide (echo < 256) && decide (cycle < 65536) && decide (flags < 16)
  | .rxSlotClose port entry _ => decide (port < 8) && decide (entry < 16)
  | .haltRequest port _ => decide (port < 8)
  | .haltWithdraw port => decide (port < 8)
  | .mbxFrameSend port _ => decide (port < 8)
  | .clnkIslandReset => true
  | .clnkIdleHoldEnd => true
  | .mbxOpenFrame port _ => decide (port < 8)
  | .openAck port _ => decide (port < 8)
  | .mbxData port _ => decide (port < 8)
  | .mbxAck port _ => decide (port < 8)
  | .mbxCloseFrame port _ => decide (port < 8)
  | .closeAck port _ => decide (port < 8)
  | .mbxAbortFrame port _ => decide (port < 8)
  | .beginR port _ => decide (port < 8)
  | .endR port _ => decide (port < 8)
  | .activateR port _ => decide (port < 8)
  | .mbxOpen job => decide (job < 512)
  | .mbxSend job => decide (job < 512)
  | .mbxRecv job => decide (job < 512)
  | .mbxClose job => decide (job < 512)
  | .mbxAbort job => decide (job < 512)
  | .fwUpdate job => decide (job < 512)
  | .rtoExpiry port mbx seq => decide (port < 8) && decide (mbx < 8) && decide (seq < 65536)
  | .ackTimerExpiry port mbx => decide (port < 8) && decide (mbx < 8)
  | .probeTimerExpiry port mbx => decide (port < 8) && decide (mbx < 8)
  | .openTimerExpiry port mbx => decide (port < 8) && decide (mbx < 8)
  | .closeTimerExpiry port mbx => decide (port < 8) && decide (mbx < 8)
  | .leakTimerExpiry port => decide (port < 8)
  | .mbxJobTimeout job => decide (job < 512)
  | .fwReplyTimeout job => decide (job < 512)
  | .fwRebootTimeout job => decide (job < 512)
  | .modelLoad job _ => decide (job < 512)
  | .modelUnload job => decide (job < 512)
  | .prefixFlush job => decide (job < 512)
  | .reqSubmit job => decide (job < 512)
  | .rqtAllocate rqt => decide (rqt < 1024)
  | .reqCancel job => decide (job < 512)
  | .reqPause job => decide (job < 512)
  | .reqResume job => decide (job < 512)
  | .reqQuery job => decide (job < 512)
  | .stepBoundary mslot _ => decide (mslot < 8)
  | .idleSlotApply mslot _ => decide (mslot < 8)
  | .pauseWriteDone rqt => decide (rqt < 1024)
  | .resumeRestoreDone rqt => decide (rqt < 1024)
  | .pauseTtlExpiry rqt => decide (rqt < 1024)
  | .lensCoreLeave part page _ => decide (part < 16) && decide (page < 2064)
  | .lensCoreReturn part page _ => decide (part < 16) && decide (page < 2064)
  | .maskLoad job => decide (job < 512)
  | .maskFree job => decide (job < 512)
  | .budgetRefill => true
  | .smpFill part _ _ => decide (part < 16)
  | .memCopy job => decide (job < 512)
  | .memFill job => decide (job < 512)
  | .memCheck job => decide (job < 512)
  | .memInject job => decide (job < 512)
  | .memcInit part => decide (part < 16)
  | .memcInitDone _ => true
  | .scrubPass region _ => decide (region < 256)
  | .patrolRead memch _ => decide (memch < 2)
  | .repairWriteback queue => decide (queue < 272)
  | .memcClr part page => decide (part < 16) && decide (page < 2064)
  | .sramClrSelected part => decide (part < 16)
  | .sramClrAll part => decide (part < 16)
  | .rtuCommit job _ => decide (job < 512)
  | .rtuRead job => decide (job < 512)
  | .rtuList job => decide (job < 512)
  | .rtuFormat job _ => decide (job < 512)
  | .flashOpDone _ _ _ => true
  | .holdupMeasure _ => true
  | .backgroundErase => true
  | .rtuRecovery => true
  | .chooserEvaluate _ _ => true
  | .psEntryDone => true
  | .scheduledExit => true
  | .wake _ => true
  | .psExitDone => true
  | .pmuPs4 part _ _ => decide (part < 16)
  | .ps4CommitDone => true
  | .pmuTimerFire timer => decide (timer < 4)
  | .thermalSample _ _ _ _ => true
  | .speedAdjust => true
  | .tkuStrobe _ _ _ _ _ _ => true
  | .touchScanEnd _ _ => true
  | .tkuEvtRead part => decide (part < 16)
  | .tkuFlush part => decide (part < 16)
  | .tkuClrDropped part => decide (part < 16)
  | .reacquire part => decide (part < 16)
  | .pwrEnRaise => true
  | .corePgRise => true
  | .planRefLock => true
  | .corePgFall => true
  | .fill => true
  | .discover _ => true
  | .image _ _ => true
  | .preload => true
  | .hostReady => true
  | .storeDone => true
  | .extest _ => true
  | .idcode => true
  | .samplePreload _ => true
  | .clamp => true
  | .highz => true
  | .bypass => true
  | .dap => true
  | .regRead dapAddr => decide (dapAddr < 2147483648)
  | .regWrite dapAddr _ => decide (dapAddr < 2147483648)
  | .flashRead dapAddr => decide (dapAddr < 2147483648)
  | .flashWrite dapAddr _ => decide (dapAddr < 2147483648)
  | .flashErase dapAddr => decide (dapAddr < 2147483648)
  | .holdReset => true
  | .jtagChipReset => true
  | .fuseProg _ _ _ => true
  | .fuseRead => true
  | .foreignRead part _ => decide (part < 16)
  | .rxFrameDiscarded port _ => decide (port < 8)
  | .hostReadCompletion job _ => decide (job < 512)
  | .vioSafeLoss => true

end Sys2Proof
end

