-- ==== Sys2Proof/Machine/Float.lean ====
section
/-! DEFINITION. Binary floating point shared by FX45, binary32 and binary64: values, rounding (R212, R213), sums, products,
quotients and roots, computed exactly on integers. -/

namespace Sys2Proof.Machine

/-- A floating-point value: a NaN, a signed infinity, or a sign with the magnitude `m * 2^e`. -/
inductive FVal where
  | nan
  | inf (neg : Bool)
  | fin (neg : Bool) (m : Nat) (e : Int)
  deriving DecidableEq, Repr

/-- A binary format: fraction bits and exponent bits. The bias and the exponent range follow. -/
structure Fmt where
  fb : Nat
  eb : Nat
  deriving DecidableEq, Repr

def fmtFx45 : Fmt := ⟨36, 8⟩
def fmtB32 : Fmt := ⟨23, 8⟩
def fmtB64 : Fmt := ⟨52, 11⟩

def Fmt.bias (f : Fmt) : Int := 2 ^ (f.eb - 1) - 1
/-- Exponent of the lowest bit of a subnormal. -/
def Fmt.elow (f : Fmt) : Int := 1 - f.bias - f.fb

/-- Shift left by an integer number of places that is not negative. -/
def shlInt (m : Nat) (k : Int) : Nat := m <<< k.toNat

/-- The exponent of the leading bit of `m * 2^e`, for m not 0. -/
def leadExp (m : Nat) (e : Int) : Int := e + Nat.log2 m

/-- Round `m * 2^e`, with `sticky` for a part below the lowest bit, to a multiple of `2^u`, ties to even (R212). -/
def roundAt (m : Nat) (e u : Int) (sticky : Bool) : Nat :=
  if u ≤ e then shlInt m (e - u)
  else
    let k := (u - e).toNat
    let n := m >>> k
    let r := m % 2 ^ k
    let half := 2 ^ (k - 1)
    if half < r ∨ (r = half ∧ (sticky ∨ n % 2 = 1)) then n + 1 else n

/-- Round a finite magnitude to a format (R212): the encoded exponent and fraction, or none on overflow. -/
def roundMag (f : Fmt) (m : Nat) (e : Int) (sticky : Bool) : Option Nat :=
  if m = 0 then some 0
  else
    let u := max (leadExp m e - f.fb) f.elow
    let n := roundAt m e u sticky
    if n < 2 ^ f.fb then some n
    else
      let (n, u) := if n = 2 ^ (f.fb + 1) then (2 ^ f.fb, u + 1) else (n, u)
      let ex := (u + f.fb + f.bias).toNat
      if 2 ^ f.eb - 1 ≤ ex then none else some (ex * 2 ^ f.fb + (n - 2 ^ f.fb))

/-- The canonical NaN, an infinity and a sign bit of a format. -/
def Fmt.cnan (f : Fmt) : Nat := (2 ^ f.eb - 1) * 2 ^ f.fb + 2 ^ (f.fb - 1)
def Fmt.sgn (f : Fmt) (neg : Bool) : Nat := if neg then 2 ^ (f.fb + f.eb) else 0
def Fmt.infinity (f : Fmt) (neg : Bool) : Nat := f.sgn neg + (2 ^ f.eb - 1) * 2 ^ f.fb

/-- Encode a value with rounding and overflow to infinity (R212, R213, R215). -/
def encF (f : Fmt) (v : FVal) (sticky : Bool := false) : Nat :=
  match v with
  | .nan => f.cnan
  | .inf s => f.infinity s
  | .fin s m e => match roundMag f m e sticky with
    | some x => f.sgn s + x
    | none => f.infinity s

/-- Decode a container (Tables 7.2 and 7.3). -/
def decF (f : Fmt) (x : Nat) : FVal :=
  let s := x.testBit (f.fb + f.eb)
  let ex := (x >>> f.fb) % 2 ^ f.eb
  let fr := x % 2 ^ f.fb
  if ex = 2 ^ f.eb - 1 then (if fr = 0 then .inf s else .nan)
  else if ex = 0 then .fin s fr f.elow
  else .fin s (2 ^ f.fb + fr) ((ex : Int) - f.bias - f.fb)

/-- The value with its sign changed. -/
def FVal.negate : FVal → FVal
  | .nan => .nan
  | .inf s => .inf (!s)
  | .fin s m e => .fin (!s) m e

/-- Exact sum (R213, Table 7.7). -/
def addF (a b : FVal) : FVal :=
  match a, b with
  | .nan, _ => .nan
  | _, .nan => .nan
  | .inf s, .inf t => if s = t then .inf s else .nan
  | .inf s, _ => .inf s
  | _, .inf t => .inf t
  | .fin s m e, .fin t n d =>
    let lo := min e d
    let x : Int := (if s then -1 else 1) * (shlInt m (e - lo) : Nat)
    let y : Int := (if t then -1 else 1) * (shlInt n (d - lo) : Nat)
    let z := x + y
    if z = 0 then .fin (s && t && m = 0 && n = 0) 0 lo else .fin (decide (z < 0)) z.natAbs lo

/-- Exact product (R213, Table 7.7). -/
def mulF (a b : FVal) : FVal :=
  match a, b with
  | .nan, _ => .nan
  | _, .nan => .nan
  | .inf s, .inf t => .inf (s != t)
  | .inf s, .fin t n _ => if n = 0 then .nan else .inf (s != t)
  | .fin s m _, .inf t => if m = 0 then .nan else .inf (s != t)
  | .fin s m e, .fin t n d => .fin (s != t) (m * n) (e + d)

/-- Integer square root, one bit at a time from bit `k` down. -/
def isqrtFrom : Nat → Nat → Nat → Nat
  | 0, r, _ => r
  | k + 1, r, x =>
    let c := r + 2 ^ k
    if c * c ≤ x then isqrtFrom k c x else isqrtFrom k r x

/-- Integer square root. -/
def isqrt (x : Nat) : Nat := isqrtFrom (Nat.log2 x / 2 + 1) 0 x

/-- 1/A with the part below the lowest bit (Table 7.5, Table 7.7). -/
def rcpF (a : FVal) : FVal × Bool :=
  match a with
  | .nan => (.nan, false)
  | .inf s => (.fin s 0 0, false)
  | .fin s m e =>
    if m = 0 then (.inf s, false)
    else
      let n := Nat.log2 m + 80
      (.fin s (2 ^ n / m) (-(n : Int) - e), decide (2 ^ n % m ≠ 0))

/-- The square root with the part below the lowest bit (Table 7.5, Table 7.7). -/
def sqrtF (a : FVal) : FVal × Bool :=
  match a with
  | .nan => (.nan, false)
  | .inf s => (if s then .nan else .inf false, false)
  | .fin s m e =>
    if m = 0 then (.fin s 0 0, false)
    else if s then (.nan, false)
    else
      let k := 160 + (e % 2).toNat
      let x := m <<< k
      let r := isqrt x
      (.fin false r ((e - k) / 2), decide (r * r ≠ x))

/-- 1/√A with the part below the lowest bit (Table 7.5, Table 7.7). -/
def rsqrtF (a : FVal) : FVal × Bool :=
  match a with
  | .nan => (.nan, false)
  | .inf s => (if s then .nan else .fin false 0 0, false)
  | .fin s m e =>
    if m = 0 then (.inf s, false)
    else if s then (.nan, false)
    else
      let x := m <<< (e % 2).toNat
      let d := (e - e % 2) / 2
      let k := 100 + Nat.log2 x / 2
      let r := isqrt (2 ^ (2 * k) / x)
      (.fin false r (-(k : Int) - d), decide (r * r * x ≠ 2 ^ (2 * k)))

/-- Exact order of two values that are not NaN: less than, with both zeros equal. -/
def ltF (a b : FVal) : Bool :=
  match a, b with
  | .nan, _ => false
  | _, .nan => false
  | .inf s, .inf t => s && !t
  | .inf s, _ => s
  | _, .inf t => !t
  | .fin s m e, .fin t n d =>
    let lo := min e d
    let x : Int := (if s then -1 else 1) * (shlInt m (e - lo) : Nat)
    let y : Int := (if t then -1 else 1) * (shlInt n (d - lo) : Nat)
    decide (x < y)

def FVal.isNan : FVal → Bool
  | .nan => true
  | _ => false

def FVal.isNeg : FVal → Bool
  | .nan => false
  | .inf s => s
  | .fin s _ _ => s

/-- Equality of values: −0 equals +0, a NaN equals nothing. -/
def eqF (a b : FVal) : Bool := !a.isNan && !b.isNan && !ltF a b && !ltF b a

/-- The larger operand; +0 counts as larger than −0; NaN when either is (Table 7.5). -/
def maxF (a b : FVal) : FVal :=
  if a.isNan || b.isNan then .nan else if ltF a b then b else if ltF b a then a else if a.isNeg then b else a

/-- The smaller operand. -/
def minF (a b : FVal) : FVal :=
  if a.isNan || b.isNan then .nan else if ltF a b then a else if ltF b a then b else if a.isNeg then a else b

/-- Round a value times `2^k` to an integer, ties to even; none for a NaN or an infinity. -/
def rneInt (v : FVal) (k : Int) : Option Int :=
  match v with
  | .fin s m e => let n := roundAt m (e + k) 0 false; some (if s then -(n : Int) else n)
  | _ => none

/-- An integer as a value. -/
def ofInt (z : Int) : FVal := .fin (decide (z < 0)) z.natAbs 0

/-! ### FX45 -/

/-- FX45 results are 64-bit containers with bits [63:45] = 0 (R214). -/
def fx (v : FVal) : Nat := encF fmtFx45 v
def fxVal (x : Nat) : FVal := decF fmtFx45 (x % 2 ^ 45)

def fxAdd (a b : Nat) : Nat := fx (addF (fxVal a) (fxVal b))
def fxSub (a b : Nat) : Nat := fx (addF (fxVal a) (fxVal b).negate)

/-- The significand in [1, 2) as 37 bits with its exponent (R217). -/
def fxNormal (m : Nat) (e : Int) : Nat × Int :=
  let k : Nat := 36 - Nat.log2 m
  (m <<< k, e - k + 36)

/-- The product of the limbs that a pass uses, scaled by 2^72 (R217, R218). -/
def limbProduct (n qa qb : Nat) : Nat :=
  let a0 := (qa >>> 24) <<< 24
  let a1 := ((qa >>> 12) % 4096) <<< 12
  let a2 := qa % 4096
  let b0 := (qb >>> 24) <<< 24
  let b1 := ((qb >>> 12) % 4096) <<< 12
  let b2 := qb % 4096
  let p1 := a0 * b0
  let p2 := p1 + a0 * b1 + a1 * b0
  let p3 := p2 + a1 * b1 + a0 * b2 + a2 * b0
  if n = 1 then p1 else if n = 2 then p2 else p3

/-- The pass product at PASS n (R218): finite non-zero operands by limbs, the rest by Table 7.7. -/
def fxMulPass (n a b : Nat) : Nat :=
  match fxVal a, fxVal b with
  | .fin s m e, .fin t k d =>
    if m = 0 ∨ k = 0 then fx (.fin (s != t) 0 0)
    else
      let (qa, ka) := fxNormal m e
      let (qb, kb) := fxNormal k d
      fx (.fin (s != t) (limbProduct n qa qb) (ka + kb - 72))
  | x, y => fx (mulF x y)

/-- A·B + C and C − A·B with two roundings (Table 7.5). -/
def fxFma (n a b c : Nat) : Nat := fxAdd (fxMulPass n a b) c
def fxFnma (n a b c : Nat) : Nat := fxSub c (fxMulPass n a b)

def fxRcp (a : Nat) : Nat := let r := rcpF (fxVal a); encF fmtFx45 r.1 r.2
def fxSqrt (a : Nat) : Nat := let r := sqrtF (fxVal a); encF fmtFx45 r.1 r.2
def fxRsqrt (a : Nat) : Nat := let r := rsqrtF (fxVal a); encF fmtFx45 r.1 r.2

/-- 2.0 as FX45. -/
def fxTwo : Nat := 128 * 2 ^ 36

/-- One Newton step A·(2 − B·A) (Table 7.5). -/
def fxDivstep (a b : Nat) : Nat := fxMulPass 3 a (fxSub fxTwo (fxMulPass 3 b a))

def fxMax (a b : Nat) : Nat := fx (maxF (fxVal a) (fxVal b))
def fxMin (a b : Nat) : Nat := fx (minF (fxVal a) (fxVal b))

/-- A with SIGN = 0; the canonical NaN for a NaN (Table 7.5). -/
def fxAbs (a : Nat) : Nat :=
  match fxVal a with
  | .nan => fmtFx45.cnan
  | v => fx (if v.isNeg then v.negate else v)

def fxLt (a b : Nat) : Bool := ltF (fxVal a) (fxVal b)
def fxEq (a b : Nat) : Bool := eqF (fxVal a) (fxVal b)
def fxLe (a b : Nat) : Bool := fxLt a b || fxEq a b

/-- FCVT.I2F: a signed 64-bit integer rounded to FX45. -/
def fxOfInt (x : Nat) : Nat := fx (ofInt (toSigned 64 x))

/-- FCVT.F2I: RNE to an integer with saturation; NaN gives 0 (Tables 7.5 and 7.7). -/
def fxToInt (a : Nat) : Nat :=
  match fxVal a with
  | .nan => 0
  | .inf s => if s then 2 ^ 63 else 2 ^ 63 - 1
  | v => match rneInt v 0 with
    | none => 0
    | some z => ofSigned 64 (max (-(2 ^ 63)) (min z (2 ^ 63 - 1)))

/-- Conversions of Table 7.16 between FX45, binary32 and binary64. -/
def b64ToFx (x : Nat) : Nat := fx (decF fmtB64 x)
def fxToB64 (x : Nat) : Nat := encF fmtB64 (fxVal x)
def b32ToFx (x : Nat) : Nat := fx (decF fmtB32 x)
def fxToB32 (x : Nat) : Nat := encF fmtB32 (fxVal x)

/-- A / B of two finite values with B not 0, rounded once (R263). -/
def fxDiv (a b : Nat) : Nat :=
  match fxVal a, fxVal b with
  | .fin s m e, .fin t n d =>
    let k := Nat.log2 n + 80
    encF fmtFx45 (.fin (s != t) (m * 2 ^ k / n) (e - d - k)) (decide (m * 2 ^ k % n ≠ 0))
  | _, _ => fmtFx45.cnan

/-- A value with its sign changed. -/
def fxNeg (a : Nat) : Nat := fx (fxVal a).negate

/-- A value is finite. -/
def fxFinite (a : Nat) : Bool :=
  match fxVal a with
  | .fin _ _ _ => true
  | _ => false

/-- The fixed tree of VRED.ADD: neighbours are added until one value is left (Table 6.6). -/
def pairUp (f : Nat → Nat → Nat) : List Nat → List Nat
  | a :: b :: r => f a b :: pairUp f r
  | l => l

/-- Apply pairing `k` times. -/
def pairTree (f : Nat → Nat → Nat) : Nat → List Nat → List Nat
  | 0, l => l
  | k + 1, l => pairTree f k (pairUp f l)

def fxReduce (lanes : List Nat) : Nat := (pairTree fxAdd 4 lanes).headD 0

/-! ### Binary32 -/

def b32 (v : FVal) (sticky : Bool := false) : Nat := encF fmtB32 v sticky
def b32Val (x : Nat) : FVal := decF fmtB32 (x % 2 ^ 32)

/-- A non-zero subnormal binary32. -/
def b32Sub (x : Nat) : Bool := (x >>> 23) % 256 = 0 && x % 2 ^ 23 != 0

/-- R229: under FLUSH = 1 a subnormal reads and results as a zero of the same sign; with whether a non-zero value was replaced. -/
def b32Flush (flush : Bool) (x : Nat) : Nat × Bool :=
  if flush && b32Sub x then (x / 2 ^ 31 % 2 * 2 ^ 31, true) else (x, false)

/-- A binary32 operation with the flush rule on operands and result. -/
def b32Op2 (flush : Bool) (f : FVal → FVal → FVal) (a b : Nat) : Nat × Bool :=
  let (a, fa) := b32Flush flush a
  let (b, fb) := b32Flush flush b
  let (r, fr) := b32Flush flush (b32 (f (b32Val a) (b32Val b)))
  (r, fa || fb || fr)

def b32Add (flush : Bool) (a b : Nat) : Nat × Bool := b32Op2 flush addF a b
def b32SubOp (flush : Bool) (a b : Nat) : Nat × Bool := b32Op2 flush (fun x y => addF x y.negate) a b
def b32Mul (flush : Bool) (a b : Nat) : Nat × Bool := b32Op2 flush mulF a b
def b32Max (flush : Bool) (a b : Nat) : Nat × Bool := b32Op2 flush maxF a b
def b32Min (flush : Bool) (a b : Nat) : Nat × Bool := b32Op2 flush minF a b

def b32Op1 (flush : Bool) (f : FVal → FVal × Bool) (a : Nat) : Nat × Bool :=
  let (a, fa) := b32Flush flush a
  let v := f (b32Val a)
  let (r, fr) := b32Flush flush (b32 v.1 v.2)
  (r, fa || fr)

def b32Rcp (flush : Bool) (a : Nat) : Nat × Bool := b32Op1 flush rcpF a
def b32Rsqrt (flush : Bool) (a : Nat) : Nat × Bool := b32Op1 flush rsqrtF a

/-- 2^(2^-i) scaled by 2^160, for i from 1 on, by repeated square roots. -/
def rootTwo : Nat → Nat
  | 0 => 2 ^ 161
  | i + 1 => isqrt (rootTwo i * 2 ^ 160)

/-- The product of 2^(2^-i) over the one bits of a fraction of `k` bits, scaled by 2^160; `i` counts from the top bit. -/
def exp2Frac : Nat → Nat → Nat → Nat → Nat
  | 0, _, _, acc => acc
  | k + 1, i, fr, acc => exp2Frac k (i + 1) fr (if fr.testBit k then acc * rootTwo i / 2 ^ 160 else acc)

/-- 2^x, with a part below the lowest bit unless x is an integer (R231). -/
def exp2F (v : FVal) : FVal × Bool :=
  match v with
  | .nan => (.nan, false)
  | .inf s => (if s then .fin false 0 0 else .inf false, false)
  | .fin s m e =>
    if m = 0 ∨ leadExp m e < -26 then (.fin false 1 0, false)
    else if 10 < leadExp m e then (if s then .fin false 1 (-400) else .fin false 1 400, false)
    else
      let k := (-e).toNat
      let z : Int := (if s then -1 else 1) * (shlInt m e : Nat)
      let fx : Int := if 0 ≤ e then z else (if s then -(m : Int) else m)
      let whole : Int := if 0 ≤ e then z else fx / (2 ^ k : Nat)
      let fr : Nat := if 0 ≤ e then 0 else (fx % (2 ^ k : Nat)).toNat
      if fr = 0 then (.fin false 1 whole, false)
      else (.fin false (exp2Frac k 1 fr (2 ^ 160)) (whole - 160), true)

def b32Exp2 (flush : Bool) (a : Nat) : Nat × Bool := b32Op1 flush exp2F a

end Sys2Proof.Machine
end

