-- ==== Sys2Proof/Machine/StClnk.lean ====
section
/-! DEFINITION. State of CriskaLink: the ports with their wire and enumeration (chapter 11), and the mailbox sessions (chapter 12). -/

namespace Sys2Proof.Machine

/-- A frame the device sends (R362): the header fields and the payload. TYPE 0xF begins with /H/, any other with /S/. -/
structure LinkFrame where
  typ : Nat := 0
  flags : Nat := 0
  chan : Nat := 0
  epoch : Nat := 0
  cycle : Nat := 0
  data : List Byte := []
  deriving DecidableEq, Repr

/-- A frame that left a port: the tick of its start code group, how many such frames follow one another 26 code groups apart in its base
period, each with one more in its count (HALT filling, R383, R384), and whether it was abandoned (R366). -/
structure SentFrame where
  frame : LinkFrame
  start : Nat
  copies : Nat := 1
  abandoned : Bool := false
  deriving DecidableEq, Repr

/-- A mailbox frame without data that waits to be sent: OPEN, OPEN's service, ACK probes, CLOSE, CLOSE_ACK and ABORT, with the MBX_ABORT job
that completes when it leaves. -/
structure CtlFrame where
  chan : Nat
  kind : Nat
  sid : Nat
  probe : Bool := false
  service : Option Nat := none
  job : Option Nat := none
  deriving DecidableEq, Repr

/-- What a frame in progress takes back when it is abandoned (R427). -/
inductive TxItem where
  | none
  | enum (f : LinkFrame)
  | ctl (c : CtlFrame)
  | ack (chan : Nat)
  | frag (chan idx : Nat) (fresh : Bool)
  deriving DecidableEq, Repr

/-- The last frame of a port: its first and last tick, whether it is a HALT, what it takes back, and TX_FRAMES before it. -/
structure Sending where
  start : Nat
  ended : Nat
  halt : Bool
  item : TxItem := .none
  before : Nat := 0
  deriving DecidableEq, Repr

/-- A receive window (R377 to R380): its entry and the entry's words, its bounds on the slot engine's copy, the CHAN its SYNC carried, none
where no SYNC or HALT went out, its CYCLE, the epoch it opened in, none where the port was not UP, and what came in it. -/
structure RxWindow where
  entry : Nat
  bits : BitVec 128
  openAt : Int
  closeAt : Int
  chan : Option Nat
  cycle : Nat
  epoch : Option Nat
  kept : Option (Nat × List Byte) := none
  dup : Bool := false
  late : Bool := false
  err : Bool := false
  deriving DecidableEq, Repr

/-- A fragment the device sends (R399 to R403): its job, its place in its message, its data, the body bytes of a firmware update that are
complete with it, its transmissions, the order number and the tick of the last one, and whether the limb holds it or it is to be sent
again. -/
structure TxFrag where
  job : Nat
  first : Bool
  last : Bool
  data : List Byte
  mark : Option Nat := none
  sends : Nat := 0
  order : Nat := 0
  timer : Option Nat := none
  held : Bool := false
  due : Bool := false
  deriving DecidableEq, Repr

/-- A fragment held in a receive buffer (R404). -/
structure RxFrag where
  first : Bool
  last : Bool
  data : List Byte
  deriving DecidableEq, Repr

/-- How far a firmware update has come in its session (R421 steps 6 and 7). -/
inductive FwPhase where
  | opening | begin | reread | chunks | ending | activate
  deriving DecidableEq, Repr

/-- A firmware update with a session: its job, the container header, HELD, whether the second hash matched, the tick from which a reply is
awaited, and the body bytes in chunks fully acknowledged. -/
structure FwRun where
  job : Nat
  header : List Byte
  phase : FwPhase := .opening
  held : Nat := 0
  good : Bool := false
  since : Option Nat := none
  acked : Nat := 0
  deriving DecidableEq, Repr

/-- A firmware update that waits for its limb to return (R421 step 8), and since when. -/
structure FwReboot where
  job : Nat
  vendor : Nat
  product : Nat
  revision : Nat
  since : Nat
  deriving DecidableEq, Repr

/-- Session states (Table 12.5). -/
inductive MbxState where
  | closed | opening | opened | draining | closing
  deriving DecidableEq, Repr

/-- A mailbox channel with its session (R400, R404, R409). -/
structure Session where
  state : MbxState := .closed
  sid : Nat := 0
  /-- The SID counter of the epoch, and that it has passed 255 (R398). -/
  sidCount : Nat := 0
  sidWrapped : Bool := false
  service : Nat := 0
  /-- The job's WINDOW and WL, the WIN of the latest limb frame. -/
  window : Nat := 16
  wl : Nat := 0
  /-- SND_UNA, the fragments from it on, and how many of them are in flight. -/
  una : Nat := 0
  frags : List TxFrag := []
  flight : Nat := 0
  order : Nat := 0
  /-- RCV_DLV, and the fragments stored, by distance from it. -/
  dlv : Nat := 0
  rx : Tab RxFrag := []
  /-- The open message: the job that holds it, none while the rest is discarded, and its bytes so far. -/
  msgOpen : Bool := false
  holding : Option Nat := none
  got : Nat := 0
  /-- In-order fragments not acknowledged, the tick of the first, and an ACK due at once (R405). -/
  unacked : Nat := 0
  ackSince : Option Nat := none
  ackDue : Bool := false
  /-- Probes sent in a row, and the tick from which the next one counts (R406). -/
  probes : Nat := 0
  probeAt : Option Nat := none
  /-- Sends of OPEN or CLOSE and the tick of the last (R409). -/
  tries : Nat := 0
  timerAt : Option Nat := none
  opener : Option Nat := none
  /-- MBX_SEND jobs that have not ended, those whose fragments are queued, and the data of those that wait (R416). -/
  sends : List Nat := []
  fed : List Nat := []
  ready : Tab (List Byte) := []
  recvs : List Nat := []
  closers : List Nat := []
  fw : Option FwRun := none
  deriving DecidableEq, Repr

/-- One CriskaLink port. -/
structure LinkPort where
  /-- The level of PRES_N. -/
  presN : Bool := true
  /-- The tick at which each timer of Table 11.11 started. -/
  plugAt : Option Nat := none
  unplugAt : Option Nat := none
  syncAt : Option Nat := none
  enumAt : Option Nat := none
  backoffAt : Option Nat := none
  /-- The epoch counter, the E of the enumeration and the current epoch (R368, R369). -/
  counter : Nat := 0
  enumE : Option Nat := none
  current : Option Nat := none
  /-- The first CAPS of E, and VENDOR, PRODUCT and SERIAL of the last accepted record (R371, R372). -/
  caps : Option (BitVec 512) := none
  identity : Option Nat := none
  assigns : Nat := 0
  confirms : Nat := 0
  /-- RESULT and REASON of the CONFIRM. -/
  reject : Nat := 0
  /-- By entry: consecutive windows without FRESH, and the payload of the last FRESH slot of the epoch. -/
  misses : Tab Nat := []
  fresh : Tab (List Byte) := []
  wins : List RxWindow := []
  /-- The transmitter: on, the frame sent last, the ENUM frame that waits, the mailbox frames without data that wait, and the last channel
  of each tier of R427. -/
  tx : Bool := false
  sending : Option Sending := none
  enumFrame : Option LinkFrame := none
  ctl : List CtlFrame := []
  turn : Tab Nat := []
  /-- LOUPE and LOUPE_DEAD halts that stand, the tick they were withdrawn, the cause of the last HALT and the HALTs since the halt began. -/
  loupe : Bool := false
  dead : Bool := false
  haltOff : Option Nat := none
  haltCause : Nat := 0
  haltCount : Nat := 0
  /-- RUN_EN before each write of the last 128 ticks, the newest first (R376). -/
  runLog : List (Nat × Bool) := []
  /-- What left the port, the newest first. -/
  sent : List SentFrame := []
  chans : Tab Session := []
  /-- The tick from which the violation bucket leaks (R412). -/
  leakAt : Option Nat := none
  reboots : List FwReboot := []
  deriving DecidableEq, Repr

structure ClnkSt where
  ports : Tab LinkPort := []
  /-- A chip reset waits for the first HALT of these ports, since its start (R370); and the end of the electrical-idle hold. -/
  resetting : Option Nat := none
  owing : List Nat := []
  hold : Option Nat := none
  deriving DecidableEq, Repr

end Sys2Proof.Machine
end

