-- ==== Sys2Proof/Machine/StMem.lean ====
section
/-! DEFINITION. State of memory (chapter 15): words with their check bytes, the counts of the SRAM regions, the repair queues and the
Plan region. -/

namespace Sys2Proof.Machine

/-- An ECC memory: its data bytes by byte address and its check bytes by word index. Both are lists of cells with rising keys that list
no 0: a zero-filled memory (R521, R522) lists nothing, and its words are CLEAN (DESIGN CHOICE, assumption 127). -/
structure Mem where
  bytes : List Host.Cell := []
  checks : List Host.Cell := []
  deriving DecidableEq, Repr

/-- The counts of an SRAM region (R520). -/
structure EccCount where
  ce : Nat := 0
  ue : Nat := 0
  reads : Nat := 0
  merges : Nat := 0
  lastCe : Nat := 0
  dropped : Nat := 0
  deriving DecidableEq, Repr

structure MemSt where
  /-- Device memory by device address. -/
  dram : Mem := {}
  /-- Raw capacity in GiB found by training, by channel; none where the channel is not trained (R506, R522). -/
  trained : Tab Nat := []
  /-- MEMC_INIT has been given its one write since the last chip reset, and MEMC_CFG its one write (R522). -/
  initUsed : Bool := false
  cfgUsed : Bool := false
  /-- Counts of the SRAM regions by region ID. -/
  regions : Tab EccCount := []
  /-- Repair queues (R511): words that wait for a write-back, the oldest first; a channel c at c, an SRAM region r at 16 + r. -/
  repair : Tab (List Nat) := []
  /-- Scrub passes of each SRAM region since the last chip reset, and the pass window after the last one (R517). -/
  passes : Tab Nat := []
  passAt : Tab Nat := []
  /-- Next channel offset of each patrol (R518). -/
  patrol : Tab Nat := []
  /-- Bytes of the Plan region that are taken (R525): solver slot k at k, the plan in force at 32, the pending plan at 33. -/
  planUse : Tab Nat := []
  deriving DecidableEq, Repr

end Sys2Proof.Machine
end

