-- ==== Sys2Proof/Machine/StFacet.lean ====
section
/-! DEFINITION. State of the Facet tiles, the mesh and the remap (chapter 6, R158 to R162). -/

namespace Sys2Proof.Machine

/-- A container (R176). The value bits of a poisoned one are open: no rule reads them. -/
structure Cont where
  val : DWord := 0
  poison : Bool := false
  deriving DecidableEq, Repr

/-- A predicate register: its lane bits and their poison (R176, R178). -/
structure Pred where
  bits : BitVec 16 := 0
  poison : BitVec 16 := 0
  deriving DecidableEq, Repr

/-- A loop counter with its body range (R188). -/
structure LoopCtr where
  left : Nat := 0
  first : Nat := 0
  last : Nat := 0
  deriving DecidableEq, Repr

/-- The registers that a shadow bank holds (Table 6.2): S by number, V by 16·register + lane, A by 64·accumulator + 8·row + column, Q, L,
and the open loops, the innermost first. -/
structure Regs where
  s : Tab Cont := []
  v : Tab Cont := []
  a : Tab Cont := []
  q : Tab Pred := []
  l : Tab LoopCtr := []
  nest : List Nat := []
  deriving DecidableEq, Repr

/-- An open speculation level: its own number, its shadow bank and its OVERFLOW flag (R195, R198). -/
structure Level where
  id : Nat := 0
  bank : Regs := {}
  overflow : Bool := false
  deriving DecidableEq, Repr

/-- One SSB entry (R197): a word of SRAM, or a release port above them, its value, and the level it is tagged with; none once committed. -/
structure SsbEntry where
  word : Nat
  val : Cont
  level : Option Nat
  deriving DecidableEq, Repr

/-- What a result writes. -/
inductive FxWrite where
  | s (r : Nat) (c : Cont)
  | v (r lane : Nat) (c : Cont)
  | q (r lane : Nat) (b p : Bool)
  | acc (a i j : Nat) (c : Cont)
  | accAdd (a i j : Nat) (c : Cont)
  deriving DecidableEq, Repr

/-- A result on its way to its register (R185): the cycle it is due, the cycle and slot it was issued in, and the levels open then. -/
structure Result where
  due : Nat
  issue : Nat
  slot : Nat
  levels : List Nat
  writes : List FxWrite
  deriving DecidableEq, Repr

/-- A datum in a receive channel (R191): its lanes, its speculative tag (R200), and the cycle it arrived in. -/
structure ChanDatum where
  lanes : List Cont := []
  spec : Bool := false
  cycle : Nat := 0
  deriving DecidableEq, Repr

/-- The control action of the BR slot of the Tray that issues. -/
inductive Control where
  | br (target : Nat)
  | loopSet (k target count : Nat)
  | waitBp (phase : Nat)
  | halt
  | specBegin
  | specCommit (k target : Nat)
  | specSquash (k target : Nat)
  | poisoned
  deriving DecidableEq, Repr

/-- A store of the Tray that issues: its word and value. -/
structure TrayStore where
  slot : Nat
  word : Nat
  val : Cont
  deriving DecidableEq, Repr

/-- The Tray that issues: the slots done, what they leave for the end of the cycle. -/
structure TraySt where
  done : Nat := 0
  control : Option Control := none
  stores : List TrayStore := []
  /-- The channel taken by RECV, its datum, and the word of its slot. -/
  recv : Option (DWord × Option ChanDatum) := none
  send : Option DWord := none
  deriving DecidableEq, Repr

structure Tile where
  sram : Mem := {}
  regs : Regs := {}
  chans : Tab ChanDatum := []
  running : Bool := false
  halted : Bool := false
  /-- The code it halted with (R205, R267). -/
  haltCode : Nat := 0
  /-- The Tray index last issued. -/
  pc : Nat := 0
  /-- The Tray that issues and its cycle on the aligned copy. -/
  next : Nat := 0
  cycle : Nat := 0
  tray : TraySt := {}
  /-- Delay Trays left of a BR, and where fetch continues if it is taken (R188). -/
  delay : Nat := 0
  target : Option Nat := none
  /-- The copy tick that WAIT.BP waits for. -/
  wait : Option Nat := none
  /-- First cycle in which each lane group is free (R193). -/
  lanes : Tab Nat := []
  results : List Result := []
  levels : List Level := []
  ssb : List SsbEntry := []
  nextLevel : Nat := 1
  deriving DecidableEq, Repr

/-- A datum on its way over Prism, or from the Plan root to channel 15 (R190, R192): the receiving position, the channel, its lanes and its
speculative tag. -/
structure MeshDatum where
  pos : Nat
  chan : Nat
  lanes : List Cont
  spec : Bool := false
  deriving DecidableEq, Repr

/-- A spare load in progress (R158, R160): the position and the spare. -/
structure SpareLoad where
  pos : Nat
  spare : Nat
  since : Nat := 0
  deriving DecidableEq, Repr

structure FacetSt where
  tiles : Tab Tile := []
  mesh : List MeshDatum := []
  /-- Spare loads in progress, and remaps that wait for their epoch: position and new tile; where the old tile goes out of service by
  software, it (R159, R162). -/
  loads : List SpareLoad := []
  remaps : List SpareLoad := []
  leaving : List Nat := []
  /-- Tick at which the last spare load completed, and the base-period number of the epoch fixed from it (R55, R171). -/
  loadedAt : Nat := 0
  remapBpn : Option Nat := none
  deriving DecidableEq, Repr

end Sys2Proof.Machine
end

