-- ==== Sys2Proof/Machine/StLoop.lean ====
section
/-! DEFINITION. State of the LOOP island (chapter 9), the PWM pairs and trip inputs (chapter 10) and the Loupe (chapter 10, R165 to
R167). Q1.15, ACC40 and limiter values are integers in the units of their rules. -/

namespace Sys2Proof.Machine

/-- Dynamic state of one BIQUAD section (R296). -/
structure SecSt where
  x1 : Int := 0
  x2 : Int := 0
  y1 : Int := 0
  y2 : Int := 0
  z : Int := 0
  deriving DecidableEq, Repr

/-- The dynamic state of a channel's law and limiter (R294 to R297, R300). -/
structure LawSt where
  secs : Tab SecSt := []
  xh : Tab Int := []
  zi : Tab Int := []
  r : Int := 0
  v : Int := 0
  deriving DecidableEq, Repr

/-- A sample between its instant and its latch: the instant, the codes of its five selectors' AIN and the PIN counts latched (R287). -/
structure Sampling where
  at_ : Nat := 0
  codes : List Nat := []
  counts : List Nat := []
  deriving DecidableEq, Repr

/-- One loop channel. -/
structure LoopChan where
  /-- A start is due at the next sample instant (R300); the limiter's r is to be set from LIM_INIT. -/
  startDue : Bool := false
  initDue : Bool := false
  first : Bool := false
  sampling : Option Sampling := none
  law : LawSt := {}
  /-- The OUTER register, its value before the last write and the tick of that write. -/
  outer : Int := 0
  outerOld : Int := 0
  outerAt : Nat := 0
  /-- Pulse counts latched last and at the first sample, by PIN (R291, R292). -/
  pinLast : Tab Nat := []
  pinRef : Option (Nat × Nat) := none
  /-- Unsettled samples left (R301). -/
  settleLeft : Nat := 0
  /-- Values routed last. -/
  out0 : Int := 0
  out1 : Int := 0
  deriving DecidableEq, Repr

/-- The running LOOP_TEST (R307, R308). -/
structure LoopTest where
  job : Nat := 0
  chan : Nat := 0
  kind : Nat := 0
  point : Nat := 0
  amp : Int := 0
  len : Nat := 0
  hold : Nat := 0
  decim : Nat := 0
  capA : Nat := 0
  capB : Nat := 0
  delay : Nat := 0
  order : Nat := 0
  df : Nat := 0
  /-- Test samples done, entries written, CHIRP phase and increment, PRBS register and its last bit. -/
  n : Nat := 0
  entries : Nat := 0
  phi : Nat := 0
  f : Nat := 0
  prbs : Nat := 0
  bit : Bool := false
  deriving DecidableEq, Repr

structure LoopSt where
  chans : Tab LoopChan := []
  /-- Filtered levels of the lines A and B of each pulse input (R291). -/
  pinA : Tab Bool := []
  pinB : Tab Bool := []
  /-- The test table and the capture ring (R306, R308). -/
  table : Tab Nat := []
  tablePoison : List Nat := []
  capture : Tab Word := []
  test : Option LoopTest := none
  /-- The LOOP island is out of service (R43, Table 5.4). -/
  down : Bool := false
  deriving DecidableEq, Repr

/-- One PWM pair (R318 to R327): its reference and the MODE and dead time of its period, a turn-on due (the high side or not, and
its tick), pads in high impedance, the last period start, the compare stage before its last write and the tick of that write, and a
self-test passed. -/
structure PwmPair where
  href : Bool := false
  center : Bool := false
  dt : Nat := 0
  due : Option (Bool × Nat) := none
  hiz : Bool := false
  start : Option Nat := none
  stageOld : Nat := 0
  stageAt : Nat := 0
  resume : Bool := false
  deriving DecidableEq, Repr

structure PwmSt where
  pairs : Tab PwmPair := []
  /-- Tick at which each trip input became active (R328). -/
  tripSince : Tab Nat := []
  deriving DecidableEq, Repr

/-- The Loupe beside its registers (DESIGN CHOICE, assumption 125). -/
structure LoupeSt where
  /-- The first half of a feed has been written (R341). -/
  feedHalf : Bool := false
  /-- A power-on reset has completed since the alive line was lost (R333). -/
  resetSince : Bool := false
  /-- The response the SPI port shifts out in the next frame, and whether the last frame was ignored (R165, R167). -/
  spiOffset : Nat := 0
  spiData : Word := 0
  spiBad : Bool := false
  /-- The supplies that drive the PWM and Loupe balls are good (R657). -/
  vioSafe : Bool := true
  deriving DecidableEq, Repr

end Sys2Proof.Machine
end

