-- ==== Sys2Proof/Machine/StPower.lean ====
section
/-! DEFINITION. State of the Power Manager (chapter 17), the Touch and Key Unit (chapter 18), the boot (chapter 19) and the test port
(chapter 20). -/

namespace Sys2Proof.Machine

/-- The Power Manager beside its registers. -/
structure PowerSt where
  /-- An entry in progress, to this state (R559). -/
  entering : Option Nat := none
  /-- The tick of the scheduled exit (R563). -/
  wakeAt : Option Nat := none
  /-- An exit in progress, and whether it is one from PS2. -/
  exiting : Bool := false
  fromPs2 : Bool := false
  /-- The resume commit runs (R570); PWR_EN has fallen for PS4 and every island but the PMU is held in reset. -/
  resuming : Bool := false
  off : Bool := false
  /-- Every island but LOUPE, TKU and PMU is held in reset until the device has cooled (R574). -/
  hot : Bool := false
  /-- The last multiple of 800 000 ticks at which SPEED was adjusted (R573). -/
  adjusted : Option Nat := none
  /-- The WAKE# pin is asserted (R568). -/
  wakePin : Bool := false
  deriving DecidableEq, Repr

/-- A key or the dock contact (R585 to R588, R599): consecutive strobes that differ, the strobe of its PRESSED change, LONG emitted, repeats. -/
structure KeySt where
  pressed : Bool := false
  count : Nat := 0
  since : Nat := 0
  long : Bool := false
  repeats : Nat := 0
  deriving DecidableEq, Repr

/-- A touch channel (R590 to R594): the strobe from which it acquires, the target that differs and for how many scans, scans at or below
−NEG_TH, scans at the ends of the range, and the strobe from which it has been in TOUCH or PROX. -/
structure TouchSt where
  acquire : Option Nat := none
  target : Nat := 0
  count : Nat := 0
  neg : Nat := 0
  ends : Nat := 0
  since : Nat := 0
  deriving DecidableEq, Repr

/-- A CC pair (R596, R597): while UNATTACHED the lines that are not OPEN and for how many strobes; while ATTACHED the strobes with both OPEN,
the new CURRENT and for how many strobes. -/
structure CcSt where
  lines : Nat := 0
  count : Nat := 0
  opens : Nat := 0
  cur : Nat := 0
  curCount : Nat := 0
  deriving DecidableEq, Repr

structure TkuSt where
  /-- Configuration words in force by offset: those of the registers at the last strobe (R606). -/
  cfg : Tab Word := []
  /-- Strobes counted, and the tick of the last. -/
  strobes : Nat := 0
  lastStrobe : Option Nat := none
  keys : Tab KeySt := []
  touch : Tab TouchSt := []
  /-- Scans in a row that would change WET (R592). -/
  wet : Nat := 0
  cc : Tab CcSt := []
  /-- The strobe at which the running scan started. -/
  scan : Option Nat := none
  fifo : List (BitVec 64) := []
  /-- TKU_EVT_HI of each partition (R601). -/
  evtHi : Tab Word := []
  deriving DecidableEq, Repr

/-- A boot copy (Table 19.1). -/
structure BootCopy where
  version : Nat := 0
  storeBase : Nat := 0
  storeSize : Nat := 0
  resumeObj : Nat := 0
  vendor : Nat := 0
  subsys : Nat := 0
  /-- Preload records: page, offset, value. -/
  preloads : List (Nat × Nat × Word) := []
  deriving DecidableEq, Repr

structure BootSt where
  /-- PWR_EN, CORE_PG, and that the Loupe has completed a power-on reset (R613, R614). -/
  pwrEn : Bool := false
  corePg : Bool := false
  loupeUp : Bool := false
  /-- The boot copy of this boot (R619). -/
  copy : Option BootCopy := none
  /-- This boot follows power-on (R623), and RST_KEEP has been written since. -/
  powerOn : Bool := true
  keepWritten : Bool := false
  deriving DecidableEq, Repr

/-- The test port (R652 to R655) (DESIGN CHOICE, assumption 126). -/
structure JtagSt where
  /-- The instruction register; IDCODE after a reset of the port. -/
  ir : Nat := 0x01
  /-- The boundary-scan cells as last updated, and what the data register last captured. -/
  cells : BitVec 309 := 0
  captured : Nat := 0
  /-- HOLD_RESET is in force. -/
  hold : Bool := false
  /-- The last completed read of the DAP and its ERROR bit. -/
  dapData : BitVec 64 := 0
  dapError : Bool := false
  /-- The page buffer: its flash page, the bytes written to it, and that its last 8 bytes have been written. -/
  pageAt : Option Nat := none
  pageBytes : Tab Byte := []
  pageFull : Bool := false
  deriving DecidableEq, Repr

end Sys2Proof.Machine
end

