-- ==== Sys2Proof/Machine/StQueue.lean ====
section
/-! DEFINITION. State of the pages (chapter 3), the queue engine (chapter 4), the partitions (chapter 5) and the host side. -/

namespace Sys2Proof.Machine

/-- What is fixed in the die: the variant (R1), the die identifier, the stepping (Table 3.6) and the root hash (R655)
(DESIGN CHOICE, assumption 15). -/
structure Fuses where
  variant : Variant := .el480
  uid : BitVec 64 := 0
  stepping : Nat := 0x10
  rootHash : BitVec 256 := 0
  deriving DecidableEq, Repr

/-- What a register page holds beside its registers: a soft reset in progress and its start, a soft reset that was abandoned (R84),
a self-test and its outcome (R155), and host writes held for a latch phase, the oldest first (R19). -/
structure PageSt where
  resetSince : Option Nat := none
  abandoned : Bool := false
  testing : Bool := false
  joining : Bool := false
  heldWrites : List (Nat × Word) := []
  deriving DecidableEq, Repr

/-- Queue pair states (Table 4.7). -/
inductive QpState where
  | free | active | disabled | draining | error
  deriving DecidableEq, Repr

/-- How the entries of a broken chain are still being taken (R111). -/
inductive ChainSt where
  /-- No chain is open. -/
  | closed
  /-- The chain of a job is open, with so many entries. -/
  | opened (job count : Nat)
  /-- A job is broken and takes every entry up to the next LAST = 1. -/
  | broken (job : Nat)
  deriving DecidableEq, Repr

/-- One queue pair (chapter 4). -/
structure Qp where
  state : QpState := .free
  owner : Nat := 0
  sqHead : Nat := 0
  sqDb : Nat := 0
  /-- Entries the ring still covers from SQ_HEAD on; none once pushes have carried SQ_HEAD past SQ_DB (assumption 7). -/
  ringLeft : Nat := 0
  cqTail : Nat := 0
  cqHead : Nat := 0
  phase : Bool := true
  full : Bool := false
  pushes : Tab (BitVec 512) := []
  /-- Entries a ring read has brought, the next to admit first, with their poison (R662). -/
  staged : List (BitVec 512 × Bool) := []
  chain : ChainSt := .closed
  /-- Jobs folded since the last CQ entry, and whether one of them asked for an interrupt (R117, R121). -/
  folded : Nat := 0
  foldedIrq : Bool := false
  /-- Signalling entries counted and the tick of the first (R121). -/
  sigCount : Nat := 0
  sigSince : Option Nat := none
  /-- The QP_DELETE job in progress, its mode (true ABORT) and the CQ entries discarded (R128). -/
  deleting : Option (Nat × Bool) := none
  discarded : Nat := 0
  deriving DecidableEq, Repr

/-- Which job-table entry a job holds (R105). -/
inductive JobKind where
  | admin | general | shared
  deriving DecidableEq, Repr

/-- How far a job has come (R113). -/
inductive JobPhase where
  /-- Its LAST entry is not admitted. -/
  | chaining
  /-- Admitted and not yet handed over. -/
  | waiting
  /-- Handed to its block. -/
  | started
  /-- The block is done, or the job ends without a block. -/
  | done
  deriving DecidableEq, Repr

/-- One entry of the job table. -/
structure Job where
  part : Nat := 0
  qp : Nat := 0
  seq : Nat := 0
  tag : Nat := 0
  opcode : Nat := 0
  entries : List (BitVec 512) := []
  kind : JobKind := .shared
  phase : JobPhase := .chaining
  fence : Bool := false
  irq : Bool := false
  cmplBatch : Bool := false
  batchMode : Bool := false
  status : Nat := 0
  result : Nat := 0
  /-- A cancel request has been delivered (R116). -/
  cancel : Bool := false
  /-- Its step in the block: 0 not begun; 100 and above, the block cannot stop it before its own boundary. And a number the block
  keeps for it. -/
  stage : Nat := 0
  aux : Nat := 0
  /-- Host data read for it (R516). -/
  data : Option ReadResult := none
  /-- It was handed to its block, and the tick. -/
  hadStarted : Bool := false
  startTick : Nat := 0
  /-- Its CQ entry is formed and held for Bus Master Enable (R146, R174). -/
  held : Bool := false
  deriving DecidableEq, Repr

structure QeSt where
  qps : Tab Qp := []
  jobs : Tab Job := []
  nextSeq : Nat := 0
  /-- Round robin (R104): the partition and the queue pair of the last turn, and the whole jobs left in it. -/
  rrPart : Nat := 0
  rrQp : Tab Nat := []
  turnQp : Option Nat := none
  turnLeft : Nat := 0
  /-- QE_INTERNAL has stopped the engine (R145). -/
  dead : Bool := false
  deriving DecidableEq, Repr

/-- A partition reset in progress (R151): its start, whether it may write to host memory, the jobs ended, entries discarded, and
the PART_RESET jobs to complete with it. -/
structure PartReset where
  since : Nat := 0
  flr : Bool := false
  ended : Nat := 0
  discarded : Nat := 0
  owner : Option Nat := none
  joined : List Nat := []
  deriving DecidableEq, Repr

structure PartSt where
  resets : Tab PartReset := []
  deriving DecidableEq, Repr

/-- What the device sends to the host, in order (R122): memory writes, CQ entries, MSI-X messages of QE (`msix`) and of the other
pages (`pageMsix`, sent by HIU, Table 1.1), AER reports (R149), reads of host memory and BAR read completions. -/
inductive HostTx where
  | write (fn addr : Nat) (data : List Byte)
  | cq (fn qp idx : Nat) (entry : BitVec 128)
  | msix (fn vector : Nat)
  | pageMsix (fn vector : Nat)
  | aer (fn : Nat) (kind : AerKind)
  | readData (part : Nat) (data : Word)
  | read (fn addr len : Nat)
  deriving DecidableEq, Repr

structure HostSt where
  /-- Sent to the host, the newest first. -/
  out : List HostTx := []
  /-- Held while Bus Master Enable is 0, by function, the oldest first (R146). -/
  held : Tab (List HostTx) := []
  /-- Bus Master Enable by function (R146); reset value 0 (R94). -/
  bme : Tab Bool := []
  perst : Bool := true
  linkUp : Bool := false
  /-- Configuration requests get retry status until HOST_READY (R622). -/
  crs : Bool := true
  deriving DecidableEq, Repr

end Sys2Proof.Machine
end

