-- ==== Sys2Proof/Machine/StRtu.lean ====
section
/-! DEFINITION. State of the Retention Unit (chapter 16): the flash, the store as the current superblock describes it, and a commit or
format in progress. -/

namespace Sys2Proof.Machine

/-- An object of the store: its index entry (Table 16.4) and the sectors its MAP record names (R541). -/
structure StoreObj where
  cls : Nat := 0
  owner : Nat := 0
  len : Nat := 0
  mapAt : Nat := 0
  crc : Nat := 0
  data : List Nat := []
  deriving DecidableEq, Repr

/-- The store that the current superblock describes (Table 16.3), with the bad list held in RTU memory (R549). -/
structure Store where
  seq : Nat := 0
  indexAt : Nat := 0
  cursor : Nat := 0
  bad : List Nat := []
  objs : Tab StoreObj := []
  deriving DecidableEq, Repr

/-- A flash command whose status is awaited (R538), by flash sector. -/
inductive FlashCmd where
  | erase (sector : Nat)
  | program (sector : Nat) (bytes : List Byte)
  deriving DecidableEq, Repr

/-- An operation of a commit (Table 16.6); the resume commit carries its bytes itself (R570). -/
structure RetOp where
  del : Bool := false
  obj : Nat := 0
  cls : Nat := 0
  addr : Nat := 0
  len : Nat := 0
  bytes : Option (List Byte) := none
  deriving DecidableEq, Repr

/-- A commit or format that has begun writing (R548, R552). -/
structure RtuWork where
  /-- Its job and the job's place in the order of admission; none for the resume commit. -/
  job : Option (Nat × Nat) := none
  part : Nat := 0
  format : Bool := false
  /-- SEQ n + 1. -/
  seq : Nat := 0
  /-- Sectors to erase before anything is programmed (step 2). -/
  clear : List Nat := []
  /-- WRITE operations whose records are not all written, and the source bytes of the first of them; `asked` once they are being read. -/
  ops : List RetOp := []
  bytes : Option (List Byte) := none
  asked : Bool := false
  /-- DATA sectors of the first operation programmed so far, in REC_NO order. -/
  recs : List Nat := []
  /-- Sectors allocated and not yet used, in order, and all that were allocated; the new cursor (R543). -/
  pool : List Nat := []
  taken : List Nat := []
  cursor : Nat := 0
  /-- Sectors that failed (Table 16.7). -/
  fails : Nat := 0
  /-- The index it writes, and its sector once programmed. -/
  objs : Tab StoreObj := []
  indexAt : Option Nat := none
  deriving DecidableEq, Repr

structure RtuSt where
  /-- The flash, by 4 KiB sector, each without its trailing bytes 0xFF; it keeps its contents through every reset. -/
  flash : Tab (List Byte) := []
  /-- The store in use; none unless STATE is READY. -/
  store : Option Store := none
  /-- Free sectors of the store area that are erased (R542). -/
  erased : Tab Unit := []
  /-- The flash command in progress. -/
  cmd : Option FlashCmd := none
  work : Option RtuWork := none
  /-- Status of the resume commit once it has ended (R569, R570). -/
  resumed : Option Nat := none
  deriving DecidableEq, Repr

end Sys2Proof.Machine
end

