-- ==== Sys2Proof/Machine/StServe.lean ====
section
/-! DEFINITION. State of serving (chapters 13 and 14): model slots, the Request Table, KV pages, the prefix index, mask tables and
the scheduler. -/

namespace Sys2Proof.Machine

/-- What one request does in a step (R436, R463). -/
inductive StepPart where
  /-- A chunk of so many prompt positions (R495). -/
  | prefill (chunk : Nat)
  /-- One decode position, and at most so many proposals (R494). -/
  | decode (drafts : Nat)
  | summary
  deriving DecidableEq, Repr

/-- A model slot beside its registers. -/
structure MSlot where
  header : BitVec 1024 := 0
  base : Nat := 0
  length : Nat := 0
  /-- The MODEL_UNLOAD in progress: its job, and the requests ended. -/
  unload : Option (Nat × Nat) := none
  /-- CLUSTERS, DRAFT_BIND and the policy words in force (R435, R496, R502). -/
  clusters : Nat := 0
  bind : Word := 0
  pol0 : Word := 0x400
  pol1 : Word := 0xC0201000
  pol2 : Word := 0x200
  /-- The step that runs: its requests and what each does. -/
  step : Option (List (Nat × StepPart)) := none
  /-- The multiple of 800 000 ticks up to which ρ is updated (R496). -/
  rhoMark : Nat := 0
  /-- F of each partition, and the partitions that had candidates at the previous BATCH (R493). -/
  fair : Tab Nat := []
  hadCands : List Nat := []
  deriving DecidableEq, Repr

/-- Request states (Table 13.9). -/
inductive ReqState where
  | free | queued | prefill | decode | pausing | paused | resuming
  deriving DecidableEq, Repr

/-- How far a resumption has come (R464). -/
inductive Restore where
  /-- Its reservation waits. -/
  | waiting
  /-- The pause image is being read. -/
  | image
  /-- The appended tokens are being read. -/
  | tokens
  deriving DecidableEq, Repr

/-- One RQT entry (Tables 13.10 and 14.3), its row of the KV page table, and what the device keeps beside it. -/
structure Req where
  state : ReqState := .free
  slot : Nat := 0
  flushed : Bool := false
  part : Nat := 0
  account : Nat := 0
  priority : Nat := 0
  shared : Bool := false
  summaryHeld : Bool := false
  cancelPending : Bool := false
  pausePending : Bool := false
  ringFull : Bool := false
  noInsert : Bool := false
  gen : Nat := 0
  qp : Nat := 0
  seed : BitVec 64 := 0
  promptLen : Nat := 0
  maxNew : Nat := 0
  seqLen : Nat := 0
  outCount : Nat := 0
  reserved : Nat := 0
  reused : Nat := 0
  deadline : Nat := 0
  ringBase : Nat := 0
  ringLog2 : Nat := 0
  tag : Nat := 0
  runOut : Nat := 0
  ttlEnd : Nat := 0
  pauseAddr : Nat := 0
  admitStep : Nat := 0
  maskKind : Nat := 0
  maskTable : Nat := 0
  late : Bool := false
  dfaState : Nat := 0
  draftMax : Nat := 0
  draftCtx : Bool := false
  temp : Nat := 0x3F800000
  topK : Nat := 0
  stop0 : Nat := 0
  stop0En : Bool := false
  stop1 : Nat := 0
  stop1En : Bool := false
  gain : Nat := 0
  wait : Nat := 0
  proposed : Nat := 0
  accepted : Nat := 0
  /-- The row: KV pages by logical page. -/
  row : Tab Nat := []
  /-- The job that holds the request, and the jobs that wait for it. -/
  job : Option Nat := none
  cancelJobs : List Nat := []
  pauseJob : Option Nat := none
  pauseSummary : Bool := false
  pauseTtl : Nat := 0
  /-- Its place in the order of admission. -/
  seq : Nat := 0
  /-- The lookup is done (R451); its reservation is supplied (R447). -/
  looked : Bool := false
  granted : Bool := false
  /-- Entries written to the ring of the current run, and HEAD as last read (R457). -/
  written : Nat := 0
  head : Nat := 0
  /-- Tokens by position from `tokBase` on: the prompt, and every token produced. -/
  toks : List Nat := []
  tokBase : Nat := 0
  /-- Matched nodes while it is QUEUED, and the copies that wait: logical page, block, source page and source block (R452). -/
  path : List Nat := []
  copies : List (Nat × Nat × Nat × Nat) := []
  /-- The cursor (none: the root), its depth, and that the request inserts nothing more (R453). -/
  cursor : Option Nat := none
  depth : Nat := 0
  inserts : Bool := true
  restore : Restore := .waiting
  /-- Pages of its pause image. -/
  imagePages : Nat := 0
  appended : Nat := 0
  /-- The summary is formed and waits for its two pages (R463). -/
  summary : Option (List Byte) := none
  /-- Its WAIT has reached BUDGET_WAIT (R492). -/
  spent : Bool := false
  deriving DecidableEq, Repr

/-- A KV page that has holders (Table 13.11); `nodes` of them are prefix nodes; charged names the request and the partition. -/
structure KvPage where
  ref : Nat := 0
  nodes : Nat := 0
  charged : Option (Nat × Nat) := none
  deriving DecidableEq, Repr

/-- A VALID prefix node (Table 13.12); none is 0xF_FFFF. -/
structure PfxNode where
  tokens : List Nat := []
  parent : Option Nat := none
  scope : Nat := 0
  slot : Nat := 0
  child : Option Nat := none
  sibling : Option Nat := none
  page : Nat := 0
  block : Nat := 0
  lastUse : Nat := 0
  deriving DecidableEq, Repr

/-- A chain of free numbers below a limit: those returned, the head first, then every number from `fresh` on. -/
structure Chain where
  back : List Nat := []
  fresh : Nat := 0
  deriving DecidableEq, Repr

/-- A mask table beside MASK_TBL (Table 14.6). -/
structure MaskTable where
  base : Nat := 0
  length : Nat := 0
  vocab : Nat := 0
  nstates : Nat := 0
  nclasses : Nat := 0
  start : Nat := 0
  deriving DecidableEq, Repr

structure ServeSt where
  slots : Tab MSlot := []
  reqs : Tab Req := []
  /-- Generation numbers of the RQT entries (R441). -/
  gens : Tab Nat := []
  pages : Tab KvPage := []
  pageChain : Chain := {}
  nodes : Tab PfxNode := []
  nodeChain : Chain := {}
  /-- The first child of the root of each slot and scope, at 32 × slot + scope. -/
  roots : Tab Nat := []
  masks : Tab MaskTable := []
  /-- Running number of admissions. -/
  nextSeq : Nat := 0
  /-- The next multiple of 800 000 000 ticks at which balances are refilled (R492). -/
  refillAt : Nat := 800000000
  deriving DecidableEq, Repr

end Sys2Proof.Machine
end

