-- ==== Sys2Proof/Machine/StSolver.lean ====
section
/-! DEFINITION. State of the solver sequencer (chapter 8). -/

namespace Sys2Proof.Machine

/-- A resident solver image (R245): its header, MEAS map and weights, what its body gives the tiles, and its length. -/
structure Simg where
  header : BitVec 1024 := 0
  meas : List DWord := []
  weights : List Nat := []
  body : SimgBody := {}
  bytes : Nat := 0
  deriving DecidableEq, Repr

/-- Run-ahead verdicts (R271). -/
inductive Verdict where
  | commit | corrected | squash
  deriving DecidableEq, Repr

/-- One solve (Table 8.8): its start tick S and base-period number; host deltas taken; the measurement, none where poisoned or late; the
verdict where run-ahead applies; cold start, REFACTOR, iterations, caps, checks done, best merit, conditions, the code of a halt. -/
structure Solve where
  start : Nat := 0
  bpn : Nat := 0
  host : List (Nat × Nat) := []
  pairs : Nat := 0
  meas : Option (List Nat) := none
  tested : Bool := false
  verdict : Option Verdict := none
  sent : Bool := false
  cold : Bool := false
  refactor : Bool := false
  iter : Nat := 0
  capC : Nat := 0
  checks : Nat := 0
  best : Option Nat := none
  conds : Nat := 0
  haltCode : Nat := 0
  stopped : Bool := false
  finished : Bool := false
  deriving DecidableEq, Repr

/-- A delta job whose pairs are staged, and the tick of its staging (R254, R280). -/
structure StagedDelta where
  job : Nat
  pairs : List (Nat × Nat)
  tick : Nat
  deriving DecidableEq, Repr

structure SolvSlot where
  image : Option Simg := none
  /-- The parameter vector, FX45 containers by index (R253). -/
  params : Tab Nat := []
  guess : Option (List DWord) := none
  staged : List StagedDelta := []
  /-- A warm start follows (R256), RUNAHEAD_EN as it was when the last output was stored (R270), the factor holds regularised pivots
  (R262), and FORCE_COLD waits for this slot (R278). -/
  warm : Bool := false
  ahead : Bool := false
  pivoted : Bool := false
  forceCold : Bool := false
  solve : Option Solve := none
  /-- The SOLV_RUN job of an ON_DEMAND window, and whether its solve has ended. -/
  run : Option Nat := none
  ranOut : Bool := false
  /-- Ticks at which the sequencer last read the CHECK, FINAL, PRED and MEAS reports. -/
  readAt : Tab Nat := []
  deriving DecidableEq, Repr

structure SolverSt where
  slots : Tab SolvSlot := []
  /-- Report registers by number (R252), with the tick each value arrived. -/
  reports : Tab (Datum × Nat) := []
  deriving DecidableEq, Repr

end Sys2Proof.Machine
end

