-- ==== Sys2Proof/Machine/StTime.lean ====
section
/-! DEFINITION. State of Plan time: the PTB, the grid of base periods, the aligned copies, crossings, release registers, the
plan epoch and the sync pins (chapter 2), and the memory calendar's phase on each channel (chapter 1). -/

namespace Sys2Proof.Machine

/-- A Plan island's aligned copy of the PTB (R40 to R43, R68). It reads as the PTB plus `off`; `misses` counts the markers
missing in a row; `marked` is the start tick of the last marker taken, and `missed` that of the last one found missing. -/
structure Copy where
  off : Int := 0
  valid : Bool := false
  misses : Nat := 0
  marked : Option Nat := none
  missed : Option Nat := none
  deriving DecidableEq, Repr

/-- A release register (R48 to R51): the delivery pending for its next release, the one held for the release after, and the
output stage. -/
structure RelReg where
  pending : Option Datum := none
  late : Option Datum := none
  missed : Bool := false
  output : Datum := {}
  /-- What the last release reported: 0, RELEASE_MISSED, POISON or TILE_LOST (R47, R50, R158). -/
  status : Nat := 0
  deriving DecidableEq, Repr

/-- A memory channel's place in its calendar (R22, R23): a guard has begun and its window has not ended, the window, the banks are
precharged, the Serve and System jobs that wait, and the refresh, RFM and ZQ commands issued. -/
structure ChanPhase where
  closed : Bool := false
  win : Nat := 0
  precharged : Bool := true
  waiting : List Nat := []
  refreshes : Nat := 0
  deriving DecidableEq, Repr

/-- What the pending plan epoch brings and its base-period number (R55, R249); `joined` says that a remap takes effect with it (R69). -/
structure EpochPlan where
  load : Option PlanImage := none
  stop : Bool := false
  joined : Bool := false
  bpn : Nat := 0
  deriving DecidableEq, Repr

/-- The mirror window before its first refresh and after a chip reset: all ones in the first and last word of each page (R627). -/
def mirrorReset : Tab DWord := (List.range 16).flatMap fun k => [(512 * k, BitVec.allOnes 64), (512 * k + 511, BitVec.allOnes 64)]

structure TimeSt where
  /-- PTB master counter (R36). -/
  ptb : BitVec 64 := 0
  /-- The Plan reference is locked and the PTB counts. -/
  running : Bool := false
  /-- Origin O of the grid and base period P (R37). -/
  origin : Nat := 0
  period : Nat := 20000
  /-- Plan cycle H (R38) and the base-period number of the plan epoch. -/
  cycleH : Nat := 1
  epochBpn : Nat := 0
  /-- Tick of the plan epoch. -/
  epochTick : Nat := 0
  /-- Base-period number (R37) and the tick of the current base-period start. -/
  bpn : BitVec 64 := 0
  startTick : Nat := 0
  /-- High halves captured per partition by PTB_NOW_LO and PTB_BPN_LO (R39, R93). -/
  capNow : Tab Word := []
  capBpn : Tab Word := []
  /-- Aligned copies by island: 0 to 67 FACET, 68 LOOP, 69 CLNK slot engine. -/
  copies : Tab Copy := []
  /-- Landing buffers of scheduled crossings by 4096·page + index, and the data consumers took last (R46, R47). -/
  landing : Tab Datum := []
  consumed : Tab Datum := []
  /-- Deliveries in flight to release registers, the oldest first (R48, R49). -/
  crossings : List (Nat × Datum) := []
  /-- Release registers (R48): channel c at c, CLNK transmit word at 64 + 32·port + 2·buffer + word, mirror word at 8192 + index. -/
  releases : Tab RelReg := []
  /-- The plan in force and what the next plan epoch brings (R55, R56). -/
  plan : Option PlanImage := none
  next : Option EpochPlan := none
  /-- Memory calendar phase by channel. -/
  chans : Tab ChanPhase := []
  /-- Sync pins (R64): pulses sent on PTB_SYNC_OUT, the tick of the last pulse seen, a follower that checks pulses, and the epoch
  tick a pulse has placed. -/
  syncOut : Nat := 0
  syncSeen : Option Nat := none
  syncCheck : Bool := false
  syncEpoch : Option Nat := none
  /-- The mirror window's 64-bit words by index (R21) and its last refresh. -/
  mirror : Tab DWord := mirrorReset
  /-- Logical positions whose tile is lost and whose remap has not taken effect (R158). -/
  lost : List Nat := []
  deriving DecidableEq, Repr

end Sys2Proof.Machine
end

