-- ==== Sys2Proof/Machine/State.lean ====
section
/-! DEFINITION. The state of the block, its faults and refusals, and its state at reset. -/

namespace Sys2Proof.Machine

/-- Reasons the machine stops. -/
inductive Fault where
  /-- No meaning of this model raises it: the block has no architectural fault of its own; every error of the spec is state
  (a capture, a status code, a stop). Kept so that the type is closed and named; safe. -/
  | unreachable
  deriving DecidableEq, Repr

/-- Reasons a command has no meaning here. -/
inductive Refusal where
  /-- Raised by `exec` for a command whose meaning is not written; safe, since nothing is claimed of it. -/
  | notModelled (mnemonic : String)
  deriving DecidableEq, Repr

/-- The whole block. -/
structure State where
  /-- What the die's fuses fix (R75, R76, R655). -/
  fuses : Fuses := {}
  /-- Registers by BAR0 byte address; an unlisted one reads its reset value (assumption 2). -/
  regs : Tab Word := []
  /-- Plan time (chapter 2). -/
  time : TimeSt := {}
  /-- What each register page holds beside its registers, by page number. -/
  pages : Tab PageSt := []
  /-- The queue engine (chapter 4). -/
  qe : QeSt := {}
  /-- Partition resets in progress (chapter 5). -/
  part : PartSt := {}
  /-- The host side. -/
  host : HostSt := {}
  /-- The LOOP island (chapter 9). -/
  loop : LoopSt := {}
  /-- PWM pairs and trip inputs (chapter 10). -/
  pwm : PwmSt := {}
  /-- The Loupe safety island (chapter 10). -/
  loupe : LoupeSt := {}
  /-- Memory and ECC (chapter 15). -/
  mem : MemSt := {}
  /-- The Facet tiles and the mesh (chapter 6). -/
  facet : FacetSt := {}
  /-- The solver sequencer (chapter 8). -/
  solver : SolverSt := {}
  /-- CriskaLink: ports and mailbox sessions (chapters 11 and 12). -/
  clnk : ClnkSt := {}
  /-- Serving: requests, pages, prefixes, masks and fairness (chapters 13 and 14). -/
  serve : ServeSt := {}
  /-- The Retention Unit and its flash (chapter 16). -/
  rtu : RtuSt := {}
  /-- The Power Manager (chapter 17). -/
  power : PowerSt := {}
  /-- The Touch and Key Unit (chapter 18). -/
  tku : TkuSt := {}
  /-- Power-on and boot (chapter 19). -/
  boot : BootSt := {}
  /-- The test port (chapter 20). -/
  jtag : JtagSt := {}
  /-- A running number that free values of the spec are drawn by (assumption 1); the model's own field. -/
  freeCtr : Nat := 0
  /-- The commands that wait, first in, first out. -/
  pending : List Instr := []
  deriving DecidableEq, Repr

/-- The machine right after a power-on reset: every register at its reset value (an empty table of changed registers) and every
piece of hidden state at the value of its declaration above (assumptions 2 and 3). -/
def State.reset : State := {}

end Sys2Proof.Machine
end

