-- ==== Sys2Proof/Machine/Mem.lean ====
section
/-! DEFINITION. ECC words (R507 to R513): the code, the classes of a stored word, and reads and writes of one word of a memory. -/

namespace Sys2Proof.Machine

/-- How many of the low eight bits are set. -/
def weight8 (n : Nat) : Nat := ((List.range 8).filter n.testBit).length

/-- The columns of the data bits (R507). -/
def eccColumns : List Nat :=
  (List.range 256).filter (fun n => weight8 n = 3) ++ [0x1F, 0x2F, 0x37, 0x3B, 0x3D, 0x3E, 0x4F, 0x57]

/-- The check byte of a data word (R507). -/
def eccCheck (d : DWord) : Byte :=
  BitVec.ofNat 8 ((List.range 64).foldl (fun a i => if d.getLsbD i then a ^^^ eccColumns.getD i 0 else a) 0)

/-- Syndrome classes (Table 15.3). -/
inductive EccClass where
  | clean
  | ceData (bit : Nat)
  | ceCheck
  | poison
  | ue
  deriving DecidableEq, Repr

/-- The class of a syndrome (Table 15.3). -/
def syndromeClass (s : Nat) : EccClass :=
  if s = 0 then .clean
  else if s = 0xFF then .poison
  else if eccColumns.contains s then .ceData (eccColumns.idxOf s)
  else if weight8 s = 1 then .ceCheck
  else .ue

/-- The class of a stored word (R508). -/
def eccClass (d : DWord) (c : Byte) : EccClass := syndromeClass (c ^^^ eccCheck d).toNat

/-- A word with one data bit inverted. -/
def flipBit (d : DWord) (i : Nat) : DWord := d ^^^ BitVec.ofNat 64 (2 ^ i)

/-- The data that a read delivers where it delivers data (R508). -/
def eccData (d : DWord) : EccClass → DWord
  | .ceData b => flipBit d b
  | _ => d

namespace Mem

/-- The stored data and check byte of a word. -/
def raw (m : Mem) (w : Nat) : DWord × Byte :=
  (BitVec.ofNat 64 (leNat ((List.range 8).map fun k => Tab.get m.bytes 0 (8 * w + k))), Tab.get m.checks 0 w)

/-- Store data and a check byte. -/
def putRaw (m : Mem) (w : Nat) (d : DWord) (c : Byte) : Mem :=
  { bytes := (List.range 8).foldl (fun (t : Tab Byte) k => t.set 0 (8 * w + k) (BitVec.ofNat 8 (d.toNat / 256 ^ k))) m.bytes,
    checks := Tab.set m.checks 0 w c }

/-- Store a word with a correct check byte, or with the poison mark (R509, R512). -/
def put (m : Mem) (w : Nat) (d : DWord) (poison : Bool) : Mem :=
  m.putRaw w d (if poison then eccCheck d ^^^ 0xFF else eccCheck d)

/-- The class of a word. -/
def cls (m : Mem) (w : Nat) : EccClass := eccClass (m.raw w).1 (m.raw w).2

/-- The memory is in its one form: keys rise and no cell is 0. -/
def wf (m : Mem) : Bool :=
  Tab.rising m.bytes && Tab.rising m.checks && m.bytes.all (fun c => c.2 != 0) && m.checks.all (fun c => c.2 != 0)

/-- Invert stored bits of a word: data bits 0 to 63, check bits 64 to 71. -/
def upset (m : Mem) (w bit : Nat) : Mem :=
  let (d, c) := m.raw w
  if bit < 64 then m.putRaw w (flipBit d bit) c else m.putRaw w d (c ^^^ BitVec.ofNat 8 (2 ^ (bit - 64)))

end Mem

/-- The syndrome that inverted bits of a CLEAN word give: data bits 0 to 63, check bits 64 to 71. -/
def upsetSyndrome (bits : List Nat) : Nat :=
  bits.foldl (fun a b => a ^^^ (if b < 64 then eccColumns.getD b 0 else 2 ^ (b - 64) % 256)) 0

end Sys2Proof.Machine
end

