-- ==== Sys2Proof/Machine/RegMap.lean ====
section
/-! DEFINITION. The register map of BAR0: one row per register of each page class, with its fields, their access
codes (R8, Table 0.7), the values a field accepts (R10) and the register's reset value, from the register and field tables of
chapters 3 to 18. A field handle `F.<REGISTER>_<FIELD>` gives the place of a field inside its page. -/

namespace Sys2Proof.Machine

-- page class HDR
abbrev F.PG_ID_CLASS : Fld := ⟨0x000, 16, 16⟩
abbrev F.PG_ID_INSTANCE : Fld := ⟨0x000, 8, 8⟩
abbrev F.PG_ID_LAYOUT : Fld := ⟨0x000, 0, 8⟩
abbrev F.PG_CAP_PRESENT : Fld := ⟨0x004, 31, 1⟩
abbrev F.PG_CAP_BLOCK : Fld := ⟨0x004, 0, 31⟩
abbrev F.PG_CTRL_ENABLE : Fld := ⟨0x008, 0, 1⟩
abbrev F.PG_CTRL_QUIESCE : Fld := ⟨0x008, 1, 1⟩
abbrev F.PG_CTRL_IN_SERVICE : Fld := ⟨0x008, 2, 1⟩
abbrev F.PG_CTRL_SOFT_RESET : Fld := ⟨0x008, 3, 1⟩
abbrev F.PG_STAT_ACTIVE : Fld := ⟨0x00C, 0, 1⟩
abbrev F.PG_STAT_QUIESCED : Fld := ⟨0x00C, 1, 1⟩
abbrev F.PG_STAT_FAULT : Fld := ⟨0x00C, 2, 1⟩
abbrev F.PG_STAT_OUT_OF_SERVICE : Fld := ⟨0x00C, 3, 1⟩
abbrev F.PG_STAT_RESET_BUSY : Fld := ⟨0x00C, 4, 1⟩
abbrev F.PG_IRQ_STAT_BLOCK : Fld := ⟨0x010, 0, 31⟩
abbrev F.PG_IRQ_STAT_ERR : Fld := ⟨0x010, 31, 1⟩
abbrev F.PG_IRQ_EN : Fld := ⟨0x014, 0, 32⟩
abbrev F.PG_IRQ_FORCE : Fld := ⟨0x018, 0, 32⟩
abbrev F.PG_OWNER_OWNER : Fld := ⟨0x01C, 0, 4⟩
abbrev F.PG_OWNER_READERS : Fld := ⟨0x01C, 16, 16⟩
abbrev F.PG_ERR0_CODE : Fld := ⟨0x020, 0, 16⟩
abbrev F.PG_ERR0_PARTITION : Fld := ⟨0x020, 16, 4⟩
abbrev F.PG_ERR0_MORE : Fld := ⟨0x020, 30, 1⟩
abbrev F.PG_ERR0_VALID : Fld := ⟨0x020, 31, 1⟩
abbrev F.PG_ERR1 : Fld := ⟨0x024, 0, 32⟩
abbrev F.PG_ERR2 : Fld := ⟨0x028, 0, 32⟩
abbrev F.PG_ERR3 : Fld := ⟨0x02C, 0, 32⟩
abbrev F.PG_ERR_CLR_CLR : Fld := ⟨0x030, 0, 1⟩
abbrev F.PG_LOCK_LOCK : Fld := ⟨0x034, 0, 1⟩
abbrev F.PG_SCRATCH : Fld := ⟨0x038, 0, 32⟩

-- page class CHIP
abbrev F.CHIP_PART_PART : Fld := ⟨0x040, 0, 16⟩
abbrev F.CHIP_PART_STEPPING : Fld := ⟨0x040, 16, 8⟩
abbrev F.CHIP_CAP0 : Fld := ⟨0x044, 0, 32⟩
abbrev F.CHIP_CAP1 : Fld := ⟨0x048, 0, 32⟩
abbrev F.CHIP_SRAM_COUNTED_KIB : Fld := ⟨0x04C, 0, 16⟩
abbrev F.CHIP_SRAM_SPARE_KIB : Fld := ⟨0x04C, 16, 16⟩
abbrev F.CHIP_UID_LO : Fld := ⟨0x050, 0, 32⟩
abbrev F.CHIP_UID_HI : Fld := ⟨0x054, 0, 32⟩
abbrev F.CHIP_BOOT_STAGE : Fld := ⟨0x058, 0, 8⟩
abbrev F.CHIP_BOOT_IMAGE_VERIFIED : Fld := ⟨0x058, 8, 1⟩
abbrev F.CHIP_BOOT_FAIL_A : Fld := ⟨0x058, 16, 8⟩
abbrev F.CHIP_BOOT_FAIL_B : Fld := ⟨0x058, 24, 8⟩

-- page class RST
abbrev F.RST_CTRL_CHIP_EN : Fld := ⟨0x040, 0, 1⟩
abbrev F.RST_CTRL_PART_EN : Fld := ⟨0x040, 1, 1⟩
abbrev F.RST_CHIP_GO : Fld := ⟨0x044, 0, 1⟩
abbrev F.RST_CHIP_KEY : Fld := ⟨0x044, 16, 16⟩
abbrev F.RST_PART_PARTITION : Fld := ⟨0x048, 0, 4⟩
abbrev F.RST_PART_GO : Fld := ⟨0x048, 8, 1⟩
abbrev F.RST_PART_KEY : Fld := ⟨0x048, 16, 16⟩
abbrev F.RST_PART_BUSY_BUSY : Fld := ⟨0x04C, 0, 16⟩
abbrev F.RST_CAUSE_CAUSE : Fld := ⟨0x050, 0, 4⟩
abbrev F.RST_COUNT_COUNT : Fld := ⟨0x054, 0, 16⟩
abbrev F.RST_KEEP_VALUE : Fld := ⟨0x058, 0, 32⟩

-- page class PTB
abbrev F.PTB_NOW_LO_TICKS : Fld := ⟨0x040, 0, 32⟩
abbrev F.PTB_NOW_HI_TICKS : Fld := ⟨0x044, 0, 32⟩
abbrev F.PTB_PERIOD_P : Fld := ⟨0x048, 0, 20⟩
abbrev F.PTB_CYCLE_H : Fld := ⟨0x04C, 0, 9⟩
abbrev F.PTB_CYCLE_J : Fld := ⟨0x04C, 16, 9⟩
abbrev F.PTB_BPN_LO_NUM : Fld := ⟨0x050, 0, 32⟩
abbrev F.PTB_BPN_HI_NUM : Fld := ⟨0x054, 0, 32⟩
abbrev F.PTB_ORIGIN_LO : Fld := ⟨0x058, 0, 32⟩
abbrev F.PTB_ORIGIN_HI : Fld := ⟨0x05C, 0, 32⟩
abbrev F.PTB_SYNC_CTRL_MODE : Fld := ⟨0x060, 0, 2⟩
abbrev F.PTB_SYNC_CTRL_BOARD_DELAY : Fld := ⟨0x060, 8, 8⟩
abbrev F.PTB_SYNC_STAT_ALIGNED : Fld := ⟨0x064, 0, 1⟩
abbrev F.PTB_SYNC_STAT_PULSE_SEEN : Fld := ⟨0x064, 1, 1⟩
abbrev F.PTB_SYNC_STAT_OFFSET : Fld := ⟨0x064, 8, 8⟩
abbrev F.PTB_SYNC_STAT_LOST_COUNT : Fld := ⟨0x064, 16, 16⟩

-- page class QEG
abbrev F.QE_INFO_JOB_TABLE : Fld := ⟨0x040, 0, 10⟩
abbrev F.QE_INFO_MAX_CHAIN : Fld := ⟨0x040, 10, 6⟩
abbrev F.QE_INFO_QP_COUNT : Fld := ⟨0x040, 16, 12⟩
abbrev F.QE_INFO_PUSH_SLOTS : Fld := ⟨0x040, 28, 3⟩
abbrev F.QE_JOBS_IN_USE : Fld := ⟨0x044, 0, 10⟩
abbrev F.QE_JOBS_SHARED : Fld := ⟨0x044, 16, 10⟩
abbrev F.QE_MSIX_PER_FUNCTION : Fld := ⟨0x048, 0, 8⟩
abbrev F.QE_PJOB_JOB_MAX : Fld := ⟨0x080, 0, 10⟩
abbrev F.QE_PJOB_JOB_RSV : Fld := ⟨0x080, 16, 10⟩
abbrev F.QE_PQP_QP_MAX : Fld := ⟨0x0C0, 0, 12⟩
abbrev F.QE_PQP_QP_USED : Fld := ⟨0x0C0, 16, 12⟩
abbrev F.QE_PINF_JOBS : Fld := ⟨0x100, 0, 10⟩

-- page class QP
abbrev F.QP_CTRL_EN : Fld := ⟨0x000, 0, 1⟩
abbrev F.QP_CTRL_IRQ_EN : Fld := ⟨0x000, 1, 1⟩
abbrev F.QP_CTRL_IRQ_ALL : Fld := ⟨0x000, 2, 1⟩
abbrev F.QP_CTRL_BATCH : Fld := ⟨0x000, 3, 1⟩
abbrev F.QP_STAT_STATE : Fld := ⟨0x004, 0, 3⟩
abbrev F.QP_STAT_CQ_FULL : Fld := ⟨0x004, 3, 1⟩
abbrev F.QP_STAT_CHAIN_OPEN : Fld := ⟨0x004, 4, 1⟩
abbrev F.QP_STAT_PUSH_HELD : Fld := ⟨0x004, 5, 4⟩
abbrev F.QP_STAT_PART : Fld := ⟨0x004, 16, 4⟩
abbrev F.QP_SQ_BASE_LO : Fld := ⟨0x008, 0, 32⟩
abbrev F.QP_SQ_BASE_HI : Fld := ⟨0x00C, 0, 32⟩
abbrev F.QP_CQ_BASE_LO : Fld := ⟨0x010, 0, 32⟩
abbrev F.QP_CQ_BASE_HI : Fld := ⟨0x014, 0, 32⟩
abbrev F.QP_SIZE_SQ_LOG2 : Fld := ⟨0x018, 0, 4⟩
abbrev F.QP_SIZE_CQ_LOG2 : Fld := ⟨0x018, 8, 4⟩
abbrev F.QP_IRQ_VECTOR : Fld := ⟨0x01C, 0, 7⟩
abbrev F.QP_IRQ_COUNT : Fld := ⟨0x01C, 8, 8⟩
abbrev F.QP_IRQ_TIME : Fld := ⟨0x01C, 16, 12⟩
abbrev F.QP_SQ_HEAD_INDEX : Fld := ⟨0x020, 0, 12⟩
abbrev F.QP_SQ_DB_INDEX : Fld := ⟨0x024, 0, 12⟩
abbrev F.QP_CQ_TAIL_INDEX : Fld := ⟨0x028, 0, 12⟩
abbrev F.QP_CQ_TAIL_PHASE : Fld := ⟨0x028, 12, 1⟩
abbrev F.QP_CQ_HEAD_INDEX : Fld := ⟨0x02C, 0, 12⟩
abbrev F.QP_INFLIGHT_JOBS : Fld := ⟨0x030, 0, 10⟩
abbrev F.QP_BURST_COUNT : Fld := ⟨0x034, 0, 4⟩
abbrev F.QP_COUNTS_PUSH_DROPPED : Fld := ⟨0x038, 0, 16⟩
abbrev F.QP_COUNTS_DOORBELL_ERR : Fld := ⟨0x038, 16, 16⟩

-- page class PART
abbrev F.PART_STAT_STATE : Fld := ⟨0x040, 0, 2⟩
abbrev F.PART_STAT_BME : Fld := ⟨0x040, 2, 1⟩
abbrev F.PART_STAT_RESETS : Fld := ⟨0x040, 16, 16⟩
abbrev F.PART_VEC_PLAN : Fld := ⟨0x044, 0, 7⟩
abbrev F.PART_VEC_SERVE : Fld := ⟨0x044, 8, 7⟩
abbrev F.PART_VEC_SYSTEM : Fld := ⟨0x044, 16, 7⟩
abbrev F.PART_FOREIGN_COUNT : Fld := ⟨0x048, 0, 16⟩
abbrev F.PART_FOREIGN_LAST : Fld := ⟨0x048, 16, 14⟩
abbrev F.PART_FOREIGN_BAR2 : Fld := ⟨0x048, 30, 1⟩
abbrev F.PART_CLR_FOREIGN : Fld := ⟨0x04C, 0, 1⟩
abbrev F.PART_CLR_LOG : Fld := ⟨0x04C, 1, 1⟩
abbrev F.PART_SHARE0_KV_PAGES : Fld := ⟨0x050, 0, 21⟩
abbrev F.PART_SHARE1_RQT_MAX : Fld := ⟨0x054, 0, 11⟩
abbrev F.PART_SHARE1_WEIGHT : Fld := ⟨0x054, 16, 8⟩
abbrev F.PART_KV_USE_PAGES : Fld := ⟨0x058, 0, 21⟩
abbrev F.PART_RQT_USE_ENTRIES : Fld := ⟨0x05C, 0, 11⟩
abbrev F.PART_MBX_LO_CH : Fld := ⟨0x060, 0, 32⟩
abbrev F.PART_MBX_HI_CH : Fld := ⟨0x064, 0, 32⟩
abbrev F.PART_SLOTS_SLOTS : Fld := ⟨0x068, 0, 8⟩
abbrev F.PART_LOG_STAT_NEXT : Fld := ⟨0x06C, 0, 4⟩
abbrev F.PART_LOG_STAT_HELD : Fld := ⟨0x06C, 4, 5⟩
abbrev F.PART_LOG_STAT_LOST : Fld := ⟨0x06C, 16, 16⟩
abbrev F.PART_LOG : Fld := ⟨0x100, 0, 32⟩
abbrev F.PART_MEM : Fld := ⟨0x200, 0, 32⟩

-- page class FT
abbrev F.FT_ROLE_ROLE : Fld := ⟨0x040, 0, 2⟩
abbrev F.FT_ROLE_POSITION : Fld := ⟨0x040, 8, 6⟩
abbrev F.FT_RUN_RUNNING : Fld := ⟨0x044, 0, 1⟩
abbrev F.FT_RUN_HALTED : Fld := ⟨0x044, 1, 1⟩
abbrev F.FT_RUN_SPEC_DEPTH : Fld := ⟨0x044, 2, 2⟩
abbrev F.FT_RUN_OVERFLOW : Fld := ⟨0x044, 4, 1⟩
abbrev F.FT_RUN_PC : Fld := ⟨0x044, 16, 16⟩
abbrev F.FT_SPEC_CNT_COMMITS : Fld := ⟨0x048, 0, 16⟩
abbrev F.FT_SPEC_CNT_SQUASHES : Fld := ⟨0x048, 16, 16⟩
abbrev F.FT_EVT_CNT_CLASH : Fld := ⟨0x04C, 0, 16⟩
abbrev F.FT_EVT_CNT_OVERRUN : Fld := ⟨0x04C, 16, 16⟩
abbrev F.FT_PROG_TRAYS : Fld := ⟨0x050, 0, 11⟩
abbrev F.FT_SSB_WORDS : Fld := ⟨0x054, 0, 10⟩
abbrev F.FT_DIAG_ADDR_WORD : Fld := ⟨0x060, 3, 15⟩
abbrev F.FT_DIAG_LO_DATA : Fld := ⟨0x064, 0, 32⟩
abbrev F.FT_DIAG_HI_DATA : Fld := ⟨0x068, 0, 32⟩

-- page class FMAP
abbrev F.FMAP_INFO_COLUMNS : Fld := ⟨0x040, 0, 4⟩
abbrev F.FMAP_INFO_ROWS : Fld := ⟨0x040, 4, 4⟩
abbrev F.FMAP_INFO_EXPOSED : Fld := ⟨0x040, 8, 8⟩
abbrev F.FMAP_INFO_SPARES_BUILT : Fld := ⟨0x040, 16, 8⟩
abbrev F.FMAP_STAT_SPARES : Fld := ⟨0x044, 0, 8⟩
abbrev F.FMAP_STAT_REMAP_PENDING : Fld := ⟨0x044, 8, 1⟩
abbrev F.FMAP_STAT_EPOCH_FIXED : Fld := ⟨0x044, 9, 1⟩
abbrev F.FMAP_EPOCH_LO : Fld := ⟨0x048, 0, 32⟩
abbrev F.FMAP_EPOCH_HI : Fld := ⟨0x04C, 0, 32⟩
abbrev F.FMAP_VACANT_LO : Fld := ⟨0x050, 0, 32⟩
abbrev F.FMAP_VACANT_HI : Fld := ⟨0x054, 0, 32⟩
abbrev F.FMAP_REMAPS_COUNT : Fld := ⟨0x058, 0, 16⟩
abbrev F.FMAP_MAP : Fld := ⟨0x080, 0, 32⟩
abbrev F.FMAP_SPARE : Fld := ⟨0x0C0, 0, 32⟩

-- page class SOLV
abbrev F.SOLV_INFO_SLOTS : Fld := ⟨0x040, 0, 6⟩
abbrev F.SOLV_INFO_MAX_TILES : Fld := ⟨0x040, 6, 5⟩
abbrev F.SOLV_INFO_DELTA_MAX : Fld := ⟨0x040, 16, 13⟩
abbrev F.SOLV_CTRL_RUNAHEAD_EN : Fld := ⟨0x044, 0, 1⟩
abbrev F.SOLV_CTRL_FORCE_COLD : Fld := ⟨0x044, 1, 1⟩
abbrev F.SOLV_CTRL_IRQ_COND : Fld := ⟨0x044, 16, 16⟩
abbrev F.SOLV_PLAN_IN_FORCE : Fld := ⟨0x048, 0, 1⟩
abbrev F.SOLV_PLAN_PENDING : Fld := ⟨0x048, 1, 1⟩
abbrev F.SOLV_PLAN_STOP : Fld := ⟨0x048, 2, 1⟩
abbrev F.SOLV_PLAN_PLAN_ID : Fld := ⟨0x048, 16, 16⟩
abbrev F.SOLV_LOAD_STATUS : Fld := ⟨0x04C, 0, 16⟩
abbrev F.SOLV_LOAD_CHECK : Fld := ⟨0x04C, 16, 8⟩
abbrev F.SOLV_EPOCH_LO : Fld := ⟨0x050, 0, 32⟩
abbrev F.SOLV_EPOCH_HI : Fld := ⟨0x054, 0, 32⟩
abbrev F.SOLV_SPEC_CNT_KEPT : Fld := ⟨0x058, 0, 16⟩
abbrev F.SOLV_SPEC_CNT_SQUASHED : Fld := ⟨0x058, 16, 16⟩
abbrev F.SOLV_FB_CNT_FALLBACK : Fld := ⟨0x05C, 0, 16⟩
abbrev F.SOLV_FB_CNT_COLD : Fld := ⟨0x05C, 16, 16⟩
abbrev F.SOLV_SLOT0_STATE : Fld := ⟨0x100, 0, 2⟩
abbrev F.SOLV_SLOT0_METHOD : Fld := ⟨0x100, 2, 4⟩
abbrev F.SOLV_SLOT0_RUNAHEAD : Fld := ⟨0x100, 6, 2⟩
abbrev F.SOLV_SLOT0_LEAD : Fld := ⟨0x100, 8, 6⟩
abbrev F.SOLV_SLOT1_STAT : Fld := ⟨0x104, 0, 32⟩
abbrev F.SOLV_SLOT2_ITER : Fld := ⟨0x108, 0, 16⟩
abbrev F.SOLV_SLOT2_DELTAS : Fld := ⟨0x108, 16, 16⟩
abbrev F.SOLV_SLOT3_BPN : Fld := ⟨0x10C, 0, 32⟩

-- page class LOOPG
abbrev F.LOOP_INFO_CHANNELS : Fld := ⟨0x040, 0, 6⟩
abbrev F.LOOP_INFO_AIN : Fld := ⟨0x040, 8, 6⟩
abbrev F.LOOP_INFO_PIN : Fld := ⟨0x040, 16, 4⟩
abbrev F.LOOP_INFO_ADC_BLOCKS : Fld := ⟨0x040, 20, 2⟩
abbrev F.LOOP_INFO_CAP_LOG2 : Fld := ⟨0x040, 24, 5⟩
abbrev F.LOOP_TEST_STAT_RUNNING : Fld := ⟨0x044, 0, 1⟩
abbrev F.LOOP_TEST_STAT_CHANNEL : Fld := ⟨0x044, 8, 5⟩
abbrev F.LOOP_TEST_DONE_SAMPLES : Fld := ⟨0x048, 0, 17⟩
abbrev F.LOOP_CAP_STAT_ENTRIES : Fld := ⟨0x04C, 0, 17⟩
abbrev F.LOOP_TABLE_LEN_ENTRIES : Fld := ⟨0x050, 0, 13⟩
abbrev F.LOOP_PIN_ERR_QUAD : Fld := ⟨0x054, 0, 8⟩
abbrev F.LOOP_PIN_CFG_MODE : Fld := ⟨0x060, 0, 2⟩
abbrev F.LOOP_PIN_CFG_INVERT : Fld := ⟨0x060, 2, 1⟩
abbrev F.LOOP_PIN_CFG_FILTER : Fld := ⟨0x060, 8, 8⟩
abbrev F.LOOP_PIN_COUNT_COUNT : Fld := ⟨0x080, 0, 32⟩
abbrev F.LOOP_AIN_CODE : Fld := ⟨0x100, 0, 12⟩

-- page class CH
abbrev F.CH_CFG_LAW : Fld := ⟨0x040, 0, 2⟩
abbrev F.CH_CFG_NSEC : Fld := ⟨0x040, 2, 3⟩
abbrev F.CH_CFG_SP_SRC : Fld := ⟨0x040, 8, 3⟩
abbrev F.CH_CFG_LIM_MODE : Fld := ⟨0x040, 12, 2⟩
abbrev F.CH_CFG_LIM_INIT : Fld := ⟨0x040, 14, 2⟩
abbrev F.CH_CFG_TRIP_ACTION : Fld := ⟨0x040, 16, 1⟩
abbrev F.CH_CFG_SETTLE_SAFE : Fld := ⟨0x040, 17, 1⟩
abbrev F.CH_CFG_BUS_EN : Fld := ⟨0x040, 18, 1⟩
abbrev F.CH_CFG_ACC_FF : Fld := ⟨0x040, 19, 2⟩
abbrev F.CH_SFDIM_NS : Fld := ⟨0x044, 0, 3⟩
abbrev F.CH_SFDIM_NU : Fld := ⟨0x044, 3, 2⟩
abbrev F.CH_SFDIM_NY : Fld := ⟨0x044, 5, 2⟩
abbrev F.CH_SFDIM_NI : Fld := ⟨0x044, 7, 2⟩
abbrev F.CH_CTRL_HOLD : Fld := ⟨0x048, 0, 1⟩
abbrev F.CH_STAT_STATE : Fld := ⟨0x04C, 0, 2⟩
abbrev F.CH_STAT_UNSETTLED : Fld := ⟨0x04C, 2, 1⟩
abbrev F.CH_STAT_BLOCKED : Fld := ⟨0x04C, 3, 1⟩
abbrev F.CH_STAT_WRITE_PENDING : Fld := ⟨0x04C, 4, 1⟩
abbrev F.CH_STAT_SAMPLES : Fld := ⟨0x04C, 16, 16⟩
abbrev F.CH_FLAGS_FLAGS : Fld := ⟨0x050, 0, 8⟩
abbrev F.CH_FLAG_EN : Fld := ⟨0x054, 0, 8⟩
abbrev F.CH_SP_SP : Fld := ⟨0x058, 0, 16⟩
abbrev F.CH_FFIN_FFIN : Fld := ⟨0x05C, 0, 16⟩
abbrev F.CH_MAG_LO : Fld := ⟨0x060, 0, 16⟩
abbrev F.CH_MAG_HI : Fld := ⟨0x060, 16, 16⟩
abbrev F.CH_RATE_RATE : Fld := ⟨0x064, 0, 32⟩
abbrev F.CH_ACC_ACC : Fld := ⟨0x068, 0, 32⟩
abbrev F.CH_OUTLIM_LO : Fld := ⟨0x06C, 0, 16⟩
abbrev F.CH_OUTLIM_HI : Fld := ⟨0x06C, 16, 16⟩
abbrev F.CH_SAFE_SAFE0 : Fld := ⟨0x070, 0, 16⟩
abbrev F.CH_SAFE_SAFE1 : Fld := ⟨0x070, 16, 16⟩
abbrev F.CH_FF_KA : Fld := ⟨0x074, 0, 16⟩
abbrev F.CH_FF_KA_SHIFT : Fld := ⟨0x074, 16, 4⟩
abbrev F.CH_FF_BUS_SHIFT : Fld := ⟨0x074, 20, 2⟩
abbrev F.CH_FF_ACC_SCALE : Fld := ⟨0x074, 24, 5⟩
abbrev F.CH_VBUS_VNOM : Fld := ⟨0x078, 0, 16⟩
abbrev F.CH_VBUS_VMIN : Fld := ⟨0x078, 16, 16⟩
abbrev F.CH_SETTLE_N : Fld := ⟨0x07C, 0, 12⟩
abbrev F.CH_SCALE_OFFSET : Fld := ⟨0x080, 0, 16⟩
abbrev F.CH_SCALE_GAIN : Fld := ⟨0x080, 16, 16⟩
abbrev F.CH_SCALE_SH_SH0 : Fld := ⟨0x094, 0, 4⟩
abbrev F.CH_SCALE_SH_SH1 : Fld := ⟨0x094, 4, 4⟩
abbrev F.CH_SCALE_SH_SH2 : Fld := ⟨0x094, 8, 4⟩
abbrev F.CH_SCALE_SH_SH3 : Fld := ⟨0x094, 12, 4⟩
abbrev F.CH_SCALE_SH_SH4 : Fld := ⟨0x094, 16, 4⟩
abbrev F.CH_SCHED_PHASE : Fld := ⟨0x0A0, 0, 20⟩
abbrev F.CH_SCHED_DIV : Fld := ⟨0x0A0, 20, 3⟩
abbrev F.CH_SCHED_OUTER : Fld := ⟨0x0A0, 23, 1⟩
abbrev F.CH_NEST_INNER : Fld := ⟨0x0A4, 0, 5⟩
abbrev F.CH_NEST_N : Fld := ⟨0x0A4, 8, 9⟩
abbrev F.CH_NEST_LEAD : Fld := ⟨0x0A4, 17, 15⟩
abbrev F.CH_INPUTS : Fld := ⟨0x0A8, 0, 30⟩
abbrev F.CH_ROUTE_ROUTE0 : Fld := ⟨0x0AC, 0, 8⟩
abbrev F.CH_ROUTE_ROUTE1 : Fld := ⟨0x0AC, 8, 8⟩
abbrev F.CH_SEC_W0_B0 : Fld := ⟨0x100, 0, 16⟩
abbrev F.CH_SEC_W0_B1 : Fld := ⟨0x100, 16, 16⟩
abbrev F.CH_SEC_W1_B2 : Fld := ⟨0x104, 0, 16⟩
abbrev F.CH_SEC_W1_A1 : Fld := ⟨0x104, 16, 16⟩
abbrev F.CH_SEC_W2_A2 : Fld := ⟨0x108, 0, 16⟩
abbrev F.CH_SEC_W2_SHIFT : Fld := ⟨0x108, 16, 4⟩
abbrev F.CH_SEC_W2_KIND : Fld := ⟨0x108, 20, 2⟩
abbrev F.CH_SEC_W2_CLAMP_EN : Fld := ⟨0x108, 22, 1⟩
abbrev F.CH_SEC_W3_CLO : Fld := ⟨0x10C, 0, 16⟩
abbrev F.CH_SEC_W3_CHI : Fld := ⟨0x10C, 16, 16⟩
abbrev F.CH_SF : Fld := ⟨0x200, 0, 32⟩
abbrev F.CH_SF_NR_NR0 : Fld := ⟨0x2C0, 0, 16⟩
abbrev F.CH_SF_NR_NR1 : Fld := ⟨0x2C0, 16, 16⟩
abbrev F.CH_SF_KI_KI0 : Fld := ⟨0x2C4, 0, 16⟩
abbrev F.CH_SF_KI_KI1 : Fld := ⟨0x2C4, 16, 16⟩
abbrev F.CH_SF_SHIFT_SC : Fld := ⟨0x2C8, 0, 4⟩
abbrev F.CH_SF_SHIFT_SL : Fld := ⟨0x2C8, 4, 4⟩
abbrev F.CH_SF_SHIFT_SK : Fld := ⟨0x2C8, 8, 4⟩
abbrev F.CH_SF_SHIFT_SI : Fld := ⟨0x2C8, 12, 4⟩
abbrev F.CH_SF_SHIFT_SP : Fld := ⟨0x2C8, 16, 4⟩
abbrev F.CH_SF_ICLAMP_ILO : Fld := ⟨0x2CC, 0, 16⟩
abbrev F.CH_SF_ICLAMP_IHI : Fld := ⟨0x2CC, 16, 16⟩
abbrev F.CH_ST : Fld := ⟨0x300, 0, 32⟩

-- page class PWM
abbrev F.PWM_CFG_MODE : Fld := ⟨0x040, 0, 1⟩
abbrev F.PWM_CFG_MAP : Fld := ⟨0x040, 1, 1⟩
abbrev F.PWM_CFG_INV_H : Fld := ⟨0x040, 2, 1⟩
abbrev F.PWM_CFG_INV_L : Fld := ⟨0x040, 3, 1⟩
abbrev F.PWM_CFG_DT : Fld := ⟨0x040, 4, 10⟩
abbrev F.PWM_STAT_STATE : Fld := ⟨0x044, 0, 3⟩
abbrev F.PWM_STAT_HOLD : Fld := ⟨0x044, 4, 5⟩
abbrev F.PWM_STAT_H_ON : Fld := ⟨0x044, 9, 1⟩
abbrev F.PWM_STAT_L_ON : Fld := ⟨0x044, 10, 1⟩
abbrev F.PWM_CMP_VALUE : Fld := ⟨0x048, 0, 16⟩
abbrev F.PWM_STAGE_VALUE : Fld := ⟨0x04C, 0, 16⟩
abbrev F.PWM_ACTIVE_CMP : Fld := ⟨0x050, 0, 19⟩
abbrev F.PWM_PER_PER : Fld := ⟨0x054, 0, 19⟩
abbrev F.PWM_SCHED_PHASE : Fld := ⟨0x058, 0, 20⟩
abbrev F.PWM_SCHED_DIV : Fld := ⟨0x058, 20, 3⟩
abbrev F.PWM_SCHED_ROUTED : Fld := ⟨0x058, 23, 1⟩
abbrev F.PWM_SCHED_CHANNEL : Fld := ⟨0x058, 24, 5⟩
abbrev F.PWM_TS_STATE : Fld := ⟨0x05C, 0, 2⟩
abbrev F.PWM_COUNT_TRIPS : Fld := ⟨0x060, 0, 16⟩

-- page class TRIP
abbrev F.TRIP_STAT_RAW : Fld := ⟨0x040, 0, 8⟩
abbrev F.TRIP_STAT_LATCH : Fld := ⟨0x040, 8, 8⟩
abbrev F.TRIP_STAT_DEAD : Fld := ⟨0x040, 16, 1⟩
abbrev F.TRIP_CLR_CLR : Fld := ⟨0x044, 0, 8⟩
abbrev F.TRIP_FORCE_SET : Fld := ⟨0x048, 0, 8⟩
abbrev F.TRIP_CFG_ENABLE : Fld := ⟨0x080, 0, 1⟩
abbrev F.TRIP_CFG_POL : Fld := ⟨0x080, 1, 1⟩
abbrev F.TRIP_CFG_FILTER : Fld := ⟨0x080, 2, 6⟩
abbrev F.TRIP_CFG_PAIRS : Fld := ⟨0x080, 16, 16⟩
abbrev F.TRIP_COUNT_COUNT : Fld := ⟨0x0A0, 0, 16⟩

-- page class LOUPE
abbrev F.LOUPE_INFO : Fld := ⟨0x040, 0, 32⟩
abbrev F.LOUPE_STOP_GROUPS : Fld := ⟨0x044, 0, 8⟩
abbrev F.LOUPE_STOP_WHOLE : Fld := ⟨0x044, 8, 1⟩
abbrev F.LOUPE_STOP_SPI_HOLD : Fld := ⟨0x044, 9, 1⟩
abbrev F.LOUPE_STOP_LOCKED : Fld := ⟨0x044, 10, 1⟩
abbrev F.LOUPE_STOP_WDT : Fld := ⟨0x044, 11, 2⟩
abbrev F.LOUPE_LEVEL_SRC : Fld := ⟨0x048, 0, 16⟩
abbrev F.LOUPE_CAUSE_SRC : Fld := ⟨0x04C, 0, 22⟩
abbrev F.LOUPE_FIRST_SOURCE : Fld := ⟨0x050, 0, 5⟩
abbrev F.LOUPE_FIRST_GROUPS : Fld := ⟨0x050, 8, 8⟩
abbrev F.LOUPE_FIRST_WHOLE : Fld := ⟨0x050, 16, 1⟩
abbrev F.LOUPE_FIRST_VALID : Fld := ⟨0x050, 31, 1⟩
abbrev F.LOUPE_FIRST_LO : Fld := ⟨0x054, 0, 32⟩
abbrev F.LOUPE_FIRST_HI : Fld := ⟨0x058, 0, 32⟩
abbrev F.LOUPE_CLEAR_GROUPS : Fld := ⟨0x05C, 0, 8⟩
abbrev F.LOUPE_CLEAR_RECOVER : Fld := ⟨0x05C, 8, 1⟩
abbrev F.LOUPE_CLEAR_KEY : Fld := ⟨0x05C, 16, 16⟩
abbrev F.LOUPE_REQ_GROUPS : Fld := ⟨0x060, 0, 8⟩
abbrev F.LOUPE_REQ_WHOLE : Fld := ⟨0x060, 8, 1⟩
abbrev F.LOUPE_REQ_KEY : Fld := ⟨0x060, 16, 16⟩
abbrev F.LOUPE_CAUSE_CLR_CLR : Fld := ⟨0x064, 0, 1⟩
abbrev F.LOUPE_WDT_FEED_VALUE : Fld := ⟨0x068, 0, 32⟩
abbrev F.LOUPE_WDT_STAT_STATE : Fld := ⟨0x06C, 0, 2⟩
abbrev F.LOUPE_WDT_STAT_ELAPSED : Fld := ⟨0x06C, 16, 10⟩
abbrev F.LOUPE_RECOVER_STAT_CLIFF : Fld := ⟨0x070, 0, 8⟩
abbrev F.LOUPE_RECOVER_STAT_BUMP : Fld := ⟨0x070, 8, 1⟩
abbrev F.LOUPE_RECOVER_STAT_LEFT : Fld := ⟨0x070, 16, 10⟩
abbrev F.LOUPE_CLIFF_THRESH : Fld := ⟨0x080, 0, 10⟩
abbrev F.LOUPE_CLIFF_HYST : Fld := ⟨0x080, 10, 3⟩
abbrev F.LOUPE_CLIFF_DIR : Fld := ⟨0x080, 13, 1⟩
abbrev F.LOUPE_CLIFF_ENABLE : Fld := ⟨0x080, 14, 1⟩
abbrev F.LOUPE_CLIFF_RECOVERABLE : Fld := ⟨0x080, 15, 1⟩
abbrev F.LOUPE_CLIFF_GROUPS : Fld := ⟨0x080, 16, 8⟩
abbrev F.LOUPE_CLIFF_WHOLE : Fld := ⟨0x080, 24, 1⟩
abbrev F.LOUPE_DROP_QUAL : Fld := ⟨0x0A0, 0, 8⟩
abbrev F.LOUPE_DROP_POL : Fld := ⟨0x0A0, 8, 1⟩
abbrev F.LOUPE_DROP_ENABLE : Fld := ⟨0x0A0, 9, 1⟩
abbrev F.LOUPE_DROP_GROUPS : Fld := ⟨0x0A0, 16, 8⟩
abbrev F.LOUPE_DROP_WHOLE : Fld := ⟨0x0A0, 24, 1⟩
abbrev F.LOUPE_BUMP_QUAL : Fld := ⟨0x0B0, 0, 8⟩
abbrev F.LOUPE_BUMP_POL : Fld := ⟨0x0B0, 8, 1⟩
abbrev F.LOUPE_BUMP_ENABLE : Fld := ⟨0x0B0, 9, 1⟩
abbrev F.LOUPE_BUMP_RECOVERABLE : Fld := ⟨0x0B0, 10, 1⟩
abbrev F.LOUPE_BUMP_GROUPS : Fld := ⟨0x0B0, 16, 8⟩
abbrev F.LOUPE_BUMP_WHOLE : Fld := ⟨0x0B0, 24, 1⟩
abbrev F.LOUPE_WDT_CFG_ENABLE : Fld := ⟨0x0B4, 0, 1⟩
abbrev F.LOUPE_WDT_CFG_TIMEOUT : Fld := ⟨0x0B4, 1, 10⟩
abbrev F.LOUPE_WDT_CFG_WIN_MIN : Fld := ⟨0x0B4, 11, 10⟩
abbrev F.LOUPE_WDT_CFG_GROUPS : Fld := ⟨0x0B4, 21, 8⟩
abbrev F.LOUPE_WDT_CFG_WHOLE : Fld := ⟨0x0B4, 29, 1⟩
abbrev F.LOUPE_RECOVER_CFG_MS : Fld := ⟨0x0B8, 0, 10⟩
abbrev F.LOUPE_PAIR_TS : Fld := ⟨0x0BC, 0, 32⟩
abbrev F.LOUPE_GROUP_PAIRS : Fld := ⟨0x0C0, 0, 16⟩
abbrev F.LOUPE_GROUP_PORTS : Fld := ⟨0x0C0, 16, 8⟩

-- page class CLNK
abbrev F.LNK_STAT_STATE : Fld := ⟨0x040, 0, 3⟩
abbrev F.LNK_STAT_CYC : Fld := ⟨0x040, 3, 2⟩
abbrev F.LNK_STAT_PRES : Fld := ⟨0x040, 5, 1⟩
abbrev F.LNK_STAT_SYNC : Fld := ⟨0x040, 6, 1⟩
abbrev F.LNK_STAT_HALTING : Fld := ⟨0x040, 7, 1⟩
abbrev F.LNK_STAT_REASON : Fld := ⟨0x040, 8, 4⟩
abbrev F.LNK_STAT_EPOCH : Fld := ⟨0x040, 16, 16⟩
abbrev F.LNK_CTRL_RUN_EN : Fld := ⟨0x044, 0, 1⟩
abbrev F.LNK_CTRL_RELINK : Fld := ⟨0x044, 1, 1⟩
abbrev F.LNK_LIMIT_HALT_MAX : Fld := ⟨0x048, 0, 16⟩
abbrev F.LNK_LIMIT_WATCH_MAX : Fld := ⟨0x048, 16, 16⟩
abbrev F.LNK_MISS_LIMIT : Fld := ⟨0x04C, 0, 8⟩
abbrev F.LNK_CAUSE_CAUSE : Fld := ⟨0x050, 0, 4⟩
abbrev F.LNK_CAUSE_EPOCH : Fld := ⟨0x050, 16, 16⟩
abbrev F.LNK_CAPS : Fld := ⟨0x080, 0, 32⟩
abbrev F.LNK_CNT_EVEN : Fld := ⟨0x0C0, 0, 16⟩
abbrev F.LNK_CNT_ODD : Fld := ⟨0x0C0, 16, 16⟩
abbrev F.LNK_SLOT : Fld := ⟨0x100, 0, 32⟩
abbrev F.LNK_RXST : Fld := ⟨0x200, 0, 32⟩
abbrev F.LNK_MBX_STATE_STATE : Fld := ⟨0x300, 0, 3⟩
abbrev F.LNK_MBX_STATE_SID : Fld := ⟨0x300, 8, 8⟩
abbrev F.LNK_MBX_STATE_W : Fld := ⟨0x300, 16, 5⟩
abbrev F.LNK_MBX_STATE_WIN : Fld := ⟨0x300, 24, 5⟩
abbrev F.LNK_MBX_TX_UNA : Fld := ⟨0x304, 0, 16⟩
abbrev F.LNK_MBX_TX_NXT : Fld := ⟨0x304, 16, 16⟩
abbrev F.LNK_MBX_RX_DLV : Fld := ⟨0x308, 0, 16⟩
abbrev F.LNK_MBX_RX_NXT : Fld := ⟨0x308, 16, 16⟩
abbrev F.LNK_MBX_CNT_RETX : Fld := ⟨0x30C, 0, 16⟩
abbrev F.LNK_MBX_CNT_MSGS : Fld := ⟨0x30C, 16, 16⟩
abbrev F.LNK_MBX_BKT_LEVEL : Fld := ⟨0x380, 0, 6⟩
abbrev F.LNK_MBX_BKT_PEAK : Fld := ⟨0x380, 16, 16⟩
abbrev F.LNK_MBX_WASTE : Fld := ⟨0x384, 0, 32⟩

-- page class CLNKG
abbrev F.GLNK_INFO_PORTS : Fld := ⟨0x040, 0, 4⟩
abbrev F.GLNK_INFO_MAJOR : Fld := ⟨0x040, 8, 8⟩
abbrev F.GLNK_INFO_PAYLOAD : Fld := ⟨0x040, 16, 9⟩
abbrev F.GLNK_PRES : Fld := ⟨0x044, 0, 8⟩
abbrev F.GLNK_UP : Fld := ⟨0x048, 0, 8⟩
abbrev F.GLNK_HALT_PORTS : Fld := ⟨0x04C, 0, 8⟩
abbrev F.GLNK_HALT_DEAD : Fld := ⟨0x04C, 8, 1⟩
abbrev F.GLNK_KEY_STAT_VALID : Fld := ⟨0x050, 0, 8⟩
abbrev F.GLNK_KEY : Fld := ⟨0x100, 0, 32⟩

-- page class SERVE
abbrev F.SERVE_INFO_CLUSTERS : Fld := ⟨0x040, 0, 5⟩
abbrev F.SERVE_INFO_CORES : Fld := ⟨0x040, 5, 7⟩
abbrev F.SERVE_INFO_SLOTS : Fld := ⟨0x040, 12, 4⟩
abbrev F.SERVE_INFO_RQT : Fld := ⟨0x040, 16, 11⟩
abbrev F.SERVE_CTRL_BALANCE : Fld := ⟨0x044, 0, 1⟩
abbrev F.SERVE_KV_BASE_LO : Fld := ⟨0x048, 0, 32⟩
abbrev F.SERVE_KV_BASE_HI : Fld := ⟨0x04C, 0, 32⟩
abbrev F.SERVE_KV_DESC_LO : Fld := ⟨0x050, 0, 32⟩
abbrev F.SERVE_KV_DESC_HI : Fld := ⟨0x054, 0, 32⟩
abbrev F.SERVE_PT_LO : Fld := ⟨0x058, 0, 32⟩
abbrev F.SERVE_PT_HI : Fld := ⟨0x05C, 0, 32⟩
abbrev F.SERVE_KV_PAGES_PAGES : Fld := ⟨0x060, 0, 20⟩
abbrev F.SERVE_KV_FREE_PAGES : Fld := ⟨0x064, 0, 20⟩
abbrev F.SERVE_KV_INDEXED_PAGES : Fld := ⟨0x068, 0, 20⟩
abbrev F.SERVE_SLOT_CFG_CLUSTERS : Fld := ⟨0x100, 0, 16⟩
abbrev F.SERVE_SLOT_CFG_FLUSH : Fld := ⟨0x100, 16, 1⟩
abbrev F.SERVE_SLOT_CFG_SHARED_OK : Fld := ⟨0x100, 17, 1⟩
abbrev F.SERVE_SLOT_STAT_STATE : Fld := ⟨0x104, 0, 3⟩
abbrev F.SERVE_SLOT_STAT_REQUESTS : Fld := ⟨0x104, 16, 11⟩
abbrev F.SERVE_SLOT_STEP_LO : Fld := ⟨0x108, 0, 32⟩
abbrev F.SERVE_SLOT_STEP_HI : Fld := ⟨0x10C, 0, 32⟩

-- page class LENS
abbrev F.LENS_CORE : Fld := ⟨0x040, 0, 12⟩
abbrev F.LENS_CORE_CTRL_IN_SERVICE : Fld := ⟨0x044, 0, 4⟩
abbrev F.LENS_SLOT_SLOT : Fld := ⟨0x048, 0, 3⟩
abbrev F.LENS_SLOT_VALID : Fld := ⟨0x048, 3, 1⟩
abbrev F.LENS_RERUN_COUNT : Fld := ⟨0x04C, 0, 16⟩

-- page class RQT
abbrev F.RQT_USE_IN_USE : Fld := ⟨0x040, 0, 11⟩
abbrev F.RQT_USE_QUEUED : Fld := ⟨0x040, 16, 11⟩
abbrev F.RQT_WAITING_JOBS : Fld := ⟨0x044, 0, 10⟩
abbrev F.RQT_SEL_ENTRY : Fld := ⟨0x048, 0, 10⟩
abbrev F.RQT_EXPIRED_COUNT : Fld := ⟨0x04C, 0, 16⟩
abbrev F.RQT_WIN : Fld := ⟨0x100, 0, 32⟩

-- page class PREFIX
abbrev F.PFX_CTRL_ENABLE : Fld := ⟨0x040, 0, 1⟩
abbrev F.PFX_BASE_LO : Fld := ⟨0x044, 0, 32⟩
abbrev F.PFX_BASE_HI : Fld := ⟨0x048, 0, 32⟩
abbrev F.PFX_NODES_NODES : Fld := ⟨0x04C, 0, 21⟩
abbrev F.PFX_USED_NODES : Fld := ⟨0x050, 0, 21⟩
abbrev F.PFX_LOOKUPS : Fld := ⟨0x054, 0, 32⟩
abbrev F.PFX_HIT_BLOCKS : Fld := ⟨0x058, 0, 32⟩
abbrev F.PFX_EVICTED : Fld := ⟨0x05C, 0, 32⟩
abbrev F.PFX_SKIPPED : Fld := ⟨0x060, 0, 32⟩

-- page class MASK
abbrev F.MASK_INFO : Fld := ⟨0x040, 0, 32⟩
abbrev F.MASK_DEAD : Fld := ⟨0x044, 0, 32⟩
abbrev F.MASK_TBL_STATE : Fld := ⟨0x100, 0, 2⟩
abbrev F.MASK_TBL_KIND : Fld := ⟨0x100, 2, 2⟩
abbrev F.MASK_TBL_REFS : Fld := ⟨0x100, 16, 10⟩
abbrev F.MASK_TBL_DIM_NSTATES : Fld := ⟨0x104, 0, 16⟩
abbrev F.MASK_TBL_DIM_NCLASSES : Fld := ⟨0x104, 16, 12⟩

-- page class SAMPLER
abbrev F.SMP_INFO_ACCOUNTS : Fld := ⟨0x040, 0, 7⟩
abbrev F.SMP_LATE : Fld := ⟨0x044, 0, 32⟩
abbrev F.SMP_FILL_LO : Fld := ⟨0x048, 0, 32⟩
abbrev F.SMP_FILL_HI : Fld := ⟨0x04C, 0, 32⟩
abbrev F.SMP_POL0_FAIR : Fld := ⟨0x100, 0, 1⟩
abbrev F.SMP_POL0_GEN : Fld := ⟨0x100, 1, 1⟩
abbrev F.SMP_POL0_MAX_REQ : Fld := ⟨0x100, 2, 9⟩
abbrev F.SMP_POL0_BUDGET_WAIT : Fld := ⟨0x100, 16, 8⟩
abbrev F.SMP_POL1_TOKEN_CAP : Fld := ⟨0x104, 0, 16⟩
abbrev F.SMP_POL1_RMIN : Fld := ⟨0x104, 16, 8⟩
abbrev F.SMP_POL1_RMAX : Fld := ⟨0x104, 24, 8⟩
abbrev F.SMP_POL2_CHUNK_MAX : Fld := ⟨0x108, 0, 17⟩
abbrev F.SMP_RHO_RHO : Fld := ⟨0x10C, 0, 8⟩
abbrev F.ACCT_RATE_RATE : Fld := ⟨0x200, 0, 32⟩
abbrev F.ACCT_CAP_CAP : Fld := ⟨0x204, 0, 32⟩
abbrev F.ACCT_PARTS_PARTS : Fld := ⟨0x208, 0, 16⟩
abbrev F.ACCT_BAL_BAL : Fld := ⟨0x20C, 0, 32⟩

-- page class DRAFT
abbrev F.DRAFT_CTRL_ENABLE : Fld := ⟨0x040, 0, 1⟩
abbrev F.DRAFT_KV_BASE_LO : Fld := ⟨0x048, 0, 32⟩
abbrev F.DRAFT_KV_BASE_HI : Fld := ⟨0x04C, 0, 32⟩
abbrev F.DRAFT_KV_SLICE_BYTES : Fld := ⟨0x050, 0, 24⟩
abbrev F.DRAFT_PROPOSED : Fld := ⟨0x054, 0, 32⟩
abbrev F.DRAFT_ACCEPTED : Fld := ⟨0x058, 0, 32⟩
abbrev F.DRAFT_BIND_DSLOT : Fld := ⟨0x100, 0, 3⟩
abbrev F.DRAFT_BIND_VALID : Fld := ⟨0x100, 3, 1⟩
abbrev F.DRAFT_BIND_DEFAULT_MAX : Fld := ⟨0x100, 4, 4⟩
abbrev F.DRAFT_BIND_LIVE : Fld := ⟨0x100, 8, 1⟩

-- page class MEMC
abbrev F.MEMC_CFG_RATE : Fld := ⟨0x040, 0, 3⟩
abbrev F.MEMC_INIT_GO : Fld := ⟨0x044, 0, 1⟩
abbrev F.MEMC_STAT_INIT_DONE : Fld := ⟨0x048, 0, 1⟩
abbrev F.MEMC_STAT_TRAINED : Fld := ⟨0x048, 1, 1⟩
abbrev F.MEMC_STAT_REPAIR_FULL : Fld := ⟨0x048, 2, 1⟩
abbrev F.MEMC_STAT_UNITS : Fld := ⟨0x048, 8, 16⟩
abbrev F.MEMC_PATROL_INTERVAL : Fld := ⟨0x04C, 0, 16⟩
abbrev F.MEMC_CE_CE : Fld := ⟨0x050, 0, 16⟩
abbrev F.MEMC_CE_UE : Fld := ⟨0x050, 16, 16⟩
abbrev F.MEMC_PCOUNT_READS : Fld := ⟨0x054, 0, 16⟩
abbrev F.MEMC_PCOUNT_MERGES : Fld := ⟨0x054, 16, 16⟩
abbrev F.MEMC_CE_THRESH_THRESH : Fld := ⟨0x058, 0, 16⟩
abbrev F.MEMC_LAST_CE_LO : Fld := ⟨0x05C, 0, 32⟩
abbrev F.MEMC_LAST_CE_HI : Fld := ⟨0x060, 0, 32⟩
abbrev F.MEMC_MISC_REPAIR_DROPPED : Fld := ⟨0x064, 0, 16⟩
abbrev F.MEMC_MISC_OFF_WINDOW : Fld := ⟨0x064, 16, 16⟩
abbrev F.MEMC_CLR_CLR : Fld := ⟨0x068, 0, 1⟩
abbrev F.MEMC_TEMP_MR4 : Fld := ⟨0x06C, 0, 8⟩
abbrev F.MEMC_PLAN_BASE_LO : Fld := ⟨0x100, 0, 32⟩
abbrev F.MEMC_PLAN_BASE_HI : Fld := ⟨0x104, 0, 32⟩
abbrev F.MEMC_PLAN_SIZE_UNITS : Fld := ⟨0x108, 0, 14⟩
abbrev F.MEMC_PLAN_FREE_UNITS : Fld := ⟨0x10C, 0, 14⟩
abbrev F.SRAM_SEL_REGION : Fld := ⟨0x110, 0, 8⟩
abbrev F.SRAM_CE_CE : Fld := ⟨0x114, 0, 16⟩
abbrev F.SRAM_CE_UE : Fld := ⟨0x114, 16, 16⟩
abbrev F.SRAM_PCOUNT_READS : Fld := ⟨0x118, 0, 16⟩
abbrev F.SRAM_PCOUNT_MERGES : Fld := ⟨0x118, 16, 16⟩
abbrev F.SRAM_LAST_CE_WORD : Fld := ⟨0x11C, 0, 24⟩
abbrev F.SRAM_LAST_CE_REPAIR_DROPPED : Fld := ⟨0x11C, 24, 8⟩
abbrev F.SRAM_CE_THRESH_THRESH : Fld := ⟨0x120, 0, 16⟩
abbrev F.SRAM_CLR_SEL : Fld := ⟨0x124, 0, 1⟩
abbrev F.SRAM_CLR : Fld := ⟨0x124, 1, 1⟩
abbrev F.SRAM_PASSES : Fld := ⟨0x128, 0, 32⟩

-- page class MEMCAL
abbrev F.MEMC_CAL_INFO_WINDOWS : Fld := ⟨0x040, 0, 5⟩
abbrev F.MEMC_CAL_INFO_GUARD : Fld := ⟨0x040, 16, 8⟩
abbrev F.MEMC_PLAN_LAT_READ : Fld := ⟨0x044, 0, 8⟩
abbrev F.MEMC_PLAN_LAT_WRITE : Fld := ⟨0x044, 8, 8⟩
abbrev F.MEMC_PLAN_LAT_FLOOR : Fld := ⟨0x044, 16, 8⟩
abbrev F.MEMC_WIN_START : Fld := ⟨0x080, 0, 20⟩
abbrev F.MEMC_WIN_LEN : Fld := ⟨0x080, 20, 12⟩

-- page class RTU
abbrev F.RTU_INFO_SIZE_LOG2 : Fld := ⟨0x040, 0, 5⟩
abbrev F.RTU_INFO_SFDP_OK : Fld := ⟨0x040, 8, 1⟩
abbrev F.RTU_INFO_PROFILE : Fld := ⟨0x040, 9, 3⟩
abbrev F.RTU_INFO_ERASE_MAX : Fld := ⟨0x040, 16, 16⟩
abbrev F.RTU_STORE_STATE : Fld := ⟨0x044, 0, 3⟩
abbrev F.RTU_STORE_FALLBACK : Fld := ⟨0x044, 3, 1⟩
abbrev F.RTU_STORE_BUSY : Fld := ⟨0x044, 4, 1⟩
abbrev F.RTU_STORE_OBJECTS : Fld := ⟨0x044, 8, 8⟩
abbrev F.RTU_STORE_BAD : Fld := ⟨0x044, 16, 7⟩
abbrev F.RTU_AREA_BASE : Fld := ⟨0x048, 0, 16⟩
abbrev F.RTU_AREA_SIZE : Fld := ⟨0x048, 16, 16⟩
abbrev F.RTU_SEQ_LO : Fld := ⟨0x04C, 0, 32⟩
abbrev F.RTU_SEQ_HI : Fld := ⟨0x050, 0, 32⟩
abbrev F.RTU_FREE_SECTORS : Fld := ⟨0x054, 0, 17⟩
abbrev F.RTU_ERASED_SECTORS : Fld := ⟨0x058, 0, 17⟩
abbrev F.RTU_PART_EN_EN : Fld := ⟨0x05C, 0, 16⟩
abbrev F.RTU_HU_CAP_C : Fld := ⟨0x060, 0, 24⟩
abbrev F.RTU_HU_SCALE_UV : Fld := ⟨0x064, 0, 16⟩
abbrev F.RTU_HU_VMIN_MV : Fld := ⟨0x068, 0, 16⟩
abbrev F.RTU_HU_OVH_UJ : Fld := ⟨0x06C, 0, 24⟩
abbrev F.RTU_HU_PER_UJ : Fld := ⟨0x070, 0, 24⟩
abbrev F.RTU_HU_ERASE_UJ : Fld := ⟨0x074, 0, 24⟩
abbrev F.RTU_HU_MARGIN_MARGIN : Fld := ⟨0x078, 0, 8⟩
abbrev F.RTU_HU_NOW_CODE : Fld := ⟨0x07C, 0, 12⟩
abbrev F.RTU_HU_NOW_MV : Fld := ⟨0x07C, 16, 16⟩
abbrev F.RTU_HU_AVAIL : Fld := ⟨0x080, 0, 32⟩
abbrev F.RTU_LAST_STATUS : Fld := ⟨0x084, 0, 16⟩
abbrev F.RTU_LAST_CAUSE : Fld := ⟨0x084, 16, 8⟩
abbrev F.RTU_LAST_PARTITION : Fld := ⟨0x084, 24, 4⟩
abbrev F.RTU_LAST_REQ : Fld := ⟨0x088, 0, 32⟩
abbrev F.RTU_LAST_AVAIL : Fld := ⟨0x08C, 0, 32⟩
abbrev F.RTU_COUNT_DONE : Fld := ⟨0x090, 0, 16⟩
abbrev F.RTU_COUNT_SHORT : Fld := ⟨0x090, 16, 16⟩

-- page class PMU
abbrev F.PMU_CTRL_MAX_STATE : Fld := ⟨0x040, 0, 2⟩
abbrev F.PMU_STAT_STATE : Fld := ⟨0x044, 0, 2⟩
abbrev F.PMU_STAT_LAST : Fld := ⟨0x044, 2, 3⟩
abbrev F.PMU_STAT_BLOCK : Fld := ⟨0x044, 16, 11⟩
abbrev F.PMU_MARGIN_TICKS : Fld := ⟨0x048, 0, 20⟩
abbrev F.PMU_NEXT_LO : Fld := ⟨0x04C, 0, 32⟩
abbrev F.PMU_NEXT_HI : Fld := ⟨0x050, 0, 32⟩
abbrev F.PMU_NEXT_SRC_SRC : Fld := ⟨0x054, 0, 3⟩
abbrev F.PMU_SLEEP_CNT_PS2 : Fld := ⟨0x058, 0, 16⟩
abbrev F.PMU_SLEEP_CNT_PS3 : Fld := ⟨0x058, 16, 16⟩
abbrev F.PMU_LAST_WAKE_CAUSE : Fld := ⟨0x05C, 0, 8⟩
abbrev F.PMU_TMR_LO : Fld := ⟨0x060, 0, 32⟩
abbrev F.PMU_TMR_HI : Fld := ⟨0x064, 0, 32⟩
abbrev F.PMU_TMR_STAT_FIRED : Fld := ⟨0x080, 0, 4⟩
abbrev F.PMU_THERM_T_SHUT : Fld := ⟨0x084, 0, 8⟩
abbrev F.PMU_THERM_T_THROTTLE : Fld := ⟨0x084, 8, 8⟩
abbrev F.PMU_THERM_HYST : Fld := ⟨0x084, 16, 4⟩
abbrev F.PMU_TEMP_DEGC : Fld := ⟨0x088, 0, 8⟩
abbrev F.PMU_SPEED_CAP : Fld := ⟨0x08C, 0, 4⟩
abbrev F.PMU_SPEED_SPEED : Fld := ⟨0x08C, 8, 4⟩
abbrev F.PMU_THROTTLE_CNT_COUNT : Fld := ⟨0x090, 0, 16⟩
abbrev F.PMU_PS4_OBJ : Fld := ⟨0x094, 0, 8⟩
abbrev F.PMU_PS4_KEY : Fld := ⟨0x094, 16, 16⟩
abbrev F.PMU_PS4_STAT_STATUS : Fld := ⟨0x098, 0, 16⟩

-- page class TKU
abbrev F.TKU_INFO : Fld := ⟨0x040, 0, 32⟩
abbrev F.TKU_EVT_LO : Fld := ⟨0x044, 0, 32⟩
abbrev F.TKU_EVT_HI : Fld := ⟨0x048, 0, 32⟩
abbrev F.TKU_FIFO_HELD : Fld := ⟨0x04C, 0, 6⟩
abbrev F.TKU_FIFO_DROPPED : Fld := ⟨0x04C, 16, 16⟩
abbrev F.TKU_STATE_KEYS : Fld := ⟨0x050, 0, 8⟩
abbrev F.TKU_STATE_TOUCH : Fld := ⟨0x050, 8, 12⟩
abbrev F.TKU_STATE_WET : Fld := ⟨0x050, 20, 1⟩
abbrev F.TKU_STATE_DOCK : Fld := ⟨0x050, 21, 1⟩
abbrev F.TKU_PROX_PROX : Fld := ⟨0x054, 0, 12⟩
abbrev F.TKU_WAKE_SRC_SRC : Fld := ⟨0x058, 0, 24⟩
abbrev F.TKU_WAKE_KIND_KIND : Fld := ⟨0x05C, 1, 12⟩
abbrev F.TKU_CLR_FLUSH : Fld := ⟨0x060, 0, 1⟩
abbrev F.TKU_CLR_DROPPED : Fld := ⟨0x060, 1, 1⟩
abbrev F.TKU_CLR_REACQUIRE : Fld := ⟨0x060, 2, 1⟩
abbrev F.TKU_KEY_ENABLE : Fld := ⟨0x080, 0, 1⟩
abbrev F.TKU_KEY_POL : Fld := ⟨0x080, 1, 1⟩
abbrev F.TKU_KEY_DEBOUNCE : Fld := ⟨0x080, 2, 6⟩
abbrev F.TKU_KEY_LONG : Fld := ⟨0x080, 8, 8⟩
abbrev F.TKU_KEY_RDELAY : Fld := ⟨0x080, 16, 8⟩
abbrev F.TKU_KEY_RRATE : Fld := ⟨0x080, 24, 8⟩
abbrev F.TKU_TOUCH_CTRL_SCAN_MS : Fld := ⟨0x0A0, 0, 6⟩
abbrev F.TKU_TOUCH_CTRL_TRACK_SHIFT : Fld := ⟨0x0A0, 8, 4⟩
abbrev F.TKU_TOUCH_CTRL_DEB : Fld := ⟨0x0A0, 12, 4⟩
abbrev F.TKU_TOUCH_CTRL_MAX_ON : Fld := ⟨0x0A0, 16, 8⟩
abbrev F.TKU_TOUCH_WATER_GUARD : Fld := ⟨0x0A4, 0, 4⟩
abbrev F.TKU_TOUCH_WATER_GUARD_EN : Fld := ⟨0x0A4, 4, 1⟩
abbrev F.TKU_TOUCH_WATER_WATER_TH : Fld := ⟨0x0A4, 16, 16⟩
abbrev F.TKU_TCH_TH_TOUCH_TH : Fld := ⟨0x0C0, 0, 16⟩
abbrev F.TKU_TCH_TH_PROX_TH : Fld := ⟨0x0C0, 16, 16⟩
abbrev F.TKU_TCH_CFG_HYST : Fld := ⟨0x0C4, 0, 12⟩
abbrev F.TKU_TCH_CFG_ENABLE : Fld := ⟨0x0C4, 12, 1⟩
abbrev F.TKU_TCH_CFG_WATER_REJ : Fld := ⟨0x0C4, 13, 1⟩
abbrev F.TKU_TCH_CFG_NEG_TH : Fld := ⟨0x0C4, 16, 16⟩
abbrev F.TKU_TCH_VAL_RAW : Fld := ⟨0x140, 0, 16⟩
abbrev F.TKU_TCH_VAL_BASELINE : Fld := ⟨0x140, 16, 16⟩
abbrev F.TKU_TCH_STAT_DELTA : Fld := ⟨0x144, 0, 16⟩
abbrev F.TKU_TCH_STAT_KIND : Fld := ⟨0x144, 16, 2⟩
abbrev F.TKU_TCH_STAT_ACQUIRED : Fld := ⟨0x144, 18, 1⟩
abbrev F.TKU_TCH_STAT_FAULTED : Fld := ⟨0x144, 19, 1⟩
abbrev F.TKU_TC_CFG_ENABLE : Fld := ⟨0x1C0, 0, 1⟩
abbrev F.TKU_TC_STAT_ATTACHED : Fld := ⟨0x1C8, 0, 1⟩
abbrev F.TKU_TC_STAT_ORIENT : Fld := ⟨0x1C8, 2, 2⟩
abbrev F.TKU_TC_STAT_CURRENT : Fld := ⟨0x1C8, 4, 2⟩
abbrev F.TKU_TC_STAT_CC1 : Fld := ⟨0x1C8, 8, 8⟩
abbrev F.TKU_TC_STAT_CC2 : Fld := ⟨0x1C8, 16, 8⟩
abbrev F.TKU_DOCK_ENABLE : Fld := ⟨0x1D0, 0, 1⟩
abbrev F.TKU_DOCK_POL : Fld := ⟨0x1D0, 1, 1⟩
abbrev F.TKU_DOCK_DEBOUNCE : Fld := ⟨0x1D0, 2, 6⟩

/-- The registers of page class HDR. -/
def rowsHdr : List RegRow :=
  [⟨0x000, 1, 4, 0x0, [⟨16, 16, .ro, 0, 65535⟩, ⟨8, 8, .ro, 0, 255⟩, ⟨0, 8, .ro, 0, 255⟩]⟩,
   ⟨0x004, 1, 4, 0x0, [⟨31, 1, .ro, 0, 1⟩, ⟨0, 31, .ro, 0, 2147483647⟩]⟩,
   ⟨0x008, 1, 4, 0x4, [⟨0, 1, .rw, 0, 1⟩, ⟨1, 1, .rw, 0, 1⟩, ⟨2, 1, .rw, 0, 1⟩, ⟨3, 1, .wo, 0, 1⟩]⟩,
   ⟨0x00C, 1, 4, 0x0, [⟨0, 1, .ro, 0, 1⟩, ⟨1, 1, .ro, 0, 1⟩, ⟨2, 1, .ro, 0, 1⟩, ⟨3, 1, .ro, 0, 1⟩, ⟨4, 1, .ro, 0, 1⟩]⟩,
   ⟨0x010, 1, 4, 0x0, [⟨0, 31, .w1c, 0, 2147483647⟩, ⟨31, 1, .w1c, 0, 1⟩]⟩,
   ⟨0x014, 1, 4, 0x0, [⟨0, 32, .rw, 0, 4294967295⟩]⟩,
   ⟨0x018, 1, 4, 0x0, [⟨0, 32, .wo, 0, 4294967295⟩]⟩,
   ⟨0x01C, 1, 4, 0x0, [⟨0, 4, .ro, 0, 15⟩, ⟨16, 16, .rwl, 0, 65535⟩]⟩,
   ⟨0x020, 1, 4, 0x0, [⟨0, 16, .ro, 0, 65535⟩, ⟨16, 4, .ro, 0, 15⟩, ⟨30, 1, .ro, 0, 1⟩, ⟨31, 1, .ro, 0, 1⟩]⟩,
   ⟨0x024, 1, 4, 0x0, [⟨0, 32, .ro, 0, 4294967295⟩]⟩,
   ⟨0x028, 1, 4, 0x0, [⟨0, 32, .ro, 0, 4294967295⟩]⟩,
   ⟨0x02C, 1, 4, 0x0, [⟨0, 32, .ro, 0, 4294967295⟩]⟩] ++
  [⟨0x030, 1, 4, 0x0, [⟨0, 1, .wo, 0, 1⟩]⟩,
   ⟨0x034, 1, 4, 0x0, [⟨0, 1, .w1s, 0, 1⟩]⟩,
   ⟨0x038, 1, 4, 0x0, [⟨0, 32, .rw, 0, 4294967295⟩]⟩]

/-- The registers of page class CHIP. -/
def rowsChip : List RegRow :=
  [⟨0x040, 1, 4, 0x0, [⟨0, 16, .ro, 0, 65535⟩, ⟨16, 8, .ro, 0, 255⟩]⟩,
   ⟨0x044, 1, 4, 0x0, [⟨0, 32, .ro, 0, 4294967295⟩]⟩,
   ⟨0x048, 1, 4, 0x0, [⟨0, 32, .ro, 0, 4294967295⟩]⟩,
   ⟨0x04C, 1, 4, 0x0, [⟨0, 16, .ro, 0, 65535⟩, ⟨16, 16, .ro, 0, 65535⟩]⟩,
   ⟨0x050, 1, 4, 0x0, [⟨0, 32, .ro, 0, 4294967295⟩]⟩,
   ⟨0x054, 1, 4, 0x0, [⟨0, 32, .ro, 0, 4294967295⟩]⟩,
   ⟨0x058, 1, 4, 0x0, [⟨0, 8, .ro, 0, 255⟩, ⟨8, 1, .ro, 0, 1⟩, ⟨16, 8, .ro, 0, 255⟩, ⟨24, 8, .ro, 0, 255⟩]⟩]

/-- The registers of page class RST. -/
def rowsRst : List RegRow :=
  [⟨0x040, 1, 4, 0x3, [⟨0, 1, .rwl, 0, 1⟩, ⟨1, 1, .rwl, 0, 1⟩]⟩,
   ⟨0x044, 1, 4, 0x0, [⟨0, 1, .wo, 0, 1⟩, ⟨16, 16, .wo, 0, 65535⟩]⟩,
   ⟨0x048, 1, 4, 0x0, [⟨0, 4, .wo, 0, 15⟩, ⟨8, 1, .wo, 0, 1⟩, ⟨16, 16, .wo, 0, 65535⟩]⟩,
   ⟨0x04C, 1, 4, 0x0, [⟨0, 16, .ro, 0, 65535⟩]⟩,
   ⟨0x050, 1, 4, 0x0, [⟨0, 4, .ro, 0, 15⟩]⟩,
   ⟨0x054, 1, 4, 0x0, [⟨0, 16, .ro, 0, 65535⟩]⟩,
   ⟨0x058, 1, 4, 0x0, [⟨0, 32, .rw, 0, 4294967295⟩]⟩]

/-- The registers of page class PTB. -/
def rowsPtb : List RegRow :=
  [⟨0x040, 1, 4, 0x0, [⟨0, 32, .ro, 0, 4294967295⟩]⟩,
   ⟨0x044, 1, 4, 0x0, [⟨0, 32, .ro, 0, 4294967295⟩]⟩,
   ⟨0x048, 1, 4, 0x4E20, [⟨0, 20, .ro, 0, 1048575⟩]⟩,
   ⟨0x04C, 1, 4, 0x1, [⟨0, 9, .ro, 0, 511⟩, ⟨16, 9, .ro, 0, 511⟩]⟩,
   ⟨0x050, 1, 4, 0x0, [⟨0, 32, .ro, 0, 4294967295⟩]⟩,
   ⟨0x054, 1, 4, 0x0, [⟨0, 32, .ro, 0, 4294967295⟩]⟩,
   ⟨0x058, 1, 4, 0x0, [⟨0, 32, .ro, 0, 4294967295⟩]⟩,
   ⟨0x05C, 1, 4, 0x0, [⟨0, 32, .ro, 0, 4294967295⟩]⟩,
   ⟨0x060, 1, 4, 0x0, [⟨0, 2, .rwl, 0, 2⟩, ⟨8, 8, .rwl, 0, 255⟩]⟩,
   ⟨0x064, 1, 4, 0x0, [⟨0, 1, .ro, 0, 1⟩, ⟨1, 1, .w1c, 0, 1⟩, ⟨8, 8, .ro, 0, 255⟩, ⟨16, 16, .ro, 0, 65535⟩]⟩]

/-- The registers of page class QEG. -/
def rowsQeg : List RegRow :=
  [⟨0x040, 1, 4, 0x48008200, [⟨0, 10, .ro, 0, 1023⟩, ⟨10, 6, .ro, 0, 63⟩, ⟨16, 12, .ro, 0, 4095⟩, ⟨28, 3, .ro, 0, 7⟩]⟩,
   ⟨0x044, 1, 4, 0x0, [⟨0, 10, .ro, 0, 1023⟩, ⟨16, 10, .ro, 0, 1023⟩]⟩,
   ⟨0x048, 1, 4, 0x80, [⟨0, 8, .ro, 0, 255⟩]⟩,
   ⟨0x080, 16, 4, 0x100200, [⟨0, 10, .rwl, 0, 1023⟩, ⟨16, 10, .rwl, 0, 1023⟩]⟩,
   ⟨0x0C0, 16, 4, 0x7F, [⟨0, 12, .rwl, 0, 4095⟩, ⟨16, 12, .ro, 0, 4095⟩]⟩,
   ⟨0x100, 16, 4, 0x0, [⟨0, 10, .ro, 0, 1023⟩]⟩]

/-- The registers of page class QP. -/
def rowsQp : List RegRow :=
  [⟨0x000, 1, 4, 0x0, [⟨0, 1, .rw, 0, 1⟩, ⟨1, 1, .rw, 0, 1⟩, ⟨2, 1, .rw, 0, 1⟩, ⟨3, 1, .rw, 0, 1⟩]⟩,
   ⟨0x004, 1, 4, 0x0, [⟨0, 3, .ro, 0, 7⟩, ⟨3, 1, .ro, 0, 1⟩, ⟨4, 1, .ro, 0, 1⟩, ⟨5, 4, .ro, 0, 15⟩, ⟨16, 4, .ro, 0, 15⟩]⟩,
   ⟨0x008, 1, 4, 0x0, [⟨0, 32, .rw, 0, 4294967295⟩]⟩,
   ⟨0x00C, 1, 4, 0x0, [⟨0, 32, .rw, 0, 4294967295⟩]⟩,
   ⟨0x010, 1, 4, 0x0, [⟨0, 32, .rw, 0, 4294967295⟩]⟩,
   ⟨0x014, 1, 4, 0x0, [⟨0, 32, .rw, 0, 4294967295⟩]⟩,
   ⟨0x018, 1, 4, 0x0, [⟨0, 4, .rw, 4, 12⟩, ⟨8, 4, .rw, 4, 12⟩]⟩,
   ⟨0x01C, 1, 4, 0x0, [⟨0, 7, .rw, 0, 127⟩, ⟨8, 8, .rw, 0, 255⟩, ⟨16, 12, .rw, 0, 4095⟩]⟩,
   ⟨0x020, 1, 4, 0x0, [⟨0, 12, .ro, 0, 4095⟩]⟩,
   ⟨0x024, 1, 4, 0x0, [⟨0, 12, .ro, 0, 4095⟩]⟩,
   ⟨0x028, 1, 4, 0x0, [⟨0, 12, .ro, 0, 4095⟩, ⟨12, 1, .ro, 0, 1⟩]⟩,
   ⟨0x02C, 1, 4, 0x0, [⟨0, 12, .ro, 0, 4095⟩]⟩] ++
  [⟨0x030, 1, 4, 0x0, [⟨0, 10, .ro, 0, 1023⟩]⟩,
   ⟨0x034, 1, 4, 0x0, [⟨0, 4, .rw, 0, 15⟩]⟩,
   ⟨0x038, 1, 4, 0x0, [⟨0, 16, .ro, 0, 65535⟩, ⟨16, 16, .ro, 0, 65535⟩]⟩]

/-- The registers of page class PART. -/
def rowsPart : List RegRow :=
  [⟨0x040, 1, 4, 0x0, [⟨0, 2, .ro, 0, 3⟩, ⟨2, 1, .ro, 0, 1⟩, ⟨16, 16, .ro, 0, 65535⟩]⟩,
   ⟨0x044, 1, 4, 0x0, [⟨0, 7, .rw, 0, 127⟩, ⟨8, 7, .rw, 0, 127⟩, ⟨16, 7, .rw, 0, 127⟩]⟩,
   ⟨0x048, 1, 4, 0x0, [⟨0, 16, .ro, 0, 65535⟩, ⟨16, 14, .ro, 0, 16383⟩, ⟨30, 1, .ro, 0, 1⟩]⟩,
   ⟨0x04C, 1, 4, 0x0, [⟨0, 1, .wo, 0, 1⟩, ⟨1, 1, .wo, 0, 1⟩]⟩,
   ⟨0x050, 1, 4, 0x100000, [⟨0, 21, .ro, 0, 2097151⟩]⟩,
   ⟨0x054, 1, 4, 0x100400, [⟨0, 11, .ro, 0, 2047⟩, ⟨16, 8, .ro, 0, 255⟩]⟩,
   ⟨0x058, 1, 4, 0x0, [⟨0, 21, .ro, 0, 2097151⟩]⟩,
   ⟨0x05C, 1, 4, 0x0, [⟨0, 11, .ro, 0, 2047⟩]⟩,
   ⟨0x060, 1, 4, 0x0, [⟨0, 32, .ro, 0, 4294967295⟩]⟩,
   ⟨0x064, 1, 4, 0x0, [⟨0, 32, .ro, 0, 4294967295⟩]⟩,
   ⟨0x068, 1, 4, 0x0, [⟨0, 8, .ro, 0, 255⟩]⟩,
   ⟨0x06C, 1, 4, 0x0, [⟨0, 4, .ro, 0, 15⟩, ⟨4, 5, .ro, 0, 31⟩, ⟨16, 16, .ro, 0, 65535⟩]⟩] ++
  [⟨0x100, 64, 4, 0x0, [⟨0, 32, .ro, 0, 4294967295⟩]⟩,
   ⟨0x200, 64, 4, 0x0, [⟨0, 32, .ro, 0, 4294967295⟩]⟩]

/-- The registers of page class FT. -/
def rowsFt : List RegRow :=
  [⟨0x040, 1, 4, 0x0, [⟨0, 2, .ro, 0, 3⟩, ⟨8, 6, .ro, 0, 63⟩]⟩,
   ⟨0x044, 1, 4, 0x0, [⟨0, 1, .ro, 0, 1⟩, ⟨1, 1, .ro, 0, 1⟩, ⟨2, 2, .ro, 0, 3⟩, ⟨4, 1, .ro, 0, 1⟩, ⟨16, 16, .ro, 0, 65535⟩]⟩,
   ⟨0x048, 1, 4, 0x0, [⟨0, 16, .ro, 0, 65535⟩, ⟨16, 16, .ro, 0, 65535⟩]⟩,
   ⟨0x04C, 1, 4, 0x0, [⟨0, 16, .ro, 0, 65535⟩, ⟨16, 16, .ro, 0, 65535⟩]⟩,
   ⟨0x050, 1, 4, 0x0, [⟨0, 11, .ro, 0, 2047⟩]⟩,
   ⟨0x054, 1, 4, 0x0, [⟨0, 10, .ro, 0, 1023⟩]⟩,
   ⟨0x060, 1, 4, 0x0, [⟨3, 15, .rw, 0, 32767⟩]⟩,
   ⟨0x064, 1, 4, 0x0, [⟨0, 32, .rw, 0, 4294967295⟩]⟩,
   ⟨0x068, 1, 4, 0x0, [⟨0, 32, .rw, 0, 4294967295⟩]⟩]

/-- The registers of page class FMAP. -/
def rowsFmap : List RegRow :=
  [⟨0x040, 1, 4, 0x0, [⟨0, 4, .ro, 0, 15⟩, ⟨4, 4, .ro, 0, 15⟩, ⟨8, 8, .ro, 0, 255⟩, ⟨16, 8, .ro, 0, 255⟩]⟩,
   ⟨0x044, 1, 4, 0x0, [⟨0, 8, .ro, 0, 255⟩, ⟨8, 1, .ro, 0, 1⟩, ⟨9, 1, .ro, 0, 1⟩]⟩,
   ⟨0x048, 1, 4, 0x0, [⟨0, 32, .ro, 0, 4294967295⟩]⟩,
   ⟨0x04C, 1, 4, 0x0, [⟨0, 32, .ro, 0, 4294967295⟩]⟩,
   ⟨0x050, 1, 4, 0x0, [⟨0, 32, .ro, 0, 4294967295⟩]⟩,
   ⟨0x054, 1, 4, 0x0, [⟨0, 32, .ro, 0, 4294967295⟩]⟩,
   ⟨0x058, 1, 4, 0x0, [⟨0, 16, .ro, 0, 65535⟩]⟩,
   ⟨0x080, 16, 4, 0x0, [⟨0, 32, .ro, 0, 4294967295⟩]⟩,
   ⟨0x0C0, 3, 4, 0x0, [⟨0, 32, .ro, 0, 4294967295⟩]⟩]

/-- The registers of page class SOLV. -/
def rowsSolv : List RegRow :=
  [⟨0x040, 1, 4, 0x10000420, [⟨0, 6, .ro, 0, 63⟩, ⟨6, 5, .ro, 0, 31⟩, ⟨16, 13, .ro, 0, 8191⟩]⟩,
   ⟨0x044, 1, 4, 0x1, [⟨0, 1, .rw, 0, 1⟩, ⟨1, 1, .w1s, 0, 1⟩, ⟨16, 16, .rw, 0, 65535⟩]⟩,
   ⟨0x048, 1, 4, 0x0, [⟨0, 1, .ro, 0, 1⟩, ⟨1, 1, .ro, 0, 1⟩, ⟨2, 1, .ro, 0, 1⟩, ⟨16, 16, .ro, 0, 65535⟩]⟩,
   ⟨0x04C, 1, 4, 0x0, [⟨0, 16, .ro, 0, 65535⟩, ⟨16, 8, .ro, 0, 255⟩]⟩,
   ⟨0x050, 1, 4, 0x0, [⟨0, 32, .ro, 0, 4294967295⟩]⟩,
   ⟨0x054, 1, 4, 0x0, [⟨0, 32, .ro, 0, 4294967295⟩]⟩,
   ⟨0x058, 1, 4, 0x0, [⟨0, 16, .ro, 0, 65535⟩, ⟨16, 16, .ro, 0, 65535⟩]⟩,
   ⟨0x05C, 1, 4, 0x0, [⟨0, 16, .ro, 0, 65535⟩, ⟨16, 16, .ro, 0, 65535⟩]⟩,
   ⟨0x100, 32, 16, 0x0, [⟨0, 2, .ro, 0, 3⟩, ⟨2, 4, .ro, 0, 15⟩, ⟨6, 2, .ro, 0, 3⟩, ⟨8, 6, .ro, 0, 63⟩]⟩,
   ⟨0x104, 32, 16, 0x0, [⟨0, 32, .ro, 0, 4294967295⟩]⟩,
   ⟨0x108, 32, 16, 0x0, [⟨0, 16, .ro, 0, 65535⟩, ⟨16, 16, .ro, 0, 65535⟩]⟩,
   ⟨0x10C, 32, 16, 0x0, [⟨0, 32, .ro, 0, 4294967295⟩]⟩]

/-- The registers of page class LOOPG. -/
def rowsLoopg : List RegRow :=
  [⟨0x040, 1, 4, 0x0, [⟨0, 6, .ro, 0, 63⟩, ⟨8, 6, .ro, 0, 63⟩, ⟨16, 4, .ro, 0, 15⟩, ⟨20, 2, .ro, 0, 3⟩, ⟨24, 5, .ro, 0, 31⟩]⟩,
   ⟨0x044, 1, 4, 0x0, [⟨0, 1, .ro, 0, 1⟩, ⟨8, 5, .ro, 0, 31⟩]⟩,
   ⟨0x048, 1, 4, 0x0, [⟨0, 17, .ro, 0, 131071⟩]⟩,
   ⟨0x04C, 1, 4, 0x0, [⟨0, 17, .ro, 0, 131071⟩]⟩,
   ⟨0x050, 1, 4, 0x0, [⟨0, 13, .ro, 0, 8191⟩]⟩,
   ⟨0x054, 1, 4, 0x0, [⟨0, 8, .w1c, 0, 255⟩]⟩,
   ⟨0x060, 8, 4, 0x0, [⟨0, 2, .rw, 0, 3⟩, ⟨2, 1, .rw, 0, 1⟩, ⟨8, 8, .rw, 0, 255⟩]⟩,
   ⟨0x080, 8, 4, 0x0, [⟨0, 32, .ro, 0, 4294967295⟩]⟩,
   ⟨0x100, 32, 4, 0x0, [⟨0, 12, .ro, 0, 4095⟩]⟩]

/-- The registers of page class CH. -/
def rowsCh : List RegRow :=
  [⟨0x040, 1, 4, 0x4, [⟨0, 2, .rw, 0, 2⟩, ⟨2, 3, .rw, 1, 6⟩, ⟨8, 3, .rw, 0, 3⟩, ⟨12, 2, .rw, 0, 2⟩, ⟨14, 2, .rw, 0, 2⟩, ⟨16, 1, .rw, 0, 1⟩, ⟨17, 1, .rw, 0, 1⟩, ⟨18, 1, .rw, 0, 1⟩, ⟨19, 2, .rw, 0, 2⟩]⟩,
   ⟨0x044, 1, 4, 0x29, [⟨0, 3, .rw, 1, 6⟩, ⟨3, 2, .rw, 1, 2⟩, ⟨5, 2, .rw, 1, 3⟩, ⟨7, 2, .rw, 0, 2⟩]⟩,
   ⟨0x048, 1, 4, 0x0, [⟨0, 1, .rw, 0, 1⟩]⟩,
   ⟨0x04C, 1, 4, 0x0, [⟨0, 2, .ro, 0, 3⟩, ⟨2, 1, .ro, 0, 1⟩, ⟨3, 1, .ro, 0, 1⟩, ⟨4, 1, .ro, 0, 1⟩, ⟨16, 16, .ro, 0, 65535⟩]⟩,
   ⟨0x050, 1, 4, 0x0, [⟨0, 8, .w1c, 0, 255⟩]⟩,
   ⟨0x054, 1, 4, 0x0, [⟨0, 8, .rw, 0, 255⟩]⟩,
   ⟨0x058, 1, 4, 0x0, [⟨0, 16, .rw, 0, 65535⟩]⟩,
   ⟨0x05C, 1, 4, 0x0, [⟨0, 16, .rw, 0, 65535⟩]⟩,
   ⟨0x060, 1, 4, 0x7FFF8000, [⟨0, 16, .rw, 0, 65535⟩, ⟨16, 16, .rw, 0, 65535⟩]⟩,
   ⟨0x064, 1, 4, 0x0, [⟨0, 32, .rw, 0, 4294967295⟩]⟩,
   ⟨0x068, 1, 4, 0x0, [⟨0, 32, .rw, 0, 4294967295⟩]⟩,
   ⟨0x06C, 1, 4, 0x7FFF8000, [⟨0, 16, .rw, 0, 65535⟩, ⟨16, 16, .rw, 0, 65535⟩]⟩] ++
  [⟨0x070, 1, 4, 0x0, [⟨0, 16, .rw, 0, 65535⟩, ⟨16, 16, .rw, 0, 65535⟩]⟩,
   ⟨0x074, 1, 4, 0x0, [⟨0, 16, .rw, 0, 65535⟩, ⟨16, 4, .rw, 0, 8⟩, ⟨20, 2, .rw, 0, 3⟩, ⟨24, 5, .rw, 0, 31⟩]⟩,
   ⟨0x078, 1, 4, 0x8004000, [⟨0, 16, .rw, 0, 65535⟩, ⟨16, 16, .rw, 0, 65535⟩]⟩,
   ⟨0x07C, 1, 4, 0x0, [⟨0, 12, .rw, 0, 4095⟩]⟩,
   ⟨0x080, 5, 4, 0x40000000, [⟨0, 16, .rw, 0, 65535⟩, ⟨16, 16, .rw, 0, 65535⟩]⟩,
   ⟨0x094, 1, 4, 0x11111, [⟨0, 4, .rw, 0, 8⟩, ⟨4, 4, .rw, 0, 8⟩, ⟨8, 4, .rw, 0, 8⟩, ⟨12, 4, .rw, 0, 8⟩, ⟨16, 4, .rw, 0, 8⟩]⟩,
   ⟨0x0A0, 1, 4, 0x0, [⟨0, 20, .ro, 0, 1048575⟩, ⟨20, 3, .ro, 0, 7⟩, ⟨23, 1, .ro, 0, 1⟩]⟩,
   ⟨0x0A4, 1, 4, 0x0, [⟨0, 5, .ro, 0, 31⟩, ⟨8, 9, .ro, 0, 511⟩, ⟨17, 15, .ro, 0, 32767⟩]⟩,
   ⟨0x0A8, 1, 4, 0x3FFFFFFF, [⟨0, 30, .ro, 0, 1073741823⟩]⟩,
   ⟨0x0AC, 1, 4, 0xFFFF, [⟨0, 8, .ro, 0, 255⟩, ⟨8, 8, .ro, 0, 255⟩]⟩,
   ⟨0x100, 6, 16, 0x0, [⟨0, 16, .rw, 0, 65535⟩, ⟨16, 16, .rw, 0, 65535⟩]⟩,
   ⟨0x104, 6, 16, 0x0, [⟨0, 16, .rw, 0, 65535⟩, ⟨16, 16, .rw, 0, 65535⟩]⟩] ++
  [⟨0x108, 6, 16, 0x0, [⟨0, 16, .rw, 0, 65535⟩, ⟨16, 4, .rw, 0, 8⟩, ⟨20, 2, .rw, 0, 2⟩, ⟨22, 1, .rw, 0, 1⟩]⟩,
   ⟨0x10C, 6, 16, 0x7FFF8000, [⟨0, 16, .rw, 0, 65535⟩, ⟨16, 16, .rw, 0, 65535⟩]⟩,
   ⟨0x200, 48, 4, 0x0, [⟨0, 32, .rw, 0, 4294967295⟩]⟩,
   ⟨0x2C0, 1, 4, 0x0, [⟨0, 16, .rw, 0, 65535⟩, ⟨16, 16, .rw, 0, 65535⟩]⟩,
   ⟨0x2C4, 1, 4, 0x0, [⟨0, 16, .rw, 0, 65535⟩, ⟨16, 16, .rw, 0, 65535⟩]⟩,
   ⟨0x2C8, 1, 4, 0x0, [⟨0, 4, .rw, 0, 8⟩, ⟨4, 4, .rw, 0, 8⟩, ⟨8, 4, .rw, 0, 8⟩, ⟨12, 4, .rw, 0, 8⟩, ⟨16, 4, .rw, 0, 8⟩]⟩,
   ⟨0x2CC, 1, 4, 0x7FFF8000, [⟨0, 16, .rw, 0, 65535⟩, ⟨16, 16, .rw, 0, 65535⟩]⟩,
   ⟨0x300, 27, 4, 0x0, [⟨0, 32, .ro, 0, 4294967295⟩]⟩]

/-- The registers of page class PWM. -/
def rowsPwm : List RegRow :=
  [⟨0x040, 1, 4, 0x280, [⟨0, 1, .rwl, 0, 1⟩, ⟨1, 1, .rwl, 0, 1⟩, ⟨2, 1, .rwl, 0, 1⟩, ⟨3, 1, .rwl, 0, 1⟩, ⟨4, 10, .rwl, 0, 1023⟩]⟩,
   ⟨0x044, 1, 4, 0x0, [⟨0, 3, .ro, 0, 7⟩, ⟨4, 5, .ro, 0, 31⟩, ⟨9, 1, .ro, 0, 1⟩, ⟨10, 1, .ro, 0, 1⟩]⟩,
   ⟨0x048, 1, 4, 0x0, [⟨0, 16, .rw, 0, 65535⟩]⟩,
   ⟨0x04C, 1, 4, 0x0, [⟨0, 16, .ro, 0, 65535⟩]⟩,
   ⟨0x050, 1, 4, 0x0, [⟨0, 19, .ro, 0, 524287⟩]⟩,
   ⟨0x054, 1, 4, 0x0, [⟨0, 19, .ro, 0, 524287⟩]⟩,
   ⟨0x058, 1, 4, 0x0, [⟨0, 20, .ro, 0, 1048575⟩, ⟨20, 3, .ro, 0, 7⟩, ⟨23, 1, .ro, 0, 1⟩, ⟨24, 5, .ro, 0, 31⟩]⟩,
   ⟨0x05C, 1, 4, 0x0, [⟨0, 2, .ro, 0, 3⟩]⟩,
   ⟨0x060, 1, 4, 0x0, [⟨0, 16, .ro, 0, 65535⟩]⟩]

/-- The registers of page class TRIP. -/
def rowsTrip : List RegRow :=
  [⟨0x040, 1, 4, 0x0, [⟨0, 8, .ro, 0, 255⟩, ⟨8, 8, .ro, 0, 255⟩, ⟨16, 1, .ro, 0, 1⟩]⟩,
   ⟨0x044, 1, 4, 0x0, [⟨0, 8, .wo, 0, 255⟩]⟩,
   ⟨0x048, 1, 4, 0x0, [⟨0, 8, .wo, 0, 255⟩]⟩,
   ⟨0x080, 8, 4, 0x0, [⟨0, 1, .rwl, 0, 1⟩, ⟨1, 1, .rwl, 0, 1⟩, ⟨2, 6, .rwl, 0, 63⟩, ⟨16, 16, .rwl, 0, 65535⟩]⟩,
   ⟨0x0A0, 8, 4, 0x0, [⟨0, 16, .ro, 0, 65535⟩]⟩]

/-- The registers of page class LOUPE. -/
def rowsLoupe : List RegRow :=
  [⟨0x040, 1, 4, 0xC48, [⟨0, 32, .ro, 0, 4294967295⟩]⟩,
   ⟨0x044, 1, 4, 0x1FF, [⟨0, 8, .ro, 0, 255⟩, ⟨8, 1, .ro, 0, 1⟩, ⟨9, 1, .ro, 0, 1⟩, ⟨10, 1, .ro, 0, 1⟩, ⟨11, 2, .ro, 0, 3⟩]⟩,
   ⟨0x048, 1, 4, 0x0, [⟨0, 16, .ro, 0, 65535⟩]⟩,
   ⟨0x04C, 1, 4, 0x20000, [⟨0, 22, .ro, 0, 4194303⟩]⟩,
   ⟨0x050, 1, 4, 0x8001FF11, [⟨0, 5, .ro, 0, 31⟩, ⟨8, 8, .ro, 0, 255⟩, ⟨16, 1, .ro, 0, 1⟩, ⟨31, 1, .ro, 0, 1⟩]⟩,
   ⟨0x054, 1, 4, 0x0, [⟨0, 32, .ro, 0, 4294967295⟩]⟩,
   ⟨0x058, 1, 4, 0x0, [⟨0, 32, .ro, 0, 4294967295⟩]⟩,
   ⟨0x05C, 1, 4, 0x0, [⟨0, 8, .wo, 0, 255⟩, ⟨8, 1, .wo, 0, 1⟩, ⟨16, 16, .wo, 0, 65535⟩]⟩,
   ⟨0x060, 1, 4, 0x0, [⟨0, 8, .wo, 0, 255⟩, ⟨8, 1, .wo, 0, 1⟩, ⟨16, 16, .wo, 0, 65535⟩]⟩,
   ⟨0x064, 1, 4, 0x0, [⟨0, 1, .wo, 0, 1⟩]⟩,
   ⟨0x068, 1, 4, 0x0, [⟨0, 32, .wo, 0, 4294967295⟩]⟩,
   ⟨0x06C, 1, 4, 0x0, [⟨0, 2, .ro, 0, 3⟩, ⟨16, 10, .ro, 0, 1023⟩]⟩] ++
  [⟨0x070, 1, 4, 0x0, [⟨0, 8, .ro, 0, 255⟩, ⟨8, 1, .ro, 0, 1⟩, ⟨16, 10, .ro, 0, 1023⟩]⟩,
   ⟨0x080, 8, 4, 0x1FF4200, [⟨0, 10, .rwl, 0, 1023⟩, ⟨10, 3, .rwl, 0, 7⟩, ⟨13, 1, .rwl, 0, 1⟩, ⟨14, 1, .rwl, 0, 1⟩, ⟨15, 1, .rwl, 0, 1⟩, ⟨16, 8, .rwl, 0, 255⟩, ⟨24, 1, .rwl, 0, 1⟩]⟩,
   ⟨0x0A0, 4, 4, 0x1FF0202, [⟨0, 8, .rwl, 2, 255⟩, ⟨8, 1, .rwl, 0, 1⟩, ⟨9, 1, .rwl, 0, 1⟩, ⟨16, 8, .rwl, 0, 255⟩, ⟨24, 1, .rwl, 0, 1⟩]⟩,
   ⟨0x0B0, 1, 4, 0x1FF0202, [⟨0, 8, .rwl, 2, 255⟩, ⟨8, 1, .rwl, 0, 1⟩, ⟨9, 1, .rwl, 0, 1⟩, ⟨10, 1, .rwl, 0, 1⟩, ⟨16, 8, .rwl, 0, 255⟩, ⟨24, 1, .rwl, 0, 1⟩]⟩,
   ⟨0x0B4, 1, 4, 0x3FE000C8, [⟨0, 1, .rwl, 0, 1⟩, ⟨1, 10, .rwl, 1, 1000⟩, ⟨11, 10, .rwl, 0, 1023⟩, ⟨21, 8, .rwl, 0, 255⟩, ⟨29, 1, .rwl, 0, 1⟩]⟩,
   ⟨0x0B8, 1, 4, 0x0, [⟨0, 10, .rwl, 0, 1000⟩]⟩,
   ⟨0x0BC, 1, 4, 0x0, [⟨0, 32, .rwl, 0, 4294967295⟩]⟩,
   ⟨0x0C0, 8, 4, 0x0, [⟨0, 16, .rwl, 0, 65535⟩, ⟨16, 8, .rwl, 0, 255⟩]⟩]

/-- The registers of page class CLNK. -/
def rowsClnk : List RegRow :=
  [⟨0x040, 1, 4, 0x0, [⟨0, 3, .ro, 0, 7⟩, ⟨3, 2, .ro, 0, 3⟩, ⟨5, 1, .ro, 0, 1⟩, ⟨6, 1, .ro, 0, 1⟩, ⟨7, 1, .ro, 0, 1⟩, ⟨8, 4, .ro, 0, 15⟩, ⟨16, 16, .ro, 0, 65535⟩]⟩,
   ⟨0x044, 1, 4, 0x0, [⟨0, 1, .rw, 0, 1⟩, ⟨1, 1, .wo, 0, 1⟩]⟩,
   ⟨0x048, 1, 4, 0x7D01388, [⟨0, 16, .rwl, 0, 65535⟩, ⟨16, 16, .rwl, 0, 65535⟩]⟩,
   ⟨0x04C, 1, 4, 0x4, [⟨0, 8, .rwl, 0, 255⟩]⟩,
   ⟨0x050, 1, 4, 0x0, [⟨0, 4, .ro, 0, 15⟩, ⟨16, 16, .ro, 0, 65535⟩]⟩,
   ⟨0x080, 16, 4, 0x0, [⟨0, 32, .ro, 0, 4294967295⟩]⟩,
   ⟨0x0C0, 8, 4, 0x0, [⟨0, 16, .ro, 0, 65535⟩, ⟨16, 16, .ro, 0, 65535⟩]⟩,
   ⟨0x100, 64, 4, 0x0, [⟨0, 32, .ro, 0, 4294967295⟩]⟩,
   ⟨0x200, 32, 4, 0x0, [⟨0, 32, .ro, 0, 4294967295⟩]⟩,
   ⟨0x300, 8, 16, 0x0, [⟨0, 3, .ro, 0, 7⟩, ⟨8, 8, .ro, 0, 255⟩, ⟨16, 5, .ro, 0, 31⟩, ⟨24, 5, .ro, 0, 31⟩]⟩,
   ⟨0x304, 8, 16, 0x0, [⟨0, 16, .ro, 0, 65535⟩, ⟨16, 16, .ro, 0, 65535⟩]⟩,
   ⟨0x308, 8, 16, 0x0, [⟨0, 16, .ro, 0, 65535⟩, ⟨16, 16, .ro, 0, 65535⟩]⟩] ++
  [⟨0x30C, 8, 16, 0x0, [⟨0, 16, .ro, 0, 65535⟩, ⟨16, 16, .ro, 0, 65535⟩]⟩,
   ⟨0x380, 1, 4, 0x0, [⟨0, 6, .ro, 0, 63⟩, ⟨16, 16, .ro, 0, 65535⟩]⟩,
   ⟨0x384, 1, 4, 0x0, [⟨0, 32, .ro, 0, 4294967295⟩]⟩]

/-- The registers of page class CLNKG. -/
def rowsClnkg : List RegRow :=
  [⟨0x040, 1, 4, 0x0, [⟨0, 4, .ro, 0, 15⟩, ⟨8, 8, .ro, 0, 255⟩, ⟨16, 9, .ro, 0, 511⟩]⟩,
   ⟨0x044, 1, 4, 0x0, [⟨0, 8, .ro, 0, 255⟩]⟩,
   ⟨0x048, 1, 4, 0x0, [⟨0, 8, .ro, 0, 255⟩]⟩,
   ⟨0x04C, 1, 4, 0x0, [⟨0, 8, .ro, 0, 255⟩, ⟨8, 1, .ro, 0, 1⟩]⟩,
   ⟨0x050, 1, 4, 0x0, [⟨0, 8, .ro, 0, 255⟩]⟩,
   ⟨0x100, 128, 4, 0x0, [⟨0, 32, .rwl, 0, 4294967295⟩]⟩]

/-- The registers of page class SERVE. -/
def rowsServe : List RegRow :=
  [⟨0x040, 1, 4, 0x0, [⟨0, 5, .ro, 0, 31⟩, ⟨5, 7, .ro, 0, 127⟩, ⟨12, 4, .ro, 0, 15⟩, ⟨16, 11, .ro, 0, 2047⟩]⟩,
   ⟨0x044, 1, 4, 0x1, [⟨0, 1, .rw, 0, 1⟩]⟩,
   ⟨0x048, 1, 4, 0x0, [⟨0, 32, .rw, 0, 4294967295⟩]⟩,
   ⟨0x04C, 1, 4, 0x0, [⟨0, 32, .rw, 0, 4294967295⟩]⟩,
   ⟨0x050, 1, 4, 0x0, [⟨0, 32, .rw, 0, 4294967295⟩]⟩,
   ⟨0x054, 1, 4, 0x0, [⟨0, 32, .rw, 0, 4294967295⟩]⟩,
   ⟨0x058, 1, 4, 0x0, [⟨0, 32, .rw, 0, 4294967295⟩]⟩,
   ⟨0x05C, 1, 4, 0x0, [⟨0, 32, .rw, 0, 4294967295⟩]⟩,
   ⟨0x060, 1, 4, 0x0, [⟨0, 20, .rw, 0, 1048575⟩]⟩,
   ⟨0x064, 1, 4, 0x0, [⟨0, 20, .ro, 0, 1048575⟩]⟩,
   ⟨0x068, 1, 4, 0x0, [⟨0, 20, .ro, 0, 1048575⟩]⟩,
   ⟨0x100, 8, 16, 0x0, [⟨0, 16, .rw, 0, 65535⟩, ⟨16, 1, .rw, 0, 1⟩, ⟨17, 1, .rw, 0, 1⟩]⟩] ++
  [⟨0x104, 8, 16, 0x0, [⟨0, 3, .ro, 0, 7⟩, ⟨16, 11, .ro, 0, 2047⟩]⟩,
   ⟨0x108, 8, 16, 0x0, [⟨0, 32, .ro, 0, 4294967295⟩]⟩,
   ⟨0x10C, 8, 16, 0x0, [⟨0, 32, .ro, 0, 4294967295⟩]⟩]

/-- The registers of page class LENS. -/
def rowsLens : List RegRow :=
  [⟨0x040, 1, 4, 0x0, [⟨0, 12, .ro, 0, 4095⟩]⟩,
   ⟨0x044, 1, 4, 0xF, [⟨0, 4, .rw, 0, 15⟩]⟩,
   ⟨0x048, 1, 4, 0x0, [⟨0, 3, .ro, 0, 7⟩, ⟨3, 1, .ro, 0, 1⟩]⟩,
   ⟨0x04C, 1, 4, 0x0, [⟨0, 16, .ro, 0, 65535⟩]⟩]

/-- The registers of page class RQT. -/
def rowsRqt : List RegRow :=
  [⟨0x040, 1, 4, 0x0, [⟨0, 11, .ro, 0, 2047⟩, ⟨16, 11, .ro, 0, 2047⟩]⟩,
   ⟨0x044, 1, 4, 0x0, [⟨0, 10, .ro, 0, 1023⟩]⟩,
   ⟨0x048, 1, 4, 0x0, [⟨0, 10, .rw, 0, 1023⟩]⟩,
   ⟨0x04C, 1, 4, 0x0, [⟨0, 16, .ro, 0, 65535⟩]⟩,
   ⟨0x100, 32, 4, 0x0, [⟨0, 32, .ro, 0, 4294967295⟩]⟩]

/-- The registers of page class PREFIX. -/
def rowsPrefix : List RegRow :=
  [⟨0x040, 1, 4, 0x1, [⟨0, 1, .rw, 0, 1⟩]⟩,
   ⟨0x044, 1, 4, 0x0, [⟨0, 32, .rw, 0, 4294967295⟩]⟩,
   ⟨0x048, 1, 4, 0x0, [⟨0, 32, .rw, 0, 4294967295⟩]⟩,
   ⟨0x04C, 1, 4, 0x0, [⟨0, 21, .rw, 0, 2097151⟩]⟩,
   ⟨0x050, 1, 4, 0x0, [⟨0, 21, .ro, 0, 2097151⟩]⟩,
   ⟨0x054, 1, 4, 0x0, [⟨0, 32, .ro, 0, 4294967295⟩]⟩,
   ⟨0x058, 1, 4, 0x0, [⟨0, 32, .ro, 0, 4294967295⟩]⟩,
   ⟨0x05C, 1, 4, 0x0, [⟨0, 32, .ro, 0, 4294967295⟩]⟩,
   ⟨0x060, 1, 4, 0x0, [⟨0, 32, .ro, 0, 4294967295⟩]⟩]

/-- The registers of page class MASK. -/
def rowsMask : List RegRow :=
  [⟨0x040, 1, 4, 0xC121020, [⟨0, 32, .ro, 0, 4294967295⟩]⟩,
   ⟨0x044, 1, 4, 0x0, [⟨0, 32, .ro, 0, 4294967295⟩]⟩,
   ⟨0x100, 32, 8, 0x0, [⟨0, 2, .ro, 0, 3⟩, ⟨2, 2, .ro, 0, 3⟩, ⟨16, 10, .ro, 0, 1023⟩]⟩,
   ⟨0x104, 32, 8, 0x0, [⟨0, 16, .ro, 0, 65535⟩, ⟨16, 12, .ro, 0, 4095⟩]⟩]

/-- The registers of page class SAMPLER. -/
def rowsSampler : List RegRow :=
  [⟨0x040, 1, 4, 0x40, [⟨0, 7, .ro, 0, 127⟩]⟩,
   ⟨0x044, 1, 4, 0x0, [⟨0, 32, .ro, 0, 4294967295⟩]⟩,
   ⟨0x048, 1, 4, 0x0, [⟨0, 32, .wo, 0, 4294967295⟩]⟩,
   ⟨0x04C, 1, 4, 0x0, [⟨0, 32, .wo, 0, 4294967295⟩]⟩,
   ⟨0x100, 8, 16, 0x400, [⟨0, 1, .rw, 0, 1⟩, ⟨1, 1, .rw, 0, 1⟩, ⟨2, 9, .rw, 1, 256⟩, ⟨16, 8, .rw, 0, 255⟩]⟩,
   ⟨0x104, 8, 16, 0xC0201000, [⟨0, 16, .rw, 16, 65535⟩, ⟨16, 8, .rw, 0, 255⟩, ⟨24, 8, .rw, 0, 255⟩]⟩,
   ⟨0x108, 8, 16, 0x200, [⟨0, 17, .rw, 16, 65536⟩]⟩,
   ⟨0x10C, 8, 16, 0x70, [⟨0, 8, .ro, 0, 255⟩]⟩,
   ⟨0x200, 64, 16, 0x7FFFFFFF, [⟨0, 32, .rw, 0, 2147483647⟩]⟩,
   ⟨0x204, 64, 16, 0x7FFFFFFF, [⟨0, 32, .rw, 1, 2147483647⟩]⟩,
   ⟨0x208, 64, 16, 0xFFFF, [⟨0, 16, .rw, 0, 65535⟩]⟩,
   ⟨0x20C, 64, 16, 0x7FFFFFFF, [⟨0, 32, .ro, 0, 4294967295⟩]⟩]

/-- The registers of page class DRAFT. -/
def rowsDraft : List RegRow :=
  [⟨0x040, 1, 4, 0x1, [⟨0, 1, .rw, 0, 1⟩]⟩,
   ⟨0x048, 1, 4, 0x0, [⟨0, 32, .rw, 0, 4294967295⟩]⟩,
   ⟨0x04C, 1, 4, 0x0, [⟨0, 32, .rw, 0, 4294967295⟩]⟩,
   ⟨0x050, 1, 4, 0x0, [⟨0, 24, .rw, 0, 16777215⟩]⟩,
   ⟨0x054, 1, 4, 0x0, [⟨0, 32, .ro, 0, 4294967295⟩]⟩,
   ⟨0x058, 1, 4, 0x0, [⟨0, 32, .ro, 0, 4294967295⟩]⟩,
   ⟨0x100, 8, 4, 0x0, [⟨0, 3, .rw, 0, 7⟩, ⟨3, 1, .rw, 0, 1⟩, ⟨4, 4, .rw, 0, 8⟩, ⟨8, 1, .ro, 0, 1⟩]⟩]

/-- The registers of page class MEMC. -/
def rowsMemc : List RegRow :=
  [⟨0x040, 1, 4, 0x4, [⟨0, 3, .rwl, 0, 4⟩]⟩,
   ⟨0x044, 1, 4, 0x0, [⟨0, 1, .wo, 0, 1⟩]⟩,
   ⟨0x048, 1, 4, 0x0, [⟨0, 1, .ro, 0, 1⟩, ⟨1, 1, .ro, 0, 1⟩, ⟨2, 1, .ro, 0, 1⟩, ⟨8, 16, .ro, 0, 65535⟩]⟩,
   ⟨0x04C, 1, 4, 0x40, [⟨0, 16, .rw, 0, 65535⟩]⟩,
   ⟨0x050, 1, 4, 0x0, [⟨0, 16, .ro, 0, 65535⟩, ⟨16, 16, .ro, 0, 65535⟩]⟩,
   ⟨0x054, 1, 4, 0x0, [⟨0, 16, .ro, 0, 65535⟩, ⟨16, 16, .ro, 0, 65535⟩]⟩,
   ⟨0x058, 1, 4, 0x10, [⟨0, 16, .rw, 0, 65535⟩]⟩,
   ⟨0x05C, 1, 4, 0x0, [⟨0, 32, .ro, 0, 4294967295⟩]⟩,
   ⟨0x060, 1, 4, 0x0, [⟨0, 32, .ro, 0, 4294967295⟩]⟩,
   ⟨0x064, 1, 4, 0x0, [⟨0, 16, .ro, 0, 65535⟩, ⟨16, 16, .ro, 0, 65535⟩]⟩,
   ⟨0x068, 1, 4, 0x0, [⟨0, 1, .wo, 0, 1⟩]⟩,
   ⟨0x06C, 1, 4, 0x0, [⟨0, 8, .ro, 0, 255⟩]⟩] ++
  [⟨0x100, 1, 4, 0x0, [⟨0, 32, .rw, 0, 4294967295⟩]⟩,
   ⟨0x104, 1, 4, 0x0, [⟨0, 32, .rw, 0, 4294967295⟩]⟩,
   ⟨0x108, 1, 4, 0x0, [⟨0, 14, .rw, 0, 16383⟩]⟩,
   ⟨0x10C, 1, 4, 0x0, [⟨0, 14, .ro, 0, 16383⟩]⟩,
   ⟨0x110, 1, 4, 0x0, [⟨0, 8, .rw, 0, 255⟩]⟩,
   ⟨0x114, 1, 4, 0x0, [⟨0, 16, .ro, 0, 65535⟩, ⟨16, 16, .ro, 0, 65535⟩]⟩,
   ⟨0x118, 1, 4, 0x0, [⟨0, 16, .ro, 0, 65535⟩, ⟨16, 16, .ro, 0, 65535⟩]⟩,
   ⟨0x11C, 1, 4, 0x0, [⟨0, 24, .ro, 0, 16777215⟩, ⟨24, 8, .ro, 0, 255⟩]⟩,
   ⟨0x120, 1, 4, 0x10, [⟨0, 16, .rw, 0, 65535⟩]⟩,
   ⟨0x124, 1, 4, 0x0, [⟨0, 1, .wo, 0, 1⟩, ⟨1, 1, .wo, 0, 1⟩]⟩,
   ⟨0x128, 1, 4, 0x0, [⟨0, 32, .ro, 0, 4294967295⟩]⟩]

/-- The registers of page class MEMCAL. -/
def rowsMemcal : List RegRow :=
  [⟨0x040, 1, 4, 0x300000, [⟨0, 5, .ro, 0, 31⟩, ⟨16, 8, .ro, 0, 255⟩]⟩,
   ⟨0x044, 1, 4, 0x204048, [⟨0, 8, .ro, 0, 255⟩, ⟨8, 8, .ro, 0, 255⟩, ⟨16, 8, .ro, 0, 255⟩]⟩,
   ⟨0x080, 16, 4, 0x0, [⟨0, 20, .ro, 0, 1048575⟩, ⟨20, 12, .ro, 0, 4095⟩]⟩]

/-- The registers of page class RTU. -/
def rowsRtu : List RegRow :=
  [⟨0x040, 1, 4, 0x0, [⟨0, 5, .ro, 0, 31⟩, ⟨8, 1, .ro, 0, 1⟩, ⟨9, 3, .ro, 0, 7⟩, ⟨16, 16, .ro, 0, 65535⟩]⟩,
   ⟨0x044, 1, 4, 0x0, [⟨0, 3, .ro, 0, 7⟩, ⟨3, 1, .ro, 0, 1⟩, ⟨4, 1, .ro, 0, 1⟩, ⟨8, 8, .ro, 0, 255⟩, ⟨16, 7, .ro, 0, 127⟩]⟩,
   ⟨0x048, 1, 4, 0x0, [⟨0, 16, .ro, 0, 65535⟩, ⟨16, 16, .ro, 0, 65535⟩]⟩,
   ⟨0x04C, 1, 4, 0x0, [⟨0, 32, .ro, 0, 4294967295⟩]⟩,
   ⟨0x050, 1, 4, 0x0, [⟨0, 32, .ro, 0, 4294967295⟩]⟩,
   ⟨0x054, 1, 4, 0x0, [⟨0, 17, .ro, 0, 131071⟩]⟩,
   ⟨0x058, 1, 4, 0x0, [⟨0, 17, .ro, 0, 131071⟩]⟩,
   ⟨0x05C, 1, 4, 0x1, [⟨0, 16, .rwl, 0, 65535⟩]⟩,
   ⟨0x060, 1, 4, 0x0, [⟨0, 24, .rwl, 0, 16777215⟩]⟩,
   ⟨0x064, 1, 4, 0x0, [⟨0, 16, .rwl, 0, 65535⟩]⟩,
   ⟨0x068, 1, 4, 0x0, [⟨0, 16, .rwl, 0, 65535⟩]⟩,
   ⟨0x06C, 1, 4, 0x0, [⟨0, 24, .rwl, 0, 16777215⟩]⟩] ++
  [⟨0x070, 1, 4, 0x0, [⟨0, 24, .rwl, 0, 16777215⟩]⟩,
   ⟨0x074, 1, 4, 0x0, [⟨0, 24, .rwl, 0, 16777215⟩]⟩,
   ⟨0x078, 1, 4, 0x8, [⟨0, 8, .rwl, 0, 255⟩]⟩,
   ⟨0x07C, 1, 4, 0x0, [⟨0, 12, .ro, 0, 4095⟩, ⟨16, 16, .ro, 0, 65535⟩]⟩,
   ⟨0x080, 1, 4, 0x0, [⟨0, 32, .ro, 0, 4294967295⟩]⟩,
   ⟨0x084, 1, 4, 0x0, [⟨0, 16, .ro, 0, 65535⟩, ⟨16, 8, .ro, 0, 255⟩, ⟨24, 4, .ro, 0, 15⟩]⟩,
   ⟨0x088, 1, 4, 0x0, [⟨0, 32, .ro, 0, 4294967295⟩]⟩,
   ⟨0x08C, 1, 4, 0x0, [⟨0, 32, .ro, 0, 4294967295⟩]⟩,
   ⟨0x090, 1, 4, 0x0, [⟨0, 16, .ro, 0, 65535⟩, ⟨16, 16, .ro, 0, 65535⟩]⟩]

/-- The registers of page class PMU. -/
def rowsPmu : List RegRow :=
  [⟨0x040, 1, 4, 0x0, [⟨0, 2, .rw, 0, 3⟩]⟩,
   ⟨0x044, 1, 4, 0x0, [⟨0, 2, .ro, 0, 3⟩, ⟨2, 3, .ro, 0, 7⟩, ⟨16, 11, .ro, 0, 2047⟩]⟩,
   ⟨0x048, 1, 4, 0x320, [⟨0, 20, .rw, 0, 1048575⟩]⟩,
   ⟨0x04C, 1, 4, 0x0, [⟨0, 32, .ro, 0, 4294967295⟩]⟩,
   ⟨0x050, 1, 4, 0x0, [⟨0, 32, .ro, 0, 4294967295⟩]⟩,
   ⟨0x054, 1, 4, 0x0, [⟨0, 3, .ro, 0, 7⟩]⟩,
   ⟨0x058, 1, 4, 0x0, [⟨0, 16, .ro, 0, 65535⟩, ⟨16, 16, .ro, 0, 65535⟩]⟩,
   ⟨0x05C, 1, 4, 0x0, [⟨0, 8, .ro, 0, 255⟩]⟩,
   ⟨0x060, 4, 8, 0x0, [⟨0, 32, .rw, 0, 4294967295⟩]⟩,
   ⟨0x064, 4, 8, 0x0, [⟨0, 32, .rw, 0, 4294967295⟩]⟩,
   ⟨0x080, 1, 4, 0x0, [⟨0, 4, .w1c, 0, 15⟩]⟩,
   ⟨0x084, 1, 4, 0x56473, [⟨0, 8, .rwl, 100, 125⟩, ⟨8, 8, .rwl, 60, 105⟩, ⟨16, 4, .rwl, 1, 15⟩]⟩] ++
  [⟨0x088, 1, 4, 0x0, [⟨0, 8, .ro, 0, 255⟩]⟩,
   ⟨0x08C, 1, 4, 0x808, [⟨0, 4, .rw, 1, 8⟩, ⟨8, 4, .ro, 0, 15⟩]⟩,
   ⟨0x090, 1, 4, 0x0, [⟨0, 16, .ro, 0, 65535⟩]⟩,
   ⟨0x094, 1, 4, 0x0, [⟨0, 8, .wo, 0, 255⟩, ⟨16, 16, .wo, 0, 65535⟩]⟩,
   ⟨0x098, 1, 4, 0x0, [⟨0, 16, .ro, 0, 65535⟩]⟩]

/-- The registers of page class TKU. -/
def rowsTku : List RegRow :=
  [⟨0x040, 1, 4, 0x2006C8, [⟨0, 32, .ro, 0, 4294967295⟩]⟩,
   ⟨0x044, 1, 4, 0x0, [⟨0, 32, .ro, 0, 4294967295⟩]⟩,
   ⟨0x048, 1, 4, 0x0, [⟨0, 32, .ro, 0, 4294967295⟩]⟩,
   ⟨0x04C, 1, 4, 0x0, [⟨0, 6, .ro, 0, 63⟩, ⟨16, 16, .ro, 0, 65535⟩]⟩,
   ⟨0x050, 1, 4, 0x0, [⟨0, 8, .ro, 0, 255⟩, ⟨8, 12, .ro, 0, 4095⟩, ⟨20, 1, .ro, 0, 1⟩, ⟨21, 1, .ro, 0, 1⟩]⟩,
   ⟨0x054, 1, 4, 0x0, [⟨0, 12, .ro, 0, 4095⟩]⟩,
   ⟨0x058, 1, 4, 0x0, [⟨0, 24, .rwl, 0, 16777215⟩]⟩,
   ⟨0x05C, 1, 4, 0x0, [⟨1, 12, .rwl, 0, 4095⟩]⟩,
   ⟨0x060, 1, 4, 0x0, [⟨0, 1, .wo, 0, 1⟩, ⟨1, 1, .wo, 0, 1⟩, ⟨2, 1, .wo, 0, 1⟩]⟩,
   ⟨0x080, 8, 4, 0x144C, [⟨0, 1, .rwl, 0, 1⟩, ⟨1, 1, .rwl, 0, 1⟩, ⟨2, 6, .rwl, 0, 63⟩, ⟨8, 8, .rwl, 0, 255⟩, ⟨16, 8, .rwl, 0, 255⟩, ⟨24, 8, .rwl, 0, 255⟩]⟩,
   ⟨0x0A0, 1, 4, 0x1E260A, [⟨0, 6, .rwl, 1, 50⟩, ⟨8, 4, .rwl, 2, 12⟩, ⟨12, 4, .rwl, 1, 15⟩, ⟨16, 8, .rwl, 0, 255⟩]⟩,
   ⟨0x0A4, 1, 4, 0x0, [⟨0, 4, .rwl, 0, 15⟩, ⟨4, 1, .rwl, 0, 1⟩, ⟨16, 16, .rwl, 0, 65535⟩]⟩] ++
  [⟨0x0C0, 12, 8, 0x190, [⟨0, 16, .rwl, 0, 65535⟩, ⟨16, 16, .rwl, 0, 65535⟩]⟩,
   ⟨0x0C4, 12, 8, 0xC80040, [⟨0, 12, .rwl, 0, 4095⟩, ⟨12, 1, .rwl, 0, 1⟩, ⟨13, 1, .rwl, 0, 1⟩, ⟨16, 16, .rwl, 0, 65535⟩]⟩,
   ⟨0x140, 12, 8, 0x0, [⟨0, 16, .ro, 0, 65535⟩, ⟨16, 16, .ro, 0, 65535⟩]⟩,
   ⟨0x144, 12, 8, 0x0, [⟨0, 16, .ro, 0, 65535⟩, ⟨16, 2, .ro, 0, 3⟩, ⟨18, 1, .ro, 0, 1⟩, ⟨19, 1, .ro, 0, 1⟩]⟩,
   ⟨0x1C0, 2, 4, 0x1, [⟨0, 1, .rwl, 0, 1⟩]⟩,
   ⟨0x1C8, 2, 4, 0x0, [⟨0, 1, .ro, 0, 1⟩, ⟨2, 2, .ro, 0, 3⟩, ⟨4, 2, .ro, 0, 3⟩, ⟨8, 8, .ro, 0, 255⟩, ⟨16, 8, .ro, 0, 255⟩]⟩,
   ⟨0x1D0, 1, 4, 0x4C, [⟨0, 1, .rwl, 0, 1⟩, ⟨1, 1, .rwl, 0, 1⟩, ⟨2, 6, .rwl, 0, 63⟩]⟩]

end Sys2Proof.Machine
end

