-- ==== Sys2Proof/Machine/PageMap.lean ====
section
/-! DEFINITION. The pages of BAR0: which class a page has on a part (Tables 0.4 and 3.2), its rows, its reset values (R73, R75,
R76 and the register tables), its view (R87) and what its header accepts (chapters 3 to 18, "Register page"). -/

namespace Sys2Proof.Machine

/-- First page of each class. -/
def PageClass.first : PageClass → Nat
  | .chip => 0x000 | .ptb => 0x001 | .pmu => 0x002 | .rst => 0x003 | .rtu => 0x004 | .tku => 0x005 | .loupe => 0x006
  | .memc => 0x008 | .memcal => 0x009 | .part => 0x010 | .loopg => 0x020 | .ch => 0x040 | .pwm => 0x060 | .trip => 0x070
  | .clnk => 0x080 | .clnkg => 0x088 | .ft => 0x100 | .fmap => 0x150 | .solv => 0x180 | .serve => 0x200 | .lens => 0x210
  | .rqt => 0x220 | .mask => 0x221 | .prefixIx => 0x222 | .sampler => 0x223 | .draft => 0x224 | .qeg => 0x230 | .qp => 0x400
  | .mirror => 0x800

/-- Named pages. -/
abbrev pgChip : Nat := 0x000
abbrev pgPtb : Nat := 0x001
abbrev pgPmu : Nat := 0x002
abbrev pgRst : Nat := 0x003
abbrev pgRtu : Nat := 0x004
abbrev pgTku : Nat := 0x005
abbrev pgLoupe : Nat := 0x006
abbrev pgMemc : Nat := 0x008
abbrev pgPart : Nat := 0x010
abbrev pgLoopG : Nat := 0x020
abbrev pgCh : Nat := 0x040
abbrev pgPwm : Nat := 0x060
abbrev pgTrip : Nat := 0x070
abbrev pgClnk : Nat := 0x080
abbrev pgClnkG : Nat := 0x088
abbrev pgFt : Nat := 0x100
abbrev pgFmap : Nat := 0x150
abbrev pgSolv : Nat := 0x180
abbrev pgServe : Nat := 0x200
abbrev pgLens : Nat := 0x210
abbrev pgRqt : Nat := 0x220
abbrev pgMask : Nat := 0x221
abbrev pgPrefix : Nat := 0x222
abbrev pgSampler : Nat := 0x223
abbrev pgDraft : Nat := 0x224
abbrev pgQe : Nat := 0x230
abbrev pgQp : Nat := 0x400

/-- The class of a present page; none where the page is absent or unassigned (R4, R72). -/
def classOf (v : Variant) (p : Nat) : Option PageClass :=
  if p = 0 then some .chip else if p = 1 then some .ptb else if p = 2 then some .pmu else if p = 3 then some .rst
  else if p = 4 then some .rtu else if p = 5 then some .tku else if p = 6 then some .loupe
  else if p < 0x008 then none
  else if p < 0x008 + 2 * v.memcChannels then (if p % 2 = 0 then some .memc else some .memcal)
  else if p < 0x010 then none
  else if p < 0x010 + v.partitions then some .part
  else if p < 0x020 then none
  else if p = 0x020 then some .loopg
  else if p < 0x040 then none
  else if p < 0x040 + v.loopChannels then some .ch
  else if p < 0x060 then none
  else if p < 0x060 + v.pwmPairs then some .pwm
  else if p = 0x070 then some .trip
  else if p < 0x080 then none
  else if p < 0x080 + v.clnkPorts then some .clnk
  else if p = 0x088 then some .clnkg
  else if p < 0x100 then none
  else if p < 0x100 + v.facetTiles then some .ft
  else if p = 0x150 then some .fmap
  else if p = 0x180 then some .solv
  else if p < 0x200 then none
  else if p = 0x230 then some .qeg
  else if p < 0x400 then
    (if v.serve then
      (if p = 0x200 then some .serve
       else if 0x210 ≤ p ∧ p < 0x210 + v.lensClusters then some .lens
       else if p = 0x220 then some .rqt else if p = 0x221 then some .mask else if p = 0x222 then some .prefixIx
       else if p = 0x223 then some .sampler else if p = 0x224 then some .draft else none)
     else none)
  else if p < 0x800 then some .qp
  else if p < 0x810 then some .mirror
  else none

/-- The class code of Table 3.2 (R73). -/
def classCode (c : PageClass) (p : Nat) : Nat :=
  match c with
  | .chip => 1 | .ptb => 2 | .pmu => 3 | .rst => 4 | .rtu => 5 | .tku => 6 | .loupe => 7 | .memc => 8 | .memcal => 8
  | .part => 0x10 | .loopg => 0x20 | .ch => 0x21 | .pwm => 0x22 | .trip => 0x23 | .clnk => 0x30 | .clnkg => 0x31
  | .ft => 0x50 | .fmap => 0x51 | .solv => 0x58 | .serve => 0x60 | .lens => 0x61 | .rqt => 0x62 | .mask => 0x63
  | .prefixIx => 0x64 | .sampler => 0x65 | .draft => 0x66 | .qeg => 0x70 | .qp => 0x80 + (p - 0x400) / 256 | .mirror => 0

/-- PG_ID.INSTANCE (R73). -/
def instanceOf (c : PageClass) (p : Nat) : Nat :=
  match c with
  | .memcal => (p - 0x008) % 256
  | _ => (p - PageClass.first c) % 256

/-- The domain of a class (Table 3.2); CLNK port pages count as Plan pages (R88, R148). -/
def domainOf : PageClass → Domain
  | .ptb | .loopg | .ch | .pwm | .trip | .clnk | .ft | .fmap | .solv | .mirror => .plan
  | .serve | .lens | .rqt | .mask | .prefixIx | .sampler | .draft | .qeg | .qp => .serve
  | _ => .system

/-- The registers of a class beyond the common header. -/
def rowsOf : PageClass → List RegRow
  | .chip => rowsChip | .ptb => rowsPtb | .pmu => rowsPmu | .rst => rowsRst | .rtu => rowsRtu | .tku => rowsTku
  | .loupe => rowsLoupe | .memc => rowsMemc | .memcal => rowsMemcal | .part => rowsPart | .loopg => rowsLoopg | .ch => rowsCh
  | .pwm => rowsPwm | .trip => rowsTrip | .clnk => rowsClnk | .clnkg => rowsClnkg | .ft => rowsFt | .fmap => rowsFmap
  | .solv => rowsSolv | .serve => rowsServe | .lens => rowsLens | .rqt => rowsRqt | .mask => rowsMask | .prefixIx => rowsPrefix
  | .sampler => rowsSampler | .draft => rowsDraft | .qeg => rowsQeg | .qp => [] | .mirror => []

/-- The row that holds an offset. -/
def findRow (rows : List RegRow) (off : Nat) : Option RegRow :=
  rows.find? fun r => decide (r.off ≤ off) && decide (off < r.off + r.num * r.stride) && decide ((off - r.off) % r.stride = 0)

/-- The offset inside its queue pair's block of an offset of a queue configuration page, and whether it is the odd pair's
("QE queue configuration pages"). -/
def qpBlock (off : Nat) : Option (Bool × Nat) :=
  if 0x100 ≤ off ∧ off < 0x200 then some (false, off - 0x100)
  else if 0x200 ≤ off ∧ off < 0x300 then some (true, off - 0x200) else none

/-- The register row of an offset of a page of a class, the header included. -/
def rowAt (c : PageClass) (p off : Nat) : Option RegRow :=
  if c = .mirror then none
  else if off < 0x40 then findRow rowsHdr off
  else if c = .qp then (match qpBlock off with | some (_, o) => findRow rowsQp o | none => none)
  else if c = .memc ∧ p ≠ 0x008 ∧ 0x100 ≤ off then none
  else findRow (rowsOf c) off

/-- PG_CAP.BLOCK as built ("Register page" of each chapter). The MEMC control page's bits are found by training (R75). -/
def capBlock (v : Variant) (c : PageClass) (p : Nat) : Nat :=
  match c with
  | .ptb => v.pick 70 54 36 + 256
  | .rst => 1
  | .part => (p - 0x010) + (if p = 0x010 then 16 else 0)
  | .ch => p - 0x040
  | .pwm => p - 0x060
  | .trip => 8
  | .loupe => 0xC48
  | .clnk => p - 0x080
  | .clnkg => v.clnkPorts
  | .ft => 256 + 64 * 2 ^ 10 + 4 * 2 ^ 17 + 2 * 2 ^ 22 + (p - 0x100) * 2 ^ 24
  | .fmap => v.facetExposed
  | .solv => 32 + 16 * 2 ^ 6
  | .serve => v.lensClusters
  | .lens => (p - 0x210) + 4 * 16
  | .rqt => 1024
  | .mask => 32
  | .prefixIx => 0xFFFFF
  | .sampler => 64
  | .draft => 8
  | .qeg => 512
  | .rtu => 3
  | .pmu => 3 + 8
  | .tku => 0x6C8
  | _ => 0

/-- Bits of PG_CTRL that a write can change ("Register page" of each chapter; assumption 4). -/
def ctrlWritable : PageClass → Nat
  | .ch | .pwm | .clnk => 5
  | .ft | .lens | .memc => 4
  | .part => 2
  | .ptb | .qeg | .qp => 3
  | _ => 0

/-- PG_CTRL after reset: ENABLE as each page gives it, IN_SERVICE 1. -/
def ctrlReset : PageClass → Nat
  | .ch | .pwm => 4
  | _ => 5

/-- The interrupt causes a page defines, ERR left out ("Register page" of each chapter). -/
def irqDefined : PageClass → Nat
  | .ptb => 3 | .rst => 1 | .part => 7 | .ft => 1 | .fmap => 7 | .solv => 7 | .loopg => 3 | .ch => 7 | .pwm => 3 | .trip => 3
  | .loupe => 15 | .clnk => 31 | .clnkg => 1 | .serve => 1 | .lens => 1 | .rqt => 1 | .mask => 1 | .sampler => 1 | .draft => 1
  | .memc => 15 | .rtu => 15 | .pmu => 7 | .tku => 3 | .qp => 3
  | _ => 0

/-- CHIP_CAP0 (Table 3.6). -/
def chipCap0 (v : Variant) : Nat :=
  v.facetExposed + v.facetSpare * 2 ^ 8 + v.lensClusters * 2 ^ 16 + v.loopChannels * 2 ^ 21 + v.pwmPairs * 2 ^ 27

/-- CHIP_CAP1 (Table 3.6). -/
def chipCap1 (v : Variant) : Nat :=
  v.clnkPorts + v.memcChannels * 2 ^ 4 + v.partitions * 2 ^ 6 + (if v.serve then 0x7800 else 0) + 2048 * 2 ^ 16

/-- FMAP_MAP word w as manufactured: position p on physical tile p (assumption 5). -/
def fmapWord (v : Variant) (w : Nat) : Nat :=
  let byte := fun k => let p := 4 * w + k; if p < v.facetExposed then p + 128 else 0
  byte 0 + byte 1 * 2 ^ 8 + byte 2 * 2 ^ 16 + byte 3 * 2 ^ 24

/-- FMAP_SPARE word w as manufactured: the spares are the last physical tiles (assumption 5). -/
def fmapSpare (v : Variant) (w : Nat) : Nat :=
  ((List.range 32).filter (fun i => decide (v.facetExposed ≤ 32 * w + i) && decide (32 * w + i < v.facetTiles))).foldl
    (fun a i => a + 2 ^ i) 0

/-- Mailbox channels P0 holds at reset: those of every built port (Table 5.12). -/
def mbxReset (v : Variant) (p w : Nat) : Nat :=
  if p = 0x010 then 2 ^ (8 * (min v.clnkPorts (4 * (w + 1)) - min v.clnkPorts (4 * w))) - 1 else 0

/-- The reset value of a register word, from its table; "per part" and "per page" values from the tables of counts. -/
def resetWord (fu : Variant) (p off : Nat) : Word :=
  match classOf fu p with
  | none => 0
  | some c =>
    if c = .mirror then 0
    else if off = 0x00 then BitVec.ofNat 32 (classCode c p * 2 ^ 16 + instanceOf c p * 2 ^ 8 + 1)
    else if off = 0x04 then BitVec.ofNat 32 (2 ^ 31 + capBlock fu c p)
    else if off = 0x08 then BitVec.ofNat 32 (ctrlReset c)
    else if off = 0x1C then BitVec.ofNat 32 (if c = .part then p - 0x010 else 0)
    else if off < 0x40 then 0
    else
      let n : Option Nat :=
        match c with
        | .chip =>
          if off = 0x044 then some (chipCap0 fu) else if off = 0x048 then some (chipCap1 fu)
          else if off = 0x04C then some (fu.pick 49152 32768 16384 + fu.pick 1024 1024 512 * 2 ^ 16)
          else none
        | .part =>
          if off = 0x060 then some (mbxReset fu p 0) else if off = 0x064 then some (mbxReset fu p 1)
          else if ¬ fu.serve ∧ (off = 0x050 ∨ off = 0x054) then some 0 else none
        | .qeg =>
          if (0x080 ≤ off ∧ off < 0x140) ∧ fu.partitions ≤ (off % 64) / 4 then some 0 else none
        | .fmap =>
          if off = 0x040 then some (8 + fu.meshRows * 16 + fu.facetExposed * 2 ^ 8 + fu.facetSpare * 2 ^ 16)
          else if off = 0x044 then some fu.facetSpare
          else if 0x080 ≤ off ∧ off < 0x0C0 then some (fmapWord fu ((off - 0x080) / 4))
          else if 0x0C0 ≤ off ∧ off < 0x0CC then some (fmapSpare fu ((off - 0x0C0) / 4)) else none
        | .ft =>
          if off = 0x040 then some (if p - 0x100 < fu.facetExposed then (p - 0x100) * 2 ^ 8 else 1) else none
        | .loopg =>
          if off = 0x040 then
            some (fu.loopChannels + fu.ainInputs * 2 ^ 8 + fu.pinInputs * 2 ^ 16 + fu.pick 2 2 1 * 2 ^ 20 + 16 * 2 ^ 24)
          else none
        | .clnkg => if off = 0x040 then some (fu.clnkPorts + 1 * 2 ^ 8 + 256 * 2 ^ 16) else none
        | .serve =>
          if off = 0x040 then some (fu.lensClusters + fu.lensCores * 2 ^ 5 + 8 * 2 ^ 12 + 1024 * 2 ^ 16) else none
        | _ => none
      match n with
      | some x => BitVec.ofNat 32 x
      | none => match rowAt c p off with
        | some r => BitVec.ofNat 32 r.reset
        | none => 0

/-- The four views of R87. -/
inductive View where
  | full | readOnly | hidden | absent
  deriving DecidableEq, Repr

end Sys2Proof.Machine
end

