-- ==== Sys2Proof/Machine/Ops.lean ====
section
/-! DEFINITION. The named operations every family shares: registers and their fields, time, error captures and logs, page
interrupts, what goes to the host, and the job table. -/

namespace Sys2Proof.Machine

namespace State

/-- The part's variant. -/
def var (s : State) : Variant := s.fuses.variant

/-- The PTB as a number. -/
def now (s : State) : Nat := s.time.ptb.toNat

/-- The reset value of the register at a BAR0 byte address. -/
def resetAt (s : State) (a : Nat) : Word := resetWord s.fuses.variant (a / 4096) (a % 4096)

/-- The register word held for an offset of a page. -/
def reg (s : State) (page off : Nat) : Word :=
  s.regs.get (s.resetAt (page * 4096 + off)) (page * 4096 + off)

/-- Hold a register word. A word equal to the reset value is not listed. -/
def setReg (s : State) (page off : Nat) (w : Word) : State :=
  { s with regs := s.regs.set (s.resetAt (page * 4096 + off)) (page * 4096 + off) w }

/-- A register field as a number. -/
def fget (s : State) (page : Nat) (f : Fld) : Nat := bitsOf (s.reg page f.off) f.lo f.wid

/-- Give a register field a value. -/
def fset (s : State) (page : Nat) (f : Fld) (v : Nat) : State :=
  s.setReg page f.off (putBits (s.reg page f.off) f.lo f.wid v)

/-- A one-bit field. -/
def fbit (s : State) (page : Nat) (f : Fld) : Bool := s.fget page f != 0

/-- Raise a saturating count held in a field. -/
def fincSat (s : State) (page : Nat) (f : Fld) (d : Nat) : State :=
  s.fset page f (satAdd (s.fget page f) d (2 ^ f.wid - 1))

/-- A 64-bit value held in two words. -/
def reg64 (s : State) (page lo hi : Nat) : Nat := (s.reg page lo).toNat + (s.reg page hi).toNat * 2 ^ 32

/-- Hold a 64-bit value in two words. -/
def setReg64 (s : State) (page lo hi v : Nat) : State :=
  (s.setReg page lo (BitVec.ofNat 32 v)).setReg page hi (BitVec.ofNat 32 (v / 2 ^ 32))

/-- The hidden state of a page. -/
def page (s : State) (p : Nat) : PageSt := s.pages.get {} p

/-- Change the hidden state of a page. -/
def modPage (s : State) (p : Nat) (f : PageSt → PageSt) : State :=
  { s with pages := s.pages.set {} p (f (s.page p)) }

/-- The PTB reaches the tick of an event, when it counts and has not reached it (assumption 6). -/
def reach (s : State) (tick : Nat) : State :=
  if s.time.running ∧ s.now < tick then { s with time := { s.time with ptb := BitVec.ofNat 64 tick } } else s

/-- A fresh free value (assumption 1). -/
def free (s : State) : Nat × State := (Config.freeNat s.freeCtr, { s with freeCtr := s.freeCtr + 1 })

/-- A fresh free bit (assumption 1). -/
def freeBit (s : State) : Bool × State := (Config.freeBit s.freeCtr, { s with freeCtr := s.freeCtr + 1 })

end State

/-- The island whose aligned copy stamps captures on a page; none where the stamp bus does (R44, R667). -/
def stampIsland (v : Variant) (p : Nat) : Option Nat :=
  match classOf v p with
  | some .ft => some (p - 0x100)
  | some .loopg | some .ch | some .pwm | some .trip => some 68
  | some .clnk => some 69
  | _ => none

/-- The stamp bus at an instant (R44, Table 2.2): the PTB less a lag of 4 to 16 ticks, 4 to 32 for LOUPE, which the spec leaves open
(assumption 1). -/
def stampBus (s : State) (p code : Nat) : Nat :=
  let width := if p = pgLoupe then 29 else 13
  (s.now + 2 ^ 64 - (4 + Config.stampSkew s.now p code % width)) % 2 ^ 64

/-- The timestamp of an event on a page (R44): the island's aligned copy while it is valid; the PTB itself on the SOLV page; else
the stamp bus. -/
def stampOf (s : State) (p code : Nat) : Nat :=
  if p = pgSolv then s.now
  else match stampIsland s.var p with
    | some i =>
      let c := s.time.copies.get {} i
      if c.valid then (((s.now : Int) + c.off) % (2 ^ 64 : Nat)).toNat else stampBus s p code
    | none => stampBus s p code

/-- Where a page's interrupt goes (R148, Table 5.5): the function and the vector. `bit` is the cause, which on a queue
configuration page names the queue pair. -/
def irqTarget (s : State) (p bit : Nat) : Nat × Nat :=
  let vec := fun n f => s.fget (pgPart + n) f
  match classOf s.var p with
  | some .part => (p - pgPart, vec (p - pgPart) F.PART_VEC_SYSTEM)
  | some .qp =>
    let q := 2 * (p - pgQp) + bit
    let o := if q < s.var.partitions then q else (s.qe.qps.get {} q).owner
    (o, vec o F.PART_VEC_SERVE)
  | some c => (0, vec 0 (match domainOf c with
    | .plan => F.PART_VEC_PLAN
    | .serve => F.PART_VEC_SERVE
    | .system => F.PART_VEC_SYSTEM))
  | none => (0, 0)

/-- What QE does not send itself, so that it leaves after QE_INTERNAL too (R145): a message of another island's page. -/
def sentByPage : HostTx → Bool
  | .pageMsix _ _ => true
  | _ => false

/-- Send something to the host for a function: at once while its Bus Master Enable is 1, else held in order (R146); nothing leaves
QE after QE_INTERNAL (R145) (DESIGN CHOICE, assumption 16). -/
def hostSend (s : State) (fn : Nat) (tx : HostTx) : State :=
  if s.qe.dead && !sentByPage tx then s
  else if s.host.bme.get false fn then { s with host := { s.host with out := tx :: s.host.out } }
  else { s with host := { s.host with held := s.host.held.set [] fn (s.host.held.get [] fn ++ [tx]) } }

/-- Something that leaves whatever Bus Master Enable says: a read completion or an AER report. -/
def hostNote (s : State) (tx : HostTx) : State :=
  { s with host := { s.host with out := tx :: s.host.out } }

/-- The queue pair of a configuration page, even or odd, that a cause names: bit 0 the even one, bit 1 the odd one, and for ERR the
one that the capture names (assumption 8). -/
def irqBit (s : State) (p : Nat) (causes : Word) : Nat :=
  if causes.getLsbD 0 then 0 else if causes.getLsbD 1 then 1 else (s.fget p F.PG_ERR3) % 2

/-- The message of a page's interrupt: QE's for its own pages, HIU's for every other (Table 1.1, R145) (DEDUCED, assumption 45). -/
def pageMessage (s : State) (p fn vec : Nat) : HostTx :=
  match classOf s.var p with
  | some .qeg | some .qp => .msix fn vec
  | _ => .pageMsix fn vec

/-- Set interrupt causes of a page; the page requests an interrupt when its enabled causes become non-zero (R86). -/
def pageIrq (s : State) (p bits : Nat) : State :=
  let old := s.reg p F.PG_IRQ_STAT_ERR.off
  let new := old ||| BitVec.ofNat 32 bits
  let en := s.reg p F.PG_IRQ_EN.off
  let s := s.setReg p F.PG_IRQ_STAT_ERR.off new
  if old &&& en = 0 ∧ new &&& en ≠ 0 then
    let (fn, vec) := irqTarget s p (irqBit s p (new &&& en))
    hostSend s fn (pageMessage s p fn vec)
  else s

/-- A write to PG_IRQ_STAT or PG_IRQ_EN: the page requests one further interrupt when it leaves enabled causes set (R86). -/
def irqRewrite (s : State) (p : Nat) (stat en : Word) : State :=
  let s := (s.setReg p F.PG_IRQ_STAT_ERR.off stat).setReg p F.PG_IRQ_EN.off en
  if stat &&& en ≠ 0 then
    let (fn, vec) := irqTarget s p (irqBit s p (stat &&& en))
    hostSend s fn (pageMessage s p fn vec)
  else s

/-- Append an error event to the log of a partition (R147): word 0 code and page, word 1 the detail, words 2 and 3 the time. -/
def logAppend (s : State) (part page code detail stamp : Nat) : State :=
  let p := pgPart + part
  let next := s.fget p F.PART_LOG_STAT_NEXT
  let heldN := s.fget p F.PART_LOG_STAT_HELD
  let base := 0x100 + 16 * next
  let s := s.setReg p base (BitVec.ofNat 32 (code % 2 ^ 16 + (page % 2 ^ 14) * 2 ^ 16))
  let s := s.setReg p (base + 4) (BitVec.ofNat 32 detail)
  let s := s.setReg64 p (base + 8) (base + 12) stamp
  let s := s.fset p F.PART_LOG_STAT_NEXT ((next + 1) % 16)
  let s := if heldN < 16 then s.fset p F.PART_LOG_STAT_HELD (heldN + 1) else s.fincSat p F.PART_LOG_STAT_LOST 1
  pageIrq s p 2

/-- An error event on a page (R85, R147): the first is captured with its partition, time and detail and sets the ERR cause; a later
one sets MORE; each enters the partition's log (DEDUCED, assumption 130). -/
def capture (s : State) (p code part detail : Nat) : State :=
  let stamp := stampOf s p code
  let s :=
    if s.fbit p F.PG_ERR0_VALID then s.fset p F.PG_ERR0_MORE 1
    else
      let s := s.setReg p F.PG_ERR0_CODE.off (BitVec.ofNat 32 (code % 2 ^ 16 + (part % 16) * 2 ^ 16 + 2 ^ 31))
      let s := s.setReg64 p F.PG_ERR1.off F.PG_ERR2.off stamp
      let s := s.setReg p F.PG_ERR3.off (BitVec.ofNat 32 detail)
      pageIrq s p (2 ^ 31)
  logAppend s part p code detail stamp

/-- Clear PG_ERR0 to PG_ERR3 and re-arm the capture. -/
def errClear (s : State) (p : Nat) : State :=
  (((s.setReg p F.PG_ERR0_CODE.off 0).setReg p F.PG_ERR1.off 0).setReg p F.PG_ERR2.off 0).setReg p F.PG_ERR3.off 0

/-- A foreign access by a partition (R90): counted in its PART page, with what it named. -/
def foreign (s : State) (part last : Nat) (bar2 : Bool) : State :=
  let p := pgPart + part
  let c := s.fget p F.PART_FOREIGN_COUNT
  let s := s.fset p F.PART_FOREIGN_COUNT (satAdd c 1 0xFFFF)
  let s := s.fset p F.PART_FOREIGN_LAST last
  let s := s.fset p F.PART_FOREIGN_BAR2 (b2n bar2)
  if c = 0 then pageIrq s p 4 else s

/-- The owner of a queue pair, where it has one: a FREE pair is foreign to every partition (Table 4.7). -/
def qpOwner (s : State) (q : Nat) : Option Nat :=
  let x := s.qe.qps.get {} q
  if q < s.var.partitions then some q
  else if x.state = .free then none else some x.owner

/-- The view a partition has of a page (R87, R88). -/
def viewOf (s : State) (part p : Nat) : View :=
  match classOf s.var p with
  | none => .absent
  | some c =>
    if part = 0 then (if c = .mirror then .readOnly else .full)
    else if c = .chip ∨ c = .ptb ∨ c = .serve ∨ c = .mirror then .readOnly
    else if c = .part then (if p = pgPart + part then .full else .hidden)
    else if c = .qp ∧ (qpOwner s (2 * (p - pgQp)) = some part ∨ qpOwner s (2 * (p - pgQp) + 1) = some part) then .full
    else if domainOf c ≠ .plan ∧ natBit (s.fget p F.PG_OWNER_READERS) part then .readOnly
    else .hidden

/-- The device sleeps in PS2 or PS3 (R566). -/
def asleep (s : State) : Bool := decide (2 ≤ s.fget pgPmu F.PMU_STAT_STATE)

/-! ### The job table -/

/-- The queue pair's state. -/
def qpGet (s : State) (q : Nat) : Qp :=
  if q < s.var.partitions then s.qe.qps.get { state := .disabled, owner := q } q else s.qe.qps.get {} q

/-- Change a queue pair. -/
def qpSet (s : State) (q : Nat) (x : Qp) : State :=
  if q < s.var.partitions then { s with qe := { s.qe with qps := s.qe.qps.set { state := .disabled, owner := q } q x } }
  else { s with qe := { s.qe with qps := s.qe.qps.set {} q x } }

/-- A register page and block offset of a queue pair's registers. -/
def qpPage (q : Nat) : Nat := pgQp + q / 2
def qpOff (q : Nat) : Nat := if q % 2 = 0 then 0x100 else 0x200

/-- A field of a queue pair's registers. -/
def qpF (s : State) (q : Nat) (f : Fld) : Nat := s.fget (qpPage q) (f.sh (qpOff q))
def qpPut (s : State) (q : Nat) (f : Fld) (v : Nat) : State := s.fset (qpPage q) (f.sh (qpOff q)) v

/-- The job under a number. -/
def jobGet (s : State) (j : Nat) : Option Job := s.qe.jobs.find? j

/-- Change a job. -/
def jobSet (s : State) (j : Nat) (x : Job) : State := { s with qe := { s.qe with jobs := s.qe.jobs.ins j x } }

/-- A job ends with a status and a result (R123); while its partition resets it ends with PARTITION_RESET and is counted (R130). -/
def jobDone (s : State) (j status result : Nat) : State :=
  match jobGet s j with
  | none => s
  | some x =>
    match s.part.resets.find? x.part with
    | some r =>
      let s := jobSet s j { x with phase := .done, status := 0x0015, result := 0, data := none }
      if x.phase = .done then s
      else { s with part := { s.part with resets := s.part.resets.ins x.part { r with ended := r.ended + 1 } } }
    | none => jobSet s j { x with phase := .done, status := status, result := result % 2 ^ 32, data := none }

/-- A started job with an opcode: what an opcode's command acts on. -/
def startedJob (s : State) (j op : Nat) : Option Job :=
  match jobGet s j with
  | some x => if x.phase = .started ∧ x.opcode = op then some x else none
  | none => none

/-- Bits of the first entry of a job, as its payload table numbers them. -/
def payBits (x : Job) (lo wid : Nat) : Nat := bitsOf (x.entries.headD 0) lo wid
/-- Bits of entry `e` of a job's chain. -/
def payBitsAt (x : Job) (e lo wid : Nat) : Nat := bitsOf (x.entries.getD e 0) lo wid

/-- Revokes admitted before a job, aimed at its partition and not completed (R142): kind 0 MEM_REGION, 1 MBX_CHANNEL, 2 MODEL_SLOT
(DEDUCED, assumption 44). -/
def revoking (s : State) (x : Job) (kind : Nat) : List Job :=
  (s.qe.jobs.filter fun k =>
    decide (k.2.opcode = 0x13) && decide (k.2.part = 0) && decide (k.2.seq < x.seq)
      && (decide (k.2.phase = .waiting) || decide (k.2.phase = .started))
      && payBits k.2 32 4 == x.part && payBits k.2 36 4 == kind).map Prod.snd

/-- MEM_HOST_ERR (Table 15.12). -/
abbrev stMemHostErr : Nat := 0x0F15

/-- A job goes on with the host data it reads (R516): it asks for them once, waits, and takes them when they are there. `bad` acts on
poisoned data before the job ends with POISON. -/
def withHostData (s : State) (j addr len : Nat) (bad : State → List Byte → List Nat → State) (k : State → List Byte → State) :
    State :=
  match jobGet s j with
  | none => s
  | some x =>
    match x.data with
    | none => if x.stage = 0 then hostSend (jobSet s j { x with stage := 1 }) x.part (.read x.part addr len) else s
    | some (.good d []) => k s d
    | some (.good d ps) => jobDone (bad s d ps) j 0x0014 0
    | some _ => jobDone s j stMemHostErr 0

/-! ### Host writes -/

/-- The page takes no write but to PG_ERR_CLR and PG_SCRATCH: a soft reset is in progress or was abandoned (R83, R84). -/
def pageBusy (s : State) (p : Nat) : Bool := s.fbit p F.PG_STAT_RESET_BUSY || (s.page p).abandoned

/-- The host's memory requests reach the device from HOST_READY on (R622) (DESIGN CHOICE, assumption 24). -/
def hostReady (s : State) (k : State → State) : State := if s.host.crs then s else k s

/-- A write by a partition to a register of a page (R87, R89, R90): it acts in the full view, and is a foreign access where the page
is read-only or hidden. -/
def pageWrite (s : State) (part p : Nat) (k : State → State) : State :=
  hostReady s fun s => match viewOf s part p with
    | .full => if pageBusy s p then s else k s
    | .readOnly => foreign s part p false
    | .hidden => foreign s part p false
    | .absent => s

/-- A read by a partition of a register with a read side effect (R78, R87, R89): it acts where the page is seen; a hidden page reads 0. -/
def pageRead (s : State) (part p : Nat) (k : State → Word × State) : State :=
  hostReady s fun s => match viewOf s part p with
    | .full | .readOnly =>
      let (w, s) := k s
      hostNote s (.readData part w)
    | .hidden => hostNote (foreign s part p false) (.readData part 0)
    | .absent => hostNote s (.readData part 0)

/-- A unit leaves service (R144, R155, R168): a soft reset or a self-test in progress ends. -/
def markOut (s : State) (p : Nat) (fault : Bool) : State :=
  let s := s.modPage p fun x => { x with testing := false, joining := false, resetSince := none }
  let s := ((s.fset p F.PG_STAT_OUT_OF_SERVICE 1).fset p F.PG_CTRL_IN_SERVICE 0).fset p F.PG_STAT_RESET_BUSY 0
  if fault then s.fset p F.PG_STAT_FAULT 1 else s

/-- A unit is back in service (R155, Table 5.7). -/
def markIn (s : State) (p : Nat) : State :=
  let s := s.modPage p fun x => { x with testing := false, joining := false, abandoned := false }
  ((s.fset p F.PG_STAT_OUT_OF_SERVICE 0).fset p F.PG_STAT_FAULT 0).fset p F.PG_CTRL_IN_SERVICE 1

/-- A unit fails (Table 5.4): FAULT, out of service and UNIT_FAILED with the block's detail. -/
def unitFault (s : State) (p detail : Nat) : State := capture (markOut s p true) p 0x0501 0 detail

/-- Fold a state function over a list. -/
def eachIn {α : Type} (l : List α) (f : State → α → State) (s : State) : State := l.foldl f s

/-- Continue with a next state. -/
abbrev nxt (s : State) : Host.Outcome State Fault Refusal := .next s

end Sys2Proof.Machine
end

