-- ==== Sys2Proof/Machine/Ecc.lean ====
section
/-! DEFINITION. What errors in memory do (R506, R509 to R520, R530): counts, logs, repair queues, and reads and writes of device memory
and of SRAM. -/

namespace Sys2Proof.Machine

def memSet (s : State) (m : MemSt) : State := { s with mem := m }

/-- The page of the control registers of a channel. -/
def memPage (ch : Nat) : Nat := pgMemc + 2 * ch

def regionGet (s : State) (r : Nat) : EccCount := s.mem.regions.get {} r
def regionSet (s : State) (r : Nat) (x : EccCount) : State := memSet s { s.mem with regions := s.mem.regions.set {} r x }

/-- The SRAM region is present (Table 15.1). -/
def regionBuilt (v : Variant) (r : Nat) : Bool :=
  decide (r < v.facetTiles) || (decide (0x50 ≤ r) && decide (r < 0x50 + v.lensClusters)) || (decide (0x60 ≤ r) && decide (r ≤ 0x63))

/-- Words of an SRAM region (Table 15.1). -/
def regionWords (r : Nat) : Nat :=
  if r < 0x50 then 0x8000 else if r < 0x60 then 0x30000 else if r = 0x60 then 0xC0000 else if r = 0x61 then 0x20000 else 0x10000

/-- A count reaches a threshold that is not 0 (R520). -/
def reaches (old new th : Nat) : Bool := th != 0 && decide (old < th) && decide (th ≤ new)

/-- A CE of a channel (R511, R520). -/
def chanCe (s : State) (ch addr : Nat) : State :=
  let p := memPage ch
  let old := s.fget p F.MEMC_CE_CE
  let s := s.fincSat p F.MEMC_CE_CE 1
  let s := s.setReg64 p F.MEMC_LAST_CE_LO.off F.MEMC_LAST_CE_HI.off addr
  if reaches old (s.fget p F.MEMC_CE_CE) (s.fget p F.MEMC_CE_THRESH_THRESH) then pageIrq s p 1 else s

/-- A UE of a channel is logged (R520). -/
def chanUe (s : State) (ch addr part : Nat) : State :=
  let p := memPage ch
  pageIrq (capture (s.fincSat p F.MEMC_CE_UE 1) p 0x0F10 part (addr / 8)) p 2

/-- A CE of an SRAM region. -/
def regionCe (s : State) (r w : Nat) : State :=
  let x := regionGet s r
  let n := satAdd x.ce 1 0xFFFF
  let s := regionSet s r { x with ce := n, lastCe := w }
  if reaches x.ce n (s.fget pgMemc F.SRAM_CE_THRESH_THRESH) then pageIrq s pgMemc 1 else s

/-- A UE of an SRAM region is logged. -/
def regionUe (s : State) (r w part : Nat) : State :=
  let x := regionGet s r
  pageIrq (capture (regionSet s r { x with ue := satAdd x.ue 1 0xFFFF }) pgMemc 0x0F11 part (r + (w % 2 ^ 24) * 2 ^ 8)) pgMemc 2

/-- POISON_READ on a consumer's page (R514). -/
def poisonRead (s : State) (page part : Nat) : State := capture s page 0x0F12 part 0

/-! ### Device memory -/

/-- Channels in use, in order (R506). -/
def memChannels (s : State) : List Nat := s.mem.trained.map Prod.fst

/-- Data bytes of one channel: eight ninths of the smaller raw capacity in use, in whole 2 MiB (R506). -/
def chanData (s : State) : Nat :=
  match s.mem.trained with
  | [] => 0
  | (_, c) :: r => (r.foldl (fun a x => min a x.2) c) * 2 ^ 30 * 8 / 9 / 2 ^ 21 * 2 ^ 21

/-- Bytes of device memory (R506). -/
def memSize (s : State) : Nat := (memChannels s).length * chanData s

/-- The channel and channel offset of a device address (R506). -/
def memPlace (s : State) (a : Nat) : Nat × Nat :=
  match memChannels s with
  | [c] => (c, a)
  | _ => (a / 0x1000 % 2, (a / 0x2000) * 0x1000 + a % 0x1000)

/-- The device address of a channel offset. -/
def memAddr (s : State) (ch off : Nat) : Nat :=
  match memChannels s with
  | [_] => off
  | _ => (off / 0x1000) * 0x2000 + ch * 0x1000 + off % 0x1000

/-- The channel is out of service or not trained: every access delivers poison and drops writes (R522, R530). -/
def chanGone (s : State) (ch : Nat) : Bool :=
  (s.mem.trained.find? ch).isNone || s.fbit (memPage ch) F.PG_STAT_OUT_OF_SERVICE

/-- The kinds of accounting a read makes of poison it finds. -/
def countPoison (s : State) (ch : Nat) : State := s.fincSat (memPage ch) F.MEMC_PCOUNT_READS 1

/-- A read of one word of device memory by its word index: its data, or none for poison (R508, R510, R511, R530). `queue` puts the
write-back of a CE into the repair queue, as a Plan read in a window does. -/
def dramRead (s : State) (w part : Nat) (queue : Bool := false) : Option DWord × State :=
  let ch := (memPlace s (8 * w)).1
  if chanGone s ch then (none, countPoison s ch)
  else
    let (d, _) := s.mem.dram.raw w
    let fix := fun (s : State) (x : DWord) =>
      if queue then
        let q := s.mem.repair.get [] ch
        if q.length < 64 then memSet s { s.mem with repair := s.mem.repair.set [] ch (q ++ [w]) }
        else s.fincSat (memPage ch) F.MEMC_MISC_REPAIR_DROPPED 1
      else memSet s { s.mem with dram := s.mem.dram.put w x false }
    match s.mem.dram.cls w with
    | .clean => (some d, s)
    | .ceData b => (some (flipBit d b), fix (chanCe s ch (8 * w)) (flipBit d b))
    | .ceCheck => (some d, fix (chanCe s ch (8 * w)) d)
    | .poison => (none, countPoison s ch)
    | .ue => (none, memSet (chanUe s ch (8 * w) part) { s.mem with dram := s.mem.dram.put w d true })

/-- A write-back that waits for a word is dropped when a full-word write reaches the word (R533). -/
def dropRepair (s : State) (k w : Nat) : State :=
  memSet s { s.mem with repair := s.mem.repair.set [] k ((s.mem.repair.get [] k).filter (· ≠ w)) }

/-- A full-word write of device memory (R512). -/
def dramWrite (s : State) (w : Nat) (d : DWord) (poison : Bool) : State :=
  let ch := (memPlace s (8 * w)).1
  if chanGone s ch then s
  else
    let s := dropRepair s ch w
    memSet s { s.mem with dram := s.mem.dram.put w d poison }

/-- Bytes of a word replaced, by place. -/
def mergeBytes (d : DWord) (bs : List (Nat × Byte)) : DWord :=
  bs.foldl (fun d b => (d &&& ~~~ (BitVec.ofNat 64 (0xFF <<< (8 * b.1)))) ||| BitVec.ofNat 64 (b.2.toNat <<< (8 * b.1))) d

/-- A partial write of device memory (R513, Table 15.4). -/
def dramPartial (s : State) (w part : Nat) (bs : List (Nat × Byte)) (poison : Bool) : State :=
  let ch := (memPlace s (8 * w)).1
  if chanGone s ch then s
  else
    let (d, _) := s.mem.dram.raw w
    let store := fun (s : State) (x : DWord) (p : Bool) => memSet s { s.mem with dram := s.mem.dram.put w (mergeBytes x bs) (p || poison) }
    match s.mem.dram.cls w with
    | .clean => store s d false
    | .ceData b => store (chanCe s ch (8 * w)) (flipBit d b) false
    | .ceCheck => store (chanCe s ch (8 * w)) d false
    | .ue => store (chanUe s ch (8 * w) part) d true
    | .poison => store (s.fincSat (memPage ch) F.MEMC_PCOUNT_MERGES 1) d true

/-- Write bytes to device memory from an address on, word by word (R512, R513); `bad` lists the places of poisoned bytes. -/
def dramStore (s : State) (part addr : Nat) (data : List Byte) (bad : List Nat) : State :=
  let n := data.length
  if n = 0 then s
  else
    let first := addr / 8
    let last := (addr + n - 1) / 8
    eachIn (List.range (last - first + 1)) (fun s i =>
      let w := first + i
      let bs := (List.range 8).filterMap fun k =>
        let a := 8 * w + k
        if addr ≤ a ∧ a < addr + n then some (k, data.getD (a - addr) 0) else none
      let p := bad.any fun b => decide (8 * w ≤ addr + b) && decide (addr + b < 8 * w + 8)
      if bs.length = 8 then dramWrite s w (mergeBytes 0 bs) p else dramPartial s w part bs p) s

/-- Read bytes of device memory, none for the bytes of a poisoned word. -/
def dramLoad (s : State) (part addr n : Nat) : List (Option Byte) × State :=
  if n = 0 then ([], s)
  else
    let first := addr / 8
    let r := (List.range ((addr + n - 1) / 8 - first + 1)).foldl (fun (acc : List (List (Option Byte)) × State) i =>
      let (d, s) := dramRead acc.2 (first + i) part
      (((List.range 8).map fun k => d.map fun x => BitVec.ofNat 8 (x.toNat / 256 ^ k)) :: acc.1, s)) ([], s)
    ((r.1.reverse.flatten.drop (addr % 8)).take n, r.2)

/-- The bytes, where none of them is poison. -/
def wholeBytes (bs : List (Option Byte)) : Option (List Byte) :=
  if bs.all Option.isSome then some (bs.map fun b => b.getD 0) else none

/-! ### SRAM of Facet tiles -/

def tileGet (s : State) (i : Nat) : Tile := s.facet.tiles.get {} i
def tileSet (s : State) (i : Nat) (x : Tile) : State := { s with facet := { s.facet with tiles := s.facet.tiles.set {} i x } }

/-- Hold a word of a tile's SRAM: a full-word write (R512). -/
def tileWrite (s : State) (i w : Nat) (d : DWord) (poison : Bool) : State :=
  let s := dropRepair s (16 + i) w
  let x := tileGet s i
  tileSet s i { x with sram := x.sram.put w d poison }

/-- Queue a write-back of a tile's word, 4 deep (R511). -/
def tileRepair (s : State) (i w : Nat) : State :=
  let q := s.mem.repair.get [] (16 + i)
  if q.length < 4 then memSet s { s.mem with repair := s.mem.repair.set [] (16 + i) (q ++ [w]) }
  else
    let x := regionGet s i
    regionSet s i { x with dropped := satAdd x.dropped 1 0xFF }

/-- A read of a tile's word: its data, or none for poison (R508, R510, R511). -/
def tileRead (s : State) (i w : Nat) : Option DWord × State :=
  let x := tileGet s i
  let (d, _) := x.sram.raw w
  match x.sram.cls w with
  | .clean => (some d, s)
  | .ceData b => (some (flipBit d b), tileRepair (regionCe s i w) i w)
  | .ceCheck => (some d, tileRepair (regionCe s i w) i w)
  | .poison =>
    let c := regionGet s i
    (none, regionSet s i { c with reads := satAdd c.reads 1 0xFFFF })
  | .ue => (none, tileSet (regionUe s i w 0) i { x with sram := x.sram.put w d true })

end Sys2Proof.Machine
end

