-- ==== Sys2Proof/Machine/Tray.lean ====
section
/-! DEFINITION. The Tray (R181 to R183): slot fields and the static checks of Table 6.10. -/

namespace Sys2Proof.Machine

/-- The classes of the slots (Table 6.4). -/
inductive SlotClass where
  | br | pred | sa | ls | msend | mrecv | mx | va | sf | imx
  deriving DecidableEq, Repr

def slotClass (k : Nat) : SlotClass :=
  if k = 0 then .br else if k = 1 then .pred else if k ≤ 3 then .sa else if k ≤ 5 then .ls else if k = 6 then .msend
  else if k = 7 then .mrecv else if k = 8 then .mx else if k ≤ 12 then .va else if k ≤ 14 then .sf else .imx

/-- OP of a slot word (R182). -/
def slotOp (w : DWord) : Nat := bitsOf w 56 8

/-- Operations listed for a class (Table 6.6). -/
def opListed (c : SlotClass) (op : Nat) : Bool :=
  op == 0 || (match c with
  | .br => op ∈ [1, 2, 3, 4, 0x10, 0x11, 0x12]
  | .pred => (1 ≤ op && op ≤ 8) || (0x10 ≤ op && op ≤ 0x14)
  | .sa => (1 ≤ op && op ≤ 0xD) || (0x20 ≤ op && op ≤ 0x24)
  | .ls => 1 ≤ op && op ≤ 3
  | .msend => op = 1
  | .mrecv => op = 1
  | .mx => 1 ≤ op && op ≤ 4
  | .va => (1 ≤ op && op ≤ 5) || (0x10 ≤ op && op ≤ 0x17) || op = 0x21
  | .sf => 1 ≤ op && op ≤ 4
  | .imx => true)

/-- Bits of a slot that Table 6.5 does not list (DEDUCED, assumption 94). -/
def slotRsv : SlotClass → Nat × Nat
  | .br => (0, 0) | .pred => (24, 8) | .sa => (24, 7) | .ls => (0, 18) | .msend => (0, 34) | .mrecv => (0, 39) | .mx => (0, 22)
  | .va => (0, 24) | .sf => (0, 32) | .imx => (0, 0)

/-- An RSV bit of a slot that is not NOP is set; TICK.RD also has A and B 0 (Tables 6.5 and 6.6). -/
def rsvSet (c : SlotClass) (w : DWord) : Bool :=
  c != .imx && slotOp w != 0 &&
    (bitsOf w (slotRsv c).1 (slotRsv c).2 != 0 || (c == .sa && slotOp w == 0xD && bitsOf w 33 12 != 0))

/-- The slot takes its operand from IMX (R182). -/
def takesImx (c : SlotClass) (w : DWord) : Bool :=
  let op := slotOp w
  match c with
  | .pred => decide (1 ≤ op) && op != 0x13 && op != 0x14 && bitsOf w 32 2 == 2
  | .sa => decide (1 ≤ op) && op != 0xD && op != 0x23 && op != 0x24 && bitsOf w 31 2 == 2
  | .ls => decide (1 ≤ op) && bitsOf w 18 2 == 2
  | _ => false

/-- A source code is marked illegal (Table 6.5). -/
def badSource (c : SlotClass) (w : DWord) : Bool :=
  slotOp w != 0 && (match c with
  | .pred => bitsOf w 32 2 == 3
  | .sa => bitsOf w 31 2 == 3
  | .ls => bitsOf w 18 2 % 2 == 1
  | _ => false)

/-- A multiplying vector operation (R183). -/
def isMulVa (w : DWord) : Bool := decide (0x12 ≤ slotOp w) && decide (slotOp w ≤ 0x14)
/-- MX.OUTER. -/
def isOuter (w : DWord) : Bool := slotOp w == 2

/-- PASS of a multiplying operation. -/
def vaPass (w : DWord) : Nat := bitsOf w 25 2
def mxPass (w : DWord) : Nat := bitsOf w 32 2

/-- TARGET, K, COUNT and PHASE of the BR slot. -/
def brTarget (w : DWord) : Nat := bitsOf w 35 16
def brK (w : DWord) : Nat := bitsOf w 33 2
def brCount (w : DWord) : Nat := bitsOf w 17 16
def brPhase (w : DWord) : Nat := bitsOf w 0 20

/-- The first static check that a Tray fails (Table 6.10); 0 when it passes. `delayed` says that it is one of the 5 delay Trays of a
BR, and `ends` are the ends of the loops around it. -/
def trayCheck (v : Variant) (trays period idx : Nat) (ws : List DWord) (delayed : Bool) (ends : List Nat) : Nat :=
  let each := (List.range 16).map fun k => (slotClass k, ws.getD k 0)
  let br := ws.getD 0 0
  let op := slotOp br
  let mx := ws.getD 8 0
  let vas := (ws.drop 9).take 4
  let send := ws.getD 6 0
  if each.any (fun e => !opListed e.1 (if e.1 = .imx then 0 else slotOp e.2)) then 1
  else if each.any (fun e => rsvSet e.1 e.2) then 2
  else if 1 < (each.filter fun e => takesImx e.1 e.2).length then 3
  else if each.any (fun e => badSource e.1 e.2) then 4
  else if isOuter mx && vas.any isMulVa then 5
  else if (isOuter mx && mxPass mx == 0) || vas.any (fun w => isMulVa w && vaPass w == 0) then 6
  else if delayed && op != 0 then 7
  else if ((op == 1 || op == 2 || op == 0x11 || op == 0x12) && decide (trays ≤ brTarget br))
      || (op == 2 && (decide (brTarget br ≤ idx) || ends.any (fun e => decide (e < brTarget br)))) then 8
  else if op == 3 && (brPhase br % 4 != 0 || decide (period ≤ brPhase br)) then 9
  else if (op == 0x11 || op == 0x12) && (brK br == 0 || brK br == 3) then 10
  else if slotOp send == 1 && (bitsOf send 40 4 == 15 || decide (v.facetExposed ≤ bitsOf send 34 6)) then 11
  else if op == 2 && brCount br == 0 then 12
  else 0

/-- The words of a Tray of a program given by its words that are not 0. -/
def imageTray (words : List (Nat × DWord)) (n : Nat) : List DWord :=
  (List.range 16).map fun k => ((words.find? fun x => x.1 = 16 * n + k).map Prod.snd).getD 0

/-- The loops of a program: where each LOOP.SET stands and where its loop ends. -/
def imageLoops (words : List (Nat × DWord)) (trays : Nat) : List (Nat × Nat) :=
  (List.range trays).filterMap fun n =>
    let w := (imageTray words n).getD 0 0
    if slotOp w = 2 then some (n, brTarget w) else none

/-- Every Tray of a program passes the static checks (R201). -/
def imageTraysOk (v : Variant) (period : Nat) (words : List (Nat × DWord)) (trays : Nat) : Bool :=
  let loops := imageLoops words trays
  (List.range trays).all fun n =>
    let delayed := (List.range 5).any fun d => decide (d < n) && slotOp ((imageTray words (n - 1 - d)).getD 0 0) == 1
    let ends := (loops.filter fun l => decide (l.1 < n) && decide (n ≤ l.2)).map Prod.snd
    trayCheck v trays period n (imageTray words n) delayed ends == 0

end Sys2Proof.Machine
end

