-- ==== Sys2Proof/Machine/Facet.lean ====
section
/-! DEFINITION. How a Facet tile runs (R176 to R209): registers and poison, issue of a Tray slot by slot, results and their latencies,
loops and branches, speculation and the SSB, halts. -/

namespace Sys2Proof.Machine

/-! ### Containers and registers -/

/-- A container with a value, or a poisoned one, whose value bits the spec leaves open (DESIGN CHOICE, assumption 93). -/
def cont (v : DWord) (poison : Bool) : Cont :=
  if poison then { val := Config.poisonUnder v, poison := true } else { val := v, poison := false }

namespace Regs

def sGet (r : Regs) (n : Nat) : Cont := r.s.get {} n
def vGet (r : Regs) (n lane : Nat) : Cont := r.v.get {} (16 * n + lane)
def aGet (r : Regs) (a i j : Nat) : Cont := r.a.get {} (64 * a + 8 * i + j)

/-- A predicate register; Q0 reads as all lanes set (R177). -/
def qGet (r : Regs) (n : Nat) : Pred := if n = 0 then { bits := 0xFFFF, poison := 0 } else r.q.get {} n

/-- One write of a result (R177: writes to Q0 are ignored). -/
def write (r : Regs) : FxWrite → Regs
  | .s n c => { r with s := r.s.set {} n c }
  | .v n lane c => { r with v := r.v.set {} (16 * n + lane) c }
  | .q n lane b p =>
    if n = 0 then r
    else
      let x := r.q.get {} n
      let lane1 := fun (m : BitVec 16) (y : Bool) => BitVec.ofNat 16 (natPutBit m.toNat lane y)
      { r with q := r.q.set {} n ⟨lane1 x.bits (if p then Config.poisonUnderBit b else b), lane1 x.poison p⟩ }
  | .acc a i j c => { r with a := r.a.set {} (64 * a + 8 * i + j) c }
  | .accAdd a i j c =>
    let o := r.aGet a i j
    let y := cont (BitVec.ofNat 64 (fxAdd o.val.toNat c.val.toNat)) (o.poison || c.poison)
    { r with a := r.a.set {} (64 * a + 8 * i + j) y }

end Regs

/-- The register that a write reaches, as a number: S, V, Q and A registers apart. -/
def FxWrite.target : FxWrite → Nat
  | .s n _ => n
  | .v n _ _ => 100 + n
  | .q n _ _ _ => 200 + n
  | .acc a _ _ _ => 300 + a
  | .accAdd a _ _ _ => 300 + a

/-! ### Issue -/

/-- What a guard says of a lane (R182, R206). -/
inductive Guard where
  | pass | fail | poisoned
  deriving DecidableEq, Repr

/-- What a slot operation reads at issue: the tile and its registers, the slot and its word, and the literal. -/
structure Ctx where
  i : Nat
  slot : Nat
  w : DWord
  imx : DWord
  x : Tile

/-- The guard of a lane of a slot's operation. -/
def Ctx.guard (c : Ctx) (lane : Nat) : Guard :=
  let q := c.x.regs.qGet (bitsOf c.w 52 4)
  if q.poison.getLsbD lane then .poisoned
  else if q.bits.getLsbD lane != bitAt c.w 51 then .pass else .fail

/-- What a slot operation leaves: the writes of its result after its latency, and what the end of the Tray does. -/
structure SlotFx where
  lat : Nat := 1
  writes : List FxWrite := []
  control : Option Control := none
  stores : List TrayStore := []
  recv : Option (DWord × Option ChanDatum) := none
  send : Option DWord := none

/-- A lane's write under its guard: a poisoned guard poisons the destination lane (R206). -/
def guarded (g : Guard) (mk : Cont → FxWrite) (c : Cont) : List FxWrite :=
  match g with
  | .pass => [mk c]
  | .fail => []
  | .poisoned => [mk (cont 0 true)]

/-- PTB tick of a cycle of a tile's aligned copy: cycle 5m starts at copy tick 4m (R40, R187). -/
def cycleTick (s : State) (i c : Nat) : Nat := ((4 * c / 5 : Nat) - (s.time.copies.get {} i).off).toNat

/-- The cycle of a tile's copy that a PTB tick falls in. -/
def tickCycle (s : State) (i tick : Nat) : Nat := (5 * ((tick : Int) + (s.time.copies.get {} i).off) / 4).toNat

/-- Some result is due by a cycle and not yet written (R185). -/
def resultsDue (x : Tile) : Bool := x.results.any fun r => decide (r.due ≤ x.cycle)

/-- The tile issues: it runs, waits for nothing, is in service, and every result that its next Tray can see is written. -/
def issuing (s : State) (i : Nat) : Bool :=
  let x := tileGet s i
  decide (i < s.var.facetTiles) && x.running && x.wait.isNone && !s.fbit (pgFt + i) F.PG_STAT_OUT_OF_SERVICE && !resultsDue x
    && (s.time.copies.get {} i).valid

/-- The words of a Tray as fetch reads them: corrected data, and an open value for a poisoned word (DEDUCED, assumption 91). -/
def fetchTray (x : Tile) (i n : Nat) : List DWord :=
  (List.range 16).map fun k =>
    let w := 16 * n + k
    match x.sram.cls w with
    | .poison | .ue => Config.poisonWord i w
    | c => eccData (x.sram.raw w).1 c

/-- Program region in Trays (FT_PROG). -/
def tileTrays (s : State) (i : Nat) : Nat := s.fget (pgFt + i) F.FT_PROG_TRAYS

/-- Take a tile out of every open level as SQUASH_ALL does, without a redirect (R203, R205). -/
def dropLevels (x : Tile) : Tile :=
  match x.levels with
  | [] => x
  | l :: _ =>
    let ids := x.levels.map (·.id)
    { x with regs := l.bank, levels := [], ssb := x.ssb.filter (·.level.isNone),
             results := x.results.filter fun r => !(r.levels.any fun k => decide (k ∈ ids)) }

/-- A tile halts (R205). -/
def tileHalt (s : State) (i code detail : Nat) : State :=
  let x := dropLevels (tileGet s i)
  let s := tileSet s i { x with running := false, halted := true, haltCode := code, wait := none, tray := {}, delay := 0, target := none }
  pageIrq (capture s (pgFt + i) code 0 detail) (pgFt + i) 1

/-- The check that the Tray at issue fails (R204, R193), and LANE_BUSY. -/
def issueCheck (s : State) (i : Nat) (ws : List DWord) : Nat :=
  let x := tileGet s i
  let c := trayCheck s.var (tileTrays s i) s.time.period x.next ws (decide (0 < x.delay)) (x.regs.nest.map fun k => (x.regs.l.get {} k).last)
  if c ≠ 0 then c
  else if tileTrays s i ≤ x.next then 8
  else
    let busy := fun k => decide (x.cycle < x.lanes.get 0 k)
    let needs := (List.range 4).any fun k => busy k && (isMulVa (ws.getD (9 + k) 0) || isOuter (ws.getD 8 0))
    if needs then 13 else 0

/-- The lane groups that a Tray occupies (R193). -/
def takeLanes (x : Tile) (ws : List DWord) : Tile :=
  let t := (List.range 4).foldl (fun (t : Tab Nat) k =>
    let w := ws.getD (9 + k) 0
    let n := if isOuter (ws.getD 8 0) then mxPass (ws.getD 8 0) else if isMulVa w then vaPass w else 0
    if n = 0 then t else t.set 0 k (x.cycle + n)) x.lanes
  { x with lanes := t }

/-- The Tray begins to issue: its words are read from SRAM with their ECC effects and its lane groups are taken. -/
def trayBegin (s : State) (i : Nat) (ws : List DWord) : State :=
  let n := (tileGet s i).next
  let s := eachIn (List.range 16) (fun s k => (tileRead s i (16 * n + k)).2) s
  tileSet s i (takeLanes (tileGet s i) ws)

/-! ### Stores, sends and the SSB -/

/-- The place of a release port in the word numbering of a tile's stores: above the 32 768 words of SRAM. -/
abbrev portWord : Nat := 0x8000

/-- The logical position that a tile holds. -/
def tilePos (s : State) (i : Nat) : Option Nat :=
  if s.fget (pgFt + i) F.FT_ROLE_ROLE = 0 then some (s.fget (pgFt + i) F.FT_ROLE_POSITION) else none

/-- The physical tile that holds a position. -/
def posTile (s : State) (p : Nat) : Option Nat := (List.range s.var.facetTiles).find? fun i => decide (tilePos s i = some p)

/-- The part of the plan in force at a position. -/
def planTile (s : State) (p : Nat) : Option PlanTile :=
  match s.time.plan with
  | none => none
  | some q => q.tiles.find? fun t => t.pos = p

/-- The release register that a tile's release port is bound to. -/
def portReg (s : State) (i port : Nat) : Option Nat :=
  match tilePos s i with
  | none => none
  | some p => match planTile s p with
    | none => none
    | some t => (t.ports.find? fun b => b.1 = port).map Prod.snd

/-- ADDR_RANGE with the address (Table 6.15). -/
def addrRange (s : State) (i addr : Nat) : State := capture s (pgFt + i) 0x0604 0 (addr % 2 ^ 19)

/-- A store reaches SRAM, or its release crossing starts (R179, R178). -/
def storeOut (s : State) (i word : Nat) (c : Cont) : State :=
  if word < portWord then tileWrite s i word c.val c.poison
  else match portReg s i (word - portWord) with
    | none => addrRange s i (8 * word)
    | some r => { s with time := { s.time with crossings := s.time.crossings ++ [(r, { val := c.val, poison := c.poison })] } }

/-- A speculative store (R197, R198). -/
def storeSpec (x : Tile) (l : Level) (word : Nat) (c : Cont) : Tile :=
  if x.ssb.any fun e => e.word == word && e.level == some l.id then
    { x with ssb := x.ssb.map fun e => if e.word = word ∧ e.level = some l.id then { e with val := c } else e }
  else if 512 ≤ x.ssb.length then
    { x with levels := x.levels.map fun k => if k.id = l.id then { k with overflow := true } else k }
  else { x with ssb := x.ssb ++ [{ word := word, val := c, level := some l.id }] }

/-- The stores of a Tray, in slot order (R186). -/
def trayStores (s : State) (i : Nat) : State :=
  let x := tileGet s i
  let sorted := (List.range 16).flatMap fun k => x.tray.stores.filter fun t => t.slot = k
  eachIn sorted (fun s t =>
    let x := tileGet s i
    match x.levels.getLast? with
    | none => storeOut s i t.word t.val
    | some l => tileSet s i (storeSpec x l t.word t.val)) s

/-- The datum that a SEND carries: S in lane 0, or the 16 lanes of V; a lane that is not sent holds an open value. -/
def sendLanes (c : Ctx) (ctr : Nat) : List Cont :=
  let r := bitsOf c.w 45 6
  if bitAt c.w 44 then
    (List.range 16).map fun n => if c.guard n = .pass then c.x.regs.vGet r n else cont (Config.meshLane ctr n) false
  else (List.range 16).map fun n => if n = 0 then c.x.regs.sGet r else cont (Config.meshLane ctr n) false

/-- The SEND of a Tray leaves (R190, R200). -/
def traySend (s : State) (i : Nat) : State :=
  let x := tileGet s i
  match x.tray.send with
  | none => s
  | some w =>
    let c : Ctx := { i := i, slot := 6, w := w, imx := 0, x := x }
    let d : MeshDatum := { pos := bitsOf w 34 6, chan := bitsOf w 40 4, lanes := sendLanes c s.freeCtr, spec := !x.levels.isEmpty }
    { s with facet := { s.facet with mesh := s.facet.mesh ++ [d] }, freeCtr := s.freeCtr + 1 }

/-! ### Speculation -/

/-- SPEC.BEGIN opens a level; a third one does not open (Table 6.9). The results of the Tray belong to it (R194). -/
def specOpen (x : Tile) : Tile :=
  if 2 ≤ x.levels.length then x
  else
    { x with levels := x.levels ++ [{ id := x.nextLevel, bank := x.regs }], nextLevel := x.nextLevel + 1,
             results := x.results.map fun r => if r.issue = x.cycle then { r with levels := r.levels ++ [x.nextLevel] } else r }

/-- Squash a level and those inside it (Table 6.9). -/
def squashFrom (x : Tile) (k : Nat) : Tile :=
  match x.levels[k - 1]? with
  | none => x
  | some l =>
    let ids := (x.levels.drop (k - 1)).map (·.id)
    { x with regs := l.bank, levels := x.levels.take (k - 1),
             ssb := x.ssb.filter fun e => match e.level with
               | none => true
               | some d => !(decide (d ∈ ids)),
             results := x.results.filter fun r => !(r.levels.any fun d => decide (d ∈ ids)) }

/-- Close the open loops that do not hold a destination, and every loop inside them (R189). -/
def closeLoops (r : Regs) (dest : Nat) : Regs :=
  let outside := fun k => let c := r.l.get {} k; !(decide (c.first ≤ dest) && decide (dest ≤ c.last))
  let keep := ((r.nest.reverse).takeWhile fun k => !outside k).reverse
  let gone := r.nest.filter fun k => !(decide (k ∈ keep))
  { r with nest := keep, l := gone.foldl (fun (t : Tab LoopCtr) k => t.set {} k {}) r.l }

/-- The entries of a level become committed (COMMIT1, COMMIT1_OF_2). -/
def commitFirst (x : Tile) (l : Level) : Tile :=
  { x with levels := x.levels.drop 1, ssb := x.ssb.map fun e => if e.level = some l.id then { e with level := none } else e }

/-- MERGE: the entries of level 2 join level 1, the value of level 2 kept where both hold a word; OVERFLOW passes (R195, R198). -/
def commitMerge (x : Tile) (l1 l2 : Level) : Tile :=
  let two := x.ssb.filter fun e => e.level = some l2.id
  let kept := x.ssb.filterMap fun e =>
    if e.level = some l2.id then
      (if x.ssb.any fun o => o.word == e.word && o.level == some l1.id then none else some { e with level := some l1.id })
    else if e.level = some l1.id then
      (match two.find? fun o => o.word = e.word with
       | some o => some { e with val := o.val }
       | none => some e)
    else some e
  { x with levels := [{ l1 with overflow := l1.overflow || l2.overflow }], ssb := kept }

/-- Where the next Tray comes from after the control action of a Tray. -/
inductive Redirect where
  | none
  | squash (target : Nat)
  | stop (code : Nat)
  deriving DecidableEq, Repr

/-- A squash with its count (R195). -/
def doSquash (s : State) (i k target : Nat) : State × Redirect :=
  let s := s.fincSat (pgFt + i) F.FT_SPEC_CNT_SQUASHES 1
  (tileSet s i (squashFrom (tileGet s i) k), .squash target)

/-- SPEC_STATE: the level is not open. -/
def specState (s : State) (i : Nat) : State × Redirect := (capture s (pgFt + i) 0x0605 0 0, .none)

/-- SPEC.COMMIT of level K (Table 6.9, R198). -/
def doCommit (s : State) (i k target : Nat) : State × Redirect :=
  let x := tileGet s i
  match x.levels[k - 1]? with
  | none => specState s i
  | some l =>
    if l.overflow then doSquash (capture s (pgFt + i) 0x0606 0 0) i k target
    else if k = 1 then (tileSet (s.fincSat (pgFt + i) F.FT_SPEC_CNT_COMMITS 1) i (commitFirst x l), .none)
    else (tileSet s i (commitMerge x (x.levels.headD {}) l), .none)

/-- The control action at the end of a Tray, the opening of a level apart. -/
def trayControl (s : State) (i : Nat) (depth : Bool) : State × Redirect :=
  let x := tileGet s i
  match x.tray.control with
  | some (.specCommit k t) => doCommit s i k t
  | some (.specSquash k t) => if k ≤ x.levels.length then doSquash s i k t else specState s i
  | some .specBegin => (s, if depth then .stop 0x0601 else .none)
  | some .poisoned => (s, .stop 0x0602)
  | some (.loopSet k t n) =>
    if 4 ≤ x.regs.nest.length then (s, .stop 0x0601)
    else
      let r := { x.regs with l := x.regs.l.set {} k { left := n, first := x.next + 1, last := t },
                             nest := k :: x.regs.nest.filter (· ≠ k) }
      (tileSet s i { x with regs := r }, .none)
  | _ => (s, .none)

/-! ### Receives -/

/-- The writes of a RECV (R191, R200): each lane of the datum, or poison. -/
def recvWrites (c : Ctx) (d : Option ChanDatum) (leak : Bool) : List FxWrite :=
  let lane := fun n => match d with
    | some d => if leak then cont 0 true else d.lanes.getD n {}
    | none => cont 0 true
  let r := bitsOf c.w 45 6
  if bitAt c.w 39 then
    (List.range 16).flatMap fun n =>
      guarded (c.guard n) (fun x => .q (r % 16) n (x.val.getLsbD 0) x.poison) (lane n)
  else if bitAt c.w 44 then (List.range 16).flatMap fun n => guarded (c.guard n) (.v r n) (lane n)
  else guarded (c.guard 0) (.s r) (lane 0)

/-- The position whose datum a channel waits for is lost (R158). -/
def senderLost (s : State) (i chan : Nat) : Bool :=
  match tilePos s i, s.time.plan with
  | some p, some q => q.peerSends.any fun e => match e.1 with
    | some src => decide (e.2.1 = p) && decide (e.2.2.1 = chan) && decide (src ∈ s.time.lost)
    | none => false
  | _, _ => false

/-- The RECV of a Tray: CROSSING_LATE for an empty channel, SPEC_LEAK for a speculative datum with no level open at the end of the cycle
(R191, R200, R208), and its result after 2 cycles. `before` are the levels the Tray belongs to; `ended` says that they were squashed. -/
def trayRecv (s : State) (i : Nat) (c : Ctx) (d : Option ChanDatum) (before : List Nat) : State :=
  let x := tileGet s i
  let leak := match d with
    | some d => d.spec && x.levels.isEmpty
    | none => false
  let s := if leak then capture s (pgFt + i) 0x0607 0 0 else s
  let s := if d.isNone ∧ ¬ senderLost s i (bitsOf c.w 40 4) then capture s (pgFt + i) 0x0F02 0 0 else s
  let x := tileGet s i
  let r : Result := { due := c.x.cycle + 2, issue := c.x.cycle, slot := 7, levels := before, writes := recvWrites c d leak }
  tileSet s i { x with results := x.results ++ [r] }

/-! ### The end of a Tray -/

/-- The loops that end at a Tray, innermost first (R188): the next Tray, and the counters. -/
def loopReturn (r : Regs) (idx : Nat) : List Nat → Regs × Nat
  | [] => ({ r with nest := [] }, idx + 1)
  | k :: rest =>
    let c := r.l.get {} k
    if c.last ≠ idx then ({ r with nest := k :: rest }, idx + 1)
    else if 1 < c.left then ({ r with l := r.l.set {} k { c with left := c.left - 1 }, nest := k :: rest }, c.first)
    else loopReturn { r with l := r.l.set {} k {} } idx rest

/-- The next Tray with no redirect: loops, then the delay Trays of a BR (R188, R189). -/
def advance (x : Tile) (isBr : Bool) (target : Option Nat) : Tile :=
  let idx := x.next
  let seq := fun (x : Tile) => let (r, n) := loopReturn x.regs idx x.regs.nest; { x with regs := r, next := n }
  let x := { x with pc := idx, cycle := x.cycle + 1 }
  if isBr then { seq x with delay := 5, target := target }
  else if x.delay = 1 then
    match x.target with
    | some t => { x with delay := 0, target := none, next := t, regs := closeLoops x.regs t }
    | none => { seq x with delay := 0 }
  else { seq x with delay := x.delay - 1 }

/-- The copy tick of the next base-period tick of a phase at or after a cycle (Table 6.6, WAIT.BP). -/
def waitTick (s : State) (cycle phase : Nat) : Nat :=
  let t := 4 * cycle / 5
  let p := s.time.period
  let base := s.time.epochTick + (t - s.time.epochTick) / p * p
  if t ≤ base + phase then base + phase else base + phase + p

/-- Every slot of the Tray is done: the level it opens, its stores and send, its control action, its receive, and the next Tray. -/
def trayEnd (s : State) (i : Nat) : State :=
  let x := tileGet s i
  let ctl := x.tray.control
  let s := s.reach (cycleTick s i x.cycle)
  let depth := ctl == some .specBegin && decide (2 ≤ x.levels.length)
  let s := if ctl = some .specBegin then tileSet s i (specOpen x) else s
  let before := (tileGet s i).levels.map (·.id)
  let s := traySend (trayStores s i) i
  let recv := (tileGet s i).tray.recv
  let idx := x.next
  let (s, red) := trayControl s i depth
  let squashed := match red with
    | .squash _ => true
    | _ => false
  let now := (tileGet s i).levels.map (·.id)
  let s := match recv with
    | none => s
    | some (w, d) =>
      let c : Ctx := { i := i, slot := 7, w := w, imx := 0, x := x }
      let gone := squashed && before.any fun k => !(decide (k ∈ now))
      if gone then s else trayRecv s i c d before
  let y := tileGet s i
  match red with
  | .stop code => tileHalt (tileSet s i { y with pc := idx, cycle := x.cycle + 1, tray := {} }) i code 0
  | .squash t =>
    tileSet s i { y with pc := idx, next := t, cycle := x.cycle + 6, tray := {}, delay := 0, target := none, regs := closeLoops y.regs t }
  | .none =>
    let brt := match ctl with
      | some (.br t) => some t
      | _ => none
    let isBr := slotOp ((fetchTray x i idx).getD 0 0) == 1
    let y := { (advance y isBr brt) with tray := {} }
    match ctl with
    | some (.waitBp ph) => tileSet s i { y with wait := some (waitTick s y.cycle ph) }
    | some .halt => tileSet s i { y with running := false, delay := 0, target := none }
    | _ => tileSet s i y

/-- Hold what a slot operation leaves, and end the Tray when all 15 slots are done (DESIGN CHOICE, assumption 92). -/
def slotDone (s : State) (c : Ctx) (fx : SlotFx) : State :=
  let x := tileGet s c.i
  let t := x.tray
  let t := { t with done := natPutBit t.done c.slot true, control := fx.control <|> t.control, stores := t.stores ++ fx.stores,
                    recv := fx.recv <|> t.recv, send := fx.send <|> t.send }
  let rs := if fx.writes = [] then x.results
    else x.results ++ [{ due := x.cycle + fx.lat, issue := x.cycle, slot := c.slot, levels := x.levels.map (·.id), writes := fx.writes }]
  let s := tileSet s c.i { x with tray := t, results := rs }
  if t.done = 0x7FFF then trayEnd s c.i else s

/-- One slot of the Tray that a tile issues (R182): it acts when the slot belongs to the class and holds the operation. A Tray that fails a
check does not issue and halts the tile (R204). -/
def runSlot (s : State) (tile slot : Nat) (cls : SlotClass) (op : Nat) (f : State → Ctx → State × SlotFx) : State :=
  let x := tileGet s tile
  if ¬ issuing s tile ∨ 15 ≤ slot ∨ slotClass slot ≠ cls ∨ natBit x.tray.done slot then s
  else
    let ws := fetchTray x tile x.next
    let bad := if x.tray.done = 0 then issueCheck s tile ws else 0
    if bad ≠ 0 then tileHalt s tile 0x0600 (x.next + bad * 2 ^ 16)
    else if slotOp (ws.getD slot 0) ≠ op then s
    else
      let s := if x.tray.done = 0 then trayBegin s tile ws else s
      let c : Ctx := { i := tile, slot := slot, w := ws.getD slot 0, imx := ws.getD 15 0, x := tileGet s tile }
      let (s, fx) := f s c
      slotDone s c fx

/-- An operation that only leaves a result. -/
def pureSlot (f : Ctx → SlotFx) (s : State) (c : Ctx) : State × SlotFx := (s, f c)

/-! ### Results -/

/-- Write a result to the live registers, and to the shadow bank of each level that opened after it was issued (R196). -/
def landResult (x : Tile) (r : Result) : Tile :=
  { x with
    regs := r.writes.foldl Regs.write x.regs,
    levels := x.levels.map fun l => if l.id ∈ r.levels then l else { l with bank := r.writes.foldl Regs.write l.bank } }

/-- The results of one cycle in the order in which the last one written is kept (R186): by issue cycle, then by slot. -/
def orderResults (rs : List Result) : List Result :=
  rs.foldl (fun (l : List Result) r =>
    let (a, b) := l.span fun o => o.issue < r.issue || (o.issue == r.issue && o.slot ≤ r.slot)
    a ++ r :: b) []

/-- Count the registers that two results of one cycle reach (R186). -/
def clashes : List Nat → List Result → Nat
  | _, [] => 0
  | seen, r :: rs =>
    let ts := (r.writes.map FxWrite.target).eraseDups
    (ts.filter fun t => decide (t ∈ seen)).length + clashes (seen ++ ts) rs

end Sys2Proof.Machine
end

