-- ==== Sys2Proof/Machine/Fixed.lean ====
section
/-! DEFINITION. Loop engine arithmetic: Q1.15, ACC40 and the primitives of Table 7.10 with their sticky flags (R234 to R236), and
FX45 to Q1.15 (Table 7.16). Values are integers; a Q1.15 value q stands for q·2^−15 and an ACC40 value a for a·2^−30. -/

namespace Sys2Proof.Machine

/-- SAT40 (R235). -/
def sat40 (z : Int) : Int := max (-(2 ^ 39)) (min z (2 ^ 39 - 1))
/-- SAT16 (R235). -/
def sat16 (z : Int) : Int := max (-32768) (min z 32767)

/-- A 16-bit word read as Q1.15, and back (R234). -/
def q15 (x : Nat) : Int := toSigned 16 x
def q15Bits (z : Int) : Nat := ofSigned 16 z

/-- The accumulator with the sticky flags of a channel (R236). -/
structure Acc where
  a : Int := 0
  accSat : Bool := false
  outSat : Bool := false
  deriving DecidableEq, Repr

namespace Acc

/-- Clamp into the accumulator (R235). -/
def put (c : Acc) (z : Int) : Acc := { c with a := sat40 z, accSat := c.accSat || sat40 z != z }

/-- MAC and MSC. -/
def mac (c : Acc) (x y : Int) : Acc := c.put (c.a + x * y)
def msc (c : Acc) (x y : Int) : Acc := c.put (c.a - x * y)

/-- LDA. -/
def lda (c : Acc) (q : Int) : Acc := { c with a := q * 2 ^ 15 }

/-- SHL k, k = 1 to 8; none at 0. -/
def shl (c : Acc) (k : Nat) : Acc := c.put (c.a * 2 ^ k)

/-- SHR k: floor (Table 7.10). -/
def shr (c : Acc) (k : Nat) : Acc := { c with a := c.a / 2 ^ k }

/-- CLAMP lo, hi. -/
def clamp (c : Acc) (lo hi : Int) : Acc := { c with a := min (max c.a (lo * 2 ^ 15)) (hi * 2 ^ 15) }

/-- A division by 2^k rounded to nearest, ties to even. -/
def rne (a : Int) (k : Nat) : Int :=
  let q := a / 2 ^ k
  let r := a % 2 ^ k
  if 2 ^ k < 2 * r ∨ (2 * r = 2 ^ k ∧ q % 2 = 1) then q + 1 else q

/-- SAT16 with OUT_SAT. -/
def sat (c : Acc) (z : Int) : Int × Acc := (sat16 z, { c with outSat := c.outSat || sat16 z != z })

/-- OUT. -/
def out (c : Acc) : Int × Acc := c.sat (rne c.a 15)

/-- QADD and QSUB. -/
def qadd (c : Acc) (x y : Int) : Int × Acc := c.sat (x + y)
def qsub (c : Acc) (x y : Int) : Int × Acc := c.sat (x - y)

end Acc

/-- FX45 to Q1.15 with whether a value was clamped (Table 7.16, R243). -/
def fxToQ15 (x : Nat) : Int × Bool :=
  match fxVal x with
  | .nan => (0, false)
  | .inf s => (if s then -32768 else 32767, true)
  | v => match rneInt v 15 with
    | none => (0, false)
    | some z => (sat16 z, sat16 z != z)

/-- Q1.15 to FX45 (Table 7.16). -/
def q15ToFx (q : Int) : Nat := fx (.fin (decide (q < 0)) q.natAbs (-15))

end Sys2Proof.Machine
end

