-- ==== Sys2Proof/Machine/Pwm.lean ====
section
/-! DEFINITION. PWM pairs, trip inputs and the Loupe (chapter 10), and its SPI target port (R165 to R167). -/

namespace Sys2Proof.Machine

/-! ### PWM pairs -/

/-- States of a pair (Table 10.8). -/
abbrev pwmIdle : Nat := 0
abbrev pwmRun : Nat := 1
abbrev pwmTripped : Nat := 2
abbrev pwmOut : Nat := 3

def pairGet (s : State) (n : Nat) : PwmPair := s.pwm.pairs.get {} n
def pairSet (s : State) (n : Nat) (x : PwmPair) : State := { s with pwm := { s.pwm with pairs := s.pwm.pairs.set {} n x } }

/-- Samples per base period that a DIV field encodes (R284, R318). -/
def divSamples (d : Nat) : Nat := if d = 0 then 0 else 2 ^ (d - 1)

/-- The pair has a schedule in force. -/
def pairScheduled (s : State) (n : Nat) : Bool :=
  s.time.plan.isSome && s.fget (pgPwm + n) F.PWM_SCHED_DIV != 0 && !s.loop.down

/-- The PTB value of an island's aligned copy (R40). -/
def copyTick (s : State) (island tick : Nat) : Int := (tick : Int) + (s.time.copies.get {} island).off

/-- A tick, on the LOOP copy, is one of the instants B + phase + i·P/d from the plan epoch on (R284, R318). -/
def gridInstant (s : State) (phase d tick : Nat) : Bool :=
  let t := copyTick s 68 tick
  let first : Int := s.time.epochTick + phase
  d != 0 && (s.time.copies.get {} 68).valid && decide (first ≤ t) && decide ((t - first) % ((s.time.period / d : Nat) : Int) = 0)

/-- The outputs of a pair (R324). -/
def setOutputs (s : State) (n : Nat) (h l : Bool) : State :=
  (s.fset (pgPwm + n) F.PWM_STAT_H_ON (b2n h)).fset (pgPwm + n) F.PWM_STAT_L_ON (b2n l)

/-- H_ref in cycle C of a period (R323). -/
def hRef (center : Bool) (per cmp c : Nat) : Bool :=
  if center then
    let l := (per - cmp) / 2
    decide (l ≤ c) && decide (c < l + cmp)
  else decide (c < cmp)

/-- The active compare from the stage (R322). -/
def pwmConvert (unsignedMap : Bool) (per u : Nat) : Nat :=
  let q := q15 u
  if unsignedMap then (max q 0).toNat * per / 32767 else (q + 32768).toNat * per / 65536

/-- H_ref changes at a tick: the other output turns off at once and the selected one on after the dead time (R324). -/
def refChange (s : State) (n : Nat) (h : Bool) (tick : Nat) : State :=
  let x := pairGet s n
  let hOn := s.fbit (pgPwm + n) F.PWM_STAT_H_ON
  let lOn := s.fbit (pgPwm + n) F.PWM_STAT_L_ON
  if x.dt = 0 then setOutputs (pairSet s n { x with href := h, due := none }) n h (!h)
  else
    setOutputs (pairSet s n { x with href := h, due := some (h, tick + 2 * x.dt) }) n (hOn && h) (lOn && !h)

/-- Which hold bits of R326 are due: INPUT, LOUPE, DEAD, CHAN and OOS. -/
def chanReach (s : State) : Nat → Nat → List Nat
  | 0, _ => []
  | f + 1, c =>
    let go := fun r => if r < 0x10 then [r] else if 0x40 ≤ r ∧ r < 0x60 then chanReach s f (r - 0x40) else []
    go (s.fget (pgCh + c) F.CH_ROUTE_ROUTE0) ++ go (s.fget (pgCh + c) F.CH_ROUTE_ROUTE1)

/-- Pairs held under R330 through a channel: those that it or any channel nested within it routes to under the plan in force. -/
def chanPairs (s : State) (c : Nat) : List Nat := if s.time.plan.isSome then chanReach s 5 c else []

/-- A page's unit is out of service. -/
def pageOut (s : State) (p : Nat) : Bool := s.fbit p F.PG_STAT_OUT_OF_SERVICE

def holdInput (s : State) (n : Nat) : Bool :=
  (List.range 8).any fun i =>
    natBit (s.fget pgTrip F.TRIP_STAT_LATCH) i && natBit (s.fget pgTrip (F.TRIP_CFG_PAIRS.sh (4 * i))) n

def holdLoupe (s : State) (n : Nat) : Bool :=
  s.fbit pgLoupe F.LOUPE_STOP_WHOLE ||
  (List.range 8).any fun g =>
    natBit (s.fget pgLoupe F.LOUPE_STOP_GROUPS) g && natBit (s.fget pgLoupe (F.LOUPE_GROUP_PAIRS.sh (4 * g))) n

def holdChan (s : State) (n : Nat) : Bool :=
  (List.range s.var.loopChannels).any fun c => pageOut s (pgCh + c) && (chanPairs s c).contains n

/-- The hold bits of a pair as they are due (R326). -/
def holdsDue (s : State) (n : Nat) : Nat :=
  b2n (holdInput s n) + 2 * b2n (holdLoupe s n) + 4 * b2n (s.fbit pgTrip F.TRIP_STAT_DEAD) + 8 * b2n (holdChan s n)
    + 16 * b2n (pageOut s (pgPwm + n))

/-- The trip state of a pair (Table 10.3). -/
def tripState (s : State) (n : Nat) : Nat := bitsOf (s.reg pgLoupe F.LOUPE_PAIR_TS.off) (2 * n) 2

/-- Put the pads of a pair at its trip state: a dead time in progress is abandoned, and LOW_ON counts its own afresh (R326). -/
def tripPads (s : State) (n : Nat) : State :=
  let dt := s.fget (pgPwm + n) F.PWM_CFG_DT
  let ts := tripState s n
  let due := if ts = 1 ∧ dt ≠ 0 then some (false, s.now + 2 * dt) else none
  setOutputs (pairSet s n { pairGet s n with due := due, hiz := decide (ts = 2), resume := false }) n false
    (decide (ts = 1 ∧ dt = 0))

/-- A pair goes to IDLE: both outputs off (R320). -/
def pairIdle (s : State) (n : Nat) : State :=
  (setOutputs (pairSet s n { pairGet s n with due := none, hiz := false, href := false, resume := false }) n false false).fset
    (pgPwm + n) F.PWM_STAT_STATE pwmIdle

/-- Give a pair its hold bits (R326, R327, R348). -/
def setHolds (s : State) (n holds : Nat) : State :=
  let p := pgPwm + n
  let old := s.fget p F.PWM_STAT_HOLD
  if holds = old then s
  else
    let s := s.fset p F.PWM_STAT_HOLD holds
    if holds ≠ 0 then
      let x := pairGet s n
      let s := if old = 0 ∧ ¬ x.resume then (tripPads s n).fincSat p F.PWM_COUNT_TRIPS 1
               else pairSet s n { x with resume := false }
      let st := if natBit holds 4 then pwmOut else pwmTripped
      if s.fget p F.PWM_STAT_STATE = st then s else pageIrq (s.fset p F.PWM_STAT_STATE st) p 1
    else if pairScheduled s n then
      let s := pairSet s n { pairGet s n with resume := true }
      if s.fget p F.PWM_STAT_STATE = pwmOut then pageIrq (s.fset p F.PWM_STAT_STATE pwmTripped) p 1 else s
    else pageIrq (pairIdle s n) p 2

/-- Every pair takes the hold bits due to it. -/
def refreshHolds (s : State) : State := eachIn (List.range s.var.pwmPairs) (fun s n => setHolds s n (holdsDue s n)) s

/-- The pair is in its trip state (R303). -/
def pairTripped (s : State) (n : Nat) : Bool := pwmTripped ≤ s.fget (pgPwm + n) F.PWM_STAT_STATE

/-- A value is written to a pair's compare stage at a tick (R321). -/
def stageWrite (s : State) (n v tick : Nat) : State :=
  let p := pgPwm + n
  let s := pairSet s n { pairGet s n with stageOld := s.fget p F.PWM_STAGE_VALUE, stageAt := tick }
  s.fset p F.PWM_STAGE_VALUE v

/-- The first boundary-scan cell of a PWM ball: 37 digital balls of the West region stand before PWM0H (R652, Table 20.2). -/
def scanPwm (n : Nat) (high : Bool) : Nat := 3 * (37 + 2 * n + b2n (!high))

/-- What the test port drives on a PWM ball under EXTEST, CLAMP and HIGHZ; none where the pair drives it, as it does while a Loupe hold of
R326 stands (R652, R653). -/
def scanDrive (s : State) (n : Nat) (high : Bool) : Option (Option Bool) :=
  if holdLoupe s n then none
  else if s.jtag.ir = 0x04 then some none
  else if s.jtag.ir = 0x00 ∨ s.jtag.ir = 0x03 then
    some (if s.jtag.cells.getLsbD (scanPwm n high + 1) then some (s.jtag.cells.getLsbD (scanPwm n high)) else none)
  else none

/-- The level of a pair's pin: none in high impedance, as it is until the Loupe has completed a power-on reset (R324, R332, R612, R637, R657). -/
def pwmPin (s : State) (n : Nat) (high : Bool) : Option Bool :=
  let p := pgPwm + n
  let scan := scanDrive s n high
  if s.var.pwmPairs ≤ n ∨ ¬ s.loupe.vioSafe ∨ ¬ s.boot.loupeUp then none
  else if scan.isSome then scan.getD none
  else if (pairGet s n).hiz then none
  else if high then some (s.fbit p F.PWM_STAT_H_ON != s.fbit p F.PWM_CFG_INV_H)
  else some (s.fbit p F.PWM_STAT_L_ON != s.fbit p F.PWM_CFG_INV_L)

/-- The pair rejoins at this period start after a self-test that passed (Table 5.7): compare registers zero, back in service. -/
def pairRejoin (s : State) (n : Nat) : State :=
  let p := pgPwm + n
  if (s.page p).joining then
    let s := markIn s p
    let s := (s.setReg p F.PWM_CMP_VALUE.off 0).setReg p F.PWM_STAGE_VALUE.off 0
    setHolds s n (holdsDue s n)
  else s

/-- A period start (R321, R320, R324, R327, R347). -/
def periodStart (s : State) (n tick : Nat) : State :=
  let s := pairRejoin s n
  let p := pgPwm + n
  let x := pairGet s n
  let per := s.time.period / (2 * divSamples (s.fget p F.PWM_SCHED_DIV))
  let stage := if x.stageAt < tick then s.fget p F.PWM_STAGE_VALUE else x.stageOld
  let cmp := pwmConvert (s.fbit p F.PWM_CFG_MAP) per stage
  let s := (s.fset p F.PWM_ACTIVE_CMP cmp).fset p F.PWM_PER_PER per
  let x := { x with center := s.fbit p F.PWM_CFG_MODE, dt := s.fget p F.PWM_CFG_DT, start := some tick }
  let s := pairSet s n x
  let h := hRef x.center per cmp 0
  let st := s.fget p F.PWM_STAT_STATE
  let enabled := s.fbit p F.PG_CTRL_ENABLE
  let fresh := fun s => refChange (setOutputs (pairSet s n { pairGet s n with hiz := false, resume := false, due := none }) n
    false false) n h tick
  if st = pwmTripped ∧ x.resume then
    if enabled then pageIrq (fresh (s.fset p F.PWM_STAT_STATE pwmRun)) p 2 else pageIrq (pairIdle s n) p 2
  else if st = pwmIdle then (if enabled ∧ s.fget p F.PWM_STAT_HOLD = 0 then fresh (s.fset p F.PWM_STAT_STATE pwmRun) else s)
  else if st = pwmRun ∧ h ≠ x.href then refChange s n h tick
  else s

/-- PWM_PERIOD_START: at one of the pair's period starts. -/
def execPwmPeriodStart (pair tick : Nat) (s : State) : Host.Outcome State Fault Refusal :=
  let s := s.reach tick
  nxt <|
    if pair < s.var.pwmPairs ∧ pairScheduled s pair
        ∧ gridInstant s (s.fget (pgPwm + pair) F.PWM_SCHED_PHASE) (divSamples (s.fget (pgPwm + pair) F.PWM_SCHED_DIV)) tick
    then periodStart s pair tick else s

/-- PWM_COMPARE_MATCH: the counter reaches a compare edge of the running period (R323). -/
def execPwmCompareMatch (pair tick : Nat) (s : State) : Host.Outcome State Fault Refusal :=
  let s := s.reach tick
  let p := pgPwm + pair
  let x := pairGet s pair
  nxt <| match x.start with
    | none => s
    | some t0 =>
      let h := hRef x.center (s.fget p F.PWM_PER_PER) (s.fget p F.PWM_ACTIVE_CMP) ((tick - t0) / 2)
      if pair < s.var.pwmPairs ∧ s.fget p F.PWM_STAT_STATE = pwmRun ∧ t0 ≤ tick ∧ h ≠ x.href
      then refChange s pair h tick else s

/-- DEAD_TIME_EXPIRY (R324, Table 10.3). -/
def execDeadTimeExpiry (pair tick : Nat) (s : State) : Host.Outcome State Fault Refusal :=
  let s := s.reach tick
  let x := pairGet s pair
  nxt <| match x.due with
    | none => s
    | some (h, t) =>
      if pair < s.var.pwmPairs ∧ t ≤ tick then
        let s := pairSet s pair { x with due := none }
        let st := s.fget (pgPwm + pair) F.PWM_STAT_STATE
        if st = pwmRun then (if x.href = h then setOutputs s pair h (!h) else s)
        else if st ≠ pwmIdle ∧ ¬ h then setOutputs s pair false true else s
      else s

/-- A write of PWM_CMP: it goes to the stage where no route of the plan in force names the pair (R321). -/
def pwmCmpWrite (s : State) (n : Nat) (w : Word) : State :=
  let p := pgPwm + n
  let s := s.fset p F.PWM_CMP_VALUE (bitsOf w 0 16)
  if s.fbit p F.PWM_SCHED_ROUTED then s else stageWrite s n (bitsOf w 0 16) s.now

/-- PG_CTRL.ENABLE of a pair (R320). -/
def pwmEnable (s : State) (n : Nat) (on : Bool) : State :=
  let s := s.fset (pgPwm + n) F.PG_CTRL_ENABLE (b2n on)
  if ¬ on ∧ s.fget (pgPwm + n) F.PWM_STAT_STATE = pwmRun then pairIdle s n else s

/-- Every pair's copy of LOUPE_PAIR_TS; a pair in its trip state moves to the new one (R326). -/
def pairTsChanged (s : State) (old : Word) : State :=
  eachIn (List.range s.var.pwmPairs) (fun s n =>
    let s := s.fset (pgPwm + n) F.PWM_TS_STATE (tripState s n)
    if bitsOf old (2 * n) 2 ≠ tripState s n ∧ pairTripped s n then tripPads s n else s) s

/-! ### Trip inputs -/

/-- A trip latch sets (R328, R329). -/
def tripLatch (s : State) (n : Nat) : State :=
  let l := s.fget pgTrip F.TRIP_STAT_LATCH
  if natBit l n then s
  else
    let s := s.fset pgTrip F.TRIP_STAT_LATCH (natPutBit l n true)
    let s := s.fincSat pgTrip (F.TRIP_COUNT_COUNT.sh (4 * n)) 1
    refreshHolds (pageIrq s pgTrip 1)

/-- TRIP_INPUT_ACTIVE: with FILTER = 0 the latch sets on the first active level (R328). -/
def execTripInputActive (input tick : Nat) (s : State) : Host.Outcome State Fault Refusal :=
  let s := s.reach tick
  nxt <|
    if 8 ≤ input ∨ s.loop.down ∨ asleep s then s
    else
      let s := s.fset pgTrip F.TRIP_STAT_RAW (natPutBit (s.fget pgTrip F.TRIP_STAT_RAW) input true)
      let s := { s with pwm := { s.pwm with tripSince := s.pwm.tripSince.ins input tick } }
      if s.fbit pgTrip (F.TRIP_CFG_ENABLE.sh (4 * input)) ∧ s.fget pgTrip (F.TRIP_CFG_FILTER.sh (4 * input)) = 0
      then tripLatch s input else s

/-- TRIP_LATCH_SET: the input has been active for FILTER + 1 cycles (R328). -/
def execTripLatchSet (input tick : Nat) (s : State) : Host.Outcome State Fault Refusal :=
  let s := s.reach tick
  nxt <| match s.pwm.tripSince.find? input with
    | none => s
    | some t0 =>
      if input < 8 ∧ ¬ asleep s ∧ s.fbit pgTrip (F.TRIP_CFG_ENABLE.sh (4 * input)) ∧ natBit (s.fget pgTrip F.TRIP_STAT_RAW) input
          ∧ t0 + 2 * s.fget pgTrip (F.TRIP_CFG_FILTER.sh (4 * input)) ≤ tick
      then tripLatch s input else s

/-- The latches a TRIP_CLR write names, against the levels of the inputs in the cycle in which it is taken (R329, R348). -/
def tripClear (s : State) (part bits raw : Nat) : State :=
  let latch := s.fget pgTrip F.TRIP_STAT_LATCH
  let pick := fun (f : Nat → Bool) => ((List.range 8).filter f).foldl (fun a i => a + 2 ^ i) 0
  let refused := pick fun i => natBit bits i && natBit latch i && natBit raw i
  let left := pick fun i => natBit latch i && !(natBit bits i && !natBit raw i)
  let s := (s.fset pgTrip F.TRIP_STAT_RAW raw).fset pgTrip F.TRIP_STAT_LATCH left
  let s := { s with pwm := { s.pwm with tripSince := s.pwm.tripSince.filter fun k => natBit raw k.1 } }
  let s := if refused ≠ 0 then capture s pgTrip 0x0A00 part refused else s
  refreshHolds s

/-- TRIP_CLR (DEDUCED, assumption 22). -/
def execTripClr (part : Nat) (data : Word) (raw : BitVec 8) (s : State) : Host.Outcome State Fault Refusal :=
  nxt <| pageWrite s part pgTrip fun s => tripClear s part (bitsOf data 0 8) raw.toNat

/-- A write of TRIP_FORCE (R329). -/
def tripForce (s : State) (data : Word) : State := eachIn ((List.range 8).filter (natBit (bitsOf data 0 8))) tripLatch s

/-- TRIP_FORCE (R329). -/
def execTripForce (part : Nat) (data : Word) (s : State) : Host.Outcome State Fault Refusal :=
  nxt (pageWrite s part pgTrip fun s => tripForce s data)

/-! ### Stop requests -/

/-- Groups and WHOLE that a level source requests, and whether it is enabled (Table 10.4). -/
structure LoupeSource where
  groups : Nat
  whole : Bool
  enabled : Bool
  recoverable : Bool
  deriving DecidableEq, Repr

/-- A level source's settings (Table 10.12). -/
def loupeSource (s : State) (src : Nat) : LoupeSource :=
  let g := fun f => s.fget pgLoupe f
  if src < 8 then
    let d := 4 * src
    ⟨g (F.LOUPE_CLIFF_GROUPS.sh d), g (F.LOUPE_CLIFF_WHOLE.sh d) = 1, g (F.LOUPE_CLIFF_ENABLE.sh d) = 1,
      g (F.LOUPE_CLIFF_RECOVERABLE.sh d) = 1⟩
  else if src < 12 then
    let d := 4 * (src - 8)
    ⟨g (F.LOUPE_DROP_GROUPS.sh d), g (F.LOUPE_DROP_WHOLE.sh d) = 1, g (F.LOUPE_DROP_ENABLE.sh d) = 1, false⟩
  else if src = 12 then
    ⟨g F.LOUPE_BUMP_GROUPS, g F.LOUPE_BUMP_WHOLE = 1, g F.LOUPE_BUMP_ENABLE = 1, g F.LOUPE_BUMP_RECOVERABLE = 1⟩
  else if src = 14 then
    ⟨g F.LOUPE_WDT_CFG_GROUPS, g F.LOUPE_WDT_CFG_WHOLE = 1, g F.LOUPE_WDT_CFG_ENABLE = 1, false⟩
  else ⟨0xFF, true, true, false⟩

/-- The level source is masked by an open recovery window (R344). -/
def loupeMasked (s : State) (src : Nat) : Bool :=
  if src < 8 then natBit (s.fget pgLoupe F.LOUPE_RECOVER_STAT_CLIFF) src
  else src == 12 && s.fbit pgLoupe F.LOUPE_RECOVER_STAT_BUMP

/-- A stop request (R336). -/
def stopRequest (s : State) (src groups : Nat) (whole : Bool) : State :=
  let s := s.fset pgLoupe F.LOUPE_CAUSE_SRC (natPutBit (s.fget pgLoupe F.LOUPE_CAUSE_SRC) src true)
  let s :=
    if s.fbit pgLoupe F.LOUPE_FIRST_VALID then s
    else
      let s := s.setReg pgLoupe F.LOUPE_FIRST_VALID.off (BitVec.ofNat 32 (src + groups * 2 ^ 8 + b2n whole * 2 ^ 16 + 2 ^ 31))
      s.setReg64 pgLoupe F.LOUPE_FIRST_LO.off F.LOUPE_FIRST_HI.off (stampBus s pgLoupe src)
  let old := s.fget pgLoupe F.LOUPE_STOP_GROUPS
  let oldW := s.fbit pgLoupe F.LOUPE_STOP_WHOLE
  let s := (s.fset pgLoupe F.LOUPE_STOP_GROUPS (old ||| groups)).fset pgLoupe F.LOUPE_STOP_WHOLE (b2n (oldW || whole))
  let s := if old ||| groups ≠ old ∨ (whole ∧ ¬ oldW) then pageIrq s pgLoupe 1 else s
  refreshHolds s

/-- A whole-robot stop of an event source (Table 10.4): CHIP_RESET 18, PLAN 21. -/
def wholeStop (s : State) (src : Nat) : State := stopRequest s src 0xFF true

/-- The PLAN source (R33, R43, R161). -/
def planStopRobot (s : State) : State := wholeStop s 21

/-- Groups whose PAIRS includes one of the pairs (R337). -/
def groupsOfPairs (s : State) (pairs : List Nat) : Nat :=
  ((List.range 8).filter fun g => pairs.any (natBit (s.fget pgLoupe (F.LOUPE_GROUP_PAIRS.sh (4 * g))))).foldl
    (fun a g => a + 2 ^ g) 0

/-- Groups whose PORTS includes the port (R337). -/
def groupsOfPort (s : State) (port : Nat) : Nat :=
  ((List.range 8).filter fun g => natBit (s.fget pgLoupe (F.LOUPE_GROUP_PORTS.sh (4 * g))) port).foldl (fun a g => a + 2 ^ g) 0

/-- The latches that are set name the port: its HALT is requested (R336, R338). -/
def portHaltWanted (s : State) (port : Nat) : Bool :=
  s.fbit pgLoupe F.LOUPE_STOP_WHOLE || s.fget pgLoupe F.LOUPE_STOP_GROUPS &&& groupsOfPort s port != 0

/-- Whether a level source is relevant to latches of groups and WHOLE (R342). -/
def loupeRelevant (s : State) (src groups : Nat) : Bool :=
  let c := loupeSource s src
  if src = 13 ∨ src = 14 ∨ src = 15 then true
  else c.enabled && !loupeMasked s src && (c.groups &&& groups != 0 || c.whole)

/-- Level sources 0 to 15 that are active and relevant to a set of group latches. -/
def activeRelevant (s : State) (groups : Nat) : List Nat :=
  (List.range 16).filter fun i => natBit (s.fget pgLoupe F.LOUPE_LEVEL_SRC) i && loupeRelevant s i groups

/-- A latch is set and every relevant level source of every set latch is inactive (R344). -/
def causesGone (s : State) : Bool :=
  let groups := s.fget pgLoupe F.LOUPE_STOP_GROUPS
  (groups != 0 || s.fbit pgLoupe F.LOUPE_STOP_WHOLE) && (activeRelevant s groups).isEmpty

/-- CAUSE_GONE is set when that has come about since an earlier state (R344) (DEDUCED, assumption 131). -/
def causeGone (old s : State) : State := if causesGone s && !causesGone old then pageIrq s pgLoupe 4 else s

/-- A level source becomes active: an enabled, unmasked one raises a stop request (R334). -/
def levelActive (s : State) (src : Nat) : State :=
  let l := s.fget pgLoupe F.LOUPE_LEVEL_SRC
  if natBit l src then s
  else
    let s := s.fset pgLoupe F.LOUPE_LEVEL_SRC (natPutBit l src true)
    let c := loupeSource s src
    if c.enabled ∧ ¬ loupeMasked s src then stopRequest s src c.groups c.whole else s

/-- A level source becomes inactive. -/
def levelInactive (s : State) (src : Nat) : State :=
  let l := s.fget pgLoupe F.LOUPE_LEVEL_SRC
  if natBit l src then causeGone s (s.fset pgLoupe F.LOUPE_LEVEL_SRC (natPutBit l src false)) else s

/-- LOUPE_SOURCE_ACTIVE: an input source 0 to 13 is qualified active. -/
def execLoupeSourceActive (src : Nat) (s : State) : Host.Outcome State Fault Refusal :=
  nxt <| if src < 14 then levelActive s src else s

/-- LOUPE_SOURCE_INACTIVE. -/
def execLoupeSourceInactive (src : Nat) (s : State) : Host.Outcome State Fault Refusal :=
  nxt <| if src < 14 then levelInactive s src else s

/-! ### Watchdog -/

abbrev wdtOff : Nat := 0
abbrev wdtWaitFirst : Nat := 1
abbrev wdtRunning : Nat := 2
abbrev wdtExpired : Nat := 3

/-- The watchdog's state, shown twice (Table 10.12). WDT is an active level while EXPIRED. -/
def wdtSet (s : State) (st : Nat) : State :=
  let s := (s.fset pgLoupe F.LOUPE_STOP_WDT st).fset pgLoupe F.LOUPE_WDT_STAT_STATE st
  let s := { s with loupe := { s.loupe with feedHalf := false } }
  if st = wdtExpired then levelActive s 14 else levelInactive s 14

/-- The watchdog expires (R341): 1 by time, 2 by an early feed, 3 by a bad sequence. -/
def wdtExpire (s : State) (why part : Nat) : State := capture (wdtSet s wdtExpired) pgLoupe 0x0A03 part why

/-- A chip reset and the entry to PS2 or PS3 put an enabled watchdog in WAIT_FIRST (R340). -/
def wdtWait (s : State) : State := if s.fbit pgLoupe F.LOUPE_WDT_CFG_ENABLE then wdtSet s wdtWaitFirst else s

/-- A write of LOUPE_WDT_CFG changes ENABLE (R340). -/
def wdtEnable (s : State) (was : Bool) : State :=
  let on := s.fbit pgLoupe F.LOUPE_WDT_CFG_ENABLE
  if on = was then s else wdtSet s (if on then wdtWaitFirst else wdtOff)

/-- A complete feed (R340, R341). `units` have passed since the last one. -/
def wdtFed (s : State) (part units : Nat) : State :=
  let st := s.fget pgLoupe F.LOUPE_WDT_STAT_STATE
  if st = wdtRunning ∧ units < s.fget pgLoupe F.LOUPE_WDT_CFG_WIN_MIN then wdtExpire s 2 part
  else if st = wdtOff then s
  else (wdtSet s wdtRunning).fset pgLoupe F.LOUPE_WDT_STAT_ELAPSED 0

/-- A write of LOUPE_WDT_FEED, with the units since the last complete feed (R341, R354). -/
def wdtFeed (s : State) (part : Nat) (value : Word) (units : Nat) : State :=
  let half := s.loupe.feedHalf
  let put := fun (b : Bool) (s : State) => { s with loupe := { s.loupe with feedHalf := b } }
  let running := s.fget pgLoupe F.LOUPE_WDT_STAT_STATE = wdtRunning
  if half ∧ value = 0x5A5A then wdtFed (put false s) part units
  else if value = 0xA5A5 then (if half ∧ running then wdtExpire (put false s) 3 part else put true s)
  else if running then wdtExpire (put false s) 3 part else put false s

/-- LOUPE_WDT_FEED (DEDUCED, assumption 23). -/
def execLoupeWdtFeed (part : Nat) (value : Word) (units : Nat) (s : State) : Host.Outcome State Fault Refusal :=
  nxt (pageWrite s part pgLoupe fun s => wdtFeed s part value units)

/-- WDT_EXPIRY: TIMEOUT units have passed without a feed. -/
def execWdtExpiry (s : State) : Host.Outcome State Fault Refusal :=
  nxt <|
    if s.fget pgLoupe F.LOUPE_WDT_STAT_STATE = wdtRunning then
      wdtExpire (s.fset pgLoupe F.LOUPE_WDT_STAT_ELAPSED (s.fget pgLoupe F.LOUPE_WDT_CFG_TIMEOUT)) 1 0
    else s

/-- WDT_HALF: half of TIMEOUT units have passed. -/
def execWdtHalf (s : State) : Host.Outcome State Fault Refusal :=
  nxt <|
    if s.fget pgLoupe F.LOUPE_WDT_STAT_STATE = wdtRunning then
      pageIrq (s.fset pgLoupe F.LOUPE_WDT_STAT_ELAPSED (s.fget pgLoupe F.LOUPE_WDT_CFG_TIMEOUT / 2)) pgLoupe 8
    else s

/-! ### Clearing a stop -/

/-- Why a clear is refused: the number of the list of R342, none where it is not. -/
def clearRefusal (s : State) (groups : Nat) (recover : Bool) : Option Nat :=
  let st := s.fget pgLoupe F.LOUPE_WDT_STAT_STATE
  let act := activeRelevant s groups
  if ¬ s.fbit pgLoupe F.PG_LOCK_LOCK then some 1
  else if s.fbit pgLoupe F.LOUPE_STOP_SPI_HOLD then some 2
  else if s.fbit pgLoupe F.LOUPE_WDT_CFG_ENABLE ∧ st ≠ wdtRunning then some 3
  else if ¬ act.isEmpty ∧ ¬ recover then some 4
  else if recover ∧ (act.any (fun i => !(loupeSource s i).recoverable) ∨ s.fget pgLoupe F.LOUPE_RECOVER_CFG_MS = 0) then some 5
  else if recover ∧ s.fget pgLoupe F.LOUPE_RECOVER_STAT_LEFT ≠ 0 then some 6
  else none

/-- The clear takes effect (R343, R344). -/
def clearStops (s : State) (groups : Nat) (recover : Bool) : State :=
  let before := s
  let act := activeRelevant s groups
  let s :=
    if recover then
      let s := s.fset pgLoupe F.LOUPE_RECOVER_STAT_CLIFF ((act.filter (· < 8)).foldl (fun a i => a + 2 ^ i) 0)
      let s := s.fset pgLoupe F.LOUPE_RECOVER_STAT_BUMP (b2n (act.contains 12))
      s.fset pgLoupe F.LOUPE_RECOVER_STAT_LEFT (s.fget pgLoupe F.LOUPE_RECOVER_CFG_MS)
    else s
  let old := s.fget pgLoupe F.LOUPE_STOP_GROUPS
  let s := s.fset pgLoupe F.LOUPE_STOP_GROUPS (old &&& (0xFF - groups))
  let s := if groups = 0xFF then s.fset pgLoupe F.LOUPE_STOP_WHOLE 0 else s
  causeGone before (refreshHolds (pageIrq s pgLoupe 2))

/-- A write of LOUPE_CLEAR (R342 to R344). -/
def loupeClear (s : State) (part : Nat) (data : Word) : State :=
  if bitsOf data 16 16 ≠ 0x5AFE then s
  else match clearRefusal s (bitsOf data 0 8) (data.getLsbD 8) with
    | some r => capture s pgLoupe 0x0A02 part (r + s.fget pgLoupe F.LOUPE_LEVEL_SRC * 2 ^ 8)
    | none => clearStops s (bitsOf data 0 8) (data.getLsbD 8)

/-- LOUPE_CLEAR (R342). -/
def execLoupeClear (part : Nat) (data : Word) (s : State) : Host.Outcome State Fault Refusal :=
  nxt (pageWrite s part pgLoupe fun s => loupeClear s part data)

/-- RECOVERY_WINDOW_END: the mask is withdrawn, and a masked source that is active raises a stop request (R344). -/
def execRecoveryWindowEnd (s : State) : Host.Outcome State Fault Refusal :=
  let masked := (List.range 16).filter fun i => loupeMasked s i && natBit (s.fget pgLoupe F.LOUPE_LEVEL_SRC) i
  let t := s.setReg pgLoupe F.LOUPE_RECOVER_STAT_LEFT.off 0
  nxt <| causeGone s <| eachIn masked (fun s i =>
    let c := loupeSource s i
    if c.enabled then stopRequest s i c.groups c.whole else s) t

/-- A write of LOUPE_REQ (R345). -/
def loupeReq (s : State) (data : Word) : State :=
  if bitsOf data 16 16 = 0x5AFE then stopRequest s 16 (bitsOf data 0 8) (data.getLsbD 8) else s

/-- LOUPE_REQ (R345). -/
def execLoupeReq (part : Nat) (data : Word) (s : State) : Host.Outcome State Fault Refusal :=
  nxt (pageWrite s part pgLoupe fun s => loupeReq s data)

/-- A write of LOUPE_CAUSE_CLR (Table 10.12). -/
def loupeCauseClr (s : State) (data : Word) : State :=
  if data.getLsbD 0 then
    (((s.setReg pgLoupe F.LOUPE_CAUSE_SRC.off 0).setReg pgLoupe F.LOUPE_FIRST_VALID.off 0).setReg pgLoupe
      F.LOUPE_FIRST_LO.off 0).setReg pgLoupe F.LOUPE_FIRST_HI.off 0
  else s

/-- LOUPE_CAUSE_CLR (Table 10.12). -/
def execLoupeCauseClr (part : Nat) (data : Word) (s : State) : Host.Outcome State Fault Refusal :=
  nxt (pageWrite s part pgLoupe fun s => loupeCauseClr s data)

/-! ### The Loupe itself -/

/-- Forget every register a page holds: each reads its reset value. -/
def clearPage (s : State) (p : Nat) : State :=
  { s with regs := s.regs.filter fun k => decide (k.1 / 4096 ≠ p) }

/-- Power returns after PS4 (R570, R641): the machine of State.reset, with what outlives the loss of every rail, and with what the board and
the limbs hold (DEDUCED, assumption 90). -/
def powerReturns (s : State) : State :=
  let r := { State.reset with
    fuses := s.fuses, rtu := { flash := s.rtu.flash }, freeCtr := s.freeCtr, pending := s.pending, host := { out := s.host.out } }
  { r with clnk := { ports := s.clnk.ports.mapVal fun _ x => { presN := x.presN, sent := x.sent } } }

/-- LOUPE_POWER_ON_RESET: the Loupe page at its power-on values, which hold the POWER_ON stop (R332, R612). -/
def execLoupePowerOnReset (s : State) : Host.Outcome State Fault Refusal :=
  let s := if s.power.off then powerReturns s else s
  let s := { (clearPage s pgLoupe) with
    loupe := { resetSince := true, vioSafe := s.loupe.vioSafe }
    boot := { s.boot with loupeUp := true } }
  let stamp := if s.time.running then stampBus s pgLoupe 17 else 0
  nxt <| refreshHolds (pairTsChanged (s.setReg64 pgLoupe F.LOUPE_FIRST_LO.off F.LOUPE_FIRST_HI.off stamp) 0)

/-- LOUPE_DEAD: no alive toggle for 128 ticks (R333). -/
def execLoupeDead (s : State) : Host.Outcome State Fault Refusal :=
  nxt <|
    if s.fbit pgTrip F.TRIP_STAT_DEAD ∨ asleep s then s
    else
      let s := { s with loupe := { s.loupe with resetSince := false } }
      let s := s.fset pgTrip F.TRIP_STAT_DEAD 1
      refreshHolds (pageIrq (capture s pgTrip 0x0A01 0 0) pgTrip 2)

/-- LOUPE_ALIVE_RESTORE: DEAD falls once the Loupe has also completed a power-on reset since the loss (R333). -/
def execLoupeAliveRestore (s : State) : Host.Outcome State Fault Refusal :=
  nxt <|
    if s.fbit pgTrip F.TRIP_STAT_DEAD ∧ s.loupe.resetSince then refreshHolds (s.fset pgTrip F.TRIP_STAT_DEAD 0) else s

/-- VIO_SAFE_LOSS: the PWM and Loupe balls become undriven, with no stop raised (R657). -/
def execVioSafeLoss (s : State) : Host.Outcome State Fault Refusal :=
  nxt { s with loupe := { s.loupe with vioSafe := false } }

/-! ### The SPI target port -/

/-- One bit of the CRC-8 of R165. -/
def crc8Bit (c : Nat) (b : Bool) : Nat :=
  let x := (c * 2) % 256
  if natBit c 7 != b then x ^^^ 0x07 else x

/-- The CRC-8 over the bits of a number, the most significant first. -/
def crc8From : Nat → Nat → Nat → Nat
  | 0, _, c => c
  | k + 1, x, c => crc8From k x (crc8Bit c (x.testBit k))

/-- The CRC-8 over bytes 0 to 6 of a frame (R165). -/
def spiCrc (frame : Nat) : Nat := crc8From 56 (frame / 256) 0

/-- The response the port shifts out with the next frame (Table 5.9). -/
def spiResponse (s : State) : Nat :=
  let stopped := s.fget pgLoupe F.LOUPE_STOP_GROUPS != 0 || s.fbit pgLoupe F.LOUPE_STOP_WHOLE
  let body := b2n stopped * 2 ^ 56 + b2n (s.fbit pgLoupe F.LOUPE_STOP_SPI_HOLD) * 2 ^ 57 + b2n s.loupe.spiBad * 2 ^ 58
    + b2n (s.fbit pgLoupe F.PG_LOCK_LOCK) * 2 ^ 59 + 0xA * 2 ^ 60 + s.loupe.spiOffset % 2 ^ 16 * 2 ^ 40
    + s.loupe.spiData.toNat * 2 ^ 8
  body + spiCrc body

/-- A frame with its command's checks, and the offset it carries (R165, R167). -/
def spiFrameOk (frame : BitVec 64) (clocks cmd : Nat) : Bool :=
  clocks = 64 && spiCrc frame.toNat = bitsOf frame 0 8 && bitsOf frame 56 8 = cmd &&
    bitsOf frame 8 32 = (if cmd = 0x5A then 0x53544F50 else 0)

/-- Set what the next response carries. -/
def spiAnswer (s : State) (offset : Nat) (data : Word) (bad : Bool) : State :=
  { s with loupe := { s.loupe with spiOffset := offset, spiData := data, spiBad := bad } }

/-- An ignored frame (R167). -/
def spiIgnored (s : State) (frame : BitVec 64) : State :=
  capture (spiAnswer s (bitsOf frame 40 16) 0 true) pgLoupe 0x0507 0 0

/-- What a register of the Loupe page shows: LOUPE_STOP.LOCKED follows PG_LOCK (Table 10.12) (DEDUCED, assumption 128). -/
def loupeShow (s : State) (off : Nat) : Word :=
  if off = F.LOUPE_STOP_LOCKED.off then putBits (s.reg pgLoupe off) 10 1 (s.fget pgLoupe F.PG_LOCK_LOCK) else s.reg pgLoupe off

/-- SPI_READ (R166): no side effect. -/
def execSpiRead (frame : BitVec 64) (clocks : Nat) (s : State) : Host.Outcome State Fault Refusal :=
  let off := bitsOf frame 40 16
  nxt <|
    if spiFrameOk frame clocks 0x03 then
      spiAnswer s off (if off < 4096 then loupeShow s (off / 4 * 4) else 0) false
    else spiIgnored s frame

/-- SPI_STOP (R166). -/
def execSpiStop (frame : BitVec 64) (clocks : Nat) (s : State) : Host.Outcome State Fault Refusal :=
  nxt <|
    if spiFrameOk frame clocks 0x5A then
      let s := s.fset pgLoupe F.LOUPE_STOP_SPI_HOLD 1
      let l := s.fget pgLoupe F.LOUPE_LEVEL_SRC
      let s := s.fset pgLoupe F.LOUPE_LEVEL_SRC (natPutBit l 15 true)
      spiAnswer (wholeStop s 15) (bitsOf frame 40 16) 0 false
    else spiIgnored s frame

/-- SPI_RELEASE (R166). -/
def execSpiRelease (frame : BitVec 64) (clocks : Nat) (s : State) : Host.Outcome State Fault Refusal :=
  nxt <|
    if spiFrameOk frame clocks 0xC3 then
      spiAnswer (levelInactive (s.fset pgLoupe F.LOUPE_STOP_SPI_HOLD 0) 15) (bitsOf frame 40 16) 0 false
    else spiIgnored s frame

end Sys2Proof.Machine
end

