-- ==== Sys2Proof/Machine/Link.lean ====
section
/-! DEFINITION. CriskaLink on the wire: frames and their CRC, the transmitter and HALT filling, the counters of a port, and the slot
table (chapter 11). -/

namespace Sys2Proof.Machine

/-! ### Frames -/

/-- One step of the reflected CRC-32 (R363). -/
def crc32Bit (c : Nat) : Nat := if c % 2 = 1 then (c / 2) ^^^ 0xEDB88320 else c / 2

/-- CRC-32 over bytes from a register value. The match only makes the kernel evaluate the value at each byte. -/
def crc32From (c : Nat) : List Byte → Nat
  | [] => c
  | b :: r =>
    let c := c ^^^ b.toNat
    match crc32Bit (crc32Bit (crc32Bit (crc32Bit (crc32Bit (crc32Bit (crc32Bit (crc32Bit c))))))) with
    | 0 => crc32From 0 r
    | n + 1 => crc32From (n + 1) r

/-- The CRC of a frame (R363). -/
def crc32 (bs : List Byte) : Nat := crc32From 0xFFFFFFFF bs ^^^ 0xFFFFFFFF

/-- The header of a frame as a number (Table 11.5). -/
def linkHeader (f : LinkFrame) : Nat :=
  f.typ % 16 + f.flags % 16 * 2 ^ 4 + f.chan % 256 * 2 ^ 8 + f.epoch % 2 ^ 16 * 2 ^ 16 + f.data.length % 2 ^ 16 * 2 ^ 32
    + f.cycle % 2 ^ 16 * 2 ^ 48

/-- The bytes of a frame between its start code group and /T/ (R362). -/
def linkBytes (f : LinkFrame) : List Byte :=
  let h := leBytes 8 (linkHeader f) ++ f.data
  h ++ leBytes 4 (crc32 h)

/-- Ticks of a frame from its start code group to the end of /T/: LEN + 14 code groups of 32 ticks (R359, R362). -/
def linkTicks (f : LinkFrame) : Nat := 32 * (f.data.length + 14)

/-! ### Ports -/

def portGet (s : State) (p : Nat) : LinkPort := s.clnk.ports.get {} p
def portSet (s : State) (p : Nat) (x : LinkPort) : State := { s with clnk := { s.clnk with ports := s.clnk.ports.set {} p x } }
def portMod (s : State) (p : Nat) (f : LinkPort → LinkPort) : State := portSet s p (f (portGet s p))

/-- Port states (Table 11.9). -/
abbrev lkDown : Nat := 0
abbrev lkDetect : Nat := 1
abbrev lkSync : Nat := 2
abbrev lkEnum : Nat := 3
abbrev lkUp : Nat := 4
abbrev lkMbxOnly : Nat := 5
abbrev lkBackoff : Nat := 6
abbrev lkOut : Nat := 7

/-- LNK_STAT.CYC. -/
abbrev cycNone : Nat := 0
abbrev cycActive : Nat := 1
abbrev cycMismatch : Nat := 2
abbrev cycMbxOnly : Nat := 3

/-- The port is built. -/
def portBuilt (s : State) (p : Nat) : Bool := decide (p < s.var.clnkPorts)

/-- The state of a port. -/
def linkState (s : State) (p : Nat) : Nat := s.fget (pgClnk + p) F.LNK_STAT_STATE

/-- A field of a port's status. -/
def linkStat (s : State) (p : Nat) (f : Fld) (v : Nat) : State := s.fset (pgClnk + p) f v

/-- Counter k of a port (LNK_CNT). -/
def linkCntF (k : Nat) : Fld := (if k % 2 = 0 then F.LNK_CNT_EVEN else F.LNK_CNT_ODD).sh (4 * (k / 2))
def linkCount (s : State) (p k : Nat) : State := s.fincSat (pgClnk + p) (linkCntF k) 1

/-- A bit of a port in a register of the global page. -/
def linkGlobal (s : State) (f : Fld) (p : Nat) (on : Bool) : State := s.fset pgClnkG f (natPutBit (s.fget pgClnkG f) p on)

/-- The islands other than RTU are out of reset: the boot has reached DISCOVER (Table 19.4). -/
def islandsUp (s : State) : Bool := decide (3 ≤ s.fget pgChip F.CHIP_BOOT_STAGE)

/-- A port takes part in nothing: it is not built, its island is held in reset, a chip reset is resetting it, or it is OUT. -/
def portDead (s : State) (p : Nat) : Bool := !portBuilt s p || !islandsUp s || s.clnk.resetting.isSome || linkState s p == lkOut

/-- The receiver of a live port is in sync (R361). -/
def portHears (s : State) (p : Nat) : Bool := !portDead s p && s.fbit (pgClnk + p) F.LNK_STAT_SYNC

/-- A LOUPE or LOUPE_DEAD halt stands (R384). -/
def halting (x : LinkPort) : Bool := x.loupe || x.dead

/-! ### The transmitter -/

/-- The first tick at or after a tick on the transmit code-group grid, which has a boundary at every base-period start (R361). -/
def gridUp (s : State) (t : Nat) : Nat :=
  let o := (t + s.time.period - s.time.startTick % s.time.period) % s.time.period
  let base := t - o
  min (base + (o + 31) / 32 * 32) (base + s.time.period)

/-- The first tick at which the next frame may start: four code groups after the last one (R360). -/
def linkFree (s : State) (p : Nat) : Nat :=
  match (portGet s p).sending with
  | none => 0
  | some x => gridUp s (x.ended + 128)

/-- A frame leaves a port from a tick on, in `n` copies (DEDUCED, assumption 97). -/
def linkSend (s : State) (p : Nat) (f : LinkFrame) (start : Nat) (item : TxItem := .none) (n : Nat := 1) : State :=
  let halt := f.typ == 0xF
  let before := s.fget (pgClnk + p) (linkCntF 14)
  let len := linkTicks f
  let s := portMod s p fun x => { x with
    sending := some { start := start + (n - 1) * (len + 128), ended := start + (n - 1) * (len + 128) + len, halt := halt, item := item,
                      before := before },
    sent := { frame := f, start := start, copies := n } :: x.sent }
  let s := s.fincSat (pgClnk + p) (linkCntF 14) n
  if halt then s.fincSat (pgClnk + p) (linkCntF 13) n else s

/-- HALT causes (Table 11.17). -/
abbrev haltLoupe : Nat := 1
abbrev haltDead : Nat := 2
abbrev haltLink : Nat := 3
abbrev haltMismatch : Nat := 4
abbrev haltPortOut : Nat := 5

/-- The base-period number of a tick of the slot engine's copy (R376). -/
def slotBpn (s : State) (tick : Nat) : Nat :=
  ((s.time.epochBpn : Int) + (copyTick s 69 tick - s.time.epochTick) / s.time.period).toNat % 2 ^ 16

/-- Send `n` HALT frames from a tick on (R383). The count in the payload begins anew with another cause. -/
def sendHalt (s : State) (p cause : Nat) (sync : Bool) (start : Nat) (n : Nat := 1) : State :=
  let x := portGet s p
  let k := (if x.haltCause = cause then x.haltCount else 0) + 1
  let f : LinkFrame := { typ := 0xF, flags := b2n sync, chan := cause, epoch := x.current.getD 0xFFFF,
                         cycle := if s.time.running then slotBpn s start else 0, data := leBytes 4 k ++ leBytes 4 0 }
  linkSend (portSet s p { x with haltCause := cause, haltCount := k + n - 1 }) p f start .none n

/-- The cause of a standing halt; LOUPE_DEAD goes on when the Loupe withdraws (R390). -/
def standingCause (x : LinkPort) : Nat := if x.dead then haltDead else haltLoupe

/-- The first tick of the base period after the one a tick lies in. -/
def periodAfter (s : State) (t : Nat) : Nat := t - (t + s.time.period - s.time.startTick % s.time.period) % s.time.period + s.time.period

/-- HALT frames fill the time up to a tick (R384), those of one base period after another, at most so many base periods: each takes 22 code
groups and leaves 4 of idle. -/
def haltFillIn : Nat → State → Nat → Nat → State
  | 0, s, _, _ => s
  | k + 1, s, p, upto =>
    let t := linkFree s p
    if t + 832 ≤ upto then
      haltFillIn k (sendHalt s p (standingCause (portGet s p)) false t (max 1 (min ((upto - t) / 832) ((periodAfter s t - t + 831) / 832)))) p upto
    else s

/-- HALT frames fill the time up to a tick while a halt stands (R384) (DEDUCED, assumption 98). -/
def haltFill (s : State) (p upto : Nat) : State :=
  let x := portGet s p
  if halting x ∧ x.tx then haltFillIn ((upto - linkFree s p) / 832 + 1) s p upto else s

/-- What an abandoned frame takes back (R366, R427). -/
def takeBack (x : LinkPort) : TxItem → LinkPort
  | .none => x
  | .enum f => { x with enumFrame := some f, enumAt := none }
  | .ctl c =>
    let s := x.chans.get {} c.chan
    let s := if c.kind = 1 ∨ c.kind = 5 then { s with tries := s.tries - 1, timerAt := none } else s
    { x with ctl := { c with job := none } :: x.ctl, chans := x.chans.set {} c.chan s }
  | .ack c => { x with chans := x.chans.set {} c { x.chans.get {} c with ackDue := true } }
  | .frag c i fresh =>
    let s := x.chans.get {} c
    let s := { s with flight := if fresh then s.flight - 1 else s.flight,
                      frags := s.frags.modify i fun g => { g with sends := g.sends - 1, timer := none, due := !fresh } }
    { x with chans := x.chans.set {} c s }

/-- Abandon the frame in progress at a tick, unless it is a HALT (R366, R385): the code group in progress, then /V/. -/
def abandonFrame (s : State) (p tick : Nat) : State :=
  let x := portGet s p
  match x.sending with
  | some f =>
    if f.halt ∨ tick < f.start ∨ f.ended ≤ tick then s
    else
      let s := s.fset (pgClnk + p) (linkCntF 14) f.before
      let sent := match x.sent with
        | e :: r => { e with abandoned := true } :: r
        | [] => []
      portSet s p (takeBack { x with sent := sent, sending := some { f with ended := gridUp s tick + 32, item := .none } } f.item)
  | none => s

/-- A HALT is being sent at a tick. -/
def haltInProgress (s : State) (p tick : Nat) : Bool :=
  match (portGet s p).sending with
  | some f => f.halt && decide (f.start ≤ tick) && decide (tick < f.ended)
  | none => false

/-! ### The slot table -/

/-- Fields of a slot-table entry (Table 11.14). -/
def seStart (e : BitVec 128) : Nat := bitsOf e 0 20
def seTx (e : BitVec 128) : Bool := bitAt e 20
def seValid (e : BitVec 128) : Bool := bitAt e 21
def seJ0 (e : BitVec 128) : Nat := bitsOf e 22 8
def seClose (e : BitVec 128) : Nat := bitsOf e 32 20
def seRecur (e : BitVec 128) : Nat := bitsOf e 52 9
def seTile0 (e : BitVec 128) : Nat := bitsOf e 64 6
def seCh0 (e : BitVec 128) : Nat := bitsOf e 70 4
def seTile1 (e : BitVec 128) : Nat := bitsOf e 74 6
def seCh1 (e : BitVec 128) : Nat := bitsOf e 80 4
def seTwo (e : BitVec 128) : Bool := bitAt e 84
def seBufFirst (e : BitVec 128) : Nat := bitsOf e 64 4
def seBufCount (e : BitVec 128) : Nat := bitsOf e 68 5
def seUpLen (e : BitVec 128) : Nat := bitsOf e 96 8
def seClass (e : BitVec 128) : Nat := bitsOf e 104 8

/-- The entries of a port in a plan, with their numbers. -/
def planSlots (pl : PlanImage) (p : Nat) : List (Nat × BitVec 128) :=
  ((pl.slotTables.getD p []).zipIdx.map fun x => (x.2, x.1)).filter fun x => decide (x.1 < 16) && seValid x.2

/-- The entries of a port in the plan in force. -/
def portSlots (s : State) (p : Nat) : List (Nat × BitVec 128) :=
  match s.time.plan with
  | none => []
  | some pl => planSlots pl p

/-- The first use of an entry from a plan epoch at a tick of the copy, and the ticks from one use to the next (R374). -/
def slotFirst (epoch period : Nat) (e : BitVec 128) : Nat × Nat :=
  (epoch + seJ0 e % seRecur e * period + seStart e, seRecur e * period)

/-- An entry is used at a PTB tick: its START on the slot engine's copy (R374). -/
def slotDue (s : State) (e : BitVec 128) (tick : Nat) : Bool :=
  let t := copyTick s 69 tick
  let (first, step) := slotFirst s.time.epochTick s.time.period e
  (s.time.copies.get {} 69).valid && step != 0 && decide ((first : Int) ≤ t) && decide ((t - first) % (step : Int) = 0)

/-- The tick of the pending plan epoch. -/
def pendingEpoch (s : State) : Option (Nat × EpochPlan) :=
  match s.time.next with
  | none => none
  | some e => some (s.time.startTick + (e.bpn - s.time.bpn.toNat) * s.time.period, e)

/-- The first start of a slot frame of a port at or after a PTB tick (R382): of the table in force, and past a pending plan epoch of the
table it brings (R391). -/
def nextSlot (s : State) (p tick : Nat) : Option Nat :=
  let off := (s.time.copies.get {} 69).off
  let after := fun (epoch period from_ : Nat) (l : List (Nat × BitVec 128)) =>
    l.filterMap fun x =>
      let (first, step) := slotFirst epoch period x.2
      let first : Int := (first : Int) - off
      if step = 0 then none
      else some (if (from_ : Int) ≤ first then first else first + ((from_ : Int) - first + step - 1) / step * step).toNat
  let cur := after s.time.epochTick s.time.period tick (portSlots s p)
  let all := match pendingEpoch s with
    | none => cur
    | some (t, e) =>
      cur.filter (fun x => decide (x < t)) ++ (match e.load with
        | none => []
        | some pl => after t pl.period (max t tick) (planSlots pl p))
  all.foldl (fun b x => match b with
    | none => some x
    | some y => some (min x y)) none

/-- The slot engine runs (R43, Table 5.4). -/
def slotEngine (s : State) : Bool := !pageOut s pgClnkG && s.clnk.resetting.isNone

/-- A frame that starts at a tick ends four code groups before the next slot frame (R382). -/
def fitsGap (s : State) (p start len : Nat) : Bool :=
  match nextSlot s p start with
  | none => true
  | some t => !slotEngine s || decide (start + len + 128 ≤ t)

/-- HALT filling up to now: the last of these HALTs has started (R384, R386). -/
def haltNow (s : State) (p : Nat) : State :=
  haltFill s p (match nextSlot s p s.now with
    | some t => min t (s.now + 832)
    | none => s.now + 832)

/-- Set the standing halts of a port, with HALTING and GLNK_HALT. -/
def setHalts (s : State) (p : Nat) (loupe dead : Bool) : State :=
  let s := portMod (haltNow s p) p fun x => { x with loupe := loupe, dead := dead }
  let s := linkStat s p F.LNK_STAT_HALTING (b2n (loupe || dead))
  linkGlobal s F.GLNK_HALT_PORTS p (loupe || dead)

end Sys2Proof.Machine
end

