-- ==== Sys2Proof/Machine/Opcodes.lean ====
section
/-! DEFINITION. The queue opcodes (Table 4.4 and the opcode tables of chapters 4, 5, 8, 9, 12, 13, 14, 15 and 16): which are
defined, on which queue pairs, and which payload bits of each are fields (R664); the common status codes (Table 0.8). -/

namespace Sys2Proof.Machine

/-- Status codes (Tables 0.8, 4.11, 5.10). -/
abbrev stOk : Nat := 0x0000
abbrev stCancelled : Nat := 0x0001
abbrev stDeadlineCut : Nat := 0x0002
abbrev stColdStart : Nat := 0x0003
abbrev stPivotRegularised : Nat := 0x0004
abbrev stInfeasiblePrimal : Nat := 0x0005
abbrev stInfeasibleDual : Nat := 0x0006
abbrev stIterCap : Nat := 0x0007
abbrev stUnitAbsent : Nat := 0x0010
abbrev stNotOwner : Nat := 0x0011
abbrev stBadEntry : Nat := 0x0012
abbrev stChainBroken : Nat := 0x0013
abbrev stPoison : Nat := 0x0014
abbrev stPartitionReset : Nat := 0x0015
abbrev stTileLost : Nat := 0x0016
abbrev stHoldupShort : Nat := 0x0020
abbrev stCommitFailed : Nat := 0x0021
abbrev stBudgetExhausted : Nat := 0x0030
abbrev stGrammarDeadEnd : Nat := 0x0031
abbrev stTagNotFound : Nat := 0x0400
abbrev stQpLimit : Nat := 0x0401
abbrev stQpBadConfig : Nat := 0x0402
abbrev stQpState : Nat := 0x0403
abbrev stResetDone : Nat := 0x0500
abbrev stGrantConflict : Nat := 0x0505
abbrev stNotGranted : Nat := 0x0506
abbrev stGrantLimit : Nat := 0x050A

/-- The bits `hi` to `lo` of an entry. -/
def bitMask (hi lo : Nat) : Nat := (2 ^ (hi + 1 - lo) - 1) <<< lo

/-- Every opcode the chapters define (DEDUCED, assumption 123). -/
def opDefined (op : Nat) : Bool :=
  op == 0 || (0x01 ≤ op && op ≤ 0x03) || (0x10 ≤ op && op ≤ 0x13) || (0x20 ≤ op && op ≤ 0x23) || (0x30 ≤ op && op ≤ 0x32)
  || op == 0x38 || op == 0x39 || (0x40 ≤ op && op ≤ 0x43) || (0x50 ≤ op && op ≤ 0x55) || (0x60 ≤ op && op ≤ 0x63)
  || (0x70 ≤ op && op ≤ 0x72) || (0x80 ≤ op && op ≤ 0x83) || (0xA0 ≤ op && op ≤ 0xA4)

/-- The opcode may come from this kind of queue pair (Table 4.4). -/
def opKindOk (op : Nat) (admin : Bool) : Bool :=
  if op = 0 then true else if op < 0x40 then admin else !admin

/-- The opcode's range belongs to the Serve domain (Table 4.4). -/
def opServe (op : Nat) : Bool := (0x30 ≤ op && op ≤ 0x3F) || (0xA0 ≤ op && op ≤ 0xDF)

/-- Opcodes of P0 only by range (R109). -/
def opPlanOnly (op : Nat) : Bool :=
  (0x20 ≤ op && op ≤ 0x2F) || (0x70 ≤ op && op ≤ 0x7F) || (0x80 ≤ op && op ≤ 0x9F)

/-- The payload bits that fields of the opcode cover, in entry `e` of its chain (R664) (DEDUCED, assumption 124). -/
def payMask (op e : Nat) : Nat :=
  match op with
  | 0x01 => bitMask 43 32 + bitMask 51 48 + bitMask 55 52 + bitMask 58 56 + bitMask 191 64 + bitMask 198 192
      + bitMask 207 200 + bitMask 227 216 + bitMask 235 232
  | 0x02 => bitMask 43 32 + bitMask 48 48
  | 0x03 => bitMask 43 32 + bitMask 63 48
  | 0x10 => bitMask 35 32
  | 0x11 => bitMask 35 32 + bitMask 84 64 + bitMask 106 96 + bitMask 119 112
  | 0x12 | 0x13 => bitMask 35 32 + bitMask 39 36 + bitMask 42 40 + bitMask 46 44 + bitMask 127 64 + bitMask 141 128
  | 0x20 => bitMask 127 64 + bitMask 159 128
  | 0x22 => bitMask 36 32 + bitMask 127 64 + bitMask 159 128
  | 0x23 => bitMask 36 32
  | 0x30 | 0x31 | 0x32 => bitMask 34 32 + bitMask 40 39 + bitMask 127 64 + bitMask 167 128 + bitMask 255 192
  | 0x38 | 0x39 => bitMask 36 32 + bitMask 127 64 + bitMask 167 128 + bitMask 255 192
  | 0x40 => bitMask 33 32 + bitMask 47 40 + bitMask 55 48 + bitMask 127 64 + bitMask 159 128
  | 0x41 => bitMask 47 40 + bitMask 127 64 + bitMask 159 128
  | 0x42 => bitMask 127 64 + bitMask 159 128
  | 0x43 => bitMask 127 64
  | 0x50 => bitMask 34 32 + bitMask 38 36 + bitMask 55 40 + bitMask 127 64 + bitMask 180 176 + bitMask 239 192
  | 0x51 | 0x52 => bitMask 34 32 + bitMask 38 36 + bitMask 63 40 + bitMask 175 64
  | 0x53 | 0x54 => bitMask 34 32 + bitMask 38 36 + bitMask 63 40 + bitMask 127 64
  | 0x55 => bitMask 34 32 + bitMask 38 36 + bitMask 55 40 + bitMask 159 64 + bitMask 180 176 + bitMask 239 208
  | 0x60 => bitMask 33 32 + bitMask 127 64 + bitMask 223 128
  | 0x61 => bitMask 223 128 + bitMask 319 256
  | 0x62 => bitMask 223 128
  | 0x63 => bitMask 35 34 + bitMask 45 40 + bitMask 191 128
  | 0x70 => bitMask 36 32 + bitMask 42 40 + bitMask 45 44 + bitMask 80 48 + bitMask 193 88
  | 0x71 => bitMask 127 64 + bitMask 140 128
  | 0x72 => bitMask 127 64 + bitMask 160 128
  | 0x80 | 0x81 | 0x82 | 0x83 => bitMask 36 32 + bitMask 60 48 + bitMask 127 64
  | 0xA0 =>
    if e = 0 then bitMask 34 32 + bitMask 45 40 + bitMask 57 48 + bitMask 208 64 + bitMask 240 224 + bitMask 252 248
      + bitMask 383 256
    else bitMask 73 32 + bitMask 84 80 + bitMask 91 88 + bitMask 114 96 + bitMask 146 128
  | 0xA1 => bitMask 63 32
  | 0xA2 => bitMask 64 32 + bitMask 95 80 + bitMask 191 128
  | 0xA3 => bitMask 63 32 + bitMask 208 128 + bitMask 240 224 + bitMask 252 248 + bitMask 319 256
  | 0xA4 => bitMask 63 32 + bitMask 191 128
  | _ => 0

/-- No RSV bit of an entry's payload is set (R664). -/
def payClean (op e : Nat) (x : BitVec 512) : Bool :=
  x &&& ~~~ (BitVec.ofNat 512 (payMask op e + (2 ^ 32 - 1))) == 0

/-- No RSV bit of an entry's header is set (Table 4.3). -/
def headClean (x : BitVec 512) : Bool := bitsOf x 14 2 == 0

/-- The entries of a chain, with their places in it. -/
def payAllClean (op : Nat) : Nat → List (BitVec 512) → Bool
  | _, [] => true
  | e, x :: xs => payClean op e x && payAllClean op (e + 1) xs

/-- The outcome of the QE checks of a job whose LAST entry is admitted, ranked as Table 4.5 ranks them; OK when all pass (R108, R109,
R114). -/
def qeCheck (s : State) (x : Job) : Nat :=
  let absent := opServe x.opcode && !s.var.serve
  if (s.part.resets.find? x.part).isSome then stPartitionReset
  else if x.cancel then stCancelled
  else if !(x.entries.all headClean) || !opDefined x.opcode || !opKindOk x.opcode (decide (x.qp < s.var.partitions))
      || (!absent && !payAllClean x.opcode 0 x.entries) then stBadEntry
  else if absent then stUnitAbsent
  else if opPlanOnly x.opcode && x.part != 0 then stNotOwner
  else stOk

end Sys2Proof.Machine
end

