-- ==== Sys2Proof/Machine/Mbx.lean ====
section
/-! DEFINITION. Mailbox sessions: windows, acknowledgement, delivery to MBX_RECV jobs, and the ends of a session (chapter 12). -/

namespace Sys2Proof.Machine

/-- Status codes of the session layer (Table 12.12). -/
abbrev stMbxNoLink : Nat := 0x0C00
abbrev stMbxNotServed : Nat := 0x0C01
abbrev stMbxBusy : Nat := 0x0C02
abbrev stMbxNoSession : Nat := 0x0C03
abbrev stMbxEpochEnd : Nat := 0x0C04
abbrev stMbxNoAnswer : Nat := 0x0C05
abbrev stMbxRefused : Nat := 0x0C06
abbrev stMbxTimeout : Nat := 0x0C07
abbrev stMbxPeerClosed : Nat := 0x0C08
abbrev stMbxPeerAbort : Nat := 0x0C09
abbrev stMbxAborted : Nat := 0x0C0A
abbrev stMbxLimbMismatch : Nat := 0x0C0B
abbrev stMsgTooLong : Nat := 0x0C0C
abbrev stMsgMalformed : Nat := 0x0C0D
abbrev stFwKey : Nat := 0x0C0E
abbrev stFwSigBad : Nat := 0x0C0F
abbrev stFwTarget : Nat := 0x0C10
abbrev stFwRejected : Nat := 0x0C11
abbrev stFwNotRunning : Nat := 0x0C12

/-- MBX frame kinds (Table 12.2). -/
abbrev kOpen : Nat := 1
abbrev kOpenAck : Nat := 2
abbrev kData : Nat := 3
abbrev kAck : Nat := 4
abbrev kClose : Nat := 5
abbrev kCloseAck : Nat := 6
abbrev kAbort : Nat := 7

def sessGet (s : State) (p c : Nat) : Session := (portGet s p).chans.get {} c
def sessSet (s : State) (p c : Nat) (x : Session) : State := portMod s p fun y => { y with chans := y.chans.set {} c x }
def sessMod (s : State) (p c : Nat) (f : Session → Session) : State := sessSet s p c (f (sessGet s p c))

/-- A number precedes another modulo 65 536 (R397). -/
def seqPrecedes (a b : Nat) : Bool :=
  let d := (b + 65536 - a % 65536) % 65536
  decide (1 ≤ d) && decide (d ≤ 32767)

/-- In-order fragments held from RCV_DLV on. -/
def contig (rx : Tab RxFrag) : Nat → Nat → Nat
  | 0, k => k
  | f + 1, k => if (rx.find? k).isSome then contig rx f (k + 1) else k

def Session.ahead (x : Session) : Nat := contig x.rx 16 0
/-- RCV_NXT, SACK and WIN of a session (R404). -/
def Session.rcvNxt (x : Session) : Nat := (x.dlv + x.ahead) % 65536
def Session.sack (x : Session) : Nat :=
  ((List.range 16).filter fun i => (x.rx.find? (x.ahead + 1 + i)).isSome).foldl (fun a i => a + 2 ^ i) 0
def Session.win (x : Session) : Nat := 16 - x.ahead
/-- SND_NXT. -/
def Session.sndNxt (x : Session) : Nat := (x.una + x.flight) % 65536

/-- MBX_WINDOW and MBX_CH of the current capability record. -/
def capsWindow (y : LinkPort) : Nat := match y.caps with
  | some r => bitsOf r 192 8
  | none => 0
def capsChannels (y : LinkPort) : Nat := match y.caps with
  | some r => bitsOf r 104 8
  | none => 0

/-- W (R400). -/
def sendWindow (y : LinkPort) (x : Session) : Nat := min x.wl (min (capsWindow y) (if x.window = 0 then 16 else x.window))

/-- STATE values of Table 12.5. -/
def MbxState.code : MbxState → Nat
  | .closed => 0
  | .opening => 1
  | .opened => 2
  | .draining => 3
  | .closing => 4

/-- The registers of a mailbox channel show its session (Table 12.14). -/
def mbxShow (s : State) (p c : Nat) : State :=
  let x := sessGet s p c
  let q := pgClnk + p
  let d := 16 * c
  let s := s.setReg q (F.LNK_MBX_STATE_STATE.sh d).off
    (BitVec.ofNat 32 (x.state.code + x.sid * 2 ^ 8 + sendWindow (portGet s p) x * 2 ^ 16 + x.win * 2 ^ 24))
  let s := s.setReg q (F.LNK_MBX_TX_UNA.sh d).off (BitVec.ofNat 32 (x.una + x.sndNxt * 2 ^ 16))
  s.setReg q (F.LNK_MBX_RX_DLV.sh d).off (BitVec.ofNat 32 (x.dlv + x.rcvNxt * 2 ^ 16))

/-- Wasted-frame counters (LNK_MBX_WASTE). -/
abbrev wBadFrag : Nat := 0
abbrev wBadChan : Nat := 1
abbrev wOutOfTurn : Nat := 2
abbrev wStaleSid : Nat := 3
abbrev wOutOfWin : Nat := 4
abbrev wDup : Nat := 5
abbrev wLateData : Nat := 6

/-- Count in LNK_MBX_WASTE. -/
def wasteCount (s : State) (p k : Nat) : State := s.fincSat (pgClnk + p) ⟨F.LNK_MBX_WASTE.off, 3 * k, 3⟩ 1

/-! ### Fragments -/

/-- The fragments of a message (R399): every one but the last carries 248 bytes. -/
def fragmentsFrom (job : Nat) (mark : Option Nat) : Nat → Bool → List Byte → List TxFrag
  | 0, _, _ => []
  | f + 1, first, d =>
    if d.length ≤ 248 then [{ job := job, first := first, last := true, data := d, mark := mark }]
    else { job := job, first := first, last := false, data := d.take 248 } :: fragmentsFrom job mark f false (d.drop 248)

def fragments (job : Nat) (mark : Option Nat) (d : List Byte) : List TxFrag := fragmentsFrom job mark (d.length / 248 + 1) true d

/-- The fragments of started MBX_SEND jobs join the queue in the order of the jobs (R416). -/
def feedFrom : Nat → Session → Session
  | 0, x => x
  | f + 1, x =>
    match x.sends.find? fun j => !(x.fed.contains j) with
    | none => x
    | some j => match x.ready.find? j with
      | none => x
      | some d => feedFrom f { x with fed := x.fed ++ [j], ready := x.ready.del j, frags := x.frags ++ fragments j none d }

def feedSends (s : State) (p c : Nat) : State := sessMod s p c fun x => feedFrom x.sends.length x

/-! ### Session ends -/

/-- A firmware update ends with its session (R423). -/
def fwEnded (s : State) (f : FwRun) (status : Nat) : State :=
  jobDone s f.job status
    (if status = stMbxEpochEnd ∨ status = stMbxNoAnswer ∨ status = stCancelled then f.acked else 0)

/-- Jobs of a session end with a status (R411, Table 12.6): MBX_SEND with the bytes acknowledged; MBX_CLOSE with its own status. -/
def endJobs (s : State) (x : Session) (status closeStatus : Nat) : State :=
  let s := eachIn x.sends (fun s j => jobDone s j status ((jobGet s j).getD {}).aux) s
  let s := eachIn x.recvs (fun s j => jobDone s j status 0) s
  let s := match x.holding with
    | some j => jobDone s j status 0
    | none => s
  let s := match x.opener with
    | some j => jobDone s j status 0
    | none => s
  let s := match x.fw with
    | some f => fwEnded s f status
    | none => s
  eachIn x.closers (fun s j => jobDone s j closeStatus 0) s

/-- What a closed channel keeps: the SID of the last session and the SID counter of the epoch. -/
def Session.shut (x : Session) : Session :=
  { sid := x.sid, sidCount := x.sidCount, sidWrapped := x.sidWrapped, una := x.sndNxt, dlv := x.rcvNxt }

/-- A channel becomes CLOSED (R409, R410). -/
def sessClose (s : State) (p c status closeStatus : Nat) : State :=
  let x := sessGet s p c
  if x.state = .closed then s
  else mbxShow (sessSet (endJobs s x status closeStatus) p c x.shut) p c

/-- Queue a mailbox frame without data. -/
def ctlPush (s : State) (p : Nat) (c : CtlFrame) : State := portMod s p fun y => { y with ctl := y.ctl ++ [c] }

/-- Frames of a session that wait and have no meaning once it ends. -/
def ctlDrop (s : State) (p c : Nat) : State :=
  portMod s p fun y => { y with ctl := y.ctl.filter fun f => !(f.chan == c && f.kind != kAbort && f.kind != kCloseAck) }

/-- Device abort (R411): one ABORT with the session's SID, and the session ends. `owner` is the MBX_ABORT job that completes when the
ABORT has left. -/
def deviceAbort (s : State) (p c status : Nat) (owner : Option Nat := none) : State :=
  let x := sessGet s p c
  if x.state = .closed then s
  else ctlPush (ctlDrop (sessClose s p c status status) p c) p { chan := c, kind := kAbort, sid := x.sid, job := owner }

/-- Every session of a port ends with its epoch and nothing is sent (Table 12.6); MBX_ABORT jobs that wait complete (R416). -/
def sessionsEnd (s : State) (p : Nat) : State :=
  let s := eachIn (List.range 8) (fun s c => sessClose s p c stMbxEpochEnd stMbxEpochEnd) s
  let s := eachIn (portGet s p).ctl (fun s f => match f.job with
    | some j => jobDone s j stOk 0
    | none => s) s
  portMod s p fun y => { y with ctl := [] }

/-! ### Delivery -/

/-- One fragment leaves the receive buffer: it was written or consumed (R407). -/
def Session.shift (x : Session) : Session :=
  { x with dlv := (x.dlv + 1) % 65536, rx := (x.rx.filter fun k => decide (0 < k.1)).map fun k => (k.1 - 1, k.2) }

/-- Data of a message go to the job that holds it: bytes within LENGTH are written (R407, R419), and the last fragment completes it. -/
def takeData (s : State) (p c : Nat) (g : RxFrag) : State :=
  let x := sessGet s p c
  let got := x.got + g.data.length
  match x.holding with
  | none => sessSet s p c { x with msgOpen := !g.last, got := 0 }
  | some j =>
    match jobGet s j with
    | none => sessSet s p c { x with msgOpen := !g.last, holding := none, got := 0 }
    | some y =>
      let len := payBits y 128 32
      let d := g.data.take (len - x.got)
      let s := if d.isEmpty then s else hostSend s y.part (.write y.part (payBits y 64 64 + x.got) d)
      if g.last then
        let s := s.fincSat (pgClnk + p) (F.LNK_MBX_CNT_MSGS.sh (16 * c)) 1
        let s := jobDone s j (if len < got then stMsgTooLong else stOk) got
        sessSet s p c { x with msgOpen := false, holding := none, got := 0 }
      else sessSet s p c { x with got := got }

/-- A free byte for RESULT[7:0] of FW_REJECTED where R421 and R422 give only RESULT[15:8] (assumption 1). -/
def rejectResult (s : State) (high : Nat) : Nat × State :=
  let (n, s) := s.free
  (n % 256 + high * 256, s)

/-- A firmware update fails: device abort with its code (R411, R423). -/
def fwFail (s : State) (p c status result : Nat) : State :=
  match (sessGet s p c).fw with
  | none => s
  | some f =>
    let s := jobDone s f.job status result
    deviceAbort (sessMod s p c fun x => { x with fw := none }) p c status

/-- Queue a message of a firmware update (Table 12.11) and the state in which its reply is awaited. -/
def fwQueue (s : State) (p c : Nat) (f : FwRun) (d : List Byte) : State :=
  sessMod s p c fun x => { x with fw := some { f with since := none }, frags := x.frags ++ fragments f.job none d }

/-- An 8-byte message of a type. -/
def fwShort (typ : Nat) : List Byte := leBytes 8 typ

/-- BODY_LEN of a container header. -/
def fwBodyLen (h : List Byte) : Nat := leNat ((h.drop 16).take 4)

/-- A whole message from the limb in a firmware update (R421 step 7). -/
def fwReply (s : State) (p c : Nat) (f : FwRun) (d : List Byte) : State :=
  let typ := (d.getD 0 0).toNat
  let st := (d.getD 1 0).toNat
  let awaited := match f.phase with
    | .begin => 0x81
    | .ending => 0x83
    | .activate => 0x84
    | _ => 0
  if d.length ≠ 8 ∨ typ ≠ awaited then
    let (r, s) := rejectResult s 0xFF
    fwFail s p c stFwRejected r
  else if st ≠ 0 then fwFail s p c stFwRejected (typ + st * 256)
  else match f.phase with
    | .begin =>
      let h := leNat (d.drop 4)
      if h % 4096 ≠ 0 ∨ fwBodyLen f.header < h then
        let (r, s) := rejectResult s 0xFE
        fwFail s p c stFwRejected r
      else
        let s := match jobGet s f.job with
          | some y => jobSet s f.job { y with stage := 0, data := none }
          | none => s
        sessMod s p c fun x => { x with fw := some { f with phase := .reread, held := h, acked := h, since := none } }
    | .ending => fwQueue s p c { f with phase := .activate } (fwShort 0x04)
    | _ =>
      let h := f.header
      let r : FwReboot := { job := f.job, vendor := leNat ((h.drop 8).take 2), product := leNat ((h.drop 10).take 2),
                            revision := leNat ((h.drop 12).take 2), since := s.now }
      portMod (sessMod s p c fun x => { x with fw := none }) p fun y => { y with reboots := y.reboots ++ [r] }

/-- A fragment of a firmware update's session: a message of one fragment is a reply; a longer one is not (R421). -/
def fwFragment (s : State) (p c : Nat) (f : FwRun) (g : RxFrag) : State :=
  if g.first && g.last then fwReply s p c f g.data
  else
    let (r, s) := rejectResult s 0xFF
    fwFail s p c stFwRejected r

/-- Deliver the fragment at RCV_DLV (R407, R410); none when it must wait for an MBX_RECV. -/
def deliverOne (s : State) (p c : Nat) (g : RxFrag) : Option State :=
  let x := sessGet s p c
  if x.state = .closing then some (wasteCount (sessSet s p c x.shift) p wLateData)
  else match x.fw with
    | some f => some (fwFragment (sessSet s p c x.shift) p c f g)
    | none =>
      if g.first then
        let s := match x.msgOpen, x.holding with
          | true, some j => jobDone s j stMsgMalformed x.got
          | _, _ => s
        let x := { x with msgOpen := false, holding := none, got := 0 }
        match x.recvs with
        | [] => if (sessGet s p c).msgOpen then some (sessSet s p c x) else none
        | j :: r => some (takeData (sessSet s p c { x.shift with recvs := r, msgOpen := true, holding := some j }) p c g)
      else if x.msgOpen then some (takeData (sessSet s p c x.shift) p c g)
      else some (wasteCount (sessSet s p c x.shift) p wBadFrag)

/-- Deliver what can be delivered. -/
def deliverFrom : Nat → State → Nat → Nat → State
  | 0, s, _, _ => s
  | f + 1, s, p, c =>
    let x := sessGet s p c
    if x.state = .closed then s
    else match x.rx.find? 0 with
      | none => s
      | some g => match deliverOne s p c g with
        | none => s
        | some s => deliverFrom f s p c

/-- Deliver, and acknowledge at once when WIN rises from 0 (R405). -/
def deliver (s : State) (p c : Nat) : State :=
  let full := (sessGet s p c).win = 0
  let s := deliverFrom 18 s p c
  if full ∧ (sessGet s p c).win ≠ 0 then sessMod s p c fun x => { x with ackDue := true } else s

/-! ### After every event -/

/-- The last chunk is acknowledged: END goes out when the hash matches, else the update fails (R422, R423). -/
def fwChunksDone (s : State) (p c : Nat) : State :=
  let x := sessGet s p c
  match x.fw with
  | some f =>
    if f.phase = .chunks ∧ x.frags.isEmpty then
      if f.good then fwQueue s p c { f with phase := .ending } (fwShort 0x03) else fwFail s p c stFwSigBad 3
    else s
  | none => s

/-- DRAINING ends when nothing is in flight and the started MBX_SEND jobs have ended (R416, Table 12.6): what was held is discarded, and
CLOSE goes out. -/
def drainCheck (s : State) (p c : Nat) : State :=
  let x := sessGet s p c
  if x.state = .draining ∧ x.frags.isEmpty ∧ x.sends.isEmpty then
    let s := match x.holding with
      | some j => jobDone s j stCancelled 0
      | none => s
    let s := sessSet s p c { x with state := .closing, dlv := x.rcvNxt, rx := [], holding := none, msgOpen := false, got := 0, tries := 0,
                                    timerAt := none }
    ctlPush s p { chan := c, kind := kClose, sid := x.sid }
  else s

/-- Whether probes are due (R406), and from when. -/
def probeCheck (s : State) (p c : Nat) : State :=
  let x := sessGet s p c
  let w := sendWindow (portGet s p) x
  let due := (x.state = .opened ∨ x.state = .draining) ∧ w = 0 ∧ x.flight = 0 ∧ ¬ x.frags.isEmpty
  if due then (if x.probeAt.isNone then sessSet s p c { x with probeAt := some s.now, probes := 0 } else s)
  else sessSet s p c { x with probeAt := none, probes := 0 }

/-- What follows from an event on a channel. -/
def mbxSettle (s : State) (p c : Nat) : State :=
  mbxShow (probeCheck (drainCheck (fwChunksDone (deliver (feedSends s p c) p c) p c) p c) p c) p c

/-! ### Acknowledgement -/

/-- The first fragments are acknowledged (R401): a job whose last fragment this is completes OK (R416). -/
def ackFirst : Nat → State → Nat → Nat → State
  | 0, s, _, _ => s
  | n + 1, s, p, c =>
    let x := sessGet s p c
    match x.frags with
    | [] => s
    | g :: r =>
      let s := sessSet s p c { x with frags := r, flight := x.flight - 1, una := (x.una + 1) % 65536 }
      let s := match x.fw with
        | some f =>
          match g.mark with
          | some m => sessMod s p c fun x => { x with fw := some { f with acked := m } }
          | none => s
        | none =>
          match jobGet s g.job with
          | none => s
          | some y =>
            let done := y.aux + g.data.length
            if g.last then
              sessMod (jobDone s g.job stOk done) p c fun x => { x with sends := x.sends.erase g.job, fed := x.fed.erase g.job }
            else jobSet s g.job { y with aux := done }
      ackFirst n s p c

/-- Mark what SACK names as held (R401). -/
def markHeld (x : Session) (ackn sack : Nat) : Session :=
  { x with frags := x.frags.zipIdx.map fun gi =>
      let d := (x.una + gi.2 + 65536 - (ackn + 1) % 65536) % 65536
      if gi.2 < x.flight ∧ d < 16 ∧ sack.testBit d then { gi.1 with held := true, timer := none, due := false } else gi.1 }

/-- The highest fragment an ACK marks as held: its index and its order number. -/
def highestHeld (x : Session) (ackn sack : Nat) : Option (Nat × Nat) :=
  x.frags.zipIdx.foldl (fun b gi =>
    let d := (x.una + gi.2 + 65536 - (ackn + 1) % 65536) % 65536
    if gi.2 < x.flight ∧ d < 16 ∧ sack.testBit d then some (gi.2, gi.1.order) else b) none

/-- Missing fragments are to be sent again at once, unless one was sent again after the last transmission of the highest held (R402). -/
def markMissing (x : Session) (ackn sack : Nat) : Session :=
  match highestHeld x ackn sack with
  | none => x
  | some (i, o) =>
    { x with frags := x.frags.zipIdx.map fun gi =>
        if gi.2 < i ∧ gi.2 < x.flight ∧ ¬ gi.1.held ∧ gi.1.order < o then { gi.1 with due := true } else gi.1 }

/-- ACKN and SACK of a frame that passed the checks (R401, R402); an old acknowledgement is ignored. -/
def takeAck (s : State) (p c ackn sack : Nat) : State :=
  let x := sessGet s p c
  if seqPrecedes ackn x.una then s
  else
    let n := (ackn + 65536 - x.una) % 65536
    let s := ackFirst n s p c
    sessMod s p c fun x => markMissing (markHeld x ackn sack) ackn sack

/-- The frame acknowledges what was not sent (Table 12.7). -/
def acksUnsent (x : Session) (ackn sack : Nat) : Bool :=
  seqPrecedes x.sndNxt ackn || (List.range 16).any fun i => sack.testBit i && !seqPrecedes ((ackn + 1 + i) % 65536) x.sndNxt

end Sys2Proof.Machine
end

