-- ==== Sys2Proof/Machine/Time.lean ====
section
/-! DEFINITION. Plan time: base periods, markers, sync pulses, crossings, release registers, the mirror window (chapter 2, R21) and
the memory calendar (R22 to R24, R32). -/

namespace Sys2Proof.Machine

/-- Change the time state. -/
def timeSet (s : State) (t : TimeSt) : State := { s with time := t }

/-- Position j of the plan cycle (R38). -/
def planPos (s : State) : Nat :=
  if s.time.plan.isSome ∧ 0 < s.time.cycleH then (s.time.bpn.toNat + 2 ^ 64 - s.time.epochBpn) % 2 ^ 64 % s.time.cycleH else 0

/-- A read of PTB_NOW_LO captures the 64-bit count for the reader (R39). -/
def ptbNowRead (s : State) (part : Nat) : Word × State :=
  (BitVec.ofNat 32 s.now, timeSet s { s.time with capNow := s.time.capNow.set 0 part (BitVec.ofNat 32 (s.now / 2 ^ 32)) })

/-- A read of PTB_BPN_LO captures the 64-bit number for the reader (R93). -/
def ptbBpnRead (s : State) (part : Nat) : Word × State :=
  let b := s.time.bpn.toNat
  (BitVec.ofNat 32 b, timeSet s { s.time with capBpn := s.time.capBpn.set 0 part (BitVec.ofNat 32 (b / 2 ^ 32)) })

/-- PTB_NOW_READ (R39, R93): bits 31:0, with the high half captured for the reading partition. -/
def execPtbNowRead (part : Nat) (s : State) : Host.Outcome State Fault Refusal :=
  nxt (pageRead s part pgPtb fun s => ptbNowRead s part)

/-- PTB_BPN_READ (R93). -/
def execPtbBpnRead (part : Nat) (s : State) : Host.Outcome State Fault Refusal :=
  nxt (pageRead s part pgPtb fun s => ptbBpnRead s part)

/-- A base-period start (R37): the PTB reaches the next start of the grid, the base-period number rises, and a sync master sends a pulse
(R64). The markers reach the islands under MARKER_ARRIVAL. -/
def basePeriodStart (s : State) : State :=
  let t := s.time.startTick + s.time.period
  let s := s.reach t
  timeSet s { s.time with
    startTick := t, bpn := s.time.bpn + 1,
    syncOut := if s.fget pgPtb F.PTB_SYNC_CTRL_MODE = 1 then s.time.syncOut + 1 else s.time.syncOut }

/-- A Plan island is built: 0 to 67 FACET, 68 LOOP, 69 the CLNK slot engine (Table 1.1). -/
def islandBuilt (s : State) (i : Nat) : Bool := decide (i < s.var.facetTiles) || i == 68 || i == 69

/-- The page an island captures its time events on. -/
def islandPage (i : Nat) : Nat := if i = 68 then pgLoopG else if i = 69 then pgClnkG else pgFt + i

/-- MARKER_ARRIVAL (R41, R42): `delay` ticks after the base-period start the copy becomes the start tick plus 12. -/
def execMarkerArrival (island delay : Nat) (s : State) : Host.Outcome State Fault Refusal :=
  let c := s.time.copies.get {} island
  nxt <|
    if s.time.running ∧ ¬ asleep s ∧ islandBuilt s island ∧ delay ≤ 64 ∧ c.marked ≠ some s.time.startTick then
      let s := s.reach (s.time.startTick + delay)
      let off : Int := 12 - (delay : Int)
      let c' : Copy := { off := off, valid := true, misses := 0, marked := some s.time.startTick }
      let s := timeSet s { s.time with copies := s.time.copies.set {} island c' }
      if c.valid ∧ (off - c.off > 2 ∨ c.off - off > 2) then capture s (islandPage island) 0x0F00 0 0 else s
    else s

/-! ### Sync pulses -/

/-- SYNC_LOST (R64): captured, counted, and the PTB page's cause 0 (DEDUCED, assumption 57). -/
def syncLost (s : State) : State :=
  pageIrq ((capture s pgPtb 0x0F06 0 0).fincSat pgPtb F.PTB_SYNC_STAT_LOST_COUNT 1) pgPtb 1

/-- The signed distance of a pulse edge, board delay added, from the nearest base-period start of the grid (R64, R70). -/
def syncOffset (s : State) (tick : Nat) : Int :=
  let p : Int := s.time.period
  let d := ((tick + s.fget pgPtb F.PTB_SYNC_CTRL_BOARD_DELAY : Nat) - (s.time.startTick : Int)) % p
  if 2 * d < p then d else d - p

/-- SYNC_PULSE_IN (R64): seen by a follower, which checks it against its window once it has placed an epoch. -/
def execSyncPulseIn (tick : Nat) (s : State) : Host.Outcome State Fault Refusal :=
  let s := s.reach tick
  nxt <| if s.fget pgPtb F.PTB_SYNC_CTRL_MODE ≠ 2 then s
  else
    let d := syncOffset s tick
    let s := s.fset pgPtb F.PTB_SYNC_STAT_PULSE_SEEN 1
    let s := s.fset pgPtb F.PTB_SYNC_STAT_OFFSET (ofSigned 8 (max (-128) (min 127 d)))
    let s := timeSet s { s.time with syncSeen := some tick,
                                     syncEpoch := some (tick + s.fget pgPtb F.PTB_SYNC_CTRL_BOARD_DELAY) }
    if s.time.syncCheck ∧ (d > 4 ∨ d < -4) then syncLost s else s

/-- SYNC_PULSE_MISSING (R64): the window of the expected edge passes with no pulse in it. -/
def execSyncPulseMissing (s : State) : Host.Outcome State Fault Refusal :=
  let delay := s.fget pgPtb F.PTB_SYNC_CTRL_BOARD_DELAY
  let edge : Int := (s.time.startTick : Int) - delay
  let edge := if (s.now : Int) ≤ edge + 8 then edge else edge + s.time.period
  let seen : Bool := match s.time.syncSeen with
    | none => false
    | some t => decide (edge - 4 ≤ t) && decide ((t : Int) ≤ edge + 4)
  nxt <| if s.fget pgPtb F.PTB_SYNC_CTRL_MODE = 2 ∧ s.time.syncCheck ∧ seen = false ∧ s.time.running then
    syncLost (s.reach (edge + 5).toNat)
  else s

/-! ### Crossings -/

/-- CROSSING_ARRIVAL (R46): the datum waits in the receiver's landing buffer. -/
def execCrossingArrival (page idx : Nat) (data : Datum) (tick : Nat) (s : State) : Host.Outcome State Fault Refusal :=
  let s := s.reach tick
  nxt <| match classOf s.var page with
    | none => s
    | some c =>
      if domainOf c = .plan ∧ idx < 4096 then
        timeSet s { s.time with landing := s.time.landing.ins (4096 * page + idx) data }
      else s

/-- SCHEDULED_CYCLE (R47, R158): the consumer takes the datum; with none there it takes poison and the page captures CROSSING_LATE,
or, where the source tile is lost, a datum marked lost and nothing is captured. -/
def execScheduledCycle (page idx : Nat) (src : Option Nat) (s : State) : Host.Outcome State Fault Refusal :=
  let k := 4096 * page + idx
  let take := fun (s : State) (d : Datum) =>
    timeSet s { s.time with landing := s.time.landing.del k, consumed := s.time.consumed.set {} k d }
  nxt <| match classOf s.var page with
    | none => s
    | some c =>
      if domainOf c ≠ .plan ∨ 4096 ≤ idx then s
      else match s.time.landing.find? k with
        | some d => take s d
        | none => match src with
          | some p => if p ∈ s.time.lost then take s { lost := true } else take (capture s page 0x0F02 0 0) { poison := true }
          | none => take (capture s page 0x0F02 0 0) { poison := true }

/-! ### Release registers -/

def relGet (s : State) (r : Nat) : RelReg := s.time.releases.get {} r
def relSet (s : State) (r : Nat) (x : RelReg) : State := timeSet s { s.time with releases := s.time.releases.set {} r x }

/-- The island whose copy a release register counts on; none for the mirror release point, which counts on the PTB (R48, R53). -/
def relIsland (r : Nat) : Option Nat := if r < 64 then some 68 else if r < 8192 then some 69 else none

/-- The page and the detail of a release register's events (R663). -/
def relPage (r : Nat) : Nat × Nat :=
  if r < 64 then (pgCh + r, 0)
  else if r < 8192 then
    let w := (r - 64) % 32
    (pgClnk + (r - 64) / 32, w / 2 + (w % 2) * 16)
  else (pgPtb, (r - 8192) % 8192)

/-- A PTB tick on the copy of a register's island. -/
def relCopyTick (s : State) (r tick : Nat) : Int :=
  match relIsland r with
  | none => tick
  | some i => (tick : Int) + (s.time.copies.get {} i).off

/-- The copy that times a register's releases is valid (R68). -/
def relTimed (s : State) (r : Nat) : Bool :=
  match relIsland r with
  | none => s.time.running
  | some i => (s.time.copies.get {} i).valid

/-- The releases of a register under the plan in force. -/
def relPlans (s : State) (r : Nat) : List PlanRelease :=
  match s.time.plan with
  | none => []
  | some p => p.releases.filter fun x => x.reg = r

/-- Length of a plan cycle in ticks. -/
def cycleTicks (s : State) : Nat := s.time.cycleH * s.time.period

/-- First tick of a release, on the copy, that is at or after a tick and whose cut tick is not before the epoch (R49, R666). -/
def relNext (s : State) (x : PlanRelease) (t : Int) : Int :=
  let base : Int := s.time.epochTick + x.pos * s.time.period + x.phase
  let m := max t ((s.time.epochTick : Int) + 8)
  let c : Int := cycleTicks s
  if m ≤ base ∨ c = 0 then base else base + (m - base + c - 1) / c * c

/-- The release of a register whose release tick is a copy tick. -/
def relAt (s : State) (r : Nat) (t : Int) : Option PlanRelease := (relPlans s r).find? fun x => decide (relNext s x t = t)

/-- The first release tick of a register at or after a copy tick (R49). -/
def relFirst (s : State) (r : Nat) (t : Int) : Option Int :=
  (relPlans s r).foldl (fun best x =>
    let n := relNext s x t
    match best with
    | none => some n
    | some b => some (min b n)) none

/-- Capture a release event (R663). -/
def relCapture (s : State) (r code : Nat) : State := let p := relPage r; capture s p.1 code 0 p.2

/-- DELIVERY_COMPLETE (R49, R51): the n-th delivery in flight completes. A delivery to a report register, numbered from 16384 up, is held
there with its tick (R252). -/
def execDeliveryComplete (n tick : Nat) (s : State) : Host.Outcome State Fault Refusal :=
  let s := s.reach tick
  nxt <| match s.time.crossings[n]? with
    | none => s
    | some (r, d) =>
      let s := timeSet s { s.time with crossings := s.time.crossings.eraseIdx n }
      let t := relCopyTick s r tick
      let x := relGet s r
      if 16384 ≤ r then { s with solver := { s.solver with reports := s.solver.reports.ins (r - 16384) (d, s.now) } }
      else match relFirst s r t with
      | none => relSet s r { x with pending := some d }
      | some rel =>
        if t + 8 < rel then
          let s := relSet s r { x with pending := some d }
          if x.pending.isSome then relCapture s r 0x0F05 else s
        else
          let s := relCapture (relSet s r { x with late := some d }) r 0x0F03
          if x.late.isSome then relCapture s r 0x0F05 else s

/-- The output of a release depends on a lost tile (R158). -/
def relLost (s : State) (x : PlanRelease) : Bool := x.deps.any fun p => decide (p ∈ s.time.lost)

/-- The fallback policy sets the output (R50): the safe output, or the last value. -/
def relFallback (x : PlanRelease) (r : RelReg) : Datum :=
  match x.safe with
  | some v => { val := v }
  | none => r.output

/-- CUT_TICK (R50): a release with no delivery is missed. -/
def execCutTick (reg tick : Nat) (s : State) : Host.Outcome State Fault Refusal :=
  let s := s.reach tick
  let t := relCopyTick s reg tick
  nxt <| if ¬ relTimed s reg then s
  else match relAt s reg (t + 8) with
    | none => s
    | some x =>
      let r := relGet s reg
      match r.pending with
      | some _ => s
      | none =>
        if r.missed then s
        else if relLost s x then relSet s reg { r with missed := true }
        else relCapture (relSet s reg { r with missed := true }) reg 0x0F04

/-- What a release leaves in the output stage, and what it reports (R47, R48, R50, R158). -/
def relOutcome (s : State) (x : PlanRelease) (r : RelReg) : Datum × Nat :=
  let lost := relLost s x || (match r.pending with | some d => d.lost | none => false)
  if lost then (r.output, 0x0016)
  else match r.pending with
    | none => (relFallback x r, 0x0F04)
    | some d => if d.poison then (relFallback x r, 0x0014) else (d, 0)

/-- RELEASE_TICK (R48): the pending stage becomes the output stage, and a late delivery becomes pending (R49). A mirror word's new
output shows with the next mirror refresh. -/
def execReleaseTick (reg tick : Nat) (s : State) : Host.Outcome State Fault Refusal :=
  let s := s.reach tick
  nxt <| if ¬ relTimed s reg then s
  else match relAt s reg (relCopyTick s reg tick) with
    | none => s
    | some x =>
      let r := relGet s reg
      let o := relOutcome s x r
      relSet s reg { pending := r.late, late := none, missed := false, output := o.1, status := o.2 }

/-! ### The mirror window -/

/-- The first and the last word of a mirror page are the device's (R21). -/
def mirrorReserved (i : Nat) : Bool := i % 512 = 0 || i % 512 = 511

/-- The slot bindings of the plan in force: mirror area and length (Table 8.3). -/
def mirrorAreas (s : State) : List (Nat × Nat × Nat) :=
  match s.time.plan with
  | none => []
  | some p => p.bindings.map fun b => (bitsOf b 0 5, bitsOf b 112 13, bitsOf b 128 13)

/-- The status a slot's release events show in word 0 of its mirror area (R50, R158, R269): TILE_LOST first, then POISON, then
RELEASE_MISSED, among the registers whose last release reported one. -/
def slotRelStatus (s : State) (slot : Nat) : Nat :=
  match s.time.plan with
  | none => 0
  | some p =>
    let sts := (p.releases.filter fun x => x.slot = some slot).map fun x => (relGet s x.reg).status
    if 0x0016 ∈ sts then 0x0016 else if 0x0014 ∈ sts then 0x0014 else if 0x0F04 ∈ sts then 0x0F04 else 0

/-- A content word of the mirror: the output of its release register where the plan gives it content, else 0 (R21); word 0 of a
slot's area shows release events in its primary status field (R50, R158). -/
def mirrorContent (s : State) (i : Nat) : DWord :=
  if relPlans s (8192 + i) = [] then 0
  else
    let w := (relGet s (8192 + i)).output.val
    match (mirrorAreas s).find? fun a => a.2.1 = i with
    | none => w
    | some a =>
      let st := slotRelStatus s a.1
      if st = 0 then w else (w &&& ~~~ (0xFFFF : DWord)) ||| BitVec.ofNat 64 st

/-- The mirror words that can be other than 0: the reserved words and the plan's content words. -/
def mirrorWords (s : State) : List Nat :=
  (List.range 16).flatMap (fun k => [512 * k, 512 * k + 511])
    ++ (match s.time.plan with
        | none => []
        | some p => (p.releases.filter fun x => 8192 ≤ x.reg && x.reg < 16384).map fun x => x.reg - 8192)

/-- MIRROR_REFRESH (R21): every mirror page is written once per base period from the mirror phase on. -/
def execMirrorRefresh (s : State) : Host.Outcome State Fault Refusal :=
  nxt <| match s.time.plan with
    | none => s
    | some p =>
      if asleep s then s
      else
        let s := s.reach (s.time.startTick + p.mirrorPhase)
        let m := (mirrorWords s).foldl (fun (m : Tab DWord) i =>
          m.set 0 i (if mirrorReserved i then s.time.bpn else mirrorContent s i)) []
        timeSet s { s.time with mirror := m }

/-! ### The reservation calendar -/

/-- The calendar page of a memory channel. -/
def calPage (ch : Nat) : Nat := pgMemc + 1 + 2 * ch

def phaseGet (s : State) (ch : Nat) : ChanPhase := s.time.chans.get {} ch
def phaseSet (s : State) (ch : Nat) (x : ChanPhase) : State := timeSet s { s.time with chans := s.time.chans.set {} ch x }

/-- Start and length of a window; length 0 where the entry is unused (R523). -/
def calWindow (s : State) (ch w : Nat) : Nat × Nat :=
  (s.fget (calPage ch) (F.MEMC_WIN_START.sh (4 * w)), s.fget (calPage ch) (F.MEMC_WIN_LEN.sh (4 * w)))

/-- The channel is inside a reserved window. -/
def inWindow (s : State) (ch : Nat) : Bool :=
  let x := phaseGet s ch
  x.closed && decide (s.time.startTick + (calWindow s ch x.win).1 ≤ s.now)

/-- GUARD_START (R23): 48 ticks before a window the channel takes no new Serve or System command and precharges all banks. -/
def execGuardStart (chan win : Nat) (s : State) : Host.Outcome State Fault Refusal :=
  let (st, len) := calWindow s chan win
  nxt <| if s.time.running ∧ chan < s.var.memcChannels ∧ win < 16 ∧ len ≠ 0 ∧ ¬ (phaseGet s chan).closed then
    let s := s.reach (s.time.startTick + st - 48)
    phaseSet s chan { phaseGet s chan with closed := true, win := win, precharged := true }
  else s

/-- WINDOW_END (R22): open time begins and the waiting requests issue in their order. -/
def execWindowEnd (chan win : Nat) (s : State) : Host.Outcome State Fault Refusal :=
  let x := phaseGet s chan
  let (st, len) := calWindow s chan win
  nxt <| if chan < s.var.memcChannels ∧ x.closed ∧ x.win = win then
    phaseSet (s.reach (s.time.startTick + st + len)) chan { x with closed := false, waiting := [], precharged := x.waiting.isEmpty }
  else s

/-- REFRESH (R24): refresh, RFM and ZQ commands issue only in open time. -/
def execRefresh (chan : Nat) (op : RefreshOp) (s : State) : Host.Outcome State Fault Refusal :=
  let x := phaseGet s chan
  nxt <| if chan < s.var.memcChannels ∧ ¬ x.closed ∧ s.fbit (pgMemc + 2 * chan) F.PG_CTRL_IN_SERVICE then
    match op with
    | .refresh | .rfm | .zq => phaseSet s chan { x with refreshes := x.refreshes + 1 }
  else s

/-- PLAN_OFF_WINDOW (R32): a Plan request outside every window of its channel is captured on the channel's control page and counted,
and served ahead of other requests. -/
def execPlanOffWindow (chan : Nat) (addr : Nat) (s : State) : Host.Outcome State Fault Refusal :=
  let p := pgMemc + 2 * chan
  nxt <| if chan < s.var.memcChannels ∧ s.time.plan.isSome ∧ ¬ inWindow s chan then
    pageIrq ((capture s p 0x0F13 0 (addr / 8)).fincSat p F.MEMC_MISC_OFF_WINDOW 1) p 4
  else s

end Sys2Proof.Machine
end

