-- ==== Sys2Proof/Machine/Clnk.lean ====
section
/-! DEFINITION. CriskaLink port states, epochs, enumeration, slots, HALT and the mailbox engine's sending (chapter 11, R427). -/

namespace Sys2Proof.Machine

/-! ### Port timers (Table 11.11), in ticks -/

abbrev tPlug : Nat := 8000000
abbrev tUnplug : Nat := 40000
abbrev tSync : Nat := 1600000
abbrev tEnum : Nat := 8000000
abbrev tBackoff : Nat := 80000000

/-! ### States and epochs -/

/-- The transmitter is on in these states (R360). -/
def txState (st : Nat) : Bool := st == lkSync || st == lkEnum || st == lkUp || st == lkMbxOnly

/-- A port enters a state (R367): the timers of other states stop, and the status and the transmitter follow. -/
def linkEnter (s : State) (p st : Nat) : State :=
  let s := portMod s p fun x => { x with
    plugAt := none, syncAt := none, enumAt := none, backoffAt := none, enumFrame := none,
    unplugAt := if st = lkDown ∨ st = lkOut then none else x.unplugAt,
    tx := txState st || (x.tx && halting x && st != lkOut) }
  let s := linkStat s p F.LNK_STAT_STATE st
  let s := if st = lkUp then s else linkStat s p F.LNK_STAT_CYC (if st = lkMbxOnly then cycMbxOnly else cycNone)
  let s := if st = lkDown ∨ st = lkOut then linkGlobal (linkStat s p F.LNK_STAT_PRES 0) F.GLNK_PRES p false else s
  linkGlobal s F.GLNK_UP p (st == lkUp || st == lkMbxOnly)

/-- Set the current epoch (R369), which the HALTs from now on carry (R383). -/
def setCurrent (s : State) (p : Nat) (e : Option Nat) : State :=
  let s := portMod (haltNow s p) p fun x => { x with current := e }
  linkStat s p F.LNK_STAT_EPOCH (e.getD 0)

/-- An epoch ends, or ENUM retires its E (R369): sessions end, and the cause and the epoch are recorded. -/
def endEpoch (s : State) (p cause : Nat) : State :=
  let x := portGet s p
  let s := if x.current.isSome then sessionsEnd s p else s
  let s := setCurrent s p none
  let s := portMod s p fun x => { x with enumE := none, caps := none, enumFrame := none, leakAt := none, fresh := [] }
  match (match x.current with | some e => some e | none => x.enumE) with
  | none => s
  | some e => pageIrq (s.setReg (pgClnk + p) F.LNK_CAUSE_CAUSE.off (BitVec.ofNat 32 (cause + e * 2 ^ 16))) (pgClnk + p) 2

/-- Causes of an epoch end (LNK_CAUSE). -/
abbrev eeUnplug : Nat := 1
abbrev eeSyncLoss : Nat := 2
abbrev eePartnerReset : Nat := 3
abbrev eeCycLost : Nat := 4
abbrev eeHost : Nat := 5
abbrev eeOutOfService : Nat := 6
abbrev eeProtocol : Nat := 7
abbrev eeEnumFail : Nat := 8

/-- The next epoch (R368): 0x0000 and 0xFFFF are skipped. -/
def nextEpoch (c : Nat) : Nat := if 0xFFFE ≤ c then 1 else c + 1

/-- Queue ASSIGN (R371, Table 11.8). -/
def queueAssign (s : State) (p : Nat) (attempt : Bool) : State :=
  portMod s p fun x => { x with
    assigns := x.assigns + b2n attempt, enumAt := none,
    enumFrame := some { typ := 5, chan := 2, data := leBytes 8 (x.enumE.getD 0 + 0x0100 * 2 ^ 16 + p * 2 ^ 32) } }

/-- Queue CONFIRM (R371, R373, Table 11.8). -/
def queueConfirm (s : State) (p : Nat) (attempt : Bool) : State :=
  portMod s p fun x => { x with
    confirms := x.confirms + b2n attempt, enumAt := none,
    enumFrame := some { typ := 5, chan := 4, epoch := x.enumE.getD 0,
                        data := leBytes 8 (b2n (x.reject != 0) + x.reject * 2 ^ 8 + capsChannels x * 2 ^ 16) } }

/-- Enter ENUM with a new E (R368, R371). -/
def startEnum (s : State) (p : Nat) : State :=
  let s := linkEnter s p lkEnum
  let s := portMod s p fun x =>
    let e := nextEpoch x.counter
    { x with counter := e, enumE := some e, caps := none, assigns := 0, confirms := 0 }
  queueAssign s p true

/-- Enter SYNC; with the receiver in sync already, ENUM follows at once. -/
def toSync (s : State) (p : Nat) : State :=
  let s := portMod (linkEnter s p lkSync) p fun x => { x with syncAt := some s.now }
  if s.fbit (pgClnk + p) F.LNK_STAT_SYNC then startEnum s p else s

def toDetect (s : State) (p : Nat) : State := portMod (linkEnter s p lkDetect) p fun x => { x with plugAt := some s.now }

def toBackoff (s : State) (p : Nat) : State := portMod (linkEnter s p lkBackoff) p fun x => { x with backoffAt := some s.now }

/-- PRES_N is qualified low and the port is enabled: it leaves DETECT (Table 11.10). -/
def detectDone (s : State) (p : Nat) : State :=
  if s.fbit (pgClnk + p) F.PG_CTRL_ENABLE then toSync (pageIrq s (pgClnk + p) 4) p else s

/-- PRES_N_LOW (R367, R388). -/
def execPresNLow (port : Nat) (s : State) : Host.Outcome State Fault Refusal :=
  let s := if portBuilt s port then portMod s port fun x => { x with presN := false, unplugAt := none } else s
  nxt <| if portDead s port then s
  else if linkState s port = lkDown then toDetect s port
  else s

/-- PRES_N_HIGH (R367): in DETECT before T_PLUG expires the port goes DOWN; else T_UNPLUG starts. -/
def execPresNHigh (port : Nat) (s : State) : Host.Outcome State Fault Refusal :=
  let s := if portBuilt s port then portMod s port fun x => { x with presN := true } else s
  let st := linkState s port
  nxt <| if portDead s port ∨ st = lkDown then s
  else if st = lkDetect ∧ ¬ s.fbit (pgClnk + port) F.LNK_STAT_PRES then linkEnter s port lkDown
  else portMod s port fun x => { x with unplugAt := x.unplugAt.getD s.now }

/-- T_PLUG_EXPIRY (R367). -/
def execTPlugExpiry (port : Nat) (s : State) : Host.Outcome State Fault Refusal :=
  let x := portGet s port
  nxt <| match x.plugAt with
    | none => s
    | some t =>
      if portDead s port ∨ x.presN ∨ linkState s port ≠ lkDetect then s
      else
        let s := s.reach (t + tPlug)
        let s := portMod s port fun x => { x with plugAt := none }
        let s := linkGlobal (linkStat s port F.LNK_STAT_PRES 1) F.GLNK_PRES port true
        detectDone s port

/-- T_UNPLUG_EXPIRY (R367, R369). -/
def execTUnplugExpiry (port : Nat) (s : State) : Host.Outcome State Fault Refusal :=
  let x := portGet s port
  nxt <| match x.unplugAt with
    | none => s
    | some t =>
      if portDead s port ∨ ¬ x.presN then s
      else linkEnter (endEpoch (s.reach (t + tUnplug)) port eeUnplug) port lkDown

/-- T_SYNC_EXPIRY (R367, R394). -/
def execTSyncExpiry (port : Nat) (s : State) : Host.Outcome State Fault Refusal :=
  nxt <| match (portGet s port).syncAt with
    | none => s
    | some t =>
      if portDead s port ∨ linkState s port ≠ lkSync then s
      else toBackoff (linkCount (capture (s.reach (t + tSync)) (pgClnk + port) 0x0B00 0 0) port 12) port

/-- T_ENUM_EXPIRY (R371): another send, three at most of each frame, or the end of the enumeration. -/
def execTEnumExpiry (port : Nat) (s : State) : Host.Outcome State Fault Refusal :=
  let x := portGet s port
  nxt <| match x.enumAt with
    | none => s
    | some t =>
      if portDead s port ∨ linkState s port ≠ lkEnum then s
      else
        let s := s.reach (t + tEnum)
        if x.caps.isNone ∧ x.assigns < 3 then queueAssign s port true
        else if x.caps.isSome ∧ x.confirms < 3 then queueConfirm s port true
        else toBackoff (endEpoch (capture s (pgClnk + port) 0x0B01 0 (x.enumE.getD 0)) port eeEnumFail) port

/-- T_BACKOFF_EXPIRY (R367). -/
def execTBackoffExpiry (port : Nat) (s : State) : Host.Outcome State Fault Refusal :=
  nxt <| match (portGet s port).backoffAt with
    | none => s
    | some t => if portDead s port ∨ linkState s port ≠ lkBackoff then s else toSync (s.reach (t + tBackoff)) port

/-- RX_SYNC_ACQUIRED (R361, R367). -/
def execRxSyncAcquired (port : Nat) (s : State) : Host.Outcome State Fault Refusal :=
  nxt <| if portDead s port then s
  else
    let s := linkStat s port F.LNK_STAT_SYNC 1
    if linkState s port = lkSync then startEnum s port else s

/-- RX_SYNC_LOST (R361, R367). -/
def execRxSyncLost (port : Nat) (s : State) : Host.Outcome State Fault Refusal :=
  nxt <| if ¬ portHears s port then s
  else
    let s := linkCount (linkStat s port F.LNK_STAT_SYNC 0) port 12
    let st := linkState s port
    if st = lkEnum ∨ st = lkUp ∨ st = lkMbxOnly then toSync (endEpoch s port eeSyncLoss) port else s

/-- A write of 1 to LNK_CTRL.RELINK (Table 11.10, R392). -/
def relink (s : State) (p : Nat) : State :=
  let st := linkState s p
  if portDead s p then s
  else if st = lkEnum ∨ st = lkUp ∨ st = lkMbxOnly then startEnum (endEpoch s p eeHost) p
  else s

/-- A write of RUN_EN is remembered for the 128 ticks before a slot frame (R376). -/
def runWrite (s : State) (p : Nat) (on : Bool) : State :=
  let old := s.fbit (pgClnk + p) F.LNK_CTRL_RUN_EN
  let s := portMod s p fun x => { x with runLog := (s.now, old) :: x.runLog.filter fun e => decide (s.now < e.1 + 256) }
  s.fset (pgClnk + p) F.LNK_CTRL_RUN_EN (b2n on)

/-- A write of LNK_CTRL. -/
def linkCtrlWrite (s : State) (p : Nat) (data : Word) : State :=
  let s := runWrite s p (data.getLsbD 0)
  if data.getLsbD 1 then relink s p else s

/-- RELINK: a write of LNK_CTRL with RELINK = 1. -/
def execRelink (part port : Nat) (data : Word) (s : State) : Host.Outcome State Fault Refusal :=
  nxt (pageWrite s part (pgClnk + port) fun s => linkCtrlWrite s port (data ||| 2))

/-- A write of PG_CTRL.ENABLE of a port (Table 11.10): 0 ends the epoch and holds the port in DETECT; 1 lets a port held there go on. -/
def linkEnable (s : State) (p : Nat) (on : Bool) : State :=
  let s := s.fset (pgClnk + p) F.PG_CTRL_ENABLE (b2n on)
  let st := linkState s p
  if portDead s p then s
  else if on then (if st = lkDetect ∧ s.fbit (pgClnk + p) F.LNK_STAT_PRES then detectDone s p else s)
  else if st = lkSync ∨ st = lkEnum ∨ st = lkUp ∨ st = lkMbxOnly ∨ st = lkBackoff then linkEnter (endEpoch s p eeHost) p lkDetect
  else s

/-- A soft reset of a port page: the epoch ends with cause HOST, the port goes DOWN and its counters and mailbox
registers clear; a limb that is there is detected anew. -/
def linkSoftReset (s : State) (p : Nat) : State :=
  let s := linkEnter (endEpoch s p eeHost) p lkDown
  let s := eachIn (List.range 8) (fun s k => s.setReg (pgClnk + p) (F.LNK_CNT_EVEN.off + 4 * k) 0) s
  let s := eachIn (List.range 34) (fun s k => s.setReg (pgClnk + p) (0x300 + 4 * k) 0) s
  let s := portMod s p fun x => { x with chans := [] }
  if (portGet s p).presN then s else toDetect s p

/-- A port leaves service (R393, Table 5.7): the epoch ends, a HALT goes out when the transmitter works, and the Loupe is asked for a stop of
the port's groups. The page is marked before. -/
def linkLeave (s : State) (p : Nat) (txWorks : Bool) : State :=
  let s := endEpoch s p eeOutOfService
  let x := portGet s p
  let s :=
    if x.tx ∧ txWorks then
      if haltInProgress s p s.now then sendHalt s p haltPortOut false (linkFree s p)
      else
        let s := abandonFrame s p s.now
        let t := match (portGet s p).sending with
          | some f => max (gridUp s s.now) f.ended
          | none => gridUp s s.now
        sendHalt s p haltPortOut false t
    else s
  stopRequest (linkEnter s p lkOut) 20 (groupsOfPort s p) false

/-- A port returns to service: it starts from DOWN (R393). -/
def linkReturn (s : State) (p : Nat) : State :=
  let s := linkEnter s p lkDown
  if (portGet s p).presN then s else toDetect s p

/-! ### Frames from the limb -/

/-- A frame failed a receive check inside the windows that are open (Table 11.16, ERR). -/
def windowErr (s : State) (p : Nat) : State :=
  let t := copyTick s 69 s.now
  portMod s p fun x => { x with wins := x.wins.map fun w => if w.openAt ≤ t ∧ t ≤ w.closeAt then { w with err := true } else w }

/-- A receive check fails (R365). -/
def rxFail (s : State) (p counter : Nat) : State := windowErr (linkCount s p counter) p

/-- EPOCH of a received frame is right (R365, Table 11.8). -/
def epochOk (x : LinkPort) (epoch : Nat) : Bool := x.current == some epoch

/-- The first check of Table 11.7 that a frame fails, as its counter (DEDUCED, assumption 100). -/
def rxCheck (s : State) (p : Nat) (f : RxFrame) : Option Nat :=
  let x := portGet s p
  let n := f.bytes.length
  let h := f.bytes.take 8
  let body := f.bytes.take (n - 4)
  let byte := fun i => (h.getD i 0).toNat
  let typ := byte 0 % 16
  let chan := byte 1
  let epoch := byte 2 + 256 * byte 3
  let len := byte 4 + 256 * byte 5
  let enumOk := (chan == 1 && len == 0) || (chan == 3 && len == 64) || (chan == 5 && len == 0)
  if f.codeErr then some 1
  else if n < 12 ∨ leNat (f.bytes.drop (n - 4)) ≠ crc32 body then some 2
  else if 256 < len ∨ len ≠ n - 12 then some 3
  else if ¬ (typ = 3 ∨ typ = 4 ∨ (typ = 5 ∧ enumOk)) then some 4
  else if typ = 5 ∧ chan = 1 ∧ epoch = 0 then none
  else if typ = 5 ∧ chan = 3 ∧ x.enumE = some epoch then none
  else if epochOk x epoch then none
  else some 5

/-- RX_FRAME_DISCARDED (R365, R366): out of sync nothing is counted; an abandoned frame counts in ABANDONED; any other by the first check
it fails. A frame that fails none is not discarded. -/
def execRxFrameDiscarded (port : Nat) (frame : RxFrame) (s : State) : Host.Outcome State Fault Refusal :=
  nxt <| if ¬ portHears s port then s
  else if frame.abandoned then linkCount s port 6
  else match rxCheck s port frame with
    | some k => rxFail s port k
    | none => s

/-- ANNOUNCE (R371, Table 11.10). -/
def execAnnounce (port : Nat) (s : State) : Host.Outcome State Fault Refusal :=
  nxt <| if ¬ portHears s port then s
  else
    let s := linkCount s port 0
    let st := linkState s port
    if st = lkEnum then queueAssign s port false
    else if st = lkUp ∨ st = lkMbxOnly then startEnum (endEpoch s port eePartnerReset) port
    else s

/-- The REASON of a capability record (R373, Table 11.13); 0 accepts it. -/
def capsReason (s : State) (p : Nat) (r : BitVec 512) : Nat :=
  let f := fun lo w => bitsOf r lo w
  let cls := f 96 8
  if f 8 8 ≠ 1 then 1
  else if f 208 304 ≠ 0 ∨ 248 < f 112 16 ∨ 256 < f 128 16 ∨ f 128 16 % 16 ≠ 0 ∨ f 144 16 < 1 ∨ 2000 < f 144 16
      ∨ f 192 8 < 1 ∨ 16 < f 192 8 ∨ ¬ ((1 ≤ cls ∧ cls ≤ 5) ∨ cls = 0xFF) ∨ f 203 5 ≠ 0 then 2
  else if s.fget (pgClnk + p) F.LNK_LIMIT_HALT_MAX < f 160 16 then 3
  else if s.fget (pgClnk + p) F.LNK_LIMIT_WATCH_MAX < f 176 16 then 4
  else 0

/-- VENDOR, PRODUCT and SERIAL of a record. -/
def capsIdentity (r : BitVec 512) : Nat := bitsOf r 16 32 + bitsOf r 64 32 * 2 ^ 32

/-- The first CAPS of E (R369, R372, R373): E becomes current, the record is kept and answered. -/
def firstCaps (s : State) (p e : Nat) (r : BitVec 512) : State :=
  let q := pgClnk + p
  let s := setCurrent s p (some e)
  let s := eachIn (List.range 16) (fun s i => s.setReg q (F.LNK_CAPS.off + 4 * i) (BitVec.ofNat 32 (bitsOf r (32 * i) 32))) s
  let s := ((s.setReg q F.LNK_MBX_BKT_LEVEL.off 0))
  let why := capsReason s p r
  let x := portGet s p
  let s := match x.identity with
    | some old => if old ≠ capsIdentity r then pageIrq s q 8 else s
    | none => s
  let s := portSet s p { portGet s p with caps := some r, reject := why, leakAt := none,
                                          chans := x.chans.mapVal fun _ y => { sid := y.sid },
                                          identity := if why = 0 then some (capsIdentity r) else x.identity }
  let s := eachIn (List.range 8) (fun s c => mbxShow s p c) s
  let s := linkStat s p F.LNK_STAT_REASON why
  let s := if why ≠ 0 then capture s q 0x0B02 0 why else s
  queueConfirm s p true

/-- CAPS (R371 to R373, R392). -/
def execCaps (port epoch : Nat) (record : BitVec 512) (s : State) : Host.Outcome State Fault Refusal :=
  let x := portGet s port
  let st := linkState s port
  nxt <| if ¬ portHears s port then s
  else if st = lkEnum ∧ x.enumE = some epoch then
    let s := linkCount s port 0
    match x.caps with
    | none => firstCaps s port epoch record
    | some r => if r = record then queueConfirm s port false else startEnum (endEpoch s port eeEnumFail) port
  else if epochOk x epoch then linkCount (linkCount s port 0) port 7
  else rxFail s port 5

/-- A slot-table entry fits the limb (R377). -/
def slotFits (r : BitVec 512) (e : BitVec 128) : Bool :=
  let up := bitsOf r 112 16
  if seTx e then bitsOf r 128 16 == 16 * seBufCount e
  else decide (448 + (bitsOf r 144 16 * 4 + 4) / 5 + 32 * (up + 14) + 96 ≤ seClose e - seStart e) && up == seUpLen e
    && (seClass e == 0 || seClass e == bitsOf r 96 8)

/-- Check the fit of every entry of a port in UP (R378). -/
def fitCheck (s : State) (p : Nat) : State :=
  let l := portSlots s p
  let r := (portGet s p).caps.getD 0
  if l = [] then linkStat s p F.LNK_STAT_CYC cycNone
  else match l.find? fun e => !slotFits r e.2 with
    | none => linkStat s p F.LNK_STAT_CYC cycActive
    | some e => capture (linkStat s p F.LNK_STAT_CYC cycMismatch) (pgClnk + p) 0x0B03 0 e.1

/-- A limb returns after a firmware update (R421 step 8): the updates that wait for its vendor and product end. -/
def fwReturned (s : State) (p : Nat) : State :=
  let x := portGet s p
  let r := x.caps.getD 0
  let e := x.current.getD 0
  let mine := fun (f : FwReboot) => f.vendor == bitsOf r 16 16 && f.product == bitsOf r 32 16
  let s := eachIn (x.reboots.filter mine) (fun s f =>
    jobDone s f.job (if bitsOf r 48 16 = f.revision then stOk else stFwNotRunning) e) s
  portMod s p fun x => { x with reboots := x.reboots.filter fun f => !mine f }

/-- READY (R373, R378, R392). -/
def execReady (port epoch : Nat) (s : State) : Host.Outcome State Fault Refusal :=
  let x := portGet s port
  nxt <| if ¬ portHears s port then s
  else if ¬ epochOk x epoch then rxFail s port 5
  else
    let s := linkCount s port 0
    if linkState s port ≠ lkEnum then linkCount s port 7
    else
      let s := linkCount s port 11
      let s := linkEnter s port (if x.reject = 0 then lkUp else lkMbxOnly)
      let s := portMod s port fun x => { x with misses := [], fresh := [], wins := x.wins.map fun w => { w with epoch := none } }
      let s := if x.reject = 0 then fitCheck s port else s
      fwReturned (pageIrq s (pgClnk + port) 1) port

/-! ### Slots -/

/-- RUN_EN as it was at a tick (R376) (DEDUCED, assumption 99). -/
def runAt (s : State) (p tick : Nat) : Bool :=
  match (portGet s p).runLog.reverse.find? fun e => decide (tick < e.1) with
  | some e => e.2
  | none => s.fbit (pgClnk + p) F.LNK_CTRL_RUN_EN

/-- The payload of CYC_DOWN: the output stages of the entry's buffers (R376). -/
def txPayload (s : State) (p : Nat) (e : BitVec 128) : List Byte :=
  (List.range (2 * seBufCount e)).flatMap fun k =>
    leBytes 8 (relGet s (64 + 32 * p + 2 * seBufFirst e + k)).output.val.toNat

/-- What replaces a slot frame (R378, R383, R384, R386): the cause of its HALT. -/
def slotHalt (s : State) (p tick : Nat) : Option Nat :=
  let x := portGet s p
  let st := linkState s p
  let late : Bool := match x.haltOff with
    | some t => decide (tick ≤ t + 128)
    | none => false
  if halting x then some (standingCause x)
  else if late then some haltLoupe
  else if st = lkMbxOnly then some haltMismatch
  else if st ≠ lkUp then some haltLink
  else if s.fget (pgClnk + p) F.LNK_STAT_CYC = cycMismatch then some haltMismatch
  else none

/-- The slot frame of an entry leaves at its tick (R376, R377, R384), and the CHAN that a window's SYNC or HALT carried. A slot tick that
falls while a HALT is being sent is skipped (R385); in electrical idle nothing is sent. -/
def slotFrame (s : State) (p entry tick : Nat) (e : BitVec 128) : Option Nat × State :=
  let s := haltFill s p tick
  let x := portGet s p
  let busy : Bool := match x.sending with
    | some f => decide (tick < f.ended)
    | none => false
  if ¬ x.tx ∨ busy then (none, s)
  else
    let run := runAt s p (tick - 128)
    let f : LinkFrame := { typ := if seTx e then 2 else 1, flags := b2n run, chan := entry, epoch := x.current.getD 0,
                           cycle := slotBpn s tick, data := if seTx e then txPayload s p e else [] }
    match slotHalt s p tick with
    | none => (some entry, linkSend (portMod s p fun x => { x with haltCause := 0, haltCount := 0 }) p f tick)
    | some c =>
      let sync := (c == haltLoupe || c == haltDead) && !seTx e && linkState s p == lkUp
        && s.fget (pgClnk + p) F.LNK_STAT_CYC == cycActive
      (if sync then some c else none, sendHalt s p c sync tick)

/-- The entry of a port's table, where a slot frame of it is due at a tick. -/
def dueEntry (s : State) (p entry tick : Nat) (tx : Bool) : Option (BitVec 128) :=
  if portBuilt s p ∧ slotEngine s then
    match (portSlots s p).find? fun x => x.1 = entry with
    | some x => if seTx x.2 = tx ∧ slotDue s x.2 tick then some x.2 else none
    | none => none
  else none

/-- TX_SLOT_START (R376). -/
def execTxSlotStart (port entry tick : Nat) (s : State) : Host.Outcome State Fault Refusal :=
  nxt <| match dueEntry s port entry tick true with
    | none => s
    | some e => (slotFrame (s.reach tick) port entry tick e).2

/-- RX_SLOT_OPEN (R377): the SYNC goes out and the window opens. -/
def execRxSlotOpen (port entry tick : Nat) (s : State) : Host.Outcome State Fault Refusal :=
  nxt <| match dueEntry s port entry tick false with
    | none => s
    | some e =>
      let (ch, s) := slotFrame (s.reach tick) port entry tick e
      let t := copyTick s 69 tick
      portMod s port fun x => { x with wins := x.wins ++ [{
        entry := entry, bits := e, openAt := t, closeAt := t + (seClose e - seStart e : Nat), chan := ch, cycle := slotBpn s tick,
        epoch := if linkState s port = lkUp then x.current else none }] }

/-- A CYC_UP for a window (R379). -/
def cycUpWindow (s : State) (p : Nat) (w : RxWindow) (flags : Nat) (payload : List Byte) (at_ : Int) : State :=
  let put := fun (s : State) (v : RxWindow) => portMod s p fun x => { x with wins := x.wins.map fun y => if y = w then v else y }
  if payload.length ≠ bitsOf ((portGet s p).caps.getD 0) 112 16 then linkCount s p 3
  else if w.closeAt < at_ + 64 then
    if w.kept.isSome then put (linkCount s p 7) { w with dup := true } else put (linkCount s p 9) { w with late := true }
  else if w.kept.isSome then put (linkCount s p 7) { w with dup := true }
  else put s { w with kept := some (flags, payload) }

/-- CYC_UP (R365, R379). -/
def execCycUp (port epoch echo cycle flags : Nat) (payload : List Byte) (tick : Nat) (s : State) : Host.Outcome State Fault Refusal :=
  let s := s.reach tick
  let x := portGet s port
  let t := copyTick s 69 tick
  let opened := x.wins.filter fun w => decide (w.openAt ≤ t) && decide (t ≤ w.closeAt)
  nxt <| if ¬ portHears s port then s
  else if 256 < payload.length then rxFail s port 3
  else if ¬ epochOk x epoch then rxFail s port 5
  else
    let s := linkCount s port 0
    match opened.find? fun w => w.chan = some echo && w.cycle = cycle with
    | some w => cycUpWindow s port w flags payload t
    | none => if opened.isEmpty then linkCount s port 8 else linkCount s port 5

/-- The result of a window at CLOSE (R380, R389): 0 FRESH, 1 MISSED, 2 NO_LINK, 3 MISMATCH. -/
def windowResult (s : State) (p : Nat) (w : RxWindow) : Nat :=
  let x := portGet s p
  if linkState s p = lkUp ∧ w.epoch.isSome ∧ w.epoch = x.current then
    if s.fget (pgClnk + p) F.LNK_STAT_CYC = cycMismatch then 3 else if w.kept.isSome then 0 else 1
  else 2

/-- A datum for a tile: sixteen lanes of eight bytes. -/
def datumLanes (d : List Byte) : List Cont :=
  (List.range 16).map fun i => { val := BitVec.ofNat 64 (leNat ((d.drop (8 * i)).take 8)) }

/-- RX_SLOT_CLOSE (R380, R381): the receive status word, the data to the tiles, and CYC_LOST. -/
def windowClose (s : State) (p : Nat) (w : RxWindow) : State :=
  let x := portGet s p
  let q := pgClnk + p
  let res := windowResult s p w
  let miss := if res = 0 then 0 else satAdd (x.misses.get 0 w.entry) 1 255
  let (flags, fresh) := match w.kept with
    | some k => k
    | none => (0, [])
  let pay := if res = 0 then fresh else x.fresh.get [] w.entry
  let word := res + b2n w.dup * 2 ^ 3 + b2n w.late * 2 ^ 4 + b2n w.err * 2 ^ 5
    + (if res = 0 then flags % 2 * 2 ^ 6 + flags / 2 % 2 * 2 ^ 7 else 0)
    + miss * 2 ^ 8 + x.current.getD 0 * 2 ^ 16 + w.cycle * 2 ^ 32 + w.entry * 2 ^ 48
  let s := portSet s p { x with
    wins := x.wins.filter fun y => y ≠ w, misses := x.misses.set 0 w.entry miss,
    fresh := if res = 0 then x.fresh.set [] w.entry fresh else x.fresh }
  let s := s.setReg64 q (F.LNK_RXST.off + 8 * w.entry) (F.LNK_RXST.off + 8 * w.entry + 4) word
  let send := fun (s : State) (pos ch : Nat) (d : List Byte) =>
    { s with facet := { s.facet with mesh := s.facet.mesh ++ [{ pos := pos, chan := ch, lanes := datumLanes d }] } }
  let s := send s (seTile0 w.bits) (seCh0 w.bits) (leBytes 8 word ++ pay.take 120)
  let s := if seTwo w.bits then send s (seTile1 w.bits) (seCh1 w.bits) (pay.drop 120) else s
  let s := if res = 1 then linkCount s p 10 else s
  let limit := s.fget q F.LNK_MISS_LIMIT
  if linkState s p = lkUp ∧ s.fget q F.LNK_STAT_CYC = cycActive ∧ limit ≠ 0 ∧ limit ≤ miss ∧ res ≠ 0 then
    startEnum (endEpoch (pageIrq (capture s q 0x0B04 0 w.entry) q 16) p eeCycLost) p
  else s

/-- RX_SLOT_CLOSE. -/
def execRxSlotClose (port entry tick : Nat) (s : State) : Host.Outcome State Fault Refusal :=
  nxt <| match (portGet s port).wins.find? fun w => w.entry = entry && w.closeAt = copyTick s 69 tick with
    | none => s
    | some w => if slotEngine s then windowClose (s.reach tick) port w else s

/-- A plan epoch for CriskaLink (R378, R391): the new slot tables, and the fit of every port in UP. -/
def clnkEpoch (s : State) : State :=
  eachIn (List.range s.var.clnkPorts) (fun s p =>
    let tab := match s.time.plan with
      | none => []
      | some pl => pl.slotTables.getD p []
    let s := eachIn (List.range 64) (fun s i =>
      s.setReg (pgClnk + p) (F.LNK_SLOT.off + 4 * i) (BitVec.ofNat 32 (bitsOf (tab.getD (i / 4) 0) (32 * (i % 4)) 32))) s
    if linkState s p = lkUp then fitCheck s p else s) s

/-! ### HALT -/

/-- LOUPE_DEAD as the island sees it. -/
def loupeDead (s : State) : Bool := s.fbit pgTrip F.TRIP_STAT_DEAD

/-- HALT_REQUEST (R385): a request of the Loupe, or LOUPE_DEAD, reaches a port, which abandons its frame; the first /H/ leaves at the tick.
In OUT and in the idle hold the transmitter stays idle. -/
def haltRequest (s : State) (p tick : Nat) : State :=
  let x := portGet s p
  let wanted := portHaltWanted s p
  let dead := loupeDead s
  let first := dead && !s.fbit pgClnkG F.GLNK_HALT_DEAD
  let s := if first then pageIrq (s.fset pgClnkG F.GLNK_HALT_DEAD 1) pgClnkG 1 else s
  let began := !halting x
  let s := setHalts s p wanted dead
  let s := portMod s p fun x => { x with haltOff := none, haltCount := if began then 0 else x.haltCount,
                                         haltCause := if began then 0 else x.haltCause }
  if linkState s p = lkOut ∨ s.clnk.hold.isSome then s
  else if haltInProgress s p s.now then s
  else
    let s := abandonFrame s p s.now
    sendHalt (portMod (s.reach tick) p fun x => { x with tx := true }) p (if dead then haltDead else haltLoupe) false tick

/-- The bounds of R385 hold for the tick of the first /H/: 128 ticks when the transmitter is on, 928 when it is idle (DEDUCED, assumption 18). -/
def haltTickOk (s : State) (p tick : Nat) : Bool :=
  decide (s.now ≤ tick) && decide (tick ≤ s.now + if (portGet s p).tx then 128 else 928)

/-- HALT_REQUEST. During a chip reset the port owes its HALT no longer (R370). -/
def execHaltRequest (port tick : Nat) (s : State) : Host.Outcome State Fault Refusal :=
  let x := portGet s port
  nxt <| if ¬ portBuilt s port ∨ ¬ (islandsUp s ∨ s.clnk.resetting.isSome) ∨ ¬ (portHaltWanted s port ∨ loupeDead s) then s
  else if ¬ (¬ halting x ∨ ¬ x.tx ∨ (loupeDead s ∧ ¬ x.dead) ∨ port ∈ s.clnk.owing) then setHalts s port (portHaltWanted s port) (loupeDead s)
  else if ¬ haltTickOk s port tick ∧ linkState s port ≠ lkOut ∧ s.clnk.hold.isNone then s
  else
    let s := haltRequest s port tick
    { s with clnk := { s.clnk with owing := s.clnk.owing.filter fun q => q ≠ port } }

/-- HALT_WITHDRAW (R386, R390): no latch names the port any longer, and no LOUPE_DEAD stands. -/
def execHaltWithdraw (port : Nat) (s : State) : Host.Outcome State Fault Refusal :=
  let x := portGet s port
  nxt <| if ¬ portBuilt s port ∨ ¬ halting x ∨ portHaltWanted s port ∨ loupeDead s then
      (if loupeDead s then s else s.fset pgClnkG F.GLNK_HALT_DEAD 0)
  else
    let s := setHalts (s.fset pgClnkG F.GLNK_HALT_DEAD 0) port false false
    portMod s port fun x => { x with haltOff := some s.now, tx := txState (linkState s port) }

/-- The Loupe and LOUPE_DEAD as a port meets them after its island is reset. -/
def haltsAfterReset (s : State) (p : Nat) : State := setHalts s p (portHaltWanted s p) (loupeDead s)

/-- CLNK_ISLAND_RESET (R370 step 2): once the first HALT of every port has ended, at most 1 800 ticks after the reset began. Port state
and epoch counters are reset; a limb that is there is detected anew once the island has left reset (Table 19.4). -/
def execClnkIslandReset (s : State) : Host.Outcome State Fault Refusal :=
  nxt <| match s.clnk.resetting with
    | none => s
    | some t0 =>
      let ends := (List.range s.var.clnkPorts).map fun p => match (portGet s p).sending with
        | some f => if f.halt then f.ended else 0
        | none => 0
      let t := if s.clnk.owing = [] then min (ends.foldl max t0) (t0 + 1800) else t0 + 1800
      let s := s.reach t
      let pins := (List.range s.var.clnkPorts).map fun p => (p, (portGet s p).presN, (portGet s p).sent)
      let s := { s with clnk := { hold := some (s.now + 25600) } }
      eachIn pins (fun s x =>
        let s := portMod s x.1 fun y => { y with presN := x.2.1, sent := x.2.2 }
        let s := linkStat (linkEnter s x.1 lkDown) x.1 F.LNK_STAT_SYNC 0
        let s := haltsAfterReset s x.1
        if x.2.1 ∨ ¬ islandsUp s then s else toDetect s x.1) s

/-- CLNK_IDLE_HOLD_END (R370 step 3). A Loupe halt that stands turns a transmitter on under HALT_REQUEST. -/
def execClnkIdleHoldEnd (s : State) : Host.Outcome State Fault Refusal :=
  nxt <| match s.clnk.hold with
    | none => s
    | some t =>
      let s := s.reach t
      { s with clnk := { s.clnk with hold := none } }

/-! ### The mailbox engine sends (R427) -/

/-- An MBX frame with the header of Table 12.1; every one carries ACKN, SACK and WIN (R396, R404). -/
def mbxFrame (s : State) (p c kind sid : Nat) (first last probe : Bool) (seq : Nat) (data : List Byte) : LinkFrame :=
  let x := sessGet s p c
  let h := kind + b2n first * 2 ^ 4 + b2n last * 2 ^ 5 + b2n probe * 2 ^ 6 + sid * 2 ^ 8 + seq * 2 ^ 16 + x.rcvNxt * 2 ^ 32
    + x.sack * 2 ^ 48
  { typ := 4, chan := c, epoch := (portGet s p).current.getD 0, cycle := x.win, data := leBytes 8 h ++ data }

/-- The next channel of a tier in round robin (R427). -/
def tierPick (y : LinkPort) (tier : Nat) (cands : List Nat) : Option Nat :=
  (List.range 8).map (fun k => (y.turn.get 7 tier + 1 + k) % 8) |>.find? fun c => cands.contains c

/-- A fragment may be sent for the first time (R400). -/
def freshReady (y : LinkPort) (x : Session) : Bool :=
  (x.state = .opened || x.state = .draining) && decide (x.flight < x.frags.length) && decide (x.flight < sendWindow y x)

/-- What the mailbox engine presents next (R382, R427). -/
def nextFrame (s : State) (p : Nat) : Option (TxItem × LinkFrame × Nat) :=
  let y := portGet s p
  let st := linkState s p
  match y.enumFrame with
  | some f => some (.enum f, f, 0)
  | none =>
    if st ≠ lkUp ∧ st ≠ lkMbxOnly then none
    else
      let acks := (List.range 8).filter fun c => (sessGet s p c).ackDue || y.ctl.any fun f => f.chan = c
      let re := (List.range 8).filter fun c => (sessGet s p c).frags.any fun g => g.due
      let fresh := (List.range 8).filter fun c => freshReady y (sessGet s p c)
      match tierPick y 2 acks with
      | some c => match y.ctl.find? fun f => f.chan = c with
        | some f =>
          some (.ctl f, mbxFrame s p c f.kind f.sid false false f.probe 0 (match f.service with
            | some v => leBytes 8 v
            | none => []), 2)
        | none => some (.ack c, mbxFrame s p c kAck (sessGet s p c).sid false false false 0 [], 2)
      | none =>
        let frag := fun (c i : Nat) (new : Bool) (tier : Nat) =>
          let x := sessGet s p c
          match x.frags[i]? with
          | none => none
          | some g => some (TxItem.frag c i new, mbxFrame s p c kData x.sid g.first g.last false ((x.una + i) % 65536) g.data, tier)
        match tierPick y 3 re with
        | some c => frag c ((sessGet s p c).frags.findIdx fun g => g.due) false 3
        | none => match tierPick y 4 fresh with
          | some c => frag c (sessGet s p c).flight true 4
          | none => none

/-- A frame of a session carries its ACKN: nothing is unacknowledged (R405). -/
def ackSent (s : State) (p c : Nat) : State := sessMod s p c fun x => { x with ackDue := false, ackSince := none, unacked := 0 }

/-- What the sending of a frame does (R371, R403, R409, R416). -/
def frameSent (s : State) (p : Nat) (tick : Nat) : TxItem → State
  | .none => s
  | .enum _ => portMod s p fun y => { y with enumFrame := none, enumAt := if linkState s p = lkEnum then some tick else none }
  | .ack c => ackSent s p c
  | .ctl f =>
    let s := portMod s p fun y => { y with ctl := y.ctl.erase f }
    let s := if (sessGet s p f.chan).sid = f.sid then ackSent s p f.chan else s
    let s := if f.kind = kOpen ∨ f.kind = kClose then sessMod s p f.chan fun x => { x with tries := x.tries + 1, timerAt := some tick } else s
    match f.job with
    | some j => jobDone s j stOk 0
    | none => s
  | .frag c i new =>
    let s := ackSent s p c
    let s := if new then s else s.fincSat (pgClnk + p) (F.LNK_MBX_CNT_RETX.sh (16 * c)) 1
    sessMod s p c fun x => { x with
      flight := if new then x.flight + 1 else x.flight, order := x.order + 1,
      frags := x.frags.modify i fun g => { g with sends := g.sends + 1, order := x.order + 1, timer := some tick, due := false },
      fw := match x.fw, x.frags[i]? with
        | some f, some g => if g.last ∧ f.phase ≠ .chunks ∧ f.since.isNone then some { f with since := some tick } else some f
        | f, _ => f }

/-- MBX_FRAME_SEND (R382, R384, R427): the next frame goes out at a tick of the grid in a gap before the next slot frame. While a halt
stands a HALT precedes it. -/
def execMbxFrameSend (port tick : Nat) (s : State) : Host.Outcome State Fault Refusal :=
  nxt <| if portDead s port then s
  else
    let s := haltFill s port tick
    let y := portGet s port
    let last : Bool := match y.sending with
      | some f => f.halt
      | none => false
    match nextFrame s port with
    | none => s
    | some (item, f, tier) =>
      if ¬ y.tx ∨ tick < linkFree s port ∨ gridUp s tick ≠ tick ∨ tick < s.now ∨ (halting y ∧ ¬ last)
          ∨ ¬ fitsGap s port tick (linkTicks f) then s
      else
        let s := s.reach tick
        let s := linkSend s port f tick item
        let s := if 2 ≤ tier then portMod s port fun y => { y with turn := y.turn.set 7 tier f.chan } else s
        let s := frameSent s port tick item
        if f.typ = 4 then mbxShow s port f.chan else s

end Sys2Proof.Machine
end

