-- ==== Sys2Proof/Machine/Crypto.lean ====
section
/-! DEFINITION. SHA-256 and ECDSA over P-256 (R420, R421, R655), over natural numbers. The algorithms and the curve's constants are those of
FIPS 180-4 and FIPS 186 (PRESUMED, assumption 13): the spec names them. -/

namespace Sys2Proof.Machine

/-! ### SHA-256 -/

/-- Rotate a 32-bit number right. -/
def rotr32 (x n : Nat) : Nat := x / 2 ^ n + x % 2 ^ n * 2 ^ (32 - n)

/-- The first 64 primes' cube-root constants. -/
def shaK : List Nat :=
  [0x428a2f98, 0x71374491, 0xb5c0fbcf, 0xe9b5dba5, 0x3956c25b, 0x59f111f1, 0x923f82a4, 0xab1c5ed5,
   0xd807aa98, 0x12835b01, 0x243185be, 0x550c7dc3, 0x72be5d74, 0x80deb1fe, 0x9bdc06a7, 0xc19bf174,
   0xe49b69c1, 0xefbe4786, 0x0fc19dc6, 0x240ca1cc, 0x2de92c6f, 0x4a7484aa, 0x5cb0a9dc, 0x76f988da,
   0x983e5152, 0xa831c66d, 0xb00327c8, 0xbf597fc7, 0xc6e00bf3, 0xd5a79147, 0x06ca6351, 0x14292967] ++
  [0x27b70a85, 0x2e1b2138, 0x4d2c6dfc, 0x53380d13, 0x650a7354, 0x766a0abb, 0x81c2c92e, 0x92722c85,
   0xa2bfe8a1, 0xa81a664b, 0xc24b8b70, 0xc76c51a3, 0xd192e819, 0xd6990624, 0xf40e3585, 0x106aa070,
   0x19a4c116, 0x1e376c08, 0x2748774c, 0x34b0bcb5, 0x391c0cb3, 0x4ed8aa4a, 0x5b9cca4f, 0x682e6ff3,
   0x748f82ee, 0x78a5636f, 0x84c87814, 0x8cc70208, 0x90befffa, 0xa4506ceb, 0xbef9a3f7, 0xc67178f2]

/-- The initial hash value. -/
def shaInit : List Nat :=
  [0x6a09e667, 0xbb67ae85, 0x3c6ef372, 0xa54ff53a, 0x510e527f, 0x9b05688c, 0x1f83d9ab, 0x5be0cd19]

/-- Big-endian words of a block. -/
def beWords : Nat → List Byte → List Nat
  | 0, _ => []
  | n + 1, b => leNat (b.take 4).reverse :: beWords n (b.drop 4)

/-- The message schedule, the newest word first. -/
def shaSchedule : Nat → List Nat → List Nat
  | 0, w => w
  | n + 1, w =>
    let a := w.getD 14 0
    let b := w.getD 1 0
    let s0 := rotr32 a 7 ^^^ rotr32 a 18 ^^^ (a / 8)
    let s1 := rotr32 b 17 ^^^ rotr32 b 19 ^^^ (b / 1024)
    shaSchedule n ((w.getD 15 0 + s0 + w.getD 6 0 + s1) % 2 ^ 32 :: w)

/-- One round over the working variables. -/
def shaRound (v : List Nat) (kw : Nat) : List Nat :=
  let g := fun i => v.getD i 0
  let s1 := rotr32 (g 4) 6 ^^^ rotr32 (g 4) 11 ^^^ rotr32 (g 4) 25
  let ch := (g 4 &&& g 5) ^^^ ((0xFFFFFFFF - g 4) &&& g 6)
  let t1 := g 7 + s1 + ch + kw
  let s0 := rotr32 (g 0) 2 ^^^ rotr32 (g 0) 13 ^^^ rotr32 (g 0) 22
  let mj := (g 0 &&& g 1) ^^^ (g 0 &&& g 2) ^^^ (g 1 &&& g 2)
  [(t1 + s0 + mj) % 2 ^ 32, g 0, g 1, g 2, (g 3 + t1) % 2 ^ 32, g 4, g 5, g 6]

/-- One block. -/
def shaBlock (h : List Nat) (b : List Byte) : List Nat :=
  let w := (shaSchedule 48 (beWords 16 b).reverse).reverse
  let v := (List.zipWith (· + ·) shaK w).foldl shaRound h
  List.zipWith (fun x y => (x + y) % 2 ^ 32) h v

/-- Blocks of 64 bytes. -/
def shaBlocks : Nat → List Nat → List Byte → List Nat
  | 0, h, _ => h
  | n + 1, h, d => shaBlocks n (shaBlock h (d.take 64)) (d.drop 64)

/-- SHA-256, as 32 bytes in its output order. -/
def sha256 (d : List Byte) : List Byte :=
  let pad := (119 - d.length % 64) % 64
  let m := d ++ [0x80] ++ List.replicate pad 0 ++ (leBytes 8 (8 * d.length)).reverse
  (shaBlocks (m.length / 64) shaInit m).flatMap fun x => (leBytes 4 x).reverse

/-! ### P-256 -/

/-- The field prime, the group order, the coefficient b and the base point. -/
abbrev p256P : Nat := 0xffffffff00000001000000000000000000000000ffffffffffffffffffffffff
abbrev p256N : Nat := 0xffffffff00000000ffffffffffffffffbce6faada7179e84f3b9cac2fc632551
abbrev p256B : Nat := 0x5ac635d8aa3a93e7b3ebbd55769886bc651d06b0cc53b0f63bce3c3e27d2604b
abbrev p256Gx : Nat := 0x6b17d1f2e12c4247f8bce6e563a440f277037d812deb33a0f4a13945d898c296
abbrev p256Gy : Nat := 0x4fe342e2fe1a7f9b8ee7eb4a7c0f9e162bce33576b315ececbb6406837bf51f5

/-- Power modulo a number, over the bits of the exponent. -/
def modPow (m b : Nat) : Nat → Nat → Nat → Nat
  | 0, _, a => a
  | f + 1, e, a => modPow m (b * b % m) f (e / 2) (if e % 2 = 1 then a * b % m else a)

/-- Inverse modulo a prime. -/
def modInv (m x : Nat) : Nat := modPow m (x % m) 256 (m - 2) 1

/-- The point lies on the curve. -/
def p256On (x y : Nat) : Bool :=
  decide (x < p256P) && decide (y < p256P) && (y * y) % p256P == (x * x * x + (p256P - 3) * x + p256B) % p256P

/-- Add two points; none is the point at infinity. -/
def p256Add : Option (Nat × Nat) → Option (Nat × Nat) → Option (Nat × Nat)
  | none, q => q
  | p, none => p
  | some (x1, y1), some (x2, y2) =>
    if x1 = x2 ∧ (y1 + y2) % p256P = 0 then none
    else
      let l :=
        if x1 = x2 then (3 * x1 * x1 + p256P - 3) * modInv p256P (2 * y1) % p256P
        else (y2 + p256P - y1) * modInv p256P (x2 + p256P - x1) % p256P
      let x3 := (l * l + 2 * p256P - x1 - x2) % p256P
      some (x3, (l * (x1 + p256P - x3) + p256P - y1) % p256P)

/-- Multiply a point, over the bits of the factor. -/
def p256Mul : Nat → Nat → Option (Nat × Nat) → Option (Nat × Nat) → Option (Nat × Nat)
  | 0, _, _, a => a
  | f + 1, k, q, a => p256Mul f (k / 2) (p256Add q q) (if k % 2 = 1 then p256Add a q else a)

/-- ECDSA over P-256: the hash as a number, the signature and the public key. -/
def ecdsaVerify (hash r s x y : Nat) : Bool :=
  if r = 0 ∨ p256N ≤ r ∨ s = 0 ∨ p256N ≤ s ∨ ¬ p256On x y then false
  else
    let w := modInv p256N s
    let u1 := hash % p256N * w % p256N
    let u2 := r * w % p256N
    match p256Add (p256Mul 256 u1 (some (p256Gx, p256Gy)) none) (p256Mul 256 u2 (some (x, y)) none) with
    | none => false
    | some (vx, _) => vx % p256N == r

end Sys2Proof.Machine
end

