-- ==== Sys2Proof/Machine/ChipReset.lean ====
section
/-! DEFINITION. The chip reset (R94), as every cause of it shares it, and the loss of the core rails. -/

namespace Sys2Proof.Machine

/-- Pages of the islands that a chip reset leaves alone: PMU, TKU and LOUPE. -/
def keptPage (p : Nat) : Bool := p == pgPmu || p == pgTku || p == pgLoupe

/-- A pair after the reset of its island: at its trip state while the Loupe holds it, else both outputs off (R94, R320). -/
def pairAfterReset (s : State) (n : Nat) : State :=
  let p := pgPwm + n
  let s := s.fset p F.PWM_TS_STATE (tripState s n)
  let h := holdsDue s n
  if h = 0 then pairIdle s n
  else (tripPads (s.fset p F.PWM_STAT_HOLD h) n).fset p F.PWM_STAT_STATE pwmTripped

/-- The earliest armed PMU timer: its value. -/
def timerNext (s : State) : Option Nat :=
  (List.range 4).foldl (fun best n =>
    let v := s.reg64 pgPmu (F.PMU_TMR_LO.off + 8 * n) (F.PMU_TMR_HI.off + 8 * n)
    if v = 0 then best else match best with
      | none => some v
      | some b => some (min b v)) none

/-- The device has power and its Plan reference: chip resets reach it (R614, R96, R570). -/
def powered (s : State) : Bool := s.boot.corePg && s.time.running && !s.power.off

/-- What the PMU forgets at a chip reset (R577): MAX_STATE and the schedule; a resume commit that runs takes no effect (R569, R582). Its
status is open (assumption 1). -/
def pmuReset (s : State) : State :=
  let s := if s.power.resuming then
      let (st, s) := s.free
      capture s pgPmu 0x1100 0 (3 + st % 2 ^ 16 * 2 ^ 16)
    else s
  let s := { s with power := { s.power with entering := none, wakeAt := none, exiting := false, fromPs2 := false, resuming := false } }
  let s := (s.fset pgPmu F.PMU_CTRL_MAX_STATE 0).fset pgPmu F.PMU_STAT_STATE 0
  let t := timerNext s
  (s.setReg64 pgPmu F.PMU_NEXT_LO.off F.PMU_NEXT_HI.off (t.getD 0)).fset pgPmu F.PMU_NEXT_SRC_SRC (if t.isSome then 2 else 0)

/-- Every island except LOUPE, TKU and PMU is reset (R94). The grid of base periods runs on; the flash keeps its contents and a flash command
in progress is waited for (R554); each CriskaLink port that transmits owes its HALT (R370). -/
def coreReset (s : State) : State :=
  let keep := s.reg pgRst F.RST_KEEP_VALUE.off
  let owing := (List.range s.var.clnkPorts).filter fun p => (portGet s p).tx
  let s := { s with
    regs := s.regs.filter fun k => keptPage (k.1 / 4096)
    time := { ptb := s.time.ptb, running := s.time.running, origin := s.time.origin, period := s.time.period, bpn := s.time.bpn,
              startTick := s.time.startTick, syncOut := s.time.syncOut }
    pages := s.pages.filter fun k => keptPage k.1
    qe := {}
    part := {}
    host := { s.host with held := [], bme := [], linkUp := false, crs := true }
    loop := {}
    pwm := {}
    mem := {}
    facet := {}
    solver := {}
    clnk := { s.clnk with resetting := some s.now, owing := owing, hold := none }
    serve := { refillAt := (s.now / 800000000 + 1) * 800000000 }
    rtu := { flash := s.rtu.flash, cmd := s.rtu.cmd }
    boot := { s.boot with copy := none } }
  let s := s.setReg pgRst F.RST_KEEP_VALUE.off keep
  let s := pmuReset s
  eachIn (List.range s.var.pwmPairs) pairAfterReset s

/-- A chip reset (R94): LOUPE raises a safe stop of the whole robot, the islands are reset, and the boot stages run from 0x01
(DEDUCED, assumption 120). -/
def chipReset (s : State) (cause : Nat) : State :=
  let count := s.fget pgRst F.RST_COUNT_COUNT
  let s := coreReset (wdtWait (wholeStop s 18))
  let s := { s with boot := { s.boot with powerOn := false } }
  let s := (s.fset pgRst F.RST_CAUSE_CAUSE cause).fset pgRst F.RST_COUNT_COUNT (satAdd count 1 0xFFFF)
  s.fset pgChip F.CHIP_BOOT_STAGE 1

end Sys2Proof.Machine
end

