-- ==== Sys2Proof/Machine/FacetOps.lean ====
section
/-! DEFINITION. The commands of the Facet tiles (chapter 6, Tables 6.6, 6.9 and 7.5): one per slot operation, the program start, results,
mesh arrivals, the SSB drain and the diagnostic port. -/

namespace Sys2Proof.Machine

/-! ### Sources -/

/-- A sign-extended 24-bit immediate. -/
def imm24 (w : DWord) : DWord := BitVec.ofInt 64 (toSigned 24 (bitsOf w 0 24))

/-- The B operand of a scalar operation (SA.BSRC). -/
def saB (c : Ctx) : Cont :=
  match bitsOf c.w 31 2 with
  | 0 => c.x.regs.sGet (bitsOf c.w 33 6)
  | 1 => { val := imm24 c.w }
  | _ => { val := c.imx }

/-- The A operand of a scalar operation. -/
def saA (c : Ctx) : Cont := c.x.regs.sGet (bitsOf c.w 39 6)

/-- A result to the S register D under lane 0 of the guard (R177, R182). -/
def saWrite (c : Ctx) (lat : Nat) (r : Cont) : SlotFx :=
  { lat := lat, writes := guarded (c.guard 0) (.s (bitsOf c.w 45 6)) r }

/-- A scalar operation on A and B; a poisoned source poisons the result (R178). -/
def scalar2 (f : DWord → DWord → DWord) (lat : Nat) (c : Ctx) : SlotFx :=
  saWrite c lat (cont (f (saA c).val (saB c).val) ((saA c).poison || (saB c).poison))

/-- A scalar operation on A. -/
def scalar1 (f : DWord → DWord) (lat : Nat) (c : Ctx) : SlotFx := saWrite c lat (cont (f (saA c).val) (saA c).poison)

/-- An FX45 operation on containers. -/
def fx2 (f : Nat → Nat → Nat) (a b : DWord) : DWord := BitVec.ofNat 64 (f a.toNat b.toNat)
def fx1 (f : Nat → Nat) (a : DWord) : DWord := BitVec.ofNat 64 (f a.toNat)

/-- The B operand of a compare, by lane. -/
def predB (c : Ctx) (vec : Bool) (lane : Nat) : Cont :=
  match bitsOf c.w 32 2 with
  | 0 => if vec then c.x.regs.vGet (bitsOf c.w 34 6) lane else c.x.regs.sGet (bitsOf c.w 34 6)
  | 1 => { val := imm24 c.w }
  | _ => { val := c.imx }

/-- A write of one lane of the destination predicate. -/
def predLane (c : Ctx) (g : Guard) (lane : Nat) (b p : Bool) : List FxWrite :=
  guarded g (fun x => .q (bitsOf c.w 47 4) lane (x.val.getLsbD 0) x.poison) (cont (if b then 1 else 0) p)

/-- A compare into a predicate (Tables 6.5 and 6.6): of scalars with the result copied to all lanes, or per lane. -/
def compare (f : DWord → DWord → Bool) (c : Ctx) : SlotFx :=
  let vec := bitAt c.w 46
  { writes := (List.range 16).flatMap fun n =>
      let a := if vec then c.x.regs.vGet (bitsOf c.w 40 6) n else c.x.regs.sGet (bitsOf c.w 40 6)
      let b := predB c vec n
      predLane c (c.guard (if vec then n else 0)) n (f a.val b.val) (a.poison || b.poison) }

/-- The Q operands of predicate logic. -/
def predQA (c : Ctx) : Pred := c.x.regs.qGet (bitsOf c.w 40 4)
def predQB (c : Ctx) : Pred :=
  match bitsOf c.w 32 2 with
  | 0 => c.x.regs.qGet (bitsOf c.w 34 4)
  | 1 => { bits := BitVec.ofNat 16 (bitsOf c.w 0 16) }
  | _ => { bits := BitVec.ofNat 16 c.imx.toNat }

/-- Lane-wise logic on predicates. -/
def predLogic (f : Bool → Bool → Bool) (c : Ctx) : SlotFx :=
  let a := predQA c
  let b := predQB c
  { writes := (List.range 16).flatMap fun n =>
      predLane c (c.guard n) n (f (a.bits.getLsbD n) (b.bits.getLsbD n)) (a.poison.getLsbD n || b.poison.getLsbD n) }

def predNot (c : Ctx) : SlotFx :=
  let a := predQA c
  { writes := (List.range 16).flatMap fun n => predLane c (c.guard n) n (!a.bits.getLsbD n) (a.poison.getLsbD n) }

def predSet (c : Ctx) : SlotFx :=
  { writes := (List.range 16).flatMap fun n => predLane c (c.guard n) n (bitAt c.w n) false }

/-! ### Control -/

/-- A control action under lane 0 of the guard; a poisoned guard halts the tile where `strict` (R206). -/
def controlFx (strict : Bool) (act : Ctx → Control) (c : Ctx) : SlotFx :=
  match c.guard 0 with
  | .pass => { control := some (act c) }
  | .fail => {}
  | .poisoned => if strict then { control := some .poisoned } else {}

/-! ### Loads and stores -/

/-- The address of a load or store (R179), and whether its base is poisoned. -/
def lsAddr (c : Ctx) : Nat × Bool :=
  let b := c.x.regs.sGet (bitsOf c.w 38 6)
  let off : DWord := if bitsOf c.w 18 2 = 2 then c.imx else BitVec.ofInt 64 (toSigned 18 (bitsOf c.w 20 18))
  ((b.val + off).toNat, b.poison)

/-- What a load sees of a word in the SSB (R197): level 2, level 1, then committed entries, the youngest first. -/
def ssbLook (x : Tile) (w : Nat) : Option Cont :=
  let at_ := fun (l : Option Nat) => (x.ssb.filter fun e => e.word == w && e.level == l).getLast?.map (·.val)
  match x.levels with
  | [l1, l2] => at_ (some l2.id) <|> at_ (some l1.id) <|> at_ none
  | [l1] => at_ (some l1.id) <|> at_ none
  | _ => at_ none

/-- A load of one word: the SSB before SRAM (R197); POISON_READ where SRAM delivers poison (R178, R514). -/
def loadWord (s : State) (i w : Nat) : Cont × State :=
  match ssbLook (tileGet s i) w with
  | some c => (c, s)
  | none => match tileRead s i w with
    | (some d, s) => ({ val := d }, s)
    | (none, s) => (cont 0 true, poisonRead s (pgFt + i) 0)

/-- Loads of consecutive words. -/
def loadWords (s : State) (i w : Nat) : Nat → List Cont × State
  | 0 => ([], s)
  | n + 1 =>
    let (cs, s) := loadWords s i w n
    let (c, s) := loadWord s i (w + n)
    (cs ++ [c], s)

/-- Some lane of the operation acts. -/
def anyLane (c : Ctx) (vec : Bool) : Bool :=
  if vec then (List.range 16).any fun n => decide (c.guard n ≠ .fail) else decide (c.guard 0 ≠ .fail)

/-- LD and LD.BC (R179, R184): `n` words, and their writes. A poisoned base reads nothing and poisons the result. -/
def load (n : Nat) (vec : Bool) (mk : Ctx → List Cont → List FxWrite) (s : State) (c : Ctx) : State × SlotFx :=
  let (a, p) := lsAddr c
  let fx := fun cs => { lat := 4, writes := mk c cs : SlotFx }
  if ¬ anyLane c vec then (s, {})
  else if p then (s, fx (List.replicate n (cont 0 true)))
  else if 0x40000 ≤ a then (addrRange s c.i a, fx (List.replicate n {}))
  else
    let (cs, s) := loadWords s c.i (a / (8 * n) * n) n
    (s, fx cs)

/-- The writes of LD: one container, or the 16 lanes of a V register. -/
def ldWrites (c : Ctx) (cs : List Cont) : List FxWrite :=
  let r := bitsOf c.w 45 6
  if bitAt c.w 44 then (List.range 16).flatMap fun n => guarded (c.guard n) (.v r n) (cs.getD n {})
  else guarded (c.guard 0) (.s r) (cs.getD 0 {})

/-- The writes of LD.BC. -/
def bcWrites (c : Ctx) (cs : List Cont) : List FxWrite :=
  (List.range 16).flatMap fun n => guarded (c.guard n) (.v (bitsOf c.w 45 6) n) (cs.getD 0 {})

def loadAny (s : State) (c : Ctx) : State × SlotFx :=
  if bitAt c.w 44 then load 16 true ldWrites s c else load 1 false ldWrites s c

/-- ST (R179): the words that pass their guards, or ADDR_RANGE. A poisoned base stores nothing. -/
def store (s : State) (c : Ctx) : State × SlotFx :=
  let (a, p) := lsAddr c
  let vec := bitAt c.w 44
  let r := bitsOf c.w 45 6
  let lanes := if vec then (List.range 16).filter fun n => decide (c.guard n = .pass) else if c.guard 0 = .pass then [0] else []
  let n := if vec then 16 else 1
  let first := a / (8 * n) * n
  if lanes = [] ∨ p then (s, {})
  else if a < 128 * tileTrays s c.i ∨ 0x41000 ≤ a then (addrRange s c.i a, {})
  else (s, { stores := lanes.map fun k =>
               { slot := c.slot, word := first + k, val := if vec then c.x.regs.vGet r k else c.x.regs.sGet r } })

/-! ### Mesh -/

/-- SEND leaves at the end of the Tray unless every lane of its guard suppresses it (R190). -/
def sendFx (c : Ctx) : SlotFx :=
  let vec := bitAt c.w 44
  let goes := if vec then (List.range 16).any fun n => decide (c.guard n = .pass) else decide (c.guard 0 = .pass)
  if goes then { send := some c.w } else {}

/-- RECV takes the datum that arrived before this cycle and leaves the channel empty (R190, R191). -/
def recvFx (s : State) (c : Ctx) : State × SlotFx :=
  let vec := bitAt c.w 44 || bitAt c.w 39
  let ch := bitsOf c.w 40 4
  if ¬ anyLane c vec then (s, {})
  else
    let x := tileGet s c.i
    match x.chans.find? ch with
    | some d =>
      if d.cycle < c.x.cycle then (tileSet s c.i { x with chans := x.chans.del ch }, { recv := some (c.w, some d) })
      else (s, { recv := some (c.w, none) })
    | none => (s, { recv := some (c.w, none) })

/-! ### Matrix, vector and special operations -/

/-- All 64 elements of an accumulator. -/
def each64 (f : Nat → Nat → FxWrite) : List FxWrite := (List.range 64).map fun k => f (k / 8) (k % 8)

/-- A write to an accumulator under lane 0 of the guard. -/
def accFx (c : Ctx) (lat : Nat) (f : Nat → Nat → Cont → FxWrite) (v : Nat → Nat → Cont) : SlotFx :=
  match c.guard 0 with
  | .pass => { lat := lat, writes := each64 fun i j => f i j (v i j) }
  | .fail => {}
  | .poisoned => { lat := lat, writes := each64 fun i j => f i j (cont 0 true) }

def mxZero (c : Ctx) : SlotFx := accFx c 1 (.acc (bitsOf c.w 48 3)) fun _ _ => {}

/-- The half of a vector register that HA or HB selects. -/
def half (b : Bool) (k : Nat) : Nat := if b then 8 + k else k

def mxOuter (c : Ctx) : SlotFx :=
  let n := mxPass c.w
  accFx c (3 + n) (.accAdd (bitsOf c.w 48 3)) fun i j =>
    let a := c.x.regs.vGet (bitsOf c.w 42 6) (half (bitAt c.w 41) i)
    let b := c.x.regs.vGet (bitsOf c.w 35 6) (half (bitAt c.w 34) j)
    cont (fx2 (fxMulPass n) a.val b.val) (a.poison || b.poison)

def mxRowout (c : Ctx) : SlotFx :=
  { lat := 3, writes := (List.range 8).flatMap fun j =>
      let lane := half (bitAt c.w 22) j
      guarded (c.guard lane) (.v (bitsOf c.w 23 6) lane) (c.x.regs.aGet (bitsOf c.w 48 3) (bitsOf c.w 29 3) j) }

def mxRowin (c : Ctx) : SlotFx :=
  { lat := 1, writes := (List.range 8).flatMap fun j =>
      guarded (c.guard 0) (.acc (bitsOf c.w 48 3) (bitsOf c.w 29 3) j)
        (c.x.regs.vGet (bitsOf c.w 42 6) (half (bitAt c.w 41) j)) }

/-- The lane operands of a vector operation. -/
def vaA (c : Ctx) (n : Nat) : Cont := c.x.regs.vGet (bitsOf c.w 39 6) n
def vaB (c : Ctx) (n : Nat) : Cont :=
  if bitAt c.w 24 then c.x.regs.sGet (bitsOf c.w 33 6) else c.x.regs.vGet (bitsOf c.w 33 6) n
def vaC (c : Ctx) (n : Nat) : Cont := c.x.regs.vGet (bitsOf c.w 27 6) n

/-- Write the lanes of D under their guards. -/
def vaWrite (c : Ctx) (lat : Nat) (f : Nat → Cont) : SlotFx :=
  { lat := lat, writes := (List.range 16).flatMap fun n => guarded (c.guard n) (.v (bitsOf c.w 45 6) n) (f n) }

def vector2 (f : DWord → DWord → DWord) (lat : Nat) (c : Ctx) : SlotFx :=
  vaWrite c lat fun n => cont (f (vaA c n).val (vaB c n).val) ((vaA c n).poison || (vaB c n).poison)

def vector1 (f : DWord → DWord) (lat : Nat) (c : Ctx) : SlotFx :=
  vaWrite c lat fun n => cont (f (vaA c n).val) (vaA c n).poison

def vector3 (f : Nat → Nat → Nat → Nat → Nat) (c : Ctx) : SlotFx :=
  vaWrite c (3 + vaPass c.w) fun n =>
    cont (BitVec.ofNat 64 (f (vaPass c.w) (vaA c n).val.toNat (vaB c n).val.toNat (vaC c n).val.toNat))
      ((vaA c n).poison || (vaB c n).poison || (vaC c n).poison)

def vfmulFx (c : Ctx) : SlotFx := vector2 (fx2 (fxMulPass (vaPass c.w))) (3 + vaPass c.w) c

/-- VRED.ADD (R178: the whole result is poisoned when any source is). -/
def vredFx (c : Ctx) : SlotFx :=
  let ls := (List.range 16).map (vaA c)
  let p := ls.any (·.poison)
  let sum := BitVec.ofNat 64 (fxReduce (ls.map fun l => l.val.toNat))
  vaWrite c 6 fun n => cont (if n = 0 then sum else 0) p

/-- A special function of A, scalar or of all lanes. -/
def special1 (f : Nat → Nat) (lat : Nat) (c : Ctx) : SlotFx :=
  let d := bitsOf c.w 45 6
  let a := bitsOf c.w 39 6
  if bitAt c.w 32 then
    { lat := lat, writes := (List.range 16).flatMap fun n =>
        let x := c.x.regs.vGet a n
        guarded (c.guard n) (.v d n) (cont (fx1 f x.val) x.poison) }
  else
    let x := c.x.regs.sGet a
    { lat := lat, writes := guarded (c.guard 0) (.s d) (cont (fx1 f x.val) x.poison) }

def special2 (f : Nat → Nat → Nat) (lat : Nat) (c : Ctx) : SlotFx :=
  let d := bitsOf c.w 45 6
  let a := bitsOf c.w 39 6
  let b := bitsOf c.w 33 6
  if bitAt c.w 32 then
    { lat := lat, writes := (List.range 16).flatMap fun n =>
        let x := c.x.regs.vGet a n
        let y := c.x.regs.vGet b n
        guarded (c.guard n) (.v d n) (cont (fx2 f x.val y.val) (x.poison || y.poison)) }
  else
    let x := c.x.regs.sGet a
    let y := c.x.regs.sGet b
    { lat := lat, writes := guarded (c.guard 0) (.s d) (cont (fx2 f x.val y.val) (x.poison || y.poison)) }

/-! ### The slot operations -/

/-- SLOT_NOP (R182): OP = 0 does nothing in any slot. -/
def execSlotNop (tile k : Nat) (s : State) : Host.Outcome State Fault Refusal :=
  nxt (runSlot s tile k (slotClass k) 0 (pureSlot fun _ => {}))

/-- BR taken after 5 delay Trays (R188). -/
def execBr (tile k : Nat) (s : State) : Host.Outcome State Fault Refusal :=
  nxt (runSlot s tile k .br 0x01 (pureSlot (controlFx true fun c => .br (brTarget c.w))))

/-- LOOP.SET (R188, R189). -/
def execLoopSet (tile k : Nat) (s : State) : Host.Outcome State Fault Refusal :=
  nxt (runSlot s tile k .br 0x02 (pureSlot (controlFx true fun c => .loopSet (brK c.w) (brTarget c.w) (brCount c.w))))

/-- WAIT.BP (Table 6.6). -/
def execWaitBp (tile k : Nat) (s : State) : Host.Outcome State Fault Refusal :=
  nxt (runSlot s tile k .br 0x03 (pureSlot (controlFx false fun c => .waitBp (brPhase c.w))))

/-- HALT (Table 6.6). -/
def execHalt (tile k : Nat) (s : State) : Host.Outcome State Fault Refusal :=
  nxt (runSlot s tile k .br 0x04 (pureSlot (controlFx false fun _ => .halt)))

/-- SPEC.BEGIN (Table 6.9). -/
def execSpecBegin (tile k : Nat) (s : State) : Host.Outcome State Fault Refusal :=
  nxt (runSlot s tile k .br 0x10 (pureSlot (controlFx true fun _ => .specBegin)))

/-- SPEC.COMMIT (Table 6.9, R198). -/
def execSpecCommit (tile k : Nat) (s : State) : Host.Outcome State Fault Refusal :=
  nxt (runSlot s tile k .br 0x11 (pureSlot (controlFx true fun c => .specCommit (brK c.w) (brTarget c.w))))

/-- SPEC.SQUASH (Table 6.9). -/
def execSpecSquash (tile k : Nat) (s : State) : Host.Outcome State Fault Refusal :=
  nxt (runSlot s tile k .br 0x12 (pureSlot (controlFx true fun c => .specSquash (brK c.w) (brTarget c.w))))

/-- CMP.EQ (R183). -/
def execCmpEq (tile k : Nat) (s : State) : Host.Outcome State Fault Refusal :=
  nxt (runSlot s tile k .pred 0x01 (pureSlot (compare fun a b => a == b)))

/-- CMP.NE (R183). -/
def execCmpNe (tile k : Nat) (s : State) : Host.Outcome State Fault Refusal :=
  nxt (runSlot s tile k .pred 0x02 (pureSlot (compare fun a b => a != b)))

/-- CMP.LT (R183). -/
def execCmpLt (tile k : Nat) (s : State) : Host.Outcome State Fault Refusal :=
  nxt (runSlot s tile k .pred 0x03 (pureSlot (compare fun a b => BitVec.slt a b)))

/-- CMP.LTU (R183). -/
def execCmpLtu (tile k : Nat) (s : State) : Host.Outcome State Fault Refusal :=
  nxt (runSlot s tile k .pred 0x04 (pureSlot (compare fun a b => BitVec.ult a b)))

/-- CMP.LE (R183). -/
def execCmpLe (tile k : Nat) (s : State) : Host.Outcome State Fault Refusal :=
  nxt (runSlot s tile k .pred 0x05 (pureSlot (compare fun a b => BitVec.sle a b)))

/-- FCMP.LT (R183). -/
def execFcmpLt (tile k : Nat) (s : State) : Host.Outcome State Fault Refusal :=
  nxt (runSlot s tile k .pred 0x06 (pureSlot (compare fun a b => fxLt a.toNat b.toNat)))

/-- FCMP.LE (R183). -/
def execFcmpLe (tile k : Nat) (s : State) : Host.Outcome State Fault Refusal :=
  nxt (runSlot s tile k .pred 0x07 (pureSlot (compare fun a b => fxLe a.toNat b.toNat)))

/-- FCMP.EQ (R183). -/
def execFcmpEq (tile k : Nat) (s : State) : Host.Outcome State Fault Refusal :=
  nxt (runSlot s tile k .pred 0x08 (pureSlot (compare fun a b => fxEq a.toNat b.toNat)))

/-- PAND (R183). -/
def execPand (tile k : Nat) (s : State) : Host.Outcome State Fault Refusal :=
  nxt (runSlot s tile k .pred 0x10 (pureSlot (predLogic fun a b => a && b)))

/-- POR (R183). -/
def execPor (tile k : Nat) (s : State) : Host.Outcome State Fault Refusal :=
  nxt (runSlot s tile k .pred 0x11 (pureSlot (predLogic fun a b => a || b)))

/-- PXOR (R183). -/
def execPxor (tile k : Nat) (s : State) : Host.Outcome State Fault Refusal :=
  nxt (runSlot s tile k .pred 0x12 (pureSlot (predLogic fun a b => a != b)))

/-- PNOT (R183). -/
def execPnot (tile k : Nat) (s : State) : Host.Outcome State Fault Refusal :=
  nxt (runSlot s tile k .pred 0x13 (pureSlot predNot))

/-- PSET (R183). -/
def execPset (tile k : Nat) (s : State) : Host.Outcome State Fault Refusal :=
  nxt (runSlot s tile k .pred 0x14 (pureSlot predSet))

/-- ADD (R183). -/
def execAdd (tile k : Nat) (s : State) : Host.Outcome State Fault Refusal :=
  nxt (runSlot s tile k .sa 0x01 (pureSlot (scalar2 (fun a b => a + b) 1)))

/-- SUB (R183). -/
def execSub (tile k : Nat) (s : State) : Host.Outcome State Fault Refusal :=
  nxt (runSlot s tile k .sa 0x02 (pureSlot (scalar2 (fun a b => a - b) 1)))

/-- AND (R183). -/
def execAnd (tile k : Nat) (s : State) : Host.Outcome State Fault Refusal :=
  nxt (runSlot s tile k .sa 0x03 (pureSlot (scalar2 (fun a b => a &&& b) 1)))

/-- OR (R183). -/
def execOr (tile k : Nat) (s : State) : Host.Outcome State Fault Refusal :=
  nxt (runSlot s tile k .sa 0x04 (pureSlot (scalar2 (fun a b => a ||| b) 1)))

/-- XOR (R183). -/
def execXor (tile k : Nat) (s : State) : Host.Outcome State Fault Refusal :=
  nxt (runSlot s tile k .sa 0x05 (pureSlot (scalar2 (fun a b => a ^^^ b) 1)))

/-- SHL (R183). -/
def execShl (tile k : Nat) (s : State) : Host.Outcome State Fault Refusal :=
  nxt (runSlot s tile k .sa 0x06 (pureSlot (scalar2 (fun a b => a <<< (b.toNat % 64)) 1)))

/-- SHR (R183). -/
def execShr (tile k : Nat) (s : State) : Host.Outcome State Fault Refusal :=
  nxt (runSlot s tile k .sa 0x07 (pureSlot (scalar2 (fun a b => a >>> (b.toNat % 64)) 1)))

/-- SAR (R183). -/
def execSar (tile k : Nat) (s : State) : Host.Outcome State Fault Refusal :=
  nxt (runSlot s tile k .sa 0x08 (pureSlot (scalar2 (fun a b => a.sshiftRight (b.toNat % 64)) 1)))

/-- MUL (R183). -/
def execMul (tile k : Nat) (s : State) : Host.Outcome State Fault Refusal :=
  nxt (runSlot s tile k .sa 0x09 (pureSlot (scalar2 (fun a b => a * b) 3)))

/-- MIN (R183). -/
def execMin (tile k : Nat) (s : State) : Host.Outcome State Fault Refusal :=
  nxt (runSlot s tile k .sa 0x0A (pureSlot (scalar2 (fun a b => if BitVec.slt a b then a else b) 1)))

/-- MAX (R183). -/
def execMax (tile k : Nat) (s : State) : Host.Outcome State Fault Refusal :=
  nxt (runSlot s tile k .sa 0x0B (pureSlot (scalar2 (fun a b => if BitVec.slt a b then b else a) 1)))

/-- MOV (R183). -/
def execMov (tile k : Nat) (s : State) : Host.Outcome State Fault Refusal :=
  nxt (runSlot s tile k .sa 0x0C (pureSlot (fun c => saWrite c 1 (saB c))))

/-- TICK.RD the aligned copy at issue. -/
def execTickRd (tile k : Nat) (s : State) : Host.Outcome State Fault Refusal :=
  nxt (runSlot s tile k .sa 0x0D (pureSlot (fun c => saWrite c 1 { val := BitVec.ofNat 64 (4 * c.x.cycle / 5) })))

/-- FADD (Table 7.5). -/
def execFadd (tile k : Nat) (s : State) : Host.Outcome State Fault Refusal :=
  nxt (runSlot s tile k .sa 0x20 (pureSlot (scalar2 (fx2 fxAdd) 3)))

/-- FSUB (Table 7.5). -/
def execFsub (tile k : Nat) (s : State) : Host.Outcome State Fault Refusal :=
  nxt (runSlot s tile k .sa 0x21 (pureSlot (scalar2 (fx2 fxSub) 3)))

/-- FMUL (Table 7.5). -/
def execFmul (tile k : Nat) (s : State) : Host.Outcome State Fault Refusal :=
  nxt (runSlot s tile k .sa 0x22 (pureSlot (scalar2 (fx2 (fxMulPass 3)) 4)))

/-- FCVT.I2F (Table 7.5). -/
def execFcvtI2f (tile k : Nat) (s : State) : Host.Outcome State Fault Refusal :=
  nxt (runSlot s tile k .sa 0x23 (pureSlot (scalar1 (fx1 fxOfInt) 3)))

/-- FCVT.F2I (Table 7.5). -/
def execFcvtF2i (tile k : Nat) (s : State) : Host.Outcome State Fault Refusal :=
  nxt (runSlot s tile k .sa 0x24 (pureSlot (scalar1 (fx1 fxToInt) 3)))

/-- LD (R179, R184). -/
def execLd (tile k : Nat) (s : State) : Host.Outcome State Fault Refusal :=
  nxt (runSlot s tile k .ls 0x01 loadAny)

/-- ST (R179). -/
def execSt (tile k : Nat) (s : State) : Host.Outcome State Fault Refusal :=
  nxt (runSlot s tile k .ls 0x02 store)

/-- LD.BC (Table 6.6). -/
def execLdBc (tile k : Nat) (s : State) : Host.Outcome State Fault Refusal :=
  nxt (runSlot s tile k .ls 0x03 (load 1 true bcWrites))

/-- SEND (R190, R200). -/
def execSend (tile k : Nat) (s : State) : Host.Outcome State Fault Refusal :=
  nxt (runSlot s tile k .msend 0x01 (pureSlot sendFx))

/-- RECV (R191, R200). -/
def execRecv (tile k : Nat) (s : State) : Host.Outcome State Fault Refusal :=
  nxt (runSlot s tile k .mrecv 0x01 recvFx)

/-- MX.ZERO (R183). -/
def execMxZero (tile k : Nat) (s : State) : Host.Outcome State Fault Refusal :=
  nxt (runSlot s tile k .mx 0x01 (pureSlot mxZero))

/-- MX.OUTER (Table 7.5). -/
def execMxOuter (tile k : Nat) (s : State) : Host.Outcome State Fault Refusal :=
  nxt (runSlot s tile k .mx 0x02 (pureSlot mxOuter))

/-- MX.ROWOUT (R183). -/
def execMxRowout (tile k : Nat) (s : State) : Host.Outcome State Fault Refusal :=
  nxt (runSlot s tile k .mx 0x03 (pureSlot mxRowout))

/-- MX.ROWIN (R183). -/
def execMxRowin (tile k : Nat) (s : State) : Host.Outcome State Fault Refusal :=
  nxt (runSlot s tile k .mx 0x04 (pureSlot mxRowin))

/-- VADD.I (R183). -/
def execVaddI (tile k : Nat) (s : State) : Host.Outcome State Fault Refusal :=
  nxt (runSlot s tile k .va 0x01 (pureSlot (vector2 (fun a b => a + b) 2)))

/-- VSUB.I (R183). -/
def execVsubI (tile k : Nat) (s : State) : Host.Outcome State Fault Refusal :=
  nxt (runSlot s tile k .va 0x02 (pureSlot (vector2 (fun a b => a - b) 2)))

/-- VAND (R183). -/
def execVand (tile k : Nat) (s : State) : Host.Outcome State Fault Refusal :=
  nxt (runSlot s tile k .va 0x03 (pureSlot (vector2 (fun a b => a &&& b) 2)))

/-- VOR (R183). -/
def execVor (tile k : Nat) (s : State) : Host.Outcome State Fault Refusal :=
  nxt (runSlot s tile k .va 0x04 (pureSlot (vector2 (fun a b => a ||| b) 2)))

/-- VXOR (R183). -/
def execVxor (tile k : Nat) (s : State) : Host.Outcome State Fault Refusal :=
  nxt (runSlot s tile k .va 0x05 (pureSlot (vector2 (fun a b => a ^^^ b) 2)))

/-- VFADD (Table 7.5). -/
def execVfadd (tile k : Nat) (s : State) : Host.Outcome State Fault Refusal :=
  nxt (runSlot s tile k .va 0x10 (pureSlot (vector2 (fx2 fxAdd) 3)))

/-- VFSUB (Table 7.5). -/
def execVfsub (tile k : Nat) (s : State) : Host.Outcome State Fault Refusal :=
  nxt (runSlot s tile k .va 0x11 (pureSlot (vector2 (fx2 fxSub) 3)))

/-- VFMUL (Table 7.5). -/
def execVfmul (tile k : Nat) (s : State) : Host.Outcome State Fault Refusal :=
  nxt (runSlot s tile k .va 0x12 (pureSlot vfmulFx))

/-- VFMA (Table 7.5). -/
def execVfma (tile k : Nat) (s : State) : Host.Outcome State Fault Refusal :=
  nxt (runSlot s tile k .va 0x13 (pureSlot (vector3 fxFma)))

/-- VFNMA (Table 7.5). -/
def execVfnma (tile k : Nat) (s : State) : Host.Outcome State Fault Refusal :=
  nxt (runSlot s tile k .va 0x14 (pureSlot (vector3 fxFnma)))

/-- VFMAX (Table 7.5). -/
def execVfmax (tile k : Nat) (s : State) : Host.Outcome State Fault Refusal :=
  nxt (runSlot s tile k .va 0x15 (pureSlot (vector2 (fx2 fxMax) 2)))

/-- VFMIN (Table 7.5). -/
def execVfmin (tile k : Nat) (s : State) : Host.Outcome State Fault Refusal :=
  nxt (runSlot s tile k .va 0x16 (pureSlot (vector2 (fx2 fxMin) 2)))

/-- VFABS (Table 7.5). -/
def execVfabs (tile k : Nat) (s : State) : Host.Outcome State Fault Refusal :=
  nxt (runSlot s tile k .va 0x17 (pureSlot (vector1 (fx1 fxAbs) 2)))

/-- VRED.ADD (Table 6.6). -/
def execVredAdd (tile k : Nat) (s : State) : Host.Outcome State Fault Refusal :=
  nxt (runSlot s tile k .va 0x21 (pureSlot vredFx))

/-- RCP (Table 7.5). -/
def execRcp (tile k : Nat) (s : State) : Host.Outcome State Fault Refusal :=
  nxt (runSlot s tile k .sf 0x01 (pureSlot (special1 fxRcp 6)))

/-- SQRT (Table 7.5). -/
def execSqrt (tile k : Nat) (s : State) : Host.Outcome State Fault Refusal :=
  nxt (runSlot s tile k .sf 0x02 (pureSlot (special1 fxSqrt 8)))

/-- RSQRT (Table 7.5). -/
def execRsqrt (tile k : Nat) (s : State) : Host.Outcome State Fault Refusal :=
  nxt (runSlot s tile k .sf 0x03 (pureSlot (special1 fxRsqrt 8)))

/-- DIVSTEP (Table 7.5). -/
def execDivstep (tile k : Nat) (s : State) : Host.Outcome State Fault Refusal :=
  nxt (runSlot s tile k .sf 0x04 (pureSlot (special2 fxDivstep 4)))

/-! ### Program starts, waits, arrivals, results and drains -/

/-- PROGRAM_START (R187): the sequencer starts a tile's program at the Tray that the plan gives, at a copy tick with the plan's phase. -/
def execProgramStart (tile tick : Nat) (s : State) : Host.Outcome State Fault Refusal :=
  nxt <| match tilePos s tile with
    | none => s
    | some p => match planTile s p with
      | none => s
      | some t =>
        let x := tileGet s tile
        if tile < s.var.facetTiles ∧ (s.time.copies.get {} tile).valid ∧ tick % 4 = 0 ∧ s.time.epochTick ≤ tick
            ∧ (tick - s.time.epochTick) % s.time.period = t.startTick ∧ t.startTray < tileTrays s tile
            ∧ s.fbit (pgFt + tile) F.PG_STAT_OUT_OF_SERVICE = false then
          let s := s.reach (cycleTick s tile (5 * tick / 4))
          tileSet s tile { x with running := true, halted := false, next := t.startTray, cycle := 5 * tick / 4, tray := {}, delay := 0,
                                  target := none, wait := none }
        else s

/-- WAIT_BP_RESUME (R183): the copy reaches the awaited phase and issue goes on in that cycle. -/
def execWaitBpResume (tile : Nat) (s : State) : Host.Outcome State Fault Refusal :=
  let x := tileGet s tile
  nxt <| match x.wait with
    | none => s
    | some t =>
      if x.running ∧ (s.time.copies.get {} tile).valid then
        tileSet (s.reach (cycleTick s tile (5 * t / 4))) tile { x with wait := none, cycle := 5 * t / 4 }
      else s

/-- MESH_DATUM_ARRIVE (R191): the n-th datum on its way arrives in its channel; an unread one is replaced. -/
def execMeshDatumArrive (n tick : Nat) (s : State) : Host.Outcome State Fault Refusal :=
  let s := s.reach tick
  nxt <| match s.facet.mesh[n]? with
    | none => s
    | some d =>
      let s := { s with facet := { s.facet with mesh := s.facet.mesh.eraseIdx n } }
      match posTile s d.pos with
      | none => s
      | some i =>
        let x := tileGet s i
        let s := tileSet s i { x with chans := x.chans.ins d.chan { lanes := d.lanes, spec := d.spec, cycle := tickCycle s i tick } }
        if (x.chans.find? d.chan).isSome then
          capture (s.fincSat (pgFt + i) F.FT_EVT_CNT_OVERRUN 1) (pgFt + i) 0x0603 0 d.chan
        else s

/-- RESULT_WRITEBACK (R185, R186, R196): the results due first reach their registers, when the tile's next cycle sees them or the tile
does not issue. -/
def execResultWriteback (tile : Nat) (s : State) : Host.Outcome State Fault Refusal :=
  let x := tileGet s tile
  nxt <| match x.results.foldl (fun (b : Option Nat) r => match b with
      | none => some r.due
      | some d => some (min d r.due)) none with
    | none => s
    | some d =>
      if d ≤ x.cycle ∨ ¬ x.running ∨ x.wait.isSome then
        let now := orderResults (x.results.filter fun r => r.due = d)
        let y := now.foldl landResult { x with results := x.results.filter fun r => r.due ≠ d }
        let s := s.fincSat (pgFt + tile) F.FT_EVT_CNT_CLASH (clashes [] now)
        tileSet s tile y
      else s

/-- SSB_DRAIN (R197, R199): up to 16 committed entries leave in the order in which they were written. -/
def execSsbDrain (tile : Nat) (s : State) : Host.Outcome State Fault Refusal :=
  let x := tileGet s tile
  let go := (x.ssb.filter (·.level.isNone)).take 16
  let s := tileSet s tile { x with ssb := (x.ssb.filter (·.level.isNone)).drop 16 ++ x.ssb.filter (·.level.isSome) }
  nxt (eachIn go (fun s e => storeOut s tile e.word e.val) s)

/-! ### The diagnostic port -/

/-- A diagnostic access is refused (R210). -/
def diagRefused (s : State) (tile : Nat) : Bool := s.fget (pgFt + tile) F.FT_ROLE_ROLE == 0 && s.time.plan.isSome

/-- A read of FT_DIAG_LO (R210, Table 6.13). A poisoned word reads as an open value. -/
def diagRead (s : State) (tile : Nat) : Word × State :=
  let p := pgFt + tile
  if diagRefused s tile then (0, capture s p 0x0608 0 0)
  else
    match tileRead s tile (s.fget p F.FT_DIAG_ADDR_WORD) with
    | (some d, s) => (BitVec.ofNat 32 d.toNat, s.setReg p F.FT_DIAG_HI_DATA.off (BitVec.ofNat 32 (d.toNat / 2 ^ 32)))
    | (none, s) =>
      let (f, s) := s.free
      (BitVec.ofNat 32 f, s.setReg p F.FT_DIAG_HI_DATA.off (BitVec.ofNat 32 (f / 2 ^ 32)))

/-- FT_DIAG_READ (R210). -/
def execFtDiagRead (part tile : Nat) (s : State) : Host.Outcome State Fault Refusal :=
  nxt (if tile < s.var.facetTiles then pageRead s part (pgFt + tile) fun s => diagRead s tile else s)

/-- A write of FT_DIAG_HI (R210): it writes the word in full. -/
def diagWrite (s : State) (tile : Nat) (data : Word) : State :=
  let p := pgFt + tile
  if diagRefused s tile then capture s p 0x0608 0 0
  else
    let s := s.setReg p F.FT_DIAG_HI_DATA.off data
    tileWrite s tile (s.fget p F.FT_DIAG_ADDR_WORD)
      (BitVec.ofNat 64 (s.fget p F.FT_DIAG_LO_DATA + data.toNat * 2 ^ 32)) false

/-- FT_DIAG_WRITE (R210). -/
def execFtDiagWrite (part tile : Nat) (data : Word) (s : State) : Host.Outcome State Fault Refusal :=
  nxt (if tile < s.var.facetTiles then pageWrite s part (pgFt + tile) fun s => diagWrite s tile data else s)

end Sys2Proof.Machine
end

