-- ==== Sys2Proof/Machine/MbxOps.lean ====
section
/-! DEFINITION. Mailbox frames from the limb, the mailbox timers, the mailbox jobs and the limb firmware update (chapter 12). -/

namespace Sys2Proof.Machine

/-! ### Frames -/

/-- Fields of the mailbox header (Table 12.1). -/
def mhByte (f : MbxFrame) (i : Nat) : Nat := (f.data.getD i 0).toNat
def mhKind (f : MbxFrame) : Nat := mhByte f 0 % 16
def mhFirst (f : MbxFrame) : Bool := natBit (mhByte f 0) 4
def mhLast (f : MbxFrame) : Bool := natBit (mhByte f 0) 5
def mhProbe (f : MbxFrame) : Bool := natBit (mhByte f 0) 6
def mhRsv (f : MbxFrame) : Bool := natBit (mhByte f 0) 7
def mhSid (f : MbxFrame) : Nat := mhByte f 1
def mhSeq (f : MbxFrame) : Nat := mhByte f 2 + 256 * mhByte f 3
def mhAckn (f : MbxFrame) : Nat := mhByte f 4 + 256 * mhByte f 5
def mhSack (f : MbxFrame) : Nat := mhByte f 6 + 256 * mhByte f 7
def mhWin (f : MbxFrame) : Nat := f.cycle % 32
def mhData (f : MbxFrame) : List Byte := f.data.drop 8

/-- A wasted frame (R412): it counts, and at 32 the epoch ends with cause PROTOCOL. -/
def wasted (s : State) (p k : Nat) : State :=
  let q := pgClnk + p
  let s := wasteCount s p k
  let lv := s.fget q F.LNK_MBX_BKT_LEVEL + 1
  let s := s.fset q F.LNK_MBX_BKT_LEVEL lv
  let s := if s.fget q F.LNK_MBX_BKT_PEAK < lv then s.fset q F.LNK_MBX_BKT_PEAK lv else s
  let s := portMod s p fun x => { x with leakAt := some (x.leakAt.getD s.now) }
  if lv = 32 then startEnum (endEpoch (capture s q 0x0C13 0 k) p eeProtocol) p else s

/-- A SID is issued in this epoch (R398). -/
def sidIssued (x : Session) (sid : Nat) : Bool := sid != 0 && (x.sidWrapped || decide (sid ≤ x.sidCount))

/-- The header is bad (Table 12.7). -/
def mhBad (f : MbxFrame) : Bool :=
  let k := mhKind f
  mhRsv f || k == 0 || decide (7 < k) || decide (16 < mhWin f) || f.cycle / 32 != 0 || (k != kData && mhSeq f != 0)

/-- The checks of Table 12.7 that do not depend on the kind alone, down to the old SID: what to do, or none to go on. -/
def mbxScreen (s : State) (p : Nat) (f : MbxFrame) : Option State :=
  let y := portGet s p
  let x := sessGet s p f.chan
  let abort := fun (s : State) => ctlPush s p { chan := f.chan, kind := kAbort, sid := mhSid f }
  if f.data.length < 8 then some (wasted s p wBadFrag)
  else if mhBad f then some (wasted s p wBadFrag)
  else if ¬ natBit (capsChannels y) f.chan ∨ 8 ≤ f.chan then some (wasted s p wBadChan)
  else if mhKind f = kOpen then some (wasted (abort s) p wOutOfTurn)
  else if ¬ sidIssued x (mhSid f) then some (wasted (abort s) p wOutOfTurn)
  else if x.state = .closed ∨ x.sid ≠ mhSid f then some (wasted s p wStaleSid)
  else none

/-- The kind is out of turn in the session's state (Table 12.7). -/
def outOfTurn (x : Session) (k : Nat) : Bool :=
  (k == kOpenAck && x.state != .opening && x.state != .opened) || (k == kCloseAck && x.state != .closing)
    || (k == kData && x.state == .opening) || (k == kClose && x.state == .opening)

/-- What every frame of the session does (R400, R401, R406): WL, an answer to probes, ACKN and SACK. -/
def frameTaken (s : State) (p : Nat) (f : MbxFrame) : State :=
  let s := sessMod s p f.chan fun x => { x with wl := mhWin f, probes := 0 }
  takeAck s p f.chan (mhAckn f) (mhSack f)

/-- An ACK goes out at once (R405). -/
def ackNow (s : State) (p c : Nat) : State := sessMod s p c fun x => { x with ackDue := true }

/-- DATA of the session (R404, R405, R407, Table 12.7). -/
def dataFrame (s : State) (p : Nat) (f : MbxFrame) : State :=
  let c := f.chan
  let x := sessGet s p c
  let n := (mhData f).length
  let seq := mhSeq f
  if (if mhLast f then 248 < n else n ≠ 248) then wasted s p wBadFrag
  else if ¬ seqPrecedes seq ((x.dlv + 16) % 65536) then wasted (ackNow s p c) p wOutOfWin
  else if seqPrecedes seq x.rcvNxt ∨ (x.rx.find? ((seq + 65536 - x.dlv) % 65536)).isSome then wasted (ackNow s p c) p wDup
  else
    let s := frameTaken s p f
    let inOrder := seq == x.rcvNxt
    sessMod s p c fun x =>
      let x := { x with rx := x.rx.ins ((seq + 65536 - x.dlv) % 65536) { first := mhFirst f, last := mhLast f, data := mhData f } }
      if inOrder then { x with unacked := x.unacked + 1, ackSince := some (x.ackSince.getD s.now),
                               ackDue := x.ackDue || decide (4 ≤ x.unacked + 1) }
      else { x with ackDue := true }

/-- OPEN_ACK in OPENING (Table 12.6). -/
def openAckFrame (s : State) (p : Nat) (f : MbxFrame) : State :=
  let c := f.chan
  let s := frameTaken s p f
  let x := sessGet s p c
  let res := mhByte f 8
  if res = 0 then
    let s := sessSet s p c { x with state := .opened, timerAt := none, opener := none }
    match x.opener, x.fw with
    | some j, _ =>
      jobDone s j stOk ((portGet s p).current.getD 0 + x.sid * 2 ^ 16 + sendWindow (portGet s p) (sessGet s p c) * 2 ^ 24)
    | none, some r => fwQueue s p c { r with phase := .begin } (leBytes 8 0x01 ++ r.header)
    | none, none => s
  else
    let s := match x.opener, x.fw with
      | some j, _ => jobDone s j stMbxRefused (res * 256)
      | none, some r => jobDone s r.job stMbxRefused (res * 256)
      | none, none => s
    sessClose (sessMod s p c fun x => { x with opener := none, fw := none }) p c stMbxRefused stMbxRefused

/-- A session closed by the limb (Table 12.6): CLOSE_ACK goes out. -/
def closeFrame (s : State) (p : Nat) (f : MbxFrame) : State :=
  let c := f.chan
  let x := sessGet s p c
  let s := sessClose (ctlDrop (frameTaken s p f) p c) p c stMbxPeerClosed stOk
  ctlPush s p { chan := c, kind := kCloseAck, sid := x.sid }

/-- A mailbox frame of the epoch by the first row of Table 12.7 that applies (R413) (DEDUCED, assumption 101). -/
def mbxFrameIn (s : State) (p : Nat) (f : MbxFrame) : State :=
  let s := linkCount s p 0
  match mbxScreen s p f with
  | some s => s
  | none =>
    let c := f.chan
    let x := sessGet s p c
    let k := mhKind f
    if outOfTurn x k then wasted s p wOutOfTurn
    else if k = kOpenAck ∧ x.state = .opened then wasted s p wDup
    else if acksUnsent x (mhAckn f) (mhSack f) then wasted s p wOutOfTurn
    else
      let s :=
        if k = kOpenAck then openAckFrame s p f
        else if k = kData then dataFrame s p f
        else if k = kAck then (if mhProbe f then ackNow (frameTaken s p f) p c else frameTaken s p f)
        else if k = kClose then closeFrame s p f
        else if k = kCloseAck then sessClose (frameTaken s p f) p c stCancelled stOk
        else sessClose (ctlDrop s p c) p c stMbxPeerAbort stMbxPeerAbort
      if (sessGet s p c).state = .closed then s else mbxSettle s p c

/-- A mailbox frame that a command brings: the port hears it, its epoch is current, and it is of the command's kind; one too short or of
no listed kind may come with any. -/
def mbxIn (s : State) (p : Nat) (f : MbxFrame) (ok : Bool) : State :=
  let listed := decide (8 ≤ f.data.length) && 1 ≤ mhKind f && mhKind f ≤ 7
  if ¬ portHears s p ∨ (listed ∧ ¬ ok) then s
  else if 256 < f.data.length then rxFail s p 3
  else if ¬ epochOk (portGet s p) f.epoch then rxFail s p 5
  else mbxFrameIn s p f

/-- MBX_OPEN_FRAME (R413): an OPEN from the limb. -/
def execMbxOpenFrame (port : Nat) (frame : MbxFrame) (s : State) : Host.Outcome State Fault Refusal :=
  nxt (mbxIn s port frame (mhKind frame = kOpen))

/-- OPEN_ACK (R409). -/
def execOpenAck (port : Nat) (frame : MbxFrame) (s : State) : Host.Outcome State Fault Refusal :=
  nxt (mbxIn s port frame (mhKind frame = kOpenAck))

/-- MBX_DATA (R404). -/
def execMbxData (port : Nat) (frame : MbxFrame) (s : State) : Host.Outcome State Fault Refusal :=
  nxt (mbxIn s port frame (mhKind frame = kData))

/-- MBX_ACK (R401). -/
def execMbxAck (port : Nat) (frame : MbxFrame) (s : State) : Host.Outcome State Fault Refusal :=
  nxt (mbxIn s port frame (mhKind frame = kAck))

/-- MBX_CLOSE_FRAME (R409, R426). -/
def execMbxCloseFrame (port : Nat) (frame : MbxFrame) (s : State) : Host.Outcome State Fault Refusal :=
  nxt (mbxIn s port frame (mhKind frame = kClose))

/-- CLOSE_ACK (R409). -/
def execCloseAck (port : Nat) (frame : MbxFrame) (s : State) : Host.Outcome State Fault Refusal :=
  nxt (mbxIn s port frame (mhKind frame = kCloseAck))

/-- MBX_ABORT_FRAME (R409, R425). -/
def execMbxAbortFrame (port : Nat) (frame : MbxFrame) (s : State) : Host.Outcome State Fault Refusal :=
  nxt (mbxIn s port frame (mhKind frame = kAbort))

/-- A DATA frame that carries a firmware-update reply of a type. -/
def fwFrame (f : MbxFrame) (typ : Nat) : Bool := mhKind f == kData && mhByte f 8 == typ

/-- BEGIN_R (R421, R422). -/
def execBeginR (port : Nat) (frame : MbxFrame) (s : State) : Host.Outcome State Fault Refusal :=
  nxt (if fwFrame frame 0x81 then mbxIn s port frame true else s)

/-- END_R (R421). -/
def execEndR (port : Nat) (frame : MbxFrame) (s : State) : Host.Outcome State Fault Refusal :=
  nxt (if fwFrame frame 0x83 then mbxIn s port frame true else s)

/-- ACTIVATE_R (R421). -/
def execActivateR (port : Nat) (frame : MbxFrame) (s : State) : Host.Outcome State Fault Refusal :=
  nxt (if fwFrame frame 0x84 then mbxIn s port frame true else s)

/-! ### Timers (Table 12.4), in ticks -/

/-- T_RTO(n). -/
def tRto (n : Nat) : Nat := 800000 * (if n ≤ 1 then 1 else if n = 2 then 2 else if n = 3 then 4 else 8)

/-- RTO_EXPIRY (R403): the fragment goes out again, and the sixth expiry aborts the session. -/
def execRtoExpiry (port mbx seq : Nat) (s : State) : Host.Outcome State Fault Refusal :=
  let x := sessGet s port mbx
  let i := (seq + 65536 - x.una) % 65536
  nxt <| match x.frags[i]? with
    | none => s
    | some g => match g.timer with
      | none => s
      | some t =>
        if x.state = .closed ∨ x.flight ≤ i then s
        else
          let s := s.reach (t + tRto g.sends)
          if 6 ≤ g.sends then deviceAbort s port mbx stMbxNoAnswer
          else sessMod s port mbx fun x => { x with frags := x.frags.modify i fun g => { g with timer := none, due := true } }

/-- ACK_TIMER_EXPIRY (R405). -/
def execAckTimerExpiry (port mbx : Nat) (s : State) : Host.Outcome State Fault Refusal :=
  let x := sessGet s port mbx
  nxt <| match x.ackSince with
    | none => s
    | some t => if x.state = .closed then s else ackNow (s.reach (t + 160000)) port mbx

/-- PROBE_TIMER_EXPIRY (R406): a probe goes out, and after the sixth unanswered one the session is aborted. -/
def execProbeTimerExpiry (port mbx : Nat) (s : State) : Host.Outcome State Fault Refusal :=
  let x := sessGet s port mbx
  nxt <| match x.probeAt with
    | none => s
    | some t =>
      if x.state = .closed then s
      else
        let s := s.reach (t + 8000000)
        if 6 ≤ x.probes then deviceAbort s port mbx stMbxNoAnswer
        else
          ctlPush (sessSet s port mbx { x with probes := x.probes + 1, probeAt := some s.now }) port
            { chan := mbx, kind := kAck, sid := x.sid, probe := true }

/-- OPEN_TIMER_EXPIRY (R409): OPEN goes out again, four times at most. -/
def execOpenTimerExpiry (port mbx : Nat) (s : State) : Host.Outcome State Fault Refusal :=
  let x := sessGet s port mbx
  nxt <| match x.timerAt with
    | none => s
    | some t =>
      if x.state ≠ .opening then s
      else
        let s := s.reach (t + 4000000)
        if x.tries < 4 then
          ctlPush (sessSet s port mbx { x with timerAt := none }) port { chan := mbx, kind := kOpen, sid := x.sid, service := some x.service }
        else sessClose s port mbx stMbxNoAnswer stMbxNoAnswer

/-- CLOSE_TIMER_EXPIRY (R409): CLOSE goes out again, three times at most; then the channel is CLOSED. -/
def execCloseTimerExpiry (port mbx : Nat) (s : State) : Host.Outcome State Fault Refusal :=
  let x := sessGet s port mbx
  nxt <| match x.timerAt with
    | none => s
    | some t =>
      if x.state ≠ .closing then s
      else
        let s := s.reach (t + 4000000)
        if x.tries < 3 then ctlPush (sessSet s port mbx { x with timerAt := none }) port { chan := mbx, kind := kClose, sid := x.sid }
        else sessClose s port mbx stCancelled stOk

/-- LEAK_TIMER_EXPIRY (R412). -/
def execLeakTimerExpiry (port : Nat) (s : State) : Host.Outcome State Fault Refusal :=
  nxt <| match (portGet s port).leakAt with
    | none => s
    | some t =>
      let s := s.reach (t + 800000)
      let lv := s.fget (pgClnk + port) F.LNK_MBX_BKT_LEVEL - 1
      let s := s.fset (pgClnk + port) F.LNK_MBX_BKT_LEVEL lv
      portMod s port fun x => { x with leakAt := if lv = 0 then none else some (t + 800000) }

/-! ### Jobs -/

/-- Fields of a mailbox job (Table 12.9). -/
def mjPort (x : Job) : Nat := payBits x 32 3
def mjChan (x : Job) : Nat := payBits x 36 3
def mjEpoch (x : Job) : Nat := payBits x 40 16
def mjSid (x : Job) : Nat := payBits x 56 8
def mjAddr (x : Job) : Nat := payBits x 64 64
def mjLength (x : Job) : Nat := payBits x 128 32
def mjTimeout (x : Job) : Nat := payBits x 160 16
def mjWindow (x : Job) : Nat := payBits x 176 5
def mjService (x : Job) : Nat := payBits x 192 16
def mjVendor (x : Job) : Nat := payBits x 208 16
def mjProduct (x : Job) : Nat := payBits x 224 16

/-- A partition holds a mailbox channel (PART_MBX). -/
def holdsChannel (s : State) (part p c : Nat) : Bool :=
  let b := 8 * p + c
  natBit (s.fget (pgPart + part) (if b < 32 then F.PART_MBX_LO_CH else F.PART_MBX_HI_CH)) (b % 32)

/-- The port and channel that a PART_GRANT or PART_REVOKE names (Table 5.3). -/
def mjChanOf (r : Job) : Nat × Nat := (payBits r 40 3, payBits r 44 3)

/-- A field lies outside Table 12.9 (DEDUCED, assumption 103). -/
def mjBad (x : Job) : Bool :=
  let open_ := x.opcode == 0x50
  let fw := x.opcode == 0x55
  let send := x.opcode == 0x51
  let recv := x.opcode == 0x52
  let sv := mjService x
  ((send || recv || fw) && mjAddr x % 8 != 0)
    || (send && 65536 < mjLength x)
    || (recv && (mjLength x < 1 || 65536 < mjLength x))
    || (fw && (mjLength x < 129 || 128 + 16 * 2 ^ 20 < mjLength x))
    || ((open_ || fw) && 16 < mjWindow x)
    || (open_ && !((1 ≤ sv && sv ≤ 4) || 0x8000 ≤ sv))

/-- The outcome of the checks of R415, in their order; none when the job starts. -/
def mjCheck (s : State) (x : Job) : Option Nat :=
  let p := mjPort x
  let c := mjChan x
  let y := portGet s p
  let z := sessGet s p c
  let opens := x.opcode = 0x50 ∨ x.opcode = 0x55
  let st := linkState s p
  let r := y.caps.getD 0
  if ¬ portBuilt s p then some stUnitAbsent
  else if mjBad x then some stBadEntry
  else if ¬ holdsChannel s x.part p c ∨ (revoking s x 1).any (fun r => mjChanOf r = (p, c)) then some stNotOwner
  else if st ≠ lkUp ∧ st ≠ lkMbxOnly then some stMbxNoLink
  else if y.current ≠ some (mjEpoch x) ∧ ¬ (opens ∧ mjEpoch x = 0) then some stMbxEpochEnd
  else if opens ∧ ((mjVendor x ≠ 0 ∧ mjVendor x ≠ bitsOf r 16 16) ∨ (mjProduct x ≠ 0 ∧ mjProduct x ≠ bitsOf r 32 16)) then
    some stMbxLimbMismatch
  else if opens ∧ ¬ natBit (capsChannels y) c then some stMbxNotServed
  else if opens ∧ z.state ≠ .closed then some stMbxBusy
  else if ¬ opens ∧ (z.state = .closed ∨ z.state = .opening ∨ z.sid ≠ mjSid x) then some stMbxNoSession
  else if ¬ opens ∧ x.opcode ≠ 0x53 ∧ (z.state = .draining ∨ z.state = .closing) then some stMbxNoSession
  else none

/-- A session is opened (R398, R409): the SID is drawn and OPEN goes out. -/
def sessOpen (s : State) (p c window service : Nat) (opener : Option Nat) (fw : Option FwRun) : State :=
  let x := sessGet s p c
  let n := if x.sidCount = 255 then 1 else x.sidCount + 1
  let y : Session := { state := .opening, sid := n, sidCount := n, sidWrapped := x.sidWrapped || x.sidCount == 255, service := service,
                       window := window, opener := opener, fw := fw }
  mbxShow (ctlPush (sessSet s p c y) p { chan := c, kind := kOpen, sid := n, service := some service }) p c

/-- MBX_OPEN (R415). -/
def execMbxOpen (job : Nat) (s : State) : Host.Outcome State Fault Refusal :=
  nxt <| match startedJob s job 0x50 with
    | none => s
    | some x =>
      if x.stage ≠ 0 then s
      else match mjCheck s x with
        | some st => jobDone s job st 0
        | none => sessOpen (jobSet s job { x with stage := 1 }) (mjPort x) (mjChan x) (mjWindow x) (mjService x) (some job) none

/-- A session whose job is `j`. -/
def inSession (s : State) (x : Job) (f : Session → Bool) : Bool := f (sessGet s (mjPort x) (mjChan x))

/-- The fragments of a job have begun to go out. -/
def sendBegun (z : Session) (x : Job) (j : Nat) : Bool := x.aux != 0 || (z.frags.take z.flight).any fun g => g.job == j

/-- A job that times out or is cancelled (R417, R418). -/
def mjEnd (s : State) (j : Nat) (x : Job) (status : Nat) : State :=
  let p := mjPort x
  let c := mjChan x
  let z := sessGet s p c
  if x.opcode = 0x52 then
    if z.holding = some j then jobDone (sessSet s p c { z with holding := none }) j status 0
    else if j ∈ z.recvs then jobDone (sessSet s p c { z with recvs := z.recvs.erase j }) j status 0
    else s
  else if x.opcode = 0x51 ∧ j ∈ z.sends then
    if sendBegun z x j then deviceAbort (jobDone (sessSet s p c { z with sends := z.sends.erase j }) j status x.aux) p c stMbxAborted
    else
      let s := sessSet s p c { z with sends := z.sends.erase j, fed := z.fed.erase j, ready := z.ready.del j,
                                      frags := z.frags.filter fun g => g.job ≠ j }
      mbxSettle (jobDone s j status 0) p c
  else s

/-- MBX_SEND (R399, R416). -/
def execMbxSend (job : Nat) (s : State) : Host.Outcome State Fault Refusal :=
  nxt <| match startedJob s job 0x51 with
    | none => s
    | some x =>
      let p := mjPort x
      let c := mjChan x
      if x.stage ≠ 0 ∧ x.cancel then mjEnd s job x stCancelled
      else match (if x.stage = 0 then mjCheck s x else none) with
        | some st => jobDone s job st 0
        | none =>
          let s := if x.stage = 0 then sessMod s p c fun z => { z with sends := z.sends ++ [job] } else s
          let take := fun (s : State) (d : List Byte) =>
            let z := sessGet s p c
            if job ∈ z.fed ∨ (z.ready.find? job).isSome then s
            else mbxSettle (sessSet s p c { z with ready := z.ready.ins job d }) p c
          if mjLength x = 0 then take (jobSet s job { x with stage := 1 }) []
          else
            let s := withHostData s job (mjAddr x) (mjLength x) (fun s _ _ => s) take
            if (jobGet s job).any fun y => y.phase = .done then
              mbxSettle (sessMod s p c fun z => { z with sends := z.sends.erase job }) p c
            else s

/-- MBX_RECV (R407, R416). -/
def execMbxRecv (job : Nat) (s : State) : Host.Outcome State Fault Refusal :=
  nxt <| match startedJob s job 0x52 with
    | none => s
    | some x =>
      if x.stage ≠ 0 then (if x.cancel then mjEnd s job x stCancelled else s)
      else match mjCheck s x with
        | some st => jobDone s job st 0
        | none =>
          let s := jobSet s job { x with stage := 1 }
          mbxSettle (sessMod s (mjPort x) (mjChan x) fun z => { z with recvs := z.recvs ++ [job] }) (mjPort x) (mjChan x)

/-- MBX_CLOSE (R409, R416): MBX_RECV jobs that hold no message end. -/
def execMbxClose (job : Nat) (s : State) : Host.Outcome State Fault Refusal :=
  nxt <| match startedJob s job 0x53 with
    | none => s
    | some x =>
      let p := mjPort x
      let c := mjChan x
      if x.stage ≠ 0 then s
      else match mjCheck s x with
        | some st => jobDone s job st 0
        | none =>
          let z := sessGet s p c
          let s := jobSet s job { x with stage := 1 }
          let s := eachIn z.recvs (fun s j => jobDone s j stCancelled 0) s
          mbxSettle (sessSet s p c { z with closers := z.closers ++ [job], recvs := [],
                                            state := if z.state = .opened then .draining else z.state }) p c

/-- MBX_ABORT (R411, R416): it completes when its ABORT has left. -/
def execMbxAbort (job : Nat) (s : State) : Host.Outcome State Fault Refusal :=
  nxt <| match startedJob s job 0x54 with
    | none => s
    | some x =>
      if x.stage ≠ 0 then s
      else match mjCheck s x with
        | some st => jobDone s job st 0
        | none => deviceAbort (jobSet s job { x with stage := 1 }) (mjPort x) (mjChan x) stMbxAborted (some job)

/-- MBX_JOB_TIMEOUT (R417). -/
def execMbxJobTimeout (job : Nat) (s : State) : Host.Outcome State Fault Refusal :=
  nxt <| match jobGet s job with
    | none => s
    | some x =>
      if x.phase = .started ∧ x.stage ≠ 0 ∧ (x.opcode = 0x51 ∨ x.opcode = 0x52) ∧ mjTimeout x ≠ 0 then
        mjEnd (s.reach (x.startTick + 800000 * mjTimeout x)) job x stMbxTimeout
      else s

/-! ### Firmware update -/

/-- The key a container names (Table 12.15), where it is a valid point. -/
def limbKey (s : State) (k : Nat) : Option (Nat × Nat) :=
  let word := fun i => (s.reg pgClnkG (F.GLNK_KEY.off + 64 * k + 4 * i)).toNat
  let num := fun (o : Nat) => (List.range 8).foldl (fun a i => a + word (o + i) * 2 ^ (32 * i)) 0
  let x := num 0
  let y := num 8
  if k < 8 ∧ (x ≠ 0 ∨ y ≠ 0) ∧ p256On x y then some (x, y) else none

/-- GLNK_KEY_STAT follows the key table. -/
def limbKeyStat (s : State) : State :=
  s.fset pgClnkG F.GLNK_KEY_STAT_VALID (((List.range 8).filter fun k => (limbKey s k).isSome).foldl (fun a k => a + 2 ^ k) 0)

/-- The header of a container is well formed (R420, R421 step 1). -/
def fwHeaderOk (d : List Byte) (length : Nat) : Bool :=
  let n := fun i w => leNat ((d.drop i).take w)
  n 0 4 == 0x57464C43 && n 4 2 == 1 && n 7 1 == 0 && n 14 2 == 0 && n 20 12 == 0
    && 1 ≤ fwBodyLen d && fwBodyLen d ≤ 16 * 2 ^ 20 && length == 128 + fwBodyLen d

/-- Steps 1 to 5 of R421: a status and a result where one fails (DEDUCED, assumption 102). -/
def fwVerify (s : State) (x : Job) (d : List Byte) : Option (Nat × Nat) :=
  let n := fun i w => leNat ((d.drop i).take w)
  let r := (portGet s (mjPort x)).caps.getD 0
  if ¬ fwHeaderOk d (mjLength x) then some (stBadEntry, 0)
  else match limbKey s (n 6 1) with
    | none => some (stFwKey, 0)
    | some (kx, ky) =>
      let hash := leNat (sha256 (d.take 64)).reverse
      if ¬ ecdsaVerify hash (n 64 32) (n 96 32) kx ky then some (stFwSigBad, 1)
      else if sha256 (d.drop 128) ≠ (d.drop 32).take 32 then some (stFwSigBad, 2)
      else if n 8 2 ≠ bitsOf r 16 16 ∨ n 10 2 ≠ bitsOf r 32 16 ∨ ¬ bitAt r 200 then some (stFwTarget, 0)
      else none

/-- CHUNK messages from an offset up (Table 12.11, R422). -/
def fwChunks (job : Nat) : Nat → Nat → List Byte → List TxFrag
  | 0, _, _ => []
  | f + 1, off, d =>
    if d.isEmpty then []
    else
      let b := d.take 4096
      let fr := fragments job none (leBytes 4 0x02 ++ leBytes 4 off ++ b)
      fr.modify (fr.length - 1) (fun g => { g with mark := some (off + b.length) }) ++ fwChunks job f (off + 4096) (d.drop 4096)

/-- The body has been read again: the chunks go out from HELD on (R422). -/
def fwSendBody (s : State) (p c : Nat) (f : FwRun) (body : List Byte) : State :=
  let good := sha256 body == (f.header.drop 32).take 32
  let fr := fwChunks f.job (body.length / 4096 + 1) f.held (body.drop f.held)
  mbxSettle (sessMod s p c fun z => { z with fw := some { f with phase := .chunks, good := good }, frags := z.frags ++ fr }) p c

/-- FW_UPDATE (R415, R420 to R423): checks, verification, and the second reading of the body. -/
def execFwUpdate (job : Nat) (s : State) : Host.Outcome State Fault Refusal :=
  nxt <| match startedJob s job 0x55 with
    | none => s
    | some x =>
      let p := mjPort x
      let c := mjChan x
      match (sessGet s p c).fw with
      | some f =>
        if f.job ≠ job then
          (if x.stage = 0 then match mjCheck s x with
            | some st => jobDone s job st 0
            | none => s
          else s)
        else if x.cancel then deviceAbort s p c stCancelled
        else if f.phase = .reread then
          let s := withHostData s job (mjAddr x + 128) (mjLength x - 128) (fun s _ _ => s) fun s d => fwSendBody s p c f d
          if (jobGet s job).any fun y => y.phase = .done ∧ (y.status = stPoison ∨ y.status = stMemHostErr) then
            deviceAbort (sessMod s p c fun z => { z with fw := none }) p c stMbxAborted
          else s
        else s
      | none =>
        if (portGet s p).reboots.any fun r => r.job = job then
          (if x.cancel then
            jobDone (portMod s p fun y => { y with reboots := y.reboots.filter fun r => r.job ≠ job }) job stCancelled 0
          else s)
        else if x.stage ≠ 0 ∧ x.cancel then jobDone s job stCancelled 0
        else match (if x.stage = 0 then mjCheck s x else none) with
          | some st => jobDone s job st 0
          | none => withHostData s job (mjAddr x) (mjLength x) (fun s _ _ => s) fun s d =>
            match fwVerify s x d with
            | some (st, r) => jobDone s job st r
            | none => match mjCheck s x with
              | some st => jobDone s job st 0
              | none => sessOpen s p c (mjWindow x) 0x0002 none (some { job := job, header := d.take 128 })

/-- FW_REPLY_TIMEOUT (R421 step 7). -/
def execFwReplyTimeout (job : Nat) (s : State) : Host.Outcome State Fault Refusal :=
  nxt <| match jobGet s job with
    | none => s
    | some x =>
      let p := mjPort x
      let c := mjChan x
      match (sessGet s p c).fw with
      | none => s
      | some f => match f.since with
        | none => s
        | some t =>
          if f.job ≠ job then s
          else fwFail (s.reach (t + 4000000000)) p c stMbxTimeout (match f.phase with
            | .begin => 0x81
            | .ending => 0x83
            | _ => 0x84)

/-- FW_REBOOT_TIMEOUT (R421 step 8). -/
def execFwRebootTimeout (job : Nat) (s : State) : Host.Outcome State Fault Refusal :=
  nxt <| match jobGet s job with
    | none => s
    | some x =>
      let p := mjPort x
      match (portGet s p).reboots.find? fun r => r.job = job with
      | none => s
      | some r =>
        jobDone (portMod (s.reach (r.since + 4000000000)) p fun y => { y with reboots := y.reboots.filter fun k => k.job ≠ job }) job
          stFwNotRunning 0

end Sys2Proof.Machine
end

