-- ==== Sys2Proof/Machine/LoopLaw.lean ====
section
/-! DEFINITION. One sample's arithmetic of a loop channel: scaling, source, limiter, laws and output stage (R290 to R298), and the test
signal (R307). -/

namespace Sys2Proof.Machine

/-- A sample in progress: the accumulator with ACC_SAT and OUT_SAT, the other flags of CH_FLAGS set so far, and the dynamic state. -/
structure Run where
  c : Acc := {}
  flags : Nat := 0
  d : LawSt := {}
  deriving DecidableEq, Repr

namespace Run

/-- Set a flag of CH_FLAGS. -/
def flag (r : Run) (i : Nat) (b : Bool) : Run := if b then { r with flags := natPutBit r.flags i true } else r

/-- Run primitives of Table 7.10 on the accumulator. -/
def on (r : Run) (f : Acc → Acc) : Run := { r with c := f r.c }

/-- OUT. -/
def out (r : Run) : Int × Run := let o := r.c.out; (o.1, { r with c := o.2 })
def qadd (r : Run) (x y : Int) : Int × Run := let o := r.c.qadd x y; (o.1, { r with c := o.2 })
def qsub (r : Run) (x y : Int) : Int × Run := let o := r.c.qsub x y; (o.1, { r with c := o.2 })
def sat (r : Run) (z : Int) : Int × Run := let o := r.c.sat z; (o.1, { r with c := o.2 })

/-- CLAMP with ICLAMP when it changes the value. -/
def iclamp (r : Run) (lo hi : Int) : Run :=
  let c := r.c.clamp lo hi
  ({ r with c := c }).flag 6 (c.a != r.c.a)

/-- Start an accumulation. -/
def start (r : Run) (a : Int) : Run := r.on fun c => { c with a := a }

/-- A chain of MACs, and of MSCs. -/
def macs (r : Run) (l : List (Int × Int)) : Run := r.on fun c => l.foldl (fun c p => c.mac p.1 p.2) c
def mscs (r : Run) (l : List (Int × Int)) : Run := r.on fun c => l.foldl (fun c p => c.msc p.1 p.2) c

/-- SHL where the shift is not 0. -/
def shl (r : Run) (k : Nat) : Run := if k = 0 then r else r.on fun c => c.shl k

/-- All flags of the sample, as CH_FLAGS numbers them. -/
def allFlags (r : Run) : Nat := r.flags ||| (b2n r.c.accSat + 2 * b2n r.c.outSat)

end Run

/-- A Q1.15 half of a register of a channel page. -/
def chQ (s : State) (p : Nat) (f : Fld) : Int := q15 (s.fget p f)

/-- The scaling of R290 with a selector's gain and shift. -/
def scaleIn (s : State) (p k : Nat) (r : Run) (v : Int) : Int × Run :=
  let sv := r.sat v
  ((sv.2.start 0).macs [(sv.1, chQ s p (F.CH_SCALE_GAIN.sh (4 * k)))] |>.shl (s.fget p ⟨F.CH_SCALE_SH_SH0.off, 4 * k, 4⟩)).out

/-- What a selector names (Table 9.11). -/
def selOf (s : State) (p k : Nat) : Nat := bitsOf (s.reg p F.CH_INPUTS.off) (6 * k) 6
def selIsAin (v : Nat) : Bool := v < 32
def selIsPin (v : Nat) : Bool := 32 ≤ v && v < 40

/-- The change of a pulse count since the channel's last sample, signed (R291). -/
def pinDelta (first : Bool) (last : Option Nat) (now : Nat) : Int :=
  match first, last with
  | false, some l => toSigned 32 (now + 2 ^ 32 - l)
  | _, _ => 0

/-- The five scaled inputs (R290, R291). -/
def scaleInputs (s : State) (p : Nat) (x : LoopChan) (sm : Sampling) : Nat → Run → List Int × Run
  | 0, r => ([], r)
  | n + 1, r =>
    let k := 4 - n
    let v := selOf s p k
    let (m, r) :=
      if selIsAin v then
        let code := sm.codes.getD k 0
        let r := r.flag 2 (code = 0 || code = 4095)
        scaleIn s p k r (16 * (code : Int) - 0x8000 - chQ s p (F.CH_SCALE_OFFSET.sh (4 * k)))
      else if selIsPin v then
        scaleIn s p k r (pinDelta x.first (x.pinLast.find? (v - 32)) (sm.counts.getD k 0))
      else (0, r)
    let rest := scaleInputs s p x sm n r
    (m :: rest.1, rest.2)

/-- The source value (R292, R293). `inner`: the channel is the route target of an outer channel; `outer` its OUTER register. -/
def sourceValue (s : State) (p : Nat) (x : LoopChan) (sm : Sampling) (inner : Bool) (outer : Int) (release : Nat) (m : List Int)
    (r : Run) : Int × Run :=
  if inner then (outer, r)
  else match s.fget p F.CH_CFG_SP_SRC with
    | 0 => (chQ s p F.CH_SP_SP, r)
    | 1 =>
      let v := fxToQ15 release
      let bad := v.2 || (fxVal release).isNan
      (v.1, { r with c := { r.c with outSat := r.c.outSat || bad } })
    | 2 => (m.getD 4 0, r)
    | _ =>
      let v := selOf s p 4
      if selIsPin v then
        let ref := match x.pinRef with
          | some (pin, c) => if pin = v - 32 then c else sm.counts.getD 4 0
          | none => sm.counts.getD 4 0
        scaleIn s p 4 r (toSigned 32 (sm.counts.getD 4 0 + 2 ^ 32 - ref))
      else (0, r)

/-- T of the limiter (R294). -/
def limTarget (s : State) (p : Nat) (src : Int) (r : Run) : Int × Run :=
  let t := min (max src (chQ s p F.CH_MAG_LO)) (chQ s p F.CH_MAG_HI)
  (t * 2 ^ 23, r.flag 4 (t != src))

/-- The distance covered while the rate falls from u to zero in steps of A (R294). -/
def brake (a u : Int) : Int := let n := u / a; n * u - a * n * (n + 1) / 2

def sgn (z : Int) : Int := if z < 0 then -1 else if z = 0 then 0 else 1

/-- The limiter's step w, with whether R limited it (R294) (DEDUCED, assumption 64). -/
def limStep (mode : Nat) (rr a d v : Int) : Int × Bool :=
  if mode = 0 then (d, false)
  else if mode = 1 then (min (max d (-rr)) rr, decide (rr < d.natAbs))
  else if d = 0 then (0, false)
  else if v ≠ 0 ∧ sgn v ≠ sgn d then (sgn v * max ((v.natAbs : Int) - a) 0, false)
  else
    let av : Int := v.natAbs
    let ad : Int := d.natAbs
    let u := min av rr
    let c := min (u + a) rr
    if c + brake a c ≤ ad then (sgn d * c, decide (rr < u + a))
    else if u + brake a u ≤ ad then (sgn d * u, decide (rr < av))
    else (sgn d * max (u - a) (min a ad), decide (rr < av) && decide (min a ad ≤ u - a))

/-- The limiter (R294): the new position and rate, and r'. -/
def limiter (s : State) (p : Nat) (t : Int) (r : Run) : Int × Run :=
  let d := t - r.d.r
  let rr : Int := s.fget p F.CH_RATE_RATE * 2 ^ 8
  let a : Int := max 1 (s.fget p F.CH_ACC_ACC) * 2 ^ 8
  let w := limStep (s.fget p F.CH_CFG_LIM_MODE) rr a d r.d.v
  let (pos, v) := if d = 0 ∨ (sgn w.1 = sgn d ∧ d.natAbs ≤ w.1.natAbs) then (t, 0) else (r.d.r + w.1, w.1)
  let r := ({ r with d := { r.d with r := pos, v := v } }).flag 5 w.2
  r.sat (Acc.rne pos 23)

/-! ### Laws -/

/-- One BIQUAD section (R296). -/
def runSection (s : State) (p n : Nat) (r : Run) (x : Int) : Int × Run :=
  let q := fun f : Fld => chQ s p (f.sh (16 * n))
  let g := fun f : Fld => s.fget p (f.sh (16 * n))
  let st := r.d.secs.get {} n
  let put := fun (st : SecSt) (r : Run) => { r with d := { r.d with secs := r.d.secs.set {} n st } }
  let kind := g F.CH_SEC_W2_KIND
  let clampIf := fun (r : Run) => if g F.CH_SEC_W2_CLAMP_EN = 1 then r.iclamp (q F.CH_SEC_W3_CLO) (q F.CH_SEC_W3_CHI) else r
  if kind = 2 then
    let r := clampIf ((r.start st.z).macs [(q F.CH_SEC_W0_B0, x)])
    let z := r.c.a
    let o := ((r.macs [(q F.CH_SEC_W0_B1, x)]).shl (g F.CH_SEC_W2_SHIFT)).out
    (o.1, put { st with z := z } o.2)
  else
    let (y, r) :=
      if kind = 0 then (x, r)
      else
        let r := (r.start 0).macs [(q F.CH_SEC_W0_B0, x), (q F.CH_SEC_W0_B1, st.x1), (q F.CH_SEC_W1_B2, st.x2)]
        let r := r.mscs [(q F.CH_SEC_W1_A1, st.y1), (q F.CH_SEC_W2_A2, st.y2)]
        (clampIf (r.shl (g F.CH_SEC_W2_SHIFT))).out
    (y, put { st with x1 := x, x2 := st.x1, y1 := y, y2 := st.y1 } r)

/-- Sections `n` on, `k` of them (R296). -/
def runSections (s : State) (p : Nat) : Nat → Nat → Run → Int → Int × Run
  | 0, _, r, x => (x, r)
  | k + 1, n, r, x => let o := runSection s p n r x; runSections s p k (n + 1) o.2 o.1

/-- Coefficient k of a STATEFB area (Table 9.13). -/
def sfCoef (s : State) (p base k : Nat) : Int := q15 (bitsOf (s.reg p (base + 4 * (k / 2))) (16 * (k % 2)) 16)

/-- A row of a matrix against a vector. -/
def sfRow (s : State) (p base cols row n : Nat) (v : Nat → Int) : List (Int × Int) :=
  (List.range n).map fun j => (sfCoef s p base (cols * row + j), v j)

/-- Collect the results of a loop in ascending index. -/
def loopUp (f : Nat → Run → Int × Run) : Nat → Nat → Run → List Int × Run
  | 0, _, r => ([], r)
  | k + 1, i, r => let o := f i r; let t := loopUp f k (i + 1) o.2; (o.1 :: t.1, t.2)

/-- STATEFB up to the law outputs (R297): the outputs and the corrected states. -/
def stateFb (s : State) (p : Nat) (rpp e : Int) (m : List Int) (r : Run) : List Int × List Int × Run :=
  let g := fun f => s.fget p f
  let ns := g F.CH_SFDIM_NS
  let nu := g F.CH_SFDIM_NU
  let ny := g F.CH_SFDIM_NY
  let ni := g F.CH_SFDIM_NI
  let xh := fun j => r.d.xh.get 0 j
  let (eps, r) := loopUp (fun i r =>
    let o := (((r.start 0).macs (sfRow s p 0x260 6 i ns xh)).shl (g F.CH_SF_SHIFT_SC)).out
    o.2.qsub (m.getD i 0) o.1) ny 0 r
  let (xc, r) := loopUp (fun j r =>
    let o := (((r.start 0).macs (sfRow s p 0x284 3 j ny (fun i => eps.getD i 0))).shl (g F.CH_SF_SHIFT_SL)).out
    o.2.qadd (xh j) o.1) ns 0 r
  let (z, r) := loopUp (fun k r =>
    let r := ((r.start (r.d.zi.get 0 k)).macs [(sfCoef s p 0x2C4 k, e)]).iclamp (chQ s p F.CH_SF_ICLAMP_ILO) (chQ s p F.CH_SF_ICLAMP_IHI)
    (r.c.a, r)) ni 0 r
  let r := { r with d := { r.d with zi := (List.range ni).foldl (fun t k => t.set 0 k (z.getD k 0)) r.d.zi } }
  let (u, r) := loopUp (fun k r =>
    let r := ((r.start 0).macs [(sfCoef s p 0x2C0 k, rpp)]).mscs (sfRow s p 0x2A8 6 k ns (fun j => xc.getD j 0))
    let o := (r.shl (g F.CH_SF_SHIFT_SK)).out
    if k < ni then
      let b := ((o.2.start (z.getD k 0)).shl (g F.CH_SF_SHIFT_SI)).out
      b.2.qadd o.1 b.1
    else o) nu 0 r
  (u, xc, r)

/-- The observer's prediction (R297). -/
def predict (s : State) (p : Nat) (xc uf : List Int) (r : Run) : Run :=
  let ns := s.fget p F.CH_SFDIM_NS
  let nu := s.fget p F.CH_SFDIM_NU
  let (xn, r) := loopUp (fun j r =>
    let r := ((r.start 0).macs (sfRow s p 0x200 6 j ns (fun l => xc.getD l 0))).macs
      (sfRow s p 0x248 2 j nu (fun k => uf.getD k 0))
    (r.shl (s.fget p F.CH_SF_SHIFT_SP)).out) ns 0 r
  { r with d := { r.d with xh := (List.range ns).foldl (fun t j => t.set 0 j (xn.getD j 0)) r.d.xh } }

/-- The bus gain (R298) (DEDUCED, assumption 65). -/
def busGain (s : State) (p : Nat) (mBus : Int) : Int :=
  let vb := max mBus (chQ s p F.CH_VBUS_VMIN)
  min (chQ s p F.CH_VBUS_VNOM * 2 ^ 15 / (vb * 2 ^ s.fget p F.CH_FF_BUS_SHIFT)) 0x7FFF

/-- The output stage of one output (R298). -/
def outStage (s : State) (p o : Nat) (acc g t : Int) (point : Option Nat) (u : Int) (r : Run) : Int × Run :=
  let (u, r) :=
    if s.fget p F.CH_CFG_ACC_FF ≠ 0 ∧ o = 0 then
      let a := (((r.start 0).macs [(chQ s p F.CH_FF_KA, acc)]).shl (s.fget p F.CH_FF_KA_SHIFT)).out
      a.2.qadd u a.1
    else (u, r)
  let (u, r) :=
    if s.fbit p F.CH_CFG_BUS_EN then (((r.start 0).macs [(u, g)]).shl (s.fget p F.CH_FF_BUS_SHIFT)).out else (u, r)
  let (u, r) := if point = some 2 ∧ o = 0 then r.qadd u t else (u, r)
  let uf := min (max u (chQ s p F.CH_OUTLIM_LO)) (chQ s p F.CH_OUTLIM_HI)
  (uf, r.flag 7 (uf != u))

/-- What a computed sample answers: r'', e, the outputs and the sample in progress. -/
structure SampleOut where
  sp : Int := 0
  err : Int := 0
  uf : List Int := []
  xc : List Int := []
  run : Run := {}
  deriving DecidableEq, Repr

/-- Cycles 12 to 63 of a normal sample (R294 to R298). -/
def computeSample (s : State) (p : Nat) (t : Int) (point : Option Nat) (target : Int) (m : List Int) (r : Run) : SampleOut :=
  let v0 := r.d.v
  let (rp, r) := limiter s p target r
  let (rpp, r) := if point = some 0 then r.qadd rp t else (rp, r)
  let (e, r) := r.qsub rpp (m.getD 0 0)
  let (e, r) := if point = some 1 then r.qadd e t else (e, r)
  let (us, xc, r) : List Int × List Int × Run :=
    match s.fget p F.CH_CFG_LAW with
    | 0 => ([rpp], [], r)
    | 1 => let o := runSections s p (s.fget p F.CH_CFG_NSEC) 0 r e; ([o.1], [], o.2)
    | _ => stateFb s p rpp e m r
  let (acc, r) :=
    if s.fget p F.CH_CFG_ACC_FF = 1 then r.sat (Acc.rne (r.d.v - v0) (s.fget p F.CH_FF_ACC_SCALE)) else (chQ s p F.CH_FFIN_FFIN, r)
  let mBus := m.getD 3 0
  let r := r.flag 3 (s.fbit p F.CH_CFG_BUS_EN && decide (mBus < chQ s p F.CH_VBUS_VMIN))
  let g := busGain s p mBus
  let (uf, r) := loopUp (fun o r => outStage s p o acc g t point (us.getD o 0) r) us.length 0 r
  { sp := rpp, err := e, uf := uf, xc := xc, run := r }

/-! ### The test signal -/

/-- π scaled by 2^100. -/
def piScaled : Nat := 3982441812995697363688351113952

/-- Terms of the sine series at x scaled by 2^100, from the k-th term on. -/
def sinSeries : Nat → Nat → Int → Int → Int
  | 0, _, _, _ => 0
  | n + 1, k, x2, term => term + sinSeries n (k + 1) x2 (-(term * x2 / (2 ^ 100 * ((2 * k + 2) * (2 * k + 3)) : Nat)))

/-- RNE(32767·sin(πi/2048)) for i up to 1024. -/
def sinQuarter (i : Nat) : Int :=
  let x : Int := (piScaled * i / 2048 : Nat)
  Acc.rne (32767 * sinSeries 20 0 (x * x / 2 ^ 100) x) 100

/-- Entry i of the sine table of CHIRP (R307). -/
def sinTable (i : Nat) : Int :=
  if i ≤ 1024 then sinQuarter i else if i ≤ 2048 then sinQuarter (2048 - i)
  else if i ≤ 3072 then -sinQuarter (i - 2048) else -sinQuarter (4096 - i)

/-- Bits and tap of a PRBS order (R307). -/
def prbsBits (order : Nat) : Nat := if order = 0 then 9 else if order = 1 then 15 else if order = 2 then 23 else 31
def prbsTap (order : Nat) : Nat := if order = 0 then 5 else if order = 1 then 14 else if order = 2 then 18 else 28

/-- The table entry a TABLE test reads at its present sample (R307). -/
def testEntry (x : LoopTest) (len : Nat) : Nat := ((x.n - x.delay) / (x.hold + 1)) % len

/-- The test value of the present sample and the test after it (R307). -/
def testSignal (s : State) (x : LoopTest) : Int × LoopTest :=
  if x.n < x.delay then (0, x)
  else match x.kind with
    | 1 => (x.amp, x)
    | 2 =>
      let t := ((({} : Acc).mac x.amp (sinTable (x.phi / 2 ^ 20))).out).1
      (t, { x with phi := (x.phi + x.f) % 2 ^ 32, f := (x.f + x.df) % 2 ^ 32 })
    | 3 =>
      let o := prbsBits x.order
      let x :=
        if (x.n - x.delay) % (x.hold + 1) = 0 then
          let b := natBit x.prbs (o - 1) != natBit x.prbs (prbsTap x.order - 1)
          { x with bit := b, prbs := (2 * x.prbs + b2n b) % 2 ^ o }
        else x
      (if x.bit then x.amp else (({} : Acc).qsub 0 x.amp).1, x)
    | 4 =>
      let len := s.fget pgLoopG F.LOOP_TABLE_LEN_ENTRIES
      (if len = 0 then 0 else q15 (s.loop.table.get 0 (testEntry x len)), x)
    | _ => (0, x)

end Sys2Proof.Machine
end

