-- ==== Sys2Proof/Machine/Loop.lean ====
section
/-! DEFINITION. The loop engine (chapter 9): sample instants, the fixed path, pulse inputs, tests and captures. What a latch does with
held host writes stands in Latch. -/

namespace Sys2Proof.Machine

/-- States of a channel (Table 9.11). -/
abbrev chDisabled : Nat := 0
abbrev chIdle : Nat := 1
abbrev chRunning : Nat := 2
abbrev chHeld : Nat := 3

/-- Status codes of Table 9.7. -/
abbrev stTestBusy : Nat := 0x0900
abbrev stChannelState : Nat := 0x0901
abbrev stTableEmpty : Nat := 0x0902

def chanGet (s : State) (c : Nat) : LoopChan := s.loop.chans.get {} c
def chanSet (s : State) (c : Nat) (x : LoopChan) : State := { s with loop := { s.loop with chans := s.loop.chans.set {} c x } }

/-- The channel is built, a plan is in force and its entry schedules the channel (R283). -/
def chanScheduled (s : State) (c : Nat) : Bool :=
  decide (c < s.var.loopChannels) && s.time.plan.isSome && !s.loop.down
    && (s.fget (pgCh + c) F.CH_SCHED_DIV != 0 || s.fbit (pgCh + c) F.CH_SCHED_OUTER)

/-- First sample instant and the distance of the instants of a channel, on the LOOP copy (R284, R285). -/
def chanInstants (s : State) : Nat → Nat → Option (Nat × Nat)
  | 0, _ => none
  | f + 1, c =>
    let p := pgCh + c
    let epoch := s.time.epochTick
    if s.fbit p F.CH_SCHED_OUTER then
      match chanInstants s f (s.fget p F.CH_NEST_INNER) with
      | none => none
      | some (first, step) =>
        let step := step * s.fget p F.CH_NEST_N
        let lead := s.fget p F.CH_NEST_LEAD
        if step = 0 then none
        else
          let skip := if epoch + lead ≤ first then 0 else (epoch + lead - first + step - 1) / step
          some (first + skip * step - lead, step)
    else
      let d := divSamples (s.fget p F.CH_SCHED_DIV)
      if d = 0 then none else some (epoch + s.fget p F.CH_SCHED_PHASE, s.time.period / d)

/-- A tick is a sample instant of the channel. -/
def isSampleInstant (s : State) (c tick : Nat) : Bool :=
  match chanInstants s 5 c with
  | none => false
  | some (first, step) =>
    let t := copyTick s 68 tick
    (s.time.copies.get {} 68).valid && decide ((first : Int) ≤ t) && step != 0 && decide ((t - first) % (step : Int) = 0)

/-- Some outer channel of the plan routes to the channel (R292). -/
def isInner (s : State) (c : Nat) : Bool :=
  (List.range s.var.loopChannels).any fun o =>
    chanScheduled s o && s.fbit (pgCh + o) F.CH_SCHED_OUTER &&
      (s.fget (pgCh + o) F.CH_ROUTE_ROUTE0 = 0x40 + c || s.fget (pgCh + o) F.CH_ROUTE_ROUTE1 = 0x40 + c)

/-- The channel is blocked at a latch (R303). -/
def chanBlocked (s : State) (c : Nat) : Bool := (chanReach s 5 c).any (pairTripped s)

/-- Write a value to a route target at a tick (R299). -/
def routeWrite (s : State) (target : Nat) (v : Int) (tick : Nat) : State :=
  if target < 0x10 then stageWrite s target (q15Bits v) tick
  else if 0x40 ≤ target ∧ target < 0x60 then
    let x := chanGet s (target - 0x40)
    chanSet s (target - 0x40) { x with outer := v, outerOld := x.outer, outerAt := tick }
  else s

/-- Write two values to routes, which become the values routed last. -/
def writeRoutes (s : State) (c r0 r1 : Nat) (v0 v1 : Int) (tick : Nat) : State :=
  let s := chanSet s c { chanGet s c with out0 := v0, out1 := v1 }
  routeWrite (routeWrite s r0 v0 tick) r1 v1 tick

/-- SAFE0 and SAFE1 to routes (R304, R314). -/
def safeRoutes (s : State) (c r0 r1 tick : Nat) : State :=
  writeRoutes s c r0 r1 (chQ s (pgCh + c) F.CH_SAFE_SAFE0) (chQ s (pgCh + c) F.CH_SAFE_SAFE1) tick

/-- A word of a limiter value's two words (Table 9.14). -/
def setWide (s : State) (p off w : Nat) (z : Int) : State :=
  let n := ofSigned 64 (toSigned w (ofSigned w z))
  s.setReg64 p off (off + 4) n

/-- The state copy of cycle 92 (Table 9.14). -/
def stateCopy (s : State) (c : Nat) : State :=
  let p := pgCh + c
  let x := chanGet s c
  let two := fun (a b : Int) => BitVec.ofNat 32 (q15Bits a + q15Bits b * 2 ^ 16)
  let s := eachIn (List.range 6) (fun s n =>
    let st := x.law.secs.get {} n
    if s.fget p (F.CH_SEC_W2_KIND.sh (16 * n)) = 2 then setWide s p (0x300 + 8 * n) 40 st.z
    else (s.setReg p (0x300 + 8 * n) (two st.x1 st.x2)).setReg p (0x304 + 8 * n) (two st.y1 st.y2)) s
  let s := eachIn (List.range 6) (fun s j => s.setReg p (0x330 + 4 * j) (two (x.law.xh.get 0 j) 0)) s
  let s := setWide (setWide s p 0x348 40 (x.law.zi.get 0 0)) p 0x350 40 (x.law.zi.get 0 1)
  let s := setWide (setWide s p 0x358 48 x.law.r) p 0x360 48 x.law.v
  s.setReg p 0x368 (two x.out0 x.out1)

/-! ### Tests -/

/-- The running test ends and its job completes (R308, R309). -/
def testFinish (s : State) (t : LoopTest) (status : Nat) : State :=
  let s := { s with loop := { s.loop with test := none } }
  let s := s.fset pgLoopG F.LOOP_TEST_STAT_RUNNING 0
  pageIrq (jobDone s t.job status t.entries) pgLoopG 1

/-- The test on a channel ends with CHANNEL_STATE when the channel stops, leaves service or changes its entry. -/
def testChannelGone (s : State) (c : Nat) : State :=
  match s.loop.test with
  | some t => if t.chan = c then testFinish s t stChannelState else s
  | none => s

/-- The test that runs on a channel at a latch; one whose job is gone or cancelled ends first (R309). -/
def testAt (s : State) (c : Nat) : Option LoopTest × State :=
  match s.loop.test with
  | none => (none, s)
  | some t =>
    if t.chan ≠ c then (none, s)
    else match startedJob s t.job 0x70 with
      | none => (none, { s with loop := { s.loop with test := none } }.fset pgLoopG F.LOOP_TEST_STAT_RUNNING 0)
      | some j => if j.cancel then (none, testFinish s t stCancelled) else (some t, s)

/-- The signal a capture names (Table 9.6); 10 and above are refused at the start. `sample` holds SRC, r'' and e where formed. -/
def captureSignal (sig : Nat) (t src sp err : Int) (m : List Int) (o0 o1 : Int) : Int :=
  match sig with
  | 0 => t | 1 => src | 2 => sp | 3 => err
  | 4 => m.getD 0 0 | 5 => m.getD 1 0 | 6 => m.getD 2 0
  | 7 => o0 | 8 => o1 | _ => m.getD 3 0

/-- One test sample: its capture entry where DECIM asks for one, and the end after LEN samples (R308). -/
def testSample (s : State) (t : LoopTest) (word : Word) : State :=
  let s :=
    if t.n % (t.decim + 1) = 0 then { s with loop := { s.loop with capture := s.loop.capture.set 0 t.entries word } } else s
  let t := { t with entries := if t.n % (t.decim + 1) = 0 then t.entries + 1 else t.entries, n := t.n + 1 }
  let s := (s.fset pgLoopG F.LOOP_TEST_DONE_SAMPLES t.n).fset pgLoopG F.LOOP_CAP_STAT_ENTRIES t.entries
  let s := { s with loop := { s.loop with test := some t } }
  if t.n = t.len then testFinish s t stOk else s

/-! ### Samples -/

/-- A start (R300): at the first sample instant. A value that an outer channel's sample in progress writes to OUTER at that tick or after it
stays (R299) (DEDUCED, assumption 63). -/
def chanStart (s : State) (c tick : Nat) : State :=
  let p := pgCh + c
  let x := chanGet s c
  let n := s.fget p F.CH_SETTLE_N
  let keep := decide (tick ≤ x.outerAt)
  let s := chanSet s c { x with startDue := false, initDue := true, first := true, law := {}, outer := if keep then x.outer else 0,
                                outerOld := 0, outerAt := if keep then x.outerAt else 0, pinLast := [], pinRef := none, settleLeft := n }
  let s := (s.fset p F.CH_STAT_SAMPLES 0).fset p F.CH_STAT_UNSETTLED (b2n (decide (0 < n)))
  (s.fset p F.CH_STAT_BLOCKED 0).fset p F.CH_STAT_STATE chRunning

/-- LOOP_SAMPLE_INSTANT: conversions start and counts are latched (R287). `codes` are the codes the AIN convert to, by AIN. A channel
whose self-test has passed rejoins here (Table 5.7). -/
def execLoopSampleInstant (chan tick : Nat) (codes : List Nat) (s : State) : Host.Outcome State Fault Refusal :=
  let s := s.reach tick
  let p := pgCh + chan
  nxt <|
    if chanScheduled s chan ∧ isSampleInstant s chan tick ∧ s.fbit p F.PG_CTRL_ENABLE ∧ ¬ s.fbit p F.PG_STAT_RESET_BUSY
        ∧ (¬ pageOut s p ∨ (s.page p).joining) then
      let s :=
        if (s.page p).joining then
          let s := markIn s p
          refreshHolds (chanSet s chan { chanGet s chan with startDue := true })
        else s
      let s := if (chanGet s chan).startDue then chanStart s chan tick else s
      let sel := (List.range 5).map (selOf s p)
      let sm : Sampling := { at_ := tick, codes := sel.map fun v => codes.getD v 0 % 4096,
                             counts := sel.map fun v => if selIsPin v then s.fget pgLoopG (F.LOOP_PIN_COUNT_COUNT.sh (4 * (v - 32))) else 0 }
      chanSet s chan { chanGet s chan with sampling := some sm }
    else s

/-- The codes of a sample's conversions reach LOOP_AIN. -/
def noteCodes (s : State) (p : Nat) (sm : Sampling) : State :=
  eachIn (List.range 5) (fun s k =>
    let v := selOf s p k
    if selIsAin v then s.fset pgLoopG (F.LOOP_AIN_CODE.sh (4 * v)) (sm.codes.getD k 0) else s) s

/-- The channel stops at a latch that takes ENABLE = 0 (R304). -/
def chanStop (s : State) (c tick : Nat) : State :=
  let p := pgCh + c
  let s := chanSet s c { chanGet s c with sampling := none }
  let s := safeRoutes s c (s.fget p F.CH_ROUTE_ROUTE0) (s.fget p F.CH_ROUTE_ROUTE1) tick
  let s := (s.fset p F.CH_STAT_STATE chDisabled).fset p F.CH_STAT_BLOCKED 0
  testChannelGone (pageIrq s p 4) c

/-- A loop channel leaves service (Table 5.7, R330, R337); the page's service bits are set already. -/
def chanLeave (s : State) (c : Nat) : State :=
  let p := pgCh + c
  let s := chanSet s c { chanGet s c with sampling := none }
  let s := ((s.fset p F.CH_STAT_STATE chDisabled).fset p F.CH_STAT_BLOCKED 0).fset p F.CH_STAT_WRITE_PENDING 0
  let s := refreshHolds (pageIrq s p 4)
  testChannelGone (stopRequest s 19 (groupsOfPairs s (chanPairs s c)) false) c

/-- A channel fails (R313). -/
def chanFail (s : State) (c detail : Nat) : State := chanLeave (unitFault s (pgCh + c) detail) c

/-- Set flags of CH_FLAGS; FLAGS when an enabled one becomes set. -/
def setChFlags (s : State) (p bits : Nat) : State :=
  let old := s.fget p F.CH_FLAGS_FLAGS
  let s := s.fset p F.CH_FLAGS_FLAGS (old ||| bits)
  let rise := (old ||| bits) - old
  if rise &&& s.fget p F.CH_FLAG_EN ≠ 0 then pageIrq s p 1 else s

/-- What a test reads at this sample holds a UE (R309). -/
def testReadsUe (s : State) (t : LoopTest) (fault : LoopFault) : Bool :=
  t.kind = 4 && decide (t.delay ≤ t.n) &&
    (fault = .table || s.loop.tablePoison.contains (testEntry t (s.fget pgLoopG F.LOOP_TABLE_LEN_ENTRIES)))

/-- How a sample runs: normally, held (R302), or held with a reset of its state (R303). -/
inductive SampleMode where
  | normal | held | reset
  deriving DecidableEq, Repr

/-- What the sample's arithmetic leaves: the dynamic state, the routed values, the flags, and the signals SRC, r'' and e. -/
structure SampleRes where
  law : LawSt := {}
  v0 : Int := 0
  v1 : Int := 0
  flags : Nat := 0
  src : Int := 0
  sp : Int := 0
  err : Int := 0
  m : List Int := []
  deriving DecidableEq, Repr

/-- The arithmetic of one sample (Table 9.3), cycles 4 to 91 (DEDUCED, assumption 61). -/
def sampleRun (s : State) (c : Nat) (x : LoopChan) (sm : Sampling) (mode : SampleMode) (t : Int) (point : Option Nat) (tick : Nat) :
    SampleRes :=
  let p := pgCh + c
  let release := (s.time.releases.get {} c).output.val.toNat
  let outer := if x.outerAt < tick then x.outer else x.outerOld
  let (m, r) := scaleInputs s p x sm 5 { d := x.law }
  let needs := mode ≠ .held ∨ (x.initDue ∧ s.fget p F.CH_CFG_LIM_INIT = 0)
  let (src, r) := if needs then sourceValue s p x sm (isInner s c) outer release m r else (0, r)
  let (target, r) := if needs then limTarget s p src r else (0, r)
  let r :=
    if x.initDue then
      let r0 : Int := match s.fget p F.CH_CFG_LIM_INIT with
        | 0 => target
        | 1 => m.getD 0 0 * 2 ^ 23
        | _ => 0
      { r with d := { r.d with r := r0, v := 0 } }
    else r
  match mode with
  | .held => { law := r.d, v0 := x.out0, v1 := x.out1, flags := r.allFlags, src := src, m := m }
  | .reset => { law := { r := target }, v0 := x.out0, v1 := x.out1, flags := r.allFlags, src := src, m := m }
  | .normal =>
    let o := computeSample s p t point target m r
    let stateFb := s.fget p F.CH_CFG_LAW = 2
    let two := stateFb && s.fget p F.CH_SFDIM_NU = 2
    let safe := decide (0 < x.settleLeft) && s.fbit p F.CH_CFG_SETTLE_SAFE
    let u0 := o.uf.getD 0 0
    let v0 := if safe then chQ s p F.CH_SAFE_SAFE0 else u0
    let v1 := if safe then chQ s p F.CH_SAFE_SAFE1 else if two then o.uf.getD 1 0 else u0
    let r := if stateFb then predict s p o.xc [v0, v1] o.run else o.run
    { law := r.d, v0 := v0, v1 := v1, flags := r.allFlags, src := src, sp := o.sp, err := o.err, m := m }

/-- Pulse counts latched last and at the first sample (R291, R292). -/
def notePins (s : State) (p : Nat) (x : LoopChan) (sm : Sampling) : LoopChan :=
  let x := (List.range 5).foldl (fun (x : LoopChan) k =>
    let v := selOf s p k
    if selIsPin v then { x with pinLast := x.pinLast.ins (v - 32) (sm.counts.getD k 0) } else x) x
  let v := selOf s p 4
  if selIsPin v ∧ (x.first ∨ x.pinRef.map Prod.fst ≠ some (v - 32)) then
    { x with pinRef := some (v - 32, sm.counts.getD 4 0), first := false }
  else { x with first := false }

/-- A sample from its latch to its route writes (R287 to R303), the held host writes taken. -/
def latchSample (s : State) (c tick : Nat) (sm : Sampling) (fault : LoopFault) : State :=
  let p := pgCh + c
  let detail := match fault with
    | .coef => 1 | .state => 2 | .selfCheck => 3
    | .none => 0 | .table => 0
  if detail ≠ 0 then chanFail (noteCodes s p sm) c detail
  else
    let s := noteCodes s p sm
    let (test, s) := testAt s c
    let (test, s) := match test with
      | some t => if testReadsUe s t fault then (none, testFinish s t stPoison) else (some t, s)
      | none => (none, s)
    let blocked := chanBlocked s c
    let mode : SampleMode :=
      if blocked then (if s.fbit p F.CH_CFG_TRIP_ACTION then .reset else .held)
      else if s.fbit p F.CH_CTRL_HOLD then .held else .normal
    let (t, test) := match test with
      | some x => let o := testSignal s x; (o.1, some o.2)
      | none => (0, none)
    let point := if mode = .normal then test.map (·.point) else none
    let x := chanGet s c
    let o := sampleRun s c x sm mode t point tick
    let last := decide (0 < x.settleLeft) && decide (mode = .normal)
    let left := if last then x.settleLeft - 1 else x.settleLeft
    let x := { (notePins s p x sm) with law := o.law, initDue := false, sampling := none, settleLeft := left }
    let s := chanSet s c x
    let s := setChFlags s p o.flags
    let s := (s.fset p F.CH_STAT_BLOCKED (b2n blocked)).fset p F.CH_STAT_STATE (if mode = .held then chHeld else chRunning)
    let s := s.fset p F.CH_STAT_SAMPLES (s.fget p F.CH_STAT_SAMPLES + 1)
    let s := s.fset p F.CH_STAT_UNSETTLED (b2n (decide (0 < x.settleLeft)))
    let s := if last ∧ x.settleLeft = 0 then pageIrq s p 2 else s
    let s := writeRoutes s c (s.fget p F.CH_ROUTE_ROUTE0) (s.fget p F.CH_ROUTE_ROUTE1) o.v0 o.v1 (sm.at_ + 480)
    let s := stateCopy s c
    match test with
    | none => s
    | some tt =>
      let (f1, s) := s.free
      let (f2, s) := s.free
      let (f3, s) := s.free
      let src := if mode = .held then q15 f1 else o.src
      let sp := if mode = .normal then o.sp else q15 f2
      let err := if mode = .normal then o.err else q15 f3
      let pick := fun sig => q15Bits (captureSignal sig t src sp err o.m o.v0 o.v1)
      testSample s tt (BitVec.ofNat 32 (pick tt.capA + pick tt.capB * 2 ^ 16))

/-- A plan epoch gives the channels their entries (R300, R314): CH_SCHED, CH_NEST, CH_INPUTS and CH_ROUTE of each, or the reset values
where the plan ends. A test on a channel whose entry changes ends. -/
def loopEpoch (s : State) (entries : Nat → Word × Word × Word × Word) (tick : Nat) : State :=
  eachIn (List.range s.var.loopChannels) (fun s c =>
    let p := pgCh + c
    let r := fun f : Fld => s.reg p f.off
    let old := (r F.CH_SCHED_PHASE, r F.CH_NEST_INNER, r F.CH_INPUTS, r F.CH_ROUTE_ROUTE0)
    let e := entries c
    let scheduled := fun (w : Word × Word × Word × Word) => bitsOf w.1 20 4 != 0
    let new := if scheduled e then e else ((0 : Word), (0 : Word), (0x3FFFFFFF : Word), (0xFFFF : Word))
    if old = new then s
    else
      let s :=
        if scheduled old ∧ ¬ pageOut s p then safeRoutes s c (bitsOf old.2.2.2 0 8) (bitsOf old.2.2.2 8 8) tick else s
      let s := chanSet s c { chanGet s c with sampling := none, startDue := scheduled new }
      let s := testChannelGone s c
      let s := ((s.setReg p F.CH_SCHED_PHASE.off new.1).setReg p F.CH_NEST_INNER.off new.2.1).setReg p F.CH_INPUTS.off new.2.2.1
      let s := s.setReg p F.CH_ROUTE_ROUTE0.off new.2.2.2
      if s.fget p F.CH_STAT_STATE ≠ chDisabled then s.fset p F.CH_STAT_STATE chIdle else s) s

/-! ### Pulse inputs -/

/-- PIN_EDGE: accepted edges on the lines of a pulse input in one cycle (R291). -/
def execPinEdge (pin : Nat) (edgeA edgeB : Bool) (s : State) : Host.Outcome State Fault Refusal :=
  nxt <|
    if s.var.pinInputs ≤ pin ∨ s.loop.down then s
    else
      let a0 := s.loop.pinA.get false pin
      let b0 := s.loop.pinB.get false pin
      let a := a0 != edgeA
      let b := b0 != edgeB
      let s := { s with loop := { s.loop with pinA := s.loop.pinA.set false pin a, pinB := s.loop.pinB.set false pin b } }
      let cnt := F.LOOP_PIN_COUNT_COUNT.sh (4 * pin)
      let add := fun (up : Bool) (s : State) => s.fset pgLoopG cnt (s.fget pgLoopG cnt + if up then 1 else 2 ^ 32 - 1)
      match s.fget pgLoopG (F.LOOP_PIN_CFG_MODE.sh (4 * pin)) with
      | 1 =>
        if edgeA ∧ edgeB then
          let e := s.fget pgLoopG F.LOOP_PIN_ERR_QUAD
          pageIrq (s.fset pgLoopG F.LOOP_PIN_ERR_QUAD (natPutBit e pin true)) pgLoopG 2
        else if edgeA then add (a != b) s
        else if edgeB then add (a == b) s
        else s
      | 2 => if edgeA ∧ a then add (b0 == s.fbit pgLoopG (F.LOOP_PIN_CFG_INVERT.sh (4 * pin))) s else s
      | 3 => if edgeA ∧ a then add true s else s
      | _ => s

/-- A held write of LOOP_PIN_CFG takes effect; a MODE change clears the pin's counter ("LOOP global page"). -/
def pinCfgTake (s : State) (off : Nat) (w : Word) : State :=
  let n := (off - F.LOOP_PIN_CFG_MODE.off) / 4
  let old := s.fget pgLoopG (F.LOOP_PIN_CFG_MODE.sh (4 * n))
  let s := s.setReg pgLoopG off (w &&& 0xFF07)
  if bitsOf w 0 2 ≠ old then s.setReg pgLoopG (F.LOOP_PIN_COUNT_COUNT.off + 4 * n) 0 else s

/-! ### Test jobs -/

/-- A field of LOOP_TEST lies outside its range (Table 9.5). -/
def loopTestBad (x : Job) : Bool :=
  decide (4 < payBits x 40 3) || payBits x 44 2 = 3 || payBits x 64 17 = 0 || decide (65536 < payBits x 64 17)
    || decide (9 < payBits x 104 4) || decide (9 < payBits x 108 4)

/-- LOOP_TEST (R307, R309). -/
def execLoopTest (job : Nat) (s : State) : Host.Outcome State Fault Refusal :=
  nxt <| match startedJob s job 0x70 with
    | none => s
    | some x =>
      let c := payBits x 32 5
      let st := s.fget (pgCh + c) F.CH_STAT_STATE
      if x.stage ≠ 0 then s
      else if s.var.loopChannels ≤ c then jobDone s job stUnitAbsent 0
      else if loopTestBad x then jobDone s job stBadEntry 0
      else if s.loop.test.isSome then jobDone s job stTestBusy 0
      else if payBits x 40 3 = 4 ∧ s.fget pgLoopG F.LOOP_TABLE_LEN_ENTRIES = 0 then jobDone s job stTableEmpty 0
      else if (st ≠ chRunning ∧ st ≠ chHeld) ∨ pageOut s (pgCh + c) then jobDone s job stChannelState 0
      else
        let order := payBits x 192 2
        let t : LoopTest :=
          { job := job, chan := c, kind := payBits x 40 3, point := payBits x 44 2, amp := q15 (payBits x 48 16), len := payBits x 64 17,
            hold := payBits x 88 8, decim := payBits x 96 8, capA := payBits x 104 4, capB := payBits x 108 4, delay := payBits x 112 16,
            f := payBits x 128 32, df := payBits x 160 32, order := order, prbs := 2 ^ prbsBits order - 1 }
        let s := jobSet s job { x with stage := 1 }
        let s := { s with loop := { s.loop with test := some t } }
        let s := (s.fset pgLoopG F.LOOP_TEST_STAT_RUNNING 1).fset pgLoopG F.LOOP_TEST_STAT_CHANNEL c
        (s.setReg pgLoopG F.LOOP_TEST_DONE_SAMPLES.off 0).setReg pgLoopG F.LOOP_CAP_STAT_ENTRIES.off 0

/-- The 16-bit words of data, from word `i` on, into a table (DEDUCED, assumption 62). -/
def loadTable : List Byte → Nat → Tab Nat → Tab Nat
  | lo :: hi :: r, i, t => loadTable r (i + 1) (t.set 0 i (lo.toNat + 256 * hi.toNat))
  | _, _, t => t

/-- Put data into the test table, with the entries that hold poison. -/
def tableFill (s : State) (d : List Byte) (poison : List Nat) : State :=
  { s with loop := { s.loop with table := loadTable d 0 s.loop.table, tablePoison := poison } }

/-- LOOP_TABLE (R306, R309). -/
def execLoopTable (job : Nat) (s : State) : Host.Outcome State Fault Refusal :=
  nxt <| match startedJob s job 0x71 with
    | none => s
    | some x =>
      let n := payBits x 128 13
      let addr := payBits x 64 64
      if addr % 8 ≠ 0 ∨ n = 0 ∨ 4096 < n then jobDone s job stBadEntry 0
      else if s.loop.test.isSome then jobDone s job stTestBusy 0
      else withHostData s job addr (2 * n)
        (fun s d ps => tableFill s (d.take (2 * n)) (s.loop.tablePoison ++ ps.map (· / 2)))
        (fun s d =>
          let s := tableFill s (d.take (2 * n)) (s.loop.tablePoison.filter fun i => decide (n ≤ i))
          jobDone (s.fset pgLoopG F.LOOP_TABLE_LEN_ENTRIES n) job stOk n)

/-- LOOP_READ (R306, R309): `ue` when an entry read holds a UE. -/
def execLoopRead (job : Nat) (ue : Bool) (s : State) : Host.Outcome State Fault Refusal :=
  nxt <| match startedJob s job 0x72 with
    | none => s
    | some x =>
      let first := payBits x 128 16
      let n := payBits x 144 17
      let addr := payBits x 64 64
      if addr % 8 ≠ 0 ∨ n = 0 ∨ 65536 < first + n then jobDone s job stBadEntry 0
      else if x.cancel then jobDone s job stCancelled 0
      else if ue then jobDone s job stPoison 0
      else
        let data := (List.range n).flatMap fun i => leBytes 4 (s.loop.capture.get 0 (first + i)).toNat
        jobDone (hostSend s x.part (.write x.part addr data)) job stOk n

end Sys2Proof.Machine
end

