-- ==== Sys2Proof/Machine/Solver.lean ====
section
/-! DEFINITION. The solver sequencer (chapter 8): slots and their jobs, deltas, the window test, checks, the deadline. What the tiles
compute between checks is their programs' work; the sequencer sees their reports. -/

namespace Sys2Proof.Machine

/-- Codes of Table 8.13. -/
abbrev stImageRefused : Nat := 0x0801
abbrev stSlotEmpty : Nat := 0x0802
abbrev stSlotBusy : Nat := 0x0803
abbrev stSlotNotBound : Nat := 0x0804
abbrev stDeltaIndex : Nat := 0x0805
abbrev stDeltaLimit : Nat := 0x0806
abbrev stNumeric : Nat := 0x0807
abbrev stNoWindow : Nat := 0x0808

def slotGet (s : State) (k : Nat) : SolvSlot := s.solver.slots.get {} k
def slotSet (s : State) (k : Nat) (x : SolvSlot) : State := { s with solver := { s.solver with slots := s.solver.slots.set {} k x } }

/-! ### Image and binding fields -/

/-- Fields of the header (Table 8.2). -/
def Simg.method (m : Simg) : Nat := bitsOf m.header 0 4
def Simg.runahead (m : Simg) : Nat := bitsOf m.header 4 2
def Simg.every (m : Simg) : Nat := bitsOf m.header 8 8
def Simg.cap (m : Simg) : Nat := bitsOf m.header 16 16
def Simg.corrIters (m : Simg) : Nat := bitsOf m.header 32 16
def Simg.specIters (m : Simg) : Nat := bitsOf m.header 48 8
def Simg.measLen (m : Simg) : Nat := bitsOf m.header 56 5
def Simg.tileMask (m : Simg) : Nat := bitsOf m.header 64 64
def Simg.nparam (m : Simg) : Nat := bitsOf m.header 128 19
def Simg.matBase (m : Simg) : Nat := bitsOf m.header 147 19
def Simg.matEnd (m : Simg) : Nat := bitsOf m.header 166 19
def Simg.deltaMax (m : Simg) : Nat := bitsOf m.header 185 13
def Simg.nvar (m : Simg) : Nat := bitsOf m.header 198 14
def Simg.ncon (m : Simg) : Nat := bitsOf m.header 212 14
def Simg.iterTicks (m : Simg) : Nat := bitsOf m.header 256 16
def Simg.checkTicks (m : Simg) : Nat := bitsOf m.header 272 16
def Simg.prepTicks (m : Simg) : Nat := bitsOf m.header 288 16
def Simg.finalTicks (m : Simg) : Nat := bitsOf m.header 304 16
def Simg.epsPinf (m : Simg) : Nat := bitsOf m.header 448 64
def Simg.epsDinf (m : Simg) : Nat := bitsOf m.header 512 64
def Simg.winKeep (m : Simg) : Nat := bitsOf m.header 704 64
def Simg.winCorr (m : Simg) : Nat := bitsOf m.header 768 64
def Simg.fbMask (m : Simg) : Nat := bitsOf m.header 896 16

/-- The logical positions of the group. -/
def Simg.group (m : Simg) : List Nat := (List.range 64).filter m.tileMask.testBit

/-- The binding of a slot by a plan (Table 8.3). -/
def bindOf (p : PlanImage) (slot : Nat) : Option (BitVec 256) := p.bindings.find? fun b => bitsOf b 0 5 = slot

/-- The binding of a slot by the plan in force. -/
def binding (s : State) (slot : Nat) : Option (BitVec 256) :=
  match s.time.plan with
  | none => none
  | some p => bindOf p slot

def bKind (b : BitVec 256) : Nat := bitsOf b 5 1
def bLead (b : BitVec 256) : Nat := bitsOf b 8 6
def bMeas (b : BitVec 256) : Nat := bitsOf b 16 5
def bStart (b : BitVec 256) : Nat := bitsOf b 32 20
def bJ0 (b : BitVec 256) : Nat := bitsOf b 52 8
def bRecur (b : BitVec 256) : Nat := bitsOf b 64 9
def bSpan (b : BitVec 256) : Nat := bitsOf b 80 28
def bMirrorOff (b : BitVec 256) : Nat := bitsOf b 112 13
def bMirrorLen (b : BitVec 256) : Nat := bitsOf b 128 13

/-- A tick is a start S of the slot under the plan in force (R246): the base period it lies in. -/
def solveStart (s : State) (b : BitVec 256) (t : Nat) : Option Nat :=
  let p := s.time.period
  let e := s.time.epochTick + bStart b
  if t < e ∨ p = 0 ∨ (t - e) % p ≠ 0 then none
  else
    let k := (t - e) / p
    let j := k % s.time.cycleH
    if bRecur b ≠ 0 ∧ (j + 256 * bRecur b - bJ0 b) % bRecur b = 0 then some (s.time.epochBpn + k) else none

/-- The slot is bound by the plan in force or by a pending plan (R248). -/
def slotBusy (s : State) (slot : Nat) : Bool :=
  (binding s slot).isSome || (match s.time.next with
    | some e => (match e.load with
      | some p => (bindOf p slot).isSome
      | none => false)
    | none => false)

/-- Show a slot's state (Table 8.15). -/
def slotState (s : State) (k v : Nat) : State := s.fset pgSolv (F.SOLV_SLOT0_STATE.sh (16 * k)) v

/-! ### Images -/

/-- An FX45 constant meets its condition: finite, and not negative or above 0 (Table 8.2). -/
def constOk (x : Nat) (strict : Bool) : Bool :=
  fxFinite x && (if strict then fxLt 0 x else fxLe 0 x) && decide (x < 2 ^ 45)

/-- A logical position is VALID in FMAP_MAP (Table 6.17). -/
def posValid (s : State) (p : Nat) : Bool :=
  natBit (s.fget pgFmap (F.FMAP_MAP.sh (4 * (p / 4)))) (8 * (p % 4) + 7)

/-- The tiles accept an image (R201). -/
def facetAccepts (s : State) (major : Nat) (tiles : List PlanTile) (period : Nat) : Bool :=
  major == 0 && tiles.all fun t =>
    posValid s t.pos && decide (t.bytes ≤ 0x40000) && decide (128 * t.trays ≤ 0x40000) && decide (1 ≤ t.trays)
      && (t.words.all fun w => decide (w.1 < 0x8000)) && imageTraysOk s.var period t.words t.trays && t.portsBound

/-- The first check of Table 8.6 that a solver image fails; 0 when it passes. -/
def simgCheck (s : State) (m : Simg) : Nat :=
  let c := m.every
  let n := m.group.length
  let f := fun lo => bitsOf m.header lo 64
  if m.bytes < 384 + m.body.bytes ∨ bitsOf m.header 912 112 ≠ 0 ∨ bitsOf m.header 6 2 ≠ 0 ∨ bitsOf m.header 61 3 ≠ 0
      ∨ bitsOf m.header 226 30 ≠ 0 then 1
  else if ¬ (m.method = 1 ∨ m.method = 2 ∨ m.method = 3) ∨ (m.method = 2 ∧ m.runahead ≠ 0) then 2
  else if (c ≠ 0 ∧ m.cap % c ≠ 0) ∨ m.cap < m.corrIters then 3
  else if 2 < m.runahead ∨ 64 < c ∨ m.cap = 0 ∨ 16383 < m.cap ∨ 16 < m.measLen ∨ n = 0 ∨ 16 < n ∨ m.nparam = 0
      ∨ 4096 < m.deltaMax ∨ m.nvar = 0 ∨ m.iterTicks % 4 ≠ 0 ∨ m.checkTicks % 4 ≠ 0 ∨ m.checkTicks < 48
      ∨ m.matEnd < m.matBase ∨ m.nparam < m.matEnd
      ∨ (m.meas.take m.measLen).any (fun w => decide (m.nparam ≤ bitsOf w 0 19) || (bitAt w 63 && decide (m.nparam ≤ bitsOf w 19 19))) then 4
  else if ¬ (constOk (f 320) false && constOk (f 384) false && constOk (f 448) true && constOk (f 512) true && constOk (f 576) false
      && constOk (f 640) true && constOk (f 704) false && constOk (f 768) false && fxLe (f 704) (f 768) && constOk (f 832) true) then 5
  else if (m.runahead = 2 ∧ c ≠ 0) ∨ (m.runahead ≠ 0 ∧ m.measLen = 0) ∨ m.prepTicks < 2 * m.measLen + 16 then 6
  else if ¬ (facetAccepts s m.body.trayMajor m.body.tiles s.time.period && m.group.all (posValid s)) then 7
  else 0

/-- Free bytes of the Plan region with one holder left out (R525). -/
def planFree (s : State) (but : Nat) : Nat :=
  s.fget pgMemc F.MEMC_PLAN_SIZE_UNITS * 2 ^ 21 - ((s.mem.planUse.filter fun u => u.1 ≠ but).map Prod.snd).sum

/-- Take bytes of the Plan region for a holder, or give them back. -/
def planTake (s : State) (k bytes : Nat) : State :=
  let s := { s with mem := { s.mem with planUse := s.mem.planUse.set 0 k bytes } }
  s.fset pgMemc F.MEMC_PLAN_FREE_UNITS (planFree s 1000 / 2 ^ 21)

/-- A load ends: SOLV_LOAD and the LOAD cause (Tables 8.15, "SOLV page"). -/
def loadDone (s : State) (j status check : Nat) : State :=
  let s := (s.fset pgSolv F.SOLV_LOAD_STATUS status).fset pgSolv F.SOLV_LOAD_CHECK check
  pageIrq (jobDone s j status check) pgSolv 4

/-- The address and length of an image payload are in range (Table 8.5). -/
def imagePayloadOk (x : Job) : Bool :=
  payBits x 64 12 == 0 && decide (1 ≤ payBits x 128 32) && decide (payBits x 128 32 ≤ 0x4000000)

/-- The image in host bytes: header, MEAS map and weights (R245). -/
def simgOf (d : List Byte) (body : SimgBody) (bytes : Nat) : Simg :=
  let word := fun k => leNat ((List.range 8).map fun i => d.getD (8 * k + i) 0)
  { header := BitVec.ofNat 1024 (leNat (d.take 128)), meas := (List.range 16).map fun e => BitVec.ofNat 64 (word (16 + e)),
    weights := (List.range 16).map fun e => word (32 + e) % 2 ^ 45, body := body, bytes := bytes }

/-- Device memory can take the load: MEMC_INIT has completed (R522). -/
def memReady (s : State) : Bool := s.fbit pgMemc F.MEMC_STAT_INIT_DONE

/-- SIMG_LOAD (R248). `body` is what the image's body gives (assumption 11). -/
def execSimgLoad (job : Nat) (body : SimgBody) (s : State) : Host.Outcome State Fault Refusal :=
  nxt <| match startedJob s job 0x22 with
    | none => s
    | some x =>
      let k := payBits x 32 5
      if ¬ memReady s then s
      else if ¬ imagePayloadOk x then jobDone s job stBadEntry 0
      else if slotBusy s k then loadDone s job stSlotBusy 0
      else withHostData s job (payBits x 64 64) (payBits x 128 32) (fun s _ _ => s) fun s d =>
        let m := simgOf d body (payBits x 128 32)
        let c := simgCheck s m
        if c ≠ 0 then loadDone s job stImageRefused c
        else if planFree s k < m.bytes then loadDone s job 0x0F16 0
        else
          let s := planTake (slotSet s k { image := some m }) k m.bytes
          let s := slotState s k 1
          let s := s.fset pgSolv (F.SOLV_SLOT0_METHOD.sh (16 * k)) m.method
          loadDone (s.fset pgSolv (F.SOLV_SLOT0_RUNAHEAD.sh (16 * k)) m.runahead) job stOk 0

/-- SIMG_FREE (R248). -/
def execSimgFree (job : Nat) (s : State) : Host.Outcome State Fault Refusal :=
  nxt <| match startedJob s job 0x23 with
    | none => s
    | some x =>
      let k := payBits x 32 5
      if slotBusy s k then jobDone s job stSlotBusy 0
      else if (slotGet s k).image.isNone then jobDone s job stSlotEmpty 0
      else
        let s := planTake (slotSet s k {}) k 0
        jobDone (s.setReg pgSolv (F.SOLV_SLOT0_STATE.off + 16 * k) 0) job stOk 0

/-! ### Solver jobs -/

/-- The checks of R274 before any data is read; 0 when they pass. -/
def solvCheck (s : State) (k : Nat) (run : Bool) : Nat :=
  if (slotGet s k).image.isNone then stSlotEmpty
  else match binding s k with
    | none => stSlotNotBound
    | some b => if run ∧ bKind b ≠ 1 then stNoWindow else 0

/-- The image of a slot that holds one. -/
def slotImage (s : State) (k : Nat) : Simg := (slotGet s k).image.getD {}

/-- The pairs of a delta job (R253) (DEDUCED, assumption 96). -/
def deltaPairs (d : List Byte) (n : Nat) : List (Nat × Nat) :=
  (List.range n).map fun i =>
    let w := leNat ((List.range 8).map fun k => d.getD (8 * i + k) 0)
    (w / 2 ^ 45, w % 2 ^ 45)

/-- Take a job out of a slot's delta stage. -/
def unstage (s : State) (k job : Nat) : State :=
  slotSet s k { slotGet s k with staged := (slotGet s k).staged.filter fun d => d.job ≠ job }

/-- SOLV_DELTA (R254, R274, R275): the pairs are read, checked and staged; a cancel before the delta tick ends the job. -/
def execSolvDelta (job : Nat) (s : State) : Host.Outcome State Fault Refusal :=
  nxt <| match startedJob s job 0x80 with
    | none => s
    | some x =>
      let k := payBits x 32 5
      let n := payBits x 48 13
      let m := slotImage s k
      if x.cancel then jobDone (unstage s k job) job stCancelled 0
      else if x.stage = 2 then s
      else if solvCheck s k false ≠ 0 then jobDone s job (solvCheck s k false) 0
      else if n = 0 ∨ m.deltaMax < n then jobDone s job stDeltaLimit 0
      else if payBits x 64 3 ≠ 0 then jobDone s job stBadEntry 0
      else withHostData s job (payBits x 64 64) (8 * n) (fun s _ _ => s) fun s d =>
        let ps := deltaPairs d n
        if ps.any fun p => decide (m.nparam ≤ p.1) then jobDone s job stDeltaIndex 0
        else
          let y := slotGet s k
          let s := slotSet s k { y with staged := y.staged ++ [{ job := job, pairs := ps, tick := s.now }] }
          match jobGet s job with
          | some z => jobSet s job { z with stage := 2, data := none }
          | none => s

/-- SOLV_GUESS (R257, R274). -/
def execSolvGuess (job : Nat) (s : State) : Host.Outcome State Fault Refusal :=
  nxt <| match startedJob s job 0x81 with
    | none => s
    | some x =>
      let k := payBits x 32 5
      let m := slotImage s k
      let n := if m.method = 1 then m.nvar + 2 * m.ncon else m.nvar
      if x.cancel then jobDone s job stCancelled 0
      else if solvCheck s k false ≠ 0 then jobDone s job (solvCheck s k false) 0
      else if m.method = 2 ∨ payBits x 64 3 ≠ 0 then jobDone s job stBadEntry 0
      else withHostData s job (payBits x 64 64) (8 * n) (fun s _ _ => s) fun s d =>
        let ws := (List.range n).map fun i => BitVec.ofNat 64 (leNat ((List.range 8).map fun q => d.getD (8 * i + q) 0))
        jobDone (slotSet s k { slotGet s k with guess := some ws }) job stOk 0

/-- The bytes of a slot's mirror area as last released. -/
def mirrorBytes (s : State) (b : BitVec 256) : List Byte :=
  (List.range (bMirrorLen b)).flatMap fun i => leBytes 8 (s.time.mirror.get 0 (bMirrorOff b + i)).toNat

/-- Word 0 of a slot's mirror area. -/
def mirrorWord0 (s : State) (b : BitVec 256) : Nat := (s.time.mirror.get 0 (bMirrorOff b)).toNat

/-- SOLV_READ (R274). -/
def execSolvRead (job : Nat) (s : State) : Host.Outcome State Fault Refusal :=
  nxt <| match startedJob s job 0x83 with
    | none => s
    | some x =>
      let k := payBits x 32 5
      if x.cancel then jobDone s job stCancelled 0
      else if solvCheck s k false ≠ 0 then jobDone s job (solvCheck s k false) 0
      else if payBits x 64 3 ≠ 0 then jobDone s job stBadEntry 0
      else match binding s k with
        | none => s
        | some b =>
          let s := hostSend s x.part (.write x.part (payBits x 64 64) (mirrorBytes s b))
          jobDone s job stOk (mirrorWord0 s b % 2 ^ 32)

/-- The conditions in rank order with their status codes (Table 8.9). -/
def condRanks (haltCode : Nat) : List (Nat × Nat) :=
  [(9, stTileLost), (8, haltCode), (7, stPoison), (6, stNumeric), (4, stInfeasiblePrimal), (5, stInfeasibleDual), (0, stColdStart),
   (3, stDeadlineCut), (2, stIterCap), (1, stPivotRegularised)]

/-- The primary status of a set of conditions (R267). -/
def primaryStatus (conds haltCode : Nat) : Nat :=
  match (condRanks haltCode).find? fun r => conds.testBit r.1 with
  | some r => r.2
  | none => stOk

/-- SOLV_RUN (R274, R275): it waits for its window, and once its solve has ended it copies the mirror area and ends with the primary
status. -/
def execSolvRun (job : Nat) (s : State) : Host.Outcome State Fault Refusal :=
  nxt <| match startedJob s job 0x82 with
    | none => s
    | some x =>
      let k := payBits x 32 5
      let y := slotGet s k
      if x.stage = 100 then
        match y.solve, binding s k with
        | some v, some b =>
          if y.run = some job ∧ y.ranOut then
            let s := hostSend s x.part (.write x.part (payBits x 64 64) (mirrorBytes s b))
            let s := slotSet s k { slotGet s k with run := none, ranOut := false }
            jobDone s job (primaryStatus v.conds v.haltCode) (v.iter % 2 ^ 16 + (v.conds % 2 ^ 16) * 2 ^ 16)
          else s
        | _, _ => s
      else if x.cancel then jobDone (slotSet s k { y with run := if y.run = some job then none else y.run }) job stCancelled 0
      else if x.stage = 2 then s
      else if solvCheck s k true ≠ 0 then jobDone s job (solvCheck s k true) 0
      else if payBits x 64 3 ≠ 0 then jobDone s job stBadEntry 0
      else if y.run.isSome then s
      else jobSet (slotSet s k { y with run := some job, ranOut := false }) job { x with stage := 2 }

/-! ### One solve -/

/-- FORCE_COLD is taken at a base-period start with the rest of SOLV_CTRL (R278): for the slots bound then. -/
def solvCtrlTake (s : State) (data : Word) : State :=
  let s := s.fset pgSolv F.SOLV_CTRL_RUNAHEAD_EN (bitsOf data 0 1)
  let s := s.fset pgSolv F.SOLV_CTRL_IRQ_COND (bitsOf data 16 16)
  if data.getLsbD 1 then
    let bound := (List.range 32).filter fun k => (binding s k).isSome
    let s := eachIn bound (fun s k => slotSet s k { slotGet s k with forceCold := true }) s
    s.fset pgSolv F.SOLV_CTRL_FORCE_COLD (b2n (!bound.isEmpty))
  else s

/-- A slot takes FORCE_COLD; the bit clears with the last of them. -/
def takeForceCold (s : State) (k : Nat) : State :=
  let s := slotSet s k { slotGet s k with forceCold := false }
  if (List.range 32).any fun i => (slotGet s i).forceCold then s else s.fset pgSolv F.SOLV_CTRL_FORCE_COLD 0

/-- A host write waits for the page's latch phase (R19): a later one to the same register replaces it. -/
def holdWrite (s : State) (p off : Nat) (w : Word) : State :=
  s.modPage p fun x => { x with heldWrites := x.heldWrites.filter (fun h => h.1 ≠ off) ++ [(off, w)] }

/-- SOLV_FORCE_COLD (R278): a host write of SOLV_CTRL with FORCE_COLD = 1, held until the base-period start that follows. -/
def execSolvForceCold (part : Nat) (data : Word) (s : State) : Host.Outcome State Fault Refusal :=
  nxt (pageWrite s part pgSolv fun s => holdWrite s pgSolv F.SOLV_CTRL_FORCE_COLD.off (data ||| 2))

/-- The jobs a delta tick takes (R254): in admission order while the total stays within DELTA_MAX, none staged at the tick itself (R280). -/
def takeJobs (s : State) (tick : Nat) : Nat → List StagedDelta → List StagedDelta
  | _, [] => []
  | room, d :: ds =>
    if d.pairs.length ≤ room ∧ d.tick < tick then d :: takeJobs s tick (room - d.pairs.length) ds else []

/-- The staged jobs of a slot in admission order. -/
def stagedOrder (s : State) (k : Nat) : List StagedDelta :=
  let seq := fun (d : StagedDelta) => match jobGet s d.job with
    | some x => x.seq
    | none => 0
  (slotGet s k).staged.foldl (fun (l : List StagedDelta) d =>
    let (a, b) := l.span fun o => decide (seq o ≤ seq d)
    a ++ d :: b) []

/-- DELTA_TICK (R254, Table 8.8): DELTA_MAX + 32 ticks before a start S of the slot. An ON_DEMAND slot runs only for a waiting SOLV_RUN. -/
def execDeltaTick (slot start : Nat) (s : State) : Host.Outcome State Fault Refusal :=
  let y := slotGet s slot
  nxt <| match y.image, binding s slot with
    | some m, some b =>
      let busy : Bool := match y.solve with
        | some v => decide (start ≤ v.start) || !v.finished
        | none => false
      match solveStart s b start with
      | none => s
      | some bpn =>
        if busy ∨ start < m.deltaMax + 32 ∨ (bKind b = 1 ∧ y.run.isNone) then s
        else
          let tick := start - (m.deltaMax + 32)
          let s := s.reach tick
          let gone := y.staged.filter fun d => match startedJob s d.job 0x80 with
            | some j => j.cancel
            | none => false
          let s := eachIn gone (fun s d => jobDone (unstage s slot d.job) d.job stCancelled 0) s
          let took := takeJobs s tick m.deltaMax (stagedOrder s slot)
          let s := eachIn took (fun s d => jobDone (unstage s slot d.job) d.job stOk (bpn % 2 ^ 32)) s
          let host := took.flatMap (·.pairs)
          let v : Solve := { start := start, bpn := bpn, host := host, pairs := host.length,
                             refactor := host.any fun p => decide (m.matBase ≤ p.1) && decide (p.1 < m.matEnd),
                             conds := if took = [] then 0 else 2 ^ 14 }
          slotSet s slot { slotGet s slot with solve := some v, ranOut := false }
    | _, _ => s

/-- A report of a slot as the sequencer reads it (R251, R252): its lanes, none in a lane that is poisoned, and none at all where it has not
arrived since it was read last. -/
def readReport (s : State) (slot kind n : Nat) : Option (List (Option Nat)) :=
  let since := (slotGet s slot).readAt.get 0 kind
  let regs := (List.range n).map fun i => s.solver.reports.find? (64 * slot + 16 * kind + i)
  if regs.any fun r => match r with
      | some (_, t) => decide (t < since)
      | none => true
  then none
  else some (regs.map fun r => match r with
    | some (d, _) => if d.poison then none else some (d.val.toNat % 2 ^ 45)
    | none => none)

/-- Note that the sequencer has read a report. -/
def noteRead (s : State) (slot kind : Nat) : State :=
  let y := slotGet s slot
  slotSet s slot { y with readAt := y.readAt.set 0 kind (s.now + 1) }

/-- All lanes are good. -/
def goodLanes (r : Option (List (Option Nat))) : Option (List Nat) :=
  match r with
  | none => none
  | some l => if l.all Option.isSome then some (l.map fun x => x.getD 0) else none

/-- A missing report is captured (R251). -/
def lateReport (s : State) (r : Option (List (Option Nat))) : State := if r.isNone then capture s pgSolv 0x0F02 0 0 else s

/-- Run-ahead applies to the solve (R270). -/
def runsAhead (y : SolvSlot) (m : Simg) (b : BitVec 256) : Bool := decide (1 ≤ m.runahead) && bKind b == 0 && y.ahead && y.warm

/-- The measure d of the window test (R271). -/
def windowDist (m : Simg) (ms ps : List Nat) : Nat :=
  (List.range m.measLen).foldl (fun d e => fxMax d (fxAbs (fxMulPass 3 (m.weights.getD e 0) (fxSub (ms.getD e 0) (ps.getD e 0))))) 0

/-- The verdict (R271). -/
def verdictOf (y : SolvSlot) (m : Simg) (v : Solve) (ms ps : Option (List Nat)) : Verdict :=
  match ms, ps with
  | some ms, some ps =>
    let d := windowDist m ms ps
    if (fxVal d).isNan ∨ v.refactor ∨ y.forceCold then .squash
    else if fxLe d m.winKeep then .commit
    else if fxLe d m.winCorr then .corrected else .squash
  | _, _ => .squash

/-- WINDOW_TEST (R271): at S − 28 the reports are read and the verdict is fixed. -/
def execWindowTest (slot : Nat) (s : State) : Host.Outcome State Fault Refusal :=
  let y := slotGet s slot
  nxt <| match y.image, binding s slot, y.solve with
    | some m, some b, some v =>
      if v.tested ∨ v.finished then s
      else
        let s := s.reach (v.start - 28)
        let mr := if m.measLen = 0 then some [] else readReport s (bMeas b) 3 m.measLen
        let s := lateReport s mr
        let ahead := runsAhead y m b
        let pr := if ahead then readReport s slot 2 m.measLen else some []
        let s := if ahead then noteRead (lateReport s pr) slot 2 else s
        let ms := goodLanes mr
        let v := { v with tested := true, meas := ms, verdict := if ahead then some (verdictOf y m v ms (goodLanes pr)) else none }
        slotSet s slot { slotGet s slot with solve := some v }
    | _, _, _ => s

/-- Pairs applied to the parameter vector in their order (R253). -/
def applyPairs (t : Tab Nat) (ps : List (Nat × Nat)) : Tab Nat := ps.foldl (fun (t : Tab Nat) p => t.set 0 p.1 p.2) t

/-- The MEAS deltas (R255). -/
def measPairs (m : Simg) (ms : List Nat) : List (Nat × Nat) :=
  (List.range m.measLen).flatMap fun e =>
    let w := m.meas.getD e 0
    let x := ms.getD e 0
    (bitsOf w 0 19, x) :: (if bitAt w 63 then [(bitsOf w 19 19, x)] else [])

/-- Send a datum on channel 15 to every tile of a group (R192, R273). -/
def sendGroup (s : State) (m : Simg) (lanes : List DWord) : State :=
  let ds := m.group.map fun p => ({ pos := p, chan := 15, lanes := lanes.map fun x => { val := x } } : MeshDatum)
  { s with facet := { s.facet with mesh := s.facet.mesh ++ ds } }

/-- Sixteen lanes from the first few. -/
def lanesOf (l : List Nat) : List DWord := (List.range 16).map fun i => BitVec.ofNat 64 (l.getD i 0)

/-- Two levels are open on the lead tile. -/
def twoLevels (s : State) (b : BitVec 256) : Bool :=
  match posTile s (bLead b) with
  | some i => decide ((tileGet s i).levels.length = 2)
  | none => false

/-- Saturating counts of verdicts and cold starts. -/
def countVerdict (s : State) : Option Verdict → State
  | some .squash => s.fincSat pgSolv F.SOLV_SPEC_CNT_SQUASHED 1
  | some _ => s.fincSat pgSolv F.SOLV_SPEC_CNT_KEPT 1
  | none => s

/-- VERDICT_SEND (R271, R272, R256, R257): START or the verdict goes out, the deltas apply, and the caps are fixed. -/
def execVerdictSend (slot : Nat) (s : State) : Host.Outcome State Fault Refusal :=
  let y := slotGet s slot
  nxt <| match y.image, binding s slot, y.solve with
    | some m, some b, some v =>
      if ¬ v.tested ∨ v.sent ∨ v.finished then s
      else
        let s := s.reach (v.start - 12)
        let cold := m.method != 2 && (!y.warm || y.forceCold)
        let kept := v.verdict = some .commit ∨ v.verdict = some .corrected
        let useMeas := v.verdict ≠ some .commit ∧ m.measLen ≠ 0
        let mp := if useMeas then (match v.meas with
          | some ms => measPairs m ms
          | none => []) else []
        let capC :=
          if v.verdict = some .commit then m.cap
          else if v.verdict = some .corrected then min m.cap (m.specIters + m.corrIters)
          else if cold then 4 * m.cap else m.cap
        let conds := v.conds
        let conds := if kept then conds ||| 2 ^ 10 else conds
        let conds := if v.verdict = some .corrected then conds ||| 2 ^ 11 else conds
        let conds := if v.verdict = some .squash then conds ||| 2 ^ 12 else conds
        let conds := if cold then conds ||| 1 else conds
        let conds := if useMeas ∧ v.meas.isNone then conds ||| 2 ^ 7 else conds
        let lanes := match v.verdict with
          | none => lanesOf [0, b2n cold, b2n v.refactor]
          | some .commit => lanesOf [1, 0, 0]
          | some .corrected => lanesOf [1, 1, b2n (twoLevels s b)]
          | some .squash => lanesOf [0, 0, 0]
        let s := sendGroup s m lanes
        let s := if y.forceCold then takeForceCold s slot else s
        let s := countVerdict s v.verdict
        let s := if cold then s.fincSat pgSolv F.SOLV_FB_CNT_COLD 1 else s
        let pairs := v.pairs + mp.length
        let v := { v with sent := true, cold := cold, conds := conds, capC := capC, iter := if kept then m.specIters else 0, pairs := pairs }
        let s := s.fset pgSolv (F.SOLV_SLOT2_DELTAS.sh (16 * slot)) pairs
        let s := s.setReg pgSolv (F.SOLV_SLOT3_BPN.off + 16 * slot) (BitVec.ofNat 32 v.bpn)
        let s := match y.run with
          | some j => (match jobGet s j with
            | some x => jobSet s j { x with stage := 100 }
            | none => s)
          | none => s
        let z := slotGet s slot
        slotSet s slot { z with
          solve := some v, params := applyPairs z.params (v.host ++ mp), guess := if cold then none else z.guess,
          pivoted := if v.refactor ∨ m.method ≠ 1 then false else z.pivoted }
    | _, _, _ => s

/-- Ticks of a block and the deadline limit (Table 8.8, "Checks, caps and the deadline"). -/
def blockTicks (m : Simg) : Nat := m.every * m.iterTicks + m.checkTicks
def deadlineLimit (m : Simg) (b : BitVec 256) : Nat :=
  let room := bSpan b - m.finalTicks - m.prepTicks
  if m.every = 0 then (if m.iterTicks = 0 then 4 * m.cap else room / m.iterTicks) else room / blockTicks m * m.every

/-- Conditions that a lost or halted tile of the group sets (R277), and the halt's code. -/
def groupTrouble (s : State) (m : Simg) : Nat × Nat :=
  let lost := m.group.any fun p => decide (p ∈ s.time.lost)
  let code := (m.group.filterMap fun p => match posTile s p with
    | some i => if (tileGet s i).halted then some (tileGet s i).haltCode else none
    | none => none).headD 0
  ((if lost then 2 ^ 9 else 0) + (if code ≠ 0 then 2 ^ 8 else 0), code)

/-- A command datum to the group (R251, R263, R277); its lane layout is open. -/
def sendCommand (s : State) (m : Simg) (stop keep fallback : Bool) : State :=
  sendGroup s m ((List.range 16).map (Config.solveCommand stop keep fallback))

/-- The certificates of R264. -/
def certPrimal (m : Simg) (r : List Nat) : Bool :=
  let h := r.getD 6 0
  let t := fxMulPass 3 m.epsPinf h
  m.method == 1 && fxLt 0 h && fxLe (r.getD 4 0) t && fxLe (r.getD 5 0) (fxNeg t)
def certDual (m : Simg) (r : List Nat) : Bool :=
  let h := r.getD 12 0
  let t := fxMulPass 3 m.epsDinf h
  m.method == 1 && fxLt 0 h && fxLe (r.getD 7 0) t && fxLe (r.getD 10 0) (fxNeg t) && fxLe (r.getD 11 0) t

/-- One quotient of the merit (R263). -/
def meritPart (r e : Nat) : Nat :=
  if fxEq r 0 ∧ fxEq e 0 then 0 else if fxEq e 0 then fmtFx45.infinity false else fxDiv r e

/-- The lanes of a report that carry FX45 numbers: lanes 8 and 9 carry integers, 13 to 15 are 0 (Table 8.10). -/
def numericLanes : List Nat := [0, 1, 2, 3, 4, 5, 6, 7, 10, 11, 12]

/-- A report lane is NaN or infinite (R263), the infinities of R264 included (assumption 20). -/
def isNumeric (r : List Nat) : Bool := numericLanes.any fun i => !fxFinite (r.getD i 0)

/-- The outcome of a check (R263, R265, R276): conditions to set, whether the solve stops, and KEEP with the new best merit
(DEDUCED, assumption 95). -/
def checkOutcome (m : Simg) (b : BitVec 256) (v : Solve) (r : List Nat) : Nat × Bool × Bool × Option Nat :=
  let iter := r.getD 9 0
  let piv := if r.getD 8 0 ≠ 0 then 2 else 0
  if isNumeric r then (2 ^ 6 + piv, true, false, v.best)
  else if fxLe (r.getD 0 0) (r.getD 1 0) ∧ fxLe (r.getD 2 0) (r.getD 3 0) then (piv, true, false, v.best)
  else
    let p := certPrimal m r
    let d := certDual m r
    if p ∨ d then ((if p then 2 ^ 4 else 0) + (if d then 2 ^ 5 else 0) + piv, true, false, v.best)
    else
      let mu := fxMax (meritPart (r.getD 0 0) (r.getD 1 0)) (meritPart (r.getD 2 0) (r.getD 3 0))
      let keep := match v.best with
        | none => true
        | some x => fxLt mu x
      let nd := deadlineLimit m b
      let stop := decide (min v.capC nd ≤ iter)
      ((if stop then (if v.capC ≤ nd then 2 ^ 2 else 2 ^ 3) else 0) + piv, stop, keep, if keep then some mu else v.best)

/-- SOLVE_CHECK (R251, R263, R277): the next check of the solve, 28 ticks after its report is stored (Table 8.16). -/
def execSolveCheck (slot : Nat) (s : State) : Host.Outcome State Fault Refusal :=
  let y := slotGet s slot
  nxt <| match y.image, binding s slot, y.solve with
    | some m, some b, some v =>
      if ¬ v.sent ∨ v.stopped ∨ v.finished ∨ m.every = 0 then s
      else
        let s := s.reach (v.start + m.prepTicks + v.checks * blockTicks m + m.every * m.iterTicks + 28)
        let (trouble, code) := groupTrouble s m
        let rep := readReport s slot 0 13
        let s := noteRead s slot 0
        if trouble ≠ 0 then
          let s := sendCommand s m true false true
          slotSet s slot { slotGet s slot with
            solve := some { v with conds := v.conds ||| trouble, haltCode := code, stopped := true, checks := v.checks + 1 } }
        else match goodLanes rep with
          | none =>
            let s := sendCommand (lateReport s rep) m false false false
            slotSet s slot { slotGet s slot with solve := some { v with conds := v.conds ||| 2 ^ 7, checks := v.checks + 1 } }
          | some r =>
            let (cs, stop, keep, best) := checkOutcome m b v r
            let conds := v.conds ||| cs
            let fb := stop && (conds &&& (0x3F0 ||| m.fbMask) != 0)
            let s := sendCommand s m stop keep fb
            let s := s.fset pgSolv (F.SOLV_SLOT2_ITER.sh (16 * slot)) (r.getD 9 0)
            let z := slotGet s slot
            slotSet s slot { z with
              pivoted := z.pivoted || decide (r.getD 8 0 ≠ 0),
              solve := some { v with conds := conds, stopped := stop, best := best, iter := r.getD 9 0, checks := v.checks + 1 } }
    | _, _, _ => s

/-- What a deadline adds to the conditions: an unchecked image runs N iterations and its FINAL report is tested for NUMERIC; a checked one that
has not stopped is cut (R265, R277). -/
def deadlineConds (s : State) (slot : Nat) (m : Simg) (b : BitVec 256) (v : Solve) : Nat × Nat × State :=
  if m.every ≠ 0 then ((if v.stopped then 0 else 2 ^ 3), v.iter, s)
  else
    let nd := deadlineLimit m b
    let rep := readReport s slot 1 13
    let s := noteRead (lateReport s rep) slot 1
    let cut := if v.capC ≤ nd then 0 else 2 ^ 3
    match goodLanes rep with
    | none => (cut + 2 ^ 7, min v.capC nd, s)
    | some r => (cut + (if isNumeric r then 2 ^ 6 else 0) + (if r.getD 8 0 ≠ 0 then 2 else 0), min v.capC nd, s)

/-- SOLVE_DEADLINE (R267 to R270): at D the sequencer sends the final command, shows the status and notes whether the next solve is warm.
The tiles store the output and the status word at S + SPAN. -/
def execSolveDeadline (slot : Nat) (s : State) : Host.Outcome State Fault Refusal :=
  let y := slotGet s slot
  nxt <| match y.image, binding s slot, y.solve with
    | some m, some b, some v =>
      if ¬ v.sent ∨ v.finished then s
      else
        let s := s.reach (v.start + bSpan b - m.finalTicks)
        let (trouble, code) := groupTrouble s m
        let (cut, iter, s) := deadlineConds s slot m b v
        let z := slotGet s slot
        let conds := v.conds ||| cut ||| trouble ||| (if z.pivoted then 2 else 0)
        let fb := conds &&& (0x3F0 ||| m.fbMask) != 0
        let conds := if fb then conds ||| 2 ^ 13 else conds
        let code := if v.haltCode ≠ 0 then v.haltCode else code
        let s := sendCommand s m true false fb
        let s := if fb then s.fincSat pgSolv F.SOLV_FB_CNT_FALLBACK 1 else s
        let st := primaryStatus conds code
        let s := s.setReg pgSolv (F.SOLV_SLOT1_STAT.off + 16 * slot) (BitVec.ofNat 32 (st + (conds % 2 ^ 16) * 2 ^ 16))
        let s := s.fset pgSolv (F.SOLV_SLOT2_ITER.sh (16 * slot)) iter
        let s := slotSet s slot { slotGet s slot with
          solve := some { v with conds := conds, haltCode := code, iter := iter, finished := true, stopped := true },
          warm := m.method != 2 && (conds &&& 0x3F0 == 0), ahead := s.fbit pgSolv F.SOLV_CTRL_RUNAHEAD_EN, ranOut := true }
        if conds &&& s.fget pgSolv F.SOLV_CTRL_IRQ_COND ≠ 0 then pageIrq s pgSolv 2 else s
    | _, _, _ => s

end Sys2Proof.Machine
end

