-- ==== Sys2Proof/Machine/FacetLoss.lean ====
section
/-! DEFINITION. Losing and remapping Facet tiles (R158 to R162, R171, R202, R209), missing markers (R43), and the tick of the next plan
epoch (R55). -/

namespace Sys2Proof.Machine

/-! ### Roles and the spare pool -/

/-- Values of FT_ROLE.ROLE (Table 6.14). -/
abbrev roleActive : Nat := 0
abbrev roleSpare : Nat := 1
abbrev roleLoading : Nat := 2
abbrev roleRetired : Nat := 3

def facetMod (s : State) (f : FacetSt → FacetSt) : State := { s with facet := f s.facet }
def tileRole (s : State) (i : Nat) : Nat := s.fget (pgFt + i) F.FT_ROLE_ROLE

/-- FMAP_STAT.SPARES and FMAP_SPARE follow the roles; SPARE_LAST when the spares fall to 1 ("FACET map page"). -/
def showSpares (s : State) : State :=
  let l := (List.range s.var.facetTiles).filter fun i => tileRole s i = roleSpare
  let old := s.fget pgFmap F.FMAP_STAT_SPARES
  let s := s.fset pgFmap F.FMAP_STAT_SPARES l.length
  let s := eachIn (List.range 3) (fun s w =>
    s.setReg pgFmap (F.FMAP_SPARE.off + 4 * w) (BitVec.ofNat 32 ((l.filter fun i => i / 32 = w).foldl (fun a i => a + 2 ^ (i % 32)) 0))) s
  if l.length = 1 ∧ 1 < old then pageIrq s pgFmap 2 else s

/-- Give a tile a role and a position. -/
def setRole (s : State) (i role pos : Nat) : State :=
  showSpares ((s.fset (pgFt + i) F.FT_ROLE_ROLE role).fset (pgFt + i) F.FT_ROLE_POSITION pos)

/-- Bind a position in FMAP_MAP to a tile, or show it VACANT (Tables 6.16 and 6.17). -/
def setMap (s : State) (p : Nat) (tile : Option Nat) : State :=
  let w := F.FMAP_MAP.off + 4 * (p / 4)
  let byte := match tile with
    | some i => i + 128
    | none => s.fget pgFmap ⟨w, 8 * (p % 4), 7⟩
  let s := s.fset pgFmap ⟨w, 8 * (p % 4), 8⟩ byte
  let v := F.FMAP_VACANT_LO.off + 4 * (p / 32)
  s.setReg pgFmap v (BitVec.ofNat 32 (natPutBit (s.reg pgFmap v).toNat (p % 32) tile.isNone))

/-- The in-service spare with the lowest physical page number (R158). -/
def lowestSpare (s : State) : Option Nat :=
  (List.range s.var.facetTiles).find? fun i => tileRole s i = roleSpare && !s.fbit (pgFt + i) F.PG_STAT_OUT_OF_SERVICE

/-- The base-period number of the first base-period start at least 800 ticks after a tick that begins a plan cycle (R55). -/
def epochFrom (s : State) (t : Nat) : Nat :=
  let p := s.time.period
  let k := max 1 ((t + 800 - s.time.startTick + p - 1) / p)
  let h := if s.time.plan.isSome then s.time.cycleH else 1
  let j := (planPos s + k) % h
  s.time.bpn.toNat + k + (h - j) % h

/-- A remap decision (R158, R202): the spare, if there is one, begins to load for the position. -/
def remapDecide (s : State) (p : Nat) : Option State :=
  match lowestSpare s with
  | none => none
  | some i =>
    let s := setMap (setRole s i roleLoading p) p (some i)
    let s := facetMod s fun x => { x with loads := x.loads ++ [{ pos := p, spare := i, since := s.now }], remapBpn := none }
    some ((s.fset pgFmap F.FMAP_STAT_REMAP_PENDING 1).fset pgFmap F.FMAP_STAT_EPOCH_FIXED 0)

/-- A lost position with no spare left (R161): captured, the robot stops, and the position is VACANT. -/
def sparesExhausted (s : State) (p : Nat) : State :=
  let s := setMap s p none
  planStopRobot (pageIrq (capture s pgFmap 0x0503 0 0) pgFmap 4)

/-- Remap a lost position, or run out of spares (R158, R161). -/
def remapLost (s : State) (p : Nat) : State := (remapDecide s p).getD (sparesExhausted s p)

/-- A position is VACANT (R202). -/
def posVacant (s : State) (p : Nat) : Bool := !posValid s p

/-- Every VACANT position is remapped while a spare is in service, and after it every position whose tile software has taken out (R202,
R162). -/
def remapVacant (s : State) : State :=
  let s := eachIn ((List.range s.var.facetExposed).filter (posVacant s)) (fun s p => (remapDecide s p).getD s) s
  let waits := s.facet.leaving.filterMap (tilePos s)
  let busy := fun (s : State) (p : Nat) => (s.facet.loads ++ s.facet.remaps).any fun r => r.pos = p
  eachIn waits (fun s p => if busy s p then s else (remapDecide s p).getD s) s

/-! ### Tiles that leave -/

/-- A tile stops: its program, its levels and every entry of its SSB are gone (R209). -/
def tileStop (s : State) (i : Nat) : State :=
  let x := tileGet s i
  tileSet s i { x with running := false, wait := none, tray := {}, delay := 0, target := none, levels := [], ssb := [], results := [] }

/-- The load or the remap of a spare that leaves starts again on the next spare (R160). -/
def restartLoad (s : State) (i : Nat) : State :=
  match (s.facet.loads ++ s.facet.remaps).find? fun r => r.spare = i with
  | none => s
  | some r =>
    let s := facetMod s fun x => { x with loads := x.loads.filter (fun y => y.spare ≠ i), remaps := x.remaps.filter (fun y => y.spare ≠ i) }
    match remapDecide s r.pos with
    | some s => s
    | none => if r.pos ∈ s.time.lost then sparesExhausted s r.pos else setMap s r.pos (posTile s r.pos)

/-- A Facet tile leaves service with FAULT = 1 (R158, R160, R162, R168). -/
def tileGone (s : State) (i : Nat) : State :=
  let role := tileRole s i
  let pos := tilePos s i
  let s := markOut (tileStop s i) (pgFt + i) true
  let s := facetMod (setRole s i roleRetired 0) fun x => { x with leaving := x.leaving.filter (· ≠ i) }
  if role = roleLoading then restartLoad (capture s pgFmap 0x0502 0 0) i
  else match pos with
    | none => s
    | some p =>
      if s.time.plan.isSome then
        let s := timeSet s { s.time with lost := p :: s.time.lost.filter (· ≠ p) }
        if (s.facet.loads ++ s.facet.remaps).any fun r => r.pos = p then s else remapLost s p
      else if (s.facet.loads ++ s.facet.remaps).any fun r => r.pos = p then s
      else setMap s p none

/-- A Facet tile fails (R158). `detail` is the block's. -/
def tileFail (s : State) (i detail : Nat) : State := tileGone (capture s (pgFt + i) 0x0501 0 detail) i

/-- FACET_TILE_FAIL (R158). -/
def execFacetTileFail (tile : Nat) (detail : Word) (s : State) : Host.Outcome State Fault Refusal :=
  nxt (if tile < s.var.facetTiles then tileFail s tile detail.toNat else s)

/-- Software takes a tile out of service (R162): one that holds a position works on until its remap (DEDUCED, assumption 50). -/
def tileLeave (s : State) (i : Nat) : State :=
  let s := s.fset (pgFt + i) F.PG_CTRL_IN_SERVICE 0
  match tilePos s i with
  | some _ => remapVacant (facetMod s fun x => { x with leaving := x.leaving.filter (· ≠ i) ++ [i] })
  | none =>
    let loading := tileRole s i = roleLoading
    let s := setRole (markOut (tileStop s i) (pgFt + i) false) i roleRetired 0
    if loading then restartLoad s i else s

/-- A tile whose self-test has passed rejoins as a spare with zeroed SRAM (Table 5.7), and a VACANT position takes it (R202). -/
def tileRejoin (s : State) (i : Nat) : State :=
  let s := markIn s (pgFt + i)
  let s := tileSet s i {}
  remapVacant (setRole s i roleSpare 0)

/-! ### Spare loads -/

/-- Data rates by MEMC_CFG.RATE (Table 15.11). -/
def memRate (rate : Nat) : Nat :=
  match rate with
  | 0 => 4267
  | 1 => 5500
  | 2 => 6400
  | 3 => 7500
  | _ => 8533

/-- Bound of a spare load in ticks (R159). -/
def spareLoadBound (s : State) : Nat := 24000 * 8533 / memRate (s.fget pgMemc F.MEMC_CFG_RATE)

/-- The epoch of the decided remaps is fixed (R55, R171), and with it that of a plan load that joins them (R69). -/
def fixRemap (s : State) : State :=
  let b := epochFrom s s.facet.loadedAt
  let s := facetMod s fun x => { x with remapBpn := some b }
  let s := (s.setReg64 pgFmap F.FMAP_EPOCH_LO.off F.FMAP_EPOCH_HI.off b).fset pgFmap F.FMAP_STAT_EPOCH_FIXED 1
  match s.time.next with
  | some e =>
    if e.joined then
      (timeSet s { s.time with next := some { e with bpn := b } }).setReg64 pgSolv F.SOLV_EPOCH_LO.off F.SOLV_EPOCH_HI.off b
    else s
  | none => s

/-- SPARE_LOAD_DONE (R159, R171): within its bound the load of a spare completes; with the last of them the epoch is fixed. -/
def execSpareLoadDone (tile tick : Nat) (s : State) : Host.Outcome State Fault Refusal :=
  nxt <| match s.facet.loads.find? fun r => r.spare = tile with
    | none => s
    | some r =>
      if r.since + spareLoadBound s < tick then s
      else
        let s := s.reach tick
        let s := facetMod s fun x => { x with loads := x.loads.filter (fun y => y.spare ≠ tile), remaps := x.remaps ++ [r], loadedAt := s.now }
        if s.facet.loads = [] then fixRemap s else s

/-- SPARE_LOAD_FAILED (R160): a read of the load returns a UE, or the spare fails; the spare leaves service and the next one loads
(DEDUCED, assumption 51). -/
def execSpareLoadFailed (tile : Nat) (ue : Bool) (s : State) : Host.Outcome State Fault Refusal :=
  nxt <| if (s.facet.loads.any fun r => r.spare = tile) ∧ tile < s.var.facetTiles then
    if ue then
      let s := setRole (markOut (tileStop s tile) (pgFt + tile) false) tile roleRetired 0
      restartLoad (capture s pgFmap 0x0502 0 0) tile
    else tileFail s tile 0
  else s

/-! ### Markers and base periods -/

/-- The LOOP island or the CLNK slot engine leaves service and the whole robot stops (R43, Table 5.4) (DEDUCED, assumption 58). -/
def islandGone (s : State) (i : Nat) : State :=
  let p := islandPage i
  let s := (s.fset p F.PG_STAT_OUT_OF_SERVICE 1).fset p F.PG_STAT_FAULT 1
  let s := if i = 68 then { s with loop := { s.loop with down := true } } else s
  planStopRobot s

/-- The LOOP island or the CLNK slot engine fails. -/
def islandFail (s : State) (i detail : Nat) : State := islandGone (capture s (islandPage i) 0x0501 0 detail) i

/-- MARKER_MISS (R43): 64 ticks after an island's copy passes a base-period start no marker has come; at a second miss in a row the island
goes out of service. -/
def execMarkerMiss (island : Nat) (s : State) : Host.Outcome State Fault Refusal :=
  let c := s.time.copies.get {} island
  let start := some s.time.startTick
  nxt <|
    if s.time.running ∧ ¬ asleep s ∧ islandBuilt s island ∧ c.valid ∧ c.marked ≠ start ∧ c.missed ≠ start
        ∧ ¬ s.fbit (islandPage island) F.PG_STAT_OUT_OF_SERVICE then
      let s := s.reach ((s.time.startTick : Int) + 64 - c.off).toNat
      let c := { c with misses := c.misses + 1, missed := start }
      let s := timeSet s { s.time with copies := s.time.copies.set {} island c }
      let s := capture s (islandPage island) 0x0F01 0 0
      if c.misses < 2 then s else if island < 68 then tileFail s island 0 else islandFail s island 0
    else s

/-- BASE_PERIOD_START (R37): at a start at position j = 0 the tiles that wait to rejoin do so (Table 5.7) (DEDUCED, assumption 59). -/
def execBasePeriodStart (s : State) : Host.Outcome State Fault Refusal :=
  nxt <| if ¬ s.time.running then s
  else
    let s := basePeriodStart s
    if planPos s = 0 then
      eachIn ((List.range s.var.facetTiles).filter fun i => (s.page (pgFt + i)).joining) tileRejoin s
    else s

end Sys2Proof.Machine
end

