-- ==== Sys2Proof/Machine/PlanCheck.lean ====
section
/-! DEFINITION. The checks of a plan image in their order: Tables 8.7, 9.2, 10.2, 11.15, 15.7 and 17.6. Each check answers true when the
plan breaks it. -/

namespace Sys2Proof
open Machine

/-- Some pair of entries at different places of a list meets a condition. -/
def anyPair {α : Type} (f : α → α → Bool) : List α → Bool
  | [] => false
  | x :: r => r.any (f x) || anyPair f r

namespace PlanImage

/-- Ticks of a plan cycle. -/
def cycle (p : PlanImage) : Nat := p.cycleH * p.period

/-! ### Chapter 8 -/

/-- A range of mirror words covers a word that R21 reserves. -/
def coversReserved (off len : Nat) : Bool := (List.range 16).any fun k =>
  (decide (off ≤ 512 * k) && decide (512 * k < off + len)) || (decide (off ≤ 512 * k + 511) && decide (512 * k + 511 < off + len))

/-- Check 1, FORMAT (R21, R249) (DEDUCED, assumption 53). -/
def badFormat (p : PlanImage) : Bool :=
  !p.formatOk || (p.bindings.any fun b => coversReserved (bMirrorOff b) (bMirrorLen b))
    || (p.releases.any fun r => decide (8192 ≤ r.reg) && decide (r.reg < 16384) && coversReserved (r.reg - 8192) 1)

/-- Check 2, PERIOD (R38). -/
def badPeriod (p : PlanImage) : Bool :=
  decide (p.period < 4000) || decide (800000 < p.period) || p.period % 16 != 0 || p.cycleH == 0 || decide (256 < p.cycleH)

/-- Insert a window in the order of starts. -/
def insertWindow (w : Nat × Nat) : List (Nat × Nat) → List (Nat × Nat)
  | [] => [w]
  | v :: r => if w.1 ≤ v.1 then w :: v :: r else v :: insertWindow w r

/-- Open time before each window's guard, from the end of the window before (Table 1.3). -/
def openTimeBad (last : Nat) : List (Nat × Nat) → Bool
  | [] => false
  | w :: r => decide (w.1 < last + 448) || openTimeBad (w.1 + w.2) r

/-- A channel's calendar breaks Table 1.3. -/
def calendarBad (period : Nat) (ws : List (Nat × Nat)) : Bool :=
  let l := ws.foldr insertWindow []
  match l, l.getLast? with
  | first :: rest, some z =>
    decide (16 < l.length) || (l.any fun w => decide (w.2 < 64) || decide (2400 < w.2) || decide (w.1 < 48) || decide (period < w.1 + w.2))
      || openTimeBad (first.1 + first.2) rest || decide (first.1 + period < z.1 + z.2 + 448)
      || decide (period < 2 * (l.map fun w => w.2 + 48).sum)
  | _, _ => false

/-- Check 3, CALENDAR (R25). -/
def badCalendar (p : PlanImage) : Bool := p.calendars.any (calendarBad p.period)

/-- Grain of a release register's island in ticks (R53). -/
def relGrain (reg : Nat) : Nat := if reg < 64 then 2 else if reg < 8192 then 16 else 1

/-- Two releases of one register come closer than 16 ticks over the plan cycle and its wrap, or are one instant (R665). -/
def releasesClose (p : PlanImage) (a b : PlanRelease) : Bool :=
  let ta := a.pos * p.period + a.phase
  let tb := b.pos * p.period + b.phase
  a.reg == b.reg && (decide (ringDist p.cycle ta tb < 16) || decide (ringDist p.cycle tb ta < 16))

/-- Check 4, PHASE_GRAIN (R53, R665). -/
def badGrain (p : PlanImage) : Bool :=
  (p.releases.any fun r => r.phase % relGrain r.reg != 0 || decide (p.period ≤ r.phase) || decide (p.cycleH ≤ r.pos))
    || (p.latches.any fun l => l.2 == 0 || l.1 % l.2 != 0 || decide (p.period ≤ l.1))
    || decide (p.period ≤ p.mirrorPhase) || (p.bindings.any fun b => bStart b % 4 != 0 || decide (p.period ≤ bStart b))
    || anyPair p.releasesClose p.releases

/-- The group of a bound slot, as its image gives it. -/
def groupOf (s : State) (b : BitVec 256) : List Nat := (slotImage s (bitsOf b 0 5)).group

/-- Check 5, FACET (R201). -/
def badFacet (s : State) (p : PlanImage) : Bool :=
  !facetAccepts s p.trayMajor p.tiles p.period || (p.bindings.any fun b => !(groupOf s b).all (posValid s))
    || (p.peerSends.any fun x => !posValid s x.2.1)

/-- Check 6, SLOT. -/
def badSlot (s : State) (p : PlanImage) : Bool :=
  (p.bindings.any fun b => (slotGet s (bitsOf b 0 5)).image.isNone) || anyPair (fun a b => bitsOf a 0 5 == bitsOf b 0 5) p.bindings

/-- Positions of the plan cycle at which an entry with J0 and RECUR is used (R246, R374). -/
def usedAt (p : PlanImage) (j0 recur : Nat) : List Nat :=
  (List.range p.cycleH).filter fun j => recur != 0 && (j + 256 * recur - j0) % recur == 0

/-- Starts of a binding's solves in the plan cycle. -/
def solveStarts (p : PlanImage) (b : BitVec 256) : List Nat := (p.usedAt (bJ0 b) (bRecur b)).map fun j => j * p.period + bStart b

/-- Two spans use one tile at the same tick. -/
def spansMeet (s : State) (p : PlanImage) (a b : BitVec 256) : Bool :=
  ((groupOf s a).any fun t => decide (t ∈ groupOf s b)) &&
    (p.solveStarts a).any fun x => (p.solveStarts b).any fun y =>
      decide (ringDist p.cycle x y < bSpan a) || decide (ringDist p.cycle y x < bSpan b)

/-- Check 7, SPAN (DEDUCED, assumption 54). -/
def badSpan (s : State) (p : PlanImage) : Bool :=
  (p.bindings.any fun b =>
    let m := slotImage s (bitsOf b 0 5)
    decide (bSpan b < m.prepTicks + m.finalTicks + blockTicks m)) || anyPair (p.spansMeet s) p.bindings

/-- Check 8, MEAS: for a slot with measured elements, MEAS_SRC is bound and a report of it arrives before S − 28 of every solve and after
that of the solve before (DEDUCED, assumption 52). -/
def badMeas (s : State) (p : PlanImage) : Bool := p.bindings.any fun b =>
  (slotImage s (bitsOf b 0 5)).measLen != 0 &&
    ((bindOf p (bMeas b)).isNone || (p.solveStarts b).any fun t =>
      !(p.measReports.any fun r => r.1 == bMeas b && decide (ringDist p.cycle (r.2 + 28) t < bRecur b * p.period)))

/-- Check 9, RECUR. -/
def badRecur (p : PlanImage) : Bool := p.bindings.any fun b =>
  bRecur b == 0 || p.cycleH % bRecur b != 0 || decide (bRecur b * p.period < bSpan b)

/-! ### Chapter 9 -/

/-- Entry of a channel: CH_SCHED, CH_NEST, CH_INPUTS and CH_ROUTE (R283); an entry that the image lacks is unscheduled. -/
def loopEntry (p : PlanImage) (c : Nat) : Word × Word × Word × Word := p.loops.getD c (0, 0, 0x3FFFFFFF, 0xFFFF)
def schedPhase (e : Word × Word × Word × Word) : Nat := bitsOf e.1 0 20
def schedDiv (e : Word × Word × Word × Word) : Nat := bitsOf e.1 20 3
def schedOuter (e : Word × Word × Word × Word) : Bool := bitAt e.1 23
def nestInner (e : Word × Word × Word × Word) : Nat := bitsOf e.2.1 0 5
def nestN (e : Word × Word × Word × Word) : Nat := bitsOf e.2.1 8 9
def nestLead (e : Word × Word × Word × Word) : Nat := bitsOf e.2.1 17 15
def selector (e : Word × Word × Word × Word) (k : Nat) : Nat := bitsOf e.2.2.1 (6 * k) 6
def route (e : Word × Word × Word × Word) (k : Nat) : Nat := bitsOf e.2.2.2 (8 * k) 8

/-- The channels that the schedule schedules. -/
def scheduled (p : PlanImage) : List Nat :=
  (List.range 32).filter fun c => schedDiv (p.loopEntry c) != 0 || schedOuter (p.loopEntry c)

/-- Check 0x10, LOOP_GRAIN. -/
def badLoopGrain (p : PlanImage) : Bool := p.scheduled.any fun c =>
  let e := p.loopEntry c
  schedPhase e % 2 != 0 || decide (p.period ≤ schedPhase e) || decide (5 ≤ schedDiv e)
    || (schedOuter e && (nestLead e % 2 != 0 || decide (nestLead e < 194) || decide (32766 < nestLead e) || nestN e == 0
      || decide (256 < nestN e)))

/-- A route value is not listed, or names what the part does not build. -/
def routeAbsent (v : Variant) (r : Nat) : Bool :=
  if r < 0x10 then decide (v.pwmPairs ≤ r) else if 0x40 ≤ r ∧ r < 0x60 then decide (v.loopChannels ≤ r - 0x40) else r != 0xFF

/-- A selector value is not listed, or names what the part does not build. -/
def selectorAbsent (v : Variant) (n : Nat) : Bool :=
  if n < 32 then decide (v.ainInputs ≤ n) else if n < 40 then decide (v.pinInputs ≤ n - 32) else n != 63

/-- Check 0x11, LOOP_ABSENT. -/
def badLoopAbsent (v : Variant) (p : PlanImage) : Bool :=
  (p.scheduled.any fun c =>
    let e := p.loopEntry c
    decide (v.loopChannels ≤ c) || (List.range 5).any (fun k => selectorAbsent v (selector e k))
      || routeAbsent v (route e 0) || routeAbsent v (route e 1))
    || p.releases.any fun r => decide (r.reg < 64) && decide (v.loopChannels ≤ r.reg)

/-- The channel that a route names. -/
def routeChan (r : Nat) : Option Nat := if 0x40 ≤ r ∧ r < 0x60 then some (r - 0x40) else none

/-- Depth of a channel above its innermost channel: none where it passes the fuel, as in a cycle. -/
def depth (p : PlanImage) : Nat → Nat → Option Nat
  | 0, _ => none
  | f + 1, c =>
    let e := p.loopEntry c
    ([route e 0, route e 1].filterMap routeChan).foldl (fun (best : Option Nat) t =>
      match best, depth p f t with
      | some b, some d => some (max b (d + 1))
      | _, _ => none) (some 0)

/-- First instant from the epoch and step of a channel's samples (R284, R285). -/
def instants (p : PlanImage) : Nat → Nat → Option (Nat × Nat)
  | 0, _ => none
  | f + 1, c =>
    let e := p.loopEntry c
    if schedOuter e then
      match instants p f (nestInner e) with
      | none => none
      | some (first, step) =>
        let step := step * nestN e
        let lead := nestLead e
        if step = 0 then none
        else some (first + (if lead ≤ first then 0 else (lead - first + step - 1) / step) * step - lead, step)
    else
      let d := if schedDiv e = 0 then 0 else 2 ^ (schedDiv e - 1)
      if d = 0 then none else some (schedPhase e, p.period / d)

/-- Every route of the scheduled entries that names something. -/
def allRoutes (p : PlanImage) : List Nat :=
  p.scheduled.flatMap fun c => [route (p.loopEntry c) 0, route (p.loopEntry c) 1].filter (· ≠ 0xFF)

/-- Check 0x12, LOOP_ROUTE. -/
def badLoopRoute (p : PlanImage) : Bool :=
  anyPair (· == ·) p.allRoutes || p.scheduled.any fun c =>
    let e := p.loopEntry c
    let t0 := routeChan (route e 0)
    let t1 := routeChan (route e 1)
    (!schedOuter e && (t0.isSome || t1.isSome)) || t0 == some c || t1 == some c
      || (match p.depth 33 c with | some d => decide (3 < d) | none => true)
      || (schedOuter e && (t0 != some (nestInner e) || !decide (nestInner e ∈ p.scheduled)))
      || (match t0, t1 with | some a, some b => p.instants 5 a != p.instants 5 b | _, _ => false)

/-- Two trains of instants hold two different instants less than 288 ticks apart. -/
def trainsClose (a b : Nat × Nat) : Bool :=
  let g := Nat.gcd a.2 b.2
  let r := ringDist g a.1 b.1
  if g = 0 then false else if r = 0 then decide (g < 288) else decide (r < 288) || decide (g - r < 288)

/-- Check 0x13, LOOP_ADC. -/
def badLoopAdc (p : PlanImage) : Bool := (List.range 32).any fun ain =>
  let l := (p.scheduled.filter fun c => (List.range 5).any fun k => selector (p.loopEntry c) k == ain).filterMap (p.instants 5)
  l.any (fun a => trainsClose a a) || anyPair trainsClose l

/-! ### Chapter 10 -/

/-- PWM entry of a pair, and its samples per base period; 0 where it is unscheduled. -/
def pwmEntry (p : PlanImage) (n : Nat) : Word := p.pwms.getD n 0
def pwmDiv (p : PlanImage) (n : Nat) : Nat := bitsOf (p.pwmEntry n) 20 3
def pwmPairsOf (p : PlanImage) : List Nat := (List.range 16).filter fun n => p.pwmDiv n != 0

/-- Check 0x18, PWM_GRAIN. -/
def badPwmGrain (p : PlanImage) : Bool := p.pwmPairsOf.any fun n =>
  let ph := bitsOf (p.pwmEntry n) 0 20
  decide (5 ≤ p.pwmDiv n) || ph % 2 != 0 || decide (p.period / 2 ^ (p.pwmDiv n - 1) ≤ ph)

/-- Check 0x19, PWM_ABSENT. -/
def badPwmAbsent (v : Variant) (p : PlanImage) : Bool := p.pwmPairsOf.any fun n => decide (v.pwmPairs ≤ n)

/-- Check 0x1A, PWM_ROUTE. -/
def badPwmRoute (p : PlanImage) : Bool := p.allRoutes.any fun r => decide (r < 0x10) && p.pwmDiv r == 0

/-- The channel that routes to a pair. -/
def routerOf (p : PlanImage) (n : Nat) : Option Nat :=
  p.scheduled.find? fun c => route (p.loopEntry c) 0 == n || route (p.loopEntry c) 1 == n

/-! ### Chapter 11 -/

/-- The ports with their valid entries. -/
def portEntries (p : PlanImage) : List (Nat × List (BitVec 128)) :=
  (List.range p.slotTables.length).map fun k => (k, (planSlots p k).map Prod.snd)

/-- An entry of any port meets a condition. -/
def anyEntry (p : PlanImage) (f : Nat → BitVec 128 → Bool) : Bool := p.portEntries.any fun x => x.2.any (f x.1)

/-- Check 0x20, CLNK_GRAIN. -/
def badSlotGrain (p : PlanImage) : Bool := p.anyEntry fun _ e =>
  p.period % 32 != 0 || seStart e % 32 != 0 || (!seTx e && seClose e % 32 != 0) || seRecur e == 0 || p.cycleH % seRecur e != 0

/-- Check 0x21, CLNK_ABSENT. -/
def badSlotAbsent (v : Variant) (p : PlanImage) : Bool :=
  (p.anyEntry fun port e => decide (v.clnkPorts ≤ port)
    || (!seTx e && (decide (v.facetExposed ≤ seTile0 e) || (seTwo e && decide (v.facetExposed ≤ seTile1 e)))))
    || p.releases.any fun r => decide (64 ≤ r.reg) && decide (r.reg < 8192) && decide (v.clnkPorts ≤ (r.reg - 64) / 32)

/-- Ticks of the frame that a port sends for an entry: CYC_DOWN, or the SYNC of an RX window. -/
def frameTicks (e : BitVec 128) : Nat := 32 * ((if seTx e then 16 * seBufCount e else 0) + 14)

/-- Two frames of a port come closer than 4 code groups over the plan cycle. -/
def framesClose (p : PlanImage) (a b : BitVec 128) : Bool :=
  (p.usedAt (seJ0 a) (seRecur a)).any fun j => (p.usedAt (seJ0 b) (seRecur b)).any fun k =>
    let x := j * p.period + seStart a
    let y := k * p.period + seStart b
    decide (ringDist p.cycle x y < frameTicks a + 128) || decide (ringDist p.cycle y x < frameTicks b + 128)

/-- Check 0x22, CLNK_OVERLAP. -/
def badSlotOverlap (p : PlanImage) : Bool :=
  (p.anyEntry fun _ e =>
    (if seTx e then decide (p.period < seStart e + frameTicks e)
     else decide (seClose e ≤ seStart e + 448) || decide (p.period < seClose e))
      || decide (seRecur e * p.period < frameTicks e + 128))
    || p.portEntries.any fun x => anyPair p.framesClose x.2

/-- A release of a buffer word comes later than START − 128 of the entry that sends it in that base period. -/
def wordLate (p : PlanImage) (port : Nat) (e : BitVec 128) : Bool := p.releases.any fun r =>
  decide (64 + 32 * port ≤ r.reg) && decide (r.reg < 64 + 32 * port + 32)
    && decide (seBufFirst e ≤ (r.reg - 64) % 32 / 2) && decide ((r.reg - 64) % 32 / 2 < seBufFirst e + seBufCount e)
    && decide (r.pos ∈ p.usedAt (seJ0 e) (seRecur e)) && decide (seStart e < r.phase + 128)

/-- Check 0x23, CLNK_BUF. -/
def badSlotBuf (p : PlanImage) : Bool :=
  (p.anyEntry fun port e => seTx e && (seBufCount e == 0 || decide (16 < seBufFirst e + seBufCount e) || p.wordLate port e))
    || p.portEntries.any fun x => anyPair (fun a b =>
        decide (seBufFirst a < seBufFirst b + seBufCount b) && decide (seBufFirst b < seBufFirst a + seBufCount a)) (x.2.filter seTx)

/-- A peer send to a tile and channel within 32 ticks of a tick. -/
def peerNear (p : PlanImage) (tile ch tick : Nat) : Bool := p.peerSends.any fun x =>
  x.2.1 == tile && x.2.2.1 == ch && decide (x.2.2.2 ≤ tick + 32) && decide (tick ≤ x.2.2.2 + 32)

/-- Check 0x24, CLNK_DELIVER. -/
def badSlotDeliver (p : PlanImage) : Bool := p.anyEntry fun _ e => !seTx e &&
  (seCh0 e == 15 || p.peerNear (seTile0 e) (seCh0 e) (seClose e)
    || (seTwo e && (seCh1 e == 15 || p.peerNear (seTile1 e) (seCh1 e) (seClose e))))

/-! ### Chapters 15 and 17 -/

/-- Check 0x28, MEMC_RATE. -/
def badRate (s : State) (p : PlanImage) : Bool := decide (s.fget pgMemc F.MEMC_CFG_RATE < p.minRate)

/-- Check 0x29, MEMC_CHANNEL. -/
def badChannel (s : State) (p : PlanImage) : Bool := (List.range p.calendars.length).any fun c =>
  !(p.calendars.getD c []).isEmpty && (decide (s.var.memcChannels ≤ c) || s.fbit (pgMemc + 2 * c) F.PG_STAT_OUT_OF_SERVICE)

/-- The positions that a stretch of ticks of the plan cycle touches. -/
def touched (p : PlanImage) (from_ to_ : Int) : List Nat :=
  let a := from_ / (p.period : Int)
  let n := (to_ / (p.period : Int) - a).toNat + 1
  (List.range (min n p.cycleH)).map fun (k : Nat) => ((a + (k : Int)) % (p.cycleH : Int)).toNat

/-- A position holds an action of R561. -/
def busyAt (s : State) (p : PlanImage) (j : Nat) : Bool :=
  !p.scheduled.isEmpty || !p.pwmPairsOf.isEmpty || (p.releases.any fun r => r.pos == j)
    || (p.anyEntry fun _ e => decide (j ∈ p.usedAt (seJ0 e) (seRecur e)))
    || p.bindings.any fun b => (p.solveStarts b).any fun (t : Nat) =>
        decide (j ∈ p.touched ((t : Int) - ((slotImage s (bitsOf b 0 5)).deltaMax + 32 : Nat)) (t + bSpan b : Nat))

/-- Check 0x30, POWER_MAP (R576). -/
def badPowerMap (s : State) (p : PlanImage) : Bool :=
  match p.workMap with
  | none => true
  | some m => (List.range p.cycleH).any fun j => !natBit m j && p.busyAt s j

/-- The checks in their order, each with its number. -/
def checks (s : State) (p : PlanImage) : List (Nat × Bool) :=
  [(1, p.badFormat), (2, p.badPeriod), (3, p.badCalendar), (4, p.badGrain), (5, p.badFacet s), (6, p.badSlot s), (7, p.badSpan s),
   (8, p.badMeas s), (9, p.badRecur), (0x10, p.badLoopGrain), (0x11, p.badLoopAbsent s.var), (0x12, p.badLoopRoute),
   (0x13, p.badLoopAdc), (0x18, p.badPwmGrain), (0x19, p.badPwmAbsent s.var), (0x1A, p.badPwmRoute), (0x20, p.badSlotGrain),
   (0x21, p.badSlotAbsent s.var), (0x22, p.badSlotOverlap), (0x23, p.badSlotBuf), (0x24, p.badSlotDeliver), (0x28, p.badRate s),
   (0x29, p.badChannel s), (0x30, p.badPowerMap s)]

/-- The first check that a plan fails (R249, R286, R319, R375, R526, R576); 0 when it passes them all. -/
def firstFailed (s : State) (p : PlanImage) : Nat :=
  match (p.checks s).find? fun c => c.2 with
  | some c => c.1
  | none => 0

end PlanImage

end Sys2Proof
end

