-- ==== Sys2Proof/Machine/Lens.lean ====
section
/-! DEFINITION. Lens arithmetic (R221 to R233, R238): operand formats, the aligned block sum, the pairwise tree, the vector unit's
helpers and the conversions of Table 7.16. Every function answers its result with whether a flush replaced a non-zero value
(R229, R230). -/

namespace Sys2Proof.Machine

/-- The operand formats of a Lens dot product (Table 7.1). An ELB4 element is read with its scale byte. -/
inductive LensFmt where
  | e4m3 | e5m2 | elx6 | int8
  | elb4 (scale : Nat)
  deriving DecidableEq, Repr

/-- A floating-point element of `fb` mantissa and `eb` exponent bits (Tables 7.8 and 7.9), with the flush rule. -/
def lensFloat (fb eb bias : Nat) (flush : Bool) (x : Nat) : FVal × Bool :=
  let s := x.testBit (fb + eb)
  let ex := (x >>> fb) % 2 ^ eb
  let fr := x % 2 ^ fb
  if ex = 0 then
    if flush && fr != 0 then (.fin s 0 0, true) else (.fin s fr (1 - (bias : Int) - fb), false)
  else (.fin s (2 ^ fb + fr) ((ex : Int) - bias - fb), false)

/-- An operand as a value (Table 7.9, R223, R224). -/
def lensVal (f : LensFmt) (flush : Bool) (x : Nat) : FVal × Bool :=
  match f with
  | .e4m3 => if x % 128 = 127 then (.nan, false) else lensFloat 3 4 7 flush x
  | .e5m2 =>
    if 0x7C < x % 128 then (.nan, false) else if x % 128 = 0x7C then (.inf (x.testBit 7), false)
    else lensFloat 2 5 15 flush x
  | .elx6 => lensFloat 2 3 3 flush x
  | .int8 => (ofInt (toSigned 8 x), false)
  | .elb4 scale =>
    if scale = 255 then (.nan, false)
    else
      let q := toSigned 4 x
      (.fin (decide (q < 0)) q.natAbs ((scale : Int) - 127), false)

/-- Two formats may meet in one dot product (R224). -/
def lensPairOk (a b : LensFmt) : Bool := (a = .int8) = (b = .int8)

/-- An ELX6 element of a packed run of bytes (R222). -/
def elx6At (bytes : List Byte) (k : Nat) : Nat := leNat ((bytes.drop (3 * (k / 4))).take 3) / 2 ^ (6 * (k % 4)) % 64

/-- An element of a 17-byte ELB4 scale block (R223). -/
def elb4At (block : List Byte) (k : Nat) : Nat := (block.getD (1 + k / 2) 0).toNat / 2 ^ (4 * (k % 2)) % 16

/-- The leading exponent of a finite non-zero product (R226). -/
def prodLead : FVal → Option Int
  | .fin _ m e => if m = 0 then none else some (leadExp m e)
  | _ => none

/-- A product truncated to multiples of `2^u`, with its sign (R226). -/
def prodTrunc (u : Int) : FVal → Int
  | .fin s m e =>
    let t : Nat := if u ≤ e then shlInt m (e - u) else m >>> (u - e).toNat
    if s then -(t : Int) else t
  | _ => 0

/-- The sum of a reduction block from its products (R226, R227), before any flush. -/
def blockSumF (ps : List FVal) : FVal :=
  if ps.any FVal.isNan || (ps.contains (.inf false) && ps.contains (.inf true)) then .nan
  else if ps.contains (.inf false) then .inf false
  else if ps.contains (.inf true) then .inf true
  else match ps.filterMap prodLead with
    | [] => .fin false 0 0
    | x :: xs =>
      let u := xs.foldl max x - 17
      let t := (ps.map (prodTrunc u)).sum
      if t = 0 then .fin false 0 0 else .fin (decide (t < 0)) t.natAbs u

/-- The block sum of a reduction block of operand pairs, as binary32. -/
def blockSum (flush : Bool) (fa fb : LensFmt) (ops : List (Nat × Nat)) : Nat × Bool :=
  let a := ops.map fun o => lensVal fa flush o.1
  let b := ops.map fun o => lensVal fb flush o.2
  let r := b32Flush flush (b32 (blockSumF (List.zipWith (fun x y => mulF x.1 y.1) a b)))
  (r.1, a.any Prod.snd || b.any Prod.snd || r.2)

/-- One level of the pairwise tree. -/
def treeLevel (flush : Bool) : List Nat → List Nat × Bool
  | a :: b :: r =>
    let s := b32Add flush a b
    let t := treeLevel flush r
    (s.1 :: t.1, s.2 || t.2)
  | l => (l, false)

/-- The levels of the pairwise tree. -/
def treeFrom (flush : Bool) : Nat → List Nat → List Nat × Bool
  | 0, l => (l, false)
  | n + 1, l => match l with
    | [] => (l, false)
    | [_] => (l, false)
    | _ =>
      let t := treeLevel flush l
      let u := treeFrom flush n t.1
      (u.1, t.2 || u.2)

/-- The pairwise tree (R228). -/
def pairwise (flush : Bool) (l : List Nat) : Nat × Bool :=
  let t := treeFrom flush l.length l
  (t.1.headD 0, t.2)

/-- The reduction blocks of a dot product: runs of 32 operand pairs (R225). -/
def reductionBlocks : Nat → List (Nat × Nat) → List (List (Nat × Nat))
  | 0, _ => []
  | n + 1, l => if l.isEmpty then [] else l.take 32 :: reductionBlocks n (l.drop 32)

/-- A dot product of one format per operand (R225 to R228). -/
def dotProduct (flush : Bool) (fa fb : LensFmt) (ops : List (Nat × Nat)) : Nat × Bool :=
  let sums := (reductionBlocks ops.length ops).map (blockSum flush fa fb)
  let t := pairwise flush (sums.map Prod.fst)
  (t.1, sums.any Prod.snd || t.2)

/-- Apply an operation to every element of a row. -/
def rowMap (f : Nat → Nat × Bool) (l : List Nat) : List Nat × Bool :=
  let r := l.map f
  (r.map Prod.fst, r.any Prod.snd)

/-- The maximum of a row. -/
def rowMax (flush : Bool) : List Nat → Nat × Bool
  | [] => (fmtB32.infinity true, false)
  | x :: xs => xs.foldl (fun m y => let r := b32Max flush m.1 y; (r.1, m.2 || r.2)) (x, false)

/-- The softmax helper (R232). -/
def softmax (flush : Bool) (row : List Nat) : List Nat × Bool :=
  if row.all (fun x => b32Val x = .inf true) then (row.map fun _ => 0, false)
  else
    let m := rowMax flush row
    let d := rowMap (fun x => b32SubOp flush x m.1) row
    let z := rowMap (fun x => b32Mul flush x 0x3FB8AA3B) d.1
    let e := rowMap (b32Exp2 flush) z.1
    let s := pairwise flush e.1
    let r := b32Rcp flush s.1
    let y := rowMap (fun x => b32Mul flush x r.1) e.1
    (y.1, m.2 || d.2 || z.2 || e.2 || s.2 || r.2 || y.2)

/-- The normalisation helper in its RMS mode (R233). -/
def normRms (flush : Bool) (row gain : List Nat) (eps : Nat) : List Nat × Bool :=
  let sq := rowMap (fun x => b32Mul flush x x) row
  let t := pairwise flush sq.1
  let rn := b32Rcp flush (b32 (ofInt row.length))
  let q := b32Mul flush t.1 rn.1
  let qe := b32Add flush q.1 eps
  let r := b32Rsqrt flush qe.1
  let xr := rowMap (fun x => b32Mul flush x r.1) row
  let y := List.zipWith (fun a g => b32Mul flush a g) xr.1 gain
  (y.map Prod.fst, sq.2 || t.2 || rn.2 || q.2 || qe.2 || r.2 || xr.2 || y.any Prod.snd)

/-- The normalisation helper in its MEAN mode (R233). -/
def normMean (flush : Bool) (row gain : List Nat) (eps : Nat) : List Nat × Bool :=
  let t := pairwise flush row
  let rn := b32Rcp flush (b32 (ofInt row.length))
  let mu := b32Mul flush t.1 rn.1
  let c := rowMap (fun x => b32SubOp flush x mu.1) row
  let y := normRms flush c.1 gain eps
  (y.1, t.2 || rn.2 || mu.2 || c.2 || y.2)

/-! ### Conversions -/

/-- A Lens element as binary32. -/
def lensToB32 (f : LensFmt) (flush : Bool) (x : Nat) : Nat × Bool :=
  let v := lensVal f flush x
  let r := b32Flush flush (b32 v.1)
  (r.1, v.2 || r.2)

/-- The magnitude code of a finite value in a format of `fb` and `eb` bits whose largest finite code is `top`. -/
def lensCode (fb bias top m : Nat) (e : Int) : Nat :=
  if m = 0 then 0
  else
    let low : Int := 1 - (bias : Int) - fb
    let u := max (leadExp m e - fb) low
    let n := roundAt m e u false
    let code : Nat := if n < 2 ^ fb then n else (u - low).toNat * 2 ^ fb + n
    min code top

/-- binary32 to a Lens floating-point format with its overflow, infinity and NaN codes (Table 7.16). -/
def b32ToLensFloat (fb eb bias top infCode nanCode : Nat) (flush : Bool) (x : Nat) : Nat × Bool :=
  let fx := b32Flush flush x
  let sgn := fun s : Bool => if s then 2 ^ (fb + eb) else 0
  match b32Val fx.1 with
  | .nan => (nanCode, fx.2)
  | .inf s => (sgn s + infCode, fx.2)
  | .fin s m e =>
    let c := lensCode fb bias top m e
    if flush && c != 0 && decide (c < 2 ^ fb) then (sgn s, true) else (sgn s + c, fx.2)

/-- binary32 to E4M3, E5M2, ELX6 and INT8. -/
def b32ToLens (f : LensFmt) (flush : Bool) (x : Nat) : Nat × Bool :=
  match f with
  | .e4m3 => b32ToLensFloat 3 4 7 0x7E 0x7E 0x7F flush x
  | .e5m2 => b32ToLensFloat 2 5 15 0x7B 0x7C 0x7F flush x
  | .elx6 => b32ToLensFloat 2 3 3 0x1F 0x1F 0 flush x
  | .int8 =>
    let fx := b32Flush flush x
    match b32Val fx.1 with
    | .nan => (0, fx.2)
    | .inf s => (if s then 0x80 else 0x7F, fx.2)
    | v => (ofSigned 8 (max (-128) (min ((rneInt v 0).getD 0) 127)), fx.2)
  | .elb4 scale =>
    let fx := b32Flush flush x
    (ofSigned 4 (max (-8) (min ((rneInt (b32Val fx.1) (127 - (scale : Int))).getD 0) 7)), fx.2)

/-- The magnitude of a finite value as a comparable pair. -/
def magLead (v : FVal) : Option Int := prodLead v

/-- 32 binary32 values to an ELB4 scale block: its scale byte and elements (R238). -/
def b32ToElb4 (flush : Bool) (vs : List Nat) : (Nat × List Nat) × Bool :=
  let f := rowMap (b32Flush flush) vs
  let vals := f.1.map b32Val
  if vals.any (fun v => v.isNan || v = .inf true || v = .inf false) then ((255, vs.map fun _ => 0), f.2)
  else match vals.filterMap magLead with
    | [] => ((0, vs.map fun _ => 0), f.2)
    | l :: ls =>
      let x := (max 0 (min (ls.foldl max l + 125) 254)).toNat
      ((x, f.1.map fun v => (b32ToLens (.elb4 x) flush v).1), f.2)

end Sys2Proof.Machine
end

