-- ==== Sys2Proof/Machine/Queue.lean ====
section
/-! DEFINITION. Queue pairs: pushes, doorbells, ring reads, admission, readiness, completions, interrupts, and the QE admin commands
(chapter 4). -/

namespace Sys2Proof.Machine

/-! ### The rings -/

/-- Ring sizes in entries (QP_SIZE). -/
def sqSize (s : State) (q : Nat) : Nat := 2 ^ qpF s q F.QP_SIZE_SQ_LOG2
def cqSize (s : State) (q : Nat) : Nat := 2 ^ qpF s q F.QP_SIZE_CQ_LOG2

/-- The ring source covers index `i` (R100, R101). -/
def ringCovers (s : State) (q i : Nat) : Bool :=
  let x := qpGet s q
  decide (ringDist (sqSize s q) x.sqHead i < x.ringLeft)

/-- The index a push to a slot is held for (R101). -/
def pushIndex (s : State) (q slot : Nat) : Nat :=
  let h := (qpGet s q).sqHead
  (h + ringDist 4 h slot) % sqSize s q

/-- QE drops a push (R101). -/
def pushDropped (s : State) (q part : Nat) : State :=
  let s := s.fincSat (qpPage q) (F.QP_COUNTS_PUSH_DROPPED.sh (qpOff q)) 1
  capture s (qpPage q) 0x0413 part q

/-- A 64-byte write to a push slot (R98, R101). -/
def pushAt (s : State) (part q slot : Nat) (e : BitVec 512) : State :=
  if qpOwner s q ≠ some part then foreign s part q true
  else
    let x := qpGet s q
    if x.state ≠ .active then pushDropped s q part
    else if (x.pushes.find? (slot % 4)).isSome || ringCovers s q (pushIndex s q slot) then pushDropped s q part
    else qpSet s q { x with pushes := x.pushes.ins (slot % 4) e }

/-- PUSH. -/
def execPush (part qp slot : Nat) (entry : BitVec 512) (s : State) : Host.Outcome State Fault Refusal :=
  nxt (hostReady s fun s => pushAt s part qp slot entry)

/-- A doorbell write touched bytes other than the doorbells (R98). -/
def pushFragment (s : State) (part q : Nat) : State := capture s (qpPage q) 0x0414 part q

/-- Held pushes whose index the ring comes to cover are dropped (R101). -/
def dropCovered (s : State) (part q : Nat) : List Nat → State
  | [] => s
  | slot :: r =>
    let x := qpGet s q
    if (x.pushes.find? slot).isSome && ringCovers s q (pushIndex s q slot) then
      dropCovered (pushDropped (qpSet s q { x with pushes := x.pushes.del slot }) q part) part q r
    else dropCovered s part q r

/-- A doorbell value of the SQ (R103). -/
def sqDoorbellValue (s : State) (part q v : Nat) : State :=
  let x := qpGet s q
  if x.state ≠ .active then s
  else if sqSize s q ≤ v then
    capture (s.fincSat (qpPage q) (F.QP_COUNTS_DOORBELL_ERR.sh (qpOff q)) 1) (qpPage q) 0x0410 part q
  else
    let s := qpSet s q { x with sqDb := v, ringLeft := ringDist (sqSize s q) x.sqHead v }
    dropCovered s part q [0, 1, 2, 3]

/-- SQ_DOORBELL (R98, R103). -/
def execSqDoorbell (part qp : Nat) (be : BitVec 4) (value : Word) (otherBytes : Bool) (s : State) :
    Host.Outcome State Fault Refusal :=
  nxt <| hostReady s fun s =>
    if qpOwner s qp ≠ some part then foreign s part qp true
    else
      let s := if be = 0xF then sqDoorbellValue s part qp (bitsOf value 0 16) else s
      if otherBytes ∨ (be ≠ 0xF ∧ be ≠ 0) then pushFragment s part qp else s

/-- A doorbell value of the CQ (R120). -/
def cqDoorbellValue (s : State) (part q v : Nat) : State :=
  let x := qpGet s q
  let n := cqSize s q
  if v < n ∧ ringDist n x.cqHead v ≤ ringDist n x.cqHead x.cqTail then
    qpSet s q { x with cqHead := v, full := if v = x.cqHead then x.full else false }
  else capture (s.fincSat (qpPage q) (F.QP_COUNTS_DOORBELL_ERR.sh (qpOff q)) 1) (qpPage q) 0x0411 part q

/-- CQ_DOORBELL (R98, R120). -/
def execCqDoorbell (part qp : Nat) (be : BitVec 4) (value : Word) (otherBytes : Bool) (s : State) :
    Host.Outcome State Fault Refusal :=
  nxt <| hostReady s fun s =>
    if qpOwner s qp ≠ some part then foreign s part qp true
    else
      let s := if be = 0xF then cqDoorbellValue s part qp (bitsOf value 0 16) else s
      if otherBytes ∨ (be ≠ 0xF ∧ be ≠ 0) then pushFragment s part qp else s

/-- A ring read failed: the queue pair enters ERROR (R124). -/
def fetchFailed (s : State) (q : Nat) : State :=
  let x := qpGet s q
  let s := capture s (qpPage q) 0x0412 x.owner q
  pageIrq (qpSet s q { x with state := .error }) (qpPage q) (if q % 2 = 0 then 1 else 2)

/-- RING_READ_COMPLETE (R124, R149, R662). An answer that comes when the queue pair admits nothing is discarded. -/
def execRingReadComplete (qp : Nat) (res : RingRead) (s : State) : Host.Outcome State Fault Refusal :=
  let x := qpGet s qp
  nxt <|
    if x.state ≠ .active then s
    else match res with
      | .good es =>
        let es := es.take (x.ringLeft - x.staged.length)
        let s := qpSet s qp { x with staged := x.staged ++ es }
        if es.any (fun e => e.2) then hostNote s (.aer x.owner .poisonedTlp) else s
      | .unsupported => fetchFailed s qp
      | .aborted => fetchFailed s qp
      | .timeout => hostNote (fetchFailed s qp) (.aer x.owner .completionTimeout)

/-! ### Admission -/

/-- Jobs of a partition that hold a kind of job-table entry. -/
def jobsOf (s : State) (part : Nat) (k : JobKind) : Nat :=
  (s.qe.jobs.filter fun j => j.2.part = part && j.2.kind = k).length

/-- The shared pool's size and use (R105). -/
def sharedSize (s : State) : Nat :=
  512 - ((List.range s.var.partitions).map fun n => s.fget pgQe (F.QE_PJOB_JOB_RSV.sh (4 * n))).sum
def sharedUsed (s : State) : Nat := (s.qe.jobs.filter fun j => j.2.kind = .shared).length

/-- The job-table entry a new job of a queue pair takes, where one is free to it (R105, R132). -/
def jobKindFor (s : State) (q part : Nat) : Option JobKind :=
  if 512 ≤ s.qe.jobs.length then none
  else if q < s.var.partitions ∧ jobsOf s part .admin = 0 then some .admin
  else if jobsOf s part .general + jobsOf s part .shared < s.fget pgQe (F.QE_PJOB_JOB_MAX.sh (4 * part)) then
    if jobsOf s part .general + 1 < s.fget pgQe (F.QE_PJOB_JOB_RSV.sh (4 * part)) then some .general
    else if sharedUsed s < sharedSize s then some .shared else none
  else none

/-- Where the entry at SQ_HEAD comes from (R100): a held push, or what the ring read brought; with its poison. -/
def nextSource (s : State) (q : Nat) : Option (BitVec 512 × Bool × Bool) :=
  let x := qpGet s q
  match x.pushes.find? (x.sqHead % 4) with
  | some e => some (e, false, true)
  | none =>
    if x.ringLeft = 0 then none
    else match x.staged with
      | (e, p) :: _ => some (e, p, false)
      | [] => none

/-- New work of the queue pair is stopped or held (R82, R130, "PART pages"; assumption 4). -/
def admissionHeld (s : State) (q : Nat) : Bool :=
  let x := qpGet s q
  s.fbit (pgPart + x.owner) F.PG_CTRL_QUIESCE || s.fbit pgQe F.PG_CTRL_QUIESCE || !s.fbit pgQe F.PG_CTRL_ENABLE
  || s.fbit (qpPage q) F.PG_CTRL_QUIESCE || !s.fbit (qpPage q) F.PG_CTRL_ENABLE || (s.part.resets.find? x.owner).isSome

/-- The queue pair has an admissible entry (R105, R662). -/
def admissible (s : State) (q : Nat) : Bool :=
  let x := qpGet s q
  if x.state ≠ .active ∨ admissionHeld s q ∨ s.qe.dead then false
  else match nextSource s q with
    | none => false
    | some (e, poison, _) =>
      let continues := match x.chain with
        | .closed => false
        | _ => !poison && !e.getLsbD 8
      continues || (jobKindFor s q x.owner).isSome

/-- The next number of a round robin on a ring of `n` after `last`, among candidates. -/
def roundRobin (n last : Nat) (cands : List Nat) : Option Nat :=
  (cands.map fun c => (ringDist n ((last + 1) % n) c, c)).foldl
    (fun best x => match best with
      | none => some x
      | some b => if x.1 < b.1 then some x else some b) none |>.map Prod.snd

/-- The queue pair whose entry QE admits next (R104): the turn in progress goes on, else the next partition's next queue pair. -/
def admitPick (s : State) : Option Nat :=
  let cands := (s.qe.qps.map Prod.fst).filter (admissible s)
  match s.qe.turnQp with
  | some q => if s.qe.turnLeft ≠ 0 ∧ q ∈ cands then some q else pick cands
  | none => pick cands
where
  pick (cands : List Nat) : Option Nat :=
    match roundRobin 16 s.qe.rrPart (cands.map fun q => (qpGet s q).owner) with
    | none => none
    | some p => roundRobin 2048 (s.qe.rrQp.get 2047 p) (cands.filter fun q => (qpGet s q).owner = p)

/-- Start or go on with a turn of a queue pair (R104). -/
def beginTurn (s : State) (q : Nat) : State :=
  if s.qe.turnQp = some q ∧ s.qe.turnLeft ≠ 0 then s
  else
    let p := (qpGet s q).owner
    { s with qe := { s.qe with turnQp := some q, turnLeft := qpF s q F.QP_BURST_COUNT + 1, rrPart := p,
                               rrQp := s.qe.rrQp.set 2047 p q } }

/-- One whole job of the turn is admitted. -/
def turnJob (s : State) : State := { s with qe := { s.qe with turnLeft := s.qe.turnLeft - 1 } }

/-- A broken job ends with CHAIN_BROKEN, under a higher outcome that already names it (R111, Table 4.5). -/
def chainBroken (s : State) (j : Nat) : State :=
  match jobGet s j with
  | some x => jobDone s j (if x.cancel then stCancelled else stChainBroken) 0
  | none => s

/-- A new job of a queue pair with its first entry (R105, R107): its job-table entry and number. -/
def newJob (s : State) (q : Nat) (e : BitVec 512) : Option Nat × State :=
  let x := qpGet s q
  match jobKindFor s q x.owner, s.qe.jobs.lowestFree 0 512 with
  | some k, some j =>
    let job : Job := { part := x.owner, qp := q, seq := s.qe.nextSeq, tag := bitsOf e 16 16, opcode := bitsOf e 0 8,
                       entries := [e], kind := k, fence := e.getLsbD 11,
                       batchMode := qpF s q F.QP_CTRL_BATCH = 1 }
    (some j, { (jobSet s j job) with qe := { (jobSet s j job).qe with nextSeq := s.qe.nextSeq + 1 } })
  | _, _ => (none, s)

/-- The LAST entry of a job is admitted: QE checks it (R114); a job that fails ends with its outcome. -/
def jobAdmitted (s : State) (j : Nat) (last : BitVec 512) : State :=
  match jobGet s j with
  | none => s
  | some x =>
    let x := { x with irq := last.getLsbD 12, cmplBatch := last.getLsbD 10, phase := .waiting }
    let c := qeCheck s x
    if c = stOk then jobSet s j x else jobDone (jobSet s j x) j c 0

/-- Set a queue pair's chain state. -/
def setChain (s : State) (q : Nat) (c : ChainSt) : State := qpSet s q { qpGet s q with chain := c }

/-- The entry begins a job (R110, R111). -/
def admitFirst (s : State) (q : Nat) (e : BitVec 512) : State :=
  match newJob s q e with
  | (none, s) => s
  | (some j, s) =>
    if e.getLsbD 9 then turnJob (jobAdmitted (setChain s q .closed) j e) else setChain s q (.opened j 1)

/-- The entry has FIRST = 0 and no chain is open (R111, fourth case). -/
def admitStray (s : State) (q : Nat) (e : BitVec 512) : State :=
  match newJob s q e with
  | (none, s) => s
  | (some j, s) =>
    if e.getLsbD 9 then turnJob (chainBroken (setChain s q .closed) j) else setChain s q (.broken j)

/-- The entry goes on with an open chain (R110, R111, second and third case). -/
def admitNext (s : State) (q j count : Nat) (e : BitVec 512) : State :=
  match jobGet s j with
  | none => setChain s q .closed
  | some x =>
    if count = 16 ∨ bitsOf e 0 8 ≠ x.opcode then
      if e.getLsbD 9 then turnJob (chainBroken (setChain s q .closed) j) else setChain s q (.broken j)
    else
      let s := jobSet s j { x with entries := x.entries ++ [e] }
      if e.getLsbD 9 then turnJob (jobAdmitted (setChain s q .closed) j e) else setChain s q (.opened j (count + 1))

/-- The open or broken chain of a queue pair ends with the entry before (R111). -/
def endChain (s : State) (q : Nat) : State :=
  match (qpGet s q).chain with
  | .closed => s
  | .opened j _ => chainBroken (setChain s q .closed) j
  | .broken j => chainBroken (setChain s q .closed) j

/-- An entry that arrives poisoned (R662): it ends an open chain and forms a job of one entry that completes with POISON. -/
def admitPoisoned (s : State) (q : Nat) (e : BitVec 512) : State :=
  match newJob (endChain s q) q e with
  | (none, s) => s
  | (some j, s) => turnJob (jobDone s j stPoison 0)

/-- Take the entry at SQ_HEAD out of its source (R100). -/
def takeEntry (s : State) (q : Nat) (fromPush : Bool) : State :=
  let x := qpGet s q
  let h := (x.sqHead + 1) % sqSize s q
  if fromPush then qpSet s q { x with sqHead := h, pushes := x.pushes.del (x.sqHead % 4) }
  else qpSet s q { x with sqHead := h, staged := x.staged.drop 1, ringLeft := x.ringLeft - 1 }

/-- Admit the entry at SQ_HEAD of a queue pair (R100 to R112, R662). -/
def admitEntry (s : State) (q : Nat) (ue : Bool) : State :=
  match nextSource s q with
  | none => s
  | some (e, poison, fromPush) =>
    let s := takeEntry (beginTurn s q) q fromPush
    if poison || ue then admitPoisoned s q e
    else if e.getLsbD 8 then admitFirst (endChain s q) q e
    else match (qpGet s q).chain with
      | .closed => admitStray s q e
      | .opened j n => admitNext s q j n e
      | .broken j => if e.getLsbD 9 then turnJob (chainBroken (setChain s q .closed) j) else s

/-- A UE in QE shared control state (R144, R145, R149): captured on CHIP, reported, and QE stops. -/
def qeInternal (s : State) : State :=
  let s := capture s pgChip 0x0509 0 0
  let s := hostNote s (.aer 0 .uncorrectableInternal)
  { s with qe := { s.qe with dead := true } }

/-- ENTRY_ADMIT. -/
def execEntryAdmit (ue : AdmitUe) (s : State) : Host.Outcome State Fault Refusal :=
  nxt <| match ue with
    | .control => qeInternal s
    | _ => match admitPick s with
      | none => s
      | some q => admitEntry s q (ue = .staging)

/-! ### Readiness -/

/-- An earlier job of the same queue pair has not had its completion written or folded. -/
def earlierJob (s : State) (x : Job) : Bool := s.qe.jobs.any fun k => k.2.qp = x.qp && decide (k.2.seq < x.seq)

/-- JOB_READY (R113, R115). -/
def execJobReady (job : Nat) (s : State) : Host.Outcome State Fault Refusal :=
  nxt <| match jobGet s job with
    | none => s
    | some x =>
      if x.phase ≠ .waiting ∨ s.qe.dead ∨ (x.fence ∧ earlierJob s x) then s
      else if x.cancel then jobDone s job stCancelled 0
      else jobSet s job { x with phase := .started, hadStarted := true, startTick := s.now }

/-! ### Completions -/

/-- The oldest job of a queue pair whose CQ entry is not formed. -/
def oldestJob (s : State) (q : Nat) : Option (Nat × Job) :=
  (s.qe.jobs.filter fun k => decide (k.2.qp = q) && !k.2.held).foldl
    (fun best k => match best with
      | none => some k
      | some b => if k.2.seq < b.2.seq then some k else some b) none

/-- The 16 bytes of a CQ entry (Table 4.6). -/
def cqEntry (tag status covered head result q : Nat) (phase : Bool) : BitVec 128 :=
  BitVec.ofNat 128 (tag % 2 ^ 16 + (status % 2 ^ 16) * 2 ^ 16 + (covered % 2 ^ 16) * 2 ^ 32 + (head % 2 ^ 16) * 2 ^ 48
    + (result % 2 ^ 32) * 2 ^ 64 + (q % 2 ^ 11) * 2 ^ 96 + b2n phase * 2 ^ 127)

/-- The CQ is full (R120). -/
def cqIsFull (s : State) (q : Nat) : Bool :=
  let x := qpGet s q
  decide ((x.cqTail + 1) % cqSize s q = x.cqHead)

/-- Send the interrupt of a queue pair and clear its count (R121). -/
def qpInterrupt (s : State) (q : Nat) : State :=
  let x := qpGet s q
  hostSend (qpSet s q { x with sigCount := 0, sigSince := none }) x.owner (.msix x.owner (qpF s q F.QP_IRQ_VECTOR))

/-- The count of signalling entries has reached the threshold and interrupts are enabled (R121) (DEDUCED, assumption 29). -/
def qpIrqCheck (s : State) (q : Nat) : State :=
  if qpF s q F.QP_CTRL_IRQ_EN = 1 ∧ qpF s q F.QP_IRQ_COUNT + 1 ≤ (qpGet s q).sigCount then qpInterrupt s q else s

/-- Write one CQ entry (R119, R122) at CQ_TAIL and count it when it is signalling (R121). -/
def cqWrite (s : State) (q tag status covered result : Nat) (irq : Bool) : State :=
  let x := qpGet s q
  let addr := qpF s q F.QP_CQ_BASE_LO + qpF s q F.QP_CQ_BASE_HI * 2 ^ 32 + 16 * x.cqTail
  let s := hostSend s x.owner (.cq x.owner q addr (cqEntry tag status covered x.sqHead result q x.phase))
  let t := (x.cqTail + 1) % cqSize s q
  let sig := irq || decide (status ≠ stOk) || decide (qpF s q F.QP_CTRL_IRQ_ALL = 1)
  let s := qpSet s q { x with
    cqTail := t, phase := if t = 0 then !x.phase else x.phase, folded := 0, foldedIrq := false,
    sigCount := if sig then x.sigCount + 1 else x.sigCount,
    sigSince := if sig ∧ x.sigCount = 0 then some s.now else x.sigSince }
  if sig then qpIrqCheck s q else s

/-- A job leaves the job table. -/
def jobFree (s : State) (j : Nat) : State := { s with qe := { s.qe with jobs := s.qe.jobs.del j } }

/-- The CQ entry of a job is formed: the job leaves the job table with it, or waits there while Bus Master Enable of its function holds the
entry (R146, R174) (DEDUCED, assumption 133). -/
def jobWritten (s : State) (q j : Nat) (x : Job) : State :=
  if s.host.bme.get false (qpGet s q).owner then jobFree s j else jobSet s j { x with held := true }

/-- The job folds (R117). -/
def folds (x : Job) (foldedBefore : Nat) : Bool :=
  x.batchMode && decide (x.status = stOk) && !x.cmplBatch && decide (foldedBefore < 255)

/-- QE writes or folds the completion of the oldest job of a queue pair; `discard` says that an entry that finds the CQ full is
discarded and counted, as in a delete or reset (R128, R152). -/
def completeOldest (s : State) (q : Nat) (discard : Bool) : State :=
  match oldestJob s q with
  | none => s
  | some (j, x) =>
    let p := qpGet s q
    if x.phase ≠ .done then s
    else if folds x p.folded then jobFree (qpSet s q { p with folded := p.folded + 1, foldedIrq := p.foldedIrq || x.irq }) j
    else if cqIsFull s q then
      if discard then jobFree (qpSet s q { p with discarded := p.discarded + 1, folded := 0, foldedIrq := false }) j
      else qpSet s q { p with full := true }
    else
      jobWritten (cqWrite s q x.tag x.status (p.folded + 1) x.result (x.irq || p.foldedIrq)) q j x

/-- The queue pair returns to FREE with its registers at their reset values. -/
def qpRelease (s : State) (q : Nat) : State :=
  let s := { s with regs := s.regs.filter fun r => decide (r.1 < qpPage q * 4096 + qpOff q) || decide (qpPage q * 4096 + qpOff q + 0x40 ≤ r.1) }
  let owner := (qpGet s q).owner
  let s := s.fset pgQe (F.QE_PQP_QP_USED.sh (4 * owner)) (s.fget pgQe (F.QE_PQP_QP_USED.sh (4 * owner)) - 1)
  qpSet s q {}

/-- The last CQ entry of a draining queue pair is written or discarded: it is FREE and QP_DELETE completes (R128). -/
def deleteDone (s : State) (q : Nat) : State :=
  let x := qpGet s q
  match x.deleting with
  | none => s
  | some (j, _) =>
    if s.qe.jobs.any fun k => decide (k.2.qp = q) then s
    else jobDone (qpRelease s q) j stOk x.discarded

/-- Jobs of a function whose CQ entries are held. -/
def heldJobs (s : State) (fn : Nat) : List Nat := (s.qe.jobs.filter fun k => decide (k.2.part = fn) && k.2.held).map Prod.fst

/-- The held CQ entries of a function have gone: their jobs leave the job table, and a queue pair that drains may be free (R128, R174). -/
def heldGone (s : State) (fn : Nat) : State :=
  let s := eachIn (heldJobs s fn) jobFree s
  eachIn ((s.qe.qps.filter fun k => decide (k.2.owner = fn) && k.2.deleting.isSome).map Prod.fst) deleteDone s

/-- The oldest job of a queue pair of a resetting partition (R130, R152): an entry that finds its CQ full is discarded and counted; an
FLR writes nothing, and what Bus Master Enable would hold is discarded (R146). -/
def resetOldest (s : State) (q n : Nat) (r : PartReset) : State :=
  match oldestJob s q with
  | none => s
  | some (j, x) =>
    if x.phase ≠ .done then s
    else if r.flr ∨ s.host.bme.get false n = false then jobFree s j
    else if cqIsFull s q ∧ ¬ folds x (qpGet s q).folded then
      let s := qpSet s q { qpGet s q with folded := 0, foldedIrq := false }
      jobFree { s with part := { s.part with resets := s.part.resets.ins n { r with discarded := r.discarded + 1 } } } j
    else completeOldest s q true

/-- CQ_ENTRY_WRITE (R117 to R123, R128, R152). -/
def execCqEntryWrite (qp : Nat) (s : State) : Host.Outcome State Fault Refusal :=
  nxt <|
    if s.qe.dead then s
    else match s.part.resets.find? (qpGet s qp).owner with
    | some r => deleteDone (resetOldest s qp (qpGet s qp).owner r) qp
    | none =>
      let abortMode := match (qpGet s qp).deleting with
        | some (_, m) => m
        | none => false
      deleteDone (completeOldest s qp abortMode) qp

/-- IRQ_TIMER_EXPIRY (R121): the PTB reaches the end of the timer. -/
def execIrqTimerExpiry (qp : Nat) (s : State) : Host.Outcome State Fault Refusal :=
  let x := qpGet s qp
  nxt <| match x.sigSince with
    | none => s
    | some t =>
      if qpF s qp F.QP_IRQ_TIME = 0 ∨ x.sigCount = 0 then s
      else
        let s := s.reach (t + qpF s qp F.QP_IRQ_TIME * 800)
        if qpF s qp F.QP_CTRL_IRQ_EN = 1 then qpInterrupt s qp else s

/-! ### Admin queue pairs -/

/-- A write of EN = 1 to an admin queue pair (R125): it becomes ACTIVE with all indices 0 unless a ring size is 0. -/
def adminEnable (s : State) (q : Nat) : State :=
  if qpF s q F.QP_SIZE_SQ_LOG2 = 0 ∨ qpF s q F.QP_SIZE_CQ_LOG2 = 0 then s
  else
    let x := qpGet s q
    if x.state ≠ .disabled then s
    else
      let s := qpPut s q F.QP_CTRL_EN 1
      qpSet s q { x with state := .active, sqHead := 0, sqDb := 0, ringLeft := 0, cqTail := 0, cqHead := 0, phase := true, full := false,
                         pushes := [], staged := [], chain := .closed, folded := 0, foldedIrq := false, sigCount := 0,
                         sigSince := none, discarded := 0 }

/-- A write of EN = 0 to an admin queue pair (R125): held pushes and unadmitted entries are discarded, jobs in flight complete, and an
open chain is broken (assumption 9). It also leaves ERROR (R124). -/
def adminDisable (s : State) (q : Nat) : State :=
  let s := endChain s q
  let x := qpGet s q
  let s := qpPut s q F.QP_CTRL_EN 0
  qpSet s q { x with state := .disabled, pushes := [], staged := [], ringLeft := 0 }

/-- The other fields of a QP_CTRL write (R117, R121): a write that sets IRQ_EN while the count is not 0 sends the message at once. -/
def qpCtrlRest (s : State) (q : Nat) (data : Word) : State :=
  let was := qpF s q F.QP_CTRL_IRQ_EN
  let s := qpPut s q F.QP_CTRL_IRQ_EN (bitsOf data 1 1)
  let s := qpPut s q F.QP_CTRL_IRQ_ALL (bitsOf data 2 1)
  let s := qpPut s q F.QP_CTRL_BATCH (bitsOf data 3 1)
  if was = 0 ∧ bitsOf data 1 1 = 1 ∧ (qpGet s q).sigCount ≠ 0 then qpInterrupt s q else s

/-- A write of QP_CTRL: EN acts on admin queue pairs only (Table 4.15). -/
def qpCtrlWrite (s : State) (q : Nat) (data : Word) : State :=
  let s := qpCtrlRest s q data
  if q < s.var.partitions then (if data.getLsbD 0 then adminEnable s q else adminDisable s q) else s

/-- A partition may reach a queue pair's registers: its owner, and P0 for every queue pair that is not FREE (R87, assumption 10). -/
def qpReach (s : State) (part q : Nat) : Bool :=
  decide (qpOwner s q = some part) || (part == 0 && (qpOwner s q).isSome)

/-- A host write of QP_CTRL, or a foreign access (R87, R90). -/
def qpCtrlHost (s : State) (part q : Nat) (data : Word) : State :=
  if qpReach s part q then qpCtrlWrite s q data else foreign s part (qpPage q) false

/-- ADMIN_QP_ENABLE: a write of QP_CTRL with EN = 1. -/
def execAdminQpEnable (part qp : Nat) (data : Word) (s : State) : Host.Outcome State Fault Refusal :=
  nxt (hostReady s fun s => qpCtrlHost s part qp (data ||| 1))

/-- ADMIN_QP_DISABLE: a write of QP_CTRL with EN = 0. -/
def execAdminQpDisable (part qp : Nat) (data : Word) (s : State) : Host.Outcome State Fault Refusal :=
  nxt (hostReady s fun s => qpCtrlHost s part qp (data &&& ~~~ 1))

/-! ### QE commands -/

/-- NOP (R108). -/
def execNop (job : Nat) (s : State) : Host.Outcome State Fault Refusal :=
  nxt <| match startedJob s job 0x00 with
    | some _ => jobDone s job stOk 0
    | none => s

/-- The lowest free queue pair number of the pool (R127). -/
def freeQp (s : State) : Option Nat :=
  (List.range' s.var.partitions (2048 - s.var.partitions)).find? fun q => (s.qe.qps.find? q).isNone

/-- The outcome of QP_CREATE (R127): a status, or the number to create. -/
def qpCreateCheck (s : State) (x : Job) : Nat ⊕ Nat :=
  let want := payBits x 32 12
  let bad := fun n => n < 4 || 12 < n
  if bad (payBits x 48 4) || bad (payBits x 52 4) || payBits x 64 12 != 0 || payBits x 128 12 != 0
      || (1 ≤ want && want < s.var.partitions) || 2048 ≤ want then .inl stQpBadConfig
  else if want ≠ 0 ∧ (qpGet s want).state ≠ .free then .inl stQpState
  else if s.fget pgQe (F.QE_PQP_QP_MAX.sh (4 * x.part)) ≤ s.fget pgQe (F.QE_PQP_QP_USED.sh (4 * x.part)) then .inl stQpLimit
  else if want ≠ 0 then .inr want
  else match freeQp s with
    | some q => .inr q
    | none => .inl stQpLimit

/-- Create a queue pair from a QP_CREATE payload (R127, Table 4.9). -/
def qpCreate (s : State) (x : Job) (q : Nat) : State :=
  let s := qpPut s q F.QP_CTRL_EN 1
  let s := qpPut s q F.QP_CTRL_BATCH (payBits x 56 1)
  let s := qpPut s q F.QP_CTRL_IRQ_EN (payBits x 57 1)
  let s := qpPut s q F.QP_CTRL_IRQ_ALL (payBits x 58 1)
  let s := qpPut s q F.QP_SQ_BASE_LO (payBits x 64 32)
  let s := qpPut s q F.QP_SQ_BASE_HI (payBits x 96 32)
  let s := qpPut s q F.QP_CQ_BASE_LO (payBits x 128 32)
  let s := qpPut s q F.QP_CQ_BASE_HI (payBits x 160 32)
  let s := qpPut s q F.QP_SIZE_SQ_LOG2 (payBits x 48 4)
  let s := qpPut s q F.QP_SIZE_CQ_LOG2 (payBits x 52 4)
  let s := qpPut s q F.QP_IRQ_VECTOR (payBits x 192 7)
  let s := qpPut s q F.QP_IRQ_COUNT (payBits x 200 8)
  let s := qpPut s q F.QP_IRQ_TIME (payBits x 216 12)
  let s := qpPut s q F.QP_BURST_COUNT (payBits x 232 4)
  let s := s.fset pgQe (F.QE_PQP_QP_USED.sh (4 * x.part)) (s.fget pgQe (F.QE_PQP_QP_USED.sh (4 * x.part)) + 1)
  qpSet s q { state := .active, owner := x.part }

/-- QP_CREATE (R127). -/
def execQpCreate (job : Nat) (s : State) : Host.Outcome State Fault Refusal :=
  nxt <| match startedJob s job 0x01 with
    | none => s
    | some x => match qpCreateCheck s x with
      | .inl st => jobDone s job st 0
      | .inr q => jobDone (qpCreate s x q) job stOk q

/-- A cancel request or a cancellation of a job (R115, R116): a job not started ends with CANCELLED; a started one is told
(DEDUCED, assumption 122). -/
def cancelJob (s : State) (j : Nat) : State :=
  match jobGet s j with
  | none => s
  | some x => match x.phase with
    | .waiting => jobDone s j stCancelled 0
    | .done => s
    | _ => jobSet s j { x with cancel := true }

/-- Apply an operation to every job of a list. -/
def eachJob (f : State → Nat → State) (s : State) (js : List Nat) : State := js.foldl f s

/-- The jobs of a queue pair. -/
def jobsOfQp (s : State) (q : Nat) : List Nat := (s.qe.jobs.filter fun k => k.2.qp = q).map Prod.fst

/-- QP_DELETE takes effect (R128). -/
def qpDelete (s : State) (job q : Nat) (abortMode : Bool) : State :=
  let s := endChain s q
  let x := qpGet s q
  let s := qpSet s q { x with state := .draining, pushes := [], staged := [], ringLeft := 0, deleting := some (job, abortMode),
                              discarded := 0 }
  let s := if abortMode then eachJob cancelJob s (jobsOfQp s q) else s
  deleteDone s q

/-- QP_DELETE (R128). -/
def execQpDelete (job : Nat) (s : State) : Host.Outcome State Fault Refusal :=
  nxt <| match startedJob s job 0x02 with
    | none => s
    | some x =>
      let q := payBits x 32 12
      if x.stage ≠ 0 then s
      else if 2048 ≤ q ∨ qpOwner s q ≠ some x.part then jobDone s job stNotOwner 0
      else if q < s.var.partitions ∨ (qpGet s q).state = .draining then jobDone s job stQpState 0
      else qpDelete (jobSet s job { x with stage := 1 }) job q (payBits x 48 1 = 1)

/-- The job ABORT acts on (R129): the oldest of the queue pair with the tag whose completion is not written or folded. -/
def abortTarget (s : State) (q tag : Nat) : Option (Nat × Job) :=
  (s.qe.jobs.filter fun k => k.2.qp = q && k.2.tag = tag).foldl
    (fun best k => match best with
      | none => some k
      | some b => if k.2.seq < b.2.seq then some k else some b) none

/-- ABORT (R115, R116, R129): RESULT[0] says whether the job had started. -/
def execAbort (job : Nat) (s : State) : Host.Outcome State Fault Refusal :=
  nxt <| match startedJob s job 0x03 with
    | none => s
    | some x =>
      let q := payBits x 32 12
      if 2048 ≤ q ∨ qpOwner s q ≠ some x.part then jobDone s job stNotOwner 0
      else match abortTarget s q (payBits x 48 16) with
        | none => jobDone s job stTagNotFound 0
        | some (j, y) =>
          jobDone (cancelJob s j) job stOk (b2n y.hadStarted)

end Sys2Proof.Machine
end

