-- ==== Sys2Proof/Machine/ServeKv.lean ====
section
/-! DEFINITION. Serving: model headers, the Request Table's entries, KV pages, prefix nodes and reservations (R445 to R454). -/

namespace Sys2Proof.Machine

def mslotGet (s : State) (m : Nat) : MSlot := s.serve.slots.get {} m
def mslotSet (s : State) (m : Nat) (x : MSlot) : State := { s with serve := { s.serve with slots := s.serve.slots.set {} m x } }
def reqGet (s : State) (r : Nat) : Req := s.serve.reqs.get {} r
def reqSet (s : State) (r : Nat) (x : Req) : State := { s with serve := { s.serve with reqs := s.serve.reqs.set {} r x } }
def reqMod (s : State) (r : Nat) (f : Req → Req) : State := reqSet s r (f (reqGet s r))

/-! ### Model slots -/

/-- Model slot states (Table 13.2). -/
abbrev msEmpty : Nat := 0
abbrev msLoading : Nat := 1
abbrev msReady : Nat := 2
abbrev msDraining : Nat := 3

def mslotState (s : State) (m : Nat) : Nat := s.fget pgServe (F.SERVE_SLOT_STAT_STATE.sh (16 * m))

/-- A slot changes state, with the SLOT_CHANGE cause ("SERVE global page"). -/
def mslotMove (s : State) (m v : Nat) : State := pageIrq (s.fset pgServe (F.SERVE_SLOT_STAT_STATE.sh (16 * m)) v) pgServe 1

/-- Header fields (Tables 13.4 and 14.4). -/
def hVocab (h : BitVec 1024) : Nat := bitsOf h 64 19
def hBlocks (h : BitVec 1024) : Nat := bitsOf h 96 5
def hTpp (h : BitVec 1024) : Nat := 16 * hBlocks h
def hKvBytes (h : BitVec 1024) : Nat := bitsOf h 112 16
def hMaxCtx (h : BitVec 1024) : Nat := bitsOf h 128 17
def hSummary (h : BitVec 1024) : Bool := bitAt h 145
def hSummaryTokens (h : BitVec 1024) : Nat := bitsOf h 160 12
def hEos (h : BitVec 1024) : Nat := bitsOf h 192 18
def hVocabId (h : BitVec 1024) : Nat := bitsOf h 256 32
def hDraftable (h : BitVec 1024) : Bool := bitAt h 288
def hDraftWindow (h : BitVec 1024) : Nat := bitsOf h 292 13

/-- The header of the model a request runs on. -/
def reqHdr (s : State) (r : Nat) : BitVec 1024 := (mslotGet s (reqGet s r).slot).header

def slotFlush (s : State) (m : Nat) : Bool := s.fbit pgServe (F.SERVE_SLOT_CFG_FLUSH.sh (16 * m))

/-- The requests of a slot, in ascending RQT index. -/
def slotReqs (s : State) (m : Nat) : List Nat := (s.serve.reqs.filter fun r => r.2.state ≠ .free ∧ r.2.slot = m).map Prod.fst

/-! ### The tables in memory -/

def kvBase (s : State) : Nat := s.reg64 pgServe F.SERVE_KV_BASE_LO.off F.SERVE_KV_BASE_HI.off
def kvDesc (s : State) : Nat := s.reg64 pgServe F.SERVE_KV_DESC_LO.off F.SERVE_KV_DESC_HI.off
def kvTable (s : State) : Nat := s.reg64 pgServe F.SERVE_PT_LO.off F.SERVE_PT_HI.off
def kvPages (s : State) : Nat := s.fget pgServe F.SERVE_KV_PAGES_PAGES
def pfxBase (s : State) : Nat := s.reg64 pgPrefix F.PFX_BASE_LO.off F.PFX_BASE_HI.off
def pfxNodes (s : State) : Nat := s.fget pgPrefix F.PFX_NODES_NODES

/-- The address of a KV page (R445). -/
def pageAddr (s : State) (p : Nat) : Nat := kvBase s + 0x8000 * p

/-- The null number of pages and nodes. -/
abbrev nullRef : Nat := 0xFFFFF

namespace Chain

/-- The head of a chain of numbers below `n`. -/
def head (c : Chain) (n : Nat) : Option Nat :=
  match c.back with
  | p :: _ => some p
  | [] => if c.fresh < n then some c.fresh else none

/-- The chain without its head. -/
def pop (c : Chain) : Chain :=
  match c.back with
  | _ :: r => { c with back := r }
  | [] => { c with fresh := c.fresh + 1 }

def push (c : Chain) (p : Nat) : Chain := { c with back := p :: c.back }
def len (c : Chain) (n : Nat) : Nat := c.back.length + (n - c.fresh)

end Chain

/-! ### KV pages -/

def kvGet (s : State) (p : Nat) : KvPage := s.serve.pages.get {} p

/-- A page descriptor (Table 13.11). -/
def descWord (x : KvPage) (next : Nat) : DWord :=
  BitVec.ofNat 64 (next + (x.ref % 4096) * 2 ^ 20 + (match x.charged with | some (_, o) => o * 2 ^ 32 + 2 ^ 36 | none => 0))

/-- Hold a page and write its descriptor (DEDUCED, assumption 106). -/
def kvPut (s : State) (p : Nat) (x : KvPage) (next : Nat := 0) : State :=
  let s := { s with serve := { s.serve with pages := s.serve.pages.set {} p x } }
  dramWrite s (kvDesc s / 8 + p) (descWord x next) false

/-- QE reads a descriptor; poison in it stops QE (Table 15.5). -/
def descCheck (s : State) (p part : Nat) : State :=
  match dramRead s (kvDesc s / 8 + p) part with
  | (some _, s) => s
  | (none, s) => qeInternal (poisonRead s pgQe part)

/-- Free pages. -/
def kvFree (s : State) : Nat := s.serve.pageChain.len (kvPages s)
/-- Pages whose only holders are nodes (R454). -/
def kvIndexed (s : State) : Nat := (s.serve.pages.filter fun p => p.2.ref ≠ 0 ∧ p.2.ref = p.2.nodes).length

/-- One more holder. -/
def kvHold (s : State) (p part : Nat) (node : Bool) : State :=
  let s := descCheck s p part
  let x := kvGet s p
  kvPut s p { x with ref := x.ref + 1, nodes := x.nodes + b2n node }

/-- One holder less; at 0 the page returns to the head of the free chain (R446). -/
def kvDrop (s : State) (p part : Nat) (node : Bool) : State :=
  let s := descCheck s p part
  let x := kvGet s p
  if x.ref ≤ 1 then
    let next := (s.serve.pageChain.head (kvPages s)).getD nullRef
    let s := kvPut s p {} next
    { s with serve := { s.serve with pageChain := s.serve.pageChain.push p } }
  else kvPut s p { x with ref := x.ref - 1, nodes := x.nodes - b2n node }

/-- Take the page at the head of the free chain (R446). -/
def kvTake (s : State) (part : Nat) : Option Nat × State :=
  match s.serve.pageChain.head (kvPages s) with
  | none => (none, s)
  | some p =>
    let s := descCheck s p part
    (some p, { s with serve := { s.serve with pageChain := s.serve.pageChain.pop } })

/-- KV pages a partition holds: charged pages and unallocated reservations (R448). -/
def kvUse (s : State) (part : Nat) : Nat :=
  (s.serve.pages.filter fun p => match p.2.charged with | some (_, o) => o = part | none => False).length
    + ((s.serve.reqs.filter fun r => r.2.part = part).map fun r => r.2.reserved).sum

/-- RQT entries a partition holds. -/
def rqtUse (s : State) (part : Nat) : Nat := (s.serve.reqs.filter fun r => r.2.state ≠ .free ∧ r.2.part = part).length

/-- Pages promised to requests whose reservations are supplied (DEDUCED, assumption 107). -/
def kvPromised (s : State) : Nat := ((s.serve.reqs.filter fun r => r.2.granted).map fun r => r.2.reserved).sum

/-- Write an entry of a request's page table row (R445). -/
def rowWrite (s : State) (r i : Nat) (page : Option Nat) : State :=
  let a := kvTable s + 0x4000 * r + 4 * i
  let v := match page with | some p => p + 2 ^ 31 | none => 0
  dramPartial s (a / 8) (reqGet s r).part ((leBytes 4 v).zipIdx.map fun b => (a % 8 + b.2, b.1)) false

/-- A word of a request's row holds poison. -/
def rowPoisoned (s : State) (r : Nat) : Bool × State :=
  let x := reqGet s r
  (x.row.map fun e => (kvTable s + 0x4000 * r + 4 * e.1) / 8).foldl (fun (acc : Bool × State) w =>
    let (d, s) := dramRead acc.2 w x.part
    (acc.1 || d.isNone, s)) (false, s)

/-- Map a page as a logical page of a request. -/
def rowAdd (s : State) (r i p : Nat) : State :=
  let s := reqMod s r fun x => { x with row := x.row.ins i p }
  rowWrite s r i (some p)

/-- A page of the reservation becomes logical page `i`, charged to the request's partition (R447). -/
def pageNew (s : State) (r i : Nat) : Option Nat × State :=
  let x := reqGet s r
  match kvTake s x.part with
  | (none, s) => (none, s)
  | (some p, s) =>
    let s := kvPut s p { ref := 1, charged := some (r, x.part) }
    let s := reqMod s r fun x => { x with reserved := x.reserved - 1 }
    (some p, rowAdd s r i p)

/-- Steps 1 and 2 of R449: the pages of the row and the reservation are returned. -/
def releasePages (s : State) (r : Nat) : State :=
  let x := reqGet s r
  let s := eachIn x.row (fun s e =>
    let y := kvGet s e.2
    let s := match y.charged with
      | some (r', _) => if r' = r then kvPut s e.2 { y with charged := none } else s
      | none => s
    rowWrite (kvDrop s e.2 x.part false) r e.1 none) s
  let s := eachIn x.copies (fun s c => kvDrop s c.2.2.1 x.part false) s
  reqMod s r fun x => { x with row := [], reserved := 0, granted := false, copies := [], path := [] }

/-! ### Prefix nodes -/

def nodeGet (s : State) (n : Nat) : PfxNode := s.serve.nodes.get {} n

/-- The words of a node (Table 13.12). -/
def nodeWords (x : PfxNode) (valid : Bool) : List DWord :=
  let ref := fun (o : Option Nat) => o.getD nullRef
  (List.range 8).map (fun k => BitVec.ofNat 64 (x.tokens.getD (2 * k) 0 + x.tokens.getD (2 * k + 1) 0 * 2 ^ 32))
    ++ [BitVec.ofNat 64 (ref x.parent + x.scope * 2 ^ 20 + x.slot * 2 ^ 25 + b2n valid * 2 ^ 28 + ref x.child * 2 ^ 32),
        BitVec.ofNat 64 (ref x.sibling + x.page * 2 ^ 32 + x.block * 2 ^ 52), BitVec.ofNat 64 x.lastUse, 0, 0, 0, 0, 0]

/-- Write a node to its place in memory. -/
def nodeStore (s : State) (n : Nat) (x : PfxNode) (valid : Bool) : State :=
  eachIn (nodeWords x valid).zipIdx (fun s w => dramWrite s (pfxBase s / 8 + 16 * n + w.2) w.1 false) s

/-- Hold a VALID node. -/
def nodePut (s : State) (n : Nat) (x : PfxNode) : State :=
  nodeStore { s with serve := { s.serve with nodes := s.serve.nodes.ins n x } } n x true

/-- Nodes in the tree. -/
def pfxUsed (s : State) : Nat := s.serve.nodes.length

/-- The root of a slot and scope. -/
def rootKey (slot scope : Nat) : Nat := 32 * slot + scope

/-- The first child under a cursor. -/
def firstChild (s : State) (slot scope : Nat) (cur : Option Nat) : Option Nat :=
  match cur with
  | none => s.serve.roots.find? (rootKey slot scope)
  | some n => (nodeGet s n).child

/-- Set the first child under a cursor. -/
def setFirstChild (s : State) (slot scope : Nat) (cur child : Option Nat) : State :=
  match cur with
  | some n => nodePut s n { nodeGet s n with child := child }
  | none => match child with
    | some c => { s with serve := { s.serve with roots := s.serve.roots.ins (rootKey slot scope) c } }
    | none => { s with serve := { s.serve with roots := s.serve.roots.del (rootKey slot scope) } }

/-- A node holds poison and counts as not matching (Table 15.5). -/
def nodePoisoned (s : State) (n part : Nat) : Bool × State :=
  let r := (List.range 11).foldl (fun (acc : Bool × State) k =>
    let (d, s) := dramRead acc.2 (pfxBase acc.2 / 8 + 16 * n + k) part
    (acc.1 || d.isNone, s)) (false, s)
  if r.1 then (true, poisonRead r.2 pgPrefix part) else r

/-- Walk a list of siblings for a block; `fuel` bounds the walk. -/
def walkChildren (s : State) (part : Nat) (blk : List Nat) : Nat → Option Nat → Option Nat × State
  | 0, _ => (none, s)
  | _, none => (none, s)
  | fuel + 1, some n =>
    let x := nodeGet s n
    if x.tokens = blk then
      let (bad, s) := nodePoisoned s n part
      if bad then walkChildren s part blk fuel x.sibling else (some n, s)
    else walkChildren s part blk fuel x.sibling

/-- The child of a cursor whose TOKENS equal a block. -/
def childOf (s : State) (slot scope part : Nat) (cur : Option Nat) (blk : List Nat) : Option Nat × State :=
  walkChildren s part blk (s.serve.nodes.length + 1) (firstChild s slot scope cur)

/-- Remove a node without children (R450): its page loses a holder and the node returns to the head of the free chain. A request whose
cursor it was inserts nothing more. -/
def nodeRemove (s : State) (n : Nat) : State :=
  let x := nodeGet s n
  let s := if firstChild s x.slot x.scope x.parent = some n then setFirstChild s x.slot x.scope x.parent x.sibling
    else match List.find? (fun m : Nat × PfxNode => m.2.sibling = some n) s.serve.nodes with
      | some m => nodePut s m.1 { m.2 with sibling := x.sibling }
      | none => s
  let s := kvDrop s x.page 0 true
  let next := s.serve.nodeChain.head (pfxNodes s)
  let s := nodeStore s n { x with sibling := next, child := none } false
  { s with serve := { s.serve with
      nodes := s.serve.nodes.del n, nodeChain := s.serve.nodeChain.push n,
      reqs := s.serve.reqs.mapVal fun _ r => if r.cursor = some n then { r with inserts := false, cursor := none } else r } }

/-- Remove every node that a test names, children before parents; `fuel` bounds the removals. -/
def removeNodes (s : State) (f : PfxNode → Bool) : Nat → State
  | 0 => s
  | fuel + 1 => match List.find? (fun n : Nat × PfxNode => f n.2 && n.2.child.isNone) s.serve.nodes with
    | some n => removeNodes (nodeRemove s n.1) f fuel
    | none => s

/-- Remove every node of a slot. -/
def flushSlot (s : State) (m : Nat) : State := removeNodes s (fun n => n.slot = m) s.serve.nodes.length

/-- Nodes on the path of a request that is being admitted (R454). -/
def heldNodes (s : State) : List Nat := (s.serve.reqs.map fun r => r.2.path).flatten

/-- The node to evict (R454): no children, the oldest LAST_USE, the lowest number. -/
def evictee (s : State) (keep : List Nat) : Option Nat :=
  (s.serve.nodes.foldl (fun (best : Option (Nat × PfxNode)) n =>
    if n.2.child.isSome || keep.contains n.1 then best
    else match best with
      | none => some n
      | some b => if n.2.lastUse < b.2.lastUse then some n else some b) none).map Prod.fst

/-- Evict one node. -/
def evictOne (s : State) (keep : List Nat) : Option State :=
  (evictee s keep).map fun n =>
    let s := nodeRemove s n
    s.fset pgPrefix F.PFX_EVICTED (satAdd (s.fget pgPrefix F.PFX_EVICTED) 1 0xFFFFFFFF)

/-- Evict for a reservation (R454): only while free and indexed pages reach it, until the free ones do. -/
def evictFor (s : State) (res other : Nat) : Nat → State
  | 0 => s
  | fuel + 1 =>
    if res + other ≤ kvFree s ∨ kvFree s + kvIndexed s < res + other then s
    else match evictOne s (heldNodes s) with
      | some s' => evictFor s' res other fuel
      | none => s

/-- The pool supplies a number of pages beside what it has promised to others (R447, R454). -/
def kvSupply (s : State) (res other : Nat) : Bool × State :=
  let s := if res = 0 then s else evictFor s res other s.serve.nodes.length
  (decide (res = 0 ∨ res + other ≤ kvFree s), s)

/-- PFX counters. -/
def pfxCount (s : State) (f : Fld) (d : Nat) : State := s.fset pgPrefix f (satAdd (s.fget pgPrefix f) d 0xFFFFFFFF)

/-- A block that has become complete is looked for and inserted (R453) (DEDUCED, assumption 105). -/
def insertBlock (s : State) (r d : Nat) : State :=
  let x := reqGet s r
  let blk := (x.toks.drop (16 * d - x.tokBase)).take 16
  let scope := if x.shared then 16 else x.part
  let m := x.slot
  match childOf s m scope x.part x.cursor blk with
  | (some n, s) =>
    let s := nodePut s n { nodeGet s n with lastUse := s.now }
    reqMod s r fun x => { x with cursor := some n, depth := d + 1 }
  | (none, s) =>
    let keep := heldNodes s ++ x.cursor.toList
    let s := match s.serve.nodeChain.head (pfxNodes s) with
      | some _ => s
      | none => (evictOne s keep).getD s
    match s.serve.nodeChain.head (pfxNodes s), x.row.find? (16 * d / hTpp (reqHdr s r)) with
    | some n, some p =>
      let first := firstChild s m scope x.cursor
      let s := { s with serve := { s.serve with nodeChain := s.serve.nodeChain.pop } }
      let s := nodePut s n { tokens := blk, parent := x.cursor, scope := scope, slot := m, sibling := first, page := p,
                             block := d % hBlocks (reqHdr s r), lastUse := s.now }
      let s := kvHold (setFirstChild s m scope x.cursor (some n)) p x.part true
      reqMod s r fun x => { x with cursor := some n, depth := d + 1 }
    | _, _ => reqMod (pfxCount s F.PFX_SKIPPED 1) r fun x => { x with inserts := false }

/-- Insert the blocks that have become complete, in ascending order (R453). -/
def insertBlocks (s : State) (r : Nat) : State :=
  let x := reqGet s r
  eachIn (List.range' x.depth (x.seqLen / 16 - x.depth)) (fun s d =>
    let x := reqGet s r
    if !x.noInsert && x.inserts && s.fbit pgPrefix F.PFX_CTRL_ENABLE && decide (x.tokBase ≤ 16 * d) then insertBlock s r d else s) s

/-- The walk of a lookup (R451): the matched nodes, in order. -/
def lookupWalk (s : State) (slot scope part : Nat) (toks : List Nat) : Nat → Nat → Option Nat → List Nat × State
  | 0, _, _ => ([], s)
  | fuel + 1, d, cur =>
    match childOf s slot scope part cur ((toks.drop (16 * d)).take 16) with
    | (none, s) => ([], s)
    | (some n, s) =>
      let r := lookupWalk s slot scope part toks fuel (d + 1) (some n)
      (n :: r.1, r.2)

/-- The lookup of a request (R451) and the pages that reuse maps in full (R452); what it copies waits for the reservation. -/
def lookupReuse (s : State) (r : Nat) : State :=
  let x := reqGet s r
  let scope := if x.shared then 16 else x.part
  let l := (x.promptLen - 1) / 16
  let w := if s.fbit pgPrefix F.PFX_CTRL_ENABLE then lookupWalk s x.slot scope x.part x.toks l 0 none else ([], s)
  let k := w.1.length
  let s := pfxCount (pfxCount w.2 F.PFX_LOOKUPS 1) F.PFX_HIT_BLOCKS k
  let s := eachIn w.1 (fun s n => nodePut s n { nodeGet s n with lastUse := s.now }) s
  let tb := hBlocks (reqHdr s r)
  let s := reqMod s r fun x => { x with looked := true, reused := 16 * k, seqLen := 16 * k, path := w.1, cursor := w.1.getLast?, depth := k }
  eachIn (List.range ((k + tb - 1) / tb)) (fun s i =>
    let ds := (List.range' (tb * i) tb).filter (· < k)
    let ns := ds.map fun d => nodeGet s (w.1.getD d 0)
    let p := (ns.headD {}).page
    if ds.length = tb ∧ ns.all (fun n => n.page = p) ∧ ns.map (fun n => n.block) = List.range tb then
      kvHold (rowAdd s r i p) p x.part false
    else
      eachIn (ds.zip ns) (fun s dn =>
        let s := kvHold s dn.2.page x.part false
        reqMod s r fun x => { x with copies := x.copies ++ [(i, dn.1 % tb, dn.2.page, dn.2.block)] }) s) s

/-- Copy the blocks that reuse copies, into new pages of the reservation (R452). -/
def copyBlocks (s : State) (r : Nat) : State :=
  let x := reqGet s r
  let n := 16 * hKvBytes (reqHdr s r)
  let s := eachIn x.copies (fun s c =>
    let (i, b, p, sb) := c
    let s := if (reqGet s r).row.find? i |>.isSome then s else (pageNew s r i).2
    match (reqGet s r).row.find? i with
    | none => s
    | some q =>
      let (bs, s) := dramLoad s x.part (pageAddr s p + n * sb) n
      let s := dramStore s x.part (pageAddr s q + n * b) (bs.map fun y => y.getD 0)
        ((List.range n).filter fun k => (bs.getD k none).isNone)
      kvDrop s p x.part false) s
  reqMod s r fun x => { x with copies := [], path := [] }

end Sys2Proof.Machine
end

