-- ==== Sys2Proof/Machine/Sampler.lean ====
section
/-! DEFINITION. Decoding one position: the sampler word and the choice of a token (R476, R477), masks (R479 to R483), and the reads of a
model image and of KV pages (R460). -/

namespace Sys2Proof.Machine

/-! ### The sampler -/

/-- A left rotation of a 32-bit word. -/
def rotl32 (x : Word) (k : Nat) : Word := x.rotateLeft k

/-- One round of the sampler function. -/
def samplerRound (k0 k1 : Word) (r a b : Nat) (x : Word × Word × Word × Word) : Word × Word × Word × Word :=
  let (x0, x1, x2, x3) := x
  let x0 := x0 + x1
  let x3 := rotl32 (x3 ^^^ x0) a
  let x2 := x2 + x3
  let x1 := rotl32 (x1 ^^^ x2) b
  let x0 := x0 ^^^ (if r % 2 = 1 then k0 else k1)
  (x0, x1, x2 + 0x5A17C3D9 * BitVec.ofNat 32 (r + 1), x3)

/-- The sampler word (R476). -/
def samplerWord (seed : BitVec 64) (n : Nat) : Word :=
  let k0 := seed.truncate 32
  let k1 := (seed >>> 32).truncate 32
  let x : Word × Word × Word × Word :=
    (BitVec.ofNat 32 n + k0, BitVec.ofNat 32 (n / 2 ^ 32) ^^^ k1, k0 ^^^ 0x6C0B5E31, k1 + 0x91D4A27F)
  let x := samplerRound k0 k1 0 13 9 x
  let x := samplerRound k0 k1 1 17 21 x
  let x := samplerRound k0 k1 2 7 15 x
  let (x0, x1, x2, x3) := samplerRound k0 k1 3 25 11 x
  (x0 + x2) ^^^ (x1 ^^^ x3)

/-- The uniform of a sampler word, as binary32 (R476). -/
def uniformOf (w : Word) : Nat := b32 (.fin false (w.toNat / 256) (-24))

/-- A logit as the vector unit reads it: flushed, and a NaN as −Inf (R477). -/
def readLogit (flush : Bool) (x : Word) : Nat × Bool :=
  let y := b32Flush flush x.toNat
  if (b32Val y.1).isNan then (fmtB32.infinity true, y.2) else y

/-- The token with the largest logit, the lowest number on ties. -/
def bestToken : List (Nat × Nat) → Option (Nat × Nat)
  | [] => none
  | c :: cs => some (cs.foldl (fun b x => if ltF (b32Val b.2) (b32Val x.2) then x else b) c)

/-- The first `k` tokens in the order of logit descending and number ascending. -/
def topTokens : Nat → List (Nat × Nat) → List Nat
  | 0, _ => []
  | k + 1, cs => match bestToken cs with
    | none => []
    | some b => b.1 :: topTokens k (cs.filter fun c => c.1 ≠ b.1)

/-- The prefix sums of a list of binary32 values (R477). -/
def prefixSums (flush : Bool) : Nat → List Nat → List Nat × Bool
  | _, [] => ([], false)
  | p, e :: es =>
    let q := b32Add flush p e
    let r := prefixSums flush q.1 es
    (q.1 :: r.1, q.2 || r.2)

/-- GAIN, C times the reciprocal of TEMP (R477) (DEDUCED, assumption 112). -/
def gainOf (flush : Bool) (temp : Nat) : Nat × Bool :=
  let r := b32Rcp flush temp
  let g := b32Mul flush 0x3FB8AA3B r.1
  (g.1, r.2 || g.2)

/-- The token that R477 selects from the allowed tokens and their logits, with whether a flush replaced a non-zero value. -/
def selectToken (flush : Bool) (seed : BitVec 64) (n temp gain topK : Nat) (allowed : List (Nat × Word)) : Option Nat × Bool :=
  let rs := allowed.map fun c => (c.1, readLogit flush c.2)
  let fl := rs.any fun c => c.2.2
  let cs := rs.map fun c => (c.1, c.2.1)
  if temp % 2 ^ 31 = 0 then ((bestToken cs).map Prod.fst, fl)
  else
    let cs := if topK = 0 then cs else let keep := topTokens topK cs; cs.filter fun c => keep.contains c.1
    match cs with
    | [] => (none, fl)
    | c :: _ =>
      let m := rowMax flush (cs.map Prod.snd)
      let ds := rowMap (fun x => b32SubOp flush x m.1) (cs.map Prod.snd)
      let zs := rowMap (fun x => b32Mul flush x gain) ds.1
      let es := rowMap (b32Exp2 flush) zs.1
      let p0 := es.1.headD 0
      let ps := prefixSums flush p0 (es.1.drop 1)
      let sums := p0 :: ps.1
      let total := sums.getLastD 0
      let fl := fl || m.2 || ds.2 || zs.2 || es.2 || ps.2
      if total % 2 ^ 31 = 0 ∨ (b32Val total).isNan ∨ b32Val total = .inf false ∨ b32Val total = .inf true then
        ((bestToken cs).map Prod.fst, fl)
      else
        let v := b32Mul flush (uniformOf (samplerWord seed n)) total
        let hit := (cs.zip sums).find? fun x => ltF (b32Val v.1) (b32Val x.2)
        (some (match hit with | some h => h.1.1 | none => (cs.getLastD c).1), fl || v.2)

/-! ### Masks -/

def maskState (s : State) (t : Nat) : Nat := s.fget pgMask (F.MASK_TBL_STATE.sh (8 * t))
def maskKind (s : State) (t : Nat) : Nat := s.fget pgMask (F.MASK_TBL_KIND.sh (8 * t))

/-- Requests that name a mask table (R484). -/
def maskRefs (s : State) (t : Nat) : Nat :=
  (s.serve.reqs.filter fun r => r.2.state ≠ .free ∧ r.2.maskKind ≠ 0 ∧ r.2.maskTable = t).length

/-- Places in a GRAMMAR table (R479). -/
def accOff (vocab : Nat) : Nat := 64 + 8 * ((2 * vocab + 7) / 8)
def transOff (vocab nstates : Nat) : Nat := accOff vocab + 8 * ((nstates + 63) / 64)

/-- What a mask says of a token: whether it is allowed, and the state after it; none for poison. -/
abbrev MaskBit := Option (Bool × Nat)

/-- A mask as a request meets it: none, a grammar or an allow-list, with the bytes of its table as they read. -/
inductive MaskView where
  | free
  | grammar (x : MaskTable) (bytes : List (Option Byte))
  | allow (bytes : List (Option Byte))
  deriving DecidableEq, Repr

/-- A 16-bit entry of a table; none for poison. -/
def entry16 (bs : List (Option Byte)) (o : Nat) : Option Nat :=
  match bs.getD o none, bs.getD (o + 1) none with
  | some a, some b => some (a.toNat + 256 * b.toNat)
  | _, _ => none

/-- What a mask says of a token in a state (R481, R483). -/
def maskAsk (v : MaskView) (eos st t : Nat) : MaskBit :=
  match v with
  | .free => some (true, st)
  | .allow bs => (bs.getD (64 + t / 8) none).map fun b => (b.getLsbD (t % 8), st)
  | .grammar x bs =>
    if t = eos then (bs.getD (accOff x.vocab + st / 8) none).map fun b => (b.getLsbD (st % 8), st)
    else match entry16 bs (64 + 2 * t) with
      | none => none
      | some c =>
        if c = 0xFFFF then some (false, st)
        else (entry16 bs (transOff x.vocab x.nstates + 2 * (st * x.nclasses + c))).map fun n => (n != 0xFFFF, n)

/-- The tokens that a mask allows; none where it meets poison. -/
def allowedTokens (v : MaskView) (vocab eos st : Nat) : Option (List Nat) :=
  let l := (List.range vocab).map fun t => (t, maskAsk v eos st t)
  if l.any (fun x => x.2.isNone) then none
  else some ((l.filter fun x => match x.2 with | some (b, _) => b | none => false).map Prod.fst)

/-- The state after a token (R481). -/
def maskNext (v : MaskView) (eos st t : Nat) : Nat :=
  if t = eos then st else match maskAsk v eos st t with | some (_, n) => n | none => st

/-- Read a request's mask. -/
def maskView (s : State) (x : Req) : MaskView × State :=
  if x.maskKind = 0 then (.free, s)
  else
    let t := s.serve.masks.get {} x.maskTable
    let (bs, s) := dramLoad s x.part t.base t.length
    (if x.maskKind = 1 then .grammar t bs else .allow bs, s)

/-! ### The model -/

/-- A model slot's image as a step reads it; none for poison. -/
def modelImage (s : State) (m part : Nat) : Option (List Byte) × State :=
  let x := mslotGet s m
  let (bs, s) := dramLoad s part x.base x.length
  (wholeBytes bs, s)

/-- The KV data of the first `n` positions of a request; none for poison in its pages or its row (DEDUCED, assumption 104). -/
def kvData (s : State) (r n : Nat) : Option (List Byte) × State :=
  let h := reqHdr s r
  let part := (reqGet s r).part
  let (badRow, s) := rowPoisoned s r
  let s := if badRow then poisonRead s pgRqt part else s
  let l := (List.range ((n + hTpp h - 1) / hTpp h)).foldl (fun (acc : List (List (Option Byte)) × State) i =>
    let len := min (hTpp h) (n - hTpp h * i) * hKvBytes h
    let (bs, s) := dramLoad acc.2 part (pageAddr acc.2 (((reqGet acc.2 r).row.find? i).getD nullRef)) len
    (bs :: acc.1, s)) ([], s)
  (if badRow then none else wholeBytes l.1.reverse.flatten, l.2)

/-- The KV data of one position. -/
def kvOne (flush : Bool) (kvb : Nat) (image kv : List Byte) (tok : Nat) : List Byte :=
  (List.range kvb).map (Config.kvByte flush image kv tok)

/-- The KV data after a run of tokens, and whether a flush replaced a non-zero value. -/
def kvRun (flush : Bool) (kvb : Nat) (image : List Byte) : List Nat → List Byte → List Byte × Bool
  | [], kv => (kv, false)
  | t :: ts, kv =>
    let fl := flush && Config.posFlushed image kv t
    let r := kvRun flush kvb image ts (kv ++ kvOne flush kvb image kv t)
    (r.1, fl || r.2)

/-- What the selection at one position gives. -/
inductive Pick where
  | token (t : Nat)
  /-- No token is allowed (R482). -/
  | deadEnd
  /-- The mask holds poison. -/
  | poison
  deriving DecidableEq, Repr

/-- The token at index `n` of a request after a position with KV data `kv` and token `tok`. -/
def pickAt (flush : Bool) (h : BitVec 1024) (x : Req) (image kv : List Byte) (v : MaskView) (st tok n : Nat) : Pick × Bool :=
  match allowedTokens v (hVocab h) (hEos h) st with
  | none => (.poison, false)
  | some [] => (.deadEnd, false)
  | some ts =>
    let r := selectToken flush x.seed n x.temp x.gain x.topK (ts.map fun t => (t, Config.logit flush image kv tok t))
    (match r.1 with | some t => .token t | none => .deadEnd, r.2)

/-- A token ends the request in any case (R489). -/
def stopsAt (h : BitVec 1024) (x : Req) (t : Nat) : Bool :=
  t == hEos h || (x.stop0En && t == x.stop0) || (x.stop1En && t == x.stop1)

/-- The proposals of the draft engine (R487): greedy choices, at most `q`; none where it reads poison. -/
def propose (flush : Bool) (h : BitVec 1024) (x : Req) (image : List Byte) (v : MaskView) :
    Nat → List Byte → Nat → Nat → Option (List Nat)
  | 0, _, _, _ => some []
  | q + 1, kv, tok, st =>
    let kv' := kv ++ kvOne flush (hKvBytes h) image kv tok
    match (pickAt flush h { x with temp := 0 } image kv' v st tok 0).1 with
    | .poison => none
    | .deadEnd => some []
    | .token t =>
      if stopsAt h x t then some [t]
      else (propose flush h x image v q kv' t (maskNext v (hEos h) st t)).map (t :: ·)

/-- What a step gives a request: the KV data of its new positions in order, its tokens, how many proposals were accepted, the grammar
state, how it ended, and whether a flush replaced a non-zero value. -/
structure StepOut where
  kv : List Byte := []
  tokens : List Nat := []
  accepted : Nat := 0
  dfa : Nat := 0
  deadEnd : Bool := false
  poison : Bool := false
  flushed : Bool := false
  deriving DecidableEq, Repr

/-- The first end of R489 at a token: EOS 1, STOP 6, LENGTH 2; none: 0. `left` tokens may still be written. -/
def endOf (h : BitVec 1024) (x : Req) (t left : Nat) : Nat :=
  if t = hEos h then 1 else if stopsAt h x t then 6 else if left ≤ 1 then 2 else 0

/-- Verification of proposals (R488, R489): the positions from input token `tok` on, until the first end. -/
def verify (flush : Bool) (h : BitVec 1024) (x : Req) (image : List Byte) (v : MaskView) :
    List Nat → List Byte → Nat → Nat → Nat → StepOut → StepOut
  | ds, kv, tok, st, i, o =>
    let fl := o.flushed || (flush && Config.posFlushed image kv tok)
    let kv' := kv ++ kvOne flush (hKvBytes h) image kv tok
    match pickAt flush h x image kv' v st tok (x.outCount + i) with
    | (.poison, _) => { o with poison := true }
    | (.deadEnd, f) => { o with deadEnd := true, flushed := fl || f }
    | (.token t, f) =>
      let st' := maskNext v (hEos h) st t
      let o := { o with kv := kv', tokens := o.tokens ++ [t], dfa := st', flushed := fl || f }
      match ds with
      | [] => o
      | d :: ds' =>
        if t = d then
          let o := { o with accepted := o.accepted + 1 }
          if endOf h x t (x.maxNew - x.runOut - i) ≠ 0 then o else verify flush h x image v ds' kv' t st' (i + 1) o
        else o

end Sys2Proof.Machine
end

