-- ==== Sys2Proof/Machine/ServeStep.lean ====
section
/-! DEFINITION. The steps of a model slot: rings and ends, releases, the actions of a step boundary, reservations and the scheduler
(R436 to R438, R447 to R449, R456 to R460, R463, R465, R485 to R498). -/

namespace Sys2Proof.Machine

/-! ### Token rings -/

/-- Free entries of a request's ring, counting the marker (R457). -/
def ringFree (x : Req) : Nat :=
  let n := 2 ^ x.ringLog2
  n - 1 - (x.written % n + n - x.head % n) % n

/-- The device reads HEAD from host memory: `heads` gives what the read brings (R457). -/
def readHead (s : State) (r : Nat) (heads : List (Nat × Nat)) : State :=
  let x := reqGet s r
  let s := hostSend s x.part (.read x.part x.ringBase 4)
  match heads.find? fun h => h.1 = r with
  | some h => reqSet s r { x with head := h.2 % 2 ^ 16 }
  | none => s

/-- Write the next ring entry (Table 13.13). -/
def ringEntry (s : State) (r low index : Nat) : State :=
  let x := reqGet s r
  let n := 2 ^ x.ringLog2
  let w := low + (index % 2 ^ 31) * 2 ^ 32 + b2n (x.written / n % 2 = 0) * 2 ^ 63
  let s := hostSend s x.part (.write x.part (x.ringBase + 0x40 + 8 * (x.written % n)) (leBytes 8 w))
  reqSet s r { x with written := x.written + 1 }

/-- A token is written to the ring (R458). -/
def ringToken (s : State) (r t : Nat) : State :=
  let x := reqGet s r
  let s := ringEntry s r (t % 2 ^ 18 + b2n x.flushed * 2 ^ 19) x.outCount
  reqMod s r fun x => { x with outCount := x.outCount + 1, runOut := x.runOut + 1, toks := x.toks ++ [t] }

/-- The end marker of a run, where the ring has room for it (R458), and LATE (R497). -/
def ringMarker (s : State) (r e : Nat) (heads : List (Nat × Nat)) : State :=
  let s := if ringFree (reqGet s r) = 0 then readHead s r heads else s
  let x := reqGet s r
  if ringFree x = 0 then s
  else
    let s := ringEntry s r (2 ^ 18 + b2n x.flushed * 2 ^ 19 + e * 2 ^ 21) x.outCount
    if x.deadline ≠ 0 ∧ x.deadline < s.now then
      let s := reqMod s r fun x => { x with late := true }
      let s := s.fset pgSampler F.SMP_LATE (satAdd (s.fget pgSampler F.SMP_LATE) 1 0xFFFFFFFF)
      pageIrq s pgSampler 1
    else s

/-- RESULT of the job that holds a run (R458). -/
def runResult (x : Req) (e : Nat) : Nat := x.runOut + e * 2 ^ 17 + b2n x.flushed * 2 ^ 20

/-- A run ends: the marker, and the holding job completes (R458). A pending pause finds no request (R467). -/
def finishRun (s : State) (r e status : Nat) (heads : List (Nat × Nat)) : State :=
  let s := ringMarker s r e heads
  let x := reqGet s r
  let s := match x.job with
    | some j => jobDone s j status (runResult x e)
    | none => s
  let s := match x.pauseJob with
    | some j => if e = 4 then s else jobDone s j (if e = 3 then stCancelled else 0x0D07) 0
    | none => s
  reqMod s r fun x => { x with job := none, pauseJob := if e = 4 then x.pauseJob else none }

/-! ### Releases -/

/-- A draining slot without entries becomes EMPTY and its MODEL_UNLOAD completes (R434). -/
def mslotSettle (s : State) (m : Nat) : State :=
  let x := mslotGet s m
  match x.unload with
  | none => s
  | some (j, n) =>
    if slotReqs s m ≠ [] then s
    else
      let s := flushSlot s m
      let s := mslotSet s m { mslotGet s m with header := 0, base := 0, length := 0, unload := none, step := none }
      jobDone (mslotMove s m msEmpty) j stOk n

/-- Release a request (R449); the REQ_CANCEL jobs that wait for it complete. -/
def releaseReq (s : State) (r : Nat) : State :=
  let s := releasePages s r
  let x := reqGet s r
  let s := { s with serve := { s.serve with reqs := s.serve.reqs.del r } }
  let s := eachIn x.cancelJobs (fun s j => jobDone s j stOk 0) s
  let y := mslotGet s x.slot
  let s := match y.unload with
    | some (j, n) => mslotSet s x.slot { y with unload := some (j, n + 1) }
    | none => s
  mslotSettle s x.slot

/-- A request is released and its job ends with a status, with no ring entry (R441, R447, R464). -/
def refuseReq (s : State) (r status : Nat) : State :=
  let x := reqGet s r
  let s := match x.job with
    | some j => jobDone s j status (runResult x 5)
    | none => s
  releaseReq s r

/-- A cancel of the request is pending: a REQ_CANCEL, an ABORT of its job, or a reset of its partition (R459). -/
def cancelDue (s : State) (r : Nat) : Bool :=
  let x := reqGet s r
  x.cancelPending || (s.part.resets.find? x.part).isSome || (match x.job with
    | some j => (match jobGet s j with | some y => y.cancel | none => false)
    | none => false)

/-- A cancelled request is released (R459). A partition reset writes no marker, and a PAUSED request no ring entry. -/
def cancelRelease (s : State) (r : Nat) (heads : List (Nat × Nat)) : State :=
  let x := reqGet s r
  let quiet := (s.part.resets.find? x.part).isSome || x.job.isNone
  let s := if quiet then
      eachIn (x.job.toList ++ x.pauseJob.toList) (fun s j => jobDone s j stCancelled 0) s
    else finishRun s r 3 stCancelled heads
  releaseReq s r

/-! ### Lens cores -/

/-- States of a Lens core (R465). -/
abbrev coreIn : Nat := 0
abbrev coreLeaving : Nat := 1
abbrev coreOut : Nat := 2
abbrev coreTesting : Nat := 3
abbrev coreJoining : Nat := 4

def coreGet (s : State) (c k : Nat) : Nat := bitsOf (s.reg (pgLens + c) F.LENS_CORE.off) (3 * k) 3

/-- A core changes state: the CORE_CHANGE cause and the service bits of its cluster's page (R164, R465). -/
def coreSet (s : State) (c k v : Nat) : State :=
  let p := pgLens + c
  if coreGet s c k = v then s
  else
    let s := s.setReg p F.LENS_CORE.off (putBits (s.reg p F.LENS_CORE.off) (3 * k) 3 v)
    let allOut := (List.range 4).all fun k => coreGet s c k = coreOut
    let s := (s.fset p F.PG_STAT_OUT_OF_SERVICE (b2n allOut)).fset p F.PG_CTRL_IN_SERVICE (b2n (!allOut))
    let s := if v = coreIn then s.fset p F.PG_STAT_FAULT 0 else s
    pageIrq s p 1

/-- The clusters of a mask that are built. -/
def clustersOf (s : State) (mask : Nat) : List Nat := (List.range s.var.lensClusters).filter mask.testBit

/-- Cores of a slot that can run work units. -/
def coresIn (s : State) (m : Nat) : Nat :=
  ((clustersOf s (mslotGet s m).clusters).map fun c =>
    ((List.range 4).filter fun k => coreGet s c k = coreIn ∨ coreGet s c k = coreLeaving).length).sum

/-- The page that captures what a slot's Lens reads find. -/
def slotLensPage (s : State) (m : Nat) : Nat := pgLens + (clustersOf s (mslotGet s m).clusters).headD 0

/-- Cores leave and rejoin (R465). -/
def coreTurn (s : State) (c : Nat) : State :=
  eachIn (List.range 4) (fun s k =>
    if coreGet s c k = coreLeaving then coreSet s c k coreOut
    else if coreGet s c k = coreJoining then coreSet s c k coreIn else s) s

/-! ### Draft bindings -/

/-- Fields of a DRAFT_BIND word. -/
def bindSlot (w : Word) : Nat := bitsOf w 0 3
def bindValid (w : Word) : Bool := bitAt w 3
def bindMax (w : Word) : Nat := bitsOf w 4 4

def draftSlice (s : State) : Nat := s.fget pgDraft F.DRAFT_KV_SLICE_BYTES
def draftBase (s : State) : Nat := s.reg64 pgDraft F.DRAFT_KV_BASE_LO.off F.DRAFT_KV_BASE_HI.off

/-- The binding of a slot is live (R485). -/
def bindLive (s : State) (m : Nat) : Bool :=
  let x := mslotGet s m
  let d := bindSlot x.bind
  let h := (mslotGet s d).header
  bindValid x.bind && s.fbit pgDraft F.DRAFT_CTRL_ENABLE && d != m && mslotState s d == msReady && hDraftable h
    && hVocabId h == hVocabId x.header && hVocab h == hVocab x.header && hEos h == hEos x.header
    && decide (hDraftWindow h * hKvBytes h ≤ draftSlice s)

/-- DRAFT_BIND.LIVE of a slot at its boundary, with the LIVE_CHANGE cause. -/
def liveUpdate (s : State) (m : Nat) : State :=
  let f := F.DRAFT_BIND_LIVE.sh (4 * m)
  let v := b2n (bindLive s m)
  if s.fget pgDraft f = v then s
  else
    let s := pageIrq (s.fset pgDraft f v) pgDraft 1
    if v = 1 then s
    else { s with serve := { s.serve with reqs := s.serve.reqs.mapVal fun _ x => if x.slot = m then { x with draftCtx := false } else x } }

/-! ### COMMIT -/

/-- Policy fields in force. -/
def polBudget (x : MSlot) : Bool := bitAt x.pol0 0
def polRatio (x : MSlot) : Bool := bitAt x.pol0 1
def polMaxReq (x : MSlot) : Nat := bitsOf x.pol0 2 9
def polWait (x : MSlot) : Nat := bitsOf x.pol0 16 8
def polCap (x : MSlot) : Nat := bitsOf x.pol1 0 16
def polRmin (x : MSlot) : Nat := bitsOf x.pol1 16 8
def polRmax (x : MSlot) : Nat := bitsOf x.pol1 24 8
def polChunk (x : MSlot) : Nat := bitsOf x.pol2 0 17

/-- The balance of an account (R492). -/
def balGet (s : State) (a : Nat) : Int := toSigned 32 (s.fget pgSampler (F.ACCT_BAL_BAL.sh (16 * a)))
def balSet (s : State) (a : Nat) (v : Int) : State := s.fset pgSampler (F.ACCT_BAL_BAL.sh (16 * a)) (ofSigned 32 v)

/-- Charge an account of a BUDGET slot (R492). -/
def charge (s : State) (m a c : Nat) : State :=
  if polBudget (mslotGet s m) then balSet s a (max (-(2 ^ 31)) (balGet s a - c)) else s

/-- Commit one position of a request: a page for it where none is mapped, and its KV data (R447). -/
def commitPos (s : State) (r : Nat) (bytes : List Byte) : State :=
  let h := reqHdr s r
  let n := (reqGet s r).seqLen
  let i := n / hTpp h
  let s := if ((reqGet s r).row.find? i).isSome then s else (pageNew s r i).2
  let s := match (reqGet s r).row.find? i with
    | some p => dramStore s (reqGet s r).part (pageAddr s p + n % hTpp h * hKvBytes h) bytes []
    | none => s
  reqMod s r fun x => { x with seqLen := n + 1 }

/-- Commit positions from their KV data (R447). -/
def commitRun (s : State) (r count : Nat) (bytes : List Byte) : State :=
  let kvb := hKvBytes (reqHdr s r)
  eachIn (List.range count) (fun s i => commitPos s r ((bytes.drop (kvb * i)).take kvb)) s

/-- Poison was consumed by the computation of a request: it ends alone (R460, R514). -/
def commitPoison (s : State) (m r : Nat) (heads : List (Nat × Nat)) : State × Nat × Bool :=
  let s := poisonRead s (slotLensPage s m) (reqGet s r).part
  (finishRun s r 5 stPoison heads, 0, true)

/-- Tokens of a step are written until the first end (R458, R489); the end, or 0. -/
def writeTokens (h : BitVec 1024) (r : Nat) (s : State) : List Nat → State × Nat
  | [] => (s, 0)
  | t :: ts =>
    let x := reqGet s r
    let s := ringToken s r t
    let e := endOf h x t (x.maxNew - x.runOut)
    if e ≠ 0 then (s, e) else writeTokens h r s ts

/-- The output of a step is committed: positions, tokens, nodes and the end (Table 13.6). -/
def commitOut (s : State) (m r count : Nat) (bytes : List Byte) (o : StepOut) (heads : List (Nat × Nat)) : State × Nat × Bool :=
  let h := reqHdr s r
  let s := reqMod s r fun x => { x with flushed := x.flushed || o.flushed }
  let s := commitRun s r count bytes
  let s := charge s m (reqGet s r).account count
  let (s, e) := writeTokens h r s o.tokens
  let s := reqMod s r fun x => { x with
    dfaState := if o.tokens = [] then x.dfaState else o.dfa
    state := if x.state = .prefill ∧ x.promptLen ≤ x.seqLen then .decode else x.state }
  let s := insertBlocks s r
  if e ≠ 0 then (finishRun s r e stOk heads, count, true)
  else if o.deadEnd then
    let s := finishRun s r 5 stGrammarDeadEnd heads
    let s := s.fset pgMask F.MASK_DEAD (satAdd (s.fget pgMask F.MASK_DEAD) 1 0xFFFFFFFF)
    (pageIrq s pgMask 1, count, true)
  else (s, count, false)

/-- COMMIT of a prefill chunk (R495). -/
def commitPrefill (s : State) (m r chunk : Nat) (heads : List (Nat × Nat)) : State × Nat × Bool :=
  let x := reqGet s r
  let h := reqHdr s r
  let fl := slotFlush s m
  match modelImage s m x.part with
  | (none, s) => commitPoison s m r heads
  | (some image, s) => match kvData s r x.seqLen with
    | (none, s) => commitPoison s m r heads
    | (some kv, s) =>
      let toks := (x.toks.drop (x.seqLen - x.tokBase)).take chunk
      let run := kvRun fl (hKvBytes h) image toks kv
      let bytes := run.1.drop kv.length
      if x.seqLen + chunk < x.promptLen then commitOut s m r chunk bytes { flushed := run.2 } heads
      else
        let (v, s) := maskView s x
        match pickAt fl h x image run.1 v x.dfaState (toks.getLastD 0) x.outCount with
        | (.poison, _) => commitPoison s m r heads
        | (.deadEnd, f) => commitOut s m r chunk bytes { deadEnd := true, flushed := run.2 || f } heads
        | (.token t, f) =>
          commitOut s m r chunk bytes { tokens := [t], dfa := maskNext v (hEos h) x.dfaState t, flushed := run.2 || f } heads

/-- The draft engine forms the proposals of a request (R487): none where it reads poison. It keeps the request's draft context in its
part of the draft context region (R486). -/
def draftRun (s : State) (m r d : Nat) : Option (List Nat) × State :=
  let x := reqGet s r
  let ds := bindSlot (mslotGet s m).bind
  if d = 0 ∨ bindLive s m = false ∨ coresIn s ds = 0 then (some [], reqMod s r fun x => { x with draftCtx := false })
  else
    let h := (mslotGet s ds).header
    let fl := slotFlush s ds
    let (v, s) := maskView s x
    match modelImage s ds x.part with
    | (none, s) => (none, s)
    | (some image, s) =>
      let committed := x.toks.take (x.seqLen - x.tokBase)
      let ctx := committed.drop (committed.length - min (hDraftWindow h) committed.length)
      let kv := (kvRun fl (hKvBytes h) image ctx []).1
      let s := dramStore s x.part (draftBase s + draftSlice s * r) kv []
      let last := x.toks.getD (x.seqLen - x.tokBase) 0
      (propose fl h x image v d kv last x.dfaState, reqMod s r fun x => { x with draftCtx := true })

/-- COMMIT of a decode step (R488, R489). -/
def commitDecode (s : State) (m r d : Nat) (heads : List (Nat × Nat)) : State × Nat × Bool :=
  let x := reqGet s r
  let h := reqHdr s r
  match draftRun s m r d with
  | (none, s) => commitPoison s m r heads
  | (some ds, s) => match modelImage s m x.part with
    | (none, s) => commitPoison s m r heads
    | (some image, s) => match kvData s r x.seqLen with
      | (none, s) => commitPoison s m r heads
      | (some kv, s) =>
        let (v, s) := maskView s x
        let last := x.toks.getD (x.seqLen - x.tokBase) 0
        let o := verify (slotFlush s m) h x image v ds kv last x.dfaState 0 {}
        if o.poison then commitPoison s m r heads
        else
          let s := reqMod s r fun x => { x with proposed := (x.proposed + ds.length) % 2 ^ 32, accepted := (x.accepted + o.accepted) % 2 ^ 32 }
          let s := s.fset pgDraft F.DRAFT_PROPOSED (satAdd (s.fget pgDraft F.DRAFT_PROPOSED) ds.length 0xFFFFFFFF)
          let s := s.fset pgDraft F.DRAFT_ACCEPTED (satAdd (s.fget pgDraft F.DRAFT_ACCEPTED) o.accepted 0xFFFFFFFF)
          commitOut s m r o.tokens.length (o.kv.drop kv.length) o heads

/-- The step that forms a summary ends (R463). -/
def commitSummary (s : State) (m r : Nat) : State × Nat × Bool :=
  let x := reqGet s r
  let poisoned := fun (s : State) =>
    let s := poisonRead s (slotLensPage s m) x.part
    let s := match x.pauseJob with | some j => jobDone s j stPoison 0 | none => s
    (reqMod s r fun x => { x with pauseJob := none }, 0, true)
  match modelImage s m x.part with
  | (none, s) => poisoned s
  | (some image, s) => match kvData s r x.seqLen with
    | (none, s) => poisoned s
    | (some kv, s) =>
      let fl := slotFlush s m
      (reqMod s r fun x => { x with summary := some ((List.range 0x10000).map (Config.summaryByte fl image kv)),
                                    flushed := x.flushed || (fl && Config.summaryFlushed image kv) }, 0, false)

/-- COMMIT of one request of the ended step: its positions committed by computation, and whether it has ended. -/
def commitOne (s : State) (m r : Nat) (p : StepPart) (heads : List (Nat × Nat)) : State × Nat × Bool :=
  match p with
  | .prefill chunk => commitPrefill (reqMod s r fun x => { x with draftCtx := false }) m r chunk heads
  | .decode d => commitDecode s m r d heads
  | .summary => commitSummary s m r

/-- F of a partition grows by what its requests committed (R493). -/
def fairCharge (s : State) (m part c : Nat) : State :=
  let x := mslotGet s m
  let w := max 1 (s.fget (pgPart + part) F.PART_SHARE1_WEIGHT)
  mslotSet s m { x with fair := x.fair.set 0 part ((x.fair.get 0 part + c * 65536 / w) % 2 ^ 64) }

/-- COMMIT of the ended step, and the ends of requests whose budget has stayed spent (R492); the requests that have ended. -/
def commitStep (s : State) (m : Nat) (members : List (Nat × StepPart)) (heads : List (Nat × Nat)) : State × List Nat :=
  let r := members.foldl (fun (acc : State × List Nat × Tab Nat) mb =>
    let (s, ended, cs) := acc
    let x := reqGet s mb.1
    if x.state = .free ∨ cancelDue s mb.1 then acc
    else
      let (s, c, e) := commitOne s m mb.1 mb.2 heads
      (s, if e then mb.1 :: ended else ended, cs.set 0 x.part (cs.get 0 x.part + c))) (s, [], [])
  let s := eachIn r.2.2 (fun s pc => fairCharge s m pc.1 pc.2) r.1
  (slotReqs s m).foldl (fun (acc : State × List Nat) q =>
    let x := reqGet acc.1 q
    if x.spent ∧ (x.state = .prefill ∨ x.state = .decode) ∧ ¬ acc.2.contains q ∧ cancelDue acc.1 q = false then
      (finishRun acc.1 q 5 stBudgetExhausted heads, q :: acc.2)
    else acc) (s, r.2.1)

/-! ### The other actions -/

/-- RELEASE: requests that have ended or have a cancel pending, in ascending RQT index. -/
def releaseStep (s : State) (m : Nat) (ended : List Nat) (heads : List (Nat × Nat)) : State :=
  eachIn (slotReqs s m) (fun s r =>
    if ended.contains r then releaseReq s r
    else if cancelDue s r then cancelRelease s r heads else s) s

/-- PAUSE (R461): the run ends with PAUSED and the entry is kept. -/
def pauseStep (s : State) (m : Nat) (heads : List (Nat × Nat)) : State :=
  eachIn (slotReqs s m) (fun s r =>
    let x := reqGet s r
    if x.pausePending ∧ (x.state = .prefill ∨ x.state = .decode) then
      reqMod (finishRun s r 4 stOk heads) r fun x =>
        { x with state := .pausing, pausePending := false, imagePages := x.row.length, summary := none }
    else s) s

/-- CORES: cores leave and rejoin, and CLUSTERS and DRAFT_BIND take effect (R435, R502). -/
def coresStep (s : State) (m : Nat) : State :=
  let x := mslotGet s m
  let next := s.fget pgServe (F.SERVE_SLOT_CFG_CLUSTERS.sh (16 * m))
  let s := eachIn (clustersOf s (x.clusters ||| next)) coreTurn s
  let bind := s.reg pgDraft (F.DRAFT_BIND_DSLOT.off + 4 * m)
  liveUpdate (mslotSet s m { mslotGet s m with clusters := next, bind := bind }) m

/-- The read of appended tokens of a resumption, or none to make (R464). -/
def askTokens (s : State) (r : Nat) : State :=
  let x := reqGet s r
  let s := reqSet s r { x with restore := .tokens }
  match x.job with
  | none => s
  | some j => match jobGet s j with
    | none => s
    | some y =>
      if x.appended = 0 then jobSet s j { y with stage := 2, data := none }
      else hostSend (jobSet s j { y with stage := 1, data := none }) x.part (.read x.part (payBits y 128 64) (4 * x.appended))

/-- A resumption begins its copy: the pause image is read, or the summary is taken up (R464). -/
def startRestore (s : State) (r : Nat) : State :=
  let x := reqGet s r
  if x.summaryHeld then askTokens s r
  else
    let s := reqSet s r { x with restore := .image }
    match x.job with
    | none => s
    | some j => match jobGet s j with
      | none => s
      | some y => hostSend (jobSet s j { y with stage := 1, data := none }) x.part (.read x.part x.pauseAddr (0x8000 * x.imagePages + 64))

/-- A request tries its reservation (R447): whether the pool supplies it. -/
def trySupply (s : State) (r : Nat) : Bool × State :=
  let x := reqGet s r
  if x.state = .queued ∧ x.looked = false then (false, s)
  else match kvSupply s x.reserved (kvPromised s) with
    | (false, s) => (false, s)
    | (true, s) =>
      let s := reqMod s r fun x => { x with granted := true }
      if x.state = .queued then (true, reqMod (copyBlocks s r) r fun x => { x with state := .prefill })
      else (true, startRestore s r)

/-- Requests of a slot that wait for a reservation, in order of admission. -/
def waitingReqs (s : State) (m : Nat) : List Nat :=
  let l := s.serve.reqs.filter fun r => r.2.slot = m ∧ r.2.granted = false
    ∧ (r.2.state = .queued ∨ (r.2.state = .resuming ∧ r.2.restore = .waiting))
  (l.foldl (fun (acc : Tab Nat) r => acc.ins r.2.seq r.1) []).map Prod.snd

/-- Try reservations strictly in order. -/
def supplyAll (s : State) : List Nat → State
  | [] => s
  | r :: rs => match trySupply s r with
    | (true, s) => supplyAll s rs
    | (false, s) => s

/-- A formed summary gets its two pages (R463), when the pool supplies them. -/
def placeSummary (s : State) (r : Nat) : State :=
  let x := reqGet s r
  match x.summary with
  | none => s
  | some bytes =>
    match kvSupply s 2 (kvPromised s - (if x.granted then x.reserved else 0)) with
    | (false, s) => s
    | (true, s) =>
      match kvTake s x.part with
      | (none, s) => s
      | (some a, s) => match kvTake s x.part with
        | (none, s) => s
        | (some b, s) =>
          let s := kvPut s a { ref := 1, charged := some (r, x.part) }
          let s := kvPut s b { ref := 1, charged := some (r, x.part) }
          let s := dramStore s x.part (pageAddr s a) (bytes.take 0x8000) []
          let s := dramStore s x.part (pageAddr s b) (bytes.drop 0x8000) []
          let s := releasePages s r
          let s := rowAdd (rowAdd s r 0 a) r 1 b
          let s := reqMod s r fun x => { x with state := .paused, summary := none, summaryHeld := true, draftCtx := false, pauseJob := none }
          match x.pauseJob with
          | some j => jobDone s j stOk 2
          | none => s

/-- ADMIT: reservations in order of admission, and summaries that wait for pages. -/
def admitStep (s : State) (m : Nat) : State :=
  let s := supplyAll s (waitingReqs s m)
  eachIn (slotReqs s m) (fun s r => if (reqGet s r).state = .pausing ∧ (reqGet s r).pauseSummary then placeSummary s r else s) s

/-! ### BATCH -/

/-- Rings with fewer than 10 free entries are read once and excluded (R457). -/
def ringTest (s : State) (r : Nat) (heads : List (Nat × Nat)) : State :=
  let s := if ringFree (reqGet s r) < 10 then readHead s r heads else s
  reqMod s r fun x => { x with ringFull := decide (ringFree x < 10) }

/-- The candidates of a slot (R490). -/
def candidates (s : State) (m : Nat) : List Nat :=
  let b := polBudget (mslotGet s m)
  (slotReqs s m).filter fun r =>
    let x := reqGet s r
    (x.state = .prefill || x.state = .decode) && !cancelDue s r && !x.pausePending && !x.ringFull
      && !(b && decide (balGet s x.account ≤ 0))

/-- Lexicographic order of keys. -/
def keyLt : List Nat → List Nat → Bool
  | a :: as, b :: bs => decide (a < b) || (a == b && keyLt as bs)
  | _, _ => false

/-- The order of R490. -/
def reqKey (s : State) (m r : Nat) : List Nat :=
  let x := reqGet s r
  let y := mslotGet s m
  [255 - x.priority, if polBudget y then 0 else y.fair.get 0 x.part, x.admitStep, r]

def insertByKey (s : State) (m r : Nat) : List Nat → List Nat
  | [] => [r]
  | q :: qs => if keyLt (reqKey s m r) (reqKey s m q) then r :: q :: qs else q :: insertByKey s m r qs

/-- The candidates in order. -/
def orderReqs (s : State) (m : Nat) (l : List Nat) : List Nat := l.foldl (fun acc r => insertByKey s m r acc) []

/-- F of partitions that come back (R493). -/
def fairReturn (s : State) (m : Nat) (cands : List Nat) : State :=
  let y := mslotGet s m
  let parts := (List.range 16).filter fun p => cands.any fun r => (reqGet s r).part = p
  let least := (y.hadCands.map fun p => y.fair.get 0 p).min?
  let fair := parts.foldl (fun (f : Tab Nat) p =>
    match least with
    | some v => if y.hadCands.contains p then f else f.set 0 p (max (f.get 0 p) v)
    | none => f) y.fair
  mslotSet s m { y with fair := fair, hadCands := parts }

/-- Prompt positions that remain. -/
def remOf (x : Req) : Nat := x.promptLen - x.seqLen

/-- The chunk of R495 for a capacity. -/
def chunkOf (y : MSlot) (x : Req) (b : Nat) : Nat :=
  let ch := min (remOf x) (min (polChunk y) b)
  if ch < remOf x then ch / 16 * 16 else ch

/-- What a request needs of a capacity, and what it does with it (R494). -/
def needOf (s : State) (m r b : Nat) : Nat × StepPart :=
  let x := reqGet s r
  if x.state = .decode then
    let d := if bindLive s m then min x.draftMax (min (x.maxNew - x.runOut - 1) (b - 1)) else 0
    (1 + d, .decode d)
  else let c := chunkOf (mslotGet s m) x b; (c, .prefill c)

/-- `take` of R494: the members so far and the capacity left. -/
def takeKind (s : State) (m : Nat) (kind : ReqState) : List Nat → List (Nat × StepPart) → Nat → List (Nat × StepPart) × Nat
  | [], got, b => (got, b)
  | r :: rs, got, b =>
    if polMaxReq (mslotGet s m) ≤ got.length then (got, b)
    else if (reqGet s r).state ≠ kind ∨ got.any (fun g => g.1 = r) then takeKind s m kind rs got b
    else
      let n := needOf s m r b
      if 1 ≤ n.1 ∧ n.1 ≤ b then takeKind s m kind rs ((r, n.2) :: got) (b - n.1) else takeKind s m kind rs got b

/-- ρ at the first boundary after a multiple of 800 000 ticks (R496). -/
def rhoUpdate (s : State) (m : Nat) (cands : List Nat) : State :=
  let y := mslotGet s m
  if ¬ polRatio y ∨ s.now / 800000 ≤ y.rhoMark then s
  else
    let s := mslotSet s m { y with rhoMark := s.now / 800000 }
    let qp := ((cands.filter fun r => (reqGet s r).state = .prefill).map fun r => remOf (reqGet s r)).sum
    let qd := (cands.filter fun r => (reqGet s r).state = .decode).length
    if qp + qd = 0 then s
    else
      let f := F.SMP_RHO_RHO.sh (16 * m)
      let t := 256 * qp / (qp + 16 * qd)
      s.fset pgSampler f (min (max ((3 * s.fget pgSampler f + t) / 4) (polRmin y)) (polRmax y))

/-- The members that R494 takes. -/
def formStep (s : State) (m : Nat) (l : List Nat) : List (Nat × StepPart) :=
  let y := mslotGet s m
  let cap := polCap y
  if polRatio y then
    let capP := cap * s.fget pgSampler (F.SMP_RHO_RHO.sh (16 * m)) / 256
    let a := takeKind s m .decode l [] (cap - capP)
    let b := takeKind s m .prefill l a.1 (capP + a.2)
    (takeKind s m .decode l b.1 b.2).1
  else
    let a := takeKind s m .decode l [] cap
    (takeKind s m .prefill l a.1 a.2).1

/-- BATCH: the policies are taken and the next step is formed (R457, R490 to R496). -/
def batchStep (s : State) (m : Nat) (heads : List (Nat × Nat)) : State :=
  let s := mslotSet s m { mslotGet s m with
    pol0 := s.reg pgSampler (F.SMP_POL0_FAIR.off + 16 * m), pol1 := s.reg pgSampler (F.SMP_POL1_TOKEN_CAP.off + 16 * m)
    pol2 := s.reg pgSampler (F.SMP_POL2_CHUNK_MAX.off + 16 * m), step := none }
  if (mslotState s m ≠ msReady ∧ mslotState s m ≠ msDraining) ∨ coresIn s m = 0 then s
  else
    let s := eachIn (slotReqs s m) (fun s r =>
      if (reqGet s r).state = .prefill ∨ (reqGet s r).state = .decode then ringTest s r heads else s) s
    let cands := candidates s m
    let s := rhoUpdate (fairReturn s m cands) m cands
    let sums := (slotReqs s m).filter fun r =>
      (reqGet s r).state = .pausing && (reqGet s r).pauseSummary && (reqGet s r).summary.isNone && !cancelDue s r
    let got := formStep s m (orderReqs s m cands) ++ sums.map fun r => (r, StepPart.summary)
    let got : Tab StepPart := got.foldl (fun (t : Tab StepPart) g => t.ins g.1 g.2) []
    mslotSet s m { mslotGet s m with step := if got = [] then none else some got }

/-- Actions 2 to 6 of a boundary (Table 13.6). -/
def boundaryRest (s : State) (m : Nat) (ended : List Nat) (heads : List (Nat × Nat)) : State :=
  let s := releaseStep s m ended heads
  let s := pauseStep s m heads
  batchStep (admitStep (coresStep s m) m) m heads

/-- STEP_BOUNDARY (R437): the slot's step ends. `heads` gives what reads of HEAD words bring at this boundary, by RQT entry
(DEDUCED, assumption 110). -/
def execStepBoundary (mslot : Nat) (heads : List (Nat × Nat)) (s : State) : Host.Outcome State Fault Refusal :=
  nxt <| match (mslotGet s mslot).step with
    | none => s
    | some members =>
      let lo := F.SERVE_SLOT_STEP_LO.off + 16 * mslot
      let s := s.setReg64 pgServe lo (lo + 4) ((s.reg64 pgServe lo (lo + 4) + 1) % 2 ^ 64)
      let r := commitStep s mslot members heads
      boundaryRest r.1 mslot r.2 heads

/-- IDLE_SLOT_APPLY (R438): while the slot runs no step, what waits for its boundary is applied (DEDUCED, assumption 113). -/
def execIdleSlotApply (mslot : Nat) (heads : List (Nat × Nat)) (s : State) : Host.Outcome State Fault Refusal :=
  nxt <|
    if (mslotGet s mslot).step.isSome then s
    else
      let r := commitStep s mslot [] heads
      boundaryRest r.1 mslot r.2 heads

end Sys2Proof.Machine
end

