-- ==== Sys2Proof/Machine/Serve.lean ====
section
/-! DEFINITION. The serving commands: model slots, requests, pauses, masks, cores, budgets, and writes of the serving registers (R429 to
R503). -/

namespace Sys2Proof.Machine

/-! ### Where regions lie -/

/-- Two ranges overlap. -/
def overlaps (a al b bl : Nat) : Bool := decide (0 < al) && decide (0 < bl) && decide (a < b + bl) && decide (b < a + al)

/-- The memory regions granted to a partition (PART_MEM): base and bytes. -/
def partMem (s : State) (n : Nat) : List (Nat × Nat) :=
  (List.range 16).filterMap fun i =>
    let o := 0x200 + 16 * i
    let u := bitsOf (s.reg (pgPart + n) (o + 8)) 0 14
    if u = 0 then none else some (s.reg64 (pgPart + n) o (o + 4), u * 2 ^ 21)

/-- The range lies in device memory that P0 holds (Table 5.1). -/
def p0Memory (s : State) (b l : Nat) : Bool :=
  l == 0 || (decide (b + l ≤ memSize s)
    && (List.range' 1 (s.var.partitions - 1)).all fun n => (partMem s n).all fun r => !overlaps b l r.1 r.2)

/-- The regions of R433 check 5, R480 and R486, each with a number of its own: slot images 0 to 7, the KV pool 8, its descriptors 9, the
KV page table 10, the node table 11, the draft contexts 12, mask tables from 16 on, the Plan region 100. The KV page table counts
while the pool has pages. -/
def serveRegions (s : State) : List (Nat × Nat × Nat) :=
  (List.range 8).map (fun m =>
      let x := mslotGet s m
      (m, x.base, if mslotState s m = msEmpty then 0 else (x.length + 2 ^ 21 - 1) / 2 ^ 21 * 2 ^ 21))
    ++ [(8, kvBase s, 0x8000 * kvPages s), (9, kvDesc s, 8 * kvPages s), (10, kvTable s, if kvPages s = 0 then 0 else 2 ^ 24),
        (11, pfxBase s, 128 * pfxNodes s), (12, draftBase s, draftSlice s * 1024)]
    ++ (List.range 32).map (fun t => let x := s.serve.masks.get {} t; (16 + t, x.base, if maskState s t = 0 then 0 else x.length))
    ++ [(100, s.reg64 pgMemc F.MEMC_PLAN_BASE_LO.off F.MEMC_PLAN_BASE_HI.off, s.fget pgMemc F.MEMC_PLAN_SIZE_UNITS * 2 ^ 21)]

/-- A region may lie where it lies: in P0's memory and over no other region. -/
def placed (s : State) (k b l : Nat) : Bool :=
  p0Memory s b l && (serveRegions s).all fun r => r.1 == k || !overlaps b l r.2.1 r.2.2

/-- A numbered region of the state may lie where it lies. -/
def regionPlaced (s : State) (k : Nat) : Bool :=
  (serveRegions s).all fun r => r.1 != k || placed s k r.2.1 r.2.2

/-- Every model slot is EMPTY. -/
def slotsEmpty (s : State) : Bool := (List.range 8).all fun m => mslotState s m = msEmpty

/-! ### Model slots -/

/-- Bits of the low quarter of a model header that Table 13.4 defines. -/
def headerMask : Nat :=
  bitMask 47 0 + bitMask 82 64 + bitMask 100 96 + bitMask 145 112 + bitMask 171 160 + bitMask 209 192

/-- The first check of Table 13.5 that an image fails, or 0. -/
def modelCheck (s : State) (m base len : Nat) (h : BitVec 1024) (body : ModelBody) : Nat :=
  let low := h.toNat % 2 ^ 256
  if bitsOf h 0 32 ≠ 0x4D534C45 ∨ bitsOf h 32 16 ≠ 1 ∨ low &&& headerMask ≠ low ∨ ¬ body.rsvClear ∨ len < max 128 body.bytes then 1
  else if hVocab h = 0 ∨ 0x40000 < hVocab h ∨ hBlocks h = 0 ∨ 16 < hBlocks h ∨ 32768 < hTpp h * hKvBytes h ∨ hMaxCtx h < 16
      ∨ 65536 < hMaxCtx h ∨ (hSummary h ∧ hSummaryTokens h = 0) ∨ hVocab h ≤ hEos h then 2
  else if body.dots.any (fun d => (d.a == 3) != (d.b == 3)) then 3
  else if body.dots.any (fun d => d.scaleAt.any fun k => k % 32 != 0) then 4
  else if ¬ placed s m base ((len + 2 ^ 21 - 1) / 2 ^ 21 * 2 ^ 21) then 5
  else if hVocabId h = 0 ∨ (hDraftable h ∧ (hDraftWindow h < 16 ∨ 4096 < hDraftWindow h ∨ hDraftWindow h % 16 ≠ 0)) then 6
  else 0

/-- Ask the host for a job's data. -/
def askData (s : State) (j addr len : Nat) : State :=
  match jobGet s j with
  | none => s
  | some x => hostSend (jobSet s j { x with stage := 1, data := none }) x.part (.read x.part addr len)

/-- MODEL_LOAD (R433): the slot is LOADING while the image is read; its bytes are stored where the region may lie there. -/
def execModelLoad (job : Nat) (body : ModelBody) (s : State) : Host.Outcome State Fault Refusal :=
  nxt <| match startedJob s job 0x30 with
    | none => s
    | some x =>
      let m := payBits x 32 3
      let base := payBits x 192 64
      let len := payBits x 128 40
      if x.stage = 0 then
        if x.part ≠ 0 then jobDone s job stNotOwner 0
        else if base % 2 ^ 21 ≠ 0 then jobDone s job stBadEntry 0
        else if mslotState s m ≠ msEmpty then jobDone s job 0x0D01 0
        else askData (mslotMove s m msLoading) job (payBits x 64 64) len
      else if x.cancel then jobDone (mslotMove s m msEmpty) job stCancelled 0
      else match x.data with
        | none => s
        | some (.good d ps) =>
          let ok := placed s m base ((len + 2 ^ 21 - 1) / 2 ^ 21 * 2 ^ 21)
          let s := if ok then dramStore s 0 base d ps else s
          if ps ≠ [] then jobDone (mslotMove s m msEmpty) job stPoison 0
          else
            let h := BitVec.ofNat 1024 (leNat (d.take 128))
            let c := modelCheck s m base len h body
            if c ≠ 0 then jobDone (mslotMove s m msEmpty) job 0x0D00 c
            else
              let lo := F.SERVE_SLOT_STEP_LO.off + 16 * m
              let s := s.setReg64 pgServe lo (lo + 4) 0
              let s := mslotSet s m { mslotGet s m with header := h, base := base, length := len, unload := none, step := none }
              jobDone (mslotMove s m msReady) job stOk 0
        | some _ => jobDone (mslotMove s m msEmpty) job stMemHostErr 0

/-- A request gets a cancel (R459): a PAUSED one is released at once. -/
def cancelReq (s : State) (r : Nat) : State :=
  if (reqGet s r).state = .paused then releaseReq s r
  else reqMod s r fun x => { x with cancelPending := true }

/-- The REQ_SUBMIT jobs that wait for an RQT entry, in order (R440) (DEDUCED, assumption 109). -/
def waitingJobs (s : State) : List Nat :=
  let held := s.serve.reqs.filterMap fun r => r.2.job
  let l := s.qe.jobs.filter fun j => j.2.phase = .started ∧ j.2.opcode = 0xA0 ∧ j.2.aux ≠ 0 ∧ ¬ held.contains j.1
  (l.foldl (fun (acc : Tab Nat) j => acc.ins j.2.aux j.1) []).map Prod.snd

/-- MODEL_UNLOAD (R434). -/
def execModelUnload (job : Nat) (s : State) : Host.Outcome State Fault Refusal :=
  nxt <| match startedJob s job 0x31 with
    | none => s
    | some x =>
      let m := payBits x 32 3
      if x.stage ≠ 0 then s
      else if x.part ≠ 0 then jobDone s job stNotOwner 0
      else if mslotState s m ≠ msReady then jobDone s job 0x0D01 0
      else
        let s := mslotMove (jobSet s job { x with stage := 100 }) m msDraining
        let s := mslotSet s m { mslotGet s m with unload := some (job, 0) }
        let late := (waitingJobs s).filter fun j => match jobGet s j with | some y => payBits y 32 3 = m | none => False
        let s := eachIn late (fun s j => jobDone s j 0x0D02 0) s
        let hit := (slotReqs s m).filter fun r => payBits x 40 1 = 1 ∨ (reqGet s r).state = .paused
        mslotSettle (eachIn hit cancelReq s) m

/-- PREFIX_FLUSH (R431, R450). -/
def execPrefixFlush (job : Nat) (s : State) : Host.Outcome State Fault Refusal :=
  nxt <| match startedJob s job 0x32 with
    | none => s
    | some x =>
      if x.part ≠ 0 then jobDone s job stNotOwner 0
      else
        let n := s.serve.nodes.length
        let s := if payBits x 39 1 = 1 then eachIn (List.range 8) flushSlot s else flushSlot s (payBits x 32 3)
        jobDone s job stOk (n - s.serve.nodes.length)

/-! ### Submission -/

/-- TEMP is finite and not below zero (Table 14.2). -/
def tempOk (t : Nat) : Bool := t % 2 ^ 31 == 0 || decide (t < 0x7F800000)

/-- The decoding parameters of a chain: entry 1, or the defaults (Table 14.2). -/
def decodeEntry (x : Job) : BitVec 512 :=
  if x.entries.length = 1 then BitVec.ofNat 512 (0x3F800000 * 2 ^ 32 + 15 * 2 ^ 88) else x.entries.getD 1 0

/-- The fields of a REQ_SUBMIT lie in their ranges (Tables 13.8 and 14.2). -/
def submitOk (x : Job) : Bool :=
  let e := decodeEntry x
  let d := bitsOf e 88 4
  decide (x.entries.length ≤ 2) && payBits x 128 2 == 0
    && decide (1 ≤ payBits x 192 17) && decide (payBits x 192 17 ≤ 65536)
    && decide (1 ≤ payBits x 224 17) && decide (payBits x 224 17 ≤ 65536)
    && decide (4 ≤ payBits x 248 5) && decide (payBits x 248 5 ≤ 16) && payBits x 256 12 == 0
    && bitsOf e 72 2 != 3 && (decide (d ≤ 8) || d == 15) && tempOk (bitsOf e 32 32)

/-- The partition may use the slot, and in BUDGET mode the account (R440, R491). -/
def slotGranted (s : State) (part m acct : Nat) : Bool :=
  (part == 0 || natBit (s.fget (pgPart + part) F.PART_SLOTS_SLOTS) m)
    && (!polBudget (mslotGet s m) || natBit (s.fget pgSampler (F.ACCT_PARTS_PARTS.sh (16 * acct))) part)

/-- The outcome of R440, or OK. -/
def submitCheck (s : State) (x : Job) : Nat :=
  let m := payBits x 32 3
  if ¬ submitOk x then stBadEntry
  else if ¬ slotGranted s x.part m (payBits x 40 6) ∨ (x.part ≠ 0 ∧ (revoking s x 2).any fun r => payBits r 40 3 = m) then stNotOwner
  else if mslotState s m ≠ msReady then 0x0D02
  else if hMaxCtx (mslotGet s m).header < payBits x 192 17 + payBits x 224 17 then 0x0D0B
  else if s.fget (pgPart + x.part) F.PART_SHARE1_RQT_MAX ≤ rqtUse s x.part then 0x0D04
  else stOk

/-- REQ_SUBMIT (R440): the checks, and then the wait for an RQT entry. -/
def execReqSubmit (job : Nat) (s : State) : Host.Outcome State Fault Refusal :=
  nxt <| match startedJob s job 0xA0 with
    | none => s
    | some x =>
      if x.aux = 0 then
        let c := submitCheck s x
        if c ≠ stOk then jobDone s job c 0
        else
          let s := { s with serve := { s.serve with nextSeq := s.serve.nextSeq + 1 } }
          jobSet s job { x with aux := s.serve.nextSeq }
      else if x.cancel ∧ (waitingJobs s).contains job then jobDone s job stCancelled 0
      else s

/-- The request that a REQ_SUBMIT makes in an entry (Tables 13.10 and 14.3). -/
def newReq (s : State) (r j : Nat) (x : Job) : Req :=
  let e := decodeEntry x
  let m := payBits x 32 3
  let lo := F.SERVE_SLOT_STEP_LO.off + 16 * m
  let g := gainOf (slotFlush s m) (bitsOf e 32 32)
  let d := bitsOf e 88 4
  { state := .queued, slot := m, flushed := g.2, part := x.part, account := payBits x 40 6, priority := payBits x 48 8
    shared := payBits x 56 1 = 1 && s.fbit pgServe (F.SERVE_SLOT_CFG_SHARED_OK.sh (16 * m)), noInsert := payBits x 57 1 = 1
    gen := (s.serve.gens.get 0 r + 1) % 65536, qp := x.qp, seed := BitVec.ofNat 64 (payBits x 64 64), promptLen := payBits x 192 17
    maxNew := payBits x 224 17, deadline := payBits x 320 64, ringBase := payBits x 256 64, ringLog2 := payBits x 248 5, tag := x.tag
    admitStep := s.reg64 pgServe lo (lo + 4), maskKind := bitsOf e 72 2, maskTable := bitsOf e 80 5
    draftMax := if d = 15 then bindMax (mslotGet s m).bind else d, temp := bitsOf e 32 32, topK := bitsOf e 64 8
    stop0 := bitsOf e 96 18, stop0En := bitAt e 114, stop1 := bitsOf e 128 18, stop1En := bitAt e 146, gain := g.1, job := some j
    seq := x.aux }

/-- A handle: the RQT index and the generation number. -/
def handleOf (s : State) (r : Nat) : Nat := r + (reqGet s r).gen * 2 ^ 16

/-- The tokens of host words. -/
def wordsOf (d : List Byte) (n : Nat) : List Nat := (List.range n).map fun i => leNat ((d.drop (4 * i)).take 4)

/-- The reservation of a request (R447): refused for good, or asked of the pool when it is first in order. -/
def reserve (s : State) (r res : Nat) : State :=
  let x := reqGet s r
  if kvPages s < res then refuseReq s r 0x0D05
  else if s.fget (pgPart + x.part) F.PART_SHARE0_KV_PAGES < kvUse s x.part + res then refuseReq s r 0x0D03
  else
    let s := reqSet s r { x with reserved := res }
    if (waitingReqs s x.slot).head? = some r then (trySupply s r).2 else s

/-- Steps 3 to 5 of R441 and the mask check of R473, with the prompt's words. -/
def admitPrompt (s : State) (r : Nat) (toks : List Nat) : State :=
  let x := reqGet s r
  let h := reqHdr s r
  let t := s.serve.masks.get {} x.maskTable
  if toks.any (fun t => decide (hVocab h ≤ t)) ∨ (x.stop0En ∧ hVocab h ≤ x.stop0) ∨ (x.stop1En ∧ hVocab h ≤ x.stop1) then
    refuseReq s r 0x0D08
  else if x.maskKind ≠ 0 ∧ (maskState s x.maskTable ≠ 2 ∨ maskKind s x.maskTable ≠ x.maskKind ∨ t.vocab ≠ hVocab h) then
    refuseReq s r 0x0E02
  else
    let s := reqSet s r { x with toks := toks, dfaState := if x.maskKind = 1 then t.start else 0 }
    let s := lookupReuse s r
    let y := reqGet s r
    let s := hostSend s y.part (.write y.part (y.ringBase + 12) (leBytes 4 y.reused))
    let tpp := hTpp h
    reserve s r ((y.promptLen + y.maxNew + tpp - 1) / tpp - y.row.length)

/-- RQT_ALLOCATE (R441): a FREE entry goes to the job that has waited longest, and its prompt is read; with the prompt there, the
request goes on (DEDUCED, assumption 108). -/
def execRqtAllocate (rqt : Nat) (s : State) : Host.Outcome State Fault Refusal :=
  let x := reqGet s rqt
  nxt <|
    if x.state = .free then
      match waitingJobs s with
      | [] => s
      | j :: _ => match jobGet s j with
        | none => s
        | some y =>
          if s.var.rqtEntries ≤ rqt then s
          else if y.cancel then jobDone s j stCancelled 0
          else
            let s := reqSet s rqt (newReq s rqt j y)
            let s := { s with serve := { s.serve with gens := s.serve.gens.set 0 rqt (reqGet s rqt).gen } }
            let s := hostSend s y.part (.write y.part (payBits y 256 64 + 8) (leBytes 4 (handleOf s rqt)))
            askData s j (payBits y 128 64) (4 * payBits y 192 17)
    else if x.state = .queued ∧ x.looked = false then
      match x.job.bind (jobGet s) with
      | none => s
      | some y => match y.data with
        | none => s
        | some (.good d []) => admitPrompt s rqt (wordsOf d x.promptLen)
        | some (.good _ _) => refuseReq s rqt stPoison
        | some _ => refuseReq s rqt stMemHostErr
    else s

/-! ### Handle jobs -/

/-- The live request a handle names for its submitter (R444). -/
def handleReq (s : State) (x : Job) : Option Nat :=
  let r := payBits x 32 10
  let y := reqGet s r
  if y.state = .free ∨ payBits x 42 6 ≠ 0 ∨ y.gen ≠ payBits x 48 16 ∨ y.part ≠ x.part then none else some r

/-- REQ_CANCEL (R444, R459): it completes when the request is freed. -/
def execReqCancel (job : Nat) (s : State) : Host.Outcome State Fault Refusal :=
  nxt <| match startedJob s job 0xA1 with
    | none => s
    | some x =>
      if x.stage ≠ 0 then s
      else match handleReq s x with
        | none => jobDone s job 0x0D06 0
        | some r =>
          let s := jobSet s job { x with stage := 100 }
          cancelReq (reqMod s r fun y => { y with cancelJobs := y.cancelJobs ++ [job] }) r

/-- The outcome of R444 for a REQ_PAUSE, or the request. -/
def pauseCheck (s : State) (x : Job) : Nat ⊕ Nat :=
  if payBits x 128 12 ≠ 0 ∨ (payBits x 64 1 = 0 ∧ payBits x 80 16 = 0) then .inl stBadEntry
  else match handleReq s x with
    | none => .inl 0x0D06
    | some r =>
      let y := reqGet s r
      if (y.state ≠ .prefill ∧ y.state ≠ .decode) ∨ cancelDue s r ∨ y.pausePending then .inl 0x0D07
      else if payBits x 64 1 = 1 ∧ hSummary (reqHdr s r) = false then .inl 0x0D09
      else .inr r

/-- REQ_PAUSE (R461, R463). -/
def execReqPause (job : Nat) (s : State) : Host.Outcome State Fault Refusal :=
  nxt <| match startedJob s job 0xA2 with
    | none => s
    | some x =>
      if x.stage ≠ 0 then s
      else match pauseCheck s x with
        | .inl st => jobDone s job st 0
        | .inr r =>
          let s := jobSet s job { x with stage := 100 }
          reqMod s r fun y => { y with
            pausePending := true, pauseJob := some job, pauseSummary := payBits x 64 1 = 1, pauseTtl := payBits x 80 16
            pauseAddr := payBits x 128 64 }

/-- The bytes of a pause image's trailer (Table 13.15). -/
def trailer (s : State) (r crc : Nat) : List Byte :=
  let x := reqGet s r
  leBytes 4 0x4B565041 ++ leBytes 4 (handleOf s r) ++ leBytes 4 x.seqLen ++ leBytes 4 x.imagePages ++ leBytes 4 x.slot
    ++ leBytes 4 crc ++ List.replicate 40 0

/-- Write bytes to the host up to the first poisoned word (R515): the bytes written, and whether all were. -/
def hostWrite (s : State) (part addr : Nat) (bs : List (Option Byte)) : Nat × Bool × State :=
  let n := (bs.takeWhile Option.isSome).length
  (n, n = bs.length, if n = 0 then s else hostSend s part (.write part addr ((bs.take n).map fun b => b.getD 0)))

/-- The pages of a request in order, as they read. -/
def pagesOf (s : State) (r : Nat) : List (Option Byte) × State :=
  let x := reqGet s r
  let l := x.row.foldl (fun (acc : List (List (Option Byte)) × State) e =>
    let (bs, s) := dramLoad acc.2 x.part (pageAddr acc.2 e.2) 0x8000
    (bs :: acc.1, s)) ([], s)
  (l.1.reverse.flatten, l.2)

/-- The pause image is written and the request becomes PAUSED (R461, R462). -/
def pauseImage (s : State) (r : Nat) : State :=
  let x := reqGet s r
  let (bs, s) := pagesOf s r
  let (n, whole, s) := hostWrite s x.part x.pauseAddr bs
  let fin := fun (s : State) st res => match x.pauseJob with
    | some j => jobDone s j st res
    | none => s
  if ¬ whole then releaseReq (reqMod (fin (poisonRead s pgRqt x.part) stPoison n) r fun x => { x with pauseJob := none }) r
  else
    let s := hostSend s x.part (.write x.part (x.pauseAddr + bs.length) (trailer s r (crc32 (bs.map fun b => b.getD 0))))
    let s := releasePages s r
    let s := reqMod s r fun x => { x with
      state := .paused, draftCtx := false, ttlEnd := (s.now + 800000 * x.pauseTtl) % 2 ^ 64, pauseJob := none }
    fin s stOk x.imagePages

/-- PAUSE_WRITE_DONE (R461, R468) (DEDUCED, assumption 111). -/
def execPauseWriteDone (rqt : Nat) (s : State) : Host.Outcome State Fault Refusal :=
  let x := reqGet s rqt
  nxt <|
    if x.state ≠ .pausing ∨ x.pauseSummary then s
    else if cancelDue s rqt then cancelRelease s rqt []
    else pauseImage s rqt

/-- PAUSE_TTL_EXPIRY (R462). -/
def execPauseTtlExpiry (rqt : Nat) (s : State) : Host.Outcome State Fault Refusal :=
  let x := reqGet s rqt
  nxt <|
    if x.state ≠ .paused ∨ x.ttlEnd = 0 then s
    else
      let s := releaseReq (s.reach x.ttlEnd) rqt
      pageIrq (s.fincSat pgRqt F.RQT_EXPIRED_COUNT 1) pgRqt 1

/-- The outcome of R444 for a REQ_RESUME, or the request. -/
def resumeCheck (s : State) (x : Job) : Nat ⊕ Nat :=
  if payBits x 128 2 ≠ 0 ∨ 65536 < payBits x 192 17 ∨ payBits x 224 17 = 0 ∨ 65536 < payBits x 224 17 ∨ payBits x 248 5 < 4
      ∨ 16 < payBits x 248 5 ∨ payBits x 256 12 ≠ 0 then .inl stBadEntry
  else match handleReq s x with
    | none => .inl 0x0D06
    | some r =>
      let y := reqGet s r
      let h := reqHdr s r
      let n := if y.summaryHeld then hSummaryTokens h else y.seqLen
      if y.state ≠ .paused then .inl 0x0D07
      else if hMaxCtx h < n + payBits x 192 17 + payBits x 224 17 then .inl 0x0D0B
      else .inr r

/-- REQ_RESUME (R464): it becomes the holding job, and its reservation is asked. -/
def execReqResume (job : Nat) (s : State) : Host.Outcome State Fault Refusal :=
  nxt <| match startedJob s job 0xA3 with
    | none => s
    | some x =>
      if x.stage ≠ 0 then s
      else match resumeCheck s x with
        | .inl st => jobDone s job st 0
        | .inr r =>
          let h := reqHdr s r
          let s := jobSet s job { x with stage := 2 }
          let s := { s with serve := { s.serve with nextSeq := s.serve.nextSeq + 1 } }
          let s := reqMod s r fun y => { y with
            state := .resuming, job := some job, qp := x.qp, tag := x.tag, ringBase := payBits x 256 64, ringLog2 := payBits x 248 5
            maxNew := payBits x 224 17, runOut := 0, written := 0, head := 0, ringFull := false, ttlEnd := 0, draftCtx := false
            appended := payBits x 192 17, restore := .waiting, granted := false, seq := s.serve.nextSeq, wait := 0, spent := false
            reused := y.reused }
          let y := reqGet s r
          let n := (if y.summaryHeld then hSummaryTokens h else y.seqLen) + y.appended + y.maxNew
          reserve s r ((n + hTpp h - 1) / hTpp h)

/-- The summary-conditioned prefill of the model (R464): its positions, or none where it reads poison. -/
def summaryPrefill (s : State) (r : Nat) : Bool × State :=
  let x := reqGet s r
  let h := reqHdr s r
  let fl := slotFlush s x.slot
  match modelImage s x.slot x.part with
  | (none, s) => (false, s)
  | (some image, s) =>
    let (bs, s) := pagesOf s r
    match wholeBytes bs with
    | none => (false, s)
    | some sum =>
      let s := releasePages s r
      let s := reqMod s r fun y => { y with
        reserved := x.reserved, granted := x.granted, seqLen := 0, summaryHeld := false
        flushed := y.flushed || (fl && Config.summaryKvFlushed image sum) }
      let n := hSummaryTokens h
      let bytes := ((List.range n).map fun p => (List.range (hKvBytes h)).map fun k => Config.summaryKv fl image sum p k).flatten
      let s := commitRun s r n bytes
      (true, charge s x.slot x.account n)

/-- The restored request goes on with its appended tokens (R464): they follow SEQ_LEN; with none, the token after SEQ_LEN is the next
input. -/
def resumeRun (s : State) (r : Nat) (toks : List Nat) : State :=
  let x := reqGet s r
  let last := x.toks.getD (x.seqLen - x.tokBase) 0
  let was := x.summaryHeld
  let go := fun (s : State) => reqMod s r fun y =>
    let old := if was then [] else y.toks.take (y.seqLen - y.tokBase)
    { y with
      toks := old ++ (if toks = [] then [last] else toks), tokBase := if was then y.seqLen else y.tokBase
      promptLen := y.seqLen + toks.length, state := if toks = [] then .decode else .prefill
      inserts := y.inserts && !was }
  if was then
    match summaryPrefill s r with
    | (true, s) => go s
    | (false, s) => refuseReq (poisonRead s (slotLensPage s x.slot) x.part) r stPoison
  else go s

/-- The pause image is back (R464): its trailer is checked and its pages are written into new pages. -/
def restoreImage (s : State) (r : Nat) (d : List Byte) : State :=
  let x := reqGet s r
  let n := 0x8000 * x.imagePages
  let body := d.take n
  if (d.drop n).take 24 ≠ (trailer s r (crc32 body)).take 24 then refuseReq s r 0x0D0A
  else
    let s := eachIn (List.range x.imagePages) (fun s i =>
      match pageNew s r i with
      | (some p, s) => dramStore s x.part (pageAddr s p) ((body.drop (0x8000 * i)).take 0x8000) []
      | (none, s) => s) s
    askTokens s r

/-- Appended tokens are checked as a prompt is (R464). -/
def appendTokens (s : State) (r : Nat) (toks : List Nat) : State :=
  if toks.any (fun t => decide (hVocab (reqHdr s r) ≤ t)) then refuseReq s r 0x0D08 else resumeRun s r toks

/-- RESUME_RESTORE_DONE (R464, R468): the next read of the resumption has come. -/
def execResumeRestoreDone (rqt : Nat) (s : State) : Host.Outcome State Fault Refusal :=
  let x := reqGet s rqt
  nxt <|
    if x.state ≠ .resuming ∨ x.restore = .waiting then s
    else if cancelDue s rqt then cancelRelease s rqt []
    else match x.job.bind (jobGet s) with
      | none => s
      | some y =>
        if x.restore = .tokens ∧ x.appended = 0 then appendTokens s rqt []
        else match y.data with
          | none => s
          | some (.good d []) => if x.restore = .image then restoreImage s rqt d else appendTokens s rqt (wordsOf d x.appended)
          | some (.good _ _) => refuseReq s rqt stPoison
          | some _ => refuseReq s rqt stMemHostErr

/-- The value of STATE (Table 13.9). -/
def ReqState.code : ReqState → Nat
  | .free => 0 | .queued => 1 | .prefill => 2 | .decode => 3 | .pausing => 4 | .paused => 5 | .resuming => 6

/-- The 128 bytes of an RQT entry (Tables 13.10 and 14.3); GEN stays in a FREE one. -/
def rqtBits (s : State) (r : Nat) : BitVec 1024 :=
  let x := reqGet s r
  if x.state = .free then BitVec.ofNat 1024 (s.serve.gens.get 0 r * 2 ^ 32)
  else
    let fs : List (Nat × Nat) := [(x.state.code, 0), (x.slot, 4), (b2n x.flushed, 7), (x.part, 8), (x.account, 12), (x.priority, 18),
      (b2n x.shared, 26), (b2n x.summaryHeld, 27), (b2n (cancelDue s r), 28), (b2n x.pausePending, 29), (b2n x.ringFull, 30),
      (b2n x.noInsert, 31), (x.gen, 32), (x.qp, 48), (x.seed.toNat, 64), (x.promptLen, 128), (x.maxNew, 160), (x.seqLen, 192),
      (x.outCount, 224), (kvTable s + 0x4000 * r, 256), (x.row.length, 320), (x.reserved, 333), (x.reused, 346), (x.deadline, 384),
      (x.ringBase, 448), (x.ringLog2, 512), (x.tag, 528), (x.runOut, 544), (x.ttlEnd, 576), (x.pauseAddr, 640),
      (x.admitStep, 704), (x.maskKind, 768), (x.maskTable, 770), (b2n x.late, 775), (x.dfaState, 776), (x.draftMax, 792),
      (b2n x.draftCtx, 796), (x.temp, 800), (x.topK, 832), (x.stop0, 840), (b2n x.stop0En, 858), (x.stop1, 859),
      (b2n x.stop1En, 877), (x.gain, 896), (x.wait, 928), (x.proposed, 960), (x.accepted, 992)]
    BitVec.ofNat 1024 ((fs.map fun f => f.1 * 2 ^ f.2).sum)

/-- REQ_QUERY (R439, R444). -/
def execReqQuery (job : Nat) (s : State) : Host.Outcome State Fault Refusal :=
  nxt <| match startedJob s job 0xA4 with
    | none => s
    | some x =>
      if payBits x 128 3 ≠ 0 then jobDone s job stBadEntry 0
      else match handleReq s x with
        | none => jobDone s job 0x0D06 0
        | some r => jobDone (hostSend s x.part (.write x.part (payBits x 128 64) (leBytes 128 (rqtBits s r).toNat))) job stOk 0

/-! ### Masks -/

/-- Fields of a mask table header (Table 14.6). -/
def mhKindOf (d : List Byte) : Nat := (d.getD 6 0).toNat
def mhField (d : List Byte) (o n : Nat) : Nat := leNat ((d.drop o).take n)

/-- The length of R479. -/
def maskLength (d : List Byte) : Nat :=
  let v := mhField d 8 4
  if mhKindOf d = 1 then transOff v (mhField d 12 4) + 2 * mhField d 12 4 * mhField d 16 2 else 64 + 8 * ((v + 63) / 64)

/-- The first check of Table 14.7 that a mask table fails, or 0. -/
def maskCheck (s : State) (t base len : Nat) (d : List Byte) : Nat :=
  let k := mhKindOf d
  let v := mhField d 8 4
  let ns := mhField d 12 4
  let nc := mhField d 16 2
  let bs := d.map some
  let at16 := fun o => (entry16 bs o).getD 0
  if len < 64 ∨ mhField d 0 4 ≠ 0x4B53414D ∨ mhField d 4 2 ≠ 1 ∨ (k ≠ 1 ∧ k ≠ 2) ∨ mhField d 7 1 ≠ 0 ∨ mhField d 20 44 ≠ 0
      ∨ len ≠ maskLength d then 1
  else if v = 0 ∨ 0x40000 < v then 2
  else if k = 1 ∧ (ns = 0 ∨ 65536 < ns ∨ nc = 0 ∨ 4096 < nc ∨ ns ≤ mhField d 18 2
      ∨ (List.range v).any (fun i => let c := at16 (64 + 2 * i); c != 0xFFFF && decide (nc ≤ c))
      ∨ (List.range (ns * nc)).any (fun i => let n := at16 (transOff v ns + 2 * i); n != 0xFFFF && decide (ns ≤ n))) then 2
  else if k = 2 ∧ (ns ≠ 0 ∨ nc ≠ 0 ∨ mhField d 18 2 ≠ 0
      ∨ ¬ (List.range v).any (fun i => (d.getD (64 + i / 8) 0).getLsbD (i % 8))) then 2
  else if ¬ placed s (16 + t) base len then 3
  else 0

/-- Set the state and kind of a mask table. -/
def maskSet (s : State) (t st kind : Nat) : State :=
  (s.fset pgMask (F.MASK_TBL_STATE.sh (8 * t)) st).fset pgMask (F.MASK_TBL_KIND.sh (8 * t)) kind

/-- A mask table is EMPTY. -/
def maskEmpty (s : State) (t : Nat) : State :=
  let s := s.setReg pgMask (F.MASK_TBL_DIM_NSTATES.off + 8 * t) 0
  { maskSet s t 0 0 with serve := { s.serve with masks := s.serve.masks.del t } }

/-- MASK_LOAD (R478 to R480). -/
def execMaskLoad (job : Nat) (s : State) : Host.Outcome State Fault Refusal :=
  nxt <| match startedJob s job 0x38 with
    | none => s
    | some x =>
      let t := payBits x 32 5
      let base := payBits x 192 64
      let len := payBits x 128 40
      if x.stage = 0 then
        if x.part ≠ 0 then jobDone s job stNotOwner 0
        else if base % 4096 ≠ 0 then jobDone s job stBadEntry 0
        else if maskState s t ≠ 0 then jobDone s job 0x0E01 0
        else
          let s := maskSet s t 1 0
          askData { s with serve := { s.serve with masks := s.serve.masks.ins t { base := base, length := len } } } job (payBits x 64 64) len
      else if x.cancel then jobDone (maskEmpty s t) job stCancelled 0
      else match x.data with
        | none => s
        | some (.good d ps) =>
          let s := if placed s (16 + t) base len then dramStore s 0 base d ps else s
          if ps ≠ [] then jobDone (maskEmpty s t) job stPoison 0
          else
            let c := maskCheck s t base len d
            if c ≠ 0 then jobDone (maskEmpty s t) job 0x0E00 c
            else
              let k := mhKindOf d
              let ns := mhField d 12 4
              let nc := mhField d 16 2
              let y : MaskTable := { base := base, length := len, vocab := mhField d 8 4, nstates := ns, nclasses := nc, start := mhField d 18 2 }
              let s := { s with serve := { s.serve with masks := s.serve.masks.ins t y } }
              let s := s.setReg pgMask (F.MASK_TBL_DIM_NSTATES.off + 8 * t) (BitVec.ofNat 32 ((ns - 1) + (nc - 1) * 2 ^ 16))
              jobDone (maskSet s t 2 k) job stOk 0
        | some _ => jobDone (maskEmpty s t) job stMemHostErr 0

/-- MASK_FREE (R480). -/
def execMaskFree (job : Nat) (s : State) : Host.Outcome State Fault Refusal :=
  nxt <| match startedJob s job 0x39 with
    | none => s
    | some x =>
      let t := payBits x 32 5
      if x.part ≠ 0 then jobDone s job stNotOwner 0
      else if maskState s t ≠ 2 ∨ maskRefs s t ≠ 0 then jobDone s job 0x0E01 0
      else jobDone (maskEmpty s t) job stOk 0

/-! ### Lens cores -/

/-- The model slot whose CLUSTERS names a cluster. -/
def clusterSlot (s : State) (c : Nat) : Option Nat :=
  (List.range 8).find? fun m => natBit (s.fget pgServe (F.SERVE_SLOT_CFG_CLUSTERS.sh (16 * m))) c

/-- A cluster is served by no slot, by its register or in force. -/
def clusterIdle (s : State) (c : Nat) : Bool :=
  (clusterSlot s c).isNone && (List.range 8).all fun m => !natBit (mslotGet s m).clusters c

/-- A write of LENS_CORE_CTRL, or of PG_CTRL.IN_SERVICE as a write to all four bits (R465). -/
def lensCtrl (s : State) (p : Nat) (data : Word) : State :=
  let c := p - pgLens
  let s := s.fset p F.LENS_CORE_CTRL_IN_SERVICE (bitsOf data 0 4)
  eachIn (List.range 4) (fun s k =>
    let st := coreGet s c k
    if data.getLsbD k then (if st = coreOut then coreSet (s.modPage p fun x => { x with testing := true }) c k coreTesting else s)
    else if st = coreIn then coreSet s c k (if clusterIdle s c then coreOut else coreLeaving)
    else if st = coreJoining ∨ st = coreTesting then coreSet s c k coreOut
    else s) s

/-- The self-tests of a cluster's cores end (R156, R465). -/
def lensTested (s : State) (p : Nat) (pass : Bool) : State :=
  let c := p - pgLens
  let s := s.modPage p fun x => { x with testing := false }
  let ks := (List.range 4).filter fun k => coreGet s c k = coreTesting
  let s := eachIn ks (fun s k => coreSet s c k (if ¬ pass then coreOut else if clusterIdle s c then coreIn else coreJoining)) s
  if pass ∨ ks = [] then s else capture s p 0x0504 0 2

/-- LENS_CORE_LEAVE: a write of LENS_CORE_CTRL (R465). -/
def execLensCoreLeave (part page : Nat) (data : Word) (s : State) : Host.Outcome State Fault Refusal :=
  nxt (if classOf s.var page = some .lens then pageWrite s part page fun s => lensCtrl s page data else s)

/-- LENS_CORE_RETURN: a write of LENS_CORE_CTRL (R465). -/
def execLensCoreReturn (part page : Nat) (data : Word) (s : State) : Host.Outcome State Fault Refusal :=
  nxt (if classOf s.var page = some .lens then pageWrite s part page fun s => lensCtrl s page data else s)

/-- A core is OUT at once; a step of its slot is run again, where a core is left (R163, R172, R465) (DEDUCED, assumption 66). -/
def coreGone (s : State) (page core : Nat) : State :=
  let c := page - pgLens
  let was := coreGet s c core
  if was = coreOut then s
  else
    let s := (coreSet s c core coreOut).fset page F.PG_STAT_FAULT 1
    eachIn (List.range 8) (fun s m =>
      let y := mslotGet s m
      if natBit y.clusters c ∧ y.step.isSome ∧ (was = coreIn ∨ was = coreLeaving) then
        let s := s.fincSat page F.LENS_RERUN_COUNT 1
        if coresIn s m = 0 then mslotSet s m { y with step := none } else s
      else s) s

/-- LENS_CORE_FAIL (R163). -/
def execLensCoreFail (page core : Nat) (s : State) : Host.Outcome State Fault Refusal :=
  nxt <|
    if classOf s.var page ≠ some .lens ∨ coreGet s (page - pgLens) core = coreOut then s
    else coreGone (capture s page 0x0501 0 core) page core

/-! ### Budgets -/

/-- One account is refilled (R492). -/
def refillAcct (s : State) (a : Nat) : State :=
  let rate : Int := (s.fget pgSampler (F.ACCT_RATE_RATE.sh (16 * a)) : Int)
  let cap : Int := (s.fget pgSampler (F.ACCT_CAP_CAP.sh (16 * a)) : Int)
  balSet s a (min (balGet s a + rate) cap)

/-- BUDGET_REFILL (R492). -/
def execBudgetRefill (s : State) : Host.Outcome State Fault Refusal :=
  let at' := s.serve.refillAt
  let s := s.reach at'
  nxt <|
    if s.now < at' ∨ ¬ s.var.serve then s
    else
      let s := eachIn (List.range 64) refillAcct s
      let s := { s with serve := { s.serve with refillAt := (s.now / 800000000 + 1) * 800000000 } }
      eachIn (s.serve.reqs.map Prod.fst) (fun s r =>
        let x := reqGet s r
        let y := mslotGet s x.slot
        if (x.state = .prefill ∨ x.state = .decode) ∧ polBudget y then
          let w := if balGet s x.account ≤ 0 then min (x.wait + 1) 255 else 0
          reqSet s r { x with wait := w, spent := x.spent || (polWait y != 0 && decide (polWait y ≤ w)) }
        else s) s

/-- A write of SMP_FILL: the balances of the named accounts become their CAP. -/
def smpFill (s : State) (high : Bool) (data : Word) : State :=
  eachIn ((List.range 32).filter data.getLsbD) (fun s i =>
    let a := i + (if high then 32 else 0)
    balSet s a (s.fget pgSampler (F.ACCT_CAP_CAP.sh (16 * a)) : Int)) s

/-- SMP_FILL (Table 14.10). -/
def execSmpFill (part : Nat) (high : Bool) (data : Word) (s : State) : Host.Outcome State Fault Refusal :=
  nxt (pageWrite s part pgSampler fun s => smpFill s high data)

/-! ### Register writes -/

/-- Chain every page descriptor (R445, R446). -/
def poolFree (s : State) : State :=
  let s := { s with serve := { s.serve with pages := [], pageChain := {} } }
  eachIn (List.range (kvPages s)) (fun s p =>
    dramWrite s (kvDesc s / 8 + p) (descWord {} (if p + 1 < kvPages s then p + 1 else nullRef)) false) s

/-- A write of a pool register (R445): taken while every slot is EMPTY and the regions may lie where they come to lie. -/
def poolWrite (s : State) (off : Nat) (data : Word) : State :=
  let t := s.setReg pgServe off data
  if ¬ slotsEmpty s ∨ kvBase t % 2 ^ 21 ≠ 0 ∨ kvDesc t % 4096 ≠ 0 ∨ kvTable t % 2 ^ 21 ≠ 0 ∨ 2 ^ 20 ≤ data.toNat ∧ off = F.SERVE_KV_PAGES_PAGES.off
      ∨ ¬ (regionPlaced t 8 && regionPlaced t 9 && regionPlaced t 10) then s
  else poolFree t

/-- Chain every node in ascending order (R450). -/
def nodesFree (s : State) : State :=
  let s := { s with serve := { s.serve with nodes := [], nodeChain := {}, roots := [] } }
  eachIn (List.range (pfxNodes s)) (fun s n => nodeStore s n { sibling := if n + 1 < pfxNodes s then some (n + 1) else none } false) s

/-- A write of PFX_BASE or PFX_NODES (R450). -/
def nodesWrite (s : State) (off : Nat) (data : Word) : State :=
  let t := s.setReg pgPrefix off data
  if s.fbit pgPrefix F.PFX_CTRL_ENABLE ∨ pfxUsed s ≠ 0 ∨ pfxBase t % 4096 ≠ 0 ∨ (off = F.PFX_NODES_NODES.off ∧ nullRef < data.toNat)
      ∨ ¬ regionPlaced t 11 then s
  else nodesFree t

/-- A write of the draft context region (R486). -/
def draftWrite (s : State) (off : Nat) (data : Word) : State :=
  let t := s.setReg pgDraft off data
  if ¬ slotsEmpty s ∨ draftBase t % 2 ^ 21 ≠ 0 ∨ draftSlice t % 4096 ≠ 0 ∨ (off = F.DRAFT_KV_SLICE_BYTES.off ∧ 2 ^ 24 ≤ data.toNat)
      ∨ ¬ regionPlaced t 12 then s
  else t

/-- LENS_SLOT of every cluster follows the CLUSTERS fields (Table 13.20). -/
def lensSlots (s : State) : State :=
  eachIn (List.range s.var.lensClusters) (fun s c =>
    let v := match clusterSlot s c with | some m => m + 8 | none => 0
    s.setReg (pgLens + c) F.LENS_SLOT_SLOT.off (BitVec.ofNat 32 v)) s

/-- A write of SERVE_SLOT_CFG (R435). -/
def slotCfgWrite (s : State) (m : Nat) (data : Word) : State :=
  let o := F.SERVE_SLOT_CFG_CLUSTERS.off + 16 * m
  let cl := bitsOf data 0 16
  let taken := (List.range 8).any fun k => k != m && (s.fget pgServe (F.SERVE_SLOT_CFG_CLUSTERS.sh (16 * k)) &&& cl) != 0
  if taken ∨ 2 ^ s.var.lensClusters ≤ cl then s
  else
    let old := slotFlush s m
    let fl := if slotReqs s m = [] then data.getLsbD 16 else old
    let s := s.setReg pgServe o (BitVec.ofNat 32 (cl + b2n fl * 2 ^ 16 + bitsOf data 17 1 * 2 ^ 17))
    let s := if fl = old then s else flushSlot s m
    lensSlots s

/-- A write of ACCT_CAP below BAL lowers BAL (R492). -/
def capWrite (s : State) (a : Nat) (data : Word) : State :=
  if data.toNat = 0 ∨ 2 ^ 31 ≤ data.toNat then s
  else
    let s := s.fset pgSampler (F.ACCT_CAP_CAP.sh (16 * a)) data.toNat
    if (data.toNat : Int) < balGet s a then balSet s a data.toNat else s

/-- A write of POL1 (R496, Table 14.11). -/
def pol1Write (s : State) (m : Nat) (data : Word) : State :=
  let lo := bitsOf data 16 8
  let hi := bitsOf data 24 8
  if bitsOf data 0 16 < 16 ∨ hi < lo then s
  else (s.setReg pgSampler (F.SMP_POL1_TOKEN_CAP.off + 16 * m) data).fset pgSampler (F.SMP_RHO_RHO.sh (16 * m)) ((lo + hi) / 2)

/-- Writes of serving registers that act otherwise than by their access code; none where the access code says it all. -/
def serveRegWrite (s : State) (p off : Nat) (data : Word) : Option State :=
  if p = pgServe then
    if 0x048 ≤ off ∧ off ≤ 0x060 then some (poolWrite s off data)
    else if 0x100 ≤ off ∧ off < 0x180 ∧ off % 16 = 0 then some (slotCfgWrite s ((off - 0x100) / 16) data)
    else none
  else if p = pgPrefix ∧ 0x044 ≤ off ∧ off ≤ 0x04C then some (nodesWrite s off data)
  else if p = pgDraft ∧ 0x048 ≤ off ∧ off ≤ 0x050 then some (draftWrite s off data)
  else if p = pgSampler then
    if off = 0x048 ∨ off = 0x04C then some (smpFill s (off = 0x04C) data)
    else if 0x100 ≤ off ∧ off < 0x180 ∧ off % 16 = 4 then some (pol1Write s ((off - 0x100) / 16) data)
    else if 0x100 ≤ off ∧ off < 0x180 ∧ off % 16 = 8 then some (if bitsOf data 0 17 % 16 = 0 ∧ 16 ≤ bitsOf data 0 17 ∧ bitsOf data 0 17 ≤ 65536 then s.fset pgSampler (F.SMP_POL2_CHUNK_MAX.sh (16 * ((off - 0x100) / 16))) (bitsOf data 0 17) else s)
    else if 0x200 ≤ off ∧ off < 0x600 ∧ off % 16 = 4 then some (capWrite s ((off - 0x200) / 16) data)
    else none
  else if classOf s.var p = some .lens ∧ off = 0x044 then some (lensCtrl s p data)
  else none

end Sys2Proof.Machine
end

