-- ==== Sys2Proof/Machine/Memory.lean ====
section
/-! DEFINITION. Memory commands (chapter 15): training, scrubbing and repair, the memory jobs, and channel failure. -/

namespace Sys2Proof.Machine

/-! ### Training -/

/-- MEMC_INIT (R522): a write of GO on the page of channel 0; it acts once after each chip reset. -/
def memcInit (s : State) (data : Word) : State :=
  if data.getLsbD 0 ∧ ¬ s.mem.initUsed then memSet s { s.mem with initUsed := true } else s

/-- MEMC_INIT: a host write of MEMC_INIT.GO. -/
def execMemcInit (part : Nat) (s : State) : Host.Outcome State Fault Refusal :=
  nxt (pageWrite s part pgMemc fun s => memcInit s 1)

/-- A channel leaves service (R530): its calendar page copies the bit, and a channel that holds windows stops the robot (R33). -/
def memLeave (s : State) (ch : Nat) (fault : Bool) : State :=
  let s := markOut s (memPage ch) fault
  let s := s.fset (calPage ch) F.PG_STAT_OUT_OF_SERVICE 1
  if (List.range 16).any fun w => (calWindow s ch w).2 != 0 then planStopRobot s else s

/-- MEMC_INIT_DONE (R506, R522): training and the zero fill end. `caps` gives the raw capacity in GiB that training found, for each
channel that trained (DEDUCED, assumption 74). -/
def execMemcInitDone (caps : List (Nat × Nat)) (s : State) : Host.Outcome State Fault Refusal :=
  nxt <|
    if ¬ s.mem.initUsed ∨ s.fbit pgMemc F.MEMC_STAT_INIT_DONE then s
    else
      let found := fun c => (caps.find? fun x => x.1 = c ∧ (x.2 = 2 ∨ x.2 = 4 ∨ x.2 = 8 ∨ x.2 = 16)).map Prod.snd
      let chs := List.range s.var.memcChannels
      let s := memSet s { s.mem with dram := {}, trained := chs.filterMap fun c => (found c).map fun g => (c, g) }
      eachIn chs (fun s c =>
        let p := memPage c
        let s := s.fset p F.MEMC_STAT_INIT_DONE 1
        let s := match found c with
          | some _ => (s.fset p F.MEMC_STAT_TRAINED 1).fset p F.MEMC_STAT_UNITS (chanData s / 2 ^ 21)
          | none => capture (memLeave s c true) p 0x0501 0 1
        pageIrq s p 8) s

/-- A write of MEMC_CFG (R522): a listed rate, once after each chip reset. -/
def memcCfgWrite (s : State) (data : Word) : State :=
  if 4 < bitsOf data 0 3 ∨ s.mem.cfgUsed then s
  else
    let s := memSet s { s.mem with cfgUsed := true }
    eachIn (List.range s.var.memcChannels) (fun s c => s.fset (memPage c) F.MEMC_CFG_RATE (bitsOf data 0 3)) s

/-- MEMC_PLAN_LAT for a RATE (Tables 15.6 and 15.12). -/
def planLat (rate : Nat) : Nat :=
  match rate with
  | 0 => 120 + 112 * 2 ^ 8 + 16 * 2 ^ 16
  | 1 => 100 + 92 * 2 ^ 8 + 20 * 2 ^ 16
  | 2 => 88 + 80 * 2 ^ 8 + 24 * 2 ^ 16
  | 3 => 80 + 72 * 2 ^ 8 + 28 * 2 ^ 16
  | _ => 72 + 64 * 2 ^ 8 + 32 * 2 ^ 16

/-- A write of the Plan region's registers (R525). -/
def planRegionWrite (s : State) (off : Nat) (data : Word) : State :=
  let t := s.setReg pgMemc off data
  let base := t.reg64 pgMemc F.MEMC_PLAN_BASE_LO.off F.MEMC_PLAN_BASE_HI.off
  let len := t.fget pgMemc F.MEMC_PLAN_SIZE_UNITS * 2 ^ 21
  let held := s.time.plan.isSome || s.time.next.isSome || (List.range 32).any fun k => (slotImageOf s k)
  if held ∨ base % 2 ^ 21 ≠ 0 ∨ (off = F.MEMC_PLAN_SIZE_UNITS.off ∧ 2 ^ 14 ≤ data.toNat) ∨ ¬ p0Memory t base len then s
  else t.fset pgMemc F.MEMC_PLAN_FREE_UNITS (len / 2 ^ 21)
where
  slotImageOf (s : State) (k : Nat) : Bool := (s.solver.slots.get {} k).image.isSome

/-! ### Scrubbing and repair -/

/-- A scrubber's read of a word of device memory (R508, R510, R511, R518): 0 CLEAN, 1 CE, 2 POISON or UE. -/
def dramScrub (s : State) (w part : Nat) : Nat × State :=
  let ch := (memPlace s (8 * w)).1
  if chanGone s ch then (2, countPoison s ch)
  else
    let (d, _) := s.mem.dram.raw w
    let fix := fun (s : State) x p => memSet s { s.mem with dram := s.mem.dram.put w x p }
    match s.mem.dram.cls w with
    | .clean => (0, s)
    | .ceData b => (1, fix (chanCe s ch (8 * w)) (flipBit d b) false)
    | .ceCheck => (1, fix (chanCe s ch (8 * w)) d false)
    | .poison => (2, s)
    | .ue => (2, fix (chanUe s ch (8 * w) part) d true)

/-- The words of a memory that list a cell. -/
def Mem.listed (m : Mem) : List Nat :=
  (m.checks.foldl (fun (t : Tab Unit) c => t.ins c.1 ()) (m.bytes.foldl (fun (t : Tab Unit) c => t.ins (c.1 / 8) ()) [])).map Prod.fst

/-- The scrubber's read of a tile's word (R510, R511, R517). -/
def tileScrub (s : State) (i w : Nat) : State :=
  let x := tileGet s i
  let (d, _) := x.sram.raw w
  match x.sram.cls w with
  | .clean | .poison => s
  | .ceData b => tileSet (regionCe s i w) i { x with sram := x.sram.put w (flipBit d b) false }
  | .ceCheck => tileSet (regionCe s i w) i { x with sram := x.sram.put w d false }
  | .ue => tileSet (regionUe s i w 0) i { x with sram := x.sram.put w d true }

/-- A word of a region whose data the model does not hold, with some of its 72 stored bits inverted (R508). -/
def upsetScrub (s : State) (r w : Nat) (bits : List Nat) : State :=
  match syndromeClass (upsetSyndrome bits) with
  | .clean | .poison => s
  | .ceData _ | .ceCheck => regionCe s r w
  | .ue => regionUe s r w 0

/-- SCRUB_PASS (R517): one pass of a region's scrubber, at most one in each window of 2²⁴ ticks. `flips` lists the stored bits, by word and
place, that have been inverted since the last pass (DEDUCED, assumption 73). -/
def execScrubPass (region : Nat) (flips : List (Nat × Nat)) (s : State) : Host.Outcome State Fault Refusal :=
  nxt <|
    if ¬ regionBuilt s.var region ∨ asleep s ∨ s.mem.passAt.get 0 region = s.now / 2 ^ 24 + 1 then s
    else
      let s := memSet s { s.mem with passAt := s.mem.passAt.set 0 region (s.now / 2 ^ 24 + 1),
                                     passes := s.mem.passes.set 0 region (s.mem.passes.get 0 region + 1) }
      let ok := flips.filter fun f => decide (f.1 < regionWords region) && decide (f.2 < 72)
      if region < s.var.facetTiles then
        let s := eachIn ok (fun s f => let x := tileGet s region; tileSet s region { x with sram := x.sram.upset f.1 f.2 }) s
        eachIn (tileGet s region).sram.listed (fun s w => tileScrub s region w) s
      else
        let words : Tab (List Nat) := ok.foldl (fun (t : Tab (List Nat)) f => t.ins f.1 (f.2 :: t.get [] f.1)) []
        eachIn words (fun s f => upsetScrub s region f.1 f.2) s

/-- SRAM_PASSES: passes that every region has completed. -/
def scrubPasses (s : State) : Nat :=
  (((List.range 256).filter (regionBuilt s.var)).map fun r => s.mem.passes.get 0 r).min?.getD 0

/-- PATROL_READ (R518): the next 128-byte block of a channel, in open time. `flips` lists the stored bits, by word of the block and
place, that have been inverted since its last access. -/
def execPatrolRead (memch : Nat) (flips : List (Nat × Nat)) (s : State) : Host.Outcome State Fault Refusal :=
  nxt <|
    if chanGone s memch ∨ asleep s ∨ (phaseGet s memch).closed ∨ s.fget (memPage memch) F.MEMC_PATROL_INTERVAL = 0 then s
    else
      let off := s.mem.patrol.get 0 memch
      let w := memAddr s memch off / 8
      let s := eachIn (flips.filter fun f => decide (f.1 < 16) && decide (f.2 < 72))
        (fun s f => memSet s { s.mem with dram := s.mem.dram.upset (w + f.1) f.2 }) s
      let s := eachIn (List.range 16) (fun s k => (dramScrub s (w + k) 0).2) s
      memSet s { s.mem with patrol := s.mem.patrol.set 0 memch (if off + 128 < chanData s then off + 128 else 0) }

/-- REPAIR_WRITEBACK (R511, R533): the oldest write-back of a repair queue: of channel `queue`, in open time, or of SRAM region
`queue − 16`. -/
def execRepairWriteback (queue : Nat) (s : State) : Host.Outcome State Fault Refusal :=
  nxt <| match s.mem.repair.get [] queue with
    | [] => s
    | w :: rest =>
      let pop := fun (s : State) => memSet s { s.mem with repair := s.mem.repair.set [] queue rest }
      let good := fun (m : Mem) => match m.cls w with
        | .ceData b => m.put w (flipBit (m.raw w).1 b) false
        | .ceCheck => m.put w (m.raw w).1 false
        | _ => m
      if queue < 16 then
        if (phaseGet s queue).closed then s
        else pop (memSet s { s.mem with dram := good s.mem.dram })
      else
        let x := tileGet s (queue - 16)
        pop (tileSet s (queue - 16) { x with sram := good x.sram })

/-- The counters of a channel's page are cleared (R520). -/
def memcClear (s : State) (p : Nat) : State :=
  ((s.setReg p F.MEMC_CE_CE.off 0).setReg p F.MEMC_PCOUNT_READS.off 0).setReg p F.MEMC_MISC_REPAIR_DROPPED.off 0

/-- MEMC_CLR: a write of 1. -/
def execMemcClr (part page : Nat) (s : State) : Host.Outcome State Fault Refusal :=
  nxt (if classOf s.var page = some .memc then pageWrite s part page fun s => memcClear s page else s)

/-- The counters of a region are cleared; the address of the last CE is no counter. -/
def regionClear (s : State) (r : Nat) : State := regionSet s r { lastCe := (regionGet s r).lastCe }

/-- A write of SRAM_CLR (R520). -/
def sramClear (s : State) (data : Word) : State :=
  if data.getLsbD 1 then eachIn ((List.range 256).filter (regionBuilt s.var)) regionClear s
  else if data.getLsbD 0 then regionClear s (s.fget pgMemc F.SRAM_SEL_REGION)
  else s

/-- SRAM_CLR_SELECTED. -/
def execSramClrSelected (part : Nat) (s : State) : Host.Outcome State Fault Refusal :=
  nxt (pageWrite s part pgMemc fun s => sramClear s 1)

/-- SRAM_CLR_ALL. -/
def execSramClrAll (part : Nat) (s : State) : Host.Outcome State Fault Refusal :=
  nxt (pageWrite s part pgMemc fun s => sramClear s 2)

/-! ### Memory jobs -/

/-- MEM_RANGE (Table 15.10). -/
abbrev stMemRange : Nat := 0x0F14

/-- A range is covered by regions; `fuel` bounds the walk. -/
def covered (rs : List (Nat × Nat)) (b e : Nat) : Nat → Bool
  | 0 => decide (e ≤ b)
  | fuel + 1 =>
    if e ≤ b then true
    else match rs.find? fun r => decide (r.1 ≤ b) && decide (b < r.1 + r.2) with
      | some r => covered rs (r.1 + r.2) e fuel
      | none => false

/-- The partition holds every byte of a range, and none of it is the Plan region's (R528). -/
def holdsMem (s : State) (part b l : Nat) : Bool :=
  !overlaps b l (s.reg64 pgMemc F.MEMC_PLAN_BASE_LO.off F.MEMC_PLAN_BASE_HI.off) (s.fget pgMemc F.MEMC_PLAN_SIZE_UNITS * 2 ^ 21)
    && (if part = 0 then p0Memory s b l else covered (partMem s part) b (b + l) 16)

/-- The device ranges that a memory job names, entry by entry. -/
def jobRanges (x : Job) : List (Nat × Nat) :=
  if x.opcode = 0x60 then
    ((List.range x.entries.length).map fun e =>
      let dir := payBitsAt x e 32 2
      let src := (payBitsAt x e 64 64, payBitsAt x e 192 32)
      let dst := (payBitsAt x e 128 64, payBitsAt x e 192 32)
      if dir = 0 then [dst] else if dir = 1 then [src] else [src, dst]).flatten
  else if x.opcode = 0x63 then [(payBits x 128 64, 8)]
  else [(payBits x 128 64, payBits x 192 32)]

/-- The fields of a memory job lie in their ranges (Table 15.9). -/
def memFieldsOk (x : Job) : Bool :=
  if x.opcode = 0x60 then (List.range x.entries.length).all fun e => payBitsAt x e 32 2 != 3 && payBitsAt x e 192 32 != 0
  else x.entries.length == 1 && (if x.opcode = 0x63 then payBits x 128 3 == 0 && payBits x 34 2 != 3 else payBits x 192 32 != 0)

/-- The region that a PART_GRANT or PART_REVOKE names: base and bytes (Table 5.3). -/
def regionOf (r : Job) : Nat × Nat := (payBits r 64 64, payBits r 128 14 * 2 ^ 21)

/-- A revoke admitted before the job takes a region of which it names bytes (R142, R170). -/
def memRevoked (s : State) (x : Job) : Bool :=
  (revoking s x 0).any fun r =>
    (partMem s x.part).contains (regionOf r) && (jobRanges x).any fun a => overlaps a.1 a.2 (regionOf r).1 (regionOf r).2

/-- The checks of R528, or OK (DEDUCED, assumption 77). -/
def memCheck (s : State) (x : Job) : Nat :=
  if ¬ memFieldsOk x then stBadEntry
  else if (jobRanges x).any fun r => decide (memSize s < r.1 + r.2) then stMemRange
  else if (jobRanges x).any (fun r => !holdsMem s x.part r.1 r.2) ∨ memRevoked s x ∨ (x.opcode = 0x63 ∧ x.part ≠ 0) then stNotOwner
  else stOk

/-- A range meets a channel that takes no new command: it is inside a reserved window or its guard (R22, R23) (DEDUCED, assumption 75). -/
def memHeld (s : State) (x : Job) : Bool :=
  let shut := (memChannels s).filter fun c => (phaseGet s c).closed
  !shut.isEmpty && (jobRanges x).any fun r =>
    shut.any fun c => (memPlace s r.1).1 == c || decide ((memPlace s r.1).1 ≠ (memPlace s (r.1 + r.2 - 1)).1) || decide (0x1000 < r.2)

/-- POISON_READ by a memory job, on the page of the channel that holds the first poisoned byte. -/
def jobPoison (s : State) (part addr : Nat) (bs : List (Option Byte)) : State :=
  poisonRead s (memPage (memPlace s (addr + (bs.takeWhile Option.isSome).length)).1) part

/-- Run the segments of a MEM_COPY from entry `e` on, with `n` bytes written so far (R529); `fuel` counts the entries left
(DEDUCED, assumption 76). -/
def copyFrom (s : State) (j : Nat) (x : Job) : Nat → Nat → Nat → State
  | 0, _, n => jobDone s j stOk n
  | fuel + 1, e, n =>
    let dir := payBitsAt x e 32 2
    let src := payBitsAt x e 64 64
    let dst := payBitsAt x e 128 64
    let len := payBitsAt x e 192 32
    if dir = 0 then
      match (jobGet s j).bind fun y => y.data with
      | none => match jobGet s j with
        | some y => askData (jobSet s j { y with aux := e + 32 * n }) j src len
        | none => s
      | some (.good d ps) =>
        let s := dramStore s x.part dst (d.take len) ps
        if ps ≠ [] then jobDone s j stPoison (n + len)
        else match jobGet s j with
          | some y => copyFrom (jobSet s j { y with data := none }) j x fuel (e + 1) (n + len)
          | none => s
      | some _ => jobDone s j stMemHostErr n
    else
      let (bs, s) := dramLoad s x.part src len
      if dir = 1 then
        let (k, whole, s) := hostWrite s x.part dst bs
        if whole then copyFrom s j x fuel (e + 1) (n + k) else jobDone (jobPoison s x.part src bs) j stPoison (n + k)
      else
        let bad := (List.range bs.length).filter fun i => (bs.getD i none).isNone
        let s := dramStore s x.part dst (bs.map fun b => b.getD 0) bad
        if bad = [] then copyFrom s j x fuel (e + 1) (n + len) else jobDone (jobPoison s x.part src bs) j stPoison (n + len)

/-- MEM_COPY (R527 to R529). -/
def execMemCopy (job : Nat) (s : State) : Host.Outcome State Fault Refusal :=
  nxt <| match startedJob s job 0x60 with
    | none => s
    | some x =>
      let e := x.aux % 32
      if ¬ memReady s then s
      else if x.stage = 0 ∧ memCheck s x ≠ stOk then jobDone s job (memCheck s x) 0
      else if x.cancel then jobDone s job stCancelled (x.aux / 32)
      else if memHeld s x ∨ (x.stage = 1 ∧ x.data.isNone) then s
      else copyFrom s job x (x.entries.length - e) e (x.aux / 32)

/-- MEM_FILL (R527). -/
def execMemFill (job : Nat) (s : State) : Host.Outcome State Fault Refusal :=
  nxt <| match startedJob s job 0x61 with
    | none => s
    | some x =>
      let dst := payBits x 128 64
      let len := payBits x 192 32
      if ¬ memReady s then s
      else if memCheck s x ≠ stOk then jobDone s job (memCheck s x) 0
      else if x.cancel then jobDone s job stCancelled 0
      else if memHeld s x then s
      else
        let bytes := (List.range len).map fun i => BitVec.ofNat 8 (payBits x (256 + 8 * ((dst + i) % 8)) 8)
        jobDone (dramStore s x.part dst bytes []) job stOk len

/-- MEM_CHECK (R527). -/
def execMemCheck (job : Nat) (s : State) : Host.Outcome State Fault Refusal :=
  nxt <| match startedJob s job 0x62 with
    | none => s
    | some x =>
      let dst := payBits x 128 64
      let len := payBits x 192 32
      if ¬ memReady s then s
      else if memCheck s x ≠ stOk then jobDone s job (memCheck s x) 0
      else if x.cancel then jobDone s job stCancelled 0
      else if memHeld s x then s
      else
        let first := dst / 8
        let r := (List.range ((dst + len - 1) / 8 - first + 1)).foldl (fun (acc : Nat × Nat × State) i =>
          let (k, s) := dramScrub acc.2.2 (first + i) x.part
          (if k = 1 then satAdd acc.1 1 0xFFFF else acc.1, if k = 2 then satAdd acc.2.1 1 0xFFFF else acc.2.1, s)) (0, 0, s)
        jobDone r.2.2 job stOk (r.1 + r.2.1 * 2 ^ 16)

/-- MEM_INJECT (R527, R535). -/
def execMemInject (job : Nat) (s : State) : Host.Outcome State Fault Refusal :=
  nxt <| match startedJob s job 0x63 with
    | none => s
    | some x =>
      let w := payBits x 128 64 / 8
      let b := payBits x 40 6
      let k := payBits x 34 2
      if ¬ memReady s then s
      else if memCheck s x ≠ stOk then jobDone s job (memCheck s x) 0
      else if x.cancel then jobDone s job stCancelled 0
      else if memHeld s x then s
      else
        let m := s.mem.dram
        let m := if chanGone s (memPlace s (8 * w)).1 then m
          else if k = 0 then m.upset w b
          else if k = 1 then (m.upset w b).upset w ((b + 1) % 64)
          else m.put w (m.raw w).1 true
        jobDone (memSet s { s.mem with dram := m }) job stOk 0

/-- Writes of memory registers that act otherwise than by their access code; none where the access code says it all. -/
def memRegWrite (s : State) (p off : Nat) (data : Word) : Option State :=
  if classOf s.var p ≠ some .memc then none
  else if off = 0x040 then some (if s.fbit p F.PG_LOCK_LOCK then s else memcCfgWrite s data)
  else if off = 0x044 then some (if p = pgMemc then memcInit s data else s)
  else if off = 0x068 then some (if data.getLsbD 0 then memcClear s p else s)
  else if p ≠ pgMemc then none
  else if 0x100 ≤ off ∧ off ≤ 0x108 then some (planRegionWrite s off data)
  else if off = 0x124 then some (sramClear s data)
  else none

end Sys2Proof.Machine
end

