-- ==== Sys2Proof/Machine/Rtu.lean ====
section
/-! DEFINITION. The Retention Unit (chapter 16): records, the store, the hold-up check, commits, formats, reading and recovery; and host
data that a job has read. -/

namespace Sys2Proof.Machine

/-! ### The flash -/

def rtuSet (s : State) (x : RtuSt) : State := { s with rtu := x }

/-- The byte of the flash at an address. -/
def flashByte (s : State) (a : Nat) : Byte := (s.rtu.flash.get [] (a / 4096)).getD (a % 4096) 0xFF

/-- Bytes of the flash. -/
def flashBytes (s : State) (a n : Nat) : List Byte := (List.range n).map fun k => flashByte s (a + k)

/-- Hold the bytes of a sector. -/
def flashPut (s : State) (sec : Nat) (bs : List Byte) : State :=
  let t := ((bs.take 4096).reverse.dropWhile fun b => b == 0xFF).reverse
  rtuSet s { s.rtu with flash := s.rtu.flash.set [] sec t }

/-- Bytes with some bits, numbered from bit 0 of byte 0, inverted. -/
def flipBytes (bs : List Byte) (flips : List Nat) : List Byte :=
  flips.foldl (fun bs k => bs.set (k / 8) (bs.getD (k / 8) 0xFF ^^^ (1#8 <<< (k % 8)))) bs

/-- A whole sector. -/
def flashSector (s : State) (sec : Nat) : List Byte :=
  let t := s.rtu.flash.get [] sec
  (t ++ List.replicate (4096 - t.length) 0xFF).take 4096

/-- A program clears the bits that are 0 in its data and keeps the bytes beyond them. -/
def programBytes : List Byte → List Byte → List Byte
  | o :: os, b :: bs => (o &&& b) :: programBytes os bs
  | os, _ => os

/-- The effect of a flash command on its sector: an erase sets every bit, a program clears bits; `flips` are the bits that came out wrong. -/
def flashRun (s : State) (c : FlashCmd) (flips : List Nat) : State :=
  match c with
  | .erase sec => flashPut s sec (flipBytes (List.replicate 4096 0xFF) flips)
  | .program sec bs =>
    flashPut s sec (flipBytes (programBytes (flashSector s sec) bs) flips)

/-! ### Records -/

/-- A record as read from a sector (Table 16.2). -/
structure FlashRec where
  typ : Nat
  seq : Nat
  obj : Nat
  recNo : Nat
  payload : List Byte
  deriving DecidableEq, Repr

abbrev recSuper : Nat := 1
abbrev recIndex : Nat := 2
abbrev recMap : Nat := 3
abbrev recData : Nat := 4

/-- The bytes of a record (R539). -/
def recBytes (r : FlashRec) : List Byte :=
  let h := leBytes 4 0x41534E4D ++ leBytes 1 r.typ ++ leBytes 1 1 ++ leBytes 2 r.payload.length ++ leBytes 8 r.seq ++ leBytes 1 r.obj
    ++ leBytes 3 0 ++ leBytes 4 r.recNo ++ leBytes 4 0
  h ++ leBytes 4 (crc32 (h ++ r.payload)) ++ r.payload

/-- LEN lies within the limit of its type (Table 16.2). -/
def recLenOk (typ len : Nat) : Bool :=
  match typ with
  | 1 => len == 288
  | 2 => len % 16 == 0 && decide (len ≤ 16 * 254)
  | 3 => len % 4 == 0 && decide (len ≤ 4 * 1016)
  | 4 => decide (1 ≤ len) && decide (len ≤ 4064)
  | _ => false

/-- The record of a flash sector, where it is valid (R539). -/
def readRec (s : State) (sec : Nat) : Option FlashRec :=
  let at_ := fun o n => flashBytes s (4096 * sec + o) n
  let typ := leNat (at_ 4 1)
  let len := leNat (at_ 6 2)
  if leNat (at_ 0 4) ≠ 0x41534E4D ∨ leNat (at_ 5 1) ≠ 1 ∨ ¬ recLenOk typ len ∨ leNat (at_ 0x11 3) ≠ 0 ∨ leNat (at_ 0x18 4) ≠ 0
      ∨ (typ = 1 ∧ leNat (at_ 0x30 16) ≠ 0) ∨ leNat (at_ 0x1C 4) ≠ crc32 (at_ 0 0x1C ++ at_ 0x20 len) then none
  else some { typ := typ, seq := leNat (at_ 8 8), obj := leNat (at_ 0x10 1), recNo := leNat (at_ 0x14 4), payload := at_ 0x20 len }

/-! ### The store area -/

abbrev stNone : Nat := 0
abbrev stRecovering : Nat := 1
abbrev stReady : Nat := 2
abbrev stFlashFault : Nat := 3

/-- RTU_STORE.STATE. -/
def storeState (s : State) : Nat := s.fget pgRtu F.RTU_STORE_STATE

/-- Sectors of the store area, and the flash sector of its first (R536). -/
def areaSectors (s : State) : Nat := 16 * s.fget pgRtu F.RTU_AREA_SIZE
def areaAt (s : State) (sec : Nat) : Nat := 16 * s.fget pgRtu F.RTU_AREA_BASE + sec

/-- The boot image names a store that keeps the limits of R536. -/
def areaOk (s : State) : Bool :=
  let base := s.fget pgRtu F.RTU_AREA_BASE
  let size := s.fget pgRtu F.RTU_AREA_SIZE
  s.fbit pgRtu F.RTU_INFO_SFDP_OK && decide (4 ≤ size) && decide (size ≤ 4096)
    && decide ((base + size) * 2 ^ 16 ≤ 2 ^ s.fget pgRtu F.RTU_INFO_SIZE_LOG2)

/-- Sectors that the store uses beside the superblock slots (R542). -/
def storeUsed (st : Store) : List Nat :=
  st.indexAt :: st.bad ++ st.objs.foldr (fun o l => o.2.mapAt :: o.2.data ++ l) []

/-- A set of sectors. -/
def sectorSet (l : List Nat) : Tab Unit := l.foldl (fun (t : Tab Unit) k => t.ins k ()) []

/-- The free sectors, in ascending order (R542); those a commit has allocated are not free while it runs. -/
def freeSectors (s : State) : List Nat :=
  match s.rtu.store with
  | none => []
  | some st =>
    let used := sectorSet (storeUsed st ++ (match s.rtu.work with
      | some w => w.taken
      | none => []))
    (List.range' 2 (areaSectors s - 2)).filter fun k => (used.find? k).isNone

/-- RTU_FREE and RTU_ERASED. -/
def freeCount (s : State) : Nat := (freeSectors s).length
def isErased (s : State) (sec : Nat) : Bool := (s.rtu.erased.find? sec).isSome
def erasedCount (s : State) : Nat := ((freeSectors s).filter (isErased s)).length

/-- The free sectors from a cursor on, wrapping to the first (R543). -/
def fromCursor (free : List Nat) (cursor : Nat) : List Nat :=
  free.filter (fun k => decide (cursor ≤ k)) ++ free.filter (fun k => decide (k < cursor))

/-- The sector after one; after the last of the area, sector 2. -/
def sectorAfter (s : State) (k : Nat) : Nat := if k + 1 < areaSectors s then k + 1 else 2

/-- Show the store in the registers. -/
def showStore (s : State) : State :=
  match s.rtu.store with
  | none => (s.fset pgRtu F.RTU_STORE_OBJECTS 0).fset pgRtu F.RTU_STORE_BAD 0
  | some st =>
    let s := s.setReg64 pgRtu F.RTU_SEQ_LO.off F.RTU_SEQ_HI.off st.seq
    (s.fset pgRtu F.RTU_STORE_OBJECTS st.objs.length).fset pgRtu F.RTU_STORE_BAD st.bad.length

/-! ### The hold-up check -/

/-- V in mV for a code (R546). -/
def huVolt (s : State) (code : Nat) : Nat := code * s.fget pgRtu F.RTU_HU_SCALE_UV / 1000

/-- E_avail in µJ for a code (R546). -/
def huAvail (s : State) (code : Nat) : Nat :=
  let v := huVolt s code
  let vmin := s.fget pgRtu F.RTU_HU_VMIN_MV
  if vmin < v then s.fget pgRtu F.RTU_HU_CAP_C * (v ^ 2 - vmin ^ 2) / 2000000 else 0

/-- A measurement (R546): the smallest of eight conversions. A V that its field cannot hold shows a free value (assumption 1)
(DEDUCED, assumption 71). -/
def huMeasure (s : State) (codes : List Nat) : Nat × State :=
  let code := ((codes.take 8).map fun c => c % 4096).min?.getD 0
  let v := huVolt s code
  let e := huAvail s code
  let (shown, s) := if v < 2 ^ 16 then (v, s) else s.free
  let s := (s.fset pgRtu F.RTU_HU_NOW_CODE code).fset pgRtu F.RTU_HU_NOW_MV shown
  (e, s.setReg pgRtu F.RTU_HU_AVAIL.off (BitVec.ofNat 32 (min e (2 ^ 32 - 1))))

/-- Energy with the margin (R547). -/
def huMargin (s : State) (e : Nat) : Nat := (e * (16 + s.fget pgRtu F.RTU_HU_MARGIN_MARGIN) + 15) / 16

/-- E_req for R records and X erases (R547). -/
def huReq (s : State) (r x : Nat) : Nat :=
  huMargin s (s.fget pgRtu F.RTU_HU_OVH_UJ + s.fget pgRtu F.RTU_HU_PER_UJ * r + s.fget pgRtu F.RTU_HU_ERASE_UJ * x)

/-- The check of a commit or format: E_avail is enough; both values are recorded. -/
def huCheck (s : State) (r x : Nat) (codes : List Nat) : Bool × State :=
  let req := huReq s r x
  let (avail, s) := huMeasure s codes
  let s := s.setReg pgRtu F.RTU_LAST_REQ.off (BitVec.ofNat 32 (min req (2 ^ 32 - 1)))
  (decide (req ≤ avail), s.setReg pgRtu F.RTU_LAST_AVAIL.off (BitVec.ofNat 32 (min avail (2 ^ 32 - 1))))

/-- HOLDUP_MEASURE (R546): the measurement that is taken while no job holds the RTU. -/
def execHoldupMeasure (codes : List Nat) (s : State) : Host.Outcome State Fault Refusal :=
  nxt (if s.rtu.work.isSome ∨ asleep s then s else (huMeasure s codes).2)

/-! ### The end of a commit -/

/-- RTU_LAST (Table 16.10). -/
def rtuLast (s : State) (part status cause : Nat) : State :=
  ((s.fset pgRtu F.RTU_LAST_STATUS status).fset pgRtu F.RTU_LAST_CAUSE cause).fset pgRtu F.RTU_LAST_PARTITION part

/-- The job of a commit completes, unless a partition reset has ended it (R550); the resume commit hands its status to the PMU. -/
def rtuJobEnd (s : State) (job : Option (Nat × Nat)) (status result : Nat) : State :=
  match job with
  | none => rtuSet s { s.rtu with resumed := some status }
  | some (j, seq) =>
    match jobGet s j with
    | some x => if x.seq = seq ∧ x.phase = .started then jobDone s j status result else s
    | none => s

/-- A commit or format ends without effect (R549): its sectors return to the free set, not erased (DEDUCED, assumption 68). -/
def rtuFail (s : State) (w : RtuWork) (status cause : Nat) : State :=
  let s := rtuSet s { s.rtu with work := none, erased := w.taken.foldl (fun t k => t.del k) s.rtu.erased,
                                 store := if w.format then none else s.rtu.store }
  let s := s.fset pgRtu F.RTU_STORE_BUSY 0
  let s := if w.format then showStore (s.fset pgRtu F.RTU_STORE_STATE stNone) else s
  let s := pageIrq (rtuLast s w.part status cause) pgRtu 8
  rtuJobEnd s w.job status cause

/-- A commit or format takes effect (R548, R552). -/
def rtuDone (s : State) (w : RtuWork) : State :=
  let bad := if w.format then [] else (s.rtu.store.map fun st => st.bad).getD []
  let s := rtuSet s { s.rtu with
    work := none,
    store := some { seq := w.seq, indexAt := w.indexAt.getD 2, cursor := w.cursor, bad := bad, objs := w.objs } }
  let s := showStore ((s.fset pgRtu F.RTU_STORE_BUSY 0).fset pgRtu F.RTU_STORE_STATE stReady)
  let s := rtuLast s w.part stOk 0
  let s := if w.format then pageIrq s pgRtu 1 else pageIrq (s.fincSat pgRtu F.RTU_COUNT_DONE 1) pgRtu 2
  rtuJobEnd s w.job stOk (w.seq % 2 ^ 32)

/-- HOLDUP_SHORT (R547). -/
def rtuShort (s : State) (part : Nat) (job : Option (Nat × Nat)) : State :=
  let s := rtuLast (s.fincSat pgRtu F.RTU_COUNT_SHORT 1) part stHoldupShort 0
  rtuJobEnd (pageIrq s pgRtu 4) job stHoldupShort 0

/-! ### The steps of a commit -/

/-- DATA records of an object (R541). -/
def dataRecords (len : Nat) : Nat := (len + 4063) / 4064

/-- The bytes of the INDEX record's payload (Table 16.4). -/
def indexBytes (objs : Tab StoreObj) : List Byte :=
  (objs.map fun o => leBytes 4 (o.1 % 256 + o.2.cls % 256 * 2 ^ 8 + o.2.owner % 16 * 2 ^ 16) ++ leBytes 4 o.2.len ++ leBytes 4 o.2.mapAt
    ++ leBytes 4 o.2.crc).flatten

/-- The bytes of the SUPER record's payload (Table 16.3). -/
def superBytes (sectors indexAt cursor objects : Nat) (bad : List Nat) : List Byte :=
  leBytes 4 sectors ++ leBytes 4 indexAt ++ leBytes 4 cursor ++ leBytes 2 bad.length ++ leBytes 2 objects ++ leBytes 16 0
    ++ ((List.range 64).map fun k => leBytes 4 (bad.getD k 0)).flatten

/-- The record that a commit programs next, and its sector of the store area (steps 3, 4 and 7). -/
def nextRec (s : State) (w : RtuWork) : Nat × FlashRec :=
  let at_ := w.pool.headD 2
  match w.ops, w.indexAt with
  | op :: _, _ =>
    let bs := w.bytes.getD []
    let n := w.recs.length
    if n < dataRecords op.len then
      (at_, { typ := recData, seq := w.seq, obj := op.obj, recNo := n, payload := (bs.drop (4064 * n)).take 4064 })
    else (at_, { typ := recMap, seq := w.seq, obj := op.obj, recNo := 0, payload := (w.recs.map fun k => leBytes 4 k).flatten })
  | [], none => (at_, { typ := recIndex, seq := w.seq, obj := 0, recNo := 0, payload := indexBytes w.objs })
  | [], some ix =>
    let bad := if w.format then [] else (s.rtu.store.map fun st => st.bad).getD []
    (w.seq % 2, { typ := recSuper, seq := w.seq, obj := 0, recNo := 0,
                  payload := superBytes (areaSectors s) ix w.cursor w.objs.length bad })

/-- Issue a flash command for a commit. -/
def rtuIssue (s : State) (w : RtuWork) (c : FlashCmd) : State := rtuSet s { s.rtu with work := some w, cmd := some c }

/-- The commit goes on: the next erase, the read of the next source, or the next record. -/
def rtuNext (s : State) (w : RtuWork) : State :=
  match w.clear with
  | sec :: _ => rtuIssue s w (.erase (areaAt s sec))
  | [] =>
    match w.ops, w.bytes, w.job with
    | op :: _, none, some _ =>
      if op.len = 0 then program { w with bytes := some [] }
      else rtuSet (hostSend s w.part (.read w.part op.addr op.len)) { s.rtu with work := some { w with asked := true }, cmd := none }
    | op :: _, none, none => program { w with bytes := op.bytes }
    | _, _, _ => program w
where
  program (w : RtuWork) : State :=
    let (sec, r) := nextRec s w
    rtuIssue s w (.program (areaAt s sec) (recBytes r))

/-- A record has been programmed and read back as valid (step 5): the commit notes it. After the INDEX it measures again (step 6). -/
def rtuWritten (s : State) (w : RtuWork) (codes : List Nat) : State :=
  let at_ := w.pool.headD 2
  match w.ops, w.indexAt with
  | op :: rest, _ =>
    if w.recs.length < dataRecords op.len then rtuNext s { w with recs := w.recs ++ [at_], pool := w.pool.drop 1 }
    else
      let o : StoreObj := { cls := op.cls, owner := w.part, len := op.len, mapAt := at_, crc := crc32 (w.bytes.getD []), data := w.recs }
      rtuNext s { w with ops := rest, bytes := none, asked := false, recs := [], pool := w.pool.drop 1, objs := w.objs.ins op.obj o }
  | [], none =>
    let w := { w with indexAt := some at_, pool := w.pool.drop 1 }
    if w.format then rtuNext s w
    else
      let need := huMargin s (s.fget pgRtu F.RTU_HU_OVH_UJ + s.fget pgRtu F.RTU_HU_PER_UJ)
      let (e, s) := huMeasure s codes
      if e < need then rtuFail s w stCommitFailed 2 else rtuNext s w
  | [], some _ => rtuDone s w

/-- FLASH_ERROR for a sector (Table 16.8). -/
def flashError (s : State) (sec : Nat) : State := capture s pgRtu 0x1005 0 (0x10000 + sec)

/-- A sector fails during a commit (Table 16.7): it enters the bad list and the next free sector takes its place. A superblock slot has no
other place, nor has a sector of a format. -/
def rtuBad (s : State) (w : RtuWork) (sec : Nat) : State :=
  match s.rtu.store with
  | none => rtuFail s w stCommitFailed 1
  | some st =>
    if sec < 2 ∨ w.format ∨ 4 ≤ w.fails ∨ 64 ≤ st.bad.length then rtuFail s w stCommitFailed 1
    else
      let s := showStore (rtuSet s { s.rtu with store := some { st with bad := st.bad ++ [sec] } })
      match (fromCursor (freeSectors s) w.cursor).head? with
      | none => rtuFail s { w with taken := w.taken.erase sec } stCommitFailed 1
      | some k =>
        let w := { w with fails := w.fails + 1, pool := w.pool.map (fun p => if p = sec then k else p), taken := k :: w.taken.erase sec,
                          cursor := sectorAfter s k,
                          clear := (w.clear.filter fun p => p != sec) ++ (if isErased s k then [] else [k]) }
        rtuNext s w

/-- Mark a sector of the store area erased, or not. -/
def markErased (s : State) (sec : Nat) (on : Bool) : State :=
  rtuSet s { s.rtu with erased := if on then s.rtu.erased.ins sec () else s.rtu.erased.del sec }

/-- The page buffer of the debug access port is programmed into its page (R654); it holds nothing more. -/
def dapProgram (s : State) : State :=
  match s.jtag.pageAt with
  | none => s
  | some page =>
    let bs := List.replicate (256 * (page % 16)) 0xFF ++ (List.range 256).map fun k => s.jtag.pageBytes.get 0xFF k
    let s := { s with jtag := { s.jtag with pageAt := none, pageBytes := [], pageFull := false } }
    rtuSet s { s.rtu with cmd := some (.program (page / 16) bs) }

/-- FLASH_OP_DONE (R538, R548, R554): the flash command in progress reports ready, or an error, or is late; `flips` are the bits of its sector
that came out wrong, and `codes` the conversions of a measurement that follows (DESIGN CHOICE, assumption 67). -/
def execFlashOpDone (ok : Bool) (flips codes : List Nat) (s : State) : Host.Outcome State Fault Refusal :=
  nxt <| match s.rtu.cmd with
    | none => s
    | some c =>
      let flash := match c with
        | .erase k | .program k _ => k
      let base := areaAt s 0
      let sec := flash - base
      let inArea := decide (base ≤ flash) && decide (sec < areaSectors s)
      let s := flashRun (rtuSet s { s.rtu with cmd := none }) c (flips.filter fun k => decide (k < 32768))
      match s.rtu.work, c with
      | none, .erase _ =>
        if storeState s ≠ stReady ∨ ¬ inArea then s
        else if ok then markErased s sec true else flashError s sec
      | none, .program _ _ => if s.jtag.pageFull then dapProgram s else s
      | some w, .erase _ =>
        if ok then rtuNext (if 2 ≤ sec then markErased s sec true else s) { w with clear := w.clear.filter fun k => k != sec }
        else rtuBad (flashError s sec) w sec
      | some w, .program _ _ =>
        let s := markErased s sec false
        if ok ∧ (readRec s flash).isSome then rtuWritten s w codes else rtuBad (flashError s sec) w sec

/-- BACKGROUND_ERASE (R542): while no commit or read runs, the first free sector that is not erased is blank-checked, and erased when it is not
blank. While MAX_STATE is 2 or more and the device is in PS1 no erase starts (R560) (DEDUCED, assumption 70). -/
def execBackgroundErase (s : State) : Host.Outcome State Fault Refusal :=
  nxt <|
    if storeState s ≠ stReady ∨ s.rtu.work.isSome ∨ s.rtu.cmd.isSome ∨ 2 ≤ s.fget pgPmu F.PMU_STAT_STATE
        ∨ (2 ≤ s.fget pgPmu F.PMU_CTRL_MAX_STATE ∧ s.fget pgPmu F.PMU_STAT_STATE = 1) then s
    else match (freeSectors s).find? fun k => !isErased s k with
      | none => s
      | some k =>
        if s.rtu.flash.get [] (areaAt s k) = [] then markErased s k true
        else rtuSet s { s.rtu with cmd := some (.erase (areaAt s k)) }

/-! ### Retention jobs -/

/-- Statuses of Table 16.8. -/
abbrev stStoreAbsent : Nat := 0x1000
abbrev stStoreFull : Nat := 0x1001
abbrev stObjAbsent : Nat := 0x1002
abbrev stObjTooLarge : Nat := 0x1003
abbrev stObjCorrupt : Nat := 0x1004

/-- The most bytes of an object. -/
abbrev objMax : Nat := 4129024

/-- The operations of an RTU_COMMIT chain (Table 16.6). -/
def retOps (x : Job) : List RetOp :=
  (List.range x.entries.length).map fun e =>
    { del := payBitsAt x e 32 2 == 1, obj := payBitsAt x e 40 8, cls := payBitsAt x e 48 8, addr := payBitsAt x e 64 64,
      len := payBitsAt x e 128 32 }

/-- An OBJ_ID in range. -/
def objIdOk (o : Nat) : Bool := decide (1 ≤ o) && decide (o ≤ 254)

/-- No two of a list are equal. -/
def noRepeats : List Nat → Bool
  | [] => true
  | a :: l => !l.contains a && noRepeats l

/-- The fields of a retention job lie in Table 16.6 (first outcome of R545). -/
def retFieldsOk (x : Job) : Bool :=
  match x.opcode with
  | 0x40 =>
    (List.range x.entries.length).all (fun e => decide (payBitsAt x e 32 2 < 2)) &&
    (retOps x).all (fun o => objIdOk o.obj && (o.del || (decide (1 ≤ o.cls) && decide (o.cls ≤ 5) && decide (o.len ≤ objMax)))) &&
    noRepeats ((retOps x).map fun o => o.obj)
  | 0x41 =>
    x.entries.length == 1 && objIdOk (payBits x 40 8) && payBits x 64 3 == 0 && decide (1 ≤ payBits x 128 32)
      && decide (payBits x 128 32 ≤ objMax)
  | 0x42 => x.entries.length == 1 && payBits x 64 3 == 0 && decide (1 ≤ payBits x 128 32) && decide (payBits x 128 32 ≤ objMax)
  | _ => x.entries.length == 1

/-- A partition other than P0 names an object of another (R545). -/
def otherOwner (st : Store) (part : Nat) (objs : List Nat) : Bool :=
  part != 0 && objs.any fun o => match st.objs.find? o with
    | some y => y.owner != part
    | none => false

/-- Sectors that a commit needs: D + M + 1 (R545). -/
def retNeed (ops : List RetOp) : Nat :=
  ((ops.filter fun o => !o.del).map fun o => dataRecords o.len + 1).sum + 1

/-- The outcomes of R545 that need the store, for the operations of a commit, or OK. -/
def commitCheck (s : State) (st : Store) (part : Nat) (ops : List RetOp) : Nat :=
  let has := fun o => (st.objs.find? o).isSome
  if otherOwner st part (ops.map fun o => o.obj) then stNotOwner
  else if ops.any fun o => o.del && !has o.obj then stObjAbsent
  else if 254 < st.objs.length + (ops.filter fun o => !o.del && !has o.obj).length - (ops.filter fun o => o.del).length then stObjTooLarge
  else if (freeSectors s).length < retNeed ops then stStoreFull
  else stOk

/-- A commit passes its checks: the hold-up check (R547), then the allocation and the first erase (R548). -/
def commitStart (s : State) (st : Store) (part : Nat) (job : Option (Nat × Nat)) (ops : List RetOp) (codes : List Nat) : State :=
  let need := retNeed ops
  let pool := (fromCursor (freeSectors s) st.cursor).take need
  let dirty := pool.filter fun k => !isErased s k
  let (ok, s) := huCheck s (need + 1) (dirty.length + 1) codes
  if ¬ ok then rtuShort s part job
  else
    let s := s.fset pgRtu F.RTU_STORE_BUSY 1
    let s := match job with
      | some (j, _) => match jobGet s j with
        | some x => jobSet s j { x with stage := 2 }
        | none => s
      | none => s
    rtuNext s {
      job := job, part := part, seq := (st.seq + 1) % 2 ^ 64, clear := (st.seq + 1) % 2 :: dirty, ops := ops.filter fun o => !o.del,
      pool := pool, taken := pool, cursor := sectorAfter s (pool.getLastD 1),
      objs := ops.foldl (fun t o => if o.del then t.del o.obj else t) st.objs }

/-- A retention job may start: it is the first of those that became ready and have not started (R545); a commit or format also waits for the
one before it, and every job for an erase in progress (R542) (DEDUCED, assumption 69). -/
def rtuTurn (s : State) (j : Nat) (x : Job) (writes : Bool) : Bool :=
  let before := s.qe.jobs.any fun k =>
    decide (k.1 ≠ j) && decide (k.2.phase = .started) && decide (0x40 ≤ k.2.opcode) && decide (k.2.opcode ≤ 0x43) && k.2.stage == 0
      && decide (k.2.startTick < x.startTick ∨ (k.2.startTick = x.startTick ∧ k.2.seq < x.seq))
  !before && (if s.rtu.work.isSome then !writes else s.rtu.cmd.isNone)

/-- The outcomes of R545 up to STORE_ABSENT; none while the job waits for READY. A format needs no valid superblock. -/
def retEarly (s : State) (x : Job) : Option Nat :=
  if ¬ retFieldsOk x then some stBadEntry
  else if ¬ natBit (s.fget pgRtu F.RTU_PART_EN_EN) x.part ∨ (x.opcode = 0x43 ∧ x.part ≠ 0) then some stNotOwner
  else if storeState s = stRecovering then none
  else if storeState s = stFlashFault ∨ (storeState s = stNone ∧ (x.opcode ≠ 0x43 ∨ ¬ areaOk s)) then some stStoreAbsent
  else some stOk

/-- A retention job that has not begun: cancelled, ended with an early outcome, waiting, or on to its work. -/
def retJob (s : State) (j op : Nat) (writes : Bool) (k : State → Job → State) : State :=
  match startedJob s j op with
  | none => s
  | some x =>
    if x.stage ≠ 0 then s
    else if x.cancel then jobDone s j stCancelled 0
    else if ¬ rtuTurn s j x writes then s
    else match retEarly s x with
      | none => s
      | some c => if c = stOk then k s x else jobDone s j c 0

/-- RTU_COMMIT (R544 to R549). -/
def execRtuCommit (job : Nat) (codes : List Nat) (s : State) : Host.Outcome State Fault Refusal :=
  nxt <| retJob s job 0x40 true fun s x =>
    match s.rtu.store with
    | none => s
    | some st =>
      let c := commitCheck s st x.part (retOps x)
      if c = stOk then commitStart s st x.part (some (job, x.seq)) (retOps x) codes else jobDone s job c 0

/-- Read an object's records (R551): the bytes of `len` from record `n` on, and whether every record passed; `fuel` counts records. -/
def readRecords (s : State) (obj : Nat) : List Nat → Nat → Nat → List Byte → List Byte × Bool
  | [], _, _, acc => (acc, true)
  | sec :: rest, n, left, acc =>
    if left = 0 then (acc, true)
    else match readRec s (areaAt s sec) with
      | some r =>
        if r.typ = recData ∧ r.obj = obj ∧ r.recNo = n then
          readRecords s obj rest (n + 1) (left - min left r.payload.length) (acc ++ r.payload.take left)
        else (acc, false)
      | none => (acc, false)

/-- RTU_READ (R551, R555). -/
def execRtuRead (job : Nat) (s : State) : Host.Outcome State Fault Refusal :=
  nxt <| retJob s job 0x41 false fun s x =>
    let obj := payBits x 40 8
    match s.rtu.store with
    | none => s
    | some st =>
      if otherOwner st x.part [obj] then jobDone s job stNotOwner 0
      else match st.objs.find? obj with
        | none => jobDone s job stObjAbsent 0
        | some o =>
          let len := min (payBits x 128 32) o.len
          let (bs, ok) := readRecords s obj o.data 0 len []
          let s := if bs = [] then s else hostSend s x.part (.write x.part (payBits x 64 64) bs)
          if ¬ ok ∨ (len = o.len ∧ crc32 bs ≠ o.crc) then jobDone s job stObjCorrupt bs.length
          else jobDone s job stOk o.len

/-- RTU_LIST (R545): every entry to P0, and to another partition the entries it owns. -/
def execRtuList (job : Nat) (s : State) : Host.Outcome State Fault Refusal :=
  nxt <| retJob s job 0x42 false fun s x =>
    match s.rtu.store with
    | none => s
    | some st =>
      let seen := st.objs.filter fun o => x.part == 0 || o.2.owner == x.part
      let bs := (indexBytes seen).take (payBits x 128 32)
      let s := if bs = [] then s else hostSend s x.part (.write x.part (payBits x 64 64) bs)
      jobDone s job stOk seen.length

/-- RTU_FORMAT (R547, R552). -/
def execRtuFormat (job : Nat) (codes : List Nat) (s : State) : Host.Outcome State Fault Refusal :=
  nxt <| retJob s job 0x43 true fun s x =>
    let n := (s.rtu.store.map fun st => st.seq).getD 0
    let (ok, s) := huCheck s 2 3 codes
    if ¬ ok then rtuShort s 0 (some (job, x.seq))
    else
      let s := jobSet (s.fset pgRtu F.RTU_STORE_BUSY 1) job { x with stage := 2 }
      rtuNext s { job := some (job, x.seq), part := 0, format := true, seq := (n + 1) % 2 ^ 64, clear := [0, 1, 2], pool := [2], taken := [2],
                  cursor := 3 }

/-! ### Discovery and recovery -/

/-- SFDP is read (R537, R538): the flash size as a power of two and the erase time, or nothing (DEDUCED, assumption 84). -/
def rtuDiscover (s : State) (sfdp : Option (Nat × Nat)) : State :=
  match sfdp with
  | some (size, erase) =>
    if 24 ≤ size ∧ size ≤ 31 then
      let s := (s.fset pgRtu F.RTU_INFO_SIZE_LOG2 size).fset pgRtu F.RTU_INFO_SFDP_OK 1
      (s.fset pgRtu F.RTU_INFO_PROFILE 1).fset pgRtu F.RTU_INFO_ERASE_MAX erase
    else flashFault s
  | none => flashFault s
where
  flashFault (s : State) : State := (capture s pgRtu 0x1005 0 1).fset pgRtu F.RTU_STORE_STATE stFlashFault

/-- Recovery begins where there is a store (R536, R553). -/
def rtuBegin (s : State) : State :=
  if storeState s = stFlashFault then s
  else s.fset pgRtu F.RTU_STORE_STATE (if areaOk s then stRecovering else stNone)

/-- The objects that an INDEX payload names, with their MAP records; none when one of them is not valid. -/
def readObjects (s : State) : List Byte → Nat → Tab StoreObj → Option (Tab StoreObj)
  | _, 0, t => some t
  | bs, n + 1, t =>
    let w0 := leNat (bs.take 4)
    let at_ := leNat ((bs.drop 8).take 4)
    match (if at_ < areaSectors s then readRec s (areaAt s at_) else none) with
    | none => none
    | some m =>
      if m.typ ≠ recMap then none
      else
        let o : StoreObj := {
          cls := w0 / 2 ^ 8 % 256, owner := w0 / 2 ^ 16 % 16, len := leNat ((bs.drop 4).take 4), mapAt := at_,
          crc := leNat ((bs.drop 12).take 4),
          data := (List.range (m.payload.length / 4)).map fun k => leNat ((m.payload.drop (4 * k)).take 4) }
        readObjects s (bs.drop 16) n (t.ins (w0 % 256) o)

/-- The store of a slot, where the slot is sound (R553). -/
def soundSlot (s : State) (slot : Nat) : Option Store :=
  match readRec s (areaAt s slot) with
  | none => none
  | some r =>
    let at_ := leNat ((r.payload.drop 4).take 4)
    if r.typ ≠ recSuper ∨ leNat (r.payload.take 4) ≠ areaSectors s ∨ areaSectors s ≤ at_ then none
    else match readRec s (areaAt s at_) with
      | none => none
      | some ix =>
        if ix.typ ≠ recIndex ∨ ix.seq ≠ r.seq then none
        else (readObjects s ix.payload (ix.payload.length / 16) []).map fun objs =>
          { seq := r.seq, indexAt := at_, cursor := leNat ((r.payload.drop 8).take 4),
            bad := (List.range (min 64 (leNat ((r.payload.drop 12).take 2)))).map fun k => leNat ((r.payload.drop (32 + 4 * k)).take 4),
            objs := objs }

/-- The SEQ of a slot that holds a valid SUPER record. -/
def slotSeq (s : State) (slot : Nat) : Option Nat :=
  match readRec s (areaAt s slot) with
  | some r => if r.typ = recSuper then some r.seq else none
  | none => none

/-- The slot that recovery takes and its store (R553) (DEDUCED, assumption 72). -/
def recoverPick (s : State) : Option (Nat × Store) :=
  match soundSlot s 0, soundSlot s 1 with
  | some a, some b => some (if a.seq < b.seq then (1, b) else (0, a))
  | some a, none => some (0, a)
  | none, some b => some (1, b)
  | none, none => none

/-- RTU_RECOVERY (R553): the superblock is chosen and the free set rebuilt, with no sector counted as erased. -/
def execRtuRecovery (s : State) : Host.Outcome State Fault Refusal :=
  nxt <|
    if storeState s ≠ stRecovering ∨ s.rtu.cmd.isSome then s
    else match recoverPick s with
      | none => s.fset pgRtu F.RTU_STORE_STATE stNone
      | some (slot, st) =>
        let s := rtuSet s { s.rtu with store := some st, erased := [] }
        let s := match slotSeq s (1 - slot) with
          | some q =>
            if st.seq < q then capture (s.fset pgRtu F.RTU_STORE_FALLBACK 1) pgRtu 0x1006 0 (1 - slot) else s
          | none => s
        pageIrq (showStore (s.fset pgRtu F.RTU_STORE_STATE stReady)) pgRtu 1

/-! ### Host data -/

/-- Opcodes whose jobs read data from host memory. -/
def readsHost (op : Nat) : Bool :=
  [0x20, 0x22, 0x30, 0x38, 0x51, 0x55, 0x60, 0x71, 0x80, 0x81, 0xA0, 0xA3].contains op

/-- The AER report of a read that failed (R149). -/
def readNote (s : State) (part : Nat) (res : ReadResult) : State :=
  match res with
  | .good _ [] => s
  | .good _ _ => hostNote s (.aer part .poisonedTlp)
  | .timeout => hostNote s (.aer part .completionTimeout)
  | _ => s

/-- The source bytes of a commit's operation arrive, or their read fails (R548, Table 16.7). -/
def rtuData (s : State) (w : RtuWork) (res : ReadResult) : State :=
  let s := readNote s w.part res
  match res with
  | .good d [] => rtuNext s { w with bytes := some (d.take ((w.ops.headD {}).len)) }
  | .good _ _ => rtuFail s w stPoison 0
  | _ => rtuFail s w stMemHostErr 0

/-- A job takes the data of the read that it waits for at its next command (R149, R516). -/
def jobData (s : State) (job : Nat) (res : ReadResult) : State :=
  match jobGet s job with
  | none => s
  | some x =>
    if x.phase ≠ .started ∨ x.stage ≠ 1 ∨ x.data.isSome ∨ ¬ readsHost x.opcode then s
    else readNote (jobSet s job { x with data := some res }) x.part res

/-- HOST_READ_COMPLETION (R149, R516): the data of the read that a job waits for, or its failure. A commit goes on with it at once
(DEDUCED, assumption 121). -/
def execHostReadCompletion (job : Nat) (res : ReadResult) (s : State) : Host.Outcome State Fault Refusal :=
  nxt <| match s.rtu.work with
    | some w => if w.job.map Prod.fst = some job ∧ w.asked ∧ w.bytes.isNone then rtuData s w res else jobData s job res
    | none => jobData s job res

end Sys2Proof.Machine
end

