-- ==== Sys2Proof/Machine/Plan.lean ====
section
/-! DEFINITION. Plan loads and stops, and the plan epoch (R55, R56, R249, R250, R203, R279, R300, R314, R325). -/

namespace Sys2Proof.Machine

/-! ### What the registers show of the plan -/

/-- STATE and LEAD of every slot (Table 8.15): BOUND by the plan in force before PENDING. -/
def showSlots (s : State) : State := eachIn (List.range 32) (fun s k =>
  let pend := match s.time.next with
    | some e => (match e.load with
      | some p => bindOf p k
      | none => none)
    | none => none
  let b := (binding s k) <|> pend
  let st := if (slotGet s k).image.isNone then 0 else if (binding s k).isSome then 2 else if pend.isSome then 3 else 1
  (slotState s k st).fset pgSolv (F.SOLV_SLOT0_LEAD.sh (16 * k)) (match b with
    | some b => bLead b
    | none => 0)) s

/-- SOLV_PLAN, and SOLV_EPOCH while a load or stop is pending (Tables 8.14 and 8.15) (DEDUCED, assumption 56). -/
def showPlan (s : State) : State :=
  let s := s.fset pgSolv F.SOLV_PLAN_IN_FORCE (b2n s.time.plan.isSome)
  let s := s.fset pgSolv F.SOLV_PLAN_PLAN_ID (match s.time.plan with
    | some p => p.planId
    | none => 0)
  let s := s.fset pgSolv F.SOLV_PLAN_PENDING (b2n s.time.next.isSome)
  let s := match s.time.next with
    | some e => (s.fset pgSolv F.SOLV_PLAN_STOP (b2n e.stop)).setReg64 pgSolv F.SOLV_EPOCH_LO.off F.SOLV_EPOCH_HI.off e.bpn
    | none => s.fset pgSolv F.SOLV_PLAN_STOP 0
  showSlots s

/-! ### Loads and stops -/

/-- A load or stop is complete and waits for its epoch, in place of an earlier one (R55, R249). A load joins the remaps that are decided
(R69). -/
def planPend (s : State) (load : Option PlanImage) : State :=
  let joined := load.isSome && s.fbit pgFmap F.FMAP_STAT_REMAP_PENDING
  let b := epochFrom s s.now
  let s := timeSet s { s.time with next := some { load := load, stop := load.isNone, joined := joined, bpn := b } }
  let s := if joined ∧ s.facet.loads = [] then
      facetMod (s.setReg64 pgFmap F.FMAP_EPOCH_LO.off F.FMAP_EPOCH_HI.off b) fun x => { x with remapBpn := some b }
    else s
  showPlan s

/-- PLAN_LOAD (R249, R286, R319, R375, R525, R526, R576). `img` is what the image's bytes say (assumption 11) (DEDUCED, assumption 55). -/
def execPlanLoad (job : Nat) (img : PlanImage) (s : State) : Host.Outcome State Fault Refusal :=
  nxt <| match startedJob s job 0x20 with
    | none => s
    | some x =>
      let bytes := payBits x 128 32
      if ¬ memReady s then s
      else if ¬ imagePayloadOk x then jobDone s job stBadEntry 0
      else withHostData s job (payBits x 64 64) bytes (fun s _ _ => s) fun s _ =>
        let s := remapVacant s
        let c := img.firstFailed s
        if c ≠ 0 then loadDone s job 0x0800 c
        else if planFree s 33 < bytes then loadDone s job 0x0F16 0
        else
          let s := planPend (planTake s 33 bytes) (some img)
          let b := epochFrom s s.now
          let s := loadDone s job stOk 0
          match jobGet s job with
          | some y => if y.status = stOk ∧ y.phase = .done then jobSet s job { y with result := b % 2 ^ 32 } else s
          | none => s

/-- PLAN_STOP (R250). -/
def execPlanStop (job : Nat) (s : State) : Host.Outcome State Fault Refusal :=
  nxt <| match startedJob s job 0x21 with
    | none => s
    | some _ => jobDone (planPend (planTake s 33 0) none) job stOk (epochFrom s s.now % 2 ^ 32)

/-! ### The plan epoch -/

/-- The pending load or stop takes effect at the base-period start that has come (R55, R69) (DEDUCED, assumption 49). -/
def planDue (s : State) : Bool :=
  match s.time.next with
  | none => false
  | some e => decide (e.bpn ≤ s.time.bpn.toNat) && (!e.joined || s.facet.loads.isEmpty)

/-- The decided remaps take effect at the base-period start that has come (DEDUCED, assumption 48). -/
def remapDue (s : State) : Bool :=
  s.facet.loads.isEmpty && (match s.facet.remapBpn with
    | some b => decide (b ≤ s.time.bpn.toNat)
    | none => false)

/-- A remap takes effect (R202, R162): the spare holds the position, and a tile that software has taken out leaves. -/
def remapOne (s : State) (r : SpareLoad) : State :=
  let s := match posTile s r.pos with
    | some old => setRole (markOut (tileStop s old) (pgFt + old) false) old roleRetired 0
    | none => s
  let s := setRole s r.spare roleActive r.pos
  let s := timeSet s { s.time with lost := s.time.lost.filter (· ≠ r.pos) }
  s.fincSat pgFmap F.FMAP_REMAPS_COUNT 1

/-- The decided remaps take effect (R159, R171). -/
def remapEpoch (s : State) : State :=
  let s := eachIn s.facet.remaps remapOne s
  let s := facetMod s fun x => { x with remaps := [], remapBpn := none, leaving := x.leaving.filter fun i => (tilePos s i).isSome }
  let s := (s.fset pgFmap F.FMAP_STAT_REMAP_PENDING 0).fset pgFmap F.FMAP_STAT_EPOCH_FIXED 0
  pageIrq (s.setReg64 pgFmap F.FMAP_EPOCH_LO.off F.FMAP_EPOCH_HI.off 0) pgFmap 1

/-- Release registers at a plan epoch (R56, R66): pending stages are discarded and output stages stay. -/
def releasesEpoch (s : State) : State :=
  timeSet s { s.time with releases := (s.time.releases.mapVal fun _ x => { output := x.output }).filter fun r => r.2 ≠ {} }

/-- At the epoch of a stop every register bound by the plan takes its fallback policy once (R250). -/
def releasesStop (s : State) : State :=
  let regs := match s.time.plan with
    | some p => (p.releases.map (·.reg)).eraseDups
    | none => []
  eachIn regs (fun s r => match relPlans s r with
    | x :: _ => relSet s r { relGet s r with output := relFallback x (relGet s r) }
    | [] => s) s

/-- A tile at a plan epoch (R203): committed SSB entries drain, open levels are squashed, channels are emptied, and the tile waits for
its program start. -/
def tileEpoch (s : State) (i : Nat) : State :=
  let s := eachIn ((tileGet s i).ssb.filter (·.level.isNone)) (fun s e => storeOut s i e.word e.val) s
  let x := dropLevels (tileGet s i)
  tileSet s i { x with running := false, wait := none, tray := {}, delay := 0, target := none, chans := [], ssb := [] }

/-- The parts of the plan in force and of the images it binds at a position. -/
def partsAt (s : State) (p : Nat) : List PlanTile :=
  match s.time.plan with
  | none => []
  | some q => (q.tiles ++ q.bindings.flatMap fun b => (slotImage s (bitsOf b 0 5)).body.tiles).filter fun t => t.pos = p

/-- The sequencer places the programs of a position in its tile's SRAM with full-word writes (R179, R201). -/
def tileProgram (s : State) (i : Nat) : State :=
  match tilePos s i with
  | none => s.fset (pgFt + i) F.FT_PROG_TRAYS 0
  | some p =>
    let l := partsAt s p
    let s := eachIn (l.flatMap (·.words)) (fun s w => tileWrite s i w.1 w.2 false) s
    s.fset (pgFt + i) F.FT_PROG_TRAYS (l.foldl (fun n t => max n t.trays) 0)

/-- The memory calendar of the plan in force (R25, R250). -/
def calendarEpoch (s : State) : State := eachIn (List.range s.var.memcChannels) (fun s ch =>
  let ws := match s.time.plan with
    | some p => p.calendars.getD ch []
    | none => []
  let s := eachIn (List.range 16) (fun s w =>
    let (st, len) := ws.getD w (0, 0)
    (s.fset (calPage ch) (F.MEMC_WIN_START.sh (4 * w)) st).fset (calPage ch) (F.MEMC_WIN_LEN.sh (4 * w)) len) s
  let s := phaseSet s ch { phaseGet s ch with closed := false, waiting := [] }
  s.fset (calPage ch) F.MEMC_CAL_INFO_WINDOWS ws.length) s

/-- PWM_SCHED of a pair under the plan in force (R318): its entry and the channel that routes to it. -/
def pwmSched (s : State) (n : Nat) : Nat :=
  match s.time.plan with
  | none => 0
  | some p =>
    if p.pwmDiv n = 0 then 0
    else bitsOf (p.pwmEntry n) 0 23 + (match p.routerOf n with
      | some c => 2 ^ 23 + c * 2 ^ 24
      | none => 0)

/-- A plan epoch for the PWM pairs (R325, R326): a pair whose entry changes or disappears is off with a zero stage and has its new PER; a
TRIPPED pair stays so, but one that waits for a period start with no hold leaves to IDLE when it has no schedule any more (R327) (DEDUCED,
assumption 132). -/
def pwmEpoch (s : State) : State := eachIn (List.range s.var.pwmPairs) (fun s n =>
  let p := pgPwm + n
  let old := s.reg p F.PWM_SCHED_PHASE.off
  let new := BitVec.ofNat 32 (pwmSched s n)
  let s := s.setReg p F.PWM_SCHED_PHASE.off new
  if bitsOf old 0 23 = bitsOf new 0 23 then s
  else
    let d := divSamples (s.fget p F.PWM_SCHED_DIV)
    let s := ((s.fset p F.PWM_STAGE_VALUE 0).fset p F.PWM_ACTIVE_CMP 0).fset p F.PWM_PER_PER (s.time.period / (2 * d))
    let s := pairSet s n { pairGet s n with stageOld := 0, stageAt := 0, start := none }
    if s.fget p F.PWM_STAT_STATE = pwmRun then pairIdle s n
    else if d = 0 ∧ (pairGet s n).resume then pageIrq (pairIdle s n) p 2
    else s) s

/-- A slot at a plan epoch (R256, R279): its next solve is cold; jobs that the plan no longer serves end. -/
def slotEpoch (s : State) (k : Nat) : State :=
  let b := binding s k
  let y := slotGet s k
  let drop := if b.isNone then y.staged else []
  let noWindow : Bool := match b with
    | some b => bKind b != 1
    | none => true
  let ended := if noWindow ∧ ¬ y.ranOut then y.run.toList else []
  let s := eachIn drop (fun s d => jobDone s d.job stSlotNotBound 0) s
  let s := eachIn ended (fun s j => jobDone s j stNoWindow 0) s
  let s := eachIn (if ended = [] ∧ ¬ y.ranOut then y.run.toList else []) (fun s j => match jobGet s j with
    | some x => jobSet s j { x with stage := 2 }
    | none => s) s
  let s := slotSet s k { y with
    warm := false, readAt := [], staged := if b.isNone then [] else y.staged, run := if ended = [] then y.run else none,
    solve := match y.solve with
      | some v => if v.finished then some v else none
      | none => none }
  if b.isNone ∧ y.forceCold then takeForceCold s k else s

/-- Where the epoch lies (R37, R64, R70): at the base-period start; for a follower at the pulse edge plus the board delay, when it lies
within 4 ticks of its own start. -/
def epochPlace (s : State) : State :=
  if s.fget pgPtb F.PTB_SYNC_CTRL_MODE ≠ 2 then s
  else
    let s := timeSet s { s.time with syncCheck := true }
    match s.time.syncEpoch with
    | some t =>
      if t ≤ s.time.startTick + 4 ∧ s.time.startTick ≤ t + 4 then
        let s := s.reach t
        (timeSet s { s.time with startTick := t }).fset pgPtb F.PTB_SYNC_STAT_ALIGNED 1
      else syncLost (s.fset pgPtb F.PTB_SYNC_STAT_ALIGNED 0)
    | none => syncLost (s.fset pgPtb F.PTB_SYNC_STAT_ALIGNED 0)

/-- The plan that the epoch puts in force, and the room its image takes (R525). -/
def planTakes (s : State) : State :=
  match s.time.next with
  | none => s
  | some e =>
    let s := if e.stop then releasesStop s else s
    let s := planTake (planTake s 32 (if e.stop then 0 else s.mem.planUse.get 0 33)) 33 0
    let s := timeSet s { s.time with
      plan := e.load, next := none,
      period := match e.load with
        | some p => p.period
        | none => s.time.period
      cycleH := match e.load with
        | some p => p.cycleH
        | none => 1
      lost := s.time.lost.filter fun p => (s.facet.loads ++ s.facet.remaps).any fun r => r.pos = p }
    pageIrq s pgSolv 1

/-- PLAN_EPOCH (R56): at a base-period start at position j = 0 a pending load or stop, or the decided remaps, take effect. -/
def execPlanEpoch (s : State) : Host.Outcome State Fault Refusal :=
  nxt <|
    if ¬ s.time.running ∨ planPos s ≠ 0 ∨ ¬ (planDue s ∨ remapDue s) then s
    else
      let change := planDue s
      let s := epochPlace s
      let s := eachIn (List.range s.var.facetTiles) tileEpoch s
      let s := if remapDue s then remapEpoch s else s
      let s := if change then planTakes s else s
      let s := releasesEpoch s
      let s := timeSet s { s.time with origin := s.time.startTick, epochTick := s.time.startTick, epochBpn := s.time.bpn.toNat }
      let s := if s.facet.loads = [] ∧ s.facet.remaps ≠ [] ∧ change then fixRemap s else s
      let s := if change then calendarEpoch s else s
      let s := loopEpoch s (fun c => match s.time.plan with
        | some p => p.loopEntry c
        | none => (0, 0, 0x3FFFFFFF, 0xFFFF)) s.now
      let s := refreshHolds (pwmEpoch s)
      let s := clnkEpoch s
      let s := eachIn (List.range 32) slotEpoch s
      let s := eachIn (List.range s.var.facetTiles) tileProgram s
      let s := if s.time.next.isNone then s.setReg64 pgSolv F.SOLV_EPOCH_LO.off F.SOLV_EPOCH_HI.off s.time.bpn.toNat else s
      pageIrq (showPlan s) pgPtb 2

end Sys2Proof.Machine
end

