-- ==== Sys2Proof/Machine/Power.lean ====
section
/-! DEFINITION. The Power Manager (chapter 17): the chooser, entries and exits, wakes, PS4, the timers and the thermal limits. -/

namespace Sys2Proof.Machine

def powerSet (s : State) (x : PowerSt) : State := { s with power := x }

/-- Power states (Table 17.1). PMU_STAT.STATE holds the state the device is in. -/
def powerState (s : State) : Nat := s.fget pgPmu F.PMU_STAT_STATE

/-- Entry and exit latencies (Table 17.2). -/
def entryTicks (p : Nat) : Nat := if p = 1 then 16 else if p = 2 then 2400 else if p = 3 then 80000 else 0
def exitTicks (p : Nat) : Nat := if p = 1 then 40 else if p = 2 then 16000 else if p = 3 then 16000000 else 0

/-! ### Blocking conditions (Table 17.3) -/

/-- A base period so many periods ahead is busy (R561). -/
def busyAhead (s : State) (d : Nat) : Bool :=
  match s.time.plan with
  | none => false
  | some p => natBit (p.workMap.getD 0) ((planPos s + d) % max 1 s.time.cycleH)

/-- A port holds the link awake. -/
def linkBusy (s : State) (p : Nat) : Bool :=
  let st := linkState s p
  st == lkSync || st == lkEnum || st == lkUp || st == lkMbxOnly || st == lkBackoff
    || (st == lkDetect && s.fbit (pgClnk + p) F.PG_CTRL_ENABLE)

/-- Some RQT entry is in one of these states. -/
def anyReq (s : State) (f : ReqState → Bool) : Bool := s.serve.reqs.any fun r => f r.2.state

/-- PMU_STAT.BLOCK. The link's state and the power states of the functions are the host's. -/
def blocking (s : State) (inL1 inD3 : Bool) : Nat :=
  let bit := fun (n : Nat) (b : Bool) => if b then 2 ^ n else 0
  bit 0 (!s.qe.jobs.isEmpty)
  + bit 1 (anyReq s fun x => x != .free && x != .paused)
  + bit 2 (s.time.next.isSome || busyAhead s 0 || busyAhead s 1)
  + bit 3 ((List.range s.var.clnkPorts).any (linkBusy s))
  + bit 4 (s.fbit pgRtu F.RTU_STORE_BUSY || storeState s == stRecovering || s.rtu.cmd.isSome)
  + bit 5 (!inL1)
  + bit 6 s.time.plan.isSome
  + bit 7 (anyReq s fun x => x != .free)
  + bit 8 ((List.range 8).any fun m => s.var.serve && mslotState s m != msEmpty)
  + bit 9 (!inD3)
  + bit 10 (decide (s.fget pgPmu F.PMU_CTRL_MAX_STATE < 3))

/-- A set of conditions blocks a state. -/
def blocks (s : State) (block p : Nat) : Bool :=
  decide (s.fget pgPmu F.PMU_CTRL_MAX_STATE < p)
  || (decide (1 ≤ p) && block &&& 0x003 != 0)
  || (decide (2 ≤ p) && block &&& 0x01C != 0)
  || (p == 2 && block &&& 0x020 != 0)
  || (decide (3 ≤ p) && block &&& 0x3C0 != 0)

/-! ### Known events (R562) -/

/-- The earlier of two optional events. -/
def earlier (a : Option (Nat × Nat)) (t src : Nat) : Option (Nat × Nat) :=
  match a with
  | none => some (t, src)
  | some (u, _) => if t < u then some (t, src) else a

/-- The wake period: the start before the first busy base period after the next one. -/
def planEvent (s : State) : Option Nat :=
  if s.time.plan.isNone then none
  else ((List.range (s.time.cycleH + 1)).find? fun d => busyAhead s (d + 2)).map fun d => s.time.startTick + (d + 1) * s.time.period

/-- The next known event, with its source: 1 PLAN, 2 TIMER, 3 SERVE. -/
def nextEvent (s : State) : Option (Nat × Nat) :=
  let e := (planEvent s).map fun t => (t, 1)
  let e := match timerNext s with
    | some t => earlier e t 2
    | none => e
  s.serve.reqs.foldl (fun e r =>
    let x := r.2
    let e := if x.state ≠ .free ∧ s.now < x.deadline then earlier e x.deadline 3 else e
    if x.state = .paused ∧ x.ttlEnd ≠ 0 then earlier e x.ttlEnd 3 else e) e

/-- Show the next known event. -/
def showNext (s : State) (e : Option (Nat × Nat)) : State :=
  let (t, src) := e.getD (0, 0)
  (s.setReg64 pgPmu F.PMU_NEXT_LO.off F.PMU_NEXT_HI.off t).fset pgPmu F.PMU_NEXT_SRC_SRC src

/-! ### The choice -/

/-- The deepest state that the chooser may select (R563). -/
def choose (s : State) (block : Nat) (e : Option (Nat × Nat)) : Nat :=
  let fits := fun p => match e with
    | none => true
    | some (t, _) => decide (s.now + entryTicks p + exitTicks p + s.fget pgPmu F.PMU_MARGIN_TICKS ≤ t)
  ([3, 2, 1].find? fun p => !blocks s block p && fits p).getD 0

/-- An exit begins (R564, R568): from PS3 it is a chip reset, with WAKE# asserted. -/
def beginExit (s : State) (wakes : Nat) : State :=
  let p := powerState s
  let s := if wakes ≠ 0 then s.fset pgPmu F.PMU_LAST_WAKE_CAUSE wakes else s
  let s := if p = 3 then chipReset s 7 else s
  powerSet s { s.power with entering := none, wakeAt := none, exiting := true, fromPs2 := decide (p = 2),
                            wakePin := s.power.wakePin || decide (p = 3) }

/-- Wakes reach the PMU (R571): they end an entry or start an exit; during an exit they are recorded with it (R578); in PS0 and PS1 they have
no effect. -/
def pmuWake (s : State) (wakes : Nat) : State :=
  if wakes = 0 ∨ s.power.off then s
  else if s.power.exiting then
    s.fset pgPmu F.PMU_LAST_WAKE_CAUSE (s.fget pgPmu F.PMU_LAST_WAKE_CAUSE ||| wakes)
  else match s.power.entering with
    | some p => if 2 ≤ p then beginExit s wakes else s
    | none => if asleep s then beginExit s wakes else s

/-- CHOOSER_EVALUATE (R560, R563, R579). A condition that comes to block a state being entered ends the entry (DEDUCED, assumption 78). -/
def execChooserEvaluate (inL1 inD3 : Bool) (s : State) : Host.Outcome State Fault Refusal :=
  nxt <|
    if s.power.off ∨ s.power.exiting ∨ asleep s then s
    else
      let block := blocking s inL1 inD3
      let s := s.fset pgPmu F.PMU_STAT_BLOCK block
      match s.power.entering with
      | some p => if blocks s block p then (if 2 ≤ p then beginExit s 0 else powerSet s { s.power with entering := none }) else s
      | none =>
        let e := nextEvent s
        let s := showNext s e
        let p := choose s block e
        if p = powerState s then s
        else if p = 0 then s.fset pgPmu F.PMU_STAT_STATE 0
        else
          let at_ := if 2 ≤ p then e.map fun x => x.1 - exitTicks p - s.fget pgPmu F.PMU_MARGIN_TICKS else none
          powerSet s { s.power with entering := some p, wakeAt := at_ }

/-- PS_ENTRY_DONE (R565, R566, R568): the state is reached. In PS2 the island PLLs stop, so that no aligned copy counts, and every pair is at
its trip state or off; in PS3 every island but LOUPE, TKU and PMU is reset and unpowered (DEDUCED, assumption 115)
(DEDUCED, assumption 129). -/
def execPsEntryDone (s : State) : Host.Outcome State Fault Refusal :=
  nxt <| match s.power.entering with
    | none => s
    | some p =>
      let s := powerSet s { s.power with entering := none }
      let at_ := s.power.wakeAt
      let s := if p = 3 then coreReset s else s
      let s := (s.fset pgPmu F.PMU_STAT_STATE p).fset pgPmu F.PMU_STAT_LAST (max p (s.fget pgPmu F.PMU_STAT_LAST))
      let s := powerSet s { s.power with wakeAt := at_ }
      if p = 2 then
        let s := wdtWait (s.fincSat pgPmu F.PMU_SLEEP_CNT_PS2 1)
        let s := timeSet s { s.time with copies := s.time.copies.map fun c => (c.1, { c.2 with valid := false, misses := 0 }) }
        eachIn (List.range s.var.pwmPairs) (fun s n =>
          if s.fget (pgPwm + n) F.PWM_STAT_HOLD = 0 then setOutputs (pairSet s n { pairGet s n with due := none }) n false false else s) s
      else if p = 3 then wdtWait (s.fincSat pgPmu F.PMU_SLEEP_CNT_PS3 1)
      else s

/-- SCHEDULED_EXIT (R563): at W the exit begins; its cause is the source of the next known event. -/
def execScheduledExit (s : State) : Host.Outcome State Fault Refusal :=
  nxt <| match s.power.wakeAt with
    | none => s
    | some w =>
      if asleep s ∧ ¬ s.power.exiting then
        let s := s.reach w
        beginExit s (2 ^ (s.fget pgPmu F.PMU_NEXT_SRC_SRC - 1))
      else s

/-- WAKE (R571): one or more of the sources of Table 17.5 other than the scheduled exits and PERST#, which has its own command
(DEDUCED, assumption 79). -/
def execWake (sources : BitVec 8) (s : State) : Host.Outcome State Fault Refusal :=
  nxt (pmuWake s (sources.toNat &&& 0x78))

/-- PS_EXIT_DONE (R564): every island that the state stopped is clocked again. At the exit from PS2 the trip inputs are sampled anew (R566)
at their next TRIP_INPUT_ACTIVE. -/
def execPsExitDone (s : State) : Host.Outcome State Fault Refusal :=
  nxt <|
    if ¬ s.power.exiting then s
    else
      let was := s.power.fromPs2
      let s := powerSet s { s.power with exiting := false, fromPs2 := false }
      let s := s.fset pgPmu F.PMU_STAT_STATE 0
      if was then pageIrq s pgPmu 1 else s

/-! ### PS4 -/

/-- PS4_REFUSED (R569). -/
def ps4Refused (s : State) (reason status : Nat) : State :=
  capture (powerSet s { s.power with resuming := false }) pgPmu 0x1100 0 (reason + status * 2 ^ 16)

/-- The resume object (Table 17.4). -/
def resumeObject (s : State) : List Byte :=
  leBytes 4 0x53504D50 ++ leBytes 8 s.now ++ leBytes 8 s.time.bpn.toNat ++ leBytes 4 (s.reg pgRst F.RST_KEEP_VALUE.off).toNat
    ++ leBytes 8 ((timerNext s).getD 0) ++ leBytes 32 0

/-- The resume commit has ended, with or without effect (R569, R570): when it has taken effect PWR_EN falls, and every island but the PMU is
held in reset, the PWM pads undriven. -/
def ps4End (s : State) : State :=
  match s.rtu.resumed with
  | none => s
  | some st =>
    let s := rtuSet s { s.rtu with resumed := none }
    let s := s.fset pgPmu F.PMU_PS4_STAT_STATUS st
    if st ≠ stOk then ps4Refused s 3 st
    else
      let s := coreReset (powerSet s { s.power with resuming := false })
      let s := clearPage (clearPage s pgTku) pgLoupe
      let s := { s with loupe := {}, tku := {}, power := { off := true, adjusted := s.power.adjusted },
                        boot := { powerOn := s.boot.powerOn } }
      eachIn (List.range s.var.pwmPairs) (fun s n => pairSet s n { pairGet s n with hiz := true }) s

/-- A write of PMU_PS4 (R569, R570), with the conversions of the hold-up check (DEDUCED, assumption 116). -/
def ps4Write (s : State) (part : Nat) (data : Word) (codes : List Nat) : State :=
  let obj := bitsOf data 0 8
  if part ≠ 0 ∨ bitsOf data 16 16 ≠ 0x0FF4 ∨ ¬ objIdOk obj ∨ s.power.resuming then s
  else if blocking s true true &&& 0x1D9 ≠ 0 then ps4Refused s 1 0
  else match s.rtu.store with
    | none => ps4Refused s 2 0
    | some st =>
      if storeState s ≠ stReady then ps4Refused s 2 0
      else
        let ops : List RetOp := [{ obj := obj, cls := 5, len := 64, bytes := some (resumeObject s) }]
        let c := commitCheck s st 0 ops
        if c ≠ stOk then ps4Refused (s.fset pgPmu F.PMU_PS4_STAT_STATUS c) 3 c
        else
          let s := commitStart (powerSet s { s.power with resuming := true }) st 0 none ops codes
          if s.rtu.work.isSome then s else ps4End s

/-- PMU_PS4. -/
def execPmuPs4 (part : Nat) (data : Word) (codes : List Nat) (s : State) : Host.Outcome State Fault Refusal :=
  nxt (pageWrite s part pgPmu fun s => ps4Write s part data codes)

/-- PS4_COMMIT_DONE: the resume commit has ended. -/
def execPs4CommitDone (s : State) : Host.Outcome State Fault Refusal :=
  nxt (if s.power.resuming then ps4End s else s)

/-! ### Timers and heat -/

/-- PMU_TIMER_FIRE (R572): the PTB reaches, or is past, the value of an armed timer. -/
def execPmuTimerFire (timer : Nat) (s : State) : Host.Outcome State Fault Refusal :=
  let lo := F.PMU_TMR_LO.off + 8 * timer
  let hi := F.PMU_TMR_HI.off + 8 * timer
  let v := s.reg64 pgPmu lo hi
  nxt <|
    if 4 ≤ timer ∨ v = 0 ∨ ¬ s.time.running ∨ s.power.off then s
    else
      let s := (s.reach v).setReg64 pgPmu lo hi 0
      pageIrq (s.fset pgPmu F.PMU_TMR_STAT_FIRED (natPutBit (s.fget pgPmu F.PMU_TMR_STAT_FIRED) timer true)) pgPmu 2

/-- THERMAL_SAMPLE (R573, R574): the readings of the four sensors in °C. At T_SHUT a chip reset begins, and the islands are held until the
reading has fallen by 20 °C. -/
def execThermalSample (t0 t1 t2 t3 : Int) (s : State) : Host.Outcome State Fault Refusal :=
  let t := max (max t0 t1) (max t2 t3)
  nxt <|
    if s.power.off then s
    else
      let s := s.fset pgPmu F.PMU_TEMP_DEGC (ofSigned 8 (max (-128) (min 127 t)))
      let shut : Int := s.fget pgPmu F.PMU_THERM_T_SHUT
      if shut ≤ t ∧ ¬ s.power.hot then
        let s := chipReset s 5
        powerSet s { s.power with hot := true }
      else if t ≤ shut - 20 then powerSet s { s.power with hot := false }
      else s

/-- SPEED changes (R573). -/
def speedTo (s : State) (v : Nat) : State :=
  if s.fget pgPmu F.PMU_SPEED_SPEED = v then s
  else pageIrq ((s.fset pgPmu F.PMU_SPEED_SPEED v).fincSat pgPmu F.PMU_THROTTLE_CNT_COUNT 1) pgPmu 4

/-- SPEED_ADJUST (R573): at the next multiple of 800 000 ticks. -/
def execSpeedAdjust (s : State) : Host.Outcome State Fault Refusal :=
  nxt <|
    if ¬ s.time.running ∨ s.power.off then s
    else
      let t := if s.now % 800000 = 0 ∧ s.power.adjusted ≠ some s.now then s.now else (s.now / 800000 + 1) * 800000
      let s := s.reach t
      let s := powerSet s { s.power with adjusted := some t }
      let temp := toSigned 8 (s.fget pgPmu F.PMU_TEMP_DEGC)
      let hot : Int := s.fget pgPmu F.PMU_THERM_T_THROTTLE
      let v := s.fget pgPmu F.PMU_SPEED_SPEED
      if hot ≤ temp then speedTo s (max 1 (v - 1))
      else if temp ≤ hot - s.fget pgPmu F.PMU_THERM_HYST then speedTo s (max v (min (v + 1) (s.fget pgPmu F.PMU_SPEED_CAP)))
      else s

/-- A write of PMU_SPEED that lowers SPEED_CAP below SPEED lowers SPEED at once (R573). -/
def speedCapWritten (s : State) : State :=
  if s.fget pgPmu F.PMU_SPEED_CAP < s.fget pgPmu F.PMU_SPEED_SPEED then speedTo s (s.fget pgPmu F.PMU_SPEED_CAP) else s

end Sys2Proof.Machine
end

