-- ==== Sys2Proof/Machine/Tku.lean ====
section
/-! DEFINITION. The Touch and Key Unit (chapter 18): strobes, keys, touch scans, Type-C CC detection, the dock contact and the event FIFO. -/

namespace Sys2Proof.Machine

def tkuSet (s : State) (x : TkuSt) : State := { s with tku := x }

/-- A configuration field in force (R606). -/
def tkuCfg (s : State) (f : Fld) : Nat := bitsOf (s.tku.cfg.get (resetWord s.fuses.variant pgTku f.off) (pgTku * 4096 + f.off)) f.lo f.wid
def tkuOn (s : State) (f : Fld) : Bool := tkuCfg s f != 0

/-- Offsets of configuration registers. -/
def tkuCfgOff (o : Nat) : Bool :=
  (0x058 ≤ o && o < 0x060) || (0x080 ≤ o && o < 0x120) || (0x1C0 ≤ o && o < 0x1C8) || o == 0x1D0

/-! ### Events -/

/-- Event kinds (Table 18.3). -/
abbrev evOn : Nat := 1
abbrev evOff : Nat := 2
abbrev evLong : Nat := 3
abbrev evRepeat : Nat := 4
abbrev evProx : Nat := 5
abbrev evAttach : Nat := 6
abbrev evDetach : Nat := 7
abbrev evCurrent : Nat := 8
abbrev evAcquired : Nat := 9
abbrev evRecal : Nat := 10
abbrev evWetOn : Nat := 11
abbrev evWetOff : Nat := 12

/-- Show the FIFO's length. -/
def fifoShow (s : State) : State := s.fset pgTku F.TKU_FIFO_HELD s.tku.fifo.length

/-- An event (R600, R603): stored, or dropped when 32 are held; it raises the wake that its source and kind enable. -/
def tkuEvent (s : State) (source kind data : Nat) : State :=
  let e := BitVec.ofNat 64 (source % 32 + kind % 16 * 2 ^ 5 + 2 ^ 15 + data % 2 ^ 16 * 2 ^ 16 + s.now / 256 % 2 ^ 32 * 2 ^ 32)
  let s :=
    if s.tku.fifo.length < 32 then pageIrq (fifoShow (tkuSet s { s.tku with fifo := s.tku.fifo ++ [e] })) pgTku 1
    else pageIrq (s.fincSat pgTku F.TKU_FIFO_DROPPED 1) pgTku 2
  if natBit (tkuCfg s F.TKU_WAKE_SRC_SRC) source && natBit (2 * tkuCfg s F.TKU_WAKE_KIND_KIND) kind then pmuWake s 8 else s

/-- An event whose DATA the spec leaves open (assumption 1). -/
def tkuEventFree (s : State) (source kind : Nat) : State :=
  let (d, s) := s.free
  tkuEvent s source kind d

/-! ### Keys and the dock -/

def keyGet (s : State) (k : Nat) : KeySt := s.tku.keys.get {} k
def keySet (s : State) (k : Nat) (x : KeySt) : State := tkuSet s { s.tku with keys := s.tku.keys.set {} k x }

/-- Show a key's debounced state; 8 is the dock. -/
def keyShow (s : State) (k : Nat) (on : Bool) : State :=
  if k = 8 then s.fset pgTku F.TKU_STATE_DOCK (b2n on)
  else s.fset pgTku F.TKU_STATE_KEYS (natPutBit (s.fget pgTku F.TKU_STATE_KEYS) k on)

/-- The settings of a key or of the dock, which has no LONG and no REPEAT (R599): ENABLE, POL, DEBOUNCE, LONG, RDELAY and RRATE. -/
def keyCfg (s : State) (k : Nat) : Bool × Bool × Nat × Nat × Nat × Nat :=
  if k = 8 then (tkuOn s F.TKU_DOCK_ENABLE, tkuOn s F.TKU_DOCK_POL, tkuCfg s F.TKU_DOCK_DEBOUNCE, 0, 0, 0)
  else
    let g := fun f => tkuCfg s (Fld.sh f (4 * k))
    (g F.TKU_KEY_ENABLE != 0, g F.TKU_KEY_POL != 0, g F.TKU_KEY_DEBOUNCE, g F.TKU_KEY_LONG, g F.TKU_KEY_RDELAY, g F.TKU_KEY_RRATE)

/-- A key at a strobe (R585 to R588, R605). -/
def keyStrobe (s : State) (k : Nat) (pin : Bool) : State :=
  let (en, pol, deb, lg, rd, rr) := keyCfg s k
  let src := if k = 8 then 22 else k
  let x := keyGet s k
  if ¬ en then (if x = {} then s else keyShow (keySet s k {}) k false)
  else
    let count := if (pin == pol) != x.pressed then x.count + 1 else 0
    let held := s.tku.strobes - x.since
    if deb + 1 ≤ count then
      if x.pressed then tkuEvent (keyShow (keySet s k {}) k false) src evOff (min (held / 10) 0xFFFF)
      else tkuEvent (keyShow (keySet s k { pressed := true, since := s.tku.strobes }) k true) src evOn 0
    else
      let s := keySet s k { x with count := count }
      if ¬ x.pressed then s
      else
        let s := if lg ≠ 0 ∧ ¬ x.long ∧ held = 50 * lg then
            tkuEvent (keySet s k { keyGet s k with long := true }) src evLong 0 else s
        if rd ≠ 0 ∧ rr ≠ 0 ∧ 10 * rd ≤ held ∧ (held - 10 * rd) % (10 * rr) = 0 then
          let n := min (x.repeats + 1) 0xFFFF
          tkuEvent (keySet s k { keyGet s k with repeats := n }) src evRepeat n
        else s

/-! ### Type-C CC pairs -/

/-- The class of a CC line (R595): 0 OPEN, 1 DEFAULT, 2 A1_5, 3 A3_0, from its voltage in mV. -/
def ccClass (mv : Nat) : Nat := if mv < 200 then 0 else if mv < 660 then 1 else if mv < 1230 then 2 else 3

def ccGet (s : State) (p : Nat) : CcSt := s.tku.cc.get {} p
def ccSet (s : State) (p : Nat) (x : CcSt) : State := tkuSet s { s.tku with cc := s.tku.cc.set {} p x }

/-- CURRENT of the counted lines: the class of the one line, or the lower of the two (R596). -/
def ccCurrent (lines c1 c2 : Nat) : Nat := if lines = 1 then c1 else if lines = 2 then c2 else min c1 c2

/-- ORIENT and CURRENT as an event carries them. -/
def ccData (orient cur : Nat) : Nat := orient + 4 * cur

/-- Show a pair's attach state. -/
def ccShow (s : State) (p : Nat) (att orient cur : Nat) : State :=
  ((s.fset pgTku (F.TKU_TC_STAT_ATTACHED.sh (4 * p)) att).fset pgTku (F.TKU_TC_STAT_ORIENT.sh (4 * p)) orient).fset pgTku
    (F.TKU_TC_STAT_CURRENT.sh (4 * p)) cur

/-- A CC pair at a strobe (R595 to R598) (DEDUCED, assumption 119). -/
def ccStrobe (s : State) (p mv1 mv2 : Nat) : State :=
  if ¬ tkuOn s (F.TKU_TC_CFG_ENABLE.sh (4 * p)) then s
  else
    let s := (s.fset pgTku (F.TKU_TC_STAT_CC1.sh (4 * p)) (min (mv1 / 10) 255)).fset pgTku (F.TKU_TC_STAT_CC2.sh (4 * p)) (min (mv2 / 10) 255)
    let c1 := ccClass mv1
    let c2 := ccClass mv2
    let lines := b2n (c1 != 0) + 2 * b2n (c2 != 0)
    let x := ccGet s p
    if ¬ s.fbit pgTku (F.TKU_TC_STAT_ATTACHED.sh (4 * p)) then
      let n := if lines = 0 then 0 else if lines = x.lines then x.count + 1 else 1
      if 150 ≤ n then
        let cur := ccCurrent lines c1 c2
        tkuEvent (ccShow (ccSet s p {}) p 1 lines cur) (20 + p) evAttach (ccData lines cur)
      else ccSet s p { lines := lines, count := n }
    else
      let orient := s.fget pgTku (F.TKU_TC_STAT_ORIENT.sh (4 * p))
      let opens := if lines &&& orient = 0 then x.opens + 1 else 0
      if 15 ≤ opens then tkuEventFree (ccShow (ccSet s p {}) p 0 0 0) (20 + p) evDetach
      else
        let now := ccCurrent orient c1 c2
        let was := s.fget pgTku (F.TKU_TC_STAT_CURRENT.sh (4 * p))
        let n := if now = 0 ∨ now = was then 0 else if now = x.cur then x.curCount + 1 else 1
        if 15 ≤ n then tkuEvent (ccShow (ccSet s p { opens := opens }) p 1 orient now) (20 + p) evCurrent (ccData orient now)
        else ccSet s p { opens := opens, cur := if n = 0 then 0 else now, curCount := n }

/-! ### Strobes -/

def touchGet (s : State) (c : Nat) : TouchSt := s.tku.touch.get {} c
def touchSet (s : State) (c : Nat) (x : TouchSt) : State := tkuSet s { s.tku with touch := s.tku.touch.set {} c x }

/-- Fields of a touch channel. -/
def tchF (f : Fld) (c : Nat) : Fld := f.sh (8 * c)

/-- A channel's state: 0 NONE, 1 PROX, 2 TOUCH. -/
def tchKind (s : State) (c : Nat) : Nat := s.fget pgTku (tchF F.TKU_TCH_STAT_KIND c)

/-- Give a channel a state, and show it. -/
def tchMove (s : State) (c v : Nat) : State :=
  let s := s.fset pgTku (tchF F.TKU_TCH_STAT_KIND c) v
  let s := s.fset pgTku F.TKU_STATE_TOUCH (natPutBit (s.fget pgTku F.TKU_STATE_TOUCH) c (v == 2))
  s.fset pgTku F.TKU_PROX_PROX (natPutBit (s.fget pgTku F.TKU_PROX_PROX) c (v == 1))

/-- A channel begins to acquire its baseline from a strobe on (R590). -/
def tchAcquire (s : State) (c at_ : Nat) : State :=
  touchSet ((tchMove s c 0).fset pgTku (tchF F.TKU_TCH_STAT_ACQUIRED c) 0) c { acquire := some at_ }

/-- Two configurations differ in a field. -/
def cfgMoved (s : State) (old : Tab Word) (f : Fld) : Bool := tkuCfg s f != tkuCfg (tkuSet s { s.tku with cfg := old }) f

/-- The configuration is taken at a strobe (R606): counts restart where their settings changed, and a channel just enabled acquires. -/
def tkuTake (s : State) : State :=
  let old := s.tku.cfg
  let s := tkuSet s { s.tku with cfg := s.regs.filter fun k => decide (k.1 / 4096 = pgTku) && tkuCfgOff (k.1 % 4096) }
  let s := eachIn (List.range 9) (fun s k =>
    let f := if k = 8 then F.TKU_DOCK_DEBOUNCE else F.TKU_KEY_DEBOUNCE.sh (4 * k)
    if cfgMoved s old f then keySet s k { keyGet s k with count := 0 } else s) s
  let all := cfgMoved s old F.TKU_TOUCH_CTRL_DEB
  let s := if all ∨ cfgMoved s old F.TKU_TOUCH_WATER_WATER_TH then tkuSet s { s.tku with wet := 0 } else s
  eachIn (List.range 12) (fun s c =>
    let moved := [F.TKU_TCH_TH_TOUCH_TH, F.TKU_TCH_TH_PROX_TH, F.TKU_TCH_CFG_HYST, F.TKU_TCH_CFG_NEG_TH].any fun f => cfgMoved s old (tchF f c)
    let s := if all ∨ moved then touchSet s c { touchGet s c with target := 0, count := 0, neg := 0, ends := 0 } else s
    if ¬ cfgMoved s old (tchF F.TKU_TCH_CFG_ENABLE c) then s
    else if tkuOn s (tchF F.TKU_TCH_CFG_ENABLE c) then tchAcquire s c s.tku.strobes
    else
      let s := (tchMove s c 0).fset pgTku (tchF F.TKU_TCH_STAT_ACQUIRED c) 0
      touchSet (s.fset pgTku (tchF F.TKU_TCH_STAT_FAULTED c) 0) c {}) s

/-- TKU_STROBE (R584): at the next multiple of 800 000 ticks the keys, the CC lines and the dock are sampled, in ascending SOURCE, and a touch
scan starts where one is due (R589). CC voltages are in mV (DEDUCED, assumption 117). -/
def execTkuStrobe (keys : BitVec 8) (dock : Bool) (cc0 cc1 cc2 cc3 : Nat) (s : State) : Host.Outcome State Fault Refusal :=
  nxt <|
    if ¬ s.time.running ∨ s.power.off then s
    else
      let t := if s.now % 800000 = 0 ∧ s.tku.lastStrobe ≠ some s.now then s.now else (s.now / 800000 + 1) * 800000
      let s := s.reach t
      let s := tkuSet s { s.tku with strobes := s.tku.strobes + 1, lastStrobe := some t }
      let s := tkuTake s
      let s := eachIn (List.range 8) (fun s k => keyStrobe s k (keys.getLsbD k)) s
      let s := ccStrobe (ccStrobe s 0 cc0 cc1) 1 cc2 cc3
      let s := keyStrobe s 8 dock
      if t / 800000 % max 1 (tkuCfg s F.TKU_TOUCH_CTRL_SCAN_MS) = 0 then tkuSet s { s.tku with scan := some s.tku.strobes } else s

/-! ### Touch scans -/

/-- The guard channel (R592): none unless it is built and enabled. -/
def tkuGuard (s : State) : Option Nat :=
  let c := tkuCfg s F.TKU_TOUCH_WATER_GUARD
  if tkuOn s F.TKU_TOUCH_WATER_GUARD_EN ∧ c < 12 ∧ tkuOn s (tchF F.TKU_TCH_CFG_ENABLE c) then some c else none

def tchRaw (s : State) (c : Nat) : Nat := s.fget pgTku (tchF F.TKU_TCH_VAL_RAW c)
def tchBase (s : State) (c : Nat) : Nat := s.fget pgTku (tchF F.TKU_TCH_VAL_BASELINE c)
def tchDelta (s : State) (c : Nat) : Int := toSigned 16 (s.fget pgTku (tchF F.TKU_TCH_STAT_DELTA c))
def tkuWet (s : State) : Bool := s.fbit pgTku F.TKU_STATE_WET

/-- RAW − BASELINE, saturated to 16 bits (R589). -/
def tchMeasure (s : State) (c : Nat) : State :=
  let d : Int := (tchRaw s c : Int) - tchBase s c
  s.fset pgTku (tchF F.TKU_TCH_STAT_DELTA c) (ofSigned 16 (max (-32768) (min 32767 d)))

/-- BASELINE ← RAW. -/
def tchSnap (s : State) (c : Nat) : State := tchMeasure (s.fset pgTku (tchF F.TKU_TCH_VAL_BASELINE c) (tchRaw s c)) c

/-- The channel has acquired and is not faulted. -/
def tchLive (s : State) (c : Nat) : Bool :=
  tkuOn s (tchF F.TKU_TCH_CFG_ENABLE c) && s.fbit pgTku (tchF F.TKU_TCH_STAT_ACQUIRED c) && !s.fbit pgTku (tchF F.TKU_TCH_STAT_FAULTED c)

/-- The target of a scan (R591, R592). -/
def tchTarget (s : State) (c : Nat) : Nat :=
  let d := tchDelta s c
  let k := tchKind s c
  let th : Int := tkuCfg s (tchF F.TKU_TCH_TH_TOUCH_TH c)
  let px : Int := tkuCfg s (tchF F.TKU_TCH_TH_PROX_TH c)
  let hy : Int := tkuCfg s (tchF F.TKU_TCH_CFG_HYST c)
  let t := if th ≤ d ∨ (k = 2 ∧ th - hy ≤ d) then 2 else if px ≠ 0 ∧ (px ≤ d ∨ (k = 1 ∧ px - hy ≤ d)) then 1 else 0
  if tkuWet s ∧ tkuOn s (tchF F.TKU_TCH_CFG_WATER_REJ c) then min t k else t

/-- Baseline tracking (R591). -/
def tchTrack (s : State) (c : Nat) : State :=
  if tkuWet s then s
  else
    let b : Int := tchBase s c
    let d : Int := ((tchRaw s c : Int) - b) / (2 ^ tkuCfg s F.TKU_TOUCH_CTRL_TRACK_SHIFT : Nat)
    s.fset pgTku (tchF F.TKU_TCH_VAL_BASELINE c) (b + d).toNat

/-- A recalibration (R593). -/
def tchRecal (s : State) (c : Nat) : State :=
  let s := tchMove (tchSnap s c) c 0
  tkuEvent (touchSet s c {}) (8 + c) evRecal (tchRaw s c)

/-- A channel in a scan once RAW and WET are known (R590 to R594, R607) (DEDUCED, assumption 118). -/
def tchScan (s : State) (start c : Nat) : State :=
  let x := touchGet s c
  let deb := tkuCfg s F.TKU_TOUCH_CTRL_DEB
  let raw := tchRaw s c
  let ends := if raw = 0 ∨ raw = 0xFFFF then x.ends + 1 else 0
  let faulted := s.fbit pgTku (tchF F.TKU_TCH_STAT_FAULTED c)
  if faulted ∧ ends ≠ 0 then s
  else if faulted then tchSnap (tchAcquire (s.fset pgTku (tchF F.TKU_TCH_STAT_FAULTED c) 0) c start) c
  else if deb ≤ ends then
    let s := capture (tchMove s c 0) pgTku 0x1200 0 c
    touchSet (s.fset pgTku (tchF F.TKU_TCH_STAT_FAULTED c) 1) c {}
  else
    let s := touchSet s c { x with ends := ends }
    match x.acquire with
    | some a =>
      if start < a + 200 then tchSnap s c
      else
        let s := touchSet (s.fset pgTku (tchF F.TKU_TCH_STAT_ACQUIRED c) 1) c { ends := ends }
        tkuEvent s (8 + c) evAcquired (tchBase s c)
    | none =>
      if ¬ tchLive s c then s
      else
        let negTh : Int := tkuCfg s (tchF F.TKU_TCH_CFG_NEG_TH c)
        let neg := if tchDelta s c ≤ -negTh then x.neg + 1 else 0
        let maxOn := tkuCfg s F.TKU_TOUCH_CTRL_MAX_ON
        if deb ≤ neg ∨ (maxOn ≠ 0 ∧ tchKind s c ≠ 0 ∧ x.since + 1000 * maxOn ≤ start) then tchRecal s c
        else if tkuGuard s = some c then tchTrack (touchSet s c { touchGet s c with neg := neg }) c
        else
          let k := tchKind s c
          let t := tchTarget s c
          let n := if t = k then 0 else if x.count ≠ 0 ∧ t = x.target then x.count + 1 else 1
          let y := { touchGet s c with neg := neg }
          let s :=
            if n ≠ 0 ∧ deb ≤ n then
              let s := touchSet (tchMove s c t) c { y with target := 0, count := 0, since := if k = 0 then start else x.since }
              tkuEvent s (8 + c) (if t = 2 then evOn else if t = 1 then evProx else evOff) (ofSigned 16 (tchDelta s c))
            else touchSet s c { y with target := t, count := n }
          if tchKind s c = 0 then tchTrack s c else s

/-- The guard decides WET (R592). -/
def wetScan (s : State) : State :=
  match tkuGuard s with
  | none => tkuSet s { s.tku with wet := 0 }
  | some g =>
    let s := if tchKind s g ≠ 0 then tchMove s g 0 else s
    if ¬ tchLive s g then tkuSet s { s.tku with wet := 0 }
    else
      let d := tchDelta s g
      let th : Int := tkuCfg s F.TKU_TOUCH_WATER_WATER_TH
      let change := if tkuWet s then decide (d < th - tkuCfg s (tchF F.TKU_TCH_CFG_HYST g)) else decide (th ≤ d)
      let n := if change then s.tku.wet + 1 else 0
      if change ∧ tkuCfg s F.TKU_TOUCH_CTRL_DEB ≤ n then
        let on := !tkuWet s
        let s := tkuSet (s.fset pgTku F.TKU_STATE_WET (b2n on)) { s.tku with wet := 0 }
        tkuEventFree s 23 (if on then evWetOn else evWetOff)
      else tkuSet s { s.tku with wet := n }

/-- TOUCH_SCAN_END (R589 to R594): the RAW of each channel, and the tick at which the scan ends. -/
def execTouchScanEnd (raws : List Nat) (tick : Nat) (s : State) : Host.Outcome State Fault Refusal :=
  nxt <| match s.tku.scan with
    | none => s
    | some start =>
      let s := s.reach tick
      let s := tkuSet s { s.tku with scan := none }
      let on := (List.range 12).filter fun c => tkuOn s (tchF F.TKU_TCH_CFG_ENABLE c)
      let s := eachIn on (fun s c => tchMeasure (s.fset pgTku (tchF F.TKU_TCH_VAL_RAW c) (raws.getD c 0)) c) s
      eachIn on (fun s c => tchScan s start c) (wetScan s)

/-! ### The host side of the TKU -/

/-- A read of TKU_EVT_LO (R601): the word, with its high half captured for the reader; P0 removes the entry. -/
def tkuEvtRead (s : State) (part : Nat) : Word × State :=
  let e := s.tku.fifo.headD 0
  let s := tkuSet s { s.tku with evtHi := s.tku.evtHi.set 0 part (BitVec.ofNat 32 (e.toNat / 2 ^ 32)) }
  let s := if part = 0 then fifoShow (tkuSet s { s.tku with fifo := s.tku.fifo.drop 1 }) else s
  (BitVec.ofNat 32 e.toNat, s)

/-- TKU_EVT_READ. -/
def execTkuEvtRead (part : Nat) (s : State) : Host.Outcome State Fault Refusal :=
  nxt (pageRead s part pgTku fun s => tkuEvtRead s part)

/-- A write of TKU_CLR (R600, R608, R590). -/
def tkuClr (s : State) (data : Word) : State :=
  let s := if data.getLsbD 0 then fifoShow (tkuSet s { s.tku with fifo := [] }) else s
  let s := if data.getLsbD 1 then s.fset pgTku F.TKU_FIFO_DROPPED 0 else s
  if data.getLsbD 2 then
    eachIn ((List.range 12).filter fun c => tkuOn s (tchF F.TKU_TCH_CFG_ENABLE c)) (fun s c => tchAcquire s c s.tku.strobes) s
  else s

/-- TKU_FLUSH. -/
def execTkuFlush (part : Nat) (s : State) : Host.Outcome State Fault Refusal :=
  nxt (pageWrite s part pgTku fun s => tkuClr s 1)

/-- TKU_CLR_DROPPED. -/
def execTkuClrDropped (part : Nat) (s : State) : Host.Outcome State Fault Refusal :=
  nxt (pageWrite s part pgTku fun s => tkuClr s 2)

/-- REACQUIRE. -/
def execReacquire (part : Nat) (s : State) : Host.Outcome State Fault Refusal :=
  nxt (pageWrite s part pgTku fun s => tkuClr s 4)

/-- A configuration write has been stored: ENABLE = 0 of a key, the dock or a CC pair acts at once (R588, R598, R599). -/
def tkuWritten (s : State) (off : Nat) : State :=
  if 0x080 ≤ off ∧ off < 0x0A0 then
    let k := (off - 0x080) / 4
    if s.fbit pgTku (F.TKU_KEY_ENABLE.sh (4 * k)) then s else keyShow (keySet s k {}) k false
  else if off = 0x1D0 then (if s.fbit pgTku F.TKU_DOCK_ENABLE then s else keyShow (keySet s 8 {}) 8 false)
  else if off = 0x1C0 ∨ off = 0x1C4 then
    let p := (off - 0x1C0) / 4
    if s.fbit pgTku (F.TKU_TC_CFG_ENABLE.sh (4 * p)) then s else ccShow (ccSet s p {}) p 0 0 0
  else s

end Sys2Proof.Machine
end

