-- ==== Sys2Proof/Machine/Units.lean ====
section
/-! DEFINITION. Units that leave service and return (R144, R155 to R157, R168, Table 5.7), PG_CTRL, and page soft resets (R83, R84). -/

namespace Sys2Proof.Machine

/-! ### Leaving -/

/-- Any unit leaves service with FAULT = 1, with the effects of Table 5.7 where it has a row there (R84, R144, R154). A unit that is out
already keeps its place. Whether the transmitter of a port that fails still works is open (assumption 1) (DEDUCED, assumption 38)
(DEDUCED, assumption 39) (DEDUCED, assumption 40). -/
def unitGone (s : State) (p : Nat) : State :=
  let out := pageOut s p
  match classOf s.var p with
  | none => s
  | some .ft => tileGone s (p - pgFt)
  | some .lens => eachIn (List.range 4) (fun s k => coreGone s p k) (s.fset p F.PG_STAT_FAULT 1)
  | some .ch =>
    let s := markOut s p true
    if out then s else chanLeave s (p - pgCh)
  | some .pwm => refreshHolds (markOut s p true)
  | some .clnk =>
    let s := markOut s p true
    if out then s
    else
      let (works, s) := s.freeBit
      linkLeave s (p - pgClnk) works
  | some .memc => if out then s.fset p F.PG_STAT_FAULT 1 else memLeave s ((p - pgMemc) / 2) true
  | some .loopg => islandGone s 68
  | some .clnkg => islandGone s 69
  | some _ =>
    let s := s.modPage p fun x => { x with resetSince := none }
    ((s.fset p F.PG_STAT_OUT_OF_SERVICE 1).fset p F.PG_STAT_FAULT 1).fset p F.PG_STAT_RESET_BUSY 0

/-- UNIT_FAILED (R144, R168): captured on the unit's page with the block's detail. -/
def execUnitFailed (page : Nat) (detail : Word) (s : State) : Host.Outcome State Fault Refusal :=
  nxt <| match classOf s.var page with
    | none => s
    | some .mirror => s
    | some .qp => s
    | some _ => unitGone (capture s page 0x0501 0 detail.toNat) page

/-- Software takes a unit of Table 5.7 out of service (R155); a unit already out stays as it is (R168). -/
def unitLeave (s : State) (p : Nat) : State :=
  let c := classOf s.var p
  if c = some .lens then lensCtrl s p 0
  else if pageOut s p then s
  else match c with
    | some .ft => tileLeave s (p - pgFt)
    | some .ch => chanLeave (markOut s p false) (p - pgCh)
    | some .pwm => refreshHolds (markOut s p false)
    | some .clnk => linkLeave (markOut s p false) (p - pgClnk) true
    | some .memc => memLeave s ((p - pgMemc) / 2) false
    | _ => s

/-! ### Returning -/

/-- A return is refused (R156): 1 a precondition does not hold, 2 the self-test failed. -/
def returnRefused (s : State) (p why : Nat) : State :=
  capture ((s.modPage p fun x => { x with testing := false }).fset p F.PG_CTRL_IN_SERVICE 0) p 0x0504 0 why

/-- The return precondition of Table 5.7; an LPDDR5X channel returns only at a chip reset (R530) (DEDUCED, assumption 27). -/
def mayReturn (s : State) (p : Nat) : Bool :=
  match classOf s.var p with
  | some .ft | some .clnk => true
  | some .ch => !s.fbit p F.PG_CTRL_ENABLE
  | some .pwm => !holdInput s (p - pgPwm)
  | _ => false

/-- A write of IN_SERVICE = 1 (R155): a unit that is out, and in no self-test, starts one (DEDUCED, assumption 34). -/
def unitReturn (s : State) (p : Nat) : State :=
  if classOf s.var p = some .lens then lensCtrl s p 0xF
  else if ¬ pageOut s p ∨ (s.page p).testing ∨ (s.page p).joining then s
  else if mayReturn s p then (s.modPage p fun x => { x with testing := true }).fset p F.PG_CTRL_IN_SERVICE 1
  else returnRefused s p 1

/-- SELF_TEST_DONE (R156, Table 5.7): a tile, a channel and a pair wait for their boundary, and a port starts from DOWN at once
(DESIGN CHOICE, assumption 35). -/
def execSelfTestDone (page : Nat) (pass : Bool) (s : State) : Host.Outcome State Fault Refusal :=
  nxt <|
    if ¬ (s.page page).testing then s
    else if classOf s.var page = some .lens then lensTested s page pass
    else if ¬ pass then returnRefused s page 2
    else if classOf s.var page = some .clnk then linkReturn (markIn s page) (page - pgClnk)
    else s.modPage page fun x => { x with testing := false, joining := true }

/-! ### PG_CTRL -/

/-- ENABLE of a loop channel (R300, R304). While the channel samples, its latch takes ENABLE = 0 (DEDUCED, assumption 60). -/
def chanEnable (s : State) (c : Nat) (on : Bool) : State :=
  let p := pgCh + c
  let was := s.fbit p F.PG_CTRL_ENABLE
  let st := s.fget p F.CH_STAT_STATE
  let s := s.fset p F.PG_CTRL_ENABLE (b2n on)
  if on = was then s
  else if on then
    let s := chanSet s c { chanGet s c with startDue := true }
    if pageOut s p then s else s.fset p F.CH_STAT_STATE chIdle
  else if st = chRunning ∨ st = chHeld then s
  else pageIrq (s.fset p F.CH_STAT_STATE chDisabled) p 4

/-- ENABLE of a page that takes it (R82). -/
def pageEnable (s : State) (p : Nat) (on : Bool) : State :=
  match classOf s.var p with
  | some .ch => chanEnable s (p - pgCh) on
  | some .pwm => pwmEnable s (p - pgPwm) on
  | some .clnk => linkEnable s (p - pgClnk) on
  | _ => s.fset p F.PG_CTRL_ENABLE (b2n on)

/-- A soft reset of the page is not ignored now ("Register page" of each chapter). -/
def softResetAllowed (s : State) (p : Nat) : Bool :=
  match classOf s.var p with
  | none => false
  | some .mirror | some .qp | some .loupe => false
  | some .qeg => (List.range 2048).all fun q => decide (q < s.var.partitions) || decide ((qpGet s q).state = .free)
  | some .ft => !(s.fget p F.FT_ROLE_ROLE == roleActive && s.time.plan.isSome)
  | some .loopg => s.loop.test.isNone
  | some .ch => s.fget p F.CH_STAT_STATE == chDisabled
  | some .pwm => s.fget p F.PWM_STAT_STATE == pwmIdle
  | some .serve => slotsEmpty s
  | some .lens => (List.range 4).all fun k => coreGet s (p - pgLens) k == coreOut
  | some .rtu => !s.fbit p F.RTU_STORE_BUSY
  | some _ => true

/-- A write of PG_CTRL with SOFT_RESET = 1 (R83) (DEDUCED, assumption 36). -/
def softResetStart (s : State) (p : Nat) : State :=
  if softResetAllowed s p then (s.fset p F.PG_STAT_RESET_BUSY 1).modPage p fun x => { x with resetSince := some s.now } else s

/-- A write of PG_CTRL (R82, R83, R155): with SOFT_RESET = 1 its other bits are ignored; else the bits the page can change act. -/
def ctrlWrite (s : State) (p : Nat) (data : Word) : State :=
  match classOf s.var p with
  | none => s
  | some c =>
    let can := ctrlWritable c
    if data.getLsbD 3 then softResetStart s p
    else
      let s := if natBit can 0 then pageEnable s p (data.getLsbD 0) else s
      let s := if natBit can 1 then s.fset p F.PG_CTRL_QUIESCE (bitsOf data 1 1) else s
      if natBit can 2 then (if data.getLsbD 2 then unitReturn s p else unitLeave s p) else s

/-! ### Soft resets -/

/-- Registers of a page, from an offset up to another, return to their reset values. -/
def regsClear (s : State) (p lo hi : Nat) : State :=
  { s with regs := s.regs.filter fun k => decide (k.1 < p * 4096 + lo) || decide (p * 4096 + hi ≤ k.1) }

/-- PTB_SYNC_CTRL and PTB_SYNC_STAT take their reset values, and the captured high halves clear ("PTB page"). -/
def ptbSoftReset (s : State) : State :=
  let s := if s.fbit pgPtb F.PG_LOCK_LOCK then s
           else timeSet (regsClear s pgPtb 0x060 0x064) { s.time with syncCheck := false, syncEpoch := none }
  timeSet (regsClear s pgPtb 0x064 0x068) { s.time with capNow := [], capBpn := [] }

/-- The registers of SERVE return to their reset values while every slot is EMPTY; the pool is then unset. -/
def serveSoftReset (s : State) : State :=
  { (regsClear s pgServe 0x040 0x1000) with serve := { s.serve with slots := [], pages := [], pageChain := {} } }

/-- What a soft reset changes when it completes (R83 and "Register page" of each chapter) (DEDUCED, assumption 41). -/
def softResetEffect (s : State) (p : Nat) : State :=
  let locked := s.fbit p F.PG_LOCK_LOCK
  match classOf s.var p with
  | none => s
  | some .mirror | some .qp | some .loupe => s
  | some .chip => errClear (s.setReg p F.PG_SCRATCH.off 0) p
  | some .ptb => ptbSoftReset s
  | some .rst | some .clnkg | some .fmap | some .memcal => errClear s p
  | some .pmu => errClear ((s.setReg p F.PMU_SLEEP_CNT_PS2.off 0).setReg p F.PMU_THROTTLE_CNT_COUNT.off 0) p
  | some .rtu => errClear (s.setReg p F.RTU_COUNT_DONE.off 0) p
  | some .tku => errClear (tkuClr s 3) p
  | some .memc => errClear (memcClear (if p = pgMemc then sramClear s 2 else s) p) p
  | some .part => ((regsClear s p 0x100 0x200).setReg p F.PART_FOREIGN_COUNT.off 0).setReg p F.PART_LOG_STAT_NEXT.off 0
  | some .loopg => { (regsClear s p 0x044 0x1000) with loop := { s.loop with table := [], tablePoison := [] } }
  | some .ch => regsClear (regsClear s p 0x040 0x0A0) p 0x0B0 0x1000
  | some .pwm =>
    let s := if locked then s else regsClear s p 0x040 0x044
    regsClear (regsClear s p 0x048 0x054) p 0x060 0x064
  | some .trip => errClear (regsClear s p 0x0A0 0x0C0) p
  | some .clnk => linkSoftReset s (p - pgClnk)
  | some .ft => tileSet (regsClear s p 0x044 0x1000) (p - pgFt) {}
  | some .solv => errClear ((s.setReg p F.SOLV_SPEC_CNT_KEPT.off 0).setReg p F.SOLV_FB_CNT_FALLBACK.off 0) p
  | some .serve => serveSoftReset s
  | some .lens => s.setReg p F.LENS_RERUN_COUNT.off 0
  | some .rqt => s.setReg p F.RQT_EXPIRED_COUNT.off 0
  | some .mask => errClear (s.setReg p F.MASK_DEAD.off 0) p
  | some .prefixIx => regsClear s p 0x054 0x064
  | some .sampler => errClear (s.setReg p F.SMP_LATE.off 0) p
  | some .draft => errClear ((s.setReg p F.DRAFT_PROPOSED.off 0).setReg p F.DRAFT_ACCEPTED.off 0) p
  | some .qeg => if locked then s else regsClear s p 0x080 0x100

/-- SOFT_RESET_DONE (R83): the soft reset has its effect and RESET_BUSY falls. -/
def execSoftResetDone (page : Nat) (s : State) : Host.Outcome State Fault Refusal :=
  nxt <|
    if s.fbit page F.PG_STAT_RESET_BUSY then
      let s := softResetEffect s page
      (s.fset page F.PG_STAT_RESET_BUSY 0).modPage page fun x => { x with resetSince := none }
    else s

/-- RESET_TIMEOUT (R84): 80 000 ticks after its start the soft reset is abandoned and the unit leaves service (DEDUCED, assumption 37). -/
def execResetTimeout (page : Nat) (s : State) : Host.Outcome State Fault Refusal :=
  nxt <| match (s.page page).resetSince with
    | none => s
    | some t =>
      if ¬ s.fbit page F.PG_STAT_RESET_BUSY then s
      else
        let s := unitGone (capture (s.reach (t + 80000)) pgRst 0x0300 0 page) page
        (s.fset page F.PG_STAT_RESET_BUSY 0).modPage page fun x => { x with resetSince := none, abandoned := true }

end Sys2Proof.Machine
end

