-- ==== Sys2Proof/Machine/Partition.lean ====
section
/-! DEFINITION. Partitions (chapter 5): shares, grants and revokes (R139 to R143, R170), and partition resets (R130, R150 to R154, R169). -/

namespace Sys2Proof.Machine

/-! ### Partition admin commands -/

/-- Fields of a partition admin command (Table 5.3). -/
def paTarget (x : Job) : Nat := payBits x 32 4
def paKind (x : Job) : Nat := payBits x 36 4
def paSlot (x : Job) : Nat := payBits x 40 3

/-- R140 up to BAD_ENTRY, for PART_SET_SHARE, PART_GRANT and PART_REVOKE: the first outcome that applies (DEDUCED, assumption 43). -/
def paCheck (s : State) (x : Job) : Option Nat :=
  let share := x.opcode = 0x11
  let (b, l) := regionOf x
  let absent := s.var.partitions ≤ paTarget x ∨ (¬ s.var.serve ∧ (share ∨ paKind x = 2))
    ∨ (¬ share ∧ paKind x = 1 ∧ s.var.clnkPorts ≤ paSlot x)
  let bad :=
    if share then 0x100000 < payBits x 64 21 ∨ 1024 < payBits x 96 11 ∨ payBits x 112 8 = 0
    else 3 ≤ paKind x ∨ (paKind x = 0 ∧ (b % 2 ^ 21 ≠ 0 ∨ l = 0 ∨ memSize s < b + l))
  if x.part ≠ 0 then some stNotOwner else if absent then some stUnitAbsent else if bad then some stBadEntry else none

/-- PART_SET_SHARE (R143). -/
def execPartSetShare (job : Nat) (s : State) : Host.Outcome State Fault Refusal :=
  nxt <| match startedJob s job 0x11 with
    | none => s
    | some x => match paCheck s x with
      | some c => jobDone s job c 0
      | none =>
        let p := pgPart + paTarget x
        let s := s.fset p F.PART_SHARE0_KV_PAGES (payBits x 64 21)
        let s := (s.fset p F.PART_SHARE1_RQT_MAX (payBits x 96 11)).fset p F.PART_SHARE1_WEIGHT (payBits x 112 8)
        jobDone s job stOk 0

/-- Partition n holds a mailbox channel or not. -/
def mbxHold (s : State) (n p c : Nat) (on : Bool) : State :=
  let b := 8 * p + c
  let f := if b < 32 then F.PART_MBX_LO_CH else F.PART_MBX_HI_CH
  s.fset (pgPart + n) f (natPutBit (s.fget (pgPart + n) f) (b % 32) on)

/-- The partition other than P0 that holds a mailbox channel. -/
def mbxHolder (s : State) (p c : Nat) : Option Nat := (List.range' 1 (s.var.partitions - 1)).find? fun n => holdsChannel s n p c

/-- Write a PART_MEM entry; a size of 0 leaves it unused. -/
def partMemSet (s : State) (n i b l : Nat) : State :=
  let o := 0x200 + 16 * i
  (s.setReg64 (pgPart + n) o (o + 4) b).setReg (pgPart + n) (o + 8) (BitVec.ofNat 32 (l / 2 ^ 21))

/-- The PART_MEM entry of a partition with a region; an unused one has size 0. -/
def partMemFind (s : State) (n : Nat) (r : Nat × Nat) : Option Nat :=
  (List.range 16).find? fun i =>
    let o := 0x200 + 16 * i
    let u := bitsOf (s.reg (pgPart + n) (o + 8)) 0 14
    if r.2 = 0 then u = 0 else u * 2 ^ 21 = r.2 ∧ s.reg64 (pgPart + n) o (o + 4) = r.1

/-- A region overlaps the Plan region or one granted to a partition other than `n` (R140). -/
def regionConflict (s : State) (n b l : Nat) : Bool :=
  overlaps b l (s.reg64 pgMemc F.MEMC_PLAN_BASE_LO.off F.MEMC_PLAN_BASE_HI.off) (s.fget pgMemc F.MEMC_PLAN_SIZE_UNITS * 2 ^ 21)
    || (List.range' 1 (s.var.partitions - 1)).any fun m => m != n && (partMem s m).any fun r => overlaps b l r.1 r.2

/-- PART_GRANT (R140, R141) (DEDUCED, assumption 42). -/
def execPartGrant (job : Nat) (s : State) : Host.Outcome State Fault Refusal :=
  nxt <| match startedJob s job 0x12 with
    | none => s
    | some x => match paCheck s x with
      | some c => jobDone s job c 0
      | none =>
        let n := paTarget x
        if paKind x = 0 then
          let (b, l) := regionOf x
          if regionConflict s n b l then jobDone s job stGrantConflict 0
          else if n = 0 ∨ (partMemFind s n (b, l)).isSome then jobDone s job stOk 0
          else match partMemFind s n (0, 0) with
            | none => jobDone s job stGrantLimit 0
            | some i => jobDone (partMemSet s n i b l) job stOk 0
        else if paKind x = 1 then
          let (p, c) := mjChanOf x
          match mbxHolder s p c with
          | some m => jobDone s job (if m = n then stOk else stGrantConflict) 0
          | none => jobDone (mbxHold (mbxHold s 0 p c false) n p c true) job stOk 0
        else
          let f := F.PART_SLOTS_SLOTS
          jobDone (if n = 0 then s else s.fset (pgPart + n) f (natPutBit (s.fget (pgPart + n) f) (paSlot x) true)) job stOk 0

/-- The target holds what a revoke names (R140). -/
def revokeHeld (s : State) (x : Job) : Bool :=
  let n := paTarget x
  if paKind x = 0 then n != 0 && (partMemFind s n (regionOf x)).isSome
  else if paKind x = 1 then holdsChannel s n (mjChanOf x).1 (mjChanOf x).2
  else natBit (s.fget (pgPart + n) F.PART_SLOTS_SLOTS) (paSlot x)

/-- The job has a place in the RQT: the requests that name it. -/
def rqtHolds (s : State) (j : Nat) : Bool :=
  s.serve.reqs.any fun r => r.2.job = some j || r.2.pauseJob = some j || r.2.cancelJobs.contains j

/-- A started job admitted before the revoke uses what it names (R142). -/
def usesRevoked (s : State) (x : Job) (j : Nat) (y : Job) : Bool :=
  decide (y.phase = .started) && decide (y.part = paTarget x) && decide (y.seq < x.seq)
    && (if paKind x = 0 then
        decide (0x60 ≤ y.opcode) && decide (y.opcode ≤ 0x63) && (jobRanges y).any fun r => overlaps r.1 r.2 (regionOf x).1 (regionOf x).2
      else if paKind x = 1 then decide (0x50 ≤ y.opcode) && decide (y.opcode ≤ 0x57) && decide ((mjPort y, mjChan y) = mjChanOf x)
      else (y.opcode == 0xA0 && payBits y 32 3 == paSlot x)
        || s.serve.reqs.any fun r => decide (r.2.slot = paSlot x) && (r.2.job == some j || r.2.pauseJob == some j))

/-- The revoke ends started MBX_RECVs that hold no part of a message, with CANCELLED (R418). -/
def revokeRecvs (s : State) (p c : Nat) : State :=
  let z := sessGet s p c
  let idle := z.recvs.filter fun j => some j ≠ z.holding
  eachIn idle (fun s j => jobDone s j stCancelled 0) (sessMod s p c fun z => { z with recvs := z.recvs.filter fun j => some j = z.holding })

/-- Every word of a region becomes 0 by full-word writes, which clear its poison; a channel out of service drops them (R142, R530). -/
def zeroRegion (s : State) (b l : Nat) : State :=
  let hit := fun w => decide (b ≤ 8 * w) && decide (8 * w < b + l) && !chanGone s (memPlace s (8 * w)).1
  let m := s.mem.dram
  memSet s { s.mem with
    dram := { bytes := m.bytes.filter fun c => !hit (c.1 / 8), checks := m.checks.filter fun c => !hit c.1 }
    repair := s.mem.repair.map fun q => (q.1, if q.1 < 16 then q.2.filter fun w => !hit w else q.2) }

/-- The resource leaves its holder (R142, steps 3 to 5). -/
def revokeDone (s : State) (x : Job) : State :=
  let n := paTarget x
  if paKind x = 0 then
    let (b, l) := regionOf x
    let s := zeroRegion s b l
    match partMemFind s n (b, l) with
    | some i => partMemSet s n i 0 0
    | none => s
  else if paKind x = 1 then
    let (p, c) := mjChanOf x
    mbxHold (mbxHold (deviceAbort s p c stNotOwner) n p c false) 0 p c true
  else s.fset (pgPart + n) F.PART_SLOTS_SLOTS (natPutBit (s.fget (pgPart + n) F.PART_SLOTS_SLOTS) (paSlot x) false)

/-- PART_REVOKE (R142, R170): it waits for started jobs that use the resource, and for open time where it writes memory. -/
def execPartRevoke (job : Nat) (s : State) : Host.Outcome State Fault Refusal :=
  nxt <| match startedJob s job 0x13 with
    | none => s
    | some x => match paCheck s x with
      | some c => jobDone s job c 0
      | none =>
        if ¬ revokeHeld s x then jobDone s job stNotGranted 0
        else
          let s := if paKind x = 1 then revokeRecvs s (mjChanOf x).1 (mjChanOf x).2 else s
          let shut := paKind x = 0 ∧ ((memChannels s).any fun c => (phaseGet s c).closed)
          if shut ∨ (s.qe.jobs.any fun k => usesRevoked s x k.1 k.2) then s
          else jobDone (revokeDone s x) job stOk 0

/-! ### PART_CLR -/

/-- A write of PART_CLR (Table 5.12). -/
def partClr (s : State) (p : Nat) (data : Word) : State :=
  let s := if data.getLsbD 0 then s.setReg p F.PART_FOREIGN_COUNT.off 0 else s
  if data.getLsbD 1 then (regsClear s p 0x100 0x200).setReg p F.PART_LOG_STAT_NEXT.off 0 else s

/-- PART_CLR_FOREIGN. -/
def execPartClrForeign (part page : Nat) (s : State) : Host.Outcome State Fault Refusal :=
  nxt (if classOf s.var page = some .part then pageWrite s part page fun s => partClr s page 1 else s)

/-- PART_CLR_LOG. -/
def execPartClrLog (part page : Nat) (s : State) : Host.Outcome State Fault Refusal :=
  nxt (if classOf s.var page = some .part then pageWrite s part page fun s => partClr s page 2 else s)

/-! ### Partition resets -/

def resetSet (s : State) (n : Nat) (r : PartReset) : State := { s with part := { s.part with resets := s.part.resets.ins n r } }

/-- What the device holds back for a function is gone, and the jobs whose CQ entries it held (R146, R174) (DEDUCED, assumption 45). -/
def dropHeld (s : State) (n : Nat) : State :=
  let s := eachIn (heldJobs s n) jobFree s
  { s with host := { s.host with held := s.host.held.set [] n [] } }

/-- A job of the resetting partition (R130, R151): one that no block works on ends at once, as does a retention job, whose commit runs on
once it has begun writing; the block of any other is sent a cancel request. -/
def resetJob (s : State) (j : Nat) : State :=
  match jobGet s j with
  | none => s
  | some x =>
    let rtu := 0x40 ≤ x.opcode ∧ x.opcode ≤ 0x4F
    let admin := 0x10 ≤ x.opcode ∧ x.opcode ≤ 0x13
    match x.phase with
    | .done => s
    | .started => if rtu ∨ admin ∨ (x.stage = 0 ∧ ¬ rqtHolds s j) then jobDone s j 0x0015 0 else jobSet s j { x with cancel := true }
    | _ => jobDone s j 0x0015 0

/-- Jobs of a partition. -/
def jobsOfPart (s : State) (n : Nat) : List Nat := (s.qe.jobs.filter fun k => k.2.part = n).map Prod.fst

/-- Queue pairs of a partition. -/
def qpsOfPart (s : State) (n : Nat) : List Nat :=
  n :: (s.qe.qps.filter fun k => decide (s.var.partitions ≤ k.1) && k.2.owner == n).map Prod.fst

/-- Resets that jobs of the partition wait for forget them. -/
def disownResets (s : State) (n : Nat) : State :=
  let mine := jobsOfPart s n
  { s with part := { s.part with resets := s.part.resets.mapVal fun _ r =>
      { r with owner := r.owner.filter fun j => !mine.contains j, joined := r.joined.filter fun j => !mine.contains j } } }

/-- A partition reset begins, or joins the one in progress (R130, R151, R169). `owner` is the job that completes with it
(DEDUCED, assumption 46). -/
def partResetStart (s : State) (n : Nat) (flr : Bool) (owner : Option Nat) : State :=
  let p := pgPart + n
  match s.part.resets.find? n with
  | some r =>
    let s := resetSet s n { r with flr := r.flr || flr, joined := r.joined ++ owner.toList }
    if flr then dropHeld (s.fset p F.PART_STAT_STATE 2) n else s
  | none =>
    let s := s.fset pgRst F.RST_PART_BUSY_BUSY (natPutBit (s.fget pgRst F.RST_PART_BUSY_BUSY) n true)
    let s := s.fset p F.PART_STAT_STATE (if flr then 2 else 1)
    let s := disownResets (dropHeld s n) n
    let s := resetSet s n { since := s.now, flr := flr, owner := owner }
    let s := eachIn (qpsOfPart s n) (fun s q =>
      let s := endChain s q
      qpSet s q { qpGet s q with pushes := [], staged := [], ringLeft := 0 }) s
    let s := eachIn ((List.range (8 * s.var.clnkPorts)).filter fun b => holdsChannel s n (b / 8) (b % 8)) (fun s b =>
      deviceAbort s (b / 8) (b % 8) 0x0015) s
    eachIn (jobsOfPart s n) resetJob s

/-- PART_RESET (R140, R153, R169): a reset of another partition completes the job; a self-reset ends it with the rest. -/
def execPartReset (job : Nat) (s : State) : Host.Outcome State Fault Refusal :=
  nxt <| match startedJob s job 0x10 with
    | none => s
    | some x =>
      let n := paTarget x
      if x.stage ≠ 0 then s
      else if x.part ≠ 0 ∧ n ≠ x.part then jobDone s job stNotOwner 0
      else if s.var.partitions ≤ n then jobDone s job stUnitAbsent 0
      else if n = x.part then partResetStart s n false none
      else partResetStart (jobSet s job { x with stage := 1 }) n false (some job)

/-- A write of RST_PART (R95). -/
def rstPartWrite (s : State) (part : Nat) (data : Word) : State :=
  let n := bitsOf data 0 4
  if part = 0 ∧ bitsOf data 16 16 = 0xA5C3 ∧ data.getLsbD 8 ∧ s.fbit pgRst F.RST_CTRL_PART_EN ∧ n < s.var.partitions then
    partResetStart s n false none
  else s

/-- RST_PART (R95). -/
def execRstPart (part : Nat) (data : Word) (s : State) : Host.Outcome State Fault Refusal :=
  nxt (pageWrite s part pgRst fun s => rstPartWrite s part data)

/-- A Function Level Reset (R96, R151): a partition reset, and Bus Master Enable of the function reads 0 (PRESUMED, assumption 17). -/
def flrStart (s : State) (fn : Nat) : State :=
  let t := partResetStart s fn true none
  { t with host := { t.host with bme := t.host.bme.set false fn false } }

/-- FLR (R96): of a virtual function that is built. -/
def execFlr (fn : Nat) (s : State) : Host.Outcome State Fault Refusal :=
  nxt (if 1 ≤ fn ∧ fn < s.var.partitions then flrStart s fn else s)

/-- The admin queue pair is DISABLED and every created one FREE (R130). -/
def resetQps (s : State) (n : Nat) : State :=
  let s := eachIn ((qpsOfPart s n).filter fun q => s.var.partitions ≤ q) qpRelease s
  qpSet (qpPut s n F.QP_CTRL_EN 0) n { qpGet s n with
    state := .disabled, pushes := [], staged := [], ringLeft := 0, chain := .closed, folded := 0, foldedIrq := false, deleting := none,
    discarded := 0 }

/-- The reset-done entry (R152), where the admin CQ takes one. -/
def resetDoneEntry (s : State) (n result : Nat) : State :=
  if (qpGet s n).state = .disabled ∨ cqIsFull s n ∨ s.qe.dead then s else cqWrite s n 0xFFFF stResetDone 1 result false

/-- A partition reset ends (R151 steps 5 and 6, R152, R153, R169). -/
def partResetFinish (s : State) (n : Nat) (r : PartReset) : State :=
  let p := pgPart + n
  let result := r.ended % 2 ^ 16 + (r.discarded % 2 ^ 16) * 2 ^ 16
  let s := dropHeld (eachIn (jobsOfPart s n) jobFree s) n
  let s := if r.flr then s else resetDoneEntry s n result
  let s := resetQps s n
  let s := { s with part := { s.part with resets := s.part.resets.del n } }
  let s := (s.fincSat p F.PART_STAT_RESETS 1).fset p F.PG_LOCK_LOCK 0
  let s := pageIrq (s.fset p F.PART_STAT_STATE 0) p 1
  let s := pageIrq (s.fset pgRst F.RST_PART_BUSY_BUSY (natPutBit (s.fget pgRst F.RST_PART_BUSY_BUSY) n false)) pgRst 1
  let s := match r.owner with
    | some j => jobDone s j stOk result
    | none => s
  eachIn r.joined (fun s j => jobDone s j stOk 0) s

/-- The jobs and requests of a resetting partition are gone: every job is done, in a reset that writes its completion is written, and no
RQT entry is held (R130, R151). -/
def resetQuiet (s : State) (n : Nat) (r : PartReset) : Bool :=
  (s.qe.jobs.all fun k => k.2.part != n || (r.flr && decide (k.2.phase = .done))) && s.serve.reqs.all fun q => q.2.part != n

/-- PARTITION_RESET_END. -/
def execPartitionResetEnd (part : Nat) (s : State) : Host.Outcome State Fault Refusal :=
  nxt <| match s.part.resets.find? part with
    | none => s
    | some r => if resetQuiet s part r then partResetFinish s part r else s

/-- The unit of the block that runs an opcode (R154) (DEDUCED, assumption 47). -/
def unitOfOpcode (x : Job) : Nat :=
  if x.opcode < 0x10 then pgQe
  else if x.opcode < 0x20 then pgRst
  else if x.opcode < 0x30 then pgSolv
  else if x.opcode < 0x38 then pgServe
  else if x.opcode < 0x40 then pgMask
  else if x.opcode < 0x50 then pgRtu
  else if x.opcode < 0x60 then pgClnk + mjPort x
  else if x.opcode < 0x70 then pgMemc
  else if x.opcode < 0x80 then pgLoopG
  else if x.opcode < 0xA0 then pgSolv
  else pgRqt

/-- What a block keeps for a job that it is made to give up (R154). -/
def dropJob (s : State) (j : Nat) : State :=
  match jobGet s j with
  | none => s
  | some x =>
    let s :=
      if x.opcode = 0x30 ∧ x.stage ≠ 0 then mslotMove s (payBits x 32 3) msEmpty
      else if x.opcode = 0x38 ∧ x.stage ≠ 0 then maskEmpty s (payBits x 32 5)
      else if x.opcode = 0x80 then unstage s (payBits x 32 5) j
      else if x.opcode = 0x82 then
        let k := payBits x 32 5
        slotSet s k { slotGet s k with run := if (slotGet s k).run = some j then none else (slotGet s k).run }
      else if x.opcode = 0x31 then
        let m := payBits x 32 3
        let y := mslotGet s m
        match y.unload with
        | some (i, c) => if i = j then mslotSet s m { y with unload := some (4096, c) } else s
        | none => s
      else s
    let s := eachIn (List.range s.var.clnkPorts) (fun s p => portMod s p fun y => { y with
      ctl := y.ctl.map fun f => if f.job = some j then { f with job := none } else f,
      reboots := y.reboots.filter fun f => f.job ≠ j }) s
    jobDone s j 0x0015 0

/-- PART_RESET_TIMEOUT (R154): 1 600 000 ticks after its start blocks still hold jobs; their units leave service, the jobs count as ended,
and every completion that has not been written is written or discarded with the end. -/
def execPartResetTimeout (part : Nat) (s : State) : Host.Outcome State Fault Refusal :=
  nxt <| match s.part.resets.find? part with
    | none => s
    | some r =>
      let late := (s.qe.jobs.filter fun k => k.2.part = part ∧ k.2.phase ≠ .done)
      let reqs := (s.serve.reqs.filter fun q => q.2.part = part).map Prod.fst
      if late = [] ∧ reqs = [] then s
      else
        let s := s.reach (r.since + 1600000)
        let pages := ((late.map fun k => unitOfOpcode k.2) ++ (if reqs = [] then [] else [pgRqt])).eraseDups
        let s := eachIn pages (fun s p => unitGone (capture s pgRst 0x0508 part part) p) s
        let s := eachIn reqs (fun s q => cancelRelease s q []) s
        eachIn (late.map Prod.fst) dropJob s

end Sys2Proof.Machine
end

