-- ==== Sys2Proof/Machine/Pages.lean ====
section
/-! DEFINITION. Register pages (chapter 3): what a register shows, reads with their side effects, writes by access code and by each
register's own rule, and the commands on the common header. -/

namespace Sys2Proof.Machine

/-! ### What a register shows -/

/-- QP_STAT.STATE (Table 4.7). -/
def QpState.code : QpState → Nat
  | .free => 0 | .active => 1 | .disabled => 2 | .draining => 3 | .error => 4

/-- Jobs that pass a test. -/
def countJobs (s : State) (f : Job → Bool) : Nat := (s.qe.jobs.filter fun k => f k.2).length

/-- A register of a queue pair's block (Table 4.15). -/
def qpShow (s : State) (q o : Nat) (w : Word) : Word :=
  let x := qpGet s q
  let n : Option Nat := match o with
    | 0x04 => some (x.state.code + b2n x.full * 2 ^ 3 + b2n (decide (x.chain ≠ .closed)) * 2 ^ 4
        + (x.pushes.map fun k => 2 ^ (5 + k.1)).sum + x.owner * 2 ^ 16)
    | 0x20 => some x.sqHead
    | 0x24 => some x.sqDb
    | 0x28 => some (x.cqTail + b2n x.phase * 2 ^ 12)
    | 0x2C => some x.cqHead
    | 0x30 => some (countJobs s fun k => k.qp = q)
    | _ => none
  match n with
  | some v => BitVec.ofNat 32 v
  | none => w

/-- Requests that pass a test. -/
def countReqs (s : State) (f : Req → Bool) : Nat := (s.serve.reqs.filter fun k => f k.2).length

/-- Work in flight in the unit of a page (PG_STAT.ACTIVE). -/
def pageActive (s : State) (c : PageClass) (p : Nat) : Bool :=
  match c with
  | .ft => (tileGet s (p - pgFt)).running
  | .ch => (chanGet s (p - pgCh)).sampling.isSome
  | .pwm => s.fget p F.PWM_STAT_STATE == pwmRun
  | .clnk => (portGet s (p - pgClnk)).tx
  | .loopg => s.loop.test.isSome
  | .solv => s.solver.slots.any fun k => k.2.solve.isSome
  | .lens => match clusterSlot s (p - pgLens) with
    | some m => (mslotGet s m).step.isSome
    | none => false
  | .serve | .rqt => !s.serve.reqs.isEmpty && s.serve.reqs.any fun r => decide (r.2.state ≠ .free)
  | .rtu => s.rtu.work.isSome || s.rtu.cmd.isSome
  | .memc => s.qe.jobs.any fun k => decide (k.2.phase = .started) && decide (0x60 ≤ k.2.opcode) && decide (k.2.opcode ≤ 0x63)
  | .part => s.qe.jobs.any fun k => k.2.part == p - pgPart
  | .qeg => !s.qe.jobs.isEmpty
  | .qp => s.qe.jobs.any fun k => k.2.qp / 2 == p - pgQp
  | _ => false

/-- PG_STAT: QUIESCED while QUIESCE or ENABLE = 0 is in force and no work is in flight (Table 3.4). -/
def statShow (s : State) (c : PageClass) (p : Nat) : Word :=
  let act := pageActive s c p
  let q := (s.fbit p F.PG_CTRL_QUIESCE || !s.fbit p F.PG_CTRL_ENABLE) && !act
  putBits (s.reg p 0x0C) 0 2 (b2n act + 2 * b2n q)

/-- The SRAM region that SRAM_SEL names. -/
def selRegion (s : State) : EccCount := regionGet s (s.fget pgMemc F.SRAM_SEL_REGION)

/-- A register whose value the device forms when it is read; none where the held word is what it shows. -/
def formed (s : State) (c : PageClass) (p off part : Nat) : Option Nat :=
  match c, off with
  | .chip, 0x040 => some (s.var.pick 0x0480 0x0320 0x0160 + s.fuses.stepping % 256 * 2 ^ 16)
  | .chip, 0x050 => some s.fuses.uid.toNat
  | .chip, 0x054 => some (s.fuses.uid.toNat / 2 ^ 32)
  | .ptb, 0x040 => some s.now
  | .ptb, 0x044 => some (s.time.capNow.get 0 part).toNat
  | .ptb, 0x048 => some s.time.period
  | .ptb, 0x04C => some (if s.time.plan.isSome then s.time.cycleH + planPos s * 2 ^ 16 else 1)
  | .ptb, 0x050 => some s.time.bpn.toNat
  | .ptb, 0x054 => some (s.time.capBpn.get 0 part).toNat
  | .ptb, 0x058 => some s.time.origin
  | .ptb, 0x05C => some (s.time.origin / 2 ^ 32)
  | .part, 0x040 => some ((s.reg p off).toNat + b2n (s.host.bme.get false (p - pgPart)) * 2 ^ 2)
  | .part, 0x058 => some (kvUse s (p - pgPart))
  | .part, 0x05C => some (rqtUse s (p - pgPart))
  | .qeg, 0x044 => some (s.qe.jobs.length + sharedUsed s * 2 ^ 16)
  | .ft, 0x044 =>
    let x := tileGet s (p - pgFt)
    some (b2n x.running + b2n x.halted * 2 + x.levels.length * 2 ^ 2 + b2n (x.levels.any (·.overflow)) * 2 ^ 4 + x.pc % 2 ^ 16 * 2 ^ 16)
  | .ft, 0x054 => some (tileGet s (p - pgFt)).ssb.length
  | .loupe, 0x044 => some (loupeShow s off).toNat
  | .serve, 0x064 => some (kvFree s)
  | .serve, 0x068 => some (kvIndexed s)
  | .rqt, 0x040 => some (countReqs s (fun r => decide (r.state ≠ .free)) + countReqs s (fun r => decide (r.state = .queued)) * 2 ^ 16)
  | .rqt, 0x044 => some (waitingJobs s).length
  | .prefixIx, 0x050 => some (pfxUsed s)
  | .memc, 0x004 => some (2 ^ 31 + match s.mem.trained.find? ((p - pgMemc) / 2) with
      | some g => g + 2 ^ 5
      | none => 0)
  | .memc, 0x048 => some ((s.reg p off).toNat + b2n (decide (64 ≤ (s.mem.repair.get [] ((p - pgMemc) / 2)).length)) * 2 ^ 2)
  | .memc, 0x114 => some ((selRegion s).ce + (selRegion s).ue * 2 ^ 16)
  | .memc, 0x118 => some ((selRegion s).reads + (selRegion s).merges * 2 ^ 16)
  | .memc, 0x11C => some ((selRegion s).lastCe % 2 ^ 24 + (selRegion s).dropped * 2 ^ 24)
  | .memc, 0x128 => some (scrubPasses s)
  | .memcal, 0x044 => some (planLat (s.fget pgMemc F.MEMC_CFG_RATE))
  | .rtu, 0x054 => some (freeCount s)
  | .rtu, 0x058 => some (erasedCount s)
  | .tku, 0x044 => some (s.tku.fifo.headD 0).toNat
  | .tku, 0x048 => some (s.tku.evtHi.get 0 part).toNat
  | .qeg, o => if 0x100 ≤ o ∧ o < 0x140 then some (countJobs s fun k => k.part = (o - 0x100) / 4) else none
  | .serve, o =>
    if 0x104 ≤ o ∧ o < 0x180 ∧ o % 16 = 4 then some ((s.reg p o).toNat + (slotReqs s ((o - 0x104) / 16)).length * 2 ^ 16) else none
  | .rqt, o =>
    if 0x100 ≤ o ∧ o < 0x180 then some (bitsOf (rqtBits s (s.fget pgRqt F.RQT_SEL_ENTRY)) (8 * (o - 0x100)) 32) else none
  | .mask, o =>
    if 0x100 ≤ o ∧ o < 0x200 ∧ o % 8 = 0 then some ((s.reg p o).toNat + min 1023 (maskRefs s ((o - 0x100) / 8)) * 2 ^ 16) else none
  | _, _ => none

/-- A block register keeps its live value while its page resets (R83): its reset value is given as "—", or the page's text says so. -/
def staysLive (c : PageClass) (off : Nat) : Bool := c == .ptb && decide (0x040 ≤ off) && decide (off < 0x060) && off != 0x044 && off != 0x054

/-- What a register shows to a partition that sees its page (R83, R87). -/
def regShow (s : State) (part p off : Nat) : Word :=
  match classOf s.var p with
  | none => 0
  | some .mirror => BitVec.ofNat 32 ((s.time.mirror.get 0 (512 * (p - 0x800) + off / 8)).toNat / 2 ^ (if off % 8 = 4 then 32 else 0))
  | some c =>
    if off = 0x0C then statShow s c p
    else if c = .qp ∧ 0x100 ≤ off then
      match qpBlock off with
      | some (odd, o) =>
        let q := 2 * (p - pgQp) + b2n odd
        if qpReach s part q then qpShow s q o (s.reg p off) else 0
      | none => 0
    else if 0x40 ≤ off ∧ pageBusy s p ∧ ¬ staysLive c off then
      let rst := resetWord s.var p off
      if s.fbit p F.PG_LOCK_LOCK then
        match rowAt c p off with
        | some r => r.fields.foldl (fun w f => if f.acc = .rwl then putBits w f.lo f.wid (bitsOf (s.reg p off) f.lo f.wid) else w) rst
        | none => rst
      else rst
    else match formed s c p off part with
      | some v => BitVec.ofNat 32 v
      | none => s.reg p off

/-- A read of a register, with its side effect (R78): PTB_NOW_LO, PTB_BPN_LO, TKU_EVT_LO, FT_DIAG_LO, and PMU_STAT, whose LAST clears. The
last mode-register value of a channel that is trained comes from its devices (assumption 1) (DEDUCED, assumption 19)
(DEDUCED, assumption 114). -/
def regRead (s : State) (part p off : Nat) : Word × State :=
  match classOf s.var p, off with
  | some .ptb, 0x040 => ptbNowRead s part
  | some .ptb, 0x050 => ptbBpnRead s part
  | some .tku, 0x044 => tkuEvtRead s part
  | some .ft, 0x064 => if pageBusy s p then (regShow s part p off, s) else diagRead s (p - pgFt)
  | some .pmu, 0x044 => (regShow s part p off, s.fset pgPmu F.PMU_STAT_LAST 0)
  | some .memc, 0x06C =>
    if (s.mem.trained.find? ((p - pgMemc) / 2)).isSome ∧ ¬ pageBusy s p then
      let (v, s) := s.free
      (BitVec.ofNat 32 (v % 256), s)
    else (0, s)
  | _, _ => (regShow s part p off, s)

/-! ### Writes by access code -/

/-- A write of one field by its access code (Table 0.7, R9); a value outside the field's range or table leaves it (R10). -/
def fieldWrite (locked : Bool) (data w : Word) (f : RegField) : Word :=
  let v := bitsOf data f.lo f.wid
  let old := bitsOf w f.lo f.wid
  let fits := decide (f.least ≤ v) && decide (v ≤ f.most)
  let new := match f.acc with
    | .ro | .wo => old
    | .rw => if fits then v else old
    | .rwl => if fits && !locked then v else old
    | .w1c => old ^^^ (old &&& v)
    | .w1s => old ||| v
  putBits w f.lo f.wid new

/-- The word a register row holds after a write. -/
def rowWrite32 (locked : Bool) (r : RegRow) (data w : Word) : Word := r.fields.foldl (fieldWrite locked data) w

/-- The register takes a write by its access codes. -/
def plainWrite (s : State) (p off : Nat) (data : Word) : State :=
  match classOf s.var p with
  | none => s
  | some c => match rowAt c p off with
    | none => s
    | some r => s.setReg p off (rowWrite32 (s.fbit p F.PG_LOCK_LOCK) r data (s.reg p off))

/-- Every field of the row takes the value written (R10). -/
def rowFits (r : RegRow) (data : Word) : Bool :=
  r.fields.all fun f => decide (f.acc = .ro) || (decide (f.least ≤ bitsOf data f.lo f.wid) && decide (bitsOf data f.lo f.wid ≤ f.most))

/-- A write that breaks a range leaves the whole register (PMU_THERM, PMU_SPEED, Table 18.6). -/
def strictWrite (s : State) (p off : Nat) (data : Word) : State :=
  match classOf s.var p with
  | none => s
  | some c => match rowAt c p off with
    | none => s
    | some r => if rowFits r data then plainWrite s p off data else s

/-! ### Writes with a rule of their own -/

/-- RST_CHIP (R94, R95). -/
def rstChipWrite (s : State) (part : Nat) (data : Word) : State :=
  if part = 0 ∧ bitsOf data 16 16 = 0xA5C3 ∧ data.getLsbD 0 ∧ s.fbit pgRst F.RST_CTRL_CHIP_EN then chipReset s 2 else s

/-- PTB_SYNC_CTRL (Table 3.13): a follower checks pulses from its next plan epoch on. -/
def syncCtrlWrite (s : State) (data : Word) : State :=
  let was := s.fget pgPtb F.PTB_SYNC_CTRL_MODE
  let s := plainWrite s pgPtb F.PTB_SYNC_CTRL_MODE.off data
  if s.fget pgPtb F.PTB_SYNC_CTRL_MODE = was then s else timeSet s { s.time with syncCheck := false, syncEpoch := none }

/-- QE_PJOB (Table 4.13): partitions that are not built take no write and do not count in Σ JOB_RSV (DEDUCED, assumption 28). -/
def pjobWrite (s : State) (n : Nat) (data : Word) : State :=
  let o := F.QE_PJOB_JOB_MAX.off + 4 * n
  let w := s.reg pgQe o
  let keep := fun v old => if 1 ≤ v ∧ v ≤ 512 then v else old
  let most := keep (bitsOf data 0 10) (bitsOf w 0 10)
  let rsv := keep (bitsOf data 16 10) (bitsOf w 16 10)
  let others := (((List.range s.var.partitions).filter (· ≠ n)).map fun k => s.fget pgQe (F.QE_PJOB_JOB_RSV.sh (4 * k))).sum
  if s.var.partitions ≤ n ∨ s.fbit pgQe F.PG_LOCK_LOCK ∨ most < rsv ∨ 512 < others + rsv then s
  else s.setReg pgQe o (BitVec.ofNat 32 (most + rsv * 2 ^ 16))

/-- A register of a queue pair (Table 4.15): the ring registers take writes on admin queue pairs with EN = 0 only. -/
def qpRegWrite (s : State) (part p off : Nat) (data : Word) : State :=
  match qpBlock off with
  | none => s
  | some (odd, o) =>
    let q := 2 * (p - pgQp) + b2n odd
    if ¬ qpReach s part q then foreign s part p false
    else if o = 0 then qpCtrlWrite s q data
    else if 0x08 ≤ o ∧ o ≤ 0x18 then
      if s.var.partitions ≤ q ∨ qpF s q F.QP_CTRL_EN = 1 ∨ ((o = 0x08 ∨ o = 0x10) ∧ bitsOf data 0 12 ≠ 0) then s
      else plainWrite s p off data
    else plainWrite s p off data

/-- The pair of signed 16-bit limits of a word is in order (R315). -/
def limitsOk (w : Word) : Bool := decide (toSigned 16 (bitsOf w 0 16) ≤ toSigned 16 (bitsOf w 16 16))

/-- A register of a loop channel (R315, Tables 9.11 to 9.13). -/
def chWrite (s : State) (p off : Nat) (data : Word) : State :=
  if off = 0x060 ∨ off = 0x06C ∨ off = 0x2CC ∨ (0x100 ≤ off ∧ off < 0x160 ∧ off % 16 = 12) then
    if limitsOk data then plainWrite s p off data else s
  else if off = 0x078 then
    let half := fun k => let v := bitsOf data k 16; if 0 < toSigned 16 v then v else bitsOf (s.reg p off) k 16
    s.setReg p off (BitVec.ofNat 32 (half 0 + half 16 * 2 ^ 16))
  else if off = 0x044 then
    let t := plainWrite s p off data
    let ok := fun (t : State) => decide (t.fget p F.CH_SFDIM_NI ≤ t.fget p F.CH_SFDIM_NU)
    let u := t.fset p F.CH_SFDIM_NI (s.fget p F.CH_SFDIM_NI)
    if ok t then t else if ok u then u else s
  else plainWrite s p off data

/-- LOUPE_WDT_CFG (R340): WIN_MIN stays below TIMEOUT. -/
def wdtCfgWrite (s : State) (data : Word) : State :=
  let was := s.fbit pgLoupe F.LOUPE_WDT_CFG_ENABLE
  let t := plainWrite s pgLoupe F.LOUPE_WDT_CFG_ENABLE.off data
  let ok := fun (t : State) => decide (t.fget pgLoupe F.LOUPE_WDT_CFG_WIN_MIN < t.fget pgLoupe F.LOUPE_WDT_CFG_TIMEOUT)
  let u := t.fset pgLoupe F.LOUPE_WDT_CFG_WIN_MIN (s.fget pgLoupe F.LOUPE_WDT_CFG_WIN_MIN)
  wdtEnable (if ok t then t else if ok u then u else s) was

/-- LOUPE_PAIR_TS: a pair's field takes a listed trip state (Table 10.3). -/
def pairTsWrite (s : State) (data : Word) : State :=
  let old := s.reg pgLoupe F.LOUPE_PAIR_TS.off
  if s.fbit pgLoupe F.PG_LOCK_LOCK then s
  else
    let w := (List.range 16).foldl (fun (w : Word) n => if bitsOf data (2 * n) 2 = 3 then w else putBits w (2 * n) 2 (bitsOf data (2 * n) 2)) old
    pairTsChanged (s.setReg pgLoupe F.LOUPE_PAIR_TS.off w) old

/-- A register of the LOUPE page (Table 10.12) (DEDUCED, assumption 30). -/
def loupeWrite (s : State) (part off : Nat) (data : Word) : State :=
  match off with
  | 0x05C => loupeClear s part data
  | 0x060 => loupeReq s data
  | 0x064 => loupeCauseClr s data
  | 0x068 => wdtFeed s part data (s.fget pgLoupe F.LOUPE_WDT_STAT_ELAPSED)
  | 0x0B4 => wdtCfgWrite s data
  | 0x0BC => pairTsWrite s data
  | _ => refreshHolds (plainWrite s pgLoupe off data)

/-- Hold-up ADC codes of a check that a register write starts (assumption 1). -/
def freeCodes (s : State) : List Nat × State :=
  ((List.range 8).map fun k => Config.freeNat (s.freeCtr + k) % 4096, { s with freeCtr := s.freeCtr + 8 })

/-- A register of the PMU (Table 17.10). -/
def pmuWrite (s : State) (part off : Nat) (data : Word) : State :=
  if off = 0x084 then
    if bitsOf data 8 8 < bitsOf data 0 8 then strictWrite s pgPmu off data else s
  else if off = 0x08C then speedCapWritten (strictWrite s pgPmu off data)
  else if off = 0x094 then
    let (codes, s) := freeCodes s
    ps4Write s part data codes
  else plainWrite s pgPmu off data

/-- A block register takes a host write. -/
def blockWrite (s : State) (part p off : Nat) (data : Word) : State :=
  let plain := plainWrite s p off data
  match classOf s.var p with
  | none | some .mirror => s
  | some .rst =>
    if off = 0x044 then rstChipWrite s part data
    else if off = 0x048 then rstPartWrite s part data
    else if off = 0x058 then { plain with boot := { plain.boot with keepWritten := true } }
    else plain
  | some .ptb => if off = 0x060 then syncCtrlWrite s data else plain
  | some .qeg =>
    if 0x080 ≤ off ∧ off < 0x0C0 then pjobWrite s ((off - 0x080) / 4) data
    else if 0x0C0 ≤ off ∧ off < 0x100 ∧ s.var.partitions ≤ (off - 0x0C0) / 4 then s
    else plain
  | some .qp => qpRegWrite s part p off data
  | some .part => if off = 0x04C then partClr s p data else plain
  | some .ft => if off = 0x068 then diagWrite s (p - pgFt) data else plain
  | some .solv => if off = 0x044 then solvCtrlTake s data else plain
  | some .loopg => if 0x060 ≤ off ∧ off < 0x080 then pinCfgTake s off data else plain
  | some .ch => chWrite s p off data
  | some .pwm => if off = 0x048 then pwmCmpWrite s (p - pgPwm) data else plain
  | some .trip =>
    if off = 0x044 then tripClear s part (bitsOf data 0 8) (s.fget pgTrip F.TRIP_STAT_RAW)
    else if off = 0x048 then tripForce s data
    else if 0x080 ≤ off ∧ off < 0x0A0 then refreshHolds plain
    else plain
  | some .loupe => loupeWrite s part off data
  | some .clnk => if off = 0x044 then linkCtrlWrite s (p - pgClnk) data else plain
  | some .clnkg => if 0x100 ≤ off then limbKeyStat plain else plain
  | some .memc => (memRegWrite s p off data).getD plain
  | some .pmu => pmuWrite s part off data
  | some .tku => if off = 0x060 then tkuClr s data else tkuWritten (strictWrite s p off data) off
  | some .chip | some .fmap | some .memcal | some .rtu | some .rqt | some .mask => plain
  | some .serve | some .lens | some .prefixIx | some .sampler | some .draft => (serveRegWrite s p off data).getD plain

/-! ### The common header -/

/-- PG_OWNER.READERS (R88): only P0 writes it, and it is RO on Plan-domain pages and on PART pages. -/
def readersWrite (s : State) (part p : Nat) (c : PageClass) (data : Word) : State :=
  if part ≠ 0 ∨ domainOf c = .plan ∨ c = .part then s else plainWrite s p 0x1C data

/-- PG_IRQ_FORCE: ERR and the causes that the page defines (Table 3.4). -/
def irqForce (s : State) (p : Nat) (bits : Word) : State :=
  match classOf s.var p with
  | none => s
  | some c => pageIrq s p (bits.toNat &&& (irqDefined c + 2 ^ 31))

/-- A write of a header register (Tables 3.3 and 3.4). -/
def headerWrite (s : State) (part p : Nat) (c : PageClass) (off : Nat) (data : Word) : State :=
  match off with
  | 0x08 => ctrlWrite s p data
  | 0x10 => irqRewrite s p (s.reg p 0x10 &&& ~~~ data) (s.reg p 0x14)
  | 0x14 => irqRewrite s p (s.reg p 0x10) data
  | 0x18 => irqForce s p data
  | 0x1C => readersWrite s part p c data
  | 0x30 => if data.getLsbD 0 then errClear s p else s
  | 0x34 => if data.getLsbD 0 then s.fset p F.PG_LOCK_LOCK 1 else s
  | 0x38 => s.setReg p 0x38 data
  | _ => s

/-- A write reaches the register. While the page resets, or its reset was abandoned, it is ignored but for PG_ERR_CLR, PG_SCRATCH and, of an
abandoned unit of Table 5.7, IN_SERVICE = 1 (R83, R84, R155). -/
def writeNow (s : State) (part p off : Nat) (data : Word) : State :=
  match classOf s.var p with
  | none | some .mirror => s
  | some c =>
    let open_ := off = 0x30 ∨ off = 0x38 ∨ (off = 0x08 ∧ (s.page p).abandoned ∧ natBit (ctrlWritable c) 2 ∧ data.getLsbD 2 ∧ ¬ data.getLsbD 3)
    if pageBusy s p ∧ ¬ open_ then s
    else if off < 0x40 then headerWrite s part p c off data
    else blockWrite s part p off data

/-! ### Host writes -/

/-- The write waits for the block's latch phase (R19): a loop channel that samples (R288), SOLV_CTRL and PG_CTRL of SOLV (R278), and
LOOP_PIN_CFG ("LOOP global page") (DEDUCED, assumption 25) (DEDUCED, assumption 26). -/
def waitsLatch (s : State) (p off : Nat) : Bool :=
  match classOf s.var p with
  | some .ch => decide (chRunning ≤ s.fget p F.CH_STAT_STATE)
  | some .solv => off == 0x08 || off == 0x044
  | some .loopg => decide (0x060 ≤ off) && decide (off < 0x080)
  | _ => false

/-- The writes held for a page, which then hold no more. -/
def takeHeld (s : State) (p : Nat) : List (Nat × Word) × State :=
  ((s.page p).heldWrites, s.modPage p fun x => { x with heldWrites := [] })

/-- Held writes take effect in their order of arrival; they are P0's (R20, R35). -/
def applyHeld (s : State) (p : Nat) (ws : List (Nat × Word)) : State := eachIn ws (fun s w => writeNow s 0 p w.1 w.2) s

/-- Every write held for a page takes effect. -/
def flushHeld (s : State) (p : Nat) : State :=
  let (ws, s) := takeHeld s p
  applyHeld s p ws

/-- A write by a partition (R79, R87, R90) (DESIGN CHOICE, assumption 21). -/
def regWrite (s : State) (part p off : Nat) (data : Word) : State :=
  match viewOf s part p with
  | .absent => s
  | .readOnly | .hidden => foreign s part p false
  | .full =>
    if waitsLatch s p off then
      let s := holdWrite s p off data
      if classOf s.var p = some .ch then s.fset p F.CH_STAT_WRITE_PENDING 1 else s
    else writeNow (if classOf s.var p = some .ch then flushHeld s p else s) part p off data

/-- REGISTER_WRITE (R77, R79): HIU drops a doubleword whose byte enables are not all set. -/
def execRegisterWrite (part page off : Nat) (be : BitVec 4) (data : Word) (s : State) : Host.Outcome State Fault Refusal :=
  nxt <| hostReady s fun s => if be ≠ 0xF ∨ off % 4 ≠ 0 ∨ 4096 ≤ off then s else regWrite s part page off data

/-- PG_CTRL as the next write finds it: the word held for the latch phase, or the register. -/
def ctrlWord (s : State) (p : Nat) : Word :=
  match (s.page p).heldWrites.find? fun h => h.1 = 0x08 with
  | some h => h.2 &&& 7
  | none => s.reg p 0x08 &&& 7

/-- A write of PG_CTRL that changes one bit. -/
def ctrlBit (s : State) (part p bit v : Nat) : State := hostReady s fun s => regWrite s part p 0x08 (putBits (ctrlWord s p) bit 1 v)

/-- PG_CTRL_ENABLE (R82). -/
def execPgCtrlEnable (part page : Nat) (on : Bool) (s : State) : Host.Outcome State Fault Refusal :=
  nxt (ctrlBit s part page 0 (b2n on))

/-- PG_CTRL_QUIESCE (R82). -/
def execPgCtrlQuiesce (part page : Nat) (on : Bool) (s : State) : Host.Outcome State Fault Refusal :=
  nxt (ctrlBit s part page 1 (b2n on))

/-- IN_SERVICE_CLEAR (R155). -/
def execInServiceClear (part page : Nat) (s : State) : Host.Outcome State Fault Refusal := nxt (ctrlBit s part page 2 0)

/-- IN_SERVICE_SET (R155). -/
def execInServiceSet (part page : Nat) (s : State) : Host.Outcome State Fault Refusal := nxt (ctrlBit s part page 2 1)

/-- SOFT_RESET (R83). -/
def execSoftReset (part page : Nat) (s : State) : Host.Outcome State Fault Refusal := nxt (ctrlBit s part page 3 1)

/-- PG_IRQ_FORCE (R82). -/
def execPgIrqForce (part page : Nat) (bits : Word) (s : State) : Host.Outcome State Fault Refusal :=
  nxt (hostReady s fun s => regWrite s part page 0x18 bits)

/-- PG_ERR_CLR (R85). -/
def execPgErrClr (part page : Nat) (data : Word) (s : State) : Host.Outcome State Fault Refusal :=
  nxt (hostReady s fun s => regWrite s part page 0x30 data)

/-- PG_LOCK (R91). -/
def execPgLock (part page : Nat) (data : Word) (s : State) : Host.Outcome State Fault Refusal :=
  nxt (hostReady s fun s => regWrite s part page 0x34 data)

/-! ### Reads that give 0 -/

/-- What a foreign read names is foreign to the partition (R87, R90, Table 4.7), and how PART_FOREIGN shows it. -/
def foreignNamed (s : State) (part : Nat) : ForeignRead → Option (Nat × Bool)
  | .page p => if viewOf s part p = .hidden then some (p, false) else none
  | .qpRegs q => if q < 2048 ∧ (viewOf s part (qpPage q) = .full ∨ viewOf s part (qpPage q) = .readOnly) ∧ ¬ qpReach s part q then some (qpPage q, false) else none
  | .bar2 q => if q < 2048 ∧ qpOwner s q ≠ some part then some (q, true) else none

/-- FOREIGN_READ (R87, R89, R90): the read returns 0 and is counted. -/
def execForeignRead (part : Nat) (what : ForeignRead) (s : State) : Host.Outcome State Fault Refusal :=
  nxt <| hostReady s fun s => match foreignNamed s part what with
    | some (last, bar2) => hostNote (foreign s part last bar2) (.readData part 0)
    | none => s

/-- ISLAND_NO_ANSWER (R80): a read completes with 0 and a write is dropped. HIU answers by itself an access that does not reach the
page's island (DEDUCED, assumption 31). -/
def execIslandNoAnswer (part page : Nat) (read : Bool) (s : State) : Host.Outcome State Fault Refusal :=
  nxt <| hostReady s fun s =>
    let reaches : Bool := match viewOf s part page with
      | .full => true
      | .readOnly => read
      | .hidden | .absent => false
    if reaches then
      let s := capture s pgChip 0x0301 part page
      if read then hostNote s (.readData part 0) else s
    else s

end Sys2Proof.Machine
end

