-- ==== Sys2Proof/Machine/Boot.lean ====
section
/-! DEFINITION. Power-on and the boot stages (chapter 19). -/

namespace Sys2Proof.Machine

/-- CHIP_BOOT.STAGE (Table 19.4). -/
def bootStage (s : State) : Nat := s.fget pgChip F.CHIP_BOOT_STAGE
def setStage (s : State) (n : Nat) : State := s.fset pgChip F.CHIP_BOOT_STAGE n

/-- A stage follows the one before it; nothing goes on while the device is hot (R574) or off (DESIGN CHOICE, assumption 80). -/
def bootFrom (s : State) (stage : Nat) (k : State → State) : State :=
  if bootStage s = stage ∧ powered s ∧ ¬ s.power.hot then k s else s

/-! ### Power -/

/-- PWR_EN_RAISE (R613). -/
def execPwrEnRaise (s : State) : Host.Outcome State Fault Refusal :=
  nxt (if s.boot.loupeUp ∧ ¬ s.power.off then { s with boot := { s.boot with pwrEn := true } } else s)

/-- CORE_PG_RISE (R613, R614): the board enables the core rails while PWR_EN is high. -/
def execCorePgRise (s : State) : Host.Outcome State Fault Refusal :=
  nxt (if s.boot.pwrEn then { s with boot := { s.boot with corePg := true } } else s)

/-- PLAN_REF_LOCK (R614, R620): the PTB counts from 0, and the boot begins, with every register of the islands on the core rails at its reset
value and each pair as its island's reset leaves it. -/
def execPlanRefLock (s : State) : Host.Outcome State Fault Refusal :=
  nxt <|
    if s.boot.corePg ∧ ¬ s.time.running then
      let s := { s with time := { running := true }, regs := s.regs.filter fun k => keptPage (k.1 / 4096) }
      setStage (eachIn (List.range s.var.pwmPairs) pairAfterReset s) 1
    else s

/-- A flash command that is cut off leaves its sector as it was left: a free value (R660, assumption 1). -/
def flashCut (s : State) : State :=
  match s.rtu.cmd with
  | none => s
  | some c =>
    let sec := match c with
      | .erase k | .program k _ => k
    let s := flashPut s sec ((List.range 4096).map (Config.flashLeft s.freeCtr))
    { s with rtu := { s.rtu with cmd := none }, freeCtr := s.freeCtr + 1 }

/-- The core rails leave their range (R615): the islands on them are reset, the Loupe has raised its stop, and time stands still. A port keeps
nothing but its PRES_N pin (DEDUCED, assumption 83). -/
def coreLost (s : State) : State :=
  let s := wdtWait (wholeStop s 18)
  let s := coreReset (flashCut { s with time := {} })
  let s := { s with
    clnk := { ports := s.clnk.ports.mapVal fun _ x => { presN := x.presN, sent := x.sent } }
    power := { s.power with adjusted := none }
    tku := { s.tku with lastStrobe := none }
    jtag := { s.jtag with pageAt := none, pageBytes := [], pageFull := false }
    boot := { pwrEn := s.boot.pwrEn, loupeUp := s.boot.loupeUp } }
  (s.setReg pgRst F.RST_KEEP_VALUE.off 0).fset pgRst F.RST_CAUSE_CAUSE 0

/-- CORE_PG_FALL (R615, R660). -/
def execCorePgFall (s : State) : Host.Outcome State Fault Refusal :=
  nxt (if s.boot.corePg then coreLost s else s)

/-! ### FILL and DISCOVER -/

/-- FILL (R521, R620): every SRAM region is zero-filled; HOLD_RESET keeps the device at RESET (Table 20.13a). -/
def execFill (s : State) : Host.Outcome State Fault Refusal :=
  nxt <| bootFrom s 1 fun s =>
    if s.jtag.hold then s else setStage { s with facet := { s.facet with tiles := [] } } 2

/-- A port as its island leaves reset (R384, R632): the halts that stand, and a limb that is plugged in is detected (DEDUCED, assumption 81). -/
def portStart (s : State) (p : Nat) : State :=
  let s := haltsAfterReset s p
  if (portGet s p).presN then s else toDetect s p

/-- DISCOVER (R537, R538, R620, R632): the RTU reads SFDP once a flash command in progress has ended (R554), and the other islands start. -/
def execDiscover (sfdp : Option (Nat × Nat)) (s : State) : Host.Outcome State Fault Refusal :=
  nxt <| bootFrom s 2 fun s =>
    if s.rtu.cmd.isSome then s
    else
      let s := rtuDiscover (setStage s 3) sfdp
      if s.clnk.resetting.isSome then s else eachIn (List.range s.var.clnkPorts) portStart s

/-! ### IMAGE -/

/-- Copy reasons (Table 19.3). -/
abbrev copyOk : Nat := 0
abbrev copyRead : Nat := 1
abbrev copyFormat : Nat := 2
abbrev copyRootUnset : Nat := 3
abbrev copyKey : Nat := 4
abbrev copySignature : Nat := 5
abbrev copyPreload : Nat := 6

/-- A number in the flash from an address. -/
def flashNat (s : State) (a n : Nat) : Nat := leNat (flashBytes s a n)

/-- LENGTH and PRELOAD_COUNT of the copy at an address. -/
def copyLength (s : State) (a : Nat) : Nat := flashNat s (a + 0x0C) 4
def copyCount (s : State) (a : Nat) : Nat := flashNat s (a + 0x1C) 2

/-- RSV bytes of the header (Table 19.1): first offset and count. -/
def copyRsv : List (Nat × Nat) := [(0x06, 2), (0x15, 3), (0x1E, 2), (0x60, 0x20), (0xC0, 0x40)]

/-- The words of preload record `k`. -/
def copyRecord (s : State) (a k : Nat) : Nat × Nat := (flashNat s (a + 256 + 8 * k) 4, flashNat s (a + 260 + 8 * k) 4)

/-- The format check, the RSV byte of each record among it (DEDUCED, assumption 82). -/
def copyFormatOk (s : State) (a : Nat) : Bool :=
  let n := copyCount s a
  flashNat s a 4 == 0x4F424C45 && flashNat s (a + 4) 2 == 1 && copyLength s a == 256 + 8 * n && decide (copyLength s a ≤ 65536)
    && copyRsv.all (fun r => flashNat s (a + r.1) r.2 == 0)
    && (List.range n).all fun k => (copyRecord s a k).1 / 2 ^ 24 == 0

/-- The key check (R616, Table 19.3). The hash in the fuses is little-endian (R7). -/
def copyKeyOk (s : State) (a : Nat) : Bool :=
  leNat (sha256 (flashBytes s (a + 0x20) 64)) == s.fuses.rootHash.toNat && p256On (flashNat s (a + 0x20) 32) (flashNat s (a + 0x40) 32)

/-- The bytes that the signature covers (R616). -/
def copySigned (s : State) (a : Nat) : List Byte :=
  flashBytes s a 0x80 ++ List.replicate 64 0 ++ flashBytes s (a + 0xC0) (copyLength s a - 0xC0)

/-- The signature verifies (R616); the digest is a big-endian number, as ECDSA takes it. -/
def copySigOk (s : State) (a : Nat) : Bool :=
  ecdsaVerify (leNat (sha256 (copySigned s a)).reverse) (flashNat s (a + 0x80) 32) (flashNat s (a + 0xA0) 32)
    (flashNat s (a + 0x20) 32) (flashNat s (a + 0x40) 32)

/-- Registers that a preload may name (Table 19.2): page, first and last offset. -/
def preloadRegs : List (Nat × Nat × Nat) :=
  [(0x008, 0x040, 0x040), (0x004, 0x05C, 0x078), (0x005, 0x058, 0x05C), (0x005, 0x080, 0x09C), (0x005, 0x0A0, 0x0A4),
   (0x005, 0x0C0, 0x13C), (0x005, 0x1C0, 0x1C4), (0x005, 0x1D0, 0x1D0), (0x088, 0x100, 0x2FC)]

/-- A record keeps R617. -/
def preloadOk (w0 : Nat) : Bool :=
  let off := w0 % 2 ^ 12
  let page := w0 / 2 ^ 12 % 2 ^ 12
  off % 4 == 0 && preloadRegs.any fun r => r.1 == page && decide (r.2.1 ≤ off) && decide (off ≤ r.2.2)

/-- The reason of the copy at an address (R618). -/
def copyReason (s : State) (a : Nat) (read : Bool) : Nat :=
  if ¬ s.fbit pgRtu F.RTU_INFO_SFDP_OK ∨ ¬ read then copyRead
  else if ¬ copyFormatOk s a then copyFormat
  else if s.fuses.rootHash = 0 then copyRootUnset
  else if ¬ copyKeyOk s a then copyKey
  else if ¬ copySigOk s a then copySignature
  else if (List.range (copyCount s a)).all fun k => preloadOk (copyRecord s a k).1 then copyOk
  else copyPreload

/-- The boot copy at an address (Table 19.1). -/
def copyAt (s : State) (a : Nat) : BootCopy :=
  { version := flashNat s (a + 8) 4, storeBase := flashNat s (a + 0x10) 2, storeSize := flashNat s (a + 0x12) 2,
    resumeObj := flashNat s (a + 0x14) 1, vendor := flashNat s (a + 0x18) 2, subsys := flashNat s (a + 0x1A) 2,
    preloads := (List.range (copyCount s a)).map fun k =>
      let r := copyRecord s a k
      (r.1 / 2 ^ 12 % 2 ^ 12, r.1 % 2 ^ 12, BitVec.ofNat 32 r.2) }

/-- The boot copy of two reasons (R619). -/
def copyChosen (s : State) (ra rb : Nat) : Option BootCopy :=
  let a := copyAt s 0
  let b := copyAt s 0x10000
  if ra = copyOk then (if rb = copyOk ∧ a.version < b.version then some b else some a)
  else if rb = copyOk then some b else none

/-- IMAGE (R618, R619): both copies are read and checked; `readA` and `readB` say that their reads succeed. -/
def execImage (readA readB : Bool) (s : State) : Host.Outcome State Fault Refusal :=
  nxt <| bootFrom s 3 fun s =>
    let ra := copyReason s 0 readA
    let rb := copyReason s 0x10000 readB
    let copy := copyChosen s ra rb
    let c := copy.getD {}
    let s := { s with boot := { s.boot with copy := copy } }
    let s := ((setStage s 4).fset pgChip F.CHIP_BOOT_FAIL_A ra).fset pgChip F.CHIP_BOOT_FAIL_B rb
    let s := s.fset pgChip F.CHIP_BOOT_IMAGE_VERIFIED (b2n copy.isSome)
    (s.fset pgRtu F.RTU_AREA_BASE c.storeBase).fset pgRtu F.RTU_AREA_SIZE c.storeSize

/-! ### PRELOAD, HOST_READY and STORE_DONE -/

/-- PRELOAD (R617, R633): the records are applied as P0 writes, in order. -/
def execPreload (s : State) : Host.Outcome State Fault Refusal :=
  nxt <| bootFrom s 4 fun s =>
    eachIn ((s.boot.copy.getD {}).preloads) (fun s r => writeNow s 0 r.1 r.2.1 r.2.2) (setStage s 5)

/-- HOST_READY (R553, R622). -/
def execHostReady (s : State) : Host.Outcome State Fault Refusal :=
  nxt <| bootFrom s 5 fun s =>
    let s := setStage s 6
    rtuBegin { s with host := { s.host with crs := false } }

/-- The KEEP word of the resume object, where it resumes (R623). -/
def resumeKeep (s : State) : Option Word :=
  let obj := (s.boot.copy.getD {}).resumeObj
  match s.rtu.store with
  | none => none
  | some st =>
    match st.objs.find? obj with
    | none => none
    | some o =>
      let (bs, ok) := readRecords s obj o.data 0 o.len []
      if storeState s = stReady ∧ obj ≠ 0 ∧ o.len = 64 ∧ ok ∧ crc32 bs = o.crc ∧ leNat (bs.take 4) = 0x53504D50 ∧ o.owner = 0 then
        some (BitVec.ofNat 32 (leNat ((bs.drop 0x14).take 4)))
      else none

/-- STORE_DONE (R623): the resume object is read at power-on only. -/
def execStoreDone (s : State) : Host.Outcome State Fault Refusal :=
  nxt <| bootFrom s 6 fun s =>
    if storeState s = stRecovering then s
    else
      let s := setStage s 7
      if ¬ s.boot.powerOn then s
      else match resumeKeep s with
        | none => s
        | some keep =>
          let s := s.fset pgRst F.RST_CAUSE_CAUSE 1
          if s.boot.keepWritten then s else s.setReg pgRst F.RST_KEEP_VALUE.off keep

end Sys2Proof.Machine
end

