-- ==== Sys2Proof/Machine/Resets.lean ====
section
/-! DEFINITION. Chip-level resets from the host and the PCIe link's events (R94 to R96, R146, R622). -/

namespace Sys2Proof.Machine

/-- RST_CHIP (R94, R95). -/
def execRstChip (part : Nat) (data : Word) (s : State) : Host.Outcome State Fault Refusal :=
  nxt (hostReady s fun s => regWrite s part pgRst F.RST_CHIP_GO.off data)

/-- PERST_ASSERT (R96, R628): a chip reset; in PS2 and PS3 it is recorded as the wake (R571) (DEDUCED, assumption 32). -/
def execPerstAssert (s : State) : Host.Outcome State Fault Refusal :=
  nxt <|
    if s.host.perst then s
    else
      let sleeping := asleep s
      let wakes := (if s.power.exiting then s.fget pgPmu F.PMU_LAST_WAKE_CAUSE else 0) ||| 2 ^ 7
      let s := { s with host := { s.host with perst := true, linkUp := false } }
      if ¬ powered s then s
      else
        let s := chipReset s 3
        if sleeping then s.fset pgPmu F.PMU_LAST_WAKE_CAUSE wakes else s

/-- PERST_DEASSERT (R622): HIU begins link training, once CORE_PG is high. -/
def execPerstDeassert (s : State) : Host.Outcome State Fault Refusal :=
  nxt { s with host := { s.host with perst := false } }

/-- LINK_TRAINED (R622): the link is up; HIU answers configuration requests, with retry status until HOST_READY. WAKE# ends. -/
def execLinkTrained (s : State) : Host.Outcome State Fault Refusal :=
  nxt <|
    if s.host.perst ∨ ¬ s.boot.corePg then s
    else { s with host := { s.host with linkUp := true }, power := { s.power with wakePin := false } }

/-- PCIE_HOT_RESET (R96): signalled on a trained link. -/
def execPcieHotReset (s : State) : Host.Outcome State Fault Refusal :=
  nxt (if s.host.linkUp then chipReset s 4 else s)

/-- BME_CHANGE (R146): what is held for the function leaves in order when Bus Master Enable becomes 1, and the jobs whose CQ entries were
held leave the job table (R174); of what QE held, nothing leaves
after QE_INTERNAL (R145) (DEDUCED, assumption 17)
(DESIGN CHOICE, assumption 33). -/
def execBmeChange (fn : Nat) (on : Bool) (s : State) : Host.Outcome State Fault Refusal :=
  nxt <|
    if s.var.partitions ≤ fn ∨ ¬ s.host.linkUp ∨ s.host.crs then s
    else
      let s := { s with host := { s.host with bme := s.host.bme.set false fn on } }
      if on then
        let go := (s.host.held.get [] fn).filter fun x => !s.qe.dead || sentByPage x
        let t := { s with host := { s.host with out := go.reverse ++ s.host.out, held := s.host.held.set [] fn [] } }
        if s.qe.dead then t else heldGone t fn
      else s

end Sys2Proof.Machine
end

