-- ==== Sys2Proof/Machine/Jtag.lean ====
section
/-! DEFINITION. The test port (R652 to R655, R659). A command loads its instruction and makes one scan of the data register it selects:
`captured` is what Capture-DR loads, and the operand what Update-DR takes. -/

namespace Sys2Proof.Machine

/-- Load an instruction. One other than HOLD_RESET and DAP ends HOLD_RESET (R659) (DEDUCED, assumption 85). -/
def jtagIr (s : State) (ir captured : Nat) : State :=
  { s with jtag := { s.jtag with ir := ir, captured := captured, hold := s.jtag.hold && (ir == 0x10 || ir == 0x11) } }

/-- HOLD_RESET holds the device at RESET (Table 20.13a) (DEDUCED, assumption 86). -/
def held (s : State) : Bool := s.jtag.hold && decide (s.fget pgChip F.CHIP_BOOT_STAGE ≤ 1)

/-! ### Boundary scan -/

/-- The input cell of a ball of the boundary-scan register; the first balls are those of the West region, in its order (R652, Table 20.2). -/
abbrev ballPerstN : Nat := 0
abbrev ballPwrEn : Nat := 15
abbrev ballCorePg : Nat := 16
abbrev ballPresN : Nat := 29

/-- Levels of balls that the state holds (DEDUCED, assumption 87). -/
def ballLevels (s : State) : List (Nat × Bool) :=
  [(ballPerstN, !s.host.perst), (ballPwrEn, s.boot.pwrEn), (ballCorePg, s.boot.corePg)]
    ++ (List.range s.var.clnkPorts).map fun p => (ballPresN + p, (portGet s p).presN)

/-- The cells as they sample the balls: three a ball, of which the third is the input. A level that the state does not hold is free
(assumption 1). -/
def scanSample (s : State) : BitVec 309 × State :=
  let set := fun (x : BitVec 309) (l : Nat × Bool) =>
    let m : BitVec 309 := BitVec.ofNat 309 (2 ^ (3 * l.1 + 2))
    if l.2 then x ||| m else x &&& ~~~ m
  ((ballLevels s).foldl set (Config.scanCells s.freeCtr), { s with freeCtr := s.freeCtr + 1 })

/-- Load an instruction that selects the boundary-scan register, sample the balls and update the cells. -/
def scanLoad (s : State) (ir : Nat) (data : BitVec 309) : State :=
  let (x, s) := scanSample s
  let s := jtagIr s ir x.toNat
  { s with jtag := { s.jtag with cells := data } }

/-- EXTEST: the cells drive the balls, but for a PWM ball that the Loupe holds (R653, `pwmPin`). -/
def execExtest (cells : BitVec 309) (s : State) : Host.Outcome State Fault Refusal := nxt (scanLoad s 0x00 cells)

/-- SAMPLE_PRELOAD. -/
def execSamplePreload (cells : BitVec 309) (s : State) : Host.Outcome State Fault Refusal := nxt (scanLoad s 0x02 cells)

/-- IDCODE (R652). -/
def jtagIdcode (s : State) : Nat :=
  s.fuses.stepping / 16 % 16 * 2 ^ 28 + s.var.pick 0x0480 0x0320 0x0160 * 2 ^ 12 + 0x536 * 2 + 1

/-- IDCODE. -/
def execIdcode (s : State) : Host.Outcome State Fault Refusal := nxt (jtagIr s 0x01 (jtagIdcode s))

/-- CLAMP: the cells go on driving the balls; the bypass register captures 0. -/
def execClamp (s : State) : Host.Outcome State Fault Refusal := nxt (jtagIr s 0x03 0)

/-- HIGHZ. -/
def execHighz (s : State) : Host.Outcome State Fault Refusal := nxt (jtagIr s 0x04 0)

/-- BYPASS, or a code that is not listed. -/
def execBypass (s : State) : Host.Outcome State Fault Refusal := nxt (jtagIr s 0x3F 0)

/-! ### Reset and fuses -/

/-- HOLD_RESET (R652, R659): it keeps the boot at RESET; past that stage it takes hold at the next reset. -/
def execHoldReset (s : State) : Host.Outcome State Fault Refusal :=
  let s := jtagIr s 0x11 0
  nxt { s with jtag := { s.jtag with hold := true } }

/-- JTAG_CHIP_RESET (R652, R659). -/
def execJtagChipReset (s : State) : Host.Outcome State Fault Refusal :=
  let s := jtagIr s 0x12 0
  nxt (if powered s then chipReset s 6 else s)

/-- FUSE_READ (R655). -/
def execFuseRead (s : State) : Host.Outcome State Fault Refusal := nxt (jtagIr s 0x14 s.fuses.rootHash.toNat)

/-- FUSE_PROG (R655, R660): `tckOk` says that TCK keeps R651; where CORE_PG falls meanwhile, `cut` gives the bits that came to be programmed
(DEDUCED, assumption 89). -/
def execFuseProg (hash : BitVec 256) (tckOk : Bool) (cut : Option (BitVec 256)) (s : State) : Host.Outcome State Fault Refusal :=
  let s := jtagIr s 0x13 s.fuses.rootHash.toNat
  nxt <|
    if s.fuses.rootHash ≠ 0 ∨ ¬ s.boot.corePg ∨ ¬ tckOk then s
    else { s with fuses := { s.fuses with rootHash := hash &&& cut.getD (BitVec.allOnes 256) } }

/-! ### The debug access port -/

/-- What Capture-DR returns (R654). -/
def dapCapture (s : State) : Nat :=
  s.jtag.dapData.toNat + b2n s.jtag.dapError * 2 ^ 96 + b2n s.rtu.cmd.isSome * 2 ^ 97

/-- DAP: the debug access register is selected. -/
def execDap (s : State) : Host.Outcome State Fault Refusal := nxt (jtagIr s 0x10 (dapCapture s))

/-- An operation ends with this ERROR bit. -/
def dapEnd (s : State) (error : Bool) : State := { s with jtag := { s.jtag with dapError := error } }

/-- A read ends with data. -/
def dapRead (s : State) (d : BitVec 64) : State := { s with jtag := { s.jtag with dapError := false, dapData := d } }

/-- An operation in Update-DR while DAP is selected; it is refused where `ok` is false (R654) (DEDUCED, assumption 88). -/
def dapOp (s : State) (ok : Bool) (k : State → State) : State :=
  if s.jtag.ir ≠ 0x10 then s
  else
    let s := { s with jtag := { s.jtag with captured := dapCapture s } }
    if ok then k s else dapEnd s true

/-- A register access is accepted from HOST_READY on, at a 32-bit address. -/
def dapRegOk (s : State) (addr : Nat) : Bool := !s.host.crs && addr % 4 == 0

/-- REG_READ (R654): as P0. -/
def execRegRead (addr : Nat) (s : State) : Host.Outcome State Fault Refusal :=
  nxt <| dapOp s (dapRegOk s addr) fun s =>
    let (w, s) := regRead s 0 (addr / 4096) (addr % 4096)
    dapRead s (w.setWidth 64)

/-- REG_WRITE (R654, R659): as P0. -/
def execRegWrite (addr : Nat) (data : Word) (s : State) : Host.Outcome State Fault Refusal :=
  nxt <| dapOp s (dapRegOk s addr) fun s => dapEnd (regWrite s 0 (addr / 4096) (addr % 4096) data) false

/-- The flash operations are accepted only under HOLD_RESET, with the core rails up and no flash command in progress. -/
def dapFlashOk (s : State) : Bool := held s && s.boot.corePg && s.rtu.cmd.isNone

/-- FLASH_READ (R654). -/
def execFlashRead (addr : Nat) (s : State) : Host.Outcome State Fault Refusal :=
  nxt <| dapOp s (dapFlashOk s) fun s => dapRead s (BitVec.ofNat 64 (leNat (flashBytes s addr 8)))

/-- Place 8 bytes in the page buffer. -/
def dapPlace (s : State) (addr : Nat) (data : BitVec 64) : State :=
  let bytes := (List.range 8).foldl (fun (t : Tab Byte) k => t.set 0xFF (addr % 256 / 8 * 8 + k) (BitVec.ofNat 8 (data.toNat / 2 ^ (8 * k)))) s.jtag.pageBytes
  { s with jtag := { s.jtag with pageAt := some (addr / 256), pageBytes := bytes, pageFull := addr % 256 / 8 == 31 } }

/-- FLASH_WRITE (R654): the page is programmed when its last 8 bytes are written, or when a write names another page. -/
def execFlashWrite (addr : Nat) (data : BitVec 64) (s : State) : Host.Outcome State Fault Refusal :=
  nxt <| dapOp s (dapFlashOk s) fun s =>
    let s := if s.jtag.pageAt = some (addr / 256) then s else dapProgram s
    let s := dapPlace s addr data
    dapEnd (if s.jtag.pageFull ∧ s.rtu.cmd.isNone then dapProgram s else s) false

/-- FLASH_ERASE (R654). -/
def execFlashErase (addr : Nat) (s : State) : Host.Outcome State Fault Refusal :=
  nxt <| dapOp s (dapFlashOk s) fun s => dapEnd (rtuSet s { s.rtu with cmd := some (.erase (addr / 4096)) }) false

end Sys2Proof.Machine
end

