-- ==== Sys2Proof/Machine/Latch.lean ====
section
/-! DEFINITION. Latch phases: held host writes are taken (R19, R70), and a loop channel runs its sample from the latch to the route writes
(R287, R288). -/

namespace Sys2Proof.Machine

/-- INPUT_LATCH (R19): the held writes of SOLV and of LOOP_PIN_CFG are taken at a base-period start (R278, "LOOP global page"), and those of a
loop channel that has stopped sampling at once (R288). -/
def execInputLatch (page : Nat) (s : State) : Host.Outcome State Fault Refusal :=
  nxt <|
    if (page = pgSolv ∨ page = pgLoopG) ∧ (¬ s.time.running ∨ s.now = s.time.startTick) then flushHeld s page
    else if classOf s.var page = some .ch ∧ s.fget page F.CH_STAT_STATE < chRunning then flushHeld s page
    else s

/-- The latch of a sample: the held writes of the channel page are taken in order; with ENABLE = 0 the channel stops (R304), else its sample
runs to the route writes at S + 480 (Table 9.3) (DEDUCED, assumption 63). -/
def loopLatch (s : State) (c : Nat) (sm : Sampling) (fault : LoopFault) : State :=
  let p := pgCh + c
  let s := (flushHeld s p).fset p F.CH_STAT_WRITE_PENDING 0
  if pageOut s p then s
  else if s.fbit p F.PG_CTRL_ENABLE then latchSample s c (sm.at_ + 288) sm fault
  else chanStop (noteCodes s p sm) c (sm.at_ + 480)

/-- LOOP_LATCH (R288): cycle 0 of the sample whose instant lies 288 ticks before. -/
def execLoopLatch (chan tick : Nat) (fault : LoopFault) (s : State) : Host.Outcome State Fault Refusal :=
  nxt <| match (chanGet s chan).sampling with
    | none => s
    | some sm => if sm.at_ + 288 = tick then loopLatch (s.reach tick) chan sm fault else s

end Sys2Proof.Machine
end

