-- ==== Sys2Proof/Machine/Dispatch.lean ====
section
/-! DEFINITION. One arm per command: a direct call of its meaning. -/

namespace Sys2Proof.Machine

def exec (i : Instr) (s : State) : Host.Outcome State Fault Refusal :=
  match i with
  | .registerWrite part page off be data => Sys2Proof.Machine.execRegisterWrite part page off be data s
  | .islandNoAnswer part page read => Sys2Proof.Machine.execIslandNoAnswer part page read s
  | .ptbNowRead part => Sys2Proof.Machine.execPtbNowRead part s
  | .ptbBpnRead part => Sys2Proof.Machine.execPtbBpnRead part s
  | .pgCtrlEnable part page on => Sys2Proof.Machine.execPgCtrlEnable part page on s
  | .pgCtrlQuiesce part page on => Sys2Proof.Machine.execPgCtrlQuiesce part page on s
  | .softReset part page => Sys2Proof.Machine.execSoftReset part page s
  | .softResetDone page => Sys2Proof.Machine.execSoftResetDone page s
  | .resetTimeout page => Sys2Proof.Machine.execResetTimeout page s
  | .inServiceClear part page => Sys2Proof.Machine.execInServiceClear part page s
  | .inServiceSet part page => Sys2Proof.Machine.execInServiceSet part page s
  | .selfTestDone page pass => Sys2Proof.Machine.execSelfTestDone page pass s
  | .unitFailed page detail => Sys2Proof.Machine.execUnitFailed page detail s
  | .pgIrqForce part page bits => Sys2Proof.Machine.execPgIrqForce part page bits s
  | .pgErrClr part page data => Sys2Proof.Machine.execPgErrClr part page data s
  | .pgLock part page data => Sys2Proof.Machine.execPgLock part page data s
  | .rstChip part data => Sys2Proof.Machine.execRstChip part data s
  | .rstPart part data => Sys2Proof.Machine.execRstPart part data s
  | .perstAssert => Sys2Proof.Machine.execPerstAssert s
  | .perstDeassert => Sys2Proof.Machine.execPerstDeassert s
  | .linkTrained => Sys2Proof.Machine.execLinkTrained s
  | .pcieHotReset => Sys2Proof.Machine.execPcieHotReset s
  | .flr fn => Sys2Proof.Machine.execFlr fn s
  | .bmeChange fn on => Sys2Proof.Machine.execBmeChange fn on s
  | .basePeriodStart => Sys2Proof.Machine.execBasePeriodStart s
  | .markerArrival island delay => Sys2Proof.Machine.execMarkerArrival island delay s
  | .markerMiss island => Sys2Proof.Machine.execMarkerMiss island s
  | .syncPulseIn tick => Sys2Proof.Machine.execSyncPulseIn tick s
  | .syncPulseMissing => Sys2Proof.Machine.execSyncPulseMissing s
  | .mirrorRefresh => Sys2Proof.Machine.execMirrorRefresh s
  | .inputLatch page => Sys2Proof.Machine.execInputLatch page s
  | .crossingArrival page idx data tick => Sys2Proof.Machine.execCrossingArrival page idx data tick s
  | .scheduledCycle page idx src => Sys2Proof.Machine.execScheduledCycle page idx src s
  | .deliveryComplete n tick => Sys2Proof.Machine.execDeliveryComplete n tick s
  | .cutTick reg tick => Sys2Proof.Machine.execCutTick reg tick s
  | .releaseTick reg tick => Sys2Proof.Machine.execReleaseTick reg tick s
  | .planEpoch => Sys2Proof.Machine.execPlanEpoch s
  | .guardStart chan win => Sys2Proof.Machine.execGuardStart chan win s
  | .windowEnd chan win => Sys2Proof.Machine.execWindowEnd chan win s
  | .refresh chan op => Sys2Proof.Machine.execRefresh chan op s
  | .planOffWindow chan addr => Sys2Proof.Machine.execPlanOffWindow chan addr s
  | .push part qp slot entry => Sys2Proof.Machine.execPush part qp slot entry s
  | .sqDoorbell part qp be value otherBytes => Sys2Proof.Machine.execSqDoorbell part qp be value otherBytes s
  | .cqDoorbell part qp be value otherBytes => Sys2Proof.Machine.execCqDoorbell part qp be value otherBytes s
  | .ringReadComplete qp res => Sys2Proof.Machine.execRingReadComplete qp res s
  | .entryAdmit ue => Sys2Proof.Machine.execEntryAdmit ue s
  | .jobReady job => Sys2Proof.Machine.execJobReady job s
  | .cqEntryWrite qp => Sys2Proof.Machine.execCqEntryWrite qp s
  | .irqTimerExpiry qp => Sys2Proof.Machine.execIrqTimerExpiry qp s
  | .adminQpEnable part qp data => Sys2Proof.Machine.execAdminQpEnable part qp data s
  | .adminQpDisable part qp data => Sys2Proof.Machine.execAdminQpDisable part qp data s
  | .nop job => Sys2Proof.Machine.execNop job s
  | .qpCreate job => Sys2Proof.Machine.execQpCreate job s
  | .qpDelete job => Sys2Proof.Machine.execQpDelete job s
  | .abort job => Sys2Proof.Machine.execAbort job s
  | .partReset job => Sys2Proof.Machine.execPartReset job s
  | .partitionResetEnd part => Sys2Proof.Machine.execPartitionResetEnd part s
  | .partResetTimeout part => Sys2Proof.Machine.execPartResetTimeout part s
  | .partSetShare job => Sys2Proof.Machine.execPartSetShare job s
  | .partGrant job => Sys2Proof.Machine.execPartGrant job s
  | .partRevoke job => Sys2Proof.Machine.execPartRevoke job s
  | .partClrForeign part page => Sys2Proof.Machine.execPartClrForeign part page s
  | .partClrLog part page => Sys2Proof.Machine.execPartClrLog part page s
  | .facetTileFail tile detail => Sys2Proof.Machine.execFacetTileFail tile detail s
  | .spareLoadDone tile tick => Sys2Proof.Machine.execSpareLoadDone tile tick s
  | .spareLoadFailed tile ue => Sys2Proof.Machine.execSpareLoadFailed tile ue s
  | .lensCoreFail page core => Sys2Proof.Machine.execLensCoreFail page core s
  | .spiRead frame clocks => Sys2Proof.Machine.execSpiRead frame clocks s
  | .spiStop frame clocks => Sys2Proof.Machine.execSpiStop frame clocks s
  | .spiRelease frame clocks => Sys2Proof.Machine.execSpiRelease frame clocks s
  | .programStart tile tick => Sys2Proof.Machine.execProgramStart tile tick s
  | .slotNop tile k => Sys2Proof.Machine.execSlotNop tile k s
  | .br tile k => Sys2Proof.Machine.execBr tile k s
  | .loopSet tile k => Sys2Proof.Machine.execLoopSet tile k s
  | .waitBp tile k => Sys2Proof.Machine.execWaitBp tile k s
  | .waitBpResume tile => Sys2Proof.Machine.execWaitBpResume tile s
  | .halt tile k => Sys2Proof.Machine.execHalt tile k s
  | .specBegin tile k => Sys2Proof.Machine.execSpecBegin tile k s
  | .specCommit tile k => Sys2Proof.Machine.execSpecCommit tile k s
  | .specSquash tile k => Sys2Proof.Machine.execSpecSquash tile k s
  | .cmpEq tile k => Sys2Proof.Machine.execCmpEq tile k s
  | .cmpNe tile k => Sys2Proof.Machine.execCmpNe tile k s
  | .cmpLt tile k => Sys2Proof.Machine.execCmpLt tile k s
  | .cmpLtu tile k => Sys2Proof.Machine.execCmpLtu tile k s
  | .cmpLe tile k => Sys2Proof.Machine.execCmpLe tile k s
  | .fcmpLt tile k => Sys2Proof.Machine.execFcmpLt tile k s
  | .fcmpLe tile k => Sys2Proof.Machine.execFcmpLe tile k s
  | .fcmpEq tile k => Sys2Proof.Machine.execFcmpEq tile k s
  | .pand tile k => Sys2Proof.Machine.execPand tile k s
  | .por tile k => Sys2Proof.Machine.execPor tile k s
  | .pxor tile k => Sys2Proof.Machine.execPxor tile k s
  | .pnot tile k => Sys2Proof.Machine.execPnot tile k s
  | .pset tile k => Sys2Proof.Machine.execPset tile k s
  | .add tile k => Sys2Proof.Machine.execAdd tile k s
  | .sub tile k => Sys2Proof.Machine.execSub tile k s
  | .and tile k => Sys2Proof.Machine.execAnd tile k s
  | .or tile k => Sys2Proof.Machine.execOr tile k s
  | .xor tile k => Sys2Proof.Machine.execXor tile k s
  | .shl tile k => Sys2Proof.Machine.execShl tile k s
  | .shr tile k => Sys2Proof.Machine.execShr tile k s
  | .sar tile k => Sys2Proof.Machine.execSar tile k s
  | .mul tile k => Sys2Proof.Machine.execMul tile k s
  | .min tile k => Sys2Proof.Machine.execMin tile k s
  | .max tile k => Sys2Proof.Machine.execMax tile k s
  | .mov tile k => Sys2Proof.Machine.execMov tile k s
  | .tickRd tile k => Sys2Proof.Machine.execTickRd tile k s
  | .fadd tile k => Sys2Proof.Machine.execFadd tile k s
  | .fsub tile k => Sys2Proof.Machine.execFsub tile k s
  | .fmul tile k => Sys2Proof.Machine.execFmul tile k s
  | .fcvtI2f tile k => Sys2Proof.Machine.execFcvtI2f tile k s
  | .fcvtF2i tile k => Sys2Proof.Machine.execFcvtF2i tile k s
  | .ld tile k => Sys2Proof.Machine.execLd tile k s
  | .st tile k => Sys2Proof.Machine.execSt tile k s
  | .ldBc tile k => Sys2Proof.Machine.execLdBc tile k s
  | .send tile k => Sys2Proof.Machine.execSend tile k s
  | .recv tile k => Sys2Proof.Machine.execRecv tile k s
  | .meshDatumArrive n tick => Sys2Proof.Machine.execMeshDatumArrive n tick s
  | .mxZero tile k => Sys2Proof.Machine.execMxZero tile k s
  | .mxOuter tile k => Sys2Proof.Machine.execMxOuter tile k s
  | .mxRowout tile k => Sys2Proof.Machine.execMxRowout tile k s
  | .mxRowin tile k => Sys2Proof.Machine.execMxRowin tile k s
  | .vaddI tile k => Sys2Proof.Machine.execVaddI tile k s
  | .vsubI tile k => Sys2Proof.Machine.execVsubI tile k s
  | .vand tile k => Sys2Proof.Machine.execVand tile k s
  | .vor tile k => Sys2Proof.Machine.execVor tile k s
  | .vxor tile k => Sys2Proof.Machine.execVxor tile k s
  | .vfadd tile k => Sys2Proof.Machine.execVfadd tile k s
  | .vfsub tile k => Sys2Proof.Machine.execVfsub tile k s
  | .vfmul tile k => Sys2Proof.Machine.execVfmul tile k s
  | .vfma tile k => Sys2Proof.Machine.execVfma tile k s
  | .vfnma tile k => Sys2Proof.Machine.execVfnma tile k s
  | .vfmax tile k => Sys2Proof.Machine.execVfmax tile k s
  | .vfmin tile k => Sys2Proof.Machine.execVfmin tile k s
  | .vfabs tile k => Sys2Proof.Machine.execVfabs tile k s
  | .vredAdd tile k => Sys2Proof.Machine.execVredAdd tile k s
  | .rcp tile k => Sys2Proof.Machine.execRcp tile k s
  | .sqrt tile k => Sys2Proof.Machine.execSqrt tile k s
  | .rsqrt tile k => Sys2Proof.Machine.execRsqrt tile k s
  | .divstep tile k => Sys2Proof.Machine.execDivstep tile k s
  | .resultWriteback tile => Sys2Proof.Machine.execResultWriteback tile s
  | .ssbDrain tile => Sys2Proof.Machine.execSsbDrain tile s
  | .ftDiagRead part tile => Sys2Proof.Machine.execFtDiagRead part tile s
  | .ftDiagWrite part tile data => Sys2Proof.Machine.execFtDiagWrite part tile data s
  | .planLoad job img => Sys2Proof.Machine.execPlanLoad job img s
  | .planStop job => Sys2Proof.Machine.execPlanStop job s
  | .simgLoad job body => Sys2Proof.Machine.execSimgLoad job body s
  | .simgFree job => Sys2Proof.Machine.execSimgFree job s
  | .solvDelta job => Sys2Proof.Machine.execSolvDelta job s
  | .solvGuess job => Sys2Proof.Machine.execSolvGuess job s
  | .solvRun job => Sys2Proof.Machine.execSolvRun job s
  | .solvRead job => Sys2Proof.Machine.execSolvRead job s
  | .solvForceCold part data => Sys2Proof.Machine.execSolvForceCold part data s
  | .deltaTick slot start => Sys2Proof.Machine.execDeltaTick slot start s
  | .windowTest slot => Sys2Proof.Machine.execWindowTest slot s
  | .verdictSend slot => Sys2Proof.Machine.execVerdictSend slot s
  | .solveCheck slot => Sys2Proof.Machine.execSolveCheck slot s
  | .solveDeadline slot => Sys2Proof.Machine.execSolveDeadline slot s
  | .loopSampleInstant chan tick codes => Sys2Proof.Machine.execLoopSampleInstant chan tick codes s
  | .loopLatch chan tick fault => Sys2Proof.Machine.execLoopLatch chan tick fault s
  | .pinEdge pin edgeA edgeB => Sys2Proof.Machine.execPinEdge pin edgeA edgeB s
  | .loopTest job => Sys2Proof.Machine.execLoopTest job s
  | .loopTable job => Sys2Proof.Machine.execLoopTable job s
  | .loopRead job ue => Sys2Proof.Machine.execLoopRead job ue s
  | .pwmPeriodStart pair tick => Sys2Proof.Machine.execPwmPeriodStart pair tick s
  | .pwmCompareMatch pair tick => Sys2Proof.Machine.execPwmCompareMatch pair tick s
  | .deadTimeExpiry pair tick => Sys2Proof.Machine.execDeadTimeExpiry pair tick s
  | .tripInputActive input tick => Sys2Proof.Machine.execTripInputActive input tick s
  | .tripLatchSet input tick => Sys2Proof.Machine.execTripLatchSet input tick s
  | .tripClr part data raw => Sys2Proof.Machine.execTripClr part data raw s
  | .tripForce part data => Sys2Proof.Machine.execTripForce part data s
  | .loupePowerOnReset => Sys2Proof.Machine.execLoupePowerOnReset s
  | .loupeDead => Sys2Proof.Machine.execLoupeDead s
  | .loupeAliveRestore => Sys2Proof.Machine.execLoupeAliveRestore s
  | .loupeSourceActive src => Sys2Proof.Machine.execLoupeSourceActive src s
  | .loupeSourceInactive src => Sys2Proof.Machine.execLoupeSourceInactive src s
  | .loupeClear part data => Sys2Proof.Machine.execLoupeClear part data s
  | .recoveryWindowEnd => Sys2Proof.Machine.execRecoveryWindowEnd s
  | .loupeReq part data => Sys2Proof.Machine.execLoupeReq part data s
  | .loupeCauseClr part data => Sys2Proof.Machine.execLoupeCauseClr part data s
  | .loupeWdtFeed part value units => Sys2Proof.Machine.execLoupeWdtFeed part value units s
  | .wdtExpiry => Sys2Proof.Machine.execWdtExpiry s
  | .wdtHalf => Sys2Proof.Machine.execWdtHalf s
  | .presNLow port => Sys2Proof.Machine.execPresNLow port s
  | .presNHigh port => Sys2Proof.Machine.execPresNHigh port s
  | .tPlugExpiry port => Sys2Proof.Machine.execTPlugExpiry port s
  | .tUnplugExpiry port => Sys2Proof.Machine.execTUnplugExpiry port s
  | .tSyncExpiry port => Sys2Proof.Machine.execTSyncExpiry port s
  | .tEnumExpiry port => Sys2Proof.Machine.execTEnumExpiry port s
  | .tBackoffExpiry port => Sys2Proof.Machine.execTBackoffExpiry port s
  | .rxSyncAcquired port => Sys2Proof.Machine.execRxSyncAcquired port s
  | .rxSyncLost port => Sys2Proof.Machine.execRxSyncLost port s
  | .relink part port data => Sys2Proof.Machine.execRelink part port data s
  | .announce port => Sys2Proof.Machine.execAnnounce port s
  | .caps port epoch record => Sys2Proof.Machine.execCaps port epoch record s
  | .ready port epoch => Sys2Proof.Machine.execReady port epoch s
  | .txSlotStart port entry tick => Sys2Proof.Machine.execTxSlotStart port entry tick s
  | .rxSlotOpen port entry tick => Sys2Proof.Machine.execRxSlotOpen port entry tick s
  | .cycUp port epoch echo cycle flags payload tick => Sys2Proof.Machine.execCycUp port epoch echo cycle flags payload tick s
  | .rxSlotClose port entry tick => Sys2Proof.Machine.execRxSlotClose port entry tick s
  | .haltRequest port tick => Sys2Proof.Machine.execHaltRequest port tick s
  | .haltWithdraw port => Sys2Proof.Machine.execHaltWithdraw port s
  | .mbxFrameSend port tick => Sys2Proof.Machine.execMbxFrameSend port tick s
  | .clnkIslandReset => Sys2Proof.Machine.execClnkIslandReset s
  | .clnkIdleHoldEnd => Sys2Proof.Machine.execClnkIdleHoldEnd s
  | .mbxOpenFrame port frame => Sys2Proof.Machine.execMbxOpenFrame port frame s
  | .openAck port frame => Sys2Proof.Machine.execOpenAck port frame s
  | .mbxData port frame => Sys2Proof.Machine.execMbxData port frame s
  | .mbxAck port frame => Sys2Proof.Machine.execMbxAck port frame s
  | .mbxCloseFrame port frame => Sys2Proof.Machine.execMbxCloseFrame port frame s
  | .closeAck port frame => Sys2Proof.Machine.execCloseAck port frame s
  | .mbxAbortFrame port frame => Sys2Proof.Machine.execMbxAbortFrame port frame s
  | .beginR port frame => Sys2Proof.Machine.execBeginR port frame s
  | .endR port frame => Sys2Proof.Machine.execEndR port frame s
  | .activateR port frame => Sys2Proof.Machine.execActivateR port frame s
  | .mbxOpen job => Sys2Proof.Machine.execMbxOpen job s
  | .mbxSend job => Sys2Proof.Machine.execMbxSend job s
  | .mbxRecv job => Sys2Proof.Machine.execMbxRecv job s
  | .mbxClose job => Sys2Proof.Machine.execMbxClose job s
  | .mbxAbort job => Sys2Proof.Machine.execMbxAbort job s
  | .fwUpdate job => Sys2Proof.Machine.execFwUpdate job s
  | .rtoExpiry port mbx seq => Sys2Proof.Machine.execRtoExpiry port mbx seq s
  | .ackTimerExpiry port mbx => Sys2Proof.Machine.execAckTimerExpiry port mbx s
  | .probeTimerExpiry port mbx => Sys2Proof.Machine.execProbeTimerExpiry port mbx s
  | .openTimerExpiry port mbx => Sys2Proof.Machine.execOpenTimerExpiry port mbx s
  | .closeTimerExpiry port mbx => Sys2Proof.Machine.execCloseTimerExpiry port mbx s
  | .leakTimerExpiry port => Sys2Proof.Machine.execLeakTimerExpiry port s
  | .mbxJobTimeout job => Sys2Proof.Machine.execMbxJobTimeout job s
  | .fwReplyTimeout job => Sys2Proof.Machine.execFwReplyTimeout job s
  | .fwRebootTimeout job => Sys2Proof.Machine.execFwRebootTimeout job s
  | .modelLoad job body => Sys2Proof.Machine.execModelLoad job body s
  | .modelUnload job => Sys2Proof.Machine.execModelUnload job s
  | .prefixFlush job => Sys2Proof.Machine.execPrefixFlush job s
  | .reqSubmit job => Sys2Proof.Machine.execReqSubmit job s
  | .rqtAllocate rqt => Sys2Proof.Machine.execRqtAllocate rqt s
  | .reqCancel job => Sys2Proof.Machine.execReqCancel job s
  | .reqPause job => Sys2Proof.Machine.execReqPause job s
  | .reqResume job => Sys2Proof.Machine.execReqResume job s
  | .reqQuery job => Sys2Proof.Machine.execReqQuery job s
  | .stepBoundary mslot heads => Sys2Proof.Machine.execStepBoundary mslot heads s
  | .idleSlotApply mslot heads => Sys2Proof.Machine.execIdleSlotApply mslot heads s
  | .pauseWriteDone rqt => Sys2Proof.Machine.execPauseWriteDone rqt s
  | .resumeRestoreDone rqt => Sys2Proof.Machine.execResumeRestoreDone rqt s
  | .pauseTtlExpiry rqt => Sys2Proof.Machine.execPauseTtlExpiry rqt s
  | .lensCoreLeave part page data => Sys2Proof.Machine.execLensCoreLeave part page data s
  | .lensCoreReturn part page data => Sys2Proof.Machine.execLensCoreReturn part page data s
  | .maskLoad job => Sys2Proof.Machine.execMaskLoad job s
  | .maskFree job => Sys2Proof.Machine.execMaskFree job s
  | .budgetRefill => Sys2Proof.Machine.execBudgetRefill s
  | .smpFill part high data => Sys2Proof.Machine.execSmpFill part high data s
  | .memCopy job => Sys2Proof.Machine.execMemCopy job s
  | .memFill job => Sys2Proof.Machine.execMemFill job s
  | .memCheck job => Sys2Proof.Machine.execMemCheck job s
  | .memInject job => Sys2Proof.Machine.execMemInject job s
  | .memcInit part => Sys2Proof.Machine.execMemcInit part s
  | .memcInitDone caps => Sys2Proof.Machine.execMemcInitDone caps s
  | .scrubPass region flips => Sys2Proof.Machine.execScrubPass region flips s
  | .patrolRead memch flips => Sys2Proof.Machine.execPatrolRead memch flips s
  | .repairWriteback queue => Sys2Proof.Machine.execRepairWriteback queue s
  | .memcClr part page => Sys2Proof.Machine.execMemcClr part page s
  | .sramClrSelected part => Sys2Proof.Machine.execSramClrSelected part s
  | .sramClrAll part => Sys2Proof.Machine.execSramClrAll part s
  | .rtuCommit job codes => Sys2Proof.Machine.execRtuCommit job codes s
  | .rtuRead job => Sys2Proof.Machine.execRtuRead job s
  | .rtuList job => Sys2Proof.Machine.execRtuList job s
  | .rtuFormat job codes => Sys2Proof.Machine.execRtuFormat job codes s
  | .flashOpDone ok flips codes => Sys2Proof.Machine.execFlashOpDone ok flips codes s
  | .holdupMeasure codes => Sys2Proof.Machine.execHoldupMeasure codes s
  | .backgroundErase => Sys2Proof.Machine.execBackgroundErase s
  | .rtuRecovery => Sys2Proof.Machine.execRtuRecovery s
  | .chooserEvaluate inL1 inD3 => Sys2Proof.Machine.execChooserEvaluate inL1 inD3 s
  | .psEntryDone => Sys2Proof.Machine.execPsEntryDone s
  | .scheduledExit => Sys2Proof.Machine.execScheduledExit s
  | .wake sources => Sys2Proof.Machine.execWake sources s
  | .psExitDone => Sys2Proof.Machine.execPsExitDone s
  | .pmuPs4 part data codes => Sys2Proof.Machine.execPmuPs4 part data codes s
  | .ps4CommitDone => Sys2Proof.Machine.execPs4CommitDone s
  | .pmuTimerFire timer => Sys2Proof.Machine.execPmuTimerFire timer s
  | .thermalSample t0 t1 t2 t3 => Sys2Proof.Machine.execThermalSample t0 t1 t2 t3 s
  | .speedAdjust => Sys2Proof.Machine.execSpeedAdjust s
  | .tkuStrobe keys dock cc0 cc1 cc2 cc3 => Sys2Proof.Machine.execTkuStrobe keys dock cc0 cc1 cc2 cc3 s
  | .touchScanEnd raws tick => Sys2Proof.Machine.execTouchScanEnd raws tick s
  | .tkuEvtRead part => Sys2Proof.Machine.execTkuEvtRead part s
  | .tkuFlush part => Sys2Proof.Machine.execTkuFlush part s
  | .tkuClrDropped part => Sys2Proof.Machine.execTkuClrDropped part s
  | .reacquire part => Sys2Proof.Machine.execReacquire part s
  | .pwrEnRaise => Sys2Proof.Machine.execPwrEnRaise s
  | .corePgRise => Sys2Proof.Machine.execCorePgRise s
  | .planRefLock => Sys2Proof.Machine.execPlanRefLock s
  | .corePgFall => Sys2Proof.Machine.execCorePgFall s
  | .fill => Sys2Proof.Machine.execFill s
  | .discover sfdp => Sys2Proof.Machine.execDiscover sfdp s
  | .image readA readB => Sys2Proof.Machine.execImage readA readB s
  | .preload => Sys2Proof.Machine.execPreload s
  | .hostReady => Sys2Proof.Machine.execHostReady s
  | .storeDone => Sys2Proof.Machine.execStoreDone s
  | .extest cells => Sys2Proof.Machine.execExtest cells s
  | .idcode => Sys2Proof.Machine.execIdcode s
  | .samplePreload cells => Sys2Proof.Machine.execSamplePreload cells s
  | .clamp => Sys2Proof.Machine.execClamp s
  | .highz => Sys2Proof.Machine.execHighz s
  | .bypass => Sys2Proof.Machine.execBypass s
  | .dap => Sys2Proof.Machine.execDap s
  | .regRead dapAddr => Sys2Proof.Machine.execRegRead dapAddr s
  | .regWrite dapAddr data => Sys2Proof.Machine.execRegWrite dapAddr data s
  | .flashRead dapAddr => Sys2Proof.Machine.execFlashRead dapAddr s
  | .flashWrite dapAddr data => Sys2Proof.Machine.execFlashWrite dapAddr data s
  | .flashErase dapAddr => Sys2Proof.Machine.execFlashErase dapAddr s
  | .holdReset => Sys2Proof.Machine.execHoldReset s
  | .jtagChipReset => Sys2Proof.Machine.execJtagChipReset s
  | .fuseProg hash tckOk cut => Sys2Proof.Machine.execFuseProg hash tckOk cut s
  | .fuseRead => Sys2Proof.Machine.execFuseRead s
  | .foreignRead part what => Sys2Proof.Machine.execForeignRead part what s
  | .rxFrameDiscarded port frame => Sys2Proof.Machine.execRxFrameDiscarded port frame s
  | .hostReadCompletion job res => Sys2Proof.Machine.execHostReadCompletion job res s
  | .vioSafeLoss => Sys2Proof.Machine.execVioSafeLoss s

end Sys2Proof.Machine
end

