-- ==== Sys2Proof/Machine/Step.lean ====
section
/-! DEFINITION. One step: the command at the front of the queue, or one idle tick. -/

namespace Sys2Proof.Machine

/-- With no command waiting the block idles for one PTB tick, where the Plan reference is locked (R36; assumption 12). -/
def idle (s : State) : State :=
  if s.time.running then { s with time := { s.time with ptb := s.time.ptb + 1 } } else s

/-- Take the command at the front of the queue and run it with the queue's rest (DESIGN CHOICE, assumption 14). -/
def step (s : State) : Host.Outcome State Fault Refusal :=
  match s.pending with
  | [] => .next (idle s)
  | c :: rest => exec c { s with pending := rest }

/-- The state with the command that a word spells put at the front of its queue; unchanged where the word spells none. -/
def State.withFetchWord (s : State) (nbits w : Nat) : State :=
  match decodeTableWord nbits w with
  | none => s
  | some c => { s with pending := c :: s.pending }

end Sys2Proof.Machine
end

