-- ==== Sys2Proof/Safety.lean ====
section
/-! DEFINITION. What counts as a well-kept state, in the terms the statements use. -/

namespace Sys2Proof.Machine

/-- The register file is in its one form: addresses rise, and no listed word is the reset value that an unlisted register reads. -/
def State.regsKept (s : State) : Bool := Tab.rising s.regs && s.regs.all fun e => e.2 != s.resetAt e.1

/-- Register file, device memory and the tiles' SRAM are each in their one form, so that equal contents are equal data. -/
def State.wf (s : State) : Bool := s.regsKept && s.mem.dram.wf && s.facet.tiles.all fun t => t.2.sram.wf

/-! ### What the statements say of a command -/

/-- Every register but the listed ones, each by page and offset, is as before. -/
def RegsOnly (ws : List (Nat × Nat)) (s t : State) : Prop :=
  ∀ page off, off < 4096 → (page, off) ∉ ws → t.reg page off = s.reg page off

/-- Every register of every page but those that `ps` holds of is as before. -/
def PagesOnly (ps : Nat → Prop) (s t : State) : Prop := ∀ page off, off < 4096 → ¬ ps page → t.reg page off = s.reg page off

/-- A partition's write to a register of a page acts: requests reach the device, the page is in the partition's full view (R87), and no
soft reset of it is in progress or abandoned (R83, R84). -/
def Writable (s : State) (part p : Nat) : Prop := s.host.crs = false ∧ viewOf s part p = .full ∧ pageBusy s p = false

/-- No enabled cause of a page is set, so that a new enabled cause requests an interrupt (R86). -/
def Quiet (s : State) (p : Nat) : Prop := s.reg p F.PG_IRQ_STAT_ERR.off &&& s.reg p F.PG_IRQ_EN.off = 0

/-- The registers an error capture on a page writes (R85), with those of its partition's log (R147). -/
def captureRegs (s : State) (p part : Nat) : List (Nat × Nat) :=
  let l := pgPart + part
  let e := 0x100 + 16 * s.fget l F.PART_LOG_STAT_NEXT
  [(p, F.PG_IRQ_STAT_ERR.off), (p, F.PG_ERR0_CODE.off), (p, F.PG_ERR1.off), (p, F.PG_ERR2.off), (p, F.PG_ERR3.off),
   (l, e), (l, e + 4), (l, e + 8), (l, e + 12), (l, F.PART_LOG_STAT_NEXT.off), (l, F.PG_IRQ_STAT_ERR.off)]

/-- What the operation in slot `k` of the Tray that a tile issues reads: its word, the literal and the tile (R182). -/
def slotCtx (s : State) (tile k : Nat) : Ctx :=
  let x := tileGet s tile
  let ws := fetchTray x tile x.next
  { i := tile, slot := k, w := ws.getD k 0, imx := ws.getD 15 0, x := x }

/-- A Tray is in progress on a tile that issues, and slot `k`, of a class, holds an operation that has not acted yet (R182). -/
def SlotRuns (s : State) (tile k : Nat) (cls : SlotClass) (op : Nat) : Prop :=
  issuing s tile = true ∧ k < 15 ∧ slotClass k = cls ∧ slotOp (slotCtx s tile k).w = op ∧ (tileGet s tile).tray.done ≠ 0 ∧
    natBit (tileGet s tile).tray.done k = false

/-- The same, and it is not the last of its Tray's 15 slots. -/
def SlotMid (s : State) (tile k : Nat) (cls : SlotClass) (op : Nat) : Prop :=
  SlotRuns s tile k cls op ∧ natPutBit (tileGet s tile).tray.done k true ≠ 0x7FFF

/-- The same as the last slot of a Tray that holds no other control action, store, send or receive, outside a branch's delay and every loop. -/
def SlotLast (s : State) (tile k : Nat) (cls : SlotClass) (op : Nat) : Prop :=
  let x := tileGet s tile
  SlotRuns s tile k cls op ∧ x.tray = { done := natPutBit 0x7FFF k false } ∧ x.delay = 0 ∧ x.target = none ∧ x.regs.nest = [] ∧
    (k = 0 ∨ slotOp (slotCtx s tile 0).w ≠ 1)

/-- A state that differs from `s` at most in tile `tile`. -/
def TileOnly (s t : State) (tile : Nat) : Prop :=
  t = { s with facet := { s.facet with tiles := t.facet.tiles } } ∧ ∀ i, i ≠ tile → tileGet t i = tileGet s i

/-- Slot `k` is done and leaves one result with these writes `lat` cycles on (none without writes); nothing else changes (R185). -/
def SlotLeaves (s t : State) (tile k lat : Nat) (ws : List FxWrite) : Prop :=
  let x := tileGet s tile
  TileOnly s t tile ∧
    tileGet t tile = { x with
      tray := { x.tray with done := natPutBit x.tray.done k true },
      results := x.results ++ if ws = [] then []
        else [{ due := x.cycle + lat, issue := x.cycle, slot := k, levels := x.levels.map (·.id), writes := ws }] }

/-- A tile after a Tray with no control action: the next Tray in the next cycle (R181, R185). -/
def trayOver (x : Tile) : Tile := { x with pc := x.next, cycle := x.cycle + 1, next := x.next + 1, tray := {} }

/-- What a load sees of a word: the SSB before SRAM (R197). -/
def wordSeen (x : Tile) (w : Nat) : Cont := (ssbLook x w).getD { val := (x.sram.raw w).1 }

/-- Every one of `n` words from `w` on stands in the SSB or is clean in SRAM. -/
def wordsGood (x : Tile) (w n : Nat) : Prop := ∀ i, i < n → (ssbLook x (w + i)).isSome = true ∨ x.sram.cls (w + i) = .clean

/-- A job's block handles it, and no reset of its partition is in progress. -/
def LiveJob (s : State) (j op : Nat) (x : Job) : Prop := startedJob s j op = some x ∧ s.part.resets.find? x.part = none

/-- Job `j` has ended with a status and a result (R113). -/
def Ends (t : State) (j : Nat) (x : Job) (status result : Nat) : Prop :=
  jobGet t j = some { x with phase := .done, status := status, result := result % 2 ^ 32, data := none }

/-- What the device sends for a partition reaches the host at once (R145, R146). -/
def HostHears (s : State) (part : Nat) : Prop := s.qe.dead = false ∧ s.host.bme.get false part = true

end Sys2Proof.Machine
end

