-- ==== Sys2Proof/Certificates/Slice0/Obligations.lean ====
section
/-! DEFINITION. The statements for the provers. -/

open Sys2Proof Sys2Proof.Machine

/-- With command `c` at the front of its queue a step answers what `exec` answers for `c` on the state with the queue's rest. -/
def Obligations.StepRunsFront : Prop :=
  ∀ c rest s, s.pending = c :: rest → step s = exec c { s with pending := rest }

/-- On an empty queue a step counts one PTB tick while the Plan reference is locked and does nothing before that. That an idle step is
one tick is the model's choice (log entry 12); that the PTB is a 64-bit count that rises by 1 is R36's. -/
def Obligations.IdleCountsOneTick : Prop :=
  ∀ s, s.pending = [] →
    (s.time.running = true → step s = .next { s with time := { s.time with ptb := s.time.ptb + 1 } }) ∧
    (s.time.running = false → step s = .next s)

/-- At reset every register reads its reset value, no command waits, no job and no queue-pair state is held, the PTB stands at 0 and does
not count, no plan is in force, no byte of DRAM or of a tile's SRAM is listed, nothing has been sent to the host and no Bus Master Enable is
set, every request table, session and channel is empty, and both flash copies are erased. That the hidden state is empty is the model's
choice where the spec gives no value (log entry 3). -/
def Obligations.ResetState : Prop :=
  (∀ p o, State.reset.reg p o = State.reset.resetAt (p * 4096 + o)) ∧
  State.reset.pending = [] ∧ State.reset.qe.jobs = [] ∧ (∀ q, 16 ≤ q → (qpGet State.reset q).state = .free) ∧
  (∀ q, q < 16 → (qpGet State.reset q).state = .disabled) ∧
  State.reset.time.ptb = 0 ∧ State.reset.time.running = false ∧ State.reset.time.plan = none ∧
  State.reset.mem.dram = {} ∧ (∀ i, (tileGet State.reset i).sram = {}) ∧
  State.reset.host.out = [] ∧ (∀ fn, State.reset.host.bme.get false fn = false) ∧
  State.reset.fuses.variant = .el480

/-- At reset the register file, device memory and the tiles' SRAM are in their one form. -/
def Obligations.ResetWellKept : Prop := State.reset.wf = true

/-- From every state that is well kept, a step that answers a next state answers one that is well kept. Whatever the state, that step takes
exactly the front command off the queue, never changes the variant, the die identifier or the stepping, takes back nothing that was sent to
the host, and never draws a free value a second time. -/
def Obligations.StepKeepsForm : Prop :=
  ∀ s t, step s = .next t →
    (s.wf = true → t.wf = true) ∧ t.pending = s.pending.tail ∧
    t.fuses.variant = s.fuses.variant ∧ t.fuses.uid = s.fuses.uid ∧ t.fuses.stepping = s.fuses.stepping ∧
    (∃ sent, t.host.out = sent ++ s.host.out) ∧ s.freeCtr ≤ t.freeCtr

/-- No command stops the block: for every command and every state `exec` answers a next state, never a fault and never a refusal. An error is
state: a capture, a status code, a stop of the robot. -/
def Obligations.NoCommandStops : Prop := ∀ c s, ∃ t, exec c s = .next t

/-- Registers are held by page and byte offset below 4096: giving one a word makes it read that word and leaves every other register as it
was, and giving a field a value makes the field read it, modulo its width, and leaves the fields beside it as they were. -/
def Obligations.RegisterWriteIsOneRegister : Prop :=
  (∀ s p o w, o < 4096 → (State.setReg s p o w).reg p o = w ∧ RegsOnly [(p, o)] s (s.setReg p o w)) ∧
  (∀ s p f v, f.off < 4096 → f.lo + f.wid ≤ 32 →
    (State.fset s p f v).fget p f = v % 2 ^ f.wid ∧ RegsOnly [(p, f.off)] s (s.fset p f v) ∧
    ∀ g : Fld, g.off = f.off → (g.lo + g.wid ≤ f.lo ∨ f.lo + f.wid ≤ g.lo) → (s.fset p f v).fget p g = s.fget p g)

/-- An error event on page `p`, charged to partition `part`: with no capture held, PG_ERR0 to PG_ERR3 take its code, partition, time and detail
and the ERR cause is set; with one held, PG_ERR0 only gains MORE. Either way the event enters the log of the partition: the entry under NEXT
takes the code and the page, and NEXT moves on by one around 16 entries. Nothing but those registers and what goes to the host changes. -/
def Obligations.CaptureRecords : Prop :=
  ∀ s p code part detail, code < 2 ^ 16 → p < 2 ^ 14 → part < 16 →
    let t := capture s p code part detail
    let e := 0x100 + 16 * s.fget (pgPart + part) F.PART_LOG_STAT_NEXT
    t = { s with regs := t.regs, host := t.host } ∧ RegsOnly (captureRegs s p part) s t ∧
    (s.fbit p F.PG_ERR0_VALID = false →
      t.fget p F.PG_ERR0_VALID = 1 ∧ t.fget p F.PG_ERR0_CODE = code ∧ t.fget p F.PG_ERR0_PARTITION = part ∧ t.fget p F.PG_ERR0_MORE = 0 ∧
      t.reg64 p F.PG_ERR1.off F.PG_ERR2.off = stampOf s p code % 2 ^ 64 ∧ t.reg p F.PG_ERR3.off = BitVec.ofNat 32 detail ∧
      t.fget p F.PG_IRQ_STAT_ERR = 1) ∧
    (s.fbit p F.PG_ERR0_VALID = true →
      t.fget p F.PG_ERR0_MORE = 1 ∧ t.fget p F.PG_ERR0_CODE = s.fget p F.PG_ERR0_CODE ∧ t.reg p F.PG_ERR3.off = s.reg p F.PG_ERR3.off) ∧
    t.reg (pgPart + part) e = BitVec.ofNat 32 (code + p * 2 ^ 16) ∧ t.reg (pgPart + part) (e + 4) = BitVec.ofNat 32 detail ∧
    t.fget (pgPart + part) F.PART_LOG_STAT_NEXT = (s.fget (pgPart + part) F.PART_LOG_STAT_NEXT + 1) % 16

/-- Whether or not page `p` holds a capture, an error event charged to partition `part` is appended to that partition's log: the entry under
NEXT takes it and NEXT moves on around the 16 entries. While fewer than 16 are held, HELD rises by one and LOST stands; with 16 held, the
new entry takes the place of the oldest, which NEXT is at, HELD stands and LOST rises by one up to the top of its field. A device-internal
event is one with partition 0. -/
def Obligations.LogTakesEveryEvent : Prop :=
  ∀ s p code part detail, code < 2 ^ 16 → p < 2 ^ 14 → part < 16 →
    let t := capture s p code part detail
    let l := pgPart + part
    let e := 0x100 + 16 * s.fget l F.PART_LOG_STAT_NEXT
    t.reg l e = BitVec.ofNat 32 (code + p * 2 ^ 16) ∧ t.reg l (e + 4) = BitVec.ofNat 32 detail ∧
    t.reg64 l (e + 8) (e + 12) = stampOf s p code % 2 ^ 64 ∧
    t.fget l F.PART_LOG_STAT_NEXT = (s.fget l F.PART_LOG_STAT_NEXT + 1) % 16 ∧
    (s.fget l F.PART_LOG_STAT_HELD < 16 →
      t.fget l F.PART_LOG_STAT_HELD = s.fget l F.PART_LOG_STAT_HELD + 1 ∧ t.fget l F.PART_LOG_STAT_LOST = s.fget l F.PART_LOG_STAT_LOST) ∧
    (16 ≤ s.fget l F.PART_LOG_STAT_HELD →
      t.fget l F.PART_LOG_STAT_HELD = s.fget l F.PART_LOG_STAT_HELD ∧
      t.fget l F.PART_LOG_STAT_LOST = min (s.fget l F.PART_LOG_STAT_LOST + 1) 0xFFFF)

/-- Setting causes on a page ORs them into PG_IRQ_STAT and changes no other register. When the enabled causes were all clear and are not
any more, one interrupt message goes to the function and vector that Table 5.5 gives the page: at once where that function's Bus Master
Enable is 1, else behind what is held for it. After QE_INTERNAL the messages of QE's own pages do not leave (that the others do is the
model's reading, assumption 45). In every other case nothing goes to the host. -/
def Obligations.InterruptRequested : Prop :=
  ∀ s p bits,
    let old := s.reg p F.PG_IRQ_STAT_ERR.off
    let new := old ||| BitVec.ofNat 32 bits
    let en := s.reg p F.PG_IRQ_EN.off
    let t := pageIrq s p bits
    let dst := irqTarget s p (irqBit s p (new &&& en))
    let tx := pageMessage s p dst.1 dst.2
    t = { s with regs := t.regs, host := t.host } ∧ RegsOnly [(p, F.PG_IRQ_STAT_ERR.off)] s t ∧ t.reg p F.PG_IRQ_STAT_ERR.off = new ∧
    (¬ (old &&& en = 0 ∧ new &&& en ≠ 0) → t.host = s.host) ∧
    (old &&& en = 0 → new &&& en ≠ 0 →
      (s.qe.dead = true → sentByPage tx = false → t.host = s.host) ∧
      (s.qe.dead = false ∨ sentByPage tx = true →
        (s.host.bme.get false dst.1 = true → t.host = { s.host with out := tx :: s.host.out }) ∧
        (s.host.bme.get false dst.1 = false →
          t.host = { s.host with held := s.host.held.set [] dst.1 (s.host.held.get [] dst.1 ++ [tx]) })))

/-- A partition's read of PTB_NOW_LO or PTB_BPN_LO, once requests reach the device, answers bits 31:0 of the count to that partition and captures
bits 63:32 for that partition alone; nothing else changes. -/
def Obligations.TimeReadsCapture : Prop :=
  ∀ s part, s.host.crs = false →
    (∃ t, exec (.ptbNowRead part) s = .next t ∧ t = { s with time := { s.time with capNow := t.time.capNow }, host := t.host } ∧
      t.time.capNow.get 0 part = s.time.ptb.extractLsb' 32 32 ∧
      (∀ n, n ≠ part → t.time.capNow.get 0 n = s.time.capNow.get 0 n) ∧
      t.host = { s.host with out := .readData part (s.time.ptb.extractLsb' 0 32) :: s.host.out }) ∧
    (∃ t, exec (.ptbBpnRead part) s = .next t ∧ t = { s with time := { s.time with capBpn := t.time.capBpn }, host := t.host } ∧
      t.time.capBpn.get 0 part = s.time.bpn.extractLsb' 32 32 ∧
      (∀ n, n ≠ part → t.time.capBpn.get 0 n = s.time.capBpn.get 0 n) ∧
      t.host = { s.host with out := .readData part (s.time.bpn.extractLsb' 0 32) :: s.host.out })

/-- While the PTB counts and no unit waits to join: BASE_PERIOD_START moves the start tick on by one period, the PTB to it when it is
behind, the base-period number by one, and sends a sync pulse exactly from a master. MARKER_ARRIVAL after at most 64 ticks sets the copy of a
built island, awake, to the start tick plus 12 at the arrival, makes it valid and clears its run of misses; no other copy changes, and a step
of more than 2 ticks of a valid copy is captured. MARKER_MISS is captured on the island's page; a second in a row captures too and takes the
island's unit out of service. -/
def Obligations.BasePeriodAndMarkers : Prop :=
  ∀ s, s.time.running = true →
    ((∀ i, i < s.var.facetTiles → (s.page (pgFt + i)).joining = false) →
      ∃ t, exec .basePeriodStart s = .next t ∧ t = { s with time := t.time } ∧
        t.time.startTick = s.time.startTick + s.time.period ∧ t.time.bpn = s.time.bpn + 1 ∧
        (s.now < s.time.startTick + s.time.period → t.time.ptb = BitVec.ofNat 64 (s.time.startTick + s.time.period)) ∧
        (s.time.startTick + s.time.period ≤ s.now → t.time.ptb = s.time.ptb) ∧
        t.time.syncOut = s.time.syncOut + (if s.fget pgPtb F.PTB_SYNC_CTRL_MODE = 1 then 1 else 0)) ∧
    (∀ i (delay : Nat), asleep s = false → islandBuilt s i = true → delay ≤ 64 → (s.time.copies.get {} i).marked ≠ some s.time.startTick →
      let c := s.time.copies.get {} i
      let off : Int := 12 - (delay : Int)
      let step := off - c.off
      ∃ t, exec (.markerArrival i delay) s = .next t ∧
        t.time.copies.get {} i = { off := off, valid := true, misses := 0, marked := some s.time.startTick, missed := none } ∧
        (∀ k, k ≠ i → t.time.copies.get {} k = s.time.copies.get {} k) ∧
        (c.valid = false ∨ (-2 ≤ step ∧ step ≤ 2) → t = { s with time := t.time }) ∧
        (c.valid = true → (2 < step ∨ step < -2) → s.fbit (islandPage i) F.PG_ERR0_VALID = false →
          t.fget (islandPage i) F.PG_ERR0_CODE = 0x0F00 ∧ t.fget (islandPage i) F.PG_ERR0_VALID = 1)) ∧
    (∀ i, asleep s = false → islandBuilt s i = true → (s.time.copies.get {} i).valid = true →
      (s.time.copies.get {} i).marked ≠ some s.time.startTick → (s.time.copies.get {} i).missed ≠ some s.time.startTick →
      s.fbit (islandPage i) F.PG_STAT_OUT_OF_SERVICE = false →
      let c := s.time.copies.get {} i
      let u := { s.reach ((s.time.startTick : Int) + 64 - c.off).toNat with
        time := { (s.reach ((s.time.startTick : Int) + 64 - c.off).toNat).time with
          copies := s.time.copies.set {} i { c with misses := c.misses + 1, missed := some s.time.startTick } } }
      (c.misses = 0 → exec (.markerMiss i) s = .next (capture u (islandPage i) 0x0F01 0 0)) ∧
      (1 ≤ c.misses → i < 68 → exec (.markerMiss i) s = .next (tileFail (capture u (islandPage i) 0x0F01 0 0) i 0)) ∧
      (1 ≤ c.misses → 68 ≤ i → exec (.markerMiss i) s = .next (islandFail (capture u (islandPage i) 0x0F01 0 0) i 0)))

/-- A follower (PTB_SYNC_CTRL.MODE 2) that sees a pulse shows PULSE_SEEN and the offset of the pulse from the nearest base-period start, cut to a
signed byte, keeps the pulse's tick, and takes as the next epoch tick the pulse plus the board delay. Before it has placed an epoch the pulse is
not checked and no other register changes; a checked pulse more than 4 ticks off is lost, as is a window with no pulse in it: SYNC_LOST is
captured on the PTB page and counted, and cause 0 is set. In another mode a pulse changes nothing but the time. -/
def Obligations.SyncPulses : Prop :=
  ∀ s tick,
    (s.fget pgPtb F.PTB_SYNC_CTRL_MODE = 2 →
      let d := syncOffset s tick
      ∃ u, u = { s with regs := u.regs, time := u.time } ∧ RegsOnly [(pgPtb, F.PTB_SYNC_STAT_PULSE_SEEN.off)] s u ∧
        u.fget pgPtb F.PTB_SYNC_STAT_PULSE_SEEN = 1 ∧
        (-128 ≤ d → d ≤ 127 → toSigned 8 (u.fget pgPtb F.PTB_SYNC_STAT_OFFSET) = d) ∧
        u.fget pgPtb F.PTB_SYNC_STAT_LOST_COUNT = s.fget pgPtb F.PTB_SYNC_STAT_LOST_COUNT ∧
        u.time.syncSeen = some tick ∧ u.time.syncEpoch = some (tick + s.fget pgPtb F.PTB_SYNC_CTRL_BOARD_DELAY) ∧
        (s.time.syncCheck = false ∨ (-4 ≤ d ∧ d ≤ 4) → exec (.syncPulseIn tick) s = .next u) ∧
        (s.time.syncCheck = true → (4 < d ∨ d < -4) → exec (.syncPulseIn tick) s = .next (syncLost u))) ∧
    (s.fget pgPtb F.PTB_SYNC_CTRL_MODE ≠ 2 →
      exec (.syncPulseIn tick) s = .next (s.reach tick) ∧ exec .syncPulseMissing s = .next s) ∧
    (s.fget pgPtb F.PTB_SYNC_CTRL_MODE = 2 → s.time.syncCheck = true → s.time.syncSeen = none → s.time.running = true →
      ∃ edge, exec .syncPulseMissing s = .next (syncLost (s.reach edge))) ∧
    (s.fbit pgPtb F.PG_ERR0_VALID = false →
      (syncLost s).fget pgPtb F.PG_ERR0_CODE = 0x0F06 ∧ (syncLost s).fget pgPtb F.PG_ERR0_VALID = 1 ∧
      (syncLost s).reg pgPtb F.PG_IRQ_STAT_ERR.off &&& 1 = 1 ∧
      (syncLost s).fget pgPtb F.PTB_SYNC_STAT_LOST_COUNT = min (s.fget pgPtb F.PTB_SYNC_STAT_LOST_COUNT + 1) (2 ^ F.PTB_SYNC_STAT_LOST_COUNT.wid - 1))

/-- On a Plan page: CROSSING_ARRIVAL puts the datum in its landing buffer. SCHEDULED_CYCLE gives the consumer the datum that waits and empties
the buffer, with nothing else changed. With none there, the consumer takes poison and the page captures CROSSING_LATE; but where the source
is a lost position, the consumer takes a datum marked lost, which is not poison, and nothing is captured. -/
def Obligations.CrossingsAreTakenOnce : Prop :=
  ∀ s page idx c, classOf s.var page = some c → domainOf c = .plan → idx < 4096 →
    (∀ data tick, ∃ t, exec (.crossingArrival page idx data tick) s = .next t ∧ t = { s with time := t.time } ∧
      t.time.landing.find? (4096 * page + idx) = some data ∧
      (∀ k, k ≠ 4096 * page + idx → t.time.landing.find? k = s.time.landing.find? k) ∧ t.time.consumed = s.time.consumed) ∧
    (∀ src d, s.time.landing.find? (4096 * page + idx) = some d →
      ∃ t, exec (.scheduledCycle page idx src) s = .next t ∧ t = { s with time := t.time } ∧
        t.time.landing.find? (4096 * page + idx) = none ∧ t.time.consumed.get {} (4096 * page + idx) = d ∧
        (∀ k, k ≠ 4096 * page + idx → t.time.landing.find? k = s.time.landing.find? k ∧ t.time.consumed.get {} k = s.time.consumed.get {} k)) ∧
    (s.time.landing.find? (4096 * page + idx) = none →
      (∃ t, exec (.scheduledCycle page idx none) s = .next t ∧ t.time.consumed.get {} (4096 * page + idx) = { poison := true } ∧
        RegsOnly (captureRegs s page 0) s t ∧
        (s.fbit page F.PG_ERR0_VALID = false → t.fget page F.PG_ERR0_VALID = 1 ∧ t.fget page F.PG_ERR0_CODE = 0x0F02)) ∧
      (∀ p, p ∈ s.time.lost → ∃ t, exec (.scheduledCycle page idx (some p)) s = .next t ∧ t = { s with time := t.time } ∧
        t.time.consumed.get {} (4096 * page + idx) = { lost := true }))

/-- Of the deliveries in flight, the n-th reaches its register `r` at a tick. A report register (numbered from 16384) holds the datum with its
tick. For a release register with a release to come: more than 8 ticks before it the datum becomes the pending delivery; later than that it is
held for the release after and DELIVERY_LATE is captured. CUT_TICK with no delivery pending marks the release missed and captures
RELEASE_MISSED. RELEASE_TICK with a good delivery pending makes it the output, reports 0, and moves a late delivery to pending; with none
pending the output falls back, as the plan says: to the safe value, or it holds. No register is lost sight of: every other release register
keeps its content. -/
def Obligations.ReleasesInOrder : Prop :=
  ∀ s tick,
    (∀ n r d, s.time.crossings[n]? = some (r, d) →
      let x := relGet s r
      (16384 ≤ r → ∃ t, exec (.deliveryComplete n tick) s = .next t ∧ t = { s with time := t.time, solver := t.solver } ∧
        t.solver.reports.find? (r - 16384) = some (d, t.now) ∧ t.time.crossings = s.time.crossings.eraseIdx n) ∧
      (∀ rel, r < 16384 → relFirst s r (relCopyTick s r tick) = some rel →
        ∃ t, exec (.deliveryComplete n tick) s = .next t ∧ t.time.crossings = s.time.crossings.eraseIdx n ∧
          (∀ k, k ≠ r → relGet t k = relGet s k) ∧
          (relCopyTick s r tick + 8 < rel → relGet t r = { x with pending := some d } ∧ (x.pending = none → t = { s with time := t.time })) ∧
          (rel ≤ relCopyTick s r tick + 8 → relGet t r = { x with late := some d }))) ∧
    (∀ r x, relTimed s r = true → relAt s r (relCopyTick s r tick + 8) = some x → (relGet s r).pending = none → (relGet s r).missed = false →
      ∃ t, exec (.cutTick r tick) s = .next t ∧ relGet t r = { relGet s r with missed := true } ∧ (∀ k, k ≠ r → relGet t k = relGet s k) ∧
        (relLost s x = true → t = { s with time := t.time }) ∧
        (relLost s x = false → RegsOnly (captureRegs s (relPage r).1 0) s t ∧
          (s.fbit (relPage r).1 F.PG_ERR0_VALID = false → t.fget (relPage r).1 F.PG_ERR0_CODE = 0x0F04))) ∧
    (∀ r x, relTimed s r = true → relAt s r (relCopyTick s r tick) = some x →
      ∃ t, exec (.releaseTick r tick) s = .next t ∧ t = { s with time := t.time } ∧ (∀ k, k ≠ r → relGet t k = relGet s k) ∧
        (relGet t r).pending = (relGet s r).late ∧ (relGet t r).late = none ∧ (relGet t r).missed = false ∧
        (∀ d, (relGet s r).pending = some d → d.poison = false → d.lost = false → relLost s x = false →
          (relGet t r).output = d ∧ (relGet t r).status = 0) ∧
        ((relGet s r).pending = none → relLost s x = false →
          (relGet t r).status = 0x0F04 ∧ (x.safe = none → (relGet t r).output = (relGet s r).output) ∧
          (∀ v, x.safe = some v → (relGet t r).output = { val := v })))

/-- On a built memory channel while time counts: GUARD_START before a window in use closes the channel for that window with its banks precharged;
WINDOW_END of that window opens it again and lets the waiting jobs issue; a refresh, RFM or ZQ command in open time on a channel in service is
issued and counted. No register changes, and no other channel. A Plan request outside every window is captured on the channel's control page
with the address divided by 8, counted, and cause 2 is set. -/
def Obligations.CalendarCloses : Prop :=
  ∀ s chan, chan < s.var.memcChannels →
    (∀ win, s.time.running = true → win < 16 → (calWindow s chan win).2 ≠ 0 → (phaseGet s chan).closed = false →
      ∃ t, exec (.guardStart chan win) s = .next t ∧ t = { s with time := t.time } ∧
        phaseGet t chan = { phaseGet s chan with closed := true, win := win, precharged := true } ∧
        (∀ k, k ≠ chan → phaseGet t k = phaseGet s k)) ∧
    (∀ win, (phaseGet s chan).closed = true → (phaseGet s chan).win = win →
      ∃ t, exec (.windowEnd chan win) s = .next t ∧ t = { s with time := t.time } ∧
        phaseGet t chan = { phaseGet s chan with closed := false, waiting := [], precharged := (phaseGet s chan).waiting.isEmpty } ∧
        (∀ k, k ≠ chan → phaseGet t k = phaseGet s k)) ∧
    (∀ op, (phaseGet s chan).closed = false → s.fbit (pgMemc + 2 * chan) F.PG_CTRL_IN_SERVICE = true →
      ∃ t, exec (.refresh chan op) s = .next t ∧ t = { s with time := t.time } ∧
        phaseGet t chan = { phaseGet s chan with refreshes := (phaseGet s chan).refreshes + 1 } ∧
        (∀ k, k ≠ chan → phaseGet t k = phaseGet s k)) ∧
    (∀ addr, s.time.plan.isSome = true → inWindow s chan = false →
      ∃ t, exec (.planOffWindow chan addr) s = .next t ∧ t = { s with regs := t.regs, host := t.host } ∧
        RegsOnly ((pgMemc + 2 * chan, F.MEMC_MISC_OFF_WINDOW.off) :: captureRegs s (pgMemc + 2 * chan) 0) s t ∧
        t.fget (pgMemc + 2 * chan) F.MEMC_MISC_OFF_WINDOW =
          min (s.fget (pgMemc + 2 * chan) F.MEMC_MISC_OFF_WINDOW + 1) (2 ^ F.MEMC_MISC_OFF_WINDOW.wid - 1) ∧
        (s.fbit (pgMemc + 2 * chan) F.PG_ERR0_VALID = false →
          t.fget (pgMemc + 2 * chan) F.PG_ERR0_CODE = 0x0F13 ∧ t.reg (pgMemc + 2 * chan) F.PG_ERR3.off = BitVec.ofNat 32 (addr / 8)))

/-- Ending a job gives it its status and the low 32 bits of its result and changes nothing else in the machine, where no reset of its
partition is in progress. While its partition resets it ends with PARTITION_RESET and result 0 instead, and the reset counts it. -/
def Obligations.JobOutcome : Prop :=
  ∀ s j x status result, jobGet s j = some x →
    let t := jobDone s j status result
    (∀ k, k ≠ j → jobGet t k = jobGet s k) ∧
    (s.part.resets.find? x.part = none →
      t = { s with qe := { s.qe with jobs := t.qe.jobs } } ∧
      jobGet t j = some { x with phase := .done, status := status, result := result % 2 ^ 32, data := none }) ∧
    (∀ r, s.part.resets.find? x.part = some r →
      jobGet t j = some { x with phase := .done, status := 0x0015, result := 0, data := none } ∧
      (x.phase ≠ .done → t.part.resets.find? x.part = some { r with ended := r.ended + 1 }) ∧
      t = { s with qe := { s.qe with jobs := t.qe.jobs }, part := t.part })

/-- A push by the owner to a free slot of an ACTIVE queue pair, at an index the ring does not cover, is held in the slot; on a queue pair that
is not ACTIVE or a slot that is taken it is dropped and captured with the queue pair's number. A whole-word SQ doorbell below the ring size
with no push held sets SQ_DB and the entries the ring covers; one at or past the ring size changes no index and is captured. A whole-word CQ
doorbell that does not pass the tail sets CQ_HEAD and clears the full mark when it moves. Nothing outside the queue pair changes where nothing
is captured. -/
def Obligations.PushesAndDoorbells : Prop :=
  ∀ s part q, s.host.crs = false → qpOwner s q = some part →
    let x := qpGet s q
    (∀ slot e, x.state = .active → x.pushes.find? (slot % 4) = none → ringCovers s q (pushIndex s q slot) = false →
      ∃ t, exec (.push part q slot e) s = .next t ∧ t = { s with qe := { s.qe with qps := t.qe.qps } } ∧
        qpGet t q = { x with pushes := x.pushes.ins (slot % 4) e } ∧ ∀ k, k ≠ q → qpGet t k = qpGet s k) ∧
    (∀ slot e, x.state ≠ .active ∨ (x.pushes.find? (slot % 4)).isSome = true →
      ∃ t, exec (.push part q slot e) s = .next t ∧ t = { s with regs := t.regs, host := t.host } ∧
        RegsOnly ((qpPage q, (F.QP_COUNTS_PUSH_DROPPED.sh (qpOff q)).off) :: captureRegs s (qpPage q) part) s t ∧
        (s.fbit (qpPage q) F.PG_ERR0_VALID = false → t.fget (qpPage q) F.PG_ERR0_CODE = 0x0413 ∧ t.reg (qpPage q) F.PG_ERR3.off = BitVec.ofNat 32 q)) ∧
    (∀ value : Word, x.state = .active → x.pushes = [] → bitsOf value 0 16 < sqSize s q →
      ∃ t, exec (.sqDoorbell part q 0xF value false) s = .next t ∧ t = { s with qe := { s.qe with qps := t.qe.qps } } ∧
        qpGet t q = { x with sqDb := bitsOf value 0 16, ringLeft := ringDist (sqSize s q) x.sqHead (bitsOf value 0 16) } ∧
        ∀ k, k ≠ q → qpGet t k = qpGet s k) ∧
    (∀ value : Word, x.state = .active → sqSize s q ≤ bitsOf value 0 16 →
      ∃ t, exec (.sqDoorbell part q 0xF value false) s = .next t ∧ t = { s with regs := t.regs, host := t.host } ∧
        (s.fbit (qpPage q) F.PG_ERR0_VALID = false → t.fget (qpPage q) F.PG_ERR0_CODE = 0x0410)) ∧
    (∀ value : Word, bitsOf value 0 16 < cqSize s q →
      ringDist (cqSize s q) x.cqHead (bitsOf value 0 16) ≤ ringDist (cqSize s q) x.cqHead x.cqTail →
      ∃ t, exec (.cqDoorbell part q 0xF value false) s = .next t ∧ t = { s with qe := { s.qe with qps := t.qe.qps } } ∧
        (qpGet t q).cqHead = bitsOf value 0 16 ∧ (bitsOf value 0 16 ≠ x.cqHead → (qpGet t q).full = false) ∧
        qpGet t q = { x with cqHead := (qpGet t q).cqHead, full := (qpGet t q).full } ∧ ∀ k, k ≠ q → qpGet t k = qpGet s k)

/-- A good ring read with no poison appends the entries to those that wait, up to what the ring covers. When QE picks queue pair `q`, no
chain is open there and the entry at SQ_HEAD is a whole job (FIRST and LAST set, not poisoned), the entry is taken, SQ_HEAD moves on by one
around the ring, and a job with the entry's opcode and tag, the owner's partition and the next number enters the job table under its lowest free
number; it waits, or has ended with the status its checks give. A waiting job with no fence against it and no cancel is handed to its
block at once, and only that job changes. -/
def Obligations.AdmissionAndReadiness : Prop :=
  (∀ s q (es : List (BitVec 512 × Bool)), (qpGet s q).state = .active → es.length ≤ (qpGet s q).ringLeft - (qpGet s q).staged.length →
    (∀ e ∈ es, e.2 = false) →
    ∃ t, exec (.ringReadComplete q (.good es)) s = .next t ∧ t = { s with qe := { s.qe with qps := t.qe.qps } } ∧
      qpGet t q = { qpGet s q with staged := (qpGet s q).staged ++ es } ∧ ∀ k, k ≠ q → qpGet t k = qpGet s k) ∧
  (∀ s q e fromPush kind j, admitPick s = some q → nextSource s q = some (e, false, fromPush) → (qpGet s q).chain = .closed →
    e.getLsbD 8 = true → e.getLsbD 9 = true → jobKindFor s q (qpGet s q).owner = some kind → s.qe.jobs.lowestFree 0 512 = some j →
    ∃ t x, exec (.entryAdmit .none) s = .next t ∧ t = { s with qe := t.qe, part := t.part } ∧ jobGet t j = some x ∧
      x.part = (qpGet s q).owner ∧ x.qp = q ∧ x.opcode = bitsOf e 0 8 ∧ x.tag = bitsOf e 16 16 ∧ x.seq = s.qe.nextSeq ∧ x.entries = [e] ∧
      (x.phase = .waiting ∨ (x.phase = .done ∧ x.status ≠ stOk)) ∧
      (qpGet t q).sqHead = ((qpGet s q).sqHead + 1) % sqSize s q ∧ t.qe.nextSeq = s.qe.nextSeq + 1 ∧
      ∀ k, k ≠ j → jobGet t k = jobGet s k) ∧
  (∀ s j x, jobGet s j = some x → x.phase = .waiting → s.qe.dead = false → (x.fence = true → earlierJob s x = false) → x.cancel = false →
    ∃ t, exec (.jobReady j) s = .next t ∧ t = { s with qe := { s.qe with jobs := t.qe.jobs } } ∧
      jobGet t j = some { x with phase := .started, hadStarted := true, startTick := s.now } ∧ ∀ k, k ≠ j → jobGet t k = jobGet s k)

/-- On a queue pair that is not being deleted, of a partition that is not resetting: when its oldest job has ended with OK, does not fold and
asks for no interrupt, and the CQ is not full, its CQ entry goes to the owner at CQ_TAIL with the job's tag, status, the jobs it covers, SQ_HEAD,
the result and the phase; the tail moves on by one and the job leaves the job table. While Bus Master Enable of the owner is 0 nothing goes out: the
entry joins the end of what is held and the job stays in the job table. At the end of the interrupt timer with signalling entries
counted and interrupts enabled, the queue pair's message goes out and its count is 0. -/
def Obligations.CompletionsReachTheHost : Prop :=
  ∀ s q, s.qe.dead = false →
    let p := qpGet s q
    (∀ j x, s.part.resets.find? p.owner = none → p.deleting = none → oldestJob s q = some (j, x) → x.phase = .done → x.status = stOk →
      x.irq = false → p.foldedIrq = false → qpF s q F.QP_CTRL_IRQ_ALL = 0 → folds x p.folded = false → cqIsFull s q = false →
      let entry := .cq p.owner q (qpF s q F.QP_CQ_BASE_LO + qpF s q F.QP_CQ_BASE_HI * 2 ^ 32 + 16 * p.cqTail)
        (cqEntry x.tag stOk (p.folded + 1) p.sqHead x.result q p.phase)
      ∃ t, exec (.cqEntryWrite q) s = .next t ∧ t = { s with qe := t.qe, host := t.host } ∧
        (qpGet t q).cqTail = (p.cqTail + 1) % cqSize s q ∧ (qpGet t q).cqHead = p.cqHead ∧ (qpGet t q).sigCount = p.sigCount ∧
        (∀ k, k ≠ j → jobGet t k = jobGet s k) ∧
        (s.host.bme.get false p.owner = true → t.host = { s.host with out := entry :: s.host.out } ∧ jobGet t j = none) ∧
        (s.host.bme.get false p.owner = false → t.host.out = s.host.out ∧ t.host.bme = s.host.bme ∧
          t.host.held.get [] p.owner = s.host.held.get [] p.owner ++ [entry] ∧
          (∀ n, n ≠ p.owner → t.host.held.get [] n = s.host.held.get [] n) ∧ jobGet t j = some { x with held := true })) ∧
    (∀ since, p.sigSince = some since → p.sigCount ≠ 0 → qpF s q F.QP_IRQ_TIME ≠ 0 → qpF s q F.QP_CTRL_IRQ_EN = 1 →
      s.host.bme.get false p.owner = true →
      ∃ t, exec (.irqTimerExpiry q) s = .next t ∧ t = { s with time := t.time, qe := t.qe, host := t.host } ∧
        t.host.out = .msix p.owner (qpF s q F.QP_IRQ_VECTOR) :: s.host.out ∧ (qpGet t q).sigCount = 0 ∧ (qpGet t q).sigSince = none)

/-- A write with EN = 1 to a DISABLED admin queue pair with both ring sizes set makes it ACTIVE with all indices 0; one with EN = 0 makes it
DISABLED with nothing held; QP_CTRL is the one register that changes. A started QP_CREATE that passes its checks makes queue pair `q` ACTIVE for
the submitter with the ring addresses and sizes of its payload and ends with OK and the number. A started QP_DELETE of a created queue pair of
the submitter with no job and no open chain frees it and ends with OK. A started ABORT of a waiting job ends that job with CANCELLED and itself with OK and
whether the job had started. A started NOP ends with OK. -/
def Obligations.QueuePairLife : Prop :=
  (∀ s part q data, s.host.crs = false → q < s.var.partitions → qpReach s part q = true →
    (qpF s q F.QP_SIZE_SQ_LOG2 ≠ 0 → qpF s q F.QP_SIZE_CQ_LOG2 ≠ 0 → (qpGet s q).state = .disabled →
      ∃ t, exec (.adminQpEnable part q data) s = .next t ∧ t = { s with regs := t.regs, qe := t.qe, host := t.host } ∧
        RegsOnly [(qpPage q, (F.QP_CTRL_EN.sh (qpOff q)).off)] s t ∧ qpF t q F.QP_CTRL_EN = 1 ∧
        (qpGet t q).state = .active ∧ (qpGet t q).sqHead = 0 ∧ (qpGet t q).sqDb = 0 ∧ (qpGet t q).cqTail = 0 ∧ (qpGet t q).cqHead = 0) ∧
    (∃ t, exec (.adminQpDisable part q data) s = .next t ∧ RegsOnly [(qpPage q, (F.QP_CTRL_EN.sh (qpOff q)).off)] s t ∧
      qpF t q F.QP_CTRL_EN = 0 ∧ (qpGet t q).state = .disabled ∧ (qpGet t q).pushes = [] ∧ (qpGet t q).staged = [])) ∧
  (∀ s job x q, startedJob s job 0x01 = some x → qpCreateCheck s x = .inr q → s.part.resets.find? x.part = none →
    ∃ t, exec (.qpCreate job) s = .next t ∧ t = { s with regs := t.regs, qe := t.qe } ∧ qpGet t q = { state := .active, owner := x.part } ∧
      qpF t q F.QP_SQ_BASE_LO = payBits x 64 32 ∧ qpF t q F.QP_SQ_BASE_HI = payBits x 96 32 ∧
      qpF t q F.QP_CQ_BASE_LO = payBits x 128 32 ∧ qpF t q F.QP_CQ_BASE_HI = payBits x 160 32 ∧
      qpF t q F.QP_SIZE_SQ_LOG2 = payBits x 48 4 ∧ qpF t q F.QP_SIZE_CQ_LOG2 = payBits x 52 4 ∧
      jobGet t job = some { x with phase := .done, status := stOk, result := q, data := none }) ∧
  (∀ s job x, startedJob s job 0x02 = some x → x.stage = 0 → s.var.partitions ≤ payBits x 32 12 → payBits x 32 12 < 2048 →
    qpOwner s (payBits x 32 12) = some x.part → (qpGet s (payBits x 32 12)).state ≠ .draining → (qpGet s (payBits x 32 12)).chain = .closed →
    (∀ k ∈ s.qe.jobs, k.2.qp ≠ payBits x 32 12) → s.part.resets.find? x.part = none →
    ∃ t, exec (.qpDelete job) s = .next t ∧ t = { s with regs := t.regs, qe := t.qe } ∧ qpGet t (payBits x 32 12) = {} ∧
      jobGet t job = some { x with phase := .done, status := stOk, result := 0, data := none, stage := 1 }) ∧
  (∀ s job x j y, startedJob s job 0x03 = some x → payBits x 32 12 < 2048 → qpOwner s (payBits x 32 12) = some x.part →
    abortTarget s (payBits x 32 12) (payBits x 48 16) = some (j, y) → jobGet s j = some y → y.phase = .waiting → j ≠ job →
    s.part.resets.find? x.part = none → s.part.resets.find? y.part = none →
    ∃ t, exec (.abort job) s = .next t ∧ t = { s with qe := { s.qe with jobs := t.qe.jobs } } ∧
      jobGet t j = some { y with phase := .done, status := stCancelled, result := 0, data := none } ∧
      jobGet t job = some { x with phase := .done, status := stOk, result := b2n y.hadStarted, data := none }) ∧
  (∀ s job x, startedJob s job 0x00 = some x → exec (.nop job) s = .next (jobDone s job stOk 0))

/-- For a page in the writer's full view that is not resetting, is no loop channel and holds no write for a latch: PG_SCRATCH takes the whole word;
a register of a page whose registers have no rule of their own takes each field by its access code; PG_ERR_CLR clears the four capture
registers; PG_LOCK sets LOCK; PG_IRQ_FORCE sets the defined causes and ERR; a soft reset that is allowed raises RESET_BUSY and notes its
start; on PTB and QE pages ENABLE and QUIESCE take the bit given. Nothing else changes. A doubleword with a byte enable missing changes nothing. -/
def Obligations.HeaderWrites : Prop :=
  ∀ s part p c, Writable s part p → classOf s.var p = some c → c ≠ .ch → (s.page p).heldWrites = [] →
    (∀ data, waitsLatch s p 0x38 = false → ∃ t, exec (.registerWrite part p 0x38 0xF data) s = .next t ∧ t = { s with regs := t.regs } ∧
      RegsOnly [(p, 0x38)] s t ∧ t.reg p 0x38 = data) ∧
    (∀ off r data, c = .chip ∨ c = .fmap ∨ c = .memcal ∨ c = .rtu ∨ c = .rqt ∨ c = .mask → 0x40 ≤ off → off < 4096 → off % 4 = 0 →
      rowAt c p off = some r →
      ∃ t, exec (.registerWrite part p off 0xF data) s = .next t ∧ t = { s with regs := t.regs } ∧ RegsOnly [(p, off)] s t ∧
        t.reg p off = rowWrite32 (s.fbit p F.PG_LOCK_LOCK) r data (s.reg p off)) ∧
    (∀ off be data, be ≠ 0xF → exec (.registerWrite part p off be data) s = .next s) ∧
    (∀ data : Word, data.getLsbD 0 = true → waitsLatch s p 0x30 = false →
      ∃ t, exec (.pgErrClr part p data) s = .next t ∧ t = { s with regs := t.regs } ∧
        RegsOnly [(p, 0x20), (p, 0x24), (p, 0x28), (p, 0x2C)] s t ∧
        t.reg p 0x20 = 0 ∧ t.reg p 0x24 = 0 ∧ t.reg p 0x28 = 0 ∧ t.reg p 0x2C = 0) ∧
    (∀ data : Word, data.getLsbD 0 = true → waitsLatch s p 0x34 = false →
      ∃ t, exec (.pgLock part p data) s = .next t ∧ t = { s with regs := t.regs } ∧ RegsOnly [(p, 0x34)] s t ∧ t.fget p F.PG_LOCK_LOCK = 1) ∧
    (∀ bits : Word, waitsLatch s p 0x18 = false →
      ∃ t, exec (.pgIrqForce part p bits) s = .next t ∧ t = { s with regs := t.regs, host := t.host } ∧ RegsOnly [(p, 0x10)] s t ∧
        t.reg p 0x10 = s.reg p 0x10 ||| BitVec.ofNat 32 (bits.toNat &&& (irqDefined c + 2 ^ 31))) ∧
    (softResetAllowed s p = true → waitsLatch s p 0x08 = false →
      ∃ t, exec (.softReset part p) s = .next t ∧ t = { s with regs := t.regs, pages := t.pages } ∧ RegsOnly [(p, 0x0C)] s t ∧
        t.fget p F.PG_STAT_RESET_BUSY = 1 ∧ (t.page p).resetSince = some s.now) ∧
    (∀ on, c = .ptb ∨ c = .qeg →
      (∃ t, exec (.pgCtrlEnable part p on) s = .next t ∧ t = { s with regs := t.regs } ∧ RegsOnly [(p, 0x08)] s t ∧
        t.fget p F.PG_CTRL_ENABLE = b2n on ∧ t.fget p F.PG_CTRL_QUIESCE = s.fget p F.PG_CTRL_QUIESCE) ∧
      (∃ t, exec (.pgCtrlQuiesce part p on) s = .next t ∧ t = { s with regs := t.regs } ∧ RegsOnly [(p, 0x08)] s t ∧
        t.fget p F.PG_CTRL_QUIESCE = b2n on ∧ t.fget p F.PG_CTRL_ENABLE = s.fget p F.PG_CTRL_ENABLE))

/-- For a partition to which a page is hidden or read-only, a whole-word register write changes nothing but the partition's own PART page, which counts the
foreign access and shows the page, and at most an interrupt; a read of a hidden page answers 0 to it and is counted alike. An access to a page in
the full view whose island does not answer is captured on the CHIP page with the page number; a read answers 0. -/
def Obligations.ForeignAndUnanswered : Prop :=
  ∀ s part p, s.host.crs = false →
    (∀ off data, off % 4 = 0 → off < 4096 → viewOf s part p = .hidden ∨ viewOf s part p = .readOnly →
      ∃ t, exec (.registerWrite part p off 0xF data) s = .next t ∧ t = { s with regs := t.regs, host := t.host } ∧
        RegsOnly [(pgPart + part, F.PART_FOREIGN_COUNT.off), (pgPart + part, F.PART_FOREIGN_LAST.off), (pgPart + part, F.PART_FOREIGN_BAR2.off),
          (pgPart + part, F.PG_IRQ_STAT_ERR.off)] s t ∧
        t.fget (pgPart + part) F.PART_FOREIGN_COUNT = min (s.fget (pgPart + part) F.PART_FOREIGN_COUNT + 1) 0xFFFF ∧
        t.fget (pgPart + part) F.PART_FOREIGN_LAST = p % 2 ^ F.PART_FOREIGN_LAST.wid) ∧
    (viewOf s part p = .hidden →
      ∃ t, exec (.foreignRead part (.page p)) s = .next t ∧ t = { s with regs := t.regs, host := t.host } ∧
        (∃ rest, t.host.out = .readData part 0 :: rest) ∧
        t.fget (pgPart + part) F.PART_FOREIGN_COUNT = min (s.fget (pgPart + part) F.PART_FOREIGN_COUNT + 1) 0xFFFF) ∧
    (∀ read, viewOf s part p = .full →
      ∃ t, exec (.islandNoAnswer part p read) s = .next t ∧ t = { s with regs := t.regs, host := t.host } ∧
        RegsOnly (captureRegs s pgChip part) s t ∧
        (s.fbit pgChip F.PG_ERR0_VALID = false → t.fget pgChip F.PG_ERR0_CODE = 0x0301 ∧ t.reg pgChip F.PG_ERR3.off = BitVec.ofNat 32 p) ∧
        (read = true → ∃ rest, t.host.out = .readData part 0 :: rest))

/-- SOFT_RESET_DONE lowers RESET_BUSY and forgets the start; on RST, FACET map and MEMC calendar pages it clears the capture registers and nothing
else changes. A soft reset that lasts too long is abandoned: RESET_BUSY falls and the page is marked. A unit of a page outside Table 5.7
that fails is captured with its detail, shows FAULT and is out of service. A write of IN_SERVICE = 0 takes a PWM pair out of service; a
write of IN_SERVICE = 1 to a Facet tile or port that is out starts its self-test; a self-test that passes makes a tile wait for its boundary, and
one that fails is captured with detail 2 and leaves IN_SERVICE at 0. -/
def Obligations.UnitsLeaveAndReturn : Prop :=
  (∀ s p, s.fbit p F.PG_STAT_RESET_BUSY = true →
    ∃ t, exec (.softResetDone p) s = .next t ∧ t.fget p F.PG_STAT_RESET_BUSY = 0 ∧ (t.page p).resetSince = none ∧
      (classOf s.var p = some .rst ∨ classOf s.var p = some .fmap ∨ classOf s.var p = some .memcal →
        t = { s with regs := t.regs, pages := t.pages } ∧ RegsOnly [(p, 0x0C), (p, 0x20), (p, 0x24), (p, 0x28), (p, 0x2C)] s t ∧ t.reg p 0x20 = 0)) ∧
  (∀ s p since, (s.page p).resetSince = some since → s.fbit p F.PG_STAT_RESET_BUSY = true →
    ∃ t, exec (.resetTimeout p) s = .next t ∧ t.fget p F.PG_STAT_RESET_BUSY = 0 ∧ (t.page p).resetSince = none ∧ (t.page p).abandoned = true ∧
      (classOf s.var p = some .rtu ∨ classOf s.var p = some .solv ∨ classOf s.var p = some .tku →
        t.fget p F.PG_STAT_FAULT = 1 ∧ t.fget p F.PG_STAT_OUT_OF_SERVICE = 1 ∧
        (s.fbit pgRst F.PG_ERR0_VALID = false → t.fget pgRst F.PG_ERR0_CODE = 0x0300 ∧ t.reg pgRst F.PG_ERR3.off = BitVec.ofNat 32 p))) ∧
  (∀ s p c detail, classOf s.var p = some c → c ∉ [.mirror, .qp, .ft, .lens, .ch, .pwm, .clnk, .memc, .loopg, .clnkg] →
    ∃ t, exec (.unitFailed p detail) s = .next t ∧ t = { s with regs := t.regs, pages := t.pages, host := t.host } ∧
      RegsOnly ((p, 0x0C) :: captureRegs s p 0) s t ∧ t.fget p F.PG_STAT_FAULT = 1 ∧ t.fget p F.PG_STAT_OUT_OF_SERVICE = 1 ∧
      (s.fbit p F.PG_ERR0_VALID = false → t.fget p F.PG_ERR0_CODE = 0x0501 ∧ t.reg p F.PG_ERR3.off = detail)) ∧
  (∀ s n, Writable s 0 (pgPwm + n) → n < s.var.pwmPairs → (s.page (pgPwm + n)).heldWrites = [] → pageOut s (pgPwm + n) = false →
    ∃ t, exec (.inServiceClear 0 (pgPwm + n)) s = .next t ∧
      PagesOnly (fun q => pgPwm ≤ q ∧ q < pgPwm + s.var.pwmPairs) s t ∧
      t.fget (pgPwm + n) F.PG_STAT_OUT_OF_SERVICE = 1 ∧ t.fget (pgPwm + n) F.PG_CTRL_IN_SERVICE = 0) ∧
  (∀ s p, Writable s 0 p → classOf s.var p = some .ft → (s.page p).heldWrites = [] →
    pageOut s p = true → (s.page p).testing = false → (s.page p).joining = false →
    ∃ t, exec (.inServiceSet 0 p) s = .next t ∧ t = { s with regs := t.regs, pages := t.pages } ∧ RegsOnly [(p, 0x08)] s t ∧
      (t.page p).testing = true ∧ t.fget p F.PG_CTRL_IN_SERVICE = 1) ∧
  (∀ s p, (s.page p).testing = true → classOf s.var p = some .ft →
    (∃ t, exec (.selfTestDone p true) s = .next t ∧ t = { s with pages := t.pages } ∧ (t.page p).testing = false ∧ (t.page p).joining = true) ∧
    (∃ t, exec (.selfTestDone p false) s = .next t ∧ t.fget p F.PG_CTRL_IN_SERVICE = 0 ∧ (t.page p).testing = false ∧
      (s.fbit p F.PG_ERR0_VALID = false → t.fget p F.PG_ERR0_CODE = 0x0504 ∧ t.reg p F.PG_ERR3.off = 2)))

/-- Once requests reach the device: by P0, a write of RST_CHIP or of RST_PART with a KEY other than A5C3H, or with the matching enable of RST_CTRL at 0,
and a write of RST_PART that names a partition that is not built, leave the machine as it was. By any other partition, whatever it
writes, no register changes but those of its own PART page that count the foreign access, and no reset begins. -/
def Obligations.WrongResetKeysIgnored : Prop :=
  ∀ s data, s.host.crs = false →
    (bitsOf data 16 16 ≠ 0xA5C3 ∨ s.fbit pgRst F.RST_CTRL_CHIP_EN = false → exec (.rstChip 0 data) s = .next s) ∧
    (bitsOf data 16 16 ≠ 0xA5C3 ∨ s.fbit pgRst F.RST_CTRL_PART_EN = false ∨ s.var.partitions ≤ bitsOf data 0 4 →
      exec (.rstPart 0 data) s = .next s) ∧
    (∀ part c, part ≠ 0 → c = Instr.rstChip part data ∨ c = Instr.rstPart part data →
      ∃ t, exec c s = .next t ∧ t = { s with regs := t.regs, host := t.host } ∧
        RegsOnly [(pgPart + part, F.PART_FOREIGN_COUNT.off), (pgPart + part, F.PART_FOREIGN_LAST.off), (pgPart + part, F.PART_FOREIGN_BAR2.off),
          (pgPart + part, F.PG_IRQ_STAT_ERR.off)] s t)

/-- P0's write of RST_CHIP with the key, GO and its enable, PERST_ASSERT in a powered device that is awake, and a hot reset on a trained link are a chip reset with
cause 2, 3 and 4. A chip reset shows its cause, counts itself, puts the boot at stage 1, keeps RST_KEEP, the flash, the fuses and the PTB, and leaves
no job, no session state of the queue engine, no partition reset, no tile state and no byte of device memory; the link is down and requests
get retry status. -/
def Obligations.ChipResetScope : Prop :=
  (∀ s cause, cause < 16 →
    let t := chipReset s cause
    t.fget pgRst F.RST_CAUSE_CAUSE = cause ∧ t.fget pgRst F.RST_COUNT_COUNT = min (s.fget pgRst F.RST_COUNT_COUNT + 1) 0xFFFF ∧
    t.fget pgChip F.CHIP_BOOT_STAGE = 1 ∧ t.reg pgRst F.RST_KEEP_VALUE.off = s.reg pgRst F.RST_KEEP_VALUE.off ∧
    t.fuses = s.fuses ∧ t.rtu.flash = s.rtu.flash ∧ t.rtu.cmd = s.rtu.cmd ∧ t.time.ptb = s.time.ptb ∧ t.time.plan = none ∧
    t.qe = {} ∧ t.part = {} ∧ t.mem.dram = {} ∧ t.facet = {} ∧ t.host.linkUp = false ∧ t.host.crs = true ∧ t.pending = s.pending) ∧
  (∀ s (data : Word), s.host.crs = false → pageBusy s pgRst = false → bitsOf data 16 16 = 0xA5C3 → data.getLsbD 0 = true →
    s.fbit pgRst F.RST_CTRL_CHIP_EN = true → exec (.rstChip 0 data) s = .next (chipReset s 2)) ∧
  (∀ s, s.host.perst = false → powered s = true → asleep s = false →
    exec .perstAssert s = .next (chipReset { s with host := { s.host with perst := true, linkUp := false } } 3)) ∧
  (∀ s, s.host.linkUp = true → exec .pcieHotReset s = .next (chipReset s 4))

/-- PERST_DEASSERT releases PERST#; LINK_TRAINED with PERST# high and core power good brings the link up and ends WAKE#; neither changes anything else.
Setting Bus Master Enable of a built function on a trained link that accepts requests sends what was held for it, in the order it was held
(after QE_INTERNAL only the messages of other islands' pages: the model's reading, assumption 45), and empties what is held; unless QE is dead, the jobs
whose CQ entries were held leave the job table, and where no queue pair of the function drains nothing else changes; clearing it only clears it; no
other function is touched. -/
def Obligations.LinkEvents : Prop :=
  (∀ s, exec .perstDeassert s = .next { s with host := { s.host with perst := false } }) ∧
  (∀ s, s.host.perst = false → s.boot.corePg = true →
    exec .linkTrained s = .next { s with host := { s.host with linkUp := true }, power := { s.power with wakePin := false } }) ∧
  (∀ s fn, fn < s.var.partitions → s.host.linkUp = true → s.host.crs = false →
    (∃ t, exec (.bmeChange fn true) s = .next t ∧ t = { s with host := t.host, qe := t.qe, regs := t.regs, part := t.part } ∧
      (s.qe.dead = true → t = { s with host := t.host }) ∧
      (s.qe.dead = false → (∀ k ∈ s.qe.qps, k.2.owner = fn → k.2.deleting = none) →
        t = { s with host := t.host, qe := { s.qe with jobs := t.qe.jobs } } ∧
        ∀ j, jobGet t j = if j ∈ heldJobs s fn then none else jobGet s j) ∧ t.host.bme.get false fn = true ∧
      t.host.out.reverse = s.host.out.reverse ++ (s.host.held.get [] fn).filter (fun tx => !s.qe.dead || sentByPage tx) ∧
      t.host.held.get [] fn = [] ∧
      ∀ k, k ≠ fn → t.host.bme.get false k = s.host.bme.get false k ∧ t.host.held.get [] k = s.host.held.get [] k) ∧
    (∃ t, exec (.bmeChange fn false) s = .next t ∧ t = { s with host := t.host } ∧ t.host.bme.get false fn = false ∧ t.host.out = s.host.out ∧
      t.host.held = s.host.held ∧ ∀ k, k ≠ fn → t.host.bme.get false k = s.host.bme.get false k))

/-- A started admin command of P0 that passes its checks ends with OK: PART_SET_SHARE writes the target's KV pages, request limit and weight;
PART_GRANT of a free memory region enters it in the target's first unused PART_MEM entry, of a free mailbox channel moves the channel from P0 to
the target, and of a model slot sets its bit; PART_REVOKE of a model slot that no started job or request uses clears it. From another
partition each of the three ends with NOT_OWNER and changes nothing else. PART_CLR clears the foreign counts, or the whole log and its status. -/
def Obligations.SharesAndGrants : Prop :=
  (∀ s job x, s.part.resets.find? x.part = none →
    (startedJob s job 0x11 = some x → paCheck s x = none →
      ∃ t, exec (.partSetShare job) s = .next t ∧ t = { s with regs := t.regs, qe := t.qe } ∧
        RegsOnly [(pgPart + paTarget x, F.PART_SHARE0_KV_PAGES.off), (pgPart + paTarget x, F.PART_SHARE1_RQT_MAX.off)] s t ∧
        t.fget (pgPart + paTarget x) F.PART_SHARE0_KV_PAGES = payBits x 64 21 ∧ t.fget (pgPart + paTarget x) F.PART_SHARE1_RQT_MAX = payBits x 96 11 ∧
        t.fget (pgPart + paTarget x) F.PART_SHARE1_WEIGHT = payBits x 112 8 ∧
        jobGet t job = some { x with phase := .done, status := stOk, result := 0, data := none }) ∧
    (startedJob s job 0x12 = some x → paCheck s x = none → paKind x = 0 → paTarget x ≠ 0 →
      regionConflict s (paTarget x) (regionOf x).1 (regionOf x).2 = false → partMemFind s (paTarget x) (regionOf x) = none →
      ∀ i, partMemFind s (paTarget x) (0, 0) = some i →
      ∃ t, exec (.partGrant job) s = .next t ∧
        RegsOnly [(pgPart + paTarget x, 0x200 + 16 * i), (pgPart + paTarget x, 0x204 + 16 * i), (pgPart + paTarget x, 0x208 + 16 * i)] s t ∧
        t.reg64 (pgPart + paTarget x) (0x200 + 16 * i) (0x204 + 16 * i) = (regionOf x).1 ∧
        t.reg (pgPart + paTarget x) (0x208 + 16 * i) = BitVec.ofNat 32 ((regionOf x).2 / 2 ^ 21) ∧
        jobGet t job = some { x with phase := .done, status := stOk, result := 0, data := none }) ∧
    (startedJob s job 0x12 = some x → paCheck s x = none → paKind x = 1 → paTarget x ≠ 0 → mbxHolder s (mjChanOf x).1 (mjChanOf x).2 = none →
      ∃ t, exec (.partGrant job) s = .next t ∧ holdsChannel t (paTarget x) (mjChanOf x).1 (mjChanOf x).2 = true ∧
        holdsChannel t 0 (mjChanOf x).1 (mjChanOf x).2 = false ∧
        jobGet t job = some { x with phase := .done, status := stOk, result := 0, data := none }) ∧
    (startedJob s job 0x13 = some x → paCheck s x = none → paKind x = 2 → revokeHeld s x = true →
      (s.qe.jobs.any fun k => usesRevoked s x k.1 k.2) = false →
      ∃ t, exec (.partRevoke job) s = .next t ∧ t = { s with regs := t.regs, qe := t.qe } ∧
        RegsOnly [(pgPart + paTarget x, F.PART_SLOTS_SLOTS.off)] s t ∧ natBit (t.fget (pgPart + paTarget x) F.PART_SLOTS_SLOTS) (paSlot x) = false ∧
        jobGet t job = some { x with phase := .done, status := stOk, result := 0, data := none }) ∧
    (∀ op c, x.part ≠ 0 → (op, c) ∈ [(0x11, Instr.partSetShare job), (0x12, Instr.partGrant job), (0x13, Instr.partRevoke job)] →
      startedJob s job op = some x → exec c s = .next (jobDone s job stNotOwner 0))) ∧
  (∀ s part p, Writable s part p → classOf s.var p = some .part →
    (∃ t, exec (.partClrForeign part p) s = .next t ∧ t = { s with regs := t.regs } ∧ RegsOnly [(p, F.PART_FOREIGN_COUNT.off)] s t ∧
      t.fget p F.PART_FOREIGN_COUNT = 0) ∧
    (∃ t, exec (.partClrLog part p) s = .next t ∧ t = { s with regs := t.regs } ∧
      (∀ q o, o < 4096 → ¬ (q = p ∧ ((0x100 ≤ o ∧ o < 0x200) ∨ o = F.PART_LOG_STAT_NEXT.off)) → t.reg q o = s.reg q o) ∧
      t.fget p F.PART_LOG_STAT_HELD = 0 ∧ t.fget p F.PART_LOG_STAT_NEXT = 0))

/-- P0's keyed write of RST_PART, an FLR of a built virtual function and a started PART_RESET begin a reset of the partition. A reset that begins where
none is in progress, of a partition that holds no mailbox channel, sets its RST_PART_BUSY bit and PART_STAT.STATE (1, or 2 for an FLR) and notes its
start, and its queue pairs hold no push and no entry. An FLR also returns Bus Master Enable of its function to 0 (the model's reading, assumption 17). When no job and no request of the partition is left the reset ends: the BUSY bit falls,
STATE and LOCK are 0, and the admin queue pair is DISABLED. A reset that a QE command still holds up after 1 600 000 ticks is captured
on the RST page with the partition's number, takes QE out of service, and the command ends with PARTITION_RESET. -/
def Obligations.PartitionResets : Prop :=
  (∀ s (data : Word), s.host.crs = false → pageBusy s pgRst = false → bitsOf data 16 16 = 0xA5C3 → data.getLsbD 8 = true →
    s.fbit pgRst F.RST_CTRL_PART_EN = true → bitsOf data 0 4 < s.var.partitions →
    exec (.rstPart 0 data) s = .next (partResetStart s (bitsOf data 0 4) false none)) ∧
  (∀ s fn, 1 ≤ fn → fn < s.var.partitions →
    ∃ t, exec (.flr fn) s = .next t ∧ t.host.bme.get false fn = false ∧ (∀ k, k ≠ fn → t.host.bme.get false k = s.host.bme.get false k) ∧
      t = { partResetStart s fn true none with host := { (partResetStart s fn true none).host with bme := t.host.bme } }) ∧
  (∀ s job x, startedJob s job 0x10 = some x → x.stage = 0 → x.part = 0 → paTarget x ≠ 0 → paTarget x < s.var.partitions →
    exec (.partReset job) s = .next (partResetStart (jobSet s job { x with stage := 1 }) (paTarget x) false (some job))) ∧
  (∀ s n flr owner, n < s.var.partitions → s.part.resets.find? n = none → (∀ p c, holdsChannel s n p c = false) →
    let t := partResetStart s n flr owner
    natBit (t.fget pgRst F.RST_PART_BUSY_BUSY) n = true ∧ t.fget (pgPart + n) F.PART_STAT_STATE = (if flr then 2 else 1) ∧
    RegsOnly [(pgRst, F.RST_PART_BUSY_BUSY.off), (pgPart + n, F.PART_STAT_STATE.off)] s t ∧
    (∃ r, t.part.resets.find? n = some r ∧ r.since = s.now ∧ r.flr = flr) ∧
    (qpGet t n).pushes = [] ∧ (qpGet t n).staged = [] ∧ t.host.held.get [] n = []) ∧
  (∀ s n r, n < s.var.partitions → s.part.resets.find? n = some r → resetQuiet s n r = true → r.owner = none → r.joined = [] →
    ∃ t, exec (.partitionResetEnd n) s = .next t ∧ t.part.resets.find? n = none ∧ natBit (t.fget pgRst F.RST_PART_BUSY_BUSY) n = false ∧
      t.fget (pgPart + n) F.PART_STAT_STATE = 0 ∧ t.fget (pgPart + n) F.PG_LOCK_LOCK = 0 ∧ (qpGet t n).state = .disabled) ∧
  (∀ s n r j x, s.part.resets.find? n = some r → s.qe.jobs = [(j, x)] → x.part = n → x.phase = .started → x.opcode < 0x04 →
    s.serve.reqs = [] → n < 16 →
    ∃ t y, exec (.partResetTimeout n) s = .next t ∧ t.fget pgQe F.PG_STAT_OUT_OF_SERVICE = 1 ∧ t.fget pgQe F.PG_STAT_FAULT = 1 ∧
      (s.fbit pgRst F.PG_ERR0_VALID = false → t.fget pgRst F.PG_ERR0_CODE = 0x0508 ∧ t.reg pgRst F.PG_ERR3.off = BitVec.ofNat 32 n) ∧
      jobGet t j = some y ∧ y.phase = .done ∧ y.status = 0x0015)

/-- At a period start of its schedule an enabled pair that is IDLE and not held runs: the staged compare becomes active, the period is the base
period over its divider, and the period's start is noted. A compare edge of a running pair changes the reference. Either way the outputs
follow the reference at once where there is no dead time; else only the output that goes off changes, and the other is due after the dead
time. At the end of the dead time the output that is due turns on. No other page's registers change, and nothing but time and the pair. -/
def Obligations.PwmPairsSwitch : Prop :=
  (∀ s n tick, n < s.var.pwmPairs → pairScheduled s n = true →
    gridInstant s (s.fget (pgPwm + n) F.PWM_SCHED_PHASE) (divSamples (s.fget (pgPwm + n) F.PWM_SCHED_DIV)) tick = true →
    (s.page (pgPwm + n)).joining = false → s.fget (pgPwm + n) F.PWM_STAT_STATE = pwmIdle → s.fget (pgPwm + n) F.PWM_STAT_HOLD = 0 →
    s.fbit (pgPwm + n) F.PG_CTRL_ENABLE = true → (pairGet s n).stageAt < tick →
    let p := pgPwm + n
    let per := s.time.period / (2 * divSamples (s.fget p F.PWM_SCHED_DIV))
    let cmp := pwmConvert (s.fbit p F.PWM_CFG_MAP) per (s.fget p F.PWM_STAGE_VALUE)
    let h := hRef (s.fbit p F.PWM_CFG_MODE) per cmp 0
    ∃ t, exec (.pwmPeriodStart n tick) s = .next t ∧ t = { s with regs := t.regs, time := t.time, pwm := t.pwm } ∧ PagesOnly (· = p) s t ∧
      t.fget p F.PWM_STAT_STATE = pwmRun ∧ t.fget p F.PWM_ACTIVE_CMP = cmp % 2 ^ 19 ∧ t.fget p F.PWM_PER_PER = per % 2 ^ 19 ∧
      (pairGet t n).start = some tick ∧ (pairGet t n).href = h ∧
      (s.fget p F.PWM_CFG_DT = 0 → t.fget p F.PWM_STAT_H_ON = b2n h ∧ t.fget p F.PWM_STAT_L_ON = b2n (!h)) ∧
      (s.fget p F.PWM_CFG_DT ≠ 0 → t.fget p F.PWM_STAT_H_ON = 0 ∧ t.fget p F.PWM_STAT_L_ON = 0 ∧
        (pairGet t n).due = some (h, tick + 2 * s.fget p F.PWM_CFG_DT))) ∧
  (∀ s n tick start, n < s.var.pwmPairs → (pairGet s n).start = some start → start ≤ tick → s.fget (pgPwm + n) F.PWM_STAT_STATE = pwmRun →
    let p := pgPwm + n
    let x := pairGet s n
    let h := hRef x.center (s.fget p F.PWM_PER_PER) (s.fget p F.PWM_ACTIVE_CMP) ((tick - start) / 2)
    h ≠ x.href →
    ∃ t, exec (.pwmCompareMatch n tick) s = .next t ∧ t = { s with regs := t.regs, time := t.time, pwm := t.pwm } ∧
      RegsOnly [(p, F.PWM_STAT_STATE.off)] s t ∧ t.fget p F.PWM_STAT_STATE = pwmRun ∧ (pairGet t n).href = h ∧
      (x.dt = 0 → t.fget p F.PWM_STAT_H_ON = b2n h ∧ t.fget p F.PWM_STAT_L_ON = b2n (!h)) ∧
      (x.dt ≠ 0 → t.fget p F.PWM_STAT_H_ON = (if h then s.fget p F.PWM_STAT_H_ON else 0) ∧
        t.fget p F.PWM_STAT_L_ON = (if h then 0 else s.fget p F.PWM_STAT_L_ON) ∧ (pairGet t n).due = some (h, tick + 2 * x.dt))) ∧
  (∀ s n tick h due, n < s.var.pwmPairs → (pairGet s n).due = some (h, due) → due ≤ tick → s.fget (pgPwm + n) F.PWM_STAT_STATE = pwmRun →
    (pairGet s n).href = h →
    ∃ t, exec (.deadTimeExpiry n tick) s = .next t ∧ t = { s with regs := t.regs, time := t.time, pwm := t.pwm } ∧
      RegsOnly [(pgPwm + n, F.PWM_STAT_STATE.off)] s t ∧ (pairGet t n).due = none ∧
      t.fget (pgPwm + n) F.PWM_STAT_H_ON = b2n h ∧ t.fget (pgPwm + n) F.PWM_STAT_L_ON = b2n (!h))

/-- Whatever the state: where not both outputs of a pair are on, they are not both on after any of the commands that act on PWM pairs, trip
inputs and stops. -/
def Obligations.NeverBothOutputsOn : Prop :=
  ∀ s t c n,
    (∃ a k, c = Instr.pwmPeriodStart a k ∨ c = .pwmCompareMatch a k ∨ c = .deadTimeExpiry a k ∨ c = .tripInputActive a k ∨ c = .tripLatchSet a k) ∨
    (∃ a d r, c = .tripClr a d r ∨ c = .tripForce a d ∨ c = .loupeClear a d ∨ c = .loupeReq a d ∨ c = .loupeCauseClr a d) ∨
    (∃ i, c = .loupeSourceActive i ∨ c = .loupeSourceInactive i) ∨
    c = .loupeDead ∨ c = .loupeAliveRestore ∨ c = .recoveryWindowEnd ∨ c = .wdtExpiry ∨ c = .wdtHalf ∨ c = .vioSafeLoss →
    exec c s = .next t → ¬ (s.fbit (pgPwm + n) F.PWM_STAT_H_ON = true ∧ s.fbit (pgPwm + n) F.PWM_STAT_L_ON = true) → n < 16 →
    ¬ (t.fbit (pgPwm + n) F.PWM_STAT_H_ON = true ∧ t.fbit (pgPwm + n) F.PWM_STAT_L_ON = true)

/-- An input that becomes active shows in RAW with the tick, and with no filter sets its latch at once where it is enabled; with a filter the
latch sets after it. TRIP_FORCE sets the latches named. TRIP_CLR clears exactly the named latches whose input is inactive, and captures the
refused ones. A latch that sets counts. Registers change only on the TRIP page and the PWM pages, and where a clear is refused in the capture's. -/
def Obligations.TripLatchesHold : Prop :=
  ∀ s,
    (∀ i tick, i < 8 → s.loop.down = false → asleep s = false →
      ∃ t, exec (.tripInputActive i tick) s = .next t ∧ PagesOnly (fun q => q = pgTrip ∨ (pgPwm ≤ q ∧ q < pgPwm + s.var.pwmPairs)) s t ∧
        natBit (t.fget pgTrip F.TRIP_STAT_RAW) i = true ∧ t.pwm.tripSince.find? i = some tick ∧
        (s.fbit pgTrip (F.TRIP_CFG_ENABLE.sh (4 * i)) = true → s.fget pgTrip (F.TRIP_CFG_FILTER.sh (4 * i)) = 0 →
          natBit (t.fget pgTrip F.TRIP_STAT_LATCH) i = true ∧
          (natBit (s.fget pgTrip F.TRIP_STAT_LATCH) i = false →
            t.fget pgTrip (F.TRIP_COUNT_COUNT.sh (4 * i)) = min (s.fget pgTrip (F.TRIP_COUNT_COUNT.sh (4 * i)) + 1) 0xFFFF)) ∧
        (s.fget pgTrip (F.TRIP_CFG_FILTER.sh (4 * i)) ≠ 0 → t.fget pgTrip F.TRIP_STAT_LATCH = s.fget pgTrip F.TRIP_STAT_LATCH)) ∧
    (∀ i tick since, i < 8 → asleep s = false → s.pwm.tripSince.find? i = some since → s.fbit pgTrip (F.TRIP_CFG_ENABLE.sh (4 * i)) = true →
      natBit (s.fget pgTrip F.TRIP_STAT_RAW) i = true → since + 2 * s.fget pgTrip (F.TRIP_CFG_FILTER.sh (4 * i)) ≤ tick →
      ∃ t, exec (.tripLatchSet i tick) s = .next t ∧ natBit (t.fget pgTrip F.TRIP_STAT_LATCH) i = true ∧
        PagesOnly (fun q => q = pgTrip ∨ (pgPwm ≤ q ∧ q < pgPwm + s.var.pwmPairs)) s t ∧
        (natBit (s.fget pgTrip F.TRIP_STAT_LATCH) i = false →
          t.fget pgTrip (F.TRIP_COUNT_COUNT.sh (4 * i)) = min (s.fget pgTrip (F.TRIP_COUNT_COUNT.sh (4 * i)) + 1) 0xFFFF)) ∧
    (∀ part data, Writable s part pgTrip →
      ∃ t, exec (.tripForce part data) s = .next t ∧ PagesOnly (fun q => q = pgTrip ∨ (pgPwm ≤ q ∧ q < pgPwm + s.var.pwmPairs)) s t ∧
        ∀ i, i < 8 → natBit (t.fget pgTrip F.TRIP_STAT_LATCH) i = (natBit (s.fget pgTrip F.TRIP_STAT_LATCH) i || natBit (bitsOf data 0 8) i)) ∧
    (∀ part data (raw : BitVec 8), Writable s part pgTrip →
      ∃ t, exec (.tripClr part data raw) s = .next t ∧
        PagesOnly (fun q => q = pgTrip ∨ q = pgPart + part ∨ (pgPwm ≤ q ∧ q < pgPwm + s.var.pwmPairs)) s t ∧ t.fget pgTrip F.TRIP_STAT_RAW = raw.toNat ∧
        (∀ i, i < 8 → natBit (t.fget pgTrip F.TRIP_STAT_LATCH) i =
          (natBit (s.fget pgTrip F.TRIP_STAT_LATCH) i && !(natBit (bitsOf data 0 8) i && !raw.getLsbD i))) ∧
        ((∃ i, i < 8 ∧ natBit (bitsOf data 0 8) i = true ∧ natBit (s.fget pgTrip F.TRIP_STAT_LATCH) i = true ∧ raw.getLsbD i = true) →
          s.fbit pgTrip F.PG_ERR0_VALID = false → t.fget pgTrip F.PG_ERR0_CODE = 0x0A00))

/-- A stop request sets its cause, ORs its groups and WHOLE into the latches, and the first since a clear is kept with its source. A keyed LOUPE_REQ and
an enabled, unmasked level source that becomes active are such a request; a source that becomes inactive only drops its level. LOUPE_DEAD sets DEAD and is captured;
the alive line restored after a power-on reset of the Loupe clears it. The end of a recovery window with no masked source active, and LOUPE_CAUSE_CLR,
clear their registers and nothing else. The loss of VIO_SAFE undrives the pins, with no stop. A power-on reset of the Loupe leaves its page at the
reset values but for the first stop's time. -/
def Obligations.StopsAreLatched : Prop :=
  (∀ s src groups whole, src < 22 → groups < 256 →
    let t := stopRequest s src groups whole
    PagesOnly (fun q => q = pgLoupe ∨ (pgPwm ≤ q ∧ q < pgPwm + s.var.pwmPairs)) s t ∧
    natBit (t.fget pgLoupe F.LOUPE_CAUSE_SRC) src = true ∧ t.fget pgLoupe F.LOUPE_STOP_GROUPS = (s.fget pgLoupe F.LOUPE_STOP_GROUPS ||| groups) ∧
    t.fbit pgLoupe F.LOUPE_STOP_WHOLE = (s.fbit pgLoupe F.LOUPE_STOP_WHOLE || whole) ∧
    (s.fbit pgLoupe F.LOUPE_FIRST_VALID = false → t.fget pgLoupe F.LOUPE_FIRST_VALID = 1 ∧ t.fget pgLoupe F.LOUPE_FIRST_SOURCE = src ∧
      t.fget pgLoupe F.LOUPE_FIRST_GROUPS = groups ∧ t.fget pgLoupe F.LOUPE_FIRST_WHOLE = b2n whole) ∧
    (s.fbit pgLoupe F.LOUPE_FIRST_VALID = true → t.reg pgLoupe F.LOUPE_FIRST_VALID.off = s.reg pgLoupe F.LOUPE_FIRST_VALID.off)) ∧
  (∀ s part (data : Word), Writable s part pgLoupe → bitsOf data 16 16 = 0x5AFE →
    exec (.loupeReq part data) s = .next (stopRequest s 16 (bitsOf data 0 8) (data.getLsbD 8))) ∧
  (∀ s src, src < 14 → natBit (s.fget pgLoupe F.LOUPE_LEVEL_SRC) src = false → (loupeSource s src).enabled = true → loupeMasked s src = false →
    ∃ u, exec (.loupeSourceActive src) s = .next (stopRequest u src (loupeSource s src).groups (loupeSource s src).whole) ∧
      u = { s with regs := u.regs } ∧ RegsOnly [(pgLoupe, F.LOUPE_LEVEL_SRC.off)] s u ∧ natBit (u.fget pgLoupe F.LOUPE_LEVEL_SRC) src = true) ∧
  (∀ s src, src < 14 → natBit (s.fget pgLoupe F.LOUPE_LEVEL_SRC) src = true →
    ∃ t, exec (.loupeSourceInactive src) s = .next t ∧ t = { s with regs := t.regs, host := t.host } ∧
      RegsOnly [(pgLoupe, F.LOUPE_LEVEL_SRC.off), (pgLoupe, F.PG_IRQ_STAT_ERR.off)] s t ∧ natBit (t.fget pgLoupe F.LOUPE_LEVEL_SRC) src = false) ∧
  (∀ s, s.fbit pgTrip F.TRIP_STAT_DEAD = false → asleep s = false →
    ∃ t, exec .loupeDead s = .next t ∧ t.fbit pgTrip F.TRIP_STAT_DEAD = true ∧ t.loupe.resetSince = false ∧
      (s.fbit pgTrip F.PG_ERR0_VALID = false → t.fget pgTrip F.PG_ERR0_CODE = 0x0A01)) ∧
  (∀ s, s.fbit pgTrip F.TRIP_STAT_DEAD = true → s.loupe.resetSince = true →
    ∃ t, exec .loupeAliveRestore s = .next t ∧ t.fbit pgTrip F.TRIP_STAT_DEAD = false ∧
      PagesOnly (fun q => q = pgTrip ∨ (pgPwm ≤ q ∧ q < pgPwm + s.var.pwmPairs)) s t) ∧
  (∀ s, (∀ i, i < 16 → loupeMasked s i = true → natBit (s.fget pgLoupe F.LOUPE_LEVEL_SRC) i = false) →
    ∃ t, exec .recoveryWindowEnd s = .next t ∧ t = { s with regs := t.regs } ∧ RegsOnly [(pgLoupe, F.LOUPE_RECOVER_STAT_LEFT.off)] s t ∧
      t.reg pgLoupe F.LOUPE_RECOVER_STAT_LEFT.off = 0) ∧
  (∀ s part (data : Word), Writable s part pgLoupe → data.getLsbD 0 = true →
    ∃ t, exec (.loupeCauseClr part data) s = .next t ∧ t = { s with regs := t.regs } ∧
      RegsOnly [(pgLoupe, 0x04C), (pgLoupe, 0x050), (pgLoupe, 0x054), (pgLoupe, 0x058)] s t ∧
      t.fget pgLoupe F.LOUPE_CAUSE_SRC = 0 ∧ t.fget pgLoupe F.LOUPE_FIRST_VALID = 0) ∧
  (∀ s, exec .vioSafeLoss s = .next { s with loupe := { s.loupe with vioSafe := false } }) ∧
  (∀ s, s.power.off = false →
    ∃ t, exec .loupePowerOnReset s = .next t ∧ t.boot.loupeUp = true ∧ t.loupe.resetSince = true ∧
      ∀ o, o < 4096 → o ≠ 0x054 → o ≠ 0x058 → t.reg pgLoupe o = s.resetAt (pgLoupe * 4096 + o))

/-- A keyed LOUPE_CLEAR without RECOVER that no condition refuses clears the named groups, and WHOLE when it names all eight; a refused one changes no
latch and is captured with the reason. The two words of a feed, in order and not before WIN_MIN, put the watchdog in RUNNING with no time elapsed; an early second word and the
end of TIMEOUT expire it, captured with their reason. Half of TIMEOUT shows in ELAPSED and sets cause 3. -/
def Obligations.ClearsAndWatchdog : Prop :=
  (∀ s part (data : Word), Writable s part pgLoupe → bitsOf data 16 16 = 0x5AFE →
    (data.getLsbD 8 = false → clearRefusal s (bitsOf data 0 8) false = none →
      ∃ t, exec (.loupeClear part data) s = .next t ∧
        PagesOnly (fun q => q = pgLoupe ∨ (pgPwm ≤ q ∧ q < pgPwm + s.var.pwmPairs)) s t ∧
        t.fget pgLoupe F.LOUPE_STOP_GROUPS = s.fget pgLoupe F.LOUPE_STOP_GROUPS &&& (0xFF - bitsOf data 0 8) ∧
        t.fget pgLoupe F.LOUPE_STOP_WHOLE = (if bitsOf data 0 8 = 0xFF then 0 else s.fget pgLoupe F.LOUPE_STOP_WHOLE)) ∧
    (∀ why, clearRefusal s (bitsOf data 0 8) (data.getLsbD 8) = some why →
      ∃ t, exec (.loupeClear part data) s = .next t ∧ t = { s with regs := t.regs, host := t.host } ∧ RegsOnly (captureRegs s pgLoupe part) s t ∧
        (s.fbit pgLoupe F.PG_ERR0_VALID = false → t.fget pgLoupe F.PG_ERR0_CODE = 0x0A02 ∧ t.fget pgLoupe F.PG_ERR3 % 2 ^ 8 = why))) ∧
  (∀ s part units, Writable s part pgLoupe →
    (s.loupe.feedHalf = false →
      exec (.loupeWdtFeed part 0xA5A5 units) s = .next { s with loupe := { s.loupe with feedHalf := true } }) ∧
    (s.loupe.feedHalf = true → s.fget pgLoupe F.LOUPE_WDT_STAT_STATE = wdtRunning → s.fget pgLoupe F.LOUPE_WDT_CFG_WIN_MIN ≤ units →
      ∃ t, exec (.loupeWdtFeed part 0x5A5A units) s = .next t ∧ t.fget pgLoupe F.LOUPE_WDT_STAT_STATE = wdtRunning ∧
        t.fget pgLoupe F.LOUPE_WDT_STAT_ELAPSED = 0 ∧ t.loupe.feedHalf = false ∧
        RegsOnly [(pgLoupe, F.LOUPE_STOP_WDT.off), (pgLoupe, F.LOUPE_WDT_STAT_STATE.off), (pgLoupe, F.LOUPE_LEVEL_SRC.off),
          (pgLoupe, F.PG_IRQ_STAT_ERR.off)] s t) ∧
    (s.loupe.feedHalf = true → s.fget pgLoupe F.LOUPE_WDT_STAT_STATE = wdtRunning → units < s.fget pgLoupe F.LOUPE_WDT_CFG_WIN_MIN →
      s.fbit pgLoupe F.PG_ERR0_VALID = false →
      ∃ t, exec (.loupeWdtFeed part 0x5A5A units) s = .next t ∧ t.fget pgLoupe F.LOUPE_WDT_STAT_STATE = wdtExpired ∧
        t.fget pgLoupe F.PG_ERR0_CODE = 0x0A03 ∧ t.reg pgLoupe F.PG_ERR3.off = 2)) ∧
  (∀ s, s.fget pgLoupe F.LOUPE_WDT_STAT_STATE = wdtRunning →
    (∃ t, exec .wdtExpiry s = .next t ∧ t.fget pgLoupe F.LOUPE_WDT_STAT_STATE = wdtExpired ∧
      t.fget pgLoupe F.LOUPE_WDT_STAT_ELAPSED = s.fget pgLoupe F.LOUPE_WDT_CFG_TIMEOUT ∧
      natBit (t.fget pgLoupe F.LOUPE_LEVEL_SRC) 14 = true ∧
      (s.fbit pgLoupe F.PG_ERR0_VALID = false → t.fget pgLoupe F.PG_ERR0_CODE = 0x0A03 ∧ t.reg pgLoupe F.PG_ERR3.off = 1)) ∧
    (∃ t, exec .wdtHalf s = .next t ∧ t = { s with regs := t.regs, host := t.host } ∧
      RegsOnly [(pgLoupe, F.LOUPE_WDT_STAT_ELAPSED.off), (pgLoupe, F.PG_IRQ_STAT_ERR.off)] s t ∧
      t.fget pgLoupe F.LOUPE_WDT_STAT_ELAPSED = s.fget pgLoupe F.LOUPE_WDT_CFG_TIMEOUT / 2 ∧ t.reg pgLoupe F.PG_IRQ_STAT_ERR.off &&& 8 = 8))

/-- A good read frame answers, in the next frame, the Loupe register that the offset names, and changes nothing else. A good stop frame sets SPI_HOLD and level 15 and stops the
whole robot; a good release frame clears SPI_HOLD and level 15 and leaves the stop latched. A frame that fails its checks is marked bad in the
next response and captured. -/
def Obligations.SpiFrames : Prop :=
  ∀ s (frame : BitVec 64) clocks,
    (spiFrameOk frame clocks 0x03 = true → bitsOf frame 40 16 < 4096 →
      exec (.spiRead frame clocks) s = .next { s with loupe := { s.loupe with
        spiOffset := bitsOf frame 40 16, spiData := loupeShow s (bitsOf frame 40 16 / 4 * 4), spiBad := false } }) ∧
    (spiFrameOk frame clocks 0x5A = true →
      ∃ t, exec (.spiStop frame clocks) s = .next t ∧ t.fget pgLoupe F.LOUPE_STOP_SPI_HOLD = 1 ∧ natBit (t.fget pgLoupe F.LOUPE_LEVEL_SRC) 15 = true ∧
        t.fget pgLoupe F.LOUPE_STOP_GROUPS = 0xFF ∧ t.fget pgLoupe F.LOUPE_STOP_WHOLE = 1 ∧ t.loupe.spiBad = false ∧
        PagesOnly (fun q => q = pgLoupe ∨ (pgPwm ≤ q ∧ q < pgPwm + s.var.pwmPairs)) s t) ∧
    (spiFrameOk frame clocks 0xC3 = true →
      ∃ t, exec (.spiRelease frame clocks) s = .next t ∧ t = { s with regs := t.regs, host := t.host, loupe := t.loupe } ∧
        RegsOnly [(pgLoupe, F.LOUPE_STOP_SPI_HOLD.off), (pgLoupe, F.LOUPE_LEVEL_SRC.off), (pgLoupe, F.PG_IRQ_STAT_ERR.off)] s t ∧
        t.fget pgLoupe F.LOUPE_STOP_SPI_HOLD = 0 ∧ natBit (t.fget pgLoupe F.LOUPE_LEVEL_SRC) 15 = false ∧
        t.fget pgLoupe F.LOUPE_STOP_GROUPS = s.fget pgLoupe F.LOUPE_STOP_GROUPS ∧ t.loupe.spiBad = false) ∧
    (∀ c, (c = Instr.spiRead frame clocks ∧ spiFrameOk frame clocks 0x03 = false) ∨ (c = .spiStop frame clocks ∧ spiFrameOk frame clocks 0x5A = false) ∨
        (c = .spiRelease frame clocks ∧ spiFrameOk frame clocks 0xC3 = false) →
      ∃ t, exec c s = .next t ∧ t = { s with regs := t.regs, host := t.host, loupe := t.loupe } ∧ RegsOnly (captureRegs s pgLoupe 0) s t ∧
        t.loupe.spiBad = true ∧ (s.fbit pgLoupe F.PG_ERR0_VALID = false → t.fget pgLoupe F.PG_ERR0_CODE = 0x0507))

/-- With a plan in force and the device awake, a mirror refresh leaves in every word of the window the base-period number in the first and last
word of each page, and elsewhere the content the plan gives the word; only time changes. At a base-period start, or with the PTB stopped, an input
latch of the LOOP global page takes a held write of LOOP_PIN_CFG: the pin has its new configuration, a MODE change clears its counter, and no
write is held any more; no other register changes. -/
def Obligations.MirrorAndLatches : Prop :=
  (∀ s p, s.time.plan = some p → asleep s = false →
    ∃ t, exec .mirrorRefresh s = .next t ∧ t = { s with time := t.time } ∧
      (∀ i, i < 8192 → t.time.mirror.get 0 i = if mirrorReserved i then s.time.bpn else mirrorContent s i) ∧
      t.time = { s.time with ptb := t.time.ptb, mirror := t.time.mirror }) ∧
  (∀ s n (w : Word), n < 8 → (s.page pgLoopG).heldWrites = [(F.LOOP_PIN_CFG_MODE.off + 4 * n, w)] → pageBusy s pgLoopG = false →
    s.time.running = false ∨ s.now = s.time.startTick →
    let cfg := F.LOOP_PIN_CFG_MODE.off + 4 * n
    let cnt := F.LOOP_PIN_COUNT_COUNT.off + 4 * n
    ∃ t, exec (.inputLatch pgLoopG) s = .next t ∧ t = { s with regs := t.regs, pages := t.pages } ∧
      RegsOnly [(pgLoopG, cfg), (pgLoopG, cnt)] s t ∧ t.reg pgLoopG cfg = w &&& 0xFF07 ∧
      (bitsOf w 0 2 ≠ s.fget pgLoopG (F.LOOP_PIN_CFG_MODE.sh (4 * n)) → t.reg pgLoopG cnt = 0) ∧
      (bitsOf w 0 2 = s.fget pgLoopG (F.LOOP_PIN_CFG_MODE.sh (4 * n)) → t.reg pgLoopG cnt = s.reg pgLoopG cnt) ∧
      (t.page pgLoopG).heldWrites = [] ∧ ∀ q, q ≠ pgLoopG → t.page q = s.page q)

/-- With device memory ready, no position VACANT, no tile leaving and no remap pending: a started PLAN_LOAD whose image has come without poison, passes
every check and fits the Plan region waits for its epoch, shown in SOLV_PLAN, and ends with OK and the low half of the epoch's number; an image
that fails check c ends it with 0x0800 and c, and no plan waits for it. A started PLAN_STOP waits likewise. At a base-period start at position 0
that the epoch has reached, on a block that is no sync follower, the waiting plan is in force (none after a stop), nothing waits, the plan cycle starts
there, every pending release stage is discarded, and the PTB page has its epoch cause. -/
def Obligations.PlansComeAndGo : Prop :=
  (∀ s job x img d, startedJob s job 0x20 = some x → x.data = some (.good d []) → memReady s = true → imagePayloadOk x = true →
    s.part.resets.find? x.part = none → (∀ p, p < s.var.facetExposed → posValid s p = true) → s.facet.leaving = [] →
    s.fbit pgFmap F.FMAP_STAT_REMAP_PENDING = false →
    (img.firstFailed s = 0 → payBits x 128 32 ≤ planFree s 33 →
      ∃ t, exec (.planLoad job img) s = .next t ∧
        t = { s with regs := t.regs, time := { s.time with next := t.time.next }, qe := t.qe, host := t.host, mem := t.mem } ∧
        t.time.next = some { load := some img, stop := false, joined := false, bpn := epochFrom s s.now } ∧
        t.fget pgSolv F.SOLV_PLAN_PENDING = 1 ∧ t.fget pgSolv F.SOLV_PLAN_STOP = 0 ∧ t.fget pgSolv F.SOLV_LOAD_STATUS = stOk ∧
        jobGet t job = some { x with phase := .done, status := stOk, result := epochFrom s s.now % 2 ^ 32, data := none }) ∧
    (img.firstFailed s ≠ 0 →
      ∃ t, exec (.planLoad job img) s = .next t ∧ t = { s with regs := t.regs, qe := t.qe, host := t.host } ∧
        t.fget pgSolv F.SOLV_LOAD_STATUS = 0x0800 ∧
        jobGet t job = some { x with phase := .done, status := 0x0800, result := img.firstFailed s % 2 ^ 32, data := none })) ∧
  (∀ s job x, startedJob s job 0x21 = some x → s.part.resets.find? x.part = none →
    ∃ t, exec (.planStop job) s = .next t ∧
      t = { s with regs := t.regs, time := { s.time with next := t.time.next }, qe := t.qe, mem := t.mem } ∧
      t.time.next = some { load := none, stop := true, joined := false, bpn := epochFrom s s.now } ∧
      t.fget pgSolv F.SOLV_PLAN_PENDING = 1 ∧ t.fget pgSolv F.SOLV_PLAN_STOP = 1 ∧
      jobGet t job = some { x with phase := .done, status := stOk, result := epochFrom s s.now % 2 ^ 32, data := none }) ∧
  (∀ s e, s.time.running = true → planPos s = 0 → s.time.next = some e → e.bpn ≤ s.time.bpn.toNat → e.joined = false →
    s.facet.loads = [] → s.facet.remaps = [] → s.facet.remapBpn = none → s.fget pgPtb F.PTB_SYNC_CTRL_MODE ≠ 2 →
    ∃ t, exec .planEpoch s = .next t ∧ t.time.plan = e.load ∧ t.time.next = none ∧
      t.time.origin = s.time.startTick ∧ t.time.epochTick = s.time.startTick ∧ t.time.epochBpn = s.time.bpn.toNat ∧
      t.time.bpn = s.time.bpn ∧ t.time.ptb = s.time.ptb ∧ (∀ p, e.load = some p → t.time.period = p.period ∧ t.time.cycleH = p.cycleH) ∧
      (∀ r, (t.time.releases.get {} r).pending = none) ∧
      t.fget pgSolv F.SOLV_PLAN_IN_FORCE = b2n e.load.isSome ∧ t.fget pgSolv F.SOLV_PLAN_PENDING = 0 ∧
      (t.reg pgPtb F.PG_IRQ_STAT_ERR.off).getLsbD 1 = true)

/-- At a sample instant of a scheduled, enabled channel in service the codes and counts its selectors name are latched; where a start is due the
channel starts afresh, RUNNING with no sample counted (a value that an outer channel writes to OUTER at that tick or later stays: the model's
reading, assumption 63). At the latch, with no write held: an enabled channel without a fault counts one sample and
is RUNNING or HELD, and where it is held or blocked the values routed last stay; with ENABLE = 0 the channel is DISABLED and its sample dropped; a
fault of its coefficients takes it out of service with FAULT and DISABLED. -/
def Obligations.LoopSamples : Prop :=
  ∀ s c tick,
    let p := pgCh + c
    let pick := fun codes : List Nat => (List.range 5).map fun k => codes.getD (selOf s p k) 0 % 4096
    let counts := (List.range 5).map fun k =>
      if selIsPin (selOf s p k) then s.fget pgLoopG (F.LOOP_PIN_COUNT_COUNT.sh (4 * (selOf s p k - 32))) else 0
    (∀ codes, chanScheduled s c = true → isSampleInstant s c tick = true → s.fbit p F.PG_CTRL_ENABLE = true →
      s.fbit p F.PG_STAT_RESET_BUSY = false → pageOut s p = false → (s.page p).joining = false →
      ((chanGet s c).startDue = false →
        ∃ t, exec (.loopSampleInstant c tick codes) s = .next t ∧ t = { s with time := t.time, loop := t.loop } ∧
          chanGet t c = { chanGet s c with sampling := some { at_ := tick, codes := pick codes, counts := counts } } ∧
          ∀ k, k ≠ c → chanGet t k = chanGet s k) ∧
      ((chanGet s c).startDue = true →
        ∃ t, exec (.loopSampleInstant c tick codes) s = .next t ∧ t = { s with regs := t.regs, time := t.time, loop := t.loop } ∧
          RegsOnly [(p, F.CH_STAT_STATE.off)] s t ∧ t.fget p F.CH_STAT_STATE = chRunning ∧ t.fget p F.CH_STAT_SAMPLES = 0 ∧
          chanGet t c = { initDue := true, first := true, settleLeft := s.fget p F.CH_SETTLE_N, out0 := (chanGet s c).out0,
                          out1 := (chanGet s c).out1, sampling := some { at_ := tick, codes := pick codes, counts := counts },
                          outer := if tick ≤ (chanGet s c).outerAt then (chanGet s c).outer else 0,
                          outerAt := if tick ≤ (chanGet s c).outerAt then (chanGet s c).outerAt else 0 } ∧
          ∀ k, k ≠ c → chanGet t k = chanGet s k)) ∧
    (∀ sm, c < s.var.loopChannels → (chanGet s c).sampling = some sm → tick = sm.at_ + 288 → (s.page p).heldWrites = [] → pageOut s p = false →
      (s.fbit p F.PG_CTRL_ENABLE = true →
        ∃ t, exec (.loopLatch c tick .none) s = .next t ∧ PagesOnly (fun q => q = p ∨ q = pgLoopG ∨ (pgPwm ≤ q ∧ q < pgPwm + 16)) s t ∧
          (chanGet t c).sampling = none ∧ t.fget p F.CH_STAT_SAMPLES = (s.fget p F.CH_STAT_SAMPLES + 1) % 2 ^ 16 ∧
          (t.fget p F.CH_STAT_STATE = chRunning ∨ t.fget p F.CH_STAT_STATE = chHeld) ∧
          t.fget p F.CH_STAT_BLOCKED = b2n (chanBlocked s c) ∧
          (s.fbit p F.CH_CTRL_HOLD = true → chanBlocked s c = false → t.fget p F.CH_STAT_STATE = chHeld) ∧
          (s.fbit p F.CH_CTRL_HOLD = true ∨ chanBlocked s c = true →
            (chanGet t c).out0 = (chanGet s c).out0 ∧ (chanGet t c).out1 = (chanGet s c).out1)) ∧
      (s.fbit p F.PG_CTRL_ENABLE = false →
        ∃ t, exec (.loopLatch c tick .none) s = .next t ∧ (chanGet t c).sampling = none ∧ t.fget p F.CH_STAT_STATE = chDisabled ∧
          (chanGet t c).out0 = chQ s p F.CH_SAFE_SAFE0 ∧ (chanGet t c).out1 = chQ s p F.CH_SAFE_SAFE1 ∧ (chanGet t c).law = (chanGet s c).law) ∧
      (s.fbit p F.PG_CTRL_ENABLE = true → s.fbit p F.PG_ERR0_VALID = false →
        ∃ t, exec (.loopLatch c tick .coef) s = .next t ∧ pageOut t p = true ∧ t.fbit p F.PG_STAT_FAULT = true ∧
          t.fget p F.CH_STAT_STATE = chDisabled ∧ t.fget p F.PG_ERR0_CODE = 0x0501 ∧ t.reg p F.PG_ERR3.off = 1))

/-- On a built pulse input an accepted edge counts up by one in MODE 3 at a rising edge of A; in quadrature one edge counts up or down by the
order of the lines, and edges on both lines at once set the pin's QUAD bit and count nothing. A started LOOP_TEST in range, with no test running, on a
channel that runs and is in service, becomes the running test. A started LOOP_TABLE whose data has come fills the table's first N entries and ends with OK and N. A
started LOOP_READ writes the captures it names to its partition's memory and ends with OK and their number. -/
def Obligations.PulseInputsAndTests : Prop :=
  (∀ s pin a b, pin < s.var.pinInputs → s.loop.down = false →
    let cnt := F.LOOP_PIN_COUNT_COUNT.sh (4 * pin)
    let a1 := s.loop.pinA.get false pin != a
    let b1 := s.loop.pinB.get false pin != b
    let mode := s.fget pgLoopG (F.LOOP_PIN_CFG_MODE.sh (4 * pin))
    ∃ t, exec (.pinEdge pin a b) s = .next t ∧ t = { s with regs := t.regs, loop := { s.loop with pinA := t.loop.pinA, pinB := t.loop.pinB }, host := t.host } ∧
      RegsOnly [(pgLoopG, cnt.off), (pgLoopG, F.LOOP_PIN_ERR_QUAD.off), (pgLoopG, F.PG_IRQ_STAT_ERR.off)] s t ∧
      t.loop.pinA.get false pin = a1 ∧ t.loop.pinB.get false pin = b1 ∧
      (mode = 3 → t.fget pgLoopG cnt = (s.fget pgLoopG cnt + if a && a1 then 1 else 0) % 2 ^ 32) ∧
      (mode = 1 → a = true → b = true → t.fget pgLoopG cnt = s.fget pgLoopG cnt ∧ natBit (t.fget pgLoopG F.LOOP_PIN_ERR_QUAD) pin = true) ∧
      (mode = 1 → a = true → b = false → t.fget pgLoopG cnt = (s.fget pgLoopG cnt + if a1 != b1 then 1 else 2 ^ 32 - 1) % 2 ^ 32) ∧
      (mode = 1 → a = false → b = true → t.fget pgLoopG cnt = (s.fget pgLoopG cnt + if a1 != b1 then 2 ^ 32 - 1 else 1) % 2 ^ 32) ∧
      (mode = 0 ∨ (a = false ∧ b = false) → t.regs = s.regs)) ∧
  (∀ s job x, startedJob s job 0x70 = some x → x.stage = 0 → payBits x 32 5 < s.var.loopChannels → loopTestBad x = false → s.loop.test = none →
    (payBits x 40 3 = 4 → s.fget pgLoopG F.LOOP_TABLE_LEN_ENTRIES ≠ 0) → pageOut s (pgCh + payBits x 32 5) = false →
    s.fget (pgCh + payBits x 32 5) F.CH_STAT_STATE = chRunning ∨ s.fget (pgCh + payBits x 32 5) F.CH_STAT_STATE = chHeld →
    ∃ t tt, exec (.loopTest job) s = .next t ∧ t = { s with regs := t.regs, qe := t.qe, loop := { s.loop with test := some tt } } ∧
      RegsOnly [(pgLoopG, F.LOOP_TEST_STAT_RUNNING.off), (pgLoopG, F.LOOP_TEST_DONE_SAMPLES.off), (pgLoopG, F.LOOP_CAP_STAT_ENTRIES.off)] s t ∧
      tt.job = job ∧ tt.chan = payBits x 32 5 ∧ tt.kind = payBits x 40 3 ∧ tt.len = payBits x 64 17 ∧ tt.n = 0 ∧ tt.entries = 0 ∧
      t.fget pgLoopG F.LOOP_TEST_STAT_RUNNING = 1 ∧ t.fget pgLoopG F.LOOP_TEST_STAT_CHANNEL = payBits x 32 5 ∧
      t.fget pgLoopG F.LOOP_TEST_DONE_SAMPLES = 0 ∧ t.fget pgLoopG F.LOOP_CAP_STAT_ENTRIES = 0 ∧ jobGet t job = some { x with stage := 1 }) ∧
  (∀ s job x d, startedJob s job 0x71 = some x → s.part.resets.find? x.part = none →
    let n := payBits x 128 13
    payBits x 64 64 % 8 = 0 → 1 ≤ n → n ≤ 4096 → s.loop.test = none → x.data = some (.good d []) → 2 * n ≤ d.length →
    ∃ t, exec (.loopTable job) s = .next t ∧
      t = { s with regs := t.regs, qe := t.qe, loop := { s.loop with table := t.loop.table, tablePoison := t.loop.tablePoison } } ∧
      (∀ i, i < n → t.loop.table.get 0 i = (d.getD (2 * i) 0).toNat + 256 * (d.getD (2 * i + 1) 0).toNat) ∧
      (∀ i, n ≤ i → t.loop.table.get 0 i = s.loop.table.get 0 i) ∧ (∀ i ∈ t.loop.tablePoison, n ≤ i) ∧
      RegsOnly [(pgLoopG, F.LOOP_TABLE_LEN_ENTRIES.off)] s t ∧ t.fget pgLoopG F.LOOP_TABLE_LEN_ENTRIES = n ∧
      jobGet t job = some { x with phase := .done, status := stOk, result := n, data := none }) ∧
  (∀ s job x, startedJob s job 0x72 = some x → s.part.resets.find? x.part = none → x.cancel = false →
    let n := payBits x 144 17
    payBits x 64 64 % 8 = 0 → 1 ≤ n → payBits x 128 16 + n ≤ 65536 → s.qe.dead = false → s.host.bme.get false x.part = true →
    ∃ t, exec (.loopRead job false) s = .next t ∧ t = { s with qe := { s.qe with jobs := t.qe.jobs }, host := t.host } ∧
      t.host.out = .write x.part (payBits x 64 64)
        ((List.range n).flatMap fun i => leBytes 4 (s.loop.capture.get 0 (payBits x 128 16 + i)).toNat) :: s.host.out ∧
      jobGet t job = some { x with phase := .done, status := stOk, result := n, data := none })

/-- In a Tray in progress, each integer and FX45 operation of the scalar slots leaves one result for register D under its guard: its function of
the operands A and B with the latency of Table 6.6, poisoned where an operand is; MOV takes B, TICK.RD the tile's copy at issue. A compare of scalars
leaves its outcome for all 16 lanes of the destination predicate under lane 0 of the guard, one of vectors lane by lane; PAND, POR, PXOR, PNOT and PSET
leave theirs lane by lane, after one cycle. Nothing else changes. -/
def Obligations.SlotScalarsAndPredicates : Prop :=
  (∀ s tile k,
    let c := slotCtx s tile k
    let a := saA c
    let b := saB c
    let res := fun v : Cont => guarded (c.guard 0) (.s (bitsOf c.w 45 6)) v
    (∀ e ∈ ([(Instr.add, 0x01, 1, fun a b => a + b), (Instr.sub, 0x02, 1, fun a b => a - b), (Instr.and, 0x03, 1, fun a b => a &&& b),
        (Instr.or, 0x04, 1, fun a b => a ||| b), (Instr.xor, 0x05, 1, fun a b => a ^^^ b), (Instr.shl, 0x06, 1, fun a b => a <<< (b.toNat % 64)),
        (Instr.shr, 0x07, 1, fun a b => a >>> (b.toNat % 64)), (Instr.sar, 0x08, 1, fun a b => a.sshiftRight (b.toNat % 64)),
        (Instr.mul, 0x09, 3, fun a b => a * b), (Instr.min, 0x0A, 1, fun a b => if BitVec.slt b a then b else a),
        (Instr.max, 0x0B, 1, fun a b => if BitVec.slt b a then a else b),
        (Instr.fadd, 0x20, 3, fun a b => BitVec.ofNat 64 (fxAdd a.toNat b.toNat)), (Instr.fsub, 0x21, 3, fun a b => BitVec.ofNat 64 (fxSub a.toNat b.toNat)),
        (Instr.fmul, 0x22, 4, fun a b => BitVec.ofNat 64 (fxMulPass 3 a.toNat b.toNat))] :
        List ((Nat → Nat → Instr) × Nat × Nat × (DWord → DWord → DWord))),
      SlotMid s tile k .sa e.2.1 →
      ∃ t, exec (e.1 tile k) s = .next t ∧ SlotLeaves s t tile k e.2.2.1 (res (cont (e.2.2.2 a.val b.val) (a.poison || b.poison)))) ∧
    (SlotMid s tile k .sa 0x0C → ∃ t, exec (.mov tile k) s = .next t ∧ SlotLeaves s t tile k 1 (res b)) ∧
    (SlotMid s tile k .sa 0x0D → ∃ t, exec (.tickRd tile k) s = .next t ∧
      SlotLeaves s t tile k 1 (res { val := BitVec.ofNat 64 (4 * (tileGet s tile).cycle / 5) })) ∧
    (SlotMid s tile k .sa 0x23 → ∃ t, exec (.fcvtI2f tile k) s = .next t ∧
      SlotLeaves s t tile k 3 (res (cont (BitVec.ofNat 64 (fxOfInt a.val.toNat)) a.poison))) ∧
    (SlotMid s tile k .sa 0x24 → ∃ t, exec (.fcvtF2i tile k) s = .next t ∧
      SlotLeaves s t tile k 3 (res (cont (BitVec.ofNat 64 (fxToInt a.val.toNat)) a.poison)))) ∧
  (∀ s tile k,
    let c := slotCtx s tile k
    let vec := bitAt c.w 46
    let lanes := fun (g : Nat → Guard) (f : Nat → Bool) (p : Nat → Bool) =>
      (List.range 16).flatMap fun n => guarded (g n) (fun x : Cont => FxWrite.q (bitsOf c.w 47 4) n (x.val.getLsbD 0) x.poison)
        (cont (if f n then 1 else 0) (p n))
    let a := fun n => if vec then c.x.regs.vGet (bitsOf c.w 40 6) n else c.x.regs.sGet (bitsOf c.w 40 6)
    (∀ e ∈ ([(Instr.cmpEq, 0x01, fun a b => decide (a = b)), (Instr.cmpNe, 0x02, fun a b => decide (a ≠ b)),
        (Instr.cmpLt, 0x03, fun a b => decide (a.toInt < b.toInt)), (Instr.cmpLtu, 0x04, fun a b => decide (a.toNat < b.toNat)),
        (Instr.cmpLe, 0x05, fun a b => decide (a.toInt ≤ b.toInt)), (Instr.fcmpLt, 0x06, fun a b => fxLt a.toNat b.toNat),
        (Instr.fcmpLe, 0x07, fun a b => fxLe a.toNat b.toNat), (Instr.fcmpEq, 0x08, fun a b => fxEq a.toNat b.toNat)] :
        List ((Nat → Nat → Instr) × Nat × (DWord → DWord → Bool))),
      SlotMid s tile k .pred e.2.1 →
      ∃ t, exec (e.1 tile k) s = .next t ∧
        SlotLeaves s t tile k 1 (lanes (fun n => c.guard (if vec then n else 0)) (fun n => e.2.2 (a n).val (predB c vec n).val)
          fun n => (a n).poison || (predB c vec n).poison)) ∧
    (∀ e ∈ ([(Instr.pand, 0x10, fun a b => a && b), (Instr.por, 0x11, fun a b => a || b), (Instr.pxor, 0x12, fun a b => xor a b)] :
        List ((Nat → Nat → Instr) × Nat × (Bool → Bool → Bool))),
      SlotMid s tile k .pred e.2.1 →
      ∃ t, exec (e.1 tile k) s = .next t ∧
        SlotLeaves s t tile k 1 (lanes c.guard (fun n => e.2.2 ((predQA c).bits.getLsbD n) ((predQB c).bits.getLsbD n))
          fun n => (predQA c).poison.getLsbD n || (predQB c).poison.getLsbD n)) ∧
    (SlotMid s tile k .pred 0x13 → ∃ t, exec (.pnot tile k) s = .next t ∧
      SlotLeaves s t tile k 1 (lanes c.guard (fun n => !(predQA c).bits.getLsbD n) fun n => (predQA c).poison.getLsbD n)) ∧
    (SlotMid s tile k .pred 0x14 → ∃ t, exec (.pset tile k) s = .next t ∧
      SlotLeaves s t tile k 1 (lanes c.guard (fun n => c.w.getLsbD n) fun _ => false)))

/-- In a Tray in progress, each vector operation leaves for the 16 lanes of D, each under its guard, its function of the lanes of its operands, and a
multiplying one takes 3 cycles and its PASS. VRED.ADD leaves the sum in lane 0. A matrix operation leaves all 64 elements of its accumulator, one row, or
one half of a vector. A special function works on a scalar or on every lane. A poisoned operand poisons its result; nothing else changes. -/
def Obligations.SlotVectors : Prop :=
  ∀ s tile k,
    let c := slotCtx s tile k
    let pass := bitsOf c.w 25 2
    let lane := fun (lat : Nat) (t : State) (f : Nat → DWord) (p : Nat → Bool) =>
      SlotLeaves s t tile k lat ((List.range 16).flatMap fun n => guarded (c.guard n) (.v (bitsOf c.w 45 6) n) (cont (f n) (p n)))
    let a := fun n => c.x.regs.vGet (bitsOf c.w 39 6) n
    let b := fun n => if c.w.getLsbD 24 then c.x.regs.sGet (bitsOf c.w 33 6) else c.x.regs.vGet (bitsOf c.w 33 6) n
    let cc := fun n => c.x.regs.vGet (bitsOf c.w 27 6) n
    let acc := bitsOf c.w 48 3
    let all := fun (mk : Nat → Nat → Cont → FxWrite) (v : Nat → Nat → Cont) =>
      (List.range 64).flatMap fun n => guarded (c.guard 0) (mk (n / 8) (n % 8)) (v (n / 8) (n % 8))
    let h := fun (bit n : Nat) => if c.w.getLsbD bit then 8 + n else n
    (∀ e ∈ ([(Instr.vaddI, 0x01, 2, fun a b => a + b), (Instr.vsubI, 0x02, 2, fun a b => a - b), (Instr.vand, 0x03, 2, fun a b => a &&& b),
        (Instr.vor, 0x04, 2, fun a b => a ||| b), (Instr.vxor, 0x05, 2, fun a b => a ^^^ b),
        (Instr.vfadd, 0x10, 3, fun a b => BitVec.ofNat 64 (fxAdd a.toNat b.toNat)), (Instr.vfsub, 0x11, 3, fun a b => BitVec.ofNat 64 (fxSub a.toNat b.toNat)),
        (Instr.vfmul, 0x12, 3 + pass, fun a b => BitVec.ofNat 64 (fxMulPass pass a.toNat b.toNat)),
        (Instr.vfmax, 0x15, 2, fun a b => BitVec.ofNat 64 (fxMax a.toNat b.toNat)), (Instr.vfmin, 0x16, 2, fun a b => BitVec.ofNat 64 (fxMin a.toNat b.toNat))] :
        List ((Nat → Nat → Instr) × Nat × Nat × (DWord → DWord → DWord))),
      SlotMid s tile k .va e.2.1 →
      ∃ t, exec (e.1 tile k) s = .next t ∧
        lane e.2.2.1 t (fun n => e.2.2.2 (a n).val (b n).val) fun n => (a n).poison || (b n).poison) ∧
    (∀ e ∈ ([(Instr.vfma, 0x13, fxFma), (Instr.vfnma, 0x14, fxFnma)] : List ((Nat → Nat → Instr) × Nat × (Nat → Nat → Nat → Nat → Nat))),
      SlotMid s tile k .va e.2.1 →
      ∃ t, exec (e.1 tile k) s = .next t ∧
        lane (3 + pass) t (fun n => BitVec.ofNat 64 (e.2.2 pass (a n).val.toNat (b n).val.toNat (cc n).val.toNat))
          fun n => (a n).poison || (b n).poison || (cc n).poison) ∧
    (SlotMid s tile k .va 0x17 → ∃ t, exec (.vfabs tile k) s = .next t ∧
      lane 2 t (fun n => BitVec.ofNat 64 (fxAbs (a n).val.toNat)) fun n => (a n).poison) ∧
    (SlotMid s tile k .va 0x21 → ∃ t, exec (.vredAdd tile k) s = .next t ∧
      lane 6 t (fun n => if n = 0 then BitVec.ofNat 64 (fxReduce ((List.range 16).map fun i => (a i).val.toNat)) else 0)
        fun _ => (List.range 16).any fun i => (a i).poison) ∧
    (SlotMid s tile k .mx 0x01 → ∃ t, exec (.mxZero tile k) s = .next t ∧ SlotLeaves s t tile k 1 (all (.acc acc) fun _ _ => {})) ∧
    (SlotMid s tile k .mx 0x02 → ∃ t, exec (.mxOuter tile k) s = .next t ∧
      SlotLeaves s t tile k (3 + bitsOf c.w 32 2) (all (.accAdd acc) fun i j =>
        let x := c.x.regs.vGet (bitsOf c.w 42 6) (h 41 i)
        let y := c.x.regs.vGet (bitsOf c.w 35 6) (h 34 j)
        cont (BitVec.ofNat 64 (fxMulPass (bitsOf c.w 32 2) x.val.toNat y.val.toNat)) (x.poison || y.poison))) ∧
    (SlotMid s tile k .mx 0x03 → ∃ t, exec (.mxRowout tile k) s = .next t ∧
      SlotLeaves s t tile k 3 ((List.range 8).flatMap fun j =>
        guarded (c.guard (h 22 j)) (.v (bitsOf c.w 23 6) (h 22 j)) (c.x.regs.aGet acc (bitsOf c.w 29 3) j))) ∧
    (SlotMid s tile k .mx 0x04 → ∃ t, exec (.mxRowin tile k) s = .next t ∧
      SlotLeaves s t tile k 1 ((List.range 8).flatMap fun j =>
        guarded (c.guard 0) (.acc acc (bitsOf c.w 29 3) j) (c.x.regs.vGet (bitsOf c.w 42 6) (h 41 j)))) ∧
    (∀ e ∈ ([(Instr.rcp, 0x01, 6, fun a _ => fxRcp a, false), (Instr.sqrt, 0x02, 8, fun a _ => fxSqrt a, false),
        (Instr.rsqrt, 0x03, 8, fun a _ => fxRsqrt a, false), (Instr.divstep, 0x04, 4, fxDivstep, true)] :
        List ((Nat → Nat → Instr) × Nat × Nat × (Nat → Nat → Nat) × Bool)),
      SlotMid s tile k .sf e.2.1 →
      let two := e.2.2.2.2
      let f := fun x y : Cont => cont (BitVec.ofNat 64 (e.2.2.2.1 x.val.toNat y.val.toNat)) (x.poison || (two && y.poison))
      ∃ t, exec (e.1 tile k) s = .next t ∧
        SlotLeaves s t tile k e.2.2.1
          (if c.w.getLsbD 32 then (List.range 16).flatMap fun n =>
              guarded (c.guard n) (.v (bitsOf c.w 45 6) n) (f (a n) (c.x.regs.vGet (bitsOf c.w 33 6) n))
            else guarded (c.guard 0) (.s (bitsOf c.w 45 6)) (f (c.x.regs.sGet (bitsOf c.w 39 6)) (c.x.regs.sGet (bitsOf c.w 33 6)))))

/-- In a Tray in progress: NOP leaves nothing. A load in range sees each word in the SSB before SRAM and leaves it after 4 cycles, one word, 16 lanes or
one word for all lanes; out of range it leaves 0 and is captured as ADDR_RANGE. A store in range holds the words that pass their guards for the end of the
Tray, where with no level open the word is in SRAM, and one out of range is dropped and captured. As the last slot of its Tray, SEND puts one datum on
the mesh, and RECV empties its channel and leaves the datum after 2 cycles, or poison with CROSSING_LATE where the channel is empty. -/
def Obligations.SlotStorageAndMesh : Prop :=
  ∀ s tile k,
    let c := slotCtx s tile k
    let x := tileGet s tile
    let p := pgFt + tile
    let a := (lsAddr c).1
    let d := bitsOf c.w 45 6
    let vec := c.w.getLsbD 44
    let lanes := fun v : Nat → Cont => (List.range 16).flatMap fun n => guarded (c.guard n) (.v d n) (v n)
    (SlotMid s tile k (slotClass k) 0 → ∃ t, exec (.slotNop tile k) s = .next t ∧ SlotLeaves s t tile k 1 []) ∧
    ((lsAddr c).2 = false → a < 0x40000 →
      (SlotMid s tile k .ls 0x01 → vec = false → wordsGood x (a / 8) 1 →
        ∃ t, exec (.ld tile k) s = .next t ∧ SlotLeaves s t tile k 4 (guarded (c.guard 0) (.s d) (wordSeen x (a / 8)))) ∧
      (SlotMid s tile k .ls 0x01 → vec = true → wordsGood x (a / 128 * 16) 16 →
        ∃ t, exec (.ld tile k) s = .next t ∧ SlotLeaves s t tile k 4 (lanes fun n => wordSeen x (a / 128 * 16 + n))) ∧
      (SlotMid s tile k .ls 0x03 → wordsGood x (a / 8) 1 →
        ∃ t, exec (.ldBc tile k) s = .next t ∧ SlotLeaves s t tile k 4 (lanes fun _ => wordSeen x (a / 8)))) ∧
    (SlotMid s tile k .ls 0x01 → vec = false → c.guard 0 = .pass → (lsAddr c).2 = false → 0x40000 ≤ a → s.fbit p F.PG_ERR0_VALID = false →
      ∃ t, exec (.ld tile k) s = .next t ∧ RegsOnly (captureRegs s p 0) s t ∧ t.fget p F.PG_ERR0_CODE = 0x0604 ∧
        (tileGet t tile).results = x.results ++ [{ due := x.cycle + 4, issue := x.cycle, slot := k, levels := x.levels.map (·.id), writes := [.s d {}] }]) ∧
    (let words := if vec then (List.range 16).filter fun n => decide (c.guard n = .pass) else if c.guard 0 = .pass then [0] else []
     let first := if vec then a / 128 * 16 else a / 8
     let val := fun n => if vec then x.regs.vGet d n else x.regs.sGet d
     (lsAddr c).2 = false →
      (SlotMid s tile k .ls 0x02 → words = [] ∨ (128 * tileTrays s tile ≤ a ∧ a < 0x41000) →
        ∃ t, exec (.st tile k) s = .next t ∧ TileOnly s t tile ∧
          let stores := x.tray.stores ++ words.map fun n => { slot := k, word := first + n, val := val n }
          tileGet t tile = { x with tray := { x.tray with done := natPutBit x.tray.done k true, stores := stores } }) ∧
      (SlotMid s tile k .ls 0x02 → words ≠ [] → a < 128 * tileTrays s tile ∨ 0x41000 ≤ a → s.fbit p F.PG_ERR0_VALID = false →
        ∃ t, exec (.st tile k) s = .next t ∧ RegsOnly (captureRegs s p 0) s t ∧ t.fget p F.PG_ERR0_CODE = 0x0604 ∧
          tileGet t tile = { x with tray := { x.tray with done := natPutBit x.tray.done k true } }) ∧
      (SlotLast s tile k .ls 0x02 → vec = false → c.guard 0 = .pass → x.levels = [] → 128 * tileTrays s tile ≤ a → a < 0x40000 →
        ∃ t, exec (.st tile k) s = .next t ∧ t = { s with time := t.time, mem := t.mem, facet := { s.facet with tiles := t.facet.tiles } } ∧
          tileGet t tile = { trayOver x with sram := x.sram.put (a / 8) (x.regs.sGet d).val (x.regs.sGet d).poison })) ∧
    (SlotLast s tile k .msend 0x01 → (vec = false → c.guard 0 = .pass) → (vec = true → ∃ n, n < 16 ∧ c.guard n = .pass) →
      ∃ t m, exec (.send tile k) s = .next t ∧
        t = { s with time := t.time, facet := { s.facet with tiles := t.facet.tiles, mesh := s.facet.mesh ++ [m] }, freeCtr := s.freeCtr + 1 } ∧
        tileGet t tile = trayOver x ∧ m.pos = bitsOf c.w 34 6 ∧ m.chan = bitsOf c.w 40 4 ∧ m.spec = !x.levels.isEmpty ∧
        (vec = false → m.lanes.getD 0 {} = x.regs.sGet d) ∧
        (vec = true → ∀ n, n < 16 → c.guard n = .pass → m.lanes.getD n {} = x.regs.vGet d n)) ∧
    (SlotLast s tile k .mrecv 0x01 → vec = false → c.w.getLsbD 39 = false → c.guard 0 = .pass →
      let ch := bitsOf c.w 40 4
      let left := fun v : Cont => x.results ++ [{ due := x.cycle + 2, issue := x.cycle, slot := 7, levels := x.levels.map (·.id), writes := [.s d v] }]
      (∀ m, x.chans.find? ch = some m → m.cycle < x.cycle → m.spec = false →
        ∃ t, exec (.recv tile k) s = .next t ∧ t = { s with time := t.time, facet := { s.facet with tiles := t.facet.tiles } } ∧
          tileGet t tile = { trayOver x with chans := x.chans.del ch, results := left (m.lanes.getD 0 {}) }) ∧
      (x.chans.find? ch = none → senderLost s tile ch = false → s.fbit p F.PG_ERR0_VALID = false →
        ∃ t, exec (.recv tile k) s = .next t ∧ RegsOnly (captureRegs s p 0) s t ∧ t.fget p F.PG_ERR0_CODE = 0x0F02 ∧
          tileGet t tile = { trayOver x with results := left { poison := true } }))

/-- As the last slot of a Tray with no other action, outside a branch's delay and every loop, with its guard passing: BR begins its 5 delay Trays with
its target; a BR whose guard fails begins them with none; LOOP.SET opens its loop; WAIT.BP waits for its phase; HALT ends the program. SPEC.BEGIN opens
a level with a copy of the registers, SPEC.COMMIT of level 1 keeps the registers and commits its stores, and SPEC.SQUASH of level 1 restores the copy,
drops its stores and results and goes on at the target 6 cycles later; both are counted. A branch whose guard is poisoned halts the tile with POISON_CONTROL. -/
def Obligations.SlotControl : Prop :=
  ∀ s tile,
    let c := slotCtx s tile 0
    let x := tileGet s tile
    let target := bitsOf c.w 35 16
    let loop := bitsOf c.w 33 2
    let p := pgFt + tile
    let only := fun t : State => t = { s with time := t.time, facet := { s.facet with tiles := t.facet.tiles } } ∧ ∀ i, i ≠ tile → tileGet t i = tileGet s i
    (SlotLast s tile 0 .br 0x01 →
      (c.guard 0 = .pass → ∃ t, exec (.br tile 0) s = .next t ∧ only t ∧ tileGet t tile = { trayOver x with delay := 5, target := some target }) ∧
      (c.guard 0 = .fail → ∃ t, exec (.br tile 0) s = .next t ∧ only t ∧ tileGet t tile = { trayOver x with delay := 5 }) ∧
      (c.guard 0 = .poisoned → s.fbit p F.PG_ERR0_VALID = false →
        ∃ t, exec (.br tile 0) s = .next t ∧ (tileGet t tile).halted = true ∧ (tileGet t tile).running = false ∧ (tileGet t tile).haltCode = 0x0602 ∧
          t.fget p F.PG_ERR0_CODE = 0x0602)) ∧
    (c.guard 0 = .pass →
      (SlotLast s tile 0 .br 0x02 → x.next < target →
        ∃ t, exec (.loopSet tile 0) s = .next t ∧ only t ∧
          let ctrs := x.regs.l.set {} loop { left := bitsOf c.w 17 16, first := x.next + 1, last := target }
          tileGet t tile = { trayOver x with regs := { x.regs with l := ctrs, nest := [loop] } }) ∧
      (SlotLast s tile 0 .br 0x03 → ∃ t, exec (.waitBp tile 0) s = .next t ∧ only t ∧
        tileGet t tile = { trayOver x with wait := some (waitTick s (x.cycle + 1) (bitsOf c.w 0 20)) }) ∧
      (SlotLast s tile 0 .br 0x04 → ∃ t, exec (.halt tile 0) s = .next t ∧ only t ∧ tileGet t tile = { trayOver x with running := false }) ∧
      (SlotLast s tile 0 .br 0x10 → x.levels = [] → ∃ t, exec (.specBegin tile 0) s = .next t ∧ only t ∧
        tileGet t tile = { trayOver x with levels := [{ id := x.nextLevel, bank := x.regs }], nextLevel := x.nextLevel + 1,
                                           results := x.results.map fun r => if r.issue = x.cycle then { r with levels := r.levels ++ [x.nextLevel] } else r }) ∧
      (∀ l, x.levels = [l] → loop = 1 →
        (SlotLast s tile 0 .br 0x11 → l.overflow = false → ∃ t, exec (.specCommit tile 0) s = .next t ∧
          t = { s with regs := t.regs, time := t.time, facet := { s.facet with tiles := t.facet.tiles } } ∧ RegsOnly [(p, F.FT_SPEC_CNT_COMMITS.off)] s t ∧
          t.fget p F.FT_SPEC_CNT_COMMITS = min (s.fget p F.FT_SPEC_CNT_COMMITS + 1) 0xFFFF ∧
          tileGet t tile = { trayOver x with levels := [], ssb := x.ssb.map fun e => if e.level = some l.id then { e with level := none } else e }) ∧
        (SlotLast s tile 0 .br 0x12 → ∃ t, exec (.specSquash tile 0) s = .next t ∧
          t = { s with regs := t.regs, time := t.time, facet := { s.facet with tiles := t.facet.tiles } } ∧ RegsOnly [(p, F.FT_SPEC_CNT_SQUASHES.off)] s t ∧
          t.fget p F.FT_SPEC_CNT_SQUASHES = min (s.fget p F.FT_SPEC_CNT_SQUASHES + 1) 0xFFFF ∧
          tileGet t tile = { x with pc := x.next, next := target, cycle := x.cycle + 6, tray := {}, regs := closeLoops l.bank target, levels := [],
                                    ssb := x.ssb.filter fun e => decide (e.level ≠ some l.id),
                                    results := x.results.filter fun r => decide (l.id ∉ r.levels) })))

/-- A program start at the plan's phase starts the tile at its Tray and cycle; a tile that waits for a phase goes on in its cycle. A datum that arrives
at an empty channel waits there; at a channel that holds one it replaces it, and MESH_OVERRUN is counted and captured. The result due first reaches its
registers, and the shadow bank of every level opened after it. A drain takes up to 16 committed entries of the SSB; a single one is then in
SRAM, or a crossing to its release register. A Tray that fails a check halts the tile with TRAY_ILLEGAL, its index and the check. A diagnostic read
answers the word, and a write stores it; both are refused on an ACTIVE tile under a plan. -/
def Obligations.TilePrograms : Prop :=
  ∀ s tile,
    let x := tileGet s tile
    let p := pgFt + tile
    let only := fun t : State => t = { s with time := t.time, facet := { s.facet with tiles := t.facet.tiles } } ∧ ∀ i, i ≠ tile → tileGet t i = tileGet s i
    (∀ tick pos e, tilePos s tile = some pos → planTile s pos = some e → tile < s.var.facetTiles → (s.time.copies.get {} tile).valid = true →
      tick % 4 = 0 → s.time.epochTick ≤ tick → (tick - s.time.epochTick) % s.time.period = e.startTick → e.startTray < tileTrays s tile →
      s.fbit p F.PG_STAT_OUT_OF_SERVICE = false →
      ∃ t, exec (.programStart tile tick) s = .next t ∧ only t ∧
        tileGet t tile = { x with running := true, halted := false, next := e.startTray, cycle := 5 * tick / 4, tray := {}, delay := 0,
                                  target := none, wait := none }) ∧
    (∀ w, x.wait = some w → x.running = true → (s.time.copies.get {} tile).valid = true →
      ∃ t, exec (.waitBpResume tile) s = .next t ∧ only t ∧ tileGet t tile = { x with wait := none, cycle := 5 * w / 4 }) ∧
    (∀ n tick d, s.facet.mesh[n]? = some d → posTile s d.pos = some tile →
      let y := { x with chans := x.chans.ins d.chan { lanes := d.lanes, spec := d.spec, cycle := tickCycle s tile tick } }
      (x.chans.find? d.chan = none →
        ∃ t, exec (.meshDatumArrive n tick) s = .next t ∧
          t = { s with time := t.time, facet := { s.facet with tiles := t.facet.tiles, mesh := s.facet.mesh.eraseIdx n } } ∧
          tileGet t tile = y ∧ ∀ i, i ≠ tile → tileGet t i = tileGet s i) ∧
      ((x.chans.find? d.chan).isSome = true → s.fbit p F.PG_ERR0_VALID = false →
        ∃ t, exec (.meshDatumArrive n tick) s = .next t ∧ RegsOnly ((p, F.FT_EVT_CNT_OVERRUN.off) :: captureRegs s p 0) s t ∧
          t.fget p F.FT_EVT_CNT_OVERRUN = min (s.fget p F.FT_EVT_CNT_OVERRUN + 1) (2 ^ F.FT_EVT_CNT_OVERRUN.wid - 1) ∧
          t.fget p F.PG_ERR0_CODE = 0x0603 ∧ tileGet t tile = y)) ∧
    (∀ r rest, x.results = r :: rest → (∀ q ∈ rest, r.due < q.due) → r.due ≤ x.cycle ∨ x.running = false →
      ∃ t, exec (.resultWriteback tile) s = .next t ∧ t = { s with regs := t.regs, facet := { s.facet with tiles := t.facet.tiles } } ∧ RegsOnly [] s t ∧
        tileGet t tile = { x with
          regs := r.writes.foldl Regs.write x.regs, results := rest,
          levels := x.levels.map fun l => if l.id ∈ r.levels then l else { l with bank := r.writes.foldl Regs.write l.bank } }) ∧
    (let kept := (x.ssb.filter fun e => e.level.isNone).drop 16 ++ x.ssb.filter fun e => e.level.isSome
     (∃ t, exec (.ssbDrain tile) s = .next t ∧ (tileGet t tile).ssb = kept ∧ (tileGet t tile).regs = x.regs) ∧
     (∀ e, x.ssb = [e] → e.level = none →
       (e.word < portWord → ∃ t, exec (.ssbDrain tile) s = .next t ∧ t = { s with mem := t.mem, facet := { s.facet with tiles := t.facet.tiles } } ∧
         tileGet t tile = { x with ssb := [], sram := x.sram.put e.word e.val.val e.val.poison }) ∧
       (∀ r, portWord ≤ e.word → portReg s tile (e.word - portWord) = some r →
         ∃ t, exec (.ssbDrain tile) s = .next t ∧
           t = { s with time := { s.time with crossings := s.time.crossings ++ [(r, { val := e.val.val, poison := e.val.poison })] }
                        facet := { s.facet with tiles := t.facet.tiles } } ∧ tileGet t tile = { x with ssb := [] }))) ∧
    (∀ k, issuing s tile = true → x.tray = {} → k < 15 → s.fbit p F.PG_ERR0_VALID = false →
      let check := issueCheck s tile (fetchTray x tile x.next)
      check ≠ 0 →
      ∃ t, exec (.slotNop tile k) s = .next t ∧ RegsOnly (captureRegs s p 0) s t ∧ (tileGet t tile).halted = true ∧ (tileGet t tile).running = false ∧
        (tileGet t tile).haltCode = 0x0600 ∧ t.fget p F.PG_ERR0_CODE = 0x0600 ∧ t.reg p F.PG_ERR3.off = BitVec.ofNat 32 (x.next + check * 2 ^ 16)) ∧
    (tile < s.var.facetTiles →
      let w := s.fget p F.FT_DIAG_ADDR_WORD
      (∀ part, s.host.crs = false → viewOf s part p = .full ∨ viewOf s part p = .readOnly →
        (diagRefused s tile = false → x.sram.cls w = .clean →
          ∃ t, exec (.ftDiagRead part tile) s = .next t ∧ t = { s with regs := t.regs, host := t.host } ∧ RegsOnly [(p, F.FT_DIAG_HI_DATA.off)] s t ∧
            t.host.out = .readData part ((x.sram.raw w).1.extractLsb' 0 32) :: s.host.out ∧
            t.reg p F.FT_DIAG_HI_DATA.off = (x.sram.raw w).1.extractLsb' 32 32) ∧
        (diagRefused s tile = true → s.fbit p F.PG_ERR0_VALID = false →
          ∃ t, exec (.ftDiagRead part tile) s = .next t ∧ RegsOnly (captureRegs s p 0) s t ∧ t.fget p F.PG_ERR0_CODE = 0x0608 ∧
            t.host.out.head? = some (.readData part 0))) ∧
      (∀ part (data : Word), Writable s part p →
        (diagRefused s tile = false →
          ∃ t, exec (.ftDiagWrite part tile data) s = .next t ∧
            t = { s with regs := t.regs, mem := t.mem, facet := { s.facet with tiles := t.facet.tiles } } ∧
            RegsOnly [(p, F.FT_DIAG_HI_DATA.off)] s t ∧ t.reg p F.FT_DIAG_HI_DATA.off = data ∧
            tileGet t tile = { x with sram := x.sram.put w (data ++ s.reg p F.FT_DIAG_LO_DATA.off) false }) ∧
        (diagRefused s tile = true → s.fbit p F.PG_ERR0_VALID = false →
          ∃ t, exec (.ftDiagWrite part tile data) s = .next t ∧ RegsOnly (captureRegs s p 0) s t ∧ t.fget p F.PG_ERR0_CODE = 0x0608 ∧
            t.facet = s.facet)))

/-- A tile that holds a position and fails leaves service with FAULT, RETIRED, and UNIT_FAILED is captured with its detail. With no plan in force its
position becomes VACANT. Under a plan the position is lost: the lowest spare in service becomes LOADING for it and is shown in FMAP_MAP, and a remap
is pending; with no spare the position is VACANT. The last load that completes within its bound fixes the epoch of the remap; a load that reads a UE
is captured, takes its spare out of service and goes on with the next spare. -/
def Obligations.TilesAreRemapped : Prop :=
  ∀ s tile,
    let p := pgFt + tile
    let shown := fun (t : State) (pos : Nat) => t.fget pgFmap ⟨F.FMAP_MAP.off + 4 * (pos / 4), 8 * (pos % 4), 8⟩
    let vacant := fun (t : State) (pos : Nat) => (t.reg pgFmap (F.FMAP_VACANT_LO.off + 4 * (pos / 32))).getLsbD (pos % 32)
    (∀ (detail : Word) pos, tile < s.var.facetTiles → tilePos s tile = some pos → s.fbit p F.PG_ERR0_VALID = false →
      (s.facet.loads ++ s.facet.remaps).any (fun r => r.pos = pos) = false →
      let out := fun t : State => pageOut t p = true ∧ t.fbit p F.PG_STAT_FAULT = true ∧ tileRole t tile = roleRetired ∧
        t.fget p F.PG_ERR0_CODE = 0x0501 ∧ t.reg p F.PG_ERR3.off = detail ∧ (tileGet t tile).running = false
      (s.time.plan = none → ∃ t, exec (.facetTileFail tile detail) s = .next t ∧ out t ∧ vacant t pos = true ∧ t.time = s.time) ∧
      (s.time.plan.isSome = true →
        (∀ i, lowestSpare s = some i →
          ∃ t, exec (.facetTileFail tile detail) s = .next t ∧ out t ∧ shown t pos = i + 128 ∧ tileRole t i = roleLoading ∧
            t.fget (pgFt + i) F.FT_ROLE_POSITION = pos ∧ t.fget pgFmap F.FMAP_STAT_REMAP_PENDING = 1 ∧ t.fget pgFmap F.FMAP_STAT_EPOCH_FIXED = 0 ∧
            t.facet.loads = s.facet.loads ++ [{ pos := pos, spare := i, since := s.now }] ∧ pos ∈ t.time.lost) ∧
        (lowestSpare s = none → s.fbit pgFmap F.PG_ERR0_VALID = false →
          ∃ t, exec (.facetTileFail tile detail) s = .next t ∧ out t ∧ vacant t pos = true ∧ t.fget pgFmap F.PG_ERR0_CODE = 0x0503 ∧ pos ∈ t.time.lost))) ∧
    (∀ r tick, s.facet.loads = [r] → r.spare = tile → tick ≤ r.since + spareLoadBound s → s.time.running = true → s.now ≤ tick → tick < 2 ^ 64 →
      s.time.next = none →
      ∃ t, exec (.spareLoadDone tile tick) s = .next t ∧ t = { s with regs := t.regs, time := t.time, facet := t.facet } ∧ t.now = tick ∧
        t.facet = { s.facet with loads := [], remaps := s.facet.remaps ++ [r], loadedAt := tick, remapBpn := some (epochFrom s tick) } ∧
        t.fget pgFmap F.FMAP_STAT_EPOCH_FIXED = 1 ∧ t.reg64 pgFmap F.FMAP_EPOCH_LO.off F.FMAP_EPOCH_HI.off = epochFrom s tick % 2 ^ 64) ∧
    (∀ r j, s.facet.loads = [r] → s.facet.remaps = [] → r.spare = tile → tile < s.var.facetTiles → tileRole s tile = roleLoading → lowestSpare s = some j →
      s.fbit pgFmap F.PG_ERR0_VALID = false →
      ∃ t, exec (.spareLoadFailed tile true) s = .next t ∧ pageOut t p = true ∧ tileRole t tile = roleRetired ∧
        t.fbit p F.PG_STAT_FAULT = s.fbit p F.PG_STAT_FAULT ∧ t.fget pgFmap F.PG_ERR0_CODE = 0x0502 ∧ tileRole t j = roleLoading ∧
        shown t r.pos = j + 128 ∧ t.facet.loads = [{ pos := r.pos, spare := j, since := s.now }])

/-- A started SIMG_LOAD of a free slot whose image has come, passes every check and fits leaves the slot holding that image alone, LOADED with its
method; one that fails check c ends with IMAGE_REFUSED and c and leaves the slot. SIMG_FREE of a slot that no plan binds empties it. On a slot with an
image and a binding: SOLV_DELTA stages its pairs, SOLV_GUESS gives the slot its guess, SOLV_READ writes the slot's mirror area to the partition and
answers the low half of word 0, and SOLV_RUN takes the slot's window and, once its solve has ended, writes the mirror area and ends with the
primary status. A write of FORCE_COLD is held for the next base-period start. -/
def Obligations.SolverImagesAndJobs : Prop :=
  (∀ s job x body d, startedJob s job 0x22 = some x → s.part.resets.find? x.part = none → memReady s = true → imagePayloadOk x = true →
    let k := payBits x 32 5
    let m := simgOf d body (payBits x 128 32)
    slotBusy s k = false → x.data = some (.good d []) →
    (simgCheck s m = 0 → m.bytes ≤ planFree s k →
      ∃ t, exec (.simgLoad job body) s = .next t ∧ t = { s with regs := t.regs, solver := t.solver, mem := t.mem, qe := t.qe, host := t.host } ∧
        slotGet t k = { image := some m } ∧ (∀ i, i ≠ k → slotGet t i = slotGet s i) ∧ t.solver.reports = s.solver.reports ∧
        t.fget pgSolv (F.SOLV_SLOT0_STATE.sh (16 * k)) = 1 ∧ t.fget pgSolv (F.SOLV_SLOT0_METHOD.sh (16 * k)) = m.method ∧
        t.fget pgSolv (F.SOLV_SLOT0_RUNAHEAD.sh (16 * k)) = m.runahead ∧ t.fget pgSolv F.SOLV_LOAD_STATUS = stOk ∧
        jobGet t job = some { x with phase := .done, status := stOk, result := 0, data := none }) ∧
    (simgCheck s m ≠ 0 →
      ∃ t, exec (.simgLoad job body) s = .next t ∧ t = { s with regs := t.regs, qe := t.qe, host := t.host } ∧ t.fget pgSolv F.SOLV_LOAD_STATUS = 0x0801 ∧
        jobGet t job = some { x with phase := .done, status := 0x0801, result := simgCheck s m % 2 ^ 32, data := none })) ∧
  (∀ s job x, startedJob s job 0x23 = some x → s.part.resets.find? x.part = none → slotBusy s (payBits x 32 5) = false →
    (slotGet s (payBits x 32 5)).image.isSome = true →
    ∃ t, exec (.simgFree job) s = .next t ∧ t = { s with regs := t.regs, solver := t.solver, mem := t.mem, qe := t.qe } ∧ slotGet t (payBits x 32 5) = {} ∧
      t.reg pgSolv (F.SOLV_SLOT0_STATE.off + 16 * payBits x 32 5) = 0 ∧
      jobGet t job = some { x with phase := .done, status := stOk, result := 0, data := none }) ∧
  (∀ s job x d m, s.part.resets.find? x.part = none →
    let k := payBits x 32 5
    let y := slotGet s k
    let n := payBits x 48 13
    y.image = some m → (binding s k).isSome = true → x.cancel = false → payBits x 64 3 = 0 → x.data = some (.good d []) →
    (startedJob s job 0x80 = some x → x.stage ≠ 2 → 1 ≤ n → n ≤ m.deltaMax → (∀ p ∈ deltaPairs d n, p.1 < m.nparam) →
      ∃ t, exec (.solvDelta job) s = .next t ∧ t = { s with solver := t.solver, qe := { s.qe with jobs := t.qe.jobs } } ∧
        slotGet t k = { y with staged := y.staged ++ [{ job := job, pairs := deltaPairs d n, tick := s.now }] } ∧
        (∀ i, i ≠ k → slotGet t i = slotGet s i) ∧ jobGet t job = some { x with stage := 2, data := none }) ∧
    (startedJob s job 0x81 = some x → m.method ≠ 2 →
      ∃ t ws, exec (.solvGuess job) s = .next t ∧ t = { s with solver := t.solver, qe := { s.qe with jobs := t.qe.jobs } } ∧
        slotGet t k = { y with guess := some ws } ∧ ws.length = (if m.method = 1 then m.nvar + 2 * m.ncon else m.nvar) ∧
        (∀ i, i < ws.length → (ws.getD i 0).toNat = leNat ((List.range 8).map fun q => d.getD (8 * i + q) 0) % 2 ^ 64) ∧
        jobGet t job = some { x with phase := .done, status := stOk, result := 0, data := none })) ∧
  (∀ s job x b, s.part.resets.find? x.part = none →
    let k := payBits x 32 5
    let y := slotGet s k
    y.image.isSome = true → binding s k = some b → x.cancel = false →
    (startedJob s job 0x83 = some x → payBits x 64 3 = 0 → s.qe.dead = false → s.host.bme.get false x.part = true →
      ∃ t, exec (.solvRead job) s = .next t ∧ t = { s with qe := { s.qe with jobs := t.qe.jobs }, host := t.host } ∧
        t.host.out = .write x.part (payBits x 64 64) (mirrorBytes s b) :: s.host.out ∧
        jobGet t job = some { x with phase := .done, status := stOk, result := mirrorWord0 s b % 2 ^ 32, data := none }) ∧
    (startedJob s job 0x82 = some x → bKind b = 1 → payBits x 64 3 = 0 → y.run = none → x.stage ≠ 100 → x.stage ≠ 2 →
      ∃ t, exec (.solvRun job) s = .next t ∧ t = { s with solver := t.solver, qe := { s.qe with jobs := t.qe.jobs } } ∧
        slotGet t k = { y with run := some job, ranOut := false } ∧ jobGet t job = some { x with stage := 2 }) ∧
    (startedJob s job 0x82 = some x → x.stage = 100 → y.run = some job → y.ranOut = true → s.qe.dead = false → s.host.bme.get false x.part = true →
      ∀ v, y.solve = some v →
      ∃ t, exec (.solvRun job) s = .next t ∧ t = { s with solver := t.solver, qe := { s.qe with jobs := t.qe.jobs }, host := t.host } ∧
        t.host.out = .write x.part (payBits x 64 64) (mirrorBytes s b) :: s.host.out ∧ slotGet t k = { y with run := none, ranOut := false } ∧
        jobGet t job = some { x with
          phase := .done, status := primaryStatus v.conds v.haltCode, result := v.iter % 2 ^ 16 + (v.conds % 2 ^ 16) * 2 ^ 16, data := none })) ∧
  (∀ s part (data : Word), Writable s part pgSolv →
    ∃ t, exec (.solvForceCold part data) s = .next t ∧ t = { s with pages := t.pages } ∧ (∀ q, q ≠ pgSolv → t.page q = s.page q) ∧
      t.page pgSolv = { s.page pgSolv with
        heldWrites := (s.page pgSolv).heldWrites.filter (fun h => h.1 ≠ F.SOLV_CTRL_FORCE_COLD.off) ++ [(F.SOLV_CTRL_FORCE_COLD.off, data ||| 2)] })

/-- At the delta tick of a start of a bound slot a new solve begins; a staged job in its room ends with OK and the base-period number and its
pairs are the solve's. The window test notes the measurement and, in run-ahead, the verdict. Without run-ahead and measurement the start goes out to the
group, the pairs apply, a cold start is counted and quadruples the cap. A check stops a solve whose residuals are within tolerance, and one that
loses a tile of its group. At the deadline a solve that met no fallback condition is finished, its status word shown, and the next one is warm; one that has
not stopped is cut. -/
def Obligations.OneSolve : Prop :=
  ∀ s k m b,
    let y := slotGet s k
    let only := fun t : State => ∀ i, i ≠ k → slotGet t i = slotGet s i
    k < 32 → y.image = some m → binding s k = some b →
    (∀ start bpn, solveStart s b start = some bpn → y.solve = none → m.deltaMax + 32 ≤ start → (bKind b = 1 → y.run.isSome = true) →
      (y.staged = [] →
        ∃ t, exec (.deltaTick k start) s = .next t ∧ t = { s with time := t.time, solver := t.solver } ∧ only t ∧
          slotGet t k = { y with solve := some { start := start, bpn := bpn }, ranOut := false }) ∧
      (∀ d x, y.staged = [d] → startedJob s d.job 0x80 = some x → x.cancel = false → s.part.resets.find? x.part = none →
        d.pairs.length ≤ m.deltaMax → d.tick < start - (m.deltaMax + 32) →
        ∃ t v, exec (.deltaTick k start) s = .next t ∧ t = { s with time := t.time, solver := t.solver, qe := { s.qe with jobs := t.qe.jobs } } ∧ only t ∧
          slotGet t k = { y with staged := [], solve := some v, ranOut := false } ∧
          v.start = start ∧ v.bpn = bpn ∧ v.host = d.pairs ∧ v.pairs = d.pairs.length ∧ v.conds = 2 ^ 14 ∧
          jobGet t d.job = some { x with phase := .done, status := stOk, result := bpn % 2 ^ 32, data := none })) ∧
    (∀ v, y.solve = some v → v.finished = false →
      (∀ mr, v.tested = false → (if m.measLen = 0 then some [] else readReport s (bMeas b) 3 m.measLen) = some mr →
        (runsAhead y m b = false →
          ∃ t, exec (.windowTest k) s = .next t ∧ t = { s with time := t.time, solver := t.solver } ∧ only t ∧
            slotGet t k = { y with solve := some { v with tested := true, meas := goodLanes (some mr), verdict := none } }) ∧
        (∀ pr, runsAhead y m b = true → readReport s k 2 m.measLen = some pr →
          ∃ t, exec (.windowTest k) s = .next t ∧ t = { s with time := t.time, solver := t.solver } ∧ only t ∧
            (slotGet t k).solve =
              some { v with tested := true, meas := goodLanes (some mr), verdict := some (verdictOf y m v (goodLanes (some mr)) (goodLanes (some pr))) })) ∧
      (v.tested = true → v.sent = false → v.verdict = none → m.measLen = 0 → y.forceCold = false → y.run = none →
        let cold := m.method != 2 && !y.warm
        ∃ t v', exec (.verdictSend k) s = .next t ∧ t = { s with regs := t.regs, time := t.time, solver := t.solver, facet := t.facet } ∧ only t ∧
          PagesOnly (· = pgSolv) s t ∧ (slotGet t k).solve = some v' ∧ v'.sent = true ∧ v'.cold = cold ∧ v'.pairs = v.pairs ∧
          v'.capC = (if cold then 4 * m.cap else m.cap) ∧ (slotGet t k).params = v.host.foldl (fun (p : Tab Nat) e => p.set 0 e.1 e.2) y.params ∧
          t.fget pgSolv F.SOLV_FB_CNT_COLD = min (s.fget pgSolv F.SOLV_FB_CNT_COLD + b2n cold) 0xFFFF ∧
          t.facet = { s.facet with mesh := s.facet.mesh ++ m.group.map fun p =>
            { pos := p, chan := 15, lanes := (lanesOf [0, b2n cold, b2n v.refactor]).map fun z => { val := z } } }) ∧
      (v.sent = true → v.stopped = false → m.every ≠ 0 →
        (∀ r, (groupTrouble s m).1 = 0 → goodLanes (readReport s k 0 13) = some r → isNumeric r = false → fxLe (r.getD 0 0) (r.getD 1 0) = true →
          fxLe (r.getD 2 0) (r.getD 3 0) = true → r.getD 8 0 = 0 →
          ∃ t v', exec (.solveCheck k) s = .next t ∧ t = { s with regs := t.regs, time := t.time, solver := t.solver, facet := t.facet } ∧ only t ∧
            PagesOnly (· = pgSolv) s t ∧ (slotGet t k).solve = some v' ∧ v'.stopped = true ∧ v'.conds = v.conds ∧ v'.iter = r.getD 9 0 ∧
            v'.checks = v.checks + 1 ∧ t.fget pgSolv (F.SOLV_SLOT2_ITER.sh (16 * k)) = r.getD 9 0 % 2 ^ 16) ∧
        ((groupTrouble s m).1 ≠ 0 →
          ∃ t v', exec (.solveCheck k) s = .next t ∧ t = { s with time := t.time, solver := t.solver, facet := t.facet } ∧ only t ∧
            (slotGet t k).solve = some v' ∧ v'.stopped = true ∧ v'.conds = v.conds ||| (groupTrouble s m).1 ∧ v'.haltCode = (groupTrouble s m).2)) ∧
      (v.sent = true → m.every ≠ 0 → (groupTrouble s m).1 = 0 → y.pivoted = false →
        let conds := v.conds ||| if v.stopped then 0 else 2 ^ 3
        conds &&& (0x3F0 ||| m.fbMask) = 0 →
        ∃ t v', exec (.solveDeadline k) s = .next t ∧
          t = { s with regs := t.regs, time := t.time, solver := t.solver, facet := t.facet, host := t.host } ∧ only t ∧
          PagesOnly (· = pgSolv) s t ∧ (slotGet t k).solve = some v' ∧ v'.finished = true ∧ v'.conds = conds ∧ v'.iter = v.iter ∧
          (slotGet t k).warm = (m.method != 2) ∧ (slotGet t k).ranOut = true ∧
          t.reg pgSolv (F.SOLV_SLOT1_STAT.off + 16 * k) = BitVec.ofNat 32 (primaryStatus conds v.haltCode + (conds % 2 ^ 16) * 2 ^ 16) ∧
          t.fget pgSolv (F.SOLV_SLOT2_ITER.sh (16 * k)) = v.iter % 2 ^ 16))

/-- On a port that takes part: PRES_N low from DOWN starts DETECT and its timer; PRES_N high starts the unplug timer, or ends DETECT. T_PLUG shows the
limb and, where the port is enabled, starts SYNC; T_UNPLUG ends the epoch with cause UNPLUG and goes DOWN; T_SYNC is captured and backs off; T_ENUM
repeats ASSIGN up to three times, then is captured and backs off; T_BACKOFF starts SYNC again. Sync acquired in SYNC starts ENUM with the next epoch;
sync lost, RELINK and ANNOUNCE in UP end the epoch with their causes. The first CAPS of E makes E current, keeps the record and is answered; READY enters
UP, or MBX_ONLY where the record was rejected. A discarded frame counts in its counter. -/
def Obligations.LinkStates : Prop :=
  ∀ s p, portDead s p = false →
    let q := pgClnk + p
    let x := portGet s p
    let st := linkState s p
    let pages := fun t : State => PagesOnly (fun g => g = q ∨ g = pgClnkG) s t
    let count := fun (t : State) (k : Nat) => t.fget q (linkCntF k) = min (s.fget q (linkCntF k) + 1) 0xFFFF
    let cause := fun (t : State) (c e : Nat) => t.fget q F.LNK_CAUSE_CAUSE = c ∧ t.fget q F.LNK_CAUSE_EPOCH = e % 2 ^ 16
    let enum := fun t : State => linkState t p = lkEnum ∧ (portGet t p).enumE = some (nextEpoch x.counter) ∧ (portGet t p).counter = nextEpoch x.counter ∧
      (portGet t p).current = none ∧ (portGet t p).caps = none ∧ (portGet t p).enumFrame.map (fun f => (f.typ, f.chan)) = some (5, 2)
    (st = lkDown → ∃ t, exec (.presNLow p) s = .next t ∧ t = { s with regs := t.regs, clnk := t.clnk } ∧ pages t ∧ linkState t p = lkDetect ∧
      (portGet t p).presN = false ∧ (portGet t p).plugAt = some s.now) ∧
    (st ≠ lkDown → ∃ t, exec (.presNLow p) s = .next t ∧ t = { s with clnk := t.clnk } ∧ portGet t p = { x with presN := false, unplugAt := none }) ∧
    (st = lkDetect → s.fbit q F.LNK_STAT_PRES = false → ∃ t, exec (.presNHigh p) s = .next t ∧ pages t ∧ linkState t p = lkDown ∧
      (portGet t p).presN = true ∧ (portGet t p).plugAt = none) ∧
    (st ≠ lkDown → st ≠ lkDetect → ∃ t, exec (.presNHigh p) s = .next t ∧ t = { s with clnk := t.clnk } ∧
      portGet t p = { x with presN := true, unplugAt := some (x.unplugAt.getD s.now) }) ∧
    (∀ t0, x.plugAt = some t0 → x.presN = false → st = lkDetect →
      ∃ t, exec (.tPlugExpiry p) s = .next t ∧ pages t ∧ t.fbit q F.LNK_STAT_PRES = true ∧ natBit (t.fget pgClnkG F.GLNK_PRES) p = true ∧
        (portGet t p).plugAt = none ∧ (s.fbit q F.PG_CTRL_ENABLE = false → linkState t p = lkDetect) ∧
        (s.fbit q F.PG_CTRL_ENABLE = true → s.fbit q F.LNK_STAT_SYNC = false → linkState t p = lkSync ∧ (portGet t p).syncAt = some t.now)) ∧
    (∀ t0 e, x.unplugAt = some t0 → x.presN = true → x.current = some e →
      ∃ t, exec (.tUnplugExpiry p) s = .next t ∧ pages t ∧ linkState t p = lkDown ∧ (portGet t p).current = none ∧ cause t 1 e ∧
        t.fbit q F.LNK_STAT_PRES = false ∧ ∀ c, c < 8 → (sessGet t p c).state = .closed) ∧
    (∀ t0, x.syncAt = some t0 → st = lkSync → s.fbit q F.PG_ERR0_VALID = false →
      ∃ t, exec (.tSyncExpiry p) s = .next t ∧ linkState t p = lkBackoff ∧ (portGet t p).backoffAt = some t.now ∧ t.fget q F.PG_ERR0_CODE = 0x0B00 ∧ count t 12) ∧
    (∀ t0, x.enumAt = some t0 → st = lkEnum → x.caps = none →
      (x.assigns < 3 → ∃ t, exec (.tEnumExpiry p) s = .next t ∧ t = { s with time := t.time, clnk := t.clnk } ∧ (portGet t p).assigns = x.assigns + 1 ∧
        (portGet t p).enumFrame.map (fun f => (f.typ, f.chan)) = some (5, 2)) ∧
      (3 ≤ x.assigns → s.fbit q F.PG_ERR0_VALID = false → ∃ t, exec (.tEnumExpiry p) s = .next t ∧ linkState t p = lkBackoff ∧
        t.fget q F.PG_ERR0_CODE = 0x0B01 ∧ (portGet t p).enumE = none)) ∧
    (∀ t0, x.backoffAt = some t0 → st = lkBackoff → s.fbit q F.LNK_STAT_SYNC = false →
      ∃ t, exec (.tBackoffExpiry p) s = .next t ∧ pages t ∧ linkState t p = lkSync ∧ (portGet t p).syncAt = some t.now) ∧
    (∃ t, exec (.rxSyncAcquired p) s = .next t ∧ pages t ∧ t.fbit q F.LNK_STAT_SYNC = true ∧ (st ≠ lkSync → linkState t p = st ∧ t.clnk = s.clnk) ∧
      (st = lkSync → x.current = none → enum t)) ∧
    (∀ part (data : Word) e, Writable s part q → st = lkUp → x.current = some e →
      ∃ t, exec (.relink part p data) s = .next t ∧ pages t ∧ enum t ∧ cause t 5 e ∧ t.fget q F.LNK_CTRL_RUN_EN = b2n (data.getLsbD 0)) ∧
    (portHears s p = true →
      (∀ e, st = lkUp → x.current = some e →
        ∃ t, exec (.rxSyncLost p) s = .next t ∧ pages t ∧ linkState t p = lkSync ∧ t.fbit q F.LNK_STAT_SYNC = false ∧ (portGet t p).current = none ∧
          cause t 2 e ∧ count t 12) ∧
      (∀ e, st = lkUp → x.current = some e → ∃ t, exec (.announce p) s = .next t ∧ pages t ∧ enum t ∧ cause t 3 e ∧ count t 0) ∧
      (∀ e record, st = lkEnum → x.enumE = some e → x.caps = none →
        let why := capsReason s p record
        ∃ t, exec (.caps p e record) s = .next t ∧ (portGet t p).current = some e ∧ (portGet t p).caps = some record ∧ (portGet t p).reject = why ∧
          (portGet t p).confirms = x.confirms + 1 ∧ (portGet t p).enumFrame.map (fun f => (f.typ, f.chan, f.epoch)) = some (5, 4, e) ∧
          linkState t p = lkEnum ∧ t.fget q F.LNK_STAT_REASON = why ∧ t.fget q F.LNK_STAT_EPOCH = e % 2 ^ 16 ∧
          (∀ i, i < 16 → t.reg q (F.LNK_CAPS.off + 4 * i) = record.extractLsb' (32 * i) 32) ∧
          (why = 0 → (portGet t p).identity = some (capsIdentity record))) ∧
      (∀ e, st = lkEnum → x.current = some e →
        ∃ t, exec (.ready p e) s = .next t ∧ linkState t p = (if x.reject = 0 then lkUp else lkMbxOnly) ∧ (portGet t p).current = some e ∧
          (portGet t p).misses = [] ∧ natBit (t.fget pgClnkG F.GLNK_UP) p = true ∧ count t 0 ∧ count t 11) ∧
      (∀ f k, f.abandoned = true ∧ k = 6 ∨ f.abandoned = false ∧ rxCheck s p f = some k →
        ∃ t, exec (.rxFrameDiscarded p f) s = .next t ∧ t = { s with regs := t.regs, clnk := t.clnk } ∧ RegsOnly [(q, (linkCntF k).off)] s t ∧ count t k))

/-- On a port in UP with no halt and no frame in progress, a due TX entry sends CYC_DOWN with the output stages of its buffers and RUN as it was 128 ticks
before, and a due RX entry sends SYNC and opens its window. A CYC_UP of the window in time is kept; at CLOSE the window leaves, and its status word goes to
LNK_RXST and, with the first 120 bytes kept, to its tile. A Loupe request within its bound sends the first HALT and stands until it is withdrawn. A frame of
the mailbox engine goes out at a free tick of the grid that leaves the gap whole. The island reset puts every port back to DOWN, or DETECT where a limb
is there, with its epoch counter 0 and a hold, which ends. -/
def Obligations.SlotsAndHalts : Prop :=
  (∀ s p entry tick e tx, dueEntry s p entry tick tx = some e → halting (portGet s p) = false → (portGet s p).tx = true →
    (∀ f, (portGet s p).sending = some f → f.ended ≤ tick) → slotHalt s p tick = none →
    let x := portGet s p
    let sent := fun (typ : Nat) (d : List Byte) => ({ frame := { typ := typ, flags := b2n (runAt s p (tick - 128)), chan := entry, epoch := x.current.getD 0,
                                                                 cycle := slotBpn s tick, data := d }, start := tick } : SentFrame) :: x.sent
    let q := pgClnk + p
    (tx = true → ∃ t, exec (.txSlotStart p entry tick) s = .next t ∧ t = { s with regs := t.regs, time := t.time, clnk := t.clnk } ∧
      RegsOnly [(q, (linkCntF 14).off)] s t ∧ t.fget q (linkCntF 14) = min (s.fget q (linkCntF 14) + 1) 0xFFFF ∧ (portGet t p).sent = sent 2 (txPayload s p e) ∧
      (portGet t p).wins = x.wins) ∧
    (tx = false → ∃ t, exec (.rxSlotOpen p entry tick) s = .next t ∧ t = { s with regs := t.regs, time := t.time, clnk := t.clnk } ∧
      RegsOnly [(q, (linkCntF 14).off)] s t ∧ (portGet t p).sent = sent 1 [] ∧
      (portGet t p).wins = x.wins ++ [{
        entry := entry, bits := e, openAt := copyTick s 69 tick, closeAt := copyTick s 69 tick + (seClose e - seStart e : Nat), chan := some entry,
        cycle := slotBpn s tick, epoch := if linkState s p = lkUp then x.current else none }])) ∧
  (∀ s p w epoch flags payload tick, portHears s p = true → (portGet s p).current = some epoch → payload.length ≤ 256 →
    payload.length = bitsOf ((portGet s p).caps.getD 0) 112 16 → (portGet s p).wins = [w] → w.kept = none →
    w.openAt ≤ copyTick s 69 tick → copyTick s 69 tick + 64 ≤ w.closeAt →
    ∀ echo, w.chan = some echo →
    ∃ t, exec (.cycUp p epoch echo w.cycle flags payload tick) s = .next t ∧ t = { s with regs := t.regs, time := t.time, clnk := t.clnk } ∧
      RegsOnly [(pgClnk + p, (linkCntF 0).off)] s t ∧ (portGet t p).wins = [{ w with kept := some (flags, payload) }]) ∧
  (∀ s p w tick, (portGet s p).wins = [w] → w.closeAt = copyTick s 69 tick → slotEngine s = true → w.entry < 16 → seTwo w.bits = false →
    s.fget (pgClnk + p) F.LNK_MISS_LIMIT = 0 ∨ windowResult s p w = 0 →
    let q := pgClnk + p
    let status := fun t : State => t.reg64 q (F.LNK_RXST.off + 8 * w.entry) (F.LNK_RXST.off + 8 * w.entry + 4)
    ∃ t m, exec (.rxSlotClose p w.entry tick) s = .next t ∧ t = { s with regs := t.regs, time := t.time, clnk := t.clnk, facet := t.facet } ∧
      (portGet t p).wins = [] ∧ status t % 8 = windowResult s p w ∧ status t / 2 ^ 8 % 2 ^ 8 = (portGet t p).misses.get 0 w.entry % 2 ^ 8 ∧
      (windowResult s p w = 0 → (portGet t p).misses.get 0 w.entry = 0 ∧ (portGet t p).fresh.get [] w.entry = (w.kept.getD (0, [])).2) ∧
      (windowResult s p w ≠ 0 → (portGet t p).misses.get 0 w.entry = min ((portGet s p).misses.get 0 w.entry + 1) 255) ∧
      t.facet = { s.facet with mesh := s.facet.mesh ++ [m] } ∧ m.pos = seTile0 w.bits ∧ m.chan = seCh0 w.bits ∧
      (m.lanes.getD 0 {}).val.toNat = status t) ∧
  (∀ s p tick, portBuilt s p = true → islandsUp s = true → portHaltWanted s p = true → loupeDead s = false → halting (portGet s p) = false →
    haltTickOk s p tick = true → linkState s p ≠ lkOut → s.clnk.hold = none → (portGet s p).sending = none →
    ∃ t f, exec (.haltRequest p tick) s = .next t ∧ t = { s with regs := t.regs, time := t.time, clnk := t.clnk } ∧
      (portGet t p).loupe = true ∧ (portGet t p).tx = true ∧ (portGet t p).sent = { frame := f, start := tick } :: (portGet s p).sent ∧
      f.typ = 0xF ∧ f.chan = haltLoupe ∧ f.epoch = (portGet s p).current.getD 0xFFFF ∧ t.fbit (pgClnk + p) F.LNK_STAT_HALTING = true ∧ p ∉ t.clnk.owing) ∧
  (∀ s p, portBuilt s p = true → halting (portGet s p) = true → portHaltWanted s p = false → loupeDead s = false →
    ∃ t, exec (.haltWithdraw p) s = .next t ∧ t = { s with regs := t.regs, clnk := t.clnk } ∧ halting (portGet t p) = false ∧
      (portGet t p).haltOff = some s.now ∧ (portGet t p).tx = txState (linkState s p) ∧ t.fbit (pgClnk + p) F.LNK_STAT_HALTING = false ∧
      t.fbit pgClnkG F.GLNK_HALT_DEAD = false) ∧
  (∀ s p tick item f tier, portDead s p = false → halting (portGet s p) = false → (portGet s p).tx = true → nextFrame s p = some (item, f, tier) →
    linkFree s p ≤ tick → gridUp s tick = tick → s.now ≤ tick → fitsGap s p tick (linkTicks f) = true →
    ∃ t, exec (.mbxFrameSend p tick) s = .next t ∧ PagesOnly (· = pgClnk + p) s t ∧
      (portGet t p).sent = { frame := f, start := tick } :: (portGet s p).sent ∧
      (∀ g, item = .enum g → (portGet t p).enumFrame = none ∧ (linkState s p = lkEnum → (portGet t p).enumAt = some tick)) ∧
      (∀ c i, item = .frag c i true → (sessGet t p c).flight = (sessGet s p c).flight + 1) ∧
      (∀ c, item = .ack c → (sessGet t p c).ackDue = false ∧ (sessGet t p c).unacked = 0)) ∧
  (∀ s t0, s.clnk.resetting = some t0 →
    ∃ t, exec .clnkIslandReset s = .next t ∧ t = { s with regs := t.regs, time := t.time, clnk := t.clnk } ∧ t.clnk.resetting = none ∧
      t.clnk.hold = some (t.now + 25600) ∧
      ∀ p, p < s.var.clnkPorts → (portGet t p).counter = 0 ∧ (portGet t p).current = none ∧ (portGet t p).presN = (portGet s p).presN ∧
        (portGet t p).sent = (portGet s p).sent ∧ t.fbit (pgClnk + p) F.LNK_STAT_SYNC = false ∧
        linkState t p = if (portGet s p).presN || !islandsUp s then lkDown else lkDetect) ∧
  (∀ s h, s.clnk.hold = some h →
    ∃ t, exec .clnkIdleHoldEnd s = .next t ∧ t = { s with time := t.time, clnk := { s.clnk with hold := none } } ∧
      (s.time.running = true → s.now < h → h < 2 ^ 64 → t.now = h))

/-- A frame of the current epoch with a good header on a served channel. An OPEN is wasted as out of turn and answered by an ABORT. For the session that
it names, acknowledging nothing unsent: OPEN_ACK with result 0 opens an OPENING session and ends its MBX_OPEN with OK; another result closes the channel and ends
it with MBX_REFUSED. A whole message in order goes to the waiting MBX_RECV, which ends with OK and its length. An ACK of the one fragment in flight ends its
MBX_SEND. CLOSE closes the channel, ends the MBX_RECV with PEER_CLOSED and is answered; CLOSE_ACK ends the MBX_CLOSE with OK; ABORT ends the session. BEGIN_R
with status 0 leads to the second reading from HELD, END_R to ACTIVATE, and ACTIVATE_R to the wait for the limb's return. -/
def Obligations.MailboxFrames : Prop :=
  ∀ s p f, portHears s p = true → (portGet s p).current = some f.epoch → 8 ≤ f.data.length → f.data.length ≤ 256 → mhBad f = false → f.chan < 8 →
    natBit (capsChannels (portGet s p)) f.chan = true →
    let q := pgClnk + p
    let c := f.chan
    let x := sessGet s p c
    let kind := mhKind f
    (kind = kOpen → s.fget q F.LNK_MBX_BKT_LEVEL < 31 →
      ∃ t, exec (.mbxOpenFrame p f) s = .next t ∧ t = { s with regs := t.regs, clnk := t.clnk } ∧ PagesOnly (· = q) s t ∧
        (portGet t p).ctl = (portGet s p).ctl ++ [{ chan := c, kind := kAbort, sid := mhSid f }] ∧ (portGet t p).chans = (portGet s p).chans ∧
        t.fget q F.LNK_MBX_BKT_LEVEL = s.fget q F.LNK_MBX_BKT_LEVEL + 1 ∧ (portGet t p).leakAt.isSome = true) ∧
    (x.sid = mhSid f → sidIssued x (mhSid f) = true → x.una < 65536 → x.rx = [] → x.dlv < 65536 → x.msgOpen = false → x.holding = none → mhSack f = 0 →
      let done := fun (t : State) (j : Nat) (y : Job) (st r : Nat) => jobGet t j = some { y with phase := .done, status := st, result := r, data := none }
      let live := fun (j : Nat) (y : Job) => jobGet s j = some y ∧ s.part.resets.find? y.part = none
      let still := x.frags = [] ∧ x.flight = 0 ∧ x.sends = [] ∧ mhAckn f = x.una
      (∀ j y, kind = kOpenAck → x.state = .opening → still → x.opener = some j → live j y → x.fw = none →
        (mhByte f 8 = 0 → ∃ t r, exec (.openAck p f) s = .next t ∧ (sessGet t p c).state = .opened ∧ (sessGet t p c).sid = x.sid ∧ done t j y stOk r ∧
          r % 2 ^ 24 = (f.epoch + x.sid * 2 ^ 16) % 2 ^ 24) ∧
        (mhByte f 8 ≠ 0 → x.recvs = [] → x.closers = [] →
          ∃ t, exec (.openAck p f) s = .next t ∧ (sessGet t p c).state = .closed ∧ done t j y stMbxRefused (mhByte f 8 * 256))) ∧
      (∀ j y r, kind = kData → x.state = .opened → still → x.fw = none → x.recvs = j :: r → live j y → mhSeq f = x.dlv → mhFirst f = true → mhLast f = true →
        1 ≤ (mhData f).length → (mhData f).length ≤ payBits y 128 32 → s.qe.dead = false → s.host.bme.get false y.part = true →
        ∃ t, exec (.mbxData p f) s = .next t ∧ (sessGet t p c).state = .opened ∧ (sessGet t p c).dlv = (x.dlv + 1) % 65536 ∧ (sessGet t p c).recvs = r ∧
          (sessGet t p c).unacked = x.unacked + 1 ∧ t.host.out = .write y.part (payBits y 64 64) (mhData f) :: s.host.out ∧
          done t j y stOk (mhData f).length) ∧
      (∀ j y g, kind = kAck → x.state = .opened → mhProbe f = false → x.fw = none → x.frags = [g] → x.flight = 1 → g.job = j → g.last = true → x.sends = [j] →
        live j y → mhAckn f = (x.una + 1) % 65536 →
        ∃ t, exec (.mbxAck p f) s = .next t ∧ (sessGet t p c).state = .opened ∧ (sessGet t p c).una = (x.una + 1) % 65536 ∧ (sessGet t p c).frags = [] ∧
          (sessGet t p c).sends = [] ∧ done t j y stOk ((y.aux + g.data.length) % 2 ^ 32)) ∧
      (∀ j y, x.opener = none → x.fw = none → live j y →
        (kind = kClose → x.state = .opened → still → x.recvs = [j] → x.closers = [] →
          ∃ t, exec (.mbxCloseFrame p f) s = .next t ∧ (sessGet t p c).state = .closed ∧ done t j y stMbxPeerClosed 0 ∧
            (portGet t p).ctl.getLast? = some { chan := c, kind := kCloseAck, sid := x.sid }) ∧
        (kind = kCloseAck → x.state = .closing → still → x.recvs = [] → x.closers = [j] →
          ∃ t, exec (.closeAck p f) s = .next t ∧ (sessGet t p c).state = .closed ∧ done t j y stOk 0) ∧
        (kind = kAbort → x.state = .opened → still → x.recvs = [j] → x.closers = [] →
          ∃ t, exec (.mbxAbortFrame p f) s = .next t ∧ (sessGet t p c).state = .closed ∧ done t j y stMbxPeerAbort 0)) ∧
      (∀ r, kind = kData → x.state = .opened → still → x.fw = some r → mhSeq f = x.dlv → mhFirst f = true → mhLast f = true → f.data.length = 16 → mhByte f 9 = 0 →
        let held := leNat ((mhData f).drop 4)
        (r.phase = .begin → mhByte f 8 = 0x81 → held % 4096 = 0 → held ≤ fwBodyLen r.header →
          ∃ t, exec (.beginR p f) s = .next t ∧
            (sessGet t p c).fw = some { r with phase := .reread, held := held, acked := held, since := none } ∧ (sessGet t p c).frags = []) ∧
        (r.phase = .ending → mhByte f 8 = 0x83 →
          ∃ t, exec (.endR p f) s = .next t ∧ (sessGet t p c).fw = some { r with phase := .activate, since := none } ∧
            (sessGet t p c).frags = [{ job := r.job, first := true, last := true, data := leBytes 8 4 }]) ∧
        (r.phase = .activate → mhByte f 8 = 0x84 →
          ∃ t b, exec (.activateR p f) s = .next t ∧ (sessGet t p c).fw = none ∧ (portGet t p).reboots = (portGet s p).reboots ++ [b] ∧ b.job = r.job ∧
            b.since = s.now)))

/-- A started job that passes the checks of R415. MBX_OPEN draws the next SID and queues OPEN. MBX_SEND asks for its data, and with them its message's
fragments are queued. MBX_RECV waits behind the others. MBX_CLOSE with nothing to send moves the session to CLOSING and queues CLOSE. MBX_ABORT closes the channel
and queues the ABORT with which it ends. FW_UPDATE whose container passes its verification opens a session for service 2, and one that fails it ends
with the status given. A job that fails a check ends with the first outcome of the list and nothing else changes. -/
def Obligations.MailboxJobs : Prop :=
  ∀ s job x,
    let p := mjPort x
    let c := mjChan x
    let z := sessGet s p c
    let waits := fun t : State => jobGet t job = some { x with stage := 1 }
    (∀ e ∈ [(Instr.mbxOpen job, 0x50), (Instr.mbxSend job, 0x51), (Instr.mbxRecv job, 0x52), (Instr.mbxClose job, 0x53), (Instr.mbxAbort job, 0x54)],
      startedJob s job e.2 = some x → x.stage = 0 → ∀ st, mjCheck s x = some st → exec e.1 s = .next (jobDone s job st 0)) ∧
    (startedJob s job 0x50 = some x → x.stage = 0 → mjCheck s x = none →
      let n := if z.sidCount = 255 then 1 else z.sidCount + 1
      ∃ t, exec (.mbxOpen job) s = .next t ∧ t = { s with regs := t.regs, clnk := t.clnk, qe := { s.qe with jobs := t.qe.jobs } } ∧ waits t ∧
        sessGet t p c = { state := .opening, sid := n, sidCount := n, sidWrapped := z.sidWrapped || z.sidCount == 255, service := mjService x,
                          window := mjWindow x, opener := some job } ∧
        (portGet t p).ctl = (portGet s p).ctl ++ [{ chan := c, kind := kOpen, sid := n, service := some (mjService x) }]) ∧
    (startedJob s job 0x51 = some x → x.cancel = false →
      (x.stage = 0 → mjCheck s x = none → mjLength x ≠ 0 → x.data = none → s.qe.dead = false → s.host.bme.get false x.part = true →
        ∃ t, exec (.mbxSend job) s = .next t ∧ waits t ∧ sessGet t p c = { z with sends := z.sends ++ [job] } ∧
          t.host.out = .read x.part (mjAddr x) (mjLength x) :: s.host.out) ∧
      (∀ d, x.stage = 1 → x.data = some (.good d []) → mjLength x ≠ 0 → z.state = .opened → z.sends = [job] → z.fed = [] → z.ready = [] → z.rx = [] → z.fw = none →
        ∃ t, exec (.mbxSend job) s = .next t ∧ (sessGet t p c).frags = z.frags ++ fragments job none d ∧ (sessGet t p c).fed = [job] ∧
          (sessGet t p c).state = .opened ∧ jobGet t job = some x)) ∧
    (startedJob s job 0x52 = some x → x.stage = 0 → mjCheck s x = none → z.state = .opened → z.sends = [] → z.rx = [] → z.fw = none →
      ∃ t, exec (.mbxRecv job) s = .next t ∧ waits t ∧ (sessGet t p c).recvs = z.recvs ++ [job] ∧ (sessGet t p c).state = .opened) ∧
    (startedJob s job 0x53 = some x → x.stage = 0 → mjCheck s x = none → z.state = .opened → z.sends = [] → z.frags = [] → z.recvs = [] → z.rx = [] →
      z.fw = none → z.holding = none →
      ∃ t, exec (.mbxClose job) s = .next t ∧ waits t ∧ (sessGet t p c).state = .closing ∧ (sessGet t p c).closers = z.closers ++ [job] ∧
        (portGet t p).ctl = (portGet s p).ctl ++ [{ chan := c, kind := kClose, sid := z.sid }]) ∧
    (startedJob s job 0x54 = some x → x.stage = 0 → mjCheck s x = none → z.sends = [] → z.recvs = [] → z.holding = none → z.opener = none → z.closers = [] →
      z.fw = none →
      ∃ t, exec (.mbxAbort job) s = .next t ∧ waits t ∧ (sessGet t p c).state = .closed ∧
        (portGet t p).ctl.getLast? = some { chan := c, kind := kAbort, sid := z.sid, job := some job }) ∧
    (startedJob s job 0x55 = some x → x.stage = 1 → x.cancel = false → z.fw = none → (∀ r ∈ (portGet s p).reboots, r.job ≠ job) →
      ∀ d, x.data = some (.good d []) →
      (fwVerify s x d = none → mjCheck s x = none →
        ∃ t, exec (.fwUpdate job) s = .next t ∧ t = { s with regs := t.regs, clnk := t.clnk } ∧ (sessGet t p c).state = .opening ∧
          (sessGet t p c).fw = some { job := job, header := d.take 128 } ∧ (sessGet t p c).service = 2) ∧
      (∀ st r, fwVerify s x d = some (st, r) → exec (.fwUpdate job) s = .next (jobDone s job st r)))

/-- T_RTO marks its fragment to be sent again, and after the sixth transmission aborts the session; T_ACK makes an ACK due; T_PROBE queues a probe, and
after the sixth aborts; the OPEN and CLOSE timers queue their frame again, and after the fourth and third send close the channel; a session that is aborted
queues one ABORT with its SID. The leak lowers the bucket by one. A job timeout ends a waiting MBX_RECV with MBX_TIMEOUT; a firmware update whose reply
does not come ends with MBX_TIMEOUT and the reply's type, and one whose limb does not return with FW_NOT_RUNNING. -/
def Obligations.MailboxTimers : Prop :=
  ∀ s p c,
    let x := sessGet s p c
    let plain := fun t : State => t = { s with time := t.time, clnk := t.clnk }
    let aborted := fun t : State => (sessGet t p c).state = .closed ∧ (portGet t p).ctl.getLast? = some { chan := c, kind := kAbort, sid := x.sid }
    let done := fun (t : State) (j : Nat) (y : Job) (st r : Nat) => jobGet t j = some { y with phase := .done, status := st, result := r, data := none }
    (∀ seq g t0, x.frags[(seq + 65536 - x.una) % 65536]? = some g → g.timer = some t0 → x.state ≠ .closed → (seq + 65536 - x.una) % 65536 < x.flight →
      (g.sends < 6 → ∃ t, exec (.rtoExpiry p c seq) s = .next t ∧ plain t ∧
        (sessGet t p c).frags[(seq + 65536 - x.una) % 65536]? = some { g with timer := none, due := true } ∧ (sessGet t p c).frags.length = x.frags.length) ∧
      (6 ≤ g.sends → ∃ t, exec (.rtoExpiry p c seq) s = .next t ∧ aborted t)) ∧
    (∀ t0, x.ackSince = some t0 → x.state ≠ .closed → ∃ t, exec (.ackTimerExpiry p c) s = .next t ∧ plain t ∧ sessGet t p c = { x with ackDue := true }) ∧
    (∀ t0, x.probeAt = some t0 → x.state ≠ .closed →
      (x.probes < 6 → ∃ t, exec (.probeTimerExpiry p c) s = .next t ∧ plain t ∧ (sessGet t p c).probes = x.probes + 1 ∧
        (portGet t p).ctl = (portGet s p).ctl ++ [{ chan := c, kind := kAck, sid := x.sid, probe := true }]) ∧
      (6 ≤ x.probes → ∃ t, exec (.probeTimerExpiry p c) s = .next t ∧ aborted t)) ∧
    (∀ t0, x.timerAt = some t0 →
      (x.state = .opening → x.tries < 4 → ∃ t, exec (.openTimerExpiry p c) s = .next t ∧ plain t ∧ sessGet t p c = { x with timerAt := none } ∧
        (portGet t p).ctl = (portGet s p).ctl ++ [{ chan := c, kind := kOpen, sid := x.sid, service := some x.service }]) ∧
      (∀ j y, x.state = .opening → 4 ≤ x.tries → x.opener = some j → jobGet s j = some y → s.part.resets.find? y.part = none → x.fw = none → x.sends = [] →
        x.recvs = [] → x.holding = none → x.closers = [] →
        ∃ t, exec (.openTimerExpiry p c) s = .next t ∧ (sessGet t p c).state = .closed ∧ done t j y stMbxNoAnswer 0) ∧
      (x.state = .closing → x.tries < 3 → ∃ t, exec (.closeTimerExpiry p c) s = .next t ∧ plain t ∧ sessGet t p c = { x with timerAt := none } ∧
        (portGet t p).ctl = (portGet s p).ctl ++ [{ chan := c, kind := kClose, sid := x.sid }]) ∧
      (x.state = .closing → 3 ≤ x.tries → ∃ t, exec (.closeTimerExpiry p c) s = .next t ∧ (sessGet t p c).state = .closed)) ∧
    (∀ t0, (portGet s p).leakAt = some t0 → 1 ≤ s.fget (pgClnk + p) F.LNK_MBX_BKT_LEVEL →
      let level := s.fget (pgClnk + p) F.LNK_MBX_BKT_LEVEL - 1
      ∃ t, exec (.leakTimerExpiry p) s = .next t ∧ t = { s with regs := t.regs, time := t.time, clnk := t.clnk } ∧
        RegsOnly [(pgClnk + p, F.LNK_MBX_BKT_LEVEL.off)] s t ∧ t.fget (pgClnk + p) F.LNK_MBX_BKT_LEVEL = level ∧
        (portGet t p).leakAt = if level = 0 then none else some (t0 + 800000)) ∧
    (∀ j y, jobGet s j = some y → s.part.resets.find? y.part = none → mjPort y = p → mjChan y = c →
      (y.phase = .started → y.opcode = 0x52 → y.stage ≠ 0 → mjTimeout y ≠ 0 → x.holding ≠ some j → x.recvs = [j] →
        ∃ t, exec (.mbxJobTimeout j) s = .next t ∧ t = { s with time := t.time, clnk := t.clnk, qe := { s.qe with jobs := t.qe.jobs } } ∧
          sessGet t p c = { x with recvs := [] } ∧ done t j y stMbxTimeout 0) ∧
      (∀ f t0, x.fw = some f → f.job = j → f.since = some t0 → f.phase = .begin → x.state ≠ .closed →
        x.sends = [] → x.recvs = [] → x.holding = none → x.opener = none → x.closers = [] →
        ∃ t, exec (.fwReplyTimeout j) s = .next t ∧ aborted t ∧ done t j y stMbxTimeout 0x81) ∧
      (∀ r, (portGet s p).reboots = [r] → r.job = j →
        ∃ t, exec (.fwRebootTimeout j) s = .next t ∧ t = { s with time := t.time, clnk := t.clnk, qe := { s.qe with jobs := t.qe.jobs } } ∧
          (portGet t p).reboots = [] ∧ done t j y stFwNotRunning 0))

/-- P0's MODEL_LOAD on an EMPTY slot moves it to LOADING and reads the image; a good image that passes its checks makes the slot READY with step number 0,
and one that fails leaves it EMPTY with the number of the first failed check. MODEL_UNLOAD of a READY slot without requests or nodes empties it at once; with
requests that it does not cancel the slot drains. PREFIX_FLUSH removes the slot's nodes and answers how many. MASK_LOAD and MASK_FREE do the like for a mask
table. A write of LENS_CORE_CTRL moves each core by its state and its bit; a core that fails is OUT, with FAULT on its page, and the step that used it is run
again or, without a core left, given up. Each balance grows by its rate up to its cap and WAIT counts spent balances; SMP_FILL sets balances to
their caps. What happens when no core is left is the model's reading (assumption 66). -/
def Obligations.ServingTables : Prop :=
  (∀ s job x, LiveJob s job 0x30 x → x.part = 0 →
    let m := payBits x 32 3
    let base := payBits x 192 64
    let len := payBits x 128 40
    (∀ body, x.stage = 0 → base % 2 ^ 21 = 0 → mslotState s m = msEmpty → HostHears s 0 →
      ∃ t l, exec (.modelLoad job body) s = .next t ∧ t = { s with regs := t.regs, host := t.host, qe := { s.qe with jobs := t.qe.jobs } } ∧
        mslotState t m = msLoading ∧ jobGet t job = some { x with stage := 1, data := none } ∧
        t.host.out = .read 0 (payBits x 64 64) len :: l ++ s.host.out) ∧
    (∀ d body, x.stage ≠ 0 → x.cancel = false → x.data = some (.good d []) →
      placed s m base ((len + 2 ^ 21 - 1) / 2 ^ 21 * 2 ^ 21) = true →
      let u := dramStore s 0 base d []
      let h := BitVec.ofNat 1024 (leNat (d.take 128))
      ∃ t, exec (.modelLoad job body) s = .next t ∧ t.mem = u.mem ∧
        (modelCheck u m base len h body = 0 → mslotState t m = msReady ∧ Ends t job x stOk 0 ∧
          mslotGet t m = { mslotGet s m with header := h, base := base, length := len, unload := none, step := none } ∧
          t.reg64 pgServe (F.SERVE_SLOT_STEP_LO.off + 16 * m) (F.SERVE_SLOT_STEP_LO.off + 16 * m + 4) = 0) ∧
        (modelCheck u m base len h body ≠ 0 → mslotState t m = msEmpty ∧ Ends t job x 0x0D00 (modelCheck u m base len h body)))) ∧
  (∀ s job x, LiveJob s job 0x31 x → x.part = 0 → x.stage = 0 →
    let m := payBits x 32 3
    mslotState s m = msReady → (∀ j ∈ waitingJobs s, ∀ y, jobGet s j = some y → payBits y 32 3 ≠ m) →
    (slotReqs s m = [] → (∀ n ∈ s.serve.nodes, n.2.slot ≠ m) →
      ∃ t, exec (.modelUnload job) s = .next t ∧ mslotState t m = msEmpty ∧ (mslotGet t m).unload = none ∧ t.serve.nodes = s.serve.nodes ∧
        Ends t job { x with stage := 100 } stOk 0) ∧
    (slotReqs s m ≠ [] → payBits x 40 1 = 0 → (∀ r ∈ slotReqs s m, (reqGet s r).state ≠ .paused) →
      ∃ t, exec (.modelUnload job) s = .next t ∧ mslotState t m = msDraining ∧ mslotGet t m = { mslotGet s m with unload := some (job, 0) } ∧
        jobGet t job = some { x with stage := 100 } ∧ t.serve.reqs = s.serve.reqs)) ∧
  (∀ s job x, LiveJob s job 0x32 x → x.part = 0 → payBits x 39 1 = 0 →
    let m := payBits x 32 3
    ((∀ n ∈ s.serve.nodes, n.2.slot ≠ m) →
      ∃ t, exec (.prefixFlush job) s = .next t ∧ t = { s with qe := { s.qe with jobs := t.qe.jobs } } ∧ Ends t job x stOk 0) ∧
    (∀ n y, s.serve.nodes = [(n, y)] → y.slot = m → y.child = none → y.parent = none → s.serve.roots.find? (rootKey m y.scope) = some n →
      ∃ t, exec (.prefixFlush job) s = .next t ∧ t.serve.nodes = [] ∧ t.serve.roots.find? (rootKey m y.scope) = y.sibling ∧
        t.serve.nodeChain = s.serve.nodeChain.push n ∧ (kvGet t y.page).ref = (kvGet s y.page).ref - 1 ∧ Ends t job x stOk 1)) ∧
  (∀ s job x, LiveJob s job 0x38 x → x.part = 0 →
    let n := payBits x 32 5
    let base := payBits x 192 64
    let len := payBits x 128 40
    (x.stage = 0 → base % 4096 = 0 → maskState s n = 0 → HostHears s 0 →
      ∃ t, exec (.maskLoad job) s = .next t ∧ RegsOnly [(pgMask, F.MASK_TBL_STATE.off + 8 * n)] s t ∧ maskState t n = 1 ∧
        t.serve.masks.find? n = some { base := base, length := len } ∧ jobGet t job = some { x with stage := 1, data := none } ∧
        t.host.out = .read 0 (payBits x 64 64) len :: s.host.out) ∧
    (∀ d, x.stage ≠ 0 → x.cancel = false → x.data = some (.good d []) → placed s (16 + n) base len = true →
      let u := dramStore s 0 base d []
      ∃ t, exec (.maskLoad job) s = .next t ∧ t.mem = u.mem ∧
        (maskCheck u n base len d = 0 → maskState t n = 2 ∧ maskKind t n = mhKindOf d ∧ Ends t job x stOk 0 ∧
          t.serve.masks.find? n = some { base := base, length := len, vocab := mhField d 8 4, nstates := mhField d 12 4, nclasses := mhField d 16 2,
                                         start := mhField d 18 2 }) ∧
        (maskCheck u n base len d ≠ 0 → maskState t n = 0 ∧ t.serve.masks.find? n = none ∧ Ends t job x 0x0E00 (maskCheck u n base len d)))) ∧
  (∀ s job x, LiveJob s job 0x39 x → x.part = 0 →
    let n := payBits x 32 5
    (maskState s n = 2 → maskRefs s n = 0 → ∃ t, exec (.maskFree job) s = .next t ∧ maskState t n = 0 ∧ t.serve.masks.find? n = none ∧
      RegsOnly [(pgMask, F.MASK_TBL_STATE.off + 8 * n), (pgMask, F.MASK_TBL_DIM_NSTATES.off + 8 * n)] s t ∧ Ends t job x stOk 0) ∧
    (maskState s n ≠ 2 ∨ maskRefs s n ≠ 0 → ∃ t, exec (.maskFree job) s = .next t ∧ t = { s with qe := { s.qe with jobs := t.qe.jobs } } ∧
      Ends t job x 0x0E01 0)) ∧
  (∀ s part p data, Writable s part p → classOf s.var p = some .lens →
    let c := p - pgLens
    ∀ i ∈ [Instr.lensCoreLeave part p data, Instr.lensCoreReturn part p data],
      ∃ t, exec i s = .next t ∧ t = { s with regs := t.regs, pages := t.pages, host := t.host } ∧ PagesOnly (· = p) s t ∧
        ∀ k, k < 4 → coreGet t c k =
          let st := coreGet s c k
          if data.getLsbD k then (if st = coreOut then coreTesting else st)
          else if st = coreIn then (if clusterIdle s c then coreOut else coreLeaving)
          else if st = coreJoining ∨ st = coreTesting then coreOut else st) ∧
  (∀ s p k, classOf s.var p = some .lens → k < 4 → s.fbit p F.PG_ERR0_VALID = false →
    let c := p - pgLens
    coreGet s c k ≠ coreOut →
    ∃ t, exec (.lensCoreFail p k) s = .next t ∧ coreGet t c k = coreOut ∧ (∀ j, j < 4 → j ≠ k → coreGet t c j = coreGet s c j) ∧
      t.fget p F.PG_STAT_FAULT = 1 ∧ t.fget p F.PG_ERR0_CODE = 0x0501 ∧ t.reg p F.PG_ERR3.off = BitVec.ofNat 32 k ∧
      ((∀ m, m < 8 → natBit (mslotGet s m).clusters c = false) → t = { s with regs := t.regs, host := t.host }) ∧
      (∀ m, m < 8 → natBit (mslotGet s m).clusters c = true → (mslotGet s m).step.isSome = true → (coreGet s c k = coreIn ∨ coreGet s c k = coreLeaving) →
        (∀ n, n < 8 → n ≠ m → natBit (mslotGet s n).clusters c = false) →
        t.fget p F.LENS_RERUN_COUNT = satAdd (s.fget p F.LENS_RERUN_COUNT) 1 0xFFFF ∧
        (mslotGet t m).step = if coresIn t m = 0 then none else (mslotGet s m).step)) ∧
  (∀ s, s.var.serve = true →
    let u := s.reach s.serve.refillAt
    s.serve.refillAt ≤ u.now →
    ∃ t, exec .budgetRefill s = .next t ∧ t = { s with regs := t.regs, time := u.time, serve := t.serve } ∧ PagesOnly (· = pgSampler) s t ∧
      t.serve.refillAt = (u.now / 800000000 + 1) * 800000000 ∧
      (∀ a, a < 64 → t.fget pgSampler (F.ACCT_BAL_BAL.sh (16 * a)) =
        ofSigned 32 (min (balGet s a + s.fget pgSampler (F.ACCT_RATE_RATE.sh (16 * a))) (s.fget pgSampler (F.ACCT_CAP_CAP.sh (16 * a))))) ∧
      ((s.serve.reqs.map Prod.fst).Nodup → ∀ r ∈ s.serve.reqs.map Prod.fst, ((reqGet s r).state = .prefill ∨ (reqGet s r).state = .decode) →
        polBudget (mslotGet s (reqGet s r).slot) = true →
        (reqGet t r).wait = if balGet t (reqGet s r).account ≤ 0 then min ((reqGet s r).wait + 1) 255 else 0)) ∧
  (∀ s part high data, Writable s part pgSampler →
    ∃ t, exec (.smpFill part high data) s = .next t ∧ t = { s with regs := t.regs } ∧ PagesOnly (· = pgSampler) s t ∧
      ∀ i, i < 32 →
        let f := fun (g : Fld) => g.sh (16 * (i + if high then 32 else 0))
        t.fget pgSampler (f F.ACCT_BAL_BAL) =
          if data.getLsbD i then s.fget pgSampler (f F.ACCT_CAP_CAP) else s.fget pgSampler (f F.ACCT_BAL_BAL))

/-- REQ_SUBMIT that passes R440 takes the next place in line, and one that fails ends with its outcome. RQT_ALLOCATE on a FREE entry makes the request of the job first in
line, tells its handle to the ring and reads its prompt; with the prompt there, a token outside the vocabulary refuses the request, and a good prompt without
mask, stop tokens or prefix index gets its reservation, where the pool has it, and goes to PREFILL. REQ_CANCEL marks a running request and frees a PAUSED one. REQ_PAUSE and
REQ_RESUME act as R444 allows, and a resumed request takes the job, its ring and its reservation; REQ_QUERY writes the entry's 128 bytes. -/
def Obligations.RequestJobs : Prop :=
  (∀ s job x, LiveJob s job 0xA0 x → x.aux = 0 →
    (submitCheck s x ≠ stOk → ∃ t, exec (.reqSubmit job) s = .next t ∧ t = { s with qe := { s.qe with jobs := t.qe.jobs } } ∧ Ends t job x (submitCheck s x) 0) ∧
    (submitCheck s x = stOk → ∃ t, exec (.reqSubmit job) s = .next t ∧
      t = { s with serve := { s.serve with nextSeq := s.serve.nextSeq + 1 }, qe := { s.qe with jobs := t.qe.jobs } } ∧
      jobGet t job = some { x with aux := s.serve.nextSeq + 1 })) ∧
  (∀ s r j y,
    let x := reqGet s r
    jobGet s j = some y →
    (x.state = .free → r < s.var.rqtEntries → (waitingJobs s).head? = some j → y.cancel = false → HostHears s y.part →
      ∃ t, exec (.rqtAllocate r) s = .next t ∧ t = { s with serve := t.serve, qe := { s.qe with jobs := t.qe.jobs }, host := t.host } ∧
        reqGet t r = newReq s r j y ∧ (∀ k, k ≠ r → reqGet t k = reqGet s k) ∧ jobGet t j = some { y with stage := 1, data := none } ∧
        t.host.out = .read y.part (payBits y 128 64) (4 * payBits y 192 17) ::
          .write y.part (payBits y 256 64 + 8) (leBytes 4 (r + (s.serve.gens.get 0 r + 1) % 65536 * 2 ^ 16)) :: s.host.out) ∧
    (∀ d, x.state = .queued → x.looked = false → x.job = some j → y.data = some (.good d []) → s.part.resets.find? y.part = none →
      x.copies = [] → x.row = [] →
      let h := reqHdr s r
      let toks := wordsOf d x.promptLen
      (toks.any (fun k => decide (hVocab h ≤ k)) = true → x.cancelJobs = [] → (mslotGet s x.slot).unload = none →
        ∃ t, exec (.rqtAllocate r) s = .next t ∧ reqGet t r = {} ∧ (∀ k, k ≠ r → reqGet t k = reqGet s k) ∧ Ends t j y 0x0D08 (runResult x 5)) ∧
      (toks.any (fun k => decide (hVocab h ≤ k)) = false → x.stop0En = false → x.stop1En = false → x.maskKind = 0 →
        s.fbit pgPrefix F.PFX_CTRL_ENABLE = false → HostHears s x.part →
        let res := (x.promptLen + x.maxNew + hTpp h - 1) / hTpp h
        let z := { x with toks := toks, dfaState := 0, looked := true, reused := 0, seqLen := 0, path := [], cursor := none, depth := 0 }
        let u := reqSet s r { z with reserved := res }
        res ≤ kvPages s → kvUse (reqSet s r z) x.part + res ≤ s.fget (pgPart + x.part) F.PART_SHARE0_KV_PAGES →
        (waitingReqs u x.slot).head? = some r → res + kvPromised u ≤ kvFree s →
        ∃ t, exec (.rqtAllocate r) s = .next t ∧ t = { s with regs := t.regs, serve := { s.serve with reqs := t.serve.reqs }, host := t.host } ∧
          RegsOnly [(pgPrefix, F.PFX_LOOKUPS.off), (pgPrefix, F.PFX_HIT_BLOCKS.off)] s t ∧
          reqGet t r = { z with reserved := res, granted := true, state := .prefill } ∧ (∀ k, k ≠ r → reqGet t k = reqGet s k) ∧
          t.host.out = .write x.part (x.ringBase + 12) (leBytes 4 0) :: s.host.out))) ∧
  (∀ s job x, LiveJob s job 0xA1 x → x.stage = 0 →
    (handleReq s x = none → ∃ t, exec (.reqCancel job) s = .next t ∧ t = { s with qe := { s.qe with jobs := t.qe.jobs } } ∧ Ends t job x 0x0D06 0) ∧
    (∀ r, handleReq s x = some r →
      let y := reqGet s r
      (y.state ≠ .paused → ∃ t, exec (.reqCancel job) s = .next t ∧
        t = { s with serve := { s.serve with reqs := t.serve.reqs }, qe := { s.qe with jobs := t.qe.jobs } } ∧
        reqGet t r = { y with cancelJobs := y.cancelJobs ++ [job], cancelPending := true } ∧ (∀ k, k ≠ r → reqGet t k = reqGet s k) ∧
        jobGet t job = some { x with stage := 100 }) ∧
      (y.state = .paused → y.row = [] → y.copies = [] → y.cancelJobs = [] → (mslotGet s y.slot).unload = none →
        ∃ t, exec (.reqCancel job) s = .next t ∧ reqGet t r = {} ∧ (∀ k, k ≠ r → reqGet t k = reqGet s k) ∧ Ends t job { x with stage := 100 } stOk 0))) ∧
  (∀ s job x, LiveJob s job 0xA2 x → x.stage = 0 →
    (∀ st, pauseCheck s x = .inl st → ∃ t, exec (.reqPause job) s = .next t ∧ t = { s with qe := { s.qe with jobs := t.qe.jobs } } ∧ Ends t job x st 0) ∧
    (∀ r, pauseCheck s x = .inr r → ∃ t, exec (.reqPause job) s = .next t ∧
      t = { s with serve := { s.serve with reqs := t.serve.reqs }, qe := { s.qe with jobs := t.qe.jobs } } ∧ jobGet t job = some { x with stage := 100 } ∧
      (∀ k, k ≠ r → reqGet t k = reqGet s k) ∧
      reqGet t r = { reqGet s r with
        pausePending := true, pauseJob := some job, pauseSummary := payBits x 64 1 == 1, pauseTtl := payBits x 80 16, pauseAddr := payBits x 128 64 })) ∧
  (∀ s job x, LiveJob s job 0xA3 x → x.stage = 0 →
    (∀ st, resumeCheck s x = .inl st → ∃ t, exec (.reqResume job) s = .next t ∧ t = { s with qe := { s.qe with jobs := t.qe.jobs } } ∧ Ends t job x st 0) ∧
    (∀ r, resumeCheck s x = .inr r →
      let y := reqGet s r
      let tpp := hTpp (reqHdr s r)
      let n := ((if y.summaryHeld then hSummaryTokens (reqHdr s r) else y.seqLen) + payBits x 192 17 + payBits x 224 17 + tpp - 1) / tpp
      let z := { y with
        state := .resuming, job := some job, qp := x.qp, tag := x.tag, ringBase := payBits x 256 64, ringLog2 := payBits x 248 5, maxNew := payBits x 224 17,
        runOut := 0, written := 0, head := 0, ringFull := false, ttlEnd := 0, draftCtx := false, appended := payBits x 192 17, restore := .waiting,
        granted := false, seq := s.serve.nextSeq + 1, wait := 0, spent := false }
      let u := reqSet s r { z with reserved := n }
      n ≤ kvPages s → kvUse (reqSet s r z) y.part + n ≤ s.fget (pgPart + y.part) F.PART_SHARE0_KV_PAGES →
      ((waitingReqs u y.slot).head? ≠ some r → ∃ t, exec (.reqResume job) s = .next t ∧ reqGet t r = { z with reserved := n } ∧
        t = { s with serve := { s.serve with reqs := t.serve.reqs, nextSeq := s.serve.nextSeq + 1 }, qe := { s.qe with jobs := t.qe.jobs } } ∧
        (∀ k, k ≠ r → reqGet t k = reqGet s k) ∧ jobGet t job = some { x with stage := 2 }) ∧
      ((waitingReqs u y.slot).head? = some r → n + kvPromised u ≤ kvFree s → y.summaryHeld = false → HostHears s y.part →
        ∃ t, exec (.reqResume job) s = .next t ∧ reqGet t r = { z with reserved := n, granted := true, restore := .image } ∧
          t.host.out = .read y.part y.pauseAddr (0x8000 * y.imagePages + 64) :: s.host.out ∧ jobGet t job = some { x with stage := 1, data := none }))) ∧
  (∀ s job x, LiveJob s job 0xA4 x → payBits x 128 3 = 0 →
    (handleReq s x = none → ∃ t, exec (.reqQuery job) s = .next t ∧ t = { s with qe := { s.qe with jobs := t.qe.jobs } } ∧ Ends t job x 0x0D06 0) ∧
    (∀ r, handleReq s x = some r → HostHears s x.part →
      ∃ t, exec (.reqQuery job) s = .next t ∧ t = { s with host := t.host, qe := { s.qe with jobs := t.qe.jobs } } ∧ Ends t job x stOk 0 ∧
        t.host.out = .write x.part (payBits x 128 64) (leBytes 128 (rqtBits s r).toNat) :: s.host.out))

/-- A boundary of a slot without requests counts the step, takes CLUSTERS, the draft binding and the policy words, and lets each of its cores leave or join; an idle slot
does so without counting. There a running request with a pause pending ends its run with the PAUSED marker in its ring and waits for its pages to be
written: PAUSE_WRITE_DONE sends pages and trailer to the host, returns pages and reservation and ends the REQ_PAUSE with the number of pages; TTL's end frees it.
RESUME_RESTORE_DONE with the appended tokens, each in the vocabulary, puts them behind the sequence and goes on in PREFILL, or in DECODE with none. -/
def Obligations.StepsAndPauses : Prop :=
  (∀ s m heads, m < 8 → slotReqs s m = [] →
    let x := mslotGet s m
    let next := s.fget pgServe (F.SERVE_SLOT_CFG_CLUSTERS.sh (16 * m))
    let count := fun (t : State) => t.reg64 pgServe (F.SERVE_SLOT_STEP_LO.off + 16 * m) (F.SERVE_SLOT_STEP_LO.off + 16 * m + 4)
    let applied := fun (t : State) => (mslotGet t m).clusters = next ∧ (mslotGet t m).bind = s.reg pgDraft (F.DRAFT_BIND_DSLOT.off + 4 * m) ∧
      (mslotGet t m).pol0 = s.reg pgSampler (F.SMP_POL0_FAIR.off + 16 * m) ∧ (mslotGet t m).pol1 = s.reg pgSampler (F.SMP_POL1_TOKEN_CAP.off + 16 * m) ∧
      (mslotGet t m).pol2 = s.reg pgSampler (F.SMP_POL2_CHUNK_MAX.off + 16 * m) ∧ (mslotGet t m).step = none ∧
      ∀ c k, c < s.var.lensClusters → k < 4 → natBit (x.clusters ||| next) c = true → coreGet t c k =
        if coreGet s c k = coreLeaving then coreOut else if coreGet s c k = coreJoining then coreIn else coreGet s c k
    (∀ l, x.step = some l → (∀ e ∈ l, (reqGet s e.1).state = .free) →
      ∃ t, exec (.stepBoundary m heads) s = .next t ∧ count t = (count s + 1) % 2 ^ 64 ∧ applied t) ∧
    (x.step = none → ∃ t, exec (.idleSlotApply m heads) s = .next t ∧ count t = count s ∧ applied t)) ∧
  (∀ s m heads r j z, m < 8 → slotReqs s m = [r] → waitingReqs s m = [] → (mslotGet s m).step = none →
    let y := reqGet s r
    let n := 2 ^ y.ringLog2
    y.state = .prefill ∨ y.state = .decode → y.pausePending = true → y.pauseSummary = false → y.spent = false → cancelDue s r = false → ringFree y ≠ 0 →
    y.job = some j → jobGet s j = some z → s.part.resets.find? z.part = none → HostHears s y.part →
    ∃ t l, exec (.idleSlotApply m heads) s = .next t ∧ (reqGet t r).state = .pausing ∧ (reqGet t r).pausePending = false ∧ (reqGet t r).job = none ∧
      (reqGet t r).imagePages = y.row.length ∧ (reqGet t r).row = y.row ∧ Ends t j z stOk (runResult y 4) ∧
      t.host.out = l ++ .write y.part (y.ringBase + 0x40 + 8 * (y.written % n))
        (leBytes 8 (2 ^ 18 + b2n y.flushed * 2 ^ 19 + 4 * 2 ^ 21 + y.outCount % 2 ^ 31 * 2 ^ 32 + b2n (y.written / n % 2 == 0) * 2 ^ 63)) :: s.host.out) ∧
  (∀ s r j z bs u,
    let x := reqGet s r
    x.state = .pausing → x.pauseSummary = false → cancelDue s r = false → pagesOf s r = (bs, u) → (∀ b ∈ bs, b.isSome = true) → x.pauseJob = some j →
    jobGet s j = some z → s.part.resets.find? z.part = none → HostHears s x.part →
    let data := bs.map fun b => b.getD 0
    ∃ t l, exec (.pauseWriteDone r) s = .next t ∧ Ends t j z stOk x.imagePages ∧
      reqGet t r = { x with state := .paused, draftCtx := false, ttlEnd := (s.now + 800000 * x.pauseTtl) % 2 ^ 64, pauseJob := none, row := [], reserved := 0,
                            granted := false, copies := [], path := [] } ∧
      t.host.out = l ++ .write x.part (x.pauseAddr + bs.length) (trailer u r (crc32 data)) ::
        ((if bs = [] then [] else [.write x.part x.pauseAddr data]) ++ u.host.out)) ∧
  (∀ s r,
    let x := reqGet s r
    x.state = .paused → x.ttlEnd ≠ 0 → x.row = [] → x.copies = [] → x.cancelJobs = [] → (mslotGet s x.slot).unload = none →
    ∃ t, exec (.pauseTtlExpiry r) s = .next t ∧ t = { s with regs := t.regs, time := t.time, serve := t.serve, host := t.host } ∧ reqGet t r = {} ∧
      (∀ k, k ≠ r → reqGet t k = reqGet s k) ∧ (s.time.running = true → x.ttlEnd < 2 ^ 64 → x.ttlEnd ≤ t.now) ∧
      t.fget pgRqt F.RQT_EXPIRED_COUNT = satAdd (s.fget pgRqt F.RQT_EXPIRED_COUNT) 1 0xFFFF ∧ (t.reg pgRqt F.PG_IRQ_STAT_ERR.off).getLsbD 0 = true) ∧
  (∀ s r j y,
    let x := reqGet s r
    x.state = .resuming → x.restore = .tokens → x.summaryHeld = false → cancelDue s r = false → x.job = some j → jobGet s j = some y →
    let old := x.toks.take (x.seqLen - x.tokBase)
    (x.appended = 0 → ∃ t, exec (.resumeRestoreDone r) s = .next t ∧ t = { s with serve := { s.serve with reqs := t.serve.reqs } } ∧
      (∀ k, k ≠ r → reqGet t k = reqGet s k) ∧
      reqGet t r = { x with toks := old ++ [x.toks.getD (x.seqLen - x.tokBase) 0], promptLen := x.seqLen, state := .decode }) ∧
    (∀ d, x.appended ≠ 0 → y.data = some (.good d []) → (∀ k ∈ wordsOf d x.appended, k < hVocab (reqHdr s r)) →
      ∃ t, exec (.resumeRestoreDone r) s = .next t ∧ t = { s with serve := { s.serve with reqs := t.serve.reqs } } ∧ (∀ k, k ≠ r → reqGet t k = reqGet s k) ∧
        reqGet t r = { x with toks := old ++ wordsOf d x.appended, promptLen := x.seqLen + x.appended, state := .prefill }))

/-- Host data are staged for the job that reads them. A fill of whole words leaves the pattern in each with its check byte; a copy stores what it reads, and one to the host
sends it; a check counts the words with a correctable error and those with none or poison, and corrects what can be corrected; an injection
inverts the bits, or marks the word; no other word changes. After training the memory is zero and each channel shows its size, or is out
of service. After a scrub pass no word of a tile's SRAM has an error that is not marked, and so for the block of a patrol read; a write-back corrects the oldest word
of its queue; the clear commands zero the counters. A job that fails R528 ends with its outcome. -/
def Obligations.MemoryJobsAndScrubbing : Prop :=
  let sound := fun (c : EccClass) => c = .clean ∨ c = .poison
  (∀ s job x res, jobGet s job = some x → x.phase = .started → x.stage = 1 → x.data = none → readsHost x.opcode = true → s.rtu.work = none →
    ∃ t, exec (.hostReadCompletion job res) s = .next t ∧ t = { s with host := t.host, qe := { s.qe with jobs := t.qe.jobs } } ∧
      jobGet t job = some { x with data := some res } ∧ (∀ d, res = .good d [] → t.host = s.host)) ∧
  (∀ s job x, s.part.resets.find? x.part = none → memReady s = true →
    let dst := payBits x 128 64
    let len := payBits x 192 32
    (∀ e ∈ [(Instr.memCopy job, 0x60), (Instr.memFill job, 0x61), (Instr.memCheck job, 0x62), (Instr.memInject job, 0x63)],
      startedJob s job e.2 = some x → x.stage = 0 → memCheck s x ≠ stOk →
      ∃ t, exec e.1 s = .next t ∧ t = { s with qe := { s.qe with jobs := t.qe.jobs } } ∧ Ends t job x (memCheck s x) 0) ∧
    (memCheck s x = stOk → x.cancel = false → memHeld s x = false →
      (startedJob s job 0x61 = some x →
        (∃ t, exec (.memFill job) s = .next t ∧ Ends t job x stOk len ∧
          (dst % 8 = 0 → len % 8 = 0 → (∀ i, i < len / 8 → chanGone s (memPlace s (dst + 8 * i)).1 = false) →
            let d := BitVec.ofNat 64 (payBits x 256 64)
            t = { s with mem := t.mem, qe := { s.qe with jobs := t.qe.jobs } } ∧ (∀ i, i < len / 8 → t.mem.dram.raw (dst / 8 + i) = (d, eccCheck d)) ∧
              ∀ w, w < dst / 8 ∨ dst / 8 + len / 8 ≤ w → t.mem.dram.raw w = s.mem.dram.raw w))) ∧
      (startedJob s job 0x60 = some x → x.entries.length = 1 → x.stage = 0 → x.aux = 0 →
        let dir := payBits x 32 2
        let src := payBits x 64 64
        (dir = 0 → x.data = none → HostHears s x.part →
          ∃ t, exec (.memCopy job) s = .next t ∧ t = { s with host := t.host, qe := { s.qe with jobs := t.qe.jobs } } ∧
            jobGet t job = some { x with stage := 1 } ∧ t.host.out = .read x.part src len :: s.host.out) ∧
        (dir ≠ 0 → ∀ bs u, dramLoad s x.part src len = (bs, u) → (∀ b ∈ bs, b.isSome = true) →
          let data := bs.map fun b => b.getD 0
          (dir = 1 → HostHears s x.part → ∃ t, exec (.memCopy job) s = .next t ∧ Ends t job x stOk bs.length ∧ t.mem = u.mem ∧
            t.host.out = .write x.part dst data :: u.host.out) ∧
          (dir = 2 → ∃ t, exec (.memCopy job) s = .next t ∧ Ends t job x stOk len ∧ t.mem = (dramStore u x.part dst data []).mem))) ∧
      (∀ d, startedJob s job 0x60 = some x → x.entries.length = 1 → x.stage = 1 → x.aux = 0 → payBits x 32 2 = 0 → x.data = some (.good d []) →
        ∃ t, exec (.memCopy job) s = .next t ∧ Ends t job x stOk len ∧ t.mem = (dramStore s x.part dst (d.take len) []).mem) ∧
      (startedJob s job 0x62 = some x →
        let ws := (List.range ((dst + len - 1) / 8 - dst / 8 + 1)).map (dst / 8 + ·)
        let found := fun (k : Nat) => min ((ws.filter fun w => (dramScrub s w x.part).1 == k).length) 0xFFFF
        ∃ t, exec (.memCheck job) s = .next t ∧ Ends t job x stOk (found 1 + found 2 * 2 ^ 16) ∧
          (∀ w ∈ ws, chanGone s (memPlace s (8 * w)).1 = false → sound (t.mem.dram.cls w)) ∧ ∀ w, w ∉ ws → t.mem.dram.raw w = s.mem.dram.raw w) ∧
      (startedJob s job 0x63 = some x →
        let w := dst / 8
        let b := payBits x 40 6
        let d := (s.mem.dram.raw w).1
        let c := (s.mem.dram.raw w).2
        chanGone s (memPlace s (8 * w)).1 = false →
        ∃ t, exec (.memInject job) s = .next t ∧ t = { s with mem := { s.mem with dram := t.mem.dram }, qe := { s.qe with jobs := t.qe.jobs } } ∧
          Ends t job x stOk 0 ∧ (∀ k, k ≠ w → t.mem.dram.raw k = s.mem.dram.raw k) ∧
          t.mem.dram.raw w = if payBits x 34 2 = 0 then (flipBit d b, c) else if payBits x 34 2 = 1 then (flipBit (flipBit d b) ((b + 1) % 64), c)
            else (d, eccCheck d ^^^ 0xFF)))) ∧
  (∀ s part, Writable s part pgMemc →
    (∃ t, exec (.memcInit part) s = .next t ∧ t = { s with mem := { s.mem with initUsed := true } }) ∧
    (∃ t, exec (.sramClrSelected part) s = .next t ∧ t = { s with mem := { s.mem with regions := t.mem.regions } } ∧
      ∀ r, regionGet t r = if r = s.fget pgMemc F.SRAM_SEL_REGION then { lastCe := (regionGet s r).lastCe } else regionGet s r) ∧
    (∃ t, exec (.sramClrAll part) s = .next t ∧ t = { s with mem := { s.mem with regions := t.mem.regions } } ∧
      ∀ r, regionGet t r = if r < 256 ∧ regionBuilt s.var r then { lastCe := (regionGet s r).lastCe } else regionGet s r)) ∧
  (∀ s part p, classOf s.var p = some .memc → Writable s part p →
    ∃ t, exec (.memcClr part p) s = .next t ∧ t = { s with regs := t.regs } ∧
      RegsOnly [(p, F.MEMC_CE_CE.off), (p, F.MEMC_PCOUNT_READS.off), (p, F.MEMC_MISC_REPAIR_DROPPED.off)] s t ∧
      t.reg p F.MEMC_CE_CE.off = 0 ∧ t.reg p F.MEMC_PCOUNT_READS.off = 0 ∧ t.reg p F.MEMC_MISC_REPAIR_DROPPED.off = 0) ∧
  (∀ s caps, s.mem.initUsed = true → s.fbit pgMemc F.MEMC_STAT_INIT_DONE = false → (∀ c w, c < 2 → w < 16 → (calWindow s c w).2 = 0) →
    ∃ t, exec (.memcInitDone caps) s = .next t ∧ t = { s with regs := t.regs, pages := t.pages, mem := t.mem, host := t.host } ∧ t.mem.dram = {} ∧
      ∀ c, c < s.var.memcChannels → t.fget (memPage c) F.MEMC_STAT_INIT_DONE = 1 ∧
        (∀ g, caps.find? (fun x => x.1 = c ∧ (x.2 = 2 ∨ x.2 = 4 ∨ x.2 = 8 ∨ x.2 = 16)) = some (c, g) →
          t.mem.trained.find? c = some g ∧ t.fget (memPage c) F.MEMC_STAT_TRAINED = 1 ∧ t.fget (memPage c) F.MEMC_STAT_UNITS = chanData t / 2 ^ 21) ∧
        ((∀ x ∈ caps, x.1 ≠ c) → t.mem.trained.find? c = none ∧ t.fget (memPage c) F.PG_STAT_OUT_OF_SERVICE = 1)) ∧
  (∀ s region flips, regionBuilt s.var region = true → asleep s = false → s.mem.passAt.get 0 region ≠ s.now / 2 ^ 24 + 1 →
    ∃ t, exec (.scrubPass region flips) s = .next t ∧ t.mem.passes.get 0 region = s.mem.passes.get 0 region + 1 ∧
      t.mem.passAt.get 0 region = s.now / 2 ^ 24 + 1 ∧ t.mem.dram = s.mem.dram ∧
      (region < s.var.facetTiles → ∀ w, sound ((tileGet t region).sram.cls w))) ∧
  (∀ s ch flips,
    let off := s.mem.patrol.get 0 ch
    let w := memAddr s ch off / 8
    chanGone s ch = false → asleep s = false → (phaseGet s ch).closed = false → s.fget (memPage ch) F.MEMC_PATROL_INTERVAL ≠ 0 →
    (∀ k, k < 16 → (memPlace s (8 * (w + k))).1 = ch) →
    ∃ t, exec (.patrolRead ch flips) s = .next t ∧ t.mem.patrol.get 0 ch = (if off + 128 < chanData s then off + 128 else 0) ∧
      (∀ k, k < 16 → sound (t.mem.dram.cls (w + k))) ∧ ∀ v, v < w ∨ w + 16 ≤ v → t.mem.dram.raw v = s.mem.dram.raw v) ∧
  (∀ s queue w rest b, s.mem.repair.get [] queue = w :: rest →
    (queue < 16 → (phaseGet s queue).closed = false → s.mem.dram.cls w = .ceData b →
      let d := flipBit (s.mem.dram.raw w).1 b
      ∃ t, exec (.repairWriteback queue) s = .next t ∧ t = { s with mem := t.mem } ∧ t.mem.repair.get [] queue = rest ∧
        t.mem.dram.raw w = (d, eccCheck d) ∧ ∀ v, v ≠ w → t.mem.dram.raw v = s.mem.dram.raw v) ∧
    (16 ≤ queue → (tileGet s (queue - 16)).sram.cls w = .ceData b →
      let d := flipBit ((tileGet s (queue - 16)).sram.raw w).1 b
      ∃ t, exec (.repairWriteback queue) s = .next t ∧ t = { s with mem := t.mem, facet := t.facet } ∧ t.mem.repair.get [] queue = rest ∧
        (tileGet t (queue - 16)).sram.raw w = (d, eccCheck d)))

/-- A retention job whose turn it is and that passes the checks of R545: RTU_COMMIT with enough energy allocates its sectors, becomes busy and erases the other superblock slot
first; with too little it ends with HOLDUP_SHORT and the store is as it was. RTU_FORMAT does the like for three sectors. RTU_READ sends the object's
bytes and RTU_LIST the index, and end with the length and the number. The last record of a commit, programmed and good on reading back, makes the new store the store in
force and ends the job with SEQ. HOLDUP_MEASURE shows the smallest conversion and its energy. BACKGROUND_ERASE counts a blank sector as erased and erases another
one; recovery takes the store of the sound slot. Whether a blank sector is erased again is the model's choice (assumption 70). -/
def Obligations.RetentionStore : Prop :=
  (∀ s job op x, s.part.resets.find? x.part = none → startedJob s job op = some x → x.stage = 0 → x.cancel = false →
    retEarly s x = some stOk → ∀ st, s.rtu.store = some st →
    let energy := fun (codes : List Nat) => huAvail s (((codes.take 8).map fun c => c % 4096).min?.getD 0)
    let measured := [(pgRtu, F.RTU_HU_NOW_CODE.off), (pgRtu, F.RTU_HU_AVAIL.off), (pgRtu, F.RTU_LAST_REQ.off), (pgRtu, F.RTU_LAST_AVAIL.off)]
    let begun := fun (t : State) (w : RtuWork) (sec : Nat) =>
      t = { s with regs := t.regs, freeCtr := t.freeCtr, rtu := { s.rtu with work := some w, cmd := some (.erase (areaAt s sec)) },
                   qe := { s.qe with jobs := t.qe.jobs } } ∧
      RegsOnly ((pgRtu, F.RTU_STORE_BUSY.off) :: measured) s t ∧ t.fget pgRtu F.RTU_STORE_BUSY = 1 ∧ jobGet t job = some { x with stage := 2 }
    let short := fun (t : State) => Ends t job x stHoldupShort 0 ∧ t.rtu = s.rtu ∧ t.fget pgRtu F.RTU_LAST_STATUS = stHoldupShort ∧
      t.fget pgRtu F.RTU_COUNT_SHORT = satAdd (s.fget pgRtu F.RTU_COUNT_SHORT) 1 0xFFFF
    (op = 0x40 → rtuTurn s job x true = true → ∀ codes,
      let ops := retOps x
      let need := retNeed ops
      let pool := (fromCursor (freeSectors s) st.cursor).take need
      let dirty := pool.filter fun k => !isErased s k
      let w : RtuWork :=
        { job := some (job, x.seq), part := x.part, seq := (st.seq + 1) % 2 ^ 64, clear := (st.seq + 1) % 2 :: dirty, ops := ops.filter fun o => !o.del,
          pool := pool, taken := pool, cursor := sectorAfter s (pool.getLastD 1),
          objs := ops.foldl (fun t o => if o.del then t.del o.obj else t) st.objs }
      (commitCheck s st x.part ops ≠ stOk → ∃ t, exec (.rtuCommit job codes) s = .next t ∧ t = { s with qe := { s.qe with jobs := t.qe.jobs } } ∧
        Ends t job x (commitCheck s st x.part ops) 0) ∧
      (commitCheck s st x.part ops = stOk → ∃ t, exec (.rtuCommit job codes) s = .next t ∧
        if huReq s (need + 1) (dirty.length + 1) ≤ energy codes then begun t w ((st.seq + 1) % 2) else short t)) ∧
    (op = 0x43 → rtuTurn s job x true = true → x.part = 0 → ∀ codes,
      let w : RtuWork :=
        { job := some (job, x.seq), part := 0, format := true, seq := (st.seq + 1) % 2 ^ 64, clear := [0, 1, 2], pool := [2], taken := [2], cursor := 3 }
      ∃ t, exec (.rtuFormat job codes) s = .next t ∧ if huReq s 2 3 ≤ energy codes then begun t w 0 else short t) ∧
    (op = 0x41 → rtuTurn s job x false = true → ∀ o bs, st.objs.find? (payBits x 40 8) = some o → otherOwner st x.part [payBits x 40 8] = false →
      readRecords s (payBits x 40 8) o.data 0 (min (payBits x 128 32) o.len) [] = (bs, true) → bs ≠ [] → crc32 bs = o.crc → HostHears s x.part →
      ∃ t, exec (.rtuRead job) s = .next t ∧ t = { s with host := t.host, qe := { s.qe with jobs := t.qe.jobs } } ∧ Ends t job x stOk o.len ∧
        t.host.out = .write x.part (payBits x 64 64) bs :: s.host.out) ∧
    (op = 0x42 → rtuTurn s job x false = true → HostHears s x.part →
      let seen := st.objs.filter fun o => x.part == 0 || o.2.owner == x.part
      ∃ t, exec (.rtuList job) s = .next t ∧ t = { s with host := t.host, qe := { s.qe with jobs := t.qe.jobs } } ∧ Ends t job x stOk seen.length ∧
        (seen ≠ [] → payBits x 128 32 ≠ 0 → t.host.out = .write x.part (payBits x 64 64) ((indexBytes seen).take (payBits x 128 32)) :: s.host.out))) ∧
  (∀ s w k bs flips codes j x ix st, s.rtu.work = some w → s.rtu.cmd = some (.program k bs) → w.ops = [] → w.indexAt = some ix → w.format = false →
    s.rtu.store = some st → w.job = some (j, x.seq) → jobGet s j = some x → x.phase = .started → s.part.resets.find? x.part = none →
    let u := flashRun s (.program k bs) (flips.filter fun b => decide (b < 32768))
    (readRec u k).isSome = true →
    ∃ t, exec (.flashOpDone true flips codes) s = .next t ∧ t.rtu.work = none ∧ t.rtu.cmd = none ∧ t.rtu.flash = u.rtu.flash ∧
      t.rtu.store = some { seq := w.seq, indexAt := ix, cursor := w.cursor, bad := st.bad, objs := w.objs } ∧ storeState t = stReady ∧
      t.fget pgRtu F.RTU_STORE_BUSY = 0 ∧ (w.seq < 2 ^ 64 → t.reg64 pgRtu F.RTU_SEQ_LO.off F.RTU_SEQ_HI.off = w.seq) ∧
      t.fget pgRtu F.RTU_COUNT_DONE = satAdd (s.fget pgRtu F.RTU_COUNT_DONE) 1 0xFFFF ∧ Ends t j x stOk w.seq) ∧
  (∀ s sec codes, s.rtu.work = none → s.rtu.cmd = some (.erase (areaAt s sec)) → storeState s = stReady → sec < areaSectors s →
    ∃ t, exec (.flashOpDone true [] codes) s = .next t ∧ t = { s with rtu := t.rtu } ∧ t.rtu.cmd = none ∧ isErased t sec = true ∧
      (∀ k, k < 4096 → flashByte t (4096 * areaAt s sec + k) = 0xFF) ∧ ∀ a, a / 4096 ≠ areaAt s sec → flashByte t a = flashByte s a) ∧
  (∀ s codes, s.rtu.work = none → asleep s = false →
    let code := ((codes.take 8).map fun c => c % 4096).min?.getD 0
    ∃ t, exec (.holdupMeasure codes) s = .next t ∧ t = { s with regs := t.regs, freeCtr := t.freeCtr } ∧
      RegsOnly [(pgRtu, F.RTU_HU_NOW_CODE.off), (pgRtu, F.RTU_HU_AVAIL.off)] s t ∧ t.fget pgRtu F.RTU_HU_NOW_CODE = code ∧
      (huVolt s code < 2 ^ 16 → t.fget pgRtu F.RTU_HU_NOW_MV = huVolt s code ∧ t.freeCtr = s.freeCtr) ∧
      t.reg pgRtu F.RTU_HU_AVAIL.off = BitVec.ofNat 32 (min (huAvail s code) (2 ^ 32 - 1))) ∧
  (∀ s k, storeState s = stReady → s.rtu.work = none → s.rtu.cmd = none → s.fget pgPmu F.PMU_STAT_STATE = 0 →
    (freeSectors s).find? (fun n => !isErased s n) = some k →
    ∃ t, exec .backgroundErase s = .next t ∧
      t = { s with rtu := if s.rtu.flash.get [] (areaAt s k) = [] then { s.rtu with erased := s.rtu.erased.ins k () }
                          else { s.rtu with cmd := some (.erase (areaAt s k)) } }) ∧
  (∀ s, storeState s = stRecovering → s.rtu.cmd = none →
    (recoverPick s = none → ∃ t, exec .rtuRecovery s = .next t ∧ t = { s with regs := t.regs } ∧ storeState t = stNone) ∧
    (∀ slot st, recoverPick s = some (slot, st) → (∀ q, slotSeq s (1 - slot) = some q → q ≤ st.seq) →
      ∃ t, exec .rtuRecovery s = .next t ∧ t = { s with regs := t.regs, host := t.host, rtu := { s.rtu with store := some st, erased := [] } } ∧
        storeState t = stReady ∧ (st.seq < 2 ^ 64 → t.reg64 pgRtu F.RTU_SEQ_LO.off F.RTU_SEQ_HI.off = st.seq)))

/-- Awake, with no entry or exit in progress, the chooser shows what blocks and the next known event, and begins the entry of the deepest state that nothing blocks and that fits
before the event; a block ends an entry. An entry that completes sets STATE and the sleep counts, and in PS2 no aligned copy is valid. Scheduled exits and wakes begin the
exit and record the cause; an exit that completes leads to PS0. PMU_PS4 with its key begins the resume commit or is refused with the reason; when the commit has taken
effect the device is off and the PWM pads are undriven. An armed timer fires once. At T_SHUT a chip reset with cause 5 begins and the device stays hot until it has
cooled by 20 °C; SPEED goes down by one at T_THROTTLE and up by one below it by HYST. -/
def Obligations.PowerStates : Prop :=
  (∀ s inL1 inD3, s.power.off = false → s.power.exiting = false → asleep s = false →
    let block := blocking s inL1 inD3
    let e := nextEvent s
    let p := choose s block e
    (s.power.entering = none →
      ∃ t, exec (.chooserEvaluate inL1 inD3) s = .next t ∧ t = { s with regs := t.regs, power := t.power } ∧
        RegsOnly [(pgPmu, F.PMU_STAT_STATE.off), (pgPmu, F.PMU_NEXT_LO.off), (pgPmu, F.PMU_NEXT_HI.off), (pgPmu, F.PMU_NEXT_SRC_SRC.off)] s t ∧
        t.fget pgPmu F.PMU_STAT_BLOCK = block ∧
        (p = powerState s → t.power = s.power ∧ powerState t = powerState s) ∧ (p ≠ powerState s → p = 0 → t.power = s.power ∧ powerState t = 0) ∧
        (p ≠ powerState s → p ≠ 0 → powerState t = powerState s ∧
          t.power = { s.power with entering := some p,
                                   wakeAt := if 2 ≤ p then e.map fun x => x.1 - exitTicks p - s.fget pgPmu F.PMU_MARGIN_TICKS else none })) ∧
    (∀ q, s.power.entering = some q → blocks s block q = true →
      ∃ t, exec (.chooserEvaluate inL1 inD3) s = .next t ∧ t.power.entering = none ∧ t.power.exiting = decide (2 ≤ q))) ∧
  (∀ s p, s.power.entering = some p → p = 1 ∨ p = 2 ∨ p = 3 →
    ∃ t, exec .psEntryDone s = .next t ∧ powerState t = p ∧ t.power.entering = none ∧ t.power.wakeAt = s.power.wakeAt ∧
      (p = 1 → t = { s with regs := t.regs, power := t.power } ∧ RegsOnly [(pgPmu, F.PMU_STAT_STATE.off)] s t) ∧
      (p = 2 → t.fget pgPmu F.PMU_SLEEP_CNT_PS2 = satAdd (s.fget pgPmu F.PMU_SLEEP_CNT_PS2) 1 0xFFFF ∧ (∀ c ∈ t.time.copies, c.2.valid = false) ∧
        ∀ n, natBit (s.fget pgLoupe F.LOUPE_LEVEL_SRC) 14 = false → n < s.var.pwmPairs → s.fget (pgPwm + n) F.PWM_STAT_HOLD = 0 →
          t.fget (pgPwm + n) F.PWM_STAT_H_ON = 0 ∧ t.fget (pgPwm + n) F.PWM_STAT_L_ON = 0) ∧
      (p = 3 → t.fget pgPmu F.PMU_SLEEP_CNT_PS3 = satAdd (s.fget pgPmu F.PMU_SLEEP_CNT_PS3) 1 0xFFFF ∧ t.qe = {} ∧ t.facet = {} ∧ t.mem = {})) ∧
  (∀ s, s.power.exiting = false → s.power.off = false → powerState s = 2 →
    (∀ w, s.power.wakeAt = some w → ∃ t, exec .scheduledExit s = .next t ∧ t = { s with regs := t.regs, time := t.time, power := t.power } ∧
      t.power = { s.power with entering := none, wakeAt := none, exiting := true, fromPs2 := true } ∧
      t.fget pgPmu F.PMU_LAST_WAKE_CAUSE = 2 ^ (s.fget pgPmu F.PMU_NEXT_SRC_SRC - 1) ∧ (s.time.running = true → w < 2 ^ 64 → w ≤ t.now)) ∧
    (∀ sources : BitVec 8, sources.toNat &&& 0x78 ≠ 0 → s.power.entering = none → ∃ t, exec (.wake sources) s = .next t ∧
      t = { s with regs := t.regs, power := t.power } ∧ t.power = { s.power with wakeAt := none, exiting := true, fromPs2 := true } ∧
      RegsOnly [(pgPmu, F.PMU_LAST_WAKE_CAUSE.off)] s t ∧ t.fget pgPmu F.PMU_LAST_WAKE_CAUSE = sources.toNat &&& 0x78)) ∧
  (∀ s, s.power.exiting = true → ∃ t, exec .psExitDone s = .next t ∧ t = { s with regs := t.regs, power := t.power, host := t.host } ∧ powerState t = 0 ∧
    t.power = { s.power with exiting := false, fromPs2 := false } ∧
    (s.power.fromPs2 = true → (t.reg pgPmu F.PG_IRQ_STAT_ERR.off).getLsbD 0 = true)) ∧
  (∀ s (data : Word) codes, Writable s 0 pgPmu → bitsOf data 16 16 = 0x0FF4 → objIdOk (bitsOf data 0 8) = true → s.power.resuming = false →
    (blocking s true true &&& 0x1D9 ≠ 0 → s.fbit pgPmu F.PG_ERR0_VALID = false →
      ∃ t, exec (.pmuPs4 0 data codes) s = .next t ∧ RegsOnly (captureRegs s pgPmu 0) s t ∧ t.fget pgPmu F.PG_ERR0_CODE = 0x1100 ∧
        t.reg pgPmu F.PG_ERR3.off = 1 ∧ t.power = s.power) ∧
    (∀ st, blocking s true true &&& 0x1D9 = 0 → s.rtu.store = some st → storeState s = stReady →
      let ops : List RetOp := [{ obj := bitsOf data 0 8, cls := 5, len := 64, bytes := some (resumeObject s) }]
      let pool := (fromCursor (freeSectors s) st.cursor).take (retNeed ops)
      commitCheck s st 0 ops = stOk →
      huReq s (retNeed ops + 1) ((pool.filter fun k => !isErased s k).length + 1) ≤ huAvail s (((codes.take 8).map fun c => c % 4096).min?.getD 0) →
      ∃ t w, exec (.pmuPs4 0 data codes) s = .next t ∧ t.power = { s.power with resuming := true } ∧ t.rtu.work = some w ∧ w.job = none ∧ w.ops = ops ∧
        w.pool = pool ∧ t.rtu.cmd = some (.erase (areaAt s ((st.seq + 1) % 2))))) ∧
  (∀ s st, s.power.resuming = true → s.rtu.resumed = some st →
    (st = stOk → ∃ t, exec .ps4CommitDone s = .next t ∧ t.power.off = true ∧ t.power.resuming = false ∧ t.tku = {} ∧ t.loupe = {} ∧ t.rtu.flash = s.rtu.flash ∧
      ∀ n, n < s.var.pwmPairs → (pairGet t n).hiz = true) ∧
    (st ≠ stOk → st < 2 ^ 16 → s.fbit pgPmu F.PG_ERR0_VALID = false → ∃ t, exec .ps4CommitDone s = .next t ∧ t.power = { s.power with resuming := false } ∧
      RegsOnly ((pgPmu, F.PMU_PS4_STAT_STATUS.off) :: captureRegs s pgPmu 0) s t ∧ t.fget pgPmu F.PMU_PS4_STAT_STATUS = st ∧
      t.fget pgPmu F.PG_ERR0_CODE = 0x1100 ∧ t.reg pgPmu F.PG_ERR3.off = BitVec.ofNat 32 (3 + st * 2 ^ 16))) ∧
  (∀ s n, n < 4 → s.time.running = true → s.power.off = false →
    let lo := F.PMU_TMR_LO.off + 8 * n
    let hi := F.PMU_TMR_HI.off + 8 * n
    let v := s.reg64 pgPmu lo hi
    v ≠ 0 → ∃ t, exec (.pmuTimerFire n) s = .next t ∧ t = { s with regs := t.regs, time := t.time, host := t.host } ∧
      RegsOnly [(pgPmu, lo), (pgPmu, hi), (pgPmu, F.PMU_TMR_STAT_FIRED.off), (pgPmu, F.PG_IRQ_STAT_ERR.off)] s t ∧ t.reg64 pgPmu lo hi = 0 ∧ v ≤ t.now ∧
      natBit (t.fget pgPmu F.PMU_TMR_STAT_FIRED) n = true ∧ (t.reg pgPmu F.PG_IRQ_STAT_ERR.off).getLsbD 1 = true) ∧
  (∀ s (t0 t1 t2 t3 : Int), s.power.off = false →
    let c := max (max t0 t1) (max t2 t3)
    let shut : Int := s.fget pgPmu F.PMU_THERM_T_SHUT
    ∃ t, exec (.thermalSample t0 t1 t2 t3) s = .next t ∧ t.fget pgPmu F.PMU_TEMP_DEGC = ofSigned 8 (max (-128) (min 127 c)) ∧
      (c < shut → t = { s with regs := t.regs, power := { s.power with hot := s.power.hot && decide (shut - 20 < c) } } ∧
        RegsOnly [(pgPmu, F.PMU_TEMP_DEGC.off)] s t) ∧
      (shut ≤ c → s.power.hot = false → t.power.hot = true ∧ t.fget pgRst F.RST_CAUSE_CAUSE = 5 ∧ t.fget pgChip F.CHIP_BOOT_STAGE = 1)) ∧
  (∀ s, s.time.running = true → s.power.off = false → s.power.adjusted = some s.now → s.now < 2 ^ 63 →
    let temp := toSigned 8 (s.fget pgPmu F.PMU_TEMP_DEGC)
    let hot : Int := s.fget pgPmu F.PMU_THERM_T_THROTTLE
    let v := s.fget pgPmu F.PMU_SPEED_SPEED
    ∃ t, exec .speedAdjust s = .next t ∧ t = { s with regs := t.regs, time := t.time, power := t.power, host := t.host } ∧
      t.now = (s.now / 800000 + 1) * 800000 ∧ t.power = { s.power with adjusted := some t.now } ∧
      t.fget pgPmu F.PMU_SPEED_SPEED = if hot ≤ temp then max 1 (v - 1)
        else if temp ≤ hot - s.fget pgPmu F.PMU_THERM_HYST then max v (min (v + 1) (s.fget pgPmu F.PMU_SPEED_CAP)) else v)

/-- A strobe with the configuration already in force: an enabled key whose level has differed for DEBOUNCE + 1 strobes in a row changes state, shows it and stores an
ON or OFF event; another counts on. An enabled CC pair shows its two voltages, and a scan starts every SCAN_MS strobes. A scan ends with the RAW of every enabled
channel; a channel that acquires takes RAW as its baseline, and 200 strobes on it has acquired. P0's read of TKU_EVT_LO gives the oldest event and removes it; FLUSH empties the
FIFO, the next command zeroes DROPPED, and REACQUIRE starts every enabled channel again. -/
def Obligations.TouchAndKeys : Prop :=
  let quiet := fun (s : State) => asleep s = false ∧ s.power.entering = none
  (∀ s (keys : BitVec 8) dock cc0 cc1 cc2 cc3, s.time.running = true → s.power.off = false → quiet s → s.now < 2 ^ 63 →
    s.tku.lastStrobe = some s.now → s.tku.cfg = s.regs.filter (fun k => decide (k.1 / 4096 = pgTku) && tkuCfgOff (k.1 % 4096)) → s.tku.fifo.length ≤ 12 →
    ∃ t, exec (.tkuStrobe keys dock cc0 cc1 cc2 cc3) s = .next t ∧ t.now = (s.now / 800000 + 1) * 800000 ∧ t.tku.strobes = s.tku.strobes + 1 ∧
      t.tku.scan = (if t.now / 800000 % max 1 (tkuCfg s F.TKU_TOUCH_CTRL_SCAN_MS) = 0 then some t.tku.strobes else s.tku.scan) ∧
      (tkuOn s F.TKU_TC_CFG_ENABLE = true → t.fget pgTku F.TKU_TC_STAT_CC1 = min (cc0 / 10) 255 ∧ t.fget pgTku F.TKU_TC_STAT_CC2 = min (cc1 / 10) 255) ∧
      ∀ k, k < 8 → tkuOn s (F.TKU_KEY_ENABLE.sh (4 * k)) = true →
        let x := keyGet s k
        let n := if (keys.getLsbD k == tkuOn s (F.TKU_KEY_POL.sh (4 * k))) != x.pressed then x.count + 1 else 0
        (tkuCfg s (F.TKU_KEY_DEBOUNCE.sh (4 * k)) + 1 ≤ n →
          (keyGet t k).pressed = !x.pressed ∧ (keyGet t k).count = 0 ∧ natBit (t.fget pgTku F.TKU_STATE_KEYS) k = !x.pressed ∧
          ∃ e ∈ t.tku.fifo, bitsOf e 0 5 = k ∧ bitsOf e 5 4 = if x.pressed then evOff else evOn) ∧
        (n ≤ tkuCfg s (F.TKU_KEY_DEBOUNCE.sh (4 * k)) → (keyGet t k).pressed = x.pressed ∧ (keyGet t k).count = n ∧
          natBit (t.fget pgTku F.TKU_STATE_KEYS) k = natBit (s.fget pgTku F.TKU_STATE_KEYS) k)) ∧
  (∀ s start raws tick, s.tku.scan = some start → quiet s → 1 ≤ tkuCfg s F.TKU_TOUCH_CTRL_DEB →
    ∃ t, exec (.touchScanEnd raws tick) s = .next t ∧ t.tku.scan = none ∧
      ∀ c, c < 12 → tkuOn s (tchF F.TKU_TCH_CFG_ENABLE c) = true →
        tchRaw t c = raws.getD c 0 % 2 ^ 16 ∧
        (∀ a, (touchGet s c).acquire = some a → s.fbit pgTku (tchF F.TKU_TCH_STAT_FAULTED c) = false → 1 ≤ raws.getD c 0 → raws.getD c 0 < 0xFFFF →
          (start < a + 200 → tchBase t c = raws.getD c 0 ∧ (touchGet t c).acquire = some a) ∧
          (a + 200 ≤ start → s.fbit pgTku (tchF F.TKU_TCH_STAT_ACQUIRED c) = false → t.fbit pgTku (tchF F.TKU_TCH_STAT_ACQUIRED c) = true ∧
            (touchGet t c).acquire = none))) ∧
  (∀ s e rest, s.host.crs = false → viewOf s 0 pgTku = .full → s.tku.fifo = e :: rest → rest.length < 64 →
    ∃ t, exec (.tkuEvtRead 0) s = .next t ∧ t = { s with regs := t.regs, tku := t.tku, host := t.host } ∧ RegsOnly [(pgTku, F.TKU_FIFO_HELD.off)] s t ∧
      t.tku.fifo = rest ∧ t.fget pgTku F.TKU_FIFO_HELD = rest.length ∧ t.tku.evtHi.get 0 0 = BitVec.ofNat 32 (e.toNat / 2 ^ 32) ∧
      t.host.out = .readData 0 (BitVec.ofNat 32 e.toNat) :: s.host.out) ∧
  (∀ s part, Writable s part pgTku →
    (∃ t, exec (.tkuFlush part) s = .next t ∧ t = { s with regs := t.regs, tku := { s.tku with fifo := [] } } ∧
      RegsOnly [(pgTku, F.TKU_FIFO_HELD.off)] s t ∧ t.fget pgTku F.TKU_FIFO_HELD = 0 ∧ t.fget pgTku F.TKU_FIFO_DROPPED = s.fget pgTku F.TKU_FIFO_DROPPED) ∧
    (∃ t, exec (.tkuClrDropped part) s = .next t ∧ t = { s with regs := t.regs } ∧
      RegsOnly [(pgTku, F.TKU_FIFO_HELD.off)] s t ∧ t.fget pgTku F.TKU_FIFO_DROPPED = 0 ∧ t.fget pgTku F.TKU_FIFO_HELD = s.fget pgTku F.TKU_FIFO_HELD) ∧
    (∃ t, exec (.reacquire part) s = .next t ∧ t = { s with regs := t.regs, tku := { s.tku with touch := t.tku.touch } } ∧
      ∀ c, c < 12 → tkuOn s (tchF F.TKU_TCH_CFG_ENABLE c) = true →
        touchGet t c = { acquire := some s.tku.strobes } ∧ t.fbit pgTku (tchF F.TKU_TCH_STAT_ACQUIRED c) = false ∧ tchKind t c = 0))

/-- PWR_EN rises once the Loupe is up, CORE_PG after it, and with the Plan reference the PTB counts from 0 at stage 1. FILL, DISCOVER, IMAGE, PRELOAD, HOST_READY and
STORE_DONE each go one stage on with their work: SRAM zero, SFDP read, the copy chosen and its reasons shown, the records written, the host let in, RST_KEEP of a resumed
device restored. When CORE_PG falls the islands are reset and time stops. Each JTAG instruction loads its code and captures its register; HOLD_RESET holds; a chip
reset shows cause 6 and keeps RST_KEEP; FUSE_PROG programs an unset hash once. Under DAP a register is read and written as by P0, and the flash is read, written by page and
erased. That a boot stage is one command is the model's choice (assumption 80). -/
def Obligations.BringUpAndTestPort : Prop :=
  let boot := fun (s : State) (n : Nat) => bootStage s = n ∧ powered s = true ∧ s.power.hot = false
  let stage := (pgChip, F.CHIP_BOOT_STAGE.off)
  (∀ s,
    (s.boot.loupeUp = true → s.power.off = false → ∃ t, exec .pwrEnRaise s = .next t ∧ t = { s with boot := { s.boot with pwrEn := true } }) ∧
    (s.boot.pwrEn = true → ∃ t, exec .corePgRise s = .next t ∧ t = { s with boot := { s.boot with corePg := true } }) ∧
    (s.boot.corePg = true → s.time.running = false → ∃ t, exec .planRefLock s = .next t ∧ t = { s with regs := t.regs, time := { running := true }, pwm := t.pwm } ∧
      bootStage t = 1 ∧ t.now = 0 ∧ ∀ p off, off < 4096 → keptPage p = false → p ≠ pgChip → ¬ (pgPwm ≤ p ∧ p < pgPwm + s.var.pwmPairs) →
        t.reg p off = t.resetAt (p * 4096 + off)) ∧
    (s.boot.corePg = true → s.rtu.cmd = none → ∃ t, exec .corePgFall s = .next t ∧ t.boot = { pwrEn := s.boot.pwrEn, loupeUp := s.boot.loupeUp } ∧
      t.time.running = false ∧ t.qe = {} ∧ t.facet = {} ∧ t.serve.reqs = [] ∧ t.mem = {} ∧ t.rtu = { flash := s.rtu.flash } ∧ t.fuses = s.fuses ∧
      t.fget pgRst F.RST_CAUSE_CAUSE = 0 ∧ t.reg pgRst F.RST_KEEP_VALUE.off = 0)) ∧
  (∀ s,
    (boot s 1 → s.jtag.hold = false → ∃ t, exec .fill s = .next t ∧ t = { s with regs := t.regs, facet := { s.facet with tiles := [] } } ∧
      RegsOnly [stage] s t ∧ bootStage t = 2) ∧
    (∀ size erase, boot s 2 → s.rtu.cmd = none → 24 ≤ size → size ≤ 31 → erase < 2 ^ 16 →
      ∃ t, exec (.discover (some (size, erase))) s = .next t ∧ bootStage t = 3 ∧ t.fget pgRtu F.RTU_INFO_SIZE_LOG2 = size ∧
        t.fget pgRtu F.RTU_INFO_SFDP_OK = 1 ∧ t.fget pgRtu F.RTU_INFO_ERASE_MAX = erase ∧
        (s.clnk.resetting.isSome = true → t = { s with regs := t.regs } ∧ RegsOnly [stage, (pgRtu, F.RTU_INFO_SIZE_LOG2.off)] s t)) ∧
    (∀ readA readB, boot s 3 →
      let ra := copyReason s 0 readA
      let rb := copyReason s 0x10000 readB
      let c := copyChosen s ra rb
      ∃ t, exec (.image readA readB) s = .next t ∧ t = { s with regs := t.regs, boot := { s.boot with copy := c } } ∧
        RegsOnly [stage, (pgRtu, F.RTU_AREA_BASE.off)] s t ∧ bootStage t = 4 ∧ t.fget pgChip F.CHIP_BOOT_FAIL_A = ra ∧ t.fget pgChip F.CHIP_BOOT_FAIL_B = rb ∧
        t.fget pgChip F.CHIP_BOOT_IMAGE_VERIFIED = b2n c.isSome ∧
        (∀ x, c = some x → t.fget pgRtu F.RTU_AREA_BASE = x.storeBase ∧ t.fget pgRtu F.RTU_AREA_SIZE = x.storeSize)) ∧
    (boot s 4 →
      ((s.boot.copy.getD {}).preloads = [] → ∃ t, exec .preload s = .next t ∧ t = { s with regs := t.regs } ∧ RegsOnly [stage] s t ∧ bootStage t = 5) ∧
      (∀ w : Word, (s.boot.copy.getD {}).preloads = [(pgRtu, F.RTU_PART_EN_EN.off, w)] → pageBusy s pgRtu = false → s.fbit pgRtu F.PG_LOCK_LOCK = false →
        ∃ t, exec .preload s = .next t ∧ t = { s with regs := t.regs } ∧ RegsOnly [stage, (pgRtu, F.RTU_PART_EN_EN.off)] s t ∧ bootStage t = 5 ∧
          t.fget pgRtu F.RTU_PART_EN_EN = w.toNat % 2 ^ 16)) ∧
    (boot s 5 → ∃ t, exec .hostReady s = .next t ∧ t = { s with regs := t.regs, host := { s.host with crs := false } } ∧
      RegsOnly [stage, (pgRtu, F.RTU_STORE_STATE.off)] s t ∧ bootStage t = 6 ∧
      storeState t = if storeState s = stFlashFault then stFlashFault else if areaOk s then stRecovering else stNone) ∧
    (boot s 6 → storeState s ≠ stRecovering → ∃ t, exec .storeDone s = .next t ∧ t = { s with regs := t.regs } ∧
      RegsOnly [stage, (pgRst, F.RST_CAUSE_CAUSE.off), (pgRst, F.RST_KEEP_VALUE.off)] s t ∧ bootStage t = 7 ∧
      (s.boot.powerOn = false → RegsOnly [stage] s t) ∧
      (∀ keep, s.boot.powerOn = true → resumeKeep s = some keep → s.boot.keepWritten = false →
        t.fget pgRst F.RST_CAUSE_CAUSE = 1 ∧ t.reg pgRst F.RST_KEEP_VALUE.off = keep))) ∧
  (∀ s,
    let loads := fun (ir captured : Nat) =>
      { s with jtag := { s.jtag with ir := ir, captured := captured, hold := s.jtag.hold && (ir == 0x10 || ir == 0x11) } }
    (∀ c : BitVec 309, ∀ i ∈ [(Instr.extest c, 0x00), (Instr.samplePreload c, 0x02)],
      ∃ t, exec i.1 s = .next t ∧ t = { s with jtag := t.jtag, freeCtr := s.freeCtr + 1 } ∧
        t.jtag = { s.jtag with ir := i.2, captured := t.jtag.captured, hold := false, cells := c } ∧
        natBit t.jtag.captured (3 * ballPwrEn + 2) = s.boot.pwrEn ∧ natBit t.jtag.captured (3 * ballCorePg + 2) = s.boot.corePg) ∧
    (∀ i ∈ [(Instr.idcode, 0x01, jtagIdcode s), (Instr.clamp, 0x03, 0), (Instr.highz, 0x04, 0), (Instr.bypass, 0x3F, 0), (Instr.dap, 0x10, dapCapture s),
        (Instr.fuseRead, 0x14, s.fuses.rootHash.toNat)], exec i.1 s = .next (loads i.2.1 i.2.2)) ∧
    (∃ t, exec .holdReset s = .next t ∧ t = { s with jtag := { s.jtag with ir := 0x11, captured := 0, hold := true } }) ∧
    (powered s = true → ∃ t, exec .jtagChipReset s = .next t ∧ t.jtag = (loads 0x12 0).jtag ∧ t.fuses = s.fuses ∧ t.rtu.flash = s.rtu.flash ∧ t.qe = {} ∧
      t.host.crs = true ∧ bootStage t = 1 ∧ t.fget pgRst F.RST_CAUSE_CAUSE = 6 ∧ t.reg pgRst F.RST_KEEP_VALUE.off = s.reg pgRst F.RST_KEEP_VALUE.off ∧
      t.fget pgRst F.RST_COUNT_COUNT = satAdd (s.fget pgRst F.RST_COUNT_COUNT) 1 0xFFFF) ∧
    (∀ hash, (s.fuses.rootHash = 0 → s.boot.corePg = true → ∃ t, exec (.fuseProg hash true none) s = .next t ∧
        t = { s with jtag := (loads 0x13 0).jtag, fuses := { s.fuses with rootHash := hash } }) ∧
      (s.fuses.rootHash ≠ 0 → exec (.fuseProg hash true none) s = .next (loads 0x13 s.fuses.rootHash.toNat)))) ∧
  (∀ s addr, s.jtag.ir = 0x10 →
    let u := { s with jtag := { s.jtag with captured := dapCapture s } }
    (s.host.crs = false → addr % 4 = 0 →
      (∃ t, exec (.regRead addr) s = .next t ∧ t = { (regRead u 0 (addr / 4096) (addr % 4096)).2 with jtag := t.jtag } ∧ t.jtag.dapError = false ∧
        t.jtag.dapData = (regRead u 0 (addr / 4096) (addr % 4096)).1.setWidth 64) ∧
      (∀ data, ∃ t v, exec (.regWrite addr data) s = .next t ∧ exec (.registerWrite 0 (addr / 4096) (addr % 4096) 0xF data) u = .next v ∧
        t = { v with jtag := { v.jtag with dapError := false } })) ∧
    (held s = true → s.boot.corePg = true → s.rtu.cmd = none →
      (∃ t, exec (.flashRead addr) s = .next t ∧
        t = { s with jtag := { u.jtag with dapError := false, dapData := BitVec.ofNat 64 (leNat (flashBytes s addr 8)) } }) ∧
      (∃ t, exec (.flashErase addr) s = .next t ∧
        t = { s with jtag := { u.jtag with dapError := false }, rtu := { s.rtu with cmd := some (.erase (addr / 4096)) } }) ∧
      (∀ data : BitVec 64, s.jtag.pageAt = none ∨ s.jtag.pageAt = some (addr / 256) →
        let byte := fun (k : Nat) => BitVec.ofNat 8 (data.toNat / 2 ^ (8 * k))
        (addr % 256 / 8 ≠ 31 → ∃ t, exec (.flashWrite addr data) s = .next t ∧ t = { s with jtag := t.jtag } ∧ t.jtag.pageAt = some (addr / 256) ∧
          t.jtag.dapError = false ∧ (∀ k, k < 8 → t.jtag.pageBytes.get 0xFF (addr % 256 / 8 * 8 + k) = byte k) ∧
          ∀ k, k < addr % 256 / 8 * 8 ∨ addr % 256 / 8 * 8 + 8 ≤ k → t.jtag.pageBytes.get 0xFF k = s.jtag.pageBytes.get 0xFF k) ∧
        (addr % 256 / 8 = 31 → ∃ t bs, exec (.flashWrite addr data) s = .next t ∧ t = { s with jtag := t.jtag, rtu := { s.rtu with cmd := t.rtu.cmd } } ∧
          t.jtag.pageAt = none ∧ t.jtag.dapError = false ∧ t.rtu.cmd = some (.program (addr / 4096) bs) ∧
          bs.length = 256 * (addr / 256 % 16) + 256 ∧ (∀ k, k < 8 → bs[256 * (addr / 256 % 16) + 248 + k]? = some (byte k)) ∧
          ∀ k, k < 248 → bs[256 * (addr / 256 % 16) + k]? = some (s.jtag.pageBytes.get 0xFF k)))))
end

