-- ==== Sys2Proof/Laws/Tab.lean ====
section
/-! SUPPORT. Laws of tables and of bit fields of a word. -/

namespace Sys2Proof
namespace Tab
variable {α : Type}

@[simp] theorem find?_nil (k : Nat) : find? ([] : Tab α) k = none := rfl

@[simp] theorem find?_ins_same (t : Tab α) (k : Nat) (v : α) : find? (ins t k v) k = some v := by
  induction t with
  | nil => simp [ins, find?]
  | cons h t ih =>
    obtain ⟨k', v'⟩ := h
    unfold ins
    split
    · simp [find?]
    · split
      · simp [find?]
      · rename_i h1 h2
        simp [find?, Ne.symm h2, ih]

theorem find?_ins_ne (t : Tab α) {j k : Nat} (v : α) (h : j ≠ k) : find? (ins t k v) j = find? t j := by
  induction t with
  | nil => simp [ins, find?, Ne.symm h]
  | cons e t ih =>
    obtain ⟨k', v'⟩ := e
    unfold ins
    split
    · simp [find?, Ne.symm h]
    · split
      · rename_i h1 h2
        subst h2
        simp [find?, Ne.symm h]
      · simp only [find?, ih]

@[simp] theorem find?_del_same (t : Tab α) (k : Nat) : find? (del t k) k = none := by
  induction t with
  | nil => rfl
  | cons e t ih =>
    obtain ⟨k', v'⟩ := e
    unfold del
    split
    · exact ih
    · rename_i h
      simp [find?, Ne.symm h, ih]

theorem find?_del_ne (t : Tab α) {j k : Nat} (h : j ≠ k) : find? (del t k) j = find? t j := by
  induction t with
  | nil => rfl
  | cons e t ih =>
    obtain ⟨k', v'⟩ := e
    unfold del
    split
    · rename_i h2
      subst h2
      simp [find?, Ne.symm h, ih]
    · simp only [find?, ih]

@[simp] theorem get_nil (d : α) (k : Nat) : get ([] : Tab α) d k = d := rfl

@[simp] theorem get_ins_same (t : Tab α) (d : α) (k : Nat) (v : α) : get (ins t k v) d k = v := by simp [get]

theorem get_ins_ne (t : Tab α) (d : α) {j k : Nat} (v : α) (h : j ≠ k) : get (ins t k v) d j = get t d j := by
  simp [get, find?_ins_ne t v h]

@[simp] theorem get_set_same [DecidableEq α] (t : Tab α) (d : α) (k : Nat) (v : α) : get (set t d k v) d k = v := by
  unfold set
  split
  · rename_i h
    simp [get, h]
  · simp [get]

/-- A write under one key leaves every other key, whatever the defaults. -/
theorem get_set_ne [DecidableEq α] (t : Tab α) (d d' : α) {j k : Nat} (v : α) (h : j ≠ k) : get (set t d k v) d' j = get t d' j := by
  unfold set
  split
  · simp [get, find?_del_ne t h]
  · simp [get, find?_ins_ne t v h]

/-! ### The one form -/

theorem rising_tail {e : Nat × α} {t : Tab α} (h : rising (e :: t) = true) : rising t = true := by
  cases t with
  | nil => rfl
  | cons f t => simp [rising] at h; exact h.2

theorem rising_cons {k : Nat} {v : α} {t : Tab α} : rising ((k, v) :: t) = true ↔ (∀ e ∈ t.head?, k < e.1) ∧ rising t = true := by
  cases t with
  | nil => simp [rising]
  | cons f t => obtain ⟨k', v'⟩ := f; simp [rising]

/-- The keys of a rising table rise strictly, pair by pair. -/
theorem rising_iff (t : Tab α) : rising t = true ↔ t.Pairwise (fun a b => a.1 < b.1) := by
  induction t with
  | nil => simp [rising]
  | cons e t ih =>
    obtain ⟨k, v⟩ := e
    rw [rising_cons, List.pairwise_cons, ih]
    constructor
    · rintro ⟨hh, hp⟩
      refine ⟨fun a ha => ?_, hp⟩
      cases t with
      | nil => simp at ha
      | cons f t =>
        have hf : k < f.1 := hh f rfl
        rcases List.mem_cons.mp ha with rfl | ha
        · exact hf
        · exact lt_trans hf ((List.pairwise_cons.mp hp).1 a ha)
    · rintro ⟨hh, hp⟩
      refine ⟨fun e he => hh e ?_, hp⟩
      cases t with
      | nil => simp at he
      | cons f t => simp at he; simp [he]

theorem mem_ins {t : Tab α} {k : Nat} {v : α} {e : Nat × α} (h : e ∈ ins t k v) : e = (k, v) ∨ e ∈ t := by
  induction t with
  | nil => simpa [ins] using h
  | cons f t ih =>
    obtain ⟨k', v'⟩ := f
    unfold ins at h
    split at h
    · simpa using h
    · split at h
      · rcases List.mem_cons.mp h with h | h
        · exact .inl h
        · exact .inr (List.mem_cons_of_mem _ h)
      · rcases List.mem_cons.mp h with h | h
        · exact .inr (by simp [h])
        · rcases ih h with h | h
          · exact .inl h
          · exact .inr (List.mem_cons_of_mem _ h)

theorem del_eq_filter (t : Tab α) (k : Nat) : del t k = t.filter fun e => decide (e.1 ≠ k) := by
  induction t with
  | nil => rfl
  | cons e t ih =>
    obtain ⟨k', v'⟩ := e
    unfold del
    by_cases h : k = k'
    · subst h
      simp [ih]
    · simp [h, Ne.symm h, ih]

theorem mem_del {t : Tab α} {k : Nat} {e : Nat × α} (h : e ∈ del t k) : e ∈ t := by
  rw [del_eq_filter] at h
  exact (List.mem_filter.mp h).1

theorem rising_ins {t : Tab α} (k : Nat) (v : α) (h : rising t = true) : rising (ins t k v) = true := by
  induction t with
  | nil => rfl
  | cons e t ih =>
    obtain ⟨k', v'⟩ := e
    unfold ins
    split
    · rename_i h1
      simp [rising, h1, h]
    · split
      · rename_i h1 h2
        subst h2
        rw [rising_cons] at h ⊢
        exact h
      · rename_i h1 h2
        have hp := (rising_iff _).mp h
        rw [rising_iff, List.pairwise_cons]
        refine ⟨fun a ha => ?_, (rising_iff _).mp (ih (rising_tail h))⟩
        rcases mem_ins ha with rfl | ha
        · exact lt_of_le_of_ne (not_lt.mp h1) (Ne.symm h2)
        · exact (List.pairwise_cons.mp hp).1 a ha

theorem rising_filter {t : Tab α} (p : Nat × α → Bool) (h : rising t = true) : rising (t.filter p) = true :=
  (rising_iff _).mpr (((rising_iff _).mp h).sublist List.filter_sublist)

theorem rising_del {t : Tab α} (k : Nat) (h : rising t = true) : rising (del t k) = true := by
  rw [del_eq_filter]
  exact rising_filter _ h

theorem rising_set [DecidableEq α] {t : Tab α} (d : α) (k : Nat) (v : α) (h : rising t = true) : rising (set t d k v) = true := by
  unfold set
  split
  · exact rising_del k h
  · exact rising_ins k v h

/-- What a write lists is the value written, where it is not the default, or was listed before. -/
theorem mem_set [DecidableEq α] {t : Tab α} {d : α} {k : Nat} {v : α} {e : Nat × α} (h : e ∈ set t d k v) :
    (e = (k, v) ∧ v ≠ d) ∨ (e ∈ t ∧ (v = d → e.1 ≠ k)) := by
  unfold set at h
  split at h
  · rename_i hv
    rw [del_eq_filter] at h
    have := List.mem_filter.mp h
    exact .inr ⟨this.1, fun _ => by simpa using this.2⟩
  · rename_i hv
    rcases mem_ins h with h | h
    · exact .inl ⟨h, hv⟩
    · exact .inr ⟨h, fun e => absurd e hv⟩

/-- What is found is listed. -/
theorem mem_of_find? {t : Tab α} {k : Nat} {v : α} (h : find? t k = some v) : (k, v) ∈ t := by
  induction t with
  | nil => simp at h
  | cons e t ih =>
    obtain ⟨k', v'⟩ := e
    unfold find? at h
    split at h
    · rename_i hk
      simp at h
      simp [hk, h]
    · exact List.mem_cons_of_mem _ (ih h)

end Tab

/-! ### Bit fields -/

/-- A field that lies in the word reads back what is written to it. -/
theorem bitsOf_putBits_same (x : Word) {lo wid : Nat} (v : Nat) (h : lo + wid ≤ 32) :
    bitsOf (putBits x lo wid v) lo wid = v % 2 ^ wid := by
  apply Nat.eq_of_testBit_eq
  intro i
  simp only [bitsOf, putBits, Nat.testBit_mod_two_pow, Nat.testBit_shiftRight, BitVec.testBit_toNat, BitVec.getLsbD_or,
    BitVec.getLsbD_and, BitVec.getLsbD_not, BitVec.getLsbD_ofNat, Nat.testBit_shiftLeft, Nat.testBit_two_pow_sub_one]
  by_cases hi : i < wid
  · have : lo + i < 32 := by omega
    simp [hi, this]
  · simp [hi]

/-- A field keeps its value when one beside it is written. -/
theorem bitsOf_putBits_ne (x : Word) {lo wid lo' wid' : Nat} (v : Nat) (h : lo' + wid' ≤ lo ∨ lo + wid ≤ lo') :
    bitsOf (putBits x lo wid v) lo' wid' = bitsOf x lo' wid' := by
  apply Nat.eq_of_testBit_eq
  intro i
  simp only [bitsOf, putBits, Nat.testBit_mod_two_pow, Nat.testBit_shiftRight, BitVec.testBit_toNat, BitVec.getLsbD_or,
    BitVec.getLsbD_and, BitVec.getLsbD_not, BitVec.getLsbD_ofNat, Nat.testBit_shiftLeft, Nat.testBit_two_pow_sub_one]
  by_cases hi : i < wid'
  · by_cases hb : lo' + i < 32
    · have : ¬ (lo ≤ lo' + i ∧ lo' + i - lo < wid) := by omega
      by_cases hl : lo ≤ lo' + i
      · have : ¬ (lo' + i - lo < wid) := by omega
        simp [hi, hb, hl, this]
      · simp [hi, hb, hl]
    · have h2 : x.getLsbD (lo' + i) = false := BitVec.getLsbD_of_ge _ _ (by omega)
      simp [hi, hb, h2]
  · simp [hi]

theorem bitsOf_lt {w : Nat} (x : BitVec w) (lo wid : Nat) : bitsOf x lo wid < 2 ^ wid := Nat.mod_lt _ (Nat.two_pow_pos _)

end Sys2Proof
end

