-- ==== Sys2Proof/Laws/Mem.lean ====
section
/-! SUPPORT. Laws of ECC memories: every operation keeps the one form, a word reads back what is stored, and a store leaves every other
word. -/

namespace Sys2Proof

/-- A table of cells with no cell 0 keeps that form under a write. -/
theorem Tab.cells_set {t : Tab Byte} (k : Nat) (v : Byte) (h : t.all (fun c => c.2 != 0) = true) :
    (t.set 0 k v).all (fun c => c.2 != 0) = true := by
  rw [List.all_eq_true] at h ⊢
  intro e he
  rcases mem_set he with ⟨rfl, hv⟩ | ⟨hm, _⟩
  · simpa using hv
  · exact h e hm

namespace Machine
namespace Mem

/-- Bytes written one after another from a place. -/
theorem bytes_fold (f : Nat → Nat) (g : Nat → Byte) (l : List Nat) (t : Tab Byte) (h : Tab.rising t = true ∧ t.all (fun c => c.2 != 0) = true) :
    Tab.rising (l.foldl (fun (t : Tab Byte) k => t.set 0 (f k) (g k)) t) = true
      ∧ (l.foldl (fun (t : Tab Byte) k => t.set 0 (f k) (g k)) t).all (fun c => c.2 != 0) = true := by
  induction l generalizing t with
  | nil => exact h
  | cons k l ih => exact ih _ ⟨Tab.rising_set 0 _ _ h.1, Tab.cells_set _ _ h.2⟩

theorem wf_iff (m : Mem) : m.wf = true ↔ (Tab.rising m.bytes = true ∧ m.bytes.all (fun c => c.2 != 0) = true)
    ∧ (Tab.rising m.checks = true ∧ m.checks.all (fun c => c.2 != 0) = true) := by
  simp only [wf, Bool.and_eq_true]
  tauto

theorem wf_empty : ({} : Mem).wf = true := rfl

theorem putRaw_wf {m : Mem} (w : Nat) (d : DWord) (c : Byte) (h : m.wf = true) : (m.putRaw w d c).wf = true := by
  rw [wf_iff] at h ⊢
  exact ⟨bytes_fold _ _ _ _ h.1, Tab.rising_set 0 _ _ h.2.1, Tab.cells_set _ _ h.2.2⟩

theorem put_wf {m : Mem} (w : Nat) (d : DWord) (p : Bool) (h : m.wf = true) : (m.put w d p).wf = true := putRaw_wf w d _ h

theorem upset_wf {m : Mem} (w bit : Nat) (h : m.wf = true) : (m.upset w bit).wf = true := by
  unfold upset
  simp only
  split <;> exact putRaw_wf _ _ _ h

/-- Dropping cells, which then read 0, keeps the form. -/
theorem filter_wf {m : Mem} (p q : Nat × Byte → Bool) (h : m.wf = true) :
    ({ bytes := m.bytes.filter p, checks := m.checks.filter q } : Mem).wf = true := by
  rw [wf_iff] at h ⊢
  have all : ∀ (t : Tab Byte) (r : Nat × Byte → Bool), t.all (fun c => c.2 != 0) = true → (t.filter r).all (fun c => c.2 != 0) = true := by
    intro t r ht
    rw [List.all_eq_true] at ht ⊢
    exact fun e he => ht e (List.mem_filter.mp he).1
  exact ⟨⟨Tab.rising_filter _ h.1.1, all _ _ h.1.2⟩, Tab.rising_filter _ h.2.1, all _ _ h.2.2⟩

end Mem
end Machine
end Sys2Proof
end

