-- ==== Sys2Proof/Laws/State.lean ====
section
/-! SUPPORT. Laws of the named updates of State: what each leaves, field by field, and what a register reads after one is written. -/

namespace Sys2Proof.Machine

/-! ### setReg -/

@[simp] theorem setReg_fuses (s : State) (page off : Nat) (w : Word) : (s.setReg page off w).fuses = s.fuses := rfl
theorem setReg_regs (s : State) (page off : Nat) (w : Word) : (s.setReg page off w).regs = s.regs.set (s.resetAt (page * 4096 + off)) (page * 4096 + off) w := rfl
@[simp] theorem setReg_time (s : State) (page off : Nat) (w : Word) : (s.setReg page off w).time = s.time := rfl
@[simp] theorem setReg_pages (s : State) (page off : Nat) (w : Word) : (s.setReg page off w).pages = s.pages := rfl
@[simp] theorem setReg_qe (s : State) (page off : Nat) (w : Word) : (s.setReg page off w).qe = s.qe := rfl
@[simp] theorem setReg_part (s : State) (page off : Nat) (w : Word) : (s.setReg page off w).part = s.part := rfl
@[simp] theorem setReg_host (s : State) (page off : Nat) (w : Word) : (s.setReg page off w).host = s.host := rfl
@[simp] theorem setReg_loop (s : State) (page off : Nat) (w : Word) : (s.setReg page off w).loop = s.loop := rfl
@[simp] theorem setReg_pwm (s : State) (page off : Nat) (w : Word) : (s.setReg page off w).pwm = s.pwm := rfl
@[simp] theorem setReg_loupe (s : State) (page off : Nat) (w : Word) : (s.setReg page off w).loupe = s.loupe := rfl
@[simp] theorem setReg_mem (s : State) (page off : Nat) (w : Word) : (s.setReg page off w).mem = s.mem := rfl
@[simp] theorem setReg_facet (s : State) (page off : Nat) (w : Word) : (s.setReg page off w).facet = s.facet := rfl
@[simp] theorem setReg_solver (s : State) (page off : Nat) (w : Word) : (s.setReg page off w).solver = s.solver := rfl
@[simp] theorem setReg_clnk (s : State) (page off : Nat) (w : Word) : (s.setReg page off w).clnk = s.clnk := rfl
@[simp] theorem setReg_serve (s : State) (page off : Nat) (w : Word) : (s.setReg page off w).serve = s.serve := rfl
@[simp] theorem setReg_rtu (s : State) (page off : Nat) (w : Word) : (s.setReg page off w).rtu = s.rtu := rfl
@[simp] theorem setReg_power (s : State) (page off : Nat) (w : Word) : (s.setReg page off w).power = s.power := rfl
@[simp] theorem setReg_tku (s : State) (page off : Nat) (w : Word) : (s.setReg page off w).tku = s.tku := rfl
@[simp] theorem setReg_boot (s : State) (page off : Nat) (w : Word) : (s.setReg page off w).boot = s.boot := rfl
@[simp] theorem setReg_jtag (s : State) (page off : Nat) (w : Word) : (s.setReg page off w).jtag = s.jtag := rfl
@[simp] theorem setReg_freeCtr (s : State) (page off : Nat) (w : Word) : (s.setReg page off w).freeCtr = s.freeCtr := rfl
@[simp] theorem setReg_pending (s : State) (page off : Nat) (w : Word) : (s.setReg page off w).pending = s.pending := rfl
@[simp] theorem setReg_var (s : State) (page off : Nat) (w : Word) : (s.setReg page off w).var = s.var := rfl
@[simp] theorem setReg_now (s : State) (page off : Nat) (w : Word) : (s.setReg page off w).now = s.now := rfl

/-! ### fset -/

@[simp] theorem fset_fuses (s : State) (page : Nat) (f : Fld) (v : Nat) : (s.fset page f v).fuses = s.fuses := rfl
@[simp] theorem fset_time (s : State) (page : Nat) (f : Fld) (v : Nat) : (s.fset page f v).time = s.time := rfl
@[simp] theorem fset_pages (s : State) (page : Nat) (f : Fld) (v : Nat) : (s.fset page f v).pages = s.pages := rfl
@[simp] theorem fset_qe (s : State) (page : Nat) (f : Fld) (v : Nat) : (s.fset page f v).qe = s.qe := rfl
@[simp] theorem fset_part (s : State) (page : Nat) (f : Fld) (v : Nat) : (s.fset page f v).part = s.part := rfl
@[simp] theorem fset_host (s : State) (page : Nat) (f : Fld) (v : Nat) : (s.fset page f v).host = s.host := rfl
@[simp] theorem fset_loop (s : State) (page : Nat) (f : Fld) (v : Nat) : (s.fset page f v).loop = s.loop := rfl
@[simp] theorem fset_pwm (s : State) (page : Nat) (f : Fld) (v : Nat) : (s.fset page f v).pwm = s.pwm := rfl
@[simp] theorem fset_loupe (s : State) (page : Nat) (f : Fld) (v : Nat) : (s.fset page f v).loupe = s.loupe := rfl
@[simp] theorem fset_mem (s : State) (page : Nat) (f : Fld) (v : Nat) : (s.fset page f v).mem = s.mem := rfl
@[simp] theorem fset_facet (s : State) (page : Nat) (f : Fld) (v : Nat) : (s.fset page f v).facet = s.facet := rfl
@[simp] theorem fset_solver (s : State) (page : Nat) (f : Fld) (v : Nat) : (s.fset page f v).solver = s.solver := rfl
@[simp] theorem fset_clnk (s : State) (page : Nat) (f : Fld) (v : Nat) : (s.fset page f v).clnk = s.clnk := rfl
@[simp] theorem fset_serve (s : State) (page : Nat) (f : Fld) (v : Nat) : (s.fset page f v).serve = s.serve := rfl
@[simp] theorem fset_rtu (s : State) (page : Nat) (f : Fld) (v : Nat) : (s.fset page f v).rtu = s.rtu := rfl
@[simp] theorem fset_power (s : State) (page : Nat) (f : Fld) (v : Nat) : (s.fset page f v).power = s.power := rfl
@[simp] theorem fset_tku (s : State) (page : Nat) (f : Fld) (v : Nat) : (s.fset page f v).tku = s.tku := rfl
@[simp] theorem fset_boot (s : State) (page : Nat) (f : Fld) (v : Nat) : (s.fset page f v).boot = s.boot := rfl
@[simp] theorem fset_jtag (s : State) (page : Nat) (f : Fld) (v : Nat) : (s.fset page f v).jtag = s.jtag := rfl
@[simp] theorem fset_freeCtr (s : State) (page : Nat) (f : Fld) (v : Nat) : (s.fset page f v).freeCtr = s.freeCtr := rfl
@[simp] theorem fset_pending (s : State) (page : Nat) (f : Fld) (v : Nat) : (s.fset page f v).pending = s.pending := rfl
@[simp] theorem fset_var (s : State) (page : Nat) (f : Fld) (v : Nat) : (s.fset page f v).var = s.var := rfl
@[simp] theorem fset_now (s : State) (page : Nat) (f : Fld) (v : Nat) : (s.fset page f v).now = s.now := rfl

/-! ### setReg64 -/

@[simp] theorem setReg64_fuses (s : State) (page lo hi v : Nat) : (s.setReg64 page lo hi v).fuses = s.fuses := rfl
@[simp] theorem setReg64_time (s : State) (page lo hi v : Nat) : (s.setReg64 page lo hi v).time = s.time := rfl
@[simp] theorem setReg64_pages (s : State) (page lo hi v : Nat) : (s.setReg64 page lo hi v).pages = s.pages := rfl
@[simp] theorem setReg64_qe (s : State) (page lo hi v : Nat) : (s.setReg64 page lo hi v).qe = s.qe := rfl
@[simp] theorem setReg64_part (s : State) (page lo hi v : Nat) : (s.setReg64 page lo hi v).part = s.part := rfl
@[simp] theorem setReg64_host (s : State) (page lo hi v : Nat) : (s.setReg64 page lo hi v).host = s.host := rfl
@[simp] theorem setReg64_loop (s : State) (page lo hi v : Nat) : (s.setReg64 page lo hi v).loop = s.loop := rfl
@[simp] theorem setReg64_pwm (s : State) (page lo hi v : Nat) : (s.setReg64 page lo hi v).pwm = s.pwm := rfl
@[simp] theorem setReg64_loupe (s : State) (page lo hi v : Nat) : (s.setReg64 page lo hi v).loupe = s.loupe := rfl
@[simp] theorem setReg64_mem (s : State) (page lo hi v : Nat) : (s.setReg64 page lo hi v).mem = s.mem := rfl
@[simp] theorem setReg64_facet (s : State) (page lo hi v : Nat) : (s.setReg64 page lo hi v).facet = s.facet := rfl
@[simp] theorem setReg64_solver (s : State) (page lo hi v : Nat) : (s.setReg64 page lo hi v).solver = s.solver := rfl
@[simp] theorem setReg64_clnk (s : State) (page lo hi v : Nat) : (s.setReg64 page lo hi v).clnk = s.clnk := rfl
@[simp] theorem setReg64_serve (s : State) (page lo hi v : Nat) : (s.setReg64 page lo hi v).serve = s.serve := rfl
@[simp] theorem setReg64_rtu (s : State) (page lo hi v : Nat) : (s.setReg64 page lo hi v).rtu = s.rtu := rfl
@[simp] theorem setReg64_power (s : State) (page lo hi v : Nat) : (s.setReg64 page lo hi v).power = s.power := rfl
@[simp] theorem setReg64_tku (s : State) (page lo hi v : Nat) : (s.setReg64 page lo hi v).tku = s.tku := rfl
@[simp] theorem setReg64_boot (s : State) (page lo hi v : Nat) : (s.setReg64 page lo hi v).boot = s.boot := rfl
@[simp] theorem setReg64_jtag (s : State) (page lo hi v : Nat) : (s.setReg64 page lo hi v).jtag = s.jtag := rfl
@[simp] theorem setReg64_freeCtr (s : State) (page lo hi v : Nat) : (s.setReg64 page lo hi v).freeCtr = s.freeCtr := rfl
@[simp] theorem setReg64_pending (s : State) (page lo hi v : Nat) : (s.setReg64 page lo hi v).pending = s.pending := rfl
@[simp] theorem setReg64_var (s : State) (page lo hi v : Nat) : (s.setReg64 page lo hi v).var = s.var := rfl
@[simp] theorem setReg64_now (s : State) (page lo hi v : Nat) : (s.setReg64 page lo hi v).now = s.now := rfl

/-! ### fincSat -/

@[simp] theorem fincSat_fuses (s : State) (page : Nat) (f : Fld) (d : Nat) : (s.fincSat page f d).fuses = s.fuses := rfl
@[simp] theorem fincSat_time (s : State) (page : Nat) (f : Fld) (d : Nat) : (s.fincSat page f d).time = s.time := rfl
@[simp] theorem fincSat_pages (s : State) (page : Nat) (f : Fld) (d : Nat) : (s.fincSat page f d).pages = s.pages := rfl
@[simp] theorem fincSat_qe (s : State) (page : Nat) (f : Fld) (d : Nat) : (s.fincSat page f d).qe = s.qe := rfl
@[simp] theorem fincSat_part (s : State) (page : Nat) (f : Fld) (d : Nat) : (s.fincSat page f d).part = s.part := rfl
@[simp] theorem fincSat_host (s : State) (page : Nat) (f : Fld) (d : Nat) : (s.fincSat page f d).host = s.host := rfl
@[simp] theorem fincSat_loop (s : State) (page : Nat) (f : Fld) (d : Nat) : (s.fincSat page f d).loop = s.loop := rfl
@[simp] theorem fincSat_pwm (s : State) (page : Nat) (f : Fld) (d : Nat) : (s.fincSat page f d).pwm = s.pwm := rfl
@[simp] theorem fincSat_loupe (s : State) (page : Nat) (f : Fld) (d : Nat) : (s.fincSat page f d).loupe = s.loupe := rfl
@[simp] theorem fincSat_mem (s : State) (page : Nat) (f : Fld) (d : Nat) : (s.fincSat page f d).mem = s.mem := rfl
@[simp] theorem fincSat_facet (s : State) (page : Nat) (f : Fld) (d : Nat) : (s.fincSat page f d).facet = s.facet := rfl
@[simp] theorem fincSat_solver (s : State) (page : Nat) (f : Fld) (d : Nat) : (s.fincSat page f d).solver = s.solver := rfl
@[simp] theorem fincSat_clnk (s : State) (page : Nat) (f : Fld) (d : Nat) : (s.fincSat page f d).clnk = s.clnk := rfl
@[simp] theorem fincSat_serve (s : State) (page : Nat) (f : Fld) (d : Nat) : (s.fincSat page f d).serve = s.serve := rfl
@[simp] theorem fincSat_rtu (s : State) (page : Nat) (f : Fld) (d : Nat) : (s.fincSat page f d).rtu = s.rtu := rfl
@[simp] theorem fincSat_power (s : State) (page : Nat) (f : Fld) (d : Nat) : (s.fincSat page f d).power = s.power := rfl
@[simp] theorem fincSat_tku (s : State) (page : Nat) (f : Fld) (d : Nat) : (s.fincSat page f d).tku = s.tku := rfl
@[simp] theorem fincSat_boot (s : State) (page : Nat) (f : Fld) (d : Nat) : (s.fincSat page f d).boot = s.boot := rfl
@[simp] theorem fincSat_jtag (s : State) (page : Nat) (f : Fld) (d : Nat) : (s.fincSat page f d).jtag = s.jtag := rfl
@[simp] theorem fincSat_freeCtr (s : State) (page : Nat) (f : Fld) (d : Nat) : (s.fincSat page f d).freeCtr = s.freeCtr := rfl
@[simp] theorem fincSat_pending (s : State) (page : Nat) (f : Fld) (d : Nat) : (s.fincSat page f d).pending = s.pending := rfl
@[simp] theorem fincSat_var (s : State) (page : Nat) (f : Fld) (d : Nat) : (s.fincSat page f d).var = s.var := rfl
@[simp] theorem fincSat_now (s : State) (page : Nat) (f : Fld) (d : Nat) : (s.fincSat page f d).now = s.now := rfl

/-! ### modPage -/

@[simp] theorem modPage_fuses (s : State) (p : Nat) (f : PageSt → PageSt) : (s.modPage p f).fuses = s.fuses := rfl
@[simp] theorem modPage_regs (s : State) (p : Nat) (f : PageSt → PageSt) : (s.modPage p f).regs = s.regs := rfl
@[simp] theorem modPage_time (s : State) (p : Nat) (f : PageSt → PageSt) : (s.modPage p f).time = s.time := rfl
theorem modPage_pages (s : State) (p : Nat) (f : PageSt → PageSt) : (s.modPage p f).pages = s.pages.set {} p (f (s.page p)) := rfl
@[simp] theorem modPage_qe (s : State) (p : Nat) (f : PageSt → PageSt) : (s.modPage p f).qe = s.qe := rfl
@[simp] theorem modPage_part (s : State) (p : Nat) (f : PageSt → PageSt) : (s.modPage p f).part = s.part := rfl
@[simp] theorem modPage_host (s : State) (p : Nat) (f : PageSt → PageSt) : (s.modPage p f).host = s.host := rfl
@[simp] theorem modPage_loop (s : State) (p : Nat) (f : PageSt → PageSt) : (s.modPage p f).loop = s.loop := rfl
@[simp] theorem modPage_pwm (s : State) (p : Nat) (f : PageSt → PageSt) : (s.modPage p f).pwm = s.pwm := rfl
@[simp] theorem modPage_loupe (s : State) (p : Nat) (f : PageSt → PageSt) : (s.modPage p f).loupe = s.loupe := rfl
@[simp] theorem modPage_mem (s : State) (p : Nat) (f : PageSt → PageSt) : (s.modPage p f).mem = s.mem := rfl
@[simp] theorem modPage_facet (s : State) (p : Nat) (f : PageSt → PageSt) : (s.modPage p f).facet = s.facet := rfl
@[simp] theorem modPage_solver (s : State) (p : Nat) (f : PageSt → PageSt) : (s.modPage p f).solver = s.solver := rfl
@[simp] theorem modPage_clnk (s : State) (p : Nat) (f : PageSt → PageSt) : (s.modPage p f).clnk = s.clnk := rfl
@[simp] theorem modPage_serve (s : State) (p : Nat) (f : PageSt → PageSt) : (s.modPage p f).serve = s.serve := rfl
@[simp] theorem modPage_rtu (s : State) (p : Nat) (f : PageSt → PageSt) : (s.modPage p f).rtu = s.rtu := rfl
@[simp] theorem modPage_power (s : State) (p : Nat) (f : PageSt → PageSt) : (s.modPage p f).power = s.power := rfl
@[simp] theorem modPage_tku (s : State) (p : Nat) (f : PageSt → PageSt) : (s.modPage p f).tku = s.tku := rfl
@[simp] theorem modPage_boot (s : State) (p : Nat) (f : PageSt → PageSt) : (s.modPage p f).boot = s.boot := rfl
@[simp] theorem modPage_jtag (s : State) (p : Nat) (f : PageSt → PageSt) : (s.modPage p f).jtag = s.jtag := rfl
@[simp] theorem modPage_freeCtr (s : State) (p : Nat) (f : PageSt → PageSt) : (s.modPage p f).freeCtr = s.freeCtr := rfl
@[simp] theorem modPage_pending (s : State) (p : Nat) (f : PageSt → PageSt) : (s.modPage p f).pending = s.pending := rfl
@[simp] theorem modPage_var (s : State) (p : Nat) (f : PageSt → PageSt) : (s.modPage p f).var = s.var := rfl
@[simp] theorem modPage_now (s : State) (p : Nat) (f : PageSt → PageSt) : (s.modPage p f).now = s.now := rfl
@[simp] theorem modPage_reg (s : State) (p : Nat) (f : PageSt → PageSt) (p' o' : Nat) : (s.modPage p f).reg p' o' = s.reg p' o' := rfl
@[simp] theorem modPage_fget (s : State) (p : Nat) (f : PageSt → PageSt) (p' : Nat) (g : Fld) : (s.modPage p f).fget p' g = s.fget p' g := rfl
@[simp] theorem modPage_fbit (s : State) (p : Nat) (f : PageSt → PageSt) (p' : Nat) (g : Fld) : (s.modPage p f).fbit p' g = s.fbit p' g := rfl
@[simp] theorem modPage_reg64 (s : State) (p : Nat) (f : PageSt → PageSt) (p' a b : Nat) : (s.modPage p f).reg64 p' a b = s.reg64 p' a b := rfl

/-! ### timeSet -/

@[simp] theorem timeSet_fuses (s : State) (t : TimeSt) : (timeSet s t).fuses = s.fuses := rfl
@[simp] theorem timeSet_regs (s : State) (t : TimeSt) : (timeSet s t).regs = s.regs := rfl
theorem timeSet_time (s : State) (t : TimeSt) : (timeSet s t).time = t := rfl
@[simp] theorem timeSet_pages (s : State) (t : TimeSt) : (timeSet s t).pages = s.pages := rfl
@[simp] theorem timeSet_qe (s : State) (t : TimeSt) : (timeSet s t).qe = s.qe := rfl
@[simp] theorem timeSet_part (s : State) (t : TimeSt) : (timeSet s t).part = s.part := rfl
@[simp] theorem timeSet_host (s : State) (t : TimeSt) : (timeSet s t).host = s.host := rfl
@[simp] theorem timeSet_loop (s : State) (t : TimeSt) : (timeSet s t).loop = s.loop := rfl
@[simp] theorem timeSet_pwm (s : State) (t : TimeSt) : (timeSet s t).pwm = s.pwm := rfl
@[simp] theorem timeSet_loupe (s : State) (t : TimeSt) : (timeSet s t).loupe = s.loupe := rfl
@[simp] theorem timeSet_mem (s : State) (t : TimeSt) : (timeSet s t).mem = s.mem := rfl
@[simp] theorem timeSet_facet (s : State) (t : TimeSt) : (timeSet s t).facet = s.facet := rfl
@[simp] theorem timeSet_solver (s : State) (t : TimeSt) : (timeSet s t).solver = s.solver := rfl
@[simp] theorem timeSet_clnk (s : State) (t : TimeSt) : (timeSet s t).clnk = s.clnk := rfl
@[simp] theorem timeSet_serve (s : State) (t : TimeSt) : (timeSet s t).serve = s.serve := rfl
@[simp] theorem timeSet_rtu (s : State) (t : TimeSt) : (timeSet s t).rtu = s.rtu := rfl
@[simp] theorem timeSet_power (s : State) (t : TimeSt) : (timeSet s t).power = s.power := rfl
@[simp] theorem timeSet_tku (s : State) (t : TimeSt) : (timeSet s t).tku = s.tku := rfl
@[simp] theorem timeSet_boot (s : State) (t : TimeSt) : (timeSet s t).boot = s.boot := rfl
@[simp] theorem timeSet_jtag (s : State) (t : TimeSt) : (timeSet s t).jtag = s.jtag := rfl
@[simp] theorem timeSet_freeCtr (s : State) (t : TimeSt) : (timeSet s t).freeCtr = s.freeCtr := rfl
@[simp] theorem timeSet_pending (s : State) (t : TimeSt) : (timeSet s t).pending = s.pending := rfl
@[simp] theorem timeSet_var (s : State) (t : TimeSt) : (timeSet s t).var = s.var := rfl
@[simp] theorem timeSet_reg (s : State) (t : TimeSt) (p' o' : Nat) : (timeSet s t).reg p' o' = s.reg p' o' := rfl
@[simp] theorem timeSet_fget (s : State) (t : TimeSt) (p' : Nat) (g : Fld) : (timeSet s t).fget p' g = s.fget p' g := rfl
@[simp] theorem timeSet_fbit (s : State) (t : TimeSt) (p' : Nat) (g : Fld) : (timeSet s t).fbit p' g = s.fbit p' g := rfl
@[simp] theorem timeSet_reg64 (s : State) (t : TimeSt) (p' a b : Nat) : (timeSet s t).reg64 p' a b = s.reg64 p' a b := rfl

/-! ### memSet -/

@[simp] theorem memSet_fuses (s : State) (m : MemSt) : (memSet s m).fuses = s.fuses := rfl
@[simp] theorem memSet_regs (s : State) (m : MemSt) : (memSet s m).regs = s.regs := rfl
@[simp] theorem memSet_time (s : State) (m : MemSt) : (memSet s m).time = s.time := rfl
@[simp] theorem memSet_pages (s : State) (m : MemSt) : (memSet s m).pages = s.pages := rfl
@[simp] theorem memSet_qe (s : State) (m : MemSt) : (memSet s m).qe = s.qe := rfl
@[simp] theorem memSet_part (s : State) (m : MemSt) : (memSet s m).part = s.part := rfl
@[simp] theorem memSet_host (s : State) (m : MemSt) : (memSet s m).host = s.host := rfl
@[simp] theorem memSet_loop (s : State) (m : MemSt) : (memSet s m).loop = s.loop := rfl
@[simp] theorem memSet_pwm (s : State) (m : MemSt) : (memSet s m).pwm = s.pwm := rfl
@[simp] theorem memSet_loupe (s : State) (m : MemSt) : (memSet s m).loupe = s.loupe := rfl
theorem memSet_mem (s : State) (m : MemSt) : (memSet s m).mem = m := rfl
@[simp] theorem memSet_facet (s : State) (m : MemSt) : (memSet s m).facet = s.facet := rfl
@[simp] theorem memSet_solver (s : State) (m : MemSt) : (memSet s m).solver = s.solver := rfl
@[simp] theorem memSet_clnk (s : State) (m : MemSt) : (memSet s m).clnk = s.clnk := rfl
@[simp] theorem memSet_serve (s : State) (m : MemSt) : (memSet s m).serve = s.serve := rfl
@[simp] theorem memSet_rtu (s : State) (m : MemSt) : (memSet s m).rtu = s.rtu := rfl
@[simp] theorem memSet_power (s : State) (m : MemSt) : (memSet s m).power = s.power := rfl
@[simp] theorem memSet_tku (s : State) (m : MemSt) : (memSet s m).tku = s.tku := rfl
@[simp] theorem memSet_boot (s : State) (m : MemSt) : (memSet s m).boot = s.boot := rfl
@[simp] theorem memSet_jtag (s : State) (m : MemSt) : (memSet s m).jtag = s.jtag := rfl
@[simp] theorem memSet_freeCtr (s : State) (m : MemSt) : (memSet s m).freeCtr = s.freeCtr := rfl
@[simp] theorem memSet_pending (s : State) (m : MemSt) : (memSet s m).pending = s.pending := rfl
@[simp] theorem memSet_var (s : State) (m : MemSt) : (memSet s m).var = s.var := rfl
@[simp] theorem memSet_now (s : State) (m : MemSt) : (memSet s m).now = s.now := rfl
@[simp] theorem memSet_reg (s : State) (m : MemSt) (p' o' : Nat) : (memSet s m).reg p' o' = s.reg p' o' := rfl
@[simp] theorem memSet_fget (s : State) (m : MemSt) (p' : Nat) (g : Fld) : (memSet s m).fget p' g = s.fget p' g := rfl
@[simp] theorem memSet_fbit (s : State) (m : MemSt) (p' : Nat) (g : Fld) : (memSet s m).fbit p' g = s.fbit p' g := rfl
@[simp] theorem memSet_reg64 (s : State) (m : MemSt) (p' a b : Nat) : (memSet s m).reg64 p' a b = s.reg64 p' a b := rfl

/-! ### tileSet -/

@[simp] theorem tileSet_fuses (s : State) (i : Nat) (x : Tile) : (tileSet s i x).fuses = s.fuses := rfl
@[simp] theorem tileSet_regs (s : State) (i : Nat) (x : Tile) : (tileSet s i x).regs = s.regs := rfl
@[simp] theorem tileSet_time (s : State) (i : Nat) (x : Tile) : (tileSet s i x).time = s.time := rfl
@[simp] theorem tileSet_pages (s : State) (i : Nat) (x : Tile) : (tileSet s i x).pages = s.pages := rfl
@[simp] theorem tileSet_qe (s : State) (i : Nat) (x : Tile) : (tileSet s i x).qe = s.qe := rfl
@[simp] theorem tileSet_part (s : State) (i : Nat) (x : Tile) : (tileSet s i x).part = s.part := rfl
@[simp] theorem tileSet_host (s : State) (i : Nat) (x : Tile) : (tileSet s i x).host = s.host := rfl
@[simp] theorem tileSet_loop (s : State) (i : Nat) (x : Tile) : (tileSet s i x).loop = s.loop := rfl
@[simp] theorem tileSet_pwm (s : State) (i : Nat) (x : Tile) : (tileSet s i x).pwm = s.pwm := rfl
@[simp] theorem tileSet_loupe (s : State) (i : Nat) (x : Tile) : (tileSet s i x).loupe = s.loupe := rfl
@[simp] theorem tileSet_mem (s : State) (i : Nat) (x : Tile) : (tileSet s i x).mem = s.mem := rfl
theorem tileSet_facet (s : State) (i : Nat) (x : Tile) : (tileSet s i x).facet = { s.facet with tiles := s.facet.tiles.set {} i x } := rfl
@[simp] theorem tileSet_solver (s : State) (i : Nat) (x : Tile) : (tileSet s i x).solver = s.solver := rfl
@[simp] theorem tileSet_clnk (s : State) (i : Nat) (x : Tile) : (tileSet s i x).clnk = s.clnk := rfl
@[simp] theorem tileSet_serve (s : State) (i : Nat) (x : Tile) : (tileSet s i x).serve = s.serve := rfl
@[simp] theorem tileSet_rtu (s : State) (i : Nat) (x : Tile) : (tileSet s i x).rtu = s.rtu := rfl
@[simp] theorem tileSet_power (s : State) (i : Nat) (x : Tile) : (tileSet s i x).power = s.power := rfl
@[simp] theorem tileSet_tku (s : State) (i : Nat) (x : Tile) : (tileSet s i x).tku = s.tku := rfl
@[simp] theorem tileSet_boot (s : State) (i : Nat) (x : Tile) : (tileSet s i x).boot = s.boot := rfl
@[simp] theorem tileSet_jtag (s : State) (i : Nat) (x : Tile) : (tileSet s i x).jtag = s.jtag := rfl
@[simp] theorem tileSet_freeCtr (s : State) (i : Nat) (x : Tile) : (tileSet s i x).freeCtr = s.freeCtr := rfl
@[simp] theorem tileSet_pending (s : State) (i : Nat) (x : Tile) : (tileSet s i x).pending = s.pending := rfl
@[simp] theorem tileSet_var (s : State) (i : Nat) (x : Tile) : (tileSet s i x).var = s.var := rfl
@[simp] theorem tileSet_now (s : State) (i : Nat) (x : Tile) : (tileSet s i x).now = s.now := rfl
@[simp] theorem tileSet_reg (s : State) (i : Nat) (x : Tile) (p' o' : Nat) : (tileSet s i x).reg p' o' = s.reg p' o' := rfl
@[simp] theorem tileSet_fget (s : State) (i : Nat) (x : Tile) (p' : Nat) (g : Fld) : (tileSet s i x).fget p' g = s.fget p' g := rfl
@[simp] theorem tileSet_fbit (s : State) (i : Nat) (x : Tile) (p' : Nat) (g : Fld) : (tileSet s i x).fbit p' g = s.fbit p' g := rfl
@[simp] theorem tileSet_reg64 (s : State) (i : Nat) (x : Tile) (p' a b : Nat) : (tileSet s i x).reg64 p' a b = s.reg64 p' a b := rfl

/-! ### portSet -/

@[simp] theorem portSet_fuses (s : State) (p : Nat) (x : LinkPort) : (portSet s p x).fuses = s.fuses := rfl
@[simp] theorem portSet_regs (s : State) (p : Nat) (x : LinkPort) : (portSet s p x).regs = s.regs := rfl
@[simp] theorem portSet_time (s : State) (p : Nat) (x : LinkPort) : (portSet s p x).time = s.time := rfl
@[simp] theorem portSet_pages (s : State) (p : Nat) (x : LinkPort) : (portSet s p x).pages = s.pages := rfl
@[simp] theorem portSet_qe (s : State) (p : Nat) (x : LinkPort) : (portSet s p x).qe = s.qe := rfl
@[simp] theorem portSet_part (s : State) (p : Nat) (x : LinkPort) : (portSet s p x).part = s.part := rfl
@[simp] theorem portSet_host (s : State) (p : Nat) (x : LinkPort) : (portSet s p x).host = s.host := rfl
@[simp] theorem portSet_loop (s : State) (p : Nat) (x : LinkPort) : (portSet s p x).loop = s.loop := rfl
@[simp] theorem portSet_pwm (s : State) (p : Nat) (x : LinkPort) : (portSet s p x).pwm = s.pwm := rfl
@[simp] theorem portSet_loupe (s : State) (p : Nat) (x : LinkPort) : (portSet s p x).loupe = s.loupe := rfl
@[simp] theorem portSet_mem (s : State) (p : Nat) (x : LinkPort) : (portSet s p x).mem = s.mem := rfl
@[simp] theorem portSet_facet (s : State) (p : Nat) (x : LinkPort) : (portSet s p x).facet = s.facet := rfl
@[simp] theorem portSet_solver (s : State) (p : Nat) (x : LinkPort) : (portSet s p x).solver = s.solver := rfl
theorem portSet_clnk (s : State) (p : Nat) (x : LinkPort) : (portSet s p x).clnk = { s.clnk with ports := s.clnk.ports.set {} p x } := rfl
@[simp] theorem portSet_serve (s : State) (p : Nat) (x : LinkPort) : (portSet s p x).serve = s.serve := rfl
@[simp] theorem portSet_rtu (s : State) (p : Nat) (x : LinkPort) : (portSet s p x).rtu = s.rtu := rfl
@[simp] theorem portSet_power (s : State) (p : Nat) (x : LinkPort) : (portSet s p x).power = s.power := rfl
@[simp] theorem portSet_tku (s : State) (p : Nat) (x : LinkPort) : (portSet s p x).tku = s.tku := rfl
@[simp] theorem portSet_boot (s : State) (p : Nat) (x : LinkPort) : (portSet s p x).boot = s.boot := rfl
@[simp] theorem portSet_jtag (s : State) (p : Nat) (x : LinkPort) : (portSet s p x).jtag = s.jtag := rfl
@[simp] theorem portSet_freeCtr (s : State) (p : Nat) (x : LinkPort) : (portSet s p x).freeCtr = s.freeCtr := rfl
@[simp] theorem portSet_pending (s : State) (p : Nat) (x : LinkPort) : (portSet s p x).pending = s.pending := rfl
@[simp] theorem portSet_var (s : State) (p : Nat) (x : LinkPort) : (portSet s p x).var = s.var := rfl
@[simp] theorem portSet_now (s : State) (p : Nat) (x : LinkPort) : (portSet s p x).now = s.now := rfl
@[simp] theorem portSet_reg (s : State) (p : Nat) (x : LinkPort) (p' o' : Nat) : (portSet s p x).reg p' o' = s.reg p' o' := rfl
@[simp] theorem portSet_fget (s : State) (p : Nat) (x : LinkPort) (p' : Nat) (g : Fld) : (portSet s p x).fget p' g = s.fget p' g := rfl
@[simp] theorem portSet_fbit (s : State) (p : Nat) (x : LinkPort) (p' : Nat) (g : Fld) : (portSet s p x).fbit p' g = s.fbit p' g := rfl
@[simp] theorem portSet_reg64 (s : State) (p : Nat) (x : LinkPort) (p' a b : Nat) : (portSet s p x).reg64 p' a b = s.reg64 p' a b := rfl

/-! ### chanSet -/

@[simp] theorem chanSet_fuses (s : State) (c : Nat) (x : LoopChan) : (chanSet s c x).fuses = s.fuses := rfl
@[simp] theorem chanSet_regs (s : State) (c : Nat) (x : LoopChan) : (chanSet s c x).regs = s.regs := rfl
@[simp] theorem chanSet_time (s : State) (c : Nat) (x : LoopChan) : (chanSet s c x).time = s.time := rfl
@[simp] theorem chanSet_pages (s : State) (c : Nat) (x : LoopChan) : (chanSet s c x).pages = s.pages := rfl
@[simp] theorem chanSet_qe (s : State) (c : Nat) (x : LoopChan) : (chanSet s c x).qe = s.qe := rfl
@[simp] theorem chanSet_part (s : State) (c : Nat) (x : LoopChan) : (chanSet s c x).part = s.part := rfl
@[simp] theorem chanSet_host (s : State) (c : Nat) (x : LoopChan) : (chanSet s c x).host = s.host := rfl
theorem chanSet_loop (s : State) (c : Nat) (x : LoopChan) : (chanSet s c x).loop = { s.loop with chans := s.loop.chans.set {} c x } := rfl
@[simp] theorem chanSet_pwm (s : State) (c : Nat) (x : LoopChan) : (chanSet s c x).pwm = s.pwm := rfl
@[simp] theorem chanSet_loupe (s : State) (c : Nat) (x : LoopChan) : (chanSet s c x).loupe = s.loupe := rfl
@[simp] theorem chanSet_mem (s : State) (c : Nat) (x : LoopChan) : (chanSet s c x).mem = s.mem := rfl
@[simp] theorem chanSet_facet (s : State) (c : Nat) (x : LoopChan) : (chanSet s c x).facet = s.facet := rfl
@[simp] theorem chanSet_solver (s : State) (c : Nat) (x : LoopChan) : (chanSet s c x).solver = s.solver := rfl
@[simp] theorem chanSet_clnk (s : State) (c : Nat) (x : LoopChan) : (chanSet s c x).clnk = s.clnk := rfl
@[simp] theorem chanSet_serve (s : State) (c : Nat) (x : LoopChan) : (chanSet s c x).serve = s.serve := rfl
@[simp] theorem chanSet_rtu (s : State) (c : Nat) (x : LoopChan) : (chanSet s c x).rtu = s.rtu := rfl
@[simp] theorem chanSet_power (s : State) (c : Nat) (x : LoopChan) : (chanSet s c x).power = s.power := rfl
@[simp] theorem chanSet_tku (s : State) (c : Nat) (x : LoopChan) : (chanSet s c x).tku = s.tku := rfl
@[simp] theorem chanSet_boot (s : State) (c : Nat) (x : LoopChan) : (chanSet s c x).boot = s.boot := rfl
@[simp] theorem chanSet_jtag (s : State) (c : Nat) (x : LoopChan) : (chanSet s c x).jtag = s.jtag := rfl
@[simp] theorem chanSet_freeCtr (s : State) (c : Nat) (x : LoopChan) : (chanSet s c x).freeCtr = s.freeCtr := rfl
@[simp] theorem chanSet_pending (s : State) (c : Nat) (x : LoopChan) : (chanSet s c x).pending = s.pending := rfl
@[simp] theorem chanSet_var (s : State) (c : Nat) (x : LoopChan) : (chanSet s c x).var = s.var := rfl
@[simp] theorem chanSet_now (s : State) (c : Nat) (x : LoopChan) : (chanSet s c x).now = s.now := rfl
@[simp] theorem chanSet_reg (s : State) (c : Nat) (x : LoopChan) (p' o' : Nat) : (chanSet s c x).reg p' o' = s.reg p' o' := rfl
@[simp] theorem chanSet_fget (s : State) (c : Nat) (x : LoopChan) (p' : Nat) (g : Fld) : (chanSet s c x).fget p' g = s.fget p' g := rfl
@[simp] theorem chanSet_fbit (s : State) (c : Nat) (x : LoopChan) (p' : Nat) (g : Fld) : (chanSet s c x).fbit p' g = s.fbit p' g := rfl
@[simp] theorem chanSet_reg64 (s : State) (c : Nat) (x : LoopChan) (p' a b : Nat) : (chanSet s c x).reg64 p' a b = s.reg64 p' a b := rfl

/-! ### hostNote -/

@[simp] theorem hostNote_fuses (s : State) (tx : HostTx) : (hostNote s tx).fuses = s.fuses := rfl
@[simp] theorem hostNote_regs (s : State) (tx : HostTx) : (hostNote s tx).regs = s.regs := rfl
@[simp] theorem hostNote_time (s : State) (tx : HostTx) : (hostNote s tx).time = s.time := rfl
@[simp] theorem hostNote_pages (s : State) (tx : HostTx) : (hostNote s tx).pages = s.pages := rfl
@[simp] theorem hostNote_qe (s : State) (tx : HostTx) : (hostNote s tx).qe = s.qe := rfl
@[simp] theorem hostNote_part (s : State) (tx : HostTx) : (hostNote s tx).part = s.part := rfl
theorem hostNote_host (s : State) (tx : HostTx) : (hostNote s tx).host = { s.host with out := tx :: s.host.out } := rfl
@[simp] theorem hostNote_loop (s : State) (tx : HostTx) : (hostNote s tx).loop = s.loop := rfl
@[simp] theorem hostNote_pwm (s : State) (tx : HostTx) : (hostNote s tx).pwm = s.pwm := rfl
@[simp] theorem hostNote_loupe (s : State) (tx : HostTx) : (hostNote s tx).loupe = s.loupe := rfl
@[simp] theorem hostNote_mem (s : State) (tx : HostTx) : (hostNote s tx).mem = s.mem := rfl
@[simp] theorem hostNote_facet (s : State) (tx : HostTx) : (hostNote s tx).facet = s.facet := rfl
@[simp] theorem hostNote_solver (s : State) (tx : HostTx) : (hostNote s tx).solver = s.solver := rfl
@[simp] theorem hostNote_clnk (s : State) (tx : HostTx) : (hostNote s tx).clnk = s.clnk := rfl
@[simp] theorem hostNote_serve (s : State) (tx : HostTx) : (hostNote s tx).serve = s.serve := rfl
@[simp] theorem hostNote_rtu (s : State) (tx : HostTx) : (hostNote s tx).rtu = s.rtu := rfl
@[simp] theorem hostNote_power (s : State) (tx : HostTx) : (hostNote s tx).power = s.power := rfl
@[simp] theorem hostNote_tku (s : State) (tx : HostTx) : (hostNote s tx).tku = s.tku := rfl
@[simp] theorem hostNote_boot (s : State) (tx : HostTx) : (hostNote s tx).boot = s.boot := rfl
@[simp] theorem hostNote_jtag (s : State) (tx : HostTx) : (hostNote s tx).jtag = s.jtag := rfl
@[simp] theorem hostNote_freeCtr (s : State) (tx : HostTx) : (hostNote s tx).freeCtr = s.freeCtr := rfl
@[simp] theorem hostNote_pending (s : State) (tx : HostTx) : (hostNote s tx).pending = s.pending := rfl
@[simp] theorem hostNote_var (s : State) (tx : HostTx) : (hostNote s tx).var = s.var := rfl
@[simp] theorem hostNote_now (s : State) (tx : HostTx) : (hostNote s tx).now = s.now := rfl
@[simp] theorem hostNote_reg (s : State) (tx : HostTx) (p' o' : Nat) : (hostNote s tx).reg p' o' = s.reg p' o' := rfl
@[simp] theorem hostNote_fget (s : State) (tx : HostTx) (p' : Nat) (g : Fld) : (hostNote s tx).fget p' g = s.fget p' g := rfl
@[simp] theorem hostNote_fbit (s : State) (tx : HostTx) (p' : Nat) (g : Fld) : (hostNote s tx).fbit p' g = s.fbit p' g := rfl
@[simp] theorem hostNote_reg64 (s : State) (tx : HostTx) (p' a b : Nat) : (hostNote s tx).reg64 p' a b = s.reg64 p' a b := rfl

/-! ### jobSet -/

@[simp] theorem jobSet_fuses (s : State) (j : Nat) (x : Job) : (jobSet s j x).fuses = s.fuses := rfl
@[simp] theorem jobSet_regs (s : State) (j : Nat) (x : Job) : (jobSet s j x).regs = s.regs := rfl
@[simp] theorem jobSet_time (s : State) (j : Nat) (x : Job) : (jobSet s j x).time = s.time := rfl
@[simp] theorem jobSet_pages (s : State) (j : Nat) (x : Job) : (jobSet s j x).pages = s.pages := rfl
theorem jobSet_qe (s : State) (j : Nat) (x : Job) : (jobSet s j x).qe = { s.qe with jobs := s.qe.jobs.ins j x } := rfl
@[simp] theorem jobSet_part (s : State) (j : Nat) (x : Job) : (jobSet s j x).part = s.part := rfl
@[simp] theorem jobSet_host (s : State) (j : Nat) (x : Job) : (jobSet s j x).host = s.host := rfl
@[simp] theorem jobSet_loop (s : State) (j : Nat) (x : Job) : (jobSet s j x).loop = s.loop := rfl
@[simp] theorem jobSet_pwm (s : State) (j : Nat) (x : Job) : (jobSet s j x).pwm = s.pwm := rfl
@[simp] theorem jobSet_loupe (s : State) (j : Nat) (x : Job) : (jobSet s j x).loupe = s.loupe := rfl
@[simp] theorem jobSet_mem (s : State) (j : Nat) (x : Job) : (jobSet s j x).mem = s.mem := rfl
@[simp] theorem jobSet_facet (s : State) (j : Nat) (x : Job) : (jobSet s j x).facet = s.facet := rfl
@[simp] theorem jobSet_solver (s : State) (j : Nat) (x : Job) : (jobSet s j x).solver = s.solver := rfl
@[simp] theorem jobSet_clnk (s : State) (j : Nat) (x : Job) : (jobSet s j x).clnk = s.clnk := rfl
@[simp] theorem jobSet_serve (s : State) (j : Nat) (x : Job) : (jobSet s j x).serve = s.serve := rfl
@[simp] theorem jobSet_rtu (s : State) (j : Nat) (x : Job) : (jobSet s j x).rtu = s.rtu := rfl
@[simp] theorem jobSet_power (s : State) (j : Nat) (x : Job) : (jobSet s j x).power = s.power := rfl
@[simp] theorem jobSet_tku (s : State) (j : Nat) (x : Job) : (jobSet s j x).tku = s.tku := rfl
@[simp] theorem jobSet_boot (s : State) (j : Nat) (x : Job) : (jobSet s j x).boot = s.boot := rfl
@[simp] theorem jobSet_jtag (s : State) (j : Nat) (x : Job) : (jobSet s j x).jtag = s.jtag := rfl
@[simp] theorem jobSet_freeCtr (s : State) (j : Nat) (x : Job) : (jobSet s j x).freeCtr = s.freeCtr := rfl
@[simp] theorem jobSet_pending (s : State) (j : Nat) (x : Job) : (jobSet s j x).pending = s.pending := rfl
@[simp] theorem jobSet_var (s : State) (j : Nat) (x : Job) : (jobSet s j x).var = s.var := rfl
@[simp] theorem jobSet_now (s : State) (j : Nat) (x : Job) : (jobSet s j x).now = s.now := rfl
@[simp] theorem jobSet_reg (s : State) (j : Nat) (x : Job) (p' o' : Nat) : (jobSet s j x).reg p' o' = s.reg p' o' := rfl
@[simp] theorem jobSet_fget (s : State) (j : Nat) (x : Job) (p' : Nat) (g : Fld) : (jobSet s j x).fget p' g = s.fget p' g := rfl
@[simp] theorem jobSet_fbit (s : State) (j : Nat) (x : Job) (p' : Nat) (g : Fld) : (jobSet s j x).fbit p' g = s.fbit p' g := rfl
@[simp] theorem jobSet_reg64 (s : State) (j : Nat) (x : Job) (p' a b : Nat) : (jobSet s j x).reg64 p' a b = s.reg64 p' a b := rfl

/-! ### powerSet -/

@[simp] theorem powerSet_fuses (s : State) (x : PowerSt) : (powerSet s x).fuses = s.fuses := rfl
@[simp] theorem powerSet_regs (s : State) (x : PowerSt) : (powerSet s x).regs = s.regs := rfl
@[simp] theorem powerSet_time (s : State) (x : PowerSt) : (powerSet s x).time = s.time := rfl
@[simp] theorem powerSet_pages (s : State) (x : PowerSt) : (powerSet s x).pages = s.pages := rfl
@[simp] theorem powerSet_qe (s : State) (x : PowerSt) : (powerSet s x).qe = s.qe := rfl
@[simp] theorem powerSet_part (s : State) (x : PowerSt) : (powerSet s x).part = s.part := rfl
@[simp] theorem powerSet_host (s : State) (x : PowerSt) : (powerSet s x).host = s.host := rfl
@[simp] theorem powerSet_loop (s : State) (x : PowerSt) : (powerSet s x).loop = s.loop := rfl
@[simp] theorem powerSet_pwm (s : State) (x : PowerSt) : (powerSet s x).pwm = s.pwm := rfl
@[simp] theorem powerSet_loupe (s : State) (x : PowerSt) : (powerSet s x).loupe = s.loupe := rfl
@[simp] theorem powerSet_mem (s : State) (x : PowerSt) : (powerSet s x).mem = s.mem := rfl
@[simp] theorem powerSet_facet (s : State) (x : PowerSt) : (powerSet s x).facet = s.facet := rfl
@[simp] theorem powerSet_solver (s : State) (x : PowerSt) : (powerSet s x).solver = s.solver := rfl
@[simp] theorem powerSet_clnk (s : State) (x : PowerSt) : (powerSet s x).clnk = s.clnk := rfl
@[simp] theorem powerSet_serve (s : State) (x : PowerSt) : (powerSet s x).serve = s.serve := rfl
@[simp] theorem powerSet_rtu (s : State) (x : PowerSt) : (powerSet s x).rtu = s.rtu := rfl
theorem powerSet_power (s : State) (x : PowerSt) : (powerSet s x).power = x := rfl
@[simp] theorem powerSet_tku (s : State) (x : PowerSt) : (powerSet s x).tku = s.tku := rfl
@[simp] theorem powerSet_boot (s : State) (x : PowerSt) : (powerSet s x).boot = s.boot := rfl
@[simp] theorem powerSet_jtag (s : State) (x : PowerSt) : (powerSet s x).jtag = s.jtag := rfl
@[simp] theorem powerSet_freeCtr (s : State) (x : PowerSt) : (powerSet s x).freeCtr = s.freeCtr := rfl
@[simp] theorem powerSet_pending (s : State) (x : PowerSt) : (powerSet s x).pending = s.pending := rfl
@[simp] theorem powerSet_var (s : State) (x : PowerSt) : (powerSet s x).var = s.var := rfl
@[simp] theorem powerSet_now (s : State) (x : PowerSt) : (powerSet s x).now = s.now := rfl
@[simp] theorem powerSet_reg (s : State) (x : PowerSt) (p' o' : Nat) : (powerSet s x).reg p' o' = s.reg p' o' := rfl
@[simp] theorem powerSet_fget (s : State) (x : PowerSt) (p' : Nat) (g : Fld) : (powerSet s x).fget p' g = s.fget p' g := rfl
@[simp] theorem powerSet_fbit (s : State) (x : PowerSt) (p' : Nat) (g : Fld) : (powerSet s x).fbit p' g = s.fbit p' g := rfl
@[simp] theorem powerSet_reg64 (s : State) (x : PowerSt) (p' a b : Nat) : (powerSet s x).reg64 p' a b = s.reg64 p' a b := rfl

/-! ### pairSet -/

@[simp] theorem pairSet_fuses (s : State) (n : Nat) (x : PwmPair) : (pairSet s n x).fuses = s.fuses := rfl
@[simp] theorem pairSet_regs (s : State) (n : Nat) (x : PwmPair) : (pairSet s n x).regs = s.regs := rfl
@[simp] theorem pairSet_time (s : State) (n : Nat) (x : PwmPair) : (pairSet s n x).time = s.time := rfl
@[simp] theorem pairSet_pages (s : State) (n : Nat) (x : PwmPair) : (pairSet s n x).pages = s.pages := rfl
@[simp] theorem pairSet_qe (s : State) (n : Nat) (x : PwmPair) : (pairSet s n x).qe = s.qe := rfl
@[simp] theorem pairSet_part (s : State) (n : Nat) (x : PwmPair) : (pairSet s n x).part = s.part := rfl
@[simp] theorem pairSet_host (s : State) (n : Nat) (x : PwmPair) : (pairSet s n x).host = s.host := rfl
@[simp] theorem pairSet_loop (s : State) (n : Nat) (x : PwmPair) : (pairSet s n x).loop = s.loop := rfl
theorem pairSet_pwm (s : State) (n : Nat) (x : PwmPair) : (pairSet s n x).pwm = { s.pwm with pairs := s.pwm.pairs.set {} n x } := rfl
@[simp] theorem pairSet_loupe (s : State) (n : Nat) (x : PwmPair) : (pairSet s n x).loupe = s.loupe := rfl
@[simp] theorem pairSet_mem (s : State) (n : Nat) (x : PwmPair) : (pairSet s n x).mem = s.mem := rfl
@[simp] theorem pairSet_facet (s : State) (n : Nat) (x : PwmPair) : (pairSet s n x).facet = s.facet := rfl
@[simp] theorem pairSet_solver (s : State) (n : Nat) (x : PwmPair) : (pairSet s n x).solver = s.solver := rfl
@[simp] theorem pairSet_clnk (s : State) (n : Nat) (x : PwmPair) : (pairSet s n x).clnk = s.clnk := rfl
@[simp] theorem pairSet_serve (s : State) (n : Nat) (x : PwmPair) : (pairSet s n x).serve = s.serve := rfl
@[simp] theorem pairSet_rtu (s : State) (n : Nat) (x : PwmPair) : (pairSet s n x).rtu = s.rtu := rfl
@[simp] theorem pairSet_power (s : State) (n : Nat) (x : PwmPair) : (pairSet s n x).power = s.power := rfl
@[simp] theorem pairSet_tku (s : State) (n : Nat) (x : PwmPair) : (pairSet s n x).tku = s.tku := rfl
@[simp] theorem pairSet_boot (s : State) (n : Nat) (x : PwmPair) : (pairSet s n x).boot = s.boot := rfl
@[simp] theorem pairSet_jtag (s : State) (n : Nat) (x : PwmPair) : (pairSet s n x).jtag = s.jtag := rfl
@[simp] theorem pairSet_freeCtr (s : State) (n : Nat) (x : PwmPair) : (pairSet s n x).freeCtr = s.freeCtr := rfl
@[simp] theorem pairSet_pending (s : State) (n : Nat) (x : PwmPair) : (pairSet s n x).pending = s.pending := rfl
@[simp] theorem pairSet_var (s : State) (n : Nat) (x : PwmPair) : (pairSet s n x).var = s.var := rfl
@[simp] theorem pairSet_now (s : State) (n : Nat) (x : PwmPair) : (pairSet s n x).now = s.now := rfl
@[simp] theorem pairSet_reg (s : State) (n : Nat) (x : PwmPair) (p' o' : Nat) : (pairSet s n x).reg p' o' = s.reg p' o' := rfl
@[simp] theorem pairSet_fget (s : State) (n : Nat) (x : PwmPair) (p' : Nat) (g : Fld) : (pairSet s n x).fget p' g = s.fget p' g := rfl
@[simp] theorem pairSet_fbit (s : State) (n : Nat) (x : PwmPair) (p' : Nat) (g : Fld) : (pairSet s n x).fbit p' g = s.fbit p' g := rfl
@[simp] theorem pairSet_reg64 (s : State) (n : Nat) (x : PwmPair) (p' a b : Nat) : (pairSet s n x).reg64 p' a b = s.reg64 p' a b := rfl

/-! ### rtuSet -/

@[simp] theorem rtuSet_fuses (s : State) (x : RtuSt) : (rtuSet s x).fuses = s.fuses := rfl
@[simp] theorem rtuSet_regs (s : State) (x : RtuSt) : (rtuSet s x).regs = s.regs := rfl
@[simp] theorem rtuSet_time (s : State) (x : RtuSt) : (rtuSet s x).time = s.time := rfl
@[simp] theorem rtuSet_pages (s : State) (x : RtuSt) : (rtuSet s x).pages = s.pages := rfl
@[simp] theorem rtuSet_qe (s : State) (x : RtuSt) : (rtuSet s x).qe = s.qe := rfl
@[simp] theorem rtuSet_part (s : State) (x : RtuSt) : (rtuSet s x).part = s.part := rfl
@[simp] theorem rtuSet_host (s : State) (x : RtuSt) : (rtuSet s x).host = s.host := rfl
@[simp] theorem rtuSet_loop (s : State) (x : RtuSt) : (rtuSet s x).loop = s.loop := rfl
@[simp] theorem rtuSet_pwm (s : State) (x : RtuSt) : (rtuSet s x).pwm = s.pwm := rfl
@[simp] theorem rtuSet_loupe (s : State) (x : RtuSt) : (rtuSet s x).loupe = s.loupe := rfl
@[simp] theorem rtuSet_mem (s : State) (x : RtuSt) : (rtuSet s x).mem = s.mem := rfl
@[simp] theorem rtuSet_facet (s : State) (x : RtuSt) : (rtuSet s x).facet = s.facet := rfl
@[simp] theorem rtuSet_solver (s : State) (x : RtuSt) : (rtuSet s x).solver = s.solver := rfl
@[simp] theorem rtuSet_clnk (s : State) (x : RtuSt) : (rtuSet s x).clnk = s.clnk := rfl
@[simp] theorem rtuSet_serve (s : State) (x : RtuSt) : (rtuSet s x).serve = s.serve := rfl
theorem rtuSet_rtu (s : State) (x : RtuSt) : (rtuSet s x).rtu = x := rfl
@[simp] theorem rtuSet_power (s : State) (x : RtuSt) : (rtuSet s x).power = s.power := rfl
@[simp] theorem rtuSet_tku (s : State) (x : RtuSt) : (rtuSet s x).tku = s.tku := rfl
@[simp] theorem rtuSet_boot (s : State) (x : RtuSt) : (rtuSet s x).boot = s.boot := rfl
@[simp] theorem rtuSet_jtag (s : State) (x : RtuSt) : (rtuSet s x).jtag = s.jtag := rfl
@[simp] theorem rtuSet_freeCtr (s : State) (x : RtuSt) : (rtuSet s x).freeCtr = s.freeCtr := rfl
@[simp] theorem rtuSet_pending (s : State) (x : RtuSt) : (rtuSet s x).pending = s.pending := rfl
@[simp] theorem rtuSet_var (s : State) (x : RtuSt) : (rtuSet s x).var = s.var := rfl
@[simp] theorem rtuSet_now (s : State) (x : RtuSt) : (rtuSet s x).now = s.now := rfl
@[simp] theorem rtuSet_reg (s : State) (x : RtuSt) (p' o' : Nat) : (rtuSet s x).reg p' o' = s.reg p' o' := rfl
@[simp] theorem rtuSet_fget (s : State) (x : RtuSt) (p' : Nat) (g : Fld) : (rtuSet s x).fget p' g = s.fget p' g := rfl
@[simp] theorem rtuSet_fbit (s : State) (x : RtuSt) (p' : Nat) (g : Fld) : (rtuSet s x).fbit p' g = s.fbit p' g := rfl
@[simp] theorem rtuSet_reg64 (s : State) (x : RtuSt) (p' a b : Nat) : (rtuSet s x).reg64 p' a b = s.reg64 p' a b := rfl

/-! ### tkuSet -/

@[simp] theorem tkuSet_fuses (s : State) (x : TkuSt) : (tkuSet s x).fuses = s.fuses := rfl
@[simp] theorem tkuSet_regs (s : State) (x : TkuSt) : (tkuSet s x).regs = s.regs := rfl
@[simp] theorem tkuSet_time (s : State) (x : TkuSt) : (tkuSet s x).time = s.time := rfl
@[simp] theorem tkuSet_pages (s : State) (x : TkuSt) : (tkuSet s x).pages = s.pages := rfl
@[simp] theorem tkuSet_qe (s : State) (x : TkuSt) : (tkuSet s x).qe = s.qe := rfl
@[simp] theorem tkuSet_part (s : State) (x : TkuSt) : (tkuSet s x).part = s.part := rfl
@[simp] theorem tkuSet_host (s : State) (x : TkuSt) : (tkuSet s x).host = s.host := rfl
@[simp] theorem tkuSet_loop (s : State) (x : TkuSt) : (tkuSet s x).loop = s.loop := rfl
@[simp] theorem tkuSet_pwm (s : State) (x : TkuSt) : (tkuSet s x).pwm = s.pwm := rfl
@[simp] theorem tkuSet_loupe (s : State) (x : TkuSt) : (tkuSet s x).loupe = s.loupe := rfl
@[simp] theorem tkuSet_mem (s : State) (x : TkuSt) : (tkuSet s x).mem = s.mem := rfl
@[simp] theorem tkuSet_facet (s : State) (x : TkuSt) : (tkuSet s x).facet = s.facet := rfl
@[simp] theorem tkuSet_solver (s : State) (x : TkuSt) : (tkuSet s x).solver = s.solver := rfl
@[simp] theorem tkuSet_clnk (s : State) (x : TkuSt) : (tkuSet s x).clnk = s.clnk := rfl
@[simp] theorem tkuSet_serve (s : State) (x : TkuSt) : (tkuSet s x).serve = s.serve := rfl
@[simp] theorem tkuSet_rtu (s : State) (x : TkuSt) : (tkuSet s x).rtu = s.rtu := rfl
@[simp] theorem tkuSet_power (s : State) (x : TkuSt) : (tkuSet s x).power = s.power := rfl
theorem tkuSet_tku (s : State) (x : TkuSt) : (tkuSet s x).tku = x := rfl
@[simp] theorem tkuSet_boot (s : State) (x : TkuSt) : (tkuSet s x).boot = s.boot := rfl
@[simp] theorem tkuSet_jtag (s : State) (x : TkuSt) : (tkuSet s x).jtag = s.jtag := rfl
@[simp] theorem tkuSet_freeCtr (s : State) (x : TkuSt) : (tkuSet s x).freeCtr = s.freeCtr := rfl
@[simp] theorem tkuSet_pending (s : State) (x : TkuSt) : (tkuSet s x).pending = s.pending := rfl
@[simp] theorem tkuSet_var (s : State) (x : TkuSt) : (tkuSet s x).var = s.var := rfl
@[simp] theorem tkuSet_now (s : State) (x : TkuSt) : (tkuSet s x).now = s.now := rfl
@[simp] theorem tkuSet_reg (s : State) (x : TkuSt) (p' o' : Nat) : (tkuSet s x).reg p' o' = s.reg p' o' := rfl
@[simp] theorem tkuSet_fget (s : State) (x : TkuSt) (p' : Nat) (g : Fld) : (tkuSet s x).fget p' g = s.fget p' g := rfl
@[simp] theorem tkuSet_fbit (s : State) (x : TkuSt) (p' : Nat) (g : Fld) : (tkuSet s x).fbit p' g = s.fbit p' g := rfl
@[simp] theorem tkuSet_reg64 (s : State) (x : TkuSt) (p' a b : Nat) : (tkuSet s x).reg64 p' a b = s.reg64 p' a b := rfl

/-! ### reqSet -/

@[simp] theorem reqSet_fuses (s : State) (r : Nat) (x : Req) : (reqSet s r x).fuses = s.fuses := rfl
@[simp] theorem reqSet_regs (s : State) (r : Nat) (x : Req) : (reqSet s r x).regs = s.regs := rfl
@[simp] theorem reqSet_time (s : State) (r : Nat) (x : Req) : (reqSet s r x).time = s.time := rfl
@[simp] theorem reqSet_pages (s : State) (r : Nat) (x : Req) : (reqSet s r x).pages = s.pages := rfl
@[simp] theorem reqSet_qe (s : State) (r : Nat) (x : Req) : (reqSet s r x).qe = s.qe := rfl
@[simp] theorem reqSet_part (s : State) (r : Nat) (x : Req) : (reqSet s r x).part = s.part := rfl
@[simp] theorem reqSet_host (s : State) (r : Nat) (x : Req) : (reqSet s r x).host = s.host := rfl
@[simp] theorem reqSet_loop (s : State) (r : Nat) (x : Req) : (reqSet s r x).loop = s.loop := rfl
@[simp] theorem reqSet_pwm (s : State) (r : Nat) (x : Req) : (reqSet s r x).pwm = s.pwm := rfl
@[simp] theorem reqSet_loupe (s : State) (r : Nat) (x : Req) : (reqSet s r x).loupe = s.loupe := rfl
@[simp] theorem reqSet_mem (s : State) (r : Nat) (x : Req) : (reqSet s r x).mem = s.mem := rfl
@[simp] theorem reqSet_facet (s : State) (r : Nat) (x : Req) : (reqSet s r x).facet = s.facet := rfl
@[simp] theorem reqSet_solver (s : State) (r : Nat) (x : Req) : (reqSet s r x).solver = s.solver := rfl
@[simp] theorem reqSet_clnk (s : State) (r : Nat) (x : Req) : (reqSet s r x).clnk = s.clnk := rfl
theorem reqSet_serve (s : State) (r : Nat) (x : Req) : (reqSet s r x).serve = { s.serve with reqs := s.serve.reqs.set {} r x } := rfl
@[simp] theorem reqSet_rtu (s : State) (r : Nat) (x : Req) : (reqSet s r x).rtu = s.rtu := rfl
@[simp] theorem reqSet_power (s : State) (r : Nat) (x : Req) : (reqSet s r x).power = s.power := rfl
@[simp] theorem reqSet_tku (s : State) (r : Nat) (x : Req) : (reqSet s r x).tku = s.tku := rfl
@[simp] theorem reqSet_boot (s : State) (r : Nat) (x : Req) : (reqSet s r x).boot = s.boot := rfl
@[simp] theorem reqSet_jtag (s : State) (r : Nat) (x : Req) : (reqSet s r x).jtag = s.jtag := rfl
@[simp] theorem reqSet_freeCtr (s : State) (r : Nat) (x : Req) : (reqSet s r x).freeCtr = s.freeCtr := rfl
@[simp] theorem reqSet_pending (s : State) (r : Nat) (x : Req) : (reqSet s r x).pending = s.pending := rfl
@[simp] theorem reqSet_var (s : State) (r : Nat) (x : Req) : (reqSet s r x).var = s.var := rfl
@[simp] theorem reqSet_now (s : State) (r : Nat) (x : Req) : (reqSet s r x).now = s.now := rfl
@[simp] theorem reqSet_reg (s : State) (r : Nat) (x : Req) (p' o' : Nat) : (reqSet s r x).reg p' o' = s.reg p' o' := rfl
@[simp] theorem reqSet_fget (s : State) (r : Nat) (x : Req) (p' : Nat) (g : Fld) : (reqSet s r x).fget p' g = s.fget p' g := rfl
@[simp] theorem reqSet_fbit (s : State) (r : Nat) (x : Req) (p' : Nat) (g : Fld) : (reqSet s r x).fbit p' g = s.fbit p' g := rfl
@[simp] theorem reqSet_reg64 (s : State) (r : Nat) (x : Req) (p' a b : Nat) : (reqSet s r x).reg64 p' a b = s.reg64 p' a b := rfl

/-! ### mslotSet -/

@[simp] theorem mslotSet_fuses (s : State) (m : Nat) (x : MSlot) : (mslotSet s m x).fuses = s.fuses := rfl
@[simp] theorem mslotSet_regs (s : State) (m : Nat) (x : MSlot) : (mslotSet s m x).regs = s.regs := rfl
@[simp] theorem mslotSet_time (s : State) (m : Nat) (x : MSlot) : (mslotSet s m x).time = s.time := rfl
@[simp] theorem mslotSet_pages (s : State) (m : Nat) (x : MSlot) : (mslotSet s m x).pages = s.pages := rfl
@[simp] theorem mslotSet_qe (s : State) (m : Nat) (x : MSlot) : (mslotSet s m x).qe = s.qe := rfl
@[simp] theorem mslotSet_part (s : State) (m : Nat) (x : MSlot) : (mslotSet s m x).part = s.part := rfl
@[simp] theorem mslotSet_host (s : State) (m : Nat) (x : MSlot) : (mslotSet s m x).host = s.host := rfl
@[simp] theorem mslotSet_loop (s : State) (m : Nat) (x : MSlot) : (mslotSet s m x).loop = s.loop := rfl
@[simp] theorem mslotSet_pwm (s : State) (m : Nat) (x : MSlot) : (mslotSet s m x).pwm = s.pwm := rfl
@[simp] theorem mslotSet_loupe (s : State) (m : Nat) (x : MSlot) : (mslotSet s m x).loupe = s.loupe := rfl
@[simp] theorem mslotSet_mem (s : State) (m : Nat) (x : MSlot) : (mslotSet s m x).mem = s.mem := rfl
@[simp] theorem mslotSet_facet (s : State) (m : Nat) (x : MSlot) : (mslotSet s m x).facet = s.facet := rfl
@[simp] theorem mslotSet_solver (s : State) (m : Nat) (x : MSlot) : (mslotSet s m x).solver = s.solver := rfl
@[simp] theorem mslotSet_clnk (s : State) (m : Nat) (x : MSlot) : (mslotSet s m x).clnk = s.clnk := rfl
theorem mslotSet_serve (s : State) (m : Nat) (x : MSlot) : (mslotSet s m x).serve = { s.serve with slots := s.serve.slots.set {} m x } := rfl
@[simp] theorem mslotSet_rtu (s : State) (m : Nat) (x : MSlot) : (mslotSet s m x).rtu = s.rtu := rfl
@[simp] theorem mslotSet_power (s : State) (m : Nat) (x : MSlot) : (mslotSet s m x).power = s.power := rfl
@[simp] theorem mslotSet_tku (s : State) (m : Nat) (x : MSlot) : (mslotSet s m x).tku = s.tku := rfl
@[simp] theorem mslotSet_boot (s : State) (m : Nat) (x : MSlot) : (mslotSet s m x).boot = s.boot := rfl
@[simp] theorem mslotSet_jtag (s : State) (m : Nat) (x : MSlot) : (mslotSet s m x).jtag = s.jtag := rfl
@[simp] theorem mslotSet_freeCtr (s : State) (m : Nat) (x : MSlot) : (mslotSet s m x).freeCtr = s.freeCtr := rfl
@[simp] theorem mslotSet_pending (s : State) (m : Nat) (x : MSlot) : (mslotSet s m x).pending = s.pending := rfl
@[simp] theorem mslotSet_var (s : State) (m : Nat) (x : MSlot) : (mslotSet s m x).var = s.var := rfl
@[simp] theorem mslotSet_now (s : State) (m : Nat) (x : MSlot) : (mslotSet s m x).now = s.now := rfl
@[simp] theorem mslotSet_reg (s : State) (m : Nat) (x : MSlot) (p' o' : Nat) : (mslotSet s m x).reg p' o' = s.reg p' o' := rfl
@[simp] theorem mslotSet_fget (s : State) (m : Nat) (x : MSlot) (p' : Nat) (g : Fld) : (mslotSet s m x).fget p' g = s.fget p' g := rfl
@[simp] theorem mslotSet_fbit (s : State) (m : Nat) (x : MSlot) (p' : Nat) (g : Fld) : (mslotSet s m x).fbit p' g = s.fbit p' g := rfl
@[simp] theorem mslotSet_reg64 (s : State) (m : Nat) (x : MSlot) (p' a b : Nat) : (mslotSet s m x).reg64 p' a b = s.reg64 p' a b := rfl

/-! ### slotSet -/

@[simp] theorem slotSet_fuses (s : State) (k : Nat) (x : SolvSlot) : (slotSet s k x).fuses = s.fuses := rfl
@[simp] theorem slotSet_regs (s : State) (k : Nat) (x : SolvSlot) : (slotSet s k x).regs = s.regs := rfl
@[simp] theorem slotSet_time (s : State) (k : Nat) (x : SolvSlot) : (slotSet s k x).time = s.time := rfl
@[simp] theorem slotSet_pages (s : State) (k : Nat) (x : SolvSlot) : (slotSet s k x).pages = s.pages := rfl
@[simp] theorem slotSet_qe (s : State) (k : Nat) (x : SolvSlot) : (slotSet s k x).qe = s.qe := rfl
@[simp] theorem slotSet_part (s : State) (k : Nat) (x : SolvSlot) : (slotSet s k x).part = s.part := rfl
@[simp] theorem slotSet_host (s : State) (k : Nat) (x : SolvSlot) : (slotSet s k x).host = s.host := rfl
@[simp] theorem slotSet_loop (s : State) (k : Nat) (x : SolvSlot) : (slotSet s k x).loop = s.loop := rfl
@[simp] theorem slotSet_pwm (s : State) (k : Nat) (x : SolvSlot) : (slotSet s k x).pwm = s.pwm := rfl
@[simp] theorem slotSet_loupe (s : State) (k : Nat) (x : SolvSlot) : (slotSet s k x).loupe = s.loupe := rfl
@[simp] theorem slotSet_mem (s : State) (k : Nat) (x : SolvSlot) : (slotSet s k x).mem = s.mem := rfl
@[simp] theorem slotSet_facet (s : State) (k : Nat) (x : SolvSlot) : (slotSet s k x).facet = s.facet := rfl
theorem slotSet_solver (s : State) (k : Nat) (x : SolvSlot) : (slotSet s k x).solver = { s.solver with slots := s.solver.slots.set {} k x } := rfl
@[simp] theorem slotSet_clnk (s : State) (k : Nat) (x : SolvSlot) : (slotSet s k x).clnk = s.clnk := rfl
@[simp] theorem slotSet_serve (s : State) (k : Nat) (x : SolvSlot) : (slotSet s k x).serve = s.serve := rfl
@[simp] theorem slotSet_rtu (s : State) (k : Nat) (x : SolvSlot) : (slotSet s k x).rtu = s.rtu := rfl
@[simp] theorem slotSet_power (s : State) (k : Nat) (x : SolvSlot) : (slotSet s k x).power = s.power := rfl
@[simp] theorem slotSet_tku (s : State) (k : Nat) (x : SolvSlot) : (slotSet s k x).tku = s.tku := rfl
@[simp] theorem slotSet_boot (s : State) (k : Nat) (x : SolvSlot) : (slotSet s k x).boot = s.boot := rfl
@[simp] theorem slotSet_jtag (s : State) (k : Nat) (x : SolvSlot) : (slotSet s k x).jtag = s.jtag := rfl
@[simp] theorem slotSet_freeCtr (s : State) (k : Nat) (x : SolvSlot) : (slotSet s k x).freeCtr = s.freeCtr := rfl
@[simp] theorem slotSet_pending (s : State) (k : Nat) (x : SolvSlot) : (slotSet s k x).pending = s.pending := rfl
@[simp] theorem slotSet_var (s : State) (k : Nat) (x : SolvSlot) : (slotSet s k x).var = s.var := rfl
@[simp] theorem slotSet_now (s : State) (k : Nat) (x : SolvSlot) : (slotSet s k x).now = s.now := rfl
@[simp] theorem slotSet_reg (s : State) (k : Nat) (x : SolvSlot) (p' o' : Nat) : (slotSet s k x).reg p' o' = s.reg p' o' := rfl
@[simp] theorem slotSet_fget (s : State) (k : Nat) (x : SolvSlot) (p' : Nat) (g : Fld) : (slotSet s k x).fget p' g = s.fget p' g := rfl
@[simp] theorem slotSet_fbit (s : State) (k : Nat) (x : SolvSlot) (p' : Nat) (g : Fld) : (slotSet s k x).fbit p' g = s.fbit p' g := rfl
@[simp] theorem slotSet_reg64 (s : State) (k : Nat) (x : SolvSlot) (p' a b : Nat) : (slotSet s k x).reg64 p' a b = s.reg64 p' a b := rfl

/-! ### Registers -/

/-- A register reads the word written to it. -/
@[simp] theorem reg_setReg_same (s : State) (p o : Nat) (w : Word) : (s.setReg p o w).reg p o = w :=
  Tab.get_set_same _ _ _ _

/-- A register keeps its word when another is written. -/
theorem reg_setReg_ne (s : State) {p o p' o' : Nat} (w : Word) (h : p' * 4096 + o' ≠ p * 4096 + o) :
    (s.setReg p o w).reg p' o' = s.reg p' o' := by
  simp only [State.reg, State.setReg]
  exact Tab.get_set_ne _ _ _ w h

/-- A field reads the value written to it. -/
theorem fget_fset_same (s : State) (p : Nat) (f : Fld) (v : Nat) (h : f.lo + f.wid ≤ 32) : (s.fset p f v).fget p f = v % 2 ^ f.wid := by
  simp only [State.fget, State.fset, reg_setReg_same]
  exact bitsOf_putBits_same _ v h

/-- A field keeps its value when another register is written. -/
theorem fget_setReg_ne (s : State) {p o p' : Nat} (w : Word) (g : Fld) (h : p' * 4096 + g.off ≠ p * 4096 + o) :
    (s.setReg p o w).fget p' g = s.fget p' g := by
  simp only [State.fget, reg_setReg_ne s w h]

/-- A register keeps its word when a field of another is written. -/
theorem reg_fset_ne (s : State) {p p' o' : Nat} (f : Fld) (v : Nat) (h : p' * 4096 + o' ≠ p * 4096 + f.off) :
    (s.fset p f v).reg p' o' = s.reg p' o' := reg_setReg_ne s _ h

/-- A field keeps its value when a field of another register is written. -/
theorem fget_fset_ne (s : State) {p p' : Nat} (f g : Fld) (v : Nat) (h : p' * 4096 + g.off ≠ p * 4096 + f.off) :
    (s.fset p f v).fget p' g = s.fget p' g := fget_setReg_ne s _ g h

/-- A field keeps its value when one beside it in its register is written. -/
theorem fget_fset_beside (s : State) (p : Nat) (f g : Fld) (v : Nat) (ho : g.off = f.off) (h : g.lo + g.wid ≤ f.lo ∨ f.lo + f.wid ≤ g.lo) :
    (s.fset p f v).fget p g = s.fget p g := by
  simp only [State.fget, State.fset, ho, reg_setReg_same]
  exact bitsOf_putBits_ne _ v h

/-- A field is below two to its width. -/
theorem fget_lt (s : State) (p : Nat) (f : Fld) : s.fget p f < 2 ^ f.wid := bitsOf_lt _ _ _

/-! ### Tables of units -/

@[simp] theorem portGet_portSet_same (s : State) (p : Nat) (x : LinkPort) : portGet (portSet s p x) p = x := by simp [portGet, portSet]
theorem portGet_portSet_ne (s : State) {p q : Nat} (x : LinkPort) (h : q ≠ p) : portGet (portSet s p x) q = portGet s q :=
  Tab.get_set_ne _ _ _ x h
@[simp] theorem pairGet_pairSet_same (s : State) (n : Nat) (x : PwmPair) : pairGet (pairSet s n x) n = x := by simp [pairGet, pairSet]
theorem pairGet_pairSet_ne (s : State) {n m : Nat} (x : PwmPair) (h : m ≠ n) : pairGet (pairSet s n x) m = pairGet s m :=
  Tab.get_set_ne _ _ _ x h
@[simp] theorem chanGet_chanSet_same (s : State) (c : Nat) (x : LoopChan) : chanGet (chanSet s c x) c = x := by simp [chanGet, chanSet]
theorem chanGet_chanSet_ne (s : State) {c d : Nat} (x : LoopChan) (h : d ≠ c) : chanGet (chanSet s c x) d = chanGet s d :=
  Tab.get_set_ne _ _ _ x h
@[simp] theorem tileGet_tileSet_same (s : State) (i : Nat) (x : Tile) : tileGet (tileSet s i x) i = x := by simp [tileGet, tileSet]
theorem tileGet_tileSet_ne (s : State) {i k : Nat} (x : Tile) (h : k ≠ i) : tileGet (tileSet s i x) k = tileGet s k :=
  Tab.get_set_ne _ _ _ x h
@[simp] theorem jobGet_jobSet_same (s : State) (j : Nat) (x : Job) : jobGet (jobSet s j x) j = some x := by simp [jobGet, jobSet]
theorem jobGet_jobSet_ne (s : State) {j k : Nat} (x : Job) (h : k ≠ j) : jobGet (jobSet s j x) k = jobGet s k :=
  Tab.find?_ins_ne _ x h
@[simp] theorem page_modPage_same (s : State) (p : Nat) (f : PageSt → PageSt) : (s.modPage p f).page p = f (s.page p) := by
  simp [State.page, State.modPage]
theorem page_modPage_ne (s : State) {p q : Nat} (f : PageSt → PageSt) (h : q ≠ p) : (s.modPage p f).page q = s.page q :=
  Tab.get_set_ne _ _ _ _ h

end Sys2Proof.Machine
end

