-- ==== Sys2Proof/Laws/Tile.lean ====
section
/-! SUPPORT. What leaves a tile's SRAM: every operation on a tile's registers, levels and results. -/

namespace Sys2Proof.Machine

@[simp] theorem dropLevels_sram (x : Tile) : (dropLevels x).sram = x.sram := by unfold dropLevels; split <;> rfl
@[simp] theorem takeLanes_sram (x : Tile) (ws : List DWord) : (takeLanes x ws).sram = x.sram := rfl
@[simp] theorem storeSpec_sram (x : Tile) (l : Level) (w : Nat) (c : Cont) : (storeSpec x l w c).sram = x.sram := by
  unfold storeSpec
  split
  · rfl
  · split <;> rfl
@[simp] theorem specOpen_sram (x : Tile) : (specOpen x).sram = x.sram := by unfold specOpen; split <;> rfl
@[simp] theorem squashFrom_sram (x : Tile) (k : Nat) : (squashFrom x k).sram = x.sram := by unfold squashFrom; split <;> rfl
@[simp] theorem commitFirst_sram (x : Tile) (l : Level) : (commitFirst x l).sram = x.sram := rfl
@[simp] theorem commitMerge_sram (x : Tile) (l1 l2 : Level) : (commitMerge x l1 l2).sram = x.sram := rfl
@[simp] theorem landResult_sram (x : Tile) (r : Result) : (landResult x r).sram = x.sram := rfl
@[simp] theorem landResults_sram (l : List Result) (x : Tile) : (l.foldl landResult x).sram = x.sram := by
  induction l generalizing x with
  | nil => rfl
  | cons r l ih => exact (ih _).trans (landResult_sram x r)
@[simp] theorem advance_sram (x : Tile) (b : Bool) (t : Option Nat) : (advance x b t).sram = x.sram := by
  unfold advance
  simp only
  split
  · rfl
  · split
    · split <;> rfl
    · rfl

end Sys2Proof.Machine
end

