-- ==== Sys2Proof/Laws/Keeps.lean ====
section
/-! SUPPORT. What no command does: `Keeps s t` says that the part and the queue are the same, that nothing sent to the host is taken back, that
no free value is drawn twice, and that the one form of registers and memories is kept. One lemma for each way a state is made. -/

namespace Sys2Proof.Machine

/-- From a state to a later one, over anything a command does. -/
structure Keeps (s t : State) : Prop where
  variant : t.fuses.variant = s.fuses.variant
  uid : t.fuses.uid = s.fuses.uid
  stepping : t.fuses.stepping = s.fuses.stepping
  pending : t.pending = s.pending
  out : s.host.out <:+ t.host.out
  ctr : s.freeCtr ≤ t.freeCtr
  wf : s.wf = true → t.wf = true

namespace Keeps
variable {s0 s t : State}

theorem refl (s : State) : Keeps s s := ⟨rfl, rfl, rfl, rfl, List.suffix_refl _, le_refl _, id⟩

theorem trans (h : Keeps s0 s) (g : Keeps s t) : Keeps s0 t :=
  ⟨g.variant.trans h.variant, g.uid.trans h.uid, g.stepping.trans h.stepping, g.pending.trans h.pending, h.out.trans g.out,
   le_trans h.ctr g.ctr, fun w => g.wf (h.wf w)⟩

/-- An update of fields that the form does not speak of. -/
theorem upd {x : State} {fu : Fuses} {ho : HostSt} {me : MemSt} {fa : FacetSt} {time : TimeSt} {pages : Tab PageSt} {qe : QeSt}
    {part : PartSt} {loop : LoopSt} {pwm : PwmSt} {loupe : LoupeSt} {solver : SolverSt} {clnk : ClnkSt} {serve : ServeSt}
    {rtu : RtuSt} {power : PowerSt} {tku : TkuSt} {boot : BootSt} {jtag : JtagSt} {ctr : Nat}
    (h : Keeps s0 x) (hv : fu.variant = x.fuses.variant) (hu : fu.uid = x.fuses.uid) (hs : fu.stepping = x.fuses.stepping)
    (ho' : x.host.out <:+ ho.out) (hm : x.mem.dram.wf = true → me.dram.wf = true)
    (hf : (x.facet.tiles.all fun t => t.2.sram.wf) = true → (fa.tiles.all fun t => t.2.sram.wf) = true) (hc : x.freeCtr ≤ ctr) :
    Keeps s0 ⟨fu, x.regs, time, pages, qe, part, ho, loop, pwm, loupe, me, fa, solver, clnk, serve, rtu, power, tku, boot, jtag, ctr,
      x.pending⟩ := by
  refine h.trans ⟨hv, hu, hs, rfl, ho', hc, fun w => ?_⟩
  simp only [State.wf, State.regsKept, State.resetAt, Bool.and_eq_true, hv] at w ⊢
  exact ⟨⟨w.1.1, hm w.1.2⟩, hf w.2⟩

/-- An update of fields that the form does not speak of, all of them outside host, memory, tiles and counter. -/
theorem upd0 {x : State} {ho : HostSt} {me : MemSt} {fa : FacetSt} {time : TimeSt} {pages : Tab PageSt} {qe : QeSt}
    {part : PartSt} {loop : LoopSt} {pwm : PwmSt} {loupe : LoupeSt} {solver : SolverSt} {clnk : ClnkSt} {serve : ServeSt}
    {rtu : RtuSt} {power : PowerSt} {tku : TkuSt} {boot : BootSt} {jtag : JtagSt}
    (h : Keeps s0 x) (ho' : ho.out = x.host.out) (hm : me.dram = x.mem.dram) (hf : fa.tiles = x.facet.tiles) :
    Keeps s0 ⟨x.fuses, x.regs, time, pages, qe, part, ho, loop, pwm, loupe, me, fa, solver, clnk, serve, rtu, power, tku, boot, jtag,
      x.freeCtr, x.pending⟩ :=
  upd h rfl rfl rfl (ho' ▸ List.suffix_refl _) (fun w => hm ▸ w) (fun w => hf ▸ w) (le_refl _)

/-- The same, where free values are drawn. -/
theorem updCtr {x : State} {ho : HostSt} {me : MemSt} {fa : FacetSt} {time : TimeSt} {pages : Tab PageSt} {qe : QeSt}
    {part : PartSt} {loop : LoopSt} {pwm : PwmSt} {loupe : LoupeSt} {solver : SolverSt} {clnk : ClnkSt} {serve : ServeSt}
    {rtu : RtuSt} {power : PowerSt} {tku : TkuSt} {boot : BootSt} {jtag : JtagSt} {ctr : Nat}
    (h : Keeps s0 x) (ho' : ho.out = x.host.out) (hm : me.dram = x.mem.dram) (hf : fa.tiles = x.facet.tiles) (hc : x.freeCtr ≤ ctr) :
    Keeps s0 ⟨x.fuses, x.regs, time, pages, qe, part, ho, loop, pwm, loupe, me, fa, solver, clnk, serve, rtu, power, tku, boot, jtag,
      ctr, x.pending⟩ :=
  upd h rfl rfl rfl (ho' ▸ List.suffix_refl _) (fun w => hm ▸ w) (fun w => hf ▸ w) hc

/-- A choice between two states. -/
theorem ite {c : Prop} [Decidable c] (a : c → Keeps s0 s) (b : ¬ c → Keeps s0 t) : Keeps s0 (if c then s else t) := by
  split
  · exact a ‹_›
  · exact b ‹_›

/-- The state of a pair that a match has taken apart. -/
theorem snd {α : Type} {p : α × State} {a : α} (e : p = (a, s)) (h : Keeps s0 p.2) : Keeps s0 s := by subst e; exact h
theorem fst {α : Type} {p : State × α} {a : α} (e : p = (s, a)) (h : Keeps s0 p.1) : Keeps s0 s := by subst e; exact h

/-! A state that may not be there: `∀ t, o = some t → Keeps s0 t`. -/

theorem optSome (h : Keeps s0 s) : ∀ t, some s = some t → Keeps s0 t := by
  rintro t ⟨⟩
  exact h

theorem optNone : ∀ t, (none : Option State) = some t → Keeps s0 t := by
  rintro t ⟨⟩

theorem optIte {c : Prop} [Decidable c] {a b : Option State} (ha : c → ∀ t, a = some t → Keeps s0 t)
    (hb : ¬ c → ∀ t, b = some t → Keeps s0 t) : ∀ t, (if c then a else b) = some t → Keeps s0 t := by
  split
  · exact ha ‹_›
  · exact hb ‹_›

theorem getD {o : Option State} (ho : ∀ t, o = some t → Keeps s0 t) (h : Keeps s0 s) : Keeps s0 (o.getD s) := by
  cases o with
  | none => exact h
  | some t => exact ho t rfl

theorem of_opt {o : Option State} (e : o = some s) (ho : ∀ t, o = some t → Keeps s0 t) : Keeps s0 s := ho s e

/-- A state function over a list. -/
theorem foldl {α : Type} (l : List α) {f : State → α → State} (hf : ∀ s a, Keeps s0 s → Keeps s0 (f s a)) (h : Keeps s0 s) :
    Keeps s0 (l.foldl f s) := by
  induction l generalizing s with
  | nil => exact h
  | cons a l ih => exact ih (hf _ _ h)

theorem each {α : Type} (l : List α) {f : State → α → State} (hf : ∀ s a, Keeps s0 s → Keeps s0 (f s a)) (h : Keeps s0 s) :
    Keeps s0 (eachIn l f s) := foldl l hf h

/-- A fold that carries something beside the state. -/
theorem foldl_snd {α β : Type} (l : List α) {f : β × State → α → β × State} (hf : ∀ p a, Keeps s0 p.2 → Keeps s0 (f p a).2)
    {p : β × State} (h : Keeps s0 p.2) : Keeps s0 (l.foldl f p).2 := by
  induction l generalizing p with
  | nil => exact h
  | cons a l ih => exact ih (hf _ _ h)

theorem foldl_fst {α β : Type} (l : List α) {f : State × β → α → State × β} (hf : ∀ p a, Keeps s0 p.1 → Keeps s0 (f p a).1)
    {p : State × β} (h : Keeps s0 p.1) : Keeps s0 (l.foldl f p).1 := by
  induction l generalizing p with
  | nil => exact h
  | cons a l ih => exact ih (hf _ _ h)

theorem foldl_snd2 {α β γ : Type} (l : List α) {f : β × γ × State → α → β × γ × State}
    (hf : ∀ p a, Keeps s0 p.2.2 → Keeps s0 (f p a).2.2) {p : β × γ × State} (h : Keeps s0 p.2.2) : Keeps s0 (l.foldl f p).2.2 := by
  induction l generalizing p with
  | nil => exact h
  | cons a l ih => exact ih (hf _ _ h)

/-! ### The ways to write -/

theorem setReg {p o : Nat} {w : Word} (h : Keeps s0 s) : Keeps s0 (s.setReg p o w) := by
  refine h.trans ⟨rfl, rfl, rfl, rfl, List.suffix_refl _, le_refl _, fun w' => ?_⟩
  simp only [State.wf, State.regsKept, Bool.and_eq_true, List.all_eq_true] at w' ⊢
  refine ⟨⟨⟨Tab.rising_set _ _ _ w'.1.1.1, fun e he => ?_⟩, w'.1.2⟩, w'.2⟩
  rcases Tab.mem_set he with ⟨rfl, hv⟩ | ⟨hm, _⟩
  · exact bne_iff_ne.mpr hv
  · exact w'.1.1.2 e hm

theorem fset {p : Nat} {f : Fld} {v : Nat} (h : Keeps s0 s) : Keeps s0 (s.fset p f v) := setReg h
theorem fincSat {p : Nat} {f : Fld} {d : Nat} (h : Keeps s0 s) : Keeps s0 (s.fincSat p f d) := setReg h
theorem setReg64 {p lo hi v : Nat} (h : Keeps s0 s) : Keeps s0 (s.setReg64 p lo hi v) := setReg (setReg h)
theorem modPage {p : Nat} {f : PageSt → PageSt} (h : Keeps s0 s) : Keeps s0 (s.modPage p f) := upd0 h rfl rfl rfl

/-- Registers are forgotten. -/
theorem regsFilter {p : Nat × Word → Bool} (h : Keeps s0 s) : Keeps s0 { s with regs := s.regs.filter p } := by
  refine h.trans ⟨rfl, rfl, rfl, rfl, List.suffix_refl _, le_refl _, fun w' => ?_⟩
  simp only [State.wf, State.regsKept, Bool.and_eq_true, List.all_eq_true] at w' ⊢
  exact ⟨⟨⟨Tab.rising_filter _ w'.1.1.1, fun e he => w'.1.1.2 e (List.mem_filter.mp he).1⟩, w'.1.2⟩, w'.2⟩

theorem hostSend {fn : Nat} {tx : HostTx} (h : Keeps s0 s) : Keeps s0 (hostSend s fn tx) := by
  unfold Machine.hostSend
  split
  · exact h
  · split
    · exact upd h rfl rfl rfl (List.suffix_cons _ _) id id (le_refl _)
    · exact upd0 h rfl rfl rfl

theorem hostNote {tx : HostTx} (h : Keeps s0 s) : Keeps s0 (hostNote s tx) :=
  upd h rfl rfl rfl (List.suffix_cons _ _) id id (le_refl _)

theorem free (h : Keeps s0 s) : Keeps s0 s.free.2 := upd h rfl rfl rfl (List.suffix_refl _) id id (Nat.le_succ _)
theorem freeBit (h : Keeps s0 s) : Keeps s0 s.freeBit.2 := upd h rfl rfl rfl (List.suffix_refl _) id id (Nat.le_succ _)

theorem reach {t : Nat} (h : Keeps s0 s) : Keeps s0 (s.reach t) := by
  unfold State.reach
  exact ite (fun _ => upd0 h rfl rfl rfl) (fun _ => h)

/-- Device memory changes to one that keeps the form. -/
theorem memDram {m : MemSt} (h : Keeps s0 s) (hm : s.mem.dram.wf = true → m.dram.wf = true) : Keeps s0 (memSet s m) :=
  upd h rfl rfl rfl (List.suffix_refl _) hm id (le_refl _)

/-- The tiles are each in form where a tile in form takes a place among them. -/
theorem tiles_set {t : Tab Tile} (i : Nat) {x : Tile} (h : (t.all fun e => e.2.sram.wf) = true) (hx : x.sram.wf = true) :
    ((t.set {} i x).all fun e => e.2.sram.wf) = true := by
  rw [List.all_eq_true] at h ⊢
  intro e he
  rcases Tab.mem_set he with ⟨rfl, _⟩ | ⟨hm, _⟩
  · exact hx
  · exact h e hm

/-- A tile is in form in a state that is. -/
theorem tile_wf (i : Nat) (h : s.wf = true) : (tileGet s i).sram.wf = true := by
  simp only [State.wf, Bool.and_eq_true, List.all_eq_true] at h
  unfold tileGet Tab.get
  cases e : Tab.find? s.facet.tiles i with
  | none => rfl
  | some x => exact h.2 _ (Tab.mem_of_find? e)

theorem tileSet {i : Nat} {x : Tile} (h : Keeps s0 s) (hx : s.wf = true → x.sram.wf = true) : Keeps s0 (tileSet s i x) := by
  refine h.trans ⟨rfl, rfl, rfl, rfl, List.suffix_refl _, le_refl _, fun w => ?_⟩
  have hx' := hx w
  simp only [State.wf, Bool.and_eq_true] at w ⊢
  exact ⟨⟨w.1.1, w.1.2⟩, tiles_set i w.2 hx'⟩

/-- Device memory is in form in a state that is. -/
theorem dram_wf (h : s.wf = true) : s.mem.dram.wf = true := by
  simp only [State.wf, Bool.and_eq_true] at h
  exact h.1.2

theorem memAny {m : MemSt} (h : Keeps s0 s) (hm : s0.wf = true → m.dram.wf = true) : Keeps s0 (memSet s m) :=
  ⟨h.variant, h.uid, h.stepping, h.pending, h.out, h.ctr, fun w => (memDram (refl s) fun _ => hm w).wf (h.wf w)⟩

theorem memSame {m : MemSt} (h : Keeps s0 s) (hm : m.dram = s.mem.dram) : Keeps s0 (memSet s m) := memDram h fun w => hm ▸ w

theorem tileAny {i : Nat} {x : Tile} (h : Keeps s0 s) (hx : s0.wf = true → x.sram.wf = true) : Keeps s0 (Machine.tileSet s i x) :=
  ⟨h.variant, h.uid, h.stepping, h.pending, h.out, h.ctr, fun w => (tileSet (refl s) fun _ => hx w).wf (h.wf w)⟩

/-- A tile changes, but not its SRAM. -/
theorem tileKeep {i : Nat} {x : Tile} (h : Keeps s0 s) (hx : x.sram = (tileGet s i).sram) : Keeps s0 (Machine.tileSet s i x) :=
  tileSet h fun w => hx ▸ tile_wf i w

end Keeps
end Sys2Proof.Machine
end

