-- ==== Sys2Proof/Laws/KeepsOps.lean ====
section
/-! SUPPORT. Each operation of Machine/Ops.lean keeps what `Keeps` says. -/

namespace Sys2Proof.Machine

theorem pageIrq_keeps {s0 : State} {s : State} {p : Nat} {bits : Nat} (h : Keeps s0 s) :
    Keeps s0 (pageIrq s p bits) := by
  unfold pageIrq
  dsimp only
  repeat' first
    | with_reducible assumption
    | with_reducible refine Keeps.setReg ?_
    | with_reducible refine Keeps.hostSend ?_
    | with_reducible refine Keeps.ite (fun _ => ?_) (fun _ => ?_)

theorem irqRewrite_keeps {s0 : State} {s : State} {p : Nat} {stat : Word} {en : Word} (h : Keeps s0 s) :
    Keeps s0 (irqRewrite s p stat en) := by
  unfold irqRewrite
  dsimp only
  repeat' first
    | with_reducible assumption
    | with_reducible refine Keeps.setReg ?_
    | with_reducible refine Keeps.hostSend ?_
    | with_reducible refine Keeps.ite (fun _ => ?_) (fun _ => ?_)

theorem logAppend_keeps {s0 : State} {s : State} {part : Nat} {page : Nat} {code : Nat} {detail : Nat} {stamp : Nat} (h : Keeps s0 s) :
    Keeps s0 (logAppend s part page code detail stamp) := by
  unfold logAppend
  dsimp only
  repeat' first
    | with_reducible assumption
    | with_reducible refine Keeps.setReg ?_
    | with_reducible refine Keeps.setReg64 ?_
    | with_reducible refine Keeps.fset ?_
    | with_reducible refine Keeps.fincSat ?_
    | with_reducible refine pageIrq_keeps ?_
    | with_reducible refine Keeps.ite (fun _ => ?_) (fun _ => ?_)

theorem capture_keeps {s0 : State} {s : State} {p : Nat} {code : Nat} {part : Nat} {detail : Nat} (h : Keeps s0 s) :
    Keeps s0 (capture s p code part detail) := by
  unfold capture
  dsimp only
  repeat' first
    | with_reducible assumption
    | with_reducible refine Keeps.fset ?_
    | with_reducible refine Keeps.setReg ?_
    | with_reducible refine Keeps.setReg64 ?_
    | with_reducible refine pageIrq_keeps ?_
    | with_reducible refine logAppend_keeps ?_
    | with_reducible refine Keeps.ite (fun _ => ?_) (fun _ => ?_)

theorem errClear_keeps {s0 : State} {s : State} {p : Nat} (h : Keeps s0 s) :
    Keeps s0 (errClear s p) := by
  unfold errClear
  dsimp only
  repeat' first
    | with_reducible assumption
    | with_reducible refine Keeps.setReg ?_

theorem foreign_keeps {s0 : State} {s : State} {part : Nat} {last : Nat} {bar2 : Bool} (h : Keeps s0 s) :
    Keeps s0 (foreign s part last bar2) := by
  unfold foreign
  dsimp only
  repeat' first
    | with_reducible assumption
    | with_reducible refine Keeps.fset ?_
    | with_reducible refine pageIrq_keeps ?_
    | with_reducible refine Keeps.ite (fun _ => ?_) (fun _ => ?_)

theorem qpSet_keeps {s0 : State} {s : State} {q : Nat} {x : Qp} (h : Keeps s0 s) :
    Keeps s0 (qpSet s q x) := by
  unfold qpSet
  dsimp only
  repeat' first
    | with_reducible assumption
    | with_reducible refine Keeps.ite (fun _ => ?_) (fun _ => ?_)
    | fail_if_no_progress (with_reducible refine Keeps.upd0 ?_ rfl rfl rfl)

theorem qpPut_keeps {s0 : State} {s : State} {q : Nat} {f : Fld} {v : Nat} (h : Keeps s0 s) :
    Keeps s0 (qpPut s q f v) := by
  unfold qpPut
  repeat' first
    | with_reducible assumption
    | with_reducible refine Keeps.fset ?_

theorem jobSet_keeps {s0 : State} {s : State} {j : Nat} {x : Job} (h : Keeps s0 s) :
    Keeps s0 (jobSet s j x) := by
  unfold jobSet
  dsimp only
  repeat' first
    | with_reducible assumption
    | fail_if_no_progress (with_reducible refine Keeps.upd0 ?_ rfl rfl rfl)

theorem jobDone_keeps {s0 : State} {s : State} {j : Nat} {status : Nat} {result : Nat} (h : Keeps s0 s) :
    Keeps s0 (jobDone s j status result) := by
  unfold jobDone
  dsimp only
  repeat' first
    | with_reducible assumption
    | with_reducible refine jobSet_keeps ?_
    | with_reducible refine Keeps.ite (fun _ => ?_) (fun _ => ?_)
    | fail_if_no_progress (with_reducible refine Keeps.upd0 ?_ rfl rfl rfl)
    | split

theorem withHostData_keeps {s0 : State} {s : State} {j : Nat} {addr : Nat} {len : Nat} {bad : State → List Byte → List Nat → State} {k : State → List Byte → State} (hk1 : ∀ s (a0 : List Byte) (a1 : List Nat), Keeps s0 s → Keeps s0 (bad s a0 a1)) (hk2 : ∀ s (a0 : List Byte), Keeps s0 s → Keeps s0 (k s a0)) (h : Keeps s0 s) :
    Keeps s0 (withHostData s j addr len bad k) := by
  unfold withHostData
  repeat' first
    | with_reducible assumption
    | with_reducible refine Keeps.hostSend ?_
    | with_reducible refine jobSet_keeps ?_
    | with_reducible refine jobDone_keeps ?_
    | with_reducible refine hk1 _ _ _ ?_
    | with_reducible refine hk2 _ _ ?_
    | with_reducible refine Keeps.ite (fun _ => ?_) (fun _ => ?_)
    | split

theorem hostReady_keeps {s0 : State} {s : State} {k : State → State} (hk1 : ∀ s, Keeps s0 s → Keeps s0 (k s)) (h : Keeps s0 s) :
    Keeps s0 (hostReady s k) := by
  unfold hostReady
  repeat' first
    | with_reducible assumption
    | with_reducible refine hk1 _ ?_
    | with_reducible refine Keeps.ite (fun _ => ?_) (fun _ => ?_)

theorem pageWrite_keeps {s0 : State} {s : State} {part : Nat} {p : Nat} {k : State → State} (hk1 : ∀ s, Keeps s0 s → Keeps s0 (k s)) (h : Keeps s0 s) :
    Keeps s0 (pageWrite s part p k) := by
  unfold pageWrite
  repeat' first
    | with_reducible assumption
    | with_reducible refine hostReady_keeps (fun s _ => ?_) ?_
    | with_reducible refine foreign_keeps ?_
    | with_reducible refine hk1 _ ?_
    | with_reducible refine Keeps.ite (fun _ => ?_) (fun _ => ?_)
    | split

theorem pageRead_keeps {s0 : State} {s : State} {part : Nat} {p : Nat} {k : State → Word × State} (hk1 : ∀ s, Keeps s0 s → Keeps s0 (k s).2) (h : Keeps s0 s) :
    Keeps s0 (pageRead s part p k) := by
  unfold pageRead
  dsimp only
  repeat' first
    | with_reducible assumption
    | with_reducible refine hostReady_keeps (fun s _ => ?_) ?_
    | with_reducible refine Keeps.hostNote ?_
    | with_reducible refine foreign_keeps ?_
    | with_reducible refine hk1 _ ?_
    | split

theorem markOut_keeps {s0 : State} {s : State} {p : Nat} {fault : Bool} (h : Keeps s0 s) :
    Keeps s0 (markOut s p fault) := by
  unfold markOut
  dsimp only
  repeat' first
    | with_reducible assumption
    | with_reducible refine Keeps.modPage ?_
    | with_reducible refine Keeps.fset ?_
    | with_reducible refine Keeps.ite (fun _ => ?_) (fun _ => ?_)

theorem markIn_keeps {s0 : State} {s : State} {p : Nat} (h : Keeps s0 s) :
    Keeps s0 (markIn s p) := by
  unfold markIn
  dsimp only
  repeat' first
    | with_reducible assumption
    | with_reducible refine Keeps.modPage ?_
    | with_reducible refine Keeps.fset ?_

theorem unitFault_keeps {s0 : State} {s : State} {p : Nat} {detail : Nat} (h : Keeps s0 s) :
    Keeps s0 (unitFault s p detail) := by
  unfold unitFault
  repeat' first
    | with_reducible assumption
    | with_reducible refine capture_keeps ?_
    | with_reducible refine markOut_keeps ?_

end Sys2Proof.Machine
end

