-- ==== Sys2Proof/Laws/KeepsEcc.lean ====
section
/-! SUPPORT. Each operation of Machine/Ecc.lean keeps what `Keeps` says. -/

namespace Sys2Proof.Machine

theorem regionSet_keeps {s0 : State} {s : State} {r : Nat} {x : EccCount} (h : Keeps s0 s) :
    Keeps s0 (regionSet s r x) := by
  unfold regionSet
  dsimp only
  repeat' first
    | with_reducible assumption
    | with_reducible refine Keeps.memSame ?_ rfl

theorem chanCe_keeps {s0 : State} {s : State} {ch : Nat} {addr : Nat} (h : Keeps s0 s) :
    Keeps s0 (chanCe s ch addr) := by
  unfold chanCe
  dsimp only
  repeat' first
    | with_reducible assumption
    | with_reducible refine Keeps.fincSat ?_
    | with_reducible refine Keeps.setReg64 ?_
    | with_reducible refine pageIrq_keeps ?_
    | with_reducible refine Keeps.ite (fun _ => ?_) (fun _ => ?_)

theorem chanUe_keeps {s0 : State} {s : State} {ch : Nat} {addr : Nat} {part : Nat} (h : Keeps s0 s) :
    Keeps s0 (chanUe s ch addr part) := by
  unfold chanUe
  dsimp only
  repeat' first
    | with_reducible assumption
    | with_reducible refine pageIrq_keeps ?_
    | with_reducible refine capture_keeps ?_
    | with_reducible refine Keeps.fincSat ?_

theorem regionCe_keeps {s0 : State} {s : State} {r : Nat} {w : Nat} (h : Keeps s0 s) :
    Keeps s0 (regionCe s r w) := by
  unfold regionCe
  dsimp only
  repeat' first
    | with_reducible assumption
    | with_reducible refine regionSet_keeps ?_
    | with_reducible refine pageIrq_keeps ?_
    | with_reducible refine Keeps.ite (fun _ => ?_) (fun _ => ?_)

theorem regionUe_keeps {s0 : State} {s : State} {r : Nat} {w : Nat} {part : Nat} (h : Keeps s0 s) :
    Keeps s0 (regionUe s r w part) := by
  unfold regionUe
  dsimp only
  repeat' first
    | with_reducible assumption
    | with_reducible refine pageIrq_keeps ?_
    | with_reducible refine capture_keeps ?_
    | with_reducible refine regionSet_keeps ?_

theorem poisonRead_keeps {s0 : State} {s : State} {page : Nat} {part : Nat} (h : Keeps s0 s) :
    Keeps s0 (poisonRead s page part) := by
  unfold poisonRead
  repeat' first
    | with_reducible assumption
    | with_reducible refine capture_keeps ?_

theorem countPoison_keeps {s0 : State} {s : State} {ch : Nat} (h : Keeps s0 s) :
    Keeps s0 (countPoison s ch) := by
  unfold countPoison
  repeat' first
    | with_reducible assumption
    | with_reducible refine Keeps.fincSat ?_

theorem dramRead_keeps {s0 : State} {s : State} {w : Nat} {part : Nat} {queue : optParam Bool false} (h : Keeps s0 s) :
    Keeps s0 (dramRead s w part queue).2 := by
  unfold dramRead
  dsimp only
  repeat' first
    | with_reducible assumption
    | with_reducible refine countPoison_keeps ?_
    | with_reducible refine Keeps.fincSat ?_
    | with_reducible refine chanCe_keeps ?_
    | with_reducible refine chanUe_keeps ?_
    | with_reducible refine Keeps.memSame ?_ rfl
    | with_reducible refine Keeps.memAny ?_ (fun w => Mem.put_wf _ _ _ (Keeps.dram_wf (Keeps.wf (s := s0) ?_ w)))
    | with_reducible refine Keeps.ite (fun _ => ?_) (fun _ => ?_)
    | split

theorem dropRepair_keeps {s0 : State} {s : State} {k : Nat} {w : Nat} (h : Keeps s0 s) :
    Keeps s0 (dropRepair s k w) := by
  unfold dropRepair
  dsimp only
  repeat' first
    | with_reducible assumption
    | with_reducible refine Keeps.memSame ?_ rfl

theorem dramWrite_keeps {s0 : State} {s : State} {w : Nat} {d : DWord} {poison : Bool} (h : Keeps s0 s) :
    Keeps s0 (dramWrite s w d poison) := by
  unfold dramWrite
  dsimp only
  repeat' first
    | with_reducible assumption
    | with_reducible refine dropRepair_keeps ?_
    | with_reducible refine Keeps.memAny ?_ (fun w => Mem.put_wf _ _ _ (Keeps.dram_wf (Keeps.wf (s := s0) ?_ w)))
    | with_reducible refine Keeps.ite (fun _ => ?_) (fun _ => ?_)

theorem dramPartial_keeps {s0 : State} {s : State} {w : Nat} {part : Nat} {bs : List (Nat × Byte)} {poison : Bool} (h : Keeps s0 s) :
    Keeps s0 (dramPartial s w part bs poison) := by
  unfold dramPartial
  dsimp only
  repeat' first
    | with_reducible assumption
    | with_reducible refine chanCe_keeps ?_
    | with_reducible refine chanUe_keeps ?_
    | with_reducible refine Keeps.fincSat ?_
    | with_reducible refine Keeps.memAny ?_ (fun w => Mem.put_wf _ _ _ (Keeps.dram_wf (Keeps.wf (s := s0) ?_ w)))
    | with_reducible refine Keeps.ite (fun _ => ?_) (fun _ => ?_)
    | split

theorem dramStore_keeps {s0 : State} {s : State} {part : Nat} {addr : Nat} {data : List Byte} {bad : List Nat} (h : Keeps s0 s) :
    Keeps s0 (dramStore s part addr data bad) := by
  unfold dramStore
  dsimp only
  repeat' first
    | with_reducible assumption
    | with_reducible refine dramWrite_keeps ?_
    | with_reducible refine dramPartial_keeps ?_
    | with_reducible refine Keeps.ite (fun _ => ?_) (fun _ => ?_)
    | with_reducible refine Keeps.each _ (fun _ _ _ => ?_) ?_

theorem dramLoad_keeps {s0 : State} {s : State} {part : Nat} {addr : Nat} {n : Nat} (h : Keeps s0 s) :
    Keeps s0 (dramLoad s part addr n).2 := by
  unfold dramLoad
  dsimp only
  repeat' first
    | with_reducible assumption
    | with_reducible refine dramRead_keeps ?_
    | with_reducible refine Keeps.foldl_snd _ (fun _ _ _ => ?_) ?_
    | split

theorem tileWrite_keeps {s0 : State} {s : State} {i : Nat} {w : Nat} {d : DWord} {poison : Bool} (h : Keeps s0 s) :
    Keeps s0 (tileWrite s i w d poison) := by
  unfold tileWrite
  dsimp only
  repeat' first
    | with_reducible assumption
    | with_reducible refine dropRepair_keeps ?_
    | with_reducible refine Keeps.tileAny ?_ (fun w => Mem.put_wf _ _ _ (Keeps.tile_wf _ (Keeps.wf (s := s0) ?_ w)))

theorem tileRepair_keeps {s0 : State} {s : State} {i : Nat} {w : Nat} (h : Keeps s0 s) :
    Keeps s0 (tileRepair s i w) := by
  unfold tileRepair
  dsimp only
  repeat' first
    | with_reducible assumption
    | with_reducible refine regionSet_keeps ?_
    | with_reducible refine Keeps.memSame ?_ rfl
    | with_reducible refine Keeps.ite (fun _ => ?_) (fun _ => ?_)

theorem tileRead_keeps {s0 : State} {s : State} {i : Nat} {w : Nat} (h : Keeps s0 s) :
    Keeps s0 (tileRead s i w).2 := by
  unfold tileRead
  dsimp only
  repeat' first
    | with_reducible assumption
    | with_reducible refine tileRepair_keeps ?_
    | with_reducible refine regionCe_keeps ?_
    | with_reducible refine regionSet_keeps ?_
    | with_reducible refine regionUe_keeps ?_
    | with_reducible refine Keeps.tileAny ?_ (fun w => Mem.put_wf _ _ _ (Keeps.tile_wf _ (Keeps.wf (s := s0) ?_ w)))
    | split

end Sys2Proof.Machine
end

