-- ==== Sys2Proof/Laws/KeepsFacet.lean ====
section
/-! SUPPORT. Each operation of Machine/Facet.lean keeps what `Keeps` says. -/

namespace Sys2Proof.Machine

theorem tileHalt_keeps {s0 : State} {s : State} {i : Nat} {code : Nat} {detail : Nat} (h : Keeps s0 s) :
    Keeps s0 (tileHalt s i code detail) := by
  unfold tileHalt
  dsimp only
  repeat' first
    | with_reducible assumption
    | with_reducible refine pageIrq_keeps ?_
    | with_reducible refine capture_keeps ?_
    | (with_reducible refine Keeps.tileKeep ?_ ?_; on_goal 2 => (simp; done))

theorem trayBegin_keeps {s0 : State} {s : State} {i : Nat} {ws : List DWord} (h : Keeps s0 s) :
    Keeps s0 (trayBegin s i ws) := by
  unfold trayBegin
  dsimp only
  repeat' first
    | with_reducible assumption
    | with_reducible refine tileRead_keeps ?_
    | with_reducible refine Keeps.tileKeep ?_ rfl
    | with_reducible refine Keeps.each _ (fun _ _ _ => ?_) ?_

theorem addrRange_keeps {s0 : State} {s : State} {i : Nat} {addr : Nat} (h : Keeps s0 s) :
    Keeps s0 (addrRange s i addr) := by
  unfold addrRange
  repeat' first
    | with_reducible assumption
    | with_reducible refine capture_keeps ?_

theorem storeOut_keeps {s0 : State} {s : State} {i : Nat} {word : Nat} {c : Cont} (h : Keeps s0 s) :
    Keeps s0 (storeOut s i word c) := by
  unfold storeOut
  dsimp only
  repeat' first
    | with_reducible assumption
    | with_reducible refine tileWrite_keeps ?_
    | with_reducible refine addrRange_keeps ?_
    | with_reducible refine Keeps.ite (fun _ => ?_) (fun _ => ?_)
    | fail_if_no_progress (with_reducible refine Keeps.upd0 ?_ rfl rfl rfl)
    | split

theorem trayStores_keeps {s0 : State} {s : State} {i : Nat} (h : Keeps s0 s) :
    Keeps s0 (trayStores s i) := by
  unfold trayStores
  dsimp only
  repeat' first
    | with_reducible assumption
    | with_reducible refine storeOut_keeps ?_
    | (with_reducible refine Keeps.tileKeep ?_ ?_; on_goal 2 => (simp; done))
    | with_reducible refine Keeps.each _ (fun _ _ _ => ?_) ?_
    | split

theorem traySend_keeps {s0 : State} {s : State} {i : Nat} (h : Keeps s0 s) :
    Keeps s0 (traySend s i) := by
  unfold traySend
  dsimp only
  repeat' first
    | with_reducible assumption
    | fail_if_no_progress (with_reducible refine Keeps.updCtr ?_ rfl rfl rfl (Nat.le_add_right _ _))
    | split

theorem doSquash_keeps {s0 : State} {s : State} {i : Nat} {k : Nat} {target : Nat} (h : Keeps s0 s) :
    Keeps s0 (doSquash s i k target).1 := by
  unfold doSquash
  dsimp only
  repeat' first
    | with_reducible assumption
    | with_reducible refine Keeps.fincSat ?_
    | (with_reducible refine Keeps.tileKeep ?_ ?_; on_goal 2 => (simp; done))

theorem specState_keeps {s0 : State} {s : State} {i : Nat} (h : Keeps s0 s) :
    Keeps s0 (specState s i).1 := by
  unfold specState
  dsimp only
  repeat' first
    | with_reducible assumption
    | with_reducible refine capture_keeps ?_

theorem doCommit_keeps {s0 : State} {s : State} {i : Nat} {k : Nat} {target : Nat} (h : Keeps s0 s) :
    Keeps s0 (doCommit s i k target).1 := by
  unfold doCommit
  dsimp only
  repeat' first
    | with_reducible assumption
    | with_reducible refine specState_keeps ?_
    | with_reducible refine doSquash_keeps ?_
    | with_reducible refine capture_keeps ?_
    | with_reducible refine Keeps.fincSat ?_
    | with_reducible refine Keeps.tileKeep ?_ rfl
    | split

theorem trayControl_keeps {s0 : State} {s : State} {i : Nat} {depth : Bool} (h : Keeps s0 s) :
    Keeps s0 (trayControl s i depth).1 := by
  unfold trayControl
  dsimp only
  repeat' first
    | with_reducible assumption
    | with_reducible refine doCommit_keeps ?_
    | with_reducible refine doSquash_keeps ?_
    | with_reducible refine specState_keeps ?_
    | with_reducible refine Keeps.tileKeep ?_ rfl
    | split

theorem trayRecv_keeps {s0 : State} {s : State} {i : Nat} {c : Ctx} {d : Option ChanDatum} {before : List Nat} (h : Keeps s0 s) :
    Keeps s0 (trayRecv s i c d before) := by
  unfold trayRecv
  dsimp only
  repeat' first
    | with_reducible assumption
    | with_reducible refine capture_keeps ?_
    | with_reducible refine Keeps.tileKeep ?_ rfl
    | with_reducible refine Keeps.ite (fun _ => ?_) (fun _ => ?_)

theorem trayEnd_keeps {s0 : State} {s : State} {i : Nat} (h : Keeps s0 s) :
    Keeps s0 (trayEnd s i) := by
  unfold trayEnd
  extract_lets x ctl s1 depth s2 before s3 recv idx
  have h1 : Keeps s0 s1 := Keeps.reach h
  have h2 : Keeps s0 s2 := Keeps.ite (fun _ => Keeps.tileAny h1 fun w => by rw [specOpen_sram]; exact Keeps.tile_wf i (h.wf w)) (fun _ => h1)
  have h3 : Keeps s0 s3 := traySend_keeps (trayStores_keeps h2)
  clear_value x ctl s1 depth s2 before s3 recv idx
  split
  rename_i s4 red e4
  have h4 : Keeps s0 s4 := Keeps.fst e4 (trayControl_keeps h3)
  extract_lets squashed now gone s5 y y2
  have h5 : Keeps s0 s5 := by
    dsimp only [s5]
    split
    · exact h4
    · exact Keeps.ite (fun _ => h4) (fun _ => trayRecv_keeps h4)
  have hy : y.sram = (tileGet s5 i).sram := rfl
  have hy2 : y2.sram = (tileGet s5 i).sram := (advance_sram _ _ _).trans hy
  clear_value squashed now gone s5 y y2
  split
  · exact tileHalt_keeps (Keeps.tileKeep h5 hy)
  · exact Keeps.tileKeep h5 hy
  · split
    · exact Keeps.tileKeep h5 hy2
    · exact Keeps.tileKeep h5 hy2
    · exact Keeps.tileKeep h5 hy2

theorem slotDone_keeps {s0 : State} {s : State} {c : Ctx} {fx : SlotFx} (h : Keeps s0 s) :
    Keeps s0 (slotDone s c fx) := by
  unfold slotDone
  dsimp only
  repeat' first
    | with_reducible assumption
    | with_reducible refine trayEnd_keeps ?_
    | with_reducible refine Keeps.tileKeep ?_ rfl
    | with_reducible refine Keeps.ite (fun _ => ?_) (fun _ => ?_)

theorem runSlot_keeps {s0 : State} {s : State} {tile : Nat} {slot : Nat} {cls : SlotClass} {op : Nat} {f : State → Ctx → State × SlotFx} (hk1 : ∀ s (a0 : Ctx), Keeps s0 s → Keeps s0 (f s a0).1) (h : Keeps s0 s) :
    Keeps s0 (runSlot s tile slot cls op f) := by
  unfold runSlot
  dsimp only
  repeat' first
    | with_reducible assumption
    | with_reducible refine tileHalt_keeps ?_
    | with_reducible refine trayBegin_keeps ?_
    | with_reducible refine slotDone_keeps ?_
    | with_reducible refine hk1 _ _ ?_
    | with_reducible refine Keeps.ite (fun _ => ?_) (fun _ => ?_)

theorem pureSlot_keeps {s0 : State} {f : Ctx → SlotFx} {s : State} {c : Ctx} (h : Keeps s0 s) :
    Keeps s0 (pureSlot f s c).1 := by
  unfold pureSlot
  dsimp only
  with_reducible assumption

end Sys2Proof.Machine
end

