-- ==== Sys2Proof/Laws/KeepsPwm.lean ====
section
/-! SUPPORT. Each operation of Machine/Pwm.lean keeps what `Keeps` says. -/

namespace Sys2Proof.Machine

theorem pairSet_keeps {s0 : State} {s : State} {n : Nat} {x : PwmPair} (h : Keeps s0 s) :
    Keeps s0 (pairSet s n x) := by
  unfold pairSet
  dsimp only
  repeat' first
    | with_reducible assumption
    | fail_if_no_progress (with_reducible refine Keeps.upd0 ?_ rfl rfl rfl)

theorem setOutputs_keeps {s0 : State} {s : State} {n : Nat} {h2 : Bool} {l : Bool} (h : Keeps s0 s) :
    Keeps s0 (setOutputs s n h2 l) := by
  unfold setOutputs
  repeat' first
    | with_reducible assumption
    | with_reducible refine Keeps.fset ?_

theorem refChange_keeps {s0 : State} {s : State} {n : Nat} {h2 : Bool} {tick : Nat} (h : Keeps s0 s) :
    Keeps s0 (refChange s n h2 tick) := by
  unfold refChange
  dsimp only
  repeat' first
    | with_reducible assumption
    | with_reducible refine setOutputs_keeps ?_
    | with_reducible refine pairSet_keeps ?_
    | with_reducible refine Keeps.ite (fun _ => ?_) (fun _ => ?_)

theorem tripPads_keeps {s0 : State} {s : State} {n : Nat} (h : Keeps s0 s) :
    Keeps s0 (tripPads s n) := by
  unfold tripPads
  dsimp only
  repeat' first
    | with_reducible assumption
    | with_reducible refine setOutputs_keeps ?_
    | with_reducible refine pairSet_keeps ?_

theorem pairIdle_keeps {s0 : State} {s : State} {n : Nat} (h : Keeps s0 s) :
    Keeps s0 (pairIdle s n) := by
  unfold pairIdle
  dsimp only
  repeat' first
    | with_reducible assumption
    | with_reducible refine Keeps.fset ?_
    | with_reducible refine setOutputs_keeps ?_
    | with_reducible refine pairSet_keeps ?_

theorem setHolds_keeps {s0 : State} {s : State} {n : Nat} {holds : Nat} (h : Keeps s0 s) :
    Keeps s0 (setHolds s n holds) := by
  unfold setHolds
  dsimp only
  repeat' first
    | with_reducible assumption
    | with_reducible refine Keeps.fset ?_
    | with_reducible refine Keeps.fincSat ?_
    | with_reducible refine tripPads_keeps ?_
    | with_reducible refine pairSet_keeps ?_
    | with_reducible refine pageIrq_keeps ?_
    | with_reducible refine pairIdle_keeps ?_
    | with_reducible refine Keeps.ite (fun _ => ?_) (fun _ => ?_)

theorem refreshHolds_keeps {s0 : State} {s : State} (h : Keeps s0 s) :
    Keeps s0 (refreshHolds s) := by
  unfold refreshHolds
  repeat' first
    | with_reducible assumption
    | with_reducible refine setHolds_keeps ?_
    | with_reducible refine Keeps.each _ (fun _ _ _ => ?_) ?_

theorem stageWrite_keeps {s0 : State} {s : State} {n : Nat} {v : Nat} {tick : Nat} (h : Keeps s0 s) :
    Keeps s0 (stageWrite s n v tick) := by
  unfold stageWrite
  dsimp only
  repeat' first
    | with_reducible assumption
    | with_reducible refine pairSet_keeps ?_
    | with_reducible refine Keeps.fset ?_

theorem pairRejoin_keeps {s0 : State} {s : State} {n : Nat} (h : Keeps s0 s) :
    Keeps s0 (pairRejoin s n) := by
  unfold pairRejoin
  dsimp only
  repeat' first
    | with_reducible assumption
    | with_reducible refine markIn_keeps ?_
    | with_reducible refine Keeps.setReg ?_
    | with_reducible refine setHolds_keeps ?_
    | with_reducible refine Keeps.ite (fun _ => ?_) (fun _ => ?_)

theorem periodStart_keeps {s0 : State} {s : State} {n : Nat} {tick : Nat} (h : Keeps s0 s) :
    Keeps s0 (periodStart s n tick) := by
  unfold periodStart
  dsimp only
  repeat' first
    | with_reducible assumption
    | with_reducible refine pairRejoin_keeps ?_
    | with_reducible refine Keeps.fset ?_
    | with_reducible refine pairSet_keeps ?_
    | with_reducible refine refChange_keeps ?_
    | with_reducible refine setOutputs_keeps ?_
    | with_reducible refine pageIrq_keeps ?_
    | with_reducible refine pairIdle_keeps ?_
    | with_reducible refine Keeps.ite (fun _ => ?_) (fun _ => ?_)

theorem execPwmPeriodStart_keeps {s0 : State} {pair : Nat} {tick : Nat} {s : State} (h : Keeps s0 s) :
    ∀ t, (execPwmPeriodStart pair tick s) = .next t → Keeps s0 t := by
  unfold execPwmPeriodStart
  dsimp only
  intro t ht
  obtain rfl := Host.Outcome.next.inj ht
  clear ht
  repeat' first
    | with_reducible assumption
    | with_reducible refine Keeps.reach ?_
    | with_reducible refine periodStart_keeps ?_
    | with_reducible refine Keeps.ite (fun _ => ?_) (fun _ => ?_)

theorem execPwmCompareMatch_keeps {s0 : State} {pair : Nat} {tick : Nat} {s : State} (h : Keeps s0 s) :
    ∀ t, (execPwmCompareMatch pair tick s) = .next t → Keeps s0 t := by
  unfold execPwmCompareMatch
  dsimp only
  intro t ht
  obtain rfl := Host.Outcome.next.inj ht
  clear ht
  repeat' first
    | with_reducible assumption
    | with_reducible refine Keeps.reach ?_
    | with_reducible refine refChange_keeps ?_
    | with_reducible refine Keeps.ite (fun _ => ?_) (fun _ => ?_)
    | split

theorem execDeadTimeExpiry_keeps {s0 : State} {pair : Nat} {tick : Nat} {s : State} (h : Keeps s0 s) :
    ∀ t, (execDeadTimeExpiry pair tick s) = .next t → Keeps s0 t := by
  unfold execDeadTimeExpiry
  dsimp only
  intro t ht
  obtain rfl := Host.Outcome.next.inj ht
  clear ht
  repeat' first
    | with_reducible assumption
    | with_reducible refine Keeps.reach ?_
    | with_reducible refine pairSet_keeps ?_
    | with_reducible refine setOutputs_keeps ?_
    | with_reducible refine Keeps.ite (fun _ => ?_) (fun _ => ?_)
    | split

theorem pwmCmpWrite_keeps {s0 : State} {s : State} {n : Nat} {w : Word} (h : Keeps s0 s) :
    Keeps s0 (pwmCmpWrite s n w) := by
  unfold pwmCmpWrite
  dsimp only
  repeat' first
    | with_reducible assumption
    | with_reducible refine Keeps.fset ?_
    | with_reducible refine stageWrite_keeps ?_
    | with_reducible refine Keeps.ite (fun _ => ?_) (fun _ => ?_)

theorem pwmEnable_keeps {s0 : State} {s : State} {n : Nat} {on : Bool} (h : Keeps s0 s) :
    Keeps s0 (pwmEnable s n on) := by
  unfold pwmEnable
  dsimp only
  repeat' first
    | with_reducible assumption
    | with_reducible refine Keeps.fset ?_
    | with_reducible refine pairIdle_keeps ?_
    | with_reducible refine Keeps.ite (fun _ => ?_) (fun _ => ?_)

theorem pairTsChanged_keeps {s0 : State} {s : State} {old : Word} (h : Keeps s0 s) :
    Keeps s0 (pairTsChanged s old) := by
  unfold pairTsChanged
  dsimp only
  repeat' first
    | with_reducible assumption
    | with_reducible refine Keeps.fset ?_
    | with_reducible refine tripPads_keeps ?_
    | with_reducible refine Keeps.ite (fun _ => ?_) (fun _ => ?_)
    | with_reducible refine Keeps.each _ (fun _ _ _ => ?_) ?_

theorem tripLatch_keeps {s0 : State} {s : State} {n : Nat} (h : Keeps s0 s) :
    Keeps s0 (tripLatch s n) := by
  unfold tripLatch
  dsimp only
  repeat' first
    | with_reducible assumption
    | with_reducible refine Keeps.fset ?_
    | with_reducible refine Keeps.fincSat ?_
    | with_reducible refine refreshHolds_keeps ?_
    | with_reducible refine pageIrq_keeps ?_
    | with_reducible refine Keeps.ite (fun _ => ?_) (fun _ => ?_)

theorem execTripInputActive_keeps {s0 : State} {input : Nat} {tick : Nat} {s : State} (h : Keeps s0 s) :
    ∀ t, (execTripInputActive input tick s) = .next t → Keeps s0 t := by
  unfold execTripInputActive
  dsimp only
  intro t ht
  obtain rfl := Host.Outcome.next.inj ht
  clear ht
  repeat' first
    | with_reducible assumption
    | with_reducible refine Keeps.reach ?_
    | with_reducible refine Keeps.fset ?_
    | with_reducible refine tripLatch_keeps ?_
    | with_reducible refine Keeps.ite (fun _ => ?_) (fun _ => ?_)
    | fail_if_no_progress (with_reducible refine Keeps.upd0 ?_ rfl rfl rfl)

theorem execTripLatchSet_keeps {s0 : State} {input : Nat} {tick : Nat} {s : State} (h : Keeps s0 s) :
    ∀ t, (execTripLatchSet input tick s) = .next t → Keeps s0 t := by
  unfold execTripLatchSet
  dsimp only
  intro t ht
  obtain rfl := Host.Outcome.next.inj ht
  clear ht
  repeat' first
    | with_reducible assumption
    | with_reducible refine Keeps.reach ?_
    | with_reducible refine tripLatch_keeps ?_
    | with_reducible refine Keeps.ite (fun _ => ?_) (fun _ => ?_)
    | split

theorem tripClear_keeps {s0 : State} {s : State} {part : Nat} {bits : Nat} {raw : Nat} (h : Keeps s0 s) :
    Keeps s0 (tripClear s part bits raw) := by
  unfold tripClear
  dsimp only
  repeat' first
    | with_reducible assumption
    | with_reducible refine Keeps.fset ?_
    | with_reducible refine capture_keeps ?_
    | with_reducible refine refreshHolds_keeps ?_
    | with_reducible refine Keeps.ite (fun _ => ?_) (fun _ => ?_)
    | fail_if_no_progress (with_reducible refine Keeps.upd0 ?_ rfl rfl rfl)

theorem execTripClr_keeps {s0 : State} {part : Nat} {data : Word} {raw : BitVec 8} {s : State} (h : Keeps s0 s) :
    ∀ t, (execTripClr part data raw s) = .next t → Keeps s0 t := by
  unfold execTripClr
  intro t ht
  obtain rfl := Host.Outcome.next.inj ht
  clear ht
  repeat' first
    | with_reducible assumption
    | with_reducible refine pageWrite_keeps (fun s _ => ?_) ?_
    | with_reducible refine tripClear_keeps ?_

theorem tripForce_keeps {s0 : State} {s : State} {data : Word} (h : Keeps s0 s) :
    Keeps s0 (tripForce s data) := by
  unfold tripForce
  repeat' first
    | with_reducible assumption
    | with_reducible refine tripLatch_keeps ?_
    | with_reducible refine Keeps.each _ (fun _ _ _ => ?_) ?_

theorem execTripForce_keeps {s0 : State} {part : Nat} {data : Word} {s : State} (h : Keeps s0 s) :
    ∀ t, (execTripForce part data s) = .next t → Keeps s0 t := by
  unfold execTripForce
  intro t ht
  obtain rfl := Host.Outcome.next.inj ht
  clear ht
  repeat' first
    | with_reducible assumption
    | with_reducible refine pageWrite_keeps (fun s _ => ?_) ?_
    | with_reducible refine tripForce_keeps ?_

theorem stopRequest_keeps {s0 : State} {s : State} {src : Nat} {groups : Nat} {whole : Bool} (h : Keeps s0 s) :
    Keeps s0 (stopRequest s src groups whole) := by
  unfold stopRequest
  dsimp only
  repeat' first
    | with_reducible assumption
    | with_reducible refine Keeps.fset ?_
    | with_reducible refine Keeps.setReg ?_
    | with_reducible refine Keeps.setReg64 ?_
    | with_reducible refine pageIrq_keeps ?_
    | with_reducible refine refreshHolds_keeps ?_
    | with_reducible refine Keeps.ite (fun _ => ?_) (fun _ => ?_)

theorem wholeStop_keeps {s0 : State} {s : State} {src : Nat} (h : Keeps s0 s) :
    Keeps s0 (wholeStop s src) := by
  unfold wholeStop
  repeat' first
    | with_reducible assumption
    | with_reducible refine stopRequest_keeps ?_

theorem planStopRobot_keeps {s0 : State} {s : State} (h : Keeps s0 s) :
    Keeps s0 (planStopRobot s) := by
  unfold planStopRobot
  repeat' first
    | with_reducible assumption
    | with_reducible refine wholeStop_keeps ?_

theorem causeGone_keeps {s0 : State} {old s : State} (h : Keeps s0 s) :
    Keeps s0 (causeGone old s) := by
  unfold causeGone
  repeat' first
    | with_reducible assumption
    | with_reducible refine pageIrq_keeps ?_
    | with_reducible refine Keeps.ite (fun _ => ?_) (fun _ => ?_)

theorem levelActive_keeps {s0 : State} {s : State} {src : Nat} (h : Keeps s0 s) :
    Keeps s0 (levelActive s src) := by
  unfold levelActive
  dsimp only
  repeat' first
    | with_reducible assumption
    | with_reducible refine Keeps.fset ?_
    | with_reducible refine stopRequest_keeps ?_
    | with_reducible refine Keeps.ite (fun _ => ?_) (fun _ => ?_)

theorem levelInactive_keeps {s0 : State} {s : State} {src : Nat} (h : Keeps s0 s) :
    Keeps s0 (levelInactive s src) := by
  unfold levelInactive
  dsimp only
  repeat' first
    | with_reducible assumption
    | with_reducible refine causeGone_keeps ?_
    | with_reducible refine Keeps.fset ?_
    | with_reducible refine Keeps.ite (fun _ => ?_) (fun _ => ?_)

theorem execLoupeSourceActive_keeps {s0 : State} {src : Nat} {s : State} (h : Keeps s0 s) :
    ∀ t, (execLoupeSourceActive src s) = .next t → Keeps s0 t := by
  unfold execLoupeSourceActive
  intro t ht
  obtain rfl := Host.Outcome.next.inj ht
  clear ht
  repeat' first
    | with_reducible assumption
    | with_reducible refine levelActive_keeps ?_
    | with_reducible refine Keeps.ite (fun _ => ?_) (fun _ => ?_)

theorem execLoupeSourceInactive_keeps {s0 : State} {src : Nat} {s : State} (h : Keeps s0 s) :
    ∀ t, (execLoupeSourceInactive src s) = .next t → Keeps s0 t := by
  unfold execLoupeSourceInactive
  intro t ht
  obtain rfl := Host.Outcome.next.inj ht
  clear ht
  repeat' first
    | with_reducible assumption
    | with_reducible refine levelInactive_keeps ?_
    | with_reducible refine Keeps.ite (fun _ => ?_) (fun _ => ?_)

theorem wdtSet_keeps {s0 : State} {s : State} {st : Nat} (h : Keeps s0 s) :
    Keeps s0 (wdtSet s st) := by
  unfold wdtSet
  dsimp only
  repeat' first
    | with_reducible assumption
    | with_reducible refine Keeps.fset ?_
    | with_reducible refine levelActive_keeps ?_
    | with_reducible refine levelInactive_keeps ?_
    | with_reducible refine Keeps.ite (fun _ => ?_) (fun _ => ?_)
    | fail_if_no_progress (with_reducible refine Keeps.upd0 ?_ rfl rfl rfl)

theorem wdtExpire_keeps {s0 : State} {s : State} {why : Nat} {part : Nat} (h : Keeps s0 s) :
    Keeps s0 (wdtExpire s why part) := by
  unfold wdtExpire
  repeat' first
    | with_reducible assumption
    | with_reducible refine capture_keeps ?_
    | with_reducible refine wdtSet_keeps ?_

theorem wdtWait_keeps {s0 : State} {s : State} (h : Keeps s0 s) :
    Keeps s0 (wdtWait s) := by
  unfold wdtWait
  repeat' first
    | with_reducible assumption
    | with_reducible refine wdtSet_keeps ?_
    | with_reducible refine Keeps.ite (fun _ => ?_) (fun _ => ?_)

theorem wdtEnable_keeps {s0 : State} {s : State} {was : Bool} (h : Keeps s0 s) :
    Keeps s0 (wdtEnable s was) := by
  unfold wdtEnable
  dsimp only
  repeat' first
    | with_reducible assumption
    | with_reducible refine wdtSet_keeps ?_
    | with_reducible refine Keeps.ite (fun _ => ?_) (fun _ => ?_)

theorem wdtFed_keeps {s0 : State} {s : State} {part : Nat} {units : Nat} (h : Keeps s0 s) :
    Keeps s0 (wdtFed s part units) := by
  unfold wdtFed
  dsimp only
  repeat' first
    | with_reducible assumption
    | with_reducible refine wdtExpire_keeps ?_
    | with_reducible refine Keeps.fset ?_
    | with_reducible refine wdtSet_keeps ?_
    | with_reducible refine Keeps.ite (fun _ => ?_) (fun _ => ?_)

theorem wdtFeed_keeps {s0 : State} {s : State} {part : Nat} {value : Word} {units : Nat} (h : Keeps s0 s) :
    Keeps s0 (wdtFeed s part value units) := by
  unfold wdtFeed
  dsimp only
  repeat' first
    | with_reducible assumption
    | with_reducible refine wdtFed_keeps ?_
    | with_reducible refine wdtExpire_keeps ?_
    | with_reducible refine Keeps.ite (fun _ => ?_) (fun _ => ?_)
    | fail_if_no_progress (with_reducible refine Keeps.upd0 ?_ rfl rfl rfl)

theorem execLoupeWdtFeed_keeps {s0 : State} {part : Nat} {value : Word} {units : Nat} {s : State} (h : Keeps s0 s) :
    ∀ t, (execLoupeWdtFeed part value units s) = .next t → Keeps s0 t := by
  unfold execLoupeWdtFeed
  intro t ht
  obtain rfl := Host.Outcome.next.inj ht
  clear ht
  repeat' first
    | with_reducible assumption
    | with_reducible refine pageWrite_keeps (fun s _ => ?_) ?_
    | with_reducible refine wdtFeed_keeps ?_

theorem execWdtExpiry_keeps {s0 : State} {s : State} (h : Keeps s0 s) :
    ∀ t, (execWdtExpiry s) = .next t → Keeps s0 t := by
  unfold execWdtExpiry
  intro t ht
  obtain rfl := Host.Outcome.next.inj ht
  clear ht
  repeat' first
    | with_reducible assumption
    | with_reducible refine wdtExpire_keeps ?_
    | with_reducible refine Keeps.fset ?_
    | with_reducible refine Keeps.ite (fun _ => ?_) (fun _ => ?_)

theorem execWdtHalf_keeps {s0 : State} {s : State} (h : Keeps s0 s) :
    ∀ t, (execWdtHalf s) = .next t → Keeps s0 t := by
  unfold execWdtHalf
  intro t ht
  obtain rfl := Host.Outcome.next.inj ht
  clear ht
  repeat' first
    | with_reducible assumption
    | with_reducible refine pageIrq_keeps ?_
    | with_reducible refine Keeps.fset ?_
    | with_reducible refine Keeps.ite (fun _ => ?_) (fun _ => ?_)

theorem clearStops_keeps {s0 : State} {s : State} {groups : Nat} {recover : Bool} (h : Keeps s0 s) :
    Keeps s0 (clearStops s groups recover) := by
  unfold clearStops
  dsimp only
  repeat' first
    | with_reducible assumption
    | with_reducible refine causeGone_keeps ?_
    | with_reducible refine Keeps.fset ?_
    | with_reducible refine refreshHolds_keeps ?_
    | with_reducible refine pageIrq_keeps ?_
    | with_reducible refine Keeps.ite (fun _ => ?_) (fun _ => ?_)

theorem loupeClear_keeps {s0 : State} {s : State} {part : Nat} {data : Word} (h : Keeps s0 s) :
    Keeps s0 (loupeClear s part data) := by
  unfold loupeClear
  repeat' first
    | with_reducible assumption
    | with_reducible refine capture_keeps ?_
    | with_reducible refine clearStops_keeps ?_
    | with_reducible refine Keeps.ite (fun _ => ?_) (fun _ => ?_)
    | split

theorem execLoupeClear_keeps {s0 : State} {part : Nat} {data : Word} {s : State} (h : Keeps s0 s) :
    ∀ t, (execLoupeClear part data s) = .next t → Keeps s0 t := by
  unfold execLoupeClear
  intro t ht
  obtain rfl := Host.Outcome.next.inj ht
  clear ht
  repeat' first
    | with_reducible assumption
    | with_reducible refine pageWrite_keeps (fun s _ => ?_) ?_
    | with_reducible refine loupeClear_keeps ?_

theorem execRecoveryWindowEnd_keeps {s0 : State} {s : State} (h : Keeps s0 s) :
    ∀ t, (execRecoveryWindowEnd s) = .next t → Keeps s0 t := by
  unfold execRecoveryWindowEnd
  dsimp only
  intro t ht
  obtain rfl := Host.Outcome.next.inj ht
  clear ht
  repeat' first
    | with_reducible assumption
    | with_reducible refine causeGone_keeps ?_
    | with_reducible refine Keeps.setReg ?_
    | with_reducible refine stopRequest_keeps ?_
    | with_reducible refine Keeps.ite (fun _ => ?_) (fun _ => ?_)
    | with_reducible refine Keeps.each _ (fun _ _ _ => ?_) ?_

theorem loupeReq_keeps {s0 : State} {s : State} {data : Word} (h : Keeps s0 s) :
    Keeps s0 (loupeReq s data) := by
  unfold loupeReq
  repeat' first
    | with_reducible assumption
    | with_reducible refine stopRequest_keeps ?_
    | with_reducible refine Keeps.ite (fun _ => ?_) (fun _ => ?_)

theorem execLoupeReq_keeps {s0 : State} {part : Nat} {data : Word} {s : State} (h : Keeps s0 s) :
    ∀ t, (execLoupeReq part data s) = .next t → Keeps s0 t := by
  unfold execLoupeReq
  intro t ht
  obtain rfl := Host.Outcome.next.inj ht
  clear ht
  repeat' first
    | with_reducible assumption
    | with_reducible refine pageWrite_keeps (fun s _ => ?_) ?_
    | with_reducible refine loupeReq_keeps ?_

theorem loupeCauseClr_keeps {s0 : State} {s : State} {data : Word} (h : Keeps s0 s) :
    Keeps s0 (loupeCauseClr s data) := by
  unfold loupeCauseClr
  dsimp only
  repeat' first
    | with_reducible assumption
    | with_reducible refine Keeps.setReg ?_
    | with_reducible refine Keeps.ite (fun _ => ?_) (fun _ => ?_)

theorem execLoupeCauseClr_keeps {s0 : State} {part : Nat} {data : Word} {s : State} (h : Keeps s0 s) :
    ∀ t, (execLoupeCauseClr part data s) = .next t → Keeps s0 t := by
  unfold execLoupeCauseClr
  intro t ht
  obtain rfl := Host.Outcome.next.inj ht
  clear ht
  repeat' first
    | with_reducible assumption
    | with_reducible refine pageWrite_keeps (fun s _ => ?_) ?_
    | with_reducible refine loupeCauseClr_keeps ?_

theorem clearPage_keeps {s0 : State} {s : State} {p : Nat} (h : Keeps s0 s) :
    Keeps s0 (clearPage s p) := by
  unfold clearPage
  repeat' first
    | with_reducible assumption
    | fail_if_no_progress (with_reducible refine Keeps.regsFilter ?_)

theorem powerReturns_keeps {s0 : State} {s : State} (h : Keeps s0 s) :
    Keeps s0 (powerReturns s) := by
  unfold powerReturns
  exact h.trans ⟨rfl, rfl, rfl, rfl, List.suffix_refl _, le_refl _, fun _ => rfl⟩

theorem execLoupePowerOnReset_keeps {s0 : State} {s : State} (h : Keeps s0 s) :
    ∀ t, (execLoupePowerOnReset s) = .next t → Keeps s0 t := by
  unfold execLoupePowerOnReset
  dsimp only
  intro t ht
  obtain rfl := Host.Outcome.next.inj ht
  clear ht
  repeat' first
    | with_reducible assumption
    | with_reducible refine powerReturns_keeps ?_
    | with_reducible refine clearPage_keeps ?_
    | with_reducible refine refreshHolds_keeps ?_
    | with_reducible refine pairTsChanged_keeps ?_
    | with_reducible refine Keeps.setReg64 ?_
    | with_reducible refine Keeps.ite (fun _ => ?_) (fun _ => ?_)
    | fail_if_no_progress (with_reducible refine Keeps.upd0 ?_ rfl rfl rfl)

theorem execLoupeDead_keeps {s0 : State} {s : State} (h : Keeps s0 s) :
    ∀ t, (execLoupeDead s) = .next t → Keeps s0 t := by
  unfold execLoupeDead
  dsimp only
  intro t ht
  obtain rfl := Host.Outcome.next.inj ht
  clear ht
  repeat' first
    | with_reducible assumption
    | with_reducible refine Keeps.fset ?_
    | with_reducible refine refreshHolds_keeps ?_
    | with_reducible refine pageIrq_keeps ?_
    | with_reducible refine capture_keeps ?_
    | with_reducible refine Keeps.ite (fun _ => ?_) (fun _ => ?_)
    | fail_if_no_progress (with_reducible refine Keeps.upd0 ?_ rfl rfl rfl)

theorem execLoupeAliveRestore_keeps {s0 : State} {s : State} (h : Keeps s0 s) :
    ∀ t, (execLoupeAliveRestore s) = .next t → Keeps s0 t := by
  unfold execLoupeAliveRestore
  intro t ht
  obtain rfl := Host.Outcome.next.inj ht
  clear ht
  repeat' first
    | with_reducible assumption
    | with_reducible refine refreshHolds_keeps ?_
    | with_reducible refine Keeps.fset ?_
    | with_reducible refine Keeps.ite (fun _ => ?_) (fun _ => ?_)

theorem execVioSafeLoss_keeps {s0 : State} {s : State} (h : Keeps s0 s) :
    ∀ t, (execVioSafeLoss s) = .next t → Keeps s0 t := by
  unfold execVioSafeLoss
  dsimp only
  intro t ht
  obtain rfl := Host.Outcome.next.inj ht
  clear ht
  repeat' first
    | with_reducible assumption
    | fail_if_no_progress (with_reducible refine Keeps.upd0 ?_ rfl rfl rfl)

theorem spiAnswer_keeps {s0 : State} {s : State} {offset : Nat} {data : Word} {bad : Bool} (h : Keeps s0 s) :
    Keeps s0 (spiAnswer s offset data bad) := by
  unfold spiAnswer
  dsimp only
  repeat' first
    | with_reducible assumption
    | fail_if_no_progress (with_reducible refine Keeps.upd0 ?_ rfl rfl rfl)

theorem spiIgnored_keeps {s0 : State} {s : State} {frame : BitVec 64} (h : Keeps s0 s) :
    Keeps s0 (spiIgnored s frame) := by
  unfold spiIgnored
  repeat' first
    | with_reducible assumption
    | with_reducible refine capture_keeps ?_
    | with_reducible refine spiAnswer_keeps ?_

theorem execSpiRead_keeps {s0 : State} {frame : BitVec 64} {clocks : Nat} {s : State} (h : Keeps s0 s) :
    ∀ t, (execSpiRead frame clocks s) = .next t → Keeps s0 t := by
  unfold execSpiRead
  dsimp only
  intro t ht
  obtain rfl := Host.Outcome.next.inj ht
  clear ht
  repeat' first
    | with_reducible assumption
    | with_reducible refine spiAnswer_keeps ?_
    | with_reducible refine spiIgnored_keeps ?_
    | with_reducible refine Keeps.ite (fun _ => ?_) (fun _ => ?_)

theorem execSpiStop_keeps {s0 : State} {frame : BitVec 64} {clocks : Nat} {s : State} (h : Keeps s0 s) :
    ∀ t, (execSpiStop frame clocks s) = .next t → Keeps s0 t := by
  unfold execSpiStop
  dsimp only
  intro t ht
  obtain rfl := Host.Outcome.next.inj ht
  clear ht
  repeat' first
    | with_reducible assumption
    | with_reducible refine Keeps.fset ?_
    | with_reducible refine spiAnswer_keeps ?_
    | with_reducible refine wholeStop_keeps ?_
    | with_reducible refine spiIgnored_keeps ?_
    | with_reducible refine Keeps.ite (fun _ => ?_) (fun _ => ?_)

theorem execSpiRelease_keeps {s0 : State} {frame : BitVec 64} {clocks : Nat} {s : State} (h : Keeps s0 s) :
    ∀ t, (execSpiRelease frame clocks s) = .next t → Keeps s0 t := by
  unfold execSpiRelease
  intro t ht
  obtain rfl := Host.Outcome.next.inj ht
  clear ht
  repeat' first
    | with_reducible assumption
    | with_reducible refine spiAnswer_keeps ?_
    | with_reducible refine levelInactive_keeps ?_
    | with_reducible refine Keeps.fset ?_
    | with_reducible refine spiIgnored_keeps ?_
    | with_reducible refine Keeps.ite (fun _ => ?_) (fun _ => ?_)

end Sys2Proof.Machine
end

