-- ==== Sys2Proof/Laws/KeepsLink.lean ====
section
/-! SUPPORT. Each operation of Machine/Link.lean keeps what `Keeps` says. -/

namespace Sys2Proof.Machine

theorem portSet_keeps {s0 : State} {s : State} {p : Nat} {x : LinkPort} (h : Keeps s0 s) :
    Keeps s0 (portSet s p x) := by
  unfold portSet
  dsimp only
  repeat' first
    | with_reducible assumption
    | fail_if_no_progress (with_reducible refine Keeps.upd0 ?_ rfl rfl rfl)

theorem portMod_keeps {s0 : State} {s : State} {p : Nat} {f : LinkPort → LinkPort} (h : Keeps s0 s) :
    Keeps s0 (portMod s p f) := by
  unfold portMod
  repeat' first
    | with_reducible assumption
    | with_reducible refine portSet_keeps ?_

theorem linkStat_keeps {s0 : State} {s : State} {p : Nat} {f : Fld} {v : Nat} (h : Keeps s0 s) :
    Keeps s0 (linkStat s p f v) := by
  unfold linkStat
  repeat' first
    | with_reducible assumption
    | with_reducible refine Keeps.fset ?_

theorem linkCount_keeps {s0 : State} {s : State} {p : Nat} {k : Nat} (h : Keeps s0 s) :
    Keeps s0 (linkCount s p k) := by
  unfold linkCount
  repeat' first
    | with_reducible assumption
    | with_reducible refine Keeps.fincSat ?_

theorem linkGlobal_keeps {s0 : State} {s : State} {f : Fld} {p : Nat} {on : Bool} (h : Keeps s0 s) :
    Keeps s0 (linkGlobal s f p on) := by
  unfold linkGlobal
  repeat' first
    | with_reducible assumption
    | with_reducible refine Keeps.fset ?_

theorem linkSend_keeps {s0 : State} {s : State} {p : Nat} {f : LinkFrame} {start : Nat} {item : optParam TxItem TxItem.none} {n : optParam Nat 1} (h : Keeps s0 s) :
    Keeps s0 (linkSend s p f start item n) := by
  unfold linkSend
  dsimp only
  repeat' first
    | with_reducible assumption
    | with_reducible refine portMod_keeps ?_
    | with_reducible refine Keeps.fincSat ?_
    | with_reducible refine Keeps.ite (fun _ => ?_) (fun _ => ?_)

theorem sendHalt_keeps {s0 : State} {s : State} {p : Nat} {cause : Nat} {sync : Bool} {start : Nat} {n : optParam Nat 1} (h : Keeps s0 s) :
    Keeps s0 (sendHalt s p cause sync start n) := by
  unfold sendHalt
  dsimp only
  repeat' first
    | with_reducible assumption
    | with_reducible refine linkSend_keeps ?_
    | with_reducible refine portSet_keeps ?_

theorem haltFillIn_keeps {s0 : State} (k : Nat) {s : State} {p upto : Nat} (h : Keeps s0 s) : Keeps s0 (haltFillIn k s p upto) := by
  induction k generalizing s with
  | zero => exact h
  | succ k ih => exact Keeps.ite (fun _ => ih (sendHalt_keeps h)) fun _ => h

theorem haltFill_keeps {s0 : State} {s : State} {p : Nat} {upto : Nat} (h : Keeps s0 s) :
    Keeps s0 (haltFill s p upto) := by
  unfold haltFill
  exact Keeps.ite (fun _ => haltFillIn_keeps _ h) fun _ => h

theorem abandonFrame_keeps {s0 : State} {s : State} {p : Nat} {tick : Nat} (h : Keeps s0 s) :
    Keeps s0 (abandonFrame s p tick) := by
  unfold abandonFrame
  dsimp only
  repeat' first
    | with_reducible assumption
    | with_reducible refine Keeps.fset ?_
    | with_reducible refine portSet_keeps ?_
    | with_reducible refine Keeps.ite (fun _ => ?_) (fun _ => ?_)
    | split

theorem haltNow_keeps {s0 : State} {s : State} {p : Nat} (h : Keeps s0 s) : Keeps s0 (haltNow s p) := haltFill_keeps h

theorem setHalts_keeps {s0 : State} {s : State} {p : Nat} {loupe : Bool} {dead : Bool} (h : Keeps s0 s) :
    Keeps s0 (setHalts s p loupe dead) := by
  unfold setHalts
  dsimp only
  repeat' first
    | with_reducible assumption
    | with_reducible refine portMod_keeps ?_
    | with_reducible refine haltNow_keeps ?_
    | with_reducible refine linkStat_keeps ?_
    | with_reducible refine linkGlobal_keeps ?_

end Sys2Proof.Machine
end

