-- ==== Sys2Proof/Laws/KeepsMbx.lean ====
section
/-! SUPPORT. Each operation of Machine/Mbx.lean keeps what `Keeps` says. -/

namespace Sys2Proof.Machine

theorem sessSet_keeps {s0 : State} {s : State} {p : Nat} {c : Nat} {x : Session} (h : Keeps s0 s) :
    Keeps s0 (sessSet s p c x) := by
  unfold sessSet
  repeat' first
    | with_reducible assumption
    | with_reducible refine portMod_keeps ?_

theorem sessMod_keeps {s0 : State} {s : State} {p : Nat} {c : Nat} {f : Session → Session} (h : Keeps s0 s) :
    Keeps s0 (sessMod s p c f) := by
  unfold sessMod
  repeat' first
    | with_reducible assumption
    | with_reducible refine sessSet_keeps ?_

theorem mbxShow_keeps {s0 : State} {s : State} {p : Nat} {c : Nat} (h : Keeps s0 s) :
    Keeps s0 (mbxShow s p c) := by
  unfold mbxShow
  dsimp only
  repeat' first
    | with_reducible assumption
    | with_reducible refine Keeps.setReg ?_

theorem wasteCount_keeps {s0 : State} {s : State} {p : Nat} {k : Nat} (h : Keeps s0 s) :
    Keeps s0 (wasteCount s p k) := by
  unfold wasteCount
  dsimp only
  repeat' first
    | with_reducible assumption
    | with_reducible refine Keeps.fincSat ?_

theorem feedSends_keeps {s0 : State} {s : State} {p : Nat} {c : Nat} (h : Keeps s0 s) :
    Keeps s0 (feedSends s p c) := by
  unfold feedSends
  repeat' first
    | with_reducible assumption
    | with_reducible refine sessMod_keeps ?_

theorem fwEnded_keeps {s0 : State} {s : State} {f : FwRun} {status : Nat} (h : Keeps s0 s) :
    Keeps s0 (fwEnded s f status) := by
  unfold fwEnded
  repeat' first
    | with_reducible assumption
    | with_reducible refine jobDone_keeps ?_

theorem endJobs_keeps {s0 : State} {s : State} {x : Session} {status : Nat} {closeStatus : Nat} (h : Keeps s0 s) :
    Keeps s0 (endJobs s x status closeStatus) := by
  unfold endJobs
  dsimp only
  repeat' first
    | with_reducible assumption
    | with_reducible refine jobDone_keeps ?_
    | with_reducible refine fwEnded_keeps ?_
    | with_reducible refine Keeps.each _ (fun _ _ _ => ?_) ?_
    | split

theorem sessClose_keeps {s0 : State} {s : State} {p : Nat} {c : Nat} {status : Nat} {closeStatus : Nat} (h : Keeps s0 s) :
    Keeps s0 (sessClose s p c status closeStatus) := by
  unfold sessClose
  dsimp only
  repeat' first
    | with_reducible assumption
    | with_reducible refine mbxShow_keeps ?_
    | with_reducible refine sessSet_keeps ?_
    | with_reducible refine endJobs_keeps ?_
    | with_reducible refine Keeps.ite (fun _ => ?_) (fun _ => ?_)

theorem ctlPush_keeps {s0 : State} {s : State} {p : Nat} {c : CtlFrame} (h : Keeps s0 s) :
    Keeps s0 (ctlPush s p c) := by
  unfold ctlPush
  repeat' first
    | with_reducible assumption
    | with_reducible refine portMod_keeps ?_

theorem ctlDrop_keeps {s0 : State} {s : State} {p : Nat} {c : Nat} (h : Keeps s0 s) :
    Keeps s0 (ctlDrop s p c) := by
  unfold ctlDrop
  repeat' first
    | with_reducible assumption
    | with_reducible refine portMod_keeps ?_

theorem deviceAbort_keeps {s0 : State} {s : State} {p : Nat} {c : Nat} {status : Nat} {owner : optParam (Option Nat) none} (h : Keeps s0 s) :
    Keeps s0 (deviceAbort s p c status owner) := by
  unfold deviceAbort
  dsimp only
  repeat' first
    | with_reducible assumption
    | with_reducible refine ctlPush_keeps ?_
    | with_reducible refine ctlDrop_keeps ?_
    | with_reducible refine sessClose_keeps ?_
    | with_reducible refine Keeps.ite (fun _ => ?_) (fun _ => ?_)

theorem sessionsEnd_keeps {s0 : State} {s : State} {p : Nat} (h : Keeps s0 s) :
    Keeps s0 (sessionsEnd s p) := by
  unfold sessionsEnd
  dsimp only
  repeat' first
    | with_reducible assumption
    | with_reducible refine sessClose_keeps ?_
    | with_reducible refine jobDone_keeps ?_
    | with_reducible refine portMod_keeps ?_
    | with_reducible refine Keeps.each _ (fun _ _ _ => ?_) ?_
    | split

theorem takeData_keeps {s0 : State} {s : State} {p : Nat} {c : Nat} {g : RxFrag} (h : Keeps s0 s) :
    Keeps s0 (takeData s p c g) := by
  unfold takeData
  dsimp only
  repeat' first
    | with_reducible assumption
    | with_reducible refine sessSet_keeps ?_
    | with_reducible refine Keeps.hostSend ?_
    | with_reducible refine Keeps.fincSat ?_
    | with_reducible refine jobDone_keeps ?_
    | with_reducible refine Keeps.ite (fun _ => ?_) (fun _ => ?_)
    | split

theorem rejectResult_keeps {s0 : State} {s : State} {high : Nat} (h : Keeps s0 s) :
    Keeps s0 (rejectResult s high).2 := by
  unfold rejectResult
  dsimp only
  repeat' first
    | with_reducible assumption
    | with_reducible refine Keeps.free ?_

theorem fwFail_keeps {s0 : State} {s : State} {p : Nat} {c : Nat} {status : Nat} {result : Nat} (h : Keeps s0 s) :
    Keeps s0 (fwFail s p c status result) := by
  unfold fwFail
  dsimp only
  repeat' first
    | with_reducible assumption
    | with_reducible refine jobDone_keeps ?_
    | with_reducible refine deviceAbort_keeps ?_
    | with_reducible refine sessMod_keeps ?_
    | split

theorem fwQueue_keeps {s0 : State} {s : State} {p : Nat} {c : Nat} {f : FwRun} {d : List Byte} (h : Keeps s0 s) :
    Keeps s0 (fwQueue s p c f d) := by
  unfold fwQueue
  repeat' first
    | with_reducible assumption
    | with_reducible refine sessMod_keeps ?_

theorem fwReply_keeps {s0 : State} {s : State} {p : Nat} {c : Nat} {f : FwRun} {d : List Byte} (h : Keeps s0 s) :
    Keeps s0 (fwReply s p c f d) := by
  unfold fwReply
  dsimp only
  repeat' first
    | with_reducible assumption
    | with_reducible refine rejectResult_keeps ?_
    | with_reducible refine fwFail_keeps ?_
    | with_reducible refine jobSet_keeps ?_
    | with_reducible refine sessMod_keeps ?_
    | with_reducible refine fwQueue_keeps ?_
    | with_reducible refine portMod_keeps ?_
    | with_reducible refine Keeps.ite (fun _ => ?_) (fun _ => ?_)
    | split

theorem fwFragment_keeps {s0 : State} {s : State} {p : Nat} {c : Nat} {f : FwRun} {g : RxFrag} (h : Keeps s0 s) :
    Keeps s0 (fwFragment s p c f g) := by
  unfold fwFragment
  dsimp only
  repeat' first
    | with_reducible assumption
    | with_reducible refine fwReply_keeps ?_
    | with_reducible refine rejectResult_keeps ?_
    | with_reducible refine fwFail_keeps ?_
    | with_reducible refine Keeps.ite (fun _ => ?_) (fun _ => ?_)

theorem deliverOne_keeps {s0 : State} {s : State} {p : Nat} {c : Nat} {g : RxFrag} (h : Keeps s0 s) :
    ∀ t, (deliverOne s p c g) = some t → Keeps s0 t := by
  unfold deliverOne
  dsimp only
  repeat' first
    | with_reducible refine Keeps.optSome ?_
    | with_reducible exact Keeps.optNone
    | with_reducible refine Keeps.optIte (fun _ => ?_) (fun _ => ?_)
    | with_reducible assumption
    | with_reducible refine wasteCount_keeps ?_
    | with_reducible refine sessSet_keeps ?_
    | with_reducible refine fwFragment_keeps ?_
    | with_reducible refine jobDone_keeps ?_
    | with_reducible refine takeData_keeps ?_
    | split

theorem deliverFrom_keeps {s0 : State} {x0 : Nat} {x1 : State} {x2 : Nat} {x3 : Nat} (h : Keeps s0 x1) :
    Keeps s0 (deliverFrom x0 x1 x2 x3) := by
  induction x0 generalizing x1 x2 x3 with
  | zero =>
    unfold deliverFrom
    with_reducible assumption
  | succ n ih =>
    unfold deliverFrom
    dsimp only
    repeat' first
      | with_reducible assumption
      | with_reducible refine ih ?_
      | with_reducible refine deliverOne_keeps ?_
      | with_reducible refine Keeps.ite (fun _ => ?_) (fun _ => ?_)
      | with_reducible refine Keeps.of_opt (by assumption) ?_
      | split

theorem deliver_keeps {s0 : State} {s : State} {p : Nat} {c : Nat} (h : Keeps s0 s) :
    Keeps s0 (deliver s p c) := by
  unfold deliver
  dsimp only
  repeat' first
    | with_reducible assumption
    | with_reducible refine deliverFrom_keeps ?_
    | with_reducible refine sessMod_keeps ?_
    | with_reducible refine Keeps.ite (fun _ => ?_) (fun _ => ?_)

theorem fwChunksDone_keeps {s0 : State} {s : State} {p : Nat} {c : Nat} (h : Keeps s0 s) :
    Keeps s0 (fwChunksDone s p c) := by
  unfold fwChunksDone
  dsimp only
  repeat' first
    | with_reducible assumption
    | with_reducible refine fwQueue_keeps ?_
    | with_reducible refine fwFail_keeps ?_
    | with_reducible refine Keeps.ite (fun _ => ?_) (fun _ => ?_)
    | split

theorem drainCheck_keeps {s0 : State} {s : State} {p : Nat} {c : Nat} (h : Keeps s0 s) :
    Keeps s0 (drainCheck s p c) := by
  unfold drainCheck
  dsimp only
  repeat' first
    | with_reducible assumption
    | with_reducible refine jobDone_keeps ?_
    | with_reducible refine sessSet_keeps ?_
    | with_reducible refine ctlPush_keeps ?_
    | with_reducible refine Keeps.ite (fun _ => ?_) (fun _ => ?_)
    | split

theorem probeCheck_keeps {s0 : State} {s : State} {p : Nat} {c : Nat} (h : Keeps s0 s) :
    Keeps s0 (probeCheck s p c) := by
  unfold probeCheck
  dsimp only
  repeat' first
    | with_reducible assumption
    | with_reducible refine sessSet_keeps ?_
    | with_reducible refine Keeps.ite (fun _ => ?_) (fun _ => ?_)

theorem mbxSettle_keeps {s0 : State} {s : State} {p : Nat} {c : Nat} (h : Keeps s0 s) :
    Keeps s0 (mbxSettle s p c) := by
  unfold mbxSettle
  repeat' first
    | with_reducible assumption
    | with_reducible refine mbxShow_keeps ?_
    | with_reducible refine probeCheck_keeps ?_
    | with_reducible refine drainCheck_keeps ?_
    | with_reducible refine fwChunksDone_keeps ?_
    | with_reducible refine deliver_keeps ?_
    | with_reducible refine feedSends_keeps ?_

theorem ackFirst_keeps {s0 : State} {x0 : Nat} {x1 : State} {x2 : Nat} {x3 : Nat} (h : Keeps s0 x1) :
    Keeps s0 (ackFirst x0 x1 x2 x3) := by
  induction x0 generalizing x1 x2 x3 with
  | zero =>
    unfold ackFirst
    with_reducible assumption
  | succ n ih =>
    unfold ackFirst
    dsimp only
    repeat' first
      | with_reducible assumption
      | with_reducible refine ih ?_
      | with_reducible refine jobSet_keeps ?_
      | with_reducible refine jobDone_keeps ?_
      | with_reducible refine sessSet_keeps ?_
      | with_reducible refine sessMod_keeps ?_
      | with_reducible refine Keeps.ite (fun _ => ?_) (fun _ => ?_)
      | split

theorem takeAck_keeps {s0 : State} {s : State} {p : Nat} {c : Nat} {ackn : Nat} {sack : Nat} (h : Keeps s0 s) :
    Keeps s0 (takeAck s p c ackn sack) := by
  unfold takeAck
  dsimp only
  repeat' first
    | with_reducible assumption
    | with_reducible refine ackFirst_keeps ?_
    | with_reducible refine sessMod_keeps ?_
    | with_reducible refine Keeps.ite (fun _ => ?_) (fun _ => ?_)

end Sys2Proof.Machine
end

