-- ==== Sys2Proof/Laws/KeepsTime.lean ====
section
/-! SUPPORT. Each operation of Machine/Time.lean keeps what `Keeps` says. -/

namespace Sys2Proof.Machine

theorem timeSet_keeps {s0 : State} {s : State} {t : TimeSt} (h : Keeps s0 s) :
    Keeps s0 (timeSet s t) := by
  unfold timeSet
  repeat' first
    | with_reducible assumption
    | fail_if_no_progress (with_reducible refine Keeps.upd0 ?_ rfl rfl rfl)

theorem ptbNowRead_keeps {s0 : State} {s : State} {part : Nat} (h : Keeps s0 s) :
    Keeps s0 (ptbNowRead s part).2 := by
  unfold ptbNowRead
  dsimp only
  repeat' first
    | with_reducible assumption
    | with_reducible refine timeSet_keeps ?_

theorem ptbBpnRead_keeps {s0 : State} {s : State} {part : Nat} (h : Keeps s0 s) :
    Keeps s0 (ptbBpnRead s part).2 := by
  unfold ptbBpnRead
  dsimp only
  repeat' first
    | with_reducible assumption
    | with_reducible refine timeSet_keeps ?_

theorem execPtbNowRead_keeps {s0 : State} {part : Nat} {s : State} (h : Keeps s0 s) :
    ∀ t, (execPtbNowRead part s) = .next t → Keeps s0 t := by
  unfold execPtbNowRead
  intro t ht
  obtain rfl := Host.Outcome.next.inj ht
  clear ht
  repeat' first
    | with_reducible assumption
    | with_reducible refine pageRead_keeps (fun s _ => ?_) ?_
    | with_reducible refine ptbNowRead_keeps ?_

theorem execPtbBpnRead_keeps {s0 : State} {part : Nat} {s : State} (h : Keeps s0 s) :
    ∀ t, (execPtbBpnRead part s) = .next t → Keeps s0 t := by
  unfold execPtbBpnRead
  intro t ht
  obtain rfl := Host.Outcome.next.inj ht
  clear ht
  repeat' first
    | with_reducible assumption
    | with_reducible refine pageRead_keeps (fun s _ => ?_) ?_
    | with_reducible refine ptbBpnRead_keeps ?_

theorem basePeriodStart_keeps {s0 : State} {s : State} (h : Keeps s0 s) :
    Keeps s0 (basePeriodStart s) := by
  unfold basePeriodStart
  dsimp only
  repeat' first
    | with_reducible assumption
    | with_reducible refine Keeps.reach ?_
    | with_reducible refine timeSet_keeps ?_

theorem execMarkerArrival_keeps {s0 : State} {island : Nat} {delay : Nat} {s : State} (h : Keeps s0 s) :
    ∀ t, (execMarkerArrival island delay s) = .next t → Keeps s0 t := by
  unfold execMarkerArrival
  dsimp only
  intro t ht
  obtain rfl := Host.Outcome.next.inj ht
  clear ht
  repeat' first
    | with_reducible assumption
    | with_reducible refine Keeps.reach ?_
    | with_reducible refine timeSet_keeps ?_
    | with_reducible refine capture_keeps ?_
    | with_reducible refine Keeps.ite (fun _ => ?_) (fun _ => ?_)

theorem syncLost_keeps {s0 : State} {s : State} (h : Keeps s0 s) :
    Keeps s0 (syncLost s) := by
  unfold syncLost
  repeat' first
    | with_reducible assumption
    | with_reducible refine pageIrq_keeps ?_
    | with_reducible refine Keeps.fincSat ?_
    | with_reducible refine capture_keeps ?_

theorem execSyncPulseIn_keeps {s0 : State} {tick : Nat} {s : State} (h : Keeps s0 s) :
    ∀ t, (execSyncPulseIn tick s) = .next t → Keeps s0 t := by
  unfold execSyncPulseIn
  dsimp only
  intro t ht
  obtain rfl := Host.Outcome.next.inj ht
  clear ht
  repeat' first
    | with_reducible assumption
    | with_reducible refine Keeps.reach ?_
    | with_reducible refine Keeps.fset ?_
    | with_reducible refine timeSet_keeps ?_
    | with_reducible refine syncLost_keeps ?_
    | with_reducible refine Keeps.ite (fun _ => ?_) (fun _ => ?_)

theorem execSyncPulseMissing_keeps {s0 : State} {s : State} (h : Keeps s0 s) :
    ∀ t, (execSyncPulseMissing s) = .next t → Keeps s0 t := by
  unfold execSyncPulseMissing
  dsimp only
  intro t ht
  obtain rfl := Host.Outcome.next.inj ht
  clear ht
  repeat' first
    | with_reducible assumption
    | with_reducible refine syncLost_keeps ?_
    | with_reducible refine Keeps.reach ?_
    | with_reducible refine Keeps.ite (fun _ => ?_) (fun _ => ?_)

theorem execCrossingArrival_keeps {s0 : State} {page : Nat} {idx : Nat} {data : Datum} {tick : Nat} {s : State} (h : Keeps s0 s) :
    ∀ t, (execCrossingArrival page idx data tick s) = .next t → Keeps s0 t := by
  unfold execCrossingArrival
  dsimp only
  intro t ht
  obtain rfl := Host.Outcome.next.inj ht
  clear ht
  repeat' first
    | with_reducible assumption
    | with_reducible refine Keeps.reach ?_
    | with_reducible refine timeSet_keeps ?_
    | with_reducible refine Keeps.ite (fun _ => ?_) (fun _ => ?_)
    | split

theorem execScheduledCycle_keeps {s0 : State} {page : Nat} {idx : Nat} {src : Option Nat} {s : State} (h : Keeps s0 s) :
    ∀ t, (execScheduledCycle page idx src s) = .next t → Keeps s0 t := by
  unfold execScheduledCycle
  dsimp only
  intro t ht
  obtain rfl := Host.Outcome.next.inj ht
  clear ht
  repeat' first
    | with_reducible assumption
    | with_reducible refine timeSet_keeps ?_
    | with_reducible refine capture_keeps ?_
    | with_reducible refine Keeps.ite (fun _ => ?_) (fun _ => ?_)
    | split

theorem relSet_keeps {s0 : State} {s : State} {r : Nat} {x : RelReg} (h : Keeps s0 s) :
    Keeps s0 (relSet s r x) := by
  unfold relSet
  dsimp only
  repeat' first
    | with_reducible assumption
    | with_reducible refine timeSet_keeps ?_

theorem relCapture_keeps {s0 : State} {s : State} {r : Nat} {code : Nat} (h : Keeps s0 s) :
    Keeps s0 (relCapture s r code) := by
  unfold relCapture
  dsimp only
  repeat' first
    | with_reducible assumption
    | with_reducible refine capture_keeps ?_

theorem execDeliveryComplete_keeps {s0 : State} {n : Nat} {tick : Nat} {s : State} (h : Keeps s0 s) :
    ∀ t, (execDeliveryComplete n tick s) = .next t → Keeps s0 t := by
  unfold execDeliveryComplete
  dsimp only
  intro t ht
  obtain rfl := Host.Outcome.next.inj ht
  clear ht
  repeat' first
    | with_reducible assumption
    | with_reducible refine Keeps.reach ?_
    | with_reducible refine timeSet_keeps ?_
    | with_reducible refine relSet_keeps ?_
    | with_reducible refine relCapture_keeps ?_
    | with_reducible refine Keeps.ite (fun _ => ?_) (fun _ => ?_)
    | fail_if_no_progress (with_reducible refine Keeps.upd0 ?_ rfl rfl rfl)
    | split

theorem execCutTick_keeps {s0 : State} {reg : Nat} {tick : Nat} {s : State} (h : Keeps s0 s) :
    ∀ t, (execCutTick reg tick s) = .next t → Keeps s0 t := by
  unfold execCutTick
  dsimp only
  intro t ht
  obtain rfl := Host.Outcome.next.inj ht
  clear ht
  repeat' first
    | with_reducible assumption
    | with_reducible refine Keeps.reach ?_
    | with_reducible refine relSet_keeps ?_
    | with_reducible refine relCapture_keeps ?_
    | with_reducible refine Keeps.ite (fun _ => ?_) (fun _ => ?_)
    | split

theorem execReleaseTick_keeps {s0 : State} {reg : Nat} {tick : Nat} {s : State} (h : Keeps s0 s) :
    ∀ t, (execReleaseTick reg tick s) = .next t → Keeps s0 t := by
  unfold execReleaseTick
  dsimp only
  intro t ht
  obtain rfl := Host.Outcome.next.inj ht
  clear ht
  repeat' first
    | with_reducible assumption
    | with_reducible refine Keeps.reach ?_
    | with_reducible refine relSet_keeps ?_
    | with_reducible refine Keeps.ite (fun _ => ?_) (fun _ => ?_)
    | split

theorem execMirrorRefresh_keeps {s0 : State} {s : State} (h : Keeps s0 s) :
    ∀ t, (execMirrorRefresh s) = .next t → Keeps s0 t := by
  unfold execMirrorRefresh
  dsimp only
  intro t ht
  obtain rfl := Host.Outcome.next.inj ht
  clear ht
  repeat' first
    | with_reducible assumption
    | with_reducible refine Keeps.reach ?_
    | with_reducible refine timeSet_keeps ?_
    | with_reducible refine Keeps.ite (fun _ => ?_) (fun _ => ?_)
    | split

theorem phaseSet_keeps {s0 : State} {s : State} {ch : Nat} {x : ChanPhase} (h : Keeps s0 s) :
    Keeps s0 (phaseSet s ch x) := by
  unfold phaseSet
  dsimp only
  repeat' first
    | with_reducible assumption
    | with_reducible refine timeSet_keeps ?_

theorem execGuardStart_keeps {s0 : State} {chan : Nat} {win : Nat} {s : State} (h : Keeps s0 s) :
    ∀ t, (execGuardStart chan win s) = .next t → Keeps s0 t := by
  unfold execGuardStart
  dsimp only
  intro t ht
  obtain rfl := Host.Outcome.next.inj ht
  clear ht
  repeat' first
    | with_reducible assumption
    | with_reducible refine Keeps.reach ?_
    | with_reducible refine phaseSet_keeps ?_
    | with_reducible refine Keeps.ite (fun _ => ?_) (fun _ => ?_)

theorem execWindowEnd_keeps {s0 : State} {chan : Nat} {win : Nat} {s : State} (h : Keeps s0 s) :
    ∀ t, (execWindowEnd chan win s) = .next t → Keeps s0 t := by
  unfold execWindowEnd
  dsimp only
  intro t ht
  obtain rfl := Host.Outcome.next.inj ht
  clear ht
  repeat' first
    | with_reducible assumption
    | with_reducible refine phaseSet_keeps ?_
    | with_reducible refine Keeps.reach ?_
    | with_reducible refine Keeps.ite (fun _ => ?_) (fun _ => ?_)

theorem execRefresh_keeps {s0 : State} {chan : Nat} {op : RefreshOp} {s : State} (h : Keeps s0 s) :
    ∀ t, (execRefresh chan op s) = .next t → Keeps s0 t := by
  unfold execRefresh
  dsimp only
  intro t ht
  obtain rfl := Host.Outcome.next.inj ht
  clear ht
  repeat' first
    | with_reducible assumption
    | with_reducible refine phaseSet_keeps ?_
    | with_reducible refine Keeps.ite (fun _ => ?_) (fun _ => ?_)
    | split

theorem execPlanOffWindow_keeps {s0 : State} {chan : Nat} {addr : Nat} {s : State} (h : Keeps s0 s) :
    ∀ t, (execPlanOffWindow chan addr s) = .next t → Keeps s0 t := by
  unfold execPlanOffWindow
  dsimp only
  intro t ht
  obtain rfl := Host.Outcome.next.inj ht
  clear ht
  repeat' first
    | with_reducible assumption
    | with_reducible refine pageIrq_keeps ?_
    | with_reducible refine Keeps.fincSat ?_
    | with_reducible refine capture_keeps ?_
    | with_reducible refine Keeps.ite (fun _ => ?_) (fun _ => ?_)

end Sys2Proof.Machine
end

