-- ==== Sys2Proof/Laws/KeepsClnk.lean ====
section
/-! SUPPORT. Each operation of Machine/Clnk.lean keeps what `Keeps` says. -/

namespace Sys2Proof.Machine

theorem linkEnter_keeps {s0 : State} {s : State} {p : Nat} {st : Nat} (h : Keeps s0 s) :
    Keeps s0 (linkEnter s p st) := by
  unfold linkEnter
  dsimp only
  repeat' first
    | with_reducible assumption
    | with_reducible refine portMod_keeps ?_
    | with_reducible refine linkStat_keeps ?_
    | with_reducible refine linkGlobal_keeps ?_
    | with_reducible refine Keeps.ite (fun _ => ?_) (fun _ => ?_)

theorem setCurrent_keeps {s0 : State} {s : State} {p : Nat} {e : Option Nat} (h : Keeps s0 s) :
    Keeps s0 (setCurrent s p e) := by
  unfold setCurrent
  dsimp only
  repeat' first
    | with_reducible assumption
    | with_reducible refine portMod_keeps ?_
    | with_reducible refine haltNow_keeps ?_
    | with_reducible refine linkStat_keeps ?_

theorem endEpoch_keeps {s0 : State} {s : State} {p : Nat} {cause : Nat} (h : Keeps s0 s) :
    Keeps s0 (endEpoch s p cause) := by
  unfold endEpoch
  dsimp only
  repeat' first
    | with_reducible assumption
    | with_reducible refine sessionsEnd_keeps ?_
    | with_reducible refine setCurrent_keeps ?_
    | with_reducible refine portMod_keeps ?_
    | with_reducible refine pageIrq_keeps ?_
    | with_reducible refine Keeps.setReg ?_
    | with_reducible refine Keeps.ite (fun _ => ?_) (fun _ => ?_)
    | split

theorem queueAssign_keeps {s0 : State} {s : State} {p : Nat} {attempt : Bool} (h : Keeps s0 s) :
    Keeps s0 (queueAssign s p attempt) := by
  unfold queueAssign
  repeat' first
    | with_reducible assumption
    | with_reducible refine portMod_keeps ?_

theorem queueConfirm_keeps {s0 : State} {s : State} {p : Nat} {attempt : Bool} (h : Keeps s0 s) :
    Keeps s0 (queueConfirm s p attempt) := by
  unfold queueConfirm
  repeat' first
    | with_reducible assumption
    | with_reducible refine portMod_keeps ?_

theorem startEnum_keeps {s0 : State} {s : State} {p : Nat} (h : Keeps s0 s) :
    Keeps s0 (startEnum s p) := by
  unfold startEnum
  dsimp only
  repeat' first
    | with_reducible assumption
    | with_reducible refine linkEnter_keeps ?_
    | with_reducible refine portMod_keeps ?_
    | with_reducible refine queueAssign_keeps ?_

theorem toSync_keeps {s0 : State} {s : State} {p : Nat} (h : Keeps s0 s) :
    Keeps s0 (toSync s p) := by
  unfold toSync
  dsimp only
  repeat' first
    | with_reducible assumption
    | with_reducible refine portMod_keeps ?_
    | with_reducible refine linkEnter_keeps ?_
    | with_reducible refine startEnum_keeps ?_
    | with_reducible refine Keeps.ite (fun _ => ?_) (fun _ => ?_)

theorem toDetect_keeps {s0 : State} {s : State} {p : Nat} (h : Keeps s0 s) :
    Keeps s0 (toDetect s p) := by
  unfold toDetect
  repeat' first
    | with_reducible assumption
    | with_reducible refine portMod_keeps ?_
    | with_reducible refine linkEnter_keeps ?_

theorem toBackoff_keeps {s0 : State} {s : State} {p : Nat} (h : Keeps s0 s) :
    Keeps s0 (toBackoff s p) := by
  unfold toBackoff
  repeat' first
    | with_reducible assumption
    | with_reducible refine portMod_keeps ?_
    | with_reducible refine linkEnter_keeps ?_

theorem detectDone_keeps {s0 : State} {s : State} {p : Nat} (h : Keeps s0 s) :
    Keeps s0 (detectDone s p) := by
  unfold detectDone
  repeat' first
    | with_reducible assumption
    | with_reducible refine toSync_keeps ?_
    | with_reducible refine pageIrq_keeps ?_
    | with_reducible refine Keeps.ite (fun _ => ?_) (fun _ => ?_)

theorem execPresNLow_keeps {s0 : State} {port : Nat} {s : State} (h : Keeps s0 s) :
    ∀ t, (execPresNLow port s) = .next t → Keeps s0 t := by
  unfold execPresNLow
  dsimp only
  intro t ht
  obtain rfl := Host.Outcome.next.inj ht
  clear ht
  repeat' first
    | with_reducible assumption
    | with_reducible refine portMod_keeps ?_
    | with_reducible refine toDetect_keeps ?_
    | with_reducible refine Keeps.ite (fun _ => ?_) (fun _ => ?_)

theorem execPresNHigh_keeps {s0 : State} {port : Nat} {s : State} (h : Keeps s0 s) :
    ∀ t, (execPresNHigh port s) = .next t → Keeps s0 t := by
  unfold execPresNHigh
  dsimp only
  intro t ht
  obtain rfl := Host.Outcome.next.inj ht
  clear ht
  repeat' first
    | with_reducible assumption
    | with_reducible refine portMod_keeps ?_
    | with_reducible refine linkEnter_keeps ?_
    | with_reducible refine Keeps.ite (fun _ => ?_) (fun _ => ?_)

theorem execTPlugExpiry_keeps {s0 : State} {port : Nat} {s : State} (h : Keeps s0 s) :
    ∀ t, (execTPlugExpiry port s) = .next t → Keeps s0 t := by
  unfold execTPlugExpiry
  dsimp only
  intro t ht
  obtain rfl := Host.Outcome.next.inj ht
  clear ht
  repeat' first
    | with_reducible assumption
    | with_reducible refine Keeps.reach ?_
    | with_reducible refine portMod_keeps ?_
    | with_reducible refine linkGlobal_keeps ?_
    | with_reducible refine linkStat_keeps ?_
    | with_reducible refine detectDone_keeps ?_
    | with_reducible refine Keeps.ite (fun _ => ?_) (fun _ => ?_)
    | split

theorem execTUnplugExpiry_keeps {s0 : State} {port : Nat} {s : State} (h : Keeps s0 s) :
    ∀ t, (execTUnplugExpiry port s) = .next t → Keeps s0 t := by
  unfold execTUnplugExpiry
  dsimp only
  intro t ht
  obtain rfl := Host.Outcome.next.inj ht
  clear ht
  repeat' first
    | with_reducible assumption
    | with_reducible refine linkEnter_keeps ?_
    | with_reducible refine endEpoch_keeps ?_
    | with_reducible refine Keeps.reach ?_
    | with_reducible refine Keeps.ite (fun _ => ?_) (fun _ => ?_)
    | split

theorem execTSyncExpiry_keeps {s0 : State} {port : Nat} {s : State} (h : Keeps s0 s) :
    ∀ t, (execTSyncExpiry port s) = .next t → Keeps s0 t := by
  unfold execTSyncExpiry
  intro t ht
  obtain rfl := Host.Outcome.next.inj ht
  clear ht
  repeat' first
    | with_reducible assumption
    | with_reducible refine toBackoff_keeps ?_
    | with_reducible refine linkCount_keeps ?_
    | with_reducible refine capture_keeps ?_
    | with_reducible refine Keeps.reach ?_
    | with_reducible refine Keeps.ite (fun _ => ?_) (fun _ => ?_)
    | split

theorem execTEnumExpiry_keeps {s0 : State} {port : Nat} {s : State} (h : Keeps s0 s) :
    ∀ t, (execTEnumExpiry port s) = .next t → Keeps s0 t := by
  unfold execTEnumExpiry
  dsimp only
  intro t ht
  obtain rfl := Host.Outcome.next.inj ht
  clear ht
  repeat' first
    | with_reducible assumption
    | with_reducible refine Keeps.reach ?_
    | with_reducible refine queueAssign_keeps ?_
    | with_reducible refine queueConfirm_keeps ?_
    | with_reducible refine toBackoff_keeps ?_
    | with_reducible refine endEpoch_keeps ?_
    | with_reducible refine capture_keeps ?_
    | with_reducible refine Keeps.ite (fun _ => ?_) (fun _ => ?_)
    | split

theorem execTBackoffExpiry_keeps {s0 : State} {port : Nat} {s : State} (h : Keeps s0 s) :
    ∀ t, (execTBackoffExpiry port s) = .next t → Keeps s0 t := by
  unfold execTBackoffExpiry
  intro t ht
  obtain rfl := Host.Outcome.next.inj ht
  clear ht
  repeat' first
    | with_reducible assumption
    | with_reducible refine toSync_keeps ?_
    | with_reducible refine Keeps.reach ?_
    | with_reducible refine Keeps.ite (fun _ => ?_) (fun _ => ?_)
    | split

theorem execRxSyncAcquired_keeps {s0 : State} {port : Nat} {s : State} (h : Keeps s0 s) :
    ∀ t, (execRxSyncAcquired port s) = .next t → Keeps s0 t := by
  unfold execRxSyncAcquired
  dsimp only
  intro t ht
  obtain rfl := Host.Outcome.next.inj ht
  clear ht
  repeat' first
    | with_reducible assumption
    | with_reducible refine linkStat_keeps ?_
    | with_reducible refine startEnum_keeps ?_
    | with_reducible refine Keeps.ite (fun _ => ?_) (fun _ => ?_)

theorem execRxSyncLost_keeps {s0 : State} {port : Nat} {s : State} (h : Keeps s0 s) :
    ∀ t, (execRxSyncLost port s) = .next t → Keeps s0 t := by
  unfold execRxSyncLost
  dsimp only
  intro t ht
  obtain rfl := Host.Outcome.next.inj ht
  clear ht
  repeat' first
    | with_reducible assumption
    | with_reducible refine linkCount_keeps ?_
    | with_reducible refine linkStat_keeps ?_
    | with_reducible refine toSync_keeps ?_
    | with_reducible refine endEpoch_keeps ?_
    | with_reducible refine Keeps.ite (fun _ => ?_) (fun _ => ?_)

theorem relink_keeps {s0 : State} {s : State} {p : Nat} (h : Keeps s0 s) :
    Keeps s0 (relink s p) := by
  unfold relink
  dsimp only
  repeat' first
    | with_reducible assumption
    | with_reducible refine startEnum_keeps ?_
    | with_reducible refine endEpoch_keeps ?_
    | with_reducible refine Keeps.ite (fun _ => ?_) (fun _ => ?_)

theorem runWrite_keeps {s0 : State} {s : State} {p : Nat} {on : Bool} (h : Keeps s0 s) :
    Keeps s0 (runWrite s p on) := by
  unfold runWrite
  dsimp only
  repeat' first
    | with_reducible assumption
    | with_reducible refine portMod_keeps ?_
    | with_reducible refine Keeps.fset ?_

theorem linkCtrlWrite_keeps {s0 : State} {s : State} {p : Nat} {data : Word} (h : Keeps s0 s) :
    Keeps s0 (linkCtrlWrite s p data) := by
  unfold linkCtrlWrite
  dsimp only
  repeat' first
    | with_reducible assumption
    | with_reducible refine runWrite_keeps ?_
    | with_reducible refine relink_keeps ?_
    | with_reducible refine Keeps.ite (fun _ => ?_) (fun _ => ?_)

theorem execRelink_keeps {s0 : State} {part : Nat} {port : Nat} {data : Word} {s : State} (h : Keeps s0 s) :
    ∀ t, (execRelink part port data s) = .next t → Keeps s0 t := by
  unfold execRelink
  intro t ht
  obtain rfl := Host.Outcome.next.inj ht
  clear ht
  repeat' first
    | with_reducible assumption
    | with_reducible refine pageWrite_keeps (fun s _ => ?_) ?_
    | with_reducible refine linkCtrlWrite_keeps ?_

theorem linkEnable_keeps {s0 : State} {s : State} {p : Nat} {on : Bool} (h : Keeps s0 s) :
    Keeps s0 (linkEnable s p on) := by
  unfold linkEnable
  dsimp only
  repeat' first
    | with_reducible assumption
    | with_reducible refine Keeps.fset ?_
    | with_reducible refine detectDone_keeps ?_
    | with_reducible refine linkEnter_keeps ?_
    | with_reducible refine endEpoch_keeps ?_
    | with_reducible refine Keeps.ite (fun _ => ?_) (fun _ => ?_)

theorem linkSoftReset_keeps {s0 : State} {s : State} {p : Nat} (h : Keeps s0 s) :
    Keeps s0 (linkSoftReset s p) := by
  unfold linkSoftReset
  dsimp only
  repeat' first
    | with_reducible assumption
    | with_reducible refine linkEnter_keeps ?_
    | with_reducible refine endEpoch_keeps ?_
    | with_reducible refine Keeps.setReg ?_
    | with_reducible refine portMod_keeps ?_
    | with_reducible refine toDetect_keeps ?_
    | with_reducible refine Keeps.ite (fun _ => ?_) (fun _ => ?_)
    | with_reducible refine Keeps.each _ (fun _ _ _ => ?_) ?_

theorem linkLeave_keeps {s0 : State} {s : State} {p : Nat} {txWorks : Bool} (h : Keeps s0 s) :
    Keeps s0 (linkLeave s p txWorks) := by
  unfold linkLeave
  dsimp only
  repeat' first
    | with_reducible assumption
    | with_reducible refine endEpoch_keeps ?_
    | with_reducible refine sendHalt_keeps ?_
    | with_reducible refine abandonFrame_keeps ?_
    | with_reducible refine stopRequest_keeps ?_
    | with_reducible refine linkEnter_keeps ?_
    | with_reducible refine Keeps.ite (fun _ => ?_) (fun _ => ?_)

theorem linkReturn_keeps {s0 : State} {s : State} {p : Nat} (h : Keeps s0 s) :
    Keeps s0 (linkReturn s p) := by
  unfold linkReturn
  dsimp only
  repeat' first
    | with_reducible assumption
    | with_reducible refine linkEnter_keeps ?_
    | with_reducible refine toDetect_keeps ?_
    | with_reducible refine Keeps.ite (fun _ => ?_) (fun _ => ?_)

theorem windowErr_keeps {s0 : State} {s : State} {p : Nat} (h : Keeps s0 s) :
    Keeps s0 (windowErr s p) := by
  unfold windowErr
  dsimp only
  repeat' first
    | with_reducible assumption
    | with_reducible refine portMod_keeps ?_

theorem rxFail_keeps {s0 : State} {s : State} {p : Nat} {counter : Nat} (h : Keeps s0 s) :
    Keeps s0 (rxFail s p counter) := by
  unfold rxFail
  repeat' first
    | with_reducible assumption
    | with_reducible refine windowErr_keeps ?_
    | with_reducible refine linkCount_keeps ?_

theorem execRxFrameDiscarded_keeps {s0 : State} {port : Nat} {frame : RxFrame} {s : State} (h : Keeps s0 s) :
    ∀ t, (execRxFrameDiscarded port frame s) = .next t → Keeps s0 t := by
  unfold execRxFrameDiscarded
  intro t ht
  obtain rfl := Host.Outcome.next.inj ht
  clear ht
  repeat' first
    | with_reducible assumption
    | with_reducible refine linkCount_keeps ?_
    | with_reducible refine rxFail_keeps ?_
    | with_reducible refine Keeps.ite (fun _ => ?_) (fun _ => ?_)
    | split

theorem execAnnounce_keeps {s0 : State} {port : Nat} {s : State} (h : Keeps s0 s) :
    ∀ t, (execAnnounce port s) = .next t → Keeps s0 t := by
  unfold execAnnounce
  dsimp only
  intro t ht
  obtain rfl := Host.Outcome.next.inj ht
  clear ht
  repeat' first
    | with_reducible assumption
    | with_reducible refine linkCount_keeps ?_
    | with_reducible refine queueAssign_keeps ?_
    | with_reducible refine startEnum_keeps ?_
    | with_reducible refine endEpoch_keeps ?_
    | with_reducible refine Keeps.ite (fun _ => ?_) (fun _ => ?_)

theorem firstCaps_keeps {s0 : State} {s : State} {p : Nat} {e : Nat} {r : BitVec 512} (h : Keeps s0 s) :
    Keeps s0 (firstCaps s p e r) := by
  unfold firstCaps
  dsimp only
  repeat' first
    | with_reducible assumption
    | with_reducible refine setCurrent_keeps ?_
    | with_reducible refine Keeps.setReg ?_
    | with_reducible refine pageIrq_keeps ?_
    | with_reducible refine portSet_keeps ?_
    | with_reducible refine mbxShow_keeps ?_
    | with_reducible refine linkStat_keeps ?_
    | with_reducible refine capture_keeps ?_
    | with_reducible refine queueConfirm_keeps ?_
    | with_reducible refine Keeps.ite (fun _ => ?_) (fun _ => ?_)
    | with_reducible refine Keeps.each _ (fun _ _ _ => ?_) ?_
    | split

theorem execCaps_keeps {s0 : State} {port : Nat} {epoch : Nat} {record : BitVec 512} {s : State} (h : Keeps s0 s) :
    ∀ t, (execCaps port epoch record s) = .next t → Keeps s0 t := by
  unfold execCaps
  dsimp only
  intro t ht
  obtain rfl := Host.Outcome.next.inj ht
  clear ht
  repeat' first
    | with_reducible assumption
    | with_reducible refine linkCount_keeps ?_
    | with_reducible refine firstCaps_keeps ?_
    | with_reducible refine queueConfirm_keeps ?_
    | with_reducible refine startEnum_keeps ?_
    | with_reducible refine endEpoch_keeps ?_
    | with_reducible refine rxFail_keeps ?_
    | with_reducible refine Keeps.ite (fun _ => ?_) (fun _ => ?_)
    | split

theorem fitCheck_keeps {s0 : State} {s : State} {p : Nat} (h : Keeps s0 s) :
    Keeps s0 (fitCheck s p) := by
  unfold fitCheck
  dsimp only
  repeat' first
    | with_reducible assumption
    | with_reducible refine linkStat_keeps ?_
    | with_reducible refine capture_keeps ?_
    | with_reducible refine Keeps.ite (fun _ => ?_) (fun _ => ?_)
    | split

theorem fwReturned_keeps {s0 : State} {s : State} {p : Nat} (h : Keeps s0 s) :
    Keeps s0 (fwReturned s p) := by
  unfold fwReturned
  dsimp only
  repeat' first
    | with_reducible assumption
    | with_reducible refine jobDone_keeps ?_
    | with_reducible refine portMod_keeps ?_
    | with_reducible refine Keeps.each _ (fun _ _ _ => ?_) ?_

theorem execReady_keeps {s0 : State} {port : Nat} {epoch : Nat} {s : State} (h : Keeps s0 s) :
    ∀ t, (execReady port epoch s) = .next t → Keeps s0 t := by
  unfold execReady
  dsimp only
  intro t ht
  obtain rfl := Host.Outcome.next.inj ht
  clear ht
  repeat' first
    | with_reducible assumption
    | with_reducible refine rxFail_keeps ?_
    | with_reducible refine linkCount_keeps ?_
    | with_reducible refine linkEnter_keeps ?_
    | with_reducible refine portMod_keeps ?_
    | with_reducible refine fitCheck_keeps ?_
    | with_reducible refine fwReturned_keeps ?_
    | with_reducible refine pageIrq_keeps ?_
    | with_reducible refine Keeps.ite (fun _ => ?_) (fun _ => ?_)

theorem slotFrame_keeps {s0 : State} {s : State} {p : Nat} {entry : Nat} {tick : Nat} {e : BitVec 128} (h : Keeps s0 s) :
    Keeps s0 (slotFrame s p entry tick e).2 := by
  unfold slotFrame
  dsimp only
  repeat' first
    | with_reducible assumption
    | with_reducible refine haltFill_keeps ?_
    | with_reducible refine linkSend_keeps ?_
    | with_reducible refine portMod_keeps ?_
    | with_reducible refine sendHalt_keeps ?_
    | split

theorem execTxSlotStart_keeps {s0 : State} {port : Nat} {entry : Nat} {tick : Nat} {s : State} (h : Keeps s0 s) :
    ∀ t, (execTxSlotStart port entry tick s) = .next t → Keeps s0 t := by
  unfold execTxSlotStart
  intro t ht
  obtain rfl := Host.Outcome.next.inj ht
  clear ht
  repeat' first
    | with_reducible assumption
    | with_reducible refine slotFrame_keeps ?_
    | with_reducible refine Keeps.reach ?_
    | split

theorem execRxSlotOpen_keeps {s0 : State} {port : Nat} {entry : Nat} {tick : Nat} {s : State} (h : Keeps s0 s) :
    ∀ t, (execRxSlotOpen port entry tick s) = .next t → Keeps s0 t := by
  unfold execRxSlotOpen
  dsimp only
  intro t ht
  obtain rfl := Host.Outcome.next.inj ht
  clear ht
  repeat' first
    | with_reducible assumption
    | with_reducible refine slotFrame_keeps ?_
    | with_reducible refine Keeps.reach ?_
    | with_reducible refine portMod_keeps ?_
    | split

theorem cycUpWindow_keeps {s0 : State} {s : State} {p : Nat} {w : RxWindow} {flags : Nat} {payload : List Byte} {at_ : Int} (h : Keeps s0 s) :
    Keeps s0 (cycUpWindow s p w flags payload at_) := by
  unfold cycUpWindow
  dsimp only
  repeat' first
    | with_reducible assumption
    | with_reducible refine portMod_keeps ?_
    | with_reducible refine linkCount_keeps ?_
    | with_reducible refine Keeps.ite (fun _ => ?_) (fun _ => ?_)

theorem execCycUp_keeps {s0 : State} {port : Nat} {epoch : Nat} {echo : Nat} {cycle : Nat} {flags : Nat} {payload : List Byte} {tick : Nat} {s : State} (h : Keeps s0 s) :
    ∀ t, (execCycUp port epoch echo cycle flags payload tick s) = .next t → Keeps s0 t := by
  unfold execCycUp
  dsimp only
  intro t ht
  obtain rfl := Host.Outcome.next.inj ht
  clear ht
  repeat' first
    | with_reducible assumption
    | with_reducible refine Keeps.reach ?_
    | with_reducible refine rxFail_keeps ?_
    | with_reducible refine linkCount_keeps ?_
    | with_reducible refine cycUpWindow_keeps ?_
    | with_reducible refine Keeps.ite (fun _ => ?_) (fun _ => ?_)
    | split

theorem windowClose_keeps {s0 : State} {s : State} {p : Nat} {w : RxWindow} (h : Keeps s0 s) :
    Keeps s0 (windowClose s p w) := by
  unfold windowClose
  dsimp only
  repeat' first
    | with_reducible assumption
    | with_reducible refine portSet_keeps ?_
    | with_reducible refine Keeps.setReg64 ?_
    | with_reducible refine linkCount_keeps ?_
    | with_reducible refine startEnum_keeps ?_
    | with_reducible refine endEpoch_keeps ?_
    | with_reducible refine pageIrq_keeps ?_
    | with_reducible refine capture_keeps ?_
    | with_reducible refine Keeps.ite (fun _ => ?_) (fun _ => ?_)
    | fail_if_no_progress (with_reducible refine Keeps.upd0 ?_ rfl rfl rfl)

theorem execRxSlotClose_keeps {s0 : State} {port : Nat} {entry : Nat} {tick : Nat} {s : State} (h : Keeps s0 s) :
    ∀ t, (execRxSlotClose port entry tick s) = .next t → Keeps s0 t := by
  unfold execRxSlotClose
  intro t ht
  obtain rfl := Host.Outcome.next.inj ht
  clear ht
  repeat' first
    | with_reducible assumption
    | with_reducible refine windowClose_keeps ?_
    | with_reducible refine Keeps.reach ?_
    | with_reducible refine Keeps.ite (fun _ => ?_) (fun _ => ?_)
    | split

theorem clnkEpoch_keeps {s0 : State} {s : State} (h : Keeps s0 s) :
    Keeps s0 (clnkEpoch s) := by
  unfold clnkEpoch
  dsimp only
  repeat' first
    | with_reducible assumption
    | with_reducible refine Keeps.setReg ?_
    | with_reducible refine portMod_keeps ?_
    | with_reducible refine fitCheck_keeps ?_
    | with_reducible refine Keeps.ite (fun _ => ?_) (fun _ => ?_)
    | with_reducible refine Keeps.each _ (fun _ _ _ => ?_) ?_

theorem haltRequest_keeps {s0 : State} {s : State} {p : Nat} {tick : Nat} (h : Keeps s0 s) :
    Keeps s0 (haltRequest s p tick) := by
  unfold haltRequest
  dsimp only
  repeat' first
    | with_reducible assumption
    | with_reducible refine pageIrq_keeps ?_
    | with_reducible refine Keeps.fset ?_
    | with_reducible refine setHalts_keeps ?_
    | with_reducible refine portMod_keeps ?_
    | with_reducible refine abandonFrame_keeps ?_
    | with_reducible refine sendHalt_keeps ?_
    | with_reducible refine Keeps.reach ?_
    | with_reducible refine Keeps.ite (fun _ => ?_) (fun _ => ?_)

theorem execHaltRequest_keeps {s0 : State} {port : Nat} {tick : Nat} {s : State} (h : Keeps s0 s) :
    ∀ t, (execHaltRequest port tick s) = .next t → Keeps s0 t := by
  unfold execHaltRequest
  dsimp only
  intro t ht
  obtain rfl := Host.Outcome.next.inj ht
  clear ht
  repeat' first
    | with_reducible assumption
    | with_reducible refine setHalts_keeps ?_
    | with_reducible refine haltRequest_keeps ?_
    | with_reducible refine Keeps.ite (fun _ => ?_) (fun _ => ?_)
    | fail_if_no_progress (with_reducible refine Keeps.upd0 ?_ rfl rfl rfl)

theorem execHaltWithdraw_keeps {s0 : State} {port : Nat} {s : State} (h : Keeps s0 s) :
    ∀ t, (execHaltWithdraw port s) = .next t → Keeps s0 t := by
  unfold execHaltWithdraw
  dsimp only
  intro t ht
  obtain rfl := Host.Outcome.next.inj ht
  clear ht
  repeat' first
    | with_reducible assumption
    | with_reducible refine Keeps.fset ?_
    | with_reducible refine haltFill_keeps ?_
    | with_reducible refine setHalts_keeps ?_
    | with_reducible refine portMod_keeps ?_
    | with_reducible refine Keeps.ite (fun _ => ?_) (fun _ => ?_)

theorem haltsAfterReset_keeps {s0 : State} {s : State} {p : Nat} (h : Keeps s0 s) :
    Keeps s0 (haltsAfterReset s p) := by
  unfold haltsAfterReset
  repeat' first
    | with_reducible assumption
    | with_reducible refine setHalts_keeps ?_

theorem execClnkIslandReset_keeps {s0 : State} {s : State} (h : Keeps s0 s) :
    ∀ t, (execClnkIslandReset s) = .next t → Keeps s0 t := by
  unfold execClnkIslandReset
  dsimp only
  intro t ht
  obtain rfl := Host.Outcome.next.inj ht
  clear ht
  repeat' first
    | with_reducible assumption
    | with_reducible refine Keeps.reach ?_
    | with_reducible refine portMod_keeps ?_
    | with_reducible refine linkStat_keeps ?_
    | with_reducible refine linkEnter_keeps ?_
    | with_reducible refine haltsAfterReset_keeps ?_
    | with_reducible refine toDetect_keeps ?_
    | with_reducible refine Keeps.ite (fun _ => ?_) (fun _ => ?_)
    | with_reducible refine Keeps.each _ (fun _ _ _ => ?_) ?_
    | fail_if_no_progress (with_reducible refine Keeps.upd0 ?_ rfl rfl rfl)
    | split

theorem execClnkIdleHoldEnd_keeps {s0 : State} {s : State} (h : Keeps s0 s) :
    ∀ t, (execClnkIdleHoldEnd s) = .next t → Keeps s0 t := by
  unfold execClnkIdleHoldEnd
  dsimp only
  intro t ht
  obtain rfl := Host.Outcome.next.inj ht
  clear ht
  repeat' first
    | with_reducible assumption
    | with_reducible refine Keeps.reach ?_
    | fail_if_no_progress (with_reducible refine Keeps.upd0 ?_ rfl rfl rfl)
    | split

theorem ackSent_keeps {s0 : State} {s : State} {p : Nat} {c : Nat} (h : Keeps s0 s) :
    Keeps s0 (ackSent s p c) := by
  unfold ackSent
  repeat' first
    | with_reducible assumption
    | with_reducible refine sessMod_keeps ?_

theorem frameSent_keeps {s0 : State} {s : State} {p : Nat} {tick : Nat} {x3 : TxItem} (h : Keeps s0 s) :
    Keeps s0 (frameSent s p tick x3) := by
  unfold frameSent
  dsimp only
  repeat' first
    | with_reducible assumption
    | with_reducible refine portMod_keeps ?_
    | with_reducible refine ackSent_keeps ?_
    | with_reducible refine sessMod_keeps ?_
    | with_reducible refine jobDone_keeps ?_
    | with_reducible refine Keeps.fincSat ?_
    | with_reducible refine Keeps.ite (fun _ => ?_) (fun _ => ?_)
    | split

theorem execMbxFrameSend_keeps {s0 : State} {port : Nat} {tick : Nat} {s : State} (h : Keeps s0 s) :
    ∀ t, (execMbxFrameSend port tick s) = .next t → Keeps s0 t := by
  unfold execMbxFrameSend
  dsimp only
  intro t ht
  obtain rfl := Host.Outcome.next.inj ht
  clear ht
  repeat' first
    | with_reducible assumption
    | with_reducible refine haltFill_keeps ?_
    | with_reducible refine Keeps.reach ?_
    | with_reducible refine linkSend_keeps ?_
    | with_reducible refine portMod_keeps ?_
    | with_reducible refine frameSent_keeps ?_
    | with_reducible refine mbxShow_keeps ?_
    | with_reducible refine Keeps.ite (fun _ => ?_) (fun _ => ?_)
    | split

end Sys2Proof.Machine
end

