-- ==== Sys2Proof/Laws/KeepsChipReset.lean ====
section
/-! SUPPORT. Each operation of Machine/ChipReset.lean keeps what `Keeps` says. -/

namespace Sys2Proof.Machine

theorem pairAfterReset_keeps {s0 : State} {s : State} {n : Nat} (h : Keeps s0 s) :
    Keeps s0 (pairAfterReset s n) := by
  unfold pairAfterReset
  dsimp only
  repeat' first
    | with_reducible assumption
    | with_reducible refine Keeps.fset ?_
    | with_reducible refine pairIdle_keeps ?_
    | with_reducible refine tripPads_keeps ?_
    | with_reducible refine Keeps.ite (fun _ => ?_) (fun _ => ?_)

theorem pmuReset_keeps {s0 : State} {s : State} (h : Keeps s0 s) :
    Keeps s0 (pmuReset s) := by
  unfold pmuReset
  dsimp only
  repeat' first
    | with_reducible assumption
    | with_reducible refine Keeps.free ?_
    | with_reducible refine capture_keeps ?_
    | with_reducible refine Keeps.fset ?_
    | with_reducible refine Keeps.setReg64 ?_
    | with_reducible refine Keeps.ite (fun _ => ?_) (fun _ => ?_)
    | fail_if_no_progress (with_reducible refine Keeps.upd0 ?_ rfl rfl rfl)

theorem coreReset_keeps {s0 : State} {s : State} (h : Keeps s0 s) :
    Keeps s0 (coreReset s) := by
  unfold coreReset
  refine Keeps.each _ (fun _ _ hs => pairAfterReset_keeps hs) (pmuReset_keeps (Keeps.setReg ?_))
  refine h.trans ⟨rfl, rfl, rfl, rfl, List.suffix_refl _, le_refl _, fun w => ?_⟩
  have hf := (Keeps.regsFilter (p := fun k => keptPage (k.1 / 4096)) (Keeps.refl s)).wf w
  simp only [State.wf, Bool.and_eq_true] at hf ⊢
  exact ⟨⟨hf.1.1, rfl⟩, rfl⟩

theorem chipReset_keeps {s0 : State} {s : State} {cause : Nat} (h : Keeps s0 s) :
    Keeps s0 (chipReset s cause) := by
  unfold chipReset
  dsimp only
  repeat' first
    | with_reducible assumption
    | with_reducible refine coreReset_keeps ?_
    | with_reducible refine wdtWait_keeps ?_
    | with_reducible refine wholeStop_keeps ?_
    | with_reducible refine Keeps.fset ?_
    | fail_if_no_progress (with_reducible refine Keeps.upd0 ?_ rfl rfl rfl)

end Sys2Proof.Machine
end

