-- ==== Sys2Proof/Laws/KeepsFacetOps.lean ====
section
/-! SUPPORT. Each operation of Machine/FacetOps.lean keeps what `Keeps` says. -/

namespace Sys2Proof.Machine

theorem loadWord_keeps {s0 : State} {s : State} {i : Nat} {w : Nat} (h : Keeps s0 s) :
    Keeps s0 (loadWord s i w).2 := by
  unfold loadWord
  repeat' first
    | with_reducible assumption
    | with_reducible refine tileRead_keeps ?_
    | with_reducible refine poisonRead_keeps ?_
    | with_reducible refine Keeps.snd (by assumption) ?_
    | split

theorem loadWords_keeps {s0 : State} {s : State} {i : Nat} {w : Nat} {x3 : Nat} (h : Keeps s0 s) :
    Keeps s0 (loadWords s i w x3).2 := by
  induction x3 generalizing s with
  | zero =>
    unfold loadWords
    dsimp only
    with_reducible assumption
  | succ n ih =>
    unfold loadWords
    dsimp only
    repeat' first
      | with_reducible assumption
      | with_reducible refine ih ?_
      | with_reducible refine loadWord_keeps ?_

theorem load_keeps {s0 : State} {n : Nat} {vec : Bool} {mk : Ctx → List Cont → List FxWrite} {s : State} {c : Ctx} (h : Keeps s0 s) :
    Keeps s0 (load n vec mk s c).1 := by
  unfold load
  dsimp only
  repeat' first
    | with_reducible assumption
    | with_reducible refine addrRange_keeps ?_
    | with_reducible refine loadWords_keeps ?_
    | split

theorem loadAny_keeps {s0 : State} {s : State} {c : Ctx} (h : Keeps s0 s) :
    Keeps s0 (loadAny s c).1 := by
  unfold loadAny
  repeat' first
    | with_reducible assumption
    | with_reducible refine load_keeps ?_
    | split

theorem store_keeps {s0 : State} {s : State} {c : Ctx} (h : Keeps s0 s) :
    Keeps s0 (store s c).1 := by
  unfold store
  dsimp only
  repeat' first
    | with_reducible assumption
    | with_reducible refine addrRange_keeps ?_
    | split

theorem recvFx_keeps {s0 : State} {s : State} {c : Ctx} (h : Keeps s0 s) :
    Keeps s0 (recvFx s c).1 := by
  unfold recvFx
  dsimp only
  repeat' first
    | with_reducible assumption
    | with_reducible refine Keeps.tileKeep ?_ rfl
    | split

theorem execSlotNop_keeps {s0 : State} {tile : Nat} {k : Nat} {s : State} (h : Keeps s0 s) :
    ∀ t, (execSlotNop tile k s) = .next t → Keeps s0 t := by
  unfold execSlotNop
  intro t ht
  obtain rfl := Host.Outcome.next.inj ht
  clear ht
  repeat' first
    | with_reducible assumption
    | with_reducible refine runSlot_keeps (fun s _ _ => ?_) ?_
    | with_reducible refine pureSlot_keeps ?_

theorem execBr_keeps {s0 : State} {tile : Nat} {k : Nat} {s : State} (h : Keeps s0 s) :
    ∀ t, (execBr tile k s) = .next t → Keeps s0 t := by
  unfold execBr
  intro t ht
  obtain rfl := Host.Outcome.next.inj ht
  clear ht
  repeat' first
    | with_reducible assumption
    | with_reducible refine runSlot_keeps (fun s _ _ => ?_) ?_
    | with_reducible refine pureSlot_keeps ?_

theorem execLoopSet_keeps {s0 : State} {tile : Nat} {k : Nat} {s : State} (h : Keeps s0 s) :
    ∀ t, (execLoopSet tile k s) = .next t → Keeps s0 t := by
  unfold execLoopSet
  intro t ht
  obtain rfl := Host.Outcome.next.inj ht
  clear ht
  repeat' first
    | with_reducible assumption
    | with_reducible refine runSlot_keeps (fun s _ _ => ?_) ?_
    | with_reducible refine pureSlot_keeps ?_

theorem execWaitBp_keeps {s0 : State} {tile : Nat} {k : Nat} {s : State} (h : Keeps s0 s) :
    ∀ t, (execWaitBp tile k s) = .next t → Keeps s0 t := by
  unfold execWaitBp
  intro t ht
  obtain rfl := Host.Outcome.next.inj ht
  clear ht
  repeat' first
    | with_reducible assumption
    | with_reducible refine runSlot_keeps (fun s _ _ => ?_) ?_
    | with_reducible refine pureSlot_keeps ?_

theorem execHalt_keeps {s0 : State} {tile : Nat} {k : Nat} {s : State} (h : Keeps s0 s) :
    ∀ t, (execHalt tile k s) = .next t → Keeps s0 t := by
  unfold execHalt
  intro t ht
  obtain rfl := Host.Outcome.next.inj ht
  clear ht
  repeat' first
    | with_reducible assumption
    | with_reducible refine runSlot_keeps (fun s _ _ => ?_) ?_
    | with_reducible refine pureSlot_keeps ?_

theorem execSpecBegin_keeps {s0 : State} {tile : Nat} {k : Nat} {s : State} (h : Keeps s0 s) :
    ∀ t, (execSpecBegin tile k s) = .next t → Keeps s0 t := by
  unfold execSpecBegin
  intro t ht
  obtain rfl := Host.Outcome.next.inj ht
  clear ht
  repeat' first
    | with_reducible assumption
    | with_reducible refine runSlot_keeps (fun s _ _ => ?_) ?_
    | with_reducible refine pureSlot_keeps ?_

theorem execSpecCommit_keeps {s0 : State} {tile : Nat} {k : Nat} {s : State} (h : Keeps s0 s) :
    ∀ t, (execSpecCommit tile k s) = .next t → Keeps s0 t := by
  unfold execSpecCommit
  intro t ht
  obtain rfl := Host.Outcome.next.inj ht
  clear ht
  repeat' first
    | with_reducible assumption
    | with_reducible refine runSlot_keeps (fun s _ _ => ?_) ?_
    | with_reducible refine pureSlot_keeps ?_

theorem execSpecSquash_keeps {s0 : State} {tile : Nat} {k : Nat} {s : State} (h : Keeps s0 s) :
    ∀ t, (execSpecSquash tile k s) = .next t → Keeps s0 t := by
  unfold execSpecSquash
  intro t ht
  obtain rfl := Host.Outcome.next.inj ht
  clear ht
  repeat' first
    | with_reducible assumption
    | with_reducible refine runSlot_keeps (fun s _ _ => ?_) ?_
    | with_reducible refine pureSlot_keeps ?_

theorem execCmpEq_keeps {s0 : State} {tile : Nat} {k : Nat} {s : State} (h : Keeps s0 s) :
    ∀ t, (execCmpEq tile k s) = .next t → Keeps s0 t := by
  unfold execCmpEq
  intro t ht
  obtain rfl := Host.Outcome.next.inj ht
  clear ht
  repeat' first
    | with_reducible assumption
    | with_reducible refine runSlot_keeps (fun s _ _ => ?_) ?_
    | with_reducible refine pureSlot_keeps ?_

theorem execCmpNe_keeps {s0 : State} {tile : Nat} {k : Nat} {s : State} (h : Keeps s0 s) :
    ∀ t, (execCmpNe tile k s) = .next t → Keeps s0 t := by
  unfold execCmpNe
  intro t ht
  obtain rfl := Host.Outcome.next.inj ht
  clear ht
  repeat' first
    | with_reducible assumption
    | with_reducible refine runSlot_keeps (fun s _ _ => ?_) ?_
    | with_reducible refine pureSlot_keeps ?_

theorem execCmpLt_keeps {s0 : State} {tile : Nat} {k : Nat} {s : State} (h : Keeps s0 s) :
    ∀ t, (execCmpLt tile k s) = .next t → Keeps s0 t := by
  unfold execCmpLt
  intro t ht
  obtain rfl := Host.Outcome.next.inj ht
  clear ht
  repeat' first
    | with_reducible assumption
    | with_reducible refine runSlot_keeps (fun s _ _ => ?_) ?_
    | with_reducible refine pureSlot_keeps ?_

theorem execCmpLtu_keeps {s0 : State} {tile : Nat} {k : Nat} {s : State} (h : Keeps s0 s) :
    ∀ t, (execCmpLtu tile k s) = .next t → Keeps s0 t := by
  unfold execCmpLtu
  intro t ht
  obtain rfl := Host.Outcome.next.inj ht
  clear ht
  repeat' first
    | with_reducible assumption
    | with_reducible refine runSlot_keeps (fun s _ _ => ?_) ?_
    | with_reducible refine pureSlot_keeps ?_

theorem execCmpLe_keeps {s0 : State} {tile : Nat} {k : Nat} {s : State} (h : Keeps s0 s) :
    ∀ t, (execCmpLe tile k s) = .next t → Keeps s0 t := by
  unfold execCmpLe
  intro t ht
  obtain rfl := Host.Outcome.next.inj ht
  clear ht
  repeat' first
    | with_reducible assumption
    | with_reducible refine runSlot_keeps (fun s _ _ => ?_) ?_
    | with_reducible refine pureSlot_keeps ?_

theorem execFcmpLt_keeps {s0 : State} {tile : Nat} {k : Nat} {s : State} (h : Keeps s0 s) :
    ∀ t, (execFcmpLt tile k s) = .next t → Keeps s0 t := by
  unfold execFcmpLt
  intro t ht
  obtain rfl := Host.Outcome.next.inj ht
  clear ht
  repeat' first
    | with_reducible assumption
    | with_reducible refine runSlot_keeps (fun s _ _ => ?_) ?_
    | with_reducible refine pureSlot_keeps ?_

theorem execFcmpLe_keeps {s0 : State} {tile : Nat} {k : Nat} {s : State} (h : Keeps s0 s) :
    ∀ t, (execFcmpLe tile k s) = .next t → Keeps s0 t := by
  unfold execFcmpLe
  intro t ht
  obtain rfl := Host.Outcome.next.inj ht
  clear ht
  repeat' first
    | with_reducible assumption
    | with_reducible refine runSlot_keeps (fun s _ _ => ?_) ?_
    | with_reducible refine pureSlot_keeps ?_

theorem execFcmpEq_keeps {s0 : State} {tile : Nat} {k : Nat} {s : State} (h : Keeps s0 s) :
    ∀ t, (execFcmpEq tile k s) = .next t → Keeps s0 t := by
  unfold execFcmpEq
  intro t ht
  obtain rfl := Host.Outcome.next.inj ht
  clear ht
  repeat' first
    | with_reducible assumption
    | with_reducible refine runSlot_keeps (fun s _ _ => ?_) ?_
    | with_reducible refine pureSlot_keeps ?_

theorem execPand_keeps {s0 : State} {tile : Nat} {k : Nat} {s : State} (h : Keeps s0 s) :
    ∀ t, (execPand tile k s) = .next t → Keeps s0 t := by
  unfold execPand
  intro t ht
  obtain rfl := Host.Outcome.next.inj ht
  clear ht
  repeat' first
    | with_reducible assumption
    | with_reducible refine runSlot_keeps (fun s _ _ => ?_) ?_
    | with_reducible refine pureSlot_keeps ?_

theorem execPor_keeps {s0 : State} {tile : Nat} {k : Nat} {s : State} (h : Keeps s0 s) :
    ∀ t, (execPor tile k s) = .next t → Keeps s0 t := by
  unfold execPor
  intro t ht
  obtain rfl := Host.Outcome.next.inj ht
  clear ht
  repeat' first
    | with_reducible assumption
    | with_reducible refine runSlot_keeps (fun s _ _ => ?_) ?_
    | with_reducible refine pureSlot_keeps ?_

theorem execPxor_keeps {s0 : State} {tile : Nat} {k : Nat} {s : State} (h : Keeps s0 s) :
    ∀ t, (execPxor tile k s) = .next t → Keeps s0 t := by
  unfold execPxor
  intro t ht
  obtain rfl := Host.Outcome.next.inj ht
  clear ht
  repeat' first
    | with_reducible assumption
    | with_reducible refine runSlot_keeps (fun s _ _ => ?_) ?_
    | with_reducible refine pureSlot_keeps ?_

theorem execPnot_keeps {s0 : State} {tile : Nat} {k : Nat} {s : State} (h : Keeps s0 s) :
    ∀ t, (execPnot tile k s) = .next t → Keeps s0 t := by
  unfold execPnot
  intro t ht
  obtain rfl := Host.Outcome.next.inj ht
  clear ht
  repeat' first
    | with_reducible assumption
    | with_reducible refine runSlot_keeps (fun s _ _ => ?_) ?_
    | with_reducible refine pureSlot_keeps ?_

theorem execPset_keeps {s0 : State} {tile : Nat} {k : Nat} {s : State} (h : Keeps s0 s) :
    ∀ t, (execPset tile k s) = .next t → Keeps s0 t := by
  unfold execPset
  intro t ht
  obtain rfl := Host.Outcome.next.inj ht
  clear ht
  repeat' first
    | with_reducible assumption
    | with_reducible refine runSlot_keeps (fun s _ _ => ?_) ?_
    | with_reducible refine pureSlot_keeps ?_

theorem execAdd_keeps {s0 : State} {tile : Nat} {k : Nat} {s : State} (h : Keeps s0 s) :
    ∀ t, (execAdd tile k s) = .next t → Keeps s0 t := by
  unfold execAdd
  intro t ht
  obtain rfl := Host.Outcome.next.inj ht
  clear ht
  repeat' first
    | with_reducible assumption
    | with_reducible refine runSlot_keeps (fun s _ _ => ?_) ?_
    | with_reducible refine pureSlot_keeps ?_

theorem execSub_keeps {s0 : State} {tile : Nat} {k : Nat} {s : State} (h : Keeps s0 s) :
    ∀ t, (execSub tile k s) = .next t → Keeps s0 t := by
  unfold execSub
  intro t ht
  obtain rfl := Host.Outcome.next.inj ht
  clear ht
  repeat' first
    | with_reducible assumption
    | with_reducible refine runSlot_keeps (fun s _ _ => ?_) ?_
    | with_reducible refine pureSlot_keeps ?_

theorem execAnd_keeps {s0 : State} {tile : Nat} {k : Nat} {s : State} (h : Keeps s0 s) :
    ∀ t, (execAnd tile k s) = .next t → Keeps s0 t := by
  unfold execAnd
  intro t ht
  obtain rfl := Host.Outcome.next.inj ht
  clear ht
  repeat' first
    | with_reducible assumption
    | with_reducible refine runSlot_keeps (fun s _ _ => ?_) ?_
    | with_reducible refine pureSlot_keeps ?_

theorem execOr_keeps {s0 : State} {tile : Nat} {k : Nat} {s : State} (h : Keeps s0 s) :
    ∀ t, (execOr tile k s) = .next t → Keeps s0 t := by
  unfold execOr
  intro t ht
  obtain rfl := Host.Outcome.next.inj ht
  clear ht
  repeat' first
    | with_reducible assumption
    | with_reducible refine runSlot_keeps (fun s _ _ => ?_) ?_
    | with_reducible refine pureSlot_keeps ?_

theorem execXor_keeps {s0 : State} {tile : Nat} {k : Nat} {s : State} (h : Keeps s0 s) :
    ∀ t, (execXor tile k s) = .next t → Keeps s0 t := by
  unfold execXor
  intro t ht
  obtain rfl := Host.Outcome.next.inj ht
  clear ht
  repeat' first
    | with_reducible assumption
    | with_reducible refine runSlot_keeps (fun s _ _ => ?_) ?_
    | with_reducible refine pureSlot_keeps ?_

theorem execShl_keeps {s0 : State} {tile : Nat} {k : Nat} {s : State} (h : Keeps s0 s) :
    ∀ t, (execShl tile k s) = .next t → Keeps s0 t := by
  unfold execShl
  intro t ht
  obtain rfl := Host.Outcome.next.inj ht
  clear ht
  repeat' first
    | with_reducible assumption
    | with_reducible refine runSlot_keeps (fun s _ _ => ?_) ?_
    | with_reducible refine pureSlot_keeps ?_

theorem execShr_keeps {s0 : State} {tile : Nat} {k : Nat} {s : State} (h : Keeps s0 s) :
    ∀ t, (execShr tile k s) = .next t → Keeps s0 t := by
  unfold execShr
  intro t ht
  obtain rfl := Host.Outcome.next.inj ht
  clear ht
  repeat' first
    | with_reducible assumption
    | with_reducible refine runSlot_keeps (fun s _ _ => ?_) ?_
    | with_reducible refine pureSlot_keeps ?_

theorem execSar_keeps {s0 : State} {tile : Nat} {k : Nat} {s : State} (h : Keeps s0 s) :
    ∀ t, (execSar tile k s) = .next t → Keeps s0 t := by
  unfold execSar
  intro t ht
  obtain rfl := Host.Outcome.next.inj ht
  clear ht
  repeat' first
    | with_reducible assumption
    | with_reducible refine runSlot_keeps (fun s _ _ => ?_) ?_
    | with_reducible refine pureSlot_keeps ?_

theorem execMul_keeps {s0 : State} {tile : Nat} {k : Nat} {s : State} (h : Keeps s0 s) :
    ∀ t, (execMul tile k s) = .next t → Keeps s0 t := by
  unfold execMul
  intro t ht
  obtain rfl := Host.Outcome.next.inj ht
  clear ht
  repeat' first
    | with_reducible assumption
    | with_reducible refine runSlot_keeps (fun s _ _ => ?_) ?_
    | with_reducible refine pureSlot_keeps ?_

theorem execMin_keeps {s0 : State} {tile : Nat} {k : Nat} {s : State} (h : Keeps s0 s) :
    ∀ t, (execMin tile k s) = .next t → Keeps s0 t := by
  unfold execMin
  intro t ht
  obtain rfl := Host.Outcome.next.inj ht
  clear ht
  repeat' first
    | with_reducible assumption
    | with_reducible refine runSlot_keeps (fun s _ _ => ?_) ?_
    | with_reducible refine pureSlot_keeps ?_

theorem execMax_keeps {s0 : State} {tile : Nat} {k : Nat} {s : State} (h : Keeps s0 s) :
    ∀ t, (execMax tile k s) = .next t → Keeps s0 t := by
  unfold execMax
  intro t ht
  obtain rfl := Host.Outcome.next.inj ht
  clear ht
  repeat' first
    | with_reducible assumption
    | with_reducible refine runSlot_keeps (fun s _ _ => ?_) ?_
    | with_reducible refine pureSlot_keeps ?_

theorem execMov_keeps {s0 : State} {tile : Nat} {k : Nat} {s : State} (h : Keeps s0 s) :
    ∀ t, (execMov tile k s) = .next t → Keeps s0 t := by
  unfold execMov
  intro t ht
  obtain rfl := Host.Outcome.next.inj ht
  clear ht
  repeat' first
    | with_reducible assumption
    | with_reducible refine runSlot_keeps (fun s _ _ => ?_) ?_
    | with_reducible refine pureSlot_keeps ?_

theorem execTickRd_keeps {s0 : State} {tile : Nat} {k : Nat} {s : State} (h : Keeps s0 s) :
    ∀ t, (execTickRd tile k s) = .next t → Keeps s0 t := by
  unfold execTickRd
  intro t ht
  obtain rfl := Host.Outcome.next.inj ht
  clear ht
  repeat' first
    | with_reducible assumption
    | with_reducible refine runSlot_keeps (fun s _ _ => ?_) ?_
    | with_reducible refine pureSlot_keeps ?_

theorem execFadd_keeps {s0 : State} {tile : Nat} {k : Nat} {s : State} (h : Keeps s0 s) :
    ∀ t, (execFadd tile k s) = .next t → Keeps s0 t := by
  unfold execFadd
  intro t ht
  obtain rfl := Host.Outcome.next.inj ht
  clear ht
  repeat' first
    | with_reducible assumption
    | with_reducible refine runSlot_keeps (fun s _ _ => ?_) ?_
    | with_reducible refine pureSlot_keeps ?_

theorem execFsub_keeps {s0 : State} {tile : Nat} {k : Nat} {s : State} (h : Keeps s0 s) :
    ∀ t, (execFsub tile k s) = .next t → Keeps s0 t := by
  unfold execFsub
  intro t ht
  obtain rfl := Host.Outcome.next.inj ht
  clear ht
  repeat' first
    | with_reducible assumption
    | with_reducible refine runSlot_keeps (fun s _ _ => ?_) ?_
    | with_reducible refine pureSlot_keeps ?_

theorem execFmul_keeps {s0 : State} {tile : Nat} {k : Nat} {s : State} (h : Keeps s0 s) :
    ∀ t, (execFmul tile k s) = .next t → Keeps s0 t := by
  unfold execFmul
  intro t ht
  obtain rfl := Host.Outcome.next.inj ht
  clear ht
  repeat' first
    | with_reducible assumption
    | with_reducible refine runSlot_keeps (fun s _ _ => ?_) ?_
    | with_reducible refine pureSlot_keeps ?_

theorem execFcvtI2f_keeps {s0 : State} {tile : Nat} {k : Nat} {s : State} (h : Keeps s0 s) :
    ∀ t, (execFcvtI2f tile k s) = .next t → Keeps s0 t := by
  unfold execFcvtI2f
  intro t ht
  obtain rfl := Host.Outcome.next.inj ht
  clear ht
  repeat' first
    | with_reducible assumption
    | with_reducible refine runSlot_keeps (fun s _ _ => ?_) ?_
    | with_reducible refine pureSlot_keeps ?_

theorem execFcvtF2i_keeps {s0 : State} {tile : Nat} {k : Nat} {s : State} (h : Keeps s0 s) :
    ∀ t, (execFcvtF2i tile k s) = .next t → Keeps s0 t := by
  unfold execFcvtF2i
  intro t ht
  obtain rfl := Host.Outcome.next.inj ht
  clear ht
  repeat' first
    | with_reducible assumption
    | with_reducible refine runSlot_keeps (fun s _ _ => ?_) ?_
    | with_reducible refine pureSlot_keeps ?_

theorem execLd_keeps {s0 : State} {tile : Nat} {k : Nat} {s : State} (h : Keeps s0 s) :
    ∀ t, (execLd tile k s) = .next t → Keeps s0 t := by
  unfold execLd
  intro t ht
  obtain rfl := Host.Outcome.next.inj ht
  clear ht
  repeat' first
    | with_reducible assumption
    | with_reducible refine runSlot_keeps (fun s _ _ => ?_) ?_
    | with_reducible refine loadAny_keeps ?_

theorem execSt_keeps {s0 : State} {tile : Nat} {k : Nat} {s : State} (h : Keeps s0 s) :
    ∀ t, (execSt tile k s) = .next t → Keeps s0 t := by
  unfold execSt
  intro t ht
  obtain rfl := Host.Outcome.next.inj ht
  clear ht
  repeat' first
    | with_reducible assumption
    | with_reducible refine runSlot_keeps (fun s _ _ => ?_) ?_
    | with_reducible refine store_keeps ?_

theorem execLdBc_keeps {s0 : State} {tile : Nat} {k : Nat} {s : State} (h : Keeps s0 s) :
    ∀ t, (execLdBc tile k s) = .next t → Keeps s0 t := by
  unfold execLdBc
  intro t ht
  obtain rfl := Host.Outcome.next.inj ht
  clear ht
  repeat' first
    | with_reducible assumption
    | with_reducible refine runSlot_keeps (fun s _ _ => ?_) ?_
    | with_reducible refine load_keeps ?_

theorem execSend_keeps {s0 : State} {tile : Nat} {k : Nat} {s : State} (h : Keeps s0 s) :
    ∀ t, (execSend tile k s) = .next t → Keeps s0 t := by
  unfold execSend
  intro t ht
  obtain rfl := Host.Outcome.next.inj ht
  clear ht
  repeat' first
    | with_reducible assumption
    | with_reducible refine runSlot_keeps (fun s _ _ => ?_) ?_
    | with_reducible refine pureSlot_keeps ?_

theorem execRecv_keeps {s0 : State} {tile : Nat} {k : Nat} {s : State} (h : Keeps s0 s) :
    ∀ t, (execRecv tile k s) = .next t → Keeps s0 t := by
  unfold execRecv
  intro t ht
  obtain rfl := Host.Outcome.next.inj ht
  clear ht
  repeat' first
    | with_reducible assumption
    | with_reducible refine runSlot_keeps (fun s _ _ => ?_) ?_
    | with_reducible refine recvFx_keeps ?_

theorem execMxZero_keeps {s0 : State} {tile : Nat} {k : Nat} {s : State} (h : Keeps s0 s) :
    ∀ t, (execMxZero tile k s) = .next t → Keeps s0 t := by
  unfold execMxZero
  intro t ht
  obtain rfl := Host.Outcome.next.inj ht
  clear ht
  repeat' first
    | with_reducible assumption
    | with_reducible refine runSlot_keeps (fun s _ _ => ?_) ?_
    | with_reducible refine pureSlot_keeps ?_

theorem execMxOuter_keeps {s0 : State} {tile : Nat} {k : Nat} {s : State} (h : Keeps s0 s) :
    ∀ t, (execMxOuter tile k s) = .next t → Keeps s0 t := by
  unfold execMxOuter
  intro t ht
  obtain rfl := Host.Outcome.next.inj ht
  clear ht
  repeat' first
    | with_reducible assumption
    | with_reducible refine runSlot_keeps (fun s _ _ => ?_) ?_
    | with_reducible refine pureSlot_keeps ?_

theorem execMxRowout_keeps {s0 : State} {tile : Nat} {k : Nat} {s : State} (h : Keeps s0 s) :
    ∀ t, (execMxRowout tile k s) = .next t → Keeps s0 t := by
  unfold execMxRowout
  intro t ht
  obtain rfl := Host.Outcome.next.inj ht
  clear ht
  repeat' first
    | with_reducible assumption
    | with_reducible refine runSlot_keeps (fun s _ _ => ?_) ?_
    | with_reducible refine pureSlot_keeps ?_

theorem execMxRowin_keeps {s0 : State} {tile : Nat} {k : Nat} {s : State} (h : Keeps s0 s) :
    ∀ t, (execMxRowin tile k s) = .next t → Keeps s0 t := by
  unfold execMxRowin
  intro t ht
  obtain rfl := Host.Outcome.next.inj ht
  clear ht
  repeat' first
    | with_reducible assumption
    | with_reducible refine runSlot_keeps (fun s _ _ => ?_) ?_
    | with_reducible refine pureSlot_keeps ?_

theorem execVaddI_keeps {s0 : State} {tile : Nat} {k : Nat} {s : State} (h : Keeps s0 s) :
    ∀ t, (execVaddI tile k s) = .next t → Keeps s0 t := by
  unfold execVaddI
  intro t ht
  obtain rfl := Host.Outcome.next.inj ht
  clear ht
  repeat' first
    | with_reducible assumption
    | with_reducible refine runSlot_keeps (fun s _ _ => ?_) ?_
    | with_reducible refine pureSlot_keeps ?_

theorem execVsubI_keeps {s0 : State} {tile : Nat} {k : Nat} {s : State} (h : Keeps s0 s) :
    ∀ t, (execVsubI tile k s) = .next t → Keeps s0 t := by
  unfold execVsubI
  intro t ht
  obtain rfl := Host.Outcome.next.inj ht
  clear ht
  repeat' first
    | with_reducible assumption
    | with_reducible refine runSlot_keeps (fun s _ _ => ?_) ?_
    | with_reducible refine pureSlot_keeps ?_

theorem execVand_keeps {s0 : State} {tile : Nat} {k : Nat} {s : State} (h : Keeps s0 s) :
    ∀ t, (execVand tile k s) = .next t → Keeps s0 t := by
  unfold execVand
  intro t ht
  obtain rfl := Host.Outcome.next.inj ht
  clear ht
  repeat' first
    | with_reducible assumption
    | with_reducible refine runSlot_keeps (fun s _ _ => ?_) ?_
    | with_reducible refine pureSlot_keeps ?_

theorem execVor_keeps {s0 : State} {tile : Nat} {k : Nat} {s : State} (h : Keeps s0 s) :
    ∀ t, (execVor tile k s) = .next t → Keeps s0 t := by
  unfold execVor
  intro t ht
  obtain rfl := Host.Outcome.next.inj ht
  clear ht
  repeat' first
    | with_reducible assumption
    | with_reducible refine runSlot_keeps (fun s _ _ => ?_) ?_
    | with_reducible refine pureSlot_keeps ?_

theorem execVxor_keeps {s0 : State} {tile : Nat} {k : Nat} {s : State} (h : Keeps s0 s) :
    ∀ t, (execVxor tile k s) = .next t → Keeps s0 t := by
  unfold execVxor
  intro t ht
  obtain rfl := Host.Outcome.next.inj ht
  clear ht
  repeat' first
    | with_reducible assumption
    | with_reducible refine runSlot_keeps (fun s _ _ => ?_) ?_
    | with_reducible refine pureSlot_keeps ?_

theorem execVfadd_keeps {s0 : State} {tile : Nat} {k : Nat} {s : State} (h : Keeps s0 s) :
    ∀ t, (execVfadd tile k s) = .next t → Keeps s0 t := by
  unfold execVfadd
  intro t ht
  obtain rfl := Host.Outcome.next.inj ht
  clear ht
  repeat' first
    | with_reducible assumption
    | with_reducible refine runSlot_keeps (fun s _ _ => ?_) ?_
    | with_reducible refine pureSlot_keeps ?_

theorem execVfsub_keeps {s0 : State} {tile : Nat} {k : Nat} {s : State} (h : Keeps s0 s) :
    ∀ t, (execVfsub tile k s) = .next t → Keeps s0 t := by
  unfold execVfsub
  intro t ht
  obtain rfl := Host.Outcome.next.inj ht
  clear ht
  repeat' first
    | with_reducible assumption
    | with_reducible refine runSlot_keeps (fun s _ _ => ?_) ?_
    | with_reducible refine pureSlot_keeps ?_

theorem execVfmul_keeps {s0 : State} {tile : Nat} {k : Nat} {s : State} (h : Keeps s0 s) :
    ∀ t, (execVfmul tile k s) = .next t → Keeps s0 t := by
  unfold execVfmul
  intro t ht
  obtain rfl := Host.Outcome.next.inj ht
  clear ht
  repeat' first
    | with_reducible assumption
    | with_reducible refine runSlot_keeps (fun s _ _ => ?_) ?_
    | with_reducible refine pureSlot_keeps ?_

theorem execVfma_keeps {s0 : State} {tile : Nat} {k : Nat} {s : State} (h : Keeps s0 s) :
    ∀ t, (execVfma tile k s) = .next t → Keeps s0 t := by
  unfold execVfma
  intro t ht
  obtain rfl := Host.Outcome.next.inj ht
  clear ht
  repeat' first
    | with_reducible assumption
    | with_reducible refine runSlot_keeps (fun s _ _ => ?_) ?_
    | with_reducible refine pureSlot_keeps ?_

theorem execVfnma_keeps {s0 : State} {tile : Nat} {k : Nat} {s : State} (h : Keeps s0 s) :
    ∀ t, (execVfnma tile k s) = .next t → Keeps s0 t := by
  unfold execVfnma
  intro t ht
  obtain rfl := Host.Outcome.next.inj ht
  clear ht
  repeat' first
    | with_reducible assumption
    | with_reducible refine runSlot_keeps (fun s _ _ => ?_) ?_
    | with_reducible refine pureSlot_keeps ?_

theorem execVfmax_keeps {s0 : State} {tile : Nat} {k : Nat} {s : State} (h : Keeps s0 s) :
    ∀ t, (execVfmax tile k s) = .next t → Keeps s0 t := by
  unfold execVfmax
  intro t ht
  obtain rfl := Host.Outcome.next.inj ht
  clear ht
  repeat' first
    | with_reducible assumption
    | with_reducible refine runSlot_keeps (fun s _ _ => ?_) ?_
    | with_reducible refine pureSlot_keeps ?_

theorem execVfmin_keeps {s0 : State} {tile : Nat} {k : Nat} {s : State} (h : Keeps s0 s) :
    ∀ t, (execVfmin tile k s) = .next t → Keeps s0 t := by
  unfold execVfmin
  intro t ht
  obtain rfl := Host.Outcome.next.inj ht
  clear ht
  repeat' first
    | with_reducible assumption
    | with_reducible refine runSlot_keeps (fun s _ _ => ?_) ?_
    | with_reducible refine pureSlot_keeps ?_

theorem execVfabs_keeps {s0 : State} {tile : Nat} {k : Nat} {s : State} (h : Keeps s0 s) :
    ∀ t, (execVfabs tile k s) = .next t → Keeps s0 t := by
  unfold execVfabs
  intro t ht
  obtain rfl := Host.Outcome.next.inj ht
  clear ht
  repeat' first
    | with_reducible assumption
    | with_reducible refine runSlot_keeps (fun s _ _ => ?_) ?_
    | with_reducible refine pureSlot_keeps ?_

theorem execVredAdd_keeps {s0 : State} {tile : Nat} {k : Nat} {s : State} (h : Keeps s0 s) :
    ∀ t, (execVredAdd tile k s) = .next t → Keeps s0 t := by
  unfold execVredAdd
  intro t ht
  obtain rfl := Host.Outcome.next.inj ht
  clear ht
  repeat' first
    | with_reducible assumption
    | with_reducible refine runSlot_keeps (fun s _ _ => ?_) ?_
    | with_reducible refine pureSlot_keeps ?_

theorem execRcp_keeps {s0 : State} {tile : Nat} {k : Nat} {s : State} (h : Keeps s0 s) :
    ∀ t, (execRcp tile k s) = .next t → Keeps s0 t := by
  unfold execRcp
  intro t ht
  obtain rfl := Host.Outcome.next.inj ht
  clear ht
  repeat' first
    | with_reducible assumption
    | with_reducible refine runSlot_keeps (fun s _ _ => ?_) ?_
    | with_reducible refine pureSlot_keeps ?_

theorem execSqrt_keeps {s0 : State} {tile : Nat} {k : Nat} {s : State} (h : Keeps s0 s) :
    ∀ t, (execSqrt tile k s) = .next t → Keeps s0 t := by
  unfold execSqrt
  intro t ht
  obtain rfl := Host.Outcome.next.inj ht
  clear ht
  repeat' first
    | with_reducible assumption
    | with_reducible refine runSlot_keeps (fun s _ _ => ?_) ?_
    | with_reducible refine pureSlot_keeps ?_

theorem execRsqrt_keeps {s0 : State} {tile : Nat} {k : Nat} {s : State} (h : Keeps s0 s) :
    ∀ t, (execRsqrt tile k s) = .next t → Keeps s0 t := by
  unfold execRsqrt
  intro t ht
  obtain rfl := Host.Outcome.next.inj ht
  clear ht
  repeat' first
    | with_reducible assumption
    | with_reducible refine runSlot_keeps (fun s _ _ => ?_) ?_
    | with_reducible refine pureSlot_keeps ?_

theorem execDivstep_keeps {s0 : State} {tile : Nat} {k : Nat} {s : State} (h : Keeps s0 s) :
    ∀ t, (execDivstep tile k s) = .next t → Keeps s0 t := by
  unfold execDivstep
  intro t ht
  obtain rfl := Host.Outcome.next.inj ht
  clear ht
  repeat' first
    | with_reducible assumption
    | with_reducible refine runSlot_keeps (fun s _ _ => ?_) ?_
    | with_reducible refine pureSlot_keeps ?_

theorem execProgramStart_keeps {s0 : State} {tile : Nat} {tick : Nat} {s : State} (h : Keeps s0 s) :
    ∀ t, (execProgramStart tile tick s) = .next t → Keeps s0 t := by
  unfold execProgramStart
  dsimp only
  intro t ht
  obtain rfl := Host.Outcome.next.inj ht
  clear ht
  repeat' first
    | with_reducible assumption
    | with_reducible refine Keeps.reach ?_
    | with_reducible refine Keeps.tileAny ?_ (fun w => Keeps.tile_wf _ (Keeps.wf (s := s0) ?_ w))
    | with_reducible refine Keeps.ite (fun _ => ?_) (fun _ => ?_)
    | split

theorem execWaitBpResume_keeps {s0 : State} {tile : Nat} {s : State} (h : Keeps s0 s) :
    ∀ t, (execWaitBpResume tile s) = .next t → Keeps s0 t := by
  unfold execWaitBpResume
  dsimp only
  intro t ht
  obtain rfl := Host.Outcome.next.inj ht
  clear ht
  repeat' first
    | with_reducible assumption
    | with_reducible refine Keeps.reach ?_
    | with_reducible refine Keeps.tileAny ?_ (fun w => Keeps.tile_wf _ (Keeps.wf (s := s0) ?_ w))
    | with_reducible refine Keeps.ite (fun _ => ?_) (fun _ => ?_)
    | split

theorem execMeshDatumArrive_keeps {s0 : State} {n : Nat} {tick : Nat} {s : State} (h : Keeps s0 s) :
    ∀ t, (execMeshDatumArrive n tick s) = .next t → Keeps s0 t := by
  unfold execMeshDatumArrive
  dsimp only
  intro t ht
  obtain rfl := Host.Outcome.next.inj ht
  clear ht
  repeat' first
    | with_reducible assumption
    | with_reducible refine Keeps.reach ?_
    | with_reducible refine capture_keeps ?_
    | with_reducible refine Keeps.fincSat ?_
    | with_reducible refine Keeps.tileKeep ?_ rfl
    | with_reducible refine Keeps.ite (fun _ => ?_) (fun _ => ?_)
    | fail_if_no_progress (with_reducible refine Keeps.upd0 ?_ rfl rfl rfl)
    | split

theorem execResultWriteback_keeps {s0 : State} {tile : Nat} {s : State} (h : Keeps s0 s) :
    ∀ t, (execResultWriteback tile s) = .next t → Keeps s0 t := by
  unfold execResultWriteback
  dsimp only
  intro t ht
  obtain rfl := Host.Outcome.next.inj ht
  clear ht
  repeat' first
    | with_reducible assumption
    | with_reducible refine Keeps.fincSat ?_
    | (with_reducible refine Keeps.tileAny ?_ ?_; on_goal 2 => (intro w; simp only [landResults_sram]; exact Keeps.tile_wf _ (h.wf w)))
    | with_reducible refine Keeps.ite (fun _ => ?_) (fun _ => ?_)
    | split

theorem execSsbDrain_keeps {s0 : State} {tile : Nat} {s : State} (h : Keeps s0 s) :
    ∀ t, (execSsbDrain tile s) = .next t → Keeps s0 t := by
  unfold execSsbDrain
  dsimp only
  intro t ht
  obtain rfl := Host.Outcome.next.inj ht
  clear ht
  repeat' first
    | with_reducible assumption
    | with_reducible refine storeOut_keeps ?_
    | with_reducible refine Keeps.tileKeep ?_ rfl
    | with_reducible refine Keeps.each _ (fun _ _ _ => ?_) ?_

theorem diagRead_keeps {s0 : State} {s : State} {tile : Nat} (h : Keeps s0 s) :
    Keeps s0 (diagRead s tile).2 := by
  unfold diagRead
  dsimp only
  repeat' first
    | with_reducible assumption
    | with_reducible refine capture_keeps ?_
    | with_reducible refine tileRead_keeps ?_
    | with_reducible refine Keeps.setReg ?_
    | with_reducible refine Keeps.free ?_
    | with_reducible refine Keeps.snd (by assumption) ?_
    | split

theorem execFtDiagRead_keeps {s0 : State} {part : Nat} {tile : Nat} {s : State} (h : Keeps s0 s) :
    ∀ t, (execFtDiagRead part tile s) = .next t → Keeps s0 t := by
  unfold execFtDiagRead
  intro t ht
  obtain rfl := Host.Outcome.next.inj ht
  clear ht
  repeat' first
    | with_reducible assumption
    | with_reducible refine pageRead_keeps (fun s _ => ?_) ?_
    | with_reducible refine diagRead_keeps ?_
    | with_reducible refine Keeps.ite (fun _ => ?_) (fun _ => ?_)

theorem diagWrite_keeps {s0 : State} {s : State} {tile : Nat} {data : Word} (h : Keeps s0 s) :
    Keeps s0 (diagWrite s tile data) := by
  unfold diagWrite
  dsimp only
  repeat' first
    | with_reducible assumption
    | with_reducible refine capture_keeps ?_
    | with_reducible refine Keeps.setReg ?_
    | with_reducible refine tileWrite_keeps ?_
    | with_reducible refine Keeps.ite (fun _ => ?_) (fun _ => ?_)

theorem execFtDiagWrite_keeps {s0 : State} {part : Nat} {tile : Nat} {data : Word} {s : State} (h : Keeps s0 s) :
    ∀ t, (execFtDiagWrite part tile data s) = .next t → Keeps s0 t := by
  unfold execFtDiagWrite
  intro t ht
  obtain rfl := Host.Outcome.next.inj ht
  clear ht
  repeat' first
    | with_reducible assumption
    | with_reducible refine pageWrite_keeps (fun s _ => ?_) ?_
    | with_reducible refine diagWrite_keeps ?_
    | with_reducible refine Keeps.ite (fun _ => ?_) (fun _ => ?_)

end Sys2Proof.Machine
end

