-- ==== Sys2Proof/Laws/KeepsMbxOps.lean ====
section
/-! SUPPORT. Each operation of Machine/MbxOps.lean keeps what `Keeps` says. -/

namespace Sys2Proof.Machine

theorem wasted_keeps {s0 : State} {s : State} {p : Nat} {k : Nat} (h : Keeps s0 s) :
    Keeps s0 (wasted s p k) := by
  unfold wasted
  dsimp only
  repeat' first
    | with_reducible assumption
    | with_reducible refine wasteCount_keeps ?_
    | with_reducible refine Keeps.fset ?_
    | with_reducible refine portMod_keeps ?_
    | with_reducible refine startEnum_keeps ?_
    | with_reducible refine endEpoch_keeps ?_
    | with_reducible refine capture_keeps ?_
    | with_reducible refine Keeps.ite (fun _ => ?_) (fun _ => ?_)

theorem mbxScreen_keeps {s0 : State} {s : State} {p : Nat} {f : MbxFrame} (h : Keeps s0 s) :
    ∀ t, (mbxScreen s p f) = some t → Keeps s0 t := by
  unfold mbxScreen
  dsimp only
  repeat' first
    | with_reducible refine Keeps.optSome ?_
    | with_reducible exact Keeps.optNone
    | with_reducible refine Keeps.optIte (fun _ => ?_) (fun _ => ?_)
    | with_reducible assumption
    | with_reducible refine ctlPush_keeps ?_
    | with_reducible refine wasted_keeps ?_

theorem frameTaken_keeps {s0 : State} {s : State} {p : Nat} {f : MbxFrame} (h : Keeps s0 s) :
    Keeps s0 (frameTaken s p f) := by
  unfold frameTaken
  dsimp only
  repeat' first
    | with_reducible assumption
    | with_reducible refine sessMod_keeps ?_
    | with_reducible refine takeAck_keeps ?_

theorem ackNow_keeps {s0 : State} {s : State} {p : Nat} {c : Nat} (h : Keeps s0 s) :
    Keeps s0 (ackNow s p c) := by
  unfold ackNow
  repeat' first
    | with_reducible assumption
    | with_reducible refine sessMod_keeps ?_

theorem dataFrame_keeps {s0 : State} {s : State} {p : Nat} {f : MbxFrame} (h : Keeps s0 s) :
    Keeps s0 (dataFrame s p f) := by
  unfold dataFrame
  dsimp only
  repeat' first
    | with_reducible assumption
    | with_reducible refine wasted_keeps ?_
    | with_reducible refine ackNow_keeps ?_
    | with_reducible refine frameTaken_keeps ?_
    | with_reducible refine sessMod_keeps ?_
    | with_reducible refine Keeps.ite (fun _ => ?_) (fun _ => ?_)

theorem openAckFrame_keeps {s0 : State} {s : State} {p : Nat} {f : MbxFrame} (h : Keeps s0 s) :
    Keeps s0 (openAckFrame s p f) := by
  unfold openAckFrame
  dsimp only
  repeat' first
    | with_reducible assumption
    | with_reducible refine frameTaken_keeps ?_
    | with_reducible refine sessSet_keeps ?_
    | with_reducible refine jobDone_keeps ?_
    | with_reducible refine fwQueue_keeps ?_
    | with_reducible refine sessClose_keeps ?_
    | with_reducible refine sessMod_keeps ?_
    | with_reducible refine Keeps.ite (fun _ => ?_) (fun _ => ?_)
    | split

theorem closeFrame_keeps {s0 : State} {s : State} {p : Nat} {f : MbxFrame} (h : Keeps s0 s) :
    Keeps s0 (closeFrame s p f) := by
  unfold closeFrame
  dsimp only
  repeat' first
    | with_reducible assumption
    | with_reducible refine sessClose_keeps ?_
    | with_reducible refine ctlDrop_keeps ?_
    | with_reducible refine frameTaken_keeps ?_
    | with_reducible refine ctlPush_keeps ?_

theorem mbxFrameIn_keeps {s0 : State} {s : State} {p : Nat} {f : MbxFrame} (h : Keeps s0 s) :
    Keeps s0 (mbxFrameIn s p f) := by
  unfold mbxFrameIn
  dsimp only
  repeat' first
    | with_reducible assumption
    | with_reducible refine linkCount_keeps ?_
    | with_reducible refine mbxScreen_keeps ?_
    | with_reducible refine wasted_keeps ?_
    | with_reducible refine openAckFrame_keeps ?_
    | with_reducible refine dataFrame_keeps ?_
    | with_reducible refine ackNow_keeps ?_
    | with_reducible refine frameTaken_keeps ?_
    | with_reducible refine closeFrame_keeps ?_
    | with_reducible refine sessClose_keeps ?_
    | with_reducible refine ctlDrop_keeps ?_
    | with_reducible refine mbxSettle_keeps ?_
    | with_reducible refine Keeps.ite (fun _ => ?_) (fun _ => ?_)
    | with_reducible refine Keeps.of_opt (by assumption) ?_
    | split

theorem mbxIn_keeps {s0 : State} {s : State} {p : Nat} {f : MbxFrame} {ok : Bool} (h : Keeps s0 s) :
    Keeps s0 (mbxIn s p f ok) := by
  unfold mbxIn
  dsimp only
  repeat' first
    | with_reducible assumption
    | with_reducible refine rxFail_keeps ?_
    | with_reducible refine mbxFrameIn_keeps ?_
    | with_reducible refine Keeps.ite (fun _ => ?_) (fun _ => ?_)

theorem execMbxOpenFrame_keeps {s0 : State} {port : Nat} {frame : MbxFrame} {s : State} (h : Keeps s0 s) :
    ∀ t, (execMbxOpenFrame port frame s) = .next t → Keeps s0 t := by
  unfold execMbxOpenFrame
  intro t ht
  obtain rfl := Host.Outcome.next.inj ht
  clear ht
  repeat' first
    | with_reducible assumption
    | with_reducible refine mbxIn_keeps ?_

theorem execOpenAck_keeps {s0 : State} {port : Nat} {frame : MbxFrame} {s : State} (h : Keeps s0 s) :
    ∀ t, (execOpenAck port frame s) = .next t → Keeps s0 t := by
  unfold execOpenAck
  intro t ht
  obtain rfl := Host.Outcome.next.inj ht
  clear ht
  repeat' first
    | with_reducible assumption
    | with_reducible refine mbxIn_keeps ?_

theorem execMbxData_keeps {s0 : State} {port : Nat} {frame : MbxFrame} {s : State} (h : Keeps s0 s) :
    ∀ t, (execMbxData port frame s) = .next t → Keeps s0 t := by
  unfold execMbxData
  intro t ht
  obtain rfl := Host.Outcome.next.inj ht
  clear ht
  repeat' first
    | with_reducible assumption
    | with_reducible refine mbxIn_keeps ?_

theorem execMbxAck_keeps {s0 : State} {port : Nat} {frame : MbxFrame} {s : State} (h : Keeps s0 s) :
    ∀ t, (execMbxAck port frame s) = .next t → Keeps s0 t := by
  unfold execMbxAck
  intro t ht
  obtain rfl := Host.Outcome.next.inj ht
  clear ht
  repeat' first
    | with_reducible assumption
    | with_reducible refine mbxIn_keeps ?_

theorem execMbxCloseFrame_keeps {s0 : State} {port : Nat} {frame : MbxFrame} {s : State} (h : Keeps s0 s) :
    ∀ t, (execMbxCloseFrame port frame s) = .next t → Keeps s0 t := by
  unfold execMbxCloseFrame
  intro t ht
  obtain rfl := Host.Outcome.next.inj ht
  clear ht
  repeat' first
    | with_reducible assumption
    | with_reducible refine mbxIn_keeps ?_

theorem execCloseAck_keeps {s0 : State} {port : Nat} {frame : MbxFrame} {s : State} (h : Keeps s0 s) :
    ∀ t, (execCloseAck port frame s) = .next t → Keeps s0 t := by
  unfold execCloseAck
  intro t ht
  obtain rfl := Host.Outcome.next.inj ht
  clear ht
  repeat' first
    | with_reducible assumption
    | with_reducible refine mbxIn_keeps ?_

theorem execMbxAbortFrame_keeps {s0 : State} {port : Nat} {frame : MbxFrame} {s : State} (h : Keeps s0 s) :
    ∀ t, (execMbxAbortFrame port frame s) = .next t → Keeps s0 t := by
  unfold execMbxAbortFrame
  intro t ht
  obtain rfl := Host.Outcome.next.inj ht
  clear ht
  repeat' first
    | with_reducible assumption
    | with_reducible refine mbxIn_keeps ?_

theorem execBeginR_keeps {s0 : State} {port : Nat} {frame : MbxFrame} {s : State} (h : Keeps s0 s) :
    ∀ t, (execBeginR port frame s) = .next t → Keeps s0 t := by
  unfold execBeginR
  intro t ht
  obtain rfl := Host.Outcome.next.inj ht
  clear ht
  repeat' first
    | with_reducible assumption
    | with_reducible refine mbxIn_keeps ?_
    | with_reducible refine Keeps.ite (fun _ => ?_) (fun _ => ?_)

theorem execEndR_keeps {s0 : State} {port : Nat} {frame : MbxFrame} {s : State} (h : Keeps s0 s) :
    ∀ t, (execEndR port frame s) = .next t → Keeps s0 t := by
  unfold execEndR
  intro t ht
  obtain rfl := Host.Outcome.next.inj ht
  clear ht
  repeat' first
    | with_reducible assumption
    | with_reducible refine mbxIn_keeps ?_
    | with_reducible refine Keeps.ite (fun _ => ?_) (fun _ => ?_)

theorem execActivateR_keeps {s0 : State} {port : Nat} {frame : MbxFrame} {s : State} (h : Keeps s0 s) :
    ∀ t, (execActivateR port frame s) = .next t → Keeps s0 t := by
  unfold execActivateR
  intro t ht
  obtain rfl := Host.Outcome.next.inj ht
  clear ht
  repeat' first
    | with_reducible assumption
    | with_reducible refine mbxIn_keeps ?_
    | with_reducible refine Keeps.ite (fun _ => ?_) (fun _ => ?_)

theorem execRtoExpiry_keeps {s0 : State} {port : Nat} {mbx : Nat} {seq : Nat} {s : State} (h : Keeps s0 s) :
    ∀ t, (execRtoExpiry port mbx seq s) = .next t → Keeps s0 t := by
  unfold execRtoExpiry
  dsimp only
  intro t ht
  obtain rfl := Host.Outcome.next.inj ht
  clear ht
  repeat' first
    | with_reducible assumption
    | with_reducible refine Keeps.reach ?_
    | with_reducible refine deviceAbort_keeps ?_
    | with_reducible refine sessMod_keeps ?_
    | with_reducible refine Keeps.ite (fun _ => ?_) (fun _ => ?_)
    | split

theorem execAckTimerExpiry_keeps {s0 : State} {port : Nat} {mbx : Nat} {s : State} (h : Keeps s0 s) :
    ∀ t, (execAckTimerExpiry port mbx s) = .next t → Keeps s0 t := by
  unfold execAckTimerExpiry
  dsimp only
  intro t ht
  obtain rfl := Host.Outcome.next.inj ht
  clear ht
  repeat' first
    | with_reducible assumption
    | with_reducible refine ackNow_keeps ?_
    | with_reducible refine Keeps.reach ?_
    | with_reducible refine Keeps.ite (fun _ => ?_) (fun _ => ?_)
    | split

theorem execProbeTimerExpiry_keeps {s0 : State} {port : Nat} {mbx : Nat} {s : State} (h : Keeps s0 s) :
    ∀ t, (execProbeTimerExpiry port mbx s) = .next t → Keeps s0 t := by
  unfold execProbeTimerExpiry
  dsimp only
  intro t ht
  obtain rfl := Host.Outcome.next.inj ht
  clear ht
  repeat' first
    | with_reducible assumption
    | with_reducible refine Keeps.reach ?_
    | with_reducible refine deviceAbort_keeps ?_
    | with_reducible refine ctlPush_keeps ?_
    | with_reducible refine sessSet_keeps ?_
    | with_reducible refine Keeps.ite (fun _ => ?_) (fun _ => ?_)
    | split

theorem execOpenTimerExpiry_keeps {s0 : State} {port : Nat} {mbx : Nat} {s : State} (h : Keeps s0 s) :
    ∀ t, (execOpenTimerExpiry port mbx s) = .next t → Keeps s0 t := by
  unfold execOpenTimerExpiry
  dsimp only
  intro t ht
  obtain rfl := Host.Outcome.next.inj ht
  clear ht
  repeat' first
    | with_reducible assumption
    | with_reducible refine Keeps.reach ?_
    | with_reducible refine ctlPush_keeps ?_
    | with_reducible refine sessSet_keeps ?_
    | with_reducible refine sessClose_keeps ?_
    | with_reducible refine Keeps.ite (fun _ => ?_) (fun _ => ?_)
    | split

theorem execCloseTimerExpiry_keeps {s0 : State} {port : Nat} {mbx : Nat} {s : State} (h : Keeps s0 s) :
    ∀ t, (execCloseTimerExpiry port mbx s) = .next t → Keeps s0 t := by
  unfold execCloseTimerExpiry
  dsimp only
  intro t ht
  obtain rfl := Host.Outcome.next.inj ht
  clear ht
  repeat' first
    | with_reducible assumption
    | with_reducible refine Keeps.reach ?_
    | with_reducible refine ctlPush_keeps ?_
    | with_reducible refine sessSet_keeps ?_
    | with_reducible refine sessClose_keeps ?_
    | with_reducible refine Keeps.ite (fun _ => ?_) (fun _ => ?_)
    | split

theorem execLeakTimerExpiry_keeps {s0 : State} {port : Nat} {s : State} (h : Keeps s0 s) :
    ∀ t, (execLeakTimerExpiry port s) = .next t → Keeps s0 t := by
  unfold execLeakTimerExpiry
  dsimp only
  intro t ht
  obtain rfl := Host.Outcome.next.inj ht
  clear ht
  repeat' first
    | with_reducible assumption
    | with_reducible refine Keeps.reach ?_
    | with_reducible refine Keeps.fset ?_
    | with_reducible refine portMod_keeps ?_
    | split

theorem sessOpen_keeps {s0 : State} {s : State} {p : Nat} {c : Nat} {window : Nat} {service : Nat} {opener : Option Nat} {fw : Option FwRun} (h : Keeps s0 s) :
    Keeps s0 (sessOpen s p c window service opener fw) := by
  unfold sessOpen
  dsimp only
  repeat' first
    | with_reducible assumption
    | with_reducible refine mbxShow_keeps ?_
    | with_reducible refine ctlPush_keeps ?_
    | with_reducible refine sessSet_keeps ?_

theorem execMbxOpen_keeps {s0 : State} {job : Nat} {s : State} (h : Keeps s0 s) :
    ∀ t, (execMbxOpen job s) = .next t → Keeps s0 t := by
  unfold execMbxOpen
  intro t ht
  obtain rfl := Host.Outcome.next.inj ht
  clear ht
  repeat' first
    | with_reducible assumption
    | with_reducible refine jobDone_keeps ?_
    | with_reducible refine sessOpen_keeps ?_
    | with_reducible refine jobSet_keeps ?_
    | with_reducible refine Keeps.ite (fun _ => ?_) (fun _ => ?_)
    | split

theorem mjEnd_keeps {s0 : State} {s : State} {j : Nat} {x : Job} {status : Nat} (h : Keeps s0 s) :
    Keeps s0 (mjEnd s j x status) := by
  unfold mjEnd
  dsimp only
  repeat' first
    | with_reducible assumption
    | with_reducible refine jobDone_keeps ?_
    | with_reducible refine sessSet_keeps ?_
    | with_reducible refine deviceAbort_keeps ?_
    | with_reducible refine mbxSettle_keeps ?_
    | with_reducible refine Keeps.ite (fun _ => ?_) (fun _ => ?_)

theorem execMbxSend_keeps {s0 : State} {job : Nat} {s : State} (h : Keeps s0 s) :
    ∀ t, (execMbxSend job s) = .next t → Keeps s0 t := by
  unfold execMbxSend
  dsimp only
  intro t ht
  obtain rfl := Host.Outcome.next.inj ht
  clear ht
  repeat' first
    | with_reducible assumption
    | with_reducible refine mjEnd_keeps ?_
    | with_reducible refine jobDone_keeps ?_
    | with_reducible refine sessMod_keeps ?_
    | with_reducible refine mbxSettle_keeps ?_
    | with_reducible refine sessSet_keeps ?_
    | with_reducible refine jobSet_keeps ?_
    | with_reducible refine withHostData_keeps (fun s _ _ _ => ?_) (fun s _ _ => ?_) ?_
    | with_reducible refine Keeps.ite (fun _ => ?_) (fun _ => ?_)
    | split

theorem execMbxRecv_keeps {s0 : State} {job : Nat} {s : State} (h : Keeps s0 s) :
    ∀ t, (execMbxRecv job s) = .next t → Keeps s0 t := by
  unfold execMbxRecv
  dsimp only
  intro t ht
  obtain rfl := Host.Outcome.next.inj ht
  clear ht
  repeat' first
    | with_reducible assumption
    | with_reducible refine mjEnd_keeps ?_
    | with_reducible refine jobDone_keeps ?_
    | with_reducible refine jobSet_keeps ?_
    | with_reducible refine mbxSettle_keeps ?_
    | with_reducible refine sessMod_keeps ?_
    | with_reducible refine Keeps.ite (fun _ => ?_) (fun _ => ?_)
    | split

theorem execMbxClose_keeps {s0 : State} {job : Nat} {s : State} (h : Keeps s0 s) :
    ∀ t, (execMbxClose job s) = .next t → Keeps s0 t := by
  unfold execMbxClose
  dsimp only
  intro t ht
  obtain rfl := Host.Outcome.next.inj ht
  clear ht
  repeat' first
    | with_reducible assumption
    | with_reducible refine jobDone_keeps ?_
    | with_reducible refine jobSet_keeps ?_
    | with_reducible refine mbxSettle_keeps ?_
    | with_reducible refine sessSet_keeps ?_
    | with_reducible refine Keeps.ite (fun _ => ?_) (fun _ => ?_)
    | with_reducible refine Keeps.each _ (fun _ _ _ => ?_) ?_
    | split

theorem execMbxAbort_keeps {s0 : State} {job : Nat} {s : State} (h : Keeps s0 s) :
    ∀ t, (execMbxAbort job s) = .next t → Keeps s0 t := by
  unfold execMbxAbort
  intro t ht
  obtain rfl := Host.Outcome.next.inj ht
  clear ht
  repeat' first
    | with_reducible assumption
    | with_reducible refine jobDone_keeps ?_
    | with_reducible refine deviceAbort_keeps ?_
    | with_reducible refine jobSet_keeps ?_
    | with_reducible refine Keeps.ite (fun _ => ?_) (fun _ => ?_)
    | split

theorem execMbxJobTimeout_keeps {s0 : State} {job : Nat} {s : State} (h : Keeps s0 s) :
    ∀ t, (execMbxJobTimeout job s) = .next t → Keeps s0 t := by
  unfold execMbxJobTimeout
  intro t ht
  obtain rfl := Host.Outcome.next.inj ht
  clear ht
  repeat' first
    | with_reducible assumption
    | with_reducible refine mjEnd_keeps ?_
    | with_reducible refine Keeps.reach ?_
    | with_reducible refine Keeps.ite (fun _ => ?_) (fun _ => ?_)
    | split

theorem limbKeyStat_keeps {s0 : State} {s : State} (h : Keeps s0 s) :
    Keeps s0 (limbKeyStat s) := by
  unfold limbKeyStat
  repeat' first
    | with_reducible assumption
    | with_reducible refine Keeps.fset ?_

theorem fwSendBody_keeps {s0 : State} {s : State} {p : Nat} {c : Nat} {f : FwRun} {body : List Byte} (h : Keeps s0 s) :
    Keeps s0 (fwSendBody s p c f body) := by
  unfold fwSendBody
  dsimp only
  repeat' first
    | with_reducible assumption
    | with_reducible refine mbxSettle_keeps ?_
    | with_reducible refine sessMod_keeps ?_

theorem execFwUpdate_keeps {s0 : State} {job : Nat} {s : State} (h : Keeps s0 s) :
    ∀ t, (execFwUpdate job s) = .next t → Keeps s0 t := by
  unfold execFwUpdate
  dsimp only
  intro t ht
  obtain rfl := Host.Outcome.next.inj ht
  clear ht
  repeat' first
    | with_reducible assumption
    | with_reducible refine jobDone_keeps ?_
    | with_reducible refine deviceAbort_keeps ?_
    | with_reducible refine withHostData_keeps (fun s _ _ _ => ?_) (fun s _ _ => ?_) ?_
    | with_reducible refine fwSendBody_keeps ?_
    | with_reducible refine sessMod_keeps ?_
    | with_reducible refine portMod_keeps ?_
    | with_reducible refine sessOpen_keeps ?_
    | with_reducible refine Keeps.ite (fun _ => ?_) (fun _ => ?_)
    | split

theorem execFwReplyTimeout_keeps {s0 : State} {job : Nat} {s : State} (h : Keeps s0 s) :
    ∀ t, (execFwReplyTimeout job s) = .next t → Keeps s0 t := by
  unfold execFwReplyTimeout
  dsimp only
  intro t ht
  obtain rfl := Host.Outcome.next.inj ht
  clear ht
  repeat' first
    | with_reducible assumption
    | with_reducible refine fwFail_keeps ?_
    | with_reducible refine Keeps.reach ?_
    | with_reducible refine Keeps.ite (fun _ => ?_) (fun _ => ?_)
    | split

theorem execFwRebootTimeout_keeps {s0 : State} {job : Nat} {s : State} (h : Keeps s0 s) :
    ∀ t, (execFwRebootTimeout job s) = .next t → Keeps s0 t := by
  unfold execFwRebootTimeout
  dsimp only
  intro t ht
  obtain rfl := Host.Outcome.next.inj ht
  clear ht
  repeat' first
    | with_reducible assumption
    | with_reducible refine jobDone_keeps ?_
    | with_reducible refine portMod_keeps ?_
    | with_reducible refine Keeps.reach ?_
    | split

end Sys2Proof.Machine
end

