-- ==== Sys2Proof/Laws/KeepsSolver.lean ====
section
/-! SUPPORT. Each operation of Machine/Solver.lean keeps what `Keeps` says. -/

namespace Sys2Proof.Machine

theorem slotSet_keeps {s0 : State} {s : State} {k : Nat} {x : SolvSlot} (h : Keeps s0 s) :
    Keeps s0 (slotSet s k x) := by
  unfold slotSet
  dsimp only
  repeat' first
    | with_reducible assumption
    | fail_if_no_progress (with_reducible refine Keeps.upd0 ?_ rfl rfl rfl)

theorem slotState_keeps {s0 : State} {s : State} {k : Nat} {v : Nat} (h : Keeps s0 s) :
    Keeps s0 (slotState s k v) := by
  unfold slotState
  repeat' first
    | with_reducible assumption
    | with_reducible refine Keeps.fset ?_

theorem planTake_keeps {s0 : State} {s : State} {k : Nat} {bytes : Nat} (h : Keeps s0 s) :
    Keeps s0 (planTake s k bytes) := by
  unfold planTake
  dsimp only
  repeat' first
    | with_reducible assumption
    | with_reducible refine Keeps.fset ?_
    | fail_if_no_progress (with_reducible refine Keeps.upd0 ?_ rfl rfl rfl)

theorem loadDone_keeps {s0 : State} {s : State} {j : Nat} {status : Nat} {check : Nat} (h : Keeps s0 s) :
    Keeps s0 (loadDone s j status check) := by
  unfold loadDone
  dsimp only
  repeat' first
    | with_reducible assumption
    | with_reducible refine Keeps.fset ?_
    | with_reducible refine pageIrq_keeps ?_
    | with_reducible refine jobDone_keeps ?_

theorem execSimgLoad_keeps {s0 : State} {job : Nat} {body : SimgBody} {s : State} (h : Keeps s0 s) :
    ∀ t, (execSimgLoad job body s) = .next t → Keeps s0 t := by
  unfold execSimgLoad
  dsimp only
  intro t ht
  obtain rfl := Host.Outcome.next.inj ht
  clear ht
  repeat' first
    | with_reducible assumption
    | with_reducible refine jobDone_keeps ?_
    | with_reducible refine loadDone_keeps ?_
    | with_reducible refine withHostData_keeps (fun s _ _ _ => ?_) (fun s _ _ => ?_) ?_
    | with_reducible refine planTake_keeps ?_
    | with_reducible refine slotSet_keeps ?_
    | with_reducible refine slotState_keeps ?_
    | with_reducible refine Keeps.fset ?_
    | with_reducible refine Keeps.ite (fun _ => ?_) (fun _ => ?_)
    | split

theorem execSimgFree_keeps {s0 : State} {job : Nat} {s : State} (h : Keeps s0 s) :
    ∀ t, (execSimgFree job s) = .next t → Keeps s0 t := by
  unfold execSimgFree
  dsimp only
  intro t ht
  obtain rfl := Host.Outcome.next.inj ht
  clear ht
  repeat' first
    | with_reducible assumption
    | with_reducible refine jobDone_keeps ?_
    | with_reducible refine planTake_keeps ?_
    | with_reducible refine slotSet_keeps ?_
    | with_reducible refine Keeps.setReg ?_
    | with_reducible refine Keeps.ite (fun _ => ?_) (fun _ => ?_)
    | split

theorem unstage_keeps {s0 : State} {s : State} {k : Nat} {job : Nat} (h : Keeps s0 s) :
    Keeps s0 (unstage s k job) := by
  unfold unstage
  dsimp only
  repeat' first
    | with_reducible assumption
    | with_reducible refine slotSet_keeps ?_

theorem execSolvDelta_keeps {s0 : State} {job : Nat} {s : State} (h : Keeps s0 s) :
    ∀ t, (execSolvDelta job s) = .next t → Keeps s0 t := by
  unfold execSolvDelta
  dsimp only
  intro t ht
  obtain rfl := Host.Outcome.next.inj ht
  clear ht
  repeat' first
    | with_reducible assumption
    | with_reducible refine jobDone_keeps ?_
    | with_reducible refine unstage_keeps ?_
    | with_reducible refine withHostData_keeps (fun s _ _ _ => ?_) (fun s _ _ => ?_) ?_
    | with_reducible refine slotSet_keeps ?_
    | with_reducible refine jobSet_keeps ?_
    | with_reducible refine Keeps.ite (fun _ => ?_) (fun _ => ?_)
    | split

theorem execSolvGuess_keeps {s0 : State} {job : Nat} {s : State} (h : Keeps s0 s) :
    ∀ t, (execSolvGuess job s) = .next t → Keeps s0 t := by
  unfold execSolvGuess
  dsimp only
  intro t ht
  obtain rfl := Host.Outcome.next.inj ht
  clear ht
  repeat' first
    | with_reducible assumption
    | with_reducible refine jobDone_keeps ?_
    | with_reducible refine withHostData_keeps (fun s _ _ _ => ?_) (fun s _ _ => ?_) ?_
    | with_reducible refine slotSet_keeps ?_
    | with_reducible refine Keeps.ite (fun _ => ?_) (fun _ => ?_)
    | split

theorem execSolvRead_keeps {s0 : State} {job : Nat} {s : State} (h : Keeps s0 s) :
    ∀ t, (execSolvRead job s) = .next t → Keeps s0 t := by
  unfold execSolvRead
  dsimp only
  intro t ht
  obtain rfl := Host.Outcome.next.inj ht
  clear ht
  repeat' first
    | with_reducible assumption
    | with_reducible refine jobDone_keeps ?_
    | with_reducible refine Keeps.hostSend ?_
    | with_reducible refine Keeps.ite (fun _ => ?_) (fun _ => ?_)
    | split

theorem execSolvRun_keeps {s0 : State} {job : Nat} {s : State} (h : Keeps s0 s) :
    ∀ t, (execSolvRun job s) = .next t → Keeps s0 t := by
  unfold execSolvRun
  dsimp only
  intro t ht
  obtain rfl := Host.Outcome.next.inj ht
  clear ht
  repeat' first
    | with_reducible assumption
    | with_reducible refine Keeps.hostSend ?_
    | with_reducible refine slotSet_keeps ?_
    | with_reducible refine jobDone_keeps ?_
    | with_reducible refine jobSet_keeps ?_
    | with_reducible refine Keeps.ite (fun _ => ?_) (fun _ => ?_)
    | split

theorem solvCtrlTake_keeps {s0 : State} {s : State} {data : Word} (h : Keeps s0 s) :
    Keeps s0 (solvCtrlTake s data) := by
  unfold solvCtrlTake
  dsimp only
  repeat' first
    | with_reducible assumption
    | with_reducible refine Keeps.fset ?_
    | with_reducible refine slotSet_keeps ?_
    | with_reducible refine Keeps.ite (fun _ => ?_) (fun _ => ?_)
    | with_reducible refine Keeps.each _ (fun _ _ _ => ?_) ?_

theorem takeForceCold_keeps {s0 : State} {s : State} {k : Nat} (h : Keeps s0 s) :
    Keeps s0 (takeForceCold s k) := by
  unfold takeForceCold
  dsimp only
  repeat' first
    | with_reducible assumption
    | with_reducible refine slotSet_keeps ?_
    | with_reducible refine Keeps.fset ?_
    | with_reducible refine Keeps.ite (fun _ => ?_) (fun _ => ?_)

theorem holdWrite_keeps {s0 : State} {s : State} {p : Nat} {off : Nat} {w : Word} (h : Keeps s0 s) :
    Keeps s0 (holdWrite s p off w) := by
  unfold holdWrite
  repeat' first
    | with_reducible assumption
    | with_reducible refine Keeps.modPage ?_

theorem execSolvForceCold_keeps {s0 : State} {part : Nat} {data : Word} {s : State} (h : Keeps s0 s) :
    ∀ t, (execSolvForceCold part data s) = .next t → Keeps s0 t := by
  unfold execSolvForceCold
  dsimp only
  intro t ht
  obtain rfl := Host.Outcome.next.inj ht
  clear ht
  repeat' first
    | with_reducible assumption
    | with_reducible refine pageWrite_keeps (fun s _ => ?_) ?_
    | with_reducible refine holdWrite_keeps ?_

theorem execDeltaTick_keeps {s0 : State} {slot : Nat} {start : Nat} {s : State} (h : Keeps s0 s) :
    ∀ t, (execDeltaTick slot start s) = .next t → Keeps s0 t := by
  unfold execDeltaTick
  dsimp only
  intro t ht
  obtain rfl := Host.Outcome.next.inj ht
  clear ht
  repeat' first
    | with_reducible assumption
    | with_reducible refine Keeps.reach ?_
    | with_reducible refine jobDone_keeps ?_
    | with_reducible refine unstage_keeps ?_
    | with_reducible refine slotSet_keeps ?_
    | with_reducible refine Keeps.ite (fun _ => ?_) (fun _ => ?_)
    | with_reducible refine Keeps.each _ (fun _ _ _ => ?_) ?_
    | split

theorem noteRead_keeps {s0 : State} {s : State} {slot : Nat} {kind : Nat} (h : Keeps s0 s) :
    Keeps s0 (noteRead s slot kind) := by
  unfold noteRead
  dsimp only
  repeat' first
    | with_reducible assumption
    | with_reducible refine slotSet_keeps ?_

theorem lateReport_keeps {s0 : State} {s : State} {r : Option (List (Option Nat))} (h : Keeps s0 s) :
    Keeps s0 (lateReport s r) := by
  unfold lateReport
  repeat' first
    | with_reducible assumption
    | with_reducible refine capture_keeps ?_
    | with_reducible refine Keeps.ite (fun _ => ?_) (fun _ => ?_)

theorem execWindowTest_keeps {s0 : State} {slot : Nat} {s : State} (h : Keeps s0 s) :
    ∀ t, (execWindowTest slot s) = .next t → Keeps s0 t := by
  unfold execWindowTest
  dsimp only
  intro t ht
  obtain rfl := Host.Outcome.next.inj ht
  clear ht
  repeat' first
    | with_reducible assumption
    | with_reducible refine Keeps.reach ?_
    | with_reducible refine lateReport_keeps ?_
    | with_reducible refine noteRead_keeps ?_
    | with_reducible refine slotSet_keeps ?_
    | with_reducible refine Keeps.ite (fun _ => ?_) (fun _ => ?_)
    | split

theorem sendGroup_keeps {s0 : State} {s : State} {m : Simg} {lanes : List DWord} (h : Keeps s0 s) :
    Keeps s0 (sendGroup s m lanes) := by
  unfold sendGroup
  dsimp only
  repeat' first
    | with_reducible assumption
    | fail_if_no_progress (with_reducible refine Keeps.upd0 ?_ rfl rfl rfl)

theorem countVerdict_keeps {s0 : State} {s : State} {x1 : Option Verdict} (h : Keeps s0 s) :
    Keeps s0 (countVerdict s x1) := by
  unfold countVerdict
  repeat' first
    | with_reducible assumption
    | with_reducible refine Keeps.fincSat ?_
    | split

theorem execVerdictSend_keeps {s0 : State} {slot : Nat} {s : State} (h : Keeps s0 s) :
    ∀ t, (execVerdictSend slot s) = .next t → Keeps s0 t := by
  unfold execVerdictSend
  dsimp only
  intro t ht
  obtain rfl := Host.Outcome.next.inj ht
  clear ht
  repeat' first
    | with_reducible assumption
    | with_reducible refine Keeps.reach ?_
    | with_reducible refine sendGroup_keeps ?_
    | with_reducible refine takeForceCold_keeps ?_
    | with_reducible refine countVerdict_keeps ?_
    | with_reducible refine Keeps.fincSat ?_
    | with_reducible refine Keeps.fset ?_
    | with_reducible refine Keeps.setReg ?_
    | with_reducible refine jobSet_keeps ?_
    | with_reducible refine slotSet_keeps ?_
    | with_reducible refine Keeps.ite (fun _ => ?_) (fun _ => ?_)
    | split

theorem sendCommand_keeps {s0 : State} {s : State} {m : Simg} {stop : Bool} {keep : Bool} {fallback : Bool} (h : Keeps s0 s) :
    Keeps s0 (sendCommand s m stop keep fallback) := by
  unfold sendCommand
  repeat' first
    | with_reducible assumption
    | with_reducible refine sendGroup_keeps ?_

theorem execSolveCheck_keeps {s0 : State} {slot : Nat} {s : State} (h : Keeps s0 s) :
    ∀ t, (execSolveCheck slot s) = .next t → Keeps s0 t := by
  unfold execSolveCheck
  dsimp only
  intro t ht
  obtain rfl := Host.Outcome.next.inj ht
  clear ht
  repeat' first
    | with_reducible assumption
    | with_reducible refine Keeps.reach ?_
    | with_reducible refine noteRead_keeps ?_
    | with_reducible refine sendCommand_keeps ?_
    | with_reducible refine slotSet_keeps ?_
    | with_reducible refine lateReport_keeps ?_
    | with_reducible refine Keeps.fset ?_
    | with_reducible refine Keeps.ite (fun _ => ?_) (fun _ => ?_)
    | split

theorem deadlineConds_keeps {s0 : State} {s : State} {slot : Nat} {m : Simg} {b : BitVec 256} {v : Solve} (h : Keeps s0 s) :
    Keeps s0 (deadlineConds s slot m b v).2.2 := by
  unfold deadlineConds
  dsimp only
  repeat' first
    | with_reducible assumption
    | with_reducible refine noteRead_keeps ?_
    | with_reducible refine lateReport_keeps ?_
    | split

theorem execSolveDeadline_keeps {s0 : State} {slot : Nat} {s : State} (h : Keeps s0 s) :
    ∀ t, (execSolveDeadline slot s) = .next t → Keeps s0 t := by
  unfold execSolveDeadline
  dsimp only
  intro t ht
  obtain rfl := Host.Outcome.next.inj ht
  clear ht
  repeat' first
    | with_reducible assumption
    | with_reducible refine Keeps.reach ?_
    | with_reducible refine deadlineConds_keeps ?_
    | with_reducible refine sendCommand_keeps ?_
    | with_reducible refine Keeps.fincSat ?_
    | with_reducible refine Keeps.setReg ?_
    | with_reducible refine Keeps.fset ?_
    | with_reducible refine slotSet_keeps ?_
    | with_reducible refine pageIrq_keeps ?_
    | with_reducible refine Keeps.ite (fun _ => ?_) (fun _ => ?_)
    | split

end Sys2Proof.Machine
end

