-- ==== Sys2Proof/Laws/KeepsFacetLoss.lean ====
section
/-! SUPPORT. Each operation of Machine/FacetLoss.lean keeps what `Keeps` says. -/

namespace Sys2Proof.Machine

theorem facetMod_keeps {s0 : State} {s : State} {f : FacetSt → FacetSt} (h : Keeps s0 s) (hf : (f s.facet).tiles = s.facet.tiles) :
    Keeps s0 (facetMod s f) := Keeps.upd0 h rfl rfl hf

theorem showSpares_keeps {s0 : State} {s : State} (h : Keeps s0 s) :
    Keeps s0 (showSpares s) := by
  unfold showSpares
  dsimp only
  repeat' first
    | with_reducible assumption
    | with_reducible refine Keeps.fset ?_
    | with_reducible refine Keeps.setReg ?_
    | with_reducible refine pageIrq_keeps ?_
    | with_reducible refine Keeps.ite (fun _ => ?_) (fun _ => ?_)
    | with_reducible refine Keeps.each _ (fun _ _ _ => ?_) ?_

theorem setRole_keeps {s0 : State} {s : State} {i : Nat} {role : Nat} {pos : Nat} (h : Keeps s0 s) :
    Keeps s0 (setRole s i role pos) := by
  unfold setRole
  repeat' first
    | with_reducible assumption
    | with_reducible refine showSpares_keeps ?_
    | with_reducible refine Keeps.fset ?_

theorem setMap_keeps {s0 : State} {s : State} {p : Nat} {tile : Option Nat} (h : Keeps s0 s) :
    Keeps s0 (setMap s p tile) := by
  unfold setMap
  dsimp only
  repeat' first
    | with_reducible assumption
    | with_reducible refine Keeps.fset ?_
    | with_reducible refine Keeps.setReg ?_

theorem remapDecide_keeps {s0 : State} {s : State} {p : Nat} (h : Keeps s0 s) :
    ∀ t, (remapDecide s p) = some t → Keeps s0 t := by
  unfold remapDecide
  dsimp only
  repeat' first
    | with_reducible refine Keeps.optSome ?_
    | with_reducible exact Keeps.optNone
    | with_reducible assumption
    | with_reducible refine setMap_keeps ?_
    | with_reducible refine setRole_keeps ?_
    | with_reducible refine facetMod_keeps ?_ rfl
    | with_reducible refine Keeps.fset ?_
    | split

theorem sparesExhausted_keeps {s0 : State} {s : State} {p : Nat} (h : Keeps s0 s) :
    Keeps s0 (sparesExhausted s p) := by
  unfold sparesExhausted
  dsimp only
  repeat' first
    | with_reducible assumption
    | with_reducible refine setMap_keeps ?_
    | with_reducible refine planStopRobot_keeps ?_
    | with_reducible refine pageIrq_keeps ?_
    | with_reducible refine capture_keeps ?_

theorem remapLost_keeps {s0 : State} {s : State} {p : Nat} (h : Keeps s0 s) :
    Keeps s0 (remapLost s p) := by
  unfold remapLost
  repeat' first
    | with_reducible assumption
    | with_reducible refine remapDecide_keeps ?_
    | with_reducible refine sparesExhausted_keeps ?_
    | with_reducible refine Keeps.getD ?_ ?_

theorem remapVacant_keeps {s0 : State} {s : State} (h : Keeps s0 s) :
    Keeps s0 (remapVacant s) := by
  unfold remapVacant
  dsimp only
  repeat' first
    | with_reducible assumption
    | with_reducible refine remapDecide_keeps ?_
    | with_reducible refine Keeps.ite (fun _ => ?_) (fun _ => ?_)
    | with_reducible refine Keeps.each _ (fun _ _ _ => ?_) ?_
    | with_reducible refine Keeps.getD ?_ ?_

theorem tileStop_keeps {s0 : State} {s : State} {i : Nat} (h : Keeps s0 s) :
    Keeps s0 (tileStop s i) := by
  unfold tileStop
  dsimp only
  repeat' first
    | with_reducible assumption
    | with_reducible refine Keeps.tileKeep ?_ rfl

theorem restartLoad_keeps {s0 : State} {s : State} {i : Nat} (h : Keeps s0 s) :
    Keeps s0 (restartLoad s i) := by
  unfold restartLoad
  dsimp only
  repeat' first
    | with_reducible assumption
    | with_reducible refine facetMod_keeps ?_ rfl
    | with_reducible refine remapDecide_keeps ?_
    | with_reducible refine sparesExhausted_keeps ?_
    | with_reducible refine setMap_keeps ?_
    | with_reducible refine Keeps.ite (fun _ => ?_) (fun _ => ?_)
    | with_reducible refine Keeps.of_opt (by assumption) ?_
    | split

theorem tileGone_keeps {s0 : State} {s : State} {i : Nat} (h : Keeps s0 s) :
    Keeps s0 (tileGone s i) := by
  unfold tileGone
  dsimp only
  repeat' first
    | with_reducible assumption
    | with_reducible refine markOut_keeps ?_
    | with_reducible refine tileStop_keeps ?_
    | with_reducible refine facetMod_keeps ?_ rfl
    | with_reducible refine setRole_keeps ?_
    | with_reducible refine restartLoad_keeps ?_
    | with_reducible refine capture_keeps ?_
    | with_reducible refine timeSet_keeps ?_
    | with_reducible refine remapLost_keeps ?_
    | with_reducible refine setMap_keeps ?_
    | with_reducible refine Keeps.ite (fun _ => ?_) (fun _ => ?_)
    | split

theorem tileFail_keeps {s0 : State} {s : State} {i : Nat} {detail : Nat} (h : Keeps s0 s) :
    Keeps s0 (tileFail s i detail) := by
  unfold tileFail
  repeat' first
    | with_reducible assumption
    | with_reducible refine tileGone_keeps ?_
    | with_reducible refine capture_keeps ?_

theorem execFacetTileFail_keeps {s0 : State} {tile : Nat} {detail : Word} {s : State} (h : Keeps s0 s) :
    ∀ t, (execFacetTileFail tile detail s) = .next t → Keeps s0 t := by
  unfold execFacetTileFail
  intro t ht
  obtain rfl := Host.Outcome.next.inj ht
  clear ht
  repeat' first
    | with_reducible assumption
    | with_reducible refine tileFail_keeps ?_
    | with_reducible refine Keeps.ite (fun _ => ?_) (fun _ => ?_)

theorem tileLeave_keeps {s0 : State} {s : State} {i : Nat} (h : Keeps s0 s) :
    Keeps s0 (tileLeave s i) := by
  unfold tileLeave
  dsimp only
  repeat' first
    | with_reducible assumption
    | with_reducible refine Keeps.fset ?_
    | with_reducible refine remapVacant_keeps ?_
    | with_reducible refine facetMod_keeps ?_ rfl
    | with_reducible refine setRole_keeps ?_
    | with_reducible refine markOut_keeps ?_
    | with_reducible refine tileStop_keeps ?_
    | with_reducible refine restartLoad_keeps ?_
    | with_reducible refine Keeps.ite (fun _ => ?_) (fun _ => ?_)
    | split

theorem tileRejoin_keeps {s0 : State} {s : State} {i : Nat} (h : Keeps s0 s) :
    Keeps s0 (tileRejoin s i) := by
  unfold tileRejoin
  dsimp only
  repeat' first
    | with_reducible assumption
    | with_reducible refine markIn_keeps ?_
    | with_reducible refine remapVacant_keeps ?_
    | with_reducible refine setRole_keeps ?_
    | with_reducible refine Keeps.tileAny ?_ (fun _ => rfl)

theorem fixRemap_keeps {s0 : State} {s : State} (h : Keeps s0 s) :
    Keeps s0 (fixRemap s) := by
  unfold fixRemap
  dsimp only
  repeat' first
    | with_reducible assumption
    | with_reducible refine facetMod_keeps ?_ rfl
    | with_reducible refine Keeps.fset ?_
    | with_reducible refine Keeps.setReg64 ?_
    | with_reducible refine timeSet_keeps ?_
    | with_reducible refine Keeps.ite (fun _ => ?_) (fun _ => ?_)
    | split

theorem execSpareLoadDone_keeps {s0 : State} {tile : Nat} {tick : Nat} {s : State} (h : Keeps s0 s) :
    ∀ t, (execSpareLoadDone tile tick s) = .next t → Keeps s0 t := by
  unfold execSpareLoadDone
  dsimp only
  intro t ht
  obtain rfl := Host.Outcome.next.inj ht
  clear ht
  repeat' first
    | with_reducible assumption
    | with_reducible refine Keeps.reach ?_
    | with_reducible refine facetMod_keeps ?_ rfl
    | with_reducible refine fixRemap_keeps ?_
    | with_reducible refine Keeps.ite (fun _ => ?_) (fun _ => ?_)
    | split

theorem execSpareLoadFailed_keeps {s0 : State} {tile : Nat} {ue : Bool} {s : State} (h : Keeps s0 s) :
    ∀ t, (execSpareLoadFailed tile ue s) = .next t → Keeps s0 t := by
  unfold execSpareLoadFailed
  dsimp only
  intro t ht
  obtain rfl := Host.Outcome.next.inj ht
  clear ht
  repeat' first
    | with_reducible assumption
    | with_reducible refine setRole_keeps ?_
    | with_reducible refine markOut_keeps ?_
    | with_reducible refine tileStop_keeps ?_
    | with_reducible refine restartLoad_keeps ?_
    | with_reducible refine capture_keeps ?_
    | with_reducible refine tileFail_keeps ?_
    | with_reducible refine Keeps.ite (fun _ => ?_) (fun _ => ?_)

theorem islandGone_keeps {s0 : State} {s : State} {i : Nat} (h : Keeps s0 s) :
    Keeps s0 (islandGone s i) := by
  unfold islandGone
  dsimp only
  repeat' first
    | with_reducible assumption
    | with_reducible refine Keeps.fset ?_
    | with_reducible refine planStopRobot_keeps ?_
    | with_reducible refine Keeps.ite (fun _ => ?_) (fun _ => ?_)
    | fail_if_no_progress (with_reducible refine Keeps.upd0 ?_ rfl rfl rfl)

theorem islandFail_keeps {s0 : State} {s : State} {i : Nat} {detail : Nat} (h : Keeps s0 s) :
    Keeps s0 (islandFail s i detail) := by
  unfold islandFail
  repeat' first
    | with_reducible assumption
    | with_reducible refine islandGone_keeps ?_
    | with_reducible refine capture_keeps ?_

theorem execMarkerMiss_keeps {s0 : State} {island : Nat} {s : State} (h : Keeps s0 s) :
    ∀ t, (execMarkerMiss island s) = .next t → Keeps s0 t := by
  unfold execMarkerMiss
  dsimp only
  intro t ht
  obtain rfl := Host.Outcome.next.inj ht
  clear ht
  repeat' first
    | with_reducible assumption
    | with_reducible refine Keeps.reach ?_
    | with_reducible refine timeSet_keeps ?_
    | with_reducible refine capture_keeps ?_
    | with_reducible refine tileFail_keeps ?_
    | with_reducible refine islandFail_keeps ?_
    | with_reducible refine Keeps.ite (fun _ => ?_) (fun _ => ?_)

theorem execBasePeriodStart_keeps {s0 : State} {s : State} (h : Keeps s0 s) :
    ∀ t, (execBasePeriodStart s) = .next t → Keeps s0 t := by
  unfold execBasePeriodStart
  dsimp only
  intro t ht
  obtain rfl := Host.Outcome.next.inj ht
  clear ht
  repeat' first
    | with_reducible assumption
    | with_reducible refine basePeriodStart_keeps ?_
    | with_reducible refine tileRejoin_keeps ?_
    | with_reducible refine Keeps.ite (fun _ => ?_) (fun _ => ?_)
    | with_reducible refine Keeps.each _ (fun _ _ _ => ?_) ?_

end Sys2Proof.Machine
end

