-- ==== Sys2Proof/Laws/KeepsLoop.lean ====
section
/-! SUPPORT. Each operation of Machine/Loop.lean keeps what `Keeps` says. -/

namespace Sys2Proof.Machine

theorem chanSet_keeps {s0 : State} {s : State} {c : Nat} {x : LoopChan} (h : Keeps s0 s) :
    Keeps s0 (chanSet s c x) := by
  unfold chanSet
  dsimp only
  repeat' first
    | with_reducible assumption
    | fail_if_no_progress (with_reducible refine Keeps.upd0 ?_ rfl rfl rfl)

theorem routeWrite_keeps {s0 : State} {s : State} {target : Nat} {v : Int} {tick : Nat} (h : Keeps s0 s) :
    Keeps s0 (routeWrite s target v tick) := by
  unfold routeWrite
  dsimp only
  repeat' first
    | with_reducible assumption
    | with_reducible refine stageWrite_keeps ?_
    | with_reducible refine chanSet_keeps ?_
    | with_reducible refine Keeps.ite (fun _ => ?_) (fun _ => ?_)

theorem writeRoutes_keeps {s0 : State} {s : State} {c : Nat} {r0 : Nat} {r1 : Nat} {v0 : Int} {v1 : Int} {tick : Nat} (h : Keeps s0 s) :
    Keeps s0 (writeRoutes s c r0 r1 v0 v1 tick) := by
  unfold writeRoutes
  dsimp only
  repeat' first
    | with_reducible assumption
    | with_reducible refine chanSet_keeps ?_
    | with_reducible refine routeWrite_keeps ?_

theorem safeRoutes_keeps {s0 : State} {s : State} {c : Nat} {r0 : Nat} {r1 : Nat} {tick : Nat} (h : Keeps s0 s) :
    Keeps s0 (safeRoutes s c r0 r1 tick) := by
  unfold safeRoutes
  repeat' first
    | with_reducible assumption
    | with_reducible refine writeRoutes_keeps ?_

theorem setWide_keeps {s0 : State} {s : State} {p : Nat} {off : Nat} {w : Nat} {z : Int} (h : Keeps s0 s) :
    Keeps s0 (setWide s p off w z) := by
  unfold setWide
  dsimp only
  repeat' first
    | with_reducible assumption
    | with_reducible refine Keeps.setReg64 ?_

theorem stateCopy_keeps {s0 : State} {s : State} {c : Nat} (h : Keeps s0 s) :
    Keeps s0 (stateCopy s c) := by
  unfold stateCopy
  dsimp only
  repeat' first
    | with_reducible assumption
    | with_reducible refine setWide_keeps ?_
    | with_reducible refine Keeps.setReg ?_
    | with_reducible refine Keeps.ite (fun _ => ?_) (fun _ => ?_)
    | with_reducible refine Keeps.each _ (fun _ _ _ => ?_) ?_

theorem testFinish_keeps {s0 : State} {s : State} {t : LoopTest} {status : Nat} (h : Keeps s0 s) :
    Keeps s0 (testFinish s t status) := by
  unfold testFinish
  dsimp only
  repeat' first
    | with_reducible assumption
    | with_reducible refine Keeps.fset ?_
    | with_reducible refine pageIrq_keeps ?_
    | with_reducible refine jobDone_keeps ?_
    | fail_if_no_progress (with_reducible refine Keeps.upd0 ?_ rfl rfl rfl)

theorem testChannelGone_keeps {s0 : State} {s : State} {c : Nat} (h : Keeps s0 s) :
    Keeps s0 (testChannelGone s c) := by
  unfold testChannelGone
  repeat' first
    | with_reducible assumption
    | with_reducible refine testFinish_keeps ?_
    | with_reducible refine Keeps.ite (fun _ => ?_) (fun _ => ?_)
    | split

theorem testAt_keeps {s0 : State} {s : State} {c : Nat} (h : Keeps s0 s) :
    Keeps s0 (testAt s c).2 := by
  unfold testAt
  dsimp only
  repeat' first
    | with_reducible assumption
    | with_reducible refine Keeps.fset ?_
    | with_reducible refine testFinish_keeps ?_
    | fail_if_no_progress (with_reducible refine Keeps.upd0 ?_ rfl rfl rfl)
    | split

theorem testSample_keeps {s0 : State} {s : State} {t : LoopTest} {word : Word} (h : Keeps s0 s) :
    Keeps s0 (testSample s t word) := by
  unfold testSample
  dsimp only
  repeat' first
    | with_reducible assumption
    | with_reducible refine Keeps.fset ?_
    | with_reducible refine testFinish_keeps ?_
    | with_reducible refine Keeps.ite (fun _ => ?_) (fun _ => ?_)
    | fail_if_no_progress (with_reducible refine Keeps.upd0 ?_ rfl rfl rfl)

theorem chanStart_keeps {s0 : State} {s : State} {c tick : Nat} (h : Keeps s0 s) :
    Keeps s0 (chanStart s c tick) := by
  unfold chanStart
  dsimp only
  repeat' first
    | with_reducible assumption
    | with_reducible refine chanSet_keeps ?_
    | with_reducible refine Keeps.fset ?_

theorem execLoopSampleInstant_keeps {s0 : State} {chan : Nat} {tick : Nat} {codes : List Nat} {s : State} (h : Keeps s0 s) :
    ∀ t, (execLoopSampleInstant chan tick codes s) = .next t → Keeps s0 t := by
  unfold execLoopSampleInstant
  dsimp only
  intro t ht
  obtain rfl := Host.Outcome.next.inj ht
  clear ht
  repeat' first
    | with_reducible assumption
    | with_reducible refine Keeps.reach ?_
    | with_reducible refine markIn_keeps ?_
    | with_reducible refine refreshHolds_keeps ?_
    | with_reducible refine chanSet_keeps ?_
    | with_reducible refine chanStart_keeps ?_
    | with_reducible refine Keeps.ite (fun _ => ?_) (fun _ => ?_)

theorem noteCodes_keeps {s0 : State} {s : State} {p : Nat} {sm : Sampling} (h : Keeps s0 s) :
    Keeps s0 (noteCodes s p sm) := by
  unfold noteCodes
  dsimp only
  repeat' first
    | with_reducible assumption
    | with_reducible refine Keeps.fset ?_
    | with_reducible refine Keeps.ite (fun _ => ?_) (fun _ => ?_)
    | with_reducible refine Keeps.each _ (fun _ _ _ => ?_) ?_

theorem chanStop_keeps {s0 : State} {s : State} {c : Nat} {tick : Nat} (h : Keeps s0 s) :
    Keeps s0 (chanStop s c tick) := by
  unfold chanStop
  dsimp only
  repeat' first
    | with_reducible assumption
    | with_reducible refine chanSet_keeps ?_
    | with_reducible refine safeRoutes_keeps ?_
    | with_reducible refine Keeps.fset ?_
    | with_reducible refine testChannelGone_keeps ?_
    | with_reducible refine pageIrq_keeps ?_

theorem chanLeave_keeps {s0 : State} {s : State} {c : Nat} (h : Keeps s0 s) :
    Keeps s0 (chanLeave s c) := by
  unfold chanLeave
  dsimp only
  repeat' first
    | with_reducible assumption
    | with_reducible refine chanSet_keeps ?_
    | with_reducible refine Keeps.fset ?_
    | with_reducible refine refreshHolds_keeps ?_
    | with_reducible refine pageIrq_keeps ?_
    | with_reducible refine testChannelGone_keeps ?_
    | with_reducible refine stopRequest_keeps ?_

theorem chanFail_keeps {s0 : State} {s : State} {c : Nat} {detail : Nat} (h : Keeps s0 s) :
    Keeps s0 (chanFail s c detail) := by
  unfold chanFail
  repeat' first
    | with_reducible assumption
    | with_reducible refine chanLeave_keeps ?_
    | with_reducible refine unitFault_keeps ?_

theorem setChFlags_keeps {s0 : State} {s : State} {p : Nat} {bits : Nat} (h : Keeps s0 s) :
    Keeps s0 (setChFlags s p bits) := by
  unfold setChFlags
  dsimp only
  repeat' first
    | with_reducible assumption
    | with_reducible refine Keeps.fset ?_
    | with_reducible refine pageIrq_keeps ?_
    | with_reducible refine Keeps.ite (fun _ => ?_) (fun _ => ?_)

theorem latchSample_keeps {s0 : State} {s : State} {c : Nat} {tick : Nat} {sm : Sampling} {fault : LoopFault} (h : Keeps s0 s) :
    Keeps s0 (latchSample s c tick sm fault) := by
  unfold latchSample
  extract_lets p detail s1
  refine Keeps.ite (fun _ => chanFail_keeps (noteCodes_keeps h)) (fun _ => ?_)
  have h1 : Keeps s0 s1 := noteCodes_keeps h
  clear_value s1 p detail
  split
  rename_i t1 s2 e2
  have h2 : Keeps s0 s2 := Keeps.snd e2 (testAt_keeps h1)
  split
  rename_i t3 s3 e3
  have h3 : Keeps s0 s3 := by
    split at e3
    · split at e3
      · cases e3; exact testFinish_keeps h2
      · cases e3; exact h2
    · cases e3; exact h2
  extract_lets blocked mode
  clear_value blocked mode
  split
  extract_lets point res xn s4 s5 s6 s7 s8 s9 s10 s11
  have h4 : Keeps s0 s4 := chanSet_keeps h3
  have h5 : Keeps s0 s5 := setChFlags_keeps h4
  have h6 : Keeps s0 s6 := Keeps.fset (Keeps.fset h5)
  have h8 : Keeps s0 s8 := Keeps.fset (Keeps.fset h6)
  have h9 : Keeps s0 s9 := Keeps.ite (fun _ => pageIrq_keeps h8) (fun _ => h8)
  have h11 : Keeps s0 s11 := stateCopy_keeps (writeRoutes_keeps h9)
  clear_value s11
  split
  · exact h11
  · exact testSample_keeps (Keeps.free (Keeps.free (Keeps.free h11)))

theorem loopEpoch_keeps {s0 : State} {s : State} {entries : Nat → Word × Word × Word × Word} {tick : Nat} (h : Keeps s0 s) :
    Keeps s0 (loopEpoch s entries tick) := by
  unfold loopEpoch
  dsimp only
  repeat' first
    | with_reducible assumption
    | with_reducible refine safeRoutes_keeps ?_
    | with_reducible refine chanSet_keeps ?_
    | with_reducible refine testChannelGone_keeps ?_
    | with_reducible refine Keeps.setReg ?_
    | with_reducible refine Keeps.fset ?_
    | with_reducible refine Keeps.ite (fun _ => ?_) (fun _ => ?_)
    | with_reducible refine Keeps.each _ (fun _ _ _ => ?_) ?_

theorem execPinEdge_keeps {s0 : State} {pin : Nat} {edgeA : Bool} {edgeB : Bool} {s : State} (h : Keeps s0 s) :
    ∀ t, (execPinEdge pin edgeA edgeB s) = .next t → Keeps s0 t := by
  unfold execPinEdge
  dsimp only
  intro t ht
  obtain rfl := Host.Outcome.next.inj ht
  clear ht
  repeat' first
    | with_reducible assumption
    | with_reducible refine Keeps.fset ?_
    | with_reducible refine pageIrq_keeps ?_
    | with_reducible refine Keeps.ite (fun _ => ?_) (fun _ => ?_)
    | fail_if_no_progress (with_reducible refine Keeps.upd0 ?_ rfl rfl rfl)
    | split

theorem pinCfgTake_keeps {s0 : State} {s : State} {off : Nat} {w : Word} (h : Keeps s0 s) :
    Keeps s0 (pinCfgTake s off w) := by
  unfold pinCfgTake
  dsimp only
  repeat' first
    | with_reducible assumption
    | with_reducible refine Keeps.setReg ?_
    | with_reducible refine Keeps.ite (fun _ => ?_) (fun _ => ?_)

theorem execLoopTest_keeps {s0 : State} {job : Nat} {s : State} (h : Keeps s0 s) :
    ∀ t, (execLoopTest job s) = .next t → Keeps s0 t := by
  unfold execLoopTest
  dsimp only
  intro t ht
  obtain rfl := Host.Outcome.next.inj ht
  clear ht
  repeat' first
    | with_reducible assumption
    | with_reducible refine jobDone_keeps ?_
    | with_reducible refine jobSet_keeps ?_
    | with_reducible refine Keeps.fset ?_
    | with_reducible refine Keeps.setReg ?_
    | with_reducible refine Keeps.ite (fun _ => ?_) (fun _ => ?_)
    | fail_if_no_progress (with_reducible refine Keeps.upd0 ?_ rfl rfl rfl)
    | split

theorem tableFill_keeps {s0 : State} {s : State} {d : List Byte} {poison : List Nat} (h : Keeps s0 s) :
    Keeps s0 (tableFill s d poison) := by
  unfold tableFill
  dsimp only
  repeat' first
    | with_reducible assumption
    | fail_if_no_progress (with_reducible refine Keeps.upd0 ?_ rfl rfl rfl)

theorem execLoopTable_keeps {s0 : State} {job : Nat} {s : State} (h : Keeps s0 s) :
    ∀ t, (execLoopTable job s) = .next t → Keeps s0 t := by
  unfold execLoopTable
  dsimp only
  intro t ht
  obtain rfl := Host.Outcome.next.inj ht
  clear ht
  repeat' first
    | with_reducible assumption
    | with_reducible refine jobDone_keeps ?_
    | with_reducible refine withHostData_keeps (fun s _ _ _ => ?_) (fun s _ _ => ?_) ?_
    | with_reducible refine tableFill_keeps ?_
    | with_reducible refine Keeps.fset ?_
    | with_reducible refine Keeps.ite (fun _ => ?_) (fun _ => ?_)
    | split

theorem execLoopRead_keeps {s0 : State} {job : Nat} {ue : Bool} {s : State} (h : Keeps s0 s) :
    ∀ t, (execLoopRead job ue s) = .next t → Keeps s0 t := by
  unfold execLoopRead
  dsimp only
  intro t ht
  obtain rfl := Host.Outcome.next.inj ht
  clear ht
  repeat' first
    | with_reducible assumption
    | with_reducible refine jobDone_keeps ?_
    | with_reducible refine Keeps.hostSend ?_
    | with_reducible refine Keeps.ite (fun _ => ?_) (fun _ => ?_)
    | split

end Sys2Proof.Machine
end

