-- ==== Sys2Proof/Laws/KeepsQueue.lean ====
section
/-! SUPPORT. Each operation of Machine/Queue.lean keeps what `Keeps` says. -/

namespace Sys2Proof.Machine

theorem pushDropped_keeps {s0 : State} {s : State} {q : Nat} {part : Nat} (h : Keeps s0 s) :
    Keeps s0 (pushDropped s q part) := by
  unfold pushDropped
  dsimp only
  repeat' first
    | with_reducible assumption
    | with_reducible refine Keeps.fincSat ?_
    | with_reducible refine capture_keeps ?_

theorem pushAt_keeps {s0 : State} {s : State} {part : Nat} {q : Nat} {slot : Nat} {e : BitVec 512} (h : Keeps s0 s) :
    Keeps s0 (pushAt s part q slot e) := by
  unfold pushAt
  dsimp only
  repeat' first
    | with_reducible assumption
    | with_reducible refine foreign_keeps ?_
    | with_reducible refine pushDropped_keeps ?_
    | with_reducible refine qpSet_keeps ?_
    | with_reducible refine Keeps.ite (fun _ => ?_) (fun _ => ?_)

theorem execPush_keeps {s0 : State} {part : Nat} {qp : Nat} {slot : Nat} {entry : BitVec 512} {s : State} (h : Keeps s0 s) :
    ∀ t, (execPush part qp slot entry s) = .next t → Keeps s0 t := by
  unfold execPush
  intro t ht
  obtain rfl := Host.Outcome.next.inj ht
  clear ht
  repeat' first
    | with_reducible assumption
    | with_reducible refine hostReady_keeps (fun s _ => ?_) ?_
    | with_reducible refine pushAt_keeps ?_

theorem pushFragment_keeps {s0 : State} {s : State} {part : Nat} {q : Nat} (h : Keeps s0 s) :
    Keeps s0 (pushFragment s part q) := by
  unfold pushFragment
  repeat' first
    | with_reducible assumption
    | with_reducible refine capture_keeps ?_

theorem dropCovered_keeps {s0 : State} {s : State} {part : Nat} {q : Nat} {x3 : List Nat} (h : Keeps s0 s) :
    Keeps s0 (dropCovered s part q x3) := by
  induction x3 generalizing s with
  | nil =>
    unfold dropCovered
    with_reducible assumption
  | cons a l ih =>
    unfold dropCovered
    dsimp only
    repeat' first
      | with_reducible assumption
      | with_reducible refine ih ?_
      | with_reducible refine pushDropped_keeps ?_
      | with_reducible refine qpSet_keeps ?_
      | with_reducible refine Keeps.ite (fun _ => ?_) (fun _ => ?_)

theorem sqDoorbellValue_keeps {s0 : State} {s : State} {part : Nat} {q : Nat} {v : Nat} (h : Keeps s0 s) :
    Keeps s0 (sqDoorbellValue s part q v) := by
  unfold sqDoorbellValue
  dsimp only
  repeat' first
    | with_reducible assumption
    | with_reducible refine capture_keeps ?_
    | with_reducible refine Keeps.fincSat ?_
    | with_reducible refine qpSet_keeps ?_
    | with_reducible refine dropCovered_keeps ?_
    | with_reducible refine Keeps.ite (fun _ => ?_) (fun _ => ?_)

theorem execSqDoorbell_keeps {s0 : State} {part : Nat} {qp : Nat} {be : BitVec 4} {value : Word} {otherBytes : Bool} {s : State} (h : Keeps s0 s) :
    ∀ t, (execSqDoorbell part qp be value otherBytes s) = .next t → Keeps s0 t := by
  unfold execSqDoorbell
  dsimp only
  intro t ht
  obtain rfl := Host.Outcome.next.inj ht
  clear ht
  repeat' first
    | with_reducible assumption
    | with_reducible refine hostReady_keeps (fun s _ => ?_) ?_
    | with_reducible refine foreign_keeps ?_
    | with_reducible refine sqDoorbellValue_keeps ?_
    | with_reducible refine pushFragment_keeps ?_
    | with_reducible refine Keeps.ite (fun _ => ?_) (fun _ => ?_)

theorem cqDoorbellValue_keeps {s0 : State} {s : State} {part : Nat} {q : Nat} {v : Nat} (h : Keeps s0 s) :
    Keeps s0 (cqDoorbellValue s part q v) := by
  unfold cqDoorbellValue
  dsimp only
  repeat' first
    | with_reducible assumption
    | with_reducible refine qpSet_keeps ?_
    | with_reducible refine capture_keeps ?_
    | with_reducible refine Keeps.fincSat ?_
    | with_reducible refine Keeps.ite (fun _ => ?_) (fun _ => ?_)

theorem execCqDoorbell_keeps {s0 : State} {part : Nat} {qp : Nat} {be : BitVec 4} {value : Word} {otherBytes : Bool} {s : State} (h : Keeps s0 s) :
    ∀ t, (execCqDoorbell part qp be value otherBytes s) = .next t → Keeps s0 t := by
  unfold execCqDoorbell
  dsimp only
  intro t ht
  obtain rfl := Host.Outcome.next.inj ht
  clear ht
  repeat' first
    | with_reducible assumption
    | with_reducible refine hostReady_keeps (fun s _ => ?_) ?_
    | with_reducible refine foreign_keeps ?_
    | with_reducible refine cqDoorbellValue_keeps ?_
    | with_reducible refine pushFragment_keeps ?_
    | with_reducible refine Keeps.ite (fun _ => ?_) (fun _ => ?_)

theorem fetchFailed_keeps {s0 : State} {s : State} {q : Nat} (h : Keeps s0 s) :
    Keeps s0 (fetchFailed s q) := by
  unfold fetchFailed
  dsimp only
  repeat' first
    | with_reducible assumption
    | with_reducible refine capture_keeps ?_
    | with_reducible refine pageIrq_keeps ?_
    | with_reducible refine qpSet_keeps ?_

theorem execRingReadComplete_keeps {s0 : State} {qp : Nat} {res : RingRead} {s : State} (h : Keeps s0 s) :
    ∀ t, (execRingReadComplete qp res s) = .next t → Keeps s0 t := by
  unfold execRingReadComplete
  dsimp only
  intro t ht
  obtain rfl := Host.Outcome.next.inj ht
  clear ht
  repeat' first
    | with_reducible assumption
    | with_reducible refine qpSet_keeps ?_
    | with_reducible refine Keeps.hostNote ?_
    | with_reducible refine fetchFailed_keeps ?_
    | with_reducible refine Keeps.ite (fun _ => ?_) (fun _ => ?_)
    | split

theorem beginTurn_keeps {s0 : State} {s : State} {q : Nat} (h : Keeps s0 s) :
    Keeps s0 (beginTurn s q) := by
  unfold beginTurn
  dsimp only
  repeat' first
    | with_reducible assumption
    | with_reducible refine Keeps.ite (fun _ => ?_) (fun _ => ?_)
    | fail_if_no_progress (with_reducible refine Keeps.upd0 ?_ rfl rfl rfl)

theorem turnJob_keeps {s0 : State} {s : State} (h : Keeps s0 s) :
    Keeps s0 (turnJob s) := by
  unfold turnJob
  dsimp only
  repeat' first
    | with_reducible assumption
    | fail_if_no_progress (with_reducible refine Keeps.upd0 ?_ rfl rfl rfl)

theorem chainBroken_keeps {s0 : State} {s : State} {j : Nat} (h : Keeps s0 s) :
    Keeps s0 (chainBroken s j) := by
  unfold chainBroken
  repeat' first
    | with_reducible assumption
    | with_reducible refine jobDone_keeps ?_
    | split

theorem newJob_keeps {s0 : State} {s : State} {q : Nat} {e : BitVec 512} (h : Keeps s0 s) :
    Keeps s0 (newJob s q e).2 := by
  unfold newJob
  dsimp only
  repeat' first
    | with_reducible assumption
    | with_reducible refine jobSet_keeps ?_
    | fail_if_no_progress (with_reducible refine Keeps.upd0 ?_ rfl rfl rfl)
    | split

theorem jobAdmitted_keeps {s0 : State} {s : State} {j : Nat} {last : BitVec 512} (h : Keeps s0 s) :
    Keeps s0 (jobAdmitted s j last) := by
  unfold jobAdmitted
  dsimp only
  repeat' first
    | with_reducible assumption
    | with_reducible refine jobSet_keeps ?_
    | with_reducible refine jobDone_keeps ?_
    | with_reducible refine Keeps.ite (fun _ => ?_) (fun _ => ?_)
    | split

theorem setChain_keeps {s0 : State} {s : State} {q : Nat} {c : ChainSt} (h : Keeps s0 s) :
    Keeps s0 (setChain s q c) := by
  unfold setChain
  dsimp only
  repeat' first
    | with_reducible assumption
    | with_reducible refine qpSet_keeps ?_

theorem admitFirst_keeps {s0 : State} {s : State} {q : Nat} {e : BitVec 512} (h : Keeps s0 s) :
    Keeps s0 (admitFirst s q e) := by
  unfold admitFirst
  repeat' first
    | with_reducible assumption
    | with_reducible refine newJob_keeps ?_
    | with_reducible refine turnJob_keeps ?_
    | with_reducible refine jobAdmitted_keeps ?_
    | with_reducible refine setChain_keeps ?_
    | with_reducible refine Keeps.ite (fun _ => ?_) (fun _ => ?_)
    | with_reducible refine Keeps.snd (by assumption) ?_
    | split

theorem admitStray_keeps {s0 : State} {s : State} {q : Nat} {e : BitVec 512} (h : Keeps s0 s) :
    Keeps s0 (admitStray s q e) := by
  unfold admitStray
  repeat' first
    | with_reducible assumption
    | with_reducible refine newJob_keeps ?_
    | with_reducible refine turnJob_keeps ?_
    | with_reducible refine chainBroken_keeps ?_
    | with_reducible refine setChain_keeps ?_
    | with_reducible refine Keeps.ite (fun _ => ?_) (fun _ => ?_)
    | with_reducible refine Keeps.snd (by assumption) ?_
    | split

theorem admitNext_keeps {s0 : State} {s : State} {q : Nat} {j : Nat} {count : Nat} {e : BitVec 512} (h : Keeps s0 s) :
    Keeps s0 (admitNext s q j count e) := by
  unfold admitNext
  dsimp only
  repeat' first
    | with_reducible assumption
    | with_reducible refine setChain_keeps ?_
    | with_reducible refine turnJob_keeps ?_
    | with_reducible refine chainBroken_keeps ?_
    | with_reducible refine jobSet_keeps ?_
    | with_reducible refine jobAdmitted_keeps ?_
    | with_reducible refine Keeps.ite (fun _ => ?_) (fun _ => ?_)
    | split

theorem endChain_keeps {s0 : State} {s : State} {q : Nat} (h : Keeps s0 s) :
    Keeps s0 (endChain s q) := by
  unfold endChain
  repeat' first
    | with_reducible assumption
    | with_reducible refine chainBroken_keeps ?_
    | with_reducible refine setChain_keeps ?_
    | split

theorem admitPoisoned_keeps {s0 : State} {s : State} {q : Nat} {e : BitVec 512} (h : Keeps s0 s) :
    Keeps s0 (admitPoisoned s q e) := by
  unfold admitPoisoned
  repeat' first
    | with_reducible assumption
    | with_reducible refine newJob_keeps ?_
    | with_reducible refine endChain_keeps ?_
    | with_reducible refine turnJob_keeps ?_
    | with_reducible refine jobDone_keeps ?_
    | with_reducible refine Keeps.snd (by assumption) ?_
    | split

theorem takeEntry_keeps {s0 : State} {s : State} {q : Nat} {fromPush : Bool} (h : Keeps s0 s) :
    Keeps s0 (takeEntry s q fromPush) := by
  unfold takeEntry
  dsimp only
  repeat' first
    | with_reducible assumption
    | with_reducible refine qpSet_keeps ?_
    | with_reducible refine Keeps.ite (fun _ => ?_) (fun _ => ?_)

theorem admitEntry_keeps {s0 : State} {s : State} {q : Nat} {ue : Bool} (h : Keeps s0 s) :
    Keeps s0 (admitEntry s q ue) := by
  unfold admitEntry
  dsimp only
  repeat' first
    | with_reducible assumption
    | with_reducible refine takeEntry_keeps ?_
    | with_reducible refine beginTurn_keeps ?_
    | with_reducible refine admitPoisoned_keeps ?_
    | with_reducible refine admitFirst_keeps ?_
    | with_reducible refine endChain_keeps ?_
    | with_reducible refine admitStray_keeps ?_
    | with_reducible refine admitNext_keeps ?_
    | with_reducible refine turnJob_keeps ?_
    | with_reducible refine chainBroken_keeps ?_
    | with_reducible refine setChain_keeps ?_
    | with_reducible refine Keeps.ite (fun _ => ?_) (fun _ => ?_)
    | split

theorem qeInternal_keeps {s0 : State} {s : State} (h : Keeps s0 s) :
    Keeps s0 (qeInternal s) := by
  unfold qeInternal
  dsimp only
  repeat' first
    | with_reducible assumption
    | with_reducible refine capture_keeps ?_
    | with_reducible refine Keeps.hostNote ?_
    | fail_if_no_progress (with_reducible refine Keeps.upd0 ?_ rfl rfl rfl)

theorem execEntryAdmit_keeps {s0 : State} {ue : AdmitUe} {s : State} (h : Keeps s0 s) :
    ∀ t, (execEntryAdmit ue s) = .next t → Keeps s0 t := by
  unfold execEntryAdmit
  intro t ht
  obtain rfl := Host.Outcome.next.inj ht
  clear ht
  repeat' first
    | with_reducible assumption
    | with_reducible refine qeInternal_keeps ?_
    | with_reducible refine admitEntry_keeps ?_
    | split

theorem execJobReady_keeps {s0 : State} {job : Nat} {s : State} (h : Keeps s0 s) :
    ∀ t, (execJobReady job s) = .next t → Keeps s0 t := by
  unfold execJobReady
  intro t ht
  obtain rfl := Host.Outcome.next.inj ht
  clear ht
  repeat' first
    | with_reducible assumption
    | with_reducible refine jobDone_keeps ?_
    | with_reducible refine jobSet_keeps ?_
    | with_reducible refine Keeps.ite (fun _ => ?_) (fun _ => ?_)
    | split

theorem qpInterrupt_keeps {s0 : State} {s : State} {q : Nat} (h : Keeps s0 s) :
    Keeps s0 (qpInterrupt s q) := by
  unfold qpInterrupt
  dsimp only
  repeat' first
    | with_reducible assumption
    | with_reducible refine Keeps.hostSend ?_
    | with_reducible refine qpSet_keeps ?_

theorem qpIrqCheck_keeps {s0 : State} {s : State} {q : Nat} (h : Keeps s0 s) :
    Keeps s0 (qpIrqCheck s q) := by
  unfold qpIrqCheck
  repeat' first
    | with_reducible assumption
    | with_reducible refine qpInterrupt_keeps ?_
    | with_reducible refine Keeps.ite (fun _ => ?_) (fun _ => ?_)

theorem cqWrite_keeps {s0 : State} {s : State} {q : Nat} {tag : Nat} {status : Nat} {covered : Nat} {result : Nat} {irq : Bool} (h : Keeps s0 s) :
    Keeps s0 (cqWrite s q tag status covered result irq) := by
  unfold cqWrite
  dsimp only
  repeat' first
    | with_reducible assumption
    | with_reducible refine Keeps.hostSend ?_
    | with_reducible refine qpSet_keeps ?_
    | with_reducible refine qpIrqCheck_keeps ?_
    | with_reducible refine Keeps.ite (fun _ => ?_) (fun _ => ?_)

theorem jobFree_keeps {s0 : State} {s : State} {j : Nat} (h : Keeps s0 s) :
    Keeps s0 (jobFree s j) := by
  unfold jobFree
  dsimp only
  repeat' first
    | with_reducible assumption
    | fail_if_no_progress (with_reducible refine Keeps.upd0 ?_ rfl rfl rfl)

theorem jobWritten_keeps {s0 : State} {s : State} {q j : Nat} {x : Job} (h : Keeps s0 s) : Keeps s0 (jobWritten s q j x) := by
  unfold jobWritten
  exact Keeps.ite (fun _ => jobFree_keeps h) fun _ => jobSet_keeps h

theorem completeOldest_keeps {s0 : State} {s : State} {q : Nat} {discard : Bool} (h : Keeps s0 s) :
    Keeps s0 (completeOldest s q discard) := by
  unfold completeOldest
  dsimp only
  repeat' first
    | with_reducible assumption
    | with_reducible refine jobFree_keeps ?_
    | with_reducible refine jobWritten_keeps ?_
    | with_reducible refine qpSet_keeps ?_
    | with_reducible refine cqWrite_keeps ?_
    | with_reducible refine Keeps.ite (fun _ => ?_) (fun _ => ?_)
    | split

theorem qpRelease_keeps {s0 : State} {s : State} {q : Nat} (h : Keeps s0 s) :
    Keeps s0 (qpRelease s q) := by
  unfold qpRelease
  dsimp only
  repeat' first
    | with_reducible assumption
    | with_reducible refine Keeps.fset ?_
    | with_reducible refine qpSet_keeps ?_
    | fail_if_no_progress (with_reducible refine Keeps.regsFilter ?_)

theorem deleteDone_keeps {s0 : State} {s : State} {q : Nat} (h : Keeps s0 s) :
    Keeps s0 (deleteDone s q) := by
  unfold deleteDone
  dsimp only
  repeat' first
    | with_reducible assumption
    | with_reducible refine jobDone_keeps ?_
    | with_reducible refine qpRelease_keeps ?_
    | with_reducible refine Keeps.ite (fun _ => ?_) (fun _ => ?_)
    | split

theorem heldGone_keeps {s0 : State} {s : State} {fn : Nat} (h : Keeps s0 s) : Keeps s0 (heldGone s fn) := by
  unfold heldGone
  dsimp only
  exact Keeps.each _ (fun _ _ h => deleteDone_keeps h) (Keeps.each _ (fun _ _ h => jobFree_keeps h) h)

theorem resetOldest_keeps {s0 : State} {s : State} {q : Nat} {n : Nat} {r : PartReset} (h : Keeps s0 s) :
    Keeps s0 (resetOldest s q n r) := by
  unfold resetOldest
  dsimp only
  repeat' first
    | with_reducible assumption
    | with_reducible refine jobFree_keeps ?_
    | with_reducible refine qpSet_keeps ?_
    | with_reducible refine completeOldest_keeps ?_
    | with_reducible refine Keeps.ite (fun _ => ?_) (fun _ => ?_)
    | fail_if_no_progress (with_reducible refine Keeps.upd0 ?_ rfl rfl rfl)
    | split

theorem execCqEntryWrite_keeps {s0 : State} {qp : Nat} {s : State} (h : Keeps s0 s) :
    ∀ t, (execCqEntryWrite qp s) = .next t → Keeps s0 t := by
  unfold execCqEntryWrite
  dsimp only
  intro t ht
  obtain rfl := Host.Outcome.next.inj ht
  clear ht
  repeat' first
    | with_reducible assumption
    | with_reducible refine deleteDone_keeps ?_
    | with_reducible refine resetOldest_keeps ?_
    | with_reducible refine completeOldest_keeps ?_
    | with_reducible refine Keeps.ite (fun _ => ?_) (fun _ => ?_)
    | split

theorem execIrqTimerExpiry_keeps {s0 : State} {qp : Nat} {s : State} (h : Keeps s0 s) :
    ∀ t, (execIrqTimerExpiry qp s) = .next t → Keeps s0 t := by
  unfold execIrqTimerExpiry
  dsimp only
  intro t ht
  obtain rfl := Host.Outcome.next.inj ht
  clear ht
  repeat' first
    | with_reducible assumption
    | with_reducible refine Keeps.reach ?_
    | with_reducible refine qpInterrupt_keeps ?_
    | with_reducible refine Keeps.ite (fun _ => ?_) (fun _ => ?_)
    | split

theorem adminEnable_keeps {s0 : State} {s : State} {q : Nat} (h : Keeps s0 s) :
    Keeps s0 (adminEnable s q) := by
  unfold adminEnable
  dsimp only
  repeat' first
    | with_reducible assumption
    | with_reducible refine qpPut_keeps ?_
    | with_reducible refine qpSet_keeps ?_
    | with_reducible refine Keeps.ite (fun _ => ?_) (fun _ => ?_)

theorem adminDisable_keeps {s0 : State} {s : State} {q : Nat} (h : Keeps s0 s) :
    Keeps s0 (adminDisable s q) := by
  unfold adminDisable
  dsimp only
  repeat' first
    | with_reducible assumption
    | with_reducible refine endChain_keeps ?_
    | with_reducible refine qpPut_keeps ?_
    | with_reducible refine qpSet_keeps ?_

theorem qpCtrlRest_keeps {s0 : State} {s : State} {q : Nat} {data : Word} (h : Keeps s0 s) :
    Keeps s0 (qpCtrlRest s q data) := by
  unfold qpCtrlRest
  dsimp only
  repeat' first
    | with_reducible assumption
    | with_reducible refine qpPut_keeps ?_
    | with_reducible refine qpInterrupt_keeps ?_
    | with_reducible refine Keeps.ite (fun _ => ?_) (fun _ => ?_)

theorem qpCtrlWrite_keeps {s0 : State} {s : State} {q : Nat} {data : Word} (h : Keeps s0 s) :
    Keeps s0 (qpCtrlWrite s q data) := by
  unfold qpCtrlWrite
  dsimp only
  repeat' first
    | with_reducible assumption
    | with_reducible refine qpCtrlRest_keeps ?_
    | with_reducible refine adminEnable_keeps ?_
    | with_reducible refine adminDisable_keeps ?_
    | with_reducible refine Keeps.ite (fun _ => ?_) (fun _ => ?_)

theorem qpCtrlHost_keeps {s0 : State} {s : State} {part : Nat} {q : Nat} {data : Word} (h : Keeps s0 s) :
    Keeps s0 (qpCtrlHost s part q data) := by
  unfold qpCtrlHost
  repeat' first
    | with_reducible assumption
    | with_reducible refine qpCtrlWrite_keeps ?_
    | with_reducible refine foreign_keeps ?_
    | with_reducible refine Keeps.ite (fun _ => ?_) (fun _ => ?_)

theorem execAdminQpEnable_keeps {s0 : State} {part : Nat} {qp : Nat} {data : Word} {s : State} (h : Keeps s0 s) :
    ∀ t, (execAdminQpEnable part qp data s) = .next t → Keeps s0 t := by
  unfold execAdminQpEnable
  intro t ht
  obtain rfl := Host.Outcome.next.inj ht
  clear ht
  repeat' first
    | with_reducible assumption
    | with_reducible refine hostReady_keeps (fun s _ => ?_) ?_
    | with_reducible refine qpCtrlHost_keeps ?_

theorem execAdminQpDisable_keeps {s0 : State} {part : Nat} {qp : Nat} {data : Word} {s : State} (h : Keeps s0 s) :
    ∀ t, (execAdminQpDisable part qp data s) = .next t → Keeps s0 t := by
  unfold execAdminQpDisable
  intro t ht
  obtain rfl := Host.Outcome.next.inj ht
  clear ht
  repeat' first
    | with_reducible assumption
    | with_reducible refine hostReady_keeps (fun s _ => ?_) ?_
    | with_reducible refine qpCtrlHost_keeps ?_

theorem execNop_keeps {s0 : State} {job : Nat} {s : State} (h : Keeps s0 s) :
    ∀ t, (execNop job s) = .next t → Keeps s0 t := by
  unfold execNop
  intro t ht
  obtain rfl := Host.Outcome.next.inj ht
  clear ht
  repeat' first
    | with_reducible assumption
    | with_reducible refine jobDone_keeps ?_
    | split

theorem qpCreate_keeps {s0 : State} {s : State} {x : Job} {q : Nat} (h : Keeps s0 s) :
    Keeps s0 (qpCreate s x q) := by
  unfold qpCreate
  dsimp only
  repeat' first
    | with_reducible assumption
    | with_reducible refine qpPut_keeps ?_
    | with_reducible refine Keeps.fset ?_
    | with_reducible refine qpSet_keeps ?_

theorem execQpCreate_keeps {s0 : State} {job : Nat} {s : State} (h : Keeps s0 s) :
    ∀ t, (execQpCreate job s) = .next t → Keeps s0 t := by
  unfold execQpCreate
  intro t ht
  obtain rfl := Host.Outcome.next.inj ht
  clear ht
  repeat' first
    | with_reducible assumption
    | with_reducible refine jobDone_keeps ?_
    | with_reducible refine qpCreate_keeps ?_
    | split

theorem cancelJob_keeps {s0 : State} {s : State} {j : Nat} (h : Keeps s0 s) :
    Keeps s0 (cancelJob s j) := by
  unfold cancelJob
  repeat' first
    | with_reducible assumption
    | with_reducible refine jobDone_keeps ?_
    | with_reducible refine jobSet_keeps ?_
    | split

theorem eachJob_keeps {s0 : State} {f : State → Nat → State} {s : State} {js : List Nat} (hk1 : ∀ s (a0 : Nat), Keeps s0 s → Keeps s0 (f s a0)) (h : Keeps s0 s) :
    Keeps s0 (eachJob f s js) := by
  unfold eachJob
  repeat' first
    | with_reducible assumption
    | with_reducible refine hk1 _ _ ?_
    | with_reducible refine Keeps.foldl _ (fun _ _ _ => ?_) ?_

theorem qpDelete_keeps {s0 : State} {s : State} {job : Nat} {q : Nat} {abortMode : Bool} (h : Keeps s0 s) :
    Keeps s0 (qpDelete s job q abortMode) := by
  unfold qpDelete
  dsimp only
  repeat' first
    | with_reducible assumption
    | with_reducible refine endChain_keeps ?_
    | with_reducible refine qpSet_keeps ?_
    | with_reducible refine eachJob_keeps (fun s _ _ => ?_) ?_
    | with_reducible refine cancelJob_keeps ?_
    | with_reducible refine deleteDone_keeps ?_
    | with_reducible refine Keeps.ite (fun _ => ?_) (fun _ => ?_)

theorem execQpDelete_keeps {s0 : State} {job : Nat} {s : State} (h : Keeps s0 s) :
    ∀ t, (execQpDelete job s) = .next t → Keeps s0 t := by
  unfold execQpDelete
  dsimp only
  intro t ht
  obtain rfl := Host.Outcome.next.inj ht
  clear ht
  repeat' first
    | with_reducible assumption
    | with_reducible refine jobDone_keeps ?_
    | with_reducible refine qpDelete_keeps ?_
    | with_reducible refine jobSet_keeps ?_
    | with_reducible refine Keeps.ite (fun _ => ?_) (fun _ => ?_)
    | split

theorem execAbort_keeps {s0 : State} {job : Nat} {s : State} (h : Keeps s0 s) :
    ∀ t, (execAbort job s) = .next t → Keeps s0 t := by
  unfold execAbort
  dsimp only
  intro t ht
  obtain rfl := Host.Outcome.next.inj ht
  clear ht
  repeat' first
    | with_reducible assumption
    | with_reducible refine jobDone_keeps ?_
    | with_reducible refine cancelJob_keeps ?_
    | with_reducible refine Keeps.ite (fun _ => ?_) (fun _ => ?_)
    | split

end Sys2Proof.Machine
end

