-- ==== Sys2Proof/Laws/KeepsServeKv.lean ====
section
/-! SUPPORT. Each operation of Machine/ServeKv.lean keeps what `Keeps` says. -/

namespace Sys2Proof.Machine

theorem mslotSet_keeps {s0 : State} {s : State} {m : Nat} {x : MSlot} (h : Keeps s0 s) :
    Keeps s0 (mslotSet s m x) := by
  unfold mslotSet
  dsimp only
  repeat' first
    | with_reducible assumption
    | fail_if_no_progress (with_reducible refine Keeps.upd0 ?_ rfl rfl rfl)

theorem reqSet_keeps {s0 : State} {s : State} {r : Nat} {x : Req} (h : Keeps s0 s) :
    Keeps s0 (reqSet s r x) := by
  unfold reqSet
  dsimp only
  repeat' first
    | with_reducible assumption
    | fail_if_no_progress (with_reducible refine Keeps.upd0 ?_ rfl rfl rfl)

theorem reqMod_keeps {s0 : State} {s : State} {r : Nat} {f : Req → Req} (h : Keeps s0 s) :
    Keeps s0 (reqMod s r f) := by
  unfold reqMod
  repeat' first
    | with_reducible assumption
    | with_reducible refine reqSet_keeps ?_

theorem mslotMove_keeps {s0 : State} {s : State} {m : Nat} {v : Nat} (h : Keeps s0 s) :
    Keeps s0 (mslotMove s m v) := by
  unfold mslotMove
  repeat' first
    | with_reducible assumption
    | with_reducible refine pageIrq_keeps ?_
    | with_reducible refine Keeps.fset ?_

theorem kvPut_keeps {s0 : State} {s : State} {p : Nat} {x : KvPage} {next : optParam Nat 0} (h : Keeps s0 s) :
    Keeps s0 (kvPut s p x next) := by
  unfold kvPut
  dsimp only
  repeat' first
    | with_reducible assumption
    | with_reducible refine dramWrite_keeps ?_
    | fail_if_no_progress (with_reducible refine Keeps.upd0 ?_ rfl rfl rfl)

theorem descCheck_keeps {s0 : State} {s : State} {p : Nat} {part : Nat} (h : Keeps s0 s) :
    Keeps s0 (descCheck s p part) := by
  unfold descCheck
  repeat' first
    | with_reducible assumption
    | with_reducible refine dramRead_keeps ?_
    | with_reducible refine qeInternal_keeps ?_
    | with_reducible refine poisonRead_keeps ?_
    | with_reducible refine Keeps.snd (by assumption) ?_
    | split

theorem kvHold_keeps {s0 : State} {s : State} {p : Nat} {part : Nat} {node : Bool} (h : Keeps s0 s) :
    Keeps s0 (kvHold s p part node) := by
  unfold kvHold
  dsimp only
  repeat' first
    | with_reducible assumption
    | with_reducible refine descCheck_keeps ?_
    | with_reducible refine kvPut_keeps ?_

theorem kvDrop_keeps {s0 : State} {s : State} {p : Nat} {part : Nat} {node : Bool} (h : Keeps s0 s) :
    Keeps s0 (kvDrop s p part node) := by
  unfold kvDrop
  dsimp only
  repeat' first
    | with_reducible assumption
    | with_reducible refine descCheck_keeps ?_
    | with_reducible refine kvPut_keeps ?_
    | with_reducible refine Keeps.ite (fun _ => ?_) (fun _ => ?_)
    | fail_if_no_progress (with_reducible refine Keeps.upd0 ?_ rfl rfl rfl)

theorem kvTake_keeps {s0 : State} {s : State} {part : Nat} (h : Keeps s0 s) :
    Keeps s0 (kvTake s part).2 := by
  unfold kvTake
  dsimp only
  repeat' first
    | with_reducible assumption
    | with_reducible refine descCheck_keeps ?_
    | fail_if_no_progress (with_reducible refine Keeps.upd0 ?_ rfl rfl rfl)
    | split

theorem rowWrite_keeps {s0 : State} {s : State} {r : Nat} {i : Nat} {page : Option Nat} (h : Keeps s0 s) :
    Keeps s0 (rowWrite s r i page) := by
  unfold rowWrite
  dsimp only
  repeat' first
    | with_reducible assumption
    | with_reducible refine dramPartial_keeps ?_

theorem rowPoisoned_keeps {s0 : State} {s : State} {r : Nat} (h : Keeps s0 s) :
    Keeps s0 (rowPoisoned s r).2 := by
  unfold rowPoisoned
  dsimp only
  repeat' first
    | with_reducible assumption
    | with_reducible refine dramRead_keeps ?_
    | with_reducible refine Keeps.foldl_snd _ (fun _ _ _ => ?_) ?_

theorem rowAdd_keeps {s0 : State} {s : State} {r : Nat} {i : Nat} {p : Nat} (h : Keeps s0 s) :
    Keeps s0 (rowAdd s r i p) := by
  unfold rowAdd
  dsimp only
  repeat' first
    | with_reducible assumption
    | with_reducible refine reqMod_keeps ?_
    | with_reducible refine rowWrite_keeps ?_

theorem pageNew_keeps {s0 : State} {s : State} {r : Nat} {i : Nat} (h : Keeps s0 s) :
    Keeps s0 (pageNew s r i).2 := by
  unfold pageNew
  dsimp only
  repeat' first
    | with_reducible assumption
    | with_reducible refine kvTake_keeps ?_
    | with_reducible refine kvPut_keeps ?_
    | with_reducible refine reqMod_keeps ?_
    | with_reducible refine rowAdd_keeps ?_
    | with_reducible refine Keeps.snd (by assumption) ?_
    | split

theorem releasePages_keeps {s0 : State} {s : State} {r : Nat} (h : Keeps s0 s) :
    Keeps s0 (releasePages s r) := by
  unfold releasePages
  dsimp only
  repeat' first
    | with_reducible assumption
    | with_reducible refine kvPut_keeps ?_
    | with_reducible refine rowWrite_keeps ?_
    | with_reducible refine kvDrop_keeps ?_
    | with_reducible refine reqMod_keeps ?_
    | with_reducible refine Keeps.ite (fun _ => ?_) (fun _ => ?_)
    | with_reducible refine Keeps.each _ (fun _ _ _ => ?_) ?_
    | split

theorem nodeStore_keeps {s0 : State} {s : State} {n : Nat} {x : PfxNode} {valid : Bool} (h : Keeps s0 s) :
    Keeps s0 (nodeStore s n x valid) := by
  unfold nodeStore
  repeat' first
    | with_reducible assumption
    | with_reducible refine dramWrite_keeps ?_
    | with_reducible refine Keeps.each _ (fun _ _ _ => ?_) ?_

theorem nodePut_keeps {s0 : State} {s : State} {n : Nat} {x : PfxNode} (h : Keeps s0 s) :
    Keeps s0 (nodePut s n x) := by
  unfold nodePut
  dsimp only
  repeat' first
    | with_reducible assumption
    | with_reducible refine nodeStore_keeps ?_
    | fail_if_no_progress (with_reducible refine Keeps.upd0 ?_ rfl rfl rfl)

theorem setFirstChild_keeps {s0 : State} {s : State} {slot : Nat} {scope : Nat} {cur : Option Nat} {child : Option Nat} (h : Keeps s0 s) :
    Keeps s0 (setFirstChild s slot scope cur child) := by
  unfold setFirstChild
  dsimp only
  repeat' first
    | with_reducible assumption
    | with_reducible refine nodePut_keeps ?_
    | fail_if_no_progress (with_reducible refine Keeps.upd0 ?_ rfl rfl rfl)
    | split

theorem nodePoisoned_keeps {s0 : State} {s : State} {n : Nat} {part : Nat} (h : Keeps s0 s) :
    Keeps s0 (nodePoisoned s n part).2 := by
  unfold nodePoisoned
  dsimp only
  repeat' first
    | with_reducible assumption
    | with_reducible refine dramRead_keeps ?_
    | with_reducible refine poisonRead_keeps ?_
    | with_reducible refine Keeps.foldl_snd _ (fun _ _ _ => ?_) ?_
    | split

theorem walkChildren_keeps {s0 : State} {s : State} {part : Nat} {blk : List Nat} {x3 : Nat} {x4 : Option Nat} (h : Keeps s0 s) :
    Keeps s0 (walkChildren s part blk x3 x4).2 := by
  induction x3 generalizing s x4 with
  | zero => unfold walkChildren; dsimp only; with_reducible assumption
  | succ n ih =>
    unfold walkChildren
    split
    · with_reducible assumption
    · with_reducible assumption
    · rename_i e
      cases e
      dsimp only
      split
      · split
        · with_reducible exact ih (nodePoisoned_keeps h)
        · with_reducible exact nodePoisoned_keeps h
      · with_reducible exact ih h

theorem childOf_keeps {s0 : State} {s : State} {slot : Nat} {scope : Nat} {part : Nat} {cur : Option Nat} {blk : List Nat} (h : Keeps s0 s) :
    Keeps s0 (childOf s slot scope part cur blk).2 := by
  unfold childOf
  repeat' first
    | with_reducible assumption
    | with_reducible refine walkChildren_keeps ?_

theorem nodeRemove_keeps {s0 : State} {s : State} {n : Nat} (h : Keeps s0 s) :
    Keeps s0 (nodeRemove s n) := by
  unfold nodeRemove
  dsimp only
  repeat' first
    | with_reducible assumption
    | with_reducible refine setFirstChild_keeps ?_
    | with_reducible refine nodePut_keeps ?_
    | with_reducible refine kvDrop_keeps ?_
    | with_reducible refine nodeStore_keeps ?_
    | with_reducible refine Keeps.ite (fun _ => ?_) (fun _ => ?_)
    | fail_if_no_progress (with_reducible refine Keeps.upd0 ?_ rfl rfl rfl)
    | split

theorem removeNodes_keeps {s0 : State} {s : State} {f : PfxNode → Bool} {x2 : Nat} (h : Keeps s0 s) :
    Keeps s0 (removeNodes s f x2) := by
  induction x2 generalizing s with
  | zero =>
    unfold removeNodes
    with_reducible assumption
  | succ n ih =>
    unfold removeNodes
    repeat' first
      | with_reducible assumption
      | with_reducible refine ih ?_
      | with_reducible refine nodeRemove_keeps ?_
      | split

theorem flushSlot_keeps {s0 : State} {s : State} {m : Nat} (h : Keeps s0 s) :
    Keeps s0 (flushSlot s m) := by
  unfold flushSlot
  repeat' first
    | with_reducible assumption
    | with_reducible refine removeNodes_keeps ?_

theorem evictOne_keeps {s0 : State} {s : State} {keep : List Nat} (h : Keeps s0 s) :
    ∀ t, (evictOne s keep) = some t → Keeps s0 t := by
  unfold evictOne
  cases evictee s keep with
  | none => exact Keeps.optNone
  | some n => exact Keeps.optSome (Keeps.fset (nodeRemove_keeps h))

theorem evictFor_keeps {s0 : State} {s : State} {res : Nat} {other : Nat} {x3 : Nat} (h : Keeps s0 s) :
    Keeps s0 (evictFor s res other x3) := by
  induction x3 generalizing s with
  | zero =>
    unfold evictFor
    with_reducible assumption
  | succ n ih =>
    unfold evictFor
    repeat' first
      | with_reducible assumption
      | with_reducible refine ih ?_
      | with_reducible refine evictOne_keeps ?_
      | with_reducible refine Keeps.ite (fun _ => ?_) (fun _ => ?_)
      | with_reducible refine Keeps.of_opt (by assumption) ?_
      | split

theorem kvSupply_keeps {s0 : State} {s : State} {res : Nat} {other : Nat} (h : Keeps s0 s) :
    Keeps s0 (kvSupply s res other).2 := by
  unfold kvSupply
  dsimp only
  repeat' first
    | with_reducible assumption
    | with_reducible refine evictFor_keeps ?_
    | with_reducible refine Keeps.ite (fun _ => ?_) (fun _ => ?_)

theorem pfxCount_keeps {s0 : State} {s : State} {f : Fld} {d : Nat} (h : Keeps s0 s) :
    Keeps s0 (pfxCount s f d) := by
  unfold pfxCount
  repeat' first
    | with_reducible assumption
    | with_reducible refine Keeps.fset ?_

theorem insertBlock_keeps {s0 : State} {s : State} {r : Nat} {d : Nat} (h : Keeps s0 s) :
    Keeps s0 (insertBlock s r d) := by
  unfold insertBlock
  dsimp only
  repeat' first
    | with_reducible assumption
    | with_reducible refine childOf_keeps ?_
    | with_reducible refine nodePut_keeps ?_
    | with_reducible refine reqMod_keeps ?_
    | with_reducible refine evictOne_keeps ?_
    | with_reducible refine kvHold_keeps ?_
    | with_reducible refine setFirstChild_keeps ?_
    | with_reducible refine pfxCount_keeps ?_
    | with_reducible refine Keeps.snd (by assumption) ?_
    | with_reducible refine Keeps.getD ?_ ?_
    | fail_if_no_progress (with_reducible refine Keeps.upd0 ?_ rfl rfl rfl)
    | split

theorem insertBlocks_keeps {s0 : State} {s : State} {r : Nat} (h : Keeps s0 s) :
    Keeps s0 (insertBlocks s r) := by
  unfold insertBlocks
  dsimp only
  repeat' first
    | with_reducible assumption
    | with_reducible refine insertBlock_keeps ?_
    | with_reducible refine Keeps.ite (fun _ => ?_) (fun _ => ?_)
    | with_reducible refine Keeps.each _ (fun _ _ _ => ?_) ?_

theorem lookupWalk_keeps {s0 : State} {s : State} {slot : Nat} {scope : Nat} {part : Nat} {toks : List Nat} {x5 : Nat} {x6 : Nat} {x7 : Option Nat} (h : Keeps s0 s) :
    Keeps s0 (lookupWalk s slot scope part toks x5 x6 x7).2 := by
  induction x5 generalizing s x6 x7 with
  | zero =>
    unfold lookupWalk
    dsimp only
    with_reducible assumption
  | succ n ih =>
    unfold lookupWalk
    dsimp only
    repeat' first
      | with_reducible assumption
      | with_reducible refine ih ?_
      | with_reducible refine childOf_keeps ?_
      | with_reducible refine Keeps.snd (by assumption) ?_
      | split

theorem lookupReuse_keeps {s0 : State} {s : State} {r : Nat} (h : Keeps s0 s) :
    Keeps s0 (lookupReuse s r) := by
  unfold lookupReuse
  dsimp only
  repeat' first
    | with_reducible assumption
    | with_reducible refine lookupWalk_keeps ?_
    | with_reducible refine pfxCount_keeps ?_
    | with_reducible refine nodePut_keeps ?_
    | with_reducible refine reqMod_keeps ?_
    | with_reducible refine kvHold_keeps ?_
    | with_reducible refine rowAdd_keeps ?_
    | with_reducible refine Keeps.ite (fun _ => ?_) (fun _ => ?_)
    | with_reducible refine Keeps.each _ (fun _ _ _ => ?_) ?_
    | split

theorem copyBlocks_keeps {s0 : State} {s : State} {r : Nat} (h : Keeps s0 s) :
    Keeps s0 (copyBlocks s r) := by
  unfold copyBlocks
  dsimp only
  repeat' first
    | with_reducible assumption
    | with_reducible refine pageNew_keeps ?_
    | with_reducible refine dramLoad_keeps ?_
    | with_reducible refine dramStore_keeps ?_
    | with_reducible refine kvDrop_keeps ?_
    | with_reducible refine reqMod_keeps ?_
    | with_reducible refine Keeps.ite (fun _ => ?_) (fun _ => ?_)
    | with_reducible refine Keeps.each _ (fun _ _ _ => ?_) ?_
    | split

end Sys2Proof.Machine
end

