-- ==== Sys2Proof/Laws/KeepsSampler.lean ====
section
/-! SUPPORT. Each operation of Machine/Sampler.lean keeps what `Keeps` says. -/

namespace Sys2Proof.Machine

theorem maskView_keeps {s0 : State} {s : State} {x : Req} (h : Keeps s0 s) :
    Keeps s0 (maskView s x).2 := by
  unfold maskView
  dsimp only
  repeat' first
    | with_reducible assumption
    | with_reducible refine dramLoad_keeps ?_
    | split

theorem modelImage_keeps {s0 : State} {s : State} {m : Nat} {part : Nat} (h : Keeps s0 s) :
    Keeps s0 (modelImage s m part).2 := by
  unfold modelImage
  dsimp only
  repeat' first
    | with_reducible assumption
    | with_reducible refine dramLoad_keeps ?_

theorem kvData_keeps {s0 : State} {s : State} {r : Nat} {n : Nat} (h : Keeps s0 s) :
    Keeps s0 (kvData s r n).2 := by
  unfold kvData
  dsimp only
  repeat' first
    | with_reducible assumption
    | with_reducible refine rowPoisoned_keeps ?_
    | with_reducible refine poisonRead_keeps ?_
    | with_reducible refine dramLoad_keeps ?_
    | with_reducible refine Keeps.ite (fun _ => ?_) (fun _ => ?_)
    | with_reducible refine Keeps.foldl_snd _ (fun _ _ _ => ?_) ?_

end Sys2Proof.Machine
end

