-- ==== Sys2Proof/Laws/KeepsServeStep.lean ====
section
/-! SUPPORT. Each operation of Machine/ServeStep.lean keeps what `Keeps` says. -/

namespace Sys2Proof.Machine

theorem readHead_keeps {s0 : State} {s : State} {r : Nat} {heads : List (Nat × Nat)} (h : Keeps s0 s) :
    Keeps s0 (readHead s r heads) := by
  unfold readHead
  dsimp only
  repeat' first
    | with_reducible assumption
    | with_reducible refine Keeps.hostSend ?_
    | with_reducible refine reqSet_keeps ?_
    | split

theorem ringEntry_keeps {s0 : State} {s : State} {r : Nat} {low : Nat} {index : Nat} (h : Keeps s0 s) :
    Keeps s0 (ringEntry s r low index) := by
  unfold ringEntry
  dsimp only
  repeat' first
    | with_reducible assumption
    | with_reducible refine Keeps.hostSend ?_
    | with_reducible refine reqSet_keeps ?_

theorem ringToken_keeps {s0 : State} {s : State} {r : Nat} {t : Nat} (h : Keeps s0 s) :
    Keeps s0 (ringToken s r t) := by
  unfold ringToken
  dsimp only
  repeat' first
    | with_reducible assumption
    | with_reducible refine ringEntry_keeps ?_
    | with_reducible refine reqMod_keeps ?_

theorem ringMarker_keeps {s0 : State} {s : State} {r : Nat} {e : Nat} {heads : List (Nat × Nat)} (h : Keeps s0 s) :
    Keeps s0 (ringMarker s r e heads) := by
  unfold ringMarker
  dsimp only
  repeat' first
    | with_reducible assumption
    | with_reducible refine readHead_keeps ?_
    | with_reducible refine ringEntry_keeps ?_
    | with_reducible refine reqMod_keeps ?_
    | with_reducible refine Keeps.fset ?_
    | with_reducible refine pageIrq_keeps ?_
    | with_reducible refine Keeps.ite (fun _ => ?_) (fun _ => ?_)

theorem finishRun_keeps {s0 : State} {s : State} {r : Nat} {e : Nat} {status : Nat} {heads : List (Nat × Nat)} (h : Keeps s0 s) :
    Keeps s0 (finishRun s r e status heads) := by
  unfold finishRun
  dsimp only
  repeat' first
    | with_reducible assumption
    | with_reducible refine ringMarker_keeps ?_
    | with_reducible refine jobDone_keeps ?_
    | with_reducible refine reqMod_keeps ?_
    | with_reducible refine Keeps.ite (fun _ => ?_) (fun _ => ?_)
    | split

theorem mslotSettle_keeps {s0 : State} {s : State} {m : Nat} (h : Keeps s0 s) :
    Keeps s0 (mslotSettle s m) := by
  unfold mslotSettle
  dsimp only
  repeat' first
    | with_reducible assumption
    | with_reducible refine flushSlot_keeps ?_
    | with_reducible refine mslotSet_keeps ?_
    | with_reducible refine jobDone_keeps ?_
    | with_reducible refine mslotMove_keeps ?_
    | with_reducible refine Keeps.ite (fun _ => ?_) (fun _ => ?_)
    | split

theorem releaseReq_keeps {s0 : State} {s : State} {r : Nat} (h : Keeps s0 s) :
    Keeps s0 (releaseReq s r) := by
  unfold releaseReq
  dsimp only
  repeat' first
    | with_reducible assumption
    | with_reducible refine releasePages_keeps ?_
    | with_reducible refine jobDone_keeps ?_
    | with_reducible refine mslotSet_keeps ?_
    | with_reducible refine mslotSettle_keeps ?_
    | with_reducible refine Keeps.each _ (fun _ _ _ => ?_) ?_
    | fail_if_no_progress (with_reducible refine Keeps.upd0 ?_ rfl rfl rfl)
    | split

theorem refuseReq_keeps {s0 : State} {s : State} {r : Nat} {status : Nat} (h : Keeps s0 s) :
    Keeps s0 (refuseReq s r status) := by
  unfold refuseReq
  dsimp only
  repeat' first
    | with_reducible assumption
    | with_reducible refine jobDone_keeps ?_
    | with_reducible refine releaseReq_keeps ?_
    | split

theorem cancelRelease_keeps {s0 : State} {s : State} {r : Nat} {heads : List (Nat × Nat)} (h : Keeps s0 s) :
    Keeps s0 (cancelRelease s r heads) := by
  unfold cancelRelease
  dsimp only
  repeat' first
    | with_reducible assumption
    | with_reducible refine jobDone_keeps ?_
    | with_reducible refine finishRun_keeps ?_
    | with_reducible refine releaseReq_keeps ?_
    | with_reducible refine Keeps.ite (fun _ => ?_) (fun _ => ?_)
    | with_reducible refine Keeps.each _ (fun _ _ _ => ?_) ?_

theorem coreSet_keeps {s0 : State} {s : State} {c : Nat} {k : Nat} {v : Nat} (h : Keeps s0 s) :
    Keeps s0 (coreSet s c k v) := by
  unfold coreSet
  dsimp only
  repeat' first
    | with_reducible assumption
    | with_reducible refine Keeps.setReg ?_
    | with_reducible refine Keeps.fset ?_
    | with_reducible refine pageIrq_keeps ?_
    | with_reducible refine Keeps.ite (fun _ => ?_) (fun _ => ?_)

theorem coreTurn_keeps {s0 : State} {s : State} {c : Nat} (h : Keeps s0 s) :
    Keeps s0 (coreTurn s c) := by
  unfold coreTurn
  repeat' first
    | with_reducible assumption
    | with_reducible refine coreSet_keeps ?_
    | with_reducible refine Keeps.ite (fun _ => ?_) (fun _ => ?_)
    | with_reducible refine Keeps.each _ (fun _ _ _ => ?_) ?_

theorem liveUpdate_keeps {s0 : State} {s : State} {m : Nat} (h : Keeps s0 s) :
    Keeps s0 (liveUpdate s m) := by
  unfold liveUpdate
  dsimp only
  repeat' first
    | with_reducible assumption
    | with_reducible refine pageIrq_keeps ?_
    | with_reducible refine Keeps.fset ?_
    | with_reducible refine Keeps.ite (fun _ => ?_) (fun _ => ?_)
    | fail_if_no_progress (with_reducible refine Keeps.upd0 ?_ rfl rfl rfl)

theorem balSet_keeps {s0 : State} {s : State} {a : Nat} {v : Int} (h : Keeps s0 s) :
    Keeps s0 (balSet s a v) := by
  unfold balSet
  repeat' first
    | with_reducible assumption
    | with_reducible refine Keeps.fset ?_

theorem charge_keeps {s0 : State} {s : State} {m : Nat} {a : Nat} {c : Nat} (h : Keeps s0 s) :
    Keeps s0 (charge s m a c) := by
  unfold charge
  repeat' first
    | with_reducible assumption
    | with_reducible refine balSet_keeps ?_
    | with_reducible refine Keeps.ite (fun _ => ?_) (fun _ => ?_)

theorem commitPos_keeps {s0 : State} {s : State} {r : Nat} {bytes : List Byte} (h : Keeps s0 s) :
    Keeps s0 (commitPos s r bytes) := by
  unfold commitPos
  dsimp only
  repeat' first
    | with_reducible assumption
    | with_reducible refine pageNew_keeps ?_
    | with_reducible refine dramStore_keeps ?_
    | with_reducible refine reqMod_keeps ?_
    | with_reducible refine Keeps.ite (fun _ => ?_) (fun _ => ?_)
    | split

theorem commitRun_keeps {s0 : State} {s : State} {r : Nat} {count : Nat} {bytes : List Byte} (h : Keeps s0 s) :
    Keeps s0 (commitRun s r count bytes) := by
  unfold commitRun
  dsimp only
  repeat' first
    | with_reducible assumption
    | with_reducible refine commitPos_keeps ?_
    | with_reducible refine Keeps.each _ (fun _ _ _ => ?_) ?_

theorem commitPoison_keeps {s0 : State} {s : State} {m : Nat} {r : Nat} {heads : List (Nat × Nat)} (h : Keeps s0 s) :
    Keeps s0 (commitPoison s m r heads).1 := by
  unfold commitPoison
  dsimp only
  repeat' first
    | with_reducible assumption
    | with_reducible refine poisonRead_keeps ?_
    | with_reducible refine finishRun_keeps ?_

theorem writeTokens_keeps {s0 : State} {h0 : BitVec 1024} {r : Nat} {s : State} {x3 : List Nat} (h : Keeps s0 s) :
    Keeps s0 (writeTokens h0 r s x3).1 := by
  induction x3 generalizing s with
  | nil =>
    unfold writeTokens
    dsimp only
    with_reducible assumption
  | cons a l ih =>
    unfold writeTokens
    dsimp only
    repeat' first
      | with_reducible assumption
      | with_reducible refine ih ?_
      | with_reducible refine ringToken_keeps ?_
      | split

theorem commitOut_keeps {s0 : State} {s : State} {m : Nat} {r : Nat} {count : Nat} {bytes : List Byte} {o : StepOut} {heads : List (Nat × Nat)} (h : Keeps s0 s) :
    Keeps s0 (commitOut s m r count bytes o heads).1 := by
  unfold commitOut
  dsimp only
  repeat' first
    | with_reducible assumption
    | with_reducible refine reqMod_keeps ?_
    | with_reducible refine commitRun_keeps ?_
    | with_reducible refine charge_keeps ?_
    | with_reducible refine writeTokens_keeps ?_
    | with_reducible refine insertBlocks_keeps ?_
    | with_reducible refine finishRun_keeps ?_
    | with_reducible refine Keeps.fset ?_
    | with_reducible refine pageIrq_keeps ?_
    | split

theorem commitPrefill_keeps {s0 : State} {s : State} {m : Nat} {r : Nat} {chunk : Nat} {heads : List (Nat × Nat)} (h : Keeps s0 s) :
    Keeps s0 (commitPrefill s m r chunk heads).1 := by
  unfold commitPrefill
  dsimp only
  repeat' first
    | with_reducible assumption
    | with_reducible refine modelImage_keeps ?_
    | with_reducible refine commitPoison_keeps ?_
    | with_reducible refine kvData_keeps ?_
    | with_reducible refine commitOut_keeps ?_
    | with_reducible refine maskView_keeps ?_
    | with_reducible refine Keeps.snd (by assumption) ?_
    | split

theorem draftRun_keeps {s0 : State} {s : State} {m : Nat} {r : Nat} {d : Nat} (h : Keeps s0 s) :
    Keeps s0 (draftRun s m r d).2 := by
  unfold draftRun
  dsimp only
  repeat' first
    | with_reducible assumption
    | with_reducible refine reqMod_keeps ?_
    | with_reducible refine maskView_keeps ?_
    | with_reducible refine modelImage_keeps ?_
    | with_reducible refine dramStore_keeps ?_
    | with_reducible refine Keeps.snd (by assumption) ?_
    | split

theorem commitDecode_keeps {s0 : State} {s : State} {m : Nat} {r : Nat} {d : Nat} {heads : List (Nat × Nat)} (h : Keeps s0 s) :
    Keeps s0 (commitDecode s m r d heads).1 := by
  unfold commitDecode
  dsimp only
  repeat' first
    | with_reducible assumption
    | with_reducible refine draftRun_keeps ?_
    | with_reducible refine commitPoison_keeps ?_
    | with_reducible refine modelImage_keeps ?_
    | with_reducible refine kvData_keeps ?_
    | with_reducible refine maskView_keeps ?_
    | with_reducible refine reqMod_keeps ?_
    | with_reducible refine Keeps.fset ?_
    | with_reducible refine commitOut_keeps ?_
    | with_reducible refine Keeps.snd (by assumption) ?_
    | split

theorem commitSummary_keeps {s0 : State} {s : State} {m : Nat} {r : Nat} (h : Keeps s0 s) :
    Keeps s0 (commitSummary s m r).1 := by
  unfold commitSummary
  dsimp only
  repeat' first
    | with_reducible assumption
    | with_reducible refine poisonRead_keeps ?_
    | with_reducible refine jobDone_keeps ?_
    | with_reducible refine reqMod_keeps ?_
    | with_reducible refine modelImage_keeps ?_
    | with_reducible refine kvData_keeps ?_
    | with_reducible refine Keeps.snd (by assumption) ?_
    | split

theorem commitOne_keeps {s0 : State} {s : State} {m : Nat} {r : Nat} {p : StepPart} {heads : List (Nat × Nat)} (h : Keeps s0 s) :
    Keeps s0 (commitOne s m r p heads).1 := by
  unfold commitOne
  repeat' first
    | with_reducible assumption
    | with_reducible refine commitPrefill_keeps ?_
    | with_reducible refine reqMod_keeps ?_
    | with_reducible refine commitDecode_keeps ?_
    | with_reducible refine commitSummary_keeps ?_
    | split

theorem fairCharge_keeps {s0 : State} {s : State} {m : Nat} {part : Nat} {c : Nat} (h : Keeps s0 s) :
    Keeps s0 (fairCharge s m part c) := by
  unfold fairCharge
  dsimp only
  repeat' first
    | with_reducible assumption
    | with_reducible refine mslotSet_keeps ?_

theorem commitStep_keeps {s0 : State} {s : State} {m : Nat} {members : List (Nat × StepPart)} {heads : List (Nat × Nat)} (h : Keeps s0 s) :
    Keeps s0 (commitStep s m members heads).1 := by
  unfold commitStep
  dsimp only
  repeat' first
    | with_reducible assumption
    | with_reducible refine commitOne_keeps ?_
    | with_reducible refine fairCharge_keeps ?_
    | with_reducible refine finishRun_keeps ?_
    | with_reducible refine Keeps.each _ (fun _ _ _ => ?_) ?_
    | with_reducible refine Keeps.foldl_fst _ (fun _ _ _ => ?_) ?_
    | split

theorem releaseStep_keeps {s0 : State} {s : State} {m : Nat} {ended : List Nat} {heads : List (Nat × Nat)} (h : Keeps s0 s) :
    Keeps s0 (releaseStep s m ended heads) := by
  unfold releaseStep
  repeat' first
    | with_reducible assumption
    | with_reducible refine releaseReq_keeps ?_
    | with_reducible refine cancelRelease_keeps ?_
    | with_reducible refine Keeps.ite (fun _ => ?_) (fun _ => ?_)
    | with_reducible refine Keeps.each _ (fun _ _ _ => ?_) ?_

theorem pauseStep_keeps {s0 : State} {s : State} {m : Nat} {heads : List (Nat × Nat)} (h : Keeps s0 s) :
    Keeps s0 (pauseStep s m heads) := by
  unfold pauseStep
  dsimp only
  repeat' first
    | with_reducible assumption
    | with_reducible refine reqMod_keeps ?_
    | with_reducible refine finishRun_keeps ?_
    | with_reducible refine Keeps.ite (fun _ => ?_) (fun _ => ?_)
    | with_reducible refine Keeps.each _ (fun _ _ _ => ?_) ?_

theorem coresStep_keeps {s0 : State} {s : State} {m : Nat} (h : Keeps s0 s) :
    Keeps s0 (coresStep s m) := by
  unfold coresStep
  dsimp only
  repeat' first
    | with_reducible assumption
    | with_reducible refine coreTurn_keeps ?_
    | with_reducible refine liveUpdate_keeps ?_
    | with_reducible refine mslotSet_keeps ?_
    | with_reducible refine Keeps.each _ (fun _ _ _ => ?_) ?_

theorem askTokens_keeps {s0 : State} {s : State} {r : Nat} (h : Keeps s0 s) :
    Keeps s0 (askTokens s r) := by
  unfold askTokens
  dsimp only
  repeat' first
    | with_reducible assumption
    | with_reducible refine reqSet_keeps ?_
    | with_reducible refine jobSet_keeps ?_
    | with_reducible refine Keeps.hostSend ?_
    | with_reducible refine Keeps.ite (fun _ => ?_) (fun _ => ?_)
    | split

theorem startRestore_keeps {s0 : State} {s : State} {r : Nat} (h : Keeps s0 s) :
    Keeps s0 (startRestore s r) := by
  unfold startRestore
  dsimp only
  repeat' first
    | with_reducible assumption
    | with_reducible refine askTokens_keeps ?_
    | with_reducible refine reqSet_keeps ?_
    | with_reducible refine Keeps.hostSend ?_
    | with_reducible refine jobSet_keeps ?_
    | with_reducible refine Keeps.ite (fun _ => ?_) (fun _ => ?_)
    | split

theorem trySupply_keeps {s0 : State} {s : State} {r : Nat} (h : Keeps s0 s) :
    Keeps s0 (trySupply s r).2 := by
  unfold trySupply
  dsimp only
  repeat' first
    | with_reducible assumption
    | with_reducible refine kvSupply_keeps ?_
    | with_reducible refine reqMod_keeps ?_
    | with_reducible refine copyBlocks_keeps ?_
    | with_reducible refine startRestore_keeps ?_
    | with_reducible refine Keeps.snd (by assumption) ?_
    | split

theorem supplyAll_keeps {s0 : State} {s : State} {x1 : List Nat} (h : Keeps s0 s) :
    Keeps s0 (supplyAll s x1) := by
  induction x1 generalizing s with
  | nil =>
    unfold supplyAll
    with_reducible assumption
  | cons a l ih =>
    unfold supplyAll
    repeat' first
      | with_reducible assumption
      | with_reducible refine ih ?_
      | with_reducible refine trySupply_keeps ?_
      | with_reducible refine Keeps.snd (by assumption) ?_
      | split

theorem placeSummary_keeps {s0 : State} {s : State} {r : Nat} (h : Keeps s0 s) :
    Keeps s0 (placeSummary s r) := by
  unfold placeSummary
  dsimp only
  repeat' first
    | with_reducible assumption
    | with_reducible refine kvSupply_keeps ?_
    | with_reducible refine kvTake_keeps ?_
    | with_reducible refine kvPut_keeps ?_
    | with_reducible refine dramStore_keeps ?_
    | with_reducible refine releasePages_keeps ?_
    | with_reducible refine rowAdd_keeps ?_
    | with_reducible refine reqMod_keeps ?_
    | with_reducible refine jobDone_keeps ?_
    | with_reducible refine Keeps.snd (by assumption) ?_
    | split

theorem admitStep_keeps {s0 : State} {s : State} {m : Nat} (h : Keeps s0 s) :
    Keeps s0 (admitStep s m) := by
  unfold admitStep
  dsimp only
  repeat' first
    | with_reducible assumption
    | with_reducible refine supplyAll_keeps ?_
    | with_reducible refine placeSummary_keeps ?_
    | with_reducible refine Keeps.ite (fun _ => ?_) (fun _ => ?_)
    | with_reducible refine Keeps.each _ (fun _ _ _ => ?_) ?_

theorem ringTest_keeps {s0 : State} {s : State} {r : Nat} {heads : List (Nat × Nat)} (h : Keeps s0 s) :
    Keeps s0 (ringTest s r heads) := by
  unfold ringTest
  dsimp only
  repeat' first
    | with_reducible assumption
    | with_reducible refine readHead_keeps ?_
    | with_reducible refine reqMod_keeps ?_
    | with_reducible refine Keeps.ite (fun _ => ?_) (fun _ => ?_)

theorem fairReturn_keeps {s0 : State} {s : State} {m : Nat} {cands : List Nat} (h : Keeps s0 s) :
    Keeps s0 (fairReturn s m cands) := by
  unfold fairReturn
  dsimp only
  repeat' first
    | with_reducible assumption
    | with_reducible refine mslotSet_keeps ?_

theorem rhoUpdate_keeps {s0 : State} {s : State} {m : Nat} {cands : List Nat} (h : Keeps s0 s) :
    Keeps s0 (rhoUpdate s m cands) := by
  unfold rhoUpdate
  dsimp only
  repeat' first
    | with_reducible assumption
    | with_reducible refine mslotSet_keeps ?_
    | with_reducible refine Keeps.fset ?_
    | with_reducible refine Keeps.ite (fun _ => ?_) (fun _ => ?_)

theorem batchStep_keeps {s0 : State} {s : State} {m : Nat} {heads : List (Nat × Nat)} (h : Keeps s0 s) :
    Keeps s0 (batchStep s m heads) := by
  unfold batchStep
  dsimp only
  repeat' first
    | with_reducible assumption
    | with_reducible refine mslotSet_keeps ?_
    | with_reducible refine ringTest_keeps ?_
    | with_reducible refine rhoUpdate_keeps ?_
    | with_reducible refine fairReturn_keeps ?_
    | with_reducible refine Keeps.ite (fun _ => ?_) (fun _ => ?_)
    | with_reducible refine Keeps.each _ (fun _ _ _ => ?_) ?_

theorem boundaryRest_keeps {s0 : State} {s : State} {m : Nat} {ended : List Nat} {heads : List (Nat × Nat)} (h : Keeps s0 s) :
    Keeps s0 (boundaryRest s m ended heads) := by
  unfold boundaryRest
  dsimp only
  repeat' first
    | with_reducible assumption
    | with_reducible refine releaseStep_keeps ?_
    | with_reducible refine pauseStep_keeps ?_
    | with_reducible refine batchStep_keeps ?_
    | with_reducible refine admitStep_keeps ?_
    | with_reducible refine coresStep_keeps ?_

theorem execStepBoundary_keeps {s0 : State} {mslot : Nat} {heads : List (Nat × Nat)} {s : State} (h : Keeps s0 s) :
    ∀ t, (execStepBoundary mslot heads s) = .next t → Keeps s0 t := by
  unfold execStepBoundary
  dsimp only
  intro t ht
  obtain rfl := Host.Outcome.next.inj ht
  clear ht
  repeat' first
    | with_reducible assumption
    | with_reducible refine Keeps.setReg64 ?_
    | with_reducible refine commitStep_keeps ?_
    | with_reducible refine boundaryRest_keeps ?_
    | split

theorem execIdleSlotApply_keeps {s0 : State} {mslot : Nat} {heads : List (Nat × Nat)} {s : State} (h : Keeps s0 s) :
    ∀ t, (execIdleSlotApply mslot heads s) = .next t → Keeps s0 t := by
  unfold execIdleSlotApply
  dsimp only
  intro t ht
  obtain rfl := Host.Outcome.next.inj ht
  clear ht
  repeat' first
    | with_reducible assumption
    | with_reducible refine commitStep_keeps ?_
    | with_reducible refine boundaryRest_keeps ?_
    | with_reducible refine Keeps.ite (fun _ => ?_) (fun _ => ?_)

end Sys2Proof.Machine
end

