-- ==== Sys2Proof/Laws/KeepsServe.lean ====
section
/-! SUPPORT. Each operation of Machine/Serve.lean keeps what `Keeps` says. -/

namespace Sys2Proof.Machine

theorem askData_keeps {s0 : State} {s : State} {j : Nat} {addr : Nat} {len : Nat} (h : Keeps s0 s) :
    Keeps s0 (askData s j addr len) := by
  unfold askData
  repeat' first
    | with_reducible assumption
    | with_reducible refine Keeps.hostSend ?_
    | with_reducible refine jobSet_keeps ?_
    | split

theorem execModelLoad_keeps {s0 : State} {job : Nat} {body : ModelBody} {s : State} (h : Keeps s0 s) :
    ∀ t, (execModelLoad job body s) = .next t → Keeps s0 t := by
  unfold execModelLoad
  dsimp only
  intro t ht
  obtain rfl := Host.Outcome.next.inj ht
  clear ht
  repeat' first
    | with_reducible assumption
    | with_reducible refine jobDone_keeps ?_
    | with_reducible refine askData_keeps ?_
    | with_reducible refine mslotMove_keeps ?_
    | with_reducible refine dramStore_keeps ?_
    | with_reducible refine Keeps.setReg64 ?_
    | with_reducible refine mslotSet_keeps ?_
    | with_reducible refine Keeps.ite (fun _ => ?_) (fun _ => ?_)
    | split

theorem cancelReq_keeps {s0 : State} {s : State} {r : Nat} (h : Keeps s0 s) :
    Keeps s0 (cancelReq s r) := by
  unfold cancelReq
  repeat' first
    | with_reducible assumption
    | with_reducible refine releaseReq_keeps ?_
    | with_reducible refine reqMod_keeps ?_
    | with_reducible refine Keeps.ite (fun _ => ?_) (fun _ => ?_)

theorem execModelUnload_keeps {s0 : State} {job : Nat} {s : State} (h : Keeps s0 s) :
    ∀ t, (execModelUnload job s) = .next t → Keeps s0 t := by
  unfold execModelUnload
  dsimp only
  intro t ht
  obtain rfl := Host.Outcome.next.inj ht
  clear ht
  repeat' first
    | with_reducible assumption
    | with_reducible refine jobDone_keeps ?_
    | with_reducible refine mslotMove_keeps ?_
    | with_reducible refine jobSet_keeps ?_
    | with_reducible refine mslotSet_keeps ?_
    | with_reducible refine mslotSettle_keeps ?_
    | with_reducible refine cancelReq_keeps ?_
    | with_reducible refine Keeps.ite (fun _ => ?_) (fun _ => ?_)
    | with_reducible refine Keeps.each _ (fun _ _ _ => ?_) ?_
    | split

theorem execPrefixFlush_keeps {s0 : State} {job : Nat} {s : State} (h : Keeps s0 s) :
    ∀ t, (execPrefixFlush job s) = .next t → Keeps s0 t := by
  unfold execPrefixFlush
  dsimp only
  intro t ht
  obtain rfl := Host.Outcome.next.inj ht
  clear ht
  repeat' first
    | with_reducible assumption
    | with_reducible refine jobDone_keeps ?_
    | with_reducible refine flushSlot_keeps ?_
    | with_reducible refine Keeps.ite (fun _ => ?_) (fun _ => ?_)
    | with_reducible refine Keeps.each _ (fun _ _ _ => ?_) ?_
    | split

theorem execReqSubmit_keeps {s0 : State} {job : Nat} {s : State} (h : Keeps s0 s) :
    ∀ t, (execReqSubmit job s) = .next t → Keeps s0 t := by
  unfold execReqSubmit
  dsimp only
  intro t ht
  obtain rfl := Host.Outcome.next.inj ht
  clear ht
  repeat' first
    | with_reducible assumption
    | with_reducible refine jobDone_keeps ?_
    | with_reducible refine jobSet_keeps ?_
    | with_reducible refine Keeps.ite (fun _ => ?_) (fun _ => ?_)
    | fail_if_no_progress (with_reducible refine Keeps.upd0 ?_ rfl rfl rfl)
    | split

theorem reserve_keeps {s0 : State} {s : State} {r : Nat} {res : Nat} (h : Keeps s0 s) :
    Keeps s0 (reserve s r res) := by
  unfold reserve
  dsimp only
  repeat' first
    | with_reducible assumption
    | with_reducible refine refuseReq_keeps ?_
    | with_reducible refine reqSet_keeps ?_
    | with_reducible refine trySupply_keeps ?_
    | with_reducible refine Keeps.ite (fun _ => ?_) (fun _ => ?_)

theorem admitPrompt_keeps {s0 : State} {s : State} {r : Nat} {toks : List Nat} (h : Keeps s0 s) :
    Keeps s0 (admitPrompt s r toks) := by
  unfold admitPrompt
  dsimp only
  repeat' first
    | with_reducible assumption
    | with_reducible refine refuseReq_keeps ?_
    | with_reducible refine reqSet_keeps ?_
    | with_reducible refine lookupReuse_keeps ?_
    | with_reducible refine Keeps.hostSend ?_
    | with_reducible refine reserve_keeps ?_
    | with_reducible refine Keeps.ite (fun _ => ?_) (fun _ => ?_)

theorem execRqtAllocate_keeps {s0 : State} {rqt : Nat} {s : State} (h : Keeps s0 s) :
    ∀ t, (execRqtAllocate rqt s) = .next t → Keeps s0 t := by
  unfold execRqtAllocate
  dsimp only
  intro t ht
  obtain rfl := Host.Outcome.next.inj ht
  clear ht
  repeat' first
    | with_reducible assumption
    | with_reducible refine jobDone_keeps ?_
    | with_reducible refine reqSet_keeps ?_
    | with_reducible refine Keeps.hostSend ?_
    | with_reducible refine askData_keeps ?_
    | with_reducible refine admitPrompt_keeps ?_
    | with_reducible refine refuseReq_keeps ?_
    | with_reducible refine Keeps.ite (fun _ => ?_) (fun _ => ?_)
    | fail_if_no_progress (with_reducible refine Keeps.upd0 ?_ rfl rfl rfl)
    | split

theorem execReqCancel_keeps {s0 : State} {job : Nat} {s : State} (h : Keeps s0 s) :
    ∀ t, (execReqCancel job s) = .next t → Keeps s0 t := by
  unfold execReqCancel
  dsimp only
  intro t ht
  obtain rfl := Host.Outcome.next.inj ht
  clear ht
  repeat' first
    | with_reducible assumption
    | with_reducible refine jobDone_keeps ?_
    | with_reducible refine jobSet_keeps ?_
    | with_reducible refine cancelReq_keeps ?_
    | with_reducible refine reqMod_keeps ?_
    | with_reducible refine Keeps.ite (fun _ => ?_) (fun _ => ?_)
    | split

theorem execReqPause_keeps {s0 : State} {job : Nat} {s : State} (h : Keeps s0 s) :
    ∀ t, (execReqPause job s) = .next t → Keeps s0 t := by
  unfold execReqPause
  dsimp only
  intro t ht
  obtain rfl := Host.Outcome.next.inj ht
  clear ht
  repeat' first
    | with_reducible assumption
    | with_reducible refine jobDone_keeps ?_
    | with_reducible refine jobSet_keeps ?_
    | with_reducible refine reqMod_keeps ?_
    | with_reducible refine Keeps.ite (fun _ => ?_) (fun _ => ?_)
    | split

theorem hostWrite_keeps {s0 : State} {s : State} {part : Nat} {addr : Nat} {bs : List (Option Byte)} (h : Keeps s0 s) :
    Keeps s0 (hostWrite s part addr bs).2.2 := by
  unfold hostWrite
  dsimp only
  repeat' first
    | with_reducible assumption
    | with_reducible refine Keeps.hostSend ?_
    | with_reducible refine Keeps.ite (fun _ => ?_) (fun _ => ?_)

theorem pagesOf_keeps {s0 : State} {s : State} {r : Nat} (h : Keeps s0 s) :
    Keeps s0 (pagesOf s r).2 := by
  unfold pagesOf
  extract_lets x l
  show Keeps s0 l.2
  refine Keeps.foldl_snd _ (fun p e hp => ?_) (p := ([], s)) h
  dsimp only
  with_reducible exact dramLoad_keeps hp

theorem pauseImage_keeps {s0 : State} {s : State} {r : Nat} (h : Keeps s0 s) :
    Keeps s0 (pauseImage s r) := by
  unfold pauseImage
  dsimp only
  repeat' first
    | with_reducible assumption
    | with_reducible refine pagesOf_keeps ?_
    | with_reducible refine hostWrite_keeps ?_
    | with_reducible refine jobDone_keeps ?_
    | with_reducible refine releaseReq_keeps ?_
    | with_reducible refine reqMod_keeps ?_
    | with_reducible refine poisonRead_keeps ?_
    | with_reducible refine Keeps.hostSend ?_
    | with_reducible refine releasePages_keeps ?_
    | with_reducible refine Keeps.ite (fun _ => ?_) (fun _ => ?_)
    | split

theorem execPauseWriteDone_keeps {s0 : State} {rqt : Nat} {s : State} (h : Keeps s0 s) :
    ∀ t, (execPauseWriteDone rqt s) = .next t → Keeps s0 t := by
  unfold execPauseWriteDone
  dsimp only
  intro t ht
  obtain rfl := Host.Outcome.next.inj ht
  clear ht
  repeat' first
    | with_reducible assumption
    | with_reducible refine cancelRelease_keeps ?_
    | with_reducible refine pauseImage_keeps ?_
    | with_reducible refine Keeps.ite (fun _ => ?_) (fun _ => ?_)

theorem execPauseTtlExpiry_keeps {s0 : State} {rqt : Nat} {s : State} (h : Keeps s0 s) :
    ∀ t, (execPauseTtlExpiry rqt s) = .next t → Keeps s0 t := by
  unfold execPauseTtlExpiry
  dsimp only
  intro t ht
  obtain rfl := Host.Outcome.next.inj ht
  clear ht
  repeat' first
    | with_reducible assumption
    | with_reducible refine releaseReq_keeps ?_
    | with_reducible refine Keeps.reach ?_
    | with_reducible refine pageIrq_keeps ?_
    | with_reducible refine Keeps.fincSat ?_
    | with_reducible refine Keeps.ite (fun _ => ?_) (fun _ => ?_)

theorem execReqResume_keeps {s0 : State} {job : Nat} {s : State} (h : Keeps s0 s) :
    ∀ t, (execReqResume job s) = .next t → Keeps s0 t := by
  unfold execReqResume
  dsimp only
  intro t ht
  obtain rfl := Host.Outcome.next.inj ht
  clear ht
  repeat' first
    | with_reducible assumption
    | with_reducible refine jobDone_keeps ?_
    | with_reducible refine jobSet_keeps ?_
    | with_reducible refine reqMod_keeps ?_
    | with_reducible refine reserve_keeps ?_
    | with_reducible refine Keeps.ite (fun _ => ?_) (fun _ => ?_)
    | fail_if_no_progress (with_reducible refine Keeps.upd0 ?_ rfl rfl rfl)
    | split

theorem summaryPrefill_keeps {s0 : State} {s : State} {r : Nat} (h : Keeps s0 s) :
    Keeps s0 (summaryPrefill s r).2 := by
  unfold summaryPrefill
  dsimp only
  repeat' first
    | with_reducible assumption
    | with_reducible refine modelImage_keeps ?_
    | with_reducible refine pagesOf_keeps ?_
    | with_reducible refine releasePages_keeps ?_
    | with_reducible refine reqMod_keeps ?_
    | with_reducible refine commitRun_keeps ?_
    | with_reducible refine charge_keeps ?_
    | with_reducible refine Keeps.snd (by assumption) ?_
    | split

theorem resumeRun_keeps {s0 : State} {s : State} {r : Nat} {toks : List Nat} (h : Keeps s0 s) :
    Keeps s0 (resumeRun s r toks) := by
  unfold resumeRun
  dsimp only
  repeat' first
    | with_reducible assumption
    | with_reducible refine reqMod_keeps ?_
    | with_reducible refine summaryPrefill_keeps ?_
    | with_reducible refine refuseReq_keeps ?_
    | with_reducible refine poisonRead_keeps ?_
    | with_reducible refine Keeps.ite (fun _ => ?_) (fun _ => ?_)
    | with_reducible refine Keeps.snd (by assumption) ?_
    | split

theorem restoreImage_keeps {s0 : State} {s : State} {r : Nat} {d : List Byte} (h : Keeps s0 s) :
    Keeps s0 (restoreImage s r d) := by
  unfold restoreImage
  dsimp only
  repeat' first
    | with_reducible assumption
    | with_reducible refine refuseReq_keeps ?_
    | with_reducible refine pageNew_keeps ?_
    | with_reducible refine dramStore_keeps ?_
    | with_reducible refine askTokens_keeps ?_
    | with_reducible refine Keeps.ite (fun _ => ?_) (fun _ => ?_)
    | with_reducible refine Keeps.each _ (fun _ _ _ => ?_) ?_
    | with_reducible refine Keeps.snd (by assumption) ?_
    | split

theorem appendTokens_keeps {s0 : State} {s : State} {r : Nat} {toks : List Nat} (h : Keeps s0 s) :
    Keeps s0 (appendTokens s r toks) := by
  unfold appendTokens
  repeat' first
    | with_reducible assumption
    | with_reducible refine refuseReq_keeps ?_
    | with_reducible refine resumeRun_keeps ?_
    | with_reducible refine Keeps.ite (fun _ => ?_) (fun _ => ?_)

theorem execResumeRestoreDone_keeps {s0 : State} {rqt : Nat} {s : State} (h : Keeps s0 s) :
    ∀ t, (execResumeRestoreDone rqt s) = .next t → Keeps s0 t := by
  unfold execResumeRestoreDone
  dsimp only
  intro t ht
  obtain rfl := Host.Outcome.next.inj ht
  clear ht
  repeat' first
    | with_reducible assumption
    | with_reducible refine cancelRelease_keeps ?_
    | with_reducible refine appendTokens_keeps ?_
    | with_reducible refine restoreImage_keeps ?_
    | with_reducible refine refuseReq_keeps ?_
    | with_reducible refine Keeps.ite (fun _ => ?_) (fun _ => ?_)
    | split

theorem execReqQuery_keeps {s0 : State} {job : Nat} {s : State} (h : Keeps s0 s) :
    ∀ t, (execReqQuery job s) = .next t → Keeps s0 t := by
  unfold execReqQuery
  intro t ht
  obtain rfl := Host.Outcome.next.inj ht
  clear ht
  repeat' first
    | with_reducible assumption
    | with_reducible refine jobDone_keeps ?_
    | with_reducible refine Keeps.hostSend ?_
    | with_reducible refine Keeps.ite (fun _ => ?_) (fun _ => ?_)
    | split

theorem maskSet_keeps {s0 : State} {s : State} {t : Nat} {st : Nat} {kind : Nat} (h : Keeps s0 s) :
    Keeps s0 (maskSet s t st kind) := by
  unfold maskSet
  repeat' first
    | with_reducible assumption
    | with_reducible refine Keeps.fset ?_

theorem maskEmpty_keeps {s0 : State} {s : State} {t : Nat} (h : Keeps s0 s) :
    Keeps s0 (maskEmpty s t) := by
  unfold maskEmpty
  dsimp only
  repeat' first
    | with_reducible assumption
    | with_reducible refine Keeps.setReg ?_
    | with_reducible refine maskSet_keeps ?_
    | fail_if_no_progress (with_reducible refine Keeps.upd0 ?_ rfl rfl rfl)

theorem execMaskLoad_keeps {s0 : State} {job : Nat} {s : State} (h : Keeps s0 s) :
    ∀ t, (execMaskLoad job s) = .next t → Keeps s0 t := by
  unfold execMaskLoad
  dsimp only
  intro t ht
  obtain rfl := Host.Outcome.next.inj ht
  clear ht
  repeat' first
    | with_reducible assumption
    | with_reducible refine jobDone_keeps ?_
    | with_reducible refine maskSet_keeps ?_
    | with_reducible refine askData_keeps ?_
    | with_reducible refine maskEmpty_keeps ?_
    | with_reducible refine dramStore_keeps ?_
    | with_reducible refine Keeps.setReg ?_
    | with_reducible refine Keeps.ite (fun _ => ?_) (fun _ => ?_)
    | fail_if_no_progress (with_reducible refine Keeps.upd0 ?_ rfl rfl rfl)
    | split

theorem execMaskFree_keeps {s0 : State} {job : Nat} {s : State} (h : Keeps s0 s) :
    ∀ t, (execMaskFree job s) = .next t → Keeps s0 t := by
  unfold execMaskFree
  dsimp only
  intro t ht
  obtain rfl := Host.Outcome.next.inj ht
  clear ht
  repeat' first
    | with_reducible assumption
    | with_reducible refine jobDone_keeps ?_
    | with_reducible refine maskEmpty_keeps ?_
    | with_reducible refine Keeps.ite (fun _ => ?_) (fun _ => ?_)
    | split

theorem lensCtrl_keeps {s0 : State} {s : State} {p : Nat} {data : Word} (h : Keeps s0 s) :
    Keeps s0 (lensCtrl s p data) := by
  unfold lensCtrl
  dsimp only
  repeat' first
    | with_reducible assumption
    | with_reducible refine Keeps.fset ?_
    | with_reducible refine coreSet_keeps ?_
    | with_reducible refine Keeps.modPage ?_
    | with_reducible refine Keeps.ite (fun _ => ?_) (fun _ => ?_)
    | with_reducible refine Keeps.each _ (fun _ _ _ => ?_) ?_

theorem lensTested_keeps {s0 : State} {s : State} {p : Nat} {pass : Bool} (h : Keeps s0 s) :
    Keeps s0 (lensTested s p pass) := by
  unfold lensTested
  dsimp only
  repeat' first
    | with_reducible assumption
    | with_reducible refine Keeps.modPage ?_
    | with_reducible refine coreSet_keeps ?_
    | with_reducible refine capture_keeps ?_
    | with_reducible refine Keeps.ite (fun _ => ?_) (fun _ => ?_)
    | with_reducible refine Keeps.each _ (fun _ _ _ => ?_) ?_

theorem execLensCoreLeave_keeps {s0 : State} {part : Nat} {page : Nat} {data : Word} {s : State} (h : Keeps s0 s) :
    ∀ t, (execLensCoreLeave part page data s) = .next t → Keeps s0 t := by
  unfold execLensCoreLeave
  intro t ht
  obtain rfl := Host.Outcome.next.inj ht
  clear ht
  repeat' first
    | with_reducible assumption
    | with_reducible refine pageWrite_keeps (fun s _ => ?_) ?_
    | with_reducible refine lensCtrl_keeps ?_
    | with_reducible refine Keeps.ite (fun _ => ?_) (fun _ => ?_)

theorem execLensCoreReturn_keeps {s0 : State} {part : Nat} {page : Nat} {data : Word} {s : State} (h : Keeps s0 s) :
    ∀ t, (execLensCoreReturn part page data s) = .next t → Keeps s0 t := by
  unfold execLensCoreReturn
  intro t ht
  obtain rfl := Host.Outcome.next.inj ht
  clear ht
  repeat' first
    | with_reducible assumption
    | with_reducible refine pageWrite_keeps (fun s _ => ?_) ?_
    | with_reducible refine lensCtrl_keeps ?_
    | with_reducible refine Keeps.ite (fun _ => ?_) (fun _ => ?_)

theorem coreGone_keeps {s0 : State} {s : State} {page : Nat} {core : Nat} (h : Keeps s0 s) :
    Keeps s0 (coreGone s page core) := by
  unfold coreGone
  dsimp only
  repeat' first
    | with_reducible assumption
    | with_reducible refine Keeps.fset ?_
    | with_reducible refine coreSet_keeps ?_
    | with_reducible refine Keeps.fincSat ?_
    | with_reducible refine mslotSet_keeps ?_
    | with_reducible refine Keeps.ite (fun _ => ?_) (fun _ => ?_)
    | with_reducible refine Keeps.each _ (fun _ _ _ => ?_) ?_

theorem execLensCoreFail_keeps {s0 : State} {page : Nat} {core : Nat} {s : State} (h : Keeps s0 s) :
    ∀ t, (execLensCoreFail page core s) = .next t → Keeps s0 t := by
  unfold execLensCoreFail
  intro t ht
  obtain rfl := Host.Outcome.next.inj ht
  clear ht
  repeat' first
    | with_reducible assumption
    | with_reducible refine coreGone_keeps ?_
    | with_reducible refine capture_keeps ?_
    | with_reducible refine Keeps.ite (fun _ => ?_) (fun _ => ?_)

theorem refillAcct_keeps {s0 : State} {s : State} {a : Nat} (h : Keeps s0 s) :
    Keeps s0 (refillAcct s a) := by
  unfold refillAcct
  dsimp only
  repeat' first
    | with_reducible assumption
    | with_reducible refine balSet_keeps ?_

theorem execBudgetRefill_keeps {s0 : State} {s : State} (h : Keeps s0 s) :
    ∀ t, (execBudgetRefill s) = .next t → Keeps s0 t := by
  unfold execBudgetRefill
  dsimp only
  intro t ht
  obtain rfl := Host.Outcome.next.inj ht
  clear ht
  repeat' first
    | with_reducible assumption
    | with_reducible refine Keeps.reach ?_
    | with_reducible refine refillAcct_keeps ?_
    | with_reducible refine reqSet_keeps ?_
    | with_reducible refine Keeps.ite (fun _ => ?_) (fun _ => ?_)
    | with_reducible refine Keeps.each _ (fun _ _ _ => ?_) ?_
    | fail_if_no_progress (with_reducible refine Keeps.upd0 ?_ rfl rfl rfl)

theorem smpFill_keeps {s0 : State} {s : State} {high : Bool} {data : Word} (h : Keeps s0 s) :
    Keeps s0 (smpFill s high data) := by
  unfold smpFill
  dsimp only
  repeat' first
    | with_reducible assumption
    | with_reducible refine balSet_keeps ?_
    | with_reducible refine Keeps.each _ (fun _ _ _ => ?_) ?_

theorem execSmpFill_keeps {s0 : State} {part : Nat} {high : Bool} {data : Word} {s : State} (h : Keeps s0 s) :
    ∀ t, (execSmpFill part high data s) = .next t → Keeps s0 t := by
  unfold execSmpFill
  intro t ht
  obtain rfl := Host.Outcome.next.inj ht
  clear ht
  repeat' first
    | with_reducible assumption
    | with_reducible refine pageWrite_keeps (fun s _ => ?_) ?_
    | with_reducible refine smpFill_keeps ?_

theorem poolFree_keeps {s0 : State} {s : State} (h : Keeps s0 s) :
    Keeps s0 (poolFree s) := by
  unfold poolFree
  dsimp only
  repeat' first
    | with_reducible assumption
    | with_reducible refine dramWrite_keeps ?_
    | with_reducible refine Keeps.each _ (fun _ _ _ => ?_) ?_
    | fail_if_no_progress (with_reducible refine Keeps.upd0 ?_ rfl rfl rfl)

theorem poolWrite_keeps {s0 : State} {s : State} {off : Nat} {data : Word} (h : Keeps s0 s) :
    Keeps s0 (poolWrite s off data) := by
  unfold poolWrite
  dsimp only
  repeat' first
    | with_reducible assumption
    | with_reducible refine Keeps.setReg ?_
    | with_reducible refine poolFree_keeps ?_
    | with_reducible refine Keeps.ite (fun _ => ?_) (fun _ => ?_)

theorem nodesFree_keeps {s0 : State} {s : State} (h : Keeps s0 s) :
    Keeps s0 (nodesFree s) := by
  unfold nodesFree
  dsimp only
  repeat' first
    | with_reducible assumption
    | with_reducible refine nodeStore_keeps ?_
    | with_reducible refine Keeps.each _ (fun _ _ _ => ?_) ?_
    | fail_if_no_progress (with_reducible refine Keeps.upd0 ?_ rfl rfl rfl)

theorem nodesWrite_keeps {s0 : State} {s : State} {off : Nat} {data : Word} (h : Keeps s0 s) :
    Keeps s0 (nodesWrite s off data) := by
  unfold nodesWrite
  dsimp only
  repeat' first
    | with_reducible assumption
    | with_reducible refine Keeps.setReg ?_
    | with_reducible refine nodesFree_keeps ?_
    | with_reducible refine Keeps.ite (fun _ => ?_) (fun _ => ?_)

theorem draftWrite_keeps {s0 : State} {s : State} {off : Nat} {data : Word} (h : Keeps s0 s) :
    Keeps s0 (draftWrite s off data) := by
  unfold draftWrite
  dsimp only
  repeat' first
    | with_reducible assumption
    | with_reducible refine Keeps.setReg ?_
    | with_reducible refine Keeps.ite (fun _ => ?_) (fun _ => ?_)

theorem lensSlots_keeps {s0 : State} {s : State} (h : Keeps s0 s) :
    Keeps s0 (lensSlots s) := by
  unfold lensSlots
  dsimp only
  repeat' first
    | with_reducible assumption
    | with_reducible refine Keeps.setReg ?_
    | with_reducible refine Keeps.each _ (fun _ _ _ => ?_) ?_

theorem slotCfgWrite_keeps {s0 : State} {s : State} {m : Nat} {data : Word} (h : Keeps s0 s) :
    Keeps s0 (slotCfgWrite s m data) := by
  unfold slotCfgWrite
  dsimp only
  repeat' first
    | with_reducible assumption
    | with_reducible refine Keeps.setReg ?_
    | with_reducible refine flushSlot_keeps ?_
    | with_reducible refine lensSlots_keeps ?_
    | with_reducible refine Keeps.ite (fun _ => ?_) (fun _ => ?_)

theorem capWrite_keeps {s0 : State} {s : State} {a : Nat} {data : Word} (h : Keeps s0 s) :
    Keeps s0 (capWrite s a data) := by
  unfold capWrite
  dsimp only
  repeat' first
    | with_reducible assumption
    | with_reducible refine Keeps.fset ?_
    | with_reducible refine balSet_keeps ?_
    | with_reducible refine Keeps.ite (fun _ => ?_) (fun _ => ?_)

theorem pol1Write_keeps {s0 : State} {s : State} {m : Nat} {data : Word} (h : Keeps s0 s) :
    Keeps s0 (pol1Write s m data) := by
  unfold pol1Write
  dsimp only
  repeat' first
    | with_reducible assumption
    | with_reducible refine Keeps.fset ?_
    | with_reducible refine Keeps.setReg ?_
    | with_reducible refine Keeps.ite (fun _ => ?_) (fun _ => ?_)

theorem serveRegWrite_keeps {s0 : State} {s : State} {p : Nat} {off : Nat} {data : Word} (h : Keeps s0 s) :
    ∀ t, (serveRegWrite s p off data) = some t → Keeps s0 t := by
  unfold serveRegWrite
  repeat' first
    | with_reducible refine Keeps.optSome ?_
    | with_reducible exact Keeps.optNone
    | with_reducible refine Keeps.optIte (fun _ => ?_) (fun _ => ?_)
    | with_reducible assumption
    | with_reducible refine poolWrite_keeps ?_
    | with_reducible refine slotCfgWrite_keeps ?_
    | with_reducible refine nodesWrite_keeps ?_
    | with_reducible refine draftWrite_keeps ?_
    | with_reducible refine smpFill_keeps ?_
    | with_reducible refine pol1Write_keeps ?_
    | with_reducible refine Keeps.fset ?_
    | with_reducible refine capWrite_keeps ?_
    | with_reducible refine lensCtrl_keeps ?_
    | with_reducible refine Keeps.ite (fun _ => ?_) (fun _ => ?_)

end Sys2Proof.Machine
end

