-- ==== Sys2Proof/Laws/KeepsMemory.lean ====
section
/-! SUPPORT. Each operation of Machine/Memory.lean keeps what `Keeps` says. -/

namespace Sys2Proof.Machine

theorem memcInit_keeps {s0 : State} {s : State} {data : Word} (h : Keeps s0 s) :
    Keeps s0 (memcInit s data) := by
  unfold memcInit
  dsimp only
  repeat' first
    | with_reducible assumption
    | with_reducible refine Keeps.memSame ?_ rfl
    | with_reducible refine Keeps.ite (fun _ => ?_) (fun _ => ?_)

theorem execMemcInit_keeps {s0 : State} {part : Nat} {s : State} (h : Keeps s0 s) :
    ∀ t, (execMemcInit part s) = .next t → Keeps s0 t := by
  unfold execMemcInit
  intro t ht
  obtain rfl := Host.Outcome.next.inj ht
  clear ht
  repeat' first
    | with_reducible assumption
    | with_reducible refine pageWrite_keeps (fun s _ => ?_) ?_
    | with_reducible refine memcInit_keeps ?_

theorem memLeave_keeps {s0 : State} {s : State} {ch : Nat} {fault : Bool} (h : Keeps s0 s) :
    Keeps s0 (memLeave s ch fault) := by
  unfold memLeave
  dsimp only
  repeat' first
    | with_reducible assumption
    | with_reducible refine markOut_keeps ?_
    | with_reducible refine Keeps.fset ?_
    | with_reducible refine planStopRobot_keeps ?_
    | with_reducible refine Keeps.ite (fun _ => ?_) (fun _ => ?_)

theorem execMemcInitDone_keeps {s0 : State} {caps : List (Nat × Nat)} {s : State} (h : Keeps s0 s) :
    ∀ t, (execMemcInitDone caps s) = .next t → Keeps s0 t := by
  unfold execMemcInitDone
  dsimp only
  intro t ht
  obtain rfl := Host.Outcome.next.inj ht
  clear ht
  repeat' first
    | with_reducible assumption
    | with_reducible refine Keeps.fset ?_
    | with_reducible refine capture_keeps ?_
    | with_reducible refine memLeave_keeps ?_
    | with_reducible refine pageIrq_keeps ?_
    | with_reducible refine Keeps.memAny ?_ (fun _ => rfl)
    | with_reducible refine Keeps.ite (fun _ => ?_) (fun _ => ?_)
    | with_reducible refine Keeps.each _ (fun _ _ _ => ?_) ?_
    | split

theorem memcCfgWrite_keeps {s0 : State} {s : State} {data : Word} (h : Keeps s0 s) :
    Keeps s0 (memcCfgWrite s data) := by
  unfold memcCfgWrite
  dsimp only
  repeat' first
    | with_reducible assumption
    | with_reducible refine Keeps.fset ?_
    | with_reducible refine Keeps.memSame ?_ rfl
    | with_reducible refine Keeps.ite (fun _ => ?_) (fun _ => ?_)
    | with_reducible refine Keeps.each _ (fun _ _ _ => ?_) ?_

theorem planRegionWrite_keeps {s0 : State} {s : State} {off : Nat} {data : Word} (h : Keeps s0 s) :
    Keeps s0 (planRegionWrite s off data) := by
  unfold planRegionWrite
  dsimp only
  repeat' first
    | with_reducible assumption
    | with_reducible refine Keeps.setReg ?_
    | with_reducible refine Keeps.fset ?_
    | with_reducible refine Keeps.ite (fun _ => ?_) (fun _ => ?_)

theorem dramScrub_keeps {s0 : State} {s : State} {w : Nat} {part : Nat} (h : Keeps s0 s) :
    Keeps s0 (dramScrub s w part).2 := by
  unfold dramScrub
  dsimp only
  repeat' first
    | with_reducible assumption
    | with_reducible refine countPoison_keeps ?_
    | with_reducible refine chanCe_keeps ?_
    | with_reducible refine chanUe_keeps ?_
    | with_reducible refine Keeps.memAny ?_ (fun w => Mem.put_wf _ _ _ (Keeps.dram_wf (Keeps.wf (s := s0) ?_ w)))
    | split

theorem tileScrub_keeps {s0 : State} {s : State} {i : Nat} {w : Nat} (h : Keeps s0 s) :
    Keeps s0 (tileScrub s i w) := by
  unfold tileScrub
  dsimp only
  repeat' first
    | with_reducible assumption
    | with_reducible refine regionCe_keeps ?_
    | with_reducible refine regionUe_keeps ?_
    | with_reducible refine Keeps.tileAny ?_ (fun w => Mem.put_wf _ _ _ (Keeps.tile_wf _ (Keeps.wf (s := s0) ?_ w)))
    | split

theorem upsetScrub_keeps {s0 : State} {s : State} {r : Nat} {w : Nat} {bits : List Nat} (h : Keeps s0 s) :
    Keeps s0 (upsetScrub s r w bits) := by
  unfold upsetScrub
  repeat' first
    | with_reducible assumption
    | with_reducible refine regionCe_keeps ?_
    | with_reducible refine regionUe_keeps ?_
    | split

theorem execScrubPass_keeps {s0 : State} {region : Nat} {flips : List (Nat × Nat)} {s : State} (h : Keeps s0 s) :
    ∀ t, (execScrubPass region flips s) = .next t → Keeps s0 t := by
  unfold execScrubPass
  dsimp only
  intro t ht
  obtain rfl := Host.Outcome.next.inj ht
  clear ht
  repeat' first
    | with_reducible assumption
    | with_reducible refine tileScrub_keeps ?_
    | with_reducible refine upsetScrub_keeps ?_
    | with_reducible refine Keeps.memSame ?_ rfl
    | with_reducible refine Keeps.tileAny ?_ (fun w => Mem.upset_wf _ _ (Keeps.tile_wf _ (Keeps.wf (s := s0) ?_ w)))
    | with_reducible refine Keeps.ite (fun _ => ?_) (fun _ => ?_)
    | with_reducible refine Keeps.each _ (fun _ _ _ => ?_) ?_

theorem execPatrolRead_keeps {s0 : State} {memch : Nat} {flips : List (Nat × Nat)} {s : State} (h : Keeps s0 s) :
    ∀ t, (execPatrolRead memch flips s) = .next t → Keeps s0 t := by
  unfold execPatrolRead
  dsimp only
  intro t ht
  obtain rfl := Host.Outcome.next.inj ht
  clear ht
  repeat' first
    | with_reducible assumption
    | with_reducible refine dramScrub_keeps ?_
    | with_reducible refine Keeps.memSame ?_ rfl
    | with_reducible refine Keeps.memAny ?_ (fun w => Mem.upset_wf _ _ (Keeps.dram_wf (Keeps.wf (s := s0) ?_ w)))
    | with_reducible refine Keeps.ite (fun _ => ?_) (fun _ => ?_)
    | with_reducible refine Keeps.each _ (fun _ _ _ => ?_) ?_

theorem execRepairWriteback_keeps {s0 : State} {queue : Nat} {s : State} (h : Keeps s0 s) :
    ∀ t, (execRepairWriteback queue s) = .next t → Keeps s0 t := by
  unfold execRepairWriteback
  dsimp only
  intro t ht
  obtain rfl := Host.Outcome.next.inj ht
  clear ht
  repeat' first
    | with_reducible assumption
    | with_reducible refine Keeps.memSame ?_ rfl
    | with_reducible refine Keeps.memAny ?_ (fun w => Mem.put_wf _ _ _ (Keeps.dram_wf (Keeps.wf (s := s0) ?_ w)))
    | with_reducible refine Keeps.tileKeep ?_ rfl
    | with_reducible refine Keeps.tileAny ?_ (fun w => Mem.put_wf _ _ _ (Keeps.tile_wf _ (Keeps.wf (s := s0) ?_ w)))
    | with_reducible refine Keeps.ite (fun _ => ?_) (fun _ => ?_)
    | split

theorem memcClear_keeps {s0 : State} {s : State} {p : Nat} (h : Keeps s0 s) :
    Keeps s0 (memcClear s p) := by
  unfold memcClear
  dsimp only
  repeat' first
    | with_reducible assumption
    | with_reducible refine Keeps.setReg ?_

theorem execMemcClr_keeps {s0 : State} {part : Nat} {page : Nat} {s : State} (h : Keeps s0 s) :
    ∀ t, (execMemcClr part page s) = .next t → Keeps s0 t := by
  unfold execMemcClr
  intro t ht
  obtain rfl := Host.Outcome.next.inj ht
  clear ht
  repeat' first
    | with_reducible assumption
    | with_reducible refine pageWrite_keeps (fun s _ => ?_) ?_
    | with_reducible refine memcClear_keeps ?_
    | with_reducible refine Keeps.ite (fun _ => ?_) (fun _ => ?_)

theorem regionClear_keeps {s0 : State} {s : State} {r : Nat} (h : Keeps s0 s) :
    Keeps s0 (regionClear s r) := by
  unfold regionClear
  repeat' first
    | with_reducible assumption
    | with_reducible refine regionSet_keeps ?_

theorem sramClear_keeps {s0 : State} {s : State} {data : Word} (h : Keeps s0 s) :
    Keeps s0 (sramClear s data) := by
  unfold sramClear
  repeat' first
    | with_reducible assumption
    | with_reducible refine regionClear_keeps ?_
    | with_reducible refine Keeps.ite (fun _ => ?_) (fun _ => ?_)
    | with_reducible refine Keeps.each _ (fun _ _ _ => ?_) ?_

theorem execSramClrSelected_keeps {s0 : State} {part : Nat} {s : State} (h : Keeps s0 s) :
    ∀ t, (execSramClrSelected part s) = .next t → Keeps s0 t := by
  unfold execSramClrSelected
  intro t ht
  obtain rfl := Host.Outcome.next.inj ht
  clear ht
  repeat' first
    | with_reducible assumption
    | with_reducible refine pageWrite_keeps (fun s _ => ?_) ?_
    | with_reducible refine sramClear_keeps ?_

theorem execSramClrAll_keeps {s0 : State} {part : Nat} {s : State} (h : Keeps s0 s) :
    ∀ t, (execSramClrAll part s) = .next t → Keeps s0 t := by
  unfold execSramClrAll
  intro t ht
  obtain rfl := Host.Outcome.next.inj ht
  clear ht
  repeat' first
    | with_reducible assumption
    | with_reducible refine pageWrite_keeps (fun s _ => ?_) ?_
    | with_reducible refine sramClear_keeps ?_

theorem jobPoison_keeps {s0 : State} {s : State} {part : Nat} {addr : Nat} {bs : List (Option Byte)} (h : Keeps s0 s) :
    Keeps s0 (jobPoison s part addr bs) := by
  unfold jobPoison
  repeat' first
    | with_reducible assumption
    | with_reducible refine poisonRead_keeps ?_

theorem copyFrom_keeps {s0 : State} {s : State} {j : Nat} {x : Job} {x3 : Nat} {x4 : Nat} {x5 : Nat} (h : Keeps s0 s) :
    Keeps s0 (copyFrom s j x x3 x4 x5) := by
  induction x3 generalizing s x4 x5 with
  | zero =>
    unfold copyFrom
    repeat' first
      | with_reducible assumption
      | with_reducible refine jobDone_keeps ?_
  | succ n ih =>
    unfold copyFrom
    dsimp only
    repeat' first
      | with_reducible assumption
      | with_reducible refine ih ?_
      | with_reducible refine dramLoad_keeps ?_
      | with_reducible refine askData_keeps ?_
      | with_reducible refine jobSet_keeps ?_
      | with_reducible refine dramStore_keeps ?_
      | with_reducible refine jobDone_keeps ?_
      | with_reducible refine hostWrite_keeps ?_
      | with_reducible refine jobPoison_keeps ?_
      | with_reducible refine Keeps.ite (fun _ => ?_) (fun _ => ?_)
      | split

theorem execMemCopy_keeps {s0 : State} {job : Nat} {s : State} (h : Keeps s0 s) :
    ∀ t, (execMemCopy job s) = .next t → Keeps s0 t := by
  unfold execMemCopy
  dsimp only
  intro t ht
  obtain rfl := Host.Outcome.next.inj ht
  clear ht
  repeat' first
    | with_reducible assumption
    | with_reducible refine jobDone_keeps ?_
    | with_reducible refine copyFrom_keeps ?_
    | with_reducible refine Keeps.ite (fun _ => ?_) (fun _ => ?_)
    | split

theorem execMemFill_keeps {s0 : State} {job : Nat} {s : State} (h : Keeps s0 s) :
    ∀ t, (execMemFill job s) = .next t → Keeps s0 t := by
  unfold execMemFill
  dsimp only
  intro t ht
  obtain rfl := Host.Outcome.next.inj ht
  clear ht
  repeat' first
    | with_reducible assumption
    | with_reducible refine jobDone_keeps ?_
    | with_reducible refine dramStore_keeps ?_
    | with_reducible refine Keeps.ite (fun _ => ?_) (fun _ => ?_)
    | split

theorem execMemCheck_keeps {s0 : State} {job : Nat} {s : State} (h : Keeps s0 s) :
    ∀ t, (execMemCheck job s) = .next t → Keeps s0 t := by
  unfold execMemCheck
  dsimp only
  intro t ht
  obtain rfl := Host.Outcome.next.inj ht
  clear ht
  repeat' first
    | with_reducible assumption
    | with_reducible refine jobDone_keeps ?_
    | with_reducible refine dramScrub_keeps ?_
    | with_reducible refine Keeps.ite (fun _ => ?_) (fun _ => ?_)
    | with_reducible refine Keeps.foldl_snd2 _ (fun _ _ _ => ?_) ?_
    | split

theorem execMemInject_keeps {s0 : State} {job : Nat} {s : State} (h : Keeps s0 s) :
    ∀ t, (execMemInject job s) = .next t → Keeps s0 t := by
  unfold execMemInject
  dsimp only
  intro t ht
  obtain rfl := Host.Outcome.next.inj ht
  clear ht
  repeat' first
    | with_reducible assumption
    | with_reducible refine jobDone_keeps ?_
    | with_reducible refine Keeps.memSame ?_ rfl
    | with_reducible refine Keeps.memAny ?_ (fun w => Mem.upset_wf _ _ (Mem.upset_wf _ _ (Keeps.dram_wf (Keeps.wf (s := s0) ?_ w))))
    | with_reducible refine Keeps.memAny ?_ (fun w => Mem.put_wf _ _ _ (Keeps.dram_wf (Keeps.wf (s := s0) ?_ w)))
    | with_reducible refine Keeps.memAny ?_ (fun w => Mem.upset_wf _ _ (Keeps.dram_wf (Keeps.wf (s := s0) ?_ w)))
    | with_reducible refine Keeps.ite (fun _ => ?_) (fun _ => ?_)
    | split

theorem memRegWrite_keeps {s0 : State} {s : State} {p : Nat} {off : Nat} {data : Word} (h : Keeps s0 s) :
    ∀ t, (memRegWrite s p off data) = some t → Keeps s0 t := by
  unfold memRegWrite
  repeat' first
    | with_reducible refine Keeps.optSome ?_
    | with_reducible exact Keeps.optNone
    | with_reducible refine Keeps.optIte (fun _ => ?_) (fun _ => ?_)
    | with_reducible assumption
    | with_reducible refine memcCfgWrite_keeps ?_
    | with_reducible refine memcInit_keeps ?_
    | with_reducible refine memcClear_keeps ?_
    | with_reducible refine planRegionWrite_keeps ?_
    | with_reducible refine sramClear_keeps ?_
    | with_reducible refine Keeps.ite (fun _ => ?_) (fun _ => ?_)

end Sys2Proof.Machine
end

