-- ==== Sys2Proof/Laws/KeepsRtu.lean ====
section
/-! SUPPORT. Each operation of Machine/Rtu.lean keeps what `Keeps` says. -/

namespace Sys2Proof.Machine

theorem rtuSet_keeps {s0 : State} {s : State} {x : RtuSt} (h : Keeps s0 s) :
    Keeps s0 (rtuSet s x) := by
  unfold rtuSet
  repeat' first
    | with_reducible assumption
    | fail_if_no_progress (with_reducible refine Keeps.upd0 ?_ rfl rfl rfl)

theorem flashPut_keeps {s0 : State} {s : State} {sec : Nat} {bs : List Byte} (h : Keeps s0 s) :
    Keeps s0 (flashPut s sec bs) := by
  unfold flashPut
  dsimp only
  repeat' first
    | with_reducible assumption
    | with_reducible refine rtuSet_keeps ?_

theorem flashRun_keeps {s0 : State} {s : State} {c : FlashCmd} {flips : List Nat} (h : Keeps s0 s) :
    Keeps s0 (flashRun s c flips) := by
  unfold flashRun
  repeat' first
    | with_reducible assumption
    | with_reducible refine flashPut_keeps ?_
    | split

theorem showStore_keeps {s0 : State} {s : State} (h : Keeps s0 s) :
    Keeps s0 (showStore s) := by
  unfold showStore
  dsimp only
  repeat' first
    | with_reducible assumption
    | with_reducible refine Keeps.fset ?_
    | with_reducible refine Keeps.setReg64 ?_
    | split

theorem huMeasure_keeps {s0 : State} {s : State} {codes : List Nat} (h : Keeps s0 s) :
    Keeps s0 (huMeasure s codes).2 := by
  unfold huMeasure
  dsimp only
  repeat' first
    | with_reducible assumption
    | with_reducible refine Keeps.free ?_
    | with_reducible refine Keeps.fset ?_
    | with_reducible refine Keeps.setReg ?_
    | split

theorem huCheck_keeps {s0 : State} {s : State} {r : Nat} {x : Nat} {codes : List Nat} (h : Keeps s0 s) :
    Keeps s0 (huCheck s r x codes).2 := by
  unfold huCheck
  dsimp only
  repeat' first
    | with_reducible assumption
    | with_reducible refine huMeasure_keeps ?_
    | with_reducible refine Keeps.setReg ?_

theorem execHoldupMeasure_keeps {s0 : State} {codes : List Nat} {s : State} (h : Keeps s0 s) :
    ∀ t, (execHoldupMeasure codes s) = .next t → Keeps s0 t := by
  unfold execHoldupMeasure
  intro t ht
  obtain rfl := Host.Outcome.next.inj ht
  clear ht
  repeat' first
    | with_reducible assumption
    | with_reducible refine huMeasure_keeps ?_
    | with_reducible refine Keeps.ite (fun _ => ?_) (fun _ => ?_)

theorem rtuLast_keeps {s0 : State} {s : State} {part : Nat} {status : Nat} {cause : Nat} (h : Keeps s0 s) :
    Keeps s0 (rtuLast s part status cause) := by
  unfold rtuLast
  repeat' first
    | with_reducible assumption
    | with_reducible refine Keeps.fset ?_

theorem rtuJobEnd_keeps {s0 : State} {s : State} {job : Option (Nat × Nat)} {status : Nat} {result : Nat} (h : Keeps s0 s) :
    Keeps s0 (rtuJobEnd s job status result) := by
  unfold rtuJobEnd
  dsimp only
  repeat' first
    | with_reducible assumption
    | with_reducible refine rtuSet_keeps ?_
    | with_reducible refine jobDone_keeps ?_
    | with_reducible refine Keeps.ite (fun _ => ?_) (fun _ => ?_)
    | split

theorem rtuFail_keeps {s0 : State} {s : State} {w : RtuWork} {status : Nat} {cause : Nat} (h : Keeps s0 s) :
    Keeps s0 (rtuFail s w status cause) := by
  unfold rtuFail
  dsimp only
  repeat' first
    | with_reducible assumption
    | with_reducible refine rtuSet_keeps ?_
    | with_reducible refine Keeps.fset ?_
    | with_reducible refine showStore_keeps ?_
    | with_reducible refine pageIrq_keeps ?_
    | with_reducible refine rtuLast_keeps ?_
    | with_reducible refine rtuJobEnd_keeps ?_
    | with_reducible refine Keeps.ite (fun _ => ?_) (fun _ => ?_)

theorem rtuDone_keeps {s0 : State} {s : State} {w : RtuWork} (h : Keeps s0 s) :
    Keeps s0 (rtuDone s w) := by
  unfold rtuDone
  dsimp only
  repeat' first
    | with_reducible assumption
    | with_reducible refine rtuSet_keeps ?_
    | with_reducible refine showStore_keeps ?_
    | with_reducible refine Keeps.fset ?_
    | with_reducible refine rtuLast_keeps ?_
    | with_reducible refine pageIrq_keeps ?_
    | with_reducible refine Keeps.fincSat ?_
    | with_reducible refine rtuJobEnd_keeps ?_
    | with_reducible refine Keeps.ite (fun _ => ?_) (fun _ => ?_)

theorem rtuShort_keeps {s0 : State} {s : State} {part : Nat} {job : Option (Nat × Nat)} (h : Keeps s0 s) :
    Keeps s0 (rtuShort s part job) := by
  unfold rtuShort
  dsimp only
  repeat' first
    | with_reducible assumption
    | with_reducible refine rtuLast_keeps ?_
    | with_reducible refine Keeps.fincSat ?_
    | with_reducible refine rtuJobEnd_keeps ?_
    | with_reducible refine pageIrq_keeps ?_

theorem rtuIssue_keeps {s0 : State} {s : State} {w : RtuWork} {c : FlashCmd} (h : Keeps s0 s) :
    Keeps s0 (rtuIssue s w c) := by
  unfold rtuIssue
  dsimp only
  repeat' first
    | with_reducible assumption
    | with_reducible refine rtuSet_keeps ?_

theorem rtuNext_program_keeps {s0 : State} {s : State} {w : RtuWork} (h : Keeps s0 s) :
    Keeps s0 (rtuNext.program s w) := by
  unfold rtuNext.program
  dsimp only
  repeat' first
    | with_reducible assumption
    | with_reducible refine rtuIssue_keeps ?_

theorem rtuNext_keeps {s0 : State} {s : State} {w : RtuWork} (h : Keeps s0 s) :
    Keeps s0 (rtuNext s w) := by
  unfold rtuNext
  dsimp only
  repeat' first
    | with_reducible assumption
    | with_reducible refine rtuIssue_keeps ?_
    | with_reducible refine rtuNext_program_keeps ?_
    | with_reducible refine rtuSet_keeps ?_
    | with_reducible refine Keeps.hostSend ?_
    | with_reducible refine Keeps.ite (fun _ => ?_) (fun _ => ?_)
    | split

theorem rtuWritten_keeps {s0 : State} {s : State} {w : RtuWork} {codes : List Nat} (h : Keeps s0 s) :
    Keeps s0 (rtuWritten s w codes) := by
  unfold rtuWritten
  dsimp only
  repeat' first
    | with_reducible assumption
    | with_reducible refine rtuNext_keeps ?_
    | with_reducible refine huMeasure_keeps ?_
    | with_reducible refine rtuFail_keeps ?_
    | with_reducible refine rtuDone_keeps ?_
    | with_reducible refine Keeps.ite (fun _ => ?_) (fun _ => ?_)
    | split

theorem flashError_keeps {s0 : State} {s : State} {sec : Nat} (h : Keeps s0 s) :
    Keeps s0 (flashError s sec) := by
  unfold flashError
  repeat' first
    | with_reducible assumption
    | with_reducible refine capture_keeps ?_

theorem rtuBad_keeps {s0 : State} {s : State} {w : RtuWork} {sec : Nat} (h : Keeps s0 s) :
    Keeps s0 (rtuBad s w sec) := by
  unfold rtuBad
  dsimp only
  repeat' first
    | with_reducible assumption
    | with_reducible refine rtuFail_keeps ?_
    | with_reducible refine showStore_keeps ?_
    | with_reducible refine rtuSet_keeps ?_
    | with_reducible refine rtuNext_keeps ?_
    | with_reducible refine Keeps.ite (fun _ => ?_) (fun _ => ?_)
    | split

theorem markErased_keeps {s0 : State} {s : State} {sec : Nat} {on : Bool} (h : Keeps s0 s) :
    Keeps s0 (markErased s sec on) := by
  unfold markErased
  dsimp only
  repeat' first
    | with_reducible assumption
    | with_reducible refine rtuSet_keeps ?_

theorem dapProgram_keeps {s0 : State} {s : State} (h : Keeps s0 s) :
    Keeps s0 (dapProgram s) := by
  unfold dapProgram
  dsimp only
  repeat' first
    | with_reducible assumption
    | with_reducible refine rtuSet_keeps ?_
    | fail_if_no_progress (with_reducible refine Keeps.upd0 ?_ rfl rfl rfl)
    | split

theorem execFlashOpDone_keeps {s0 : State} {ok : Bool} {flips : List Nat} {codes : List Nat} {s : State} (h : Keeps s0 s) :
    ∀ t, (execFlashOpDone ok flips codes s) = .next t → Keeps s0 t := by
  unfold execFlashOpDone
  dsimp only
  intro t ht
  obtain rfl := Host.Outcome.next.inj ht
  clear ht
  repeat' first
    | with_reducible assumption
    | with_reducible refine flashRun_keeps ?_
    | with_reducible refine rtuSet_keeps ?_
    | with_reducible refine markErased_keeps ?_
    | with_reducible refine flashError_keeps ?_
    | with_reducible refine dapProgram_keeps ?_
    | with_reducible refine rtuNext_keeps ?_
    | with_reducible refine rtuBad_keeps ?_
    | with_reducible refine rtuWritten_keeps ?_
    | with_reducible refine Keeps.ite (fun _ => ?_) (fun _ => ?_)
    | split

theorem execBackgroundErase_keeps {s0 : State} {s : State} (h : Keeps s0 s) :
    ∀ t, (execBackgroundErase s) = .next t → Keeps s0 t := by
  unfold execBackgroundErase
  dsimp only
  intro t ht
  obtain rfl := Host.Outcome.next.inj ht
  clear ht
  repeat' first
    | with_reducible assumption
    | with_reducible refine markErased_keeps ?_
    | with_reducible refine rtuSet_keeps ?_
    | with_reducible refine Keeps.ite (fun _ => ?_) (fun _ => ?_)
    | split

theorem commitStart_keeps {s0 : State} {s : State} {st : Store} {part : Nat} {job : Option (Nat × Nat)} {ops : List RetOp} {codes : List Nat} (h : Keeps s0 s) :
    Keeps s0 (commitStart s st part job ops codes) := by
  unfold commitStart
  dsimp only
  repeat' first
    | with_reducible assumption
    | with_reducible refine huCheck_keeps ?_
    | with_reducible refine rtuShort_keeps ?_
    | with_reducible refine Keeps.fset ?_
    | with_reducible refine jobSet_keeps ?_
    | with_reducible refine rtuNext_keeps ?_
    | with_reducible refine Keeps.ite (fun _ => ?_) (fun _ => ?_)
    | split

theorem retJob_keeps {s0 : State} {s : State} {j : Nat} {op : Nat} {writes : Bool} {k : State → Job → State} (hk1 : ∀ s (a0 : Job), Keeps s0 s → Keeps s0 (k s a0)) (h : Keeps s0 s) :
    Keeps s0 (retJob s j op writes k) := by
  unfold retJob
  repeat' first
    | with_reducible assumption
    | with_reducible refine jobDone_keeps ?_
    | with_reducible refine hk1 _ _ ?_
    | with_reducible refine Keeps.ite (fun _ => ?_) (fun _ => ?_)
    | split

theorem execRtuCommit_keeps {s0 : State} {job : Nat} {codes : List Nat} {s : State} (h : Keeps s0 s) :
    ∀ t, (execRtuCommit job codes s) = .next t → Keeps s0 t := by
  unfold execRtuCommit
  dsimp only
  intro t ht
  obtain rfl := Host.Outcome.next.inj ht
  clear ht
  repeat' first
    | with_reducible assumption
    | with_reducible refine retJob_keeps (fun s _ _ => ?_) ?_
    | with_reducible refine commitStart_keeps ?_
    | with_reducible refine jobDone_keeps ?_
    | with_reducible refine Keeps.ite (fun _ => ?_) (fun _ => ?_)
    | split

theorem execRtuRead_keeps {s0 : State} {job : Nat} {s : State} (h : Keeps s0 s) :
    ∀ t, (execRtuRead job s) = .next t → Keeps s0 t := by
  unfold execRtuRead
  dsimp only
  intro t ht
  obtain rfl := Host.Outcome.next.inj ht
  clear ht
  repeat' first
    | with_reducible assumption
    | with_reducible refine retJob_keeps (fun s _ _ => ?_) ?_
    | with_reducible refine jobDone_keeps ?_
    | with_reducible refine Keeps.hostSend ?_
    | with_reducible refine Keeps.ite (fun _ => ?_) (fun _ => ?_)
    | split

theorem execRtuList_keeps {s0 : State} {job : Nat} {s : State} (h : Keeps s0 s) :
    ∀ t, (execRtuList job s) = .next t → Keeps s0 t := by
  unfold execRtuList
  dsimp only
  intro t ht
  obtain rfl := Host.Outcome.next.inj ht
  clear ht
  repeat' first
    | with_reducible assumption
    | with_reducible refine retJob_keeps (fun s _ _ => ?_) ?_
    | with_reducible refine Keeps.hostSend ?_
    | with_reducible refine jobDone_keeps ?_
    | with_reducible refine Keeps.ite (fun _ => ?_) (fun _ => ?_)
    | split

theorem execRtuFormat_keeps {s0 : State} {job : Nat} {codes : List Nat} {s : State} (h : Keeps s0 s) :
    ∀ t, (execRtuFormat job codes s) = .next t → Keeps s0 t := by
  unfold execRtuFormat
  dsimp only
  intro t ht
  obtain rfl := Host.Outcome.next.inj ht
  clear ht
  repeat' first
    | with_reducible assumption
    | with_reducible refine retJob_keeps (fun s _ _ => ?_) ?_
    | with_reducible refine huCheck_keeps ?_
    | with_reducible refine rtuShort_keeps ?_
    | with_reducible refine jobSet_keeps ?_
    | with_reducible refine Keeps.fset ?_
    | with_reducible refine rtuNext_keeps ?_
    | with_reducible refine Keeps.ite (fun _ => ?_) (fun _ => ?_)

theorem rtuDiscover_flashFault_keeps {s0 : State} {s : State} (h : Keeps s0 s) :
    Keeps s0 (rtuDiscover.flashFault s) := by
  unfold rtuDiscover.flashFault
  repeat' first
    | with_reducible assumption
    | with_reducible refine Keeps.fset ?_
    | with_reducible refine capture_keeps ?_

theorem rtuDiscover_keeps {s0 : State} {s : State} {sfdp : Option (Nat × Nat)} (h : Keeps s0 s) :
    Keeps s0 (rtuDiscover s sfdp) := by
  unfold rtuDiscover
  dsimp only
  repeat' first
    | with_reducible assumption
    | with_reducible refine Keeps.fset ?_
    | with_reducible refine rtuDiscover_flashFault_keeps ?_
    | with_reducible refine Keeps.ite (fun _ => ?_) (fun _ => ?_)
    | split

theorem rtuBegin_keeps {s0 : State} {s : State} (h : Keeps s0 s) :
    Keeps s0 (rtuBegin s) := by
  unfold rtuBegin
  repeat' first
    | with_reducible assumption
    | with_reducible refine Keeps.fset ?_
    | with_reducible refine Keeps.ite (fun _ => ?_) (fun _ => ?_)

theorem execRtuRecovery_keeps {s0 : State} {s : State} (h : Keeps s0 s) :
    ∀ t, (execRtuRecovery s) = .next t → Keeps s0 t := by
  unfold execRtuRecovery
  dsimp only
  intro t ht
  obtain rfl := Host.Outcome.next.inj ht
  clear ht
  repeat' first
    | with_reducible assumption
    | with_reducible refine Keeps.fset ?_
    | with_reducible refine rtuSet_keeps ?_
    | with_reducible refine capture_keeps ?_
    | with_reducible refine pageIrq_keeps ?_
    | with_reducible refine showStore_keeps ?_
    | with_reducible refine Keeps.ite (fun _ => ?_) (fun _ => ?_)
    | split

theorem readNote_keeps {s0 : State} {s : State} {part : Nat} {res : ReadResult} (h : Keeps s0 s) :
    Keeps s0 (readNote s part res) := by
  unfold readNote
  repeat' first
    | with_reducible assumption
    | with_reducible refine Keeps.hostNote ?_
    | split

theorem rtuData_keeps {s0 : State} {s : State} {w : RtuWork} {res : ReadResult} (h : Keeps s0 s) :
    Keeps s0 (rtuData s w res) := by
  unfold rtuData
  dsimp only
  repeat' first
    | with_reducible assumption
    | with_reducible refine readNote_keeps ?_
    | with_reducible refine rtuNext_keeps ?_
    | with_reducible refine rtuFail_keeps ?_
    | split

theorem jobData_keeps {s0 : State} {s : State} {job : Nat} {res : ReadResult} (h : Keeps s0 s) :
    Keeps s0 (jobData s job res) := by
  unfold jobData
  repeat' first
    | with_reducible assumption
    | with_reducible refine readNote_keeps ?_
    | with_reducible refine jobSet_keeps ?_
    | with_reducible refine Keeps.ite (fun _ => ?_) (fun _ => ?_)
    | split

theorem execHostReadCompletion_keeps {s0 : State} {job : Nat} {res : ReadResult} {s : State} (h : Keeps s0 s) :
    ∀ t, (execHostReadCompletion job res s) = .next t → Keeps s0 t := by
  unfold execHostReadCompletion
  intro t ht
  obtain rfl := Host.Outcome.next.inj ht
  clear ht
  repeat' first
    | with_reducible assumption
    | with_reducible refine rtuData_keeps ?_
    | with_reducible refine jobData_keeps ?_
    | with_reducible refine Keeps.ite (fun _ => ?_) (fun _ => ?_)
    | split

end Sys2Proof.Machine
end

