-- ==== Sys2Proof/Laws/KeepsPlan.lean ====
section
/-! SUPPORT. Each operation of Machine/Plan.lean keeps what `Keeps` says. -/

namespace Sys2Proof.Machine

theorem showSlots_keeps {s0 : State} {s : State} (h : Keeps s0 s) :
    Keeps s0 (showSlots s) := by
  unfold showSlots
  dsimp only
  repeat' first
    | with_reducible assumption
    | with_reducible refine Keeps.fset ?_
    | with_reducible refine slotState_keeps ?_
    | with_reducible refine Keeps.each _ (fun _ _ _ => ?_) ?_

theorem showPlan_keeps {s0 : State} {s : State} (h : Keeps s0 s) :
    Keeps s0 (showPlan s) := by
  unfold showPlan
  dsimp only
  repeat' first
    | with_reducible assumption
    | with_reducible refine Keeps.fset ?_
    | with_reducible refine Keeps.setReg64 ?_
    | with_reducible refine showSlots_keeps ?_
    | split

theorem planPend_keeps {s0 : State} {s : State} {load : Option PlanImage} (h : Keeps s0 s) :
    Keeps s0 (planPend s load) := by
  unfold planPend
  dsimp only
  repeat' first
    | with_reducible assumption
    | with_reducible refine timeSet_keeps ?_
    | with_reducible refine facetMod_keeps ?_ rfl
    | with_reducible refine Keeps.setReg64 ?_
    | with_reducible refine showPlan_keeps ?_
    | with_reducible refine Keeps.ite (fun _ => ?_) (fun _ => ?_)

theorem execPlanLoad_keeps {s0 : State} {job : Nat} {img : PlanImage} {s : State} (h : Keeps s0 s) :
    ∀ t, (execPlanLoad job img s) = .next t → Keeps s0 t := by
  unfold execPlanLoad
  dsimp only
  intro t ht
  obtain rfl := Host.Outcome.next.inj ht
  clear ht
  repeat' first
    | with_reducible assumption
    | with_reducible refine jobDone_keeps ?_
    | with_reducible refine withHostData_keeps (fun s _ _ _ => ?_) (fun s _ _ => ?_) ?_
    | with_reducible refine remapVacant_keeps ?_
    | with_reducible refine loadDone_keeps ?_
    | with_reducible refine planPend_keeps ?_
    | with_reducible refine planTake_keeps ?_
    | with_reducible refine jobSet_keeps ?_
    | with_reducible refine Keeps.ite (fun _ => ?_) (fun _ => ?_)
    | split

theorem execPlanStop_keeps {s0 : State} {job : Nat} {s : State} (h : Keeps s0 s) :
    ∀ t, (execPlanStop job s) = .next t → Keeps s0 t := by
  unfold execPlanStop
  intro t ht
  obtain rfl := Host.Outcome.next.inj ht
  clear ht
  repeat' first
    | with_reducible assumption
    | with_reducible refine jobDone_keeps ?_
    | with_reducible refine planPend_keeps ?_
    | with_reducible refine planTake_keeps ?_
    | split

theorem remapOne_keeps {s0 : State} {s : State} {r : SpareLoad} (h : Keeps s0 s) :
    Keeps s0 (remapOne s r) := by
  unfold remapOne
  dsimp only
  repeat' first
    | with_reducible assumption
    | with_reducible refine setRole_keeps ?_
    | with_reducible refine markOut_keeps ?_
    | with_reducible refine tileStop_keeps ?_
    | with_reducible refine timeSet_keeps ?_
    | with_reducible refine Keeps.fincSat ?_
    | split

theorem remapEpoch_keeps {s0 : State} {s : State} (h : Keeps s0 s) :
    Keeps s0 (remapEpoch s) := by
  unfold remapEpoch
  dsimp only
  repeat' first
    | with_reducible assumption
    | with_reducible refine remapOne_keeps ?_
    | with_reducible refine facetMod_keeps ?_ rfl
    | with_reducible refine Keeps.fset ?_
    | with_reducible refine pageIrq_keeps ?_
    | with_reducible refine Keeps.setReg64 ?_
    | with_reducible refine Keeps.each _ (fun _ _ _ => ?_) ?_

theorem releasesEpoch_keeps {s0 : State} {s : State} (h : Keeps s0 s) :
    Keeps s0 (releasesEpoch s) := by
  unfold releasesEpoch
  dsimp only
  repeat' first
    | with_reducible assumption
    | with_reducible refine timeSet_keeps ?_

theorem releasesStop_keeps {s0 : State} {s : State} (h : Keeps s0 s) :
    Keeps s0 (releasesStop s) := by
  unfold releasesStop
  dsimp only
  repeat' first
    | with_reducible assumption
    | with_reducible refine relSet_keeps ?_
    | with_reducible refine Keeps.each _ (fun _ _ _ => ?_) ?_
    | split

theorem tileEpoch_keeps {s0 : State} {s : State} {i : Nat} (h : Keeps s0 s) :
    Keeps s0 (tileEpoch s i) := by
  unfold tileEpoch
  dsimp only
  repeat' first
    | with_reducible assumption
    | with_reducible refine storeOut_keeps ?_
    | (with_reducible refine Keeps.tileKeep ?_ ?_; on_goal 2 => (simp; done))
    | with_reducible refine Keeps.each _ (fun _ _ _ => ?_) ?_

theorem tileProgram_keeps {s0 : State} {s : State} {i : Nat} (h : Keeps s0 s) :
    Keeps s0 (tileProgram s i) := by
  unfold tileProgram
  dsimp only
  repeat' first
    | with_reducible assumption
    | with_reducible refine Keeps.fset ?_
    | with_reducible refine tileWrite_keeps ?_
    | with_reducible refine Keeps.each _ (fun _ _ _ => ?_) ?_
    | split

theorem calendarEpoch_keeps {s0 : State} {s : State} (h : Keeps s0 s) :
    Keeps s0 (calendarEpoch s) := by
  unfold calendarEpoch
  dsimp only
  repeat' first
    | with_reducible assumption
    | with_reducible refine Keeps.fset ?_
    | with_reducible refine phaseSet_keeps ?_
    | with_reducible refine Keeps.each _ (fun _ _ _ => ?_) ?_

theorem pwmEpoch_keeps {s0 : State} {s : State} (h : Keeps s0 s) :
    Keeps s0 (pwmEpoch s) := by
  unfold pwmEpoch
  dsimp only
  repeat' first
    | with_reducible assumption
    | with_reducible refine Keeps.setReg ?_
    | with_reducible refine Keeps.fset ?_
    | with_reducible refine pairSet_keeps ?_
    | with_reducible refine pairIdle_keeps ?_
    | with_reducible refine pageIrq_keeps ?_
    | with_reducible refine Keeps.ite (fun _ => ?_) (fun _ => ?_)
    | with_reducible refine Keeps.each _ (fun _ _ _ => ?_) ?_

theorem slotEpoch_keeps {s0 : State} {s : State} {k : Nat} (h : Keeps s0 s) :
    Keeps s0 (slotEpoch s k) := by
  unfold slotEpoch
  dsimp only
  repeat' first
    | with_reducible assumption
    | with_reducible refine jobDone_keeps ?_
    | with_reducible refine jobSet_keeps ?_
    | with_reducible refine slotSet_keeps ?_
    | with_reducible refine takeForceCold_keeps ?_
    | with_reducible refine Keeps.ite (fun _ => ?_) (fun _ => ?_)
    | with_reducible refine Keeps.each _ (fun _ _ _ => ?_) ?_
    | split

theorem epochPlace_keeps {s0 : State} {s : State} (h : Keeps s0 s) :
    Keeps s0 (epochPlace s) := by
  unfold epochPlace
  dsimp only
  repeat' first
    | with_reducible assumption
    | with_reducible refine timeSet_keeps ?_
    | with_reducible refine Keeps.reach ?_
    | with_reducible refine Keeps.fset ?_
    | with_reducible refine syncLost_keeps ?_
    | with_reducible refine Keeps.ite (fun _ => ?_) (fun _ => ?_)
    | split

theorem planTakes_keeps {s0 : State} {s : State} (h : Keeps s0 s) :
    Keeps s0 (planTakes s) := by
  unfold planTakes
  dsimp only
  repeat' first
    | with_reducible assumption
    | with_reducible refine releasesStop_keeps ?_
    | with_reducible refine planTake_keeps ?_
    | with_reducible refine timeSet_keeps ?_
    | with_reducible refine pageIrq_keeps ?_
    | with_reducible refine Keeps.ite (fun _ => ?_) (fun _ => ?_)
    | split

theorem execPlanEpoch_keeps {s0 : State} {s : State} (h : Keeps s0 s) :
    ∀ t, (execPlanEpoch s) = .next t → Keeps s0 t := by
  unfold execPlanEpoch
  dsimp only
  intro t ht
  obtain rfl := Host.Outcome.next.inj ht
  clear ht
  repeat' first
    | with_reducible assumption
    | with_reducible refine epochPlace_keeps ?_
    | with_reducible refine tileEpoch_keeps ?_
    | with_reducible refine remapEpoch_keeps ?_
    | with_reducible refine planTakes_keeps ?_
    | with_reducible refine releasesEpoch_keeps ?_
    | with_reducible refine timeSet_keeps ?_
    | with_reducible refine fixRemap_keeps ?_
    | with_reducible refine calendarEpoch_keeps ?_
    | with_reducible refine loopEpoch_keeps ?_
    | with_reducible refine refreshHolds_keeps ?_
    | with_reducible refine pwmEpoch_keeps ?_
    | with_reducible refine clnkEpoch_keeps ?_
    | with_reducible refine slotEpoch_keeps ?_
    | with_reducible refine tileProgram_keeps ?_
    | with_reducible refine Keeps.setReg64 ?_
    | with_reducible refine pageIrq_keeps ?_
    | with_reducible refine showPlan_keeps ?_
    | with_reducible refine Keeps.ite (fun _ => ?_) (fun _ => ?_)
    | with_reducible refine Keeps.each _ (fun _ _ _ => ?_) ?_

end Sys2Proof.Machine
end

