-- ==== Sys2Proof/Laws/KeepsPower.lean ====
section
/-! SUPPORT. Each operation of Machine/Power.lean keeps what `Keeps` says. -/

namespace Sys2Proof.Machine

theorem powerSet_keeps {s0 : State} {s : State} {x : PowerSt} (h : Keeps s0 s) :
    Keeps s0 (powerSet s x) := by
  unfold powerSet
  repeat' first
    | with_reducible assumption
    | fail_if_no_progress (with_reducible refine Keeps.upd0 ?_ rfl rfl rfl)

theorem showNext_keeps {s0 : State} {s : State} {e : Option (Nat × Nat)} (h : Keeps s0 s) :
    Keeps s0 (showNext s e) := by
  unfold showNext
  dsimp only
  repeat' first
    | with_reducible assumption
    | with_reducible refine Keeps.fset ?_
    | with_reducible refine Keeps.setReg64 ?_

theorem beginExit_keeps {s0 : State} {s : State} {wakes : Nat} (h : Keeps s0 s) :
    Keeps s0 (beginExit s wakes) := by
  unfold beginExit
  dsimp only
  repeat' first
    | with_reducible assumption
    | with_reducible refine Keeps.fset ?_
    | with_reducible refine chipReset_keeps ?_
    | with_reducible refine powerSet_keeps ?_
    | with_reducible refine Keeps.ite (fun _ => ?_) (fun _ => ?_)

theorem pmuWake_keeps {s0 : State} {s : State} {wakes : Nat} (h : Keeps s0 s) :
    Keeps s0 (pmuWake s wakes) := by
  unfold pmuWake
  repeat' first
    | with_reducible assumption
    | with_reducible refine Keeps.fset ?_
    | with_reducible refine beginExit_keeps ?_
    | with_reducible refine Keeps.ite (fun _ => ?_) (fun _ => ?_)
    | split

theorem execChooserEvaluate_keeps {s0 : State} {inL1 : Bool} {inD3 : Bool} {s : State} (h : Keeps s0 s) :
    ∀ t, (execChooserEvaluate inL1 inD3 s) = .next t → Keeps s0 t := by
  unfold execChooserEvaluate
  dsimp only
  intro t ht
  obtain rfl := Host.Outcome.next.inj ht
  clear ht
  repeat' first
    | with_reducible assumption
    | with_reducible refine Keeps.fset ?_
    | with_reducible refine beginExit_keeps ?_
    | with_reducible refine powerSet_keeps ?_
    | with_reducible refine showNext_keeps ?_
    | with_reducible refine Keeps.ite (fun _ => ?_) (fun _ => ?_)
    | split

theorem execPsEntryDone_keeps {s0 : State} {s : State} (h : Keeps s0 s) :
    ∀ t, (execPsEntryDone s) = .next t → Keeps s0 t := by
  unfold execPsEntryDone
  dsimp only
  intro t ht
  obtain rfl := Host.Outcome.next.inj ht
  clear ht
  repeat' first
    | with_reducible assumption
    | with_reducible refine powerSet_keeps ?_
    | with_reducible refine coreReset_keeps ?_
    | with_reducible refine Keeps.fset ?_
    | with_reducible refine wdtWait_keeps ?_
    | with_reducible refine Keeps.fincSat ?_
    | with_reducible refine timeSet_keeps ?_
    | with_reducible refine setOutputs_keeps ?_
    | with_reducible refine pairSet_keeps ?_
    | with_reducible refine Keeps.ite (fun _ => ?_) (fun _ => ?_)
    | with_reducible refine Keeps.each _ (fun _ _ _ => ?_) ?_
    | split

theorem execScheduledExit_keeps {s0 : State} {s : State} (h : Keeps s0 s) :
    ∀ t, (execScheduledExit s) = .next t → Keeps s0 t := by
  unfold execScheduledExit
  dsimp only
  intro t ht
  obtain rfl := Host.Outcome.next.inj ht
  clear ht
  repeat' first
    | with_reducible assumption
    | with_reducible refine Keeps.reach ?_
    | with_reducible refine beginExit_keeps ?_
    | with_reducible refine Keeps.ite (fun _ => ?_) (fun _ => ?_)
    | split

theorem execWake_keeps {s0 : State} {sources : BitVec 8} {s : State} (h : Keeps s0 s) :
    ∀ t, (execWake sources s) = .next t → Keeps s0 t := by
  unfold execWake
  intro t ht
  obtain rfl := Host.Outcome.next.inj ht
  clear ht
  repeat' first
    | with_reducible assumption
    | with_reducible refine pmuWake_keeps ?_

theorem execPsExitDone_keeps {s0 : State} {s : State} (h : Keeps s0 s) :
    ∀ t, (execPsExitDone s) = .next t → Keeps s0 t := by
  unfold execPsExitDone
  dsimp only
  intro t ht
  obtain rfl := Host.Outcome.next.inj ht
  clear ht
  repeat' first
    | with_reducible assumption
    | with_reducible refine powerSet_keeps ?_
    | with_reducible refine Keeps.fset ?_
    | with_reducible refine pageIrq_keeps ?_
    | with_reducible refine Keeps.ite (fun _ => ?_) (fun _ => ?_)

theorem ps4Refused_keeps {s0 : State} {s : State} {reason : Nat} {status : Nat} (h : Keeps s0 s) :
    Keeps s0 (ps4Refused s reason status) := by
  unfold ps4Refused
  dsimp only
  repeat' first
    | with_reducible assumption
    | with_reducible refine capture_keeps ?_
    | with_reducible refine powerSet_keeps ?_

theorem ps4End_keeps {s0 : State} {s : State} (h : Keeps s0 s) :
    Keeps s0 (ps4End s) := by
  unfold ps4End
  dsimp only
  repeat' first
    | with_reducible assumption
    | with_reducible refine rtuSet_keeps ?_
    | with_reducible refine Keeps.fset ?_
    | with_reducible refine ps4Refused_keeps ?_
    | with_reducible refine coreReset_keeps ?_
    | with_reducible refine powerSet_keeps ?_
    | with_reducible refine clearPage_keeps ?_
    | with_reducible refine pairSet_keeps ?_
    | with_reducible refine Keeps.ite (fun _ => ?_) (fun _ => ?_)
    | with_reducible refine Keeps.each _ (fun _ _ _ => ?_) ?_
    | fail_if_no_progress (with_reducible refine Keeps.upd0 ?_ rfl rfl rfl)
    | split

theorem ps4Write_keeps {s0 : State} {s : State} {part : Nat} {data : Word} {codes : List Nat} (h : Keeps s0 s) :
    Keeps s0 (ps4Write s part data codes) := by
  unfold ps4Write
  dsimp only
  repeat' first
    | with_reducible assumption
    | with_reducible refine ps4Refused_keeps ?_
    | with_reducible refine Keeps.fset ?_
    | with_reducible refine commitStart_keeps ?_
    | with_reducible refine powerSet_keeps ?_
    | with_reducible refine ps4End_keeps ?_
    | with_reducible refine Keeps.ite (fun _ => ?_) (fun _ => ?_)
    | split

theorem execPmuPs4_keeps {s0 : State} {part : Nat} {data : Word} {codes : List Nat} {s : State} (h : Keeps s0 s) :
    ∀ t, (execPmuPs4 part data codes s) = .next t → Keeps s0 t := by
  unfold execPmuPs4
  intro t ht
  obtain rfl := Host.Outcome.next.inj ht
  clear ht
  repeat' first
    | with_reducible assumption
    | with_reducible refine pageWrite_keeps (fun s _ => ?_) ?_
    | with_reducible refine ps4Write_keeps ?_

theorem execPs4CommitDone_keeps {s0 : State} {s : State} (h : Keeps s0 s) :
    ∀ t, (execPs4CommitDone s) = .next t → Keeps s0 t := by
  unfold execPs4CommitDone
  intro t ht
  obtain rfl := Host.Outcome.next.inj ht
  clear ht
  repeat' first
    | with_reducible assumption
    | with_reducible refine ps4End_keeps ?_
    | with_reducible refine Keeps.ite (fun _ => ?_) (fun _ => ?_)

theorem execPmuTimerFire_keeps {s0 : State} {timer : Nat} {s : State} (h : Keeps s0 s) :
    ∀ t, (execPmuTimerFire timer s) = .next t → Keeps s0 t := by
  unfold execPmuTimerFire
  dsimp only
  intro t ht
  obtain rfl := Host.Outcome.next.inj ht
  clear ht
  repeat' first
    | with_reducible assumption
    | with_reducible refine Keeps.setReg64 ?_
    | with_reducible refine Keeps.reach ?_
    | with_reducible refine pageIrq_keeps ?_
    | with_reducible refine Keeps.fset ?_
    | with_reducible refine Keeps.ite (fun _ => ?_) (fun _ => ?_)

theorem execThermalSample_keeps {s0 : State} {t0 : Int} {t1 : Int} {t2 : Int} {t3 : Int} {s : State} (h : Keeps s0 s) :
    ∀ t, (execThermalSample t0 t1 t2 t3 s) = .next t → Keeps s0 t := by
  unfold execThermalSample
  dsimp only
  intro t ht
  obtain rfl := Host.Outcome.next.inj ht
  clear ht
  repeat' first
    | with_reducible assumption
    | with_reducible refine Keeps.fset ?_
    | with_reducible refine chipReset_keeps ?_
    | with_reducible refine powerSet_keeps ?_
    | with_reducible refine Keeps.ite (fun _ => ?_) (fun _ => ?_)

theorem speedTo_keeps {s0 : State} {s : State} {v : Nat} (h : Keeps s0 s) :
    Keeps s0 (speedTo s v) := by
  unfold speedTo
  repeat' first
    | with_reducible assumption
    | with_reducible refine pageIrq_keeps ?_
    | with_reducible refine Keeps.fincSat ?_
    | with_reducible refine Keeps.fset ?_
    | with_reducible refine Keeps.ite (fun _ => ?_) (fun _ => ?_)

theorem execSpeedAdjust_keeps {s0 : State} {s : State} (h : Keeps s0 s) :
    ∀ t, (execSpeedAdjust s) = .next t → Keeps s0 t := by
  unfold execSpeedAdjust
  dsimp only
  intro t ht
  obtain rfl := Host.Outcome.next.inj ht
  clear ht
  repeat' first
    | with_reducible assumption
    | with_reducible refine Keeps.reach ?_
    | with_reducible refine powerSet_keeps ?_
    | with_reducible refine speedTo_keeps ?_
    | with_reducible refine Keeps.ite (fun _ => ?_) (fun _ => ?_)

theorem speedCapWritten_keeps {s0 : State} {s : State} (h : Keeps s0 s) :
    Keeps s0 (speedCapWritten s) := by
  unfold speedCapWritten
  repeat' first
    | with_reducible assumption
    | with_reducible refine speedTo_keeps ?_
    | with_reducible refine Keeps.ite (fun _ => ?_) (fun _ => ?_)

end Sys2Proof.Machine
end

