-- ==== Sys2Proof/Laws/KeepsTku.lean ====
section
/-! SUPPORT. Each operation of Machine/Tku.lean keeps what `Keeps` says. -/

namespace Sys2Proof.Machine

theorem tkuSet_keeps {s0 : State} {s : State} {x : TkuSt} (h : Keeps s0 s) :
    Keeps s0 (tkuSet s x) := by
  unfold tkuSet
  repeat' first
    | with_reducible assumption
    | fail_if_no_progress (with_reducible refine Keeps.upd0 ?_ rfl rfl rfl)

theorem fifoShow_keeps {s0 : State} {s : State} (h : Keeps s0 s) :
    Keeps s0 (fifoShow s) := by
  unfold fifoShow
  repeat' first
    | with_reducible assumption
    | with_reducible refine Keeps.fset ?_

theorem tkuEvent_keeps {s0 : State} {s : State} {source : Nat} {kind : Nat} {data : Nat} (h : Keeps s0 s) :
    Keeps s0 (tkuEvent s source kind data) := by
  unfold tkuEvent
  dsimp only
  repeat' first
    | with_reducible assumption
    | with_reducible refine pageIrq_keeps ?_
    | with_reducible refine fifoShow_keeps ?_
    | with_reducible refine tkuSet_keeps ?_
    | with_reducible refine Keeps.fincSat ?_
    | with_reducible refine pmuWake_keeps ?_
    | with_reducible refine Keeps.ite (fun _ => ?_) (fun _ => ?_)

theorem tkuEventFree_keeps {s0 : State} {s : State} {source : Nat} {kind : Nat} (h : Keeps s0 s) :
    Keeps s0 (tkuEventFree s source kind) := by
  unfold tkuEventFree
  dsimp only
  repeat' first
    | with_reducible assumption
    | with_reducible refine Keeps.free ?_
    | with_reducible refine tkuEvent_keeps ?_

theorem keySet_keeps {s0 : State} {s : State} {k : Nat} {x : KeySt} (h : Keeps s0 s) :
    Keeps s0 (keySet s k x) := by
  unfold keySet
  dsimp only
  repeat' first
    | with_reducible assumption
    | with_reducible refine tkuSet_keeps ?_

theorem keyShow_keeps {s0 : State} {s : State} {k : Nat} {on : Bool} (h : Keeps s0 s) :
    Keeps s0 (keyShow s k on) := by
  unfold keyShow
  repeat' first
    | with_reducible assumption
    | with_reducible refine Keeps.fset ?_
    | with_reducible refine Keeps.ite (fun _ => ?_) (fun _ => ?_)

theorem keyStrobe_keeps {s0 : State} {s : State} {k : Nat} {pin : Bool} (h : Keeps s0 s) :
    Keeps s0 (keyStrobe s k pin) := by
  unfold keyStrobe
  dsimp only
  repeat' first
    | with_reducible assumption
    | with_reducible refine keyShow_keeps ?_
    | with_reducible refine keySet_keeps ?_
    | with_reducible refine tkuEvent_keeps ?_
    | with_reducible refine Keeps.ite (fun _ => ?_) (fun _ => ?_)

theorem ccSet_keeps {s0 : State} {s : State} {p : Nat} {x : CcSt} (h : Keeps s0 s) :
    Keeps s0 (ccSet s p x) := by
  unfold ccSet
  dsimp only
  repeat' first
    | with_reducible assumption
    | with_reducible refine tkuSet_keeps ?_

theorem ccShow_keeps {s0 : State} {s : State} {p : Nat} {att : Nat} {orient : Nat} {cur : Nat} (h : Keeps s0 s) :
    Keeps s0 (ccShow s p att orient cur) := by
  unfold ccShow
  repeat' first
    | with_reducible assumption
    | with_reducible refine Keeps.fset ?_

theorem ccStrobe_keeps {s0 : State} {s : State} {p : Nat} {mv1 : Nat} {mv2 : Nat} (h : Keeps s0 s) :
    Keeps s0 (ccStrobe s p mv1 mv2) := by
  unfold ccStrobe
  dsimp only
  repeat' first
    | with_reducible assumption
    | with_reducible refine Keeps.fset ?_
    | with_reducible refine tkuEvent_keeps ?_
    | with_reducible refine ccShow_keeps ?_
    | with_reducible refine ccSet_keeps ?_
    | with_reducible refine tkuEventFree_keeps ?_
    | with_reducible refine Keeps.ite (fun _ => ?_) (fun _ => ?_)

theorem touchSet_keeps {s0 : State} {s : State} {c : Nat} {x : TouchSt} (h : Keeps s0 s) :
    Keeps s0 (touchSet s c x) := by
  unfold touchSet
  dsimp only
  repeat' first
    | with_reducible assumption
    | with_reducible refine tkuSet_keeps ?_

theorem tchMove_keeps {s0 : State} {s : State} {c : Nat} {v : Nat} (h : Keeps s0 s) :
    Keeps s0 (tchMove s c v) := by
  unfold tchMove
  dsimp only
  repeat' first
    | with_reducible assumption
    | with_reducible refine Keeps.fset ?_

theorem tchAcquire_keeps {s0 : State} {s : State} {c : Nat} {at_ : Nat} (h : Keeps s0 s) :
    Keeps s0 (tchAcquire s c at_) := by
  unfold tchAcquire
  repeat' first
    | with_reducible assumption
    | with_reducible refine touchSet_keeps ?_
    | with_reducible refine Keeps.fset ?_
    | with_reducible refine tchMove_keeps ?_

theorem tkuTake_keeps {s0 : State} {s : State} (h : Keeps s0 s) :
    Keeps s0 (tkuTake s) := by
  unfold tkuTake
  dsimp only
  repeat' first
    | with_reducible assumption
    | with_reducible refine tkuSet_keeps ?_
    | with_reducible refine keySet_keeps ?_
    | with_reducible refine touchSet_keeps ?_
    | with_reducible refine tchAcquire_keeps ?_
    | with_reducible refine Keeps.fset ?_
    | with_reducible refine tchMove_keeps ?_
    | with_reducible refine Keeps.ite (fun _ => ?_) (fun _ => ?_)
    | with_reducible refine Keeps.each _ (fun _ _ _ => ?_) ?_

theorem execTkuStrobe_keeps {s0 : State} {keys : BitVec 8} {dock : Bool} {cc0 : Nat} {cc1 : Nat} {cc2 : Nat} {cc3 : Nat} {s : State} (h : Keeps s0 s) :
    ∀ t, (execTkuStrobe keys dock cc0 cc1 cc2 cc3 s) = .next t → Keeps s0 t := by
  unfold execTkuStrobe
  dsimp only
  intro t ht
  obtain rfl := Host.Outcome.next.inj ht
  clear ht
  repeat' first
    | with_reducible assumption
    | with_reducible refine Keeps.reach ?_
    | with_reducible refine tkuSet_keeps ?_
    | with_reducible refine tkuTake_keeps ?_
    | with_reducible refine keyStrobe_keeps ?_
    | with_reducible refine ccStrobe_keeps ?_
    | with_reducible refine Keeps.ite (fun _ => ?_) (fun _ => ?_)
    | with_reducible refine Keeps.each _ (fun _ _ _ => ?_) ?_

theorem tchMeasure_keeps {s0 : State} {s : State} {c : Nat} (h : Keeps s0 s) :
    Keeps s0 (tchMeasure s c) := by
  unfold tchMeasure
  dsimp only
  repeat' first
    | with_reducible assumption
    | with_reducible refine Keeps.fset ?_

theorem tchSnap_keeps {s0 : State} {s : State} {c : Nat} (h : Keeps s0 s) :
    Keeps s0 (tchSnap s c) := by
  unfold tchSnap
  repeat' first
    | with_reducible assumption
    | with_reducible refine tchMeasure_keeps ?_
    | with_reducible refine Keeps.fset ?_

theorem tchTrack_keeps {s0 : State} {s : State} {c : Nat} (h : Keeps s0 s) :
    Keeps s0 (tchTrack s c) := by
  unfold tchTrack
  dsimp only
  repeat' first
    | with_reducible assumption
    | with_reducible refine Keeps.fset ?_
    | with_reducible refine Keeps.ite (fun _ => ?_) (fun _ => ?_)

theorem tchRecal_keeps {s0 : State} {s : State} {c : Nat} (h : Keeps s0 s) :
    Keeps s0 (tchRecal s c) := by
  unfold tchRecal
  dsimp only
  repeat' first
    | with_reducible assumption
    | with_reducible refine tchMove_keeps ?_
    | with_reducible refine tchSnap_keeps ?_
    | with_reducible refine tkuEvent_keeps ?_
    | with_reducible refine touchSet_keeps ?_

theorem tchScan_keeps {s0 : State} {s : State} {start : Nat} {c : Nat} (h : Keeps s0 s) :
    Keeps s0 (tchScan s start c) := by
  unfold tchScan
  extract_lets x deb raw ends faulted sc s1 sa negTh neg maxOn g k t n y sm s2
  refine Keeps.ite (fun _ => h) fun _ => ?_
  refine Keeps.ite (fun _ => tchSnap_keeps (tchAcquire_keeps (Keeps.fset h))) fun _ => ?_
  refine Keeps.ite (fun _ => touchSet_keeps (Keeps.fset (capture_keeps (tchMove_keeps h)))) fun _ => ?_
  have h1 : Keeps s0 s1 := touchSet_keeps h
  have hs : Keeps s0 s2 :=
    Keeps.ite (fun _ => tkuEvent_keeps (touchSet_keeps (tchMove_keeps h1))) fun _ => touchSet_keeps h1
  have ha : Keeps s0 sa := touchSet_keeps (Keeps.fset h1)
  clear_value s2 sa s1
  split
  · refine Keeps.ite (fun _ => tchSnap_keeps h1) fun _ => ?_
    exact tkuEvent_keeps ha
  · refine Keeps.ite (fun _ => h1) fun _ => ?_
    refine Keeps.ite (fun _ => tchRecal_keeps h1) fun _ => ?_
    refine Keeps.ite (fun _ => tchTrack_keeps (touchSet_keeps h1)) fun _ => ?_
    exact Keeps.ite (fun _ => tchTrack_keeps hs) fun _ => hs

theorem wetScan_keeps {s0 : State} {s : State} (h : Keeps s0 s) :
    Keeps s0 (wetScan s) := by
  unfold wetScan
  dsimp only
  repeat' first
    | with_reducible assumption
    | with_reducible refine tkuSet_keeps ?_
    | with_reducible refine tchMove_keeps ?_
    | with_reducible refine Keeps.fset ?_
    | with_reducible refine tkuEventFree_keeps ?_
    | with_reducible refine Keeps.ite (fun _ => ?_) (fun _ => ?_)
    | split

theorem execTouchScanEnd_keeps {s0 : State} {raws : List Nat} {tick : Nat} {s : State} (h : Keeps s0 s) :
    ∀ t, (execTouchScanEnd raws tick s) = .next t → Keeps s0 t := by
  unfold execTouchScanEnd
  dsimp only
  intro t ht
  obtain rfl := Host.Outcome.next.inj ht
  clear ht
  repeat' first
    | with_reducible assumption
    | with_reducible refine Keeps.reach ?_
    | with_reducible refine tkuSet_keeps ?_
    | with_reducible refine tchMeasure_keeps ?_
    | with_reducible refine Keeps.fset ?_
    | with_reducible refine tchScan_keeps ?_
    | with_reducible refine wetScan_keeps ?_
    | with_reducible refine Keeps.each _ (fun _ _ _ => ?_) ?_
    | split

theorem tkuEvtRead_keeps {s0 : State} {s : State} {part : Nat} (h : Keeps s0 s) :
    Keeps s0 (tkuEvtRead s part).2 := by
  unfold tkuEvtRead
  dsimp only
  repeat' first
    | with_reducible assumption
    | with_reducible refine tkuSet_keeps ?_
    | with_reducible refine fifoShow_keeps ?_
    | with_reducible refine Keeps.ite (fun _ => ?_) (fun _ => ?_)

theorem execTkuEvtRead_keeps {s0 : State} {part : Nat} {s : State} (h : Keeps s0 s) :
    ∀ t, (execTkuEvtRead part s) = .next t → Keeps s0 t := by
  unfold execTkuEvtRead
  intro t ht
  obtain rfl := Host.Outcome.next.inj ht
  clear ht
  repeat' first
    | with_reducible assumption
    | with_reducible refine pageRead_keeps (fun s _ => ?_) ?_
    | with_reducible refine tkuEvtRead_keeps ?_

theorem tkuClr_keeps {s0 : State} {s : State} {data : Word} (h : Keeps s0 s) :
    Keeps s0 (tkuClr s data) := by
  unfold tkuClr
  dsimp only
  repeat' first
    | with_reducible assumption
    | with_reducible refine fifoShow_keeps ?_
    | with_reducible refine tkuSet_keeps ?_
    | with_reducible refine Keeps.fset ?_
    | with_reducible refine tchAcquire_keeps ?_
    | with_reducible refine Keeps.ite (fun _ => ?_) (fun _ => ?_)
    | with_reducible refine Keeps.each _ (fun _ _ _ => ?_) ?_

theorem execTkuFlush_keeps {s0 : State} {part : Nat} {s : State} (h : Keeps s0 s) :
    ∀ t, (execTkuFlush part s) = .next t → Keeps s0 t := by
  unfold execTkuFlush
  intro t ht
  obtain rfl := Host.Outcome.next.inj ht
  clear ht
  repeat' first
    | with_reducible assumption
    | with_reducible refine pageWrite_keeps (fun s _ => ?_) ?_
    | with_reducible refine tkuClr_keeps ?_

theorem execTkuClrDropped_keeps {s0 : State} {part : Nat} {s : State} (h : Keeps s0 s) :
    ∀ t, (execTkuClrDropped part s) = .next t → Keeps s0 t := by
  unfold execTkuClrDropped
  intro t ht
  obtain rfl := Host.Outcome.next.inj ht
  clear ht
  repeat' first
    | with_reducible assumption
    | with_reducible refine pageWrite_keeps (fun s _ => ?_) ?_
    | with_reducible refine tkuClr_keeps ?_

theorem execReacquire_keeps {s0 : State} {part : Nat} {s : State} (h : Keeps s0 s) :
    ∀ t, (execReacquire part s) = .next t → Keeps s0 t := by
  unfold execReacquire
  intro t ht
  obtain rfl := Host.Outcome.next.inj ht
  clear ht
  repeat' first
    | with_reducible assumption
    | with_reducible refine pageWrite_keeps (fun s _ => ?_) ?_
    | with_reducible refine tkuClr_keeps ?_

theorem tkuWritten_keeps {s0 : State} {s : State} {off : Nat} (h : Keeps s0 s) :
    Keeps s0 (tkuWritten s off) := by
  unfold tkuWritten
  dsimp only
  repeat' first
    | with_reducible assumption
    | with_reducible refine keyShow_keeps ?_
    | with_reducible refine keySet_keeps ?_
    | with_reducible refine ccShow_keeps ?_
    | with_reducible refine ccSet_keeps ?_
    | with_reducible refine Keeps.ite (fun _ => ?_) (fun _ => ?_)

end Sys2Proof.Machine
end

