-- ==== Sys2Proof/Laws/KeepsUnits.lean ====
section
/-! SUPPORT. Each operation of Machine/Units.lean keeps what `Keeps` says. -/

namespace Sys2Proof.Machine

theorem unitGone_keeps {s0 : State} {s : State} {p : Nat} (h : Keeps s0 s) :
    Keeps s0 (unitGone s p) := by
  unfold unitGone
  dsimp only
  repeat' first
    | with_reducible assumption
    | with_reducible refine tileGone_keeps ?_
    | with_reducible refine coreGone_keeps ?_
    | with_reducible refine Keeps.fset ?_
    | with_reducible refine markOut_keeps ?_
    | with_reducible refine chanLeave_keeps ?_
    | with_reducible refine refreshHolds_keeps ?_
    | with_reducible refine Keeps.freeBit ?_
    | with_reducible refine linkLeave_keeps ?_
    | with_reducible refine memLeave_keeps ?_
    | with_reducible refine islandGone_keeps ?_
    | with_reducible refine Keeps.modPage ?_
    | with_reducible refine Keeps.ite (fun _ => ?_) (fun _ => ?_)
    | with_reducible refine Keeps.each _ (fun _ _ _ => ?_) ?_
    | split

theorem execUnitFailed_keeps {s0 : State} {page : Nat} {detail : Word} {s : State} (h : Keeps s0 s) :
    ∀ t, (execUnitFailed page detail s) = .next t → Keeps s0 t := by
  unfold execUnitFailed
  intro t ht
  obtain rfl := Host.Outcome.next.inj ht
  clear ht
  repeat' first
    | with_reducible assumption
    | with_reducible refine unitGone_keeps ?_
    | with_reducible refine capture_keeps ?_
    | split

theorem unitLeave_keeps {s0 : State} {s : State} {p : Nat} (h : Keeps s0 s) :
    Keeps s0 (unitLeave s p) := by
  unfold unitLeave
  dsimp only
  repeat' first
    | with_reducible assumption
    | with_reducible refine lensCtrl_keeps ?_
    | with_reducible refine tileLeave_keeps ?_
    | with_reducible refine chanLeave_keeps ?_
    | with_reducible refine markOut_keeps ?_
    | with_reducible refine refreshHolds_keeps ?_
    | with_reducible refine linkLeave_keeps ?_
    | with_reducible refine memLeave_keeps ?_
    | with_reducible refine Keeps.ite (fun _ => ?_) (fun _ => ?_)
    | split

theorem returnRefused_keeps {s0 : State} {s : State} {p : Nat} {why : Nat} (h : Keeps s0 s) :
    Keeps s0 (returnRefused s p why) := by
  unfold returnRefused
  repeat' first
    | with_reducible assumption
    | with_reducible refine capture_keeps ?_
    | with_reducible refine Keeps.fset ?_
    | with_reducible refine Keeps.modPage ?_

theorem unitReturn_keeps {s0 : State} {s : State} {p : Nat} (h : Keeps s0 s) :
    Keeps s0 (unitReturn s p) := by
  unfold unitReturn
  repeat' first
    | with_reducible assumption
    | with_reducible refine lensCtrl_keeps ?_
    | with_reducible refine Keeps.fset ?_
    | with_reducible refine Keeps.modPage ?_
    | with_reducible refine returnRefused_keeps ?_
    | with_reducible refine Keeps.ite (fun _ => ?_) (fun _ => ?_)

theorem execSelfTestDone_keeps {s0 : State} {page : Nat} {pass : Bool} {s : State} (h : Keeps s0 s) :
    ∀ t, (execSelfTestDone page pass s) = .next t → Keeps s0 t := by
  unfold execSelfTestDone
  intro t ht
  obtain rfl := Host.Outcome.next.inj ht
  clear ht
  repeat' first
    | with_reducible assumption
    | with_reducible refine lensTested_keeps ?_
    | with_reducible refine returnRefused_keeps ?_
    | with_reducible refine linkReturn_keeps ?_
    | with_reducible refine markIn_keeps ?_
    | with_reducible refine Keeps.modPage ?_
    | with_reducible refine Keeps.ite (fun _ => ?_) (fun _ => ?_)

theorem chanEnable_keeps {s0 : State} {s : State} {c : Nat} {on : Bool} (h : Keeps s0 s) :
    Keeps s0 (chanEnable s c on) := by
  unfold chanEnable
  dsimp only
  repeat' first
    | with_reducible assumption
    | with_reducible refine Keeps.fset ?_
    | with_reducible refine chanSet_keeps ?_
    | with_reducible refine pageIrq_keeps ?_
    | with_reducible refine Keeps.ite (fun _ => ?_) (fun _ => ?_)

theorem pageEnable_keeps {s0 : State} {s : State} {p : Nat} {on : Bool} (h : Keeps s0 s) :
    Keeps s0 (pageEnable s p on) := by
  unfold pageEnable
  repeat' first
    | with_reducible assumption
    | with_reducible refine chanEnable_keeps ?_
    | with_reducible refine pwmEnable_keeps ?_
    | with_reducible refine linkEnable_keeps ?_
    | with_reducible refine Keeps.fset ?_
    | split

theorem softResetStart_keeps {s0 : State} {s : State} {p : Nat} (h : Keeps s0 s) :
    Keeps s0 (softResetStart s p) := by
  unfold softResetStart
  repeat' first
    | with_reducible assumption
    | with_reducible refine Keeps.modPage ?_
    | with_reducible refine Keeps.fset ?_
    | with_reducible refine Keeps.ite (fun _ => ?_) (fun _ => ?_)

theorem ctrlWrite_keeps {s0 : State} {s : State} {p : Nat} {data : Word} (h : Keeps s0 s) :
    Keeps s0 (ctrlWrite s p data) := by
  unfold ctrlWrite
  dsimp only
  repeat' first
    | with_reducible assumption
    | with_reducible refine softResetStart_keeps ?_
    | with_reducible refine pageEnable_keeps ?_
    | with_reducible refine Keeps.fset ?_
    | with_reducible refine unitReturn_keeps ?_
    | with_reducible refine unitLeave_keeps ?_
    | with_reducible refine Keeps.ite (fun _ => ?_) (fun _ => ?_)
    | split

theorem regsClear_keeps {s0 : State} {s : State} {p : Nat} {lo : Nat} {hi : Nat} (h : Keeps s0 s) :
    Keeps s0 (regsClear s p lo hi) := by
  unfold regsClear
  repeat' first
    | with_reducible assumption
    | fail_if_no_progress (with_reducible refine Keeps.regsFilter ?_)

theorem ptbSoftReset_keeps {s0 : State} {s : State} (h : Keeps s0 s) :
    Keeps s0 (ptbSoftReset s) := by
  unfold ptbSoftReset
  dsimp only
  repeat' first
    | with_reducible assumption
    | with_reducible refine timeSet_keeps ?_
    | with_reducible refine regsClear_keeps ?_
    | with_reducible refine Keeps.ite (fun _ => ?_) (fun _ => ?_)

theorem serveSoftReset_keeps {s0 : State} {s : State} (h : Keeps s0 s) :
    Keeps s0 (serveSoftReset s) := by
  unfold serveSoftReset
  dsimp only
  repeat' first
    | with_reducible assumption
    | with_reducible refine regsClear_keeps ?_
    | fail_if_no_progress (with_reducible refine Keeps.upd0 ?_ rfl rfl rfl)

theorem softResetEffect_keeps {s0 : State} {s : State} {p : Nat} (h : Keeps s0 s) :
    Keeps s0 (softResetEffect s p) := by
  unfold softResetEffect
  dsimp only
  repeat' first
    | with_reducible assumption
    | with_reducible refine errClear_keeps ?_
    | with_reducible refine Keeps.setReg ?_
    | with_reducible refine ptbSoftReset_keeps ?_
    | with_reducible refine tkuClr_keeps ?_
    | with_reducible refine memcClear_keeps ?_
    | with_reducible refine sramClear_keeps ?_
    | with_reducible refine regsClear_keeps ?_
    | with_reducible refine linkSoftReset_keeps ?_
    | with_reducible refine serveSoftReset_keeps ?_
    | with_reducible refine Keeps.tileAny ?_ (fun _ => rfl)
    | with_reducible refine Keeps.ite (fun _ => ?_) (fun _ => ?_)
    | fail_if_no_progress (with_reducible refine Keeps.upd0 ?_ rfl rfl rfl)
    | split

theorem execSoftResetDone_keeps {s0 : State} {page : Nat} {s : State} (h : Keeps s0 s) :
    ∀ t, (execSoftResetDone page s) = .next t → Keeps s0 t := by
  unfold execSoftResetDone
  dsimp only
  intro t ht
  obtain rfl := Host.Outcome.next.inj ht
  clear ht
  repeat' first
    | with_reducible assumption
    | with_reducible refine softResetEffect_keeps ?_
    | with_reducible refine Keeps.modPage ?_
    | with_reducible refine Keeps.fset ?_
    | with_reducible refine Keeps.ite (fun _ => ?_) (fun _ => ?_)

theorem execResetTimeout_keeps {s0 : State} {page : Nat} {s : State} (h : Keeps s0 s) :
    ∀ t, (execResetTimeout page s) = .next t → Keeps s0 t := by
  unfold execResetTimeout
  dsimp only
  intro t ht
  obtain rfl := Host.Outcome.next.inj ht
  clear ht
  repeat' first
    | with_reducible assumption
    | with_reducible refine unitGone_keeps ?_
    | with_reducible refine capture_keeps ?_
    | with_reducible refine Keeps.reach ?_
    | with_reducible refine Keeps.modPage ?_
    | with_reducible refine Keeps.fset ?_
    | with_reducible refine Keeps.ite (fun _ => ?_) (fun _ => ?_)
    | split

end Sys2Proof.Machine
end

