-- ==== Sys2Proof/Laws/KeepsPartition.lean ====
section
/-! SUPPORT. Each operation of Machine/Partition.lean keeps what `Keeps` says. -/

namespace Sys2Proof.Machine

theorem execPartSetShare_keeps {s0 : State} {job : Nat} {s : State} (h : Keeps s0 s) :
    ∀ t, (execPartSetShare job s) = .next t → Keeps s0 t := by
  unfold execPartSetShare
  dsimp only
  intro t ht
  obtain rfl := Host.Outcome.next.inj ht
  clear ht
  repeat' first
    | with_reducible assumption
    | with_reducible refine jobDone_keeps ?_
    | with_reducible refine Keeps.fset ?_
    | split

theorem mbxHold_keeps {s0 : State} {s : State} {n : Nat} {p : Nat} {c : Nat} {on : Bool} (h : Keeps s0 s) :
    Keeps s0 (mbxHold s n p c on) := by
  unfold mbxHold
  dsimp only
  repeat' first
    | with_reducible assumption
    | with_reducible refine Keeps.fset ?_

theorem partMemSet_keeps {s0 : State} {s : State} {n : Nat} {i : Nat} {b : Nat} {l : Nat} (h : Keeps s0 s) :
    Keeps s0 (partMemSet s n i b l) := by
  unfold partMemSet
  dsimp only
  repeat' first
    | with_reducible assumption
    | with_reducible refine Keeps.setReg ?_
    | with_reducible refine Keeps.setReg64 ?_

theorem execPartGrant_keeps {s0 : State} {job : Nat} {s : State} (h : Keeps s0 s) :
    ∀ t, (execPartGrant job s) = .next t → Keeps s0 t := by
  unfold execPartGrant
  dsimp only
  intro t ht
  obtain rfl := Host.Outcome.next.inj ht
  clear ht
  repeat' first
    | with_reducible assumption
    | with_reducible refine jobDone_keeps ?_
    | with_reducible refine partMemSet_keeps ?_
    | with_reducible refine mbxHold_keeps ?_
    | with_reducible refine Keeps.fset ?_
    | with_reducible refine Keeps.ite (fun _ => ?_) (fun _ => ?_)
    | split

theorem revokeRecvs_keeps {s0 : State} {s : State} {p : Nat} {c : Nat} (h : Keeps s0 s) :
    Keeps s0 (revokeRecvs s p c) := by
  unfold revokeRecvs
  dsimp only
  repeat' first
    | with_reducible assumption
    | with_reducible refine jobDone_keeps ?_
    | with_reducible refine sessMod_keeps ?_
    | with_reducible refine Keeps.each _ (fun _ _ _ => ?_) ?_

theorem zeroRegion_keeps {s0 : State} {s : State} {b : Nat} {l : Nat} (h : Keeps s0 s) :
    Keeps s0 (zeroRegion s b l) := by
  unfold zeroRegion
  dsimp only
  repeat' first
    | with_reducible assumption
    | with_reducible refine Keeps.memAny ?_ (fun w => Mem.filter_wf _ _ (Keeps.dram_wf (Keeps.wf (s := s0) ?_ w)))

theorem revokeDone_keeps {s0 : State} {s : State} {x : Job} (h : Keeps s0 s) :
    Keeps s0 (revokeDone s x) := by
  unfold revokeDone
  extract_lets n
  refine Keeps.ite (fun _ => ?_) fun _ => Keeps.ite (fun _ => ?_) fun _ => Keeps.fset h
  · split
    rename_i b l e
    extract_lets z
    have hz : Keeps s0 z := zeroRegion_keeps h
    clear_value z
    split
    · exact partMemSet_keeps hz
    · exact hz
  · split
    exact mbxHold_keeps (mbxHold_keeps (deviceAbort_keeps h))

theorem execPartRevoke_keeps {s0 : State} {job : Nat} {s : State} (h : Keeps s0 s) :
    ∀ t, (execPartRevoke job s) = .next t → Keeps s0 t := by
  unfold execPartRevoke
  dsimp only
  intro t ht
  obtain rfl := Host.Outcome.next.inj ht
  clear ht
  repeat' first
    | with_reducible assumption
    | with_reducible refine jobDone_keeps ?_
    | with_reducible refine revokeRecvs_keeps ?_
    | with_reducible refine revokeDone_keeps ?_
    | with_reducible refine Keeps.ite (fun _ => ?_) (fun _ => ?_)
    | split

theorem partClr_keeps {s0 : State} {s : State} {p : Nat} {data : Word} (h : Keeps s0 s) :
    Keeps s0 (partClr s p data) := by
  unfold partClr
  dsimp only
  repeat' first
    | with_reducible assumption
    | with_reducible refine Keeps.setReg ?_
    | with_reducible refine regsClear_keeps ?_
    | with_reducible refine Keeps.ite (fun _ => ?_) (fun _ => ?_)

theorem execPartClrForeign_keeps {s0 : State} {part : Nat} {page : Nat} {s : State} (h : Keeps s0 s) :
    ∀ t, (execPartClrForeign part page s) = .next t → Keeps s0 t := by
  unfold execPartClrForeign
  intro t ht
  obtain rfl := Host.Outcome.next.inj ht
  clear ht
  repeat' first
    | with_reducible assumption
    | with_reducible refine pageWrite_keeps (fun s _ => ?_) ?_
    | with_reducible refine partClr_keeps ?_
    | with_reducible refine Keeps.ite (fun _ => ?_) (fun _ => ?_)

theorem execPartClrLog_keeps {s0 : State} {part : Nat} {page : Nat} {s : State} (h : Keeps s0 s) :
    ∀ t, (execPartClrLog part page s) = .next t → Keeps s0 t := by
  unfold execPartClrLog
  intro t ht
  obtain rfl := Host.Outcome.next.inj ht
  clear ht
  repeat' first
    | with_reducible assumption
    | with_reducible refine pageWrite_keeps (fun s _ => ?_) ?_
    | with_reducible refine partClr_keeps ?_
    | with_reducible refine Keeps.ite (fun _ => ?_) (fun _ => ?_)

theorem resetSet_keeps {s0 : State} {s : State} {n : Nat} {r : PartReset} (h : Keeps s0 s) :
    Keeps s0 (resetSet s n r) := by
  unfold resetSet
  dsimp only
  repeat' first
    | with_reducible assumption
    | fail_if_no_progress (with_reducible refine Keeps.upd0 ?_ rfl rfl rfl)

theorem dropHeld_keeps {s0 : State} {s : State} {n : Nat} (h : Keeps s0 s) :
    Keeps s0 (dropHeld s n) := by
  unfold dropHeld
  exact Keeps.upd0 (Keeps.each _ (fun _ _ h => jobFree_keeps h) h) rfl rfl rfl

theorem resetJob_keeps {s0 : State} {s : State} {j : Nat} (h : Keeps s0 s) :
    Keeps s0 (resetJob s j) := by
  unfold resetJob
  dsimp only
  repeat' first
    | with_reducible assumption
    | with_reducible refine jobDone_keeps ?_
    | with_reducible refine jobSet_keeps ?_
    | with_reducible refine Keeps.ite (fun _ => ?_) (fun _ => ?_)
    | split

theorem disownResets_keeps {s0 : State} {s : State} {n : Nat} (h : Keeps s0 s) :
    Keeps s0 (disownResets s n) := by
  unfold disownResets
  dsimp only
  repeat' first
    | with_reducible assumption
    | fail_if_no_progress (with_reducible refine Keeps.upd0 ?_ rfl rfl rfl)

theorem partResetStart_keeps {s0 : State} {s : State} {n : Nat} {flr : Bool} {owner : Option Nat} (h : Keeps s0 s) :
    Keeps s0 (partResetStart s n flr owner) := by
  unfold partResetStart
  dsimp only
  repeat' first
    | with_reducible assumption
    | with_reducible refine resetSet_keeps ?_
    | with_reducible refine dropHeld_keeps ?_
    | with_reducible refine Keeps.fset ?_
    | with_reducible refine disownResets_keeps ?_
    | with_reducible refine endChain_keeps ?_
    | with_reducible refine qpSet_keeps ?_
    | with_reducible refine deviceAbort_keeps ?_
    | with_reducible refine resetJob_keeps ?_
    | with_reducible refine Keeps.ite (fun _ => ?_) (fun _ => ?_)
    | with_reducible refine Keeps.each _ (fun _ _ _ => ?_) ?_
    | split

theorem execPartReset_keeps {s0 : State} {job : Nat} {s : State} (h : Keeps s0 s) :
    ∀ t, (execPartReset job s) = .next t → Keeps s0 t := by
  unfold execPartReset
  dsimp only
  intro t ht
  obtain rfl := Host.Outcome.next.inj ht
  clear ht
  repeat' first
    | with_reducible assumption
    | with_reducible refine jobDone_keeps ?_
    | with_reducible refine partResetStart_keeps ?_
    | with_reducible refine jobSet_keeps ?_
    | with_reducible refine Keeps.ite (fun _ => ?_) (fun _ => ?_)
    | split

theorem rstPartWrite_keeps {s0 : State} {s : State} {part : Nat} {data : Word} (h : Keeps s0 s) :
    Keeps s0 (rstPartWrite s part data) := by
  unfold rstPartWrite
  dsimp only
  repeat' first
    | with_reducible assumption
    | with_reducible refine partResetStart_keeps ?_
    | with_reducible refine Keeps.ite (fun _ => ?_) (fun _ => ?_)

theorem execRstPart_keeps {s0 : State} {part : Nat} {data : Word} {s : State} (h : Keeps s0 s) :
    ∀ t, (execRstPart part data s) = .next t → Keeps s0 t := by
  unfold execRstPart
  intro t ht
  obtain rfl := Host.Outcome.next.inj ht
  clear ht
  repeat' first
    | with_reducible assumption
    | with_reducible refine pageWrite_keeps (fun s _ => ?_) ?_
    | with_reducible refine rstPartWrite_keeps ?_

theorem flrStart_keeps {s0 s : State} {fn : Nat} (h : Keeps s0 s) : Keeps s0 (flrStart s fn) :=
  Keeps.upd0 (partResetStart_keeps h) rfl rfl rfl

theorem execFlr_keeps {s0 : State} {fn : Nat} {s : State} (h : Keeps s0 s) :
    ∀ t, (execFlr fn s) = .next t → Keeps s0 t := by
  unfold execFlr
  intro t ht
  obtain rfl := Host.Outcome.next.inj ht
  clear ht
  repeat' first
    | with_reducible assumption
    | with_reducible refine flrStart_keeps ?_
    | with_reducible refine Keeps.ite (fun _ => ?_) (fun _ => ?_)

theorem resetQps_keeps {s0 : State} {s : State} {n : Nat} (h : Keeps s0 s) :
    Keeps s0 (resetQps s n) := by
  unfold resetQps
  dsimp only
  repeat' first
    | with_reducible assumption
    | with_reducible refine qpRelease_keeps ?_
    | with_reducible refine qpSet_keeps ?_
    | with_reducible refine qpPut_keeps ?_
    | with_reducible refine Keeps.each _ (fun _ _ _ => ?_) ?_

theorem resetDoneEntry_keeps {s0 : State} {s : State} {n : Nat} {result : Nat} (h : Keeps s0 s) :
    Keeps s0 (resetDoneEntry s n result) := by
  unfold resetDoneEntry
  repeat' first
    | with_reducible assumption
    | with_reducible refine cqWrite_keeps ?_
    | with_reducible refine Keeps.ite (fun _ => ?_) (fun _ => ?_)

theorem partResetFinish_keeps {s0 : State} {s : State} {n : Nat} {r : PartReset} (h : Keeps s0 s) :
    Keeps s0 (partResetFinish s n r) := by
  unfold partResetFinish
  dsimp only
  repeat' first
    | with_reducible assumption
    | with_reducible refine dropHeld_keeps ?_
    | with_reducible refine jobFree_keeps ?_
    | with_reducible refine resetDoneEntry_keeps ?_
    | with_reducible refine resetQps_keeps ?_
    | with_reducible refine Keeps.fset ?_
    | with_reducible refine Keeps.fincSat ?_
    | with_reducible refine pageIrq_keeps ?_
    | with_reducible refine jobDone_keeps ?_
    | with_reducible refine Keeps.ite (fun _ => ?_) (fun _ => ?_)
    | with_reducible refine Keeps.each _ (fun _ _ _ => ?_) ?_
    | fail_if_no_progress (with_reducible refine Keeps.upd0 ?_ rfl rfl rfl)
    | split

theorem execPartitionResetEnd_keeps {s0 : State} {part : Nat} {s : State} (h : Keeps s0 s) :
    ∀ t, (execPartitionResetEnd part s) = .next t → Keeps s0 t := by
  unfold execPartitionResetEnd
  intro t ht
  obtain rfl := Host.Outcome.next.inj ht
  clear ht
  repeat' first
    | with_reducible assumption
    | with_reducible refine partResetFinish_keeps ?_
    | with_reducible refine Keeps.ite (fun _ => ?_) (fun _ => ?_)
    | split

theorem dropJob_keeps {s0 : State} {s : State} {j : Nat} (h : Keeps s0 s) :
    Keeps s0 (dropJob s j) := by
  unfold dropJob
  dsimp only
  repeat' first
    | with_reducible assumption
    | with_reducible refine mslotMove_keeps ?_
    | with_reducible refine maskEmpty_keeps ?_
    | with_reducible refine unstage_keeps ?_
    | with_reducible refine slotSet_keeps ?_
    | with_reducible refine mslotSet_keeps ?_
    | with_reducible refine portMod_keeps ?_
    | with_reducible refine jobDone_keeps ?_
    | with_reducible refine Keeps.ite (fun _ => ?_) (fun _ => ?_)
    | with_reducible refine Keeps.each _ (fun _ _ _ => ?_) ?_
    | split

theorem execPartResetTimeout_keeps {s0 : State} {part : Nat} {s : State} (h : Keeps s0 s) :
    ∀ t, (execPartResetTimeout part s) = .next t → Keeps s0 t := by
  unfold execPartResetTimeout
  dsimp only
  intro t ht
  obtain rfl := Host.Outcome.next.inj ht
  clear ht
  repeat' first
    | with_reducible assumption
    | with_reducible refine Keeps.reach ?_
    | with_reducible refine unitGone_keeps ?_
    | with_reducible refine capture_keeps ?_
    | with_reducible refine cancelRelease_keeps ?_
    | with_reducible refine dropJob_keeps ?_
    | with_reducible refine Keeps.ite (fun _ => ?_) (fun _ => ?_)
    | with_reducible refine Keeps.each _ (fun _ _ _ => ?_) ?_
    | split

end Sys2Proof.Machine
end

