-- ==== Sys2Proof/Laws/KeepsPages.lean ====
section
/-! SUPPORT. Each operation of Machine/Pages.lean keeps what `Keeps` says. -/

namespace Sys2Proof.Machine

theorem regRead_keeps {s0 : State} {s : State} {part : Nat} {p : Nat} {off : Nat} (h : Keeps s0 s) :
    Keeps s0 (regRead s part p off).2 := by
  unfold regRead
  dsimp only
  repeat' first
    | with_reducible assumption
    | with_reducible refine ptbNowRead_keeps ?_
    | with_reducible refine ptbBpnRead_keeps ?_
    | with_reducible refine tkuEvtRead_keeps ?_
    | with_reducible refine diagRead_keeps ?_
    | with_reducible refine Keeps.fset ?_
    | with_reducible refine Keeps.free ?_
    | split

theorem plainWrite_keeps {s0 : State} {s : State} {p : Nat} {off : Nat} {data : Word} (h : Keeps s0 s) :
    Keeps s0 (plainWrite s p off data) := by
  unfold plainWrite
  repeat' first
    | with_reducible assumption
    | with_reducible refine Keeps.setReg ?_
    | split

theorem strictWrite_keeps {s0 : State} {s : State} {p : Nat} {off : Nat} {data : Word} (h : Keeps s0 s) :
    Keeps s0 (strictWrite s p off data) := by
  unfold strictWrite
  repeat' first
    | with_reducible assumption
    | with_reducible refine plainWrite_keeps ?_
    | with_reducible refine Keeps.ite (fun _ => ?_) (fun _ => ?_)
    | split

theorem rstChipWrite_keeps {s0 : State} {s : State} {part : Nat} {data : Word} (h : Keeps s0 s) :
    Keeps s0 (rstChipWrite s part data) := by
  unfold rstChipWrite
  repeat' first
    | with_reducible assumption
    | with_reducible refine chipReset_keeps ?_
    | with_reducible refine Keeps.ite (fun _ => ?_) (fun _ => ?_)

theorem syncCtrlWrite_keeps {s0 : State} {s : State} {data : Word} (h : Keeps s0 s) :
    Keeps s0 (syncCtrlWrite s data) := by
  unfold syncCtrlWrite
  dsimp only
  repeat' first
    | with_reducible assumption
    | with_reducible refine plainWrite_keeps ?_
    | with_reducible refine timeSet_keeps ?_
    | with_reducible refine Keeps.ite (fun _ => ?_) (fun _ => ?_)

theorem pjobWrite_keeps {s0 : State} {s : State} {n : Nat} {data : Word} (h : Keeps s0 s) :
    Keeps s0 (pjobWrite s n data) := by
  unfold pjobWrite
  dsimp only
  repeat' first
    | with_reducible assumption
    | with_reducible refine Keeps.setReg ?_
    | with_reducible refine Keeps.ite (fun _ => ?_) (fun _ => ?_)

theorem qpRegWrite_keeps {s0 : State} {s : State} {part : Nat} {p : Nat} {off : Nat} {data : Word} (h : Keeps s0 s) :
    Keeps s0 (qpRegWrite s part p off data) := by
  unfold qpRegWrite
  dsimp only
  repeat' first
    | with_reducible assumption
    | with_reducible refine foreign_keeps ?_
    | with_reducible refine qpCtrlWrite_keeps ?_
    | with_reducible refine plainWrite_keeps ?_
    | with_reducible refine Keeps.ite (fun _ => ?_) (fun _ => ?_)
    | split

theorem chWrite_keeps {s0 : State} {s : State} {p : Nat} {off : Nat} {data : Word} (h : Keeps s0 s) :
    Keeps s0 (chWrite s p off data) := by
  unfold chWrite
  dsimp only
  repeat' first
    | with_reducible assumption
    | with_reducible refine plainWrite_keeps ?_
    | with_reducible refine Keeps.setReg ?_
    | with_reducible refine Keeps.fset ?_
    | with_reducible refine Keeps.ite (fun _ => ?_) (fun _ => ?_)

theorem wdtCfgWrite_keeps {s0 : State} {s : State} {data : Word} (h : Keeps s0 s) :
    Keeps s0 (wdtCfgWrite s data) := by
  unfold wdtCfgWrite
  dsimp only
  repeat' first
    | with_reducible assumption
    | with_reducible refine plainWrite_keeps ?_
    | with_reducible refine Keeps.fset ?_
    | with_reducible refine wdtEnable_keeps ?_
    | with_reducible refine Keeps.ite (fun _ => ?_) (fun _ => ?_)

theorem pairTsWrite_keeps {s0 : State} {s : State} {data : Word} (h : Keeps s0 s) :
    Keeps s0 (pairTsWrite s data) := by
  unfold pairTsWrite
  dsimp only
  repeat' first
    | with_reducible assumption
    | with_reducible refine pairTsChanged_keeps ?_
    | with_reducible refine Keeps.setReg ?_
    | with_reducible refine Keeps.ite (fun _ => ?_) (fun _ => ?_)

theorem loupeWrite_keeps {s0 : State} {s : State} {part : Nat} {off : Nat} {data : Word} (h : Keeps s0 s) :
    Keeps s0 (loupeWrite s part off data) := by
  unfold loupeWrite
  repeat' first
    | with_reducible assumption
    | with_reducible refine loupeClear_keeps ?_
    | with_reducible refine loupeReq_keeps ?_
    | with_reducible refine loupeCauseClr_keeps ?_
    | with_reducible refine wdtFeed_keeps ?_
    | with_reducible refine wdtCfgWrite_keeps ?_
    | with_reducible refine pairTsWrite_keeps ?_
    | with_reducible refine refreshHolds_keeps ?_
    | with_reducible refine plainWrite_keeps ?_
    | split

theorem freeCodes_keeps {s0 : State} {s : State} (h : Keeps s0 s) :
    Keeps s0 (freeCodes s).2 := by
  unfold freeCodes
  dsimp only
  repeat' first
    | with_reducible assumption
    | fail_if_no_progress (with_reducible refine Keeps.updCtr ?_ rfl rfl rfl (Nat.le_add_right _ _))

theorem pmuWrite_keeps {s0 : State} {s : State} {part : Nat} {off : Nat} {data : Word} (h : Keeps s0 s) :
    Keeps s0 (pmuWrite s part off data) := by
  unfold pmuWrite
  dsimp only
  repeat' first
    | with_reducible assumption
    | with_reducible refine strictWrite_keeps ?_
    | with_reducible refine speedCapWritten_keeps ?_
    | with_reducible refine freeCodes_keeps ?_
    | with_reducible refine ps4Write_keeps ?_
    | with_reducible refine plainWrite_keeps ?_
    | with_reducible refine Keeps.ite (fun _ => ?_) (fun _ => ?_)

theorem blockWrite_keeps {s0 : State} {s : State} {part : Nat} {p : Nat} {off : Nat} {data : Word} (h : Keeps s0 s) :
    Keeps s0 (blockWrite s part p off data) := by
  unfold blockWrite
  dsimp only
  repeat' first
    | with_reducible assumption
    | with_reducible refine plainWrite_keeps ?_
    | with_reducible refine rstChipWrite_keeps ?_
    | with_reducible refine rstPartWrite_keeps ?_
    | with_reducible refine syncCtrlWrite_keeps ?_
    | with_reducible refine pjobWrite_keeps ?_
    | with_reducible refine qpRegWrite_keeps ?_
    | with_reducible refine partClr_keeps ?_
    | with_reducible refine diagWrite_keeps ?_
    | with_reducible refine solvCtrlTake_keeps ?_
    | with_reducible refine pinCfgTake_keeps ?_
    | with_reducible refine chWrite_keeps ?_
    | with_reducible refine pwmCmpWrite_keeps ?_
    | with_reducible refine tripClear_keeps ?_
    | with_reducible refine tripForce_keeps ?_
    | with_reducible refine refreshHolds_keeps ?_
    | with_reducible refine loupeWrite_keeps ?_
    | with_reducible refine linkCtrlWrite_keeps ?_
    | with_reducible refine limbKeyStat_keeps ?_
    | with_reducible refine memRegWrite_keeps ?_
    | with_reducible refine pmuWrite_keeps ?_
    | with_reducible refine tkuClr_keeps ?_
    | with_reducible refine tkuWritten_keeps ?_
    | with_reducible refine strictWrite_keeps ?_
    | with_reducible refine serveRegWrite_keeps ?_
    | with_reducible refine Keeps.ite (fun _ => ?_) (fun _ => ?_)
    | with_reducible refine Keeps.getD ?_ ?_
    | fail_if_no_progress (with_reducible refine Keeps.upd0 ?_ rfl rfl rfl)
    | split

theorem readersWrite_keeps {s0 : State} {s : State} {part : Nat} {p : Nat} {c : PageClass} {data : Word} (h : Keeps s0 s) :
    Keeps s0 (readersWrite s part p c data) := by
  unfold readersWrite
  repeat' first
    | with_reducible assumption
    | with_reducible refine plainWrite_keeps ?_
    | with_reducible refine Keeps.ite (fun _ => ?_) (fun _ => ?_)

theorem irqForce_keeps {s0 : State} {s : State} {p : Nat} {bits : Word} (h : Keeps s0 s) :
    Keeps s0 (irqForce s p bits) := by
  unfold irqForce
  repeat' first
    | with_reducible assumption
    | with_reducible refine pageIrq_keeps ?_
    | split

theorem headerWrite_keeps {s0 : State} {s : State} {part : Nat} {p : Nat} {c : PageClass} {off : Nat} {data : Word} (h : Keeps s0 s) :
    Keeps s0 (headerWrite s part p c off data) := by
  unfold headerWrite
  repeat' first
    | with_reducible assumption
    | with_reducible refine ctrlWrite_keeps ?_
    | with_reducible refine irqRewrite_keeps ?_
    | with_reducible refine irqForce_keeps ?_
    | with_reducible refine readersWrite_keeps ?_
    | with_reducible refine errClear_keeps ?_
    | with_reducible refine Keeps.fset ?_
    | with_reducible refine Keeps.setReg ?_
    | with_reducible refine Keeps.ite (fun _ => ?_) (fun _ => ?_)
    | split

theorem writeNow_keeps {s0 : State} {s : State} {part : Nat} {p : Nat} {off : Nat} {data : Word} (h : Keeps s0 s) :
    Keeps s0 (writeNow s part p off data) := by
  unfold writeNow
  dsimp only
  repeat' first
    | with_reducible assumption
    | with_reducible refine headerWrite_keeps ?_
    | with_reducible refine blockWrite_keeps ?_
    | with_reducible refine Keeps.ite (fun _ => ?_) (fun _ => ?_)
    | split

theorem takeHeld_keeps {s0 : State} {s : State} {p : Nat} (h : Keeps s0 s) :
    Keeps s0 (takeHeld s p).2 := by
  unfold takeHeld
  dsimp only
  repeat' first
    | with_reducible assumption
    | with_reducible refine Keeps.modPage ?_

theorem applyHeld_keeps {s0 : State} {s : State} {p : Nat} {ws : List (Nat × Word)} (h : Keeps s0 s) :
    Keeps s0 (applyHeld s p ws) := by
  unfold applyHeld
  repeat' first
    | with_reducible assumption
    | with_reducible refine writeNow_keeps ?_
    | with_reducible refine Keeps.each _ (fun _ _ _ => ?_) ?_

theorem flushHeld_keeps {s0 : State} {s : State} {p : Nat} (h : Keeps s0 s) :
    Keeps s0 (flushHeld s p) := by
  unfold flushHeld
  dsimp only
  repeat' first
    | with_reducible assumption
    | with_reducible refine takeHeld_keeps ?_
    | with_reducible refine applyHeld_keeps ?_

theorem regWrite_keeps {s0 : State} {s : State} {part : Nat} {p : Nat} {off : Nat} {data : Word} (h : Keeps s0 s) :
    Keeps s0 (regWrite s part p off data) := by
  unfold regWrite
  dsimp only
  repeat' first
    | with_reducible assumption
    | with_reducible refine foreign_keeps ?_
    | with_reducible refine holdWrite_keeps ?_
    | with_reducible refine Keeps.fset ?_
    | with_reducible refine writeNow_keeps ?_
    | with_reducible refine flushHeld_keeps ?_
    | with_reducible refine Keeps.ite (fun _ => ?_) (fun _ => ?_)
    | split

theorem execRegisterWrite_keeps {s0 : State} {part : Nat} {page : Nat} {off : Nat} {be : BitVec 4} {data : Word} {s : State} (h : Keeps s0 s) :
    ∀ t, (execRegisterWrite part page off be data s) = .next t → Keeps s0 t := by
  unfold execRegisterWrite
  intro t ht
  obtain rfl := Host.Outcome.next.inj ht
  clear ht
  repeat' first
    | with_reducible assumption
    | with_reducible refine hostReady_keeps (fun s _ => ?_) ?_
    | with_reducible refine regWrite_keeps ?_
    | with_reducible refine Keeps.ite (fun _ => ?_) (fun _ => ?_)

theorem ctrlBit_keeps {s0 : State} {s : State} {part : Nat} {p : Nat} {bit : Nat} {v : Nat} (h : Keeps s0 s) :
    Keeps s0 (ctrlBit s part p bit v) := by
  unfold ctrlBit
  repeat' first
    | with_reducible assumption
    | with_reducible refine hostReady_keeps (fun s _ => ?_) ?_
    | with_reducible refine regWrite_keeps ?_

theorem execPgCtrlEnable_keeps {s0 : State} {part : Nat} {page : Nat} {on : Bool} {s : State} (h : Keeps s0 s) :
    ∀ t, (execPgCtrlEnable part page on s) = .next t → Keeps s0 t := by
  unfold execPgCtrlEnable
  intro t ht
  obtain rfl := Host.Outcome.next.inj ht
  clear ht
  repeat' first
    | with_reducible assumption
    | with_reducible refine ctrlBit_keeps ?_

theorem execPgCtrlQuiesce_keeps {s0 : State} {part : Nat} {page : Nat} {on : Bool} {s : State} (h : Keeps s0 s) :
    ∀ t, (execPgCtrlQuiesce part page on s) = .next t → Keeps s0 t := by
  unfold execPgCtrlQuiesce
  intro t ht
  obtain rfl := Host.Outcome.next.inj ht
  clear ht
  repeat' first
    | with_reducible assumption
    | with_reducible refine ctrlBit_keeps ?_

theorem execInServiceClear_keeps {s0 : State} {part : Nat} {page : Nat} {s : State} (h : Keeps s0 s) :
    ∀ t, (execInServiceClear part page s) = .next t → Keeps s0 t := by
  unfold execInServiceClear
  intro t ht
  obtain rfl := Host.Outcome.next.inj ht
  clear ht
  repeat' first
    | with_reducible assumption
    | with_reducible refine ctrlBit_keeps ?_

theorem execInServiceSet_keeps {s0 : State} {part : Nat} {page : Nat} {s : State} (h : Keeps s0 s) :
    ∀ t, (execInServiceSet part page s) = .next t → Keeps s0 t := by
  unfold execInServiceSet
  intro t ht
  obtain rfl := Host.Outcome.next.inj ht
  clear ht
  repeat' first
    | with_reducible assumption
    | with_reducible refine ctrlBit_keeps ?_

theorem execSoftReset_keeps {s0 : State} {part : Nat} {page : Nat} {s : State} (h : Keeps s0 s) :
    ∀ t, (execSoftReset part page s) = .next t → Keeps s0 t := by
  unfold execSoftReset
  intro t ht
  obtain rfl := Host.Outcome.next.inj ht
  clear ht
  repeat' first
    | with_reducible assumption
    | with_reducible refine ctrlBit_keeps ?_

theorem execPgIrqForce_keeps {s0 : State} {part : Nat} {page : Nat} {bits : Word} {s : State} (h : Keeps s0 s) :
    ∀ t, (execPgIrqForce part page bits s) = .next t → Keeps s0 t := by
  unfold execPgIrqForce
  intro t ht
  obtain rfl := Host.Outcome.next.inj ht
  clear ht
  repeat' first
    | with_reducible assumption
    | with_reducible refine hostReady_keeps (fun s _ => ?_) ?_
    | with_reducible refine regWrite_keeps ?_

theorem execPgErrClr_keeps {s0 : State} {part : Nat} {page : Nat} {data : Word} {s : State} (h : Keeps s0 s) :
    ∀ t, (execPgErrClr part page data s) = .next t → Keeps s0 t := by
  unfold execPgErrClr
  intro t ht
  obtain rfl := Host.Outcome.next.inj ht
  clear ht
  repeat' first
    | with_reducible assumption
    | with_reducible refine hostReady_keeps (fun s _ => ?_) ?_
    | with_reducible refine regWrite_keeps ?_

theorem execPgLock_keeps {s0 : State} {part : Nat} {page : Nat} {data : Word} {s : State} (h : Keeps s0 s) :
    ∀ t, (execPgLock part page data s) = .next t → Keeps s0 t := by
  unfold execPgLock
  intro t ht
  obtain rfl := Host.Outcome.next.inj ht
  clear ht
  repeat' first
    | with_reducible assumption
    | with_reducible refine hostReady_keeps (fun s _ => ?_) ?_
    | with_reducible refine regWrite_keeps ?_

theorem execForeignRead_keeps {s0 : State} {part : Nat} {what : ForeignRead} {s : State} (h : Keeps s0 s) :
    ∀ t, (execForeignRead part what s) = .next t → Keeps s0 t := by
  unfold execForeignRead
  intro t ht
  obtain rfl := Host.Outcome.next.inj ht
  clear ht
  repeat' first
    | with_reducible assumption
    | with_reducible refine hostReady_keeps (fun s _ => ?_) ?_
    | with_reducible refine Keeps.hostNote ?_
    | with_reducible refine foreign_keeps ?_
    | split

theorem execIslandNoAnswer_keeps {s0 : State} {part : Nat} {page : Nat} {read : Bool} {s : State} (h : Keeps s0 s) :
    ∀ t, (execIslandNoAnswer part page read s) = .next t → Keeps s0 t := by
  unfold execIslandNoAnswer
  dsimp only
  intro t ht
  obtain rfl := Host.Outcome.next.inj ht
  clear ht
  repeat' first
    | with_reducible assumption
    | with_reducible refine hostReady_keeps (fun s _ => ?_) ?_
    | with_reducible refine capture_keeps ?_
    | with_reducible refine Keeps.hostNote ?_
    | with_reducible refine Keeps.ite (fun _ => ?_) (fun _ => ?_)

end Sys2Proof.Machine
end

