-- ==== Sys2Proof/Laws/KeepsBoot.lean ====
section
/-! SUPPORT. Each operation of Machine/Boot.lean keeps what `Keeps` says. -/

namespace Sys2Proof.Machine

theorem setStage_keeps {s0 : State} {s : State} {n : Nat} (h : Keeps s0 s) :
    Keeps s0 (setStage s n) := by
  unfold setStage
  repeat' first
    | with_reducible assumption
    | with_reducible refine Keeps.fset ?_

theorem bootFrom_keeps {s0 : State} {s : State} {stage : Nat} {k : State → State} (hk1 : ∀ s, Keeps s0 s → Keeps s0 (k s)) (h : Keeps s0 s) :
    Keeps s0 (bootFrom s stage k) := by
  unfold bootFrom
  repeat' first
    | with_reducible assumption
    | with_reducible refine hk1 _ ?_
    | with_reducible refine Keeps.ite (fun _ => ?_) (fun _ => ?_)

theorem execPwrEnRaise_keeps {s0 : State} {s : State} (h : Keeps s0 s) :
    ∀ t, (execPwrEnRaise s) = .next t → Keeps s0 t := by
  unfold execPwrEnRaise
  dsimp only
  intro t ht
  obtain rfl := Host.Outcome.next.inj ht
  clear ht
  repeat' first
    | with_reducible assumption
    | with_reducible refine Keeps.ite (fun _ => ?_) (fun _ => ?_)
    | fail_if_no_progress (with_reducible refine Keeps.upd0 ?_ rfl rfl rfl)

theorem execCorePgRise_keeps {s0 : State} {s : State} (h : Keeps s0 s) :
    ∀ t, (execCorePgRise s) = .next t → Keeps s0 t := by
  unfold execCorePgRise
  dsimp only
  intro t ht
  obtain rfl := Host.Outcome.next.inj ht
  clear ht
  repeat' first
    | with_reducible assumption
    | with_reducible refine Keeps.ite (fun _ => ?_) (fun _ => ?_)
    | fail_if_no_progress (with_reducible refine Keeps.upd0 ?_ rfl rfl rfl)

theorem execPlanRefLock_keeps {s0 : State} {s : State} (h : Keeps s0 s) :
    ∀ t, (execPlanRefLock s) = .next t → Keeps s0 t := by
  intro t ht
  obtain rfl := Host.Outcome.next.inj ht
  refine Keeps.ite (fun _ => setStage_keeps (Keeps.each _ (fun _ _ hs => pairAfterReset_keeps hs) ?_)) fun _ => h
  exact Keeps.upd0 (Keeps.regsFilter (p := fun k => keptPage (k.1 / 4096)) h) rfl rfl rfl

theorem flashCut_keeps {s0 : State} {s : State} (h : Keeps s0 s) :
    Keeps s0 (flashCut s) := by
  unfold flashCut
  dsimp only
  repeat' first
    | with_reducible assumption
    | with_reducible refine flashPut_keeps ?_
    | fail_if_no_progress (with_reducible refine Keeps.updCtr ?_ rfl rfl rfl (Nat.le_add_right _ _))
    | split

theorem coreLost_keeps {s0 : State} {s : State} (h : Keeps s0 s) :
    Keeps s0 (coreLost s) := by
  unfold coreLost
  dsimp only
  repeat' first
    | with_reducible assumption
    | with_reducible refine wdtWait_keeps ?_
    | with_reducible refine wholeStop_keeps ?_
    | with_reducible refine coreReset_keeps ?_
    | with_reducible refine flashCut_keeps ?_
    | with_reducible refine Keeps.fset ?_
    | with_reducible refine Keeps.setReg ?_
    | fail_if_no_progress (with_reducible refine Keeps.upd0 ?_ rfl rfl rfl)

theorem execCorePgFall_keeps {s0 : State} {s : State} (h : Keeps s0 s) :
    ∀ t, (execCorePgFall s) = .next t → Keeps s0 t := by
  unfold execCorePgFall
  intro t ht
  obtain rfl := Host.Outcome.next.inj ht
  clear ht
  repeat' first
    | with_reducible assumption
    | with_reducible refine coreLost_keeps ?_
    | with_reducible refine Keeps.ite (fun _ => ?_) (fun _ => ?_)

theorem execFill_keeps {s0 : State} {s : State} (h : Keeps s0 s) :
    ∀ t, (execFill s) = .next t → Keeps s0 t := by
  intro t ht
  obtain rfl := Host.Outcome.next.inj ht
  refine bootFrom_keeps (fun s hs => Keeps.ite (fun _ => hs) fun _ => setStage_keeps ?_) h
  exact Keeps.upd hs rfl rfl rfl (List.suffix_refl _) id (fun _ => rfl) (le_refl _)

theorem portStart_keeps {s0 : State} {s : State} {p : Nat} (h : Keeps s0 s) :
    Keeps s0 (portStart s p) := by
  unfold portStart
  dsimp only
  repeat' first
    | with_reducible assumption
    | with_reducible refine haltsAfterReset_keeps ?_
    | with_reducible refine toDetect_keeps ?_
    | with_reducible refine Keeps.ite (fun _ => ?_) (fun _ => ?_)

theorem execDiscover_keeps {s0 : State} {sfdp : Option (Nat × Nat)} {s : State} (h : Keeps s0 s) :
    ∀ t, (execDiscover sfdp s) = .next t → Keeps s0 t := by
  unfold execDiscover
  dsimp only
  intro t ht
  obtain rfl := Host.Outcome.next.inj ht
  clear ht
  repeat' first
    | with_reducible assumption
    | with_reducible refine bootFrom_keeps (fun s _ => ?_) ?_
    | with_reducible refine rtuDiscover_keeps ?_
    | with_reducible refine setStage_keeps ?_
    | with_reducible refine portStart_keeps ?_
    | with_reducible refine Keeps.ite (fun _ => ?_) (fun _ => ?_)
    | with_reducible refine Keeps.each _ (fun _ _ _ => ?_) ?_

theorem execImage_keeps {s0 : State} {readA : Bool} {readB : Bool} {s : State} (h : Keeps s0 s) :
    ∀ t, (execImage readA readB s) = .next t → Keeps s0 t := by
  unfold execImage
  dsimp only
  intro t ht
  obtain rfl := Host.Outcome.next.inj ht
  clear ht
  repeat' first
    | with_reducible assumption
    | with_reducible refine bootFrom_keeps (fun s _ => ?_) ?_
    | with_reducible refine Keeps.fset ?_
    | with_reducible refine setStage_keeps ?_
    | fail_if_no_progress (with_reducible refine Keeps.upd0 ?_ rfl rfl rfl)

theorem execPreload_keeps {s0 : State} {s : State} (h : Keeps s0 s) :
    ∀ t, (execPreload s) = .next t → Keeps s0 t := by
  unfold execPreload
  intro t ht
  obtain rfl := Host.Outcome.next.inj ht
  clear ht
  repeat' first
    | with_reducible assumption
    | with_reducible refine bootFrom_keeps (fun s _ => ?_) ?_
    | with_reducible refine writeNow_keeps ?_
    | with_reducible refine setStage_keeps ?_
    | with_reducible refine Keeps.each _ (fun _ _ _ => ?_) ?_

theorem execHostReady_keeps {s0 : State} {s : State} (h : Keeps s0 s) :
    ∀ t, (execHostReady s) = .next t → Keeps s0 t := by
  unfold execHostReady
  dsimp only
  intro t ht
  obtain rfl := Host.Outcome.next.inj ht
  clear ht
  repeat' first
    | with_reducible assumption
    | with_reducible refine bootFrom_keeps (fun s _ => ?_) ?_
    | with_reducible refine setStage_keeps ?_
    | with_reducible refine rtuBegin_keeps ?_
    | fail_if_no_progress (with_reducible refine Keeps.upd0 ?_ rfl rfl rfl)

theorem execStoreDone_keeps {s0 : State} {s : State} (h : Keeps s0 s) :
    ∀ t, (execStoreDone s) = .next t → Keeps s0 t := by
  unfold execStoreDone
  dsimp only
  intro t ht
  obtain rfl := Host.Outcome.next.inj ht
  clear ht
  repeat' first
    | with_reducible assumption
    | with_reducible refine bootFrom_keeps (fun s _ => ?_) ?_
    | with_reducible refine setStage_keeps ?_
    | with_reducible refine Keeps.fset ?_
    | with_reducible refine Keeps.setReg ?_
    | with_reducible refine Keeps.ite (fun _ => ?_) (fun _ => ?_)
    | split

end Sys2Proof.Machine
end

