-- ==== Sys2Proof/Laws/KeepsResets.lean ====
section
/-! SUPPORT. Each operation of Machine/Resets.lean keeps what `Keeps` says. -/

namespace Sys2Proof.Machine

theorem execRstChip_keeps {s0 : State} {part : Nat} {data : Word} {s : State} (h : Keeps s0 s) :
    ∀ t, (execRstChip part data s) = .next t → Keeps s0 t := by
  unfold execRstChip
  dsimp only
  intro t ht
  obtain rfl := Host.Outcome.next.inj ht
  clear ht
  repeat' first
    | with_reducible assumption
    | with_reducible refine hostReady_keeps (fun s _ => ?_) ?_
    | with_reducible refine regWrite_keeps ?_

theorem execPerstAssert_keeps {s0 : State} {s : State} (h : Keeps s0 s) :
    ∀ t, (execPerstAssert s) = .next t → Keeps s0 t := by
  unfold execPerstAssert
  dsimp only
  intro t ht
  obtain rfl := Host.Outcome.next.inj ht
  clear ht
  repeat' first
    | with_reducible assumption
    | with_reducible refine chipReset_keeps ?_
    | with_reducible refine Keeps.fset ?_
    | with_reducible refine Keeps.ite (fun _ => ?_) (fun _ => ?_)
    | fail_if_no_progress (with_reducible refine Keeps.upd0 ?_ rfl rfl rfl)

theorem execPerstDeassert_keeps {s0 : State} {s : State} (h : Keeps s0 s) :
    ∀ t, (execPerstDeassert s) = .next t → Keeps s0 t := by
  unfold execPerstDeassert
  dsimp only
  intro t ht
  obtain rfl := Host.Outcome.next.inj ht
  clear ht
  repeat' first
    | with_reducible assumption
    | fail_if_no_progress (with_reducible refine Keeps.upd0 ?_ rfl rfl rfl)

theorem execLinkTrained_keeps {s0 : State} {s : State} (h : Keeps s0 s) :
    ∀ t, (execLinkTrained s) = .next t → Keeps s0 t := by
  unfold execLinkTrained
  dsimp only
  intro t ht
  obtain rfl := Host.Outcome.next.inj ht
  clear ht
  repeat' first
    | with_reducible assumption
    | with_reducible refine Keeps.ite (fun _ => ?_) (fun _ => ?_)
    | fail_if_no_progress (with_reducible refine Keeps.upd0 ?_ rfl rfl rfl)

theorem execPcieHotReset_keeps {s0 : State} {s : State} (h : Keeps s0 s) :
    ∀ t, (execPcieHotReset s) = .next t → Keeps s0 t := by
  unfold execPcieHotReset
  intro t ht
  obtain rfl := Host.Outcome.next.inj ht
  clear ht
  repeat' first
    | with_reducible assumption
    | with_reducible refine chipReset_keeps ?_
    | with_reducible refine Keeps.ite (fun _ => ?_) (fun _ => ?_)

theorem execBmeChange_keeps {s0 : State} {fn : Nat} {on : Bool} {s : State} (h : Keeps s0 s) :
    ∀ t, (execBmeChange fn on s) = .next t → Keeps s0 t := by
  intro t ht
  obtain rfl := Host.Outcome.next.inj ht
  refine Keeps.ite (fun _ => h) fun _ => ?_
  extract_lets src s1
  have h1 : Keeps s0 s1 := Keeps.upd0 h rfl rfl rfl
  refine Keeps.ite (fun _ => ?_) fun _ => h1
  have ht : Keeps s0 ({ s1 with host := { s1.host with
    out := ((s1.host.held.get [] fn).filter fun x => !s1.qe.dead || sentByPage x).reverse ++ s1.host.out, held := s1.host.held.set [] fn [] } } : State) :=
    Keeps.upd h1 rfl rfl rfl (List.suffix_append _ _) id id (le_refl _)
  exact Keeps.ite (fun _ => ht) fun _ => heldGone_keeps ht

end Sys2Proof.Machine
end

