-- ==== Sys2Proof/Laws/KeepsJtag.lean ====
section
/-! SUPPORT. Each operation of Machine/Jtag.lean keeps what `Keeps` says. -/

namespace Sys2Proof.Machine

theorem jtagIr_keeps {s0 : State} {s : State} {ir : Nat} {captured : Nat} (h : Keeps s0 s) :
    Keeps s0 (jtagIr s ir captured) := by
  unfold jtagIr
  dsimp only
  repeat' first
    | with_reducible assumption
    | fail_if_no_progress (with_reducible refine Keeps.upd0 ?_ rfl rfl rfl)

theorem scanSample_keeps {s0 : State} {s : State} (h : Keeps s0 s) :
    Keeps s0 (scanSample s).2 := by
  unfold scanSample
  dsimp only
  repeat' first
    | with_reducible assumption
    | fail_if_no_progress (with_reducible refine Keeps.updCtr ?_ rfl rfl rfl (Nat.le_add_right _ _))

theorem scanLoad_keeps {s0 : State} {s : State} {ir : Nat} {data : BitVec 309} (h : Keeps s0 s) :
    Keeps s0 (scanLoad s ir data) := by
  unfold scanLoad
  dsimp only
  repeat' first
    | with_reducible assumption
    | with_reducible refine scanSample_keeps ?_
    | with_reducible refine jtagIr_keeps ?_
    | fail_if_no_progress (with_reducible refine Keeps.upd0 ?_ rfl rfl rfl)

theorem execExtest_keeps {s0 : State} {cells : BitVec 309} {s : State} (h : Keeps s0 s) :
    ∀ t, (execExtest cells s) = .next t → Keeps s0 t := by
  unfold execExtest
  intro t ht
  obtain rfl := Host.Outcome.next.inj ht
  clear ht
  repeat' first
    | with_reducible assumption
    | with_reducible refine scanLoad_keeps ?_

theorem execSamplePreload_keeps {s0 : State} {cells : BitVec 309} {s : State} (h : Keeps s0 s) :
    ∀ t, (execSamplePreload cells s) = .next t → Keeps s0 t := by
  unfold execSamplePreload
  intro t ht
  obtain rfl := Host.Outcome.next.inj ht
  clear ht
  repeat' first
    | with_reducible assumption
    | with_reducible refine scanLoad_keeps ?_

theorem execIdcode_keeps {s0 : State} {s : State} (h : Keeps s0 s) :
    ∀ t, (execIdcode s) = .next t → Keeps s0 t := by
  unfold execIdcode
  intro t ht
  obtain rfl := Host.Outcome.next.inj ht
  clear ht
  repeat' first
    | with_reducible assumption
    | with_reducible refine jtagIr_keeps ?_

theorem execClamp_keeps {s0 : State} {s : State} (h : Keeps s0 s) :
    ∀ t, (execClamp s) = .next t → Keeps s0 t := by
  unfold execClamp
  intro t ht
  obtain rfl := Host.Outcome.next.inj ht
  clear ht
  repeat' first
    | with_reducible assumption
    | with_reducible refine jtagIr_keeps ?_

theorem execHighz_keeps {s0 : State} {s : State} (h : Keeps s0 s) :
    ∀ t, (execHighz s) = .next t → Keeps s0 t := by
  unfold execHighz
  intro t ht
  obtain rfl := Host.Outcome.next.inj ht
  clear ht
  repeat' first
    | with_reducible assumption
    | with_reducible refine jtagIr_keeps ?_

theorem execBypass_keeps {s0 : State} {s : State} (h : Keeps s0 s) :
    ∀ t, (execBypass s) = .next t → Keeps s0 t := by
  unfold execBypass
  intro t ht
  obtain rfl := Host.Outcome.next.inj ht
  clear ht
  repeat' first
    | with_reducible assumption
    | with_reducible refine jtagIr_keeps ?_

theorem execHoldReset_keeps {s0 : State} {s : State} (h : Keeps s0 s) :
    ∀ t, (execHoldReset s) = .next t → Keeps s0 t := by
  unfold execHoldReset
  dsimp only
  intro t ht
  obtain rfl := Host.Outcome.next.inj ht
  clear ht
  repeat' first
    | with_reducible assumption
    | with_reducible refine jtagIr_keeps ?_
    | fail_if_no_progress (with_reducible refine Keeps.upd0 ?_ rfl rfl rfl)

theorem execJtagChipReset_keeps {s0 : State} {s : State} (h : Keeps s0 s) :
    ∀ t, (execJtagChipReset s) = .next t → Keeps s0 t := by
  unfold execJtagChipReset
  dsimp only
  intro t ht
  obtain rfl := Host.Outcome.next.inj ht
  clear ht
  repeat' first
    | with_reducible assumption
    | with_reducible refine jtagIr_keeps ?_
    | with_reducible refine chipReset_keeps ?_
    | with_reducible refine Keeps.ite (fun _ => ?_) (fun _ => ?_)

theorem execFuseRead_keeps {s0 : State} {s : State} (h : Keeps s0 s) :
    ∀ t, (execFuseRead s) = .next t → Keeps s0 t := by
  unfold execFuseRead
  intro t ht
  obtain rfl := Host.Outcome.next.inj ht
  clear ht
  repeat' first
    | with_reducible assumption
    | with_reducible refine jtagIr_keeps ?_

theorem execFuseProg_keeps {s0 : State} {hash : BitVec 256} {tckOk : Bool} {cut : Option (BitVec 256)} {s : State} (h : Keeps s0 s) :
    ∀ t, (execFuseProg hash tckOk cut s) = .next t → Keeps s0 t := by
  intro t ht
  obtain rfl := Host.Outcome.next.inj ht
  exact Keeps.ite (fun _ => jtagIr_keeps h) fun _ =>
    Keeps.upd (jtagIr_keeps h) rfl rfl rfl (List.suffix_refl _) id id (le_refl _)

theorem execDap_keeps {s0 : State} {s : State} (h : Keeps s0 s) :
    ∀ t, (execDap s) = .next t → Keeps s0 t := by
  unfold execDap
  intro t ht
  obtain rfl := Host.Outcome.next.inj ht
  clear ht
  repeat' first
    | with_reducible assumption
    | with_reducible refine jtagIr_keeps ?_

theorem dapEnd_keeps {s0 : State} {s : State} {error : Bool} (h : Keeps s0 s) :
    Keeps s0 (dapEnd s error) := by
  unfold dapEnd
  dsimp only
  repeat' first
    | with_reducible assumption
    | fail_if_no_progress (with_reducible refine Keeps.upd0 ?_ rfl rfl rfl)

theorem dapRead_keeps {s0 : State} {s : State} {d : BitVec 64} (h : Keeps s0 s) :
    Keeps s0 (dapRead s d) := by
  unfold dapRead
  dsimp only
  repeat' first
    | with_reducible assumption
    | fail_if_no_progress (with_reducible refine Keeps.upd0 ?_ rfl rfl rfl)

theorem dapOp_keeps {s0 : State} {s : State} {ok : Bool} {k : State → State} (hk1 : ∀ s, Keeps s0 s → Keeps s0 (k s)) (h : Keeps s0 s) :
    Keeps s0 (dapOp s ok k) := by
  unfold dapOp
  dsimp only
  repeat' first
    | with_reducible assumption
    | with_reducible refine dapEnd_keeps ?_
    | with_reducible refine hk1 _ ?_
    | with_reducible refine Keeps.ite (fun _ => ?_) (fun _ => ?_)
    | fail_if_no_progress (with_reducible refine Keeps.upd0 ?_ rfl rfl rfl)

theorem execRegRead_keeps {s0 : State} {addr : Nat} {s : State} (h : Keeps s0 s) :
    ∀ t, (execRegRead addr s) = .next t → Keeps s0 t := by
  unfold execRegRead
  dsimp only
  intro t ht
  obtain rfl := Host.Outcome.next.inj ht
  clear ht
  repeat' first
    | with_reducible assumption
    | with_reducible refine dapOp_keeps (fun s _ => ?_) ?_
    | with_reducible refine regRead_keeps ?_
    | with_reducible refine dapRead_keeps ?_

theorem execRegWrite_keeps {s0 : State} {addr : Nat} {data : Word} {s : State} (h : Keeps s0 s) :
    ∀ t, (execRegWrite addr data s) = .next t → Keeps s0 t := by
  unfold execRegWrite
  intro t ht
  obtain rfl := Host.Outcome.next.inj ht
  clear ht
  repeat' first
    | with_reducible assumption
    | with_reducible refine dapOp_keeps (fun s _ => ?_) ?_
    | with_reducible refine dapEnd_keeps ?_
    | with_reducible refine regWrite_keeps ?_

theorem execFlashRead_keeps {s0 : State} {addr : Nat} {s : State} (h : Keeps s0 s) :
    ∀ t, (execFlashRead addr s) = .next t → Keeps s0 t := by
  unfold execFlashRead
  intro t ht
  obtain rfl := Host.Outcome.next.inj ht
  clear ht
  repeat' first
    | with_reducible assumption
    | with_reducible refine dapOp_keeps (fun s _ => ?_) ?_
    | with_reducible refine dapRead_keeps ?_

theorem dapPlace_keeps {s0 : State} {s : State} {addr : Nat} {data : BitVec 64} (h : Keeps s0 s) :
    Keeps s0 (dapPlace s addr data) := by
  unfold dapPlace
  dsimp only
  repeat' first
    | with_reducible assumption
    | fail_if_no_progress (with_reducible refine Keeps.upd0 ?_ rfl rfl rfl)

theorem execFlashWrite_keeps {s0 : State} {addr : Nat} {data : BitVec 64} {s : State} (h : Keeps s0 s) :
    ∀ t, (execFlashWrite addr data s) = .next t → Keeps s0 t := by
  unfold execFlashWrite
  dsimp only
  intro t ht
  obtain rfl := Host.Outcome.next.inj ht
  clear ht
  repeat' first
    | with_reducible assumption
    | with_reducible refine dapOp_keeps (fun s _ => ?_) ?_
    | with_reducible refine dapProgram_keeps ?_
    | with_reducible refine dapPlace_keeps ?_
    | with_reducible refine dapEnd_keeps ?_
    | with_reducible refine Keeps.ite (fun _ => ?_) (fun _ => ?_)

theorem execFlashErase_keeps {s0 : State} {addr : Nat} {s : State} (h : Keeps s0 s) :
    ∀ t, (execFlashErase addr s) = .next t → Keeps s0 t := by
  unfold execFlashErase
  dsimp only
  intro t ht
  obtain rfl := Host.Outcome.next.inj ht
  clear ht
  repeat' first
    | with_reducible assumption
    | with_reducible refine dapOp_keeps (fun s _ => ?_) ?_
    | with_reducible refine dapEnd_keeps ?_
    | with_reducible refine rtuSet_keeps ?_

end Sys2Proof.Machine
end

