-- ==== Sys2Proof/Laws/KeepsLatch.lean ====
section
/-! SUPPORT. Each operation of Machine/Latch.lean keeps what `Keeps` says. -/

namespace Sys2Proof.Machine

theorem execInputLatch_keeps {s0 : State} {page : Nat} {s : State} (h : Keeps s0 s) :
    ∀ t, (execInputLatch page s) = .next t → Keeps s0 t := by
  unfold execInputLatch
  intro t ht
  obtain rfl := Host.Outcome.next.inj ht
  clear ht
  repeat' first
    | with_reducible assumption
    | with_reducible refine flushHeld_keeps ?_
    | with_reducible refine Keeps.ite (fun _ => ?_) (fun _ => ?_)

theorem loopLatch_keeps {s0 : State} {s : State} {c : Nat} {sm : Sampling} {fault : LoopFault} (h : Keeps s0 s) :
    Keeps s0 (loopLatch s c sm fault) := by
  unfold loopLatch
  dsimp only
  repeat' first
    | with_reducible assumption
    | with_reducible refine Keeps.fset ?_
    | with_reducible refine flushHeld_keeps ?_
    | with_reducible refine latchSample_keeps ?_
    | with_reducible refine chanStop_keeps ?_
    | with_reducible refine noteCodes_keeps ?_
    | with_reducible refine Keeps.ite (fun _ => ?_) (fun _ => ?_)

theorem execLoopLatch_keeps {s0 : State} {chan : Nat} {tick : Nat} {fault : LoopFault} {s : State} (h : Keeps s0 s) :
    ∀ t, (execLoopLatch chan tick fault s) = .next t → Keeps s0 t := by
  unfold execLoopLatch
  intro t ht
  obtain rfl := Host.Outcome.next.inj ht
  clear ht
  repeat' first
    | with_reducible assumption
    | with_reducible refine loopLatch_keeps ?_
    | with_reducible refine Keeps.reach ?_
    | with_reducible refine Keeps.ite (fun _ => ?_) (fun _ => ?_)
    | split

end Sys2Proof.Machine
end

