-- ==== Sys2Proof/Laws/KeepsStep.lean ====
section
/-! SUPPORT. Each operation of Machine/Step.lean keeps what `Keeps` says. -/

namespace Sys2Proof.Machine

theorem idle_keeps {s0 : State} {s : State} (h : Keeps s0 s) :
    Keeps s0 (idle s) := by
  unfold idle
  dsimp only
  repeat' first
    | with_reducible assumption
    | with_reducible refine Keeps.ite (fun _ => ?_) (fun _ => ?_)
    | fail_if_no_progress (with_reducible refine Keeps.upd0 ?_ rfl rfl rfl)

end Sys2Proof.Machine
end

