-- ==== Sys2Proof/Laws/KeepsExec.lean ====
section
/-! SUPPORT. What no command does, once for all of them. -/

namespace Sys2Proof.Machine

/-- Whatever the command, its next state keeps what `Keeps` says. -/
theorem exec_keeps {s0 s : State} (i : Instr) (h : Keeps s0 s) : ∀ t, exec i s = .next t → Keeps s0 t := by
  cases i with
  | registerWrite _ _ _ _ _ => exact execRegisterWrite_keeps h
  | islandNoAnswer _ _ _ => exact execIslandNoAnswer_keeps h
  | ptbNowRead _ => exact execPtbNowRead_keeps h
  | ptbBpnRead _ => exact execPtbBpnRead_keeps h
  | pgCtrlEnable _ _ _ => exact execPgCtrlEnable_keeps h
  | pgCtrlQuiesce _ _ _ => exact execPgCtrlQuiesce_keeps h
  | softReset _ _ => exact execSoftReset_keeps h
  | softResetDone _ => exact execSoftResetDone_keeps h
  | resetTimeout _ => exact execResetTimeout_keeps h
  | inServiceClear _ _ => exact execInServiceClear_keeps h
  | inServiceSet _ _ => exact execInServiceSet_keeps h
  | selfTestDone _ _ => exact execSelfTestDone_keeps h
  | unitFailed _ _ => exact execUnitFailed_keeps h
  | pgIrqForce _ _ _ => exact execPgIrqForce_keeps h
  | pgErrClr _ _ _ => exact execPgErrClr_keeps h
  | pgLock _ _ _ => exact execPgLock_keeps h
  | rstChip _ _ => exact execRstChip_keeps h
  | rstPart _ _ => exact execRstPart_keeps h
  | perstAssert => exact execPerstAssert_keeps h
  | perstDeassert => exact execPerstDeassert_keeps h
  | linkTrained => exact execLinkTrained_keeps h
  | pcieHotReset => exact execPcieHotReset_keeps h
  | flr _ => exact execFlr_keeps h
  | bmeChange _ _ => exact execBmeChange_keeps h
  | basePeriodStart => exact execBasePeriodStart_keeps h
  | markerArrival _ _ => exact execMarkerArrival_keeps h
  | markerMiss _ => exact execMarkerMiss_keeps h
  | syncPulseIn _ => exact execSyncPulseIn_keeps h
  | syncPulseMissing => exact execSyncPulseMissing_keeps h
  | mirrorRefresh => exact execMirrorRefresh_keeps h
  | inputLatch _ => exact execInputLatch_keeps h
  | crossingArrival _ _ _ _ => exact execCrossingArrival_keeps h
  | scheduledCycle _ _ _ => exact execScheduledCycle_keeps h
  | deliveryComplete _ _ => exact execDeliveryComplete_keeps h
  | cutTick _ _ => exact execCutTick_keeps h
  | releaseTick _ _ => exact execReleaseTick_keeps h
  | planEpoch => exact execPlanEpoch_keeps h
  | guardStart _ _ => exact execGuardStart_keeps h
  | windowEnd _ _ => exact execWindowEnd_keeps h
  | refresh _ _ => exact execRefresh_keeps h
  | planOffWindow _ _ => exact execPlanOffWindow_keeps h
  | push _ _ _ _ => exact execPush_keeps h
  | sqDoorbell _ _ _ _ _ => exact execSqDoorbell_keeps h
  | cqDoorbell _ _ _ _ _ => exact execCqDoorbell_keeps h
  | ringReadComplete _ _ => exact execRingReadComplete_keeps h
  | entryAdmit _ => exact execEntryAdmit_keeps h
  | jobReady _ => exact execJobReady_keeps h
  | cqEntryWrite _ => exact execCqEntryWrite_keeps h
  | irqTimerExpiry _ => exact execIrqTimerExpiry_keeps h
  | adminQpEnable _ _ _ => exact execAdminQpEnable_keeps h
  | adminQpDisable _ _ _ => exact execAdminQpDisable_keeps h
  | nop _ => exact execNop_keeps h
  | qpCreate _ => exact execQpCreate_keeps h
  | qpDelete _ => exact execQpDelete_keeps h
  | abort _ => exact execAbort_keeps h
  | partReset _ => exact execPartReset_keeps h
  | partitionResetEnd _ => exact execPartitionResetEnd_keeps h
  | partResetTimeout _ => exact execPartResetTimeout_keeps h
  | partSetShare _ => exact execPartSetShare_keeps h
  | partGrant _ => exact execPartGrant_keeps h
  | partRevoke _ => exact execPartRevoke_keeps h
  | partClrForeign _ _ => exact execPartClrForeign_keeps h
  | partClrLog _ _ => exact execPartClrLog_keeps h
  | facetTileFail _ _ => exact execFacetTileFail_keeps h
  | spareLoadDone _ _ => exact execSpareLoadDone_keeps h
  | spareLoadFailed _ _ => exact execSpareLoadFailed_keeps h
  | lensCoreFail _ _ => exact execLensCoreFail_keeps h
  | spiRead _ _ => exact execSpiRead_keeps h
  | spiStop _ _ => exact execSpiStop_keeps h
  | spiRelease _ _ => exact execSpiRelease_keeps h
  | programStart _ _ => exact execProgramStart_keeps h
  | slotNop _ _ => exact execSlotNop_keeps h
  | br _ _ => exact execBr_keeps h
  | loopSet _ _ => exact execLoopSet_keeps h
  | waitBp _ _ => exact execWaitBp_keeps h
  | waitBpResume _ => exact execWaitBpResume_keeps h
  | halt _ _ => exact execHalt_keeps h
  | specBegin _ _ => exact execSpecBegin_keeps h
  | specCommit _ _ => exact execSpecCommit_keeps h
  | specSquash _ _ => exact execSpecSquash_keeps h
  | cmpEq _ _ => exact execCmpEq_keeps h
  | cmpNe _ _ => exact execCmpNe_keeps h
  | cmpLt _ _ => exact execCmpLt_keeps h
  | cmpLtu _ _ => exact execCmpLtu_keeps h
  | cmpLe _ _ => exact execCmpLe_keeps h
  | fcmpLt _ _ => exact execFcmpLt_keeps h
  | fcmpLe _ _ => exact execFcmpLe_keeps h
  | fcmpEq _ _ => exact execFcmpEq_keeps h
  | pand _ _ => exact execPand_keeps h
  | por _ _ => exact execPor_keeps h
  | pxor _ _ => exact execPxor_keeps h
  | pnot _ _ => exact execPnot_keeps h
  | pset _ _ => exact execPset_keeps h
  | add _ _ => exact execAdd_keeps h
  | sub _ _ => exact execSub_keeps h
  | and _ _ => exact execAnd_keeps h
  | or _ _ => exact execOr_keeps h
  | xor _ _ => exact execXor_keeps h
  | shl _ _ => exact execShl_keeps h
  | shr _ _ => exact execShr_keeps h
  | sar _ _ => exact execSar_keeps h
  | mul _ _ => exact execMul_keeps h
  | min _ _ => exact execMin_keeps h
  | max _ _ => exact execMax_keeps h
  | mov _ _ => exact execMov_keeps h
  | tickRd _ _ => exact execTickRd_keeps h
  | fadd _ _ => exact execFadd_keeps h
  | fsub _ _ => exact execFsub_keeps h
  | fmul _ _ => exact execFmul_keeps h
  | fcvtI2f _ _ => exact execFcvtI2f_keeps h
  | fcvtF2i _ _ => exact execFcvtF2i_keeps h
  | ld _ _ => exact execLd_keeps h
  | st _ _ => exact execSt_keeps h
  | ldBc _ _ => exact execLdBc_keeps h
  | send _ _ => exact execSend_keeps h
  | recv _ _ => exact execRecv_keeps h
  | meshDatumArrive _ _ => exact execMeshDatumArrive_keeps h
  | mxZero _ _ => exact execMxZero_keeps h
  | mxOuter _ _ => exact execMxOuter_keeps h
  | mxRowout _ _ => exact execMxRowout_keeps h
  | mxRowin _ _ => exact execMxRowin_keeps h
  | vaddI _ _ => exact execVaddI_keeps h
  | vsubI _ _ => exact execVsubI_keeps h
  | vand _ _ => exact execVand_keeps h
  | vor _ _ => exact execVor_keeps h
  | vxor _ _ => exact execVxor_keeps h
  | vfadd _ _ => exact execVfadd_keeps h
  | vfsub _ _ => exact execVfsub_keeps h
  | vfmul _ _ => exact execVfmul_keeps h
  | vfma _ _ => exact execVfma_keeps h
  | vfnma _ _ => exact execVfnma_keeps h
  | vfmax _ _ => exact execVfmax_keeps h
  | vfmin _ _ => exact execVfmin_keeps h
  | vfabs _ _ => exact execVfabs_keeps h
  | vredAdd _ _ => exact execVredAdd_keeps h
  | rcp _ _ => exact execRcp_keeps h
  | sqrt _ _ => exact execSqrt_keeps h
  | rsqrt _ _ => exact execRsqrt_keeps h
  | divstep _ _ => exact execDivstep_keeps h
  | resultWriteback _ => exact execResultWriteback_keeps h
  | ssbDrain _ => exact execSsbDrain_keeps h
  | ftDiagRead _ _ => exact execFtDiagRead_keeps h
  | ftDiagWrite _ _ _ => exact execFtDiagWrite_keeps h
  | planLoad _ _ => exact execPlanLoad_keeps h
  | planStop _ => exact execPlanStop_keeps h
  | simgLoad _ _ => exact execSimgLoad_keeps h
  | simgFree _ => exact execSimgFree_keeps h
  | solvDelta _ => exact execSolvDelta_keeps h
  | solvGuess _ => exact execSolvGuess_keeps h
  | solvRun _ => exact execSolvRun_keeps h
  | solvRead _ => exact execSolvRead_keeps h
  | solvForceCold _ _ => exact execSolvForceCold_keeps h
  | deltaTick _ _ => exact execDeltaTick_keeps h
  | windowTest _ => exact execWindowTest_keeps h
  | verdictSend _ => exact execVerdictSend_keeps h
  | solveCheck _ => exact execSolveCheck_keeps h
  | solveDeadline _ => exact execSolveDeadline_keeps h
  | loopSampleInstant _ _ _ => exact execLoopSampleInstant_keeps h
  | loopLatch _ _ _ => exact execLoopLatch_keeps h
  | pinEdge _ _ _ => exact execPinEdge_keeps h
  | loopTest _ => exact execLoopTest_keeps h
  | loopTable _ => exact execLoopTable_keeps h
  | loopRead _ _ => exact execLoopRead_keeps h
  | pwmPeriodStart _ _ => exact execPwmPeriodStart_keeps h
  | pwmCompareMatch _ _ => exact execPwmCompareMatch_keeps h
  | deadTimeExpiry _ _ => exact execDeadTimeExpiry_keeps h
  | tripInputActive _ _ => exact execTripInputActive_keeps h
  | tripLatchSet _ _ => exact execTripLatchSet_keeps h
  | tripClr _ _ _ => exact execTripClr_keeps h
  | tripForce _ _ => exact execTripForce_keeps h
  | loupePowerOnReset => exact execLoupePowerOnReset_keeps h
  | loupeDead => exact execLoupeDead_keeps h
  | loupeAliveRestore => exact execLoupeAliveRestore_keeps h
  | loupeSourceActive _ => exact execLoupeSourceActive_keeps h
  | loupeSourceInactive _ => exact execLoupeSourceInactive_keeps h
  | loupeClear _ _ => exact execLoupeClear_keeps h
  | recoveryWindowEnd => exact execRecoveryWindowEnd_keeps h
  | loupeReq _ _ => exact execLoupeReq_keeps h
  | loupeCauseClr _ _ => exact execLoupeCauseClr_keeps h
  | loupeWdtFeed _ _ _ => exact execLoupeWdtFeed_keeps h
  | wdtExpiry => exact execWdtExpiry_keeps h
  | wdtHalf => exact execWdtHalf_keeps h
  | presNLow _ => exact execPresNLow_keeps h
  | presNHigh _ => exact execPresNHigh_keeps h
  | tPlugExpiry _ => exact execTPlugExpiry_keeps h
  | tUnplugExpiry _ => exact execTUnplugExpiry_keeps h
  | tSyncExpiry _ => exact execTSyncExpiry_keeps h
  | tEnumExpiry _ => exact execTEnumExpiry_keeps h
  | tBackoffExpiry _ => exact execTBackoffExpiry_keeps h
  | rxSyncAcquired _ => exact execRxSyncAcquired_keeps h
  | rxSyncLost _ => exact execRxSyncLost_keeps h
  | relink _ _ _ => exact execRelink_keeps h
  | announce _ => exact execAnnounce_keeps h
  | caps _ _ _ => exact execCaps_keeps h
  | ready _ _ => exact execReady_keeps h
  | txSlotStart _ _ _ => exact execTxSlotStart_keeps h
  | rxSlotOpen _ _ _ => exact execRxSlotOpen_keeps h
  | cycUp _ _ _ _ _ _ _ => exact execCycUp_keeps h
  | rxSlotClose _ _ _ => exact execRxSlotClose_keeps h
  | haltRequest _ _ => exact execHaltRequest_keeps h
  | haltWithdraw _ => exact execHaltWithdraw_keeps h
  | mbxFrameSend _ _ => exact execMbxFrameSend_keeps h
  | clnkIslandReset => exact execClnkIslandReset_keeps h
  | clnkIdleHoldEnd => exact execClnkIdleHoldEnd_keeps h
  | mbxOpenFrame _ _ => exact execMbxOpenFrame_keeps h
  | openAck _ _ => exact execOpenAck_keeps h
  | mbxData _ _ => exact execMbxData_keeps h
  | mbxAck _ _ => exact execMbxAck_keeps h
  | mbxCloseFrame _ _ => exact execMbxCloseFrame_keeps h
  | closeAck _ _ => exact execCloseAck_keeps h
  | mbxAbortFrame _ _ => exact execMbxAbortFrame_keeps h
  | beginR _ _ => exact execBeginR_keeps h
  | endR _ _ => exact execEndR_keeps h
  | activateR _ _ => exact execActivateR_keeps h
  | mbxOpen _ => exact execMbxOpen_keeps h
  | mbxSend _ => exact execMbxSend_keeps h
  | mbxRecv _ => exact execMbxRecv_keeps h
  | mbxClose _ => exact execMbxClose_keeps h
  | mbxAbort _ => exact execMbxAbort_keeps h
  | fwUpdate _ => exact execFwUpdate_keeps h
  | rtoExpiry _ _ _ => exact execRtoExpiry_keeps h
  | ackTimerExpiry _ _ => exact execAckTimerExpiry_keeps h
  | probeTimerExpiry _ _ => exact execProbeTimerExpiry_keeps h
  | openTimerExpiry _ _ => exact execOpenTimerExpiry_keeps h
  | closeTimerExpiry _ _ => exact execCloseTimerExpiry_keeps h
  | leakTimerExpiry _ => exact execLeakTimerExpiry_keeps h
  | mbxJobTimeout _ => exact execMbxJobTimeout_keeps h
  | fwReplyTimeout _ => exact execFwReplyTimeout_keeps h
  | fwRebootTimeout _ => exact execFwRebootTimeout_keeps h
  | modelLoad _ _ => exact execModelLoad_keeps h
  | modelUnload _ => exact execModelUnload_keeps h
  | prefixFlush _ => exact execPrefixFlush_keeps h
  | reqSubmit _ => exact execReqSubmit_keeps h
  | rqtAllocate _ => exact execRqtAllocate_keeps h
  | reqCancel _ => exact execReqCancel_keeps h
  | reqPause _ => exact execReqPause_keeps h
  | reqResume _ => exact execReqResume_keeps h
  | reqQuery _ => exact execReqQuery_keeps h
  | stepBoundary _ _ => exact execStepBoundary_keeps h
  | idleSlotApply _ _ => exact execIdleSlotApply_keeps h
  | pauseWriteDone _ => exact execPauseWriteDone_keeps h
  | resumeRestoreDone _ => exact execResumeRestoreDone_keeps h
  | pauseTtlExpiry _ => exact execPauseTtlExpiry_keeps h
  | lensCoreLeave _ _ _ => exact execLensCoreLeave_keeps h
  | lensCoreReturn _ _ _ => exact execLensCoreReturn_keeps h
  | maskLoad _ => exact execMaskLoad_keeps h
  | maskFree _ => exact execMaskFree_keeps h
  | budgetRefill => exact execBudgetRefill_keeps h
  | smpFill _ _ _ => exact execSmpFill_keeps h
  | memCopy _ => exact execMemCopy_keeps h
  | memFill _ => exact execMemFill_keeps h
  | memCheck _ => exact execMemCheck_keeps h
  | memInject _ => exact execMemInject_keeps h
  | memcInit _ => exact execMemcInit_keeps h
  | memcInitDone _ => exact execMemcInitDone_keeps h
  | scrubPass _ _ => exact execScrubPass_keeps h
  | patrolRead _ _ => exact execPatrolRead_keeps h
  | repairWriteback _ => exact execRepairWriteback_keeps h
  | memcClr _ _ => exact execMemcClr_keeps h
  | sramClrSelected _ => exact execSramClrSelected_keeps h
  | sramClrAll _ => exact execSramClrAll_keeps h
  | rtuCommit _ _ => exact execRtuCommit_keeps h
  | rtuRead _ => exact execRtuRead_keeps h
  | rtuList _ => exact execRtuList_keeps h
  | rtuFormat _ _ => exact execRtuFormat_keeps h
  | flashOpDone _ _ _ => exact execFlashOpDone_keeps h
  | holdupMeasure _ => exact execHoldupMeasure_keeps h
  | backgroundErase => exact execBackgroundErase_keeps h
  | rtuRecovery => exact execRtuRecovery_keeps h
  | chooserEvaluate _ _ => exact execChooserEvaluate_keeps h
  | psEntryDone => exact execPsEntryDone_keeps h
  | scheduledExit => exact execScheduledExit_keeps h
  | wake _ => exact execWake_keeps h
  | psExitDone => exact execPsExitDone_keeps h
  | pmuPs4 _ _ _ => exact execPmuPs4_keeps h
  | ps4CommitDone => exact execPs4CommitDone_keeps h
  | pmuTimerFire _ => exact execPmuTimerFire_keeps h
  | thermalSample _ _ _ _ => exact execThermalSample_keeps h
  | speedAdjust => exact execSpeedAdjust_keeps h
  | tkuStrobe _ _ _ _ _ _ => exact execTkuStrobe_keeps h
  | touchScanEnd _ _ => exact execTouchScanEnd_keeps h
  | tkuEvtRead _ => exact execTkuEvtRead_keeps h
  | tkuFlush _ => exact execTkuFlush_keeps h
  | tkuClrDropped _ => exact execTkuClrDropped_keeps h
  | reacquire _ => exact execReacquire_keeps h
  | pwrEnRaise => exact execPwrEnRaise_keeps h
  | corePgRise => exact execCorePgRise_keeps h
  | planRefLock => exact execPlanRefLock_keeps h
  | corePgFall => exact execCorePgFall_keeps h
  | fill => exact execFill_keeps h
  | discover _ => exact execDiscover_keeps h
  | image _ _ => exact execImage_keeps h
  | preload => exact execPreload_keeps h
  | hostReady => exact execHostReady_keeps h
  | storeDone => exact execStoreDone_keeps h
  | extest _ => exact execExtest_keeps h
  | idcode => exact execIdcode_keeps h
  | samplePreload _ => exact execSamplePreload_keeps h
  | clamp => exact execClamp_keeps h
  | highz => exact execHighz_keeps h
  | bypass => exact execBypass_keeps h
  | dap => exact execDap_keeps h
  | regRead _ => exact execRegRead_keeps h
  | regWrite _ _ => exact execRegWrite_keeps h
  | flashRead _ => exact execFlashRead_keeps h
  | flashWrite _ _ => exact execFlashWrite_keeps h
  | flashErase _ => exact execFlashErase_keeps h
  | holdReset => exact execHoldReset_keeps h
  | jtagChipReset => exact execJtagChipReset_keeps h
  | fuseProg _ _ _ => exact execFuseProg_keeps h
  | fuseRead => exact execFuseRead_keeps h
  | foreignRead _ _ => exact execForeignRead_keeps h
  | rxFrameDiscarded _ _ => exact execRxFrameDiscarded_keeps h
  | hostReadCompletion _ _ => exact execHostReadCompletion_keeps h
  | vioSafeLoss => exact execVioSafeLoss_keeps h

/-- A step keeps it too, but that it takes the front command off the queue. -/
theorem step_keeps {s t : State} (h : step s = .next t) : Keeps { s with pending := s.pending.tail } t := by
  unfold step at h
  split at h
  · rename_i e
    obtain rfl := Host.Outcome.next.inj h
    refine idle_keeps ?_
    rw [e, List.tail_nil, ← e]
    exact Keeps.refl s
  · rename_i c rest e
    rw [e]
    exact exec_keeps c (Keeps.refl _) t h

end Sys2Proof.Machine
end

