-- ==== Sys2Proof/Laws/Ops.lean ====
section
/-! SUPPORT. What each shared operation can do, said once: registers beside a write, what goes to the host, page interrupts, the error log
and captures, the end of a job, and a host write that acts. -/

namespace Sys2Proof.Machine

/-! ### Registers beside a write -/

/-- A register of any page, after one is written. -/
theorem reg_setReg (s : State) {p o p' o' : Nat} (w : Word) (h : o < 4096) (h' : o' < 4096) :
    (s.setReg p o w).reg p' o' = if p' = p ∧ o' = o then w else s.reg p' o' := by
  split
  · rename_i e; obtain ⟨rfl, rfl⟩ := e; exact reg_setReg_same ..
  · refine reg_setReg_ne s w ?_
    omega

theorem RegsOnly.refl (ws : List (Nat × Nat)) (s : State) : RegsOnly ws s s := fun _ _ _ _ => rfl

theorem RegsOnly.same {ws : List (Nat × Nat)} {s t u : State} (h : RegsOnly ws s t) (e : ∀ p o, o < 4096 → u.reg p o = t.reg p o) : RegsOnly ws s u :=
  fun p o ho hn => (e p o ho).trans (h p o ho hn)

theorem RegsOnly.setReg {ws : List (Nat × Nat)} {s t : State} {p o : Nat} {w : Word} (h : RegsOnly ws s t) (hp : (p, o) ∈ ws) (ho : o < 4096) :
    RegsOnly ws s (t.setReg p o w) := by
  intro p' o' ho' hn
  rw [reg_setReg t w ho ho', if_neg, h p' o' ho' hn]
  rintro ⟨rfl, rfl⟩
  exact hn hp

theorem RegsOnly.fset {ws : List (Nat × Nat)} {s t : State} {p v : Nat} {f : Fld} (h : RegsOnly ws s t) (hp : (p, f.off) ∈ ws) (ho : f.off < 4096) :
    RegsOnly ws s (t.fset p f v) := h.setReg hp ho

theorem RegsOnly.setReg64 {ws : List (Nat × Nat)} {s t : State} {p lo hi v : Nat} (h : RegsOnly ws s t) (hl : (p, lo) ∈ ws) (hh : (p, hi) ∈ ws)
    (h1 : lo < 4096) (h2 : hi < 4096) : RegsOnly ws s (t.setReg64 p lo hi v) := (h.setReg hl h1).setReg hh h2

theorem RegsOnly.mono {ws vs : List (Nat × Nat)} {s t : State} (h : RegsOnly ws s t) (hs : ∀ x ∈ ws, x ∈ vs) : RegsOnly vs s t :=
  fun p o ho hn => h p o ho fun e => hn (hs _ e)

theorem RegsOnly.trans {ws : List (Nat × Nat)} {s t u : State} (h : RegsOnly ws s t) (g : RegsOnly ws t u) : RegsOnly ws s u :=
  fun p o ho hn => (g p o ho hn).trans (h p o ho hn)

/-- A field of another register keeps its value. -/
theorem RegsOnly.fget {ws : List (Nat × Nat)} {s t : State} {p : Nat} {f : Fld} (h : RegsOnly ws s t) (ho : f.off < 4096) (hn : (p, f.off) ∉ ws) :
    t.fget p f = s.fget p f := by
  unfold State.fget
  rw [h p f.off ho hn]

/-- What two words read after a 64-bit value is held in them. -/
theorem reg64_setReg64_same (s : State) {p lo hi : Nat} (v : Nat) (h : lo ≠ hi) : (s.setReg64 p lo hi v).reg64 p lo hi = v % 2 ^ 64 := by
  unfold State.reg64 State.setReg64
  rw [reg_setReg_same, reg_setReg_ne _ _ (by omega), reg_setReg_same]
  simp only [BitVec.toNat_ofNat]
  omega

/-! ### Time -/

theorem reach_shape (s : State) (k : Nat) : s.reach k = { s with time := { s.time with ptb := (s.reach k).time.ptb } } := by
  unfold State.reach; split <;> rfl

@[simp] theorem reach_reg (s : State) (k p o : Nat) : (s.reach k).reg p o = s.reg p o := by
  rw [reach_shape]; rfl

/-- The PTB is at the tick where it counts and has not passed it, and unchanged otherwise. -/
theorem reach_now (s : State) {k : Nat} (hk : k < 2 ^ 64) : (s.reach k).now = if s.time.running = true ∧ s.now < k then k else s.now := by
  unfold State.reach
  split
  · simpa [State.now] using hk
  · rfl

/-! ### The host -/

/-- Only the host side changes. -/
theorem hostSend_shape (s : State) (fn : Nat) (tx : HostTx) : hostSend s fn tx = { s with host := (hostSend s fn tx).host } := by
  unfold hostSend; split; rfl; split <;> rfl

@[simp] theorem hostSend_reg (s : State) (fn : Nat) (tx : HostTx) (p o : Nat) : (hostSend s fn tx).reg p o = s.reg p o := by
  rw [hostSend_shape]; rfl

/-- A host that hears the partition gets it at once. -/
theorem hostSend_hears {s : State} {fn : Nat} (tx : HostTx) (h : HostHears s fn) :
    hostSend s fn tx = { s with host := { s.host with out := tx :: s.host.out } } := by
  simp [hostSend, h.1, h.2]

/-- Two operations that change registers and the host side change no more together. -/
theorem regsHost_trans {s t u : State} (h : t = { s with regs := t.regs, host := t.host }) (g : u = { t with regs := u.regs, host := u.host }) :
    u = { s with regs := u.regs, host := u.host } := by
  refine g.trans ?_
  rw [h]

theorem setReg_shape (s : State) (p o : Nat) (w : Word) :
    s.setReg p o w = { s with regs := (s.setReg p o w).regs, host := (s.setReg p o w).host } := rfl

theorem fset_shape (s : State) (p : Nat) (f : Fld) (v : Nat) :
    s.fset p f v = { s with regs := (s.fset p f v).regs, host := (s.fset p f v).host } := rfl

theorem setReg64_shape (s : State) (p lo hi v : Nat) :
    s.setReg64 p lo hi v = { s with regs := (s.setReg64 p lo hi v).regs, host := (s.setReg64 p lo hi v).host } := rfl

/-! ### Page interrupts -/

/-- Registers and the host side change. -/
theorem pageIrq_shape (s : State) (p bits : Nat) : pageIrq s p bits = { s with regs := (pageIrq s p bits).regs, host := (pageIrq s p bits).host } := by
  unfold pageIrq
  dsimp only
  split
  · rw [hostSend_shape]; rfl
  · rfl

/-- The causes join those that are set; no other register changes. -/
theorem pageIrq_reg (s : State) (p bits : Nat) {p' o : Nat} (ho : o < 4096) :
    (pageIrq s p bits).reg p' o = if p' = p ∧ o = F.PG_IRQ_STAT_ERR.off then s.reg p o ||| BitVec.ofNat 32 bits else s.reg p' o := by
  have e : (pageIrq s p bits).reg p' o = (s.setReg p F.PG_IRQ_STAT_ERR.off (s.reg p F.PG_IRQ_STAT_ERR.off ||| BitVec.ofNat 32 bits)).reg p' o := by
    unfold pageIrq
    dsimp only
    split
    · exact hostSend_reg ..
    · rfl
  rw [e, reg_setReg s _ (by decide) ho]
  split
  · rename_i h; rw [h.2]
  · rfl

theorem RegsOnly.pageIrq {ws : List (Nat × Nat)} {s t : State} {p bits : Nat} (h : RegsOnly ws s t) (hp : (p, F.PG_IRQ_STAT_ERR.off) ∈ ws) :
    RegsOnly ws s (pageIrq t p bits) := by
  intro p' o ho hn
  rw [pageIrq_reg t p bits ho, if_neg, h p' o ho hn]
  rintro ⟨rfl, rfl⟩
  exact hn hp

/-! ### The log and captures -/

/-- Registers and the host side change. -/
theorem logAppend_shape (s : State) (part page code detail stamp : Nat) :
    logAppend s part page code detail stamp
      = { s with regs := (logAppend s part page code detail stamp).regs, host := (logAppend s part page code detail stamp).host } := by
  unfold logAppend
  dsimp only
  refine regsHost_trans ?_ (pageIrq_shape ..)
  split <;> exact regsHost_trans (regsHost_trans (regsHost_trans (regsHost_trans (setReg_shape ..) (setReg_shape ..)) (setReg64_shape ..)) (fset_shape ..))
    (fset_shape ..)

/-- The registers that a log entry writes. -/
def logRegs (s : State) (part : Nat) : List (Nat × Nat) :=
  let l := pgPart + part
  let e := 0x100 + 16 * s.fget l F.PART_LOG_STAT_NEXT
  [(l, e), (l, e + 4), (l, e + 8), (l, e + 12), (l, F.PART_LOG_STAT_NEXT.off), (l, F.PG_IRQ_STAT_ERR.off)]

/-- An entry of the log writes its four words, the log's counts and the page's causes. -/
theorem logAppend_regs (s : State) (part page code detail stamp : Nat) : RegsOnly (logRegs s part) s (logAppend s part page code detail stamp) := by
  have hn := fget_lt s (pgPart + part) F.PART_LOG_STAT_NEXT
  have hn : s.fget (pgPart + part) F.PART_LOG_STAT_NEXT < 16 := hn
  unfold logAppend
  dsimp only
  refine RegsOnly.pageIrq ?_ (by simp [logRegs])
  have base : RegsOnly (logRegs s part) s
      ((((s.setReg (pgPart + part) (0x100 + 16 * s.fget (pgPart + part) F.PART_LOG_STAT_NEXT) (BitVec.ofNat 32 (code % 2 ^ 16 + (page % 2 ^ 14) * 2 ^ 16))).setReg
        (pgPart + part) (0x100 + 16 * s.fget (pgPart + part) F.PART_LOG_STAT_NEXT + 4) (BitVec.ofNat 32 detail)).setReg64
        (pgPart + part) (0x100 + 16 * s.fget (pgPart + part) F.PART_LOG_STAT_NEXT + 8) (0x100 + 16 * s.fget (pgPart + part) F.PART_LOG_STAT_NEXT + 12) stamp).fset
        (pgPart + part) F.PART_LOG_STAT_NEXT ((s.fget (pgPart + part) F.PART_LOG_STAT_NEXT + 1) % 16)) :=
    ((((RegsOnly.refl _ s).setReg (by simp [logRegs]) (by omega)).setReg (by simp [logRegs]) (by omega)).setReg64 (by simp [logRegs])
      (by simp [logRegs]) (by omega) (by omega)).fset (by simp [logRegs]) (by decide)
  split
  · exact base.fset (by simp [logRegs]) (by decide)
  · exact base.fset (by simp [logRegs]) (by decide)

/-- Registers and the host side change. -/
theorem capture_shape (s : State) (p code part detail : Nat) :
    capture s p code part detail = { s with regs := (capture s p code part detail).regs, host := (capture s p code part detail).host } := by
  unfold capture
  dsimp only
  refine regsHost_trans ?_ (logAppend_shape ..)
  split
  · rfl
  · exact regsHost_trans (regsHost_trans (regsHost_trans (regsHost_trans (setReg_shape ..) (setReg_shape ..)) (setReg_shape ..)) (setReg_shape ..))
      (pageIrq_shape ..)

/-! ### Jobs -/

/-- A job that no reset of its partition holds ends as it is told to. -/
theorem jobDone_live {s : State} {j : Nat} {x : Job} (status result : Nat) (h : jobGet s j = some x) (hr : s.part.resets.find? x.part = none) :
    jobDone s j status result = jobSet s j { x with phase := .done, status := status, result := result % 2 ^ 32, data := none } := by
  unfold jobDone
  simp only [h, hr]

theorem jobDone_ends {s : State} {j : Nat} {x : Job} (status result : Nat) (h : jobGet s j = some x) (hr : s.part.resets.find? x.part = none) :
    Ends (jobDone s j status result) j x status result := by
  rw [jobDone_live status result h hr]
  exact jobGet_jobSet_same ..

/-- A started job is in the table. -/
theorem jobGet_of_started {s : State} {j op : Nat} {x : Job} (h : startedJob s j op = some x) : jobGet s j = some x := by
  unfold startedJob at h
  split at h
  · split at h
    · rw [← h]; assumption
    · cases h
  · cases h

/-- A started job's phase and opcode. -/
theorem started_fields {s : State} {j op : Nat} {x : Job} (h : startedJob s j op = some x) : x.phase = .started ∧ x.opcode = op := by
  unfold startedJob at h
  split at h
  · split at h
    · rename_i hc; cases h; exact hc
    · cases h
  · cases h

/-! ### Host writes -/

/-- A write that acts. -/
theorem pageWrite_acts {s : State} {part p : Nat} (k : State → State) (h : Writable s part p) : pageWrite s part p k = k s := by
  unfold pageWrite hostReady
  rw [if_neg (by simp [h.1])]
  simp [h.2.1, h.2.2]

/-- Before HOST_READY nothing of it reaches the device (R622). -/
theorem pageWrite_early {s : State} (part p : Nat) (k : State → State) (h : s.host.crs = true) : pageWrite s part p k = s := by
  unfold pageWrite hostReady
  rw [if_pos h]

/-- A foreign access changes registers and, for its interrupt, the host side. -/
theorem foreign_shape (s : State) (part last : Nat) (bar2 : Bool) :
    foreign s part last bar2 = { s with regs := (foreign s part last bar2).regs, host := (foreign s part last bar2).host } := by
  unfold foreign
  dsimp only
  split
  · exact regsHost_trans (regsHost_trans (regsHost_trans (fset_shape ..) (fset_shape ..)) (fset_shape ..)) (pageIrq_shape ..)
  · exact regsHost_trans (regsHost_trans (fset_shape ..) (fset_shape ..)) (fset_shape ..)

end Sys2Proof.Machine
end

