-- ==== Sys2Proof/Tests/Slice0.lean ====
section
/-! SUPPORT. The model's own tests: ill-formed commands, and for each statement states and operands that meet its hypotheses clause by
clause, with one or two fields of what the command leaves. Expected values are worked out from the rules of the spec named beside them. -/

namespace Sys2Proof.Tests

set_option Elab.async false

open Sys2Proof.Machine

/-- What a command leaves passes a check. -/
def leaves (c : Instr) (s : State) (f : State → Bool) : Bool :=
  match exec c s with
  | .next t => f t
  | _ => false

/-- A device that has booted: time runs, the host is in, Bus Master Enable is set for functions 0 and 1. -/
def up : State :=
  let s : State := { time := { running := true, ptb := 1000000 }, host := { crs := false, bme := [(0, true), (1, true)], linkUp := true, perst := false },
                     boot := { pwrEn := true, corePg := true, loupeUp := true, powerOn := false } }
  s.fset pgChip F.CHIP_BOOT_STAGE 7

/-- A state with one started job, number 5, of partition 0. -/
def withJob (s : State) (op : Nat) (e : BitVec 512) (f : Job → Job := id) : State :=
  { s with qe := { s.qe with jobs := [(5, f { opcode := op, phase := .started, entries := [e], hadStarted := true })], nextSeq := 1 } }

/-- A field of an entry. -/
def put (v lo : Nat) : BitVec 512 := BitVec.ofNat 512 (v * 2 ^ lo)


/-- `Writable`, as a test. -/
def writable (s : State) (part p : Nat) : Bool :=
  decide (s.host.crs = false) && decide (viewOf s part p = .full) && decide (pageBusy s p = false)

theorem writable_spec {s : State} {part p : Nat} (h : writable s part p = true) : Writable s part p := by
  simp only [writable, Bool.and_eq_true, decide_eq_true_eq] at h
  exact ⟨h.1.1, h.1.2, h.2⟩

/-! ### Steps, registers, captures -/

theorem test_stepRunsFront : step { up with pending := [.fill, .flr 1] } = exec .fill { up with pending := [.flr 1] } := rfl

theorem test_idle : up.pending = [] ∧ up.time.running = true ∧ State.reset.pending = [] ∧ State.reset.time.running = false := by decide +kernel

theorem test_stepKeeps : up.wf = true ∧ ∃ t, step up = .next t := ⟨by decide +kernel, _, rfl⟩

theorem test_register : (0xFFC : Nat) < 4096 ∧ F.PG_ERR0_CODE.off < 4096 ∧ F.PG_ERR0_CODE.lo + F.PG_ERR0_CODE.wid ≤ 32 ∧
    F.PG_ERR0_PARTITION.off = F.PG_ERR0_CODE.off ∧ F.PG_ERR0_CODE.lo + F.PG_ERR0_CODE.wid ≤ F.PG_ERR0_PARTITION.lo := by decide +kernel

/-- A capture is held on the RTU page and the log of partition 0 is full. -/
def captured : State := (State.setReg up pgRtu F.PG_ERR0_CODE.off (2 ^ 31 + 0x1005)).fset pgPart F.PART_LOG_STAT_HELD 16

theorem test_captures : (0xFFFF < 2 ^ 16 ∧ 0x080F < 2 ^ 14 ∧ 15 < 16) ∧ State.fbit up pgRtu F.PG_ERR0_VALID = false ∧
    State.fget up pgPart F.PART_LOG_STAT_HELD < 16 ∧ State.fbit captured pgRtu F.PG_ERR0_VALID = true ∧
    16 ≤ State.fget captured pgPart F.PART_LOG_STAT_HELD := by decide +kernel

theorem test_irqRequested : let s := State.setReg up pgRtu F.PG_IRQ_EN.off 8
    s.reg pgRtu F.PG_IRQ_STAT_ERR.off &&& s.reg pgRtu F.PG_IRQ_EN.off = 0 ∧ (8 : Word) &&& s.reg pgRtu F.PG_IRQ_EN.off ≠ 0 ∧ s.qe.dead = false ∧
    s.host.bme.get false 0 = true ∧ ({ s with host := { s.host with bme := [] } } : State).host.bme.get false 0 = false ∧
    (pageIrq s pgRtu 8).host.out.length = 1 ∧ sentByPage (pageMessage s pgRtu 0 1) = true ∧ sentByPage (pageMessage s 0x230 0 1) = false := by decide +kernel

/-- The RTU page has a cause that is not enabled. -/
theorem test_irqNot : let s := up
    ¬ (s.reg pgRtu F.PG_IRQ_STAT_ERR.off &&& s.reg pgRtu F.PG_IRQ_EN.off = 0 ∧
      (s.reg pgRtu F.PG_IRQ_STAT_ERR.off ||| 8) &&& s.reg pgRtu F.PG_IRQ_EN.off ≠ 0) ∧ (pageIrq s pgRtu 8).host.out = [] := by decide +kernel

/-! ### Plan time -/

theorem test_timeReads : up.host.crs = false ∧ leaves (.ptbNowRead 0) up (fun t => t.host.out == [.readData 0 1000000]) = true ∧
    leaves (.ptbBpnRead 1) { up with time := { up.time with bpn := 2 ^ 32 + 3 } }
      (fun t => t.host.out == [.readData 1 3] && t.time.capBpn.get 0 1 == 1) = true := by decide +kernel

/-- R37: P is 20 000 ticks after reset. -/
theorem test_basePeriod : (∀ i, i < up.var.facetTiles → (State.page up (pgFt + i)).joining = false) ∧
    leaves .basePeriodStart up (fun t => t.time.startTick == 20000 && t.time.bpn == 1) = true := by decide +kernel

theorem test_markerArrival : asleep up = false ∧ islandBuilt up 69 = true ∧ (64 : Nat) ≤ 64 ∧
    (up.time.copies.get {} 69).marked ≠ some up.time.startTick ∧
    leaves (.markerArrival 69 64) up (fun t => (t.time.copies.get {} 69).off == -52) = true := by decide +kernel

/-- A valid copy of the LOOP island that has missed `n` markers; its next marker would move it by 4. -/
def copyUp (n : Nat) : State := { up with time := { up.time with startTick := 20000, copies := [(68, { off := 8, valid := true, misses := n })] } }

theorem test_markerStep : let c := (copyUp 0).time.copies.get {} 68
    c.valid = true ∧ 2 < (12 - (0 : Int)) - c.off ∧ State.fbit (copyUp 0) (islandPage 68) F.PG_ERR0_VALID = false := by decide +kernel

theorem test_markerMiss : ∀ n ∈ [0, 1], let s := copyUp n
    let c := s.time.copies.get {} 68
    s.time.running = true ∧ asleep s = false ∧ islandBuilt s 68 = true ∧ c.valid = true ∧ c.marked ≠ some s.time.startTick ∧
    c.missed ≠ some s.time.startTick ∧ State.fbit s (islandPage 68) F.PG_STAT_OUT_OF_SERVICE = false ∧ c.misses = n := by decide +kernel

/-- The same for a tile's island. -/
theorem test_markerMissTile : let s := { up with time := { up.time with copies := [(67, { off := 0, valid := true, misses := 1 })], startTick := 20000 } }
    let c := s.time.copies.get {} 67
    s.time.running = true ∧ asleep s = false ∧ islandBuilt s 67 = true ∧ c.valid = true ∧ c.marked ≠ some s.time.startTick ∧
    c.missed ≠ some s.time.startTick ∧ State.fbit s (islandPage 67) F.PG_STAT_OUT_OF_SERVICE = false ∧ 1 ≤ c.misses ∧ 67 < 68 := by decide +kernel

/-- A follower. -/
def follower (check : Bool) (seen : Option Nat) : State :=
  let s := { up with time := { up.time with startTick := 1000000, syncCheck := check, syncSeen := seen } }
  State.fset s pgPtb F.PTB_SYNC_CTRL_MODE 2

theorem test_syncPulse : State.fget (follower false none) pgPtb F.PTB_SYNC_CTRL_MODE = 2 ∧ (follower false none).time.syncCheck = false ∧
    (-4 ≤ syncOffset (follower true none) 1000004 ∧ syncOffset (follower true none) 1000004 ≤ 4) ∧ (follower true none).time.syncCheck = true ∧
    4 < syncOffset (follower true none) 1000005 ∧ syncOffset (follower true none) 999995 < -4 ∧
    State.fget up pgPtb F.PTB_SYNC_CTRL_MODE ≠ 2 ∧ (follower true none).time.syncSeen = none ∧ (follower true none).time.running = true ∧
    State.fbit up pgPtb F.PG_ERR0_VALID = false ∧
    leaves (.syncPulseIn 1000003) (follower false none) (fun t => t.fget pgPtb F.PTB_SYNC_STAT_OFFSET == 3) = true := by decide +kernel

/-- A Plan page with a datum in its landing buffer 7. -/
def landed : State := { up with time := { up.time with landing := [(4096 * pgSolv + 7, { val := 9 })], lost := [3] } }

theorem test_crossings : classOf landed.var pgSolv = some .solv ∧ domainOf .solv = .plan ∧ 4095 < 4096 ∧
    landed.time.landing.find? (4096 * pgSolv + 7) = some { val := 9 } ∧ landed.time.landing.find? (4096 * pgSolv + 4095) = none ∧ 3 ∈ landed.time.lost ∧
    leaves (.scheduledCycle pgSolv 7 none) landed (fun t => (t.time.consumed.get {} (4096 * pgSolv + 7)).val == 9) = true ∧
    leaves (.scheduledCycle pgSolv 4095 (some 3)) landed (fun t => (t.time.consumed.get {} (4096 * pgSolv + 4095)).lost) = true := by decide +kernel

/-- Channel 3 releases at phase 1 000 of every base period, SOLV's report register 2 is awaited, and copies are valid. -/
def releasing : State :=
  { up with time := { up.time with
      plan := some { releases := [{ reg := 3, phase := 1000, pos := 0, safe := some 6, deps := [1] }] }
      copies := [(68, { valid := true })], crossings := [(3, { val := 5 }), (16386, { val := 7 })]
      releases := [(4, { output := { val := 1 } })] } }

/-- 1 001 000 is a release tick, on a grid of 20 000 ticks: 1 001 000 = 50 × 20 000 + 1 000. -/
theorem test_deliveries : releasing.time.crossings[0]? = some (3, { val := 5 }) ∧ releasing.time.crossings[1]? = some (16386, { val := 7 }) ∧
    16384 ≤ 16386 ∧ 3 < 16384 ∧ relFirst releasing 3 (relCopyTick releasing 3 1000991) = some 1001000 ∧ relCopyTick releasing 3 1000991 + 8 < 1001000 ∧
    (relGet releasing 3).pending = none ∧ (1001000 : Int) ≤ relCopyTick releasing 3 1000992 + 8 ∧
    relFirst releasing 3 (relCopyTick releasing 3 1000992) = some 1001000 ∧
    leaves (.deliveryComplete 0 1000991) releasing (fun t => (relGet t 3).pending == some { val := 5 }) = true ∧
    leaves (.deliveryComplete 1 1000991) releasing (fun t => t.solver.reports.find? 2 == some ({ val := 7 }, 1000991)) = true := by decide +kernel

theorem test_releases : relTimed releasing 3 = true ∧ (relAt releasing 3 (relCopyTick releasing 3 1000992 + 8)).isSome = true ∧
    (relGet releasing 3).pending = none ∧ (relGet releasing 3).missed = false ∧
    (∀ l ∈ [[], [1]], let s := { releasing with time := { releasing.time with lost := l } }
      relLost s { reg := 3, phase := 1000, pos := 0, deps := [1] } = !l.isEmpty ∧
      (relAt s 3 (relCopyTick s 3 1001000)).isSome = true) ∧
    leaves (.releaseTick 3 1001000) releasing (fun t => (relGet t 3).status == 0x0F04 && (relGet t 3).output.val == 6) = true ∧
    leaves (.releaseTick 3 1001000) (relSet releasing 3 { pending := some { val := 5 } }) (fun t => (relGet t 3).output.val == 5 && (relGet t 3).status == 0) = true := by
  decide +kernel

/-- Window 15 of channel 1 is in use and the channel is open, or closed for it. -/
def calendar (closed : Bool) : State :=
  phaseSet (State.fset up (calPage 1) (F.MEMC_WIN_LEN.sh 60) 16) 1 { closed := closed, win := 15, waiting := [5] }

theorem test_calendar : 1 < up.var.memcChannels ∧ (calendar false).time.running = true ∧ 15 < 16 ∧ (calWindow (calendar false) 1 15).2 ≠ 0 ∧
    (phaseGet (calendar false) 1).closed = false ∧ (phaseGet (calendar true) 1).closed = true ∧ (phaseGet (calendar true) 1).win = 15 ∧
    State.fbit (calendar false) (pgMemc + 2) F.PG_CTRL_IN_SERVICE = true ∧
    leaves (.guardStart 1 15) (calendar false) (fun t => (phaseGet t 1).closed) = true ∧
    leaves (.windowEnd 1 15) (calendar true) (fun t => !(phaseGet t 1).closed && (phaseGet t 1).waiting == []) = true ∧
    leaves (.refresh 1 .refresh) (calendar false) (fun t => (phaseGet t 1).refreshes == 1) = true := by decide +kernel

theorem test_offWindow : let s := { calendar false with time := { (calendar false).time with plan := some {} } }
    s.time.plan.isSome = true ∧ inWindow s 1 = false ∧ State.fbit s (pgMemc + 2) F.PG_ERR0_VALID = false := by decide +kernel

/-! ### Queues -/

/-- The admin queue pair of partition 0 is ACTIVE with rings of 16 entries. -/
def queue (f : Qp → Qp := id) : State :=
  qpSet (qpPut (qpPut up 0 F.QP_SIZE_SQ_LOG2 4) 0 F.QP_SIZE_CQ_LOG2 4) 0 (f { state := .active, owner := 0 })

theorem test_jobEnds : let s := withJob up 0x00 0
    (jobGet s 5).isSome = true ∧ s.part.resets.find? 0 = none ∧ ({ s with part := { resets := [(0, {})] } } : State).part.resets.find? 0 = some {} ∧
    leaves (.nop 5) s (fun t => (jobGet t 5).any fun x => x.phase == .done && x.status == stOk) = true ∧
    (jobGet (jobDone { s with part := { resets := [(0, {})] } } 5 stOk 0) 5).map (·.status) = some 0x0015 := by decide +kernel

theorem test_push : (queue).host.crs = false ∧ qpOwner (queue) 0 = some 0 ∧ (qpGet (queue) 0).state = .active ∧
    (qpGet (queue) 0).pushes.find? (7 % 4) = none ∧ ringCovers (queue) 0 (pushIndex (queue) 0 7) = false ∧
    leaves (.push 0 0 7 0x300) (queue) (fun t => (qpGet t 0).pushes == [(3, 0x300)]) = true := by decide +kernel

theorem test_pushDropped : let s := queue fun x => { x with pushes := [(3, 0)] }
    (qpGet up 0).state ≠ .active ∧ qpOwner up 0 = some 0 ∧ ((qpGet s 0).pushes.find? (3 % 4)).isSome = true ∧ qpOwner s 0 = some 0 ∧
    State.fbit s (qpPage 0) F.PG_ERR0_VALID = false := by decide +kernel

theorem test_doorbells : (qpGet (queue) 0).pushes = [] ∧ bitsOf (15 : Word) 0 16 < sqSize (queue) 0 ∧ sqSize (queue) 0 ≤ bitsOf (16 : Word) 0 16 ∧
    bitsOf (0 : Word) 0 16 < cqSize (queue) 0 ∧
    ringDist (cqSize (queue) 0) (qpGet (queue) 0).cqHead 0 ≤ ringDist (cqSize (queue) 0) (qpGet (queue) 0).cqHead (qpGet (queue) 0).cqTail ∧
    leaves (.sqDoorbell 0 0 0xF 15 false) (queue) (fun t => (qpGet t 0).sqDb == 15 && (qpGet t 0).ringLeft == 15) = true ∧
    leaves (.cqDoorbell 0 0 0xF 2 false) (queue fun x => { x with cqTail := 3 }) (fun t => (qpGet t 0).cqHead == 2) = true := by decide +kernel

/-- The entry of a NOP with tag 9: FIRST and LAST. -/
def nopEntry : BitVec 512 := put 3 8 ||| put 9 16

theorem test_ringRead : let s := queue fun x => { x with ringLeft := 1, sqDb := 1 }
    (qpGet s 0).state = .active ∧ [(nopEntry, false)].length ≤ (qpGet s 0).ringLeft - (qpGet s 0).staged.length ∧
    leaves (.ringReadComplete 0 (.good [(nopEntry, false)])) s (fun t => (qpGet t 0).staged == [(nopEntry, false)]) = true := by decide +kernel

theorem test_entryAdmit : let s := queue fun x => { x with ringLeft := 1, sqDb := 1, staged := [(nopEntry, false)] }
    admitPick s = some 0 ∧ nextSource s 0 = some (nopEntry, false, false) ∧ (qpGet s 0).chain = .closed ∧ nopEntry.getLsbD 8 = true ∧
    nopEntry.getLsbD 9 = true ∧ jobKindFor s 0 0 = some .admin ∧ s.qe.jobs.lowestFree 0 512 = some 0 ∧
    leaves (.entryAdmit .none) s (fun t => (jobGet t 0).any (fun x => x.tag == 9) && (qpGet t 0).sqHead == 1) = true := by decide +kernel

theorem test_jobReady : let s := withJob up 0x00 nopEntry fun x => { x with phase := .waiting, fence := true }
    (∃ x, jobGet s 5 = some x ∧ x.phase = .waiting ∧ s.qe.dead = false ∧ (x.fence = true → earlierJob s x = false) ∧ x.cancel = false) ∧
    leaves (.jobReady 5) s (fun t => (jobGet t 5).any fun x => x.phase == .started && x.startTick == 1000000) = true :=
  ⟨⟨_, rfl, by decide +kernel⟩, by decide +kernel⟩

theorem test_cqEntry : let s := { withJob (queue) 0 nopEntry (fun x => { x with phase := .done, tag := 9 }) with freeCtr := 0 }
    s.part.resets.find? (qpGet s 0).owner = none ∧ (qpGet s 0).deleting = none ∧ ((oldestJob s 0).any fun j => j.1 == 5 && j.2.phase == .done && !j.2.irq &&
      !folds j.2 0) = true ∧ (qpGet s 0).foldedIrq = false ∧ qpF s 0 F.QP_CTRL_IRQ_ALL = 0 ∧ cqIsFull s 0 = false ∧ s.host.bme.get false 0 = true ∧
    s.qe.dead = false ∧ leaves (.cqEntryWrite 0) s (fun t => (qpGet t 0).cqTail == 1 && t.qe.jobs == []) = true := by decide +kernel

/-- R174: with Bus Master Enable 0 the entry is held and the job keeps its place; both go when the bit is set. -/
theorem test_cqHeld : let s := { withJob (queue) 0 nopEntry (fun x => { x with phase := .done, tag := 9 }) with freeCtr := 0 }
    let s := { s with host := { s.host with bme := [] } }
    ((oldestJob s 0).any fun j => j.1 == 5 && j.2.phase == .done) = true ∧ s.host.bme.get false 0 = false ∧
    leaves (.cqEntryWrite 0) s (fun t => (qpGet t 0).cqTail == 1 && t.qe.jobs.length == 1 && (t.host.held.get [] 0).length == 1 && t.host.out == [] &&
      leaves (.bmeChange 0 true) t (fun u => u.qe.jobs == [] && u.host.out.length == 1)) = true := by decide +kernel

theorem test_irqTimer : let s := qpPut (qpPut (queue fun x => { x with sigCount := 1, sigSince := some 3 }) 0 F.QP_IRQ_TIME 1) 0 F.QP_CTRL_IRQ_EN 1
    (qpGet s 0).sigSince = some 3 ∧ (qpGet s 0).sigCount ≠ 0 ∧ qpF s 0 F.QP_IRQ_TIME ≠ 0 ∧ qpF s 0 F.QP_CTRL_IRQ_EN = 1 ∧ s.host.bme.get false 0 = true ∧
    leaves (.irqTimerExpiry 0) s (fun t => t.host.out == [.msix 0 0]) = true := by decide +kernel

theorem test_adminQp : let s := qpPut (qpPut up 15 F.QP_SIZE_SQ_LOG2 12) 15 F.QP_SIZE_CQ_LOG2 4
    s.host.crs = false ∧ 15 < s.var.partitions ∧ qpReach s 15 15 = true ∧ qpF s 15 F.QP_SIZE_SQ_LOG2 ≠ 0 ∧ qpF s 15 F.QP_SIZE_CQ_LOG2 ≠ 0 ∧
    (qpGet s 15).state = .disabled ∧ leaves (.adminQpEnable 15 15 0) s (fun t => (qpGet t 15).state == .active) = true ∧
    leaves (.adminQpDisable 0 0 0) (queue) (fun t => (qpGet t 0).state == .disabled) = true := by decide +kernel

/-- Queue pair 16, with rings of 16 and 4 096 entries at 4 KiB and 8 KiB. -/
def qpEntry : BitVec 512 := put 16 32 ||| put 4 48 ||| put 12 52 ||| put 0x1000 64 ||| put 0x2000 128

theorem test_qpCreate : let s := State.fset (withJob up 0x01 qpEntry) pgQe F.QE_PQP_QP_MAX 3
    (startedJob s 5 0x01).map (qpCreateCheck s) = some (.inr 16) ∧ s.part.resets.find? 0 = none ∧
    leaves (.qpCreate 5) s (fun t => qpGet t 16 == { state := .active, owner := 0 } && qpF t 16 F.QP_SIZE_CQ_LOG2 == 12) = true := by decide +kernel

theorem test_qpDelete : let s := qpSet (withJob up 0x02 (put 16 32)) 16 { state := .active, owner := 0 }
    (startedJob s 5 0x02).any (fun x => x.stage == 0 && decide (s.var.partitions ≤ payBits x 32 12) && decide (payBits x 32 12 < 2048)) = true ∧
    qpOwner s 16 = some 0 ∧ (qpGet s 16).state ≠ .draining ∧ (qpGet s 16).chain = .closed ∧ (∀ k ∈ s.qe.jobs, k.2.qp ≠ 16) ∧
    leaves (.qpDelete 5) s (fun t => qpGet t 16 == {}) = true := by decide +kernel

theorem test_abort : let s0 := withJob up 0x03 (put 0 32 ||| put 77 48)
    let s := { s0 with qe := { s0.qe with jobs := s0.qe.jobs ++ [(9, { tag := 77, phase := .waiting })] } }
    (startedJob s 5 0x03).map (fun x => payBits x 48 16) = some 77 ∧ qpOwner s 0 = some 0 ∧
    abortTarget s 0 77 = some (9, { tag := 77, phase := .waiting }) ∧ jobGet s 9 = some { tag := 77, phase := .waiting } ∧
    s.part.resets.find? 0 = none ∧ leaves (.abort 5) s (fun t => (jobGet t 9).any fun x => x.status == stCancelled) = true := by decide +kernel

/-! ### Pages, views and units -/

theorem test_headerWrites : writable up 0 pgPtb = true ∧ classOf up.var pgPtb = some .ptb ∧ writable up 0 pgRtu = true ∧ classOf up.var pgRtu = some .rtu ∧
    (State.page up pgRtu).heldWrites = [] ∧ (∀ o ∈ [0x38, 0x30, 0x34, 0x18, 0x08], waitsLatch up pgRtu o = false) ∧ (rowAt .rtu pgRtu 0x05C).isSome = true ∧
    (0xE : BitVec 4) ≠ 0xF ∧ softResetAllowed up pgRtu = true ∧ (PageClass.rtu ≠ .ch) ∧
    leaves (.registerWrite 0 pgRtu 0x38 0xF 0xFFFFFFFF) up (fun t => t.reg pgRtu 0x38 == 0xFFFFFFFF) = true ∧
    leaves (.registerWrite 0 pgRtu 0x05C 0xF 0xFFFFFFFF) up (fun t => t.reg pgRtu 0x05C == 0xFFFF) = true ∧
    leaves (.pgErrClr 0 pgRtu 1) captured (fun t => t.reg pgRtu 0x20 == 0) = true ∧
    leaves (.pgLock 0 pgRtu 1) up (fun t => t.fget pgRtu F.PG_LOCK_LOCK == 1) = true ∧
    leaves (.pgIrqForce 0 pgRtu 0xFFFFFFFF) up (fun t => t.reg pgRtu 0x10 == BitVec.ofNat 32 (irqDefined .rtu + 2 ^ 31)) = true ∧
    leaves (.softReset 0 pgRtu) up (fun t => t.fbit pgRtu F.PG_STAT_RESET_BUSY) = true ∧
    leaves (.pgCtrlEnable 0 pgPtb false) up (fun t => t.fget pgPtb F.PG_CTRL_ENABLE == 0) = true ∧
    leaves (.pgCtrlQuiesce 0 pgPtb true) up (fun t => t.fget pgPtb F.PG_CTRL_QUIESCE == 1) = true := by decide +kernel

/-- PWM pages are hidden from partition 1, CHIP is read-only to it (Table 3.5). -/
theorem test_foreign : viewOf up 1 pgPwm = .hidden ∧ viewOf up 1 pgChip = .readOnly ∧ viewOf up 0 pgPwm = .full ∧ up.host.crs = false ∧
    State.fbit up pgChip F.PG_ERR0_VALID = false ∧ 0xFFC % 4 = 0 ∧
    leaves (.registerWrite 1 pgPwm 0xFFC 0xF 1) up (fun t => t.fget (pgPart + 1) F.PART_FOREIGN_COUNT == 1) = true ∧
    leaves (.foreignRead 1 (.page pgPwm)) up (fun t => t.host.out.head? == some (.readData 1 0)) = true := by decide +kernel

/-- A page with RESET_BUSY set. -/
def resetting (p : Nat) : State := (State.fset up p F.PG_STAT_RESET_BUSY 1).modPage p fun x => { x with resetSince := some 999000 }

theorem test_resets : (∀ p ∈ [pgRst, pgRtu], State.fbit (resetting p) p F.PG_STAT_RESET_BUSY = true ∧ (State.page (resetting p) p).resetSince = some 999000) ∧
    classOf up.var pgRst = some .rst ∧ State.fbit up pgRst F.PG_ERR0_VALID = false ∧
    leaves (.softResetDone pgRst) (resetting pgRst) (fun t => t.fget pgRst F.PG_STAT_RESET_BUSY == 0) = true := by decide +kernel

theorem test_unitFailed : classOf up.var pgRtu = some .rtu ∧ PageClass.rtu ∉ [.mirror, .qp, .ft, .lens, .ch, .pwm, .clnk, .memc, .loopg, .clnkg] ∧
    State.fbit up pgRtu F.PG_ERR0_VALID = false := by decide +kernel

/-- Tile 3 is out of service, or tests itself. -/
def tileOut (testing : Bool) : State :=
  ((State.fset up (pgFt + 3) F.PG_STAT_OUT_OF_SERVICE 1).fset (pgFt + 3) F.PG_CTRL_IN_SERVICE 0).modPage (pgFt + 3) fun x => { x with testing := testing }

theorem test_service : writable up 0 (pgPwm + 15) = true ∧ 15 < up.var.pwmPairs ∧ (State.page up (pgPwm + 15)).heldWrites = [] ∧ pageOut up (pgPwm + 15) = false ∧
    writable (tileOut false) 0 (pgFt + 3) = true ∧ classOf up.var (pgFt + 3) = some .ft ∧ pageOut (tileOut false) (pgFt + 3) = true ∧
    (State.page (tileOut false) (pgFt + 3)).heldWrites = [] ∧
    (State.page (tileOut false) (pgFt + 3)).testing = false ∧ (State.page (tileOut false) (pgFt + 3)).joining = false ∧
    (State.page (tileOut true) (pgFt + 3)).testing = true ∧ State.fbit up (pgFt + 3) F.PG_ERR0_VALID = false ∧
    leaves (.inServiceClear 0 (pgPwm + 15)) up (fun t => t.fget (pgPwm + 15) F.PG_STAT_OUT_OF_SERVICE == 1) = true ∧
    leaves (.inServiceSet 0 (pgFt + 3)) (tileOut false) (fun t => (t.page (pgFt + 3)).testing) = true ∧
    leaves (.selfTestDone (pgFt + 3) true) (tileOut true) (fun t => (t.page (pgFt + 3)).joining) = true := by decide +kernel

/-! ### Resets and the host -/

/-- RST_CTRL lets both kinds of reset through. -/
def resettable : State := (State.fset up pgRst F.RST_CTRL_CHIP_EN 1).fset pgRst F.RST_CTRL_PART_EN 1

theorem test_wrongKeys : bitsOf (0xA5C20001 : Word) 16 16 ≠ 0xA5C3 ∧ State.fbit (State.fset up pgRst F.RST_CTRL_CHIP_EN 0) pgRst F.RST_CTRL_CHIP_EN = false ∧
    State.fbit (State.fset up pgRst F.RST_CTRL_PART_EN 0) pgRst F.RST_CTRL_PART_EN = false ∧
    ({ up with fuses := { variant := .el160 } } : State).var.partitions ≤ bitsOf (0xA5C3010F : Word) 0 4 ∧ (1 : Nat) ≠ 0 := by decide +kernel

theorem test_chipReset : (15 < 16) ∧ resettable.host.crs = false ∧ pageBusy resettable pgRst = false ∧ bitsOf (0xA5C30001 : Word) 16 16 = 0xA5C3 ∧
    (0xA5C30001 : Word).getLsbD 0 = true ∧ State.fbit resettable pgRst F.RST_CTRL_CHIP_EN = true ∧ up.host.perst = false ∧ powered up = true ∧
    asleep up = false ∧ up.host.linkUp = true := by decide +kernel

theorem test_linkEvents : up.host.perst = false ∧ up.boot.corePg = true ∧ 15 < up.var.partitions ∧ up.host.linkUp = true ∧ up.host.crs = false ∧
    leaves .perstDeassert up (fun t => t.host.perst == false) = true ∧
    leaves (.bmeChange 15 true) { up with host := { up.host with held := [(15, [.msix 15 1])] } } (fun t => t.host.out == [.msix 15 1]) = true ∧
    leaves (.bmeChange 15 true) { up with qe := { up.qe with dead := true }, host := { up.host with held := [(15, [.msix 15 1, .pageMsix 15 2])] } }
      (fun t => t.host.out == [.pageMsix 15 2]) = true := by decide +kernel

/-! ### Partitions -/

/-- 2 GiB of device memory on one channel. -/
def memUp : State := { up with mem := { trained := [(0, 2)] } }

/-- Partition 15 gets 1 048 576 pages, 1 024 requests and weight 255. -/
def shareJob : State := withJob up 0x11 (put 15 32 ||| put 0x100000 64 ||| put 1024 96 ||| put 255 112)
/-- Partition 15 gets the last 2 MiB of 2 GiB × 8/9, from 0x71A0_0000 on. -/
def memJob : State := withJob memUp 0x12 (put 15 32 ||| put 0x71A00000 64 ||| put 1 128)
def mbxJob : State := withJob up 0x12 (put 15 32 ||| put 1 36 ||| put 7 40 ||| put 7 44)
def slotJob : State := State.fset (withJob up 0x13 (put 15 32 ||| put 2 36 ||| put 7 40)) (pgPart + 15) F.PART_SLOTS_SLOTS 0x80

theorem test_shares : let x := fun (s : State) op => (startedJob s 5 op).getD {}
    paCheck shareJob (x shareJob 0x11) = none ∧ paCheck memJob (x memJob 0x12) = none ∧ paKind (x memJob 0x12) = 0 ∧ paTarget (x memJob 0x12) = 15 ∧
    regionConflict memJob 15 (regionOf (x memJob 0x12)).1 (regionOf (x memJob 0x12)).2 = false ∧ partMemFind memJob 15 (regionOf (x memJob 0x12)) = none ∧
    partMemFind memJob 15 (0, 0) = some 0 ∧ paCheck mbxJob (x mbxJob 0x12) = none ∧ paKind (x mbxJob 0x12) = 1 ∧ mbxHolder mbxJob 7 7 = none ∧
    paCheck slotJob (x slotJob 0x13) = none ∧ paKind (x slotJob 0x13) = 2 ∧ revokeHeld slotJob (x slotJob 0x13) = true ∧
    (slotJob.qe.jobs.any fun k => usesRevoked slotJob (x slotJob 0x13) k.1 k.2) = false ∧
    leaves (.partSetShare 5) shareJob (fun t => t.fget (pgPart + 15) F.PART_SHARE1_RQT_MAX == 1024) = true ∧
    leaves (.partGrant 5) memJob (fun t => t.reg (pgPart + 15) 0x200 == 0x71A00000) = true ∧
    leaves (.partGrant 5) mbxJob (fun t => holdsChannel t 15 7 7 && !holdsChannel t 0 7 7) = true ∧
    leaves (.partRevoke 5) slotJob (fun t => t.fget (pgPart + 15) F.PART_SLOTS_SLOTS == 0) = true := by decide +kernel

theorem test_shareOthers : let s := withJob up 0x11 0 fun x => { x with part := 1 }
    (startedJob s 5 0x11).map (·.part) = some 1 ∧ s.part.resets.find? 1 = none ∧
    leaves (.partSetShare 5) s (fun t => (jobGet t 5).map (·.status) == some stNotOwner) = true := by decide +kernel

theorem test_partClr : writable captured 0 pgPart = true ∧ classOf captured.var pgPart = some .part ∧
    leaves (.partClrForeign 0 pgPart) (State.fset up pgPart F.PART_FOREIGN_COUNT 5) (fun t => t.fget pgPart F.PART_FOREIGN_COUNT == 0) = true ∧
    leaves (.partClrLog 0 pgPart) captured (fun t => t.fget pgPart F.PART_LOG_STAT_HELD == 0) = true := by decide +kernel

theorem test_partResets : pageBusy resettable pgRst = false ∧ bitsOf (0xA5C3010F : Word) 16 16 = 0xA5C3 ∧ (0xA5C3010F : Word).getLsbD 8 = true ∧
    State.fbit resettable pgRst F.RST_CTRL_PART_EN = true ∧ bitsOf (0xA5C3010F : Word) 0 4 < resettable.var.partitions ∧ resettable.part.resets.find? 15 = none ∧
    (startedJob (withJob up 0x10 (put 15 32)) 5 0x10).any (fun x => x.stage == 0 && x.part == 0 && paTarget x == 15) = true ∧
    leaves (.rstPart 0 0xA5C3010F) resettable (fun t => t.fget (pgPart + 15) F.PART_STAT_STATE == 1) = true ∧
    leaves (.flr 15) up (fun t => t.fget (pgPart + 15) F.PART_STAT_STATE == 2 && !t.host.bme.get false 15) = true ∧
    leaves (.partReset 5) (withJob up 0x10 (put 15 32)) (fun t => t.fget (pgPart + 15) F.PART_STAT_STATE == 1) = true := by decide +kernel

theorem test_noChannel : ∀ p c, holdsChannel up 15 p c = false := by
  have h1 : State.fget up (pgPart + 15) F.PART_MBX_LO_CH = 0 := by decide +kernel
  have h2 : State.fget up (pgPart + 15) F.PART_MBX_HI_CH = 0 := by decide +kernel
  intro p c
  unfold holdsChannel
  dsimp only
  split <;> simp [h1, h2, natBit]

/-- A reset of partition 15 that is quiet, and one of partition 0 that a started QP_DELETE holds up. -/
theorem test_partResetEnds : let s := { up with part := { resets := [(15, { since := 5 })] } }
    let v := { withJob up 0x02 0 with part := { resets := [(0, { since := 5 })] } }
    s.part.resets.find? 15 = some { since := 5 } ∧ resetQuiet s 15 { since := 5 } = true ∧ 15 < s.var.partitions ∧
    leaves (.partitionResetEnd 15) s (fun t => t.part.resets.find? 15 == none) = true ∧
    v.part.resets.find? 0 = some { since := 5 } ∧ (v.qe.jobs.all fun j => j.1 == 5 && j.2.part == 0 && j.2.phase == .started && decide (j.2.opcode < 4)) = true ∧
    v.serve.reqs = [] ∧ State.fbit v pgRst F.PG_ERR0_VALID = false := by decide +kernel

/-! ### PWM pairs, trips and the Loupe -/

/-- Pair 15 with the given dead time, scheduled once a base period, its base period beginning now. -/
def pairUp (dt : Nat) (x : PwmPair) (st : Nat) : State :=
  let s := { up with time := { up.time with plan := some {}, copies := [(68, { valid := true })] }, pwm := { pairs := [(15, x)] } }
  ((((((State.fset s (pgPwm + 15) F.PWM_SCHED_DIV 1).fset (pgPwm + 15) F.PWM_CFG_DT dt).fset (pgPwm + 15) F.PG_CTRL_ENABLE 1).fset (pgPwm + 15) F.PWM_STAT_STATE st).fset (pgPwm + 15)
    F.PWM_STAGE_VALUE 0x4000).fset (pgPwm + 15) F.PWM_PER_PER 10000).fset (pgPwm + 15) F.PWM_ACTIVE_CMP 7500

/-- R322: (16384 + 32768) · 10000 / 65536 = 7500. -/
theorem test_periodStart : ∀ dt ∈ [0, 1023], let s := pairUp dt {} pwmIdle
    15 < s.var.pwmPairs ∧ pairScheduled s 15 = true ∧
    gridInstant s (s.fget (pgPwm + 15) F.PWM_SCHED_PHASE) (divSamples (s.fget (pgPwm + 15) F.PWM_SCHED_DIV)) 1020000 = true ∧
    (s.page (pgPwm + 15)).joining = false ∧ s.fget (pgPwm + 15) F.PWM_STAT_STATE = pwmIdle ∧ s.fget (pgPwm + 15) F.PWM_STAT_HOLD = 0 ∧
    s.fbit (pgPwm + 15) F.PG_CTRL_ENABLE = true ∧ (pairGet s 15).stageAt < 1020000 ∧ s.fget (pgPwm + 15) F.PWM_CFG_DT = dt ∧
    leaves (.pwmPeriodStart 15 1020000) s (fun t => t.fget (pgPwm + 15) F.PWM_ACTIVE_CMP == 7500 && t.fget (pgPwm + 15) F.PWM_PER_PER == 10000) = true := by
  decide +kernel

theorem test_compareEdge : ∀ dt ∈ [0, 1023], let s := pairUp dt { start := some 1000000, href := true, dt := dt } pwmRun
    (pairGet s 15).start = some 1000000 ∧ s.fget (pgPwm + 15) F.PWM_STAT_STATE = pwmRun ∧
    hRef false (s.fget (pgPwm + 15) F.PWM_PER_PER) (s.fget (pgPwm + 15) F.PWM_ACTIVE_CMP) ((1015000 - 1000000) / 2) ≠ (pairGet s 15).href ∧
    leaves (.pwmCompareMatch 15 1015000) s (fun t => t.fget (pgPwm + 15) F.PWM_STAT_L_ON == b2n (dt == 0)) = true := by decide +kernel

theorem test_deadTime : ∀ h ∈ [true, false], let s := pairUp 40 { due := some (h, 1000080), href := h } pwmRun
    (pairGet s 15).due = some (h, 1000080) ∧ (pairGet s 15).href = h ∧
    leaves (.deadTimeExpiry 15 1000080) s (fun t => t.fget (pgPwm + 15) F.PWM_STAT_H_ON == b2n h && t.fget (pgPwm + 15) F.PWM_STAT_L_ON == b2n (!h)) = true := by
  decide +kernel

/-- A high side that is on goes off before the low side comes on. -/
theorem test_notBoth : let s := State.fset (pairUp 40 { start := some 1000000, href := true, dt := 40 } pwmRun) (pgPwm + 15) F.PWM_STAT_H_ON 1
    ¬ (s.fbit (pgPwm + 15) F.PWM_STAT_H_ON = true ∧ s.fbit (pgPwm + 15) F.PWM_STAT_L_ON = true) ∧
    leaves (.pwmCompareMatch 15 1015000) s (fun t => !t.fbit (pgPwm + 15) F.PWM_STAT_H_ON && !t.fbit (pgPwm + 15) F.PWM_STAT_L_ON) = true := by
  decide +kernel

/-- Trip input 7 enabled with a filter, holding pair 0; where `on`, active since tick 999 000. -/
def tripUp (filter : Nat) (on : Bool) : State :=
  let s := ((State.fset up pgTrip (F.TRIP_CFG_ENABLE.sh 28) 1).fset pgTrip (F.TRIP_CFG_FILTER.sh 28) filter).fset pgTrip (F.TRIP_CFG_PAIRS.sh 28) 1
  if on then { s.fset pgTrip F.TRIP_STAT_RAW 0x80 with pwm := { tripSince := [(7, 999000)] } } else s

theorem test_trips : up.loop.down = false ∧ asleep up = false ∧
    State.fbit (tripUp 0 false) pgTrip (F.TRIP_CFG_ENABLE.sh (4 * 7)) = true ∧ State.fget (tripUp 0 false) pgTrip (F.TRIP_CFG_FILTER.sh (4 * 7)) = 0 ∧
    natBit (State.fget (tripUp 0 false) pgTrip F.TRIP_STAT_LATCH) 7 = false ∧ State.fget (tripUp 63 false) pgTrip (F.TRIP_CFG_FILTER.sh (4 * 7)) ≠ 0 ∧
    (tripUp 63 true).pwm.tripSince.find? 7 = some 999000 ∧ natBit (State.fget (tripUp 63 true) pgTrip F.TRIP_STAT_RAW) 7 = true ∧
    State.fget (tripUp 63 true) pgTrip (F.TRIP_CFG_FILTER.sh (4 * 7)) = 63 ∧ writable up 0 pgTrip = true ∧
    leaves (.tripInputActive 7 1000000) (tripUp 0 false) (fun t => t.fget pgPwm F.PWM_STAT_STATE == pwmTripped) = true ∧
    leaves (.tripLatchSet 7 1000000) (tripUp 63 true) (fun t => t.fget pgTrip F.TRIP_STAT_LATCH == 0x80) = true ∧
    leaves (.tripForce 0 0x81) up (fun t => t.fget pgTrip F.TRIP_STAT_LATCH == 0x81) = true := by decide +kernel

theorem test_tripClear : let s := State.fset up pgTrip F.TRIP_STAT_LATCH 0x83
    natBit (bitsOf (0x81 : Word) 0 8) 7 = true ∧ natBit (s.fget pgTrip F.TRIP_STAT_LATCH) 7 = true ∧ (0x80 : BitVec 8).getLsbD 7 = true ∧
    s.fbit pgTrip F.PG_ERR0_VALID = false ∧ leaves (.tripClr 0 0x03 0x80) s (fun t => t.fget pgTrip F.TRIP_STAT_LATCH == 0x80) = true := by decide +kernel

/-- Cliff sensor 7 and the watchdog source ask for groups 0xC0 and stop nothing as yet; the first stop is not held. -/
def loupeUp : State := State.setReg ((((State.fset up pgLoupe (F.LOUPE_CLIFF_ENABLE.sh 28) 1).fset pgLoupe (F.LOUPE_CLIFF_GROUPS.sh 28) 0xC0).fset pgLoupe
  (F.LOUPE_CLIFF_WHOLE.sh 28) 0).fset pgLoupe F.LOUPE_LEVEL_SRC 0) pgLoupe F.LOUPE_FIRST_VALID.off 0

theorem test_stops : (21 < 22 ∧ 255 < 256) ∧ State.fbit loupeUp pgLoupe F.LOUPE_FIRST_VALID = false ∧ State.fbit up pgLoupe F.LOUPE_FIRST_VALID = true ∧
    writable up 0 pgLoupe = true ∧ bitsOf (0x5AFE01FF : Word) 16 16 = 0x5AFE ∧ natBit (State.fget loupeUp pgLoupe F.LOUPE_LEVEL_SRC) 7 = false ∧
    (loupeSource loupeUp 7).enabled = true ∧ loupeMasked loupeUp 7 = false ∧ natBit (State.fget (State.fset loupeUp pgLoupe F.LOUPE_LEVEL_SRC 0x2000) pgLoupe
      F.LOUPE_LEVEL_SRC) 13 = true ∧ State.fbit up pgTrip F.TRIP_STAT_DEAD = false ∧ asleep up = false ∧ State.fbit up pgTrip F.PG_ERR0_VALID = false ∧
    (1 : Word).getLsbD 0 = true ∧ up.power.off = false ∧ (∀ i, i < 16 → loupeMasked up i = true → natBit (up.fget pgLoupe F.LOUPE_LEVEL_SRC) i = false) ∧
    leaves (.loupeSourceInactive 13) (State.fset loupeUp pgLoupe F.LOUPE_LEVEL_SRC 0x2000) (fun t => t.fget pgLoupe F.LOUPE_LEVEL_SRC == 0) = true ∧
    leaves (.loupeCauseClr 0 1) up (fun t => t.fget pgLoupe F.LOUPE_CAUSE_SRC == 0) = true ∧
    leaves .vioSafeLoss up (fun t => pwmPin t 0 true == none) = true := by decide +kernel

/-- The first stop is held already, so no time is captured: a request only sets latches. -/
theorem test_stopRequests : let s := State.fset up pgLoupe F.LOUPE_STOP_GROUPS 0x01
    leaves (.loupeReq 0 0x5AFE0080) s (fun t => t.fget pgLoupe F.LOUPE_STOP_GROUPS == s.fget pgLoupe F.LOUPE_STOP_GROUPS ||| 0x80) = true := by decide +kernel

theorem test_alive : let s := { State.fset up pgTrip F.TRIP_STAT_DEAD 1 with loupe := { resetSince := true } }
    s.fbit pgTrip F.TRIP_STAT_DEAD = true ∧ s.loupe.resetSince = true ∧ leaves .loupeAliveRestore s (fun t => !t.fbit pgTrip F.TRIP_STAT_DEAD) = true := by
  decide +kernel

/-- Setup is locked, nothing is active, all groups and WHOLE are latched. -/
def latched : State := (((State.fset loupeUp pgLoupe F.PG_LOCK_LOCK 1).fset pgLoupe F.LOUPE_STOP_GROUPS 0xFF).fset pgLoupe F.LOUPE_STOP_WHOLE 1).fset
  pgLoupe F.LOUPE_WDT_CFG_ENABLE 0

theorem test_clears : writable latched 0 pgLoupe = true ∧ (0x5AFE00FF : Word).getLsbD 8 = false ∧ clearRefusal latched (bitsOf (0x5AFE00FF : Word) 0 8) false = none ∧
    clearRefusal up (bitsOf (0x5AFE01FF : Word) 0 8) ((0x5AFE01FF : Word).getLsbD 8) = some 1 ∧ State.fbit up pgLoupe F.PG_ERR0_VALID = false ∧
    leaves (.loupeClear 0 0x5AFE00FF) latched (fun t => t.fget pgLoupe F.LOUPE_STOP_GROUPS == 0 && t.fget pgLoupe F.LOUPE_STOP_WHOLE == 0) = true ∧
    leaves (.loupeClear 0 0x5AFE000F) latched (fun t => t.fget pgLoupe F.LOUPE_STOP_GROUPS == 0xF0 && t.fget pgLoupe F.LOUPE_STOP_WHOLE == 1) = true := by
  decide +kernel

/-- The watchdog runs, with WIN_MIN 50, and half a feed is in. -/
def watched (half : Bool) : State := { (State.fset up pgLoupe F.LOUPE_WDT_STAT_STATE wdtRunning).fset pgLoupe F.LOUPE_WDT_CFG_WIN_MIN 50 with
  loupe := { feedHalf := half } }

theorem test_watchdog : writable (watched true) 0 pgLoupe = true ∧ (watched false).loupe.feedHalf = false ∧ (watched true).loupe.feedHalf = true ∧
    State.fget (watched true) pgLoupe F.LOUPE_WDT_STAT_STATE = wdtRunning ∧ State.fget (watched true) pgLoupe F.LOUPE_WDT_CFG_WIN_MIN = 50 ∧
    State.fbit (watched true) pgLoupe F.PG_ERR0_VALID = false ∧
    leaves (.loupeWdtFeed 0 0x5A5A 50) (watched true) (fun t => t.fget pgLoupe F.LOUPE_WDT_STAT_STATE == wdtRunning && !t.loupe.feedHalf) = true ∧
    leaves .wdtHalf (watched true) (fun t => t.fget pgLoupe F.LOUPE_WDT_STAT_ELAPSED == 50) = true := by decide +kernel

/-- CRC-8 of R165 worked by hand over bytes 0 to 6. -/
theorem test_spi : spiFrameOk 0x030FFF00000000CF 64 0x03 = true ∧ bitsOf (0x030FFF00000000CF : BitVec 64) 40 16 < 4096 ∧
    spiFrameOk 0x5A000053544F50A3 64 0x5A = true ∧ spiFrameOk 0xC3000000000000A9 64 0xC3 = true ∧ spiFrameOk 0xC3000000000000A9 63 0xC3 = false ∧
    spiFrameOk 0x030FFF00000000CE 64 0x03 = false ∧ spiFrameOk 0x5A000053544F51A3 64 0x5A = false ∧ State.fbit up pgLoupe F.PG_ERR0_VALID = false ∧
    leaves (.spiRead 0x030FFF00000000CF 64) up (fun t => t.loupe.spiOffset == 0xFFF && t.loupe.spiData == 0) = true ∧
    leaves (.spiStop 0x5A000053544F50A3 64) up (fun t => t.fbit pgLoupe F.LOUPE_STOP_SPI_HOLD) = true ∧
    leaves (.spiRelease 0xC3000000000000A9 64) (State.fset up pgLoupe F.LOUPE_STOP_SPI_HOLD 1) (fun t => !t.fbit pgLoupe F.LOUPE_STOP_SPI_HOLD) = true := by
  decide +kernel

/-! ### Plans, loop channels, pulse inputs and tests -/

/-- Device memory is ready, the Plan region holds 4 units, and every position has a tile. -/
def planUp (s : State) : State := (s.fset pgMemc F.MEMC_STAT_INIT_DONE 1).fset pgMemc F.MEMC_PLAN_SIZE_UNITS 4

/-- A job's data, come without poison. -/
def come (d : List Byte) (x : Job) : Job := { x with data := some (.good d []) }

theorem test_mirrorLatch : let s := { up with time := { up.time with plan := some {} } }
    let v := { (State.modPage up pgLoopG fun x => { x with heldWrites := [(F.LOOP_PIN_CFG_MODE.off + 28, 3)] }) with time := { up.time with startTick := 1000000 } }
    s.time.plan = some {} ∧ asleep s = false ∧ (State.page v pgLoopG).heldWrites = [(F.LOOP_PIN_CFG_MODE.off + 4 * 7, 3)] ∧ pageBusy v pgLoopG = false ∧
    v.now = v.time.startTick ∧ bitsOf (3 : Word) 0 2 ≠ v.fget pgLoopG (F.LOOP_PIN_CFG_MODE.sh 28) ∧
    leaves (.inputLatch pgLoopG) v (fun t => t.fget pgLoopG (F.LOOP_PIN_CFG_MODE.sh 28) == 3) = true := by decide +kernel

/-- A PLAN_LOAD of 64 bytes, its data come. -/
def loading : State := withJob (planUp up) 0x20 (put 64 128) (come [1])

theorem test_planLoad : let s := loading
    ((startedJob s 5 0x20).map fun x => (x.data, imagePayloadOk x, decide (payBits x 128 32 ≤ planFree s 33), s.part.resets.find? x.part)) =
      some (some (ReadResult.good [1] []), true, true, none) ∧ memReady s = true ∧ (∀ p, p < s.var.facetExposed → posValid s p = true) ∧ s.facet.leaving = [] ∧
    s.fbit pgFmap F.FMAP_STAT_REMAP_PENDING = false ∧ PlanImage.firstFailed s { workMap := some 1 } = 0 ∧ PlanImage.firstFailed s { period := 1 } ≠ 0 ∧
    leaves (.planLoad 5 { workMap := some 1 }) s (fun t => (jobGet t 5).map (fun x => x.status) == some stOk && t.time.next.isSome) = true ∧
    leaves (.planLoad 5 { period := 1 }) s (fun t => t.fget pgSolv F.SOLV_LOAD_STATUS == 0x0800 && t.time.next == none) = true := by decide +kernel

theorem test_planStop : let s := withJob up 0x21 0
    (startedJob s 5 0x21).isSome = true ∧ s.part.resets.find? 0 = none ∧
    leaves (.planStop 5) s (fun t => t.fget pgSolv F.SOLV_PLAN_STOP == 1) = true := by decide +kernel

theorem test_planEpoch : let s := { up with time := { up.time with next := some { load := some { period := 40000 }, bpn := 4 }, bpn := 4, startTick := 80000, ptb := 80000 } }
    s.time.running = true ∧ planPos s = 0 ∧ s.time.next = some { load := some { period := 40000 }, bpn := 4 } ∧ 4 ≤ s.time.bpn.toNat ∧
    s.facet.loads = [] ∧ s.facet.remaps = [] ∧ s.facet.remapBpn = none ∧ s.fget pgPtb F.PTB_SYNC_CTRL_MODE ≠ 2 := by decide +kernel

/-- Channel 31 of a plan that samples it once a base period at phase 0. -/
def chanUp (f : LoopChan) (enable : Nat) : State :=
  let s := { up with time := { up.time with plan := some {}, copies := [(68, { valid := true })] }, loop := { chans := [(31, f)] } }
  (State.fset s (pgCh + 31) F.CH_SCHED_DIV 1).fset (pgCh + 31) F.PG_CTRL_ENABLE enable

theorem test_sampleInstant : ∀ b ∈ [true, false], let s := chanUp { startDue := b } 1
    chanScheduled s 31 = true ∧ isSampleInstant s 31 1020000 = true ∧ s.fbit (pgCh + 31) F.PG_CTRL_ENABLE = true ∧ s.fbit (pgCh + 31) F.PG_STAT_RESET_BUSY = false ∧
    pageOut s (pgCh + 31) = false ∧ (s.page (pgCh + 31)).joining = false ∧ (chanGet s 31).startDue = b ∧
    leaves (.loopSampleInstant 31 1020000 [7]) s (fun t => (chanGet t 31).sampling.map (·.at_) == some 1020000) = true := by decide +kernel

/-- A sample at the grid instant. -/
def sampled : LoopChan := { sampling := some { at_ := 1020000 } }

theorem test_latches : 31 < up.var.loopChannels ∧ ∀ en ∈ [0, 1], let s := chanUp sampled en
    (chanGet s 31).sampling = some { at_ := 1020000 } ∧ (s.page (pgCh + 31)).heldWrites = [] ∧ pageOut s (pgCh + 31) = false ∧
    (s.fbit (pgCh + 31) F.PG_CTRL_ENABLE = true ↔ en = 1) ∧ s.fbit (pgCh + 31) F.PG_ERR0_VALID = false ∧ chanBlocked s 31 = false ∧
    State.fbit (State.fset s (pgCh + 31) F.CH_CTRL_HOLD 1) (pgCh + 31) F.CH_CTRL_HOLD = true := by decide +kernel

/-- R302: a held sample counts, R304: a disabled channel's is dropped. -/
theorem test_latch : leaves (.loopLatch 31 1020288 .none) (State.fset (chanUp sampled 1) (pgCh + 31) F.CH_CTRL_HOLD 1)
      (fun t => t.fget (pgCh + 31) F.CH_STAT_STATE == chHeld && t.fget (pgCh + 31) F.CH_STAT_SAMPLES == 1) = true ∧
    leaves (.loopLatch 31 1020288 .none) (chanUp sampled 0) (fun t => t.fget (pgCh + 31) F.CH_STAT_SAMPLES == 0 && (chanGet t 31).sampling == none) = true := by
  decide +kernel

/-- A channel that no route blocks: a trip of its pair blocks it. -/
theorem test_blocked : let s := ((chanUp sampled 1).fset (pgCh + 31) F.CH_ROUTE_ROUTE0 15).fset (pgPwm + 15) F.PWM_STAT_STATE pwmTripped
    chanBlocked s 31 = true ∧ s.fbit (pgCh + 31) F.PG_CTRL_ENABLE = true := by decide +kernel

/-- Pulse input 7 in the given MODE. -/
def pinUp (m : Nat) : State := State.fset up pgLoopG (F.LOOP_PIN_CFG_MODE.sh 28) m

theorem test_pins : 7 < up.var.pinInputs ∧ up.loop.down = false ∧ (∀ m, m < 4 → State.fget (pinUp m) pgLoopG (F.LOOP_PIN_CFG_MODE.sh (4 * 7)) = m) ∧
    leaves (.pinEdge 7 true false) (pinUp 3) (fun t => t.fget pgLoopG (F.LOOP_PIN_COUNT_COUNT.sh 28) == 1) = true ∧
    leaves (.pinEdge 7 false true) (pinUp 1) (fun t => t.fget pgLoopG (F.LOOP_PIN_COUNT_COUNT.sh 28) == 0xFFFFFFFF) = true ∧
    leaves (.pinEdge 7 true true) (pinUp 1) (fun t => natBit (t.fget pgLoopG F.LOOP_PIN_ERR_QUAD) 7) = true := by decide +kernel

/-- A CHIRP test of 1 sample on channel 31, which runs. -/
def testing : State := State.fset (withJob up 0x70 (put 31 32 ||| put 1 64 ||| put 1 144)) (pgCh + 31) F.CH_STAT_STATE chRunning

theorem test_tests : let s := testing
    (startedJob s 5 0x70).any (fun x => x.stage == 0 && decide (payBits x 32 5 < s.var.loopChannels) && !loopTestBad x && payBits x 40 3 != 4) = true ∧
    s.loop.test = none ∧ pageOut s (pgCh + 31) = false ∧ s.fget (pgCh + 31) F.CH_STAT_STATE = chRunning ∧
    leaves (.loopTest 5) s (fun t => t.loop.test.map (·.chan) == some 31) = true := by decide +kernel

theorem test_tables : let s := withJob up 0x71 (put 2 128) (come [1, 2, 3, 4])
    let v := withJob up 0x72 (put 0xFFFF 128 ||| put 1 144)
    (startedJob s 5 0x71).any (fun x => payBits x 64 64 % 8 == 0 && x.data == some (ReadResult.good [1, 2, 3, 4] [])) = true ∧ s.loop.test = none ∧
    (startedJob v 5 0x72).any (fun x => payBits x 64 64 % 8 == 0 && payBits x 128 16 + payBits x 144 17 == 65536 && !x.cancel && x.part == 0) = true ∧
    v.qe.dead = false ∧ v.host.bme.get false 0 = true ∧
    leaves (.loopTable 5) s (fun t => t.loop.table.get 0 1 == 0x0403 && t.fget pgLoopG F.LOOP_TABLE_LEN_ENTRIES == 2) = true ∧
    leaves (.loopRead 5 false) v (fun t => t.host.out == [.write 0 0 [0, 0, 0, 0]]) = true := by decide +kernel

/-! ### Tray slots -/

/-- Tile 67 issues Tray 1, with a word in slot `k`; the slots of `done` have acted. -/
def slotUp (k : Nat) (w : DWord) (done : Nat) (f : Tile → Tile := id) : State :=
  let x : Tile := { sram := ({} : Mem).put (16 + k) w false, running := true, next := 1, cycle := 1000, tray := { done := done }
                    regs := { s := [(1, ⟨5, false⟩), (2, ⟨0xFFFFFFFFFFFFFFFD, false⟩)], v := [(31, ⟨7, false⟩)], q := [(1, ⟨0, 1⟩)] } }
  let s := { up with time := { up.time with copies := [(67, { valid := true })] }, facet := { tiles := [(67, f x)] } }
  State.fset s (pgFt + 67) F.FT_PROG_TRAYS 16

/-- A field of a slot word. -/
def bits (v lo : Nat) : DWord := BitVec.ofNat 64 (v * 2 ^ lo)

/-- OP, D = 3, A = 1, B = 2 of a scalar slot. -/
def saWord (op : Nat) : DWord := bits op 56 ||| bits 3 45 ||| bits 1 39 ||| bits 2 33

/-- What one slot operation leaves in register 3: its value and its latency. -/
def scalarLeaves (c : Instr) (s : State) (v : DWord) (lat : Nat) : Bool :=
  leaves c s fun t => (tileGet t 67).results == [{ due := 1000 + lat, issue := 1000, slot := 2, levels := [], writes := [.s 3 ⟨v, false⟩] }]

theorem test_scalarMid : ∀ op ∈ [0x01, 0x02, 0x03, 0x04, 0x05, 0x06, 0x07, 0x08, 0x09, 0x0A, 0x0B, 0x20, 0x21, 0x22, 0x0C, 0x0D, 0x23, 0x24],
    SlotMid (slotUp 2 (saWord op) 1) 67 2 .sa op := by
  unfold SlotMid SlotRuns; decide +kernel

/-- 5 and −3 (R183); 5 SHL 61 loses two bits, and MIN and MAX compare as signed. -/
theorem test_scalars : scalarLeaves (.add 67 2) (slotUp 2 (saWord 0x01) 1) 2 1 = true ∧ scalarLeaves (.sub 67 2) (slotUp 2 (saWord 0x02) 1) 8 1 = true ∧
    scalarLeaves (.and 67 2) (slotUp 2 (saWord 0x03) 1) 5 1 = true ∧ scalarLeaves (.or 67 2) (slotUp 2 (saWord 0x04) 1) 0xFFFFFFFFFFFFFFFD 1 = true ∧
    scalarLeaves (.xor 67 2) (slotUp 2 (saWord 0x05) 1) 0xFFFFFFFFFFFFFFF8 1 = true ∧ scalarLeaves (.shl 67 2) (slotUp 2 (saWord 0x06) 1) 0xA000000000000000 1 = true ∧
    scalarLeaves (.shr 67 2) (slotUp 2 (saWord 0x07) 1) 0 1 = true ∧ scalarLeaves (.sar 67 2) (slotUp 2 (saWord 0x08) 1) 0 1 = true ∧
    scalarLeaves (.mul 67 2) (slotUp 2 (saWord 0x09) 1) 0xFFFFFFFFFFFFFFF1 3 = true ∧ scalarLeaves (.min 67 2) (slotUp 2 (saWord 0x0A) 1) 0xFFFFFFFFFFFFFFFD 1 = true ∧
    scalarLeaves (.max 67 2) (slotUp 2 (saWord 0x0B) 1) 5 1 = true ∧ scalarLeaves (.mov 67 2) (slotUp 2 (saWord 0x0C) 1) 0xFFFFFFFFFFFFFFFD 1 = true ∧
    scalarLeaves (.tickRd 67 2) (slotUp 2 (saWord 0x0D) 1) 800 1 = true := by decide +kernel

/-- OP, D = Q2, A and B of the predicate slot, vector or not. -/
def predWord (op vec a b : Nat) : DWord := bits op 56 ||| bits 2 47 ||| bits vec 46 ||| bits a 40 ||| bits b 34

theorem test_predMid : ∀ op ∈ [0x01, 0x02, 0x03, 0x04, 0x05, 0x06, 0x07, 0x08, 0x10, 0x11, 0x12, 0x13, 0x14], ∀ vec ∈ [0, 1],
    SlotMid (slotUp 1 (predWord op vec 1 2) 1) 67 1 .pred op := by
  unfold SlotMid SlotRuns; decide +kernel

/-- Of scalars, 5 is not less than −3 as signed numbers and is as unsigned ones (R183). -/
theorem test_compares : leaves (.cmpLt 67 1) (slotUp 1 (predWord 0x03 0 1 2) 1) (fun t => (tileGet t 67).results.map (fun r => r.writes.length == 16 &&
      r.writes.all (fun w => w == .q 2 (match w with | .q _ n _ _ => n | _ => 0) false false)) == [true]) = true ∧
    leaves (.cmpLtu 67 1) (slotUp 1 (predWord 0x04 0 1 2) 1) (fun t => (tileGet t 67).results.map (fun r => r.writes.getD 15 (.q 0 0 false false)) ==
      [.q 2 15 true false]) = true := by decide +kernel

theorem test_vectorMid : (∀ op ∈ [0x01, 0x02, 0x03, 0x04, 0x05, 0x10, 0x11, 0x12, 0x13, 0x14, 0x15, 0x16, 0x17, 0x21],
      SlotMid (slotUp 12 (bits op 56 ||| bits 1 25) 1) 67 12 .va op) ∧
    (∀ op ∈ [0x01, 0x02, 0x03, 0x04], SlotMid (slotUp 8 (bits op 56 ||| bits 1 32) 1) 67 8 .mx op) ∧
    (∀ op ∈ [0x01, 0x02, 0x03, 0x04], SlotMid (slotUp 14 (bits op 56) 1) 67 14 .sf op ∧ SlotMid (slotUp 13 (bits op 56 ||| bits 1 32) 1) 67 13 .sf op) := by
  unfold SlotMid SlotRuns; decide +kernel

/-- Lane 15 of V1 holds 7: 7 + 7. -/
theorem test_vectors : leaves (.vaddI 67 12) (slotUp 12 (bits 0x01 56 ||| bits 63 45 ||| bits 1 39 ||| bits 1 33) 1)
      (fun t => (tileGet t 67).results.map (fun r => (r.due, r.writes.getD 15 (.s 0 {}))) == [(1002, .v 63 15 ⟨14, false⟩)]) = true ∧
    leaves (.mxZero 67 8) (slotUp 8 (bits 0x01 56 ||| bits 7 48) 1)
      (fun t => (tileGet t 67).results.map (fun r => (r.due, r.writes.getD 63 (.s 0 {}))) == [(1001, .acc 7 7 7 {})]) = true := by decide +kernel

/-! ### Loads, stores and the mesh -/

/-- OP, V, D = 3, base S1 = 5 and an offset. -/
def lsWord (op vec off : Nat) : DWord := bits op 56 ||| bits vec 44 ||| bits 3 45 ||| bits 1 38 ||| bits off 20

theorem test_loadMid : (∀ vec ∈ [0, 1], ∀ op ∈ [1, 2, 3], SlotMid (slotUp 5 (lsWord op vec 0x803) 1) 67 5 .ls op ∧
      lsAddr (slotCtx (slotUp 5 (lsWord op vec 0x803) 1) 67 5) = (0x808, false) ∧ (slotCtx (slotUp 5 (lsWord op vec 0x803) 1) 67 5).w.getLsbD 44 = decide (vec = 1) ∧
      wordsGood (tileGet (slotUp 5 (lsWord op vec 0x803) 1) 67) (0x808 / 128 * 16) 17 ∧ (slotCtx (slotUp 5 (lsWord op vec 0x803) 1) 67 5).guard 0 = .pass) ∧
    128 * tileTrays (slotUp 5 (lsWord 2 0 0x803) 1) 67 ≤ 0x808 ∧ SlotMid (slotUp 5 0 1) 67 5 .ls 0 := by
  unfold SlotMid SlotRuns wordsGood; decide +kernel

/-- S1 moves past the end of SRAM, and to the program. -/
theorem test_rangeMid : let f := fun (a : DWord) (x : Tile) => { x with regs := { x.regs with s := [(1, ⟨a, false⟩)] } }
    let far := fun op => slotUp 5 (lsWord op 0 0) 1 (f 0x41000)
    let low := slotUp 5 (lsWord 2 0 0) 1 (f 0x7F8)
    SlotMid (far 1) 67 5 .ls 1 ∧ SlotMid (far 2) 67 5 .ls 2 ∧ SlotMid low 67 5 .ls 2 ∧ lsAddr (slotCtx (far 1) 67 5) = (0x41000, false) ∧
    lsAddr (slotCtx (far 2) 67 5) = (0x41000, false) ∧ lsAddr (slotCtx low 67 5) = (0x7F8, false) ∧ 0x7F8 < 128 * tileTrays low 67 ∧
    (slotCtx (far 1) 67 5).guard 0 = .pass ∧ (far 1).fbit (pgFt + 67) F.PG_ERR0_VALID = false := by
  unfold SlotMid SlotRuns; decide +kernel

/-- The last slot of a Tray. -/
def lastUp (k : Nat) (w : DWord) (f : Tile → Tile := id) : State := slotUp k w (natPutBit 0x7FFF k false) f

/-- A datum waits in receive channel 14. -/
def arrived (x : Tile) : Tile := { x with chans := [(14, { lanes := [⟨9, false⟩], cycle := 999 })] }

theorem test_lastSlots : SlotLast (lastUp 5 (lsWord 2 0 0x803)) 67 5 .ls 2 ∧ lsAddr (slotCtx (lastUp 5 (lsWord 2 0 0x803)) 67 5) = (0x808, false) ∧
    (∀ vec ∈ [0, 1], SlotLast (lastUp 6 (bits 1 56 ||| bits vec 44 ||| bits 63 34 ||| bits 14 40)) 67 6 .msend 1 ∧
      ∀ n, n < 16 → (slotCtx (lastUp 6 (bits 1 56 ||| bits vec 44)) 67 6).guard n = .pass) ∧
    (∀ f ∈ [id, arrived], SlotLast (lastUp 7 (bits 1 56 ||| bits 14 40) f) 67 7 .mrecv 1) ∧
    (tileGet (lastUp 7 (bits 1 56 ||| bits 14 40) arrived) 67).chans.find? 14 = some { lanes := [⟨9, false⟩], cycle := 999 } ∧
    (tileGet (lastUp 7 (bits 1 56 ||| bits 14 40)) 67).chans.find? 14 = none ∧ senderLost (lastUp 7 (bits 1 56 ||| bits 14 40)) 67 14 = false ∧
    (lastUp 7 0).fbit (pgFt + 67) F.PG_ERR0_VALID = false := by
  unfold SlotLast SlotRuns; decide +kernel

/-- S3 is 0 where nothing has written it, and the datum waits in the channel (R191). -/
theorem test_mesh : leaves (.st 67 5) (lastUp 5 (bits 2 56 ||| bits 1 45 ||| bits 1 38 ||| bits 0x803 20))
      (fun t => ((tileGet t 67).sram.raw 0x101).1 == 5 && (tileGet t 67).next == 2) = true ∧
    leaves (.recv 67 7) (lastUp 7 (bits 1 56 ||| bits 14 40 ||| bits 3 45) arrived)
      (fun t => (tileGet t 67).results.map (·.writes) == [[.s 3 ⟨9, false⟩]] && (tileGet t 67).chans == []) = true ∧
    leaves (.send 67 6) (lastUp 6 (bits 1 56 ||| bits 63 34 ||| bits 14 40 ||| bits 1 45))
      (fun t => t.facet.mesh.map (fun m => (m.pos, m.chan)) == [(63, 14)]) = true := by decide +kernel

/-! ### The BR slot -/

/-- OP, TARGET 5, K 1, COUNT 65 535 and a guard Q. -/
def brWord (op g n : Nat) : DWord := bits op 56 ||| bits g 52 ||| bits n 51 ||| bits 5 35 ||| bits 1 33 ||| bits 0xFFFF 17

def specUp (x : Tile) : Tile := { x with levels := [{ id := 4 }], ssb := [⟨0x200, {}, some 4⟩] }

theorem test_brLast : (∀ op ∈ [0x01, 0x02, 0x03, 0x04, 0x10], SlotLast (lastUp 0 (brWord op 0 0)) 67 0 .br op ∧ (slotCtx (lastUp 0 (brWord op 0 0)) 67 0).guard 0 = .pass) ∧
    (∀ op ∈ [0x11, 0x12], SlotLast (lastUp 0 (brWord op 0 0) specUp) 67 0 .br op ∧ (slotCtx (lastUp 0 (brWord op 0 0)) 67 0).guard 0 = .pass) ∧
    SlotLast (lastUp 0 (brWord 1 0 1)) 67 0 .br 1 ∧ (slotCtx (lastUp 0 (brWord 1 0 1)) 67 0).guard 0 = .fail ∧
    SlotLast (lastUp 0 (brWord 1 1 0)) 67 0 .br 1 ∧ (slotCtx (lastUp 0 (brWord 1 1 0)) 67 0).guard 0 = .poisoned := by
  unfold SlotLast SlotRuns; decide +kernel

theorem test_branches : leaves (.br 67 0) (lastUp 0 (brWord 1 0 0)) (fun t => (tileGet t 67).delay == 5 && (tileGet t 67).target == some 5 && (tileGet t 67).next == 2) = true ∧
    leaves (.loopSet 67 0) (lastUp 0 (brWord 2 0 0)) (fun t => (tileGet t 67).regs.l.get {} 1 == { left := 0xFFFF, first := 2, last := 5 }) = true ∧
    leaves (.halt 67 0) (lastUp 0 (brWord 4 0 0)) (fun t => !(tileGet t 67).running && !(tileGet t 67).halted) = true ∧
    leaves (.specCommit 67 0) (lastUp 0 (brWord 0x11 0 0) specUp) (fun t => (tileGet t 67).ssb == [⟨0x200, {}, none⟩]) = true ∧
    leaves (.specSquash 67 0) (lastUp 0 (brWord 0x12 0 0) specUp) (fun t => (tileGet t 67).ssb == [] && (tileGet t 67).next == 5 && (tileGet t 67).cycle == 1006) = true ∧
    leaves (.br 67 0) (lastUp 0 (brWord 1 1 0)) (fun t => (tileGet t 67).haltCode == 0x0602) = true := by decide +kernel

/-! ### Programs, results and the diagnostic port -/

/-- Tile 63 has position 63 in a plan, whose program starts at Tray 1, 4 ticks into the base period. -/
def progUp (f : Tile → Tile := id) : State :=
  let s := { up with time := { up.time with copies := [(63, { valid := true })], plan := some { tiles := [{ pos := 63, startTray := 1, startTick := 4, ports := [(511, 8191)] }] } }
                     facet := { tiles := [(63, f {})] } }
  State.fset s (pgFt + 63) F.FT_PROG_TRAYS 16

theorem test_programStart : let s := progUp
    let e : PlanTile := { pos := 63, startTray := 1, startTick := 4, ports := [(511, 8191)] }
    tilePos s 63 = some 63 ∧ planTile s 63 = some e ∧ (s.time.copies.get {} 63).valid = true ∧
    1020004 % 4 = 0 ∧ s.time.epochTick ≤ 1020004 ∧ (1020004 - s.time.epochTick) % s.time.period = e.startTick ∧ e.startTray < tileTrays s 63 ∧
    s.fbit (pgFt + 63) F.PG_STAT_OUT_OF_SERVICE = false ∧
    leaves (.programStart 63 1020004) s (fun t => (tileGet t 63).running && (tileGet t 63).cycle == 1275005) = true := by decide +kernel

theorem test_waitResume : let s := progUp fun x => { x with wait := some 1020004, running := true }
    (tileGet s 63).wait = some 1020004 ∧ (tileGet s 63).running = true ∧ (s.time.copies.get {} 63).valid = true ∧
    leaves (.waitBpResume 63) s (fun t => (tileGet t 63).cycle == 1275005) = true := by decide +kernel

theorem test_arrivals : let s := { progUp with facet := { progUp.facet with mesh := [{ pos := 63, chan := 15, lanes := [] }] } }
    let v := { s with facet := { s.facet with tiles := [(63, { chans := [(15, {})] })] } }
    s.facet.mesh[0]? = some { pos := 63, chan := 15, lanes := [] } ∧ posTile s 63 = some 63 ∧ (tileGet s 63).chans.find? 15 = none ∧
    posTile v 63 = some 63 ∧ ((tileGet v 63).chans.find? 15).isSome = true ∧ v.fbit (pgFt + 63) F.PG_ERR0_VALID = false ∧
    leaves (.meshDatumArrive 0 1000000) s (fun t => t.facet.mesh == [] && ((tileGet t 63).chans.find? 15).isSome) = true := by decide +kernel

theorem test_results : let r : Result := { due := 5, issue := 3, slot := 2, levels := [4], writes := [.s 63 ⟨9, false⟩] }
    let s := progUp fun x => { x with cycle := 5, results := [r], levels := [{ id := 4 }, { id := 5 }] }
    (tileGet s 63).results = r :: [] ∧ r.due ≤ (tileGet s 63).cycle ∧
    leaves (.resultWriteback 63) s (fun t => (tileGet t 63).regs.sGet 63 == ⟨9, false⟩ && (tileGet t 63).levels.map (·.bank.s.length) == [0, 1]) = true := by
  decide +kernel

theorem test_drains : let e : SsbEntry := ⟨0x7FFF, ⟨9, false⟩, none⟩
    let r : SsbEntry := ⟨portWord + 511, ⟨9, false⟩, none⟩
    (tileGet (progUp fun x => { x with ssb := [e] }) 63).ssb = [e] ∧ e.word < portWord ∧ portReg progUp 63 511 = some 8191 ∧
    leaves (.ssbDrain 63) (progUp fun x => { x with ssb := [e] }) (fun t => ((tileGet t 63).sram.raw 0x7FFF).1 == 9) = true ∧
    leaves (.ssbDrain 63) (progUp fun x => { x with ssb := [r] }) (fun t => t.time.crossings == [(8191, { val := 9 })]) = true := by decide +kernel

/-- SLOT_NOP where the Tray's BR slot holds OP 05H. -/
theorem test_badTray : let s := slotUp 0 (bits 5 56) 0
    issuing s 67 = true ∧ (tileGet s 67).tray = {} ∧ s.fbit (pgFt + 67) F.PG_ERR0_VALID = false ∧ issueCheck s 67 (fetchTray (tileGet s 67) 67 1) = 1 ∧
    leaves (.slotNop 67 14) s (fun t => (tileGet t 67).halted && t.reg (pgFt + 67) F.PG_ERR3.off == 0x10001) = true := by decide +kernel

theorem test_diag : let s := progUp
    let q := State.fset { up with facet := {} } (pgFt + 67) F.FT_DIAG_ADDR_WORD 0x7FFF
    up.host.crs = false ∧ viewOf s 0 (pgFt + 63) = .full ∧ diagRefused s 63 = true ∧ s.fbit (pgFt + 63) F.PG_ERR0_VALID = false ∧ writable s 0 (pgFt + 63) = true ∧
    diagRefused q 67 = false ∧ (tileGet q 67).sram.cls 0x7FFF = .clean ∧ writable q 0 (pgFt + 67) = true ∧ 67 < q.var.facetTiles ∧
    leaves (.ftDiagRead 0 67) q (fun t => t.host.out.head? == some (.readData 0 0)) = true ∧
    leaves (.ftDiagWrite 0 67 9) q (fun t => ((tileGet t 67).sram.raw 0x7FFF).1 == 0x900000000) = true := by decide +kernel

/-! ### Remaps -/

/-- The plan in force, and a second state with no spare in service. -/
theorem test_tileFails : let s := up
    let v := { up with time := { up.time with plan := some {} } }
    let n := eachIn (List.range 4) (fun s k => State.fset s (pgFt + 64 + k) F.FT_ROLE_ROLE roleRetired) v
    63 < s.var.facetTiles ∧ tilePos s 63 = some 63 ∧ s.fbit (pgFt + 63) F.PG_ERR0_VALID = false ∧ s.time.plan = none ∧ v.time.plan.isSome = true ∧
    lowestSpare v = some 64 ∧ lowestSpare n = none ∧ n.time.plan.isSome = true ∧ tilePos n 63 = some 63 ∧
    s.fbit pgFmap F.PG_ERR0_VALID = false ∧ (s.facet.loads ++ s.facet.remaps).any (fun r => r.pos = 63) = false := by decide +kernel

theorem test_spareLoads : let s := { State.fset up (pgFt + 64) F.FT_ROLE_ROLE roleLoading with facet := { loads := [{ pos := 63, spare := 64, since := 999990 }] } }
    s.facet.loads = [{ pos := 63, spare := 64, since := 999990 }] ∧ 1000000 ≤ 999990 + spareLoadBound s ∧ s.time.running = true ∧ s.now ≤ 1000000 ∧
    s.time.next = none ∧ s.facet.remaps = [] ∧ tileRole s 64 = roleLoading ∧ lowestSpare s = some 65 ∧ s.fbit pgFmap F.PG_ERR0_VALID = false ∧
    leaves (.spareLoadDone 64 1000000) s (fun t => t.fget pgFmap F.FMAP_STAT_EPOCH_FIXED == 1 && t.facet.loads == []) = true := by decide +kernel

/-! ### The solver -/

/-- The header of a good image of METHOD 1 with CHECK_EVERY 4 and N_MAX 4, one tile, one parameter and DELTA_MAX 1, whose constants are 1.0 in
FX45; with the number of measured parameters and the run-ahead mode. -/
def header (meas ahead : Nat) : Nat :=
  let one : Nat := 0x7F000000000
  1 + ahead * 2 ^ 4 + 4 * 2 ^ 8 + 4 * 2 ^ 16 + meas * 2 ^ 56 + 2 ^ 64 + 2 ^ 128 + 2 ^ 185 + 2 ^ 198 + 64 * 2 ^ 256 + 48 * 2 ^ 272 + 18 * 2 ^ 288
    + ([320, 384, 448, 512, 576, 640, 704, 768, 832].map fun k => one * 2 ^ k).sum

def imageOf (meas ahead : Nat) : Simg := { header := BitVec.ofNat 1024 (header meas ahead), meas := [0], weights := [0x7F000000000], bytes := 384 }

/-- The bytes of the header. -/
def imageBytes : List Byte := (List.range 128).map fun i => BitVec.ofNat 8 (header 0 0 / 2 ^ (8 * i))

def simgLoading (d : List Byte) : State := withJob (planUp up) 0x22 (put 31 32 ||| put 384 128) (come d)

theorem test_simgLoad : let s := simgLoading imageBytes
    let m := simgOf imageBytes {} 384
    memReady s = true ∧ (startedJob s 5 0x22).any (fun x => imagePayloadOk x && payBits x 32 5 == 31) = true ∧ slotBusy s 31 = false ∧
    simgCheck s m = 0 ∧ m.bytes ≤ planFree s 31 ∧ simgCheck s (simgOf [] {} 384) ≠ 0 ∧ s.part.resets.find? 0 = none ∧
    leaves (.simgLoad 5 {}) s (fun t => (slotGet t 31).image == some m && t.fget pgSolv (F.SOLV_SLOT0_METHOD.sh (16 * 31)) == 1) = true ∧
    leaves (.simgLoad 5 {}) (simgLoading []) (fun t => t.fget pgSolv F.SOLV_LOAD_STATUS == 0x0801) = true := by decide +kernel

/-- A slot with its image and, where a plan binds it, its binding: KIND, START 1 024, RECUR 1, SPAN 512 and MIRROR_OFF 4. -/
def slotted (k kind : Nat) (bound : Bool) (m : Simg) (f : SolvSlot → SolvSlot) (s : State) : State :=
  let b : BitVec 256 := BitVec.ofNat 256 (k + kind * 2 ^ 5 + 30 * 2 ^ 16 + 1024 * 2 ^ 32 + 2 ^ 64 + 512 * 2 ^ 80 + 4 * 2 ^ 112 + 2 ^ 128)
  { s with solver := { slots := [(k, f { image := some m })] }, time := { s.time with plan := if bound then some { bindings := [b] } else none } }

theorem test_simgFree : let s := slotted 31 0 false (imageOf 0 0) id (withJob up 0x23 (put 31 32))
    (startedJob s 5 0x23).any (fun x => payBits x 32 5 == 31) = true ∧ slotBusy s 31 = false ∧ (slotGet s 31).image.isSome = true ∧
    leaves (.simgFree 5) s (fun t => slotGet t 31 == {}) = true := by decide +kernel

theorem test_solverJobs : let m := imageOf 0 0
    let s := fun op => slotted 31 1 true m id (withJob up op (put 31 32 ||| put 1 48) (come (List.replicate 16 0)))
    (binding (s 0x80) 31).isSome = true ∧ deltaPairs (List.replicate 16 0) 1 = [(0, 0)] ∧ 1 ≤ m.deltaMax ∧ 0 < m.nparam ∧ m.method ≠ 2 ∧
    (startedJob (s 0x80) 5 0x80).any (fun x => x.stage == 0 && payBits x 48 13 == 1 && payBits x 64 3 == 0 && !x.cancel) = true ∧
    (startedJob (s 0x81) 5 0x81).isSome = true ∧
    leaves (.solvDelta 5) (s 0x80) (fun t => (slotGet t 31).staged == [{ job := 5, pairs := [(0, 0)], tick := 1000000 }]) = true ∧
    leaves (.solvGuess 5) (s 0x81) (fun t => (slotGet t 31).guess.isSome && (jobGet t 5).map (·.status) == some stOk) = true := by decide +kernel

theorem test_readRun : let m := imageOf 0 0
    let s := fun op kind (f : SolvSlot → SolvSlot) (stage : Nat) => slotted 31 kind true m f (withJob up op (put 31 32) fun x => { x with stage := stage })
    let done := fun (y : SolvSlot) => { y with run := some 5, ranOut := true, solve := some { finished := true, iter := 4 } }
    (binding (s 0x82 1 id 0) 31).map bKind = some 1 ∧ (startedJob (s 0x83 0 id 0) 5 0x83).isSome = true ∧
    (startedJob (s 0x82 1 id 0) 5 0x82).any (fun x => x.stage == 0 && payBits x 64 3 == 0) = true ∧
    (startedJob (s 0x82 1 done 100) 5 0x82).any (fun x => x.stage == 100 && !x.cancel) = true ∧ up.qe.dead = false ∧ up.host.bme.get false 0 = true ∧
    leaves (.solvRun 5) (s 0x82 1 id 0) (fun t => (slotGet t 31).run == some 5) = true ∧
    leaves (.solvRun 5) (s 0x82 1 done 100) (fun t => (jobGet t 5).map (fun x => (x.status, x.result)) == some (primaryStatus 0 0, 4)) = true ∧
    leaves (.solvRead 5) (s 0x83 0 id 0) (fun t => t.host.out == [.write 0 0 (List.replicate 8 0)]) = true := by decide +kernel

theorem test_forceCold : writable up 0 pgSolv = true ∧
    leaves (.solvForceCold 0 1) up (fun t => (t.page pgSolv).heldWrites == [(F.SOLV_CTRL_FORCE_COLD.off, 3)]) = true := by decide +kernel

/-- A solve of slot 31 with one measured parameter where `meas` is 1, whose start is at 1 021 024; reports have come at the current tick. -/
def solving (meas ahead : Nat) (v : Solve) (f : SolvSlot → SolvSlot) (reports : List Nat) : State :=
  let s := slotted 31 0 true (imageOf meas ahead) (fun y => f { y with solve := some { v with start := 1021024, bpn := 51 } }) up
  { s with solver := { s.solver with reports := (List.range reports.length).map fun i => (reports.getD i 0, ({ val := if i = 1 ∨ i = 3 then 0x7F000000000 else 0 }, 1000000)) } }

/-- R246: (1 021 024 − 1 024) / 20 000 = 51. -/
theorem test_deltaTick : let s := slotted 31 0 true (imageOf 0 0) id up
    let v := slotted 31 0 true (imageOf 0 0) (fun y => { y with staged := [{ job := 5, pairs := [(0, 7)], tick := 1000000 }] }) (withJob up 0x80 (put 31 32 ||| put 1 48))
    (∃ b, binding s 31 = some b ∧ solveStart s b 1021024 = some 51) ∧ (slotGet s 31).solve = none ∧ (imageOf 0 0).deltaMax + 32 ≤ 1021024 ∧
    (slotGet s 31).staged = [] ∧ (slotGet v 31).staged = [{ job := 5, pairs := [(0, 7)], tick := 1000000 }] ∧
    (startedJob v 5 0x80).any (fun x => !x.cancel && x.part == 0) = true ∧ 1000000 < 1021024 - ((imageOf 0 0).deltaMax + 32) ∧
    leaves (.deltaTick 31 1021024) s (fun t => (slotGet t 31).solve.map (·.bpn) == some 51) = true ∧
    leaves (.deltaTick 31 1021024) v (fun t => (slotGet t 31).solve.map (·.host) == some [(0, 7)] && (jobGet t 5).map (·.result) == some 51) = true := by
  refine ⟨⟨_, rfl, ?_⟩, ?_⟩ <;> decide +kernel

theorem test_windowTest : let s := solving 0 0 {} id []
    let v := solving 1 1 {} (fun y => { y with ahead := true, warm := true }) [64 * 30 + 48, 64 * 31 + 32]
    (∃ b, binding s 31 = some b ∧ runsAhead (slotGet s 31) (imageOf 0 0) b = false) ∧
    (∃ b, binding v 31 = some b ∧ runsAhead (slotGet v 31) (imageOf 1 1) b = true ∧ (readReport v (bMeas b) 3 1).isSome = true) ∧
    (readReport v 31 2 1).isSome = true ∧ (imageOf 1 1).measLen = 1 ∧
    leaves (.windowTest 31) s (fun t => (slotGet t 31).solve.map (·.tested) == some true) = true ∧
    leaves (.windowTest 31) v (fun t => (slotGet t 31).solve.map (·.verdict.isSome) == some true) = true := by
  refine ⟨⟨_, rfl, ?_⟩, ⟨_, rfl, ?_⟩, ?_⟩ <;> decide +kernel

theorem test_verdictSend : let s := solving 0 0 { tested := true, host := [(0, 7)], pairs := 1 } id []
    (slotGet s 31).solve = some { tested := true, host := [(0, 7)], pairs := 1, start := 1021024, bpn := 51 } ∧ (imageOf 0 0).measLen = 0 ∧
    (slotGet s 31).forceCold = false ∧ (slotGet s 31).run = none ∧
    leaves (.verdictSend 31) s (fun t => (slotGet t 31).params.get 0 0 == 7 && (slotGet t 31).solve.map (fun v => (v.sent, v.cold, v.capC)) == some (true, true, 16) &&
      t.facet.mesh.length == 1) = true := by decide +kernel

/-- Residual lanes 0 and 2 are 0 and their tolerances 1.0; the second state has lost the tile of the group. -/
theorem test_solveCheck : let s := solving 0 0 { sent := true } id ((List.range 13).map fun i => 64 * 31 + i)
    let v := { s with time := { s.time with lost := [0] } }
    (imageOf 0 0).every ≠ 0 ∧ (groupTrouble s (imageOf 0 0)).1 = 0 ∧
    (goodLanes (readReport s 31 0 13)).any (fun r => !isNumeric r && fxLe (r.getD 0 0) (r.getD 1 0) && fxLe (r.getD 2 0) (r.getD 3 0) && r.getD 8 0 == 0) = true ∧
    (groupTrouble v (imageOf 0 0)).1 ≠ 0 ∧
    leaves (.solveCheck 31) s (fun t => (slotGet t 31).solve.map (fun v => (v.stopped, v.conds)) == some (true, 0)) = true ∧
    leaves (.solveCheck 31) v (fun t => (slotGet t 31).solve.map (fun v => (v.stopped, v.conds)) == some (true, 2 ^ 9)) = true := by decide +kernel

theorem test_deadline : ∀ stopped ∈ [true, false], let s := solving 0 0 { sent := true, stopped := stopped, iter := 4 } id []
    (groupTrouble s (imageOf 0 0)).1 = 0 ∧ (slotGet s 31).pivoted = false ∧ (0 ||| if stopped then 0 else 2 ^ 3) &&& (0x3F0 ||| (imageOf 0 0).fbMask) = 0 ∧
    leaves (.solveDeadline 31) s (fun t => (slotGet t 31).solve.map (fun v => (v.finished, v.conds)) == some (true, if stopped then 0 else 8) && (slotGet t 31).warm) = true := by
  decide +kernel

/-! ### CriskaLink: ports -/

/-- Port 7 in a state of Table 11.9, enabled or not, with sync or not. -/
def link (st : Nat) (f : LinkPort → LinkPort := id) (enable : Nat := 1) (sync : Nat := 1) (s : State := up) : State :=
  let s := { s with clnk := { ports := [(7, f {})] } }
  ((State.fset s (pgClnk + 7) F.LNK_STAT_STATE st).fset (pgClnk + 7) F.PG_CTRL_ENABLE enable).fset (pgClnk + 7) F.LNK_STAT_SYNC sync

theorem test_linkStates : (∀ st, st < 7 → portDead (link st) 7 = false ∧ linkState (link st) 7 = st ∧ portHears (link st) 7 = true) ∧
    State.fbit (link lkDetect) (pgClnk + 7) F.LNK_STAT_PRES = false ∧ State.fbit (link lkDetect id 0) (pgClnk + 7) F.PG_CTRL_ENABLE = false ∧
    State.fbit (link lkDetect) (pgClnk + 7) F.PG_CTRL_ENABLE = true ∧ State.fbit (link lkDetect id 1 0) (pgClnk + 7) F.LNK_STAT_SYNC = false ∧
    State.fbit (link lkSync) (pgClnk + 7) F.PG_ERR0_VALID = false ∧ writable (link lkUp) 0 (pgClnk + 7) = true := by decide +kernel

/-- R367: the timers of a limb plugged in, and a limb gone. -/
theorem test_plugging : leaves (.presNLow 7) (link lkDown) (fun t => linkState t 7 == lkDetect && (portGet t 7).plugAt == some 1000000) = true ∧
    leaves (.presNHigh 7) (link lkUp) (fun t => linkState t 7 == lkUp && (portGet t 7).unplugAt == some 1000000) = true ∧
    leaves (.presNHigh 7) (link lkDetect) (fun t => linkState t 7 == lkDown) = true ∧
    leaves (.tPlugExpiry 7) (link lkDetect (fun x => { x with plugAt := some 1000000, presN := false }) 1 0)
      (fun t => linkState t 7 == lkSync && t.fbit (pgClnk + 7) F.LNK_STAT_PRES) = true ∧
    leaves (.tPlugExpiry 7) (link lkDetect (fun x => { x with plugAt := some 1000000, presN := false }) 0 0)
      (fun t => linkState t 7 == lkDetect) = true ∧
    leaves (.tUnplugExpiry 7) (link lkUp fun x => { x with unplugAt := some 1000000, presN := true, current := some 0xFFFE })
      (fun t => linkState t 7 == lkDown && t.fget (pgClnk + 7) F.LNK_CAUSE_CAUSE == 1 && t.fget (pgClnk + 7) F.LNK_CAUSE_EPOCH == 0xFFFE) = true ∧
    leaves (.tBackoffExpiry 7) (link lkBackoff (fun x => { x with backoffAt := some 1000000 }) 1 0) (fun t => linkState t 7 == lkSync) = true := by decide +kernel

/-- R371: the states of an enumeration; a record is accepted whose major is 1, LAT 1, RATE 1 and CLASS 1. -/
def record : BitVec 512 := BitVec.ofNat 512 (1 + 2 ^ 8 + 2 ^ 96 + 2 ^ 144 + 2 ^ 192)

theorem test_enumeration : (portGet (link lkEnum fun x => { x with enumAt := some 1, assigns := 2 }) 7).assigns < 3 ∧
    capsReason (link lkEnum) 7 record = 0 ∧ capsReason (link lkEnum) 7 0 = 1 ∧
    leaves (.rxSyncAcquired 7) (link lkSync id 1 0) (fun t => linkState t 7 == lkEnum && (portGet t 7).enumE == some 1) = true ∧
    leaves (.tEnumExpiry 7) (link lkEnum fun x => { x with enumAt := some 1, assigns := 2 }) (fun t => (portGet t 7).assigns == 3) = true ∧
    leaves (.rxSyncLost 7) (link lkUp fun x => { x with current := some 5 }) (fun t => linkState t 7 == lkSync && t.fget (pgClnk + 7) F.LNK_CAUSE_CAUSE == 2) = true ∧
    leaves (.announce 7) (link lkUp fun x => { x with current := some 0xFFFE, counter := 0xFFFE }) (fun t => linkState t 7 == lkEnum && (portGet t 7).counter == 1) = true ∧
    leaves (.relink 0 7 3) (link lkUp fun x => { x with current := some 5 }) (fun t => linkState t 7 == lkEnum && t.fget (pgClnk + 7) F.LNK_CAUSE_CAUSE == 5) = true ∧
    leaves (.caps 7 5 record) (link lkEnum fun x => { x with enumE := some 5 }) (fun t => (portGet t 7).current == some 5 && (portGet t 7).reject == 0) = true ∧
    leaves (.ready 7 5) (link lkEnum fun x => { x with current := some 5 }) (fun t => linkState t 7 == lkUp) = true ∧
    leaves (.ready 7 5) (link lkEnum fun x => { x with current := some 5, reject := 2 }) (fun t => linkState t 7 == lkMbxOnly) = true := by decide +kernel

theorem test_discards : rxCheck (link lkUp) 7 { codeErr := true } = some 1 ∧ rxCheck (link lkUp) 7 {} = some 2 ∧ portHears (link lkUp) 7 = true ∧
    leaves (.rxFrameDiscarded 7 { codeErr := true }) (link lkUp) (fun t => t.fget (pgClnk + 7) (linkCntF 1) == 1) = true ∧
    leaves (.rxFrameDiscarded 7 { abandoned := true }) (link lkUp) (fun t => t.fget (pgClnk + 7) (linkCntF 6) == 1) = true := by decide +kernel

/-! ### CriskaLink: slots and halts -/

/-- An entry at START 4 096 with CLOSE 8 192 in every base period: TX of buffer 0, or RX to tile 63, channel 14. -/
def entry (tx : Nat) : BitVec 128 := BitVec.ofNat 128 (4096 + tx * 2 ^ 20 + 2 ^ 21 + 8192 * 2 ^ 32 + 2 ^ 52 + if tx = 1 then 2 ^ 68 else 63 * 2 ^ 64 + 14 * 2 ^ 70)

/-- Port 7 in UP under a plan that gives it the entry as entry 15. -/
def slots (tx : Nat) (f : LinkPort → LinkPort := id) : State :=
  link lkUp (fun x => f { x with current := some 5, tx := true, caps := some (BitVec.ofNat 512 (2 ^ 112)) }) 1 1
    { up with time := { up.time with copies := [(69, { valid := true })], plan := some { slotTables := List.replicate 7 [] ++ [List.replicate 15 0 ++ [entry tx]] } } }

theorem test_slots : (∀ tx ∈ [0, 1], dueEntry (slots tx) 7 15 1004096 (decide (tx = 1)) = some (entry tx) ∧ halting (portGet (slots tx) 7) = false ∧
      (portGet (slots tx) 7).tx = true ∧ (portGet (slots tx) 7).sending = none ∧ slotHalt (slots tx) 7 1004096 = none) ∧
    leaves (.txSlotStart 7 15 1004096) (slots 1) (fun t => (portGet t 7).sent.map (fun f => (f.frame.typ, f.frame.data.length, f.start)) == [(2, 16, 1004096)]) = true ∧
    leaves (.rxSlotOpen 7 15 1004096) (slots 0) (fun t => (portGet t 7).wins.map (fun w => (w.chan, w.closeAt)) == [(some 15, 1008192)]) = true := by
  decide +kernel

def window (kept : Option (Nat × List Byte)) : RxWindow :=
  { entry := 15, bits := entry 0, openAt := 1004096, closeAt := 1008192, chan := some 15, cycle := 50, epoch := some 5, kept := kept }

/-- R379: the last tick that is in time. -/
theorem test_cycUp : let s := slots 0 fun x => { x with wins := [window none] }
    portHears s 7 = true ∧ (portGet s 7).current = some 5 ∧ bitsOf ((portGet s 7).caps.getD 0) 112 16 = 1 ∧ copyTick s 69 1008128 + 64 ≤ 1008192 ∧
    (window none).openAt ≤ copyTick s 69 1008128 ∧
    leaves (.cycUp 7 5 15 50 3 [9] 1008128) s (fun t => (portGet t 7).wins == [window (some (3, [9]))]) = true := by decide +kernel

theorem test_slotClose : let s := slots 0 fun x => { x with wins := [window (some (3, [9]))] }
    let v := State.fset (slots 0 fun x => { x with wins := [window none] }) (pgClnk + 7) F.LNK_MISS_LIMIT 0
    (window none).closeAt = copyTick s 69 1008192 ∧ slotEngine s = true ∧ seTwo (entry 0) = false ∧ windowResult s 7 (window (some (3, [9]))) = 0 ∧
    v.fget (pgClnk + 7) F.LNK_MISS_LIMIT = 0 ∧ windowResult v 7 (window none) = 1 ∧
    leaves (.rxSlotClose 7 15 1008192) s (fun t => t.facet.mesh.map (fun m => (m.pos, m.chan)) == [(63, 14)] && t.reg (pgClnk + 7) (F.LNK_RXST.off + 120) == 0x000500C0) = true ∧
    leaves (.rxSlotClose 7 15 1008192) v (fun t => (portGet t 7).misses.get 0 15 == 1) = true := by decide +kernel

theorem test_halts : let s := State.fset (link lkUp) pgLoupe F.LOUPE_STOP_WHOLE 1
    let v := (State.fset (link lkUp fun x => { x with loupe := true }) pgLoupe F.LOUPE_STOP_WHOLE 0).fset pgLoupe F.LOUPE_STOP_GROUPS 0
    portBuilt s 7 = true ∧ islandsUp s = true ∧ portHaltWanted s 7 = true ∧ loupeDead s = false ∧ halting (portGet s 7) = false ∧ haltTickOk s 7 1000928 = true ∧
    linkState s 7 ≠ lkOut ∧ s.clnk.hold = none ∧ (portGet s 7).sending = none ∧
    halting (portGet v 7) = true ∧ portHaltWanted v 7 = false ∧ loupeDead v = false ∧
    leaves (.haltRequest 7 1000928) s (fun t => (portGet t 7).sent.map (fun f => f.frame.typ) == [0xF] && t.fbit (pgClnk + 7) F.LNK_STAT_HALTING) = true ∧
    leaves (.haltWithdraw 7) v (fun t => !halting (portGet t 7) && (portGet t 7).haltOff == some 1000000) = true := by decide +kernel

theorem test_gaps : let f : LinkFrame := { typ := 5, chan := 2, epoch := 1 }
    let s := link lkEnum fun x => { x with tx := true, enumFrame := some f }
    portDead s 7 = false ∧ halting (portGet s 7) = false ∧ (portGet s 7).tx = true ∧ (nextFrame s 7).isSome = true ∧ linkFree s 7 ≤ 1000000 ∧
    gridUp s 1000000 = 1000000 ∧ s.now ≤ 1000000 ∧ fitsGap s 7 1000000 (linkTicks f) = true ∧
    leaves (.mbxFrameSend 7 1000000) s (fun t => (portGet t 7).enumFrame == none && (portGet t 7).enumAt == some 1000000) = true := by decide +kernel

/-- A fragment that has not been sent, and an ACK that is due. -/
theorem test_gapKinds : let s := link lkUp fun x => { x with tx := true, caps := some record, chans := [(7, { state := .opened, sid := 1, wl := 1, frags := [{ job := 5, first := true, last := true, data := [1] }] })] }
    let v := link lkUp fun x => { x with tx := true, chans := [(7, { state := .opened, sid := 1, ackDue := true })] }
    (nextFrame s 7).map (·.1) = some (.frag 7 0 true) ∧ (nextFrame v 7).map (·.1) = some (.ack 7) ∧
    leaves (.mbxFrameSend 7 1000000) v (fun t => !(sessGet t 7 7).ackDue) = true := by decide +kernel

theorem test_islandReset : let s := { link lkUp with clnk := { (link lkUp).clnk with resetting := some 1000000 } }
    let v := { up with clnk := { hold := some 1025600 } }
    s.clnk.resetting = some 1000000 ∧ v.clnk.hold = some 1025600 ∧ v.now < 1025600 ∧ v.time.running = true ∧
    leaves .clnkIslandReset s (fun t => t.clnk.hold == some 1027400 || t.clnk.hold == some 1025600) = true ∧
    leaves .clnkIdleHoldEnd v (fun t => t.now == 1025600 && t.clnk.hold == none) = true := by decide +kernel

/-! ### Mailbox sessions -/

/-- A record that serves channel 7 with WINDOW 16, of vendor 1234H and product 5678H, with firmware updates. -/
def mbxRecord : BitVec 512 := BitVec.ofNat 512 (1 + 2 ^ 8 + 0x1234 * 2 ^ 16 + 0x5678 * 2 ^ 32 + 2 ^ 96 + 0x80 * 2 ^ 104 + 2 ^ 144 + 16 * 2 ^ 192 + 2 ^ 200)

/-- Port 7 in UP in epoch 5, with channel 7 as given. -/
def mbx (z : Session) (s : State := up) (f : LinkPort → LinkPort := id) : State :=
  link lkUp (fun x => f { x with current := some 5, tx := true, caps := some mbxRecord, chans := [(7, z)] }) 1 1 s

/-- A frame of kind `k` with its flags for SID 1 of channel 7, with WIN 16. -/
def mf (k seq ackn : Nat) (d : List Byte) : MbxFrame :=
  { chan := 7, epoch := 5, cycle := 16, data := [BitVec.ofNat 8 k, 1] ++ leBytes 2 seq ++ leBytes 2 ackn ++ [0, 0] ++ d }

/-- A session 1 in a state. -/
def sess (st : MbxState) (f : Session → Session := id) : Session := f { state := st, sid := 1, sidCount := 1 }

theorem test_mailFrame : ∀ k ∈ [1, 2, 3, 4, 5, 6, 7], let f := mf k 0 0 (List.replicate 8 0)
    portHears (mbx {}) 7 = true ∧ (portGet (mbx {}) 7).current = some f.epoch ∧ 8 ≤ f.data.length ∧ mhBad f = false ∧ f.chan < 8 ∧
    natBit (capsChannels (portGet (mbx {}) 7)) f.chan = true ∧ mhKind f = k ∧ mhSid f = 1 ∧ mhSack f = 0 ∧ sidIssued (sess .opened) 1 = true := by decide +kernel

theorem test_openFrame : State.fget (mbx {}) (pgClnk + 7) F.LNK_MBX_BKT_LEVEL < 31 ∧
    leaves (.mbxOpenFrame 7 (mf 1 0 0 [])) (mbx {}) (fun t => (portGet t 7).ctl == [{ chan := 7, kind := kAbort, sid := 1 }]) = true := by decide +kernel

/-- The job that waits. -/
def mailJob (op : Nat) (st : MbxState) (f : Session → Session) (len : Nat := 8) (g : LinkPort → LinkPort := id) (h : Job → Job := id) : State :=
  mbx (sess st f) (withJob up op (put 7 32 ||| put 7 36 ||| put 5 40 ||| put 1 56 ||| put len 128 ||| put 1 160) fun x => h { x with stage := 1 }) g

theorem test_openAck : let s := mailJob 0x50 .opening fun z => { z with opener := some 5 }
    (sessGet s 7 7).sid = 1 ∧ (sessGet s 7 7).state = .opening ∧ (sessGet s 7 7).frags = [] ∧ (sessGet s 7 7).sends = [] ∧ (sessGet s 7 7).opener = some 5 ∧
    (jobGet s 5).isSome = true ∧ s.part.resets.find? 0 = none ∧ (sessGet s 7 7).fw = none ∧ mhByte (mf 2 0 0 (List.replicate 8 0)) 8 = 0 ∧
    leaves (.openAck 7 (mf 2 0 0 (List.replicate 8 0))) s (fun t => (jobGet t 5).map (fun x => (x.status, x.result)) == some (stOk, 0x10010005)) = true ∧
    leaves (.openAck 7 (mf 2 0 0 (3 :: List.replicate 7 0))) s (fun t => (sessGet t 7 7).state == .closed && (jobGet t 5).map (·.result) == some 0x300) = true := by
  decide +kernel

theorem test_data : let s := mailJob 0x52 .opened fun z => { z with recvs := [5], dlv := 0xFFFF }
    (sessGet s 7 7).recvs = [5] ∧ (sessGet s 7 7).dlv = 0xFFFF ∧ mhSeq (mf 0x33 0xFFFF 0 [1, 2]) = 0xFFFF ∧ mhFirst (mf 0x33 0xFFFF 0 [1, 2]) = true ∧
    mhLast (mf 0x33 0xFFFF 0 [1, 2]) = true ∧ s.qe.dead = false ∧ s.host.bme.get false 0 = true ∧
    leaves (.mbxData 7 (mf 0x33 0xFFFF 0 [1, 2])) s (fun t => t.host.out.head? == some (.write 0 0 [1, 2]) && (sessGet t 7 7).dlv == 0 &&
      (jobGet t 5).map (fun x => (x.status, x.result)) == some (stOk, 2)) = true := by decide +kernel

theorem test_ack : let s := mailJob 0x51 .opened fun z => { z with una := 0xFFFF, flight := 1, sends := [5], frags := [{ job := 5, first := true, last := true, data := [1, 2, 3] }] }
    (sessGet s 7 7).sends = [5] ∧ mhAckn (mf 4 0 0 []) = ((sessGet s 7 7).una + 1) % 65536 ∧ mhProbe (mf 4 0 0 []) = false ∧
    leaves (.mbxAck 7 (mf 4 0 0 [])) s (fun t => (jobGet t 5).map (fun x => (x.status, x.result)) == some (stOk, 3) && (sessGet t 7 7).una == 0) = true := by
  decide +kernel

theorem test_ends : let r := fun z : Session => { z with recvs := [5] }
    let c := fun z : Session => { z with closers := [5] }
    (sessGet (mailJob 0x52 .opened r) 7 7).opener = none ∧ (sessGet (mailJob 0x53 .closing c) 7 7).closers = [5] ∧
    leaves (.mbxCloseFrame 7 (mf 5 0 0 [])) (mailJob 0x52 .opened r) (fun t => (jobGet t 5).map (·.status) == some stMbxPeerClosed &&
      (portGet t 7).ctl == [{ chan := 7, kind := kCloseAck, sid := 1 }]) = true ∧
    leaves (.closeAck 7 (mf 6 0 0 [])) (mailJob 0x53 .closing c) (fun t => (jobGet t 5).map (·.status) == some stOk) = true ∧
    leaves (.mbxAbortFrame 7 (mf 7 0 0 [])) (mailJob 0x52 .opened r) (fun t => (jobGet t 5).map (·.status) == some stMbxPeerAbort) = true := by decide +kernel

/-- A firmware update in a phase, with a body of 4 096 bytes. -/
def updating (ph : FwPhase) : State := mailJob 0x55 .opened fun z => { z with fw := some { job := 5, header := List.replicate 17 0 ++ [0x10] ++ List.replicate 110 0, phase := ph } }

theorem test_fwReplies : fwBodyLen (List.replicate 17 0 ++ [0x10] ++ List.replicate 110 0) = 4096 ∧ (mf 0x33 0 0 [0x81, 0, 0, 0, 0, 0x10, 0, 0]).data.length = 16 ∧
    leaves (.beginR 7 (mf 0x33 0 0 [0x81, 0, 0, 0, 0, 0x10, 0, 0])) (updating .begin) (fun t => (sessGet t 7 7).fw.map (fun f => (f.phase, f.held)) == some (.reread, 4096)) = true ∧
    leaves (.endR 7 (mf 0x33 0 0 [0x83, 0, 0, 0, 0, 0, 0, 0])) (updating .ending) (fun t => (sessGet t 7 7).frags.map (·.data) == [[4, 0, 0, 0, 0, 0, 0, 0]]) = true ∧
    leaves (.activateR 7 (mf 0x33 0 0 [0x84, 0, 0, 0, 0, 0, 0, 0])) (updating .activate) (fun t => (portGet t 7).reboots.map (·.job) == [5]) = true := by decide +kernel

/-! ### Mailbox jobs -/

/-- A mailbox job that starts. -/
def mailStart (op : Nat) (z : Session) (more : BitVec 512 := put 1 56 ||| put 8 128) : State :=
  mbx z (withJob up op (put 7 32 ||| put 7 36 ||| put 5 40 ||| more))

/-- R415: a job's checks, with a field out of range and with all good. -/
theorem test_mailJobs : (∀ op ∈ [0x50, 0x51, 0x52, 0x53, 0x54], (startedJob (mailStart op {}) 5 op).any (fun x => x.stage == 0 && (mjCheck (mailStart op {}) x).isSome) = true) ∧
    (startedJob (mailStart 0x50 {} (put 0xFFFF 192)) 5 0x50).map (mjCheck (mailStart 0x50 {} (put 0xFFFF 192))) = some none ∧
    (∀ op ∈ [0x51, 0x52, 0x53, 0x54], (startedJob (mailStart op (sess .opened)) 5 op).map (mjCheck (mailStart op (sess .opened))) = some none) ∧
    leaves (.mbxOpen 5) (mailStart 0x50 { sidCount := 255 } (put 0xFFFF 192)) (fun t => (sessGet t 7 7).sid == 1 && (sessGet t 7 7).sidWrapped) = true ∧
    leaves (.mbxSend 5) (mailStart 0x51 (sess .opened)) (fun t => t.host.out == [.read 0 0 8] && (sessGet t 7 7).sends == [5]) = true ∧
    leaves (.mbxRecv 5) (mailStart 0x52 (sess .opened)) (fun t => (sessGet t 7 7).recvs == [5]) = true ∧
    leaves (.mbxClose 5) (mailStart 0x53 (sess .opened)) (fun t => (sessGet t 7 7).state == .closing) = true ∧
    leaves (.mbxAbort 5) (mailStart 0x54 (sess .opened)) (fun t => (portGet t 7).ctl.map (·.job) == [some 5]) = true ∧
    leaves (.mbxClose 5) (mailStart 0x53 {}) (fun t => (jobGet t 5).map (·.status) == some stMbxNoSession) = true := by decide +kernel

theorem test_sendData : let s := mailJob 0x51 .opened (fun z => { z with sends := [5] }) 8 id (come [1, 2])
    (startedJob s 5 0x51).any (fun x => x.stage == 1 && mjLength x == 8 && x.data == some (ReadResult.good [1, 2] [])) = true ∧ (sessGet s 7 7).fed = [] ∧
    leaves (.mbxSend 5) s (fun t => (sessGet t 7 7).frags.map (fun g => (g.data, g.first, g.last)) == [([1, 2], true, true)] && (sessGet t 7 7).fed == [5]) = true := by
  decide +kernel

/-- A container of one byte for vendor 1234H and product 5678H, signed for key 7: the signature and the key were worked out outside the model. -/
def container : List Byte :=
  leBytes 129 0x71ba37e4899ece50693122fba8d263f67035ac6e896558da2f16d80760a4aa1dc1ba37e4899ece50693122fba8d263f67035ac6e896558da2f16d80760a4aa1dc79e85e001fbfc77ddace79b61d3988fd48a77779937252f46c7ed2f6588735ca0000000000000000000000000000000100000000567812340007000157464c43

/-- The job of the update, with the key in the key table. -/
def updateJob (d : List Byte) : State :=
  let kx : Nat := 0x906e5692b63bf07ccf278c65e559024e505361c729d58342586d1e7f8b632ae7
  let ky : Nat := 0x6480a1433238cbf7f8abf78e0a28881b90c29aa1e8947da7d092b95567d3cce7
  let s := mbx {} (withJob up 0x55 (put 7 32 ||| put 7 36 ||| put 5 40 ||| put 129 128) fun x => come d { x with stage := 1 })
  eachIn (List.range 16) (fun s i => s.setReg pgClnkG (F.GLNK_KEY.off + 64 * 7 + 4 * i) (BitVec.ofNat 32 ((kx + ky * 2 ^ 256) / 2 ^ (32 * i)))) s

theorem test_fwUpdate : let s := updateJob container
    (startedJob s 5 0x55).any (fun x => x.stage == 1 && !x.cancel && (fwVerify s x container).isNone && (mjCheck s x).isNone) = true ∧ (sessGet s 7 7).fw = none ∧
    (portGet s 7).reboots = [] ∧
    leaves (.fwUpdate 5) s (fun t => (sessGet t 7 7).service == 2 && (sessGet t 7 7).fw.isSome) = true ∧
    leaves (.fwUpdate 5) (updateJob [1]) (fun t => (jobGet t 5).map (·.status) == some stBadEntry) = true := by decide +kernel

/-! ### Mailbox timers -/

theorem test_mailTimers : let fr := fun n (z : Session) => { z with una := 0xFFFF, flight := 1, frags := [{ job := 5, first := true, last := true, data := [1], sends := n, timer := some 1000000 }] }
    (∀ n ∈ [5, 6], (sessGet (mbx (sess .opened (fr n))) 7 7).frags[(0xFFFF + 65536 - 0xFFFF) % 65536]?.map (·.sends) = some n) ∧
    leaves (.rtoExpiry 7 7 0xFFFF) (mbx (sess .opened (fr 5))) (fun t => (sessGet t 7 7).frags.map (·.due) == [true]) = true ∧
    leaves (.rtoExpiry 7 7 0xFFFF) (mbx (sess .opened (fr 6))) (fun t => (portGet t 7).ctl == [{ chan := 7, kind := kAbort, sid := 1 }]) = true ∧
    leaves (.ackTimerExpiry 7 7) (mbx (sess .opened fun z => { z with ackSince := some 1000000 })) (fun t => (sessGet t 7 7).ackDue && t.now == 1160000) = true ∧
    leaves (.probeTimerExpiry 7 7) (mbx (sess .opened fun z => { z with probeAt := some 1000000, probes := 5 })) (fun t => (sessGet t 7 7).probes == 6) = true ∧
    leaves (.probeTimerExpiry 7 7) (mbx (sess .opened fun z => { z with probeAt := some 1000000, probes := 6 })) (fun t => (sessGet t 7 7).state == .closed) = true ∧
    leaves (.openTimerExpiry 7 7) (mbx (sess .opening fun z => { z with timerAt := some 1000000, tries := 3 })) (fun t => (portGet t 7).ctl.map (·.kind) == [kOpen]) = true ∧
    leaves (.openTimerExpiry 7 7) (mailJob 0x50 .opening fun z => { z with timerAt := some 1000000, tries := 4, opener := some 5 })
      (fun t => (jobGet t 5).map (·.status) == some stMbxNoAnswer) = true ∧
    leaves (.closeTimerExpiry 7 7) (mbx (sess .closing fun z => { z with timerAt := some 1000000, tries := 2 })) (fun t => (portGet t 7).ctl.map (·.kind) == [kClose]) = true ∧
    leaves (.closeTimerExpiry 7 7) (mbx (sess .closing fun z => { z with timerAt := some 1000000, tries := 3 })) (fun t => (sessGet t 7 7).state == .closed) = true := by
  decide +kernel

theorem test_leak : let s := State.fset (mbx {} up fun x => { x with leakAt := some 1000000 }) (pgClnk + 7) F.LNK_MBX_BKT_LEVEL 1
    (portGet s 7).leakAt = some 1000000 ∧ 1 ≤ s.fget (pgClnk + 7) F.LNK_MBX_BKT_LEVEL ∧
    leaves (.leakTimerExpiry 7) s (fun t => t.fget (pgClnk + 7) F.LNK_MBX_BKT_LEVEL == 0 && (portGet t 7).leakAt == none) = true := by decide +kernel

theorem test_jobTimers : let s := mailJob 0x52 .opened fun z => { z with recvs := [5] }
    let v := mailJob 0x55 .opened fun z => { z with fw := some { job := 5, header := [], phase := .begin, since := some 1000000 } }
    let w := mailJob 0x55 .opened id 8 fun x => { x with reboots := [{ job := 5, vendor := 1, product := 1, revision := 1, since := 1000000 }] }
    (jobGet s 5).any (fun y => y.phase == .started && y.opcode == 0x52 && mjTimeout y != 0 && mjPort y == 7 && mjChan y == 7) = true ∧ (sessGet s 7 7).holding ≠ some 5 ∧
    (sessGet v 7 7).fw.map (·.since) = some (some 1000000) ∧ (portGet w 7).reboots.map (·.job) = [5] ∧
    leaves (.mbxJobTimeout 5) s (fun t => (jobGet t 5).map (·.status) == some stMbxTimeout) = true ∧
    leaves (.fwReplyTimeout 5) v (fun t => (jobGet t 5).map (fun x => (x.status, x.result)) == some (stMbxTimeout, 0x81)) = true ∧
    leaves (.fwRebootTimeout 5) w (fun t => (jobGet t 5).map (·.status) == some stFwNotRunning) = true := by decide +kernel

/-! ### Serving: models, masks, cores, budgets -/

/-- A header of Table 13.4: 100 tokens, one block of KV of 8 bytes a position, contexts to 4 096, EOS 5, VOCAB_ID 7. -/
def modelHeader : BitVec 1024 :=
  BitVec.ofNat 1024 (0x4D534C45 + 2 ^ 32 + 100 * 2 ^ 64 + 2 ^ 96 + 8 * 2 ^ 112 + 4096 * 2 ^ 128 + 5 * 2 ^ 192 + 7 * 2 ^ 256)

/-- Slot 7 in a state, with the header. -/
def model (st : Nat) (s : State) : State :=
  { State.fset s pgServe (F.SERVE_SLOT_STAT_STATE.sh (16 * 7)) st with serve := { s.serve with slots := [(7, { header := modelHeader, clusters := 1 })] } }

/-- 128 bytes for slot 7 at 2 MiB. -/
def modelJob (f : Job → Job) : State := withJob memUp 0x30 (put 7 32 ||| put 128 128 ||| put (2 ^ 21) 192) f

theorem test_modelLoad : let d := leBytes 128 modelHeader.toNat
    let s := modelJob fun x => come d { x with stage := 1 }
    let v := modelJob fun x => come [] { x with stage := 1 }
    (startedJob (modelJob id) 5 0x30).any (fun x => x.part == 0 && x.stage == 0 && payBits x 192 64 % 2 ^ 21 == 0) = true ∧ mslotState memUp 7 = msEmpty ∧
    memUp.qe.dead = false ∧ memUp.host.bme.get false 0 = true ∧ (startedJob s 5 0x30).any (fun x => x.stage == 1 && !x.cancel) = true ∧
    placed s 7 (2 ^ 21) (2 ^ 21) = true ∧
    leaves (.modelLoad 5 {}) (modelJob id) (fun t => mslotState t 7 == msLoading) = true ∧
    leaves (.modelLoad 5 {}) s (fun t => mslotState t 7 == msReady && (mslotGet t 7).header == modelHeader) = true ∧
    leaves (.modelLoad 5 {}) v (fun t => mslotState t 7 == msEmpty && (jobGet t 5).map (fun x => (x.status, x.result)) == some (0x0D00, 1)) = true := by
  decide +kernel

/-- Requests in the table. -/
def serving (r : List (Nat × Req)) (s : State) : State := { s with serve := { s.serve with reqs := r } }

theorem test_modelUnload : let s := model msReady (withJob up 0x31 (put 7 32))
    let v := serving [(1023, { state := .decode, slot := 7 })] s
    mslotState s 7 = msReady ∧ waitingJobs s = [] ∧ slotReqs s 7 = [] ∧ s.serve.nodes = [] ∧ slotReqs v 7 = [1023] ∧ (reqGet v 1023).state ≠ .paused ∧
    leaves (.modelUnload 5) s (fun t => mslotState t 7 == msEmpty && (jobGet t 5).map (·.status) == some stOk) = true ∧
    leaves (.modelUnload 5) v (fun t => mslotState t 7 == msDraining && (mslotGet t 7).unload == some (5, 0)) = true := by decide +kernel

theorem test_prefixFlush : let s := withJob memUp 0x32 (put 7 32)
    let v := { s with serve := { s.serve with nodes := [(9, { slot := 7, scope := 31, page := 3 })], roots := [(rootKey 7 31, 9)], pages := [(3, { ref := 1, nodes := 1 })] } }
    s.serve.nodes = [] ∧ v.serve.roots.find? (rootKey 7 31) = some 9 ∧ (startedJob v 5 0x32).any (fun x => payBits x 39 1 == 0 && x.part == 0) = true ∧
    leaves (.prefixFlush 5) v (fun t => t.serve.nodes == [] && (jobGet t 5).map (·.result) == some 1) = true := by decide +kernel

/-- An ALLOW table of 64 tokens, token 0 allowed (Table 14.6). -/
def maskBytes : List Byte := leBytes 64 (0x4B53414D + 2 ^ 32 + 2 * 2 ^ 48 + 64 * 2 ^ 64) ++ leBytes 8 1

def maskJob (f : Job → Job) : State := withJob memUp 0x38 (put 31 32 ||| put 72 128 ||| put 4096 192) f

theorem test_maskLoad : let s := maskJob fun x => come maskBytes { x with stage := 1 }
    let v := maskJob fun x => come [] { x with stage := 1 }
    maskState (maskJob id) 31 = 0 ∧ placed s 47 4096 72 = true ∧ maskCheck s 31 4096 72 maskBytes = 0 ∧
    leaves (.maskLoad 5) (maskJob id) (fun t => maskState t 31 == 1 && t.host.out == [.read 0 0 72]) = true ∧
    leaves (.maskLoad 5) s (fun t => maskState t 31 == 2 && maskKind t 31 == 2 && (t.serve.masks.find? 31).map (·.vocab) == some 64) = true ∧
    leaves (.maskLoad 5) v (fun t => maskState t 31 == 0 && (jobGet t 5).map (·.status) == some 0x0E00) = true := by decide +kernel

theorem test_maskFree : let s := maskSet (withJob up 0x39 (put 31 32)) 31 2 2
    maskState s 31 = 2 ∧ maskRefs s 31 = 0 ∧ maskState (withJob up 0x39 (put 31 32)) 31 ≠ 2 ∧
    leaves (.maskFree 5) s (fun t => maskState t 31 == 0 && (jobGet t 5).map (·.status) == some stOk) = true ∧
    leaves (.maskFree 5) (withJob up 0x39 (put 31 32)) (fun t => (jobGet t 5).map (·.status) == some 0x0E01) = true := by decide +kernel

/-- The cores of the first cluster, IN after reset. -/
theorem test_cores : let s := coreSet (coreSet (coreSet up 0 1 coreOut) 0 2 coreJoining) 0 3 coreTesting
    writable s 0 pgLens = true ∧ classOf s.var pgLens = some .lens ∧ State.fbit up pgLens F.PG_ERR0_VALID = false ∧ coreGet up 0 3 ≠ coreOut ∧
    (∀ m, m < 8 → natBit (mslotGet up m).clusters 0 = false) ∧
    leaves (.lensCoreLeave 0 pgLens 0) s (fun t => (List.range 4).map (coreGet t 0) == [coreOut, coreOut, coreOut, coreOut]) = true ∧
    leaves (.lensCoreReturn 0 pgLens 0xF) s (fun t => (List.range 4).map (coreGet t 0) == [coreIn, coreTesting, coreJoining, coreTesting]) = true := by decide +kernel

theorem test_coreFails : let s := { up with serve := { slots := [(7, { clusters := 1, step := some [] })] } }
    natBit (mslotGet s 7).clusters 0 = true ∧ (mslotGet s 7).step.isSome = true ∧ coreGet s 0 3 = coreIn ∧
    (∀ n, n < 8 → n ≠ 7 → natBit (mslotGet s n).clusters 0 = false) ∧ s.fbit pgLens F.PG_ERR0_VALID = false := by decide +kernel

theorem test_budgets : let s := State.fset (serving [(1023, { state := .decode, slot := 7, account := 63, wait := 255 })]
      { up with serve := { slots := [(7, { pol0 := 1 })] } }) pgSampler (F.ACCT_BAL_BAL.sh (16 * 63)) 0x80000000
    let f : State := serving [(1023, { state := .decode, slot := 7, account := 63, wait := 255 })] { s with serve := { s.serve with slots := [(7, { pol0 := 1 })] } }
    s.var.serve = true ∧ f.serve.refillAt ≤ (f.reach f.serve.refillAt).now ∧ (f.serve.reqs.map Prod.fst).Nodup ∧ polBudget (mslotGet f 7) = true ∧
    writable up 0 pgSampler = true ∧
    leaves .budgetRefill f (fun t => (reqGet t 1023).wait == 255 && t.serve.refillAt == 1600000000 && balGet t 63 == -1) = true ∧
    leaves (.smpFill 0 true 0x80000000) f (fun t => balGet t 63 == 0x7FFFFFFF) = true := by decide +kernel

/-! ### Serving: requests -/

/-- A prompt of 2 tokens, MAX_NEW 2 and a ring of 16 entries for slot 7. -/
def reqJob (op : Nat) (f : Job → Job := id) (more : BitVec 512 := 0) : State :=
  State.fset (model msReady (withJob memUp op (put 7 32 ||| put 2 192 ||| put 2 224 ||| put 4 248 ||| more) f)) pgServe F.SERVE_KV_PAGES_PAGES 8

theorem test_submit : (startedJob (reqJob 0xA0) 5 0xA0).map (fun x => (x.aux, submitCheck (reqJob 0xA0) x)) = some (0, stOk) ∧
    (startedJob (withJob up 0xA0 0) 5 0xA0).map (submitCheck (withJob up 0xA0 0)) = some stBadEntry ∧
    leaves (.reqSubmit 5) (reqJob 0xA0) (fun t => waitingJobs t == [5]) = true ∧
    leaves (.reqSubmit 5) (withJob up 0xA0 0) (fun t => (jobGet t 5).map (·.status) == some stBadEntry) = true := by decide +kernel

/-- A request of slot 7 in entry 1023, held by job 5 where it is given. -/
def req (st : ReqState) (f : Req → Req := id) : List (Nat × Req) :=
  [(1023, f { state := st, slot := 7, promptLen := 2, maxNew := 2, job := some 5, ringLog2 := 4, toks := [1, 2], seqLen := 1 })]

theorem test_allocate : let s := reqJob 0xA0 fun x => { x with aux := 1 }
    let q := fun (d : List Byte) => serving (req .queued) (State.fset (reqJob 0xA0 (come d)) pgPrefix F.PFX_CTRL_ENABLE 0)
    (reqGet s 1023).state = .free ∧ 1023 < s.var.rqtEntries ∧ (waitingJobs s).head? = some 5 ∧ s.qe.dead = false ∧ s.host.bme.get false 0 = true ∧
    (wordsOf [100, 0, 0, 0, 1, 0, 0, 0] 2).any (fun k => decide (hVocab (reqHdr (q []) 1023) ≤ k)) = true ∧
    (wordsOf [99, 0, 0, 0, 1, 0, 0, 0] 2).any (fun k => decide (hVocab (reqHdr (q []) 1023) ≤ k)) = false ∧ (mslotGet (q []) 7).unload = none ∧
    (q []).fbit pgPrefix F.PFX_CTRL_ENABLE = false ∧ (2 + 2 + hTpp (reqHdr (q []) 1023) - 1) / hTpp (reqHdr (q []) 1023) = 1 ∧ 1 ≤ kvPages (q []) ∧
    kvUse (q []) 0 + 1 ≤ (q []).fget pgPart F.PART_SHARE0_KV_PAGES ∧ (waitingReqs (q []) 7).head? = some 1023 ∧ 1 + kvPromised (q []) ≤ kvFree (q []) ∧
    leaves (.rqtAllocate 1023) s (fun t => (reqGet t 1023).gen == 1 && t.host.out.head? == some (.read 0 0 8)) = true ∧
    leaves (.rqtAllocate 1023) (q [100, 0, 0, 0, 1, 0, 0, 0]) (fun t => (reqGet t 1023).state == .free && (jobGet t 5).map (·.status) == some 0x0D08) = true ∧
    leaves (.rqtAllocate 1023) (q [99, 0, 0, 0, 1, 0, 0, 0]) (fun t => (reqGet t 1023).state == .prefill && (reqGet t 1023).reserved == 1) = true := by decide +kernel

/-- A job that names entry 1023. -/
def handleJob (op : Nat) (more : BitVec 512 := 0) (f : Job → Job := id) : State := model msReady (withJob memUp op (put 1023 32 ||| more) f)

theorem test_cancel : (startedJob (handleJob 0xA1) 5 0xA1).map (handleReq (handleJob 0xA1)) = some none ∧
    (startedJob (handleJob 0xA1) 5 0xA1).map (handleReq (serving (req .decode) (handleJob 0xA1))) = some (some 1023) ∧
    leaves (.reqCancel 5) (handleJob 0xA1) (fun t => (jobGet t 5).map (·.status) == some 0x0D06) = true ∧
    leaves (.reqCancel 5) (serving (req .decode) (handleJob 0xA1)) (fun t => (reqGet t 1023).cancelPending) = true ∧
    leaves (.reqCancel 5) (serving (req .paused) (handleJob 0xA1)) (fun t => (reqGet t 1023).state == .free && (jobGet t 5).map (·.status) == some stOk) = true := by
  decide +kernel

theorem test_pause : let s := fun more st => serving (req st) (handleJob 0xA2 more)
    (startedJob (s 0 .decode) 5 0xA2).map (pauseCheck (s 0 .decode)) = some (.inl stBadEntry) ∧
    (startedJob (s (put 9 80) .decode) 5 0xA2).map (pauseCheck (s (put 9 80) .decode)) = some (.inr 1023) ∧
    leaves (.reqPause 5) (s (put 9 80) .decode) (fun t => (reqGet t 1023).pausePending && (reqGet t 1023).pauseTtl == 9) = true := by decide +kernel

theorem test_resume : let s := fun (l : List (Nat × Req)) => serving (req .paused ++ l) (State.fset (handleJob 0xA3 (put 2 224 ||| put 4 248)) pgServe F.SERVE_KV_PAGES_PAGES 8)
    let first := [(7, { state := .queued, slot := 7, seq := 0 : Req })]
    (startedJob (s []) 5 0xA3).map (resumeCheck (s [])) = some (.inr 1023) ∧ (startedJob (handleJob 0xA3) 5 0xA3).map (resumeCheck (handleJob 0xA3)) = some (.inl stBadEntry) ∧
    kvPages (s []) = 8 ∧ kvFree (s []) = 8 ∧ (reqGet (s []) 1023).summaryHeld = false ∧
    leaves (.reqResume 5) (s []) (fun t => (reqGet t 1023).restore == .image && t.host.out == [.read 0 0 64]) = true ∧
    leaves (.reqResume 5) (serving (first ++ req .paused) (s [])) (fun t => (reqGet t 1023).restore == .waiting && (reqGet t 1023).reserved == 1) = true := by
  decide +kernel

theorem test_query : (startedJob (handleJob 0xA4) 5 0xA4).any (fun x => payBits x 128 3 == 0) = true ∧
    leaves (.reqQuery 5) (serving (req .decode) (handleJob 0xA4)) (fun t => t.host.out.head?.any fun o => match o with
      | .write 0 0 d => d.length == 128 && d.getD 0 0 == 0x73
      | _ => false) = true := by decide +kernel

/-! ### Serving: steps and pauses -/

theorem test_boundary : let s := { up with serve := { slots := [(7, { step := some [] })] } }
    slotReqs s 7 = [] ∧ (mslotGet s 7).step = some [] ∧ (mslotGet up 7).step = none ∧
    leaves (.stepBoundary 7 []) s (fun t => t.reg pgServe (F.SERVE_SLOT_STEP_LO.off + 16 * 7) == 1) = true ∧
    leaves (.idleSlotApply 7 []) up (fun t => t.reg pgServe (F.SERVE_SLOT_STEP_LO.off + 16 * 7) == 0) = true := by decide +kernel

theorem test_pausing : let s := serving (req .decode fun x => { x with pausePending := true }) (handleJob 0xA2 (put 9 80))
    slotReqs s 7 = [1023] ∧ waitingReqs s 7 = [] ∧ (mslotGet s 7).step = none ∧ (reqGet s 1023).pausePending = true ∧ (reqGet s 1023).spent = false ∧
    cancelDue s 1023 = false ∧ ringFree (reqGet s 1023) ≠ 0 ∧
    leaves (.idleSlotApply 7 []) s (fun t => (reqGet t 1023).state == .pausing && (jobGet t 5).map (fun x => x.result) == some 0x80000) = true := by decide +kernel

theorem test_pauseWrites : let s := serving (req .pausing fun x => { x with pauseJob := some 5, job := none, pauseTtl := 1 }) (handleJob 0xA2 (put 9 80))
    (pagesOf s 1023).1 = [] ∧ cancelDue s 1023 = false ∧ (reqGet s 1023).pauseJob = some 5 ∧
    leaves (.pauseWriteDone 1023) s (fun t => (reqGet t 1023).state == .paused && (reqGet t 1023).ttlEnd == 1800000 && (jobGet t 5).map (·.status) == some stOk) = true := by
  decide +kernel

theorem test_ttl : let s := serving (req .paused fun x => { x with ttlEnd := 1800000, job := none }) (model msReady up)
    (reqGet s 1023).state = .paused ∧ (reqGet s 1023).ttlEnd ≠ 0 ∧
    leaves (.pauseTtlExpiry 1023) s (fun t => t.fget pgRqt F.RQT_EXPIRED_COUNT == 1 && t.serve.reqs == []) = true := by decide +kernel

theorem test_restore : let s := fun n d => serving (req .resuming fun x => { x with restore := .tokens, appended := n }) (handleJob 0xA3 0 (come d))
    cancelDue (s 0 []) 1023 = false ∧ (∀ k ∈ wordsOf [99, 0, 0, 0] 1, k < hVocab (reqHdr (s 1 []) 1023)) ∧
    leaves (.resumeRestoreDone 1023) (s 0 []) (fun t => (reqGet t 1023).state == .decode && (reqGet t 1023).toks == [1, 2]) = true ∧
    leaves (.resumeRestoreDone 1023) (s 1 [99, 0, 0, 0]) (fun t => (reqGet t 1023).state == .prefill && (reqGet t 1023).toks == [1, 99]) = true := by decide +kernel

/-! ### Memory jobs, scrubbing and the retention store -/

/-- Device memory is trained and zero. -/
def memIn (s : State) : State := State.fset { s with mem := { s.mem with trained := [(0, 2)] } } pgMemc F.MEMC_STAT_INIT_DONE 1

/-- A started memory job on memory that holds a word at 0x71BF_FFF8, the last. -/
def memTask (op : Nat) (e : BitVec 512) (m : Mem := {}) (f : Job → Job := id) : State :=
  let s := memIn (withJob up op e f)
  { s with mem := { s.mem with dram := m } }

def lastWord : Nat := 0x71BFFFF8

/-- Memory whose last word holds 1, with bit 63 upset. -/
def upsetMem : Mem := (Mem.put {} (lastWord / 8) 1 false).upset (lastWord / 8) 63

def memJobOf (s : State) (op : Nat) : Job := (startedJob s 5 op).getD {}

theorem test_memCheckJobs : let s := memTask 0x61 (put lastWord 128 ||| put 8 192 ||| put 0x0807060504030201 256)
    let v := memTask 0x61 (put (lastWord + 1) 128 ||| put 8 192)
    memReady s = true ∧ memCheck s (memJobOf s 0x61) = stOk ∧ memHeld s (memJobOf s 0x61) = false ∧ memCheck v (memJobOf v 0x61) = stMemRange ∧
    chanGone s (memPlace s lastWord).1 = false ∧ s.part.resets.find? 0 = none ∧
    leaves (.memFill 5) s (fun t => t.mem.dram.raw (lastWord / 8) == (0x0807060504030201, eccCheck 0x0807060504030201)) = true ∧
    leaves (.memFill 5) v (fun t => (jobGet t 5).map (·.status) == some stMemRange && t.mem.dram == {}) = true := by decide +kernel

theorem test_memCopy : let e := fun dir => put dir 32 ||| put lastWord 64 ||| put 0 128 ||| put 8 192
    let s := memTask 0x60 (put 0x1000 64 ||| put lastWord 128 ||| put 8 192)
    let o := memTask 0x60 (e 1) upsetMem
    let d := memTask 0x60 (e 2) upsetMem
    let v := memTask 0x60 (put 0x1000 64 ||| put lastWord 128 ||| put 8 192) {} fun x => { x with stage := 1 }
    let w := memTask 0x60 (put 0x1000 64 ||| put lastWord 128 ||| put 8 192) {} fun x => { x with stage := 1, data := some (.good (leBytes 8 9) []) }
    ([s, o, d, w].all fun s => memCheck s (memJobOf s 0x60) == stOk && !memHeld s (memJobOf s 0x60)) = true ∧
    s.qe.dead = false ∧ s.host.bme.get false 0 = true ∧ ((dramLoad o 0 lastWord 8).1.all fun b => b.isSome) = true ∧
    (jobGet v 5).any (fun x => x.phase == .started && x.stage == 1 && x.data.isNone && readsHost x.opcode) = true ∧ v.rtu.work = none ∧
    leaves (.hostReadCompletion 5 (.good [1] [])) v (fun t => (jobGet t 5).any fun x => x.data == some (ReadResult.good [1] [])) = true ∧
    leaves (.memCopy 5) s (fun t => t.host.out == [.read 0 0x1000 8] && (jobGet t 5).map (·.stage) == some 1) = true ∧
    leaves (.memCopy 5) o (fun t => t.host.out == [.write 0 0 (leBytes 8 1)]) = true ∧
    leaves (.memCopy 5) d (fun t => (t.mem.dram.raw 0).1 == 1 && (jobGet t 5).map (·.result) == some 8) = true ∧
    leaves (.memCopy 5) w (fun t => (t.mem.dram.raw (lastWord / 8)).1 == 9) = true := by decide +kernel

theorem test_memCheck : let s := memTask 0x62 (put (lastWord - 8) 128 ||| put 9 192) (upsetMem.put (lastWord / 8 - 1) 0 true)
    memCheck s (memJobOf s 0x62) = stOk ∧ memHeld s (memJobOf s 0x62) = false ∧
    leaves (.memCheck 5) s (fun t => (jobGet t 5).map (·.result) == some 0x10001 && decide (t.mem.dram.cls (lastWord / 8) = .clean)) = true := by decide +kernel

theorem test_memInject : let s := fun k => memTask 0x63 (put k 34 ||| put 63 40 ||| put lastWord 128)
    (∀ k, k < 3 → memCheck (s k) (memJobOf (s k) 0x63) = stOk) ∧ memHeld (s 0) (memJobOf (s 0) 0x63) = false ∧
    leaves (.memInject 5) (s 0) (fun t => decide (t.mem.dram.cls (lastWord / 8) = .ceData 63)) = true ∧
    leaves (.memInject 5) (s 1) (fun t => t.mem.dram.raw (lastWord / 8) == (0x8000000000000001, 0)) = true ∧
    leaves (.memInject 5) (s 2) (fun t => decide (t.mem.dram.cls (lastWord / 8) = .poison)) = true := by decide +kernel

theorem test_memRegisters : let s := { up with mem := { regions := [(0x63, { ce := 5, lastCe := 7 })] } }
    let v := { up with mem := { initUsed := true } }
    writable up 0 pgMemc = true ∧ classOf up.var (pgMemc + 2) = some .memc ∧ writable up 0 (pgMemc + 2) = true ∧
    State.fbit v pgMemc F.MEMC_STAT_INIT_DONE = false ∧ (∀ w, w < 16 → (calWindow v 0 w).2 = 0 ∧ (calWindow v 1 w).2 = 0) ∧
    [(1, 16)].find? (fun x => decide (x.1 = 1 ∧ (x.2 = 2 ∨ x.2 = 4 ∨ x.2 = 8 ∨ x.2 = 16))) = some (1, 16) ∧
    leaves (.memcInit 0) up (fun t => t.mem.initUsed) = true ∧
    leaves (.sramClrAll 0) s (fun t => regionGet t 0x63 == { lastCe := 7 }) = true ∧
    leaves (.sramClrSelected 0) (State.fset s pgMemc F.SRAM_SEL_REGION 0x63) (fun t => (regionGet t 0x63).ce == 0) = true ∧
    leaves (.memcClr 0 (pgMemc + 2)) (State.fset up (pgMemc + 2) F.MEMC_CE_CE 9) (fun t => t.fget (pgMemc + 2) F.MEMC_CE_CE == 0) = true ∧
    leaves (.memcInitDone [(0, 2), (1, 16)]) v
      (fun t => t.mem.trained.find? 1 == some 16 && t.fget (memPage 1) F.MEMC_STAT_UNITS == 910) = true := by
  decide +kernel

/-- A memory with one upset bit in word 9. -/
def oneUpset : Mem := Mem.upset {} 9 63

theorem test_scrub : let s := { up with facet := { tiles := [(1, { sram := oneUpset })] } }
    let m := memIn up
    let p := { m with mem := { m.mem with dram := oneUpset, patrol := [(0, chanData m - 128)] } }
    let r := { m with mem := { m.mem with dram := oneUpset, repair := [(0, [9])] } }
    let q := { s with mem := { repair := [(17, [9])] } }
    regionBuilt up.var 1 = true ∧ asleep up = false ∧ up.mem.passAt.get 0 1 ≠ up.now / 2 ^ 24 + 1 ∧
    chanGone m 0 = false ∧ (phaseGet m 0).closed = false ∧ State.fget m (memPage 0) F.MEMC_PATROL_INTERVAL ≠ 0 ∧
    (∀ k, k < 16 → (memPlace m (8 * (memAddr m 0 (chanData m - 128) / 8 + k))).1 = 0) ∧ r.mem.repair.get [] 0 = [9] ∧ r.mem.dram.cls 9 = .ceData 63 ∧
    (tileGet q (17 - 16)).sram.cls 9 = .ceData 63 ∧
    leaves (.scrubPass 1 []) s (fun t => decide ((tileGet t 1).sram.cls 9 = .clean) && t.mem.passes.get 0 1 == 1) = true ∧
    leaves (.patrolRead 0 []) p (fun t => t.mem.patrol.get 0 0 == 0) = true ∧
    leaves (.patrolRead 0 []) { m with mem := { m.mem with dram := oneUpset } } (fun t => decide (t.mem.dram.cls 9 = .clean) && t.mem.patrol.get 5 0 == 128) = true ∧
    leaves (.repairWriteback 0) r (fun t => t.mem.dram.raw 9 == (0, 0) && t.mem.repair.get [] 0 == []) = true ∧
    leaves (.repairWriteback 17) q (fun t => (tileGet t 1).sram.raw 9 == (0, 0)) = true := by decide +kernel

/-- A store area of 64 sectors at flash address 0, ready at SEQ 7, with object 254 of three bytes in sector 4. -/
def stored : Store := { seq := 7, indexAt := 2, cursor := 5, objs := [(254, { cls := 1, len := 3, mapAt := 3, crc := crc32 [1, 2, 3], data := [4] })] }

def rtuUp (s : State) : State :=
  let s := (State.fset s pgRtu F.RTU_AREA_SIZE 4).fset pgRtu F.RTU_STORE_STATE 2
  let s := (s.fset pgRtu F.RTU_PART_EN_EN 1).fset pgRtu F.RTU_INFO_SFDP_OK 1
  { s with rtu := { s.rtu with store := some stored, flash := [(4, recBytes { typ := recData, seq := 7, obj := 254, recNo := 0, payload := [1, 2, 3] })] } }

def rtuJob (op : Nat) (e : BitVec 512) : State := rtuUp (withJob up op e)
def rtuJobOf (s : State) (op : Nat) : Job := (startedJob s 5 op).getD {}

/-- An RTU_COMMIT that writes 5 000 bytes as object 9 and deletes object 254. -/
def commitJob : State :=
  rtuUp (withJob up 0x40 0 fun x => { x with entries := [put 9 40 ||| put 5 48 ||| put 0x2000 64 ||| put 5000 128, put 1 32 ||| put 254 40] })

/-- With hold-up capacity enough, or none. -/
def charged (s : State) : State := ((s.setReg pgRtu F.RTU_HU_CAP_C.off 1000000).fset pgRtu F.RTU_HU_SCALE_UV 10000).fset pgRtu F.RTU_HU_VMIN_MV 5000

theorem test_rtuBegin : let s := charged commitJob
    let v := charged (rtuJob 0x43 0)
    let x := rtuJobOf s 0x40
    retEarly s x = some stOk ∧ x.stage = 0 ∧ x.cancel = false ∧ rtuTurn s 5 x true = true ∧ commitCheck s stored x.part (retOps x) = stOk ∧
    huReq s 5 5 ≤ huAvail s 4095 ∧ ¬ huReq (State.fset commitJob pgRtu F.RTU_HU_OVH_UJ 1) 5 5 ≤ huAvail commitJob 0 ∧
    retEarly v (rtuJobOf v 0x43) = some stOk ∧ rtuTurn v 5 (rtuJobOf v 0x43) true = true ∧
    leaves (.rtuCommit 5 [4095]) s (fun t => t.rtu.cmd == some (.erase 0) && t.fget pgRtu F.RTU_STORE_BUSY == 1 &&
      t.rtu.work.any fun w => w.seq == 8 && w.pool == [5, 6, 7, 8] && w.cursor == 9 && w.clear == [0, 5, 6, 7, 8] && w.objs == []) = true ∧
    leaves (.rtuCommit 5 [0]) (State.fset commitJob pgRtu F.RTU_HU_OVH_UJ 1) (fun t => (jobGet t 5).map (·.status) == some stHoldupShort) = true ∧
    leaves (.rtuFormat 5 [4095]) v (fun t => t.rtu.cmd == some (.erase 0) && t.rtu.work.any fun w => w.format && w.clear == [0, 1, 2]) = true := by
  decide +kernel

theorem test_rtuRead : let s := rtuJob 0x41 (put 254 40 ||| put 0x4000 64 ||| put 3 128)
    let v := rtuJob 0x42 (put 0x4000 64 ||| put 16 128)
    let x := rtuJobOf s 0x41
    retEarly s x = some stOk ∧ rtuTurn s 5 x false = true ∧ stored.objs.find? (payBits x 40 8) = stored.objs.find? 254 ∧
    otherOwner stored x.part [254] = false ∧ readRecords s 254 [4] 0 3 [] = ([1, 2, 3], true) ∧ s.qe.dead = false ∧ s.host.bme.get false 0 = true ∧
    retEarly v (rtuJobOf v 0x42) = some stOk ∧ rtuTurn v 5 (rtuJobOf v 0x42) false = true ∧
    leaves (.rtuRead 5) s (fun t => t.host.out == [.write 0 0x4000 [1, 2, 3]] && (jobGet t 5).map (·.result) == some 3) = true ∧
    leaves (.rtuList 5) v (fun t => (t.host.out == [.write 0 0x4000 (leBytes 4 0x1FE ++ leBytes 4 3 ++ leBytes 4 3 ++ leBytes 4 (crc32 [1, 2, 3]))])
      && (jobGet t 5).map (·.result) == some 1) = true := by decide +kernel

/-- The last record of a commit: a superblock with SEQ 8 in slot 0. -/
def superRec : List Byte := recBytes { typ := recSuper, seq := 8, obj := 0, recNo := 0, payload := superBytes 64 6 7 0 [] }

theorem test_flashDone : let s := rtuUp (withJob up 0x40 0 fun x => { x with stage := 2 })
    let w : RtuWork := { job := some (5, 0), seq := 8, cursor := 7, indexAt := some 6 }
    let s := { s with rtu := { s.rtu with work := some w, cmd := some (.program 0 superRec) } }
    let e := rtuUp up
    let e := { e with rtu := { e.rtu with cmd := some (.erase 63) } }
    (startedJob s 5 0x40).map (·.seq) = some 0 ∧ (readRec (flashRun s (.program 0 superRec) []) 0).isSome = true ∧ areaAt e 63 = 63 ∧ areaSectors e = 64 ∧
    storeState e = stReady ∧ e.rtu.work = none ∧
    leaves (.flashOpDone true [] []) s (fun t => t.rtu.store.map (·.seq) == some 8 && (jobGet t 5).map (·.result) == some 8) = true ∧
    leaves (.flashOpDone true [] []) e (fun t => isErased t 63) = true := by decide +kernel

/-- The flash of a store at SEQ 7 in slot 1 with an empty index in sector 2. -/
def recovering : State :=
  let s := rtuUp up
  { State.fset s pgRtu F.RTU_STORE_STATE 1 with rtu := { flash := [(1, recBytes { typ := recSuper, seq := 7, obj := 0, recNo := 0, payload := superBytes 64 2 3 0 [] }),
      (2, recBytes { typ := recIndex, seq := 7, obj := 0, recNo := 0, payload := [] })] } }

theorem test_rtuOwn : let s := rtuUp up
    let d := { s with rtu := { s.rtu with flash := [(5, [0])] } }
    let n := State.fset (rtuUp up) pgRtu F.RTU_STORE_STATE 1
    s.rtu.work = none ∧ asleep s = false ∧ huVolt (charged s) 4095 < 2 ^ 16 ∧ storeState s = stReady ∧ s.rtu.cmd = none ∧
    State.fget s pgPmu F.PMU_STAT_STATE = 0 ∧ (freeSectors s).find? (fun n => !isErased s n) = some 5 ∧
    storeState n = stRecovering ∧ recoverPick n = none ∧ (recoverPick recovering).map (fun p => (p.1, p.2.seq)) = some (1, 7) ∧ slotSeq recovering 0 = none ∧
    recovering.rtu.cmd = none ∧ storeState recovering = stRecovering ∧
    leaves (.holdupMeasure [4095, 4094]) (charged s) (fun t => t.fget pgRtu F.RTU_HU_NOW_CODE == 4094 && t.fget pgRtu F.RTU_HU_NOW_MV == 40940) = true ∧
    leaves .backgroundErase s (fun t => isErased t 5) = true ∧ leaves .backgroundErase d (fun t => t.rtu.cmd == some (.erase 5)) = true ∧
    leaves .rtuRecovery n (fun t => storeState t == stNone) = true ∧ leaves .rtuRecovery recovering (fun t => t.rtu.store.map (·.cursor) == some 3) = true := by
  decide +kernel

/-! ### Power states, touch and keys -/

/-- The chooser may go as deep as `n`. -/
def maxState (n : Nat) (s : State) : State := State.fset s pgPmu F.PMU_CTRL_MAX_STATE n

/-- A device in PS2. -/
def inPs2 (s : State) : State := State.fset s pgPmu F.PMU_STAT_STATE 2

def power (x : PowerSt) (s : State) : State := { s with power := x }

theorem test_chooser : let s := maxState 3 up
    let v := power { entering := some 2 } (maxState 1 up)
    s.power.off = false ∧ s.power.exiting = false ∧ asleep s = false ∧ s.power.entering = none ∧ choose s (blocking s true true) (nextEvent s) = 3 ∧
    choose up (blocking up false false) (nextEvent up) = 0 ∧ powerState up = 0 ∧ blocks v (blocking v true true) 2 = true ∧
    leaves (.chooserEvaluate true true) s (fun t => t.power.entering == some 3) = true ∧
    leaves (.chooserEvaluate false false) s (fun t => t.power.entering == some 1 && t.fget pgPmu F.PMU_STAT_BLOCK == 0x220) = true ∧
    leaves (.chooserEvaluate false false) up (fun t => t.power.entering == none && t.fget pgPmu F.PMU_STAT_BLOCK == 0x620) = true ∧
    leaves (.chooserEvaluate true true) v (fun t => t.power.entering == none && t.power.exiting) = true := by decide +kernel

theorem test_psEntry : let s := fun p => power { entering := some p } up
    natBit (State.fget (s 2) pgLoupe F.LOUPE_LEVEL_SRC) 14 = false ∧ 15 < up.var.pwmPairs ∧ State.fget (s 2) (pgPwm + 15) F.PWM_STAT_HOLD = 0 ∧
    leaves .psEntryDone (s 1) (fun t => powerState t == 1 && t.power.entering == none) = true ∧
    leaves .psEntryDone (s 2) (fun t => powerState t == 2 && t.fget pgPmu F.PMU_SLEEP_CNT_PS2 == 1) = true ∧
    leaves .psEntryDone (s 3) (fun t => powerState t == 3 && t.fget pgPmu F.PMU_SLEEP_CNT_PS3 == 1) = true := by decide +kernel

theorem test_psExit : let s := State.fset (power { wakeAt := some 2000000 } (inPs2 up)) pgPmu F.PMU_NEXT_SRC_SRC 2
    let v := power { exiting := true, fromPs2 := true } (inPs2 up)
    s.power.exiting = false ∧ s.power.off = false ∧ powerState s = 2 ∧ s.time.running = true ∧ (0x78 : BitVec 8).toNat &&& 0x78 ≠ 0 ∧
    leaves .scheduledExit s (fun t => t.power.exiting && t.now == 2000000 && t.fget pgPmu F.PMU_LAST_WAKE_CAUSE == 2) = true ∧
    leaves (.wake 0xFF) s (fun t => t.power.exiting && t.fget pgPmu F.PMU_LAST_WAKE_CAUSE == 0x78) = true ∧
    leaves .psExitDone v (fun t => powerState t == 0 && (t.reg pgPmu F.PG_IRQ_STAT_ERR.off).getLsbD 0) = true := by decide +kernel

/-- PMU_PS4 with its key, and 254 as the resume object. -/
def ps4Word : Word := 0x0FF400FE

theorem test_ps4 : let s := charged (rtuUp up)
    let b := withJob up 0x02 0
    let ops : List RetOp := [{ obj := 254, cls := 5, len := 64, bytes := some (resumeObject s) }]
    let d := fun st => power { resuming := true } { up with rtu := { up.rtu with resumed := some st } }
    writable s 0 pgPmu = true ∧ bitsOf ps4Word 16 16 = 0x0FF4 ∧ objIdOk (bitsOf ps4Word 0 8) = true ∧ s.power.resuming = false ∧
    blocking s true true &&& 0x1D9 = 0 ∧ blocking b true true &&& 0x1D9 ≠ 0 ∧ State.fbit b pgPmu F.PG_ERR0_VALID = false ∧
    s.rtu.store = some stored ∧ storeState s = stReady ∧ commitCheck s stored 0 ops = stOk ∧ retNeed ops = 3 ∧ huReq s 4 4 ≤ huAvail s 4095 ∧
    leaves (.pmuPs4 0 ps4Word [4095]) s (fun t => t.power.resuming && t.rtu.cmd == some (.erase 0) && t.rtu.work.any fun w => w.pool == [5, 6, 7]) = true ∧
    leaves .ps4CommitDone (d stOk) (fun t => t.power.off && (pairGet t 15).hiz && !t.power.resuming) = true ∧
    0x0104 ≠ stOk ∧ (d 0x0104).rtu.resumed = some 0x0104 ∧ (d 0x0104).power.resuming = true ∧ State.fbit (d 0x0104) pgPmu F.PG_ERR0_VALID = false := by
  decide +kernel

theorem test_timersAndHeat : let s := State.setReg64 up pgPmu (F.PMU_TMR_LO.off + 24) (F.PMU_TMR_HI.off + 24) 1000007
    let h := State.fset (State.fset up pgPmu F.PMU_THERM_T_SHUT 110) pgPmu F.PMU_THERM_T_THROTTLE 100
    let a := fun (deg speed : Nat) => power { adjusted := some 1000000 } (State.fset (State.fset h pgPmu F.PMU_TEMP_DEGC deg) pgPmu F.PMU_SPEED_SPEED speed)
    State.reg64 s pgPmu (F.PMU_TMR_LO.off + 24) (F.PMU_TMR_HI.off + 24) ≠ 0 ∧ up.now = 1000000 ∧ h.power.hot = false ∧ (a 0 1).power.adjusted = some (a 0 1).now ∧
    leaves (.pmuTimerFire 3) s (fun t => t.now == 1000007 && natBit (t.fget pgPmu F.PMU_TMR_STAT_FIRED) 3) = true ∧
    leaves (.thermalSample (-200) (-129) (-300) (-130)) h (fun t => t.fget pgPmu F.PMU_TEMP_DEGC == 0x80) = true ∧
    leaves (.thermalSample 20 110 30 40) h (fun t => t.power.hot && t.fget pgRst F.RST_CAUSE_CAUSE == 5) = true ∧
    leaves (.thermalSample 20 90 30 40) (power { hot := true } h) (fun t => !t.power.hot) = true ∧
    leaves .speedAdjust (a 100 1) (fun t => t.fget pgPmu F.PMU_SPEED_SPEED == 1 && t.now == 1600000) = true ∧
    leaves .speedAdjust (a 100 7) (fun t => t.fget pgPmu F.PMU_SPEED_SPEED == 6) = true ∧
    leaves .speedAdjust (State.fset (a 0xD8 3) pgPmu F.PMU_SPEED_CAP 8) (fun t => t.fget pgPmu F.PMU_SPEED_SPEED == 4) = true := by decide +kernel

/-- A configuration in force: key 7 with DEBOUNCE 2, CC pair 0, touch channel 11, and a scan at every strobe. -/
def touchUp : State :=
  let s := (State.fset up pgTku (F.TKU_KEY_ENABLE.sh 28) 1).fset pgTku (F.TKU_KEY_DEBOUNCE.sh 28) 2
  let s := ((s.fset pgTku (F.TKU_KEY_POL.sh 28) 1).fset pgTku F.TKU_TC_CFG_ENABLE 1).fset pgTku F.TKU_TOUCH_CTRL_SCAN_MS 1
  let s := (s.fset pgTku F.TKU_TOUCH_CTRL_DEB 1).fset pgTku (tchF F.TKU_TCH_CFG_ENABLE 11) 1
  { s with tku := { cfg := s.regs.filter fun k => decide (k.1 / 4096 = pgTku) && tkuCfgOff (k.1 % 4096), lastStrobe := some 1000000 } }

/-- Key 7 has differed for two strobes. -/
def keyNear : State := { touchUp with tku := { touchUp.tku with keys := [(7, { count := 2 })] } }

/-- Channel 11 acquires since strobe 1, in a scan that started at `n`. -/
def acquiring (n : Nat) : State := { touchUp with tku := { touchUp.tku with scan := some n, touch := [(11, { acquire := some 1 })] } }

theorem test_touch : let e : List (BitVec 64) := [0x500000042, 7]
    let f := { up with tku := { fifo := e } }
    touchUp.now = 1000000 ∧ asleep touchUp = false ∧ touchUp.power.entering = none ∧
    (touchUp.tku.cfg = touchUp.regs.filter fun k => decide (k.1 / 4096 = pgTku) && tkuCfgOff (k.1 % 4096)) ∧ touchUp.tku.fifo.length ≤ 12 ∧
    tkuOn touchUp (F.TKU_KEY_ENABLE.sh 28) = true ∧ tkuCfg touchUp (F.TKU_KEY_DEBOUNCE.sh 28) + 1 ≤ 2 + 1 ∧ tkuOn touchUp F.TKU_TC_CFG_ENABLE = true ∧
    1 ≤ tkuCfg touchUp F.TKU_TOUCH_CTRL_DEB ∧ tkuOn touchUp (tchF F.TKU_TCH_CFG_ENABLE 11) = true ∧
    (touchGet (acquiring 201) 11).acquire = some 1 ∧ State.fbit touchUp pgTku (tchF F.TKU_TCH_STAT_FAULTED 11) = false ∧
    State.fbit touchUp pgTku (tchF F.TKU_TCH_STAT_ACQUIRED 11) = false ∧ viewOf f 0 pgTku = .full ∧ writable f 0 pgTku = true ∧
    leaves (.tkuStrobe 0x80 false 2559 0 0 0) keyNear (fun t => t.now == 1600000 && (keyGet t 7).pressed && t.fget pgTku F.TKU_STATE_KEYS == 0x80
      && t.tku.fifo.map (fun e => bitsOf e 0 9) == [7 + 32] && t.tku.scan == some 1 && t.fget pgTku F.TKU_TC_STAT_CC1 == 255) = true ∧
    leaves (.tkuStrobe 0x80 false 0 0 0 0) touchUp (fun t => (keyGet t 7).count == 1 && !(keyGet t 7).pressed && t.tku.fifo == []) = true ∧
    leaves (.touchScanEnd (List.replicate 12 0xFFFE) 0) (acquiring 200) (fun t => tchBase t 11 == 0xFFFE && (touchGet t 11).acquire == some 1) = true ∧
    leaves (.touchScanEnd (List.replicate 12 1) 0) (acquiring 201) (fun t => t.fbit pgTku (tchF F.TKU_TCH_STAT_ACQUIRED 11)) = true ∧
    leaves (.tkuEvtRead 0) f (fun t => t.host.out == [.readData 0 0x42] && t.tku.evtHi.get 0 0 == 5 && t.fget pgTku F.TKU_FIFO_HELD == 1) = true ∧
    leaves (.tkuFlush 0) f (fun t => t.tku.fifo == []) = true ∧
    leaves (.tkuClrDropped 0) (State.fset f pgTku F.TKU_FIFO_DROPPED 3) (fun t => t.fget pgTku F.TKU_FIFO_DROPPED == 0) = true ∧
    leaves (.reacquire 0) touchUp (fun t => (touchGet t 11).acquire == some 0) = true := by decide +kernel

/-! ### Bring-up and the test port -/

/-- The boot has got to stage `n`. -/
def booting (n : Nat) (s : State := up) : State :=
  let s := State.fset s pgChip F.CHIP_BOOT_STAGE n
  { s with host := { s.host with crs := true } }

theorem test_powerUp : let r := State.reset
    let l := { r with boot := { r.boot with loupeUp := true } }
    let p := { l with boot := { l.boot with pwrEn := true } }
    let c := { p with boot := { p.boot with corePg := true } }
    l.power.off = false ∧ c.time.running = false ∧ up.boot.corePg = true ∧ up.rtu.cmd = none ∧ keptPage pgPtb = false ∧ pgPtb ≠ pgChip ∧
    ¬ (pgPwm ≤ pgPtb ∧ pgPtb < pgPwm + up.var.pwmPairs) ∧
    leaves .pwrEnRaise l (fun t => t.boot.pwrEn) = true ∧ leaves .corePgRise p (fun t => t.boot.corePg) = true ∧
    leaves .planRefLock c (fun t => bootStage t == 1 && t.time.running && t.now == 0) = true ∧
    leaves .corePgFall up (fun t => !t.time.running && !t.boot.corePg && t.fget pgRst F.RST_CAUSE_CAUSE == 0) = true := by decide +kernel

theorem test_bootStages : let b := booting
    (∀ n, n < 7 → bootStage (b n) = n ∧ powered (b n) = true ∧ (b n).power.hot = false) ∧ (b 1).jtag.hold = false ∧ (b 2).rtu.cmd = none ∧
    pageBusy (b 4) pgRtu = false ∧ State.fbit (b 4) pgRtu F.PG_LOCK_LOCK = false ∧ (b 4).boot.copy.getD {} = {} ∧ storeState (b 6) ≠ stRecovering ∧
    leaves .fill (b 1) (fun t => bootStage t == 2) = true ∧
    leaves (.discover (some (31, 0xFFFF))) (b 2) (fun t => bootStage t == 3 && t.fget pgRtu F.RTU_INFO_SIZE_LOG2 == 31 && t.fget pgRtu F.RTU_INFO_ERASE_MAX == 0xFFFF) = true ∧
    leaves (.image true true) (b 3) (fun t => bootStage t == 4 && t.fget pgChip F.CHIP_BOOT_FAIL_A == 1) = true ∧
    leaves .preload (b 4) (fun t => bootStage t == 5) = true ∧
    leaves .preload { b 4 with boot := { (b 4).boot with copy := some { preloads := [(pgRtu, F.RTU_PART_EN_EN.off, 0xFFFF8001)] } } }
      (fun t => t.fget pgRtu F.RTU_PART_EN_EN == 0x8001) = true ∧
    leaves .hostReady (b 5) (fun t => bootStage t == 6 && !t.host.crs && storeState t == stNone) = true ∧
    leaves .storeDone (b 6) (fun t => bootStage t == 7) = true := by decide +kernel

/-- A copy of version 9 without preloads, for a store of four units, and the hash of its key: key and signature were worked out outside the model. -/
def bootImage : List Byte :=
  leBytes 192 0x45fe98de0984341adb1e7ffcd8d8a34279272ed8ab1491179ad1e48cfd1d539f10a490523955cbc2c2d3452458fcdf97c4733469f187905f5cb67347f4244eb80000000000000000000000000000000000000000000000000000000000000000442da9a716067956d91eaa02b93ad409490e87cd5e758ea6a331a1deb75ba846088bb9ff22ab291a74c86fc677ba897baadee370cc6129b82d170ba3fc26415c000000005678123400000000000400000000010000000009000000014f424c45
    ++ leBytes 64 0

def imaged : State :=
  let s := State.fset (booting 3) pgRtu F.RTU_INFO_SFDP_OK 1
  { s with fuses := { s.fuses with rootHash := 0x3205b5865384c1af85f6803686349f7a032c9dcd157b2ebdf7cf5a0ffd4a22e6 }, rtu := { s.rtu with flash := [(0, bootImage)] } }

set_option maxRecDepth 20000 in
theorem test_bootCopy : leaves (.image true true) imaged (fun t => t.fget pgChip F.CHIP_BOOT_FAIL_A == 0 && t.fget pgChip F.CHIP_BOOT_FAIL_B == 2
    && t.boot.copy == some { version := 9, storeSize := 4, vendor := 0x1234, subsys := 0x5678 } && t.fget pgRtu F.RTU_AREA_SIZE == 4) = true := by decide +kernel

/-- A resume object with KEEP 0xCAFE_F00D, in sector 4 of a store of one object. -/
def resumeBytes : List Byte := leBytes 4 0x53504D50 ++ leBytes 16 0 ++ leBytes 4 0xCAFEF00D ++ leBytes 40 0

def resumed : State :=
  let s := rtuUp (booting 6)
  let o : StoreObj := { cls := 5, len := 64, mapAt := 3, crc := crc32 resumeBytes, data := [4] }
  { s with rtu := { s.rtu with store := some { stored with objs := [(254, o)] }, flash := [(4, recBytes { typ := recData, seq := 7, obj := 254, recNo := 0, payload := resumeBytes })] },
           boot := { s.boot with powerOn := true, copy := some { resumeObj := 254 } } }

theorem test_storeDone : resumeKeep resumed = some 0xCAFEF00D ∧ resumed.boot.keepWritten = false ∧
    leaves .storeDone resumed (fun t => t.reg pgRst F.RST_KEEP_VALUE.off == 0xCAFEF00D && t.fget pgRst F.RST_CAUSE_CAUSE == 1) = true := by decide +kernel

/-- The device is held at RESET with DAP selected; a page of which the last 8 bytes are missing waits. -/
def heldDap : State := { booting 1 with jtag := { ir := 0x10, hold := true, pageAt := some 16, pageBytes := [(0, 7)] } }

def dapping : State := { up with jtag := { up.jtag with ir := 0x10 } }

theorem test_jtag : let v : State := { up with fuses := { up.fuses with rootHash := 5 } }
    powered up = true ∧ up.fuses.rootHash = 0 ∧ up.boot.corePg = true ∧ v.fuses.rootHash ≠ 0 ∧ dapping.jtag.ir = 0x10 ∧ dapping.host.crs = false ∧
    heldDap.jtag.ir = 0x10 ∧ held heldDap = true ∧ heldDap.boot.corePg = true ∧ heldDap.rtu.cmd = none ∧ heldDap.jtag.pageAt = some (0x1000 / 256) ∧
    leaves .idcode up (fun t => t.jtag.captured % 2 ^ 12 == 0xA6D) = true ∧
    leaves .fuseRead v (fun t => t.jtag.captured == 5) = true ∧ leaves .holdReset up (fun t => t.jtag.hold) = true ∧
    leaves .bypass heldDap (fun t => !t.jtag.hold) = true ∧
    leaves .jtagChipReset up (fun t => t.fget pgRst F.RST_CAUSE_CAUSE == 6 && bootStage t == 1) = true ∧
    leaves (.fuseProg 9 true none) up (fun t => t.fuses.rootHash == 9) = true ∧ leaves (.fuseProg 9 true none) v (fun t => t.fuses.rootHash == 5) = true ∧
    leaves (.regRead 0x4) dapping (fun t => t.jtag.dapData == (regRead dapping 0 0 4).1.setWidth 64 && !t.jtag.dapError) = true ∧
    leaves (.regWrite (pgRtu * 4096 + 0x5C) 0xFFFFFFFF) dapping (fun t => t.reg pgRtu 0x5C == 0xFFFF) = true ∧
    leaves (.flashRead 0x1000) heldDap (fun t => t.jtag.dapData == BitVec.allOnes 64) = true ∧
    leaves (.flashErase 0x7FFFFFFF) heldDap (fun t => t.rtu.cmd == some (.erase 0x7FFFF)) = true ∧
    leaves (.flashWrite 0x10F0 1) heldDap (fun t => t.jtag.pageAt == some 16 && t.jtag.pageBytes.get 0xFF 0xF0 == 1) = true ∧
    leaves (.flashWrite 0x10F8 2) heldDap (fun t => match t.rtu.cmd with
      | some (.program 1 bs) => bs.length == 256 && bs.getD 0 0 == 7 && bs.getD 248 0 == 2
      | _ => false) = true := by decide +kernel

/-! ### Ill-formed commands -/

/-- One command for each check of `Instr.wf`: a partition, page, offset, function, island, channel, window, queue pair, slot, job, tile, table slot, core, solver
slot, pin, pair, trip input, source, port, epoch, entry, cycle, mailbox, sequence number, model slot, request, region, memory channel, queue, timer and
DAP address just past its range. -/
theorem test_illFormed : ([.ptbNowRead 16, .softResetDone 2064, .registerWrite 0 0 4096 0xF 0, .flr 16, .markerMiss 70, .planOffWindow 32 0, .guardStart 0 16, .cqEntryWrite 2048,
    .push 0 0 4 0, .jobReady 512, .waitBpResume 68, .halt 0 16, .windowTest 32, .pinEdge 8 true true, .deadTimeExpiry 16 0, .lensCoreFail 0 4,
    .loupeSourceActive 32, .presNLow 8, .ready 0 65536, .stepBoundary 8 [], .rqtAllocate 1024, .scrubPass 256 [], .patrolRead 2 [],
    .repairWriteback 272, .pmuTimerFire 4, .flashErase 0x80000000, .ackTimerExpiry 0 8, .rtoExpiry 0 0 65536, .registerWrite 16 0 0 0xF 0,
    .registerWrite 0 2064 0 0xF 0, .pgErrClr 16 0 1, .pgErrClr 0 2064 1] : List Instr).all (fun i => !i.wf) = true := by decide +kernel

/-- The same at the last value of each range. -/
theorem test_wellFormed : ([.ptbNowRead 15, .softResetDone 2063, .registerWrite 15 2063 4095 0xF 0, .flr 15, .markerMiss 69, .planOffWindow 31 0, .guardStart 31 15,
    .cqEntryWrite 2047, .push 15 2047 3 0, .jobReady 511, .halt 67 15, .windowTest 31, .lensCoreFail 2063 3, .presNLow 7, .ready 7 65535,
    .rqtAllocate 1023, .scrubPass 255 [], .patrolRead 1 [], .repairWriteback 271, .pmuTimerFire 3, .flashErase 0x7FFFFFFF] : List Instr).all (fun i => i.wf) = true := by
  decide +kernel

/-- The table gives no bits to any row: no word spells a command, and placing one changes nothing. -/
theorem test_noWords : decodeTableWord 32 0 = none ∧ decodeTableWord 512 (2 ^ 512 - 1) = none := by decide +kernel

/-- With a command in front, a step runs it with the rest of the queue. -/
theorem test_step : (match step { up with pending := [.perstAssert, .idcode] } with
    | .next t => t.pending == [.idcode] && t.host.perst
    | _ => false) = true := by decide +kernel

end Sys2Proof.Tests
end

section
/-! SUPPORT. The mirror window and the latch of a held LOOP_PIN_CFG write: what a refresh leaves in each word (R21), and what the LOOP
global page's input latch leaves of the registers and of the held writes (R19, "LOOP global page"). -/

namespace Sys2Proof

/-- A table filled key by key from a function reads the function at the keys filled, and elsewhere what it read before. -/
theorem Tab.get_foldl_set {α : Type} [DecidableEq α] (f : Nat → α) (d : α) (l : List Nat) (t : Tab α) (k : Nat) :
    (l.foldl (fun t i => Tab.set t d i (f i)) t).get d k = if k ∈ l then f k else t.get d k := by
  induction l generalizing t with
  | nil => simp
  | cons i l ih =>
    rw [List.foldl_cons, ih]
    by_cases hl : k ∈ l
    · simp [hl]
    · by_cases hi : k = i
      · subst hi; simp [hl]
      · simp [hl, hi, Tab.get_set_ne t d d (f i) hi]

namespace Machine

/-! ### The mirror window -/

/-- The word that a refresh writes to word `i` of the window (R21). -/
def mirrorWord (s : State) (i : Nat) : DWord := if mirrorReserved i then s.time.bpn else mirrorContent s i

/-- The window after a refresh, as `execMirrorRefresh` fills it. -/
def mirrorFill (s : State) : Tab DWord := (mirrorWords s).foldl (fun m i => Tab.set m 0 i (mirrorWord s i)) []

/-- The first and the last word of each of the 16 mirror pages are written. -/
theorem mem_mirrorWords_of_reserved (s : State) {i : Nat} (hi : i < 8192) (h : mirrorReserved i = true) : i ∈ mirrorWords s := by
  refine List.mem_append_left _ (List.mem_flatMap.mpr ⟨i / 512, by simp; omega, ?_⟩)
  simp only [mirrorReserved, Bool.or_eq_true, decide_eq_true_eq] at h
  simp only [List.mem_cons, List.not_mem_nil, or_false]
  omega

/-- A release of a mirror register puts the register's word among those written. -/
theorem mem_mirrorWords_of_release {s : State} {i : Nat} {x : PlanRelease} (hi : i < 8192) (hx : x ∈ relPlans s (8192 + i)) :
    i ∈ mirrorWords s := by
  refine List.mem_append_right _ ?_
  unfold relPlans at hx
  split at hx
  · cases hx
  · obtain ⟨hm, hr⟩ := List.mem_filter.mp hx
    have hr : x.reg = 8192 + i := of_decide_eq_true hr
    exact List.mem_map.mpr ⟨x, List.mem_filter.mpr ⟨hm, by simp [hr]; omega⟩, by omega⟩

/-- A word that a refresh does not write reads 0, which is the word it is to read: it is not reserved and no release feeds it. -/
theorem mirrorWord_of_not_mem {s : State} {i : Nat} (hi : i < 8192) (h : i ∉ mirrorWords s) : mirrorWord s i = 0 := by
  have hres : ¬ mirrorReserved i = true := fun hr => h (mem_mirrorWords_of_reserved s hi hr)
  have hrel : relPlans s (8192 + i) = [] := List.eq_nil_iff_forall_not_mem.mpr fun _ hx => h (mem_mirrorWords_of_release hi hx)
  unfold mirrorWord mirrorContent
  rw [if_neg hres, if_pos hrel]

/-- Every word of the window reads what a refresh gives it, written or not. -/
theorem mirrorFill_get (s : State) {i : Nat} (hi : i < 8192) : (mirrorFill s).get 0 i = mirrorWord s i := by
  unfold mirrorFill
  rw [Tab.get_foldl_set]
  split
  · rfl
  · rename_i h; exact (mirrorWord_of_not_mem hi h).symm

/-- The window's content does not depend on the PTB's count. -/
theorem mirrorFill_reach (s : State) (k : Nat) : mirrorFill (s.reach k) = mirrorFill s := by rw [reach_shape]; rfl

/-- With a plan in force and the device awake, a refresh fills the window at the mirror phase and changes only time. -/
theorem execMirrorRefresh_awake {s : State} {p : PlanImage} (hp : s.time.plan = some p) (ha : asleep s = false) :
    execMirrorRefresh s = .next { s with time := { s.time with
      ptb := (s.reach (s.time.startTick + p.mirrorPhase)).time.ptb, mirror := mirrorFill s } } := by
  have h : execMirrorRefresh s = .next (timeSet (s.reach (s.time.startTick + p.mirrorPhase))
      { (s.reach (s.time.startTick + p.mirrorPhase)).time with mirror := mirrorFill (s.reach (s.time.startTick + p.mirrorPhase)) }) := by
    unfold execMirrorRefresh
    simp only [hp, ha]
    rfl
  rw [h, mirrorFill_reach, reach_shape]
  rfl

/-! ### Held writes of LOOP_PIN_CFG -/

/-- LOOP_PIN_CFG of pin `n`. -/
abbrev pinCfgOff (n : Nat) : Nat := F.LOOP_PIN_CFG_MODE.off + 4 * n

/-- LOOP_PIN_COUNT of pin `n`. -/
abbrev pinCountOff (n : Nat) : Nat := F.LOOP_PIN_COUNT_COUNT.off + 4 * n

/-- Page 0x020 is the LOOP global page of every variant. -/
theorem classOf_loopG (v : Variant) : classOf v pgLoopG = some .loopg := by cases v <;> rfl

/-- A page whose held writes are taken holds none. -/
theorem takeHeld_heldWrites (s : State) (p : Nat) : ((takeHeld s p).2.page p).heldWrites = [] :=
  congrArg PageSt.heldWrites (page_modPage_same s p _)

/-- Taking a page's held writes leaves every other page. -/
theorem takeHeld_page_ne (s : State) {p q : Nat} (h : q ≠ p) : (takeHeld s p).2.page q = s.page q := page_modPage_ne s _ h

/-- Taking a page's held writes does not make it busy or free. -/
theorem takeHeld_pageBusy (s : State) (p : Nat) : pageBusy (takeHeld s p).2 p = pageBusy s p := by
  unfold pageBusy takeHeld
  rw [page_modPage_same, modPage_fbit]

/-- A single held write is taken from the page and reaches its register. -/
theorem flushHeld_single {s : State} {p o : Nat} {w : Word} (h : (s.page p).heldWrites = [(o, w)]) :
    flushHeld s p = writeNow (takeHeld s p).2 0 p o w := by
  unfold flushHeld takeHeld applyHeld eachIn
  rw [h]
  rfl

/-- On the LOOP global page a write of LOOP_PIN_CFG takes effect by the page's own rule. -/
theorem writeNow_pinCfg {s : State} {n : Nat} (part : Nat) (w : Word) (hn : n < 8) (hb : pageBusy s pgLoopG = false) :
    writeNow s part pgLoopG (pinCfgOff n) w = pinCfgTake s (pinCfgOff n) w := by
  have hlo : ¬ pinCfgOff n < 0x40 := by simp only [pinCfgOff]; omega
  have hr : 0x060 ≤ pinCfgOff n ∧ pinCfgOff n < 0x080 := by simp only [pinCfgOff]; omega
  unfold writeNow blockWrite
  simp only [classOf_loopG, hb, hlo, hr]
  simp

/-- What taking a LOOP_PIN_CFG write does: the pin has its configuration, and its counter is cleared on a MODE change. -/
theorem pinCfgTake_eq (s : State) (n : Nat) (w : Word) :
    pinCfgTake s (pinCfgOff n) w =
      if bitsOf w 0 2 ≠ s.fget pgLoopG (F.LOOP_PIN_CFG_MODE.sh (4 * n))
      then (s.setReg pgLoopG (pinCfgOff n) (w &&& 0xFF07)).setReg pgLoopG (pinCountOff n) 0
      else s.setReg pgLoopG (pinCfgOff n) (w &&& 0xFF07) := by
  have e : (pinCfgOff n - F.LOOP_PIN_CFG_MODE.off) / 4 = n := by simp only [pinCfgOff]; omega
  unfold pinCfgTake
  simp only [e]

/-- Only the register file changes. -/
theorem pinCfgTake_shape (s : State) (n : Nat) (w : Word) :
    pinCfgTake s (pinCfgOff n) w = { s with regs := (pinCfgTake s (pinCfgOff n) w).regs } := by
  rw [pinCfgTake_eq]
  split <;> rfl

/-- The hidden state of every page is as before. -/
theorem pinCfgTake_page (s : State) (n : Nat) (w : Word) (q : Nat) : (pinCfgTake s (pinCfgOff n) w).page q = s.page q := by
  rw [pinCfgTake_shape]; rfl

/-- No register changes but the pin's configuration and counter. -/
theorem pinCfgTake_regs (s : State) {n : Nat} (w : Word) (hn : n < 8) :
    RegsOnly [(pgLoopG, pinCfgOff n), (pgLoopG, pinCountOff n)] s (pinCfgTake s (pinCfgOff n) w) := by
  have hcfg : RegsOnly [(pgLoopG, pinCfgOff n), (pgLoopG, pinCountOff n)] s (s.setReg pgLoopG (pinCfgOff n) (w &&& 0xFF07)) :=
    (RegsOnly.refl _ s).setReg (by simp) (by simp only [pinCfgOff]; omega)
  rw [pinCfgTake_eq]
  split
  · exact hcfg.setReg (by simp) (by simp only [pinCountOff]; omega)
  · exact hcfg

/-- The configuration register has the written word's MODE, INVERT and FILTER. -/
theorem pinCfgTake_cfg (s : State) (n : Nat) (w : Word) :
    (pinCfgTake s (pinCfgOff n) w).reg pgLoopG (pinCfgOff n) = w &&& 0xFF07 := by
  rw [pinCfgTake_eq]
  split
  · rw [reg_setReg_ne _ _ (by simp only [pinCfgOff, pinCountOff]; omega), reg_setReg_same]
  · rw [reg_setReg_same]

/-- The counter is cleared on a MODE change and keeps its count otherwise. -/
theorem pinCfgTake_count (s : State) (n : Nat) (w : Word) :
    (pinCfgTake s (pinCfgOff n) w).reg pgLoopG (pinCountOff n) =
      if bitsOf w 0 2 ≠ s.fget pgLoopG (F.LOOP_PIN_CFG_MODE.sh (4 * n)) then 0 else s.reg pgLoopG (pinCountOff n) := by
  rw [pinCfgTake_eq]
  split
  · rw [reg_setReg_same]
  · rw [reg_setReg_ne _ _ (by simp only [pinCfgOff, pinCountOff]; omega)]

/-- At a base-period start, or with the PTB stopped, the LOOP global page's input latch takes its held writes (R19). -/
theorem execInputLatch_loopG {s : State} (h : s.time.running = false ∨ s.now = s.time.startTick) :
    execInputLatch pgLoopG s = .next (flushHeld s pgLoopG) := by
  unfold execInputLatch
  rw [if_pos ⟨Or.inr rfl, h.imp_left fun hr => by simp [hr]⟩]

/-- The latch of one held LOOP_PIN_CFG write: the page holds no write any more, and the write is taken. -/
theorem execInputLatch_pinCfg {s : State} {n : Nat} {w : Word} (hn : n < 8) (hw : (s.page pgLoopG).heldWrites = [(pinCfgOff n, w)])
    (hb : pageBusy s pgLoopG = false) (ht : s.time.running = false ∨ s.now = s.time.startTick) :
    execInputLatch pgLoopG s = .next (pinCfgTake (takeHeld s pgLoopG).2 (pinCfgOff n) w) := by
  rw [execInputLatch_loopG ht, flushHeld_single hw, writeNow_pinCfg 0 w hn ((takeHeld_pageBusy s pgLoopG).trans hb)]

/-! ### The statement -/

/-- Settles O36: a refresh fills the window from `mirrorWord`, and the latch of a held LOOP_PIN_CFG write is `pinCfgTake` on the page
with no held writes. -/
theorem mirrorAndLatches : Obligations.MirrorAndLatches := by
  unfold Obligations.MirrorAndLatches
  refine ⟨fun s p hp ha => ?_, fun s n w hn hw hb ht => ?_⟩
  · refine ⟨_, execMirrorRefresh_awake hp ha, rfl, fun i hi => ?_, ?_⟩
    · dsimp only
      exact mirrorFill_get s hi
    · dsimp only
  · refine ⟨_, execInputLatch_pinCfg hn hw hb ht, ?_, ?_, pinCfgTake_cfg _ n w, ?_, ?_, ?_, ?_⟩
    · rw [pinCfgTake_shape]; rfl
    · exact pinCfgTake_regs (takeHeld s pgLoopG).2 w hn
    · exact fun hm => (pinCfgTake_count _ n w).trans (if_pos hm)
    · exact fun hm => (pinCfgTake_count _ n w).trans (if_neg (not_not.mpr hm))
    · rw [pinCfgTake_page, takeHeld_heldWrites]
    · exact fun q hq => (pinCfgTake_page _ n w q).trans (takeHeld_page_ne s hq)

end Machine
end Sys2Proof
end

section
/-! SUPPORT. Plan time and crossings: what an error capture leaves in the registers (R85, R147), the PTB's tick and its reads (R36, R39,
R93), base-period starts and markers (R37, R41 to R43), and the data that cross into a Plan page (R46, R47, R158). -/

namespace Sys2Proof.Machine

/-! ### What a capture leaves -/

/-- The part of a capture that acts on the page itself, before the event enters the partition's log (R85). -/
def captureOnPage (s : State) (p code part detail : Nat) : State :=
  if s.fbit p F.PG_ERR0_VALID then s.fset p F.PG_ERR0_MORE 1
  else pageIrq
    (((s.setReg p F.PG_ERR0_CODE.off (BitVec.ofNat 32 (code % 2 ^ 16 + (part % 16) * 2 ^ 16 + 2 ^ 31))).setReg64 p F.PG_ERR1.off F.PG_ERR2.off
      (stampOf s p code)).setReg p F.PG_ERR3.off (BitVec.ofNat 32 detail)) p (2 ^ 31)

/-- The registers of the page that a capture writes. -/
def errRegs (p : Nat) : List (Nat × Nat) :=
  [(p, F.PG_IRQ_STAT_ERR.off), (p, F.PG_ERR0_CODE.off), (p, F.PG_ERR1.off), (p, F.PG_ERR2.off), (p, F.PG_ERR3.off)]

theorem capture_eq_logAppend (s : State) (p code part detail : Nat) :
    capture s p code part detail = logAppend (captureOnPage s p code part detail) part p code detail (stampOf s p code) := rfl

theorem captureRegs_eq_append (s : State) (p part : Nat) : captureRegs s p part = errRegs p ++ logRegs s part := rfl

theorem captureOnPage_regs (s : State) (p code part detail : Nat) : RegsOnly (errRegs p) s (captureOnPage s p code part detail) := by
  unfold captureOnPage
  split
  · exact (RegsOnly.refl _ s).fset (by simp [errRegs]) (by decide)
  · refine RegsOnly.pageIrq (.setReg (.setReg64 (.setReg (.refl _ s) ?_ ?_) ?_ ?_ ?_ ?_) ?_ ?_) ?_ <;> simp [errRegs]

/-- The place in the partition's log is not moved by what a capture does to the page. -/
theorem captureOnPage_logRegs (s : State) (p code part detail : Nat) : logRegs (captureOnPage s p code part detail) part = logRegs s part := by
  have h := (captureOnPage_regs s p code part detail).fget (p := pgPart + part) (f := F.PART_LOG_STAT_NEXT) (by decide) (by simp [errRegs])
  simp only [logRegs, h]

/-- A capture writes the registers that `captureRegs` lists, and no other. -/
theorem capture_regs (s : State) (p code part detail : Nat) : RegsOnly (captureRegs s p part) s (capture s p code part detail) := by
  rw [capture_eq_logAppend, captureRegs_eq_append]
  refine ((captureOnPage_regs s p code part detail).mono fun _ hx => List.mem_append_left _ hx).trans ?_
  have hlog := logAppend_regs (captureOnPage s p code part detail) part p code detail (stampOf s p code)
  rw [captureOnPage_logRegs] at hlog
  exact hlog.mono fun _ hx => List.mem_append_right _ hx

@[simp] theorem capture_time (s : State) (p code part detail : Nat) : (capture s p code part detail).time = s.time := by
  rw [capture_shape]

/-- PG_ERR0 is no register of a partition's log. -/
theorem err0_not_mem_logRegs (s : State) (p part : Nat) : (p, F.PG_ERR0_CODE.off) ∉ logRegs s part := by
  simp only [logRegs, List.mem_cons, Prod.mk.injEq, Nat.reduceEqDiff, and_false, List.not_mem_nil, or_self, or_false, not_or, not_and]
  omega

/-- With no capture held, PG_ERR0 takes VALID, the partition and the code. -/
theorem capture_err0 {s : State} {p : Nat} (code part detail : Nat) (h : s.fbit p F.PG_ERR0_VALID = false) :
    (capture s p code part detail).reg p F.PG_ERR0_CODE.off = BitVec.ofNat 32 (code % 2 ^ 16 + (part % 16) * 2 ^ 16 + 2 ^ 31) := by
  have hlog := logAppend_regs (captureOnPage s p code part detail) part p code detail (stampOf s p code) p F.PG_ERR0_CODE.off (by decide)
    (err0_not_mem_logRegs _ p part)
  rw [capture_eq_logAppend, hlog]
  unfold captureOnPage
  rw [if_neg (by simp [h]), pageIrq_reg _ _ _ (by decide), if_neg (by simp), reg_setReg_ne _ _ (by simp)]
  unfold State.setReg64
  rw [reg_setReg_ne _ _ (by simp), reg_setReg_ne _ _ (by simp), reg_setReg_same]

/-- With no capture held, the page shows a valid capture with the event's code. -/
theorem capture_shows {s : State} {p code : Nat} (part detail : Nat) (h : s.fbit p F.PG_ERR0_VALID = false) (hc : code < 2 ^ 16) :
    (capture s p code part detail).fget p F.PG_ERR0_VALID = 1 ∧ (capture s p code part detail).fget p F.PG_ERR0_CODE = code := by
  have hw := capture_err0 code part detail h
  simp only [State.fget, hw, bitsOf, BitVec.toNat_ofNat, Nat.shiftRight_eq_div_pow]
  omega

/-! ### The PTB -/

/-- What the PTB reaching a tick leaves is lost when the time state is set. -/
theorem timeSet_reach (s : State) (k : Nat) (t : TimeSt) : timeSet (s.reach k) t = timeSet s t := by
  rw [reach_shape]; rfl

@[simp] theorem reach_startTick (s : State) (k : Nat) : (s.reach k).time.startTick = s.time.startTick := by rw [reach_shape]
@[simp] theorem reach_copies (s : State) (k : Nat) : (s.reach k).time.copies = s.time.copies := by rw [reach_shape]
@[simp] theorem reach_landing (s : State) (k : Nat) : (s.reach k).time.landing = s.time.landing := by rw [reach_shape]
@[simp] theorem reach_consumed (s : State) (k : Nat) : (s.reach k).time.consumed = s.time.consumed := by rw [reach_shape]
@[simp] theorem reach_var (s : State) (k : Nat) : (s.reach k).var = s.var := by rw [reach_shape]; rfl
@[simp] theorem reach_fget (s : State) (k p : Nat) (f : Fld) : (s.reach k).fget p f = s.fget p f := by simp only [State.fget, reach_reg]
@[simp] theorem reach_fbit (s : State) (k p : Nat) (f : Fld) : (s.reach k).fbit p f = s.fbit p f := by simp only [State.fbit, reach_fget]

/-- Settles O2: a step on an empty queue is `idle`, which splits on whether the PTB counts. -/
theorem idleCountsOneTick : Obligations.IdleCountsOneTick := by
  unfold Obligations.IdleCountsOneTick
  intro s hq
  have hstep : step s = .next (idle s) := by simp only [step, hq]
  refine ⟨fun hr => ?_, fun hr => ?_⟩
  · rw [hstep, idle, if_pos hr]
  · rw [hstep, idle, if_neg (by simp [hr])]

/-! ### Reads of Plan time -/

/-- Every partition sees the PTB page: partition 0 in full, any other read-only (R88). -/
theorem viewOf_ptb (s : State) (part : Nat) : viewOf s part pgPtb = .full ∨ viewOf s part pgPtb = .readOnly := by
  by_cases hz : part = 0
  · exact .inl (by simp [viewOf, classOf, hz])
  · exact .inr (by simp [viewOf, classOf, hz])

/-- A partition sees the PTB page, so a read of it acts once requests reach the device. -/
theorem pageRead_ptb {s : State} (part : Nat) (k : State → Word × State) (h : s.host.crs = false) :
    pageRead s part pgPtb k = hostNote (k s).2 (.readData part (k s).1) := by
  unfold pageRead hostReady
  rw [if_neg (by simp [h])]
  rcases viewOf_ptb s part with hv | hv <;> simp only [hv]

/-- The low half of a 64-bit count. -/
theorem ofNat_toNat_eq_extract_low (b : BitVec 64) : BitVec.ofNat 32 b.toNat = b.extractLsb' 0 32 := by
  simp [BitVec.extractLsb']

/-- The high half of a 64-bit count. -/
theorem ofNat_toNat_div_eq_extract_high (b : BitVec 64) : BitVec.ofNat 32 (b.toNat / 2 ^ 32) = b.extractLsb' 32 32 := by
  simp [BitVec.extractLsb', Nat.shiftRight_eq_div_pow]

/-- Settles O11: the read acts by `pageRead_ptb`, and the two halves of the count are what is answered and what is captured. -/
theorem timeReadsCapture : Obligations.TimeReadsCapture := by
  unfold Obligations.TimeReadsCapture
  intro s part hcrs
  refine ⟨⟨_, congrArg nxt (pageRead_ptb part (fun s => ptbNowRead s part) hcrs), rfl, ?_, fun n hn => Tab.get_set_ne _ _ _ _ hn, ?_⟩,
    ⟨_, congrArg nxt (pageRead_ptb part (fun s => ptbBpnRead s part) hcrs), rfl, ?_, fun n hn => Tab.get_set_ne _ _ _ _ hn, ?_⟩⟩
  · exact (Tab.get_set_same ..).trans (ofNat_toNat_div_eq_extract_high _)
  · rw [← ofNat_toNat_eq_extract_low]; rfl
  · exact (Tab.get_set_same ..).trans (ofNat_toNat_div_eq_extract_high _)
  · rw [← ofNat_toNat_eq_extract_low]; rfl

/-! ### Base-period starts -/

/-- A base-period start changes the PTB, the start tick, the base-period number and the pulses sent, and nothing else. -/
theorem basePeriodStart_eq (s : State) :
    basePeriodStart s = timeSet s { s.time with
      ptb := (s.reach (s.time.startTick + s.time.period)).time.ptb
      startTick := s.time.startTick + s.time.period
      bpn := s.time.bpn + 1
      syncOut := s.time.syncOut + if s.fget pgPtb F.PTB_SYNC_CTRL_MODE = 1 then 1 else 0 } := by
  unfold basePeriodStart
  dsimp only
  rw [timeSet_reach, reach_fget, reach_shape]
  split <;> rfl

/-- Without a unit that waits to join, BASE_PERIOD_START is the base-period start alone. -/
theorem execBasePeriodStart_noneJoins {s : State} (hr : s.time.running = true)
    (hj : ∀ i, i < s.var.facetTiles → (s.page (pgFt + i)).joining = false) : execBasePeriodStart s = .next (basePeriodStart s) := by
  have hnone : ((List.range (basePeriodStart s).var.facetTiles).filter fun i => ((basePeriodStart s).page (pgFt + i)).joining) = [] := by
    rw [basePeriodStart_eq]
    exact List.filter_eq_nil_iff.mpr fun i hi => by
      have hi : i < s.var.facetTiles := List.mem_range.mp hi
      simpa [State.page] using hj i hi
  unfold execBasePeriodStart
  rw [if_neg (by simp [hr])]
  dsimp only
  rw [hnone]
  split <;> rfl

/-- Where the PTB stands after it reaches a tick while it counts. -/
theorem reach_ptb_of_lt {s : State} {k : Nat} (hr : s.time.running = true) (h : s.now < k) : (s.reach k).time.ptb = BitVec.ofNat 64 k := by
  rw [State.reach, if_pos ⟨hr, h⟩]

/-- The PTB does not go back to a tick it has passed. -/
theorem reach_of_le {s : State} {k : Nat} (h : k ≤ s.now) : s.reach k = s := by
  rw [State.reach, if_neg fun hc => absurd hc.2 (by omega)]

/-! ### Markers -/

/-- The state in which an island has taken a marker `delay` ticks after the base-period start (R41). -/
def markerTaken (s : State) (i delay : Nat) : State :=
  timeSet s { s.time with
    ptb := (s.reach (s.time.startTick + delay)).time.ptb
    copies := s.time.copies.set {} i { off := 12 - (delay : Int), valid := true, misses := 0, marked := some s.time.startTick } }

/-- A marker that arrives in time is taken, and a valid copy that steps by more than 2 ticks is captured (R42). -/
theorem execMarkerArrival_takes {s : State} {i delay : Nat} (hr : s.time.running = true) (ha : asleep s = false) (hb : islandBuilt s i = true)
    (hd : delay ≤ 64) (hm : (s.time.copies.get {} i).marked ≠ some s.time.startTick) :
    execMarkerArrival i delay s = .next
      (if (s.time.copies.get {} i).valid ∧
          (12 - (delay : Int) - (s.time.copies.get {} i).off > 2 ∨ (s.time.copies.get {} i).off - (12 - (delay : Int)) > 2)
        then capture (markerTaken s i delay) (islandPage i) 0x0F00 0 0 else markerTaken s i delay) := by
  unfold execMarkerArrival
  dsimp only
  rw [if_pos ⟨hr, by simp [ha], hb, hd, hm⟩, reach_startTick, reach_copies, timeSet_reach, reach_shape]
  rfl

theorem markerTaken_shape (s : State) (i delay : Nat) : markerTaken s i delay = { s with time := (markerTaken s i delay).time } := rfl

theorem markerTaken_copies (s : State) (i delay : Nat) :
    (markerTaken s i delay).time.copies =
      s.time.copies.set {} i { off := 12 - (delay : Int), valid := true, misses := 0, marked := some s.time.startTick } := rfl

/-- Taking a marker writes no register. -/
theorem markerTaken_fbit (s : State) (i delay p : Nat) (f : Fld) : (markerTaken s i delay).fbit p f = s.fbit p f := rfl

/-- The state in which an island's copy counts one more marker missed (R43). -/
def markerMissed (s : State) (i : Nat) : State :=
  let c := s.time.copies.get {} i
  let u := s.reach ((s.time.startTick : Int) + 64 - c.off).toNat
  { u with time := { u.time with copies := s.time.copies.set {} i { c with misses := c.misses + 1, missed := some s.time.startTick } } }

/-- A miss is captured on the island's page; at the second in a row the unit fails (R43). -/
theorem execMarkerMiss_counts {s : State} {i : Nat} (hr : s.time.running = true) (ha : asleep s = false) (hb : islandBuilt s i = true)
    (hv : (s.time.copies.get {} i).valid = true) (hm : (s.time.copies.get {} i).marked ≠ some s.time.startTick)
    (hs : (s.time.copies.get {} i).missed ≠ some s.time.startTick) (ho : s.fbit (islandPage i) F.PG_STAT_OUT_OF_SERVICE = false) :
    execMarkerMiss i s = .next
      (if (s.time.copies.get {} i).misses + 1 < 2 then capture (markerMissed s i) (islandPage i) 0x0F01 0 0
        else if i < 68 then tileFail (capture (markerMissed s i) (islandPage i) 0x0F01 0 0) i 0
        else islandFail (capture (markerMissed s i) (islandPage i) 0x0F01 0 0) i 0) := by
  unfold execMarkerMiss
  dsimp only
  rw [if_pos ⟨hr, by simp [ha], hb, hv, hm, hs, by simp [ho]⟩, reach_copies]
  rfl

/-- Settles O12: the base-period start by `basePeriodStart_eq`, a marker by `markerTaken` and a miss by `markerMissed`. -/
theorem basePeriodAndMarkers : Obligations.BasePeriodAndMarkers := by
  unfold Obligations.BasePeriodAndMarkers
  intro s hr
  refine ⟨fun hj => ?_, fun i delay ha hb hd hm => ?_, fun i ha hb hv hm hs ho => ?_⟩
  · refine ⟨_, execBasePeriodStart_noneJoins hr hj, ?_⟩
    rw [basePeriodStart_eq]
    exact ⟨rfl, rfl, rfl, fun h => reach_ptb_of_lt hr h, fun h => congrArg (·.time.ptb) (reach_of_le h), rfl⟩
  · dsimp only
    refine ⟨_, execMarkerArrival_takes hr ha hb hd hm, ?_⟩
    split
    · rename_i hstep
      obtain ⟨hv, hstep⟩ := hstep
      rw [capture_time, markerTaken_copies]
      refine ⟨Tab.get_set_same .., fun k hk => Tab.get_set_ne _ _ _ _ hk, fun hq => ?_, fun _ _ he => ?_⟩
      · rcases hq with hq | hq
        · simp [hv] at hq
        · omega
      · exact (capture_shows 0 0 ((markerTaken_fbit ..).trans he) (by decide)).symm
    · rename_i hstep
      rw [markerTaken_copies]
      refine ⟨Tab.get_set_same .., fun k hk => Tab.get_set_ne _ _ _ _ hk, fun _ => markerTaken_shape .., fun hv hq => ?_⟩
      exact absurd ⟨hv, by omega⟩ hstep
  · have hmiss := execMarkerMiss_counts hr ha hb hv hm hs ho
    refine ⟨fun h0 => ?_, fun h1 hi => ?_, fun h1 hi => ?_⟩
    · rw [if_pos (by omega)] at hmiss
      exact hmiss
    · rw [if_neg (by omega), if_pos hi] at hmiss
      exact hmiss
    · rw [if_neg (by omega), if_neg (by omega)] at hmiss
      exact hmiss

/-! ### Crossings -/

/-- The landing buffer of a page, as the tables of crossings number it (R46). -/
abbrev landingKey (page idx : Nat) : Nat := 4096 * page + idx

/-- The state in which the consumer under a key has taken a datum, and its landing buffer is empty (R47). -/
def datumTaken (s : State) (k : Nat) (d : Datum) : State :=
  timeSet s { s.time with landing := s.time.landing.del k, consumed := s.time.consumed.set {} k d }

theorem datumTaken_consumed_same (s : State) (k : Nat) (d : Datum) : (datumTaken s k d).time.consumed.get {} k = d := Tab.get_set_same ..

theorem datumTaken_consumed_ne (s : State) {j k : Nat} (d : Datum) (h : j ≠ k) :
    (datumTaken s k d).time.consumed.get {} j = s.time.consumed.get {} j := Tab.get_set_ne _ _ _ d h

theorem datumTaken_landing_same (s : State) (k : Nat) (d : Datum) : (datumTaken s k d).time.landing.find? k = none := Tab.find?_del_same ..

theorem datumTaken_landing_ne (s : State) {j k : Nat} (d : Datum) (h : j ≠ k) :
    (datumTaken s k d).time.landing.find? j = s.time.landing.find? j := Tab.find?_del_ne _ h

section PlanPage
variable {s : State} {page idx : Nat} {c : PageClass} (hc : classOf s.var page = some c) (hp : domainOf c = .plan) (hi : idx < 4096)
include hc hp hi

/-- On a Plan page a datum that arrives is put in its landing buffer. -/
theorem execCrossingArrival_plan (data : Datum) (tick : Nat) :
    execCrossingArrival page idx data tick s = .next (timeSet (s.reach tick) { (s.reach tick).time with
      landing := s.time.landing.ins (landingKey page idx) data }) := by
  unfold execCrossingArrival
  dsimp only
  rw [reach_var, hc, reach_landing]
  dsimp only
  rw [if_pos ⟨hp, hi⟩]

/-- A datum that waits is taken. -/
theorem execScheduledCycle_waits (src : Option Nat) {d : Datum} (hd : s.time.landing.find? (landingKey page idx) = some d) :
    execScheduledCycle page idx src s = .next (datumTaken s (landingKey page idx) d) := by
  unfold execScheduledCycle
  simp only [hc, hp, hd, datumTaken]
  rw [if_neg (by simp [hi])]

/-- With none there and no source named, poison is taken and the page captures CROSSING_LATE. -/
theorem execScheduledCycle_late (hd : s.time.landing.find? (landingKey page idx) = none) :
    execScheduledCycle page idx none s = .next (datumTaken (capture s page 0x0F02 0 0) (landingKey page idx) { poison := true }) := by
  unfold execScheduledCycle
  simp only [hc, hp, hd, datumTaken]
  rw [if_neg (by simp [hi])]

/-- With none there and the source at a lost position, a datum marked lost is taken and nothing is captured. -/
theorem execScheduledCycle_lost {p : Nat} (hd : s.time.landing.find? (landingKey page idx) = none) (hl : p ∈ s.time.lost) :
    execScheduledCycle page idx (some p) s = .next (datumTaken s (landingKey page idx) { lost := true }) := by
  unfold execScheduledCycle
  simp only [hc, hp, hd, datumTaken]
  rw [if_neg (by simp [hi]), if_pos hl]

end PlanPage

/-- Settles O14: each case of the two commands leaves `datumTaken`, or the datum in its buffer. -/
theorem crossingsAreTakenOnce : Obligations.CrossingsAreTakenOnce := by
  unfold Obligations.CrossingsAreTakenOnce
  intro s page idx c hc hp hi
  refine ⟨fun data tick => ?_, fun src d hd => ?_, fun hd => ⟨?_, fun p hl => ?_⟩⟩
  · refine ⟨_, execCrossingArrival_plan hc hp hi data tick, ?_, Tab.find?_ins_same .., fun k hk => Tab.find?_ins_ne _ _ hk, reach_consumed s tick⟩
    rw [timeSet_reach]
    rfl
  · exact ⟨_, execScheduledCycle_waits hc hp hi src hd, rfl, datumTaken_landing_same .., datumTaken_consumed_same ..,
      fun k hk => ⟨datumTaken_landing_ne s d hk, datumTaken_consumed_ne s d hk⟩⟩
  · exact ⟨_, execScheduledCycle_late hc hp hi hd, datumTaken_consumed_same .., (capture_regs s page 0x0F02 0 0).same fun _ _ _ => rfl,
      fun he => capture_shows 0 0 he (by decide)⟩
  · exact ⟨_, execScheduledCycle_lost hc hp hi hd hl, rfl, datumTaken_consumed_same ..⟩

end Sys2Proof.Machine
end

section
/-! SUPPORT. Page interrupts and foreign accesses: what a page's new causes send to the host (R86, R146, R148), what a foreign access counts
(R90), and the writes of RST_CHIP and RST_PART that reset nothing (R95). -/

namespace Sys2Proof.Machine

/-! ### What goes to the host -/

/-- What a message leaves of the host side: nothing of QE's own leaves after QE_INTERNAL (R145); what leaves goes out at once while the
function's Bus Master Enable is 1, and behind what is held for the function while it is 0 (R146). -/
theorem hostSend_host (s : State) (fn : Nat) (tx : HostTx) :
    (hostSend s fn tx).host =
      if (s.qe.dead && !sentByPage tx) = true then s.host
      else if s.host.bme.get false fn = true then { s.host with out := tx :: s.host.out }
      else { s.host with held := s.host.held.set [] fn (s.host.held.get [] fn ++ [tx]) } := by
  unfold hostSend
  split
  · rfl
  · split <;> rfl

/-- What goes to the host does not depend on the registers. -/
theorem hostSend_setReg_host (s : State) (p o : Nat) (w : Word) (fn : Nat) (tx : HostTx) :
    (hostSend (s.setReg p o w) fn tx).host = (hostSend s fn tx).host :=
  (hostSend_host (s.setReg p o w) fn tx).trans (hostSend_host s fn tx).symm

/-- What may leave is not stopped by QE_INTERNAL. -/
theorem not_stopped {s : State} {tx : HostTx} (h : s.qe.dead = false ∨ sentByPage tx = true) : ¬ (s.qe.dead && !sentByPage tx) = true := by
  rcases h with h | h <;> simp [h]

/-! ### Page interrupts -/

/-- The causes of a page after some join them. -/
abbrev irqAfter (s : State) (p bits : Nat) : Word := s.reg p F.PG_IRQ_STAT_ERR.off ||| BitVec.ofNat 32 bits

/-- The function and the vector of a page's interrupt for those causes (R148). -/
abbrev irqDest (s : State) (p bits : Nat) : Nat × Nat := irqTarget s p (irqBit s p (irqAfter s p bits &&& s.reg p F.PG_IRQ_EN.off))

/-- A write of PG_IRQ_STAT leaves every field of another register. -/
theorem fget_setIrqStat (s : State) (p p' : Nat) (w : Word) {f : Fld} (hf : f.off < 4096) (hn : f.off ≠ 0x10) :
    (s.setReg p F.PG_IRQ_STAT_ERR.off w).fget p' f = s.fget p' f := by
  refine fget_setReg_ne s w f ?_
  change p' * 4096 + f.off ≠ p * 4096 + 0x10
  omega

/-- Where an interrupt goes does not depend on the causes that are set: the vectors stand in other registers. -/
theorem irqTarget_setIrqStat (s : State) (p bit : Nat) (w : Word) :
    irqTarget (s.setReg p F.PG_IRQ_STAT_ERR.off w) p bit = irqTarget s p bit := by
  have hvec : ∀ n, (s.setReg p F.PG_IRQ_STAT_ERR.off w).fget n F.PART_VEC_PLAN = s.fget n F.PART_VEC_PLAN ∧
      (s.setReg p F.PG_IRQ_STAT_ERR.off w).fget n F.PART_VEC_SERVE = s.fget n F.PART_VEC_SERVE ∧
      (s.setReg p F.PG_IRQ_STAT_ERR.off w).fget n F.PART_VEC_SYSTEM = s.fget n F.PART_VEC_SYSTEM := fun n =>
    ⟨fget_setIrqStat s p n w (by decide) (by decide), fget_setIrqStat s p n w (by decide) (by decide),
      fget_setIrqStat s p n w (by decide) (by decide)⟩
  unfold irqTarget
  dsimp only [setReg_var, setReg_qe]
  split
  · rw [(hvec _).2.2]
  · rw [(hvec _).2.1]; rfl
  · split
    · rw [(hvec _).1]
    · rw [(hvec _).2.1]
    · rw [(hvec _).2.2]
  · rfl

theorem irqBit_setIrqStat (s : State) (p : Nat) (causes w : Word) : irqBit (s.setReg p F.PG_IRQ_STAT_ERR.off w) p causes = irqBit s p causes := by
  unfold irqBit
  rw [fget_setIrqStat s p p w (by decide) (by decide)]

/-- Where enabled causes were all clear and are not any more, the page's message is sent to its function. -/
theorem pageIrq_requests {s : State} {p bits : Nat} (ho : s.reg p F.PG_IRQ_STAT_ERR.off &&& s.reg p F.PG_IRQ_EN.off = 0)
    (hn : irqAfter s p bits &&& s.reg p F.PG_IRQ_EN.off ≠ 0) :
    (pageIrq s p bits).host =
      (hostSend s (irqDest s p bits).1 (pageMessage s p (irqDest s p bits).1 (irqDest s p bits).2)).host := by
  unfold pageIrq
  dsimp only
  rw [if_pos ⟨ho, hn⟩, irqBit_setIrqStat, irqTarget_setIrqStat]
  exact hostSend_setReg_host ..

/-- In every other case nothing goes to the host. -/
theorem pageIrq_silent {s : State} {p bits : Nat}
    (h : ¬ (s.reg p F.PG_IRQ_STAT_ERR.off &&& s.reg p F.PG_IRQ_EN.off = 0 ∧ irqAfter s p bits &&& s.reg p F.PG_IRQ_EN.off ≠ 0)) :
    (pageIrq s p bits).host = s.host := by
  unfold pageIrq
  dsimp only
  rw [if_neg h, setReg_host]

/-- The causes join those that are set. -/
theorem pageIrq_stat (s : State) (p bits : Nat) : (pageIrq s p bits).reg p F.PG_IRQ_STAT_ERR.off = irqAfter s p bits := by
  rw [pageIrq_reg s p bits (by decide), if_pos ⟨rfl, rfl⟩]

/-- Settles O10: `pageIrq` either sends by `pageIrq_requests`, where `hostSend` has three cases, or is silent. -/
theorem interruptRequested : Obligations.InterruptRequested := by
  unfold Obligations.InterruptRequested
  dsimp only
  intro s p bits
  refine ⟨pageIrq_shape s p bits, (RegsOnly.refl _ s).pageIrq (by simp), pageIrq_stat s p bits,
    pageIrq_silent, fun ho hn => ⟨fun hd ht => ?_, fun hl => ⟨fun hb => ?_, fun hb => ?_⟩⟩⟩
  · rw [pageIrq_requests ho hn, hostSend_host, if_pos (by simp [hd, ht])]
  · rw [pageIrq_requests ho hn, hostSend_host, if_neg (not_stopped hl), if_pos hb]
  · rw [pageIrq_requests ho hn, hostSend_host, if_neg (not_stopped hl), if_neg (by simp [hb])]

/-! ### Foreign accesses -/

/-- The registers of a partition's PART page that a foreign access writes (R90). -/
abbrev foreignRegs (part : Nat) : List (Nat × Nat) :=
  [(pgPart + part, F.PART_FOREIGN_COUNT.off), (pgPart + part, F.PART_FOREIGN_LAST.off), (pgPart + part, F.PART_FOREIGN_BAR2.off),
    (pgPart + part, F.PG_IRQ_STAT_ERR.off)]

/-- PART_FOREIGN after a foreign access, before its interrupt. -/
def foreignNoted (s : State) (part last : Nat) (bar2 : Bool) : State :=
  ((s.fset (pgPart + part) F.PART_FOREIGN_COUNT (satAdd (s.fget (pgPart + part) F.PART_FOREIGN_COUNT) 1 0xFFFF)).fset
    (pgPart + part) F.PART_FOREIGN_LAST last).fset (pgPart + part) F.PART_FOREIGN_BAR2 (b2n bar2)

/-- A foreign access is noted, and the first one since the count was cleared sets the page's FOREIGN cause. -/
theorem foreign_eq (s : State) (part last : Nat) (bar2 : Bool) :
    foreign s part last bar2 = if s.fget (pgPart + part) F.PART_FOREIGN_COUNT = 0 then pageIrq (foreignNoted s part last bar2) (pgPart + part) 4
      else foreignNoted s part last bar2 := rfl

theorem foreign_regs (s : State) (part last : Nat) (bar2 : Bool) : RegsOnly (foreignRegs part) s (foreign s part last bar2) := by
  have hnoted : RegsOnly (foreignRegs part) s (foreignNoted s part last bar2) :=
    (((RegsOnly.refl _ s).fset (by simp) (by decide)).fset (by simp) (by decide)).fset (by simp) (by decide)
  rw [foreign_eq]
  split
  · exact hnoted.pageIrq (by simp)
  · exact hnoted

/-- The interrupt leaves what the access noted. -/
theorem foreign_fget (s : State) (part last : Nat) (bar2 : Bool) {f : Fld} (hf : f.off = F.PART_FOREIGN_COUNT.off) :
    (foreign s part last bar2).fget (pgPart + part) f = (foreignNoted s part last bar2).fget (pgPart + part) f := by
  rw [foreign_eq]
  split
  · unfold State.fget
    rw [pageIrq_reg _ _ _ (by rw [hf]; decide), if_neg (by rw [hf]; simp)]
  · rfl

/-- COUNT rises by one up to the top of its field. -/
theorem foreign_count (s : State) (part last : Nat) (bar2 : Bool) :
    (foreign s part last bar2).fget (pgPart + part) F.PART_FOREIGN_COUNT = min (s.fget (pgPart + part) F.PART_FOREIGN_COUNT + 1) 0xFFFF := by
  rw [foreign_fget s part last bar2 rfl]
  unfold foreignNoted
  rw [fget_fset_beside _ _ F.PART_FOREIGN_BAR2 F.PART_FOREIGN_COUNT _ rfl (.inl (by decide)),
    fget_fset_beside _ _ F.PART_FOREIGN_LAST F.PART_FOREIGN_COUNT _ rfl (.inl (by decide)), fget_fset_same _ _ _ _ (by decide)]
  simp only [satAdd]
  omega

/-- LAST shows the page. -/
theorem foreign_last (s : State) (part last : Nat) (bar2 : Bool) :
    (foreign s part last bar2).fget (pgPart + part) F.PART_FOREIGN_LAST = last % 2 ^ F.PART_FOREIGN_LAST.wid := by
  rw [foreign_fget s part last bar2 (f := F.PART_FOREIGN_LAST) rfl]
  unfold foreignNoted
  rw [fget_fset_beside _ _ F.PART_FOREIGN_BAR2 F.PART_FOREIGN_LAST _ rfl (.inl (by decide)), fget_fset_same _ _ _ _ (by decide)]

/-! ### Host accesses outside the view -/

/-- Once requests reach the device an access acts as on the state it meets. -/
theorem hostReady_ready {s : State} (k : State → State) (h : s.host.crs = false) : hostReady s k = k s := by
  unfold hostReady
  rw [if_neg (by simp [h])]

/-- A write to a page that the partition sees read-only or not at all is a foreign access (R87, R90). -/
theorem regWrite_foreign {s : State} {part p : Nat} (off : Nat) (data : Word) (hv : viewOf s part p = .hidden ∨ viewOf s part p = .readOnly) :
    regWrite s part p off data = foreign s part p false := by
  unfold regWrite
  rcases hv with hv | hv <;> rw [hv]

theorem pageWrite_foreign {s : State} {part p : Nat} (k : State → State) (hc : s.host.crs = false)
    (hv : viewOf s part p = .hidden ∨ viewOf s part p = .readOnly) : pageWrite s part p k = foreign s part p false := by
  unfold pageWrite
  rw [hostReady_ready _ hc]
  rcases hv with hv | hv <;> rw [hv]

/-- A whole-word REGISTER_WRITE is the register write of the partition. -/
theorem execRegisterWrite_word {s : State} (part p : Nat) {off : Nat} (data : Word) (hc : s.host.crs = false) (ha : off % 4 = 0) (ho : off < 4096) :
    execRegisterWrite part p off 0xF data s = .next (regWrite s part p off data) := by
  unfold execRegisterWrite
  rw [hostReady_ready _ hc, if_neg (by simp [ha, ho])]

/-- A read of a hidden page is counted and answers 0. -/
theorem execForeignRead_hidden {s : State} {part p : Nat} (hc : s.host.crs = false) (hv : viewOf s part p = .hidden) :
    execForeignRead part (.page p) s = .next (hostNote (foreign s part p false) (.readData part 0)) := by
  have hn : foreignNamed s part (.page p) = some (p, false) := by simp only [foreignNamed, hv, if_true]
  unfold execForeignRead
  rw [hostReady_ready _ hc, hn]

/-- An access to a page of the full view whose island is silent is captured on the CHIP page, and a read is answered with 0 (R80). -/
theorem execIslandNoAnswer_full {s : State} {part p : Nat} (read : Bool) (hc : s.host.crs = false) (hv : viewOf s part p = .full) :
    execIslandNoAnswer part p read s = .next
      (if read then hostNote (capture s pgChip 0x0301 part p) (.readData part 0) else capture s pgChip 0x0301 part p) := by
  unfold execIslandNoAnswer
  rw [hostReady_ready _ hc, hv]
  rfl

/-- With no capture held, PG_ERR3 takes the detail. -/
theorem capture_err3 {s : State} {p : Nat} (code part detail : Nat) (h : s.fbit p F.PG_ERR0_VALID = false) :
    (capture s p code part detail).reg p F.PG_ERR3.off = BitVec.ofNat 32 detail := by
  have hnot : (p, F.PG_ERR3.off) ∉ logRegs (captureOnPage s p code part detail) part := by
    simp only [logRegs, List.mem_cons, Prod.mk.injEq, Nat.reduceEqDiff, and_false, List.not_mem_nil, or_self, or_false, not_or, not_and]
    omega
  rw [capture_eq_logAppend, logAppend_regs _ part p code detail _ p F.PG_ERR3.off (by decide) hnot]
  unfold captureOnPage
  rw [if_neg (by simp [h]), pageIrq_reg _ _ _ (by decide), if_neg (by simp), reg_setReg_same]

/-- Settles O23: an access outside the view is `foreign`, and an unanswered one `capture`. -/
theorem foreignAndUnanswered : Obligations.ForeignAndUnanswered := by
  unfold Obligations.ForeignAndUnanswered
  intro s part p hc
  refine ⟨fun off data ha ho hv => ?_, fun hv => ?_, fun read hv => ?_⟩
  · exact ⟨_, (execRegisterWrite_word part p data hc ha ho).trans (congrArg nxt (regWrite_foreign off data hv)), foreign_shape s part p false,
      foreign_regs s part p false, foreign_count s part p false, foreign_last s part p false⟩
  · refine ⟨_, execForeignRead_hidden hc hv, ?_, ⟨_, rfl⟩, foreign_count s part p false⟩
    exact regsHost_trans (foreign_shape s part p false) rfl
  · refine ⟨_, execIslandNoAnswer_full read hc hv, ?_⟩
    have hregs := capture_regs s pgChip 0x0301 part p
    have hshows : s.fbit pgChip F.PG_ERR0_VALID = false → (capture s pgChip 0x0301 part p).fget pgChip F.PG_ERR0_CODE = 0x0301 ∧
        (capture s pgChip 0x0301 part p).reg pgChip F.PG_ERR3.off = BitVec.ofNat 32 p :=
      fun h => ⟨(capture_shows part p h (by decide)).2, capture_err3 0x0301 part p h⟩
    cases read with
    | false => exact ⟨capture_shape .., hregs, hshows, fun h => nomatch h⟩
    | true => exact ⟨regsHost_trans (capture_shape ..) rfl, hregs.same fun _ _ _ => rfl, hshows, fun _ => ⟨_, rfl⟩⟩

/-! ### Writes of RST_CHIP and RST_PART -/

/-- Page 0x003 is the RST page of every variant. -/
theorem classOf_rst (v : Variant) : classOf v pgRst = some .rst := by simp [classOf]

/-- P0 sees the RST page in full (R87). -/
theorem viewOf_rst_p0 (s : State) : viewOf s 0 pgRst = .full := by simp [viewOf, classOf_rst]

/-- Any other partition sees the RST page read-only or not at all (R88). -/
theorem viewOf_rst_other (s : State) {part : Nat} (h : part ≠ 0) : viewOf s part pgRst = .hidden ∨ viewOf s part pgRst = .readOnly := by
  simp only [viewOf, classOf_rst, h, if_false, reduceCtorEq, or_self, false_and]
  split
  · exact .inr rfl
  · exact .inl rfl

/-- P0's write of RST_CHIP is taken unless the RST page is busy. -/
theorem execRstChip_p0 {s : State} (data : Word) (hc : s.host.crs = false) :
    execRstChip 0 data s = .next (if pageBusy s pgRst then s else rstChipWrite s 0 data) := by
  unfold execRstChip
  rw [hostReady_ready _ hc]
  unfold regWrite waitsLatch writeNow blockWrite
  simp [viewOf_rst_p0, classOf_rst]

/-- P0's write of RST_PART is taken unless the RST page is busy. -/
theorem execRstPart_p0 {s : State} (data : Word) (hc : s.host.crs = false) :
    execRstPart 0 data s = .next (if pageBusy s pgRst then s else rstPartWrite s 0 data) := by
  unfold execRstPart pageWrite
  rw [hostReady_ready _ hc, viewOf_rst_p0]

/-- RST_CHIP asks for the key and for its enable. -/
theorem rstChipWrite_ignored {s : State} {data : Word} (part : Nat) (h : bitsOf data 16 16 ≠ 0xA5C3 ∨ s.fbit pgRst F.RST_CTRL_CHIP_EN = false) :
    rstChipWrite s part data = s := by
  unfold rstChipWrite
  refine if_neg ?_
  rintro ⟨-, hk, -, he⟩
  exact h.elim (absurd hk) fun h => absurd he (by simp [h])

/-- RST_PART asks for the key, for its enable and for a partition that is built. -/
theorem rstPartWrite_ignored {s : State} {data : Word} (part : Nat)
    (h : bitsOf data 16 16 ≠ 0xA5C3 ∨ s.fbit pgRst F.RST_CTRL_PART_EN = false ∨ s.var.partitions ≤ bitsOf data 0 4) :
    rstPartWrite s part data = s := by
  unfold rstPartWrite
  refine if_neg ?_
  rintro ⟨-, hk, -, he, hn⟩
  rcases h with h | h | h
  · exact h hk
  · exact absurd he (by simp [h])
  · omega

/-- Settles O25: P0's write leaves the state in each case that is refused, and any other partition's is a foreign access. -/
theorem wrongResetKeysIgnored : Obligations.WrongResetKeysIgnored := by
  unfold Obligations.WrongResetKeysIgnored
  intro s data hc
  refine ⟨fun h => ?_, fun h => ?_, fun part c hp hcmd => ?_⟩
  · exact (execRstChip_p0 data hc).trans (by rw [rstChipWrite_ignored 0 h, ite_self])
  · exact (execRstPart_p0 data hc).trans (by rw [rstPartWrite_ignored 0 h, ite_self])
  · have hv := viewOf_rst_other s hp
    refine ⟨foreign s part pgRst false, ?_, foreign_shape .., foreign_regs s part pgRst false⟩
    rcases hcmd with rfl | rfl
    · exact congrArg nxt ((hostReady_ready _ hc).trans (regWrite_foreign _ data hv))
    · exact congrArg nxt (pageWrite_foreign _ hc hv)

end Sys2Proof.Machine
end

section
/-! SUPPORT. Host writes to a page's header and to plain registers (R79, R82, R83, R85, R87, R91): what a write that acts leaves, register by
register. -/

namespace Sys2Proof.Machine

/-! ### Single bits -/

/-- A field of one bit is that bit. -/
theorem bitsOf_one {w : Nat} (x : BitVec w) (i : Nat) : bitsOf x i 1 = b2n (x.getLsbD i) := by
  rw [← BitVec.testBit_toNat, Nat.testBit_eq_decide_div_mod_eq]
  simp only [bitsOf, b2n, Nat.shiftRight_eq_div_pow, decide_eq_true_eq]
  split <;> omega

/-- Of the low three bits of a word, each is as it was. -/
theorem bitsOf_and_seven (w : Word) {i : Nat} (h : i < 3) : bitsOf (w &&& 7) i 1 = bitsOf w i 1 := by
  rw [bitsOf_one, bitsOf_one, BitVec.getLsbD_and]
  have h7 : (7 : Word).getLsbD i = true := by interval_cases i <;> rfl
  rw [h7, Bool.and_true]

/-! ### A write that acts -/

section Acts
variable {s : State} {part p : Nat} {c : PageClass} (hw : Writable s part p) (hc : classOf s.var p = some c) (hch : c ≠ .ch)
include hw hc hch

/-- A write in the full view, of a page that is no loop channel and does not reset, that no latch holds back: the header's registers by
`headerWrite`, the others by the page's own rule. -/
theorem regWrite_acts {off : Nat} (data : Word) (hl : waitsLatch s p off = false) :
    regWrite s part p off data = if off < 0x40 then headerWrite s part p c off data else blockWrite s part p off data := by
  obtain ⟨-, hv, hb⟩ := hw
  have hm : c ≠ .mirror := by
    rintro rfl
    by_cases hp : part = 0 <;> simp [viewOf, hc, hp] at hv
  unfold regWrite writeNow
  simp only [hv, hl, hc, hb, Option.some.injEq, hch, if_false, Bool.false_eq_true, false_and]

/-- A header write that acts once requests reach the device. -/
theorem hostReady_header {off : Nat} (data : Word) (hl : waitsLatch s p off = false) (ho : off < 0x40) :
    hostReady s (fun s => regWrite s part p off data) = headerWrite s part p c off data := by
  rw [hostReady_ready _ hw.1, regWrite_acts hw hc hch data hl, if_pos ho]

/-- With no write held for the page, a write of one bit of PG_CTRL starts from the bits that the register holds. -/
theorem ctrlBit_acts (bit v : Nat) (hh : (s.page p).heldWrites = []) (hl : waitsLatch s p 0x08 = false) :
    ctrlBit s part p bit v = ctrlWrite s p (putBits (s.reg p 0x08 &&& 7) bit 1 v) := by
  have hword : ctrlWord s p = s.reg p 0x08 &&& 7 := by simp only [ctrlWord, hh, List.find?_nil]
  unfold ctrlBit
  rw [hostReady_ready _ hw.1, hword, regWrite_acts hw hc hch _ hl]
  rfl

end Acts

/-- HIU drops a doubleword with a byte enable missing (R79). -/
theorem execRegisterWrite_partial (s : State) (part p off : Nat) {be : BitVec 4} (data : Word) (h : be ≠ 0xF) :
    execRegisterWrite part p off be data s = .next s := by
  unfold execRegisterWrite hostReady
  simp only [h, ne_eq, not_false_eq_true, true_or, if_true, ite_self]

/-! ### Plain registers -/

/-- The classes whose registers have no rule of their own. -/
abbrev PlainClass (c : PageClass) : Prop := c = .chip ∨ c = .fmap ∨ c = .memcal ∨ c = .rtu ∨ c = .rqt ∨ c = .mask

/-- No register of such a page waits for a latch. -/
theorem waitsLatch_plain {s : State} {p : Nat} {c : PageClass} (off : Nat) (hc : classOf s.var p = some c) (hp : PlainClass c) :
    waitsLatch s p off = false := by
  unfold waitsLatch
  rcases hp with rfl | rfl | rfl | rfl | rfl | rfl <;> simp only [hc]

/-- Such a page's register takes each field by its access code. -/
theorem blockWrite_plain {s : State} {p off : Nat} {c : PageClass} {r : RegRow} (part : Nat) (data : Word) (hc : classOf s.var p = some c)
    (hp : PlainClass c) (hr : rowAt c p off = some r) :
    blockWrite s part p off data = s.setReg p off (rowWrite32 (s.fbit p F.PG_LOCK_LOCK) r data (s.reg p off)) := by
  have hplain : plainWrite s p off data = s.setReg p off (rowWrite32 (s.fbit p F.PG_LOCK_LOCK) r data (s.reg p off)) := by
    unfold plainWrite
    simp only [hc, hr]
  unfold blockWrite
  rcases hp with rfl | rfl | rfl | rfl | rfl | rfl <;> simp only [hc, hplain]

/-! ### Header registers -/

/-- Clearing the capture writes its four registers. -/
theorem errClear_regs (s : State) (p : Nat) : RegsOnly [(p, 0x20), (p, 0x24), (p, 0x28), (p, 0x2C)] s (errClear s p) :=
  ((((RegsOnly.refl _ s).setReg (by simp) (by decide)).setReg (by simp) (by decide)).setReg (by simp) (by decide)).setReg (by simp) (by decide)

/-- Each reads 0 then. -/
theorem errClear_zero (s : State) (p : Nat) :
    (errClear s p).reg p 0x20 = 0 ∧ (errClear s p).reg p 0x24 = 0 ∧ (errClear s p).reg p 0x28 = 0 ∧ (errClear s p).reg p 0x2C = 0 := by
  simp [errClear, reg_setReg]

/-- PG_CTRL with SOFT_RESET = 1 starts a soft reset, and its other bits are ignored (R83). -/
theorem ctrlWrite_softReset {s : State} {p : Nat} {c : PageClass} {data : Word} (hc : classOf s.var p = some c) (h : data.getLsbD 3 = true) :
    ctrlWrite s p data = softResetStart s p := by
  unfold ctrlWrite
  simp only [hc, h, if_true]

/-- On PTB and QE pages PG_CTRL takes ENABLE and QUIESCE (R82). -/
theorem ctrlWrite_enableQuiesce {s : State} {p : Nat} {c : PageClass} {data : Word} (hc : classOf s.var p = some c) (hq : c = .ptb ∨ c = .qeg)
    (h : data.getLsbD 3 = false) :
    ctrlWrite s p data = (s.fset p F.PG_CTRL_ENABLE (bitsOf data 0 1)).fset p F.PG_CTRL_QUIESCE (bitsOf data 1 1) := by
  have hcan : ctrlWritable c = 3 := by rcases hq with rfl | rfl <;> rfl
  have hen : ∀ on, pageEnable s p on = s.fset p F.PG_CTRL_ENABLE (b2n on) := fun on => by
    unfold pageEnable
    rcases hq with rfl | rfl <;> simp only [hc]
  unfold ctrlWrite
  simp only [hc, h, hcan, hen, bitsOf_one data 0]
  rfl

/-- What setting both bits leaves: PG_CTRL alone is written, and each bit reads what it was given. -/
theorem enableQuiesce_leaves (s : State) (p : Nat) {e q : Nat} (he : e < 2) (hq : q < 2) :
    let t := (s.fset p F.PG_CTRL_ENABLE e).fset p F.PG_CTRL_QUIESCE q
    RegsOnly [(p, 0x08)] s t ∧ t.fget p F.PG_CTRL_ENABLE = e ∧ t.fget p F.PG_CTRL_QUIESCE = q := by
  refine ⟨((RegsOnly.refl _ s).fset (by simp) (by decide)).fset (by simp) (by decide), ?_, ?_⟩
  · rw [fget_fset_beside _ _ F.PG_CTRL_QUIESCE F.PG_CTRL_ENABLE _ rfl (.inl (by decide)), fget_fset_same _ _ _ _ (by decide)]
    exact Nat.mod_eq_of_lt he
  · rw [fget_fset_same _ _ _ _ (by decide)]
    exact Nat.mod_eq_of_lt hq

/-- One of ENABLE and QUIESCE (bit 0 and bit 1) is written, and no soft reset begins. -/
theorem ctrlBit_enableQuiesce {s : State} {part p : Nat} {c : PageClass} {bit v : Nat} (hw : Writable s part p) (hc : classOf s.var p = some c)
    (hh : (s.page p).heldWrites = []) (hq : c = .ptb ∨ c = .qeg) (hb : bit < 2) :
    ctrlBit s part p bit v =
      (s.fset p F.PG_CTRL_ENABLE (bitsOf (putBits (s.reg p 0x08 &&& 7) bit 1 v) 0 1)).fset p F.PG_CTRL_QUIESCE
        (bitsOf (putBits (s.reg p 0x08 &&& 7) bit 1 v) 1 1) := by
  have hl : waitsLatch s p 0x08 = false := by
    unfold waitsLatch
    rcases hq with rfl | rfl <;> simp only [hc]
  have hch : c ≠ .ch := by rcases hq with rfl | rfl <;> simp
  have h3 : (putBits (s.reg p 0x08 &&& 7) bit 1 v).getLsbD 3 = false := by
    have h : bitsOf (putBits (s.reg p 0x08 &&& 7) bit 1 v) 3 1 = bitsOf (s.reg p 0x08 &&& 7) 3 1 := bitsOf_putBits_ne _ v (.inr (by omega))
    rw [bitsOf_one, bitsOf_one, BitVec.getLsbD_and] at h
    simpa [b2n] using h
  rw [ctrlBit_acts hw hc hch bit v hh hl, ctrlWrite_enableQuiesce hc hq h3]

/-- A write of ENABLE or QUIESCE changes PG_CTRL alone, and there its own bit of the two. -/
theorem ctrlBit_leaves {s : State} {part p : Nat} {c : PageClass} {bit : Nat} (v : Nat) (hw : Writable s part p) (hc : classOf s.var p = some c)
    (hh : (s.page p).heldWrites = []) (hq : c = .ptb ∨ c = .qeg) (hb : bit < 2) :
    let t := ctrlBit s part p bit v
    t = { s with regs := t.regs } ∧ RegsOnly [(p, 0x08)] s t ∧
      t.fget p F.PG_CTRL_ENABLE = (if 0 = bit then v % 2 else s.fget p F.PG_CTRL_ENABLE) ∧
      t.fget p F.PG_CTRL_QUIESCE = (if 1 = bit then v % 2 else s.fget p F.PG_CTRL_QUIESCE) := by
  have hbit : ∀ i, i < 2 → bitsOf (putBits (s.reg p 0x08 &&& 7) bit 1 v) i 1 = if i = bit then v % 2 else bitsOf (s.reg p 0x08) i 1 := by
    intro i hi
    split
    · subst i
      exact bitsOf_putBits_same _ v (by omega)
    · rw [bitsOf_putBits_ne _ v (by omega), bitsOf_and_seven _ (by omega)]
  obtain ⟨hregs, hen, hqu⟩ := enableQuiesce_leaves s p (bitsOf_lt (putBits (s.reg p 0x08 &&& 7) bit 1 v) 0 1)
    (bitsOf_lt (putBits (s.reg p 0x08 &&& 7) bit 1 v) 1 1)
  dsimp only
  rw [ctrlBit_enableQuiesce hw hc hh hq hb]
  exact ⟨rfl, hregs, hen.trans (hbit 0 (by decide)), hqu.trans (hbit 1 (by decide))⟩

theorem b2n_mod_two (b : Bool) : b2n b % 2 = b2n b := by cases b <;> rfl

/-- Settles O22: each write that acts is a header write or a block write, and each of those is one update. -/
theorem headerWrites : Obligations.HeaderWrites := by
  unfold Obligations.HeaderWrites
  intro s part p c hw hc hch hh
  refine ⟨fun data hl => ?scratch, fun off r data hp hlo hhi ha hr => ?plain, fun off be data hbe => execRegisterWrite_partial s part p off data hbe, fun data hd hl => ?errClr,
    fun data hd hl => ?lock, fun bits hl => ?force, fun hr hl => ?reset, fun on hq => ⟨?enable, ?quiesce⟩⟩
  case scratch =>
    refine ⟨s.setReg p 0x38 data, ?_, rfl, (RegsOnly.refl _ s).setReg (by simp) (by decide), reg_setReg_same ..⟩
    exact (execRegisterWrite_word part p data hw.1 (by decide) (by decide)).trans
      (congrArg nxt (regWrite_acts hw hc hch data hl))
  case plain =>
    refine ⟨_, ?_, rfl, (RegsOnly.refl _ s).setReg (by simp) hhi, reg_setReg_same ..⟩
    refine (execRegisterWrite_word part p data hw.1 ha hhi).trans (congrArg nxt ?_)
    rw [regWrite_acts hw hc hch data (waitsLatch_plain off hc hp), if_neg (by omega), blockWrite_plain part data hc hp hr]
  case errClr =>
    refine ⟨errClear s p, ?_, rfl, errClear_regs s p, errClear_zero s p⟩
    refine congrArg nxt ((hostReady_header hw hc hch data hl (by decide)).trans ?_)
    exact if_pos hd
  case lock =>
    refine ⟨s.fset p F.PG_LOCK_LOCK 1, ?_, rfl, (RegsOnly.refl _ s).fset (by simp) (by decide), fget_fset_same _ _ _ _ (by decide)⟩
    refine congrArg nxt ((hostReady_header hw hc hch data hl (by decide)).trans ?_)
    exact if_pos hd
  case force =>
    refine ⟨pageIrq s p (bits.toNat &&& (irqDefined c + 2 ^ 31)), ?_, pageIrq_shape .., (RegsOnly.refl _ s).pageIrq (by simp), pageIrq_stat ..⟩
    refine congrArg nxt ((hostReady_header hw hc hch bits hl (by decide)).trans ?_)
    simp only [headerWrite, irqForce, hc]
  case reset =>
    refine ⟨(s.fset p F.PG_STAT_RESET_BUSY 1).modPage p fun x => { x with resetSince := some s.now }, ?_, rfl,
      ((RegsOnly.refl _ s).fset (by simp) (by decide)).same fun _ _ _ => rfl,
      (modPage_fget ..).trans (fget_fset_same _ _ _ _ (by decide)), congrArg PageSt.resetSince (page_modPage_same ..)⟩
    have h3 : (putBits (s.reg p 0x08 &&& 7) 3 1 1).getLsbD 3 = true := by
      have h := bitsOf_putBits_same (s.reg p 0x08 &&& 7) (lo := 3) (wid := 1) 1 (by decide)
      rw [bitsOf_one] at h
      simpa [b2n] using h
    refine congrArg nxt ((ctrlBit_acts hw hc hch 3 1 hh hl).trans ?_)
    rw [ctrlWrite_softReset hc h3]
    exact if_pos hr
  case enable =>
    obtain ⟨hshape, hregs, hen, hqu⟩ := ctrlBit_leaves (b2n on) hw hc hh hq (bit := 0) (by decide)
    exact ⟨_, rfl, hshape, hregs, hen.trans (b2n_mod_two on), hqu⟩
  case quiesce =>
    obtain ⟨hshape, hregs, hen, hqu⟩ := ctrlBit_leaves (b2n on) hw hc hh hq (bit := 1) (by decide)
    exact ⟨_, rfl, hshape, hregs, hqu.trans (b2n_mod_two on), hen⟩

end Sys2Proof.Machine
end

section
/-! SUPPORT. The chip reset (R94, R96, R554): what the safe stop before it and the reset of PMU and pairs after it leave alone, and what the
islands forget between the two. -/

namespace Sys2Proof.Machine

/-! ### What a stop and the reset of pairs leave alone -/

/-- From a state to a later one, over a safe stop or the reset of PMU and pairs: the queue engine, the partitions, memory, the tiles, flash,
fuses, time and the queue of commands are the same, so is the host's link, and no register of the RST page changes. -/
structure StopKeeps (s t : State) : Prop where
  fuses : t.fuses = s.fuses
  time : t.time = s.time
  qe : t.qe = s.qe
  part : t.part = s.part
  mem : t.mem = s.mem
  facet : t.facet = s.facet
  rtu : t.rtu = s.rtu
  pending : t.pending = s.pending
  linkUp : t.host.linkUp = s.host.linkUp
  crs : t.host.crs = s.host.crs
  rst : ∀ o, o < 4096 → t.reg pgRst o = s.reg pgRst o

namespace StopKeeps
variable {s0 s t : State}

theorem refl (s : State) : StopKeeps s s := ⟨rfl, rfl, rfl, rfl, rfl, rfl, rfl, rfl, rfl, rfl, fun _ _ => rfl⟩

theorem trans (h : StopKeeps s0 s) (g : StopKeeps s t) : StopKeeps s0 t :=
  ⟨g.fuses.trans h.fuses, g.time.trans h.time, g.qe.trans h.qe, g.part.trans h.part, g.mem.trans h.mem, g.facet.trans h.facet,
    g.rtu.trans h.rtu, g.pending.trans h.pending, g.linkUp.trans h.linkUp, g.crs.trans h.crs, fun o ho => (g.rst o ho).trans (h.rst o ho)⟩

theorem ite {c : Prop} [Decidable c] (a : c → StopKeeps s0 s) (b : ¬ c → StopKeeps s0 t) : StopKeeps s0 (if c then s else t) := by
  split
  · exact a ‹_›
  · exact b ‹_›

theorem each {α : Type} (l : List α) {f : State → α → State} (hf : ∀ s a, StopKeeps s0 s → StopKeeps s0 (f s a)) (h : StopKeeps s0 s) :
    StopKeeps s0 (eachIn l f s) := by
  unfold eachIn
  induction l generalizing s with
  | nil => exact h
  | cons a l ih => exact ih (hf _ _ h)

/-- The pairs, the Loupe's, PMU's and boot's state and the free values drawn are not spoken of. -/
theorem upd {pwm : PwmSt} {loupe : LoupeSt} {power : PowerSt} {boot : BootSt} {ctr : Nat} (h : StopKeeps s0 s) :
    StopKeeps s0 { s with pwm := pwm, loupe := loupe, power := power, boot := boot, freeCtr := ctr } :=
  ⟨h.fuses, h.time, h.qe, h.part, h.mem, h.facet, h.rtu, h.pending, h.linkUp, h.crs, h.rst⟩

theorem setReg {p o : Nat} {w : Word} (h : StopKeeps s0 s) (hp : p ≠ pgRst) (ho : o < 4096) : StopKeeps s0 (s.setReg p o w) :=
  h.trans ⟨rfl, rfl, rfl, rfl, rfl, rfl, rfl, rfl, rfl, rfl, fun _ ho' => (reg_setReg s w ho ho').trans (if_neg fun e => hp e.1.symm)⟩

theorem fset {p v : Nat} {f : Fld} (h : StopKeeps s0 s) (hp : p ≠ pgRst) (ho : f.off < 4096) : StopKeeps s0 (s.fset p f v) := h.setReg hp ho

theorem fincSat {p d : Nat} {f : Fld} (h : StopKeeps s0 s) (hp : p ≠ pgRst) (ho : f.off < 4096) : StopKeeps s0 (s.fincSat p f d) := h.setReg hp ho

theorem setReg64 {p lo hi v : Nat} (h : StopKeeps s0 s) (hp : p ≠ pgRst) (hl : lo < 4096) (hh : hi < 4096) :
    StopKeeps s0 (s.setReg64 p lo hi v) := (h.setReg hp hl).setReg hp hh

theorem hostSend {fn : Nat} {tx : HostTx} (h : StopKeeps s0 s) : StopKeeps s0 (hostSend s fn tx) := by
  unfold Machine.hostSend
  refine ite (fun _ => h) fun _ => ite (fun _ => ?_) fun _ => ?_ <;>
  exact h.trans ⟨rfl, rfl, rfl, rfl, rfl, rfl, rfl, rfl, rfl, rfl, fun _ _ => rfl⟩

theorem pageIrq {p bits : Nat} (h : StopKeeps s0 s) (hp : p ≠ pgRst) : StopKeeps s0 (pageIrq s p bits) := by
  unfold Machine.pageIrq
  exact ite (fun _ => (h.setReg hp (by decide)).hostSend) fun _ => h.setReg hp (by decide)

/-! ### Pairs -/

/-- The pages of the pairs stand above the RST page. -/
theorem pwm_ne_rst (n : Nat) : pgPwm + n ≠ pgRst := (Nat.lt_of_lt_of_le (by decide : pgRst < pgPwm) (Nat.le_add_right _ _)).ne'

theorem pairSet {n : Nat} {x : PwmPair} (h : StopKeeps s0 s) : StopKeeps s0 (pairSet s n x) := h.upd

theorem setOutputs {n : Nat} {hi lo : Bool} (h : StopKeeps s0 s) : StopKeeps s0 (setOutputs s n hi lo) :=
  (h.fset (pwm_ne_rst n) (by decide)).fset (pwm_ne_rst n) (by decide)

theorem tripPads {n : Nat} (h : StopKeeps s0 s) : StopKeeps s0 (tripPads s n) := h.pairSet.setOutputs

theorem pairIdle {n : Nat} (h : StopKeeps s0 s) : StopKeeps s0 (pairIdle s n) := h.pairSet.setOutputs.fset (pwm_ne_rst n) (by decide)

theorem setHolds {n holds : Nat} (h : StopKeeps s0 s) : StopKeeps s0 (setHolds s n holds) := by
  have hp := pwm_ne_rst n
  have hh := h.fset (v := holds) (f := F.PWM_STAT_HOLD) hp (by decide)
  unfold Machine.setHolds
  dsimp only
  refine ite (fun _ => h) fun _ => ite (fun _ => ?held) fun _ => ite (fun _ => ?resumes) fun _ => ?idle
  case held =>
    refine ite (fun _ => ?_) fun _ => .pageIrq (.fset ?_ hp (by decide)) hp <;>
    exact ite (fun _ => hh.tripPads.fincSat hp (by decide)) fun _ => hh.pairSet
  case resumes => exact ite (fun _ => (hh.pairSet.fset hp (by decide)).pageIrq hp) fun _ => hh.pairSet
  case idle => exact hh.pairIdle.pageIrq hp

theorem refreshHolds (h : StopKeeps s0 s) : StopKeeps s0 (refreshHolds s) := h.each _ fun _ _ hs => hs.setHolds

theorem pairAfterReset {n : Nat} (h : StopKeeps s0 s) : StopKeeps s0 (pairAfterReset s n) := by
  have hp := pwm_ne_rst n
  have hts := h.fset (f := F.PWM_TS_STATE) (v := tripState s n) hp (by decide)
  unfold Machine.pairAfterReset
  exact ite (fun _ => hts.pairIdle) fun _ => (hts.fset hp (by decide)).tripPads.fset hp (by decide)

/-! ### The Loupe, its watchdog and PMU -/

theorem stopRequest {src groups : Nat} {whole : Bool} (h : StopKeeps s0 s) : StopKeeps s0 (stopRequest s src groups whole) := by
  have hl : pgLoupe ≠ pgRst := by decide
  unfold Machine.stopRequest
  refine refreshHolds (ite (fun _ => pageIrq (fset (fset ?_ hl (by decide)) hl (by decide)) hl) fun _ => fset (fset ?_ hl (by decide)) hl (by decide)) <;>
  exact ite (fun _ => h.fset hl (by decide)) fun _ => ((h.fset hl (by decide)).setReg hl (by decide)).setReg64 hl (by decide) (by decide)

theorem wholeStop {src : Nat} (h : StopKeeps s0 s) : StopKeeps s0 (wholeStop s src) := h.stopRequest

theorem levelActive {src : Nat} (h : StopKeeps s0 s) : StopKeeps s0 (levelActive s src) := by
  have hs := h.fset (f := F.LOUPE_LEVEL_SRC) (v := natPutBit (s.fget pgLoupe F.LOUPE_LEVEL_SRC) src true) (by decide : pgLoupe ≠ pgRst) (by decide)
  unfold Machine.levelActive
  exact ite (fun _ => h) fun _ => ite (fun _ => hs.stopRequest) fun _ => hs

theorem levelInactive {src : Nat} (h : StopKeeps s0 s) : StopKeeps s0 (levelInactive s src) := by
  have hl : pgLoupe ≠ pgRst := by decide
  unfold Machine.levelInactive causeGone
  exact ite (fun _ => ite (fun _ => (h.fset hl (by decide)).pageIrq hl) fun _ => h.fset hl (by decide)) fun _ => h

theorem wdtSet {st : Nat} (h : StopKeeps s0 s) : StopKeeps s0 (wdtSet s st) := by
  have hl : pgLoupe ≠ pgRst := by decide
  unfold Machine.wdtSet
  exact ite (fun _ => levelActive (upd ((h.fset hl (by decide)).fset hl (by decide))))
    fun _ => levelInactive (upd ((h.fset hl (by decide)).fset hl (by decide)))

theorem wdtWait (h : StopKeeps s0 s) : StopKeeps s0 (wdtWait s) := ite (fun _ => h.wdtSet) fun _ => h

/-- The pages of the partitions stand above the RST page. -/
theorem part_ne_rst (n : Nat) : pgPart + n ≠ pgRst := (Nat.lt_of_lt_of_le (by decide : pgRst < pgPart) (Nat.le_add_right _ _)).ne'

/-- A log entry writes registers of its partition's page. -/
theorem logAppend {part page code detail stamp : Nat} (h : StopKeeps s0 s) : StopKeeps s0 (logAppend s part page code detail stamp) := by
  have hp := part_ne_rst part
  have hn : s.fget (pgPart + part) F.PART_LOG_STAT_NEXT < 16 := fget_lt s (pgPart + part) F.PART_LOG_STAT_NEXT
  unfold Machine.logAppend
  refine pageIrq (ite (fun _ => fset ?_ hp (by decide)) fun _ => fincSat ?_ hp (by decide)) hp <;>
  exact (((h.setReg hp (by omega)).setReg hp (by omega)).setReg64 hp (by omega) (by omega)).fset hp (by decide)

/-- A capture writes registers of its page and a log entry. -/
theorem capture {p code part detail : Nat} (h : StopKeeps s0 s) (hp : p ≠ pgRst) : StopKeeps s0 (capture s p code part detail) := by
  unfold Machine.capture
  exact logAppend (ite (fun _ => h.fset hp (by decide)) fun _ =>
    (((h.setReg hp (by decide)).setReg64 hp (by decide) (by decide)).setReg hp (by decide)).pageIrq hp)

theorem pmuReset (h : StopKeeps s0 s) : StopKeeps s0 (pmuReset s) := by
  have hp : pgPmu ≠ pgRst := by decide
  unfold Machine.pmuReset
  refine ((((upd ?_).fset hp (by decide)).fset hp (by decide)).setReg64 hp (by decide) (by decide)).fset hp (by decide)
  exact ite (fun _ => h.upd.capture hp) fun _ => h

end StopKeeps

/-! ### The islands -/

/-- The state in which the islands are reset and PMU and the pairs are not yet (R94). -/
def islandsCleared (s : State) : State :=
  State.setReg { s with
    regs := s.regs.filter fun k => keptPage (k.1 / 4096)
    time := { ptb := s.time.ptb, running := s.time.running, origin := s.time.origin, period := s.time.period, bpn := s.time.bpn,
              startTick := s.time.startTick, syncOut := s.time.syncOut }
    pages := s.pages.filter fun k => keptPage k.1
    qe := {}
    part := {}
    host := { s.host with held := [], bme := [], linkUp := false, crs := true }
    loop := {}
    pwm := {}
    mem := {}
    facet := {}
    solver := {}
    clnk := { s.clnk with resetting := some s.now, owing := (List.range s.var.clnkPorts).filter fun p => (portGet s p).tx, hold := none }
    serve := { refillAt := (s.now / 800000000 + 1) * 800000000 }
    rtu := { flash := s.rtu.flash, cmd := s.rtu.cmd }
    boot := { s.boot with copy := none } } pgRst F.RST_KEEP_VALUE.off (s.reg pgRst F.RST_KEEP_VALUE.off)

theorem coreReset_keeps_cleared (s : State) : StopKeeps (islandsCleared s) (coreReset s) :=
  .each _ (fun _ _ hs => hs.pairAfterReset) (StopKeeps.refl _).pmuReset

/-- The reset of the islands keeps fuses, flash, a flash command in progress, the PTB, RST_KEEP and the commands that wait (R554). -/
theorem coreReset_retains (s : State) :
    (coreReset s).fuses = s.fuses ∧ (coreReset s).rtu.flash = s.rtu.flash ∧ (coreReset s).rtu.cmd = s.rtu.cmd ∧
      (coreReset s).time.ptb = s.time.ptb ∧ (coreReset s).pending = s.pending ∧
      (coreReset s).reg pgRst F.RST_KEEP_VALUE.off = s.reg pgRst F.RST_KEEP_VALUE.off := by
  have h := coreReset_keeps_cleared s
  refine ⟨h.fuses, ?_, ?_, ?_, h.pending, (h.rst _ (by decide)).trans (reg_setReg_same ..)⟩
  · rw [h.rtu]; rfl
  · rw [h.rtu]; rfl
  · rw [h.time]; rfl

/-- It leaves no plan, no job or queue-pair state, no partition reset, no byte of device memory and no tile state; the link is down and
requests get retry status. -/
theorem coreReset_forgets (s : State) :
    (coreReset s).time.plan = none ∧ (coreReset s).qe = {} ∧ (coreReset s).part = {} ∧ (coreReset s).mem.dram = {} ∧
      (coreReset s).facet = {} ∧ (coreReset s).host.linkUp = false ∧ (coreReset s).host.crs = true := by
  have h := coreReset_keeps_cleared s
  refine ⟨?_, h.qe, h.part, ?_, h.facet, h.linkUp, h.crs⟩
  · rw [h.time]; rfl
  · rw [h.mem]; rfl

/-- The state in which a chip reset has reset the islands, PMU and the pairs, and has not shown its cause yet. -/
def resetDone (s : State) : State := coreReset (wdtWait (wholeStop s 18))

/-- The safe stop before a chip reset. -/
theorem safeStop_keeps (s : State) : StopKeeps s (wdtWait (wholeStop s 18)) := (StopKeeps.refl s).wholeStop.wdtWait

/-- A chip reset shows its cause, counts itself and puts the boot at stage 1 when all is reset. -/
theorem chipReset_eq (s : State) (cause : Nat) :
    chipReset s cause = (({ resetDone s with boot := { (resetDone s).boot with powerOn := false } }.fset pgRst F.RST_CAUSE_CAUSE cause).fset
      pgRst F.RST_COUNT_COUNT (satAdd (s.fget pgRst F.RST_COUNT_COUNT) 1 0xFFFF)).fset pgChip F.CHIP_BOOT_STAGE 1 := rfl

/-- What a chip reset shows, in the registers it writes last. -/
theorem chipReset_shows (s : State) {cause : Nat} (h : cause < 16) :
    (chipReset s cause).fget pgRst F.RST_CAUSE_CAUSE = cause ∧
      (chipReset s cause).fget pgRst F.RST_COUNT_COUNT = min (s.fget pgRst F.RST_COUNT_COUNT + 1) 0xFFFF ∧
      (chipReset s cause).fget pgChip F.CHIP_BOOT_STAGE = 1 := by
  rw [chipReset_eq]
  refine ⟨?_, ?_, fget_fset_same _ _ _ _ (by decide)⟩
  · rw [fget_fset_ne _ _ _ _ (by decide), fget_fset_ne _ _ _ _ (by decide), fget_fset_same _ _ _ _ (by decide)]
    exact Nat.mod_eq_of_lt h
  · rw [fget_fset_ne _ _ _ _ (by decide), fget_fset_same _ _ _ _ (by decide)]
    simp only [satAdd]
    omega

/-- RST_KEEP passes through a chip reset (R554). -/
theorem chipReset_keep (s : State) (cause : Nat) :
    (chipReset s cause).reg pgRst F.RST_KEEP_VALUE.off = s.reg pgRst F.RST_KEEP_VALUE.off := by
  obtain ⟨-, -, -, -, -, hkeep⟩ := coreReset_retains (wdtWait (wholeStop s 18))
  rw [chipReset_eq, reg_fset_ne _ _ _ (by decide), reg_fset_ne _ _ _ (by decide), reg_fset_ne _ _ _ (by decide)]
  exact hkeep.trans ((safeStop_keeps s).rst _ (by decide))

/-! ### Its causes -/

/-- RST_CHIP with its key, GO and its enable is a chip reset with cause 2. -/
theorem rstChipWrite_acts {s : State} {data : Word} (hk : bitsOf data 16 16 = 0xA5C3) (hg : data.getLsbD 0 = true)
    (he : s.fbit pgRst F.RST_CTRL_CHIP_EN = true) : rstChipWrite s 0 data = chipReset s 2 := by
  unfold rstChipWrite
  rw [if_pos ⟨rfl, hk, hg, he⟩]

/-- PERST# in a device with power that is awake is a chip reset with cause 3 (R96). -/
theorem execPerstAssert_awake {s : State} (hp : s.host.perst = false) (hw : powered s = true) (ha : asleep s = false) :
    execPerstAssert s = .next (chipReset { s with host := { s.host with perst := true, linkUp := false } } 3) := by
  have hw' : powered { s with host := { s.host with perst := true, linkUp := false } } = true := hw
  unfold execPerstAssert
  simp [hp, hw', ha]

/-- A hot reset on a trained link is a chip reset with cause 4 (R96). -/
theorem execPcieHotReset_trained {s : State} (h : s.host.linkUp = true) : execPcieHotReset s = .next (chipReset s 4) := by
  unfold execPcieHotReset
  rw [if_pos h]

/-- Settles O26: what a chip reset leaves is what `islandsCleared` leaves of the state at the safe stop, and what it shows at its end. -/
theorem chipResetScope : Obligations.ChipResetScope := by
  unfold Obligations.ChipResetScope
  refine ⟨fun s cause hcause => ?_, fun s data hc hb hk hg he => ?_, fun s => execPerstAssert_awake, fun s => execPcieHotReset_trained⟩
  · obtain ⟨hshow, hcount, hstage⟩ := chipReset_shows s hcause
    have hstop := safeStop_keeps s
    obtain ⟨hfuses, hflash, hcmd, hptb, hpending, -⟩ := coreReset_retains (wdtWait (wholeStop s 18))
    rw [hstop.fuses] at hfuses
    rw [hstop.rtu] at hflash hcmd
    rw [hstop.time] at hptb
    rw [hstop.pending] at hpending
    obtain ⟨hplan, hqe, hpart, hdram, hfacet, hlink, hcrs⟩ := coreReset_forgets (wdtWait (wholeStop s 18))
    refine ⟨hshow, hcount, hstage, chipReset_keep s cause, ?_⟩
    simp only [chipReset_eq, resetDone, fset_fuses, fset_rtu, fset_time, fset_qe, fset_part, fset_mem, fset_facet, fset_host, fset_pending]
    exact ⟨hfuses, hflash, hcmd, hptb, hplan, hqe, hpart, hdram, hfacet, hlink, hcrs, hpending⟩
  · exact (execRstChip_p0 data hc).trans (by rw [if_neg (by simp [hb]), rstChipWrite_acts hk hg he])

end Sys2Proof.Machine
end

section
/-! SUPPORT. Queue pairs: what a write of one queue pair leaves, what an ended job leaves, and what the rings do with pushes and doorbells
(R98 to R103, R113, R120, R123, R130). -/

namespace Sys2Proof.Machine

/-! ### The table of queue pairs -/

/-- Only the table of queue pairs changes. -/
theorem qpSet_shape (s : State) (q : Nat) (x : Qp) : qpSet s q x = { s with qe := { s.qe with qps := (qpSet s q x).qe.qps } } := by
  unfold qpSet
  split <;> rfl

@[simp] theorem qpSet_var (s : State) (q : Nat) (x : Qp) : (qpSet s q x).var = s.var := by rw [qpSet_shape]; rfl

/-- A queue pair's state is what the table and the part's variant give. -/
theorem qpGet_congr {s t : State} (hv : t.var = s.var) (hq : t.qe.qps = s.qe.qps) (q : Nat) : qpGet t q = qpGet s q := by
  unfold qpGet
  rw [hv, hq]

@[simp] theorem qpGet_qpSet_same (s : State) (q : Nat) (x : Qp) : qpGet (qpSet s q x) q = x := by
  unfold qpGet
  rw [qpSet_var]
  unfold qpSet
  split <;> exact Tab.get_set_same ..

theorem qpGet_qpSet_ne (s : State) {q k : Nat} (x : Qp) (h : k ≠ q) : qpGet (qpSet s q x) k = qpGet s k := by
  have hg : ∀ d, (qpSet s q x).qe.qps.get d k = s.qe.qps.get d k := fun d => by
    unfold qpSet
    split <;> exact Tab.get_set_ne _ _ _ _ h
  unfold qpGet
  rw [qpSet_var, hg, hg]

@[simp] theorem qpSet_fget (s : State) (q : Nat) (x : Qp) (p : Nat) (f : Fld) : (qpSet s q x).fget p f = s.fget p f := by rw [qpSet_shape]; rfl
@[simp] theorem qpSet_jobs (s : State) (q : Nat) (x : Qp) : (qpSet s q x).qe.jobs = s.qe.jobs := by rw [qpSet_shape]
@[simp] theorem qpSet_jobGet (s : State) (q : Nat) (x : Qp) (j : Nat) : jobGet (qpSet s q x) j = jobGet s j := by rw [qpSet_shape]; rfl
@[simp] theorem qpSet_host (s : State) (q : Nat) (x : Qp) : (qpSet s q x).host = s.host := by rw [qpSet_shape]
@[simp] theorem qpSet_dead (s : State) (q : Nat) (x : Qp) : (qpSet s q x).qe.dead = s.qe.dead := by rw [qpSet_shape]
@[simp] theorem qpSet_nextSeq (s : State) (q : Nat) (x : Qp) : (qpSet s q x).qe.nextSeq = s.qe.nextSeq := by rw [qpSet_shape]

/-! ### The end of a job -/

/-- A job of a partition that resets ends with PARTITION_RESET; the reset counts it when it had not ended (R130). -/
theorem jobDone_resetting {s : State} {j : Nat} {x : Job} {r : PartReset} (status result : Nat) (h : jobGet s j = some x)
    (hr : s.part.resets.find? x.part = some r) :
    jobDone s j status result =
      if x.phase = .done then jobSet s j { x with phase := .done, status := stPartitionReset, result := 0, data := none }
      else { jobSet s j { x with phase := .done, status := stPartitionReset, result := 0, data := none } with
        part := { s.part with resets := s.part.resets.ins x.part { r with ended := r.ended + 1 } } } := by
  unfold jobDone
  simp only [h, hr]
  rfl

/-- Only the job table and the count of a partition reset change. -/
theorem jobDone_shape (s : State) (j status result : Nat) :
    jobDone s j status result = { s with
      qe := { s.qe with jobs := (jobDone s j status result).qe.jobs }, part := (jobDone s j status result).part } := by
  cases h : jobGet s j with
  | none => simp only [jobDone, h]
  | some x =>
    cases hr : s.part.resets.find? x.part with
    | none => rw [jobDone_live status result h hr]; rfl
    | some r =>
      rw [jobDone_resetting status result h hr]
      split <;> rfl

/-- No other job changes. -/
theorem jobGet_jobDone_ne (s : State) {j k : Nat} (status result : Nat) (hk : k ≠ j) : jobGet (jobDone s j status result) k = jobGet s k := by
  cases h : jobGet s j with
  | none => simp only [jobDone, h]
  | some x =>
    cases hr : s.part.resets.find? x.part with
    | none => rw [jobDone_live status result h hr, jobGet_jobSet_ne s _ hk]
    | some r =>
      rw [jobDone_resetting status result h hr]
      split <;> exact jobGet_jobSet_ne s _ hk

/-- The job ends, with the status it is given or with PARTITION_RESET. -/
theorem jobGet_jobDone_same {s : State} {j : Nat} {x : Job} (status result : Nat) (h : jobGet s j = some x) :
    ∃ st r, jobGet (jobDone s j status result) j = some { x with phase := .done, status := st, result := r, data := none } ∧
      (st = status ∨ st = stPartitionReset) := by
  cases hr : s.part.resets.find? x.part with
  | none => exact ⟨_, _, jobDone_ends status result h hr, .inl rfl⟩
  | some r =>
    rw [jobDone_resetting status result h hr]
    refine ⟨stPartitionReset, 0, ?_, .inr rfl⟩
    split <;> exact jobGet_jobSet_same ..

/-- Settles O17: without a reset by `jobDone_live`, with one by `jobDone_resetting`. -/
theorem jobOutcome : Obligations.JobOutcome := by
  unfold Obligations.JobOutcome
  intro s j x status result h
  refine ⟨fun k hk => jobGet_jobDone_ne s status result hk, fun hr => ?_, fun r hr => ⟨?_, fun hp => ?_, jobDone_shape s j status result⟩⟩
  · rw [jobDone_live status result h hr]
    exact ⟨rfl, jobGet_jobSet_same ..⟩
  · rw [jobDone_resetting status result h hr]
    split <;> exact jobGet_jobSet_same ..
  · rw [jobDone_resetting status result h hr, if_neg hp]
    exact Tab.find?_ins_same ..

/-! ### Pushes and doorbells -/

/-- The two blocks of a queue configuration page stand at 0x100 and 0x200. -/
theorem qpOff_cases (q : Nat) : qpOff q = 0x100 ∨ qpOff q = 0x200 := by
  unfold qpOff
  split
  · exact .inl rfl
  · exact .inr rfl

/-- An error of a queue pair, counted in a field of its QP_COUNTS and captured on its page with its number (R101, R103, R120). -/
def qpError (s : State) (part q : Nat) (f : Fld) (code : Nat) : State :=
  capture (s.fincSat (qpPage q) (f.sh (qpOff q)) 1) (qpPage q) code part q

section Counted
variable {f : Fld} (hf : f.off = 0x038)
include hf

theorem countOff_eq (q : Nat) : (f.sh (qpOff q)).off = 0x038 + qpOff q := by rw [← hf]; rfl

/-- QP_COUNTS is no register of a page's header nor PART_LOG_STAT, so a count leaves them. -/
theorem fget_countError_ne (s : State) (q p : Nat) {g : Fld} (hg : g.off < 0x100) :
    (s.fincSat (qpPage q) (f.sh (qpOff q)) 1).fget p g = s.fget p g := by
  refine fget_fset_ne s (f.sh (qpOff q)) g _ ?_
  rcases qpOff_cases q with h | h <;> rw [countOff_eq hf, h] <;> omega

/-- Its registers are those of the count and of the capture. -/
theorem qpError_regs (s : State) (part q code : Nat) :
    RegsOnly ((qpPage q, (f.sh (qpOff q)).off) :: captureRegs s (qpPage q) part) s (qpError s part q f code) := by
  have ho : (f.sh (qpOff q)).off < 4096 := by
    rcases qpOff_cases q with h | h <;> rw [countOff_eq hf, h] <;> decide
  have hc : captureRegs (s.fincSat (qpPage q) (f.sh (qpOff q)) 1) (qpPage q) part = captureRegs s (qpPage q) part := by
    simp only [captureRegs, fget_countError_ne hf s q (pgPart + part) (g := F.PART_LOG_STAT_NEXT) (by decide)]
  have hcount : RegsOnly ((qpPage q, (f.sh (qpOff q)).off) :: captureRegs s (qpPage q) part) s (s.fincSat (qpPage q) (f.sh (qpOff q)) 1) :=
    (RegsOnly.refl _ s).fset (by simp) ho
  refine hcount.trans ((capture_regs _ (qpPage q) code part q).mono fun _ hx => ?_)
  exact List.mem_cons_of_mem _ (hc ▸ hx)

/-- With no capture held the page shows the error's code and the queue pair. -/
theorem qpError_shows {s : State} {q code : Nat} (part : Nat) (h : s.fbit (qpPage q) F.PG_ERR0_VALID = false) (hc : code < 2 ^ 16) :
    (qpError s part q f code).fget (qpPage q) F.PG_ERR0_CODE = code ∧
      (qpError s part q f code).reg (qpPage q) F.PG_ERR3.off = BitVec.ofNat 32 q := by
  have hv : (s.fincSat (qpPage q) (f.sh (qpOff q)) 1).fbit (qpPage q) F.PG_ERR0_VALID = false := by
    unfold State.fbit
    rw [fget_countError_ne hf s q _ (by decide)]
    exact h
  exact ⟨(capture_shows part q hv hc).2, capture_err3 code part q hv⟩

end Counted

/-- Registers and the host side change. -/
theorem qpError_shape (s : State) (part q : Nat) (f : Fld) (code : Nat) :
    qpError s part q f code = { s with regs := (qpError s part q f code).regs, host := (qpError s part q f code).host } :=
  regsHost_trans (fset_shape ..) (capture_shape ..)

theorem pushDropped_eq (s : State) (q part : Nat) : pushDropped s q part = qpError s part q F.QP_COUNTS_PUSH_DROPPED 0x0413 := rfl

/-- With no push held none is dropped. -/
theorem dropCovered_noPush {s : State} {q : Nat} (part : Nat) (slots : List Nat) (h : (qpGet s q).pushes = []) :
    dropCovered s part q slots = s := by
  induction slots with
  | nil => rfl
  | cons slot slots ih =>
    unfold dropCovered
    simp only [h, Tab.find?_nil, Option.isSome_none, Bool.false_and, Bool.false_eq_true, if_false, ih]

section Owner
variable {s : State} {part q : Nat} (ho : qpOwner s q = some part)
include ho

/-- The owner's push to a free slot of an ACTIVE queue pair is held, where the ring does not cover its index. -/
theorem pushAt_held {slot : Nat} (e : BitVec 512) (ha : (qpGet s q).state = .active) (hf : (qpGet s q).pushes.find? (slot % 4) = none)
    (hr : ringCovers s q (pushIndex s q slot) = false) :
    pushAt s part q slot e = qpSet s q { qpGet s q with pushes := (qpGet s q).pushes.ins (slot % 4) e } := by
  unfold pushAt
  simp [ho, ha, hf, hr]

/-- It is dropped where the queue pair is not ACTIVE or the slot is taken. -/
theorem pushAt_dropped {slot : Nat} (e : BitVec 512) (h : (qpGet s q).state ≠ .active ∨ ((qpGet s q).pushes.find? (slot % 4)).isSome = true) :
    pushAt s part q slot e = qpError s part q F.QP_COUNTS_PUSH_DROPPED 0x0413 := by
  unfold pushAt
  rw [← pushDropped_eq]
  by_cases ha : (qpGet s q).state = .active
  · simp [ho, h.resolve_left (not_not.mpr ha)]
  · simp [ho, ha]

/-- A whole-word doorbell of the owner is a doorbell value and nothing more. -/
theorem execSqDoorbell_word (value : Word) (hc : s.host.crs = false) :
    execSqDoorbell part q 0xF value false s = .next (sqDoorbellValue s part q (bitsOf value 0 16)) := by
  unfold execSqDoorbell
  rw [hostReady_ready _ hc]
  simp [ho]

theorem execCqDoorbell_word (value : Word) (hc : s.host.crs = false) :
    execCqDoorbell part q 0xF value false s = .next (cqDoorbellValue s part q (bitsOf value 0 16)) := by
  unfold execCqDoorbell
  rw [hostReady_ready _ hc]
  simp [ho]

end Owner

/-- An SQ doorbell below the ring size with no push held moves SQ_DB and what the ring covers. -/
theorem sqDoorbellValue_moves {s : State} {q v : Nat} (part : Nat) (ha : (qpGet s q).state = .active) (hp : (qpGet s q).pushes = [])
    (hv : v < sqSize s q) :
    sqDoorbellValue s part q v =
      qpSet s q { qpGet s q with sqDb := v, ringLeft := ringDist (sqSize s q) (qpGet s q).sqHead v } := by
  unfold sqDoorbellValue
  rw [if_neg (by simp [ha]), if_neg (by omega)]
  exact dropCovered_noPush part _ (by rw [qpGet_qpSet_same]; exact hp)

/-- At or past the ring size it is an error. -/
theorem sqDoorbellValue_error {s : State} {q v : Nat} (part : Nat) (ha : (qpGet s q).state = .active) (hv : sqSize s q ≤ v) :
    sqDoorbellValue s part q v = qpError s part q F.QP_COUNTS_DOORBELL_ERR 0x0410 := by
  unfold sqDoorbellValue
  rw [if_neg (by simp [ha]), if_pos hv]
  rfl

/-- A CQ doorbell that does not pass the tail moves CQ_HEAD, and a move clears the full mark. -/
theorem cqDoorbellValue_moves {s : State} {q v : Nat} (part : Nat) (hv : v < cqSize s q)
    (hd : ringDist (cqSize s q) (qpGet s q).cqHead v ≤ ringDist (cqSize s q) (qpGet s q).cqHead (qpGet s q).cqTail) :
    cqDoorbellValue s part q v =
      qpSet s q { qpGet s q with cqHead := v, full := if v = (qpGet s q).cqHead then (qpGet s q).full else false } := by
  unfold cqDoorbellValue
  exact if_pos ⟨hv, hd⟩

/-- Settles O18: what acts is one `qpSet`, and what is captured one `qpError`. -/
theorem pushesAndDoorbells : Obligations.PushesAndDoorbells := by
  unfold Obligations.PushesAndDoorbells
  intro s part q hc ho
  have others : ∀ x k, k ≠ q → qpGet (qpSet s q x) k = qpGet s k := fun x _ hk => qpGet_qpSet_ne s x hk
  refine ⟨fun slot e ha hf hr => ?held, fun slot e h => ?dropped, fun value ha hp hv => ?sq, fun value ha hv => ?sqError, fun value hv hd => ?cq⟩
  case held =>
    refine ⟨_, congrArg nxt ((hostReady_ready _ hc).trans (pushAt_held ho e ha hf hr)), qpSet_shape .., qpGet_qpSet_same .., others _⟩
  case dropped =>
    exact ⟨_, congrArg nxt ((hostReady_ready _ hc).trans (pushAt_dropped ho e h)), qpError_shape .., qpError_regs rfl s part q _,
      fun h => qpError_shows rfl part h (by decide)⟩
  case sq =>
    exact ⟨_, (execSqDoorbell_word ho value hc).trans (congrArg nxt (sqDoorbellValue_moves part ha hp hv)), qpSet_shape ..,
      qpGet_qpSet_same .., others _⟩
  case sqError =>
    exact ⟨_, (execSqDoorbell_word ho value hc).trans (congrArg nxt (sqDoorbellValue_error part ha hv)), qpError_shape ..,
      fun h => (qpError_shows rfl part h (by decide)).1⟩
  case cq =>
    refine ⟨_, (execCqDoorbell_word ho value hc).trans (congrArg nxt (cqDoorbellValue_moves part hv hd)), qpSet_shape .., ?_, fun hm => ?_, ?_,
      others _⟩ <;> rw [qpGet_qpSet_same]
    exact if_neg hm

end Sys2Proof.Machine
end

section
/-! SUPPORT. Admission and readiness: a ring read's entries, an entry that is a whole job from SQ_HEAD to the job table, and the job's hand-over
(R100, R105, R110, R113, R114, R124). -/

namespace Sys2Proof.Machine

/-! ### Ring reads -/

/-- Entries without poison that the ring covers are appended to those that wait. -/
theorem execRingReadComplete_good {s : State} {q : Nat} {es : List (BitVec 512 × Bool)} (ha : (qpGet s q).state = .active)
    (hl : es.length ≤ (qpGet s q).ringLeft - (qpGet s q).staged.length) (hp : ∀ e ∈ es, e.2 = false) :
    execRingReadComplete q (.good es) s = .next (qpSet s q { qpGet s q with staged := (qpGet s q).staged ++ es }) := by
  have hany : ¬ es.any (fun e => e.2) = true := by simpa using hp
  unfold execRingReadComplete
  dsimp only
  rw [if_neg (by simp [ha]), List.take_of_length_le hl, if_neg hany]

/-! ### An entry leaves its source -/

/-- Starting a turn changes the round robin alone. -/
theorem beginTurn_shape (s : State) (q : Nat) :
    beginTurn s q = { s with qe := { s.qe with
      turnQp := (beginTurn s q).qe.turnQp, turnLeft := (beginTurn s q).qe.turnLeft, rrPart := (beginTurn s q).qe.rrPart,
      rrQp := (beginTurn s q).qe.rrQp } } := by
  unfold beginTurn
  split <;> rfl

/-- A queue pair whose entry at SQ_HEAD has been taken from its source (R100). -/
def entryTaken (s : State) (q : Nat) (fromPush : Bool) : Qp :=
  let x := { qpGet s q with sqHead := ((qpGet s q).sqHead + 1) % sqSize s q }
  if fromPush then { x with pushes := x.pushes.del ((qpGet s q).sqHead % 4) } else { x with staged := x.staged.drop 1, ringLeft := x.ringLeft - 1 }

theorem takeEntry_eq (s : State) (q : Nat) (fromPush : Bool) : takeEntry s q fromPush = qpSet s q (entryTaken s q fromPush) := by
  cases fromPush <;> rfl

/-- The head moves on by one around the ring; owner and chain stay. -/
theorem entryTaken_fields (s : State) (q : Nat) (fromPush : Bool) :
    (entryTaken s q fromPush).sqHead = ((qpGet s q).sqHead + 1) % sqSize s q ∧ (entryTaken s q fromPush).owner = (qpGet s q).owner ∧
      (entryTaken s q fromPush).chain = (qpGet s q).chain := by
  cases fromPush <;> exact ⟨rfl, rfl, rfl⟩

/-- The state in which the entry at SQ_HEAD is taken and its queue pair has its turn. -/
abbrev headTaken (s : State) (q : Nat) (fromPush : Bool) : State := takeEntry (beginTurn s q) q fromPush

/-- Only the queue engine changes. -/
theorem headTaken_shape (s : State) (q : Nat) (fromPush : Bool) : headTaken s q fromPush = { s with qe := (headTaken s q fromPush).qe } := by
  rw [headTaken, takeEntry_eq, qpSet_shape, beginTurn_shape]

/-- The job table and the next number stay. -/
theorem headTaken_jobs (s : State) (q : Nat) (fromPush : Bool) :
    (headTaken s q fromPush).qe.jobs = s.qe.jobs ∧ (headTaken s q fromPush).qe.nextSeq = s.qe.nextSeq := by
  rw [headTaken, takeEntry_eq, qpSet_jobs, qpSet_nextSeq, beginTurn_shape]
  exact ⟨rfl, rfl⟩

theorem headTaken_qp (s : State) (q : Nat) (fromPush : Bool) :
    (qpGet (headTaken s q fromPush) q).sqHead = ((qpGet s q).sqHead + 1) % sqSize s q ∧
      (qpGet (headTaken s q fromPush) q).owner = (qpGet s q).owner ∧ (qpGet (headTaken s q fromPush) q).chain = (qpGet s q).chain := by
  have h := entryTaken_fields (beginTurn s q) q fromPush
  rw [headTaken, takeEntry_eq, qpGet_qpSet_same]
  rw [beginTurn_shape] at h ⊢
  exact h

/-! ### A job of one entry -/

/-- With no chain open nothing ends. -/
theorem endChain_closed {s : State} {q : Nat} (h : (qpGet s q).chain = .closed) : endChain s q = s := by
  unfold endChain
  rw [h]

/-- The job that an entry begins on a queue pair (R105, R107). -/
def jobOf (s : State) (q : Nat) (e : BitVec 512) (k : JobKind) : Job :=
  { part := (qpGet s q).owner, qp := q, seq := s.qe.nextSeq, tag := bitsOf e 16 16, opcode := bitsOf e 0 8, entries := [e], kind := k,
    fence := e.getLsbD 11, batchMode := qpF s q F.QP_CTRL_BATCH = 1 }

/-- A new job takes the lowest free number of the job table, where a kind of entry is free to it. -/
theorem newJob_some {s : State} {q j : Nat} {k : JobKind} (e : BitVec 512) (hk : jobKindFor s q (qpGet s q).owner = some k)
    (hj : s.qe.jobs.lowestFree 0 512 = some j) :
    newJob s q e = (some j, { s with qe := { s.qe with jobs := s.qe.jobs.ins j (jobOf s q e k), nextSeq := s.qe.nextSeq + 1 } }) := by
  unfold newJob
  simp only [hk, hj]
  rfl

/-- A job whose LAST entry has been taken (R114). -/
def admitted (x : Job) (last : BitVec 512) : Job := { x with irq := last.getLsbD 12, cmplBatch := last.getLsbD 10, phase := .waiting }

/-- QE's checks let the job wait or end it. -/
theorem jobAdmitted_eq {s : State} {j : Nat} {x : Job} (last : BitVec 512) (h : jobGet s j = some x) :
    jobAdmitted s j last =
      if qeCheck s (admitted x last) = stOk then jobSet s j (admitted x last)
      else jobDone (jobSet s j (admitted x last)) j (qeCheck s (admitted x last)) 0 := by
  unfold jobAdmitted
  rw [h]
  rfl

/-- The checks change the job table and the count of a partition reset at most. -/
theorem jobAdmitted_shape (s : State) (j : Nat) (last : BitVec 512) :
    jobAdmitted s j last = { s with
      qe := { s.qe with jobs := (jobAdmitted s j last).qe.jobs }, part := (jobAdmitted s j last).part } := by
  cases h : jobGet s j with
  | none => simp only [jobAdmitted, h]
  | some x =>
    rw [jobAdmitted_eq last h]
    split
    · rfl
    · rw [jobDone_shape]; rfl

theorem jobGet_jobAdmitted_ne (s : State) {j k : Nat} (last : BitVec 512) (hk : k ≠ j) : jobGet (jobAdmitted s j last) k = jobGet s k := by
  cases h : jobGet s j with
  | none => simp only [jobAdmitted, h]
  | some x =>
    rw [jobAdmitted_eq last h]
    split
    · exact jobGet_jobSet_ne s _ hk
    · rw [jobGet_jobDone_ne _ _ _ hk, jobGet_jobSet_ne s _ hk]

/-- The job waits, or has ended with a status that is not OK. -/
theorem jobGet_jobAdmitted_same {s : State} {j : Nat} {x : Job} (last : BitVec 512) (h : jobGet s j = some x) :
    ∃ y, jobGet (jobAdmitted s j last) j = some y ∧ (y.phase = .waiting ∨ (y.phase = .done ∧ y.status ≠ stOk)) ∧
      y.part = x.part ∧ y.qp = x.qp ∧ y.opcode = x.opcode ∧ y.tag = x.tag ∧ y.seq = x.seq ∧ y.entries = x.entries := by
  rw [jobAdmitted_eq last h]
  split
  · exact ⟨_, jobGet_jobSet_same .., .inl rfl, rfl, rfl, rfl, rfl, rfl, rfl⟩
  · rename_i hfail
    obtain ⟨st, r, hget, hst⟩ := jobGet_jobDone_same (qeCheck s (admitted x last)) 0 (jobGet_jobSet_same s j (admitted x last))
    refine ⟨_, hget, .inr ⟨rfl, ?_⟩, rfl, rfl, rfl, rfl, rfl, rfl⟩
    rcases hst with rfl | rfl
    · exact hfail
    · exact (by decide : stPartitionReset ≠ stOk)

/-- The kind of job-table entry free to a queue pair is a matter of the job table, of QE's registers and of the variant. -/
theorem jobKindFor_congr {s t : State} (hv : t.var = s.var) (hr : ∀ f, t.fget pgQe f = s.fget pgQe f) (hj : t.qe.jobs = s.qe.jobs)
    (q part : Nat) : jobKindFor t q part = jobKindFor s q part := by
  have hof : ∀ k, jobsOf t part k = jobsOf s part k := fun k => by unfold jobsOf; rw [hj]
  have hused : sharedUsed t = sharedUsed s := by unfold sharedUsed; rw [hj]
  have hsize : sharedSize t = sharedSize s := by
    unfold sharedSize
    rw [hv]
    simp only [hr]
  unfold jobKindFor
  rw [hv, hj, hof, hof, hof, hr, hr, hused, hsize]

/-- The state in which an entry that is a whole job has its place in the job table and QE has not checked it (R105, R110). -/
def wholePlaced (s : State) (q j : Nat) (e : BitVec 512) (k : JobKind) (fromPush : Bool) : State :=
  let t := headTaken s q fromPush
  setChain { t with qe := { t.qe with jobs := t.qe.jobs.ins j (jobOf t q e k), nextSeq := t.qe.nextSeq + 1 } } q .closed

/-- An unpoisoned entry with FIRST and LAST set, met with no chain open, is taken and checked as a whole job. -/
theorem admitEntry_whole {s : State} {q j : Nat} {e : BitVec 512} {k : JobKind} {fromPush : Bool} (hs : nextSource s q = some (e, false, fromPush))
    (hc : (qpGet s q).chain = .closed) (hf : e.getLsbD 8 = true) (hl : e.getLsbD 9 = true) (hk : jobKindFor s q (qpGet s q).owner = some k)
    (hj : s.qe.jobs.lowestFree 0 512 = some j) :
    admitEntry s q false = turnJob (jobAdmitted (wholePlaced s q j e k fromPush) j e) := by
  obtain ⟨-, howner, hchain⟩ := headTaken_qp s q fromPush
  obtain ⟨hjobs, -⟩ := headTaken_jobs s q fromPush
  have hshape := headTaken_shape s q fromPush
  have hkind : jobKindFor (headTaken s q fromPush) q (qpGet (headTaken s q fromPush) q).owner = some k := by
    rw [howner, ← hk]
    exact jobKindFor_congr (by rw [hshape]; rfl) (fun f => by rw [hshape]; rfl) hjobs q _
  unfold admitEntry
  rw [hs]
  dsimp only
  rw [if_neg (by simp), if_pos hf, endChain_closed (hchain.trans hc)]
  unfold admitFirst
  rw [newJob_some e hkind (by rw [hjobs, hj])]
  exact if_pos hl

/-- What the placed job is, and what its placing leaves. -/
theorem wholePlaced_leaves (s : State) (q j : Nat) (e : BitVec 512) (k : JobKind) (fromPush : Bool) :
    let t := wholePlaced s q j e k fromPush
    t = { s with qe := t.qe } ∧ jobGet t j = some (jobOf (headTaken s q fromPush) q e k) ∧ (∀ i, i ≠ j → jobGet t i = jobGet s i) ∧
      (qpGet t q).sqHead = ((qpGet s q).sqHead + 1) % sqSize s q ∧ t.qe.nextSeq = s.qe.nextSeq + 1 := by
  obtain ⟨hhead, -, -⟩ := headTaken_qp s q fromPush
  obtain ⟨hjobs, hseq⟩ := headTaken_jobs s q fromPush
  unfold wholePlaced setChain
  dsimp only
  refine ⟨?_, ?_, fun i hi => ?_, ?_, ?_⟩
  · rw [qpSet_shape, headTaken_shape]
  · rw [qpSet_jobGet]
    exact Tab.find?_ins_same ..
  · rw [qpSet_jobGet]
    exact (Tab.find?_ins_ne _ _ hi).trans (by rw [hjobs]; rfl)
  · rw [qpGet_qpSet_same]
    exact hhead
  · rw [qpSet_nextSeq]
    exact congrArg (· + 1) hseq

/-! ### Readiness -/

/-- A waiting job with no fence against it and no cancel is handed over. -/
theorem execJobReady_starts {s : State} {j : Nat} {x : Job} (h : jobGet s j = some x) (hw : x.phase = .waiting) (hd : s.qe.dead = false)
    (hf : x.fence = true → earlierJob s x = false) (hc : x.cancel = false) :
    execJobReady j s = .next (jobSet s j { x with phase := .started, hadStarted := true, startTick := s.now }) := by
  have hfence : ¬ (x.fence ∧ earlierJob s x) := fun ⟨h1, h2⟩ => by simp [hf h1] at h2
  unfold execJobReady
  simp only [h]
  rw [if_neg (by simpa [hw, hd] using hfence), if_neg (by simp [hc])]

/-- Settles O19: a ring read is one `qpSet`, an entry that is a whole job is `wholePlaced` and then checked, and a hand-over is one `jobSet`. -/
theorem admissionAndReadiness : Obligations.AdmissionAndReadiness := by
  unfold Obligations.AdmissionAndReadiness
  refine ⟨fun s q es ha hl hp => ?_, fun s q e fromPush kind j hpick hs hc hf hl hk hj => ?_, fun s j x h hw hd hf hc => ?_⟩
  · exact ⟨_, execRingReadComplete_good ha hl hp, qpSet_shape .., qpGet_qpSet_same .., fun k hk => qpGet_qpSet_ne s _ hk⟩
  · have hexec : execEntryAdmit .none s = .next (admitEntry s q false) := by
      unfold execEntryAdmit
      simp only [hpick]
      rfl
    obtain ⟨hshape, hjob, hothers, hhead, hseq⟩ := wholePlaced_leaves s q j e kind fromPush
    obtain ⟨x, hx, hphase, hpart, hqp, hop, htag, hnum, hentries⟩ := jobGet_jobAdmitted_same e hjob
    have hchecked := jobAdmitted_shape (wholePlaced s q j e kind fromPush) j e
    obtain ⟨-, howner, -⟩ := headTaken_qp s q fromPush
    obtain ⟨-, hnext⟩ := headTaken_jobs s q fromPush
    refine ⟨_, x, hexec.trans (congrArg nxt (admitEntry_whole hs hc hf hl hk hj)), ?_, hx, hpart.trans howner, hqp, hop, htag, hnum.trans hnext,
      hentries, hphase, ?_, ?_, fun i hi => (jobGet_jobAdmitted_ne _ e hi).trans (hothers i hi)⟩
    · unfold turnJob
      rw [hchecked, hshape]
    · rw [← hhead]
      refine congrArg Qp.sqHead (qpGet_congr ?_ ?_ q)
      · unfold turnJob; rw [hchecked]; rfl
      · unfold turnJob; rw [hchecked]
    · rw [← hseq]
      unfold turnJob
      rw [hchecked]
  · exact ⟨_, execJobReady_starts h hw hd hf hc, rfl, jobGet_jobSet_same .., fun k hk => jobGet_jobSet_ne s _ hk⟩

end Sys2Proof.Machine
end

section
/-! SUPPORT. Completions and interrupts of queue pairs: the CQ entry of the oldest job on its way to the host, its place in the job table
(R117, R119, R122, R146, R174), and the end of the interrupt timer (R121). -/

namespace Sys2Proof.Machine

/-! ### CQ entries -/

/-- The CQ entry that QE forms at CQ_TAIL of a queue pair, with the jobs folded into it counted (R117, R119, Table 4.6). -/
abbrev cqEntryOf (s : State) (q tag status result : Nat) : HostTx :=
  .cq (qpGet s q).owner q (qpF s q F.QP_CQ_BASE_LO + qpF s q F.QP_CQ_BASE_HI * 2 ^ 32 + 16 * (qpGet s q).cqTail)
    (cqEntry tag status ((qpGet s q).folded + 1) (qpGet s q).sqHead result q (qpGet s q).phase)

/-- A queue pair after a CQ entry that signals no interrupt. -/
def cqMoved (s : State) (q : Nat) : Qp :=
  let x := qpGet s q
  let tail := (x.cqTail + 1) % cqSize s q
  { x with cqTail := tail, phase := if tail = 0 then !x.phase else x.phase, folded := 0, foldedIrq := false }

/-- What goes to the host leaves the queue pairs and their registers. -/
theorem qpGet_hostSend (s : State) (fn : Nat) (tx : HostTx) (q : Nat) : qpGet (hostSend s fn tx) q = qpGet s q := by
  rw [hostSend_shape]; rfl

theorem qpF_hostSend (s : State) (fn : Nat) (tx : HostTx) (q : Nat) (f : Fld) : qpF (hostSend s fn tx) q f = qpF s q f := by
  rw [hostSend_shape]; rfl

/-- An entry with OK that asks for no interrupt goes to the host and moves the tail, and signals nothing. -/
theorem cqWrite_silent {s : State} {q : Nat} (tag result : Nat) (h : qpF s q F.QP_CTRL_IRQ_ALL = 0) :
    cqWrite s q tag stOk ((qpGet s q).folded + 1) result false =
      qpSet (hostSend s (qpGet s q).owner (cqEntryOf s q tag stOk result)) q (cqMoved s q) := by
  unfold cqWrite cqSize
  simp only [qpF_hostSend, h]
  rfl

/-- The oldest job's completion is written where it has ended, does not fold and finds room. -/
theorem completeOldest_writes {s : State} {q j : Nat} {x : Job} (ho : oldestJob s q = some (j, x)) (hp : x.phase = .done)
    (hf : folds x (qpGet s q).folded = false) (hc : cqIsFull s q = false) (discard : Bool) :
    completeOldest s q discard =
      jobWritten (cqWrite s q x.tag x.status ((qpGet s q).folded + 1) x.result (x.irq || (qpGet s q).foldedIrq)) q j x := by
  unfold completeOldest
  simp [ho, hp, hf, hc]

/-- A queue pair that is not being deleted is not freed. -/
theorem deleteDone_notDeleting {s : State} {q : Nat} (h : (qpGet s q).deleting = none) : deleteDone s q = s := by
  unfold deleteDone
  simp only [h]

theorem jobGet_jobFree_same (s : State) (j : Nat) : jobGet (jobFree s j) j = none := Tab.find?_del_same ..

theorem jobGet_jobFree_ne (s : State) {j k : Nat} (h : k ≠ j) : jobGet (jobFree s j) k = jobGet s k := Tab.find?_del_ne _ h

/-- A written job's place changes the job table alone, and there the job alone. -/
theorem jobWritten_shape (s : State) (q j : Nat) (x : Job) :
    jobWritten s q j x = { s with qe := { s.qe with jobs := (jobWritten s q j x).qe.jobs } } := by
  unfold jobWritten
  split <;> rfl

theorem jobGet_jobWritten_ne (s : State) (q : Nat) {j k : Nat} (x : Job) (h : k ≠ j) : jobGet (jobWritten s q j x) k = jobGet s k := by
  unfold jobWritten
  split
  · exact jobGet_jobFree_ne s h
  · exact jobGet_jobSet_ne s _ h

theorem qpGet_jobWritten (s : State) (q j : Nat) (x : Job) (k : Nat) : qpGet (jobWritten s q j x) k = qpGet s k := by
  rw [jobWritten_shape]; rfl

/-- It leaves the job table while Bus Master Enable of its function is 1, and waits there while it is 0 (R174). -/
theorem jobGet_jobWritten_same (s : State) (q j : Nat) (x : Job) :
    jobGet (jobWritten s q j x) j = if s.host.bme.get false (qpGet s q).owner = true then none else some { x with held := true } := by
  unfold jobWritten
  split
  · exact jobGet_jobFree_same s j
  · exact jobGet_jobSet_same ..

/-- The state in which the silent entry of a job is formed and the job has its place (R119, R174). -/
def entryFormed (s : State) (q j : Nat) (x : Job) : State :=
  jobWritten (qpSet (hostSend s (qpGet s q).owner (cqEntryOf s q x.tag stOk x.result)) q (cqMoved s q)) q j x

theorem qpGet_entryFormed (s : State) (q j : Nat) (x : Job) : qpGet (entryFormed s q j x) q = cqMoved s q := by
  unfold entryFormed
  rw [qpGet_jobWritten, qpGet_qpSet_same]

/-- Only the queue engine and the host side change. -/
theorem entryFormed_shape (s : State) (q j : Nat) (x : Job) :
    entryFormed s q j x = { s with qe := (entryFormed s q j x).qe, host := (entryFormed s q j x).host } := by
  unfold entryFormed
  rw [jobWritten_shape, qpSet_shape, hostSend_shape]

/-- To the host it is the entry that is sent. -/
theorem entryFormed_host (s : State) (q j : Nat) (x : Job) :
    (entryFormed s q j x).host = (hostSend s (qpGet s q).owner (cqEntryOf s q x.tag stOk x.result)).host := by
  unfold entryFormed
  rw [jobWritten_shape, qpSet_shape]

theorem jobGet_entryFormed_ne (s : State) (q : Nat) {j k : Nat} (x : Job) (h : k ≠ j) : jobGet (entryFormed s q j x) k = jobGet s k := by
  unfold entryFormed
  rw [jobGet_jobWritten_ne _ _ _ h, qpSet_jobGet, hostSend_shape]
  rfl

/-- What Bus Master Enable does to messages changes none of its bits. -/
theorem hostSend_bme (s : State) (fn : Nat) (tx : HostTx) : (hostSend s fn tx).host.bme = s.host.bme := by
  rw [hostSend_host]
  split
  · rfl
  · split <;> rfl

theorem jobGet_entryFormed_same (s : State) (q j : Nat) (x : Job) :
    jobGet (entryFormed s q j x) j = if s.host.bme.get false (qpGet s q).owner = true then none else some { x with held := true } := by
  unfold entryFormed
  rw [jobGet_jobWritten_same, qpSet_host, hostSend_bme, qpGet_qpSet_same]
  rfl

/-- A silent completion of a queue pair that is not being deleted, of a partition that does not reset. -/
theorem execCqEntryWrite_silent {s : State} {q j : Nat} {x : Job} (hd : s.qe.dead = false) (hr : s.part.resets.find? (qpGet s q).owner = none)
    (hdel : (qpGet s q).deleting = none) (ho : oldestJob s q = some (j, x)) (hp : x.phase = .done) (hst : x.status = stOk) (hi : x.irq = false)
    (hfi : (qpGet s q).foldedIrq = false) (ha : qpF s q F.QP_CTRL_IRQ_ALL = 0) (hf : folds x (qpGet s q).folded = false)
    (hc : cqIsFull s q = false) : execCqEntryWrite q s = .next (entryFormed s q j x) := by
  have hone : completeOldest s q false = entryFormed s q j x := by
    rw [completeOldest_writes ho hp hf hc, hst, hi, hfi, Bool.or_self, cqWrite_silent _ _ ha]
    rfl
  unfold execCqEntryWrite
  rw [if_neg (by simp [hd])]
  simp only [hr, hdel, hone]
  rw [deleteDone_notDeleting (by rw [qpGet_entryFormed]; exact hdel)]

/-! ### The interrupt timer -/

/-- A queue pair's interrupt changes the table of queue pairs and the host side. -/
theorem qpInterrupt_shape (s : State) (q : Nat) :
    qpInterrupt s q = { s with qe := { s.qe with qps := (qpInterrupt s q).qe.qps }, host := (qpInterrupt s q).host } := by
  unfold qpInterrupt
  dsimp only
  rw [hostSend_shape, qpSet_shape]

/-- The count of signalling entries starts again. -/
theorem qpGet_qpInterrupt_same (s : State) (q : Nat) :
    qpGet (qpInterrupt s q) q = { qpGet s q with sigCount := 0, sigSince := none } := by
  unfold qpInterrupt
  rw [qpGet_hostSend, qpGet_qpSet_same]

/-- The message leaves at once where the host hears the owner. -/
theorem qpInterrupt_host {s : State} {q : Nat} (h : HostHears s (qpGet s q).owner) :
    (qpInterrupt s q).host = { s.host with out := .msix (qpGet s q).owner (qpF s q F.QP_IRQ_VECTOR) :: s.host.out } := by
  have hu : HostHears (qpSet s q { qpGet s q with sigCount := 0, sigSince := none }) (qpGet s q).owner := by
    simpa [HostHears] using h
  unfold qpInterrupt
  dsimp only
  rw [hostSend_hears _ hu, qpSet_host]

/-- At the end of the timer, with signalling entries counted and interrupts enabled, the message is sent at the timer's tick. -/
theorem execIrqTimerExpiry_sends {s : State} {q since : Nat} (hs : (qpGet s q).sigSince = some since) (hn : (qpGet s q).sigCount ≠ 0)
    (ht : qpF s q F.QP_IRQ_TIME ≠ 0) (he : qpF s q F.QP_CTRL_IRQ_EN = 1) :
    execIrqTimerExpiry q s = .next (qpInterrupt (s.reach (since + qpF s q F.QP_IRQ_TIME * 800)) q) := by
  have hen : qpF (s.reach (since + qpF s q F.QP_IRQ_TIME * 800)) q F.QP_CTRL_IRQ_EN = 1 := (reach_fget ..).trans he
  unfold execIrqTimerExpiry
  simp only [hs]
  rw [if_neg (by simp [ht, hn]), if_pos hen]

/-- Settles O20: a silent completion leaves `entryFormed`, whose message goes by `hostSend_host`, and the timer's end `qpInterrupt`. -/
theorem completionsReachTheHost : Obligations.CompletionsReachTheHost := by
  unfold Obligations.CompletionsReachTheHost
  intro s q hd
  dsimp only
  refine ⟨fun j x hr hdel ho hp hst hi hfi ha hf hc => ?_, fun since hs hn ht he hb => ?_⟩
  · have hhost := (entryFormed_host s q j x).trans (hostSend_host ..)
    rw [if_neg (by simp [hd])] at hhost
    refine ⟨_, execCqEntryWrite_silent hd hr hdel ho hp hst hi hfi ha hf hc, entryFormed_shape .., ?_, ?_, ?_,
      fun k hk => jobGet_entryFormed_ne s q x hk, fun hb => ?_, fun hb => ?_⟩
    · rw [qpGet_entryFormed]; rfl
    · rw [qpGet_entryFormed]; rfl
    · rw [qpGet_entryFormed]; rfl
    · rw [jobGet_entryFormed_same, if_pos hb, hhost, if_pos hb]
      exact ⟨rfl, rfl⟩
    · rw [jobGet_entryFormed_same, if_neg (by simp [hb]), hhost, if_neg (by simp [hb])]
      exact ⟨rfl, rfl, Tab.get_set_same .., fun n hn => Tab.get_set_ne _ _ _ _ hn, rfl⟩
  · have hq : qpGet (s.reach (since + qpF s q F.QP_IRQ_TIME * 800)) q = qpGet s q := by rw [reach_shape]; rfl
    have hvec : qpF (s.reach (since + qpF s q F.QP_IRQ_TIME * 800)) q F.QP_IRQ_VECTOR = qpF s q F.QP_IRQ_VECTOR := reach_fget ..
    refine ⟨_, execIrqTimerExpiry_sends hs hn ht he, ?_, ?_, ?_⟩
    · rw [qpInterrupt_shape, reach_shape]
    · rw [qpInterrupt_host (by rw [hq, reach_shape]; exact ⟨hd, hb⟩), hq, hvec, reach_shape]
    · rw [qpGet_qpInterrupt_same]
      exact ⟨rfl, rfl⟩

end Sys2Proof.Machine
end

section
/-! SUPPORT. QP_CREATE and its registers (R127, Table 4.9): what it gives a queue pair for a submitter that is one of the 16 partitions, and a
job whose partition number is none of them, for which QP_USED of that number falls on the queue pair's own SQ base. -/

namespace Sys2Proof.Machine

/-! ### A queue pair's registers -/

theorem qpF_qpPut_same (s : State) (q : Nat) {f : Fld} {v : Nat} (h : f.lo + f.wid ≤ 32) (hv : v < 2 ^ f.wid) : qpF (qpPut s q f v) q f = v :=
  (fget_fset_same s (qpPage q) (f.sh (qpOff q)) v h).trans (Nat.mod_eq_of_lt hv)

theorem qpF_qpPut_ne (s : State) (q : Nat) {f g : Fld} (v : Nat) (h : g.off ≠ f.off) : qpF (qpPut s q f v) q g = qpF s q g :=
  fget_fset_ne s _ _ v (by simp only [Fld.sh]; omega)

theorem qpF_qpPut_beside (s : State) (q : Nat) {f g : Fld} (v : Nat) (ho : g.off = f.off) (h : g.lo + g.wid ≤ f.lo ∨ f.lo + f.wid ≤ g.lo) :
    qpF (qpPut s q f v) q g = qpF s q g :=
  fget_fset_beside s (qpPage q) (f.sh (qpOff q)) (g.sh (qpOff q)) v (congrArg (· + qpOff q) ho) h

/-- The counts of the 16 partitions' queue pairs stand on the QE page. -/
theorem qpF_setUsed (s : State) (q : Nat) {part : Nat} (f : Fld) (v : Nat) (hp : part < 16) :
    qpF (s.fset pgQe (F.QE_PQP_QP_USED.sh (4 * part)) v) q f = qpF s q f :=
  fget_fset_ne s _ _ v (by simp only [Fld.sh, qpPage, pgQe, pgQp]; omega)

theorem payBits_lt (x : Job) (lo wid : Nat) : payBits x lo wid < 2 ^ wid := bitsOf_lt ..

/-- QP_CREATE for one of the 16 partitions gives the queue pair the ring addresses and sizes of its payload. -/
theorem qpCreate_rings (s : State) (x : Job) (q : Nat) (hp : x.part < 16) :
    let t := qpCreate s x q
    qpF t q F.QP_SQ_BASE_LO = payBits x 64 32 ∧ qpF t q F.QP_SQ_BASE_HI = payBits x 96 32 ∧
      qpF t q F.QP_CQ_BASE_LO = payBits x 128 32 ∧ qpF t q F.QP_CQ_BASE_HI = payBits x 160 32 ∧
      qpF t q F.QP_SIZE_SQ_LOG2 = payBits x 48 4 ∧ qpF t q F.QP_SIZE_CQ_LOG2 = payBits x 52 4 := by
  have hlast : ∀ t y f, qpF (qpSet (State.fset t pgQe (F.QE_PQP_QP_USED.sh (4 * x.part))
      (t.fget pgQe (F.QE_PQP_QP_USED.sh (4 * x.part)) + 1)) q y) q f = qpF t q f := fun t y f =>
    (qpSet_fget ..).trans (qpF_setUsed t q f _ hp)
  unfold qpCreate
  dsimp only
  refine ⟨?_, ?_, ?_, ?_, ?_, ?_⟩ <;> rw [hlast] <;> simp (disch := decide) only [qpF_qpPut_ne, qpF_qpPut_beside] <;>
    exact qpF_qpPut_same _ q (by decide) (payBits_lt x _ _)

/-! ### The check and the creation -/

/-- A QP_CREATE that passes its checks creates the queue pair and ends. -/
theorem execQpCreate_passes {s : State} {job q : Nat} {x : Job} (h : startedJob s job 0x01 = some x) (hc : qpCreateCheck s x = .inr q) :
    execQpCreate job s = .next (jobDone (qpCreate s x q) job stOk q) := by
  unfold execQpCreate
  simp only [h, hc]

/-- A job's end leaves every register. -/
theorem qpF_jobDone (s : State) (j status result q : Nat) (f : Fld) : qpF (jobDone s j status result) q f = qpF s q f := by
  rw [jobDone_shape]; rfl

/-- No partition of any part: the number whose QE_PQP register would stand where SQ_BASE_LO of queue pair 16 does. -/
def strayPart : Nat := (qpPage 16 * 4096 + (F.QP_SQ_BASE_LO.sh (qpOff 16)).off - (pgQe * 4096 + F.QE_PQP_QP_USED.off)) / 4

/-- A started QP_CREATE of queue pair 16 with rings of 16 entries at address 0. -/
def strayCreate : Job :=
  { part := strayPart, opcode := 0x01, phase := .started, entries := [16 <<< 32 ||| 4 <<< 48 ||| 4 <<< 52] }

/-- It is job 0, and the word at the shared address reads as a QP_MAX of 1. -/
def strayState : State := { regs := [(qpPage 16 * 4096 + (F.QP_SQ_BASE_LO.sh (qpOff 16)).off, 1)], qe := { jobs := [(0, strayCreate)] } }

/-- The count of queue pairs lands in the SQ base. -/
theorem strayCreate_base : qpF (qpCreate strayState strayCreate 16) 16 F.QP_SQ_BASE_LO = 0x10000 := by decide +kernel

/-- Refutes O21: the statement does not bound the submitter's partition, and for `strayPart` the count QP_USED that QP_CREATE raises falls on
SQ_BASE_LO of the queue pair it makes, which reads 0x10000 in place of the payload's 0. No partition has that number; for one of the 16
the clause's registers are those of `qpCreate_rings`. -/
theorem not_queuePairLife : ¬ Obligations.QueuePairLife := by
  unfold Obligations.QueuePairLife
  rintro ⟨-, hcreate, -⟩
  have hjob : startedJob strayState 0 0x01 = some strayCreate := rfl
  have hcheck : qpCreateCheck strayState strayCreate = .inr 16 := by decide +kernel
  obtain ⟨t, ht, -, -, hbase, -⟩ := hcreate strayState 0 strayCreate 16 hjob hcheck rfl
  obtain rfl := Host.Outcome.next.inj ((execQpCreate_passes hjob hcheck).symm.trans ht)
  rw [qpF_jobDone, strayCreate_base] at hbase
  exact absurd hbase (by decide +kernel)

end Sys2Proof.Machine
end

section
/-! SUPPORT. The error log of a partition (R147): the words of an entry, and NEXT, HELD and LOST after it. -/

namespace Sys2Proof.Machine

/-! ### One entry -/

/-- The log with the four words of a new entry under NEXT. -/
def logEntry (s : State) (part page code detail stamp : Nat) : State :=
  let l := pgPart + part
  let e := 0x100 + 16 * s.fget l F.PART_LOG_STAT_NEXT
  ((s.setReg l e (BitVec.ofNat 32 (code % 2 ^ 16 + (page % 2 ^ 14) * 2 ^ 16))).setReg l (e + 4) (BitVec.ofNat 32 detail)).setReg64
    l (e + 8) (e + 12) stamp

/-- The log counts one more entry after the `held` that it holds: the oldest is lost where there are 16. -/
def logCount (s : State) (part held : Nat) : State :=
  if held < 16 then s.fset (pgPart + part) F.PART_LOG_STAT_HELD (held + 1) else s.fincSat (pgPart + part) F.PART_LOG_STAT_LOST 1

/-- The log after an entry, before its interrupt: the entry is written, NEXT moves on and the counts follow. -/
def logNoted (s : State) (part page code detail stamp : Nat) : State :=
  logCount ((logEntry s part page code detail stamp).fset (pgPart + part) F.PART_LOG_STAT_NEXT ((s.fget (pgPart + part) F.PART_LOG_STAT_NEXT + 1) % 16))
    part (s.fget (pgPart + part) F.PART_LOG_STAT_HELD)

theorem logAppend_eq (s : State) (part page code detail stamp : Nat) :
    logAppend s part page code detail stamp = pageIrq (logNoted s part page code detail stamp) (pgPart + part) 2 := rfl

/-- The counts stand in PART_LOG_STAT alone. -/
theorem logCount_reg_ne (s : State) (part held : Nat) {o : Nat} (h : o ≠ F.PART_LOG_STAT_NEXT.off) :
    (logCount s part held).reg (pgPart + part) o = s.reg (pgPart + part) o := by
  have hne : (pgPart + part) * 4096 + o ≠ (pgPart + part) * 4096 + F.PART_LOG_STAT_NEXT.off := by omega
  unfold logCount
  split <;> exact reg_fset_ne _ _ _ hne

/-- A new entry leaves PART_LOG_STAT. -/
theorem logEntry_fget_stat (s : State) (part page code detail stamp : Nat) {f : Fld} (h : f.off = F.PART_LOG_STAT_NEXT.off) :
    (logEntry s part page code detail stamp).fget (pgPart + part) f = s.fget (pgPart + part) f := by
  unfold logEntry State.setReg64
  dsimp only
  rw [fget_setReg_ne _ _ _ (by rw [h]; simp; omega), fget_setReg_ne _ _ _ (by rw [h]; simp; omega),
    fget_setReg_ne _ _ _ (by rw [h]; simp; omega), fget_setReg_ne _ _ _ (by rw [h]; simp; omega)]

/-- Of what follows the words of an entry, nothing is written among the entries. -/
theorem logAppend_reg_entry (s : State) (part page code detail stamp : Nat) {o : Nat} (h : 0x100 ≤ o) (ho : o < 4096) :
    (logAppend s part page code detail stamp).reg (pgPart + part) o = (logEntry s part page code detail stamp).reg (pgPart + part) o := by
  rw [logAppend_eq, pageIrq_reg _ _ _ ho, if_neg (by simp; omega), logNoted, logCount_reg_ne _ _ _ (by simp; omega),
    reg_fset_ne _ _ _ (by simp; omega)]

/-- The words under NEXT: code and page, the detail, and the time. -/
theorem logAppend_entry (s : State) (part page code detail stamp : Nat) :
    let t := logAppend s part page code detail stamp
    let l := pgPart + part
    let e := 0x100 + 16 * s.fget l F.PART_LOG_STAT_NEXT
    t.reg l e = BitVec.ofNat 32 (code % 2 ^ 16 + (page % 2 ^ 14) * 2 ^ 16) ∧ t.reg l (e + 4) = BitVec.ofNat 32 detail ∧
      t.reg64 l (e + 8) (e + 12) = stamp % 2 ^ 64 := by
  have hnext : s.fget (pgPart + part) F.PART_LOG_STAT_NEXT < 16 := fget_lt s _ F.PART_LOG_STAT_NEXT
  have hread : ∀ o, 0x100 ≤ o → o < 4096 → (logAppend s part page code detail stamp).reg (pgPart + part) o =
      (logEntry s part page code detail stamp).reg (pgPart + part) o := fun o => logAppend_reg_entry s part page code detail stamp
  dsimp only
  rw [State.reg64, hread _ (by omega) (by omega), hread _ (by omega) (by omega), hread _ (by omega) (by omega), hread _ (by omega) (by omega)]
  refine ⟨?_, ?_, reg64_setReg64_same _ stamp (by omega)⟩ <;> unfold logEntry State.setReg64
  · rw [reg_setReg_ne _ _ (by omega), reg_setReg_ne _ _ (by omega), reg_setReg_ne _ _ (by omega), reg_setReg_same]
  · rw [reg_setReg_ne _ _ (by omega), reg_setReg_ne _ _ (by omega), reg_setReg_same]

/-! ### The counts -/

/-- The interrupt leaves PART_LOG_STAT. -/
theorem logAppend_fget_stat (s : State) (part page code detail stamp : Nat) {f : Fld} (h : f.off = F.PART_LOG_STAT_NEXT.off) :
    (logAppend s part page code detail stamp).fget (pgPart + part) f = (logNoted s part page code detail stamp).fget (pgPart + part) f := by
  rw [State.fget, logAppend_eq, pageIrq_reg _ _ _ (by rw [h]; decide), if_neg (by rw [h]; simp)]
  rfl

/-- Counting an entry leaves NEXT. -/
theorem logCount_next (s : State) (part held : Nat) :
    (logCount s part held).fget (pgPart + part) F.PART_LOG_STAT_NEXT = s.fget (pgPart + part) F.PART_LOG_STAT_NEXT := by
  unfold logCount
  split
  · exact fget_fset_beside _ _ _ _ _ rfl (.inl (by decide))
  · exact fget_fset_beside _ _ _ _ _ rfl (.inl (by decide))

theorem logAppend_next (s : State) (part page code detail stamp : Nat) :
    (logAppend s part page code detail stamp).fget (pgPart + part) F.PART_LOG_STAT_NEXT = (s.fget (pgPart + part) F.PART_LOG_STAT_NEXT + 1) % 16 := by
  rw [logAppend_fget_stat _ _ _ _ _ _ rfl, logNoted, logCount_next, fget_fset_same _ _ _ _ (by decide)]
  exact Nat.mod_mod_of_dvd _ (dvd_refl 16)

/-- A log with room holds one more entry and has lost none. -/
theorem logAppend_room {s : State} {part : Nat} (page code detail stamp : Nat) (h : s.fget (pgPart + part) F.PART_LOG_STAT_HELD < 16) :
    let t := logAppend s part page code detail stamp
    t.fget (pgPart + part) F.PART_LOG_STAT_HELD = s.fget (pgPart + part) F.PART_LOG_STAT_HELD + 1 ∧
      t.fget (pgPart + part) F.PART_LOG_STAT_LOST = s.fget (pgPart + part) F.PART_LOG_STAT_LOST := by
  dsimp only
  rw [logAppend_fget_stat (f := F.PART_LOG_STAT_HELD) _ _ _ _ _ _ rfl, logAppend_fget_stat (f := F.PART_LOG_STAT_LOST) _ _ _ _ _ _ rfl]
  unfold logNoted logCount
  rw [if_pos h, fget_fset_same _ _ _ _ (by decide), fget_fset_beside _ _ F.PART_LOG_STAT_HELD F.PART_LOG_STAT_LOST _ rfl (.inr (by decide)),
    fget_fset_beside _ _ F.PART_LOG_STAT_NEXT F.PART_LOG_STAT_LOST _ rfl (.inr (by decide)),
    logEntry_fget_stat (f := F.PART_LOG_STAT_LOST) _ _ _ _ _ _ rfl]
  exact ⟨Nat.mod_eq_of_lt (Nat.lt_of_lt_of_le (Nat.succ_lt_succ h) (by decide)), rfl⟩

/-- A full log loses its oldest entry, and counts it. -/
theorem logAppend_full {s : State} {part : Nat} (page code detail stamp : Nat) (h : 16 ≤ s.fget (pgPart + part) F.PART_LOG_STAT_HELD) :
    let t := logAppend s part page code detail stamp
    t.fget (pgPart + part) F.PART_LOG_STAT_HELD = s.fget (pgPart + part) F.PART_LOG_STAT_HELD ∧
      t.fget (pgPart + part) F.PART_LOG_STAT_LOST = min (s.fget (pgPart + part) F.PART_LOG_STAT_LOST + 1) 0xFFFF := by
  dsimp only
  rw [logAppend_fget_stat (f := F.PART_LOG_STAT_HELD) _ _ _ _ _ _ rfl, logAppend_fget_stat (f := F.PART_LOG_STAT_LOST) _ _ _ _ _ _ rfl]
  unfold logNoted logCount State.fincSat
  rw [if_neg (by omega), fget_fset_same _ _ _ _ (by decide), fget_fset_beside _ _ F.PART_LOG_STAT_LOST F.PART_LOG_STAT_HELD _ rfl (.inl (by decide)),
    fget_fset_beside _ _ F.PART_LOG_STAT_NEXT F.PART_LOG_STAT_HELD _ rfl (.inr (by decide)),
    fget_fset_beside _ _ F.PART_LOG_STAT_NEXT F.PART_LOG_STAT_LOST _ rfl (.inr (by decide)),
    logEntry_fget_stat (f := F.PART_LOG_STAT_HELD) _ _ _ _ _ _ rfl,
    logEntry_fget_stat (f := F.PART_LOG_STAT_LOST) _ _ _ _ _ _ rfl]
  refine ⟨rfl, Nat.mod_eq_of_lt ?_⟩
  simp only [satAdd]
  omega

/-! ### The statement -/

/-- What a capture does to the page leaves every partition's PART_LOG_STAT. -/
theorem captureOnPage_fget_stat (s : State) (p code part detail : Nat) {f : Fld} (h : f.off = F.PART_LOG_STAT_NEXT.off) :
    (captureOnPage s p code part detail).fget (pgPart + part) f = s.fget (pgPart + part) f :=
  (captureOnPage_regs s p code part detail).fget (by rw [h]; decide) (by rw [h]; simp [errRegs])

/-- Settles O9: a capture is one log entry after what it does to the page, which leaves the log's counts. -/
theorem logTakesEveryEvent : Obligations.LogTakesEveryEvent := by
  unfold Obligations.LogTakesEveryEvent
  intro s p code part detail hcode hpage _
  have hstat : ∀ f : Fld, f.off = F.PART_LOG_STAT_NEXT.off →
      (captureOnPage s p code part detail).fget (pgPart + part) f = s.fget (pgPart + part) f :=
    fun f => captureOnPage_fget_stat s p code part detail
  obtain ⟨hword, hdetail, htime⟩ := logAppend_entry (captureOnPage s p code part detail) part p code detail (stampOf s p code)
  have hnext := logAppend_next (captureOnPage s p code part detail) part p code detail (stampOf s p code)
  have hroom := logAppend_room (s := captureOnPage s p code part detail) (part := part) p code detail (stampOf s p code)
  have hfull := logAppend_full (s := captureOnPage s p code part detail) (part := part) p code detail (stampOf s p code)
  simp only [hstat F.PART_LOG_STAT_NEXT rfl, hstat F.PART_LOG_STAT_HELD rfl, hstat F.PART_LOG_STAT_LOST rfl, ← capture_eq_logAppend,
    Nat.mod_eq_of_lt hcode, Nat.mod_eq_of_lt hpage] at hword hdetail htime hnext hroom hfull
  exact ⟨hword, hdetail, htime, hnext, hroom, hfull⟩

end Sys2Proof.Machine
end

section
/-! SUPPORT. Stops and the SPI target port: which pages a stop of the robot writes (R326, R336), and what the frames of chapter 5 leave (R165 to
R167). -/

namespace Sys2Proof.Machine

/-! ### Pages beside a write -/

namespace PagesOnly
variable {ps qs : Nat → Prop} {s t u : State}

theorem refl (ps : Nat → Prop) (s : State) : PagesOnly ps s s := fun _ _ _ _ => rfl

theorem trans (h : PagesOnly ps s t) (g : PagesOnly ps t u) : PagesOnly ps s u := fun p o ho hn => (g p o ho hn).trans (h p o ho hn)

theorem mono (h : PagesOnly ps s t) (hs : ∀ q, ps q → qs q) : PagesOnly qs s t := fun p o ho hn => h p o ho fun e => hn (hs p e)

/-- What is listed by register is listed by page. -/
theorem of_regsOnly {ws : List (Nat × Nat)} (h : RegsOnly ws s t) (hw : ∀ x ∈ ws, ps x.1) : PagesOnly ps s t :=
  fun p o ho hn => h p o ho fun hm => hn (hw (p, o) hm)

theorem setReg {p o : Nat} {w : Word} (h : PagesOnly ps s t) (hp : ps p) (ho : o < 4096) : PagesOnly ps s (t.setReg p o w) :=
  h.trans (of_regsOnly ((RegsOnly.refl [(p, o)] t).setReg (by simp) ho) (by simpa using hp))

theorem fset {p v : Nat} {f : Fld} (h : PagesOnly ps s t) (hp : ps p) (ho : f.off < 4096) : PagesOnly ps s (t.fset p f v) := h.setReg hp ho

theorem fincSat {p d : Nat} {f : Fld} (h : PagesOnly ps s t) (hp : ps p) (ho : f.off < 4096) : PagesOnly ps s (t.fincSat p f d) := h.setReg hp ho

theorem setReg64 {p lo hi v : Nat} (h : PagesOnly ps s t) (hp : ps p) (hl : lo < 4096) (hh : hi < 4096) : PagesOnly ps s (t.setReg64 p lo hi v) :=
  (h.setReg hp hl).setReg hp hh

theorem pageIrq {p bits : Nat} (h : PagesOnly ps s t) (hp : ps p) : PagesOnly ps s (pageIrq t p bits) :=
  h.trans (of_regsOnly ((RegsOnly.refl [(p, F.PG_IRQ_STAT_ERR.off)] t).pageIrq (by simp)) (by simpa using hp))

theorem ite {c : Prop} [Decidable c] (a : c → PagesOnly ps s t) (b : ¬ c → PagesOnly ps s u) : PagesOnly ps s (if c then t else u) := by
  split
  · exact a ‹_›
  · exact b ‹_›

/-- One page after another, each by its own operation. -/
theorem each {α : Type} (l : List α) {f : State → α → State} (hf : ∀ t, ∀ a ∈ l, PagesOnly ps t (f t a)) (h : PagesOnly ps s t) :
    PagesOnly ps s (eachIn l f t) := by
  unfold eachIn
  induction l generalizing t with
  | nil => exact h
  | cons a l ih => exact ih (fun t b hb => hf t b (List.mem_cons_of_mem a hb)) (h.trans (hf t a List.mem_cons_self))

/-- A field of another page keeps its value. -/
theorem fget {p : Nat} {f : Fld} (h : PagesOnly ps s t) (hp : ¬ ps p) (ho : f.off < 4096) : t.fget p f = s.fget p f := by
  unfold State.fget
  rw [h p f.off ho hp]

/-! ### Pairs and stops -/

theorem pairSet {n : Nat} {x : PwmPair} (h : PagesOnly ps s t) : PagesOnly ps s (pairSet t n x) := h

theorem setOutputs {n : Nat} {hi lo : Bool} (h : PagesOnly ps s t) (hp : ps (pgPwm + n)) : PagesOnly ps s (setOutputs t n hi lo) :=
  (h.fset hp (by decide)).fset hp (by decide)

theorem tripPads {n : Nat} (h : PagesOnly ps s t) (hp : ps (pgPwm + n)) : PagesOnly ps s (tripPads t n) := h.pairSet.setOutputs hp

theorem pairIdle {n : Nat} (h : PagesOnly ps s t) (hp : ps (pgPwm + n)) : PagesOnly ps s (pairIdle t n) :=
  (h.pairSet.setOutputs hp).fset hp (by decide)

/-- The hold bits of a pair show on its own page. -/
theorem setHolds {n holds : Nat} (h : PagesOnly ps s t) (hp : ps (pgPwm + n)) : PagesOnly ps s (setHolds t n holds) := by
  have hh := h.fset (v := holds) (f := F.PWM_STAT_HOLD) hp (by decide)
  unfold Machine.setHolds
  dsimp only
  refine ite (fun _ => h) fun _ => ite (fun _ => ?held) fun _ => ite (fun _ => ?resumes) fun _ => ?idle
  case held =>
    refine ite (fun _ => ?_) fun _ => .pageIrq (.fset ?_ hp (by decide)) hp <;>
    exact ite (fun _ => (hh.tripPads hp).fincSat hp (by decide)) fun _ => hh.pairSet
  case resumes => exact ite (fun _ => (hh.pairSet.fset hp (by decide)).pageIrq hp) fun _ => hh.pairSet
  case idle => exact (hh.pairIdle hp).pageIrq hp

theorem refreshHolds (h : PagesOnly ps s t) (hp : ∀ n, n < t.var.pwmPairs → ps (pgPwm + n)) : PagesOnly ps s (refreshHolds t) :=
  h.each _ fun t _ hn => (refl ps t).setHolds (hp _ (List.mem_range.mp hn))

end PagesOnly

/-- The pages that a stop of the robot writes: the Loupe's and those of the pairs. -/
abbrev stopPages (s : State) (q : Nat) : Prop := q = pgLoupe ∨ (pgPwm ≤ q ∧ q < pgPwm + s.var.pwmPairs)

/-! ### What a stop request shows -/

/-- The cause of a stop request, and the first stop where none is held (R336). -/
def stopNoted (s : State) (src groups : Nat) (whole : Bool) : State :=
  let s := s.fset pgLoupe F.LOUPE_CAUSE_SRC (natPutBit (s.fget pgLoupe F.LOUPE_CAUSE_SRC) src true)
  if s.fbit pgLoupe F.LOUPE_FIRST_VALID then s
  else
    let s := s.setReg pgLoupe F.LOUPE_FIRST_VALID.off (BitVec.ofNat 32 (src + groups * 2 ^ 8 + b2n whole * 2 ^ 16 + 2 ^ 31))
    s.setReg64 pgLoupe F.LOUPE_FIRST_LO.off F.LOUPE_FIRST_HI.off (stampBus s pgLoupe src)

/-- The latches that a stop request names join those that are set. -/
def stopLatched (s : State) (groups : Nat) (whole : Bool) : State :=
  (s.fset pgLoupe F.LOUPE_STOP_GROUPS (s.fget pgLoupe F.LOUPE_STOP_GROUPS ||| groups)).fset pgLoupe F.LOUPE_STOP_WHOLE
    (b2n (s.fbit pgLoupe F.LOUPE_STOP_WHOLE || whole))

/-- A stop request with its latches set, before the pairs take their holds: a new latch sets the STOP cause. -/
def stopRaised (s : State) (groups : Nat) (whole : Bool) : State :=
  let old := s.fget pgLoupe F.LOUPE_STOP_GROUPS
  if old ||| groups ≠ old ∨ (whole ∧ ¬ s.fbit pgLoupe F.LOUPE_STOP_WHOLE) then pageIrq (stopLatched s groups whole) pgLoupe 1
  else stopLatched s groups whole

theorem stopRequest_eq (s : State) (src groups : Nat) (whole : Bool) :
    stopRequest s src groups whole = refreshHolds (stopRaised (stopNoted s src groups whole) groups whole) := rfl

/-- The registers of the cause and of the first stop. -/
def firstStopRegs : List (Nat × Nat) :=
  [(pgLoupe, F.LOUPE_CAUSE_SRC.off), (pgLoupe, F.LOUPE_FIRST_VALID.off), (pgLoupe, F.LOUPE_FIRST_LO.off), (pgLoupe, F.LOUPE_FIRST_HI.off)]

theorem stopNoted_regs (s : State) (src groups : Nat) (whole : Bool) : RegsOnly firstStopRegs s (stopNoted s src groups whole) := by
  have hcause : RegsOnly firstStopRegs s (s.fset pgLoupe F.LOUPE_CAUSE_SRC (natPutBit (s.fget pgLoupe F.LOUPE_CAUSE_SRC) src true)) :=
    (RegsOnly.refl _ s).fset (by decide) (by decide)
  unfold stopNoted
  dsimp only
  split
  · exact hcause
  · exact (hcause.setReg (by decide) (by decide)).setReg64 (by decide) (by decide) (by decide) (by decide)

theorem stopNoted_var (s : State) (src groups : Nat) (whole : Bool) : (stopNoted s src groups whole).var = s.var := by
  unfold stopNoted
  dsimp only
  split
  · rfl
  · rw [setReg64_var, setReg_var, fset_var]

theorem pageIrq_var (s : State) (p bits : Nat) : (pageIrq s p bits).var = s.var := by rw [pageIrq_shape]; rfl

theorem stopRaised_var (s : State) (groups : Nat) (whole : Bool) : (stopRaised s groups whole).var = s.var := by
  unfold stopRaised
  dsimp only
  split
  · exact pageIrq_var ..
  · rfl

/-- The latches and the page's causes are written on the Loupe page. -/
theorem stopRaised_pages (s : State) (groups : Nat) (whole : Bool) : PagesOnly (· = pgLoupe) s (stopRaised s groups whole) := by
  have hlatch : PagesOnly (· = pgLoupe) s (stopLatched s groups whole) := ((PagesOnly.refl (· = pgLoupe) s).fset rfl (by decide)).fset rfl (by decide)
  exact .ite (fun _ => hlatch.pageIrq rfl) fun _ => hlatch

/-- A stop request writes the Loupe page and those of the pairs. -/
theorem stopRequest_pages (s : State) (src groups : Nat) (whole : Bool) : PagesOnly (stopPages s) s (stopRequest s src groups whole) := by
  have hnoted : PagesOnly (stopPages s) s (stopNoted s src groups whole) :=
    .of_regsOnly (stopNoted_regs s src groups whole) (by simp [firstStopRegs, stopPages])
  refine (hnoted.trans ((stopRaised_pages _ groups whole).mono fun _ => .inl)).refreshHolds fun n hn => ?_
  rw [stopRaised_var, stopNoted_var] at hn
  exact .inr ⟨by omega, by omega⟩

/-- Taking holds leaves the Loupe page. -/
theorem refreshHolds_loupe (s : State) {o : Nat} (ho : o < 4096) : (refreshHolds s).reg pgLoupe o = s.reg pgLoupe o :=
  (PagesOnly.refl (fun q => pgPwm ≤ q) s).refreshHolds (fun _ _ => Nat.le_add_right _ _) pgLoupe o ho (by decide)

/-- What the Loupe page shows after a stop request is what the latches leave, its causes apart. -/
theorem stopRequest_fget (s : State) (src groups : Nat) (whole : Bool) {f : Fld} (ho : f.off < 4096) (hn : f.off ≠ F.PG_IRQ_STAT_ERR.off) :
    (stopRequest s src groups whole).fget pgLoupe f = (stopLatched (stopNoted s src groups whole) groups whole).fget pgLoupe f := by
  unfold State.fget
  rw [stopRequest_eq, refreshHolds_loupe _ ho, stopRaised]
  split
  · rw [pageIrq_reg _ _ _ ho, if_neg fun e => hn e.2]
  · rfl

/-- The levels are none of what a stop request writes. -/
theorem stopRequest_level (s : State) (src groups : Nat) (whole : Bool) :
    (stopRequest s src groups whole).fget pgLoupe F.LOUPE_LEVEL_SRC = s.fget pgLoupe F.LOUPE_LEVEL_SRC := by
  rw [stopRequest_fget _ _ _ _ (by decide) (by decide), stopLatched, fget_fset_ne _ _ _ _ (by decide), fget_fset_ne _ _ _ _ (by decide)]
  exact (stopNoted_regs s src groups whole).fget (by decide) (by decide)

/-- SPI_HOLD stands beside the latches. -/
theorem stopRequest_spiHold (s : State) (src groups : Nat) (whole : Bool) :
    (stopRequest s src groups whole).fget pgLoupe F.LOUPE_STOP_SPI_HOLD = s.fget pgLoupe F.LOUPE_STOP_SPI_HOLD := by
  rw [stopRequest_fget _ _ _ _ (by decide) (by decide), stopLatched,
    fget_fset_beside _ _ F.LOUPE_STOP_WHOLE F.LOUPE_STOP_SPI_HOLD _ rfl (.inr (by decide)),
    fget_fset_beside _ _ F.LOUPE_STOP_GROUPS F.LOUPE_STOP_SPI_HOLD _ rfl (.inr (by decide))]
  exact (stopNoted_regs s src groups whole).fget (by decide) (by decide)

/-- Eight latches with all eight joined to them. -/
theorem or_allGroups (x : Nat) : (x ||| 0xFF) % 2 ^ 8 = 0xFF := by
  apply Nat.eq_of_testBit_eq
  intro i
  rw [Nat.testBit_mod_two_pow, Nat.testBit_or, show 0xFF = 2 ^ 8 - 1 from rfl, Nat.testBit_two_pow_sub_one]
  cases decide (i < 8) <;> simp

/-- A whole-robot stop sets every group and WHOLE. -/
theorem wholeStop_latches (s : State) (src : Nat) :
    (wholeStop s src).fget pgLoupe F.LOUPE_STOP_GROUPS = 0xFF ∧ (wholeStop s src).fget pgLoupe F.LOUPE_STOP_WHOLE = 1 := by
  unfold wholeStop
  rw [stopRequest_fget _ _ _ _ (by decide) (by decide), stopRequest_fget _ _ _ _ (by decide) (by decide), stopLatched,
    fget_fset_beside _ _ F.LOUPE_STOP_WHOLE F.LOUPE_STOP_GROUPS _ rfl (.inl (by decide)), fget_fset_same _ _ _ _ (by decide),
    fget_fset_same _ _ _ _ (by decide), Bool.or_true]
  exact ⟨or_allGroups _, rfl⟩

/-! ### Level sources -/

/-- A bit that is put into a number is read there. -/
theorem testBit_natPutBit_same (x i : Nat) (b : Bool) : (natPutBit x i b).testBit i = b := by
  unfold natPutBit
  split
  · assumption
  · rename_i h
    cases b with
    | true =>
      rw [if_pos rfl, Nat.add_comm, Nat.testBit_two_pow_add_eq]
      simpa using h
    | false =>
      have hx : x.testBit i = true := by simpa using h
      have hsum : 2 ^ i + (x - 2 ^ i) = x := Nat.add_sub_of_le (Nat.ge_two_pow_of_testBit hx)
      have hflip := Nat.testBit_two_pow_add_eq (x - 2 ^ i) i
      rw [hsum, hx] at hflip
      rw [if_neg (by decide)]
      simpa using hflip.symm

/-- A level source reads the level that is put. -/
theorem natBit_putLevel (s : State) {src : Nat} (x : Nat) (b : Bool) (h : src < 16) :
    natBit ((s.fset pgLoupe F.LOUPE_LEVEL_SRC (natPutBit x src b)).fget pgLoupe F.LOUPE_LEVEL_SRC) src = b := by
  rw [fget_fset_same _ _ _ _ (by decide), natBit, Nat.testBit_mod_two_pow, testBit_natPutBit_same]
  simp [h]

/-- CAUSE_GONE is a cause of the Loupe page. -/
theorem causeGone_fget (old s : State) {f : Fld} (ho : f.off < 4096) (hn : f.off ≠ F.PG_IRQ_STAT_ERR.off) :
    (causeGone old s).fget pgLoupe f = s.fget pgLoupe f := by
  unfold causeGone
  split
  · unfold State.fget
    rw [pageIrq_reg _ _ _ ho, if_neg fun e => hn e.2]
  · rfl

/-- A source that becomes inactive changes its level and may set CAUSE_GONE. -/
theorem levelInactive_regs (s : State) (src : Nat) :
    RegsOnly [(pgLoupe, F.LOUPE_LEVEL_SRC.off), (pgLoupe, F.PG_IRQ_STAT_ERR.off)] s (levelInactive s src) := by
  have hlevel : RegsOnly [(pgLoupe, F.LOUPE_LEVEL_SRC.off), (pgLoupe, F.PG_IRQ_STAT_ERR.off)] s
      (s.fset pgLoupe F.LOUPE_LEVEL_SRC (natPutBit (s.fget pgLoupe F.LOUPE_LEVEL_SRC) src false)) := (RegsOnly.refl _ s).fset (by decide) (by decide)
  unfold levelInactive causeGone
  dsimp only
  split
  · split
    · exact hlevel.pageIrq (by decide)
    · exact hlevel
  · exact .refl _ s

theorem levelInactive_shape (s : State) (src : Nat) :
    levelInactive s src = { s with regs := (levelInactive s src).regs, host := (levelInactive s src).host } := by
  unfold levelInactive causeGone
  dsimp only
  split
  · split
    · exact regsHost_trans (fset_shape ..) (pageIrq_shape ..)
    · rfl
  · rfl

/-- It is inactive afterwards, as it may have been before. -/
theorem levelInactive_level (s : State) {src : Nat} (h : src < 16) :
    natBit ((levelInactive s src).fget pgLoupe F.LOUPE_LEVEL_SRC) src = false := by
  unfold levelInactive
  dsimp only
  split
  · rw [causeGone_fget _ _ (by decide) (by decide), natBit_putLevel _ _ _ h]
  · rename_i hb
    simpa using hb

/-! ### Frames -/

/-- The state in which a stop frame holds the SPI source active (R166). -/
def spiHeld (s : State) : State :=
  let s := s.fset pgLoupe F.LOUPE_STOP_SPI_HOLD 1
  s.fset pgLoupe F.LOUPE_LEVEL_SRC (natPutBit (s.fget pgLoupe F.LOUPE_LEVEL_SRC) 15 true)

theorem execSpiStop_good {s : State} {frame : BitVec 64} {clocks : Nat} (h : spiFrameOk frame clocks 0x5A = true) :
    execSpiStop frame clocks s = .next (spiAnswer (wholeStop (spiHeld s) 15) (bitsOf frame 40 16) 0 false) := by
  unfold execSpiStop
  rw [if_pos h]
  rfl

/-- A good stop frame holds the SPI source and stops the whole robot. -/
theorem spiStop_shows (s : State) :
    (wholeStop (spiHeld s) 15).fget pgLoupe F.LOUPE_STOP_SPI_HOLD = 1 ∧
      natBit ((wholeStop (spiHeld s) 15).fget pgLoupe F.LOUPE_LEVEL_SRC) 15 = true := by
  refine ⟨(stopRequest_spiHold ..).trans ?_, (congrArg (natBit · 15) (stopRequest_level ..)).trans (natBit_putLevel _ _ _ (by decide))⟩
  unfold spiHeld
  rw [fget_fset_ne _ _ _ _ (by decide), fget_fset_same _ _ _ _ (by decide)]
  rfl

theorem spiStop_pages (s : State) : PagesOnly (stopPages s) s (wholeStop (spiHeld s) 15) :=
  (((PagesOnly.refl (stopPages s) s).fset (.inl rfl) (by decide)).fset (.inl rfl) (by decide)).trans (stopRequest_pages (spiHeld s) 15 0xFF true)

theorem execSpiRelease_good {s : State} {frame : BitVec 64} {clocks : Nat} (h : spiFrameOk frame clocks 0xC3 = true) :
    execSpiRelease frame clocks s =
      .next (spiAnswer (levelInactive (s.fset pgLoupe F.LOUPE_STOP_SPI_HOLD 0) 15) (bitsOf frame 40 16) 0 false) := by
  unfold execSpiRelease
  rw [if_pos h]

/-- A good release frame clears SPI_HOLD; the latches beside it stand. -/
theorem spiRelease_stop (s : State) :
    (levelInactive (s.fset pgLoupe F.LOUPE_STOP_SPI_HOLD 0) 15).fget pgLoupe F.LOUPE_STOP_SPI_HOLD = 0 ∧
      (levelInactive (s.fset pgLoupe F.LOUPE_STOP_SPI_HOLD 0) 15).fget pgLoupe F.LOUPE_STOP_GROUPS = s.fget pgLoupe F.LOUPE_STOP_GROUPS := by
  have hregs := levelInactive_regs (s.fset pgLoupe F.LOUPE_STOP_SPI_HOLD 0) 15
  rw [hregs.fget (by decide) (by decide), hregs.fget (by decide) (by decide), fget_fset_same _ _ _ _ (by decide),
    fget_fset_beside _ _ F.LOUPE_STOP_SPI_HOLD F.LOUPE_STOP_GROUPS _ rfl (.inl (by decide))]
  exact ⟨rfl, rfl⟩

/-- A frame that fails its command's checks is ignored (R167). -/
theorem exec_spiBad {s : State} {frame : BitVec 64} {clocks : Nat} {c : Instr}
    (h : (c = Instr.spiRead frame clocks ∧ spiFrameOk frame clocks 0x03 = false) ∨
      (c = .spiStop frame clocks ∧ spiFrameOk frame clocks 0x5A = false) ∨ (c = .spiRelease frame clocks ∧ spiFrameOk frame clocks 0xC3 = false)) : exec c s = .next (spiIgnored s frame) := by
  rcases h with ⟨rfl, h⟩ | ⟨rfl, h⟩ | ⟨rfl, h⟩
  · change execSpiRead frame clocks s = _
    rw [execSpiRead, if_neg (by simp [h])]
  · change execSpiStop frame clocks s = _
    rw [execSpiStop, if_neg (by simp [h])]
  · change execSpiRelease frame clocks s = _
    rw [execSpiRelease, if_neg (by simp [h])]

/-- Settles O35: a good frame leaves what `spiAnswer` sets on what its command does, a bad one `spiIgnored`, which is a capture. -/
theorem spiFrames : Obligations.SpiFrames := by
  unfold Obligations.SpiFrames
  intro s frame clocks
  refine ⟨fun hok hoff => ?_, fun hok => ?_, fun hok => ?_, fun c hbad => ?_⟩
  · change execSpiRead frame clocks s = _
    rw [execSpiRead, if_pos hok, if_pos hoff]
    rfl
  · obtain ⟨hhold, hlevel⟩ := spiStop_shows s
    obtain ⟨hgroups, hwhole⟩ := wholeStop_latches (spiHeld s) 15
    exact ⟨_, execSpiStop_good hok, hhold, hlevel, hgroups, hwhole, rfl, spiStop_pages s⟩
  · obtain ⟨hhold, hgroups⟩ := spiRelease_stop s
    refine ⟨_, execSpiRelease_good hok, ?_, ?_, hhold, levelInactive_level _ (by decide), hgroups, rfl⟩
    · unfold spiAnswer
      rw [levelInactive_shape]
      rfl
    · exact ((RegsOnly.refl _ s).fset (by simp) (by decide)).trans
        ((levelInactive_regs _ 15).mono fun _ hx => List.mem_cons_of_mem _ hx)
  · refine ⟨_, exec_spiBad hbad, ?_, capture_regs (spiAnswer s (bitsOf frame 40 16) 0 true) pgLoupe 0x0507 0 0, ?_,
      fun hv => (capture_shows 0 0 (s := spiAnswer s (bitsOf frame 40 16) 0 true) hv (by decide)).2⟩ <;>
    unfold spiIgnored <;> rw [capture_shape] <;> rfl

end Sys2Proof.Machine
end

section
/-! SUPPORT. Facet tiles that leave service and the spares that load for their positions (R158 to R162, R171, R202): what each step of a remap
writes and shows. -/

namespace Sys2Proof.Machine

/-! ### Where pages stand -/

/-- The Facet tiles' pages stand below the FACET map page. -/
theorem ft_lt_fmap {v : Variant} {i : Nat} (h : i < v.facetTiles) : pgFt + i < pgFmap := by
  have hmax : v.facetTiles ≤ 68 := by cases v <;> decide
  simp only [pgFt, pgFmap]
  omega

/-- The pages that a stop of the robot writes stand below those of the Facet tiles. -/
theorem stopPages_lt_ft {s : State} {q : Nat} (h : stopPages s q) : q < pgFt := by
  have hmax : s.var.pwmPairs ≤ 16 := by cases s.var <;> decide
  simp only [stopPages, pgLoupe, pgPwm, pgFt] at h ⊢
  omega

/-- A capture charged to partition 0 writes its own page and that of partition 0. -/
theorem capture_pages (s : State) (p code detail : Nat) : PagesOnly (fun q => q = p ∨ q = pgPart) s (capture s p code 0 detail) :=
  .of_regsOnly (capture_regs s p code 0 detail) (by simp [captureRegs])

@[simp] theorem capture_facet (s : State) (p code part detail : Nat) : (capture s p code part detail).facet = s.facet := by rw [capture_shape]
@[simp] theorem capture_var (s : State) (p code part detail : Nat) : (capture s p code part detail).var = s.var := by rw [capture_shape]; rfl

/-- Tiles, loads and remaps are no registers. -/
theorem facetMod_time (s : State) (f : FacetSt → FacetSt) : (facetMod s f).time = s.time := rfl
theorem facetMod_var (s : State) (f : FacetSt → FacetSt) : (facetMod s f).var = s.var := rfl
theorem facetMod_fget (s : State) (f : FacetSt → FacetSt) (p : Nat) (g : Fld) : (facetMod s f).fget p g = s.fget p g := rfl
theorem PagesOnly.facetMod {ps : Nat → Prop} {s t : State} {f : FacetSt → FacetSt} (h : PagesOnly ps s t) : PagesOnly ps s (facetMod t f) := h

/-! ### Leaving service -/

/-- The header registers that show a unit out of service. -/
def outRegs (p : Nat) : List (Nat × Nat) := [(p, F.PG_STAT_OUT_OF_SERVICE.off), (p, F.PG_CTRL_IN_SERVICE.off)]

theorem markOut_regs (s : State) (p : Nat) (fault : Bool) : RegsOnly (outRegs p) s (markOut s p fault) := by
  have hout : RegsOnly (outRegs p) s (markOut s p false) :=
    (((RegsOnly.refl _ s).fset (by simp [outRegs]) (by decide)).fset (by simp [outRegs]) (by decide)).fset (by simp [outRegs]) (by decide)
  cases fault with
  | false => exact hout
  | true => exact hout.fset (by simp [outRegs]) (by decide)

@[simp] theorem markOut_time (s : State) (p : Nat) (fault : Bool) : (markOut s p fault).time = s.time := by cases fault <;> rfl
@[simp] theorem markOut_facet (s : State) (p : Nat) (fault : Bool) : (markOut s p fault).facet = s.facet := by cases fault <;> rfl
@[simp] theorem markOut_var (s : State) (p : Nat) (fault : Bool) : (markOut s p fault).var = s.var := by cases fault <;> rfl

/-- OUT_OF_SERVICE is set, and FAULT where the unit failed. -/
theorem markOut_shows (s : State) (p : Nat) (fault : Bool) :
    pageOut (markOut s p fault) p = true ∧ (markOut s p fault).fbit p F.PG_STAT_FAULT = (fault || s.fbit p F.PG_STAT_FAULT) := by
  have hout : (markOut s p false).fget p F.PG_STAT_OUT_OF_SERVICE = 1 := by
    simp only [markOut, Bool.false_eq_true, if_false]
    rw [fget_fset_beside _ _ F.PG_STAT_RESET_BUSY F.PG_STAT_OUT_OF_SERVICE _ rfl (.inl (by decide)), fget_fset_ne _ _ _ _ (by simp),
      fget_fset_same _ _ _ _ (by decide)]
    rfl
  have hfault : (markOut s p false).fget p F.PG_STAT_FAULT = s.fget p F.PG_STAT_FAULT := by
    simp only [markOut, Bool.false_eq_true, if_false]
    rw [fget_fset_beside _ _ F.PG_STAT_RESET_BUSY F.PG_STAT_FAULT _ rfl (.inl (by decide)), fget_fset_ne _ _ _ _ (by simp),
      fget_fset_beside _ _ F.PG_STAT_OUT_OF_SERVICE F.PG_STAT_FAULT _ rfl (.inl (by decide))]
    rfl
  unfold pageOut State.fbit
  cases fault with
  | false => rw [hout, hfault]; exact ⟨rfl, rfl⟩
  | true =>
    have htrue : markOut s p true = (markOut s p false).fset p F.PG_STAT_FAULT 1 := rfl
    rw [htrue, fget_fset_beside _ _ F.PG_STAT_FAULT F.PG_STAT_OUT_OF_SERVICE _ rfl (.inr (by decide)), hout, fget_fset_same _ _ _ _ (by decide)]
    exact ⟨rfl, rfl⟩

/-! ### Roles -/

/-- The tiles that are spares. -/
def spareTiles (s : State) : List Nat := (List.range s.var.facetTiles).filter fun i => tileRole s i = roleSpare

/-- Word `w` of FMAP_SPARE for those spares. -/
def spareWord (l : List Nat) (w : Nat) : Word := BitVec.ofNat 32 ((l.filter fun i => i / 32 = w).foldl (fun a i => a + 2 ^ (i % 32)) 0)

/-- The registers of the FACET map page that follow the roles. -/
def spareRegs : List (Nat × Nat) :=
  [(pgFmap, F.FMAP_STAT_SPARES.off), (pgFmap, F.FMAP_SPARE.off), (pgFmap, F.FMAP_SPARE.off + 4), (pgFmap, F.FMAP_SPARE.off + 8),
    (pgFmap, F.PG_IRQ_STAT_ERR.off)]

/-- SPARES and the three words of FMAP_SPARE, before SPARE_LAST. -/
def sparesShown (s : State) : State :=
  (((s.fset pgFmap F.FMAP_STAT_SPARES (spareTiles s).length).setReg pgFmap (F.FMAP_SPARE.off + 4 * 0) (spareWord (spareTiles s) 0)).setReg
    pgFmap (F.FMAP_SPARE.off + 4 * 1) (spareWord (spareTiles s) 1)).setReg pgFmap (F.FMAP_SPARE.off + 4 * 2) (spareWord (spareTiles s) 2)

theorem showSpares_eq (s : State) :
    showSpares s = if (spareTiles s).length = 1 ∧ 1 < s.fget pgFmap F.FMAP_STAT_SPARES then pageIrq (sparesShown s) pgFmap 2 else sparesShown s := rfl

theorem showSpares_regs (s : State) : RegsOnly spareRegs s (showSpares s) := by
  have hshown : RegsOnly spareRegs s (sparesShown s) :=
    ((((RegsOnly.refl _ s).fset (by decide) (by decide)).setReg (by decide) (by decide)).setReg (by decide) (by decide)).setReg (by decide) (by decide)
  rw [showSpares_eq]
  split
  · exact hshown.pageIrq (by decide)
  · exact hshown

theorem showSpares_shape (s : State) : showSpares s = { s with regs := (showSpares s).regs, host := (showSpares s).host } := by
  have hshown : sparesShown s = { s with regs := (sparesShown s).regs, host := (sparesShown s).host } :=
    regsHost_trans (regsHost_trans (regsHost_trans (fset_shape ..) (setReg_shape ..)) (setReg_shape ..)) (setReg_shape ..)
  rw [showSpares_eq]
  split
  · exact regsHost_trans hshown (pageIrq_shape ..)
  · exact hshown

theorem setRole_shape (s : State) (i role pos : Nat) :
    setRole s i role pos = { s with regs := (setRole s i role pos).regs, host := (setRole s i role pos).host } :=
  regsHost_trans (regsHost_trans (fset_shape ..) (fset_shape ..)) (showSpares_shape _)

/-- A role is written on the tile's page, and the FACET map page follows. -/
theorem setRole_regs (s : State) (i role pos : Nat) : RegsOnly ((pgFt + i, F.FT_ROLE_ROLE.off) :: spareRegs) s (setRole s i role pos) :=
  (((RegsOnly.refl _ s).fset (by simp) (by decide)).fset (by simp) (by decide)).trans
    ((showSpares_regs _).mono fun _ hx => List.mem_cons_of_mem _ hx)

/-- The tile shows the role and the position that it is given. -/
theorem setRole_shows (s : State) (i pos : Nat) {role : Nat} (hr : role < 4) :
    tileRole (setRole s i role pos) i = role ∧ (setRole s i role pos).fget (pgFt + i) F.FT_ROLE_POSITION = pos % 2 ^ 6 := by
  have hkeep := fun t : State => (showSpares_regs t).fget (p := pgFt + i) (f := F.FT_ROLE_ROLE) (by decide) (by simp [spareRegs])
  have hkeep' := fun t : State => (showSpares_regs t).fget (p := pgFt + i) (f := F.FT_ROLE_POSITION) (by decide) (by simp [spareRegs])
  unfold tileRole setRole
  rw [hkeep, hkeep', fget_fset_same _ _ _ _ (by decide), fget_fset_beside _ _ F.FT_ROLE_POSITION F.FT_ROLE_ROLE _ rfl (.inl (by decide)),
    fget_fset_same _ _ _ _ (by decide)]
  exact ⟨Nat.mod_eq_of_lt hr, rfl⟩

theorem setRole_pages (s : State) (i role pos : Nat) : PagesOnly (fun q => q = pgFt + i ∨ q = pgFmap) s (setRole s i role pos) :=
  .of_regsOnly (setRole_regs s i role pos) (by simp [spareRegs])

/-! ### Spares -/

/-- The lowest spare is a tile of the part, and a spare. -/
theorem lowestSpare_spec {s : State} {i : Nat} (h : lowestSpare s = some i) : i < s.var.facetTiles ∧ tileRole s i = roleSpare := by
  have hp := List.find?_some h
  simp only [Bool.and_eq_true, decide_eq_true_eq] at hp
  exact ⟨List.mem_range.mp (List.mem_of_find?_eq_some h), hp.1⟩

/-- A change to one tile that is no spare, before or after, leaves the lowest spare. -/
theorem lowestSpare_of_pages {s t : State} {i : Nat} (hv : t.var = s.var) (h : PagesOnly (fun q => q = pgFt + i ∨ pgFmap ≤ q ∨ q < pgFt) s t)
    (hs : tileRole s i ≠ roleSpare) (ht : tileRole t i ≠ roleSpare) : lowestSpare t = lowestSpare s := by
  unfold lowestSpare
  rw [hv]
  refine List.find?_congr fun k hk => ?_
  by_cases hki : k = i
  · subst hki
    simp [hs, ht]
  · have hlt := ft_lt_fmap (List.mem_range.mp hk)
    have hpage : ¬ (pgFt + k = pgFt + i ∨ pgFmap ≤ pgFt + k ∨ pgFt + k < pgFt) := by omega
    have hrole : tileRole t k = tileRole s k := h.fget hpage (by decide)
    have hout : t.fbit (pgFt + k) F.PG_STAT_OUT_OF_SERVICE = s.fbit (pgFt + k) F.PG_STAT_OUT_OF_SERVICE := by
      unfold State.fbit
      rw [h.fget hpage (by decide)]
    rw [hrole, hout]

/-! ### The map -/

/-- FMAP_MAP's field of a position. -/
abbrev mapField (pos : Nat) : Fld := ⟨F.FMAP_MAP.off + 4 * (pos / 4), 8 * (pos % 4), 8⟩

/-- FMAP_VACANT's word of a position. -/
abbrev vacantOff (pos : Nat) : Nat := F.FMAP_VACANT_LO.off + 4 * (pos / 32)

/-- Nothing below FMAP_VACANT is written, whatever the position. -/
theorem setMap_reg_below (s : State) (pos : Nat) (tile : Option Nat) {q o : Nat} (h : q * 4096 + o < pgFmap * 4096 + F.FMAP_VACANT_LO.off) :
    (setMap s pos tile).reg q o = s.reg q o := by
  unfold setMap
  dsimp only at h ⊢
  rw [reg_setReg_ne _ _ (by omega), reg_fset_ne _ _ _ (by dsimp only; omega)]

theorem setMap_pages (s : State) (pos : Nat) (tile : Option Nat) : PagesOnly (fun q => pgFmap ≤ q) s (setMap s pos tile) :=
  fun q o ho hq => setMap_reg_below s pos tile (by omega)

/-- A register of the FACET map page below FMAP_VACANT. -/
theorem setMap_fget_below (s : State) (pos : Nat) (tile : Option Nat) {f : Fld} (h : f.off < F.FMAP_VACANT_LO.off) :
    (setMap s pos tile).fget pgFmap f = s.fget pgFmap f := by
  unfold State.fget
  rw [setMap_reg_below _ _ _ (Nat.add_lt_add_left h _)]

/-- A position is shown on its tile, with VALID. -/
theorem setMap_shown (s : State) (pos : Nat) {i : Nat} (h : i < 128) : (setMap s pos (some i)).fget pgFmap (mapField pos) = i + 128 := by
  have hne : pgFmap * 4096 + (mapField pos).off ≠ pgFmap * 4096 + vacantOff pos := by
    simp only [vacantOff]
    omega
  unfold setMap
  dsimp only
  rw [fget_setReg_ne _ _ _ hne, fget_fset_same _ _ _ _ (by simp only; omega)]
  exact Nat.mod_eq_of_lt (by simp only; omega)

/-- A position's VACANT bit follows. -/
theorem setMap_vacant (s : State) (pos : Nat) (tile : Option Nat) :
    ((setMap s pos tile).reg pgFmap (vacantOff pos)).getLsbD (pos % 32) = tile.isNone := by
  unfold setMap
  dsimp only
  rw [reg_setReg_same, BitVec.getLsbD_ofNat, testBit_natPutBit_same]
  simp [Nat.mod_lt]

theorem setMap_facet (s : State) (pos : Nat) (tile : Option Nat) : (setMap s pos tile).facet = s.facet := rfl
theorem setMap_time (s : State) (pos : Nat) (tile : Option Nat) : (setMap s pos tile).time = s.time := rfl

/-! ### A remap decision -/

/-- The state in which spare `i` is LOADING for a position and bound to it in the map. -/
def remapBound (s : State) (pos i : Nat) : State := setMap (setRole s i roleLoading pos) pos (some i)

/-- The state in which spare `i` loads for a position and the remap is pending (R158, R202). -/
def remapStarted (s : State) (pos i : Nat) : State :=
  ((facetMod (remapBound s pos i) fun x =>
    { x with loads := x.loads ++ [{ pos := pos, spare := i, since := (remapBound s pos i).now }], remapBpn := none }).fset
    pgFmap F.FMAP_STAT_REMAP_PENDING 1).fset pgFmap F.FMAP_STAT_EPOCH_FIXED 0

theorem remapDecide_spare {s : State} {i : Nat} (pos : Nat) (h : lowestSpare s = some i) : remapDecide s pos = some (remapStarted s pos i) := by
  unfold remapDecide
  rw [h]
  rfl

theorem remapDecide_none {s : State} (pos : Nat) (h : lowestSpare s = none) : remapDecide s pos = none := by
  unfold remapDecide
  rw [h]

theorem remapBound_shape (s : State) (pos i : Nat) :
    remapBound s pos i = { s with regs := (remapBound s pos i).regs, host := (remapBound s pos i).host } := by
  have hmap : ∀ t : State, setMap t pos (some i) = { t with regs := (setMap t pos (some i)).regs, host := (setMap t pos (some i)).host } :=
    fun _ => rfl
  exact regsHost_trans (setRole_shape ..) (hmap _)

theorem remapStarted_facet (s : State) (pos i : Nat) :
    (remapStarted s pos i).facet = { s.facet with loads := s.facet.loads ++ [{ pos := pos, spare := i, since := s.now }], remapBpn := none } := by
  unfold remapStarted
  rw [fset_facet, fset_facet, remapBound_shape]
  rfl

theorem remapStarted_time (s : State) (pos i : Nat) : (remapStarted s pos i).time = s.time := by
  unfold remapStarted
  rw [fset_time, fset_time, remapBound_shape]
  rfl

/-- The load's entry in the list of loads is no register, and FMAP_STAT alone is written after the map. -/
theorem remapStarted_fget (s : State) (pos i : Nat) {q : Nat} {f : Fld} (h : q * 4096 + f.off ≠ pgFmap * 4096 + F.FMAP_STAT_SPARES.off) :
    (remapStarted s pos i).fget q f = (remapBound s pos i).fget q f := by
  unfold remapStarted
  rw [fget_fset_ne _ F.FMAP_STAT_EPOCH_FIXED f 0 h, fget_fset_ne _ F.FMAP_STAT_REMAP_PENDING f 1 h]
  rfl

/-- It writes the spare's page and the FACET map page, and pages above where the position has no place in the map. -/
theorem remapStarted_pages (s : State) (pos i : Nat) : PagesOnly (fun q => q = pgFt + i ∨ pgFmap ≤ q) s (remapStarted s pos i) := by
  have hrole : PagesOnly (fun q => q = pgFt + i ∨ pgFmap ≤ q) s (setRole s i roleLoading pos) :=
    (setRole_pages s i roleLoading pos).mono fun _ hq => hq.imp_right fun e => e.ge
  have hbound : PagesOnly (fun q => q = pgFt + i ∨ pgFmap ≤ q) s (remapBound s pos i) :=
    hrole.trans ((setMap_pages _ pos (some i)).mono fun _ => .inr)
  exact (hbound.facetMod.fset (.inr (Nat.le_refl _)) (by decide)).fset (.inr (Nat.le_refl _)) (by decide)

/-- The captures of the FACET map page stand. -/
theorem remapStarted_err0 (s : State) (pos i : Nat) {f : Fld} (h : f.off = F.PG_ERR0_CODE.off) :
    (remapStarted s pos i).fget pgFmap f = s.fget pgFmap f := by
  have hrole := (setRole_regs s i roleLoading pos).fget (p := pgFmap) (f := f) (by rw [h]; decide) (by rw [h]; simp [spareRegs])
  rw [remapStarted_fget _ _ _ (by rw [h]; decide), remapBound, setMap_fget_below _ _ _ (by rw [h]; decide), hrole]

/-- The spare's page is as its role leaves it. -/
theorem remapStarted_spare (s : State) (pos : Nat) {i : Nat} {f : Fld} (hi : pgFt + i < pgFmap) (hf : f.off < 4096) :
    (remapStarted s pos i).fget (pgFt + i) f = (setRole s i roleLoading pos).fget (pgFt + i) f := by
  rw [remapStarted_fget _ _ _ (by simp only at hi hf ⊢; omega)]
  exact (setMap_pages _ pos (some i)).fget (Nat.not_le.mpr hi) hf

/-- The spare is LOADING for the position. -/
theorem remapStarted_role (s : State) (pos : Nat) {i : Nat} (hi : pgFt + i < pgFmap) :
    tileRole (remapStarted s pos i) i = roleLoading ∧ (remapStarted s pos i).fget (pgFt + i) F.FT_ROLE_POSITION = pos % 2 ^ 6 := by
  unfold tileRole
  rw [remapStarted_spare s pos hi (by decide), remapStarted_spare s pos hi (by decide)]
  exact setRole_shows s i pos (by decide)

/-- The map shows the spare for the position. -/
theorem remapStarted_shown (s : State) (pos : Nat) {i : Nat} (hi : i < 128) : (remapStarted s pos i).fget pgFmap (mapField pos) = i + 128 := by
  rw [remapStarted_fget _ _ _ (by simp only; omega)]
  exact setMap_shown _ pos hi

/-- A remap is pending, and its epoch not fixed. -/
theorem remapStarted_pending (s : State) (pos i : Nat) :
    (remapStarted s pos i).fget pgFmap F.FMAP_STAT_REMAP_PENDING = 1 ∧ (remapStarted s pos i).fget pgFmap F.FMAP_STAT_EPOCH_FIXED = 0 := by
  unfold remapStarted
  rw [fget_fset_beside _ _ F.FMAP_STAT_EPOCH_FIXED F.FMAP_STAT_REMAP_PENDING _ rfl (.inl (by decide)), fget_fset_same _ _ _ _ (by decide),
    fget_fset_same _ _ _ _ (by decide)]
  exact ⟨rfl, rfl⟩

/-! ### A tile out of service -/

/-- The state in which a tile has stopped, is out of service and RETIRED (R158, R168). -/
def tileOut (s : State) (i : Nat) (fault : Bool) : State := setRole (markOut (tileStop s i) (pgFt + i) fault) i roleRetired 0

/-- The registers that show it. -/
def tileOutRegs (i : Nat) : List (Nat × Nat) := (pgFt + i, F.FT_ROLE_ROLE.off) :: (outRegs (pgFt + i) ++ spareRegs)

theorem tileOut_regs (s : State) (i : Nat) (fault : Bool) : RegsOnly (tileOutRegs i) s (tileOut s i fault) := by
  have hstop : RegsOnly (tileOutRegs i) s (tileStop s i) := RegsOnly.refl _ s
  refine (hstop.trans ((markOut_regs (tileStop s i) (pgFt + i) fault).mono fun x hx => ?_)).trans
    ((setRole_regs (markOut (tileStop s i) (pgFt + i) fault) i roleRetired 0).mono fun x hx => ?_)
  · exact List.mem_cons_of_mem _ (List.mem_append_left _ hx)
  · rcases List.mem_cons.mp hx with rfl | hx
    · exact List.mem_cons_self
    · exact List.mem_cons_of_mem _ (List.mem_append_right _ hx)

theorem tileOut_pages (s : State) (i : Nat) (fault : Bool) : PagesOnly (fun q => q = pgFt + i ∨ q = pgFmap) s (tileOut s i fault) :=
  .of_regsOnly (tileOut_regs s i fault) (by simp [tileOutRegs, outRegs, spareRegs])

@[simp] theorem tileOut_time (s : State) (i : Nat) (fault : Bool) : (tileOut s i fault).time = s.time := by
  unfold tileOut
  rw [setRole_shape]
  exact markOut_time ..

@[simp] theorem tileOut_facet (s : State) (i : Nat) (fault : Bool) : (tileOut s i fault).facet = (tileStop s i).facet := by
  unfold tileOut
  rw [setRole_shape]
  exact markOut_facet ..

@[simp] theorem tileOut_var (s : State) (i : Nat) (fault : Bool) : (tileOut s i fault).var = s.var := by
  unfold tileOut
  rw [setRole_shape]
  exact markOut_var ..

theorem tileStop_loads (s : State) (i : Nat) : (tileStop s i).facet.loads = s.facet.loads := rfl
theorem tileStop_remaps (s : State) (i : Nat) : (tileStop s i).facet.remaps = s.facet.remaps := rfl

/-- The tile is out of service and RETIRED, with FAULT where it failed. -/
theorem tileOut_shows (s : State) (i : Nat) (fault : Bool) :
    pageOut (tileOut s i fault) (pgFt + i) = true ∧
      (tileOut s i fault).fbit (pgFt + i) F.PG_STAT_FAULT = (fault || s.fbit (pgFt + i) F.PG_STAT_FAULT) ∧
      tileRole (tileOut s i fault) i = roleRetired := by
  obtain ⟨hout, hfault⟩ := markOut_shows (tileStop s i) (pgFt + i) fault
  have hrole := setRole_regs (markOut (tileStop s i) (pgFt + i) fault) i roleRetired 0
  refine ⟨?_, ?_, (setRole_shows _ i 0 (by decide)).1⟩
  · unfold pageOut State.fbit at hout ⊢
    rw [tileOut, hrole.fget (by decide) (by simp [spareRegs])]
    exact hout
  · unfold State.fbit at hfault ⊢
    rw [tileOut, hrole.fget (by decide) (by simp [spareRegs])]
    exact hfault

/-- A tile that was no spare leaves the lowest spare what it was. -/
theorem tileOut_lowestSpare {s : State} {i : Nat} (fault : Bool) (h : tileRole s i ≠ roleSpare) : lowestSpare (tileOut s i fault) = lowestSpare s := by
  refine lowestSpare_of_pages (tileOut_var s i fault) ((tileOut_pages s i fault).mono fun _ hq => hq.imp_right fun e => .inl e.ge) h ?_
  rw [(tileOut_shows s i fault).2.2]
  decide

/-! ### A tile that fails -/

/-- What a failed tile shows: FAULT and out of service, RETIRED, its detail captured, and no program running (R158, R168). -/
def FailedTile (t : State) (i : Nat) (detail : Word) : Prop :=
  pageOut t (pgFt + i) = true ∧ t.fbit (pgFt + i) F.PG_STAT_FAULT = true ∧ tileRole t i = roleRetired ∧
    t.fget (pgFt + i) F.PG_ERR0_CODE = 0x0501 ∧ t.reg (pgFt + i) F.PG_ERR3.off = detail ∧ (tileGet t i).running = false

/-- It does so as long as its page and the tiles are left alone. -/
theorem FailedTile.of_pages {s t : State} {i : Nat} {detail : Word} {ps : Nat → Prop} (h : FailedTile s i detail) (hp : PagesOnly ps s t)
    (hn : ¬ ps (pgFt + i)) (ht : t.facet.tiles = s.facet.tiles) : FailedTile t i detail := by
  unfold FailedTile pageOut tileRole State.fbit tileGet at h ⊢
  rw [hp.fget hn (by decide), hp.fget hn (by decide), hp.fget hn (by decide), hp.fget hn (by decide), hp _ _ (by decide) hn, ht]
  exact h

/-- The state in which a tile has left service with FAULT, and no longer waits to leave, before its position is looked at. -/
def tileDown (s : State) (i : Nat) : State := facetMod (tileOut s i true) fun x => { x with leaving := x.leaving.filter (· ≠ i) }

/-- The state in which that tile's failure is captured too. -/
def tileFailed (s : State) (i detail : Nat) : State := tileDown (capture s (pgFt + i) 0x0501 0 detail) i

theorem tileFailed_pages (s : State) (i detail : Nat) :
    PagesOnly (fun q => q = pgFt + i ∨ pgFmap ≤ q ∨ q < pgFt) s (tileFailed s i detail) := by
  have hcap : PagesOnly (fun q => q = pgFt + i ∨ pgFmap ≤ q ∨ q < pgFt) s (capture s (pgFt + i) 0x0501 0 detail) :=
    (capture_pages s (pgFt + i) 0x0501 detail).mono fun q hq => hq.imp_right fun e : q = pgPart => .inr (e ▸ by decide)
  have hout := hcap.trans ((tileOut_pages (capture s (pgFt + i) 0x0501 0 detail) i true).mono fun q hq => hq.imp_right fun e : q = pgFmap => .inl e.ge)
  exact hout.facetMod

@[simp] theorem tileFailed_time (s : State) (i detail : Nat) : (tileFailed s i detail).time = s.time := by
  rw [tileFailed, tileDown, facetMod_time, tileOut_time, capture_time]

@[simp] theorem tileFailed_var (s : State) (i detail : Nat) : (tileFailed s i detail).var = s.var := by
  rw [tileFailed, tileDown, facetMod_var, tileOut_var, capture_var]

/-- Loads and remaps are as they were. -/
theorem tileFailed_loads (s : State) (i detail : Nat) :
    (tileFailed s i detail).facet.loads = s.facet.loads ∧ (tileFailed s i detail).facet.remaps = s.facet.remaps := by
  rw [tileFailed, tileDown, facetMod]
  dsimp only
  rw [tileOut_facet, tileStop_loads, tileStop_remaps, capture_facet]
  exact ⟨rfl, rfl⟩

/-- A capture leaves the tile's role and position. -/
theorem capture_role (s : State) (i code detail : Nat) {f : Fld} (h : f.off = F.FT_ROLE_ROLE.off) :
    (capture s (pgFt + i) code 0 detail).fget (pgFt + i) f = s.fget (pgFt + i) f := by
  refine (capture_regs s (pgFt + i) code 0 detail).fget (by rw [h]; decide) ?_
  have hpage : pgFt + i ≠ pgPart + 0 := by simp only [pgFt, pgPart]; omega
  simp [captureRegs, h, hpage]

/-- With no capture held on its page, a failed tile shows its failure. -/
theorem tileFailed_shows {s : State} {i : Nat} (detail : Word) (h : s.fbit (pgFt + i) F.PG_ERR0_VALID = false) :
    FailedTile (tileFailed s i detail.toNat) i detail := by
  obtain ⟨hout, hfault, hrole⟩ := tileOut_shows (capture s (pgFt + i) 0x0501 0 detail.toNat) i true
  have hregs := tileOut_regs (capture s (pgFt + i) 0x0501 0 detail.toNat) i true
  have herr : ∀ o, o < 4096 → (pgFt + i, o) ∉ tileOutRegs i →
      (tileOut (capture s (pgFt + i) 0x0501 0 detail.toNat) i true).reg (pgFt + i) o = (capture s (pgFt + i) 0x0501 0 detail.toNat).reg (pgFt + i) o :=
    hregs (pgFt + i)
  have htile : FailedTile (tileOut (capture s (pgFt + i) 0x0501 0 detail.toNat) i true) i detail := by
    refine ⟨hout, hfault, hrole, ?_, ?_, ?_⟩
    · rw [hregs.fget (by decide) (by simp [tileOutRegs, outRegs, spareRegs])]
      exact (capture_shows 0 detail.toNat h (by decide)).2
    · rw [herr _ (by decide) (by simp [tileOutRegs, outRegs, spareRegs]), capture_err3 _ _ _ h, BitVec.ofNat_toNat, BitVec.setWidth_eq]
    · unfold tileGet
      rw [tileOut_facet]
      exact congrArg Tile.running (tileGet_tileSet_same ..)
  exact htile.of_pages (PagesOnly.refl (fun _ => False) _).facetMod id rfl

/-- The captures of the FACET map page stand. -/
theorem tileFailed_err0 {s : State} {i : Nat} (detail : Nat) {f : Fld} (hi : pgFt + i < pgFmap) (h : f.off = F.PG_ERR0_CODE.off) :
    (tileFailed s i detail).fget pgFmap f = s.fget pgFmap f := by
  have hout := (tileOut_regs (capture s (pgFt + i) 0x0501 0 detail) i true).fget (p := pgFmap) (f := f) (by rw [h]; decide)
    (by rw [h]; simp [tileOutRegs, outRegs, spareRegs])
  have hcap := (capture_pages s (pgFt + i) 0x0501 detail).fget (p := pgFmap) (f := f)
    (by simp only [pgFt, pgFmap, pgPart] at hi ⊢; omega) (by rw [h]; decide)
  rw [tileFailed, tileDown, facetMod_fget, hout, hcap]

/-- A tile that holds a position is ACTIVE. -/
theorem role_of_tilePos {s : State} {i pos : Nat} (h : tilePos s i = some pos) : tileRole s i = roleActive ∧ pos < 64 := by
  unfold tilePos at h
  split at h
  · cases h
    exact ⟨‹_›, fget_lt _ _ F.FT_ROLE_POSITION⟩
  · cases h

/-- A tile that held a position was no spare. -/
theorem tileFailed_lowestSpare {s : State} {i : Nat} (detail : Nat) (h : tileRole s i = roleActive) :
    lowestSpare (tileFailed s i detail) = lowestSpare s := by
  have hrole : tileRole (tileFailed s i detail) i = roleRetired := by
    rw [tileRole, tileFailed, tileDown, facetMod_fget]
    exact (tileOut_shows (capture s (pgFt + i) 0x0501 0 detail) i true).2.2
  exact lowestSpare_of_pages (tileFailed_var s i detail) (tileFailed_pages s i detail) (by rw [h]; decide) (by rw [hrole]; decide)

/-! ### The position of a failed tile -/

/-- A load or a remap for a position stands. -/
def remapStands (s : State) (pos : Nat) : Bool := (s.facet.loads ++ s.facet.remaps).any fun r => r.pos = pos

/-- A position is lost under the plan (R158). -/
def positionLost (s : State) (pos : Nat) : State := timeSet s { s.time with lost := pos :: s.time.lost.filter (· ≠ pos) }

/-- Where a tile that holds a position leaves service, the position is remapped under a plan, and VACANT without one, unless a remap stands. -/
theorem tileGone_positioned {s : State} {i pos : Nat} (h : tilePos s i = some pos) :
    tileGone s i =
      if (tileDown s i).time.plan.isSome then
        if remapStands (tileDown s i) pos then positionLost (tileDown s i) pos else remapLost (positionLost (tileDown s i) pos) pos
      else if remapStands (tileDown s i) pos then tileDown s i else setMap (tileDown s i) pos none := by
  have hrole := (role_of_tilePos h).1
  unfold tileGone
  simp only [h, hrole]
  rw [if_neg (by decide)]
  rfl

/-- The failure of a tile that holds a position is the tile's own, and then the position's. -/
theorem tileFail_positioned {s : State} {i pos : Nat} (detail : Nat) (h : tilePos s i = some pos) (hr : remapStands s pos = false) :
    tileFail s i detail =
      if s.time.plan.isSome then remapLost (positionLost (tileFailed s i detail) pos) pos else setMap (tileFailed s i detail) pos none := by
  have hpos : tilePos (capture s (pgFt + i) 0x0501 0 detail) i = some pos := by
    unfold tilePos at h ⊢
    rw [capture_role _ _ _ _ rfl, capture_role (f := F.FT_ROLE_POSITION) _ _ _ _ rfl]
    exact h
  have hstands : remapStands (tileFailed s i detail) pos = false := by
    unfold remapStands
    rw [(tileFailed_loads s i detail).1, (tileFailed_loads s i detail).2]
    exact hr
  rw [tileFail, tileGone_positioned hpos, ← tileFailed, tileFailed_time, hstands]
  simp only [Bool.false_eq_true, if_false]

theorem remapLost_spare {s : State} {j : Nat} (pos : Nat) (h : lowestSpare s = some j) : remapLost s pos = remapStarted s pos j := by
  rw [remapLost, remapDecide_spare pos h, Option.getD_some]

theorem remapLost_none {s : State} (pos : Nat) (h : lowestSpare s = none) : remapLost s pos = sparesExhausted s pos := by
  rw [remapLost, remapDecide_none pos h, Option.getD_none]

/-! ### No spare left -/

/-- A lost position with no spare is VACANT and SPARES_EXHAUSTED is captured, before the robot stops (R161). -/
def sparesOut (s : State) (pos : Nat) : State := pageIrq (capture (setMap s pos none) pgFmap 0x0503 0 0) pgFmap 4

theorem sparesExhausted_eq (s : State) (pos : Nat) : sparesExhausted s pos = wholeStop (sparesOut s pos) 21 := rfl

/-- Time and the tiles are left alone. -/
theorem sparesExhausted_stopKeeps (s : State) (pos : Nat) : StopKeeps s (sparesExhausted s pos) := by
  have hmap : StopKeeps s (setMap s pos none) := ⟨rfl, rfl, rfl, rfl, rfl, rfl, rfl, rfl, rfl, rfl, fun o ho => setMap_reg_below _ _ _ (by
    simp only [pgRst, pgFmap]; omega)⟩
  exact ((hmap.capture (by decide)).pageIrq (by decide)).wholeStop

/-- No page of a Facet tile is written. -/
theorem sparesExhausted_pages (s : State) (pos : Nat) : PagesOnly (fun q => pgFmap ≤ q ∨ q < pgFt) s (sparesExhausted s pos) := by
  have hmap : PagesOnly (fun q => pgFmap ≤ q ∨ q < pgFt) s (setMap s pos none) := (setMap_pages s pos none).mono fun _ => .inl
  have hcap := hmap.trans ((capture_pages _ pgFmap 0x0503 0).mono fun _ hq => hq.elim (fun e => .inl e.ge) fun e => .inr (e ▸ by decide))
  exact (hcap.pageIrq (.inl (Nat.le_refl _))).trans ((stopRequest_pages (sparesOut s pos) 21 0xFF true).mono fun _ hq => .inr (stopPages_lt_ft hq))

/-- The stop of the robot and the page's causes leave the rest of the FACET map page. -/
theorem sparesExhausted_reg (s : State) (pos : Nat) {o : Nat} (ho : o < 4096) (hn : o ≠ F.PG_IRQ_STAT_ERR.off) :
    (sparesExhausted s pos).reg pgFmap o = (capture (setMap s pos none) pgFmap 0x0503 0 0).reg pgFmap o := by
  have hstop := stopRequest_pages (sparesOut s pos) 21 0xFF true pgFmap o ho fun h => absurd (stopPages_lt_ft h) (by decide)
  exact hstop.trans ((pageIrq_reg _ _ _ ho).trans (if_neg fun e => hn e.2))

/-- With no capture held on the FACET map page, SPARES_EXHAUSTED is captured. -/
theorem sparesExhausted_code {s : State} (pos : Nat) (h : s.fbit pgFmap F.PG_ERR0_VALID = false) :
    (sparesExhausted s pos).fget pgFmap F.PG_ERR0_CODE = 0x0503 := by
  have hvalid : (setMap s pos none).fbit pgFmap F.PG_ERR0_VALID = false := by
    unfold State.fbit at h ⊢
    rw [setMap_fget_below _ _ _ (by decide)]
    exact h
  rw [State.fget, sparesExhausted_reg _ _ (by decide) (by decide)]
  exact (capture_shows 0 0 hvalid (by decide)).2

/-- The position is VACANT. -/
theorem sparesExhausted_vacant (s : State) {pos : Nat} (h : pos < 64) :
    ((sparesExhausted s pos).reg pgFmap (vacantOff pos)).getLsbD (pos % 32) = true := by
  have hoff : vacantOff pos < 4096 ∧ F.FMAP_VACANT_LO.off ≤ vacantOff pos := by simp only [vacantOff]; omega
  have hnot : (pgFmap, vacantOff pos) ∉ captureRegs (setMap s pos none) pgFmap 0 := by
    simp [captureRegs, vacantOff]
    omega
  rw [sparesExhausted_reg _ _ hoff.1 (by simp only at hoff ⊢; omega), capture_regs _ _ _ _ _ _ _ hoff.1 hnot, setMap_vacant]
  rfl

/-! ### Spare loads -/

/-- The state in which the last spare load has completed at a tick, and its remap waits for an epoch (R159). -/
def spareLoaded (s : State) (r : SpareLoad) (tick : Nat) : State :=
  facetMod (s.reach tick) fun x => { x with loads := [], remaps := x.remaps ++ [r], loadedAt := tick }

/-- Within its bound the one load completes, and the epoch of its remap is fixed. -/
theorem execSpareLoadDone_last {s : State} {r : SpareLoad} {tick : Nat} (hl : s.facet.loads = [r]) (hb : tick ≤ r.since + spareLoadBound s)
    (hn : (s.reach tick).now = tick) : execSpareLoadDone r.spare tick s = .next (fixRemap (spareLoaded s r tick)) := by
  have hloads : (s.reach tick).facet.loads = [r] := by rw [reach_shape]; exact hl
  have hdone : (facetMod (s.reach tick) fun x => { x with
      loads := x.loads.filter (fun y => y.spare ≠ r.spare), remaps := x.remaps ++ [r], loadedAt := (s.reach tick).now }) = spareLoaded s r tick := by
    unfold spareLoaded facetMod
    simp [hloads, hn]
  have hnone : (spareLoaded s r tick).facet.loads = [] := rfl
  unfold execSpareLoadDone
  rw [hl]
  simp only [List.find?_cons, decide_true]
  rw [if_neg (by omega), hdone, if_pos hnone]

/-- Where no plan load waits, fixing the epoch of the remaps changes the FACET map page and the epoch that is held. -/
theorem fixRemap_alone {s : State} (h : s.time.next = none) :
    fixRemap s = ((facetMod s fun x => { x with remapBpn := some (epochFrom s s.facet.loadedAt) }).setReg64
      pgFmap F.FMAP_EPOCH_LO.off F.FMAP_EPOCH_HI.off (epochFrom s s.facet.loadedAt)).fset pgFmap F.FMAP_STAT_EPOCH_FIXED 1 := by
  unfold fixRemap
  dsimp only
  split
  · rename_i e he
    exact absurd (he.symm.trans h) (by simp)
  · rfl

/-- The epoch follows the grid and the plan in force, not the PTB's count or the loads. -/
theorem epochFrom_spareLoaded (s : State) (r : SpareLoad) (tick t : Nat) : epochFrom (spareLoaded s r tick) t = epochFrom s t := by
  unfold spareLoaded
  rw [reach_shape]
  rfl

/-- No load and no remap stands. -/
def loadsDropped (s : State) : State := facetMod s fun x => { x with loads := [], remaps := [] }

/-- The load of a spare that a UE took out of service starts again on the lowest spare (R160). -/
theorem restartLoad_only {s : State} {r : SpareLoad} {j : Nat} (hl : s.facet.loads = [r]) (hr : s.facet.remaps = []) (hs : lowestSpare s = some j) :
    restartLoad s r.spare = remapStarted (loadsDropped s) r.pos j := by
  have hdrop : (facetMod s fun x => { x with
      loads := x.loads.filter (fun y => y.spare ≠ r.spare), remaps := x.remaps.filter (fun y => y.spare ≠ r.spare) }) =
      loadsDropped s := by
    unfold loadsDropped facetMod
    simp [hl, hr]
  have hspare : lowestSpare (loadsDropped s) = some j := hs
  unfold restartLoad
  rw [hl, hr]
  simp only [List.append_nil, List.find?_cons, decide_true]
  rw [hdrop, remapDecide_spare _ hspare]

/-! ### The statement -/

/-- FACET_TILE_FAIL of a tile of the part. -/
theorem exec_facetTileFail {s : State} {tile : Nat} (detail : Word) (h : tile < s.var.facetTiles) :
    exec (.facetTileFail tile detail) s = .next (tileFail s tile detail.toNat) := by
  change execFacetTileFail tile detail s = _
  rw [execFacetTileFail, if_pos h]

/-- With no plan in force the position of a failed tile becomes VACANT. -/
theorem tileFail_unplanned {s : State} {tile pos : Nat} (detail : Word) (ht : tile < s.var.facetTiles) (hp : tilePos s tile = some pos)
    (hv : s.fbit (pgFt + tile) F.PG_ERR0_VALID = false) (hr : remapStands s pos = false) (hplan : s.time.plan = none) :
    let t := tileFail s tile detail.toNat
    FailedTile t tile detail ∧ (t.reg pgFmap (vacantOff pos)).getLsbD (pos % 32) = true ∧ t.time = s.time := by
  have hpage := ft_lt_fmap ht
  dsimp only
  rw [tileFail_positioned _ hp hr, if_neg (by simp [hplan])]
  refine ⟨(tileFailed_shows detail hv).of_pages (setMap_pages _ pos none) (by omega) (by rw [setMap_facet]), setMap_vacant .., ?_⟩
  rw [setMap_time, tileFailed_time]

/-- The list of positions lost is no register, and none of what the spares are found by. -/
theorem positionLost_fbit (s : State) (pos p : Nat) (f : Fld) : (positionLost s pos).fbit p f = s.fbit p f := rfl
theorem positionLost_facet (s : State) (pos : Nat) : (positionLost s pos).facet = s.facet := rfl
theorem positionLost_now (s : State) (pos : Nat) : (positionLost s pos).now = s.now := rfl
theorem positionLost_lowestSpare (s : State) (pos : Nat) : lowestSpare (positionLost s pos) = lowestSpare s := rfl

/-- A lost position stands in the list of those. -/
theorem mem_positionLost (s : State) (pos : Nat) : pos ∈ (positionLost s pos).time.lost := List.mem_cons_self

/-- A failed tile stays so while its position is lost. -/
theorem FailedTile.positionLost {s : State} {i : Nat} {detail : Word} (pos : Nat) (h : FailedTile s i detail) :
    FailedTile (positionLost s pos) i detail := h

/-- Under a plan the lowest spare loads for the position of a failed tile. -/
theorem tileFail_remaps {s : State} {tile pos i : Nat} (detail : Word) (ht : tile < s.var.facetTiles) (hp : tilePos s tile = some pos)
    (hv : s.fbit (pgFt + tile) F.PG_ERR0_VALID = false) (hr : remapStands s pos = false) (hplan : s.time.plan.isSome = true)
    (hs : lowestSpare s = some i) :
    let t := tileFail s tile detail.toNat
    FailedTile t tile detail ∧ t.fget pgFmap (mapField pos) = i + 128 ∧ tileRole t i = roleLoading ∧ t.fget (pgFt + i) F.FT_ROLE_POSITION = pos ∧
      t.fget pgFmap F.FMAP_STAT_REMAP_PENDING = 1 ∧ t.fget pgFmap F.FMAP_STAT_EPOCH_FIXED = 0 ∧
      t.facet.loads = s.facet.loads ++ [{ pos := pos, spare := i, since := s.now }] ∧ pos ∈ t.time.lost := by
  obtain ⟨hactive, hlt⟩ := role_of_tilePos hp
  obtain ⟨hi, hspare⟩ := lowestSpare_spec hs
  have hne : tile ≠ i := by
    rintro rfl
    exact absurd (hactive.symm.trans hspare) (by decide)
  have hpage := ft_lt_fmap ht
  have hipage := ft_lt_fmap hi
  have hfound : lowestSpare (positionLost (tileFailed s tile detail.toNat) pos) = some i :=
    (positionLost_lowestSpare ..).trans ((tileFailed_lowestSpare _ hactive).trans hs)
  have hfacet := remapStarted_facet (positionLost (tileFailed s tile detail.toNat) pos) pos i
  have hnow : (tileFailed s tile detail.toNat).now = s.now := by rw [State.now, tileFailed_time, State.now]
  obtain ⟨hrole, hpos⟩ := remapStarted_role (positionLost (tileFailed s tile detail.toNat) pos) pos hipage
  obtain ⟨hpending, hopen⟩ := remapStarted_pending (positionLost (tileFailed s tile detail.toNat) pos) pos i
  dsimp only
  rw [tileFail_positioned _ hp hr, if_pos hplan, remapLost_spare pos hfound]
  refine ⟨((tileFailed_shows detail hv).positionLost pos).of_pages (remapStarted_pages _ pos i) (by omega) (by rw [hfacet]),
    remapStarted_shown _ pos (by simp only [pgFt, pgFmap] at hipage; omega), hrole, hpos.trans (Nat.mod_eq_of_lt hlt), hpending, hopen, ?_, ?_⟩
  · rw [hfacet, positionLost_facet, positionLost_now, hnow, (tileFailed_loads s tile detail.toNat).1]
  · rw [remapStarted_time]
    exact mem_positionLost ..

/-- Under a plan and with no spare the position of a failed tile is VACANT, and SPARES_EXHAUSTED is captured. -/
theorem tileFail_exhausts {s : State} {tile pos : Nat} (detail : Word) (ht : tile < s.var.facetTiles) (hp : tilePos s tile = some pos)
    (hv : s.fbit (pgFt + tile) F.PG_ERR0_VALID = false) (hr : remapStands s pos = false) (hplan : s.time.plan.isSome = true)
    (hs : lowestSpare s = none) (hf : s.fbit pgFmap F.PG_ERR0_VALID = false) :
    let t := tileFail s tile detail.toNat
    FailedTile t tile detail ∧ (t.reg pgFmap (vacantOff pos)).getLsbD (pos % 32) = true ∧ t.fget pgFmap F.PG_ERR0_CODE = 0x0503 ∧
      pos ∈ t.time.lost := by
  obtain ⟨hactive, hlt⟩ := role_of_tilePos hp
  have hpage := ft_lt_fmap ht
  have hfound : lowestSpare (positionLost (tileFailed s tile detail.toNat) pos) = none :=
    (positionLost_lowestSpare ..).trans ((tileFailed_lowestSpare _ hactive).trans hs)
  have hkeeps := sparesExhausted_stopKeeps (positionLost (tileFailed s tile detail.toNat) pos) pos
  have hfree : (positionLost (tileFailed s tile detail.toNat) pos).fbit pgFmap F.PG_ERR0_VALID = false := by
    rw [positionLost_fbit, State.fbit, tileFailed_err0 (f := F.PG_ERR0_VALID) _ hpage rfl]
    exact hf
  dsimp only
  rw [tileFail_positioned _ hp hr, if_pos hplan, remapLost_none pos hfound]
  refine ⟨((tileFailed_shows detail hv).positionLost pos).of_pages (sparesExhausted_pages _ pos) (by omega) (by rw [hkeeps.facet]),
    sparesExhausted_vacant _ hlt, sparesExhausted_code pos hfree, ?_⟩
  rw [hkeeps.time]
  exact mem_positionLost ..

/-- The last load within its bound fixes the epoch of the remap. -/
theorem spareLoadDone_fixes {s : State} {r : SpareLoad} {tick : Nat} (hrun : s.time.running = true) (hle : s.now ≤ tick) (hk : tick < 2 ^ 64)
    (hl : s.facet.loads = [r]) (hb : tick ≤ r.since + spareLoadBound s) (hnext : s.time.next = none) :
    ∃ t, exec (.spareLoadDone r.spare tick) s = .next t ∧ t = { s with regs := t.regs, time := t.time, facet := t.facet } ∧ t.now = tick ∧
      t.facet = { s.facet with loads := [], remaps := s.facet.remaps ++ [r], loadedAt := tick, remapBpn := some (epochFrom s tick) } ∧
      t.fget pgFmap F.FMAP_STAT_EPOCH_FIXED = 1 ∧ t.reg64 pgFmap F.FMAP_EPOCH_LO.off F.FMAP_EPOCH_HI.off = epochFrom s tick % 2 ^ 64 := by
  have hnow : (s.reach tick).now = tick := by
    rw [reach_now s hk]
    split
    · rfl
    · rename_i h
      exact Nat.le_antisymm hle (Nat.not_lt.mp fun hlt => h ⟨hrun, hlt⟩)
  have hshape : spareLoaded s r tick = { s with time := (spareLoaded s r tick).time, facet := (spareLoaded s r tick).facet } := by
    unfold spareLoaded
    rw [reach_shape]
    rfl
  have hwait : (spareLoaded s r tick).time.next = none := by
    unfold spareLoaded
    rw [reach_shape]
    exact hnext
  have hfacet : (spareLoaded s r tick).facet = { s.facet with loads := [], remaps := s.facet.remaps ++ [r], loadedAt := tick } := by
    unfold spareLoaded
    rw [reach_shape]
    rfl
  have hepoch : epochFrom (spareLoaded s r tick) (spareLoaded s r tick).facet.loadedAt = epochFrom s tick := epochFrom_spareLoaded ..
  refine ⟨_, execSpareLoadDone_last hl hb hnow, ?_⟩
  rw [fixRemap_alone hwait, hepoch]
  refine ⟨?_, hnow, ?_, fget_fset_same _ _ _ _ (by decide), ?_⟩
  · rw [hshape]
    rfl
  · change { (spareLoaded s r tick).facet with remapBpn := some (epochFrom s tick) } = _
    rw [hfacet]
  · rw [State.reg64, reg_fset_ne _ _ _ (by decide), reg_fset_ne _ _ _ (by decide)]
    exact reg64_setReg64_same _ _ (by decide)

/-- The state in which a load that read a UE is captured and its spare is out of service, before the next spare loads (R160). -/
def spareFailed (s : State) (i : Nat) : State := capture (tileOut s i false) pgFmap 0x0502 0 0

theorem exec_spareLoadFailed {s : State} {r : SpareLoad} (hl : s.facet.loads = [r]) (ht : r.spare < s.var.facetTiles) :
    exec (.spareLoadFailed r.spare true) s = .next (restartLoad (spareFailed s r.spare) r.spare) := by
  change execSpareLoadFailed r.spare true s = _
  rw [execSpareLoadFailed, if_pos ⟨by simp [hl], ht⟩, if_pos rfl]
  rfl

/-- The spare's page is as its leaving left it. -/
theorem spareFailed_tile (s : State) {i : Nat} {f : Fld} (h : pgFt + i < pgFmap) (hf : f.off < 4096) :
    (spareFailed s i).fget (pgFt + i) f = (tileOut s i false).fget (pgFt + i) f :=
  (capture_pages _ pgFmap 0x0502 0).fget (by simp only [pgFt, pgFmap, pgPart] at h ⊢; omega) hf

theorem spareFailed_loads (s : State) (i : Nat) :
    (spareFailed s i).facet.loads = s.facet.loads ∧ (spareFailed s i).facet.remaps = s.facet.remaps := by
  unfold spareFailed
  rw [capture_facet, tileOut_facet]
  exact ⟨rfl, rfl⟩

theorem spareFailed_now (s : State) (i : Nat) : (spareFailed s i).now = s.now := by
  rw [spareFailed, State.now, capture_time, tileOut_time, State.now]

/-- A spare that was LOADING leaves the lowest spare what it was. -/
theorem spareFailed_lowestSpare {s : State} {i : Nat} (h : pgFt + i < pgFmap) (hr : tileRole s i = roleLoading) :
    lowestSpare (spareFailed s i) = lowestSpare s := by
  have hpages : PagesOnly (fun q => q = pgFt + i ∨ pgFmap ≤ q ∨ q < pgFt) s (spareFailed s i) :=
    ((tileOut_pages s i false).mono fun _ hq => hq.imp_right fun e => .inl e.ge).trans
      ((capture_pages _ pgFmap 0x0502 0).mono fun q hq => .inr (hq.imp (fun e : q = pgFmap => e.ge) fun e : q = pgPart => e ▸ by decide))
  have hrole : tileRole (spareFailed s i) i = roleRetired := (spareFailed_tile s h (by decide)).trans (tileOut_shows s i false).2.2
  exact lowestSpare_of_pages ((capture_var ..).trans (tileOut_var ..)) hpages (by rw [hr]; decide) (by rw [hrole]; decide)

/-- With no capture held on the FACET map page, the failed load is captured there. -/
theorem spareFailed_code {s : State} (i : Nat) (h : s.fbit pgFmap F.PG_ERR0_VALID = false) : (spareFailed s i).fget pgFmap F.PG_ERR0_CODE = 0x0502 := by
  have hvalid : (tileOut s i false).fbit pgFmap F.PG_ERR0_VALID = false := by
    rw [State.fbit, (tileOut_regs s i false).fget (by decide) (by simp [tileOutRegs, outRegs, spareRegs])]
    exact h
  exact (capture_shows 0 0 hvalid (by decide)).2

/-- A load that reads a UE is captured and takes its spare out of service, and the next spare loads. -/
theorem spareLoadFailed_goesOn {s : State} {r : SpareLoad} {j : Nat} (hl : s.facet.loads = [r]) (hr : s.facet.remaps = [])
    (ht : r.spare < s.var.facetTiles) (hrole : tileRole s r.spare = roleLoading) (hs : lowestSpare s = some j)
    (hf : s.fbit pgFmap F.PG_ERR0_VALID = false) :
    ∃ t, exec (.spareLoadFailed r.spare true) s = .next t ∧ pageOut t (pgFt + r.spare) = true ∧ tileRole t r.spare = roleRetired ∧
      t.fbit (pgFt + r.spare) F.PG_STAT_FAULT = s.fbit (pgFt + r.spare) F.PG_STAT_FAULT ∧ t.fget pgFmap F.PG_ERR0_CODE = 0x0502 ∧
      tileRole t j = roleLoading ∧ t.fget pgFmap (mapField r.pos) = j + 128 ∧ t.facet.loads = [{ pos := r.pos, spare := j, since := s.now }] := by
  obtain ⟨hj, hspare⟩ := lowestSpare_spec hs
  have hpage := ft_lt_fmap ht
  have hjpage := ft_lt_fmap hj
  have hne : r.spare ≠ j := fun e => absurd (hrole.symm.trans (e ▸ hspare)) (by decide)
  obtain ⟨hloads, hremaps⟩ := spareFailed_loads s r.spare
  have hfound := (spareFailed_lowestSpare hpage hrole).trans hs
  obtain ⟨hout, hfault, hretired⟩ := tileOut_shows s r.spare false
  have htile : ∀ f : Fld, f.off < 4096 →
      (remapStarted (loadsDropped (spareFailed s r.spare)) r.pos j).fget (pgFt + r.spare) f = (tileOut s r.spare false).fget (pgFt + r.spare) f :=
    fun f hf => ((remapStarted_pages _ r.pos j).fget (by omega) hf).trans (spareFailed_tile s hpage hf)
  refine ⟨remapStarted (loadsDropped (spareFailed s r.spare)) r.pos j, ?_, ?_, (htile _ (by decide)).trans hretired, ?_,
    (remapStarted_err0 _ r.pos j rfl).trans (spareFailed_code _ hf), (remapStarted_role _ r.pos hjpage).1,
    remapStarted_shown _ r.pos (by simp only [pgFt, pgFmap] at hjpage; omega), ?_⟩
  · rw [exec_spareLoadFailed hl ht, restartLoad_only (hloads.trans hl) (hremaps.trans hr) hfound]
  · rw [pageOut, State.fbit, htile _ (by decide)]
    exact hout
  · rw [State.fbit, htile _ (by decide)]
    exact hfault
  · rw [remapStarted_facet, ← spareFailed_now s r.spare]
    rfl

/-- Settles O45: a failure is the tile's own and then its position's, which `remapStarted` or `sparesExhausted` takes on, the last load is `fixRemap`,
and a load that fails is `restartLoad`. -/
theorem tilesAreRemapped : Obligations.TilesAreRemapped := by
  unfold Obligations.TilesAreRemapped
  intro s tile
  refine ⟨fun detail pos ht hp hv hr => ⟨fun hplan => ?_, fun hplan => ⟨fun i hs => ?_, fun hs hf => ?_⟩⟩, ?_, ?_⟩
  · exact ⟨_, exec_facetTileFail detail ht, tileFail_unplanned detail ht hp hv hr hplan⟩
  · exact ⟨_, exec_facetTileFail detail ht, tileFail_remaps detail ht hp hv hr hplan hs⟩
  · exact ⟨_, exec_facetTileFail detail ht, tileFail_exhausts detail ht hp hv hr hplan hs hf⟩
  · rintro r tick hl rfl hb hrun hle hk hnext
    exact spareLoadDone_fixes hrun hle hk hl hb hnext
  · rintro r j hl hr rfl ht hrole hs hf
    exact spareLoadFailed_goesOn hl hr ht hrole hs hf

end Sys2Proof.Machine
end

section
/-! SUPPORT. One slot of a Tray (R182, R185): what a slot operation that runs does to its tile, as one of several slots or as the last, and the
operations that only leave a result. -/

namespace Sys2Proof.Machine

/-! ### A slot that runs -/

/-- A tile that holds what slot `k` of its Tray leaves. -/
def slotTile (x : Tile) (k : Nat) (fx : SlotFx) : Tile :=
  { x with
    tray := { done := natPutBit x.tray.done k true, control := fx.control <|> x.tray.control, stores := x.tray.stores ++ fx.stores,
              recv := fx.recv <|> x.tray.recv, send := fx.send <|> x.tray.send }
    results := if fx.writes = [] then x.results
      else x.results ++ [{ due := x.cycle + fx.lat, issue := x.cycle, slot := k, levels := x.levels.map (·.id), writes := fx.writes }] }

theorem slotDone_eq (s : State) (c : Ctx) (fx : SlotFx) :
    slotDone s c fx =
      if natPutBit (tileGet s c.i).tray.done c.slot true = 0x7FFF then trayEnd (tileSet s c.i (slotTile (tileGet s c.i) c.slot fx)) c.i
      else tileSet s c.i (slotTile (tileGet s c.i) c.slot fx) := rfl

/-- In a Tray in progress the operation acts on what it reads at issue. -/
theorem runSlot_runs {s : State} {tile k op : Nat} {cls : SlotClass} (f : State → Ctx → State × SlotFx) (h : SlotRuns s tile k cls op) :
    runSlot s tile k cls op f = slotDone (f s (slotCtx s tile k)).1 (slotCtx s tile k) (f s (slotCtx s tile k)).2 := by
  obtain ⟨hissue, hk, hcls, hop, hdone, hbit⟩ := h
  have hgo : ¬ (¬ issuing s tile = true ∨ 15 ≤ k ∨ slotClass k ≠ cls ∨ natBit (tileGet s tile).tray.done k = true) := by
    simp [hissue, hcls, hbit, hk]
  unfold runSlot
  dsimp only
  rw [if_neg hgo, if_neg (by simp [hdone]), if_neg (by exact not_not.mpr hop), if_neg hdone]
  rfl

/-- A slot that is not the last leaves its tile with what it holds. -/
theorem slotDone_mid {s : State} {c : Ctx} {x : Tile} (fx : SlotFx) (hx : tileGet s c.i = x) (h : natPutBit x.tray.done c.slot true ≠ 0x7FFF) :
    slotDone s c fx = tileSet s c.i (slotTile x c.slot fx) := by
  subst hx
  rw [slotDone_eq, if_neg h]

theorem runSlot_mid {s t : State} {tile k op : Nat} {cls : SlotClass} {f : State → Ctx → State × SlotFx} {fx : SlotFx} (h : SlotMid s tile k cls op)
    (hf : f s (slotCtx s tile k) = (t, fx)) (hx : tileGet t tile = tileGet s tile) :
    runSlot s tile k cls op f = tileSet t tile (slotTile (tileGet s tile) k fx) := by
  rw [runSlot_runs f h.1, hf]
  exact slotDone_mid (c := slotCtx s tile k) fx hx h.2

/-- A write of one tile touches that tile alone. -/
theorem tileSet_only (s : State) (i : Nat) (x : Tile) : TileOnly s (tileSet s i x) i :=
  ⟨rfl, fun _ hk => tileGet_tileSet_ne s x hk⟩

/-- An operation that only leaves a result leaves it in its tile. -/
theorem tileSet_leaves (s : State) (tile k lat : Nat) (ws : List FxWrite) :
    SlotLeaves s (tileSet s tile (slotTile (tileGet s tile) k { lat := lat, writes := ws })) tile k lat ws := by
  refine ⟨tileSet_only .., ?_⟩
  rw [tileGet_tileSet_same, slotTile]
  by_cases hw : ws = [] <;> simp [hw]

theorem runSlot_leaves {s : State} {tile k op lat : Nat} {cls : SlotClass} {f : State → Ctx → State × SlotFx} {ws : List FxWrite}
    (h : SlotMid s tile k cls op) (hf : f s (slotCtx s tile k) = (s, { lat := lat, writes := ws })) :
    SlotLeaves s (runSlot s tile k cls op f) tile k lat ws := by
  rw [runSlot_mid h hf rfl]
  exact tileSet_leaves ..

/-- Without writes the latency does not matter. -/
theorem SlotLeaves.nil {s t : State} {tile k lat : Nat} (lat' : Nat) (h : SlotLeaves s t tile k lat []) : SlotLeaves s t tile k lat' [] := h

/-! ### Scalar and predicate operations -/

section Mid
variable {s : State} {tile k op : Nat}

theorem scalar2_leaves {f : DWord → DWord → DWord} {lat : Nat} {v : DWord} (h : SlotMid s tile k .sa op)
    (hv : f (saA (slotCtx s tile k)).val (saB (slotCtx s tile k)).val = v) :
    let c := slotCtx s tile k
    SlotLeaves s (runSlot s tile k .sa op (pureSlot (scalar2 f lat))) tile k lat
      (guarded (c.guard 0) (.s (bitsOf c.w 45 6)) (cont v ((saA c).poison || (saB c).poison))) := by
  subst hv
  exact runSlot_leaves h rfl

/-- A compare of scalars stands in all lanes under lane 0 of the guard, one of vectors goes lane by lane (R183). -/
theorem compare_leaves (g : DWord → DWord → Bool) {f : DWord → DWord → Bool} (h : SlotMid s tile k .pred op) (hf : f = g) :
    let c := slotCtx s tile k
    let vec := bitAt c.w 46
    let a := fun n => if vec then c.x.regs.vGet (bitsOf c.w 40 6) n else c.x.regs.sGet (bitsOf c.w 40 6)
    SlotLeaves s (runSlot s tile k .pred op (pureSlot (compare f))) tile k 1
      ((List.range 16).flatMap fun n =>
        predLane c (c.guard (if vec then n else 0)) n (g (a n).val (predB c vec n).val) ((a n).poison || (predB c vec n).poison)) := by
  subst hf
  exact runSlot_leaves h rfl

theorem predLogic_leaves (g : Bool → Bool → Bool) (h : SlotMid s tile k .pred op) :
    let c := slotCtx s tile k
    SlotLeaves s (runSlot s tile k .pred op (pureSlot (predLogic g))) tile k 1
      ((List.range 16).flatMap fun n =>
        predLane c (c.guard n) n (g ((predQA c).bits.getLsbD n) ((predQB c).bits.getLsbD n))
          ((predQA c).poison.getLsbD n || (predQB c).poison.getLsbD n)) :=
  runSlot_leaves h rfl

end Mid

/-- Of two words the smaller and the larger, as signed numbers, whichever is asked first. -/
theorem ite_slt_comm (a b : DWord) :
    (if BitVec.slt a b then a else b) = (if BitVec.slt b a then b else a) ∧ (if BitVec.slt a b then b else a) = if BitVec.slt b a then a else b := by
  simp only [BitVec.slt_iff_toInt_lt]
  rcases lt_trichotomy a.toInt b.toInt with h | h | h
  · simp [h, h.not_gt]
  · simp [BitVec.eq_of_toInt_eq h]
  · simp [h, h.not_gt]

/-- Settles O40: each operation is `scalar2`, `compare` or `predLogic` of its function, or leaves its one result as it stands. -/
theorem slotScalarsAndPredicates : Obligations.SlotScalarsAndPredicates := by
  unfold Obligations.SlotScalarsAndPredicates
  refine ⟨fun s tile k => ⟨?_, ?_, ?_, ?_, ?_⟩, fun s tile k => ⟨?_, ?_, ?_, ?_⟩⟩
  · simp only [List.forall_mem_cons, List.not_mem_nil, false_implies, implies_true, and_true]
    refine ⟨?_, ?_, ?_, ?_, ?_, ?_, ?_, ?_, ?_, ?min, ?max, ?_, ?_, ?_⟩
    case min => exact fun h => ⟨_, rfl, scalar2_leaves h (ite_slt_comm ..).1⟩
    case max => exact fun h => ⟨_, rfl, scalar2_leaves h (ite_slt_comm ..).2⟩
    all_goals exact fun h => ⟨_, rfl, scalar2_leaves h rfl⟩
  · exact fun h => ⟨_, rfl, runSlot_leaves h rfl⟩
  · exact fun h => ⟨_, rfl, runSlot_leaves h rfl⟩
  · exact fun h => ⟨_, rfl, runSlot_leaves h rfl⟩
  · exact fun h => ⟨_, rfl, runSlot_leaves h rfl⟩
  · simp only [List.forall_mem_cons, List.not_mem_nil, false_implies, implies_true, and_true]
    exact ⟨fun h => ⟨_, rfl, compare_leaves (fun a b => decide (a = b)) h rfl⟩,
      fun h => ⟨_, rfl, compare_leaves (fun a b => decide (a ≠ b)) h (funext fun _ => funext fun _ => decide_not.symm)⟩,
      fun h => ⟨_, rfl, compare_leaves (fun a b => decide (a.toInt < b.toInt)) h rfl⟩,
      fun h => ⟨_, rfl, compare_leaves (fun a b => decide (a.toNat < b.toNat)) h rfl⟩,
      fun h => ⟨_, rfl, compare_leaves (fun a b => decide (a.toInt ≤ b.toInt)) h rfl⟩,
      fun h => ⟨_, rfl, compare_leaves (fun a b => fxLt a.toNat b.toNat) h rfl⟩,
      fun h => ⟨_, rfl, compare_leaves (fun a b => fxLe a.toNat b.toNat) h rfl⟩,
      fun h => ⟨_, rfl, compare_leaves (fun a b => fxEq a.toNat b.toNat) h rfl⟩⟩
  · simp only [List.forall_mem_cons, List.not_mem_nil, false_implies, implies_true, and_true]
    exact ⟨fun h => ⟨_, rfl, predLogic_leaves and h⟩, fun h => ⟨_, rfl, predLogic_leaves or h⟩, fun h => ⟨_, rfl, predLogic_leaves bne h⟩⟩
  · exact fun h => ⟨_, rfl, runSlot_leaves h rfl⟩
  · exact fun h => ⟨_, rfl, runSlot_leaves h rfl⟩

end Sys2Proof.Machine
end

section
/-! SUPPORT. The vector, matrix and special operations of a Tray (R183, R193, Table 6.6): the lanes that each leaves, and after how many cycles. -/

namespace Sys2Proof.Machine

/-- A write under lane 0 of the guard reaches all 64 elements of an accumulator, or none; then its latency does not matter. -/
theorem accFx_eq (c : Ctx) (lat : Nat) (mk : Nat → Nat → Cont → FxWrite) (v : Nat → Nat → Cont) :
    ∃ l, accFx c lat mk v = { lat := l, writes := (List.range 64).flatMap fun n => guarded (c.guard 0) (mk (n / 8) (n % 8)) (v (n / 8) (n % 8)) } ∧
      (l = lat ∨ c.guard 0 = .fail) := by
  unfold accFx
  cases hg : c.guard 0 with
  | pass => exact ⟨lat, by simp only [guarded, each64, List.map_eq_flatMap], .inl rfl⟩
  | fail => exact ⟨1, by simp [guarded], .inr rfl⟩
  | poisoned => exact ⟨lat, by simp only [guarded, each64, List.map_eq_flatMap], .inl rfl⟩

/-- The writes of a special function: of a scalar, or of every lane of a vector. -/
def specialWrites (c : Ctx) (f : Cont → Cont → Cont) : List FxWrite :=
  if c.w.getLsbD 32 then
    (List.range 16).flatMap fun n => guarded (c.guard n) (.v (bitsOf c.w 45 6) n) (f (vaA c n) (c.x.regs.vGet (bitsOf c.w 33 6) n))
  else guarded (c.guard 0) (.s (bitsOf c.w 45 6)) (f (saA c) (c.x.regs.sGet (bitsOf c.w 33 6)))

theorem special1_eq (g : Nat → Nat) (lat : Nat) (c : Ctx) :
    special1 g lat c = { lat := lat, writes := specialWrites c fun x _ => cont (fx1 g x.val) x.poison } := by
  unfold special1 specialWrites bitAt
  split <;> rfl

theorem special2_eq (g : Nat → Nat → Nat) (lat : Nat) (c : Ctx) :
    special2 g lat c = { lat := lat, writes := specialWrites c fun x y => cont (fx2 g x.val y.val) (x.poison || y.poison) } := by
  unfold special2 specialWrites bitAt
  split <;> rfl

section Mid
variable {s : State} {tile k op : Nat}

theorem accFx_leaves (f : Ctx → SlotFx) {lat : Nat} {mk : Nat → Nat → Cont → FxWrite} {v : Nat → Nat → Cont} (h : SlotMid s tile k .mx op)
    (hf : f (slotCtx s tile k) = accFx (slotCtx s tile k) lat mk v) :
    SlotLeaves s (runSlot s tile k .mx op (pureSlot f)) tile k lat
      ((List.range 64).flatMap fun n => guarded ((slotCtx s tile k).guard 0) (mk (n / 8) (n % 8)) (v (n / 8) (n % 8))) := by
  obtain ⟨l, hfx, hl⟩ := accFx_eq (slotCtx s tile k) lat mk v
  have hrun := runSlot_leaves (f := pureSlot f) h (congrArg (Prod.mk s) (hf.trans hfx))
  rcases hl with rfl | hfail
  · exact hrun
  · have hnone : ((List.range 64).flatMap fun n => guarded ((slotCtx s tile k).guard 0) (mk (n / 8) (n % 8)) (v (n / 8) (n % 8))) = [] := by
      simp [hfail, guarded]
    rw [hnone] at hrun ⊢
    exact hrun.nil lat

/-- VRED.ADD leaves the sum of the lanes of A in lane 0, 0 beside it, and poison in all where a lane is poisoned (R178). -/
theorem vred_leaves (h : SlotMid s tile k .va op) :
    let c := slotCtx s tile k
    SlotLeaves s (runSlot s tile k .va op (pureSlot vredFx)) tile k 6
      ((List.range 16).flatMap fun n => guarded (c.guard n) (.v (bitsOf c.w 45 6) n)
        (cont (if n = 0 then BitVec.ofNat 64 (fxReduce ((List.range 16).map fun i => (vaA c i).val.toNat)) else 0)
          ((List.range 16).any fun i => (vaA c i).poison))) := by
  refine runSlot_leaves h ?_
  simp only [pureSlot, vredFx, vaWrite, List.any_map, List.map_map]
  rfl

end Mid

/-- Settles O41: the vector operations are `vaWrite` of their lanes, those on accumulators `accFx`, and a special function leaves its `specialWrites`. -/
theorem slotVectors : Obligations.SlotVectors := by
  unfold Obligations.SlotVectors
  intro s tile k
  refine ⟨?_, ?_, ?_, ?_, ?_, ?_, ?_, ?_, ?_⟩
  · simp only [List.forall_mem_cons, List.not_mem_nil, false_implies, implies_true, and_true]
    refine ⟨?_, ?_, ?_, ?_, ?_, ?_, ?_, ?_, ?_, ?_⟩
    all_goals exact fun h => ⟨_, rfl, runSlot_leaves h rfl⟩
  · simp only [List.forall_mem_cons, List.not_mem_nil, false_implies, implies_true, and_true]
    exact ⟨fun h => ⟨_, rfl, runSlot_leaves h rfl⟩, fun h => ⟨_, rfl, runSlot_leaves h rfl⟩⟩
  · exact fun h => ⟨_, rfl, runSlot_leaves h rfl⟩
  · exact fun h => ⟨_, rfl, vred_leaves h⟩
  · intro h
    have hrun := accFx_leaves mxZero h rfl
    exact ⟨_, rfl, hrun⟩
  · intro h
    have hrun := accFx_leaves mxOuter h rfl
    exact ⟨_, rfl, hrun⟩
  · exact fun h => ⟨_, rfl, runSlot_leaves h rfl⟩
  · exact fun h => ⟨_, rfl, runSlot_leaves h rfl⟩
  · simp only [List.forall_mem_cons, List.not_mem_nil, false_implies, implies_true, and_true, Bool.false_and, Bool.true_and, Bool.or_false]
    refine ⟨?_, ?_, ?_, fun h => ⟨_, rfl, runSlot_leaves h (congrArg (Prod.mk s) (special2_eq ..))⟩⟩
    all_goals exact fun h => ⟨_, rfl, runSlot_leaves h (congrArg (Prod.mk s) (special1_eq ..))⟩

end Sys2Proof.Machine
end

section
/-! SUPPORT. The end of a Tray (R181, R185, R188 to R191): its phases, the Tray that follows, and a tile that halts. -/

namespace Sys2Proof.Machine

/-! ### Tiles beside other writes -/

@[simp] theorem tileGet_reach (s : State) (k i : Nat) : tileGet (s.reach k) i = tileGet s i := by rw [reach_shape]; rfl
@[simp] theorem tileGet_fincSat (s : State) (p : Nat) (f : Fld) (d i : Nat) : tileGet (s.fincSat p f d) i = tileGet s i := rfl
@[simp] theorem tileGet_capture (s : State) (p code part detail i : Nat) : tileGet (capture s p code part detail) i = tileGet s i := by
  unfold tileGet; rw [capture_facet]
@[simp] theorem tileGet_pageIrq (s : State) (p bits i : Nat) : tileGet (pageIrq s p bits) i = tileGet s i := by rw [pageIrq_shape]; rfl

/-- A state that differs from `s` at most in Plan time and in tile `tile`. -/
def TileTime (s t : State) (tile : Nat) : Prop :=
  t = { s with time := t.time, facet := { s.facet with tiles := t.facet.tiles } } ∧ ∀ i, i ≠ tile → tileGet t i = tileGet s i

/-- A state that differs from `s` at most in registers, in Plan time and in tiles. -/
def TilesRegs (s t : State) : Prop := t = { s with regs := t.regs, time := t.time, facet := { s.facet with tiles := t.facet.tiles } }

section Frames
variable {s t : State} {tile : Nat}

theorem TileTime.refl (s : State) (tile : Nat) : TileTime s s tile := ⟨rfl, fun _ _ => rfl⟩

theorem TileTime.reach (h : TileTime s t tile) (k : Nat) : TileTime s (t.reach k) tile := by
  refine ⟨?_, fun i hi => (tileGet_reach t k i).trans (h.2 i hi)⟩
  rw [reach_shape, h.1]

theorem TileTime.tileSet (h : TileTime s t tile) (x : Tile) : TileTime s (tileSet t tile x) tile := by
  refine ⟨?_, fun i hi => (tileGet_tileSet_ne t x hi).trans (h.2 i hi)⟩
  have hshape := h.1
  unfold Sys2Proof.Machine.tileSet
  rw [hshape]

theorem TilesRegs.of_tileTime (h : TileTime s t tile) : TilesRegs s t := by
  have hshape := h.1
  unfold TilesRegs
  rw [hshape]

theorem TilesRegs.fincSat (h : TilesRegs s t) (p : Nat) (f : Fld) (d : Nat) : TilesRegs s (t.fincSat p f d) := by
  unfold TilesRegs at h ⊢
  rw [h]
  rfl

theorem TilesRegs.tileSet (h : TilesRegs s t) (i : Nat) (x : Tile) : TilesRegs s (tileSet t i x) := by
  unfold TilesRegs at h ⊢
  rw [h]
  rfl

end Frames

/-! ### The phases -/

/-- The PTB reaches the cycle of the Tray, and SPEC.BEGIN opens its level. -/
def trayOpens (s : State) (i : Nat) : State :=
  let u := s.reach (cycleTick s i (tileGet s i).cycle)
  if (tileGet s i).tray.control = some .specBegin then tileSet u i (specOpen (tileGet s i)) else u

/-- SPEC.BEGIN with two levels open (R194). -/
def trayTooDeep (x : Tile) : Bool := x.tray.control == some .specBegin && decide (2 ≤ x.levels.length)

/-- The datum that RECV took becomes a result, unless the Tray's level was squashed. -/
def trayTakes (s : State) (i : Nat) (x : Tile) (red : Redirect) (before : List Nat) (recv : Option (DWord × Option ChanDatum)) : State :=
  match recv with
  | none => s
  | some (w, d) =>
    let squashed := match red with
      | .squash _ => true
      | _ => false
    if squashed && before.any fun k => !(decide (k ∈ (tileGet s i).levels.map (·.id))) then s
    else trayRecv s i { i := i, slot := 7, w := w, imx := 0, x := x } d before

/-- The BR slot's word of the Tray that a tile issues. -/
def trayBr (x : Tile) (i : Nat) : DWord := (fetchTray x i x.next).getD 0 0

/-- Where a taken branch of the Tray goes. -/
def branchTarget (x : Tile) : Option Nat :=
  match x.tray.control with
  | some (.br t) => some t
  | _ => none

/-- What becomes of tile `y` after a Tray that `x` stood in and that does not redirect it. -/
def nextTile (x y : Tile) (i : Nat) : Tile := { (advance y (slotOp (trayBr x i) == 1) (branchTarget x)) with tray := {} }

/-- Where the tile goes on after a Tray that `x` stood in. -/
def trayGoesOn (s : State) (i : Nat) (x : Tile) (red : Redirect) : State :=
  let y := tileGet s i
  match red with
  | .stop code => tileHalt (tileSet s i { y with pc := x.next, cycle := x.cycle + 1, tray := {} }) i code 0
  | .squash t =>
    tileSet s i { y with pc := x.next, next := t, cycle := x.cycle + 6, tray := {}, delay := 0, target := none, regs := closeLoops y.regs t }
  | .none =>
    let y := nextTile x y i
    match x.tray.control with
    | some (.waitBp ph) => tileSet s i { y with wait := some (waitTick s y.cycle ph) }
    | some .halt => tileSet s i { y with running := false, delay := 0, target := none }
    | _ => tileSet s i y

theorem trayEnd_eq (s : State) (i : Nat) :
    let u := traySend (trayStores (trayOpens s i) i) i
    let a := trayControl u i (trayTooDeep (tileGet s i))
    trayEnd s i =
      trayGoesOn (trayTakes a.1 i (tileGet s i) a.2 ((tileGet (trayOpens s i) i).levels.map (·.id)) (tileGet u i).tray.recv) i (tileGet s i) a.2 := rfl

theorem trayStores_none {s : State} {i : Nat} (h : (tileGet s i).tray.stores = []) : trayStores s i = s := by
  have hnone : ((List.range 16).flatMap fun k => (tileGet s i).tray.stores.filter fun t => t.slot = k) = [] := by simp [h]
  unfold trayStores
  dsimp only
  rw [hnone]
  rfl

theorem traySend_none {s : State} {i : Nat} (h : (tileGet s i).tray.send = none) : traySend s i = s := by
  unfold traySend
  simp [h]

theorem trayOpens_same {s : State} {i : Nat} (h : (tileGet s i).tray.control ≠ some .specBegin) :
    trayOpens s i = s.reach (cycleTick s i (tileGet s i).cycle) := if_neg h

/-! ### The next Tray -/

/-- No open loop ends at the Tray that issues. -/
def noLoopEnds (x : Tile) : Prop := ∀ k ∈ x.regs.nest.head?, (x.regs.l.get {} k).last ≠ x.next

theorem noLoopEnds_of_none {x : Tile} (h : x.regs.nest = []) : noLoopEnds x := by simp [noLoopEnds, h]

theorem loopReturn_sequential {x : Tile} (h : noLoopEnds x) : loopReturn x.regs x.next x.regs.nest = (x.regs, x.next + 1) := by
  cases hn : x.regs.nest with
  | nil => rw [loopReturn, ← hn]
  | cons k rest =>
    have hlast : (x.regs.l.get {} k).last ≠ x.next := h k (by simp [hn])
    rw [loopReturn, if_pos hlast, ← hn]

/-- Outside a branch's delay the next Tray follows one without a branch. -/
theorem nextTile_sequential {x y : Tile} {i : Nat} (hop : slotOp (trayBr x i) ≠ 1) (hc : branchTarget x = none) (hl : noLoopEnds y)
    (hd : y.delay = 0) : nextTile x y i = trayOver y := by
  unfold nextTile advance
  dsimp only
  rw [beq_eq_false_iff_ne.mpr hop, hc, if_neg (by simp), if_neg (by simp [hd]), loopReturn_sequential hl]
  simp only [hd, Nat.zero_sub, trayOver]

/-- A branch begins its 5 delay Trays with the Tray that follows (R188). -/
theorem nextTile_branch {x y : Tile} {i : Nat} (hop : slotOp (trayBr x i) = 1) (hl : noLoopEnds y) :
    nextTile x y i = { trayOver y with delay := 5, target := branchTarget x } := by
  unfold nextTile advance
  dsimp only
  rw [beq_iff_eq.mpr hop, if_pos rfl, loopReturn_sequential hl]
  rfl

/-! ### A tile that halts -/

/-- A tile that has halted with a code: every level is dropped, nothing issues or waits (R205). -/
def haltedTile (x : Tile) (code : Nat) : Tile :=
  { dropLevels x with running := false, halted := true, haltCode := code, wait := none, tray := {}, delay := 0, target := none }

theorem tileHalt_eq (s : State) (i code detail : Nat) :
    tileHalt s i code detail = pageIrq (capture (tileSet s i (haltedTile (tileGet s i) code)) (pgFt + i) code 0 detail) (pgFt + i) 1 := rfl

@[simp] theorem tileGet_tileHalt (s : State) (i code detail : Nat) : tileGet (tileHalt s i code detail) i = haltedTile (tileGet s i) code := by
  rw [tileHalt_eq, tileGet_pageIrq, tileGet_capture, tileGet_tileSet_same]

/-- A halt writes what its capture writes. -/
theorem tileHalt_regs (s : State) (i code detail : Nat) : RegsOnly (captureRegs s (pgFt + i) 0) s (tileHalt s i code detail) :=
  RegsOnly.pageIrq (capture_regs (tileSet s i _) (pgFt + i) code 0 detail) (by simp [captureRegs])

/-- With no capture held on its page, a tile that halts shows the code and the detail. -/
theorem tileHalt_captures {s : State} {i code : Nat} (detail : Nat) (h : s.fbit (pgFt + i) F.PG_ERR0_VALID = false) (hc : code < 2 ^ 16) :
    (tileHalt s i code detail).fget (pgFt + i) F.PG_ERR0_CODE = code ∧
      (tileHalt s i code detail).reg (pgFt + i) F.PG_ERR3.off = BitVec.ofNat 32 detail := by
  have hv : (tileSet s i (haltedTile (tileGet s i) code)).fbit (pgFt + i) F.PG_ERR0_VALID = false := h
  rw [tileHalt_eq]
  unfold State.fget
  rw [pageIrq_reg _ _ _ (by decide), pageIrq_reg _ _ _ (by decide), if_neg (by simp), if_neg (by simp)]
  exact ⟨(capture_shows 0 detail hv hc).2, capture_err3 code 0 detail hv⟩

end Sys2Proof.Machine
end

section
/-! SUPPORT. The last slot of a Tray, and the control actions of the BR slot as the Tray ends (R188, R189, R194, R195, R205, R206). -/

namespace Sys2Proof.Machine

/-! ### The last slot -/

/-- The slots of a Tray are all done when the last one is. -/
theorem lastSlot_done {k : Nat} (h : k < 15) : natPutBit (natPutBit 0x7FFF k false) k true = 0x7FFF := by
  revert k
  decide

/-- The last slot of a Tray ends it. -/
theorem runSlot_last {s t : State} {tile k op : Nat} {cls : SlotClass} {f : State → Ctx → State × SlotFx} {fx : SlotFx} (h : SlotLast s tile k cls op)
    (hf : f s (slotCtx s tile k) = (t, fx)) (ht : (tileGet t tile).tray = (tileGet s tile).tray) :
    runSlot s tile k cls op f = trayEnd (tileSet t tile (slotTile (tileGet t tile) k fx)) tile := by
  obtain ⟨hruns, htray, -⟩ := h
  have hdone : natPutBit (tileGet t tile).tray.done k true = 0x7FFF := by
    rw [ht, htray]
    exact lastSlot_done hruns.2.1
  rw [runSlot_runs f hruns, hf]
  exact (slotDone_eq ..).trans (if_pos hdone)

/-- A tile at the end of a Tray whose only action is a control action. -/
def lastTile (x : Tile) (ctl : Option Control) : Tile := { x with tray := { done := 0x7FFF, control := ctl } }

theorem slotTile_control {x : Tile} {k : Nat} (ctl : Option Control) (hk : k < 15) (h : x.tray = { done := natPutBit 0x7FFF k false }) :
    slotTile x k { control := ctl } = lastTile x ctl := by
  unfold slotTile lastTile
  simp [h, lastSlot_done hk]

/-- The state in which that Tray ends: the PTB has reached its cycle. -/
def lastState (s : State) (tile : Nat) (ctl : Option Control) : State :=
  (tileSet s tile (lastTile (tileGet s tile) ctl)).reach (cycleTick s tile (tileGet s tile).cycle)

@[simp] theorem lastState_tile (s : State) (tile : Nat) (ctl : Option Control) :
    tileGet (lastState s tile ctl) tile = lastTile (tileGet s tile) ctl := by simp [lastState]

theorem lastState_tileTime (s : State) (tile : Nat) (ctl : Option Control) : TileTime s (lastState s tile ctl) tile :=
  ((TileTime.refl s tile).tileSet _).reach _

@[simp] theorem lastState_reg (s : State) (tile : Nat) (ctl : Option Control) (p o : Nat) : (lastState s tile ctl).reg p o = s.reg p o := by
  simp [lastState]
@[simp] theorem lastState_fget (s : State) (tile : Nat) (ctl : Option Control) (p : Nat) (f : Fld) : (lastState s tile ctl).fget p f = s.fget p f := by
  simp [lastState]
@[simp] theorem lastState_fbit (s : State) (tile : Nat) (ctl : Option Control) (p : Nat) (f : Fld) : (lastState s tile ctl).fbit p f = s.fbit p f := by
  simp [lastState]

/-- The grid of base periods does not move with the PTB. -/
theorem waitTick_lastState (s : State) (tile : Nat) (ctl : Option Control) (c ph : Nat) : waitTick (lastState s tile ctl) c ph = waitTick s c ph := by
  unfold lastState
  rw [reach_shape]
  rfl

/-- A Tray that neither stores, sends nor receives ends with its control action. -/
theorem trayEnd_control {s : State} {i : Nat} {x : Tile} (hx : tileGet s i = x) (hs : x.tray.stores = []) (hm : x.tray.send = none)
    (hr : x.tray.recv = none) (hb : x.tray.control ≠ some .specBegin) :
    let a := trayControl (s.reach (cycleTick s i x.cycle)) i false
    trayEnd s i = trayGoesOn a.1 i x a.2 := by
  subst hx
  have hopen := trayOpens_same hb
  have hdeep : trayTooDeep (tileGet s i) = false := by simp [trayTooDeep, hb]
  rw [trayEnd_eq, hopen, trayStores_none (by simpa using hs), traySend_none (by simpa using hm), tileGet_reach, hr, hdeep]
  rfl

theorem runSlot_control {s : State} {tile op : Nat} {f : Ctx → SlotFx} {ctl : Option Control} (h : SlotLast s tile 0 .br op)
    (hf : f (slotCtx s tile 0) = { control := ctl }) (hb : ctl ≠ some .specBegin) :
    let a := trayControl (lastState s tile ctl) tile false
    runSlot s tile 0 .br op (pureSlot f) = trayGoesOn a.1 tile (lastTile (tileGet s tile) ctl) a.2 := by
  rw [runSlot_last h (congrArg (Prod.mk s) hf) rfl, slotTile_control ctl (by decide) h.2.1,
    trayEnd_control (tileGet_tileSet_same ..) rfl rfl rfl hb]
  rfl

/-! ### Where the tile goes on -/

/-- Without a wait or a halt the tile goes on with the next Tray. -/
theorem trayGoesOn_next {s : State} {i : Nat} {x y : Tile} (hy : nextTile x (tileGet s i) i = y) (hw : ∀ ph, x.tray.control ≠ some (.waitBp ph))
    (hh : x.tray.control ≠ some .halt) : trayGoesOn s i x .none = tileSet s i y := by
  unfold trayGoesOn
  dsimp only
  rw [hy]
  split
  · exact absurd ‹_› (hw _)
  · exact absurd ‹_› hh
  · rfl

theorem trayGoesOn_wait {s : State} {i ph : Nat} {x y : Tile} (hy : nextTile x (tileGet s i) i = y) (hc : x.tray.control = some (.waitBp ph)) :
    trayGoesOn s i x .none = tileSet s i { y with wait := some (waitTick s y.cycle ph) } := by
  unfold trayGoesOn
  simp only [hc, hy]

theorem trayGoesOn_halt {s : State} {i : Nat} {x y : Tile} (hy : nextTile x (tileGet s i) i = y) (hc : x.tray.control = some .halt) :
    trayGoesOn s i x .none = tileSet s i { y with running := false, delay := 0, target := none } := by
  unfold trayGoesOn
  simp only [hc, hy]

end Sys2Proof.Machine
end

section
/-! SUPPORT. The control actions of a Tray (R188, R189, R194, R195, R206), each as the last slot of its Tray. -/

namespace Sys2Proof.Machine

section Actions
variable {s : State} {tile op : Nat} {f : Ctx → SlotFx} {ctl : Option Control}

/-- The word of the last slot that is the BR slot. -/
theorem lastSlot_op (h : SlotLast s tile 0 .br op) : slotOp (trayBr (tileGet s tile) tile) = op := h.1.2.2.2.1

theorem lastSlot_straight {k : Nat} {cls : SlotClass} (h : SlotLast s tile k cls op) :
    (tileGet s tile).delay = 0 ∧ (tileGet s tile).target = none ∧ (tileGet s tile).regs.nest = [] := by
  obtain ⟨-, -, hdelay, htarget, hnest, -⟩ := h
  exact ⟨hdelay, htarget, hnest⟩

theorem controlFx_pass {strict : Bool} (act : Ctx → Control) {c : Ctx} (h : c.guard 0 = .pass) :
    controlFx strict act c = { control := some (act c) } := by unfold controlFx; rw [h]

theorem controlFx_fail {strict : Bool} (act : Ctx → Control) {c : Ctx} (h : c.guard 0 = .fail) : controlFx strict act c = {} := by
  unfold controlFx; rw [h]

/-- A poisoned guard halts the tile where the action would redirect it (R206). -/
theorem controlFx_poisoned (act : Ctx → Control) {c : Ctx} (h : c.guard 0 = .poisoned) :
    controlFx true act c = { control := some .poisoned } := by unfold controlFx; rw [h]; rfl

/-! ### Branches, waits and halts -/

/-- Actions that change nothing of the tile but where it goes on. -/
def Control.turns : Control → Bool
  | .br _ | .waitBp _ | .halt => true
  | _ => false

theorem trayControl_turns {u : State} {i : Nat} (d : Bool) (h : ∀ c ∈ (tileGet u i).tray.control, c.turns = true) :
    trayControl u i d = (u, .none) := by
  unfold trayControl
  dsimp only
  split <;> simp_all [Control.turns]

theorem runSlot_turns (h : SlotLast s tile 0 .br op) (hf : f (slotCtx s tile 0) = { control := ctl }) (hc : ∀ c ∈ ctl, c.turns = true) :
    runSlot s tile 0 .br op (pureSlot f) = trayGoesOn (lastState s tile ctl) tile (lastTile (tileGet s tile) ctl) .none := by
  have hb : ctl ≠ some .specBegin := fun e => absurd (hc _ e) (by decide)
  have hact : trayControl (lastState s tile ctl) tile false = (lastState s tile ctl, .none) :=
    trayControl_turns false (by rw [lastState_tile]; exact hc)
  rw [runSlot_control h hf hb, hact]

theorem runSlot_branch (target : Option Nat) (h : SlotLast s tile 0 .br 1) (hf : f (slotCtx s tile 0) = { control := target.map .br }) :
    let t := runSlot s tile 0 .br 1 (pureSlot f)
    TileTime s t tile ∧
      tileGet t tile = { trayOver (tileGet s tile) with delay := 5, target := target } := by
  dsimp only
  have hnext := nextTile_branch (x := lastTile (tileGet s tile) (target.map .br)) (y := lastTile (tileGet s tile) (target.map .br)) (lastSlot_op h)
    (noLoopEnds_of_none (lastSlot_straight h).2.2)
  rw [runSlot_turns h hf (by cases target <;> simp [Control.turns]), trayGoesOn_next ((congrArg (nextTile _ · tile) (lastState_tile ..)).trans hnext)
    (by cases target <;> simp [lastTile]) (by cases target <;> simp [lastTile])]
  refine ⟨(lastState_tileTime s tile _).tileSet _, (tileGet_tileSet_same ..).trans ?_⟩
  cases target <;> rfl

/-- Without a branch, in or before it, the Tray is followed by the next one. -/
theorem nextTile_last (h : SlotLast s tile 0 .br op) (hop : op ≠ 1) (hc : branchTarget (lastTile (tileGet s tile) ctl) = none) :
    nextTile (lastTile (tileGet s tile) ctl) (tileGet (lastState s tile ctl) tile) tile = trayOver (tileGet s tile) := by
  rw [lastState_tile]
  exact nextTile_sequential (by rw [← lastSlot_op h] at hop; exact hop) hc (noLoopEnds_of_none (lastSlot_straight h).2.2) (lastSlot_straight h).1

theorem runSlot_wait {ph : Nat} (h : SlotLast s tile 0 .br 3) (hf : f (slotCtx s tile 0) = { control := some (.waitBp ph) }) :
    let t := runSlot s tile 0 .br 3 (pureSlot f)
    TileTime s t tile ∧
      tileGet t tile = { trayOver (tileGet s tile) with wait := some (waitTick s ((tileGet s tile).cycle + 1) ph) } := by
  dsimp only
  rw [runSlot_turns h hf (by simp [Control.turns]), trayGoesOn_wait (nextTile_last h (by decide) rfl) rfl, waitTick_lastState]
  exact ⟨(lastState_tileTime s tile _).tileSet _, tileGet_tileSet_same ..⟩

theorem runSlot_halt (h : SlotLast s tile 0 .br 4) (hf : f (slotCtx s tile 0) = { control := some .halt }) :
    let t := runSlot s tile 0 .br 4 (pureSlot f)
    TileTime s t tile ∧ tileGet t tile = { trayOver (tileGet s tile) with running := false } := by
  dsimp only
  rw [runSlot_turns h hf (by simp [Control.turns]), trayGoesOn_halt (nextTile_last h (by decide) rfl) rfl]
  refine ⟨(lastState_tileTime s tile _).tileSet _, (tileGet_tileSet_same ..).trans ?_⟩
  simp only [trayOver, (lastSlot_straight h).1, (lastSlot_straight h).2.1]

/-- A poisoned branch halts the tile with POISON_CONTROL. -/
theorem runSlot_poisoned (h : SlotLast s tile 0 .br op) (hf : f (slotCtx s tile 0) = { control := some .poisoned })
    (hv : s.fbit (pgFt + tile) F.PG_ERR0_VALID = false) :
    let t := runSlot s tile 0 .br op (pureSlot f)
    (tileGet t tile).halted = true ∧ (tileGet t tile).running = false ∧
      (tileGet t tile).haltCode = 0x0602 ∧ t.fget (pgFt + tile) F.PG_ERR0_CODE = 0x0602 := by
  dsimp only
  have hact : trayControl (lastState s tile (some .poisoned)) tile false = (lastState s tile (some .poisoned), .stop 0x0602) := by
    unfold trayControl
    rw [lastState_tile]
    rfl
  rw [runSlot_control h hf (by decide), hact]
  unfold trayGoesOn
  dsimp only
  rw [tileGet_tileHalt]
  refine ⟨rfl, rfl, rfl, (tileHalt_captures 0 ?_ (by decide)).1⟩
  rw [tileSet_fbit, lastState_fbit, hv]

/-- An action that does not turn the tile leaves it, as the action left it, with the next Tray. -/
theorem trayGoesOn_last {u : State} {y : Tile} (h : SlotLast s tile 0 .br op) (hop : op ≠ 1) (ht : ∀ c ∈ ctl, c.turns = false) (hl : noLoopEnds y)
    (hd : y.delay = 0) :
    trayGoesOn (tileSet u tile y) tile (lastTile (tileGet s tile) ctl) .none = tileSet (tileSet u tile y) tile (trayOver y) := by
  have hbr : slotOp (trayBr (lastTile (tileGet s tile) ctl) tile) ≠ 1 := by
    rw [← lastSlot_op h] at hop
    exact hop
  have htarget : branchTarget (lastTile (tileGet s tile) ctl) = none := by
    unfold branchTarget lastTile
    split
    · exact absurd (ht _ ‹_›) (by simp [Control.turns])
    · rfl
  refine trayGoesOn_next ?_ (fun ph e => absurd (ht _ e) (by simp [Control.turns])) fun e => absurd (ht _ e) (by simp [Control.turns])
  rw [tileGet_tileSet_same]
  exact nextTile_sequential hbr htarget hl hd

/-! ### Loops -/

/-- A tile whose Tray has opened a loop outside every other (R188). -/
def loopOpened (x : Tile) (k target count : Nat) : Tile :=
  { x with regs := { x.regs with l := x.regs.l.set {} k { left := count, first := x.next + 1, last := target }, nest := [k] } }

/-- A loop does not end at the Tray that opens it. -/
theorem loopOpened_inside {x : Tile} {k target : Nat} (count : Nat) (h : x.next < target) : noLoopEnds (loopOpened x k target count) := by
  simp [noLoopEnds, loopOpened, h.ne']

theorem trayControl_loopSet {i k target count : Nat} {x : Tile} (d : Bool) (hx : tileGet s i = x)
    (hc : x.tray.control = some (.loopSet k target count)) (hn : x.regs.nest = []) :
    trayControl s i d = (tileSet s i (loopOpened x k target count), .none) := by
  subst hx
  unfold trayControl
  simp [hc, hn, loopOpened]

theorem runSlot_loop {k target count : Nat} (h : SlotLast s tile 0 .br 2) (hf : f (slotCtx s tile 0) = { control := some (.loopSet k target count) })
    (ht : (tileGet s tile).next < target) :
    let t := runSlot s tile 0 .br 2 (pureSlot f)
    TileTime s t tile ∧
      tileGet t tile = trayOver (loopOpened (tileGet s tile) k target count) := by
  dsimp only
  obtain ⟨hdelay, -, hnest⟩ := lastSlot_straight h
  rw [runSlot_control h hf (by simp), trayControl_loopSet false (lastState_tile ..) rfl hnest,
    trayGoesOn_last h (by decide) (by simp [Control.turns]) (by exact loopOpened_inside count ht) (by exact hdelay)]
  exact ⟨((lastState_tileTime s tile _).tileSet _).tileSet _, tileGet_tileSet_same ..⟩

/-! ### Speculation -/

theorem trayControl_begin {i : Nat} (hc : (tileGet s i).tray.control = some .specBegin) : trayControl s i false = (s, .none) := by
  unfold trayControl
  simp [hc]

theorem specOpen_tray (x : Tile) : (specOpen x).tray = x.tray := by unfold specOpen; split <;> rfl

/-- With less than two levels open SPEC.BEGIN opens one before the Tray's stores and control (R194). -/
theorem trayEnd_begin {x : Tile} (hx : tileGet s tile = x) (hs : x.tray.stores = []) (hm : x.tray.send = none) (hr : x.tray.recv = none)
    (hc : x.tray.control = some .specBegin) (hl : x.levels.length < 2) :
    trayEnd s tile = trayGoesOn (tileSet (s.reach (cycleTick s tile x.cycle)) tile (specOpen x)) tile x .none := by
  subst hx
  have hopen : trayOpens s tile = tileSet (s.reach (cycleTick s tile (tileGet s tile).cycle)) tile (specOpen (tileGet s tile)) := if_pos hc
  have hdeep : trayTooDeep (tileGet s tile) = false := by simp [trayTooDeep, hl]
  rw [trayEnd_eq, hopen, trayStores_none (by simp [specOpen_tray, hs]), traySend_none (by simp [specOpen_tray, hm]), tileGet_tileSet_same,
    specOpen_tray, hr, hdeep, trayControl_begin (by simp [specOpen_tray, hc])]
  rfl

theorem runSlot_begin (h : SlotLast s tile 0 .br 0x10) (hf : f (slotCtx s tile 0) = { control := some .specBegin }) (hl : (tileGet s tile).levels = []) :
    let t := runSlot s tile 0 .br 0x10 (pureSlot f)
    TileTime s t tile ∧ tileGet t tile = trayOver (specOpen (tileGet s tile)) := by
  dsimp only
  obtain ⟨hdelay, -, hnest⟩ := lastSlot_straight h
  rw [runSlot_last h (congrArg (Prod.mk s) hf) rfl, slotTile_control _ (by decide) h.2.1,
    trayEnd_begin (tileGet_tileSet_same ..) rfl rfl rfl rfl (by simp [lastTile, hl]),
    trayGoesOn_last h (by decide) (by simp [Control.turns]) (by exact noLoopEnds_of_none (by simp [specOpen, lastTile, hl, hnest]))
      (by simp [specOpen, lastTile, hl, hdelay])]
  refine ⟨((((TileTime.refl s tile).tileSet _).reach _).tileSet _).tileSet _, (tileGet_tileSet_same ..).trans ?_⟩
  simp [specOpen, lastTile, hl, trayOver]

/-- A saturating count rises by one up to the top of its field. -/
theorem fget_fincSat_same (s : State) (p : Nat) (f : Fld) (d : Nat) (h : f.lo + f.wid ≤ 32) :
    (s.fincSat p f d).fget p f = min (s.fget p f + d) (2 ^ f.wid - 1) := by
  have hpos := Nat.two_pow_pos f.wid
  rw [State.fincSat, fget_fset_same _ _ _ _ h, satAdd]
  exact Nat.mod_eq_of_lt (by omega)

theorem RegsOnly.fincSat {ws : List (Nat × Nat)} {t : State} {p d : Nat} {g : Fld} (h : RegsOnly ws s t) (hp : (p, g.off) ∈ ws) (ho : g.off < 4096) :
    RegsOnly ws s (t.fincSat p g d) := h.fset hp ho

theorem lastState_regs (s : State) (tile : Nat) (ctl : Option Control) (ws : List (Nat × Nat)) : RegsOnly ws s (lastState s tile ctl) :=
  fun p o _ _ => lastState_reg s tile ctl p o

theorem trayControl_commit {i target : Nat} {x : Tile} {l : Level} (d : Bool) (hx : tileGet s i = x) (hc : x.tray.control = some (.specCommit 1 target))
    (hl : x.levels = [l]) (ho : l.overflow = false) :
    trayControl s i d = (tileSet (s.fincSat (pgFt + i) F.FT_SPEC_CNT_COMMITS 1) i (commitFirst x l), .none) := by
  subst hx
  unfold trayControl
  simp [hc, doCommit, hl, ho]

/-- SPEC.COMMIT of the one open level keeps the registers, and its stores become committed. -/
theorem runSlot_commit {l : Level} {target : Nat} (h : SlotLast s tile 0 .br 0x11)
    (hf : f (slotCtx s tile 0) = { control := some (.specCommit 1 target) }) (hl : (tileGet s tile).levels = [l]) (ho : l.overflow = false) :
    let t := runSlot s tile 0 .br 0x11 (pureSlot f)
    TilesRegs s t ∧ RegsOnly [(pgFt + tile, F.FT_SPEC_CNT_COMMITS.off)] s t ∧
      t.fget (pgFt + tile) F.FT_SPEC_CNT_COMMITS = min (s.fget (pgFt + tile) F.FT_SPEC_CNT_COMMITS + 1) 0xFFFF ∧
      tileGet t tile = trayOver (commitFirst (tileGet s tile) l) := by
  dsimp only
  obtain ⟨hdelay, -, hnest⟩ := lastSlot_straight h
  rw [runSlot_control h hf (by simp), trayControl_commit false (lastState_tile ..) rfl hl ho,
    trayGoesOn_last h (by decide) (by simp [Control.turns]) (by exact noLoopEnds_of_none hnest) (by exact hdelay)]
  refine ⟨(((TilesRegs.of_tileTime (lastState_tileTime s tile _)).fincSat ..).tileSet ..).tileSet .., ?_, ?_, tileGet_tileSet_same ..⟩
  · exact (lastState_regs s tile _ _).fincSat (by simp) (by decide)
  · rw [tileSet_fget, tileSet_fget, fget_fincSat_same _ _ _ _ (by decide), lastState_fget]
    rfl

theorem trayControl_squash {i target : Nat} {x : Tile} {l : Level} (d : Bool) (hx : tileGet s i = x) (hc : x.tray.control = some (.specSquash 1 target))
    (hl : x.levels = [l]) :
    trayControl s i d = (tileSet (s.fincSat (pgFt + i) F.FT_SPEC_CNT_SQUASHES 1) i (squashFrom x 1), .squash target) := by
  subst hx
  unfold trayControl
  simp [hc, doSquash, hl]

/-- A squash of the one open level drops the stores and the results that belong to it. -/
theorem squashFrom_only {x : Tile} {l : Level} (hl : x.levels = [l]) :
    squashFrom x 1 = { x with
      regs := l.bank, levels := []
      ssb := x.ssb.filter fun e => decide (e.level ≠ some l.id), results := x.results.filter fun r => decide (l.id ∉ r.levels) } := by
  simp only [squashFrom, hl, Nat.sub_self, List.getElem?_cons_zero, List.drop_zero, List.take_zero, List.map_cons, List.map_nil, List.mem_singleton,
    Tile.mk.injEq, true_and, and_true]
  refine ⟨List.filter_congr fun r _ => ?_, List.filter_congr fun e _ => ?_⟩
  · rw [Bool.eq_iff_iff]
    simp only [Bool.not_eq_true', List.any_eq_false, decide_eq_true_eq]
    exact ⟨fun h hm => h _ hm rfl, fun h x hx e => h (e ▸ hx)⟩
  · cases he : e.level <;> simp

/-- SPEC.SQUASH of the one open level restores its bank; the tile goes on at the target 6 cycles later. -/
theorem runSlot_squash {l : Level} {target : Nat} (h : SlotLast s tile 0 .br 0x12)
    (hf : f (slotCtx s tile 0) = { control := some (.specSquash 1 target) }) (hl : (tileGet s tile).levels = [l]) :
    let t := runSlot s tile 0 .br 0x12 (pureSlot f)
    TilesRegs s t ∧ RegsOnly [(pgFt + tile, F.FT_SPEC_CNT_SQUASHES.off)] s t ∧
      t.fget (pgFt + tile) F.FT_SPEC_CNT_SQUASHES = min (s.fget (pgFt + tile) F.FT_SPEC_CNT_SQUASHES + 1) 0xFFFF ∧
      tileGet t tile = { tileGet s tile with
        pc := (tileGet s tile).next, next := target, cycle := (tileGet s tile).cycle + 6, tray := {}, regs := closeLoops l.bank target, levels := []
        ssb := (tileGet s tile).ssb.filter fun e => decide (e.level ≠ some l.id)
        results := (tileGet s tile).results.filter fun r => decide (l.id ∉ r.levels) } := by
  dsimp only
  obtain ⟨hdelay, htarget, -⟩ := lastSlot_straight h
  rw [runSlot_control h hf (by simp), trayControl_squash false (lastState_tile ..) rfl hl, squashFrom_only (x := lastTile _ _) hl]
  unfold trayGoesOn
  dsimp only
  rw [tileGet_tileSet_same]
  refine ⟨(((TilesRegs.of_tileTime (lastState_tileTime s tile _)).fincSat ..).tileSet ..).tileSet .., ?_, ?_, (tileGet_tileSet_same ..).trans ?_⟩
  · exact (lastState_regs s tile _ _).fincSat (by simp) (by decide)
  · rw [tileSet_fget, tileSet_fget, fget_fincSat_same _ _ _ _ (by decide), lastState_fget]
    rfl
  · simp only [lastTile, hdelay, htarget]

end Actions

/-- Settles O43: each action is what `trayControl` makes of it, and the tile goes on by `trayGoesOn`. -/
theorem slotControl : Obligations.SlotControl := by
  unfold Obligations.SlotControl
  intro s tile
  refine ⟨fun h => ⟨fun hg => ?_, fun hg => ?_, fun hg hv => ?_⟩, fun hg => ⟨fun h ht => ?_, fun h => ?_, fun h => ?_, fun h hl => ?_,
    fun l hl hloop => ⟨fun h ho => ?_, fun h => ?_⟩⟩⟩
  · exact ⟨_, rfl, runSlot_branch (some _) h (controlFx_pass _ hg)⟩
  · obtain ⟨honly, htile⟩ := runSlot_branch none h (controlFx_fail (strict := true) (fun c => .br (brTarget c.w)) hg)
    refine ⟨_, rfl, honly, htile.trans ?_⟩
    rw [← (lastSlot_straight h).2.1]
    rfl
  · exact ⟨_, rfl, runSlot_poisoned h (controlFx_poisoned _ hg) hv⟩
  · exact ⟨_, rfl, runSlot_loop h (controlFx_pass _ hg) ht⟩
  · exact ⟨_, rfl, runSlot_wait h (controlFx_pass _ hg)⟩
  · exact ⟨_, rfl, runSlot_halt h (controlFx_pass _ hg)⟩
  · obtain ⟨honly, htile⟩ := runSlot_begin h (controlFx_pass (strict := true) (fun _ => .specBegin) hg) hl
    refine ⟨_, rfl, honly, htile.trans ?_⟩
    simp [trayOver, specOpen, hl]
  · have hact := (controlFx_pass (strict := true) (fun c => .specCommit (brK c.w) (brTarget c.w)) hg).trans (by rw [brK, hloop])
    obtain ⟨hshape, hregs, hcount, htile⟩ := runSlot_commit h hact hl ho
    refine ⟨_, rfl, hshape, hregs, hcount, htile.trans ?_⟩
    simp [trayOver, commitFirst, hl]
  · have hact := (controlFx_pass (strict := true) (fun c => .specSquash (brK c.w) (brTarget c.w)) hg).trans (by rw [brK, hloop])
    exact ⟨_, rfl, runSlot_squash h hact hl⟩

end Sys2Proof.Machine
end

section
/-! SUPPORT. Programs, arrivals, results, drains and the diagnostic port of a Facet tile (R185, R187, R191, R196, R197, R199, R204, R210). -/

namespace Sys2Proof.Machine

/-! ### Captures on a tile's page -/

/-- The registers that a capture writes lie where NEXT of the partition's log stands. -/
theorem captureRegs_congr {s t : State} (p part : Nat)
    (h : t.fget (pgPart + part) F.PART_LOG_STAT_NEXT = s.fget (pgPart + part) F.PART_LOG_STAT_NEXT) : captureRegs t p part = captureRegs s p part := by
  simp only [captureRegs, h]

/-- A Facet tile's page is no partition's. -/
theorem ft_ne_part (i : Nat) : pgFt + i ≠ pgPart + 0 := by simp only [pgFt, pgPart]; omega

/-! ### Starts and waits -/

/-- A program starts at the Tray and the cycle that its plan gives (R187). -/
theorem execProgramStart_starts {s : State} {tile tick pos : Nat} {e : PlanTile} (hpos : tilePos s tile = some pos) (hplan : planTile s pos = some e)
    (ht : tile < s.var.facetTiles) (hv : (s.time.copies.get {} tile).valid = true) (h4 : tick % 4 = 0) (he : s.time.epochTick ≤ tick)
    (hphase : (tick - s.time.epochTick) % s.time.period = e.startTick) (htray : e.startTray < tileTrays s tile)
    (hout : s.fbit (pgFt + tile) F.PG_STAT_OUT_OF_SERVICE = false) :
    execProgramStart tile tick s = .next (tileSet (s.reach (cycleTick s tile (5 * tick / 4))) tile
      { tileGet s tile with
        running := true, halted := false, next := e.startTray, cycle := 5 * tick / 4, tray := {}, delay := 0, target := none, wait := none }) := by
  unfold execProgramStart
  simp only [hpos, hplan]
  rw [if_pos ⟨ht, hv, h4, he, hphase, htray, hout⟩]

theorem execWaitBpResume_resumes {s : State} {tile w : Nat} (hw : (tileGet s tile).wait = some w) (hr : (tileGet s tile).running = true)
    (hv : (s.time.copies.get {} tile).valid = true) :
    execWaitBpResume tile s =
      .next (tileSet (s.reach (cycleTick s tile (5 * w / 4))) tile { tileGet s tile with wait := none, cycle := 5 * w / 4 }) := by
  unfold execWaitBpResume
  simp only [hw]
  rw [if_pos ⟨hr, hv⟩]

/-! ### Arrivals -/

theorem reach_posTile (s : State) (k p : Nat) : posTile (s.reach k) p = posTile s p := by
  rw [reach_shape]
  rfl

theorem reach_tickCycle (s : State) (k i tick : Nat) : tickCycle (s.reach k) i tick = tickCycle s i tick := by
  unfold tickCycle
  rw [reach_copies]

/-- The channel of a datum with the datum in it, as it arrives at a tick (R191). -/
def datumTile (s : State) (tick i : Nat) (d : MeshDatum) : Tile :=
  { tileGet s i with chans := (tileGet s i).chans.ins d.chan { lanes := d.lanes, spec := d.spec, cycle := tickCycle s i tick } }

/-- The state in which the n-th datum on its way has reached its channel. -/
def datumArrived (s : State) (n tick i : Nat) (d : MeshDatum) : State :=
  tileSet { s.reach tick with facet := { (s.reach tick).facet with mesh := (s.reach tick).facet.mesh.eraseIdx n } } i (datumTile (s.reach tick) tick i d)

section Arrival
variable {s : State} {n tick i : Nat} {d : MeshDatum}

/-- A datum for a channel that holds one replaces it with MESH_OVERRUN. -/
theorem execMeshDatumArrive_reaches (hd : s.facet.mesh[n]? = some d) (hp : posTile s d.pos = some i) :
    execMeshDatumArrive n tick s = .next
      (if ((tileGet s i).chans.find? d.chan).isSome then
        capture ((datumArrived s n tick i d).fincSat (pgFt + i) F.FT_EVT_CNT_OVERRUN 1) (pgFt + i) 0x0603 0 d.chan
      else datumArrived s n tick i d) := by
  have hmesh : (s.reach tick).facet.mesh[n]? = some d := by rw [reach_shape]; exact hd
  have hpos : posTile { s.reach tick with facet := { (s.reach tick).facet with mesh := (s.reach tick).facet.mesh.eraseIdx n } } d.pos = some i :=
    (reach_posTile s tick d.pos).trans hp
  unfold execMeshDatumArrive
  simp only [hmesh, hpos]
  rw [← tileGet_reach s tick i]
  rfl

theorem datumArrived_tile (s : State) (n tick i : Nat) (d : MeshDatum) : tileGet (datumArrived s n tick i d) i = datumTile s tick i d := by
  refine (tileGet_tileSet_same ..).trans ?_
  unfold datumTile
  rw [tileGet_reach, reach_tickCycle]

theorem datumArrived_others (s : State) (n tick : Nat) {i k : Nat} (d : MeshDatum) (h : k ≠ i) : tileGet (datumArrived s n tick i d) k = tileGet s k :=
  (tileGet_tileSet_ne _ _ h).trans (tileGet_reach ..)

theorem datumArrived_shape (s : State) (n tick i : Nat) (d : MeshDatum) :
    datumArrived s n tick i d = { s with
      time := (datumArrived s n tick i d).time
      facet := { s.facet with tiles := (datumArrived s n tick i d).facet.tiles, mesh := s.facet.mesh.eraseIdx n } } := by
  unfold datumArrived
  rw [reach_shape]
  rfl

theorem datumArrived_reg (s : State) (n tick i : Nat) (d : MeshDatum) (p o : Nat) : (datumArrived s n tick i d).reg p o = s.reg p o := reach_reg ..
theorem datumArrived_fget (s : State) (n tick i : Nat) (d : MeshDatum) (p : Nat) (f : Fld) : (datumArrived s n tick i d).fget p f = s.fget p f := reach_fget ..

theorem overrun_shows (n tick : Nat) (d : MeshDatum) (hv : s.fbit (pgFt + i) F.PG_ERR0_VALID = false) :
    let t := capture ((datumArrived s n tick i d).fincSat (pgFt + i) F.FT_EVT_CNT_OVERRUN 1) (pgFt + i) 0x0603 0 d.chan
    RegsOnly ((pgFt + i, F.FT_EVT_CNT_OVERRUN.off) :: captureRegs s (pgFt + i) 0) s t ∧
      t.fget (pgFt + i) F.FT_EVT_CNT_OVERRUN = min (s.fget (pgFt + i) F.FT_EVT_CNT_OVERRUN + 1) (2 ^ F.FT_EVT_CNT_OVERRUN.wid - 1) ∧
      t.fget (pgFt + i) F.PG_ERR0_CODE = 0x0603 := by
  intro t
  let u := (datumArrived s n tick i d).fincSat (pgFt + i) F.FT_EVT_CNT_OVERRUN 1
  have hcount : RegsOnly [(pgFt + i, F.FT_EVT_CNT_OVERRUN.off)] s u :=
    RegsOnly.fincSat (fun p o _ _ => datumArrived_reg s n tick i d p o) (by simp) (by decide)
  have hnext : captureRegs u (pgFt + i) 0 = captureRegs s (pgFt + i) 0 :=
    captureRegs_congr _ 0 (hcount.fget (by decide) (by simp))
  have hcap := capture_regs u (pgFt + i) 0x0603 0 d.chan
  refine ⟨(hcount.mono (by simp)).trans ((hnext ▸ hcap).mono fun _ hx => List.mem_cons_of_mem _ hx), ?_, ?_⟩
  · have hpage := ft_ne_part i
    rw [hcap.fget (by decide) (by simp [captureRegs, hpage]), fget_fincSat_same _ _ _ _ (by decide), datumArrived_fget]
  · refine (capture_shows 0 d.chan ?_ (by decide)).2
    unfold State.fbit at hv ⊢
    rw [hcount.fget (by decide) (by simp), hv]

end Arrival

/-! ### Results -/

/-- A fold that takes the lesser due cycle ends with a cycle that no result is due before. -/
theorem foldl_due_first {g : Option Nat → Result → Option Nat} (hg : ∀ d q, g (some d) q = some (min d q.due)) {d : Nat} {rest : List Result}
    (h : ∀ q ∈ rest, d < q.due) : rest.foldl g (some d) = some d := by
  induction rest with
  | nil => rfl
  | cons q rest ih =>
    rw [List.foldl_cons, hg, min_eq_left (h q List.mem_cons_self).le]
    exact ih fun q' hq => h q' (List.mem_cons_of_mem _ hq)

section Landing
variable {s : State} {tile : Nat} {r : Result} {rest : List Result}

/-- The one result that is due first lands alone (R186). -/
theorem due_alone (h : ∀ q ∈ rest, r.due < q.due) :
    ((r :: rest).filter fun q => q.due = r.due) = [r] ∧ ((r :: rest).filter fun q => q.due ≠ r.due) = rest := by
  have hne : ∀ q ∈ rest, q.due ≠ r.due := fun q hq => (h q hq).ne'
  constructor
  · simpa using hne
  · rw [List.filter_cons_of_neg (by simp), List.filter_eq_self]
    simpa using hne

theorem orderResults_single (r : Result) : orderResults [r] = [r] := rfl

/-- A result that lands alone meets no other in a register. -/
theorem clashes_single (r : Result) : clashes [] [r] = 0 := by simp [clashes]

theorem execResultWriteback_lands (hr : (tileGet s tile).results = r :: rest) (h : ∀ q ∈ rest, r.due < q.due)
    (hgo : r.due ≤ (tileGet s tile).cycle ∨ (tileGet s tile).running = false) :
    execResultWriteback tile s =
      .next (tileSet (s.fincSat (pgFt + tile) F.FT_EVT_CNT_CLASH 0) tile (landResult { tileGet s tile with results := rest } r)) := by
  obtain ⟨hnow, hlater⟩ := due_alone h
  have hcond : r.due ≤ (tileGet s tile).cycle ∨ ¬ (tileGet s tile).running = true ∨ (tileGet s tile).wait.isSome = true :=
    hgo.imp_right fun hrun => .inl (by simp [hrun])
  unfold execResultWriteback
  simp only [hr, List.foldl_cons]
  rw [foldl_due_first (fun _ _ => rfl) h]
  dsimp only
  rw [if_pos hcond, hnow, hlater, orderResults_single, clashes_single]
  rfl

/-- A field that is given its own value leaves its word. -/
theorem putBits_bitsOf_same (x : Word) (lo wid : Nat) : putBits x lo wid (bitsOf x lo wid) = x := by
  apply BitVec.eq_of_getLsbD_eq
  intro i hi
  simp only [putBits, bitsOf, BitVec.getLsbD_or, BitVec.getLsbD_and, BitVec.getLsbD_not, BitVec.getLsbD_ofNat, hi, decide_true, Bool.true_and,
    Nat.testBit_shiftLeft, Nat.testBit_two_pow_sub_one, Nat.mod_mod, Nat.testBit_mod_two_pow, Nat.testBit_shiftRight]
  by_cases hlo : lo ≤ i
  · rw [show lo + (i - lo) = i by omega, BitVec.testBit_toNat]
    cases decide (i - lo < wid) <;> simp [hlo]
  · simp [hlo]

/-- A count that rises by nothing leaves every register. -/
theorem fincSat_zero_regs (s : State) (p : Nat) (f : Fld) (ho : f.off < 4096) : RegsOnly [] s (s.fincSat p f 0) := by
  have hsame : satAdd (s.fget p f) 0 (2 ^ f.wid - 1) = bitsOf (s.reg p f.off) f.lo f.wid := by
    have hlt := fget_lt s p f
    simp only [satAdd, Nat.add_zero]
    exact min_eq_left (by omega)
  intro q o ho' _
  rw [State.fincSat, State.fset, hsame, putBits_bitsOf_same, reg_setReg s _ ho ho']
  split
  · rename_i hq
    rw [hq.1, hq.2]
  · rfl

end Landing

/-! ### Drains -/

section Drain
variable {s : State} {i : Nat}

/-- A store to SRAM holds the word in the tile. -/
theorem tileWrite_tile (s : State) (i w : Nat) (d : DWord) (p : Bool) :
    tileGet (tileWrite s i w d p) i = { tileGet s i with sram := (tileGet s i).sram.put w d p } :=
  tileGet_tileSet_same ..

theorem tileWrite_shape (s : State) (i w : Nat) (d : DWord) (p : Bool) :
    tileWrite s i w d p = { s with mem := (tileWrite s i w d p).mem, facet := { s.facet with tiles := (tileWrite s i w d p).facet.tiles } } := rfl

/-- A store that leaves the SSB leaves the SSB and the registers as they are. -/
theorem storeOut_keepsTile (s : State) (i w : Nat) (c : Cont) :
    (tileGet (storeOut s i w c) i).ssb = (tileGet s i).ssb ∧ (tileGet (storeOut s i w c) i).regs = (tileGet s i).regs := by
  unfold storeOut
  split
  · rw [tileWrite_tile]
    exact ⟨rfl, rfl⟩
  · split
    · unfold addrRange
      rw [tileGet_capture]
      exact ⟨rfl, rfl⟩
    · exact ⟨rfl, rfl⟩

theorem storesOut_keepTile (l : List SsbEntry) (s : State) (i : Nat) :
    (tileGet (eachIn l (fun s e => storeOut s i e.word e.val) s) i).ssb = (tileGet s i).ssb ∧
      (tileGet (eachIn l (fun s e => storeOut s i e.word e.val) s) i).regs = (tileGet s i).regs := by
  induction l generalizing s with
  | nil => exact ⟨rfl, rfl⟩
  | cons e l ih =>
    obtain ⟨hssb, hregs⟩ := ih (storeOut s i e.word e.val)
    obtain ⟨hssb', hregs'⟩ := storeOut_keepsTile s i e.word e.val
    exact ⟨hssb.trans hssb', hregs.trans hregs'⟩

/-- The tile without the entries that a drain takes: up to 16 committed ones (R199). -/
def drainedTile (x : Tile) : Tile := { x with ssb := (x.ssb.filter (·.level.isNone)).drop 16 ++ x.ssb.filter (·.level.isSome) }

theorem execSsbDrain_eq (s : State) (tile : Nat) :
    execSsbDrain tile s = .next (eachIn (((tileGet s tile).ssb.filter (·.level.isNone)).take 16) (fun s e => storeOut s tile e.word e.val)
      (tileSet s tile (drainedTile (tileGet s tile)))) := rfl

/-- A single committed entry is the one store of its drain. -/
theorem execSsbDrain_single {tile : Nat} {e : SsbEntry} (h : (tileGet s tile).ssb = [e]) (hl : e.level = none) :
    execSsbDrain tile s = .next (storeOut (tileSet s tile { tileGet s tile with ssb := [] }) tile e.word e.val) := by
  rw [execSsbDrain_eq]
  simp [drainedTile, h, hl, eachIn]

theorem storeOut_sram {w : Nat} (c : Cont) (h : w < portWord) : storeOut s i w c = tileWrite s i w c.val c.poison := if_pos h

theorem storeOut_port {w r : Nat} (c : Cont) (h : portWord ≤ w) (hr : portReg s i (w - portWord) = some r) :
    storeOut s i w c = { s with time := { s.time with crossings := s.time.crossings ++ [(r, { val := c.val, poison := c.poison })] } } := by
  unfold storeOut
  rw [if_neg h.not_gt]
  simp only [hr]

end Drain

/-! ### A Tray that fails a check -/

/-- The first slot of a Tray that fails a check halts the tile (R204). -/
theorem runSlot_illegal {s : State} {tile k op : Nat} (f : State → Ctx → State × SlotFx) (hi : issuing s tile = true) (ht : (tileGet s tile).tray = {})
    (hk : k < 15) (hc : issueCheck s tile (fetchTray (tileGet s tile) tile (tileGet s tile).next) ≠ 0) :
    runSlot s tile k (slotClass k) op f = tileHalt s tile 0x0600
      ((tileGet s tile).next + issueCheck s tile (fetchTray (tileGet s tile) tile (tileGet s tile).next) * 2 ^ 16) := by
  have hgo : ¬ (¬ issuing s tile = true ∨ 15 ≤ k ∨ slotClass k ≠ slotClass k ∨ natBit (tileGet s tile).tray.done k = true) := by
    simp [hi, ht, hk, natBit]
  have hfirst : (tileGet s tile).tray.done = 0 := by rw [ht]
  unfold runSlot
  dsimp only
  rw [if_neg hgo]
  simp only [hfirst, if_true]
  exact if_pos hc

/-! ### The diagnostic port -/

/-- A read of a page that the partition sees acts. -/
theorem pageRead_seen {s : State} {part p : Nat} (k : State → Word × State) (hc : s.host.crs = false)
    (hv : viewOf s part p = .full ∨ viewOf s part p = .readOnly) : pageRead s part p k = hostNote (k s).2 (.readData part (k s).1) := by
  unfold pageRead
  rw [hostReady_ready _ hc]
  rcases hv with hv | hv <;> simp only [hv]

theorem tileRead_clean {s : State} {i w : Nat} (h : (tileGet s i).sram.cls w = .clean) : tileRead s i w = (some ((tileGet s i).sram.raw w).1, s) := by
  unfold tileRead
  simp only [h]

section Port
variable {s : State} {tile : Nat}

/-- A read of a clean word answers its low half, and FT_DIAG_HI takes the high one. -/
theorem diagRead_word (hr : diagRefused s tile = false) (hc : (tileGet s tile).sram.cls (s.fget (pgFt + tile) F.FT_DIAG_ADDR_WORD) = .clean) :
    let d := ((tileGet s tile).sram.raw (s.fget (pgFt + tile) F.FT_DIAG_ADDR_WORD)).1
    diagRead s tile = (d.extractLsb' 0 32, s.setReg (pgFt + tile) F.FT_DIAG_HI_DATA.off (d.extractLsb' 32 32)) := by
  unfold diagRead
  dsimp only
  rw [if_neg (by simp [hr]), tileRead_clean hc, ← ofNat_toNat_eq_extract_low, ← ofNat_toNat_div_eq_extract_high]

theorem diagRead_refused (hr : diagRefused s tile = true) : diagRead s tile = (0, capture s (pgFt + tile) 0x0608 0 0) := if_pos hr

/-- A double word from its two halves. -/
theorem ofNat_halves (hi lo : Word) : BitVec.ofNat 64 (lo.toNat + hi.toNat * 2 ^ 32) = hi ++ lo := by
  apply BitVec.eq_of_toNat_eq
  have hh := hi.isLt
  have hl := lo.isLt
  rw [BitVec.toNat_append, ← Nat.shiftLeft_add_eq_or_of_lt hl, BitVec.toNat_ofNat, Nat.shiftLeft_eq]
  omega

theorem diagWrite_word {data : Word} (hr : diagRefused s tile = false) :
    diagWrite s tile data = tileWrite (s.setReg (pgFt + tile) F.FT_DIAG_HI_DATA.off data) tile (s.fget (pgFt + tile) F.FT_DIAG_ADDR_WORD)
      (data ++ s.reg (pgFt + tile) F.FT_DIAG_LO_DATA.off) false := by
  have hlo : s.fget (pgFt + tile) F.FT_DIAG_LO_DATA = (s.reg (pgFt + tile) F.FT_DIAG_LO_DATA.off).toNat := by
    simp only [State.fget, bitsOf, Nat.shiftRight_zero]
    exact Nat.mod_eq_of_lt (s.reg (pgFt + tile) F.FT_DIAG_LO_DATA.off).isLt
  unfold diagWrite
  dsimp only
  rw [if_neg (by simp [hr]), fget_setReg_ne _ _ _ (by simp), fget_setReg_ne _ _ _ (by simp), hlo, ofNat_halves]

theorem diagWrite_refused (data : Word) (hr : diagRefused s tile = true) : diagWrite s tile data = capture s (pgFt + tile) 0x0608 0 0 := if_pos hr

end Port

/-- Settles O44: each clause is what its command does, said above. -/
theorem tilePrograms : Obligations.TilePrograms := by
  unfold Obligations.TilePrograms
  intro s tile
  refine ⟨?start, ?resume, ?arrive, ?land, ⟨?drain, fun e he hl => ⟨fun hw => ?_, fun r hw hr => ?_⟩⟩, ?illegal, ?port⟩
  case start =>
    intro tick pos e hpos hplan ht hv h4 he hphase htray hout
    exact ⟨_, execProgramStart_starts hpos hplan ht hv h4 he hphase htray hout, ((TileTime.refl s tile).reach _).tileSet _, tileGet_tileSet_same ..⟩
  case resume =>
    intro w hw hr hv
    exact ⟨_, execWaitBpResume_resumes hw hr hv, ((TileTime.refl s tile).reach _).tileSet _, tileGet_tileSet_same ..⟩
  case arrive =>
    intro n tick d hd hp
    refine ⟨fun hempty => ?_, fun hheld hv => ?_⟩
    · refine ⟨datumArrived s n tick tile d, (execMeshDatumArrive_reaches hd hp).trans ?_, datumArrived_shape .., datumArrived_tile ..,
        fun i hi => datumArrived_others s n tick d hi⟩
      rw [hempty]
      rfl
    · obtain ⟨hregs, hcount, hcode⟩ := overrun_shows n tick d hv
      refine ⟨_, (execMeshDatumArrive_reaches hd hp).trans (congrArg nxt (if_pos hheld)), hregs, hcount, hcode, ?_⟩
      rw [tileGet_capture, tileGet_fincSat, datumArrived_tile]
      rfl
  case land =>
    intro r rest hr hdue hgo
    exact ⟨_, execResultWriteback_lands hr hdue hgo, rfl, fincSat_zero_regs s _ _ (by decide), tileGet_tileSet_same ..⟩
  case drain =>
    obtain ⟨hssb, hregs⟩ := storesOut_keepTile (((tileGet s tile).ssb.filter (·.level.isNone)).take 16)
      (tileSet s tile (drainedTile (tileGet s tile))) tile
    rw [tileGet_tileSet_same] at hssb hregs
    exact ⟨_, execSsbDrain_eq s tile, hssb, hregs⟩
  · refine ⟨_, execSsbDrain_single he hl, ?_⟩
    rw [storeOut_sram e.val hw]
    refine ⟨rfl, (tileWrite_tile ..).trans ?_⟩
    rw [tileGet_tileSet_same]
  · refine ⟨_, execSsbDrain_single he hl, ?_⟩
    rw [storeOut_port e.val hw (by exact hr)]
    exact ⟨rfl, tileGet_tileSet_same ..⟩
  case illegal =>
    intro k hi ht hk hv check hc
    obtain ⟨hcode, hdetail⟩ := tileHalt_captures ((tileGet s tile).next + check * 2 ^ 16) hv (by decide : 0x0600 < 2 ^ 16)
    refine ⟨_, congrArg nxt (runSlot_illegal _ hi ht hk hc), tileHalt_regs s tile _ _, ?_, ?_, ?_, hcode, hdetail⟩ <;> rw [tileGet_tileHalt] <;> rfl
  case port =>
    intro ht w
    have hread : ∀ part, execFtDiagRead part tile s = nxt (pageRead s part (pgFt + tile) fun s => diagRead s tile) := fun part => congrArg nxt (if_pos ht)
    have hwrite : ∀ part data, execFtDiagWrite part tile data s = nxt (pageWrite s part (pgFt + tile) fun s => diagWrite s tile data) :=
      fun part data => congrArg nxt (if_pos ht)
    refine ⟨fun part hc hview => ⟨fun hr hclean => ?_, fun hr hv => ?_⟩, fun part data hw => ⟨fun hr => ?_, fun hr hv => ?_⟩⟩
    · refine ⟨_, (hread part).trans (congrArg nxt (pageRead_seen _ hc hview)), ?_⟩
      rw [diagRead_word hr hclean]
      exact ⟨rfl, (RegsOnly.refl _ s).setReg (by simp) (by decide), rfl, reg_setReg_same ..⟩
    · refine ⟨_, (hread part).trans (congrArg nxt (pageRead_seen _ hc hview)), ?_⟩
      rw [diagRead_refused hr]
      exact ⟨capture_regs s _ 0x0608 0 0, (capture_shows 0 0 hv (by decide)).2, rfl⟩
    · refine ⟨_, (hwrite part data).trans (congrArg nxt ((pageWrite_acts _ hw).trans (diagWrite_word hr))), rfl,
        (RegsOnly.refl _ s).setReg (by simp) (by decide), reg_setReg_same .., tileWrite_tile ..⟩
    · exact ⟨_, (hwrite part data).trans (congrArg nxt ((pageWrite_acts _ hw).trans (diagWrite_refused data hr))), capture_regs s _ 0x0608 0 0,
        (capture_shows 0 0 hv (by decide)).2, capture_facet ..⟩

end Sys2Proof.Machine
end

section
/-! SUPPORT. Loads, stores, sends and receives of a Tray (R179, R182, R186, R190, R191, R197). -/

namespace Sys2Proof.Machine

/-! ### Loads -/

/-- A word that stands in the SSB or is clean in SRAM is seen and changes nothing. -/
theorem loadWord_good {s : State} {i w : Nat} (h : (ssbLook (tileGet s i) w).isSome = true ∨ (tileGet s i).sram.cls w = .clean) :
    loadWord s i w = (wordSeen (tileGet s i) w, s) := by
  unfold loadWord wordSeen
  cases hs : ssbLook (tileGet s i) w with
  | some c => rfl
  | none =>
    have hclean : (tileGet s i).sram.cls w = .clean := by simpa [hs] using h
    rw [tileRead_clean hclean]
    rfl

theorem loadWords_good {s : State} {i w : Nat} (n : Nat) (h : wordsGood (tileGet s i) w n) :
    loadWords s i w n = ((List.range n).map fun k => wordSeen (tileGet s i) (w + k), s) := by
  induction n with
  | zero => rfl
  | succ n ih =>
    unfold loadWords
    rw [ih fun k hk => h k (Nat.lt_succ_of_lt hk)]
    dsimp only
    rw [loadWord_good (h n (Nat.lt_succ_self n)), List.range_succ, List.map_append]
    rfl

/-- The words that a load of `n` words sees. -/
def wordsSeen (c : Ctx) (x : Tile) (n : Nat) : List Cont := (List.range n).map fun k => wordSeen x ((lsAddr c).1 / (8 * n) * n + k)

/-- A load in range leaves the words it sees, unless every lane of its guard suppresses it. -/
theorem load_good {s : State} {c : Ctx} {n : Nat} {vec : Bool} (mk : Ctx → List Cont → List FxWrite) (hp : (lsAddr c).2 = false)
    (ha : (lsAddr c).1 < 0x40000) (hw : wordsGood (tileGet s c.i) ((lsAddr c).1 / (8 * n) * n) n) :
    load n vec mk s c = (s, if anyLane c vec then { lat := 4, writes := mk c (wordsSeen c (tileGet s c.i) n) } else {}) := by
  unfold load
  dsimp only
  rw [hp, loadWords_good n hw]
  cases anyLane c vec with
  | false => rfl
  | true => exact (if_neg (by simp)).trans ((if_neg (by simp)).trans (if_neg ha.not_ge))

theorem load_leaves {s : State} {tile k op n : Nat} {vec : Bool} {f : State → Ctx → State × SlotFx} {mk : Ctx → List Cont → List FxWrite}
    {ws : List FxWrite} (h : SlotMid s tile k .ls op) (hf : f s (slotCtx s tile k) = load n vec mk s (slotCtx s tile k))
    (hp : (lsAddr (slotCtx s tile k)).2 = false) (ha : (lsAddr (slotCtx s tile k)).1 < 0x40000)
    (hw : wordsGood (tileGet s tile) ((lsAddr (slotCtx s tile k)).1 / (8 * n) * n) n)
    (hws : mk (slotCtx s tile k) (wordsSeen (slotCtx s tile k) (tileGet s tile) n) = ws) (hnone : anyLane (slotCtx s tile k) vec = false → ws = []) :
    SlotLeaves s (runSlot s tile k .ls op f) tile k 4 ws := by
  have hload := hf.trans (load_good mk hp ha hw)
  cases hany : anyLane (slotCtx s tile k) vec with
  | true =>
    rw [hany] at hload
    exact runSlot_leaves h (hws ▸ hload)
  | false =>
    rw [hany] at hload
    rw [hnone hany]
    exact (runSlot_leaves h hload).nil 4

/-- Under a guard that fails nothing is written. -/
theorem guarded_none {c : Ctx} (mk : Cont → FxWrite) (v : Cont) (h : anyLane c false = false) : guarded (c.guard 0) mk v = [] := by
  have hfail : c.guard 0 = .fail := by simpa [anyLane] using h
  rw [hfail]
  rfl

theorem guardedLanes_none {c : Ctx} (mk : Nat → Cont → FxWrite) (v : Nat → Cont) (h : anyLane c true = false) :
    ((List.range 16).flatMap fun n => guarded (c.guard n) (mk n) (v n)) = [] := by
  have hfail : ∀ n ∈ List.range 16, c.guard n = .fail := by simpa [anyLane] using h
  rw [List.flatMap_eq_nil_iff]
  intro n hn
  rw [hfail n hn]
  rfl

/-- The lanes of a vector load. -/
theorem lanes_wordsSeen (c : Ctx) (x : Tile) (mk : Nat → Cont → FxWrite) :
    ((List.range 16).flatMap fun n => guarded (c.guard n) (mk n) ((wordsSeen c x 16).getD n {})) =
      (List.range 16).flatMap fun n => guarded (c.guard n) (mk n) (wordSeen x ((lsAddr c).1 / 128 * 16 + n)) := by
  refine List.flatMap_congr fun n hn => ?_
  have hlt := List.mem_range.mp hn
  simp [wordsSeen, hlt]

theorem wordsSeen_one (c : Ctx) (x : Tile) : wordsSeen c x 1 = [wordSeen x ((lsAddr c).1 / 8)] := by simp [wordsSeen]

section Mid
variable {s : State} {tile k : Nat}

theorem loadScalar_leaves (h : SlotMid s tile k .ls 1) (hv : (slotCtx s tile k).w.getLsbD 44 = false) (hp : (lsAddr (slotCtx s tile k)).2 = false)
    (ha : (lsAddr (slotCtx s tile k)).1 < 0x40000) (hw : wordsGood (tileGet s tile) ((lsAddr (slotCtx s tile k)).1 / 8) 1) :
    let c := slotCtx s tile k
    SlotLeaves s (runSlot s tile k .ls 1 loadAny) tile k 4
      (guarded (c.guard 0) (.s (bitsOf c.w 45 6)) (wordSeen (tileGet s tile) ((lsAddr c).1 / 8))) := by
  have hbit : bitAt (slotCtx s tile k).w 44 = false := hv
  refine load_leaves (vec := false) (n := 1) (mk := ldWrites) h (if_neg (by simp [hbit])) hp ha (by simpa using hw) ?_ (guarded_none _ _)
  simp [ldWrites, hbit, wordsSeen_one]

theorem loadVector_leaves (h : SlotMid s tile k .ls 1) (hv : (slotCtx s tile k).w.getLsbD 44 = true) (hp : (lsAddr (slotCtx s tile k)).2 = false)
    (ha : (lsAddr (slotCtx s tile k)).1 < 0x40000) (hw : wordsGood (tileGet s tile) ((lsAddr (slotCtx s tile k)).1 / 128 * 16) 16) :
    let c := slotCtx s tile k
    SlotLeaves s (runSlot s tile k .ls 1 loadAny) tile k 4
      ((List.range 16).flatMap fun n => guarded (c.guard n) (.v (bitsOf c.w 45 6) n) (wordSeen (tileGet s tile) ((lsAddr c).1 / 128 * 16 + n))) := by
  refine load_leaves (vec := true) (n := 16) (mk := ldWrites) h (if_pos hv) hp ha hw ?_ (guardedLanes_none _ _)
  exact (if_pos hv).trans (lanes_wordsSeen ..)

theorem loadBroadcast_leaves (h : SlotMid s tile k .ls 3) (hp : (lsAddr (slotCtx s tile k)).2 = false)
    (ha : (lsAddr (slotCtx s tile k)).1 < 0x40000) (hw : wordsGood (tileGet s tile) ((lsAddr (slotCtx s tile k)).1 / 8) 1) :
    let c := slotCtx s tile k
    SlotLeaves s (runSlot s tile k .ls 3 (load 1 true bcWrites)) tile k 4
      ((List.range 16).flatMap fun n => guarded (c.guard n) (.v (bitsOf c.w 45 6) n) (wordSeen (tileGet s tile) ((lsAddr c).1 / 8))) := by
  refine load_leaves (vec := true) h rfl hp ha (by simpa using hw) ?_ (guardedLanes_none _ _)
  rw [wordsSeen_one]
  rfl

/-! ### Accesses out of range -/

/-- An access out of range is captured, and its slot leaves what it leaves beside. -/
theorem runSlot_outOfRange {op a : Nat} {f : State → Ctx → State × SlotFx} {fx : SlotFx} (h : SlotMid s tile k .ls op)
    (hf : f s (slotCtx s tile k) = (addrRange s tile a, fx)) (hv : s.fbit (pgFt + tile) F.PG_ERR0_VALID = false) :
    let t := runSlot s tile k .ls op f
    RegsOnly (captureRegs s (pgFt + tile) 0) s t ∧ t.fget (pgFt + tile) F.PG_ERR0_CODE = 0x0604 ∧
      tileGet t tile = slotTile (tileGet s tile) k fx := by
  dsimp only
  rw [runSlot_mid h hf (tileGet_capture ..)]
  exact ⟨capture_regs s (pgFt + tile) 0x0604 0 (a % 2 ^ 19), (capture_shows 0 (a % 2 ^ 19) hv (by decide)).2, tileGet_tileSet_same ..⟩

theorem loadAny_outOfRange {c : Ctx} (s : State) (hv : c.w.getLsbD 44 = false) (hg : c.guard 0 = .pass) (hp : (lsAddr c).2 = false)
    (ha : 0x40000 ≤ (lsAddr c).1) : loadAny s c = (addrRange s c.i (lsAddr c).1, { lat := 4, writes := [.s (bitsOf c.w 45 6) {}] }) := by
  have hbit : bitAt c.w 44 = false := hv
  have hany : anyLane c false = true := by simp [anyLane, hg]
  have hw : ldWrites c (List.replicate 1 {}) = [.s (bitsOf c.w 45 6) {}] := by simp [ldWrites, hbit, hg, guarded]
  unfold loadAny load
  rw [if_neg (by simp [hbit])]
  simp only [hany, hp, hw, ha, if_true, not_true_eq_false, if_false, Bool.false_eq_true]

/-! ### Stores -/

/-- The lanes whose words a store writes. -/
def storeLanes (c : Ctx) : List Nat :=
  if c.w.getLsbD 44 then (List.range 16).filter fun n => decide (c.guard n = .pass) else if c.guard 0 = .pass then [0] else []

/-- The word of lane 0 of a store. -/
def storeFirst (c : Ctx) : Nat := if c.w.getLsbD 44 then (lsAddr c).1 / 128 * 16 else (lsAddr c).1 / 8

/-- What a store leaves for the end of its Tray. -/
def storeHeld (c : Ctx) : List TrayStore :=
  (storeLanes c).map fun n =>
    { slot := c.slot, word := storeFirst c + n
      val := if c.w.getLsbD 44 then c.x.regs.vGet (bitsOf c.w 45 6) n else c.x.regs.sGet (bitsOf c.w 45 6) }

theorem store_eq (s : State) (c : Ctx) :
    store s c = if storeLanes c = [] ∨ (lsAddr c).2 then (s, {})
      else if (lsAddr c).1 < 128 * tileTrays s c.i ∨ 0x41000 ≤ (lsAddr c).1 then (addrRange s c.i (lsAddr c).1, {})
      else (s, { stores := storeHeld c }) := by
  have hfirst : (lsAddr c).1 / (8 * if bitAt c.w 44 then 16 else 1) * (if bitAt c.w 44 then 16 else 1) = storeFirst c := by
    unfold storeFirst bitAt
    split <;> simp
  unfold store
  dsimp only
  rw [hfirst]
  rfl

theorem store_good {s : State} {c : Ctx} (hp : (lsAddr c).2 = false)
    (h : storeLanes c = [] ∨ (128 * tileTrays s c.i ≤ (lsAddr c).1 ∧ (lsAddr c).1 < 0x41000)) : store s c = (s, { stores := storeHeld c }) := by
  rw [store_eq]
  by_cases hn : storeLanes c = []
  · rw [if_pos (.inl hn), storeHeld, hn]
    rfl
  · obtain ⟨hlo, hhi⟩ := h.resolve_left hn
    rw [if_neg (by simp [hn, hp]), if_neg (by omega)]

theorem store_outOfRange {s : State} {c : Ctx} (hp : (lsAddr c).2 = false) (hn : storeLanes c ≠ [])
    (h : (lsAddr c).1 < 128 * tileTrays s c.i ∨ 0x41000 ≤ (lsAddr c).1) : store s c = (addrRange s c.i (lsAddr c).1, {}) := by
  rw [store_eq, if_neg (by simp [hn, hp]), if_pos h]

end Mid

end Sys2Proof.Machine
end

section
/-! SUPPORT. A store, a send and a receive as the last slot of their Tray (R186, R190, R191), and what the statement about them comes to. -/

namespace Sys2Proof.Machine

/-- A tile at the end of a Tray with no control action that holds what its last slot left. -/
def heldTile (x : Tile) (fx : SlotFx) : Tile := { x with tray := { done := 0x7FFF, stores := fx.stores, recv := fx.recv, send := fx.send } }

theorem slotTile_held {x : Tile} {k : Nat} {fx : SlotFx} (hk : k < 15) (h : x.tray = { done := natPutBit 0x7FFF k false }) (hc : fx.control = none)
    (hw : fx.writes = []) : slotTile x k fx = heldTile x fx := by
  unfold slotTile heldTile
  simp [h, lastSlot_done hk, hc, hw]

/-- The BR slot of a Tray whose last slot is another one holds no branch. -/
theorem lastSlot_noBranch {s : State} {tile k op : Nat} {cls : SlotClass} (h : SlotLast s tile k cls op) (hk : k ≠ 0) :
    slotOp (trayBr (tileGet s tile) tile) ≠ 1 := by
  obtain ⟨-, -, -, -, -, hbr⟩ := h
  exact hbr.resolve_left hk

/-- The state in which a Tray without control action has stored and sent. -/
def trayStored (s : State) (i : Nat) : State := traySend (trayStores (s.reach (cycleTick s i (tileGet s i).cycle)) i) i

/-- A Tray without control action stores and sends, takes what it received, and is followed by the next one. -/
theorem trayEnd_followed {s u : State} {i : Nat} {x : Tile} (hx : tileGet s i = x) (hc : x.tray.control = none) (hop : slotOp (trayBr x i) ≠ 1)
    (hv : (tileGet (trayStored s i) i).tray.control = none)
    (hu : trayTakes (trayStored s i) i x .none (x.levels.map (·.id)) (tileGet (trayStored s i) i).tray.recv = u) (hn : (tileGet u i).regs.nest = [])
    (hd : (tileGet u i).delay = 0) : trayEnd s i = tileSet u i (trayOver (tileGet u i)) := by
  subst hx
  have hopen := trayOpens_same (s := s) (i := i) (by simp [hc])
  have hdeep : trayTooDeep (tileGet s i) = false := by simp [trayTooDeep, hc]
  have hact : trayControl (trayStored s i) i false = (trayStored s i, .none) := trayControl_turns false (by simp [hv])
  rw [trayEnd_eq, hopen, hdeep, tileGet_reach, ← trayStored, hact, hu]
  exact trayGoesOn_next (nextTile_sequential hop (by simp [branchTarget, hc]) (noLoopEnds_of_none hn) hd) (by simp [hc]) (by simp [hc])

/-! ### Stores -/

/-- A single store of a Tray, with no level open, leaves for its word. -/
theorem trayStores_single {s : State} {i : Nat} {e : TrayStore} (he : (tileGet s i).tray.stores = [e]) (hk : e.slot < 16)
    (hl : (tileGet s i).levels = []) : trayStores s i = storeOut s i e.word e.val := by
  have hsorted : ((List.range 16).flatMap fun k => (tileGet s i).tray.stores.filter fun t => t.slot = k) = [e] := by
    rw [he]
    interval_cases h : e.slot <;> simp [h, List.range_succ]
  unfold trayStores
  dsimp only
  rw [hsorted]
  simp [eachIn, hl]

theorem store_scalar {s : State} {c : Ctx} (hp : (lsAddr c).2 = false) (hv : c.w.getLsbD 44 = false) (hg : c.guard 0 = .pass)
    (hlo : 128 * tileTrays s c.i ≤ (lsAddr c).1) (hhi : (lsAddr c).1 < 0x40000) :
    store s c = (s, { stores := [{ slot := c.slot, word := (lsAddr c).1 / 8, val := c.x.regs.sGet (bitsOf c.w 45 6) }] }) := by
  rw [store_good hp (.inr ⟨hlo, by omega⟩), storeHeld, storeLanes, storeFirst, hv]
  simp [hg]

section Last
variable {s : State} {tile k : Nat}

theorem runSlot_storeLast {w : Nat} {v : Cont} (h : SlotLast s tile k .ls 2)
    (hf : store s (slotCtx s tile k) = (s, { stores := [{ slot := k, word := w, val := v }] })) (hl : (tileGet s tile).levels = []) (hw : w < portWord) :
    let t := runSlot s tile k .ls 2 store
    t = { s with time := t.time, mem := t.mem, facet := { s.facet with tiles := t.facet.tiles } } ∧
      tileGet t tile = { trayOver (tileGet s tile) with sram := (tileGet s tile).sram.put w v.val v.poison } := by
  dsimp only
  obtain ⟨hdelay, -, hnest⟩ := lastSlot_straight h
  have hk : k < 15 := h.1.2.1
  have hk0 : k ≠ 0 := by
    rintro rfl
    exact absurd h.1.2.2.1 (by decide)
  let y := heldTile (tileGet s tile) { stores := [{ slot := k, word := w, val := v }] }
  let u := (tileSet s tile y).reach (cycleTick (tileSet s tile y) tile y.cycle)
  have hy : tileGet u tile = y := (tileGet_reach ..).trans (tileGet_tileSet_same ..)
  have hwritten : tileGet (tileWrite u tile w v.val v.poison) tile = { y with sram := y.sram.put w v.val v.poison } := by
    rw [tileWrite_tile, hy]
  have hu : trayStored (tileSet s tile y) tile = tileWrite u tile w v.val v.poison := by
    unfold trayStored
    rw [tileGet_tileSet_same, trayStores_single (e := { slot := k, word := w, val := v }) (by rw [hy]; rfl) (Nat.lt_succ_of_lt hk)
      (by rw [hy]; exact hl), storeOut_sram v hw, traySend_none (by rw [hwritten]; rfl)]
  rw [runSlot_last h hf rfl, slotTile_held hk h.2.1 rfl rfl,
    trayEnd_followed (u := tileWrite u tile w v.val v.poison) (tileGet_tileSet_same ..) rfl (x := y) (lastSlot_noBranch h hk0) (by rw [hu, hwritten]; rfl)
      (by rw [hu, hwritten]; rfl) (by rw [hwritten]; exact hnest) (by rw [hwritten]; exact hdelay), hwritten]
  refine ⟨?_, tileGet_tileSet_same ..⟩
  rw [tileWrite_shape, show u = (tileSet s tile y).reach _ from rfl, reach_shape]
  rfl

/-! ### Sends and receives -/

/-- A SEND that some lane passes leaves with its Tray. -/
theorem sendFx_goes {c : Ctx} (h0 : c.w.getLsbD 44 = false → c.guard 0 = .pass)
    (h1 : c.w.getLsbD 44 = true → ∃ n, n < 16 ∧ c.guard n = .pass) : sendFx c = { send := some c.w } := by
  refine if_pos ?_
  cases hv : bitAt c.w 44 with
  | false => simp [h0 hv]
  | true => simpa using h1 hv

/-- The datum that a SEND puts on the mesh (R190). -/
def sentDatum (s : State) (c : Ctx) : MeshDatum :=
  { pos := bitsOf c.w 34 6, chan := bitsOf c.w 40 4, lanes := sendLanes c s.freeCtr, spec := !c.x.levels.isEmpty }

theorem sentDatum_scalar (s : State) {c : Ctx} (h : c.w.getLsbD 44 = false) : (sentDatum s c).lanes.getD 0 {} = c.x.regs.sGet (bitsOf c.w 45 6) := by
  have hbit : bitAt c.w 44 = false := h
  simp [sentDatum, sendLanes, hbit]

theorem sentDatum_vector (s : State) {c : Ctx} {n : Nat} (h : c.w.getLsbD 44 = true) (hn : n < 16) (hg : c.guard n = .pass) :
    (sentDatum s c).lanes.getD n {} = c.x.regs.vGet (bitsOf c.w 45 6) n := by
  have hbit : bitAt c.w 44 = true := h
  simp [sentDatum, sendLanes, hbit, hn, hg]

theorem runSlot_sendLast (h : SlotLast s tile k .msend 1) (h0 : (slotCtx s tile k).w.getLsbD 44 = false → (slotCtx s tile k).guard 0 = .pass)
    (h1 : (slotCtx s tile k).w.getLsbD 44 = true → ∃ n, n < 16 ∧ (slotCtx s tile k).guard n = .pass) :
    let t := runSlot s tile k .msend 1 (pureSlot sendFx)
    t = { s with
          time := t.time, freeCtr := s.freeCtr + 1
          facet := { s.facet with tiles := t.facet.tiles, mesh := s.facet.mesh ++ [sentDatum s (slotCtx s tile k)] } } ∧
      tileGet t tile = trayOver (tileGet s tile) := by
  dsimp only
  obtain ⟨hdelay, -, hnest⟩ := lastSlot_straight h
  have hk : k < 15 := h.1.2.1
  have hk0 : k ≠ 0 := by
    rintro rfl
    exact absurd h.1.2.2.1 (by decide)
  let fx : SlotFx := { send := some (slotCtx s tile k).w }
  let y := heldTile (tileGet s tile) fx
  let u := (tileSet s tile y).reach (cycleTick (tileSet s tile y) tile y.cycle)
  have hy : tileGet u tile = y := (tileGet_reach ..).trans (tileGet_tileSet_same ..)
  have hfree : u.freeCtr = s.freeCtr := by rw [show u = (tileSet s tile y).reach _ from rfl, reach_shape]; rfl
  let m := sentDatum s (slotCtx s tile k)
  let v : State := { u with facet := { u.facet with mesh := u.facet.mesh ++ [m] }, freeCtr := s.freeCtr + 1 }
  have hu : trayStored (tileSet s tile y) tile = v := by
    unfold trayStored
    rw [tileGet_tileSet_same, trayStores_none (by rw [hy]; rfl)]
    unfold traySend
    rw [hy, hfree]
    rfl
  have hv : tileGet v tile = y := hy
  rw [runSlot_last h (congrArg (Prod.mk s) (sendFx_goes h0 h1)) rfl, slotTile_held hk h.2.1 rfl rfl,
    trayEnd_followed (u := v) (x := y) (tileGet_tileSet_same ..) rfl (lastSlot_noBranch h hk0) (by rw [hu, hv]; rfl) (by rw [hu, hv]; rfl)
      (by rw [hv]; exact hnest) (by rw [hv]; exact hdelay), hv]
  refine ⟨?_, tileGet_tileSet_same ..⟩
  rw [show v = { u with facet := { u.facet with mesh := u.facet.mesh ++ [m] }, freeCtr := s.freeCtr + 1 } from rfl,
    show u = (tileSet s tile y).reach _ from rfl, reach_shape]
  rfl

theorem anyLane_recv {c : Ctx} (h44 : c.w.getLsbD 44 = false) (h39 : c.w.getLsbD 39 = false) (hg : c.guard 0 = .pass) :
    anyLane c (bitAt c.w 44 || bitAt c.w 39) = true := by
  rw [show (bitAt c.w 44 || bitAt c.w 39) = false from Bool.or_eq_false_iff.mpr ⟨h44, h39⟩, anyLane, if_neg Bool.false_ne_true, hg]
  decide

theorem recvFx_datum {c : Ctx} {m : ChanDatum} (h44 : c.w.getLsbD 44 = false) (h39 : c.w.getLsbD 39 = false) (hg : c.guard 0 = .pass)
    (hfind : (tileGet s c.i).chans.find? (bitsOf c.w 40 4) = some m) (hcyc : m.cycle < c.x.cycle) :
    recvFx s c = (tileSet s c.i { tileGet s c.i with chans := (tileGet s c.i).chans.del (bitsOf c.w 40 4) }, { recv := some (c.w, some m) }) := by
  unfold recvFx
  simp only [anyLane_recv h44 h39 hg, hfind, hcyc, not_true_eq_false, if_false, if_true]

theorem recvFx_empty {c : Ctx} (h44 : c.w.getLsbD 44 = false) (h39 : c.w.getLsbD 39 = false) (hg : c.guard 0 = .pass)
    (hfind : (tileGet s c.i).chans.find? (bitsOf c.w 40 4) = none) : recvFx s c = (s, { recv := some (c.w, none) }) := by
  unfold recvFx
  simp only [anyLane_recv h44 h39 hg, hfind, not_true_eq_false, if_false]

/-- The result that a receive leaves. -/
def recvResult (c : Ctx) (d : Option ChanDatum) (before : List Nat) : Result :=
  { due := c.x.cycle + 2, issue := c.x.cycle, slot := 7, levels := before, writes := recvWrites c d false }

/-- A datum that is not speculative reaches its register, and nothing is captured. -/
theorem trayRecv_datum {u : State} {i : Nat} {c : Ctx} {m : ChanDatum} (before : List Nat) (hm : m.spec = false) :
    trayRecv u i c (some m) before = tileSet u i { tileGet u i with results := (tileGet u i).results ++ [recvResult c (some m) before] } := by
  unfold trayRecv
  simp [hm, recvResult]

/-- A receive from an empty channel is captured as CROSSING_LATE. -/
theorem trayRecv_empty {u : State} {i : Nat} {c : Ctx} (before : List Nat) (h : senderLost u i (bitsOf c.w 40 4) = false) :
    trayRecv u i c none before =
      tileSet (capture u (pgFt + i) 0x0F02 0 0) i { tileGet u i with results := (tileGet u i).results ++ [recvResult c none before] } := by
  unfold trayRecv
  simp [h, recvResult]

/-- A scalar receive whose guard passes writes lane 0 of its datum, or poison. -/
theorem recvWrites_scalar {c : Ctx} (d : Option ChanDatum) (h44 : c.w.getLsbD 44 = false) (h39 : c.w.getLsbD 39 = false) (hg : c.guard 0 = .pass) :
    recvWrites c d false = [.s (bitsOf c.w 45 6) (d.elim (cont 0 true) fun m => m.lanes.getD 0 {})] := by
  have hvec : bitAt c.w 44 = false := h44
  have hpred : bitAt c.w 39 = false := h39
  cases d <;> simp [recvWrites, hvec, hpred, hg, guarded]

theorem senderLost_reach (u : State) (n i ch : Nat) : senderLost (u.reach n) i ch = senderLost u i ch := by
  rw [reach_shape]
  rfl

/-- A tile that has taken its channel's datum, and whose Tray ends. -/
def receivingTile (x : Tile) (chans : Tab ChanDatum) (w : DWord) (d : Option ChanDatum) : Tile :=
  { heldTile x { recv := some (w, d) } with chans := chans }

/-- A scalar receive as the last slot of its Tray: what it takes is followed by the next Tray. -/
theorem runSlot_recvLast {t u : State} {chans : Tab ChanDatum} {d : Option ChanDatum} (h : SlotLast s tile 7 .mrecv 1)
    (hf : recvFx s (slotCtx s tile 7) = (t, { recv := some ((slotCtx s tile 7).w, d) }))
    (ht : tileGet t tile = { tileGet s tile with chans := chans })
    (hu : let y := receivingTile (tileGet s tile) chans (slotCtx s tile 7).w d
      trayRecv ((tileSet t tile y).reach (cycleTick (tileSet t tile y) tile y.cycle)) tile
        { i := tile, slot := 7, w := (slotCtx s tile 7).w, imx := 0, x := y } d (y.levels.map (·.id)) = u)
    (hn : (tileGet u tile).regs.nest = []) (hd : (tileGet u tile).delay = 0) :
    runSlot s tile 7 .mrecv 1 recvFx = tileSet u tile (trayOver (tileGet u tile)) := by
  let y := receivingTile (tileGet s tile) chans (slotCtx s tile 7).w d
  have hslot : slotTile (tileGet t tile) 7 { recv := some ((slotCtx s tile 7).w, d) } = y := by
    rw [ht]
    exact slotTile_held (x := { tileGet s tile with chans := chans }) (by decide) h.2.1 rfl rfl
  have hy : tileGet ((tileSet t tile y).reach (cycleTick (tileSet t tile y) tile y.cycle)) tile = y :=
    (tileGet_reach ..).trans (tileGet_tileSet_same ..)
  have hstored : trayStored (tileSet t tile y) tile = (tileSet t tile y).reach (cycleTick (tileSet t tile y) tile y.cycle) := by
    unfold trayStored
    rw [tileGet_tileSet_same, trayStores_none (by rw [hy]; rfl), traySend_none (by rw [hy]; rfl)]
  rw [runSlot_last h hf (by rw [ht]), hslot]
  refine trayEnd_followed (x := y) (tileGet_tileSet_same ..) rfl (lastSlot_noBranch h (by decide)) (by rw [hstored, hy]; rfl) ?_ hn hd
  rw [hstored, hy]
  exact hu

/-- RECV of a datum that arrived before its cycle. -/
theorem runSlot_recvDatum {m : ChanDatum} (h : SlotLast s tile 7 .mrecv 1) (h44 : (slotCtx s tile 7).w.getLsbD 44 = false)
    (h39 : (slotCtx s tile 7).w.getLsbD 39 = false) (hg : (slotCtx s tile 7).guard 0 = .pass)
    (hfind : (tileGet s tile).chans.find? (bitsOf (slotCtx s tile 7).w 40 4) = some m) (hcyc : m.cycle < (tileGet s tile).cycle)
    (hspec : m.spec = false) :
    let t := runSlot s tile 7 .mrecv 1 recvFx
    let x := tileGet s tile
    let w := (slotCtx s tile 7).w
    t = { s with time := t.time, facet := { s.facet with tiles := t.facet.tiles } } ∧
      tileGet t tile = { trayOver x with
        chans := x.chans.del (bitsOf w 40 4)
        results := x.results ++ [{ due := x.cycle + 2, issue := x.cycle, slot := 7, levels := x.levels.map (·.id),
                                   writes := [.s (bitsOf w 45 6) (m.lanes.getD 0 {})] }] } := by
  dsimp only
  obtain ⟨hdelay, -, hnest⟩ := lastSlot_straight h
  let c := slotCtx s tile 7
  let chans := (tileGet s tile).chans.del (bitsOf c.w 40 4)
  let y := receivingTile (tileGet s tile) chans c.w (some m)
  let t := tileSet s tile { tileGet s tile with chans := chans }
  let v := (tileSet t tile y).reach (cycleTick (tileSet t tile y) tile y.cycle)
  have hfx : recvFx s c = (t, { recv := some (c.w, some m) }) := recvFx_datum h44 h39 hg hfind hcyc
  have hv : tileGet v tile = y := (tileGet_reach ..).trans (tileGet_tileSet_same ..)
  have hwrites : recvWrites { i := tile, slot := 7, w := c.w, imx := 0, x := y } (some m) false = [.s (bitsOf c.w 45 6) (m.lanes.getD 0 {})] :=
    recvWrites_scalar _ h44 h39 hg
  rw [runSlot_recvLast h hfx (tileGet_tileSet_same ..) (trayRecv_datum (u := v) _ hspec) (by rw [tileGet_tileSet_same, hv]; exact hnest)
    (by rw [tileGet_tileSet_same, hv]; exact hdelay), tileGet_tileSet_same, hv]
  refine ⟨?_, ?_⟩
  · rw [show v = (tileSet t tile y).reach _ from rfl, reach_shape]
    rfl
  · rw [tileGet_tileSet_same, recvResult, hwrites]
    rfl

/-- RECV from an empty channel whose sender is not lost: CROSSING_LATE and a poisoned result, whose value is `Config.poisonUnder 0`. -/
theorem runSlot_recvEmpty (h : SlotLast s tile 7 .mrecv 1) (h44 : (slotCtx s tile 7).w.getLsbD 44 = false)
    (h39 : (slotCtx s tile 7).w.getLsbD 39 = false) (hg : (slotCtx s tile 7).guard 0 = .pass)
    (hfind : (tileGet s tile).chans.find? (bitsOf (slotCtx s tile 7).w 40 4) = none)
    (hlost : senderLost s tile (bitsOf (slotCtx s tile 7).w 40 4) = false) (hfree : s.fbit (pgFt + tile) F.PG_ERR0_VALID = false) :
    let t := runSlot s tile 7 .mrecv 1 recvFx
    let x := tileGet s tile
    RegsOnly (captureRegs s (pgFt + tile) 0) s t ∧ t.fget (pgFt + tile) F.PG_ERR0_CODE = 0x0F02 ∧
      tileGet t tile = { trayOver x with
        results := x.results ++ [{ due := x.cycle + 2, issue := x.cycle, slot := 7, levels := x.levels.map (·.id),
                                   writes := [.s (bitsOf (slotCtx s tile 7).w 45 6) (cont 0 true)] }] } := by
  dsimp only
  obtain ⟨hdelay, -, hnest⟩ := lastSlot_straight h
  let c := slotCtx s tile 7
  let y := receivingTile (tileGet s tile) (tileGet s tile).chans c.w none
  let v := (tileSet s tile y).reach (cycleTick (tileSet s tile y) tile y.cycle)
  have hv : tileGet v tile = y := (tileGet_reach ..).trans (tileGet_tileSet_same ..)
  have hlost' : senderLost v tile (bitsOf c.w 40 4) = false := (senderLost_reach ..).trans hlost
  have hwrites : recvWrites { i := tile, slot := 7, w := c.w, imx := 0, x := y } none false = [.s (bitsOf c.w 45 6) (cont 0 true)] :=
    recvWrites_scalar _ h44 h39 hg
  rw [runSlot_recvLast (chans := (tileGet s tile).chans) h (recvFx_empty h44 h39 hg hfind) rfl (trayRecv_empty (u := v) _ hlost')
    (by rw [tileGet_tileSet_same, hv]; exact hnest) (by rw [tileGet_tileSet_same, hv]; exact hdelay), tileGet_tileSet_same, hv]
  have hbit : v.fbit (pgFt + tile) F.PG_ERR0_VALID = false := (reach_fbit ..).trans hfree
  have hcapture : captureRegs v (pgFt + tile) 0 = captureRegs s (pgFt + tile) 0 := captureRegs_congr _ _ (reach_fget ..)
  refine ⟨?_, (capture_shows 0 0 hbit (by decide)).2, ?_⟩
  · have hv0 : RegsOnly (captureRegs s (pgFt + tile) 0) s v := fun p o _ _ => reach_reg ..
    exact hv0.trans (hcapture ▸ capture_regs v (pgFt + tile) 0x0F02 0 0)
  · rw [tileGet_tileSet_same, recvResult, hwrites]
    rfl

/-! ### The statement about storage and the mesh -/

theorem slot_mrecv {k : Nat} (hk : k < 15) (h : slotClass k = .mrecv) : k = 7 := by
  revert k
  decide

/-- The poisoned zero of the statement is the model's where the open value under it is zero. -/
theorem cont_poisoned_zero : cont 0 true = { val := 0, poison := true } ↔ Config.poisonUnder 0 = 0 := by simp [cont]

/-- Tile 67 issues Tray 1, all of whose slots but a scalar RECV of the empty channel 14 have acted. -/
def emptyReceive : State :=
  let recv : DWord := BitVec.ofNat 64 (1 * 2 ^ 56 + 14 * 2 ^ 40)
  let x : Tile := { sram := ({} : Mem).put 23 recv false, running := true, next := 1, cycle := 1000, tray := { done := natPutBit 0x7FFF 7 false } }
  let s : State := { time := { running := true, ptb := 1000000, copies := [(67, { valid := true })] }, facet := { tiles := [(67, x)] },
                     boot := { pwrEn := true, corePg := true, loupeUp := true, powerOn := false } }
  (s.fset pgChip F.CHIP_BOOT_STAGE 7).fset (pgFt + 67) F.FT_PROG_TRAYS 16

theorem emptyReceive_last : SlotLast emptyReceive 67 7 .mrecv 1 := by
  unfold SlotLast SlotRuns
  decide +kernel

theorem emptyReceive_operands :
    let c := slotCtx emptyReceive 67 7
    c.w.getLsbD 44 = false ∧ c.w.getLsbD 39 = false ∧ c.guard 0 = .pass ∧ (tileGet emptyReceive 67).chans.find? (bitsOf c.w 40 4) = none ∧
      senderLost emptyReceive 67 (bitsOf c.w 40 4) = false ∧ emptyReceive.fbit (pgFt + 67) F.PG_ERR0_VALID = false := by decide +kernel

end Last

/-- `SlotStorageAndMesh` comes to the value under a poisoned zero: all of it holds but for the value 0 it states for a RECV from an empty channel, where the
model has the open value `Config.poisonUnder 0`. That constant is opaque, so the equivalence is all that can be proved. -/
theorem slotStorageAndMesh_iff : Obligations.SlotStorageAndMesh ↔ Config.poisonUnder 0 = 0 := by
  unfold Obligations.SlotStorageAndMesh
  constructor
  · intro h
    obtain ⟨h44, h39, hg, hfind, hlost, hfree⟩ := emptyReceive_operands
    obtain ⟨-, -, -, -, -, hrecv⟩ := h emptyReceive 67 7
    obtain ⟨t, hexec, -, -, htile⟩ := (hrecv emptyReceive_last h44 h39 hg).2 hfind hlost hfree
    obtain rfl := Host.Outcome.next.inj hexec
    obtain ⟨-, -, hmodel⟩ := runSlot_recvEmpty emptyReceive_last h44 h39 hg hfind hlost hfree
    have hsame := congrArg Tile.results (hmodel.symm.trans htile)
    simpa [trayOver, cont] using hsame
  · intro hpoison s tile k
    refine ⟨fun h => ⟨_, rfl, ?_⟩, fun hp ha => ⟨?_, ?_, ?_⟩, ?_, fun hp => ⟨?_, ?_, ?_⟩, ?_, ?_⟩
    · exact runSlot_leaves h rfl
    · exact fun h hv hw => ⟨_, rfl, loadScalar_leaves h hv hp ha hw⟩
    · exact fun h hv hw => ⟨_, rfl, loadVector_leaves h hv hp ha hw⟩
    · exact fun h hw => ⟨_, rfl, loadBroadcast_leaves h hp ha hw⟩
    · intro h hv hg hp ha hfree
      obtain ⟨hregs, hcode, htile⟩ := runSlot_outOfRange h (loadAny_outOfRange s hv hg hp ha) hfree
      exact ⟨_, rfl, hregs, hcode, congrArg Tile.results htile⟩
    · intro h hrange
      have hrun := runSlot_mid h (store_good hp hrange) rfl
      refine ⟨_, rfl, ?_⟩
      rw [hrun]
      exact ⟨tileSet_only .., (tileGet_tileSet_same ..).trans (by simp only [slotTile, if_true]; rfl)⟩
    · intro h hn hrange hfree
      obtain ⟨hregs, hcode, htile⟩ := runSlot_outOfRange h (store_outOfRange hp hn hrange) hfree
      exact ⟨_, rfl, hregs, hcode, htile.trans (by simp [slotTile])⟩
    · intro h hv hg hl hlo hhi
      exact ⟨_, rfl, runSlot_storeLast h (store_scalar hp hv hg hlo hhi) hl (by unfold portWord; omega)⟩
    · intro h h0 h1
      obtain ⟨hshape, htile⟩ := runSlot_sendLast h h0 h1
      exact ⟨_, sentDatum s (slotCtx s tile k), rfl, hshape, htile, rfl, rfl, rfl, sentDatum_scalar s, fun hv n hn hg => sentDatum_vector s hv hn hg⟩
    · intro h h44 h39 hg
      obtain rfl := slot_mrecv h.1.2.1 h.1.2.2.1
      refine ⟨fun m hfind hcyc hspec => ⟨_, rfl, runSlot_recvDatum h h44 h39 hg hfind hcyc hspec⟩, fun hfind hlost hfree => ⟨_, rfl, ?_⟩⟩
      have hrun := runSlot_recvEmpty h h44 h39 hg hfind hlost hfree
      rw [cont_poisoned_zero.mpr hpoison] at hrun
      exact hrun

end Sys2Proof.Machine
end

section
/-! SUPPORT. The shared operations of the solver sequencer (chapter 8): a slot read after one is written, host data that have come, room
taken in the Plan region, and the end of a load. -/

namespace Sys2Proof.Machine

/-! ### Slots -/

@[simp] theorem slotGet_slotSet_same (s : State) (k : Nat) (x : SolvSlot) : slotGet (slotSet s k x) k = x := Tab.get_set_same ..

theorem slotGet_slotSet_ne (s : State) {i k : Nat} (x : SolvSlot) (h : i ≠ k) : slotGet (slotSet s k x) i = slotGet s i := Tab.get_set_ne _ _ _ x h

/-- A slot of a state with the same solver state is the same slot. -/
theorem slotGet_congr {s t : State} (h : t.solver = s.solver) (k : Nat) : slotGet t k = slotGet s k := by
  unfold slotGet
  rw [h]

/-- The image of a slot that holds one is that image. -/
theorem slotImage_of_some {s : State} {k : Nat} {m : Simg} (h : (slotGet s k).image = some m) : slotImage s k = m := by
  unfold slotImage
  rw [h]
  rfl

/-- A slot with an image and a binding passes the checks that come before a job's data (R274). -/
theorem solvCheck_bound {s : State} {k : Nat} {b : BitVec 256} (run : Bool) (hi : (slotGet s k).image.isSome = true) (hb : binding s k = some b)
    (hk : run = true → bKind b = 1) : solvCheck s k run = 0 := by
  have hnone : (slotGet s k).image.isNone = false := Option.isNone_eq_false_iff.mpr hi
  unfold solvCheck
  rw [hnone, hb]
  simp only [Bool.false_eq_true, if_false]
  rw [if_neg fun h => h.2 (hk h.1)]

/-! ### Jobs and their data -/

theorem jobSet_shape (s : State) (j : Nat) (x : Job) : jobSet s j x = { s with qe := (jobSet s j x).qe } := rfl

/-- A job whose host data have come without poison goes on with them (R516). -/
theorem withHostData_good {s : State} {j : Nat} {x : Job} {d : List Byte} (addr len : Nat) (bad : State → List Byte → List Nat → State)
    (k : State → List Byte → State) (h : jobGet s j = some x) (hd : x.data = some (.good d [])) : withHostData s j addr len bad k = k s d := by
  unfold withHostData
  simp only [h, hd]

/-! ### Fields of a slot's registers -/

/-- A field of an indexed register reads the value written to it. -/
theorem fget_fset_shSame (s : State) (p : Nat) (f : Fld) (a v : Nat) (h : f.lo + f.wid ≤ 32) :
    (s.fset p (f.sh a) v).fget p (f.sh a) = v % 2 ^ f.wid :=
  fget_fset_same s p (f.sh a) v h

/-- A field of an indexed register keeps its value when one beside it is written. -/
theorem fget_fset_shBeside (s : State) (p : Nat) (f g : Fld) (a v : Nat) (ho : g.off = f.off) (h : g.lo + g.wid ≤ f.lo ∨ f.lo + f.wid ≤ g.lo) :
    (s.fset p (f.sh a) v).fget p (g.sh a) = s.fget p (g.sh a) :=
  fget_fset_beside s p (f.sh a) (g.sh a) v (congrArg (· + a) ho) h

/-! ### The Plan region and the end of a load -/

/-- Taking room in the Plan region writes one register, of the memory controller's page. -/
theorem planTake_regs (s : State) (k bytes : Nat) : RegsOnly [(pgMemc, F.MEMC_PLAN_FREE_UNITS.off)] s (planTake s k bytes) :=
  (RegsOnly.refl _ _).fset (by simp) (by decide)

theorem planTake_shape (s : State) (k bytes : Nat) :
    planTake s k bytes = { s with regs := (planTake s k bytes).regs, mem := (planTake s k bytes).mem } := rfl

theorem planTake_qe (s : State) (k bytes : Nat) : (planTake s k bytes).qe = s.qe := rfl
theorem planTake_part (s : State) (k bytes : Nat) : (planTake s k bytes).part = s.part := rfl
theorem planTake_time (s : State) (k bytes : Nat) : (planTake s k bytes).time = s.time := rfl
theorem planTake_facet (s : State) (k bytes : Nat) : (planTake s k bytes).facet = s.facet := rfl

@[simp] theorem pageIrq_qe (s : State) (p bits : Nat) : (pageIrq s p bits).qe = s.qe := by rw [pageIrq_shape]

@[simp] theorem jobGet_pageIrq (s : State) (p bits j : Nat) : jobGet (pageIrq s p bits) j = jobGet s j := by simp only [jobGet, pageIrq_qe]

/-- SOLV_LOAD shows a load's status and check. -/
def loadShown (s : State) (status check : Nat) : State := (s.fset pgSolv F.SOLV_LOAD_STATUS status).fset pgSolv F.SOLV_LOAD_CHECK check

theorem loadShown_regs (s : State) (status check : Nat) :
    RegsOnly [(pgSolv, F.SOLV_LOAD_STATUS.off), (pgSolv, F.PG_IRQ_STAT_ERR.off)] s (loadShown s status check) :=
  ((RegsOnly.refl _ s).fset (by simp) (by decide)).fset (by simp) (by decide)

theorem loadShown_status (s : State) {status : Nat} (check : Nat) (h : status < 2 ^ 16) :
    (loadShown s status check).fget pgSolv F.SOLV_LOAD_STATUS = status := by
  unfold loadShown
  rw [fget_fset_beside _ _ F.SOLV_LOAD_CHECK F.SOLV_LOAD_STATUS _ rfl (.inl (by decide)), fget_fset_same _ _ _ _ (by decide)]
  exact Nat.mod_eq_of_lt h

/-- A job as its load ends it. -/
abbrev loadEnded (x : Job) (status result : Nat) : Job :=
  { x with phase := .done, status := status, result := result % 2 ^ 32, data := none }

section Load
variable {s : State} {j : Nat} {x : Job} (status check : Nat) (h : jobGet s j = some x) (hr : s.part.resets.find? x.part = none)
include h hr

/-- A load of a job that no reset holds: SOLV_LOAD shows it, the job ends, and the page has its LOAD cause. -/
theorem loadDone_live : loadDone s j status check = pageIrq (jobSet (loadShown s status check) j (loadEnded x status check)) pgSolv 4 :=
  congrArg (pageIrq · pgSolv 4) (jobDone_live (s := loadShown s status check) status check h hr)

theorem loadDone_shape :
    loadDone s j status check =
      { s with regs := (loadDone s j status check).regs, qe := (loadDone s j status check).qe, host := (loadDone s j status check).host } := by
  rw [loadDone_live status check h hr, pageIrq_qe]
  exact pageIrq_shape ..

theorem loadDone_time : (loadDone s j status check).time = s.time := by rw [loadDone_shape status check h hr]

theorem loadDone_solver : (loadDone s j status check).solver = s.solver := by rw [loadDone_shape status check h hr]

theorem loadDone_job : jobGet (loadDone s j status check) j = some (loadEnded x status check) := by
  rw [loadDone_live status check h hr, jobGet_pageIrq]
  exact jobGet_jobSet_same ..

theorem loadDone_regs : RegsOnly [(pgSolv, F.SOLV_LOAD_STATUS.off), (pgSolv, F.PG_IRQ_STAT_ERR.off)] s (loadDone s j status check) := by
  rw [loadDone_live status check h hr]
  exact RegsOnly.pageIrq (.same (loadShown_regs s status check) fun _ _ _ => jobSet_reg ..) (by simp)

theorem loadDone_status (hs : status < 2 ^ 16) : (loadDone s j status check).fget pgSolv F.SOLV_LOAD_STATUS = status := by
  have hirq := (RegsOnly.refl [(pgSolv, F.PG_IRQ_STAT_ERR.off)] (jobSet (loadShown s status check) j (loadEnded x status check))).pageIrq
    (bits := 4) List.mem_cons_self
  rw [loadDone_live status check h hr, hirq.fget (by decide) (by decide)]
  exact loadShown_status s check hs

end Load
end Sys2Proof.Machine
end

section
/-! SUPPORT. Solver images and solver jobs (R248, R254, R257, R274, R275, R278). -/

namespace Sys2Proof.Machine

/-! ### Images -/

/-- The state in which a slot holds a loaded image alone, and shows it (R248). -/
def imageHeld (s : State) (k : Nat) (m : Simg) : State :=
  ((slotState (planTake (slotSet s k { image := some m }) k m.bytes) k 1).fset pgSolv (F.SOLV_SLOT0_METHOD.sh (16 * k)) m.method).fset pgSolv
    (F.SOLV_SLOT0_RUNAHEAD.sh (16 * k)) m.runahead

theorem imageHeld_solver (s : State) (k : Nat) (m : Simg) : (imageHeld s k m).solver = (slotSet s k { image := some m }).solver := rfl

/-- A loaded slot shows LOADED with its image's method and run-ahead. -/
theorem imageHeld_shows (s : State) (k : Nat) (m : Simg) :
    (imageHeld s k m).fget pgSolv (F.SOLV_SLOT0_STATE.sh (16 * k)) = 1 ∧
      (imageHeld s k m).fget pgSolv (F.SOLV_SLOT0_METHOD.sh (16 * k)) = m.method ∧
      (imageHeld s k m).fget pgSolv (F.SOLV_SLOT0_RUNAHEAD.sh (16 * k)) = m.runahead := by
  unfold imageHeld slotState
  refine ⟨?_, ?_, ?_⟩
  · rw [fget_fset_shBeside _ _ F.SOLV_SLOT0_RUNAHEAD F.SOLV_SLOT0_STATE _ _ rfl (by decide),
      fget_fset_shBeside _ _ F.SOLV_SLOT0_METHOD F.SOLV_SLOT0_STATE _ _ rfl (by decide), fget_fset_shSame _ _ F.SOLV_SLOT0_STATE _ _ (by decide)]
    rfl
  · rw [fget_fset_shBeside _ _ F.SOLV_SLOT0_RUNAHEAD F.SOLV_SLOT0_METHOD _ _ rfl (by decide),
      fget_fset_shSame _ _ F.SOLV_SLOT0_METHOD _ _ (by decide)]
    exact Nat.mod_eq_of_lt (bitsOf_lt ..)
  · rw [fget_fset_shSame _ _ F.SOLV_SLOT0_RUNAHEAD _ _ (by decide)]
    exact Nat.mod_eq_of_lt (bitsOf_lt ..)

/-- A register of a slot is none that the end of a load writes. -/
theorem loadDone_slotField {s : State} {j k : Nat} {x : Job} {f : Fld} (status check : Nat) (h : jobGet s j = some x)
    (hr : s.part.resets.find? x.part = none) (hk : k < 32) (hf : 0x100 ≤ f.off ∧ f.off < 0x110) :
    (loadDone s j status check).fget pgSolv (f.sh (16 * k)) = s.fget pgSolv (f.sh (16 * k)) := by
  have hoff : (f.sh (16 * k)).off = f.off + 16 * k := rfl
  refine (loadDone_regs status check h hr).fget (by omega) ?_
  simp only [List.mem_cons, Prod.mk.injEq, List.not_mem_nil, or_false, true_and, hoff]
  omega

section Load
variable {s : State} {job : Nat} {x : Job} {body : SimgBody} {d : List Byte} (hx : startedJob s job 0x22 = some x) (hm : memReady s = true)
  (hp : imagePayloadOk x = true) (hb : slotBusy s (payBits x 32 5) = false) (hd : x.data = some (.good d []))
include hx hm hp hb hd

/-- SIMG_LOAD of a free slot whose image has come: the image's first failed check, the room of the Plan region, or the image held. -/
theorem execSimgLoad_come :
    execSimgLoad job body s = .next (
      if simgCheck s (simgOf d body (payBits x 128 32)) ≠ 0 then loadDone s job stImageRefused (simgCheck s (simgOf d body (payBits x 128 32)))
      else if planFree s (payBits x 32 5) < (simgOf d body (payBits x 128 32)).bytes then loadDone s job 0x0F16 0
      else loadDone (imageHeld s (payBits x 32 5) (simgOf d body (payBits x 128 32))) job stOk 0) := by
  unfold execSimgLoad
  simp only [hx, hm, hp, hb, not_true_eq_false, if_false, Bool.false_eq_true]
  rw [withHostData_good _ _ _ _ (jobGet_of_started hx) hd]
  rfl

theorem execSimgLoad_held (hc : simgCheck s (simgOf d body (payBits x 128 32)) = 0)
    (hf : (simgOf d body (payBits x 128 32)).bytes ≤ planFree s (payBits x 32 5)) :
    execSimgLoad job body s = .next (loadDone (imageHeld s (payBits x 32 5) (simgOf d body (payBits x 128 32))) job stOk 0) := by
  rw [execSimgLoad_come hx hm hp hb hd, if_neg (not_not.mpr hc), if_neg (Nat.not_lt.mpr hf)]

theorem execSimgLoad_refused (hc : simgCheck s (simgOf d body (payBits x 128 32)) ≠ 0) :
    execSimgLoad job body s = .next (loadDone s job stImageRefused (simgCheck s (simgOf d body (payBits x 128 32)))) := by
  rw [execSimgLoad_come hx hm hp hb hd, if_pos hc]

end Load

/-- The state in which a slot is empty and shows nothing (R248). -/
def slotEmptied (s : State) (k : Nat) : State := (planTake (slotSet s k {}) k 0).setReg pgSolv (F.SOLV_SLOT0_STATE.off + 16 * k) 0

theorem slotEmptied_shape (s : State) (k : Nat) :
    slotEmptied s k = { s with regs := (slotEmptied s k).regs, solver := (slotEmptied s k).solver, mem := (slotEmptied s k).mem } := rfl

/-- SIMG_FREE of a slot that holds an image which no plan binds. -/
theorem execSimgFree_frees {s : State} {job : Nat} {x : Job} (hx : startedJob s job 0x23 = some x) (hr : s.part.resets.find? x.part = none)
    (hb : slotBusy s (payBits x 32 5) = false) (hi : (slotGet s (payBits x 32 5)).image.isSome = true) :
    execSimgFree job s = .next (jobSet (slotEmptied s (payBits x 32 5)) job (loadEnded x stOk 0)) := by
  unfold execSimgFree
  simp only [hx, hb, Option.isNone_eq_false_iff.mpr hi, if_false, Bool.false_eq_true]
  exact congrArg nxt (jobDone_live (s := slotEmptied s (payBits x 32 5)) stOk 0 (jobGet_of_started hx) hr)

/-! ### Deltas and guesses -/

/-- The elements of a guess: one for each variable, and for a method 1 image two for each constraint (R257). -/
def guessLen (m : Simg) : Nat := if m.method = 1 then m.nvar + 2 * m.ncon else m.nvar

/-- The elements of a guess in host bytes. -/
def guessWords (d : List Byte) (n : Nat) : List DWord :=
  (List.range n).map fun i => BitVec.ofNat 64 (leNat ((List.range 8).map fun q => d.getD (8 * i + q) 0))

/-- An element of a guess is the number in its 8 bytes. -/
theorem guessWords_getD (d : List Byte) {n i : Nat} (h : i < n) :
    ((guessWords d n).getD i 0).toNat = leNat ((List.range 8).map fun q => d.getD (8 * i + q) 0) % 2 ^ 64 := by
  unfold guessWords
  rw [List.getD_eq_getElem?_getD, List.getElem?_map, List.getElem?_range h]
  exact BitVec.toNat_ofNat ..

section Stage
variable {s : State} {job k : Nat} {x : Job} {m : Simg} {d : List Byte} (hk : payBits x 32 5 = k) (hm : (slotGet s k).image = some m)
  (hb : (binding s k).isSome = true) (hc : x.cancel = false) (ha : payBits x 64 3 = 0) (hd : x.data = some (.good d []))
include hk hm hb hc ha hd

/-- SOLV_DELTA with its pairs in host data stages them (R254). -/
theorem execSolvDelta_stages (hx : startedJob s job 0x80 = some x) (hs : x.stage ≠ 2)
    (h1 : 1 ≤ payBits x 48 13) (hn : payBits x 48 13 ≤ m.deltaMax)
    (hp : ∀ p ∈ deltaPairs d (payBits x 48 13), p.1 < m.nparam) :
    execSolvDelta job s = .next (jobSet
      (slotSet s k { slotGet s k with staged := (slotGet s k).staged ++ [{ job := job, pairs := deltaPairs d (payBits x 48 13), tick := s.now }] })
      job { x with stage := 2, data := none }) := by
  obtain ⟨b, hbind⟩ := Option.isSome_iff_exists.mp hb
  have hcheck : solvCheck s k false = 0 := solvCheck_bound false (by simp [hm]) hbind nofun
  have hsize : ¬ (payBits x 48 13 = 0 ∨ m.deltaMax < payBits x 48 13) := by omega
  have hindex : ((deltaPairs d (payBits x 48 13)).any fun p => decide (m.nparam ≤ p.1)) = false :=
    List.any_eq_false.mpr fun p h => by simpa using hp p h
  have hjob := jobGet_of_started hx
  conv_lhs =>
    unfold execSolvDelta
    simp only [hx, hk, slotImage_of_some hm, hc, hs, hcheck, hsize, ha, ne_eq, not_true_eq_false, if_false, Bool.false_eq_true]
    rw [withHostData_good _ _ _ _ hjob hd, hindex, if_neg Bool.false_ne_true, show jobGet (slotSet s k _) job = some x from hjob]

/-- SOLV_GUESS with its elements in host data gives the slot its guess (R257). -/
theorem execSolvGuess_guesses (hx : startedJob s job 0x81 = some x) (hr : s.part.resets.find? x.part = none) (hmeth : m.method ≠ 2) :
    execSolvGuess job s = .next (jobSet (slotSet s k { slotGet s k with guess := some (guessWords d (guessLen m)) }) job (loadEnded x stOk 0)) := by
  obtain ⟨b, hbind⟩ := Option.isSome_iff_exists.mp hb
  have hcheck : solvCheck s k false = 0 := solvCheck_bound false (by simp [hm]) hbind nofun
  have hjob := jobGet_of_started hx
  unfold execSolvGuess
  simp only [hx, hk, slotImage_of_some hm, hc, hcheck, hmeth, ha, ne_eq, not_true_eq_false, or_self, if_false, Bool.false_eq_true]
  rw [withHostData_good _ _ _ _ hjob hd]
  exact congrArg nxt (jobDone_live (s := slotSet s k _) stOk 0 hjob hr)

end Stage

/-! ### Runs and reads -/

section Mirror
variable {s : State} {job k : Nat} {x : Job} {b : BitVec 256} (hk : payBits x 32 5 = k) (hi : (slotGet s k).image.isSome = true)
  (hb : binding s k = some b)
include hk hi hb

/-- SOLV_READ writes the mirror area and answers word 0 (R274). -/
theorem execSolvRead_reads (hc : x.cancel = false) (hx : startedJob s job 0x83 = some x) (hr : s.part.resets.find? x.part = none)
    (ha : payBits x 64 3 = 0) (hh : HostHears s x.part) :
    execSolvRead job s = .next (jobSet { s with host := { s.host with out := .write x.part (payBits x 64 64) (mirrorBytes s b) :: s.host.out } } job
      (loadEnded x stOk (mirrorWord0 s b % 2 ^ 32))) := by
  have hcheck : solvCheck s k false = 0 := solvCheck_bound false hi hb nofun
  unfold execSolvRead
  simp only [hx, hk, hc, hcheck, ha, hb, ne_eq, not_true_eq_false, if_false, Bool.false_eq_true]
  rw [hostSend_hears _ hh]
  exact congrArg nxt (jobDone_live _ _ (jobGet_of_started hx) hr)

/-- SOLV_RUN of an ON_DEMAND slot takes the slot's window (R275). -/
theorem execSolvRun_takes (hc : x.cancel = false) (hx : startedJob s job 0x82 = some x) (hkind : bKind b = 1) (ha : payBits x 64 3 = 0)
    (hrun : (slotGet s k).run = none) (h100 : x.stage ≠ 100) (h2 : x.stage ≠ 2) :
    execSolvRun job s = .next (jobSet (slotSet s k { slotGet s k with run := some job, ranOut := false }) job { x with stage := 2 }) := by
  have hcheck : solvCheck s k true = 0 := solvCheck_bound true hi hb fun _ => hkind
  unfold execSolvRun
  simp only [hx, hk, h100, hc, h2, hcheck, ha, hrun, ne_eq, not_true_eq_false, if_false, Bool.false_eq_true, Option.isSome_none]

end Mirror

/-- SOLV_RUN whose solve has ended writes the mirror area and ends with the primary status (R267, R274). -/
theorem execSolvRun_ends {s : State} {job k : Nat} {x : Job} {b : BitVec 256} {v : Solve} (hk : payBits x 32 5 = k) (hb : binding s k = some b)
    (hx : startedJob s job 0x82 = some x) (hr : s.part.resets.find? x.part = none) (h100 : x.stage = 100)
    (hrun : (slotGet s k).run = some job) (hout : (slotGet s k).ranOut = true) (hh : HostHears s x.part) (hv : (slotGet s k).solve = some v) :
    execSolvRun job s = .next (jobSet
      (slotSet { s with host := { s.host with out := .write x.part (payBits x 64 64) (mirrorBytes s b) :: s.host.out } } k
        { slotGet s k with run := none, ranOut := false })
      job (loadEnded x (primaryStatus v.conds v.haltCode) (v.iter % 2 ^ 16 + (v.conds % 2 ^ 16) * 2 ^ 16))) := by
  conv_lhs =>
    unfold execSolvRun
    simp only [hx, hk, h100, hv, hb, hrun, hout, and_self, if_true]
    rw [hostSend_hears _ hh]
  exact congrArg nxt (jobDone_live (s := slotSet _ k _) _ _ (jobGet_of_started hx) hr)

/-! ### The statement -/

/-- The two halves of a run's result fit its 32 bits. -/
theorem runResult_mod (a b : Nat) : (a % 2 ^ 16 + (b % 2 ^ 16) * 2 ^ 16) % 2 ^ 32 = a % 2 ^ 16 + (b % 2 ^ 16) * 2 ^ 16 := by omega

/-- Settles O46: each command is its state lemma above, read field by field. -/
theorem solverImagesAndJobs : Obligations.SolverImagesAndJobs := by
  unfold Obligations.SolverImagesAndJobs
  refine ⟨fun s job x body d hx hr hmem hpay => ?load, fun s job x hx hr hb hi => ?free, fun s job x d m hr => ?stage, fun s job x b hr => ?mirror,
    fun s part data hw => ?cold⟩
  case load =>
    intro k m hb hd
    have hjob := jobGet_of_started hx
    have hk : k < 32 := payBits_lt x 32 5
    refine ⟨fun hc hf => ?_, fun hc => ?_⟩
    · have hheld : jobGet (imageHeld s k m) job = some x := hjob
      have hres : (imageHeld s k m).part.resets.find? x.part = none := hr
      have hshape := loadDone_shape stOk 0 hheld hres
      have hsolver : (loadDone (imageHeld s k m) job stOk 0).solver = (slotSet s k { image := some m }).solver :=
        (loadDone_solver stOk 0 hheld hres).trans (imageHeld_solver ..)
      obtain ⟨hstate, hmethod, hahead⟩ := imageHeld_shows s k m
      refine ⟨_, execSimgLoad_held hx hmem hpay hb hd hc hf, ?_, ?_, fun i hi => ?_, ?_, ?_, ?_, ?_, loadDone_status _ _ hheld hres (by decide),
        loadDone_job stOk 0 hheld hres⟩
      · rw [hshape]; rfl
      · rw [slotGet_congr hsolver, slotGet_slotSet_same]
      · rw [slotGet_congr hsolver, slotGet_slotSet_ne _ _ hi]
      · rw [hsolver]; rfl
      · rw [loadDone_slotField _ _ hheld hres hk (by decide), hstate]
      · rw [loadDone_slotField _ _ hheld hres hk (by decide), hmethod]
      · rw [loadDone_slotField _ _ hheld hres hk (by decide), hahead]
    · exact ⟨_, execSimgLoad_refused hx hmem hpay hb hd hc, loadDone_shape _ _ hjob hr, loadDone_status _ _ hjob hr (by decide),
        loadDone_job _ _ hjob hr⟩
  case free =>
    refine ⟨_, execSimgFree_frees hx hr hb hi, ?_, ?_, ?_, jobGet_jobSet_same ..⟩
    · rw [slotEmptied_shape]; rfl
    · exact slotGet_slotSet_same s _ {}
    · exact reg_setReg_same ..
  case stage =>
    intro k y n hm hb hc ha hd
    refine ⟨fun hx hs h1 hn hp => ?_, fun hx hmeth => ?_⟩
    · exact ⟨_, execSolvDelta_stages rfl hm hb hc ha hd hx hs h1 hn hp, rfl, slotGet_slotSet_same s _ _, fun i hi => slotGet_slotSet_ne s _ hi,
        jobGet_jobSet_same ..⟩
    · refine ⟨_, guessWords d (guessLen m), execSolvGuess_guesses rfl hm hb hc ha hd hx hr hmeth, rfl,
        slotGet_slotSet_same s _ _, ?_, fun i hi => ?_,
        jobGet_jobSet_same ..⟩
      · simp [guessWords, guessLen]
      · exact guessWords_getD d (by simpa [guessWords] using hi)
  case mirror =>
    intro k y hi hb hc
    refine ⟨fun hx ha hdead hbme => ?_, fun hx hkind ha hrun h100 h2 => ?_, fun hx h100 hrun hout hdead hbme v hv => ?_⟩
    · refine ⟨_, execSolvRead_reads rfl hi hb hc hx hr ha ⟨hdead, hbme⟩, rfl, rfl, ?_⟩
      rw [jobGet_jobSet_same]
      simp only [loadEnded, Nat.mod_mod]
    · exact ⟨_, execSolvRun_takes rfl hi hb hc hx hkind ha hrun h100 h2, rfl, slotGet_slotSet_same s _ _, jobGet_jobSet_same ..⟩
    · refine ⟨_, execSolvRun_ends rfl hb hx hr h100 hrun hout ⟨hdead, hbme⟩ hv, rfl, rfl, slotGet_slotSet_same _ _ _, ?_⟩
      rw [jobGet_jobSet_same]
      simp only [loadEnded, runResult_mod]
  case cold =>
    exact ⟨_, congrArg nxt (pageWrite_acts _ hw), rfl, fun q hq => page_modPage_ne s _ hq, page_modPage_same s pgSolv _⟩

end Sys2Proof.Machine
end

section
/-! SUPPORT. One solve (R251, R254, R263, R267, R269 to R272, R276, R277): what each step of it leaves of its slot, of the SOLV page and of
the mesh. -/

namespace Sys2Proof.Machine

/-! ### What the PTB's advance leaves -/

theorem slotGet_reach (s : State) (n k : Nat) : slotGet (s.reach n) k = slotGet s k := by rw [reach_shape]; rfl

theorem startedJob_reach (s : State) (n j op : Nat) : startedJob (s.reach n) j op = startedJob s j op := by rw [reach_shape]; rfl

theorem readReport_reach (s : State) (t slot kind n : Nat) : readReport (s.reach t) slot kind n = readReport s slot kind n := by
  rw [reach_shape]; rfl

theorem groupTrouble_reach (s : State) (n : Nat) (m : Simg) : groupTrouble (s.reach n) m = groupTrouble s m := by rw [reach_shape]; rfl

theorem reach_pages (ps : Nat → Prop) (s : State) (n : Nat) : PagesOnly ps s (s.reach n) := fun p o _ _ => reach_reg s n p o

/-! ### The delta tick -/

/-- The jobs that a delta tick takes leave the stage and end with the base-period number (R254). -/
def deltasTaken (s : State) (k bpn : Nat) (took : List StagedDelta) : State :=
  eachIn took (fun s d => jobDone (unstage s k d.job) d.job stOk (bpn % 2 ^ 32)) s

/-- The solve that begins with the jobs taken. -/
def solveOf (m : Simg) (start bpn : Nat) (took : List StagedDelta) : Solve :=
  { start := start, bpn := bpn, host := took.flatMap (·.pairs), pairs := (took.flatMap (·.pairs)).length,
    refactor := (took.flatMap (·.pairs)).any fun p => decide (m.matBase ≤ p.1) && decide (p.1 < m.matEnd),
    conds := if took = [] then 0 else 2 ^ 14 }

/-- A slot's solve begins. -/
def solveBegun (s : State) (k : Nat) (v : Solve) : State := slotSet s k { slotGet s k with solve := some v, ranOut := false }

section Tick
variable {s : State} {k start bpn : Nat} {m : Simg} {b : BitVec 256} (hm : (slotGet s k).image = some m) (hb : binding s k = some b)
  (hs : solveStart s b start = some bpn) (hv : (slotGet s k).solve = none) (hroom : m.deltaMax + 32 ≤ start)
  (hrun : bKind b = 1 → (slotGet s k).run.isSome = true)
include hm hb hs hv hroom hrun

/-- At the delta tick of a start whose staged jobs are not cancelled, those that fit are taken and the solve begins. -/
theorem execDeltaTick_begins (hgo : ∀ d ∈ (slotGet s k).staged, ∀ x, startedJob s d.job 0x80 = some x → x.cancel = false) :
    let tick := start - (m.deltaMax + 32)
    let took := takeJobs (s.reach tick) tick m.deltaMax (stagedOrder (s.reach tick) k)
    execDeltaTick k start s = .next (solveBegun (deltasTaken (s.reach tick) k bpn took) k (solveOf m start bpn took)) := by
  intro tick took
  have hfree : ¬ (false = true ∨ start < m.deltaMax + 32 ∨ (bKind b = 1 ∧ (slotGet s k).run.isNone = true)) := by
    rintro (h | h | ⟨h, h'⟩)
    · cases h
    · omega
    · rw [Option.isNone_eq_false_iff.mpr (hrun h)] at h'
      cases h'
  unfold execDeltaTick
  simp only [hm, hb, hv, hs]
  rw [if_neg hfree, List.filter_eq_nil_iff.mpr fun d hd => ?_]
  · rfl
  · rw [startedJob_reach]
    cases hx : startedJob s d.job 0x80 with
    | none => simp
    | some x => simp [hgo d hd x hx]

/-- With nothing staged the solve has no host pairs. -/
theorem execDeltaTick_bare (hst : (slotGet s k).staged = []) :
    execDeltaTick k start s =
      .next (slotSet (s.reach (start - (m.deltaMax + 32))) k { slotGet s k with solve := some { start := start, bpn := bpn }, ranOut := false }) := by
  have horder : stagedOrder (s.reach (start - (m.deltaMax + 32))) k = [] := by
    unfold stagedOrder
    rw [slotGet_reach, hst]
    rfl
  rw [execDeltaTick_begins hm hb hs hv hroom hrun (by simp [hst]), horder]
  unfold solveBegun deltasTaken
  simp only [takeJobs, eachIn, List.foldl_nil, slotGet_reach]
  rfl

/-- One staged job in its room is taken. -/
theorem execDeltaTick_single {d : StagedDelta} {x : Job} (hst : (slotGet s k).staged = [d]) (hx : startedJob s d.job 0x80 = some x)
    (hc : x.cancel = false) (hr : s.part.resets.find? x.part = none) (hfit : d.pairs.length ≤ m.deltaMax)
    (ht : d.tick < start - (m.deltaMax + 32)) :
    execDeltaTick k start s = .next (solveBegun (jobSet (unstage (s.reach (start - (m.deltaMax + 32))) k d.job) d.job
      (loadEnded x stOk (bpn % 2 ^ 32))) k (solveOf m start bpn [d])) := by
  have horder : stagedOrder (s.reach (start - (m.deltaMax + 32))) k = [d] := by
    unfold stagedOrder
    rw [slotGet_reach, hst]
    rfl
  have hgo : ∀ e ∈ (slotGet s k).staged, ∀ z, startedJob s e.job 0x80 = some z → z.cancel = false := by
    intro e he z hz
    rw [hst, List.mem_singleton] at he
    subst he
    rw [hx] at hz
    exact Option.some.inj hz ▸ hc
  rw [execDeltaTick_begins hm hb hs hv hroom hrun hgo, horder]
  have htook : takeJobs (s.reach (start - (m.deltaMax + 32))) (start - (m.deltaMax + 32)) m.deltaMax [d] = [d] := if_pos ⟨hfit, ht⟩
  have hjob : jobGet (unstage (s.reach (start - (m.deltaMax + 32))) k d.job) d.job = some x :=
    jobGet_of_started ((startedJob_reach ..).trans hx)
  have hres : (unstage (s.reach (start - (m.deltaMax + 32))) k d.job).part.resets.find? x.part = none := by
    rw [reach_shape]; exact hr
  rw [htook]
  exact congrArg (fun u => nxt (solveBegun u k _)) (jobDone_live stOk (bpn % 2 ^ 32) hjob hres)

end Tick

/-- Taking the only staged job empties the stage. -/
theorem slotGet_unstage_only {s : State} {k : Nat} {d : StagedDelta} (h : (slotGet s k).staged = [d]) :
    slotGet (unstage s k d.job) k = { slotGet s k with staged := [] } := by
  unfold unstage
  rw [slotGet_slotSet_same, h]
  simp

/-! ### The window test -/

/-- A slot's solve becomes another. -/
def solveSet (s : State) (k : Nat) (v : Solve) : State := slotSet s k { slotGet s k with solve := some v }

section Test
variable {s : State} {k : Nat} {m : Simg} {b : BitVec 256} {v : Solve} {mr : List (Option Nat)} (hm : (slotGet s k).image = some m)
  (hb : binding s k = some b) (hv : (slotGet s k).solve = some v) (hf : v.finished = false) (ht : v.tested = false)
  (hmr : (if m.measLen = 0 then some [] else readReport s (bMeas b) 3 m.measLen) = some mr)
include hm hb hv hf ht hmr

/-- Without run-ahead the test notes the measurement, and there is no verdict. -/
theorem execWindowTest_plain (ha : runsAhead (slotGet s k) m b = false) :
    execWindowTest k s = .next (solveSet (s.reach (v.start - 28)) k { v with tested := true, meas := goodLanes (some mr), verdict := none }) := by
  unfold execWindowTest
  simp only [hm, hb, hv]
  rw [if_neg (by simp [hf, ht])]
  simp only [ha, readReport_reach, hmr, lateReport, Option.isNone_some, if_false, Bool.false_eq_true]
  rfl

/-- In run-ahead the test reads the prediction too and fixes the verdict. -/
theorem execWindowTest_ahead {pr : List (Option Nat)} (ha : runsAhead (slotGet s k) m b = true) (hpr : readReport s k 2 m.measLen = some pr) :
    execWindowTest k s = .next (solveSet (noteRead (s.reach (v.start - 28)) k 2) k
      { v with tested := true, meas := goodLanes (some mr),
               verdict := some (verdictOf (slotGet s k) m v (goodLanes (some mr)) (goodLanes (some pr))) }) := by
  unfold execWindowTest
  simp only [hm, hb, hv]
  rw [if_neg (by simp [hf, ht])]
  simp only [ha, readReport_reach, hmr, hpr, lateReport, Option.isNone_some, if_false, if_true, Bool.false_eq_true]
  rfl

end Test

theorem slotGet_noteRead_ne (s : State) {i k : Nat} (kind : Nat) (h : i ≠ k) : slotGet (noteRead s k kind) i = slotGet s i :=
  slotGet_slotSet_ne s _ h

theorem slotGet_solveSet_ne (s : State) {i k : Nat} (v : Solve) (h : i ≠ k) : slotGet (solveSet s k v) i = slotGet s i :=
  slotGet_slotSet_ne s _ h

theorem slotGet_solveSet_solve (s : State) (k : Nat) (v : Solve) : (slotGet (solveSet s k v) k).solve = some v := by
  unfold solveSet
  rw [slotGet_slotSet_same]

end Sys2Proof.Machine
end

section
/-! SUPPORT. The start, the checks and the deadline of a solve (R263, R267 to R272, R276, R277), and the statement on one solve. -/

namespace Sys2Proof.Machine

/-! ### The start goes out -/

/-- A cold start is counted. -/
def coldCounted (s : State) (cold : Bool) : State := if cold then s.fincSat pgSolv F.SOLV_FB_CNT_COLD 1 else s

theorem coldCounted_shape (s : State) (cold : Bool) : coldCounted s cold = { s with regs := (coldCounted s cold).regs } := by
  cases cold <;> rfl

theorem coldCounted_count (s : State) (cold : Bool) :
    (coldCounted s cold).fget pgSolv F.SOLV_FB_CNT_COLD = min (s.fget pgSolv F.SOLV_FB_CNT_COLD + b2n cold) 0xFFFF := by
  have hlt : s.fget pgSolv F.SOLV_FB_CNT_COLD < 2 ^ 16 := fget_lt ..
  cases cold with
  | false =>
    simp only [coldCounted, b2n, if_false, Bool.false_eq_true]
    omega
  | true => exact fget_fincSat_same _ _ _ _ (by decide)

theorem coldCounted_pages (s : State) (cold : Bool) : PagesOnly (· = pgSolv) s (coldCounted s cold) :=
  PagesOnly.ite (fun _ => (PagesOnly.refl _ s).fincSat rfl (by decide)) fun _ => .refl _ s

/-- The slot's registers show the pairs applied and the base period of the start. -/
def startShown (s : State) (k pairs bpn : Nat) : State :=
  (s.fset pgSolv (F.SOLV_SLOT2_DELTAS.sh (16 * k)) pairs).setReg pgSolv (F.SOLV_SLOT3_BPN.off + 16 * k) (BitVec.ofNat 32 bpn)

theorem startShown_shape (s : State) (k pairs bpn : Nat) : startShown s k pairs bpn = { s with regs := (startShown s k pairs bpn).regs } := rfl

theorem slotOff_lt {k : Nat} (hk : k < 32) {f : Fld} (hf : f.off < 0x110) : (f.sh (16 * k)).off < 4096 := by
  have : (f.sh (16 * k)).off = f.off + 16 * k := rfl
  omega

theorem startShown_pages (s : State) {k : Nat} (pairs bpn : Nat) (hk : k < 32) : PagesOnly (· = pgSolv) s (startShown s k pairs bpn) :=
  (PagesOnly.refl (· = pgSolv) s).fset rfl (slotOff_lt (f := F.SOLV_SLOT2_DELTAS) hk (by decide))
    |>.setReg rfl (slotOff_lt (f := F.SOLV_SLOT3_BPN) hk (by decide))

/-- A field below the slots' registers keeps its value. -/
theorem startShown_fget (s : State) (k pairs bpn : Nat) {f : Fld} (h : f.off < 0x100) :
    (startShown s k pairs bpn).fget pgSolv f = s.fget pgSolv f := by
  have hd : (F.SOLV_SLOT2_DELTAS.sh (16 * k)).off = 0x108 + 16 * k := rfl
  have hb : F.SOLV_SLOT3_BPN.off = 0x10C := rfl
  unfold startShown
  rw [fget_setReg_ne _ _ _ (by omega), fget_fset_ne _ _ _ _ (by omega)]

/-- A solve that goes out without run-ahead and without measurement. -/
def solveSent (m : Simg) (v : Solve) (cold : Bool) : Solve :=
  { v with verdict := none, sent := true, cold := cold, conds := if cold then v.conds ||| 1 else v.conds,
           capC := if cold then 4 * m.cap else m.cap, iter := 0 }

/-- The slot takes the solve that goes out: the host's pairs apply (R253). -/
def startTaken (s : State) (k : Nat) (m : Simg) (v : Solve) (cold : Bool) : State :=
  slotSet s k { slotGet s k with
    solve := some (solveSent m v cold), params := applyPairs (slotGet s k).params v.host, guess := if cold then none else (slotGet s k).guess,
    pivoted := if v.refactor ∨ m.method ≠ 1 then false else (slotGet s k).pivoted }

/-- The registers, the mesh and the PTB as a start leaves them. -/
def startOut (s : State) (k : Nat) (m : Simg) (v : Solve) (cold : Bool) : State :=
  startShown (coldCounted (sendGroup (s.reach (v.start - 12)) m (lanesOf [0, b2n cold, b2n v.refactor])) cold) k v.pairs v.bpn

theorem startOut_solver (s : State) (k : Nat) (m : Simg) (v : Solve) (cold : Bool) : (startOut s k m v cold).solver = s.solver := by
  unfold startOut
  rw [startShown_shape, coldCounted_shape, reach_shape]
  rfl

theorem startOut_shape (s : State) (k : Nat) (m : Simg) (v : Solve) (cold : Bool) :
    startOut s k m v cold = { s with regs := (startOut s k m v cold).regs, time := (startOut s k m v cold).time,
                                     facet := (startOut s k m v cold).facet } := by
  unfold startOut
  rw [startShown_shape, coldCounted_shape, reach_shape]
  rfl

theorem startOut_facet (s : State) (k : Nat) (m : Simg) (v : Solve) (cold : Bool) :
    (startOut s k m v cold).facet = { s.facet with mesh := s.facet.mesh ++ m.group.map fun p =>
      { pos := p, chan := 15, lanes := (lanesOf [0, b2n cold, b2n v.refactor]).map fun z => { val := z } } } := by
  unfold startOut
  rw [startShown_shape, coldCounted_shape, reach_shape]
  rfl

theorem startOut_pages (s : State) {k : Nat} (m : Simg) (v : Solve) (cold : Bool) (hk : k < 32) : PagesOnly (· = pgSolv) s (startOut s k m v cold) :=
  PagesOnly.trans ((reach_pages _ s (v.start - 12)).trans (coldCounted_pages (sendGroup (s.reach (v.start - 12)) m _) cold))
    (startShown_pages _ _ _ hk)

theorem startOut_count (s : State) (k : Nat) (m : Simg) (v : Solve) (cold : Bool) :
    (startOut s k m v cold).fget pgSolv F.SOLV_FB_CNT_COLD = min (s.fget pgSolv F.SOLV_FB_CNT_COLD + b2n cold) 0xFFFF := by
  unfold startOut
  rw [startShown_fget _ _ _ _ (by decide), coldCounted_count]
  exact congrArg (fun n => min (n + b2n cold) 0xFFFF) (reach_fget ..)

/-- Without a verdict, a measurement, FORCE_COLD or a waiting SOLV_RUN the start goes out (R256, R257, R271). -/
theorem execVerdictSend_starts {s : State} {k : Nat} {m : Simg} {b : BitVec 256} {v : Solve} (hm : (slotGet s k).image = some m)
    (hb : binding s k = some b) (hv : (slotGet s k).solve = some v) (hf : v.finished = false) (ht : v.tested = true) (hs : v.sent = false)
    (hverd : v.verdict = none) (hmeas : m.measLen = 0) (hforce : (slotGet s k).forceCold = false) (hrun : (slotGet s k).run = none) :
    let cold := m.method != 2 && !(slotGet s k).warm
    execVerdictSend k s = .next (startTaken (startOut s k m v cold) k m v cold) := by
  intro cold
  have hcold : (m.method != 2 && (!(slotGet s k).warm || false)) = cold := by rw [Bool.or_false]
  clear_value cold
  unfold execVerdictSend
  simp only [hm, hb, hv]
  rw [if_neg (by simp [hf, ht, hs])]
  simp only [hforce, hcold, hverd, hmeas, hrun, countVerdict, reduceCtorEq, ne_eq, not_true_eq_false, and_false, or_self, false_and, if_false,
    Bool.false_eq_true, List.length_nil, List.append_nil, Nat.add_zero]
  rfl

/-! ### Checks -/

/-- The command of a check or of the deadline goes to the group's tiles by the mesh; nothing else changes. -/
theorem sendCommand_shape (s : State) (m : Simg) (stop keep fallback : Bool) :
    sendCommand s m stop keep fallback = { s with facet := (sendCommand s m stop keep fallback).facet } := rfl

/-- The tick of the next check of a solve (Table 8.16). -/
def checkTick (m : Simg) (v : Solve) : Nat := v.start + m.prepTicks + v.checks * blockTicks m + m.every * m.iterTicks + 28

/-- A check on a solve whose group has lost or halted a tile stops it (R277). -/
def checkTroubled (s : State) (k : Nat) (m : Simg) (v : Solve) : State :=
  solveSet (sendCommand (noteRead (s.reach (checkTick m v)) k 0) m true false true) k
    { v with conds := v.conds ||| (groupTrouble s m).1, haltCode := (groupTrouble s m).2, stopped := true, checks := v.checks + 1 }

/-- The command of a check by a good report goes out, and ITER shows (R263). -/
def checkShown (s : State) (k : Nat) (m : Simg) (v : Solve) (r : List Nat) (o : Nat × Bool × Bool × Option Nat) : State :=
  (sendCommand (noteRead (s.reach (checkTick m v)) k 0) m o.2.1 o.2.2.1 (o.2.1 && ((v.conds ||| o.1) &&& (0x3F0 ||| m.fbMask) != 0))).fset
    pgSolv (F.SOLV_SLOT2_ITER.sh (16 * k)) (r.getD 9 0)

/-- The slot's solve as a check's outcome leaves it: its conditions, its best merit and the iterations reported (R263). -/
def checkNoted (s : State) (k : Nat) (m : Simg) (v : Solve) (r : List Nat) (o : Nat × Bool × Bool × Option Nat) : State :=
  slotSet (checkShown s k m v r o) k { slotGet (checkShown s k m v r o) k with
    pivoted := (slotGet (checkShown s k m v r o) k).pivoted || decide (r.getD 8 0 ≠ 0),
    solve := some { v with conds := v.conds ||| o.1, stopped := o.2.1, best := o.2.2.2, iter := r.getD 9 0, checks := v.checks + 1 } }

section Check
variable {s : State} {k : Nat} {m : Simg} {b : BitVec 256} {v : Solve} (hm : (slotGet s k).image = some m) (hb : binding s k = some b)
  (hv : (slotGet s k).solve = some v) (hf : v.finished = false) (hs : v.sent = true) (hstop : v.stopped = false) (he : m.every ≠ 0)
include hm hb hv hf hs hstop he

theorem execSolveCheck_troubled (ht : (groupTrouble s m).1 ≠ 0) : execSolveCheck k s = .next (checkTroubled s k m v) := by
  unfold execSolveCheck
  simp only [hm, hb, hv]
  rw [if_neg (by simp [hf, hs, hstop, he])]
  simp only [groupTrouble_reach, if_pos ht]
  rfl

theorem execSolveCheck_reported {r : List Nat} (ht : (groupTrouble s m).1 = 0) (hr : goodLanes (readReport s k 0 13) = some r) :
    execSolveCheck k s = .next (checkNoted s k m v r (checkOutcome m b v r)) := by
  unfold execSolveCheck
  simp only [hm, hb, hv]
  rw [if_neg (by simp [hf, hs, hstop, he])]
  simp only [groupTrouble_reach, readReport_reach, ht, hr, ne_eq, not_true_eq_false, if_false]
  rfl

end Check

/-- Residuals within tolerance and no regularised pivot stop the solve and set no condition (R263). -/
theorem checkOutcome_within {m : Simg} {b : BitVec 256} {v : Solve} {r : List Nat} (hn : isNumeric r = false)
    (hp : fxLe (r.getD 0 0) (r.getD 1 0) = true) (hd : fxLe (r.getD 2 0) (r.getD 3 0) = true) (hpiv : r.getD 8 0 = 0) :
    checkOutcome m b v r = (0, true, false, v.best) := by
  unfold checkOutcome
  simp only [hn, hp, hd, hpiv, ne_eq, not_true_eq_false, if_false, Bool.false_eq_true, and_self, if_true]

theorem slotGet_noteRead_command_ne (s : State) {i k : Nat} (n : Nat) (m : Simg) (stop keep fallback : Bool) (h : i ≠ k) :
    slotGet (sendCommand (noteRead (s.reach n) k 0) m stop keep fallback) i = slotGet s i := by
  rw [sendCommand_shape]
  exact (slotGet_noteRead_ne _ 0 h).trans (slotGet_reach ..)

theorem checkTroubled_shape (s : State) (k : Nat) (m : Simg) (v : Solve) :
    checkTroubled s k m v = { s with time := (checkTroubled s k m v).time, solver := (checkTroubled s k m v).solver,
                                     facet := (checkTroubled s k m v).facet } := by
  unfold checkTroubled
  rw [reach_shape]
  rfl

theorem checkShown_shape (s : State) (k : Nat) (m : Simg) (v : Solve) (r : List Nat) (o : Nat × Bool × Bool × Option Nat) :
    checkShown s k m v r o = { s with regs := (checkShown s k m v r o).regs, time := (checkShown s k m v r o).time,
                                      solver := (checkShown s k m v r o).solver, facet := (checkShown s k m v r o).facet } := by
  unfold checkShown
  rw [reach_shape]
  rfl

theorem checkShown_pages (s : State) {k : Nat} (m : Simg) (v : Solve) (r : List Nat) (o : Nat × Bool × Bool × Option Nat) (hk : k < 32) :
    PagesOnly (· = pgSolv) s (checkShown s k m v r o) := by
  have hread : PagesOnly (· = pgSolv) s (noteRead (s.reach (checkTick m v)) k 0) := reach_pages _ s _
  exact PagesOnly.fset (PagesOnly.trans hread fun _ _ _ _ => rfl) rfl (slotOff_lt (f := F.SOLV_SLOT2_ITER) hk (by decide))

theorem checkShown_iter (s : State) (k : Nat) (m : Simg) (v : Solve) (r : List Nat) (o : Nat × Bool × Bool × Option Nat) :
    (checkShown s k m v r o).fget pgSolv (F.SOLV_SLOT2_ITER.sh (16 * k)) = r.getD 9 0 % 2 ^ 16 :=
  fget_fset_shSame _ _ F.SOLV_SLOT2_ITER _ _ (by decide)

theorem slotGet_checkShown_ne (s : State) {i k : Nat} (m : Simg) (v : Solve) (r : List Nat) (o : Nat × Bool × Bool × Option Nat) (h : i ≠ k) :
    slotGet (checkShown s k m v r o) i = slotGet s i :=
  (slotGet_congr (fset_solver ..) i).trans (slotGet_noteRead_command_ne _ _ _ _ _ _ h)

/-! ### The deadline -/

/-- A deadline that leaves the solve on its way: the final command and the status word go out, and ITER shows (R267, R269). -/
def deadlineShown (s : State) (k : Nat) (m : Simg) (b : BitVec 256) (v : Solve) (conds : Nat) : State :=
  ((sendCommand (s.reach (v.start + bSpan b - m.finalTicks)) m true false false).setReg pgSolv (F.SOLV_SLOT1_STAT.off + 16 * k)
    (BitVec.ofNat 32 (primaryStatus conds v.haltCode + (conds % 2 ^ 16) * 2 ^ 16))).fset pgSolv (F.SOLV_SLOT2_ITER.sh (16 * k)) v.iter

/-- The slot's solve is over, and the next one is warm where the method keeps a start (R256, R269, R270). -/
def solveOver (s : State) (k : Nat) (m : Simg) (v : Solve) (conds : Nat) : State :=
  slotSet s k { slotGet s k with
    solve := some { v with conds := conds, finished := true, stopped := true }, warm := m.method != 2,
    ahead := s.fbit pgSolv F.SOLV_CTRL_RUNAHEAD_EN, ranOut := true }

/-- The interrupt of conditions that SOLV_CTRL selects. -/
def condIrq (s : State) (conds : Nat) : State := if conds &&& s.fget pgSolv F.SOLV_CTRL_IRQ_COND ≠ 0 then pageIrq s pgSolv 2 else s

theorem condIrq_shape (s : State) (conds : Nat) : condIrq s conds = { s with regs := (condIrq s conds).regs, host := (condIrq s conds).host } := by
  unfold condIrq
  split
  · exact pageIrq_shape ..
  · rfl

theorem condIrq_solver (s : State) (conds : Nat) : (condIrq s conds).solver = s.solver := by rw [condIrq_shape]

theorem condIrq_regs (s : State) (conds : Nat) : RegsOnly [(pgSolv, F.PG_IRQ_STAT_ERR.off)] s (condIrq s conds) := by
  unfold condIrq
  split
  · exact (RegsOnly.refl _ s).pageIrq (by simp)
  · exact .refl _ s

/-- The state after a deadline at which the solve ends without fallback. -/
def solveEnded (s : State) (k : Nat) (m : Simg) (b : BitVec 256) (v : Solve) (conds : Nat) : State :=
  condIrq (solveOver (deadlineShown s k m b v conds) k m v conds) conds

/-- A group without trouble has no halted tile's code. -/
theorem groupTrouble_code {s : State} {m : Simg} (h : (groupTrouble s m).1 = 0) : (groupTrouble s m).2 = 0 := by
  unfold groupTrouble at h ⊢
  dsimp only at h ⊢
  by_contra hc
  rw [if_pos hc] at h
  omega

/-- A set that misses a union misses its left part. -/
theorem and_eq_zero_of_and_or {a b c : Nat} (h : a &&& (b ||| c) = 0) : a &&& b = 0 := by
  rw [Nat.and_or_distrib_left] at h
  exact (Nat.or_eq_zero_iff.mp h).1

/-- At the deadline a checked solve that met no fallback condition is over (R269, R276). -/
theorem execSolveDeadline_over {s : State} {k : Nat} {m : Simg} {b : BitVec 256} {v : Solve} (hm : (slotGet s k).image = some m)
    (hb : binding s k = some b) (hv : (slotGet s k).solve = some v) (hf : v.finished = false) (hs : v.sent = true) (he : m.every ≠ 0)
    (ht : (groupTrouble s m).1 = 0) (hp : (slotGet s k).pivoted = false) {conds : Nat} (hconds : (v.conds ||| if v.stopped then 0 else 2 ^ 3) = conds)
    (hc : conds &&& (0x3F0 ||| m.fbMask) = 0) :
    execSolveDeadline k s = .next (solveEnded s k m b v conds) := by
  have hfb : (conds &&& (0x3F0 ||| m.fbMask) != 0) = false := bne_eq_false_iff_eq.mpr hc
  have hwarm : (conds &&& 0x3F0 == 0) = true := beq_iff_eq.mpr (and_eq_zero_of_and_or hc)
  have hcode : (if v.haltCode ≠ 0 then v.haltCode else 0) = v.haltCode := by
    split
    · rfl
    · rename_i h; exact (not_not.mp h).symm
  unfold execSolveDeadline
  simp only [hm, hb, hv]
  rw [if_neg (by simp [hf, hs])]
  simp only [deadlineConds, he, ne_eq, not_false_eq_true, if_true, groupTrouble_reach, ht, groupTrouble_code ht,
    slotGet_reach, hp, Nat.or_zero, hconds,
    Bool.false_eq_true, if_false]
  simp only [hfb, hwarm, hcode, Bool.false_eq_true, if_false, Bool.and_true]
  rfl

theorem deadlineShown_solver (s : State) (k : Nat) (m : Simg) (b : BitVec 256) (v : Solve) (conds : Nat) :
    (deadlineShown s k m b v conds).solver = s.solver := by
  unfold deadlineShown
  rw [reach_shape]
  rfl

theorem deadlineShown_shape (s : State) (k : Nat) (m : Simg) (b : BitVec 256) (v : Solve) (conds : Nat) :
    deadlineShown s k m b v conds = { s with regs := (deadlineShown s k m b v conds).regs, time := (deadlineShown s k m b v conds).time,
                                             facet := (deadlineShown s k m b v conds).facet } := by
  unfold deadlineShown
  rw [reach_shape]
  rfl

theorem deadlineShown_pages (s : State) {k : Nat} (m : Simg) (b : BitVec 256) (v : Solve) (conds : Nat) (hk : k < 32) :
    PagesOnly (· = pgSolv) s (deadlineShown s k m b v conds) := by
  have hsent : PagesOnly (· = pgSolv) s (sendCommand (s.reach (v.start + bSpan b - m.finalTicks)) m true false false) := reach_pages _ s _
  exact (hsent.setReg rfl (slotOff_lt (f := F.SOLV_SLOT1_STAT) hk (by decide))).fset rfl (slotOff_lt (f := F.SOLV_SLOT2_ITER) hk (by decide))

/-- The status word that a deadline shows (Table 8.9). -/
theorem deadlineShown_stat (s : State) (k : Nat) (m : Simg) (b : BitVec 256) (v : Solve) (conds : Nat) :
    (deadlineShown s k m b v conds).reg pgSolv (F.SOLV_SLOT1_STAT.off + 16 * k) =
      BitVec.ofNat 32 (primaryStatus conds v.haltCode + (conds % 2 ^ 16) * 2 ^ 16) := by
  have hiter : (F.SOLV_SLOT2_ITER.sh (16 * k)).off = F.SOLV_SLOT1_STAT.off + 16 * k + 4 := by simp only [Fld.sh]; omega
  unfold deadlineShown
  rw [reg_fset_ne _ _ _ (by omega), reg_setReg_same]

theorem deadlineShown_iter (s : State) (k : Nat) (m : Simg) (b : BitVec 256) (v : Solve) (conds : Nat) :
    (deadlineShown s k m b v conds).fget pgSolv (F.SOLV_SLOT2_ITER.sh (16 * k)) = v.iter % 2 ^ 16 :=
  fget_fset_shSame _ _ F.SOLV_SLOT2_ITER _ _ (by decide)

theorem solveOver_reg (s : State) (k : Nat) (m : Simg) (v : Solve) (conds p o : Nat) : (solveOver s k m v conds).reg p o = s.reg p o :=
  slotSet_reg ..

theorem solveEnded_shape (s : State) (k : Nat) (m : Simg) (b : BitVec 256) (v : Solve) (conds : Nat) :
    solveEnded s k m b v conds = { s with
      regs := (solveEnded s k m b v conds).regs, time := (solveEnded s k m b v conds).time, solver := (solveEnded s k m b v conds).solver,
      facet := (solveEnded s k m b v conds).facet, host := (solveEnded s k m b v conds).host } := by
  unfold solveEnded
  rw [condIrq_shape]
  unfold solveOver
  rw [deadlineShown_shape]
  rfl

theorem slotGet_solveEnded_ne (s : State) {i k : Nat} (m : Simg) (b : BitVec 256) (v : Solve) (conds : Nat) (h : i ≠ k) :
    slotGet (solveEnded s k m b v conds) i = slotGet s i := by
  unfold solveEnded
  rw [slotGet_congr (condIrq_solver ..)]
  unfold solveOver
  rw [slotGet_slotSet_ne _ _ h, slotGet_congr (deadlineShown_solver ..)]

/-- The slot whose solve has ended. -/
theorem slotGet_solveEnded_same (s : State) (k : Nat) (m : Simg) (b : BitVec 256) (v : Solve) (conds : Nat) :
    slotGet (solveEnded s k m b v conds) k = { slotGet s k with
      solve := some { v with conds := conds, finished := true, stopped := true }, warm := m.method != 2,
      ahead := (deadlineShown s k m b v conds).fbit pgSolv F.SOLV_CTRL_RUNAHEAD_EN, ranOut := true } := by
  unfold solveEnded
  rw [slotGet_congr (condIrq_solver ..)]
  unfold solveOver
  rw [slotGet_slotSet_same, slotGet_congr (deadlineShown_solver ..)]

theorem solveEnded_pages (s : State) {k : Nat} (m : Simg) (b : BitVec 256) (v : Solve) (conds : Nat) (hk : k < 32) :
    PagesOnly (· = pgSolv) s (solveEnded s k m b v conds) := by
  have hover : PagesOnly (· = pgSolv) s (solveOver (deadlineShown s k m b v conds) k m v conds) :=
    (deadlineShown_pages s m b v conds hk).trans fun _ _ _ _ => solveOver_reg ..
  exact hover.trans (.of_regsOnly (condIrq_regs _ conds) (by simp))

/-- A register of a slot is not the page's causes. -/
theorem solveEnded_slotReg (s : State) {k o : Nat} (m : Simg) (b : BitVec 256) (v : Solve) (conds : Nat) (hk : k < 32)
    (ho : 0x100 ≤ o ∧ o < 0x110) :
    (solveEnded s k m b v conds).reg pgSolv (o + 16 * k) = (deadlineShown s k m b v conds).reg pgSolv (o + 16 * k) :=
  (condIrq_regs _ conds pgSolv _ (by omega) (by simp; omega)).trans (solveOver_reg ..)

/-! ### The statement -/

/-- Settles O47: each step of a solve is its state lemma above, read field by field. -/
theorem oneSolve : Obligations.OneSolve := by
  unfold Obligations.OneSolve
  intro s k m b y only hk hm hb
  refine ⟨fun start bpn hs hv hroom hrun => ⟨fun hst => ?bare, fun d x hst hx hc hr hfit ht => ?single⟩,
    fun v hv hf => ⟨fun mr ht hmr => ?test, fun ht hs hverd hmeas hforce hrun => ?send, fun hs hstop he => ⟨fun r ht hr hn hp hd hpiv => ?within, fun ht => ?trouble⟩,
    fun hs he ht hp => ?deadline⟩⟩
  case bare =>
    refine ⟨_, execDeltaTick_bare hm hb hs hv hroom hrun hst, ?_, fun i hi => ?_, slotGet_slotSet_same ..⟩
    · rw [reach_shape]; rfl
    · rw [slotGet_slotSet_ne _ _ hi, slotGet_reach]
  case single =>
    have hstage := slotGet_unstage_only (s := s.reach (start - (m.deltaMax + 32))) ((congrArg SolvSlot.staged (slotGet_reach ..)).trans hst)
    refine ⟨_, solveOf m start bpn [d], execDeltaTick_single hm hb hs hv hroom hrun hst hx hc hr hfit ht, ?_, fun i hi => ?_, ?_, rfl, rfl,
      List.append_nil _, congrArg List.length (List.append_nil d.pairs), rfl, ?_⟩
    · rw [reach_shape]; rfl
    · exact (slotGet_slotSet_ne _ _ hi).trans ((slotGet_slotSet_ne _ _ hi).trans (slotGet_reach ..))
    · unfold solveBegun
      rw [slotGet_slotSet_same, slotGet_congr (jobSet_solver ..), hstage, slotGet_reach]
    · refine (jobGet_jobSet_same ..).trans ?_
      simp only [loadEnded, Nat.mod_mod]
  case test =>
    refine ⟨fun ha => ?_, fun pr ha hpr => ?_⟩
    · refine ⟨_, execWindowTest_plain hm hb hv hf ht hmr ha, ?_, fun i hi => ?_, ?_⟩
      · rw [reach_shape]; rfl
      · rw [slotGet_solveSet_ne _ _ hi, slotGet_reach]
      · unfold solveSet
        rw [slotGet_slotSet_same, slotGet_reach]
    · refine ⟨_, execWindowTest_ahead hm hb hv hf ht hmr ha hpr, ?_, fun i hi => ?_, slotGet_solveSet_solve ..⟩
      · rw [reach_shape]; rfl
      · rw [slotGet_solveSet_ne _ _ hi, slotGet_noteRead_ne _ _ hi, slotGet_reach]
  case send =>
    intro cold
    refine ⟨_, solveSent m v cold, execVerdictSend_starts hm hb hv hf ht hs hverd
        hmeas hforce hrun, ?_, fun i hi => ?_, startOut_pages s m v cold hk,
      ?_, rfl, rfl, rfl, rfl, ?_, startOut_count s k m v cold, startOut_facet s k m v cold⟩
    · unfold startTaken
      rw [startOut_shape]; rfl
    · exact (slotGet_slotSet_ne _ _ hi).trans (slotGet_congr (startOut_solver ..) i)
    · unfold startTaken
      rw [slotGet_slotSet_same]
    · unfold startTaken
      rw [slotGet_slotSet_same, slotGet_congr (startOut_solver ..)]
      rfl
  case within =>
    have hrun := execSolveCheck_reported hm hb hv hf hs hstop he ht hr
    rw [checkOutcome_within hn hp hd hpiv] at hrun
    refine ⟨_, { v with conds := v.conds ||| 0, stopped := true, iter := r.getD 9 0, checks := v.checks + 1 }, hrun, ?_, fun i hi => ?_,
      checkShown_pages s m v r _ hk, ?_, rfl, Nat.or_zero _, rfl, rfl, checkShown_iter ..⟩
    · unfold checkNoted
      rw [checkShown_shape]; rfl
    · exact (slotGet_slotSet_ne _ _ hi).trans (slotGet_checkShown_ne s m v r _ hi)
    · unfold checkNoted
      rw [slotGet_slotSet_same]
  case trouble =>
    refine ⟨_, _, execSolveCheck_troubled hm hb hv hf hs hstop he ht, checkTroubled_shape .., fun i hi => ?_,
      slotGet_solveSet_solve .., rfl, rfl, rfl⟩
    exact (slotGet_solveSet_ne _ _ hi).trans (slotGet_noteRead_command_ne _ _ _ _ _ _ hi)
  case deadline =>
    intro conds hc
    have hslot := slotGet_solveEnded_same s k m b v conds
    refine ⟨_, { v with conds := conds, finished := true, stopped := true }, execSolveDeadline_over hm hb hv hf hs he ht hp rfl hc,
      solveEnded_shape .., fun i hi => slotGet_solveEnded_ne s m b v conds hi, solveEnded_pages s m b v conds hk, by rw [hslot], rfl, rfl, rfl,
      by rw [hslot], by rw [hslot], (solveEnded_slotReg s m b v conds hk (by decide)).trans (deadlineShown_stat ..), ?_⟩
    unfold State.fget
    exact (congrArg (bitsOf · 0 16) (solveEnded_slotReg s m b v conds hk (by decide))).trans (deadlineShown_iter ..)

end Sys2Proof.Machine
end

section
/-! SUPPORT. What the islands' own parts of a plan epoch leave (R203, R256, R279, R314, R325, R378): everything of Plan time but the crossings
under way and the memory calendars, and the spare loads and remaps. -/

namespace Sys2Proof.Machine

/-- Plan time is as before, except for crossings that start and calendars that begin again; no spare load or remap is added or ends. -/
structure EpochKeeps (s t : State) : Prop where
  time : t.time = { s.time with crossings := t.time.crossings, chans := t.time.chans }
  loads : t.facet.loads = s.facet.loads
  remaps : t.facet.remaps = s.facet.remaps
  remapBpn : t.facet.remapBpn = s.facet.remapBpn

namespace EpochKeeps
variable {s0 s t : State}

theorem refl (s : State) : EpochKeeps s s := ⟨rfl, rfl, rfl, rfl⟩

theorem trans (h : EpochKeeps s0 s) (g : EpochKeeps s t) : EpochKeeps s0 t :=
  ⟨g.time.trans (by rw [h.time]), g.loads.trans h.loads, g.remaps.trans h.remaps, g.remapBpn.trans h.remapBpn⟩

theorem ite {c : Prop} [Decidable c] (a : c → EpochKeeps s0 s) (b : ¬ c → EpochKeeps s0 t) : EpochKeeps s0 (if c then s else t) := by
  split
  · exact a ‹_›
  · exact b ‹_›

theorem each {α : Type} (l : List α) {f : State → α → State} (hf : ∀ s a, EpochKeeps s0 s → EpochKeeps s0 (f s a)) (h : EpochKeeps s0 s) :
    EpochKeeps s0 (eachIn l f s) := by
  unfold eachIn
  induction l generalizing s with
  | nil => exact h
  | cons a l ih => exact ih (hf _ _ h)

/-- What leaves time and tiles alone. -/
theorem same (h : EpochKeeps s0 s) (ht : t.time = s.time) (hf : t.facet = s.facet) : EpochKeeps s0 t :=
  ⟨by rw [ht]; exact h.time, by rw [hf]; exact h.loads, by rw [hf]; exact h.remaps, by rw [hf]; exact h.remapBpn⟩

/-! ### The shared operations -/

theorem setReg {p o : Nat} {w : Word} (h : EpochKeeps s0 s) : EpochKeeps s0 (s.setReg p o w) := h.same rfl rfl
theorem fset {p v : Nat} {f : Fld} (h : EpochKeeps s0 s) : EpochKeeps s0 (s.fset p f v) := h.same rfl rfl
theorem fincSat {p d : Nat} {f : Fld} (h : EpochKeeps s0 s) : EpochKeeps s0 (s.fincSat p f d) := h.same rfl rfl
theorem setReg64 {p lo hi v : Nat} (h : EpochKeeps s0 s) : EpochKeeps s0 (s.setReg64 p lo hi v) := h.same rfl rfl
theorem memSet {x : MemSt} (h : EpochKeeps s0 s) : EpochKeeps s0 (memSet s x) := h.same rfl rfl
theorem pairSet {n : Nat} {x : PwmPair} (h : EpochKeeps s0 s) : EpochKeeps s0 (pairSet s n x) := h.same rfl rfl
theorem chanSet {n : Nat} {x : LoopChan} (h : EpochKeeps s0 s) : EpochKeeps s0 (chanSet s n x) := h.same rfl rfl
theorem slotSet {k : Nat} {x : SolvSlot} (h : EpochKeeps s0 s) : EpochKeeps s0 (slotSet s k x) := h.same rfl rfl
theorem jobSet {j : Nat} {x : Job} (h : EpochKeeps s0 s) : EpochKeeps s0 (jobSet s j x) := h.same rfl rfl
theorem tileSet {i : Nat} {x : Tile} (h : EpochKeeps s0 s) : EpochKeeps s0 (tileSet s i x) := ⟨h.time, h.loads, h.remaps, h.remapBpn⟩
theorem phaseSet {c : Nat} {x : ChanPhase} (h : EpochKeeps s0 s) : EpochKeeps s0 (phaseSet s c x) :=
  h.trans ⟨rfl, rfl, rfl, rfl⟩

theorem pageIrq {p bits : Nat} (h : EpochKeeps s0 s) : EpochKeeps s0 (pageIrq s p bits) :=
  h.same (by rw [pageIrq_shape]) (by rw [pageIrq_shape])

theorem capture {p code part detail : Nat} (h : EpochKeeps s0 s) : EpochKeeps s0 (capture s p code part detail) :=
  h.same (capture_time ..) (capture_facet ..)

theorem jobDone {j status result : Nat} (h : EpochKeeps s0 s) : EpochKeeps s0 (jobDone s j status result) :=
  h.same (by rw [jobDone_shape]) (by rw [jobDone_shape])

/-! ### Facet tiles -/

theorem tileWrite {i w : Nat} {d : DWord} {p : Bool} (h : EpochKeeps s0 s) : EpochKeeps s0 (tileWrite s i w d p) := h.memSet.tileSet

theorem storeOut {i w : Nat} {c : Cont} (h : EpochKeeps s0 s) : EpochKeeps s0 (storeOut s i w c) := by
  unfold Machine.storeOut
  refine ite (fun _ => h.tileWrite) fun _ => ?_
  split
  · exact h.capture
  · exact h.trans ⟨rfl, rfl, rfl, rfl⟩

theorem tileEpoch {i : Nat} (h : EpochKeeps s0 s) : EpochKeeps s0 (tileEpoch s i) :=
  (each _ (fun _ _ hs => hs.storeOut) h).tileSet

theorem tileProgram {i : Nat} (h : EpochKeeps s0 s) : EpochKeeps s0 (tileProgram s i) := by
  unfold Machine.tileProgram
  split
  · exact h.fset
  · exact (each _ (fun _ _ hs => hs.tileWrite) h).fset

theorem calendarEpoch (h : EpochKeeps s0 s) : EpochKeeps s0 (calendarEpoch s) :=
  each _ (fun _ _ hs => (each _ (fun _ _ hw => hw.fset.fset) hs).phaseSet.fset) h

/-! ### PWM pairs and loop channels -/

theorem setOutputs {n : Nat} {hi lo : Bool} (h : EpochKeeps s0 s) : EpochKeeps s0 (setOutputs s n hi lo) := h.fset.fset

theorem tripPads {n : Nat} (h : EpochKeeps s0 s) : EpochKeeps s0 (tripPads s n) := h.pairSet.setOutputs

theorem pairIdle {n : Nat} (h : EpochKeeps s0 s) : EpochKeeps s0 (pairIdle s n) := h.pairSet.setOutputs.fset

theorem setHolds {n holds : Nat} (h : EpochKeeps s0 s) : EpochKeeps s0 (setHolds s n holds) := by
  unfold Machine.setHolds
  dsimp only
  refine ite (fun _ => h) fun _ => ite (fun _ => ?held) fun _ => ite (fun _ => ?resumes) fun _ => h.fset.pairIdle.pageIrq
  case held =>
    refine ite (fun _ => ?_) fun _ => .pageIrq (.fset ?_) <;>
    exact ite (fun _ => h.fset.tripPads.fincSat) fun _ => h.fset.pairSet
  case resumes => exact ite (fun _ => h.fset.pairSet.fset.pageIrq) fun _ => h.fset.pairSet

theorem refreshHolds (h : EpochKeeps s0 s) : EpochKeeps s0 (refreshHolds s) := each _ (fun _ _ hs => hs.setHolds) h

theorem pwmEpoch (h : EpochKeeps s0 s) : EpochKeeps s0 (pwmEpoch s) := by
  refine each _ (fun s n hs => ?_) h
  refine ite (fun _ => hs.setReg) fun _ => ?_
  exact ite (fun _ => hs.setReg.fset.fset.fset.pairSet.pairIdle) fun _ =>
    ite (fun _ => hs.setReg.fset.fset.fset.pairSet.pairIdle.pageIrq) fun _ => hs.setReg.fset.fset.fset.pairSet

theorem routeWrite {target tick : Nat} {v : Int} (h : EpochKeeps s0 s) : EpochKeeps s0 (routeWrite s target v tick) :=
  ite (fun _ => h.pairSet.fset) fun _ => ite (fun _ => h.chanSet) fun _ => h

theorem safeRoutes {c r0 r1 tick : Nat} (h : EpochKeeps s0 s) : EpochKeeps s0 (safeRoutes s c r0 r1 tick) := h.chanSet.routeWrite.routeWrite

theorem testChannelGone {c : Nat} (h : EpochKeeps s0 s) : EpochKeeps s0 (testChannelGone s c) := by
  unfold Machine.testChannelGone
  split
  · rename_i x _
    have hfree : EpochKeeps s0 { s with loop := { s.loop with test := none } } := h.same rfl rfl
    exact ite (fun _ => hfree.fset.jobDone.pageIrq) fun _ => h
  · exact h

theorem loopEpoch {entries : Nat → Word × Word × Word × Word} {tick : Nat} (h : EpochKeeps s0 s) : EpochKeeps s0 (loopEpoch s entries tick) := by
  refine each _ (fun s c hs => ?_) h
  refine ite (fun _ => hs) fun _ => ?_
  refine ite (fun _ => .fset (.setReg (.setReg (.setReg (.setReg (.testChannelGone (.chanSet ?_))))))) fun _ =>
    .setReg (.setReg (.setReg (.setReg (.testChannelGone (.chanSet ?_))))) <;>
  exact ite (fun _ => hs.safeRoutes) fun _ => hs

/-! ### CriskaLink, the solver and SOLV_PLAN -/

theorem fitCheck {p : Nat} (h : EpochKeeps s0 s) : EpochKeeps s0 (fitCheck s p) := by
  unfold Machine.fitCheck
  refine ite (fun _ => h.fset) fun _ => ?_
  split
  · exact h.fset
  · exact h.fset.capture

theorem clnkEpoch (h : EpochKeeps s0 s) : EpochKeeps s0 (clnkEpoch s) :=
  each _ (fun _ _ hs => ite (fun _ => (each _ (fun _ _ hi => hi.setReg) hs).fitCheck) fun _ => each _ (fun _ _ hi => hi.setReg) hs) h

theorem takeForceCold {k : Nat} (h : EpochKeeps s0 s) : EpochKeeps s0 (takeForceCold s k) :=
  ite (fun _ => h.slotSet) fun _ => h.slotSet.fset

theorem slotEpoch {k : Nat} (h : EpochKeeps s0 s) : EpochKeeps s0 (slotEpoch s k) := by
  unfold Machine.slotEpoch
  dsimp only
  have hdrop : ∀ (l : List StagedDelta), EpochKeeps s0 (eachIn l (fun s d => Machine.jobDone s d.job stSlotNotBound 0) s) :=
    fun l => each l (fun _ _ hs => hs.jobDone) h
  have hend := fun (l : List StagedDelta) (js : List Nat) =>
    each js (f := fun s j => Machine.jobDone s j stNoWindow 0) (fun _ _ hs => hs.jobDone) (hdrop l)
  refine ite (fun _ => .takeForceCold (.slotSet (each _ (fun s j hs => ?_) (hend _ _)))) fun _ => .slotSet (each _ (fun s j hs => ?_) (hend _ _)) <;>
  · split
    · exact hs.jobSet
    · exact hs

theorem showSlots (h : EpochKeeps s0 s) : EpochKeeps s0 (showSlots s) := each _ (fun _ _ hs => hs.fset.fset) h

theorem showPlan (h : EpochKeeps s0 s) : EpochKeeps s0 (showPlan s) := by
  unfold Machine.showPlan
  dsimp only
  refine showSlots ?_
  split
  · exact h.fset.fset.fset.fset.setReg64
  · exact h.fset.fset.fset.fset

end EpochKeeps
end Sys2Proof.Machine
end

section
/-! SUPPORT. Plan loads, stops and the plan epoch (R55, R56, R66, R249, R250). -/

namespace Sys2Proof.Machine

/-! ### What SOLV_PLAN shows -/

/-- SOLV_PLAN's bits of the plan in force, its number, and whether a load or stop waits. -/
def planBits (s : State) : State :=
  ((s.fset pgSolv F.SOLV_PLAN_IN_FORCE (b2n s.time.plan.isSome)).fset pgSolv F.SOLV_PLAN_PLAN_ID (match s.time.plan with
    | some p => p.planId
    | none => 0)).fset pgSolv F.SOLV_PLAN_PENDING (b2n s.time.next.isSome)

/-- What waits, as STOP and SOLV_EPOCH show it. -/
def nextShown (s : State) : State :=
  match s.time.next with
  | some e => (s.fset pgSolv F.SOLV_PLAN_STOP (b2n e.stop)).setReg64 pgSolv F.SOLV_EPOCH_LO.off F.SOLV_EPOCH_HI.off e.bpn
  | none => s.fset pgSolv F.SOLV_PLAN_STOP 0

theorem showPlan_eq (s : State) : showPlan s = showSlots (nextShown (planBits s)) := rfl

theorem regs_trans {s t u : State} (h : t = { s with regs := t.regs }) (g : u = { t with regs := u.regs }) : u = { s with regs := u.regs } := by
  refine g.trans ?_
  rw [h]

/-- What each step of a state function over a list relates, the whole of it relates. -/
theorem eachIn_rel {α : Type} {R : State → State → Prop} (hrefl : ∀ s, R s s) (htrans : ∀ {s t u}, R s t → R t u → R s u) {l : List α}
    {f : State → α → State} (hf : ∀ s, ∀ a ∈ l, R s (f s a)) (s : State) : R s (eachIn l f s) := by
  unfold eachIn
  induction l generalizing s with
  | nil => exact hrefl s
  | cons a l ih => exact htrans (hf s a List.mem_cons_self) (ih (fun t b hb => hf t b (List.mem_cons_of_mem a hb)) (f s a))

theorem showSlots_shape (s : State) : showSlots s = { s with regs := (showSlots s).regs } :=
  eachIn_rel (R := fun s t => t = { s with regs := t.regs }) (fun _ => rfl) regs_trans (fun _ _ _ => rfl) s

theorem nextShown_shape (s : State) : nextShown s = { s with regs := (nextShown s).regs } := by
  unfold nextShown
  split <;> rfl

theorem showPlan_shape (s : State) : showPlan s = { s with regs := (showPlan s).regs } :=
  regs_trans (t := nextShown (planBits s)) (regs_trans (t := planBits s) rfl (nextShown_shape _)) (showSlots_shape _)

/-- A register below the slots' keeps its word while the slots are shown. -/
theorem showSlots_below (s : State) {p o : Nat} (ho : o < 0x100) : (showSlots s).reg p o = s.reg p o := by
  refine eachIn_rel (R := fun s t => t.reg p o = s.reg p o) (fun _ => rfl) (fun h g => g.trans h) (fun t k hk => ?_) s
  have hk : k < 32 := List.mem_range.mp hk
  have hs : (F.SOLV_SLOT0_STATE.sh (16 * k)).off = 0x100 + 16 * k := rfl
  have hl : (F.SOLV_SLOT0_LEAD.sh (16 * k)).off = 0x100 + 16 * k := rfl
  dsimp only
  unfold slotState
  rw [reg_fset_ne _ _ _ (by omega), reg_fset_ne _ _ _ (by omega)]

theorem showPlan_fget_eq (s : State) {f : Fld} (h : f.off < 0x100) : (showPlan s).fget pgSolv f = (nextShown (planBits s)).fget pgSolv f := by
  unfold State.fget
  rw [showPlan_eq, showSlots_below _ h]

/-- A field of SOLV_PLAN beside STOP is not moved by showing what waits. -/
theorem nextShown_beside (s : State) {f : Fld} (ho : f.off = F.SOLV_PLAN_STOP.off) (h : f.lo + f.wid ≤ 2 ∨ 3 ≤ f.lo) :
    (nextShown s).fget pgSolv f = s.fget pgSolv f := by
  have hstop : F.SOLV_PLAN_STOP.off = 0x048 := rfl
  have hlo : F.SOLV_EPOCH_LO.off = 0x050 := rfl
  have hhi : F.SOLV_EPOCH_HI.off = 0x054 := rfl
  unfold nextShown
  split
  · unfold State.setReg64
    rw [fget_setReg_ne _ _ _ (by omega), fget_setReg_ne _ _ _ (by omega), fget_fset_beside _ _ F.SOLV_PLAN_STOP f _ ho h]
  · exact fget_fset_beside _ _ F.SOLV_PLAN_STOP f _ ho h

theorem showPlan_inForce (s : State) : (showPlan s).fget pgSolv F.SOLV_PLAN_IN_FORCE = b2n s.time.plan.isSome := by
  rw [showPlan_fget_eq _ (by decide), nextShown_beside (f := F.SOLV_PLAN_IN_FORCE) _ rfl (by decide)]
  unfold planBits
  rw [fget_fset_beside _ _ F.SOLV_PLAN_PENDING F.SOLV_PLAN_IN_FORCE _ rfl (by decide),
    fget_fset_beside _ _ F.SOLV_PLAN_PLAN_ID F.SOLV_PLAN_IN_FORCE _ rfl (by decide), fget_fset_same _ _ _ _ (by decide)]
  exact b2n_mod_two _

theorem showPlan_pending (s : State) : (showPlan s).fget pgSolv F.SOLV_PLAN_PENDING = b2n s.time.next.isSome := by
  rw [showPlan_fget_eq _ (by decide), nextShown_beside (f := F.SOLV_PLAN_PENDING) _ rfl (by decide)]
  unfold planBits
  rw [fget_fset_same _ _ _ _ (by decide)]
  exact b2n_mod_two _

theorem showPlan_stop {s : State} {e : EpochPlan} (h : s.time.next = some e) : (showPlan s).fget pgSolv F.SOLV_PLAN_STOP = b2n e.stop := by
  have hnext : (planBits s).time.next = some e := h
  rw [showPlan_fget_eq _ (by decide)]
  unfold nextShown
  rw [hnext]
  dsimp only
  unfold State.setReg64
  rw [fget_setReg_ne _ _ _ (by decide), fget_setReg_ne _ _ _ (by decide), fget_fset_same _ _ _ _ (by decide)]
  exact b2n_mod_two _

/-! ### A load or stop waits -/

/-- A load or stop that joins no remap waits for its epoch (R55, R249). -/
def planWaits (s : State) (load : Option PlanImage) : State :=
  showPlan (timeSet s { s.time with next := some { load := load, stop := load.isNone, joined := false, bpn := epochFrom s s.now } })

/-- With no load, or with no remap pending, a load or stop waits on its own. -/
theorem planPend_eq {s : State} {load : Option PlanImage} (h : (load.isSome && s.fbit pgFmap F.FMAP_STAT_REMAP_PENDING) = false) :
    planPend s load = planWaits s load := by
  unfold planPend
  simp only [h, Bool.false_eq_true, false_and, if_false]
  rfl

theorem planWaits_shape (s : State) (load : Option PlanImage) :
    planWaits s load = { s with regs := (planWaits s load).regs, time := { s.time with next := (planWaits s load).time.next } } := by
  unfold planWaits
  rw [showPlan_shape]
  rfl

theorem planWaits_next (s : State) (load : Option PlanImage) :
    (planWaits s load).time.next = some { load := load, stop := load.isNone, joined := false, bpn := epochFrom s s.now } := by
  unfold planWaits
  rw [showPlan_shape]
  rfl

theorem planWaits_pending (s : State) (load : Option PlanImage) : (planWaits s load).fget pgSolv F.SOLV_PLAN_PENDING = 1 :=
  (showPlan_pending _).trans rfl

theorem planWaits_stop (s : State) (load : Option PlanImage) : (planWaits s load).fget pgSolv F.SOLV_PLAN_STOP = b2n load.isNone :=
  showPlan_stop (e := { load := load, stop := load.isNone, joined := false, bpn := epochFrom s s.now }) rfl

/-- The number of an epoch does not depend on what waits for it (R55). -/
theorem epochFrom_congr {s t : State} (h : t.time = { s.time with next := t.time.next }) : epochFrom t t.now = epochFrom s s.now := by
  unfold epochFrom planPos State.now
  rw [h]

/-- A load or stop with its room in the Plan region waits for its epoch (R249, R525). -/
def planWaiting (s : State) (bytes : Nat) (load : Option PlanImage) : State := planWaits (planTake s 33 bytes) load

theorem waits_trans {s p u : State} (hp : p = { s with regs := p.regs, mem := p.mem })
    (hu : u = { p with regs := u.regs, time := { p.time with next := u.time.next } }) :
    u = { s with regs := u.regs, time := { s.time with next := u.time.next }, mem := u.mem } := by
  rw [hu, hp]

theorem planWaiting_shape (s : State) (bytes : Nat) (load : Option PlanImage) :
    planWaiting s bytes load = { s with
      regs := (planWaiting s bytes load).regs, time := { s.time with next := (planWaiting s bytes load).time.next },
      mem := (planWaiting s bytes load).mem } :=
  waits_trans (planTake_shape s 33 bytes) (planWaits_shape ..)

theorem planWaiting_part (s : State) (bytes : Nat) (load : Option PlanImage) : (planWaiting s bytes load).part = s.part := by
  rw [planWaiting_shape]

theorem jobGet_planWaiting (s : State) (bytes : Nat) (load : Option PlanImage) (j : Nat) : jobGet (planWaiting s bytes load) j = jobGet s j := by
  have hqe : (planWaiting s bytes load).qe = s.qe := by rw [planWaiting_shape]
  unfold jobGet
  rw [hqe]

theorem planWaiting_next (s : State) (bytes : Nat) (load : Option PlanImage) :
    (planWaiting s bytes load).time.next = some { load := load, stop := load.isNone, joined := false, bpn := epochFrom s s.now } := by
  unfold planWaiting
  rw [planWaits_next, epochFrom_congr (t := planTake s 33 bytes) (s := s) (by rw [planTake_time])]

theorem planWaiting_pending (s : State) (bytes : Nat) (load : Option PlanImage) : (planWaiting s bytes load).fget pgSolv F.SOLV_PLAN_PENDING = 1 :=
  planWaits_pending ..

theorem planWaiting_stop (s : State) (bytes : Nat) (load : Option PlanImage) :
    (planWaiting s bytes load).fget pgSolv F.SOLV_PLAN_STOP = b2n load.isNone :=
  planWaits_stop ..

theorem epochFrom_planWaiting (s : State) (bytes : Nat) (load : Option PlanImage) :
    epochFrom (planWaiting s bytes load) (planWaiting s bytes load).now = epochFrom s s.now :=
  epochFrom_congr (by rw [planWaiting_shape])

/-- With every position VALID and no tile leaving, no remap is decided. -/
theorem remapVacant_none {s : State} (hv : ∀ p, p < s.var.facetExposed → posValid s p = true) (hl : s.facet.leaving = []) :
    remapVacant s = s := by
  have hvacant : (List.range s.var.facetExposed).filter (posVacant s) = [] :=
    List.filter_eq_nil_iff.mpr fun p hp => by simp [posVacant, hv p (List.mem_range.mp hp)]
  unfold remapVacant
  rw [hvacant]
  simp only [eachIn, List.foldl_nil, hl, List.filterMap_nil]

section Load
variable {s : State} {job : Nat} {x : Job} {img : PlanImage} {d : List Byte} (hx : startedJob s job 0x20 = some x)
  (hd : x.data = some (.good d [])) (hm : memReady s = true) (hp : imagePayloadOk x = true) (hr : s.part.resets.find? x.part = none)
  (hv : ∀ p, p < s.var.facetExposed → posValid s p = true) (hl : s.facet.leaving = [])
include hx hd hm hp hv hl

/-- PLAN_LOAD of an image that fails a check (R249). -/
theorem execPlanLoad_fails (hc : img.firstFailed s ≠ 0) : execPlanLoad job img s = .next (loadDone s job 0x0800 (img.firstFailed s)) := by
  unfold execPlanLoad
  simp only [hx, hm, hp, not_true_eq_false, if_false]
  rw [withHostData_good _ _ _ _ (jobGet_of_started hx) hd, remapVacant_none hv hl, if_pos hc]

include hr in
/-- PLAN_LOAD of an image that passes and fits waits for its epoch, whose number it answers (R249). -/
theorem execPlanLoad_waits (hrm : s.fbit pgFmap F.FMAP_STAT_REMAP_PENDING = false) (hc : img.firstFailed s = 0)
    (hf : payBits x 128 32 ≤ planFree s 33) :
    execPlanLoad job img s = .next (jobSet (loadDone (planWaiting s (payBits x 128 32) (some img)) job stOk 0) job
      (loadEnded x stOk (epochFrom s s.now))) := by
  have hpend : (planTake s 33 (payBits x 128 32)).fbit pgFmap F.FMAP_STAT_REMAP_PENDING = false := by
    rw [State.fbit, (planTake_regs s _ _).fget (by decide) (by decide)]
    exact hrm
  have hwait : planPend (planTake s 33 (payBits x 128 32)) (some img) = planWaiting s (payBits x 128 32) (some img) :=
    planPend_eq (by rw [hpend, Bool.and_false])
  have hjob : jobGet (planWaiting s (payBits x 128 32) (some img)) job = some x := (jobGet_planWaiting ..).trans (jobGet_of_started hx)
  have hres : (planWaiting s (payBits x 128 32) (some img)).part.resets.find? x.part = none := by rwa [planWaiting_part]
  unfold execPlanLoad
  simp only [hx, hm, hp, not_true_eq_false, if_false]
  rw [withHostData_good _ _ _ _ (jobGet_of_started hx) hd, remapVacant_none hv hl, if_neg (not_not.mpr hc), if_neg (Nat.not_lt.mpr hf), hwait,
    loadDone_job stOk 0 hjob hres, epochFrom_planWaiting]
  rfl

end Load

/-- PLAN_STOP waits for its epoch, whose number it answers (R250). -/
theorem execPlanStop_waits {s : State} {job : Nat} {x : Job} (hx : startedJob s job 0x21 = some x) (hr : s.part.resets.find? x.part = none) :
    execPlanStop job s = .next (jobSet (planWaiting s 0 none) job (loadEnded x stOk (epochFrom s s.now % 2 ^ 32))) := by
  have hjob : jobGet (planWaiting s 0 none) job = some x := (jobGet_planWaiting ..).trans (jobGet_of_started hx)
  have hres : (planWaiting s 0 none).part.resets.find? x.part = none := by rwa [planWaiting_part]
  have hwait : planPend (planTake s 33 0) none = planWaiting s 0 none := planPend_eq rfl
  unfold execPlanStop
  simp only [hx]
  rw [hwait, jobDone_live stOk _ hjob hres]

/-! ### The plan epoch -/

/-- Every entry of a table that meets a condition reads so, as does the default. -/
theorem tabGet_of_forall {α : Type} {P : α → Prop} {t : Tab α} {d : α} (h : ∀ e ∈ t, P e.2) (hd : P d) (k : Nat) : P (t.get d k) := by
  unfold Tab.get
  cases e : t.find? k with
  | none => exact hd
  | some v => exact h _ (Tab.mem_of_find? e)

/-- After the epoch no release register holds a pending stage (R56, R66). -/
theorem releasesEpoch_pending (s : State) (r : Nat) : ((releasesEpoch s).time.releases.get {} r).pending = none := by
  refine tabGet_of_forall (P := fun x : RelReg => x.pending = none) (fun e he => ?_) rfl r
  obtain ⟨hm, _⟩ := List.mem_filter.mp he
  obtain ⟨q, _, rfl⟩ := List.mem_map.mp hm
  rfl

theorem releases_trans {s t u : State} (h : t = { s with time := { s.time with releases := t.time.releases } })
    (g : u = { t with time := { t.time with releases := u.time.releases } }) :
    u = { s with time := { s.time with releases := u.time.releases } } := by
  refine g.trans ?_
  rw [h]

/-- The fallback of a stop changes release registers only (R250). -/
theorem releasesStop_shape (s : State) : releasesStop s = { s with time := { s.time with releases := (releasesStop s).time.releases } } := by
  refine eachIn_rel (R := fun s t => t = { s with time := { s.time with releases := t.time.releases } }) (fun _ => rfl) releases_trans
    (fun t r _ => ?_) s
  dsimp only
  split <;> rfl

/-- The state in which a waiting load or stop has its fallbacks and its room in the Plan region (R250, R525). -/
def planRoom (s : State) (e : EpochPlan) : State :=
  let s := if e.stop then releasesStop s else s
  planTake (planTake s 32 (if e.stop then 0 else s.mem.planUse.get 0 33)) 33 0

theorem planRoom_time (s : State) (e : EpochPlan) : (planRoom s e).time = { s.time with releases := (planRoom s e).time.releases } := by
  unfold planRoom
  dsimp only
  simp only [planTake_time]
  split
  · rw [releasesStop_shape]
  · rfl

theorem planRoom_facet (s : State) (e : EpochPlan) : (planRoom s e).facet = s.facet := by
  unfold planRoom
  dsimp only
  simp only [planTake_facet]
  split
  · rw [releasesStop_shape]
  · rfl

/-- Plan time with a load or stop in effect, over given release registers and lost positions. -/
def timeTaken (x : TimeSt) (e : EpochPlan) (releases : Tab RelReg) (lost : List Nat) : TimeSt :=
  { x with
    releases := releases, plan := e.load, next := none,
    period := match e.load with
      | some p => p.period
      | none => x.period
    cycleH := match e.load with
      | some p => p.cycleH
      | none => 1
    lost := lost }

/-- A load or stop takes effect: its room, then its plan and its grid, then the SOLV page's cause (R56). -/
theorem planTakes_eq {s : State} {e : EpochPlan} (h : s.time.next = some e) :
    planTakes s = pageIrq (timeSet (planRoom s e) (timeTaken (planRoom s e).time e (planRoom s e).time.releases
      ((planRoom s e).time.lost.filter fun p => ((planRoom s e).facet.loads ++ (planRoom s e).facet.remaps).any fun r => r.pos = p))) pgSolv 1 := by
  unfold planTakes
  simp only [h]
  rfl

/-- The load or stop that waits is in force, and nothing waits. -/
theorem planTakes_time {s : State} {e : EpochPlan} (h : s.time.next = some e) :
    (planTakes s).time = timeTaken s.time e (planTakes s).time.releases (planTakes s).time.lost := by
  rw [planTakes_eq h, pageIrq_shape]
  dsimp only [timeSet]
  rw [planRoom_time]
  rfl

theorem planTakes_facet {s : State} {e : EpochPlan} (h : s.time.next = some e) : (planTakes s).facet = s.facet := by
  rw [planTakes_eq h, pageIrq_shape]
  exact planRoom_facet s e

/-- The tiles' part of a plan epoch (R203). -/
def tilesEpoch (s : State) : State := eachIn (List.range s.var.facetTiles) tileEpoch s

/-- Pending release stages are discarded, and the plan cycle starts at this base-period start (R56). -/
def cycleBegun (s : State) : State :=
  let s := releasesEpoch s
  timeSet s { s.time with origin := s.time.startTick, epochTick := s.time.startTick, epochBpn := s.time.bpn.toNat }

/-- The plan's channels, pairs, slot tables, solver slots and tile programs come into force (R56). -/
def islandsEpoch (s : State) : State :=
  let s := loopEpoch s (fun c => match s.time.plan with
    | some p => p.loopEntry c
    | none => (0, 0, 0x3FFFFFFF, 0xFFFF)) s.now
  let s := clnkEpoch (refreshHolds (pwmEpoch s))
  let s := eachIn (List.range 32) slotEpoch s
  eachIn (List.range s.var.facetTiles) tileProgram s

/-- SOLV_EPOCH shows the base period of an epoch that has come. -/
def epochNumbered (s : State) : State :=
  if s.time.next.isNone then s.setReg64 pgSolv F.SOLV_EPOCH_LO.off F.SOLV_EPOCH_HI.off s.time.bpn.toNat else s

theorem epochNumbered_time (s : State) : (epochNumbered s).time = s.time := by
  unfold epochNumbered
  split <;> rfl

/-- The SOLV and PTB pages show an epoch that has come. -/
def epochShown (s : State) : State := pageIrq (showPlan (epochNumbered s)) pgPtb 2

theorem epochShown_time (s : State) : (epochShown s).time = s.time := by
  unfold epochShown
  rw [pageIrq_shape, showPlan_shape]
  exact epochNumbered_time s

theorem epochShown_fget (s : State) {f : Fld} (h : f.off < 4096) : (epochShown s).fget pgSolv f = (showPlan (epochNumbered s)).fget pgSolv f :=
  ((RegsOnly.refl [(pgPtb, F.PG_IRQ_STAT_ERR.off)] (showPlan (epochNumbered s))).pageIrq (by simp)).fget h (by simp)

/-- The PTB page has its epoch cause. -/
theorem epochShown_cause (s : State) : ((epochShown s).reg pgPtb F.PG_IRQ_STAT_ERR.off).getLsbD 1 = true := by
  have hbit : (BitVec.ofNat 32 2).getLsbD 1 = true := by decide
  unfold epochShown
  rw [pageIrq_stat, BitVec.getLsbD_or, hbit, Bool.or_true]

theorem tilesEpoch_keeps (s : State) : EpochKeeps s (tilesEpoch s) := .each _ (fun _ _ h => h.tileEpoch) (.refl s)

theorem islandsEpoch_keeps (s : State) : EpochKeeps s (islandsEpoch s) :=
  .each _ (fun _ _ h => h.tileProgram) (.each _ (fun _ _ h => h.slotEpoch) (EpochKeeps.refl s).loopEpoch.pwmEpoch.refreshHolds.clnkEpoch)

/-- Beginning the cycle moves no tile. -/
theorem cycleBegun_facet (s : State) : (cycleBegun s).facet = s.facet := rfl

section Epoch
variable {s : State} {e : EpochPlan} (hrun : s.time.running = true) (hpos : planPos s = 0) (hnext : s.time.next = some e)
  (hbpn : e.bpn ≤ s.time.bpn.toNat) (hjoin : e.joined = false) (hremaps : s.facet.remaps = [])
  (hfix : s.facet.remapBpn = none) (hmode : s.fget pgPtb F.PTB_SYNC_CTRL_MODE ≠ 2)

include hnext in
/-- The tiles' part leaves what waits. -/
theorem tilesEpoch_next : (tilesEpoch s).time.next = some e := by
  rw [(tilesEpoch_keeps s).time]
  exact hnext

include hrun hpos hnext hbpn hjoin hremaps hfix hmode in
/-- A plan epoch that has come for a load or stop, with no remap under way and no sync pulse to follow (R37, R55, R56). -/
theorem execPlanEpoch_takes : execPlanEpoch s = .next (epochShown (islandsEpoch (calendarEpoch (cycleBegun (planTakes (tilesEpoch s)))))) := by
  have hdue : planDue s = true := by
    unfold planDue
    simp only [hnext, hbpn, hjoin, decide_true, Bool.not_false, Bool.true_or, Bool.and_self]
  have hplace : epochPlace s = s := if_pos hmode
  have hremap : ¬ remapDue (tilesEpoch s) = true := by
    unfold remapDue
    rw [(tilesEpoch_keeps s).remapBpn, hfix, Bool.and_false]
    exact Bool.false_ne_true
  have hnone : (cycleBegun (planTakes (tilesEpoch s))).facet.remaps = [] := by
    rw [cycleBegun_facet, planTakes_facet (tilesEpoch_next hnext), (tilesEpoch_keeps s).remaps, hremaps]
  unfold execPlanEpoch
  rw [if_neg (by simp [hrun, hpos, hdue]), hplace, hdue]
  simp only [if_true]
  rw [show eachIn (List.range s.var.facetTiles) tileEpoch s = tilesEpoch s from rfl, if_neg hremap]
  generalize planTakes (tilesEpoch s) = u at hnone ⊢
  rw [show timeSet (releasesEpoch u) { (releasesEpoch u).time with
      origin := (releasesEpoch u).time.startTick, epochTick := (releasesEpoch u).time.startTick,
      epochBpn := (releasesEpoch u).time.bpn.toNat } = cycleBegun u from rfl]
  simp only [hnone, ne_eq, not_true_eq_false, false_and, and_false, if_false]
  refine congrArg (fun v => nxt (epochShown v)) ?_
  rfl

include hnext in
/-- Plan time after the epoch: the plan in force, nothing waiting, and the cycle begun at this base-period start. -/
theorem epoch_time :
    let u := planTakes (tilesEpoch s)
    let w := islandsEpoch (calendarEpoch (cycleBegun u))
    (epochShown w).time = { timeTaken s.time e (releasesEpoch u).time.releases u.time.lost with
      origin := s.time.startTick, epochTick := s.time.startTick, epochBpn := s.time.bpn.toNat,
      crossings := w.time.crossings, chans := w.time.chans } := by
  intro u w
  have hkeeps : EpochKeeps (cycleBegun u) w := (EpochKeeps.refl _).calendarEpoch.trans (islandsEpoch_keeps _)
  have hbegun : (cycleBegun u).time = { u.time with
      releases := (releasesEpoch u).time.releases, origin := u.time.startTick, epochTick := u.time.startTick, epochBpn := u.time.bpn.toNat } := rfl
  have htaken : u.time = timeTaken (tilesEpoch s).time e u.time.releases u.time.lost := planTakes_time (tilesEpoch_next hnext)
  clear_value w u
  conv_lhs => rw [epochShown_time, hkeeps.time, hbegun, htaken, (tilesEpoch_keeps s).time]
  rfl

end Epoch

/-! ### What a load and a stop change -/

/-- A stop that waits, with its job ended. -/
theorem stopped_trans {s u t : State} (hu : u = { s with regs := u.regs, time := { s.time with next := u.time.next }, mem := u.mem })
    (ht : t = { u with qe := t.qe }) : t = { s with regs := t.regs, time := { s.time with next := t.time.next }, qe := t.qe, mem := t.mem } := by
  rw [ht, hu]

/-- A load that waits, shown in SOLV_LOAD, with its job ended. -/
theorem loaded_trans {s u v t : State} (hu : u = { s with regs := u.regs, time := { s.time with next := u.time.next }, mem := u.mem })
    (hv : v = { u with regs := v.regs, qe := v.qe, host := v.host }) (ht : t = { v with qe := t.qe }) :
    t = { s with regs := t.regs, time := { s.time with next := t.time.next }, qe := t.qe, host := t.host, mem := t.mem } := by
  rw [ht, hv, hu]

/-! ### The statement -/

/-- Settles O37: a load or stop is `planWaiting` with its job ended, and an epoch leaves the time of `epoch_time`. -/
theorem plansComeAndGo : Obligations.PlansComeAndGo := by
  unfold Obligations.PlansComeAndGo
  refine ⟨fun s job x img d hx hd hm hp hr hv hl hrm => ⟨fun hc hf => ?waits, fun hc => ?fails⟩, fun s job x hx hr => ?stops,
    fun s e hrun hpos hnext hbpn hjoin _ hremaps hfix hmode => ?epoch⟩
  case waits =>
    have hjob : jobGet (planWaiting s (payBits x 128 32) (some img)) job = some x := (jobGet_planWaiting ..).trans (jobGet_of_started hx)
    have hres : (planWaiting s (payBits x 128 32) (some img)).part.resets.find? x.part = none := by rwa [planWaiting_part]
    have hshape := loadDone_shape stOk 0 hjob hres
    have hregs := loadDone_regs stOk 0 hjob hres
    refine ⟨_, execPlanLoad_waits hx hd hm hp hr hv hl hrm hc hf, ?_, ?_, ?_, ?_, ?_, jobGet_jobSet_same ..⟩
    · exact loaded_trans (planWaiting_shape ..) hshape (jobSet_shape ..)
    · rw [jobSet_time, loadDone_time stOk 0 hjob hres]
      exact planWaiting_next ..
    · rw [jobSet_fget, hregs.fget (by decide) (by decide), planWaiting_pending]
    · rw [jobSet_fget, hregs.fget (by decide) (by decide), planWaiting_stop]
      rfl
    · rw [jobSet_fget, loadDone_status stOk 0 hjob hres (by decide)]
  case fails =>
    have hjob := jobGet_of_started hx
    exact ⟨_, execPlanLoad_fails hx hd hm hp hv hl hc, loadDone_shape _ _ hjob hr,
      loadDone_status _ _ hjob hr (by decide), loadDone_job _ _ hjob hr⟩
  case stops =>
    refine ⟨_, execPlanStop_waits hx hr, ?_, ?_, ?_, ?_, ?_⟩
    · exact stopped_trans (planWaiting_shape ..) (jobSet_shape ..)
    · rw [jobSet_time]
      exact planWaiting_next ..
    · rw [jobSet_fget, planWaiting_pending]
    · rw [jobSet_fget, planWaiting_stop]
      rfl
    · rw [jobGet_jobSet_same]
      simp only [loadEnded, Nat.mod_mod]
  case epoch =>
    have htime := epoch_time hnext
    refine ⟨_, execPlanEpoch_takes hrun hpos hnext hbpn hjoin hremaps hfix hmode, congrArg TimeSt.plan htime, congrArg TimeSt.next htime,
      congrArg TimeSt.origin htime, congrArg TimeSt.epochTick htime, congrArg TimeSt.epochBpn htime, (congrArg TimeSt.bpn htime).trans rfl,
      (congrArg TimeSt.ptb htime).trans rfl, fun p hload => ?_, fun r => ?_, ?_, ?_, epochShown_cause _⟩
    · rw [htime]
      simp only [timeTaken, hload, and_self]
    · rw [htime]
      exact releasesEpoch_pending ..
    · rw [epochShown_fget _ (by decide), showPlan_inForce, epochNumbered_time, ← epochShown_time, htime]
      rfl
    · rw [epochShown_fget _ (by decide), showPlan_pending, epochNumbered_time, ← epochShown_time, htime]
      rfl

end Sys2Proof.Machine
end

section
/-! SUPPORT. Pulse inputs and the jobs of loop tests: what an accepted edge does to a pin's counter (R291), and what the started test jobs
leave of the LOOP global page, the test table and their partition's memory (R306, R307, R309). -/

namespace Sys2Proof.Machine

/-! ### Pulse inputs -/

/-- What the edges of one cycle do on a pulse input: nothing, count up or down, or set its QUAD bit. -/
inductive PinAct where
  | none
  | count (up : Bool)
  | quad

/-- The counter of pin `n`. -/
abbrev pinCounter (n : Nat) : Fld := F.LOOP_PIN_COUNT_COUNT.sh (4 * n)

/-- The MODE of pin `n`. -/
abbrev pinMode (s : State) (n : Nat) : Nat := s.fget pgLoopG (F.LOOP_PIN_CFG_MODE.sh (4 * n))

/-- A level after the edges of one cycle. -/
abbrev pinLevel (t : Tab Bool) (n : Nat) (edge : Bool) : Bool := t.get false n != edge

/-- The lines of a pulse input after the edges of one cycle. -/
def pinMoved (s : State) (n : Nat) (a b : Bool) : State :=
  { s with loop := { s.loop with
    pinA := s.loop.pinA.set false n (pinLevel s.loop.pinA n a), pinB := s.loop.pinB.set false n (pinLevel s.loop.pinB n b) } }

@[simp] theorem pinMoved_fget (s : State) (n : Nat) (a b : Bool) (p : Nat) (f : Fld) : (pinMoved s n a b).fget p f = s.fget p f := rfl

/-- What accepted edges do by the pin's MODE (R291). -/
def pinAct (s : State) (n : Nat) (a b : Bool) : PinAct :=
  match pinMode s n with
  | 1 =>
    if a ∧ b then .quad
    else if a then .count (pinLevel s.loop.pinA n a != pinLevel s.loop.pinB n b)
    else if b then .count (pinLevel s.loop.pinA n a == pinLevel s.loop.pinB n b)
    else .none
  | 2 =>
    if a ∧ pinLevel s.loop.pinA n a then .count (s.loop.pinB.get false n == s.fbit pgLoopG (F.LOOP_PIN_CFG_INVERT.sh (4 * n))) else .none
  | 3 => if a ∧ pinLevel s.loop.pinA n a then .count true else .none
  | _ => .none

/-- The state after a pin has counted, or has shown edges on both lines. -/
def pinActed (s : State) (n : Nat) : PinAct → State
  | .none => s
  | .count up => s.fset pgLoopG (pinCounter n) (s.fget pgLoopG (pinCounter n) + if up then 1 else 2 ^ 32 - 1)
  | .quad => pageIrq (s.fset pgLoopG F.LOOP_PIN_ERR_QUAD (natPutBit (s.fget pgLoopG F.LOOP_PIN_ERR_QUAD) n true)) pgLoopG 2

/-- The registers that edges on pin `n` may write. -/
def pinRegs (n : Nat) : List (Nat × Nat) :=
  [(pgLoopG, (pinCounter n).off), (pgLoopG, F.LOOP_PIN_ERR_QUAD.off), (pgLoopG, F.PG_IRQ_STAT_ERR.off)]

/-- Edges on a built pulse input of an island in service move its lines and act by its MODE. -/
theorem execPinEdge_acts {s : State} {n : Nat} (a b : Bool) (hn : n < s.var.pinInputs) (hd : s.loop.down = false) :
    execPinEdge n a b s = .next (pinActed (pinMoved s n a b) n (pinAct s n a b)) := by
  have hbuilt : ¬ (s.var.pinInputs ≤ n ∨ s.loop.down = true) := by simp [hd, hn]
  have hmode : (pinMoved s n a b).fget pgLoopG (F.LOOP_PIN_CFG_MODE.sh (4 * n)) = pinMode s n := rfl
  refine congrArg nxt ?_
  rw [if_neg hbuilt]
  change (match (pinMoved s n a b).fget pgLoopG (F.LOOP_PIN_CFG_MODE.sh (4 * n)) with | 1 => _ | 2 => _ | 3 => _ | _ => _) = _
  rw [hmode]
  unfold pinAct
  split
  · cases a <;> cases b <;> rfl
  · split <;> rfl
  · split <;> rfl
  · rfl

/-- A pin that acts changes registers and, for its interrupt, the host side. -/
theorem pinActed_shape (s : State) (n : Nat) (act : PinAct) :
    pinActed s n act = { s with regs := (pinActed s n act).regs, host := (pinActed s n act).host } := by
  cases act with
  | none => rfl
  | count up => rfl
  | quad => exact regsHost_trans (fset_shape ..) (pageIrq_shape ..)

/-- No more of the loop island than the lines changes. -/
theorem pinActed_moved_shape (s : State) (n : Nat) (a b : Bool) (act : PinAct) :
    let t := pinActed (pinMoved s n a b) n act
    t = { s with regs := t.regs, loop := { s.loop with pinA := t.loop.pinA, pinB := t.loop.pinB }, host := t.host } := by
  dsimp only
  rw [pinActed_shape]
  rfl

/-- The lines are as they were moved. -/
@[simp] theorem pinActed_loop (s : State) (n : Nat) (act : PinAct) : (pinActed s n act).loop = s.loop := by rw [pinActed_shape]

/-- The counter of a pin, the QUAD bits and the page's causes are all that a pin writes. -/
theorem pinActed_regs (s : State) {n : Nat} (act : PinAct) (hn : n < 8) : RegsOnly (pinRegs n) s (pinActed s n act) := by
  cases act with
  | none => exact .refl _ s
  | count up => exact (RegsOnly.refl _ s).fset (by simp [pinRegs]) (by simp only [Fld.sh]; omega)
  | quad => exact ((RegsOnly.refl _ s).fset (by simp [pinRegs]) (by decide)).pageIrq (by simp [pinRegs])

/-- A pin counts modulo 2^32. -/
theorem pinActed_count (s : State) (n : Nat) (up : Bool) :
    (pinActed s n (.count up)).fget pgLoopG (pinCounter n) = (s.fget pgLoopG (pinCounter n) + if up then 1 else 2 ^ 32 - 1) % 2 ^ 32 :=
  fget_fset_shSame s pgLoopG F.LOOP_PIN_COUNT_COUNT (4 * n) _ (by decide)

/-- A pin whose lines both change keeps its count and shows its QUAD bit. -/
theorem pinActed_quad (s : State) {n : Nat} (hn : n < 8) :
    (pinActed s n .quad).fget pgLoopG (pinCounter n) = s.fget pgLoopG (pinCounter n) ∧
      natBit ((pinActed s n .quad).fget pgLoopG F.LOOP_PIN_ERR_QUAD) n = true := by
  have hirq : ∀ (t : State) (f : Fld), f.off < 4096 → f.off ≠ F.PG_IRQ_STAT_ERR.off → (pageIrq t pgLoopG 2).fget pgLoopG f = t.fget pgLoopG f :=
    fun t f ho hne => ((RegsOnly.refl [(pgLoopG, F.PG_IRQ_STAT_ERR.off)] t).pageIrq (by simp)).fget ho (by simpa using hne)
  constructor
  · rw [pinActed, hirq _ _ (by simp only [Fld.sh]; omega) (by simp only [Fld.sh]; omega), fget_fset_ne _ _ _ _ (by simp only [Fld.sh]; omega)]
  · rw [pinActed, hirq _ _ (by decide) (by decide), fget_fset_same _ _ _ _ (by decide), natBit, Nat.testBit_mod_two_pow, testBit_natPutBit_same]
    simp [hn]

/-- A built pulse input is one of eight. -/
theorem pinInputs_le (v : Variant) : v.pinInputs ≤ 8 := by cases v <;> decide

/-- What MODE 3 does: it counts up at a rising edge of A. -/
theorem pinAct_rising {s : State} {n : Nat} (a b : Bool) (h : pinMode s n = 3) :
    pinAct s n a b = if a ∧ pinLevel s.loop.pinA n a then .count true else .none := by
  simp only [pinAct, h]

/-- Quadrature counts by the order of the lines; edges on both at once are no count. -/
theorem pinAct_quadrature {s : State} {n : Nat} (h : pinMode s n = 1) :
    pinAct s n true true = .quad ∧
      pinAct s n true false = .count (pinLevel s.loop.pinA n true != pinLevel s.loop.pinB n false) ∧
      pinAct s n false true = .count (pinLevel s.loop.pinA n false == pinLevel s.loop.pinB n true) := by
  simp [pinAct, h]

/-- MODE 0 counts nothing, and no edge is no count in any MODE. -/
theorem pinAct_none {s : State} {n : Nat} {a b : Bool} (h : pinMode s n = 0 ∨ (a = false ∧ b = false)) : pinAct s n a b = .none := by
  rcases h with h | ⟨rfl, rfl⟩
  · simp only [pinAct, h]
  · unfold pinAct
    split <;> simp

/-! ### A test starts -/

/-- The test that a LOOP_TEST starts (Table 9.5). -/
def testOf (x : Job) (job : Nat) : LoopTest :=
  { job := job, chan := payBits x 32 5, kind := payBits x 40 3, point := payBits x 44 2, amp := q15 (payBits x 48 16), len := payBits x 64 17,
    hold := payBits x 88 8, decim := payBits x 96 8, capA := payBits x 104 4, capB := payBits x 108 4, delay := payBits x 112 16,
    f := payBits x 128 32, df := payBits x 160 32, order := payBits x 192 2, prbs := 2 ^ prbsBits (payBits x 192 2) - 1 }

/-- The LOOP global page shows a test that runs on channel `c` and has no sample yet. -/
def testShown (s : State) (c : Nat) : State :=
  (((s.fset pgLoopG F.LOOP_TEST_STAT_RUNNING 1).fset pgLoopG F.LOOP_TEST_STAT_CHANNEL c).setReg pgLoopG F.LOOP_TEST_DONE_SAMPLES.off 0).setReg
    pgLoopG F.LOOP_CAP_STAT_ENTRIES.off 0

/-- The state in which a test has started. -/
def testBegun (s : State) (job : Nat) (x : Job) : State :=
  testShown { jobSet s job { x with stage := 1 } with loop := { s.loop with test := some (testOf x job) } } (payBits x 32 5)

/-- The registers of the LOOP global page that a start of a test writes. -/
def testRegs : List (Nat × Nat) :=
  [(pgLoopG, F.LOOP_TEST_STAT_RUNNING.off), (pgLoopG, F.LOOP_TEST_DONE_SAMPLES.off), (pgLoopG, F.LOOP_CAP_STAT_ENTRIES.off)]

theorem testShown_regs (s : State) (c : Nat) : RegsOnly testRegs s (testShown s c) :=
  ((((RegsOnly.refl _ s).fset (by decide) (by decide)).fset (by decide) (by decide)).setReg (by decide) (by decide)).setReg (by decide) (by decide)

/-- What the page shows of the test. -/
theorem testShown_shows (s : State) {c : Nat} (hc : c < 32) :
    (testShown s c).fget pgLoopG F.LOOP_TEST_STAT_RUNNING = 1 ∧ (testShown s c).fget pgLoopG F.LOOP_TEST_STAT_CHANNEL = c ∧
      (testShown s c).fget pgLoopG F.LOOP_TEST_DONE_SAMPLES = 0 ∧ (testShown s c).fget pgLoopG F.LOOP_CAP_STAT_ENTRIES = 0 := by
  unfold testShown
  refine ⟨?_, ?_, ?_, ?_⟩
  · rw [fget_setReg_ne _ _ _ (by decide), fget_setReg_ne _ _ _ (by decide),
      fget_fset_beside _ _ F.LOOP_TEST_STAT_CHANNEL F.LOOP_TEST_STAT_RUNNING _ rfl (.inl (by decide)), fget_fset_same _ _ _ _ (by decide)]
    rfl
  · rw [fget_setReg_ne _ _ _ (by decide), fget_setReg_ne _ _ _ (by decide), fget_fset_same _ _ _ _ (by decide)]
    exact Nat.mod_eq_of_lt hc
  · rw [fget_setReg_ne _ _ _ (by decide), State.fget, reg_setReg_same]
    rfl
  · rw [State.fget, reg_setReg_same]
    rfl

/-- LOOP_TEST in range, with no test running, on a channel that runs and is in service (R307). -/
theorem execLoopTest_begins {s : State} {job : Nat} {x : Job} (hx : startedJob s job 0x70 = some x) (hs : x.stage = 0)
    (hc : payBits x 32 5 < s.var.loopChannels) (hbad : loopTestBad x = false) (ht : s.loop.test = none)
    (hlen : payBits x 40 3 = 4 → s.fget pgLoopG F.LOOP_TABLE_LEN_ENTRIES ≠ 0) (hout : pageOut s (pgCh + payBits x 32 5) = false)
    (hst : s.fget (pgCh + payBits x 32 5) F.CH_STAT_STATE = chRunning ∨ s.fget (pgCh + payBits x 32 5) F.CH_STAT_STATE = chHeld) :
    execLoopTest job s = .next (testBegun s job x) := by
  have hruns : ¬ ((s.fget (pgCh + payBits x 32 5) F.CH_STAT_STATE ≠ chRunning ∧ s.fget (pgCh + payBits x 32 5) F.CH_STAT_STATE ≠ chHeld) ∨
      pageOut s (pgCh + payBits x 32 5) = true) :=
    fun h => h.elim (fun h => hst.elim h.1 h.2) (by simp [hout])
  have htable : ¬ (payBits x 40 3 = 4 ∧ s.fget pgLoopG F.LOOP_TABLE_LEN_ENTRIES = 0) := fun h => hlen h.1 h.2
  unfold execLoopTest
  simp only [hx]
  rw [if_neg (not_not.mpr hs), if_neg (Nat.not_le.mpr hc), if_neg (by simp [hbad]), if_neg (by simp [ht]), if_neg htable, if_neg hruns]
  rfl

/-! ### The test table -/

/-- Entry `k` of data taken as 16-bit words (R7). -/
def tableWord (d : List Byte) (k : Nat) : Nat := (d.getD (2 * k) 0).toNat + 256 * (d.getD (2 * k + 1) 0).toNat

/-- Data loaded from entry `i` on fill the entries that they reach, and no other. -/
theorem loadTable_get (d : List Byte) (i k : Nat) (t : Tab Nat) :
    (loadTable d i t).get 0 k = if i ≤ k ∧ k < i + d.length / 2 then tableWord d (k - i) else t.get 0 k := by
  induction d, i, t using loadTable.induct with
  | case1 lo hi r i t ih =>
    rw [loadTable, ih]
    rcases Nat.lt_trichotomy k i with hk | rfl | hk
    · rw [if_neg (by omega), if_neg (by omega), Tab.get_set_ne _ _ _ _ (by omega)]
    · rw [if_neg (by omega), if_pos (by simp), Tab.get_set_same, Nat.sub_self]
      rfl
    · have hsub : k - i = k - (i + 1) + 1 := by omega
      have hwords : tableWord (lo :: hi :: r) (k - i) = tableWord r (k - (i + 1)) := by rw [hsub]; rfl
      have hlen : (lo :: hi :: r).length / 2 = r.length / 2 + 1 := by simp only [List.length_cons]; omega
      rw [hwords, hlen, Tab.get_set_ne _ _ _ _ (by omega)]
      split <;> rename_i h
      · rw [if_pos (by omega)]
      · rw [if_neg (by omega)]
  | case2 d i t h =>
    have hshort : d.length / 2 = 0 := by
      match d, h with
      | [], _ => rfl
      | [_], _ => exact Nat.div_eq_of_lt Nat.one_lt_two
      | lo :: hi :: r, h => exact (h lo hi r rfl).elim
    rw [hshort, if_neg (by omega)]
    unfold loadTable
    split
    · exact (h _ _ _ rfl).elim
    · rfl

/-- The first `n` words of data fill the first `n` entries. -/
theorem loadTable_take_get {d : List Byte} {n : Nat} (t : Tab Nat) (k : Nat) (h : 2 * n ≤ d.length) :
    (loadTable (d.take (2 * n)) 0 t).get 0 k = if k < n then tableWord d k else t.get 0 k := by
  have hlen : (d.take (2 * n)).length / 2 = n := by rw [List.length_take]; omega
  rw [loadTable_get, hlen, Nat.zero_add]
  split <;> rename_i hk
  · have htake : ∀ j, j < 2 * n → (d.take (2 * n)).getD j 0 = d.getD j 0 := fun j hj => by
      rw [List.getD_eq_getElem?_getD, List.getD_eq_getElem?_getD, List.getElem?_take_of_lt hj]
    rw [if_pos hk.2, tableWord, Nat.sub_zero, htake _ (by omega), htake _ (by omega)]
    rfl
  · rw [if_neg fun h => hk ⟨Nat.zero_le _, h⟩]

/-- The state in which the first `n` entries of the test table are filled and the rest stand. -/
def tableLoaded (s : State) (d : List Byte) (n : Nat) : State :=
  (tableFill s (d.take (2 * n)) (s.loop.tablePoison.filter fun i => decide (n ≤ i))).fset pgLoopG F.LOOP_TABLE_LEN_ENTRIES n

/-- LOOP_TABLE whose data have come fills the table and ends (R306). -/
theorem execLoopTable_fills {s : State} {job : Nat} {x : Job} {d : List Byte} (hx : startedJob s job 0x71 = some x)
    (hr : s.part.resets.find? x.part = none) (ha : payBits x 64 64 % 8 = 0) (h1 : 1 ≤ payBits x 128 13) (hn : payBits x 128 13 ≤ 4096)
    (ht : s.loop.test = none) (hd : x.data = some (.good d [])) :
    execLoopTable job s = .next (jobSet (tableLoaded s d (payBits x 128 13)) job
      { x with phase := .done, status := stOk, result := payBits x 128 13, data := none }) := by
  have hjob := jobGet_of_started hx
  have hgood : ¬ (payBits x 64 64 % 8 ≠ 0 ∨ payBits x 128 13 = 0 ∨ 4096 < payBits x 128 13) := by omega
  unfold execLoopTable
  simp only [hx]
  rw [if_neg hgood, if_neg (by simp [ht]), withHostData_good _ _ _ _ hjob hd]
  refine congrArg nxt ((jobDone_live (s := tableLoaded s d (payBits x 128 13)) stOk (payBits x 128 13) hjob hr).trans ?_)
  rw [Nat.mod_eq_of_lt (by omega : payBits x 128 13 < 2 ^ 32)]

/-! ### Captures -/

/-- The bytes of `n` captures from `first` on. -/
def captureBytes (s : State) (first n : Nat) : List Byte := (List.range n).flatMap fun i => leBytes 4 (s.loop.capture.get 0 (first + i)).toNat

/-- The state in which the captures that a LOOP_READ names have gone to its partition's memory. -/
def capturesSent (s : State) (x : Job) : State :=
  { s with host := { s.host with
    out := .write x.part (payBits x 64 64) (captureBytes s (payBits x 128 16) (payBits x 144 17)) :: s.host.out } }

/-- LOOP_READ of captures in range, without a UE, sends them and ends (R306). -/
theorem execLoopRead_sends {s : State} {job : Nat} {x : Job} (hx : startedJob s job 0x72 = some x) (hr : s.part.resets.find? x.part = none)
    (hc : x.cancel = false) (ha : payBits x 64 64 % 8 = 0) (h1 : 1 ≤ payBits x 144 17) (hn : payBits x 128 16 + payBits x 144 17 ≤ 65536)
    (hh : HostHears s x.part) :
    execLoopRead job false s = .next (jobSet (capturesSent s x) job
      { x with phase := .done, status := stOk, result := payBits x 144 17, data := none }) := by
  have hgood : ¬ (payBits x 64 64 % 8 ≠ 0 ∨ payBits x 144 17 = 0 ∨ 65536 < payBits x 128 16 + payBits x 144 17) := by omega
  unfold execLoopRead
  simp only [hx]
  rw [if_neg hgood, if_neg (by simp [hc]), if_neg Bool.false_ne_true, hostSend_hears _ hh]
  refine congrArg nxt ((jobDone_live (s := capturesSent s x) _ _ (jobGet_of_started hx) hr).trans ?_)
  rw [Nat.mod_eq_of_lt (by omega : payBits x 144 17 < 2 ^ 32)]

/-! ### The statement -/

/-- Settles O39: an edge is `pinActed` on the moved lines, a started test `testBegun`, and the other two jobs what their lemmas above say. -/
theorem pulseInputsAndTests : Obligations.PulseInputsAndTests := by
  unfold Obligations.PulseInputsAndTests
  refine ⟨fun s pin a b hpin hdown => ?edge, fun s job x hx hs hc hbad ht hlen hout hst => ?test, fun s job x d hx hr => ?table,
    fun s job x hx hr hc => ?read⟩
  case edge =>
    have hn : pin < 8 := Nat.lt_of_lt_of_le hpin (pinInputs_le _)
    refine ⟨_, execPinEdge_acts a b hpin hdown, pinActed_moved_shape .., pinActed_regs (pinMoved s pin a b) _ hn, ?_, ?_, fun hm => ?_,
      fun hm ha hb => ?_, fun hm ha hb => ?_, fun hm ha hb => ?_, fun h => ?_⟩
    · rw [pinActed_loop]; exact Tab.get_set_same ..
    · rw [pinActed_loop]; exact Tab.get_set_same ..
    · rw [pinAct_rising a b hm]
      by_cases hup : a = true ∧ pinLevel s.loop.pinA pin a = true
      · rw [if_pos hup, pinActed_count, pinMoved_fget, if_pos rfl, if_pos (by simpa using hup)]
      · rw [if_neg hup, if_neg (by simpa using hup), Nat.add_zero]
        exact (Nat.mod_eq_of_lt (fget_lt s pgLoopG (pinCounter pin))).symm
    · subst ha hb
      rw [(pinAct_quadrature hm).1]
      exact pinActed_quad (pinMoved s pin true true) hn
    · subst ha hb
      rw [(pinAct_quadrature hm).2.1]
      exact pinActed_count ..
    · subst ha hb
      rw [(pinAct_quadrature hm).2.2, pinActed_count, pinMoved_fget]
      by_cases hab : pinLevel s.loop.pinA pin false = pinLevel s.loop.pinB pin true
      · rw [if_pos (beq_iff_eq.mpr hab), if_neg fun h => bne_iff_ne.mp h hab]
      · rw [if_neg fun h => hab (beq_iff_eq.mp h), if_pos (bne_iff_ne.mpr hab)]
    · rw [pinAct_none h]
      rfl
  case test =>
    obtain ⟨hrun, hchan, hdone, hcap⟩ := testShown_shows
      { jobSet s job { x with stage := 1 } with loop := { s.loop with test := some (testOf x job) } } (payBits_lt x 32 5)
    exact ⟨_, testOf x job, execLoopTest_begins hx hs hc hbad ht hlen hout hst, rfl, testShown_regs _ _, rfl, rfl, rfl, rfl, rfl, rfl, hrun, hchan,
      hdone, hcap, jobGet_jobSet_same ..⟩
  case table =>
    intro n ha h1 hn ht hd hlen
    refine ⟨_, execLoopTable_fills hx hr ha h1 hn ht hd, rfl, fun i hi => ?_, fun i hi => ?_, fun i hi => ?_,
      (RegsOnly.refl _ s).fset (by simp) (by decide), ?_, jobGet_jobSet_same ..⟩
    · exact (loadTable_take_get s.loop.table i hlen).trans (if_pos hi)
    · exact (loadTable_take_get s.loop.table i hlen).trans (if_neg (Nat.not_lt.mpr hi))
    · exact of_decide_eq_true (List.mem_filter.mp hi).2
    · rw [jobSet_fget, tableLoaded, fget_fset_same _ _ _ _ (by decide)]
      exact Nat.mod_eq_of_lt (payBits_lt x 128 13)
  case read =>
    intro n ha h1 hn hdead hbme
    exact ⟨_, execLoopRead_sends hx hr hc ha h1 hn ⟨hdead, hbme⟩, rfl, rfl, jobGet_jobSet_same ..⟩

end Sys2Proof.Machine
end

section
/-! SUPPORT. Loop samples: what a sample instant latches (R287, R300), what a latch leaves of its channel, of the LOOP global page and of the
pairs (R288, R299, R302, R303), and how a channel stops or fails there (R304, R313). -/

namespace Sys2Proof.Machine

/-! ### Sample instants -/

/-- What a sample instant latches: the codes and the counts that the channel's selectors name (R287). -/
def sampleAt (s : State) (c tick : Nat) (codes : List Nat) : Sampling where
  at_ := tick
  codes := (List.range 5).map fun k => codes.getD (selOf s (pgCh + c) k) 0 % 4096
  counts := (List.range 5).map fun k =>
    if selIsPin (selOf s (pgCh + c) k) then s.fget pgLoopG (F.LOOP_PIN_COUNT_COUNT.sh (4 * (selOf s (pgCh + c) k - 32))) else 0

/-- The state with a sample of the channel in progress. -/
def sampleTaken (s : State) (c tick : Nat) (codes : List Nat) : State :=
  chanSet s c { chanGet s c with sampling := some (sampleAt s c tick codes) }

@[simp] theorem sampleTaken_reg (s : State) (c tick : Nat) (codes : List Nat) (p o : Nat) : (sampleTaken s c tick codes).reg p o = s.reg p o := rfl
@[simp] theorem sampleTaken_fget (s : State) (c tick : Nat) (codes : List Nat) (p : Nat) (f : Fld) :
    (sampleTaken s c tick codes).fget p f = s.fget p f := rfl

theorem chanScheduled_reach (s : State) (k c : Nat) : chanScheduled (s.reach k) c = chanScheduled s c := by rw [reach_shape]; rfl
theorem isSampleInstant_reach (s : State) (k c tick : Nat) : isSampleInstant (s.reach k) c tick = isSampleInstant s c tick := by
  rw [reach_shape]; rfl
theorem chanGet_reach (s : State) (k c : Nat) : chanGet (s.reach k) c = chanGet s c := by rw [reach_shape]; rfl
theorem page_reach (s : State) (k p : Nat) : (s.reach k).page p = s.page p := by rw [reach_shape]; rfl
theorem sampleAt_reach (s : State) (k c tick : Nat) (codes : List Nat) : sampleAt (s.reach k) c tick codes = sampleAt s c tick codes := by
  rw [reach_shape]; rfl

/-- A sample instant of a scheduled, enabled channel in service latches its sample, after a start where one is due. -/
theorem execLoopSampleInstant_takes {s : State} {c tick : Nat} (codes : List Nat) (hs : chanScheduled s c = true)
    (hi : isSampleInstant s c tick = true) (he : s.fbit (pgCh + c) F.PG_CTRL_ENABLE = true)
    (hr : s.fbit (pgCh + c) F.PG_STAT_RESET_BUSY = false) (ho : pageOut s (pgCh + c) = false) (hj : (s.page (pgCh + c)).joining = false) :
    execLoopSampleInstant c tick codes s = .next
      (sampleTaken (if (chanGet s c).startDue then chanStart (s.reach tick) c tick else s.reach tick) c tick codes) := by
  have hacts : chanScheduled (s.reach tick) c = true ∧ isSampleInstant (s.reach tick) c tick = true ∧
      (s.reach tick).fbit (pgCh + c) F.PG_CTRL_ENABLE = true ∧ ¬ (s.reach tick).fbit (pgCh + c) F.PG_STAT_RESET_BUSY = true ∧
      (¬ pageOut (s.reach tick) (pgCh + c) = true ∨ ((s.reach tick).page (pgCh + c)).joining = true) := by
    rw [chanScheduled_reach, isSampleInstant_reach, reach_fbit, reach_fbit, pageOut, reach_fbit, hr]
    exact ⟨hs, hi, he, by decide, .inl (by rw [← pageOut, ho]; decide)⟩
  unfold execLoopSampleInstant
  simp only
  rw [if_pos hacts, page_reach, hj, if_neg Bool.false_ne_true, chanGet_reach]
  simp only [List.map_map]
  rfl

/-- The LOOP global page is no channel's. -/
theorem loopG_ne_ch (c : Nat) : pgLoopG ≠ pgCh + c := (Nat.lt_of_lt_of_le (by decide : pgLoopG < pgCh) (Nat.le_add_right _ _)).ne

/-- A start shows on the channel's CH_STAT alone. -/
theorem chanStart_regs (s : State) (c tick : Nat) : RegsOnly [(pgCh + c, F.CH_STAT_STATE.off)] s (chanStart s c tick) :=
  .fset (.fset (.fset (.fset (.refl _ _) (by simp) (by decide)) (by simp) (by decide)) (by simp) (by decide)) (by simp) (by decide)

/-- After a start the channel is RUNNING with no sample counted (R300). -/
theorem chanStart_shows (s : State) (c tick : Nat) :
    (chanStart s c tick).fget (pgCh + c) F.CH_STAT_STATE = chRunning ∧ (chanStart s c tick).fget (pgCh + c) F.CH_STAT_SAMPLES = 0 := by
  unfold chanStart
  constructor
  · exact fget_fset_same _ _ _ _ (by decide)
  · rw [fget_fset_beside _ _ F.CH_STAT_STATE F.CH_STAT_SAMPLES _ rfl (.inr (by decide)),
      fget_fset_beside _ _ F.CH_STAT_BLOCKED F.CH_STAT_SAMPLES _ rfl (.inr (by decide)),
      fget_fset_beside _ _ F.CH_STAT_UNSETTLED F.CH_STAT_SAMPLES _ rfl (.inr (by decide))]
    exact fget_fset_same _ _ _ _ (by decide)

/-- Two operations that change registers and the loop island change no more together. -/
theorem regsLoop_trans {s t u : State} (h : t = { s with regs := t.regs, loop := t.loop }) (g : u = { t with regs := u.regs, loop := u.loop }) :
    u = { s with regs := u.regs, loop := u.loop } := by
  refine g.trans ?_
  rw [h]

/-- A sample taken is the loop island's state alone, and a start before it registers beside that. -/
theorem sampleTaken_shape (s : State) (c tick : Nat) (codes : List Nat) :
    sampleTaken s c tick codes = { s with loop := (sampleTaken s c tick codes).loop } := rfl

theorem chanStart_shape (s : State) (c tick : Nat) :
    chanStart s c tick = { s with regs := (chanStart s c tick).regs, loop := (chanStart s c tick).loop } := by
  unfold chanStart
  exact regsLoop_trans (regsLoop_trans (regsLoop_trans (regsLoop_trans (t := chanSet s c _) rfl rfl) rfl) rfl) rfl

/-- What changes the loop island once the PTB has reached an instant changes time beside it. -/
theorem reached_loop {s t : State} {k : Nat} (h : t = { s.reach k with loop := t.loop }) : t = { s with time := t.time, loop := t.loop } := by
  rw [h, reach_shape]

/-- What changes registers and the loop island, and then the loop island, changes those once the PTB has reached the instant. -/
theorem reached_regsLoop {s t u : State} {k : Nat} (h : t = { s.reach k with regs := t.regs, loop := t.loop }) (g : u = { t with loop := u.loop }) :
    u = { s with regs := u.regs, time := u.time, loop := u.loop } := by
  rw [g, h, reach_shape]

/-- A start leaves of the channel's state its sample in progress, the values routed last and an OUTER written at its tick or after. -/
theorem chanGet_chanStart_same (s : State) (c tick : Nat) :
    chanGet (chanStart s c tick) c =
      { initDue := true, first := true, settleLeft := s.fget (pgCh + c) F.CH_SETTLE_N, sampling := (chanGet s c).sampling,
        out0 := (chanGet s c).out0, out1 := (chanGet s c).out1,
        outer := if tick ≤ (chanGet s c).outerAt then (chanGet s c).outer else 0,
        outerAt := if tick ≤ (chanGet s c).outerAt then (chanGet s c).outerAt else 0 } := by
  refine (chanGet_chanSet_same s c _).trans ?_
  simp only [decide_eq_true_eq]

/-- A start is no other channel's. -/
theorem chanGet_chanStart_ne (s : State) {c d : Nat} (tick : Nat) (h : d ≠ c) : chanGet (chanStart s c tick) d = chanGet s d :=
  chanGet_chanSet_ne s _ h

/-- A start moves neither a selector nor a pulse count. -/
theorem sampleAt_chanStart (s : State) (c tick : Nat) (codes : List Nat) : sampleAt (chanStart s c tick) c tick codes = sampleAt s c tick codes := by
  have hsel : ∀ k, selOf (chanStart s c tick) (pgCh + c) k = selOf s (pgCh + c) k := fun k => by
    unfold selOf
    rw [chanStart_regs s c tick _ _ (by decide) (by simp)]
  have hcount : ∀ v, selIsPin v = true → (chanStart s c tick).fget pgLoopG (F.LOOP_PIN_COUNT_COUNT.sh (4 * (v - 32))) =
      s.fget pgLoopG (F.LOOP_PIN_COUNT_COUNT.sh (4 * (v - 32))) := fun v hv => by
    simp only [selIsPin, Bool.and_eq_true, decide_eq_true_eq] at hv
    refine (chanStart_regs s c tick).fget (by simp only [Fld.sh]; omega) ?_
    simp [loopG_ne_ch]
  unfold sampleAt
  simp only [hsel]
  congr 2
  funext k
  split
  · exact hcount _ ‹_›
  · rfl

/-! ### What tests and conversions leave alone -/

/-- From a state to a later one, over what shows on the LOOP global page: no register of another page and no channel's state changes. -/
structure ChansKept (s t : State) : Prop where
  pages : PagesOnly (· = pgLoopG) s t
  chans : t.loop.chans = s.loop.chans

namespace ChansKept
variable {s t u : State}

theorem refl (s : State) : ChansKept s s := ⟨.refl _ s, rfl⟩

theorem trans (h : ChansKept s t) (g : ChansKept t u) : ChansKept s u := ⟨h.pages.trans g.pages, g.chans.trans h.chans⟩

theorem fset {f : Fld} {v : Nat} (h : ChansKept s t) (ho : f.off < 4096) : ChansKept s (t.fset pgLoopG f v) := ⟨h.pages.fset rfl ho, h.chans⟩

/-- The running test and the captures are no channel's state. -/
theorem upd {test : Option LoopTest} {capture : Tab Word} (h : ChansKept s t) :
    ChansKept s { t with loop := { t.loop with test := test, capture := capture } } := ⟨h.pages, h.chans⟩

theorem free (h : ChansKept s t) : ChansKept s t.free.2 := ⟨h.pages, h.chans⟩

theorem pageIrq {bits : Nat} (h : ChansKept s t) : ChansKept s (pageIrq t pgLoopG bits) :=
  ⟨h.pages.pageIrq rfl, by rw [pageIrq_shape]; exact h.chans⟩

theorem jobDone {j status result : Nat} (h : ChansKept s t) : ChansKept s (jobDone t j status result) := by
  rw [jobDone_shape]
  exact ⟨h.pages, h.chans⟩

/-- The codes of a sample reach LOOP_AIN. -/
theorem noteCodes {p : Nat} {sm : Sampling} (h : ChansKept s t) : ChansKept s (noteCodes t p sm) := by
  refine h.trans (eachIn_rel (R := ChansKept) refl trans (fun t k _ => ?_) t)
  dsimp only
  split
  · rename_i hv
    have hv : selOf t p k < 32 := of_decide_eq_true hv
    exact (refl t).fset (by simp only [Fld.sh]; omega)
  · exact refl t

theorem testFinish {x : LoopTest} {status : Nat} (h : ChansKept s t) : ChansKept s (testFinish t x status) :=
  ((h.upd.fset (by decide)).jobDone).pageIrq

theorem testChannelGone {c : Nat} (h : ChansKept s t) : ChansKept s (testChannelGone t c) := by
  unfold Machine.testChannelGone
  split
  · split
    · exact h.testFinish
    · exact h
  · exact h

theorem testAt {c : Nat} (h : ChansKept s t) : ChansKept s (testAt t c).2 := by
  unfold Machine.testAt
  split
  · exact h
  · split
    · exact h
    · split
      · exact h.upd.fset (by decide)
      · split
        · exact h.testFinish
        · exact h

theorem testSample {x : LoopTest} {w : Word} (h : ChansKept s t) : ChansKept s (testSample t x w) := by
  have hcap : ChansKept s (if x.n % (x.decim + 1) = 0 then
      { t with loop := { t.loop with capture := t.loop.capture.set 0 x.entries w } } else t) := by
    split
    · exact h.upd
    · exact h
  unfold Machine.testSample
  dsimp only
  split
  · exact ((hcap.fset (by decide)).fset (by decide)).upd.testFinish
  · exact ((hcap.fset (by decide)).fset (by decide)).upd

theorem chanGet (h : ChansKept s t) (c : Nat) : chanGet t c = chanGet s c := by
  unfold Machine.chanGet
  rw [h.chans]

theorem reg {p o : Nat} (h : ChansKept s t) (hp : p ≠ pgLoopG) (ho : o < 4096) : t.reg p o = s.reg p o := h.pages p o ho hp

theorem fget {p : Nat} {f : Fld} (h : ChansKept s t) (hp : p ≠ pgLoopG) (ho : f.off < 4096) : t.fget p f = s.fget p f := h.pages.fget hp ho

end ChansKept

/-! ### Blocking -/

/-- The pairs that a channel reaches follow the routes. -/
theorem chanReach_congr {s t : State} (h : ∀ d, ∀ f ∈ [F.CH_ROUTE_ROUTE0, F.CH_ROUTE_ROUTE1], t.fget (pgCh + d) f = s.fget (pgCh + d) f) (n c : Nat) :
    chanReach t n c = chanReach s n c := by
  induction n generalizing c with
  | zero => rfl
  | succ n ih =>
    have hih : chanReach t n = chanReach s n := funext ih
    unfold chanReach
    rw [h c F.CH_ROUTE_ROUTE0 (by simp), h c F.CH_ROUTE_ROUTE1 (by simp), hih]

/-- Whether a channel is blocked follows the routes and the states of the pairs. -/
theorem chanBlocked_congr {s t : State} (hch : ∀ d, ∀ f ∈ [F.CH_ROUTE_ROUTE0, F.CH_ROUTE_ROUTE1], t.fget (pgCh + d) f = s.fget (pgCh + d) f)
    (hpwm : ∀ n, t.fget (pgPwm + n) F.PWM_STAT_STATE = s.fget (pgPwm + n) F.PWM_STAT_STATE) (c : Nat) : chanBlocked t c = chanBlocked s c := by
  have htrip : pairTripped t = pairTripped s := funext fun n => by unfold pairTripped; rw [hpwm]
  unfold chanBlocked
  rw [chanReach_congr hch, htrip]

theorem ChansKept.chanBlocked {s t : State} (h : ChansKept s t) (c : Nat) : chanBlocked t c = chanBlocked s c := by
  have hpwm : ∀ n, pgPwm + n ≠ pgLoopG := fun n => (Nat.lt_of_lt_of_le (by decide : pgLoopG < pgPwm) (Nat.le_add_right _ _)).ne'
  refine chanBlocked_congr (fun d f hf => h.fget (loopG_ne_ch d).symm ?_) (fun n => h.fget (hpwm n) (by decide)) c
  simp only [List.mem_cons, List.not_mem_nil, or_false] at hf
  rcases hf with rfl | rfl <;> decide

/-! ### Routes and the state copy -/

/-- A built channel is one of 32. -/
theorem loopChannels_le (v : Variant) : v.loopChannels ≤ 32 := by cases v <;> decide

/-- The pages of the pairs. -/
abbrev pairPages (q : Nat) : Prop := pgPwm ≤ q ∧ q < pgPwm + 16

/-- A route write to a pair writes the pair's page, and one to a channel no register (R299). -/
theorem routeWrite_pages (s : State) (r : Nat) (v : Int) (tick : Nat) : PagesOnly pairPages s (routeWrite s r v tick) := by
  unfold routeWrite
  split
  · exact (PagesOnly.refl _ s).pairSet.fset ⟨by omega, by omega⟩ (by decide)
  · split <;> exact PagesOnly.refl _ s

/-- A channel's OUTER, its value before and the tick of its write, as a later state has them. -/
def outerOf (x y : LoopChan) : LoopChan := { x with outer := y.outer, outerOld := y.outerOld, outerAt := y.outerAt }

/-- Of a channel's state a route write changes OUTER at most. -/
theorem routeWrite_chan (s : State) (r : Nat) (v : Int) (tick c : Nat) :
    chanGet (routeWrite s r v tick) c = outerOf (chanGet s c) (chanGet (routeWrite s r v tick) c) := by
  unfold routeWrite
  split
  · rfl
  · split
    · by_cases hc : c = r - 0x40
      · subst hc
        rw [chanGet_chanSet_same]
        rfl
      · rw [chanGet_chanSet_ne _ _ hc]
        rfl
    · rfl

theorem writeRoutes_pages (s : State) (c r0 r1 : Nat) (v0 v1 : Int) (tick : Nat) :
    PagesOnly pairPages s (writeRoutes s c r0 r1 v0 v1 tick) :=
  (routeWrite_pages (chanSet s c { chanGet s c with out0 := v0, out1 := v1 }) r0 v0 tick).trans (routeWrite_pages _ r1 v1 tick)

/-- The channel's values routed last are those written; of the rest of its state OUTER may change. -/
theorem writeRoutes_chan (s : State) (c r0 r1 : Nat) (v0 v1 : Int) (tick : Nat) :
    chanGet (writeRoutes s c r0 r1 v0 v1 tick) c =
      outerOf { chanGet s c with out0 := v0, out1 := v1 } (chanGet (writeRoutes s c r0 r1 v0 v1 tick) c) := by
  unfold writeRoutes
  dsimp only
  conv_lhs => rw [routeWrite_chan, routeWrite_chan, chanGet_chanSet_same]
  rfl

/-- The registers of the state copy (Table 9.14). -/
def copyRegs (p : Nat) : List (Nat × Nat) := (List.range 27).map fun k => (p, 0x300 + 4 * k)

theorem mem_copyRegs (p : Nat) {o : Nat} (k : Nat) (hk : k < 27) (ho : o = 0x300 + 4 * k) : (p, o) ∈ copyRegs p :=
  List.mem_map.mpr ⟨k, List.mem_range.mpr hk, by rw [ho]⟩

/-- From a state to a later one, over writes of the state copy: no other register changes, and nothing of the loop island. -/
structure CopyOnly (p : Nat) (s t : State) : Prop where
  regs : RegsOnly (copyRegs p) s t
  loop : t.loop = s.loop

namespace CopyOnly
variable {p o : Nat} {s t u : State}

theorem refl (p : Nat) (s : State) : CopyOnly p s s := ⟨.refl _ s, rfl⟩

theorem trans (h : CopyOnly p s t) (g : CopyOnly p t u) : CopyOnly p s u := ⟨h.regs.trans g.regs, g.loop.trans h.loop⟩

/-- The `k`-th word of the copy is written. -/
theorem setReg {w : Word} (k : Nat) (h : CopyOnly p s t) (hk : k < 27) (ho : o = 0x300 + 4 * k) : CopyOnly p s (t.setReg p o w) :=
  ⟨h.regs.setReg (mem_copyRegs p k hk ho) (by omega), h.loop⟩

/-- A limiter or accumulator value stands in the words `k` and `k + 1`. -/
theorem setWide {w : Nat} {z : Int} (k : Nat) (h : CopyOnly p s t) (hk : k < 26) (ho : o = 0x300 + 4 * k) : CopyOnly p s (setWide t p o w z) :=
  (h.setReg k (by omega) ho).setReg (k + 1) (by omega) (by omega)

/-- One write after another. -/
theorem each {α : Type} {l : List α} {f : State → α → State} (hf : ∀ t, ∀ a ∈ l, CopyOnly p t (f t a)) (h : CopyOnly p s t) :
    CopyOnly p s (eachIn l f t) := h.trans (eachIn_rel (R := CopyOnly p) (refl p) trans hf t)

/-- The state copy (Table 9.14): sections, observer, integrators, limiter and the values routed last. -/
theorem stateCopy {c : Nat} (h : CopyOnly (pgCh + c) s t) : CopyOnly (pgCh + c) s (stateCopy t c) := by
  unfold Machine.stateCopy
  dsimp only
  refine setReg 26 (setWide 24 (setWide 22 (setWide 20 (setWide 18 (each ?observer (each ?sections h)) (by decide) rfl) (by decide) rfl)
    (by decide) rfl) (by decide) rfl) (by decide) rfl
  case sections =>
    intro u n hn
    have hn : n < 6 := List.mem_range.mp hn
    split
    · exact (refl _ u).setWide (2 * n) (by omega) (by omega)
    · exact ((refl _ u).setReg (2 * n) (by omega) (by omega)).setReg (2 * n + 1) (by omega) (by omega)
  case observer =>
    intro u j hj
    have hj : j < 6 := List.mem_range.mp hj
    exact (refl _ u).setReg (12 + j) (by omega) (by omega)

end CopyOnly

/-! ### A sample's end -/

/-- How a sample that finds the channel as it is runs (R302, R303). -/
def latchMode (s : State) (c : Nat) : SampleMode :=
  if chanBlocked s c then (if s.fbit (pgCh + c) F.CH_CFG_TRIP_ACTION then .reset else .held)
  else if s.fbit (pgCh + c) F.CH_CTRL_HOLD then .held else .normal

theorem latchMode_congr {s t : State} {c : Nat} (hb : chanBlocked t c = chanBlocked s c)
    (hf : ∀ f ∈ [F.CH_CFG_TRIP_ACTION, F.CH_CTRL_HOLD], t.fget (pgCh + c) f = s.fget (pgCh + c) f) : latchMode t c = latchMode s c := by
  unfold latchMode State.fbit
  rw [hb, hf F.CH_CFG_TRIP_ACTION (by simp), hf F.CH_CTRL_HOLD (by simp)]

theorem latchMode_held {s : State} {c : Nat} (hh : s.fbit (pgCh + c) F.CH_CTRL_HOLD = true) (hb : chanBlocked s c = false) :
    latchMode s c = .held := by
  rw [latchMode, hb, if_neg Bool.false_ne_true, if_pos hh]

/-- A channel that is held or blocked runs no sample normally. -/
theorem latchMode_ne_normal {s : State} {c : Nat} (h : s.fbit (pgCh + c) F.CH_CTRL_HOLD = true ∨ chanBlocked s c = true) :
    latchMode s c ≠ .normal := by
  unfold latchMode
  split
  · split <;> decide
  · rename_i hfree
    rw [if_pos (h.resolve_right hfree)]
    decide

/-- A sample that does not run normally leaves the values routed last. -/
theorem sampleRun_keeps (s : State) (c : Nat) (x : LoopChan) (sm : Sampling) {mode : SampleMode} (t : Int) (point : Option Nat) (tick : Nat)
    (h : mode ≠ .normal) : (sampleRun s c x sm mode t point tick).v0 = x.out0 ∧ (sampleRun s c x sm mode t point tick).v1 = x.out1 := by
  cases mode with
  | normal => exact absurd rfl h
  | held => exact ⟨rfl, rfl⟩
  | reset => exact ⟨rfl, rfl⟩

/-- CH_STAT shows a sample: BLOCKED, the state, the count and UNSETTLED. -/
def sampleShown (s : State) (p : Nat) (blocked : Bool) (mode : SampleMode) (left : Nat) : State :=
  let s := (s.fset p F.CH_STAT_BLOCKED (b2n blocked)).fset p F.CH_STAT_STATE (if mode = .held then chHeld else chRunning)
  let s := s.fset p F.CH_STAT_SAMPLES (s.fget p F.CH_STAT_SAMPLES + 1)
  s.fset p F.CH_STAT_UNSETTLED (b2n (decide (0 < left)))

theorem sampleShown_regs (s : State) (p : Nat) (blocked : Bool) (mode : SampleMode) (left : Nat) :
    RegsOnly [(p, F.CH_STAT_STATE.off)] s (sampleShown s p blocked mode left) :=
  .fset (.fset (.fset (.fset (.refl _ _) (by simp) (by decide)) (by simp) (by decide)) (by simp) (by decide)) (by simp) (by decide)

/-- The four fields that a sample shows stand beside one another. -/
theorem sampleShown_shows (s : State) (p : Nat) (blocked : Bool) (mode : SampleMode) (left : Nat) :
    (sampleShown s p blocked mode left).fget p F.CH_STAT_SAMPLES = (s.fget p F.CH_STAT_SAMPLES + 1) % 2 ^ 16 ∧
      (sampleShown s p blocked mode left).fget p F.CH_STAT_STATE = (if mode = .held then chHeld else chRunning) ∧
      (sampleShown s p blocked mode left).fget p F.CH_STAT_BLOCKED = b2n blocked := by
  unfold sampleShown
  dsimp only
  refine ⟨?_, ?_, ?_⟩
  · rw [fget_fset_beside _ _ F.CH_STAT_UNSETTLED F.CH_STAT_SAMPLES _ rfl (.inr (by decide)), fget_fset_same _ _ _ _ (by decide),
      fget_fset_beside _ _ F.CH_STAT_STATE F.CH_STAT_SAMPLES _ rfl (.inr (by decide)),
      fget_fset_beside _ _ F.CH_STAT_BLOCKED F.CH_STAT_SAMPLES _ rfl (.inr (by decide))]
  · rw [fget_fset_beside _ _ F.CH_STAT_UNSETTLED F.CH_STAT_STATE _ rfl (.inl (by decide)),
      fget_fset_beside _ _ F.CH_STAT_SAMPLES F.CH_STAT_STATE _ rfl (.inl (by decide)), fget_fset_same _ _ _ _ (by decide)]
    split <;> rfl
  · rw [fget_fset_beside _ _ F.CH_STAT_UNSETTLED F.CH_STAT_BLOCKED _ rfl (.inr (by decide)),
      fget_fset_beside _ _ F.CH_STAT_SAMPLES F.CH_STAT_BLOCKED _ rfl (.inl (by decide)),
      fget_fset_beside _ _ F.CH_STAT_STATE F.CH_STAT_BLOCKED _ rfl (.inr (by decide)), fget_fset_same _ _ _ _ (by decide)]
    exact b2n_mod_two blocked

/-- Flags that rise are a cause of the channel's page; nothing else but CH_FLAGS changes. -/
theorem setChFlags_regs (s : State) (p bits : Nat) : RegsOnly [(p, F.CH_FLAGS_FLAGS.off), (p, F.PG_IRQ_STAT_ERR.off)] s (setChFlags s p bits) := by
  have hset : RegsOnly [(p, F.CH_FLAGS_FLAGS.off), (p, F.PG_IRQ_STAT_ERR.off)] s
      (s.fset p F.CH_FLAGS_FLAGS (s.fget p F.CH_FLAGS_FLAGS ||| bits)) := (RegsOnly.refl _ s).fset (by simp) (by decide)
  unfold setChFlags
  dsimp only
  split
  · exact hset.pageIrq (by simp)
  · exact hset

@[simp] theorem pageIrq_loop (s : State) (p bits : Nat) : (pageIrq s p bits).loop = s.loop := by rw [pageIrq_shape]

theorem setChFlags_loop (s : State) (p bits : Nat) : (setChFlags s p bits).loop = s.loop := by
  unfold setChFlags
  dsimp only
  split
  · exact pageIrq_loop ..
  · rfl

/-- The samples left unsettled after one more, which counts when it runs normally (R301). -/
def settleAfter (x : LoopChan) (mode : SampleMode) : Nat :=
  if decide (0 < x.settleLeft) && decide (mode = .normal) then x.settleLeft - 1 else x.settleLeft

/-- The channel's state when its sample has been computed. -/
def sampledChan (s : State) (c : Nat) (sm : Sampling) (mode : SampleMode) (o : SampleRes) : LoopChan :=
  { (notePins s (pgCh + c) (chanGet s c) sm) with
    law := o.law, initDue := false, sampling := none, settleLeft := settleAfter (chanGet s c) mode }

/-- The state when a sample has been computed and counted, before its route writes. -/
def sampleCounted (s : State) (c : Nat) (sm : Sampling) (mode : SampleMode) (o : SampleRes) : State :=
  let x := chanGet s c
  let u := setChFlags (chanSet s c (sampledChan s c sm mode o)) (pgCh + c) o.flags
  let u := sampleShown u (pgCh + c) (chanBlocked s c) mode (settleAfter x mode)
  if (decide (0 < x.settleLeft) && decide (mode = .normal)) = true ∧ settleAfter x mode = 0 then pageIrq u (pgCh + c) 2 else u

/-- The state after a sample's route writes and its state copy. -/
def sampleLeft (s : State) (c : Nat) (sm : Sampling) (mode : SampleMode) (o : SampleRes) : State :=
  let u := sampleCounted s c sm mode o
  stateCopy (writeRoutes u c (u.fget (pgCh + c) F.CH_ROUTE_ROUTE0) (u.fget (pgCh + c) F.CH_ROUTE_ROUTE1) o.v0 o.v1 (sm.at_ + 480)) c

/-- The test on the channel as the sample finds it; one that reads a UE ends (R309). -/
def latchTest (s : State) (c : Nat) (fault : LoopFault) : Option LoopTest × State :=
  match testAt s c with
  | (some t, s) => if testReadsUe s t fault then (none, testFinish s t stPoison) else (some t, s)
  | (none, s) => (none, s)

theorem latchTest_kept (s : State) (c : Nat) (fault : LoopFault) : ChansKept s (latchTest s c fault).2 := by
  have h : ChansKept s (testAt s c).2 := (ChansKept.refl s).testAt
  unfold latchTest
  split <;> rename_i heq <;> rw [heq] at h
  · split
    · exact h.testFinish
    · exact h
  · exact h

/-- A sample without a fault is `sampleLeft` of what the arithmetic gives in its mode, and then what its test captures. -/
theorem latchSample_runs (s : State) (c tick : Nat) (sm : Sampling) :
    let u := (latchTest (noteCodes s (pgCh + c) sm) c .none).2
    ∃ t point, ChansKept (sampleLeft u c sm (latchMode u c) (sampleRun u c (chanGet u c) sm (latchMode u c) t point tick))
      (latchSample s c tick sm .none) := by
  dsimp only
  unfold latchSample latchTest
  rcases h : testAt (noteCodes s (pgCh + c) sm) c with ⟨_ | x, u⟩
  · simp only [ne_eq, not_true_eq_false, if_false, h]
    exact ⟨_, _, ChansKept.refl _⟩
  · cases hue : testReadsUe u x .none with
    | true =>
      simp only [ne_eq, not_true_eq_false, if_false, if_true, h, hue]
      exact ⟨_, _, ChansKept.refl _⟩
    | false =>
      simp only [ne_eq, not_true_eq_false, if_false, Bool.false_eq_true, h, hue]
      refine ⟨(testSignal u x).1, if latchMode u c = .normal then some (testSignal u x).2.point else none, ?_⟩
      exact (ChansKept.refl _).free.free.free.testSample

/-- The loop island is as the sample leaves its channel. -/
theorem sampleCounted_loop (s : State) (c : Nat) (sm : Sampling) (mode : SampleMode) (o : SampleRes) :
    (sampleCounted s c sm mode o).loop = (chanSet s c (sampledChan s c sm mode o)).loop := by
  have hshown : ∀ (u : State) (p : Nat) (b : Bool) (m : SampleMode) (l : Nat), (sampleShown u p b m l).loop = u.loop := fun _ _ _ _ _ => rfl
  unfold sampleCounted
  dsimp only
  split
  · rw [pageIrq_loop, hshown, setChFlags_loop]
  · rw [hshown, setChFlags_loop]

/-- The registers of its own page that a sample writes before its route writes. -/
def sampleRegs (p : Nat) : List (Nat × Nat) := [(p, F.CH_STAT_STATE.off), (p, F.CH_FLAGS_FLAGS.off), (p, F.PG_IRQ_STAT_ERR.off)]

theorem sampleCounted_regs (s : State) (c : Nat) (sm : Sampling) (mode : SampleMode) (o : SampleRes) :
    RegsOnly (sampleRegs (pgCh + c)) s (sampleCounted s c sm mode o) := by
  have hflags : RegsOnly (sampleRegs (pgCh + c)) s (setChFlags (chanSet s c (sampledChan s c sm mode o)) (pgCh + c) o.flags) :=
    (setChFlags_regs (chanSet s c (sampledChan s c sm mode o)) (pgCh + c) o.flags).mono (by simp [sampleRegs])
  have hshown := hflags.trans ((sampleShown_regs _ (pgCh + c) (chanBlocked s c) mode (settleAfter (chanGet s c) mode)).mono (by simp [sampleRegs]))
  unfold sampleCounted
  dsimp only
  split
  · exact hshown.pageIrq (by simp [sampleRegs])
  · exact hshown

/-- What CH_STAT shows of a sample that has been counted. -/
theorem sampleCounted_shows (s : State) (c : Nat) (sm : Sampling) (mode : SampleMode) (o : SampleRes) :
    (sampleCounted s c sm mode o).fget (pgCh + c) F.CH_STAT_SAMPLES = (s.fget (pgCh + c) F.CH_STAT_SAMPLES + 1) % 2 ^ 16 ∧
      (sampleCounted s c sm mode o).fget (pgCh + c) F.CH_STAT_STATE = (if mode = .held then chHeld else chRunning) ∧
      (sampleCounted s c sm mode o).fget (pgCh + c) F.CH_STAT_BLOCKED = b2n (chanBlocked s c) := by
  have hflags : (setChFlags (chanSet s c (sampledChan s c sm mode o)) (pgCh + c) o.flags).fget (pgCh + c) F.CH_STAT_SAMPLES =
      s.fget (pgCh + c) F.CH_STAT_SAMPLES := (setChFlags_regs _ _ _).fget (by decide) (by simp)
  have hirq : ∀ (u : State) (f : Fld), f.off = F.CH_STAT_STATE.off → (pageIrq u (pgCh + c) 2).fget (pgCh + c) f = u.fget (pgCh + c) f :=
    fun u f hf => ((RegsOnly.refl [(pgCh + c, F.PG_IRQ_STAT_ERR.off)] u).pageIrq (by simp)).fget (by rw [hf]; decide) (by simp [hf])
  rw [← hflags]
  unfold sampleCounted
  dsimp only
  split
  · rw [hirq _ F.CH_STAT_SAMPLES rfl, hirq _ F.CH_STAT_STATE rfl, hirq _ F.CH_STAT_BLOCKED rfl]
    exact sampleShown_shows ..
  · exact sampleShown_shows ..

/-- The pages that a channel's sample writes beside the LOOP global page: its own and those of the pairs. -/
abbrev samplePages (c q : Nat) : Prop := q = pgCh + c ∨ pairPages q

theorem sampleLeft_pages (s : State) (c : Nat) (sm : Sampling) (mode : SampleMode) (o : SampleRes) :
    PagesOnly (samplePages c) s (sampleLeft s c sm mode o) := by
  have hcounted : PagesOnly (samplePages c) s (sampleCounted s c sm mode o) :=
    .of_regsOnly (sampleCounted_regs s c sm mode o) (by simp [sampleRegs, samplePages])
  have hcopy : ∀ u, PagesOnly (samplePages c) u (stateCopy u c) := fun u =>
    .of_regsOnly (CopyOnly.refl _ u).stateCopy.regs fun x hx => by
      obtain ⟨k, -, rfl⟩ := List.mem_map.mp hx
      exact .inl rfl
  exact (hcounted.trans ((writeRoutes_pages _ c _ _ o.v0 o.v1 (sm.at_ + 480)).mono fun _ => .inr)).trans (hcopy _)

/-- After its sample the channel has the law's state and the values routed last; of the rest OUTER may be written. -/
theorem sampleLeft_chan (s : State) (c : Nat) (sm : Sampling) (mode : SampleMode) (o : SampleRes) :
    chanGet (sampleLeft s c sm mode o) c =
      outerOf { sampledChan s c sm mode o with out0 := o.v0, out1 := o.v1 } (chanGet (sampleLeft s c sm mode o) c) := by
  have hcopy : ∀ u d, chanGet (stateCopy u c) d = chanGet u d := fun u d => by unfold chanGet; rw [(CopyOnly.refl _ u).stateCopy.loop]
  have hcounted : chanGet (sampleCounted s c sm mode o) c = sampledChan s c sm mode o := by
    unfold chanGet
    rw [sampleCounted_loop]
    exact chanGet_chanSet_same ..
  unfold sampleLeft
  dsimp only
  rw [hcopy]
  conv_lhs => rw [writeRoutes_chan, hcounted]

/-- The pages of the pairs stand above those of the channels. -/
theorem ch_not_pairPages {c : Nat} (hc : c < 32) : ¬ pairPages (pgCh + c) := by
  have h : pgCh + 32 = pgPwm := rfl
  unfold pairPages
  omega

/-- CH_STAT stands outside what the route writes and the state copy write. -/
theorem sampleLeft_shows (s : State) {c : Nat} (sm : Sampling) (mode : SampleMode) (o : SampleRes) (hc : c < 32) :
    (sampleLeft s c sm mode o).fget (pgCh + c) F.CH_STAT_SAMPLES = (s.fget (pgCh + c) F.CH_STAT_SAMPLES + 1) % 2 ^ 16 ∧
      (sampleLeft s c sm mode o).fget (pgCh + c) F.CH_STAT_STATE = (if mode = .held then chHeld else chRunning) ∧
      (sampleLeft s c sm mode o).fget (pgCh + c) F.CH_STAT_BLOCKED = b2n (chanBlocked s c) := by
  have hstat : (sampleLeft s c sm mode o).reg (pgCh + c) F.CH_STAT_STATE.off = (sampleCounted s c sm mode o).reg (pgCh + c) F.CH_STAT_STATE.off := by
    refine ((CopyOnly.refl _ _).stateCopy.regs _ _ (by decide) fun h => ?_).trans
      (writeRoutes_pages _ c _ _ o.v0 o.v1 (sm.at_ + 480) _ _ (by decide) (ch_not_pairPages hc))
    obtain ⟨k, -, hk⟩ := List.mem_map.mp h
    have hoff : 0x300 + 4 * k = 0x4C := congrArg Prod.snd hk
    omega
  unfold State.fget
  rw [hstat]
  exact sampleCounted_shows ..

/-! ### A latch -/

/-- With no write held, nothing is taken but the list of held writes. -/
theorem flushHeld_none {s : State} {p : Nat} (h : (s.page p).heldWrites = []) : flushHeld s p = (takeHeld s p).2 := by
  unfold flushHeld takeHeld applyHeld eachIn
  rw [h]
  rfl

/-- The channel at its latch, no write held for it any more. -/
def latchReady (s : State) (c : Nat) : State := (takeHeld s (pgCh + c)).2.fset (pgCh + c) F.CH_STAT_WRITE_PENDING 0

theorem latchReady_regs (s : State) (c : Nat) : RegsOnly [(pgCh + c, F.CH_STAT_STATE.off)] s (latchReady s c) :=
  (RegsOnly.refl _ (takeHeld s (pgCh + c)).2).fset (by simp) (by decide)

/-- WRITE_PENDING stands beside the count of samples. -/
theorem latchReady_samples (s : State) (c : Nat) : (latchReady s c).fget (pgCh + c) F.CH_STAT_SAMPLES = s.fget (pgCh + c) F.CH_STAT_SAMPLES :=
  fget_fset_beside (takeHeld s (pgCh + c)).2 _ F.CH_STAT_WRITE_PENDING F.CH_STAT_SAMPLES _ rfl (.inr (by decide))

/-- No register but CH_STAT moves, and so no field of another one. -/
theorem latchReady_fget (s : State) (c p : Nat) {f : Fld} (ho : f.off < 4096) (hn : f.off ≠ F.CH_STAT_STATE.off) :
    (latchReady s c).fget p f = s.fget p f := (latchReady_regs s c).fget ho (by simp [hn])

theorem latchReady_blocked (s : State) {c : Nat} (hc : c < 32) : chanBlocked (latchReady s c) c = chanBlocked s c := by
  refine chanBlocked_congr (fun d f hf => ?_) (fun n => (latchReady_regs s c).fget (by decide) ?_) c
  · simp only [List.mem_cons, List.not_mem_nil, or_false] at hf
    rcases hf with rfl | rfl <;> exact latchReady_fget _ _ _ (by decide) (by decide)
  · have h : pgCh + 32 = pgPwm := rfl
    simp only [List.mem_singleton, Prod.mk.injEq, not_and]
    omega

/-- A latch with no write held, of a channel in service: its sample runs, or with ENABLE = 0 the channel stops (R288, R304). -/
theorem execLoopLatch_acts {s : State} {c tick : Nat} {sm : Sampling} (fault : LoopFault) (hs : (chanGet s c).sampling = some sm)
    (ht : tick = sm.at_ + 288) (hh : (s.page (pgCh + c)).heldWrites = []) (ho : pageOut s (pgCh + c) = false) :
    execLoopLatch c tick fault s = .next (if s.fbit (pgCh + c) F.PG_CTRL_ENABLE then latchSample (latchReady (s.reach tick) c) c tick sm fault
      else chanStop (noteCodes (latchReady (s.reach tick) c) (pgCh + c) sm) c (sm.at_ + 480)) := by
  have hfbit : ∀ f : Fld, f.off < 4096 → f.off ≠ F.CH_STAT_STATE.off → (latchReady (s.reach tick) c).fbit (pgCh + c) f = s.fbit (pgCh + c) f :=
    fun f h1 h2 => by rw [State.fbit, latchReady_fget _ _ _ h1 h2, reach_fget, State.fbit]
  have hout : ¬ pageOut (latchReady (s.reach tick) c) (pgCh + c) = true := by
    rw [pageOut, hfbit _ (by decide) (by decide), ← pageOut, ho]
    exact Bool.false_ne_true
  have hready : (flushHeld (s.reach tick) (pgCh + c)).fset (pgCh + c) F.CH_STAT_WRITE_PENDING 0 = latchReady (s.reach tick) c := by
    rw [flushHeld_none (by rw [page_reach, hh]), latchReady]
  unfold execLoopLatch
  simp only [hs, if_pos ht.symm]
  unfold loopLatch
  dsimp only
  rw [hready, if_neg hout, hfbit _ (by decide) (by decide), ht]

/-- What a sample that meets no fault leaves (R288, R302, R303). -/
theorem latchSample_leaves (s : State) {c : Nat} (tick : Nat) (sm : Sampling) (hc : c < 32) :
    let t := latchSample s c tick sm .none
    PagesOnly (fun q => q = pgCh + c ∨ q = pgLoopG ∨ (pgPwm ≤ q ∧ q < pgPwm + 16)) s t ∧ (chanGet t c).sampling = none ∧
      t.fget (pgCh + c) F.CH_STAT_SAMPLES = (s.fget (pgCh + c) F.CH_STAT_SAMPLES + 1) % 2 ^ 16 ∧
      t.fget (pgCh + c) F.CH_STAT_STATE = (if latchMode s c = .held then chHeld else chRunning) ∧
      t.fget (pgCh + c) F.CH_STAT_BLOCKED = b2n (chanBlocked s c) ∧
      (latchMode s c ≠ .normal → (chanGet t c).out0 = (chanGet s c).out0 ∧ (chanGet t c).out1 = (chanGet s c).out1) := by
  obtain ⟨t, point, hend⟩ := latchSample_runs s c tick sm
  have hbegin : ChansKept s (latchTest (noteCodes s (pgCh + c) sm) c .none).2 := (ChansKept.refl s).noteCodes.trans (latchTest_kept ..)
  generalize (latchTest (noteCodes s (pgCh + c) sm) c .none).2 = u at hbegin hend
  have hmode : latchMode u c = latchMode s c :=
    latchMode_congr (hbegin.chanBlocked c) (List.forall_mem_cons.mpr
      ⟨hbegin.fget (loopG_ne_ch c).symm (by decide), List.forall_mem_singleton.mpr (hbegin.fget (loopG_ne_ch c).symm (by decide))⟩)
  rw [hmode, hbegin.chanGet] at hend
  generalize hrun : sampleRun u c (chanGet s c) sm (latchMode s c) t point tick = o at hend
  have hchan := (hend.chanGet c).trans (sampleLeft_chan u c sm (latchMode s c) o)
  obtain ⟨hsamples, hstate, hblocked⟩ := sampleLeft_shows u sm (latchMode s c) o hc
  have hfget := fun (f : Fld) (ho : f.off < 4096) => hend.fget (f := f) (loopG_ne_ch c).symm ho
  refine ⟨?_, congrArg LoopChan.sampling hchan, ?_, ?_, ?_, fun hn => ?_⟩
  · refine ((hbegin.pages.mono fun q hq => .inr (.inl hq)).trans ((sampleLeft_pages u c sm _ o).mono fun q hq => ?_)).trans
      (hend.pages.mono fun q hq => .inr (.inl hq))
    exact hq.imp_right .inr
  · rw [hfget _ (by decide), hsamples, hbegin.fget (loopG_ne_ch c).symm (by decide)]
  · rw [hfget _ (by decide), hstate]
  · rw [hfget _ (by decide), hblocked, hbegin.chanBlocked]
  · obtain ⟨h0, h1⟩ := sampleRun_keeps u c (chanGet s c) sm t point tick hn
    rw [hrun] at h0 h1
    exact ⟨(congrArg LoopChan.out0 hchan).trans h0, (congrArg LoopChan.out1 hchan).trans h1⟩

/-! ### A stop -/

/-- The state of a channel that stops, before the test on it ends (R304). -/
def chanStopped (s : State) (c tick : Nat) : State :=
  let u := safeRoutes (chanSet s c { chanGet s c with sampling := none }) c (s.fget (pgCh + c) F.CH_ROUTE_ROUTE0)
    (s.fget (pgCh + c) F.CH_ROUTE_ROUTE1) tick
  pageIrq ((u.fset (pgCh + c) F.CH_STAT_STATE chDisabled).fset (pgCh + c) F.CH_STAT_BLOCKED 0) (pgCh + c) 4

theorem chanStop_eq (s : State) (c tick : Nat) : chanStop s c tick = testChannelGone (chanStopped s c tick) c := rfl

/-- A channel that stops is DISABLED, has no sample in progress, routes SAFE0 and SAFE1 and keeps the law's state. -/
theorem chanStop_leaves (s : State) (c tick : Nat) :
    let t := chanStop s c tick
    (chanGet t c).sampling = none ∧ t.fget (pgCh + c) F.CH_STAT_STATE = chDisabled ∧ (chanGet t c).out0 = chQ s (pgCh + c) F.CH_SAFE_SAFE0 ∧
      (chanGet t c).out1 = chQ s (pgCh + c) F.CH_SAFE_SAFE1 ∧ (chanGet t c).law = (chanGet s c).law := by
  have hgone : ChansKept (chanStopped s c tick) (chanStop s c tick) := by
    rw [chanStop_eq]
    exact (ChansKept.refl _).testChannelGone
  have hchan : chanGet (chanStopped s c tick) c =
      outerOf { chanGet s c with sampling := none, out0 := chQ s (pgCh + c) F.CH_SAFE_SAFE0, out1 := chQ s (pgCh + c) F.CH_SAFE_SAFE1 }
        (chanGet (chanStopped s c tick) c) := by
    have hirq : ∀ (u : State) (p bits d : Nat), chanGet (pageIrq u p bits) d = chanGet u d := fun u p bits d => by unfold chanGet; rw [pageIrq_loop]
    unfold chanStopped safeRoutes
    dsimp only
    rw [hirq]
    refine (writeRoutes_chan (chanSet s c { chanGet s c with sampling := none }) ..).trans ?_
    rw [chanGet_chanSet_same]
    rfl
  have hstate : (chanStopped s c tick).fget (pgCh + c) F.CH_STAT_STATE = chDisabled := by
    unfold chanStopped
    dsimp only
    rw [((RegsOnly.refl [(pgCh + c, F.PG_IRQ_STAT_ERR.off)] _).pageIrq (by simp)).fget (by decide) (by simp),
      fget_fset_beside _ _ F.CH_STAT_BLOCKED F.CH_STAT_STATE _ rfl (.inl (by decide))]
    exact fget_fset_same _ _ _ _ (by decide)
  have hleft := (hgone.chanGet c).trans hchan
  have hlaw := congrArg LoopChan.law hleft
  exact ⟨congrArg LoopChan.sampling hleft, (hgone.fget (loopG_ne_ch c).symm (by decide)).trans hstate, congrArg LoopChan.out0 hleft,
    congrArg LoopChan.out1 hleft, hlaw⟩

/-! ### A failure -/

/-- The channel as it leaves service, before the pairs take their holds, the robot its stop and the test its end (Table 5.7, R337). -/
def chanDown (s : State) (c : Nat) : State :=
  pageIrq ((((chanSet s c { chanGet s c with sampling := none }).fset (pgCh + c) F.CH_STAT_STATE chDisabled).fset (pgCh + c)
    F.CH_STAT_BLOCKED 0).fset (pgCh + c) F.CH_STAT_WRITE_PENDING 0) (pgCh + c) 4

theorem chanLeave_eq (s : State) (c : Nat) :
    chanLeave s c = testChannelGone (stopRequest (refreshHolds (chanDown s c)) 19
      (groupsOfPairs (refreshHolds (chanDown s c)) (chanPairs (refreshHolds (chanDown s c)) c)) false) c := rfl

/-- Of its page the channel writes CH_STAT and the causes. -/
theorem chanDown_regs (s : State) (c : Nat) : RegsOnly [(pgCh + c, F.CH_STAT_STATE.off), (pgCh + c, F.PG_IRQ_STAT_ERR.off)] s (chanDown s c) :=
  RegsOnly.pageIrq (.fset (.fset (.fset (.refl _ s) (by simp) (by decide)) (by simp) (by decide)) (by simp) (by decide)) (by simp)

theorem chanDown_disabled (s : State) (c : Nat) : (chanDown s c).fget (pgCh + c) F.CH_STAT_STATE = chDisabled := by
  unfold chanDown
  rw [((RegsOnly.refl [(pgCh + c, F.PG_IRQ_STAT_ERR.off)] _).pageIrq (by simp)).fget (by decide) (by simp),
    fget_fset_beside _ _ F.CH_STAT_WRITE_PENDING F.CH_STAT_STATE _ rfl (.inl (by decide)),
    fget_fset_beside _ _ F.CH_STAT_BLOCKED F.CH_STAT_STATE _ rfl (.inl (by decide))]
  exact fget_fset_same _ _ _ _ (by decide)

/-- The pages that a channel's leaving writes beside its own: the LOOP global page, the Loupe's and those of the pairs. -/
abbrev leavePages (q : Nat) : Prop := q = pgLoopG ∨ q = pgLoupe ∨ pgPwm ≤ q

theorem chanLeave_pages (s : State) (c : Nat) : PagesOnly leavePages (chanDown s c) (chanLeave s c) := by
  have hholds : PagesOnly leavePages (chanDown s c) (refreshHolds (chanDown s c)) :=
    (PagesOnly.refl _ _).refreshHolds fun _ _ => .inr (.inr (Nat.le_add_right _ _))
  rw [chanLeave_eq]
  exact (hholds.trans ((stopRequest_pages _ 19 _ false).mono fun _ hq => .inr (hq.imp_right And.left))).trans
    ((ChansKept.refl _).testChannelGone.pages.mono fun _ hq => .inl hq)

/-- A channel's page is none of those. -/
theorem ch_not_leavePages {c : Nat} (hc : c < 32) : ¬ leavePages (pgCh + c) := by
  have h : pgCh + 32 = pgPwm := rfl
  have hl : pgLoupe < pgCh := by decide
  have hg := loopG_ne_ch c
  unfold leavePages
  omega

/-- A channel that leaves service is DISABLED; of its page only CH_STAT and the causes are written (Table 5.7). -/
theorem chanLeave_leaves (s : State) {c : Nat} (hc : c < 32) :
    (chanLeave s c).fget (pgCh + c) F.CH_STAT_STATE = chDisabled ∧
      ∀ f : Fld, f.off < 4096 → f.off ≠ F.CH_STAT_STATE.off → f.off ≠ F.PG_IRQ_STAT_ERR.off →
        (chanLeave s c).reg (pgCh + c) f.off = s.reg (pgCh + c) f.off :=
  ⟨((chanLeave_pages s c).fget (ch_not_leavePages hc) (by decide)).trans (chanDown_disabled s c), fun f ho h1 h2 =>
    (chanLeave_pages s c _ f.off ho (ch_not_leavePages hc)).trans (chanDown_regs s c _ f.off ho (by simp [h1, h2]))⟩

/-- A unit that fails shows FAULT out of service and the capture of UNIT_FAILED (Table 5.4). -/
theorem unitFault_shows {s : State} {p : Nat} (detail : Nat) (hp : p ≠ pgPart) (hv : s.fbit p F.PG_ERR0_VALID = false) :
    pageOut (unitFault s p detail) p = true ∧ (unitFault s p detail).fbit p F.PG_STAT_FAULT = true ∧
      (unitFault s p detail).fget p F.PG_ERR0_CODE = 0x0501 ∧ (unitFault s p detail).reg p F.PG_ERR3.off = BitVec.ofNat 32 detail := by
  have hvalid : (markOut s p true).fbit p F.PG_ERR0_VALID = false := by
    rw [State.fbit, (markOut_regs s p true).fget (by decide) (by simp [outRegs]), ← State.fbit, hv]
  obtain ⟨hout, hfault⟩ := markOut_shows s p true
  have hstat : ∀ f : Fld, f.off = F.PG_STAT_FAULT.off → (unitFault s p detail).fbit p f = (markOut s p true).fbit p f := fun f hf => by
    unfold State.fbit
    rw [unitFault, (capture_regs (markOut s p true) p 0x0501 0 detail).fget (by rw [hf]; decide) (by simp [captureRegs, hf, hp])]
  refine ⟨?_, ?_, (capture_shows 0 detail hvalid (by decide)).2, capture_err3 _ _ _ hvalid⟩
  · rw [pageOut, hstat F.PG_STAT_OUT_OF_SERVICE rfl]
    exact hout
  · rw [hstat F.PG_STAT_FAULT rfl, hfault]
    rfl

/-- A sample that finds a fault of its coefficients fails its channel (R313). -/
theorem latchSample_coef (s : State) (c tick : Nat) (sm : Sampling) : latchSample s c tick sm .coef = chanFail (noteCodes s (pgCh + c) sm) c 1 := rfl

/-- A channel that fails is out of service with FAULT, DISABLED, and its failure captured. -/
theorem chanFail_leaves {s : State} {c : Nat} (detail : Nat) (hc : c < 32) (hv : s.fbit (pgCh + c) F.PG_ERR0_VALID = false) :
    let t := chanFail s c detail
    pageOut t (pgCh + c) = true ∧ t.fbit (pgCh + c) F.PG_STAT_FAULT = true ∧ t.fget (pgCh + c) F.CH_STAT_STATE = chDisabled ∧
      t.fget (pgCh + c) F.PG_ERR0_CODE = 0x0501 ∧ t.reg (pgCh + c) F.PG_ERR3.off = BitVec.ofNat 32 detail := by
  have hpart : pgCh + c ≠ pgPart := (Nat.lt_of_lt_of_le (by decide : pgPart < pgCh) (Nat.le_add_right _ _)).ne'
  obtain ⟨hout, hfault, hcode, hdetail⟩ := unitFault_shows detail hpart hv
  obtain ⟨hstate, hregs⟩ := chanLeave_leaves (unitFault s (pgCh + c) detail) hc
  dsimp only
  unfold chanFail
  have hfget : ∀ f : Fld, f.off < 4096 → f.off ≠ F.CH_STAT_STATE.off → f.off ≠ F.PG_IRQ_STAT_ERR.off →
      (chanLeave (unitFault s (pgCh + c) detail) c).fget (pgCh + c) f = (unitFault s (pgCh + c) detail).fget (pgCh + c) f :=
    fun f ho h1 h2 => by rw [State.fget, hregs f ho h1 h2, State.fget]
  refine ⟨?_, ?_, hstate, ?_, (hregs F.PG_ERR3 (by decide) (by decide) (by decide)).trans hdetail⟩
  · rw [pageOut, State.fbit, hfget _ (by decide) (by decide) (by decide)]
    exact hout
  · rw [State.fbit, hfget _ (by decide) (by decide) (by decide)]
    exact hfault
  · rw [hfget _ (by decide) (by decide) (by decide), hcode]

/-- At its latch a channel's state, blocking, mode, count and other registers are what they were. -/
theorem latchReady_same (s : State) {c : Nat} (tick : Nat) (hc : c < 32) :
    chanGet (latchReady (s.reach tick) c) c = chanGet s c ∧ chanBlocked (latchReady (s.reach tick) c) c = chanBlocked s c ∧
      latchMode (latchReady (s.reach tick) c) c = latchMode s c ∧
      (latchReady (s.reach tick) c).fget (pgCh + c) F.CH_STAT_SAMPLES = s.fget (pgCh + c) F.CH_STAT_SAMPLES ∧
      ∀ f : Fld, f.off < 4096 → f.off ≠ F.CH_STAT_STATE.off → (latchReady (s.reach tick) c).fget (pgCh + c) f = s.fget (pgCh + c) f := by
  have hfget : ∀ f : Fld, f.off < 4096 → f.off ≠ F.CH_STAT_STATE.off →
      (latchReady (s.reach tick) c).fget (pgCh + c) f = s.fget (pgCh + c) f := fun f h1 h2 => (latchReady_fget _ _ _ h1 h2).trans (reach_fget ..)
  have hblocked : chanBlocked (latchReady (s.reach tick) c) c = chanBlocked s c :=
    (latchReady_blocked _ hc).trans (chanBlocked_congr (fun _ _ _ => reach_fget ..) (fun _ => reach_fget ..) c)
  exact ⟨chanGet_reach s tick c, hblocked,
    latchMode_congr hblocked (List.forall_mem_cons.mpr
      ⟨hfget _ (by decide) (by decide), List.forall_mem_singleton.mpr (hfget _ (by decide) (by decide))⟩),
    (latchReady_samples ..).trans (reach_fget ..), hfget⟩

/-! ### The statement -/

/-- Settles O38: an instant leaves `sampleTaken`, a latch what `latchSample_leaves`, `chanStop_leaves` and `chanFail_leaves` say of
`latchReady`. -/
theorem loopSamples : Obligations.LoopSamples := by
  unfold Obligations.LoopSamples
  intro s c tick
  refine ⟨fun codes hs hi he hr ho hj => ⟨fun hd => ?goes, fun hd => ?starts⟩,
    fun sm hb hs ht hh ho => ⟨fun he => ?samples, fun he => ?stops, fun he hv => ?fails⟩⟩
  case goes =>
    have hexec := execLoopSampleInstant_takes codes hs hi he hr ho hj
    rw [hd, if_neg Bool.false_ne_true] at hexec
    refine ⟨_, hexec, ?_, ?_, fun k hk => (chanGet_chanSet_ne _ _ hk).trans (chanGet_reach ..)⟩
    · exact reached_loop (sampleTaken_shape ..)
    · rw [sampleTaken, chanGet_chanSet_same, chanGet_reach, sampleAt_reach]
      rfl
  case starts =>
    have hexec := execLoopSampleInstant_takes codes hs hi he hr ho hj
    rw [hd, if_pos rfl] at hexec
    obtain ⟨hrun, hnone⟩ := chanStart_shows (s.reach tick) c tick
    refine ⟨_, hexec, ?_, fun q o hq hn => ?_, (sampleTaken_fget ..).trans hrun, (sampleTaken_fget ..).trans hnone, ?_, fun k hk => ?_⟩
    · exact reached_regsLoop (chanStart_shape ..) (sampleTaken_shape ..)
    · rw [sampleTaken_reg, chanStart_regs (s.reach tick) c tick q o hq hn, reach_reg]
    · rw [sampleTaken, chanGet_chanSet_same, sampleAt_chanStart, sampleAt_reach, chanGet_chanStart_same, chanGet_reach, reach_fget]
      rfl
    · exact (chanGet_chanSet_ne _ _ hk).trans ((chanGet_chanStart_ne _ tick hk).trans (chanGet_reach ..))
  case samples =>
    have hc : c < 32 := Nat.lt_of_lt_of_le hb (loopChannels_le _)
    obtain ⟨hchan, hblocked, hmode, hsamples, -⟩ := latchReady_same s tick hc
    obtain ⟨hpages, hnone, hcount, hstate, hblk, hkeep⟩ := latchSample_leaves (latchReady (s.reach tick) c) tick sm hc
    rw [hmode] at hstate
    rw [hmode, hchan] at hkeep
    rw [hblocked] at hblk
    rw [hsamples] at hcount
    have hexec := execLoopLatch_acts .none hs ht hh ho
    rw [if_pos he] at hexec
    refine ⟨_, hexec, ?_, hnone, hcount, ?_, hblk, fun hhold hfree => ?_, fun h => hkeep ?_⟩
    · have hready : PagesOnly (· = pgCh + c) s (latchReady (s.reach tick) c) :=
        (reach_pages _ s tick).trans (.of_regsOnly (latchReady_regs _ c) (by simp))
      exact (hready.mono fun _ => .inl).trans hpages
    · rw [hstate]
      split
      · exact .inr rfl
      · exact .inl rfl
    · rw [hstate, if_pos (latchMode_held hhold hfree)]
    · exact latchMode_ne_normal h
  case stops =>
    have hc : c < 32 := Nat.lt_of_lt_of_le hb (loopChannels_le _)
    obtain ⟨hchan, -, -, -, hfget⟩ := latchReady_same s tick hc
    have hnoted : ChansKept (latchReady (s.reach tick) c) (noteCodes (latchReady (s.reach tick) c) (pgCh + c) sm) := (ChansKept.refl _).noteCodes
    have hsafe : ∀ f : Fld, f.off = F.CH_SAFE_SAFE0.off →
        chQ (noteCodes (latchReady (s.reach tick) c) (pgCh + c) sm) (pgCh + c) f = chQ s (pgCh + c) f := fun f hf => by
      rw [chQ, hnoted.fget (loopG_ne_ch c).symm (by rw [hf]; decide), hfget f (by rw [hf]; decide) (by rw [hf]; decide), chQ]
    obtain ⟨hnone, hstate, h0, h1, hlaw⟩ := chanStop_leaves (noteCodes (latchReady (s.reach tick) c) (pgCh + c) sm) c (sm.at_ + 480)
    have hexec := execLoopLatch_acts .none hs ht hh ho
    rw [if_neg (by rw [he]; exact Bool.false_ne_true)] at hexec
    exact ⟨_, hexec, hnone, hstate, h0.trans (hsafe _ rfl), h1.trans (hsafe _ rfl), hlaw.trans (by rw [hnoted.chanGet, hchan])⟩
  case fails =>
    have hc : c < 32 := Nat.lt_of_lt_of_le hb (loopChannels_le _)
    obtain ⟨-, -, -, -, hfget⟩ := latchReady_same s tick hc
    have hvalid : (noteCodes (latchReady (s.reach tick) c) (pgCh + c) sm).fbit (pgCh + c) F.PG_ERR0_VALID = false := by
      rw [State.fbit, (ChansKept.refl _).noteCodes.fget (loopG_ne_ch c).symm (by decide), hfget _ (by decide) (by decide), ← State.fbit, hv]
    have hexec := execLoopLatch_acts .coef hs ht hh ho
    rw [if_pos he, latchSample_coef] at hexec
    exact ⟨_, hexec, chanFail_leaves 1 hc hvalid⟩

end Sys2Proof.Machine
end

section
/-! SUPPORT. What the holds of the pairs leave (R326, R327): which pages they write, and that beside registers and the host side only the table of
pairs changes. Numbers of flags, one bit each, and the fields that page interrupts and captures leave. -/

namespace Sys2Proof.Machine

/-! ### Single bits of a number -/

/-- A power of two that joins a number without that bit leaves every other bit. -/
theorem testBit_two_pow_add_of_ne {x i j : Nat} (h : x.testBit i = false) (hj : j ≠ i) : (2 ^ i + x).testBit j = x.testBit j := by
  induction i generalizing x j with
  | zero =>
    obtain ⟨k, rfl⟩ := Nat.exists_eq_succ_of_ne_zero hj
    have hx : x % 2 = 0 := by simpa [Nat.testBit_zero] using h
    rw [Nat.testBit_succ, Nat.testBit_succ, show (2 ^ 0 + x) / 2 = x / 2 by omega]
  | succ i ih =>
    have hhalf : (2 ^ (i + 1) + x) / 2 = 2 ^ i + x / 2 := by omega
    cases j with
    | zero =>
      rw [Nat.testBit_zero, Nat.testBit_zero, show (2 ^ (i + 1) + x) % 2 = x % 2 by omega]
    | succ j =>
      rw [Nat.testBit_succ, Nat.testBit_succ, hhalf]
      exact ih (by rwa [Nat.testBit_succ] at h) fun e => hj (congrArg (· + 1) e)

/-- A bit that is put into a number leaves every other bit. -/
theorem testBit_natPutBit_ne {i j : Nat} (x : Nat) (b : Bool) (hj : j ≠ i) : (natPutBit x i b).testBit j = x.testBit j := by
  unfold natPutBit
  split
  · rfl
  · rename_i h
    cases b with
    | true =>
      rw [if_pos rfl, Nat.add_comm]
      exact testBit_two_pow_add_of_ne (by simpa using h) hj
    | false =>
      have hx : x.testBit i = true := by simpa using h
      have hsum : 2 ^ i + (x - 2 ^ i) = x := Nat.add_sub_of_le (Nat.ge_two_pow_of_testBit hx)
      have hflip := Nat.testBit_two_pow_add_eq (x - 2 ^ i) i
      rw [hsum, hx] at hflip
      rw [if_neg Bool.false_ne_true, ← testBit_two_pow_add_of_ne (by simpa using hflip) hj, hsum]

/-- The number whose bits below `n` are the flags. -/
def flagSum (n : Nat) (f : Nat → Bool) : Nat := ((List.range n).filter f).foldl (fun a i => a + 2 ^ i) 0

theorem flagSum_succ (n : Nat) (f : Nat → Bool) : flagSum (n + 1) f = flagSum n f + if f n then 2 ^ n else 0 := by
  unfold flagSum
  rw [List.range_succ, List.filter_append, List.foldl_append]
  cases hf : f n <;> simp [hf]

theorem flagSum_lt (n : Nat) (f : Nat → Bool) : flagSum n f < 2 ^ n := by
  induction n with
  | zero => simp [flagSum]
  | succ n ih =>
    rw [flagSum_succ]
    split <;> omega

theorem testBit_flagSum (n : Nat) (f : Nat → Bool) (i : Nat) : (flagSum n f).testBit i = (decide (i < n) && f i) := by
  induction n with
  | zero => simp [flagSum]
  | succ n ih =>
    have hnew : (flagSum n f).testBit n = false := Nat.testBit_lt_two_pow (flagSum_lt n f)
    rw [flagSum_succ]
    rcases eq_or_ne i n with rfl | hi
    · cases hf : f i
      · simp [hnew]
      · rw [if_pos rfl, Nat.add_comm, Nat.testBit_two_pow_add_eq, hnew]
        simp
    · have hlt : decide (i < n + 1) = decide (i < n) := by
        rw [decide_eq_decide]
        omega
      rw [hlt, ← ih]
      split
      · rw [Nat.add_comm, testBit_two_pow_add_of_ne hnew hi]
      · rfl

/-! ### Fields that causes and captures leave -/

/-- A page interrupt leaves every field of another register than the causes. -/
theorem pageIrq_fget (s : State) (p bits : Nat) {q : Nat} {f : Fld} (ho : f.off < 4096) (hn : f.off ≠ F.PG_IRQ_STAT_ERR.off) :
    (pageIrq s p bits).fget q f = s.fget q f := by
  rw [State.fget, pageIrq_reg s p bits ho, if_neg fun e => hn e.2, State.fget]

/-- The registers behind a page's header and before the entries of the log are none of what a capture writes, the log's counts apart. -/
theorem not_mem_captureRegs (s : State) (p part : Nat) {q o : Nat} (hlo : F.PG_ERR3.off < o) (hhi : o < 0x100)
    (hlog : q = pgPart + part → o ≠ F.PART_LOG_STAT_NEXT.off) : (q, o) ∉ captureRegs s p part := by
  have hne : ∀ k, k ≤ F.PG_ERR3.off → o ≠ k := fun k hk e => absurd hlo (by omega)
  simp only [captureRegs, List.mem_cons, Prod.mk.injEq, List.not_mem_nil, or_false, not_or, not_and]
  exact ⟨fun _ => hne _ (by decide), fun _ => hne _ (by decide), fun _ => hne _ (by decide), fun _ => hne _ (by decide), fun _ => hne _ (by decide),
    fun _ => by omega, fun _ => by omega, fun _ => by omega, fun _ => by omega, hlog, fun _ => hne _ (by decide)⟩

theorem capture_fget (s : State) (p code part detail : Nat) {q : Nat} {f : Fld} (hlo : F.PG_ERR3.off < f.off) (hhi : f.off < 0x100)
    (hlog : q = pgPart + part → f.off ≠ F.PART_LOG_STAT_NEXT.off) : (capture s p code part detail).fget q f = s.fget q f :=
  (capture_regs s p code part detail).fget (by omega) (not_mem_captureRegs s p part hlo hhi hlog)

/-! ### What beside registers changes -/

/-- Beside registers and the host side only the table of pairs changes. -/
def PairsOnly (s t : State) : Prop := t = { s with regs := t.regs, host := t.host, pwm := { s.pwm with pairs := t.pwm.pairs } }

namespace PairsOnly
variable {s t u : State}

theorem refl (s : State) : PairsOnly s s := rfl

theorem trans (h : PairsOnly s t) (g : PairsOnly t u) : PairsOnly s u := by
  refine Eq.trans g ?_
  rw [h]

theorem of_regsHost (h : t = { s with regs := t.regs, host := t.host }) : PairsOnly s t := by
  unfold PairsOnly
  rw [h]

theorem fset {p v : Nat} {f : Fld} (h : PairsOnly s t) : PairsOnly s (t.fset p f v) := h.trans rfl
theorem fincSat {p d : Nat} {f : Fld} (h : PairsOnly s t) : PairsOnly s (t.fincSat p f d) := h.trans rfl
theorem pairSet {n : Nat} {x : PwmPair} (h : PairsOnly s t) : PairsOnly s (pairSet t n x) := h.trans rfl
theorem pageIrq {p bits : Nat} (h : PairsOnly s t) : PairsOnly s (pageIrq t p bits) := h.trans (of_regsHost (pageIrq_shape ..))
theorem capture {p code part detail : Nat} (h : PairsOnly s t) : PairsOnly s (capture t p code part detail) := h.trans (of_regsHost (capture_shape ..))

theorem ite {c : Prop} [Decidable c] (a : c → PairsOnly s t) (b : ¬ c → PairsOnly s u) : PairsOnly s (if c then t else u) := by
  split
  · exact a ‹_›
  · exact b ‹_›

theorem each {α : Type} (l : List α) {f : State → α → State} (hf : ∀ t a, PairsOnly t (f t a)) (h : PairsOnly s t) : PairsOnly s (eachIn l f t) := by
  unfold eachIn
  induction l generalizing t with
  | nil => exact h
  | cons a l ih => exact ih (h.trans (hf t a))

theorem setOutputs {n : Nat} {hi lo : Bool} (h : PairsOnly s t) : PairsOnly s (setOutputs t n hi lo) := h.fset.fset

theorem tripPads {n : Nat} (h : PairsOnly s t) : PairsOnly s (tripPads t n) := h.pairSet.setOutputs

theorem pairIdle {n : Nat} (h : PairsOnly s t) : PairsOnly s (pairIdle t n) := h.pairSet.setOutputs.fset

theorem setHolds {n holds : Nat} (h : PairsOnly s t) : PairsOnly s (setHolds t n holds) := by
  unfold Machine.setHolds
  dsimp only
  refine ite (fun _ => h) fun _ => ite (fun _ => ?held) fun _ => ite (fun _ => ?resumes) fun _ => h.fset.pairIdle.pageIrq
  case held =>
    refine ite (fun _ => ?_) fun _ => .pageIrq (.fset ?_) <;>
    exact ite (fun _ => h.fset.tripPads.fincSat) fun _ => h.fset.pairSet
  case resumes => exact ite (fun _ => h.fset.pairSet.fset.pageIrq) fun _ => h.fset.pairSet

theorem refreshHolds (h : PairsOnly s t) : PairsOnly s (refreshHolds t) := h.each _ fun t _ => (refl t).setHolds

theorem pairTsChanged {old : Word} (h : PairsOnly s t) : PairsOnly s (pairTsChanged t old) :=
  h.each _ fun t _ => ite (fun _ => (refl t).fset.tripPads) fun _ => (refl t).fset

/-! What it leaves, part by part. -/

theorem var (h : PairsOnly s t) : t.var = s.var := by rw [h]; rfl
theorem boot (h : PairsOnly s t) : t.boot = s.boot := by rw [h]
theorem loupe (h : PairsOnly s t) : t.loupe = s.loupe := by rw [h]
theorem tripSince (h : PairsOnly s t) : t.pwm.tripSince = s.pwm.tripSince := by rw [h]

end PairsOnly

/-! ### Which pages the holds write -/

/-- The pages of the pairs. -/
abbrev pwmPages (s : State) (q : Nat) : Prop := pgPwm ≤ q ∧ q < pgPwm + s.var.pwmPairs

theorem pwmPages_add {s : State} {n : Nat} (h : n < s.var.pwmPairs) : pwmPages s (pgPwm + n) := ⟨by omega, by omega⟩

/-- The TRIP page stands behind those of the pairs, however many a part has. -/
theorem not_pwmPages_trip (s : State) : ¬ pwmPages s pgTrip := by
  have hmax : s.var.pwmPairs ≤ 16 := by cases s.var <;> decide
  simp only [pwmPages, pgPwm, pgTrip]
  omega

theorem not_pwmPages_loupe (s : State) : ¬ pwmPages s pgLoupe := fun h => absurd h.1 (by decide)

theorem refreshHolds_pages (s : State) : PagesOnly (pwmPages s) s (refreshHolds s) := (PagesOnly.refl _ s).refreshHolds fun _ h => pwmPages_add h

/-- What the TRIP page shows is not touched by the holds. -/
theorem refreshHolds_fget_trip (s : State) {f : Fld} (ho : f.off < 4096) : (refreshHolds s).fget pgTrip f = s.fget pgTrip f :=
  (refreshHolds_pages s).fget (not_pwmPages_trip s) ho

end Sys2Proof.Machine
end

section
/-! SUPPORT. Trip inputs (R328, R329, R348): what a latch that sets writes and shows, and what TRIP_FORCE and TRIP_CLR leave of the latches. -/

namespace Sys2Proof.Machine

/-- The pages that trips write: the TRIP page and those of the pairs. -/
abbrev tripPages (s : State) (q : Nat) : Prop := q = pgTrip ∨ pwmPages s q

theorem tripPages_congr {s t : State} (h : t.var = s.var) : tripPages t = tripPages s := by
  unfold tripPages pwmPages
  rw [h]

/-! ### Active inputs -/

/-- The inputs that are active, each with the tick at which it became so. -/
def sinceSet (s : State) (since : Tab Nat) : State := { s with pwm := { s.pwm with tripSince := since } }

@[simp] theorem sinceSet_reg (s : State) (since : Tab Nat) (p o : Nat) : (sinceSet s since).reg p o = s.reg p o := rfl
@[simp] theorem sinceSet_fget (s : State) (since : Tab Nat) (p : Nat) (f : Fld) : (sinceSet s since).fget p f = s.fget p f := rfl

theorem RegsOnly.sinceSet {ws : List (Nat × Nat)} {s t : State} {since : Tab Nat} (h : RegsOnly ws s t) : RegsOnly ws s (sinceSet t since) :=
  h.same fun p o _ => sinceSet_reg t since p o

/-! ### A latch that sets -/

/-- The TRIP page with a latch set and counted and its cause, before the pairs take their holds. -/
def tripNoted (s : State) (n : Nat) : State :=
  pageIrq ((s.fset pgTrip F.TRIP_STAT_LATCH (natPutBit (s.fget pgTrip F.TRIP_STAT_LATCH) n true)).fincSat pgTrip (F.TRIP_COUNT_COUNT.sh (4 * n)) 1)
    pgTrip 1

/-- A latch that is set stays as it is. -/
theorem tripLatch_held {s : State} {n : Nat} (h : natBit (s.fget pgTrip F.TRIP_STAT_LATCH) n = true) : tripLatch s n = s := if_pos h

theorem tripLatch_sets {s : State} {n : Nat} (h : natBit (s.fget pgTrip F.TRIP_STAT_LATCH) n = false) : tripLatch s n = refreshHolds (tripNoted s n) := by
  unfold tripLatch
  rw [if_neg (by simp [h])]
  rfl

theorem tripLatch_pairs (s : State) (n : Nat) : PairsOnly s (tripLatch s n) :=
  .ite (fun _ => .refl s) fun _ => (PairsOnly.refl s).fset.fincSat.pageIrq.refreshHolds

theorem tripLatch_pages (s : State) {n : Nat} (hn : n < 8) : PagesOnly (tripPages s) s (tripLatch s n) := by
  have hcount : (F.TRIP_COUNT_COUNT.sh (4 * n)).off < 4096 := by
    simp only [Fld.sh]
    omega
  exact .ite (fun _ => .refl _ s) fun _ =>
    ((((PagesOnly.refl (tripPages s) s).fset (.inl rfl) (by decide)).fincSat (.inl rfl) hcount).pageIrq (.inl rfl)).refreshHolds
      fun _ h => .inr (pwmPages_add (by rwa [pageIrq_var] at h))

/-- The registers of the TRIP page that a latch that sets writes, with the page's causes. -/
theorem tripNoted_stat (s : State) {n : Nat} {f : Fld} (hf : f.off = F.TRIP_STAT_LATCH.off) :
    (tripNoted s n).fget pgTrip f =
      (s.fset pgTrip F.TRIP_STAT_LATCH (natPutBit (s.fget pgTrip F.TRIP_STAT_LATCH) n true)).fget pgTrip f := by
  rw [tripNoted, pageIrq_fget _ _ _ (by rw [hf]; decide) (by rw [hf]; decide), State.fincSat,
    fget_fset_ne _ _ _ _ (by rw [hf]; simp only [Fld.sh]; omega)]

/-- After a latch sets, it and the latches that were set are set. -/
theorem tripLatch_latch (s : State) {n i : Nat} (hi : i < 8) :
    natBit ((tripLatch s n).fget pgTrip F.TRIP_STAT_LATCH) i = (natBit (s.fget pgTrip F.TRIP_STAT_LATCH) i || decide (i = n)) := by
  cases h : natBit (s.fget pgTrip F.TRIP_STAT_LATCH) n with
  | true =>
    rw [tripLatch_held h]
    rcases eq_or_ne i n with rfl | hne
    · simp [h]
    · simp [hne]
  | false =>
    rw [tripLatch_sets h, refreshHolds_fget_trip _ (by decide), tripNoted_stat _ rfl, fget_fset_same _ _ _ _ (by decide), natBit, Nat.testBit_mod_two_pow]
    rcases eq_or_ne i n with rfl | hne
    · simp [testBit_natPutBit_same, hi]
    · simp [testBit_natPutBit_ne _ _ hne, hi, hne, natBit]

theorem tripLatch_raw (s : State) (n : Nat) : (tripLatch s n).fget pgTrip F.TRIP_STAT_RAW = s.fget pgTrip F.TRIP_STAT_RAW := by
  cases h : natBit (s.fget pgTrip F.TRIP_STAT_LATCH) n with
  | true => rw [tripLatch_held h]
  | false =>
    rw [tripLatch_sets h, refreshHolds_fget_trip _ (by decide), tripNoted_stat (f := F.TRIP_STAT_RAW) _ rfl,
      fget_fset_beside _ _ F.TRIP_STAT_LATCH F.TRIP_STAT_RAW _ rfl (.inl (by decide))]

/-- A latch that sets is counted, up to the top of its count. -/
theorem tripLatch_count {s : State} {n : Nat} (hn : n < 8) (h : natBit (s.fget pgTrip F.TRIP_STAT_LATCH) n = false) :
    (tripLatch s n).fget pgTrip (F.TRIP_COUNT_COUNT.sh (4 * n)) = min (s.fget pgTrip (F.TRIP_COUNT_COUNT.sh (4 * n)) + 1) 0xFFFF := by
  have hoff : (F.TRIP_COUNT_COUNT.sh (4 * n)).off < 4096 ∧ (F.TRIP_COUNT_COUNT.sh (4 * n)).off ≠ F.PG_IRQ_STAT_ERR.off ∧
      (F.TRIP_COUNT_COUNT.sh (4 * n)).off ≠ F.TRIP_STAT_LATCH.off := by
    simp only [Fld.sh]
    omega
  obtain ⟨hpage, hirq, hstat⟩ := hoff
  have hwid : (F.TRIP_COUNT_COUNT.sh (4 * n)).lo + (F.TRIP_COUNT_COUNT.sh (4 * n)).wid ≤ 32 := by simp only [Fld.sh]; decide
  rw [tripLatch_sets h, refreshHolds_fget_trip _ hpage, tripNoted, pageIrq_fget _ _ _ hpage hirq, fget_fincSat_same _ _ _ _ hwid,
    fget_fset_ne _ _ _ _ fun e => hstat (Nat.add_left_cancel e)]
  rfl

/-! ### Several latches -/

theorem tripLatches_pages (l : List Nat) (hl : ∀ n ∈ l, n < 8) (s : State) : PagesOnly (tripPages s) s (eachIn l tripLatch s) := by
  induction l generalizing s with
  | nil => exact .refl _ s
  | cons n l ih =>
    have hrest := ih (fun m hm => hl m (List.mem_cons_of_mem n hm)) (tripLatch s n)
    rw [tripPages_congr (tripLatch_pairs s n).var] at hrest
    exact (tripLatch_pages s (hl n List.mem_cons_self)).trans hrest

theorem tripLatches_latch (l : List Nat) (s : State) {i : Nat} (hi : i < 8) :
    natBit ((eachIn l tripLatch s).fget pgTrip F.TRIP_STAT_LATCH) i = (natBit (s.fget pgTrip F.TRIP_STAT_LATCH) i || decide (i ∈ l)) := by
  induction l generalizing s with
  | nil => simp [eachIn]
  | cons n l ih =>
    have hrest : natBit ((eachIn (n :: l) tripLatch s).fget pgTrip F.TRIP_STAT_LATCH) i = _ := ih (tripLatch s n)
    simp only [hrest, tripLatch_latch s hi, Bool.or_assoc, List.mem_cons, Bool.decide_or]

/-! ### A clear -/

/-- The latches a clear leaves set: those it does not name, and those whose input is active (R329). -/
def latchesLeft (s : State) (bits raw : Nat) : Nat :=
  flagSum 8 fun i => natBit (s.fget pgTrip F.TRIP_STAT_LATCH) i && !(natBit bits i && !natBit raw i)

/-- The latches that a clear names and does not clear. -/
def clearsRefused (s : State) (bits raw : Nat) : Nat :=
  flagSum 8 fun i => natBit bits i && natBit (s.fget pgTrip F.TRIP_STAT_LATCH) i && natBit raw i

/-- TRIP_STAT and the active inputs after a clear, before its capture. -/
def tripsLeft (s : State) (bits raw : Nat) : State :=
  sinceSet ((s.fset pgTrip F.TRIP_STAT_RAW raw).fset pgTrip F.TRIP_STAT_LATCH (latchesLeft s bits raw))
    (s.pwm.tripSince.filter fun k => natBit raw k.1)

/-- A clear with its capture, before the pairs take their holds. -/
def clearNoted (s : State) (part bits raw : Nat) : State :=
  if clearsRefused s bits raw ≠ 0 then capture (tripsLeft s bits raw) pgTrip 0x0A00 part (clearsRefused s bits raw) else tripsLeft s bits raw

theorem tripClear_eq (s : State) (part bits raw : Nat) : tripClear s part bits raw = refreshHolds (clearNoted s part bits raw) := rfl

theorem tripsLeft_regs (s : State) (bits raw : Nat) : RegsOnly [(pgTrip, F.TRIP_STAT_RAW.off)] s (tripsLeft s bits raw) :=
  .sinceSet (((RegsOnly.refl _ s).fset (by decide) (by decide)).fset (by decide) (by decide))

theorem clearNoted_var (s : State) (part bits raw : Nat) : (clearNoted s part bits raw).var = s.var := by
  unfold clearNoted
  split
  · exact capture_var ..
  · rfl

/-- A clear writes the TRIP page and, where it is captured, that of the partition. -/
theorem clearNoted_pages (s : State) (part bits raw : Nat) : PagesOnly (fun q => q = pgTrip ∨ q = pgPart + part) s (clearNoted s part bits raw) := by
  have hleft : PagesOnly (fun q => q = pgTrip ∨ q = pgPart + part) s (tripsLeft s bits raw) := .of_regsOnly (tripsLeft_regs s bits raw) (by simp)
  exact .ite (fun _ => hleft.trans (.of_regsOnly (capture_regs _ pgTrip 0x0A00 part _) (by simp [captureRegs]))) fun _ => hleft

/-- A capture of a refused clear leaves TRIP_STAT. -/
theorem clearNoted_stat (s : State) (part bits raw : Nat) {f : Fld} (hf : f.off = F.TRIP_STAT_RAW.off) :
    (clearNoted s part bits raw).fget pgTrip f = (tripsLeft s bits raw).fget pgTrip f := by
  unfold clearNoted
  split
  · exact capture_fget _ _ _ _ _ (by rw [hf]; decide) (by rw [hf]; decide) fun _ => by rw [hf]; decide
  · rfl

theorem tripsLeft_raw (s : State) (bits raw : Nat) : (tripsLeft s bits raw).fget pgTrip F.TRIP_STAT_RAW = raw % 2 ^ 8 :=
  (sinceSet_fget ..).trans
    ((fget_fset_beside _ _ F.TRIP_STAT_LATCH F.TRIP_STAT_RAW _ rfl (.inl (by decide))).trans (fget_fset_same _ _ _ _ (by decide)))

theorem tripsLeft_latch (s : State) (bits raw : Nat) : (tripsLeft s bits raw).fget pgTrip F.TRIP_STAT_LATCH = latchesLeft s bits raw :=
  (sinceSet_fget ..).trans ((fget_fset_same _ _ F.TRIP_STAT_LATCH _ (by decide)).trans (Nat.mod_eq_of_lt (flagSum_lt 8 _)))

/-- A refused clear is captured (R329). -/
theorem clearNoted_captured {s : State} {bits raw : Nat} (part : Nat) (h : clearsRefused s bits raw ≠ 0) (hv : s.fbit pgTrip F.PG_ERR0_VALID = false) :
    (clearNoted s part bits raw).fget pgTrip F.PG_ERR0_CODE = 0x0A00 := by
  have hvalid : (tripsLeft s bits raw).fbit pgTrip F.PG_ERR0_VALID = false := by
    rw [State.fbit, (tripsLeft_regs s bits raw).fget (by decide) (by decide), ← State.fbit, hv]
  unfold clearNoted
  rw [if_pos h]
  exact (capture_shows _ _ hvalid (by decide)).2

/-- A latch that is named and whose input is active makes a clear a refused one. -/
theorem clearsRefused_ne_zero {s : State} {bits raw i : Nat} (hi : i < 8) (hb : natBit bits i = true)
    (hl : natBit (s.fget pgTrip F.TRIP_STAT_LATCH) i = true) (hr : natBit raw i = true) : clearsRefused s bits raw ≠ 0 := by
  intro h0
  have hbit := testBit_flagSum 8 (fun i => natBit bits i && natBit (s.fget pgTrip F.TRIP_STAT_LATCH) i && natBit raw i) i
  rw [← clearsRefused, h0, Nat.zero_testBit] at hbit
  simp [hi, hb, hl, hr] at hbit

/-! ### Inputs that become active -/

/-- The input shows in RAW and its tick is noted. -/
def inputShown (s : State) (i tick : Nat) : State :=
  sinceSet (s.fset pgTrip F.TRIP_STAT_RAW (natPutBit (s.fget pgTrip F.TRIP_STAT_RAW) i true)) (s.pwm.tripSince.ins i tick)

theorem inputShown_regs (s : State) (i tick : Nat) : RegsOnly [(pgTrip, F.TRIP_STAT_RAW.off)] s (inputShown s i tick) :=
  .sinceSet ((RegsOnly.refl _ s).fset (by decide) (by decide))

theorem inputShown_raw (s : State) {i : Nat} (tick : Nat) (hi : i < 8) : natBit ((inputShown s i tick).fget pgTrip F.TRIP_STAT_RAW) i = true := by
  rw [inputShown, sinceSet_fget, fget_fset_same _ _ _ _ (by decide), natBit, Nat.testBit_mod_two_pow, testBit_natPutBit_same]
  simp [hi]

theorem inputShown_latch (s : State) (i tick : Nat) : (inputShown s i tick).fget pgTrip F.TRIP_STAT_LATCH = s.fget pgTrip F.TRIP_STAT_LATCH := by
  rw [inputShown, sinceSet_fget, fget_fset_beside _ _ F.TRIP_STAT_RAW F.TRIP_STAT_LATCH _ rfl (.inr (by decide))]

theorem inputShown_since (s : State) (i tick : Nat) : (inputShown s i tick).pwm.tripSince.find? i = some tick := Tab.find?_ins_same ..

/-- What an input that becomes active leaves (R328). -/
def inputTaken (s : State) (i tick : Nat) : State :=
  let t := inputShown s i tick
  if t.fbit pgTrip (F.TRIP_CFG_ENABLE.sh (4 * i)) ∧ t.fget pgTrip (F.TRIP_CFG_FILTER.sh (4 * i)) = 0 then tripLatch t i else t

theorem execTripInputActive_takes {s : State} {i : Nat} (tick : Nat) (hi : i < 8) (hd : s.loop.down = false) (ha : asleep s = false) :
    execTripInputActive i tick s = .next (inputTaken (s.reach tick) i tick) := by
  have hdown : (s.reach tick).loop.down = false := by rw [reach_shape]; exact hd
  have hawake : asleep (s.reach tick) = false := by rw [asleep, reach_fget]; exact ha
  exact congrArg nxt (if_neg (by simp [hdown, hawake, hi]))

/-- Its enable and filter are those of the state in which it comes. -/
theorem inputShown_cfg (s : State) {i : Nat} (tick : Nat) {f : Fld} (hi : i < 8) (hf : f.off = 0x080 + 4 * i) :
    (inputShown s i tick).fget pgTrip f = s.fget pgTrip f :=
  (inputShown_regs s i tick).fget (by omega) (by simp only [List.mem_singleton, Prod.mk.injEq]; omega)

theorem inputTaken_latches {s : State} {i : Nat} (tick : Nat) (hi : i < 8) (he : s.fbit pgTrip (F.TRIP_CFG_ENABLE.sh (4 * i)) = true)
    (hf : s.fget pgTrip (F.TRIP_CFG_FILTER.sh (4 * i)) = 0) : inputTaken s i tick = tripLatch (inputShown s i tick) i := by
  refine if_pos ⟨?_, (inputShown_cfg s tick hi rfl).trans hf⟩
  rw [State.fbit, inputShown_cfg s tick hi rfl, ← State.fbit, he]

theorem inputTaken_waits {s : State} {i : Nat} (tick : Nat) (hi : i < 8) (hf : s.fget pgTrip (F.TRIP_CFG_FILTER.sh (4 * i)) ≠ 0) :
    inputTaken s i tick = inputShown s i tick := if_neg fun h => hf ((inputShown_cfg s tick hi rfl).symm.trans h.2)

theorem inputTaken_pages (s : State) {i : Nat} (tick : Nat) (hi : i < 8) : PagesOnly (tripPages s) s (inputTaken s i tick) := by
  have hshown : PagesOnly (tripPages s) s (inputShown s i tick) := .of_regsOnly (inputShown_regs s i tick) (by simp [tripPages])
  exact .ite (fun _ => hshown.trans (tripLatch_pages (inputShown s i tick) hi)) fun _ => hshown

theorem inputTaken_raw (s : State) {i : Nat} (tick : Nat) (hi : i < 8) : natBit ((inputTaken s i tick).fget pgTrip F.TRIP_STAT_RAW) i = true := by
  unfold inputTaken
  dsimp only
  split
  · rw [tripLatch_raw, inputShown_raw s tick hi]
  · exact inputShown_raw s tick hi

theorem inputTaken_since (s : State) (i tick : Nat) : (inputTaken s i tick).pwm.tripSince.find? i = some tick := by
  unfold inputTaken
  dsimp only
  split
  · rw [(tripLatch_pairs _ i).tripSince, inputShown_since]
  · exact inputShown_since s i tick

/-- An input that has been active for its filter sets its latch (R328). -/
theorem execTripLatchSet_sets {s : State} {i tick since : Nat} (hi : i < 8) (ha : asleep s = false) (hs : s.pwm.tripSince.find? i = some since)
    (he : s.fbit pgTrip (F.TRIP_CFG_ENABLE.sh (4 * i)) = true) (hr : natBit (s.fget pgTrip F.TRIP_STAT_RAW) i = true)
    (hd : since + 2 * s.fget pgTrip (F.TRIP_CFG_FILTER.sh (4 * i)) ≤ tick) :
    execTripLatchSet i tick s = .next (tripLatch (s.reach tick) i) := by
  have hsince : (s.reach tick).pwm.tripSince.find? i = some since := by rw [reach_shape]; exact hs
  have hawake : asleep (s.reach tick) = false := by rw [asleep, reach_fget]; exact ha
  unfold execTripLatchSet
  simp only [hsince, reach_fbit, reach_fget, hi, hawake, he, hr, hd, Bool.false_eq_true, not_false_eq_true, and_self, if_true]

/-! ### The statement -/

/-- Settles O32: every way to a latch is `tripLatch` on what shows, and a clear leaves `latchesLeft`. -/
theorem tripLatchesHold : Obligations.TripLatchesHold := by
  unfold Obligations.TripLatchesHold
  intro s
  refine ⟨fun i tick hi hd ha => ?input, fun i tick since hi ha hs he hr hd => ?filtered, fun part data hw => ?force, fun part data raw hw => ?clear⟩
  case input =>
    have hpages := inputTaken_pages (s.reach tick) tick hi
    rw [tripPages_congr (reach_var s tick)] at hpages
    refine ⟨_, execTripInputActive_takes tick hi hd ha, (reach_pages _ s tick).trans hpages, inputTaken_raw _ tick hi, inputTaken_since .., fun he hf => ?_,
      fun hf => ?_⟩
    · rw [inputTaken_latches tick hi ((reach_fbit ..).trans he) ((reach_fget ..).trans hf)]
      refine ⟨by rw [tripLatch_latch _ hi]; simp, fun hl => ?_⟩
      have hoff : (F.TRIP_COUNT_COUNT.sh (4 * i)).off = 0x0A0 + 4 * i := rfl
      rw [tripLatch_count hi (by rw [inputShown_latch, reach_fget, hl]),
        (inputShown_regs _ i tick).fget (by omega) (by simp only [List.mem_singleton, Prod.mk.injEq]; omega), reach_fget]
    · rw [inputTaken_waits tick hi (by rwa [reach_fget]), inputShown_latch, reach_fget]
  case filtered =>
    have hpages := tripLatch_pages (s.reach tick) hi
    rw [tripPages_congr (reach_var s tick)] at hpages
    refine ⟨_, execTripLatchSet_sets hi ha hs he hr hd, by rw [tripLatch_latch _ hi]; simp, (reach_pages _ s tick).trans hpages, fun hl => ?_⟩
    rw [tripLatch_count hi (by rw [reach_fget, hl]), reach_fget]
  case force =>
    refine ⟨_, congrArg nxt (pageWrite_acts _ hw), tripLatches_pages _ (fun n hn => List.mem_range.mp (List.mem_filter.mp hn).1) s, fun i hi => ?_⟩
    rw [tripForce, tripLatches_latch _ s hi]
    simp [hi]
  case clear =>
    have hraw : ∀ i, natBit raw.toNat i = raw.getLsbD i := fun i => BitVec.testBit_toNat raw
    have hstat := @clearNoted_stat s part (bitsOf data 0 8) raw.toNat
    refine ⟨_, congrArg nxt (pageWrite_acts _ hw), ?_, ?_, fun i hi => ?_, fun ⟨i, hi, hb, hl, hr⟩ hv => ?_⟩ <;> rw [tripClear_eq]
    · exact ((clearNoted_pages s part (bitsOf data 0 8) raw.toNat).mono fun q hq => hq.imp_right .inl).refreshHolds fun n hn =>
        .inr (.inr (pwmPages_add (by rwa [clearNoted_var] at hn)))
    · rw [refreshHolds_fget_trip _ (by decide), hstat rfl, tripsLeft_raw]
      exact Nat.mod_eq_of_lt raw.isLt
    · rw [refreshHolds_fget_trip _ (by decide), hstat (f := F.TRIP_STAT_LATCH) rfl, tripsLeft_latch, latchesLeft, natBit, testBit_flagSum,
        hraw i, decide_eq_true hi, Bool.true_and]
    · rw [refreshHolds_fget_trip _ (by decide)]
      exact clearNoted_captured part (clearsRefused_ne_zero hi hb hl ((hraw i).trans hr)) hv

end Sys2Proof.Machine
end

section
/-! SUPPORT. Stop requests, the Loupe's level sources, its alive line and its power-on reset (R333 to R336, R344, R345, R657): what a request latches and
keeps as the first stop, and what the end of a recovery window and a reset of the Loupe leave. -/

namespace Sys2Proof.Machine

/-! ### What a stop request latches -/

theorem stopLatched_regs (s : State) (groups : Nat) (whole : Bool) :
    RegsOnly [(pgLoupe, F.LOUPE_STOP_GROUPS.off)] s (stopLatched s groups whole) := ((RegsOnly.refl _ s).fset (by decide) (by decide)).fset (by decide) (by decide)

/-- The registers of the cause and of the first stop are left by all that follows them. -/
theorem stopRequest_reg (s : State) (src groups : Nat) (whole : Bool) {o : Nat} (ho : o < 4096) (hi : o ≠ F.PG_IRQ_STAT_ERR.off)
    (hs : o ≠ F.LOUPE_STOP_GROUPS.off) : (stopRequest s src groups whole).reg pgLoupe o = (stopNoted s src groups whole).reg pgLoupe o := by
  have hlatched := stopLatched_regs (stopNoted s src groups whole) groups whole pgLoupe o ho (by simpa using hs)
  rw [stopRequest_eq, refreshHolds_loupe _ ho, stopRaised, ← hlatched]
  split
  · rw [pageIrq_reg _ _ _ ho, if_neg fun e => hi e.2]
  · rfl

/-- A group latch is set that was set or is asked for (R336). -/
theorem stopRequest_groups (s : State) (src : Nat) {groups : Nat} (whole : Bool) (h : groups < 256) :
    (stopRequest s src groups whole).fget pgLoupe F.LOUPE_STOP_GROUPS = (s.fget pgLoupe F.LOUPE_STOP_GROUPS ||| groups) := by
  have hor : s.fget pgLoupe F.LOUPE_STOP_GROUPS ||| groups < 2 ^ 8 := Nat.or_lt_two_pow (fget_lt s pgLoupe F.LOUPE_STOP_GROUPS) h
  rw [stopRequest_fget _ _ _ _ (by decide) (by decide), stopLatched,
    fget_fset_beside _ _ F.LOUPE_STOP_WHOLE F.LOUPE_STOP_GROUPS _ rfl (.inl (by decide)), fget_fset_same _ _ _ _ (by decide),
    (stopNoted_regs s src groups whole).fget (by decide) (by decide)]
  exact Nat.mod_eq_of_lt hor

theorem fbit_fset_same (s : State) (p : Nat) {f : Fld} (b : Bool) (hw : f.wid = 1) (h : f.lo + 1 ≤ 32) : (s.fset p f (b2n b)).fbit p f = b := by
  rw [State.fbit, fget_fset_same _ _ _ _ (by rwa [hw]), hw]
  cases b <;> rfl

theorem stopRequest_whole (s : State) (src groups : Nat) (whole : Bool) :
    (stopRequest s src groups whole).fbit pgLoupe F.LOUPE_STOP_WHOLE = (s.fbit pgLoupe F.LOUPE_STOP_WHOLE || whole) := by
  have hwas : (stopNoted s src groups whole).fbit pgLoupe F.LOUPE_STOP_WHOLE = s.fbit pgLoupe F.LOUPE_STOP_WHOLE :=
    congrArg (· != 0) ((stopNoted_regs s src groups whole).fget (by decide) (by decide))
  rw [State.fbit, stopRequest_fget _ _ _ _ (by decide) (by decide), ← State.fbit, stopLatched, fbit_fset_same _ _ _ rfl (by decide), hwas]

/-! ### The cause and the first stop -/

/-- The cause of a stop request is one bit more. -/
def causeNoted (s : State) (src : Nat) : State :=
  s.fset pgLoupe F.LOUPE_CAUSE_SRC (natPutBit (s.fget pgLoupe F.LOUPE_CAUSE_SRC) src true)

theorem causeNoted_valid (s : State) (src : Nat) : (causeNoted s src).fbit pgLoupe F.LOUPE_FIRST_VALID = s.fbit pgLoupe F.LOUPE_FIRST_VALID :=
  congrArg (· != 0) (fget_fset_ne _ _ _ _ (by decide))

/-- The word of a first stop: its source, its groups, WHOLE and VALID. -/
def firstWord (src groups : Nat) (whole : Bool) : Word := BitVec.ofNat 32 (src + groups * 2 ^ 8 + b2n whole * 2 ^ 16 + 2 ^ 31)

theorem stopNoted_held {s : State} (src groups : Nat) (whole : Bool) (h : s.fbit pgLoupe F.LOUPE_FIRST_VALID = true) :
    stopNoted s src groups whole = causeNoted s src := if_pos ((causeNoted_valid s src).trans h)

theorem stopNoted_first {s : State} (src groups : Nat) (whole : Bool) (h : s.fbit pgLoupe F.LOUPE_FIRST_VALID = false) :
    stopNoted s src groups whole = ((causeNoted s src).setReg pgLoupe F.LOUPE_FIRST_VALID.off (firstWord src groups whole)).setReg64 pgLoupe
      F.LOUPE_FIRST_LO.off F.LOUPE_FIRST_HI.off
      (stampBus ((causeNoted s src).setReg pgLoupe F.LOUPE_FIRST_VALID.off (firstWord src groups whole)) pgLoupe src) :=
  if_neg fun e => absurd ((causeNoted_valid s src).symm.trans e) (by simp [h])

/-- A register is left by the time of the first stop. -/
theorem reg_setFirstTime (s : State) {o v : Nat} (hl : o ≠ F.LOUPE_FIRST_LO.off) (hh : o ≠ F.LOUPE_FIRST_HI.off) :
    (s.setReg64 pgLoupe F.LOUPE_FIRST_LO.off F.LOUPE_FIRST_HI.off v).reg pgLoupe o = s.reg pgLoupe o := by
  rw [State.setReg64, reg_setReg_ne _ _ fun e => hh (Nat.add_left_cancel e), reg_setReg_ne _ _ fun e => hl (Nat.add_left_cancel e)]

/-- A stop request sets its cause (R336). -/
theorem stopRequest_cause (s : State) {src : Nat} (groups : Nat) (whole : Bool) (h : src < 22) :
    natBit ((stopRequest s src groups whole).fget pgLoupe F.LOUPE_CAUSE_SRC) src = true := by
  have hcause : (stopNoted s src groups whole).reg pgLoupe F.LOUPE_CAUSE_SRC.off = (causeNoted s src).reg pgLoupe F.LOUPE_CAUSE_SRC.off := by
    cases hv : s.fbit pgLoupe F.LOUPE_FIRST_VALID with
    | true => rw [stopNoted_held src groups whole hv]
    | false => rw [stopNoted_first src groups whole hv, reg_setFirstTime _ (by decide) (by decide), reg_setReg_ne _ _ (by decide)]
  rw [State.fget, stopRequest_reg _ _ _ _ (by decide) (by decide) (by decide), hcause, ← State.fget, causeNoted, fget_fset_same _ _ _ _ (by decide), natBit,
    Nat.testBit_mod_two_pow, testBit_natPutBit_same]
  simp [h]

/-- Where no first stop is held, a request is the first. -/
theorem stopRequest_first {s : State} (src groups : Nat) (whole : Bool) (h : s.fbit pgLoupe F.LOUPE_FIRST_VALID = false) :
    (stopRequest s src groups whole).reg pgLoupe F.LOUPE_FIRST_VALID.off = firstWord src groups whole := by
  rw [stopRequest_reg _ _ _ _ (by decide) (by decide) (by decide), stopNoted_first src groups whole h, reg_setFirstTime _ (by decide) (by decide),
    reg_setReg_same]

/-- A first stop that is held stays. -/
theorem stopRequest_firstHeld {s : State} (src groups : Nat) (whole : Bool) (h : s.fbit pgLoupe F.LOUPE_FIRST_VALID = true) :
    (stopRequest s src groups whole).reg pgLoupe F.LOUPE_FIRST_VALID.off = s.reg pgLoupe F.LOUPE_FIRST_VALID.off := by
  rw [stopRequest_reg _ _ _ _ (by decide) (by decide) (by decide), stopNoted_held src groups whole h, causeNoted, reg_fset_ne _ _ _ (by decide)]

theorem firstWord_shows {src groups : Nat} (whole : Bool) (hs : src < 22) (hg : groups < 256) :
    bitsOf (firstWord src groups whole) 31 1 = 1 ∧ bitsOf (firstWord src groups whole) 0 5 = src ∧ bitsOf (firstWord src groups whole) 8 8 = groups ∧
      bitsOf (firstWord src groups whole) 16 1 = b2n whole := by
  have hw : b2n whole < 2 := by cases whole <;> decide
  simp only [firstWord, bitsOf, BitVec.toNat_ofNat, Nat.shiftRight_eq_div_pow]
  omega

/-! ### Level sources -/

/-- A source's settings stand in the Loupe's configuration registers. -/
theorem loupeSource_congr {s t : State} (h : ∀ f : Fld, 0x080 ≤ f.off → f.off < 0x0B8 → t.fget pgLoupe f = s.fget pgLoupe f) (src : Nat) :
    loupeSource t src = loupeSource s src := by
  have hcliff : src < 8 → ∀ f : Fld, f.off = 0x080 → t.fget pgLoupe (f.sh (4 * src)) = s.fget pgLoupe (f.sh (4 * src)) := fun hs f hf =>
    h _ (by simp only [Fld.sh]; omega) (by simp only [Fld.sh]; omega)
  have hdrop : src < 12 → ∀ f : Fld, f.off = 0x0A0 → t.fget pgLoupe (f.sh (4 * (src - 8))) = s.fget pgLoupe (f.sh (4 * (src - 8))) := fun hs f hf =>
    h _ (by simp only [Fld.sh]; omega) (by simp only [Fld.sh]; omega)
  unfold loupeSource
  dsimp only
  split
  · rename_i hs
    simp only [hcliff hs F.LOUPE_CLIFF_GROUPS rfl, hcliff hs F.LOUPE_CLIFF_WHOLE rfl, hcliff hs F.LOUPE_CLIFF_ENABLE rfl,
      hcliff hs F.LOUPE_CLIFF_RECOVERABLE rfl]
  · split
    · rename_i hs
      simp only [hdrop hs F.LOUPE_DROP_GROUPS rfl, hdrop hs F.LOUPE_DROP_WHOLE rfl, hdrop hs F.LOUPE_DROP_ENABLE rfl]
    · simp only [h F.LOUPE_BUMP_GROUPS (by decide) (by decide), h F.LOUPE_BUMP_WHOLE (by decide) (by decide), h F.LOUPE_BUMP_ENABLE (by decide) (by decide),
        h F.LOUPE_BUMP_RECOVERABLE (by decide) (by decide), h F.LOUPE_WDT_CFG_GROUPS (by decide) (by decide),
        h F.LOUPE_WDT_CFG_WHOLE (by decide) (by decide), h F.LOUPE_WDT_CFG_ENABLE (by decide) (by decide)]

theorem loupeMasked_congr {s t : State} (hc : t.fget pgLoupe F.LOUPE_RECOVER_STAT_CLIFF = s.fget pgLoupe F.LOUPE_RECOVER_STAT_CLIFF)
    (hb : t.fget pgLoupe F.LOUPE_RECOVER_STAT_BUMP = s.fget pgLoupe F.LOUPE_RECOVER_STAT_BUMP) (src : Nat) : loupeMasked t src = loupeMasked s src := by
  unfold loupeMasked
  rw [hc, State.fbit, hb, State.fbit]

/-- A level source shows its level. -/
def levelShown (s : State) (src : Nat) (b : Bool) : State :=
  s.fset pgLoupe F.LOUPE_LEVEL_SRC (natPutBit (s.fget pgLoupe F.LOUPE_LEVEL_SRC) src b)

theorem levelShown_fget (s : State) (src : Nat) (b : Bool) {f : Fld} (hn : f.off ≠ F.LOUPE_LEVEL_SRC.off) :
    (levelShown s src b).fget pgLoupe f = s.fget pgLoupe f := fget_fset_ne _ _ _ _ fun e => hn (Nat.add_left_cancel e)

theorem levelShown_source (s : State) (src : Nat) (b : Bool) (i : Nat) : loupeSource (levelShown s src b) i = loupeSource s i :=
  loupeSource_congr (fun f hlo _ => levelShown_fget s src b (Nat.ne_of_gt (Nat.lt_of_lt_of_le (by decide) hlo))) i

theorem levelShown_masked (s : State) (src : Nat) (b : Bool) (i : Nat) : loupeMasked (levelShown s src b) i = loupeMasked s i :=
  loupeMasked_congr (levelShown_fget s src b (by decide)) (levelShown_fget s src b (by decide)) i

/-- A source that becomes active is shown, and asks for its stop where it is enabled and no recovery window masks it (R334). -/
theorem levelActive_eq {s : State} {src : Nat} (h : natBit (s.fget pgLoupe F.LOUPE_LEVEL_SRC) src = false) :
    levelActive s src = if (loupeSource s src).enabled ∧ ¬ loupeMasked s src then
      stopRequest (levelShown s src true) src (loupeSource s src).groups (loupeSource s src).whole else levelShown s src true := by
  rw [← levelShown_source s src true, ← levelShown_masked s src true]
  exact if_neg (by simp [h])

/-! ### Recovery windows -/

/-- The state in which a recovery window masks nothing any more. -/
def windowClosed (s : State) : State := s.setReg pgLoupe F.LOUPE_RECOVER_STAT_LEFT.off 0

theorem windowClosed_fget (s : State) {f : Fld} (hn : f.off ≠ F.LOUPE_RECOVER_STAT_LEFT.off) : (windowClosed s).fget pgLoupe f = s.fget pgLoupe f :=
  fget_setReg_ne _ _ _ fun e => hn (Nat.add_left_cancel e)

theorem windowClosed_masked (s : State) (i : Nat) : loupeMasked (windowClosed s) i = false := by
  have hcliff : (windowClosed s).fget pgLoupe F.LOUPE_RECOVER_STAT_CLIFF = 0 := congrArg (bitsOf · 0 8) (reg_setReg_same s pgLoupe _ 0)
  have hbump : (windowClosed s).fget pgLoupe F.LOUPE_RECOVER_STAT_BUMP = 0 := congrArg (bitsOf · 8 1) (reg_setReg_same s pgLoupe _ 0)
  unfold loupeMasked
  rw [hcliff, State.fbit, hbump]
  simp [natBit]

theorem windowClosed_source (s : State) (i : Nat) : loupeSource (windowClosed s) i = loupeSource s i :=
  loupeSource_congr (fun f hlo _ => windowClosed_fget s (Nat.ne_of_gt (Nat.lt_of_lt_of_le (by decide) hlo))) i

section Window
variable {s : State} (h : ∀ i, i < 16 → loupeMasked s i = true → natBit (s.fget pgLoupe F.LOUPE_LEVEL_SRC) i = false)
include h

/-- Where no masked source is active, the same sources are relevant without the mask. -/
theorem activeRelevant_windowClosed (groups : Nat) : activeRelevant (windowClosed s) groups = activeRelevant s groups := by
  refine List.filter_congr fun i hi => ?_
  rw [windowClosed_fget s (by decide)]
  cases hl : natBit (s.fget pgLoupe F.LOUPE_LEVEL_SRC) i with
  | false => rfl
  | true =>
    have hm : loupeMasked s i = false := by
      cases hm : loupeMasked s i with
      | false => rfl
      | true => exact absurd (h i (List.mem_range.mp hi) hm) (by simp [hl])
    simp only [loupeRelevant, windowClosed_source, windowClosed_masked, hm]

/-- So CAUSE_GONE does not come about by the end of the window. -/
theorem causeGone_windowClosed : causeGone s (windowClosed s) = windowClosed s := by
  have hgone : causesGone (windowClosed s) = causesGone s := by
    unfold causesGone
    dsimp only
    rw [windowClosed_fget s (by decide), activeRelevant_windowClosed h, State.fbit, windowClosed_fget s (by decide), State.fbit]
  unfold causeGone
  rw [hgone]
  simp

theorem execRecoveryWindowEnd_closes : execRecoveryWindowEnd s = .next (windowClosed s) := by
  have hnone : ((List.range 16).filter fun i => loupeMasked s i && natBit (s.fget pgLoupe F.LOUPE_LEVEL_SRC) i) = [] := by
    refine List.filter_eq_nil_iff.mpr fun i hi => ?_
    cases hm : loupeMasked s i with
    | false => simp
    | true => simp [h i (List.mem_range.mp hi) hm]
  unfold execRecoveryWindowEnd
  rw [hnone]
  exact congrArg nxt (causeGone_windowClosed h)

end Window

/-! ### The alive line -/

/-- The alive line is lost, before the pairs take their holds (R333). -/
def aliveLost (s : State) : State :=
  pageIrq (capture (State.fset { s with loupe := { s.loupe with resetSince := false } } pgTrip F.TRIP_STAT_DEAD 1) pgTrip 0x0A01 0 0) pgTrip 2

theorem execLoupeDead_lost {s : State} (hd : s.fbit pgTrip F.TRIP_STAT_DEAD = false) (ha : asleep s = false) :
    execLoupeDead s = .next (refreshHolds (aliveLost s)) := congrArg nxt (if_neg (by simp [hd, ha]))

theorem aliveLost_dead (s : State) : (aliveLost s).fbit pgTrip F.TRIP_STAT_DEAD = true := by
  rw [State.fbit, aliveLost, pageIrq_fget _ _ _ (by decide) (by decide), capture_fget _ _ _ _ _ (by decide) (by decide) (by decide), ← State.fbit]
  exact fbit_fset_same _ _ true rfl (by decide)

theorem aliveLost_captured {s : State} (hv : s.fbit pgTrip F.PG_ERR0_VALID = false) : (aliveLost s).fget pgTrip F.PG_ERR0_CODE = 0x0A01 := by
  rw [aliveLost, pageIrq_fget _ _ _ (by decide) (by decide)]
  refine (capture_shows _ _ ?_ (by decide)).2
  rw [State.fbit, fget_fset_ne _ _ _ _ (by decide)]
  exact hv

theorem execLoupeAliveRestore_restores {s : State} (hd : s.fbit pgTrip F.TRIP_STAT_DEAD = true) (hr : s.loupe.resetSince = true) :
    execLoupeAliveRestore s = .next (refreshHolds (s.fset pgTrip F.TRIP_STAT_DEAD 0)) := congrArg nxt (if_pos ⟨hd, hr⟩)

/-! ### A power-on reset of the Loupe -/

/-- The Loupe with its page at the reset values, before its first stop's time and before the pairs see it (R332). -/
def loupeReset (s : State) : State :=
  { (clearPage s pgLoupe) with
    loupe := { resetSince := true, vioSafe := s.loupe.vioSafe }
    boot := { s.boot with loupeUp := true } }

/-- A reset of the Loupe in a device with power, and its first stop's time. -/
theorem execLoupePowerOnReset_resets {s : State} (h : s.power.off = false) :
    ∃ stamp, execLoupePowerOnReset s =
      .next (refreshHolds (pairTsChanged ((loupeReset s).setReg64 pgLoupe F.LOUPE_FIRST_LO.off F.LOUPE_FIRST_HI.off stamp) 0)) := by
  have hkept : (if s.power.off then powerReturns s else s) = s := if_neg (by simp [h])
  unfold execLoupePowerOnReset
  rw [hkept]
  exact ⟨_, rfl⟩

end Sys2Proof.Machine

namespace Sys2Proof.Tab

/-- A key that a filter drops, whatever is listed under it, is not listed any more. -/
theorem find?_filter_dropped {α : Type} (t : Tab α) {q : Nat × α → Bool} {k : Nat} (h : ∀ v, q (k, v) = false) : find? (t.filter q) k = none := by
  induction t with
  | nil => rfl
  | cons e t ih =>
    obtain ⟨k', v⟩ := e
    rw [List.filter_cons]
    split
    · rename_i hq
      have hk : k' ≠ k := by
        rintro rfl
        exact absurd (h v) (by simp [hq])
      rw [find?, if_neg hk, ih]
    · exact ih

end Sys2Proof.Tab

namespace Sys2Proof.Machine

/-- A cleared page reads its reset values. -/
theorem clearPage_reg (s : State) (p : Nat) {o : Nat} (ho : o < 4096) : (clearPage s p).reg p o = s.resetAt (p * 4096 + o) := by
  have hpage : (p * 4096 + o) / 4096 = p := by omega
  have hnone : (clearPage s p).regs.find? (p * 4096 + o) = none := Tab.find?_filter_dropped _ fun v => by simp [hpage]
  rw [State.reg, Tab.get, hnone]
  rfl

theorem pairTsChanged_pages (s : State) (old : Word) : PagesOnly (pwmPages s) s (pairTsChanged s old) :=
  (PagesOnly.refl _ s).each _ fun t n hn => by
    have hp : pwmPages s (pgPwm + n) := pwmPages_add (List.mem_range.mp hn)
    have hts : PagesOnly (pwmPages s) t (t.fset (pgPwm + n) F.PWM_TS_STATE (tripState t n)) := (PagesOnly.refl _ t).fset hp (by decide)
    exact .ite (fun _ => hts.tripPads hp) fun _ => hts

/-- The Loupe page shows its reset values, the first stop's time apart. -/
theorem loupeReset_shows (s : State) (stamp : Nat) {o : Nat} (ho : o < 4096) (hl : o ≠ F.LOUPE_FIRST_LO.off) (hh : o ≠ F.LOUPE_FIRST_HI.off) :
    (refreshHolds (pairTsChanged ((loupeReset s).setReg64 pgLoupe F.LOUPE_FIRST_LO.off F.LOUPE_FIRST_HI.off stamp) 0)).reg pgLoupe o =
      s.resetAt (pgLoupe * 4096 + o) := by
  rw [refreshHolds_loupe _ ho, pairTsChanged_pages _ 0 pgLoupe o ho (not_pwmPages_loupe _), reg_setFirstTime _ hl hh]
  exact clearPage_reg s pgLoupe ho

/-! ### The statement -/

/-- Settles O33: each clause is what its command leaves, said above, read register by register. -/
theorem stopsAreLatched : Obligations.StopsAreLatched := by
  unfold Obligations.StopsAreLatched
  refine ⟨fun s src groups whole hs hg => ?request, fun s part data hw hk => ?req, fun s src hs hl he hm => ?active, fun s src hs hl => ?inactive,
    fun s hd ha => ?dead, fun s hd hr => ?alive, fun s h => ?window, fun s part data hw hd => ?causeClr, fun s => rfl, fun s h => ?reset⟩
  case request =>
    refine ⟨stopRequest_pages s src groups whole, stopRequest_cause _ _ _ hs, stopRequest_groups _ _ _ hg, stopRequest_whole .., fun hv => ?_,
      stopRequest_firstHeld src groups whole⟩
    simp only [State.fget, stopRequest_first src groups whole hv]
    exact firstWord_shows whole hs hg
  case req => exact (congrArg nxt (pageWrite_acts _ hw)).trans (congrArg nxt (if_pos hk))
  case active =>
    have hexec : execLoupeSourceActive src s = nxt (levelActive s src) := congrArg nxt (if_pos hs)
    rw [levelActive_eq hl, if_pos ⟨he, by simp [hm]⟩] at hexec
    exact ⟨levelShown s src true, hexec, rfl, (RegsOnly.refl _ s).fset (by decide) (by decide), natBit_putLevel _ _ _ (by omega)⟩
  case inactive =>
    exact ⟨levelInactive s src, congrArg nxt (if_pos hs), levelInactive_shape s src, levelInactive_regs s src, levelInactive_level s (by omega)⟩
  case dead =>
    have hpairs : PairsOnly { s with loupe := { s.loupe with resetSince := false } } (refreshHolds (aliveLost s)) :=
      (PairsOnly.refl _).fset.capture.pageIrq.refreshHolds
    refine ⟨_, execLoupeDead_lost hd ha, ?_, by rw [hpairs.loupe], fun hv => ?_⟩
    · rw [State.fbit, refreshHolds_fget_trip _ (by decide), ← State.fbit, aliveLost_dead]
    · rw [refreshHolds_fget_trip _ (by decide), aliveLost_captured hv]
  case alive =>
    refine ⟨_, execLoupeAliveRestore_restores hd hr, ?_, ?_⟩
    · rw [State.fbit, refreshHolds_fget_trip _ (by decide), ← State.fbit]
      exact fbit_fset_same _ _ false rfl (by decide)
    · exact ((PagesOnly.refl _ s).fset (.inl rfl) (by decide)).refreshHolds fun n hn => .inr (pwmPages_add hn)
  case window => exact ⟨_, execRecoveryWindowEnd_closes h, rfl, (RegsOnly.refl _ s).setReg (by decide) (by decide), reg_setReg_same ..⟩
  case causeClr =>
    refine ⟨_, (congrArg nxt (pageWrite_acts _ hw)).trans (congrArg nxt (if_pos hd)), rfl, ?_, ?_, ?_⟩
    · exact ((((RegsOnly.refl _ s).setReg (by decide) (by decide)).setReg (by decide) (by decide)).setReg (by decide) (by decide)).setReg
        (by decide) (by decide)
    · rw [fget_setReg_ne _ _ _ (by decide), fget_setReg_ne _ _ _ (by decide), fget_setReg_ne _ _ _ (by decide)]
      exact congrArg (bitsOf · 0 22) (reg_setReg_same ..)
    · rw [fget_setReg_ne _ _ _ (by decide), fget_setReg_ne _ _ _ (by decide)]
      exact congrArg (bitsOf · 31 1) (reg_setReg_same ..)
  case reset =>
    obtain ⟨stamp, hexec⟩ := execLoupePowerOnReset_resets h
    have hpairs : PairsOnly ((loupeReset s).setReg64 pgLoupe F.LOUPE_FIRST_LO.off F.LOUPE_FIRST_HI.off stamp)
        (refreshHolds (pairTsChanged ((loupeReset s).setReg64 pgLoupe F.LOUPE_FIRST_LO.off F.LOUPE_FIRST_HI.off stamp) 0)) :=
      (PairsOnly.refl _).pairTsChanged.refreshHolds
    exact ⟨_, hexec, by rw [hpairs.boot]; rfl, by rw [hpairs.loupe]; rfl, fun o ho hl hh => loupeReset_shows s stamp ho hl hh⟩

end Sys2Proof.Machine
end

section
/-! SUPPORT. Clearing a stop, and the watchdog (R340 to R344): what a clear that nothing refuses leaves of the latches, why and how a refused one is
captured, and what a feed, half of TIMEOUT and an expiry show. -/

namespace Sys2Proof.Machine

/-! ### A clear that nothing refuses -/

theorem refreshHolds_fget_loupe (s : State) {f : Fld} (ho : f.off < 4096) : (refreshHolds s).fget pgLoupe f = s.fget pgLoupe f := by
  rw [State.fget, refreshHolds_loupe s ho, State.fget]

/-- The latches that a clear leaves: those of the groups it does not name, and WHOLE unless it names all eight (R343). -/
def stopsLeft (s : State) (groups : Nat) : State :=
  let t := s.fset pgLoupe F.LOUPE_STOP_GROUPS (s.fget pgLoupe F.LOUPE_STOP_GROUPS &&& (0xFF - groups))
  if groups = 0xFF then t.fset pgLoupe F.LOUPE_STOP_WHOLE 0 else t

theorem clearStops_plain (s : State) (groups : Nat) :
    clearStops s groups false = causeGone s (refreshHolds (pageIrq (stopsLeft s groups) pgLoupe 2)) := rfl

theorem stopsLeft_regs (s : State) (groups : Nat) : RegsOnly [(pgLoupe, F.LOUPE_STOP_GROUPS.off)] s (stopsLeft s groups) := by
  have hgroups : RegsOnly [(pgLoupe, F.LOUPE_STOP_GROUPS.off)] s
      (s.fset pgLoupe F.LOUPE_STOP_GROUPS (s.fget pgLoupe F.LOUPE_STOP_GROUPS &&& (0xFF - groups))) := (RegsOnly.refl _ s).fset (by decide) (by decide)
  unfold stopsLeft
  dsimp only
  split
  · exact hgroups.fset (by decide) (by decide)
  · exact hgroups

theorem stopsLeft_var (s : State) (groups : Nat) : (stopsLeft s groups).var = s.var := by
  unfold stopsLeft
  dsimp only
  split <;> rfl

theorem stopsLeft_groups (s : State) (groups : Nat) :
    (stopsLeft s groups).fget pgLoupe F.LOUPE_STOP_GROUPS = s.fget pgLoupe F.LOUPE_STOP_GROUPS &&& (0xFF - groups) := by
  have hlt : s.fget pgLoupe F.LOUPE_STOP_GROUPS &&& (0xFF - groups) < 2 ^ 8 := Nat.and_lt_two_pow _ (by omega)
  have hset : (s.fset pgLoupe F.LOUPE_STOP_GROUPS (s.fget pgLoupe F.LOUPE_STOP_GROUPS &&& (0xFF - groups))).fget pgLoupe F.LOUPE_STOP_GROUPS =
      s.fget pgLoupe F.LOUPE_STOP_GROUPS &&& (0xFF - groups) := (fget_fset_same _ _ _ _ (by decide)).trans (Nat.mod_eq_of_lt hlt)
  unfold stopsLeft
  dsimp only
  split
  · rw [fget_fset_beside _ _ F.LOUPE_STOP_WHOLE F.LOUPE_STOP_GROUPS _ rfl (.inl (by decide)), hset]
  · exact hset

theorem stopsLeft_whole (s : State) (groups : Nat) :
    (stopsLeft s groups).fget pgLoupe F.LOUPE_STOP_WHOLE = if groups = 0xFF then 0 else s.fget pgLoupe F.LOUPE_STOP_WHOLE := by
  unfold stopsLeft
  dsimp only
  split
  · rw [fget_fset_same _ _ _ _ (by decide)]
    rfl
  · rw [fget_fset_beside _ _ F.LOUPE_STOP_GROUPS F.LOUPE_STOP_WHOLE _ rfl (.inr (by decide))]

/-- What the Loupe page shows after a clear is what it leaves of the latches, the page's causes apart. -/
theorem clearStops_fget (s : State) (groups : Nat) {f : Fld} (ho : f.off < 4096) (hn : f.off ≠ F.PG_IRQ_STAT_ERR.off) :
    (clearStops s groups false).fget pgLoupe f = (stopsLeft s groups).fget pgLoupe f := by
  rw [clearStops_plain, causeGone_fget _ _ ho hn, refreshHolds_fget_loupe _ ho, pageIrq_fget _ _ _ ho hn]

theorem clearStops_pages (s : State) (groups : Nat) : PagesOnly (stopPages s) s (clearStops s groups false) := by
  have hleft : PagesOnly (stopPages s) s (pageIrq (stopsLeft s groups) pgLoupe 2) :=
    (PagesOnly.of_regsOnly (stopsLeft_regs s groups) (by simp [stopPages])).pageIrq (.inl rfl)
  have hholds := hleft.refreshHolds fun n hn => .inr (pwmPages_add (by rwa [pageIrq_var, stopsLeft_var] at hn))
  exact .ite (fun _ => hholds.pageIrq (.inl rfl)) fun _ => hholds

theorem loupeClear_clears {s : State} {data : Word} (part : Nat) (hk : bitsOf data 16 16 = 0x5AFE)
    (h : clearRefusal s (bitsOf data 0 8) (data.getLsbD 8) = none) : loupeClear s part data = clearStops s (bitsOf data 0 8) (data.getLsbD 8) := by
  unfold loupeClear
  rw [if_neg (not_not_intro hk), h]

/-! ### A refused clear -/

/-- The detail of a refused clear: why, and the level sources that are active (R342). -/
def refusalDetail (s : State) (why : Nat) : Nat := why + s.fget pgLoupe F.LOUPE_LEVEL_SRC * 2 ^ 8

theorem loupeClear_refused {s : State} {data : Word} {why : Nat} (part : Nat) (hk : bitsOf data 16 16 = 0x5AFE)
    (h : clearRefusal s (bitsOf data 0 8) (data.getLsbD 8) = some why) :
    loupeClear s part data = capture s pgLoupe 0x0A02 part (refusalDetail s why) := by
  unfold loupeClear
  rw [if_neg (not_not_intro hk), h]
  rfl

/-- R342 lists six reasons. -/
theorem clearRefusal_le {s : State} {groups why : Nat} {recover : Bool} (h : clearRefusal s groups recover = some why) : why ≤ 6 := by
  unfold clearRefusal at h
  dsimp only at h
  repeat' split at h
  all_goals cases h
  all_goals decide

theorem refusal_captured {s : State} {groups why : Nat} {recover : Bool} (part : Nat) (h : clearRefusal s groups recover = some why)
    (hv : s.fbit pgLoupe F.PG_ERR0_VALID = false) :
    (capture s pgLoupe 0x0A02 part (refusalDetail s why)).fget pgLoupe F.PG_ERR0_CODE = 0x0A02 ∧
      (capture s pgLoupe 0x0A02 part (refusalDetail s why)).fget pgLoupe F.PG_ERR3 % 2 ^ 8 = why := by
  refine ⟨(capture_shows _ _ hv (by decide)).2, ?_⟩
  have hwhy := clearRefusal_le h
  rw [State.fget, capture_err3 _ _ _ hv]
  simp only [refusalDetail, bitsOf, BitVec.toNat_ofNat, Nat.shiftRight_eq_div_pow]
  omega

/-! ### A source that becomes active -/

/-- The registers of the Loupe page that a source which becomes active may write. -/
abbrev loupeStopRegs : List Nat :=
  [F.PG_IRQ_STAT_ERR.off, F.LOUPE_STOP_GROUPS.off, F.LOUPE_LEVEL_SRC.off, F.LOUPE_CAUSE_SRC.off, F.LOUPE_FIRST_VALID.off, F.LOUPE_FIRST_LO.off,
    F.LOUPE_FIRST_HI.off]

theorem stopRequest_fget_left (s : State) (src groups : Nat) (whole : Bool) {f : Fld} (ho : f.off < 4096) (hn : f.off ∉ loupeStopRegs) :
    (stopRequest s src groups whole).fget pgLoupe f = s.fget pgLoupe f := by
  simp only [loupeStopRegs, List.mem_cons, List.not_mem_nil, or_false, not_or] at hn
  obtain ⟨hirq, hstop, -, hcause, hfirst, hlo, hhi⟩ := hn
  rw [State.fget, stopRequest_reg _ _ _ _ ho hirq hstop, ← State.fget]
  exact (stopNoted_regs s src groups whole).fget ho (by simp [firstStopRegs, hcause, hfirst, hlo, hhi])

theorem levelActive_fget_left (s : State) (src : Nat) {f : Fld} (ho : f.off < 4096) (hn : f.off ∉ loupeStopRegs) :
    (levelActive s src).fget pgLoupe f = s.fget pgLoupe f := by
  have hshown := levelShown_fget s src true (f := f) fun e => hn (by simp [e])
  cases hl : natBit (s.fget pgLoupe F.LOUPE_LEVEL_SRC) src with
  | true => rw [show levelActive s src = s from if_pos hl]
  | false =>
    rw [levelActive_eq hl]
    split
    · rw [stopRequest_fget_left _ _ _ _ ho hn, hshown]
    · exact hshown

/-- It is active afterwards, as it may have been before. -/
theorem levelActive_level (s : State) {src : Nat} (h : src < 16) : natBit ((levelActive s src).fget pgLoupe F.LOUPE_LEVEL_SRC) src = true := by
  cases hl : natBit (s.fget pgLoupe F.LOUPE_LEVEL_SRC) src with
  | true => rw [show levelActive s src = s from if_pos hl, hl]
  | false =>
    rw [levelActive_eq hl]
    split
    · rw [stopRequest_level, levelShown, natBit_putLevel _ _ _ h]
    · exact natBit_putLevel _ _ _ h

/-! ### The watchdog's state -/

/-- Whether the first half of a feed is in. -/
def feedPut (s : State) (half : Bool) : State := { s with loupe := { s.loupe with feedHalf := half } }

@[simp] theorem feedPut_reg (s : State) (half : Bool) (p o : Nat) : (feedPut s half).reg p o = s.reg p o := rfl
@[simp] theorem feedPut_fget (s : State) (half : Bool) (p : Nat) (f : Fld) : (feedPut s half).fget p f = s.fget p f := rfl

/-- The watchdog's two state fields, with no feed begun. -/
def wdtShown (s : State) (st : Nat) : State := feedPut ((s.fset pgLoupe F.LOUPE_STOP_WDT st).fset pgLoupe F.LOUPE_WDT_STAT_STATE st) false

theorem wdtSet_expired (s : State) : wdtSet s wdtExpired = levelActive (wdtShown s wdtExpired) 14 := rfl
theorem wdtSet_running (s : State) : wdtSet s wdtRunning = levelInactive (wdtShown s wdtRunning) 14 := rfl

theorem wdtShown_regs (s : State) (st : Nat) :
    RegsOnly [(pgLoupe, F.LOUPE_STOP_WDT.off), (pgLoupe, F.LOUPE_WDT_STAT_STATE.off)] s (wdtShown s st) :=
  (((RegsOnly.refl _ s).fset (by decide) (by decide)).fset (by decide) (by decide)).same fun p o _ => feedPut_reg _ false p o

theorem wdtShown_state (s : State) {st : Nat} (h : st < 4) : (wdtShown s st).fget pgLoupe F.LOUPE_WDT_STAT_STATE = st := by
  rw [wdtShown, feedPut_fget, fget_fset_same _ _ _ _ (by decide)]
  exact Nat.mod_eq_of_lt h

theorem wdtShown_elapsed (s : State) (st : Nat) :
    (wdtShown s st).fget pgLoupe F.LOUPE_WDT_STAT_ELAPSED = s.fget pgLoupe F.LOUPE_WDT_STAT_ELAPSED := by
  rw [wdtShown, feedPut_fget, fget_fset_beside _ _ F.LOUPE_WDT_STAT_STATE F.LOUPE_WDT_STAT_ELAPSED _ rfl (.inr (by decide)),
    fget_fset_ne _ _ _ _ (by decide)]

/-! ### An expiry -/

/-- A field of the Loupe page behind its header that an expiry does not write, its capture and its stop included. -/
theorem wdtExpire_fget (s : State) (why part : Nat) {f : Fld} (hlo : F.PG_ERR3.off < f.off) (hhi : f.off < 0x100) :
    (wdtExpire s why part).fget pgLoupe f = (levelActive (wdtShown s wdtExpired) 14).fget pgLoupe f := by
  rw [wdtExpire, wdtSet_expired, capture_fget _ _ _ _ _ hlo hhi]
  intro h
  simp only [pgLoupe, pgPart] at h
  omega

theorem wdtExpire_state (s : State) (why part : Nat) : (wdtExpire s why part).fget pgLoupe F.LOUPE_WDT_STAT_STATE = wdtExpired := by
  rw [wdtExpire_fget _ _ _ (by decide) (by decide), levelActive_fget_left _ _ (by decide) (by decide), wdtShown_state _ (by decide)]

theorem wdtExpire_elapsed (s : State) (why part : Nat) :
    (wdtExpire s why part).fget pgLoupe F.LOUPE_WDT_STAT_ELAPSED = s.fget pgLoupe F.LOUPE_WDT_STAT_ELAPSED := by
  rw [wdtExpire_fget _ _ _ (by decide) (by decide), levelActive_fget_left _ _ (by decide) (by decide), wdtShown_elapsed]

/-- WDT is an active level while the watchdog is EXPIRED. -/
theorem wdtExpire_level (s : State) (why part : Nat) : natBit ((wdtExpire s why part).fget pgLoupe F.LOUPE_LEVEL_SRC) 14 = true := by
  rw [wdtExpire_fget _ _ _ (by decide) (by decide), levelActive_level _ (by decide)]

/-- An expiry is captured with its reason (R341). -/
theorem wdtExpire_captured {s : State} (why part : Nat) (hv : s.fbit pgLoupe F.PG_ERR0_VALID = false) :
    (wdtExpire s why part).fget pgLoupe F.PG_ERR0_CODE = 0x0A03 ∧ (wdtExpire s why part).reg pgLoupe F.PG_ERR3.off = BitVec.ofNat 32 why := by
  have hvalid : (wdtSet s wdtExpired).fbit pgLoupe F.PG_ERR0_VALID = false := by
    rw [State.fbit, wdtSet_expired, levelActive_fget_left _ _ (by decide) (by decide), (wdtShown_regs s wdtExpired).fget (by decide) (by decide),
      ← State.fbit, hv]
  exact ⟨(capture_shows part why hvalid (by decide)).2, capture_err3 0x0A03 part why hvalid⟩

/-! ### A feed -/

theorem wdtFeed_first {s : State} (part units : Nat) (h : s.loupe.feedHalf = false) : wdtFeed s part 0xA5A5 units = feedPut s true := by
  unfold wdtFeed
  simp [h, feedPut]

theorem wdtFeed_second {s : State} (part units : Nat) (h : s.loupe.feedHalf = true) : wdtFeed s part 0x5A5A units = wdtFed (feedPut s false) part units :=
  if_pos ⟨h, rfl⟩

/-- A complete feed of a running watchdog that is not early starts its time again (R340). -/
theorem wdtFed_inTime {s : State} {units : Nat} (part : Nat) (hs : s.fget pgLoupe F.LOUPE_WDT_STAT_STATE = wdtRunning)
    (hu : s.fget pgLoupe F.LOUPE_WDT_CFG_WIN_MIN ≤ units) :
    wdtFed s part units = (levelInactive (wdtShown s wdtRunning) 14).fset pgLoupe F.LOUPE_WDT_STAT_ELAPSED 0 := by
  unfold wdtFed
  dsimp only
  rw [hs, if_neg (by omega), if_neg (by decide), wdtSet_running]

/-- One before WIN_MIN has passed expires it (R341). -/
theorem wdtFed_early {s : State} {units : Nat} (part : Nat) (hs : s.fget pgLoupe F.LOUPE_WDT_STAT_STATE = wdtRunning)
    (hu : units < s.fget pgLoupe F.LOUPE_WDT_CFG_WIN_MIN) : wdtFed s part units = wdtExpire s 2 part := if_pos ⟨hs, hu⟩

/-- The registers that a feed in time writes. -/
abbrev feedRegs : List (Nat × Nat) :=
  [(pgLoupe, F.LOUPE_STOP_WDT.off), (pgLoupe, F.LOUPE_WDT_STAT_STATE.off), (pgLoupe, F.LOUPE_LEVEL_SRC.off), (pgLoupe, F.PG_IRQ_STAT_ERR.off)]

theorem fedState_regs (s : State) :
    RegsOnly feedRegs s ((levelInactive (wdtShown s wdtRunning) 14).fset pgLoupe F.LOUPE_WDT_STAT_ELAPSED 0) :=
  (((wdtShown_regs s wdtRunning).mono (by simp [feedRegs])).trans ((levelInactive_regs _ 14).mono (by simp [feedRegs]))).fset (by decide) (by decide)

theorem fedState_shows (s : State) :
    ((levelInactive (wdtShown s wdtRunning) 14).fset pgLoupe F.LOUPE_WDT_STAT_ELAPSED 0).fget pgLoupe F.LOUPE_WDT_STAT_STATE = wdtRunning ∧
      ((levelInactive (wdtShown s wdtRunning) 14).fset pgLoupe F.LOUPE_WDT_STAT_ELAPSED 0).fget pgLoupe F.LOUPE_WDT_STAT_ELAPSED = 0 ∧
      ((levelInactive (wdtShown s wdtRunning) 14).fset pgLoupe F.LOUPE_WDT_STAT_ELAPSED 0).loupe.feedHalf = false := by
  refine ⟨?_, fget_fset_same _ _ _ _ (by decide), ?_⟩
  · rw [fget_fset_beside _ _ F.LOUPE_WDT_STAT_ELAPSED F.LOUPE_WDT_STAT_STATE _ rfl (.inl (by decide)),
      (levelInactive_regs _ 14).fget (by decide) (by decide), wdtShown_state _ (by decide)]
  · rw [fset_loupe, levelInactive_shape]
    rfl

/-! ### Half of TIMEOUT -/

/-- Half of TIMEOUT shows and sets its cause (R341). -/
def halfShown (s : State) : State :=
  pageIrq (s.fset pgLoupe F.LOUPE_WDT_STAT_ELAPSED (s.fget pgLoupe F.LOUPE_WDT_CFG_TIMEOUT / 2)) pgLoupe 8

theorem halfShown_elapsed (s : State) : (halfShown s).fget pgLoupe F.LOUPE_WDT_STAT_ELAPSED = s.fget pgLoupe F.LOUPE_WDT_CFG_TIMEOUT / 2 := by
  have hlt : s.fget pgLoupe F.LOUPE_WDT_CFG_TIMEOUT < 2 ^ 10 := fget_lt s pgLoupe F.LOUPE_WDT_CFG_TIMEOUT
  rw [halfShown, pageIrq_fget _ _ _ (by decide) (by decide), fget_fset_same _ _ _ _ (by decide)]
  exact Nat.mod_eq_of_lt (Nat.lt_of_le_of_lt (Nat.div_le_self _ 2) hlt)

theorem halfShown_cause (s : State) : (halfShown s).reg pgLoupe F.PG_IRQ_STAT_ERR.off &&& 8 = 8 := by
  rw [halfShown, pageIrq_stat]
  refine BitVec.eq_of_getLsbD_eq fun i _ => ?_
  rw [BitVec.getLsbD_and, BitVec.getLsbD_or]
  cases (8 : Word).getLsbD i <;> simp

/-! ### The statement -/

/-- Settles O34: a clear is `clearStops` or a capture, a feed `wdtFed`, and an expiry `wdtExpire`. -/
theorem clearsAndWatchdog : Obligations.ClearsAndWatchdog := by
  unfold Obligations.ClearsAndWatchdog
  refine ⟨fun s part data hw hk => ⟨fun hr hn => ?clears, fun why hwhy => ?refused⟩,
    fun s part units hw => ⟨fun hh => ?first, fun hh hs hu => ?inTime, fun hh hs hu hv => ?early⟩, fun s hs => ⟨?expires, ?half⟩⟩
  case clears =>
    have hacts := loupeClear_clears part hk (by rwa [hr])
    rw [hr] at hacts
    exact ⟨_, (congrArg nxt (pageWrite_acts _ hw)).trans (congrArg nxt hacts), clearStops_pages s _,
      (clearStops_fget s _ (by decide) (by decide)).trans (stopsLeft_groups s _),
      (clearStops_fget s _ (by decide) (by decide)).trans (stopsLeft_whole s _)⟩
  case refused =>
    exact ⟨_, (congrArg nxt (pageWrite_acts _ hw)).trans (congrArg nxt (loupeClear_refused part hk hwhy)), capture_shape .., capture_regs s pgLoupe 0x0A02 part _,
      refusal_captured part hwhy⟩
  case first => exact (congrArg nxt (pageWrite_acts _ hw)).trans (congrArg nxt (wdtFeed_first part units hh))
  case inTime =>
    obtain ⟨hstate, helapsed, hhalf⟩ := fedState_shows (feedPut s false)
    have hacts := (wdtFeed_second part units hh).trans (wdtFed_inTime part (s := feedPut s false) hs hu)
    exact ⟨_, (congrArg nxt (pageWrite_acts _ hw)).trans (congrArg nxt hacts), hstate, helapsed, hhalf,
      ((RegsOnly.refl feedRegs s).same fun p o _ => feedPut_reg s false p o).trans (fedState_regs _)⟩
  case early =>
    obtain ⟨hcode, hreason⟩ := wdtExpire_captured (s := feedPut s false) 2 part hv
    have hacts := (wdtFeed_second part units hh).trans (wdtFed_early part (s := feedPut s false) hs hu)
    exact ⟨_, (congrArg nxt (pageWrite_acts _ hw)).trans (congrArg nxt hacts), wdtExpire_state .., hcode, hreason⟩
  case expires =>
    have helapsed : (s.fset pgLoupe F.LOUPE_WDT_STAT_ELAPSED (s.fget pgLoupe F.LOUPE_WDT_CFG_TIMEOUT)).fget pgLoupe F.LOUPE_WDT_STAT_ELAPSED =
        s.fget pgLoupe F.LOUPE_WDT_CFG_TIMEOUT :=
      (fget_fset_same _ _ _ _ (by decide)).trans (Nat.mod_eq_of_lt (fget_lt s pgLoupe F.LOUPE_WDT_CFG_TIMEOUT))
    refine ⟨_, congrArg nxt (if_pos hs), wdtExpire_state .., (wdtExpire_elapsed ..).trans helapsed, wdtExpire_level .., fun hv => wdtExpire_captured 1 0 ?_⟩
    rw [State.fbit, fget_fset_ne _ _ _ _ (by decide), ← State.fbit, hv]
  case half =>
    exact ⟨halfShown s, congrArg nxt (if_pos hs), regsHost_trans (fset_shape ..) (pageIrq_shape ..),
      ((RegsOnly.refl _ s).fset (by decide) (by decide)).pageIrq (by decide), halfShown_elapsed s, halfShown_cause s⟩

end Sys2Proof.Machine
end

section
/-! SUPPORT. Fields beside a write: what a command leaves of a page, field by field, where it writes only some fields of a register. -/

namespace Sys2Proof.Machine

/-- Two fields share no bit of a register. -/
abbrev Apart (f g : Fld) : Prop := f.off ≠ g.off ∨ f.lo + f.wid ≤ g.lo ∨ g.lo + g.wid ≤ f.lo

/-- A field is none of the registers at those offsets, and shares no bit with those fields. -/
abbrev ClearOf (offs : List Nat) (ws : List Fld) (f : Fld) : Prop := f.off < 4096 ∧ f.off ∉ offs ∧ ∀ w ∈ ws, Apart f w

/-- A field keeps its value when one apart from it is written. -/
theorem fget_fset_apart (s : State) (p : Nat) {f g : Fld} (v : Nat) (h : Apart g f) : (s.fset p f v).fget p g = s.fget p g := by
  by_cases ho : g.off = f.off
  · exact fget_fset_beside s p f g v ho (h.resolve_left (not_not.mpr ho))
  · exact fget_fset_ne s f g v (by omega)

/-- Every field of a page that is clear of the listed registers and fields is as before. -/
def FieldsBut (offs : List Nat) (ws : List Fld) (q : Nat) (s t : State) : Prop := ∀ f, ClearOf offs ws f → t.fget q f = s.fget q f

namespace FieldsBut
variable {offs offs' : List Nat} {ws ws' : List Fld} {q : Nat} {s t u : State}

theorem refl (offs : List Nat) (ws : List Fld) (q : Nat) (s : State) : FieldsBut offs ws q s s := fun _ _ => rfl

theorem trans (h : FieldsBut offs ws q s t) (g : FieldsBut offs ws q t u) : FieldsBut offs ws q s u := fun f hf => (g f hf).trans (h f hf)

theorem mono (h : FieldsBut offs ws q s t) (ho : offs ⊆ offs') (hw : ws ⊆ ws') : FieldsBut offs' ws' q s t :=
  fun f hf => h f ⟨hf.1, fun hm => hf.2.1 (ho hm), fun w hm => hf.2.2 w (hw hm)⟩

theorem fset {p v : Nat} {f : Fld} (h : FieldsBut offs ws q s t) (hf : f ∈ ws) (ho : f.off < 4096) : FieldsBut offs ws q s (t.fset p f v) := by
  refine h.trans fun g hg => ?_
  by_cases hp : q = p
  · subst hp
    exact fget_fset_apart t q v (hg.2.2 f hf)
  · exact fget_fset_ne t f g v (by have := hg.1; omega)

theorem fincSat {p d : Nat} {f : Fld} (h : FieldsBut offs ws q s t) (hf : f ∈ ws) (ho : f.off < 4096) : FieldsBut offs ws q s (t.fincSat p f d) :=
  h.fset hf ho

theorem of_regsOnly {rs : List (Nat × Nat)} (h : RegsOnly rs s t) (hr : ∀ x ∈ rs, x.1 = q → x.2 ∈ offs) : FieldsBut offs ws q s t :=
  fun f hf => h.fget hf.1 fun hm => hf.2.1 (hr (q, f.off) hm rfl)

theorem of_pagesOnly {ps : Nat → Prop} (h : PagesOnly ps s t) (hq : ¬ ps q) : FieldsBut offs ws q s t := fun _ hf => h.fget hq hf.1

theorem setReg {p o : Nat} {w : Word} (h : FieldsBut offs ws q s t) (hm : o ∈ offs) (ho : o < 4096) : FieldsBut offs ws q s (t.setReg p o w) :=
  h.trans (of_regsOnly ((RegsOnly.refl [(p, o)] t).setReg (by simp) ho) (by simpa using fun _ => hm))

theorem fset_ne {p v : Nat} {f : Fld} (h : FieldsBut offs ws q s t) (hp : p ≠ q) (ho : f.off < 4096) : FieldsBut offs ws q s (t.fset p f v) :=
  h.trans (of_pagesOnly ((PagesOnly.refl (· = p) t).fset rfl ho) (Ne.symm hp))

theorem pageIrq {p bits : Nat} (h : FieldsBut offs ws q s t) (hm : F.PG_IRQ_STAT_ERR.off ∈ offs) : FieldsBut offs ws q s (pageIrq t p bits) :=
  h.trans (of_regsOnly ((RegsOnly.refl [(p, F.PG_IRQ_STAT_ERR.off)] t).pageIrq (by simp)) (by simpa using fun _ => hm))

theorem ite {c : Prop} [Decidable c] (a : c → FieldsBut offs ws q s t) (b : ¬ c → FieldsBut offs ws q s u) :
    FieldsBut offs ws q s (if c then t else u) := by
  split
  · exact a ‹_›
  · exact b ‹_›

theorem each {α : Type} (l : List α) {f : State → α → State} (hf : ∀ t, ∀ a ∈ l, FieldsBut offs ws q t (f t a)) (h : FieldsBut offs ws q s t) :
    FieldsBut offs ws q s (eachIn l f t) :=
  h.trans (eachIn_rel (refl offs ws q) trans hf t)

/-- What such a command leaves of one field. -/
theorem fget (h : FieldsBut offs ws q s t) {f : Fld} (hf : ClearOf offs ws f) : t.fget q f = s.fget q f := h f hf

theorem fbit (h : FieldsBut offs ws q s t) {f : Fld} (hf : ClearOf offs ws f) : t.fbit q f = s.fbit q f := congrArg (· != 0) (h f hf)

end FieldsBut

/-- The registers of a page that a capture on it writes. -/
abbrev errOffs : List Nat := [F.PG_IRQ_STAT_ERR.off, F.PG_ERR0_CODE.off, F.PG_ERR1.off, F.PG_ERR2.off, F.PG_ERR3.off]

/-- On a page that is not the partition's, a capture writes its own registers. -/
theorem capture_fieldsBut (s : State) {p part : Nat} (code detail : Nat) (hp : p ≠ pgPart + part) : FieldsBut errOffs [] p s (capture s p code part detail) := by
  refine .of_regsOnly (capture_regs s p code part detail) fun x hx hxp => ?_
  rw [captureRegs_eq_append, List.mem_append] at hx
  rcases hx with hx | hx
  · simp only [errRegs, List.mem_cons, List.not_mem_nil, or_false] at hx
    rcases hx with rfl | rfl | rfl | rfl | rfl <;> simp
  · simp only [logRegs, List.mem_cons, List.not_mem_nil, or_false] at hx
    exfalso
    rcases hx with rfl | rfl | rfl | rfl | rfl | rfl <;> exact hp hxp.symm

end Sys2Proof.Machine
end

section
/-! SUPPORT. A CriskaLink port as it enters a state (R360, R367, R368, R371): what of the port, of its page and of the CLNK global page each of
the shared operations leaves. -/

namespace Sys2Proof.Machine

/-! ### The port of a state -/

/-- A port that takes part is one of eight. -/
theorem port_lt {s : State} {p : Nat} (h : portDead s p = false) : p < 8 := by
  have hmax : s.var.clnkPorts ≤ 8 := by cases s.var <;> decide
  simp only [portDead, portBuilt, Bool.or_eq_false_iff, Bool.not_eq_false', decide_eq_true_eq] at h
  omega

theorem portBuilt_of_live {s : State} {p : Nat} (h : portDead s p = false) : portBuilt s p = true := by
  simp only [portDead, Bool.or_eq_false_iff, Bool.not_eq_false'] at h
  exact h.1.1.1

theorem live_of_portHears {s : State} {p : Nat} (h : portHears s p = true) : portDead s p = false := by
  simp only [portHears, Bool.and_eq_true, Bool.not_eq_true'] at h
  exact h.1

/-- The page of a port stands below the CLNK global page. -/
theorem clnkPage_ne_global {p : Nat} (hp : p < 8) : pgClnkG ≠ pgClnk + p := by
  simp only [pgClnkG, pgClnk]
  omega

/-- The pages of the ports and the CLNK global page stand behind those of the partitions. -/
theorem clnkPage_ne_part (p : Nat) : pgClnk + p ≠ pgPart + 0 := by
  simp only [pgClnk, pgPart]
  omega

@[simp] theorem portGet_portMod_same (s : State) (p : Nat) (f : LinkPort → LinkPort) : portGet (portMod s p f) p = f (portGet s p) :=
  portGet_portSet_same ..
@[simp] theorem portMod_fget (s : State) (p : Nat) (f : LinkPort → LinkPort) (g : Nat) (x : Fld) : (portMod s p f).fget g x = s.fget g x := rfl
@[simp] theorem portMod_fbit (s : State) (p : Nat) (f : LinkPort → LinkPort) (g : Nat) (x : Fld) : (portMod s p f).fbit g x = s.fbit g x := rfl
@[simp] theorem linkState_portMod (s : State) (p : Nat) (f : LinkPort → LinkPort) (k : Nat) : linkState (portMod s p f) k = linkState s k := rfl
@[simp] theorem portGet_linkStat (s : State) (p : Nat) (f : Fld) (v k : Nat) : portGet (linkStat s p f v) k = portGet s k := rfl
@[simp] theorem portGet_linkCount (s : State) (p n k : Nat) : portGet (linkCount s p n) k = portGet s k := rfl
@[simp] theorem portGet_linkGlobal (s : State) (f : Fld) (p k : Nat) (b : Bool) : portGet (linkGlobal s f p b) k = portGet s k := rfl
@[simp] theorem portGet_fset (s : State) (g : Nat) (f : Fld) (v k : Nat) : portGet (s.fset g f v) k = portGet s k := rfl
@[simp] theorem portGet_setReg (s : State) (g o : Nat) (w : Word) (k : Nat) : portGet (s.setReg g o w) k = portGet s k := rfl
@[simp] theorem portGet_reach (s : State) (n k : Nat) : portGet (s.reach n) k = portGet s k := by rw [reach_shape]; rfl
@[simp] theorem portGet_pageIrq (s : State) (g bits k : Nat) : portGet (pageIrq s g bits) k = portGet s k := by rw [pageIrq_shape]; rfl
@[simp] theorem portGet_capture (s : State) (g code part detail k : Nat) : portGet (capture s g code part detail) k = portGet s k := by
  rw [capture_shape]; rfl

theorem PagesOnly.portMod {ps : Nat → Prop} {s t : State} {p : Nat} {f : LinkPort → LinkPort} (h : PagesOnly ps s t) : PagesOnly ps s (portMod t p f) := h

theorem FieldsBut.portMod {offs : List Nat} {ws : List Fld} {q p : Nat} {s t : State} {f : LinkPort → LinkPort} (h : FieldsBut offs ws q s t) :
    FieldsBut offs ws q s (portMod t p f) := h

/-- The pages that a port's state shows on. -/
abbrev linkPages (p g : Nat) : Prop := g = pgClnk + p ∨ g = pgClnkG

/-! ### Counters -/

/-- A counter of a port saturates at the top of its 16 bits. -/
theorem linkCount_same (s : State) (p k : Nat) :
    (linkCount s p k).fget (pgClnk + p) (linkCntF k) = min (s.fget (pgClnk + p) (linkCntF k) + 1) 0xFFFF := by
  have hf : (linkCntF k).lo + (linkCntF k).wid ≤ 32 ∧ (linkCntF k).wid = 16 := by
    unfold linkCntF
    split <;> simp [Fld.sh]
  rw [linkCount, fget_fincSat_same _ _ _ _ hf.1, hf.2]
  rfl

theorem linkCount_fieldsBut (s : State) (p : Nat) {k : Nat} (hk : (linkCntF k).off < 4096) (g : Nat) : FieldsBut [] [linkCntF k] g s (linkCount s p k) :=
  (FieldsBut.refl _ _ g s).fincSat (by simp) hk

theorem linkCount_pages (s : State) (p : Nat) {k : Nat} (hk : (linkCntF k).off < 4096) : PagesOnly (· = pgClnk + p) s (linkCount s p k) :=
  (PagesOnly.refl _ s).fincSat rfl hk

/-! ### Bits of the CLNK global page -/

/-- The bit of a port that is put into a register of the CLNK global page shows there. -/
theorem linkGlobal_shows (s : State) {f : Fld} {p : Nat} (b : Bool) (hp : p < f.wid) (hf : f.lo + f.wid ≤ 32) :
    natBit ((linkGlobal s f p b).fget pgClnkG f) p = b := by
  rw [linkGlobal, fget_fset_same _ _ _ _ hf, natBit, Nat.testBit_mod_two_pow, testBit_natPutBit_same]
  simp [hp]

/-! ### What beside registers changes -/

/-- Beside registers only CriskaLink changes. -/
def LinkOnly (s t : State) : Prop := t = { s with regs := t.regs, clnk := t.clnk }

namespace LinkOnly
variable {s t u : State}

theorem refl (s : State) : LinkOnly s s := rfl

theorem trans (h : LinkOnly s t) (g : LinkOnly t u) : LinkOnly s u := by
  refine Eq.trans g ?_
  rw [h]

theorem portMod {p : Nat} {f : LinkPort → LinkPort} (h : LinkOnly s t) : LinkOnly s (portMod t p f) := h.trans rfl
theorem fset {g v : Nat} {f : Fld} (h : LinkOnly s t) : LinkOnly s (t.fset g f v) := h.trans rfl

theorem ite {c : Prop} [Decidable c] (a : LinkOnly s t) (b : LinkOnly s u) : LinkOnly s (if c then t else u) := by
  split
  · exact a
  · exact b

theorem now (h : LinkOnly s t) : t.now = s.now := by rw [h]; rfl

end LinkOnly

/-! ### A port enters a state -/

/-- The port that enters a state: the timers of other states have stopped. -/
def LinkPort.enter (x : LinkPort) (st : Nat) : LinkPort :=
  { x with
    plugAt := none, syncAt := none, enumAt := none, backoffAt := none, enumFrame := none,
    unplugAt := if st = lkDown ∨ st = lkOut then none else x.unplugAt,
    tx := txState st || (x.tx && halting x && st != lkOut) }

/-- What a state shows beside its number: CYC, and no limb in DOWN and OUT. -/
def enterShown (s : State) (p st : Nat) : State :=
  let s := if st = lkUp then s else linkStat s p F.LNK_STAT_CYC (if st = lkMbxOnly then cycMbxOnly else cycNone)
  if st = lkDown ∨ st = lkOut then linkGlobal (linkStat s p F.LNK_STAT_PRES 0) F.GLNK_PRES p false else s

theorem linkEnter_eq (s : State) (p st : Nat) :
    linkEnter s p st = linkGlobal (enterShown (linkStat (portMod s p (·.enter st)) p F.LNK_STAT_STATE st) p st) F.GLNK_UP p
      (st == lkUp || st == lkMbxOnly) := rfl

/-- The fields that what a state shows beside its number is written to. -/
abbrev shownFields (st : Nat) : List Fld := F.LNK_STAT_CYC :: if st = lkDown ∨ st = lkOut then [F.LNK_STAT_PRES] else []

/-- The fields that a port writes on its page as it enters a state. -/
abbrev enterFields (st : Nat) : List Fld := F.LNK_STAT_STATE :: shownFields st

theorem enterShown_fieldsBut (s : State) {p : Nat} (st : Nat) (hp : p < 8) : FieldsBut [] (shownFields st) (pgClnk + p) s (enterShown s p st) := by
  have hcyc := FieldsBut.ite (c := st = lkUp) (fun _ => FieldsBut.refl [] (shownFields st) (pgClnk + p) s) fun _ =>
    (FieldsBut.refl [] (shownFields st) (pgClnk + p) s).fset (p := pgClnk + p) (v := if st = lkMbxOnly then cycMbxOnly else cycNone)
      (f := F.LNK_STAT_CYC) (by simp) (by decide)
  refine .ite (fun hst => ?_) fun _ => hcyc
  exact (hcyc.fset (by simp [hst]) (by decide)).fset_ne (clnkPage_ne_global hp) (by decide)

theorem enterShown_pages (s : State) (p st : Nat) : PagesOnly (linkPages p) s (enterShown s p st) := by
  have hcyc := PagesOnly.ite (c := st = lkUp) (fun _ => PagesOnly.refl (linkPages p) s) fun _ =>
    (PagesOnly.refl (linkPages p) s).fset (p := pgClnk + p) (v := if st = lkMbxOnly then cycMbxOnly else cycNone) (f := F.LNK_STAT_CYC)
      (.inl rfl) (by decide)
  exact .ite (fun _ => (hcyc.fset (.inl rfl) (by decide)).fset (.inr rfl) (by decide)) fun _ => hcyc

theorem enterShown_linkOnly (s : State) (p st : Nat) : LinkOnly s (enterShown s p st) := by
  have hcyc : LinkOnly s (if st = lkUp then s else linkStat s p F.LNK_STAT_CYC (if st = lkMbxOnly then cycMbxOnly else cycNone)) :=
    .ite (.refl s) (LinkOnly.refl s).fset
  exact .ite hcyc.fset.fset hcyc

@[simp] theorem enterShown_clnk (s : State) (p st : Nat) : (enterShown s p st).clnk = s.clnk := by
  simp only [enterShown, linkGlobal, linkStat, apply_ite State.clnk, fset_clnk, ite_self]

section Enter
variable (s : State) {p : Nat} (st : Nat)

theorem linkEnter_port : portGet (linkEnter s p st) p = (portGet s p).enter st := by
  have hshown : portGet (enterShown (linkStat (portMod s p (·.enter st)) p F.LNK_STAT_STATE st) p st) p = portGet (portMod s p (·.enter st)) p := by
    rw [portGet, enterShown_clnk]
    rfl
  rw [linkEnter_eq, portGet_linkGlobal, hshown, portGet_portMod_same]

theorem linkEnter_linkOnly : LinkOnly s (linkEnter s p st) := by
  rw [linkEnter_eq]
  exact ((LinkOnly.refl s).portMod.fset.trans (enterShown_linkOnly _ p st)).fset

theorem linkEnter_pages : PagesOnly (linkPages p) s (linkEnter s p st) := by
  rw [linkEnter_eq]
  exact (((PagesOnly.refl (linkPages p) s).portMod.fset (.inl rfl) (by decide)).trans (enterShown_pages _ p st)).fset (.inr rfl) (by decide)

theorem linkEnter_fieldsBut (hp : p < 8) : FieldsBut [] (enterFields st) (pgClnk + p) s (linkEnter s p st) := by
  rw [linkEnter_eq]
  have hshown := (enterShown_fieldsBut (linkStat (portMod s p (·.enter st)) p F.LNK_STAT_STATE st) st hp).mono (ws' := enterFields st)
    (List.Subset.refl _) (List.subset_cons_self ..)
  exact (((FieldsBut.refl [] (enterFields st) _ s).portMod.fset (by simp) (by decide)).trans hshown).fset_ne (clnkPage_ne_global hp) (by decide)

/-- The port is in the state it enters. -/
theorem linkEnter_state (hp : p < 8) (hst : st < 8) : linkState (linkEnter s p st) p = st := by
  have hclear : ClearOf [] (shownFields st) F.LNK_STAT_STATE := by
    refine ⟨by decide, by simp, fun w hw => ?_⟩
    simp only [shownFields, List.mem_cons] at hw
    rcases hw with rfl | hw
    · decide
    · split at hw
      · obtain rfl := List.mem_singleton.mp hw
        decide
      · cases hw
  rw [linkState, linkEnter_eq, linkGlobal, fget_fset_ne _ _ _ _ (by have := clnkPage_ne_global hp; simp; omega),
    (enterShown_fieldsBut _ st hp).fget hclear, linkStat, fget_fset_same _ _ _ _ (by decide)]
  exact Nat.mod_eq_of_lt hst

/-- GLNK_UP shows whether it is UP or MBX_ONLY. -/
theorem linkEnter_up (hp : p < 8) : natBit ((linkEnter s p st).fget pgClnkG F.GLNK_UP) p = (st == lkUp || st == lkMbxOnly) := by
  rw [linkEnter_eq]
  exact linkGlobal_shows _ _ hp (by decide)

/-- A port that goes DOWN shows no limb. -/
theorem linkEnter_down_pres (hp : p < 8) : (linkEnter s p lkDown).fbit (pgClnk + p) F.LNK_STAT_PRES = false := by
  have hne := clnkPage_ne_global hp
  rw [linkEnter_eq, linkGlobal, State.fbit, fget_fset_ne _ _ _ _ (by simp; omega), enterShown, if_pos (.inl rfl), linkGlobal, fget_fset_ne _ _ _ _ (by simp; omega), linkStat, fget_fset_same _ _ _ _ (by decide)]
  rfl

/-- GLNK_PRES is left as it was but in DOWN and OUT. -/
theorem linkEnter_globalPres (hst : ¬ (st = lkDown ∨ st = lkOut)) (hp : p < 8) :
    (linkEnter s p st).fget pgClnkG F.GLNK_PRES = s.fget pgClnkG F.GLNK_PRES := by
  have hne := clnkPage_ne_global hp
  have hcyc := PagesOnly.ite (c := st = lkUp) (fun _ => PagesOnly.refl (· = pgClnk + p) (linkStat (portMod s p (·.enter st)) p F.LNK_STAT_STATE st)) fun _ =>
    (PagesOnly.refl (· = pgClnk + p) (linkStat (portMod s p (·.enter st)) p F.LNK_STAT_STATE st)).fset
      (v := if st = lkMbxOnly then cycMbxOnly else cycNone) (f := F.LNK_STAT_CYC) rfl (by decide)
  rw [linkEnter_eq, linkGlobal, fget_fset_ne _ _ _ _ (by decide), enterShown, if_neg hst]
  exact (hcyc.fget hne (by decide)).trans (fget_fset_ne _ _ _ _ (by simp; omega))

end Enter

/-! ### SYNC, ENUM, DETECT and BACKOFF -/

/-- The port that begins to enumerate: a new E, and the first ASSIGN of it queued. -/
def LinkPort.enumerating (x : LinkPort) (p : Nat) : LinkPort :=
  { x.enter lkEnum with
    counter := nextEpoch x.counter, enumE := some (nextEpoch x.counter), caps := none, assigns := 1, confirms := 0,
    enumFrame := some { typ := 5, chan := 2, data := leBytes 8 (nextEpoch x.counter + 0x0100 * 2 ^ 16 + p * 2 ^ 32) } }

theorem startEnum_port (s : State) (p : Nat) : portGet (startEnum s p) p = (portGet s p).enumerating p := by
  unfold startEnum queueAssign
  simp only [portGet_portMod_same, linkEnter_port]
  rfl

theorem startEnum_pages (s : State) (p : Nat) : PagesOnly (linkPages p) s (startEnum s p) := by
  unfold startEnum queueAssign
  exact (linkEnter_pages s lkEnum).portMod.portMod

theorem startEnum_fieldsBut (s : State) {p : Nat} (hp : p < 8) : FieldsBut [] (enterFields lkEnum) (pgClnk + p) s (startEnum s p) := by
  unfold startEnum queueAssign
  exact (linkEnter_fieldsBut s lkEnum hp).portMod.portMod

theorem startEnum_state (s : State) {p : Nat} (hp : p < 8) : linkState (startEnum s p) p = lkEnum := by
  unfold startEnum queueAssign
  rw [linkState_portMod, linkState_portMod, linkEnter_state s lkEnum hp (by decide)]

/-- A port in ENUM with the next epoch of a count, and the first ASSIGN queued (R368, R371). -/
def Enumerates (p counter : Nat) (t : State) : Prop :=
  linkState t p = lkEnum ∧ (portGet t p).enumE = some (nextEpoch counter) ∧ (portGet t p).counter = nextEpoch counter ∧
    (portGet t p).current = none ∧ (portGet t p).caps = none ∧ (portGet t p).enumFrame.map (fun f => (f.typ, f.chan)) = some (5, 2)

theorem startEnum_enumerates (s : State) {p : Nat} (hp : p < 8) (hc : (portGet s p).current = none) :
    Enumerates p (portGet s p).counter (startEnum s p) := by
  refine ⟨startEnum_state s hp, ?_⟩
  rw [startEnum_port]
  exact ⟨rfl, rfl, hc, rfl, rfl⟩

/-- The state of a port that has entered SYNC and waits for its receiver. -/
def syncing (s : State) (p : Nat) : State := portMod (linkEnter s p lkSync) p fun x => { x with syncAt := some s.now }

/-- With its receiver out of sync the port waits in SYNC. -/
theorem toSync_waits {s : State} {p : Nat} (hp : p < 8) (h : s.fbit (pgClnk + p) F.LNK_STAT_SYNC = false) : toSync s p = syncing s p := by
  have hout : (syncing s p).fbit (pgClnk + p) F.LNK_STAT_SYNC = false := ((linkEnter_fieldsBut s lkSync hp).fbit (by decide)).trans h
  exact if_neg (by simpa [syncing] using hout)

theorem syncing_state (s : State) {p : Nat} (hp : p < 8) : linkState (syncing s p) p = lkSync := by
  rw [syncing, linkState_portMod, linkEnter_state s lkSync hp (by decide)]

theorem syncing_pages (s : State) (p : Nat) : PagesOnly (linkPages p) s (syncing s p) := (linkEnter_pages s lkSync).portMod

theorem syncing_fieldsBut (s : State) {p : Nat} (hp : p < 8) : FieldsBut [] (enterFields lkSync) (pgClnk + p) s (syncing s p) :=
  (linkEnter_fieldsBut s lkSync hp).portMod

theorem syncing_port (s : State) (p : Nat) : portGet (syncing s p) p = { (portGet s p).enter lkSync with syncAt := some s.now } := by
  rw [syncing, portGet_portMod_same, linkEnter_port]

/-- T_SYNC runs from the tick at which the port entered SYNC. -/
theorem syncing_syncAt (s : State) (p : Nat) : (portGet (syncing s p) p).syncAt = some (syncing s p).now := by
  rw [syncing_port, syncing, (linkEnter_linkOnly s lkSync).portMod.now]

/-- A port that enters SYNC waits there, or enumerates at once. -/
theorem toSync_cases (s : State) (p : Nat) : toSync s p = syncing s p ∨ toSync s p = startEnum (syncing s p) p := by
  unfold toSync
  dsimp only
  split
  · exact .inr rfl
  · exact .inl rfl

theorem toSync_pages (s : State) (p : Nat) : PagesOnly (linkPages p) s (toSync s p) := by
  rcases toSync_cases s p with h | h <;> rw [h]
  · exact syncing_pages s p
  · exact (syncing_pages s p).trans (startEnum_pages _ p)

theorem toSync_fieldsBut (s : State) {p : Nat} (hp : p < 8) : FieldsBut [] (enterFields lkSync) (pgClnk + p) s (toSync s p) := by
  rcases toSync_cases s p with h | h <;> rw [h]
  · exact syncing_fieldsBut s hp
  · exact (syncing_fieldsBut s hp).trans (startEnum_fieldsBut _ hp)

theorem syncing_globalPres (s : State) {p : Nat} (hp : p < 8) : (syncing s p).fget pgClnkG F.GLNK_PRES = s.fget pgClnkG F.GLNK_PRES := by
  rw [syncing, portMod_fget, linkEnter_globalPres s lkSync (by decide) hp]

theorem startEnum_globalPres (s : State) {p : Nat} (hp : p < 8) : (startEnum s p).fget pgClnkG F.GLNK_PRES = s.fget pgClnkG F.GLNK_PRES := by
  unfold startEnum queueAssign
  rw [portMod_fget, portMod_fget, linkEnter_globalPres s lkEnum (by decide) hp]

theorem toSync_globalPres (s : State) {p : Nat} (hp : p < 8) : (toSync s p).fget pgClnkG F.GLNK_PRES = s.fget pgClnkG F.GLNK_PRES := by
  rcases toSync_cases s p with h | h <;> rw [h]
  · exact syncing_globalPres s hp
  · rw [startEnum_globalPres _ hp, syncing_globalPres s hp]

/-- T_PLUG does not run in SYNC and ENUM. -/
theorem toSync_plugAt (s : State) (p : Nat) : (portGet (toSync s p) p).plugAt = none := by
  rcases toSync_cases s p with h | h <;> rw [h]
  · rw [syncing_port]; rfl
  · rw [startEnum_port]; rfl

theorem toDetect_linkOnly (s : State) (p : Nat) : LinkOnly s (toDetect s p) := (linkEnter_linkOnly s lkDetect).portMod

theorem toDetect_pages (s : State) (p : Nat) : PagesOnly (linkPages p) s (toDetect s p) := (linkEnter_pages s lkDetect).portMod

theorem toDetect_port (s : State) (p : Nat) : portGet (toDetect s p) p = { (portGet s p).enter lkDetect with plugAt := some s.now } := by
  rw [toDetect, portGet_portMod_same, linkEnter_port]

theorem toDetect_state (s : State) {p : Nat} (hp : p < 8) : linkState (toDetect s p) p = lkDetect := by
  rw [toDetect, linkState_portMod, linkEnter_state s lkDetect hp (by decide)]

theorem toBackoff_state (s : State) {p : Nat} (hp : p < 8) : linkState (toBackoff s p) p = lkBackoff := by
  rw [toBackoff, linkState_portMod, linkEnter_state s lkBackoff hp (by decide)]

theorem toBackoff_fieldsBut (s : State) {p : Nat} (hp : p < 8) : FieldsBut [] (enterFields lkBackoff) (pgClnk + p) s (toBackoff s p) :=
  (linkEnter_fieldsBut s lkBackoff hp).portMod

theorem toBackoff_port (s : State) (p : Nat) : portGet (toBackoff s p) p = { (portGet s p).enter lkBackoff with backoffAt := some s.now } := by
  rw [toBackoff, portGet_portMod_same, linkEnter_port]

theorem toBackoff_backoffAt (s : State) (p : Nat) : (portGet (toBackoff s p) p).backoffAt = some (toBackoff s p).now := by
  rw [toBackoff_port, toBackoff, (linkEnter_linkOnly s lkBackoff).portMod.now]

end Sys2Proof.Machine
end

section
/-! SUPPORT. The end of an epoch of a CriskaLink port (R369, R383, R411, Table 12.6): what HALTs and the ends of sessions leave of a port, of
its page and of its sessions, and what the end of the epoch changes beside that. -/

namespace Sys2Proof.Machine

/-! ### What HALTs and session ends leave -/

/-- The registers of a port's page that show its mailbox channels (Table 12.14). -/
abbrev mbxOffs : List Nat := (List.range 8).flatMap fun c => [0x300 + 16 * c, 0x304 + 16 * c, 0x308 + 16 * c]

/-- The counters that HALTs write. -/
abbrev haltCounts : List Fld := [linkCntF 13, linkCntF 14]

/-- The port with what the transmitter sent and with the sessions of another. -/
def LinkPort.withTraffic (x y : LinkPort) : LinkPort :=
  { x with sending := y.sending, sent := y.sent, haltCause := y.haltCause, haltCount := y.haltCount, chans := y.chans, ctl := y.ctl }

/-- A port's place in its states, its epochs and its enumeration is as before, and a closed session stays closed: only what the transmitter sent,
the sessions and what they show have changed. -/
structure PlaceKept (p : Nat) (s t : State) : Prop where
  pages : PagesOnly (· = pgClnk + p) s t
  fields : FieldsBut mbxOffs haltCounts (pgClnk + p) s t
  port : portGet t p = (portGet s p).withTraffic (portGet t p)
  shut : ∀ c, (sessGet s p c).state = .closed → (sessGet t p c).state = .closed

namespace PlaceKept
variable {p : Nat} {s0 s t u : State}

theorem refl (p : Nat) (s : State) : PlaceKept p s s := ⟨.refl _ s, .refl _ _ _ s, rfl, fun _ h => h⟩

theorem trans (h : PlaceKept p s t) (g : PlaceKept p t u) : PlaceKept p s u :=
  ⟨h.pages.trans g.pages, h.fields.trans g.fields, g.port.trans (by rw [h.port]; rfl), fun c hc => g.shut c (h.shut c hc)⟩

theorem each {α : Type} {l : List α} {f : State → α → State} (h : PlaceKept p s0 s) (hf : ∀ t, ∀ a ∈ l, PlaceKept p t (f t a)) :
    PlaceKept p s0 (eachIn l f s) :=
  h.trans (eachIn_rel (refl p) trans hf s)

theorem elim {α : Type} {o : Option α} {f : α → State} (h : PlaceKept p s0 s) (hf : ∀ a, PlaceKept p s0 (f a)) : PlaceKept p s0 (o.elim s f) := by
  cases o with
  | none => exact h
  | some a => exact hf a

/-- A write of what may change of the port, where closed sessions stay closed. -/
theorem portSet {x : LinkPort} (h : PlaceKept p s0 s) (hx : x = (portGet s p).withTraffic x)
    (hc : ∀ c, (sessGet s p c).state = .closed → (x.chans.get {} c).state = .closed) : PlaceKept p s0 (portSet s p x) := by
  have e := portGet_portSet_same s p x
  refine h.trans ⟨.refl _ s, .refl _ _ _ s, ?_, fun c hs => ?_⟩
  · rw [e]
    exact hx
  · rw [sessGet, e]
    exact hc c hs

theorem fincSat {d : Nat} {f : Fld} (h : PlaceKept p s0 s) (hf : f ∈ haltCounts) (ho : f.off < 4096) : PlaceKept p s0 (s.fincSat (pgClnk + p) f d) :=
  h.trans ⟨(PagesOnly.refl _ s).fincSat rfl ho, (FieldsBut.refl _ _ _ s).fincSat hf ho, rfl, fun _ hs => hs⟩

theorem setReg {o : Nat} {w : Word} (h : PlaceKept p s0 s) (hm : o ∈ mbxOffs) (ho : o < 4096) : PlaceKept p s0 (s.setReg (pgClnk + p) o w) :=
  h.trans ⟨(PagesOnly.refl _ s).setReg rfl ho, (FieldsBut.refl _ _ _ s).setReg hm ho, rfl, fun _ hs => hs⟩

theorem jobDone {j status result : Nat} (h : PlaceKept p s0 s) : PlaceKept p s0 (jobDone s j status result) := by
  refine h.trans ?_
  rw [jobDone_shape]
  exact ⟨fun _ _ _ _ => rfl, fun _ _ => rfl, rfl, fun _ hs => hs⟩

/-! HALTs. -/

theorem linkSend {f : LinkFrame} {start n : Nat} {item : TxItem} (h : PlaceKept p s0 s) : PlaceKept p s0 (linkSend s p f start item n) := by
  have hcount : ∀ {g : LinkPort → LinkPort}, g (portGet s p) = (portGet s p).withTraffic (g (portGet s p)) →
      (g (portGet s p)).chans = (portGet s p).chans → PlaceKept p s0 ((portMod s p g).fincSat (pgClnk + p) (linkCntF 14) n) :=
    fun hg hc => (h.portSet hg fun c hs => by rwa [hc]).fincSat (by simp) (by decide)
  unfold Machine.linkSend
  dsimp only
  split
  · refine fincSat (hcount ?_ ?_) (by simp) (by decide) <;> rfl
  · refine hcount ?_ ?_ <;> rfl

theorem sendHalt {cause start n : Nat} {sync : Bool} (h : PlaceKept p s0 s) : PlaceKept p s0 (sendHalt s p cause sync start n) := by
  unfold Machine.sendHalt
  refine linkSend (h.portSet ?_ fun _ hs => hs)
  rfl

theorem haltFillIn {k upto : Nat} (h : PlaceKept p s0 s) : PlaceKept p s0 (haltFillIn k s p upto) := by
  induction k generalizing s with
  | zero => exact h
  | succ k ih =>
    unfold Machine.haltFillIn
    dsimp only
    split
    · exact ih h.sendHalt
    · exact h

theorem haltNow (h : PlaceKept p s0 s) : PlaceKept p s0 (haltNow s p) := by
  unfold Machine.haltNow haltFill
  dsimp only
  split
  · exact h.haltFillIn
  · exact h

/-! Session ends. -/

theorem mbxShow {c : Nat} (hc : c < 8) (h : PlaceKept p s0 s) : PlaceKept p s0 (mbxShow s p c) := by
  have hreg : ∀ {t : State} (i : Nat) {w : Word}, i < 3 → PlaceKept p s0 t → PlaceKept p s0 (t.setReg (pgClnk + p) (0x300 + 4 * i + 16 * c) w) := by
    refine fun i _ hi ht => ht.setReg ?_ (by omega)
    simp only [mbxOffs, List.mem_flatMap, List.mem_range, List.mem_cons, List.not_mem_nil, or_false]
    exact ⟨c, hc, by omega⟩
  exact hreg 2 (by decide) (hreg 1 (by decide) (hreg 0 (by decide) h))

theorem fwEnded {f : FwRun} {status : Nat} (h : PlaceKept p s0 s) : PlaceKept p s0 (fwEnded s f status) := h.jobDone

/-- The jobs that end with a session, one kind after another. -/
theorem endJobs_eq (s : State) (x : Session) (status closeStatus : Nat) :
    endJobs s x status closeStatus =
      let t := eachIn x.recvs (fun s j => Machine.jobDone s j status 0)
        (eachIn x.sends (fun s j => Machine.jobDone s j status ((jobGet s j).getD {}).aux) s)
      let t := x.holding.elim t fun j => Machine.jobDone t j status 0
      let t := x.opener.elim t fun j => Machine.jobDone t j status 0
      let t := x.fw.elim t fun f => Machine.fwEnded t f status
      eachIn x.closers (fun s j => Machine.jobDone s j closeStatus 0) t := by
  unfold endJobs
  cases x.holding <;> cases x.opener <;> cases x.fw <;> rfl

theorem endJobs {x : Session} {status closeStatus : Nat} (h : PlaceKept p s0 s) : PlaceKept p s0 (endJobs s x status closeStatus) := by
  rw [endJobs_eq]
  have hjob : ∀ (t : State) j st r, PlaceKept p t (Machine.jobDone t j st r) := fun t j st r => (refl p t).jobDone
  have hlists := (h.each (l := x.sends) fun t j _ => hjob t j status ((jobGet t j).getD {}).aux).each (l := x.recvs) fun t j _ => hjob t j status 0
  have hheld := hlists.elim (o := x.holding) fun j => hlists.jobDone (j := j) (status := status) (result := 0)
  have hopen := hheld.elim (o := x.opener) fun j => hheld.jobDone (j := j) (status := status) (result := 0)
  exact (hopen.elim (o := x.fw) fun f => hopen.fwEnded (f := f) (status := status)).each fun t j _ => hjob t j closeStatus 0

/-- A closed session takes the place of one of the port's. -/
theorem sessSet {c : Nat} {x : Session} (h : PlaceKept p s0 s) (hx : x.state = .closed) : PlaceKept p s0 (sessSet s p c x) := by
  refine h.portSet rfl fun k hk => ?_
  dsimp only
  by_cases hkc : k = c
  · subst hkc
    rw [Tab.get_set_same]
    exact hx
  · rw [Tab.get_set_ne _ _ _ _ hkc]
    exact hk

theorem sessClose {c status closeStatus : Nat} (hc : c < 8) (h : PlaceKept p s0 s) : PlaceKept p s0 (sessClose s p c status closeStatus) := by
  unfold Machine.sessClose
  dsimp only
  split
  · exact h
  · exact (h.endJobs.sessSet rfl).mbxShow hc

/-- The mailbox frames that wait are dropped. -/
theorem dropCtl (h : PlaceKept p s0 s) : PlaceKept p s0 (portMod s p fun y => { y with ctl := [] }) := h.portSet rfl fun _ hs => hs

end PlaceKept

@[simp] theorem portGet_mbxShow (s : State) (p c k : Nat) : portGet (mbxShow s p c) k = portGet s k := by
  unfold mbxShow
  dsimp only
  rw [portGet_setReg, portGet_setReg, portGet_setReg]

@[simp] theorem sessGet_mbxShow (s : State) (p c k : Nat) : sessGet (mbxShow s p c) p k = sessGet s p k :=
  congrArg (fun x : LinkPort => x.chans.get {} k) (portGet_mbxShow s p c p)

@[simp] theorem sessGet_sessSet_same (s : State) (p c : Nat) (x : Session) : sessGet (sessSet s p c x) p c = x := by
  simp [sessGet, sessSet]

/-- The session of a channel that is closed has ended. -/
theorem sessClose_closed (s : State) (p c status closeStatus : Nat) : (sessGet (sessClose s p c status closeStatus) p c).state = .closed := by
  unfold sessClose
  dsimp only
  split
  · assumption
  · rw [sessGet_mbxShow, sessGet_sessSet_same]
    rfl

/-- Closing one channel after another closes each. -/
theorem sessClose_each {p status closeStatus : Nat} (l : List Nat) (hl : ∀ c ∈ l, c < 8) (s : State) :
    ∀ c ∈ l, (sessGet (eachIn l (fun s c => sessClose s p c status closeStatus) s) p c).state = .closed := by
  induction l generalizing s with
  | nil => simp
  | cons a l ih =>
    have hrest : ∀ c ∈ l, c < 8 := fun c hc => hl c (List.mem_cons_of_mem a hc)
    intro c hc
    rcases List.mem_cons.mp hc with rfl | hc
    · exact ((PlaceKept.refl p _).each fun t k hk => (PlaceKept.refl p t).sessClose (hrest k hk)).shut c (sessClose_closed ..)
    · exact ih hrest _ c hc

/-- The waiting MBX_ABORT jobs of a port complete (R416). -/
def abortsDone (s : State) (p : Nat) : State := eachIn (portGet s p).ctl (fun s f => f.job.elim s fun j => jobDone s j stOk 0) s

theorem sessionsEnd_eq (s : State) (p : Nat) :
    sessionsEnd s p = portMod (abortsDone (eachIn (List.range 8) (fun s c => sessClose s p c stMbxEpochEnd stMbxEpochEnd) s) p) p fun y => { y with ctl := [] } := by
  have hjob : (fun (s : State) (f : CtlFrame) => f.job.elim s fun j => jobDone s j stOk 0) = fun s f => match f.job with
      | some j => jobDone s j stOk 0
      | none => s := by
    funext s f
    cases f.job <;> rfl
  unfold sessionsEnd abortsDone
  exact hjob ▸ rfl

theorem abortsDone_kept (s : State) (p : Nat) : PlaceKept p s (abortsDone s p) :=
  (PlaceKept.refl p s).each fun t _ _ => (PlaceKept.refl p t).elim fun _ => (PlaceKept.refl p t).jobDone

theorem sessionsEnd_kept (s : State) (p : Nat) : PlaceKept p s (sessionsEnd s p) := by
  rw [sessionsEnd_eq]
  have hclosed : PlaceKept p s (eachIn (List.range 8) (fun s c => sessClose s p c stMbxEpochEnd stMbxEpochEnd) s) :=
    (PlaceKept.refl p s).each fun t c hc => (PlaceKept.refl p t).sessClose (List.mem_range.mp hc)
  exact (hclosed.trans (abortsDone_kept _ p)).dropCtl

/-- Every session of the port has ended. -/
theorem sessionsEnd_closed (s : State) (p : Nat) {c : Nat} (hc : c < 8) : (sessGet (sessionsEnd s p) p c).state = .closed := by
  rw [sessionsEnd_eq]
  have hclosed := sessClose_each (p := p) (status := stMbxEpochEnd) (closeStatus := stMbxEpochEnd) (List.range 8) (fun _ h => List.mem_range.mp h) s c (List.mem_range.mpr hc)
  exact (abortsDone_kept _ p).dropCtl.shut c hclosed

/-! ### The current epoch -/

theorem setCurrent_pages (s : State) (p : Nat) (e : Option Nat) : PagesOnly (· = pgClnk + p) s (setCurrent s p e) :=
  (PlaceKept.refl p s).haltNow.pages.portMod.fset rfl (by decide)

theorem setCurrent_fieldsBut (s : State) (p : Nat) (e : Option Nat) :
    FieldsBut mbxOffs (F.LNK_STAT_EPOCH :: haltCounts) (pgClnk + p) s (setCurrent s p e) :=
  ((PlaceKept.refl p s).haltNow.fields.mono (List.Subset.refl _) (List.subset_cons_self ..)).portMod.fset (by simp) (by decide)

theorem setCurrent_port (s : State) (p : Nat) (e : Option Nat) : portGet (setCurrent s p e) p = { portGet (haltNow s p) p with current := e } := by
  unfold setCurrent
  rw [portGet_linkStat, portGet_portMod_same]

/-- LNK_STAT shows the current epoch. -/
theorem setCurrent_epoch (s : State) (p : Nat) (e : Option Nat) : (setCurrent s p e).fget (pgClnk + p) F.LNK_STAT_EPOCH = e.getD 0 % 2 ^ 16 :=
  fget_fset_same _ _ _ _ (by decide)

/-! ### The end of an epoch -/

/-- The sessions of a current epoch end. -/
def sessionsOver (s : State) (p : Nat) : State := if (portGet s p).current.isSome then sessionsEnd s p else s

/-- A port without an epoch, and without an E. -/
def LinkPort.cleared (x : LinkPort) : LinkPort :=
  { x with current := none, enumE := none, caps := none, enumFrame := none, leakAt := none, fresh := [] }

/-- The current epoch and the E of a port are cleared. -/
def epochCleared (s : State) (p : Nat) : State :=
  portMod (setCurrent (sessionsOver s p) p none) p fun x => { x with enumE := none, caps := none, enumFrame := none, leakAt := none, fresh := [] }

/-- LNK_CAUSE and its interrupt for an epoch that has ended. -/
def causeShown (s : State) (p cause e : Nat) : State :=
  pageIrq (s.setReg (pgClnk + p) F.LNK_CAUSE_CAUSE.off (BitVec.ofNat 32 (cause + e * 2 ^ 16))) (pgClnk + p) 2

/-- The end of an epoch clears it, and shows the cause where there was a current epoch or an E. -/
theorem endEpoch_eq (s : State) (p cause : Nat) :
    endEpoch s p cause = ((portGet s p).current <|> (portGet s p).enumE).elim (epochCleared s p) (causeShown (epochCleared s p) p cause) := by
  unfold endEpoch epochCleared sessionsOver
  dsimp only
  cases (portGet s p).current <;> cases (portGet s p).enumE <;> rfl

theorem sessionsOver_kept (s : State) (p : Nat) : PlaceKept p s (sessionsOver s p) := by
  unfold sessionsOver
  split
  · exact sessionsEnd_kept s p
  · exact .refl p s

/-- What the end of an epoch leaves: the port without epoch and E, and beside what HALTs and sessions write only LNK_STAT.EPOCH, LNK_CAUSE and the
causes of the page. -/
structure EpochOver (p : Nat) (s t : State) : Prop where
  pages : PagesOnly (· = pgClnk + p) s t
  fields : FieldsBut (F.PG_IRQ_STAT_ERR.off :: F.LNK_CAUSE_CAUSE.off :: mbxOffs) (F.LNK_STAT_EPOCH :: haltCounts) (pgClnk + p) s t
  port : portGet t p = ((portGet s p).withTraffic (portGet t p)).cleared

theorem epochCleared_port (s : State) (p : Nat) : portGet (epochCleared s p) p = (portGet (haltNow (sessionsOver s p) p) p).cleared := by
  rw [epochCleared, portGet_portMod_same, setCurrent_port]
  rfl

@[simp] theorem portGet_causeShown (s : State) (p cause e k : Nat) : portGet (causeShown s p cause e) k = portGet s k := by
  rw [causeShown, portGet_pageIrq, portGet_setReg]

theorem epochCleared_over (s : State) (p : Nat) : EpochOver p s (epochCleared s p) where
  pages := ((sessionsOver_kept s p).pages.trans (setCurrent_pages _ p none)).portMod
  fields := by
    have hsessions := (sessionsOver_kept s p).fields.mono (List.Subset.refl _) (List.subset_cons_self F.LNK_STAT_EPOCH haltCounts)
    exact ((hsessions.trans (setCurrent_fieldsBut _ p none)).mono (fun o ho => by simp [ho]) (List.Subset.refl _)).portMod
  port := by
    rw [epochCleared_port, (sessionsOver_kept s p).haltNow.port]
    rfl

theorem causeShown_over {p : Nat} {s t : State} (cause e : Nat) (h : EpochOver p s t) : EpochOver p s (causeShown t p cause e) where
  pages := (h.pages.setReg rfl (by decide)).pageIrq rfl
  fields := (h.fields.setReg (by simp) (by decide)).pageIrq (by simp)
  port := by
    rw [portGet_causeShown]
    exact h.port

theorem endEpoch_over (s : State) (p cause : Nat) : EpochOver p s (endEpoch s p cause) := by
  have hclear := epochCleared_over s p
  rw [endEpoch_eq]
  cases ((portGet s p).current <|> (portGet s p).enumE) with
  | none => exact hclear
  | some e => exact causeShown_over cause e hclear

/-- LNK_CAUSE takes the cause and the epoch that has ended. -/
theorem endEpoch_cause {s : State} {p cause e : Nat} (hc : cause < 16) (he : (portGet s p).current = some e) :
    (endEpoch s p cause).fget (pgClnk + p) F.LNK_CAUSE_CAUSE = cause ∧ (endEpoch s p cause).fget (pgClnk + p) F.LNK_CAUSE_EPOCH = e % 2 ^ 16 := by
  have hends : endEpoch s p cause = causeShown (epochCleared s p) p cause e := by
    rw [endEpoch_eq, he]
    rfl
  have hword : ∀ f : Fld, f.off = F.LNK_CAUSE_CAUSE.off → (causeShown (epochCleared s p) p cause e).fget (pgClnk + p) f =
      bitsOf (BitVec.ofNat 32 (cause + e * 2 ^ 16)) f.lo f.wid := fun f hf => by
    rw [causeShown, pageIrq_fget _ _ _ (by rw [hf]; decide) (by rw [hf]; decide), State.fget, hf, reg_setReg_same]
  rw [hends, hword F.LNK_CAUSE_CAUSE rfl, hword F.LNK_CAUSE_EPOCH rfl]
  simp only [bitsOf, BitVec.toNat_ofNat, Nat.shiftRight_eq_div_pow]
  omega

/-- The sessions of the epoch that has ended are closed. -/
theorem endEpoch_closed {s : State} {p cause e c : Nat} (he : (portGet s p).current = some e) (hc : c < 8) :
    (sessGet (endEpoch s p cause) p c).state = .closed := by
  have hover : (sessGet (haltNow (sessionsOver s p) p) p c).state = .closed := by
    refine (PlaceKept.refl p _).haltNow.shut c ?_
    rw [sessionsOver, he]
    exact sessionsEnd_closed s p hc
  have hchans : (portGet (endEpoch s p cause) p).chans = (portGet (haltNow (sessionsOver s p) p) p).chans := by
    rw [endEpoch_eq, he]
    refine (congrArg LinkPort.chans (portGet_causeShown ..)).trans ?_
    rw [epochCleared_port]
    rfl
  rw [sessGet, hchans]
  exact hover

end Sys2Proof.Machine
end

section
/-! SUPPORT. Limbs plugged in and out, sync and enumeration of a CriskaLink port (R361, R365, R367 to R373, R394): what each command leaves. -/

namespace Sys2Proof.Machine

/-! ### PRES_N -/

section Live
variable {s : State} {p : Nat} (hd : portDead s p = false)
include hd

theorem execPresNLow_live : execPresNLow p s =
    let u := portMod s p fun x => { x with presN := false, unplugAt := none }
    .next (if linkState s p = lkDown then toDetect u p else u) := by
  unfold execPresNLow
  rw [if_pos (portBuilt_of_live hd)]
  exact congrArg nxt (if_neg fun h => Bool.false_ne_true (hd.symm.trans h))

theorem presNLow_fromDown (hst : linkState s p = lkDown) : ∃ t, execPresNLow p s = .next t ∧ LinkOnly s t ∧ PagesOnly (linkPages p) s t ∧
    linkState t p = lkDetect ∧ (portGet t p).presN = false ∧ (portGet t p).plugAt = some s.now := by
  refine ⟨_, (execPresNLow_live hd).trans (congrArg nxt (if_pos hst)), (LinkOnly.refl s).portMod.trans (toDetect_linkOnly _ p),
    (PagesOnly.refl _ s).portMod.trans (toDetect_pages _ p), toDetect_state _ (port_lt hd), ?_⟩
  rw [toDetect_port, portGet_portMod_same]
  exact ⟨rfl, rfl⟩

theorem presNLow_elsewhere (hst : linkState s p ≠ lkDown) : ∃ t, execPresNLow p s = .next t ∧ t = { s with clnk := t.clnk } ∧
    portGet t p = { portGet s p with presN := false, unplugAt := none } :=
  ⟨_, (execPresNLow_live hd).trans (congrArg nxt (if_neg hst)), rfl, portGet_portMod_same ..⟩

theorem execPresNHigh_live (hst : linkState s p ≠ lkDown) : execPresNHigh p s =
    let u := portMod s p fun x => { x with presN := true }
    .next (if linkState s p = lkDetect ∧ ¬ s.fbit (pgClnk + p) F.LNK_STAT_PRES then linkEnter u p lkDown
      else portMod u p fun x => { x with unplugAt := x.unplugAt.getD s.now }) := by
  have hdead : ¬ (portDead (portMod s p fun x => { x with presN := true }) p = true ∨ linkState s p = lkDown) := by
    rintro (h | h)
    · exact absurd (hd.symm.trans h) Bool.false_ne_true
    · exact hst h
  unfold execPresNHigh
  rw [if_pos (portBuilt_of_live hd)]
  exact congrArg nxt (if_neg hdead)

theorem presNHigh_inDetect (hst : linkState s p = lkDetect) (hpres : s.fbit (pgClnk + p) F.LNK_STAT_PRES = false) :
    ∃ t, execPresNHigh p s = .next t ∧ PagesOnly (linkPages p) s t ∧ linkState t p = lkDown ∧ (portGet t p).presN = true ∧ (portGet t p).plugAt = none := by
  refine ⟨_, (execPresNHigh_live hd (by rw [hst]; decide)).trans (congrArg nxt (if_pos ⟨hst, by simp [hpres]⟩)),
    (PagesOnly.refl _ s).portMod.trans (linkEnter_pages _ lkDown), linkEnter_state _ lkDown (port_lt hd) (by decide), ?_⟩
  rw [linkEnter_port, portGet_portMod_same]
  exact ⟨rfl, rfl⟩

theorem presNHigh_elsewhere (hdown : linkState s p ≠ lkDown) (hdetect : linkState s p ≠ lkDetect) :
    ∃ t, execPresNHigh p s = .next t ∧ t = { s with clnk := t.clnk } ∧
      portGet t p = { portGet s p with presN := true, unplugAt := some ((portGet s p).unplugAt.getD s.now) } := by
  refine ⟨_, (execPresNHigh_live hd hdown).trans (congrArg nxt (if_neg fun h => hdetect h.1)), rfl, ?_⟩
  rw [portGet_portMod_same, portGet_portMod_same]

end Live

/-! ### T_PLUG -/

theorem reach_fieldsBut (offs : List Nat) (ws : List Fld) (q : Nat) (s : State) (n : Nat) : FieldsBut offs ws q s (s.reach n) := fun _ _ => reach_fget ..

/-- T_PLUG has expired with a limb there: the port shows it. -/
def limbShown (s : State) (p : Nat) : State :=
  linkGlobal (linkStat (portMod s p fun x => { x with plugAt := none }) p F.LNK_STAT_PRES 1) F.GLNK_PRES p true

theorem limbShown_pages (s : State) (p : Nat) : PagesOnly (linkPages p) s (limbShown s p) :=
  ((PagesOnly.refl _ s).portMod.fset (.inl rfl) (by decide)).fset (.inr rfl) (by decide)

theorem limbShown_fieldsBut (s : State) {p : Nat} (hp : p < 8) : FieldsBut [] [F.LNK_STAT_PRES] (pgClnk + p) s (limbShown s p) :=
  ((FieldsBut.refl _ _ _ s).portMod.fset (by simp) (by decide)).fset_ne (clnkPage_ne_global hp) (by decide)

theorem limbShown_global (s : State) {p : Nat} (hp : p < 8) : natBit ((limbShown s p).fget pgClnkG F.GLNK_PRES) p = true :=
  linkGlobal_shows _ true hp (by decide)

theorem limbShown_pres (s : State) {p : Nat} (hp : p < 8) : (limbShown s p).fbit (pgClnk + p) F.LNK_STAT_PRES = true := by
  have hne := clnkPage_ne_global hp
  rw [limbShown, linkGlobal, State.fbit, fget_fset_ne _ _ _ _ (by simp; omega), linkStat, fget_fset_same _ _ _ _ (by decide)]
  rfl

theorem limbShown_port (s : State) (p : Nat) : portGet (limbShown s p) p = { portGet s p with plugAt := none } := by
  rw [limbShown, portGet_linkGlobal, portGet_linkStat, portGet_portMod_same]

theorem execTPlugExpiry_detects {s : State} {p t0 : Nat} (hd : portDead s p = false) (ht : (portGet s p).plugAt = some t0)
    (hn : (portGet s p).presN = false) (hst : linkState s p = lkDetect) :
    execTPlugExpiry p s = .next (detectDone (limbShown (s.reach (t0 + tPlug)) p) p) := by
  unfold execTPlugExpiry
  dsimp only
  rw [ht]
  exact congrArg nxt (if_neg (by simp [hd, hn, hst]))

/-- An enabled port whose receiver is out of sync goes on to SYNC, with an interrupt. -/
theorem detectDone_syncs {s : State} {p : Nat} (hp : p < 8) (he : s.fbit (pgClnk + p) F.PG_CTRL_ENABLE = true)
    (hs : s.fbit (pgClnk + p) F.LNK_STAT_SYNC = false) : detectDone s p = syncing (pageIrq s (pgClnk + p) 4) p := by
  have hout : (pageIrq s (pgClnk + p) 4).fbit (pgClnk + p) F.LNK_STAT_SYNC = false :=
    (congrArg (· != 0) (pageIrq_fget s _ 4 (by decide) (by decide))).trans hs
  exact (if_pos he).trans (toSync_waits hp hout)

theorem detectDone_held {s : State} {p : Nat} (he : s.fbit (pgClnk + p) F.PG_CTRL_ENABLE = false) : detectDone s p = s :=
  if_neg (by simp [he])

/-- Where the port goes on or is held, the limb is shown as it was, and T_PLUG has stopped where it had. -/
theorem detectDone_shows (s : State) {p : Nat} (hp : p < 8) :
    PagesOnly (linkPages p) s (detectDone s p) ∧ (detectDone s p).fbit (pgClnk + p) F.LNK_STAT_PRES = s.fbit (pgClnk + p) F.LNK_STAT_PRES ∧
      (detectDone s p).fget pgClnkG F.GLNK_PRES = s.fget pgClnkG F.GLNK_PRES ∧
      ((portGet s p).plugAt = none → (portGet (detectDone s p) p).plugAt = none) := by
  unfold detectDone
  split
  · refine ⟨((PagesOnly.refl _ s).pageIrq (.inl rfl)).trans (toSync_pages _ p), ?_, ?_, fun _ => toSync_plugAt _ p⟩
    · exact ((toSync_fieldsBut _ hp).fbit (by decide)).trans (congrArg (· != 0) (pageIrq_fget s _ 4 (by decide) (by decide)))
    · rw [toSync_globalPres _ hp, pageIrq_fget s _ 4 (by decide) (by decide)]
  · exact ⟨.refl _ s, rfl, rfl, id⟩

theorem tPlug_expires {s : State} {p t0 : Nat} (hd : portDead s p = false) (ht : (portGet s p).plugAt = some t0)
    (hn : (portGet s p).presN = false) (hst : linkState s p = lkDetect) :
    ∃ t, execTPlugExpiry p s = .next t ∧ PagesOnly (linkPages p) s t ∧ t.fbit (pgClnk + p) F.LNK_STAT_PRES = true ∧
      natBit (t.fget pgClnkG F.GLNK_PRES) p = true ∧ (portGet t p).plugAt = none ∧
      (s.fbit (pgClnk + p) F.PG_CTRL_ENABLE = false → linkState t p = lkDetect) ∧
      (s.fbit (pgClnk + p) F.PG_CTRL_ENABLE = true → s.fbit (pgClnk + p) F.LNK_STAT_SYNC = false →
        linkState t p = lkSync ∧ (portGet t p).syncAt = some t.now) := by
  have hp := port_lt hd
  obtain ⟨hpages, hpres, hglobal, hplug⟩ := detectDone_shows (limbShown (s.reach (t0 + tPlug)) p) hp
  have hfields : FieldsBut [] [F.LNK_STAT_PRES] (pgClnk + p) s (limbShown (s.reach (t0 + tPlug)) p) :=
    (reach_fieldsBut _ _ _ s _).trans (limbShown_fieldsBut _ hp)
  refine ⟨_, execTPlugExpiry_detects hd ht hn hst, ((reach_pages _ s _).trans (limbShown_pages _ p)).trans hpages,
    hpres.trans (limbShown_pres _ hp), ?_, hplug (by rw [limbShown_port]), fun he => ?held, fun he hs => ?syncs⟩
  · rw [hglobal, limbShown_global _ hp]
  case held =>
    rw [detectDone_held ((hfields.fbit (by decide)).trans he), linkState, hfields.fget (by decide)]
    exact hst
  case syncs =>
    rw [detectDone_syncs hp ((hfields.fbit (by decide)).trans he) ((hfields.fbit (by decide)).trans hs)]
    exact ⟨syncing_state _ hp, syncing_syncAt _ p⟩

/-! ### T_UNPLUG and T_SYNC -/

theorem tUnplug_expires {s : State} {p t0 e : Nat} (hd : portDead s p = false) (ht : (portGet s p).unplugAt = some t0)
    (hn : (portGet s p).presN = true) (he : (portGet s p).current = some e) :
    ∃ t, execTUnplugExpiry p s = .next t ∧ PagesOnly (linkPages p) s t ∧ linkState t p = lkDown ∧ (portGet t p).current = none ∧
      (t.fget (pgClnk + p) F.LNK_CAUSE_CAUSE = 1 ∧ t.fget (pgClnk + p) F.LNK_CAUSE_EPOCH = e % 2 ^ 16) ∧
      t.fbit (pgClnk + p) F.LNK_STAT_PRES = false ∧ ∀ c, c < 8 → (sessGet t p c).state = .closed := by
  have hp := port_lt hd
  have hacts : execTUnplugExpiry p s = .next (linkEnter (endEpoch (s.reach (t0 + tUnplug)) p eeUnplug) p lkDown) := by
    unfold execTUnplugExpiry
    dsimp only
    rw [ht]
    exact congrArg nxt (if_neg (by simp [hd, hn]))
  have he' : (portGet (s.reach (t0 + tUnplug)) p).current = some e := by rw [portGet_reach, he]
  have hover := endEpoch_over (s.reach (t0 + tUnplug)) p eeUnplug
  obtain ⟨hcause, hepoch⟩ := endEpoch_cause (cause := eeUnplug) (by decide) he'
  have hfields := linkEnter_fieldsBut (endEpoch (s.reach (t0 + tUnplug)) p eeUnplug) lkDown hp
  have hport := linkEnter_port (p := p) (endEpoch (s.reach (t0 + tUnplug)) p eeUnplug) lkDown
  refine ⟨_, hacts, ((reach_pages _ s _).trans (hover.pages.mono fun _ h => .inl h)).trans (linkEnter_pages _ lkDown),
    linkEnter_state _ lkDown hp (by decide), ?_, ⟨(hfields.fget (by decide)).trans hcause, (hfields.fget (by decide)).trans hepoch⟩,
    linkEnter_down_pres _ hp, fun c hc => ?_⟩
  · rw [hport, hover.port]
    rfl
  · rw [sessGet, hport]
    exact endEpoch_closed he' hc

theorem tSync_expires {s : State} {p t0 : Nat} (hd : portDead s p = false) (ht : (portGet s p).syncAt = some t0) (hst : linkState s p = lkSync)
    (hv : s.fbit (pgClnk + p) F.PG_ERR0_VALID = false) :
    ∃ t, execTSyncExpiry p s = .next t ∧ linkState t p = lkBackoff ∧ (portGet t p).backoffAt = some t.now ∧
      t.fget (pgClnk + p) F.PG_ERR0_CODE = 0x0B00 ∧
      t.fget (pgClnk + p) (linkCntF 12) = min (s.fget (pgClnk + p) (linkCntF 12) + 1) 0xFFFF := by
  have hp := port_lt hd
  have hacts : execTSyncExpiry p s = .next (toBackoff (linkCount (capture (s.reach (t0 + tSync)) (pgClnk + p) 0x0B00 0 0) p 12) p) := by
    unfold execTSyncExpiry
    rw [ht]
    exact congrArg nxt (if_neg (by simp [hd, hst]))
  have hcount := linkCount_fieldsBut (capture (s.reach (t0 + tSync)) (pgClnk + p) 0x0B00 0 0) p (k := 12) (by decide) (pgClnk + p)
  have hback := toBackoff_fieldsBut (linkCount (capture (s.reach (t0 + tSync)) (pgClnk + p) 0x0B00 0 0) p 12) hp
  refine ⟨_, hacts, toBackoff_state _ hp, toBackoff_backoffAt _ p, ?_, ?_⟩
  · rw [hback.fget (by decide), hcount.fget (by decide)]
    exact (capture_shows 0 0 ((reach_fbit ..).trans hv) (by decide)).2
  · rw [hback.fget (by decide), linkCount_same, (capture_fieldsBut _ _ _ (clnkPage_ne_part p)).fget (by decide), reach_fget]

/-! ### T_ENUM -/

theorem execTEnumExpiry_enum {s : State} {p t0 : Nat} (hd : portDead s p = false) (ht : (portGet s p).enumAt = some t0) (hst : linkState s p = lkEnum)
    (hc : (portGet s p).caps = none) : execTEnumExpiry p s =
      let u := s.reach (t0 + tEnum)
      .next (if (portGet s p).assigns < 3 then queueAssign u p true
        else toBackoff (endEpoch (capture u (pgClnk + p) 0x0B01 0 ((portGet s p).enumE.getD 0)) p eeEnumFail) p) := by
  unfold execTEnumExpiry
  dsimp only
  rw [ht]
  dsimp only
  rw [if_neg (by simp [hd, hst]), hc]
  simp

theorem queueAssign_port (s : State) (p : Nat) : portGet (queueAssign s p true) p = { portGet s p with
    assigns := (portGet s p).assigns + 1, enumAt := none,
    enumFrame := some { typ := 5, chan := 2, data := leBytes 8 ((portGet s p).enumE.getD 0 + 0x0100 * 2 ^ 16 + p * 2 ^ 32) } } :=
  portGet_portMod_same ..

theorem tEnum_repeats {s : State} {p t0 : Nat} (hd : portDead s p = false) (ht : (portGet s p).enumAt = some t0) (hst : linkState s p = lkEnum)
    (hc : (portGet s p).caps = none) (ha : (portGet s p).assigns < 3) :
    ∃ t, execTEnumExpiry p s = .next t ∧ t = { s with time := t.time, clnk := t.clnk } ∧ (portGet t p).assigns = (portGet s p).assigns + 1 ∧
      (portGet t p).enumFrame.map (fun f => (f.typ, f.chan)) = some (5, 2) := by
  refine ⟨_, (execTEnumExpiry_enum hd ht hst hc).trans (congrArg nxt (if_pos ha)), ?_, ?_⟩
  · rw [reach_shape]
    rfl
  · rw [queueAssign_port, portGet_reach]
    exact ⟨rfl, rfl⟩

theorem tEnum_fails {s : State} {p t0 : Nat} (hd : portDead s p = false) (ht : (portGet s p).enumAt = some t0) (hst : linkState s p = lkEnum)
    (hc : (portGet s p).caps = none) (ha : 3 ≤ (portGet s p).assigns) (hv : s.fbit (pgClnk + p) F.PG_ERR0_VALID = false) :
    ∃ t, execTEnumExpiry p s = .next t ∧ linkState t p = lkBackoff ∧ t.fget (pgClnk + p) F.PG_ERR0_CODE = 0x0B01 ∧ (portGet t p).enumE = none := by
  have hp := port_lt hd
  have hover := endEpoch_over (capture (s.reach (t0 + tEnum)) (pgClnk + p) 0x0B01 0 ((portGet s p).enumE.getD 0)) p eeEnumFail
  refine ⟨_, (execTEnumExpiry_enum hd ht hst hc).trans (congrArg nxt (if_neg (by omega))), toBackoff_state _ hp, ?_, ?_⟩
  · rw [(toBackoff_fieldsBut _ hp).fget (by decide), hover.fields.fget (by decide)]
    exact (capture_shows 0 _ ((reach_fbit ..).trans hv) (by decide)).2
  · rw [toBackoff_port, hover.port]
    rfl

/-! ### SYNC begins -/

theorem tBackoff_expires {s : State} {p t0 : Nat} (hd : portDead s p = false) (ht : (portGet s p).backoffAt = some t0) (hst : linkState s p = lkBackoff)
    (hs : s.fbit (pgClnk + p) F.LNK_STAT_SYNC = false) :
    ∃ t, execTBackoffExpiry p s = .next t ∧ PagesOnly (linkPages p) s t ∧ linkState t p = lkSync ∧ (portGet t p).syncAt = some t.now := by
  have hp := port_lt hd
  have hacts : execTBackoffExpiry p s = .next (toSync (s.reach (t0 + tBackoff)) p) := by
    unfold execTBackoffExpiry
    rw [ht]
    exact congrArg nxt (if_neg (by simp [hd, hst]))
  rw [toSync_waits hp ((reach_fbit ..).trans hs)] at hacts
  exact ⟨_, hacts, (reach_pages _ s _).trans (syncing_pages _ p), syncing_state _ hp, syncing_syncAt _ p⟩

/-- A status field that is written leaves the state of the port. -/
theorem linkState_linkStat (s : State) (p : Nat) {f : Fld} (v : Nat) (hf : Apart F.LNK_STAT_STATE f) : linkState (linkStat s p f v) p = linkState s p :=
  fget_fset_apart s _ v hf

theorem syncAcquired_acts {s : State} {p : Nat} (hd : portDead s p = false) :
    ∃ t, execRxSyncAcquired p s = .next t ∧ PagesOnly (linkPages p) s t ∧ t.fbit (pgClnk + p) F.LNK_STAT_SYNC = true ∧
      (linkState s p ≠ lkSync → linkState t p = linkState s p ∧ t.clnk = s.clnk) ∧
      (linkState s p = lkSync → (portGet s p).current = none → Enumerates p (portGet s p).counter t) := by
  have hp := port_lt hd
  have hacts : execRxSyncAcquired p s =
      let u := linkStat s p F.LNK_STAT_SYNC 1
      .next (if linkState s p = lkSync then startEnum u p else u) := by
    unfold execRxSyncAcquired
    rw [if_neg (by simp [hd])]
    dsimp only
    rw [linkState_linkStat s p 1 (by decide)]
  have hpages : PagesOnly (linkPages p) s (linkStat s p F.LNK_STAT_SYNC 1) := (PagesOnly.refl _ s).fset (.inl rfl) (by decide)
  have hsync : (linkStat s p F.LNK_STAT_SYNC 1).fbit (pgClnk + p) F.LNK_STAT_SYNC = true := fbit_fset_same s _ true rfl (by decide)
  by_cases hst : linkState s p = lkSync
  · exact ⟨_, hacts.trans (congrArg nxt (if_pos hst)), hpages.trans (startEnum_pages _ p), ((startEnum_fieldsBut _ hp).fbit (by decide)).trans hsync,
      fun h => absurd hst h, fun _ hc => startEnum_enumerates _ hp hc⟩
  · exact ⟨_, hacts.trans (congrArg nxt (if_neg hst)), hpages, hsync, fun _ => ⟨linkState_linkStat s p 1 (by decide), rfl⟩, fun h => absurd h hst⟩

/-! ### The current epoch ends -/

/-- A port whose epoch ends and that enumerates again: the next epoch, the cause of the end, and every other field as before. -/
theorem endEpoch_startEnum {s : State} {p cause e : Nat} (hp : p < 8) (hc : cause < 16) (he : (portGet s p).current = some e) :
    let t := startEnum (endEpoch s p cause) p
    PagesOnly (linkPages p) s t ∧ Enumerates p (portGet s p).counter t ∧
      (t.fget (pgClnk + p) F.LNK_CAUSE_CAUSE = cause ∧ t.fget (pgClnk + p) F.LNK_CAUSE_EPOCH = e % 2 ^ 16) ∧
      FieldsBut (F.PG_IRQ_STAT_ERR.off :: F.LNK_CAUSE_CAUSE.off :: mbxOffs) (enterFields lkEnum ++ F.LNK_STAT_EPOCH :: haltCounts) (pgClnk + p) s t := by
  have hover := endEpoch_over s p cause
  have henum := startEnum_fieldsBut (endEpoch s p cause) hp
  obtain ⟨hcause, hepoch⟩ := endEpoch_cause hc he
  refine ⟨(hover.pages.mono fun _ h => .inl h).trans (startEnum_pages _ p), ?_, ⟨(henum.fget (by decide)).trans hcause, (henum.fget (by decide)).trans hepoch⟩, ?_⟩
  · have hport : (portGet (endEpoch s p cause) p).counter = (portGet s p).counter ∧ (portGet (endEpoch s p cause) p).current = none := by
      rw [hover.port]
      exact ⟨rfl, rfl⟩
    rw [← hport.1]
    exact startEnum_enumerates _ hp hport.2
  · exact (hover.fields.mono (List.Subset.refl _) (List.subset_append_right ..)).trans (henum.mono (List.nil_subset _) (List.subset_append_left ..))

theorem runWrite_pages (s : State) (p : Nat) (on : Bool) : PagesOnly (linkPages p) s (runWrite s p on) :=
  (PagesOnly.refl _ s).portMod.fset (.inl rfl) (by decide)

theorem runWrite_fieldsBut (s : State) (p : Nat) (on : Bool) (q : Nat) : FieldsBut [] [F.LNK_CTRL_RUN_EN] q s (runWrite s p on) :=
  (FieldsBut.refl _ _ q s).portMod.fset (by simp) (by decide)

theorem runWrite_runEn (s : State) (p : Nat) (on : Bool) : (runWrite s p on).fget (pgClnk + p) F.LNK_CTRL_RUN_EN = b2n on := by
  rw [runWrite, fget_fset_same _ _ _ _ (by decide)]
  cases on <;> rfl

theorem runWrite_epoch (s : State) (p : Nat) (on : Bool) :
    (portGet (runWrite s p on) p).current = (portGet s p).current ∧ (portGet (runWrite s p on) p).counter = (portGet s p).counter := by
  unfold runWrite
  dsimp only
  rw [portGet_fset, portGet_portMod_same]
  exact ⟨rfl, rfl⟩

theorem portDead_runWrite (s : State) (p : Nat) (on : Bool) : portDead (runWrite s p on) p = portDead s p := by
  have hstate : linkState (runWrite s p on) p = linkState s p := (runWrite_fieldsBut s p on _).fget (by decide)
  have hup : islandsUp (runWrite s p on) = islandsUp s := by
    rw [islandsUp, (runWrite_fieldsBut s p on pgChip).fget (by decide), ← islandsUp]
  rw [portDead, hstate, hup]
  rfl

theorem relink_restarts {s : State} {part p e : Nat} {data : Word} (hd : portDead s p = false) (hw : Writable s part (pgClnk + p))
    (hst : linkState s p = lkUp) (he : (portGet s p).current = some e) :
    ∃ t, execRelink part p data s = .next t ∧ PagesOnly (linkPages p) s t ∧ Enumerates p (portGet s p).counter t ∧
      (t.fget (pgClnk + p) F.LNK_CAUSE_CAUSE = 5 ∧ t.fget (pgClnk + p) F.LNK_CAUSE_EPOCH = e % 2 ^ 16) ∧
      t.fget (pgClnk + p) F.LNK_CTRL_RUN_EN = b2n (data.getLsbD 0) := by
  have hp := port_lt hd
  have hbits : (data ||| 2).getLsbD 0 = data.getLsbD 0 ∧ (data ||| 2).getLsbD 1 = true := by simp
  have hstate : linkState (runWrite s p (data.getLsbD 0)) p = lkUp := ((runWrite_fieldsBut s p _ _).fget (by decide)).trans hst
  have hrelink : relink (runWrite s p (data.getLsbD 0)) p = startEnum (endEpoch (runWrite s p (data.getLsbD 0)) p eeHost) p := by
    unfold relink
    dsimp only
    rw [if_neg (by simp [portDead_runWrite, hd]), if_pos (.inr (.inl hstate))]
  have hacts : execRelink part p data s = .next (startEnum (endEpoch (runWrite s p (data.getLsbD 0)) p eeHost) p) := by
    rw [execRelink, pageWrite_acts _ hw, linkCtrlWrite, hbits.1, if_pos hbits.2, hrelink]
  obtain ⟨hcurrent, hcounter⟩ := runWrite_epoch s p (data.getLsbD 0)
  obtain ⟨hpages, henum, hcause, hfields⟩ := endEpoch_startEnum (s := runWrite s p (data.getLsbD 0)) (cause := eeHost) hp (by decide) (hcurrent.trans he)
  rw [hcounter] at henum
  exact ⟨_, hacts, (runWrite_pages s p _).trans hpages, henum, hcause, (hfields.fget (by decide)).trans (runWrite_runEn s p _)⟩

/-- The receiver of a port is out of sync, which counts (R361, R394). -/
def outOfSync (s : State) (p : Nat) : State := linkCount (linkStat s p F.LNK_STAT_SYNC 0) p 12

theorem syncLost_ends {s : State} {p e : Nat} (hh : portHears s p = true) (hst : linkState s p = lkUp) (he : (portGet s p).current = some e) :
    ∃ t, execRxSyncLost p s = .next t ∧ PagesOnly (linkPages p) s t ∧ linkState t p = lkSync ∧ t.fbit (pgClnk + p) F.LNK_STAT_SYNC = false ∧
      (portGet t p).current = none ∧ (t.fget (pgClnk + p) F.LNK_CAUSE_CAUSE = 2 ∧ t.fget (pgClnk + p) F.LNK_CAUSE_EPOCH = e % 2 ^ 16) ∧
      t.fget (pgClnk + p) (linkCntF 12) = min (s.fget (pgClnk + p) (linkCntF 12) + 1) 0xFFFF := by
  have hp := port_lt (live_of_portHears hh)
  have hu : FieldsBut [] [linkCntF 12] (pgClnk + p) (linkStat s p F.LNK_STAT_SYNC 0) (outOfSync s p) := linkCount_fieldsBut _ p (by decide) _
  have hstate : linkState (outOfSync s p) p = lkUp := (hu.fget (by decide)).trans ((linkState_linkStat s p 0 (by decide)).trans hst)
  have hover := endEpoch_over (outOfSync s p) p eeSyncLoss
  have hsync : (endEpoch (outOfSync s p) p eeSyncLoss).fbit (pgClnk + p) F.LNK_STAT_SYNC = false := by
    rw [hover.fields.fbit (by decide), hu.fbit (by decide)]
    exact fbit_fset_same s _ false rfl (by decide)
  have hacts : execRxSyncLost p s = .next (syncing (endEpoch (outOfSync s p) p eeSyncLoss) p) := by
    unfold execRxSyncLost
    rw [if_neg (by simp [hh])]
    exact congrArg nxt ((if_pos (.inr (.inl hstate))).trans (toSync_waits hp hsync))
  have hfields := syncing_fieldsBut (endEpoch (outOfSync s p) p eeSyncLoss) hp
  have hpages : PagesOnly (linkPages p) s (outOfSync s p) := ((PagesOnly.refl _ s).fset (.inl rfl) (by decide)).trans ((linkCount_pages _ p (by decide)).mono fun _ h => .inl h)
  obtain ⟨hcause, hepoch⟩ := endEpoch_cause (s := outOfSync s p) (p := p) (cause := eeSyncLoss) (by decide) he
  refine ⟨_, hacts, (hpages.trans (hover.pages.mono fun _ h => .inl h)).trans (syncing_pages _ p), syncing_state _ hp, (hfields.fbit (by decide)).trans hsync,
    ?_, ⟨(hfields.fget (by decide)).trans hcause, (hfields.fget (by decide)).trans hepoch⟩, ?_⟩
  · rw [syncing_port, hover.port]
    rfl
  · rw [hfields.fget (by decide), hover.fields.fget (by decide), outOfSync, linkCount_same, linkStat, fget_fset_apart _ _ _ (by decide)]

theorem announce_restarts {s : State} {p e : Nat} (hh : portHears s p = true) (hst : linkState s p = lkUp) (he : (portGet s p).current = some e) :
    ∃ t, execAnnounce p s = .next t ∧ PagesOnly (linkPages p) s t ∧ Enumerates p (portGet s p).counter t ∧
      (t.fget (pgClnk + p) F.LNK_CAUSE_CAUSE = 3 ∧ t.fget (pgClnk + p) F.LNK_CAUSE_EPOCH = e % 2 ^ 16) ∧
      t.fget (pgClnk + p) (linkCntF 0) = min (s.fget (pgClnk + p) (linkCntF 0) + 1) 0xFFFF := by
  have hp := port_lt (live_of_portHears hh)
  have hstate : linkState (linkCount s p 0) p = lkUp := ((linkCount_fieldsBut s p (by decide) _).fget (by decide)).trans hst
  have hacts : execAnnounce p s = .next (startEnum (endEpoch (linkCount s p 0) p eePartnerReset) p) := by
    unfold execAnnounce
    rw [if_neg (by simp [hh])]
    dsimp only
    rw [if_neg (by rw [hstate]; decide), if_pos (.inl hstate)]
  obtain ⟨hpages, henum, hcause, hfields⟩ := endEpoch_startEnum (s := linkCount s p 0) (cause := eePartnerReset) hp (by decide) he
  exact ⟨_, hacts, ((linkCount_pages s p (by decide)).mono fun _ h => .inl h).trans hpages, henum, hcause, (hfields.fget (by decide)).trans (linkCount_same s p 0)⟩

/-! ### Discarded frames -/

/-- A frame that fails a check counts in one of the first counters. -/
theorem rxCheck_le {s : State} {p k : Nat} {f : RxFrame} (h : rxCheck s p f = some k) : k ≤ 5 := by
  unfold rxCheck at h
  dsimp only at h
  split_ifs at h <;> cases h <;> decide

theorem linkCount_discards (s : State) (p : Nat) {k : Nat} (hk : k ≤ 6) :
    RegsOnly [(pgClnk + p, (linkCntF k).off)] s (linkCount s p k) := by
  refine (RegsOnly.refl _ s).fincSat (by simp) ?_
  unfold linkCntF
  split <;> simp only [Fld.sh] <;> omega

theorem frameDiscarded_counts {s : State} {p k : Nat} {f : RxFrame} (hh : portHears s p = true)
    (hk : f.abandoned = true ∧ k = 6 ∨ f.abandoned = false ∧ rxCheck s p f = some k) :
    ∃ t, execRxFrameDiscarded p f s = .next t ∧ LinkOnly s t ∧ RegsOnly [(pgClnk + p, (linkCntF k).off)] s t ∧
      t.fget (pgClnk + p) (linkCntF k) = min (s.fget (pgClnk + p) (linkCntF k) + 1) 0xFFFF := by
  unfold execRxFrameDiscarded
  rw [if_neg (by simp [hh])]
  rcases hk with ⟨ha, rfl⟩ | ⟨ha, hk⟩
  · rw [if_pos ha]
    exact ⟨_, rfl, (LinkOnly.refl s).fset, linkCount_discards s p (by decide), linkCount_same s p 6⟩
  · rw [if_neg (by simp [ha]), hk]
    have honly : LinkOnly s (rxFail s p k) := by
      unfold rxFail windowErr
      exact (LinkOnly.refl s).fset.portMod
    exact ⟨rxFail s p k, rfl, honly, linkCount_discards s p ((rxCheck_le hk).trans (by decide)), linkCount_same s p k⟩

end Sys2Proof.Machine
end

section
/-! SUPPORT. CAPS and READY (R369, R371 to R373, R378): the record a limb announces, what it is answered, the port's entry into UP or MBX_ONLY,
and the statement about the states of a port. -/

namespace Sys2Proof.Machine

/-! ### Whole registers -/

/-- A register that is none of the written ones, and holds none of the written fields, is as before. -/
theorem FieldsBut.reg {offs : List Nat} {ws : List Fld} {q o : Nat} {s t : State} (h : FieldsBut offs ws q s t) (hc : ClearOf offs ws ⟨o, 0, 32⟩) :
    t.reg q o = s.reg q o := by
  refine BitVec.eq_of_toNat_eq ?_
  have hw := h.fget hc
  have hlt : ∀ w : Word, bitsOf w 0 32 = w.toNat := fun w => Nat.mod_eq_of_lt w.isLt
  rwa [State.fget, State.fget, hlt, hlt] at hw

/-- Words written one after another to the registers from an offset on are all held. -/
theorem reg_eachIn_setReg (s : State) (q off : Nat) (w : Nat → Word) {n i : Nat} (hi : i < n) :
    (eachIn (List.range n) (fun s i => s.setReg q (off + 4 * i) (w i)) s).reg q (off + 4 * i) = w i := by
  unfold eachIn
  induction n with
  | zero => omega
  | succ n ih =>
    rw [List.range_succ, List.foldl_append, List.foldl_cons, List.foldl_nil]
    by_cases hin : i = n
    · subst hin
      exact reg_setReg_same ..
    · rw [reg_setReg_ne _ _ (by omega), ih (by omega)]

@[simp] theorem portGet_eachIn_setReg {α : Type} (l : List α) (q : Nat) (o : α → Nat) (w : α → Word) (s : State) (k : Nat) :
    portGet (eachIn l (fun s i => s.setReg q (o i) (w i)) s) k = portGet s k :=
  eachIn_rel (R := fun s t => portGet t k = portGet s k) (f := fun s i => s.setReg q (o i) (w i)) (fun _ => rfl) (fun h g => g.trans h) (fun _ _ _ => rfl) s

/-! ### The capability record is kept -/

/-- E is current and the page holds the record (R369, R372). -/
def recordHeld (s : State) (p e : Nat) (r : BitVec 512) : State :=
  (eachIn (List.range 16) (fun s i => s.setReg (pgClnk + p) (F.LNK_CAPS.off + 4 * i) (BitVec.ofNat 32 (bitsOf r (32 * i) 32)))
    (setCurrent s p (some e))).setReg (pgClnk + p) F.LNK_MBX_BKT_LEVEL.off 0

/-- The registers that hold the record. -/
abbrev capsOffs : List Nat := (List.range 16).map (F.LNK_CAPS.off + 4 * ·)

theorem recordHeld_after (s : State) (p e : Nat) (r : BitVec 512) :
    FieldsBut (F.LNK_MBX_BKT_LEVEL.off :: capsOffs) [] (pgClnk + p) (setCurrent s p (some e)) (recordHeld s p e r) := by
  refine FieldsBut.setReg (FieldsBut.each _ (fun t i hi => (FieldsBut.refl _ _ _ t).setReg ?_ ?_) (.refl _ _ _ _)) (by simp) (by decide)
  · exact List.mem_cons_of_mem _ (List.mem_map_of_mem hi)
  · have := List.mem_range.mp hi
    simp only
    omega

theorem recordHeld_fieldsBut (s : State) (p e : Nat) (r : BitVec 512) :
    FieldsBut (F.LNK_MBX_BKT_LEVEL.off :: capsOffs ++ mbxOffs) (F.LNK_STAT_EPOCH :: haltCounts) (pgClnk + p) s (recordHeld s p e r) :=
  ((setCurrent_fieldsBut s p (some e)).mono (List.subset_append_right ..) (List.Subset.refl _)).trans
    ((recordHeld_after s p e r).mono (List.subset_append_left ..) (List.nil_subset _))

theorem recordHeld_epoch (s : State) (p e : Nat) (r : BitVec 512) : (recordHeld s p e r).fget (pgClnk + p) F.LNK_STAT_EPOCH = e % 2 ^ 16 := by
  rw [(recordHeld_after s p e r).fget (by decide), setCurrent_epoch]
  rfl

theorem recordHeld_word (s : State) (p e : Nat) (r : BitVec 512) {i : Nat} (hi : i < 16) :
    (recordHeld s p e r).reg (pgClnk + p) (F.LNK_CAPS.off + 4 * i) = r.extractLsb' (32 * i) 32 := by
  have hword : BitVec.ofNat 32 (bitsOf r (32 * i) 32) = r.extractLsb' (32 * i) 32 := by
    refine BitVec.eq_of_toNat_eq ?_
    simp [bitsOf]
  rw [recordHeld, reg_setReg_ne _ _ (by simp only; omega), reg_eachIn_setReg _ _ _ _ hi, hword]

theorem recordHeld_port (s : State) (p e : Nat) (r : BitVec 512) : portGet (recordHeld s p e r) p = { portGet (haltNow s p) p with current := some e } := by
  rw [recordHeld, portGet_setReg, portGet_eachIn_setReg, setCurrent_port]

/-- The verdict on a record does not depend on its being held: it reads the limits of the page. -/
theorem capsReason_recordHeld (s : State) (p e : Nat) (r : BitVec 512) : capsReason (recordHeld s p e r) p r = capsReason s p r := by
  unfold capsReason
  rw [(recordHeld_fieldsBut s p e r).fget (by decide), (recordHeld_fieldsBut s p e r).fget (by decide)]

theorem capsReason_lt (s : State) (p : Nat) (r : BitVec 512) : capsReason s p r < 5 := by
  unfold capsReason
  dsimp only
  split_ifs <;> decide

/-! ### The capability record is answered -/

/-- A limb of another identity than the last accepted one is signalled. -/
def identitySignalled (s : State) (p : Nat) (r : BitVec 512) : State :=
  match (portGet s p).identity with
  | some old => if old ≠ capsIdentity r then pageIrq s (pgClnk + p) 8 else s
  | none => s

theorem portGet_identitySignalled (s : State) (p : Nat) (r : BitVec 512) : portGet (identitySignalled s p r) p = portGet s p := by
  unfold identitySignalled
  cases (portGet s p).identity with
  | none => rfl
  | some old =>
    dsimp only
    split
    · exact portGet_pageIrq ..
    · rfl

theorem identitySignalled_fieldsBut (s : State) (p : Nat) (r : BitVec 512) (offs : List Nat) (ws : List Fld) :
    FieldsBut (F.PG_IRQ_STAT_ERR.off :: offs) ws (pgClnk + p) s (identitySignalled s p r) := by
  unfold identitySignalled
  cases (portGet s p).identity with
  | none => exact FieldsBut.refl _ _ _ s
  | some old => exact .ite (fun _ => (FieldsBut.refl _ _ _ s).pageIrq (by simp)) fun _ => FieldsBut.refl _ _ _ s

/-- The port with a record and the verdict on it (R371, R372): the sessions of the new epoch begin. -/
def LinkPort.withRecord (x : LinkPort) (why : Nat) (r : BitVec 512) : LinkPort :=
  { x with caps := some r, reject := why, leakAt := none, chans := x.chans.mapVal fun _ y => { sid := y.sid },
           identity := if why = 0 then some (capsIdentity r) else x.identity }

/-- The verdict shows in REASON, and a rejection is captured (R373). -/
def verdictShown (s : State) (p why : Nat) : State :=
  if why ≠ 0 then capture (linkStat s p F.LNK_STAT_REASON why) (pgClnk + p) 0x0B02 0 why else linkStat s p F.LNK_STAT_REASON why

theorem verdictShown_port (s : State) (p why : Nat) : portGet (verdictShown s p why) p = portGet s p := by
  unfold verdictShown
  split
  · rw [portGet_capture, portGet_linkStat]
  · rw [portGet_linkStat]

theorem verdictShown_fieldsBut (s : State) (p why : Nat) : FieldsBut errOffs [F.LNK_STAT_REASON] (pgClnk + p) s (verdictShown s p why) := by
  have hreason := (FieldsBut.refl errOffs [F.LNK_STAT_REASON] (pgClnk + p) s).fset (p := pgClnk + p) (v := why) (f := F.LNK_STAT_REASON) (by simp) (by decide)
  exact .ite (fun _ => hreason.trans ((capture_fieldsBut _ _ _ (clnkPage_ne_part p)).mono (List.Subset.refl _) (List.nil_subset _))) fun _ => hreason

theorem verdictShown_reason (s : State) (p : Nat) {why : Nat} (hw : why < 5) : (verdictShown s p why).fget (pgClnk + p) F.LNK_STAT_REASON = why := by
  have hset : (linkStat s p F.LNK_STAT_REASON why).fget (pgClnk + p) F.LNK_STAT_REASON = why :=
    (fget_fset_same _ _ _ _ (by decide)).trans (Nat.mod_eq_of_lt (Nat.lt_of_lt_of_le hw (by decide)))
  unfold verdictShown
  split
  · rw [(capture_fieldsBut _ _ _ (clnkPage_ne_part p)).fget (by decide), hset]
  · exact hset

/-- The eight mailbox channels of a port show their sessions. -/
def channelsShown (s : State) (p : Nat) : State := eachIn (List.range 8) (fun s c => mbxShow s p c) s

theorem channelsShown_port (s : State) (p : Nat) : portGet (channelsShown s p) p = portGet s p :=
  eachIn_rel (R := fun s t => portGet t p = portGet s p) (fun _ => rfl) (fun h g => g.trans h) (fun s c _ => portGet_mbxShow s p c p) s

theorem channelsShown_fieldsBut (s : State) (p : Nat) : FieldsBut mbxOffs haltCounts (pgClnk + p) s (channelsShown s p) :=
  ((PlaceKept.refl p s).each fun t _ hc => (PlaceKept.refl p t).mbxShow (List.mem_range.mp hc)).fields

/-- A record that is held gets its verdict. -/
def recordJudged (s : State) (p : Nat) (r : BitVec 512) : State :=
  let why := capsReason s p r
  let v := identitySignalled s p r
  verdictShown (channelsShown (portSet v p { portGet v p with
    caps := some r, reject := why, leakAt := none, chans := (portGet s p).chans.mapVal fun _ y => { sid := y.sid },
    identity := if why = 0 then some (capsIdentity r) else (portGet s p).identity }) p) p why

theorem firstCaps_eq (s : State) (p e : Nat) (r : BitVec 512) : firstCaps s p e r = queueConfirm (recordJudged (recordHeld s p e r) p r) p true := by
  unfold firstCaps recordJudged identitySignalled verdictShown
  dsimp only
  rfl

theorem recordJudged_port (s : State) (p : Nat) (r : BitVec 512) : portGet (recordJudged s p r) p = (portGet s p).withRecord (capsReason s p r) r := by
  rw [recordJudged]
  dsimp only
  rw [verdictShown_port, channelsShown_port, portGet_portSet_same, portGet_identitySignalled]
  rfl

theorem FieldsBut.portSet {offs : List Nat} {ws : List Fld} {q p : Nat} {s t : State} {x : LinkPort} (h : FieldsBut offs ws q s t) :
    FieldsBut offs ws q s (portSet t p x) := h

theorem recordJudged_fieldsBut (s : State) (p : Nat) (r : BitVec 512) :
    FieldsBut (errOffs ++ mbxOffs) (F.LNK_STAT_REASON :: haltCounts) (pgClnk + p) s (recordJudged s p r) := by
  have hsignal := identitySignalled_fieldsBut s p r (errOffs.tail ++ mbxOffs) (F.LNK_STAT_REASON :: haltCounts)
  have hchannels := fun t => (channelsShown_fieldsBut t p).mono (offs' := errOffs ++ mbxOffs) (ws' := F.LNK_STAT_REASON :: haltCounts)
    (List.subset_append_right ..) (List.subset_cons_self ..)
  have hverdict := fun t why => (verdictShown_fieldsBut t p why).mono (offs' := errOffs ++ mbxOffs) (ws' := F.LNK_STAT_REASON :: haltCounts)
    (List.subset_append_left ..) (by simp)
  rw [recordJudged]
  exact (hsignal.portSet.trans (hchannels _)).trans (hverdict _ _)

theorem recordJudged_reason (s : State) (p : Nat) (r : BitVec 512) :
    (recordJudged s p r).fget (pgClnk + p) F.LNK_STAT_REASON = capsReason s p r := verdictShown_reason _ p (capsReason_lt s p r)

/-! ### CAPS -/

theorem queueConfirm_port (s : State) (p : Nat) : portGet (queueConfirm s p true) p = { portGet s p with
    confirms := (portGet s p).confirms + 1, enumAt := none,
    enumFrame := some { typ := 5, chan := 4, epoch := (portGet s p).enumE.getD 0,
                        data := leBytes 8 (b2n ((portGet s p).reject != 0) + (portGet s p).reject * 2 ^ 8 + capsChannels (portGet s p) * 2 ^ 16) } } :=
  portGet_portMod_same ..

/-- The port that has had the first CAPS of E: E is current, and the record is kept and answered. -/
theorem firstCaps_port (s : State) (p e : Nat) (r : BitVec 512) :
    let x := portGet (firstCaps s p e r) p
    x.current = some e ∧ x.caps = some r ∧ x.reject = capsReason s p r ∧ x.confirms = (portGet s p).confirms + 1 ∧
      x.enumFrame.map (fun f => (f.typ, f.chan, f.epoch)) = some (5, 4, (portGet s p).enumE.getD 0) ∧
      (capsReason s p r = 0 → x.identity = some (capsIdentity r)) := by
  have hkept := (PlaceKept.refl p s).haltNow.port
  dsimp only
  rw [firstCaps_eq, queueConfirm_port, recordJudged_port, recordHeld_port, capsReason_recordHeld, hkept]
  exact ⟨rfl, rfl, rfl, rfl, rfl, fun h => if_pos h⟩

theorem firstCaps_fget (s : State) (p e : Nat) (r : BitVec 512) {f : Fld} (hf : ClearOf (errOffs ++ mbxOffs) (F.LNK_STAT_REASON :: haltCounts) f) :
    (firstCaps s p e r).fget (pgClnk + p) f = (recordHeld s p e r).fget (pgClnk + p) f := by
  rw [firstCaps_eq]
  exact (recordJudged_fieldsBut _ p r).fget hf

theorem firstCaps_reason (s : State) (p e : Nat) (r : BitVec 512) : (firstCaps s p e r).fget (pgClnk + p) F.LNK_STAT_REASON = capsReason s p r := by
  rw [firstCaps_eq, ← capsReason_recordHeld s p e r]
  exact recordJudged_reason _ p r

/-- The registers of the record are beside all that is written after it. -/
theorem clearOf_caps {i : Nat} (hi : i < 16) : ClearOf (errOffs ++ mbxOffs) (F.LNK_STAT_REASON :: haltCounts) ⟨F.LNK_CAPS.off + 4 * i, 0, 32⟩ := by
  revert i
  decide

theorem firstCaps_word (s : State) (p e : Nat) (r : BitVec 512) {i : Nat} (hi : i < 16) :
    (firstCaps s p e r).reg (pgClnk + p) (F.LNK_CAPS.off + 4 * i) = r.extractLsb' (32 * i) 32 := by
  rw [firstCaps_eq, ← recordHeld_word s p e r hi]
  exact (recordJudged_fieldsBut _ p r).reg (clearOf_caps hi)

theorem caps_first {s : State} {p e : Nat} {r : BitVec 512} (hh : portHears s p = true) (hst : linkState s p = lkEnum)
    (he : (portGet s p).enumE = some e) (hc : (portGet s p).caps = none) :
    ∃ t, execCaps p e r s = .next t ∧ (portGet t p).current = some e ∧ (portGet t p).caps = some r ∧ (portGet t p).reject = capsReason s p r ∧
      (portGet t p).confirms = (portGet s p).confirms + 1 ∧ (portGet t p).enumFrame.map (fun f => (f.typ, f.chan, f.epoch)) = some (5, 4, e) ∧
      linkState t p = lkEnum ∧ t.fget (pgClnk + p) F.LNK_STAT_REASON = capsReason s p r ∧ t.fget (pgClnk + p) F.LNK_STAT_EPOCH = e % 2 ^ 16 ∧
      (∀ i, i < 16 → t.reg (pgClnk + p) (F.LNK_CAPS.off + 4 * i) = r.extractLsb' (32 * i) 32) ∧
      (capsReason s p r = 0 → (portGet t p).identity = some (capsIdentity r)) := by
  have hacts : execCaps p e r s = .next (firstCaps (linkCount s p 0) p e r) := by
    unfold execCaps
    dsimp only
    rw [if_neg (by simp [hh]), if_pos ⟨hst, he⟩, hc]
  have hcount := linkCount_fieldsBut s p (k := 0) (by decide) (pgClnk + p)
  have hwhy : capsReason (linkCount s p 0) p r = capsReason s p r := by
    unfold capsReason
    rw [hcount.fget (by decide), hcount.fget (by decide)]
  obtain ⟨hcurrent, hcaps, hreject, hconfirms, hframe, hidentity⟩ := firstCaps_port (linkCount s p 0) p e r
  rw [hwhy] at hreject hidentity
  rw [portGet_linkCount, he] at hframe
  refine ⟨_, hacts, hcurrent, hcaps, hreject, hconfirms, hframe, ?_, (firstCaps_reason ..).trans hwhy, ?_, fun i hi => firstCaps_word _ p e r hi, hidentity⟩
  · rw [linkState, firstCaps_fget _ _ _ _ (by decide), (recordHeld_fieldsBut _ p e r).fget (by decide), hcount.fget (by decide)]
    exact hst
  · rw [firstCaps_fget _ _ _ _ (by decide), recordHeld_epoch]

/-! ### READY -/

theorem fitCheck_port (s : State) (p : Nat) : portGet (fitCheck s p) p = portGet s p := by
  unfold fitCheck
  dsimp only
  split
  · rfl
  · split
    · rfl
    · exact portGet_capture ..

/-- The fit of a slot table shows in CYC; an entry that does not fit is captured (R378). -/
theorem fitCheck_fieldsBut (s : State) (p : Nat) : FieldsBut errOffs [F.LNK_STAT_CYC] (pgClnk + p) s (fitCheck s p) := by
  have hcyc := fun v => (FieldsBut.refl errOffs [F.LNK_STAT_CYC] (pgClnk + p) s).fset (p := pgClnk + p) (v := v) (f := F.LNK_STAT_CYC) (by simp) (by decide)
  unfold fitCheck
  dsimp only
  split
  · exact hcyc _
  · split
    · exact hcyc _
    · exact (hcyc _).trans ((capture_fieldsBut _ _ _ (clnkPage_ne_part p)).mono (List.Subset.refl _) (List.nil_subset _))

theorem fitCheck_pages (s : State) (p : Nat) : PagesOnly (fun g => g = pgClnk + p ∨ g = pgPart) s (fitCheck s p) := by
  have hcyc := fun v => (PagesOnly.refl (fun g => g = pgClnk + p ∨ g = pgPart) s).fset (v := v) (f := F.LNK_STAT_CYC) (.inl rfl) (by decide)
  unfold fitCheck
  dsimp only
  split
  · exact hcyc _
  · split
    · exact hcyc _
    · exact (hcyc _).trans (capture_pages _ _ _ _)

/-- The end of the firmware updates that waited for the limb leaves the port's place, and every register (R421). -/
theorem fwReturned_leaves (s : State) (p : Nat) :
    PagesOnly (· = pgClnk + p) s (fwReturned s p) ∧ FieldsBut mbxOffs haltCounts (pgClnk + p) s (fwReturned s p) ∧
      (portGet (fwReturned s p) p).current = (portGet s p).current ∧ (portGet (fwReturned s p) p).misses = (portGet s p).misses := by
  have hjobs := fun (l : List FwReboot) (st r : FwReboot → Nat) =>
    (PlaceKept.refl p s).each (l := l) (f := fun s f => jobDone s f.job (st f) (r f)) fun t _ _ => (PlaceKept.refl p t).jobDone
  unfold fwReturned
  dsimp only
  refine ⟨(hjobs _ _ _).pages.portMod, (hjobs _ _ _).fields.portMod, ?_⟩
  rw [portGet_portMod_same, (hjobs _ _ _).port]
  exact ⟨rfl, rfl⟩

/-- A port in UP or MBX_ONLY begins with no missed windows and no fresh slots. -/
def entered (s : State) (p st : Nat) : State :=
  portMod (linkEnter s p st) p fun x => { x with misses := [], fresh := [], wins := x.wins.map fun w => { w with epoch := none } }

theorem entered_port (s : State) (p st : Nat) : (portGet (entered s p st) p).current = (portGet s p).current ∧ (portGet (entered s p st) p).misses = [] := by
  rw [entered, portGet_portMod_same, linkEnter_port]
  exact ⟨rfl, rfl⟩

/-- The fit of the slot tables is checked on a port that enters UP, its record not rejected. -/
def fitChecked (s : State) (p : Nat) (reject : Nat) : State := if reject = 0 then fitCheck s p else s

theorem fitChecked_leaves (s : State) (p : Nat) (reject : Nat) :
    PagesOnly (fun g => g = pgClnk + p ∨ g = pgPart) s (fitChecked s p reject) ∧ FieldsBut errOffs [F.LNK_STAT_CYC] (pgClnk + p) s (fitChecked s p reject) ∧
      portGet (fitChecked s p reject) p = portGet s p := by
  unfold fitChecked
  split
  · exact ⟨fitCheck_pages s p, fitCheck_fieldsBut s p, fitCheck_port s p⟩
  · exact ⟨.refl _ s, FieldsBut.refl _ _ _ s, rfl⟩

/-- What a port that has become READY comes to. -/
def readied (s : State) (p st : Nat) (reject : Nat) : State := fwReturned (pageIrq (fitChecked (entered s p st) p reject) (pgClnk + p) 1) p

/-- All that follows the entry of the state leaves what the port and GLNK_UP show of it. -/
theorem readied_leaves (s : State) (p st : Nat) (reject : Nat) (hp : p < 8) :
    FieldsBut (errOffs ++ mbxOffs) (F.LNK_STAT_CYC :: haltCounts) (pgClnk + p) (linkEnter s p st) (readied s p st reject) ∧
      (readied s p st reject).fget pgClnkG F.GLNK_UP = (linkEnter s p st).fget pgClnkG F.GLNK_UP ∧
      (portGet (readied s p st reject) p).current = (portGet s p).current ∧ (portGet (readied s p st reject) p).misses = [] := by
  obtain ⟨hfitPages, hfitFields, hfitPort⟩ := fitChecked_leaves (entered s p st) p reject
  obtain ⟨hfwPages, hfwFields, hcurrent, hmisses⟩ := fwReturned_leaves (pageIrq (fitChecked (entered s p st) p reject) (pgClnk + p) 1) p
  obtain ⟨hentered, hnone⟩ := entered_port s p st
  have hentry : FieldsBut (errOffs ++ mbxOffs) (F.LNK_STAT_CYC :: haltCounts) (pgClnk + p) (linkEnter s p st) (entered s p st) :=
    (FieldsBut.refl _ _ _ _).portMod
  have hfit := hentry.trans (hfitFields.mono (List.subset_append_left ..) (by simp))
  refine ⟨(hfit.pageIrq (by simp)).trans (hfwFields.mono (List.subset_append_right ..) (List.subset_cons_self ..)), ?_, ?_, ?_⟩
  · rw [readied, hfwPages.fget (clnkPage_ne_global hp) (by decide), pageIrq_fget _ _ _ (by decide) (by decide),
      hfitPages.fget (by simpa using clnkPage_ne_global hp) (by decide), entered, portMod_fget]
  · rw [readied, hcurrent, portGet_pageIrq, hfitPort, hentered]
  · rw [readied, hmisses, portGet_pageIrq, hfitPort, hnone]

theorem ready_enters {s : State} {p e : Nat} (hh : portHears s p = true) (hst : linkState s p = lkEnum) (he : (portGet s p).current = some e) :
    ∃ t, execReady p e s = .next t ∧ linkState t p = (if (portGet s p).reject = 0 then lkUp else lkMbxOnly) ∧ (portGet t p).current = some e ∧
      (portGet t p).misses = [] ∧ natBit (t.fget pgClnkG F.GLNK_UP) p = true ∧
      t.fget (pgClnk + p) (linkCntF 0) = min (s.fget (pgClnk + p) (linkCntF 0) + 1) 0xFFFF ∧
      t.fget (pgClnk + p) (linkCntF 11) = min (s.fget (pgClnk + p) (linkCntF 11) + 1) 0xFFFF := by
  have hp := port_lt (live_of_portHears hh)
  have hzero := linkCount_fieldsBut s p (k := 0) (by decide) (pgClnk + p)
  have heleven := linkCount_fieldsBut (linkCount s p 0) p (k := 11) (by decide) (pgClnk + p)
  have hstate : linkState (linkCount s p 0) p = lkEnum := (hzero.fget (by decide)).trans hst
  have hacts : execReady p e s = .next (readied (linkCount (linkCount s p 0) p 11) p (if (portGet s p).reject = 0 then lkUp else lkMbxOnly)
      (portGet s p).reject) := by
    unfold execReady
    dsimp only
    rw [if_neg (by simp [hh]), if_neg (by simp [epochOk, he]), if_neg (not_not.mpr hstate)]
    rfl
  obtain ⟨st, hst'⟩ : ∃ st, st = if (portGet s p).reject = 0 then lkUp else lkMbxOnly := ⟨_, rfl⟩
  have hup : st < 8 ∧ (st == lkUp || st == lkMbxOnly) = true ∧ enterFields st = enterFields lkUp := by
    rw [hst']
    split <;> decide
  rw [← hst'] at hacts ⊢
  obtain ⟨hlt, hshown, hsame⟩ := hup
  obtain ⟨hfields, hglobal, hcurrent, hmisses⟩ := readied_leaves (linkCount (linkCount s p 0) p 11) p st (portGet s p).reject hp
  have henter := linkEnter_fieldsBut (linkCount (linkCount s p 0) p 11) st hp
  rw [hsame] at henter
  refine ⟨_, hacts, ?_, hcurrent.trans he, hmisses, ?_, ?_, ?_⟩
  · rw [linkState, hfields.fget (by decide)]
    exact linkEnter_state _ st hp hlt
  · rw [hglobal, linkEnter_up _ st hp, hshown]
  · rw [hfields.fget (by decide), henter.fget (by decide), heleven.fget (by decide), linkCount_same]
  · rw [hfields.fget (by decide), henter.fget (by decide), linkCount_same, hzero.fget (by decide)]

/-! ### The statement -/

/-- Settles O48: each clause is what its command leaves, said above: a port that enters a state shows what `linkEnter` writes, an epoch that
ends is `endEpoch_over` with its cause, and an enumeration that begins is `Enumerates`. -/
theorem linkStates : Obligations.LinkStates := by
  unfold Obligations.LinkStates
  intro s p hd
  dsimp only
  refine ⟨presNLow_fromDown hd, presNLow_elsewhere hd, presNHigh_inDetect hd, presNHigh_elsewhere hd, fun t0 => tPlug_expires hd,
    fun t0 e => tUnplug_expires hd, fun t0 => tSync_expires hd, fun t0 ht hst hc => ⟨tEnum_repeats hd ht hst hc, tEnum_fails hd ht hst hc⟩,
    fun t0 => tBackoff_expires hd, syncAcquired_acts hd, fun part data e => relink_restarts hd, fun hh => ⟨fun e => syncLost_ends hh,
      fun e => announce_restarts hh, fun e record => caps_first hh, fun e => ready_enters hh, fun f k => ?_⟩⟩
  exact frameDiscarded_counts hh

end Sys2Proof.Machine
end

section
/-! SUPPORT. Mailbox sessions: what the shared operations leave of a port's sessions and of the frames that wait (R427), the end of a session and of
its jobs (R409, R411), and what follows from an event on a channel (R405 to R407, R416). -/

namespace Sys2Proof.Machine

/-! ### Sessions beside other operations -/

@[simp] theorem sessGet_reach (s : State) (n p c : Nat) : sessGet (s.reach n) p c = sessGet s p c := by simp only [sessGet, portGet_reach]
@[simp] theorem sessGet_fset (s : State) (g : Nat) (f : Fld) (v p c : Nat) : sessGet (s.fset g f v) p c = sessGet s p c := rfl
@[simp] theorem sessGet_fincSat (s : State) (g : Nat) (f : Fld) (d p c : Nat) : sessGet (s.fincSat g f d) p c = sessGet s p c := rfl
@[simp] theorem sessGet_linkCount (s : State) (p n q c : Nat) : sessGet (linkCount s p n) q c = sessGet s q c := rfl
@[simp] theorem portGet_jobSet (s : State) (j : Nat) (x : Job) (p : Nat) : portGet (jobSet s j x) p = portGet s p := rfl
@[simp] theorem sessGet_jobSet (s : State) (j : Nat) (x : Job) (p c : Nat) : sessGet (jobSet s j x) p c = sessGet s p c := rfl
@[simp] theorem portGet_jobDone (s : State) (j st r p : Nat) : portGet (jobDone s j st r) p = portGet s p := by rw [jobDone_shape]; rfl
@[simp] theorem sessGet_jobDone (s : State) (j st r p c : Nat) : sessGet (jobDone s j st r) p c = sessGet s p c := by
  simp only [sessGet, portGet_jobDone]
@[simp] theorem portGet_hostSend (s : State) (fn : Nat) (tx : HostTx) (p : Nat) : portGet (hostSend s fn tx) p = portGet s p := by
  rw [hostSend_shape]; rfl
@[simp] theorem sessGet_hostSend (s : State) (fn : Nat) (tx : HostTx) (p c : Nat) : sessGet (hostSend s fn tx) p c = sessGet s p c := by
  simp only [sessGet, portGet_hostSend]

@[simp] theorem portGet_sessSet (s : State) (p c : Nat) (x : Session) :
    portGet (sessSet s p c x) p = { portGet s p with chans := (portGet s p).chans.set {} c x } := portGet_portMod_same ..
@[simp] theorem portGet_ctlPush (s : State) (p : Nat) (f : CtlFrame) :
    portGet (ctlPush s p f) p = { portGet s p with ctl := (portGet s p).ctl ++ [f] } := portGet_portMod_same ..
/-- A port that keeps its channels keeps its sessions. -/
theorem sessGet_portMod (s : State) (p c : Nat) {g : LinkPort → LinkPort} (h : ∀ y, (g y).chans = y.chans) :
    sessGet (portMod s p g) p c = sessGet s p c := by
  rw [sessGet, portGet_portMod_same, h, sessGet]
@[simp] theorem sessGet_ctlPush (s : State) (p c : Nat) (f : CtlFrame) : sessGet (ctlPush s p f) p c = sessGet s p c :=
  sessGet_portMod s p c fun _ => rfl
@[simp] theorem sessGet_ctlDrop (s : State) (p c d : Nat) : sessGet (ctlDrop s p c) p d = sessGet s p d := sessGet_portMod s p d fun _ => rfl
@[simp] theorem sessGet_sessMod_same (s : State) (p c : Nat) (f : Session → Session) : sessGet (sessMod s p c f) p c = f (sessGet s p c) :=
  sessGet_sessSet_same ..

/-! ### What beside registers and CriskaLink stays -/

namespace LinkOnly
variable {s t : State} {p c : Nat}

theorem jobGet (h : LinkOnly s t) (j : Nat) : jobGet t j = jobGet s j := by rw [h]; rfl
theorem resets (h : LinkOnly s t) : t.part.resets = s.part.resets := by rw [h]
theorem host (h : LinkOnly s t) : t.host = s.host := by rw [h]

theorem setReg {g o : Nat} {w : Word} (h : LinkOnly s t) : LinkOnly s (t.setReg g o w) := h.trans rfl
theorem sessSet {x : Session} (h : LinkOnly s t) : LinkOnly s (sessSet t p c x) := h.portMod
theorem ctlPush {f : CtlFrame} (h : LinkOnly s t) : LinkOnly s (ctlPush t p f) := h.portMod
theorem ctlDrop (h : LinkOnly s t) : LinkOnly s (ctlDrop t p c) := h.portMod
theorem mbxShow (h : LinkOnly s t) : LinkOnly s (mbxShow t p c) := h.setReg.setReg.setReg
theorem linkCount {k : Nat} (h : LinkOnly s t) : LinkOnly s (linkCount t p k) := h.fset

end LinkOnly

/-- A job that no reset of its partition holds ends with the status and the result it is given. -/
theorem jobGet_jobDone_live {s : State} {j r : Nat} {y : Job} (st : Nat) (hj : jobGet s j = some y) (hr : s.part.resets.find? y.part = none)
    (hlt : r < 2 ^ 32) : jobGet (jobDone s j st r) j = some { y with phase := .done, status := st, result := r, data := none } := by
  rw [jobDone_live st r hj hr, jobGet_jobSet_same, Nat.mod_eq_of_lt hlt]

/-- Only registers and the sessions of a port change, and a channel's session is the one given. -/
structure HoldsSession (p c : Nat) (x : Session) (s t : State) : Prop where
  link : LinkOnly s t
  port : portGet t p = { portGet s p with chans := (portGet t p).chans }
  sess : sessGet t p c = x

namespace HoldsSession
variable {p c : Nat} {x y : Session} {s t u : State}

theorem refl (p c : Nat) (s : State) : HoldsSession p c (sessGet s p c) s s := ⟨.refl s, rfl, rfl⟩

theorem trans (h : HoldsSession p c x s t) (g : HoldsSession p c y t u) : HoldsSession p c y s u :=
  ⟨h.link.trans g.link, by rw [g.port, h.port], g.sess⟩

theorem sessSet (s : State) (p c : Nat) (x : Session) : HoldsSession p c x s (sessSet s p c x) :=
  ⟨(LinkOnly.refl s).sessSet, by rw [portGet_sessSet], sessGet_sessSet_same ..⟩

theorem sessMod (s : State) (p c : Nat) (f : Session → Session) : HoldsSession p c (f (sessGet s p c)) s (sessMod s p c f) := sessSet ..

theorem mbxShow (h : HoldsSession p c x s t) : HoldsSession p c x s (mbxShow t p c) :=
  ⟨h.link.mbxShow, by rw [portGet_mbxShow, h.port], by rw [sessGet_mbxShow, h.sess]⟩

theorem ctl (h : HoldsSession p c x s t) : (portGet t p).ctl = (portGet s p).ctl := by rw [h.port]

end HoldsSession

/-! ### The end of a session -/

/-- The jobs that a session ends with, where no message is being sent or received and no update runs in it. -/
theorem endJobs_of {x : Session} (s : State) (st closeSt : Nat) (hs : x.sends = []) (hh : x.holding = none) (hw : x.fw = none) :
    endJobs s x st closeSt = eachIn x.closers (fun s j => jobDone s j closeSt 0)
      (let t := eachIn x.recvs (fun s j => jobDone s j st 0) s
       x.opener.elim t fun j => jobDone t j st 0) := by
  rw [PlaceKept.endJobs_eq, hs, hh, hw]
  rfl

/-- A session without jobs ends none. -/
theorem endJobs_none {x : Session} (s : State) (st closeSt : Nat) (hs : x.sends = []) (hr : x.recvs = []) (hh : x.holding = none)
    (ho : x.opener = none) (hw : x.fw = none) (hc : x.closers = []) : endJobs s x st closeSt = s := by
  rw [endJobs_of s st closeSt hs hh hw, hr, ho, hc]
  rfl

theorem sessClose_holds {s : State} {p c : Nat} (st closeSt : Nat) (h : (sessGet s p c).state ≠ .closed) :
    HoldsSession p c (sessGet s p c).shut (endJobs s (sessGet s p c) st closeSt) (sessClose s p c st closeSt) := by
  rw [sessClose, if_neg h]
  exact (HoldsSession.sessSet ..).mbxShow

/-- A session that the device aborts ends with its jobs, and its ABORT is the last frame that waits (R411). -/
theorem deviceAbort_aborts {s : State} {p c : Nat} (st : Nat) (owner : Option Nat) (h : (sessGet s p c).state ≠ .closed) :
    LinkOnly (endJobs s (sessGet s p c) st st) (deviceAbort s p c st owner) ∧ (sessGet (deviceAbort s p c st owner) p c).state = .closed ∧
      (portGet (deviceAbort s p c st owner) p).ctl.getLast? = some { chan := c, kind := kAbort, sid := (sessGet s p c).sid, job := owner } := by
  have hends := sessClose_holds (p := p) (c := c) st st h
  rw [deviceAbort, if_neg h]
  refine ⟨hends.link.ctlDrop.ctlPush, ?_, ?_⟩
  · rw [sessGet_ctlPush, sessGet_ctlDrop, hends.sess]
    rfl
  · rw [portGet_ctlPush, List.getLast?_append]
    rfl

/-! ### After every event -/

/-- Where nothing is held, RCV_NXT stands at RCV_DLV. -/
theorem ahead_empty {x : Session} (h : x.rx = []) : x.ahead = 0 := by
  rw [Session.ahead, h]
  rfl

theorem deliverFrom_empty {s : State} {p c : Nat} (n : Nat) (h : (sessGet s p c).rx = []) : deliverFrom n s p c = s := by
  cases n with
  | zero => rfl
  | succ n =>
    unfold deliverFrom
    dsimp only
    rw [h]
    exact ite_self _

theorem deliver_empty {s : State} {p c : Nat} (h : (sessGet s p c).rx = []) : deliver s p c = s := by
  unfold deliver
  dsimp only
  rw [deliverFrom_empty 18 h, if_neg (by simp [Session.win, ahead_empty h])]

theorem feedSends_holds (s : State) (p c : Nat) : HoldsSession p c (feedFrom (sessGet s p c).sends.length (sessGet s p c)) s (feedSends s p c) :=
  HoldsSession.sessMod ..

/-- A session without MBX_SEND jobs is fed nothing. -/
theorem feedFrom_noSends {x : Session} (h : x.sends = []) : feedFrom x.sends.length x = x := by
  rw [h]
  rfl

theorem fwChunksDone_other {s : State} {p c : Nat} (h : ∀ f, (sessGet s p c).fw = some f → f.phase ≠ .chunks) : fwChunksDone s p c = s := by
  unfold fwChunksDone
  dsimp only
  split
  next f hf => exact if_neg fun hc => h f hf hc.1
  next => rfl

theorem drainCheck_other {s : State} {p c : Nat} (h : (sessGet s p c).state ≠ .draining) : drainCheck s p c = s := if_neg fun hd => h hd.1

/-- A session beside its probes. -/
def Session.probing (x : Session) (at? : Option Nat) (n : Nat) : Session := { x with probeAt := at?, probes := n }

/-- Probes that become due or are no longer due change nothing of the session beside themselves (R406). -/
theorem probeCheck_holds (s : State) (p c : Nat) : ∃ a n, HoldsSession p c ((sessGet s p c).probing a n) s (probeCheck s p c) := by
  unfold probeCheck
  dsimp only
  split
  · split
    · exact ⟨_, _, .sessSet ..⟩
    · exact ⟨_, _, .refl p c s⟩
  · exact ⟨_, _, .sessSet ..⟩

/-- What a session still does once it has been fed and what could be delivered has been. -/
def mbxSettled (s : State) (p c : Nat) : State := mbxShow (probeCheck (drainCheck (fwChunksDone s p c) p c) p c) p c

theorem mbxSettle_eq (s : State) (p c : Nat) : mbxSettle s p c = mbxSettled (deliver (feedSends s p c) p c) p c := rfl

/-- Outside DRAINING and the chunks of an update only the probes of a session change. -/
theorem mbxSettled_holds {s : State} {p c : Nat} (hw : ∀ f, (sessGet s p c).fw = some f → f.phase ≠ .chunks)
    (hd : (sessGet s p c).state ≠ .draining) : ∃ a n, HoldsSession p c ((sessGet s p c).probing a n) s (mbxSettled s p c) := by
  obtain ⟨a, n, h⟩ := probeCheck_holds s p c
  rw [mbxSettled, fwChunksDone_other hw, drainCheck_other hd]
  exact ⟨a, n, h.mbxShow⟩

/-- A session that does not drain and holds nothing to deliver is fed, and only its probes change beside that. -/
theorem mbxSettle_fed {s : State} {p c : Nat} {x : Session} (hf : feedFrom (sessGet s p c).sends.length (sessGet s p c) = x) (hr : x.rx = [])
    (hw : ∀ f, x.fw = some f → f.phase ≠ .chunks) (hd : x.state ≠ .draining) : ∃ a n, HoldsSession p c (x.probing a n) s (mbxSettle s p c) := by
  have hfed := feedSends_holds s p c
  rw [hf] at hfed
  have hx := hfed.sess
  rw [← hx] at hr hw hd ⊢
  obtain ⟨a, n, h⟩ := mbxSettled_holds hw hd
  rw [mbxSettle_eq, deliver_empty hr]
  exact ⟨a, n, hfed.trans h⟩

end Sys2Proof.Machine
end

section
/-! SUPPORT. The timers of mailbox sessions (R403, R405, R406, R409, R411, R412) and of the jobs in them (R417, R421). -/

namespace Sys2Proof.Machine

/-- Only time and CriskaLink change. -/
def TimeLink (s t : State) : Prop := t = { s with time := t.time, clnk := t.clnk }

namespace TimeLink
variable {s t : State} {p c n : Nat}

theorem reach (s : State) (n : Nat) : TimeLink s (s.reach n) := by
  unfold TimeLink
  rw [reach_shape]

theorem portMod {f : LinkPort → LinkPort} (h : TimeLink s t) : TimeLink s (portMod t p f) := by
  unfold TimeLink at h ⊢
  rw [h]
  rfl

theorem sessSet {x : Session} (h : TimeLink s t) : TimeLink s (sessSet t p c x) := h.portMod
theorem sessMod {f : Session → Session} (h : TimeLink s t) : TimeLink s (sessMod t p c f) := h.sessSet
theorem ctlPush {f : CtlFrame} (h : TimeLink s t) : TimeLink s (ctlPush t p f) := h.portMod

theorem jobGet (h : TimeLink s t) (j : Nat) : jobGet t j = jobGet s j := by rw [h]; rfl
theorem resets (h : TimeLink s t) : t.part.resets = s.part.resets := by rw [h]

/-- A job that ends changes the job table beside. -/
theorem jobDone {j st r : Nat} {y : Job} (h : TimeLink s t) (hj : Machine.jobGet s j = some y) (hr : s.part.resets.find? y.part = none) :
    Machine.jobDone t j st r = { s with time := t.time, clnk := t.clnk, qe := { s.qe with jobs := (Machine.jobDone t j st r).qe.jobs } } := by
  rw [jobDone_live st r ((h.jobGet j).trans hj) (by rw [h.resets]; exact hr), h]
  rfl

end TimeLink

/-- An ABORT with its SID is the last frame of a session that has ended. -/
def Aborted (p c sid : Nat) (t : State) : Prop :=
  (sessGet t p c).state = .closed ∧ (portGet t p).ctl.getLast? = some { chan := c, kind := kAbort, sid := sid }

theorem deviceAbort_aborted {s : State} {p c : Nat} (n st : Nat) (h : (sessGet s p c).state ≠ .closed) :
    Aborted p c (sessGet s p c).sid (deviceAbort (s.reach n) p c st) := by
  have h' : (sessGet (s.reach n) p c).state ≠ .closed := by rwa [sessGet_reach]
  obtain ⟨-, hclosed, hlast⟩ := deviceAbort_aborts st none h'
  rw [sessGet_reach] at hlast
  exact ⟨hclosed, hlast⟩

/-! ### Fragments, acknowledgements and probes -/

section Rto
variable {s : State} {p c seq t0 : Nat} {g : TxFrag} (hx : (sessGet s p c).frags[(seq + 65536 - (sessGet s p c).una) % 65536]? = some g)
  (ht : g.timer = some t0) (hs : (sessGet s p c).state ≠ .closed) (hi : (seq + 65536 - (sessGet s p c).una) % 65536 < (sessGet s p c).flight)
include hx ht hs hi

theorem execRtoExpiry_runs : execRtoExpiry p c seq s = .next (if 6 ≤ g.sends then deviceAbort (s.reach (t0 + tRto g.sends)) p c stMbxNoAnswer
    else sessMod (s.reach (t0 + tRto g.sends)) p c fun x =>
      { x with frags := x.frags.modify ((seq + 65536 - (sessGet s p c).una) % 65536) fun g => { g with timer := none, due := true } }) := by
  unfold execRtoExpiry
  dsimp only
  rw [hx]
  dsimp only
  rw [ht]
  exact congrArg nxt (if_neg (not_or.mpr ⟨hs, Nat.not_le.mpr hi⟩))

theorem rtoExpiry_repeats (hn : g.sends < 6) : ∃ t, execRtoExpiry p c seq s = .next t ∧ TimeLink s t ∧
    (sessGet t p c).frags[(seq + 65536 - (sessGet s p c).una) % 65536]? = some { g with timer := none, due := true } ∧
    (sessGet t p c).frags.length = (sessGet s p c).frags.length := by
  refine ⟨_, (execRtoExpiry_runs hx ht hs hi).trans (congrArg nxt (if_neg (Nat.not_le.mpr hn))), (TimeLink.reach s _).sessMod, ?_, ?_⟩
  · rw [sessGet_sessMod_same, sessGet_reach, List.getElem?_modify_eq, hx]
    rfl
  · rw [sessGet_sessMod_same, sessGet_reach, List.length_modify]

theorem rtoExpiry_aborts (hn : 6 ≤ g.sends) : ∃ t, execRtoExpiry p c seq s = .next t ∧ Aborted p c (sessGet s p c).sid t :=
  ⟨_, (execRtoExpiry_runs hx ht hs hi).trans (congrArg nxt (if_pos hn)), deviceAbort_aborted _ _ hs⟩

end Rto

theorem ackTimerExpiry_acks {s : State} {p c t0 : Nat} (ht : (sessGet s p c).ackSince = some t0) (hs : (sessGet s p c).state ≠ .closed) :
    ∃ t, execAckTimerExpiry p c s = .next t ∧ TimeLink s t ∧ sessGet t p c = { sessGet s p c with ackDue := true } := by
  have hacts : execAckTimerExpiry p c s = .next (sessMod (s.reach (t0 + 160000)) p c fun x => { x with ackDue := true }) := by
    unfold execAckTimerExpiry
    dsimp only
    rw [ht]
    exact congrArg nxt (if_neg hs)
  refine ⟨_, hacts, (TimeLink.reach s _).sessMod, ?_⟩
  rw [sessGet_sessMod_same, sessGet_reach]

section Probe
variable {s : State} {p c t0 : Nat} (ht : (sessGet s p c).probeAt = some t0) (hs : (sessGet s p c).state ≠ .closed)
include ht hs

theorem execProbeTimerExpiry_runs : execProbeTimerExpiry p c s = .next (if 6 ≤ (sessGet s p c).probes then deviceAbort (s.reach (t0 + 8000000)) p c stMbxNoAnswer
    else ctlPush (sessSet (s.reach (t0 + 8000000)) p c { sessGet s p c with probes := (sessGet s p c).probes + 1, probeAt := some (s.reach (t0 + 8000000)).now }) p
      { chan := c, kind := kAck, sid := (sessGet s p c).sid, probe := true }) := by
  unfold execProbeTimerExpiry
  dsimp only
  rw [ht]
  exact congrArg nxt (if_neg hs)

theorem probeTimerExpiry_probes (hn : (sessGet s p c).probes < 6) : ∃ t, execProbeTimerExpiry p c s = .next t ∧ TimeLink s t ∧
    (sessGet t p c).probes = (sessGet s p c).probes + 1 ∧
    (portGet t p).ctl = (portGet s p).ctl ++ [{ chan := c, kind := kAck, sid := (sessGet s p c).sid, probe := true }] := by
  refine ⟨_, (execProbeTimerExpiry_runs ht hs).trans (congrArg nxt (if_neg (Nat.not_le.mpr hn))), (TimeLink.reach s _).sessSet.ctlPush, ?_, ?_⟩
  · rw [sessGet_ctlPush, sessGet_sessSet_same]
  · rw [portGet_ctlPush, portGet_sessSet, portGet_reach]

theorem probeTimerExpiry_aborts (hn : 6 ≤ (sessGet s p c).probes) : ∃ t, execProbeTimerExpiry p c s = .next t ∧ Aborted p c (sessGet s p c).sid t :=
  ⟨_, (execProbeTimerExpiry_runs ht hs).trans (congrArg nxt (if_pos hn)), deviceAbort_aborted _ _ hs⟩

end Probe

/-! ### OPEN and CLOSE -/

/-- A frame that opens or closes a session goes out again: its timer has stopped, and nothing but time changes beside. -/
theorem frameAgain_leaves (s : State) (p c n : Nat) (f : CtlFrame) :
    let t := ctlPush (sessSet (s.reach n) p c { sessGet s p c with timerAt := none }) p f
    TimeLink s t ∧ sessGet t p c = { sessGet s p c with timerAt := none } ∧ (portGet t p).ctl = (portGet s p).ctl ++ [f] := by
  refine ⟨(TimeLink.reach s n).sessSet.ctlPush, ?_, ?_⟩
  · rw [sessGet_ctlPush, sessGet_sessSet_same]
  · rw [portGet_ctlPush, portGet_sessSet, portGet_reach]

section Handshake
variable {s : State} {p c t0 : Nat} (ht : (sessGet s p c).timerAt = some t0)
include ht

theorem execOpenTimerExpiry_runs (hs : (sessGet s p c).state = .opening) :
    execOpenTimerExpiry p c s = .next (if (sessGet s p c).tries < 4 then
      ctlPush (sessSet (s.reach (t0 + 4000000)) p c { sessGet s p c with timerAt := none }) p
        { chan := c, kind := kOpen, sid := (sessGet s p c).sid, service := some (sessGet s p c).service }
      else sessClose (s.reach (t0 + 4000000)) p c stMbxNoAnswer stMbxNoAnswer) := by
  unfold execOpenTimerExpiry
  dsimp only
  rw [ht]
  exact congrArg nxt (if_neg (not_not.mpr hs))

theorem openTimerExpiry_repeats (hs : (sessGet s p c).state = .opening) (hn : (sessGet s p c).tries < 4) :
    ∃ t, execOpenTimerExpiry p c s = .next t ∧ TimeLink s t ∧ sessGet t p c = { sessGet s p c with timerAt := none } ∧
      (portGet t p).ctl = (portGet s p).ctl ++
        [{ chan := c, kind := kOpen, sid := (sessGet s p c).sid, service := some (sessGet s p c).service }] :=
  ⟨_, (execOpenTimerExpiry_runs ht hs).trans (congrArg nxt (if_pos hn)), frameAgain_leaves ..⟩

/-- The MBX_OPEN of a session that is not answered ends with MBX_NO_ANSWER. -/
theorem openTimerExpiry_givesUp {j : Nat} {y : Job} (hs : (sessGet s p c).state = .opening) (hn : 4 ≤ (sessGet s p c).tries)
    (ho : (sessGet s p c).opener = some j) (hj : jobGet s j = some y) (hr : s.part.resets.find? y.part = none) (hw : (sessGet s p c).fw = none)
    (hsends : (sessGet s p c).sends = []) (hrecvs : (sessGet s p c).recvs = []) (hh : (sessGet s p c).holding = none) (hc : (sessGet s p c).closers = []) :
    ∃ t, execOpenTimerExpiry p c s = .next t ∧ (sessGet t p c).state = .closed ∧
      jobGet t j = some { y with phase := .done, status := stMbxNoAnswer, result := 0, data := none } := by
  have hplain := TimeLink.reach s (t0 + 4000000)
  have hjobs : endJobs (s.reach (t0 + 4000000)) (sessGet s p c) stMbxNoAnswer stMbxNoAnswer = jobDone (s.reach (t0 + 4000000)) j stMbxNoAnswer 0 := by
    rw [endJobs_of _ _ _ hsends hh hw, hrecvs, ho, hc]
    rfl
  have hends := sessClose_holds (s := s.reach (t0 + 4000000)) (p := p) (c := c) stMbxNoAnswer stMbxNoAnswer (by rw [sessGet_reach, hs]; decide)
  rw [sessGet_reach, hjobs] at hends
  refine ⟨_, (execOpenTimerExpiry_runs ht hs).trans (congrArg nxt (if_neg (Nat.not_lt.mpr hn))), sessClose_closed .., ?_⟩
  rw [hends.link.jobGet]
  exact jobGet_jobDone_live _ ((hplain.jobGet j).trans hj) (by rwa [hplain.resets]) (by decide)

theorem execCloseTimerExpiry_runs (hs : (sessGet s p c).state = .closing) :
    execCloseTimerExpiry p c s = .next (if (sessGet s p c).tries < 3 then
      ctlPush (sessSet (s.reach (t0 + 4000000)) p c { sessGet s p c with timerAt := none }) p { chan := c, kind := kClose, sid := (sessGet s p c).sid }
      else sessClose (s.reach (t0 + 4000000)) p c stCancelled stOk) := by
  unfold execCloseTimerExpiry
  dsimp only
  rw [ht]
  exact congrArg nxt (if_neg (not_not.mpr hs))

theorem closeTimerExpiry_repeats (hs : (sessGet s p c).state = .closing) (hn : (sessGet s p c).tries < 3) :
    ∃ t, execCloseTimerExpiry p c s = .next t ∧ TimeLink s t ∧ sessGet t p c = { sessGet s p c with timerAt := none } ∧
      (portGet t p).ctl = (portGet s p).ctl ++ [{ chan := c, kind := kClose, sid := (sessGet s p c).sid }] :=
  ⟨_, (execCloseTimerExpiry_runs ht hs).trans (congrArg nxt (if_pos hn)), frameAgain_leaves ..⟩

theorem closeTimerExpiry_givesUp (hs : (sessGet s p c).state = .closing) (hn : 3 ≤ (sessGet s p c).tries) :
    ∃ t, execCloseTimerExpiry p c s = .next t ∧ (sessGet t p c).state = .closed :=
  ⟨_, (execCloseTimerExpiry_runs ht hs).trans (congrArg nxt (if_neg (Nat.not_lt.mpr hn))), sessClose_closed ..⟩

end Handshake

/-! ### The leak -/

theorem leakTimerExpiry_leaks {s : State} {p t0 : Nat} (ht : (portGet s p).leakAt = some t0) :
    let level := s.fget (pgClnk + p) F.LNK_MBX_BKT_LEVEL - 1
    ∃ t, execLeakTimerExpiry p s = .next t ∧ t = { s with regs := t.regs, time := t.time, clnk := t.clnk } ∧
      RegsOnly [(pgClnk + p, F.LNK_MBX_BKT_LEVEL.off)] s t ∧ t.fget (pgClnk + p) F.LNK_MBX_BKT_LEVEL = level ∧
      (portGet t p).leakAt = if level = 0 then none else some (t0 + 800000) := by
  intro level
  have hacts : execLeakTimerExpiry p s = .next (portMod ((s.reach (t0 + 800000)).fset (pgClnk + p) F.LNK_MBX_BKT_LEVEL level) p fun x =>
      { x with leakAt := if level = 0 then none else some (t0 + 800000) }) := by
    unfold execLeakTimerExpiry
    rw [ht]
    dsimp only
    rw [reach_fget]
  have hlt : level < 2 ^ F.LNK_MBX_BKT_LEVEL.wid := (Nat.sub_le _ 1).trans_lt (fget_lt s (pgClnk + p) F.LNK_MBX_BKT_LEVEL)
  refine ⟨_, hacts, ?_, ?_, ?_, ?_⟩
  · rw [reach_shape]
    rfl
  · exact ((RegsOnly.refl _ s).same fun q o _ => reach_reg s _ q o).fset (by simp) (by decide)
  · rw [portMod_fget, fget_fset_same _ _ _ _ (by decide), Nat.mod_eq_of_lt hlt]
  · rw [portGet_portMod_same]

/-! ### Jobs and updates -/

section Jobs
variable {s : State} {p c j : Nat} {y : Job} (hj : jobGet s j = some y) (hr : s.part.resets.find? y.part = none) (hp : mjPort y = p)
include hj hr hp

theorem mbxJobTimeout_endsRecv (hc : mjChan y = c) (hphase : y.phase = .started) (hop : y.opcode = 0x52) (hstage : y.stage ≠ 0)
    (hlimit : mjTimeout y ≠ 0) (hh : (sessGet s p c).holding ≠ some j) (hrecvs : (sessGet s p c).recvs = [j]) :
    ∃ t, execMbxJobTimeout j s = .next t ∧ t = { s with time := t.time, clnk := t.clnk, qe := { s.qe with jobs := t.qe.jobs } } ∧
      sessGet t p c = { sessGet s p c with recvs := [] } ∧
      jobGet t j = some { y with phase := .done, status := stMbxTimeout, result := 0, data := none } := by
  obtain ⟨n, hn⟩ : ∃ n, n = y.startTick + 800000 * mjTimeout y := ⟨_, rfl⟩
  have hacts : execMbxJobTimeout j s = .next (jobDone (sessSet (s.reach n) p c { sessGet s p c with recvs := [] }) j stMbxTimeout 0) := by
    unfold execMbxJobTimeout mjEnd
    rw [hj]
    dsimp only
    rw [if_pos ⟨hphase, hstage, .inr hop, hlimit⟩, if_pos hop, ← hn, hp, hc, sessGet_reach, if_neg hh, hrecvs, if_pos (List.mem_singleton.mpr rfl),
      List.erase_cons_head]
  have hplain : TimeLink s (sessSet (s.reach n) p c { sessGet s p c with recvs := [] }) := (TimeLink.reach s n).sessSet
  refine ⟨_, hacts, ?_, ?_, jobGet_jobDone_live _ ((hplain.jobGet j).trans hj) (by rwa [hplain.resets]) (by decide)⟩
  · rw [hplain.jobDone hj hr]
  · rw [sessGet_jobDone, sessGet_sessSet_same]

/-- The update's job ends first, then its session is aborted. -/
theorem fwReplyTimeout_aborts {f : FwRun} {t0 : Nat} (hc : mjChan y = c) (hf : (sessGet s p c).fw = some f) (hjob : f.job = j)
    (hsince : f.since = some t0) (hphase : f.phase = .begin) (hs : (sessGet s p c).state ≠ .closed) (hsends : (sessGet s p c).sends = [])
    (hrecvs : (sessGet s p c).recvs = []) (hh : (sessGet s p c).holding = none) (ho : (sessGet s p c).opener = none) (hcl : (sessGet s p c).closers = []) :
    ∃ t, execFwReplyTimeout j s = .next t ∧ Aborted p c (sessGet s p c).sid t ∧
      jobGet t j = some { y with phase := .done, status := stMbxTimeout, result := 0x81, data := none } := by
  obtain ⟨u, hu⟩ : ∃ u, u = sessMod (jobDone (s.reach (t0 + 4000000000)) j stMbxTimeout 0x81) p c fun x => { x with fw := none } := ⟨_, rfl⟩
  have hacts : execFwReplyTimeout j s = .next (deviceAbort u p c stMbxTimeout) := by
    unfold execFwReplyTimeout fwFail
    rw [hj]
    dsimp only
    rw [hp, hc, hf]
    dsimp only
    rw [hsince]
    dsimp only
    rw [if_neg (not_not.mpr hjob), sessGet_reach, hf]
    dsimp only
    rw [hphase, hjob, hu]
  have hsess : sessGet u p c = { sessGet s p c with fw := none } := by rw [hu, sessGet_sessMod_same, sessGet_jobDone, sessGet_reach]
  obtain ⟨hlink, hclosed, hlast⟩ := deviceAbort_aborts (s := u) (p := p) (c := c) stMbxTimeout none (by rw [hsess]; exact hs)
  rw [hsess] at hlast
  rw [endJobs_none u _ _ (by rw [hsess]; exact hsends) (by rw [hsess]; exact hrecvs) (by rw [hsess]; exact hh) (by rw [hsess]; exact ho) (by rw [hsess])
    (by rw [hsess]; exact hcl)] at hlink
  refine ⟨_, hacts, ⟨hclosed, hlast⟩, ?_⟩
  have hplain := TimeLink.reach s (t0 + 4000000000)
  rw [hlink.jobGet, hu]
  exact jobGet_jobDone_live _ ((hplain.jobGet j).trans hj) (by rwa [hplain.resets]) (by decide)

theorem fwRebootTimeout_ends {r : FwReboot} (hb : (portGet s p).reboots = [r]) (hjob : r.job = j) :
    ∃ t, execFwRebootTimeout j s = .next t ∧ t = { s with time := t.time, clnk := t.clnk, qe := { s.qe with jobs := t.qe.jobs } } ∧
      (portGet t p).reboots = [] ∧ jobGet t j = some { y with phase := .done, status := stFwNotRunning, result := 0, data := none } := by
  have hacts : execFwRebootTimeout j s = .next (jobDone (portMod (s.reach (r.since + 4000000000)) p fun y =>
      { y with reboots := y.reboots.filter fun k => k.job ≠ j }) j stFwNotRunning 0) := by
    unfold execFwRebootTimeout
    rw [hj]
    dsimp only
    rw [hp, hb, List.find?_cons_of_pos (by simpa using hjob)]
  have hplain : TimeLink s (portMod (s.reach (r.since + 4000000000)) p fun y => { y with reboots := y.reboots.filter fun k => k.job ≠ j }) :=
    (TimeLink.reach s _).portMod
  refine ⟨_, hacts, ?_, ?_, jobGet_jobDone_live _ ((hplain.jobGet j).trans hj) (by rwa [hplain.resets]) (by decide)⟩
  · rw [hplain.jobDone hj hr]
  · rw [portGet_jobDone, portGet_portMod_same, portGet_reach, hb]
    simp [hjob]

end Jobs

/-- Settles O52: each timer by what its command leaves, said above; every abort is `deviceAbort_aborts`, and a session that ends otherwise ends the jobs
of `endJobs_of`. -/
theorem mailboxTimers : Obligations.MailboxTimers := by
  unfold Obligations.MailboxTimers
  intro s p c
  dsimp only
  refine ⟨fun seq g t0 hx ht hs hi => ⟨rtoExpiry_repeats hx ht hs hi, rtoExpiry_aborts hx ht hs hi⟩, fun t0 => ackTimerExpiry_acks,
    fun t0 ht hs => ⟨probeTimerExpiry_probes ht hs, probeTimerExpiry_aborts ht hs⟩,
    fun t0 ht => ⟨openTimerExpiry_repeats ht, fun j y => openTimerExpiry_givesUp ht, closeTimerExpiry_repeats ht, closeTimerExpiry_givesUp ht⟩,
    fun t0 ht _ => leakTimerExpiry_leaks ht, fun j y hj hr hp hc => ⟨mbxJobTimeout_endsRecv hj hr hp hc, fun f t0 => fwReplyTimeout_aborts hj hr hp hc,
      fun r => fwRebootTimeout_ends hj hr hp⟩⟩

end Sys2Proof.Machine
end

section
/-! SUPPORT. Mailbox jobs that start (R398, R399, R409, R411, R414 to R416) and the firmware update of a limb (R420, R421). -/

namespace Sys2Proof.Machine

/-! ### Sessions that open and drain -/

/-- The session that a channel's next OPEN begins. -/
def Session.next (x : Session) (window service : Nat) (opener : Option Nat) (fw : Option FwRun) : Session :=
  let n := if x.sidCount = 255 then 1 else x.sidCount + 1
  { state := .opening, sid := n, sidCount := n, sidWrapped := x.sidWrapped || x.sidCount == 255, service := service, window := window,
    opener := opener, fw := fw }

theorem sessOpen_opens (s : State) (p c window service : Nat) (opener : Option Nat) (fw : Option FwRun) :
    let x := (sessGet s p c).next window service opener fw
    let t := sessOpen s p c window service opener fw
    LinkOnly s t ∧ sessGet t p c = x ∧
      (portGet t p).ctl = (portGet s p).ctl ++ [{ chan := c, kind := kOpen, sid := x.sid, service := some service }] := by
  unfold sessOpen
  dsimp only
  refine ⟨(LinkOnly.refl s).sessSet.ctlPush.mbxShow, ?_, ?_⟩
  · rw [sessGet_mbxShow, sessGet_ctlPush, sessGet_sessSet_same]
    rfl
  · rw [portGet_mbxShow, portGet_ctlPush, portGet_sessSet]
    rfl

/-- The session that has drained and waits for its CLOSE_ACK. -/
def Session.drained (x : Session) : Session :=
  { x with state := .closing, dlv := x.rcvNxt, rx := [], holding := none, msgOpen := false, got := 0, tries := 0, timerAt := none }

theorem drainCheck_drains {s : State} {p c : Nat} (hd : (sessGet s p c).state = .draining) (hf : (sessGet s p c).frags = [])
    (hs : (sessGet s p c).sends = []) (hh : (sessGet s p c).holding = none) :
    drainCheck s p c = ctlPush (sessSet s p c (sessGet s p c).drained) p { chan := c, kind := kClose, sid := (sessGet s p c).sid } := by
  unfold drainCheck
  dsimp only
  rw [if_pos ⟨hd, by rw [hf]; rfl, by rw [hs]; rfl⟩, hh]
  rfl

/-- A session that drains and has nothing to send or to deliver closes at once (R416). -/
theorem mbxSettle_drains {s : State} {p c : Nat} {x : Session} (hx : sessGet s p c = x) (hd : x.state = .draining) (hf : x.frags = [])
    (hs : x.sends = []) (hr : x.rx = []) (hh : x.holding = none) (hw : x.fw = none) :
    LinkOnly s (mbxSettle s p c) ∧ (∃ a n, sessGet (mbxSettle s p c) p c = x.drained.probing a n) ∧
      (portGet (mbxSettle s p c) p).ctl = (portGet s p).ctl ++ [{ chan := c, kind := kClose, sid := x.sid }] := by
  have hfed := feedSends_holds s p c
  rw [hx, feedFrom_noSends hs] at hfed
  have hv := hfed.sess
  rw [← hv] at hd hf hs hr hh hw
  obtain ⟨a, n, hprobe⟩ := probeCheck_holds (drainCheck (feedSends s p c) p c) p c
  rw [drainCheck_drains hd hf hs hh] at hprobe
  have hsettle : mbxSettle s p c = mbxShow (probeCheck (drainCheck (feedSends s p c) p c) p c) p c := by
    rw [mbxSettle_eq, deliver_empty hr, mbxSettled, fwChunksDone_other (fun f h => by rw [hw] at h; cases h)]
  rw [hsettle, drainCheck_drains hd hf hs hh]
  refine ⟨hfed.link.sessSet.ctlPush.trans hprobe.mbxShow.link, ⟨a, n, ?_⟩, ?_⟩
  · rw [hprobe.mbxShow.sess, sessGet_ctlPush, sessGet_sessSet_same, hv]
  · rw [hprobe.mbxShow.ctl, portGet_ctlPush, portGet_sessSet, hfed.ctl, hv]

/-! ### Checks -/

theorem passed_of_ite {c : Prop} [Decidable c] {a : Nat} {o : Option Nat} (h : (if c then some a else o) = none) : ¬ c ∧ o = none := by
  split at h
  · cases h
  · exact ⟨‹_›, h⟩

/-- A job of an open session that passes the checks names one that is not closed (R415). -/
theorem open_of_mjCheck {s : State} {x : Job} (h : mjCheck s x = none) (ho : x.opcode ≠ 0x50) (hw : x.opcode ≠ 0x55) :
    (sessGet s (mjPort x) (mjChan x)).state ≠ .closed := by
  intro hc
  unfold mjCheck at h
  iterate 8 replace h := (passed_of_ite h).2
  exact (passed_of_ite h).1 ⟨not_or.mpr ⟨ho, hw⟩, .inl hc⟩

section Fails
variable {s : State} {job st : Nat} {x : Job} (hs : x.stage = 0) (hc : mjCheck s x = some st)
include hs hc

theorem mbxOpen_fails (hx : startedJob s job 0x50 = some x) : execMbxOpen job s = .next (jobDone s job st 0) := by simp [execMbxOpen, hx, hs, hc]
theorem mbxSend_fails (hx : startedJob s job 0x51 = some x) : execMbxSend job s = .next (jobDone s job st 0) := by simp [execMbxSend, hx, hs, hc]
theorem mbxRecv_fails (hx : startedJob s job 0x52 = some x) : execMbxRecv job s = .next (jobDone s job st 0) := by simp [execMbxRecv, hx, hs, hc]
theorem mbxClose_fails (hx : startedJob s job 0x53 = some x) : execMbxClose job s = .next (jobDone s job st 0) := by simp [execMbxClose, hx, hs, hc]
theorem mbxAbort_fails (hx : startedJob s job 0x54 = some x) : execMbxAbort job s = .next (jobDone s job st 0) := by simp [execMbxAbort, hx, hs, hc]

/-- A job that fails a check ends with the outcome, and nothing else happens. -/
theorem mailJobs_fail (e : Instr × Nat)
    (he : e ∈ [(Instr.mbxOpen job, 0x50), (Instr.mbxSend job, 0x51), (Instr.mbxRecv job, 0x52), (Instr.mbxClose job, 0x53), (Instr.mbxAbort job, 0x54)])
    (hx : startedJob s job e.2 = some x) : exec e.1 s = .next (jobDone s job st 0) := by
  simp only [List.mem_cons, List.not_mem_nil, or_false] at he
  rcases he with rfl | rfl | rfl | rfl | rfl
  exacts [mbxOpen_fails hs hc hx, mbxSend_fails hs hc hx, mbxRecv_fails hs hc hx, mbxClose_fails hs hc hx, mbxAbort_fails hs hc hx]

end Fails

/-! ### Jobs that pass the checks -/

/-- A job that waits while registers and CriskaLink change: the job table changes beside them. -/
theorem LinkOnly.ofJobSet {s t : State} {j : Nat} {x : Job} (h : LinkOnly (jobSet s j x) t) :
    t = { s with regs := t.regs, clnk := t.clnk, qe := { s.qe with jobs := t.qe.jobs } } := by
  have hqe : t.qe = (jobSet s j x).qe := by rw [h]
  rw [hqe]
  exact h

theorem noChunks_of_none {x : Session} (h : x.fw = none) : ∀ f, x.fw = some f → f.phase ≠ .chunks := by simp [h]

theorem notDone_of_started {x : Job} (h : x.phase = .started) : ¬ ((some x).any fun y => y.phase = .done) = true := by simp [h]

section Passes
variable {s : State} {job p c : Nat} {x : Job} (hp : mjPort x = p) (hch : mjChan x = c) (hs : x.stage = 0) (hc : mjCheck s x = none)
include hp hch hs hc

theorem mbxOpen_opens (hx : startedJob s job 0x50 = some x) :
    ∃ t, execMbxOpen job s = .next t ∧ t = { s with regs := t.regs, clnk := t.clnk, qe := { s.qe with jobs := t.qe.jobs } } ∧
      jobGet t job = some { x with stage := 1 } ∧
      sessGet t p c = (sessGet s p c).next (mjWindow x) (mjService x) (some job) none ∧
      (portGet t p).ctl = (portGet s p).ctl ++
        [{ chan := c, kind := kOpen, sid := ((sessGet s p c).next (mjWindow x) (mjService x) (some job) none).sid,
           service := some (mjService x) }] := by
  have hacts : execMbxOpen job s = .next (sessOpen (jobSet s job { x with stage := 1 }) p c (mjWindow x) (mjService x) (some job) none) := by
    unfold execMbxOpen
    rw [hx]
    dsimp only
    rw [if_neg (not_not.mpr hs), hc, hp, hch]
  obtain ⟨hlink, hsess, hctl⟩ := sessOpen_opens (jobSet s job { x with stage := 1 }) p c (mjWindow x) (mjService x) (some job) none
  exact ⟨_, hacts, hlink.ofJobSet, by rw [hlink.jobGet, jobGet_jobSet_same], hsess, hctl⟩

/-- MBX_SEND asks for its data and takes its place behind the sends before it. -/
theorem mbxSend_asks (hx : startedJob s job 0x51 = some x) (hlen : mjLength x ≠ 0) (hd : x.data = none) (hh : HostHears s x.part) :
    ∃ t, execMbxSend job s = .next t ∧ jobGet t job = some { x with stage := 1 } ∧
      sessGet t p c = { sessGet s p c with sends := (sessGet s p c).sends ++ [job] } ∧
      t.host.out = .read x.part (mjAddr x) (mjLength x) :: s.host.out := by
  obtain ⟨u, hu⟩ : ∃ u, u = sessMod s p c fun z => { z with sends := z.sends ++ [job] } := ⟨_, rfl⟩
  have hlink : LinkOnly s u := hu ▸ (LinkOnly.refl s).sessSet
  have hjob : jobGet u job = some x := (hlink.jobGet job).trans (jobGet_of_started hx)
  have hask : ∀ bad k, withHostData u job (mjAddr x) (mjLength x) bad k =
      hostSend (jobSet u job { x with stage := 1 }) x.part (.read x.part (mjAddr x) (mjLength x)) := fun bad k => by
    unfold withHostData
    rw [hjob]
    dsimp only
    rw [hd]
    exact if_pos hs
  have hwaits : jobGet (hostSend (jobSet u job { x with stage := 1 }) x.part (.read x.part (mjAddr x) (mjLength x))) job = some { x with stage := 1 } := by
    rw [hostSend_shape]
    exact jobGet_jobSet_same ..
  have hacts : execMbxSend job s = .next (hostSend (jobSet u job { x with stage := 1 }) x.part (.read x.part (mjAddr x) (mjLength x))) := by
    unfold execMbxSend
    rw [hx]
    dsimp only
    rw [if_neg fun h => h.1 hs, if_pos hs, hc]
    dsimp only
    rw [if_pos hs, if_neg hlen, hp, hch, ← hu, hask, hwaits]
    exact congrArg nxt (if_neg (notDone_of_started (started_fields hx).1))
  have hears : HostHears (jobSet u job { x with stage := 1 }) x.part := by
    unfold HostHears
    rw [hu]
    exact hh
  refine ⟨_, hacts, hwaits, ?_, ?_⟩
  · rw [sessGet_hostSend, sessGet_jobSet, hu, sessGet_sessMod_same]
  · rw [hostSend_hears _ hears, hu]
    rfl

/-- MBX_RECV takes its place behind the others. -/
theorem mbxRecv_waits (hx : startedJob s job 0x52 = some x) (ho : (sessGet s p c).state = .opened)
    (hsends : (sessGet s p c).sends = []) (hr : (sessGet s p c).rx = [])
    (hw : (sessGet s p c).fw = none) :
    ∃ t, execMbxRecv job s = .next t ∧ jobGet t job = some { x with stage := 1 } ∧
      (sessGet t p c).recvs = (sessGet s p c).recvs ++ [job] ∧
      (sessGet t p c).state = .opened := by
  obtain ⟨u, hu⟩ : ∃ u, u = sessMod (jobSet s job { x with stage := 1 }) p c fun z => { z with recvs := z.recvs ++ [job] } := ⟨_, rfl⟩
  have hacts : execMbxRecv job s = .next (mbxSettle u p c) := by
    unfold execMbxRecv
    rw [hx]
    dsimp only
    rw [if_neg (not_not.mpr hs), hc, hp, hch, hu]
  have hsess : sessGet u p c = { sessGet s p c with recvs := (sessGet s p c).recvs ++ [job] } := by
    rw [hu, sessGet_sessMod_same, sessGet_jobSet]
  obtain ⟨a, n, hends⟩ := mbxSettle_fed (s := u) (p := p) (c := c) (feedFrom_noSends (by rw [hsess]; exact hsends))
    (by rw [hsess]; exact hr) (noChunks_of_none (by rw [hsess]; exact hw)) (by rw [hsess]; exact ne_of_eq_of_ne ho (by decide))
  rw [hsess] at hends
  refine ⟨_, hacts, ?_, by rw [hends.sess]; rfl, by rw [hends.sess]; exact ho⟩
  rw [hends.link.jobGet, hu]
  exact jobGet_jobSet_same ..

/-- MBX_CLOSE of a session with nothing to send queues CLOSE at once. -/
theorem mbxClose_closes (hx : startedJob s job 0x53 = some x) (ho : (sessGet s p c).state = .opened)
    (hsends : (sessGet s p c).sends = []) (hf : (sessGet s p c).frags = [])
    (hrecvs : (sessGet s p c).recvs = []) (hr : (sessGet s p c).rx = [])
    (hw : (sessGet s p c).fw = none) (hh : (sessGet s p c).holding = none) :
    ∃ t, execMbxClose job s = .next t ∧ jobGet t job = some { x with stage := 1 } ∧ (sessGet t p c).state = .closing ∧
      (sessGet t p c).closers = (sessGet s p c).closers ++ [job] ∧
      (portGet t p).ctl = (portGet s p).ctl ++
        [{ chan := c, kind := kClose, sid := (sessGet s p c).sid }] := by
  obtain ⟨z, hz⟩ : ∃ z, z = { sessGet s p c with
      closers := (sessGet s p c).closers ++ [job], recvs := [], state := .draining } := ⟨_, rfl⟩
  have hacts : execMbxClose job s =
      .next (mbxSettle (sessSet (jobSet s job { x with stage := 1 }) p c z) p c) := by
    unfold execMbxClose
    rw [hx]
    dsimp only
    rw [if_neg (not_not.mpr hs), hc]
    dsimp only
    rw [hp, hch, hrecvs, if_pos ho, hz]
    rfl
  obtain ⟨hlink, ⟨a, n, hsess⟩, hctl⟩ := mbxSettle_drains (s := sessSet (jobSet s job { x with stage := 1 }) p c z)
    (sessGet_sessSet_same ..) (by rw [hz]) (by rw [hz]; exact hf) (by rw [hz]; exact hsends) (by rw [hz]; exact hr) (by rw [hz]; exact hh)
    (by rw [hz]; exact hw)
  refine ⟨_, hacts, ?_, by rw [hsess]; rfl, by rw [hsess, hz]; rfl, ?_⟩
  · rw [hlink.jobGet]
    exact jobGet_jobSet_same ..
  · rw [hctl, portGet_sessSet, hz]
    rfl

/-- MBX_ABORT of a session without other jobs closes the channel and waits for its ABORT to leave. -/
theorem mbxAbort_aborts (hx : startedJob s job 0x54 = some x) (hsends : (sessGet s p c).sends = [])
    (hrecvs : (sessGet s p c).recvs = []) (hh : (sessGet s p c).holding = none)
    (ho : (sessGet s p c).opener = none) (hcl : (sessGet s p c).closers = [])
    (hw : (sessGet s p c).fw = none) :
    ∃ t, execMbxAbort job s = .next t ∧ jobGet t job = some { x with stage := 1 } ∧ (sessGet t p c).state = .closed ∧
      (portGet t p).ctl.getLast? =
        some { chan := c, kind := kAbort, sid := (sessGet s p c).sid, job := some job } := by
  have hacts : execMbxAbort job s =
      .next (deviceAbort (jobSet s job { x with stage := 1 }) p c stMbxAborted (some job)) := by
    unfold execMbxAbort
    rw [hx]
    dsimp only
    rw [if_neg (not_not.mpr hs), hc, hp, hch]
  have hop := (started_fields hx).2
  have hopen : (sessGet (jobSet s job { x with stage := 1 }) p c).state ≠ .closed := by
    rw [sessGet_jobSet, ← hp, ← hch]
    exact open_of_mjCheck hc (by rw [hop]; decide) (by rw [hop]; decide)
  obtain ⟨hlink, hclosed, hlast⟩ := deviceAbort_aborts stMbxAborted (some job) hopen
  rw [sessGet_jobSet, endJobs_none _ _ _ hsends hrecvs hh ho hw hcl] at hlink
  refine ⟨_, hacts, ?_, hclosed, hlast⟩
  rw [hlink.jobGet, jobGet_jobSet_same]

end Passes

/-! ### Data that have come -/

/-- The session whose only MBX_SEND has been fed its data. -/
def Session.fedOnly (x : Session) (job : Nat) (d : List Byte) : Session :=
  { x with fed := [job], ready := [], frags := x.frags ++ fragments job none d }

theorem feedFrom_only {x : Session} {job : Nat} {d : List Byte} (hs : x.sends = [job]) (hf : x.fed = []) (hr : x.ready = [(job, d)]) :
    feedFrom x.sends.length x = x.fedOnly job d := by
  rw [hs]
  simp [feedFrom, hs, hf, hr, Tab.find?, Tab.del, Session.fedOnly]

theorem mbxSend_queues {s : State} {job p c : Nat} {x : Job} {d : List Byte} (hp : mjPort x = p) (hch : mjChan x = c)
    (hx : startedJob s job 0x51 = some x) (hcancel : x.cancel = false) (hstage : x.stage = 1) (hd : x.data = some (.good d [])) (hlen : mjLength x ≠ 0) (ho : (sessGet s p c).state = .opened)
    (hsends : (sessGet s p c).sends = [job]) (hfed : (sessGet s p c).fed = [])
    (hready : (sessGet s p c).ready = []) (hr : (sessGet s p c).rx = [])
    (hw : (sessGet s p c).fw = none) :
    ∃ t, execMbxSend job s = .next t ∧
      (sessGet t p c).frags = (sessGet s p c).frags ++ fragments job none d ∧
      (sessGet t p c).fed = [job] ∧ (sessGet t p c).state = .opened ∧ jobGet t job = some x := by
  obtain ⟨z, hz⟩ : ∃ z, z = { sessGet s p c with ready := [(job, d)] } := ⟨_, rfl⟩
  have hsess : sessGet (sessSet s p c z) p c = z := sessGet_sessSet_same ..
  have hfeed : feedFrom z.sends.length z = z.fedOnly job d := feedFrom_only (by rw [hz]; exact hsends) (by rw [hz]; exact hfed) (by rw [hz])
  obtain ⟨a, n, hends⟩ := mbxSettle_fed (x := z.fedOnly job d) (by rw [hsess]; exact hfeed) (by rw [hz]; exact hr) (noChunks_of_none (by rw [hz]; exact hw))
    (by rw [hz]; exact ne_of_eq_of_ne ho (by decide))
  have hjob : jobGet (mbxSettle (sessSet s p c z) p c) job = some x := by
    rw [hends.link.jobGet]
    exact jobGet_of_started hx
  have hnew : ¬ (job ∈ (sessGet s p c).fed ∨ ((sessGet s p c).ready.find? job).isSome = true) := by
    simp [hfed, hready]
  have hasked : ¬ x.stage = 0 := by rw [hstage]; decide
  have hacts : execMbxSend job s = .next (mbxSettle (sessSet s p c z) p c) := by
    unfold execMbxSend
    rw [hx]
    dsimp only
    rw [if_neg (by rw [hcancel]; exact fun h => Bool.false_ne_true h.2), if_neg hasked]
    dsimp only
    rw [if_neg hlen, if_neg hasked, hp, hch, withHostData_good _ _ _ _ (jobGet_of_started hx) hd, if_neg hnew, hready, Tab.ins, ← hz, hjob]
    exact congrArg nxt (if_neg (notDone_of_started (started_fields hx).1))
  exact ⟨_, hacts, by rw [hends.sess, hz]; rfl, by rw [hends.sess]; rfl, by rw [hends.sess, hz]; exact ho, hjob⟩

section Update
variable {s : State} {job p c : Nat} {x : Job} {d : List Byte} (hp : mjPort x = p) (hch : mjChan x = c)
  (hx : startedJob s job 0x55 = some x) (hstage : x.stage = 1) (hcancel : x.cancel = false) (hw : (sessGet s p c).fw = none) (hb : ∀ r ∈ (portGet s p).reboots, r.job ≠ job) (hd : x.data = some (.good d []))
include hp hch hx hstage hcancel hw hb hd

/-- The container of an update that is in no session yet is verified. -/
theorem execFwUpdate_verifies : execFwUpdate job s = .next (match fwVerify s x d with
    | some (st, r) => jobDone s job st r
    | none => match mjCheck s x with
      | some st => jobDone s job st 0
      | none => sessOpen s p c (mjWindow x) 0x0002 none (some { job := job, header := d.take 128 })) := by
  unfold execFwUpdate
  rw [hx]
  dsimp only
  rw [hp, hch, hw]
  dsimp only
  rw [if_neg (by simpa using hb), if_neg (by simp [hcancel]), if_neg (by simp [hstage])]
  dsimp only
  rw [withHostData_good _ _ _ _ (jobGet_of_started hx) hd] <;> rfl

theorem fwUpdate_opens (hv : fwVerify s x d = none) (hc : mjCheck s x = none) :
    ∃ t, execFwUpdate job s = .next t ∧ LinkOnly s t ∧ (sessGet t p c).state = .opening ∧
      (sessGet t p c).fw = some { job := job, header := d.take 128 } ∧ (sessGet t p c).service = 2 := by
  have hacts := execFwUpdate_verifies hp hch hx hstage hcancel hw hb hd
  rw [hv] at hacts
  dsimp only at hacts
  rw [hc] at hacts
  obtain ⟨hlink, hsess, -⟩ := sessOpen_opens s p c (mjWindow x) 0x0002 none (some { job := job, header := d.take 128 })
  exact ⟨_, hacts, hlink, by rw [hsess]; rfl, by rw [hsess]; rfl, by rw [hsess]; rfl⟩

theorem fwUpdate_fails {st r : Nat} (hv : fwVerify s x d = some (st, r)) : execFwUpdate job s = .next (jobDone s job st r) := by
  rw [execFwUpdate_verifies hp hch hx hstage hcancel hw hb hd, hv]

end Update

/-- Settles O51: each job by what its command leaves, said above; sessions open by `sessOpen_opens`, close by `mbxSettle_drains` and abort by
`deviceAbort_aborts`. -/
theorem mailboxJobs : Obligations.MailboxJobs := by
  unfold Obligations.MailboxJobs
  intro s job x
  dsimp only
  refine ⟨fun e he hx hs st hc => mailJobs_fail hs hc e he hx, fun hx hs hc => mbxOpen_opens rfl rfl hs hc hx,
    fun hx hcancel => ⟨fun hs hc hlen hd hdead hbme => mbxSend_asks rfl rfl hs hc hx hlen hd ⟨hdead, hbme⟩, fun d => mbxSend_queues rfl rfl hx hcancel⟩,
    fun hx hs hc => mbxRecv_waits rfl rfl hs hc hx, fun hx hs hc => mbxClose_closes rfl rfl hs hc hx, fun hx hs hc => mbxAbort_aborts rfl rfl hs hc hx,
    fun hx hstage hcancel hw hb d hd => ⟨fwUpdate_opens rfl rfl hx hstage hcancel hw hb hd, fun st r => fwUpdate_fails rfl rfl hx hstage hcancel hw hb hd⟩⟩

end Sys2Proof.Machine
end

section
/-! SUPPORT. Mailbox frames from the limb: the checks of Table 12.7, an OPEN that is wasted (R412, R413), and what a frame of a session does before its
kind counts (R400, R401, R406). -/

namespace Sys2Proof.Machine

/-! ### Numbers modulo 65 536 -/

@[simp] theorem seqPrecedes_self (a : Nat) : seqPrecedes a a = false := by
  have h : (a + 65536 - a % 65536) % 65536 = 0 := by omega
  simp [seqPrecedes, h]

/-- A number does not precede the one before it. -/
theorem seqPrecedes_next (a : Nat) : seqPrecedes ((a + 1) % 65536) a = false := by
  have h : (a + 65536 - (a + 1) % 65536 % 65536) % 65536 = 65535 := by omega
  unfold seqPrecedes
  dsimp only
  rw [h]
  decide

/-- A number precedes the end of the window that begins with it. -/
theorem seqPrecedes_window (a : Nat) : seqPrecedes a ((a + 16) % 65536) = true := by
  have h : ((a + 16) % 65536 + 65536 - a % 65536) % 65536 = 16 := by omega
  simp [seqPrecedes, h]

/-- A frame that acknowledges all that was sent acknowledges nothing unsent. -/
theorem acksUnsent_all (x : Session) : acksUnsent x x.sndNxt 0 = false := by simp [acksUnsent]

/-! ### Wasted frames -/

/-- A frame that is wasted while the bucket is not full counts in it, and the bucket leaks (R412). -/
theorem wasted_counts {s : State} {p : Nat} (h : s.fget (pgClnk + p) F.LNK_MBX_BKT_LEVEL < 31) :
    LinkOnly s (wasted s p wOutOfTurn) ∧ PagesOnly (· = pgClnk + p) s (wasted s p wOutOfTurn) ∧
      (wasted s p wOutOfTurn).fget (pgClnk + p) F.LNK_MBX_BKT_LEVEL = s.fget (pgClnk + p) F.LNK_MBX_BKT_LEVEL + 1 ∧
      portGet (wasted s p wOutOfTurn) p = { portGet s p with leakAt := some ((portGet s p).leakAt.getD s.now) } := by
  obtain ⟨lv, hlv⟩ : ∃ lv, lv = s.fget (pgClnk + p) F.LNK_MBX_BKT_LEVEL + 1 := ⟨_, rfl⟩
  have hcount : (wasteCount s p wOutOfTurn).fget (pgClnk + p) F.LNK_MBX_BKT_LEVEL + 1 = lv := by
    rw [hlv, wasteCount, State.fincSat, fget_fset_apart _ _ _ (by decide)]
  obtain ⟨u, hu⟩ : ∃ u, u = (wasteCount s p wOutOfTurn).fset (pgClnk + p) F.LNK_MBX_BKT_LEVEL lv := ⟨_, rfl⟩
  obtain ⟨v, hv⟩ : ∃ v, v = if u.fget (pgClnk + p) F.LNK_MBX_BKT_PEAK < lv then u.fset (pgClnk + p) F.LNK_MBX_BKT_PEAK lv else u := ⟨_, rfl⟩
  have hw : wasted s p wOutOfTurn = portMod v p fun x => { x with leakAt := some (x.leakAt.getD v.now) } := by
    unfold wasted
    dsimp only
    rw [hcount, ← hu, ← hv, if_neg (by omega)]
  have hlinkU : LinkOnly s u := hu ▸ (LinkOnly.refl s).fset.fset
  have hpagesU : PagesOnly (· = pgClnk + p) s u := hu ▸
    ((PagesOnly.refl (· = pgClnk + p) s).fincSat (f := ⟨F.LNK_MBX_WASTE.off, 3 * wOutOfTurn, 3⟩) rfl (by decide)).fset (f := F.LNK_MBX_BKT_LEVEL) rfl (by decide)
  have hlevelU : u.fget (pgClnk + p) F.LNK_MBX_BKT_LEVEL = lv := by
    rw [hu, fget_fset_same _ _ _ _ (by decide)]
    exact Nat.mod_eq_of_lt (by simp only; omega)
  have hportU : portGet u p = portGet s p := by rw [hu]; rfl
  have hlink : LinkOnly s v := hv ▸ .ite hlinkU.fset hlinkU
  have hpages : PagesOnly (· = pgClnk + p) s v := hv ▸ .ite (fun _ => hpagesU.fset rfl (by decide)) fun _ => hpagesU
  have hlevel : v.fget (pgClnk + p) F.LNK_MBX_BKT_LEVEL = lv := by
    rw [hv]
    split
    · rw [fget_fset_apart _ _ _ (by decide), hlevelU]
    · exact hlevelU
  have hport : portGet v p = portGet s p := by
    rw [hv]
    split
    · rw [portGet_fset, hportU]
    · exact hportU
  rw [hw]
  refine ⟨hlink.portMod, hpages.portMod, hlevel.trans hlv, ?_⟩
  rw [portGet_portMod_same, hport, hlink.now]

/-! ### The checks of Table 12.7 -/

/-- A frame of the current epoch with a good header on a served channel. -/
structure GoodFrame (s : State) (p : Nat) (f : MbxFrame) : Prop where
  hears : portHears s p = true
  current : (portGet s p).current = some f.epoch
  short : 8 ≤ f.data.length
  long : f.data.length ≤ 256
  header : mhBad f = false
  chan : f.chan < 8
  served : natBit (capsChannels (portGet s p)) f.chan = true

section Good
variable {s : State} {p : Nat} {f : MbxFrame} (hf : GoodFrame s p f)
include hf

/-- Such a frame is heard under its own kind. -/
theorem mbxIn_good {ok : Bool} (hok : ok = true) : mbxIn s p f ok = mbxFrameIn s p f := by
  unfold mbxIn
  dsimp only
  rw [if_neg (by simp [hf.hears, hok]), if_neg (Nat.not_lt.mpr hf.long), if_neg (by simp [epochOk, hf.current])]

theorem mbxScreen_good : mbxScreen s p f =
    if mhKind f = kOpen then some (wasted (ctlPush s p { chan := f.chan, kind := kAbort, sid := mhSid f }) p wOutOfTurn)
    else if ¬ sidIssued (sessGet s p f.chan) (mhSid f) then some (wasted (ctlPush s p { chan := f.chan, kind := kAbort, sid := mhSid f }) p wOutOfTurn)
    else if (sessGet s p f.chan).state = .closed ∨ (sessGet s p f.chan).sid ≠ mhSid f then some (wasted s p wStaleSid)
    else none := by
  unfold mbxScreen
  dsimp only
  rw [if_neg (Nat.not_lt.mpr hf.short), if_neg (by simp [hf.header]), if_neg (by simp [hf.served, hf.chan])]

/-- The frame is as good once it has been counted. -/
theorem GoodFrame.counted : GoodFrame (linkCount s p 0) p f :=
  { hf with
    hears := by
      have hstat := linkCount_fieldsBut s p (k := 0) (by decide) (pgClnk + p)
      have hup : islandsUp (linkCount s p 0) = islandsUp s := by
        rw [islandsUp, islandsUp, (linkCount_pages s p (by decide)).fget (by simp only [pgChip, pgClnk]; omega) (by decide)]
      have hdead : portDead (linkCount s p 0) p = portDead s p := by
        rw [portDead, portDead, hup, linkState, linkState, hstat.fget (by decide)]
        rfl
      rw [portHears, hdead, hstat.fbit (by decide)]
      exact hf.hears }

/-- An OPEN is answered by an ABORT with its SID and wasted (R413). -/
theorem mbxOpenFrame_wasted (hk : mhKind f = kOpen) (hl : s.fget (pgClnk + p) F.LNK_MBX_BKT_LEVEL < 31) :
    ∃ t, execMbxOpenFrame p f s = .next t ∧ LinkOnly s t ∧ PagesOnly (· = pgClnk + p) s t ∧
      (portGet t p).ctl = (portGet s p).ctl ++ [{ chan := f.chan, kind := kAbort, sid := mhSid f }] ∧ (portGet t p).chans = (portGet s p).chans ∧
      t.fget (pgClnk + p) F.LNK_MBX_BKT_LEVEL = s.fget (pgClnk + p) F.LNK_MBX_BKT_LEVEL + 1 ∧ (portGet t p).leakAt.isSome = true := by
  obtain ⟨u, hu⟩ : ∃ u, u = ctlPush (linkCount s p 0) p { chan := f.chan, kind := kAbort, sid := mhSid f } := ⟨_, rfl⟩
  have hacts : execMbxOpenFrame p f s = .next (wasted u p wOutOfTurn) := by
    unfold execMbxOpenFrame
    rw [mbxIn_good hf (by simp [hk]), mbxFrameIn]
    dsimp only
    rw [mbxScreen_good hf.counted, if_pos hk, hu]
  have hlevel : u.fget (pgClnk + p) F.LNK_MBX_BKT_LEVEL = s.fget (pgClnk + p) F.LNK_MBX_BKT_LEVEL := by
    rw [hu]
    exact (linkCount_fieldsBut s p (k := 0) (by decide) (pgClnk + p)).fget (by decide)
  have hport : portGet u p = { portGet s p with ctl := (portGet s p).ctl ++ [{ chan := f.chan, kind := kAbort, sid := mhSid f }] } := by
    rw [hu, portGet_ctlPush, portGet_linkCount]
  have hlinkU : LinkOnly s u := hu ▸ (LinkOnly.refl s).linkCount.ctlPush
  have hpagesU : PagesOnly (· = pgClnk + p) s u := hu ▸ (linkCount_pages s p (by decide)).portMod
  obtain ⟨hlink, hpages, hcount, hleak⟩ := wasted_counts (hlevel ▸ hl)
  rw [hport] at hleak
  exact ⟨_, hacts, hlinkU.trans hlink, hpagesU.trans hpages, by rw [hleak], by rw [hleak], by rw [hcount, hlevel], by rw [hleak]; rfl⟩

end Good

/-! ### A frame of the session that it names -/

/-- A frame names a session in which nothing waits to be delivered, and its SACK names nothing. -/
structure NamesSession (f : MbxFrame) (x : Session) : Prop where
  sid : x.sid = mhSid f
  issued : sidIssued x (mhSid f) = true
  una : x.una < 65536
  rx : x.rx = []
  dlv : x.dlv < 65536
  shut : x.msgOpen = false
  free : x.holding = none
  sack : mhSack f = 0

/-- A session in which nothing is sent, for which a frame acknowledges all. -/
structure Unsent (f : MbxFrame) (x : Session) : Prop where
  frags : x.frags = []
  flight : x.flight = 0
  sends : x.sends = []
  ackn : mhAckn f = x.una

/-- What a frame of a session does, by its kind. -/
def kindTaken (s : State) (p : Nat) (f : MbxFrame) : State :=
  if mhKind f = kOpenAck then openAckFrame s p f
  else if mhKind f = kData then dataFrame s p f
  else if mhKind f = kAck then (if mhProbe f then ackNow (frameTaken s p f) p f.chan else frameTaken s p f)
  else if mhKind f = kClose then closeFrame s p f
  else if mhKind f = kCloseAck then sessClose (frameTaken s p f) p f.chan stCancelled stOk
  else sessClose (ctlDrop s p f.chan) p f.chan stMbxPeerAbort stMbxPeerAbort

section Kinds
variable {s : State} {p : Nat} {f : MbxFrame}

theorem kindTaken_openAck (h : mhKind f = kOpenAck) : kindTaken s p f = openAckFrame s p f := if_pos h

theorem kindTaken_data (h : mhKind f = kData) : kindTaken s p f = dataFrame s p f := by
  rw [kindTaken, h, if_neg (by decide), if_pos rfl]

theorem kindTaken_ack (h : mhKind f = kAck) (hp : mhProbe f = false) : kindTaken s p f = frameTaken s p f := by
  rw [kindTaken, h, if_neg (by decide), if_neg (by decide), if_pos rfl, hp, if_neg Bool.false_ne_true]

theorem kindTaken_close (h : mhKind f = kClose) : kindTaken s p f = closeFrame s p f := by
  rw [kindTaken, h, if_neg (by decide), if_neg (by decide), if_neg (by decide), if_pos rfl]

theorem kindTaken_closeAck (h : mhKind f = kCloseAck) : kindTaken s p f = sessClose (frameTaken s p f) p f.chan stCancelled stOk := by
  rw [kindTaken, h, if_neg (by decide), if_neg (by decide), if_neg (by decide), if_neg (by decide), if_pos rfl]

theorem kindTaken_abort (h : mhKind f = kAbort) :
    kindTaken s p f = sessClose (ctlDrop s p f.chan) p f.chan stMbxPeerAbort stMbxPeerAbort := by
  rw [kindTaken, h, if_neg (by decide), if_neg (by decide), if_neg (by decide), if_neg (by decide), if_neg (by decide)]

end Kinds

/-- A channel that is not closed goes on. -/
def goesOn (s : State) (p c : Nat) : State := if (sessGet s p c).state = .closed then s else mbxSettle s p c

/-- A frame that passes every check does what its kind says, and the channel goes on. -/
theorem mbxFrameIn_takes {s : State} {p : Nat} {f : MbxFrame} {x : Session} (hf : GoodFrame s p f) (hx : sessGet s p f.chan = x) (hn : NamesSession f x)
    (hs : x.state ≠ .closed) (hk : mhKind f ≠ kOpen) (ht : outOfTurn x (mhKind f) = false) (hd : ¬ (mhKind f = kOpenAck ∧ x.state = .opened))
    (ha : mhAckn f = x.sndNxt) : mbxFrameIn s p f = goesOn (kindTaken (linkCount s p 0) p f) p f.chan := by
  have hscreen : mbxScreen (linkCount s p 0) p f = none := by
    rw [mbxScreen_good hf.counted, if_neg hk, sessGet_linkCount, hx, if_neg (not_not.mpr hn.issued), if_neg (not_or.mpr ⟨hs, not_not.mpr hn.sid⟩)]
  unfold mbxFrameIn
  dsimp only
  rw [hscreen]
  dsimp only
  rw [sessGet_linkCount, hx, if_neg (by simp [ht]), if_neg hd, if_neg (by rw [ha, hn.sack, acksUnsent_all]; exact Bool.false_ne_true)]
  rfl

/-- With nothing in flight SND_NXT stands at SND_UNA. -/
theorem Unsent.sndNxt {f : MbxFrame} {x : Session} (h : Unsent f x) (hu : x.una < 65536) : mhAckn f = x.sndNxt := by
  rw [h.ackn, Session.sndNxt, h.flight]
  exact (Nat.mod_eq_of_lt hu).symm

/-- A session that has heard a frame: WL is its WIN, and probes are answered. -/
def Session.heard (x : Session) (f : MbxFrame) : Session := { x with wl := mhWin f, probes := 0 }

/-- SACK marks nothing where nothing is in flight. -/
theorem marks_none {x : Session} (ackn sack : Nat) (h : x.frags = []) : markMissing (markHeld x ackn sack) ackn sack = x := by
  have hheld : markHeld x ackn sack = x := by
    unfold markHeld
    rw [h]
    exact congrArg (fun l => { x with frags := l }) h.symm
  rw [hheld, markMissing, highestHeld, h]
  rfl

/-- A frame that acknowledges what was acknowledged before changes WL and the probes. -/
theorem frameTaken_again {s : State} {p : Nat} {f : MbxFrame} {x : Session} (hx : sessGet s p f.chan = x) (ha : Unsent f x) :
    HoldsSession p f.chan (x.heard f) s (frameTaken s p f) := by
  have hheard := HoldsSession.sessMod s p f.chan fun x : Session => { x with wl := mhWin f, probes := 0 }
  unfold frameTaken
  dsimp only
  obtain ⟨u, hu'⟩ : ∃ u, u = sessMod s p f.chan fun x : Session => { x with wl := mhWin f, probes := 0 } := ⟨_, rfl⟩
  rw [← hu', hx] at hheard
  change HoldsSession p f.chan (x.heard f) s u at hheard
  rw [← hu']
  have hnone : (mhAckn f + 65536 - (x.heard f).una) % 65536 = 0 := by
    have h : (x.heard f).una = x.una := rfl
    rw [ha.ackn, h]
    omega
  have htakes : takeAck u p f.chan (mhAckn f) (mhSack f) =
      sessMod u p f.chan fun x => markMissing (markHeld x (mhAckn f) (mhSack f)) (mhAckn f) (mhSack f) := by
    unfold takeAck
    dsimp only
    rw [hheard.sess, hnone, if_neg (by rw [ha.ackn]; exact Bool.eq_false_iff.mp (seqPrecedes_self x.una))]
    rfl
  have hmod := HoldsSession.sessMod u p f.chan fun x => markMissing (markHeld x (mhAckn f) (mhSack f)) (mhAckn f) (mhSack f)
  rw [hheard.sess, marks_none _ _ (show (x.heard f).frags = [] from ha.frags)] at hmod
  rw [htakes]
  exact hheard.trans hmod

end Sys2Proof.Machine
end

section
/-! SUPPORT. Frames of a mailbox session, kind by kind (R401, R409, R410, Table 12.6). -/

namespace Sys2Proof.Machine

/-- A job that ended with a status and a result shows them while registers and CriskaLink change. -/
theorem LinkOnly.jobEnds {s u t : State} {j st r : Nat} {y : Job} (h : LinkOnly s u) (g : LinkOnly (jobDone u j st r) t) (hj : Machine.jobGet s j = some y)
    (hr : s.part.resets.find? y.part = none) (hlt : r < 2 ^ 32) :
    Machine.jobGet t j = some { y with phase := .done, status := st, result := r, data := none } := by
  rw [g.jobGet]
  exact jobGet_jobDone_live st ((h.jobGet j).trans hj) (by rwa [h.resets]) hlt

/-- A closed channel does nothing more. -/
theorem goesOn_closed {s : State} {p c : Nat} (h : (sessGet s p c).state = .closed) : goesOn s p c = s := if_pos h

/-- An open session without sends and with nothing to deliver only tends its probes. -/
theorem goesOn_opened {s : State} {p c : Nat} {x : Session} (hx : sessGet s p c = x) (ho : x.state = .opened) (hs : x.sends = []) (hr : x.rx = [])
    (hw : x.fw = none) : ∃ a n, HoldsSession p c (x.probing a n) s (goesOn s p c) := by
  rw [goesOn, if_neg (by rw [hx, ho]; decide)]
  exact mbxSettle_fed (by rw [hx]; exact feedFrom_noSends hs) hr (noChunks_of_none hw) (by rw [ho]; decide)

/-- A session whose only job is an MBX_RECV that waits ends that one. -/
theorem endJobs_recv {x : Session} {j : Nat} (s : State) (st closeSt : Nat) (hs : x.sends = []) (hr : x.recvs = [j]) (hh : x.holding = none)
    (ho : x.opener = none) (hw : x.fw = none) (hc : x.closers = []) : endJobs s x st closeSt = jobDone s j st 0 := by
  rw [endJobs_of s st closeSt hs hh hw, hr, ho, hc]
  rfl

/-- A session whose only job is an MBX_CLOSE ends that one with its own status. -/
theorem endJobs_closer {x : Session} {j : Nat} (s : State) (st closeSt : Nat) (hs : x.sends = []) (hr : x.recvs = []) (hh : x.holding = none)
    (ho : x.opener = none) (hw : x.fw = none) (hc : x.closers = [j]) : endJobs s x st closeSt = jobDone s j closeSt 0 := by
  rw [endJobs_of s st closeSt hs hh hw, hr, ho, hc]
  rfl

section Named
variable {s : State} {p : Nat} {f : MbxFrame} {x : Session} (hf : GoodFrame s p f) (hx : sessGet s p f.chan = x) (hn : NamesSession f x)
include hf hx hn

/-- A frame of a later kind than OPEN_ACK that is not out of turn is taken. -/
theorem mbxIn_later {k : Nat} {ok : Bool} (hk : mhKind f = k) (hlater : 2 < k) (hok : ok = true) (hs : x.state ≠ .closed) (ht : outOfTurn x k = false)
    (ha : mhAckn f = x.sndNxt) : mbxIn s p f ok = goesOn (kindTaken (linkCount s p 0) p f) p f.chan := by
  refine (mbxIn_good hf hok).trans (mbxFrameIn_takes hf hx hn hs ?_ (hk ▸ ht) (fun h => ?_) ha)
  · rw [hk]
    exact fun h => absurd (h ▸ hlater) (by decide)
  · exact absurd (hk.symm.trans h.1 ▸ hlater) (by decide)

/-! ### OPEN_ACK -/

section OpenAck
variable {j : Nat} {y : Job} (hk : mhKind f = kOpenAck) (hs : x.state = .opening) (ha : Unsent f x) (ho : x.opener = some j) (hj : jobGet s j = some y)
  (hr : s.part.resets.find? y.part = none) (hw : x.fw = none)
include hk hs ha ho hj hr hw

omit ho hj hr hw in
theorem execOpenAck_takes : execOpenAck p f s = .next (goesOn (openAckFrame (linkCount s p 0) p f) p f.chan) := by
  unfold execOpenAck
  rw [mbxIn_good hf (by simp [hk]), mbxFrameIn_takes hf hx hn (by rw [hs]; decide) (by rw [hk]; decide) (by rw [hk, outOfTurn, hs]; rfl)
    (fun h => absurd (hs.symm.trans h.2) (by decide)) (ha.sndNxt hn.una), kindTaken_openAck hk]

theorem openAck_opens (hb : mhByte f 8 = 0) : ∃ t r, execOpenAck p f s = .next t ∧ (sessGet t p f.chan).state = .opened ∧
    (sessGet t p f.chan).sid = x.sid ∧ jobGet t j = some { y with phase := .done, status := stOk, result := r, data := none } ∧
    r % 2 ^ 24 = (f.epoch + x.sid * 2 ^ 16) % 2 ^ 24 := by
  have hv := frameTaken_again (s := linkCount s p 0) hx ha
  obtain ⟨v, hv'⟩ : ∃ v, v = frameTaken (linkCount s p 0) p f := ⟨_, rfl⟩
  rw [← hv'] at hv
  obtain ⟨z, hz⟩ : ∃ z, z = { x.heard f with state := .opened, timerAt := none, opener := none } := ⟨_, rfl⟩
  obtain ⟨w, hw'⟩ : ∃ w, w = sessSet v p f.chan z := ⟨_, rfl⟩
  obtain ⟨n, hopen, hresult⟩ : ∃ n, openAckFrame (linkCount s p 0) p f = jobDone w j stOk n ∧ n % 2 ^ 24 = (f.epoch + x.sid * 2 ^ 16) % 2 ^ 24 := by
    have hcur : (portGet w p).current = some f.epoch := by
      rw [hw', portGet_sessSet, hv.port, portGet_linkCount]
      exact hf.current
    refine ⟨(portGet w p).current.getD 0 + x.sid * 2 ^ 16 + sendWindow (portGet w p) (sessGet w p f.chan) * 2 ^ 24, ?_, ?_⟩
    · unfold openAckFrame
      dsimp only
      rw [← hv', hv.sess, if_pos hb, ← hz, ← hw', show (x.heard f).opener = some j from ho]
      rfl
    · rw [hcur, Option.getD_some]
      omega
  have hlink : LinkOnly s w := hw' ▸ ((LinkOnly.refl s).linkCount.trans hv.link).sessSet
  have hsess : sessGet (jobDone w j stOk n) p f.chan = z := by rw [sessGet_jobDone, hw', sessGet_sessSet_same]
  obtain ⟨a, k, hends⟩ := goesOn_opened hsess (by rw [hz]) (by rw [hz]; exact ha.sends) (by rw [hz]; exact hn.rx) (by rw [hz]; exact hw)
  refine ⟨_, n % 2 ^ 32, (execOpenAck_takes hf hx hn hk hs ha).trans (by rw [hopen]), by rw [hends.sess, hz]; rfl, by rw [hends.sess, hz]; rfl, ?_, ?_⟩
  · rw [hends.link.jobGet, jobDone_live stOk n ((hlink.jobGet j).trans hj) (by rwa [hlink.resets]), jobGet_jobSet_same]
  · rw [← hresult]
    omega

omit hw in
theorem openAck_refuses (hb : mhByte f 8 ≠ 0) (hrecvs : x.recvs = []) (hc : x.closers = []) : ∃ t, execOpenAck p f s = .next t ∧
    (sessGet t p f.chan).state = .closed ∧
    jobGet t j = some { y with phase := .done, status := stMbxRefused, result := mhByte f 8 * 256, data := none } := by
  have hv := frameTaken_again (s := linkCount s p 0) hx ha
  obtain ⟨v, hv'⟩ : ∃ v, v = frameTaken (linkCount s p 0) p f := ⟨_, rfl⟩
  rw [← hv'] at hv
  obtain ⟨w, hw'⟩ : ∃ w, w = sessMod (jobDone v j stMbxRefused (mhByte f 8 * 256)) p f.chan fun x => { x with opener := none, fw := none } := ⟨_, rfl⟩
  have hrefused : openAckFrame (linkCount s p 0) p f = sessClose w p f.chan stMbxRefused stMbxRefused := by
    unfold openAckFrame
    dsimp only
    rw [← hv', hv.sess, if_neg hb, show (x.heard f).opener = some j from ho, hw']
  have hlinkV : LinkOnly s v := (LinkOnly.refl s).linkCount.trans hv.link
  have hlinkW : LinkOnly (jobDone v j stMbxRefused (mhByte f 8 * 256)) w := hw' ▸ (LinkOnly.refl _).sessSet
  have hsess : sessGet w p f.chan = { x.heard f with opener := none, fw := none } := by rw [hw', sessGet_sessMod_same, sessGet_jobDone, hv.sess]
  have hends := sessClose_holds (s := w) (p := p) (c := f.chan) stMbxRefused stMbxRefused (by rw [hsess]; exact ne_of_eq_of_ne hs (by decide))
  rw [endJobs_none w _ _ (by rw [hsess]; exact ha.sends) (by rw [hsess]; exact hrecvs) (by rw [hsess]; exact hn.free) (by rw [hsess]) (by rw [hsess])
    (by rw [hsess]; exact hc)] at hends
  have hbyte : mhByte f 8 * 256 < 2 ^ 32 := by
    have : mhByte f 8 < 2 ^ 8 := BitVec.isLt _
    omega
  refine ⟨_, (execOpenAck_takes hf hx hn hk hs ha).trans (by rw [hrefused, goesOn_closed (sessClose_closed ..)]), sessClose_closed .., ?_⟩
  exact hlinkV.jobEnds (hlinkW.trans hends.link) hj hr hbyte

end OpenAck

/-! ### CLOSE, CLOSE_ACK and ABORT -/

section Ends
variable {j : Nat} {y : Job} (ha : Unsent f x) (ho : x.opener = none) (hw : x.fw = none) (hj : jobGet s j = some y)
  (hr : s.part.resets.find? y.part = none)
include ha ho hw hj hr

theorem closeFrame_closes (hk : mhKind f = kClose) (hs : x.state = .opened) (hrecvs : x.recvs = [j]) (hc : x.closers = []) :
    ∃ t, execMbxCloseFrame p f s = .next t ∧ (sessGet t p f.chan).state = .closed ∧
      jobGet t j = some { y with phase := .done, status := stMbxPeerClosed, result := 0, data := none } ∧
      (portGet t p).ctl.getLast? = some { chan := f.chan, kind := kCloseAck, sid := x.sid } := by
  have hv := frameTaken_again (s := linkCount s p 0) hx ha
  obtain ⟨v, hv'⟩ : ∃ v, v = ctlDrop (frameTaken (linkCount s p 0) p f) p f.chan := ⟨_, rfl⟩
  have hsess : sessGet v p f.chan = x.heard f := by rw [hv', sessGet_ctlDrop, hv.sess]
  have hlink : LinkOnly s v := hv' ▸ ((LinkOnly.refl s).linkCount.trans hv.link).ctlDrop
  have hends := sessClose_holds (s := v) (p := p) (c := f.chan) stMbxPeerClosed stOk (by rw [hsess]; exact ne_of_eq_of_ne hs (by decide))
  rw [hsess, endJobs_recv v _ _ (x := x.heard f) ha.sends hrecvs hn.free ho hw hc] at hends
  obtain ⟨t, ht⟩ : ∃ t, t = ctlPush (sessClose v p f.chan stMbxPeerClosed stOk) p { chan := f.chan, kind := kCloseAck, sid := x.sid } := ⟨_, rfl⟩
  have hclosed : (sessGet t p f.chan).state = .closed := by
    rw [ht, sessGet_ctlPush]
    exact sessClose_closed ..
  have hframe : kindTaken (linkCount s p 0) p f = t := by
    rw [kindTaken_close hk, ht, hv', ← hx]
    rfl
  refine ⟨t, ?_, hclosed, hlink.jobEnds (ht ▸ hends.link.ctlPush) hj hr (by decide), by rw [ht, portGet_ctlPush, List.getLast?_append]; rfl⟩
  unfold execMbxCloseFrame
  rw [mbxIn_later hf hx hn hk (by decide) (by simp [hk]) (by rw [hs]; decide) (by rw [outOfTurn, hs]; rfl) (ha.sndNxt hn.una), hframe, goesOn_closed hclosed]

theorem closeAck_closes (hk : mhKind f = kCloseAck) (hs : x.state = .closing) (hrecvs : x.recvs = []) (hc : x.closers = [j]) :
    ∃ t, execCloseAck p f s = .next t ∧ (sessGet t p f.chan).state = .closed ∧
      jobGet t j = some { y with phase := .done, status := stOk, result := 0, data := none } := by
  have hv := frameTaken_again (s := linkCount s p 0) hx ha
  have hlink := (LinkOnly.refl s).linkCount.trans hv.link
  have hends := sessClose_holds (s := frameTaken (linkCount s p 0) p f) (p := p) (c := f.chan) stCancelled stOk
    (by rw [hv.sess]; exact ne_of_eq_of_ne hs (by decide))
  rw [hv.sess, endJobs_closer _ _ _ (x := x.heard f) ha.sends hrecvs hn.free ho hw hc] at hends
  refine ⟨_, ?_, sessClose_closed .., hlink.jobEnds hends.link hj hr (by decide)⟩
  unfold execCloseAck
  rw [mbxIn_later hf hx hn hk (by decide) (by simp [hk]) (by rw [hs]; decide) (by rw [outOfTurn, hs]; rfl) (ha.sndNxt hn.una),
    kindTaken_closeAck hk, goesOn_closed (sessClose_closed ..)]

theorem abortFrame_closes (hk : mhKind f = kAbort) (hs : x.state = .opened) (hrecvs : x.recvs = [j]) (hc : x.closers = []) :
    ∃ t, execMbxAbortFrame p f s = .next t ∧ (sessGet t p f.chan).state = .closed ∧
      jobGet t j = some { y with phase := .done, status := stMbxPeerAbort, result := 0, data := none } := by
  have hsess : sessGet (ctlDrop (linkCount s p 0) p f.chan) p f.chan = x := by rw [sessGet_ctlDrop, sessGet_linkCount, hx]
  have hends := sessClose_holds (s := ctlDrop (linkCount s p 0) p f.chan) (p := p) (c := f.chan) stMbxPeerAbort stMbxPeerAbort
    (by rw [hsess, hs]; decide)
  rw [hsess, endJobs_recv _ _ _ ha.sends hrecvs hn.free ho hw hc] at hends
  refine ⟨_, ?_, sessClose_closed .., (LinkOnly.refl s).linkCount.ctlDrop.jobEnds hends.link hj hr (by decide)⟩
  unfold execMbxAbortFrame
  rw [mbxIn_later hf hx hn hk (by decide) (by simp [hk]) (by rw [hs]; decide) (by rw [outOfTurn, hs]; rfl) (ha.sndNxt hn.una),
    kindTaken_abort hk, goesOn_closed (sessClose_closed ..)]

end Ends
end Named
end Sys2Proof.Machine
end

section
/-! SUPPORT. What a session of the limb sends and acknowledges: an ACK of the last fragment (R401, R416), a message for an MBX_RECV (R404, R405, R407)
and the replies of a firmware update (R421). -/

namespace Sys2Proof.Machine

/-! ### Acknowledgement -/

/-- The session whose one fragment in flight, the last of its only send, has been acknowledged. -/
def Session.acked (x : Session) (j : Nat) : Session :=
  { x with frags := [], flight := 0, una := (x.una + 1) % 65536, sends := [], fed := x.fed.erase j }

/-- The acknowledgement of the one fragment in flight ends its MBX_SEND with the bytes that the limb has. -/
theorem takeAck_last {s : State} {p c j sack : Nat} {x : Session} {g : TxFrag} {y : Job} (hx : sessGet s p c = x) (hu : x.una < 65536) (hw : x.fw = none)
    (hf : x.frags = [g]) (hfl : x.flight = 1) (hg : g.job = j) (hl : g.last = true) (hs : x.sends = [j]) (hj : jobGet s j = some y) :
    ∃ u, LinkOnly s u ∧ HoldsSession p c (x.acked j) (jobDone u j stOk (y.aux + g.data.length)) (takeAck s p c ((x.una + 1) % 65536) sack) := by
  obtain ⟨u, hu'⟩ : ∃ u, u = sessSet s p c { x with frags := [], flight := x.flight - 1, una := (x.una + 1) % 65536 } := ⟨_, rfl⟩
  have hlink : LinkOnly s u := hu' ▸ (LinkOnly.refl s).sessSet
  obtain ⟨v, hv⟩ : ∃ v, v = sessMod (jobDone u j stOk (y.aux + g.data.length)) p c fun x =>
    { x with sends := x.sends.erase j, fed := x.fed.erase j } := ⟨_, rfl⟩
  have hfirst : ackFirst 1 s p c = v := by
    unfold ackFirst
    dsimp only
    rw [hx, hf]
    dsimp only
    rw [← hu', hg]
    split
    next r hr => exact absurd (hw.symm.trans hr) nofun
    next =>
      rw [hlink.jobGet, hj]
      dsimp only
      rw [if_pos hl, ← hv]
      rfl
  have hone : ((x.una + 1) % 65536 + 65536 - x.una) % 65536 = 1 := by omega
  have htakes : takeAck s p c ((x.una + 1) % 65536) sack = sessMod v p c fun x' => markMissing (markHeld x' ((x.una + 1) % 65536) sack) ((x.una + 1) % 65536) sack := by
    unfold takeAck
    dsimp only
    rw [hx, if_neg (by rw [seqPrecedes_next]; exact Bool.false_ne_true), hone, hfirst]
  have hsess : sessGet v p c = x.acked j := by
    rw [hv, sessGet_sessMod_same, sessGet_jobDone, hu', sessGet_sessSet_same]
    dsimp only
    rw [hs, hfl, List.erase_cons_head]
    rfl
  have hmod := HoldsSession.sessMod v p c fun x' => markMissing (markHeld x' ((x.una + 1) % 65536) sack) ((x.una + 1) % 65536) sack
  rw [hsess, marks_none _ _ (show (x.acked j).frags = [] from rfl)] at hmod
  refine ⟨u, hlink, ?_⟩
  rw [htakes]
  exact (hv ▸ HoldsSession.sessMod ..).trans hmod

/-! ### Delivery -/

/-- The session that holds one whole fragment in order, to be acknowledged. -/
def Session.storing (x : Session) (g : RxFrag) (since : Option Nat) (due : Bool) : Session :=
  { x with rx := [(0, g)], unacked := x.unacked + 1, ackSince := since, ackDue := due }

/-- DATA in order are stored. -/
theorem dataFrame_stores {s : State} {p : Nat} {f : MbxFrame} {x : Session} (hx : sessGet s p f.chan = x) (hn : NamesSession f x) (ha : Unsent f x)
    (hl : mhLast f = true) (hlen : (mhData f).length ≤ 248) (hseq : mhSeq f = x.dlv) :
    ∃ since due, HoldsSession p f.chan ((x.heard f).storing { first := mhFirst f, last := mhLast f, data := mhData f } since due) s (dataFrame s p f) := by
  have hv := frameTaken_again hx ha
  obtain ⟨v, hv'⟩ : ∃ v, v = frameTaken s p f := ⟨_, rfl⟩
  rw [← hv'] at hv
  have hnext : x.rcvNxt = x.dlv := by
    rw [Session.rcvNxt, ahead_empty hn.rx]
    exact Nat.mod_eq_of_lt hn.dlv
  have hzero : (x.dlv + 65536 - x.dlv) % 65536 = 0 := by omega
  have hacts : dataFrame s p f = sessSet v p f.chan ((x.heard f).storing { first := mhFirst f, last := mhLast f, data := mhData f }
      (some (x.ackSince.getD v.now)) (x.ackDue || decide (4 ≤ x.unacked + 1))) := by
    unfold dataFrame
    dsimp only
    rw [hx, if_neg (by rw [if_pos hl]; omega), hseq, if_neg (by rw [seqPrecedes_window]; decide), if_neg (by simp [hnext, hn.rx]),
      ← hv', hnext, sessMod, hv.sess, beq_self_eq_true]
    rw [show (x.heard f).dlv = x.dlv from rfl, show (x.heard f).rx = [] from hn.rx, hzero]
    rfl
  rw [hacts]
  exact ⟨_, _, hv.trans (HoldsSession.sessSet ..)⟩

/-- A fragment at RCV_DLV beside which nothing is held is delivered alone. -/
theorem deliver_one {s w : State} {p c : Nat} {g : RxFrag} (hr : (sessGet s p c).rx = [(0, g)]) (hs : (sessGet s p c).state ≠ .closed)
    (hone : deliverOne s p c g = some w) (hw : (sessGet w p c).rx = []) : deliver s p c = w := by
  have hfrom : deliverFrom 18 s p c = w := by
    unfold deliverFrom
    dsimp only
    rw [if_neg hs, hr]
    change (match deliverOne s p c g with
      | none => s
      | some s => deliverFrom 17 s p c) = w
    rw [hone]
    exact deliverFrom_empty 17 hw
  have hwin : (sessGet s p c).win ≠ 0 := by
    have hahead : contig [(0, g)] 16 0 = 1 := rfl
    rw [Session.win, Session.ahead, hr, hahead]
    decide
  unfold deliver
  dsimp only
  rw [hfrom, if_neg fun h => hwin h.1]

/-- An open session with one fragment delivers it as the channel goes on. -/
theorem goesOn_delivers {s : State} {p c : Nat} {x : Session} {g : RxFrag} (hx : sessGet s p c = x) (ho : x.state = .opened) (hs : x.sends = [])
    (hr : x.rx = [(0, g)]) : HoldsSession p c x s (feedSends s p c) ∧
      ∀ w, deliverOne (feedSends s p c) p c g = some w → (sessGet w p c).rx = [] → (sessGet w p c).state = .opened →
        (∀ r, (sessGet w p c).fw = some r → r.phase ≠ .chunks) → ∃ a n, HoldsSession p c ((sessGet w p c).probing a n) w (goesOn s p c) := by
  have hfed := feedSends_holds s p c
  rw [hx, feedFrom_noSends hs] at hfed
  refine ⟨hfed, fun w hone hrx hstate hfw => ?_⟩
  rw [goesOn, if_neg (by rw [hx, ho]; decide), mbxSettle_eq, deliver_one (by rw [hfed.sess, hr]) (by rw [hfed.sess, ho]; decide) hone hrx]
  exact mbxSettled_holds hfw (by rw [hstate]; decide)

/-! ### Messages for MBX_RECV -/

/-- The session whose next MBX_RECV takes the message that begins at RCV_DLV. -/
def Session.taking (x : Session) (j : Nat) (r : List Nat) : Session :=
  { { x with msgOpen := false, holding := none, got := 0 }.shift with recvs := r, msgOpen := true, holding := some j }

theorem deliverOne_recv {s : State} {p c j : Nat} {x : Session} {r : List Nat} {g : RxFrag} (hx : sessGet s p c = x) (ho : x.state = .opened)
    (hw : x.fw = none) (hm : x.msgOpen = false) (hr : x.recvs = j :: r) (hg : g.first = true) :
    deliverOne s p c g = some (takeData (sessSet s p c (x.taking j r)) p c g) := by
  unfold deliverOne
  dsimp only
  rw [hx, if_neg (by rw [ho]; decide)]
  split
  next r hr => exact absurd (hw.symm.trans hr) nofun
  next =>
    rw [if_pos hg, hm, hr]
    rfl

/-- A whole message within LENGTH goes to the host, and its MBX_RECV ends with its length (R407, R419). -/
theorem takeData_whole {s : State} {p c j : Nat} {x : Session} {y : Job} {g : RxFrag} (hx : sessGet s p c = x) (hh : x.holding = some j) (hg : x.got = 0)
    (hj : jobGet s j = some y) (hr : s.part.resets.find? y.part = none) (hears : HostHears s y.part) (hl : g.last = true) (hone : 1 ≤ g.data.length)
    (hlen : g.data.length ≤ payBits y 128 32) :
    sessGet (takeData s p c g) p c = { x with msgOpen := false, holding := none, got := 0 } ∧
      (takeData s p c g).host.out = .write y.part (payBits y 64 64) g.data :: s.host.out ∧
      jobGet (takeData s p c g) j = some { y with phase := .done, status := stOk, result := g.data.length, data := none } := by
  obtain ⟨u, hu⟩ : ∃ u, u = (hostSend s y.part (.write y.part (payBits y 64 64) g.data)).fincSat (pgClnk + p) (F.LNK_MBX_CNT_MSGS.sh (16 * c)) 1 := ⟨_, rfl⟩
  have hne : g.data.isEmpty = false := List.isEmpty_eq_false_iff.mpr (List.length_pos_iff.mp hone)
  have htakes : takeData s p c g = sessSet (jobDone u j stOk g.data.length) p c { x with msgOpen := false, holding := none, got := 0 } := by
    unfold takeData
    dsimp only
    rw [hx, hh]
    dsimp only
    rw [hj]
    dsimp only
    rw [hg, Nat.sub_zero, List.take_of_length_le hlen, Nat.zero_add, Nat.add_zero, hne, if_pos hl, if_neg (Nat.not_lt.mpr hlen), hu]
    rfl
  rw [hostSend_hears _ hears] at hu
  have hjob : jobGet u j = some y := by rw [hu]; exact hj
  have hreset : u.part.resets.find? y.part = none := by rw [hu]; exact hr
  have hbits : payBits y 128 32 < 2 ^ 32 := bitsOf_lt ..
  rw [htakes]
  refine ⟨sessGet_sessSet_same .., ?_, jobGet_jobDone_live _ hjob hreset (by omega)⟩
  rw [jobDone_live _ _ hjob hreset, hu]
  rfl

/-! ### Replies of an update -/

theorem deliverOne_update {s : State} {p c : Nat} {x : Session} {r : FwRun} {g : RxFrag} (hx : sessGet s p c = x) (ho : x.state = .opened)
    (hw : x.fw = some r) (hf : g.first = true) (hl : g.last = true) :
    deliverOne s p c g = some (fwReply (sessSet s p c x.shift) p c r g.data) := by
  unfold deliverOne fwFragment
  dsimp only
  rw [hx, if_neg (by rw [ho]; decide), hw, hf, hl]
  rfl

section Reply
variable {s : State} {p c : Nat} {r : FwRun} {d : List Byte} (hlen : d.length = 8) (hst : (d.getD 1 0).toNat = 0)
include hlen hst

theorem fwReply_begins (hp : r.phase = .begin) (ht : (d.getD 0 0).toNat = 0x81) (hb : leNat (d.drop 4) % 4096 = 0)
    (hle : leNat (d.drop 4) ≤ fwBodyLen r.header) : sessGet (fwReply s p c r d) p c =
      { sessGet s p c with fw := some { r with phase := .reread, held := leNat (d.drop 4), acked := leNat (d.drop 4), since := none } } := by
  unfold fwReply
  dsimp only
  rw [hp, ht, hst]
  dsimp only
  rw [if_neg (by simp [hlen]), if_neg (not_not.mpr rfl), if_neg (by omega), sessGet_sessMod_same]
  cases jobGet s r.job <;> rfl

theorem fwReply_ends (hp : r.phase = .ending) (ht : (d.getD 0 0).toNat = 0x83) :
    fwReply s p c r d = fwQueue s p c { r with phase := .activate } (fwShort 0x04) := by
  unfold fwReply
  dsimp only
  rw [hp, ht, hst]
  dsimp only
  rw [if_neg (by simp [hlen]), if_neg (not_not.mpr rfl)]

/-- What the limb will be when it returns from an update (R421 step 8). -/
def FwRun.reboot (r : FwRun) (now : Nat) : FwReboot :=
  { job := r.job, vendor := leNat ((r.header.drop 8).take 2), product := leNat ((r.header.drop 10).take 2),
    revision := leNat ((r.header.drop 12).take 2), since := now }

theorem fwReply_activates (hp : r.phase = .activate) (ht : (d.getD 0 0).toNat = 0x84) :
    fwReply s p c r d = portMod (sessMod s p c fun x => { x with fw := none }) p fun y => { y with reboots := y.reboots ++ [r.reboot s.now] } := by
  unfold fwReply
  dsimp only
  rw [hp, ht, hst]
  dsimp only
  rw [if_neg (by simp [hlen]), if_neg (not_not.mpr rfl)]
  rfl

end Reply
end Sys2Proof.Machine
end

section
/-! SUPPORT. The frames by which sessions go on: ACK, messages for MBX_RECV jobs and replies of firmware updates, and the statement on frames (R401, R404,
R407, R409 to R413, R421). -/

namespace Sys2Proof.Machine

/-- The bytes of a message stand behind the header's eight. -/
theorem mhData_byte (f : MbxFrame) (i : Nat) : ((mhData f).getD i 0).toNat = mhByte f (8 + i) := by
  simp only [mhData, mhByte, List.getD_eq_getElem?_getD, List.getElem?_drop]

theorem mhData_length (f : MbxFrame) : (mhData f).length = f.data.length - 8 := List.length_drop ..

section Named
variable {s : State} {p : Nat} {f : MbxFrame} {x : Session} (hf : GoodFrame s p f) (hx : sessGet s p f.chan = x) (hn : NamesSession f x)
  (hs : x.state = .opened)
include hf hx hn hs

theorem mbxAck_completes {j : Nat} {y : Job} {g : TxFrag} (hk : mhKind f = kAck) (hprobe : mhProbe f = false) (hw : x.fw = none) (hfr : x.frags = [g])
    (hfl : x.flight = 1) (hg : g.job = j) (hl : g.last = true) (hsends : x.sends = [j]) (hj : jobGet s j = some y)
    (hr : s.part.resets.find? y.part = none) (ha : mhAckn f = (x.una + 1) % 65536) :
    ∃ t, execMbxAck p f s = .next t ∧ (sessGet t p f.chan).state = .opened ∧ (sessGet t p f.chan).una = (x.una + 1) % 65536 ∧
      (sessGet t p f.chan).frags = [] ∧ (sessGet t p f.chan).sends = [] ∧
      jobGet t j = some { y with phase := .done, status := stOk, result := (y.aux + g.data.length) % 2 ^ 32, data := none } := by
  obtain ⟨u, hu⟩ : ∃ u, u = sessSet (linkCount s p 0) p f.chan (x.heard f) := ⟨_, rfl⟩
  have hlinkU : LinkOnly s u := hu ▸ (LinkOnly.refl s).linkCount.sessSet
  have hsessU : sessGet u p f.chan = x.heard f := by rw [hu, sessGet_sessSet_same]
  obtain ⟨v, hlinkV, htaken⟩ := takeAck_last (sack := mhSack f) hsessU hn.una hw hfr hfl hg hl hsends ((hlinkU.jobGet j).trans hj)
  have hframe : kindTaken (linkCount s p 0) p f = takeAck u p f.chan ((x.una + 1) % 65536) (mhSack f) := by
    rw [kindTaken_ack hk hprobe, ← ha, hu, ← hx]
    rfl
  obtain ⟨a, n, hends⟩ := goesOn_opened htaken.sess hs rfl hn.rx hw
  have hlink := hlinkU.trans hlinkV
  refine ⟨_, ?_, by rw [hends.sess]; exact hs, by rw [hends.sess]; rfl, by rw [hends.sess]; rfl, by rw [hends.sess]; rfl, ?_⟩
  · unfold execMbxAck
    rw [mbxIn_later hf hx hn hk (by decide) (by simp [hk]) (by rw [hs]; decide) (by rw [outOfTurn, hs]; rfl) (by rw [ha, Session.sndNxt, hfl]), hframe]
    rfl
  · rw [hends.link.jobGet, htaken.link.jobGet, jobDone_live _ _ ((hlink.jobGet j).trans hj) (by rwa [hlink.resets]), jobGet_jobSet_same]

/-! ### Whole messages -/

section Data
variable (hk : mhKind f = kData) (ha : Unsent f x) (hseq : mhSeq f = x.dlv) (hfirst : mhFirst f = true) (hlast : mhLast f = true)
include hk ha hseq hfirst hlast

/-- A whole message in order is stored, and what delivers it decides how the channel goes on. -/
theorem mbxData_stores {ok : Bool} (hok : ok = true) : ∃ v since due,
    HoldsSession p f.chan ((x.heard f).storing { first := true, last := true, data := mhData f } since due) s v ∧
    ∀ w, deliverOne v p f.chan { first := true, last := true, data := mhData f } = some w → (sessGet w p f.chan).rx = [] →
      (sessGet w p f.chan).state = .opened → (∀ r, (sessGet w p f.chan).fw = some r → r.phase ≠ .chunks) →
      ∃ a n, HoldsSession p f.chan ((sessGet w p f.chan).probing a n) w (mbxIn s p f ok) := by
  have hcount : HoldsSession p f.chan x s (linkCount s p 0) := ⟨(LinkOnly.refl s).linkCount, rfl, hx⟩
  obtain ⟨since, due, hstored⟩ := dataFrame_stores (s := linkCount s p 0) hx hn ha hlast (by rw [mhData_length]; have := hf.long; omega) hseq
  rw [hfirst, hlast] at hstored
  obtain ⟨hfed, hgo⟩ := goesOn_delivers hstored.sess hs ha.sends rfl
  have htakes : mbxIn s p f ok = goesOn (dataFrame (linkCount s p 0) p f) p f.chan := by
    rw [mbxIn_later hf hx hn hk (by decide) hok (by rw [hs]; decide) (by rw [outOfTurn, hs]; rfl) (ha.sndNxt hn.una), kindTaken_data hk]
  rw [htakes]
  exact ⟨_, since, due, (hcount.trans hstored).trans hfed, hgo⟩

theorem mbxData_delivers {j : Nat} {r : List Nat} {y : Job} (hw : x.fw = none) (hrecvs : x.recvs = j :: r) (hj : jobGet s j = some y)
    (hr : s.part.resets.find? y.part = none) (hone : 1 ≤ (mhData f).length) (hlen : (mhData f).length ≤ payBits y 128 32) (hears : HostHears s y.part) :
    ∃ t, execMbxData p f s = .next t ∧ (sessGet t p f.chan).state = .opened ∧ (sessGet t p f.chan).dlv = (x.dlv + 1) % 65536 ∧
      (sessGet t p f.chan).recvs = r ∧ (sessGet t p f.chan).unacked = x.unacked + 1 ∧
      t.host.out = .write y.part (payBits y 64 64) (mhData f) :: s.host.out ∧
      jobGet t j = some { y with phase := .done, status := stOk, result := (mhData f).length, data := none } := by
  obtain ⟨v, since, due, hv, hgo⟩ := mbxData_stores hf hx hn hs hk ha hseq hfirst hlast (ok := mhKind f = kData) (by simp [hk])
  obtain ⟨z, hz⟩ : ∃ z, z = ((x.heard f).storing { first := true, last := true, data := mhData f } since due).taking j r := ⟨_, rfl⟩
  have hdeliver := deliverOne_recv (j := j) (r := r) (g := { first := true, last := true, data := mhData f }) hv.sess hs hw hn.shut hrecvs rfl
  rw [← hz] at hdeliver
  obtain ⟨q, hq⟩ : ∃ q, q = sessSet v p f.chan z := ⟨_, rfl⟩
  rw [← hq] at hdeliver
  have hlink : LinkOnly s q := hq ▸ hv.link.sessSet
  have hhears : HostHears q y.part := by
    rw [hlink]
    exact hears
  obtain ⟨hsess, hout, hjob⟩ := takeData_whole (s := q) (x := z) (p := p) (c := f.chan) (j := j) (g := { first := true, last := true, data := mhData f })
    (by rw [hq, sessGet_sessSet_same]) (by rw [hz]; rfl) (by rw [hz]; rfl) ((hlink.jobGet j).trans hj) (by rwa [hlink.resets]) hhears rfl hone hlen
  obtain ⟨a, n, hends⟩ := hgo _ hdeliver (by rw [hsess, hz]; rfl) (by rw [hsess, hz]; exact hs) (noChunks_of_none (by rw [hsess, hz]; exact hw))
  rw [hsess, hz] at hends
  refine ⟨_, rfl, by rw [hends.sess]; exact hs, by rw [hends.sess]; rfl, by rw [hends.sess]; rfl, by rw [hends.sess]; rfl, ?_, ?_⟩
  · rw [hends.link.host, hout, hlink.host]
  · rw [hends.link.jobGet, hjob]

/-! ### Replies -/

section Reply
variable {r : FwRun} (hw : x.fw = some r) (hlen : f.data.length = 16) (hst : mhByte f 9 = 0)
include hw hlen hst

omit hlen hst in
/-- A reply reaches the update of its session. -/
theorem reply_taken : ∃ q since due, HoldsSession p f.chan ((x.heard f).storing { first := true, last := true, data := mhData f } since due).shift s q ∧
    ((sessGet (fwReply q p f.chan r (mhData f)) p f.chan).rx = [] → (sessGet (fwReply q p f.chan r (mhData f)) p f.chan).state = .opened →
      (∀ r', (sessGet (fwReply q p f.chan r (mhData f)) p f.chan).fw = some r' → r'.phase ≠ .chunks) →
      ∃ a n, HoldsSession p f.chan ((sessGet (fwReply q p f.chan r (mhData f)) p f.chan).probing a n) (fwReply q p f.chan r (mhData f)) (mbxIn s p f true)) := by
  obtain ⟨v, since, due, hv, hgo⟩ := mbxData_stores hf hx hn hs hk ha hseq hfirst hlast rfl
  exact ⟨_, since, due, hv.trans (HoldsSession.sessSet ..),
    hgo _ (deliverOne_update (g := { first := true, last := true, data := mhData f }) hv.sess hs hw rfl rfl)⟩

theorem beginR_holds (hp : r.phase = .begin) (ht : mhByte f 8 = 0x81) (hb : leNat ((mhData f).drop 4) % 4096 = 0)
    (hle : leNat ((mhData f).drop 4) ≤ fwBodyLen r.header) : ∃ t, execBeginR p f s = .next t ∧
      (sessGet t p f.chan).fw = some { r with phase := .reread, held := leNat ((mhData f).drop 4), acked := leNat ((mhData f).drop 4), since := none } ∧
      (sessGet t p f.chan).frags = [] := by
  obtain ⟨q, since, due, hq, hgo⟩ := reply_taken hf hx hn hs hk ha hseq hfirst hlast hw
  have hsess := fwReply_begins (s := q) (p := p) (c := f.chan) (by rw [mhData_length, hlen]) ((mhData_byte f 1).trans hst) hp ((mhData_byte f 0).trans ht) hb hle
  rw [hq.sess] at hsess
  rw [hsess] at hgo
  obtain ⟨a, n, hends⟩ := hgo rfl hs fun r' h => by cases h; exact nofun
  have hacts : execBeginR p f s = .next (mbxIn s p f true) := congrArg nxt (if_pos (by simp [fwFrame, hk, ht]))
  exact ⟨_, hacts, by rw [hends.sess]; rfl, by rw [hends.sess]; exact ha.frags⟩

theorem endR_activates (hp : r.phase = .ending) (ht : mhByte f 8 = 0x83) : ∃ t, execEndR p f s = .next t ∧
    (sessGet t p f.chan).fw = some { r with phase := .activate, since := none } ∧
    (sessGet t p f.chan).frags = [{ job := r.job, first := true, last := true, data := leBytes 8 4 }] := by
  obtain ⟨q, since, due, hq, hgo⟩ := reply_taken hf hx hn hs hk ha hseq hfirst hlast hw
  have hreply := fwReply_ends (s := q) (p := p) (c := f.chan) (by rw [mhData_length, hlen]) ((mhData_byte f 1).trans hst) hp ((mhData_byte f 0).trans ht)
  rw [hreply, fwQueue, sessGet_sessMod_same, hq.sess] at hgo
  obtain ⟨a, n, hends⟩ := hgo rfl hs fun r' h => by cases h; exact nofun
  have hacts : execEndR p f s = .next (mbxIn s p f true) := congrArg nxt (if_pos (by simp [fwFrame, hk, ht]))
  refine ⟨_, hacts, by rw [hends.sess]; rfl, ?_⟩
  rw [hends.sess]
  change x.frags ++ fragments r.job none (fwShort 0x04) = _
  rw [ha.frags]
  rfl

theorem activateR_waits (hp : r.phase = .activate) (ht : mhByte f 8 = 0x84) : ∃ t b, execActivateR p f s = .next t ∧
    (sessGet t p f.chan).fw = none ∧ (portGet t p).reboots = (portGet s p).reboots ++ [b] ∧ b.job = r.job ∧ b.since = s.now := by
  obtain ⟨q, since, due, hq, hgo⟩ := reply_taken hf hx hn hs hk ha hseq hfirst hlast hw
  obtain ⟨w, hw'⟩ : ∃ w, w = fwReply q p f.chan r (mhData f) := ⟨_, rfl⟩
  have hreply := fwReply_activates (s := q) (p := p) (c := f.chan) (by rw [mhData_length, hlen]) ((mhData_byte f 1).trans hst) hp ((mhData_byte f 0).trans ht)
  have hport : portGet w p = { portGet (sessMod q p f.chan fun x => { x with fw := none }) p with reboots := (portGet s p).reboots ++ [r.reboot s.now] } := by
    rw [hw', hreply, portGet_portMod_same, ← hq.link.now, sessMod, portGet_sessSet, hq.port]
  have hsess : sessGet w p f.chan = { sessGet q p f.chan with fw := none } := by
    rw [hw', hreply]
    refine Eq.trans (sessGet_portMod _ p f.chan ?_) (sessGet_sessMod_same ..)
    exact fun _ => rfl
  rw [hq.sess] at hsess
  rw [← hw', hsess] at hgo
  obtain ⟨a, n, hends⟩ := hgo rfl hs nofun
  have hacts : execActivateR p f s = .next (mbxIn s p f true) := congrArg nxt (if_pos (by simp [fwFrame, hk, ht]))
  refine ⟨_, r.reboot s.now, hacts, by rw [hends.sess]; rfl, ?_, rfl, rfl⟩
  rw [hends.port, hport]

end Reply
end Data
end Named

/-- Settles O50: an OPEN by `mbxOpenFrame_wasted`; every other frame passes the checks by `mbxFrameIn_takes` and does what its kind says, each as
said above. -/
theorem mailboxFrames : Obligations.MailboxFrames := by
  unfold Obligations.MailboxFrames
  intro s p f hhears hcur hshort hlong hgood hchan hserved
  have hf : GoodFrame s p f := ⟨hhears, hcur, hshort, hlong, hgood, hchan, hserved⟩
  dsimp only
  refine ⟨mbxOpenFrame_wasted hf, fun hsid hissued huna hrx hdlv hopen hfree hsack => ?_⟩
  have hn : NamesSession f (sessGet s p f.chan) := ⟨hsid, hissued, huna, hrx, hdlv, hopen, hfree, hsack⟩
  refine ⟨fun j y hk hs ⟨hfr, hfl, hsends, ha⟩ ho ⟨hj, hr⟩ hw => ?openAck,
    fun j y r hk hs ⟨hfr, hfl, hsends, ha⟩ hw hrecvs ⟨hj, hr⟩ hseq hfirst hlast hone hlen hdead hbme => ?data,
    fun j y g hk hs hprobe hw hfr hfl hg hl hsends ⟨hj, hr⟩ ha => mbxAck_completes hf rfl hn hs hk hprobe hw hfr hfl hg hl hsends hj hr ha,
    fun j y ho hw ⟨hj, hr⟩ => ⟨fun hk hs ⟨hfr, hfl, hsends, ha⟩ => ?close, fun hk hs ⟨hfr, hfl, hsends, ha⟩ => ?closeAck,
      fun hk hs ⟨hfr, hfl, hsends, ha⟩ => ?abort⟩,
    fun r hk hs ⟨hfr, hfl, hsends, ha⟩ hw hseq hfirst hlast hlen hst => ?update⟩
  all_goals have hall : Unsent f (sessGet s p f.chan) := ⟨hfr, hfl, hsends, ha⟩
  case openAck => exact ⟨openAck_opens hf rfl hn hk hs hall ho hj hr hw, openAck_refuses hf rfl hn hk hs hall ho hj hr⟩
  case data => exact mbxData_delivers hf rfl hn hs hk hall hseq hfirst hlast hw hrecvs hj hr hone hlen ⟨hdead, hbme⟩
  case close => exact closeFrame_closes hf rfl hn hall ho hw hj hr hk hs
  case closeAck => exact closeAck_closes hf rfl hn hall ho hw hj hr hk hs
  case abort => exact abortFrame_closes hf rfl hn hall ho hw hj hr hk hs
  case update =>
    exact ⟨beginR_holds hf rfl hn hs hk hall hseq hfirst hlast hw hlen hst,
      endR_activates hf rfl hn hs hk hall hseq hfirst hlast hw hlen hst,
      activateR_waits hf rfl hn hs hk hall hseq hfirst hlast hw hlen hst⟩

end Sys2Proof.Machine
end

section
/-! SUPPORT. Steps and registers in general: a step runs the front command (assumption 14), every command ends in a next state, what no step
does (`Laws/KeepsStep.lean`), and a write of one register or field. -/

namespace Sys2Proof.Machine

/-- Every arm of `exec` is the next state of its command's meaning, so each constructor closes by computation. -/
theorem exec_is_next (c : Instr) (s : State) : ∃ t, exec c s = .next t := by
  cases c <;> exact ⟨_, rfl⟩

/-- Settles O6: `exec_is_next` for each command. -/
theorem noCommandStops : Obligations.NoCommandStops := exec_is_next

/-- Settles O1: the second case of `step`. -/
theorem stepRunsFront : Obligations.StepRunsFront := by
  unfold Obligations.StepRunsFront
  intro c rest s hq
  simp only [step, hq]

/-- Settles O4: at reset no register, no byte of memory and no tile is listed. -/
theorem resetWellKept : Obligations.ResetWellKept := by
  unfold Obligations.ResetWellKept
  rfl

/-- Taking the front command off the queue changes nothing that the form speaks of. -/
theorem wf_of_pending {s : State} (q : List Instr) (h : s.wf = true) : ({ s with pending := q } : State).wf = true := h

/-- Settles O5: `step_keeps` from the state without its front command, which is in form where the state is. -/
theorem stepKeepsForm : Obligations.StepKeepsForm := by
  unfold Obligations.StepKeepsForm
  intro s t h
  obtain ⟨hvar, huid, hstep, hpending, ⟨sent, hout⟩, hctr, hwf⟩ := step_keeps h
  exact ⟨fun w => hwf (wf_of_pending _ w), hpending, hvar, huid, hstep, ⟨sent, hout.symm⟩, hctr⟩

/-- Settles O7: a write of a register is one entry of the register file, and a field's write one of its register. -/
theorem registerWriteIsOneRegister : Obligations.RegisterWriteIsOneRegister := by
  unfold Obligations.RegisterWriteIsOneRegister
  refine ⟨fun s p o w ho => ⟨reg_setReg_same s p o w, ?word⟩,
    fun s p f v ho hf => ⟨fget_fset_same s p f v hf, ?field, fun g hg hbeside => fget_fset_beside s p f g v hg hbeside⟩⟩
  case word => exact (RegsOnly.refl _ s).setReg (List.mem_singleton_self _) ho
  case field => exact (RegsOnly.refl _ s).fset (List.mem_singleton_self _) ho

end Sys2Proof.Machine
end

section
/-! SUPPORT. PERST#, the link and Bus Master Enable (R146, R174, R568, R622): what is held for a function leaves in order, and the jobs whose CQ
entries were held leave the job table. -/

namespace Sys2Proof.Machine

/-! ### Held CQ entries that have gone -/

/-- Jobs that leave the job table change it alone. -/
theorem jobsFreed_shape (l : List Nat) (s : State) : eachIn l jobFree s = { s with qe := { s.qe with jobs := (eachIn l jobFree s).qe.jobs } } :=
  eachIn_rel (R := fun s t => t = { s with qe := { s.qe with jobs := t.qe.jobs } }) (fun _ => rfl)
    (fun h g => by rw [g, h]) (fun _ _ _ => rfl) s

theorem jobGet_jobsFreed (l : List Nat) (s : State) (j : Nat) : jobGet (eachIn l jobFree s) j = if j ∈ l then none else jobGet s j := by
  unfold eachIn
  induction l generalizing s with
  | nil => simp
  | cons a l ih =>
    rw [List.foldl_cons, ih]
    by_cases hl : j ∈ l
    · simp [hl]
    · by_cases ha : j = a
      · subst ha; simp [hl, jobGet_jobFree_same]
      · simp [hl, ha, jobGet_jobFree_ne s ha]

/-- A queue pair that is freed at the end of a delete changes queue pairs, jobs, their registers and the count of a partition reset. -/
theorem deleteDone_shape (s : State) (q : Nat) :
    deleteDone s q = { s with qe := (deleteDone s q).qe, regs := (deleteDone s q).regs, part := (deleteDone s q).part } := by
  have hrelease : qpRelease s q = { s with qe := (qpRelease s q).qe, regs := (qpRelease s q).regs } := by
    unfold qpRelease
    dsimp only
    rw [qpSet_shape]
    rfl
  unfold deleteDone
  dsimp only
  split
  · rfl
  · split
    · rfl
    · rw [jobDone_shape, hrelease]

theorem heldGone_shape (s : State) (fn : Nat) :
    heldGone s fn = { s with qe := (heldGone s fn).qe, regs := (heldGone s fn).regs, part := (heldGone s fn).part } := by
  have hdeletes := fun l (t : State) =>
    eachIn_rel (R := fun s t => t = { s with qe := t.qe, regs := t.regs, part := t.part }) (l := l) (fun _ => rfl)
      (fun h g => by rw [g, h]) (fun t q _ => deleteDone_shape t q) t
  unfold heldGone
  dsimp only
  rw [hdeletes, jobsFreed_shape]

/-- Where no queue pair of the function drains, only jobs leave. -/
theorem heldGone_noDelete {s : State} {fn : Nat} (h : ∀ k ∈ s.qe.qps, k.2.owner = fn → k.2.deleting = none) :
    heldGone s fn = eachIn (heldJobs s fn) jobFree s := by
  have hnone : (s.qe.qps.filter fun k => decide (k.2.owner = fn) && k.2.deleting.isSome) = [] := by
    rw [List.filter_eq_nil_iff]
    intro k hk
    by_cases ho : k.2.owner = fn
    · simp [h k hk ho]
    · simp [ho]
  unfold heldGone
  dsimp only
  rw [jobsFreed_shape]
  dsimp only
  rw [hnone]
  rfl

/-! ### Bus Master Enable -/

/-- The state in which what was held for a function has gone to the host (R146). -/
def heldSent (s : State) (fn : Nat) : State :=
  { s with host := { s.host with
      bme := s.host.bme.set false fn true
      out := ((s.host.held.get [] fn).filter fun tx => !s.qe.dead || sentByPage tx).reverse ++ s.host.out
      held := s.host.held.set [] fn [] } }

theorem execBmeChange_sets {s : State} {fn : Nat} (hf : fn < s.var.partitions) (hl : s.host.linkUp = true) (hc : s.host.crs = false) :
    execBmeChange fn true s = .next (if s.qe.dead then heldSent s fn else heldGone (heldSent s fn) fn) := by
  unfold execBmeChange
  rw [if_neg (by simp [hl, hc, hf])]
  rfl

theorem execBmeChange_clears {s : State} {fn : Nat} (hf : fn < s.var.partitions) (hl : s.host.linkUp = true) (hc : s.host.crs = false) :
    execBmeChange fn false s = .next { s with host := { s.host with bme := s.host.bme.set false fn false } } := by
  unfold execBmeChange
  rw [if_neg (by simp [hl, hc, hf])]
  rfl

/-- What goes to the host when Bus Master Enable is set. -/
theorem heldSent_host (s : State) (fn : Nat) :
    (heldSent s fn).host.bme.get false fn = true ∧
    (heldSent s fn).host.out.reverse = s.host.out.reverse ++ (s.host.held.get [] fn).filter (fun tx => !s.qe.dead || sentByPage tx) ∧
    (heldSent s fn).host.held.get [] fn = [] ∧
    ∀ k, k ≠ fn → (heldSent s fn).host.bme.get false k = s.host.bme.get false k ∧ (heldSent s fn).host.held.get [] k = s.host.held.get [] k := by
  dsimp only [heldSent]
  refine ⟨Tab.get_set_same .., ?_, Tab.get_set_same .., fun k hk => ⟨Tab.get_set_ne _ _ _ _ hk, Tab.get_set_ne _ _ _ _ hk⟩⟩
  rw [List.reverse_append, List.reverse_reverse]

/-- Settles O27: PERST# and the link by their commands, a set Bus Master Enable by `heldSent` and `heldGone`, a cleared one as it stands. -/
theorem linkEvents : Obligations.LinkEvents := by
  unfold Obligations.LinkEvents
  refine ⟨fun s => rfl, fun s hp hc => ?trained, fun s fn hf hl hc => ⟨?set, ⟨_, execBmeChange_clears hf hl hc, ?clear⟩⟩⟩
  case trained =>
    show execLinkTrained s = _
    unfold execLinkTrained
    rw [if_neg (by simp [hp, hc])]
  case set =>
    have hsets := execBmeChange_sets hf hl hc
    split at hsets
    case isTrue hd => exact ⟨_, hsets, rfl, fun _ => rfl, fun h => by simp [hd] at h, heldSent_host s fn⟩
    case isFalse hd =>
      have hshape := heldGone_shape (heldSent s fn) fn
      have hhost : (heldGone (heldSent s fn) fn).host = (heldSent s fn).host := by rw [hshape]
      refine ⟨_, hsets, hshape.trans (by rw [hhost]; rfl), fun h => absurd h hd, fun _ hdel => ?_, by rw [hhost]; exact heldSent_host s fn⟩
      rw [heldGone_noDelete (s := heldSent s fn) hdel] at hhost ⊢
      exact ⟨(jobsFreed_shape ..).trans (by rw [hhost]; rfl), fun j => jobGet_jobsFreed ..⟩
  case clear =>
    dsimp only
    exact ⟨rfl, Tab.get_set_same .., rfl, rfl, fun k hk => Tab.get_set_ne _ _ _ _ hk⟩

end Sys2Proof.Machine
end

section
/-! SUPPORT. What the loss of the islands leaves of the kept pages, the PMU and the Loupe (R94, R577, R615): the PMU's registers and its state
after a reset of every other island, and what a watchdog that waits again changes. -/

namespace Sys2Proof.Tab

/-- A key that a filter keeps, whatever is listed under it, reads as before. -/
theorem find?_filter_kept {α : Type} (t : Tab α) {q : Nat × α → Bool} {k : Nat} (h : ∀ v, q (k, v) = true) : find? (t.filter q) k = find? t k := by
  induction t with
  | nil => rfl
  | cons e t ih =>
    obtain ⟨k', v⟩ := e
    rw [List.filter_cons]
    by_cases hk : k' = k
    · subst hk
      simp [find?, h]
    · split <;> simp [find?, hk, ih]

end Sys2Proof.Tab

namespace Sys2Proof.Machine

/-! ### One of a range of units -/

/-- A state function over the first `m` numbers, at one of them: those below it, the number itself, and those above it. -/
theorem eachIn_range_at (f : State → Nat → State) (s : State) {n m : Nat} (h : n < m) :
    eachIn (List.range m) f s = eachIn (List.range' (n + 1) (m - (n + 1))) f (f (eachIn (List.range n) f s) n) := by
  have hsplit : List.range m = List.range n ++ n :: List.range' (n + 1) (m - (n + 1)) := by
    rw [List.range_eq_range', List.range_eq_range', ← List.range'_succ, show m - (n + 1) + 1 = m - n by omega]
    have hcat := (List.range'_append_1 (s := 0) (m := n) (n := m - n)).symm
    rwa [Nat.zero_add, show n + (m - n) = m by omega] at hcat
  rw [hsplit, eachIn, List.foldl_append]
  rfl

/-- What the numbers around it leave alone, the one number decides. -/
theorem eachIn_range_decides {f : State → Nat → State} {s : State} {n m : Nat} {R : State → State → Prop} (h : n < m) (hrefl : ∀ s, R s s)
    (htrans : ∀ {s t u}, R s t → R t u → R s u) (hf : ∀ s k, k ≠ n → R s (f s k)) :
    ∃ u, R s u ∧ R (f u n) (eachIn (List.range m) f s) := by
  refine ⟨eachIn (List.range n) f s, eachIn_rel hrefl htrans (fun s a ha => hf s a ?_) s, ?_⟩
  · exact (List.mem_range.mp ha).ne
  · rw [eachIn_range_at f s h]
    refine eachIn_rel hrefl htrans (fun s a ha => hf s a ?_) _
    have := (List.mem_range'_1.mp ha).1
    omega

/-! ### The watchdog waits -/

theorem wdtShown_shape (s : State) (st : Nat) : wdtShown s st = { s with regs := (wdtShown s st).regs, loupe := (wdtShown s st).loupe } := rfl

/-- A watchdog that waits for its first feed shows it and is no active level. -/
theorem wdtWait_eq (s : State) :
    wdtWait s = if s.fbit pgLoupe F.LOUPE_WDT_CFG_ENABLE then levelInactive (wdtShown s wdtWaitFirst) 14 else s := rfl

theorem wdtWait_shape (s : State) :
    wdtWait s = { s with regs := (wdtWait s).regs, host := (wdtWait s).host, loupe := (wdtWait s).loupe } := by
  rw [wdtWait_eq]
  split
  · rw [levelInactive_shape, wdtShown_shape]
  · rfl

/-- It writes the Loupe page alone. -/
theorem wdtWait_pages (s : State) : PagesOnly (· = pgLoupe) s (wdtWait s) := by
  rw [wdtWait_eq]
  refine .ite (fun _ => ?_) fun _ => .refl _ s
  exact (PagesOnly.of_regsOnly (wdtShown_regs s _) (by simp)).trans (.of_regsOnly (levelInactive_regs _ 14) (by simp))

/-! ### The PMU's page -/

/-- The registers of the PMU that a reset of the islands writes, those of a capture on the page among them (R577). -/
abbrev pmuResetOffs : List Nat :=
  F.PMU_CTRL_MAX_STATE.off :: F.PMU_STAT_STATE.off :: F.PMU_NEXT_LO.off :: F.PMU_NEXT_HI.off :: F.PMU_NEXT_SRC_SRC.off :: errOffs

theorem islandsCleared_kept (s : State) {p o : Nat} (hp : keptPage p = true) (ho : o < 4096) : (islandsCleared s).reg p o = s.reg p o := by
  have hne : p ≠ pgRst := fun e => by subst e; exact absurd hp (by decide)
  have hpage : (p * 4096 + o) / 4096 = p := by omega
  rw [islandsCleared, reg_setReg _ _ (by decide) ho, if_neg (fun e => hne e.1)]
  simp only [State.reg, Tab.get, State.resetAt]
  rw [Tab.find?_filter_kept _ fun v => by rw [hpage]; exact hp]

/-- A resume commit that a reset cuts off is refused (R569, R582); its status is open. -/
def pmuCut (s : State) : State := if s.power.resuming then capture s.free.2 pgPmu 0x1100 0 (3 + s.free.1 % 2 ^ 16 * 2 ^ 16) else s

/-- The PMU with no entry, exit or resume commit in progress. -/
def pmuAtRest (s : State) : State :=
  { s with power := { s.power with entering := none, wakeAt := none, exiting := false, fromPs2 := false, resuming := false } }

/-- What the PMU shows after a reset: no MAX_STATE, PS0, and its earliest armed timer as the next known event. -/
def pmuShown (s : State) (t : Option Nat) : State :=
  (((s.fset pgPmu F.PMU_CTRL_MAX_STATE 0).fset pgPmu F.PMU_STAT_STATE 0).setReg64 pgPmu F.PMU_NEXT_LO.off F.PMU_NEXT_HI.off (t.getD 0)).fset pgPmu
    F.PMU_NEXT_SRC_SRC (if t.isSome then 2 else 0)

theorem pmuReset_eq (s : State) : ∃ t, pmuReset s = pmuShown (pmuAtRest (pmuCut s)) t := by
  refine ⟨timerNext (((pmuAtRest (pmuCut s)).fset pgPmu F.PMU_CTRL_MAX_STATE 0).fset pgPmu F.PMU_STAT_STATE 0), ?_⟩
  unfold pmuReset pmuShown pmuCut
  rfl

theorem pmuCut_fieldsBut (s : State) : FieldsBut pmuResetOffs [] pgPmu s (pmuCut s) := by
  unfold pmuCut
  split
  · exact (capture_fieldsBut s.free.2 (p := pgPmu) (part := 0) 0x1100 _ (by decide)).mono (by decide) (fun _ h => h)
  · exact .refl _ _ _ s

theorem pmuShown_fieldsBut (s : State) (t : Option Nat) : FieldsBut pmuResetOffs [] pgPmu s (pmuShown s t) :=
  (((((FieldsBut.refl _ _ _ s).setReg (by decide) (by decide)).setReg (by decide) (by decide)).setReg (by decide) (by decide)).setReg (by decide)
    (by decide)).setReg (by decide) (by decide)

theorem pmuReset_fieldsBut (s : State) : FieldsBut pmuResetOffs [] pgPmu s (pmuReset s) := by
  obtain ⟨t, ht⟩ := pmuReset_eq s
  have hrest : FieldsBut pmuResetOffs [] pgPmu (pmuCut s) (pmuAtRest (pmuCut s)) := fun _ _ => rfl
  rw [ht]
  exact ((pmuCut_fieldsBut s).trans hrest).trans (pmuShown_fieldsBut _ t)

theorem pairAfterReset_pages (s : State) (n : Nat) : PagesOnly (· = pgPwm + n) s (pairAfterReset s n) := by
  have hts : PagesOnly (· = pgPwm + n) s (s.fset (pgPwm + n) F.PWM_TS_STATE (tripState s n)) := (PagesOnly.refl _ s).fset rfl (by decide)
  unfold pairAfterReset
  exact .ite (fun _ => hts.pairIdle rfl) fun _ => ((hts.fset rfl (by decide)).tripPads rfl).fset rfl (by decide)

theorem pairsAfterReset_pages (m : Nat) (s : State) :
    PagesOnly (fun q => pgPwm ≤ q ∧ q < pgPwm + m) s (eachIn (List.range m) pairAfterReset s) :=
  (PagesOnly.refl _ s).each _ fun t n hn => (pairAfterReset_pages t n).mono fun q hq => by
    have := List.mem_range.mp hn
    omega

/-- The islands are cleared, then PMU is reset and the pairs take their state. -/
theorem coreReset_eq (s : State) : coreReset s = eachIn (List.range s.var.pwmPairs) pairAfterReset (pmuReset (islandsCleared s)) := by
  have hvar : (pmuReset (islandsCleared s)).var = s.var := congrArg Fuses.variant (StopKeeps.refl (islandsCleared s)).pmuReset.fuses
  rw [← hvar]
  rfl

/-- The PMU's page after a reset of the islands, field by field. -/
theorem coreReset_pmu (s : State) {f : Fld} (ho : f.off < 4096) (h : f.off ∉ pmuResetOffs) : (coreReset s).fget pgPmu f = s.fget pgPmu f := by
  have hpairs := (pairsAfterReset_pages s.var.pwmPairs (pmuReset (islandsCleared s))).fget (p := pgPmu) (f := f) (fun h => absurd h.1 (by decide)) ho
  have hpmu := (pmuReset_fieldsBut (islandsCleared s)).fget (f := f) ⟨ho, h, by simp⟩
  have hkept : (islandsCleared s).fget pgPmu f = s.fget pgPmu f := by
    unfold State.fget
    rw [islandsCleared_kept s (by decide) ho]
  rw [coreReset_eq]
  exact hpairs.trans (hpmu.trans hkept)

theorem pairsAfterReset_power (m : Nat) (s : State) : (eachIn (List.range m) pairAfterReset s).power = s.power :=
  eachIn_rel (R := fun s t => t.power = s.power) (fun _ => rfl) (fun h g => g.trans h)
    (fun t n _ => by unfold pairAfterReset; dsimp only; split <;> rfl) s

theorem pmuReset_power (s : State) :
    (pmuReset s).power = { s.power with entering := none, wakeAt := none, exiting := false, fromPs2 := false, resuming := false } := by
  have hcut : (pmuCut s).power = s.power := by
    unfold pmuCut
    split
    · rw [capture_shape]; rfl
    · rfl
  obtain ⟨t, ht⟩ := pmuReset_eq s
  rw [ht, ← hcut]
  rfl

/-- The PMU forgets entries, exits and a resume commit (R577), and nothing else of what it holds. -/
theorem coreReset_power (s : State) :
    (coreReset s).power = { s.power with entering := none, wakeAt := none, exiting := false, fromPs2 := false, resuming := false } := by
  rw [coreReset_eq, pairsAfterReset_power, pmuReset_power]
  rfl

end Sys2Proof.Machine
end

section
/-! SUPPORT. Power states (chapter 17): the chooser, entries and exits, scheduled exits and wakes (R560, R563 to R566, R568, R571). -/

namespace Sys2Proof.Machine

/-! ### What the chooser reads -/

/-- PMU_STAT.BLOCK holds every set of blocking conditions (Table 17.3). -/
theorem blocking_lt (s : State) (inL1 inD3 : Bool) : blocking s inL1 inD3 < 2 ^ 11 := by
  have hbit : ∀ (n : Nat) (b : Bool), (if b = true then 2 ^ n else 0) ≤ 2 ^ n := fun n b => by split <;> simp
  unfold blocking
  dsimp only
  refine lt_of_le_of_lt (b := 2 ^ 0 + 2 ^ 1 + 2 ^ 2 + 2 ^ 3 + 2 ^ 4 + 2 ^ 5 + 2 ^ 6 + 2 ^ 7 + 2 ^ 8 + 2 ^ 9 + 2 ^ 10) ?_ (by decide)
  repeat' refine Nat.add_le_add ?_ (hbit _ _)
  exact hbit _ _

/-- The next known event comes from Plan time, the requests and the armed timers. -/
theorem nextEvent_congr {s t : State} (h : t = { s with regs := t.regs }) (htimer : timerNext t = timerNext s) : nextEvent t = nextEvent s := by
  have hplan : planEvent t = planEvent s := by rw [h]; rfl
  have hserve : t.serve = s.serve := by rw [h]
  have hnow : t.now = s.now := by rw [h]; rfl
  unfold nextEvent
  rw [hplan, htimer, hserve, hnow]

/-- The choice reads MAX_STATE, MARGIN and the PTB. -/
theorem choose_congr {s t : State} (hnow : t.now = s.now) (hmax : t.fget pgPmu F.PMU_CTRL_MAX_STATE = s.fget pgPmu F.PMU_CTRL_MAX_STATE)
    (hmargin : t.fget pgPmu F.PMU_MARGIN_TICKS = s.fget pgPmu F.PMU_MARGIN_TICKS) (block : Nat) (e : Option (Nat × Nat)) :
    choose t block e = choose s block e := by
  unfold choose blocks
  simp only [hnow, hmax, hmargin]

/-- The timers' values stand at offsets 0x60 to 0x7C of the PMU's page (Table 17.10). -/
theorem timerNext_congr {s t : State} (h : ∀ o, 0x60 ≤ o → o < 0x80 → t.reg pgPmu o = s.reg pgPmu o) : timerNext t = timerNext s := by
  unfold timerNext
  refine List.foldl_ext _ _ _ fun best n hn => ?_
  have hn := List.mem_range.mp hn
  have hlo := h (0x60 + 8 * n) (by omega) (by omega)
  have hhi := h (0x64 + 8 * n) (by omega) (by omega)
  simp only [State.reg64, hlo, hhi]
  rfl

/-! ### The chooser -/

/-- The registers in which the chooser shows what it finds. -/
abbrev chooserRegs : List (Nat × Nat) :=
  [(pgPmu, F.PMU_STAT_STATE.off), (pgPmu, F.PMU_NEXT_LO.off), (pgPmu, F.PMU_NEXT_HI.off), (pgPmu, F.PMU_NEXT_SRC_SRC.off)]

/-- The chooser shows what blocks, and the next known event. -/
def chooserShown (s : State) (block : Nat) (e : Option (Nat × Nat)) : State := showNext (s.fset pgPmu F.PMU_STAT_BLOCK block) e

theorem chooserShown_shape (s : State) (block : Nat) (e : Option (Nat × Nat)) :
    chooserShown s block e = { s with regs := (chooserShown s block e).regs } := rfl

theorem showNext_regs (s : State) (e : Option (Nat × Nat)) :
    RegsOnly [(pgPmu, F.PMU_NEXT_LO.off), (pgPmu, F.PMU_NEXT_HI.off), (pgPmu, F.PMU_NEXT_SRC_SRC.off)] s (showNext s e) :=
  ((RegsOnly.refl _ s).setReg64 (by decide) (by decide) (by decide) (by decide)).fset (by decide) (by decide)

theorem chooserShown_regs (s : State) (block : Nat) (e : Option (Nat × Nat)) : RegsOnly chooserRegs s (chooserShown s block e) :=
  ((RegsOnly.refl _ s).fset (by decide) (by decide)).trans ((showNext_regs _ e).mono (by decide))

theorem chooserShown_block (s : State) {block : Nat} (e : Option (Nat × Nat)) (h : block < 2 ^ 11) :
    (chooserShown s block e).fget pgPmu F.PMU_STAT_BLOCK = block := by
  rw [chooserShown, (showNext_regs _ e).fget (by decide) (by decide), fget_fset_same _ _ _ _ (by decide)]
  exact Nat.mod_eq_of_lt h

theorem chooserShown_state (s : State) (block : Nat) (e : Option (Nat × Nat)) : powerState (chooserShown s block e) = powerState s := by
  rw [powerState, chooserShown, (showNext_regs _ e).fget (by decide) (by decide), fget_fset_beside _ _ F.PMU_STAT_BLOCK F.PMU_STAT_STATE _ rfl (.inl (by decide)),
    powerState]

/-- What it shows changes nothing of what the choice reads. -/
theorem choose_chooserShown (s : State) (block : Nat) (e : Option (Nat × Nat)) : choose (chooserShown s block e) block e = choose s block e :=
  have hshown := chooserShown_regs s block e
  choose_congr (s := s) (t := chooserShown s block e) rfl (hshown.fget (by decide) (by decide)) (hshown.fget (by decide) (by decide)) block e

/-- What the chooser does with the state it chooses: nothing where the device is in it, at once into PS0, else it begins the entry (R563). -/
def chosenEntered (s : State) (p : Nat) (e : Option (Nat × Nat)) : State :=
  if p = powerState s then s
  else if p = 0 then s.fset pgPmu F.PMU_STAT_STATE 0
  else powerSet s { s.power with
    entering := some p, wakeAt := if 2 ≤ p then e.map fun x => x.1 - exitTicks p - s.fget pgPmu F.PMU_MARGIN_TICKS else none }

theorem execChooserEvaluate_awake {s : State} (inL1 inD3 : Bool) (ho : s.power.off = false) (hx : s.power.exiting = false) (ha : asleep s = false)
    (he : s.power.entering = none) :
    execChooserEvaluate inL1 inD3 s = .next (chosenEntered (chooserShown s (blocking s inL1 inD3) (nextEvent s))
      (choose s (blocking s inL1 inD3) (nextEvent s)) (nextEvent s)) := by
  have hblock : RegsOnly [(pgPmu, F.PMU_STAT_BLOCK.off)] s (s.fset pgPmu F.PMU_STAT_BLOCK (blocking s inL1 inD3)) :=
    (RegsOnly.refl _ s).fset (by decide) (by decide)
  have hevent : nextEvent (s.fset pgPmu F.PMU_STAT_BLOCK (blocking s inL1 inD3)) = nextEvent s :=
    nextEvent_congr rfl (timerNext_congr fun o hl hh => hblock pgPmu o (by omega) (by simp; omega))
  unfold execChooserEvaluate
  rw [if_neg (by simp [ho, hx, ha])]
  simp only [fset_power, he, hevent]
  rw [← choose_chooserShown s (blocking s inL1 inD3) (nextEvent s)]
  rfl

theorem execChooserEvaluate_blocked {s : State} {inL1 inD3 : Bool} {q : Nat} (ho : s.power.off = false) (hx : s.power.exiting = false)
    (ha : asleep s = false) (he : s.power.entering = some q) (hb : blocks s (blocking s inL1 inD3) q = true) :
    ∃ t, execChooserEvaluate inL1 inD3 s = .next t ∧ t.power.entering = none ∧ t.power.exiting = decide (2 ≤ q) := by
  have hblock : RegsOnly [(pgPmu, F.PMU_STAT_BLOCK.off)] s (s.fset pgPmu F.PMU_STAT_BLOCK (blocking s inL1 inD3)) :=
    (RegsOnly.refl _ s).fset (by decide) (by decide)
  have hblocks : blocks (s.fset pgPmu F.PMU_STAT_BLOCK (blocking s inL1 inD3)) (blocking s inL1 inD3) q = true := by
    rw [← hb]
    unfold blocks
    rw [hblock.fget (by decide) (by decide)]
  unfold execChooserEvaluate
  rw [if_neg (by simp [ho, hx, ha])]
  simp only [fset_power, he, hblocks, if_true]
  refine ⟨_, rfl, ?_⟩
  by_cases hq : 2 ≤ q
  · simp only [hq, decide_true]
    exact ⟨rfl, rfl⟩
  · simp only [hq, decide_false]
    exact ⟨rfl, hx⟩

/-! ### Entries -/

/-- A pair in PS2 without a hold is off (assumption 129). -/
def pairStopped (s : State) (n : Nat) : State :=
  if s.fget (pgPwm + n) F.PWM_STAT_HOLD = 0 then setOutputs (pairSet s n { pairGet s n with due := none }) n false false else s

/-- No aligned copy counts. -/
def copiesStopped (s : State) : State :=
  timeSet s { s.time with copies := s.time.copies.map fun c => (c.1, { c.2 with valid := false, misses := 0 }) }

/-- The state is shown, and as the deepest since the last read (assumption 114). -/
def stateShown (s : State) (p : Nat) : State :=
  (s.fset pgPmu F.PMU_STAT_STATE p).fset pgPmu F.PMU_STAT_LAST (max p (s.fget pgPmu F.PMU_STAT_LAST))

/-- An entry that has completed; the tick of the scheduled exit stands. -/
def stateEntered (s : State) (p : Nat) (at_ : Option Nat) : State := powerSet (stateShown s p) { s.power with wakeAt := at_ }

/-- The state before the islands take theirs: no entry is in progress any more. -/
def entryEnded (s : State) : State := powerSet s { s.power with entering := none }

theorem execPsEntryDone_ps1 {s : State} (h : s.power.entering = some 1) :
    execPsEntryDone s = .next (stateEntered (entryEnded s) 1 s.power.wakeAt) := by
  simp only [execPsEntryDone, h, Nat.reduceEqDiff, if_false]
  rfl

theorem execPsEntryDone_ps2 {s : State} (h : s.power.entering = some 2) :
    execPsEntryDone s = .next (eachIn (List.range s.var.pwmPairs) pairStopped
      (copiesStopped (wdtWait ((stateEntered (entryEnded s) 2 s.power.wakeAt).fincSat pgPmu F.PMU_SLEEP_CNT_PS2 1)))) := by
  have hvar : (wdtWait ((stateEntered (entryEnded s) 2 s.power.wakeAt).fincSat pgPmu F.PMU_SLEEP_CNT_PS2 1)).var = s.var := by
    rw [wdtWait_shape]
    rfl
  simp only [execPsEntryDone, h, Nat.reduceEqDiff, if_false, if_true]
  rw [← hvar]
  rfl

theorem execPsEntryDone_ps3 {s : State} (h : s.power.entering = some 3) :
    execPsEntryDone s = .next (wdtWait ((stateEntered (coreReset (entryEnded s)) 3 s.power.wakeAt).fincSat pgPmu F.PMU_SLEEP_CNT_PS3 1)) := by
  simp only [execPsEntryDone, h, Nat.reduceEqDiff, if_false, if_true]
  rfl

theorem stateShown_regs (s : State) (p : Nat) : RegsOnly [(pgPmu, F.PMU_STAT_STATE.off)] s (stateShown s p) :=
  ((RegsOnly.refl _ s).fset (by decide) (by decide)).fset (by decide) (by decide)

/-- The one register it writes. -/
theorem stateEntered_regs (s : State) (p : Nat) (a : Option Nat) : RegsOnly [(pgPmu, F.PMU_STAT_STATE.off)] s (stateEntered s p a) :=
  (stateShown_regs s p).same fun _ _ _ => powerSet_reg ..

theorem stateEntered_state (s : State) {p : Nat} (a : Option Nat) (h : p < 4) : powerState (stateEntered s p a) = p := by
  rw [powerState, stateEntered, powerSet_fget, stateShown, fget_fset_beside _ _ F.PMU_STAT_LAST F.PMU_STAT_STATE _ rfl (.inl (by decide)),
    fget_fset_same _ _ _ _ (by decide)]
  exact Nat.mod_eq_of_lt h

theorem stateEntered_count (s : State) (p : Nat) (a : Option Nat) {f : Fld} (ho : f.off < 4096) (h : f.off ≠ F.PMU_STAT_STATE.off) (q : Nat) :
    (stateEntered s p a).fget q f = s.fget q f := (stateEntered_regs s p a).fget ho (by simpa using fun _ => h)

theorem pairStopped_pages (s : State) (n : Nat) : PagesOnly (· = pgPwm + n) s (pairStopped s n) :=
  .ite (fun _ => .setOutputs (.pairSet (.refl _ s)) rfl) fun _ => .refl _ s

/-- Beside registers it changes the table of pairs. -/
theorem pairStopped_shape (s : State) (n : Nat) : PairsOnly s (pairStopped s n) :=
  .ite (fun _ => .setOutputs (.pairSet (.refl s))) fun _ => .refl s

theorem pairStopped_off {s : State} {n : Nat} (h : s.fget (pgPwm + n) F.PWM_STAT_HOLD = 0) :
    (pairStopped s n).fget (pgPwm + n) F.PWM_STAT_H_ON = 0 ∧ (pairStopped s n).fget (pgPwm + n) F.PWM_STAT_L_ON = 0 := by
  rw [pairStopped, if_pos h, setOutputs, fget_fset_beside _ _ F.PWM_STAT_L_ON F.PWM_STAT_H_ON _ rfl (.inl (by decide)),
    fget_fset_same _ _ _ _ (by decide), fget_fset_same _ _ _ _ (by decide)]
  exact ⟨rfl, rfl⟩

/-- With every pair stopped, one without a hold has both outputs off. -/
theorem pairsStopped_off {s : State} {n m : Nat} (hn : n < m) (h : s.fget (pgPwm + n) F.PWM_STAT_HOLD = 0) :
    let t := eachIn (List.range m) pairStopped s
    t.fget (pgPwm + n) F.PWM_STAT_H_ON = 0 ∧ t.fget (pgPwm + n) F.PWM_STAT_L_ON = 0 := by
  obtain ⟨u, hu, ht⟩ := eachIn_range_decides (f := pairStopped) (s := s) (R := PagesOnly (· ≠ pgPwm + n)) hn (PagesOnly.refl _) PagesOnly.trans
    fun t k hk => (pairStopped_pages t k).mono fun q hq => by omega
  have hoff := pairStopped_off ((hu.fget (f := F.PWM_STAT_HOLD) (by simp) (by decide)).trans h)
  dsimp only
  rw [ht.fget (by simp) (by decide), ht.fget (by simp) (by decide)]
  exact hoff

theorem pairsStopped_pages (m : Nat) (s : State) : PagesOnly (pgPwm ≤ ·) s (eachIn (List.range m) pairStopped s) :=
  (PagesOnly.refl _ s).each _ fun t n _ => (pairStopped_pages t n).mono fun _ hq => by omega

/-- The PMU in PS2 before its pairs and copies stop: STATE is shown and the entry counted. -/
def ps2Shown (s : State) : State := (stateEntered (entryEnded s) 2 s.power.wakeAt).fincSat pgPmu F.PMU_SLEEP_CNT_PS2 1

/-- PS2 with the watchdog waiting and every copy and pair stopped. -/
def ps2Reached (s : State) : State := eachIn (List.range s.var.pwmPairs) pairStopped (copiesStopped (wdtWait (ps2Shown s)))

/-- What stops in PS2 is shown on the Loupe's page and those of the pairs. -/
theorem ps2Reached_pages (s : State) : PagesOnly (fun q => q = pgLoupe ∨ pgPwm ≤ q) (ps2Shown s) (ps2Reached s) := by
  have hcopies : PagesOnly (fun q => q = pgLoupe ∨ pgPwm ≤ q) (wdtWait (ps2Shown s)) (copiesStopped (wdtWait (ps2Shown s))) := fun _ _ _ _ => rfl
  exact (((wdtWait_pages _).mono fun _ => .inl).trans hcopies).trans ((pairsStopped_pages _ _).mono fun _ => .inr)

/-- No aligned copy counts, and the PMU stays as it was. -/
theorem ps2Reached_leaves (s : State) :
    (ps2Reached s).time = (copiesStopped (wdtWait (ps2Shown s))).time ∧ (ps2Reached s).power = (ps2Shown s).power := by
  have hpairs : PairsOnly (copiesStopped (wdtWait (ps2Shown s))) (ps2Reached s) := (PairsOnly.refl _).each _ fun t n => pairStopped_shape t n
  have hpower : (copiesStopped (wdtWait (ps2Shown s))).power = (ps2Shown s).power := by
    rw [copiesStopped, timeSet_power, wdtWait_shape]
  rw [hpairs, ← hpower]
  exact ⟨rfl, rfl⟩

theorem copiesStopped_invalid (s : State) : ∀ c ∈ (copiesStopped s).time.copies, c.2.valid = false := by
  intro c hc
  obtain ⟨d, -, rfl⟩ := List.mem_map.mp hc
  rfl

theorem ps2Shown_state (s : State) : powerState (ps2Shown s) = 2 := by
  rw [powerState, ps2Shown, State.fincSat, fget_fset_ne _ _ _ _ (by decide)]
  exact stateEntered_state _ _ (by decide)

theorem ps2Shown_count (s : State) : (ps2Shown s).fget pgPmu F.PMU_SLEEP_CNT_PS2 = satAdd (s.fget pgPmu F.PMU_SLEEP_CNT_PS2) 1 0xFFFF := by
  rw [ps2Shown, fget_fincSat_same _ _ _ _ (by decide), stateEntered_count _ _ _ (by decide) (by decide)]
  rfl

theorem ps2Reached_off {s : State} {n : Nat} (hn : n < s.var.pwmPairs) (h : s.fget (pgPwm + n) F.PWM_STAT_HOLD = 0) :
    (ps2Reached s).fget (pgPwm + n) F.PWM_STAT_H_ON = 0 ∧ (ps2Reached s).fget (pgPwm + n) F.PWM_STAT_L_ON = 0 := by
  refine pairsStopped_off hn ?_
  rw [copiesStopped, timeSet_fget, (wdtWait_pages _).fget (by simp only [pgPwm, pgLoupe]; omega) (by decide), ps2Shown, State.fincSat,
    fget_fset_ne _ _ _ _ (by simp only [pgPwm, pgPmu]; omega)]
  refine ((stateEntered_regs _ _ _).fget (by decide) ?_).trans h
  simp only [List.mem_singleton, Prod.mk.injEq, pgPwm, pgPmu]
  omega

/-- The PMU in PS3: every other island but LOUPE and TKU is reset, STATE is shown and the entry counted. -/
def ps3Shown (s : State) : State := (stateEntered (coreReset (entryEnded s)) 3 s.power.wakeAt).fincSat pgPmu F.PMU_SLEEP_CNT_PS3 1

theorem ps3Shown_state (s : State) : powerState (ps3Shown s) = 3 := by
  rw [powerState, ps3Shown, State.fincSat, fget_fset_ne _ _ _ _ (by decide)]
  exact stateEntered_state _ _ (by decide)

theorem ps3Shown_count (s : State) : (ps3Shown s).fget pgPmu F.PMU_SLEEP_CNT_PS3 = satAdd (s.fget pgPmu F.PMU_SLEEP_CNT_PS3) 1 0xFFFF := by
  rw [ps3Shown, fget_fincSat_same _ _ _ _ (by decide), stateEntered_count _ _ _ (by decide) (by decide), coreReset_pmu _ (by decide) (by decide)]
  rfl

theorem ps3Shown_power (s : State) : (ps3Shown s).power.entering = none ∧ (ps3Shown s).power.wakeAt = s.power.wakeAt := by
  rw [ps3Shown, State.fincSat, fset_power, stateEntered, powerSet_power, coreReset_power]
  exact ⟨rfl, rfl⟩

/-- The islands in PS3 hold nothing (R568). -/
theorem ps3Reached_forgets (s : State) : (wdtWait (ps3Shown s)).qe = {} ∧ (wdtWait (ps3Shown s)).facet = {} ∧ (wdtWait (ps3Shown s)).mem = {} := by
  have hcore := coreReset_keeps_cleared (entryEnded s)
  rw [wdtWait_shape, ps3Shown]
  exact ⟨hcore.qe, hcore.facet, hcore.mem⟩

/-! ### Exits -/

theorem execScheduledExit_exits {s : State} {w : Nat} (hw : s.power.wakeAt = some w) (ha : asleep s = true) (hx : s.power.exiting = false) :
    execScheduledExit s = .next (beginExit (s.reach w) (2 ^ (s.fget pgPmu F.PMU_NEXT_SRC_SRC - 1))) := by
  simp [execScheduledExit, hw, ha, hx]

/-- An exit from PS2 that begins for some cause (R564). -/
theorem beginExit_ps2 {s : State} {wakes : Nat} (hp : powerState s = 2) (hw : wakes ≠ 0) :
    beginExit s wakes = powerSet (s.fset pgPmu F.PMU_LAST_WAKE_CAUSE wakes)
      { s.power with entering := none, wakeAt := none, exiting := true, fromPs2 := true } := by
  unfold beginExit
  simp [hp, hw]

theorem execWake_exits {s : State} {sources : BitVec 8} (hs : sources.toNat &&& 0x78 ≠ 0) (ho : s.power.off = false) (hx : s.power.exiting = false)
    (he : s.power.entering = none) (ha : asleep s = true) : execWake sources s = .next (beginExit s (sources.toNat &&& 0x78)) := by
  simp [execWake, pmuWake, hs, ho, hx, he, ha]

theorem wakeCause_shown (s : State) (x : PowerSt) {wakes : Nat} (h : wakes < 2 ^ 8) :
    (powerSet (s.fset pgPmu F.PMU_LAST_WAKE_CAUSE wakes) x).fget pgPmu F.PMU_LAST_WAKE_CAUSE = wakes := by
  rw [powerSet_fget, fget_fset_same _ _ _ _ (by decide)]
  exact Nat.mod_eq_of_lt h

/-- The state of an exit that has completed, before the interrupt of an exit from PS2. -/
def exitEnded (s : State) : State := (powerSet s { s.power with exiting := false, fromPs2 := false }).fset pgPmu F.PMU_STAT_STATE 0

theorem execPsExitDone_ends {s : State} (h : s.power.exiting = true) :
    execPsExitDone s = .next (if s.power.fromPs2 then pageIrq (exitEnded s) pgPmu 1 else exitEnded s) := by
  simp only [execPsExitDone, h]
  rfl

theorem exitEnded_state (s : State) : powerState (exitEnded s) = 0 := fget_fset_same _ _ _ _ (by decide)

end Sys2Proof.Machine
end

section
/-! SUPPORT. The hold-up check and the beginning of a commit or format (R546 to R548): what a measurement shows, what the check of an energy
leaves, and the first erase. -/

namespace Sys2Proof.Machine

/-! ### Measurements -/

/-- The smallest of the first eight conversions, each of 12 bits (R546). -/
abbrev leastCode (codes : List Nat) : Nat := ((codes.take 8).map fun c => c % 4096).min?.getD 0

theorem leastCode_lt (codes : List Nat) : leastCode codes < 4096 := by
  unfold leastCode
  cases h : ((codes.take 8).map fun c => c % 4096).min? with
  | none => simp
  | some m =>
    obtain ⟨c, -, rfl⟩ := List.mem_map.mp (List.min?_mem h)
    exact Nat.mod_lt _ (by decide)

/-- The registers of a measurement. -/
abbrev measureRegs : List (Nat × Nat) := [(pgRtu, F.RTU_HU_NOW_CODE.off), (pgRtu, F.RTU_HU_AVAIL.off)]

/-- The voltage that a measurement shows: V, or a free value where the field cannot hold it (assumption 71). -/
def voltShown (s : State) (codes : List Nat) : Nat × State :=
  if huVolt s (leastCode codes) < 2 ^ 16 then (huVolt s (leastCode codes), s) else s.free

/-- What a measurement shows. -/
def measured (s : State) (codes : List Nat) : State :=
  (((voltShown s codes).2.fset pgRtu F.RTU_HU_NOW_CODE (leastCode codes)).fset pgRtu F.RTU_HU_NOW_MV (voltShown s codes).1).setReg pgRtu
    F.RTU_HU_AVAIL.off (BitVec.ofNat 32 (min (huAvail s (leastCode codes)) (2 ^ 32 - 1)))

theorem huMeasure_eq (s : State) (codes : List Nat) : huMeasure s codes = (huAvail s (leastCode codes), measured s codes) := by
  unfold huMeasure measured voltShown
  rfl

/-- A measurement draws at most a free value beside its registers. -/
theorem measured_shape (s : State) (codes : List Nat) :
    measured s codes = { s with regs := (measured s codes).regs, freeCtr := (measured s codes).freeCtr } := by
  unfold measured voltShown
  split <;> rfl

theorem voltShown_reg (s : State) (codes : List Nat) (p o : Nat) : (voltShown s codes).2.reg p o = s.reg p o := by
  unfold voltShown
  split <;> rfl

theorem measured_regs (s : State) (codes : List Nat) : RegsOnly measureRegs s (measured s codes) := by
  have hvolt : RegsOnly measureRegs s (voltShown s codes).2 := fun p o _ _ => voltShown_reg s codes p o
  exact ((hvolt.fset (by decide) (by decide)).fset (by decide) (by decide)).setReg (by decide) (by decide)

theorem measured_code (s : State) (codes : List Nat) : (measured s codes).fget pgRtu F.RTU_HU_NOW_CODE = leastCode codes := by
  rw [measured, fget_setReg_ne _ _ _ (by decide), fget_fset_beside _ _ F.RTU_HU_NOW_MV F.RTU_HU_NOW_CODE _ rfl (.inl (by decide)),
    fget_fset_same _ _ _ _ (by decide)]
  exact Nat.mod_eq_of_lt (leastCode_lt codes)

theorem measured_volt {s : State} {codes : List Nat} (h : huVolt s (leastCode codes) < 2 ^ 16) :
    (measured s codes).fget pgRtu F.RTU_HU_NOW_MV = huVolt s (leastCode codes) ∧ (measured s codes).freeCtr = s.freeCtr := by
  have hshown : voltShown s codes = (huVolt s (leastCode codes), s) := if_pos h
  rw [measured, hshown]
  refine ⟨?_, rfl⟩
  rw [fget_setReg_ne _ _ _ (by decide), fget_fset_same _ _ _ _ (by decide)]
  exact Nat.mod_eq_of_lt h

theorem execHoldupMeasure_measures {s : State} (codes : List Nat) (hw : s.rtu.work = none) (ha : asleep s = false) :
    execHoldupMeasure codes s = .next (measured s codes) := by
  simp [execHoldupMeasure, hw, ha, huMeasure_eq]

/-! ### The check -/

/-- The registers of a check: the measurement's, and both energies. -/
abbrev checkRegs : List (Nat × Nat) :=
  [(pgRtu, F.RTU_HU_NOW_CODE.off), (pgRtu, F.RTU_HU_AVAIL.off), (pgRtu, F.RTU_LAST_REQ.off), (pgRtu, F.RTU_LAST_AVAIL.off)]

/-- A check records what it needs and what there is. -/
def checked (s : State) (r x : Nat) (codes : List Nat) : State :=
  ((measured s codes).setReg pgRtu F.RTU_LAST_REQ.off (BitVec.ofNat 32 (min (huReq s r x) (2 ^ 32 - 1)))).setReg pgRtu F.RTU_LAST_AVAIL.off
    (BitVec.ofNat 32 (min (huAvail s (leastCode codes)) (2 ^ 32 - 1)))

theorem huCheck_eq (s : State) (r x : Nat) (codes : List Nat) :
    huCheck s r x codes = (decide (huReq s r x ≤ huAvail s (leastCode codes)), checked s r x codes) := by
  unfold huCheck
  rw [huMeasure_eq]
  rfl

theorem checked_shape (s : State) (r x : Nat) (codes : List Nat) :
    checked s r x codes = { s with regs := (checked s r x codes).regs, freeCtr := (checked s r x codes).freeCtr } := by
  unfold checked State.setReg
  rw [measured_shape]

theorem checked_regs (s : State) (r x : Nat) (codes : List Nat) : RegsOnly checkRegs s (checked s r x codes) :=
  (((measured_regs s codes).mono (by decide)).setReg (by decide) (by decide)).setReg (by decide) (by decide)

/-! ### The beginning of a commit or format -/

/-- A commit or format that goes on with an erase. -/
theorem rtuNext_clears {s : State} {w : RtuWork} {sec : Nat} {rest : List Nat} (h : w.clear = sec :: rest) :
    rtuNext s w = rtuIssue s w (.erase (areaAt s sec)) := by
  unfold rtuNext
  rw [h]

/-- The store area is where its registers say. -/
theorem areaAt_congr {s t : State} (h : t.fget pgRtu F.RTU_AREA_BASE = s.fget pgRtu F.RTU_AREA_BASE) (sec : Nat) : areaAt t sec = areaAt s sec := by
  rw [areaAt, areaAt, h]

theorem areaSectors_congr {s t : State} (h : t.fget pgRtu F.RTU_AREA_SIZE = s.fget pgRtu F.RTU_AREA_SIZE) : areaSectors t = areaSectors s := by
  rw [areaSectors, areaSectors, h]

theorem sectorAfter_congr {s t : State} (h : areaSectors t = areaSectors s) (k : Nat) : sectorAfter t k = sectorAfter s k := by
  rw [sectorAfter, sectorAfter, h]

/-- The store shows that a commit or format runs, after a check with enough energy. -/
def storeBusy (s : State) (r x : Nat) (codes : List Nat) : State := (checked s r x codes).fset pgRtu F.RTU_STORE_BUSY 1

theorem storeBusy_shape (s : State) (r x : Nat) (codes : List Nat) :
    storeBusy s r x codes = { s with regs := (storeBusy s r x codes).regs, freeCtr := (storeBusy s r x codes).freeCtr } := by
  unfold storeBusy State.fset State.setReg
  rw [checked_shape]

theorem storeBusy_regs (s : State) (r x : Nat) (codes : List Nat) :
    RegsOnly ((pgRtu, F.RTU_STORE_BUSY.off) :: checkRegs) s (storeBusy s r x codes) :=
  ((checked_regs s r x codes).mono (by decide)).fset (by decide) (by decide)

theorem storeBusy_area (s : State) (r x : Nat) (codes : List Nat) :
    (storeBusy s r x codes).fget pgRtu F.RTU_AREA_BASE = s.fget pgRtu F.RTU_AREA_BASE ∧
      (storeBusy s r x codes).fget pgRtu F.RTU_AREA_SIZE = s.fget pgRtu F.RTU_AREA_SIZE :=
  have hregs := storeBusy_regs s r x codes
  ⟨hregs.fget (by decide) (by decide), hregs.fget (by decide) (by decide)⟩

theorem storeBusy_shows (s : State) (r x : Nat) (codes : List Nat) : (storeBusy s r x codes).fget pgRtu F.RTU_STORE_BUSY = 1 :=
  fget_fset_same _ _ _ _ (by decide)

/-- The sectors that a commit of these operations allocates (R543). -/
abbrev commitPool (s : State) (st : Store) (ops : List RetOp) : List Nat := (fromCursor (freeSectors s) st.cursor).take (retNeed ops)

/-- Those of them that are not erased. -/
abbrev commitDirty (s : State) (st : Store) (ops : List RetOp) : List Nat := (commitPool s st ops).filter fun k => !isErased s k

/-- The commit of these operations as it begins (R548). -/
abbrev commitWork (s : State) (st : Store) (part : Nat) (job : Option (Nat × Nat)) (ops : List RetOp) : RtuWork :=
  { job := job, part := part, seq := (st.seq + 1) % 2 ^ 64, clear := (st.seq + 1) % 2 :: commitDirty s st ops, ops := ops.filter fun o => !o.del,
    pool := commitPool s st ops, taken := commitPool s st ops, cursor := sectorAfter s ((commitPool s st ops).getLastD 1),
    objs := ops.foldl (fun t o => if o.del then t.del o.obj else t) st.objs }

/-- The check of a commit. -/
abbrev commitFits (s : State) (st : Store) (ops : List RetOp) (codes : List Nat) : Prop :=
  huReq s (retNeed ops + 1) ((commitDirty s st ops).length + 1) ≤ huAvail s (leastCode codes)

/-- The state of a commit whose check has passed. -/
abbrev commitBusy (s : State) (st : Store) (ops : List RetOp) (codes : List Nat) : State :=
  storeBusy s (retNeed ops + 1) ((commitDirty s st ops).length + 1) codes

theorem commitStart_short {s : State} {st : Store} {ops : List RetOp} {codes : List Nat} (part : Nat) (job : Option (Nat × Nat))
    (h : ¬ commitFits s st ops codes) :
    commitStart s st part job ops codes = rtuShort (checked s (retNeed ops + 1) ((commitDirty s st ops).length + 1) codes) part job := by
  unfold commitStart
  simp [huCheck_eq, h]

/-- The job of a commit or format is past the point at which its block can stop it. -/
def jobBegun (s : State) (job : Option (Nat × Nat)) : State :=
  match job with
  | some (j, _) => match jobGet s j with
    | some x => jobSet s j { x with stage := 2 }
    | none => s
  | none => s

@[simp] theorem jobBegun_fget (s : State) (job : Option (Nat × Nat)) (p : Nat) (f : Fld) : (jobBegun s job).fget p f = s.fget p f := by
  unfold jobBegun
  split
  · split <;> rfl
  · rfl

theorem jobBegun_job {s : State} {j : Nat} {x : Job} (seq : Nat) (h : jobGet s j = some x) :
    jobBegun s (some (j, seq)) = jobSet s j { x with stage := 2 } := by
  simp only [jobBegun, h]

/-- A commit whose check has passed begins with the erase of the other superblock slot (R548). -/
theorem commitStart_begins {s : State} {st : Store} {ops : List RetOp} {codes : List Nat} (part : Nat) (job : Option (Nat × Nat))
    (h : commitFits s st ops codes) :
    commitStart s st part job ops codes =
      rtuIssue (jobBegun (commitBusy s st ops codes) job) (commitWork s st part job ops) (.erase (areaAt s ((st.seq + 1) % 2))) := by
  obtain ⟨hbase, hsize⟩ := storeBusy_area s (retNeed ops + 1) ((commitDirty s st ops).length + 1) codes
  have harea := areaAt_congr ((jobBegun_fget (commitBusy s st ops codes) job _ _).trans hbase)
  have hafter := sectorAfter_congr (areaSectors_congr ((jobBegun_fget (commitBusy s st ops codes) job _ _).trans hsize))
  have hstart : commitStart s st part job ops codes = rtuNext (jobBegun (commitBusy s st ops codes) job) { commitWork s st part job ops with
      cursor := sectorAfter (jobBegun (commitBusy s st ops codes) job) ((commitPool s st ops).getLastD 1) } := by
    unfold commitStart
    simp only [huCheck_eq, h, decide_true, not_true, if_false]
    rfl
  rw [hstart, rtuNext_clears rfl, harea, hafter]

end Sys2Proof.Machine
end

section
/-! SUPPORT. PS4, the PMU's timers and heat (R569, R570, R572 to R574), and the statement on power states. -/

namespace Sys2Proof.Machine

/-! ### PS4 -/

/-- A refusal is a capture on the PMU's page (R569). -/
theorem ps4Refused_idle {s : State} (reason status : Nat) (h : s.power.resuming = false) :
    ps4Refused s reason status = capture s pgPmu 0x1100 0 (reason + status * 2 ^ 16) := by
  have hsame : powerSet s { s.power with resuming := false } = s := by rw [← h]; rfl
  rw [ps4Refused, hsame]

/-- What a refusal shows where no capture is held. -/
theorem ps4Capture_shows {s : State} (detail : Nat) (h : s.fbit pgPmu F.PG_ERR0_VALID = false) :
    (capture s pgPmu 0x1100 0 detail).fget pgPmu F.PG_ERR0_CODE = 0x1100 ∧
      (capture s pgPmu 0x1100 0 detail).reg pgPmu F.PG_ERR3.off = BitVec.ofNat 32 detail :=
  ⟨(capture_shows 0 detail h (by decide)).2, capture_err3 0x1100 0 detail h⟩

theorem capture_power (s : State) (p code part detail : Nat) : (capture s p code part detail).power = s.power := by rw [capture_shape]

theorem execPmuPs4_acts {s : State} {part : Nat} (data : Word) (codes : List Nat) (hw : Writable s part pgPmu) :
    execPmuPs4 part data codes s = .next (ps4Write s part data codes) := congrArg Host.Outcome.next (pageWrite_acts _ hw)

section
variable {s : State} {data : Word} {codes : List Nat}

/-- A write with the key that something blocks is refused with reason 1. -/
theorem ps4Write_blocked (hk : bitsOf data 16 16 = 0x0FF4) (ho : objIdOk (bitsOf data 0 8) = true) (hr : s.power.resuming = false)
    (hb : blocking s true true &&& 0x1D9 ≠ 0) : ps4Write s 0 data codes = capture s pgPmu 0x1100 0 1 := by
  unfold ps4Write
  dsimp only
  rw [if_neg (by simp [hk, ho, hr]), if_pos hb]
  exact ps4Refused_idle 1 0 hr

/-- The one operation of the resume commit (R570, Table 17.4). -/
abbrev resumeOps (s : State) (data : Word) : List RetOp := [{ obj := bitsOf data 0 8, cls := 5, len := 64, bytes := some (resumeObject s) }]

/-- The device with its resume commit running. -/
abbrev resuming (s : State) : State := powerSet s { s.power with resuming := true }

/-- A write with the key that nothing refuses begins the resume commit. -/
theorem ps4Write_begins {st : Store} (hk : bitsOf data 16 16 = 0x0FF4) (ho : objIdOk (bitsOf data 0 8) = true) (hr : s.power.resuming = false)
    (hb : blocking s true true &&& 0x1D9 = 0) (hst : s.rtu.store = some st) (hready : storeState s = stReady)
    (hc : commitCheck s st 0 (resumeOps s data) = stOk) (hfits : commitFits s st (resumeOps s data) codes) :
    ps4Write s 0 data codes = rtuIssue (jobBegun (commitBusy (resuming s) st (resumeOps s data) codes) none)
      (commitWork s st 0 none (resumeOps s data)) (.erase (areaAt s ((st.seq + 1) % 2))) := by
  have hstart : commitStart (resuming s) st 0 none (resumeOps s data) codes = _ := commitStart_begins 0 none hfits
  unfold ps4Write
  dsimp only
  rw [if_neg (by simp [hk, ho, hr]), if_neg (by simp [hb])]
  simp only [hst, hready, hc, ne_eq, not_true, if_false, hstart]
  rfl

end

/-- A pair in high impedance. -/
def hizPair (s : State) (n : Nat) : State := pairSet s n { pairGet s n with hiz := true }

/-- The resume commit has ended with a status, which the PMU shows. -/
def resumeShown (s : State) (st : Nat) : State := (rtuSet s { s.rtu with resumed := none }).fset pgPmu F.PMU_PS4_STAT_STATUS st

/-- The device off: PWR_EN has fallen, and every island but the PMU is held in reset (R570). -/
def ps4Off (s : State) : State :=
  let u := clearPage (clearPage (coreReset (powerSet (resumeShown s stOk) { s.power with resuming := false })) pgTku) pgLoupe
  { u with loupe := {}, tku := {}, power := { off := true, adjusted := u.power.adjusted }, boot := { powerOn := u.boot.powerOn } }

theorem ps4End_ok {s : State} (h : s.rtu.resumed = some stOk) : ps4End s = eachIn (List.range s.var.pwmPairs) hizPair (ps4Off s) := by
  have hvar : (ps4Off s).var = s.var := congrArg Fuses.variant (coreReset_retains (powerSet (resumeShown s stOk) { s.power with resuming := false })).1
  unfold ps4End
  simp only [h, ne_eq, not_true, if_false]
  rw [← hvar]
  rfl

theorem ps4End_fails {s : State} {st : Nat} (h : s.rtu.resumed = some st) (hst : st ≠ stOk) : ps4End s = ps4Refused (resumeShown s st) 3 st := by
  unfold ps4End
  simp only [h, ne_eq, hst, not_false_eq_true, if_true]
  rfl

theorem pairsHiz_shape (m : Nat) (s : State) : PairsOnly s (eachIn (List.range m) hizPair s) :=
  (PairsOnly.refl s).each _ fun t _ => (PairsOnly.refl t).pairSet

theorem pairsHiz_hiz (s : State) {n m : Nat} (h : n < m) : (pairGet (eachIn (List.range m) hizPair s) n).hiz = true := by
  obtain ⟨u, -, ht⟩ := eachIn_range_decides (f := hizPair) (s := s) (R := fun s t => pairGet t n = pairGet s n) h (fun _ => rfl)
    (fun h g => g.trans h) fun t k hk => pairGet_pairSet_ne t _ hk.symm
  rw [ht, hizPair, pairGet_pairSet_same]

/-- What a resume commit without effect shows (R569). -/
theorem resumeFailed_shows {s : State} {st : Nat} (hst : st < 2 ^ 16) (hv : s.fbit pgPmu F.PG_ERR0_VALID = false) :
    let t := ps4Refused (resumeShown s st) 3 st
    t.power = { s.power with resuming := false } ∧ RegsOnly ((pgPmu, F.PMU_PS4_STAT_STATUS.off) :: captureRegs s pgPmu 0) s t ∧
      t.fget pgPmu F.PMU_PS4_STAT_STATUS = st ∧ t.fget pgPmu F.PG_ERR0_CODE = 0x1100 ∧
      t.reg pgPmu F.PG_ERR3.off = BitVec.ofNat 32 (3 + st * 2 ^ 16) := by
  set u := powerSet (resumeShown s st) { (resumeShown s st).power with resuming := false } with hu
  have hstatus : RegsOnly [(pgPmu, F.PMU_PS4_STAT_STATUS.off)] s u := (RegsOnly.refl _ (rtuSet s _)).fset (by decide) (by decide)
  have hvalid : u.fbit pgPmu F.PG_ERR0_VALID = false := (congrArg (· != 0) (hstatus.fget (by decide) (by decide))).trans hv
  have hplace : captureRegs u pgPmu 0 = captureRegs s pgPmu 0 := by
    simp only [captureRegs, hstatus.fget (p := pgPart + 0) (f := F.PART_LOG_STAT_NEXT) (by decide) (by decide)]
  have hregs := capture_regs u pgPmu 0x1100 0 (3 + st * 2 ^ 16)
  rw [hplace] at hregs
  refine ⟨capture_power .., (hstatus.mono (by simp)).trans (hregs.mono fun _ h => List.mem_cons_of_mem _ h), ?_, ps4Capture_shows _ hvalid⟩
  rw [ps4Refused, capture_fget _ _ _ _ _ (by decide) (by decide) (by decide), powerSet_fget, resumeShown, fget_fset_same _ _ _ _ (by decide)]
  exact Nat.mod_eq_of_lt hst

/-! ### Timers -/

theorem reg64_lt (s : State) (p lo hi : Nat) : s.reg64 p lo hi < 2 ^ 64 := by
  have hlo := (s.reg p lo).isLt
  have hhi := (s.reg p hi).isLt
  unfold State.reg64
  omega

/-- The state in which a timer has fired: it is disarmed and its bit is set. -/
def timerFired (s : State) (n : Nat) : State :=
  let u := (s.reach (s.reg64 pgPmu (F.PMU_TMR_LO.off + 8 * n) (F.PMU_TMR_HI.off + 8 * n))).setReg64 pgPmu (F.PMU_TMR_LO.off + 8 * n)
    (F.PMU_TMR_HI.off + 8 * n) 0
  u.fset pgPmu F.PMU_TMR_STAT_FIRED (natPutBit (u.fget pgPmu F.PMU_TMR_STAT_FIRED) n true)

theorem execPmuTimerFire_fires {s : State} {n : Nat} (hn : n < 4) (hr : s.time.running = true) (ho : s.power.off = false)
    (hv : s.reg64 pgPmu (F.PMU_TMR_LO.off + 8 * n) (F.PMU_TMR_HI.off + 8 * n) ≠ 0) :
    execPmuTimerFire n s = .next (pageIrq (timerFired s n) pgPmu 2) := by
  unfold execPmuTimerFire
  dsimp only
  rw [if_neg (by simp only [not_or, not_le]; exact ⟨hn, hv, by simp [hr], by simp [ho]⟩)]
  rfl

theorem timerFired_shape (s : State) (n : Nat) : timerFired s n = { s with regs := (timerFired s n).regs, time := (timerFired s n).time } := by
  unfold timerFired
  rw [reach_shape]
  rfl

theorem timerFired_regs {s : State} {n : Nat} (hn : n < 4) :
    RegsOnly [(pgPmu, F.PMU_TMR_LO.off + 8 * n), (pgPmu, F.PMU_TMR_HI.off + 8 * n), (pgPmu, F.PMU_TMR_STAT_FIRED.off)] s (timerFired s n) := by
  unfold timerFired
  refine ((RegsOnly.setReg64 ?_ (by simp) (by simp) (by simp only; omega) (by simp only; omega))).fset (by simp) (by decide)
  exact fun p o _ _ => reach_reg ..

theorem timerFired_disarmed {s : State} {n : Nat} (hn : n < 4) :
    (timerFired s n).reg64 pgPmu (F.PMU_TMR_LO.off + 8 * n) (F.PMU_TMR_HI.off + 8 * n) = 0 := by
  unfold timerFired
  dsimp only
  rw [State.reg64, reg_fset_ne _ _ _ (by simp only; omega), reg_fset_ne _ _ _ (by simp only; omega)]
  exact (reg64_setReg64_same _ 0 (by omega)).trans rfl

theorem timerFired_bit {s : State} {n : Nat} (hn : n < 4) : natBit ((timerFired s n).fget pgPmu F.PMU_TMR_STAT_FIRED) n = true := by
  rw [timerFired, fget_fset_same _ _ _ _ (by decide), natBit, Nat.testBit_mod_two_pow, testBit_natPutBit_same]
  simp [hn]

theorem timerFired_now {s : State} {n : Nat} (hr : s.time.running = true) :
    s.reg64 pgPmu (F.PMU_TMR_LO.off + 8 * n) (F.PMU_TMR_HI.off + 8 * n) ≤ (timerFired s n).now := by
  have hnow := reach_now s (reg64_lt s pgPmu (F.PMU_TMR_LO.off + 8 * n) (F.PMU_TMR_HI.off + 8 * n))
  change _ ≤ (s.reach _).now
  rw [hnow]
  split <;> simp_all

/-- A cause of a page that is set. -/
theorem pageIrq_bit (s : State) (p : Nat) {bits i : Nat} (h : (BitVec.ofNat 32 bits).getLsbD i = true) :
    ((pageIrq s p bits).reg p F.PG_IRQ_STAT_ERR.off).getLsbD i = true := by
  rw [pageIrq_reg _ _ _ (by decide), if_pos ⟨rfl, rfl⟩, BitVec.getLsbD_or, h, Bool.or_true]

/-! ### Heat -/

/-- The registers of the PMU pass through a chip reset, but for those of `pmuResetOffs` (R94). -/
theorem chipReset_pmu (s : State) (cause : Nat) {f : Fld} (ho : f.off < 4096) (h : f.off ∉ pmuResetOffs) :
    (chipReset s cause).fget pgPmu f = s.fget pgPmu f := by
  have hstop : PagesOnly (fun q => q = pgLoupe ∨ pgPwm ≤ q) s (wdtWait (wholeStop s 18)) :=
    ((stopRequest_pages s 18 0xFF true).mono fun _ h => h.imp id And.left).trans ((wdtWait_pages _).mono fun _ => .inl)
  rw [chipReset_eq, fget_fset_ne _ _ _ _ (by simp only [pgPmu, pgChip]; omega), fget_fset_ne _ _ _ _ (by simp only [pgPmu, pgRst]; omega),
    fget_fset_ne _ _ _ _ (by simp only [pgPmu, pgRst]; omega)]
  exact (coreReset_pmu _ ho h).trans (hstop.fget (by decide) ho)

/-- The reading is shown. -/
def tempShown (s : State) (c : Int) : State := s.fset pgPmu F.PMU_TEMP_DEGC (ofSigned 8 (max (-128) (min 127 c)))

theorem ofSigned_lt (w : Nat) (x : Int) : ofSigned w x < 2 ^ w := by
  have hpos : (0 : Int) < (2 ^ w : Nat) := by positivity
  unfold ofSigned
  have hlt := Int.emod_lt_of_pos x hpos
  omega

theorem tempShown_temp (s : State) (c : Int) : (tempShown s c).fget pgPmu F.PMU_TEMP_DEGC = ofSigned 8 (max (-128) (min 127 c)) := by
  rw [tempShown, fget_fset_same _ _ _ _ (by decide)]
  exact Nat.mod_eq_of_lt (ofSigned_lt 8 _)

theorem tempShown_regs (s : State) (c : Int) : RegsOnly [(pgPmu, F.PMU_TEMP_DEGC.off)] s (tempShown s c) := (RegsOnly.refl _ s).fset (by decide) (by decide)

theorem execThermalSample_shows {s : State} (t0 t1 t2 t3 : Int) (ho : s.power.off = false) :
    let c := max (max t0 t1) (max t2 t3)
    let shut : Int := s.fget pgPmu F.PMU_THERM_T_SHUT
    execThermalSample t0 t1 t2 t3 s = .next (
      if shut ≤ c ∧ ¬ s.power.hot then powerSet (chipReset (tempShown s c) 5) { (chipReset (tempShown s c) 5).power with hot := true }
      else if c ≤ shut - 20 then powerSet (tempShown s c) { s.power with hot := false } else tempShown s c) := by
  have hshut := (tempShown_regs s (max (max t0 t1) (max t2 t3))).fget (p := pgPmu) (f := F.PMU_THERM_T_SHUT) (by decide) (by decide)
  unfold execThermalSample
  dsimp only
  rw [if_neg (by simp [ho]), ← hshut]
  rfl

/-! ### Speed -/

/-- A SPEED that its field can hold. -/
theorem speedTo_speed (s : State) {v : Nat} (h : v < 2 ^ 4) : (speedTo s v).fget pgPmu F.PMU_SPEED_SPEED = v := by
  unfold speedTo
  split
  · assumption
  · rw [pageIrq_fget _ _ _ (by decide) (by decide), State.fincSat, fget_fset_ne _ _ _ _ (by decide), fget_fset_same _ _ _ _ (by decide)]
    exact Nat.mod_eq_of_lt h

theorem speedTo_shape (s : State) (v : Nat) : speedTo s v = { s with regs := (speedTo s v).regs, host := (speedTo s v).host } := by
  unfold speedTo
  split
  · rfl
  · exact regsHost_trans (regsHost_trans (fset_shape ..) (fset_shape ..)) (pageIrq_shape ..)

/-- The SPEED that an adjustment chooses (R573). -/
def nextSpeed (s : State) : Nat :=
  let temp := toSigned 8 (s.fget pgPmu F.PMU_TEMP_DEGC)
  let hot : Int := s.fget pgPmu F.PMU_THERM_T_THROTTLE
  let v := s.fget pgPmu F.PMU_SPEED_SPEED
  if hot ≤ temp then max 1 (v - 1)
  else if temp ≤ hot - s.fget pgPmu F.PMU_THERM_HYST then max v (min (v + 1) (s.fget pgPmu F.PMU_SPEED_CAP)) else v

theorem nextSpeed_lt (s : State) : nextSpeed s < 2 ^ 4 := by
  have hv : s.fget pgPmu F.PMU_SPEED_SPEED < 2 ^ 4 := fget_lt ..
  have hcap : s.fget pgPmu F.PMU_SPEED_CAP < 2 ^ 4 := fget_lt ..
  unfold nextSpeed
  dsimp only
  split
  · omega
  · split <;> omega

/-- The state at the instant of an adjustment. -/
def adjusting (s : State) (t : Nat) : State := powerSet (s.reach t) { (s.reach t).power with adjusted := some t }

theorem adjusting_shape (s : State) (t : Nat) : adjusting s t = { s with time := (adjusting s t).time, power := (adjusting s t).power } := by
  unfold adjusting
  rw [reach_shape]
  rfl

theorem adjusting_fget (s : State) (t p : Nat) (f : Fld) : (adjusting s t).fget p f = s.fget p f := by
  rw [adjusting, powerSet_fget, reach_fget]

theorem nextSpeed_adjusting (s : State) (t : Nat) : nextSpeed (adjusting s t) = nextSpeed s := by
  simp only [nextSpeed, adjusting_fget]

theorem adjusting_power (s : State) (t : Nat) : (adjusting s t).power = { s.power with adjusted := some t } := by
  rw [adjusting, powerSet_power, reach_shape]

/-- SPEED changes by one step where the temperature calls for it, and else not at all (R573). -/
theorem speedTo_nextSpeed (u : State) :
    speedTo u (nextSpeed u) =
      let temp := toSigned 8 (u.fget pgPmu F.PMU_TEMP_DEGC)
      let hot : Int := u.fget pgPmu F.PMU_THERM_T_THROTTLE
      let v := u.fget pgPmu F.PMU_SPEED_SPEED
      if hot ≤ temp then speedTo u (max 1 (v - 1))
      else if temp ≤ hot - u.fget pgPmu F.PMU_THERM_HYST then speedTo u (max v (min (v + 1) (u.fget pgPmu F.PMU_SPEED_CAP)))
      else u := by
  unfold nextSpeed
  dsimp only
  split
  · rfl
  · split
    · rfl
    · rw [speedTo, if_pos rfl]

/-- The adjustment after one at this instant is at the next multiple of 800 000 ticks. -/
theorem execSpeedAdjust_adjusts {s : State} (hr : s.time.running = true) (ho : s.power.off = false) (ha : s.power.adjusted = some s.now) :
    execSpeedAdjust s = .next (speedTo (adjusting s ((s.now / 800000 + 1) * 800000)) (nextSpeed s)) := by
  have ht : (if s.now % 800000 = 0 ∧ s.power.adjusted ≠ some s.now then s.now else (s.now / 800000 + 1) * 800000) =
      (s.now / 800000 + 1) * 800000 := if_neg (by simp [ha])
  rw [← nextSpeed_adjusting s ((s.now / 800000 + 1) * 800000), speedTo_nextSpeed]
  unfold execSpeedAdjust
  dsimp only
  rw [if_neg (by simp [hr, ho]), ht]
  rfl

/-! ### The statement -/

/-- A chooser that is free to choose (R560, R563). -/
theorem chooser_chooses {s : State} (inL1 inD3 : Bool) (ho : s.power.off = false) (hx : s.power.exiting = false) (ha : asleep s = false)
    (he : s.power.entering = none) :
    let block := blocking s inL1 inD3
    let e := nextEvent s
    let p := choose s block e
    ∃ t, execChooserEvaluate inL1 inD3 s = .next t ∧ t = { s with regs := t.regs, power := t.power } ∧ RegsOnly chooserRegs s t ∧
      t.fget pgPmu F.PMU_STAT_BLOCK = block ∧
      (p = powerState s → t.power = s.power ∧ powerState t = powerState s) ∧ (p ≠ powerState s → p = 0 → t.power = s.power ∧ powerState t = 0) ∧
      (p ≠ powerState s → p ≠ 0 → powerState t = powerState s ∧
        t.power = { s.power with entering := some p,
                                 wakeAt := if 2 ≤ p then e.map fun x => x.1 - exitTicks p - s.fget pgPmu F.PMU_MARGIN_TICKS else none }) := by
  dsimp only
  generalize hp : choose s (blocking s inL1 inD3) (nextEvent s) = p
  generalize hu : chooserShown s (blocking s inL1 inD3) (nextEvent s) = u
  have hshape : u = { s with regs := u.regs } := hu ▸ chooserShown_shape ..
  have hregs : RegsOnly chooserRegs s u := hu ▸ chooserShown_regs s _ _
  have hblock : u.fget pgPmu F.PMU_STAT_BLOCK = blocking s inL1 inD3 := hu ▸ chooserShown_block s _ (blocking_lt ..)
  have hstate : powerState u = powerState s := hu ▸ chooserShown_state ..
  have hpower : u.power = s.power := by rw [hshape]
  have hmargin := hregs.fget (p := pgPmu) (f := F.PMU_MARGIN_TICKS) (by decide) (by decide)
  refine ⟨_, execChooserEvaluate_awake inL1 inD3 ho hx ha he, ?_⟩
  rw [hp, hu, chosenEntered, hstate]
  split
  · rename_i hsame
    exact ⟨by rw [hshape], hregs, hblock, fun _ => ⟨hpower, hstate⟩, fun h => absurd hsame h, fun h => absurd hsame h⟩
  · split
    · rename_i hne h0
      refine ⟨?_, hregs.fset (by decide) (by decide), ?_, fun h => absurd h hne, fun _ _ => ⟨hpower, fget_fset_same _ _ _ _ (by decide)⟩,
        fun _ h => absurd h0 h⟩
      · rw [fset_power, hpower]
        exact Eq.trans (by rw [hshape]; rfl) rfl
      · rw [fget_fset_beside _ _ F.PMU_STAT_STATE F.PMU_STAT_BLOCK _ rfl (.inr (by decide)), hblock]
    · rename_i hne h0
      refine ⟨?_, hregs, hblock, fun h => absurd h hne, fun _ h => absurd h h0, fun _ _ => ⟨hstate, ?_⟩⟩
      · rw [hshape]; rfl
      · rw [powerSet_power, hpower, hmargin]

end Sys2Proof.Machine
end

section
/-! SUPPORT. The statement on power states, clause by clause. -/

namespace Sys2Proof.Machine

/-- An entry that completes (R564, R566, R568). -/
theorem psEntryDone_completes {s : State} {p : Nat} (he : s.power.entering = some p) (hp : p = 1 ∨ p = 2 ∨ p = 3) :
    ∃ t, execPsEntryDone s = .next t ∧ powerState t = p ∧ t.power.entering = none ∧ t.power.wakeAt = s.power.wakeAt ∧
      (p = 1 → t = { s with regs := t.regs, power := t.power } ∧ RegsOnly [(pgPmu, F.PMU_STAT_STATE.off)] s t) ∧
      (p = 2 → t.fget pgPmu F.PMU_SLEEP_CNT_PS2 = satAdd (s.fget pgPmu F.PMU_SLEEP_CNT_PS2) 1 0xFFFF ∧ (∀ c ∈ t.time.copies, c.2.valid = false) ∧
        ∀ n, natBit (s.fget pgLoupe F.LOUPE_LEVEL_SRC) 14 = false → n < s.var.pwmPairs → s.fget (pgPwm + n) F.PWM_STAT_HOLD = 0 →
          t.fget (pgPwm + n) F.PWM_STAT_H_ON = 0 ∧ t.fget (pgPwm + n) F.PWM_STAT_L_ON = 0) ∧
      (p = 3 → t.fget pgPmu F.PMU_SLEEP_CNT_PS3 = satAdd (s.fget pgPmu F.PMU_SLEEP_CNT_PS3) 1 0xFFFF ∧ t.qe = {} ∧ t.facet = {} ∧ t.mem = {}) := by
  obtain rfl | rfl | rfl := hp
  · refine ⟨_, execPsEntryDone_ps1 he, stateEntered_state _ _ (by decide), rfl, rfl, fun _ => ⟨rfl, ?_⟩, nofun, nofun⟩
    exact stateEntered_regs (entryEnded s) 1 s.power.wakeAt
  · obtain ⟨htime, hpower⟩ := ps2Reached_leaves s
    have hpages := ps2Reached_pages s
    refine ⟨ps2Reached s, execPsEntryDone_ps2 he, (hpages.fget (by decide) (by decide)).trans (ps2Shown_state s), ?_, ?_, nofun,
      fun _ => ⟨(hpages.fget (by decide) (by decide)).trans (ps2Shown_count s), ?_, fun n _ hn hh => ps2Reached_off hn hh⟩, nofun⟩
    · rw [hpower]; rfl
    · rw [hpower]; rfl
    · rw [htime]; exact copiesStopped_invalid _
  · have hpower : (wdtWait (ps3Shown s)).power = (ps3Shown s).power := by rw [wdtWait_shape]
    have hpages := wdtWait_pages (ps3Shown s)
    obtain ⟨hentering, hwake⟩ := ps3Shown_power s
    exact ⟨wdtWait (ps3Shown s), execPsEntryDone_ps3 he, (hpages.fget (by decide) (by decide)).trans (ps3Shown_state s), hpower ▸ hentering, hpower ▸ hwake,
      nofun, nofun, fun _ => ⟨(hpages.fget (by decide) (by decide)).trans (ps3Shown_count s), ps3Reached_forgets s⟩⟩

theorem asleep_of_ps2 {s : State} (h : powerState s = 2) : asleep s = true := by
  rw [powerState] at h
  simp [asleep, h]

/-- The scheduled exit of PS2 (R563, R565). -/
theorem scheduledExit_begins {s : State} {w : Nat} (hx : s.power.exiting = false) (hp : powerState s = 2) (hw : s.power.wakeAt = some w) :
    ∃ t, execScheduledExit s = .next t ∧ t = { s with regs := t.regs, time := t.time, power := t.power } ∧
      t.power = { s.power with entering := none, wakeAt := none, exiting := true, fromPs2 := true } ∧
      t.fget pgPmu F.PMU_LAST_WAKE_CAUSE = 2 ^ (s.fget pgPmu F.PMU_NEXT_SRC_SRC - 1) ∧ (s.time.running = true → w < 2 ^ 64 → w ≤ t.now) := by
  have hsrc : s.fget pgPmu F.PMU_NEXT_SRC_SRC < 2 ^ 3 := fget_lt ..
  have hcause : 2 ^ (s.fget pgPmu F.PMU_NEXT_SRC_SRC - 1) < 2 ^ 8 := Nat.pow_lt_pow_right (by decide) (by omega)
  have hreach : powerState (s.reach w) = 2 := (reach_fget ..).trans hp
  have hpower : (s.reach w).power = s.power := by rw [reach_shape]
  rw [execScheduledExit_exits hw (asleep_of_ps2 hp) hx, beginExit_ps2 hreach (by positivity)]
  refine ⟨_, rfl, ?_, ?_, wakeCause_shown _ _ hcause, fun hr hlt => ?_⟩
  · rw [hpower, reach_shape]; rfl
  · rw [powerSet_power, hpower]
  · change w ≤ (s.reach w).now
    rw [reach_now s hlt]
    split <;> simp_all

/-- A wake source begins the exit of PS2 (R565, R571). -/
theorem wake_begins {s : State} {sources : BitVec 8} (hx : s.power.exiting = false) (ho : s.power.off = false) (hp : powerState s = 2)
    (hs : sources.toNat &&& 0x78 ≠ 0) (he : s.power.entering = none) :
    ∃ t, execWake sources s = .next t ∧ t = { s with regs := t.regs, power := t.power } ∧
      t.power = { s.power with wakeAt := none, exiting := true, fromPs2 := true } ∧
      RegsOnly [(pgPmu, F.PMU_LAST_WAKE_CAUSE.off)] s t ∧ t.fget pgPmu F.PMU_LAST_WAKE_CAUSE = sources.toNat &&& 0x78 := by
  rw [execWake_exits hs ho hx he (asleep_of_ps2 hp), beginExit_ps2 hp hs]
  refine ⟨_, rfl, rfl, ?_, ?_, wakeCause_shown _ _ (Nat.and_lt_two_pow _ (by decide))⟩
  · rw [powerSet_power, ← he]
  · exact ((RegsOnly.refl _ s).fset (by decide) (by decide)).same fun _ _ _ => powerSet_reg ..

/-- An exit that completes leads to PS0 (R564). -/
theorem psExitDone_completes {s : State} (h : s.power.exiting = true) :
    ∃ t, execPsExitDone s = .next t ∧ t = { s with regs := t.regs, power := t.power, host := t.host } ∧ powerState t = 0 ∧
      t.power = { s.power with exiting := false, fromPs2 := false } ∧
      (s.power.fromPs2 = true → (t.reg pgPmu F.PG_IRQ_STAT_ERR.off).getLsbD 0 = true) := by
  rw [execPsExitDone_ends h]
  cases hf : s.power.fromPs2 with
  | true =>
    refine ⟨_, rfl, ?_, ?_, ?_, fun _ => pageIrq_bit _ _ (by decide)⟩
    · rw [if_pos rfl, pageIrq_shape]; rfl
    · exact (pageIrq_fget _ _ _ (by decide) (by decide)).trans (exitEnded_state s)
    · rw [if_pos rfl, pageIrq_shape]; rfl
  | false => exact ⟨exitEnded s, rfl, rfl, exitEnded_state s, rfl, nofun⟩

/-- The end of the resume commit (R569, R570). -/
theorem ps4CommitDone_ends {s : State} {st : Nat} (hr : s.power.resuming = true) (h : s.rtu.resumed = some st) :
    (st = stOk → ∃ t, execPs4CommitDone s = .next t ∧ t.power.off = true ∧ t.power.resuming = false ∧ t.tku = {} ∧ t.loupe = {} ∧
      t.rtu.flash = s.rtu.flash ∧ ∀ n, n < s.var.pwmPairs → (pairGet t n).hiz = true) ∧
    (st ≠ stOk → st < 2 ^ 16 → s.fbit pgPmu F.PG_ERR0_VALID = false → ∃ t, execPs4CommitDone s = .next t ∧
      t.power = { s.power with resuming := false } ∧
      RegsOnly ((pgPmu, F.PMU_PS4_STAT_STATUS.off) :: captureRegs s pgPmu 0) s t ∧ t.fget pgPmu F.PMU_PS4_STAT_STATUS = st ∧
      t.fget pgPmu F.PG_ERR0_CODE = 0x1100 ∧ t.reg pgPmu F.PG_ERR3.off = BitVec.ofNat 32 (3 + st * 2 ^ 16)) := by
  have hend : execPs4CommitDone s = .next (ps4End s) := by rw [execPs4CommitDone, if_pos hr]
  rw [hend]
  refine ⟨fun hok => ⟨_, rfl, ?_⟩, fun hne hlt hv => ⟨_, rfl, ?_⟩⟩
  · subst hok
    have hpairs := pairsHiz_shape s.var.pwmPairs (ps4Off s)
    have hflash : (ps4Off s).rtu.flash = s.rtu.flash :=
      (coreReset_retains (powerSet (resumeShown s stOk) { s.power with resuming := false })).2.1
    rw [ps4End_ok h]
    refine ⟨?_, ?_, ?_, ?_, ?_, fun n hn => pairsHiz_hiz _ hn⟩
    all_goals rw [hpairs]
    · rfl
    · rfl
    · rfl
    · rfl
    · exact hflash
  · rw [ps4End_fails h hne]
    exact resumeFailed_shows hlt hv

/-- A timer that fires (R572). -/
theorem pmuTimerFire_fires {s : State} {n : Nat} (hn : n < 4) (hr : s.time.running = true) (ho : s.power.off = false)
    (hv : s.reg64 pgPmu (F.PMU_TMR_LO.off + 8 * n) (F.PMU_TMR_HI.off + 8 * n) ≠ 0) :
    ∃ t, execPmuTimerFire n s = .next t ∧ t = { s with regs := t.regs, time := t.time, host := t.host } ∧
      RegsOnly [(pgPmu, F.PMU_TMR_LO.off + 8 * n), (pgPmu, F.PMU_TMR_HI.off + 8 * n), (pgPmu, F.PMU_TMR_STAT_FIRED.off),
        (pgPmu, F.PG_IRQ_STAT_ERR.off)] s t ∧
      t.reg64 pgPmu (F.PMU_TMR_LO.off + 8 * n) (F.PMU_TMR_HI.off + 8 * n) = 0 ∧
      s.reg64 pgPmu (F.PMU_TMR_LO.off + 8 * n) (F.PMU_TMR_HI.off + 8 * n) ≤ t.now ∧
      natBit (t.fget pgPmu F.PMU_TMR_STAT_FIRED) n = true ∧ (t.reg pgPmu F.PG_IRQ_STAT_ERR.off).getLsbD 1 = true := by
  have hfired := timerFired_shape s n
  have hirq := pageIrq_shape (timerFired s n) pgPmu 2
  refine ⟨_, execPmuTimerFire_fires hn hr ho hv, ?_, ?_, ?_, ?_, ?_, pageIrq_bit _ _ (by decide)⟩
  · rw [hirq, hfired]
  · exact ((timerFired_regs hn).mono (by simp)).trans ((RegsOnly.refl _ _).pageIrq (by simp))
  · rw [State.reg64, pageIrq_reg _ _ _ (by simp only; omega), pageIrq_reg _ _ _ (by simp only; omega), if_neg (by simp only; omega),
      if_neg (by simp only; omega)]
    exact timerFired_disarmed hn
  · rw [hirq]; exact timerFired_now hr
  · rw [pageIrq_fget _ _ _ (by decide) (by decide)]; exact timerFired_bit hn

/-- A sample of the temperature (R574). -/
theorem thermalSample_shows {s : State} (t0 t1 t2 t3 : Int) (ho : s.power.off = false) :
    let c := max (max t0 t1) (max t2 t3)
    let shut : Int := s.fget pgPmu F.PMU_THERM_T_SHUT
    ∃ t, execThermalSample t0 t1 t2 t3 s = .next t ∧ t.fget pgPmu F.PMU_TEMP_DEGC = ofSigned 8 (max (-128) (min 127 c)) ∧
      (c < shut → t = { s with regs := t.regs, power := { s.power with hot := s.power.hot && decide (shut - 20 < c) } } ∧
        RegsOnly [(pgPmu, F.PMU_TEMP_DEGC.off)] s t) ∧
      (shut ≤ c → s.power.hot = false → t.power.hot = true ∧ t.fget pgRst F.RST_CAUSE_CAUSE = 5 ∧ t.fget pgChip F.CHIP_BOOT_STAGE = 1) := by
  have hexec := execThermalSample_shows (s := s) t0 t1 t2 t3 ho
  dsimp only at hexec ⊢
  generalize max (max t0 t1) (max t2 t3) = c at *
  generalize hshut : (s.fget pgPmu F.PMU_THERM_T_SHUT : Int) = shut at *
  refine ⟨_, hexec, ?_⟩
  split
  · rename_i hc
    obtain ⟨hle, hhot⟩ := hc
    obtain ⟨hcause, -, hstage⟩ := chipReset_shows (tempShown s c) (cause := 5) (by decide)
    refine ⟨?_, fun h => absurd h (by omega), fun _ _ => ⟨rfl, hcause, hstage⟩⟩
    exact (chipReset_pmu (tempShown s c) 5 (by decide) (by decide)).trans (tempShown_temp s c)
  · rename_i hc
    have hnot : shut ≤ c → s.power.hot = false → False := fun hle hcool => hc ⟨hle, by simp [hcool]⟩
    split
    · rename_i hlow
      refine ⟨tempShown_temp s c, fun _ => ⟨?_, tempShown_regs s c⟩, fun hle hcool => (hnot hle hcool).elim⟩
      simp only [show decide (shut - 20 < c) = false from decide_eq_false (by omega), Bool.and_false]
      rfl
    · rename_i hlow
      refine ⟨tempShown_temp s c, fun _ => ⟨?_, tempShown_regs s c⟩, fun hle hcool => (hnot hle hcool).elim⟩
      simp only [show decide (shut - 20 < c) = true from decide_eq_true (by omega), Bool.and_true]
      rfl

/-- An adjustment of SPEED (R573). -/
theorem speedAdjust_adjusts {s : State} (hr : s.time.running = true) (ho : s.power.off = false) (ha : s.power.adjusted = some s.now)
    (hnow : s.now < 2 ^ 63) :
    ∃ t, execSpeedAdjust s = .next t ∧ t = { s with regs := t.regs, time := t.time, power := t.power, host := t.host } ∧
      t.now = (s.now / 800000 + 1) * 800000 ∧ t.power = { s.power with adjusted := some t.now } ∧ t.fget pgPmu F.PMU_SPEED_SPEED = nextSpeed s := by
  have hshape := speedTo_shape (adjusting s ((s.now / 800000 + 1) * 800000)) (nextSpeed s)
  have hreach := reach_now s (k := (s.now / 800000 + 1) * 800000) (by omega)
  rw [if_pos ⟨hr, by omega⟩] at hreach
  have hadj : (adjusting s ((s.now / 800000 + 1) * 800000)).now = (s.now / 800000 + 1) * 800000 := hreach
  have ht : (speedTo (adjusting s ((s.now / 800000 + 1) * 800000)) (nextSpeed s)).now = (s.now / 800000 + 1) * 800000 := by
    rw [hshape]; exact hadj
  refine ⟨_, execSpeedAdjust_adjusts hr ho ha, ?_, ht, ?_, speedTo_speed _ (nextSpeed_lt s)⟩
  · rw [hshape, adjusting_shape]
  · rw [ht, hshape]; exact adjusting_power s _

/-- A write of PMU_PS4 with its key and an object (R569, R570). -/
theorem pmuPs4_acts {s : State} {data : Word} {codes : List Nat} (hw : Writable s 0 pgPmu) (hk : bitsOf data 16 16 = 0x0FF4)
    (ho : objIdOk (bitsOf data 0 8) = true) (hr : s.power.resuming = false) :
    (blocking s true true &&& 0x1D9 ≠ 0 → s.fbit pgPmu F.PG_ERR0_VALID = false →
      ∃ t, execPmuPs4 0 data codes s = .next t ∧ RegsOnly (captureRegs s pgPmu 0) s t ∧ t.fget pgPmu F.PG_ERR0_CODE = 0x1100 ∧
        t.reg pgPmu F.PG_ERR3.off = 1 ∧ t.power = s.power) ∧
    (∀ st, blocking s true true &&& 0x1D9 = 0 → s.rtu.store = some st → storeState s = stReady → commitCheck s st 0 (resumeOps s data) = stOk →
      commitFits s st (resumeOps s data) codes →
      ∃ t w, execPmuPs4 0 data codes s = .next t ∧ t.power = { s.power with resuming := true } ∧ t.rtu.work = some w ∧ w.job = none ∧
        w.ops = resumeOps s data ∧ w.pool = commitPool s st (resumeOps s data) ∧ t.rtu.cmd = some (.erase (areaAt s ((st.seq + 1) % 2)))) := by
  rw [execPmuPs4_acts data codes hw]
  refine ⟨fun hb hv => ⟨_, rfl, ?_⟩, fun st hb hst hready hc hfits => ⟨_, commitWork s st 0 none (resumeOps s data), rfl, ?_⟩⟩
  · rw [ps4Write_blocked hk ho hr hb]
    obtain ⟨hcode, herr⟩ := ps4Capture_shows 1 hv
    exact ⟨capture_regs s _ _ _ _, hcode, herr, capture_power ..⟩
  · rw [ps4Write_begins hk ho hr hb hst hready hc hfits]
    refine ⟨?_, rfl, rfl, rfl, rfl, rfl⟩
    rw [rtuIssue, rtuSet_power, jobBegun, commitBusy, storeBusy_shape]
    rfl

/-- Settles O58: each clause is a lemma on one command; the chooser's reads pass over what it shows, PS2 and PS3 over the watchdog's wait and the
islands' reset, PS4 over the beginning of the resume commit. -/
theorem powerStates : Obligations.PowerStates := by
  unfold Obligations.PowerStates
  exact ⟨fun s inL1 inD3 ho hx ha =>
      ⟨fun he => chooser_chooses inL1 inD3 ho hx ha he, fun q he hb => execChooserEvaluate_blocked ho hx ha he hb⟩,
    fun s p he hp => psEntryDone_completes he hp,
    fun s hx ho hp => ⟨fun w hw => scheduledExit_begins hx hp hw, fun sources hs he => wake_begins hx ho hp hs he⟩,
    fun s h => psExitDone_completes h,
    fun s data codes hw hk ho hr => pmuPs4_acts hw hk ho hr,
    fun s st hr h => ps4CommitDone_ends hr h,
    fun s n hn hr ho hv => pmuTimerFire_fires hn hr ho hv,
    fun s t0 t1 t2 t3 ho => thermalSample_shows t0 t1 t2 t3 ho,
    fun s hr ho ha hnow => speedAdjust_adjusts hr ho ha hnow⟩

end Sys2Proof.Machine
end

section
/-! SUPPORT. Jobs of the retention store (R545 to R551): a job whose turn it is, a commit, a format, a read and a list. -/

namespace Sys2Proof.Machine

/-! ### A job whose turn it is -/

/-- A retention job that has not begun, whose turn it is and that passes the checks of R545 up to STORE_ABSENT. -/
def RetReady (s : State) (j op : Nat) (x : Job) (writes : Bool) : Prop :=
  startedJob s j op = some x ∧ x.stage = 0 ∧ x.cancel = false ∧ rtuTurn s j x writes = true ∧ retEarly s x = some stOk

theorem retJob_goes_on {s : State} {j op : Nat} {x : Job} {writes : Bool} (k : State → Job → State) (h : RetReady s j op x writes) :
    retJob s j op writes k = k s x := by
  obtain ⟨hj, hstage, hcancel, hturn, hearly⟩ := h
  simp [retJob, hj, hstage, hcancel, hturn, hearly]

/-- A job that has its turn to write finds no other work. -/
theorem rtuTurn_idle {s : State} {j : Nat} {x : Job} (h : rtuTurn s j x true = true) : s.rtu.work = none ∧ s.rtu.cmd = none := by
  unfold rtuTurn at h
  cases hw : s.rtu.work <;> simp_all

/-! ### Too little energy -/

/-- The last commit or format, as RTU_LAST shows it. -/
theorem rtuLast_status (s : State) (part cause : Nat) {status : Nat} (h : status < 2 ^ 16) :
    (rtuLast s part status cause).fget pgRtu F.RTU_LAST_STATUS = status := by
  rw [rtuLast, fget_fset_beside _ _ F.RTU_LAST_PARTITION F.RTU_LAST_STATUS _ rfl (.inl (by decide)),
    fget_fset_beside _ _ F.RTU_LAST_CAUSE F.RTU_LAST_STATUS _ rfl (.inl (by decide)), fget_fset_same _ _ _ _ (by decide)]
  exact Nat.mod_eq_of_lt h

theorem rtuLast_regs (s : State) (part status cause : Nat) : RegsOnly [(pgRtu, F.RTU_LAST_STATUS.off)] s (rtuLast s part status cause) :=
  (((RegsOnly.refl _ s).fset (by decide) (by decide)).fset (by decide) (by decide)).fset (by decide) (by decide)

/-- The device shows a commit or format with too little energy (R547). -/
def shortShown (s : State) (part : Nat) : State := pageIrq (rtuLast (s.fincSat pgRtu F.RTU_COUNT_SHORT 1) part stHoldupShort 0) pgRtu 4

theorem shortShown_shape (s : State) (part : Nat) : shortShown s part = { s with regs := (shortShown s part).regs, host := (shortShown s part).host } := by
  unfold shortShown
  rw [pageIrq_shape]
  rfl

theorem shortShown_status (s : State) (part : Nat) : (shortShown s part).fget pgRtu F.RTU_LAST_STATUS = stHoldupShort := by
  rw [shortShown, pageIrq_fget _ _ _ (by decide) (by decide)]
  exact rtuLast_status _ _ _ (by decide)

theorem shortShown_count (s : State) (part : Nat) :
    (shortShown s part).fget pgRtu F.RTU_COUNT_SHORT = satAdd (s.fget pgRtu F.RTU_COUNT_SHORT) 1 0xFFFF := by
  rw [shortShown, pageIrq_fget _ _ _ (by decide) (by decide), (rtuLast_regs _ _ _ _).fget (by decide) (by decide), fget_fincSat_same _ _ _ _ (by decide)]
  rfl

/-- The job of a commit or format that ends. -/
theorem rtuJobEnd_job {s : State} {j : Nat} {x : Job} (status result : Nat) (h : jobGet s j = some x) (hp : x.phase = .started) :
    rtuJobEnd s (some (j, x.seq)) status result = jobDone s j status result := by
  simp [rtuJobEnd, h, hp]

/-- A check with too little energy ends the job with HOLDUP_SHORT and leaves the store as it was (R547). -/
theorem rtuShort_ends {s : State} {j : Nat} {x : Job} (part r e : Nat) (codes : List Nat) (hj : jobGet s j = some x) (hp : x.phase = .started)
    (hr : s.part.resets.find? x.part = none) :
    let t := rtuShort (checked s r e codes) part (some (j, x.seq))
    Ends t j x stHoldupShort 0 ∧ t.rtu = s.rtu ∧ t.fget pgRtu F.RTU_LAST_STATUS = stHoldupShort ∧
      t.fget pgRtu F.RTU_COUNT_SHORT = satAdd (s.fget pgRtu F.RTU_COUNT_SHORT) 1 0xFFFF := by
  have hshape : shortShown (checked s r e codes) part = { s with
      regs := (shortShown (checked s r e codes) part).regs, host := (shortShown (checked s r e codes) part).host,
      freeCtr := (checked s r e codes).freeCtr } := by
    rw [shortShown_shape, checked_shape]
  have hjob : jobGet (shortShown (checked s r e codes) part) j = some x := by rw [hshape]; exact hj
  have hresets : (shortShown (checked s r e codes) part).part.resets.find? x.part = none := by rw [hshape]; exact hr
  have hend : rtuShort (checked s r e codes) part (some (j, x.seq)) = jobDone (shortShown (checked s r e codes) part) j stHoldupShort 0 :=
    rtuJobEnd_job _ _ hjob hp
  rw [hend]
  refine ⟨jobDone_ends _ _ hjob hresets, ?_, ?_, ?_⟩
  · rw [jobDone_shape, hshape]
  · rw [jobDone_live _ _ hjob hresets, jobSet_fget, shortShown_status]
  · rw [jobDone_live _ _ hjob hresets, jobSet_fget, shortShown_count, (checked_regs s r e codes).fget (by decide) (by decide)]

/-! ### Commits and formats -/

/-- A commit or format of a job that has begun: its first erase is under way, and its job is past the point at which its block can stop it. -/
def Begun (s t : State) (j : Nat) (x : Job) (w : RtuWork) (sec : Nat) : Prop :=
  t = { s with regs := t.regs, freeCtr := t.freeCtr, rtu := { s.rtu with work := some w, cmd := some (.erase (areaAt s sec)) },
               qe := { s.qe with jobs := t.qe.jobs } } ∧
    RegsOnly ((pgRtu, F.RTU_STORE_BUSY.off) :: checkRegs) s t ∧ t.fget pgRtu F.RTU_STORE_BUSY = 1 ∧ jobGet t j = some { x with stage := 2 }

/-- What a commit or format with enough energy leaves. -/
theorem begun_of_busy (s : State) (j : Nat) (x : Job) (w : RtuWork) (sec r e : Nat) (codes : List Nat) :
    Begun s (rtuIssue (jobSet (storeBusy s r e codes) j { x with stage := 2 }) w (.erase (areaAt s sec))) j x w sec := by
  refine ⟨?_, (storeBusy_regs s r e codes).same fun _ _ _ => rfl, storeBusy_shows s r e codes, jobGet_jobSet_same ..⟩
  have hshape := storeBusy_shape s r e codes
  unfold rtuIssue rtuSet jobSet
  rw [hshape]

theorem storeBusy_job (s : State) (r e : Nat) (codes : List Nat) (j : Nat) : jobGet (storeBusy s r e codes) j = jobGet s j := by
  rw [storeBusy_shape]
  rfl

section
variable {s : State} {j : Nat} {x : Job} {st : Store} {codes : List Nat}

/-- A commit of a job that passes the checks of R545 up to STORE_ABSENT. -/
theorem execRtuCommit_checks (hret : RetReady s j 0x40 x true) (hst : s.rtu.store = some st) :
    execRtuCommit j codes s = .next (if commitCheck s st x.part (retOps x) = stOk then commitStart s st x.part (some (j, x.seq)) (retOps x) codes
      else jobDone s j (commitCheck s st x.part (retOps x)) 0) := by
  rw [execRtuCommit, retJob_goes_on _ hret]
  simp only [hst]

theorem execRtuCommit_begins (hret : RetReady s j 0x40 x true) (hst : s.rtu.store = some st)
    (hc : commitCheck s st x.part (retOps x) = stOk) (hfits : commitFits s st (retOps x) codes) :
    ∃ t, execRtuCommit j codes s = .next t ∧ Begun s t j x (commitWork s st x.part (some (j, x.seq)) (retOps x)) ((st.seq + 1) % 2) := by
  have hj := jobGet_of_started hret.1
  refine ⟨_, (execRtuCommit_checks hret hst).trans (by rw [if_pos hc, commitStart_begins _ _ hfits]), ?_⟩
  rw [jobBegun_job x.seq ((storeBusy_job ..).trans hj)]
  exact begun_of_busy ..

theorem execRtuCommit_short (hret : RetReady s j 0x40 x true) (hst : s.rtu.store = some st)
    (hc : commitCheck s st x.part (retOps x) = stOk) (hfits : ¬ commitFits s st (retOps x) codes) :
    execRtuCommit j codes s =
      .next (rtuShort (checked s (retNeed (retOps x) + 1) ((commitDirty s st (retOps x)).length + 1) codes) x.part (some (j, x.seq))) := by
  rw [execRtuCommit_checks hret hst, if_pos hc, commitStart_short _ _ hfits]

/-- The work of a format (R552). -/
abbrev formatWork (j : Nat) (x : Job) (st : Store) : RtuWork :=
  { job := some (j, x.seq), part := 0, format := true, seq := (st.seq + 1) % 2 ^ 64, clear := [0, 1, 2], pool := [2], taken := [2], cursor := 3 }

theorem execRtuFormat_begins (hret : RetReady s j 0x43 x true) (hst : s.rtu.store = some st) (hfits : huReq s 2 3 ≤ huAvail s (leastCode codes)) :
    ∃ t, execRtuFormat j codes s = .next t ∧ Begun s t j x (formatWork j x st) 0 := by
  have harea := areaAt_congr (s := s) (t := jobSet (storeBusy s 2 3 codes) j { x with stage := 2 }) (storeBusy_area s 2 3 codes).1 0
  have hexec : execRtuFormat j codes s = .next (rtuNext (jobSet (storeBusy s 2 3 codes) j { x with stage := 2 }) (formatWork j x st)) := by
    rw [execRtuFormat, retJob_goes_on _ hret]
    simp only [hst, huCheck_eq, hfits, decide_true, not_true, if_false]
    rfl
  rw [hexec, rtuNext_clears rfl, harea]
  exact ⟨_, rfl, begun_of_busy ..⟩

theorem execRtuFormat_short (hret : RetReady s j 0x43 x true) (hfits : ¬ huReq s 2 3 ≤ huAvail s (leastCode codes)) :
    execRtuFormat j codes s = .next (rtuShort (checked s 2 3 codes) 0 (some (j, x.seq))) := by
  rw [execRtuFormat, retJob_goes_on _ hret]
  simp [huCheck_eq, hfits]

/-! ### Reads and lists -/

/-- The host has bytes at the address that the job's entry names. -/
def hostWritten (s : State) (x : Job) (bs : List Byte) : State :=
  { s with host := { s.host with out := .write x.part (payBits x 64 64) bs :: s.host.out } }

/-- The host gets the bytes of an object, and the job ends with its length (R551). -/
theorem execRtuRead_sends {o : StoreObj} {bs : List Byte} (hret : RetReady s j 0x41 x false) (hst : s.rtu.store = some st)
    (hobj : st.objs.find? (payBits x 40 8) = some o) (howner : otherOwner st x.part [payBits x 40 8] = false)
    (hread : readRecords s (payBits x 40 8) o.data 0 (min (payBits x 128 32) o.len) [] = (bs, true)) (hbs : bs ≠ []) (hcrc : crc32 bs = o.crc)
    (hears : HostHears s x.part) :
    execRtuRead j s = .next (jobDone (hostWritten s x bs) j stOk o.len) := by
  rw [execRtuRead, retJob_goes_on _ hret]
  simp only [hst, howner, hobj, hread, hbs, hcrc, hostSend_hears _ hears, not_true, ne_eq, and_false, or_self, if_false, Bool.false_eq_true]
  rfl

/-- The list of an index is not empty where an entry is seen. -/
theorem indexBytes_ne_nil {l : Tab StoreObj} (h : l ≠ []) : indexBytes l ≠ [] := by
  obtain ⟨a, l, rfl⟩ := List.exists_cons_of_ne_nil h
  simp [indexBytes, leBytes]

/-- The entries that a partition sees: all of them P0, and its own another (R545). -/
abbrev seenObjs (st : Store) (part : Nat) : Tab StoreObj := st.objs.filter fun o => part == 0 || o.2.owner == part

/-- The host's bytes of a list. -/
abbrev listBytes (st : Store) (x : Job) : List Byte := (indexBytes (seenObjs st x.part)).take (payBits x 128 32)

/-- The state in which the host has the list. -/
def listed (s : State) (st : Store) (x : Job) : State :=
  if listBytes st x = [] then s else hostSend s x.part (.write x.part (payBits x 64 64) (listBytes st x))

theorem execRtuList_lists (hret : RetReady s j 0x42 x false) (hst : s.rtu.store = some st) :
    execRtuList j s = .next (jobDone (listed s st x) j stOk (seenObjs st x.part).length) := by
  rw [execRtuList, retJob_goes_on _ hret]
  simp only [hst]
  rfl

theorem listed_shape (s : State) (st : Store) (x : Job) : listed s st x = { s with host := (listed s st x).host } := by
  unfold listed
  split
  · rfl
  · rw [hostSend_shape]

theorem listed_hears (hears : HostHears s x.part) (hseen : seenObjs st x.part ≠ []) (hlen : payBits x 128 32 ≠ 0) :
    (listed s st x).host.out = .write x.part (payBits x 64 64) (listBytes st x) :: s.host.out := by
  have hne : listBytes st x ≠ [] := by
    simpa [listBytes, List.take_eq_nil_iff, hlen] using indexBytes_ne_nil hseen
  rw [listed, if_neg hne, hostSend_hears _ hears]

end

/-- A job that ends changes the job table alone where no partition reset holds its partition. -/
theorem jobDone_changes {s : State} {j : Nat} {x : Job} (status result : Nat) (h : jobGet s j = some x) (hr : s.part.resets.find? x.part = none) :
    jobDone s j status result = { s with qe := { s.qe with jobs := (jobDone s j status result).qe.jobs } } := by
  rw [jobDone_live status result h hr]
  rfl

end Sys2Proof.Machine
end

section
/-! SUPPORT. The flash of the retention store (R538, R542, R548, R553): its last record, an erase, recovery, and the statement. -/

namespace Sys2Proof.Machine

/-! ### What the flash holds -/

theorem flashByte_congr {s t : State} (h : t.rtu.flash = s.rtu.flash) (a : Nat) : flashByte t a = flashByte s a := by
  rw [flashByte, flashByte, h]

theorem readRec_congr {s t : State} (h : t.rtu.flash = s.rtu.flash) (sec : Nat) : readRec t sec = readRec s sec := by
  unfold readRec flashBytes flashByte
  rw [h]

theorem slotSeq_congr {s t : State} (h : t.rtu.flash = s.rtu.flash) (ha : t.fget pgRtu F.RTU_AREA_BASE = s.fget pgRtu F.RTU_AREA_BASE)
    (slot : Nat) : slotSeq t slot = slotSeq s slot := by
  rw [slotSeq, slotSeq, areaAt_congr ha, readRec_congr h]

/-- Blank bytes at the end of a sector are not held. -/
theorem blank_trimmed (m n : Nat) : ((((List.replicate n (0xFF : Byte)).take m).reverse.dropWhile fun b => b == 0xFF).reverse : List Byte) = [] := by
  rw [List.take_replicate, List.reverse_replicate, List.dropWhile_replicate]
  rfl

/-- An erase whose bits all came out sets every bit of its sector and touches no other. -/
theorem flashRun_erases (s : State) (sec : Nat) : flashRun s (.erase sec) [] = rtuSet s { s.rtu with flash := s.rtu.flash.set [] sec [] } := by
  simp only [flashRun, flashPut, flipBytes, List.foldl_nil, blank_trimmed]

/-- What a flash command does to the flash depends on nothing else. -/
theorem flashRun_flash (s : State) (c : FlashCmd) (flips : List Nat) (x : RtuSt) (h : x.flash = s.rtu.flash) :
    flashRun (rtuSet s x) c flips = rtuSet s { x with flash := (flashRun s c flips).rtu.flash } := by
  have hsector : ∀ sec, flashSector (rtuSet s x) sec = flashSector s sec := fun sec => by rw [flashSector, flashSector, rtuSet_rtu, h]
  cases c with
  | erase sec => simp only [flashRun, flashPut, rtuSet_rtu, h]; rfl
  | program sec bs => simp only [flashRun, flashPut, rtuSet_rtu, hsector, h]; rfl

theorem flashRun_shape (s : State) (c : FlashCmd) (flips : List Nat) :
    flashRun s c flips = rtuSet s { s.rtu with flash := (flashRun s c flips).rtu.flash } := by
  cases c <;> rfl

/-! ### An erase without a commit -/

/-- A sector of the area that has been erased counts as erased (R542). -/
theorem execFlashOpDone_erased {s : State} {sec : Nat} (codes : List Nat) (hw : s.rtu.work = none) (hc : s.rtu.cmd = some (.erase (areaAt s sec)))
    (hs : storeState s = stReady) (hsec : sec < areaSectors s) :
    execFlashOpDone true [] codes s = .next (rtuSet s { s.rtu with
      cmd := none, flash := s.rtu.flash.set [] (areaAt s sec) [], erased := s.rtu.erased.ins sec () }) := by
  have hat : areaAt s sec - areaAt s 0 = sec := by unfold areaAt; omega
  have hbase : areaAt s 0 ≤ areaAt s sec := by unfold areaAt; omega
  have hrun : flashRun (rtuSet s { s.rtu with cmd := none }) (.erase (areaAt s sec)) [] =
      rtuSet s { s.rtu with cmd := none, flash := s.rtu.flash.set [] (areaAt s sec) [] } := by
    rw [flashRun_erases]; rfl
  have hwork : (rtuSet s { s.rtu with cmd := none, flash := s.rtu.flash.set [] (areaAt s sec) [] }).rtu.work = none := hw
  have hstate : storeState (rtuSet s { s.rtu with cmd := none, flash := s.rtu.flash.set [] (areaAt s sec) [] }) = stReady := hs
  unfold execFlashOpDone
  simp only [hc, hat, hbase, hsec, hrun, List.filter_nil, hwork, hstate, decide_true, Bool.and_self, not_true, ne_eq, or_self, if_false,
    if_true]
  rfl

/-- The bytes of a flash in which a sector has been erased. -/
theorem flashByte_erased {s t : State} {sec : Nat} (h : t.rtu.flash = s.rtu.flash.set [] sec []) (a : Nat) :
    flashByte t a = if a / 4096 = sec then 0xFF else flashByte s a := by
  rw [flashByte, h]
  split
  · rename_i ha
    rw [ha, Tab.get_set_same]
    rfl
  · rename_i ha
    rw [Tab.get_set_ne _ _ _ _ ha, flashByte]

/-! ### The store in the registers -/

theorem showStore_shape (s : State) : showStore s = { s with regs := (showStore s).regs, host := (showStore s).host } := by
  unfold showStore
  split <;> rfl

theorem showStore_regs (s : State) :
    RegsOnly [(pgRtu, F.RTU_SEQ_LO.off), (pgRtu, F.RTU_SEQ_HI.off), (pgRtu, F.RTU_STORE_OBJECTS.off)] s (showStore s) := by
  unfold showStore
  split
  · exact ((RegsOnly.refl _ s).fset (by decide) (by decide)).fset (by decide) (by decide)
  · exact (((RegsOnly.refl _ s).setReg64 (by decide) (by decide) (by decide) (by decide)).fset (by decide) (by decide)).fset (by decide) (by decide)

/-- The fields of RTU_STORE below OBJECTS stay. -/
theorem showStore_state (s : State) {f : Fld} (ho : f.off = F.RTU_STORE_STATE.off) (hf : f.lo + f.wid ≤ 8) :
    (showStore s).fget pgRtu f = s.fget pgRtu f := by
  unfold showStore
  split
  · rw [fget_fset_beside _ _ F.RTU_STORE_BAD f _ ho (.inl (by simp only; omega)),
      fget_fset_beside _ _ F.RTU_STORE_OBJECTS f _ ho (.inl (by simp only; omega))]
  · dsimp only
    rw [fget_fset_beside _ _ F.RTU_STORE_BAD f _ ho (.inl (by simp only; omega)),
      fget_fset_beside _ _ F.RTU_STORE_OBJECTS f _ ho (.inl (by simp only; omega))]
    exact (((RegsOnly.refl [(pgRtu, F.RTU_SEQ_LO.off), (pgRtu, F.RTU_SEQ_HI.off)] s).setReg64 (by decide) (by decide) (by decide) (by decide))).fget
      (by rw [ho]; decide) (by rw [ho]; decide)

/-- SEQ of the store is shown. -/
theorem showStore_seq {s : State} {st : Store} (hst : s.rtu.store = some st) (h : st.seq < 2 ^ 64) :
    (showStore s).reg64 pgRtu F.RTU_SEQ_LO.off F.RTU_SEQ_HI.off = st.seq := by
  unfold showStore
  simp only [hst, State.reg64]
  rw [reg_fset_ne _ _ _ (by decide), reg_fset_ne _ _ _ (by decide), reg_fset_ne _ _ _ (by decide), reg_fset_ne _ _ _ (by decide)]
  exact (reg64_setReg64_same s st.seq (by decide)).trans (Nat.mod_eq_of_lt h)

/-! ### The last record of a commit -/

/-- The store that a commit makes the one in force (R548). -/
abbrev newStore (w : RtuWork) (ix : Nat) (st : Store) : Store := { seq := w.seq, indexAt := ix, cursor := w.cursor, bad := st.bad, objs := w.objs }

/-- The commit has taken effect: it is over, and its store is in force. -/
def inForce (s : State) (st : Store) : State :=
  ((rtuSet s { s.rtu with work := none, store := some st }).fset pgRtu F.RTU_STORE_BUSY 0).fset pgRtu F.RTU_STORE_STATE stReady

/-- The commit that took effect is shown and counted. -/
def doneShown (s : State) (part : Nat) (st : Store) : State :=
  pageIrq ((rtuLast (showStore (inForce s st)) part stOk 0).fincSat pgRtu F.RTU_COUNT_DONE 1) pgRtu 2

theorem rtuDone_commits {s : State} {w : RtuWork} {ix : Nat} {st : Store} (hi : w.indexAt = some ix) (hf : w.format = false)
    (hst : s.rtu.store = some st) : rtuDone s w = rtuJobEnd (doneShown s w.part (newStore w ix st)) w.job stOk (w.seq % 2 ^ 32) := by
  unfold rtuDone
  simp only [hi, hf, hst, Bool.false_eq_true, if_false, Option.map_some, Option.getD_some]
  rfl

theorem rtuLast_shape (s : State) (part status cause : Nat) :
    rtuLast s part status cause = { s with regs := (rtuLast s part status cause).regs, host := (rtuLast s part status cause).host } := rfl

theorem doneShown_shape (s : State) (part : Nat) (st : Store) :
    doneShown s part st = { s with regs := (doneShown s part st).regs, host := (doneShown s part st).host,
                                   rtu := { s.rtu with work := none, store := some st } } :=
  regsHost_trans (regsHost_trans (regsHost_trans (showStore_shape (inForce s st)) (rtuLast_shape ..)) (fset_shape ..)) (pageIrq_shape ..)

/-- What it shows after the store: RTU_LAST, the count and the interrupt. -/
theorem doneShown_regs (s : State) (part : Nat) (st : Store) :
    RegsOnly [(pgRtu, F.RTU_LAST_STATUS.off), (pgRtu, F.RTU_COUNT_DONE.off), (pgRtu, F.PG_IRQ_STAT_ERR.off)] (showStore (inForce s st))
      (doneShown s part st) :=
  ((((rtuLast_regs _ _ _ _).mono (by simp))).fincSat (by decide) (by decide)).pageIrq (by decide)

theorem inForce_busy (s : State) (st : Store) : (inForce s st).fget pgRtu F.RTU_STORE_BUSY = 0 ∧ storeState (inForce s st) = stReady := by
  refine ⟨?_, fget_fset_same _ _ _ _ (by decide)⟩
  rw [inForce, fget_fset_beside _ _ F.RTU_STORE_STATE F.RTU_STORE_BUSY _ rfl (.inr (by decide)), fget_fset_same _ _ _ _ (by decide)]
  rfl

theorem doneShown_state (s : State) (part : Nat) (st : Store) :
    storeState (doneShown s part st) = stReady ∧ (doneShown s part st).fget pgRtu F.RTU_STORE_BUSY = 0 := by
  obtain ⟨hbusy, hstate⟩ := inForce_busy s st
  have hregs := doneShown_regs s part st
  exact ⟨(hregs.fget (by decide) (by decide)).trans ((showStore_state (f := F.RTU_STORE_STATE) _ rfl (by decide)).trans hstate),
    (hregs.fget (by decide) (by decide)).trans ((showStore_state (f := F.RTU_STORE_BUSY) _ rfl (by decide)).trans hbusy)⟩

theorem doneShown_seq (s : State) (part : Nat) {st : Store} (h : st.seq < 2 ^ 64) :
    (doneShown s part st).reg64 pgRtu F.RTU_SEQ_LO.off F.RTU_SEQ_HI.off = st.seq := by
  have hregs := doneShown_regs s part st
  rw [State.reg64, hregs pgRtu F.RTU_SEQ_LO.off (by decide) (by decide), hregs pgRtu F.RTU_SEQ_HI.off (by decide) (by decide)]
  exact showStore_seq (s := inForce s st) rfl h

theorem doneShown_count (s : State) (part : Nat) (st : Store) :
    (doneShown s part st).fget pgRtu F.RTU_COUNT_DONE = satAdd (s.fget pgRtu F.RTU_COUNT_DONE) 1 0xFFFF := by
  have hforce : RegsOnly [(pgRtu, F.RTU_STORE_BUSY.off)] s (inForce s st) :=
    ((RegsOnly.refl _ (rtuSet s _)).fset (by decide) (by decide)).fset (by decide) (by decide)
  rw [doneShown, pageIrq_fget _ _ _ (by decide) (by decide), fget_fincSat_same _ _ _ _ (by decide), (rtuLast_regs _ _ _ _).fget (by decide) (by decide),
    (showStore_regs _).fget (by decide) (by decide), hforce.fget (by decide) (by decide)]
  rfl

/-- The state in which a record has been programmed. -/
def programmed (s : State) (k : Nat) (bs : List Byte) (flips : List Nat) : State :=
  markErased (flashRun (rtuSet s { s.rtu with cmd := none }) (.program k bs) (flips.filter fun b => decide (b < 32768))) (k - areaAt s 0) false

theorem programmed_shape (s : State) (k : Nat) (bs : List Byte) (flips : List Nat) :
    programmed s k bs flips = rtuSet s { s.rtu with
      cmd := none, erased := s.rtu.erased.del (k - areaAt s 0),
      flash := (flashRun s (.program k bs) (flips.filter fun b => decide (b < 32768))).rtu.flash } := by
  unfold programmed
  rw [flashRun_flash s _ _ _ (by rfl)]
  rfl

/-- The last record of a commit that reads back as valid ends the commit (R548). -/
theorem execFlashOpDone_commits {s : State} {w : RtuWork} {k : Nat} {bs : List Byte} {flips codes : List Nat} {ix : Nat} (hw : s.rtu.work = some w)
    (hc : s.rtu.cmd = some (.program k bs)) (ho : w.ops = []) (hi : w.indexAt = some ix)
    (hread : (readRec (flashRun s (.program k bs) (flips.filter fun b => decide (b < 32768))) k).isSome = true) :
    execFlashOpDone true flips codes s = .next (rtuDone (programmed s k bs flips) w) := by
  have hwork : (flashRun (rtuSet s { s.rtu with cmd := none }) (.program k bs) (flips.filter fun b => decide (b < 32768))).rtu.work = some w := hw
  have hrec : (readRec (programmed s k bs flips) k).isSome = true := by
    rw [readRec_congr (s := flashRun s (.program k bs) (flips.filter fun b => decide (b < 32768))) (by rw [programmed_shape]; rfl)]
    exact hread
  rw [programmed] at hrec
  unfold execFlashOpDone
  simp only [hc, hwork, hrec, and_self, if_true, rtuWritten, ho, hi]
  rfl

/-! ### Recovery -/

/-- Recovery takes the store of a slot that no newer one stands beside (R553). -/
def recovered (s : State) (st : Store) : State := (rtuSet s { s.rtu with store := some st, erased := [] }).fset pgRtu F.RTU_STORE_STATE stReady

theorem execRtuRecovery_takes {s : State} {slot : Nat} {st : Store} (hs : storeState s = stRecovering) (hc : s.rtu.cmd = none)
    (hp : recoverPick s = some (slot, st)) (hq : ∀ q, slotSeq s (1 - slot) = some q → q ≤ st.seq) :
    execRtuRecovery s = .next (pageIrq (showStore (recovered s st)) pgRtu 1) := by
  have hslot : slotSeq (rtuSet s { s.rtu with store := some st, erased := [] }) (1 - slot) = slotSeq s (1 - slot) := slotSeq_congr rfl rfl _
  unfold execRtuRecovery
  rw [if_neg (by simp [hs, hc])]
  simp only [hp]
  rw [hslot]
  cases h : slotSeq s (1 - slot) with
  | none => rfl
  | some q =>
    dsimp only
    rw [if_neg (Nat.not_lt.mpr (hq q h))]
    rfl

/-! ### The statement -/

/-- A commit, a format, a read and a list of a job whose turn it is (R545 to R551). -/
theorem retentionJobs_act {s : State} {job op : Nat} {x : Job} {st : Store} (hr : s.part.resets.find? x.part = none)
    (hj : startedJob s job op = some x) (hstage : x.stage = 0) (hcancel : x.cancel = false) (hearly : retEarly s x = some stOk)
    (hst : s.rtu.store = some st) :
    let short := fun (t : State) => Ends t job x stHoldupShort 0 ∧ t.rtu = s.rtu ∧ t.fget pgRtu F.RTU_LAST_STATUS = stHoldupShort ∧
      t.fget pgRtu F.RTU_COUNT_SHORT = satAdd (s.fget pgRtu F.RTU_COUNT_SHORT) 1 0xFFFF
    (op = 0x40 → rtuTurn s job x true = true → ∀ codes,
      (commitCheck s st x.part (retOps x) ≠ stOk → ∃ t, execRtuCommit job codes s = .next t ∧ t = { s with qe := { s.qe with jobs := t.qe.jobs } } ∧
        Ends t job x (commitCheck s st x.part (retOps x)) 0) ∧
      (commitCheck s st x.part (retOps x) = stOk → ∃ t, execRtuCommit job codes s = .next t ∧
        if commitFits s st (retOps x) codes then Begun s t job x (commitWork s st x.part (some (job, x.seq)) (retOps x)) ((st.seq + 1) % 2)
        else short t)) ∧
    (op = 0x43 → rtuTurn s job x true = true → ∀ codes, ∃ t, execRtuFormat job codes s = .next t ∧
      if huReq s 2 3 ≤ huAvail s (leastCode codes) then Begun s t job x (formatWork job x st) 0 else short t) ∧
    (op = 0x41 → rtuTurn s job x false = true → ∀ o bs, st.objs.find? (payBits x 40 8) = some o → otherOwner st x.part [payBits x 40 8] = false →
      readRecords s (payBits x 40 8) o.data 0 (min (payBits x 128 32) o.len) [] = (bs, true) → bs ≠ [] → crc32 bs = o.crc → HostHears s x.part →
      ∃ t, execRtuRead job s = .next t ∧ t = { s with host := t.host, qe := { s.qe with jobs := t.qe.jobs } } ∧ Ends t job x stOk o.len ∧
        t.host.out = .write x.part (payBits x 64 64) bs :: s.host.out) ∧
    (op = 0x42 → rtuTurn s job x false = true → HostHears s x.part →
      ∃ t, execRtuList job s = .next t ∧ t = { s with host := t.host, qe := { s.qe with jobs := t.qe.jobs } } ∧
        Ends t job x stOk (seenObjs st x.part).length ∧
        (seenObjs st x.part ≠ [] → payBits x 128 32 ≠ 0 → t.host.out = .write x.part (payBits x 64 64) (listBytes st x) :: s.host.out)) := by
  have hget := jobGet_of_started hj
  have hphase := (started_fields hj).1
  refine ⟨?_, ?_, ?_, ?_⟩
  · rintro rfl hturn codes
    have hret : RetReady s job 0x40 x true := ⟨hj, hstage, hcancel, hturn, hearly⟩
    refine ⟨fun hc => ?_, fun hc => ?_⟩
    · refine ⟨_, (execRtuCommit_checks hret hst).trans (by rw [if_neg hc]), jobDone_changes _ _ hget hr, jobDone_ends _ _ hget hr⟩
    · split
      · rename_i hfits
        exact execRtuCommit_begins hret hst hc hfits
      · rename_i hfits
        exact ⟨_, execRtuCommit_short hret hst hc hfits, rtuShort_ends x.part _ _ codes hget hphase hr⟩
  · rintro rfl hturn codes
    have hret : RetReady s job 0x43 x true := ⟨hj, hstage, hcancel, hturn, hearly⟩
    split
    · rename_i hfits
      exact execRtuFormat_begins hret hst hfits
    · rename_i hfits
      exact ⟨_, execRtuFormat_short hret hfits, rtuShort_ends 0 _ _ codes hget hphase hr⟩
  · rintro rfl hturn o bs hobj howner hread hbs hcrc hears
    have hret : RetReady s job 0x41 x false := ⟨hj, hstage, hcancel, hturn, hearly⟩
    have hget' : jobGet (hostWritten s x bs) job = some x := hget
    have hr' : (hostWritten s x bs).part.resets.find? x.part = none := hr
    refine ⟨_, execRtuRead_sends hret hst hobj howner hread hbs hcrc hears, ?_, jobDone_ends _ _ hget' hr', ?_⟩
    · rw [jobDone_changes _ _ hget' hr']; rfl
    · rw [jobDone_live _ _ hget' hr']; rfl
  · rintro rfl hturn hears
    have hret : RetReady s job 0x42 x false := ⟨hj, hstage, hcancel, hturn, hearly⟩
    have hshape := listed_shape s st x
    have hget' : jobGet (listed s st x) job = some x := by rw [hshape]; exact hget
    have hr' : (listed s st x).part.resets.find? x.part = none := by rw [hshape]; exact hr
    refine ⟨_, execRtuList_lists hret hst, ?_, jobDone_ends _ _ hget' hr', fun hseen hlen => ?_⟩
    · rw [jobDone_changes _ _ hget' hr', hshape]
    · rw [jobDone_live _ _ hget' hr']
      exact listed_hears hears hseen hlen

/-- The last record of a commit, good on reading back (R548). -/
theorem flashOpDone_commits {s : State} {w : RtuWork} {k : Nat} {bs : List Byte} {flips codes : List Nat} {j ix : Nat} {x : Job} {st : Store}
    (hw : s.rtu.work = some w) (hc : s.rtu.cmd = some (.program k bs)) (ho : w.ops = []) (hi : w.indexAt = some ix) (hf : w.format = false)
    (hst : s.rtu.store = some st) (hjob : w.job = some (j, x.seq)) (hj : jobGet s j = some x) (hp : x.phase = .started)
    (hr : s.part.resets.find? x.part = none)
    (hread : (readRec (flashRun s (.program k bs) (flips.filter fun b => decide (b < 32768))) k).isSome = true) :
    ∃ t, execFlashOpDone true flips codes s = .next t ∧ t.rtu.work = none ∧ t.rtu.cmd = none ∧
      t.rtu.flash = (flashRun s (.program k bs) (flips.filter fun b => decide (b < 32768))).rtu.flash ∧
      t.rtu.store = some (newStore w ix st) ∧ storeState t = stReady ∧ t.fget pgRtu F.RTU_STORE_BUSY = 0 ∧
      (w.seq < 2 ^ 64 → t.reg64 pgRtu F.RTU_SEQ_LO.off F.RTU_SEQ_HI.off = w.seq) ∧
      t.fget pgRtu F.RTU_COUNT_DONE = satAdd (s.fget pgRtu F.RTU_COUNT_DONE) 1 0xFFFF ∧ Ends t j x stOk w.seq := by
  have hprog := programmed_shape s k bs flips
  have hstore : (programmed s k bs flips).rtu.store = some st := by rw [hprog]; exact hst
  obtain ⟨hstate, hbusy⟩ := doneShown_state (programmed s k bs flips) w.part (newStore w ix st)
  have hshape := doneShown_shape (programmed s k bs flips) w.part (newStore w ix st)
  have hcount := doneShown_count (programmed s k bs flips) w.part (newStore w ix st)
  have hseq := fun h => doneShown_seq (programmed s k bs flips) w.part (st := newStore w ix st) h
  generalize hu : doneShown (programmed s k bs flips) w.part (newStore w ix st) = u at *
  have hget : jobGet u j = some x := by rw [hshape, hprog]; exact hj
  have hresets : u.part.resets.find? x.part = none := by rw [hshape, hprog]; exact hr
  have hend : rtuDone (programmed s k bs flips) w = jobDone u j stOk (w.seq % 2 ^ 32) := by
    rw [rtuDone_commits hi hf hstore, hjob, hu]
    exact rtuJobEnd_job _ _ hget hp
  have hrtu : (jobDone u j stOk (w.seq % 2 ^ 32)).rtu = { (programmed s k bs flips).rtu with work := none, store := some (newStore w ix st) } := by
    rw [jobDone_live _ _ hget hresets, jobSet_rtu, hshape]
  refine ⟨_, (execFlashOpDone_commits hw hc ho hi hread).trans (by rw [hend]), ?_, ?_, ?_, ?_, ?_, ?_, ?_, ?_, ?_⟩
  · rw [hrtu]
  · rw [hrtu, hprog]; rfl
  · rw [hrtu, hprog]; rfl
  · rw [hrtu]
  · rw [jobDone_live _ _ hget hresets]; exact hstate
  · rw [jobDone_live _ _ hget hresets]; exact hbusy
  · rw [jobDone_live _ _ hget hresets]; exact hseq
  · rw [jobDone_live _ _ hget hresets, jobSet_fget, hcount, hprog]; rfl
  · have hends := jobDone_ends (x := x) stOk (w.seq % 2 ^ 32) hget hresets
    unfold Ends at hends ⊢
    rw [hends, Nat.mod_mod]

/-- An erase that no commit waits for (R542). -/
theorem flashOpDone_erases {s : State} {sec : Nat} (codes : List Nat) (hw : s.rtu.work = none) (hc : s.rtu.cmd = some (.erase (areaAt s sec)))
    (hs : storeState s = stReady) (hsec : sec < areaSectors s) :
    ∃ t, execFlashOpDone true [] codes s = .next t ∧ t = { s with rtu := t.rtu } ∧ t.rtu.cmd = none ∧ isErased t sec = true ∧
      (∀ k, k < 4096 → flashByte t (4096 * areaAt s sec + k) = 0xFF) ∧ ∀ a, a / 4096 ≠ areaAt s sec → flashByte t a = flashByte s a := by
  have hbyte := flashByte_erased (s := s) (sec := areaAt s sec) (t := rtuSet s { s.rtu with
      cmd := none, flash := s.rtu.flash.set [] (areaAt s sec) [], erased := s.rtu.erased.ins sec () }) rfl
  refine ⟨_, execFlashOpDone_erased codes hw hc hs hsec, rfl, rfl, ?_, fun k hk => ?_, fun a ha => ?_⟩
  · rw [isErased, rtuSet_rtu, Tab.find?_ins_same]; rfl
  · rw [hbyte, if_pos (by omega)]
  · rw [hbyte, if_neg ha]

/-- The measurement (R546). -/
theorem holdupMeasure_shows {s : State} (codes : List Nat) (hw : s.rtu.work = none) (ha : asleep s = false) :
    ∃ t, execHoldupMeasure codes s = .next t ∧ t = { s with regs := t.regs, freeCtr := t.freeCtr } ∧
      RegsOnly measureRegs s t ∧ t.fget pgRtu F.RTU_HU_NOW_CODE = leastCode codes ∧
      (huVolt s (leastCode codes) < 2 ^ 16 → t.fget pgRtu F.RTU_HU_NOW_MV = huVolt s (leastCode codes) ∧ t.freeCtr = s.freeCtr) ∧
      t.reg pgRtu F.RTU_HU_AVAIL.off = BitVec.ofNat 32 (min (huAvail s (leastCode codes)) (2 ^ 32 - 1)) :=
  ⟨_, execHoldupMeasure_measures codes hw ha, measured_shape s codes, measured_regs s codes, measured_code s codes, fun h => measured_volt h,
    reg_setReg_same ..⟩

/-- The first free sector that is not erased is blank, or is erased (R542). -/
theorem backgroundErase_acts {s : State} {k : Nat} (hs : storeState s = stReady) (hw : s.rtu.work = none) (hc : s.rtu.cmd = none)
    (hp : s.fget pgPmu F.PMU_STAT_STATE = 0) (hk : (freeSectors s).find? (fun n => !isErased s n) = some k) :
    ∃ t, execBackgroundErase s = .next t ∧
      t = { s with rtu := if s.rtu.flash.get [] (areaAt s k) = [] then { s.rtu with erased := s.rtu.erased.ins k () }
                          else { s.rtu with cmd := some (.erase (areaAt s k)) } } := by
  refine ⟨_, rfl, ?_⟩
  rw [if_neg (by simp [hs, hw, hc, hp])]
  simp only [hk]
  split <;> rfl

/-- Recovery takes the store of the sound slot, or finds none (R553). -/
theorem rtuRecovery_recovers {s : State} (hs : storeState s = stRecovering) (hc : s.rtu.cmd = none) :
    (recoverPick s = none → ∃ t, execRtuRecovery s = .next t ∧ t = { s with regs := t.regs } ∧ storeState t = stNone) ∧
    (∀ slot st, recoverPick s = some (slot, st) → (∀ q, slotSeq s (1 - slot) = some q → q ≤ st.seq) →
      ∃ t, execRtuRecovery s = .next t ∧ t = { s with regs := t.regs, host := t.host, rtu := { s.rtu with store := some st, erased := [] } } ∧
        storeState t = stReady ∧ (st.seq < 2 ^ 64 → t.reg64 pgRtu F.RTU_SEQ_LO.off F.RTU_SEQ_HI.off = st.seq)) := by
  refine ⟨fun hp => ⟨s.fset pgRtu F.RTU_STORE_STATE stNone, ?_, rfl, fget_fset_same _ _ _ _ (by decide)⟩, fun slot st hp hq => ?_⟩
  · unfold execRtuRecovery
    rw [if_neg (by simp [hs, hc]), hp]
  · refine ⟨_, execRtuRecovery_takes hs hc hp hq, regsHost_trans (showStore_shape (recovered s st)) (pageIrq_shape ..), ?_, fun h => ?_⟩
    · rw [storeState, pageIrq_fget _ _ _ (by decide) (by decide), showStore_state _ rfl (by decide)]
      exact fget_fset_same _ _ _ _ (by decide)
    · rw [State.reg64, pageIrq_reg _ _ _ (by decide), pageIrq_reg _ _ _ (by decide), if_neg (by decide), if_neg (by decide)]
      exact showStore_seq (s := recovered s st) rfl h

/-- Settles O57: the jobs begin by the checks and the first erase, the last record ends a commit, and each other command changes the store or what it
shows as its own lemma says. -/
theorem retentionStore : Obligations.RetentionStore := by
  unfold Obligations.RetentionStore
  refine ⟨fun s job op x hr hj hstage hcancel hearly st hst => ?_,
    fun s w k bs flips codes j x ix st hw hc ho hi hf hst hjob hj hp hr hread => flashOpDone_commits hw hc ho hi hf hst hjob hj hp hr hread,
    fun s sec codes hw hc hs hsec => flashOpDone_erases codes hw hc hs hsec, fun s codes hw ha => holdupMeasure_shows codes hw ha,
    fun s k hs hw hc hp hk => backgroundErase_acts hs hw hc hp hk, fun s hs hc => rtuRecovery_recovers hs hc⟩
  obtain ⟨hcommit, hformat, hread, hlist⟩ := retentionJobs_act hr hj hstage hcancel hearly hst
  exact ⟨hcommit, fun hop hturn _ => hformat hop hturn, hread, hlist⟩

end Sys2Proof.Machine
end

section
/-! SUPPORT. Power-on and the boot stages (R613 to R623). -/

namespace Sys2Proof.Machine

/-! ### The core rails -/

/-- Beside registers only the pairs change. -/
def PwmOnly (s t : State) : Prop := t = { s with regs := t.regs, pwm := t.pwm }

namespace PwmOnly
variable {s t u : State}

theorem refl (s : State) : PwmOnly s s := rfl

theorem trans (h : PwmOnly s t) (g : PwmOnly t u) : PwmOnly s u := by
  refine Eq.trans g ?_
  rw [h]

theorem fset {p v : Nat} {f : Fld} (h : PwmOnly s t) : PwmOnly s (t.fset p f v) := h.trans rfl
theorem pairSet {n : Nat} {x : PwmPair} (h : PwmOnly s t) : PwmOnly s (pairSet t n x) := h.trans rfl
theorem setOutputs {n : Nat} {hi lo : Bool} (h : PwmOnly s t) : PwmOnly s (setOutputs t n hi lo) := h.fset.fset
theorem tripPads {n : Nat} (h : PwmOnly s t) : PwmOnly s (tripPads t n) := h.pairSet.setOutputs
theorem pairIdle {n : Nat} (h : PwmOnly s t) : PwmOnly s (pairIdle t n) := h.pairSet.setOutputs.fset

/-- A pair after the reset of its island. -/
theorem pairAfterReset {n : Nat} (h : PwmOnly s t) : PwmOnly s (pairAfterReset t n) := by
  unfold Machine.pairAfterReset
  dsimp only
  split
  · exact h.fset.pairIdle
  · exact h.fset.fset.tripPads.fset

theorem pairsAfterReset (m : Nat) (s : State) : PwmOnly s (eachIn (List.range m) Machine.pairAfterReset s) :=
  eachIn_rel refl trans (fun t _ _ => (refl t).pairAfterReset) s

end PwmOnly

/-- The islands before their pairs take their state: each register of theirs is at its reset value, and time starts at 0 (R614). -/
def railsUp (s : State) : State := { s with time := { running := true }, regs := s.regs.filter fun k => keptPage (k.1 / 4096) }

theorem railsUp_reset (s : State) {p off : Nat} (ho : off < 4096) (hk : keptPage p = false) :
    (railsUp s).reg p off = s.resetAt (p * 4096 + off) := by
  have hpage : (p * 4096 + off) / 4096 = p := by omega
  simp only [railsUp, State.reg, Tab.get, State.resetAt]
  rw [Tab.find?_filter_dropped _ fun v => by rw [hpage]; exact hk]
  rfl

/-- The device at stage 1 of the boot. -/
def bootBegun (s : State) : State := setStage (eachIn (List.range s.var.pwmPairs) pairAfterReset (railsUp s)) 1

theorem execPlanRefLock_begins {s : State} (hc : s.boot.corePg = true) (hr : s.time.running = false) :
    execPlanRefLock s = .next (bootBegun s) := by
  unfold execPlanRefLock
  rw [if_pos (by simp [hc, hr])]
  rfl

theorem bootBegun_shape (s : State) : bootBegun s = { s with regs := (bootBegun s).regs, time := { running := true }, pwm := (bootBegun s).pwm } := by
  unfold bootBegun setStage State.fset State.setReg
  rw [PwmOnly.pairsAfterReset]
  rfl

/-- Every register of the islands on the core rails, those of the pairs and CHIP apart, is at its reset value (R620). -/
theorem bootBegun_reset (s : State) {p off : Nat} (ho : off < 4096) (hk : keptPage p = false) (hchip : p ≠ pgChip)
    (hpwm : ¬ (pgPwm ≤ p ∧ p < pgPwm + s.var.pwmPairs)) : (bootBegun s).reg p off = s.resetAt (p * 4096 + off) := by
  rw [bootBegun, setStage, reg_fset_ne _ _ _ (by simp only [pgChip] at hchip ⊢; omega), pairsAfterReset_pages _ _ p off ho hpwm]
  exact railsUp_reset s ho hk

/-- The safe stop before a reset changes neither the test port nor the boot. -/
theorem safeStop_bystanders (s : State) :
    (wdtWait (wholeStop s 18)).jtag = s.jtag ∧ (wdtWait (wholeStop s 18)).boot = s.boot := by
  have hnoted : PairsOnly s (stopNoted s 18 0xFF true) := by
    exact .ite (fun _ => (PairsOnly.refl s).fset) fun _ =>
      ((PairsOnly.refl s).fset.trans (.of_regsHost (setReg_shape ..))).trans ((PairsOnly.of_regsHost (setReg_shape ..)).trans (.of_regsHost (setReg_shape ..)))
  have hraised : PairsOnly (stopNoted s 18 0xFF true) (stopRaised (stopNoted s 18 0xFF true) 0xFF true) := by
    unfold stopRaised stopLatched
    exact .ite (fun _ => (PairsOnly.refl _).fset.fset.pageIrq) fun _ => (PairsOnly.refl _).fset.fset
  have hstop : PairsOnly s (wholeStop s 18) := by
    rw [wholeStop, stopRequest_eq]
    exact (hnoted.trans hraised).refreshHolds
  rw [wdtWait_shape, hstop]
  exact ⟨rfl, rfl⟩

theorem pmuReset_shape (s : State) :
    pmuReset s = { s with regs := (pmuReset s).regs, host := (pmuReset s).host, power := (pmuReset s).power, freeCtr := (pmuReset s).freeCtr } := by
  obtain ⟨t, ht⟩ := pmuReset_eq s
  have hcut : pmuCut s = { s with regs := (pmuCut s).regs, host := (pmuCut s).host, freeCtr := (pmuCut s).freeCtr } := by
    unfold pmuCut
    split
    · rw [capture_shape]
      rfl
    · rfl
  rw [ht]
  generalize pmuCut s = u at hcut
  rw [hcut]
  rfl

/-- The reset of the islands changes neither the test port nor, but for the copy in force, the boot, and leaves no request. -/
theorem coreReset_bystanders (s : State) :
    (coreReset s).jtag = s.jtag ∧ (coreReset s).boot = { s.boot with copy := none } ∧ (coreReset s).serve.reqs = [] := by
  rw [coreReset_eq, PwmOnly.pairsAfterReset _ _, pmuReset_shape]
  exact ⟨rfl, rfl, rfl⟩

/-- The device whose core rails have left their range, before RST_KEEP and the cause are cleared. -/
def railsLost (s : State) : State := coreReset { wdtWait (wholeStop s 18) with time := {} }

theorem coreLost_eq {s : State} (h : s.rtu.cmd = none) :
    coreLost s = ((({ railsLost s with
      clnk := { ports := (railsLost s).clnk.ports.mapVal fun _ x => { presN := x.presN, sent := x.sent } }
      power := { (railsLost s).power with adjusted := none }
      tku := { (railsLost s).tku with lastStrobe := none }
      jtag := { (railsLost s).jtag with pageAt := none, pageBytes := [], pageFull := false }
      boot := { pwrEn := (railsLost s).boot.pwrEn, loupeUp := (railsLost s).boot.loupeUp } } : State).setReg pgRst F.RST_KEEP_VALUE.off 0).fset pgRst
        F.RST_CAUSE_CAUSE 0) := by
  have hcut : flashCut { wdtWait (wholeStop s 18) with time := {} } = { wdtWait (wholeStop s 18) with time := {} } := by
    unfold flashCut
    rw [show ({ wdtWait (wholeStop s 18) with time := {} } : State).rtu.cmd = none from (congrArg RtuSt.cmd (safeStop_keeps s).rtu).trans h]
  unfold coreLost
  dsimp only
  rw [hcut]
  rfl

/-- When CORE_PG falls the islands are reset and time stops (R615). -/
theorem corePgFall_resets {s : State} (hc : s.boot.corePg = true) (h : s.rtu.cmd = none) :
    ∃ t, execCorePgFall s = .next t ∧ t.boot = { pwrEn := s.boot.pwrEn, loupeUp := s.boot.loupeUp } ∧
      t.time.running = false ∧ t.qe = {} ∧ t.facet = {} ∧ t.serve.reqs = [] ∧ t.mem = {} ∧ t.rtu = { flash := s.rtu.flash } ∧ t.fuses = s.fuses ∧
      t.fget pgRst F.RST_CAUSE_CAUSE = 0 ∧ t.reg pgRst F.RST_KEEP_VALUE.off = 0 := by
  have hstop := safeStop_keeps s
  have hcore := coreReset_keeps_cleared { wdtWait (wholeStop s 18) with time := {} }
  obtain ⟨-, hboot, hreqs⟩ := coreReset_bystanders { wdtWait (wholeStop s 18) with time := {} }
  obtain ⟨-, hstopBoot⟩ := safeStop_bystanders s
  have hloss : (railsLost s).boot = { s.boot with copy := none } := by
    rw [railsLost, hboot, ← hstopBoot]
  refine ⟨coreLost s, by rw [execCorePgFall, if_pos hc], ?_⟩
  rw [coreLost_eq h]
  refine ⟨?_, congrArg TimeSt.running hcore.time, hcore.qe, hcore.facet, hreqs, hcore.mem, hcore.rtu.trans ?_, hcore.fuses.trans hstop.fuses,
    fget_fset_same _ _ _ _ (by decide), ?_⟩
  · simp only [fset_boot, setReg_boot, hloss]
  · change ({ flash := (wdtWait (wholeStop s 18)).rtu.flash, cmd := (wdtWait (wholeStop s 18)).rtu.cmd } : RtuSt) = _
    rw [hstop.rtu, h]
  · rw [reg_fset_ne _ _ _ (by decide), reg_setReg_same]

/-! ### FILL and DISCOVER -/

/-- The device is at a stage of the boot, has power and is not hot. -/
def BootAt (s : State) (n : Nat) : Prop := bootStage s = n ∧ powered s = true ∧ s.power.hot = false

theorem bootFrom_at {s : State} {n : Nat} (k : State → State) (h : BootAt s n) : bootFrom s n k = k s := by
  obtain ⟨hn, hp, hh⟩ := h
  simp [bootFrom, hn, hp, hh]

/-- The stage is shown. -/
theorem setStage_stage (s : State) {n : Nat} (h : n < 2 ^ 8) : bootStage (setStage s n) = n :=
  (fget_fset_same _ _ _ _ (by decide)).trans (Nat.mod_eq_of_lt h)

theorem setStage_regs (s : State) (n : Nat) : RegsOnly [(pgChip, F.CHIP_BOOT_STAGE.off)] s (setStage s n) := (RegsOnly.refl _ s).fset (by decide) (by decide)

/-- SFDP has been read: the flash size and the erase time are shown (R537). -/
def sfdpShown (s : State) (size erase : Nat) : State :=
  (((s.fset pgRtu F.RTU_INFO_SIZE_LOG2 size).fset pgRtu F.RTU_INFO_SFDP_OK 1).fset pgRtu F.RTU_INFO_PROFILE 1).fset pgRtu F.RTU_INFO_ERASE_MAX erase

theorem sfdpShown_regs (s : State) (size erase : Nat) : RegsOnly [(pgRtu, F.RTU_INFO_SIZE_LOG2.off)] s (sfdpShown s size erase) :=
  ((((RegsOnly.refl _ s).fset (by decide) (by decide)).fset (by decide) (by decide)).fset (by decide) (by decide)).fset (by decide) (by decide)

theorem sfdpShown_info (s : State) {size erase : Nat} (hs : size ≤ 31) (he : erase < 2 ^ 16) :
    (sfdpShown s size erase).fget pgRtu F.RTU_INFO_SIZE_LOG2 = size ∧ (sfdpShown s size erase).fget pgRtu F.RTU_INFO_SFDP_OK = 1 ∧
      (sfdpShown s size erase).fget pgRtu F.RTU_INFO_ERASE_MAX = erase := by
  unfold sfdpShown
  refine ⟨?_, ?_, (fget_fset_same _ _ _ _ (by decide)).trans (Nat.mod_eq_of_lt he)⟩
  · rw [fget_fset_beside _ _ F.RTU_INFO_ERASE_MAX F.RTU_INFO_SIZE_LOG2 _ rfl (.inl (by decide)),
      fget_fset_beside _ _ F.RTU_INFO_PROFILE F.RTU_INFO_SIZE_LOG2 _ rfl (.inl (by decide)),
      fget_fset_beside _ _ F.RTU_INFO_SFDP_OK F.RTU_INFO_SIZE_LOG2 _ rfl (.inl (by decide)), fget_fset_same _ _ _ _ (by decide)]
    exact Nat.mod_eq_of_lt (Nat.lt_succ_of_le hs)
  · rw [fget_fset_beside _ _ F.RTU_INFO_ERASE_MAX F.RTU_INFO_SFDP_OK _ rfl (.inl (by decide)),
      fget_fset_beside _ _ F.RTU_INFO_PROFILE F.RTU_INFO_SFDP_OK _ rfl (.inl (by decide)), fget_fset_same _ _ _ _ (by decide)]
    rfl

/-- A port that starts writes its own page and the CLNK global page. -/
theorem portStart_pages (s : State) (p : Nat) : PagesOnly (linkPages p) s (portStart s p) := by
  have hhalts : PagesOnly (linkPages p) s (haltsAfterReset s p) := by
    unfold haltsAfterReset setHalts
    exact ((((PlaceKept.refl p s).haltNow.pages.mono fun _ => .inl).portMod).fset (.inl rfl) (by decide)).fset (.inr rfl) (by decide)
  exact .ite (fun _ => hhalts) fun _ => hhalts.trans (toDetect_pages _ p)

theorem portsStart_pages (s : State) (m : Nat) : PagesOnly (pgClnk ≤ ·) s (eachIn (List.range m) portStart s) :=
  (PagesOnly.refl _ s).each _ fun t p _ => (portStart_pages t p).mono fun q hq => by
    simp only [linkPages, pgClnk, pgClnkG] at hq ⊢
    omega

/-- The RTU has read SFDP, and the ports start unless a reset of their island is still going on (R620, R632). -/
theorem execDiscover_reads {s : State} {size erase : Nat} (h : BootAt s 2) (hc : s.rtu.cmd = none) (h24 : 24 ≤ size) (h31 : size ≤ 31) :
    execDiscover (some (size, erase)) s = .next (
      let t := sfdpShown (setStage s 3) size erase
      if s.clnk.resetting.isSome then t else eachIn (List.range t.var.clnkPorts) portStart t) := by
  have hread : rtuDiscover (setStage s 3) (some (size, erase)) = sfdpShown (setStage s 3) size erase := if_pos ⟨h24, h31⟩
  rw [execDiscover, bootFrom_at _ h, if_neg (by simp [hc])]
  dsimp only
  rw [hread]
  rfl

theorem discover_shows {s : State} {size erase : Nat} (h : BootAt s 2) (hc : s.rtu.cmd = none) (h24 : 24 ≤ size) (h31 : size ≤ 31)
    (he : erase < 2 ^ 16) :
    ∃ t, execDiscover (some (size, erase)) s = .next t ∧ bootStage t = 3 ∧ t.fget pgRtu F.RTU_INFO_SIZE_LOG2 = size ∧
      t.fget pgRtu F.RTU_INFO_SFDP_OK = 1 ∧ t.fget pgRtu F.RTU_INFO_ERASE_MAX = erase ∧
      (s.clnk.resetting.isSome = true → t = { s with regs := t.regs } ∧
        RegsOnly [(pgChip, F.CHIP_BOOT_STAGE.off), (pgRtu, F.RTU_INFO_SIZE_LOG2.off)] s t) := by
  have hregs := sfdpShown_regs (setStage s 3) size erase
  have hstage : bootStage (sfdpShown (setStage s 3) size erase) = 3 :=
    (hregs.fget (by decide) (by decide)).trans (setStage_stage s (by decide))
  obtain ⟨hsize, hok, herase⟩ := sfdpShown_info (setStage s 3) h31 he
  refine ⟨_, execDiscover_reads h hc h24 h31, ?_⟩
  dsimp only
  split
  · exact ⟨hstage, hsize, hok, herase, fun _ => ⟨rfl, ((setStage_regs s 3).mono (by simp)).trans (hregs.mono (by simp))⟩⟩
  · rename_i hresetting
    have hports := portsStart_pages (sfdpShown (setStage s 3) size erase) (sfdpShown (setStage s 3) size erase).var.clnkPorts
    exact ⟨(hports.fget (by decide) (by decide)).trans hstage, (hports.fget (by decide) (by decide)).trans hsize,
      (hports.fget (by decide) (by decide)).trans hok, (hports.fget (by decide) (by decide)).trans herase, fun hr => absurd hr hresetting⟩

end Sys2Proof.Machine
end

section
/-! SUPPORT. The boot stages from FILL to STORE_DONE (R616 to R623). -/

namespace Sys2Proof.Machine

/-- The zero-fill (R521). -/
theorem fill_zeroes {s : State} (h : BootAt s 1) (hh : s.jtag.hold = false) :
    ∃ t, execFill s = .next t ∧ t = { s with regs := t.regs, facet := { s.facet with tiles := [] } } ∧
      RegsOnly [(pgChip, F.CHIP_BOOT_STAGE.off)] s t ∧ bootStage t = 2 := by
  refine ⟨setStage { s with facet := { s.facet with tiles := [] } } 2, ?_, rfl, ?_, setStage_stage _ (by decide)⟩
  · rw [execFill, bootFrom_at _ h, if_neg (by simp [hh])]
  · exact (setStage_regs { s with facet := { s.facet with tiles := [] } } 2).trans (.refl _ _)

/-! ### IMAGE -/

/-- A little-endian number is smaller than its bytes allow. -/
theorem leNat_lt (l : List Byte) : leNat l < 256 ^ l.length := by
  induction l with
  | nil => simp [leNat]
  | cons b l ih =>
    have hb := b.isLt
    rw [leNat, List.length_cons, pow_succ]
    omega

theorem flashNat_lt (s : State) (a n : Nat) : flashNat s a n < 256 ^ n := by
  simpa [flashNat, flashBytes] using leNat_lt (flashBytes s a n)

/-- The reasons of Table 19.3. -/
theorem copyReason_lt (s : State) (a : Nat) (read : Bool) : copyReason s a read < 2 ^ 8 := by
  unfold copyReason
  split_ifs <;> decide

/-- The place of the store of a copy, in 16 bits each. -/
theorem copyChosen_store {s : State} {ra rb : Nat} {x : BootCopy} (h : copyChosen s ra rb = some x) : x.storeBase < 2 ^ 16 ∧ x.storeSize < 2 ^ 16 := by
  have hplace : ∀ a, (copyAt s a).storeBase < 2 ^ 16 ∧ (copyAt s a).storeSize < 2 ^ 16 := fun a => ⟨flashNat_lt s _ 2, flashNat_lt s _ 2⟩
  unfold copyChosen at h
  dsimp only at h
  split at h
  · split at h <;> exact Option.some.inj h ▸ hplace _
  · split at h
    · exact Option.some.inj h ▸ hplace _
    · cases h

/-- The copy chosen and its reasons are shown. -/
def reasonsShown (s : State) (ra rb : Nat) (c : Option BootCopy) : State :=
  (((setStage { s with boot := { s.boot with copy := c } } 4).fset pgChip F.CHIP_BOOT_FAIL_A ra).fset pgChip F.CHIP_BOOT_FAIL_B rb).fset
    pgChip F.CHIP_BOOT_IMAGE_VERIFIED (b2n c.isSome)

/-- The copy chosen, its reasons and the place of its store are shown. -/
def imageShown (s : State) (ra rb : Nat) (c : Option BootCopy) : State :=
  ((reasonsShown s ra rb c).fset pgRtu F.RTU_AREA_BASE (c.getD {}).storeBase).fset pgRtu F.RTU_AREA_SIZE (c.getD {}).storeSize

theorem reasonsShown_chip (s : State) {ra rb : Nat} (c : Option BootCopy) (ha : ra < 2 ^ 8) (hb : rb < 2 ^ 8) :
    bootStage (reasonsShown s ra rb c) = 4 ∧ (reasonsShown s ra rb c).fget pgChip F.CHIP_BOOT_FAIL_A = ra ∧
      (reasonsShown s ra rb c).fget pgChip F.CHIP_BOOT_FAIL_B = rb ∧
      (reasonsShown s ra rb c).fget pgChip F.CHIP_BOOT_IMAGE_VERIFIED = b2n c.isSome := by
  have hv : ∀ b, b2n b < 2 := by decide
  unfold reasonsShown bootStage
  refine ⟨?_, ?_, ?_, (fget_fset_same _ _ _ _ (by decide)).trans (Nat.mod_eq_of_lt (hv _))⟩
  · rw [fget_fset_beside _ _ F.CHIP_BOOT_IMAGE_VERIFIED F.CHIP_BOOT_STAGE _ rfl (.inl (by decide)),
      fget_fset_beside _ _ F.CHIP_BOOT_FAIL_B F.CHIP_BOOT_STAGE _ rfl (.inl (by decide)),
      fget_fset_beside _ _ F.CHIP_BOOT_FAIL_A F.CHIP_BOOT_STAGE _ rfl (.inl (by decide))]
    exact setStage_stage _ (by decide)
  · rw [fget_fset_beside _ _ F.CHIP_BOOT_IMAGE_VERIFIED F.CHIP_BOOT_FAIL_A _ rfl (.inr (by decide)),
      fget_fset_beside _ _ F.CHIP_BOOT_FAIL_B F.CHIP_BOOT_FAIL_A _ rfl (.inl (by decide)), fget_fset_same _ _ _ _ (by decide)]
    exact Nat.mod_eq_of_lt ha
  · rw [fget_fset_beside _ _ F.CHIP_BOOT_IMAGE_VERIFIED F.CHIP_BOOT_FAIL_B _ rfl (.inr (by decide)), fget_fset_same _ _ _ _ (by decide)]
    exact Nat.mod_eq_of_lt hb

theorem imageShown_chip (s : State) (ra rb : Nat) (c : Option BootCopy) {f : Fld} (h : f.off < 4096) :
    (imageShown s ra rb c).fget pgChip f = (reasonsShown s ra rb c).fget pgChip f := by
  rw [imageShown, fget_fset_ne _ _ _ _ (by simp only [pgChip, pgRtu]; omega), fget_fset_ne _ _ _ _ (by simp only [pgChip, pgRtu]; omega)]

theorem imageShown_area (s : State) (ra rb : Nat) {x : BootCopy} (hb : x.storeBase < 2 ^ 16) (hs : x.storeSize < 2 ^ 16) :
    (imageShown s ra rb (some x)).fget pgRtu F.RTU_AREA_BASE = x.storeBase ∧ (imageShown s ra rb (some x)).fget pgRtu F.RTU_AREA_SIZE = x.storeSize := by
  unfold imageShown
  refine ⟨?_, (fget_fset_same _ _ _ _ (by decide)).trans (Nat.mod_eq_of_lt hs)⟩
  rw [fget_fset_beside _ _ F.RTU_AREA_SIZE F.RTU_AREA_BASE _ rfl (.inl (by decide)), fget_fset_same _ _ _ _ (by decide)]
  exact Nat.mod_eq_of_lt hb

theorem imageShown_regs (s : State) (ra rb : Nat) (c : Option BootCopy) :
    RegsOnly [(pgChip, F.CHIP_BOOT_STAGE.off), (pgRtu, F.RTU_AREA_BASE.off)] s (imageShown s ra rb c) := by
  have hcopy : RegsOnly [(pgChip, F.CHIP_BOOT_STAGE.off), (pgRtu, F.RTU_AREA_BASE.off)] s { s with boot := { s.boot with copy := c } } :=
    fun _ _ _ _ => rfl
  exact (((((hcopy.fset (by decide) (by decide)).fset (by decide) (by decide)).fset (by decide) (by decide)).fset (by decide) (by decide)).fset
    (by decide) (by decide)).fset (by decide) (by decide)

theorem imageShown_shape (s : State) (ra rb : Nat) (c : Option BootCopy) :
    imageShown s ra rb c = { s with regs := (imageShown s ra rb c).regs, boot := { s.boot with copy := c } } := rfl

theorem execImage_shows {s : State} (readA readB : Bool) (h : BootAt s 3) :
    execImage readA readB s = .next (imageShown s (copyReason s 0 readA) (copyReason s 0x10000 readB)
      (copyChosen s (copyReason s 0 readA) (copyReason s 0x10000 readB))) := by
  rw [execImage, bootFrom_at _ h]
  rfl

/-- The copy is chosen and its reasons are shown (R618, R619). -/
theorem image_chooses {s : State} (readA readB : Bool) (h : BootAt s 3) :
    let ra := copyReason s 0 readA
    let rb := copyReason s 0x10000 readB
    let c := copyChosen s ra rb
    ∃ t, execImage readA readB s = .next t ∧ t = { s with regs := t.regs, boot := { s.boot with copy := c } } ∧
      RegsOnly [(pgChip, F.CHIP_BOOT_STAGE.off), (pgRtu, F.RTU_AREA_BASE.off)] s t ∧ bootStage t = 4 ∧ t.fget pgChip F.CHIP_BOOT_FAIL_A = ra ∧
      t.fget pgChip F.CHIP_BOOT_FAIL_B = rb ∧ t.fget pgChip F.CHIP_BOOT_IMAGE_VERIFIED = b2n c.isSome ∧
      (∀ x, c = some x → t.fget pgRtu F.RTU_AREA_BASE = x.storeBase ∧ t.fget pgRtu F.RTU_AREA_SIZE = x.storeSize) := by
  dsimp only
  generalize hc : copyChosen s (copyReason s 0 readA) (copyReason s 0x10000 readB) = c
  obtain ⟨hstage, hfa, hfb, hver⟩ := reasonsShown_chip s c (copyReason_lt s 0 readA) (copyReason_lt s 0x10000 readB)
  refine ⟨_, execImage_shows readA readB h, ?_⟩
  rw [hc]
  refine ⟨imageShown_shape .., imageShown_regs s _ _ c, (imageShown_chip s _ _ c (by decide)).trans hstage,
    (imageShown_chip s _ _ c (by decide)).trans hfa, (imageShown_chip s _ _ c (by decide)).trans hfb,
    (imageShown_chip s _ _ c (by decide)).trans hver, fun x hx => ?_⟩
  subst hx
  obtain ⟨hbase, hsize⟩ := copyChosen_store hc
  exact imageShown_area s _ _ hbase hsize

/-! ### PRELOAD -/

/-- Each record of the copy in force is written as P0 writes it (R617). -/
theorem execPreload_applies {s : State} (h : BootAt s 4) :
    execPreload s = .next (eachIn ((s.boot.copy.getD {}).preloads) (fun s r => writeNow s 0 r.1 r.2.1 r.2.2) (setStage s 5)) := by
  rw [execPreload, bootFrom_at _ h]

theorem classOf_rtu (v : Variant) : classOf v pgRtu = some .rtu := by cases v <;> rfl

/-- The row of RTU_PART_EN (Table 16.10). -/
theorem rowAt_partEn : rowAt .rtu pgRtu 0x05C = some ⟨0x05C, 1, 4, 0x1, [⟨0, 16, .rwl, 0, 65535⟩]⟩ := rfl

/-- A write of RTU_PART_EN on an RTU page that is unlocked and not busy. -/
theorem writeNow_partEn {s : State} (part : Nat) (w : Word) (hb : pageBusy s pgRtu = false) (hl : s.fbit pgRtu F.PG_LOCK_LOCK = false) :
    writeNow s part pgRtu F.RTU_PART_EN_EN.off w = s.fset pgRtu F.RTU_PART_EN_EN (bitsOf w 0 16) := by
  have hfit : bitsOf w 0 16 ≤ 65535 := Nat.le_of_lt_succ (bitsOf_lt w 0 16)
  have hrow : rowWrite32 false ⟨0x05C, 1, 4, 0x1, [⟨0, 16, .rwl, 0, 65535⟩]⟩ w (s.reg pgRtu 0x05C) =
      putBits (s.reg pgRtu 0x05C) 0 16 (bitsOf w 0 16) := by
    simp [rowWrite32, fieldWrite, hfit]
  unfold writeNow blockWrite plainWrite
  simp only [classOf_rtu, hb, Bool.false_eq_true, false_and, if_false, rowAt_partEn, hl, hrow]
  rfl

/-- The preload records are applied (R617, R633): without one nothing but the stage changes, and one of RTU_PART_EN sets it. -/
theorem preload_applies {s : State} (h : BootAt s 4) :
    ((s.boot.copy.getD {}).preloads = [] → ∃ t, execPreload s = .next t ∧ t = { s with regs := t.regs } ∧
      RegsOnly [(pgChip, F.CHIP_BOOT_STAGE.off)] s t ∧ bootStage t = 5) ∧
    (∀ w : Word, (s.boot.copy.getD {}).preloads = [(pgRtu, F.RTU_PART_EN_EN.off, w)] → pageBusy s pgRtu = false → s.fbit pgRtu F.PG_LOCK_LOCK = false →
      ∃ t, execPreload s = .next t ∧ t = { s with regs := t.regs } ∧ RegsOnly [(pgChip, F.CHIP_BOOT_STAGE.off), (pgRtu, F.RTU_PART_EN_EN.off)] s t ∧
        bootStage t = 5 ∧ t.fget pgRtu F.RTU_PART_EN_EN = w.toNat % 2 ^ 16) := by
  refine ⟨fun hp => ⟨setStage s 5, ?_, rfl, setStage_regs s 5, setStage_stage s (by decide)⟩, fun w hp hb hl =>
    ⟨(setStage s 5).fset pgRtu F.RTU_PART_EN_EN (bitsOf w 0 16), ?_, rfl, ?_, ?_, ?_⟩⟩
  · rw [execPreload_applies h, hp]
    rfl
  · have hshown := setStage_regs s 5
    have hb' : pageBusy (setStage s 5) pgRtu = false := by
      rw [← hb]
      unfold pageBusy State.fbit
      rw [hshown.fget (by decide) (by decide)]
      rfl
    have hl' : (setStage s 5).fbit pgRtu F.PG_LOCK_LOCK = false := by
      rw [← hl, State.fbit, hshown.fget (by decide) (by decide)]
      rfl
    rw [execPreload_applies h, hp]
    exact congrArg Host.Outcome.next (writeNow_partEn 0 w hb' hl')
  · exact ((setStage_regs s 5).mono (by simp)).fset (by decide) (by decide)
  · exact (fget_fset_ne _ _ _ _ (by decide)).trans (setStage_stage s (by decide))
  · rw [fget_fset_same _ _ _ _ (by decide)]
    simp [bitsOf]

/-! ### HOST_READY and STORE_DONE -/

/-- The host is let in at stage 6. -/
def hostLetIn (s : State) : State := { setStage s 6 with host := { s.host with crs := false } }

theorem hostLetIn_regs (s : State) : RegsOnly [(pgChip, F.CHIP_BOOT_STAGE.off)] s (hostLetIn s) := fun p o ho hn => (setStage_regs s 6) p o ho hn

theorem rtuBegin_eq (s : State) :
    rtuBegin s = if storeState s = stFlashFault then s else s.fset pgRtu F.RTU_STORE_STATE (if areaOk s then stRecovering else stNone) := rfl

theorem areaOk_congr {s t : State} (h : ∀ f : Fld, f.off < 4096 → t.fget pgRtu f = s.fget pgRtu f) : areaOk t = areaOk s := by
  unfold areaOk State.fbit
  rw [h F.RTU_AREA_BASE (by decide), h F.RTU_AREA_SIZE (by decide), h F.RTU_INFO_SFDP_OK (by decide), h F.RTU_INFO_SIZE_LOG2 (by decide)]

/-- HOST_READY lets the host in and begins the recovery of the store where there is one (R553, R622). -/
theorem hostReady_begins {s : State} (h : BootAt s 5) :
    ∃ t, execHostReady s = .next t ∧ t = { s with regs := t.regs, host := { s.host with crs := false } } ∧
      RegsOnly [(pgChip, F.CHIP_BOOT_STAGE.off), (pgRtu, F.RTU_STORE_STATE.off)] s t ∧ bootStage t = 6 ∧
      storeState t = if storeState s = stFlashFault then stFlashFault else if areaOk s then stRecovering else stNone := by
  have hregs := hostLetIn_regs s
  have hstore : storeState (hostLetIn s) = storeState s := hregs.fget (by decide) (by decide)
  have harea : areaOk (hostLetIn s) = areaOk s := areaOk_congr fun f hf => hregs.fget hf (by simp)
  have hstage : bootStage (hostLetIn s) = 6 := setStage_stage s (by decide)
  have hexec : execHostReady s = .next (rtuBegin (hostLetIn s)) := by
    rw [execHostReady, bootFrom_at _ h]
    rfl
  refine ⟨_, hexec, ?_⟩
  rw [rtuBegin_eq, hstore, harea]
  split
  · rename_i hf
    exact ⟨rfl, hregs.mono (by simp), hstage, hstore.trans hf⟩
  · refine ⟨rfl, (hregs.mono (by simp)).fset (by decide) (by decide), (fget_fset_ne _ _ _ _ (by decide)).trans hstage, ?_⟩
    rw [storeState, fget_fset_same _ _ _ _ (by decide)]
    split <;> rfl

/-- The resume object is where the store and the copy in force name it. -/
theorem resumeKeep_setStage (s : State) (n : Nat) : resumeKeep (setStage s n) = resumeKeep s := by
  have hregs := setStage_regs s n
  have hstate : storeState (setStage s n) = storeState s := hregs.fget (by decide) (by decide)
  have hread : ∀ obj l k left acc, readRecords (setStage s n) obj l k left acc = readRecords s obj l k left acc := by
    intro obj l
    induction l with
    | nil => exact fun _ _ _ => rfl
    | cons sec rest ih =>
      intro k left acc
      have harea : areaAt (setStage s n) sec = areaAt s sec := areaAt_congr (hregs.fget (by decide) (by decide)) sec
      unfold readRecords
      rw [harea, readRec_congr (s := s) (t := setStage s n) rfl]
      simp only [ih]
  unfold resumeKeep
  simp only [hstate, hread]
  rfl

/-- The state of a power-on with a resume object: the cause, and RST_KEEP unless P0 wrote it before (R623). -/
def keepRestored (s : State) (keep : Word) : State :=
  let t := (setStage s 7).fset pgRst F.RST_CAUSE_CAUSE 1
  if s.boot.keepWritten then t else t.setReg pgRst F.RST_KEEP_VALUE.off keep

theorem execStoreDone_goes_on {s : State} (h : BootAt s 6) (hs : storeState s ≠ stRecovering) :
    execStoreDone s = .next (if ¬ s.boot.powerOn then setStage s 7 else match resumeKeep s with
      | none => setStage s 7
      | some keep => keepRestored s keep) := by
  rw [execStoreDone, bootFrom_at _ h, if_neg hs]
  dsimp only
  rw [resumeKeep_setStage]
  rfl

/-- STORE_DONE ends the boot and restores RST_KEEP of a resumed device (R623). -/
theorem storeDone_ends {s : State} (h : BootAt s 6) (hs : storeState s ≠ stRecovering) :
    ∃ t, execStoreDone s = .next t ∧ t = { s with regs := t.regs } ∧
      RegsOnly [(pgChip, F.CHIP_BOOT_STAGE.off), (pgRst, F.RST_CAUSE_CAUSE.off), (pgRst, F.RST_KEEP_VALUE.off)] s t ∧ bootStage t = 7 ∧
      (s.boot.powerOn = false → RegsOnly [(pgChip, F.CHIP_BOOT_STAGE.off)] s t) ∧
      (∀ keep, s.boot.powerOn = true → resumeKeep s = some keep → s.boot.keepWritten = false →
        t.fget pgRst F.RST_CAUSE_CAUSE = 1 ∧ t.reg pgRst F.RST_KEEP_VALUE.off = keep) := by
  have hregs := setStage_regs s 7
  have hstage := setStage_stage s (n := 7) (by decide)
  refine ⟨_, execStoreDone_goes_on h hs, ?_⟩
  split
  · rename_i hoff
    exact ⟨rfl, hregs.mono (by simp), hstage, fun _ => hregs, fun _ hon => absurd hon hoff⟩
  · rename_i hon
    have hnot : s.boot.powerOn = false → False := fun hoff => hon (by simp [hoff])
    split
    · rename_i hnone
      exact ⟨rfl, hregs.mono (by simp), hstage, fun hoff => (hnot hoff).elim, fun _ _ hsome => by rw [hnone] at hsome; cases hsome⟩
    · rename_i keep hkeep
      have hcause : RegsOnly [(pgChip, F.CHIP_BOOT_STAGE.off), (pgRst, F.RST_CAUSE_CAUSE.off), (pgRst, F.RST_KEEP_VALUE.off)] s
          ((setStage s 7).fset pgRst F.RST_CAUSE_CAUSE 1) := (hregs.mono (by simp)).fset (by decide) (by decide)
      have hstage' : bootStage ((setStage s 7).fset pgRst F.RST_CAUSE_CAUSE 1) = 7 := (fget_fset_ne _ _ _ _ (by decide)).trans hstage
      unfold keepRestored
      dsimp only
      split
      · rename_i hw
        exact ⟨rfl, hcause, hstage', fun hoff => (hnot hoff).elim, fun _ _ _ hw' => by rw [hw] at hw'; cases hw'⟩
      · refine ⟨rfl, hcause.setReg (by decide) (by decide), ?_, fun hoff => (hnot hoff).elim, fun k _ hsome _ => ?_⟩
        · exact (fget_setReg_ne _ _ _ (by decide)).trans hstage'
        · rw [hkeep] at hsome
          cases hsome
          exact ⟨(fget_setReg_ne _ _ _ (by decide)).trans (fget_fset_same _ _ _ _ (by decide)), reg_setReg_same ..⟩

end Sys2Proof.Machine
end

section
/-! SUPPORT. The test port (R652 to R655, R659): boundary scan, reset, fuses and the debug access port; and the statement on bring-up. -/

namespace Sys2Proof.Machine

/-! ### Boundary scan -/

/-- The input cell of a ball takes its level. -/
def ballSet (x : BitVec 309) (l : Nat × Bool) : BitVec 309 :=
  let m : BitVec 309 := BitVec.ofNat 309 (2 ^ (3 * l.1 + 2))
  if l.2 then x ||| m else x &&& ~~~ m

theorem scanSample_eq (s : State) :
    scanSample s = ((ballLevels s).foldl ballSet (Config.scanCells s.freeCtr), { s with freeCtr := s.freeCtr + 1 }) := rfl

/-- A cell shows the level of its ball, and the input cell of another ball stays. -/
theorem ballSet_bit (x : BitVec 309) (l : Nat × Bool) {b : Nat} (h : b < 102) :
    (ballSet x l).getLsbD (3 * b + 2) = if l.1 = b then l.2 else x.getLsbD (3 * b + 2) := by
  have hmask : (BitVec.ofNat 309 (2 ^ (3 * l.1 + 2))).getLsbD (3 * b + 2) = decide (l.1 = b) := by
    rw [BitVec.getLsbD_ofNat, Nat.testBit_two_pow]
    simp only [show 3 * b + 2 < 309 by omega, decide_true, Bool.true_and, decide_eq_decide]
    omega
  unfold ballSet
  by_cases hb : l.1 = b <;> cases hl : l.2 <;> simp_all [show 3 * b + 2 < 309 by omega]

/-- Levels of other balls leave a cell. -/
theorem foldl_ballSet_ne (ls : List (Nat × Bool)) (x : BitVec 309) {b : Nat} (h : b < 102) (hls : ∀ l ∈ ls, l.1 ≠ b) :
    (ls.foldl ballSet x).getLsbD (3 * b + 2) = x.getLsbD (3 * b + 2) := by
  induction ls generalizing x with
  | nil => rfl
  | cons l ls ih =>
    rw [List.foldl_cons, ih _ fun k hk => hls k (List.mem_cons_of_mem _ hk), ballSet_bit x l h, if_neg (hls l (List.mem_cons_self ..))]

/-- The sampled cells of PWR_EN and CORE_PG. -/
theorem scanSample_power (s : State) :
    (scanSample s).1.getLsbD (3 * ballPwrEn + 2) = s.boot.pwrEn ∧ (scanSample s).1.getLsbD (3 * ballCorePg + 2) = s.boot.corePg := by
  have hports : ∀ b, b < ballPresN → ∀ l ∈ (List.range s.var.clnkPorts).map fun p => (ballPresN + p, (portGet s p).presN), l.1 ≠ b := by
    intro b hb l hl
    obtain ⟨p, -, rfl⟩ := List.mem_map.mp hl
    dsimp only
    omega
  rw [scanSample_eq, ballLevels, List.foldl_append]
  dsimp only
  rw [foldl_ballSet_ne _ _ (by decide) (hports ballPwrEn (by decide)), foldl_ballSet_ne _ _ (by decide) (hports ballCorePg (by decide))]
  simp only [List.foldl_cons, List.foldl_nil]
  refine ⟨?_, (ballSet_bit _ _ (by decide)).trans rfl⟩
  exact (ballSet_bit _ _ (by decide)).trans ((ballSet_bit _ _ (by decide)).trans rfl)

/-- An instruction that selects the boundary-scan register (R653). -/
theorem scanLoad_samples (s : State) {ir : Nat} (data : BitVec 309) (h : (ir == 0x10 || ir == 0x11) = false) :
    ∃ t, t = scanLoad s ir data ∧ t = { s with jtag := t.jtag, freeCtr := s.freeCtr + 1 } ∧
      t.jtag = { s.jtag with ir := ir, captured := t.jtag.captured, hold := false, cells := data } ∧
      natBit t.jtag.captured (3 * ballPwrEn + 2) = s.boot.pwrEn ∧ natBit t.jtag.captured (3 * ballCorePg + 2) = s.boot.corePg := by
  have hpower := scanSample_power s
  have hload : scanLoad s ir data = { s with
      freeCtr := s.freeCtr + 1, jtag := { s.jtag with ir := ir, captured := (scanSample s).1.toNat, hold := false, cells := data } } := by
    simp only [scanLoad, jtagIr, h, Bool.and_false]
    rfl
  refine ⟨_, rfl, ?_⟩
  rw [hload]
  exact ⟨rfl, rfl, hpower⟩

/-! ### Reset and fuses -/

/-- What a chip reset through the test port leaves and shows. -/
theorem chipReset_leaves (s : State) (cause : Nat) :
    (chipReset s cause).jtag = s.jtag ∧ (chipReset s cause).fuses = s.fuses ∧ (chipReset s cause).rtu.flash = s.rtu.flash ∧
      (chipReset s cause).qe = {} ∧ (chipReset s cause).host.crs = true := by
  obtain ⟨hstopJtag, -⟩ := safeStop_bystanders s
  have hstop := safeStop_keeps s
  obtain ⟨hjtag, -, -⟩ := coreReset_bystanders (wdtWait (wholeStop s 18))
  have hcore := coreReset_keeps_cleared (wdtWait (wholeStop s 18))
  obtain ⟨hfuses, hflash, -⟩ := coreReset_retains (wdtWait (wholeStop s 18))
  rw [chipReset_eq]
  refine ⟨hjtag.trans hstopJtag, hfuses.trans hstop.fuses, hflash.trans ?_, hcore.qe, hcore.crs⟩
  rw [hstop.rtu]

/-- JTAG_CHIP_RESET (R652, R659). -/
theorem jtagChipReset_resets {s : State} (hp : powered s = true) :
    ∃ t, execJtagChipReset s = .next t ∧ t.jtag = (jtagIr s 0x12 0).jtag ∧ t.fuses = s.fuses ∧ t.rtu.flash = s.rtu.flash ∧ t.qe = {} ∧
      t.host.crs = true ∧ bootStage t = 1 ∧ t.fget pgRst F.RST_CAUSE_CAUSE = 6 ∧ t.reg pgRst F.RST_KEEP_VALUE.off = s.reg pgRst F.RST_KEEP_VALUE.off ∧
      t.fget pgRst F.RST_COUNT_COUNT = satAdd (s.fget pgRst F.RST_COUNT_COUNT) 1 0xFFFF := by
  have hp' : powered (jtagIr s 0x12 0) = true := hp
  obtain ⟨hjtag, hfuses, hflash, hqe, hcrs⟩ := chipReset_leaves (jtagIr s 0x12 0) 6
  obtain ⟨hcause, hcount, hstage⟩ := chipReset_shows (jtagIr s 0x12 0) (cause := 6) (by decide)
  exact ⟨chipReset (jtagIr s 0x12 0) 6, by simp only [execJtagChipReset, hp', if_true], hjtag, hfuses, hflash, hqe, hcrs, hstage, hcause,
    chipReset_keep _ _, hcount⟩

/-- FUSE_PROG programs the root hash where none is set (R655). -/
theorem fuseProg_once (s : State) (hash : BitVec 256) :
    (s.fuses.rootHash = 0 → s.boot.corePg = true → ∃ t, execFuseProg hash true none s = .next t ∧
      t = { s with jtag := (jtagIr s 0x13 0).jtag, fuses := { s.fuses with rootHash := hash } }) ∧
    (s.fuses.rootHash ≠ 0 → execFuseProg hash true none s = .next (jtagIr s 0x13 s.fuses.rootHash.toNat)) := by
  refine ⟨fun h0 hc => ⟨_, rfl, ?_⟩, fun h0 => ?_⟩
  · have hfuse : (jtagIr s 0x13 s.fuses.rootHash.toNat).fuses.rootHash = 0 := h0
    have hcore : (jtagIr s 0x13 s.fuses.rootHash.toNat).boot.corePg = true := hc
    rw [if_neg (by simp [hfuse, hcore])]
    simp only [h0, Option.getD_none, BitVec.and_allOnes]
    rfl
  · exact congrArg Host.Outcome.next (if_pos (.inl h0))

/-! ### The debug access port -/

/-- The state of an operation in Update-DR: the register before it has been captured. -/
def dapTaken (s : State) : State := { s with jtag := { s.jtag with captured := dapCapture s } }

/-- Whatever it has captured, nothing else changes. -/
theorem dapTaken_eq (s : State) : ∃ c, dapTaken s = { s with jtag := { s.jtag with captured := c } } := ⟨_, rfl⟩

@[simp] theorem dapTaken_host (s : State) : (dapTaken s).host = s.host := by obtain ⟨c, h⟩ := dapTaken_eq s; rw [h]
@[simp] theorem dapTaken_rtu (s : State) : (dapTaken s).rtu = s.rtu := by obtain ⟨c, h⟩ := dapTaken_eq s; rw [h]
@[simp] theorem dapTaken_pageAt (s : State) : (dapTaken s).jtag.pageAt = s.jtag.pageAt := by obtain ⟨c, h⟩ := dapTaken_eq s; rw [h]
@[simp] theorem dapTaken_pageBytes (s : State) : (dapTaken s).jtag.pageBytes = s.jtag.pageBytes := by obtain ⟨c, h⟩ := dapTaken_eq s; rw [h]

theorem dapOp_accepted {s : State} (k : State → State) (h : s.jtag.ir = 0x10) : dapOp s true k = k (dapTaken s) := by
  unfold dapOp
  rw [if_neg (not_not.mpr h)]
  rfl

theorem execRegRead_reads {s : State} {addr : Nat} (hir : s.jtag.ir = 0x10) (hok : dapRegOk s addr = true) :
    execRegRead addr s = .next (dapRead (regRead (dapTaken s) 0 (addr / 4096) (addr % 4096)).2
      ((regRead (dapTaken s) 0 (addr / 4096) (addr % 4096)).1.setWidth 64)) := by
  rw [execRegRead, hok, dapOp_accepted _ hir]

theorem execRegWrite_writes {s : State} {addr : Nat} (data : Word) (hir : s.jtag.ir = 0x10) (hok : dapRegOk s addr = true) :
    execRegWrite addr data s = .next (dapEnd (regWrite (dapTaken s) 0 (addr / 4096) (addr % 4096) data) false) := by
  rw [execRegWrite, hok, dapOp_accepted _ hir]

/-- Register accesses are those of P0 (R654). -/
theorem dapReg_acts {s : State} {addr : Nat} (hir : s.jtag.ir = 0x10) (hc : s.host.crs = false) (ha : addr % 4 = 0) :
    (∃ t, execRegRead addr s = .next t ∧ t = { (regRead (dapTaken s) 0 (addr / 4096) (addr % 4096)).2 with jtag := t.jtag } ∧
      t.jtag.dapError = false ∧ t.jtag.dapData = (regRead (dapTaken s) 0 (addr / 4096) (addr % 4096)).1.setWidth 64) ∧
    (∀ data, ∃ t v, execRegWrite addr data s = .next t ∧ execRegisterWrite 0 (addr / 4096) (addr % 4096) 0xF data (dapTaken s) = .next v ∧
      t = { v with jtag := { v.jtag with dapError := false } }) := by
  have hok : dapRegOk s addr = true := by simp [dapRegOk, hc, ha]
  have hcrs : (dapTaken s).host.crs = false := by rw [dapTaken_host, hc]
  refine ⟨⟨_, execRegRead_reads hir hok, ?_, rfl, rfl⟩, fun data => ⟨_, _, execRegWrite_writes data hir hok,
    execRegisterWrite_word 0 (addr / 4096) data hcrs (by omega) (by omega), ?_⟩⟩
  · generalize regRead (dapTaken s) 0 (addr / 4096) (addr % 4096) = r
    rfl
  · generalize regWrite (dapTaken s) 0 (addr / 4096) (addr % 4096) data = v
    rfl

theorem dapFlashOk_held {s : State} (hh : held s = true) (hp : s.boot.corePg = true) (hc : s.rtu.cmd = none) : dapFlashOk s = true := by
  simp [dapFlashOk, hh, hp, hc]

/-- Byte `k` of a doubleword of the page buffer. -/
abbrev dapByte (data : BitVec 64) (k : Nat) : Byte := BitVec.ofNat 8 (data.toNat / 2 ^ (8 * k))

/-- Where in its page a FLASH_WRITE places its 8 bytes. -/
abbrev dapPlaceAt (addr : Nat) : Nat := addr % 256 / 8 * 8

/-- The page buffer with 8 bytes placed in it. -/
theorem dapPlace_bytes (s : State) (addr : Nat) (data : BitVec 64) (k : Nat) :
    (dapPlace s addr data).jtag.pageBytes.get 0xFF k =
      if dapPlaceAt addr ≤ k ∧ k < dapPlaceAt addr + 8 then dapByte data (k - dapPlaceAt addr) else s.jtag.pageBytes.get 0xFF k := by
  have hget := Tab.get_foldl_set (fun i => dapByte data (i - dapPlaceAt addr)) 0xFF ((List.range 8).map (dapPlaceAt addr + ·)) s.jtag.pageBytes k
  have hmem : k ∈ (List.range 8).map (dapPlaceAt addr + ·) ↔ dapPlaceAt addr ≤ k ∧ k < dapPlaceAt addr + 8 := by
    simp only [List.mem_map, List.mem_range]
    exact ⟨fun ⟨j, hj, e⟩ => by omega, fun h => ⟨k - dapPlaceAt addr, by omega, by omega⟩⟩
  rw [List.foldl_map] at hget
  simp only [Nat.add_sub_cancel_left, hmem] at hget
  exact hget

/-- What placing bytes leaves. -/
theorem dapPlace_taken (s : State) (addr : Nat) (data : BitVec 64) :
    dapPlace (dapTaken s) addr data = { s with jtag := (dapPlace (dapTaken s) addr data).jtag } ∧
      (dapPlace (dapTaken s) addr data).jtag.pageAt = some (addr / 256) ∧
      (dapPlace (dapTaken s) addr data).jtag.pageFull = (addr % 256 / 8 == 31) := by
  obtain ⟨c, hcap⟩ := dapTaken_eq s
  rw [hcap]
  exact ⟨rfl, rfl, rfl⟩

/-- The bytes that a page's program names: those before the page keep, and those of the buffer (R654). -/
abbrev pageProgram (s : State) (page : Nat) : List Byte :=
  List.replicate (256 * (page % 16)) 0xFF ++ (List.range 256).map fun k => s.jtag.pageBytes.get 0xFF k

theorem dapProgram_none {s : State} (h : s.jtag.pageAt = none) : dapProgram s = s := by
  unfold dapProgram
  rw [h]

theorem dapProgram_page {s : State} {page : Nat} (h : s.jtag.pageAt = some page) :
    dapProgram s = rtuSet { s with jtag := { s.jtag with pageAt := none, pageBytes := [], pageFull := false } }
      { s.rtu with cmd := some (.program (page / 16) (pageProgram s page)) } := by
  unfold dapProgram
  rw [h]

theorem pageProgram_length (s : State) (page : Nat) : (pageProgram s page).length = 256 * (page % 16) + 256 := by
  rw [List.length_append, List.length_replicate, List.length_map, List.length_range]

/-- Byte `k` of a page's program lies behind the pages before it. -/
theorem pageProgram_byte (s : State) (page : Nat) {k : Nat} (h : k < 256) :
    (pageProgram s page)[256 * (page % 16) + k]? = some (s.jtag.pageBytes.get 0xFF k) := by
  rw [List.getElem?_append_right (by simp), List.length_replicate, Nat.add_sub_cancel_left, List.getElem?_map, List.getElem?_range h]
  rfl

/-- A FLASH_WRITE into the page of the buffer, or into an empty buffer. -/
theorem execFlashWrite_places {s t : State} {addr : Nat} {data : BitVec 64} (hir : s.jtag.ir = 0x10) (hok : dapFlashOk s = true)
    (hp : s.jtag.pageAt = none ∨ s.jtag.pageAt = some (addr / 256)) (ht : dapPlace (dapTaken s) addr data = t) :
    execFlashWrite addr data s = .next (dapEnd (if t.jtag.pageFull ∧ t.rtu.cmd.isNone then dapProgram t else t) false) := by
  have hsame : (if (dapTaken s).jtag.pageAt = some (addr / 256) then dapTaken s else dapProgram (dapTaken s)) = dapTaken s := by
    obtain h | h := hp
    · rw [dapProgram_none (s := dapTaken s) ((dapTaken_pageAt s).trans h), ite_self]
    · exact if_pos ((dapTaken_pageAt s).trans h)
  rw [execFlashWrite, hok, dapOp_accepted _ hir, hsame]
  dsimp only
  rw [ht]

theorem execFlashRead_reads {s : State} (addr : Nat) (hir : s.jtag.ir = 0x10) (hok : dapFlashOk s = true) :
    execFlashRead addr s = .next (dapRead (dapTaken s) (BitVec.ofNat 64 (leNat (flashBytes s addr 8)))) := by
  have hbytes : flashBytes (dapTaken s) addr 8 = flashBytes s addr 8 := by simp only [flashBytes, flashByte, dapTaken_rtu]
  rw [execFlashRead, hok, dapOp_accepted _ hir, hbytes]

theorem execFlashErase_erases {s : State} (addr : Nat) (hir : s.jtag.ir = 0x10) (hok : dapFlashOk s = true) :
    execFlashErase addr s = .next (dapEnd (rtuSet (dapTaken s) { s.rtu with cmd := some (.erase (addr / 4096)) }) false) := by
  rw [execFlashErase, hok, dapOp_accepted _ hir, dapTaken_rtu]

section
variable {s : State} {addr : Nat} (data : BitVec 64) (hir : s.jtag.ir = 0x10) (hok : dapFlashOk s = true)
  (hpage : s.jtag.pageAt = none ∨ s.jtag.pageAt = some (addr / 256))
include hir hok hpage

/-- 8 bytes before the last of a page stay in the buffer. -/
theorem execFlashWrite_buffers (h31 : addr % 256 / 8 ≠ 31) :
    ∃ t, execFlashWrite addr data s = .next t ∧ t = { s with jtag := t.jtag } ∧ t.jtag.pageAt = some (addr / 256) ∧
      t.jtag.dapError = false ∧ (∀ k, k < 8 → t.jtag.pageBytes.get 0xFF (dapPlaceAt addr + k) = dapByte data k) ∧
      ∀ k, k < dapPlaceAt addr ∨ dapPlaceAt addr + 8 ≤ k → t.jtag.pageBytes.get 0xFF k = s.jtag.pageBytes.get 0xFF k := by
  obtain ⟨t, ht⟩ : ∃ t, dapPlace (dapTaken s) addr data = t := ⟨_, rfl⟩
  have hexec := execFlashWrite_places hir hok hpage ht
  have hget := dapPlace_bytes (dapTaken s) addr data
  obtain ⟨hshape, hat, hfull⟩ := dapPlace_taken s addr data
  rw [dapTaken_pageBytes, ht] at hget
  rw [ht] at hshape hat hfull
  rw [if_neg (by simp [hfull, h31])] at hexec
  refine ⟨_, hexec, ?_, hat, rfl, fun k hk => ?_, fun k hk => ?_⟩
  · rw [hshape]; rfl
  · exact (hget _).trans (by rw [if_pos (by omega), Nat.add_sub_cancel_left])
  · exact (hget k).trans (if_neg (by omega))

/-- The last 8 bytes of a page start its program. -/
theorem execFlashWrite_programs (hc : s.rtu.cmd = none) (h31 : addr % 256 / 8 = 31) :
    ∃ t bs, execFlashWrite addr data s = .next t ∧ t = { s with jtag := t.jtag, rtu := { s.rtu with cmd := t.rtu.cmd } } ∧
      t.jtag.pageAt = none ∧ t.jtag.dapError = false ∧ t.rtu.cmd = some (.program (addr / 4096) bs) ∧
      bs.length = 256 * (addr / 256 % 16) + 256 ∧ (∀ k, k < 8 → bs[256 * (addr / 256 % 16) + 248 + k]? = some (dapByte data k)) ∧
      ∀ k, k < 248 → bs[256 * (addr / 256 % 16) + k]? = some (s.jtag.pageBytes.get 0xFF k) := by
  obtain ⟨t, ht⟩ : ∃ t, dapPlace (dapTaken s) addr data = t := ⟨_, rfl⟩
  have hexec := execFlashWrite_places hir hok hpage ht
  have hget := dapPlace_bytes (dapTaken s) addr data
  have h248 : dapPlaceAt addr = 248 := by simp only [dapPlaceAt, h31]
  have hsector : addr / 256 / 16 = addr / 4096 := Nat.div_div_eq_div_mul ..
  obtain ⟨hshape, hat, hfull⟩ := dapPlace_taken s addr data
  rw [dapTaken_pageBytes, h248, ht] at hget
  rw [ht] at hshape hat hfull
  have hcmd : t.rtu.cmd = none := by rw [hshape, hc]
  rw [if_pos (by simp [hfull, h31, hcmd]), dapProgram_page hat, hsector] at hexec
  refine ⟨_, pageProgram t (addr / 256), hexec, ?_, rfl, rfl, rfl, pageProgram_length t _, fun k hk => ?_, fun k hk => ?_⟩
  · rw [hshape]; rfl
  · rw [Nat.add_assoc, pageProgram_byte t _ (by omega), hget, if_pos (by omega), Nat.add_sub_cancel_left]
  · rw [pageProgram_byte t _ (by omega), hget, if_neg (by omega)]

end

/-- The flash operations under HOLD_RESET that take no data (R654). -/
theorem dapFlash_acts {s : State} {addr : Nat} (hir : s.jtag.ir = 0x10) (hok : dapFlashOk s = true) :
    (∃ t, execFlashRead addr s = .next t ∧
      t = { s with jtag := { (dapTaken s).jtag with dapError := false, dapData := BitVec.ofNat 64 (leNat (flashBytes s addr 8)) } }) ∧
    (∃ t, execFlashErase addr s = .next t ∧
      t = { s with jtag := { (dapTaken s).jtag with dapError := false }, rtu := { s.rtu with cmd := some (.erase (addr / 4096)) } }) := by
  refine ⟨⟨_, execFlashRead_reads addr hir hok, ?_⟩, ⟨_, execFlashErase_erases addr hir hok, ?_⟩⟩ <;>
  · obtain ⟨c, hcap⟩ := dapTaken_eq s
    rw [hcap]
    rfl

/-! ### The statement -/

/-- Settles O60: the power sequence and each boot stage by their own lemmas, the test port's instructions as `jtagIr` loads them, and the debug access port's operations
as P0's register accesses and the page buffer. -/
theorem bringUpAndTestPort : Obligations.BringUpAndTestPort := by
  unfold Obligations.BringUpAndTestPort
  refine ⟨fun s => ⟨fun hl ho => ⟨_, if_pos (by simp [hl, ho]) |> congrArg Host.Outcome.next, rfl⟩, fun hp => ⟨_, congrArg Host.Outcome.next (if_pos hp), rfl⟩,
      fun hc hr => ⟨_, execPlanRefLock_begins hc hr, bootBegun_shape s, setStage_stage _ (by decide), ?_, fun p off ho hk hchip hpwm => ?_⟩,
      fun hc h => corePgFall_resets hc h⟩,
    fun s => ⟨fun h hh => fill_zeroes h hh, fun size erase h hc h24 h31 he => discover_shows h hc h24 h31 he, fun readA readB h => image_chooses readA readB h,
      fun h => preload_applies h, fun h => hostReady_begins h, fun h hs => storeDone_ends h hs⟩,
    fun s => ⟨fun c i hi => ?_, fun i hi => ?_, ⟨_, rfl, rfl⟩, fun hp => jtagChipReset_resets hp, fun hash => fuseProg_once s hash⟩,
    fun s addr hir => ⟨fun hc ha => dapReg_acts hir hc ha, fun hh hp hc => ?_⟩⟩
  · rw [bootBegun_shape]; rfl
  · rw [bootBegun_reset s ho hk hchip hpwm, bootBegun_shape]; rfl
  · simp only [List.mem_cons, List.not_mem_nil, or_false] at hi
    obtain rfl | rfl := hi
    · obtain ⟨t, rfl, h⟩ := scanLoad_samples s c (ir := 0x00) rfl
      exact ⟨_, rfl, h⟩
    · obtain ⟨t, rfl, h⟩ := scanLoad_samples s c (ir := 0x02) rfl
      exact ⟨_, rfl, h⟩
  · simp only [List.mem_cons, List.not_mem_nil, or_false] at hi
    obtain rfl | rfl | rfl | rfl | rfl | rfl := hi <;> rfl
  · have hok := dapFlashOk_held hh hp hc
    obtain ⟨hread, herase⟩ := dapFlash_acts (addr := addr) hir hok
    exact ⟨hread, herase, fun data hpage => ⟨execFlashWrite_buffers data hir hok hpage, execFlashWrite_programs data hir hok hpage hc⟩⟩

end Sys2Proof.Machine
end

section
/-! SUPPORT. Words of an ECC memory (R507 to R513), and what reads, writes and scrubs of device memory leave. -/

namespace Sys2Proof.Machine

/-! ### Words -/

/-- The bytes of a number, read as a number. -/
theorem leNat_bytes (n x : Nat) : leNat ((List.range n).map fun k => BitVec.ofNat 8 (x / 256 ^ k)) = x % 256 ^ n := by
  induction n generalizing x with
  | zero => simp [leNat, Nat.mod_one]
  | succ n ih =>
    have htail : (List.range n).map ((fun k => BitVec.ofNat 8 (x / 256 ^ k)) ∘ Nat.succ) =
        (List.range n).map fun k => BitVec.ofNat 8 (x / 256 / 256 ^ k) :=
      List.map_congr_left fun k _ => by rw [Function.comp, Nat.succ_eq_add_one, Nat.pow_succ', Nat.div_div_eq_div_mul]
    rw [List.range_succ_eq_map, List.map_cons, List.map_map, htail, leNat, ih, Nat.pow_succ', Nat.mod_mul]
    simp

namespace Mem

/-- The bytes of a word that is stored, and those of other words. -/
theorem putRaw_byte (m : Mem) (w : Nat) (d : DWord) (c : Byte) (a : Nat) :
    Tab.get (m.putRaw w d c).bytes 0 a = if a / 8 = w then BitVec.ofNat 8 (d.toNat / 256 ^ (a - 8 * w)) else Tab.get m.bytes 0 a := by
  have hget := Tab.get_foldl_set (fun i => BitVec.ofNat 8 (d.toNat / 256 ^ (i - 8 * w))) 0 ((List.range 8).map (8 * w + ·)) m.bytes a
  have hmem : a ∈ (List.range 8).map (8 * w + ·) ↔ a / 8 = w := by
    simp only [List.mem_map, List.mem_range]
    exact ⟨fun ⟨j, hj, e⟩ => by omega, fun h => ⟨a - 8 * w, by omega, by omega⟩⟩
  rw [List.foldl_map] at hget
  simp only [Nat.add_sub_cancel_left, hmem] at hget
  exact hget

/-- A word reads back what is stored. -/
@[simp] theorem raw_putRaw_same (m : Mem) (w : Nat) (d : DWord) (c : Byte) : (m.putRaw w d c).raw w = (d, c) := by
  have hbytes : ((List.range 8).map fun k => Tab.get (m.putRaw w d c).bytes 0 (8 * w + k)) = (List.range 8).map fun k => BitVec.ofNat 8 (d.toNat / 256 ^ k) :=
    List.map_congr_left fun k hk => by
      have := List.mem_range.mp hk
      rw [putRaw_byte, if_pos (by omega), Nat.add_sub_cancel_left]
  have hd : d.toNat % 256 ^ 8 = d.toNat := Nat.mod_eq_of_lt d.isLt
  rw [raw, hbytes, leNat_bytes, hd, BitVec.ofNat_toNat, BitVec.setWidth_eq]
  exact congrArg (Prod.mk d) (Tab.get_set_same ..)

theorem raw_putRaw_ne (m : Mem) {w v : Nat} (d : DWord) (c : Byte) (h : v ≠ w) : (m.putRaw w d c).raw v = m.raw v := by
  have hbytes : ((List.range 8).map fun k => Tab.get (m.putRaw w d c).bytes 0 (8 * v + k)) = (List.range 8).map fun k => Tab.get m.bytes 0 (8 * v + k) :=
    List.map_congr_left fun k hk => by
      have := List.mem_range.mp hk
      rw [putRaw_byte, if_neg (by omega)]
  rw [raw, hbytes, raw]
  exact congrArg (Prod.mk _) (Tab.get_set_ne _ _ _ _ h)

theorem raw_put_same (m : Mem) (w : Nat) (d : DWord) (p : Bool) : (m.put w d p).raw w = (d, if p then eccCheck d ^^^ 0xFF else eccCheck d) :=
  raw_putRaw_same ..

theorem raw_put_ne (m : Mem) {w v : Nat} (d : DWord) (p : Bool) (h : v ≠ w) : (m.put w d p).raw v = m.raw v := raw_putRaw_ne _ _ _ h

/-- A data bit of a word inverted. -/
theorem raw_upset_data (m : Mem) (w : Nat) {b : Nat} (h : b < 64) : (m.upset w b).raw w = (flipBit (m.raw w).1 b, (m.raw w).2) := by
  unfold upset
  dsimp only
  rw [if_pos h, raw_putRaw_same]

theorem raw_upset_ne (m : Mem) {w v : Nat} (b : Nat) (h : v ≠ w) : (m.upset w b).raw v = m.raw v := by
  unfold upset
  dsimp only
  split <;> exact raw_putRaw_ne _ _ _ h

theorem cls_congr {m n : Mem} {w : Nat} (h : m.raw w = n.raw w) : m.cls w = n.cls w := by rw [cls, cls, h]

end Mem

/-- A word has no error that is not marked (R511, R517). -/
def Sound (c : EccClass) : Prop := c = .clean ∨ c = .poison

/-- A word stored by the model is clean or marked. -/
theorem Mem.put_sound (m : Mem) (w : Nat) (d : DWord) (p : Bool) : Sound ((m.put w d p).cls w) := by
  rw [cls, raw_put_same, eccClass]
  cases p with
  | false => exact .inl (by simp [syndromeClass])
  | true =>
    have hmark : eccCheck d ^^^ 0xFF ^^^ eccCheck d = 0xFF := by rw [BitVec.xor_assoc, BitVec.xor_comm, BitVec.xor_assoc, BitVec.xor_self, BitVec.xor_zero]
    exact .inr (by simp only [if_true, hmark]; rfl)

/-! ### What an access to device memory leaves -/

/-- An access to device memory changes registers, what the host is told, the words and the repair queues; no channel leaves service or comes back. -/
structure DramOnly (s t : State) : Prop where
  shape : t = { s with regs := t.regs, host := t.host, mem := { s.mem with dram := t.mem.dram, repair := t.mem.repair } }
  service : ∀ p, t.fget p F.PG_STAT_OUT_OF_SERVICE = s.fget p F.PG_STAT_OUT_OF_SERVICE
  bme : t.host.bme = s.host.bme

/-- An interrupt leaves every Bus Master Enable. -/
theorem pageIrq_bme (s : State) (p bits : Nat) : (pageIrq s p bits).host.bme = s.host.bme := by
  unfold pageIrq
  dsimp only
  split
  · exact hostSend_bme ..
  · rfl

theorem logAppend_bme (s : State) (part page code detail stamp : Nat) : (logAppend s part page code detail stamp).host.bme = s.host.bme := by
  rw [logAppend_eq, pageIrq_bme, logNoted, logCount]
  split <;> simp only [fset_host, fincSat_host, logEntry, setReg64_host, setReg_host]

theorem capture_bme (s : State) (p code part detail : Nat) : (capture s p code part detail).host.bme = s.host.bme := by
  rw [capture_eq_logAppend, logAppend_bme, captureOnPage]
  split
  · rw [fset_host]
  · rw [pageIrq_bme, setReg_host, setReg64_host, setReg_host]

namespace DramOnly
variable {s t u : State}

theorem refl (s : State) : DramOnly s s := ⟨rfl, fun _ => rfl, rfl⟩

theorem trans (h : DramOnly s t) (g : DramOnly t u) : DramOnly s u := by
  refine ⟨g.shape.trans ?_, fun p => (g.service p).trans (h.service p), g.bme.trans h.bme⟩
  rw [h.shape]

/-- Registers and the host side, with every OUT_OF_SERVICE as it was. -/
theorem regsHost (h : DramOnly s t) (g : u = { t with regs := u.regs, host := u.host })
    (hs : ∀ p, u.fget p F.PG_STAT_OUT_OF_SERVICE = t.fget p F.PG_STAT_OUT_OF_SERVICE) (hb : u.host.bme = t.host.bme) : DramOnly s u := by
  refine h.trans ⟨?_, hs, hb⟩
  rw [g]

/-- Words and repair queues. -/
theorem words {d : Mem} {r : Tab (List Nat)} (h : DramOnly s t) : DramOnly s (memSet t { t.mem with dram := d, repair := r }) :=
  h.trans ⟨rfl, fun _ => rfl, rfl⟩

theorem setReg {p o : Nat} {w : Word} (h : DramOnly s t) (ho : o < 4096) (hs : o ≠ F.PG_STAT_OUT_OF_SERVICE.off) : DramOnly s (t.setReg p o w) :=
  h.regsHost (setReg_shape ..) (fun q => by rw [State.fget, reg_setReg _ _ ho (by decide), if_neg fun e => hs e.2.symm, State.fget]) rfl

theorem fset {p v : Nat} {f : Fld} (h : DramOnly s t) (ho : f.off < 4096) (hs : f.off ≠ F.PG_STAT_OUT_OF_SERVICE.off) : DramOnly s (t.fset p f v) :=
  h.setReg ho hs

theorem fincSat {p d : Nat} {f : Fld} (h : DramOnly s t) (ho : f.off < 4096) (hs : f.off ≠ F.PG_STAT_OUT_OF_SERVICE.off) :
    DramOnly s (t.fincSat p f d) := h.fset ho hs

theorem setReg64 {p lo hi v : Nat} (h : DramOnly s t) (hlo : lo < 4096) (hhi : hi < 4096) (hs : lo ≠ F.PG_STAT_OUT_OF_SERVICE.off)
    (hs' : hi ≠ F.PG_STAT_OUT_OF_SERVICE.off) : DramOnly s (t.setReg64 p lo hi v) := (h.setReg hlo hs).setReg hhi hs'

theorem pageIrq {p bits : Nat} (h : DramOnly s t) : DramOnly s (pageIrq t p bits) :=
  h.regsHost (pageIrq_shape ..) (fun _ => pageIrq_fget _ _ _ (by decide) (by decide)) (pageIrq_bme ..)

theorem capture {p code part detail : Nat} (h : DramOnly s t) : DramOnly s (capture t p code part detail) := by
  refine h.regsHost (capture_shape ..) (fun q => (capture_regs t p code part detail).fget (by decide) ?_) (capture_bme ..)
  simp only [captureRegs, List.mem_cons, Prod.mk.injEq, List.not_mem_nil, or_false, not_or, not_and]
  exact ⟨fun _ => by decide, fun _ => by decide, fun _ => by decide, fun _ => by decide, fun _ => by decide, fun _ => by omega, fun _ => by omega,
    fun _ => by omega, fun _ => by omega, fun _ => by decide, fun _ => by decide⟩

theorem ite {c : Prop} [Decidable c] (a : DramOnly s t) (b : DramOnly s u) : DramOnly s (if c then t else u) := by
  split
  · exact a
  · exact b

theorem each {α : Type} {l : List α} {f : State → α → State} (h : DramOnly s t) (hf : ∀ t a, DramOnly t (f t a)) : DramOnly s (eachIn l f t) :=
  h.trans (eachIn_rel refl trans (fun t a _ => hf t a) t)

theorem chanCe {ch addr : Nat} (h : DramOnly s t) : DramOnly s (chanCe t ch addr) := by
  have hcount := (h.fincSat (p := memPage ch) (d := 1) (f := F.MEMC_CE_CE) (by decide) (by decide)).setReg64 (p := memPage ch)
    (lo := F.MEMC_LAST_CE_LO.off) (hi := F.MEMC_LAST_CE_HI.off) (v := addr) (by decide) (by decide) (by decide) (by decide)
  exact .ite hcount.pageIrq hcount

theorem chanUe {ch addr part : Nat} (h : DramOnly s t) : DramOnly s (chanUe t ch addr part) := (h.fincSat (by decide) (by decide)).capture.pageIrq

theorem countPoison {ch : Nat} (h : DramOnly s t) : DramOnly s (countPoison t ch) := h.fincSat (by decide) (by decide)

/-- No channel leaves service or comes back. -/
theorem chanGone (h : DramOnly s t) (ch : Nat) : chanGone t ch = chanGone s ch := by
  have htrained : t.mem.trained = s.mem.trained := by rw [h.shape]
  unfold Machine.chanGone State.fbit
  rw [h.service, htrained]

/-- An address stays where it is. -/
theorem memPlace (h : DramOnly s t) (a : Nat) : memPlace t a = memPlace s a := by
  have htrained : t.mem.trained = s.mem.trained := by rw [h.shape]
  unfold Machine.memPlace memChannels
  rw [htrained]

theorem qe (h : DramOnly s t) : t.qe = s.qe := by rw [h.shape]
theorem part (h : DramOnly s t) : t.part = s.part := by rw [h.shape]

theorem hears (h : DramOnly s t) {fn : Nat} (hs : HostHears s fn) : HostHears t fn := ⟨by rw [h.qe]; exact hs.1, by rw [h.bme]; exact hs.2⟩

theorem job (h : DramOnly s t) (j : Nat) : jobGet t j = jobGet s j := by rw [jobGet, h.qe, jobGet]

end DramOnly

/-! ### Scrubs -/

/-- The channel of a word is out of use. -/
abbrev wordGone (s : State) (w : Nat) : Bool := chanGone s (memPlace s (8 * w)).1

theorem chanCe_mem (s : State) (ch addr : Nat) : (chanCe s ch addr).mem = s.mem := by
  unfold chanCe
  dsimp only
  split
  · rw [pageIrq_shape]
    rfl
  · rfl

theorem chanUe_mem (s : State) (ch addr part : Nat) : (chanUe s ch addr part).mem = s.mem := by
  unfold chanUe
  rw [pageIrq_shape, capture_shape]
  rfl

/-- What a scrub finds: 0 CLEAN, 1 CE, 2 POISON or UE. -/
def scrubFound (s : State) (w : Nat) : Nat :=
  if wordGone s w then 2
  else match s.mem.dram.cls w with
    | .clean => 0
    | .ceData _ | .ceCheck => 1
    | .poison | .ue => 2

theorem dramScrub_found (s : State) (w part : Nat) : (dramScrub s w part).1 = scrubFound s w := by
  unfold dramScrub scrubFound wordGone
  dsimp only
  split
  · rfl
  · split <;> simp_all

theorem DramOnly.scrubFound {s t : State} (h : DramOnly s t) {w : Nat} (hw : t.mem.dram.raw w = s.mem.dram.raw w) :
    scrubFound t w = scrubFound s w := by
  unfold Machine.scrubFound wordGone
  rw [h.memPlace, h.chanGone, Mem.cls_congr hw]

theorem dramScrub_only (s : State) (w part : Nat) : DramOnly s (dramScrub s w part).2 := by
  unfold dramScrub
  dsimp only
  split
  · exact (DramOnly.refl s).countPoison
  · split
    · exact .refl s
    · exact (DramOnly.refl s).chanCe.words
    · exact (DramOnly.refl s).chanCe.words
    · exact .refl s
    · exact (DramOnly.refl s).chanUe.words

/-- A scrub leaves every other word. -/
theorem dramScrub_ne (s : State) (part : Nat) {w v : Nat} (h : v ≠ w) : (dramScrub s w part).2.mem.dram.raw v = s.mem.dram.raw v := by
  unfold dramScrub
  dsimp only
  split
  · rfl
  · split
    · rfl
    · exact (Mem.raw_put_ne _ _ _ h).trans (by rw [chanCe_mem])
    · exact (Mem.raw_put_ne _ _ _ h).trans (by rw [chanCe_mem])
    · rfl
    · exact (Mem.raw_put_ne _ _ _ h).trans (by rw [chanUe_mem])

/-- A scrub leaves its word without an error that is not marked. -/
theorem dramScrub_sound {s : State} {w : Nat} (part : Nat) (h : wordGone s w = false) : Sound ((dramScrub s w part).2.mem.dram.cls w) := by
  unfold dramScrub
  dsimp only
  rw [if_neg (by simp only [wordGone] at h; simp [h])]
  cases hc : s.mem.dram.cls w with
  | clean => exact .inl hc
  | ceData b => exact Mem.put_sound ..
  | ceCheck => exact Mem.put_sound ..
  | poison => exact .inr hc
  | ue => exact Mem.put_sound ..

/-- Scrubs of a list of words leave the words that are not on it. -/
theorem eachScrub_ne (part : Nat) (l : List Nat) (s : State) {v : Nat} (h : v ∉ l) :
    (eachIn l (fun s w => (dramScrub s w part).2) s).mem.dram.raw v = s.mem.dram.raw v :=
  eachIn_rel (R := fun s t => t.mem.dram.raw v = s.mem.dram.raw v) (fun _ => rfl) (fun h g => g.trans h)
    (fun t _ hw => dramScrub_ne t part fun e => h (e ▸ hw)) s

theorem eachScrub_only (part : Nat) (l : List Nat) (s : State) : DramOnly s (eachIn l (fun s w => (dramScrub s w part).2) s) :=
  (DramOnly.refl s).each fun t w => dramScrub_only t w part

/-- Scrubs of a list of words leave none of them with an error that is not marked. -/
theorem eachScrub_sound (part : Nat) (l : List Nat) (s : State) {v : Nat} (hg : wordGone s v = false) (h : v ∈ l ∨ Sound (s.mem.dram.cls v)) :
    Sound ((eachIn l (fun s w => (dramScrub s w part).2) s).mem.dram.cls v) := by
  induction l generalizing s with
  | nil => exact h.resolve_left List.not_mem_nil
  | cons w l ih =>
    have honly := dramScrub_only s w part
    refine ih (dramScrub s w part).2 ?_ ?_
    · rw [wordGone, honly.memPlace, honly.chanGone]
      exact hg
    · by_cases hw : v = w
      · subst hw
        exact .inr (dramScrub_sound part hg)
      · obtain hl | hs := h
        · exact .inl ((List.mem_cons.mp hl).resolve_left hw)
        · rw [Mem.cls_congr (dramScrub_ne s part hw)]
          exact .inr hs

end Sys2Proof.Machine
end

section
/-! SUPPORT. Reads and writes of device memory (R508 to R513): what they leave, and a word written whole. -/

namespace Sys2Proof.Machine

/-! ### Reads and writes -/

theorem dramRead_only (s : State) (w part : Nat) (queue : Bool) : DramOnly s (dramRead s w part queue).2 := by
  have hfix : ∀ {t : State} (d : DWord), DramOnly s t → DramOnly s (if queue then
      if (t.mem.repair.get [] (memPlace s (8 * w)).1).length < 64 then
        memSet t { t.mem with repair := t.mem.repair.set [] (memPlace s (8 * w)).1 (t.mem.repair.get [] (memPlace s (8 * w)).1 ++ [w]) }
      else t.fincSat (memPage (memPlace s (8 * w)).1) F.MEMC_MISC_REPAIR_DROPPED 1
      else memSet t { t.mem with dram := t.mem.dram.put w d false }) := fun d h =>
    .ite (.ite (h.words (d := _)) (h.fincSat (by decide) (by decide))) h.words
  unfold dramRead
  dsimp only
  split
  · exact (DramOnly.refl s).countPoison
  · split
    · exact .refl s
    · exact hfix _ (DramOnly.refl s).chanCe
    · exact hfix _ (DramOnly.refl s).chanCe
    · exact (DramOnly.refl s).countPoison
    · rw [← chanUe_mem s (memPlace s (8 * w)).1 (8 * w) part]
      exact (DramOnly.refl s).chanUe.words

theorem dramWrite_only (s : State) (w : Nat) (d : DWord) (p : Bool) : DramOnly s (dramWrite s w d p) := by
  unfold dramWrite
  dsimp only
  split
  · exact .refl s
  · exact ((DramOnly.refl s).words (d := s.mem.dram)).words

theorem dramPartial_only (s : State) (w part : Nat) (bs : List (Nat × Byte)) (p : Bool) : DramOnly s (dramPartial s w part bs p) := by
  unfold dramPartial
  dsimp only
  split
  · exact .refl s
  · split
    · exact (DramOnly.refl s).words
    · exact (DramOnly.refl s).chanCe.words
    · exact (DramOnly.refl s).chanCe.words
    · exact (DramOnly.refl s).chanUe.words
    · exact ((DramOnly.refl s).fincSat (by decide) (by decide)).words

theorem dramStore_only (s : State) (part addr : Nat) (data : List Byte) (bad : List Nat) : DramOnly s (dramStore s part addr data bad) := by
  unfold dramStore
  dsimp only
  split
  · exact .refl s
  · exact (DramOnly.refl s).each fun t i => .ite (dramWrite_only ..) (dramPartial_only ..)

theorem dramLoad_only (s : State) (part addr n : Nat) : DramOnly s (dramLoad s part addr n).2 := by
  unfold dramLoad
  dsimp only
  split
  · exact .refl s
  · refine List.foldlRecOn (motive := fun acc : List (List (Option Byte)) × State => DramOnly s acc.2) _ _ (.refl s) ?_
    exact fun acc h i _ => h.trans (dramRead_only ..)

/-! ### A word written whole -/

/-- A write to a channel in use stores the word with its check byte, and changes no register. -/
theorem dramWrite_stores {s : State} {w : Nat} (d : DWord) (p : Bool) (h : wordGone s w = false) :
    dramWrite s w d p = { s with mem := (dramWrite s w d p).mem } ∧ (dramWrite s w d p).mem.dram = s.mem.dram.put w d p := by
  simp only [wordGone] at h
  unfold dramWrite
  simp only [h, Bool.false_eq_true, if_false]
  exact ⟨rfl, rfl⟩

theorem testBit_byte (j : Nat) : Nat.testBit 0xFF j = decide (j < 8) := by
  have := Nat.testBit_two_pow_sub_one 8 j
  exact this

/-- One more byte put in its place. -/
theorem mergeBytes_concat (d : DWord) (bs : List (Nat × Byte)) (b : Nat × Byte) :
    mergeBytes d (bs ++ [b]) =
      (mergeBytes d bs &&& ~~~ (BitVec.ofNat 64 (0xFF <<< (8 * b.1)))) ||| BitVec.ofNat 64 (b.2.toNat <<< (8 * b.1)) := by
  rw [mergeBytes, List.foldl_append]
  rfl

/-- The first bytes of a word, put in their places. -/
theorem getLsbD_mergeBytes (d : DWord) {n i : Nat} (hn : n ≤ 8) (hi : i < 64) :
    (mergeBytes 0 ((List.range n).map fun k => (k, BitVec.ofNat 8 (d.toNat / 256 ^ k)))).getLsbD i = (decide (i < 8 * n) && d.getLsbD i) := by
  induction n with
  | zero => simp [mergeBytes]
  | succ n ih =>
    have ih := ih (by omega)
    have hpow : 256 ^ n = 2 ^ (8 * n) := by rw [Nat.pow_mul]
    rw [List.range_succ, List.map_append, List.map_singleton, mergeBytes_concat]
    simp only [BitVec.getLsbD_or, BitVec.getLsbD_and, ih, BitVec.getLsbD_not,
      BitVec.getLsbD_ofNat, hi, decide_true, Bool.true_and, Nat.testBit_shiftLeft, testBit_byte, BitVec.toNat_ofNat, hpow,
      Nat.testBit_mod_two_pow, Nat.testBit_div_two_pow]
    rcases Nat.lt_or_ge i (8 * n) with h | h
    · simp [h, show i < 8 * (n + 1) by omega, show ¬ 8 * n ≤ i by omega]
    · simp [h, show ¬ i < 8 * n by omega, show i - 8 * n < 8 ↔ i < 8 * (n + 1) by omega, show i - 8 * n + 8 * n = i by omega, BitVec.getLsbD]

/-- The eight bytes of a word make the word. -/
theorem mergeBytes_bytes (d : DWord) : mergeBytes 0 ((List.range 8).map fun k => (k, BitVec.ofNat 8 (d.toNat / 256 ^ k))) = d :=
  BitVec.eq_of_getLsbD_eq fun i hi => by rw [getLsbD_mergeBytes d (le_refl 8) hi, decide_eq_true hi, Bool.true_and]

/-- Whole words of one pattern are written word by word. -/
theorem dramStore_pattern (s : State) (part a n : Nat) (d : DWord) :
    dramStore s part (8 * a) ((List.range (8 * n)).map fun i => BitVec.ofNat 8 (d.toNat / 256 ^ (i % 8))) [] =
      eachIn (List.range n) (fun s i => dramWrite s (a + i) d false) s := by
  cases n with
  | zero => rfl
  | succ n =>
    unfold dramStore
    simp only [List.length_map, List.length_range, show 8 * (n + 1) ≠ 0 by omega, if_false, show 8 * a / 8 = a by omega,
      show (8 * a + 8 * (n + 1) - 1) / 8 - a + 1 = n + 1 by omega, List.any_nil]
    refine List.foldl_ext _ _ _ fun t i hi => ?_
    have hi := List.mem_range.mp hi
    have hword : ((List.range 8).filterMap fun k => if 8 * a ≤ 8 * (a + i) + k ∧ 8 * (a + i) + k < 8 * a + 8 * (n + 1) then
          some (k, ((List.range (8 * (n + 1))).map fun i => BitVec.ofNat 8 (d.toNat / 256 ^ (i % 8))).getD (8 * (a + i) + k - 8 * a) 0) else none) =
        (List.range 8).map fun k => (k, BitVec.ofNat 8 (d.toNat / 256 ^ k)) := by
      refine (List.filterMap_congr fun k hk => ?_).trans (congrFun List.filterMap_eq_map _)
      have hk := List.mem_range.mp hk
      have hplace : 8 * (a + i) + k - 8 * a = 8 * i + k := by omega
      rw [if_pos (by omega), hplace, List.getD_eq_getElem?_getD, List.getElem?_map, List.getElem?_range (by omega), Option.map_some,
        Option.getD_some, show (8 * i + k) % 8 = k by omega]
      rfl
    rw [hword, List.length_map, List.length_range, if_pos rfl, mergeBytes_bytes]

theorem eachIn_range_succ (f : State → Nat → State) (s : State) (n : Nat) :
    eachIn (List.range (n + 1)) f s = f (eachIn (List.range n) f s) n := by
  rw [eachIn, List.range_succ, List.foldl_append]
  rfl

/-- Writes of words that leave registers, host and all else as they were, and other words too. -/
structure Written (s t : State) (ws : List Nat) : Prop where
  only : DramOnly s t
  shape : t = { s with mem := t.mem }
  other : ∀ v, v ∉ ws → t.mem.dram.raw v = s.mem.dram.raw v

/-- A pattern written to words of channels in use: each holds it with its check byte. -/
theorem eachWrite_stores (s : State) (d : DWord) (a n : Nat) (h : ∀ i, i < n → wordGone s (a + i) = false) :
    let t := eachIn (List.range n) (fun s i => dramWrite s (a + i) d false) s
    Written s t ((List.range n).map (a + ·)) ∧ ∀ i, i < n → t.mem.dram.raw (a + i) = (d, eccCheck d) := by
  induction n with
  | zero => exact ⟨⟨.refl s, rfl, fun _ _ => rfl⟩, fun i hi => absurd hi (Nat.not_lt_zero i)⟩
  | succ n ih =>
    obtain ⟨⟨honly, hshape, hother⟩, hheld⟩ := ih fun i hi => h i (by omega)
    rw [eachIn_range_succ, List.range_succ]
    dsimp only at honly hshape hother hheld ⊢
    generalize eachIn (List.range n) (fun s i => dramWrite s (a + i) d false) s = u at honly hshape hother hheld ⊢
    have hgone : wordGone u (a + n) = false := by
      rw [wordGone, honly.memPlace, honly.chanGone]
      exact h n (by omega)
    obtain ⟨hs, hd⟩ := dramWrite_stores d false hgone
    refine ⟨⟨honly.trans (dramWrite_only ..), ?_, fun v hv => ?_⟩, fun i hi => ?_⟩
    · rw [hs, hshape]
    · rw [List.map_append, List.mem_append, not_or, List.map_singleton, List.mem_singleton] at hv
      rw [hd, Mem.raw_put_ne _ _ _ hv.2, hother v hv.1]
    · rw [hd]
      by_cases he : i = n
      · rw [he, Mem.raw_put_same]
        rfl
      · rw [Mem.raw_put_ne _ _ _ (by omega), hheld i (by omega)]

end Sys2Proof.Machine
end

section
/-! SUPPORT. Memory jobs (R516, R527 to R529): what a copy, a fill, a check and an injection do. -/

namespace Sys2Proof.Machine

/-! ### Host data staged for a job -/

theorem readNote_shape (s : State) (part : Nat) (res : ReadResult) : readNote s part res = { s with host := (readNote s part res).host } := by
  unfold readNote
  split <;> rfl

/-- The data of the read that a job waits for are staged with the job. -/
theorem hostReadCompletion_stages {s : State} {j : Nat} {x : Job} (res : ReadResult) (h : jobGet s j = some x) (hp : x.phase = .started)
    (hs : x.stage = 1) (hd : x.data = none) (hr : readsHost x.opcode = true) (hw : s.rtu.work = none) :
    execHostReadCompletion j res s = .next (readNote (jobSet s j { x with data := some res }) x.part res) := by
  unfold execHostReadCompletion jobData nxt
  simp [hw, h, hp, hs, hd, hr]

theorem hostReadCompletion_next {s : State} {j : Nat} {x : Job} (res : ReadResult) (h : jobGet s j = some x) (hp : x.phase = .started)
    (hs : x.stage = 1) (hd : x.data = none) (hr : readsHost x.opcode = true) (hw : s.rtu.work = none) :
    ∃ t, execHostReadCompletion j res s = .next t ∧ t = { s with host := t.host, qe := { s.qe with jobs := t.qe.jobs } } ∧
      jobGet t j = some { x with data := some res } ∧ (∀ d, res = .good d [] → t.host = s.host) := by
  have hshape := readNote_shape (jobSet s j { x with data := some res }) x.part res
  refine ⟨_, hostReadCompletion_stages res h hp hs hd hr hw, ?_, ?_, fun d hgood => ?_⟩
  · rw [hshape]
    rfl
  · rw [hshape]
    exact jobGet_jobSet_same ..
  · rw [hgood]
    rfl

/-! ### Loads -/

/-- One word of a load: its eight bytes, none for a word with poison. -/
def dramLoadWord (part first : Nat) (acc : List (List (Option Byte)) × State) (i : Nat) : List (List (Option Byte)) × State :=
  (((List.range 8).map fun k => (dramRead acc.2 (first + i) part).1.map fun x => BitVec.ofNat 8 (x.toNat / 256 ^ k)) :: acc.1,
    (dramRead acc.2 (first + i) part).2)

theorem dramLoad_eq (s : State) (part addr n : Nat) :
    dramLoad s part addr n = if n = 0 then ([], s) else
      let r := (List.range ((addr + n - 1) / 8 - addr / 8 + 1)).foldl (dramLoadWord part (addr / 8)) ([], s)
      ((r.1.reverse.flatten.drop (addr % 8)).take n, r.2) := rfl

/-- Each word of a load gives eight bytes. -/
theorem loadWords_length (part first m : Nat) (s : State) :
    ((List.range m).foldl (dramLoadWord part first) ([], s)).1.reverse.flatten.length = 8 * m := by
  induction m with
  | zero => rfl
  | succ m ih =>
    rw [List.range_succ, List.foldl_append]
    simp only [List.foldl_cons, List.foldl_nil, dramLoadWord, List.reverse_cons, List.flatten_append, List.length_append, ih, List.flatten_cons,
      List.flatten_nil, List.append_nil, List.length_map, List.length_range]
    omega

/-- A load gives as many bytes as it is asked for. -/
theorem dramLoad_length (s : State) (part addr n : Nat) : (dramLoad s part addr n).1.length = n := by
  rw [dramLoad_eq]
  split
  · simp [*]
  · dsimp only
    rw [List.length_take, List.length_drop, loadWords_length]
    omega

/-! ### The checks of a memory job -/

theorem payBitsAt_first (x : Job) (lo wid : Nat) : payBitsAt x 0 lo wid = payBits x lo wid := by
  rw [payBitsAt, payBits]
  cases x.entries <;> rfl

/-- A job that passes the checks has fields in their ranges. -/
theorem fieldsOk_of_memCheck {s : State} {x : Job} (h : memCheck s x = stOk) : memFieldsOk x = true := by
  by_contra hf
  unfold memCheck at h
  rw [if_pos hf] at h
  exact absurd h (by decide)

/-- A memory job that fails the checks of R528 ends with the outcome. -/
theorem memJob_fails {s : State} {j op : Nat} {x : Job} (e : Instr) (he : (e, op) ∈ [(Instr.memCopy j, 0x60), (Instr.memFill j, 0x61),
      (Instr.memCheck j, 0x62), (Instr.memInject j, 0x63)]) (h : startedJob s j op = some x) (hs : x.stage = 0) (hm : memReady s = true)
    (hc : memCheck s x ≠ stOk) : exec e s = .next (jobDone s j (memCheck s x) 0) := by
  simp only [List.mem_cons, Prod.mk.injEq, List.not_mem_nil, or_false] at he
  obtain ⟨rfl, rfl⟩ | ⟨rfl, rfl⟩ | ⟨rfl, rfl⟩ | ⟨rfl, rfl⟩ := he
  · change execMemCopy j s = _
    unfold execMemCopy nxt
    simp [h, hm, hs, hc]
  · change execMemFill j s = _
    unfold execMemFill nxt
    simp [h, hm, hc]
  · change execMemCheck j s = _
    unfold execMemCheck nxt
    simp [h, hm, hc]
  · change execMemInject j s = _
    unfold execMemInject nxt
    simp [h, hm, hc]

section
variable {s : State} {j : Nat} {x : Job}

/-- A job still ends after accesses to device memory. -/
theorem DramOnly.ends {t : State} (h : DramOnly s t) (hx : jobGet s j = some x) (hr : s.part.resets.find? x.part = none) (status result : Nat) :
    Ends (jobDone t j status result) j x status result :=
  jobDone_ends status result ((h.job j).trans hx) (by rw [h.part]; exact hr)

theorem DramOnly.done {t : State} (h : DramOnly s t) (hx : jobGet s j = some x) (hr : s.part.resets.find? x.part = none) (status result : Nat) :
    jobDone t j status result = { t with qe := { t.qe with jobs := (jobDone t j status result).qe.jobs } } :=
  jobDone_changes status result ((h.job j).trans hx) (by rw [h.part]; exact hr)

/-! ### MEM_FILL -/

theorem memFill_next (h : startedJob s j 0x61 = some x) (hm : memReady s = true) (hc : memCheck s x = stOk) (hx : x.cancel = false)
    (hh : memHeld s x = false) :
    execMemFill j s = .next (jobDone (dramStore s x.part (payBits x 128 64) ((List.range (payBits x 192 32)).map fun i =>
      BitVec.ofNat 8 (payBits x (256 + 8 * ((payBits x 128 64 + i) % 8)) 8)) []) j stOk (payBits x 192 32)) := by
  unfold execMemFill nxt
  simp [h, hm, hc, hx, hh]

/-- The byte of a fill pattern that stands at a place of its word. -/
theorem fillByte (x : Job) (k : Nat) (h : k < 8) :
    BitVec.ofNat 8 (payBits x (256 + 8 * k) 8) = BitVec.ofNat 8 ((BitVec.ofNat 64 (payBits x 256 64)).toNat / 256 ^ k) := by
  have hpow : 256 ^ k = 2 ^ (8 * k) := by rw [Nat.pow_mul]
  refine BitVec.eq_of_getLsbD_eq fun i hi => ?_
  simp only [payBits, bitsOf, hpow, BitVec.getLsbD_ofNat, BitVec.toNat_ofNat, hi, decide_true, Bool.true_and, Nat.testBit_mod_two_pow,
    Nat.testBit_div_two_pow, Nat.testBit_shiftRight, show i + 8 * k < 64 by omega]
  rw [show 256 + 8 * k + i = 256 + (i + 8 * k) by omega]

/-- A fill of whole words of channels in use stores the pattern in each. -/
theorem fill_words (s : State) (x : Job) (hd : payBits x 128 64 % 8 = 0) (hl : payBits x 192 32 % 8 = 0) :
    dramStore s x.part (payBits x 128 64) ((List.range (payBits x 192 32)).map fun i =>
      BitVec.ofNat 8 (payBits x (256 + 8 * ((payBits x 128 64 + i) % 8)) 8)) [] =
      eachIn (List.range (payBits x 192 32 / 8)) (fun s i => dramWrite s (payBits x 128 64 / 8 + i) (BitVec.ofNat 64 (payBits x 256 64)) false) s := by
  rw [← dramStore_pattern s x.part, Nat.mul_div_cancel' (Nat.dvd_of_mod_eq_zero hd), Nat.mul_div_cancel' (Nat.dvd_of_mod_eq_zero hl)]
  refine congrArg (fun l => dramStore s x.part (payBits x 128 64) l []) (List.map_congr_left fun i _ => ?_)
  rw [fillByte x _ (Nat.mod_lt _ (by decide)), show (payBits x 128 64 + i) % 8 = i % 8 by omega]

/-! ### MEM_CHECK -/

/-- One word of a MEM_CHECK: what the scrub finds is counted. -/
def checkWord (part first : Nat) (acc : Nat × Nat × State) (i : Nat) : Nat × Nat × State :=
  (if (dramScrub acc.2.2 (first + i) part).1 = 1 then satAdd acc.1 1 0xFFFF else acc.1,
    if (dramScrub acc.2.2 (first + i) part).1 = 2 then satAdd acc.2.1 1 0xFFFF else acc.2.1, (dramScrub acc.2.2 (first + i) part).2)

theorem memCheck_next (h : startedJob s j 0x62 = some x) (hm : memReady s = true) (hc : memCheck s x = stOk) (hx : x.cancel = false)
    (hh : memHeld s x = false) :
    let r := (List.range ((payBits x 128 64 + payBits x 192 32 - 1) / 8 - payBits x 128 64 / 8 + 1)).foldl
      (checkWord x.part (payBits x 128 64 / 8)) (0, 0, s)
    execMemCheck j s = .next (jobDone r.2.2 j stOk (r.1 + r.2.1 * 2 ^ 16)) := by
  unfold execMemCheck nxt
  simp only [h, hm, hc, hx, hh, not_true, ne_eq, if_false, Bool.false_eq_true]
  rfl

/-- How many of the first words a scrub finds so. -/
def foundIn (s : State) (first n k : Nat) : Nat := ((List.range n).filter fun i => scrubFound s (first + i) == k).length

theorem foundIn_succ (s : State) (first n k : Nat) :
    foundIn s first (n + 1) k = if scrubFound s (first + n) = k then foundIn s first n k + 1 else foundIn s first n k := by
  unfold foundIn
  rw [List.range_succ, List.filter_append, List.length_append]
  by_cases h : scrubFound s (first + n) = k <;> simp [h]

/-- The counts and the state of a check. -/
theorem checkWords (s : State) (part first n : Nat) :
    (List.range n).foldl (checkWord part first) (0, 0, s) =
      (min (foundIn s first n 1) 0xFFFF, min (foundIn s first n 2) 0xFFFF,
        eachIn ((List.range n).map (first + ·)) (fun s w => (dramScrub s w part).2) s) := by
  induction n with
  | zero => rfl
  | succ n ih =>
    have hlist : first + n ∉ (List.range n).map (first + ·) := by simp
    have honly := eachScrub_only part ((List.range n).map (first + ·)) s
    have hfound := honly.scrubFound (eachScrub_ne part _ s hlist)
    have hstate : eachIn ((List.range (n + 1)).map (first + ·)) (fun s w => (dramScrub s w part).2) s =
        (dramScrub (eachIn ((List.range n).map (first + ·)) (fun s w => (dramScrub s w part).2) s) (first + n) part).2 := by
      rw [List.range_succ, List.map_append, eachIn, List.foldl_append]
      rfl
    rw [List.range_succ, List.foldl_append, ih, ← List.range_succ, hstate, foundIn_succ, foundIn_succ]
    simp only [List.foldl_cons, List.foldl_nil, checkWord, dramScrub_found, hfound, Prod.mk.injEq, satAdd, and_true]
    exact ⟨by split <;> omega, by split <;> omega⟩

/-! ### MEM_INJECT -/

/-- Device memory after an injection. -/
def injected (s : State) (x : Job) : Mem :=
  if payBits x 34 2 = 0 then s.mem.dram.upset (payBits x 128 64 / 8) (payBits x 40 6)
  else if payBits x 34 2 = 1 then
    (s.mem.dram.upset (payBits x 128 64 / 8) (payBits x 40 6)).upset (payBits x 128 64 / 8) ((payBits x 40 6 + 1) % 64)
  else s.mem.dram.put (payBits x 128 64 / 8) (s.mem.dram.raw (payBits x 128 64 / 8)).1 true

theorem memInject_next (h : startedJob s j 0x63 = some x) (hm : memReady s = true) (hc : memCheck s x = stOk) (hx : x.cancel = false)
    (hh : memHeld s x = false) (hg : wordGone s (payBits x 128 64 / 8) = false) :
    execMemInject j s = .next (jobDone (memSet s { s.mem with dram := injected s x }) j stOk 0) := by
  simp only [wordGone] at hg
  unfold execMemInject nxt
  simp only [h, hm, hc, hx, hh, hg, not_true, ne_eq, if_false, Bool.false_eq_true]
  rfl

theorem injected_ne (s : State) (x : Job) {v : Nat} (h : v ≠ payBits x 128 64 / 8) : (injected s x).raw v = s.mem.dram.raw v := by
  unfold injected
  split
  · exact Mem.raw_upset_ne _ _ h
  · split
    · exact (Mem.raw_upset_ne _ _ h).trans (Mem.raw_upset_ne _ _ h)
    · exact Mem.raw_put_ne _ _ _ h

theorem injected_word (s : State) (x : Job) :
    (injected s x).raw (payBits x 128 64 / 8) =
      let d := (s.mem.dram.raw (payBits x 128 64 / 8)).1
      if payBits x 34 2 = 0 then (flipBit d (payBits x 40 6), (s.mem.dram.raw (payBits x 128 64 / 8)).2)
      else if payBits x 34 2 = 1 then
        (flipBit (flipBit d (payBits x 40 6)) ((payBits x 40 6 + 1) % 64), (s.mem.dram.raw (payBits x 128 64 / 8)).2)
      else (d, eccCheck d ^^^ 0xFF) := by
  have hbit : payBits x 40 6 < 64 := Nat.mod_lt _ (by decide)
  unfold injected
  split
  · exact Mem.raw_upset_data _ _ hbit
  · split
    · rw [Mem.raw_upset_data _ _ (Nat.mod_lt _ (by decide)), Mem.raw_upset_data _ _ hbit]
    · exact Mem.raw_put_same ..

/-! ### MEM_COPY of one segment -/

theorem memCopy_next (h : startedJob s j 0x60 = some x) (hm : memReady s = true) (hc : memCheck s x = stOk) (hx : x.cancel = false)
    (hh : memHeld s x = false) (he : x.entries.length = 1) (ha : x.aux = 0) (hw : x.stage = 1 → x.data ≠ none) :
    execMemCopy j s = .next (copyFrom s j x 1 0 0) := by
  unfold execMemCopy nxt
  simp only [h, hm, hc, hx, hh, he, ha, not_true, ne_eq, if_false, Bool.false_eq_true, and_false, false_or, Option.isNone_iff_eq_none]
  rw [if_neg fun hwait => hw hwait.1 hwait.2]

/-- A segment from the host asks for its data. -/
theorem copyFrom_asks (hx : jobGet s j = some x) (hdir : payBits x 32 2 = 0) (hd : x.data = none) (ha : x.aux = 0) (hh : HostHears s x.part) :
    copyFrom s j x 1 0 0 = { jobSet (jobSet s j { x with aux := 0 }) j { x with stage := 1 } with
      host := { s.host with out := .read x.part (payBits x 64 64) (payBits x 192 32) :: s.host.out } } := by
  have hjob : ({ x with aux := 0, stage := 1, data := none } : Job) = { x with stage := 1 } := by rw [← ha, ← hd]
  unfold copyFrom
  simp only [payBitsAt_first, hdir, if_true, hx, Option.bind_some, hd, askData, jobGet_jobSet_same, Nat.mul_zero, Nat.add_zero, hjob]
  exact hostSend_hears _ ⟨hh.1, hh.2⟩

/-- A segment from the host whose data are there is stored. -/
theorem copyFrom_stores {d : List Byte} (hx : jobGet s j = some x) (hdir : payBits x 32 2 = 0) (hd : x.data = some (.good d [])) :
    copyFrom s j x 1 0 0 = jobDone (jobSet (dramStore s x.part (payBits x 128 64) (d.take (payBits x 192 32)) []) j { x with data := none }) j stOk
      (payBits x 192 32) := by
  have hstored := ((dramStore_only s x.part (payBits x 128 64) (d.take (payBits x 192 32)) []).job j).trans hx
  unfold copyFrom
  simp only [payBitsAt_first, hdir, if_true, hx, Option.bind_some, hd, hstored, ne_eq, not_true, if_false, Nat.zero_add, copyFrom]

theorem takeWhile_all {bs : List (Option Byte)} (h : ∀ b ∈ bs, b.isSome = true) : bs.takeWhile Option.isSome = bs :=
  List.takeWhile_eq_self_iff.mpr h

/-- A segment to the host is sent. -/
theorem copyFrom_sends {u : State} {bs : List (Option Byte)} (hdir : payBits x 32 2 = 1)
    (hl : dramLoad s x.part (payBits x 64 64) (payBits x 192 32) = (bs, u)) (hb : ∀ b ∈ bs, b.isSome = true) (hne : payBits x 192 32 ≠ 0)
    (hh : HostHears u x.part) :
    copyFrom s j x 1 0 0 = jobDone { u with host := { u.host with out := .write x.part (payBits x 128 64) (bs.map fun b => b.getD 0) :: u.host.out } }
      j stOk bs.length := by
  have hlen : bs.length ≠ 0 := by
    have := dramLoad_length s x.part (payBits x 64 64) (payBits x 192 32)
    rw [hl] at this
    exact this ▸ hne
  have hwrite : hostWrite u x.part (payBits x 128 64) bs =
      (bs.length, true, { u with host := { u.host with out := .write x.part (payBits x 128 64) (bs.map fun b => b.getD 0) :: u.host.out } }) := by
    unfold hostWrite
    simp only [takeWhile_all hb, decide_true, hlen, if_false, List.take_length, hostSend_hears _ hh]
  unfold copyFrom
  simp only [payBitsAt_first, hdir, Nat.one_ne_zero, if_false, if_true, hl, hwrite, Nat.zero_add, copyFrom]

/-- A segment within device memory is stored as it was read. -/
theorem copyFrom_moves {u : State} {bs : List (Option Byte)} (hdir : payBits x 32 2 = 2)
    (hl : dramLoad s x.part (payBits x 64 64) (payBits x 192 32) = (bs, u)) (hb : ∀ b ∈ bs, b.isSome = true) :
    copyFrom s j x 1 0 0 = jobDone (dramStore u x.part (payBits x 128 64) (bs.map fun b => b.getD 0) []) j stOk (payBits x 192 32) := by
  have hbad : ((List.range bs.length).filter fun i => (bs.getD i none).isNone) = [] := by
    refine List.filter_eq_nil_iff.mpr fun i hi => ?_
    have hi := List.mem_range.mp hi
    have := hb _ (List.getElem_mem hi)
    rw [List.getD_eq_getElem _ _ hi]
    simp [Option.isNone_iff_eq_none, Option.isSome_iff_ne_none.mp this]
  unfold copyFrom
  simp only [payBitsAt_first, hdir, OfNat.ofNat_ne_zero, OfNat.ofNat_ne_one, if_false, if_true, hl, hbad, Nat.zero_add, copyFrom]

end

end Sys2Proof.Machine
end

section
/-! SUPPORT. Training and the counters of memory (R506, R520, R522). -/

namespace Sys2Proof.Machine

/-! ### Counters -/

theorem regionClear_get (s : State) (r q : Nat) :
    regionGet (regionClear s r) q = if q = r then { lastCe := (regionGet s q).lastCe } else regionGet s q := by
  have hget : ∀ x, regionGet (regionSet s r x) q = Tab.get (Tab.set s.mem.regions {} r x) {} q := fun _ => rfl
  rw [regionClear, hget]
  split
  · subst q
    exact Tab.get_set_same ..
  · exact Tab.get_set_ne _ _ _ _ ‹_›

theorem eachRegionClear_shape (l : List Nat) (s : State) :
    eachIn l regionClear s = { s with mem := { s.mem with regions := (eachIn l regionClear s).mem.regions } } :=
  eachIn_rel (R := fun s t => t = { s with mem := { s.mem with regions := t.mem.regions } }) (fun _ => rfl)
    (fun h g => g.trans (by rw [h])) (fun _ _ _ => rfl) s

/-- The counters of the listed regions are cleared, and the addresses of the last CE stay. -/
theorem eachRegionClear_get (l : List Nat) (s : State) (q : Nat) :
    regionGet (eachIn l regionClear s) q = if q ∈ l then { lastCe := (regionGet s q).lastCe } else regionGet s q := by
  induction l generalizing s with
  | nil => simp [eachIn]
  | cons r l ih =>
    refine (ih (regionClear s r)).trans ?_
    rw [regionClear_get]
    by_cases hq : q = r <;> by_cases hl : q ∈ l <;> simp [hq, hl]

theorem sramClrSelected_next {s : State} {part : Nat} (h : Writable s part pgMemc) :
    ∃ t, execSramClrSelected part s = .next t ∧ t = { s with mem := { s.mem with regions := t.mem.regions } } ∧
      ∀ r, regionGet t r = if r = s.fget pgMemc F.SRAM_SEL_REGION then { lastCe := (regionGet s r).lastCe } else regionGet s r := by
  refine ⟨regionClear s (s.fget pgMemc F.SRAM_SEL_REGION), ?_, rfl, fun r => regionClear_get ..⟩
  rw [execSramClrSelected, pageWrite_acts _ h, sramClear, if_neg (by decide), if_pos (by decide)]

theorem sramClrAll_next {s : State} {part : Nat} (h : Writable s part pgMemc) :
    ∃ t, execSramClrAll part s = .next t ∧ t = { s with mem := { s.mem with regions := t.mem.regions } } ∧
      ∀ r, regionGet t r = if r < 256 ∧ regionBuilt s.var r then { lastCe := (regionGet s r).lastCe } else regionGet s r := by
  refine ⟨eachIn ((List.range 256).filter (regionBuilt s.var)) regionClear s, ?_, eachRegionClear_shape .., fun r => ?_⟩
  · rw [execSramClrAll, pageWrite_acts _ h, sramClear, if_pos (by decide)]
  · rw [eachRegionClear_get]
    simp only [List.mem_filter, List.mem_range]

theorem memcClr_next {s : State} {part p : Nat} (hp : classOf s.var p = some .memc) (h : Writable s part p) :
    ∃ t, execMemcClr part p s = .next t ∧ t = { s with regs := t.regs } ∧
      RegsOnly [(p, F.MEMC_CE_CE.off), (p, F.MEMC_PCOUNT_READS.off), (p, F.MEMC_MISC_REPAIR_DROPPED.off)] s t ∧
      t.reg p F.MEMC_CE_CE.off = 0 ∧ t.reg p F.MEMC_PCOUNT_READS.off = 0 ∧ t.reg p F.MEMC_MISC_REPAIR_DROPPED.off = 0 := by
  refine ⟨memcClear s p, ?_, rfl, ?_, ?_, ?_, reg_setReg_same ..⟩
  · rw [execMemcClr, if_pos hp, pageWrite_acts _ h]
  · exact (((RegsOnly.refl _ s).setReg (by simp) (by decide)).setReg (by simp) (by decide)).setReg (by simp) (by decide)
  · rw [memcClear, reg_setReg_ne _ _ (by simp), reg_setReg_ne _ _ (by simp), reg_setReg_same]
  · rw [memcClear, reg_setReg_ne _ _ (by simp), reg_setReg_same]

/-- MEMC_INIT is noted once. -/
theorem memcInit_next {s : State} {part : Nat} (h : Writable s part pgMemc) :
    ∃ t, execMemcInit part s = .next t ∧ t = { s with mem := { s.mem with initUsed := true } } := by
  refine ⟨memcInit s 1, by rw [execMemcInit, pageWrite_acts _ h], ?_⟩
  unfold memcInit
  cases hu : s.mem.initUsed with
  | false => simp [memSet]
  | true => simp [← hu]

/-! ### Training -/

/-- The raw capacity that training found on a channel. -/
def capFound (caps : List (Nat × Nat)) (c : Nat) : Option Nat :=
  (caps.find? fun x => x.1 = c ∧ (x.2 = 2 ∨ x.2 = 4 ∨ x.2 = 8 ∨ x.2 = 16)).map Prod.snd

/-- A channel shows what training found, or leaves service. -/
def trainShown (caps : List (Nat × Nat)) (s : State) (c : Nat) : State :=
  pageIrq (match capFound caps c with
    | some _ => ((s.fset (memPage c) F.MEMC_STAT_INIT_DONE 1).fset (memPage c) F.MEMC_STAT_TRAINED 1).fset (memPage c) F.MEMC_STAT_UNITS
        (chanData ((s.fset (memPage c) F.MEMC_STAT_INIT_DONE 1).fset (memPage c) F.MEMC_STAT_TRAINED 1) / 2 ^ 21)
    | none => capture (memLeave (s.fset (memPage c) F.MEMC_STAT_INIT_DONE 1) c true) (memPage c) 0x0501 0 1) (memPage c) 8

/-- Device memory after training: zero, with the channels that trained. -/
def trainedMem (caps : List (Nat × Nat)) (s : State) : State :=
  memSet s { s.mem with dram := {}, trained := (List.range s.var.memcChannels).filterMap fun c => (capFound caps c).map fun g => (c, g) }

theorem memcInitDone_next {caps : List (Nat × Nat)} {s : State} (hu : s.mem.initUsed = true) (hd : s.fbit pgMemc F.MEMC_STAT_INIT_DONE = false) :
    execMemcInitDone caps s = .next (eachIn (List.range s.var.memcChannels) (trainShown caps) (trainedMem caps s)) := by
  unfold execMemcInitDone nxt
  rw [if_neg (by simp [hu, hd])]
  dsimp only
  refine congrArg Host.Outcome.next (List.foldl_ext _ _ _ fun t c _ => ?_)
  unfold trainShown capFound
  cases caps.find? fun x => x.1 = c ∧ (x.2 = 2 ∨ x.2 = 4 ∨ x.2 = 8 ∨ x.2 = 16) <;> rfl

/-- No calendar window of a channel is in use. -/
abbrev noWindows (s : State) : Prop := ∀ c w, c < 2 → w < 16 → (calWindow s c w).2 = 0

/-- What training does to one channel: its pages and the log of partition 0. -/
structure ChanOnly (c : Nat) (s t : State) : Prop where
  shape : t = { s with regs := t.regs, pages := t.pages, host := t.host }
  pages : PagesOnly (fun q => q = memPage c ∨ q = calPage c ∨ q = pgPart) s t
  cal : ∀ o, o < 4096 → o ≠ F.PG_STAT_OUT_OF_SERVICE.off → t.reg (calPage c) o = s.reg (calPage c) o

namespace ChanOnly
variable {c : Nat} {s t u : State}

theorem refl (c : Nat) (s : State) : ChanOnly c s s := ⟨rfl, .refl _ s, fun _ _ _ => rfl⟩

theorem trans (h : ChanOnly c s t) (g : ChanOnly c t u) : ChanOnly c s u :=
  ⟨g.shape.trans (by rw [h.shape]), h.pages.trans g.pages, fun o ho hn => (g.cal o ho hn).trans (h.cal o ho hn)⟩

/-- The channel's own page and the log of partition 0. -/
theorem ofPages (hs : t = { s with regs := t.regs, pages := t.pages, host := t.host }) (h : PagesOnly (fun q => q = memPage c ∨ q = pgPart) s t)
    (hc : c < 2) : ChanOnly c s t := by
  refine ⟨hs, h.mono fun q hq => ?_, fun o ho _ => h _ o ho ?_⟩
  · exact hq.elim .inl fun h => .inr (.inr h)
  · unfold calPage memPage pgMemc pgPart
    omega

theorem windows (h : ChanOnly c s t) (hw : noWindows s) : noWindows t := by
  intro k w hk hw'
  refine Eq.trans ?_ (hw k w hk hw')
  have hoff : (F.MEMC_WIN_LEN.sh (4 * w)).off = 0x080 + 4 * w := rfl
  unfold calWindow State.fget
  dsimp only
  rw [hoff]
  by_cases hkc : k = c
  · rw [hkc, h.cal _ (by omega) (by simp; omega)]
  · rw [h.pages _ _ (by omega) (by unfold calPage memPage pgMemc pgPart; omega)]

end ChanOnly

theorem captureRegs_pages {s : State} {p part : Nat} {x : Nat × Nat} (h : x ∈ captureRegs s p part) : x.1 = p ∨ x.1 = pgPart + part := by
  simp only [captureRegs, List.mem_cons, List.not_mem_nil, or_false] at h
  obtain rfl | rfl | rfl | rfl | rfl | rfl | rfl | rfl | rfl | rfl | rfl := h <;> simp

/-- A channel without windows leaves service without stopping the robot. -/
theorem memLeave_quiet {s : State} {c : Nat} (hw : noWindows s) (hc : c < 2) :
    memLeave s c true = (markOut s (memPage c) true).fset (calPage c) F.PG_STAT_OUT_OF_SERVICE 1 ∧ ChanOnly c s (memLeave s c true) := by
  have hout : ChanOnly c s (markOut s (memPage c) true) :=
    .ofPages rfl ((PagesOnly.of_regsOnly (markOut_regs s (memPage c) true) (by simp [outRegs])).mono fun _ => .inl) hc
  have hcal : ChanOnly c (markOut s (memPage c) true) ((markOut s (memPage c) true).fset (calPage c) F.PG_STAT_OUT_OF_SERVICE 1) :=
    ⟨rfl, (PagesOnly.refl _ _).fset (.inr (.inl rfl)) (by decide), fun o _ hn => reg_fset_ne _ _ _ (by omega)⟩
  have hboth := hout.trans hcal
  have hclosed : ((List.range 16).any fun w => (calWindow ((markOut s (memPage c) true).fset (calPage c) F.PG_STAT_OUT_OF_SERVICE 1) c w).2 != 0) = false := by
    refine List.any_eq_false.mpr fun w hw' => ?_
    simp [hboth.windows hw c w hc (List.mem_range.mp hw')]
  have heq : memLeave s c true = (markOut s (memPage c) true).fset (calPage c) F.PG_STAT_OUT_OF_SERVICE 1 := by
    unfold memLeave
    dsimp only
    rw [hclosed, if_neg (by decide)]
  exact ⟨heq, heq ▸ hboth⟩

theorem trainShown_only {caps : List (Nat × Nat)} {s : State} {c : Nat} (hw : noWindows s) (hc : c < 2) : ChanOnly c s (trainShown caps s c) := by
  have hdone : ChanOnly c s (s.fset (memPage c) F.MEMC_STAT_INIT_DONE 1) := .ofPages rfl ((PagesOnly.refl _ s).fset (.inl rfl) (by decide)) hc
  have hirq : ∀ t, ChanOnly c t (pageIrq t (memPage c) 8) := fun t =>
    .ofPages (by rw [pageIrq_shape]) ((PagesOnly.refl _ t).pageIrq (.inl rfl)) hc
  unfold trainShown
  refine ChanOnly.trans ?_ (hirq _)
  split
  · exact hdone.trans (.ofPages rfl (((PagesOnly.refl _ _).fset (.inl rfl) (by decide)).fset (.inl rfl) (by decide)) hc)
  · refine (hdone.trans (memLeave_quiet (hdone.windows hw) hc).2).trans (.ofPages (by rw [capture_shape]) ?_ hc)
    exact PagesOnly.of_regsOnly (capture_regs _ _ _ _ _) fun x hx => captureRegs_pages (part := 0) hx

/-- A channel that trained shows its size; one that did not is out of service. -/
theorem trainShown_shows {caps : List (Nat × Nat)} {s : State} {c : Nat} (hw : noWindows s) (hc : c < 2) :
    (trainShown caps s c).fget (memPage c) F.MEMC_STAT_INIT_DONE = 1 ∧
      (∀ g, capFound caps c = some g → (trainShown caps s c).fget (memPage c) F.MEMC_STAT_TRAINED = 1 ∧
        (trainShown caps s c).fget (memPage c) F.MEMC_STAT_UNITS = chanData s / 2 ^ 21 % 2 ^ 16) ∧
      (capFound caps c = none → (trainShown caps s c).fget (memPage c) F.PG_STAT_OUT_OF_SERVICE = 1) := by
  unfold trainShown
  simp only [pageIrq_fget _ _ _ (show F.MEMC_STAT_INIT_DONE.off < 4096 by decide) (by decide),
    pageIrq_fget _ _ _ (show F.MEMC_STAT_TRAINED.off < 4096 by decide) (by decide),
    pageIrq_fget _ _ _ (show F.MEMC_STAT_UNITS.off < 4096 by decide) (by decide),
    pageIrq_fget _ _ _ (show F.PG_STAT_OUT_OF_SERVICE.off < 4096 by decide) (by decide)]
  cases capFound caps c with
  | some g =>
    refine ⟨?_, fun _ _ => ⟨?_, fget_fset_same _ _ _ _ (by decide)⟩, fun h => absurd h (by simp)⟩
    · dsimp only
      rw [fget_fset_beside _ _ F.MEMC_STAT_UNITS F.MEMC_STAT_INIT_DONE _ rfl (.inl (by decide)),
        fget_fset_beside _ _ F.MEMC_STAT_TRAINED F.MEMC_STAT_INIT_DONE _ rfl (.inl (by decide)), fget_fset_same _ _ _ _ (by decide)]
      rfl
    · dsimp only
      rw [fget_fset_beside _ _ F.MEMC_STAT_UNITS F.MEMC_STAT_TRAINED _ rfl (.inl (by decide)), fget_fset_same _ _ _ _ (by decide)]
      rfl
  | none =>
    have hdone : ChanOnly c s (s.fset (memPage c) F.MEMC_STAT_INIT_DONE 1) := .ofPages rfl ((PagesOnly.refl _ s).fset (.inl rfl) (by decide)) hc
    have hne : memPage c ≠ calPage c := by unfold memPage calPage; omega
    have hpart : memPage c ≠ pgPart := by unfold memPage pgMemc pgPart; omega
    dsimp only
    refine ⟨?_, fun _ h => absurd h (by simp), fun _ => ?_⟩
    · rw [capture_fget _ _ _ _ _ (by decide) (by decide) (fun h => absurd h hpart), (memLeave_quiet (hdone.windows hw) hc).1,
        fget_fset_ne _ _ _ _ (by simp only; omega), (markOut_regs _ _ _).fget (by decide) (by simp [outRegs]), fget_fset_same _ _ _ _ (by decide)]
      rfl
    · rw [(DramOnly.refl _).capture.service, (memLeave_quiet (hdone.windows hw) hc).1, fget_fset_ne _ _ _ _ (by simp only; omega)]
      have hout := (markOut_shows (s.fset (memPage c) F.MEMC_STAT_INIT_DONE 1) (memPage c) true).1
      have hbit := fget_lt (markOut (s.fset (memPage c) F.MEMC_STAT_INIT_DONE 1) (memPage c) true) (memPage c) F.PG_STAT_OUT_OF_SERVICE
      exact Nat.le_antisymm (Nat.le_of_lt_succ hbit) (Nat.one_le_iff_ne_zero.mpr (by simpa [pageOut, State.fbit] using hout))

/-- The channels around it leave a channel's page alone, and its own turn decides what it shows. -/
theorem eachTrain_at (caps : List (Nat × Nat)) {s : State} (hw : noWindows s) {c m : Nat} (hc : c < m) (hm : m ≤ 2) :
    ∃ u, noWindows u ∧ u = { s with regs := u.regs, pages := u.pages, host := u.host } ∧
      ∀ f : Fld, f.off < 4096 → (eachIn (List.range m) (trainShown caps) s).fget (memPage c) f = (trainShown caps u c).fget (memPage c) f := by
  have hstep : ∀ k < 2, ∀ t, noWindows t → noWindows (trainShown caps t k) := fun k hk t ht => (trainShown_only ht hk).windows ht
  have hbefore : ∀ n, n ≤ 2 → noWindows (eachIn (List.range n) (trainShown caps) s) ∧ eachIn (List.range n) (trainShown caps) s =
      { s with regs := (eachIn (List.range n) (trainShown caps) s).regs, pages := (eachIn (List.range n) (trainShown caps) s).pages,
               host := (eachIn (List.range n) (trainShown caps) s).host } := by
    intro n hn
    induction n with
    | zero => exact ⟨hw, rfl⟩
    | succ n ih =>
      obtain ⟨hn', hshape⟩ := ih (by omega)
      rw [eachIn_range_succ]
      refine ⟨hstep n (by omega) _ hn', (trainShown_only hn' (by omega)).shape.trans ?_⟩
      rw [hshape]
  obtain ⟨hu, hshape⟩ := hbefore c (by omega)
  refine ⟨_, hu, hshape, fun f hf => ?_⟩
  rw [eachIn_range_at _ s hc]
  have hafter := eachIn_rel (R := fun s t => noWindows s → noWindows t ∧ t.fget (memPage c) f = s.fget (memPage c) f)
    (l := List.range' (c + 1) (m - (c + 1))) (f := trainShown caps) (fun _ h => ⟨h, rfl⟩) (fun h g hs => ?_) (fun t k hk ht => ?_)
    (trainShown caps (eachIn (List.range c) (trainShown caps) s) c)
  · exact (hafter (hstep c (by omega) _ hu)).2
  · obtain ⟨ht, hfs⟩ := h hs
    obtain ⟨hv, hft⟩ := g ht
    exact ⟨hv, hft.trans hfs⟩
  · obtain ⟨hk, hkm⟩ := List.mem_range'_1.mp hk
    have honly := trainShown_only (caps := caps) ht (show k < 2 by omega)
    refine ⟨honly.windows ht, honly.pages.fget ?_ hf⟩
    unfold memPage calPage pgMemc pgPart
    omega

/-- Training changes registers, pages and the host side only. -/
theorem eachTrain_shape (caps : List (Nat × Nat)) {s : State} (hw : noWindows s) {m : Nat} (hm : m ≤ 2) :
    eachIn (List.range m) (trainShown caps) s = { s with
      regs := (eachIn (List.range m) (trainShown caps) s).regs, pages := (eachIn (List.range m) (trainShown caps) s).pages,
      host := (eachIn (List.range m) (trainShown caps) s).host } := by
  have hboth := eachIn_rel (R := fun s t => noWindows s → noWindows t ∧ t = { s with regs := t.regs, pages := t.pages, host := t.host })
    (l := List.range m) (f := trainShown caps) (fun _ h => ⟨h, rfl⟩) (fun h g hs => ?_) (fun t k hk ht => ?_) s
  · exact (hboth hw).2
  · obtain ⟨ht, hst⟩ := h hs
    obtain ⟨hv, hsv⟩ := g ht
    exact ⟨hv, hsv.trans (by rw [hst])⟩
  · have honly := trainShown_only (caps := caps) ht (show k < 2 from (List.mem_range.mp hk).trans_le hm)
    exact ⟨honly.windows ht, honly.shape⟩

/-! ### What training found -/

/-- The channels that trained are listed with their capacities. -/
theorem trained_find? (f : Nat → Option Nat) (l : List Nat) (c : Nat) :
    Tab.find? (l.filterMap fun k => (f k).map fun g => (k, g)) c = if c ∈ l then f c else none := by
  induction l with
  | nil => rfl
  | cons k l ih =>
    cases hk : f k with
    | none =>
      simp only [List.filterMap_cons, hk, Option.map_none, ih, List.mem_cons]
      by_cases hc : c = k
      · simp [hc, hk]
      · simp [hc]
    | some g =>
      simp only [List.filterMap_cons, hk, Option.map_some, Tab.find?, ih, List.mem_cons]
      by_cases hc : k = c
      · simp [← hc, hk]
      · simp [hc, Ne.symm hc]

theorem capFound_le {caps : List (Nat × Nat)} {c g : Nat} (h : capFound caps c = some g) : g ≤ 16 := by
  obtain ⟨x, hx, rfl⟩ := Option.map_eq_some_iff.mp h
  have := List.find?_some hx
  simp only [decide_eq_true_eq] at this
  omega

theorem foldl_min_le {α : Type} (f : α → Nat) (l : List α) (a : Nat) : l.foldl (fun a x => min a (f x)) a ≤ a := by
  induction l generalizing a with
  | nil => exact Nat.le_refl a
  | cons x l ih => exact (ih _).trans (Nat.min_le_left ..)

/-- A channel's size fits the field that shows it. -/
theorem chanData_fits {s : State} (h : ∀ x ∈ s.mem.trained, x.2 ≤ 16) : chanData s / 2 ^ 21 < 2 ^ 16 := by
  unfold chanData
  split
  · decide
  · rename_i c r heq
    have hc := h _ (heq ▸ List.mem_cons_self)
    have hmin := foldl_min_le (fun x : Nat × Nat => x.2) r c
    dsimp only at hc
    omega

/-- After training device memory is zero; each channel that trained shows its size and each other one is out of service. -/
theorem memcInitDone_trains {caps : List (Nat × Nat)} {s : State} (hu : s.mem.initUsed = true)
    (hd : s.fbit pgMemc F.MEMC_STAT_INIT_DONE = false) (hw : noWindows s) :
    ∃ t, execMemcInitDone caps s = .next t ∧ t = { s with regs := t.regs, pages := t.pages, mem := t.mem, host := t.host } ∧ t.mem.dram = {} ∧
      ∀ c, c < s.var.memcChannels → t.mem.trained.find? c = capFound caps c ∧ t.fget (memPage c) F.MEMC_STAT_INIT_DONE = 1 ∧
        (∀ g, capFound caps c = some g → t.fget (memPage c) F.MEMC_STAT_TRAINED = 1 ∧
          t.fget (memPage c) F.MEMC_STAT_UNITS = chanData t / 2 ^ 21) ∧
        (capFound caps c = none → t.fget (memPage c) F.PG_STAT_OUT_OF_SERVICE = 1) := by
  have hm : s.var.memcChannels ≤ 2 := by cases s.var <;> decide
  have hw' : noWindows (trainedMem caps s) := hw
  refine ⟨_, memcInitDone_next hu hd, ?_⟩
  have hshape := eachTrain_shape caps hw' hm
  have hmem := congrArg State.mem hshape
  dsimp only at hmem
  refine ⟨hshape.trans ?_, hmem ▸ rfl, fun c hc => ?_⟩
  · rw [hmem]
    rfl
  · obtain ⟨u, hwu, hsu, hfu⟩ := eachTrain_at caps hw' hc hm
    obtain ⟨hinit, hsize, hout⟩ := trainShown_shows (caps := caps) hwu (show c < 2 by omega)
    have htrained : (trainedMem caps s).mem.trained = (List.range s.var.memcChannels).filterMap fun c => (capFound caps c).map fun g => (c, g) := rfl
    have hfits : chanData (trainedMem caps s) / 2 ^ 21 < 2 ^ 16 := chanData_fits fun x hx => by
      rw [htrained] at hx
      obtain ⟨k, -, hk⟩ := List.mem_filterMap.mp hx
      obtain ⟨g, hg, rfl⟩ := Option.map_eq_some_iff.mp hk
      exact capFound_le hg
    have hdata : ∀ t : State, t.mem = (trainedMem caps s).mem → chanData t = chanData (trainedMem caps s) := fun t ht => by
      rw [chanData, chanData, ht]
    refine ⟨?_, (hfu _ (by decide)).trans hinit, fun g hg => ⟨(hfu _ (by decide)).trans (hsize g hg).1, ?_⟩, fun hn => (hfu _ (by decide)).trans (hout hn)⟩
    · rw [hmem, htrained, trained_find?, if_pos (List.mem_range.mpr hc)]
    · rw [hfu _ (by decide), (hsize g hg).2, hdata _ hmem, hdata u (by rw [hsu]), Nat.mod_eq_of_lt hfits]

end Sys2Proof.Machine
end

section
/-! SUPPORT. Scrub passes, patrol reads and write-backs (R511, R517, R518), and the statement on memory. -/

namespace Sys2Proof.Machine

/-! ### A tile's SRAM -/

/-- The counts of a region: no tile, no word of device memory and no pass changes. -/
structure CountsOnly (s t : State) : Prop where
  facet : t.facet = s.facet
  dram : t.mem.dram = s.mem.dram
  passes : t.mem.passes = s.mem.passes
  passAt : t.mem.passAt = s.mem.passAt

namespace CountsOnly
variable {s t u : State}

theorem refl (s : State) : CountsOnly s s := ⟨rfl, rfl, rfl, rfl⟩

theorem trans (h : CountsOnly s t) (g : CountsOnly t u) : CountsOnly s u :=
  ⟨g.facet.trans h.facet, g.dram.trans h.dram, g.passes.trans h.passes, g.passAt.trans h.passAt⟩

theorem regsHost (h : t = { s with regs := t.regs, host := t.host }) : CountsOnly s t := by rw [h]; exact ⟨rfl, rfl, rfl, rfl⟩

theorem regionSet (s : State) (r : Nat) (x : EccCount) : CountsOnly s (regionSet s r x) := ⟨rfl, rfl, rfl, rfl⟩

theorem regionCe (s : State) (r w : Nat) : CountsOnly s (regionCe s r w) := by
  unfold Machine.regionCe
  dsimp only
  split
  · exact (regionSet ..).trans (regsHost (pageIrq_shape ..))
  · exact regionSet ..

theorem regionUe (s : State) (r w part : Nat) : CountsOnly s (regionUe s r w part) :=
  ((regionSet ..).trans (regsHost (capture_shape ..))).trans (regsHost (pageIrq_shape ..))

end CountsOnly

/-- A scrub of a word of a tile: only that tile's SRAM and the region's counts change, other words stay, and the word is sound. -/
structure TileScrubbed (i w : Nat) (s t : State) : Prop where
  dram : t.mem.dram = s.mem.dram
  passes : t.mem.passes = s.mem.passes
  passAt : t.mem.passAt = s.mem.passAt
  other : ∀ v, v ≠ w → (tileGet t i).sram.raw v = (tileGet s i).sram.raw v
  sound : Sound ((tileGet t i).sram.cls w)

theorem tileScrub_scrubs (s : State) (i w : Nat) : TileScrubbed i w s (tileScrub s i w) := by
  have hput : ∀ {t : State} (d : DWord) (p : Bool), CountsOnly s t →
      TileScrubbed i w s (tileSet t i { tileGet s i with sram := (tileGet s i).sram.put w d p }) := fun d p h => by
    refine ⟨h.dram, h.passes, h.passAt, fun v hv => ?_, ?_⟩
    · rw [tileGet_tileSet_same]
      exact Mem.raw_put_ne _ _ _ hv
    · rw [tileGet_tileSet_same]
      exact Mem.put_sound ..
  unfold tileScrub
  dsimp only
  cases hc : (tileGet s i).sram.cls w with
  | clean => exact ⟨rfl, rfl, rfl, fun _ _ => rfl, .inl hc⟩
  | poison => exact ⟨rfl, rfl, rfl, fun _ _ => rfl, .inr hc⟩
  | ceData b => exact hput _ _ (.regionCe ..)
  | ceCheck => exact hput _ _ (.regionCe ..)
  | ue => exact hput _ _ (.regionUe ..)

/-- Scrubs of a list of words leave none of them with an error that is not marked. -/
theorem eachTileScrub_sound (i : Nat) (l : List Nat) (s : State) {v : Nat} (h : v ∈ l ∨ Sound ((tileGet s i).sram.cls v)) :
    Sound ((tileGet (eachIn l (fun s w => tileScrub s i w) s) i).sram.cls v) := by
  induction l generalizing s with
  | nil => exact h.resolve_left List.not_mem_nil
  | cons w l ih =>
    have hscrub := tileScrub_scrubs s i w
    refine ih (tileScrub s i w) ?_
    by_cases hw : v = w
    · subst hw
      exact .inr hscrub.sound
    · obtain hl | hs := h
      · exact .inl ((List.mem_cons.mp hl).resolve_left hw)
      · rw [Mem.cls_congr (hscrub.other v hw)]
        exact .inr hs

theorem eachTileScrub_leaves (i : Nat) (l : List Nat) (s : State) :
    let t := eachIn l (fun s w => tileScrub s i w) s
    t.mem.dram = s.mem.dram ∧ t.mem.passes = s.mem.passes ∧ t.mem.passAt = s.mem.passAt :=
  eachIn_rel (R := fun s t => t.mem.dram = s.mem.dram ∧ t.mem.passes = s.mem.passes ∧ t.mem.passAt = s.mem.passAt) (fun _ => ⟨rfl, rfl, rfl⟩)
    (fun h g => ⟨g.1.trans h.1, g.2.1.trans h.2.1, g.2.2.trans h.2.2⟩)
    (fun t w _ => ⟨(tileScrub_scrubs t i w).dram, (tileScrub_scrubs t i w).passes, (tileScrub_scrubs t i w).passAt⟩) s

/-! ### Words that list a cell -/

theorem find?_foldl_ins {α β : Type} (key : α → Nat) (val : α → β) (l : List α) (t : Tab β) (k : Nat)
    (h : Tab.find? t k ≠ none ∨ ∃ a ∈ l, key a = k) : Tab.find? (l.foldl (fun t a => Tab.ins t (key a) (val a)) t) k ≠ none := by
  induction l generalizing t with
  | nil => exact h.resolve_right (by simp)
  | cons a l ih =>
    refine ih (Tab.ins t (key a) (val a)) ?_
    by_cases ha : key a = k
    · subst ha
      exact .inl (by simp)
    · rw [Tab.find?_ins_ne _ _ (Ne.symm ha)]
      exact h.imp id fun ⟨b, hb, hk⟩ => ⟨b, (List.mem_cons.mp hb).resolve_left (fun e => ha (e ▸ hk)), hk⟩

/-- A cell that differs from the default is listed. -/
theorem cell_listed {t : Tab Byte} {k : Nat} (h : Tab.get t 0 k ≠ 0) : ∃ a ∈ t, a.1 = k := by
  cases hf : Tab.find? t k with
  | none => exact absurd (by rw [Tab.get, hf]; rfl) h
  | some v => exact ⟨_, Tab.mem_of_find? hf, rfl⟩

/-- A word that lists no cell is clean. -/
theorem Mem.clean_of_unlisted (m : Mem) {w : Nat} (h : w ∉ m.listed) : m.cls w = .clean := by
  have hnone : Tab.find? (m.checks.foldl (fun (t : Tab Unit) c => t.ins c.1 ()) (m.bytes.foldl (fun (t : Tab Unit) c => t.ins (c.1 / 8) ()) [])) w = none := by
    cases hf : Tab.find? (m.checks.foldl (fun (t : Tab Unit) c => t.ins c.1 ()) (m.bytes.foldl (fun (t : Tab Unit) c => t.ins (c.1 / 8) ()) [])) w with
    | none => rfl
    | some v => exact absurd (List.mem_map_of_mem (f := Prod.fst) (Tab.mem_of_find? hf)) h
  have hcheck : Tab.get m.checks 0 w = 0 := by
    by_contra hne
    exact find?_foldl_ins Prod.fst (fun _ => ()) m.checks _ w (.inr (cell_listed hne)) hnone
  have hbyte : ∀ k, k < 8 → Tab.get m.bytes 0 (8 * w + k) = 0 := fun k hk => by
    by_contra hne
    obtain ⟨a, ha, hak⟩ := cell_listed hne
    exact find?_foldl_ins Prod.fst (fun _ => ()) m.checks _ w (.inl (find?_foldl_ins (fun c => c.1 / 8) (fun _ => ()) m.bytes [] w (.inr ⟨a, ha, by omega⟩))) hnone
  have hraw : m.raw w = (0, 0) := by
    rw [raw, hcheck, List.map_congr_left (g := fun _ => (0 : Byte)) fun k hk => hbyte k (List.mem_range.mp hk)]
    rfl
  rw [cls, hraw]
  decide +kernel

/-! ### A scrub pass -/

/-- A pass of a region is counted. -/
def passNoted (s : State) (region : Nat) : State :=
  memSet s { s.mem with passAt := s.mem.passAt.set 0 region (s.now / 2 ^ 24 + 1), passes := s.mem.passes.set 0 region (s.mem.passes.get 0 region + 1) }

/-- The words of a region are scrubbed, with the bits that have been inverted. -/
def passWords (s : State) (region : Nat) (ok : List (Nat × Nat)) : State :=
  if region < s.var.facetTiles then
    eachIn (tileGet (eachIn ok (fun s f => tileSet s region { tileGet s region with sram := (tileGet s region).sram.upset f.1 f.2 }) s) region).sram.listed
      (fun s w => tileScrub s region w)
      (eachIn ok (fun s f => tileSet s region { tileGet s region with sram := (tileGet s region).sram.upset f.1 f.2 }) s)
  else
    eachIn (ok.foldl (fun (t : Tab (List Nat)) f => t.ins f.1 (f.2 :: t.get [] f.1)) []) (fun s f => upsetScrub s region f.1 f.2) s

theorem scrubPass_next {s : State} {region : Nat} (flips : List (Nat × Nat)) (hb : regionBuilt s.var region = true) (ha : asleep s = false)
    (hp : s.mem.passAt.get 0 region ≠ s.now / 2 ^ 24 + 1) :
    execScrubPass region flips s =
      .next (passWords (passNoted s region) region (flips.filter fun f => decide (f.1 < regionWords region) && decide (f.2 < 72))) := by
  unfold execScrubPass nxt
  rw [if_neg (by simp only [hb, ha, not_true, Bool.false_eq_true, false_or]; exact hp)]
  rfl

theorem upsetScrub_only (s : State) (r w : Nat) (bits : List Nat) : CountsOnly s (upsetScrub s r w bits) := by
  unfold upsetScrub
  split
  · exact .refl s
  · exact .refl s
  · exact .regionCe ..
  · exact .regionCe ..
  · exact .regionUe ..

theorem passWords_leaves (s : State) (region : Nat) (ok : List (Nat × Nat)) :
    (passWords s region ok).mem.dram = s.mem.dram ∧ (passWords s region ok).mem.passes = s.mem.passes ∧
      (passWords s region ok).mem.passAt = s.mem.passAt := by
  unfold passWords
  split
  · have hupset := eachIn_rel (R := fun s t => t.mem = s.mem) (l := ok)
      (f := fun s f => tileSet s region { tileGet s region with sram := (tileGet s region).sram.upset f.1 f.2 })
      (fun _ => rfl) (fun h g => g.trans h) (fun _ _ _ => rfl) s
    rw [← hupset]
    exact eachTileScrub_leaves ..
  · have hcounts := eachIn_rel (R := CountsOnly) (l := ok.foldl (fun (t : Tab (List Nat)) f => t.ins f.1 (f.2 :: t.get [] f.1)) [])
      (f := fun s f => upsetScrub s region f.1 f.2) .refl .trans (fun t f _ => upsetScrub_only t region f.1 f.2) s
    exact ⟨hcounts.dram, hcounts.passes, hcounts.passAt⟩

/-- After a pass no word of a tile has an error that is not marked. -/
theorem passWords_sound {s : State} {region : Nat} (ok : List (Nat × Nat)) (h : region < s.var.facetTiles) (w : Nat) :
    Sound ((tileGet (passWords s region ok) region).sram.cls w) := by
  rw [passWords, if_pos h]
  refine eachTileScrub_sound _ _ _ ?_
  rw [or_iff_not_imp_left]
  exact fun hw => .inl (Mem.clean_of_unlisted _ hw)

/-! ### A patrol read -/

/-- Bits of a block that have been inverted. -/
def blockUpset (w : Nat) (l : List (Nat × Nat)) (s : State) : State :=
  eachIn l (fun s f => memSet s { s.mem with dram := s.mem.dram.upset (w + f.1) f.2 }) s

/-- The block of 16 words from a word on is scrubbed. -/
def blockScrubbed (w : Nat) (s : State) : State := eachIn ((List.range 16).map (w + ·)) (fun s w => (dramScrub s w 0).2) s

theorem mem_block (w v : Nat) : v ∈ (List.range 16).map (w + ·) ↔ w ≤ v ∧ v < w + 16 := by
  simp only [List.mem_map, List.mem_range]
  exact ⟨fun ⟨k, hk, e⟩ => by omega, fun h => ⟨v - w, by omega, by omega⟩⟩

theorem blockScrubbed_only (w : Nat) (s : State) : DramOnly s (blockScrubbed w s) := eachScrub_only ..

theorem blockScrubbed_ne {w v : Nat} (s : State) (h : v < w ∨ w + 16 ≤ v) : (blockScrubbed w s).mem.dram.raw v = s.mem.dram.raw v := by
  rw [blockScrubbed]
  exact eachScrub_ne 0 _ s (by rw [mem_block]; omega)

theorem blockScrubbed_sound {w k : Nat} {s : State} (hk : k < 16) (hg : wordGone s (w + k) = false) :
    Sound ((blockScrubbed w s).mem.dram.cls (w + k)) := by
  rw [blockScrubbed]
  exact eachScrub_sound 0 _ s hg (.inl (by rw [mem_block]; omega))

/-- The next block of the patrol is noted. -/
def patrolMoved (ch off : Nat) (s : State) : State :=
  memSet s { s.mem with patrol := s.mem.patrol.set 0 ch (if off + 128 < chanData s then off + 128 else 0) }

theorem blockUpset_leaves (w : Nat) (l : List (Nat × Nat)) (hl : ∀ f ∈ l, f.1 < 16) (s : State) :
    DramOnly s (blockUpset w l s) ∧ ∀ v, v < w ∨ w + 16 ≤ v → (blockUpset w l s).mem.dram.raw v = s.mem.dram.raw v :=
  eachIn_rel (R := fun s t => DramOnly s t ∧ ∀ v, v < w ∨ w + 16 ≤ v → t.mem.dram.raw v = s.mem.dram.raw v) (fun s => ⟨.refl s, fun _ _ => rfl⟩)
    (fun h g => ⟨h.1.trans g.1, fun v hv => (g.2 v hv).trans (h.2 v hv)⟩)
    (fun t f hf => ⟨(DramOnly.refl t).words, fun v hv => Mem.raw_upset_ne _ _ (by have := hl f hf; omega)⟩) s

theorem patrolRead_next {s : State} {ch : Nat} (flips : List (Nat × Nat)) (hg : chanGone s ch = false) (ha : asleep s = false)
    (hc : (phaseGet s ch).closed = false) (hi : s.fget (memPage ch) F.MEMC_PATROL_INTERVAL ≠ 0) :
    execPatrolRead ch flips s = .next (patrolMoved ch (s.mem.patrol.get 0 ch) (blockScrubbed (memAddr s ch (s.mem.patrol.get 0 ch) / 8)
      (blockUpset (memAddr s ch (s.mem.patrol.get 0 ch) / 8) (flips.filter fun f => decide (f.1 < 16) && decide (f.2 < 72)) s))) := by
  unfold execPatrolRead nxt
  rw [if_neg (by simp [hg, ha, hc, hi])]
  have hscrubbed : ∀ t, blockScrubbed (memAddr s ch (s.mem.patrol.get 0 ch) / 8) t =
      eachIn (List.range 16) (fun s' k => (dramScrub s' (memAddr s ch (s.mem.patrol.get 0 ch) / 8 + k) 0).2) t := fun _ => List.foldl_map
  rw [hscrubbed]
  unfold patrolMoved blockUpset
  exact congrArg Host.Outcome.next rfl

/-- The patrol goes on with the next block and changes no word. -/
theorem patrolMoved_shows (ch off : Nat) (s : State) :
    (patrolMoved ch off s).mem.patrol.get 0 ch = (if off + 128 < chanData s then off + 128 else 0) ∧
      (patrolMoved ch off s).mem.dram = s.mem.dram := ⟨Tab.get_set_same .., rfl⟩

/-- A patrol read leaves no word of its block with an error that is not marked, and no other word changed. -/
theorem patrolRead_scrubs {s : State} {ch w : Nat} (off : Nat) (l : List (Nat × Nat)) (hl : ∀ f ∈ l, f.1 < 16) (hg : chanGone s ch = false)
    (hp : ∀ k, k < 16 → (memPlace s (8 * (w + k))).1 = ch) :
    let t := patrolMoved ch off (blockScrubbed w (blockUpset w l s))
    t.mem.patrol.get 0 ch = (if off + 128 < chanData s then off + 128 else 0) ∧
      (∀ k, k < 16 → Sound (t.mem.dram.cls (w + k))) ∧ ∀ v, v < w ∨ w + 16 ≤ v → t.mem.dram.raw v = s.mem.dram.raw v := by
  obtain ⟨honly, hother⟩ := blockUpset_leaves w l hl s
  have hscrub : DramOnly s (blockScrubbed w (blockUpset w l s)) := honly.trans (blockScrubbed_only ..)
  have hdata : chanData (blockScrubbed w (blockUpset w l s)) = chanData s := by rw [chanData, hscrub.shape, chanData]
  obtain ⟨hnext, hdram⟩ := patrolMoved_shows ch off (blockScrubbed w (blockUpset w l s))
  dsimp only
  rw [hdram]
  refine ⟨by rw [hnext, hdata], fun k hk => ?_, fun v hv => ?_⟩
  · refine blockScrubbed_sound hk ?_
    rw [wordGone, honly.memPlace, honly.chanGone, hp k hk]
    exact hg
  · exact (blockScrubbed_ne _ hv).trans (hother v hv)

/-! ### A write-back -/

theorem repairWriteback_chan {s : State} {queue w b : Nat} {rest : List Nat} (hq : s.mem.repair.get [] queue = w :: rest) (h : queue < 16)
    (hc : (phaseGet s queue).closed = false) (hw : s.mem.dram.cls w = .ceData b) :
    let d := flipBit (s.mem.dram.raw w).1 b
    ∃ t, execRepairWriteback queue s = .next t ∧ t = { s with mem := t.mem } ∧ t.mem.repair.get [] queue = rest ∧
      t.mem.dram.raw w = (d, eccCheck d) ∧ ∀ v, v ≠ w → t.mem.dram.raw v = s.mem.dram.raw v := by
  intro d
  have hexec : execRepairWriteback queue s =
      .next (memSet s { s.mem with dram := s.mem.dram.put w d false, repair := s.mem.repair.set [] queue rest }) := by
    unfold execRepairWriteback nxt
    simp only [hq, h, if_true, hc, Bool.false_eq_true, if_false, hw]
    rfl
  exact ⟨_, hexec, rfl, Tab.get_set_same .., Mem.raw_put_same .., fun v hv => Mem.raw_put_ne _ _ _ hv⟩

theorem repairWriteback_tile {s : State} {queue w b : Nat} {rest : List Nat} (hq : s.mem.repair.get [] queue = w :: rest) (h : 16 ≤ queue)
    (hw : (tileGet s (queue - 16)).sram.cls w = .ceData b) :
    let d := flipBit ((tileGet s (queue - 16)).sram.raw w).1 b
    ∃ t, execRepairWriteback queue s = .next t ∧ t = { s with mem := t.mem, facet := t.facet } ∧ t.mem.repair.get [] queue = rest ∧
      (tileGet t (queue - 16)).sram.raw w = (d, eccCheck d) := by
  intro d
  have hexec : execRepairWriteback queue s = .next (memSet (tileSet s (queue - 16) { tileGet s (queue - 16) with
      sram := (tileGet s (queue - 16)).sram.put w d false }) { s.mem with repair := s.mem.repair.set [] queue rest }) := by
    unfold execRepairWriteback nxt
    simp only [hq, show ¬ queue < 16 by omega, if_false, hw]
    rfl
  refine ⟨_, hexec, rfl, Tab.get_set_same .., ?_⟩
  have htile : tileGet (memSet (tileSet s (queue - 16) { tileGet s (queue - 16) with sram := (tileGet s (queue - 16)).sram.put w d false })
      { s.mem with repair := s.mem.repair.set [] queue rest }) (queue - 16) =
      { tileGet s (queue - 16) with sram := (tileGet s (queue - 16)).sram.put w d false } := tileGet_tileSet_same ..
  rw [htile]
  exact Mem.raw_put_same ..

end Sys2Proof.Machine
end

section
/-! SUPPORT. The statement on memory (O56), part by part. -/

namespace Sys2Proof.Machine

section
variable {s : State} {j : Nat} {x : Job}

/-- A fill ends; where it writes whole words of channels in use, they and nothing else change. -/
theorem memFill_fills (hr : s.part.resets.find? x.part = none) (hm : memReady s = true) (hc : memCheck s x = stOk) (hx : x.cancel = false)
    (hh : memHeld s x = false) (h : startedJob s j 0x61 = some x) :
    let dst := payBits x 128 64
    let len := payBits x 192 32
    ∃ t, exec (.memFill j) s = .next t ∧ Ends t j x stOk len ∧
      (dst % 8 = 0 → len % 8 = 0 → (∀ i, i < len / 8 → chanGone s (memPlace s (dst + 8 * i)).1 = false) →
        let d := BitVec.ofNat 64 (payBits x 256 64)
        t = { s with mem := t.mem, qe := { s.qe with jobs := t.qe.jobs } } ∧ (∀ i, i < len / 8 → t.mem.dram.raw (dst / 8 + i) = (d, eccCheck d)) ∧
          ∀ w, w < dst / 8 ∨ dst / 8 + len / 8 ≤ w → t.mem.dram.raw w = s.mem.dram.raw w) := by
  have hjob := jobGet_of_started h
  have honly := dramStore_only s x.part (payBits x 128 64) ((List.range (payBits x 192 32)).map fun i =>
    BitVec.ofNat 8 (payBits x (256 + 8 * ((payBits x 128 64 + i) % 8)) 8)) []
  refine ⟨_, memFill_next h hm hc hx hh, honly.ends hjob hr _ _, fun hd hl hg => ?_⟩
  rw [honly.done hjob hr]
  rw [fill_words s x hd hl] at honly ⊢
  obtain ⟨⟨-, hshape, hother⟩, hheld⟩ := eachWrite_stores s (BitVec.ofNat 64 (payBits x 256 64)) (payBits x 128 64 / 8) (payBits x 192 32 / 8)
    fun i hi => by rw [wordGone, show 8 * (payBits x 128 64 / 8 + i) = payBits x 128 64 + 8 * i by omega]; exact hg i hi
  refine ⟨?_, hheld, fun w hw => hother w ?_⟩
  · rw [hshape]
  · simp only [List.mem_map, List.mem_range]
    rintro ⟨i, hi, rfl⟩
    omega

/-- A copy of one segment: from the host, to the host, and within device memory. -/
theorem memCopy_first (hr : s.part.resets.find? x.part = none) (hm : memReady s = true) (hc : memCheck s x = stOk) (hx : x.cancel = false)
    (hh : memHeld s x = false) (h : startedJob s j 0x60 = some x) (he : x.entries.length = 1) (hs : x.stage = 0) (ha : x.aux = 0) :
    let dst := payBits x 128 64
    let len := payBits x 192 32
    let dir := payBits x 32 2
    let src := payBits x 64 64
    (dir = 0 → x.data = none → HostHears s x.part →
      ∃ t, exec (.memCopy j) s = .next t ∧ t = { s with host := t.host, qe := { s.qe with jobs := t.qe.jobs } } ∧
        jobGet t j = some { x with stage := 1 } ∧ t.host.out = .read x.part src len :: s.host.out) ∧
    (dir ≠ 0 → ∀ bs u, dramLoad s x.part src len = (bs, u) → (∀ b ∈ bs, b.isSome = true) →
      let data := bs.map fun b => b.getD 0
      (dir = 1 → HostHears s x.part → ∃ t, exec (.memCopy j) s = .next t ∧ Ends t j x stOk bs.length ∧ t.mem = u.mem ∧
        t.host.out = .write x.part dst data :: u.host.out) ∧
      (dir = 2 → ∃ t, exec (.memCopy j) s = .next t ∧ Ends t j x stOk len ∧ t.mem = (dramStore u x.part dst data []).mem)) := by
  have hjob := jobGet_of_started h
  have hnext : exec (.memCopy j) s = .next (copyFrom s j x 1 0 0) := memCopy_next h hm hc hx hh he ha fun h1 => by omega
  refine ⟨fun hdir hd hhost => ?_, fun _ bs u hl hb => ⟨fun hdir hhost => ?_, fun hdir => ?_⟩⟩
  · rw [copyFrom_asks hjob hdir hd ha hhost] at hnext
    exact ⟨_, hnext, rfl, jobGet_jobSet_same .., rfl⟩
  · have hload := dramLoad_only s x.part (payBits x 64 64) (payBits x 192 32)
    rw [hl] at hload
    have hne : payBits x 192 32 ≠ 0 := by
      have hf := fieldsOk_of_memCheck hc
      obtain ⟨-, hop⟩ := started_fields h
      simp only [memFieldsOk, hop, if_true, he, List.range_one, List.all_cons, List.all_nil, Bool.and_true, payBitsAt_first, Bool.and_eq_true,
        bne_iff_ne] at hf
      exact hf.2
    rw [copyFrom_sends hdir hl hb hne (hload.hears hhost)] at hnext
    have hsent : DramOnly s { u with host := { u.host with out := .write x.part (payBits x 128 64) (bs.map fun b => b.getD 0) :: u.host.out } } :=
      hload.regsHost rfl (fun _ => rfl) rfl
    refine ⟨_, hnext, hsent.ends hjob hr _ _, ?_, ?_⟩ <;> rw [hsent.done hjob hr]
  · have hload := dramLoad_only s x.part (payBits x 64 64) (payBits x 192 32)
    rw [hl] at hload
    have hstored := hload.trans (dramStore_only u x.part (payBits x 128 64) (bs.map fun b => b.getD 0) [])
    rw [copyFrom_moves hdir hl hb] at hnext
    refine ⟨_, hnext, hstored.ends hjob hr _ _, ?_⟩
    rw [hstored.done hjob hr]

/-- A copy from the host whose data are there stores them. -/
theorem memCopy_data {d : List Byte} (hr : s.part.resets.find? x.part = none) (hm : memReady s = true) (hc : memCheck s x = stOk)
    (hx : x.cancel = false) (hh : memHeld s x = false) (h : startedJob s j 0x60 = some x) (he : x.entries.length = 1) (ha : x.aux = 0)
    (hdir : payBits x 32 2 = 0) (hd : x.data = some (.good d [])) :
    ∃ t, exec (.memCopy j) s = .next t ∧ Ends t j x stOk (payBits x 192 32) ∧
      t.mem = (dramStore s x.part (payBits x 128 64) (d.take (payBits x 192 32)) []).mem := by
  have hjob := jobGet_of_started h
  have honly := dramStore_only s x.part (payBits x 128 64) (d.take (payBits x 192 32)) []
  have hnext : exec (.memCopy j) s = .next (copyFrom s j x 1 0 0) := memCopy_next h hm hc hx hh he ha fun _ => by simp [hd]
  rw [copyFrom_stores hjob hdir hd] at hnext
  have hset : jobGet (jobSet (dramStore s x.part (payBits x 128 64) (d.take (payBits x 192 32)) []) j { x with data := none }) j =
      some { x with data := none } := jobGet_jobSet_same ..
  have hlive : (jobSet (dramStore s x.part (payBits x 128 64) (d.take (payBits x 192 32)) []) j { x with data := none }).part.resets.find?
      x.part = none := by
    rw [jobSet_part, honly.part]
    exact hr
  have hends := jobDone_ends (x := { x with data := none }) stOk (payBits x 192 32) hset hlive
  refine ⟨_, hnext, hends, ?_⟩
  rw [jobDone_changes (x := { x with data := none }) _ _ hset hlive]
  rfl

theorem length_filter_map_add (p : Nat → Bool) (a n : Nat) : (((List.range n).map (a + ·)).filter p).length = ((List.range n).filter fun i => p (a + i)).length := by
  rw [List.filter_map, List.length_map]
  rfl

/-- A check counts what it finds, and leaves no error that is not marked. -/
theorem memCheck_checks (hr : s.part.resets.find? x.part = none) (hm : memReady s = true) (hc : memCheck s x = stOk) (hx : x.cancel = false)
    (hh : memHeld s x = false) (h : startedJob s j 0x62 = some x) :
    let dst := payBits x 128 64
    let len := payBits x 192 32
    let ws := (List.range ((dst + len - 1) / 8 - dst / 8 + 1)).map (dst / 8 + ·)
    let found := fun (k : Nat) => min ((ws.filter fun w => (dramScrub s w x.part).1 == k).length) 0xFFFF
    ∃ t, exec (.memCheck j) s = .next t ∧ Ends t j x stOk (found 1 + found 2 * 2 ^ 16) ∧
      (∀ w ∈ ws, chanGone s (memPlace s (8 * w)).1 = false → Sound (t.mem.dram.cls w)) ∧ ∀ w, w ∉ ws → t.mem.dram.raw w = s.mem.dram.raw w := by
  intro dst len ws found
  have hjob := jobGet_of_started h
  have hfound : ∀ k, found k = min (foundIn s (dst / 8) ((dst + len - 1) / 8 - dst / 8 + 1) k) 0xFFFF := fun k => by
    simp only [found, ws, dramScrub_found, length_filter_map_add, foundIn]
  have hnext := memCheck_next h hm hc hx hh
  dsimp only at hnext
  rw [checkWords, ← hfound, ← hfound] at hnext
  have honly := eachScrub_only x.part ws s
  refine ⟨_, hnext, honly.ends hjob hr _ _, ?_⟩
  rw [honly.done hjob hr]
  exact ⟨fun w hw hg => eachScrub_sound x.part ws s hg (.inl hw), fun w hw => eachScrub_ne x.part ws s hw⟩

/-- An injection damages its word alone. -/
theorem memInject_damages (hr : s.part.resets.find? x.part = none) (hm : memReady s = true) (hc : memCheck s x = stOk) (hx : x.cancel = false)
    (hh : memHeld s x = false) (h : startedJob s j 0x63 = some x) (hg : chanGone s (memPlace s (8 * (payBits x 128 64 / 8))).1 = false) :
    let w := payBits x 128 64 / 8
    let b := payBits x 40 6
    let d := (s.mem.dram.raw w).1
    let c := (s.mem.dram.raw w).2
    ∃ t, exec (.memInject j) s = .next t ∧ t = { s with mem := { s.mem with dram := t.mem.dram }, qe := { s.qe with jobs := t.qe.jobs } } ∧
      Ends t j x stOk 0 ∧ (∀ k, k ≠ w → t.mem.dram.raw k = s.mem.dram.raw k) ∧
      t.mem.dram.raw w = if payBits x 34 2 = 0 then (flipBit d b, c) else if payBits x 34 2 = 1 then (flipBit (flipBit d b) ((b + 1) % 64), c)
        else (d, eccCheck d ^^^ 0xFF) := by
  have hjob := jobGet_of_started h
  have hdone := jobDone_changes (s := memSet s { s.mem with dram := injected s x }) stOk 0 hjob hr
  refine ⟨_, memInject_next h hm hc hx hh hg, ?_, jobDone_ends stOk 0 hjob hr, ?_⟩
  · rw [hdone]
    rfl
  · rw [hdone]
    exact ⟨fun k hk => injected_ne s x hk, injected_word s x⟩

end

theorem passNoted_shows (s : State) (region : Nat) :
    (passNoted s region).mem.dram = s.mem.dram ∧ (passNoted s region).mem.passes.get 0 region = s.mem.passes.get 0 region + 1 ∧
      (passNoted s region).mem.passAt.get 0 region = s.now / 2 ^ 24 + 1 ∧ (passNoted s region).var = s.var :=
  ⟨rfl, by rw [passNoted, memSet_mem, Tab.get_set_same], by rw [passNoted, memSet_mem, Tab.get_set_same], rfl⟩

theorem scrubPass_done {s : State} {region : Nat} (flips : List (Nat × Nat)) (hb : regionBuilt s.var region = true) (ha : asleep s = false)
    (hp : s.mem.passAt.get 0 region ≠ s.now / 2 ^ 24 + 1) :
    ∃ t, exec (.scrubPass region flips) s = .next t ∧ t.mem.passes.get 0 region = s.mem.passes.get 0 region + 1 ∧
      t.mem.passAt.get 0 region = s.now / 2 ^ 24 + 1 ∧ t.mem.dram = s.mem.dram ∧
      (region < s.var.facetTiles → ∀ w, Sound ((tileGet t region).sram.cls w)) := by
  have hnext : exec (.scrubPass region flips) s = execScrubPass region flips s := rfl
  rw [hnext, scrubPass_next flips hb ha hp]
  obtain ⟨hdram, hpass, hpassAt, hvar⟩ := passNoted_shows s region
  rw [← hdram, ← hpass, ← hpassAt, ← hvar]
  generalize passNoted s region = u
  generalize (flips.filter fun f => decide (f.1 < regionWords region) && decide (f.2 < 72)) = ok
  obtain ⟨hd, hps, hat⟩ := passWords_leaves u region ok
  exact ⟨_, rfl, by rw [hps], by rw [hat], hd, fun hr w => passWords_sound ok hr w⟩

theorem patrolRead_done {s : State} {ch : Nat} (flips : List (Nat × Nat)) (hg : chanGone s ch = false) (ha : asleep s = false)
    (hc : (phaseGet s ch).closed = false) (hi : s.fget (memPage ch) F.MEMC_PATROL_INTERVAL ≠ 0)
    (hp : ∀ k, k < 16 → (memPlace s (8 * (memAddr s ch (s.mem.patrol.get 0 ch) / 8 + k))).1 = ch) :
    let off := s.mem.patrol.get 0 ch
    let w := memAddr s ch off / 8
    ∃ t, exec (.patrolRead ch flips) s = .next t ∧ t.mem.patrol.get 0 ch = (if off + 128 < chanData s then off + 128 else 0) ∧
      (∀ k, k < 16 → Sound (t.mem.dram.cls (w + k))) ∧ ∀ v, v < w ∨ w + 16 ≤ v → t.mem.dram.raw v = s.mem.dram.raw v := by
  have hflips : ∀ f ∈ flips.filter fun f => decide (f.1 < 16) && decide (f.2 < 72), f.1 < 16 := fun f hf => by
    simp only [List.mem_filter, Bool.and_eq_true, decide_eq_true_eq] at hf
    exact hf.2.1
  have hscrubs := patrolRead_scrubs (s.mem.patrol.get 0 ch) _ hflips hg hp
  have hnext : exec (.patrolRead ch flips) s = execPatrolRead ch flips s := rfl
  rw [hnext, patrolRead_next flips hg ha hc hi]
  exact ⟨_, rfl, hscrubs⟩

/-- Settles O56: a memory job reads, writes and scrubs words one by one, each access leaving every other word and every channel's service as it was;
training, passes and write-backs likewise. -/
theorem memoryJobsAndScrubbing : Obligations.MemoryJobsAndScrubbing := by
  unfold Obligations.MemoryJobsAndScrubbing
  refine ⟨fun s j x res h hp hs hd hr hw => hostReadCompletion_next res h hp hs hd hr hw, fun s j x hr hm => ⟨?fails, fun hc hx hh => ⟨?_, ?_, ?_, ?_, ?_⟩⟩,
    fun s part h => ⟨memcInit_next h, sramClrSelected_next h, sramClrAll_next h⟩, fun s part p hp h => memcClr_next hp h, ?trains, ?pass, ?patrol,
    fun s queue w rest b hq => ⟨fun h hc hw => repairWriteback_chan hq h hc hw, fun h hw => repairWriteback_tile hq h hw⟩⟩
  case fails =>
    intro e he h hs hc
    refine ⟨_, memJob_fails e.1 he h hs hm hc, jobDone_changes _ _ (jobGet_of_started h) hr, jobDone_ends _ _ (jobGet_of_started h) hr⟩
  · exact fun h => memFill_fills hr hm hc hx hh h
  · exact fun h he hs ha => memCopy_first hr hm hc hx hh h he hs ha
  · exact fun d h he _ ha hdir hd => memCopy_data hr hm hc hx hh h he ha hdir hd
  · exact fun h => memCheck_checks hr hm hc hx hh h
  · exact fun h hg => memInject_damages hr hm hc hx hh h hg
  case trains =>
    intro s caps hu hd hw
    obtain ⟨t, hnext, hshape, hzero, hchans⟩ := memcInitDone_trains (caps := caps) hu hd hw
    refine ⟨t, hnext, hshape, hzero, fun c hc => ?_⟩
    obtain ⟨hlisted, hinit, hsize, hout⟩ := hchans c hc
    refine ⟨hinit, fun g hg => ?_, fun hnone => ?_⟩
    · have hfound : capFound caps c = some g := by rw [capFound, hg, Option.map_some]
      exact ⟨hlisted.trans hfound, hsize g hfound⟩
    · have hfound : capFound caps c = none := by
        rw [capFound, List.find?_eq_none.mpr fun x hx => by simp [hnone x hx], Option.map_none]
      exact ⟨hlisted.trans hfound, hout hfound⟩
  case pass =>
    intro s region flips hb ha hp
    exact scrubPass_done flips hb ha hp
  case patrol =>
    intro s ch flips
    exact fun hg ha hc hi hp => patrolRead_done flips hg ha hc hi hp

end Sys2Proof.Machine
end

section
/-! SUPPORT. Request Table entries (R441 to R449): what reads of an entry give after a change, releases, and reservations that the pool can supply. -/

namespace Sys2Proof.Machine

/-! ### Entries -/

/-- A key that is listed again keeps its place. -/
theorem Tab.ins_ins {α : Type} (t : Tab α) (k : Nat) (v w : α) : (t.ins k v).ins k w = t.ins k w := by
  induction t with
  | nil => simp [Tab.ins]
  | cons e t ih =>
    obtain ⟨q, u⟩ := e
    rcases Nat.lt_trichotomy k q with h | h | h
    · simp [Tab.ins, h]
    · simp [Tab.ins, h]
    · simp [Tab.ins, show ¬ k < q by omega, show k ≠ q by omega, ih]

/-- A key that is set twice reads as the second value. -/
theorem Tab.set_set {α : Type} [DecidableEq α] (t : Tab α) (d : α) (k : Nat) {v w : α} (hv : v ≠ d) (hw : w ≠ d) :
    (t.set d k v).set d k w = t.set d k w := by
  simp only [Tab.set, hv, hw, if_false, Tab.ins_ins]

@[simp] theorem reqGet_reqSet_same (s : State) (r : Nat) (x : Req) : reqGet (reqSet s r x) r = x := Tab.get_set_same ..

theorem reqGet_reqSet_ne (s : State) {r k : Nat} (x : Req) (h : k ≠ r) : reqGet (reqSet s r x) k = reqGet s k := Tab.get_set_ne _ _ _ x h

/-- The entries are those of the table alone. -/
theorem reqGet_congr {s t : State} (h : t.serve.reqs = s.serve.reqs) (r : Nat) : reqGet t r = reqGet s r := by rw [reqGet, h, reqGet]

theorem mslotGet_congr {s t : State} (h : t.serve.slots = s.serve.slots) (m : Nat) : mslotGet t m = mslotGet s m := by rw [mslotGet, h, mslotGet]

/-- An entry in use is not the default of an unlisted one. -/
theorem ne_default_of_state {x : Req} (h : x.state ≠ .free) : x ≠ {} := fun e => h (by rw [e])

/-- An entry that is set twice is as it is set last. -/
theorem reqSet_reqs_twice {s : State} {r : Nat} {x y : Req} (hx : x.state ≠ .free) (hy : y.state ≠ .free) :
    (reqSet (reqSet s r x) r y).serve.reqs = (reqSet s r y).serve.reqs :=
  Tab.set_set _ _ _ (ne_default_of_state hx) (ne_default_of_state hy)

/-- One entry of the Request Table changes, and nothing else. -/
structure EntryOnly (r : Nat) (s t : State) : Prop where
  shape : t = { s with serve := { s.serve with reqs := t.serve.reqs } }
  others : ∀ k, k ≠ r → reqGet t k = reqGet s k

namespace EntryOnly
variable {r : Nat} {s t u : State}

theorem refl (r : Nat) (s : State) : EntryOnly r s s := ⟨rfl, fun _ _ => rfl⟩

theorem trans (h : EntryOnly r s t) (g : EntryOnly r t u) : EntryOnly r s u :=
  ⟨g.shape.trans (by rw [h.shape]), fun k hk => (g.others k hk).trans (h.others k hk)⟩

theorem reqSet (h : EntryOnly r s t) (x : Req) : EntryOnly r s (reqSet t r x) := h.trans ⟨rfl, fun _ hk => reqGet_reqSet_ne t x hk⟩

theorem reqMod (h : EntryOnly r s t) (f : Req → Req) : EntryOnly r s (reqMod t r f) := h.reqSet _

end EntryOnly

theorem reqGet_reqMod_same (s : State) (r : Nat) (f : Req → Req) : reqGet (reqMod s r f) r = f (reqGet s r) := reqGet_reqSet_same ..

/-- What an end of a job leaves of the serving state. -/
theorem jobDone_serve (s : State) (j status result : Nat) : (jobDone s j status result).serve = s.serve := by rw [jobDone_shape]

/-! ### Releases -/

/-- A request without pages returns no page. -/
theorem releasePages_bare {s : State} {r : Nat} (hrow : (reqGet s r).row = []) (hcopies : (reqGet s r).copies = []) :
    releasePages s r = reqSet s r { reqGet s r with row := [], reserved := 0, granted := false, copies := [], path := [] } := by
  unfold releasePages reqMod
  simp only [hrow, hcopies]
  rfl

/-- The entry is FREE, and the others are as they were. -/
def entryFreed (s : State) (r : Nat) : State :=
  { releasePages s r with serve := { (releasePages s r).serve with reqs := (releasePages s r).serve.reqs.del r } }

/-- A request without pages, of a slot that is not unloading, is freed, and the jobs that wait to cancel it end. -/
theorem releaseReq_bare {s : State} {r : Nat} (hrow : (reqGet s r).row = []) (hcopies : (reqGet s r).copies = [])
    (hu : (mslotGet s (reqGet s r).slot).unload = none) :
    releaseReq s r = eachIn (reqGet s r).cancelJobs (fun s j => jobDone s j stOk 0) (entryFreed s r) := by
  have hx : reqGet (releasePages s r) r = { reqGet s r with row := [], reserved := 0, granted := false, copies := [], path := [] } := by
    rw [releasePages_bare hrow hcopies, reqGet_reqSet_same]
  have hserve : (eachIn (reqGet s r).cancelJobs (fun s j => jobDone s j stOk 0) (entryFreed s r)).serve = (entryFreed s r).serve :=
    eachIn_rel (R := fun s t => t.serve = s.serve) (fun _ => rfl) (fun h g => g.trans h) (fun t j _ => jobDone_serve ..) _
  have hslots : (entryFreed s r).serve.slots = s.serve.slots := by rw [entryFreed, releasePages_bare hrow hcopies]; rfl
  have hunload : (mslotGet (eachIn (reqGet s r).cancelJobs (fun s j => jobDone s j stOk 0) (entryFreed s r)) (reqGet s r).slot).unload = none := by
    rw [mslotGet_congr (s := s) (by rw [hserve, hslots]), hu]
  unfold releaseReq mslotSettle
  simp only [hx]
  rw [← entryFreed, hunload]
  dsimp only
  rw [hunload]

theorem entryFreed_shape {s : State} {r : Nat} (hrow : (reqGet s r).row = []) (hcopies : (reqGet s r).copies = []) :
    entryFreed s r = { s with serve := { s.serve with reqs := (entryFreed s r).serve.reqs } } := by
  rw [entryFreed, releasePages_bare hrow hcopies]
  rfl

theorem entryFreed_get {s : State} {r : Nat} (hrow : (reqGet s r).row = []) (hcopies : (reqGet s r).copies = []) :
    reqGet (entryFreed s r) r = {} ∧ ∀ k, k ≠ r → reqGet (entryFreed s r) k = reqGet s k := by
  have hget : ∀ k, reqGet (entryFreed s r) k = Tab.get ((releasePages s r).serve.reqs.del r) {} k := fun _ => rfl
  refine ⟨?_, fun k hk => ?_⟩
  · rw [hget, Tab.get, Tab.find?_del_same]
    rfl
  · rw [hget, Tab.get, Tab.find?_del_ne _ hk, releasePages_bare hrow hcopies]
    exact reqGet_reqSet_ne s _ hk

/-! ### Reservations -/

theorem waitingReqs_congr {s t : State} (h : t.serve.reqs = s.serve.reqs) (m : Nat) : waitingReqs t m = waitingReqs s m := by
  unfold waitingReqs
  rw [h]

theorem kvPromised_congr {s t : State} (h : t.serve.reqs = s.serve.reqs) : kvPromised t = kvPromised s := by rw [kvPromised, h, kvPromised]

theorem kvUse_congr {s t : State} (h : t.serve.reqs = s.serve.reqs) (hp : t.serve.pages = s.serve.pages) (part : Nat) : kvUse t part = kvUse s part := by
  rw [kvUse, h, hp, kvUse]

theorem kvFree_congr {s t : State} (hc : t.serve.pageChain = s.serve.pageChain) (hp : kvPages t = kvPages s) : kvFree t = kvFree s := by
  rw [kvFree, hc, hp, kvFree]

/-- Free pages supply a reservation without an eviction. -/
theorem kvSupply_free {s : State} {res other : Nat} (h : res + other ≤ kvFree s) : kvSupply s res other = (true, s) := by
  have hkeep : ∀ fuel, evictFor s res other fuel = s := fun fuel => by
    cases fuel with
    | zero => rfl
    | succ fuel => rw [evictFor, if_pos (.inl h)]
  unfold kvSupply
  dsimp only
  rw [hkeep, ite_self, decide_eq_true (.inr h)]

/-- A reservation that the pool and the partition can hold is asked of the pool by the request that is first in order. -/
theorem reserve_asks {s : State} {r res : Nat} (hp : res ≤ kvPages s)
    (hs : kvUse s (reqGet s r).part + res ≤ s.fget (pgPart + (reqGet s r).part) F.PART_SHARE0_KV_PAGES) :
    reserve s r res = if (waitingReqs (reqSet s r { reqGet s r with reserved := res }) (reqGet s r).slot).head? = some r then
      (trySupply (reqSet s r { reqGet s r with reserved := res }) r).2 else reqSet s r { reqGet s r with reserved := res } := by
  unfold reserve
  simp only [show ¬ kvPages s < res by omega, show ¬ s.fget (pgPart + (reqGet s r).part) F.PART_SHARE0_KV_PAGES < kvUse s (reqGet s r).part + res by omega,
    if_false]

/-- A request that copies no block of a prefix is as it was. -/
theorem copyBlocks_bare {s : State} {r : Nat} (hc : (reqGet s r).copies = []) :
    copyBlocks s r = reqSet s r { reqGet s r with copies := [], path := [] } := by
  unfold copyBlocks reqMod
  simp only [hc, eachIn, List.foldl_nil]

/-- A request whose reservation is supplied. -/
def givenPages (x : Req) : Req := { x with granted := true }

/-- Free pages supply a request that is first in order. -/
theorem trySupply_free {s : State} {r : Nat} (hl : ¬ ((reqGet s r).state = .queued ∧ (reqGet s r).looked = false))
    (h : (reqGet s r).reserved + kvPromised s ≤ kvFree s) :
    trySupply s r = (true, if (reqGet s r).state = .queued then
      reqMod (copyBlocks (reqMod s r givenPages) r) r fun x => { x with state := .prefill } else startRestore (reqMod s r givenPages) r) := by
  have hgiven : (reqMod s r fun x => { x with granted := true }) = reqMod s r givenPages := rfl
  unfold trySupply
  dsimp only
  rw [if_neg hl, kvSupply_free h]
  dsimp only
  rw [hgiven]
  split <;> rfl

/-- An admitted request without copies goes to PREFILL. -/
def toPrefill (x : Req) : Req := { x with granted := true, state := .prefill }

/-- The pool supplies an admitted request, and it goes to PREFILL. -/
theorem trySupply_prefill {s : State} {r : Nat} (hq : (reqGet s r).state = .queued) (hl : (reqGet s r).looked = true)
    (hc : (reqGet s r).copies = []) (hpath : (reqGet s r).path = []) (h : (reqGet s r).reserved + kvPromised s ≤ kvFree s) :
    ∃ t, trySupply s r = (true, t) ∧ EntryOnly r s t ∧ reqGet t r = toPrefill (reqGet s r) := by
  have hget : reqGet (reqMod s r givenPages) r = givenPages (reqGet s r) := reqGet_reqSet_same ..
  have hcopy := copyBlocks_bare (s := reqMod s r givenPages) (r := r) (by rw [hget]; exact hc)
  have hsame : ({ givenPages (reqGet s r) with copies := [], path := [] } : Req) = givenPages (reqGet s r) := by
    rw [givenPages, ← hc, ← hpath]
  rw [hget, hsame] at hcopy
  have htry := trySupply_free (s := s) (r := r) (by simp [hl]) h
  rw [if_pos hq, hcopy] at htry
  refine ⟨_, htry, (((EntryOnly.refl r s).reqMod _).reqSet _).reqMod _, ?_⟩
  rw [reqGet_reqMod_same, reqGet_reqSet_same]
  rfl

end Sys2Proof.Machine
end

section
/-! SUPPORT. The jobs of requests (R439 to R447, R459 to R464): submission, admission, cancels, pauses, resumptions and queries. -/

namespace Sys2Proof.Machine

/-! ### Submission -/

theorem reqSubmit_next {s : State} {j : Nat} {x : Job} (h : startedJob s j 0xA0 = some x) (ha : x.aux = 0) :
    execReqSubmit j s = .next (if submitCheck s x ≠ stOk then jobDone s j (submitCheck s x) 0
      else jobSet { s with serve := { s.serve with nextSeq := s.serve.nextSeq + 1 } } j { x with aux := s.serve.nextSeq + 1 }) := by
  unfold execReqSubmit nxt
  simp only [h, ha, if_true]

/-! ### Admission -/

/-- The entry of a new request, and its generation number. -/
def entryMade (s : State) (r j : Nat) (y : Job) : State :=
  { reqSet s r (newReq s r j y) with serve := { (reqSet s r (newReq s r j y)).serve with gens := s.serve.gens.set 0 r (newReq s r j y).gen } }

theorem entryMade_reqs (s : State) (r j : Nat) (y : Job) : (entryMade s r j y).serve.reqs = (reqSet s r (newReq s r j y)).serve.reqs := rfl

theorem rqtAllocate_next {s : State} {r j : Nat} {y : Job} (hf : (reqGet s r).state = .free) (hr : r < s.var.rqtEntries)
    (hw : (waitingJobs s).head? = some j) (hj : jobGet s j = some y) (hc : y.cancel = false) :
    execRqtAllocate r s = .next (askData (hostSend (entryMade s r j y) y.part
      (.write y.part (payBits y 256 64 + 8) (leBytes 4 (handleOf (entryMade s r j y) r)))) j (payBits y 128 64) (4 * payBits y 192 17)) := by
  obtain ⟨l, hl⟩ : ∃ l, waitingJobs s = j :: l := List.head?_eq_some_iff.mp hw
  have hgen : (reqGet (reqSet s r (newReq s r j y)) r).gen = (newReq s r j y).gen := by rw [reqGet_reqSet_same]
  unfold execRqtAllocate nxt
  simp only [hf, if_true, hl, hj, show ¬ s.var.rqtEntries ≤ r by omega, if_false, hc, Bool.false_eq_true]
  rw [hgen]
  rfl

/-- The request of the job first in line is made, its handle told and its prompt read. -/
theorem rqtAllocate_makes {s : State} {r j : Nat} {y : Job} (hj : jobGet s j = some y) (hf : (reqGet s r).state = .free) (hr : r < s.var.rqtEntries)
    (hw : (waitingJobs s).head? = some j) (hc : y.cancel = false) (hh : HostHears s y.part) :
    ∃ t, exec (.rqtAllocate r) s = .next t ∧ t = { s with serve := t.serve, qe := { s.qe with jobs := t.qe.jobs }, host := t.host } ∧
      reqGet t r = newReq s r j y ∧ (∀ k, k ≠ r → reqGet t k = reqGet s k) ∧ jobGet t j = some { y with stage := 1, data := none } ∧
      t.host.out = .read y.part (payBits y 128 64) (4 * payBits y 192 17) ::
        .write y.part (payBits y 256 64 + 8) (leBytes 4 (r + (s.serve.gens.get 0 r + 1) % 65536 * 2 ^ 16)) :: s.host.out := by
  have hget : reqGet (entryMade s r j y) r = newReq s r j y := (reqGet_congr (entryMade_reqs s r j y) r).trans (reqGet_reqSet_same ..)
  have hhandle : handleOf (entryMade s r j y) r = r + (s.serve.gens.get 0 r + 1) % 65536 * 2 ^ 16 := by
    rw [handleOf, hget]
    rfl
  have hnext : exec (.rqtAllocate r) s = execRqtAllocate r s := rfl
  rw [hnext, rqtAllocate_next hf hr hw hj hc, hhandle]
  have hmade : ∀ k, k ≠ r → reqGet (entryMade s r j y) k = reqGet s k := fun k hk =>
    (reqGet_congr (entryMade_reqs s r j y) k).trans (reqGet_reqSet_ne s _ hk)
  have hshape : entryMade s r j y = { s with serve := (entryMade s r j y).serve } := rfl
  generalize entryMade s r j y = u at hget hmade hshape ⊢
  have hu : HostHears u y.part := by rw [hshape]; exact hh
  have huj : jobGet u j = some y := by rw [hshape]; exact hj
  have hhost : u.host = s.host := by rw [hshape]
  rw [hostSend_hears _ hu]
  set v : State := { u with host := { u.host with
    out := .write y.part (payBits y 256 64 + 8) (leBytes 4 (r + (s.serve.gens.get 0 r + 1) % 65536 * 2 ^ 16)) :: u.host.out } } with hv
  have hvj : jobGet v j = some y := huj
  have hask : askData v j (payBits y 128 64) (4 * payBits y 192 17) =
      hostSend (jobSet v j { y with stage := 1, data := none }) y.part (.read y.part (payBits y 128 64) (4 * payBits y 192 17)) := by
    unfold askData
    simp only [hvj]
  rw [hask, hostSend_hears _ (show HostHears (jobSet v j { y with stage := 1, data := none }) y.part from hu)]
  refine ⟨_, rfl, ?_, hget, hmade, jobGet_jobSet_same .., ?_⟩
  · rw [hv, hshape]
    rfl
  · dsimp only
    rw [jobSet_host, hv]
    dsimp only
    rw [hhost]

/-- A QUEUED request whose prompt is there goes on. -/
theorem rqtAllocate_prompt {s : State} {r j : Nat} {y : Job} {d : List Byte} (hj : jobGet s j = some y) (hq : (reqGet s r).state = .queued)
    (hl : (reqGet s r).looked = false) (hx : (reqGet s r).job = some j) (hd : y.data = some (.good d [])) :
    exec (.rqtAllocate r) s = .next (admitPrompt s r (wordsOf d (reqGet s r).promptLen)) := by
  have hnext : exec (.rqtAllocate r) s = execRqtAllocate r s := rfl
  rw [hnext, execRqtAllocate, nxt]
  dsimp only
  rw [if_neg (by rw [hq]; decide), if_pos ⟨hq, hl⟩, hx, Option.bind_some, hj]
  dsimp only
  rw [hd]

/-- A refused request without pages is freed and its job ends. -/
theorem refuseReq_frees {s : State} {r j : Nat} {y : Job} (status : Nat) (hj : jobGet s j = some y) (hx : (reqGet s r).job = some j)
    (hr : s.part.resets.find? y.part = none) (hrow : (reqGet s r).row = []) (hcopies : (reqGet s r).copies = []) (hc : (reqGet s r).cancelJobs = [])
    (hu : (mslotGet s (reqGet s r).slot).unload = none) :
    reqGet (refuseReq s r status) r = {} ∧ (∀ k, k ≠ r → reqGet (refuseReq s r status) k = reqGet s k) ∧
      Ends (refuseReq s r status) j y status (runResult (reqGet s r) 5) := by
  have hends := jobDone_ends status (runResult (reqGet s r) 5) hj hr
  have hserve := jobDone_serve s j status (runResult (reqGet s r) 5)
  have hrefuse : refuseReq s r status = releaseReq (jobDone s j status (runResult (reqGet s r) 5)) r := by
    unfold refuseReq
    simp only [hx]
  rw [hrefuse]
  generalize jobDone s j status (runResult (reqGet s r) 5) = u at hends hserve ⊢
  have hget : ∀ k, reqGet u k = reqGet s k := fun k => by rw [reqGet, hserve, reqGet]
  have hslot : ∀ m, mslotGet u m = mslotGet s m := fun m => by rw [mslotGet, hserve, mslotGet]
  have hrow' : (reqGet u r).row = [] := by rw [hget]; exact hrow
  have hcopies' : (reqGet u r).copies = [] := by rw [hget]; exact hcopies
  have hfreed : releaseReq u r = entryFreed u r := by
    rw [releaseReq_bare hrow' hcopies' (by rw [hget, hslot]; exact hu), hget, hc]
    rfl
  obtain ⟨hfree, hothers⟩ := entryFreed_get hrow' hcopies'
  rw [hfreed]
  refine ⟨hfree, fun k hk => (hothers k hk).trans (hget k), ?_⟩
  rw [entryFreed_shape hrow' hcopies']
  exact hends

/-- A token outside the vocabulary refuses the request. -/
theorem admitPrompt_refuses {s : State} {r : Nat} {toks : List Nat} (h : toks.any (fun k => decide (hVocab (reqHdr s r) ≤ k)) = true) :
    admitPrompt s r toks = refuseReq s r 0x0D08 := by
  unfold admitPrompt
  dsimp only
  rw [if_pos (.inl h)]

/-- A request with the tokens of its prompt. -/
def prompted (x : Req) (toks : List Nat) : Req := { x with toks := toks, dfaState := 0 }

/-- The lookup of a prefix that finds nothing, as where the index is off. -/
def lookedUp (x : Req) (toks : List Nat) : Req :=
  { x with toks := toks, dfaState := 0, looked := true, reused := 0, seqLen := 0, path := [], cursor := none, depth := 0 }

/-- The prefix index counts a lookup that finds nothing. -/
def lookupCounted (s : State) : State := pfxCount (pfxCount s F.PFX_LOOKUPS 1) F.PFX_HIT_BLOCKS 0

theorem lookupCounted_regs (s : State) : lookupCounted s = { s with regs := (lookupCounted s).regs } ∧
    RegsOnly [(pgPrefix, F.PFX_LOOKUPS.off), (pgPrefix, F.PFX_HIT_BLOCKS.off)] s (lookupCounted s) :=
  ⟨rfl, ((RegsOnly.refl _ s).fset (by simp) (by decide)).fset (by simp) (by decide)⟩

theorem lookupReuse_off {s : State} {r : Nat} (h : s.fbit pgPrefix F.PFX_CTRL_ENABLE = false) :
    lookupReuse s r = reqMod (lookupCounted s) r fun x =>
      { x with looked := true, reused := 0, seqLen := 0, path := [], cursor := none, depth := 0 } := by
  have hnone : ∀ tb : Nat, (0 + tb - 1) / tb = 0 := fun tb => by
    rcases Nat.eq_zero_or_pos tb with h | h
    · simp [h]
    · exact Nat.div_eq_of_lt (by omega)
  unfold lookupReuse
  simp only [h, Bool.false_eq_true, if_false, List.length_nil, hnone, List.range_zero, eachIn, List.foldl_nil, Nat.mul_zero, List.getLast?_nil]
  rfl

/-- A good prompt without stop tokens, mask or prefix index: the entry is looked up, the host told that nothing is reused, and the reservation asked. -/
theorem admitPrompt_reserves {s : State} {r : Nat} {toks : List Nat} (h : toks.any (fun k => decide (hVocab (reqHdr s r) ≤ k)) = false)
    (h0 : (reqGet s r).stop0En = false) (h1 : (reqGet s r).stop1En = false) (hm : (reqGet s r).maskKind = 0)
    (hp : s.fbit pgPrefix F.PFX_CTRL_ENABLE = false) (hrow : (reqGet s r).row = []) :
    admitPrompt s r toks = reserve (hostSend (reqSet (lookupCounted (reqSet s r (prompted (reqGet s r) toks))) r (lookedUp (reqGet s r) toks))
      (reqGet s r).part (.write (reqGet s r).part ((reqGet s r).ringBase + 12) (leBytes 4 0))) r
      (((reqGet s r).promptLen + (reqGet s r).maxNew + hTpp (reqHdr s r) - 1) / hTpp (reqHdr s r)) := by
  have hlook : lookupReuse (reqSet s r (prompted (reqGet s r) toks)) r =
      reqSet (lookupCounted (reqSet s r (prompted (reqGet s r) toks))) r (lookedUp (reqGet s r) toks) := by
    have hx : reqGet (lookupCounted (reqSet s r (prompted (reqGet s r) toks))) r = (prompted (reqGet s r) toks) :=
      reqGet_reqSet_same ..
    rw [lookupReuse_off (s := reqSet s r (prompted (reqGet s r) toks)) hp, reqMod, hx]
    rfl
  unfold admitPrompt
  dsimp only
  rw [if_neg (by simp [h, h0, h1]), if_neg (by simp [hm]), if_neg (by simp [hm]), ← prompted, hlook, reqGet_reqSet_same]
  simp only [lookedUp, hrow, List.length_nil, Nat.sub_zero]

end Sys2Proof.Machine
end

section
/-! SUPPORT. The statement on the jobs of requests (O54), part by part. -/

namespace Sys2Proof.Machine

/-! ### A request that gets its reservation -/

/-- The entry of an admitted request, and what the host is told. -/
def admittedState (s : State) (r : Nat) (toks : List Nat) : State :=
  { s with regs := (lookupCounted s).regs, serve := { s.serve with reqs := s.serve.reqs.set {} r (lookedUp (reqGet s r) toks) },
           host := { s.host with out := .write (reqGet s r).part ((reqGet s r).ringBase + 12) (leBytes 4 0) :: s.host.out } }

theorem admitted_eq {s : State} {r : Nat} (toks : List Nat) (hq : (reqGet s r).state ≠ .free) (hh : HostHears s (reqGet s r).part) :
    hostSend (reqSet (lookupCounted (reqSet s r (prompted (reqGet s r) toks))) r (lookedUp (reqGet s r) toks)) (reqGet s r).part
      (.write (reqGet s r).part ((reqGet s r).ringBase + 12) (leBytes 4 0)) = admittedState s r toks := by
  have htwice : (s.serve.reqs.set {} r (prompted (reqGet s r) toks)).set {} r (lookedUp (reqGet s r) toks) =
      s.serve.reqs.set {} r (lookedUp (reqGet s r) toks) :=
    Tab.set_set _ _ _ (ne_default_of_state hq) (ne_default_of_state hq)
  have hears : HostHears (reqSet (lookupCounted (reqSet s r (prompted (reqGet s r) toks))) r (lookedUp (reqGet s r) toks)) (reqGet s r).part := hh
  rw [hostSend_hears _ hears, admittedState, ← htwice]
  rfl

theorem admittedState_get (s : State) (r : Nat) (toks : List Nat) :
    reqGet (admittedState s r toks) r = lookedUp (reqGet s r) toks ∧ ∀ k, k ≠ r → reqGet (admittedState s r toks) k = reqGet s k := by
  have hreqs : (admittedState s r toks).serve.reqs = (reqSet s r (lookedUp (reqGet s r) toks)).serve.reqs := rfl
  exact ⟨(reqGet_congr hreqs r).trans (reqGet_reqSet_same ..), fun k hk => (reqGet_congr hreqs k).trans (reqGet_reqSet_ne s _ hk)⟩

/-- The registers of an admission are the two counts of the prefix index. -/
theorem admittedState_regs (s : State) (r : Nat) (toks : List Nat) :
    RegsOnly [(pgPrefix, F.PFX_LOOKUPS.off), (pgPrefix, F.PFX_HIT_BLOCKS.off)] s (admittedState s r toks) := (lookupCounted_regs s).2

/-- A request with a reservation. -/
def withPages (x : Req) (n : Nat) : Req := { x with reserved := n }

/-- A good prompt gets its reservation where the pool has it, and the request goes to PREFILL. -/
theorem rqtAllocate_admits {s : State} {r j : Nat} {y : Job} {d : List Byte} (hj : jobGet s j = some y) (hq : (reqGet s r).state = .queued)
    (hl : (reqGet s r).looked = false) (hx : (reqGet s r).job = some j) (hd : y.data = some (.good d [])) (hc : (reqGet s r).copies = [])
    (hrow : (reqGet s r).row = [])
    (ht : (wordsOf d (reqGet s r).promptLen).any (fun k => decide (hVocab (reqHdr s r) ≤ k)) = false) (h0 : (reqGet s r).stop0En = false)
    (h1 : (reqGet s r).stop1En = false) (hm : (reqGet s r).maskKind = 0) (hp : s.fbit pgPrefix F.PFX_CTRL_ENABLE = false)
    (hh : HostHears s (reqGet s r).part) :
    let x := reqGet s r
    let h := reqHdr s r
    let toks := wordsOf d x.promptLen
    let res := (x.promptLen + x.maxNew + hTpp h - 1) / hTpp h
    let z := lookedUp x toks
    let u := reqSet s r (withPages z res)
    res ≤ kvPages s → kvUse (reqSet s r z) x.part + res ≤ s.fget (pgPart + x.part) F.PART_SHARE0_KV_PAGES →
    (waitingReqs u x.slot).head? = some r → res + kvPromised u ≤ kvFree s →
    ∃ t, exec (.rqtAllocate r) s = .next t ∧ t = { s with regs := t.regs, serve := { s.serve with reqs := t.serve.reqs }, host := t.host } ∧
      RegsOnly [(pgPrefix, F.PFX_LOOKUPS.off), (pgPrefix, F.PFX_HIT_BLOCKS.off)] s t ∧
      reqGet t r = toPrefill (withPages z res) ∧ (∀ k, k ≠ r → reqGet t k = reqGet s k) ∧
      t.host.out = .write x.part (x.ringBase + 12) (leBytes 4 0) :: s.host.out := by
  intro x h toks res z u hpool hshare hfirst hfree
  have hne : x.state ≠ .free := by rw [hq]; decide
  have hadmit : exec (.rqtAllocate r) s = .next (reserve (admittedState s r toks) r res) := by
    rw [rqtAllocate_prompt hj hq hl hx hd, admitPrompt_reserves ht h0 h1 hm hp hrow, admitted_eq _ hne hh]
  obtain ⟨hget, hothers⟩ := admittedState_get s r toks
  have hregs := admittedState_regs s r toks
  have hreqs : (admittedState s r toks).serve.reqs = (reqSet s r z).serve.reqs := rfl
  have hkv : (admittedState s r toks).serve.pages = s.serve.pages ∧ (admittedState s r toks).serve.pageChain = s.serve.pageChain := ⟨rfl, rfl⟩
  have hhost : (admittedState s r toks).host.out = .write x.part (x.ringBase + 12) (leBytes 4 0) :: s.host.out := rfl
  have hshape : admittedState s r toks = { s with
      regs := (admittedState s r toks).regs, serve := { s.serve with reqs := (admittedState s r toks).serve.reqs }, host := (admittedState s r toks).host } := rfl
  generalize admittedState s r toks = w at hadmit hget hothers hregs hreqs hkv hhost hshape
  have hpages : kvPages w = kvPages s := hregs.fget (by decide) (by decide)
  have hquota : w.fget (pgPart + x.part) F.PART_SHARE0_KV_PAGES = s.fget (pgPart + x.part) F.PART_SHARE0_KV_PAGES :=
    hregs.fget (by decide) (by simp)
  have hsame : reqSet w r (withPages z res) = { w with serve := { w.serve with reqs := u.serve.reqs } } := by
    have htwice := reqSet_reqs_twice (s := s) (r := r) (x := z) (y := withPages z res) hne hne
    rw [reqSet_serve] at htwice
    dsimp only at htwice
    rw [← htwice, ← hreqs]
    rfl
  have hu : (reqSet w r (withPages z res)).serve.reqs = u.serve.reqs := by rw [hsame]
  have hasked : reserve w r res = (trySupply (reqSet w r (withPages z res)) r).2 := by
    have hasks := reserve_asks (s := w) (r := r) (res := res) (by rw [hpages]; exact hpool) (by
      rw [hget, kvUse_congr hreqs hkv.1]
      exact hshare.trans (le_of_eq hquota.symm))
    rw [hget] at hasks
    rw [hasks]
    refine if_pos ?_
    rw [← hfirst]
    exact congrArg List.head? (waitingReqs_congr hu _)
  have hentry : reqGet (reqSet w r (withPages z res)) r = withPages z res := reqGet_reqSet_same ..
  have honly : EntryOnly r w (reqSet w r (withPages z res)) := (EntryOnly.refl r w).reqSet _
  have hfree' : (reqGet (reqSet w r (withPages z res)) r).reserved + kvPromised (reqSet w r (withPages z res)) ≤ kvFree (reqSet w r (withPages z res)) := by
    have hsupply : kvFree (reqSet w r (withPages z res)) = kvFree s := kvFree_congr hkv.2 hpages
    rw [hentry, kvPromised_congr hu, hsupply]
    exact hfree
  obtain ⟨t, htry, htonly, htget⟩ := trySupply_prefill (by rw [hentry]; exact hq) (by rw [hentry]; rfl) (by rw [hentry]; exact hc) (by rw [hentry]; rfl) hfree'
  have hlast := honly.trans htonly
  refine ⟨t, by rw [hadmit, hasked, htry], ?_, ?_, by rw [htget, hentry], fun k hk => (hlast.others k hk).trans (hothers k hk), ?_⟩
  · rw [hlast.shape, hshape]
  · rw [hlast.shape]
    exact hregs
  · rw [hlast.shape]
    exact hhost

end Sys2Proof.Machine
end

section
/-! SUPPORT. Cancels, pauses, resumptions and queries of requests (R444, R459, R461, R464), and the statement on the jobs of requests. -/

namespace Sys2Proof.Machine

section
variable {s : State} {j : Nat} {x : Job}

/-! ### REQ_CANCEL -/

/-- A request that a REQ_CANCEL waits for. -/
def cancelAsked (y : Req) (j : Nat) : Req := { y with cancelJobs := y.cancelJobs ++ [j] }

theorem reqCancel_next {r : Nat} (h : startedJob s j 0xA1 = some x) (hs : x.stage = 0) (hr : handleReq s x = some r) :
    exec (.reqCancel j) s = .next (cancelReq (reqSet (jobSet s j { x with stage := 100 }) r (cancelAsked (reqGet s r) j)) r) := by
  have hnext : exec (.reqCancel j) s = execReqCancel j s := rfl
  rw [hnext, execReqCancel, nxt, h]
  dsimp only
  rw [if_neg (by simp [hs]), hr]
  rfl

/-- A cancel of a request that is not PAUSED is noted. -/
theorem reqCancel_marks {r : Nat} (h : startedJob s j 0xA1 = some x) (hs : x.stage = 0) (hr : handleReq s x = some r)
    (hp : (reqGet s r).state ≠ .paused) :
    ∃ t, exec (.reqCancel j) s = .next t ∧ t = { s with serve := { s.serve with reqs := t.serve.reqs }, qe := { s.qe with jobs := t.qe.jobs } } ∧
      reqGet t r = { cancelAsked (reqGet s r) j with cancelPending := true } ∧ (∀ k, k ≠ r → reqGet t k = reqGet s k) ∧
      jobGet t j = some { x with stage := 100 } := by
  have hentry : reqGet (reqSet (jobSet s j { x with stage := 100 }) r (cancelAsked (reqGet s r) j)) r = cancelAsked (reqGet s r) j := reqGet_reqSet_same ..
  have honly : EntryOnly r (jobSet s j { x with stage := 100 }) (reqSet (jobSet s j { x with stage := 100 }) r (cancelAsked (reqGet s r) j)) :=
    (EntryOnly.refl r _).reqSet _
  have hnext := reqCancel_next h hs hr
  generalize reqSet (jobSet s j { x with stage := 100 }) r (cancelAsked (reqGet s r) j) = u at hentry honly hnext
  have hmark : cancelReq u r = reqMod u r fun x => { x with cancelPending := true } := by
    unfold cancelReq
    rw [if_neg (by rw [hentry]; exact hp)]
  have hall := honly.reqMod fun x => { x with cancelPending := true }
  rw [hmark] at hnext
  refine ⟨_, hnext, ?_, ?_, hall.others, ?_⟩
  · rw [hall.shape]
    rfl
  · rw [reqGet_reqMod_same, hentry]
  · rw [hall.shape]
    exact jobGet_jobSet_same ..

/-- A cancel of a PAUSED request frees it. -/
theorem reqCancel_frees {r : Nat} (h : startedJob s j 0xA1 = some x) (hl : s.part.resets.find? x.part = none) (hs : x.stage = 0)
    (hr : handleReq s x = some r) (hp : (reqGet s r).state = .paused) (hrow : (reqGet s r).row = []) (hcopies : (reqGet s r).copies = [])
    (hc : (reqGet s r).cancelJobs = []) (hu : (mslotGet s (reqGet s r).slot).unload = none) :
    ∃ t, exec (.reqCancel j) s = .next t ∧ reqGet t r = {} ∧ (∀ k, k ≠ r → reqGet t k = reqGet s k) ∧ Ends t j { x with stage := 100 } stOk 0 := by
  have hentry : reqGet (reqSet (jobSet s j { x with stage := 100 }) r (cancelAsked (reqGet s r) j)) r = cancelAsked (reqGet s r) j := reqGet_reqSet_same ..
  have honly : EntryOnly r (jobSet s j { x with stage := 100 }) (reqSet (jobSet s j { x with stage := 100 }) r (cancelAsked (reqGet s r) j)) :=
    (EntryOnly.refl r _).reqSet _
  have hnext := reqCancel_next h hs hr
  generalize reqSet (jobSet s j { x with stage := 100 }) r (cancelAsked (reqGet s r) j) = u at hentry honly hnext
  have hrow' : (reqGet u r).row = [] := by rw [hentry]; exact hrow
  have hcopies' : (reqGet u r).copies = [] := by rw [hentry]; exact hcopies
  have hslots : u.serve.slots = s.serve.slots := by rw [honly.shape]; rfl
  have hfreed : cancelReq u r = jobDone (entryFreed u r) j stOk 0 := by
    unfold cancelReq
    rw [if_pos (by rw [hentry]; exact hp), releaseReq_bare hrow' hcopies' (by rw [hentry, mslotGet_congr hslots]; exact hu), hentry, cancelAsked, hc]
    rfl
  obtain ⟨hfree, hothers⟩ := entryFreed_get hrow' hcopies'
  have hjob : jobGet (entryFreed u r) j = some { x with stage := 100 } := by
    rw [entryFreed_shape hrow' hcopies', honly.shape]
    exact jobGet_jobSet_same ..
  have hlive : (entryFreed u r).part.resets.find? x.part = none := by
    rw [entryFreed_shape hrow' hcopies', honly.shape]
    exact hl
  have hserve := jobDone_serve (entryFreed u r) j stOk 0
  have hends := jobDone_ends (x := { x with stage := 100 }) stOk 0 hjob hlive
  rw [hfreed] at hnext
  refine ⟨_, hnext, ?_, fun k hk => ?_, hends⟩
  · rw [reqGet, hserve]
    exact hfree
  · rw [reqGet, hserve]
    exact (hothers k hk).trans (honly.others k hk)

/-! ### REQ_PAUSE -/

/-- A request with a pause pending. -/
def pauseAsked (y : Req) (x : Job) (j : Nat) : Req :=
  { y with pausePending := true, pauseJob := some j, pauseSummary := payBits x 64 1 == 1, pauseTtl := payBits x 80 16, pauseAddr := payBits x 128 64 }

theorem reqPause_marks {r : Nat} (h : startedJob s j 0xA2 = some x) (hs : x.stage = 0) (hr : pauseCheck s x = .inr r) :
    ∃ t, exec (.reqPause j) s = .next t ∧
      t = { s with serve := { s.serve with reqs := t.serve.reqs }, qe := { s.qe with jobs := t.qe.jobs } } ∧ jobGet t j = some { x with stage := 100 } ∧
      (∀ k, k ≠ r → reqGet t k = reqGet s k) ∧ reqGet t r = pauseAsked (reqGet s r) x j := by
  have hnext : exec (.reqPause j) s = .next (reqSet (jobSet s j { x with stage := 100 }) r (pauseAsked (reqGet s r) x j)) := by
    have hexec : exec (.reqPause j) s = execReqPause j s := rfl
    rw [hexec, execReqPause, nxt, h]
    dsimp only
    rw [if_neg (by simp [hs]), hr]
    rfl
  have honly : EntryOnly r (jobSet s j { x with stage := 100 }) (reqSet (jobSet s j { x with stage := 100 }) r (pauseAsked (reqGet s r) x j)) :=
    (EntryOnly.refl r _).reqSet _
  exact ⟨_, hnext, rfl, jobGet_jobSet_same .., honly.others, reqGet_reqSet_same ..⟩

/-! ### REQ_QUERY -/

theorem reqQuery_writes {r : Nat} (h : startedJob s j 0xA4 = some x) (hl : s.part.resets.find? x.part = none) (hb : payBits x 128 3 = 0)
    (hr : handleReq s x = some r) (hh : HostHears s x.part) :
    ∃ t, exec (.reqQuery j) s = .next t ∧ t = { s with host := t.host, qe := { s.qe with jobs := t.qe.jobs } } ∧ Ends t j x stOk 0 ∧
      t.host.out = .write x.part (payBits x 128 64) (leBytes 128 (rqtBits s r).toNat) :: s.host.out := by
  have hnext : exec (.reqQuery j) s =
      .next (jobDone (hostSend s x.part (.write x.part (payBits x 128 64) (leBytes 128 (rqtBits s r).toNat))) j stOk 0) := by
    have hexec : exec (.reqQuery j) s = execReqQuery j s := rfl
    rw [hexec, execReqQuery, nxt, h]
    dsimp only
    rw [if_neg (by simp [hb]), hr]
  generalize leBytes 128 (rqtBits s r).toNat = bs at hnext ⊢
  rw [hostSend_hears _ hh] at hnext
  have hjob := jobGet_of_started h
  have hdone := jobDone_changes (s := { s with host := { s.host with out := .write x.part (payBits x 128 64) bs :: s.host.out } }) stOk 0 hjob hl
  have hends := jobDone_ends (s := { s with host := { s.host with out := .write x.part (payBits x 128 64) bs :: s.host.out } }) stOk 0 hjob hl
  refine ⟨_, hnext, ?_, hends, ?_⟩ <;> rw [hdone]

/-! ### REQ_RESUME -/

/-- A PAUSED request that a REQ_RESUME holds. -/
def resumedReq (s : State) (j : Nat) (x : Job) (y : Req) : Req :=
  { y with
    state := .resuming, job := some j, qp := x.qp, tag := x.tag, ringBase := payBits x 256 64, ringLog2 := payBits x 248 5, maxNew := payBits x 224 17,
    runOut := 0, written := 0, head := 0, ringFull := false, ttlEnd := 0, draftCtx := false, appended := payBits x 192 17, restore := .waiting,
    granted := false, seq := s.serve.nextSeq + 1, wait := 0, spent := false }

/-- The pages that a resumption reserves. -/
abbrev resumePages (s : State) (r : Nat) (x : Job) : Nat :=
  ((if (reqGet s r).summaryHeld then hSummaryTokens (reqHdr s r) else (reqGet s r).seqLen) + payBits x 192 17 + payBits x 224 17
    + hTpp (reqHdr s r) - 1) / hTpp (reqHdr s r)

/-- The job holds the request, which takes the next place in line. -/
def resumedState (s : State) (r j : Nat) (x : Job) : State :=
  { jobSet s j { x with stage := 2 } with
    serve := { s.serve with nextSeq := s.serve.nextSeq + 1, reqs := s.serve.reqs.set {} r (resumedReq s j x (reqGet s r)) } }

theorem resumedState_get (s : State) (r j : Nat) (x : Job) :
    reqGet (resumedState s r j x) r = resumedReq s j x (reqGet s r) ∧ ∀ k, k ≠ r → reqGet (resumedState s r j x) k = reqGet s k := by
  have hget : ∀ k, reqGet (resumedState s r j x) k = Tab.get (s.serve.reqs.set {} r (resumedReq s j x (reqGet s r))) {} k := fun _ => rfl
  refine ⟨by rw [hget, Tab.get_set_same], fun k hk => by rw [hget, Tab.get_set_ne _ _ _ _ hk, reqGet]⟩

theorem reqResume_next {r : Nat} (h : startedJob s j 0xA3 = some x) (hs : x.stage = 0) (hr : resumeCheck s x = .inr r) :
    exec (.reqResume j) s = .next (reserve (resumedState s r j x) r (resumePages s r x)) := by
  have hget := (resumedState_get s r j x).1
  have hexec : exec (.reqResume j) s = execReqResume j s := rfl
  have hmod : (reqMod { jobSet s j { x with stage := 2 } with serve := { (jobSet s j { x with stage := 2 }).serve with
      nextSeq := (jobSet s j { x with stage := 2 }).serve.nextSeq + 1 } } r fun y => { y with
        state := .resuming, job := some j, qp := x.qp, tag := x.tag, ringBase := payBits x 256 64, ringLog2 := payBits x 248 5
        maxNew := payBits x 224 17, runOut := 0, written := 0, head := 0, ringFull := false, ttlEnd := 0, draftCtx := false
        appended := payBits x 192 17, restore := .waiting, granted := false, seq := (jobSet s j { x with stage := 2 }).serve.nextSeq + 1, wait := 0, spent := false
        reused := y.reused }) = resumedState s r j x := rfl
  rw [hexec, execReqResume, nxt, h]
  dsimp only
  rw [if_neg (by simp [hs]), hr]
  dsimp only
  rw [hmod, hget]
  rfl

/-- A resumption whose reservation fits takes its place in line, and goes on where the pool supplies it. -/
theorem reqResume_asks {r : Nat} (h : startedJob s j 0xA3 = some x) (hs : x.stage = 0) (hr : resumeCheck s x = .inr r) :
    let y := reqGet s r
    let n := resumePages s r x
    let z := resumedReq s j x y
    let u := reqSet s r (withPages z n)
    n ≤ kvPages s → kvUse (reqSet s r z) y.part + n ≤ s.fget (pgPart + y.part) F.PART_SHARE0_KV_PAGES →
    ∃ v, exec (.reqResume j) s = .next (if (waitingReqs u y.slot).head? = some r then (trySupply v r).2 else v) ∧
      v = { jobSet s j { x with stage := 2 } with serve := { s.serve with nextSeq := s.serve.nextSeq + 1, reqs := v.serve.reqs } } ∧
      reqGet v r = withPages z n ∧ (∀ k, k ≠ r → reqGet v k = reqGet s k) ∧ v.serve.reqs = u.serve.reqs := by
  intro y n z u hpool hshare
  have hnext := reqResume_next h hs hr
  obtain ⟨hget, hothers⟩ := resumedState_get s r j x
  have hreqs : (resumedState s r j x).serve.reqs = (reqSet s r z).serve.reqs := rfl
  have hkv : (resumedState s r j x).serve.pages = s.serve.pages ∧ kvPages (resumedState s r j x) = kvPages s ∧
      ∀ p f, (resumedState s r j x).fget p f = s.fget p f := ⟨rfl, rfl, fun _ _ => rfl⟩
  have hshape : resumedState s r j x = { jobSet s j { x with stage := 2 } with
      serve := { s.serve with nextSeq := s.serve.nextSeq + 1, reqs := (resumedState s r j x).serve.reqs } } := rfl
  generalize resumedState s r j x = w at hnext hget hothers hreqs hkv hshape
  have hasks := reserve_asks (s := w) (r := r) (res := n) (by rw [hkv.2.1]; exact hpool) (by rw [hget, kvUse_congr hreqs hkv.1, hkv.2.2]; exact hshare)
  have hu : (reqSet w r (withPages z n)).serve.reqs = u.serve.reqs := by
    have htwice := reqSet_reqs_twice (s := s) (r := r) (x := z) (y := withPages z n) (fun e => by cases e) (fun e => by cases e)
    rw [reqSet_serve] at htwice ⊢
    dsimp only at htwice ⊢
    rw [hreqs]
    exact htwice
  have honly : EntryOnly r w (reqSet w r (withPages z n)) := (EntryOnly.refl r w).reqSet _
  rw [hget] at hasks
  refine ⟨reqSet w r (withPages z n), ?_, ?_, reqGet_reqSet_same .., fun k hk => (honly.others k hk).trans (hothers k hk), hu⟩
  · rw [hnext, ← waitingReqs_congr hu]
    exact congrArg Host.Outcome.next hasks
  · rw [honly.shape, hshape]

/-- A resumption that reads its pause image. -/
def imageAsked (y : Req) : Req := { y with restore := .image }

theorem startRestore_image {v : State} {r : Nat} (hheld : (reqGet v r).summaryHeld = false) (hjob : (reqGet v r).job = some j)
    (hj : jobGet v j = some x) :
    startRestore v r = hostSend (jobSet (reqMod v r imageAsked) j { x with stage := 1, data := none }) (reqGet v r).part
      (.read (reqGet v r).part (reqGet v r).pauseAddr (0x8000 * (reqGet v r).imagePages + 64)) := by
  unfold startRestore
  dsimp only
  rw [if_neg (by simp [hheld])]
  generalize hw : reqSet v r _ = w
  have hwj : jobGet w j = some x := by rw [← hw]; exact hj
  rw [hjob]
  dsimp only
  rw [hwj, ← hw]
  rfl

/-- The pool supplies a resumption from a pause image: the image is read. -/
theorem trySupply_image {v : State} {r : Nat} (hst : (reqGet v r).state = .resuming) (hheld : (reqGet v r).summaryHeld = false)
    (hjob : (reqGet v r).job = some j) (hj : jobGet v j = some x) (hf : (reqGet v r).reserved + kvPromised v ≤ kvFree v)
    (hh : HostHears v (reqGet v r).part) :
    reqGet (trySupply v r).2 r = imageAsked (givenPages (reqGet v r)) ∧
      (trySupply v r).2.host.out = .read (reqGet v r).part (reqGet v r).pauseAddr (0x8000 * (reqGet v r).imagePages + 64) :: v.host.out ∧
      jobGet (trySupply v r).2 j = some { x with stage := 1, data := none } := by
  have hget : reqGet (reqMod v r givenPages) r = givenPages (reqGet v r) := reqGet_reqMod_same ..
  have htry := congrArg Prod.snd (trySupply_free (s := v) (r := r) (by simp [hst]) hf)
  rw [if_neg (by rw [hst]; decide)] at htry
  have honly : EntryOnly r v (reqMod v r givenPages) := (EntryOnly.refl r v).reqMod _
  generalize reqMod v r givenPages = w at hget htry honly
  have hwj : jobGet w j = some x := by rw [honly.shape]; exact hj
  have hfields : (reqGet w r).part = (reqGet v r).part ∧ (reqGet w r).pauseAddr = (reqGet v r).pauseAddr ∧
      (reqGet w r).imagePages = (reqGet v r).imagePages := by rw [hget]; exact ⟨rfl, rfl, rfl⟩
  obtain ⟨hpart, haddr, hpages⟩ := hfields
  have hstart := startRestore_image (v := w) (r := r) (by rw [hget]; exact hheld) (by rw [hget]; exact hjob) hwj
  rw [hpart, haddr, hpages] at hstart
  have hboth := honly.reqMod imageAsked
  have hentry : reqGet (reqMod w r imageAsked) r = imageAsked (givenPages (reqGet v r)) := by rw [reqGet_reqMod_same, hget]
  generalize reqMod w r imageAsked = w' at hboth hentry hstart
  have hw' : HostHears (jobSet w' j { x with stage := 1, data := none }) (reqGet v r).part := by
    rw [hboth.shape]
    exact hh
  rw [hstart, hostSend_hears _ hw'] at htry
  dsimp only at htry
  have hjs : jobGet (jobSet w' j { x with stage := 1, data := none }) j = some { x with stage := 1, data := none } := jobGet_jobSet_same ..
  rw [htry]
  refine ⟨hentry, ?_, hjs⟩
  dsimp only
  rw [jobSet_host, hboth.shape]

end

end Sys2Proof.Machine
end

section
/-! SUPPORT. The statement on the jobs of requests (O54). -/

namespace Sys2Proof.Machine

section
variable {s : State} {j : Nat} {x : Job}

/-- A command that ends a job at once and does nothing else. -/
theorem ends_at_once {e : Instr} {status : Nat} (he : exec e s = .next (jobDone s j status 0)) (hj : jobGet s j = some x)
    (hr : s.part.resets.find? x.part = none) :
    ∃ t, exec e s = .next t ∧ t = { s with qe := { s.qe with jobs := t.qe.jobs } } ∧ Ends t j x status 0 :=
  ⟨_, he, jobDone_changes status 0 hj hr, jobDone_ends status 0 hj hr⟩

theorem reqCancel_unknown (h : startedJob s j 0xA1 = some x) (hs : x.stage = 0) (hr : handleReq s x = none) :
    exec (.reqCancel j) s = .next (jobDone s j 0x0D06 0) := by
  have hexec : exec (.reqCancel j) s = execReqCancel j s := rfl
  rw [hexec, execReqCancel, nxt, h]
  dsimp only
  rw [if_neg (by simp [hs]), hr]

theorem reqPause_refused {status : Nat} (h : startedJob s j 0xA2 = some x) (hs : x.stage = 0) (hr : pauseCheck s x = .inl status) :
    exec (.reqPause j) s = .next (jobDone s j status 0) := by
  have hexec : exec (.reqPause j) s = execReqPause j s := rfl
  rw [hexec, execReqPause, nxt, h]
  dsimp only
  rw [if_neg (by simp [hs]), hr]

theorem reqResume_refused {status : Nat} (h : startedJob s j 0xA3 = some x) (hs : x.stage = 0) (hr : resumeCheck s x = .inl status) :
    exec (.reqResume j) s = .next (jobDone s j status 0) := by
  have hexec : exec (.reqResume j) s = execReqResume j s := rfl
  rw [hexec, execReqResume, nxt, h]
  dsimp only
  rw [if_neg (by simp [hs]), hr]

theorem reqQuery_unknown (h : startedJob s j 0xA4 = some x) (hb : payBits x 128 3 = 0) (hr : handleReq s x = none) :
    exec (.reqQuery j) s = .next (jobDone s j 0x0D06 0) := by
  have hexec : exec (.reqQuery j) s = execReqQuery j s := rfl
  rw [hexec, execReqQuery, nxt, h]
  dsimp only
  rw [if_neg (by simp [hb]), hr]

/-- The clause on REQ_RESUME. -/
theorem reqResume_resumes {r : Nat} (h : startedJob s j 0xA3 = some x) (hs : x.stage = 0) (hr : resumeCheck s x = .inr r) :
    let y := reqGet s r
    let n := resumePages s r x
    let z := resumedReq s j x y
    let u := reqSet s r (withPages z n)
    n ≤ kvPages s → kvUse (reqSet s r z) y.part + n ≤ s.fget (pgPart + y.part) F.PART_SHARE0_KV_PAGES →
    ((waitingReqs u y.slot).head? ≠ some r → ∃ t, exec (.reqResume j) s = .next t ∧ reqGet t r = withPages z n ∧
      t = { s with serve := { s.serve with reqs := t.serve.reqs, nextSeq := s.serve.nextSeq + 1 }, qe := { s.qe with jobs := t.qe.jobs } } ∧
      (∀ k, k ≠ r → reqGet t k = reqGet s k) ∧ jobGet t j = some { x with stage := 2 }) ∧
    ((waitingReqs u y.slot).head? = some r → n + kvPromised u ≤ kvFree s → y.summaryHeld = false → HostHears s y.part →
      ∃ t, exec (.reqResume j) s = .next t ∧ reqGet t r = imageAsked (givenPages (withPages z n)) ∧
        t.host.out = .read y.part y.pauseAddr (0x8000 * y.imagePages + 64) :: s.host.out ∧ jobGet t j = some { x with stage := 1, data := none }) := by
  intro y n z u hpool hshare
  obtain ⟨v, hnext, hshape, hget, hothers, hreqs⟩ := reqResume_asks h hs hr hpool hshare
  have hvj : jobGet v j = some { x with stage := 2 } := by
    rw [hshape]
    exact jobGet_jobSet_same ..
  refine ⟨fun hfirst => ?_, fun hfirst hfree hheld hh => ?_⟩
  · rw [if_neg hfirst] at hnext
    refine ⟨v, hnext, hget, ?_, hothers, hvj⟩
    rw [hshape]
    rfl
  · rw [if_pos hfirst] at hnext
    have hfields : (reqGet v r).state = .resuming ∧ (reqGet v r).summaryHeld = y.summaryHeld ∧ (reqGet v r).job = some j ∧ (reqGet v r).reserved = n ∧
        (reqGet v r).part = y.part ∧ (reqGet v r).pauseAddr = y.pauseAddr ∧ (reqGet v r).imagePages = y.imagePages := by
      rw [hget]
      exact ⟨rfl, rfl, rfl, rfl, rfl, rfl, rfl⟩
    obtain ⟨hst, hsum, hjob, hres, hpart, haddr, hpages⟩ := hfields
    have hkv : kvFree v = kvFree s := by rw [hshape]; rfl
    have hpromised : kvPromised v = kvPromised u := kvPromised_congr hreqs
    have hv : HostHears v y.part := by rw [hshape]; exact hh
    obtain ⟨hentry, hout, hlast⟩ := trySupply_image hst (hsum.trans hheld) hjob hvj (by rw [hres, hpromised, hkv]; exact hfree) (by rw [hpart]; exact hv)
    refine ⟨_, hnext, by rw [hentry, hget], ?_, hlast⟩
    rw [hout, hpart, haddr, hpages, hshape]
    rfl

end

/-- Settles O54: each job of a request changes one entry of the Request Table; a release of a request without pages frees the entry, and a
reservation that the pool can supply is supplied without an eviction. -/
theorem requestJobs : Obligations.RequestJobs := by
  unfold Obligations.RequestJobs
  refine ⟨?submit, ?allocate, ?cancel, ?pause, ?resume, ?query⟩
  case submit =>
    rintro s j x ⟨h, hr⟩ ha
    have hnext : exec (.reqSubmit j) s = _ := reqSubmit_next h ha
    refine ⟨fun hc => ?_, fun hc => ?_⟩
    · rw [if_pos hc] at hnext
      exact ends_at_once hnext (jobGet_of_started h) hr
    · rw [if_neg (not_not.mpr hc)] at hnext
      exact ⟨_, hnext, rfl, jobGet_jobSet_same ..⟩
  case allocate =>
    intro s r j y
    dsimp only
    refine fun hj => ⟨fun hf hr hw hc hh => rqtAllocate_makes hj hf hr hw hc hh, fun d hq hl hx hd hr hc hrow => ⟨fun ht hjobs hu => ?_, ?_⟩⟩
    · have hnext := rqtAllocate_prompt hj hq hl hx hd
      rw [admitPrompt_refuses ht] at hnext
      obtain ⟨hfree, hothers, hends⟩ := refuseReq_frees 0x0D08 hj hx hr hrow hc hjobs hu
      exact ⟨_, hnext, hfree, hothers, hends⟩
    · exact fun ht h0 h1 hm hp hh => rqtAllocate_admits hj hq hl hx hd hc hrow ht h0 h1 hm hp hh
  case cancel =>
    rintro s j x ⟨h, hl⟩ hs
    refine ⟨fun hr => ends_at_once (reqCancel_unknown h hs hr) (jobGet_of_started h) hl, fun r hr => ⟨fun hp => reqCancel_marks h hs hr hp, ?_⟩⟩
    exact fun hp hrow hcopies hc hu => reqCancel_frees h hl hs hr hp hrow hcopies hc hu
  case pause =>
    rintro s j x ⟨h, hl⟩ hs
    exact ⟨fun st hr => ends_at_once (reqPause_refused h hs hr) (jobGet_of_started h) hl, fun r hr => reqPause_marks h hs hr⟩
  case resume =>
    rintro s j x ⟨h, hl⟩ hs
    exact ⟨fun st hr => ends_at_once (reqResume_refused h hs hr) (jobGet_of_started h) hl, fun r hr => reqResume_resumes h hs hr⟩
  case query =>
    rintro s j x ⟨h, hl⟩ hb
    exact ⟨fun hr => ends_at_once (reqQuery_unknown h hb hr) (jobGet_of_started h) hl, fun r hr hh => reqQuery_writes h hl hb hr hh⟩

end Sys2Proof.Machine
end

section
/-! SUPPORT. Lens cores that leave and rejoin at a boundary, and the draft binding (R465, R485, R502). -/

namespace Sys2Proof.Machine

/-! ### One core -/

/-- The state of a core after its turn at a boundary. -/
def turned (v : Nat) : Nat := if v = coreLeaving then coreOut else if v = coreJoining then coreIn else v

theorem turned_turned (v : Nat) : turned (turned v) = turned v := by
  unfold turned
  split
  · rfl
  · split
    · rfl
    · rfl

/-- What is written of one cluster: its page, and the host side. -/
structure ClusterOnly (c : Nat) (s t : State) : Prop where
  shape : t = { s with regs := t.regs, host := t.host }
  pages : PagesOnly (fun q => q = pgLens + c) s t

namespace ClusterOnly
variable {c : Nat} {s t u : State}

theorem refl (c : Nat) (s : State) : ClusterOnly c s s := ⟨rfl, .refl _ s⟩

theorem trans (h : ClusterOnly c s t) (g : ClusterOnly c t u) : ClusterOnly c s u := ⟨regsHost_trans h.shape g.shape, h.pages.trans g.pages⟩

theorem each {l : List Nat} {f : State → Nat → State} (hf : ∀ t k, ClusterOnly c t (f t k)) (s : State) : ClusterOnly c s (eachIn l f s) :=
  eachIn_rel (refl c) trans (fun t k _ => hf t k) s

/-- The cores of another cluster. -/
theorem cores (h : ClusterOnly c s t) {d : Nat} (hd : d ≠ c) (k : Nat) : coreGet t d k = coreGet s d k := by
  rw [coreGet, h.pages _ _ (by decide) (by omega), coreGet]

end ClusterOnly

/-- The core's new state, with the service bits of its cluster. -/
def coreShown (s : State) (c k v : Nat) : State :=
  let p := pgLens + c
  let s := s.setReg p F.LENS_CORE.off (putBits (s.reg p F.LENS_CORE.off) (3 * k) 3 v)
  let allOut := (List.range 4).all fun k => coreGet s c k = coreOut
  let s := (s.fset p F.PG_STAT_OUT_OF_SERVICE (b2n allOut)).fset p F.PG_CTRL_IN_SERVICE (b2n (!allOut))
  if v = coreIn then s.fset p F.PG_STAT_FAULT 0 else s

theorem coreSet_eq (s : State) (c k v : Nat) :
    coreSet s c k v = if coreGet s c k = v then s else pageIrq (coreShown s c k v) (pgLens + c) 1 := rfl

theorem coreShown_core (s : State) (c k v : Nat) :
    (coreShown s c k v).reg (pgLens + c) F.LENS_CORE.off = putBits (s.reg (pgLens + c) F.LENS_CORE.off) (3 * k) 3 v := by
  unfold coreShown
  dsimp only
  split
  · rw [reg_fset_ne _ _ _ (by simp), reg_fset_ne _ _ _ (by simp), reg_fset_ne _ _ _ (by simp), reg_setReg_same]
  · rw [reg_fset_ne _ _ _ (by simp), reg_fset_ne _ _ _ (by simp), reg_setReg_same]

theorem coreShown_only (s : State) (c k v : Nat) : ClusterOnly c s (coreShown s c k v) := by
  have hset := ((PagesOnly.refl (fun q => q = pgLens + c) s).setReg (o := F.LENS_CORE.off)
    (w := putBits (s.reg (pgLens + c) F.LENS_CORE.off) (3 * k) 3 v) rfl (by decide))
  unfold coreShown
  dsimp only
  split
  · exact ⟨rfl, ((hset.fset rfl (by decide)).fset rfl (by decide)).fset rfl (by decide)⟩
  · exact ⟨rfl, (hset.fset rfl (by decide)).fset rfl (by decide)⟩

theorem coreSet_only (s : State) (c k v : Nat) : ClusterOnly c s (coreSet s c k v) := by
  rw [coreSet_eq]
  split
  · exact .refl c s
  · exact (coreShown_only s c k v).trans ⟨pageIrq_shape .., (PagesOnly.refl _ _).pageIrq rfl⟩

/-- A core that is set has its new state, and the other cores theirs. -/
theorem coreGet_coreSet (s : State) (c : Nat) {k v q : Nat} (hk : k < 4) (hv : v < 8) :
    coreGet (coreSet s c k v) c q = if q = k then v else coreGet s c q := by
  rw [coreSet_eq]
  split
  · rename_i heq
    split
    · rw [← heq, ‹q = k›]
    · rfl
  · rw [coreGet, pageIrq_reg _ _ _ (by decide), if_neg (by simp), coreShown_core]
    split
    · rw [‹q = k›, bitsOf_putBits_same _ _ (by omega)]
      omega
    · rw [bitsOf_putBits_ne _ _ (by omega), coreGet]

/-! ### A boundary's turn -/

/-- One core at a boundary. -/
def coreStep (c : Nat) (s : State) (k : Nat) : State :=
  if coreGet s c k = coreLeaving then coreSet s c k coreOut else if coreGet s c k = coreJoining then coreSet s c k coreIn else s

theorem coreTurn_eq (s : State) (c : Nat) : coreTurn s c = eachIn (List.range 4) (coreStep c) s := rfl

theorem coreStep_only (c : Nat) (s : State) (k : Nat) : ClusterOnly c s (coreStep c s k) := by
  unfold coreStep
  split
  · exact coreSet_only ..
  · split
    · exact coreSet_only ..
    · exact .refl c s

theorem coreStep_get (s : State) (c : Nat) {k q : Nat} (hk : k < 4) :
    coreGet (coreStep c s k) c q = if q = k then turned (coreGet s c q) else coreGet s c q := by
  unfold coreStep turned
  split
  · rw [coreGet_coreSet s c hk (by decide)]
    split
    · rw [‹q = k›, if_pos ‹_›]
    · rfl
  · split
    · rw [coreGet_coreSet s c hk (by decide)]
      split
      · rw [‹q = k›, if_neg ‹_›, if_pos ‹_›]
      · rfl
    · split
      · rw [‹q = k›, if_neg ‹_›, if_neg ‹_›]
      · rfl

theorem coreTurn_only (s : State) (c : Nat) : ClusterOnly c s (coreTurn s c) := .each (coreStep_only c) s

/-- After the turn of a cluster each of its cores has left or joined. -/
theorem coreTurn_get (s : State) (c : Nat) {q : Nat} (hq : q < 4) : coreGet (coreTurn s c) c q = turned (coreGet s c q) := by
  have hlist : ∀ l : List Nat, (∀ k ∈ l, k < 4) → ∀ s, coreGet (eachIn l (coreStep c) s) c q =
      if q ∈ l then turned (coreGet s c q) else coreGet s c q := by
    intro l
    induction l with
    | nil => exact fun _ s => rfl
    | cons k l ih =>
      intro hl s
      refine (ih (fun k hk => hl k (List.mem_cons_of_mem _ hk)) (coreStep c s k)).trans ?_
      rw [coreStep_get s c (hl k List.mem_cons_self)]
      by_cases hk : q = k <;> by_cases hm : q ∈ l <;> simp [hk, hm, turned_turned]
  rw [coreTurn_eq, hlist _ (fun k hk => List.mem_range.mp hk), if_pos (List.mem_range.mpr hq)]

theorem eachTurn_get (l : List Nat) (s : State) (c : Nat) {q : Nat} (hq : q < 4) :
    coreGet (eachIn l coreTurn s) c q = if c ∈ l then turned (coreGet s c q) else coreGet s c q := by
  induction l generalizing s with
  | nil => rfl
  | cons d l ih =>
    refine (ih (coreTurn s d)).trans ?_
    by_cases hd : c = d
    · subst hd
      rw [coreTurn_get s c hq, turned_turned]
      simp
    · rw [(coreTurn_only s d).cores hd]
      simp [hd]

/-- Turns of cores write the clusters' pages and tell the host. -/
theorem eachTurn_only (l : List Nat) (s : State) :
    eachIn l coreTurn s = { s with regs := (eachIn l coreTurn s).regs, host := (eachIn l coreTurn s).host } ∧
      PagesOnly (fun q => ∃ c ∈ l, q = pgLens + c) s (eachIn l coreTurn s) :=
  eachIn_rel (R := fun s t => t = { s with regs := t.regs, host := t.host } ∧ PagesOnly (fun q => ∃ c ∈ l, q = pgLens + c) s t)
    (fun s => ⟨rfl, .refl _ s⟩) (fun h g => ⟨regsHost_trans h.1 g.1, h.2.trans g.2⟩)
    (fun t c hc => ⟨(coreTurn_only t c).shape, (coreTurn_only t c).pages.mono fun _ hq => ⟨c, hc, hq⟩⟩) s

theorem mem_clustersOf {s : State} {mask c : Nat} : c ∈ clustersOf s mask ↔ c < s.var.lensClusters ∧ natBit mask c = true := by
  rw [clustersOf, List.mem_filter, List.mem_range, natBit]

theorem lensClusters_le (v : Variant) : v.lensClusters ≤ 16 := by cases v <;> decide

end Sys2Proof.Machine
end

section
/-! SUPPORT. The boundary of a slot whose requests rest (R437, R438, R496, R502): the draft binding, ADMIT and BATCH. -/

namespace Sys2Proof.Machine

/-! ### Requests that rest -/

/-- No request of a slot waits for a reservation, and each one in use is being paused with its pages. -/
def Resting (s : State) (m : Nat) : Prop :=
  ∀ e ∈ s.serve.reqs, e.2.slot = m → e.2.state ≠ .free →
    ((reqGet s e.1).state = .pausing ∧ (reqGet s e.1).pauseSummary = false) ∧
      ¬ (e.2.granted = false ∧ (e.2.state = .queued ∨ (e.2.state = .resuming ∧ e.2.restore = .waiting)))

theorem mem_slotReqs {s : State} {m q : Nat} : q ∈ slotReqs s m ↔ ∃ e ∈ s.serve.reqs, e.2.state ≠ .free ∧ e.2.slot = m ∧ e.1 = q := by
  simp only [slotReqs, List.mem_map, List.mem_filter, decide_eq_true_eq]
  exact ⟨fun ⟨e, ⟨he, hs, hm⟩, hq⟩ => ⟨e, he, hs, hm, hq⟩, fun ⟨e, he, hs, hm, hq⟩ => ⟨e, ⟨he, hs, hm⟩, hq⟩⟩

namespace Resting
variable {s t : State} {m : Nat}

theorem pausing (h : Resting s m) {q : Nat} (hq : q ∈ slotReqs s m) : (reqGet s q).state = .pausing ∧ (reqGet s q).pauseSummary = false := by
  obtain ⟨e, he, hs, hm, rfl⟩ := mem_slotReqs.mp hq
  exact (h e he hm hs).1

theorem waiting (h : Resting s m) : waitingReqs s m = [] := by
  have hnone : (s.serve.reqs.filter fun r => r.2.slot = m ∧ r.2.granted = false ∧
      (r.2.state = .queued ∨ (r.2.state = .resuming ∧ r.2.restore = .waiting))) = [] := by
    refine List.filter_eq_nil_iff.mpr fun e he hw => ?_
    obtain ⟨hm, hg, hst⟩ := of_decide_eq_true hw
    exact (h e he hm (by rcases hst with hst | ⟨hst, -⟩ <;> rw [hst] <;> decide)).2 ⟨hg, hst⟩
  unfold waitingReqs
  rw [hnone]
  rfl

theorem congr (h : Resting s m) (hr : t.serve.reqs = s.serve.reqs) : Resting t m := by
  unfold Resting
  simp only [reqGet_congr hr, hr]
  exact h

/-- A slot without requests rests. -/
theorem of_empty (h : slotReqs s m = []) : Resting s m := fun e he hm hs =>
  absurd (mem_slotReqs.mpr ⟨e, he, hs, hm, rfl⟩) (by rw [h]; exact List.not_mem_nil)

end Resting

/-- A fold whose steps change nothing. -/
theorem foldl_stays {α β : Type} {f : β → α → β} {b : β} {l : List α} (h : ∀ a ∈ l, f b a = b) : l.foldl f b = b := by
  induction l with
  | nil => rfl
  | cons a l ih => rw [List.foldl_cons, h a List.mem_cons_self, ih fun a ha => h a (List.mem_cons_of_mem _ ha)]

/-! ### ADMIT and BATCH -/

theorem admitStep_rests {s : State} {m : Nat} (h : Resting s m) : admitStep s m = s := by
  unfold admitStep
  rw [h.waiting]
  refine foldl_stays fun r hr => if_neg fun hc => ?_
  rw [supplyAll, (h.pausing hr).2] at hc
  exact absurd hc.2 (by decide)

/-- The policies of a slot are taken, and it has no step. -/
def policiesTaken (s : State) (m : Nat) : State :=
  mslotSet s m { mslotGet s m with
    pol0 := s.reg pgSampler (F.SMP_POL0_FAIR.off + 16 * m), pol1 := s.reg pgSampler (F.SMP_POL1_TOKEN_CAP.off + 16 * m)
    pol2 := s.reg pgSampler (F.SMP_POL2_CHUNK_MAX.off + 16 * m), step := none }

/-- A slot changes in what the scheduler counts: its clusters, binding and policies stay, and it runs no step. -/
structure SlotIdles (m : Nat) (s t : State) : Prop where
  shape : t = { s with serve := { s.serve with slots := t.serve.slots } }
  clusters : (mslotGet t m).clusters = (mslotGet s m).clusters
  bind : (mslotGet t m).bind = (mslotGet s m).bind
  pol0 : (mslotGet t m).pol0 = (mslotGet s m).pol0
  pol1 : (mslotGet t m).pol1 = (mslotGet s m).pol1
  pol2 : (mslotGet t m).pol2 = (mslotGet s m).pol2
  step : (mslotGet t m).step = (mslotGet s m).step

namespace SlotIdles
variable {s t u : State} {m : Nat}

theorem refl (m : Nat) (s : State) : SlotIdles m s s := ⟨rfl, rfl, rfl, rfl, rfl, rfl, rfl⟩

theorem trans (h : SlotIdles m s t) (g : SlotIdles m t u) : SlotIdles m s u :=
  ⟨g.shape.trans (by rw [h.shape]), g.clusters.trans h.clusters, g.bind.trans h.bind, g.pol0.trans h.pol0, g.pol1.trans h.pol1,
    g.pol2.trans h.pol2, g.step.trans h.step⟩

theorem set {x : MSlot} (hc : x.clusters = (mslotGet s m).clusters) (hb : x.bind = (mslotGet s m).bind) (h0 : x.pol0 = (mslotGet s m).pol0)
    (h1 : x.pol1 = (mslotGet s m).pol1) (h2 : x.pol2 = (mslotGet s m).pol2) (hs : x.step = (mslotGet s m).step) :
    SlotIdles m s (mslotSet s m x) := by
  have hget : mslotGet (mslotSet s m x) m = x := Tab.get_set_same ..
  exact ⟨rfl, by rw [hget, hc], by rw [hget, hb], by rw [hget, h0], by rw [hget, h1], by rw [hget, h2], by rw [hget, hs]⟩

end SlotIdles

theorem fairReturn_idles (s : State) (m : Nat) (cands : List Nat) : SlotIdles m s (fairReturn s m cands) := .set rfl rfl rfl rfl rfl rfl

theorem rhoUpdate_idles (s : State) (m : Nat) : SlotIdles m s (rhoUpdate s m []) := by
  unfold rhoUpdate
  dsimp only
  split
  · exact .refl m s
  · exact .set rfl rfl rfl rfl rfl rfl

theorem takeKind_nil (s : State) (m : Nat) (kind : ReqState) (got : List (Nat × StepPart)) (b : Nat) : takeKind s m kind [] got b = (got, b) := rfl

theorem formStep_nil (s : State) (m : Nat) : formStep s m [] = [] := by
  unfold formStep
  simp only [takeKind_nil, ite_self]

theorem candidates_rests {s : State} {m : Nat} (h : Resting s m) : candidates s m = [] := by
  unfold candidates
  refine List.filter_eq_nil_iff.mpr fun r hr => ?_
  simp [(h.pausing hr).1]

/-- A slot whose requests rest forms no step. -/
theorem batchStep_rests {s : State} {m : Nat} (heads : List (Nat × Nat)) (h : Resting s m) :
    SlotIdles m (policiesTaken s m) (batchStep s m heads) := by
  have hrest : Resting (policiesTaken s m) m := h.congr rfl
  have hstep : (mslotGet (policiesTaken s m) m).step = none := by rw [policiesTaken, mslotGet, mslotSet_serve, Tab.get_set_same]
  unfold batchStep
  dsimp only
  rw [← policiesTaken]
  generalize policiesTaken s m = u at hrest hstep
  split
  · exact .refl m u
  · have hrings : eachIn (slotReqs u m) (fun s r => if (reqGet s r).state = .prefill ∨ (reqGet s r).state = .decode then ringTest s r heads else s) u = u :=
      foldl_stays fun r hr => if_neg (by rw [(hrest.pausing hr).1]; decide)
    rw [hrings, candidates_rests hrest]
    have hidle := (fairReturn_idles u m []).trans (rhoUpdate_idles (fairReturn u m []) m)
    have hrest' : Resting (rhoUpdate (fairReturn u m []) m []) m := hrest.congr (by rw [hidle.shape])
    have hsums : ((slotReqs (rhoUpdate (fairReturn u m []) m []) m).filter fun r =>
        (reqGet (rhoUpdate (fairReturn u m []) m []) r).state = .pausing && (reqGet (rhoUpdate (fairReturn u m []) m []) r).pauseSummary &&
          (reqGet (rhoUpdate (fairReturn u m []) m []) r).summary.isNone && !cancelDue (rhoUpdate (fairReturn u m []) m []) r) = [] :=
      List.filter_eq_nil_iff.mpr fun r hr => by simp [(hrest'.pausing hr).2]
    rw [hsums]
    refine hidle.trans (.set rfl rfl rfl rfl rfl ?_)
    rw [hidle.step, hstep]
    simp [orderReqs, formStep_nil]

/-! ### The draft binding -/

theorem Tab.get_mapVal {α : Type} (t : Tab α) (f : Nat → α → α) (d : α) (k : Nat) (hd : f k d = d) : (t.mapVal f).get d k = f k (t.get d k) := by
  have hfind : Tab.find? (t.mapVal f) k = (Tab.find? t k).map (f k) := by
    induction t with
    | nil => rfl
    | cons e t ih =>
      obtain ⟨q, v⟩ := e
      have ih : Tab.find? (List.map (fun kv => (kv.1, f kv.1 kv.2)) t) k = (Tab.find? t k).map (f k) := ih
      simp only [Tab.mapVal, List.map_cons, Tab.find?, ih]
      split
      · rw [‹q = k›]
        rfl
      · rfl
  rw [Tab.get, hfind, Tab.get]
  cases Tab.find? t k with
  | none => exact hd.symm
  | some v => rfl

/-- The draft context of a slot's requests is dropped. -/
def dropDraft (m : Nat) (x : Req) : Req := if x.slot = m then { x with draftCtx := false } else x

/-- Requests change in their draft contexts alone. -/
structure DraftsOnly (s t : State) : Prop where
  reqs : ∀ k, ∃ b, reqGet t k = { reqGet s k with draftCtx := b }
  rests : ∀ m, Resting s m → Resting t m

theorem DraftsOnly.of_same {s t : State} (h : t.serve.reqs = s.serve.reqs) : DraftsOnly s t :=
  ⟨fun k => ⟨(reqGet s k).draftCtx, reqGet_congr h k⟩, fun _ hr => hr.congr h⟩

theorem DraftsOnly.trans {s t u : State} (h : DraftsOnly s t) (g : DraftsOnly t u) : DraftsOnly s u := by
  refine ⟨fun k => ?_, fun m hr => g.rests m (h.rests m hr)⟩
  obtain ⟨b, hb⟩ := h.reqs k
  obtain ⟨c, hc⟩ := g.reqs k
  exact ⟨c, by rw [hc, hb]⟩

theorem dropDraft_only {s t : State} (m : Nat) (h : t.serve.reqs = s.serve.reqs.mapVal fun _ => dropDraft m) : DraftsOnly s t := by
  have hget : ∀ k, reqGet t k = dropDraft m (reqGet s k) := fun k => by
    rw [reqGet, h, Tab.get_mapVal _ _ _ _ (by unfold dropDraft; split <;> rfl), reqGet]
  have hdrop : ∀ x : Req, ∃ b, dropDraft m x = { x with draftCtx := b } := fun x => by
    unfold dropDraft
    split
    · exact ⟨false, rfl⟩
    · exact ⟨x.draftCtx, rfl⟩
  refine ⟨fun k => by rw [hget]; exact hdrop _, fun n hr e he hm hs => ?_⟩
  rw [h] at he
  obtain ⟨f, hf, rfl⟩ := List.mem_map.mp he
  obtain ⟨b, hb⟩ := hdrop f.2
  obtain ⟨c, hc⟩ := hdrop (reqGet s f.1)
  dsimp only at hm hs ⊢
  rw [hb] at hm hs ⊢
  rw [hget, hc]
  exact hr f hf hm hs

/-- LIVE follows the binding: the draft page, the host, and draft contexts change. -/
theorem liveUpdate_only (s : State) {m : Nat} (hm : m < 8) :
    liveUpdate s m = { s with regs := (liveUpdate s m).regs, host := (liveUpdate s m).host, serve := { s.serve with reqs := (liveUpdate s m).serve.reqs } } ∧
      PagesOnly (fun q => q = pgDraft) s (liveUpdate s m) ∧ DraftsOnly s (liveUpdate s m) := by
  have hoff : (F.DRAFT_BIND_LIVE.sh (4 * m)).off < 4096 := by
    have : (F.DRAFT_BIND_LIVE.sh (4 * m)).off = 0x100 + 4 * m := rfl
    omega
  have hregs : PagesOnly (fun q => q = pgDraft) s (pageIrq (s.fset pgDraft (F.DRAFT_BIND_LIVE.sh (4 * m)) (b2n (bindLive s m))) pgDraft 1) :=
    ((PagesOnly.refl (fun q => q = pgDraft) s).fset rfl hoff).pageIrq rfl
  have hshape := regsHost_trans (fset_shape s pgDraft (F.DRAFT_BIND_LIVE.sh (4 * m)) (b2n (bindLive s m)))
    (pageIrq_shape (s.fset pgDraft (F.DRAFT_BIND_LIVE.sh (4 * m)) (b2n (bindLive s m))) pgDraft 1)
  have hserve : (pageIrq (s.fset pgDraft (F.DRAFT_BIND_LIVE.sh (4 * m)) (b2n (bindLive s m))) pgDraft 1).serve = s.serve := by rw [hshape]
  unfold liveUpdate
  dsimp only
  split
  · exact ⟨rfl, .refl _ s, .of_same rfl⟩
  · generalize pageIrq (s.fset pgDraft (F.DRAFT_BIND_LIVE.sh (4 * m)) (b2n (bindLive s m))) pgDraft 1 = u at hregs hshape hserve ⊢
    split
    · exact ⟨by rw [hshape], hregs, .of_same (by rw [hserve])⟩
    · exact ⟨by rw [hshape], hregs, dropDraft_only m (by rw [hserve]; rfl)⟩

/-! ### CORES -/

/-- The clusters that take part in a boundary of a slot. -/
def boundaryClusters (s : State) (m : Nat) : List Nat :=
  clustersOf s ((mslotGet s m).clusters ||| s.fget pgServe (F.SERVE_SLOT_CFG_CLUSTERS.sh (16 * m)))

/-- The cores have turned, and the slot takes its clusters and its binding. -/
def coresTaken (s : State) (m : Nat) : State :=
  let u := eachIn (boundaryClusters s m) coreTurn s
  mslotSet u m { mslotGet u m with
    clusters := s.fget pgServe (F.SERVE_SLOT_CFG_CLUSTERS.sh (16 * m)), bind := u.reg pgDraft (F.DRAFT_BIND_DSLOT.off + 4 * m) }

theorem coresStep_eq (s : State) (m : Nat) : coresStep s m = liveUpdate (coresTaken s m) m := rfl

/-- The pages that a boundary writes: those of the clusters and of the draft engine. -/
abbrev boundaryPages (s : State) (q : Nat) : Prop := q = pgDraft ∨ ∃ c, c < s.var.lensClusters ∧ q = pgLens + c

/-- What CORES does for a slot. -/
structure CoresTurned (m : Nat) (s t : State) : Prop where
  shape : t = { s with regs := t.regs, host := t.host, serve := { s.serve with slots := t.serve.slots, reqs := t.serve.reqs } }
  pages : PagesOnly (boundaryPages s) s t
  drafts : DraftsOnly s t
  clusters : (mslotGet t m).clusters = s.fget pgServe (F.SERVE_SLOT_CFG_CLUSTERS.sh (16 * m))
  bind : (mslotGet t m).bind = s.reg pgDraft (F.DRAFT_BIND_DSLOT.off + 4 * m)
  cores : ∀ c q, c ∈ boundaryClusters s m → q < 4 → coreGet t c q = turned (coreGet s c q)

theorem coresStep_turns (s : State) {m : Nat} (hm : m < 8) : CoresTurned m s (coresStep s m) := by
  obtain ⟨hshape, hregs⟩ := eachTurn_only (boundaryClusters s m) s
  have hcores : ∀ c q, c ∈ boundaryClusters s m → q < 4 → coreGet (eachIn (boundaryClusters s m) coreTurn s) c q = turned (coreGet s c q) :=
    fun c q hc hq => by rw [eachTurn_get _ s c hq, if_pos hc]
  have hin : ∀ c ∈ boundaryClusters s m, c < s.var.lensClusters := fun c hc => (mem_clustersOf.mp hc).1
  have hclusters := lensClusters_le s.var
  have htaken : coresTaken s m = mslotSet (eachIn (boundaryClusters s m) coreTurn s) m { mslotGet (eachIn (boundaryClusters s m) coreTurn s) m with
      clusters := s.fget pgServe (F.SERVE_SLOT_CFG_CLUSTERS.sh (16 * m)),
      bind := (eachIn (boundaryClusters s m) coreTurn s).reg pgDraft (F.DRAFT_BIND_DSLOT.off + 4 * m) } := rfl
  rw [coresStep_eq]
  generalize eachIn (boundaryClusters s m) coreTurn s = u at hshape hregs hcores htaken
  have hbind : u.reg pgDraft (F.DRAFT_BIND_DSLOT.off + 4 * m) = s.reg pgDraft (F.DRAFT_BIND_DSLOT.off + 4 * m) := by
    refine hregs _ _ (by simp only; omega) ?_
    rintro ⟨c, hc, he⟩
    have := hin c hc
    simp only [pgDraft, pgLens] at he
    omega
  have hget : mslotGet (coresTaken s m) m = { mslotGet u m with
      clusters := s.fget pgServe (F.SERVE_SLOT_CFG_CLUSTERS.sh (16 * m)), bind := u.reg pgDraft (F.DRAFT_BIND_DSLOT.off + 4 * m) } := by
    rw [htaken, mslotGet, mslotSet_serve, Tab.get_set_same]
  have hslot : coresTaken s m = { u with serve := { u.serve with slots := (coresTaken s m).serve.slots } } := by rw [htaken]; rfl
  generalize coresTaken s m = v at hget hslot
  obtain ⟨hlive, hpages, hdrafts⟩ := liveUpdate_only v hm
  have hvs : PagesOnly (fun q => ∃ c ∈ boundaryClusters s m, q = pgLens + c) s v := by rw [hslot]; exact hregs
  have hmslot : mslotGet (liveUpdate v m) m = mslotGet v m := by
    rw [hlive]
    rfl
  refine ⟨?_, (hvs.mono fun q ⟨c, hc, he⟩ => .inr ⟨c, hin c hc, he⟩).trans (hpages.mono fun _ => .inl), ?_, ?_, ?_, fun c q hc hq => ?_⟩
  · rw [hlive, hslot, hshape]
  · refine (DraftsOnly.of_same ?_).trans hdrafts
    rw [hslot, hshape]
  · rw [hmslot, hget]
  · rw [hmslot, hget]
    exact hbind
  · have hlens : coreGet (liveUpdate v m) c q = coreGet v c q := by
      have := hin c hc
      rw [coreGet, hpages _ _ (by decide) (by simp only [pgDraft, pgLens]; omega), coreGet]
    have hv : coreGet v c q = coreGet u c q := by rw [hslot]; rfl
    rw [hlens, hv, hcores c q hc hq]

/-! ### The rest of a boundary -/

/-- What a boundary does for a slot whose requests rest: CORES, and the policies. -/
structure BoundaryTaken (m : Nat) (s t : State) : Prop where
  shape : t = { s with regs := t.regs, host := t.host, serve := { s.serve with slots := t.serve.slots, reqs := t.serve.reqs } }
  pages : PagesOnly (boundaryPages s) s t
  reqs : ∀ k, ∃ b, reqGet t k = { reqGet s k with draftCtx := b }
  clusters : (mslotGet t m).clusters = s.fget pgServe (F.SERVE_SLOT_CFG_CLUSTERS.sh (16 * m))
  bind : (mslotGet t m).bind = s.reg pgDraft (F.DRAFT_BIND_DSLOT.off + 4 * m)
  pol0 : (mslotGet t m).pol0 = s.reg pgSampler (F.SMP_POL0_FAIR.off + 16 * m)
  pol1 : (mslotGet t m).pol1 = s.reg pgSampler (F.SMP_POL1_TOKEN_CAP.off + 16 * m)
  pol2 : (mslotGet t m).pol2 = s.reg pgSampler (F.SMP_POL2_CHUNK_MAX.off + 16 * m)
  step : (mslotGet t m).step = none
  cores : ∀ c q, c < s.var.lensClusters → q < 4 →
    natBit ((mslotGet s m).clusters ||| s.fget pgServe (F.SERVE_SLOT_CFG_CLUSTERS.sh (16 * m))) c = true → coreGet t c q = turned (coreGet s c q)

theorem boundary_rests {s : State} {m : Nat} (heads : List (Nat × Nat)) (hm : m < 8) (h : Resting s m) :
    BoundaryTaken m s (batchStep (admitStep (coresStep s m) m) m heads) := by
  have hcores := coresStep_turns s hm
  have hlens := lensClusters_le s.var
  generalize coresStep s m = u at hcores
  have hrest := hcores.drafts.rests m h
  rw [admitStep_rests hrest]
  have hbatch := batchStep_rests heads hrest
  have hpol : mslotGet (policiesTaken u m) m = { mslotGet u m with
      pol0 := u.reg pgSampler (F.SMP_POL0_FAIR.off + 16 * m), pol1 := u.reg pgSampler (F.SMP_POL1_TOKEN_CAP.off + 16 * m)
      pol2 := u.reg pgSampler (F.SMP_POL2_CHUNK_MAX.off + 16 * m), step := none } := by rw [policiesTaken, mslotGet, mslotSet_serve, Tab.get_set_same]
  have hslot : policiesTaken u m = { u with serve := { u.serve with slots := (policiesTaken u m).serve.slots } } := rfl
  have hsampler : ∀ o, o < 4096 → u.reg pgSampler o = s.reg pgSampler o := fun o ho => hcores.pages _ _ ho (by
    rintro (he | ⟨c, hc, he⟩) <;> simp only [pgSampler, pgDraft, pgLens] at he <;> omega)
  generalize policiesTaken u m = v at hbatch hpol hslot
  generalize batchStep u m heads = t at hbatch
  have ht : t = { u with serve := { u.serve with slots := t.serve.slots } } := by rw [hbatch.shape, hslot]
  have hreqs : t.serve.reqs = u.serve.reqs := by rw [ht]
  have hregs : ∀ p o, t.reg p o = u.reg p o := fun p o => by rw [ht]; rfl
  refine ⟨?_, fun p o ho hn => (hregs p o).trans (hcores.pages p o ho hn), fun k => ?_, ?_, ?_, ?_, ?_, ?_, ?_, fun c q hc hq hb => ?_⟩
  · rw [ht, hcores.shape]
  · obtain ⟨b, hb⟩ := hcores.drafts.reqs k
    exact ⟨b, (reqGet_congr hreqs k).trans hb⟩
  · rw [hbatch.clusters, hpol]
    exact hcores.clusters
  · rw [hbatch.bind, hpol]
    exact hcores.bind
  · rw [hbatch.pol0, hpol]
    exact hsampler _ (by simp only; omega)
  · rw [hbatch.pol1, hpol]
    exact hsampler _ (by simp only; omega)
  · rw [hbatch.pol2, hpol]
    exact hsampler _ (by simp only; omega)
  · rw [hbatch.step, hpol]
  · rw [coreGet, hregs, ← coreGet]
    exact hcores.cores c q (mem_clustersOf.mpr ⟨hc, hb⟩) hq

end Sys2Proof.Machine
end

section
/-! SUPPORT. A boundary of a slot without requests, and the pause of a run at a boundary (R437, R438, R458, R461). -/

namespace Sys2Proof.Machine

/-! ### Boundaries that commit nothing -/

/-- COMMIT of one member of a step. -/
def commitMember (m : Nat) (heads : List (Nat × Nat)) (acc : State × List Nat × Tab Nat) (mb : Nat × StepPart) : State × List Nat × Tab Nat :=
  if (reqGet acc.1 mb.1).state = .free ∨ cancelDue acc.1 mb.1 then acc
  else
    let c := commitOne acc.1 m mb.1 mb.2 heads
    (c.1, if c.2.2 then mb.1 :: acc.2.1 else acc.2.1, acc.2.2.set 0 (reqGet acc.1 mb.1).part (acc.2.2.get 0 (reqGet acc.1 mb.1).part + c.2.1))

/-- The end of a request whose budget has stayed spent. -/
def endSpent (heads : List (Nat × Nat)) (acc : State × List Nat) (q : Nat) : State × List Nat :=
  let x := reqGet acc.1 q
  if x.spent ∧ (x.state = .prefill ∨ x.state = .decode) ∧ ¬ acc.2.contains q ∧ cancelDue acc.1 q = false then
    (finishRun acc.1 q 5 stBudgetExhausted heads, q :: acc.2)
  else acc

theorem commitStep_eq (s : State) (m : Nat) (members : List (Nat × StepPart)) (heads : List (Nat × Nat)) :
    commitStep s m members heads =
      let r := members.foldl (commitMember m heads) (s, [], [])
      (slotReqs (eachIn r.2.2 (fun s pc => fairCharge s m pc.1 pc.2) r.1) m).foldl (endSpent heads)
        (eachIn r.2.2 (fun s pc => fairCharge s m pc.1 pc.2) r.1, r.2.1) := rfl

/-- A step whose members are all gone commits nothing, and no budget has stayed spent. -/
theorem commitStep_nothing {s : State} {m : Nat} {members : List (Nat × StepPart)} (heads : List (Nat × Nat))
    (hfree : ∀ e ∈ members, (reqGet s e.1).state = .free) (hs : ∀ q ∈ slotReqs s m, (reqGet s q).spent = false) :
    commitStep s m members heads = (s, []) := by
  have hmembers : members.foldl (commitMember m heads) (s, [], []) = (s, [], []) := foldl_stays fun e he => if_pos (.inl (hfree e he))
  have hspent : (slotReqs s m).foldl (endSpent heads) (s, []) = (s, []) := foldl_stays fun q hq => if_neg fun hc => by simp [hs q hq] at hc
  rw [commitStep_eq, hmembers]
  exact hspent

/-- Where nothing has ended, nothing is released. -/
theorem releaseStep_nothing {s : State} {m : Nat} (heads : List (Nat × Nat)) (h : ∀ q ∈ slotReqs s m, cancelDue s q = false) :
    releaseStep s m [] heads = s :=
  foldl_stays fun q hq => by simp [h q hq]

/-- The boundary of a slot without requests. -/
theorem boundary_empty {s : State} {m : Nat} {members : List (Nat × StepPart)} (heads : List (Nat × Nat)) (hm : m < 8) (h : slotReqs s m = [])
    (hfree : ∀ e ∈ members, (reqGet s e.1).state = .free) :
    BoundaryTaken m s (boundaryRest (commitStep s m members heads).1 m (commitStep s m members heads).2 heads) := by
  have hno : ∀ q ∈ slotReqs s m, False := fun q hq => by rw [h] at hq; exact absurd hq List.not_mem_nil
  have hpause : pauseStep s m heads = s := foldl_stays fun q hq => (hno q hq).elim
  rw [commitStep_nothing heads hfree fun q hq => (hno q hq).elim, boundaryRest]
  dsimp only
  rw [releaseStep_nothing heads fun q hq => (hno q hq).elim, hpause]
  exact boundary_rests heads hm (.of_empty h)

/-- The count of a slot's steps. -/
abbrev stepCount (s : State) (m : Nat) : Nat := s.reg64 pgServe (F.SERVE_SLOT_STEP_LO.off + 16 * m) (F.SERVE_SLOT_STEP_LO.off + 16 * m + 4)

/-- A boundary leaves the registers of SERVE. -/
theorem BoundaryTaken.serve {s t : State} {m : Nat} (h : BoundaryTaken m s t) {o : Nat} (ho : o < 4096) : t.reg pgServe o = s.reg pgServe o := by
  have := lensClusters_le s.var
  refine h.pages _ _ ho ?_
  rintro (he | ⟨c, hc, he⟩) <;> simp only [pgServe, pgDraft, pgLens] at he <;> omega

theorem BoundaryTaken.count {s t : State} {m : Nat} (h : BoundaryTaken m s t) (hm : m < 8) : stepCount t m = stepCount s m := by
  have hoff : F.SERVE_SLOT_STEP_LO.off = 0x108 := rfl
  rw [stepCount, State.reg64, h.serve (by omega), h.serve (by omega), ← State.reg64]

/-- What the statement on boundaries says is applied, for a slot that was `x` with clusters `next` to come. -/
def Applied (s t : State) (m : Nat) : Prop :=
  (mslotGet t m).clusters = s.fget pgServe (F.SERVE_SLOT_CFG_CLUSTERS.sh (16 * m)) ∧
    (mslotGet t m).bind = s.reg pgDraft (F.DRAFT_BIND_DSLOT.off + 4 * m) ∧ (mslotGet t m).pol0 = s.reg pgSampler (F.SMP_POL0_FAIR.off + 16 * m) ∧
    (mslotGet t m).pol1 = s.reg pgSampler (F.SMP_POL1_TOKEN_CAP.off + 16 * m) ∧
    (mslotGet t m).pol2 = s.reg pgSampler (F.SMP_POL2_CHUNK_MAX.off + 16 * m) ∧ (mslotGet t m).step = none ∧
    ∀ c k, c < s.var.lensClusters → k < 4 →
      natBit ((mslotGet s m).clusters ||| s.fget pgServe (F.SERVE_SLOT_CFG_CLUSTERS.sh (16 * m))) c = true → coreGet t c k =
        if coreGet s c k = coreLeaving then coreOut else if coreGet s c k = coreJoining then coreIn else coreGet s c k

theorem BoundaryTaken.applied {s t : State} {m : Nat} (h : BoundaryTaken m s t) : Applied s t m :=
  ⟨h.clusters, h.bind, h.pol0, h.pol1, h.pol2, h.step, fun c k hc hk hb => h.cores c k hc hk hb⟩

/-- The step that ends is counted. -/
def stepCounted (s : State) (m : Nat) : State :=
  s.setReg64 pgServe (F.SERVE_SLOT_STEP_LO.off + 16 * m) (F.SERVE_SLOT_STEP_LO.off + 16 * m + 4) ((stepCount s m + 1) % 2 ^ 64)

theorem stepCounted_reg (s : State) {m : Nat} (hm : m < 8) {p o : Nat} (ho : o < 4096)
    (h : p ≠ pgServe ∨ (o ≠ 0x108 + 16 * m ∧ o ≠ 0x108 + 16 * m + 4)) : (stepCounted s m).reg p o = s.reg p o := by
  have hoff : F.SERVE_SLOT_STEP_LO.off = 0x108 := rfl
  have hregs : RegsOnly [(pgServe, 0x108 + 16 * m), (pgServe, 0x108 + 16 * m + 4)] s (stepCounted s m) := by
    rw [stepCounted, hoff]
    exact (RegsOnly.refl _ s).setReg64 (by simp) (by simp) (by omega) (by omega)
  refine hregs p o ho ?_
  simp only [List.mem_cons, Prod.mk.injEq, List.not_mem_nil, or_false]
  omega

theorem stepCounted_count (s : State) (m : Nat) : stepCount (stepCounted s m) m = (stepCount s m + 1) % 2 ^ 64 := by
  rw [stepCount, stepCounted, reg64_setReg64_same _ _ (by omega), Nat.mod_mod]

theorem stepCounted_same (s : State) (m : Nat) :
    (stepCounted s m).serve = s.serve ∧ (stepCounted s m).var = s.var ∧ ∀ k, mslotGet (stepCounted s m) k = mslotGet s k := by
  have hserve : (stepCounted s m).serve = s.serve := by rw [stepCounted, setReg64_serve]
  exact ⟨hserve, by rw [stepCounted, setReg64_var], fun k => mslotGet_congr (by rw [hserve]) k⟩

/-- What the count leaves for the rest of the boundary. -/
theorem Applied.of_counted {s t : State} {m : Nat} (hm : m < 8) (h : Applied (stepCounted s m) t m) : Applied s t m := by
  have hcfg : (stepCounted s m).fget pgServe (F.SERVE_SLOT_CFG_CLUSTERS.sh (16 * m)) = s.fget pgServe (F.SERVE_SLOT_CFG_CLUSTERS.sh (16 * m)) := by
    have hoff : (F.SERVE_SLOT_CFG_CLUSTERS.sh (16 * m)).off = 0x100 + 16 * m := rfl
    rw [State.fget, stepCounted_reg s hm (by omega) (.inr (by omega)), State.fget]
  have hdraft : (stepCounted s m).reg pgDraft (F.DRAFT_BIND_DSLOT.off + 4 * m) = s.reg pgDraft (F.DRAFT_BIND_DSLOT.off + 4 * m) :=
    stepCounted_reg s hm (by simp only; omega) (.inl (by decide))
  have hsampler : ∀ o, o < 4096 → (stepCounted s m).reg pgSampler o = s.reg pgSampler o := fun o ho => stepCounted_reg s hm ho (.inl (by decide))
  have hcore : ∀ c k, c < s.var.lensClusters → coreGet (stepCounted s m) c k = coreGet s c k := fun c k hc => by
    have := lensClusters_le s.var
    rw [coreGet, stepCounted_reg s hm (by decide) (.inl (by simp only [pgLens, pgServe]; omega)), coreGet]
  obtain ⟨-, hvar, hslot⟩ := stepCounted_same s m
  obtain ⟨hc, hb, h0, h1, h2, hs, hk⟩ := h
  refine ⟨hc.trans hcfg, hb.trans hdraft, h0.trans (hsampler _ (by simp only; omega)), h1.trans (hsampler _ (by simp only; omega)),
    h2.trans (hsampler _ (by simp only; omega)), hs, fun c k hlt hk4 hbit => ?_⟩
  rw [hk c k (by rw [hvar]; exact hlt) hk4 (by rw [hcfg, hslot]; exact hbit), hcore c k hlt]

theorem stepBoundary_empty {s : State} {m : Nat} {l : List (Nat × StepPart)} (heads : List (Nat × Nat)) (hm : m < 8) (h : slotReqs s m = [])
    (hl : (mslotGet s m).step = some l) (hfree : ∀ e ∈ l, (reqGet s e.1).state = .free) :
    ∃ t, exec (.stepBoundary m heads) s = .next t ∧ stepCount t m = (stepCount s m + 1) % 2 ^ 64 ∧ Applied s t m := by
  have hnext : exec (.stepBoundary m heads) s =
      .next (boundaryRest (commitStep (stepCounted s m) m l heads).1 m (commitStep (stepCounted s m) m l heads).2 heads) := by
    have hexec : exec (.stepBoundary m heads) s = execStepBoundary m heads s := rfl
    rw [hexec, execStepBoundary, nxt, hl]
    dsimp only
    rw [← stepCount, ← stepCounted]
  obtain ⟨hserve, -, -⟩ := stepCounted_same s m
  have hreqs : (stepCounted s m).serve.reqs = s.serve.reqs := by rw [hserve]
  have htaken := boundary_empty (s := stepCounted s m) (members := l) heads hm (by rw [slotReqs, hreqs]; exact h)
    fun e he => by rw [reqGet_congr hreqs]; exact hfree e he
  exact ⟨_, hnext, (htaken.count hm).trans (stepCounted_count s m), .of_counted hm htaken.applied⟩

theorem idleSlotApply_next {s : State} {m : Nat} (heads : List (Nat × Nat)) (hs : (mslotGet s m).step = none) :
    exec (.idleSlotApply m heads) s = .next (boundaryRest (commitStep s m [] heads).1 m (commitStep s m [] heads).2 heads) := by
  have hexec : exec (.idleSlotApply m heads) s = execIdleSlotApply m heads s := rfl
  rw [hexec, execIdleSlotApply, nxt, hs]
  rfl

theorem idleSlotApply_empty {s : State} {m : Nat} (heads : List (Nat × Nat)) (hm : m < 8) (h : slotReqs s m = [])
    (hs : (mslotGet s m).step = none) :
    ∃ t, exec (.idleSlotApply m heads) s = .next t ∧ stepCount t m = stepCount s m ∧ Applied s t m := by
  have htaken := boundary_empty (members := []) heads hm h fun e he => absurd he List.not_mem_nil
  exact ⟨_, idleSlotApply_next heads hs, htaken.count hm, htaken.applied⟩

end Sys2Proof.Machine
end

section
/-! SUPPORT. The pause of a run at a boundary (R458, R461): the marker in the ring, the end of the job, and the entry that is kept. -/

namespace Sys2Proof.Machine

/-! ### The end marker -/

/-- The write of the next ring entry of a request (Table 13.13). -/
abbrev ringTx (y : Req) (low index : Nat) : HostTx :=
  .write y.part (y.ringBase + 0x40 + 8 * (y.written % 2 ^ y.ringLog2))
    (leBytes 8 (low + index % 2 ^ 31 * 2 ^ 32 + b2n (y.written / 2 ^ y.ringLog2 % 2 == 0) * 2 ^ 63))

/-- The ring entry of a PAUSED marker. -/
abbrev pausedMarker (y : Req) : HostTx := ringTx y (2 ^ 18 + b2n y.flushed * 2 ^ 19 + 4 * 2 ^ 21) y.outCount

/-- A request with a marker written, late or not. -/
def marked (y : Req) (late : Bool) : Req := { y with written := y.written + 1, late := late }

/-- The host has got a ring entry. -/
def ringSent (s : State) (r low index : Nat) : State :=
  { s with host := { s.host with out := ringTx (reqGet s r) low index :: s.host.out } }

theorem ringEntry_hears {s : State} {r : Nat} (low index : Nat) (hh : HostHears s (reqGet s r).part) :
    ringEntry s r low index =
      reqSet (ringSent s r low index) r (marked (reqGet s r) (reqGet s r).late) := by
  unfold ringEntry
  dsimp only
  rw [hostSend_hears _ hh]
  rfl

/-- The requests of a slot that pauses: one entry, which waits for nothing. -/
def OneRuns (s : State) (m r : Nat) : Prop :=
  ∀ e ∈ s.serve.reqs, e.2.slot = m → e.2.state ≠ .free → e.1 = r ∧
    ¬ (e.2.granted = false ∧ (e.2.state = .queued ∨ (e.2.state = .resuming ∧ e.2.restore = .waiting)))

theorem Tab.mem_set {α : Type} [DecidableEq α] {t : Tab α} {d : α} {k : Nat} {v : α} {e : Nat × α} (h : e ∈ t.set d k v) : e = (k, v) ∨ e ∈ t := by
  unfold Tab.set at h
  split at h
  · exact .inr (by
      induction t with
      | nil => exact h
      | cons f t ih =>
        obtain ⟨q, w⟩ := f
        unfold Tab.del at h
        split at h
        · exact List.mem_cons_of_mem _ (ih h)
        · exact (List.mem_cons.mp h).elim (fun e => e ▸ List.mem_cons_self) fun h => List.mem_cons_of_mem _ (ih h))
  · exact Tab.mem_ins h

theorem OneRuns.reqSet {s : State} {m r : Nat} {x : Req} (h : OneRuns s m r) (hq : x.state ≠ .queued) (hr : x.state ≠ .resuming) :
    OneRuns (reqSet s r x) m r := by
  intro e he hm hs
  obtain rfl | he := Tab.mem_set he
  · exact ⟨rfl, fun hw => hw.2.elim hq fun hw => hr hw.1⟩
  · exact h e he hm hs

theorem OneRuns.congr {s t : State} {m r : Nat} (h : OneRuns s m r) (hr : t.serve.reqs = s.serve.reqs) : OneRuns t m r := by
  unfold OneRuns
  rw [hr]
  exact h

theorem OneRuns.of_slot {s : State} {m r : Nat} (h : slotReqs s m = [r]) (hw : waitingReqs s m = []) : OneRuns s m r := by
  intro e he hm hs
  have hmem : e.1 ∈ slotReqs s m := mem_slotReqs.mpr ⟨e, he, hs, hm, rfl⟩
  rw [h, List.mem_singleton] at hmem
  refine ⟨hmem, fun hwait => ?_⟩
  have hfound := find?_foldl_ins (fun e : Nat × Req => e.2.seq) (fun e => e.1) (s.serve.reqs.filter fun r => r.2.slot = m ∧ r.2.granted = false ∧
    (r.2.state = .queued ∨ (r.2.state = .resuming ∧ r.2.restore = .waiting))) [] e.2.seq
    (.inr ⟨e, List.mem_filter.mpr ⟨he, decide_eq_true ⟨hm, hwait⟩⟩, rfl⟩)
  rw [List.map_eq_nil_iff.mp hw] at hfound
  exact hfound rfl

/-- The single request of a slot that is being paused with its pages rests. -/
theorem OneRuns.resting {s : State} {m r : Nat} (h : OneRuns s m r) (hs : (reqGet s r).state = .pausing) (hp : (reqGet s r).pauseSummary = false) :
    Resting s m := by
  intro e he hm hst
  obtain ⟨hr, hw⟩ := h e he hm hst
  exact ⟨by rw [hr]; exact ⟨hs, hp⟩, hw⟩

/-! ### The end of the run -/

/-- What the PAUSED marker of a request with room in its ring changes. -/
structure MarkerWritten (m r : Nat) (s t : State) : Prop where
  shape : t = { s with regs := t.regs, host := t.host, serve := { s.serve with reqs := t.serve.reqs } }
  entry : ∃ late, reqGet t r = marked (reqGet s r) late
  runs : OneRuns s m r → OneRuns t m r
  out : pausedMarker (reqGet s r) :: s.host.out <:+ t.host.out

theorem ringMarker_writes {s : State} {m r : Nat} (heads : List (Nat × Nat)) (hq : (reqGet s r).state ≠ .queued) (hr : (reqGet s r).state ≠ .resuming)
    (hf : ringFree (reqGet s r) ≠ 0) (hh : HostHears s (reqGet s r).part) : MarkerWritten m r s (ringMarker s r 4 heads) := by
  have hentry := ringEntry_hears (2 ^ 18 + b2n (reqGet s r).flushed * 2 ^ 19 + 4 * 2 ^ 21) (reqGet s r).outCount hh
  unfold ringMarker
  dsimp only
  rw [if_neg hf, if_neg hf, hentry]
  have hout : (ringSent s r (2 ^ 18 + b2n (reqGet s r).flushed * 2 ^ 19 + 4 * 2 ^ 21) (reqGet s r).outCount).host.out =
      pausedMarker (reqGet s r) :: s.host.out := rfl
  have hshape : ringSent s r (2 ^ 18 + b2n (reqGet s r).flushed * 2 ^ 19 + 4 * 2 ^ 21) (reqGet s r).outCount = { s with
      host := (ringSent s r (2 ^ 18 + b2n (reqGet s r).flushed * 2 ^ 19 + 4 * 2 ^ 21) (reqGet s r).outCount).host } := rfl
  generalize ringSent s r (2 ^ 18 + b2n (reqGet s r).flushed * 2 ^ 19 + 4 * 2 ^ 21) (reqGet s r).outCount = u at hout hshape ⊢
  have hset : reqGet (reqSet u r (marked (reqGet s r) (reqGet s r).late)) r = marked (reqGet s r) (reqGet s r).late := reqGet_reqSet_same ..
  have hruns : OneRuns s m r → OneRuns (reqSet u r (marked (reqGet s r) (reqGet s r).late)) m r := fun h =>
    (h.congr (by rw [hshape])).reqSet hq hr
  have honly' : EntryOnly r u (reqSet u r (marked (reqGet s r) (reqGet s r).late)) := (EntryOnly.refl r u).reqSet _
  have hsent : (reqSet u r (marked (reqGet s r) (reqGet s r).late)).host.out = pausedMarker (reqGet s r) :: s.host.out := hout
  generalize reqSet u r (marked (reqGet s r) (reqGet s r).late) = v at hset hruns honly' hsent ⊢
  have hset' : v = { s with regs := v.regs, host := v.host, serve := { s.serve with reqs := v.serve.reqs } } := by rw [honly'.shape, hshape]
  split
  · have hlate : reqGet (reqMod v r fun x => { x with late := true }) r = marked (reqGet s r) true := by rw [reqGet_reqMod_same, hset]; rfl
    have honly : EntryOnly r v (reqMod v r fun x => { x with late := true }) := (EntryOnly.refl r v).reqMod _
    have hruns' : OneRuns s m r → OneRuns (reqMod v r fun x => { x with late := true }) m r := fun h =>
      (hruns h).reqSet (by rw [hset]; exact hq) (by rw [hset]; exact hr)
    generalize (reqMod v r fun x => { x with late := true }) = w at hlate honly hruns'
    have hcount := regsHost_trans (fset_shape w pgSampler F.SMP_LATE (satAdd (w.fget pgSampler F.SMP_LATE) 1 0xFFFFFFFF))
      (pageIrq_shape (w.fset pgSampler F.SMP_LATE (satAdd (w.fget pgSampler F.SMP_LATE) 1 0xFFFFFFFF)) pgSampler 1)
    have hkeeps : Keeps w (pageIrq (w.fset pgSampler F.SMP_LATE (satAdd (w.fget pgSampler F.SMP_LATE) 1 0xFFFFFFFF)) pgSampler 1) :=
      pageIrq_keeps (Keeps.refl w).fset
    generalize pageIrq (w.fset pgSampler F.SMP_LATE (satAdd (w.fget pgSampler F.SMP_LATE) 1 0xFFFFFFFF)) pgSampler 1 = t at hcount hkeeps ⊢
    have hreqs : t.serve.reqs = w.serve.reqs := by rw [hcount]
    refine ⟨?_, ⟨true, (reqGet_congr hreqs r).trans hlate⟩, fun h => (hruns' h).congr hreqs, ?_⟩
    · rw [hcount, honly.shape, hset']
    · refine List.IsSuffix.trans ?_ hkeeps.out
      rw [honly.shape, hsent]
  · exact ⟨hset', ⟨_, hset⟩, hruns, by rw [hsent]⟩

/-- A run that is paused: its entry. -/
def pausedEntry (y : Req) : Req := { y with job := none, state := .pausing, pausePending := false, imagePages := y.row.length, summary := none }

/-- What the pause of a run changes: registers, the host side, entries, and the job, which ends. -/
structure RunPaused (m r j : Nat) (z : Job) (s t : State) : Prop where
  shape : t = { s with regs := t.regs, host := t.host, serve := { s.serve with reqs := t.serve.reqs }, qe := { s.qe with jobs := t.qe.jobs } }
  entry : ∃ late, reqGet t r = pausedEntry (marked (reqGet s r) late)
  runs : OneRuns s m r → OneRuns t m r
  ends : Ends t j z stOk (runResult (reqGet s r) 4)
  out : pausedMarker (reqGet s r) :: s.host.out <:+ t.host.out

/-- The run of a paused request is over; the REQ_PAUSE waits on. -/
def runOver (x : Req) : Req := { x with job := none }

theorem finishRun_pauses {s : State} {r j : Nat} (heads : List (Nat × Nat)) (hj : (reqGet (ringMarker s r 4 heads) r).job = some j) :
    finishRun s r 4 stOk heads =
      reqMod (jobDone (ringMarker s r 4 heads) j stOk (runResult (reqGet (ringMarker s r 4 heads) r) 4)) r runOver := by
  unfold finishRun
  generalize ringMarker s r 4 heads = u at hj ⊢
  simp only [hj]
  cases (reqGet u r).pauseJob <;> rfl

theorem pauseStep_pauses {s : State} {m r j : Nat} {z : Job} (heads : List (Nat × Nat)) (h : slotReqs s m = [r])
    (hst : (reqGet s r).state = .prefill ∨ (reqGet s r).state = .decode) (hp : (reqGet s r).pausePending = true)
    (hf : ringFree (reqGet s r) ≠ 0) (hh : HostHears s (reqGet s r).part) (hjob : (reqGet s r).job = some j) (hj : jobGet s j = some z)
    (hl : s.part.resets.find? z.part = none) : RunPaused m r j z s (pauseStep s m heads) := by
  have hq : (reqGet s r).state ≠ .queued := by rcases hst with hst | hst <;> rw [hst] <;> decide
  have hr : (reqGet s r).state ≠ .resuming := by rcases hst with hst | hst <;> rw [hst] <;> decide
  have hmark := ringMarker_writes (m := m) heads hq hr hf hh
  obtain ⟨late, hentry⟩ := hmark.entry
  have hfinish := finishRun_pauses (s := s) (r := r) (j := j) heads (by rw [hentry]; exact hjob)
  have hpause : pauseStep s m heads = reqMod (finishRun s r 4 stOk heads) r fun x =>
      { x with state := .pausing, pausePending := false, imagePages := x.row.length, summary := none } := by
    unfold pauseStep
    rw [h]
    exact if_pos ⟨hp, hst⟩
  rw [hpause, hfinish]
  have hresult : runResult (reqGet (ringMarker s r 4 heads) r) 4 = runResult (reqGet s r) 4 := by rw [hentry]; rfl
  rw [hresult]
  generalize ringMarker s r 4 heads = u at hmark hentry ⊢
  have huj : jobGet u j = some z := by rw [hmark.shape]; exact hj
  have hul : u.part.resets.find? z.part = none := by rw [hmark.shape]; exact hl
  have hdone := jobDone_changes stOk (runResult (reqGet s r) 4) huj hul
  have hends := jobDone_ends stOk (runResult (reqGet s r) 4) huj hul
  generalize jobDone u j stOk (runResult (reqGet s r) 4) = v at hdone hends ⊢
  have hvreqs : v.serve.reqs = u.serve.reqs := by rw [hdone]
  have hv : reqGet v r = marked (reqGet s r) late := (reqGet_congr hvreqs r).trans hentry
  have hover : reqGet (reqMod v r runOver) r = runOver (marked (reqGet s r) late) := by rw [reqGet_reqMod_same, hv]
  have honly : EntryOnly r v (reqMod v r runOver) := (EntryOnly.refl r v).reqMod _
  have hruns : OneRuns s m r → OneRuns (reqMod v r runOver) m r := fun h =>
    ((hmark.runs h).congr hvreqs).reqSet (by rw [hv]; exact hq) (by rw [hv]; exact hr)
  generalize reqMod v r runOver = w at hover honly hruns ⊢
  have hlast := honly.reqMod fun x => { x with state := .pausing, pausePending := false, imagePages := x.row.length, summary := none }
  refine ⟨?_, ⟨late, by rw [reqGet_reqMod_same, hover]; rfl⟩, fun h => (hruns h).reqSet (fun e => by cases e) (fun e => by cases e), ?_, ?_⟩
  · rw [hlast.shape, hdone, hmark.shape]
  · rw [hlast.shape]
    exact hends
  · rw [hlast.shape, hdone]
    exact hmark.out

/-- A running request with a pause pending, alone in its idle slot, is paused at the boundary. -/
theorem idleSlotApply_pauses {s : State} {m r j : Nat} {z : Job} (heads : List (Nat × Nat)) (hm : m < 8) (h : slotReqs s m = [r])
    (hw : waitingReqs s m = []) (hs : (mslotGet s m).step = none) (hst : (reqGet s r).state = .prefill ∨ (reqGet s r).state = .decode)
    (hp : (reqGet s r).pausePending = true) (hsum : (reqGet s r).pauseSummary = false) (hspent : (reqGet s r).spent = false)
    (hc : cancelDue s r = false) (hf : ringFree (reqGet s r) ≠ 0) (hjob : (reqGet s r).job = some j) (hj : jobGet s j = some z)
    (hl : s.part.resets.find? z.part = none) (hh : HostHears s (reqGet s r).part) :
    ∃ t l, exec (.idleSlotApply m heads) s = .next t ∧ (reqGet t r).state = .pausing ∧ (reqGet t r).pausePending = false ∧ (reqGet t r).job = none ∧
      (reqGet t r).imagePages = (reqGet s r).row.length ∧ (reqGet t r).row = (reqGet s r).row ∧ Ends t j z stOk (runResult (reqGet s r) 4) ∧
      t.host.out = l ++ pausedMarker (reqGet s r) :: s.host.out := by
  have hone : ∀ q ∈ slotReqs s m, q = r := fun q hq => by rw [h] at hq; exact List.mem_singleton.mp hq
  have hcommit := commitStep_nothing (members := []) heads (fun e he => absurd he List.not_mem_nil) fun q hq => by rw [hone q hq]; exact hspent
  have hrelease := releaseStep_nothing heads fun q hq => by rw [hone q hq]; exact hc
  have hpaused := pauseStep_pauses heads h hst hp hf hh hjob hj hl
  have hnext := idleSlotApply_next heads hs
  rw [hcommit] at hnext
  dsimp only at hnext
  rw [boundaryRest, hrelease] at hnext
  generalize pauseStep s m heads = u at hpaused hnext
  obtain ⟨late, hu⟩ := hpaused.entry
  have hrest := (hpaused.runs (.of_slot h hw)).resting (by rw [hu]; rfl) (by rw [hu]; exact hsum)
  have htaken := boundary_rests heads hm hrest
  have hkeeps : Keeps u (batchStep (admitStep (coresStep u m) m) m heads) := batchStep_keeps (admitStep_keeps (coresStep_keeps (Keeps.refl u)))
  generalize batchStep (admitStep (coresStep u m) m) m heads = t at htaken hkeeps hnext
  obtain ⟨b, ht⟩ := htaken.reqs r
  obtain ⟨l, hout⟩ := hpaused.out.trans hkeeps.out
  have hends : Ends t j z stOk (runResult (reqGet s r) 4) := by
    rw [htaken.shape]
    exact hpaused.ends
  refine ⟨t, l, hnext, ?_, ?_, ?_, ?_, ?_, hends, hout.symm⟩ <;> rw [ht, hu] <;> rfl

end Sys2Proof.Machine
end

section
/-! SUPPORT. Pages that are returned, pause images, the end of TTL and resumptions (R446, R449, R461, R462, R464), and the statement on boundaries
and pauses. -/

namespace Sys2Proof.Machine

/-! ### Pages that are returned -/

/-- Work on KV pages: registers, the host side, device memory, the pages and whether QE lives. -/
def KvOnly (s t : State) : Prop :=
  t = { s with regs := t.regs, host := t.host, mem := t.mem, serve := { s.serve with pages := t.serve.pages, pageChain := t.serve.pageChain },
               qe := { s.qe with dead := t.qe.dead } }

namespace KvOnly
variable {s t u : State}

theorem refl (s : State) : KvOnly s s := rfl

theorem trans (h : KvOnly s t) (g : KvOnly t u) : KvOnly s u := by
  unfold KvOnly at g h ⊢
  refine g.trans ?_
  rw [h]

theorem of_dram (h : DramOnly s t) : KvOnly s t := by
  unfold KvOnly
  rw [h.shape]

theorem of_regsHost (h : t = { s with regs := t.regs, host := t.host }) : KvOnly s t := by
  unfold KvOnly
  rw [h]

theorem qeInternal (s : State) : KvOnly s (qeInternal s) := by
  have hcapture : KvOnly s (capture s pgChip 0x0509 0 0) := of_regsHost (capture_shape ..)
  refine hcapture.trans ?_
  unfold Machine.qeInternal
  exact rfl

theorem kvPut (s : State) (p : Nat) (x : KvPage) (next : Nat) : KvOnly s (kvPut s p x next) := by
  have hheld : KvOnly s { s with serve := { s.serve with pages := s.serve.pages.set {} p x } } := rfl
  exact hheld.trans (of_dram (dramWrite_only ..))

theorem descCheck (s : State) (p part : Nat) : KvOnly s (descCheck s p part) := by
  have hread : KvOnly s (dramRead s (kvDesc s / 8 + p) part).2 := of_dram (dramRead_only ..)
  unfold Machine.descCheck
  revert hread
  rcases dramRead s (kvDesc s / 8 + p) part with ⟨d, u⟩
  intro hread
  cases d with
  | some d => exact hread
  | none => exact (hread.trans (of_regsHost (capture_shape ..))).trans (qeInternal _)

theorem kvDrop (s : State) (p part : Nat) (node : Bool) : KvOnly s (kvDrop s p part node) := by
  unfold Machine.kvDrop
  dsimp only
  split
  · have hchain : ∀ u : State, KvOnly u { u with serve := { u.serve with pageChain := u.serve.pageChain.push p } } := fun _ => rfl
    exact ((descCheck ..).trans (kvPut ..)).trans (hchain _)
  · exact (descCheck ..).trans (kvPut ..)

theorem rowWrite (s : State) (r i : Nat) (page : Option Nat) : KvOnly s (rowWrite s r i page) := of_dram (dramPartial_only ..)

theorem each {α : Type} {l : List α} {f : State → α → State} (hf : ∀ t a, KvOnly t (f t a)) (s : State) : KvOnly s (eachIn l f s) :=
  eachIn_rel refl trans (fun t a _ => hf t a) s

/-- The entries of the Request Table stay. -/
theorem reqs (h : KvOnly s t) : t.serve.reqs = s.serve.reqs := by rw [h]

end KvOnly

/-- A request without pages and reservation. -/
def pagesBack (x : Req) : Req := { x with row := [], reserved := 0, granted := false, copies := [], path := [] }

/-- A page of a request's row is returned: its charge, its hold and its entry of the row. -/
def rowReturned (r part : Nat) (s : State) (e : Nat × Nat) : State :=
  let y := kvGet s e.2
  let s := match y.charged with
    | some (r', _) => if r' = r then kvPut s e.2 { y with charged := none } else s
    | none => s
  rowWrite (kvDrop s e.2 part false) r e.1 none

theorem rowReturned_only (r part : Nat) (s : State) (e : Nat × Nat) : KvOnly s (rowReturned r part s e) := by
  unfold rowReturned
  dsimp only
  refine (KvOnly.trans ?_ (KvOnly.kvDrop ..)).trans (KvOnly.rowWrite ..)
  split
  · split
    · exact .kvPut ..
    · exact .refl s
  · exact .refl s

/-- A page that waits to be copied is returned. -/
def copyReturned (part : Nat) (s : State) (c : Nat × Nat × Nat × Nat) : State := kvDrop s c.2.2.1 part false

theorem releasePages_eq (s : State) (r : Nat) :
    releasePages s r = reqMod (eachIn (reqGet s r).copies (copyReturned (reqGet s r).part)
      (eachIn (reqGet s r).row (rowReturned r (reqGet s r).part) s)) r pagesBack := rfl

/-- The pages of a request are returned, and its entry holds none. -/
theorem releasePages_returns (s : State) (r : Nat) : ∃ u, KvOnly s u ∧ releasePages s r = reqSet u r (pagesBack (reqGet s r)) := by
  have hrow := KvOnly.each (l := (reqGet s r).row) (rowReturned_only r (reqGet s r).part) s
  have hcopies := KvOnly.each (l := (reqGet s r).copies) (f := copyReturned (reqGet s r).part) (fun t c => KvOnly.kvDrop ..)
    (eachIn (reqGet s r).row (rowReturned r (reqGet s r).part) s)
  have hall := hrow.trans hcopies
  refine ⟨_, hall, ?_⟩
  rw [releasePages_eq, reqMod, reqGet_congr hall.reqs r]

/-! ### The pause image -/

theorem pagesOf_only (s : State) (r : Nat) : DramOnly s (pagesOf s r).2 :=
  List.foldlRecOn (motive := fun acc : List (List (Option Byte)) × State => DramOnly s acc.2) _ _ (.refl s) fun _ h _ _ => h.trans (dramLoad_only ..)

/-- A PAUSED request whose image is written. -/
def pausedRequest (s : State) (x : Req) : Req :=
  { x with state := .paused, draftCtx := false, ttlEnd := (s.now + 800000 * x.pauseTtl) % 2 ^ 64, pauseJob := none, row := [], reserved := 0,
           granted := false, copies := [], path := [] }

/-- The bytes of a pause image that a host which hears the partition gets. -/
theorem hostWrite_hears {s : State} {part addr : Nat} {bs : List (Option Byte)} (hb : ∀ b ∈ bs, b.isSome = true) (hh : HostHears s part) :
    ∃ u, hostWrite s part addr bs = (bs.length, true, u) ∧ u = { s with host := u.host } ∧ u.host.bme = s.host.bme ∧
      u.host.out = (if bs = [] then [] else [.write part addr (bs.map fun b => b.getD 0)]) ++ s.host.out := by
  unfold hostWrite
  simp only [takeWhile_all hb, decide_true, List.take_length]
  by_cases hbs : bs = []
  · exact ⟨s, by simp [hbs], rfl, rfl, by simp [hbs]⟩
  · rw [if_neg (by simpa using hbs), hostSend_hears _ hh]
    exact ⟨_, rfl, rfl, rfl, by simp [hbs]⟩

/-- The request becomes PAUSED when its pages are returned. -/
def pauseDone (s : State) (x : Req) : Req :=
  { x with state := .paused, draftCtx := false, ttlEnd := (s.now + 800000 * x.pauseTtl) % 2 ^ 64, pauseJob := none }

theorem pauseImage_whole {s u v : State} {r j : Nat} {bs : List (Option Byte)} (hp : pagesOf s r = (bs, u)) (hj : (reqGet s r).pauseJob = some j)
    (hw : hostWrite u (reqGet s r).part (reqGet s r).pauseAddr bs = (bs.length, true, v)) :
    let w := releasePages (hostSend v (reqGet s r).part (.write (reqGet s r).part ((reqGet s r).pauseAddr + bs.length)
      (trailer v r (crc32 (bs.map fun b => b.getD 0))))) r
    pauseImage s r = jobDone (reqMod w r (pauseDone w)) j stOk (reqGet s r).imagePages := by
  unfold pauseImage
  simp only [hp, hw, hj, not_true, if_false]
  rfl

/-- PAUSE_WRITE_DONE of a request that no cancel waits for: pages and trailer go to the host, and the REQ_PAUSE ends. -/
theorem pauseWriteDone_pauses {s u : State} {r j : Nat} {z : Job} {bs : List (Option Byte)} (hst : (reqGet s r).state = .pausing)
    (hsum : (reqGet s r).pauseSummary = false) (hc : cancelDue s r = false) (hp : pagesOf s r = (bs, u)) (hb : ∀ b ∈ bs, b.isSome = true)
    (hx : (reqGet s r).pauseJob = some j) (hj : jobGet s j = some z) (hl : s.part.resets.find? z.part = none) (hh : HostHears s (reqGet s r).part) :
    let x := reqGet s r
    let data := bs.map fun b => b.getD 0
    ∃ t l, exec (.pauseWriteDone r) s = .next t ∧ Ends t j z stOk x.imagePages ∧ reqGet t r = pausedRequest s x ∧
      t.host.out = l ++ .write x.part (x.pauseAddr + bs.length) (trailer u r (crc32 data)) ::
        ((if bs = [] then [] else [.write x.part x.pauseAddr data]) ++ u.host.out) := by
  dsimp only
  have honly := pagesOf_only s r
  rw [hp] at honly
  obtain ⟨v, hw, hv, hbme, hvout⟩ := hostWrite_hears (addr := (reqGet s r).pauseAddr) hb (honly.hears hh)
  have hnext : exec (.pauseWriteDone r) s = .next (pauseImage s r) := by
    have hexec : exec (.pauseWriteDone r) s = execPauseWriteDone r s := rfl
    rw [hexec, execPauseWriteDone, nxt, if_neg (by simp [hst, hsum]), if_neg (by simp [hc])]
  have hreqs : v.serve.reqs = s.serve.reqs := by rw [hv, honly.shape]
  have htrailer : ∀ crc, trailer v r crc = trailer u r crc := fun crc => by
    have hget : reqGet v r = reqGet u r := reqGet_congr (by rw [hv]) r
    rw [trailer, trailer, handleOf, handleOf, hget]
  have hvh : HostHears v (reqGet s r).part := ⟨by rw [hv]; exact (honly.hears hh).1, by rw [hbme]; exact (honly.hears hh).2⟩
  rw [pauseImage_whole hp hx hw, htrailer, hostSend_hears _ hvh] at hnext
  generalize trailer u r (crc32 (bs.map fun b => b.getD 0)) = tr at hnext ⊢
  generalize ha : ({ v with host := { v.host with
      out := .write (reqGet s r).part ((reqGet s r).pauseAddr + bs.length) tr
        :: v.host.out } } : State) = a at hnext
  have haout : a.host.out = .write (reqGet s r).part ((reqGet s r).pauseAddr + bs.length) tr :: v.host.out := by rw [← ha]
  have hareqs : a.serve.reqs = s.serve.reqs := by rw [← ha]; exact hreqs
  have hatime : a.time = s.time := by rw [← ha, hv, honly.shape]
  have haj : jobGet a j = some z := by rw [← ha, hv, honly.shape]; exact hj
  have hal : a.part.resets.find? z.part = none := by rw [← ha, hv, honly.shape]; exact hl
  have hkeeps : Keeps a (releasePages a r) := releasePages_keeps (Keeps.refl a)
  obtain ⟨b, hkv, hback⟩ := releasePages_returns a r
  have hget : reqGet (releasePages a r) r = pagesBack (reqGet s r) := by rw [hback, reqGet_reqSet_same, reqGet_congr hareqs r]
  have hwork : EntryOnly r b (releasePages a r) := by rw [hback]; exact (EntryOnly.refl r b).reqSet _
  generalize releasePages a r = w at hnext hkeeps hget hwork
  have hlast := hwork.reqMod (pauseDone w)
  have hnow : w.now = s.now := by rw [State.now, hwork.shape, hkv, hatime, State.now]
  have hdj : jobGet (reqMod w r (pauseDone w)) j = some z := by rw [hlast.shape, hkv]; exact haj
  have hdl : (reqMod w r (pauseDone w)).part.resets.find? z.part = none := by rw [hlast.shape, hkv]; exact hal
  have hentry : reqGet (reqMod w r (pauseDone w)) r = pauseDone w (pagesBack (reqGet s r)) := by rw [reqGet_reqMod_same, hget]
  have hdout : (reqMod w r (pauseDone w)).host.out = w.host.out := rfl
  generalize reqMod w r (pauseDone w) = d at hnext hdj hdl hentry hdout
  have hserve := jobDone_serve d j stOk (reqGet s r).imagePages
  have hdone := jobDone_changes stOk (reqGet s r).imagePages hdj hdl
  obtain ⟨l, hl⟩ := hkeeps.out
  refine ⟨_, l, hnext, jobDone_ends stOk _ hdj hdl, ?_, ?_⟩
  · rw [reqGet, hserve, ← reqGet, hentry, pauseDone, hnow]
    rfl
  · rw [hdone, ← hvout, ← haout]
    exact hdout.trans hl.symm

/-! ### The end of TTL -/

theorem pauseTtlExpiry_frees {s : State} {r : Nat} (hst : (reqGet s r).state = .paused) (ht : (reqGet s r).ttlEnd ≠ 0) (hrow : (reqGet s r).row = [])
    (hcopies : (reqGet s r).copies = []) (hc : (reqGet s r).cancelJobs = []) (hu : (mslotGet s (reqGet s r).slot).unload = none) :
    let x := reqGet s r
    ∃ t, exec (.pauseTtlExpiry r) s = .next t ∧ t = { s with regs := t.regs, time := t.time, serve := t.serve, host := t.host } ∧ reqGet t r = {} ∧
      (∀ k, k ≠ r → reqGet t k = reqGet s k) ∧ (s.time.running = true → x.ttlEnd < 2 ^ 64 → x.ttlEnd ≤ t.now) ∧
      t.fget pgRqt F.RQT_EXPIRED_COUNT = satAdd (s.fget pgRqt F.RQT_EXPIRED_COUNT) 1 0xFFFF ∧ (t.reg pgRqt F.PG_IRQ_STAT_ERR.off).getLsbD 0 = true := by
  dsimp only
  have hnext : exec (.pauseTtlExpiry r) s =
      .next (pageIrq ((releaseReq (s.reach (reqGet s r).ttlEnd) r).fincSat pgRqt F.RQT_EXPIRED_COUNT 1) pgRqt 1) := by
    have hexec : exec (.pauseTtlExpiry r) s = execPauseTtlExpiry r s := rfl
    rw [hexec, execPauseTtlExpiry, nxt, if_neg (by simp [hst, ht])]
  have hnow : s.time.running = true → (reqGet s r).ttlEnd < 2 ^ 64 → (reqGet s r).ttlEnd ≤ (s.reach (reqGet s r).ttlEnd).now := fun hr hlt => by
    rw [reach_now _ hlt]
    split
    · exact le_refl _
    · rename_i hpast
      exact not_lt.mp fun h => hpast ⟨hr, h⟩
  have hshape := reach_shape s (reqGet s r).ttlEnd
  have hregs : ∀ p f, (s.reach (reqGet s r).ttlEnd).fget p f = s.fget p f := fun p f => reach_fget ..
  generalize s.reach (reqGet s r).ttlEnd = u at hnext hnow hshape hregs
  have hserve : u.serve = s.serve := by rw [hshape]
  have hget : ∀ k, reqGet u k = reqGet s k := fun k => by rw [reqGet, hserve, reqGet]
  have hrow' : (reqGet u r).row = [] := by rw [hget]; exact hrow
  have hcopies' : (reqGet u r).copies = [] := by rw [hget]; exact hcopies
  have hfreed : releaseReq u r = entryFreed u r := by
    rw [releaseReq_bare hrow' hcopies' (by rw [hget, mslotGet_congr (s := s) (by rw [hserve])]; exact hu), hget, hc]
    rfl
  obtain ⟨hfree, hothers⟩ := entryFreed_get hrow' hcopies'
  have hfshape := entryFreed_shape hrow' hcopies'
  rw [hfreed] at hnext
  generalize entryFreed u r = v at hnext hfree hothers hfshape
  have hcount := regsHost_trans (fset_shape v pgRqt F.RQT_EXPIRED_COUNT _) (pageIrq_shape (v.fincSat pgRqt F.RQT_EXPIRED_COUNT 1) pgRqt 1)
  have hexpired : (pageIrq (v.fincSat pgRqt F.RQT_EXPIRED_COUNT 1) pgRqt 1).fget pgRqt F.RQT_EXPIRED_COUNT =
      satAdd (v.fget pgRqt F.RQT_EXPIRED_COUNT) 1 0xFFFF := by
    rw [pageIrq_fget _ _ _ (by decide) (by decide), fget_fincSat_same _ _ _ _ (by decide)]
    rfl
  have hbit := pageIrq_bit (v.fincSat pgRqt F.RQT_EXPIRED_COUNT 1) pgRqt (bits := 1) (i := 0) (by decide)
  generalize pageIrq (v.fincSat pgRqt F.RQT_EXPIRED_COUNT 1) pgRqt 1 = t at hnext hcount hexpired hbit
  have htreqs : t.serve.reqs = v.serve.reqs := by rw [hcount]
  refine ⟨t, hnext, ?_, (reqGet_congr htreqs r).trans hfree,
    fun k hk => (reqGet_congr htreqs k).trans ((hothers k hk).trans (hget k)),
    fun hr hlt => ?_, ?_, hbit⟩
  · rw [hcount, hfshape, hshape]
  · rw [State.now, hcount, hfshape]
    exact hnow hr hlt
  · have hv : v.fget pgRqt F.RQT_EXPIRED_COUNT = u.fget pgRqt F.RQT_EXPIRED_COUNT := by rw [hfshape]; rfl
    rw [hexpired, hv, hregs]

/-! ### Resumptions -/

/-- A restored request goes on with its appended tokens. -/
def tokensAppended (x : Req) (toks : List Nat) : Req :=
  { x with toks := x.toks.take (x.seqLen - x.tokBase) ++ (if toks = [] then [x.toks.getD (x.seqLen - x.tokBase) 0] else toks),
           promptLen := x.seqLen + toks.length, state := if toks = [] then .decode else .prefill }

theorem appendTokens_good {s : State} {r : Nat} {toks : List Nat} (hsum : (reqGet s r).summaryHeld = false)
    (h : ∀ k ∈ toks, k < hVocab (reqHdr s r)) : appendTokens s r toks = reqSet s r (tokensAppended (reqGet s r) toks) := by
  have hall : ¬ (toks.any fun t => decide (hVocab (reqHdr s r) ≤ t)) = true := by
    simp only [List.any_eq_true, decide_eq_true_eq, not_exists, not_and, not_le]
    exact h
  unfold appendTokens resumeRun
  rw [if_neg hall]
  dsimp only
  rw [hsum]
  simp only [Bool.false_eq_true, if_false, Bool.not_false, Bool.and_true]
  rfl

/-- RESUME_RESTORE_DONE with the appended tokens, or with none to come. -/
theorem resumeRestoreDone_appends {s : State} {r j : Nat} {y : Job} {toks : List Nat} (hst : (reqGet s r).state = .resuming)
    (hre : (reqGet s r).restore = .tokens) (hsum : (reqGet s r).summaryHeld = false) (hc : cancelDue s r = false) (hx : (reqGet s r).job = some j)
    (hj : jobGet s j = some y)
    (ht : ((reqGet s r).appended = 0 ∧ toks = []) ∨
      ((reqGet s r).appended ≠ 0 ∧ ∃ d, y.data = some (.good d []) ∧ toks = wordsOf d (reqGet s r).appended))
    (hv : ∀ k ∈ toks, k < hVocab (reqHdr s r)) :
    exec (.resumeRestoreDone r) s = .next (reqSet s r (tokensAppended (reqGet s r) toks)) := by
  have hexec : exec (.resumeRestoreDone r) s = execResumeRestoreDone r s := rfl
  rw [← appendTokens_good hsum hv, hexec, execResumeRestoreDone, nxt]
  rw [if_neg (by rw [hst, hre]; decide), if_neg (by simp [hc]), hx, Option.bind_some, hj]
  dsimp only
  obtain ⟨h0, rfl⟩ | ⟨h0, d, hd, rfl⟩ := ht
  · rw [if_pos ⟨hre, h0⟩]
  · rw [if_neg fun h => h0 h.2, hd]
    dsimp only
    rw [if_neg (by rw [hre]; decide)]

theorem wordsOf_length (d : List Byte) (n : Nat) : (wordsOf d n).length = n := by rw [wordsOf, List.length_map, List.length_range]

/-- Settles O55: a boundary whose requests rest only turns the cores and takes the settings; the pause of a run writes its marker before that, and the
image's end, TTL's end and a resumption change one entry each. -/
theorem stepsAndPauses : Obligations.StepsAndPauses := by
  unfold Obligations.StepsAndPauses
  refine ⟨?empty, ?pause, ?image, ?ttl, ?resume⟩
  case empty =>
    exact fun s m heads hm h => ⟨fun l hl hfree => stepBoundary_empty heads hm h hl hfree, fun hs => idleSlotApply_empty heads hm h hs⟩
  case pause =>
    exact fun s m heads r j z hm h hw hs hst hp hsum hspent hc hf hjob hj hl hh =>
      idleSlotApply_pauses heads hm h hw hs hst hp hsum hspent hc hf hjob hj hl hh
  case image =>
    exact fun s r j z bs u hst hsum hc hp hb hx hj hl hh => pauseWriteDone_pauses hst hsum hc hp hb hx hj hl hh
  case ttl =>
    exact fun s r hst ht hrow hcopies hc hu => pauseTtlExpiry_frees hst ht hrow hcopies hc hu
  case resume =>
    intro s r j y
    dsimp only
    intro hst hre hsum hc hx hj
    have honly : ∀ z, EntryOnly r s (reqSet s r z) := fun z => (EntryOnly.refl r s).reqSet z
    refine ⟨fun h0 => ?_, fun d h0 hd hv => ?_⟩
    · have hnext := resumeRestoreDone_appends hst hre hsum hc hx hj (.inl ⟨h0, rfl⟩) fun k hk => absurd hk List.not_mem_nil
      exact ⟨_, hnext, (honly _).shape, (honly _).others, reqGet_reqSet_same ..⟩
    · have hnext := resumeRestoreDone_appends hst hre hsum hc hx hj (.inr ⟨h0, d, hd, rfl⟩) hv
      have hlen := wordsOf_length d (reqGet s r).appended
      have hne : wordsOf d (reqGet s r).appended ≠ [] := fun e => h0 (by rw [← hlen, e]; rfl)
      refine ⟨_, hnext, (honly _).shape, (honly _).others, ?_⟩
      rw [reqGet_reqSet_same, tokensAppended, if_neg hne, if_neg hne, hlen]

end Sys2Proof.Machine
end
